-- ==== Sys2Proof/Word.lean ====
section
/-! DEFINITION. The word types: a byte, and the strings of bytes that frames, messages, records and BLOBs are. -/

namespace Sys2Proof

/-- Eight bits. -/
abbrev Byte := BitVec 8

/-- A string of bytes, lowest address or first on the wire first. -/
abbrev Bytes := List Byte

end Sys2Proof
end

