-- ==== Sys2Proof/Syntax.lean ====
section
/-! DEFINITION. The commands of spec/opcode_table.json, one constructor per row, with the operands the rows need.
Instants are nanoseconds of the module's gPTP time (R455). `w` of a parser row is bits [26:0] of the instruction word
(R57); `w` of a sequencer row is bits [55:0] of the instruction word (R194), the opcode being the row itself. -/

namespace Sys2Proof

/-- What a read's check bits say (R237, R238, R262, R346): nothing wrong, one bit corrected, or uncorrectable. -/
inductive Ecc where
  | clean | corrected | uncorrectable
  deriving DecidableEq, Repr, Inhabited

/-- What the check bits of scratchpad words say (R237, R238) in the order in which a command reads its 8-byte words, counted from 0:
(word, two bits in error). A word that is not named is read without an error. -/
structure Finds where
  hits : List (Nat × Bool) := []
  deriving DecidableEq, Repr, Inhabited

/-- A physical cell of the array that works wrongly while a command acts (R150, R179, R184): its tile and position; whether it is the
stationary value it holds or the term it forms; the streamed row at which it does (of the chunk; for a stationary value of INT4 the
half); and by how much: bits to turn, or what is added to an exact integer. -/
structure Upset where
  tile : Fin 16 := 0
  row : Fin 34 := 0
  col : Fin 34 := 0
  held : Bool := false
  place : Nat := 0
  err : Int := 0
  deriving DecidableEq, Repr, Inhabited

/-- Where diagnosis locates a fault of a core (R184, R252, R435): a cell or a line of a tile, or a row of a scratchpad bank. -/
inductive FaultAt where
  | cell (tile : Fin 16) (row col : Fin 34)
  | line (tile : Fin 16) (column : Bool) (n : Fin 34)
  | bankRow (quad : Fin 24) (bank : Fin 4) (row : Fin 260)
  deriving DecidableEq, Repr, Inhabited

/-- What befalls a message on its way across the mesh: the errors of one bit that its hops correct, whether a hop finds its header uncorrectable
(R273), and the credits that come to an output of a router beside those it is owed, as (stop, port, class) with port 0 the local one and 1 to 4
north, east, south and west (R266). -/
structure Travel where
  corrected : Nat := 0
  lost : Bool := false
  stray : List (Fin 25 × Fin 5 × Fin 4) := []
  deriving DecidableEq, Repr, Inhabited

/-- What the check of a queue word or tag says (R262). -/
inductive QueueEcc where
  | clean | corrected | badWord | badTag
  deriving DecidableEq, Repr, Inhabited

/-- A frame on a port: the bytes from the destination address to the last payload byte, and whether its FCS holds. -/
structure RawFrame where
  bytes : Bytes := []
  fcsOk : Bool := true
  deriving DecidableEq, Repr, Inhabited

/-- A fabric message: the header fields of R270 and the data flits' bytes. -/
structure Msg where
  ddev : Nat := 0
  dstop : Nat := 0
  sdev : Nat := 0
  sstop : Nat := 0
  part : Nat := 0
  win : Nat := 0
  gen : Nat := 0
  count : Bool := false
  len : Nat := 0
  afmt : Nat := 0
  offset : Nat := 0
  tag : Nat := 0
  reason : Nat := 0
  data : Bytes := []
  deriving DecidableEq, Repr, Inhabited

/-- A HAP request as it reaches the supervisor (R483, R484). `gap` counts the bytes of the datagram after the body that the
length field does not cover. -/
structure HapReq where
  host : Fin 2 := 0
  srcIp : Nat := 0
  srcPort : Nat := 0
  version : Nat := 1
  flags : Nat := 0
  status : Nat := 0
  session : Nat := 0
  seq : Nat := 0
  length : Nat := 0
  reserved : Nat := 0
  body : Bytes := []
  t : Nat := 0
  deriving DecidableEq, Repr, Inhabited

/-- Who writes a command object: the HAP session and the instant (R492, R493). -/
structure Writer where
  session : Nat := 0
  t : Nat := 0
  deriving DecidableEq, Repr, Inhabited

/-- What the calibration estimator found for one head (R587): the residual and the refinement it asks for. -/
structure CalEst where
  port : Fin 8 := 0
  residual : Nat := 0
  want : List Int := []
  deriving DecidableEq, Repr, Inhabited

/-- One gPTP Sync with its Follow_Up as a port takes it (R454, R456): the master's time at which it was sent, corrected as its fields say,
the CD50 clock in ns and the module's time at its receive stamp, and the announced interval (log2 s). -/
structure SyncIn where
  masterNs : Nat := 0
  clock : Nat := 0
  interval : Int := -3
  t : Nat := 0
  deriving DecidableEq, Repr, Inhabited

/-- A Pdelay exchange with its follow-up (R452, R454): when the port sent its request and received the response, by its own stamps, and when its
partner received the one and sent the other. -/
structure PdelayIn where
  t1 : Nat := 0
  t2 : Nat := 0
  t3 : Nat := 0
  t4 : Nat := 0
  deriving DecidableEq, Repr, Inhabited

/-- A DoIP message, its payload in `body`, or a UDS request on TCP connection `conn` (R542, R543); connection 2 stands for any
beyond the two. -/
structure DoipReq where
  host : Fin 2 := 0
  conn : Fin 3 := 0
  srcIp : Nat := 0
  srcPort : Nat := 13400
  version : Nat := 2
  body : Bytes := []
  t : Nat := 0
  deriving DecidableEq, Repr, Inhabited

/-- A network-recovery message (R540). -/
structure RecReq where
  host : Fin 2 := 0
  srcIp : Nat := 0
  srcPort : Nat := 44103
  version : Nat := 1
  seq : Nat := 0
  offset : Nat := 0
  data : Bytes := []
  t : Nat := 0
  deriving DecidableEq, Repr, Inhabited

/-- The commands, one constructor per row of the opcode table. -/
inductive Instr where
  /-- FRAME_BOUNDARY (R26). A gPTP frame boundary falls: sweep n ends at E, the next sweep begins, and every boundary-applied change takes effect. -/
  | frameBoundary (t : Nat)
  /-- FRAME_DEADLINE (R36). E + L passes with tasks of frame n unfinished; they are dropped and the record becomes INVALID. -/
  | frameDeadline (t : Nat)
  /-- RESULT_GATE_CLOSE (R460). At E + L − 15 µs the HOST ports close the gates of classes 0–2. -/
  | resultGateClose (t : Nat)
  /-- RECORD_LAUNCH (R460). At E + L the switch launches the header frame and body frames of frame n's result record. -/
  | recordLaunch (t : Nat)
  /-- RESULT_GATE_REOPEN (R460). When the last body byte has left, the gates of classes 0–2 reopen. -/
  | resultGateReopen (host : Fin 2) (ecc : QueueEcc)
  /-- RESULT_BODY_POLL (R461). Every 10 µs the switch reads the body header and, on READY, reads and checks the body. -/
  | resultBodyPoll (ecc : Finds) (t : Nat)
  /-- RECORD_STORE (R472). The supervisor stores the launched record and retains the 8 most recent. -/
  | recordStore (t : Nat)
  /-- SENS_FRAME_RECEIVE (R442). A frame arrives on a SENS port and is written whole into its ingress queue or dropped. -/
  | sensFrameReceive (p : Fin 8) (f : RawFrame) (t : Nat)
  /-- PACKET_PARSE_START (R55). A readable packet is taken by a free parser engine and its ingest program starts. -/
  | packetParseStart (p : Fin 8) (e : Fin 16) (ecc : QueueEcc)
  /-- PRS_NOP (R57). Parser NOP does nothing. -/
  | prsNop (e : Fin 16) (w : BitVec 27)
  /-- PRS_EXT (R57). Parser EXT extracts a bit field from packet bytes into a register. -/
  | prsExt (e : Fin 16) (w : BitVec 27)
  /-- PRS_SCL (R57). Parser SCL scales a register by a signed multiplier and shift with rounding and saturation. -/
  | prsScl (e : Fin 16) (w : BitVec 27)
  /-- PRS_ADD (R57). Parser ADD adds two registers. -/
  | prsAdd (e : Fin 16) (w : BitVec 27)
  /-- PRS_ADDI (R57). Parser ADDI adds an immediate to a register. -/
  | prsAddi (e : Fin 16) (w : BitVec 27)
  /-- PRS_AND (R57). Parser AND combines two registers bitwise. -/
  | prsAnd (e : Fin 16) (w : BitVec 27)
  /-- PRS_LUT (R57). Parser LUT looks up a beam's elevation, stages the beam and holds its azimuth correction. -/
  | prsLut (e : Fin 16) (w : BitVec 27)
  /-- PRS_CVT (R588). Parser CVT stages vehicle-frame coordinates from range, azimuth and elevation. -/
  | prsCvt (e : Fin 16) (w : BitVec 27)
  /-- PRS_CVC (R57). Parser CVC stages vehicle-frame coordinates from sensor-frame Cartesian values. -/
  | prsCvc (e : Fin 16) (w : BitVec 27)
  /-- PRS_SET (R57). Parser SET sets intensity, time offset, return index or beam of the staged point. -/
  | prsSet (e : Fin 16) (w : BitVec 27)
  /-- PRS_TSP (R62). Parser TSP sets the packet base time in one of four modes. -/
  | prsTsp (e : Fin 16) (w : BitVec 27)
  /-- PRS_RNG (R52). Parser RNG records a range for the contamination index. -/
  | prsRng (e : Fin 16) (w : BitVec 27)
  /-- PRS_PLS (R52). Parser PLS adds to the head's pulse estimate. -/
  | prsPls (e : Fin 16) (w : BitVec 27)
  /-- PRS_REJ (R58). Parser REJ rejects the staged point when its condition holds and counts the reason. -/
  | prsRej (e : Fin 16) (w : BitVec 27)
  /-- PRS_EMIT (R61). Parser EMIT hands the staged point to motion compensation and clears the staging. -/
  | prsEmit (e : Fin 16) (w : BitVec 27)
  /-- PRS_ADV (R57). Parser ADV advances the packet cursor. -/
  | prsAdv (e : Fin 16) (w : BitVec 27)
  /-- PRS_BR (R57). Parser BR branches when its condition holds. -/
  | prsBr (e : Fin 16) (w : BitVec 27)
  /-- PRS_LOOP (R57). Parser LOOP decrements a register and branches while non-zero. -/
  | prsLoop (e : Fin 16) (w : BitVec 27)
  /-- PRS_IDN (R43). Parser IDN presents the head serial and compares it with the paired serial. -/
  | prsIdn (e : Fin 16) (w : BitVec 27)
  /-- PRS_END (R57). Parser END ends the packet. -/
  | prsEnd (e : Fin 16) (w : BitVec 27)
  /-- PRS_SWP (R65). Parser SWP marks a sweep start at the next point's time. -/
  | prsSwp (e : Fin 16) (w : BitVec 27)
  /-- POINT_COMPENSATE (R68). Motion compensation takes an emitted point and moves it to the reference pose. -/
  | pointCompensate
  /-- CELL_INSERT (R96). Port A inserts one point into one grid's cell, aggregating into or creating an entry. -/
  | cellInsert
  /-- HEAD_LOSS_TIMEOUT (R45). No packet for the loss timeout moves an ACTIVE or BOOTSTRAP port to LOST. -/
  | headLossTimeout (p : Fin 8) (t : Nat)
  /-- ACCEPT (R46). A write of 1 checks the calibration record and, if valid, pairs the head and starts bootstrap. -/
  | accept (by_ : Writer) (p : Fin 8) (v : BitVec 8)
  /-- CAL_EVALUATE (R587). The calibration estimator evaluates a finished frame and refines each head's extrinsics. -/
  | calEvaluate (frame : Nat) (ests : List CalEst)
  /-- LIFE_COUNTER_STORE (R53). Every 600 s the life counters and persistent state are written to flash. -/
  | lifeCounterStore (t : Nat)
  /-- POSE (R501). A host session's POSE message delivers 1–8 pose samples to the front end. -/
  | pose (r : HapReq)
  /-- RUNAHEAD_RESOLVE (R73). Larkspur checks each logged point of epoch e against the new pose track. -/
  | runaheadResolve
  /-- RUNAHEAD_WITHDRAW (R74). A failing point's contribution is withdrawn from its entry on port B. -/
  | runaheadWithdraw
  /-- RUNAHEAD_REINSERT (R73). A withdrawn point is re-inserted with its new coordinates. -/
  | runaheadReinsert
  /-- AGE_ENTRY (R106). Port B re-expresses one past-sweep entry by Δ and places it again. -/
  | ageEntry
  /-- SNAP_REQUEST (R113). A write of 1 asks the builder to copy the next frame's exported rows to DRAM. -/
  | snapRequest (by_ : Writer) (v : BitVec 8)
  /-- SNAPSHOT_COMPLETE (R113). The snapshot copy completes and SNAP_FRAME and SNAP_ROWS are set. -/
  | snapshotComplete
  /-- CELL_ROW_EXPORT (R124). The builder writes a 32-byte cell row into the owner's export window under credits. -/
  | cellRowExport (set : Fin 64)
  /-- KEY_RECORD_EXPORT (R145). The builder sends an 8-byte key record of a derived set's row to its owner. -/
  | keyRecordExport (set : Fin 64)
  /-- RULEBOOK_BUILD (R125). A rule-book build starts once its input and output sets are final. -/
  | rulebookBuild (rb : Fin 256) (copy : Fin 2)
  /-- SEGMENT_WRITE (R133). The builder writes a segment body and then its header into the owner's rule-book ring under credits. -/
  | segmentWrite (rb : Fin 256) (copy : Fin 2) (owner : Fin 16)
  /-- FIRST_RESOLUTION_REPORT (R126). The last segment of the first resolution is handed to the fabric and the builder reports completion. -/
  | firstResolutionReport (cycles : Nat)
  /-- SPECULATIVE_BUILD (R137). Larkspur takes an epoch and builds the predicted set and its rule books into the speculation buffer. -/
  | speculativeBuild (set : Fin 64) (copy : Fin 2) (results : Nat)
  /-- EPOCH_SQUASH (R141). A whole speculative epoch is invalidated over 3 front-end cycles and freed. -/
  | epochSquash (epoch : Fin 256)
  /-- NOP (R201). Sequencer NOP does nothing. -/
  | nop (c : Fin 16) (w : BitVec 56)
  /-- ADD (R201). Sequencer ADD adds two scalar registers. -/
  | add (c : Fin 16) (w : BitVec 56)
  /-- SUB (R201). Sequencer SUB subtracts two scalar registers. -/
  | sub (c : Fin 16) (w : BitVec 56)
  /-- AND (R201). Sequencer AND combines two registers bitwise. -/
  | and (c : Fin 16) (w : BitVec 56)
  /-- OR (R201). Sequencer OR combines two registers bitwise. -/
  | or (c : Fin 16) (w : BitVec 56)
  /-- XOR (R201). Sequencer XOR combines two registers bitwise. -/
  | xor (c : Fin 16) (w : BitVec 56)
  /-- SHL (R201). Sequencer SHL shifts left by a register. -/
  | shl (c : Fin 16) (w : BitVec 56)
  /-- SHR (R201). Sequencer SHR shifts right logically by a register. -/
  | shr (c : Fin 16) (w : BitVec 56)
  /-- SRA (R201). Sequencer SRA shifts right arithmetically by a register. -/
  | sra (c : Fin 16) (w : BitVec 56)
  /-- MUL (R201). Sequencer MUL multiplies two registers. -/
  | mul (c : Fin 16) (w : BitVec 56)
  /-- MIN (R201). Sequencer MIN takes the signed minimum. -/
  | min (c : Fin 16) (w : BitVec 56)
  /-- MAX (R201). Sequencer MAX takes the signed maximum. -/
  | max (c : Fin 16) (w : BitVec 56)
  /-- ADDI (R201). Sequencer ADDI adds an immediate. -/
  | addi (c : Fin 16) (w : BitVec 56)
  /-- ANDI (R201). Sequencer ANDI ands an immediate. -/
  | andi (c : Fin 16) (w : BitVec 56)
  /-- ORI (R201). Sequencer ORI ors an immediate. -/
  | ori (c : Fin 16) (w : BitVec 56)
  /-- SHLI (R201). Sequencer SHLI shifts left by an immediate. -/
  | shli (c : Fin 16) (w : BitVec 56)
  /-- SHRI (R201). Sequencer SHRI shifts right logically by an immediate. -/
  | shri (c : Fin 16) (w : BitVec 56)
  /-- SRAI (R201). Sequencer SRAI shifts right arithmetically by an immediate. -/
  | srai (c : Fin 16) (w : BitVec 56)
  /-- LI (R201). Sequencer LI loads a sign-extended immediate. -/
  | li (c : Fin 16) (w : BitVec 56)
  /-- LIH (R201). Sequencer LIH loads the upper 32 bits of a register. -/
  | lih (c : Fin 16) (w : BitVec 56)
  /-- CMP (R196). Sequencer CMP sets a predicate from comparing two registers. -/
  | cmp (c : Fin 16) (w : BitVec 56)
  /-- CMPI (R196). Sequencer CMPI sets a predicate from comparing a register with an immediate. -/
  | cmpi (c : Fin 16) (w : BitVec 56)
  /-- PLOG (R196). Sequencer PLOG combines two predicates. -/
  | plog (c : Fin 16) (w : BitVec 56)
  /-- BR (R201). Sequencer BR branches relative to the PC. -/
  | br (c : Fin 16) (w : BitVec 56)
  /-- LOOP (R201). Sequencer LOOP decrements a register and branches while non-zero. -/
  | loop (c : Fin 16) (w : BitVec 56)
  /-- JAL (R201). Sequencer JAL links and branches. -/
  | jal (c : Fin 16) (w : BitVec 56)
  /-- JR (R201). Sequencer JR jumps to a register address. -/
  | jr (c : Fin 16) (w : BitVec 56)
  /-- TINFO (R201). Sequencer TINFO returns frame, argument, identity, cycle count or time stamp. -/
  | tinfo (c : Fin 16) (w : BitVec 56) (cycles : Nat) (t : Nat)
  /-- TEND (R201). Sequencer TEND waits for array and DMA work and then ends the task. -/
  | tend (c : Fin 16) (w : BitVec 56)
  /-- TEND_COMPLETE (R201). The work TEND waits for completes and the task ends DONE. -/
  | tendComplete (c : Fin 16)
  /-- TRAP (R201). Sequencer TRAP ends the task with exception TRAP. -/
  | trap (c : Fin 16) (w : BitVec 56)
  /-- LD (R202). Sequencer LD loads bytes from a local window into a register. -/
  | ld (c : Fin 16) (w : BitVec 56) (ecc : Finds)
  /-- ST (R202). Sequencer ST stores a register into a local window. -/
  | st (c : Fin 16) (w : BitVec 56)
  /-- AADD (R236). Sequencer AADD performs a bank atomic add and returns the old value. -/
  | aadd (c : Fin 16) (w : BitVec 56) (ecc : Finds)
  /-- ASWP (R236). Sequencer ASWP performs a bank atomic swap. -/
  | aswp (c : Fin 16) (w : BitVec 56) (ecc : Finds)
  /-- TSET (R197). Sequencer TSET writes a field of a stream descriptor. -/
  | tset (c : Fin 16) (w : BitVec 56)
  /-- TGET (R202). Sequencer TGET reads a descriptor field. -/
  | tget (c : Fin 16) (w : BitVec 56)
  /-- WOPEN (R227). Sequencer WOPEN asks the allocator for a window and sets a predicate on the grant. -/
  | wopen (c : Fin 16) (w : BitVec 56)
  /-- WCLOSE (R229). Sequencer WCLOSE waits for users of a window, wipes if confidential, advances its generation and frees it. -/
  | wclose (c : Fin 16) (w : BitVec 56)
  /-- WINFO (R202). Sequencer WINFO returns a window's size, generation and attributes. -/
  | winfo (c : Fin 16) (w : BitVec 56)
  /-- AMODE (R155). Sequencer AMODE sets the array mode word for later AMMs. -/
  | amode (c : Fin 16) (w : BitVec 56)
  /-- AMM (R157). Sequencer AMM queues a logical M × K × N problem for the array. -/
  | amm (c : Fin 16) (w : BitVec 56)
  /-- ADRAIN (R203). Sequencer ADRAIN queues a drain of accumulator-store rows whose verdicts pass. -/
  | adrain (c : Fin 16) (w : BitVec 56)
  /-- AWAIT (R203). Sequencer AWAIT waits for all array passes, verdicts and merges. -/
  | await (c : Fin 16) (w : BitVec 56)
  /-- AWAIT_COMPLETE (R203). All awaited array work completes and the waiting AWAIT retires. -/
  | awaitComplete (c : Fin 16)
  /-- ASTAT (R203). Sequencer ASTAT returns array queue, verdict and merge counts. -/
  | astat (c : Fin 16) (w : BitVec 56)
  /-- SEGH (R210). Sequencer SEGH reads and checks a segment header. -/
  | segh (c : Fin 16) (w : BitVec 56) (ecc : Finds)
  /-- SEGR (R203). Sequencer SEGR marks the oldest segment slot for release. -/
  | segr (c : Fin 16) (w : BitVec 56)
  /-- SEGMENT_SLOT_RETURN (R203). A released segment slot returns its credit to the builder once its readers complete. -/
  | segmentSlotReturn (c : Fin 16) (win : Fin 8)
  /-- DMA_COPY (R204). DMA op COPY moves rows between descriptors, compressing if the destination has CMP. -/
  | dmaCopy (c : Fin 16) (w : BitVec 56)
  /-- DMA_ADD (R204). DMA op ADD adds rows into the destination with bank atomic adds. -/
  | dmaAdd (c : Fin 16) (w : BitVec 56)
  /-- DMA_CONV (R212). DMA op CONV converts INT32 or FP32 rows to a narrower format. -/
  | dmaConv (c : Fin 16) (w : BitVec 56)
  /-- DMA_COMPLETE (R204). A DMA, MASKB or DREP has every write acknowledged and may bump an arrival counter. -/
  | dmaComplete (c : Fin 16) (ecc : Finds)
  /-- MASKB (R204). Sequencer MASKB packs threshold comparison bits of rows. -/
  | maskb (c : Fin 16) (w : BitVec 56)
  /-- DREP (R213). Sequencer DREP sends a decision report to the FE stop. -/
  | drep (c : Fin 16) (w : BitVec 56)
  /-- WAITK (R204). Sequencer WAITK waits until an arrival counter reaches a value. -/
  | waitk (c : Fin 16) (w : BitVec 56)
  /-- WAITK_RESUME (R204). The awaited counter reaches its value and WAITK resumes 2 cycles later. -/
  | waitkResume (c : Fin 16)
  /-- KGET (R204). Sequencer KGET reads an arrival counter. -/
  | kget (c : Fin 16) (w : BitVec 56)
  /-- KSUB (R204). Sequencer KSUB subtracts from an arrival counter atomically. -/
  | ksub (c : Fin 16) (w : BitVec 56)
  /-- FENCE (R204). Sequencer FENCE waits for DMA and remote acknowledgements. -/
  | fence (c : Fin 16) (w : BitVec 56)
  /-- FENCE_COMPLETE (R204). Every awaited acknowledgement arrives and FENCE retires. -/
  | fenceComplete (c : Fin 16)
  /-- BAR (R283). Sequencer BAR joins a barrier collective by sending BAR_ARRIVE to the root. -/
  | bar (c : Fin 16) (w : BitVec 56)
  /-- TKRST (R204). Sequencer TKRST clears the top-k list and sets k, format, index base and direction. -/
  | tkrst (c : Fin 16) (w : BitVec 56)
  /-- TKIN (R294). Sequencer TKIN pours a descriptor's elements into the top-k list. -/
  | tkin (c : Fin 16) (w : BitVec 56) (ecc : Finds)
  /-- TOPK_LIST_FINAL (R299). The list becomes final 6 cycles after its last element and its counters update. -/
  | topkListFinal (c : Fin 16)
  /-- TKOUT (R297). Sequencer TKOUT writes the final list with padding and returns valid and tie counts. -/
  | tkout (c : Fin 16) (w : BitVec 56)
  /-- TKMRG (R285). Sequencer TKMRG merges the list across a group's members as a collective. -/
  | tkmrg (c : Fin 16) (w : BitVec 56)
  /-- ARRAY_PASS_START (R159). The array queue starts its next pass, folding the problem onto the arrangement. -/
  | arrayPassStart (c : Fin 16) (ecc : Finds) (conflict : Bool) (ups : List Upset)
  /-- BULK_LOAD (R170). A stationary block is loaded through the input lanes and verified by the checksum cells. -/
  | bulkLoad (c : Fin 16) (ecc : Finds) (ups : List Upset)
  /-- RIPPLE_LOAD (R172). A stationary block is loaded over the load path behind the previous pass. -/
  | rippleLoad (c : Fin 16) (ecc : Finds) (ups : List Upset)
  /-- OS_DRAIN (R162). An output-stationary block drains its accumulator set while the next block accumulates. -/
  | osDrain (c : Fin 16)
  /-- CHUNK_VERDICT (R181). The array gives a chunk's checksum verdict 2 cycles after its last result. -/
  | chunkVerdict (c : Fin 16)
  /-- MERGE_CHUNK (R207). The merge engine adds a passed chunk's partial rows into their output rows. -/
  | mergeChunk (c : Fin 16) (ecc : Finds)
  /-- PREEMPT_SAVE (R217). At the chunk end the running task's state is saved in 64 cycles. -/
  | preemptSave (c : Fin 16)
  /-- ARRAY_REPAIR_CLEAR (R187). A write of 1 clears all array repair state at the next restart. -/
  | arrayRepairClear (by_ : Writer) (v : BitVec 8)
  /-- MSG_WRITE (R242). A remote WRITE message is checked and applied at its owner and acknowledged. -/
  | msgWrite (m : Msg) (hdr : Travel) (flit : Ecc)
  /-- MSG_ADD (R242). A remote ADD message performs a bank atomic add at its owner. -/
  | msgAdd (m : Msg) (hdr : Travel) (flit : Ecc) (ecc : Finds)
  /-- MSG_READ (R272). A remote READ is checked and answered with RDATA or one NACK. -/
  | msgRead (m : Msg) (hdr : Travel) (ecc : Finds)
  /-- MSG_RDATA (R272). An RDATA message returns one line of a READ to the requester. -/
  | msgRdata (m : Msg) (hdr : Travel)
  /-- MSG_ACK (R271). An ACK completes a request at its sender. -/
  | msgAck (m : Msg) (hdr : Travel)
  /-- MSG_NACK (R274). A NACK completes a request at its sender with a reason. -/
  | msgNack (m : Msg) (hdr : Travel)
  /-- MSG_CREDIT (R241). An owner grants credits for a window under its generation. -/
  | msgCredit (m : Msg) (hdr : Travel)
  /-- MSG_REPORT (R135). A decision report reaches the builder and is checked against what it expects. -/
  | msgReport (m : Msg) (hdr : Travel) (flit : Ecc)
  /-- MSG_A2A_REQ (R287). An all-to-all request block reaches an owner's Peony. -/
  | msgA2aReq (m : Msg) (hdr : Travel)
  /-- MSG_A2A_ROW (R287). An all-to-all answer block returns rows to the requester. -/
  | msgA2aRow (m : Msg) (hdr : Travel)
  /-- MSG_TKM (R285). A child's partial top-k list enters a member's merge. -/
  | msgTkm (m : Msg) (hdr : Travel)
  /-- MSG_TKM_FINAL (R285). The merged list arrives from the parent, replaces the member's list and is forwarded. -/
  | msgTkmFinal (m : Msg) (hdr : Travel)
  /-- MSG_BAR_ARRIVE (R283). A barrier arrival reaches the root, which releases when N have arrived. -/
  | msgBarArrive (m : Msg) (hdr : Travel)
  /-- MSG_BAR_RELEASE (R283). A barrier release reaches a member, bumps its counter and is forwarded. -/
  | msgBarRelease (m : Msg) (hdr : Travel)
  /-- MSG_RESERVED_TYPE (R271). A message of a reserved type or NACK reason is dropped and counted. -/
  | msgReservedType (m : Msg) (hdr : Travel)
  /-- REQUEST_TIMEOUT (R274). A request unanswered within its timeout completes with TIMEOUT at its own stop. -/
  | requestTimeout (stop : Fin 25) (tag : Nat) (t : Nat)
  /-- SCRUB_STEP (R239). A quad scrubs its next line after its scrub interval. -/
  | scrubStep (c : Fin 16) (quad : Fin 24) (ecc : Finds) (late : Bool)
  /-- MARCH_REQUEST (R251). A write of a core mask starts a preserving march test. -/
  | marchRequest (by_ : Writer) (mask : BitVec 16)
  /-- PRESERVING_TEST_ROW (R251). The march engine tests one bank row through its buffer in idle slots. -/
  | preservingTestRow (c : Fin 16) (quad : Fin 24) (bank : Fin 4) (row : Fin 260) (faulty : Bool)
  /-- STARTUP_MARCH_TEST (R250). At start-up every bank is tested destructively and repaired. -/
  | startupMarchTest (bad : List (Fin 16 × Fin 24 × Fin 4 × Fin 260))
  /-- ROW_REPAIR_CLEAR (R253). A write of 1 clears scratchpad row repairs and retirements at the next restart. -/
  | rowRepairClear (by_ : Writer) (v : BitVec 8)
  /-- WIPE_COMPLETE (R248). All cores report the wipe complete. -/
  | wipeComplete
  /-- FLUSH (R261). A write of 1 flushes a DROP or PFC queue. -/
  | flush (by_ : Writer) (q : Fin 24) (v : BitVec 8)
  /-- PEER_FRAME_RECEIVE (R279). A peer frame is checked and its messages injected at SW. -/
  | peerFrameReceive (p : Fin 2) (f : RawFrame) (ecc : QueueEcc)
  /-- PFC_PAUSE_REPEAT (R280). While congestion stays set the pause is repeated every 32,768 quanta. -/
  | pfcPauseRepeat (p : Fin 2) (cls : Fin 4)
  /-- PFC_PAUSE_RECEIVE (R280). A received pause stops a class's egress after the frame in transmission. -/
  | pfcPauseReceive (p : Fin 2) (prio : Fin 8) (quanta : Nat) (ecc : QueueEcc)
  /-- PFC_PAUSE_EXPIRE (R280). A received pause ends and the class's egress resumes. -/
  | pfcPauseExpire (p : Fin 2) (prio : Fin 8) (ecc : QueueEcc)
  /-- PEER_ASSEMBLY_CLOSE (R278). An assembly buffer open for PEER_FLUSH_TIME closes and its frame enters egress. -/
  | peerAssemblyClose (dev : Nat) (cls : Fin 4)
  /-- RING_POLL (R322). Peony reads a request ring entry and takes it if valid and in sequence. -/
  | ringPoll (c : Fin 16) (table : Fin 16)
  /-- PEONY_LOOKUP (R327). Peony coalesces a LOOKUP's indices, pins slots and starts fills. -/
  | peonyLookup (table : Fin 16)
  /-- PEONY_UPDATE (R337). Peony adds gradient rows into accumulation slots for the step's parity. -/
  | peonyUpdate (table : Fin 16)
  /-- PEONY_WRITE (R331). Peony stores track rows into the live version and their pool slots. -/
  | peonyWrite (table : Fin 16)
  /-- PEONY_RELEASE (R324). Peony unpins the slots of a named LOOKUP. -/
  | peonyRelease (table : Fin 16)
  /-- PEONY_APPLY (R338). Peony runs the optimiser over the step's touched rows and writes them back. -/
  | peonyApply (table : Fin 16)
  /-- PEONY_FILL (R330). A stored row returns from DRAM, is converted and written to its pool slot. -/
  | peonyFill (table : Fin 16) (ecc : Ecc)
  /-- PEONY_STATUS_RECORD (R326). Once all adds and fills are acknowledged Peony writes the request's status record. -/
  | peonyStatusRecord (table : Fin 16)
  /-- EXCHANGE_BATCH (R336). Peony assembles a step's sharded lookups and sends request blocks to every member. -/
  | exchangeBatch (table : Fin 16) (step_ : Nat)
  /-- BUILD (R321). COMMAND BUILD builds a new version with width classes from hit counts. -/
  | build (by_ : Writer) (table : Fin 16) (v : BitVec 8)
  /-- CREATE_SHADOW (R335). COMMAND CREATE_SHADOW makes an EMPTY slot a SHADOW of LIVE. -/
  | createShadow (by_ : Writer) (table : Fin 16) (v : BitVec 8)
  /-- SEAL (R335). COMMAND SEAL computes the shadow's SM3 digest and freezes it. -/
  | seal (by_ : Writer) (table : Fin 16) (v : BitVec 8)
  /-- SWITCH (R334). A write names a PREPARED slot to become LIVE. -/
  | switch (by_ : Writer) (table : Fin 16) (v : BitVec 8)
  /-- VERSION_SWITCH (R334). At the first boundary with all steps complete the LIVE slot retires and the PREPARED slot goes live. -/
  | versionSwitch (table : Fin 16)
  /-- VERSION_RETIRE (R334). The retiring slot's frame and lookups are done and it becomes EMPTY. -/
  | versionRetire (table : Fin 16)
  /-- REPLICA_PREPARED (R333). A REPLICATED version has been written to every inactive replica and becomes PREPARED. -/
  | replicaPrepared (table : Fin 16) (slot : Fin 3)
  /-- VALIDATION (R335). A signed validation record makes a sealed shadow PREPARED or is refused. -/
  | validation (by_ : Writer) (table : Fin 16) (rec : Bytes)
  /-- DRAM_READ (R399). A controller serves a read under its row and refresh case. -/
  | dramRead (da : Nat) (n : Nat) (ecc : Ecc) (t : Nat)
  /-- DRAM_WRITE (R399). A controller posts a write, with read-modify-write where needed. -/
  | dramWrite (da : Nat) (data : Bytes)
  /-- DRAM_REFRESH (R399). Each bank is refreshed every 4,160 controller cycles. -/
  | dramRefresh (ctrl : Fin 8) (chan : Fin 4) (bank : Fin 16)
  /-- PATROL_SCRUB (R352). The controllers scrub every line once per SCRUB_PERIOD. -/
  | patrolScrub (ctrl : Fin 8) (line : Nat) (ecc : Ecc) (t : Nat)
  /-- DRAM_CONTROLLER_FAIL (R353). A controller fails; its reads become uncorrectable and its writes are discarded. -/
  | dramControllerFail (ctrl : Fin 8)
  /-- FAILURE_CLEAR (R354). A write of 1 clears stored controller failures at the next restart. -/
  | failureClear (by_ : Writer) (v : BitVec 8)
  /-- HYPERRAM_READ (R401). Marigold reads HyperRAM device 0, retrying on device 1 after an uncorrectable word. -/
  | hyperramRead (a : Nat) (n : Nat) (ecc0 : Ecc) (ecc1 : Ecc) (t : Nat)
  /-- HYPERRAM_WRITE (R401). Marigold writes both HyperRAM devices at once. -/
  | hyperramWrite (a : Nat) (data : Bytes) (answers0 : Bool) (answers1 : Bool)
  /-- EVENT_LOG_FLUSH (R357). Every 100 ms the staged event records are written to the flash log ring. -/
  | eventLogFlush (ok : Bool)
  /-- SCHEDULE (R374). A signed schedule written directly is checked and accepted or refused. -/
  | schedule (by_ : Writer) (comp : Bytes)
  /-- SCHEDULE_ACTIVATE (R375). At a boundary all windows close, programs are copied and the new schedule starts. -/
  | scheduleActivate (t : Nat)
  /-- INSTANCE_RELEASE (R369). An instance is released at E plus its release slots. -/
  | instanceRelease (task : Fin 256) (lcore : Fin 16) (t : Nat)
  /-- SLOT_ENTRY_BEGIN (R372). A slot entry begins on a core and the scheduler takes a dispatch decision. -/
  | slotEntryBegin (c : Fin 16) (slot : Nat)
  /-- BUDGET_OVERRUN (R378). An instance's run time reaches its budget and it is counted or ended. -/
  | budgetOverrun (task : Fin 256) (lcore : Fin 16) (t : Nat)
  /-- PREEMPT_LIMIT_EXPIRE (R381). A pre-emption not effective within PREEMPT_LIMIT ends the running instance. -/
  | preemptLimitExpire (c : Fin 16)
  /-- THROTTLE_UPDATE (R382). The supervisor raises or lowers the throttle level from power and temperature. -/
  | throttleUpdate (t : Nat)
  /-- HOLLYHOCK_ENTRY (R383). A HOLLYHOCK entry begins and the golden test runs, yields or is forced. -/
  | hollyhockEntry (c : Fin 16) (slot : Nat)
  /-- GOLDEN_TEST_COMPLETE (R432). The golden test ends and its digest is compared with the golden digest. -/
  | goldenTestComplete (c : Fin 16) (pass : Bool) (silent : List (Fin 16 × Fin 33 × Bool)) (fault : Option FaultAt)
  /-- FOXGLOVE_TEST_PAIR (R434). Hollyhock feeds Foxglove stored lists and checks the test verdict. -/
  | foxgloveTestPair (agreed : Bool)
  /-- CHECK_LIST_POLL (R412). Every 10 µs Foxglove reads each check-list header and fetches a READY list. -/
  | checkListPoll (copy : Fin 2) (ecc : Finds) (t : Nat)
  /-- COPY_COMPARE (R413). Foxglove associates and tests copy A's objects against copy B's. -/
  | copyCompare
  /-- PLAUSIBILITY_CHECK (R415). Foxglove compares copy A's in-path objects with Marigold's list. -/
  | plausibilityCheck
  /-- VERDICT_LATE (R417). No verdict by E + L − VERDICT_MARGIN gives the verdict LATE. -/
  | verdictLate (t : Nat)
  /-- MARIGOLD_SWEEP (R423). Marigold computes obstacle points, clusters and D_m for a sweep. -/
  | marigoldSweep (e0 e1 : QueueEcc) (t : Nat)
  /-- MARIGOLD_LOCKSTEP_MISMATCH (R425). A lockstep mismatch or missing lists make Foxglove restart Marigold. -/
  | marigoldLockstepMismatch (t : Nat)
  /-- MARIGOLD_SELF_TEST (R425). Marigold runs a stored frame and compares the result. -/
  | marigoldSelfTest (pass : Bool) (t : Nat)
  /-- MARIGOLD_BOOT_LIST (R560). Every 50 ms before frame 1 Marigold closes a boot list and a boot record launches. -/
  | marigoldBootList (e0 e1 : QueueEcc) (t : Nat)
  /-- SUPERVISOR_KICK (R430). The supervisor toggles its kick line to Foxglove. -/
  | supervisorKick (t : Nat)
  /-- WATCHDOG_TIMEOUT (R430). No kick for 10 ms puts the module in SAFE. -/
  | watchdogTimeout (t : Nat)
  /-- FAULT_LINE (R429). The security or power fault line changes and the module enters SAFE. -/
  | faultLine (security : Bool) (level : Bool)
  /-- LAUNCH_LINE_TOGGLE (R430). The switch toggles the launch line at each record launch. -/
  | launchLineToggle (t : Nat)
  /-- MISSING_LAUNCH (R430). No launch by E + L + 1,000 µs puts the module in SAFE. -/
  | missingLaunch (t : Nat)
  /-- CLOCK_MONITOR (R430). Foxglove checks CD57 against CD55 over each 100 µs. -/
  | clockMonitor (deviation : Nat)
  /-- FAULT_N_READBACK (R431). Foxglove reads FAULT_N back and flags a mismatch. -/
  | faultNReadback (low : Bool) (halvesAgree : Bool)
  /-- FORCE_FALLBACK (R428). A write of 1 forces FALLBACK. -/
  | forceFallback (by_ : Writer) (v : BitVec 8)
  /-- LINK_UP (R445). A port's link comes up. -/
  | linkUp (p : Fin 12)
  /-- LINK_DOWN (R445). A port's link goes down and its queues flush or peers fail over. -/
  | linkDown (p : Fin 12)
  /-- HOST_FRAME_RECEIVE (R442). A HOST frame passes tagging, Qci, MACsec and 802.1CB checks and goes to the supervisor. -/
  | hostFrameReceive (h : Fin 2) (f : RawFrame) (ecc : QueueEcc) (t : Nat)
  /-- ARP_REQUEST (R443). The module answers an ARP request for its own address. -/
  | arpRequest (h : Fin 2) (f : RawFrame)
  /-- ICMP_ECHO (R443). The module answers an ICMP echo request. -/
  | icmpEcho (h : Fin 2) (f : RawFrame)
  /-- SYNC_RECEIVE (R456). A Sync on the slave port updates offset, trim, slew and the time state. -/
  | syncReceive (p : Fin 12) (y : SyncIn)
  /-- SYNC_SEND (R452). A master port sends Sync and Follow_Up at SYNC_INTERVAL. -/
  | syncSend (p : Fin 12) (t : Nat)
  /-- PDELAY_REQUEST_SEND (R452). Each second an enabled port measures its link delay. -/
  | pdelayRequestSend (p : Fin 12) (t : Nat)
  /-- PDELAY_REQUEST_RECEIVE (R452). A port answers its partner's Pdelay request. -/
  | pdelayRequestReceive (p : Fin 12) (t : Nat)
  /-- SYNC_TIMEOUT (R453). The slave port misses 3 Syncs; the standby port takes over or the time unit enters HOLDOVER. -/
  | syncTimeout (t : Nat)
  /-- SYNC_WAIT_EXPIRE (R456). SYNC_WAIT passes without lock and frame boundaries become permitted. -/
  | syncWaitExpire (t : Nat)
  /-- PPS_OUT_RISE (R459). While LOCKED, PPS_OUT rises at each whole second. -/
  | ppsOutRise (t : Nat)
  /-- PPS_IN_EDGE (R459). A rising PPS_IN edge is stamped in full time. -/
  | ppsInEdge (t : Nat)
  /-- TC10_SLEEP_REQUEST (R451). HOST0 acknowledges or rejects a TC10 sleep request. -/
  | tc10SleepRequest
  /-- TC10_WAKE (R451). A TC10 wake-up on HOST0 wakes the module from STANDBY. -/
  | tc10Wake
  /-- HAP_OPEN (R487). HAP OPEN creates a session or is refused with BUSY. -/
  | hapOpen (r : HapReq)
  /-- HAP_CLOSE (R490). HAP CLOSE ends a session. -/
  | hapClose (r : HapReq)
  /-- HAP_PING (R485). HAP PING keeps a session alive. -/
  | hapPing (r : HapReq)
  /-- HAP_READ (R491). HAP READ returns up to 32 object values. -/
  | hapRead (r : HapReq)
  /-- HAP_WRITE (R492). HAP WRITE writes up to 16 entries all or nothing, each at its apply time. -/
  | hapWrite (r : HapReq)
  /-- HAP_DESCRIBE (R494). HAP DESCRIBE returns an object's attributes. -/
  | hapDescribe (r : HapReq)
  /-- HAP_LIST (R494). HAP LIST returns existing objects from a start index. -/
  | hapList (r : HapReq)
  /-- BLOB_READ (R495). BLOB_READ returns a piece of a BLOB, snapshotting at offset 0. -/
  | blobRead (r : HapReq)
  /-- BLOB_BEGIN (R496). BLOB_BEGIN opens a BLOB write transfer. -/
  | blobBegin (r : HapReq)
  /-- BLOB_SEGMENT (R496). BLOB_SEGMENT adds data at the expected offset. -/
  | blobSegment (r : HapReq)
  /-- BLOB_END (R496). BLOB_END checks length, CRC and object checks and writes the value. -/
  | blobEnd (r : HapReq)
  /-- BLOB_ABORT (R496). BLOB_ABORT discards the open transfer. -/
  | blobAbort (r : HapReq)
  /-- BLOB_TRANSFER_TIMEOUT (R496). A transfer idle for 10 s is discarded. -/
  | blobTransferTimeout (session : Nat) (t : Nat)
  /-- BLOB_SNAPSHOT_EXPIRE (R495). A snapshot unread for 10 s is dropped. -/
  | blobSnapshotExpire (session : Nat) (t : Nat)
  /-- UNLOCK_CHALLENGE (R528). UNLOCK_CHALLENGE returns a fresh nonce for a workshop or vendor unlock. -/
  | unlockChallenge (r : HapReq)
  /-- UNLOCK_RESPONSE (R529). UNLOCK_RESPONSE grants a level or counts a failure. -/
  | unlockResponse (r : HapReq)
  /-- LOCK (R531). LOCK returns the session to OPEN. -/
  | lock (r : HapReq)
  /-- SUBSCRIBE (R498). SUBSCRIBE creates an EVENTS or VALUE subscription. -/
  | subscribe (r : HapReq)
  /-- UNSUBSCRIBE (R498). UNSUBSCRIBE removes a subscription. -/
  | unsubscribe (r : HapReq)
  /-- RESULT_READ (R500). RESULT_READ forms or serves a result record reply. -/
  | resultRead (r : HapReq)
  /-- EVENT_NOTIFY (R499). Gathered events are sent as an EVENT notification at most every 10 ms. -/
  | eventNotify (session : Nat) (t : Nat)
  /-- SESSION_TIMEOUT (R490). A session without requests for SESSION_TIMEOUT ends. -/
  | sessionTimeout (session : Nat) (t : Nat)
  /-- SRV_CLEAR (R504). A write of 1 releases SRV_N. -/
  | srvClear (by_ : Writer) (v : BitVec 8)
  /-- UPDATE_GATE (R534). A host session opens or closes the update gate. -/
  | updateGate (by_ : Writer) (v : BitVec 8)
  /-- UPDATE_GATE_EXPIRE (R534). GATE_TIMEOUT passes since the last write and the gate closes. -/
  | updateGateExpire (t : Nat)
  /-- ACTIVATE (R536). A write of 1 checks the staged component and writes the directory. -/
  | activate (by_ : Writer) (v : BitVec 8) (t3 : Nat)
  /-- DISCARD (R535). A write of 1 empties the stage. -/
  | discard (by_ : Writer) (v : BitVec 8)
  /-- COMPONENT_EFFECT (R537). At boundary B the activated components take effect. -/
  | componentEffect (t : Nat)
  /-- LC_REQUEST (R525). A write requests a life-cycle transition. -/
  | lcRequest (by_ : Writer) (v : BitVec 8)
  /-- HELD_TRANSITION_RELEASE (R527). A closing transition held by the gate proceeds when the gate opens or RUN ends. -/
  | heldTransitionRelease (t : Nat)
  /-- VENDOR_EXPIRY (R531). A VENDOR level's validity runs out and the session falls to OPEN. -/
  | vendorExpiry (session : Nat) (t : Nat)
  /-- LOCKOUT_EXPIRY (R530). The unlock lockout ends. -/
  | lockoutExpiry (t : Nat)
  /-- ATTEST_NONCE (R523). A nonce write starts an attestation quote. -/
  | attestNonce (by_ : Writer) (nonce : Bytes)
  /-- ATTEST_QUOTE_READY (R523). The signed quote appears in ATTEST_QUOTE. -/
  | attestQuoteReady (session : Nat) (t : Nat)
  /-- AUTHORITY_KEY_WRITE (R516). A key record written to OD 0xB002 is verified and installed at restart or refused. -/
  | authorityKeyWrite (by_ : Writer) (which : Fin 3) (rec : Bytes)
  /-- TX_SA (R541). A transmit SA record installs or deletes a MACsec SA. -/
  | txSa (by_ : Writer) (p : Fin 4) (rec : Bytes)
  /-- RX_SA (R541). A receive SA record installs or deletes a MACsec SA. -/
  | rxSa (by_ : Writer) (p : Fin 4) (rec : Bytes)
  /-- TAMPER_DETECT (R533). The security block signals tamper and the module wipes and enters SAFE. -/
  | tamperDetect (t : Nat)
  /-- DEBUG_PORT_CLOSE (R532). The debug grant ends, the port closes and the module restarts. -/
  | debugPortClose (t : Nat)
  /-- PRIMROSE_BOOT (R538). At CD18 reset release Primrose verifies and starts Marigold and the supervisor. `dir0` and `dir1` say
  whether the directory copies verify as flash reads them, `bad` the types and instances of components that a flash read reports as damaged. -/
  | primroseBoot (dir0 : Bool) (dir1 : Bool) (bad : List (Nat × Nat)) (t : Nat)
  /-- SUPERVISOR_START_TIMEOUT (R539). The supervisor not started within 2 s sends Primrose into recovery. -/
  | supervisorStartTimeout (t : Nat)
  /-- RECOVERY_HELLO (R540). Every second Primrose broadcasts HELLO. -/
  | recoveryHello (t : Nat)
  /-- RECOVERY_BEGIN (R540). A recovery BEGIN opens a component transfer. -/
  | recoveryBegin (r : RecReq)
  /-- RECOVERY_SEGMENT (R540). A recovery SEGMENT adds component data. -/
  | recoverySegment (r : RecReq)
  /-- RECOVERY_END (R540). A recovery END checks and writes the component and restarts. -/
  | recoveryEnd (r : RecReq)
  /-- RECOVERY_TRANSFER_TIMEOUT (R540). A recovery transfer idle for 10 s loses its owner. -/
  | recoveryTransferTimeout (t : Nat)
  /-- DOIP_VEHICLE_IDENTIFICATION (R542). A DoIP vehicle identification request is answered. -/
  | doipVehicleIdentification (r : DoipReq)
  /-- DOIP_VEHICLE_ANNOUNCEMENT (R542). After HOST link-up a vehicle announcement is sent 3 times. -/
  | doipVehicleAnnouncement (h : Fin 2)
  /-- DOIP_ROUTING_ACTIVATION (R542). A routing activation request is answered. -/
  | doipRoutingActivation (r : DoipReq)
  /-- DOIP_ALIVE_CHECK (R542). A DoIP alive check is handled. -/
  | doipAliveCheck (r : DoipReq)
  /-- DOIP_ENTITY_STATUS (R542). A DoIP entity status request is answered. -/
  | doipEntityStatus (r : DoipReq)
  /-- DOIP_POWER_MODE (R542). A DoIP power mode request is answered. -/
  | doipPowerMode (r : DoipReq)
  /-- DOIP_GENERIC_NACK (R542). A generic header NACK is received. -/
  | doipGenericNack (r : DoipReq)
  /-- DOIP_DIAGNOSTIC_MESSAGE (R542). A diagnostic message carries a UDS request to the module. -/
  | doipDiagnosticMessage (r : DoipReq)
  /-- DIAGNOSTIC_SESSION_CONTROL (R543). UDS 0x10 switches default or extended session. -/
  | diagnosticSessionControl (r : DoipReq)
  /-- ECU_RESET (R543). UDS 0x11 hardReset restarts after the positive response. -/
  | ecuReset (r : DoipReq)
  /-- CLEAR_DIAGNOSTIC_INFORMATION (R543). UDS 0x14 acts as SRV_CLEAR. -/
  | clearDiagnosticInformation (r : DoipReq)
  /-- READ_DTC_INFORMATION (R544). UDS 0x19 reports DTCs. -/
  | readDtcInformation (r : DoipReq)
  /-- READ_DATA_BY_IDENTIFIER (R543). UDS 0x22 returns identified values. -/
  | readDataByIdentifier (r : DoipReq)
  /-- SECURITY_ACCESS_REQUEST_SEED (R543). UDS 0x27 0x01 returns a seed. -/
  | securityAccessRequestSeed (r : DoipReq)
  /-- SECURITY_ACCESS_SEND_KEY (R543). UDS 0x27 0x02 checks the key and grants WORKSHOP. -/
  | securityAccessSendKey (r : DoipReq)
  /-- ROUTINE_CONTROL (R543). UDS 0x31 starts the preserving march routine. -/
  | routineControl (r : DoipReq)
  /-- TESTER_PRESENT (R543). UDS 0x3E keeps the session alive. -/
  | testerPresent (r : DoipReq)
  /-- S3_TIMEOUT (R543). The S3 timer expires and the WORKSHOP level ends. -/
  | s3Timeout (conn : Fin 2) (t : Nat)
  /-- SUPPLY_BAND_CHANGE (R546). The supply voltage enters a new band. -/
  | supplyBandChange (millivolts : Int) (kl30 : BitVec 2) (t : Nat)
  /-- HIGH_BAND_TIMEOUT (R549). 75 s in HIGH starts SHUTDOWN. -/
  | highBandTimeout (t : Nat)
  /-- POWER_FAILURE (R550). After 10 ms of hold-up the module saves state and cuts its rails. -/
  | powerFailure (t : Nat)
  /-- WAKE (R552). KL15 or WAKE_N wakes the module into BOOT. -/
  | wake (t : Nat)
  /-- OFF_DELAY_EXPIRE (R553). STANDBY conditions held for OFF_DELAY start SHUTDOWN. -/
  | offDelayExpire (t : Nat)
  /-- SHUTDOWN_SAVE_TIMEOUT (R553). No save report in 200 ms cuts rails without a save. -/
  | shutdownSaveTimeout (t : Nat)
  /-- PLL_LOCK_FAILURE (R556). A PLL fails to lock or loses lock. -/
  | pllLockFailure (domain : Fin 60)
  /-- RESTART (R558). A write of 1 requests a restart. -/
  | restart (by_ : Writer) (v : BitVec 8)
  /-- CORE_RESET_RELEASE (R559). DRAM is trained and core resets are released. -/
  | coreResetRelease (trained : BitVec 8) (t : Nat)
  /-- MAIN_CHANNEL_READY (R559). Components are loaded and the main channel is ready. -/
  | mainChannelReady (t : Nat)
  /-- MAIN_NOT_READY (R561). The main channel not ready within 3.0 s raises EV 0xE00C. -/
  | mainNotReady (t : Nat)
  /-- SENSOR_SAMPLE (R563). Every 1 ms the temperature sensors and input power are read. -/
  | sensorSample (temps : List Int) (power : Nat) (t : Nat)
  /-- MARIGOLD_DUE (R417). E + MARIGOLD_DUE passes without Marigold's list for frame n, so the plausibility check is skipped (cause PLAUS_SKIPPED) or the verdict is LATE, and a missing list counts toward Marigold's restart. -/
  | marigoldDue (t : Nat)
  /-- MARIGOLD_RESTART_COMPLETE (R425). Marigold's restart from its HyperRAM image ends, up to 150 ms after it began, and Marigold returns to RUNNING or, if the restart failed, goes to STOPPED. -/
  | marigoldRestartComplete (ok : Bool) (t : Nat)
  /-- KL15_CHANGE (R553). KL15 falls below its low threshold or returns, or WAKE_N changes, outside STANDBY, so the OFF_DELAY count toward SHUTDOWN starts or is cancelled. -/
  | kl15Change (kl15 : Int) (wake : Int) (t : Nat)
  /-- PPS_OUT_FALL (R459). PPS_OUT falls 100 ms after its rise at each whole gPTP second. -/
  | ppsOutFall (t : Nat)
  /-- PDELAY_RESPONSE_RECEIVE (R452). The answer to a port's own Pdelay request arrives, and the port's link delay and its asCapable state are updated, raising EV 0x2007 if the delay exceeds NEIGHBOR_THRESH. -/
  | pdelayResponseReceive (p : Fin 12) (y : PdelayIn)
  /-- MESSAGE_INTERVAL_REQUEST (R452). A received gPTP message-interval request moves a master port's Sync interval within −5 to 0. -/
  | messageIntervalRequest (p : Fin 12) (interval : Int)
  /-- GATE_LIST_INTERVAL_END (R446). An entry of a HOST port's 802.1Qbv gate control list runs out, and the gates of classes 0–2 take the next entry's mask. -/
  | gateListIntervalEnd (h : Fin 2) (ecc : QueueEcc)
  /-- CB_RESET_TIMEOUT (R449). A VLAN's 802.1CB recovery function gets no frame for its reset time CB_RESET_TIME and resets its sequence history. -/
  | cbResetTimeout (vlan : Nat) (t : Nat)
  /-- DOIP_CONNECTION_CLOSE (R543). A DoIP TCP connection closes, which ends its routed session and any WORKSHOP level it held. -/
  | doipConnectionClose (conn : Fin 2)
  deriving DecidableEq, Repr

end Sys2Proof
end

