-- ==== Sys2Proof/Config.lean ====
section
/-! DEFINITION. What the spec leaves open: functions and constants without a body. Nothing in the model can see what they
answer, so a statement that holds of the model holds whatever they are. Each is named in an assumption-log entry. -/

namespace Sys2Proof

/-- A fresh value per draw: the n-th random draw (session IDs R487, nonces R528), `n` the step's counter (log entry 2). -/
opaque Config.fresh : Nat → BitVec 256

/-- What a counter object shows once it has passed the end of its type: R475 gives the width and no rule for the overflow
(log entry 14). -/
opaque Config.counterPast : Nat → Int → Nat

/-- SM3 (R512, R517, R522): named by the spec, defined in its standard (log entry 15). -/
opaque Config.sm3 : Bytes → BitVec 256

/-- SM2 signature verification: public key, distinguishing identifier, message, signature (R515; log entry 15). -/
opaque Config.sm2Verify : Bytes → Bytes → Bytes → Bytes → Bool

/-- The device-unique secret of the fuses (R512; log entry 15). -/
opaque Config.dus : BitVec 256

/-- SM2 signature with a private key, under a distinguishing identifier, of a message (R523; log entry 15). -/
opaque Config.sm2Sign : Nat → Bytes → Bytes → BitVec 512

/-- SM2 decryption with a private key (R517, R541): none where it does not unwrap (log entry 15). -/
opaque Config.sm2Unwrap : Nat → Bytes → Option Bytes

/-- SM4 in counter mode: key, counter block, data (R520; log entry 15). -/
opaque Config.sm4Ctr : Bytes → Bytes → Bytes → Bytes

/-- SM4-CMAC check under a key of the life-cycle record as flash gives it (R524; log entry 15). -/
opaque Config.lcRecordOk : Bytes → Bytes → Bool

/-- The two Tarkor roots of Primrose's ROM (R512; log entry 15). -/
opaque Config.root : Fin 2 → Bytes

/-- A received MACsec frame (R450): key, salt and SSCI, and the frame. Answers the 64-bit packet number it recovered and what follows
the addresses in clear, none where validation fails (log entry 15). -/
opaque Config.macsecOpen : Bytes → Bytes → Bytes → Option (Nat × Bytes)

/-- The device serial of OD 0x0000.03, which each module is given in its making (log entry 15). -/
opaque Config.deviceSerial : BitVec 128

/-- Which of its two neighbours in the fixed-point format an exact value becomes that the format does not hold, from what the value is
computed of: R69 gives the formats and no rounding for what comes before q (log entry 16). -/
opaque Config.roundUp : List Int → Bool

/-- A coordinate of q = Pref⁻¹ · P(t) · p in 1/1,024 m before saturation, from the two poses, the point and the axis: any within R69's
tolerance of the exact one, where R69 gives one (R68, R69; log entry 16). -/
opaque Config.compensate : List Int → List Int → List Int → Nat → Int

/-- The sector 0-15 of a point at its head's origin, where the azimuth of R78 is not defined (log entry 17). -/
opaque Config.sectorOf : Int → Int → Fin 16

/-- The wear index where a rated value is 0 and the quotient of R52 is not given (log entry 18). -/
opaque Config.wearFree : Nat → Nat → Nat

/-- A coordinate in fine units of an aged centroid where Δ turns (R105, R106): Pref(n), Pref(n−1), centroid and axis: any within R69's
tolerance of the exact one (log entry 16). -/
opaque Config.ageTransform : List Int → List Int → List Int → Nat → Int

/-- Which NaN encoding a conversion writes for a NaN (R212 says only that a NaN stays a NaN; log entry 19). -/
opaque Config.nanPick : Nat → Nat → Nat

/-- Which of the values left a reduction node joins to the first of them: from the arrangement, the repair state, the tile row (16 for the
cross-tile levels) and how many are left; the order of a sum is fixed by these and not stated (R166; log entry 21). -/
opaque Config.mate : Nat → List Nat → Nat → Nat → Nat

/-- The store row of a result row beyond those the store holds, or of a column group beyond its columns: from the arrangement, the row and
the column group (R160; log entry 33). -/
opaque Config.storeSpill : Nat → Nat → Nat → Nat

/-- Run time in core cycles of an instance for OD 0x9100.06; the model counts no cycles (log entry 22). -/
opaque Config.runTime : Nat → Nat

/-- Core cycles of a core in which an access of a class waited, at an instant and after some draws (R235): free, since the model counts no cycles
(log entry 22). -/
opaque Config.waitCycles : Nat → Nat → Nat → Nat → Nat

/-- The CHECK byte of a message header (R270): a SEC-DED code the spec names and does not define (log entry 27). -/
opaque Config.headerCheck : Nat → BitVec 8

/-- The side a sticky overflow saturates to when the exact sum is back in range (R164; log entry 28). -/
opaque Config.satHigh : Int → Bool

/-- A table version component's payload: version number, the four array bases, and the pieces (region offset, bytes) it writes there
(R333; the spec gives no layout; log entry 37). -/
opaque Config.tableLoad : Bytes → Nat × List Nat × List (Nat × Bytes)

/-- A REPLICATED table version's rows in pool format, from a component's payload (R312, R333; log entry 37). -/
opaque Config.tableImage : Bytes → Bytes

/-- The bytes left free before each array of a version that the module makes itself, by table and slot (R332, R333, R335; log entry 38). -/
opaque Config.versionGaps : Nat → Nat → List Nat

/-- The units of 32 bytes left free before a SHADOW's n-th updated row (R335; log entry 38). -/
opaque Config.shadowGap : Nat → Nat → Nat

/-- The ROWWISE_ADAGRAD state of a row of a version that BUILD makes (R321 says nothing of it; log entry 38). -/
opaque Config.buildState : Nat → Nat → Nat

/-- The highest erase count of a flash block at an instant (R357, R359, OD 0x7900.03; log entry 174). -/
opaque Config.eraseMax : Nat → Nat → Nat

/-- Which two partial sums of Σ g² are added next, by their number: R338 gives no order (log entry 39). -/
opaque Config.sumOrder : Nat → Nat × Nat

/-- q = v ÷ scale where both are 0: R318 states no result (log entry 39). -/
opaque Config.zeroQuotient : Nat → Nat

/-- A model component's rule-book plan (R145-R147, R518; the spec gives the payload no layout; log entry 43). -/
opaque Config.modelPlan : Bytes → Bytes

/-- A task's program in a model component (R366, R367; log entry 43). -/
opaque Config.modelProgram : Bytes → Nat → Bytes

/-- What an encrypted model puts into CONFIDENTIAL windows (R25, R520): logical core, first quad, first granule, quads, bytes (log entry 43). -/
opaque Config.modelContents : Bytes → List (Nat × Nat × Nat × Nat × Bytes)

/-- The 24 bytes of a failing pair's differences in the disagreement log (R439; no layout given; log entry 49). -/
opaque Config.pairBytes : List Int → BitVec 192

/-- SQI and other figures a PHY reports (R473; log entry 45). -/
opaque Config.phy : Nat → Nat

/-- The bytes of a gPTP message, by kind, port, the port's Sync interval and instant: IEEE 802.1AS-2020's, which the spec names and does
not spell (log entry 51). -/
opaque Config.gptpBytes : Nat → Nat → Int → Nat → Bytes

/-- The fields of an IPv4 header that R443 leaves open, by what the datagram holds: type of service, identification, time to live (log
entry 177). -/
opaque Config.ipv4Free : Nat → Bytes → BitVec 32

/-- The fields of a header alone that R472 gives no value (log entry 52). -/
opaque Config.headerFill : Nat → Bytes

/-- DEVICE_CERT (R513): X.509 certificates that the spec does not spell (log entry 54). -/
opaque Config.deviceCert : Bytes

/-- What DESCRIBE gives as the maximum of a read-only BLOB whose maximum the spec does not state (R494; log entry 55). -/
opaque Config.blobMax : Nat → Nat

/-- The name DESCRIBE gives a subindex 0x00, which R480 does not name (log entry 55). -/
opaque Config.subName : Nat → Bytes

end Sys2Proof
end

