-- ==== Sys2Proof/Machine/Bits.lean ====
section
/-! DEFINITION. Bit fields, byte order, sign, rounding, saturation and the CRC-32C: the helpers every unit shares. -/

namespace Sys2Proof.Machine

/-- Bits [hi:lo] of `v` (R7). -/
def bitsOf (v hi lo : Nat) : Nat := v / 2 ^ lo % 2 ^ (hi + 1 - lo)

/-- Bit `i` of `v`. -/
def bitAt (v i : Nat) : Bool := v / 2 ^ i % 2 == 1

/-- A field of `v` replaced: bits [hi:lo] become `x`. -/
def setBits (v hi lo x : Nat) : Nat :=
  v - bitsOf v hi lo * 2 ^ lo + (x % 2 ^ (hi + 1 - lo)) * 2 ^ lo

/-- OR on naturals used as masks. -/
def orBits (a b : Nat) : Nat := a ||| b

/-- Set bit `i`. -/
def setBit (v i : Nat) : Nat := v ||| 2 ^ i

/-- Clear bit `i`. -/
def clearBit (v i : Nat) : Nat := if bitAt v i then v - 2 ^ i else v

/-- The numbers of the set bits of `v` below `n`, ascending. -/
def bitList (v n : Nat) : List Nat := (List.range n).filter (fun i => bitAt v i)

/-- How many bits of `v` below `n` are set. -/
def popCount (v n : Nat) : Nat := (bitList v n).length

/-- Two's complement value of the low `w` bits (R475). -/
def signedOf (w v : Nat) : Int :=
  let u := v % 2 ^ w
  if 2 * u < 2 ^ w then (u : Int) else (u : Int) - (2 ^ w : Nat)

/-- The low `w` bits of an integer. -/
def unsignedOf (w : Nat) (i : Int) : Nat := (i % (2 ^ w : Nat)).toNat

/-- Little-endian value of a byte string (R5). -/
def leNat : Bytes → Nat
  | [] => 0
  | b :: bs => b.toNat + 256 * leNat bs

/-- Network-order value of a byte string. -/
def beNat (l : Bytes) : Nat := l.foldl (fun a b => 256 * a + b.toNat) 0

/-- `n` little-endian bytes of `v`. -/
def natLe : Nat → Nat → Bytes
  | 0, _ => []
  | n + 1, v => BitVec.ofNat 8 v :: natLe n (v / 256)

/-- `n` network-order bytes of `v`. -/
def natBe (n v : Nat) : Bytes := (natLe n v).reverse

/-- `n` zero bytes. -/
def zeros (n : Nat) : Bytes := List.replicate n 0

/-- Cut or zero-pad to `n` bytes. -/
def padTo (n : Nat) (l : Bytes) : Bytes := l.take n ++ zeros (n - l.length)

/-- Bytes [o, o + n) of a string, short if it ends before. -/
def slice (l : Bytes) (o n : Nat) : Bytes := (l.drop o).take n

/-- A little-endian field of `n` bytes at `o`. -/
def fieldLe (l : Bytes) (o n : Nat) : Nat := leNat (slice l o n)

/-- A network-order field of `n` bytes at `o`. -/
def fieldBe (l : Bytes) (o n : Nat) : Nat := beNat (slice l o n)

/-- A signed little-endian field of `n` bytes at `o`. -/
def fieldI (l : Bytes) (o n : Nat) : Int := signedOf (8 * n) (fieldLe l o n)

/-- Every byte of the string is zero. -/
def allZero (l : Bytes) : Bool := l.all (fun b => b == 0)

/-- ASCII bytes of a text. -/
def ascii (s : String) : Bytes := s.toList.map (fun c => BitVec.ofNat 8 c.toNat)

/-- Quotient rounded up. -/
def ceilDiv (a b : Nat) : Nat := (a + b - 1) / b

/-- `a ÷ b` rounded to nearest, ties away from zero. -/
def divNearest (a : Int) (b : Nat) : Int :=
  let q := (2 * a.natAbs + b) / (2 * b)
  if a < 0 then -(q : Int) else q

/-- `a ÷ b` rounded toward zero. -/
def divTrunc (a : Int) (b : Nat) : Int :=
  let q := a.natAbs / b
  if a < 0 then -(q : Int) else q

/-- Hold `v` between `lo` and `hi`. -/
def clampI (lo hi v : Int) : Int := if v < lo then lo else if hi < v then hi else v

/-- Saturate to `w` signed bits. -/
def satSigned (w : Nat) (v : Int) : Int := clampI (-(2 ^ (w - 1) : Nat)) ((2 ^ (w - 1) : Nat) - 1) v

/-- One bit of the reflected CRC-32C, polynomial 0x1EDC_6F41 (PRESUMED: the spec names the CRC, log entry 4). -/
def crcStep : Nat → BitVec 32 → BitVec 32
  | 0, c => c
  | n + 1, c => crcStep n (if c.getLsbD 0 then (c >>> 1) ^^^ 0x82F63B78#32 else c >>> 1)

/-- CRC-32C register after a byte string, from a given start, without the final XOR. -/
def crcRun (start : BitVec 32) (l : Bytes) : BitVec 32 :=
  l.foldl (fun c b => crcStep 8 (c ^^^ b.zeroExtend 32)) start

/-- One bit of the reflected CRC-32 of IEEE 802.3, polynomial 0x04C1_1DB7 (PRESUMED: the spec names the frame check sequence, log entry 169). -/
def fcsStep : Nat → BitVec 32 → BitVec 32
  | 0, c => c
  | n + 1, c => fcsStep n (if c.getLsbD 0 then (c >>> 1) ^^^ 0xEDB88320#32 else c >>> 1)

/-- The frame check sequence of a frame (R277). -/
def ethFcs (l : Bytes) : Nat :=
  (l.foldl (fun c b => fcsStep 8 (c ^^^ b.zeroExtend 32)) 0xFFFFFFFF#32 ^^^ 0xFFFFFFFF#32).toNat

/-- CRC-32C of a byte string. -/
def crc32c (l : Bytes) : Nat := (crcRun 0xFFFFFFFF#32 l ^^^ 0xFFFFFFFF#32).toNat

/-- Short stamp of an instant (R455). -/
def shortStamp (ns : Nat) : Nat := ns % 2 ^ 32

/-- TIME80 of an instant (R455). -/
def time80 (ns : Nat) : Bytes := natLe 6 (ns / 1000000000) ++ natLe 4 (ns % 1000000000)

/-- The instant of a TIME80; refused where the nanoseconds reach 10⁹ (R455). -/
def ofTime80 (l : Bytes) : Option Nat :=
  let n := fieldLe l 6 4
  if n < 1000000000 then some (1000000000 * fieldLe l 0 6 + n) else none

/-- Replace element `i` of a list by `f` of it; nothing beyond the end. -/
def modifyAt {α : Type} (f : α → α) : Nat → List α → List α
  | _, [] => []
  | 0, x :: xs => f x :: xs
  | i + 1, x :: xs => x :: modifyAt f i xs

/-- Apply `f` to the first element that `p` picks. -/
def modifyFirst {α : Type} (p : α → Bool) (f : α → α) : List α → List α
  | [] => []
  | x :: xs => if p x then f x :: xs else x :: modifyFirst p f xs

/-- Remove the first element that `p` picks. -/
def removeFirst {α : Type} (p : α → Bool) : List α → List α
  | [] => []
  | x :: xs => if p x then xs else x :: removeFirst p xs

/-- Insert in order; an element goes after those that do not rank behind it. -/
def insertBy {α : Type} (before : α → α → Bool) (x : α) : List α → List α
  | [] => [x]
  | y :: ys => if before x y then x :: y :: ys else y :: insertBy before x ys

/-- Insertion sort, stable. -/
def sortBy {α : Type} (before : α → α → Bool) (l : List α) : List α :=
  l.foldl (fun a x => insertBy before x a) []

/-- Cut a string into pieces of `n` bytes; `fuel` bounds the pieces. -/
def chunksOf {α : Type} (n : Nat) : Nat → List α → List (List α)
  | 0, _ => []
  | _, [] => []
  | fuel + 1, l => l.take n :: chunksOf n fuel (l.drop n)

/-- Integer square root, one result bit per step from bit `n − 1` down. -/
def isqrt : Nat → Nat → Nat → Nat
  | 0, _, r => r
  | n + 1, v, r => if (r + 2 ^ n) * (r + 2 ^ n) ≤ v then isqrt n v (r + 2 ^ n) else isqrt n v r

end Sys2Proof.Machine
end

