-- ==== Sys2Proof/Machine/OdTable.lean ====
section
/-! DEFINITION. The object dictionary's listings: one row per listed subindex (R85, R111, R114, R148, R189, R218, R254, R288,
R309, R342, R361, R387, R439, R473, R505-R510, R565), with type, access, apply time, level, persistence, default and range. -/

namespace Sys2Proof.Machine

/-- The types of R475. -/
inductive OdTy where
  | bool | u8 | u16 | u32 | u64 | i8 | i16 | i32 | i64 | f32 | time80 | octets (n : Nat) | text (n : Nat) | blob
  deriving DecidableEq, Repr, Inhabited

/-- Access of R476. -/
inductive OdAcc where | ro | rw | wo
  deriving DecidableEq, Repr, Inhabited

/-- Apply times of R478; `none` of an RO object. -/
inductive OdApply where | now | frame | restart | none
  deriving DecidableEq, Repr, Inhabited

/-- Levels of R477, and of sessions. -/
inductive Level where | open | workshop | vendor
  deriving DecidableEq, Repr, Inhabited

/-- The value of an object: a number, or the bytes of a TEXT, OCTETS, TIME80 or BLOB. -/
inductive OdVal where
  | num (v : Int)
  | oct (b : Bytes)
  deriving DecidableEq, Repr

/-- One listed subindex. Instance i of `count` has index base + stride * i (R482). `lo` and `hi` bound a numeric write. -/
structure OdRow where
  base : Nat
  stride : Nat
  count : Nat
  sub : Nat
  name : String
  ty : OdTy
  acc : OdAcc
  apply : OdApply
  level : Level
  stored : Bool
  dflt : Int
  lo : Int
  hi : Int
  deriving DecidableEq, Repr

/-- Page 0x0, part 0. -/
def Od.p0_0 : List OdRow := [
  ⟨0x0000, 0, 1, 0x01, "VENDOR", (.text 16), .ro, .none, .open, false, 0, 0, 0⟩,
  ⟨0x0000, 0, 1, 0x02, "PART_NUMBER", (.text 16), .ro, .none, .open, false, 0, 0, 0⟩,
  ⟨0x0000, 0, 1, 0x03, "SERIAL", (.text 16), .ro, .none, .open, false, 0, 0, 0⟩,
  ⟨0x0000, 0, 1, 0x04, "HW_ISSUE", .u16, .ro, .none, .open, false, 0, 0, 65535⟩,
  ⟨0x0000, 0, 1, 0x05, "DIE_ISSUE", .u16, .ro, .none, .open, false, 0, 0, 65535⟩,
  ⟨0x0000, 0, 1, 0x06, "SUPERVISOR_FW", .u32, .ro, .none, .open, false, 0, 0, 4294967295⟩,
  ⟨0x0000, 0, 1, 0x07, "PRIMROSE_ISSUE", .u32, .ro, .none, .open, false, 0, 0, 4294967295⟩,
  ⟨0x0000, 0, 1, 0x08, "MARIGOLD_FW", .u32, .ro, .none, .open, false, 0, 0, 4294967295⟩,
  ⟨0x0000, 0, 1, 0x09, "HAP_VERSION", .u8, .ro, .none, .open, false, 1, 0, 255⟩,
  ⟨0x0000, 0, 1, 0x0A, "MANUFACTURED", .u32, .ro, .none, .open, false, 0, 0, 4294967295⟩,
  ⟨0x0001, 0, 1, 0x01, "DEVICE_ID", .u16, .rw, .restart, .workshop, true, 0, 0, 65535⟩,
  ⟨0x0001, 0, 1, 0x02, "INSTALL_NAME", (.text 32), .rw, .now, .workshop, true, 0, 0, 0⟩,
  ⟨0x0002, 0, 1, 0x01, "LIFE_CYCLE", .u8, .ro, .none, .open, false, 1, 0, 255⟩,
  ⟨0x0002, 0, 1, 0x02, "LC_REQUEST", .u8, .wo, .now, .vendor, false, 0, 0, 255⟩,
  ⟨0x0002, 0, 1, 0x03, "LC_TRANSITIONS", .u16, .ro, .none, .open, true, 0, 0, 65535⟩,
  ⟨0x0003, 0, 1, 0x01, "OPERATING_TIME", .u64, .ro, .none, .open, true, 0, 0, 18446744073709551615⟩,
  ⟨0x0003, 0, 1, 0x02, "POWER_CYCLES", .u32, .ro, .none, .open, true, 0, 0, 4294967295⟩]

/-- Page 0x0. -/
def Od.p0 : List OdRow := Od.p0_0

/-- Page 0x1, part 0. -/
def Od.p1_0 : List OdRow := [
  ⟨0x1800, 0, 1, 0x01, "FABRIC_TIMEOUT", .u32, .rw, .now, .vendor, false, 50, 10, 1000⟩,
  ⟨0x1800, 0, 1, 0x02, "PEER_TIMEOUT", .u32, .rw, .now, .workshop, false, 1000, 100, 100000⟩,
  ⟨0x1800, 0, 1, 0x03, "PEER_FLUSH_TIME", .u16, .rw, .now, .workshop, false, 1000, 16, 65535⟩,
  ⟨0x1800, 0, 1, 0x04, "PEER_MTU", .u16, .rw, .restart, .workshop, true, 1500, 0, 65535⟩,
  ⟨0x1800, 0, 1, 0x05, "PEER_PCP", .u16, .rw, .restart, .workshop, true, 25923, 0, 65535⟩,
  ⟨0x1800, 0, 1, 0x06, "PEER_VLAN", .u16, .rw, .restart, .workshop, true, 0, 0, 4094⟩,
  ⟨0x1810, 1, 16, 0x00, "GROUP", (.octets 16), .rw, .restart, .workshop, true, 0, 0, 0⟩,
  ⟨0x1820, 0, 1, 0x00, "PEER_TABLE", .blob, .rw, .restart, .workshop, true, 0, 0, 0⟩,
  ⟨0x1830, 1, 24, 0x01, "FILL_PEAK", .u32, .ro, .none, .open, false, 0, 0, 4294967295⟩,
  ⟨0x1830, 1, 24, 0x02, "PACKETS", .u64, .ro, .none, .open, false, 0, 0, 18446744073709551615⟩,
  ⟨0x1830, 1, 24, 0x03, "DROPPED", .u32, .ro, .none, .open, false, 0, 0, 4294967295⟩,
  ⟨0x1830, 1, 24, 0x04, "CORRECTED", .u32, .ro, .none, .open, false, 0, 0, 4294967295⟩,
  ⟨0x1830, 1, 24, 0x05, "UNCORRECTABLE", .u32, .ro, .none, .open, false, 0, 0, 4294967295⟩,
  ⟨0x1830, 1, 24, 0x06, "UNDERRUN", .u32, .ro, .none, .open, false, 0, 0, 4294967295⟩,
  ⟨0x1830, 1, 24, 0x07, "FLUSHES", .u32, .ro, .none, .open, false, 0, 0, 4294967295⟩,
  ⟨0x1830, 1, 24, 0x08, "FLUSH", .u8, .wo, .now, .workshop, false, 0, 1, 1⟩,
  ⟨0x1830, 1, 24, 0x09, "BAD_IN", .u32, .ro, .none, .open, false, 0, 0, 4294967295⟩,
  ⟨0x1830, 1, 24, 0x0A, "HIGH", .u8, .rw, .now, .workshop, false, 50, 0, 100⟩,
  ⟨0x1830, 1, 24, 0x0B, "LOW", .u8, .rw, .now, .workshop, false, 25, 0, 100⟩,
  ⟨0x18F0, 0, 1, 0x01, "LINK_CORRECTED", .u64, .ro, .none, .open, false, 0, 0, 18446744073709551615⟩,
  ⟨0x18F0, 0, 1, 0x02, "HEADER_DROPPED", .u32, .ro, .none, .open, false, 0, 0, 4294967295⟩,
  ⟨0x18F0, 0, 1, 0x03, "DATA_NACKED", .u32, .ro, .none, .open, false, 0, 0, 4294967295⟩,
  ⟨0x18F0, 0, 1, 0x04, "BAD_TYPE", .u32, .ro, .none, .open, false, 0, 0, 4294967295⟩,
  ⟨0x18F0, 0, 1, 0x05, "TIMEOUT_LOCAL", .u32, .ro, .none, .open, false, 0, 0, 4294967295⟩,
  ⟨0x18F0, 0, 1, 0x06, "TIMEOUT_PEER", .u32, .ro, .none, .open, false, 0, 0, 4294967295⟩,
  ⟨0x18F0, 0, 1, 0x07, "LATE_RESPONSES", .u32, .ro, .none, .open, false, 0, 0, 4294967295⟩,
  ⟨0x18F0, 0, 1, 0x08, "UNREACHABLE", .u32, .ro, .none, .open, false, 0, 0, 4294967295⟩,
  ⟨0x18F0, 0, 1, 0x09, "CREDIT_ERRORS", .u32, .ro, .none, .open, false, 0, 0, 4294967295⟩,
  ⟨0x18F0, 0, 1, 0x0A, "COLL_MISMATCH", .u32, .ro, .none, .open, false, 0, 0, 4294967295⟩,
  ⟨0x18F0, 0, 1, 0x0B, "PEER_FRAMES_OUT", .u64, .ro, .none, .open, false, 0, 0, 18446744073709551615⟩,
  ⟨0x18F0, 0, 1, 0x0C, "PEER_FRAMES_IN", .u64, .ro, .none, .open, false, 0, 0, 18446744073709551615⟩,
  ⟨0x18F0, 0, 1, 0x0D, "PEER_FRAMES_BAD", .u32, .ro, .none, .open, false, 0, 0, 4294967295⟩,
  ⟨0x1000, 0, 1, 0x01, "MODULE_IP", .u32, .rw, .restart, .workshop, true, 0, 0, 4294967295⟩,
  ⟨0x1000, 0, 1, 0x02, "HOST_IP", .u32, .rw, .restart, .workshop, true, 0, 0, 4294967295⟩,
  ⟨0x1000, 0, 1, 0x03, "RESULT_IP", .u32, .rw, .restart, .workshop, true, 0, 0, 4294967295⟩,
  ⟨0x1000, 0, 1, 0x04, "HOST_MAC_0", (.octets 6), .rw, .restart, .workshop, true, 0, 0, 0⟩,
  ⟨0x1000, 0, 1, 0x05, "HOST_MAC_1", (.octets 6), .rw, .restart, .workshop, true, 0, 0, 0⟩,
  ⟨0x1000, 0, 1, 0x07, "CB_ENABLE", .bool, .rw, .restart, .workshop, true, 1, 0, 1⟩,
  ⟨0x1000, 0, 1, 0x08, "CB_RESET_TIME", .u16, .rw, .restart, .workshop, true, 100, 10, 10000⟩,
  ⟨0x10F0, 0, 1, 0x01, "CB_PASSED", .u64, .ro, .none, .open, false, 0, 0, 18446744073709551615⟩]

/-- Page 0x1, part 1. -/
def Od.p1_1 : List OdRow := [
  ⟨0x10F0, 0, 1, 0x02, "CB_DISCARDED", .u64, .ro, .none, .open, false, 0, 0, 18446744073709551615⟩,
  ⟨0x10F0, 0, 1, 0x03, "CB_LOST", .u64, .ro, .none, .open, false, 0, 0, 18446744073709551615⟩,
  ⟨0x10F0, 0, 1, 0x04, "CB_ROGUE", .u64, .ro, .none, .open, false, 0, 0, 18446744073709551615⟩,
  ⟨0x1100, 16, 12, 0x01, "ENABLE", .bool, .rw, .restart, .workshop, true, 1, 0, 1⟩,
  ⟨0x1100, 16, 12, 0x02, "LINK", .u8, .ro, .none, .open, false, 0, 0, 255⟩,
  ⟨0x1100, 16, 12, 0x03, "PHY_ROLE", .u8, .rw, .restart, .workshop, true, 0, 0, 1⟩,
  ⟨0x1100, 16, 12, 0x04, "SPEED", .u8, .rw, .restart, .workshop, true, 1, 0, 255⟩,
  ⟨0x1100, 16, 12, 0x05, "OWN_MAC", (.octets 6), .ro, .none, .open, false, 0, 0, 0⟩,
  ⟨0x1100, 16, 12, 0x06, "RX_FRAMES", .u64, .ro, .none, .open, false, 0, 0, 18446744073709551615⟩,
  ⟨0x1100, 16, 12, 0x07, "RX_DROPPED", .u32, .ro, .none, .open, false, 0, 0, 4294967295⟩,
  ⟨0x1100, 16, 12, 0x08, "RX_FCS_ERRORS", .u32, .ro, .none, .open, false, 0, 0, 4294967295⟩,
  ⟨0x1100, 16, 12, 0x09, "TX_FRAMES", .u64, .ro, .none, .open, false, 0, 0, 18446744073709551615⟩,
  ⟨0x1100, 16, 12, 0x0A, "VLAN_ID", .u16, .rw, .restart, .workshop, true, 0, 0, 4094⟩,
  ⟨0x1100, 16, 12, 0x0B, "LINK_DOWNS", .u32, .ro, .none, .open, false, 0, 0, 4294967295⟩,
  ⟨0x1100, 16, 12, 0x0C, "SQI", .u8, .ro, .none, .open, false, 0, 0, 255⟩,
  ⟨0x1100, 16, 12, 0x0D, "MACSEC_ENABLE", .bool, .rw, .restart, .workshop, true, 0, 0, 1⟩,
  ⟨0x1100, 16, 12, 0x0E, "MACSEC_DROPPED", .u32, .ro, .none, .open, false, 0, 0, 4294967295⟩,
  ⟨0x1100, 16, 12, 0x0F, "QCI_FILTERS", (.octets 128), .rw, .restart, .workshop, true, 0, 0, 0⟩,
  ⟨0x1100, 16, 12, 0x10, "QCI_DROPPED", .u32, .ro, .none, .open, false, 0, 0, 4294967295⟩,
  ⟨0x1180, 16, 2, 0x11, "GATE_LIST", .blob, .rw, .frame, .workshop, false, 0, 0, 0⟩,
  ⟨0x1180, 16, 2, 0x12, "IDLE_SLOPE_0", .u32, .rw, .frame, .workshop, false, 100000, 0, 4294967295⟩,
  ⟨0x1180, 16, 2, 0x13, "IDLE_SLOPE_1", .u32, .rw, .frame, .workshop, false, 200000, 0, 4294967295⟩,
  ⟨0x1180, 16, 2, 0x14, "TC10_STATE", .u8, .ro, .none, .open, false, 0, 0, 255⟩,
  ⟨0x1A00, 0, 1, 0x01, "RESULT_BODY", .u64, .rw, .restart, .workshop, true, 0, 0, 18446744073709551615⟩,
  ⟨0x1A00, 0, 1, 0x02, "RESULT_LEAD", .u32, .rw, .restart, .workshop, true, 2000, 100, 200000⟩,
  ⟨0x1A00, 0, 1, 0x03, "STALE_AGE", .u32, .rw, .restart, .workshop, true, 200000, 1000, 10000000⟩,
  ⟨0x1A00, 0, 1, 0x04, "LAST_LAUNCHED", .u32, .ro, .none, .open, false, 0, 0, 4294967295⟩,
  ⟨0x1A00, 0, 1, 0x05, "RECORDS", .u32, .ro, .none, .open, false, 0, 0, 4294967295⟩,
  ⟨0x1A00, 0, 1, 0x06, "BODY_MISSING", .u32, .ro, .none, .open, false, 0, 0, 4294967295⟩,
  ⟨0x1A00, 0, 1, 0x07, "BODY_BAD", .u32, .ro, .none, .open, false, 0, 0, 4294967295⟩,
  ⟨0x1A00, 0, 1, 0x08, "READS", .u32, .ro, .none, .open, false, 0, 0, 4294967295⟩,
  ⟨0x1A00, 0, 1, 0x09, "NOT_READY_REPLIES", .u32, .ro, .none, .open, false, 0, 0, 4294967295⟩,
  ⟨0x1A00, 0, 1, 0x0A, "STALE_REPLIES", .u32, .ro, .none, .open, false, 0, 0, 4294967295⟩,
  ⟨0x1A00, 0, 1, 0x0B, "START_UP_NUMBER", .u32, .ro, .none, .open, true, 0, 0, 4294967295⟩,
  ⟨0x1B00, 0, 1, 0x01, "SESSION_TIMEOUT", .u16, .rw, .now, .workshop, false, 5000, 1000, 60000⟩,
  ⟨0x1B00, 0, 1, 0x02, "SESSIONS", .u8, .ro, .none, .open, false, 0, 0, 255⟩,
  ⟨0x1B00, 0, 1, 0x03, "MALFORMED", .u32, .ro, .none, .open, false, 0, 0, 4294967295⟩,
  ⟨0x1B00, 0, 1, 0x04, "SEQUENCE_ERRORS", .u32, .ro, .none, .open, false, 0, 0, 4294967295⟩,
  ⟨0x1B00, 0, 1, 0x05, "OVERLAPPED", .u32, .ro, .none, .open, false, 0, 0, 4294967295⟩,
  ⟨0x1B00, 0, 1, 0x06, "REPEATS", .u32, .ro, .none, .open, false, 0, 0, 4294967295⟩]

/-- Page 0x1, part 2. -/
def Od.p1_2 : List OdRow := [
  ⟨0x1B00, 0, 1, 0x07, "TRANSFERS_DISCARDED", .u32, .ro, .none, .open, false, 0, 0, 4294967295⟩,
  ⟨0x1B00, 0, 1, 0x08, "NOTIFY_LOST", .u32, .ro, .none, .open, false, 0, 0, 4294967295⟩,
  ⟨0x1B00, 0, 1, 0x09, "POSE_DROPPED", .u32, .ro, .none, .open, false, 0, 0, 4294967295⟩,
  ⟨0x1B00, 0, 1, 0x0A, "REQUESTS", .u64, .ro, .none, .open, false, 0, 0, 18446744073709551615⟩]

/-- Page 0x1. -/
def Od.p1 : List OdRow := Od.p1_0 ++ Od.p1_1 ++ Od.p1_2

/-- Page 0x2, part 0. -/
def Od.p2_0 : List OdRow := [
  ⟨0x2000, 0, 1, 0x01, "TIME_STATE", .u8, .ro, .none, .open, false, 0, 0, 255⟩,
  ⟨0x2000, 0, 1, 0x02, "OFFSET", .i64, .ro, .none, .open, false, 0, (-9223372036854775808), 9223372036854775807⟩,
  ⟨0x2000, 0, 1, 0x03, "RATE_TRIM", .i32, .ro, .none, .open, false, 0, (-2147483648), 2147483647⟩,
  ⟨0x2000, 0, 1, 0x04, "OFFSET_LIMIT", .u32, .rw, .now, .workshop, false, 10000, 1000, 1000000⟩,
  ⟨0x2000, 0, 1, 0x05, "HOLDOVER_LIMIT", .u32, .rw, .now, .workshop, false, 10000, 0, 4294967295⟩,
  ⟨0x2000, 0, 1, 0x06, "SYNC_WAIT", .u32, .rw, .restart, .workshop, true, 1000, 100, 10000⟩,
  ⟨0x2000, 0, 1, 0x07, "SYNC_INTERVAL", .i8, .rw, .restart, .workshop, true, (-3), (-5), 0⟩,
  ⟨0x2000, 0, 1, 0x08, "SLAVE_PORT", .u8, .ro, .none, .open, false, 8, 0, 255⟩,
  ⟨0x2000, 0, 1, 0x09, "HOLDOVER_TIME", .u32, .ro, .none, .open, false, 0, 0, 4294967295⟩,
  ⟨0x2000, 0, 1, 0x0A, "NEIGHBOR_THRESH", .u32, .rw, .restart, .workshop, true, 800, 0, 4294967295⟩,
  ⟨0x2000, 0, 1, 0x0B, "NOW", .time80, .ro, .none, .open, false, 0, 0, 0⟩,
  ⟨0x2000, 0, 1, 0x0C, "PPS_IN_STAMP", .time80, .ro, .none, .open, false, 0, 0, 0⟩,
  ⟨0x2100, 16, 12, 0x01, "ROLE", .u8, .rw, .restart, .workshop, true, 0, 0, 3⟩,
  ⟨0x2100, 16, 12, 0x02, "ASYMMETRY", .i32, .rw, .restart, .workshop, true, 0, (-16000), 16000⟩,
  ⟨0x2100, 16, 12, 0x03, "LINK_DELAY", .u32, .ro, .none, .open, false, 0, 0, 4294967295⟩,
  ⟨0x2100, 16, 12, 0x04, "FIXED_DELAY", .u32, .rw, .restart, .workshop, true, 0, 0, 4294967295⟩,
  ⟨0x2100, 16, 12, 0x05, "AS_CAPABLE", .bool, .ro, .none, .open, false, 0, 0, 1⟩,
  ⟨0x2F00, 0, 1, 0x01, "TIME_DEGRADED", .u16, .ro, .none, .open, false, 0, 0, 65535⟩]

/-- Page 0x2. -/
def Od.p2 : List OdRow := Od.p2_0

/-- Page 0x3, part 0; XOFF_HIGH and XOFF_LOW take no value above 100 (log entry 152). -/
def Od.p3_0 : List OdRow := [
  ⟨0x3000, 0, 1, 0x01, "POSE_MODEL", .u8, .rw, .frame, .workshop, false, 1, 0, 1⟩,
  ⟨0x3000, 0, 1, 0x02, "POSE_EXTRAP_LIMIT", .u32, .rw, .frame, .workshop, false, 50000, 1000, 200000⟩,
  ⟨0x3000, 0, 1, 0x03, "RUNAHEAD_TOL", .u16, .rw, .frame, .workshop, false, 250, 10, 1000⟩,
  ⟨0x3000, 0, 1, 0x04, "WITHDRAW_SHARE", .u16, .rw, .frame, .workshop, false, 20, 1, 250⟩,
  ⟨0x3000, 0, 1, 0x06, "LOSS_TIMEOUT", .u16, .rw, .now, .workshop, false, 200, 20, 2000⟩,
  ⟨0x3000, 0, 1, 0x07, "NEAR_RANGE", .u16, .rw, .frame, .workshop, false, 307, 0, 65535⟩,
  ⟨0x3000, 0, 1, 0x08, "CONTAM_LIMIT", .u16, .rw, .now, .workshop, false, 150, 0, 65535⟩,
  ⟨0x3001, 0, 1, 0x01, "BUDGET_L0", .u32, .rw, .frame, .workshop, false, 2359296, 0, 4294967295⟩,
  ⟨0x3001, 0, 1, 0x02, "BUDGET_L1", .u32, .rw, .frame, .workshop, false, 2621440, 0, 4294967295⟩,
  ⟨0x3001, 0, 1, 0x03, "BUDGET_L2", .u32, .rw, .frame, .workshop, false, 2883584, 0, 4294967295⟩,
  ⟨0x3001, 0, 1, 0x04, "BUDGET_L3", .u32, .rw, .frame, .workshop, false, 3145728, 0, 4294967295⟩,
  ⟨0x3001, 0, 1, 0x05, "BUDGET_L4", .u32, .rw, .frame, .workshop, false, 3407872, 0, 4294967295⟩,
  ⟨0x3001, 0, 1, 0x06, "BUDGET_L5", .u32, .rw, .frame, .workshop, false, 3670016, 0, 4294967295⟩,
  ⟨0x3001, 0, 1, 0x07, "BUDGET_L6", .u32, .rw, .frame, .workshop, false, 3932160, 0, 4294967295⟩,
  ⟨0x3001, 0, 1, 0x08, "BUDGET_L7", .u32, .ro, .frame, .workshop, false, 4194304, 0, 4294967295⟩,
  ⟨0x3002, 0, 1, 0x01, "XOFF_HIGH", .u8, .rw, .now, .workshop, false, 75, 0, 100⟩,
  ⟨0x3002, 0, 1, 0x02, "XOFF_LOW", .u8, .rw, .now, .workshop, false, 50, 0, 100⟩,
  ⟨0x3010, 1, 8, 0x00, "PROGRAM", .blob, .rw, .frame, .workshop, false, 0, 0, 0⟩,
  ⟨0x3100, 16, 8, 0x01, "PROGRAM", .u8, .rw, .frame, .workshop, false, 255, 0, 255⟩,
  ⟨0x3100, 16, 8, 0x02, "PAIRED_SERIAL", (.octets 16), .ro, .none, .open, false, 0, 0, 0⟩,
  ⟨0x3100, 16, 8, 0x03, "STATE", .u8, .ro, .none, .open, false, 0, 0, 255⟩,
  ⟨0x3100, 16, 8, 0x04, "PRESENTED_SERIAL", (.octets 16), .ro, .none, .open, false, 0, 0, 0⟩,
  ⟨0x3100, 16, 8, 0x05, "ACCEPT", .u8, .wo, .now, .workshop, false, 0, 1, 1⟩,
  ⟨0x3100, 16, 8, 0x06, "CAL_RECORD", .blob, .rw, .now, .workshop, false, 0, 0, 0⟩,
  ⟨0x3101, 16, 8, 0x01, "CORR_DX", .i32, .ro, .none, .open, false, 0, (-2147483648), 2147483647⟩,
  ⟨0x3101, 16, 8, 0x02, "CORR_DY", .i32, .ro, .none, .open, false, 0, (-2147483648), 2147483647⟩,
  ⟨0x3101, 16, 8, 0x03, "CORR_DZ", .i32, .ro, .none, .open, false, 0, (-2147483648), 2147483647⟩,
  ⟨0x3101, 16, 8, 0x04, "CORR_ROLL", .i32, .ro, .none, .open, false, 0, (-2147483648), 2147483647⟩,
  ⟨0x3101, 16, 8, 0x05, "CORR_PITCH", .i32, .ro, .none, .open, false, 0, (-2147483648), 2147483647⟩,
  ⟨0x3101, 16, 8, 0x06, "CORR_YAW", .i32, .ro, .none, .open, false, 0, (-2147483648), 2147483647⟩,
  ⟨0x3101, 16, 8, 0x07, "CAL_STATUS", .u8, .ro, .none, .open, false, 0, 0, 255⟩,
  ⟨0x3101, 16, 8, 0x08, "CAL_RESIDUAL", .u32, .ro, .none, .open, false, 0, 0, 4294967295⟩,
  ⟨0x3101, 16, 8, 0x09, "CAL_FREEZE", .bool, .rw, .frame, .workshop, false, 0, 0, 1⟩,
  ⟨0x3102, 16, 8, 0x01, "OP_TIME", .u64, .ro, .none, .open, true, 0, 0, 18446744073709551615⟩,
  ⟨0x3102, 16, 8, 0x02, "PULSES", .u64, .ro, .none, .open, true, 0, 0, 18446744073709551615⟩,
  ⟨0x3102, 16, 8, 0x03, "CONTAM", .u16, .ro, .none, .open, true, 0, 0, 65535⟩,
  ⟨0x3102, 16, 8, 0x04, "WEAR", .u16, .ro, .none, .open, false, 0, 0, 65535⟩,
  ⟨0x3103, 16, 8, 0x01, "SECTOR_0", .u16, .rw, .frame, .workshop, false, 30727, 0, 65535⟩,
  ⟨0x3103, 16, 8, 0x02, "SECTOR_1", .u16, .rw, .frame, .workshop, false, 30727, 0, 65535⟩,
  ⟨0x3103, 16, 8, 0x03, "SECTOR_2", .u16, .rw, .frame, .workshop, false, 30727, 0, 65535⟩]

/-- Page 0x3, part 1. -/
def Od.p3_1 : List OdRow := [
  ⟨0x3103, 16, 8, 0x04, "SECTOR_3", .u16, .rw, .frame, .workshop, false, 30727, 0, 65535⟩,
  ⟨0x3103, 16, 8, 0x05, "SECTOR_4", .u16, .rw, .frame, .workshop, false, 30727, 0, 65535⟩,
  ⟨0x3103, 16, 8, 0x06, "SECTOR_5", .u16, .rw, .frame, .workshop, false, 30727, 0, 65535⟩,
  ⟨0x3103, 16, 8, 0x07, "SECTOR_6", .u16, .rw, .frame, .workshop, false, 30727, 0, 65535⟩,
  ⟨0x3103, 16, 8, 0x08, "SECTOR_7", .u16, .rw, .frame, .workshop, false, 30727, 0, 65535⟩,
  ⟨0x3103, 16, 8, 0x09, "SECTOR_8", .u16, .rw, .frame, .workshop, false, 30727, 0, 65535⟩,
  ⟨0x3103, 16, 8, 0x0A, "SECTOR_9", .u16, .rw, .frame, .workshop, false, 30727, 0, 65535⟩,
  ⟨0x3103, 16, 8, 0x0B, "SECTOR_10", .u16, .rw, .frame, .workshop, false, 30727, 0, 65535⟩,
  ⟨0x3103, 16, 8, 0x0C, "SECTOR_11", .u16, .rw, .frame, .workshop, false, 30727, 0, 65535⟩,
  ⟨0x3103, 16, 8, 0x0D, "SECTOR_12", .u16, .rw, .frame, .workshop, false, 30727, 0, 65535⟩,
  ⟨0x3103, 16, 8, 0x0E, "SECTOR_13", .u16, .rw, .frame, .workshop, false, 30727, 0, 65535⟩,
  ⟨0x3103, 16, 8, 0x0F, "SECTOR_14", .u16, .rw, .frame, .workshop, false, 30727, 0, 65535⟩,
  ⟨0x3103, 16, 8, 0x10, "SECTOR_15", .u16, .rw, .frame, .workshop, false, 30727, 0, 65535⟩,
  ⟨0x3104, 16, 8, 0x01, "PACKETS", .u64, .ro, .none, .open, false, 0, 0, 18446744073709551615⟩,
  ⟨0x3104, 16, 8, 0x02, "POINTS_EMITTED", .u64, .ro, .none, .open, false, 0, 0, 18446744073709551615⟩,
  ⟨0x3104, 16, 8, 0x03, "REJECT_0", .u32, .ro, .none, .open, false, 0, 0, 4294967295⟩,
  ⟨0x3104, 16, 8, 0x04, "REJECT_1", .u32, .ro, .none, .open, false, 0, 0, 4294967295⟩,
  ⟨0x3104, 16, 8, 0x05, "REJECT_2", .u32, .ro, .none, .open, false, 0, 0, 4294967295⟩,
  ⟨0x3104, 16, 8, 0x06, "REJECT_3", .u32, .ro, .none, .open, false, 0, 0, 4294967295⟩,
  ⟨0x3104, 16, 8, 0x07, "REJECT_4", .u32, .ro, .none, .open, false, 0, 0, 4294967295⟩,
  ⟨0x3104, 16, 8, 0x08, "REJECT_5", .u32, .ro, .none, .open, false, 0, 0, 4294967295⟩,
  ⟨0x3104, 16, 8, 0x09, "REJECT_6", .u32, .ro, .none, .open, false, 0, 0, 4294967295⟩,
  ⟨0x3104, 16, 8, 0x0A, "REJECT_7", .u32, .ro, .none, .open, false, 0, 0, 4294967295⟩,
  ⟨0x3104, 16, 8, 0x0B, "QUEUE_DROPS", .u32, .ro, .none, .open, false, 0, 0, 4294967295⟩,
  ⟨0x3104, 16, 8, 0x0C, "UNIDENTIFIED", .u32, .ro, .none, .open, false, 0, 0, 4294967295⟩,
  ⟨0x3104, 16, 8, 0x0D, "QUARANTINED", .u32, .ro, .none, .open, false, 0, 0, 4294967295⟩,
  ⟨0x3104, 16, 8, 0x0E, "PARSER_FAULTS", .u32, .ro, .none, .open, false, 0, 0, 4294967295⟩,
  ⟨0x3F00, 0, 1, 0x01, "FRAME_NO", .u32, .ro, .none, .open, false, 0, 0, 4294967295⟩,
  ⟨0x3F00, 0, 1, 0x02, "IN", .u32, .ro, .none, .open, false, 0, 0, 4294967295⟩,
  ⟨0x3F00, 0, 1, 0x03, "INSERTED", .u32, .ro, .none, .open, false, 0, 0, 4294967295⟩,
  ⟨0x3F00, 0, 1, 0x04, "WITHDRAWN", .u32, .ro, .none, .open, false, 0, 0, 4294967295⟩,
  ⟨0x3F00, 0, 1, 0x05, "UNRESOLVED", .u32, .ro, .none, .open, false, 0, 0, 4294967295⟩,
  ⟨0x3F00, 0, 1, 0x06, "UNLOGGED", .u32, .ro, .none, .open, false, 0, 0, 4294967295⟩,
  ⟨0x3F00, 0, 1, 0x07, "BUDGET", .u32, .ro, .none, .open, false, 0, 0, 4294967295⟩,
  ⟨0x3F00, 0, 1, 0x08, "CELL_FULL", .u32, .ro, .none, .open, false, 0, 0, 4294967295⟩,
  ⟨0x3F00, 0, 1, 0x09, "LATE", .u32, .ro, .none, .open, false, 0, 0, 4294967295⟩,
  ⟨0x3F00, 0, 1, 0x0A, "DEGRADED_CAUSES", .u16, .ro, .none, .open, false, 0, 0, 65535⟩,
  ⟨0x3F00, 0, 1, 0x0B, "POSE_DISCARDED", .u32, .ro, .none, .open, false, 0, 0, 4294967295⟩,
  ⟨0x3F00, 0, 1, 0x0C, "PREF", (.octets 28), .ro, .none, .open, false, 0, 0, 0⟩,
  ⟨0x3F00, 0, 1, 0x0D, "FUTURE", .u32, .ro, .none, .open, false, 0, 0, 4294967295⟩]

/-- Page 0x3. -/
def Od.p3 : List OdRow := Od.p3_0 ++ Od.p3_1

/-- Page 0x4, part 0. -/
def Od.p4_0 : List OdRow := [
  ⟨0x4010, 1, 4, 0x01, "ENABLE", .bool, .rw, .restart, .workshop, true, 0, 0, 1⟩,
  ⟨0x4010, 1, 4, 0x02, "SIZE_EXP", .u8, .rw, .restart, .workshop, true, 1, 0, 5⟩,
  ⟨0x4010, 1, 4, 0x03, "X_MIN", .i16, .rw, .restart, .workshop, true, (-500), (-32768), 32767⟩,
  ⟨0x4010, 1, 4, 0x04, "X_MAX", .i16, .rw, .restart, .workshop, true, 2499, (-32768), 32767⟩,
  ⟨0x4010, 1, 4, 0x05, "Y_MIN", .i16, .rw, .restart, .workshop, true, (-500), (-32768), 32767⟩,
  ⟨0x4010, 1, 4, 0x06, "Y_MAX", .i16, .rw, .restart, .workshop, true, 499, (-32768), 32767⟩,
  ⟨0x4010, 1, 4, 0x07, "Z_MIN", .i16, .rw, .restart, .workshop, true, (-30), (-512), 511⟩,
  ⟨0x4010, 1, 4, 0x08, "Z_MAX", .i16, .rw, .restart, .workshop, true, 39, (-512), 511⟩,
  ⟨0x4010, 1, 4, 0x09, "BEV_ENABLE", .bool, .rw, .restart, .workshop, true, 0, 0, 1⟩,
  ⟨0x4020, 0, 1, 0x01, "MAP_SIZE_EXP", .u8, .rw, .restart, .workshop, true, 2, 0, 5⟩,
  ⟨0x4020, 0, 1, 0x02, "MAP_X0", .i16, .rw, .restart, .workshop, true, (-250), (-32768), 32767⟩,
  ⟨0x4020, 0, 1, 0x03, "MAP_ROWS", .u16, .rw, .restart, .workshop, true, 1500, 0, 65535⟩,
  ⟨0x4020, 0, 1, 0x04, "MAP_Y0", .i16, .rw, .restart, .workshop, true, (-250), (-32768), 32767⟩,
  ⟨0x4020, 0, 1, 0x05, "MAP_COLS", .u16, .rw, .restart, .workshop, true, 500, 0, 65535⟩,
  ⟨0x4000, 0, 1, 0x01, "HASH_FUNCTION", .u8, .rw, .restart, .vendor, true, 0, 0, 1⟩,
  ⟨0x4000, 0, 1, 0x02, "HASH_SEED", .u64, .rw, .restart, .vendor, true, 0, 0, 18446744073709551615⟩,
  ⟨0x4000, 0, 1, 0x03, "HASH_MULT", .u64, .rw, .restart, .vendor, true, 11400714819323198485, 0, 18446744073709551615⟩,
  ⟨0x4000, 0, 1, 0x04, "HISTORY", .u8, .rw, .restart, .workshop, true, 3, 0, 3⟩,
  ⟨0x4000, 0, 1, 0x05, "STASH_WARN", .u16, .rw, .now, .workshop, false, 3072, 0, 65535⟩,
  ⟨0x4000, 0, 1, 0x06, "SNAPSHOT_ENABLE", .bool, .rw, .restart, .workshop, true, 0, 0, 1⟩,
  ⟨0x4F00, 0, 1, 0x01, "FRAME_NO", .u32, .ro, .none, .open, false, 0, 0, 4294967295⟩,
  ⟨0x4F00, 0, 1, 0x02, "LIVE", .u32, .ro, .none, .open, false, 0, 0, 4294967295⟩,
  ⟨0x4F00, 0, 1, 0x03, "CREATED", .u32, .ro, .none, .open, false, 0, 0, 4294967295⟩,
  ⟨0x4F00, 0, 1, 0x04, "AGGREGATED", .u32, .ro, .none, .open, false, 0, 0, 4294967295⟩,
  ⟨0x4F00, 0, 1, 0x05, "FREED", .u32, .ro, .none, .open, false, 0, 0, 4294967295⟩,
  ⟨0x4F00, 0, 1, 0x06, "STASH_PEAK", .u16, .ro, .none, .open, false, 0, 0, 65535⟩,
  ⟨0x4F00, 0, 1, 0x07, "REFUSED_BUCKET", .u32, .ro, .none, .open, false, 0, 0, 4294967295⟩,
  ⟨0x4F00, 0, 1, 0x08, "REFUSED_LIMIT", .u32, .ro, .none, .open, false, 0, 0, 4294967295⟩,
  ⟨0x4F00, 0, 1, 0x09, "OUTSIDE", .u32, .ro, .none, .open, false, 0, 0, 4294967295⟩,
  ⟨0x4F00, 0, 1, 0x0A, "SATURATED", .u32, .ro, .none, .open, false, 0, 0, 4294967295⟩,
  ⟨0x4F00, 0, 1, 0x0B, "AGED", .u32, .ro, .none, .open, false, 0, 0, 4294967295⟩,
  ⟨0x4F00, 0, 1, 0x0C, "AGED_OUT", .u32, .ro, .none, .open, false, 0, 0, 4294967295⟩,
  ⟨0x4F00, 0, 1, 0x0D, "AGE_MERGED", .u32, .ro, .none, .open, false, 0, 0, 4294967295⟩,
  ⟨0x4F00, 0, 1, 0x0E, "AGE_DROPPED", .u32, .ro, .none, .open, false, 0, 0, 4294967295⟩,
  ⟨0x4F00, 0, 1, 0x0F, "AGE_INCOMPLETE", .u32, .ro, .none, .open, false, 0, 0, 4294967295⟩,
  ⟨0x4F00, 0, 1, 0x10, "CELL_DEGRADED", .u16, .ro, .none, .open, false, 0, 0, 65535⟩,
  ⟨0x4F01, 0, 1, 0x01, "LIVE_G0", .u32, .ro, .none, .open, false, 0, 0, 4294967295⟩,
  ⟨0x4F01, 0, 1, 0x02, "LIVE_G1", .u32, .ro, .none, .open, false, 0, 0, 4294967295⟩,
  ⟨0x4F01, 0, 1, 0x03, "LIVE_G2", .u32, .ro, .none, .open, false, 0, 0, 4294967295⟩,
  ⟨0x4F01, 0, 1, 0x04, "LIVE_G3", .u32, .ro, .none, .open, false, 0, 0, 4294967295⟩]

/-- Page 0x4, part 1. -/
def Od.p4_1 : List OdRow := [
  ⟨0x4F10, 0, 1, 0x01, "SNAP_REQUEST", .u8, .wo, .now, .workshop, false, 0, 1, 1⟩,
  ⟨0x4F10, 0, 1, 0x02, "SNAP_FRAME", .u32, .ro, .none, .workshop, false, 0, 0, 4294967295⟩,
  ⟨0x4F10, 0, 1, 0x03, "SNAP_ROWS", .blob, .ro, .none, .workshop, false, 0, 0, 0⟩]

/-- Page 0x4. -/
def Od.p4 : List OdRow := Od.p4_0 ++ Od.p4_1

/-- Page 0x5, part 0. -/
def Od.p5_0 : List OdRow := [
  ⟨0x5000, 0, 1, 0x01, "LARKSPUR_ENABLE", .bool, .rw, .frame, .workshop, false, 1, 0, 1⟩,
  ⟨0x5001, 0, 1, 0x00, "RULEBOOK_PLAN", .blob, .ro, .none, .open, false, 0, 0, 0⟩,
  ⟨0x5F00, 0, 1, 0x01, "FRAME_NO", .u32, .ro, .none, .open, false, 0, 0, 4294967295⟩,
  ⟨0x5F00, 0, 1, 0x02, "FIRST_RES_CYCLES", .u32, .ro, .none, .open, false, 0, 0, 4294967295⟩,
  ⟨0x5F00, 0, 1, 0x03, "PROBES", .u32, .ro, .none, .open, false, 0, 0, 4294967295⟩,
  ⟨0x5F00, 0, 1, 0x04, "PROBE_CYCLES", .u32, .ro, .none, .open, false, 0, 0, 4294967295⟩,
  ⟨0x5F00, 0, 1, 0x05, "ROWS_EXPORTED", .u32, .ro, .none, .open, false, 0, 0, 4294967295⟩,
  ⟨0x5F00, 0, 1, 0x06, "ENTRIES_EMITTED", .u32, .ro, .none, .open, false, 0, 0, 4294967295⟩,
  ⟨0x5F00, 0, 1, 0x07, "SPEC_BUILT", .u32, .ro, .none, .open, false, 0, 0, 4294967295⟩,
  ⟨0x5F00, 0, 1, 0x08, "SPEC_RELEASED", .u32, .ro, .none, .open, false, 0, 0, 4294967295⟩,
  ⟨0x5F00, 0, 1, 0x09, "SPEC_SQUASHED", .u32, .ro, .none, .open, false, 0, 0, 4294967295⟩,
  ⟨0x5F00, 0, 1, 0x0A, "EPOCH_SQUASHES", .u16, .ro, .none, .open, false, 0, 0, 65535⟩,
  ⟨0x5F00, 0, 1, 0x0B, "MISSED_CELLS", .u32, .ro, .none, .open, false, 0, 0, 4294967295⟩,
  ⟨0x5F00, 0, 1, 0x0C, "MISSED_ENTRIES", .u32, .ro, .none, .open, false, 0, 0, 4294967295⟩,
  ⟨0x5F00, 0, 1, 0x0D, "REPAIRED_CELLS", .u32, .ro, .none, .open, false, 0, 0, 4294967295⟩,
  ⟨0x5F00, 0, 1, 0x0E, "SET_FULL", .u32, .ro, .none, .open, false, 0, 0, 4294967295⟩,
  ⟨0x5F00, 0, 1, 0x0F, "SPEC_OVERFLOW", .u16, .ro, .none, .open, false, 0, 0, 65535⟩,
  ⟨0x5F00, 0, 1, 0x10, "RB_DEGRADED", .u16, .ro, .none, .open, false, 0, 0, 65535⟩,
  ⟨0x5F00, 0, 1, 0x11, "PREDICTOR_FALLBACKS", .u16, .ro, .none, .open, false, 0, 0, 65535⟩,
  ⟨0x5F00, 0, 1, 0x12, "REPORTS_DISCARDED", .u16, .ro, .none, .open, false, 0, 0, 65535⟩,
  ⟨0x5F00, 0, 1, 0x13, "EXPORT_LOST", .u32, .ro, .none, .open, false, 0, 0, 4294967295⟩,
  ⟨0x5F01, 0, 1, 0x00, "PER_RULEBOOK", .blob, .ro, .none, .open, false, 0, 0, 0⟩]

/-- Page 0x5. -/
def Od.p5 : List OdRow := Od.p5_0

/-- Page 0x6, part 0. -/
def Od.p6_0 : List OdRow := [
  ⟨0x6000, 0, 1, 0x01, "CHECK_TOL_EXP", .u8, .rw, .frame, .vendor, false, 16, 8, 22⟩,
  ⟨0x6002, 0, 1, 0x01, "REPAIR_CLEAR", .u8, .wo, .restart, .vendor, true, 0, 1, 1⟩,
  ⟨0x6100, 16, 16, 0x01, "CORE_STATE", .u8, .ro, .none, .open, false, 0, 0, 255⟩,
  ⟨0x6100, 16, 16, 0x02, "RETIRED_TILES", .u16, .ro, .none, .open, true, 0, 0, 65535⟩,
  ⟨0x6100, 16, 16, 0x03, "REPAIRED_TILES", .u16, .ro, .none, .open, true, 0, 0, 65535⟩,
  ⟨0x6100, 16, 16, 0x04, "FOLD_FACTOR", .u8, .ro, .none, .open, false, 16, 0, 255⟩,
  ⟨0x6100, 16, 16, 0x05, "CHECK_MISMATCH", .u32, .ro, .none, .open, false, 0, 0, 4294967295⟩,
  ⟨0x6100, 16, 16, 0x06, "REPLAY_FAILED", .u32, .ro, .none, .open, false, 0, 0, 4294967295⟩,
  ⟨0x6100, 16, 16, 0x07, "CHECK_SKIPPED", .u32, .ro, .none, .open, false, 0, 0, 4294967295⟩,
  ⟨0x6100, 16, 16, 0x08, "BULK_CHECK_FAILED", .u32, .ro, .none, .open, false, 0, 0, 4294967295⟩,
  ⟨0x6100, 16, 16, 0x09, "SATURATED", .u32, .ro, .none, .open, false, 0, 0, 4294967295⟩,
  ⟨0x6100, 16, 16, 0x0A, "NAN_RESULTS", .u32, .ro, .none, .open, false, 0, 0, 4294967295⟩,
  ⟨0x6100, 16, 16, 0x0B, "GATED_SHARE", .u16, .ro, .none, .open, false, 0, 0, 65535⟩,
  ⟨0x6100, 16, 16, 0x0C, "MODE_REFUSED", .u32, .ro, .none, .open, false, 0, 0, 4294967295⟩,
  ⟨0x6100, 16, 16, 0x0D, "FP_FLUSHED", .u32, .ro, .none, .open, false, 0, 0, 4294967295⟩,
  ⟨0x6101, 16, 16, 0x01, "TILE_0", .u16, .ro, .none, .open, true, 16191, 0, 65535⟩,
  ⟨0x6101, 16, 16, 0x02, "TILE_1", .u16, .ro, .none, .open, true, 16191, 0, 65535⟩,
  ⟨0x6101, 16, 16, 0x03, "TILE_2", .u16, .ro, .none, .open, true, 16191, 0, 65535⟩,
  ⟨0x6101, 16, 16, 0x04, "TILE_3", .u16, .ro, .none, .open, true, 16191, 0, 65535⟩,
  ⟨0x6101, 16, 16, 0x05, "TILE_4", .u16, .ro, .none, .open, true, 16191, 0, 65535⟩,
  ⟨0x6101, 16, 16, 0x06, "TILE_5", .u16, .ro, .none, .open, true, 16191, 0, 65535⟩,
  ⟨0x6101, 16, 16, 0x07, "TILE_6", .u16, .ro, .none, .open, true, 16191, 0, 65535⟩,
  ⟨0x6101, 16, 16, 0x08, "TILE_7", .u16, .ro, .none, .open, true, 16191, 0, 65535⟩,
  ⟨0x6101, 16, 16, 0x09, "TILE_8", .u16, .ro, .none, .open, true, 16191, 0, 65535⟩,
  ⟨0x6101, 16, 16, 0x0A, "TILE_9", .u16, .ro, .none, .open, true, 16191, 0, 65535⟩,
  ⟨0x6101, 16, 16, 0x0B, "TILE_10", .u16, .ro, .none, .open, true, 16191, 0, 65535⟩,
  ⟨0x6101, 16, 16, 0x0C, "TILE_11", .u16, .ro, .none, .open, true, 16191, 0, 65535⟩,
  ⟨0x6101, 16, 16, 0x0D, "TILE_12", .u16, .ro, .none, .open, true, 16191, 0, 65535⟩,
  ⟨0x6101, 16, 16, 0x0E, "TILE_13", .u16, .ro, .none, .open, true, 16191, 0, 65535⟩,
  ⟨0x6101, 16, 16, 0x0F, "TILE_14", .u16, .ro, .none, .open, true, 16191, 0, 65535⟩,
  ⟨0x6101, 16, 16, 0x10, "TILE_15", .u16, .ro, .none, .open, true, 16191, 0, 65535⟩,
  ⟨0x6102, 16, 16, 0x01, "LAST_EXC_CODE", .u8, .ro, .none, .open, false, 0, 0, 255⟩,
  ⟨0x6102, 16, 16, 0x02, "LAST_EXC_PC", .u32, .ro, .none, .open, false, 0, 0, 4294967295⟩,
  ⟨0x6102, 16, 16, 0x03, "LAST_EXC_TASK", .u8, .ro, .none, .open, false, 0, 0, 255⟩,
  ⟨0x6102, 16, 16, 0x04, "LAST_EXC_DETAIL", .u32, .ro, .none, .open, false, 0, 0, 4294967295⟩,
  ⟨0x6102, 16, 16, 0x05, "SEGMENT_FAILS", .u32, .ro, .none, .open, false, 0, 0, 4294967295⟩,
  ⟨0x6102, 16, 16, 0x06, "INDEX_SKIPPED", .u32, .ro, .none, .open, false, 0, 0, 4294967295⟩,
  ⟨0x6102, 16, 16, 0x07, "PREEMPTIONS", .u32, .ro, .none, .open, false, 0, 0, 4294967295⟩,
  ⟨0x6102, 16, 16, 0x08, "EXCEPTIONS", .u32, .ro, .none, .open, false, 0, 0, 4294967295⟩,
  ⟨0x6102, 16, 16, 0x09, "MERGED_ROWS", .u64, .ro, .none, .open, false, 0, 0, 18446744073709551615⟩]

/-- Page 0x6, part 1. -/
def Od.p6_1 : List OdRow := [
  ⟨0x6103, 16, 16, 0x01, "NAN_INPUTS", .u64, .ro, .none, .open, false, 0, 0, 18446744073709551615⟩,
  ⟨0x6103, 16, 16, 0x02, "LAST_NAN", .u32, .ro, .none, .open, false, 0, 0, 4294967295⟩,
  ⟨0x6103, 16, 16, 0x03, "TIE_OVERFLOW_LISTS", .u32, .ro, .none, .open, false, 0, 0, 4294967295⟩,
  ⟨0x6103, 16, 16, 0x04, "DUPLICATES", .u32, .ro, .none, .open, false, 0, 0, 4294967295⟩,
  ⟨0x6103, 16, 16, 0x05, "CONSISTENCY", .u32, .ro, .none, .open, false, 0, 0, 4294967295⟩,
  ⟨0x6103, 16, 16, 0x06, "SHORT_LISTS", .u32, .ro, .none, .open, false, 0, 0, 4294967295⟩,
  ⟨0x6103, 16, 16, 0x07, "P0_ROW_LIMIT", .u32, .ro, .none, .open, false, 0, 0, 4294967295⟩,
  ⟨0x6103, 16, 16, 0x08, "NAN_COLUMNS", .u32, .ro, .none, .open, false, 0, 0, 4294967295⟩]

/-- Page 0x6. -/
def Od.p6 : List OdRow := Od.p6_0 ++ Od.p6_1

/-- Page 0x7, part 0. -/
def Od.p7_0 : List OdRow := [
  ⟨0x7000, 0, 1, 0x01, "MARCH_BACKGROUNDS", .u8, .rw, .restart, .vendor, true, 2, 1, 2⟩,
  ⟨0x7000, 0, 1, 0x02, "MARCH_REQUEST", .u16, .wo, .now, .workshop, false, 0, 0, 65535⟩,
  ⟨0x7000, 0, 1, 0x03, "CE_ROW_LIMIT", .u8, .rw, .now, .workshop, false, 4, 1, 255⟩,
  ⟨0x7000, 0, 1, 0x04, "REPAIR_CLEAR", .u8, .wo, .restart, .vendor, true, 0, 1, 1⟩,
  ⟨0x7000, 0, 1, 0x05, "MARCH_STATUS", .u16, .ro, .none, .open, false, 0, 0, 65535⟩,
  ⟨0x7100, 16, 16, 0x01, "CORRECTED", .u64, .ro, .none, .open, false, 0, 0, 18446744073709551615⟩,
  ⟨0x7100, 16, 16, 0x02, "UNCORRECTABLE", .u32, .ro, .none, .open, false, 0, 0, 4294967295⟩,
  ⟨0x7100, 16, 16, 0x03, "UE_LINE", .u32, .ro, .none, .open, false, 0, 0, 4294967295⟩,
  ⟨0x7100, 16, 16, 0x04, "SCRUB_PASSES", .u32, .ro, .none, .open, false, 0, 0, 4294967295⟩,
  ⟨0x7100, 16, 16, 0x05, "SCRUB_LATE", .u32, .ro, .none, .open, false, 0, 0, 4294967295⟩,
  ⟨0x7100, 16, 16, 0x06, "STALE_DROPPED", .u32, .ro, .none, .open, false, 0, 0, 4294967295⟩,
  ⟨0x7100, 16, 16, 0x07, "STALE_NACKED", .u32, .ro, .none, .open, false, 0, 0, 4294967295⟩,
  ⟨0x7100, 16, 16, 0x08, "REMOTE_REFUSED", .u32, .ro, .none, .open, false, 0, 0, 4294967295⟩,
  ⟨0x7100, 16, 16, 0x09, "QUAD_CONFLICTS", .u32, .ro, .none, .open, false, 0, 0, 4294967295⟩,
  ⟨0x7100, 16, 16, 0x0A, "SLOT_TAG_FAULTS", .u32, .ro, .none, .open, false, 0, 0, 4294967295⟩,
  ⟨0x7100, 16, 16, 0x0B, "WOPEN_REFUSED", .u32, .ro, .none, .open, false, 0, 0, 4294967295⟩,
  ⟨0x7100, 16, 16, 0x0C, "COUNTER_SATURATED", .u32, .ro, .none, .open, false, 0, 0, 4294967295⟩,
  ⟨0x7100, 16, 16, 0x0D, "INT_ADD_WRAPS", .u32, .ro, .none, .open, false, 0, 0, 4294967295⟩,
  ⟨0x7100, 16, 16, 0x0E, "FREE_GRANULES", .u16, .ro, .none, .open, false, 1536, 0, 65535⟩,
  ⟨0x7100, 16, 16, 0x0F, "RETIRED_QUADS", .u32, .ro, .none, .open, true, 0, 0, 4294967295⟩,
  ⟨0x7100, 16, 16, 0x10, "SPARE_ROWS_USED", .u16, .ro, .none, .open, true, 0, 0, 65535⟩,
  ⟨0x7100, 16, 16, 0x11, "WAIT_INDEX", .u64, .ro, .none, .open, false, 0, 0, 18446744073709551615⟩,
  ⟨0x7100, 16, 16, 0x12, "WAIT_REMOTE", .u64, .ro, .none, .open, false, 0, 0, 18446744073709551615⟩,
  ⟨0x7100, 16, 16, 0x13, "WAIT_DMA", .u64, .ro, .none, .open, false, 0, 0, 18446744073709551615⟩,
  ⟨0x7100, 16, 16, 0x14, "WAIT_SEQ", .u64, .ro, .none, .open, false, 0, 0, 18446744073709551615⟩,
  ⟨0x7101, 16, 16, 0x00, "WINDOW_TABLE", .blob, .ro, .none, .workshop, false, 0, 0, 0⟩,
  ⟨0x7102, 16, 16, 0x00, "REPAIR_MAP", .blob, .ro, .none, .open, true, 0, 0, 0⟩,
  ⟨0x7800, 0, 1, 0x01, "USABLE_CONTROLLERS", .u8, .ro, .none, .open, false, 255, 0, 255⟩,
  ⟨0x7800, 0, 1, 0x02, "CAPACITY", .u64, .ro, .none, .open, false, 60129542144, 0, 18446744073709551615⟩,
  ⟨0x7800, 0, 1, 0x03, "FAILED_CONTROLLERS", .u8, .ro, .none, .open, true, 0, 0, 255⟩,
  ⟨0x7800, 0, 1, 0x04, "FAILURE_CLEAR", .u8, .wo, .restart, .workshop, true, 0, 1, 1⟩,
  ⟨0x7800, 0, 1, 0x05, "UE_LIMIT", .u16, .rw, .now, .workshop, false, 16, 1, 1000⟩,
  ⟨0x7800, 0, 1, 0x06, "SCRUB_PERIOD", .u16, .rw, .now, .workshop, false, 4, 1, 168⟩,
  ⟨0x7810, 1, 8, 0x01, "REGION_BASE", .u16, .rw, .restart, .workshop, true, 0, 32, 65535⟩,
  ⟨0x7810, 1, 8, 0x02, "REGION_SIZE", .u16, .rw, .restart, .workshop, true, 0, 0, 65535⟩,
  ⟨0x7810, 1, 8, 0x03, "BW_SHARE", .u8, .rw, .restart, .workshop, true, 0, 0, 255⟩,
  ⟨0x7880, 1, 8, 0x01, "CORRECTED", .u64, .ro, .none, .open, false, 0, 0, 18446744073709551615⟩,
  ⟨0x7880, 1, 8, 0x02, "UNCORRECTABLE", .u32, .ro, .none, .open, false, 0, 0, 4294967295⟩,
  ⟨0x7880, 1, 8, 0x03, "LAST_UE_DA", .u64, .ro, .none, .open, false, 0, 0, 18446744073709551615⟩,
  ⟨0x7880, 1, 8, 0x04, "CTRL_STATE", .u8, .ro, .none, .open, false, 0, 0, 255⟩]

/-- Page 0x7, part 1. -/
def Od.p7_1 : List OdRow := [
  ⟨0x7880, 1, 8, 0x05, "DISCARDED_WRITES", .u32, .ro, .none, .open, false, 0, 0, 4294967295⟩,
  ⟨0x7890, 0, 1, 0x01, "HYPERRAM_STATE", .u8, .ro, .none, .open, true, 0, 0, 255⟩,
  ⟨0x7890, 0, 1, 0x02, "HYPERRAM_CORRECTED", .u32, .ro, .none, .open, false, 0, 0, 4294967295⟩,
  ⟨0x7890, 0, 1, 0x03, "HYPERRAM_UNCORRECTABLE", .u32, .ro, .none, .open, false, 0, 0, 4294967295⟩,
  ⟨0x7900, 0, 1, 0x01, "DIRECTORY_SEQ", .u32, .ro, .none, .open, false, 0, 0, 4294967295⟩,
  ⟨0x7900, 0, 1, 0x02, "HEAP_FREE", .u32, .ro, .none, .open, false, 0, 0, 4294967295⟩,
  ⟨0x7900, 0, 1, 0x03, "ERASE_MAX", .u32, .ro, .none, .open, false, 0, 0, 4294967295⟩,
  ⟨0x7900, 0, 1, 0x04, "RETIRED_BLOCKS", .u16, .ro, .none, .open, false, 0, 0, 65535⟩,
  ⟨0x7900, 0, 1, 0x05, "LOG_LOST", .u32, .ro, .none, .open, false, 0, 0, 4294967295⟩]

/-- Page 0x7. -/
def Od.p7 : List OdRow := Od.p7_0 ++ Od.p7_1

/-- Page 0x8, part 0. -/
def Od.p8_0 : List OdRow := [
  ⟨0x8000, 0, 1, 0x01, "POLL_INTERVAL", .u16, .rw, .now, .vendor, false, 128, 16, 4096⟩,
  ⟨0x8000, 0, 1, 0x02, "SLOTS_FREE", .u32, .ro, .none, .open, false, 524288, 0, 4294967295⟩,
  ⟨0x8000, 0, 1, 0x03, "ALLOW_LIVE_UPDATE", .bool, .rw, .restart, .vendor, true, 0, 0, 1⟩,
  ⟨0x8100, 16, 16, 0x01, "DESCRIPTOR", (.octets 64), .rw, .restart, .workshop, true, 0, 0, 0⟩,
  ⟨0x8100, 16, 16, 0x02, "TABLE_STATE", .u8, .ro, .none, .open, false, 0, 0, 255⟩,
  ⟨0x8100, 16, 16, 0x03, "COMMAND", .u8, .wo, .now, .workshop, false, 0, 0, 255⟩,
  ⟨0x8100, 16, 16, 0x04, "SWITCH", .u8, .wo, .frame, .workshop, false, 0, 0, 255⟩,
  ⟨0x8100, 16, 16, 0x05, "DROPPED_INVALID", .u32, .ro, .none, .open, false, 0, 0, 4294967295⟩,
  ⟨0x8100, 16, 16, 0x06, "DROPPED_ABSENT", .u32, .ro, .none, .open, false, 0, 0, 4294967295⟩,
  ⟨0x8100, 16, 16, 0x07, "DROPPED_POOL_FULL", .u32, .ro, .none, .open, false, 0, 0, 4294967295⟩,
  ⟨0x8100, 16, 16, 0x08, "SHADOW_DIGEST", (.octets 32), .ro, .none, .workshop, false, 0, 0, 0⟩,
  ⟨0x8100, 16, 16, 0x09, "VALIDATION", .blob, .wo, .now, .workshop, false, 0, 0, 0⟩,
  ⟨0x8100, 16, 16, 0x0A, "GRAD_DROPPED", .u32, .ro, .none, .open, false, 0, 0, 4294967295⟩,
  ⟨0x8100, 16, 16, 0x0B, "FILLS", .u64, .ro, .none, .open, false, 0, 0, 18446744073709551615⟩,
  ⟨0x8100, 16, 16, 0x0C, "ZERO_SCALE", .u32, .ro, .none, .open, false, 0, 0, 4294967295⟩,
  ⟨0x8100, 16, 16, 0x0D, "RECORDS", .u64, .ro, .none, .open, false, 0, 0, 18446744073709551615⟩,
  ⟨0x8100, 16, 16, 0x0E, "APPLIED_ROWS", .u64, .ro, .none, .open, false, 0, 0, 18446744073709551615⟩,
  ⟨0x8101, 16, 16, 0x01, "VERSION_0", (.octets 64), .ro, .none, .open, false, 0, 0, 0⟩,
  ⟨0x8101, 16, 16, 0x02, "VERSION_1", (.octets 64), .ro, .none, .open, false, 0, 0, 0⟩,
  ⟨0x8101, 16, 16, 0x03, "VERSION_2", (.octets 64), .ro, .none, .open, false, 0, 0, 0⟩,
  ⟨0x8F00, 0, 1, 0x01, "FRAME_NO", .u32, .ro, .none, .open, false, 0, 0, 4294967295⟩,
  ⟨0x8F00, 0, 1, 0x02, "FRAME_FILLS", .u32, .ro, .none, .open, false, 0, 0, 4294967295⟩,
  ⟨0x8F00, 0, 1, 0x03, "FRAME_DROPS", .u32, .ro, .none, .open, false, 0, 0, 4294967295⟩,
  ⟨0x8F00, 0, 1, 0x04, "REFUSED_REQUESTS", .u32, .ro, .none, .open, false, 0, 0, 4294967295⟩,
  ⟨0x8F00, 0, 1, 0x0A, "PEONY_DEGRADED", .u16, .ro, .none, .open, false, 0, 0, 65535⟩]

/-- Page 0x8. -/
def Od.p8 : List OdRow := Od.p8_0

/-- Page 0x9, part 0. -/
def Od.p9_0 : List OdRow := [
  ⟨0x9000, 0, 1, 0x01, "SCHEDULE_ID", .u32, .ro, .none, .open, false, 0, 0, 4294967295⟩,
  ⟨0x9000, 0, 1, 0x02, "PLAN", .u8, .ro, .none, .open, false, 0, 0, 255⟩,
  ⟨0x9000, 0, 1, 0x03, "CORE_MAP", .u64, .ro, .none, .open, false, 18364758544493064720, 0, 18446744073709551615⟩,
  ⟨0x9000, 0, 1, 0x04, "FRAME_PERIOD", .u32, .ro, .none, .open, false, 100000, 0, 4294967295⟩,
  ⟨0x9000, 0, 1, 0x05, "PHASE", .u32, .ro, .none, .open, false, 0, 0, 4294967295⟩,
  ⟨0x9000, 0, 1, 0x06, "LAUNCH_OFFSET", .u32, .ro, .none, .open, false, 18000, 0, 4294967295⟩,
  ⟨0x9000, 0, 1, 0x07, "PREEMPT_LIMIT", .u32, .rw, .now, .vendor, false, 24576, 8192, 65536⟩,
  ⟨0x9000, 0, 1, 0x08, "THROTTLE_LEVEL", .u8, .ro, .none, .open, false, 0, 0, 255⟩,
  ⟨0x9000, 0, 1, 0x09, "THROTTLE_GUARANTEE", .u8, .ro, .none, .open, false, 0, 0, 255⟩,
  ⟨0x9000, 0, 1, 0x0A, "CAPACITY_DOUBT", .bool, .ro, .none, .open, false, 0, 0, 1⟩,
  ⟨0x9000, 0, 1, 0x0B, "HOLLYHOCK_CORE", .u8, .ro, .none, .open, false, 0, 0, 255⟩,
  ⟨0x9001, 0, 1, 0x00, "SCHEDULE", .blob, .rw, .frame, .workshop, false, 0, 0, 0⟩,
  ⟨0x9010, 1, 8, 0x01, "PARTITION", (.octets 32), .ro, .none, .open, false, 0, 0, 0⟩,
  ⟨0x9100, 1, 256, 0x01, "STATE", (.octets 16), .ro, .none, .open, false, 0, 0, 0⟩,
  ⟨0x9100, 1, 256, 0x02, "OVERRUNS", .u32, .ro, .none, .open, false, 0, 0, 4294967295⟩,
  ⟨0x9100, 1, 256, 0x03, "PREEMPTIONS", .u32, .ro, .none, .open, false, 0, 0, 4294967295⟩,
  ⟨0x9100, 1, 256, 0x04, "ENDED", .u32, .ro, .none, .open, false, 0, 0, 4294967295⟩,
  ⟨0x9100, 1, 256, 0x05, "DROPPED", .u32, .ro, .none, .open, false, 0, 0, 4294967295⟩,
  ⟨0x9100, 1, 256, 0x06, "MAX_RUN", .u32, .ro, .none, .open, false, 0, 0, 4294967295⟩,
  ⟨0x9100, 1, 256, 0x07, "WINDOW_FAILS", .u32, .ro, .none, .open, false, 0, 0, 4294967295⟩,
  ⟨0x9F00, 0, 1, 0x01, "FRAME_NO", .u32, .ro, .none, .open, false, 0, 0, 4294967295⟩,
  ⟨0x9F00, 0, 1, 0x02, "FRAME_OVERRUNS", .u32, .ro, .none, .open, false, 0, 0, 4294967295⟩,
  ⟨0x9F00, 0, 1, 0x03, "INSTANCES_DROPPED", .u32, .ro, .none, .open, false, 0, 0, 4294967295⟩,
  ⟨0x9F00, 0, 1, 0x04, "DEFERRALS_NOW", .u8, .ro, .none, .open, false, 0, 0, 255⟩,
  ⟨0x9F00, 0, 1, 0x05, "TESTS_FORCED", .u32, .ro, .none, .open, false, 0, 0, 4294967295⟩,
  ⟨0x9F00, 0, 1, 0x06, "TESTS_DEFERRED", .u32, .ro, .none, .open, false, 0, 0, 4294967295⟩,
  ⟨0x9F00, 0, 1, 0x07, "TEST_DROPS", .u32, .ro, .none, .open, false, 0, 0, 4294967295⟩,
  ⟨0x9F00, 0, 1, 0x08, "SCHED_DEGRADED", .u16, .ro, .none, .open, false, 0, 0, 65535⟩,
  ⟨0x9F00, 0, 1, 0x09, "PREEMPT_LIMIT_HITS", .u32, .ro, .none, .open, false, 0, 0, 4294967295⟩,
  ⟨0x9F00, 0, 1, 0x0A, "SAVE_FULL", .u32, .ro, .none, .open, false, 0, 0, 4294967295⟩]

/-- Page 0x9. -/
def Od.p9 : List OdRow := Od.p9_0

/-- Page 0xA, part 0. -/
def Od.pA_0 : List OdRow := [
  ⟨0xA000, 0, 1, 0x01, "SAFETY_MODE", .u8, .rw, .restart, .vendor, true, 2, 0, 2⟩,
  ⟨0xA000, 0, 1, 0x02, "SAFETY_STATE", .u8, .ro, .none, .open, false, 0, 0, 255⟩,
  ⟨0xA000, 0, 1, 0x03, "FALLBACK_CAUSES", .u16, .ro, .none, .open, false, 0, 0, 65535⟩,
  ⟨0xA000, 0, 1, 0x04, "FAULT_N_ON_FALLBACK", .bool, .rw, .restart, .workshop, true, 1, 0, 1⟩,
  ⟨0xA000, 0, 1, 0x05, "FAULT_WINDOW", .u16, .rw, .frame, .workshop, false, 1000, 100, 10000⟩,
  ⟨0xA000, 0, 1, 0x06, "VERDICT_MARGIN", .u16, .rw, .restart, .vendor, true, 20, 10, 1000⟩,
  ⟨0xA000, 0, 1, 0x07, "QUARANTINED", .u16, .ro, .none, .open, false, 0, 0, 65535⟩,
  ⟨0xA000, 0, 1, 0x08, "FRT_BOUND", .u32, .ro, .none, .open, false, 20000, 0, 4294967295⟩,
  ⟨0xA000, 0, 1, 0x09, "FORCE_FALLBACK", .u8, .wo, .now, .workshop, false, 0, 1, 1⟩,
  ⟨0xA000, 0, 1, 0x0A, "SAFE_CAUSES", .u16, .ro, .none, .open, false, 0, 0, 65535⟩,
  ⟨0xA010, 0, 1, 0x01, "POS_TOL", .u16, .rw, .frame, .workshop, false, 154, 0, 65535⟩,
  ⟨0xA010, 0, 1, 0x02, "Z_TOL", .u16, .rw, .frame, .workshop, false, 205, 0, 65535⟩,
  ⟨0xA010, 0, 1, 0x03, "SIZE_TOL", .u16, .rw, .frame, .workshop, false, 205, 0, 65535⟩,
  ⟨0xA010, 0, 1, 0x04, "HEADING_TOL", .u16, .rw, .frame, .workshop, false, 546, 0, 65535⟩,
  ⟨0xA010, 0, 1, 0x05, "VEL_TOL", .u16, .rw, .frame, .workshop, false, 128, 0, 65535⟩,
  ⟨0xA010, 0, 1, 0x06, "SCORE_TOL", .u8, .rw, .frame, .workshop, false, 13, 0, 255⟩,
  ⟨0xA010, 0, 1, 0x07, "SCORE_FLOOR", .u8, .rw, .frame, .workshop, false, 77, 0, 255⟩,
  ⟨0xA010, 0, 1, 0x08, "SCORE_BAND", .u8, .rw, .frame, .workshop, false, 13, 0, 255⟩,
  ⟨0xA010, 0, 1, 0x09, "CLASS_STRICT", .bool, .rw, .frame, .workshop, false, 1, 0, 1⟩,
  ⟨0xA011, 0, 1, 0x01, "LIST_A", .u64, .rw, .restart, .workshop, true, 0, 0, 18446744073709551615⟩,
  ⟨0xA011, 0, 1, 0x02, "LIST_B", .u64, .rw, .restart, .workshop, true, 0, 0, 18446744073709551615⟩,
  ⟨0xA020, 0, 1, 0x01, "CORRIDOR_HALF_WIDTH", .u16, .rw, .frame, .workshop, false, 1792, 0, 65535⟩,
  ⟨0xA020, 0, 1, 0x02, "CORRIDOR_RANGE", .u16, .rw, .frame, .workshop, false, 120, 0, 65535⟩,
  ⟨0xA020, 0, 1, 0x03, "D_TOL_ABS", .u16, .rw, .frame, .workshop, false, 1024, 0, 65535⟩,
  ⟨0xA020, 0, 1, 0x04, "D_TOL_REL", .u16, .rw, .frame, .workshop, false, 30, 0, 65535⟩,
  ⟨0xA020, 0, 1, 0x05, "UNCONFIRMED_FAULT", .bool, .rw, .frame, .workshop, false, 0, 0, 1⟩,
  ⟨0xA020, 0, 1, 0x06, "ASSOC_TOL", .u16, .rw, .frame, .workshop, false, 2048, 0, 65535⟩,
  ⟨0xA030, 0, 1, 0x01, "PORT_A", .u8, .rw, .restart, .workshop, true, 0, 0, 7⟩,
  ⟨0xA030, 0, 1, 0x02, "PORT_B", .u8, .rw, .restart, .workshop, true, 1, 0, 7⟩,
  ⟨0xA030, 0, 1, 0x03, "GROUND_PATCH", .u8, .rw, .restart, .workshop, true, 5, 1, 16⟩,
  ⟨0xA030, 0, 1, 0x04, "H_MIN", .u16, .rw, .restart, .workshop, true, 307, 0, 65535⟩,
  ⟨0xA030, 0, 1, 0x05, "H_MAX", .u16, .rw, .restart, .workshop, true, 4608, 0, 65535⟩,
  ⟨0xA030, 0, 1, 0x06, "MIN_POINTS", .u8, .rw, .restart, .workshop, true, 3, 1, 255⟩,
  ⟨0xA030, 0, 1, 0x07, "RANGE", .u16, .rw, .restart, .workshop, true, 120, 10, 250⟩,
  ⟨0xA030, 0, 1, 0x08, "MARIGOLD_DUE", .u32, .rw, .restart, .workshop, true, 10000, 2000, 199000⟩,
  ⟨0xA030, 0, 1, 0x09, "MARIGOLD_STATE", .u8, .ro, .none, .open, false, 0, 0, 255⟩,
  ⟨0xAF00, 0, 1, 0x01, "FRAME_NO", .u32, .ro, .none, .open, false, 0, 0, 4294967295⟩,
  ⟨0xAF00, 0, 1, 0x02, "LAST_VERDICT", .u8, .ro, .none, .open, false, 0, 0, 255⟩,
  ⟨0xAF00, 0, 1, 0x03, "DISAGREEMENTS", .u32, .ro, .none, .open, false, 0, 0, 4294967295⟩,
  ⟨0xAF00, 0, 1, 0x04, "LATE_VERDICTS", .u32, .ro, .none, .open, false, 0, 0, 4294967295⟩]

/-- Page 0xA, part 1. -/
def Od.pA_1 : List OdRow := [
  ⟨0xAF00, 0, 1, 0x05, "QUARANTINES", .u16, .ro, .none, .open, false, 0, 0, 65535⟩,
  ⟨0xAF00, 0, 1, 0x06, "MARIGOLD_LATE", .u32, .ro, .none, .open, false, 0, 0, 4294967295⟩,
  ⟨0xAF00, 0, 1, 0x07, "TOLERATED", .u32, .ro, .none, .open, false, 0, 0, 4294967295⟩,
  ⟨0xAF00, 0, 1, 0x08, "TARGETED_TESTS", .u32, .ro, .none, .open, false, 0, 0, 4294967295⟩,
  ⟨0xAF00, 0, 1, 0x09, "ROTATING_TESTS", .u32, .ro, .none, .open, false, 0, 0, 4294967295⟩,
  ⟨0xAF00, 0, 1, 0x0A, "TRANSIENTS", .u32, .ro, .none, .open, false, 0, 0, 4294967295⟩,
  ⟨0xAF00, 0, 1, 0x0B, "TESTS_FAILED", .u32, .ro, .none, .open, false, 0, 0, 4294967295⟩,
  ⟨0xAF00, 0, 1, 0x0C, "SAFETY_DEGRADED", .u16, .ro, .none, .open, false, 0, 0, 65535⟩,
  ⟨0xAF00, 0, 1, 0x0D, "UNCONFIRMED", .u32, .ro, .none, .open, false, 0, 0, 4294967295⟩,
  ⟨0xAF00, 0, 1, 0x0E, "FAULT_N_READBACK", .u32, .ro, .none, .open, false, 0, 0, 4294967295⟩,
  ⟨0xAF00, 0, 1, 0x0F, "MARIGOLD_CLUSTERS_CUT", .u32, .ro, .none, .open, false, 0, 0, 4294967295⟩,
  ⟨0xAF01, 0, 1, 0x00, "DISAGREEMENT_LOG", .blob, .ro, .none, .workshop, true, 0, 0, 0⟩]

/-- Page 0xA. -/
def Od.pA : List OdRow := Od.pA_0 ++ Od.pA_1

/-- Page 0xB, part 0. -/
def Od.pB_0 : List OdRow := [
  ⟨0xB000, 0, 1, 0x01, "SESSION_LEVEL", .u8, .ro, .none, .open, false, 0, 0, 255⟩,
  ⟨0xB000, 0, 1, 0x02, "UNLOCK_FAILURES", .u32, .ro, .none, .open, true, 0, 0, 4294967295⟩,
  ⟨0xB000, 0, 1, 0x03, "LOCKOUT_LEFT", .u32, .ro, .none, .open, false, 0, 0, 4294967295⟩,
  ⟨0xB000, 0, 1, 0x04, "WORKSHOP_VERIFIER", (.octets 32), .wo, .now, .vendor, true, 0, 0, 0⟩,
  ⟨0xB000, 0, 1, 0x05, "DEBUG_STATE", .u8, .ro, .none, .open, false, 0, 0, 255⟩,
  ⟨0xB000, 0, 1, 0x06, "TAMPER_COUNT", .u16, .ro, .none, .open, true, 0, 0, 65535⟩,
  ⟨0xB000, 0, 1, 0x07, "LAST_TAMPER", .time80, .ro, .none, .open, true, 0, 0, 0⟩,
  ⟨0xB001, 0, 1, 0x00, "DEVICE_CERT", .blob, .ro, .none, .open, false, 0, 0, 0⟩,
  ⟨0xB002, 0, 1, 0x01, "CAL_AUTHORITY_KEY", .blob, .rw, .restart, .vendor, true, 0, 0, 0⟩,
  ⟨0xB002, 0, 1, 0x02, "TABLE_AUTHORITY_KEY", .blob, .rw, .restart, .vendor, true, 0, 0, 0⟩,
  ⟨0xB002, 0, 1, 0x03, "OEM_COMPONENT_KEY", .blob, .rw, .restart, .vendor, true, 0, 0, 0⟩,
  ⟨0xB003, 0, 1, 0x01, "ATTEST_NONCE", (.octets 32), .wo, .now, .open, false, 0, 0, 0⟩,
  ⟨0xB003, 0, 1, 0x02, "ATTEST_QUOTE", .blob, .ro, .none, .open, false, 0, 0, 0⟩,
  ⟨0xB100, 16, 4, 0x01, "TX_SA", .blob, .wo, .now, .workshop, false, 0, 0, 0⟩,
  ⟨0xB100, 16, 4, 0x02, "RX_SA", .blob, .wo, .now, .workshop, false, 0, 0, 0⟩,
  ⟨0xB100, 16, 4, 0x03, "TX_PN", .u64, .ro, .none, .open, false, 0, 0, 18446744073709551615⟩]

/-- Page 0xB. -/
def Od.pB : List OdRow := Od.pB_0

/-- Page 0xC, part 0. -/
def Od.pC_0 : List OdRow := [
  ⟨0xC000, 0, 1, 0x01, "UPDATE_GATE", .u8, .rw, .now, .open, false, 0, 0, 1⟩,
  ⟨0xC000, 0, 1, 0x02, "GATE_TIMEOUT", .u16, .rw, .restart, .workshop, true, 1000, 100, 10000⟩,
  ⟨0xC000, 0, 1, 0x03, "STAGE_STATE", .u8, .ro, .none, .open, false, 0, 0, 255⟩,
  ⟨0xC000, 0, 1, 0x04, "ACTIVATE", .u8, .wo, .now, .workshop, false, 0, 1, 1⟩,
  ⟨0xC000, 0, 1, 0x05, "DISCARD", .u8, .wo, .now, .workshop, false, 0, 1, 1⟩,
  ⟨0xC000, 0, 1, 0x06, "LAST_RESULT", .u8, .ro, .none, .open, false, 0, 0, 255⟩,
  ⟨0xC000, 0, 1, 0x07, "ACTIVATIONS", .u32, .ro, .none, .open, true, 0, 0, 4294967295⟩,
  ⟨0xC000, 0, 1, 0x08, "REFUSALS", .u32, .ro, .none, .open, false, 0, 0, 4294967295⟩,
  ⟨0xC001, 0, 1, 0x00, "STAGE", .blob, .wo, .now, .workshop, false, 0, 0, 0⟩,
  ⟨0xC002, 0, 1, 0x00, "COMPONENTS", .blob, .ro, .none, .open, false, 0, 0, 0⟩]

/-- Page 0xC. -/
def Od.pC : List OdRow := Od.pC_0

/-- Page 0xD, part 0. -/
def Od.pD_0 : List OdRow := [
  ⟨0xD000, 0, 1, 0x01, "LOG_NEWEST", .u32, .ro, .none, .open, false, 0, 0, 4294967295⟩,
  ⟨0xD000, 0, 1, 0x02, "LOG_OLDEST", .u32, .ro, .none, .open, false, 0, 0, 4294967295⟩,
  ⟨0xD000, 0, 1, 0x05, "SRV_CLEAR", .u8, .wo, .now, .workshop, false, 0, 1, 1⟩,
  ⟨0xD000, 0, 1, 0x06, "SRV_STATE", .bool, .ro, .none, .open, true, 0, 0, 1⟩,
  ⟨0xD001, 0, 1, 0x00, "EVENT_LOG", .blob, .ro, .none, .open, false, 0, 0, 0⟩,
  ⟨0xD002, 0, 1, 0x00, "SRV_EVENTS", (.octets 32), .ro, .none, .open, true, 0, 0, 0⟩]

/-- Page 0xD. -/
def Od.pD : List OdRow := Od.pD_0

/-- Page 0xE, part 0. -/
def Od.pE_0 : List OdRow := [
  ⟨0xE000, 0, 1, 0x01, "POWER_STATE", .u8, .ro, .none, .open, false, 2, 0, 255⟩,
  ⟨0xE000, 0, 1, 0x02, "SUPPLY_VOLTAGE", .u16, .ro, .none, .open, false, 0, 0, 65535⟩,
  ⟨0xE000, 0, 1, 0x03, "INPUT_POWER", .u16, .ro, .none, .open, false, 0, 0, 65535⟩,
  ⟨0xE000, 0, 1, 0x04, "SUPPLY_BAND", .u8, .ro, .none, .open, false, 4, 0, 255⟩,
  ⟨0xE000, 0, 1, 0x05, "RESTART", .u8, .wo, .now, .workshop, false, 0, 1, 1⟩,
  ⟨0xE000, 0, 1, 0x06, "OFF_DELAY", .u16, .rw, .now, .workshop, true, 2000, 0, 60000⟩,
  ⟨0xE000, 0, 1, 0x07, "LAST_RESET_CAUSE", .u8, .ro, .none, .open, false, 1, 0, 255⟩,
  ⟨0xE000, 0, 1, 0x08, "KL30_INPUTS", .u8, .ro, .none, .open, false, 0, 0, 255⟩,
  ⟨0xE000, 0, 1, 0x09, "BOOT_MARIGOLD", .u32, .ro, .none, .open, false, 0, 0, 4294967295⟩,
  ⟨0xE000, 0, 1, 0x0A, "BOOT_MAIN", .u32, .ro, .none, .open, false, 0, 0, 4294967295⟩,
  ⟨0xE000, 0, 1, 0x0B, "CORE_CLOCK", .u8, .rw, .restart, .vendor, true, 16, 4, 16⟩,
  ⟨0xE010, 0, 1, 0x01, "POWER_LIMIT", .u16, .rw, .now, .workshop, false, 160, 60, 160⟩,
  ⟨0xE010, 0, 1, 0x02, "TEMP_LIMIT", .i16, .rw, .now, .vendor, false, 105, 85, 110⟩,
  ⟨0xE010, 0, 1, 0x03, "TEMP_HYST", .u8, .rw, .now, .vendor, false, 5, 2, 20⟩,
  ⟨0xE020, 0, 1, 0x01, "TEMP_0", .i16, .ro, .none, .open, false, 0, (-32768), 32767⟩,
  ⟨0xE020, 0, 1, 0x02, "TEMP_1", .i16, .ro, .none, .open, false, 0, (-32768), 32767⟩,
  ⟨0xE020, 0, 1, 0x03, "TEMP_2", .i16, .ro, .none, .open, false, 0, (-32768), 32767⟩,
  ⟨0xE020, 0, 1, 0x04, "TEMP_3", .i16, .ro, .none, .open, false, 0, (-32768), 32767⟩,
  ⟨0xE020, 0, 1, 0x05, "TEMP_4", .i16, .ro, .none, .open, false, 0, (-32768), 32767⟩,
  ⟨0xE020, 0, 1, 0x06, "TEMP_5", .i16, .ro, .none, .open, false, 0, (-32768), 32767⟩,
  ⟨0xE020, 0, 1, 0x07, "TEMP_6", .i16, .ro, .none, .open, false, 0, (-32768), 32767⟩,
  ⟨0xE020, 0, 1, 0x08, "TEMP_7", .i16, .ro, .none, .open, false, 0, (-32768), 32767⟩,
  ⟨0xE020, 0, 1, 0x09, "TEMP_8", .i16, .ro, .none, .open, false, 0, (-32768), 32767⟩,
  ⟨0xE020, 0, 1, 0x0A, "TEMP_9", .i16, .ro, .none, .open, false, 0, (-32768), 32767⟩,
  ⟨0xE020, 0, 1, 0x0B, "TEMP_10", .i16, .ro, .none, .open, false, 0, (-32768), 32767⟩,
  ⟨0xE020, 0, 1, 0x0C, "TEMP_11", .i16, .ro, .none, .open, false, 0, (-32768), 32767⟩,
  ⟨0xE020, 0, 1, 0x0D, "TEMP_12", .i16, .ro, .none, .open, false, 0, (-32768), 32767⟩,
  ⟨0xE020, 0, 1, 0x0E, "TEMP_13", .i16, .ro, .none, .open, false, 0, (-32768), 32767⟩,
  ⟨0xE020, 0, 1, 0x0F, "TEMP_14", .i16, .ro, .none, .open, false, 0, (-32768), 32767⟩,
  ⟨0xE020, 0, 1, 0x10, "TEMP_15", .i16, .ro, .none, .open, false, 0, (-32768), 32767⟩,
  ⟨0xE020, 0, 1, 0x11, "TEMP_16", .i16, .ro, .none, .open, false, 0, (-32768), 32767⟩,
  ⟨0xE020, 0, 1, 0x12, "TEMP_17", .i16, .ro, .none, .open, false, 0, (-32768), 32767⟩,
  ⟨0xE020, 0, 1, 0x13, "TEMP_18", .i16, .ro, .none, .open, false, 0, (-32768), 32767⟩,
  ⟨0xE020, 0, 1, 0x14, "TEMP_19", .i16, .ro, .none, .open, false, 0, (-32768), 32767⟩,
  ⟨0xE020, 0, 1, 0x15, "TEMP_20", .i16, .ro, .none, .open, false, 0, (-32768), 32767⟩,
  ⟨0xE020, 0, 1, 0x16, "TEMP_21", .i16, .ro, .none, .open, false, 0, (-32768), 32767⟩,
  ⟨0xE020, 0, 1, 0x17, "TEMP_22", .i16, .ro, .none, .open, false, 0, (-32768), 32767⟩,
  ⟨0xE020, 0, 1, 0x18, "TEMP_PEAK", .i16, .ro, .none, .open, true, 0, (-32768), 32767⟩,
  ⟨0xEF00, 0, 1, 0x01, "HOLDS", .u32, .ro, .none, .open, true, 0, 0, 4294967295⟩,
  ⟨0xEF00, 0, 1, 0x02, "POWER_FAILS", .u32, .ro, .none, .open, true, 0, 0, 4294967295⟩]

/-- Page 0xE, part 1. -/
def Od.pE_1 : List OdRow := [
  ⟨0xEF00, 0, 1, 0x03, "DIPS_RIDDEN", .u32, .ro, .none, .open, false, 0, 0, 4294967295⟩,
  ⟨0xEF00, 0, 1, 0x04, "HIGH_SHUTDOWNS", .u32, .ro, .none, .open, true, 0, 0, 4294967295⟩,
  ⟨0xEF00, 0, 1, 0x05, "HOLD_TIME", .u32, .ro, .none, .open, false, 0, 0, 4294967295⟩,
  ⟨0xEF01, 0, 1, 0x01, "RESETS_1", .u32, .ro, .none, .open, true, 0, 0, 4294967295⟩,
  ⟨0xEF01, 0, 1, 0x02, "RESETS_2", .u32, .ro, .none, .open, true, 0, 0, 4294967295⟩,
  ⟨0xEF01, 0, 1, 0x03, "RESETS_3", .u32, .ro, .none, .open, true, 0, 0, 4294967295⟩,
  ⟨0xEF01, 0, 1, 0x04, "RESETS_4", .u32, .ro, .none, .open, true, 0, 0, 4294967295⟩,
  ⟨0xEF01, 0, 1, 0x05, "RESETS_5", .u32, .ro, .none, .open, true, 0, 0, 4294967295⟩,
  ⟨0xEF01, 0, 1, 0x06, "RESETS_6", .u32, .ro, .none, .open, true, 0, 0, 4294967295⟩]

/-- Page 0xE. -/
def Od.pE : List OdRow := Od.pE_0 ++ Od.pE_1

/-- The rows of the page an index lies on (R481). -/
def Od.page (idx : Nat) : List OdRow :=
  match idx / 4096 with
  | 0 => Od.p0
  | 1 => Od.p1
  | 2 => Od.p2
  | 3 => Od.p3
  | 4 => Od.p4
  | 5 => Od.p5
  | 6 => Od.p6
  | 7 => Od.p7
  | 8 => Od.p8
  | 9 => Od.p9
  | 10 => Od.pA
  | 11 => Od.pB
  | 12 => Od.pC
  | 13 => Od.pD
  | 14 => Od.pE
  | _ => []

/-- Every listed row. -/
def Od.rows : List OdRow := (List.range 15).flatMap (fun p => Od.page (4096 * p))

/-- Row `r` lists index `idx` as its instance (R482). -/
def OdRow.at (r : OdRow) (idx : Nat) : Bool :=
  if idx < r.base then false
  else if r.stride = 0 then idx == r.base
  else (idx - r.base) % r.stride == 0 && decide ((idx - r.base) / r.stride < r.count)

/-- Which instance of its row an index is. -/
def OdRow.inst (r : OdRow) (idx : Nat) : Nat := if r.stride = 0 then 0 else (idx - r.base) / r.stride

/-- Instances that an index rule excludes (R480): MACsec objects only on HOST and PEER ports, Qci objects only on SENS and
HOST ports, gate objects only on HOST ports, result-gate objects only on HOST0, XOFF thresholds only on DROP queues. -/
def Od.excluded (idx sub : Nat) : Bool :=
  let p := (idx - 0x1100) / 16
  (decide (0x1100 ≤ idx ∧ idx < 0x11C0) && ((sub == 0x0D || sub == 0x0E) && decide (p < 8)
    || (sub == 0x0F || sub == 0x10) && decide (9 < p)))
  || (decide (0x1830 ≤ idx ∧ idx < 0x1848) && (sub == 0x0A || sub == 0x0B)
    && !decide (0x1830 + 12 ≤ idx ∧ idx < 0x1830 + 20))

/-- The row of an object, none where it does not exist (R480). -/
def Od.find (idx sub : Nat) : Option OdRow :=
  if Od.excluded idx sub then none else (Od.page idx).find? (fun r => r.sub == sub && r.at idx)

/-- The key of an object in the dictionary's stores. -/
def od (idx sub : Nat) : Nat := 256 * idx + sub

/-- The highest subindex in use of an index, none where no object has it (R480). -/
def Od.highest (idx : Nat) : Option Nat :=
  match ((Od.page idx).filter (fun r => r.at idx && !Od.excluded idx r.sub)).map (fun r => r.sub) with
  | [] => none
  | x :: xs => some (xs.foldl Nat.max x)

/-- Bytes of a value of a fixed-size type; none for a BLOB. -/
def OdTy.size : OdTy → Option Nat
  | .bool => some 1 | .u8 => some 1 | .i8 => some 1 | .u16 => some 2 | .i16 => some 2
  | .u32 => some 4 | .i32 => some 4 | .f32 => some 4 | .u64 => some 8 | .i64 => some 8
  | .time80 => some 10 | .octets n => some n | .text n => some n | .blob => none

/-- The type's code (R475). -/
def OdTy.code : OdTy → Nat
  | .bool => 0 | .u8 => 1 | .u16 => 2 | .u32 => 3 | .u64 => 4 | .i8 => 5 | .i16 => 6 | .i32 => 7 | .i64 => 8
  | .f32 => 9 | .time80 => 10 | .octets _ => 11 | .text _ => 12 | .blob => 13

/-- The type holds a number. -/
def OdTy.isNum : OdTy → Bool
  | .time80 => false | .octets _ => false | .text _ => false | .blob => false | _ => true

/-- The type's numbers are two's complement. -/
def OdTy.isSigned : OdTy → Bool
  | .i8 => true | .i16 => true | .i32 => true | .i64 => true | _ => false

end Sys2Proof.Machine
end

