-- ==== Sys2Proof/Machine/Sparse.lean ====
section
/-! DEFINITION. Sparse tables in one canonical form: (key, value) pairs with strictly rising keys, no pair holding what an
unlisted key reads as. Every memory of the module (scratchpads, DRAM, HyperRAM, accumulators, the object dictionary, the
cell table) is one. `d` is what an unlisted key reads as. -/

namespace Sys2Proof.Machine

/-- The value at key `a`. -/
def Sparse.get {α : Type} (d : Nat → α) : List (Nat × α) → Nat → α
  | [], a => d a
  | (k, v) :: m, a => if a = k then v else Sparse.get d m a

/-- Take key `a` out. -/
def Sparse.del {α : Type} (m : List (Nat × α)) (a : Nat) : List (Nat × α) := m.filter (fun x => x.1 != a)

/-- Put the pair (a, v) before the first key above `a`. -/
def Sparse.ins {α : Type} : List (Nat × α) → Nat → α → List (Nat × α)
  | [], a, v => [(a, v)]
  | (k, w) :: m, a, v => if a < k then (a, v) :: (k, w) :: m else (k, w) :: Sparse.ins m a v

/-- Put `v` at key `a`; putting what an unlisted key reads as removes the pair. -/
def Sparse.put {α : Type} [DecidableEq α] (d : Nat → α) (m : List (Nat × α)) (a : Nat) (v : α) : List (Nat × α) :=
  if v = d a then Sparse.del m a else Sparse.ins (Sparse.del m a) a v

/-- Every key of `m` is at least `lo`, the keys rise strictly and no pair holds the unlisted value. -/
def Sparse.wfFrom {α : Type} [DecidableEq α] (d : Nat → α) : Nat → List (Nat × α) → Bool
  | _, [] => true
  | lo, (k, v) :: m => decide (lo ≤ k) && decide (v ≠ d k) && Sparse.wfFrom d (k + 1) m

/-- The canonical form. -/
def Sparse.wf {α : Type} [DecidableEq α] (d : Nat → α) (m : List (Nat × α)) : Bool := Sparse.wfFrom d 0 m

/-- `n` values from key `a` on. -/
def Sparse.getN {α : Type} (d : Nat → α) (m : List (Nat × α)) (a : Nat) : Nat → List α
  | 0 => []
  | n + 1 => Sparse.get d m a :: Sparse.getN d m (a + 1) n

/-- Put a run of values from key `a` on. -/
def Sparse.putN {α : Type} [DecidableEq α] (d : Nat → α) (m : List (Nat × α)) (a : Nat) : List α → List (Nat × α)
  | [] => m
  | v :: vs => Sparse.putN d (Sparse.put d m a v) (a + 1) vs

/-- Unlisted bytes of every memory read as zero: by R223 in the scratchpads; a design choice elsewhere (log entry 3). -/
def zeroByte : Nat → Byte := fun _ => 0

/-- A byte memory. -/
abbrev Mem := List (Nat × Byte)

/-- The canonical form of a byte memory. -/
def Memory.wf (m : Mem) : Bool := Sparse.wf zeroByte m

/-- One byte. -/
def Mem.rd (m : Mem) (a : Nat) : Byte := Sparse.get zeroByte m a

/-- One byte written. -/
def Mem.wr (m : Mem) (a : Nat) (v : Byte) : Mem := Sparse.put zeroByte m a v

end Sys2Proof.Machine
end

