-- ==== Sys2Proof/Machine/StBase.lean ====
section
/-! DEFINITION. Plain-data types of the dictionary, the event log, the HAP sessions and the frames in flight. -/

namespace Sys2Proof.Machine

/-- An accepted FRAME write that waits for its boundary (R478): key, value, instant of acceptance. -/
structure PendWrite where
  key : Nat := 0
  val : OdVal := .num 0
  at_ : Nat := 0
  deriving DecidableEq, Repr

/-- The dictionary's stores, all in the canonical form of Sparse: the values in effect, the configuration journal (R479), the
persistent copies of the life counters (R53), the writes that wait, what the last boundary's writes replaced (which the frame computed
still uses, R478), and the RESTART command objects written 1. -/
structure Dict where
  vals : List (Nat × OdVal) := []
  journal : List (Nat × OdVal) := []
  saved : List (Nat × OdVal) := []
  waiting : List PendWrite := []
  prev : List (Nat × OdVal) := []
  armed : List Nat := []
  deriving DecidableEq, Repr

/-- An event record (R503). -/
structure EventRec where
  code : Nat := 0
  inst : Nat := 0xFF
  flags : Nat := 0
  seq : Nat := 0
  time : Nat := 0
  frame : Nat := 0
  value : Nat := 0
  deriving DecidableEq, Repr, Inhabited

/-- The event log (R357, R359, R504): flash ring, staging buffer of the frame, SRV_N and the first asserting codes, and the
events that have asserted it (R544). -/
structure EvLog where
  seq : Nat := 0
  ring : List EventRec := []
  staged : List EventRec := []
  inFrame : Nat := 0
  overflowed : Bool := false
  srv : Bool := false
  srvEvents : List Nat := []
  dtcs : List Nat := []
  deriving DecidableEq, Repr

/-- A VALUE subscription (R498, R499). -/
structure ValueSub where
  num : Nat := 1
  key : Nat := 0
  mode : Nat := 0
  last : Option Bytes := none
  count : Nat := 0
  deriving DecidableEq, Repr, Inhabited

/-- A BLOB snapshot (R495, R500). -/
structure Snapshot where
  key : Nat := 0
  data : Bytes := []
  last : Nat := 0
  deriving DecidableEq, Repr, Inhabited

/-- An open BLOB write transfer (R496): what it writes, its length and CRC, its slot of the update staging and how much of it has come. -/
structure Transfer where
  key : Nat := 0
  total : Nat := 0
  crc : Nat := 0
  slot : Nat := 0
  got : Nat := 0
  last : Nat := 0
  deriving DecidableEq, Repr, Inhabited

/-- An unlock nonce of a session (R528): kind 1 WORKSHOP or 2 VENDOR, the nonce and when it was given. -/
structure Nonce where
  kind : Nat := 1
  bytes : Bytes := []
  at_ : Nat := 0
  deriving DecidableEq, Repr, Inhabited

/-- A RESULT_READ that waits for the record's storage, with the address its reply goes to (R472). -/
structure WaitRead where
  frame : Nat := 0
  maxLen : Nat := 0
  seq : Nat := 0
  ip : Nat := 0
  port : Nat := 0
  deriving DecidableEq, Repr, Inhabited

/-- A HAP session (R487-R499, R528-R531, R523). -/
structure Session where
  id : Nat := 0
  srcIp : Nat := 0
  notifyPort : Nat := 0
  isHost : Bool := false
  level : Level := .open
  levelEnd : Option Nat := none
  debug : Bool := false
  lastSeq : Nat := 0
  reply : Bytes := []
  waitRead : Option WaitRead := none
  notifySeq : Nat := 1
  evMask : Option Nat := none
  evQueue : List EventRec := []
  lastNotify : Option Nat := none
  values : List ValueSub := []
  snapshot : Option Snapshot := none
  transfer : Option Transfer := none
  lastTime : Nat := 0
  nonce : Option Nonce := none
  attestNonce : Bytes := []
  attestAt : Option Nat := none
  quote : Bytes := []
  deriving DecidableEq, Repr, Inhabited

/-- The HAP server (R483-R501): the sessions, and the status and body of the last reply. -/
structure Hap where
  sessions : List Session := []
  lastStatus : Nat := 0
  lastReply : Bytes := []
  deriving DecidableEq, Repr

/-- A pose (R67-R69): position in 1/65,536 m, orientation w, x, y, z in Q1.30. -/
structure Pose where
  pos : List Int := [0, 0, 0]
  quat : List Int := [1073741824, 0, 0, 0]
  deriving DecidableEq, Repr, Inhabited

/-- Point counts of a sweep (OD 0x3F00, R64, R70-R80). -/
structure SweepCount where
  inn : Nat := 0
  inserted : Nat := 0
  withdrawn : Nat := 0
  unresolved : Nat := 0
  unlogged : Nat := 0
  budget : Nat := 0
  cellFull : Nat := 0
  late : Nat := 0
  future : Nat := 0
  admitted : Nat := 0
  deriving DecidableEq, Repr, Inhabited

/-- Cell-table counts of a frame (OD 0x4F00, 0x4F01; R114). -/
structure CellCount where
  live : Nat := 0
  created : Nat := 0
  aggregated : Nat := 0
  freed : Nat := 0
  stashPeak : Nat := 0
  refusedBucket : Nat := 0
  refusedLimit : Nat := 0
  outside : Int := 0
  saturated : Nat := 0
  aged : Nat := 0
  agedOut : Nat := 0
  ageMerged : Nat := 0
  ageDropped : Nat := 0
  ageIncomplete : Nat := 0
  liveG : List Nat := [0, 0, 0, 0]
  deriving DecidableEq, Repr, Inhabited

/-- One frame in flight (R27, R28): its number (0 before RUN), its sweep's start and end E, its status (R37, R470), the seven
cause words of R464, what has been raised once for it, and what its record will carry. `dropped` says that its deadline has passed (R36), `hold` that its
sweep overlapped a hold (R548). -/
structure FrameCtx where
  n : Nat := 0
  start : Nat := 0
  end_ : Nat := 0
  status : Nat := 0
  cIngest : Nat := 0
  cCells : Nat := 0
  cBooks : Nat := 0
  cPeony : Nat := 0
  cSched : Nat := 0
  cSafety : Nat := 0
  cTime : Nat := 0
  once : List (Nat × Nat) := []
  pref : Pose := {}
  rest : Bool := true
  poseAt : Option Nat := none
  pts : SweepCount := {}
  cells : CellCount := {}
  timeState : Nat := 0
  dropped : Bool := false
  marigoldPrimary : Bool := false
  hold : Bool := false
  reported : Bool := false
  launched : Bool := false
  deriving DecidableEq, Repr, Inhabited

/-- The frame base (R26-R28, R35, R38): the latest instant seen, whether the module is in RUN, the two frames in flight, the
last completed frame number, and the period, phase and launch offset in force in ns. -/
structure FrameSt where
  now : Nat := 0
  run : Bool := false
  lastFrame : Nat := 0
  period : Nat := 0
  phase : Nat := 0
  launch : Nat := 0
  ing : FrameCtx := {}
  comp : FrameCtx := {}
  deriving DecidableEq, Repr

/-- Credits a block holds for a window of a core under a generation (R133, R241), and the ring slots it has filled and not seen come back, oldest
first (R210). -/
structure Credit where
  core : Nat := 0
  part : Nat := 0
  win : Nat := 0
  gen : Nat := 0
  n : Nat := 0
  held : List Nat := []
  deriving DecidableEq, Repr, Inhabited

end Sys2Proof.Machine
end

