-- ==== Sys2Proof/Machine/Dict.lean ====
section
/-! DEFINITION. Defaults, encoding and decoding of the dictionary's objects. -/

namespace Sys2Proof.Machine

/-- Defaults that the listings give per instance or as text: grid 0 enabled (R90), port roles and speeds (R441, R452, R473),
the identity texts (R505), the open gate list (R473), and no workshop verifier until one is written (R506, R529). -/
def Od.special (idx sub : Nat) (r : OdRow) : OdVal :=
  let p := (idx - 0x1100) / 16
  if idx == 0x4010 && (sub == 1 || sub == 9) then .num 1
  else if r.base == 0x1100 && sub == 4 then .num (if p < 10 then 1 else 25)
  else if r.base == 0x1100 && sub == 3 then .num (if p < 8 || p == 10 then 0 else 1)
  else if r.base == 0x2100 && sub == 1 then
    let q := (idx - 0x2100) / 16
    .num (if q < 8 then 1 else if q == 8 then 2 else if q == 9 then 3 else 0)
  else if idx == 0x0000 && sub == 1 then .oct (padTo 16 (ascii "Tarkor"))
  else if idx == 0x0000 && sub == 2 then .oct (padTo 16 (ascii "BM4410"))
  else if idx == 0x0000 && sub == 3 then .oct (natLe 16 Config.deviceSerial.toNat)
  else if idx == 0xB000 && sub == 4 then .oct []
  else if r.base == 0x1180 && sub == 0x11 then .oct (natLe 4 8 ++ [7, 0, 0, 0])
  else match r.ty with
    | .text n => .oct (zeros n)
    | .octets n => .oct (zeros n)
    | .time80 => .oct (zeros 10)
    | .blob => .oct []
    | _ => .num r.dflt

/-- What an object holds that nothing has written: its default (R479). -/
def Od.dflt (key : Nat) : OdVal :=
  match Od.find (key / 256) (key % 256) with
  | none => .num 0
  | some r => Od.special (key / 256) (key % 256) r

/-- The number of a value. -/
def OdVal.toInt : OdVal → Int
  | .num v => v
  | .oct b => leNat b

/-- The bytes of a value as they stand. -/
def OdVal.toBytes : OdVal → Bytes
  | .num _ => []
  | .oct b => b

/-- The bytes a value has on the wire (R475). -/
def OdTy.encode (ty : OdTy) : OdVal → Bytes
  | .oct b => match ty.size with
    | some n => padTo n b
    | none => b
  | .num v => match ty.size with
    | some n => natLe n (unsignedOf (8 * n) v)
    | none => []

/-- A TEXT value is zero-padded: no non-zero byte after the first zero byte (R475). -/
def textOk (b : Bytes) : Bool := allZero (b.dropWhile (fun x => x != 0))

/-- The value that written bytes hold, or the status TYPE (4) or RANGE (5) of R486; the row's numeric limits included. -/
def OdRow.decode (r : OdRow) (b : Bytes) : OdVal ⊕ Nat :=
  match r.ty.size with
  | none => .inl (.oct b)
  | some n =>
    if b.length ≠ n then .inr 4
    else if r.ty.isNum then
      let v : Int := if r.ty.isSigned then signedOf (8 * n) (leNat b) else (leNat b : Int)
      if v < r.lo ∨ r.hi < v then .inr 5 else .inl (.num v)
    else match r.ty with
      | .text _ => if textOk b then .inl (.oct b) else .inr 5
      | .time80 => if (ofTime80 b).isSome then .inl (.oct b) else .inr 5
      | _ => .inl (.oct b)

/-- A value already decoded lies inside its row's limits. -/
def OdRow.inRange (r : OdRow) : OdVal → Bool
  | .num v => decide (r.lo ≤ v) && decide (v ≤ r.hi)
  | .oct b => match r.ty.size with
    | some n => b.length == n
    | none => true

end Sys2Proof.Machine
end

