-- ==== Sys2Proof/Machine/StBooks.lean ====
section
/-! DEFINITION. Plain-data types of the rule-book builder (R116-R149): the plan, the sets and rule books of the frame in build,
speculation, credits. -/

namespace Sys2Proof.Machine

/-- A set declaration (R145). -/
structure SetDecl where
  set : Nat := 0
  source : Nat := 0
  parent : Nat := 0
  grid : Nat := 0
  ages : Nat := 0
  sx : Nat := 0
  sy : Nat := 0
  sz : Nat := 0
  decided : Bool := false
  exportKeys : Bool := false
  keep : Bool := false
  mode : Nat := 0
  dil : Nat := 0
  genRb : Nat := 0
  coreA : Nat := 0
  coreB : Nat := 0
  s : Nat := 0
  expWin : Nat := 0
  expPart : Nat := 0
  maxRows : Nat := 1
  stripe : List Nat := []
  deriving DecidableEq, Repr, Inhabited

/-- A rule-book declaration (R146). -/
structure RbDecl where
  rb : Nat := 0
  cls : Nat := 0
  inp : Nat := 0
  out : Nat := 0
  pair : Nat := 0
  policy : Nat := 0
  ctr : Nat := 0
  win : Nat := 0
  part : Nat := 0
  threshold : Nat := 0
  offs : List (List Int) := []
  deriving DecidableEq, Repr, Inhabited

/-- A cell of a set: its indices in the set's lattice, its age, its row index (owner position and row, R117), whether a
repair gave it the row (R145), and for a CELLS row its place in the cell table. -/
structure RowRec where
  x : Int := 0
  y : Int := 0
  z : Int := 0
  age : Nat := 0
  idx : Nat := 0
  repaired : Bool := false
  place : Nat := 0
  deriving DecidableEq, Repr, Inhabited

/-- The rows of a set for a copy; a set that is not decided has copy 0 only and serves both copies (R120). Exported rows go
out in order; `sent` of them have been sent to each core set. -/
structure SetRows where
  set : Nat := 0
  copy : Nat := 0
  rows : List RowRec := []
  sent : Nat := 0
  deriving DecidableEq, Repr, Inhabited

/-- An entry of a rule book (R131). -/
structure RbEntry where
  j : Nat := 0
  out : Nat := 0
  inp : Nat := 0
  deriving DecidableEq, Repr, Inhabited

/-- A segment that waits to be written (R132). -/
structure Segment where
  rb : Nat := 0
  copy : Nat := 0
  owner : Nat := 0
  j : Nat := 0
  epoch : Nat := 0
  flags : Nat := 0
  seq : Nat := 0
  total : Nat := 0
  rows : Nat := 0
  entries : List RbEntry := []
  deriving DecidableEq, Repr, Inhabited

/-- Per rule book and copy counts (OD 0x5F01). -/
structure RbCount where
  rb : Nat := 0
  copy : Nat := 0
  entries : Nat := 0
  buffered : Nat := 0
  released : Nat := 0
  squashed : Nat := 0
  missedCells : Nat := 0
  missedEntries : Nat := 0
  repaired : Nat := 0
  deriving DecidableEq, Repr, Inhabited

/-- A decision report the builder has taken (R135): the mask bits of the owner's rows. -/
structure Report where
  set : Nat := 0
  copy : Nat := 0
  owner : Nat := 0
  masks : List Nat := []
  deriving DecidableEq, Repr, Inhabited

/-- A speculative epoch (R137-R141): the predicted set's cells in provisional order, how many lane results its build has reached, the
entries buffered per rule book, and whether its release pass is over. -/
structure Epoch where
  num : Nat := 0
  set : Nat := 0
  copy : Nat := 0
  frame : Nat := 0
  cells : List RowRec := []
  reached : Nat := 0
  books : List (Nat × Nat) := []
  released : Bool := false
  deriving DecidableEq, Repr, Inhabited

/-- A set kept for prediction (R136), with the reference pose of its frame. -/
structure Kept where
  set : Nat := 0
  copy : Nat := 0
  frame : Nat := 0
  cells : List RowRec := []
  pref : Pose := {}
  rest : Bool := true
  deriving DecidableEq, Repr, Inhabited

/-- The builder, at work for `frame`; `asm` holds the reports under way; `nextItem` numbers the items it sends and `lostItems` are those counted as lost (R590); `keyItems` names the items that carried key
records (item, set, copy, row index); `missed` holds the missed cells of each decided set and copy (R142); `specOff` says that
speculation has stopped for the frame (R138); `scanned` says that the frame's numbering scan has run. -/
structure Books where
  frame : Nat := 0
  sets : List SetDecl := []
  rbs : List RbDecl := []
  rows : List SetRows := []
  built : List (Nat × Nat) := []
  entries : List (Nat × Nat × List RbEntry) := []
  queue : List Segment := []
  counts : List RbCount := []
  reports : List Report := []
  epochs : List Epoch := []
  lastEpoch : Nat := 0
  kept : List Kept := []
  credits : List Credit := []
  probes : Nat := 0
  exported : Nat := 0
  emitted : Nat := 0
  squashes : Nat := 0
  specBuilt : Nat := 0
  specReleased : Nat := 0
  specSquashed : Nat := 0
  missedCells : Nat := 0
  missedEntries : Nat := 0
  repairedCells : Nat := 0
  setFull : Nat := 0
  overflow : Nat := 0
  fallbacks : Nat := 0
  discarded : Nat := 0
  lost : Nat := 0
  rbDegraded : Nat := 0
  nextItem : Nat := 0
  asm : List (Nat × Bytes) := []
  firstRes : Nat := 0
  lostItems : List Nat := []
  keyItems : List (Nat × Nat × Nat × Nat) := []
  missed : List (Nat × Nat × List RowRec) := []
  specOff : Bool := false
  scanned : Bool := true
  deriving DecidableEq, Repr

end Sys2Proof.Machine
end

