-- ==== Sys2Proof/Machine/StCore.lean ====
section
/-! DEFINITION. Plain-data types of a core (sequencer, array, scratchpad, top-k unit), of the fabric and of the scheduler. -/

namespace Sys2Proof.Machine

/-- A stream descriptor's eight fields (R197). -/
structure Desc where
  ctrl : Nat := 0
  base : Nat := 0
  row : Nat := 0
  count : Nat := 0
  stride : Nat := 0
  ictrl : Nat := 0
  ibase : Nat := 0
  aux : Nat := 0
  deriving DecidableEq, Repr, Inhabited

/-- A window table entry (R225), with the segment slots of a segment ring, oldest first: `segs` holds the slots whose header has come and
that SEGR has not marked, `marked` those marked and not yet returned (R203, R210). -/
structure Win where
  isOpen : Bool := false
  f : Nat := 0
  b : Nat := 0
  gen : Nat := 0
  size : Nat := 0
  attr : Nat := 0
  segs : List Nat := []
  marked : List Nat := []
  deriving DecidableEq, Repr, Inhabited

/-- The task that runs on a core (R192). -/
structure TaskRun where
  task : Nat := 0
  part : Nat := 0
  copy : Nat := 0
  frame : Nat := 0
  arg : Nat := 0
  lcore : Nat := 0
  deriving DecidableEq, Repr, Inhabited

/-- What a sequencer waits for (R203, R204, R283, R285). -/
inductive Wait where
  | none
  | await | fence | tend
  | waitk (k v : Nat)
  | bar (g : Nat)
  | wclose (w : Nat)
  | tkout (sd addr w : Nat)
  | tkmrg (g seq : Nat)
  deriving DecidableEq, Repr, Inhabited

/-- One accumulator: the exact integer sum or the FP32 bits, the sticky overflow, for MAX and MIN (`pair`) the index, and whether a NaN
term came by (R160, R164, R167, R306). -/
structure Acc where
  v : Int := 0
  ovf : Bool := false
  idx : Nat := 0
  pair : Bool := false
  seen : Bool := false
  deriving DecidableEq, Repr, Inhabited

/-- An entry of the array queue (R191, R203): AMM with its descriptors and problem, or ADRAIN; `done` rows have been taken. -/
structure AJob where
  isDrain : Bool := false
  ta : Desc := {}
  tw : Desc := {}
  td : Desc := {}
  m : Nat := 0
  k : Nat := 0
  n : Nat := 0
  first : Nat := 0
  mode : Nat := 0
  pc : Nat := 0
  word : Nat := 0
  done : Nat := 0
  run : TaskRun := {}
  deriving DecidableEq, Repr, Inhabited

/-- A stationary block in a bank (R169, R172, R179): the rows the loader formed its sums from, the rows the data cells hold, and by how
much the checksum value of a row in a tile column is off, as (row, tile column, error). -/
structure Block where
  src : List (List Nat) := []
  held : List (List Nat) := []
  off : List (Nat × Nat × Int) := []
  deriving DecidableEq, Repr, Inhabited

/-- An accumulator set of an output-stationary block (R162): its block row and column, its rows, and whether its comparisons at the drain
fail (R179, R180). -/
structure OsSet where
  bm : Nat := 0
  bn : Nat := 0
  rows : List (List Acc) := []
  bad : Bool := false
  deriving DecidableEq, Repr, Inhabited

/-- A chunk that waits for its verdict, its replay or its merge (R181, R182, R206, R207); a store chunk is the passes since the last drain
(R208). `bad` names the sub-arrays with a comparison that failed; `again`: it is a replay; `failed`: a verdict has failed before. -/
structure Chunk where
  job : AJob := {}
  row0 : Nat := 0
  rows : Nat := 0
  slot : Nat := 0
  store : Bool := false
  bad : List Nat := []
  again : Bool := false
  failed : Bool := false
  deriving DecidableEq, Repr, Inhabited

/-- The chunk the array is working on: the pass it comes to next, whether that pass loads its block and has loaded it once in vain, the
accumulators of the column group in work, and the output-stationary sets still to drain, oldest first (R159, R162, R168-R172). -/
structure Running where
  chunk : Chunk := {}
  pass : Nat := 0
  loading : Bool := false
  retried : Bool := false
  accs : List (List Acc) := []
  sets : List OsSet := []
  deriving DecidableEq, Repr, Inhabited

/-- DMA operations of R204. -/
inductive DmaOp where | copy | add | conv | maskb | drep
  deriving DecidableEq, Repr, Inhabited

/-- An entry of the DMA queue (R204). -/
structure DJob where
  op : DmaOp := .copy
  ts : Desc := {}
  td : Desc := {}
  par : Nat := 0
  width : Nat := 0
  off : Nat := 0
  len : Nat := 0
  win : Nat := 0
  count : Option Nat := none
  word : Nat := 0
  pc : Nat := 0
  run : TaskRun := {}
  started : Bool := false
  moved : Bool := false
  deriving DecidableEq, Repr, Inhabited

/-- The top-k unit's list (R294-R299): entries as (value bits, index) in rank order; `recv` holds the last value and tie overflow of
each full list a merge received (R302). -/
structure TopK where
  isOpen : Bool := false
  k : Nat := 0
  fmt : Nat := 0
  smallest : Bool := false
  base : Nat := 0
  count : Nat := 0
  nan : Nat := 0
  ties : Nat := 0
  entries : List (Nat × Nat) := []
  recv : List (Nat × Nat) := []
  final : Bool := true
  deriving DecidableEq, Repr, Inhabited

/-- A list received in a merge (R285): its summary and entries as far as they have come. -/
structure ListBlock where
  src : Nat := 0
  down : Bool := false
  group : Nat := 0
  seq : Nat := 0
  k : Nat := 0
  fmt : Nat := 0
  smallest : Bool := false
  valid : Nat := 0
  ties : Nat := 0
  nan : Nat := 0
  entries : List (Nat × Nat) := []
  last : Bool := false
  deriving DecidableEq, Repr, Inhabited

/-- A preserving march test in progress or queued: quad, bank, row (R251). -/
structure MarchRow where
  quad : Nat := 0
  bank : Nat := 0
  row : Nat := 0
  deriving DecidableEq, Repr, Inhabited

/-- A row repair (R252): bank row mapped to a spare. -/
structure RowRepair where
  quad : Nat := 0
  bank : Nat := 0
  row : Nat := 0
  spare : Nat := 0
  deriving DecidableEq, Repr, Inhabited

/-- The sequencer's task state and queues (R191, R200). -/
structure Seq where
  regs : Vector (BitVec 64) 32 := Vector.replicate 32 0
  preds : Vector Bool 4 := Vector.replicate 4 false
  pc : Nat := 0
  desc : Vector Desc 8 := Vector.replicate 8 {}
  mode : Nat := 0
  modeValid : Bool := false
  task : Option TaskRun := none
  wait : Wait := .none
  arrayQ : List AJob := []
  dmaQ : List DJob := []
  topk : TopK := {}
  deriving DecidableEq, Repr, Inhabited

/-- The array (R150-R189): the chunk in work, the job whose further chunks follow, what a replay interrupted and what is still to replay
(R182), chunks before their verdicts, chunks before their merges, the accumulator store by position, the jobs since the last drain, the
valid stationary banks by 2 · sub-array + bank and the bank each sub-array's last pass read, the arrangement, the pass count, the cell
operations of the frame and those gated (R168), the tiles a targeted test is asked for (R182), the events of the repairs that flash already
holds and that wait for the frame boundary, as (event, tile) (R185), and the spare lines found faulty as (tile, column?) (R184). -/
structure Arr where
  running : Option Running := none
  cur : Option AJob := none
  held : Option Running := none
  replays : List Chunk := []
  pending : List Chunk := []
  merges : List Chunk := []
  store : List (Nat × Acc) := []
  storeJobs : List AJob := []
  nextSlot : Nat := 0
  banks : List (Nat × Block) := []
  sel : Nat := 0
  arrangement : Option Nat := none
  passCount : Nat := 0
  cellOps : Nat := 0
  gated : Nat := 0
  targetTiles : List Nat := []
  due : List (Nat × Nat) := []
  deadSpares : List (Nat × Bool) := []
  deriving DecidableEq, Repr, Inhabited

/-- The scratchpad (R220-R253): bytes, slot-tag fill bits per 32-byte word, words in uncorrectable error per 8-byte word, windows,
granules in use, counters, scrub positions and march state; `deadRows` are the rows of a retired quad that fail until the restart, as row
keys, and `dueRows` the rows whose repair waits for the frame boundary (R253, R435). -/
structure Pad where
  mem : Mem := []
  fills : List (Nat × Bool) := []
  bad : List (Nat × Bool) := []
  rowErrs : List (Nat × Nat) := []
  wins : Vector Win 64 := Vector.replicate 64 {}
  used : List (Nat × Bool) := []
  kctr : Vector Nat 64 := Vector.replicate 64 0
  scrubPos : Vector Nat 24 := Vector.replicate 24 0
  scrubLate : Vector Bool 24 := Vector.replicate 24 false
  marchQ : List MarchRow := []
  deadRows : List Nat := []
  dueRows : List MarchRow := []
  repairs : List RowRepair := []
  badSpares : List (Nat × Nat × Nat) := []
  nextRetired : Nat := 0
  wiped : Bool := false
  deriving DecidableEq, Repr, Inhabited

/-- A remote read of at most four lines that a unit of a core has asked for (R199, R240, R272): for whose instruction, where it lies, and the
bytes that have come. Its space is reserved from the request on (R269). -/
structure Get where
  run : TaskRun := {}
  pc : Nat := 0
  owner : Nat := 0
  win : Nat := 0
  off : Nat := 0
  data : Bytes := []
  done : Bool := false
  deriving DecidableEq, Repr, Inhabited

/-- A core. -/
structure Core where
  seq : Seq := {}
  arr : Arr := {}
  pad : Pad := {}
  blocks : List ListBlock := []
  sentUp : Bool := false
  arrived : List Nat := []
  gets : List Get := []
  frozen : Bool := false
  deriving DecidableEq, Repr, Inhabited

/-- A request that waits for its answer (R269, R274): the stop and tag, the type, who made it and until when it waits. -/
structure Req where
  stop : Nat := 0
  tag : Nat := 0
  type : Nat := 0
  core : Option Nat := none
  task : Option TaskRun := none
  pc : Nat := 0
  ddev : Nat := 0
  since : Nat := 0
  win : Nat := 0
  owner : Nat := 0
  off : Nat := 0
  lead : Bool := false
  deriving DecidableEq, Repr, Inhabited

/-- An assembly buffer of the switch (R278). -/
structure Assembly where
  dev : Nat := 0
  cls : Nat := 0
  msgs : List (Nat × Msg) := []
  opened : Nat := 0
  deriving DecidableEq, Repr, Inhabited

/-- A flit on the mesh (R264): its message with the type, its number in the message, whether it is the last, and for how many fabric cycles,
up to 64, it has waited as the head of its buffer (R267). -/
structure Flit where
  ty : Nat := 0
  msg : Msg := {}
  n : Nat := 0
  last : Bool := true
  age : Nat := 0
  deriving DecidableEq, Repr, Inhabited

/-- What an output holds of one class (R266, R267): credits, the input whose message it is sending, and the input it took a message from last. -/
structure Gate where
  credits : Nat := 8
  lock : Option Nat := none
  turn : Nat := 0
  deriving DecidableEq, Repr, Inhabited

/-- A request that waits at its source for a transaction tag (R269): its type, its message and what its transaction will hold. -/
structure Held where
  ty : Nat := 0
  msg : Msg := {}
  req : Req := {}
  deriving DecidableEq, Repr, Inhabited

/-- The fabric (R264-R289): requests outstanding, timed out and waiting for a tag, the messages that wait at their source stops with their
types, the flits in the routers' input buffers and the stops' crossing queues, what the outputs hold, by 32 · stop + 4 · port + class (R263-R267),
assembly buffers, the (port, class) pairs it has paused and the (port, priority) pairs a received pause holds (R280). -/
structure Fabric where
  reqs : List Req := []
  late : List (Nat × Nat) := []
  held : List Held := []
  mesh : List (Nat × Msg) := []
  lanes : List (Nat × List Flit) := []
  gates : List (Nat × Gate) := []
  assembly : List Assembly := []
  pfcSent : List (Nat × Nat) := []
  pfcHeld : List (Nat × Nat) := []
  deriving DecidableEq, Repr

/-- A window specification of a task (R366). -/
structure WinSpec where
  size : Nat := 0
  attr : Nat := 0
  f : Nat := 0
  b : Nat := 0
  named : Bool := false
  deriving DecidableEq, Repr, Inhabited

/-- A task descriptor (R366). -/
structure TaskDesc where
  task : Nat := 0
  part : Nat := 0
  mask : Nat := 0
  crit : Nat := 0
  optional : Bool := false
  overrunEnd : Bool := false
  copy : Nat := 0
  ready : Nat := 0xFF
  threshold : Nat := 0
  release : Nat := 0
  due : Nat := 0
  budget : Nat := 0
  arg : Nat := 0
  wins : List WinSpec := []
  deriving DecidableEq, Repr, Inhabited

/-- A partition record (R364). -/
structure PartRec where
  part : Nat := 0
  present : Bool := false
  mask : Nat := 0
  quad : Nat := 0
  granule : Nat := 0
  slots : Nat := 0
  counters : Nat := 0
  deriving DecidableEq, Repr, Inhabited

/-- A slot entry (R372). -/
structure SlotEntry where
  start : Nat := 0
  len : Nat := 0
  mask : Nat := 0
  owner : Nat := 9
  lender : Nat := 15
  deriving DecidableEq, Repr, Inhabited

/-- A plan (R376). -/
structure Plan where
  retired : Nat := 0
  first : Nat := 0
  count : Nat := 0
  map : Nat := 0xFEDCBA9876543210
  deriving DecidableEq, Repr, Inhabited

/-- A schedule (R363-R376). -/
structure Schedule where
  minCtrl : Nat := 1
  guarantee : Nat := 0
  foldMargin : Nat := 0
  period : Nat := 100000
  phase : Nat := 0
  launch : Nat := 18000
  ident : Nat := 0
  clock : Nat := 16
  parts : List PartRec := []
  tasks : List TaskDesc := []
  plans : List Plan := []
  entries : List SlotEntry := []
  deriving DecidableEq, Repr, Inhabited

/-- States of an instance (R368). -/
inductive InstState where
  | idle | waiting | ready | running | preempted | done | ended | dropped
  deriving DecidableEq, Repr, Inhabited

/-- An instance: one task on one logical core for the frame computed (R366-R369); a pre-empted one holds its save slot, the
sequencer it had and the array job whose further chunks follow. -/
structure Inst where
  task : Nat := 0
  lcore : Nat := 0
  state : InstState := .idle
  slot : Option Nat := none
  saved : Option Seq := none
  cur : Option AJob := none
  overran : Bool := false
  deriving DecidableEq, Repr, Inhabited

/-- Scheduler (R363-R387): schedule in force and accepted, when and whether by a stage, instances, the slot of each logical core and the
instant of the pre-emption request of each physical core, retired cores, the plan, the throttle, Hollyhock's rotation (`turned`: its test of the frame has begun) and tests, overruns and the causes of capacity
doubt. `slotOf` is 65,535 while no entry of the core has begun. -/
structure Sched where
  active : Option Schedule := none
  accepted : Option Schedule := none
  atRestart : Bool := false
  acceptedAt : Nat := 0
  staged : Bool := false
  running_ : Bool := false
  hold : Bool := false
  insts : List Inst := []
  slotOf : Vector Nat 16 := Vector.replicate 16 65535
  preemptAt : Vector (Option Nat) 16 := Vector.replicate 16 none
  retired : Nat := 0
  plan : Nat := 0
  throttle : Nat := 0
  underSince : Option Nat := none
  aboveSince : Option Nat := none
  aboveRaised : Bool := false
  rotation : Nat := 0
  turned : Bool := false
  want : List Nat := []
  testing : List Nat := []
  claimed : List Nat := []
  targeted : List Nat := []
  overruns : List Bool := []
  doubt : List Nat := []
  quietThrottle : Nat := 0
  quietOverrun : Nat := 0
  deriving DecidableEq, Repr

end Sys2Proof.Machine
end

