-- ==== Sys2Proof/Machine/StExt.lean ====
section
/-! DEFINITION. Plain-data types of the external memories (R344-R360): DRAM with its row and check-group state, HyperRAM. -/

namespace Sys2Proof.Machine

/-- DRAM by device address, its words in uncorrectable error (DA ÷ 8), the open row of each bank as row + 1 and the check group
it holds as group + 1 (key (controller · 4 + channel) · 16 + bank), the controllers failed at run time, when each found
uncorrectable words; the HyperRAM pair as Marigold sees it with each device's bad 8-byte words and error instants; what the
last read answered. -/
structure Ext where
  dram : Mem := []
  bad : List (Nat × Bool) := []
  rows : List (Nat × Nat) := []
  groups : List (Nat × Nat) := []
  failed : Nat := 0
  ueAt : List (Nat × Nat) := []
  scrubbed : List (Nat × Nat) := []
  hyper : Mem := []
  hyperAt : Nat := 0
  hyperBad0 : List (Nat × Bool) := []
  hyperBad1 : List (Nat × Bool) := []
  hyperUeAt : List (Nat × Nat) := []
  lastRead : Option Bytes := none
  deriving DecidableEq, Repr

end Sys2Proof.Machine
end

