-- ==== Sys2Proof/Machine/StIngest.lean ====
section
/-! DEFINITION. Plain-data types of sensor heads, parser engines, motion compensation, pose run-ahead and the cell table. -/

namespace Sys2Proof.Machine

/-- Port states of R42. -/
inductive HeadState where
  | unused | awaiting | active | quarantine | bootstrap | bootstrapFailed | lost
  deriving DecidableEq, Repr, Inhabited

/-- A calibration record's body (R47). -/
structure CalRec where
  port : Nat := 0
  program : Nat := 0
  serial : Bytes := []
  t : List Int := [0, 0, 0]
  angles : List Int := [0, 0, 0]
  delay : Nat := 0
  ratedTime : Nat := 0
  ratedPulses : Nat := 0
  timeAtIssue : Nat := 0
  pulsesAtIssue : Nat := 0
  beams : Nat := 256
  table : List (Int × Int) := []
  deriving DecidableEq, Repr, Inhabited

/-- What a packet that executed TSP mode 2 left (R62): the packet, its count, the 2³² µs added so far, and its offset. -/
structure TspSample where
  pkt : Nat := 0
  vs : Nat := 0
  high : Nat := 0
  off : Int := 0
  deriving DecidableEq, Repr, Inhabited

/-- One sensor head's port (R41-R54, R62, R65). `corr` is the correction or, in bootstrap, the refinement; `corrBase` what it
is relative to; both are dx, dy, dz, roll, pitch, yaw. `prevExtr` is the extrinsic of the sweep that ended at the last boundary (R50),
`evalFrame` the last frame evaluated, `steady` says that the port kept its state for the whole frame that ended last (R49, R587),
`wearRaised` that EV 0x3009 has been raised for the paired head (R54). -/
structure Head where
  state : HeadState := .unused
  paired : Bytes := zeros 16
  presented : Bytes := zeros 16
  cal : Option CalRec := none
  calRaw : Bytes := []
  newCal : Option (CalRec × Bytes) := none
  needsAccept : Bool := false
  returning : Bool := false
  accepted : Bool := false
  convergedNow : Bool := false
  converged : Bool := true
  bootFrames : Nat := 0
  lowFrames : Nat := 0
  corrBase : List Int := [0, 0, 0, 0, 0, 0]
  corr : List Int := [0, 0, 0, 0, 0, 0]
  nextCorr : List Int := [0, 0, 0, 0, 0, 0]
  boundFrames : Nat := 0
  atBound : Bool := false
  opTimeNs : Nat := 0
  contamFrames : Nat := 0
  near : Nat := 0
  total : Nat := 0
  delivered : Bool := false
  notActive : Bool := false
  lastPacket : Nat := 0
  tsp : List TspSample := []
  prevExtr : Option (List Int) := none
  evalFrame : Nat := 0
  steady : Bool := false
  wearRaised : Bool := false
  sweeps : List Int := []
  lastMismatch : Option Nat := none
  deriving DecidableEq, Repr, Inhabited

/-- The point being staged on an engine (R57, R61), with the sensor-frame coordinates it was staged from. -/
structure Staged where
  sensor : List Int := []
  xyz : Option (Int × Int × Int) := none
  intensity : Nat := 0
  offset : Nat := 0
  ret : Nat := 0
  beam : Nat := 0
  rejected : Bool := false
  deriving DecidableEq, Repr, Inhabited

/-- A parser engine (R55-R62); `pkt` numbers its packet. -/
structure Engine where
  busy : Bool := false
  pkt : Nat := 0
  port : Fin 8 := 0
  words : List Nat := []
  pc : Nat := 0
  cursor : Nat := 0
  count : Nat := 0
  payload : Bytes := []
  stamp : Nat := 0
  regs : Vector (BitVec 32) 16 := Vector.replicate 16 0
  base : Int := 0
  azCorr : Int := 0
  staged : Staged := {}
  sweepMark : Bool := false
  deriving DecidableEq, Repr, Inhabited

/-- A packet in a queue block (R255-R263): its bytes, its receive stamp, and whether it was marked bad. -/
structure QPacket where
  data : Bytes := []
  stamp : Nat := 0
  err : Bool := false
  deriving DecidableEq, Repr, Inhabited

/-- A queue block (R255-R263): whole packets in order, and the congestion output. -/
structure Queue where
  pkts : List QPacket := []
  congested : Bool := false
  deriving DecidableEq, Repr, Inhabited

/-- An emitted point on its way (R61, R63, R68, R100): vehicle-frame coordinates at its own time, then compensated ones; the packet it
came in, the pose epoch of its compensation (R71), its number in the run-ahead log, the grids still to meet and those that took it. -/
structure Point where
  port : Nat := 0
  pkt : Nat := 0
  epoch : Nat := 0
  raw : Int × Int × Int := (0, 0, 0)
  xyz : Int × Int × Int := (0, 0, 0)
  time : Int := 0
  offset : Nat := 0
  intensity : Nat := 0
  ret : Nat := 0
  beam : Nat := 0
  extrap : Bool := false
  sat : Bool := false
  log : Bool := false
  num : Nat := 0
  prev : Bool := false
  insert : Bool := true
  grids : List Nat := []
  took : List Nat := []
  refused : Bool := false
  deriving DecidableEq, Repr, Inhabited

/-- A logged point of pose run-ahead (R71). -/
structure LogPoint where
  pt : Point := {}
  epoch : Nat := 0
  sweep : Nat := 0
  deriving DecidableEq, Repr, Inhabited

/-- A pose sample as accepted (R66). -/
structure PoseSample where
  time : Nat := 0
  pos : List Int := [0, 0, 0]
  quat : List Int := [1073741824, 0, 0, 0]
  vel : List Int := [0, 0, 0]
  ang : List Int := [0, 0, 0]
  deriving DecidableEq, Repr, Inhabited

/-- Ingest as a whole: loaded programs, engines and how many packets they have started, the compensation and insertion pipelines, poses
and run-ahead (R55-R77; `gapRaised` and `restRaised`: EV 0x3013 has been raised for the gap, and for the rest model, R70), and the
XOFF_N pin (R82). -/
structure Ingest where
  replay : List (Nat × QPacket) := []
  heads : Vector Head 8 := Vector.replicate 8 {}
  programs : Vector (List Nat) 8 := Vector.replicate 8 []
  engines : Vector Engine 16 := Vector.replicate 16 {}
  comp : List Point := []
  ins : List Point := []
  samples : List PoseSample := []
  epoch : Nat := 0
  gapRaised : Bool := false
  restRaised : Bool := false
  packets : Nat := 0
  log : List LogPoint := []
  logged : Nat := 0
  waitingSamples : List (Nat × PoseSample) := []
  withdraw : List (Point × Point) := []
  reinsert : List Point := []
  xoff : Bool := false
  deriving DecidableEq, Repr

/-- A cell entry (R92), the key split by R16; the sums as R92 gives them. -/
structure Entry where
  key : Nat := 0
  tag : Nat := 0
  extrap : Bool := false
  sat : Bool := false
  phase : Nat := 0
  count : Nat := 0
  sdx : Nat := 0
  sdy : Nat := 0
  sdz : Nat := 0
  sint : Nat := 0
  zmin : Int := 0
  zmax : Int := 0
  tfirst : Nat := 0
  sensors : Nat := 0
  returns : Nat := 0
  deriving DecidableEq, Repr, Inhabited

/-- States of a sweep's entries (R103). -/
inductive SweepState where | ingest | held | retiring
  deriving DecidableEq, Repr, Inhabited

/-- A sweep whose entries the table holds (R102, R103). -/
structure Sweep where
  tag : Nat := 0
  frame : Nat := 0
  state : SweepState := .ingest
  pref : Pose := {}
  rest : Bool := true
  deriving DecidableEq, Repr, Inhabited

/-- The ageing pass (R105-R109): the places still to visit in scan order, its phase and the two reference poses. -/
structure Ageing where
  active : Bool := false
  todo : List Nat := []
  phase : Nat := 0
  frame : Nat := 0
  from_ : Pose := {}
  to_ : Pose := {}
  identity : Bool := true
  deriving DecidableEq, Repr, Inhabited

/-- The cell table (R92-R110). A place is bucket · 8 + way, or 1,048,576 + stash slot, so that place order is scan order. -/
structure CellTable where
  entries : List (Nat × Option Entry) := []
  stashCount : List (Nat × Nat) := []
  counter : Nat := 0
  sweeps : List Sweep := []
  ageing : Ageing := {}
  snapArmed : Bool := false
  snapFrame : Nat := 0
  snapLen : Nat := 0
  snapServed : Nat := 0
  snapBusy : Bool := false
  deriving DecidableEq, Repr

end Sys2Proof.Machine
end

