-- ==== Sys2Proof/Machine/StNet.lean ====
section
/-! DEFINITION. Plain-data types of the Ethernet ports, the switch, the time unit and the result stream (R441-R474). -/

namespace Sys2Proof.Machine

/-- A port: link, the last Sync received with the interval it announced (R453), the interval of its own Syncs as a message-interval
request left it, whether its link delay was found above NEIGHBOR_THRESH, and the last Pdelay response's sending and receiving stamps
(R452). -/
structure PortSt where
  link : Bool := false
  lastSync : Option Nat := none
  masterInt : Int := -3
  ownInt : Option Int := none
  slow : Bool := false
  pdelay : Option (Nat × Nat) := none
  deriving DecidableEq, Repr, Inhabited

/-- The 802.1CB recovery function of a VLAN (R449): the newest sequence number, which of the last 32 came, and the last frame's
instant. -/
structure CbRec where
  vlan : Nat := 0
  newest : Nat := 0
  seen : List Nat := []
  last : Nat := 0
  deriving DecidableEq, Repr, Inhabited

/-- A flow meter's bucket in units of 1/8,000,000 byte and the instant up to which it was filled (R448). -/
structure Meter where
  port : Nat := 0
  filter : Nat := 0
  tokens : Nat := 0
  at_ : Nat := 0
  deriving DecidableEq, Repr, Inhabited

/-- A frame the module sends, as its port transmits it: egress class (R447), destination, VLAN ID (0 untagged, R446), R-TAG sequence
(R449), MACsec association and packet number (R450), on a HOST port the instant at which it starts, and either an IPv4 datagram's addresses, protocol and UDP ports with DF set and
checksums right (R443), or, with protocol 0, the EtherType's payload as it stands. -/
structure TxFrame where
  port : Nat := 8
  cls : Nat := 0
  dst : Bytes := []
  vlan : Nat := 0
  rtag : Option Nat := none
  sa : Option (Nat × Nat) := none
  at_ : Nat := 0
  etype : Nat := 0x0800
  proto : Nat := 17
  srcIp : Nat := 0
  dstIp : Nat := 0
  sport : Nat := 0
  dport : Nat := 0
  payload : Bytes := []
  deriving DecidableEq, Repr, Inhabited

/-- A HOST port's egress (R446, R447, R460): the entry of the gate list in force, whether the result window closes classes 0-2, the
addresses learned for replies as (IP, MAC), newest first (R443), the frames that wait for their gate in the queue, those whose writers are
held back for want of credits (R258, R263), until when the line is taken, and the Qav credits of classes 0 and 1 in 10⁻⁶ bit with their
instant (R446). -/
structure HostOut where
  entry : Nat := 0
  window : Bool := false
  macs : List (Nat × Bytes) := []
  waiting : List TxFrame := []
  held : List TxFrame := []
  free : Nat := 0
  credit : Vector Int 2 := Vector.replicate 2 0
  creditAt : Nat := 0
  deriving DecidableEq, Repr, Inhabited

/-- A result record as stored (R472). -/
structure Stored where
  frame : Nat := 0
  e : Nat := 0
  data : Bytes := []
  deriving DecidableEq, Repr, Inhabited

/-- A record that the supervisor retains in the system region (R472): its frame, E, its slot there and its length. -/
structure Retained where
  frame : Nat := 0
  e : Nat := 0
  slot : Nat := 0
  len : Nat := 0
  deriving DecidableEq, Repr, Inhabited

/-- The time unit (R453-R459): the Syncs in use as (CD50 clock, master's time) in ns, newest first; consecutive good and bad Syncs; whether
a Sync and one above OFFSET_LIMIT came last; the offset of the last Sync and the slew in 1/16 ns and 1/16 ns per s; the standby port;
whether a lock has happened and boundaries are permitted; when the unit started and when HOLDOVER began; PPS_OUT. -/
structure TimeUnit where
  syncs : List (Nat × Nat) := []
  good : Nat := 0
  bad : Nat := 0
  above : Bool := false
  offset : Int := 0
  slew : Int := 0
  standby : Option Nat := some 9
  locked : Bool := false
  permitted : Bool := false
  start : Int := 0
  holdover : Option Nat := none
  pps : Bool := false
  deriving DecidableEq, Repr

/-- The result stream (R460-R472): the body read for the frame computed, whether a poll found it bad, its window's generation at the last boundary, the record in flight, the
records retained, and the number of the latest frame launched. -/
structure Results where
  body : Option Bytes := none
  bad : Bool := false
  gen : Nat := 0
  record : Option Stored := none
  retained : List Retained := []
  latest : Nat := 0
  deriving DecidableEq, Repr

/-- The ports and the switch. `sent` are the frames the last sending command made the ports send, in order; `cbSeq` the next R-TAG
sequence number of UDP source ports 44100, 44101 and 44102 (R449). -/
structure Net where
  port : Vector PortSt 12 := Vector.replicate 12 {}
  host : Vector HostOut 2 := Vector.replicate 2 {}
  sent : List TxFrame := []
  cbSeq : List (Nat × Nat) := []
  cb : List CbRec := []
  meters : List Meter := []
  time : TimeUnit := {}
  results : Results := {}
  announce : Vector Nat 2 := Vector.replicate 2 0
  deriving DecidableEq, Repr

/-- A port's link is up. -/
def Net.link (n : Net) (p : Nat) : Bool := (n.port[p]?.getD {}).link

end Sys2Proof.Machine
end

