-- ==== Sys2Proof/Machine/StPeony.lean ====
section
/-! DEFINITION. Plain-data types of Peony (R311-R341): versions, pools, rings, requests, fills, exchange batches. -/

namespace Sys2Proof.Machine

/-- A version slot (R332-R335): state 0 EMPTY, 1 PREPARED, 2 LIVE, 3 SHADOW, 4 RETIRING; the first frame while LIVE or the last
while RETIRING; the four array bases. A SHADOW keeps the rows it does not share and whether it is sealed; a REPLICATED version its
rows in pool format, and `loading` until every inactive replica holds it. -/
structure TVersion where
  number : Nat := 0
  state : Nat := 0
  frame : Nat := 0
  bases : List Nat := [0, 0, 0, 0]
  own : List Nat := []
  sealed : Bool := false
  image : Bytes := []
  loading : Bool := false
  deriving DecidableEq, Repr, Inhabited

/-- A pool slot in use (R327-R329): owner position and pool row, the generation of the pool window, version slot and row index, reference bit,
the requests that pin it, and for each step parity the accumulation slot and the device that holds it (R337). -/
structure PoolSlot where
  pos : Nat := 0
  row : Nat := 0
  gen : Nat := 0
  ver : Nat := 0
  idx : Nat := 0
  ref : Bool := true
  pins : List Nat := []
  acc0 : Nat := 0xFFFFFFFF
  acc1 : Nat := 0xFFFFFFFF
  dev : Nat := 0
  deriving DecidableEq, Repr, Inhabited

/-- A request as taken from a ring (R323) and what has come of it (R326): handled (`done`), its status record written (`closed`);
a LOOKUP stays until its RELEASE. -/
structure PReq where
  id : Nat := 0
  core : Nat := 0
  part : Nat := 0
  op : Nat := 0
  seq : Nat := 0
  frame : Nat := 0
  count : Nat := 0
  iwin : Nat := 0
  rwin : Nat := 0
  ref : Nat := 0
  ioff : Nat := 0
  roff : Nat := 0
  step : Nat := 0
  ver : Nat := 0
  done : Bool := false
  closed : Bool := false
  code : Nat := 0
  distinct : Nat := 0
  resident : Nat := 0
  filled : Nat := 0
  dropped : Nat := 0
  map : List Nat := []
  deriving DecidableEq, Repr, Inhabited

/-- A fill in flight (R330): the request, its pool slot, the version slot and row, and whether another member answers it (R336). -/
structure PFill where
  req : Nat := 0
  pos : Nat := 0
  row : Nat := 0
  ver : Nat := 0
  idx : Nat := 0
  remote : Bool := false
  deriving DecidableEq, Repr, Inhabited

/-- An accumulation slot assigned for a parity (R337). -/
structure AccSlot where
  parity : Nat := 0
  idx : Nat := 0
  slot : Nat := 0
  ver : Nat := 0
  deriving DecidableEq, Repr, Inhabited

/-- An exchange batch in flight (R336): for each other member's device the indices asked for. -/
structure PBatch where
  step : Nat := 0
  asked : List (Nat × List Nat) := []
  deriving DecidableEq, Repr, Inhabited

/-- A request ring (R322): core, partition and window, generation of the window when it started, expected sequence and position. -/
structure PRing where
  core : Nat := 0
  part : Nat := 0
  win : Nat := 0
  gen : Nat := 0
  seq : Nat := 0
  pos : Nat := 0
  deriving DecidableEq, Repr, Inhabited

/-- The version slot that a core's replica window shows (R312, R334), under the generation of that window. -/
structure Loaded where
  core : Nat := 0
  slot : Nat := 0
  gen : Nat := 0
  deriving DecidableEq, Repr, Inhabited

/-- A replica of a version slot that a core's window does not show at present: the other entry of R334 step 3. -/
structure Parked where
  core : Nat := 0
  slot : Nat := 0
  data : Bytes := []
  deriving DecidableEq, Repr, Inhabited

/-- A table. `state` is TABLE_STATE; `hands` the clock hand per owner position; `fills` the misses of its LOOKUPs in order, of which at most
4,096 over all tables are in flight (R330); `loaded` and `parked` the replicas of a REPLICATED one. -/
structure PTable where
  state : Nat := 0
  vers : Vector TVersion 3 := Vector.replicate 3 {}
  slots : List PoolSlot := []
  hands : List (Nat × Nat) := []
  reqs : List PReq := []
  fills : List PFill := []
  accs : List AccSlot := []
  accNext : List (Nat × Nat) := []
  batches : List PBatch := []
  switchTo : Option Nat := none
  loaded : List Loaded := []
  parked : List Parked := []
  deriving DecidableEq, Repr, Inhabited

/-- A block under way to Peony's stop (R287): the source device, whether it is an answer, the number its next message carries, its bytes. -/
structure PBlock where
  dev : Nat := 0
  answer : Bool := false
  next : Nat := 1
  data : Bytes := []
  deriving DecidableEq, Repr, Inhabited

/-- Peony. `credits` are those of the windows it may reach (R241); `ended` are the (core, partition, frame) of ended tasks (R341); `fills`, `drops` and `degraded` count the frame being computed (OD 0x8F00). -/
structure Peony where
  tables : Vector PTable 16 := Vector.replicate 16 {}
  rings : List PRing := []
  blocks : List PBlock := []
  credits : List Credit := []
  nextId : Nat := 1
  ended : List (Nat × Nat × Nat) := []
  fills : Nat := 0
  drops : Nat := 0
  degraded : Nat := 0
  deriving DecidableEq, Repr

end Sys2Proof.Machine
end

