-- ==== Sys2Proof/Machine/StPower.lean ====
section
/-! DEFINITION. Plain-data types of supply, power states and start-up (R546-R565), and of DoIP and UDS (R542-R544). -/

namespace Sys2Proof.Machine

/-- Supply and power (R546-R561): the instants at which HOLD, HIGH, a dip and STANDBY's conditions began, the band FULL's own, the
wake pins, what a shutdown still owes, how far start-up has come; the time in RUN that OPERATING_TIME has not counted yet;
whether a power failure ended the last run (R557), whether a die sensor is critical (R564), whether HOST0 has sent its wake-up pulse (R451). -/
structure Power where
  holdAt : Option Nat := none
  resumeAt : Option Nat := none
  dipAt : Option Nat := none
  highAt : Option Nat := none
  fullAt : Option Nat := none
  idleAt : Option Nat := none
  shutAt : Option Nat := none
  kl15 : Bool := true
  wakeLow : Bool := false
  wakeWaits : Bool := false
  highEnded : Bool := false
  booted : Bool := false
  supervisor : Bool := false
  startedAt : Nat := 0
  trained : Bool := false
  mainReady : Bool := false
  lateRaised : Bool := false
  coolantHot : Bool := false
  overNow : Bool := false
  bootRecords : Nat := 0
  runNs : Nat := 0
  failed : Bool := false
  dieHot : Bool := false
  pulse : Bool := false
  deriving DecidableEq, Repr

/-- A DoIP connection (R542, R543): routed or not, the tester's address, extended session, WORKSHOP, the seed and the last request. -/
structure Doip where
  routed : Bool := false
  tester : Nat := 0
  extended : Bool := false
  workshop : Bool := false
  seed : Option Nonce := none
  last : Nat := 0
  deriving DecidableEq, Repr, Inhabited

end Sys2Proof.Machine
end

