-- ==== Sys2Proof/Machine/StSafety.lean ====
section
/-! DEFINITION. Plain-data types of Foxglove, Marigold and Hollyhock (R405-R435). -/

namespace Sys2Proof.Machine

/-- A check-list entry (R411). -/
structure CheckObj where
  x : Int := 0
  y : Int := 0
  z : Int := 0
  length : Nat := 0
  width : Nat := 0
  height : Nat := 0
  heading : Int := 0
  vx : Int := 0
  vy : Int := 0
  cls : Nat := 0
  score : Nat := 0
  core : Nat := 0
  index : Nat := 0
  deriving DecidableEq, Repr, Inhabited

/-- A copy's check list for the frame computed (R412): not READY yet, read and good, or bad. -/
inductive CheckList where
  | none
  | bad
  | good (objs : List CheckObj)
  deriving DecidableEq, Repr, Inhabited

/-- A point that Marigold's interpreter has taken (R422, R423): position in 1/65,536 m in the vehicle frame as captured, its time, its
packet's receive stamp, and whether it lies within RANGE of the head's origin. -/
structure MariPoint where
  x : Int := 0
  y : Int := 0
  z : Int := 0
  time : Int := 0
  stamp : Nat := 0
  inRange : Bool := true
  deriving DecidableEq, Repr, Inhabited

/-- What Marigold's interpreter keeps of a designated port (R422): the head's serial as IDN gave it and the mode-2 packets of TSP; the
packets it has read. -/
structure MariHead where
  serial : Bytes := zeros 16
  tsp : List TspSample := []
  packets : Nat := 0
  deriving DecidableEq, Repr, Inhabited

/-- A cluster of Marigold's list (R424): x_min, x_max, y_min, y_max, z_min, z_max in 1/64 m, its obstacle points, IN_PATH. -/
structure MCluster where
  box : List Int := [0, 0, 0, 0, 0, 0]
  points : Nat := 0
  inPath : Bool := false
  deriving DecidableEq, Repr, Inhabited

/-- Marigold's list of a frame (R424). -/
structure MList where
  frame : Nat := 0
  dm : Nat := 0xFFFFFFFF
  clusters : List MCluster := []
  deriving DecidableEq, Repr, Inhabited

/-- The outcome of a check: whether it passed, the cores involved and the first failing pair's differences (R414-R416). -/
structure CheckResult where
  pass : Bool := true
  cores : Nat := 0
  diff : Bytes := []
  deriving DecidableEq, Repr, Inhabited

/-- Foxglove, Marigold and Hollyhock: the lists, checks and verdict of the frame computed; the disagreements of the last 10 frames as
(age, cores) and the frames an open fault window has left (R419); the generations of the list windows at the last boundary (R412); cores quarantined at the next boundary (R420); tests whose result
decides whether a disagreement was transient (R421); Foxglove's inputs and its drive of FAULT_N (R427-R431); Marigold's missing
lists, its interpreter's state of each designated port and the points it holds, restart instants and the frames left for a self-test (R416, R425); whether a controller failed in RUN (R427). -/
structure Safety where
  listA : CheckList := .none
  listB : CheckList := .none
  mari : Option MList := none
  mariSeen : Bool := false
  mariDue : Bool := false
  copyCheck : Option CheckResult := none
  plausCheck : Option CheckResult := none
  verdict : Option Nat := none
  hist : List (Nat × Nat) := []
  windowLeft : Nat := 0
  genA : Nat := 0
  genB : Nat := 0
  quarNext : Nat := 0
  transient : List (List Nat) := []
  foxAsserts : Bool := true
  lineSec : Bool := false
  linePow : Bool := false
  kick : Bool := false
  lastKick : Nat := 0
  launchLine : Bool := false
  launchedFrame : Nat := 0
  missing : Nat := 0
  mariHeads : Vector MariHead 2 := Vector.replicate 2 {}
  mariPts : List MariPoint := []
  restartAt : Nat := 0
  restarts : List Nat := []
  selfTestIn : Option Nat := none
  testSeen : Nat := 0
  ctrlFailed : Bool := false
  deriving DecidableEq, Repr

end Sys2Proof.Machine
end

