-- ==== Sys2Proof/Machine/StSec.lean ====
section
/-! DEFINITION. Plain-data types of the security block: fuses, life cycle, components, staging, recovery, SAs, DoIP. -/

namespace Sys2Proof.Machine

/-- An installed component as the directory names it (R358, R507, R517). -/
structure Component where
  type : Nat := 0
  inst : Nat := 0
  issue : Nat := 0
  epoch : Nat := 0
  seq : Nat := 0
  header : Bytes := []
  keyRec : Bytes := []
  payload : Bytes := []
  trailer : Bytes := []
  damaged : Bool := false
  deriving DecidableEq, Repr, Inhabited

/-- A directory copy in flash (R357, R358): its sequence number and the components it names. -/
structure Directory where
  seq : Nat := 0
  parts : List Component := []
  deriving DecidableEq, Repr, Inhabited

/-- The stage of R535-R537: what it holds, whether the directory has been written, and the boundary instant B. -/
structure Stage where
  parts : List Component := []
  written : Bool := false
  writtenAt : Nat := 0
  effective : Bool := false
  deriving DecidableEq, Repr, Inhabited

/-- A MACsec SA (R541). -/
structure Sa where
  port : Nat := 8
  tx : Bool := true
  an : Nat := 0
  sci : Nat := 0
  ssci : Nat := 0
  salt : Bytes := []
  pn : Nat := 0
  key : Bytes := []
  transmit : Bool := false
  warned : Bool := false
  deriving DecidableEq, Repr, Inhabited

/-- Primrose's network recovery (R539, R540): the reason, the owner of the transfer and what it has received. -/
structure Recovery where
  active : Bool := false
  reason : Nat := 0
  owner : Option Nat := none
  total : Nat := 0
  crc : Nat := 0
  data : Bytes := []
  last : Nat := 0
  deriving DecidableEq, Repr, Inhabited

/-- The security and boot block (R512-R541). `dirs` are the directory copies in flash and `dirUsed` the one in force (R358), whose components as the module has them are `comps`. `base` is the base life-cycle state in R505's codes; fuses as R512 and R519. -/
structure Sec where
  revoke0 : Bool := false
  provisionedFuse : Bool := true
  decommissionedFuse : Bool := false
  dusOff : Bool := false
  thermometer : List (Nat × Nat) := []
  base : Nat := 1
  lcRecord : Bytes := []
  effective : Nat := 1
  held : Bool := false
  wiping : Bool := false
  wipeTarget : Option Nat := none
  m : Vector Bytes 8 := Vector.replicate 8 (zeros 32)
  fails : Nat := 0
  lockoutEnd : Nat := 0
  debugOpen : Bool := false
  tampered : Bool := false
  comps : List Component := []
  floors : List (Nat × Nat) := []
  stage : Stage := {}
  gateAt : Nat := 0
  recovery : Recovery := {}
  sas : List Sa := []
  reactivateAt : Option Nat := none
  dirs : Vector Directory 2 := Vector.replicate 2 {}
  dirUsed : Fin 2 := 0
  deriving DecidableEq, Repr

end Sys2Proof.Machine
end

