-- ==== Sys2Proof/Machine/State.lean ====
section
/-! DEFINITION. The block's state: everything the spec gives the module, as plain data, and the queue of waiting commands. -/

namespace Sys2Proof.Machine

/-- Why a command stops with a fault. No meaning of this model raises one: every error the spec describes is a next state. -/
inductive Fault where
  /-- Raised by nothing; kept so that the type has a member. Safe. -/
  | none
  deriving DecidableEq, Repr

/-- Why a command is refused. -/
inductive Refusal where
  /-- Raised by an arm of `exec` whose command has no meaning yet, with the command's mnemonic. Safe. -/
  | notModelled (mnemonic : String)
  deriving DecidableEq, Repr

/-- The module. `pending` is the queue of waiting commands, first in, first out; `freeCtr` counts the free values drawn (the
model's own field, log entry 2). -/
structure State where
  dict : Dict := {}
  log : EvLog := {}
  hap : Hap := {}
  frame : FrameSt := {}
  q : Vector Queue 24 := Vector.replicate 24 {}
  ing : Ingest := {}
  cells : CellTable := {}
  cores : Vector Core 16 := Vector.replicate 16 {}
  fab : Fabric := {}
  books : Books := {}
  sched : Sched := {}
  net : Net := {}
  ext : Ext := {}
  peony : Peony := {}
  sec : Sec := {}
  safety : Safety := {}
  power : Power := {}
  doip : Vector Doip 2 := Vector.replicate 2 {}
  freeCtr : Nat := 0
  pending : List Instr := []
  deriving DecidableEq, Repr

/-- The module right after reset (R223, R248, R479, R504, R551). -/
def State.reset : State := {}

end Sys2Proof.Machine
end

