-- ==== Sys2Proof/Machine/Ops.lean ====
section
/-! DEFINITION. The named operations every meaning shares: the dictionary's objects, counters, events, frame causes and the
path a write of a command object takes. -/

namespace Sys2Proof.Machine

/-- The outcome of a command. -/
abbrev Out := Host.Outcome State Fault Refusal

/-- The value of an object in effect. -/
def State.obj (s : State) (key : Nat) : OdVal := Sparse.get Od.dflt s.dict.vals key

/-- The number an object holds. -/
def State.int (s : State) (key : Nat) : Int := (s.obj key).toInt

/-- The number an unsigned object holds. -/
def State.num (s : State) (key : Nat) : Nat := (s.int key).toNat

/-- The value that governs the frame computed (R478): its sweep began before the last boundary's writes. -/
def State.objC (s : State) (key : Nat) : OdVal := ((s.dict.prev.find? (fun x => x.1 == key)).map (·.2)).getD (s.obj key)

/-- The number that governs the frame computed. -/
def State.numC (s : State) (key : Nat) : Nat := (s.objC key).toInt.toNat

/-- A BOOL object is set. -/
def State.flag (s : State) (key : Nat) : Bool := s.num key != 0

/-- The bytes an object holds. -/
def State.oct (s : State) (key : Nat) : Bytes := (s.obj key).toBytes

/-- Give an object a value. -/
def State.setObj (s : State) (key : Nat) (v : OdVal) : State :=
  { s with dict := { s.dict with vals := Sparse.put Od.dflt s.dict.vals key v } }

/-- Give an object a number. -/
def State.setNum (s : State) (key : Nat) (v : Int) : State := s.setObj key (.num v)

/-- Give an object bytes. -/
def State.setOct (s : State) (key : Nat) (b : Bytes) : State := s.setObj key (.oct b)

/-- Give an object a value that flash holds as well, from now on (R479). -/
def State.store (s : State) (key : Nat) (v : OdVal) : State :=
  { s with dict := { s.dict with vals := Sparse.put Od.dflt s.dict.vals key v, saved := Sparse.put Od.dflt s.dict.saved key v } }

/-- The last number the type of an object can hold; 2⁶⁴ − 1 where the object does not exist. -/
def Od.limit (key : Nat) : Nat :=
  match Od.find (key / 256) (key % 256) with
  | some r => match r.ty.size with
    | some n => 2 ^ (8 * n) - 1
    | none => 2 ^ 64 - 1
  | none => 2 ^ 64 - 1

/-- A counter's value once the exact count is `v`; past the end of its type it is a free value (log entry 14). -/
def Od.counter (key v : Nat) : Nat :=
  if v ≤ Od.limit key then v else Config.counterPast key v % (Od.limit key + 1)

/-- Add to a counter. -/
def State.bump (s : State) (key : Nat) (n : Nat := 1) : State :=
  s.setNum key (Od.counter key (s.num key + n))

/-- Set a bit of a mask object. -/
def State.setMask (s : State) (key bit : Nat) : State := s.setNum key (setBit (s.num key) bit)

/-- A RESTART command object was written 1: it acts at the next restart. -/
def State.arm (s : State) (key : Nat) : State :=
  { s with dict := { s.dict with armed := if s.dict.armed.contains key then s.dict.armed else s.dict.armed ++ [key] } }

/-- Time goes on to the instant `t` (instants of commands never take it back). -/
def State.at (s : State) (t : Nat) : State :=
  { s with frame := { s.frame with now := Nat.max s.frame.now t } }

/-- Draw the next free value (log entry 2). -/
def State.fresh (s : State) : Nat := (Config.fresh s.freeCtr).toNat

/-- Count a free value as drawn. -/
def State.drawn (s : State) : State := { s with freeCtr := s.freeCtr + 1 }

/-- The next sequence number of the event log (R503). -/
def EvLog.next (l : EvLog) : Nat := (l.seq + 1) % 2 ^ 32

/-- Take one event into the log: it always takes a number; the frame's first 64 are kept, EV 0x7808 as the 65th (R359). An
asserting event asserts SRV_N and is listed among the first 16 (R504) and the DTCs (R544). -/
def EvLog.push (l : EvLog) (r : EventRec) (srv : Bool) : EvLog :=
  let r := { r with seq := l.next }
  { l with
    seq := l.next
    staged := if l.inFrame < 64 ∨ r.code = 0x7808 then l.staged ++ [r] else l.staged
    inFrame := if r.code = 0x7808 then l.inFrame else l.inFrame + 1
    overflowed := l.overflowed || r.code == 0x7808
    srv := l.srv || srv
    srvEvents := if srv ∧ l.srvEvents.length < 16 then l.srvEvents ++ [r.code] else l.srvEvents
    dtcs := if srv ∧ r.code ∉ l.dtcs then l.dtcs ++ [r.code] else l.dtcs }

/-- The record of an event as it arises (R503). -/
def State.record (s : State) (code inst value : Nat) (srv : Bool) : EventRec :=
  { code := code
    inst := inst
    flags := (if srv then 1 else 0) + (if s.num (od 0x2000 1) = 2 then 0 else 2)
    seq := s.log.next
    time := s.frame.now
    frame := if s.frame.run then s.frame.ing.n else 0
    value := value }

/-- An event reaches the sessions that subscribed to its page (R498, R499). -/
def Hap.notify (h : Hap) (r : EventRec) : Hap :=
  { h with sessions := h.sessions.map (fun x =>
      match x.evMask with
      | some m => if bitAt m (r.code / 4096) then { x with evQueue := x.evQueue ++ [r] } else x
      | none => x) }

/-- Raise one event. -/
def State.raiseOne (s : State) (code inst value : Nat) (srv : Bool) : State :=
  { s with log := s.log.push (s.record code inst value srv) srv
           hap := s.hap.notify (s.record code inst value srv) }

/-- Raise an event; before RUN there is no frame to count in, and the first one lost in a frame raises EV 0x7808 too, and each one lost is counted in OD 0x7900.05 (R359). -/
def State.raise (s : State) (code : Nat) (inst : Nat := 0xFF) (value : Nat := 0) (srv : Bool := false) : State :=
  let s1 := s.raiseOne code inst value srv
  if !s.frame.run then { s1 with log := { s1.log with inFrame := 0 } }
  else if s.log.inFrame < 64 then s1
  else
    let s2 := s1.bump (od 0x7900 5)
    if s.log.overflowed then s2 else s2.raiseOne 0x7808 0xFF (s2.num (od 0x7900 5)) false

/-- Count in an object and raise an event that carries the count. -/
def State.countRaise (s : State) (key code : Nat) (inst : Nat := 0xFF) (srv : Bool := false) : State :=
  let s1 := s.bump key
  s1.raise code inst (s1.num key) srv

/-- The event has been raised for the frame being ingested. -/
def State.didIng (s : State) (code inst : Nat) : Bool := s.frame.ing.once.contains (code, inst)

/-- Raise an event at most once in the frame being ingested. -/
def State.raiseIng (s : State) (code : Nat) (inst : Nat := 0xFF) (value : Nat := 0) (srv : Bool := false) : State :=
  if s.didIng code inst then s
  else
    let s1 := s.raise code inst value srv
    { s1 with frame := { s1.frame with ing := { s1.frame.ing with once := (code, inst) :: s1.frame.ing.once } } }

/-- Raise an event at most once for the frame being computed. -/
def State.raiseComp (s : State) (code : Nat) (inst : Nat := 0xFF) (value : Nat := 0) (srv : Bool := false) : State :=
  if s.frame.comp.once.contains (code, inst) then s
  else
    let s1 := s.raise code inst value srv
    { s1 with frame := { s1.frame with comp := { s1.frame.comp with once := (code, inst) :: s1.frame.comp.once } } }

/-- The frame number after one (R27). -/
def nextFrame (n : Nat) : Nat := if 2 ^ 32 - 1 ≤ n then 1 else n + 1

/-- Update the frame being ingested. -/
def State.modIng (s : State) (f : FrameCtx → FrameCtx) : State :=
  { s with frame := { s.frame with ing := f s.frame.ing } }

/-- Update the frame being computed. -/
def State.modComp (s : State) (f : FrameCtx → FrameCtx) : State :=
  { s with frame := { s.frame with comp := f s.frame.comp } }

/-- The most severe status holds (R37): OK 0, DEGRADED 1, INVALID 3, FALLBACK 4 (R470). -/
def FrameCtx.worse (c : FrameCtx) (st : Nat) : FrameCtx := { c with status := Nat.max c.status st }

/-- The seven cause words of R464, in its order. -/
inductive CauseWord where
  | ingest | cells | books | peony | sched | safety | time
  deriving DecidableEq, Repr

/-- A frame is DEGRADED with one cause (R37). -/
def FrameCtx.cause (c : FrameCtx) (w : CauseWord) (bit : Nat) : FrameCtx :=
  let c := c.worse 1
  match w with
  | .ingest => { c with cIngest := setBit c.cIngest bit }
  | .cells => { c with cCells := setBit c.cCells bit }
  | .books => { c with cBooks := setBit c.cBooks bit }
  | .peony => { c with cPeony := setBit c.cPeony bit }
  | .sched => { c with cSched := setBit c.cSched bit }
  | .safety => { c with cSafety := setBit c.cSafety bit }
  | .time => { c with cTime := setBit c.cTime bit }

/-- The frame being ingested is DEGRADED with a cause. -/
def State.causeIng (s : State) (w : CauseWord) (bit : Nat) : State := s.modIng (fun c => c.cause w bit)

/-- The frame being computed is DEGRADED with a cause. -/
def State.causeComp (s : State) (w : CauseWord) (bit : Nat) : State := s.modComp (fun c => c.cause w bit)

/-- What a unit of the main channel does while its clock runs; while the band is HOLD, CD00 to CD17 stand (R548). -/
def State.clocked (s : State) (f : State → State) : State := if s.power.holdAt.isSome then s else f s

/-- The gPTP day of the present instant (R514). -/
def State.day (s : State) : Nat := s.frame.now / 86400000000000

/-- UPDATE_GATE reads 1: from a write of 1 until a write of 0, or until GATE_TIMEOUT has passed since the last write (R534). -/
def State.updateGate (s : State) : Bool := s.flag (od 0xC000 1) && decide (s.frame.now < s.sec.gateAt + 1000000 * s.num (od 0xC000 2))

/-- A closed update gate refuses in RUN what R534 lists. -/
def State.gateShut (s : State) : Bool := s.frame.run && !s.updateGate

/-- µs since the wake or the restart that this start-up began with (R562). -/
def State.sinceWake (s : State) : Nat := (Int.fdiv ((s.frame.now : Int) - s.net.time.start) 1000).toNat % 2 ^ 32

/-- The session an ID names. -/
def State.session (s : State) (id : Nat) : Option Session := s.hap.sessions.find? (fun x => x.id == id)

/-- Update a session. -/
def State.modSession (s : State) (id : Nat) (f : Session → Session) : State :=
  { s with hap := { s.hap with sessions := modifyFirst (fun x => x.id == id) f s.hap.sessions } }

/-- The session's level, as a rank (R477). -/
def Level.rank : Level → Nat
  | .open => 0 | .workshop => 1 | .vendor => 2

/-- Record the status a command object's writer is answered with (R486, R493). -/
def State.answer (s : State) (st : Nat) : State := { s with hap := { s.hap with lastStatus := st } }

/-- The status of a value that its object cannot take (R486): RANGE for a number, TYPE for bytes of another length. -/
def OdVal.badStatus : OdVal → Nat
  | .num _ => 5
  | .oct _ => 4

/-- A write of a command object (R476, R477, R493, R586): the session must exist, the object must exist, the module not be
DECOMMISSIONED (R525), the level suffice, the value lie in the object's range, and the object's own check pass; then the effect happens,
and every case is answered with its status. -/
def State.command (s : State) (w : Writer) (idx sub : Nat) (v : OdVal) (check : State → Nat)
    (effect : State → State) : State :=
  let s := s.at w.t
  match s.session w.session with
  | none => s.answer 9
  | some x =>
    match Od.find idx sub with
    | none => s.answer 1
    | some r =>
      if s.sec.effective = 6 then s.answer 11
      else if r.acc = .ro then s.answer 2
      else if x.level.rank < r.level.rank then s.answer 3
      else if !r.inRange v then s.answer v.badStatus
      else if check s ≠ 0 then s.answer (check s)
      else (effect s).answer 0

/-- A command passes the shared checks of a command object. -/
def State.mayCommand (s : State) (w : Writer) (idx sub : Nat) (v : OdVal) : Bool :=
  match s.session w.session, Od.find idx sub with
  | some x, some r => s.sec.effective != 6 && r.acc != .ro && decide (r.level.rank ≤ x.level.rank) && r.inRange v
  | _, _ => false

end Sys2Proof.Machine
end

