-- ==== Sys2Proof/Machine/Mesh.lean ====
section
/-! DEFINITION. The mesh (R264-R269): flits, router inputs and crossing queues with their credits, routing, arbitration and one fabric cycle.
Ports: 0 local, 1 north, 2 east, 3 south, 4 west; 5 is the crossing queue from a stop's unit to its router, 6 the one back. -/

namespace Sys2Proof.Machine

/-- The class of a message type (R271). -/
def classOf (ty : Nat) : Nat :=
  if ty ≤ 2 ∨ ty = 7 then 0
  else if ty ≤ 5 then 1
  else if ty = 6 ∨ ty = 11 ∨ ty = 12 then 3
  else 2

/-- Data flits of a message: ⌈bytes ÷ 32⌉ (R271). -/
def msgFlits (m : Msg) : Nat := ceilDiv m.data.length 32

/-- The core a number names, modulo 16. -/
def coreNo (n : Nat) : Fin 16 := Fin.ofNat 16 n

/-- The stop of a core (R20, R264). -/
def coreStop (c : Nat) : Nat := 5 * (c / 4) + c % 4

/-- The core at a stop, if a core stands there. -/
def stopCore (st : Nat) : Option (Fin 16) :=
  if st < 20 ∧ st % 5 < 4 then some (coreNo (4 * (st / 5) + st % 5)) else none

/-- Stops without a core: SW, FE, PE, SI, SV (R264). -/
def stopFE : Nat := 9
/-- Peony's stop. -/
def stopPE : Nat := 14

/-- The module's own device ID (R21). -/
def State.device (s : State) : Nat := s.num (od 0x0001 1)

/-- A message for a stop of the module waits at its source stop (R265, R269). -/
def State.post (s : State) (ty : Nat) (m : Msg) : State := { s with fab := { s.fab with mesh := s.fab.mesh ++ [(ty, m)] } }

/-- Flits a message takes on a link: 1 to 4 (R264, R271). -/
def meshFlits (m : Msg) : Nat := Nat.max 1 (Nat.min 4 (msgFlits m))

/-- Key of a buffer or an output. -/
def laneKey (stop port cls : Nat) : Nat := 32 * stop + 4 * port + cls

/-- An empty buffer. -/
def noFlits : Nat → List Flit := fun _ => []

/-- An output with all its credits. -/
def freshGate : Nat → Gate := fun _ => {}

/-- The flits of a buffer. -/
def Fabric.lane (f : Fabric) (k : Nat) : List Flit := Sparse.get noFlits f.lanes k

/-- Put a buffer. -/
def Fabric.setLane (f : Fabric) (k : Nat) (l : List Flit) : Fabric := { f with lanes := Sparse.put noFlits f.lanes k l }

/-- An output's state for one class. -/
def Fabric.gate (f : Fabric) (k : Nat) : Gate := Sparse.get freshGate f.gates k

/-- Put an output's state. -/
def Fabric.setGate (f : Fabric) (k : Nat) (g : Gate) : Fabric := { f with gates := Sparse.put freshGate f.gates k g }

/-- The stop of the module that a message goes to: SW where its destination is another device (R265). -/
def meshGoal (dev : Nat) (m : Msg) : Nat := if m.ddev = dev then m.dstop else 4

/-- The stop where a message enters the mesh: SW where it came from another device (R265). -/
def meshStart (dev : Nat) (m : Msg) : Nat := if m.sdev = dev then m.sstop else 4

/-- The output that a message for stop `goal` takes at a stop (R265): along the row first, then along the column. -/
def hop (stop goal : Nat) : Nat :=
  if stop % 5 < goal % 5 then 2
  else if goal % 5 < stop % 5 then 4
  else if stop / 5 < goal / 5 then 3
  else if goal / 5 < stop / 5 then 1
  else 0

/-- The buffer that an output fills: stop and port. -/
def outTo (stop out : Nat) : Nat × Nat :=
  match out with
  | 0 => (stop, 6)
  | 1 => (stop - 5, 3)
  | 2 => (stop + 1, 4)
  | 3 => (stop + 5, 1)
  | 4 => (stop - 1, 2)
  | _ => (stop, 0)

/-- The output that fills a buffer, to which its free slots are credits. -/
def outOf (stop port : Nat) : Nat × Nat :=
  match port with
  | 0 => (stop, 5)
  | 1 => (stop - 5, 3)
  | 2 => (stop + 1, 4)
  | 3 => (stop + 5, 1)
  | 4 => (stop - 1, 2)
  | _ => (stop, 0)

/-! Arbitration (R267). -/

/-- The inputs of an output, those after the last one it took first: round robin. -/
def inputsOf (out turn : Nat) : List Nat := if out = 5 then [5] else (List.range 5).map (fun i => (turn + 1 + i) % 5)

/-- The flit that heads an input and may leave by an output: a header that goes there, or, once a message has begun to leave, its next flit. -/
def Fabric.headFor (f : Fabric) (dev stop out cls : Nat) (lock : Option Nat) (p : Nat) : Option Flit :=
  match f.lane (laneKey stop p cls) with
  | [] => none
  | x :: _ =>
    if lock = some p then some x
    else if lock = none ∧ x.n = 0 ∧ (out = 5 ∨ hop stop (meshGoal dev x.msg) = out) then some x
    else none

/-- The input an output would take for a class, with its head flit: only where it holds a credit (R266). -/
def Fabric.candidate (f : Fabric) (dev stop out cls : Nat) : Option (Nat × Flit) :=
  let g := f.gate (laneKey stop out cls)
  if g.credits = 0 then none
  else (inputsOf out g.turn).findSome? (fun p => (f.headFor dev stop out cls g.lock p).map (fun x => (p, x)))

/-- What an output sends in a fabric cycle, as (class, input, flit): a class whose head has waited 64 cycles ranks above those whose has not; else
CTRL, RSP, COLL, REQ (R267). -/
def Fabric.choose (f : Fabric) (dev stop out : Nat) : Option (Nat × Nat × Flit) :=
  let cs := [3, 1, 2, 0].filterMap (fun k => (f.candidate dev stop out k).map (fun y => (k, y.1, y.2)))
  (cs.find? (fun y => decide (64 ≤ y.2.2.age))).orElse (fun _ => cs.head?)

/-- A credit comes back to an output (R266); a count never passes 8. -/
def Fabric.credited (f : Fabric) (k n : Nat) : Fabric :=
  f.setGate k { f.gate k with credits := Nat.min 8 ((f.gate k).credits + n) }

/-- A chosen flit moves over its link: out of its input, whose slot is a credit to the router before, into the buffer beyond. -/
def Fabric.move (f : Fabric) (stop out : Nat) (y : Nat × Nat × Flit) : Fabric :=
  let (cls, p, x) := y
  let k := laneKey stop p cls
  let to_ := outTo stop out
  let kt := laneKey to_.1 to_.2 cls
  let from_ := outOf stop p
  let g := laneKey stop out cls
  let f := f.setLane k ((f.lane k).drop 1)
  let f := f.setLane kt (f.lane kt ++ [{ x with age := 0 }])
  let f := f.setGate g { f.gate g with credits := (f.gate g).credits - 1, lock := if x.last then none else some p, turn := p }
  if p = 5 then f else f.credited (laneKey from_.1 from_.2 cls) 1

/-- The outputs that the head flits of the mesh wait for. -/
def Fabric.wanted (f : Fabric) (dev : Nat) : List (Nat × Nat) :=
  (f.lanes.filterMap (fun y => match y.2 with
    | [] => none
    | x :: _ =>
      let stop := y.1 / 32
      let port := y.1 % 32 / 4
      if port = 5 then some (stop, 5) else if port = 6 then none else some (stop, hop stop (meshGoal dev x.msg)))).eraseDups

/-! Messages enter and leave. -/

/-- The flits of a message. -/
def flitsOf (ty : Nat) (m : Msg) : List Flit :=
  (List.range (meshFlits m)).map (fun i => { ty := ty, msg := m, n := i, last := i + 1 == meshFlits m })

/-- Messages that wait at their sources enter their stop's crossing queue whole, in order within a class, where they fit into its 8 words (R260,
R263, R268). A message that names no stop leaves the module's fabric (log entry 168). -/
def Fabric.inject (f : Fabric) (dev : Nat) : Fabric :=
  (f.mesh.foldl (fun (o : Fabric × List Nat) y =>
    let k := laneKey (meshStart dev y.2) 5 (classOf y.1)
    if 25 ≤ meshGoal dev y.2 then o
    else if o.2.contains k ∨ 8 < (o.1.lane k).length + meshFlits y.2 then ({ o.1 with mesh := o.1.mesh ++ [y] }, k :: o.2)
    else (o.1.setLane k (o.1.lane k ++ flitsOf y.1 y.2), o.2)) ({ f with mesh := [] }, [])).1

/-- The heads that a cycle left standing have waited one cycle more. -/
def Fabric.aged (f : Fabric) (moved : List Nat) : Fabric :=
  { f with lanes := f.lanes.map (fun y => if moved.contains y.1 then y else match y.2 with
      | [] => y
      | x :: l => (y.1, { x with age := Nat.min 64 (x.age + 1) } :: l)) }

/-- One fabric cycle: every output sends at most one flit, each by what the mesh held before the cycle (R264-R267). -/
def Fabric.tick (dev : Nat) (f : Fabric) : Fabric :=
  let f := f.inject dev
  let picks := (f.wanted dev).filterMap (fun y => (f.choose dev y.1 y.2).map (fun z => (y.1, y.2, z)))
  let f' := picks.foldl (fun g y => g.move y.1 y.2.1 y.2.2) f
  f'.aged (picks.map (fun y => laneKey y.1 y.2.2.2.1 y.2.2.1))

/-- The message that heads a stop's crossing queue of a class, once all its flits have come. -/
def Fabric.ready (f : Fabric) (stop cls : Nat) : Option (Nat × Msg) :=
  match f.lane (laneKey stop 6 cls) with
  | [] => none
  | x :: l => if (x :: l).any (fun y => y.last) then some (x.ty, x.msg) else none

/-- Flits up to the first that ends a message. -/
def flitsTaken : List Flit → Nat
  | [] => 0
  | x :: l => if x.last then 1 else 1 + flitsTaken l

/-- A unit takes the message that heads its crossing queue; the words are credits again. -/
def Fabric.take (f : Fabric) (stop cls : Nat) : Fabric :=
  let k := laneKey stop 6 cls
  let n := flitsTaken (f.lane k)
  (f.setLane k ((f.lane k).drop n)).credited (laneKey stop 0 cls) n

/-- The fabric holds a message. -/
def Fabric.holds (f : Fabric) (ty : Nat) (m : Msg) : Bool :=
  f.mesh.contains (ty, m) || f.lanes.any (fun y => y.2.any (fun x => x.ty == ty && x.msg == m))

/-- Credits that come to an output beside those it is owed (R266): the fabric, and how many would have raised a count above 8. -/
def Fabric.strays (f : Fabric) (l : List (Fin 25 × Fin 5 × Fin 4)) : Fabric × Nat :=
  l.foldl (fun o y =>
    let k := laneKey y.1.val y.2.1.val y.2.2.val
    if 8 ≤ (o.1.gate k).credits then (o.1, o.2 + 1) else (o.1.credited k 1, o.2)) (f, 0)

/-! Credits of windows (R241). -/

/-- Credits a stop without a core holds for a window: granted ones add to those of the same generation, and each frees the slot that was filled
first (R210, R241); a new generation starts again. -/
def grantCredit (l : List Credit) (core part win gen n : Nat) : List Credit :=
  let mine := fun (x : Credit) => x.core == core && x.part == part && x.win == win
  if l.any mine then
    modifyFirst mine (fun x => { x with gen := gen, n := if x.gen = gen then x.n + n else n, held := if x.gen = gen then x.held.drop n else [] }) l
  else l ++ [{ core := core, part := part, win := win, gen := gen, n := n }]

/-- The credits held for a window. -/
def creditOf (l : List Credit) (core part win : Nat) : Option Credit := l.find? (fun x => x.core == core && x.part == part && x.win == win)

end Sys2Proof.Machine
end

