-- ==== Sys2Proof/Machine/Float.lean ====
section
/-! DEFINITION. Number formats of R165 and R197: exact values, rounding to nearest even, FP32 addition and multiplication,
conversions, and the order of values of R290. -/

namespace Sys2Proof.Machine

/-- An exact value: NaN, an infinity, or (−1)^neg · m · 2^e. -/
inductive FVal where
  | nan
  | inf (neg : Bool)
  | fin (neg : Bool) (m : Nat) (e : Int)
  deriving DecidableEq, Repr, Inhabited

/-- A binary format: exponent bits, mantissa bits, bias, and whether the top exponent holds infinities (E4M3 has none). -/
structure FFmt where
  eb : Nat
  mb : Nat
  bias : Nat
  hasInf : Bool
  deriving DecidableEq, Repr

/-- FP32. -/
def fmt32 : FFmt := ⟨8, 23, 127, true⟩

/-- The floating formats of R197's FMT codes: 2 E4M3, 3 E5M2, 4 BF16, 6 FP32, 7 FP16. -/
def fmtOf : Nat → FFmt
  | 2 => ⟨4, 3, 7, false⟩
  | 3 => ⟨5, 2, 15, true⟩
  | 4 => ⟨8, 7, 127, true⟩
  | 7 => ⟨5, 10, 15, true⟩
  | _ => fmt32

/-- FMT codes that are floating formats. -/
def fmtIsFp (f : Nat) : Bool := f == 2 || f == 3 || f == 4 || f == 6 || f == 7

/-- Bits per element of a FMT code (R197). -/
def fmtBits : Nat → Nat
  | 0 => 8 | 1 => 4 | 2 => 8 | 3 => 8 | 4 => 16 | 7 => 16 | _ => 32

/-- The exact value an encoding stands for; subnormals at their exact value (R165). -/
def FFmt.decode (f : FFmt) (bits : Nat) : FVal :=
  let neg := bitAt bits (f.eb + f.mb)
  let e := bitsOf bits (f.eb + f.mb - 1) f.mb
  let m := bits % 2 ^ f.mb
  let top := 2 ^ f.eb - 1
  if f.hasInf ∧ e = top then (if m = 0 then .inf neg else .nan)
  else if !f.hasInf ∧ e = top ∧ m = 2 ^ f.mb - 1 then .nan
  else if e = 0 then .fin neg m (1 - (f.bias : Int) - f.mb)
  else .fin neg (m + 2 ^ f.mb) ((e : Int) - f.bias - f.mb)

/-- The sign bit in place. -/
def FFmt.sign (f : FFmt) (neg : Bool) : Nat := if neg then 2 ^ (f.eb + f.mb) else 0

/-- Infinity. -/
def FFmt.infinity (f : FFmt) (neg : Bool) : Nat := f.sign neg + (2 ^ f.eb - 1) * 2 ^ f.mb

/-- The largest finite encoding. -/
def FFmt.maxFinite (f : FFmt) (neg : Bool) : Nat :=
  f.sign neg + (if f.hasInf then (2 ^ f.eb - 1) * 2 ^ f.mb - 1 else 2 ^ (f.eb + f.mb) - 2)

/-- `m · 2^s` rounded to an integer, ties to even. -/
def shiftRne (m : Nat) (s : Int) : Nat :=
  if 0 ≤ s then m * 2 ^ s.toNat
  else
    let d := 2 ^ (-s).toNat
    let q := m / d
    let r := m % d
    if 2 * r > d ∨ (2 * r = d ∧ q % 2 = 1) then q + 1 else q

/-- A magnitude rounded to `f`: the encoding without its sign as if the exponent had no upper end. Smaller than every subnormal
rounds to 0. -/
def FFmt.roundMag (f : FFmt) (m : Nat) (e : Int) : Nat :=
  if m = 0 then 0
  else
    let lead : Int := (Nat.log2 m : Int) + e
    let emin : Int := 1 - (f.bias : Int)
    let x := if lead < emin then emin else lead
    let q := shiftRne m (e - (x - f.mb))
    if lead < emin then q
    else (x + f.bias).toNat * 2 ^ f.mb + (q - 2 ^ f.mb)

/-- An exact value rounded to `f`, overflow to infinity; `flush` turns a result below the normal range into a signed zero
(R165). -/
def FFmt.round (f : FFmt) (neg : Bool) (m : Nat) (e : Int) (flush : Bool) : Nat :=
  let r := f.roundMag m e
  if r ≥ (2 ^ f.eb - 1) * 2 ^ f.mb then f.infinity neg
  else if flush ∧ r < 2 ^ f.mb then f.sign neg
  else f.sign neg + r

/-- The default NaN of R165. -/
def nan32 : Nat := 0x7FC00000

/-- What an FP32 node answers: the bits, whether it is a NaN (counted in OD 0x6100.0A) and whether it was flushed (.0D). -/
structure FRes where
  bits : Nat := 0
  nan : Bool := false
  flushed : Bool := false
  deriving DecidableEq, Repr, Inhabited

/-- A rounded FP32 node (R165). -/
def fpNode (neg : Bool) (m : Nat) (e : Int) : FRes :=
  let r := fmt32.roundMag m e
  { bits := fmt32.round neg m e true, flushed := decide (m ≠ 0 ∧ r < 2 ^ 23) }

/-- Exact sum of two finite values as (negative, magnitude, exponent); an exact zero is +0 unless both are −0. -/
def finAdd (na : Bool) (ma : Nat) (ea : Int) (nb : Bool) (mb : Nat) (eb : Int) : Bool × Nat × Int :=
  let e := if ea ≤ eb then ea else eb
  let a : Int := (ma * 2 ^ (ea - e).toNat : Nat)
  let b : Int := (mb * 2 ^ (eb - e).toNat : Nat)
  let sa := if na then -a else a
  let sb := if nb then -b else b
  let t := sa + sb
  (if t = 0 then na && nb else decide (t < 0), t.natAbs, e)

/-- An FP32 addition node over exact values (R165). -/
def fpAddV (a b : FVal) : FRes :=
  match a, b with
  | .nan, _ => { bits := nan32, nan := true }
  | _, .nan => { bits := nan32, nan := true }
  | .inf na, .inf nb => if na = nb then { bits := fmt32.infinity na } else { bits := nan32, nan := true }
  | .inf na, _ => { bits := fmt32.infinity na }
  | _, .inf nb => { bits := fmt32.infinity nb }
  | .fin na ma ea, .fin nb mb eb =>
    let (n, m, e) := finAdd na ma ea nb mb eb
    if m = 0 then { bits := fmt32.sign n } else fpNode n m e

/-- FP32 addition (R165, R236). -/
def fpAdd (a b : Nat) : FRes := fpAddV (fmt32.decode a) (fmt32.decode b)

/-- Exact product of two values (R165). -/
def fvMul : FVal → FVal → FVal
  | .nan, _ => .nan
  | _, .nan => .nan
  | .inf na, .inf nb => .inf (na != nb)
  | .inf na, .fin nb m _ => if m = 0 then .nan else .inf (na != nb)
  | .fin na m _, .inf nb => if m = 0 then .nan else .inf (na != nb)
  | .fin na ma ea, .fin nb mb eb => .fin (na != nb) (ma * mb) (ea + eb)

/-- A NaN encoding of `f`; which one is not stated: sign and payload are the free value `k` (log entry 19). -/
def FFmt.someNan (f : FFmt) (k : Nat) : Nat :=
  f.sign (bitAt k 0) + (2 ^ f.eb - 1) * 2 ^ f.mb +
    (if f.hasInf then 1 + k / 2 % (2 ^ f.mb - 1) else 2 ^ f.mb - 1)

/-- FP32 source of CONV to a floating format (R212): x · m rounded to nearest even, RELU, saturated to the largest finite
magnitude; a NaN stays a NaN. -/
def convFp (x m : Nat) (f : FFmt) (relu : Bool) : Nat :=
  match fvMul (fmt32.decode x) (fmt32.decode m) with
  | .nan => f.someNan (Config.nanPick x m)
  | .inf n => if relu ∧ n then 0 else f.maxFinite n
  | .fin n a e =>
    if relu ∧ n ∧ a ≠ 0 then 0
    else
      let r := f.roundMag a e
      if r > f.maxFinite false then f.maxFinite n else f.sign n + r

/-- INT32 source of CONV (R212): (x · m) ÷ 2^sh to nearest, ties away from zero, RELU, saturated. -/
def convInt (x m : Int) (sh bits : Nat) (relu : Bool) : Int :=
  let v := divNearest (x * m) (2 ^ sh)
  let v := if relu ∧ v < 0 then 0 else v
  satSigned bits v

/-- The value of an element of a FMT code, as an exact value; integers have exponent 0. -/
def fmtValue (f bits : Nat) : FVal :=
  if fmtIsFp f then (fmtOf f).decode bits
  else
    let i := signedOf (fmtBits f) bits
    .fin (decide (i < 0)) i.natAbs 0

/-- An element is a NaN. -/
def fmtNan (f bits : Nat) : Bool := fmtValue f bits == .nan

/-- Order of two exact values that are no NaNs (R290): −0 equals +0. -/
def fvLt : FVal → FVal → Bool
  | .inf na, .inf nb => na && !nb
  | .inf na, .fin _ _ _ => na
  | .fin _ _ _, .inf nb => !nb
  | .fin na ma ea, .fin nb mb eb =>
    let e := if ea ≤ eb then ea else eb
    let a : Int := (ma * 2 ^ (ea - e).toNat : Nat)
    let b : Int := (mb * 2 ^ (eb - e).toNat : Nat)
    decide ((if na then -a else a) < (if nb then -b else b))
  | _, _ => false

/-- Element a ranks below element b in the order of R290. -/
def fmtLt (f a b : Nat) : Bool := fvLt (fmtValue f a) (fmtValue f b)

/-- An element is zero, of either sign (R17, R168). -/
def fmtZero (f bits : Nat) : Bool :=
  match fmtValue f bits with
  | .fin _ m _ => m == 0
  | _ => false

/-- The elements of a row of bytes in a FMT code; INT4 takes the low nibble first (log entry 20). -/
def elems (f : Nat) (row : Bytes) : List Nat :=
  match fmtBits f with
  | 4 => row.flatMap (fun b => [b.toNat % 16, b.toNat / 16])
  | 8 => row.map (fun b => b.toNat)
  | 16 => (chunksOf 2 row.length row).map leNat
  | _ => (chunksOf 4 row.length row).map leNat

/-- Pack elements of a FMT code into bytes. -/
def packElems (f : Nat) (l : List Nat) : Bytes :=
  match fmtBits f with
  | 4 => (chunksOf 2 l.length l).map (fun p => BitVec.ofNat 8 (p.headD 0 % 16 + p.tail.headD 0 % 16 * 16))
  | 8 => l.map (fun x => BitVec.ofNat 8 x)
  | 16 => l.flatMap (natLe 2)
  | _ => l.flatMap (natLe 4)

/-! Arithmetic that keeps subnormals (R317, R318, R338): each operation rounds once, ties to even. -/

/-- FP32 bits of an exact value; a NaN is some NaN (log entry 19). -/
def f32Of (v : FVal) (k : Nat) : Nat :=
  match v with
  | .nan => fmt32.someNan (Config.nanPick k 0)
  | .inf n => fmt32.infinity n
  | .fin n m e => fmt32.round n m e false

/-- A quotient m · 2^e ÷ d as a value that rounds as the exact one does: 64 more bits and a sticky bit. -/
def ratioVal (neg : Bool) (m : Nat) (e : Int) (d : Nat) : FVal :=
  let q := m * 2 ^ 64 / d
  .fin neg (2 * q + (if m * 2 ^ 64 % d = 0 then 0 else 1)) (e - 65)

/-- Quotient of two values. -/
def fvDiv : FVal → FVal → FVal
  | .nan, _ => .nan
  | _, .nan => .nan
  | .inf _, .inf _ => .nan
  | .inf n, .fin k _ _ => .inf (n != k)
  | .fin n _ _, .inf k => .fin (n != k) 0 0
  | .fin n m e, .fin k d f => if d = 0 then (if m = 0 then .nan else .inf (n != k)) else ratioVal (n != k) m (e - f) d

/-- Sum of two values. -/
def fvAdd : FVal → FVal → FVal
  | .nan, _ => .nan
  | _, .nan => .nan
  | .inf n, .inf k => if n = k then .inf n else .nan
  | .inf n, _ => .inf n
  | _, .inf n => .inf n
  | .fin na ma ea, .fin nb mb eb =>
    let (n, m, e) := finAdd na ma ea nb mb eb
    .fin n m e

/-- The value with the other sign. -/
def fvNeg : FVal → FVal
  | .nan => .nan
  | .inf n => .inf (!n)
  | .fin n m e => .fin (!n) m e

/-- Square root of a value, as a value that rounds as the exact one does. -/
def fvSqrt : FVal → FVal
  | .nan => .nan
  | .inf n => if n then .nan else .inf false
  | .fin n m e =>
    if m = 0 then .fin n 0 0
    else if n then .nan
    else
      let (v, x) : Nat × Int := if e % 2 = 0 then (m * 2 ^ 64, e - 64) else (m * 2 ^ 65, e - 65)
      let r := isqrt 64 v 0
      .fin false (2 * r + (if r * r = v then 0 else 1)) (x / 2 - 1)

/-- The value of FP32 bits. -/
def f32 (b : Nat) : FVal := fmt32.decode b

/-- FP32 a + b. -/
def f32Add (a b : Nat) : Nat := f32Of (fvAdd (f32 a) (f32 b)) (a * 2 ^ 32 + b)
/-- FP32 a − b. -/
def f32Sub (a b : Nat) : Nat := f32Of (fvAdd (f32 a) (fvNeg (f32 b))) (a * 2 ^ 32 + b)
/-- FP32 a × b. -/
def f32Mul (a b : Nat) : Nat := f32Of (fvMul (f32 a) (f32 b)) (a * 2 ^ 32 + b)
/-- FP32 a ÷ b. -/
def f32Div (a b : Nat) : Nat := f32Of (fvDiv (f32 a) (f32 b)) (a * 2 ^ 32 + b)
/-- FP32 square root. -/
def f32Sqrt (a : Nat) : Nat := f32Of (fvSqrt (f32 a)) a

/-- FP32 bits in another floating format, overflow to infinity. -/
def f32To (f : FFmt) (b : Nat) : Nat :=
  match f32 b with
  | .nan => f.someNan (Config.nanPick b 1)
  | .inf n => f.infinity n
  | .fin n m e => f.round n m e false

/-- A value rounded to an integer, ties to even, and held to −q to q. -/
def fvInt (v : FVal) (q : Nat) : Int :=
  match v with
  | .nan => 0
  | .inf n => if n then -(q : Int) else q
  | .fin n m e =>
    let r := Nat.min q (shiftRne m e)
    if n then -(r : Int) else r

/-- The magnitude of FP32 bits. -/
def f32Abs (b : Nat) : Nat := b % 2 ^ 31

end Sys2Proof.Machine
end

