-- ==== Sys2Proof/Machine/CoreOps.lean ====
section
/-! DEFINITION. A core's scratchpad as every unit reaches it (R220-R254): addresses, window checks, slot tags, errors, the
allocator, closing and wiping. -/

namespace Sys2Proof.Machine

/-- Update one core. -/
def State.modCore (s : State) (c : Fin 16) (f : Core → Core) : State := { s with cores := s.cores.set c (f s.cores[c]) }

/-- Update one core's scratchpad. -/
def State.modPad (s : State) (c : Fin 16) (f : Pad → Pad) : State := s.modCore c (fun k => { k with pad := f k.pad })

/-- Update one core's sequencer. -/
def State.modSeq (s : State) (c : Fin 16) (f : Seq → Seq) : State := s.modCore c (fun k => { k with seq := f k.seq })

/-- Update one core's array. -/
def State.modArr (s : State) (c : Fin 16) (f : Arr → Arr) : State := s.modCore c (fun k => { k with arr := f k.arr })

/-- Keys of a core's objects: array 0x6100, sequencer 0x6102, selection 0x6103, scratchpad 0x7100 (R189, R218, R309, R254). -/
def odCore (base : Nat) (c : Fin 16) (sub : Nat) : Nat := od (base + 16 * c.val) sub

/-- The entry of window w of partition P (R224). -/
def winNo (p w : Nat) : Fin 64 := Fin.ofNat 64 (8 * p + w)

/-- The window of a scratchpad. -/
def Pad.win (k : Pad) (p w : Nat) : Win := k.wins[winNo p w]

/-- Replace a window entry. -/
def Pad.setWin (k : Pad) (p w : Nat) (x : Win) : Pad := { k with wins := k.wins.set (winNo p w) x }

/-- m, the quads a window covers (R226). -/
def Win.m (x : Win) : Nat := bitsOf x.attr 15 11 + 1

/-- KCTR (R226). -/
def Win.kctr (x : Win) : Nat := bitsOf x.attr 21 16

/-- SLOT_TAG (R226). -/
def Win.tagMode (x : Win) : Nat := bitsOf x.attr 8 7

/-- Granules per quad of a window of `size` bytes over m quads (R227). -/
def granules (size m : Nat) : Nat := ceilDiv (ceilDiv (ceilDiv size 128) m) 128

/-- Physical byte address of window offset x (R221): quad · 2²⁰ + quad line · 128 + byte. -/
def Win.phys (w : Win) (x : Nat) : Nat :=
  let n := x / 128
  1048576 * (w.f + n % w.m) + (128 * w.b + n / w.m) * 128 + x % 128

/-- A physical address lies in the granules of a window. -/
def Win.holds (w : Win) (a : Nat) : Bool :=
  let q := a / 1048576
  let l := a % 1048576 / 128
  decide (w.f ≤ q ∧ q < w.f + w.m ∧ 128 * w.b ≤ l ∧ l < 128 * (w.b + granules w.size w.m))

/-- Bytes [off, off + n) of a window. -/
def Pad.bytes (k : Pad) (w : Win) (off : Nat) : Nat → Bytes
  | 0 => []
  | n + 1 => Mem.rd k.mem (w.phys off) :: Pad.bytes k w (off + 1) n

/-- Put bytes at a window offset. -/
def Win.store (w : Win) (off : Nat) (m : Mem) : Bytes → Mem
  | [] => m
  | b :: bs => w.store (off + 1) (m.wr (w.phys off) b) bs

/-- Unlisted fill bits are EMPTY, unlisted words are sound, unlisted granules are free. -/
def noBit : Nat → Bool := fun _ => false

/-- Why an access is not made, in the order of R242. -/
inductive AccErr where
  | stale | refused | tag | ecc
  deriving DecidableEq, Repr

/-- The exception a failed access raises in its task (R242, R243). -/
def AccErr.exc : AccErr → Nat
  | .stale => 3 | .refused => 3 | .tag => 8 | .ecc => 7

/-- The NACK reason of R274. -/
def AccErr.reason : AccErr → Nat
  | .stale => 1 | .refused => 2 | .tag => 3 | .ecc => 4

/-- Attribute bits of R226 that an access may need. -/
def attrWrite : Nat := 2
/-- REMOTE_READ. -/
def attrRemoteRead : Nat := 4
/-- REMOTE_WRITE. -/
def attrRemoteWrite : Nat := 8

/-- The first two checks of R242 (and R230 for a local access, which carries no generation). -/
def Win.check (w : Win) (off n need : Nat) (gen : Option Nat) : Option AccErr :=
  if gen.isSome ∧ gen ≠ some w.gen then some .stale
  else if !w.isOpen ∨ w.size < off + n ∨ (need ≠ 0 ∧ (w.attr / need) % 2 = 0) then some .refused
  else none

/-- The checks of an access to window w of a partition; remote access reaches windows 1 to 7 alone (R240, R242). -/
def Pad.check (k : Pad) (p w off n need : Nat) (gen : Option Nat) : Option AccErr :=
  match (k.win p w).check off n need gen with
  | some e => some e
  | none => if gen.isSome ∧ w % 8 = 0 then some .refused else none

/-- Numbers of the lines (as physical address ÷ 128) that [off, off + n) touches, in order. -/
def Win.lines (w : Win) (off n : Nat) : List Nat :=
  if n = 0 then []
  else (List.range ((off + n - 1) / 128 - off / 128 + 1)).map (fun i => w.phys ((off / 128 + i) * 128) / 128)

/-- Numbers of the 32-byte words (physical ÷ 32) that [off, off + n) touches. -/
def Win.words32 (w : Win) (off n : Nat) : List Nat :=
  if n = 0 then []
  else (List.range ((off + n - 1) / 32 - off / 32 + 1)).map (fun i => w.phys ((off / 32 + i) * 32) / 32)

/-- Numbers of the 8-byte words (physical ÷ 8) that [off, off + n) touches. -/
def Win.words8 (w : Win) (off n : Nat) : List Nat :=
  if n = 0 then []
  else (List.range ((off + n - 1) / 8 - off / 8 + 1)).map (fun i => w.phys ((off / 8 + i) * 8) / 8)

/-- A line is filled: its four bits are set (R246). -/
def Pad.filled (k : Pad) (line : Nat) : Bool :=
  (List.range 4).all (fun i => Sparse.get noBit k.fills (4 * line + i))

/-- Slot-tag check of a read (R246). -/
def Pad.readTagOk (k : Pad) (w : Win) (off n : Nat) : Bool :=
  w.tagMode == 0 || (w.lines off n).all (fun l => k.filled l)

/-- CONSUME empties every line a read touches (R246). -/
def Pad.consume (k : Pad) (w : Win) (off n : Nat) : Pad :=
  if w.tagMode = 2 then
    let f := (w.lines off n).foldl (fun m l => (List.range 4).foldl (fun m i => Sparse.put noBit m (4 * l + i) false) m) k.fills
    { k with fills := f }
  else k

/-- Slot-tag check of a write: no word of it is set (R246). -/
def Pad.writeTagOk (k : Pad) (w : Win) (off n : Nat) : Bool :=
  w.tagMode == 0 || (w.words32 off n).all (fun a => !Sparse.get noBit k.fills a)

/-- The row of a physical address: quad · 1024 + bank · 256 + bank row (R220, R249). -/
def rowKey (a : Nat) : Nat := 1024 * (a / 1048576) + 256 * (a % 128 / 32) + a % 1048576 / 128 / 32

/-- An 8-byte word reads as uncorrectable: it is in error, or its row fails until the restart (R238, R253). -/
def Pad.badWord (k : Pad) (a : Nat) : Bool := Sparse.get noBit k.bad a || k.deadRows.contains (rowKey (8 * a))

/-- The first 8-byte word in uncorrectable error, as a physical byte address. -/
def Pad.firstBad (k : Pad) (w : Win) (off n : Nat) : Option Nat :=
  ((w.words8 off n).find? (fun a => k.badWord a)).map (· * 8)

/-- Write bytes: memory, fill bits of a tagged window, and fully rewritten 8-byte words are sound again. -/
def Pad.write (k : Pad) (w : Win) (off : Nat) (d : Bytes) : Pad :=
  { k with
    mem := w.store off k.mem d
    fills := if w.tagMode = 0 then k.fills
      else (w.words32 off d.length).foldl (fun m a => Sparse.put noBit m a true) k.fills
    bad := (List.range (d.length / 8 + 1)).foldl
      (fun m i =>
        let x := (ceilDiv off 8 + i) * 8
        if off ≤ x ∧ x + 8 ≤ off + d.length then Sparse.put noBit m (w.phys x / 8) false else m) k.bad }

/-- The march queue entry of a row. -/
def rowOf (key : Nat) : MarchRow := { quad := key / 1024, bank := key % 1024 / 256, row := key % 256 }

/-- Queue a preserving test of a row (R237, R238), once. -/
def Pad.queueTest (k : Pad) (key : Nat) : Pad :=
  if k.marchQ.contains (rowOf key) then k else { k with marchQ := k.marchQ ++ [rowOf key] }

/-- A corrected error (R237). -/
def State.padCorrected (s : State) (c : Fin 16) (a : Nat) : State :=
  let s := s.bump (odCore 0x7100 c 1)
  let key := rowKey a
  let n := Sparse.get (fun _ => 0) (s.cores[c]).pad.rowErrs key + 1
  let s := s.modPad c (fun k => { k with rowErrs := Sparse.put (fun _ => 0) k.rowErrs key n })
  if n = s.num (od 0x7000 3) then (s.modPad c (fun k => k.queueTest key)).raise 0x700A c.val key else s

/-- An uncorrectable error (R238): counted, its line recorded, EV 0x7001, the row queued for a test; the word stays bad. -/
def State.padUncorrectable (s : State) (c : Fin 16) (a : Nat) : State :=
  let s := s.countRaise (odCore 0x7100 c 2) 0x7001 c.val
  let s := s.setNum (odCore 0x7100 c 3) (8192 * (a / 1048576) + a % 1048576 / 128 : Nat)
  s.modPad c (fun k => ({ k with bad := Sparse.put noBit k.bad (a / 8) true }).queueTest (rowKey a))

/-! What a command's reads find (R237, R238). -/

/-- What the first n words show. -/
def findsIn (e : Finds) (n : Nat) : List (Nat × Bool) := e.hits.filter (fun y => decide (y.1 < n))

/-- What the words after the first n show. -/
def findsAfter (e : Finds) (n : Nat) : Finds :=
  { hits := (e.hits.filter (fun y => decide (n ≤ y.1))).map (fun y => (y.1 - n, y.2)) }

/-- What a read of n words outside the scratchpad shows. -/
def findsEcc (e : Finds) (n : Nat) : Ecc :=
  if (findsIn e n).any (fun y => y.2) then .uncorrectable else if (findsIn e n).isEmpty then .clean else .corrected

/-- What a read of scratchpad words (physical address ÷ 8) finds (R237, R238): the state, and whether a word was uncorrectable. -/
def State.padFinds (s : State) (c : Fin 16) (ws : List Nat) (e : Finds) : State × Bool :=
  (findsIn e ws.length).foldl (fun o y =>
    let a := 8 * ws.getD y.1 0
    if y.2 then (o.1.padUncorrectable c a, true) else (o.1.padCorrected c a, o.2)) (s, false)

/-- Count a failed access at its owner (R242, R246). -/
def State.accFault (s : State) (c : Fin 16) (e : AccErr) (remote : Bool) : State :=
  match e with
  | .stale => (s.bump (odCore 0x7100 c 6)).raiseIng 0x7005 c.val (s.num (odCore 0x7100 c 6) + 1)
  | .refused => if remote then s.countRaise (odCore 0x7100 c 8) 0x700B c.val else s
  | .tag => s.countRaise (odCore 0x7100 c 10) 0x7004 c.val
  | .ecc => s

/-- Answer of an access: the state and either what failed or what was read. -/
abbrev Got := State × Except AccErr Bytes

/-- Read [off, off + n) of a window of core c, with the checks of R230 and R242 in their order; `gen` is some generation for a
remote read. -/
def State.padRead (s : State) (c : Fin 16) (p w off n : Nat) (gen : Option Nat := none) (e : Finds := {}) : Got :=
  let k := (s.cores[c]).pad
  let x := k.win p w
  match k.check p w off n (if gen.isSome then attrRemoteRead else 0) gen with
  | some err => (s.accFault c err gen.isSome, .error err)
  | none =>
    if !k.readTagOk x off n then (s.accFault c .tag gen.isSome, .error .tag)
    else
      match k.firstBad x off n with
      | some a => (s.padUncorrectable c a, .error .ecc)
      | none =>
        let o := s.padFinds c (x.words8 off n) e
        if o.2 then (o.1, .error .ecc)
        else (o.1.modPad c (fun k => k.consume x off n), .ok (k.bytes x off n))

/-- Write bytes at off of a window of core c (R230, R242, R246). -/
def State.padWrite (s : State) (c : Fin 16) (p w off : Nat) (d : Bytes) (gen : Option Nat := none) : State × Option AccErr :=
  let k := (s.cores[c]).pad
  let x := k.win p w
  match k.check p w off d.length (if gen.isSome then attrRemoteWrite else attrWrite) gen with
  | some err => (s.accFault c err gen.isSome, some err)
  | none =>
    if !k.writeTagOk x off d.length then (s.accFault c .tag gen.isSome, some .tag)
    else (s.modPad c (fun k => k.write x off d), none)

/-- What a bank atomic operation does with an old and a new element (R236). -/
inductive AtomOp where
  | addInt32 | addInt64 | addFp32 | swap (bytes : Nat)
  deriving DecidableEq, Repr

/-- Bytes of one element. -/
def AtomOp.bytes : AtomOp → Nat
  | .addInt32 => 4 | .addInt64 => 8 | .addFp32 => 4 | .swap n => n

/-- One element of a bank atomic operation: the new element, and whether it wrapped, is a NaN or was flushed. -/
def AtomOp.one (o : AtomOp) (old new : Nat) : Nat × Bool × FRes :=
  match o with
  | .addInt32 =>
    let t := signedOf 32 old + signedOf 32 new
    (unsignedOf 32 t, decide (t ≠ signedOf 32 (unsignedOf 32 t)), {})
  | .addInt64 => ((old + new) % 2 ^ 64, false, {})
  | .addFp32 => ((fpAdd old new).bits, false, fpAdd old new)
  | .swap _ => (new, false, {})

/-- Count what an element's operation counts: wraps in OD 0x7100.0D (R236), NaNs and flushes by R165. -/
def State.atomCount (s : State) (c : Fin 16) (r : Nat × Bool × FRes) : State :=
  let s := if r.2.1 then s.bump (odCore 0x7100 c 13) else s
  let s := if r.2.2.nan then s.bump (odCore 0x6100 c 10) else s
  if r.2.2.flushed then s.bump (odCore 0x6100 c 13) else s

/-- Bank atomic operation on a run of elements (R236): needs a filled line in a tagged window and leaves the bits; answers the
old bytes. -/
def State.padAtomic (s : State) (c : Fin 16) (p w off : Nat) (o : AtomOp) (d : Bytes) (gen : Option Nat := none)
    (e : Finds := {}) : Got :=
  let k := (s.cores[c]).pad
  let x := k.win p w
  match k.check p w off d.length (if gen.isSome then attrRemoteWrite else attrWrite) gen with
  | some err => (s.accFault c err gen.isSome, .error err)
  | none =>
    if !k.readTagOk x off d.length then (s.accFault c .tag gen.isSome, .error .tag)
    else
      match k.firstBad x off d.length with
      | some a => (s.padUncorrectable c a, .error .ecc)
      | none =>
        let found := s.padFinds c (x.words8 off d.length) e
        if found.2 then (found.1, .error .ecc)
        else
          let s := found.1
          let old := k.bytes x off d.length
          let n := o.bytes
          let rs := ((chunksOf n d.length old).zip (chunksOf n d.length d)).map (fun y => o.one (leNat y.1) (leNat y.2))
          let s := rs.foldl (fun s r => s.atomCount c r) s
          (s.modPad c (fun k => { k with mem := x.store off k.mem (rs.flatMap (fun r => natLe n r.1)) }), .ok old)

/-! The allocator (R227, R228, R367). -/

/-- The active plan of a schedule in force. -/
def Sched.plan_ (x : Sched) : Option Plan := x.active.bind (fun a => a.plans[x.plan]?)

/-- The physical core of a logical core (R376); the identity without a schedule. -/
def Sched.phys (x : Sched) (l : Nat) : Nat :=
  match x.plan_ with
  | some p => bitsOf p.map (4 * l + 3) (4 * l)
  | none => l

/-- Logical cores of a mask that are on physical core c. -/
def Sched.runsOn (x : Sched) (mask c : Nat) : Bool :=
  (List.range 16).any (fun l => bitAt mask l && x.phys l == c)

/-- The partition's record in the schedule in force. -/
def Sched.part (x : Sched) (p : Nat) : Option PartRec :=
  x.active.bind (fun a => a.parts.find? (fun r => r.part == p && r.present))

/-- The partition's counter mask (R364); nothing for a partition that is not present. -/
def Sched.counterMask (x : Sched) (p : Nat) : Nat := ((x.part p).map (·.counters)).getD 0

/-- A schedule keeps a granule from the allocator: the save slots (R364) and the granules of NAMED windows of the active plan's tasks on
this core (R367). -/
def Sched.keeps (x : Sched) (c quad g : Nat) : Bool :=
  match x.active with
  | none => false
  | some a =>
    a.parts.any (fun r => r.present && x.runsOn r.mask c && (quad == r.quad || quad == r.quad + 1) &&
      decide (r.granule ≤ g ∧ g < r.granule + r.slots)) ||
    a.tasks.any (fun t => x.runsOn t.mask c && t.wins.any (fun w =>
      let m := bitsOf w.attr 15 11 + 1
      w.named && decide (w.f ≤ quad ∧ quad < w.f + m ∧ w.b ≤ g ∧ g < w.b + granules w.size m)))

/-- A granule is kept from the allocator: by the schedule, or as Hollyhock's granule 63 (R433). -/
def Sched.reserves (x : Sched) (c quad g : Nat) : Bool := g == 63 || x.keeps c quad g

/-- A granule is held by an open window. -/
def Pad.inUse (k : Pad) (quad g : Nat) : Bool := Sparse.get noBit k.used (quad * 64 + g)

/-- A quad is retired (R253). -/
def State.quadRetired (s : State) (c : Fin 16) (quad : Nat) : Bool := bitAt (s.num (odCore 0x7100 c 15)) quad

/-- A granule is in the free map (R227, R253, R367). -/
def State.granFree (s : State) (c : Fin 16) (quad g : Nat) : Bool :=
  decide (quad < 24 ∧ g < 64) && !(s.cores[c]).pad.inUse quad g && !s.sched.reserves c.val quad g && !s.quadRetired c quad

/-- Granules b to b + g − 1 of quads f to f + m − 1 all satisfy `ok`. -/
def runOk (ok : Nat → Nat → Bool) (f b m g : Nat) : Bool :=
  (List.range m).all (fun i => (List.range g).all (fun j => ok (f + i) (b + j)))

/-- The quads the allocator tries f over, by RING, in order (R227). -/
def ringSpans : Nat → List (Nat × Nat)
  | 0 => [(0, 8), (8, 16), (0, 24)]
  | r => [(8 * (r - 1), 8 * r)]

/-- The first run the allocator finds (R227). -/
def State.findRun (s : State) (c : Fin 16) (ring m g : Nat) : Option (Nat × Nat) :=
  (ringSpans ring).findSome? (fun sp =>
    (List.range 24).findSome? (fun f =>
      if sp.1 ≤ f ∧ f + m ≤ sp.2 then
        (List.range 64).findSome? (fun b =>
          if b + g ≤ 64 ∧ runOk (s.granFree c) f b m g then some (f, b) else none)
      else none))

/-- The size and attribute rules of R227, and of R228 where `placed`. -/
def State.winRules (s : State) (p w size attr : Nat) (placed : Bool) : Bool :=
  decide (0 < size ∧ size ≤ 1048576 * 24 ∧ attr < 2 ^ 22 ∧ bitsOf attr 8 7 ≠ 3 ∧ bitsOf attr 15 11 ≤ 23) &&
  (if bitAt attr 0 then placed && w == 0 && !bitAt attr 1 && !bitAt attr 3 else true) &&
  (!bitAt attr 5 || placed) &&
  decide (bitsOf attr 10 9 = 0 ∨ bitsOf attr 15 11 + 1 ≤ 8) &&
  bitAt (s.sched.counterMask p) (bitsOf attr 21 16)

/-- Mark the granules of a window as held or free. -/
def Pad.mark (k : Pad) (x : Win) (held : Bool) : Pad :=
  let u := (List.range x.m).foldl (fun m i =>
    (List.range (granules x.size x.m)).foldl (fun m j => Sparse.put noBit m ((x.f + i) * 64 + x.b + j) held) m) k.used
  { k with used := u }

/-- Forget the slot tags of a window's lines: every bit EMPTY (R246). -/
def Pad.clearTags (k : Pad) (x : Win) : Pad := { k with fills := k.fills.filter (fun y => !x.holds (y.1 * 32)) }

/-- Open a window at (f, b) under its current generation. -/
def Pad.openAt (k : Pad) (p w size attr f b : Nat) : Pad :=
  let x : Win := { isOpen := true, f := f, b := b, gen := (k.win p w).gen, size := size, attr := attr }
  ((k.setWin p w x).mark x true).clearTags x

/-- WOPEN's request (R227): the state and whether it was granted; a refused grant is counted. -/
def State.allocate (s : State) (c : Fin 16) (p w size attr : Nat) : State × Bool :=
  let sz := ceilDiv size 32 * 32
  let m := bitsOf attr 15 11 + 1
  let spot := if s.winRules p w sz attr false then s.findRun c (bitsOf attr 10 9) m (granules sz m) else none
  match spot with
  | some (f, b) => (s.modPad c (fun k => k.openAt p w sz attr f b), true)
  | none => (s.bump (odCore 0x7100 c 11), false)

/-- A NAMED window's granules may be taken: held by no open window and in no retired quad (R228, R253). -/
def State.namedFree (s : State) (c : Fin 16) (x : WinSpec) : Bool :=
  let m := bitsOf x.attr 15 11 + 1
  let sz := ceilDiv x.size 32 * 32
  decide (x.f + m ≤ 24 ∧ x.b + granules sz m ≤ 64) &&
  runOk (fun q g => !(s.cores[c]).pad.inUse q g && !s.quadRetired c q) x.f x.b m (granules sz m)

/-- Zero every line of a window (R247). -/
def Pad.wipe (k : Pad) (x : Win) : Pad :=
  { k with mem := k.mem.filter (fun y => !x.holds y.1), bad := k.bad.filter (fun y => !x.holds (y.1 * 8)) }

/-- Close a window in the order of R229. -/
def Pad.close (k : Pad) (p w : Nat) : Pad :=
  let x := k.win p w
  if !x.isOpen then k
  else
    let k := if bitAt x.attr 4 then k.wipe x else k
    let k := (k.clearTags x).mark x false
    k.setWin p w { x with gen := (x.gen + 1) % 256, isOpen := false, segs := [], marked := [] }

/-- Close every window of every partition (R375, R377). -/
def Pad.closeAll (k : Pad) : Pad := (List.range 64).foldl (fun k i => k.close (i / 8) (i % 8)) k

/-- Close every CONFIDENTIAL window (R248). -/
def Pad.closeConfidential (k : Pad) : Pad :=
  (List.range 64).foldl (fun k i => if bitAt (k.win (i / 8) (i % 8)).attr 4 then k.close (i / 8) (i % 8) else k) k

/-- Copy bytes into granules through the mapping of R221, as the scheduler does for a program (R367). -/
def Pad.load (k : Pad) (f b m : Nat) (d : Bytes) : Pad :=
  k.write { isOpen := true, f := f, b := b, size := d.length, attr := 2048 * (m - 1) } 0 d

/-- The free granules of a core, of 24 × 64 (OD 0x7100.0E): held by no open window, kept by no schedule, in no retired quad. Granule 63, which
the allocator never grants (R433), counts as free: the object's default is 1,536. -/
def State.freeGranules (s : State) (c : Fin 16) : Nat :=
  ((List.range 24).map (fun q => ((List.range 64).filter (fun g =>
    !(s.cores[c]).pad.inUse q g && !s.sched.keeps c.val q g && !s.quadRetired c q)).length)).foldl (· + ·) 0

/-- Word 0 of a window entry: what WINFO returns (R225). -/
def Win.word0 (x : Win) : Nat := x.size + 2 ^ 32 * x.gen + 2 ^ 40 * x.attr

/-- The window table as a BLOB (OD 0x7101, R225). -/
def Pad.table (k : Pad) : Bytes :=
  k.wins.toList.flatMap (fun x => natLe 8 x.word0 ++ natLe 8 (x.f + x.b * 32 + (if x.isOpen then 2048 else 0)))

end Sys2Proof.Machine
end

