-- ==== Sys2Proof/Machine/Saved.lean ====
section
/-! DEFINITION. The layout of a pre-emption save (R217), written and read, with the list layout that TKOUT shares (R204, R297). -/

namespace Sys2Proof.Machine

/-- Scalar register; s0 reads as zero (R191). -/
def Seq.rd (q : Seq) (n : Nat) : BitVec 64 := if n % 32 = 0 then 0 else q.regs[Fin.ofNat 32 n]

/-- Predicate. -/
def Seq.pred (q : Seq) (n : Nat) : Bool := q.preds[Fin.ofNat 4 n]

/-- Descriptor. -/
def Seq.td (q : Seq) (n : Nat) : Desc := q.desc[Fin.ofNat 8 n]

/-- Field f of a descriptor, as TGET reads it (R197). -/
def Desc.field (d : Desc) : Nat → Nat
  | 0 => d.ctrl | 1 => d.base | 2 => d.row | 3 => d.count | 4 => d.stride | 5 => d.ictrl | 6 => d.ibase | _ => d.aux

/-- Padding values of a short list (R297). -/
def padValue (fmt : Nat) (smallest : Bool) : Nat :=
  match fmt with
  | 5 => if smallest then 0x7FFFFFFF else 0x80000000
  | 6 => if smallest then 0x7F800000 else 0xFF800000
  | 4 => if smallest then 0x7F80 else 0xFF80
  | _ => if smallest then 0x7C00 else 0xFC00

/-- A list entry of 8 bytes (R204). -/
def entryBytes (x : Nat × Nat) : Bytes := natLe 4 x.1 ++ natLe 4 x.2

/-- What TKOUT writes (R297). -/
def TopK.out (t : TopK) : Bytes :=
  t.entries.flatMap entryBytes ++
  (List.replicate (t.k - t.entries.length) (padValue t.fmt t.smallest, 0xFFFFFFFF)).flatMap entryBytes

/-- A descriptor as the save holds it: eight fields of 8 bytes. -/
def Desc.saved (d : Desc) : Bytes := (List.range 8).flatMap (fun f => natLe 8 (d.field f))

/-- The descriptor at the start of saved bytes. -/
def Desc.restored (b : Bytes) : Desc :=
  { ctrl := fieldLe b 0 8, base := fieldLe b 8 8, row := fieldLe b 16 8, count := fieldLe b 24 8, stride := fieldLe b 32 8
    ictrl := fieldLe b 40 8, ibase := fieldLe b 48 8, aux := fieldLe b 56 8 }

/-- An array-queue entry as the save holds it. -/
def AJob.saved (j : AJob) : Bytes :=
  padTo 256 (natLe 8 (2 ^ 56 * (if j.isDrain then 0x42 else 0x41) + j.word) ++
    natLe 8 (if j.isDrain then j.m + 2 ^ 32 * j.first else j.m + 2 ^ 32 * j.k + 2 ^ 48 * j.n) ++
    j.ta.saved ++ j.tw.saved ++ j.td.saved)

/-- An array-queue entry read back; its mode word and PC, which the layout does not hold, stay the module's own (log entry 25). -/
def AJob.restored (j : AJob) (b : Bytes) : AJob :=
  let w := fieldLe b 0 8
  let drain := bitsOf w 63 56 == 0x42
  { j with
    word := w % 2 ^ 56
    isDrain := drain
    m := fieldLe b 8 4
    first := if drain then fieldLe b 12 2 else 0
    k := if drain then 0 else fieldLe b 12 2
    n := if drain then 0 else fieldLe b 14 2
    ta := Desc.restored (b.drop 16)
    tw := Desc.restored (b.drop 80)
    td := Desc.restored (b.drop 144) }

/-- The 16 bytes of a window entry (R225). -/
def Win.entry (x : Win) : Bytes := natLe 8 x.word0 ++ natLe 8 (x.f + x.b * 32 + (if x.isOpen then 2048 else 0))

/-- A window entry read back over the one in the table, whose segment slots stay. -/
def Win.restored (x : Win) (b : Bytes) : Win :=
  let w0 := fieldLe b 0 8
  let w1 := fieldLe b 8 8
  { x with size := bitsOf w0 31 0, gen := bitsOf w0 39 32, attr := bitsOf w0 63 40
           f := bitsOf w1 4 0, b := bitsOf w1 10 5, isOpen := bitAt w1 11 }

/-- The 10,240 bytes of a save (R217). -/
def Core.saveBytes (k : Core) (p : Nat) : Bytes :=
  let q := k.seq
  let t := q.topk
  padTo 256 ((List.range 32).flatMap (fun i => natLe 8 (q.rd i).toNat)) ++
  natLe 4 q.pc ++ natLe 1 ((List.range 4).foldl (fun a i => a + (if q.pred i then 2 ^ i else 0)) 0) ++
  natLe 1 (if q.modeValid then 1 else 0) ++ zeros 2 ++ natLe 4 q.mode ++ zeros 20 ++
  (List.range 8).flatMap (fun i => (q.td i).saved) ++
  (List.range 8).flatMap (fun w => (k.pad.win p w).entry) ++
  padTo 1024 (q.arrayQ.flatMap AJob.saved) ++
  padTo 64 (natLe 2 t.k ++ natLe 1 t.fmt ++ natLe 1 (if t.smallest then 1 else 0) ++ natLe 4 t.count ++
    natLe 4 t.entries.length ++ natLe 4 t.nan ++ natLe 4 t.ties) ++
  zeros 32 ++ padTo 8192 t.out

/-- The top-k list read back (R217); the index base, what a merge received and whether the list is final are not in the layout
(log entry 25). -/
def TopK.restored (t : TopK) (state list : Bytes) : TopK :=
  { t with
    k := fieldLe state 0 2
    fmt := fieldLe state 2 1
    smallest := fieldLe state 3 1 == 1
    count := fieldLe state 4 4
    nan := fieldLe state 12 4
    ties := fieldLe state 16 4
    entries := (List.range (Nat.min 1024 (fieldLe state 8 4))).map (fun i => (fieldLe list (8 * i) 4, fieldLe list (8 * i + 4) 4)) }

/-- The sequencer read back from a save (R217) over what the module kept of the instance. -/
def Seq.restored (q : Seq) (b : Bytes) : Seq :=
  { q with
    regs := Vector.ofFn (fun (i : Fin 32) => if i = 0 then 0 else BitVec.ofNat 64 (fieldLe b (8 * i.val) 8))
    pc := fieldLe b 256 4
    preds := Vector.ofFn (fun (i : Fin 4) => bitAt (fieldLe b 260 1) i.val)
    modeValid := bitAt (fieldLe b 261 1) 0
    mode := fieldLe b 264 4
    desc := Vector.ofFn (fun (i : Fin 8) => Desc.restored (b.drop (288 + 64 * i.val)))
    arrayQ := (q.arrayQ.zip (List.range 4)).map (fun y => y.1.restored (slice b (928 + 256 * y.2) 256))
    topk := q.topk.restored (slice b 1952 64) (b.drop 2048) }

/-- The window table entries of a partition read back (R217): each entry's granules are held as it says. -/
def Pad.restoreWins (k : Pad) (p : Nat) (b : Bytes) : Pad :=
  (List.range 8).foldl (fun k w =>
    let x := k.win p w
    let y := x.restored (slice b (800 + 16 * w) 16)
    let k := if x.isOpen then k.mark x false else k
    (if y.isOpen then k.mark y true else k).setWin p w y) k

/-- Save slot n of a partition record, as a window (R217, R364). -/
def PartRec.saveWin (r : PartRec) (n : Nat) : Win :=
  { isOpen := true, f := r.quad, b := r.granule + n, size := 32768, attr := 2048 }

end Sys2Proof.Machine
end

