-- ==== Sys2Proof/Machine/Tables.lean ====
section
/-! DEFINITION. Peony's tables as the scheduler and Peony see them: descriptors (R311, R312), version slots (R332), replica windows (R334). -/

namespace Sys2Proof.Machine

/-- A table descriptor. -/
structure TDesc where
  table : Nat := 0
  kind : Nat := 0
  place : Nat := 0
  fmt : Nat := 0
  e : Nat := 0
  part : Nat := 0
  group : Nat := 0
  mask : Nat := 0
  pool : Nat := 0
  ring : Nat := 0
  acc : Nat := 0
  opt : Nat := 0
  train : Bool := false
  live : Bool := false
  rows : Nat := 0
  shard : Nat := 0
  eta : Nat := 0
  eps : Nat := 0
  hot : Nat := 0
  warm : Nat := 0
  accSlots : Nat := 0
  deriving DecidableEq, Repr, Inhabited

/-- A descriptor from its 64 bytes (R311). -/
def parseTDesc (b : Bytes) : TDesc :=
  { table := fieldLe b 0 1, kind := fieldLe b 1 1, place := fieldLe b 2 1, fmt := fieldLe b 3 1, e := fieldLe b 4 2
    part := fieldLe b 6 1, group := fieldLe b 7 1, mask := fieldLe b 8 2, pool := fieldLe b 10 1 % 8
    ring := fieldLe b 10 1 / 16 % 8, acc := fieldLe b 11 1 % 8, opt := fieldLe b 12 1, train := bitAt (fieldLe b 13 1) 0
    live := bitAt (fieldLe b 13 1) 1, rows := fieldLe b 16 4, shard := fieldLe b 20 4, eta := fieldLe b 24 4, eps := fieldLe b 28 4
    hot := fieldLe b 32 4, warm := fieldLe b 36 4, accSlots := fieldLe b 40 4 }

/-- Pool row length in bytes (R312). -/
def TDesc.rowLen (d : TDesc) : Nat := if d.fmt = 0 then 2 * d.e else 4 * d.e

/-- Client cores in ascending number. -/
def TDesc.cores (d : TDesc) : List Nat := bitList d.mask 16

/-- The physical core at an owner position (R117, R325). -/
def State.peCore (s : State) (d : TDesc) (pos : Nat) : Fin 16 := coreNo (s.sched.phys (d.cores.getD pos 0))

/-- The descriptor of a table. -/
def State.tdesc (s : State) (t : Nat) : TDesc := parseTDesc (padTo 64 (s.oct (od (0x8100 + 16 * t) 1)))

/-- A table of Peony. -/
def State.table (s : State) (t : Nat) : PTable := s.peony.tables[Fin.ofNat 16 t]

/-- Update a table of Peony. -/
def State.modTable (s : State) (t : Nat) (f : PTable → PTable) : State :=
  { s with peony := { s.peony with tables := s.peony.tables.set (Fin.ofNat 16 t) (f (s.table t)) } }

/-! Versions (R332). -/

/-- The slot in a state. -/
def PTable.slotIn (x : PTable) (st : Nat) : Option (Fin 3) := ([0, 1, 2] : List (Fin 3)).find? (fun i => x.vers[i].state == st)

/-- A version slot. -/
def PTable.ver (x : PTable) (i : Nat) : TVersion := x.vers[Fin.ofNat 3 i]

/-- Replace a version slot. -/
def PTable.setVer (x : PTable) (i : Nat) (v : TVersion) : PTable := { x with vers := x.vers.set (Fin.ofNat 3 i) v }

/-- The version slot a frame's requests are bound to (R332). -/
def PTable.bound (x : PTable) (frame : Nat) : Option Nat :=
  match x.slotIn 2, x.slotIn 4 with
  | some l, some r => if (x.ver l.val).frame ≤ frame then some l.val else if frame ≤ (x.ver r.val).frame then some r.val else none
  | some l, none => if (x.ver l.val).frame ≤ frame then some l.val else none
  | none, some r => if frame ≤ (x.ver r.val).frame then some r.val else none
  | none, none => none

/-! Replica windows (R312, R313, R333, R334). -/

/-- A table keeps a replica window in a core. -/
def State.replicates (s : State) (t : Nat) (c : Fin 16) : Bool :=
  (s.table t).state == 1 && (s.tdesc t).place == 0 && (s.tdesc t).cores.any (fun l => s.sched.phys l == c.val)

/-- What a core's replica of a version slot holds while its window shows another: as the core left it, or as Peony wrote it. -/
def PTable.replica (x : PTable) (c v : Nat) : Bytes :=
  ((x.parked.find? (fun y => y.core == c && y.slot == v)).map (fun y => y.data)).getD (x.ver v).image

/-- The replica window of a core shows a version slot: what it showed before is kept. -/
def State.showReplica (s : State) (t : Nat) (c : Fin 16) (v : Nat) : State :=
  let d := s.tdesc t
  let x := s.table t
  let w := (s.cores[c]).pad.win d.part d.pool
  let new := x.replica c.val v
  let parked := match x.loaded.find? (fun y => y.core == c.val && y.gen == w.gen) with
    | some y => { core := c.val, slot := y.slot, data := (s.cores[c]).pad.bytes w 0 (d.rows * d.rowLen) } ::
        x.parked.filter (fun z => !(z.core == c.val && (z.slot == y.slot || z.slot == v)))
    | none => x.parked.filter (fun z => !(z.core == c.val && z.slot == v))
  (s.modPad c (fun k => k.write { w with attr := w.attr - bitsOf w.attr 8 7 * 128 } 0 new)).modTable t (fun x => { x with
    parked := parked
    loaded := { core := c.val, slot := v, gen := w.gen } :: x.loaded.filter (fun y => y.core != c.val) })

/-- At a dispatch, the replica window of each REPLICATED table shows the version bound to the task's frame (R334 step 3). -/
def State.loadReplicas (s : State) (c : Fin 16) (part : Nat) : State :=
  (List.range 16).foldl (fun s t =>
    let d := s.tdesc t
    let w := (s.cores[c]).pad.win d.part d.pool
    if !s.replicates t c ∨ d.part ≠ part ∨ !w.isOpen then s
    else match (s.table t).bound s.frame.comp.n with
      | none => s
      | some v => if (s.table t).loaded.any (fun y => y.core == c.val && y.slot == v && y.gen == w.gen) then s else s.showReplica t c v) s

/-- A version slot becomes EMPTY: no replica holds its rows any more. -/
def PTable.empty (x : PTable) (v : Nat) : PTable :=
  { x.setVer v {} with loaded := x.loaded.filter (fun y => y.slot != v), parked := x.parked.filter (fun y => y.slot != v) }

end Sys2Proof.Machine
end

