-- ==== Sys2Proof/Machine/SchedOps.lean ====
section
/-! DEFINITION. What every unit of a core shares with the scheduler: instances, the dispatch decision (R368-R373), pre-emption
requests (R380, R381), the end of a task and its exceptions (R215, R216, R379), and arrival counters (R244, R245, R369). -/

namespace Sys2Proof.Machine

/-- A task of the schedule in force. -/
def Sched.task (x : Sched) (t : Nat) : Option TaskDesc := x.active.bind (fun a => a.tasks.find? (fun d => d.task == t))

/-- Key of a task's objects (OD 0x9100+t); a task number is one byte (R366). -/
def taskOd (task sub : Nat) : Nat := od (0x9100 + task % 256) sub

/-- Update the scheduler. -/
def State.modSched (s : State) (f : Sched → Sched) : State := { s with sched := f s.sched }

/-- Update one instance. -/
def State.modInst (s : State) (task lcore : Nat) (f : Inst → Inst) : State :=
  s.modSched (fun x => { x with insts := modifyFirst (fun i => i.task == task && i.lcore == lcore) f x.insts })

/-- The instances of a physical core. -/
def Sched.on (x : Sched) (c : Nat) : List Inst := x.insts.filter (fun i => x.phys i.lcore == c)

/-- The instance that runs on a core. -/
def Sched.runningOn (x : Sched) (c : Nat) : Option Inst := (x.on c).find? (fun i => i.state == .running)

/-- States of an instance that R384 displaces. -/
def InstState.held (x : InstState) : Bool := x == .running || x == .ready || x == .preempted

/-- States of an instance that has not come to its end. -/
def InstState.live (x : InstState) : Bool := x == .waiting || x == .ready || x == .running || x == .preempted

/-- The descriptor of an instance. -/
def Sched.descOf (x : Sched) (i : Inst) : TaskDesc := (x.task i.task).getD {}

/-- The slot entry a logical core is in (R372): none before its first entry of the frame began. -/
def Sched.entryOf (x : Sched) (l : Nat) : Option SlotEntry :=
  match x.active, x.plan_ with
  | some a, some p =>
    let slot := x.slotOf[l]?.getD 65535
    ((a.entries.drop p.first).take p.count).find? (fun e => bitAt e.mask l && decide (e.start ≤ slot ∧ slot < e.start + e.len))
  | _, _ => none

/-- The lender of an entry, if any. -/
def SlotEntry.lends (e : SlotEntry) : Option Nat := if e.lender < 8 then some e.lender else none

/-- The eligible partition of a logical core (R370, R383). An owner's running instance counts as something to run
(log entry 24). -/
def Sched.eligible (x : Sched) (l : Nat) : Option Nat :=
  match x.entryOf l with
  | none => none
  | some e =>
    if e.owner < 8 then
      if x.insts.any (fun i => i.lcore == l && i.state.held && (x.descOf i).part == e.owner) then some e.owner else e.lends
    else if e.owner = 8 ∧ (x.testing.contains (x.phys l) ∨ x.want.contains (x.phys l)) then none
    else e.lends

/-- a is chosen before b (R370): earlier due, higher criticality, lower task, lower logical core. -/
def Sched.before (x : Sched) (a b : Inst) : Bool :=
  let p := x.descOf a
  let q := x.descOf b
  if p.due ≠ q.due then decide (p.due < q.due)
  else if p.crit ≠ q.crit then decide (q.crit < p.crit)
  else if a.task ≠ b.task then decide (a.task < b.task)
  else decide (a.lcore < b.lcore)

/-- The best of a list of instances. -/
def Sched.best (x : Sched) : List Inst → Option Inst
  | [] => none
  | i :: is =>
    match x.best is with
    | none => some i
    | some j => if x.before i j then some i else some j

/-- The instance the decision chooses on a core: READY or PREEMPTED and of its logical core's eligible partition. -/
def Sched.choice (x : Sched) (c : Nat) : Option Inst :=
  x.best ((x.on c).filter (fun i => (i.state == .ready || i.state == .preempted) && x.eligible i.lcore == some (x.descOf i).part))

/-- Record an exception (R215): code, PC, task, detail, count and EV 0x6010. -/
def State.recordExc (s : State) (c : Fin 16) (code pc task detail : Nat) : State :=
  let s := s.setNum (odCore 0x6102 c 1) code
  let s := s.setNum (odCore 0x6102 c 2) (pc % 2 ^ 32 : Nat)
  let s := s.setNum (odCore 0x6102 c 3) task
  let s := s.setNum (odCore 0x6102 c 4) (if code = 0x0B then detail % 2 ^ 32 else 0 : Nat)
  s.countRaise (odCore 0x6102 c 8) 0x6010 c.val

/-- What the array keeps of a task that ends (R216): merges whose verdicts passed go on; the running pass and every chunk whose verdict has
not passed, replays and the rows of a store chunk with them, are discarded, and both banks are invalid. -/
def Arr.endTask (a : Arr) (r : TaskRun) : Arr :=
  let mine := fun (x : Chunk) => x.job.run == r
  let run := fun (u : Option Running) => u.filter (fun u => !mine u.chunk)
  { a with
    running := run a.running
    cur := a.cur.filter (fun j => j.run != r)
    held := run a.held
    replays := a.replays.filter (fun x => !mine x)
    pending := a.pending.filter (fun x => !mine x)
    store := if (a.pending ++ a.replays ++ (a.running.map (·.chunk)).toList).any (fun x => mine x && x.store) then [] else a.store
    storeJobs := a.storeJobs.filter (fun j => j.run != r)
    banks := [] }

/-- What the units of a core keep of a task that ends (R216): DMAs already started go on with their reads, the array queue, queued DMAs and
the top-k list are discarded. -/
def Core.endTask (k : Core) (r : TaskRun) : Core :=
  { k with
    seq := { (default : Seq) with dmaQ := k.seq.dmaQ.filter (fun d => d.started || d.run != r) }
    arr := k.arr.endTask r
    gets := k.gets.filter (fun g => g.run != r || k.seq.dmaQ.any (fun d => d.started && d.run == r && d.pc == g.pc))
    sentUp := false
    arrived := [] }

/-- The array at the start of a task: both banks invalid (R192, R217). -/
def Arr.fresh (a : Arr) : Arr := { a with banks := [] }

/-- Longest run time of an instance so far (OD 0x9100.06); the model counts no cycles, so each run's time is free
(log entry 22). -/
def State.noteRun (s : State) (task : Nat) : State :=
  let r := Config.runTime s.freeCtr % 2 ^ 32
  let s := s.drawn
  s.setNum (taskOd task 6) (Nat.max (s.num (taskOd task 6)) r)

/-- Take the running task off a core. -/
def State.takeOff (s : State) (c : Fin 16) : State :=
  match (s.cores[c]).seq.task with
  | none => s
  | some r =>
    let s := s.noteRun r.task
    let s := s.modCore c (fun k => k.endTask r)
    s.modSched (fun x => { x with preemptAt := x.preemptAt.set c none })

/-- The pool slot a fill is for. -/
def PFill.isFor (f : PFill) (y : PoolSlot) : Bool := f.pos == y.pos && f.row == y.row

/-- Peony's part of the end of a task (R341): the fills of its LOOKUPs still in flight end, and their requests are ENDED. A fill whose slot
another task's LOOKUP pins goes on for that one. -/
def PTable.endTask (x : PTable) (core part frame : Nat) : PTable :=
  let mine := fun (q : PReq) => q.core == core && q.part == part && q.frame == frame && q.op == 1 && !q.closed
  let ids := (x.reqs.filter (fun q => mine q && (x.fills.any (fun f => f.req == q.id)))).map (·.id)
  let heir := fun (f : PFill) => ((x.slots.find? f.isFor).map (fun y => y.pins.filter (fun i => !ids.contains i))).bind List.head?
  let ends := fun (f : PFill) => ids.contains f.req && (heir f).isNone
  { x with
    fills := (x.fills.filter (fun f => !ends f)).map (fun f => if ids.contains f.req then { f with req := (heir f).getD f.req } else f)
    slots := x.slots.filter (fun y => !x.fills.any (fun f => ends f && f.isFor y))
    reqs := x.reqs.map (fun q => if ids.contains q.id then { q with code := 3 } else q) }

/-- A task of a partition ends on a core (R341). -/
def State.peonyEnd (s : State) (core part : Nat) : State :=
  let f := s.frame.comp.n
  { s with peony := { s.peony with
    tables := s.peony.tables.map (fun x => x.endTask core part f)
    ended := (core, part, f) :: s.peony.ended } }

/-- An instance enters ENDED or DROPPED (R379); answers the cores that became free by the drops. -/
def State.lose (s : State) (i : Inst) (dst : InstState) : State × List (Fin 16) :=
  let d := s.sched.descOf i
  let s := s.peonyEnd (s.sched.phys i.lcore) d.part
  let s := s.modInst i.task i.lcore (fun x => { x with state := dst, slot := none, saved := none, cur := none })
  let s := s.bump (taskOd i.task (if dst = .ended then 4 else 5))
  if d.optional then (s.causeComp .sched 0, [])
  else
    let s := s.modComp (fun c => { c.worse 3 with marigoldPrimary := true })
    let s := s.raise 0x9003 i.task
    let rest := s.sched.insts.filter (fun j =>
      (j.state.live || j.state == .idle) && (s.sched.descOf j).part == d.part && (s.sched.descOf j).copy == d.copy)
    let cores := (rest.filter (fun j => j.state == .running)).map (fun j => coreNo (s.sched.phys j.lcore))
    let s := cores.foldl (fun s c => s.takeOff c) s
    let s := rest.foldl (fun s j =>
      ((s.peonyEnd (s.sched.phys j.lcore) d.part).modInst j.task j.lcore
        (fun x => { x with state := .dropped, slot := none, saved := none, cur := none })).bump (taskOd j.task 5)) s
    (s, cores)

/-- w0 of a task already is what its descriptor asks. -/
def Win.isSpec (x : Win) (p : WinSpec) : Bool :=
  x.isOpen && x.size == ceilDiv p.size 32 * 32 && x.attr == p.attr && x.f == p.f && x.b == p.b

/-- A window that is to be opened anew is closed first (R224). -/
def State.closeOld (s : State) (c : Fin 16) (p w : Nat) : State :=
  if ((s.cores[c]).pad.win p w).isOpen then s.modPad c (fun k => k.close p w) else s

/-- Segment slots a window holds (R210). -/
def Win.slots (x : Win) : Nat := x.size / 32800

/-- A window that other stops may reach has opened: its owner sends its generation with credits to the builder's stop, a slot each for a segment
ring, and to Peony's (R133, R241; log entry 31). -/
def State.grantWin (s : State) (c : Fin 16) (p w : Nat) : State :=
  let x := (s.cores[c]).pad.win p w
  let credit := fun (s : State) (stop n : Nat) =>
    s.post 6 { ddev := s.device, dstop := stop, sdev := s.device, sstop := coreStop c.val, part := p, win := w, gen := x.gen, tag := n }
  let s := if bitAt x.attr 3 then credit s stopFE (if bitAt x.attr 6 then x.slots else 1) else s
  if bitAt x.attr 3 ∨ bitAt x.attr 2 then credit s stopPE 1 else s

/-- Open one window of a task, w0 of another task being replaced (R224); none where it may not open. -/
def State.openOne (s : State) (c : Fin 16) (part : Nat) (p : WinSpec) (w : Nat) : Option State :=
  let x := (s.cores[c]).pad.win part w
  if !p.named ∨ (x.isOpen ∧ w ≠ 0) ∨ (x.isOpen ∧ x.isSpec p) then some s
  else
    let s := s.closeOld c part w
    let sz := ceilDiv p.size 32 * 32
    if s.winRules part w sz p.attr true && s.namedFree c p then
      some ((s.modPad c (fun k => k.openAt part w sz p.attr p.f p.b)).grantWin c part w)
    else none

/-- Open windows one after another. -/
def State.openList (c : Fin 16) (part : Nat) : List (WinSpec × Nat) → State → Option State
  | [], s => some s
  | y :: l, s => (s.openOne c part y.1 y.2).bind (State.openList c part l)

/-- Open the windows of a task on a core (R228, R371): none where one of them may not open. -/
def State.openNamed (s : State) (c : Fin 16) (d : TaskDesc) : Option State :=
  State.openList c d.part (d.wins.zip (List.range 8)) s

/-- Scalar registers at task start (R192). -/
def startRegs (r : TaskRun) (c : Fin 16) : Vector (BitVec 64) 32 :=
  let z : Vector (BitVec 64) 32 := Vector.replicate 32 0
  let z := z.set 1 (BitVec.ofNat 64 r.frame)
  let z := z.set 2 (BitVec.ofNat 64 r.arg)
  z.set 3 (BitVec.ofNat 64 (c.val + r.copy * 16 + 256 * r.part + 65536 * r.task))

/-- Resume a pre-empted instance (R217): its save slot gives the registers, the descriptors, the window entries, the array queue and the top-k
list back; an uncorrectable word of the slot ends it with ECC (R238, log entry 164). -/
def State.resumeInst (s : State) (c : Fin 16) (i : Inst) (r : TaskRun) (q : Seq) : State × List (Fin 16) :=
  let k := s.cores[c]
  let w := (s.sched.part r.part).getD {} |>.saveWin (i.slot.getD 0)
  match k.pad.firstBad w 0 10240 with
  | some a =>
    let s := (s.padUncorrectable c a).recordExc c 7 q.pc i.task 0
    let (s, cs) := s.lose i .ended
    (s, c :: cs)
  | none =>
    let b := k.pad.bytes w 0 10240
    let s := s.modInst i.task i.lcore (fun x => { x with state := .running, saved := none, cur := none, slot := none })
    ((s.modCore c (fun k => { k with
      seq := { q.restored b with dmaQ := k.seq.dmaQ, task := some r }
      arr := { k.arr.fresh with cur := i.cur }
      pad := k.pad.restoreWins r.part b })).loadReplicas c r.part, [])

/-- Start a fresh instance or resume a pre-empted one on an idle core (R192, R217, R224, R370, R371); answers the cores to
decide again. Windows w1 to w7 keep what the partition's other tasks made of them (log entry 25). -/
def State.startInst (s : State) (c : Fin 16) (i : Inst) : State × List (Fin 16) :=
  let d := s.sched.descOf i
  let r : TaskRun := { task := i.task, part := d.part, copy := d.copy, frame := s.frame.comp.n, arg := d.arg, lcore := i.lcore }
  match i.saved with
  | some q => s.resumeInst c i r q
  | none =>
    match s.openNamed c d with
    | none =>
      let s := s.recordExc c 0x0C 0 i.task 0
      let s := s.countRaise (taskOd i.task 7) 0x900C i.task
      let (s, cs) := s.lose i .ended
      (s, c :: cs)
    | some s =>
      let s := (s.modInst i.task i.lcore (fun x => { x with state := .running })).loadReplicas c d.part
      (s.modCore c (fun k => { k with
        seq := { (default : Seq) with regs := startRegs r c, task := some r, dmaQ := k.seq.dmaQ }
        arr := k.arr.fresh }), [])

/-- The scheduler ends a running instance with ENDED (R215 code 0x0C). -/
def State.endRunning (s : State) (c : Fin 16) : State × List (Fin 16) :=
  match s.sched.runningOn c.val with
  | none => (s, [])
  | some i =>
    let s := s.recordExc c 0x0C (s.cores[c]).seq.pc i.task 0
    let s := s.takeOff c
    let (s, cs) := s.lose i .ended
    (s, c :: cs)

/-- Save slots of a partition in use on a core. -/
def Sched.slotsUsed (x : Sched) (c p : Nat) : List Nat :=
  (x.on c).filterMap (fun i => if (x.descOf i).part = p then i.slot else none)

/-- The next core of the rotation (R39, R383): retired and quarantined ones are skipped. -/
def State.turnNext (s : State) : State :=
  let r := s.sched.rotation
  let n := (((List.range 16).map (fun i => (r + i + 1) % 16)).find? (fun c => !bitAt s.sched.retired c)).getD r
  ((s.modSched (fun x => { x with rotation := n })).setNum (od 0x9000 0x0B) n).setNum (od 0x9F00 4) 0

/-- Ask for the pre-emption of what runs on a core (R380, R381); `keep` where the reason is an earlier due time in the same
partition, which does not pre-empt without a free save slot. -/
def State.askPreempt (s : State) (c : Fin 16) (i : Inst) (keep : Bool) : State × List (Fin 16) :=
  let p := (s.sched.descOf i).part
  let n := ((s.sched.part p).map (·.slots)).getD 0
  if (s.sched.preemptAt[c]).isSome then (s, [])
  else if n ≤ (s.sched.slotsUsed c.val p).length then
    let s := s.countRaise (od 0x9F00 0x0A) 0x900B p
    if keep then (s, []) else s.endRunning c
  else (s.modSched (fun x => { x with preemptAt := x.preemptAt.set c (some s.frame.now) }), [])

/-- One dispatch decision on one core (R370); answers the cores to decide again. -/
def State.decideOne (s : State) (c : Fin 16) : State × List (Fin 16) :=
  let x := s.sched
  if !x.running_ || x.hold || bitAt x.retired c.val || x.testing.contains c.val then (s, [])
  else
    match x.runningOn c.val with
    | none =>
      if x.want.contains c.val then
        (s.modSched (fun x => { x with want := x.want.filter (· != c.val), testing := c.val :: x.testing }), [])
      else
        match x.choice c.val with
        | none => (s, [])
        | some i => s.startInst c i
    | some r =>
      if x.want.contains c.val ∨ x.eligible r.lcore ≠ some (x.descOf r).part then s.askPreempt c r false
      else
        match x.choice c.val with
        | none => (s, [])
        | some i => if (x.descOf i).due < (x.descOf r).due then s.askPreempt c r true else (s, [])

/-- Decisions on a list of cores and on what they free, `fuel` at most. -/
def State.decideAll : Nat → State → List (Fin 16) → State
  | 0, s, _ => s
  | _, s, [] => s
  | n + 1, s, c :: cs =>
    let (s', more) := s.decideOne c
    State.decideAll n s' (cs ++ more)

/-- The dispatch decision on the cores named. -/
def State.dispatch (s : State) (cs : List (Fin 16)) : State := s.decideAll 8192 cs

/-- A task ends by an exception (R215, R216): recorded, its units stopped, its instance ENDED with what R379 gives the frame,
and the core takes its next decision. SEGMENT is counted too (R210). -/
def State.except (s : State) (c : Fin 16) (code pc : Nat) (detail : Nat := 0) : State :=
  match (s.cores[c]).seq.task with
  | none => s
  | some r =>
    let s := if code = 6 then s.countRaise (odCore 0x6102 c 5) 0x6011 c.val else s
    let s := s.recordExc c code pc r.task detail
    let s := s.takeOff c
    match s.sched.runningOn c.val with
    | none => s
    | some i =>
      let (s, cs) := s.lose i .ended
      s.dispatch (c :: cs)

/-- An exception raised by work of a task that may have been pre-empted, whose instance then ends, or be over, when nothing is
left to end. -/
def State.exceptRun (s : State) (c : Fin 16) (r : TaskRun) (code pc : Nat) : State :=
  if (s.cores[c]).seq.task = some r then s.except c code pc
  else
    match s.sched.insts.find? (fun i => i.task == r.task && i.lcore == r.lcore && i.state == .preempted) with
    | some i =>
      if r.frame = s.frame.comp.n then
        let s := if code = 6 then s.countRaise (odCore 0x6102 c 5) 0x6011 c.val else s
        let s := s.recordExc c code pc r.task 0
        let s := s.modCore c (fun k => { k with arr := k.arr.endTask r })
        let (s, cs) := s.lose i .ended
        s.dispatch (c :: cs)
      else s
    | none => s

/-- A task ends by TEND (R201): DONE. -/
def State.taskDone (s : State) (c : Fin 16) : State :=
  let i := s.sched.runningOn c.val
  let s := s.takeOff c
  match i with
  | none => s
  | some i => (s.modInst i.task i.lcore (fun x => { x with state := .done })).dispatch [c]

/-- WAITING instances of a core whose counter holds their threshold become READY (R369). -/
def State.wakeCore (s : State) (c : Fin 16) : State :=
  let due := (s.sched.on c.val).filter (fun i =>
    let d := s.sched.descOf i
    i.state == .waiting && decide (d.threshold ≤ ((s.cores[c]).pad.kctr[d.ready]?).getD 0))
  if due.isEmpty then s
  else (due.foldl (fun s i => s.modInst i.task i.lcore (fun x => { x with state := .ready })) s).dispatch [c]

/-- The value of an arrival counter. -/
def State.kget (s : State) (c : Fin 16) (k : Nat) : Nat := ((s.cores[c]).pad.kctr[k]?).getD 0

/-- Put an arrival counter. -/
def State.kset (s : State) (c : Fin 16) (k : Nat) (v : Nat) : State :=
  s.modPad c (fun p => { p with kctr := p.kctr.set (Fin.ofNat 64 k) v })

/-- Add to an arrival counter (R244, R245): it stays at 0xFFFF_FFFF, counted, EV 0x7009; instances waiting on it wake. -/
def State.kadd (s : State) (c : Fin 16) (k n : Nat) : State :=
  let v := s.kget c k + n
  let s := if v > 0xFFFFFFFF then s.countRaise (odCore 0x7100 c 12) 0x7009 c.val else s
  (s.kset c k (Nat.min v 0xFFFFFFFF)).wakeCore c

/-! Safety states (R427-R429). -/

/-- The safety state that its causes give (R427): the most severe that applies. -/
def State.safetyOf (s : State) : Nat :=
  if s.num (od 0xA000 0x0A) ≠ 0 then 3
  else if s.num (od 0xA000 3) ≠ 0 then 2
  else if !s.sched.doubt.isEmpty ∨ s.safety.ctrlFailed then 1 else 0

/-- Show the safety state; the power state is SAFE exactly with it (R427, R551), and leaving DOUBT raises EV 0xA008. -/
def State.showSafety (s : State) : State :=
  let was := s.num (od 0xA000 2)
  let now := s.safetyOf
  let s := s.setNum (od 0xA000 2) now
  let s := if now = 3 ∧ 1 < s.num (od 0xE000 1) ∧ s.num (od 0xE000 1) < 5 then s.setNum (od 0xE000 1) 5 else s
  if was = 1 ∧ now = 0 then s.raise 0xA008 else s

/-- Update Foxglove, Marigold and Hollyhock. -/
def State.modSafety (s : State) (f : Safety → Safety) : State := { s with safety := f s.safety }

/-- The tasks that run on the given cores, each with an ENDED of its own (R248, R429): the drops of one do not take the others' place. -/
def State.endTogether (s : State) (cs : List (Fin 16)) : State :=
  let is := cs.filterMap (fun c => (s.sched.runningOn c.val).map (fun i => (c, i)))
  let s := is.foldl (fun s y => (s.recordExc y.1 0x0C (s.cores[y.1]).seq.pc y.2.task 0).takeOff y.1) s
  let s := is.foldl (fun s y => s.modInst y.2.task y.2.lcore (fun x => { x with state := .ended, slot := none, saved := none, cur := none })) s
  is.foldl (fun s y => (s.lose y.2 .ended).1) s

/-- Every core's running task ends with ENDED (R215, R248, R429, R553). -/
def State.endEvery (s : State) : State := s.endTogether (List.finRange 16)

/-- Every instance that has not come to its end is lost: the running ones ENDED, the others DROPPED (R379). -/
def State.loseAll (s : State) : State :=
  let s := s.endEvery
  (s.sched.insts.filter (fun i => i.state.live)).foldl (fun s i =>
    if (s.sched.insts.find? (fun j => j.task == i.task && j.lcore == i.lcore)).any (fun j => j.state.live) then (s.lose i .dropped).1 else s) s

/-- A cause of SAFE (R429): EV 0xA007 on entry, every task ends, nothing more is dispatched. -/
def State.enterSafe (s : State) (bit : Nat) : State :=
  let before := s.num (od 0xA000 0x0A)
  let s := s.setMask (od 0xA000 0x0A) bit
  if before ≠ 0 then s
  else
    let s := s.modSched (fun x => { x with running_ := false })
    let s := s.endEvery
    (s.raise 0xA007).showSafety

/-- Marigold cannot stand in for the main channel: it is STOPPED, or the mode is COMPARE (R407, R429). -/
def State.noFallback (s : State) : Bool := s.num (od 0xA030 9) == 3 || s.num (od 0xA000 1) == 0

/-- A cause of FALLBACK (R428): EV 0xA006 on entry; where nothing can be primary it is a cause of SAFE (R429). -/
def State.enterFallback (s : State) (bit : Nat) : State :=
  let before := s.num (od 0xA000 3)
  let s := s.setMask (od 0xA000 3) bit
  let s := if before = 0 then s.raise 0xA006 else s
  let s := if s.noFallback then s.enterSafe 5 else s
  s.showSafety

/-- Marigold's state (R425). -/
def State.setMarigold (s : State) (v : Nat) : State := s.setNum (od 0xA030 9) v

/-- Marigold goes to STOPPED until the module restarts (R425): EV 0xA00B; a FALLBACK cause then is a cause of SAFE (R429). In a mode with
FALLBACK SRV_N is asserted. -/
def State.stopMarigold (s : State) : State :=
  if s.num (od 0xA030 9) = 3 then s
  else
    let s := (s.setMarigold 3).modSafety (fun x => { x with mari := none })
    let s := s.raise 0xA00B 0xFF 0 (s.num (od 0xA000 1) != 0)
    let s := if s.num (od 0xA000 1) = 0 then s else s.causeComp .safety 1
    if s.num (od 0xA000 3) ≠ 0 then s.enterSafe 5 else s

/-! Capacity doubt (R386). -/

/-- Declare a cause of capacity doubt (R386): 0 no plan, 1 fold margin, 2 controllers, 3 throttle, 4 overruns. -/
def State.declareDoubt (s : State) (cause : Nat) : State :=
  let first := s.sched.doubt.isEmpty
  let s := s.modSched (fun x => { x with
    doubt := if x.doubt.contains cause then x.doubt else cause :: x.doubt
    quietThrottle := if cause = 3 then 0 else x.quietThrottle
    quietOverrun := if cause = 4 then 0 else x.quietOverrun })
  let s := s.setNum (od 0x9000 0x0A) 1
  (if first then s.raise 0x9007 else s).showSafety

/-- A cause of doubt is gone. -/
def State.clearDoubt (s : State) (cause : Nat) : State :=
  if s.sched.doubt.contains cause then
    let s := s.modSched (fun x => { x with doubt := x.doubt.filter (· != cause) })
    (if s.sched.doubt.isEmpty then s.setNum (od 0x9000 0x0A) 0 else s).showSafety
  else s

/-- Ask for a targeted Hollyhock test of a core (R385, R419). -/
def State.askTarget (s : State) (c : Nat) : State :=
  s.modSched (fun x => { x with targeted := if x.targeted.contains c then x.targeted else x.targeted ++ [c] })

/-- Ask for a targeted test of tiles of a core (R182). -/
def State.askTiles (s : State) (c : Fin 16) (tiles : List Nat) : State :=
  (s.modArr c (fun a => { a with targetTiles := tiles.foldl (fun l t => if l.contains t then l else l ++ [t]) a.targetTiles })).askTarget c.val

end Sys2Proof.Machine
end

