-- ==== Sys2Proof/Machine/ExtMem.lean ====
section
/-! DEFINITION. External memory: the DRAM controllers (R344-R354, R399) and Marigold's HyperRAM (R355, R356, R401), and the
flash flush of the event log (R357, R359). -/

namespace Sys2Proof.Machine

/-- Update the external memories. -/
def State.modExt (s : State) (f : Ext → Ext) : State := { s with ext := f s.ext }

/-- The usable controllers in ascending number (R345). -/
def State.controllers (s : State) : List Nat := bitList (s.num (od 0x7800 1)) 8

/-- The capacity in bytes: n × 7 GiB (R347). -/
def State.capacity (s : State) : Nat := 7516192768 * s.controllers.length

/-- The controller of a device address (R345). -/
def State.ctrlOf (s : State) (da : Nat) : Nat :=
  let u := s.controllers
  u.getD (da / 256 % Nat.max 1 u.length) 0

/-- Where a device address lies: (controller · 4 + channel) · 16 + bank, bank row, line slot (R345). -/
def State.dramPlace (s : State) (da : Nat) : Nat × Nat × Nat :=
  let l := da / 256 / Nat.max 1 s.controllers.length
  let r := l / 28
  ((s.ctrlOf da * 4 + bitsOf da 7 6) * 16 + r % 16, r / 16, l % 28)

/-- A controller's row and check-group state after an access to a line (R346, R399). -/
def State.touchRow (s : State) (da : Nat) : State :=
  let (b, row, slot) := s.dramPlace da
  s.modExt (fun e => { e with
    rows := Sparse.put (fun _ => 0) e.rows b (row + 1)
    groups := Sparse.put (fun _ => 0) e.groups b (row * 4 + slot / 8 + 1) })

/-- A controller fails (R353): stored, EV 0x7801 with SRV_N; in RUN it is a cause of DOUBT until restart (R427). -/
def State.failController (s : State) (c : Nat) : State :=
  if bitAt s.ext.failed c then s
  else
    let s := s.modExt (fun e => { e with failed := setBit e.failed c })
    let s := s.setNum (od (0x7880 + c) 4) 1
    let s := s.store (od 0x7800 3) (.num (setBit (s.num (od 0x7800 3)) c))
    let s := s.raise 0x7801 c 0 true
    if s.frame.run then (s.modSafety (fun x => { x with ctrlFailed := true })).showSafety else s

/-- An uncorrectable word (R350, R352, R353): counted, its DA recorded, EV 0x7802 once per frame; more than UE_LIMIT within 1 s
fail the controller. -/
def State.dramUe (s : State) (da : Nat) : State :=
  let c := s.ctrlOf da
  let now := s.frame.now
  let s := (s.bump (od (0x7880 + c) 2)).setNum (od (0x7880 + c) 3) da
  let s := s.raiseIng 0x7802 c da
  let s := s.modExt (fun e => { e with ueAt := e.ueAt.filter (fun y => decide (now < y.2 + 1000000000)) ++ [(c, now)] })
  if s.num (od 0x7800 5) < (s.ext.ueAt.filter (fun y => y.1 == c)).length then s.failController c else s

/-- Some line of [da, da + n) is in a failed controller. -/
def State.dramDead (s : State) (da n : Nat) : Option Nat :=
  ((List.range (if n = 0 then 0 else (da + n - 1) / 256 - da / 256 + 1)).map (fun i => 256 * (da / 256 + i))).find?
    (fun a => bitAt s.ext.failed (s.ctrlOf a))

/-- Read [da, da + n) (R346, R350); none where it is uncorrectable. -/
def State.dramGet (s : State) (da n : Nat) (e : Ecc := .clean) : State × Option Bytes :=
  let s := s.touchRow da
  match s.dramDead da n with
  | some a => (s.dramUe a, none)
  | none =>
    let words := (List.range (if n = 0 then 0 else (da + n - 1) / 8 - da / 8 + 1)).map (fun i => da / 8 + i)
    match words.find? (fun a => Sparse.get noBit s.ext.bad a) with
    | some a => (s.dramUe (a * 8), none)
    | none =>
      match e with
      | .uncorrectable =>
        ((s.modExt (fun x => { x with bad := Sparse.put noBit x.bad (da / 8) true })).dramUe da, none)
      | .corrected => (s.bump (od (0x7880 + s.ctrlOf da) 1), some (Sparse.getN zeroByte s.ext.dram da n))
      | .clean => (s, some (Sparse.getN zeroByte s.ext.dram da n))

/-- Write bytes at da (R346, R350, R353): bytes of a failed controller are discarded and each write counted; a whole line
rewritten is sound again. -/
def State.dramPut (s : State) (da : Nat) (d : Bytes) : State :=
  let s := s.touchRow da
  let lines := (List.range (if d.length = 0 then 0 else (da + d.length - 1) / 64 - da / 64 + 1)).map (fun i => da / 64 + i)
  lines.foldl (fun s l =>
    let lo := Nat.max da (l * 64)
    let hi := Nat.min (da + d.length) (l * 64 + 64)
    let c := s.ctrlOf lo
    if bitAt s.ext.failed c then s.bump (od (0x7880 + c) 5)
    else s.modExt (fun e => { e with
      dram := Sparse.putN zeroByte e.dram lo (slice d (lo - da) (hi - lo))
      bad := if hi - lo = 64 then (List.range 8).foldl (fun m i => Sparse.put noBit m (l * 8 + i) false) e.bad else e.bad })) s

/-- The device address of an offset in a partition's region, where n bytes from it lie inside (R349). -/
def State.regionAt (s : State) (p off n : Nat) : Option Nat :=
  let base := 67108864 * s.num (od (0x7810 + p) 1)
  let size := 67108864 * s.num (od (0x7810 + p) 2)
  if off + n ≤ size then some (base + off) else none

/-- The regions of all partitions are a legal configuration (R349): disjoint, clear of the system region, within the
capacity. -/
def regionsOk (get : Nat → Nat) (cap : Nat) : Bool :=
  (List.range 8).all (fun p =>
    let b := get (od (0x7810 + p) 1)
    let n := get (od (0x7810 + p) 2)
    n == 0 || (decide (32 ≤ b ∧ 67108864 * (b + n) ≤ cap) &&
      (List.range 8).all (fun q =>
        let b2 := get (od (0x7810 + q) 1)
        let n2 := get (od (0x7810 + q) 2)
        q == p || n2 == 0 || decide (b + n ≤ b2 ∨ b2 + n2 ≤ b))))

/-- The sum of the bandwidth shares is at most 62 (R351). -/
def sharesOk (get : Nat → Nat) : Bool :=
  decide (((List.range 8).map (fun p => get (od (0x7810 + p) 3))).foldl (· + ·) 0 ≤ 62)

/-- DRAM_READ (R346, R350, R399): the answer is kept in the state; none where it is uncorrectable. -/
def execDramRead (da : Nat) (n : Nat) (ecc : Ecc) (t : Nat) (s : State) : Out :=
  let s := s.at t
  .next (if s.capacity < da + n ∨ 128 < n then s
    else
      let (s, r) := s.dramGet da n ecc
      s.modExt (fun e => { e with lastRead := r }))

/-- DRAM_WRITE (R346, R348, R399). -/
def execDramWrite (da : Nat) (data : Bytes) (s : State) : Out :=
  .next (if s.capacity < da + data.length then s else s.dramPut da data)

/-- DRAM_REFRESH (R399): the bank is precharged. -/
def execDramRefresh (ctrl : Fin 8) (chan : Fin 4) (bank : Fin 16) (s : State) : Out :=
  .next (s.modExt (fun e => { e with
    rows := Sparse.put (fun _ => 0) e.rows ((ctrl.val * 4 + chan.val) * 16 + bank.val) 0
    groups := Sparse.put (fun _ => 0) e.groups ((ctrl.val * 4 + chan.val) * 16 + bank.val) 0 }))

/-- PATROL_SCRUB (R352): `line` is the channel-line number ℓ over all four channels, ℓ · 4 + channel, of the controller. A
corrected word is counted, an uncorrectable one left; the scrub raises EV 0x7802 and counts as R350. -/
def execPatrolScrub (ctrl : Fin 8) (line : Nat) (ecc : Ecc) (t : Nat) (s : State) : Out :=
  let s := s.at t
  let n := Nat.max 1 s.controllers.length
  let k := (s.controllers.takeWhile (· != ctrl.val)).length
  let da := 256 * (line / 4 * n + k) + line % 4 * 64
  .next (if ctrl.val ∉ s.controllers then s
    else
      let s := (s.dramGet da 64 ecc).1
      s.modExt (fun e => { e with scrubbed := Sparse.put (fun _ => 0) e.scrubbed ctrl.val (line + 1) }))

/-- DRAM_CONTROLLER_FAIL (R353). -/
def execDramControllerFail (ctrl : Fin 8) (s : State) : Out := .next (s.failController ctrl.val)

/-- FAILURE_CLEAR (R354): armed for the next restart. -/
def execFailureClear (by_ : Writer) (v : BitVec 8) (s : State) : Out :=
  .next (s.command by_ 0x7800 4 (.num v.toNat) (fun _ => 0)
    (fun s => if v = 1 then s.arm (od 0x7800 4) else s))

/-- A HyperRAM device has failed (OD 0x7890.01). -/
def State.hyperDead (s : State) (d : Nat) : Bool := bitAt (s.num (od 0x7890 1)) d

/-- A HyperRAM device fails (R356): stored, EV 0x7805 with SRV_N; Marigold runs as SINGLE_RAM, or stops with both gone (R425). -/
def State.failHyper (s : State) (d : Nat) : State :=
  if s.hyperDead d then s
  else
    let s := (s.store (od 0x7890 1) (.num (setBit (s.num (od 0x7890 1)) d))).raise 0x7805 d 0 true
    if s.hyperDead 0 ∧ s.hyperDead 1 then s.stopMarigold
    else if s.num (od 0xA030 9) = 0 then s.setMarigold 2 else s

/-- An uncorrectable HyperRAM word (R355, R356): more than 16 within 1 s fail the device. -/
def State.hyperUe (s : State) (d : Nat) : State :=
  let now := s.frame.now
  let s := s.bump (od 0x7890 3)
  let s := s.modExt (fun e => { e with hyperUeAt := e.hyperUeAt.filter (fun y => decide (now < y.2 + 1000000000)) ++ [(d, now)] })
  if 16 < (s.ext.hyperUeAt.filter (fun y => y.1 == d)).length then s.failHyper d else s

/-- One device's read: its words, or none where one is uncorrectable (R355). -/
def State.hyperOne (s : State) (d a n : Nat) (e : Ecc) : State × Bool :=
  let bad := if d = 0 then s.ext.hyperBad0 else s.ext.hyperBad1
  let words := (List.range (if n = 0 then 0 else (a + n - 1) / 8 - a / 8 + 1)).map (fun i => a / 8 + i)
  if words.any (fun w => Sparse.get noBit bad w) ∨ e = .uncorrectable then
    let s := if e = .uncorrectable then s.modExt (fun x =>
      if d = 0 then { x with hyperBad0 := Sparse.put noBit x.hyperBad0 (a / 8) true }
      else { x with hyperBad1 := Sparse.put noBit x.hyperBad1 (a / 8) true }) else s
    (s.hyperUe d, false)
  else (if e = .corrected then s.bump (od 0x7890 2) else s, true)

/-- HYPERRAM_READ (R355): device 0 first, then device 1 after an uncorrectable word; a failed device is passed over. -/
def execHyperramRead (a : Nat) (n : Nat) (ecc0 : Ecc) (ecc1 : Ecc) (t : Nat) (s : State) : Out :=
  let s := s.at t
  .next (if 14680064 < a + n then s
    else
      let (s, ok0) := if s.hyperDead 0 then (s, false) else s.hyperOne 0 a n ecc0
      let (s, ok) := if ok0 then (s, true) else if s.hyperDead 1 then (s, false) else s.hyperOne 1 a n ecc1
      s.modExt (fun e => { e with lastRead := if ok then some (Sparse.getN zeroByte e.hyper a n) else none }))

/-- A device that gives no answer fails (R356). -/
def State.hyperHears (s : State) (d : Fin 2) (answers : Bool) : State := if answers then s else s.failHyper d

/-- The words of eight bytes that a write of `n` bytes from `a` on fills whole. -/
def wholeWords (a n : Nat) : List Nat :=
  (List.range (n / 8 + 1)).filterMap (fun i =>
    let w := ceilDiv a 8 + i
    if 8 * w + 8 ≤ a + n then some w else none)

/-- The bytes reach every device that still works; a word written whole holds right check bits again. -/
def State.hyperStore (s : State) (a : Nat) (data : Bytes) : State :=
  if s.hyperDead 0 ∧ s.hyperDead 1 then s
  else s.modExt (fun e => { e with
    hyper := Sparse.putN zeroByte e.hyper a data
    hyperBad0 := (wholeWords a data.length).foldl (fun m w => Sparse.put noBit m w false) e.hyperBad0
    hyperBad1 := (wholeWords a data.length).foldl (fun m w => Sparse.put noBit m w false) e.hyperBad1 })

/-- HYPERRAM_WRITE (R355, R356): both devices at once; one that does not answer fails. -/
def execHyperramWrite (a : Nat) (data : Bytes) (answers0 : Bool) (answers1 : Bool) (s : State) : Out :=
  .next (if 14680064 < a + data.length then s else ((s.hyperHears 0 answers0).hyperHears 1 answers1).hyperStore a data)

/-! The system region (R23, R349): DA 0 model library, 128 MiB update staging of each open transfer, 64 MiB retained records, the event-log
staging buffer, and the snapshot area (log entry 172). -/

/-- Where the staging of an open transfer lies: eight slots of 128 MiB. -/
def stagingAt (slot : Nat) : Nat := 0x08000000 * (slot + 1)

/-- Where a retained record lies: eight slots of 8 MiB. -/
def retainedAt (slot : Nat) : Nat := 0x50000000 + 0x00800000 * slot

/-- Where a staged event record lies: 32 bytes each. -/
def logStagingAt (i : Nat) : Nat := 0x5C000000 + 32 * i

/-- The snapshot area (R349). -/
def snapArea : Nat := 0x60000000

/-- Records enter the log ring of 262,144 records, whose oldest block of 2,048 records is overwritten when it is full (R359). -/
def EvLog.keepAll (l : EvLog) (rs : List EventRec) : EvLog :=
  let ring := l.ring ++ rs
  { l with ring := ring.drop (2048 * ceilDiv (ring.length - 262144) 2048), staged := [] }

/-- An event record's bytes (R503). -/
def EventRec.bytes (r : EventRec) : Bytes :=
  natLe 2 r.code ++ natLe 1 r.inst ++ natLe 1 r.flags ++ natLe 4 r.seq ++ time80 r.time ++ natLe 4 r.frame ++ zeros 2 ++ natLe 8 r.value

/-- A staged record passes through the staging buffer in DRAM: whether it can still be read there (R350). -/
def State.stageRecord (s : State) (i : Nat) (r : EventRec) : State × Bool :=
  match (s.dramPut (logStagingAt i) r.bytes).dramGet (logStagingAt i) 32 with
  | (s, some _) => (s, true)
  | (s, none) => (s, false)

/-- The staged records go to the log ring; one whose staging word cannot be read is lost alone (R350, R357, R359). -/
def State.flushLog (s : State) : State :=
  let rs := s.log.staged
  let (s, kept) := (rs.zip (List.range rs.length)).foldl (fun (x : State × List EventRec) y =>
    match x.1.stageRecord y.2 y.1 with
    | (s, true) => (s, x.2 ++ [y.1])
    | (s, false) => (s, x.2)) (s, [])
  -- an uncorrectable word met here raises its own event, which stays staged
  { s with log := { s.log.keepAll kept with staged := s.log.staged.drop rs.length } }

/-- EVENT_LOG_FLUSH (R357, R359): the staged records go to the log ring; a failed program operation retires a block. -/
def execEventLogFlush (ok : Bool) (s : State) : Out :=
  let s := s.flushLog
  .next (if ok then s else s.countRaise (od 0x7900 4) 0x7807)

end Sys2Proof.Machine
end

