-- ==== Sys2Proof/Machine/Flags.lean ====
section
/-! DEFINITION. The sequencer's arithmetic, shifts, comparisons and predicate operations (R196, R201). -/

namespace Sys2Proof.Machine

/-- A scalar register value. -/
abbrev Scalar := BitVec 64

/-- The immediate field, sign-extended (R201). -/
def immOf (i : Nat) : Scalar := BitVec.ofInt 64 (signedOf 32 i)

/-- Shifts take the low six bits of the amount (R201). -/
def shAmount (b : Scalar) : Nat := b.toNat % 64

/-- Signed minimum. -/
def sMin (a b : Scalar) : Scalar := if a.toInt ≤ b.toInt then a else b

/-- Signed maximum. -/
def sMax (a b : Scalar) : Scalar := if a.toInt ≤ b.toInt then b else a

/-- The conditions of CMP and CMPI (R196). -/
def condOf (d : Nat) (a b : Scalar) : Bool :=
  match d with
  | 0 => a == b
  | 1 => a != b
  | 2 => decide (a.toNat < b.toNat)
  | 3 => decide (b.toNat ≤ a.toNat)
  | 4 => decide (a.toInt < b.toInt)
  | _ => decide (b.toInt ≤ a.toInt)

/-- The operations of PLOG (R196). -/
def plogOf (d : Nat) (a b : Bool) : Bool :=
  match d with
  | 0 => a && b
  | 1 => a || b
  | 2 => a != b
  | _ => a && !b

end Sys2Proof.Machine
end

