-- ==== Sys2Proof/Machine/Operands.lean ====
section
/-! DEFINITION. The sequencer's instruction word and its operands (R193-R199): fields, unused bits, guard, registers,
descriptors, and the issue of one instruction. -/

namespace Sys2Proof.Machine

/-- The bits of the fields A, B, C, D and I that a row of the instruction tables uses, and the highest code of D (R195). -/
structure Shape where
  a : Nat := 0
  b : Nat := 0
  c : Nat := 0
  d : Nat := 0
  i : Nat := 0
  dmax : Nat := 15

/-- An instruction as issued: the task, the PC and the fields of R194. -/
structure Ins where
  r : TaskRun
  pc : Nat
  a : Nat
  b : Nat
  c : Nat
  d : Nat
  i : Nat

/-- What an instruction does: go on with the next word, go to a target, wait or have ended its task, or raise an exception. -/
inductive Eff where
  | next (s : State)
  | jump (s : State) (target : Int)
  | stay (s : State)
  | exc (s : State) (code : Nat) (detail : Nat)

/-- No bit of `v` outside `used` is set. -/
def within (v used : Nat) : Bool := v ||| used == used

/-- The unused bits are zero and D holds no reserved code (R195). -/
def Shape.ok (h : Shape) (w : Nat) : Bool :=
  within (bitsOf w 51 46) h.a && within (bitsOf w 45 41) h.b && within (bitsOf w 40 36) h.c &&
  within (bitsOf w 35 32) h.d && within (bitsOf w 31 0) h.i && decide (bitsOf w 35 32 ≤ h.dmax)

/-- Write a scalar register; writes to s0 are discarded (R191). -/
def Seq.wr (q : Seq) (n : Nat) (v : Scalar) : Seq :=
  if n % 32 = 0 then q else { q with regs := q.regs.set (Fin.ofNat 32 n) v }

/-- Write a predicate. -/
def Seq.setPred (q : Seq) (n : Nat) (v : Bool) : Seq := { q with preds := q.preds.set (Fin.ofNat 4 n) v }

/-- The core's sequencer. -/
def State.seqOf (s : State) (c : Fin 16) : Seq := (s.cores[c]).seq

/-- Read a scalar register of a core. -/
def State.rs (s : State) (c : Fin 16) (n : Nat) : Scalar := (s.seqOf c).rd n

/-- Write a scalar register of a core. -/
def State.ws (s : State) (c : Fin 16) (n : Nat) (v : Scalar) : State := s.modSeq c (fun q => q.wr n v)

/-- Put the PC. -/
def State.setPc (s : State) (c : Fin 16) (pc : Nat) : State := s.modSeq c (fun q => { q with pc := pc })

/-- The guard lets the instruction run (R194). -/
def Seq.guardOk (q : Seq) (w : Nat) : Bool :=
  !bitAt w 55 || (q.pred (bitsOf w 53 52) != bitAt w 54)

/-- Size of w0, zero where it is closed. -/
def State.w0Size (s : State) (c : Fin 16) (part : Nat) : Nat :=
  let x := (s.cores[c]).pad.win part 0
  if x.isOpen then x.size else 0

/-- A PC from which an instruction can be fetched (R195). -/
def State.pcOk (s : State) (c : Fin 16) (part pc : Nat) : Bool :=
  decide (pc % 8 = 0 ∧ pc + 8 ≤ s.w0Size c part)

/-- The instruction word at byte offset `pc` of window w0: 8 bytes, little-endian (R191, R194). -/
def State.fetched (s : State) (c : Fin 16) (part pc : Nat) : Nat :=
  let k := (s.cores[c]).pad
  leNat (k.bytes (k.win part 0) pc 8)

/-- The opcode of a word is reserved, or its row reserves the operation D names (R195, R204). -/
def opReserved (n : Nat) : Bool :=
  let o := n / 2 ^ 56
  [(0x0C, 0x0F), (0x1B, 0x1F), (0x24, 0x2F), (0x34, 0x37), (0x3A, 0x3B), (0x3F, 0x3F), (0x45, 0x47), (0x4A, 0x4F), (0x53, 0x57),
    (0x5D, 0x5F), (0x64, 0x6F), (0x73, 0xFF)].any (fun y => decide (y.1 ≤ o ∧ o ≤ y.2)) ||
  (o == 0x50 && bitsOf n 33 32 == 3)

/-- The word is one of the row `op`: opcode in bits [7:0] of `op`, and for DMA the operation of D[1:0] in the bits above (R194, R204). -/
def isRow (op n : Nat) : Bool := n / 2 ^ 56 == op % 256 && (op % 256 != 0x50 || bitsOf n 33 32 == op / 256)

/-- Issue one instruction of core c (R193-R195, R216, R548). Nothing happens where no task issues or its clock stands, and nothing where the
word at the PC is another instruction than the command's. ILLEGAL is raised for a PC outside w0, a reserved opcode, unused bits or
reserved codes; ECC for a word that cannot be read; where the guard does not hold, only the PC moves; else the effect. -/
def State.issue (s : State) (c : Fin 16) (op : Nat) (w : BitVec 56) (h : Shape) (eff : State → Ins → Eff) : State :=
  let k := s.cores[c]
  match k.seq.task with
  | none => s
  | some r =>
    let pc := k.seq.pc
    if k.seq.wait ≠ .none ∨ k.frozen ∨ s.power.holdAt.isSome then s
    else if !s.pcOk c r.part pc then s.except c 1 pc
    else match k.pad.firstBad (k.pad.win r.part 0) pc 8 with
    | some a => (s.padUncorrectable c a).except c 7 pc
    | none =>
      let n := s.fetched c r.part pc
      if opReserved n then s.except c 1 pc
      else if !isRow op n ∨ n % 2 ^ 56 ≠ w.toNat then s
      else if !h.ok n then s.except c 1 pc
      else if !k.seq.guardOk n then s.setPc c (pc + 8)
      else
        match eff s { r := r, pc := pc, a := bitsOf n 51 46, b := bitsOf n 45 41, c := bitsOf n 40 36,
                      d := bitsOf n 35 32, i := bitsOf n 31 0 } with
        | .next s' => s'.setPc c (pc + 8)
        | .stay s' => s'
        | .exc s' code detail => s'.except c code pc detail
        | .jump s' t =>
          if t < 0 ∨ s.w0Size c r.part < t.toNat + 8 then s'.except c 1 pc
          else s'.setPc c t.toNat

/-! Descriptors (R197-R199). -/

/-- KIND. -/
def Desc.kind (d : Desc) : Nat := bitsOf d.ctrl 15 12
/-- Window of the rows. -/
def Desc.win (d : Desc) : Nat := bitsOf d.ctrl 11 9
/-- CMP. -/
def Desc.cmp (d : Desc) : Bool := bitAt d.ctrl 8
/-- FMT. -/
def Desc.fmt (d : Desc) : Nat := bitsOf d.ctrl 7 4
/-- Index window. -/
def Desc.iwin (d : Desc) : Nat := bitsOf d.ictrl 31 29
/-- ISEL. -/
def Desc.isel (d : Desc) : Nat := bitsOf d.ictrl 28 27
/-- IOFF. -/
def Desc.ioff (d : Desc) : Nat := bitsOf d.ictrl 23 16
/-- IREC in units of 8 bytes. -/
def Desc.irec (d : Desc) : Nat := bitsOf d.ictrl 15 8
/-- S. -/
def Desc.shift (d : Desc) : Nat := bitsOf d.ictrl 4 0
/-- Partial window of a MERGE descriptor. -/
def Desc.pwin (d : Desc) : Nat := bitsOf d.aux 63 61
/-- Partial slots of a MERGE descriptor. -/
def Desc.pslots (d : Desc) : Nat := bitsOf d.aux 60 59 + 1
/-- Partial base of a MERGE descriptor. -/
def Desc.pbase (d : Desc) : Nat := bitsOf d.aux 47 0

/-- Field f replaced. -/
def Desc.setField (d : Desc) (f v : Nat) : Desc :=
  match f with
  | 0 => { d with ctrl := v }
  | 1 => { d with base := v }
  | 2 => { d with row := v }
  | 3 => { d with count := v }
  | 4 => { d with stride := v }
  | 5 => { d with ictrl := v }
  | 6 => { d with ibase := v }
  | _ => { d with aux := v }

/-- Width of field f (R197). -/
def fieldWidth : Nat → Nat
  | 0 => 16 | 1 => 48 | 2 => 16 | 7 => 64 | _ => 32

/-- The limits TSET holds a value to (R197), in a descriptor whose KIND is `kind`: the MERGE form of AUX is held to where the KIND is MERGE (and
again where the descriptor is used), and the BASE of KIND STORE is a store row (log entry 26). -/
def fieldOk (kind f v : Nat) : Bool :=
  decide (v < 2 ^ fieldWidth f) &&
  match f with
  | 0 => decide (v % 16 = 0 ∧ v / 4096 < 8 ∧ v / 16 % 16 < 8)
  | 1 => kind == 5 || v % 32 == 0
  | 2 => decide (v % 32 = 0 ∧ 32 ≤ v ∧ v ≤ 8192)
  | 4 => v % 32 == 0
  | 5 => bitsOf v 26 24 == 0 && bitsOf v 7 5 == 0 && decide (1 ≤ bitsOf v 15 8 ∧ bitsOf v 15 8 ≤ 32) &&
      (bitsOf v 4 0 == 0 || decide (10 ≤ bitsOf v 4 0 ∧ bitsOf v 4 0 ≤ 24))
  | 7 => kind != 4 || (bitsOf v 58 48 == 0 && decide (1 ≤ bitsOf v 60 59))
  | _ => true

/-- Where row r of an indexed descriptor lies (R199): none where the index names no row; else the core and the row number. -/
def Desc.target (d : Desc) (c : Fin 16) (rec : Bytes) : Option (Fin 16 × Nat) :=
  let owner := fun (p : Nat) => coreNo (bitsOf d.aux (4 * p + 3) (4 * p))
  let by_ := fun (i : Nat) =>
    if d.shift = 0 then some (c, i)
    else if i / 2 ^ d.shift > 15 then none
    else some (owner (i / 2 ^ d.shift), i % 2 ^ d.shift)
  match d.isel with
  | 0 => let i := fieldLe rec 0 3; some (owner (i / 2 ^ 20), i % 2 ^ 20)
  | 1 => let i := fieldLe rec 3 3; some (owner (i / 2 ^ 20), i % 2 ^ 20)
  | 2 => let i := fieldLe rec d.ioff 3; if i = 0xFFFFFF then none else by_ i
  | _ => let i := fieldLe rec d.ioff 4; if i = 0xFFFFFFFF then none else by_ i

/-- A rule-book index needs records of 8 bytes (R199). -/
def Desc.irecOk (d : Desc) : Bool := 2 ≤ d.isel || d.irec == 1

/-- Read index record r of a descriptor: `IREC` × 8 bytes at IBASE + r × IREC × 8 of the index window. -/
def State.indexRec (s : State) (c : Fin 16) (part : Nat) (d : Desc) (r : Nat) (e : Finds := {}) : Got :=
  s.padRead c part d.iwin (d.ibase + r * d.irec * 8) (d.irec * 8) none e

end Sys2Proof.Machine
end

