-- ==== Sys2Proof/Machine/Queues.lean ====
section
/-! DEFINITION. The queue block (R255-R263): capacity, admission of whole packets, reads, congestion, flushes, and XOFF_N. -/

namespace Sys2Proof.Machine

/-- Modes of R258. -/
inductive QMode where | credit | drop | pfc
  deriving DecidableEq, Repr

/-- Capacity in words of 32 bytes (R263). -/
def qCap (q : Nat) : Nat :=
  if q < 8 then 8192 else if q < 10 then 2048 else if q < 20 then 4096 else if q < 22 then 8192 else 2048

/-- The mode of a queue (R263). -/
def qMode (q : Nat) : QMode :=
  if q < 10 then .drop else if q < 12 then .credit else if q < 20 then .pfc else if q < 22 then .credit else .drop

/-- The storage words of a packet with their tags (R256, R257): its bytes from byte 0 of each word on, what is left over in the last one zero; the
tag holds SOP in [7], EOP in [6], ERR in [5] and the valid bytes minus 1 in [4:0]. -/
def QPacket.storage (p : QPacket) : List (Bytes × Nat) :=
  let cs := chunksOf 32 p.data.length p.data
  (cs.zip (List.range cs.length)).map (fun y =>
    (padTo 32 y.1, (if y.2 = 0 then 128 else 0) + (if y.2 + 1 = cs.length then 64 else 0) + (if p.err then 32 else 0) + (y.1.length - 1)))

/-- The bytes a reader delivers of a storage word: the valid ones (R257). -/
def validBytes (w : Bytes × Nat) : Bytes := w.1.take (w.2 % 32 + 1)

/-- Words a packet takes (R257). -/
def QPacket.words (p : QPacket) : Nat := ceilDiv p.data.length 32

/-- The fill: words written and not yet read (R259). -/
def Queue.fill (x : Queue) : Nat := (x.pkts.map QPacket.words).foldl (· + ·) 0

/-- The watermarks of a queue that has them, in percent (R259, R263). -/
def State.watermarks (s : State) (q : Nat) : Option (Nat × Nat) :=
  if q < 8 then some (s.num (od 0x3002 1), s.num (od 0x3002 2))
  else if 12 ≤ q ∧ q < 20 then some (s.num (od (0x1830 + q) 0x0A), s.num (od (0x1830 + q) 0x0B))
  else none

/-- The congestion output after a write. -/
def State.congestUp (s : State) (q : Nat) (x : Queue) : Bool :=
  match s.watermarks q with
  | some (hi, _) => x.congested || decide (x.fill * 100 > hi * qCap q)
  | none => false

/-- The congestion output after a read or a flush. -/
def State.congestDown (s : State) (q : Nat) (x : Queue) : Bool :=
  match s.watermarks q with
  | some (_, lo) => x.congested && !decide (x.fill * 100 < lo * qCap q)
  | none => false

/-- Put a queue in place. -/
def State.setQueue (s : State) (q : Fin 24) (x : Queue) : State := { s with q := s.q.set q x }

/-- XOFF_N is driven low while any SENS queue is above its high watermark, and released when every one is below its low watermark; its
first assertion in a frame raises EV 0x3015 (R82). -/
def State.driveXoff (s : State) : State :=
  let fills := (List.finRange 8).map (fun p => 100 * (s.q[Fin.castLE (by decide : 8 ≤ 24) p]).fill)
  let on := fills.any (fun f => decide (s.num (od 0x3002 1) * qCap 0 < f)) ||
    (s.ing.xoff && !fills.all (fun f => decide (f < s.num (od 0x3002 2) * qCap 0)))
  let s1 := { s with ing := { s.ing with xoff := on } }
  if on ∧ ¬ s.ing.xoff then s1.raiseIng 0x3015 else s1

/-- The highest fill seen (OD 0x1830+q .01). -/
def State.fillPeak (s : State) (q : Fin 24) : State :=
  s.setNum (od (0x1830 + q) 1) (Nat.max (s.num (od (0x1830 + q) 1)) (s.q[q]).fill)

/-- A whole packet reaches a queue (R258): bad frames are removed and counted, one that does not fit is dropped whole. The
Bool says whether it is in the queue. -/
def State.qPush (s : State) (q : Fin 24) (p : QPacket) : State × Bool :=
  if p.err ∧ qMode q ≠ .credit then (s.bump (od (0x1830 + q) 9), false)
  else if qCap q < (s.q[q]).fill + p.words then (s.bump (od (0x1830 + q) 3), false)
  else
    let x := { s.q[q] with pkts := (s.q[q]).pkts ++ [p] }
    let s1 := s.setQueue q { x with congested := s.congestUp q x }
    (if q.val < 8 then (s1.fillPeak q).driveXoff else s1.fillPeak q, true)

/-- Take the packets of a queue away (R261, R262). -/
def State.qClear (s : State) (q : Fin 24) : State :=
  let x : Queue := { s.q[q] with pkts := [] }
  let s1 := s.setQueue q { x with congested := s.congestDown q x }
  if q.val < 8 then s1.driveXoff else s1

/-- A flush of a DROP or PFC queue (R261), counted. -/
def State.qFlush (s : State) (q : Fin 24) : State :=
  if qMode q = .credit then s else (s.qClear q).bump (od (0x1830 + q) 7)

/-- Remove the front packet. -/
def State.qShift (s : State) (q : Fin 24) : State :=
  let x : Queue := { s.q[q] with pkts := (s.q[q]).pkts.drop 1 }
  let s1 := s.setQueue q { x with congested := s.congestDown q x }
  if q.val < 8 then s1.driveXoff else s1

/-- A reader takes the front packet under R262: none where nothing is readable, or the packet or the whole queue was lost to
an uncorrectable word or tag. -/
def State.qPop (s : State) (q : Fin 24) (e : QueueEcc) : State × Option QPacket :=
  match (s.q[q]).pkts with
  | [] => (s, none)
  | p :: _ =>
    match e with
    | .badTag => ((s.qClear q).countRaise (od (0x1830 + q) 5) 0x1802 q, none)
    | .badWord => ((s.qShift q).countRaise (od (0x1830 + q) 5) 0x1801 q, none)
    | .corrected => (((s.qShift q).bump (od (0x1830 + q) 2)).bump (od (0x1830 + q) 4), some p)
    | .clean => ((s.qShift q).bump (od (0x1830 + q) 2), some p)

/-- The SENS queues are judged against their watermarks, which a NOW write has moved (R82, R259). -/
def State.judgeSens (s : State) : State :=
  ((List.finRange 8).foldl (fun s p =>
    let q : Fin 24 := Fin.castLE (by decide) p
    let x := { s.q[q] with congested := s.congestUp q s.q[q] }
    s.setQueue q { x with congested := s.congestDown q x }) s).driveXoff

end Sys2Proof.Machine
end

