-- ==== Sys2Proof/Machine/Wire.lean ====
section
/-! DEFINITION. Frames as the ports read and send them: Ethernet, C-tag, IPv4 and UDP fields (R442, R443, R446), what a HOST or PEER
port transmits under its gates, R-TAG and MACsec (R443, R446, R447, R449, R450), and PFC (R280). -/

namespace Sys2Proof.Machine

/-- A received frame's fields: addresses, VLAN ID of its C-tag, EtherType and what follows. -/
structure EthIn where
  dst : Bytes := []
  src : Bytes := []
  vid : Option Nat := none
  etype : Nat := 0
  body : Bytes := []

/-- An untagged frame or one with one C-tag; none for a short frame, an S-tag or a second tag (R446). -/
def parseEth (b : Bytes) : Option EthIn :=
  let ty := fieldBe b 12 2
  if b.length < 14 ∨ ty = 0x88A8 then none
  else if ty ≠ 0x8100 then some { dst := b.take 6, src := slice b 6 6, etype := ty, body := b.drop 14 }
  else
    let ty2 := fieldBe b 16 2
    if b.length < 18 ∨ ty2 = 0x8100 ∨ ty2 = 0x88A8 then none
    else some { dst := b.take 6, src := slice b 6 6, vid := some (fieldBe b 14 2 % 4096), etype := ty2, body := b.drop 18 }

/-- An IPv4 datagram: addresses, protocol, header length, whether it is a fragment, and its payload. -/
structure IpIn where
  src : Nat := 0
  dst : Nat := 0
  proto : Nat := 0
  ihl : Nat := 20
  fragment : Bool := false
  body : Bytes := []

/-- The IPv4 datagram of a frame's body; none where the lengths do not hold. Bytes beyond its total length are padding. -/
def parseIp (b : Bytes) : Option IpIn :=
  let v := fieldBe b 0 1
  let ihl := 4 * (v % 16)
  let total := fieldBe b 2 2
  if v / 16 ≠ 4 ∨ ihl < 20 ∨ total < ihl ∨ b.length < total then none
  else some { src := fieldBe b 12 4, dst := fieldBe b 16 4, proto := fieldBe b 9 1, ihl := ihl
              fragment := fieldBe b 6 2 % 16384 != 0, body := slice b ihl (total - ihl) }

/-- The UDP datagram of an IPv4 body: source port, destination port, payload; none where the lengths do not hold. -/
def parseUdp (b : Bytes) : Option (Nat × Nat × Bytes) :=
  let n := fieldBe b 4 2
  if b.length < 8 ∨ n < 8 ∨ b.length < n then none else some (fieldBe b 0 2, fieldBe b 2 2, slice b 8 (n - 8))

/-- The UDP payload at which an ingest program starts (R442): none for a frame of another form, and for a fragment. -/
def sensPayload (b : Bytes) : Option Bytes :=
  match parseEth b with
  | none => none
  | some e =>
    if e.etype ≠ 0x0800 then none
    else match parseIp e.body with
      | none => none
      | some i => if i.proto ≠ 17 ∨ i.fragment then none else (parseUdp i.body).map (fun u => u.2.2)

/-- 16-bit one's complement sum of a byte string. -/
def onesSum : Bytes → Nat
  | [] => 0
  | [a] => 256 * a.toNat
  | a :: b :: l => 256 * a.toNat + b.toNat + onesSum l

/-- A sum folded to 16 bits. -/
def onesFold (n : Nat) : Nat :=
  let a := n % 65536 + n / 65536
  let b := a % 65536 + a / 65536
  b % 65536 + b / 65536

/-- The Internet checksum over bytes that hold it already comes out even. -/
def sumOk (l : Bytes) : Bool := onesFold (onesSum l) == 65535

/-- A received UDP datagram's checksum, checked where it is not zero (R443). -/
def udpSumOk (i : IpIn) : Bool :=
  fieldBe i.body 6 2 == 0 ||
  sumOk (natBe 4 i.src ++ natBe 4 i.dst ++ [0, 17] ++ natBe 2 (fieldBe i.body 4 2) ++ i.body.take (fieldBe i.body 4 2))

/-- Object of a port (R473). -/
def netOd (p sub : Nat) : Nat := od (0x1100 + 16 * p) sub

/-- The port's own MAC. -/
def State.ownMac (s : State) (p : Nat) : Bytes := padTo 6 (s.oct (netOd p 5))

/-- The module's IPv4 address; 169.254.44.10 while MODULE_IP is 0 (R444). -/
def State.ownIp (s : State) : Nat := if s.num (od 0x1000 1) = 0 then 0xA9FE2C0A else s.num (od 0x1000 1)

/-- The frame's VLAN ID is the port's, or it carries none (R446). -/
def State.vlanOk (s : State) (p : Nat) (e : EthIn) : Bool := e.vid.getD 0 == 0 || e.vid == some (s.num (netOd p 0x0A))

/-- A MACsec association of a port. -/
def Sa.is (a : Sa) (p : Nat) (tx : Bool) : Bool := a.port == p && a.tx == tx

/-- The packet number at which EV 0x1006 falls due (R450). -/
def pnWarn : Nat := 2 ^ 62

/-- A packet number is used; at 2⁶² EV 0x1006 (R450). -/
def State.usePn (s : State) (p : Nat) (tx : Bool) (an sci pn : Nat) : State :=
  let mine := fun (a : Sa) => a.is p tx && a.an == an && a.sci == sci
  match s.sec.sas.find? mine with
  | none => s
  | some a =>
    let warn := decide (pnWarn ≤ pn) && !a.warned
    let s := { s with sec := { s.sec with sas := modifyFirst mine (fun a => { a with pn := pn + 1, warned := a.warned || warn }) s.sec.sas } }
    if warn then s.raise 0x1006 p else s

/-- Update the ports and the switch. -/
def State.modNet (s : State) (f : Net → Net) : State := { s with net := f s.net }

/-- Forget what earlier commands sent. -/
def State.quiet (s : State) : State := s.modNet (fun n => { n with sent := [] })

/-- A port sends a frame: counted; protected where MACsec is enabled and the frame is neither gPTP nor MAC control, and not sent
without a transmit association or after packet number 2⁶⁴ − 1 (R450). -/
def State.transmit (s : State) (f : TxFrame) : State :=
  let put := fun (s : State) (f : TxFrame) => (s.bump (netOd f.port 9)).modNet (fun n => { n with sent := n.sent ++ [f] })
  if !s.net.link f.port then s
  else if s.flag (netOd f.port 0x0D) ∧ f.etype ≠ 0x88F7 ∧ f.etype ≠ 0x8808 then
    match s.sec.sas.find? (fun a => a.is f.port true && a.transmit) with
    | none => s
    | some a =>
      if 2 ^ 64 - 1 ≤ a.pn then s
      else put (s.usePn f.port true a.an a.sci a.pn) { f with sa := some (a.an, a.pn) }
  else put s f

/-! HOST egress (R443, R446, R447, R449). -/

/-- Port number of a HOST port. -/
def hostPort (h : Fin 2) : Nat := 8 + h.val

/-- Update a HOST port's egress. -/
def State.modHost (s : State) (h : Fin 2) (f : HostOut → HostOut) : State :=
  s.modNet (fun n => { n with host := n.host.set h (f n.host[h]) })

/-- 16 bits that make an Internet checksum over the bytes come out even. -/
def sumFor (l : Bytes) : Nat := 65535 - onesFold (onesSum l)

/-- What a frame's EtherType announces (R443): an IPv4 datagram without options, DF set and checksums right, or the payload as it
stands. -/
def TxFrame.content (f : TxFrame) : Bytes :=
  if f.proto = 0 then f.payload
  else
    let free := (Config.ipv4Free f.dstIp f.payload).toNat
    let addrs := natBe 4 f.srcIp ++ natBe 4 f.dstIp
    let n := f.payload.length + 8
    let udp := natBe 2 f.sport ++ natBe 2 f.dport ++ natBe 2 n
    let body := if f.proto = 17 then
        let c := sumFor (addrs ++ [0, 17] ++ natBe 2 n ++ udp ++ f.payload)
        udp ++ natBe 2 (if c = 0 then 65535 else c) ++ f.payload
      else f.payload
    let h1 := natBe 1 0x45 ++ natBe 1 (bitsOf free 7 0) ++ natBe 2 (20 + body.length) ++ natBe 2 (bitsOf free 31 16) ++ natBe 2 0x4000 ++
      natBe 1 (bitsOf free 15 8) ++ natBe 1 f.proto
    h1 ++ natBe 2 (sumFor (h1 ++ addrs)) ++ addrs ++ body

/-- A HOST frame in clear without its FCS (R443, R446, R449): addresses, C-tag, R-TAG, EtherType and content. -/
def State.frameBytes (s : State) (f : TxFrame) : Bytes :=
  f.dst ++ s.ownMac f.port ++ (if f.vlan = 0 then [] else natBe 2 0x8100 ++ natBe 2 f.vlan) ++
  (match f.rtag with
    | some q => natBe 2 0xF1C1 ++ natBe 2 0 ++ natBe 2 q
    | none => []) ++ natBe 2 f.etype ++ f.content

/-- The time a HOST frame takes at 1 Gb/s in ns, its preamble, MACsec's 32 bytes (R450), FCS and interframe gap included (R447). -/
def State.wireNs (s : State) (f : TxFrame) : Nat :=
  let sec := if s.flag (netOd f.port 0x0D) ∧ f.etype ≠ 0x88F7 then 32 else 0
  8 * (8 + Nat.max 64 ((s.frameBytes f).length + sec + 4) + 12)

/-- Words of 32 bytes a HOST frame takes in its egress queue. -/
def State.frameWords (s : State) (f : TxFrame) : Nat := ceilDiv (s.frameBytes f).length 32

/-- The gate list of a HOST port (R446): each entry's interval and mask. -/
def State.gateList (s : State) (h : Fin 2) : List (Nat × Nat) :=
  (chunksOf 8 16 (s.oct (od (0x1180 + 16 * h.val) 0x11))).map (fun e => (fieldLe e 0 4, (e.getD 4 7).toNat))

/-- The gate mask of the entry in force (R446); an entry beyond the list's end is its last. -/
def State.gateMask (s : State) (h : Fin 2) : Nat :=
  let l := s.gateList h
  (l[Nat.min (s.net.host[h]).entry (l.length - 1)]?.getD (0, 7)).2

/-- The gate of a class is open (R446, R460). -/
def State.gateOpen (s : State) (h : Fin 2) (cls : Nat) : Bool :=
  if cls = 3 then true else !(s.net.host[h]).window && bitAt (s.gateMask h) cls

/-- When each entry of a list ends in a cycle from `now` to `stop`, with its mask; the last one holds until the cycle ends (R446). -/
def spansOf (stop : Nat) : Nat → List (Nat × Nat) → List (Nat × Nat)
  | _, [] => []
  | _, [x] => [(stop, x.2)]
  | now, x :: l => (Nat.min (now + x.1) stop, x.2) :: spansOf stop (now + x.1) l

/-- The entries of the cycle that the frame being ingested makes, with their ends (R446). -/
def State.gateSpans (s : State) (h : Fin 2) : List (Nat × Nat) := spansOf s.frame.ing.end_ s.frame.ing.start (s.gateList h)

/-- When an open gate closes by the list; none where it stays open beyond the next cycle, or there is no cycle yet. -/
def State.listCloses (s : State) (h : Fin 2) (cls : Nat) : Option Nat :=
  if !s.frame.run then none
  else
    let e := s.frame.ing.end_
    let l := (s.gateSpans h).drop (s.net.host[h]).entry ++ spansOf (e + s.frame.period) e (s.gateList h)
    let open_ := l.takeWhile (fun x => bitAt x.2 cls)
    if open_.length = l.length then none else (open_.getLast?).map (·.1)

/-- When the next result window closes classes 0-2 (R460): 15 µs before the launch still to come. -/
def State.windowCloses (s : State) : Option Nat :=
  if !s.frame.run ∨ s.num (od 0x1000 3) = 0 then none
  else
    let e := if s.frame.comp.n ≠ 0 ∧ !s.frame.comp.launched then s.frame.comp.end_ else s.frame.ing.end_
    some (e + s.frame.launch - 15000)

/-- A frame of a class may start at an instant: its gate is open and stays so until the frame and its interframe gap have left (R447). -/
def State.gateLets (s : State) (h : Fin 2) (f : TxFrame) (t : Nat) : Bool :=
  s.gateOpen h f.cls && (s.listCloses h f.cls).all (fun c => decide (t + s.wireNs f ≤ c)) &&
  s.windowCloses.all (fun c => decide (t + s.wireNs f ≤ c))

/-- The idle slope of a class in kb/s, 0 for none (R446, R473). -/
def State.idleSlope (s : State) (h : Fin 2) (cls : Nat) : Nat := if cls < 2 then s.num (od (0x1180 + 16 * h.val) (0x12 + cls)) else 0

/-- A class's Qav credit in 10⁻⁶ bit after `d` ns (R446; IEEE 802.1Q as log entry 178 has it): a frame being sent takes the line's rate from
it, a closed gate freezes it, waiting raises it, and without a frame waiting it comes back to 0 at most. -/
def State.creditAfter (s : State) (h : Fin 2) (cls : Nat) (sending : Bool) (d : Nat) (x : Int) : Int :=
  let slope : Int := s.idleSlope h cls
  if slope = 0 then 0
  else if sending then x + (slope - 1000000) * d
  else if !s.gateOpen h cls then x
  else if (s.net.host[h]).waiting.any (fun f => f.cls == cls) then x + slope * d
  else if 0 < x then 0 else min 0 (x + slope * d)

/-- The credits move on to an instant, while a frame of class `busy` is being sent or none. -/
def State.credits (s : State) (h : Fin 2) (busy : Option Nat) (t : Nat) : State :=
  let x := s.net.host[h]
  let d := t - x.creditAt
  let next := fun (c : Fin 2) => s.creditAfter h c.val (busy == some c.val) d x.credit[c]
  s.modHost h (fun x => { x with credit := #v[next 0, next 1], creditAt := Nat.max x.creditAt t })

/-- The credits at an instant at which no frame is being sent. -/
def State.accrue (s : State) (h : Fin 2) (t : Nat) : State := s.credits h none t

/-- A class may send as far as its credit goes (R447). -/
def State.creditOk (s : State) (h : Fin 2) (cls : Nat) : Bool :=
  s.idleSlope h cls == 0 || ((s.net.host[h]).credit[cls]?).all (fun x => decide (0 ≤ x))

/-- The first waiting frame of a class. -/
def HostOut.front (x : HostOut) (cls : Nat) : Option TxFrame := x.waiting.find? (fun f => f.cls == cls)

/-- The frame that starts at an instant (R447): the first of the highest class whose gate and credit let it. -/
def State.nextOut (s : State) (h : Fin 2) (t : Nat) : Option TxFrame :=
  [2, 1, 0].findSome? (fun c => match (s.net.host[h]).front c with
    | some f => if s.creditOk h c && s.gateLets h f t then some f else none
    | none => none)

/-- The first instant after `t` at which a class that waits for its credit has it again (R447). -/
def State.creditBack (s : State) (h : Fin 2) (t : Nat) : Option Nat :=
  let one := fun (c : Fin 2) => match (s.net.host[h]).front c.val with
    | some _ => if s.gateOpen h c.val && !s.creditOk h c.val
        then some (t + ceilDiv ((s.net.host[h]).credit[c]).natAbs (s.idleSlope h c.val)) else none
    | none => none
  match one 0, one 1 with
  | some a, some b => some (Nat.min a b)
  | some a, none => some a
  | none, y => y

/-- The instant from which a HOST port's line is free. -/
def State.lineFree (s : State) (h : Fin 2) : Nat := Nat.max s.frame.now (s.net.host[h]).free

/-- The fill of a HOST egress queue. -/
def State.hostFill (s : State) (h : Fin 2) : Nat := ((s.net.host[h]).waiting.map s.frameWords).foldl (· + ·) 0

/-- Held-back frames enter the queue, in order, while its 4,096 words of free space cover them (R258, R263). -/
def State.letIn : Nat → State → Fin 2 → State
  | 0, s, _ => s
  | n + 1, s, h => match (s.net.host[h]).held with
    | [] => s
    | f :: l => if 4096 < s.hostFill h + s.frameWords f then s
      else State.letIn n (s.modHost h (fun x => { x with waiting := x.waiting ++ [f], held := l })) h

/-- Frames whose writers were held back enter a HOST egress queue; its highest fill follows (R258, OD 0x183A, 0x183B .01). -/
def State.hostAdmit (s : State) (h : Fin 2) : State :=
  let s := s.letIn (s.net.host[h]).held.length h
  s.setNum (od (0x183A + h.val) 1) (Nat.max (s.num (od (0x183A + h.val) 1)) (s.hostFill h))

/-- A frame takes the line of a HOST port from an instant on. -/
def State.onLine (s : State) (h : Fin 2) (f : TxFrame) (t : Nat) : State :=
  let stop := t + s.wireNs f
  ((s.credits h (some f.cls) stop).modHost h (fun x => { x with free := stop })).transmit { f with at_ := t }

/-- The frames that may start, one after the other from when the line is free, leave a HOST port; what waited for credits follows. The order is
that of the frames waiting now (R446, R447; log entry 178). -/
def State.hostDrain : Nat → State → Fin 2 → Nat → State
  | 0, s, _, _ => s
  | n + 1, s, h, t =>
    let s := s.accrue h t
    match s.nextOut h t with
    | some f =>
      let s := (s.modHost h (fun x => { x with waiting := x.waiting.eraseP (fun y => y.cls == f.cls) })).onLine h f t
      State.hostDrain n (s.hostAdmit h |>.bump (od (0x183A + h.val) 2)) h (s.lineFree h)
    | none => match s.creditBack h t with
      | some u => State.hostDrain n s h u
      | none => s

/-- Send all that the gates and credits of a HOST port let out. -/
def State.hostFlow (s : State) (h : Fin 2) : State :=
  s.hostDrain (3 * ((s.net.host[h]).waiting.length + (s.net.host[h]).held.length)) h (s.lineFree h)

/-- What the first read of a HOST egress queue finds (R262). -/
def State.hostLook (s : State) (h : Fin 2) (e : QueueEcc) : State :=
  match s.nextOut h (s.lineFree h), e with
  | none, _ => s
  | _, .clean => s
  | _, .corrected => s.bump (od (0x183A + h.val) 4)
  | some f, .badWord =>
    ((s.modHost h (fun x => { x with waiting := x.waiting.eraseP (fun y => y.cls == f.cls) })).hostAdmit h).countRaise (od (0x183A + h.val) 5) 0x1801 (10 + h.val)
  | some _, .badTag => ((s.modHost h (fun x => { x with waiting := [] })).hostAdmit h).countRaise (od (0x183A + h.val) 5) 0x1802 (10 + h.val)

/-- A frame enters a HOST port's egress queue, and leaves it as the gates allow; the result record goes past the queue (R460); a port whose
link is down discards it (R445). -/
def State.hostSend (s : State) (h : Fin 2) (f : TxFrame) : State :=
  if !s.net.link (hostPort h) then s
  else if f.cls = 3 then s.onLine h f (s.lineFree h)
  else (((s.accrue h s.frame.now).modHost h (fun x => { x with held := x.held ++ [f] })).hostAdmit h).hostFlow h

/-- A new cycle of the gate lists begins (R446). -/
def State.turnGates (s : State) : State :=
  (List.finRange 2).foldl (fun s h => ((s.accrue h s.frame.now).modHost h (fun x => { x with entry := 0 })).hostFlow h) s

/-- A frame was received from an address (R443): its pair is the newest of at most 16. -/
def State.learn (s : State) (h : Fin 2) (ip : Nat) (mac : Bytes) : State :=
  s.modHost h (fun x => { x with macs := ((ip, mac) :: x.macs.filter (fun y => y.1 != ip)).take 16 })

/-- The destination MAC of a datagram (R443): none where a unicast address has no pair; the broadcast address for 255.255.255.255. -/
def State.macFor (s : State) (h : Fin 2) (ip : Nat) : Option Bytes :=
  if ip = 0xFFFFFFFF then some (List.replicate 6 0xFF)
  else if ip / 2 ^ 28 = 14 then some ([1, 0, 0x5E] ++ natBe 3 (ip % 2 ^ 23))
  else if ip ≠ 0 ∧ (ip = s.num (od 0x1000 2) ∨ ip = s.num (od 0x1000 3)) then some (padTo 6 (s.oct (od 0x1000 (4 + h.val))))
  else ((s.net.host[h]).macs.find? (fun y => y.1 == ip)).map (·.2)

/-- A datagram leaves on one HOST port. -/
def State.sendOn (s : State) (h : Fin 2) (cls : Nat) (rtag : Option Nat) (proto sport dport ip : Nat) (d : Bytes) : State :=
  match s.macFor h ip with
  | none => s
  | some mac =>
    let s := s.modHost h (fun x =>
      match x.macs.find? (fun y => y.1 == ip) with
      | some y => { x with macs := y :: x.macs.filter (fun z => z.1 != ip) }
      | none => x)
    s.hostSend h { port := hostPort h, cls := cls, dst := mac, vlan := s.num (netOd (hostPort h) 0x0A), rtag := rtag, proto := proto
                   srcIp := s.ownIp, dstIp := ip, sport := sport, dport := dport, payload := d }

/-- The next R-TAG number of a UDP source port (R449); none while CB_ENABLE is 0. -/
def State.nextSeq (s : State) (sport : Nat) : Option Nat :=
  if s.flag (od 0x1000 7) then some (((s.net.cbSeq.find? (fun x => x.1 == sport)).map (·.2)).getD 0) else none

/-- Count an R-TAG number as used. -/
def State.useSeq (s : State) (sport : Nat) : State :=
  let n := (((s.net.cbSeq.find? (fun x => x.1 == sport)).map (·.2)).getD 0 + 1) % 65536
  s.modNet (fun x => { x with cbSeq := (sport, n) :: x.cbSeq.filter (fun y => y.1 != sport) })

/-- A datagram to the host leaves on both HOST ports with one R-TAG number (R449, R483); without R-TAG while CB_ENABLE is 0. -/
def State.sendUdp (s : State) (cls sport dport ip : Nat) (d : Bytes) : State :=
  let r := s.nextSeq sport
  let s := s.useSeq sport
  ((s.sendOn 0 cls r 17 sport dport ip d).sendOn 1 cls r 17 sport dport ip d)

/-! PEER egress and PFC (R276-R280). -/

/-- The class of a peer frame, from the byte R277 gives it. -/
def peerClass (b : Bytes) : Nat :=
  let o := if fieldBe b 12 2 = 0x8100 then 19 else 15
  (b.getD o 0).toNat % 4

/-- The priority of a class (R280). -/
def State.pfcPrio (s : State) (cls : Nat) : Nat := bitsOf (s.num (od 0x1800 5)) (4 * cls + 2) (4 * cls)

/-- A received pause holds a class's egress (R280). -/
def State.pfcStops (s : State) (p : Fin 2) (cls : Nat) : Bool := s.fab.pfcHeld.contains (p.val, s.pfcPrio cls)

/-- The queue a PEER port sends from. -/
def peerOutQ (p : Fin 2) : Fin 24 := Fin.ofNat 24 (20 + p.val)

/-- A PEER port sends a frame. -/
def State.peerSend (s : State) (p : Fin 2) (k : QPacket) : State :=
  (s.transmit { port := 10 + p.val, dst := k.data.take 6, etype := 0x88B5, proto := 0, payload := k.data }).bump (od (0x1830 + (peerOutQ p).val) 2)

/-- A PEER port sends the frames that wait, but for those of classes a pause holds. -/
def State.peerDrain (s : State) (p : Fin 2) : State :=
  let q := peerOutQ p
  let go := (s.q[q]).pkts.filter (fun k => !s.pfcStops p (peerClass k.data))
  let s := s.setQueue q { s.q[q] with pkts := (s.q[q]).pkts.filter (fun k => s.pfcStops p (peerClass k.data)) }
  go.foldl (fun s k => s.peerSend p k) s

/-- What the first read of a PEER egress queue finds (R262). -/
def State.peerLook (s : State) (p : Fin 2) (e : QueueEcc) : State :=
  let q := peerOutQ p
  match (s.q[q]).pkts.find? (fun k => !s.pfcStops p (peerClass k.data)), e with
  | none, _ => s
  | _, .clean => s
  | _, .corrected => s.bump (od (0x1830 + q.val) 4)
  | some k, .badWord => (s.setQueue q { s.q[q] with pkts := (s.q[q]).pkts.erase k }).countRaise (od (0x1830 + q.val) 5) 0x1801 q
  | some _, .badTag => (s.setQueue q { s.q[q] with pkts := [] }).countRaise (od (0x1830 + q.val) 5) 0x1802 q

/-- A peer frame fits into the egress queue of its port: the switch holds its credits (R258). -/
def State.peerFits (s : State) (p : Fin 2) (b : Bytes) : Bool :=
  decide ((s.q[peerOutQ p]).fill + ceilDiv b.length 32 ≤ qCap (20 + p.val))

/-- A peer frame enters the egress queue of its port. -/
def State.peerOut (s : State) (p : Fin 2) (b : Bytes) : State := ((s.qPush (peerOutQ p) { data := b }).1).peerDrain p

/-- The MAC control frame of IEEE 802.1Qbb for a class (R280): opcode, enable vector and eight times. -/
def State.sendPfc (s : State) (p : Fin 2) (cls quanta : Nat) : State :=
  let prio := s.pfcPrio cls
  s.transmit { port := 10 + p.val, dst := [0x01, 0x80, 0xC2, 0, 0, 0x01], etype := 0x8808, proto := 0
               payload := natBe 2 0x0101 ++ natBe 2 (2 ^ prio) ++ (List.range 8).flatMap (fun i => natBe 2 (if i = prio then quanta else 0)) }

/-- Ingress queue of a PEER port's class. -/
def peerInQ (p : Fin 2) (cls : Nat) : Fin 24 := Fin.ofNat 24 (12 + 4 * p.val + cls % 4)

/-- A pause for a class's priority, with EV 0x1809 on the first of each frame (R280). -/
def State.sendPause (s : State) (p : Fin 2) (cls : Nat) : State :=
  let s := s.sendPfc p cls 65535
  if s.frame.ing.once.any (fun y => y.1 == 0x1809) then s else s.raiseIng 0x1809 p.val

/-- The congestion output of a class's queue has been looked at (R280): set, the class is paused; clear, the pause is withdrawn. -/
def State.pfcLook (s : State) (p : Fin 2) (cls : Nat) : State :=
  let on := (s.q[peerInQ p cls]).congested
  let was := s.fab.pfcSent.contains (p.val, cls)
  if on ∧ !was then
    ({ s with fab := { s.fab with pfcSent := (p.val, cls) :: s.fab.pfcSent } }).sendPause p cls
  else if !on ∧ was then
    ({ s with fab := { s.fab with pfcSent := s.fab.pfcSent.filter (fun x => x != (p.val, cls)) } }).sendPfc p cls 0
  else s

/-- The effect of FLUSH (R261, R280): the queue is flushed, and a pause that its congestion had asked for is withdrawn. -/
def State.flushNow (s : State) (q : Fin 24) : State :=
  let s := s.qFlush q
  if 12 ≤ q.val ∧ q.val < 20 then s.pfcLook (Fin.ofNat 2 ((q.val - 12) / 4)) (q.val % 4) else s

/-- FLUSH (R261): a write of 1 to a queue's FLUSH object; the spec gives CREDIT queues no flush. -/
def execFlush (by_ : Writer) (q : Fin 24) (v : BitVec 8) (s : State) : Out :=
  .next (s.quiet.command by_ (0x1830 + q) 8 (.num v.toNat) (fun _ => 0) (fun s => if v = 1 then s.flushNow q else s))

end Sys2Proof.Machine
end

