-- ==== Sys2Proof/Machine/FabricOps.lean ====
section
/-! DEFINITION. Sending on the fabric (R264-R282): headers, tags, SW, peer frames and groups. -/

namespace Sys2Proof.Machine

/-- The header of R270 as a number, without CHECK. -/
def msgHeader (ty : Nat) (m : Msg) : Nat :=
  2 ^ 124 * (ty % 16) + 2 ^ 108 * (m.ddev % 65536) + 2 ^ 103 * (m.dstop % 32) + 2 ^ 87 * (m.sdev % 65536) +
  2 ^ 82 * (m.sstop % 32) + 2 ^ 79 * (m.part % 8) + 2 ^ 76 * (m.win % 8) + 2 ^ 68 * (m.gen % 256) +
  (if m.count then 2 ^ 67 else 0) + 2 ^ 65 * (m.len % 4) + 2 ^ 63 * (m.afmt % 4) + 2 ^ 43 * (m.offset % 2 ^ 20) +
  2 ^ 27 * (m.tag % 65536) + 2 ^ 24 * (m.reason % 8)

/-- The 16 header bytes of a message on the wire (R277). -/
def msgHeaderBytes (ty : Nat) (m : Msg) : Bytes :=
  let h := msgHeader ty m
  Config.headerCheck (h / 256) :: natLe 15 (h / 256)

/-- The type and message a header stands for. -/
def msgOfHeader (h : Nat) (data : Bytes) : Nat × Msg :=
  (bitsOf h 127 124,
   { ddev := bitsOf h 123 108, dstop := bitsOf h 107 103, sdev := bitsOf h 102 87, sstop := bitsOf h 86 82
     part := bitsOf h 81 79, win := bitsOf h 78 76, gen := bitsOf h 75 68, count := bitAt h 67
     len := bitsOf h 66 65, afmt := bitsOf h 64 63, offset := bitsOf h 62 43, tag := bitsOf h 42 27
     reason := bitsOf h 26 24, data := data })

/-- A type that carries data flits (R271). -/
def typeHasData (ty : Nat) : Bool := ty == 0 || ty == 1 || ty == 3 || ty == 7 || ty == 8 || ty == 9 || ty == 10 || ty == 13

/-- Messages one after another, as a peer frame holds them; none where the bytes do not come out even. -/
def parseMsgs : Nat → Bytes → Option (List (Nat × Msg))
  | 0, l => if l.isEmpty then some [] else none
  | n + 1, l =>
    if l.length < 16 then none
    else
      let h := leNat (l.take 16)
      let ty := bitsOf h 127 124
      let d := if typeHasData ty then 32 * (bitsOf h 66 65 + 1) else 0
      if l.length < 16 + d then none
      else (parseMsgs n (l.drop (16 + d))).map (fun rest => msgOfHeader h (slice l 16 d) :: rest)

/-- Bytes a message takes in a peer frame (R277). -/
def msgWire (m : Msg) : Nat := 16 + 32 * msgFlits m

/-- A peer-table entry (R276): MAC and byte 6. -/
def State.peerEntry (s : State) (dev : Nat) : Bytes := padTo 8 (slice (s.oct (od 0x1820 0)) (8 * dev) 8)

/-- The port, 0 or 1, a message to a device leaves through (R276): none where no valid entry or no port is up. -/
def State.peerPort (s : State) (dev : Nat) : Option (Fin 2) :=
  let e := s.peerEntry dev
  let b := (e.getD 6 0).toNat
  let up := fun (p : Fin 2) => s.net.link (10 + p.val)
  if !bitAt b 0 then none
  else match bitsOf b 2 1 with
    | 0 => if up 0 then some 0 else none
    | 1 => if up 1 then some 1 else none
    | 2 => if up 0 then some 0 else if up 1 then some 1 else none
    | _ => if up 1 then some 1 else if up 0 then some 0 else none

/-- A frame with its FCS (R277); on a port with MACsec the FCS comes after the protection. -/
def State.withFcs (s : State) (port : Fin 2) (b : Bytes) : Bytes :=
  if s.flag (netOd (10 + port.val) 0x0D) then b else b ++ natLe 4 (ethFcs b)

/-- The frame of an assembly buffer (R277). -/
def State.peerFrame (s : State) (port : Fin 2) (a : Assembly) : Bytes :=
  let e := s.peerEntry a.dev
  let pcp := bitsOf (s.num (od 0x1800 5)) (4 * a.cls + 2) (4 * a.cls)
  let tag := if bitAt (e.getD 6 0).toNat 3 then natBe 2 0x8100 ++ natBe 2 (8192 * pcp + s.num (od 0x1800 6)) else []
  s.withFcs port (e.take 6 ++ padTo 6 (s.oct (od (0x1100 + 16 * (10 + port.val)) 5)) ++ tag ++ natBe 2 0x88B5 ++
    [1, BitVec.ofNat 8 a.cls] ++ natLe 2 a.msgs.length ++ natLe 2 s.device ++ natLe 2 a.dev ++ zeros 8 ++
    a.msgs.flatMap (fun x => msgHeaderBytes x.1 x.2 ++ padTo (32 * msgFlits x.2) x.2.data))

/-- Remove an assembly buffer. -/
def State.dropAssembly (s : State) (dev cls : Nat) : State :=
  { s with fab := { s.fab with assembly := s.fab.assembly.filter (fun a => !(a.dev == dev && a.cls == cls)) } }

/-- Close an assembly buffer: its frame enters the port's egress queue (R278); without credits for it the switch holds the buffer (R258). -/
def State.closeAssembly (s : State) (dev cls : Nat) : State :=
  match s.fab.assembly.find? (fun a => a.dev == dev && a.cls == cls) with
  | none => s
  | some a =>
    match s.peerPort dev with
    | none => s.dropAssembly dev cls
    | some p =>
      if s.peerFits p (s.peerFrame p a) then (((s.dropAssembly dev cls).peerOut p (s.peerFrame p a)).bump (od 0x18F0 0x0B)) else s

/-- Bytes of an assembly buffer's frame from the version on. -/
def Assembly.bytes (a : Assembly) : Nat := 16 + (a.msgs.map (fun (x : Nat × Msg) => msgWire x.2)).foldl (· + ·) 0

/-- The open buffer of a device and class takes a message more within PEER_MTU. -/
def State.bufferFits (s : State) (a : Assembly) (m : Msg) : Bool := decide (a.bytes + msgWire m ≤ s.num (od 0x1800 4))

/-- The buffer of a device and class. -/
def State.buffer (s : State) (dev cls : Nat) : Option Assembly := s.fab.assembly.find? (fun a => a.dev == dev && a.cls == cls)

/-- Room for a message in the assembly buffers (R278): its own buffer closes where the message would not fit, the oldest where all 64 are open. -/
def State.makeRoom (s : State) (cls : Nat) (m : Msg) : State :=
  match s.buffer m.ddev cls with
  | some a => if s.bufferFits a m then s else s.closeAssembly m.ddev cls
  | none =>
    if 64 ≤ s.fab.assembly.length then
      match s.fab.assembly with
      | a :: _ => s.closeAssembly a.dev a.cls
      | [] => s
    else s

/-- There is room for a message. -/
def State.hasRoom (s : State) (cls : Nat) (m : Msg) : Bool :=
  match s.buffer m.ddev cls with
  | some a => s.bufferFits a m
  | none => decide (s.fab.assembly.length < 64)

/-- A message enters its assembly buffer, or opens it (R278). -/
def State.assemble (s : State) (ty : Nat) (m : Msg) : State :=
  let cls := classOf ty
  if (s.buffer m.ddev cls).isSome then
    let as := modifyFirst (fun (a : Assembly) => a.dev == m.ddev && a.cls == cls)
      (fun a => { a with msgs := a.msgs ++ [(ty, m)] }) s.fab.assembly
    { s with fab := { s.fab with assembly := as } }
  else
    let a : Assembly := { dev := m.ddev, cls := cls, msgs := [(ty, m)], opened := s.frame.now }
    { s with fab := { s.fab with assembly := s.fab.assembly ++ [a] } }

/-- The request of the module's own stop that a message makes, where its type makes one (R274). -/
def State.reqFor (s : State) (ty : Nat) (m : Msg) : Option Req :=
  if 2 < ty ∧ ty ≠ 7 then none else s.fab.reqs.find? (fun q => q.stop == m.sstop && q.tag == m.tag)

/-- A message has no way to its device (R274, R275): counted, EV once per frame; a request ends without an answer, and a READ raises WINDOW. -/
def State.unreachable (s : State) (ty : Nat) (m : Msg) : State :=
  let s := (s.bump (od 0x18F0 8)).raiseIng 0x1805 0xFF m.ddev
  match s.reqFor ty m with
  | none => s
  | some q =>
    let s := { s with fab := { s.fab with reqs := removeFirst (fun q => q.stop == m.sstop && q.tag == m.tag) s.fab.reqs } }
    match ty, q.core, q.task with
    | 2, some c, some r => s.exceptRun (coreNo c) r 3 q.pc
    | _, _, _ => s

/-- SW takes what heads a class of its crossing queue and leaves the module (R265, R276, R278); it waits where no buffer has room. -/
def State.swClass (s : State) (cls : Nat) : State :=
  match s.fab.ready 4 cls with
  | none => s
  | some (ty, m) =>
    if m.ddev = s.device then s
    else
      let took := fun (s : State) => { s with fab := s.fab.take 4 cls }
      if (s.peerPort m.ddev).isNone then (took s).unreachable ty m
      else
        let s := s.makeRoom cls m
        if s.hasRoom cls m then (took s).assemble ty m else s

/-- SW takes what leaves the module, class by class. -/
def State.swTake (s : State) : State := (List.range 4).foldl (fun s k => s.swClass k) s

/-- The mesh runs, fabric cycle by fabric cycle, until `goal` holds of it or nothing moves any more (log entry 167). -/
def State.meshRun (goal : Fabric → Bool) : Nat → State → State
  | 0, s => s
  | n + 1, s =>
    if goal s.fab then s
    else
      let t := State.swTake { s with fab := s.fab.tick s.device }
      if t.fab = s.fab then s else State.meshRun goal n t

/-- Fabric cycles that one run of the mesh may take. -/
def meshFuel : Nat := 4096

/-- Send a message (R265, R269): it waits at its source stop for the mesh; one for another device goes on to SW, and into its buffer there. -/
def State.send (s : State) (ty : Nat) (m : Msg) : State :=
  let t := { s with fab := { s.fab with mesh := s.fab.mesh ++ [(ty, m)] } }
  if m.ddev = s.device then t else t.meshRun (fun f => !f.holds ty m) meshFuel

/-- A transaction tag of a stop (R269): the lowest of its 4,096 that no request holds and no late answer may still carry (R275); else the lowest
that no request holds. -/
def State.freeTag (s : State) (stop : Nat) : Option Nat :=
  let used := (s.fab.reqs.filter (fun q => q.stop == stop)).map (fun q => q.tag)
  let late := (s.fab.late.filter (fun y => y.1 == stop)).map (fun y => y.2)
  let free := fun (l : List Nat) => (List.range (Nat.min 4096 (l.length + 1))).find? (fun t => !l.contains t)
  (free (used ++ late)).orElse (fun _ => free used)

/-- A request goes out under a tag, and its transaction is held until it is answered (R269, R274). -/
def State.issueReq (s : State) (h : Held) (tag : Nat) : State :=
  let s := { s with fab := { s.fab with
    reqs := s.fab.reqs ++ [{ h.req with tag := tag, since := s.frame.now }]
    late := s.fab.late.filter (fun y => y != (h.msg.sstop, tag)) } }
  s.send h.ty { h.msg with tag := tag }

/-- Send a request; without a free tag it waits at its source (R269). -/
def State.request (s : State) (ty : Nat) (m : Msg) (core : Option Nat) (task : Option TaskRun) (pc : Nat) (owner off : Nat := 0) : State :=
  let h : Held := { ty := ty, msg := m, req := { stop := m.sstop, type := ty, core := core, task := task, pc := pc, ddev := m.ddev
                                                 win := m.win, lead := m.count, owner := owner, off := off } }
  match s.freeTag m.sstop with
  | some tag => s.issueReq h tag
  | none => { s with fab := { s.fab with held := s.fab.held ++ [h] } }

/-- A request is complete: its tag is free, and the first request that waits for one at the stop goes out (R269). -/
def State.reqDone (s : State) (stop tag : Nat) : State :=
  let s := { s with fab := { s.fab with reqs := removeFirst (fun q => q.stop == stop && q.tag == tag) s.fab.reqs } }
  match s.fab.held.find? (fun h => h.msg.sstop == stop), s.freeTag stop with
  | some h, some t => ({ s with fab := { s.fab with held := s.fab.held.erase h } } : State).issueReq h t
  | _, _ => s

/-- Messages of at most 128 bytes of one row (R271): offset in bytes and data; only the last one counts. -/
def rowMsgs (off : Nat) (row : Bytes) : List (Nat × Bytes × Bool) :=
  let cs := chunksOf 128 row.length row
  (cs.zip (List.range cs.length)).map (fun y => (off + 128 * y.2, y.1, y.2 + 1 == cs.length))

/-- Send a row to window w of another core, as WRITE or ADD requests (R240, R241, R244). -/
def State.sendRow (s : State) (c dst : Fin 16) (r : TaskRun) (pc ty afmt w off : Nat) (row : Bytes) : State :=
  let gen := ((s.cores[c]).pad.win r.part w).gen
  (rowMsgs off row).foldl (fun s y =>
    s.request ty { ddev := s.device, dstop := coreStop dst.val, sdev := s.device, sstop := coreStop c.val, part := r.part
                   win := w, gen := gen, count := y.2.2, len := ceilDiv y.2.1.length 32 - 1, afmt := afmt
                   offset := y.1 / 32, data := y.2.1 } (some c.val) (some r) pc) s

/-! Remote reads of a core's units (R199, R240, R272). -/

/-- The reads of at most 512 bytes that bring n bytes at `off`. -/
def readPieces (off n : Nat) : List (Nat × Nat) :=
  (List.range (ceilDiv n 512)).map (fun i => (off + 512 * i, Nat.min 512 (n - 512 * i)))

/-- The read of a unit that begins at a place, if one has been asked for. -/
def Core.get (k : Core) (r : TaskRun) (pc owner win off : Nat) : Option Get :=
  k.gets.find? (fun g => g.run == r && g.pc == pc && g.owner == owner && g.win == win && g.off == off)

/-- Ask for one piece of a remote row: a READ of whole lines under the generation of the core's own window (R241, R270, R272). -/
def State.askPiece (s : State) (c o : Fin 16) (r : TaskRun) (pc w : Nat) (y : Nat × Nat) : State :=
  if ((s.cores[c]).get r pc o.val w y.1).isSome then s
  else
    let g : Get := { run := r, pc := pc, owner := o.val, win := w, off := y.1 }
    (s.modCore c (fun k => { k with gets := k.gets ++ [g] })).request 2
      { ddev := s.device, dstop := coreStop o.val, sdev := s.device, sstop := coreStop c.val, part := r.part, win := w
        gen := ((s.cores[c]).pad.win r.part w).gen, len := ceilDiv y.2 128 - 1, offset := y.1 / 32 }
      (some c.val) (some r) pc o.val y.1

/-- Ask for a remote row. -/
def State.askRow (s : State) (c o : Fin 16) (r : TaskRun) (pc w off n : Nat) : State :=
  (readPieces off n).foldl (fun s y => s.askPiece c o r pc w y) s

/-- The bytes of a remote row, once all have come. -/
def Core.farRow (k : Core) (o : Fin 16) (r : TaskRun) (pc w off n : Nat) : Option Bytes :=
  let piece := fun (y : Nat × Nat) => (k.get r pc o.val w y.1).filter (fun g => g.done)
  if (readPieces off n).all (fun y => (piece y).isSome) then
    some ((readPieces off n).flatMap (fun y => ((piece y).map (fun g => g.data.take y.2)).getD []))
  else none

/-- The unit has taken its remote rows. -/
def State.dropGets (s : State) (c : Fin 16) (r : TaskRun) (pc : Nat) : State :=
  s.modCore c (fun k => { k with gets := k.gets.filter (fun g => !(g.run == r && g.pc == pc)) })

/-- Requests of a core's task that wait for their answers (R204 FENCE). -/
def State.outstanding (s : State) (c : Fin 16) : Bool :=
  let mine := fun (q : Req) => q.core == some c.val && q.task == (s.cores[c]).seq.task
  s.fab.reqs.any mine || s.fab.held.any (fun h => mine h.req)

/-- Buffers whose time is over close (R278), as far as the egress queue takes their frames, and SW goes on. -/
def State.closeDue (s : State) : State :=
  let due := s.fab.assembly.filter (fun a => decide (a.opened + 2 * s.num (od 0x1800 3) ≤ s.frame.now))
  (due.foldl (fun s a => s.closeAssembly a.dev a.cls) s).swTake

/-- A PEER port may send again (R280): its egress drains, and the buffers that waited for its credits follow. -/
def State.peerFlow (s : State) (p : Fin 2) (e : QueueEcc := .clean) : State := (((s.peerLook p e).peerDrain p).closeDue).peerDrain p

/-! Groups (R282). -/

/-- The 16 bytes of a group entry. -/
def State.group (s : State) (g : Nat) : Bytes := padTo 16 (s.oct (od (0x1810 + g) 0))

/-- VALID. -/
def grpValid (e : Bytes) : Bool := bitAt (e.getD 0 0).toNat 0
/-- LOCAL. -/
def grpLocal (e : Bytes) : Bool := bitAt (e.getD 0 0).toNat 1
/-- Partition of the tasks that use the group. -/
def grpPart (e : Bytes) : Nat := (e.getD 1 0).toNat
/-- Stop mask. -/
def grpMask (e : Bytes) : Nat := fieldLe e 8 4
/-- Stops of the mask in ascending order. -/
def grpStops (e : Bytes) : List Nat := bitList (grpMask e) 25
/-- Base device. -/
def State.grpBase (s : State) (e : Bytes) : Nat := if grpLocal e then s.device else fieldLe e 2 2
/-- Devices. -/
def grpDevs (e : Bytes) : Nat := if grpLocal e then 1 else fieldLe e 4 2 + 1
/-- Members. -/
def grpSize (e : Bytes) : Nat := grpDevs e * (grpStops e).length

/-- The member index of a stop of a device. -/
def State.grpIndex (s : State) (e : Bytes) (dev stop : Nat) : Option Nat :=
  let b := s.grpBase e
  if dev < b ∨ b + grpDevs e ≤ dev ∨ !bitAt (grpMask e) stop then none
  else some ((dev - b) * (grpStops e).length + ((grpStops e).filter (· < stop)).length)

/-- Device and stop of a member. -/
def State.grpMember (s : State) (e : Bytes) (i : Nat) : Nat × Nat :=
  let n := (grpStops e).length
  (s.grpBase e + i / n, (grpStops e).getD (i % n) 0)

/-- The children of a member: 4i + 1 to 4i + 4 below the size. -/
def grpChildren (e : Bytes) (i : Nat) : List Nat :=
  ((List.range 4).map (fun j => 4 * i + 1 + j)).filter (fun j => decide (j < grpSize e))

/-- A counter of a group's partition (R282); unjudged while no schedule gives the partition a mask. -/
def Sched.counterOk (x : Sched) (part k : Nat) : Bool :=
  match x.accepted.orElse (fun _ => x.active) with
  | none => true
  | some a => bitAt (((a.parts.find? (fun r => r.part == part && r.present)).map (·.counters)).getD 0) k

/-- The module refuses a group entry (R282). -/
def State.groupBad (s : State) (e : Bytes) : Bool :=
  (e.getD 0 0).toNat / 4 != 0 || decide (7 < grpPart e) || fieldLe e 6 2 != 0 || bitsOf (fieldLe e 8 4) 31 25 != 0 ||
  fieldLe e 14 2 != 0 || decide (63 < (e.getD 12 0).toNat) || decide (63 < (e.getD 13 0).toNat) ||
  (!grpLocal e && decide (65536 < fieldLe e 2 2 + fieldLe e 4 2 + 1)) || grpMask e == 0 ||
  !s.sched.counterOk (grpPart e) (e.getD 12 0).toNat || !s.sched.counterOk (grpPart e) (e.getD 13 0).toNat

/-- Send a collective message to a member (R270): group and sequence in OFFSET. -/
def State.sendColl (s : State) (ty stop g seq : Nat) (dst : Nat × Nat) (tag : Nat) (last : Bool) (data : Bytes) : State :=
  s.send ty { ddev := dst.1, dstop := dst.2, sdev := s.device, sstop := stop, part := grpPart (s.group g)
              count := last, len := ceilDiv data.length 32 - 1, offset := 65536 * g + 256 * seq, tag := tag, data := data }

end Sys2Proof.Machine
end

