-- ==== Sys2Proof/Machine/Sequencer.lean ====
section
/-! DEFINITION. The sequencer's own instructions (R201-R204): scalar, predicate, control, memory, window and counter rows. -/

namespace Sys2Proof.Machine

/-- A three-register row: sd ← f(sa, sb). -/
def State.alu3 (s : State) (c : Fin 16) (op : Nat) (w : BitVec 56) (f : Scalar → Scalar → Scalar) : State :=
  s.issue c op w { a := 31, b := 31, c := 31 } (fun s x => .next (s.ws c x.a (f (s.rs c x.b) (s.rs c x.c))))

/-- A row with a sign-extended immediate: sd ← f(sa, imm). -/
def State.aluImm (s : State) (c : Fin 16) (op : Nat) (w : BitVec 56) (f : Scalar → Scalar → Scalar) : State :=
  s.issue c op w { a := 31, b := 31, i := 0xFFFFFFFF } (fun s x => .next (s.ws c x.a (f (s.rs c x.b) (immOf x.i))))

/-- A shift by I[5:0]. -/
def State.aluShift (s : State) (c : Fin 16) (op : Nat) (w : BitVec 56) (f : Scalar → Nat → Scalar) : State :=
  s.issue c op w { a := 31, b := 31, i := 63 } (fun s x => .next (s.ws c x.a (f (s.rs c x.b) x.i)))

/-- NOP (R201). -/
def execNop (c : Fin 16) (w : BitVec 56) (s : State) : Out := .next (s.issue c 0x00 w {} (fun s _ => .next s))
/-- ADD (R201). -/
def execAdd (c : Fin 16) (w : BitVec 56) (s : State) : Out := .next (s.alu3 c 0x01 w (· + ·))
/-- SUB (R201). -/
def execSub (c : Fin 16) (w : BitVec 56) (s : State) : Out := .next (s.alu3 c 0x02 w (· - ·))
/-- AND (R201). -/
def execAnd (c : Fin 16) (w : BitVec 56) (s : State) : Out := .next (s.alu3 c 0x03 w (· &&& ·))
/-- OR (R201). -/
def execOr (c : Fin 16) (w : BitVec 56) (s : State) : Out := .next (s.alu3 c 0x04 w (· ||| ·))
/-- XOR (R201). -/
def execXor (c : Fin 16) (w : BitVec 56) (s : State) : Out := .next (s.alu3 c 0x05 w (· ^^^ ·))
/-- SHL (R201): by sb[5:0]. -/
def execShl (c : Fin 16) (w : BitVec 56) (s : State) : Out := .next (s.alu3 c 0x06 w (fun a b => a <<< shAmount b))
/-- SHR (R201): logical. -/
def execShr (c : Fin 16) (w : BitVec 56) (s : State) : Out := .next (s.alu3 c 0x07 w (fun a b => a >>> shAmount b))
/-- SRA (R201): arithmetic. -/
def execSra (c : Fin 16) (w : BitVec 56) (s : State) : Out := .next (s.alu3 c 0x08 w (fun a b => a.sshiftRight (shAmount b)))
/-- MUL (R201): low 64 bits. -/
def execMul (c : Fin 16) (w : BitVec 56) (s : State) : Out := .next (s.alu3 c 0x09 w (· * ·))
/-- MIN (R201): signed. -/
def execMin (c : Fin 16) (w : BitVec 56) (s : State) : Out := .next (s.alu3 c 0x0A w sMin)
/-- MAX (R201): signed. -/
def execMax (c : Fin 16) (w : BitVec 56) (s : State) : Out := .next (s.alu3 c 0x0B w sMax)
/-- ADDI (R201). -/
def execAddi (c : Fin 16) (w : BitVec 56) (s : State) : Out := .next (s.aluImm c 0x10 w (· + ·))
/-- ANDI (R201). -/
def execAndi (c : Fin 16) (w : BitVec 56) (s : State) : Out := .next (s.aluImm c 0x11 w (· &&& ·))
/-- ORI (R201). -/
def execOri (c : Fin 16) (w : BitVec 56) (s : State) : Out := .next (s.aluImm c 0x12 w (· ||| ·))
/-- SHLI (R201). -/
def execShli (c : Fin 16) (w : BitVec 56) (s : State) : Out := .next (s.aluShift c 0x13 w (fun a n => a <<< n))
/-- SHRI (R201). -/
def execShri (c : Fin 16) (w : BitVec 56) (s : State) : Out := .next (s.aluShift c 0x14 w (fun a n => a >>> n))
/-- SRAI (R201). -/
def execSrai (c : Fin 16) (w : BitVec 56) (s : State) : Out := .next (s.aluShift c 0x15 w (fun a n => a.sshiftRight n))

/-- LI (R201): sign-extended immediate. -/
def execLi (c : Fin 16) (w : BitVec 56) (s : State) : Out :=
  .next (s.issue c 0x16 w { a := 31, i := 0xFFFFFFFF } (fun s x => .next (s.ws c x.a (immOf x.i))))

/-- LIH (R201): sd[63:32] ← imm. -/
def execLih (c : Fin 16) (w : BitVec 56) (s : State) : Out :=
  .next (s.issue c 0x17 w { a := 31, i := 0xFFFFFFFF } (fun s x =>
    .next (s.ws c x.a (BitVec.ofNat 64 ((s.rs c x.a).toNat % 2 ^ 32 + 2 ^ 32 * x.i)))))

/-- CMP (R196). -/
def execCmp (c : Fin 16) (w : BitVec 56) (s : State) : Out :=
  .next (s.issue c 0x18 w { a := 3, b := 31, c := 31, d := 15, dmax := 5 } (fun s x =>
    .next (s.modSeq c (fun q => q.setPred x.a (condOf x.d (q.rd x.b) (q.rd x.c))))))

/-- CMPI (R196): against the sign-extended immediate. -/
def execCmpi (c : Fin 16) (w : BitVec 56) (s : State) : Out :=
  .next (s.issue c 0x19 w { a := 3, b := 31, d := 15, i := 0xFFFFFFFF, dmax := 5 } (fun s x =>
    .next (s.modSeq c (fun q => q.setPred x.a (condOf x.d (q.rd x.b) (immOf x.i))))))

/-- PLOG (R196). -/
def execPlog (c : Fin 16) (w : BitVec 56) (s : State) : Out :=
  .next (s.issue c 0x1A w { a := 3, b := 3, c := 3, d := 15, dmax := 3 } (fun s x =>
    .next (s.modSeq c (fun q => q.setPred x.a (plogOf x.d (q.pred x.b) (q.pred x.c))))))

/-- The target of a relative branch: PC + 8 · imm (R201). -/
def Ins.target (x : Ins) : Int := x.pc + 8 * signedOf 32 x.i

/-- BR (R201). -/
def execBr (c : Fin 16) (w : BitVec 56) (s : State) : Out :=
  .next (s.issue c 0x30 w { i := 0xFFFFFFFF } (fun s x => .jump s x.target))

/-- LOOP (R201): sa ← sa − 1; branch where sa then reads other than 0. -/
def execLoop (c : Fin 16) (w : BitVec 56) (s : State) : Out :=
  .next (s.issue c 0x31 w { b := 31, i := 0xFFFFFFFF } (fun s x =>
    let s1 := s.ws c x.b (s.rs c x.b - 1)
    if s1.rs c x.b = 0 then .next s1 else .jump s1 x.target))

/-- JAL (R201): sd ← PC + 8, then branch. -/
def execJal (c : Fin 16) (w : BitVec 56) (s : State) : Out :=
  .next (s.issue c 0x32 w { a := 31, i := 0xFFFFFFFF } (fun s x => .jump (s.ws c x.a (BitVec.ofNat 64 (x.pc + 8))) x.target))

/-- JR (R201): ILLEGAL if sa is not a multiple of 8. -/
def execJr (c : Fin 16) (w : BitVec 56) (s : State) : Out :=
  .next (s.issue c 0x33 w { b := 31 } (fun s x =>
    let t := (s.rs c x.b).toNat
    if t % 8 ≠ 0 then .exc s 1 0 else .jump s t))

/-- The identity word of R192. -/
def identity (c : Fin 16) (r : TaskRun) : Nat := c.val + r.copy * 16 + 256 * r.part + 65536 * r.task

/-- TINFO (R201): frame, argument, identity, core cycles since task start (given with the command), short stamp. -/
def execTinfo (c : Fin 16) (w : BitVec 56) (cycles : Nat) (t : Nat) (s : State) : Out :=
  .next ((s.at t).issue c 0x70 w { a := 31, d := 15, dmax := 4 } (fun s x =>
    let v := match x.d with
      | 0 => x.r.frame
      | 1 => x.r.arg
      | 2 => identity c x.r
      | 3 => cycles
      | _ => shortStamp t
    .next (s.ws c x.a (BitVec.ofNat 64 v))))

/-- The chunks of the array that are not done: in work, interrupted, to be replayed, before their verdicts and before their merges. -/
def Arr.chunks (a : Arr) : List Chunk :=
  (a.running.map (·.chunk)).toList ++ (a.held.map (·.chunk)).toList ++ a.replays ++ a.pending ++ a.merges

/-- All array work is done: queue empty, every pass ended, verdicts given, merges done (R203 AWAIT). -/
def Core.arrayIdle (k : Core) : Bool :=
  k.seq.arrayQ.isEmpty && k.arr.cur.isNone && k.arr.chunks.isEmpty

/-- FENCE is met: the DMA queue is empty and every answer has arrived (R204). -/
def State.fenceMet (s : State) (c : Fin 16) : Bool := (s.seqOf c).dmaQ.isEmpty && !s.outstanding c

/-- Put the wait of a sequencer. -/
def State.waitFor (s : State) (c : Fin 16) (x : Wait) : State := s.modSeq c (fun q => { q with wait := x })

/-- The wait is over: the waiting instruction retires. -/
def State.resume (s : State) (c : Fin 16) : State := s.modSeq c (fun q => { q with wait := .none, pc := q.pc + 8 })

/-- TEND (R201): waits as AWAIT and FENCE together, then ends the task. -/
def execTend (c : Fin 16) (w : BitVec 56) (s : State) : Out :=
  .next (s.issue c 0x71 w {} (fun s _ =>
    if (s.cores[c]).arrayIdle && s.fenceMet c then .stay (s.taskDone c) else .stay (s.waitFor c .tend)))

/-- TEND_COMPLETE (R201): what TEND waits for is complete. -/
def execTendComplete (c : Fin 16) (s : State) : Out :=
  .next (s.clocked (fun s =>
  if (s.seqOf c).wait = .tend ∧ (s.cores[c]).arrayIdle ∧ s.fenceMet c then s.taskDone c else s))

/-- TRAP (R201): the immediate is the exception's detail. -/
def execTrap (c : Fin 16) (w : BitVec 56) (s : State) : Out :=
  .next (s.issue c 0x72 w { i := 0xFFFFFFFF } (fun s x => .exc s 0x0B x.i))

/-- The address of LD and ST: sa + offset modulo 2⁶⁴ (R202). -/
def State.ldAddr (s : State) (c : Fin 16) (x : Ins) : Nat := (s.rs c x.b + immOf x.i).toNat

/-- LD (R202): D[1:0] size, D[2] sign extension. -/
def execLd (c : Fin 16) (w : BitVec 56) (ecc : Finds) (s : State) : Out :=
  .next (s.issue c 0x20 w { a := 31, b := 31, c := 7, d := 7, i := 0xFFFFFFFF } (fun s x =>
    let n := 2 ^ (x.d % 4)
    let a := s.ldAddr c x
    if a % n ≠ 0 then .exc s 2 0
    else match s.padRead c x.r.part x.c a n none ecc with
      | (s, .error e) => .exc s e.exc 0
      | (s, .ok d) =>
        let v : Int := if bitAt x.d 2 then signedOf (8 * n) (leNat d) else leNat d
        .next (s.ws c x.a (BitVec.ofInt 64 v))))

/-- ST (R202). -/
def execSt (c : Fin 16) (w : BitVec 56) (s : State) : Out :=
  .next (s.issue c 0x21 w { a := 31, b := 31, c := 7, d := 3, i := 0xFFFFFFFF } (fun s x =>
    let n := 2 ^ (x.d % 4)
    let a := s.ldAddr c x
    if a % n ≠ 0 then .exc s 2 0
    else match s.padWrite c x.r.part x.c a (natLe n (s.rs c x.a).toNat) with
      | (s, some e) => .exc s e.exc 0
      | (s, none) => .next s))

/-- AADD and ASWP (R202, R236): address sa, operand sb, D[0] selects 4 bytes, I[2:0] the window; a 4-byte old value is
zero-extended (log entry 30). -/
def State.atomicIns (s : State) (c : Fin 16) (op : Nat) (w : BitVec 56) (ecc : Finds) (f : Nat → AtomOp) : State :=
  s.issue c op w { a := 31, b := 31, c := 31, d := 1, i := 7 } (fun s x =>
    let n := if bitAt x.d 0 then 4 else 8
    let a := (s.rs c x.b).toNat
    if a % n ≠ 0 then .exc s 2 0
    else match s.padAtomic c x.r.part x.i a (f n) (natLe n (s.rs c x.c).toNat) none ecc with
      | (s, .error e) => .exc s e.exc 0
      | (s, .ok d) => .next (s.ws c x.a (BitVec.ofNat 64 (leNat d))))

/-- AADD (R236). -/
def execAadd (c : Fin 16) (w : BitVec 56) (ecc : Finds) (s : State) : Out :=
  .next (s.atomicIns c 0x22 w ecc (fun n => if n = 4 then .addInt32 else .addInt64))

/-- ASWP (R236). -/
def execAswp (c : Fin 16) (w : BitVec 56) (ecc : Finds) (s : State) : Out :=
  .next (s.atomicIns c 0x23 w ecc (fun n => .swap n))

/-- TSET (R197). -/
def execTset (c : Fin 16) (w : BitVec 56) (s : State) : Out :=
  .next (s.issue c 0x38 w { a := 7, b := 31, d := 7 } (fun s x =>
    let v := (s.rs c x.b).toNat
    if !fieldOk ((s.seqOf c).td x.a).kind x.d v then .exc s 2 0
    else .next (s.modSeq c (fun q => { q with desc := q.desc.set (Fin.ofNat 8 x.a) ((q.td x.a).setField x.d v) }))))

/-- TGET (R202). -/
def execTget (c : Fin 16) (w : BitVec 56) (s : State) : Out :=
  .next (s.issue c 0x39 w { a := 31, c := 7, d := 7 } (fun s x =>
    .next (s.ws c x.a (BitVec.ofNat 64 (((s.seqOf c).td x.c).field x.d)))))

/-- WOPEN (R227): ILLEGAL for w0 or an open window; the predicate says whether it was granted. -/
def execWopen (c : Fin 16) (w : BitVec 56) (s : State) : Out :=
  .next (s.issue c 0x3C w { a := 7, b := 31, c := 31, d := 3 } (fun s x =>
    if x.a = 0 ∨ ((s.cores[c]).pad.win x.r.part x.a).isOpen then .exc s 1 0
    else
      let (s1, ok) := s.allocate c x.r.part x.a (s.rs c x.b).toNat (s.rs c x.c).toNat
      let s2 := s1.modSeq c (fun q => q.setPred x.d ok)
      .next (if ok then s2.grantWin c x.r.part x.a else s2)))

/-- Windows an array job names. -/
def AJob.wins (j : AJob) : List Nat :=
  let ix := fun (d : Desc) => if d.kind = 2 ∨ d.kind = 3 ∨ d.kind = 4 then [d.iwin] else []
  let pw := if j.td.kind = 4 ∧ !j.isDrain then [j.td.pwin] else []
  (if j.isDrain then [] else j.ta.win :: j.tw.win :: ix j.ta) ++ (if j.td.kind = 5 then [] else [j.td.win]) ++ ix j.td ++ pw

/-- Windows a DMA entry names. -/
def DJob.wins (j : DJob) : List Nat :=
  let ix := fun (d : Desc) => if d.kind = 2 ∨ d.kind = 3 then [d.iwin] else []
  match j.op with
  | .drep => [j.win]
  | _ => j.ts.win :: j.td.win :: (ix j.ts ++ ix j.td)

/-- Array jobs of a core that have not completed, merges included. -/
def Core.jobs (k : Core) : List AJob :=
  k.seq.arrayQ ++ k.arr.cur.toList ++ k.arr.chunks.map (·.job)

/-- Some issued instruction that names window w of partition p has not completed (R202 WCLOSE). -/
def State.winBusy (s : State) (c : Fin 16) (p w : Nat) : Bool :=
  let k := s.cores[c]
  k.jobs.any (fun j => j.run.part == p && j.wins.contains w) ||
  k.seq.dmaQ.any (fun j => j.run.part == p && j.wins.contains w) ||
  (s.fab.reqs ++ s.fab.held.map (fun h => h.req)).any (fun q => q.core == some c.val && q.win == w && (match q.task with
    | some r => r.part == p
    | none => false))

/-- WCLOSE (R229): ILLEGAL for w0; waits for the window's users, then closes. -/
def execWclose (c : Fin 16) (w : BitVec 56) (s : State) : Out :=
  .next (s.issue c 0x3D w { a := 7 } (fun s x =>
    if x.a = 0 then .exc s 1 0
    else if s.winBusy c x.r.part x.a then .stay (s.waitFor c (.wclose x.a))
    else .next (s.modPad c (fun k => k.close x.r.part x.a))))

/-- A waiting WCLOSE goes on once nothing uses its window. -/
def State.closeIfFree (s : State) (c : Fin 16) : State :=
  let q := s.seqOf c
  match q.wait, q.task with
  | .wclose w, some r =>
    if s.winBusy c r.part w then s else (s.modPad c (fun k => k.close r.part w)).resume c
  | _, _ => s

/-- WINFO (R202, R225). -/
def execWinfo (c : Fin 16) (w : BitVec 56) (s : State) : Out :=
  .next (s.issue c 0x3E w { a := 31, c := 7 } (fun s x =>
    .next (s.ws c x.a (BitVec.ofNat 64 ((s.cores[c]).pad.win x.r.part x.c).word0))))

/-- AMODE (R155, R203). -/
def execAmode (c : Fin 16) (w : BitVec 56) (s : State) : Out :=
  .next (s.issue c 0x40 w { b := 31 } (fun s x =>
    .next (s.modSeq c (fun q => { q with mode := (q.rd x.b).toNat % 2 ^ 32, modeValid := true }))))

/-- AWAIT (R203). -/
def execAwait (c : Fin 16) (w : BitVec 56) (s : State) : Out :=
  .next (s.issue c 0x43 w {} (fun s _ => if (s.cores[c]).arrayIdle then .next s else .stay (s.waitFor c .await)))

/-- AWAIT_COMPLETE (R203). -/
def execAwaitComplete (c : Fin 16) (s : State) : Out :=
  .next (s.clocked (fun s =>
  if (s.seqOf c).wait = .await ∧ (s.cores[c]).arrayIdle then s.resume c else s))

/-- ASTAT (R203). -/
def execAstat (c : Fin 16) (w : BitVec 56) (s : State) : Out :=
  .next (s.issue c 0x44 w { a := 31 } (fun s x =>
    let k := s.cores[c]
    .next (s.ws c x.a (BitVec.ofNat 64
      (k.seq.arrayQ.length + 65536 * k.arr.pending.length + 2 ^ 32 * k.arr.merges.length)))))

/-- The owner position of a task on a rule book: the rank of its logical core in the core set of its copy (R117, R120); in the
task's own core mask where the rule book is not declared (log entry 32). -/
def State.ownerPos (s : State) (rb : Nat) (r : TaskRun) : Nat :=
  let mask := match s.books.rbs.find? (fun d => d.rb == rb) with
    | some d => match s.books.sets.find? (fun x => x.set == d.out) with
      | some x => if r.copy = 0 then x.coreA else x.coreB
      | none => ((s.sched.task r.task).map (·.mask)).getD 0
    | none => ((s.sched.task r.task).map (·.mask)).getD 0
  popCount mask r.lcore

/-- SEGH (R203, R210): reads the 32-byte header at sa; SEGMENT where its frame, copy or owner differs from the task's. -/
def execSegh (c : Fin 16) (w : BitVec 56) (ecc : Finds) (s : State) : Out :=
  .next (s.issue c 0x48 w { a := 31, b := 31, c := 7 } (fun s x =>
    if x.a = 0 ∨ 27 < x.a then .exc s 1 0
    else match s.padRead c x.r.part x.c (s.rs c x.b).toNat 32 none ecc with
      | (s, .error e) => .exc s e.exc 0
      | (s, .ok h) =>
        if fieldLe h 8 4 ≠ x.r.frame ∨ fieldLe h 7 1 ≠ x.r.copy ∨ fieldLe h 6 1 ≠ s.ownerPos (fieldLe h 0 1) x.r then .exc s 6 0
        else
          let put := fun (s : State) (i v : Nat) => s.ws c (x.a + i) (BitVec.ofNat 64 v)
          .next (put (put (put (put (put s 0 (fieldLe h 4 2)) 1 (fieldLe h 1 1)) 2 (fieldLe h 3 1)) 3 (fieldLe h 12 4)) 4
            (fieldLe h 16 4 + 2 ^ 32 * fieldLe h 24 4))))

/-- Update a window of a core. -/
def State.modWin (s : State) (c : Fin 16) (p w : Nat) (f : Win → Win) : State :=
  s.modPad c (fun k => k.setWin p w (f (k.win p w)))

/-- SEGR (R203): marks the oldest unreleased slot; ILLEGAL where there is none. -/
def execSegr (c : Fin 16) (w : BitVec 56) (s : State) : Out :=
  .next (s.issue c 0x49 w { c := 7 } (fun s x =>
    match ((s.cores[c]).pad.win x.r.part x.c).segs with
    | [] => .exc s 1 0
    | n :: rest => .next (s.modWin c x.r.part x.c (fun v => { v with segs := rest, marked := v.marked ++ [n] }))))

/-- A descriptor's index records, or its LINEAR rows, n of them, reach into bytes [lo, hi) of window w; rows behind an index may lie anywhere in
their window. -/
def Desc.reads (d : Desc) (n w lo hi : Nat) : Bool :=
  let hits := fun (a len : Nat) => decide (a < hi ∧ lo < a + len)
  ((d.kind == 2 || d.kind == 3 || d.kind == 4) && d.iwin == w && hits d.ibase (n * d.irec * 8)) ||
  (d.kind == 1 && d.win == w && hits d.base (if d.cmp then n * d.row * 9 / 8 else (n - 1) * d.stride + d.row)) ||
  (d.kind == 2 && d.win == w)

/-- An array job reads bytes [lo, hi) of a window of its partition. -/
def AJob.reads (j : AJob) (p w lo hi : Nat) : Bool :=
  j.run.part == p && ((!j.isDrain && (j.ta.reads j.m w lo hi || j.tw.reads j.k w lo hi)) || (j.td.kind == 4 && j.td.reads j.m w lo hi))

/-- A DMA entry reads bytes [lo, hi) of a window of its partition. -/
def DJob.reads (j : DJob) (p w lo hi : Nat) : Bool :=
  j.run.part == p && (match j.op with
    | .drep => j.win == w && decide (j.off < hi ∧ lo < j.off + j.len)
    | _ => j.ts.reads j.ts.count w lo hi || (j.td.kind == 3 && j.td.reads j.ts.count w lo hi))

/-- SEGMENT_SLOT_RETURN (R203): the oldest marked slot of the window goes back to the builder as one credit once no issued
instruction reads it. The window is that of the running task's partition, else of the lowest partition with a marked slot. -/
def execSegmentSlotReturn (c : Fin 16) (win : Fin 8) (s : State) : Out :=
  .next (s.clocked (fun s =>
  let k := s.cores[c]
  let ps := (k.seq.task.map (·.part)).toList ++ List.range 8
  match ps.find? (fun p => !(k.pad.win p win.val).marked.isEmpty) with
    | none => s
    | some p =>
      let v := k.pad.win p win.val
      let lo := 32800 * v.marked.headD 0
      if k.jobs.any (fun j => j.reads p win.val lo (lo + 32800)) || k.seq.dmaQ.any (fun j => j.reads p win.val lo (lo + 32800)) then s
      else
        let s := s.modWin c p win.val (fun v => { v with marked := v.marked.drop 1 })
        if bitAt v.attr 6 then
          s.send 6 { ddev := s.device, dstop := stopFE, sdev := s.device, sstop := coreStop c.val, part := p, win := win.val
                     gen := v.gen, tag := 1 }
        else s))

/-- WAITK (R204). -/
def execWaitk (c : Fin 16) (w : BitVec 56) (s : State) : Out :=
  .next (s.issue c 0x58 w { a := 63, b := 31 } (fun s x =>
    let v := (s.rs c x.b).toNat % 2 ^ 32
    if v ≤ s.kget c x.a then .next s else .stay (s.waitFor c (.waitk x.a v))))

/-- WAITK_RESUME (R204): the counter has reached its value. -/
def execWaitkResume (c : Fin 16) (s : State) : Out :=
  .next (s.clocked (fun s =>
  match (s.seqOf c).wait with
    | .waitk k v => if v ≤ s.kget c k then s.resume c else s
    | _ => s))

/-- KGET (R204). -/
def execKget (c : Fin 16) (w : BitVec 56) (s : State) : Out :=
  .next (s.issue c 0x59 w { a := 63, c := 31 } (fun s x => .next (s.ws c x.c (BitVec.ofNat 64 (s.kget c x.a)))))

/-- KSUB (R204): OPERAND where the result would be negative. -/
def execKsub (c : Fin 16) (w : BitVec 56) (s : State) : Out :=
  .next (s.issue c 0x5A w { a := 63, b := 31 } (fun s x =>
    let v := (s.rs c x.b).toNat % 2 ^ 32
    if s.kget c x.a < v then .exc s 2 0 else .next (s.kset c x.a (s.kget c x.a - v))))

/-- FENCE (R204). -/
def execFence (c : Fin 16) (w : BitVec 56) (s : State) : Out :=
  .next (s.issue c 0x5B w {} (fun s _ => if s.fenceMet c then .next s else .stay (s.waitFor c .fence)))

/-- FENCE_COMPLETE (R204). -/
def execFenceComplete (c : Fin 16) (s : State) : Out :=
  .next (s.clocked (fun s =>
  if (s.seqOf c).wait = .fence ∧ s.fenceMet c then s.resume c else s))

/-- The operand of BAR and TKMRG names a VALID group of the task's partition whose members include the core (R283, R284). -/
def State.groupOk (s : State) (c : Fin 16) (part g : Nat) : Bool :=
  let e := s.group g
  grpValid e && grpPart e == part && (s.grpIndex e s.device (coreStop c.val)).isSome

/-- BAR completes once the release counter holds 1, and subtracts it (R283). -/
def State.barTry (s : State) (c : Fin 16) : State :=
  match (s.seqOf c).wait with
  | .bar g =>
    let k := ((s.group g).getD 13 0).toNat
    if 1 ≤ s.kget c k then (s.kset c k (s.kget c k - 1)).resume c else s
  | _ => s

/-- BAR (R283): sends BAR_ARRIVE to the root and waits for the release. -/
def execBar (c : Fin 16) (w : BitVec 56) (s : State) : Out :=
  .next (s.issue c 0x5C w { b := 31 } (fun s x =>
    let v := (s.rs c x.b).toNat
    if 15 < v ∨ !s.groupOk c x.r.part v then .exc s 2 0
    else
      let s := s.sendColl 11 (coreStop c.val) v 0 (s.grpMember (s.group v) 0) 0 false []
      .stay ((s.waitFor c (.bar v)).barTry c)))

end Sys2Proof.Machine
end

