-- ==== Sys2Proof/Machine/Dma.lean ====
section
/-! DEFINITION. Rows behind a descriptor (R198, R199) and the DMA engine (R204, R205, R211-R214). -/

namespace Sys2Proof.Machine

/-- Count an index that names no row (R199). -/
def State.skipIndex (s : State) (c : Fin 16) : State := s.bump (odCore 0x6102 c 6)

/-- 8-byte words that reading n bytes of one row of a descriptor takes, its index record first. -/
def Desc.words (d : Desc) (n : Nat) : Nat := (if d.kind = 2 ∨ d.kind = 3 ∨ d.kind = 4 then d.irec else 0) + ceilDiv n 8

/-- The rows of an indexed descriptor that lie at other cores, as (core, byte offset): rows r0 to r0 + count − 1 (R199). -/
def State.farRows (s : State) (c : Fin 16) (p : Nat) (d : Desc) (r0 count : Nat) : List (Fin 16 × Nat) :=
  if d.kind ≠ 2 then []
  else
    let k := (s.cores[c]).pad
    (List.range count).filterMap (fun i =>
      match d.target c (k.bytes (k.win p d.iwin) (d.ibase + (r0 + i) * d.irec * 8) (d.irec * 8)) with
      | some (o, row) => if o = c then none else some (o, d.base + row * d.stride)
      | none => none)

/-- Ask for the remote rows of a unit's stream that have not come, and say whether all have (R205, R240, R269). A row beyond what OFFSET can name
is not asked for. -/
def State.farReady (s : State) (c : Fin 16) (t : TaskRun) (pc : Nat) (d : Desc) (n r0 count : Nat) : State × Bool :=
  let far := (s.farRows c t.part d r0 count).filter (fun y => decide (y.2 + n ≤ 2 ^ 25))
  let s := far.foldl (fun s y => s.askRow c y.1 t pc d.win y.2 n) s
  (s, far.all (fun y => ((s.cores[c]).farRow y.1 t pc d.win y.2 n).isSome))

/-- Row r of a source descriptor, `n` bytes of it (R198, R199); the error is an exception code. A remote row is the one that READ messages have
brought. -/
def State.rowRead (s : State) (c : Fin 16) (t : TaskRun) (pc : Nat) (d : Desc) (r n : Nat) (e : Finds := {}) : State × Except Nat Bytes :=
  match d.kind with
  | 1 => match s.padRead c t.part d.win (d.base + r * d.stride) n none e with
    | (s, .ok b) => (s, .ok b)
    | (s, .error x) => (s, .error x.exc)
  | 6 => match s.regionAt t.part (d.base + r * d.stride) n with
    | none => (s, .error 0x0A)
    | some da => match s.dramGet da n (findsEcc e (d.words n)) with
      | (s, some b) => (s, .ok b)
      | (s, none) => (s, .error 7)
  | _ => match s.indexRec c t.part d r e with
    | (s, .error x) => (s, .error x.exc)
    | (s, .ok rec) => match d.target c rec with
      | none => (s.skipIndex c, .ok (zeros n))
      | some (o, row) =>
        if o = c then
          match s.padRead c t.part d.win (d.base + row * d.stride) n none (findsAfter e d.irec) with
          | (s, .ok b) => (s, .ok b)
          | (s, .error x) => (s, .error x.exc)
        else match (s.cores[c]).farRow o t pc d.win (d.base + row * d.stride) n with
          | some b => (s, .ok b)
          | none => (s, .error 3)

/-- Write or add a row at a place of core o: locally at once, elsewhere as messages (R199, R231, R240). -/
def State.placeRow (s : State) (c o : Fin 16) (t : TaskRun) (pc w off : Nat) (op : Option AtomOp) (row : Bytes) (e : Finds := {}) :
    State × Option Nat :=
  if o = c then
    match op with
    | none => match s.padWrite c t.part w off row with
      | (s, none) => (s, none)
      | (s, some x) => (s, some x.exc)
    | some a => match s.padAtomic c t.part w off a row none e with
      | (s, .ok _) => (s, none)
      | (s, .error x) => (s, some x.exc)
  else if 2 ^ 25 < off + row.length then (s, some 3)
  else
    let afmt := match op with
      | some .addFp32 => 1
      | some .addInt64 => 2
      | _ => 0
    (s.sendRow c o t pc (if op.isSome then 1 else 0) afmt w off row, none)

/-- A logged packet record enters the front end's replay input (R84, R214): the payload of its port with its logged receive time stamp. It
stands in no queue, so it never drives XOFF_N. A record whose port or length breaks R214's layout is not replayed (log entry 163). -/
def State.replay (s : State) (rec : Bytes) : State :=
  let port := fieldLe rec 0 1
  let n := fieldLe rec 2 2
  if 8 ≤ port ∨ rec.length < 16 + n then s
  else { s with ing := { s.ing with replay := s.ing.replay ++ [(port, { data := slice rec 16 n, stamp := fieldLe rec 8 8 })] } }

/-- Row r of a destination descriptor written, or added where `op` says so (R198, R199, R204). -/
def State.rowWrite (s : State) (c : Fin 16) (t : TaskRun) (pc : Nat) (d : Desc) (r : Nat) (op : Option AtomOp) (row : Bytes)
    (e : Finds := {}) : State × Option Nat :=
  match d.kind with
  | 1 => s.placeRow c c t pc d.win (d.base + r * d.stride) op row e
  | 6 => match s.regionAt t.part (d.base + r * d.stride) row.length with
    | none => (s, some 0x0A)
    | some da => (s.dramPut da row, none)
  | 7 => (s.replay row, none)
  | _ => match s.indexRec c t.part d r e with
    | (s, .error x) => (s, some x.exc)
    | (s, .ok rec) => match d.target c rec with
      | none => (s.skipIndex c, none)
      | some (o, n) => s.placeRow c o t pc d.win (d.base + n * d.stride) op row (findsAfter e d.irec)

/-- Elements per row of a descriptor. -/
def Desc.elems (d : Desc) : Nat := d.row * 8 / fmtBits d.fmt

/-- One group of 16 elements in the compressed form (R17). -/
def packGroup (fmt : Nat) (l : List Nat) : Bytes :=
  let nz := l.filter (fun x => !fmtZero fmt x)
  let mask := (l.zip (List.range 16)).foldl (fun m y => if fmtZero fmt y.1 then m else setBit m y.2) 0
  natLe 2 mask ++ packElems fmt nz

/-- A row in the compressed form (R17, R211). -/
def packRow (fmt : Nat) (row : Bytes) : Bytes :=
  (chunksOf 16 row.length (elems fmt row)).flatMap (packGroup fmt)

/-- Expand `groups` groups of a compressed table that starts at `l`; answers the elements and the bytes left. -/
def unpackGroups (fmt : Nat) : Nat → Bytes → List Nat × Bytes
  | 0, l => ([], l)
  | n + 1, l =>
    let mask := leNat (l.take 2)
    let k := popCount mask 16 * (fmtBits fmt / 8)
    let vals := elems fmt (slice l 2 k)
    let one := (List.range 16).map (fun i => if bitAt mask i then vals.getD (popCount mask i) 0 else 0)
    let (rest, l') := unpackGroups fmt n (l.drop (2 + k))
    (one ++ rest, l')

/-- The most bytes `rows` rows of `row` bytes take in the compressed form (R211). -/
def packedMax (fmt rows row : Nat) : Nat := if fmtBits fmt = 16 then rows * row * 17 / 16 else rows * row * 9 / 8

/-- Where the room for one run of bytes behind a descriptor ends: the window's or the region's bytes after BASE. -/
def State.roomAt (s : State) (c : Fin 16) (p : Nat) (d : Desc) : Nat :=
  if d.kind = 6 then 67108864 * s.num (od (0x7810 + p) 2) - d.base else ((s.cores[c]).pad.win p d.win).size - d.base

/-- Rows of a compressed table (R211, R17): `rows` rows of `row` bytes from the descriptor's BASE on, in a window or in the DRAM region. -/
def State.unpackTable (s : State) (c : Fin 16) (t : TaskRun) (pc : Nat) (d : Desc) (rows row : Nat) (e : Finds) :
    State × Except Nat (List Bytes) :=
  let n := Nat.min (packedMax d.fmt rows row) (s.roomAt c t.part d)
  match s.rowRead c t pc { d with stride := 0 } 0 n e with
  | (s, .error x) => (s, .error x)
  | (s, .ok b) =>
    let g := ceilDiv (row * 8 / fmtBits d.fmt) 16
    (s, .ok (chunksOf row (rows + 1) (packElems d.fmt (unpackGroups d.fmt (rows * g) b).1)))

/-- Read source rows r on in order; `e` says what the check bits of all the words read say. -/
def State.rowsRead (s : State) (c : Fin 16) (t : TaskRun) (pc : Nat) (d : Desc) (n : Nat) (e : Finds) :
    Nat → Nat → State × Except Nat (List Bytes)
  | 0, _ => (s, .ok [])
  | k + 1, r =>
    match s.rowRead c t pc d r n e with
    | (s, .error x) => (s, .error x)
    | (s, .ok b) => match State.rowsRead s c t pc d n (findsAfter e (d.words n)) k (r + 1) with
      | (s, .error x) => (s, .error x)
      | (s, .ok bs) => (s, .ok (b :: bs))

/-- Write all rows in order; the first failure ends it. -/
def State.rowsWrite (s : State) (c : Fin 16) (t : TaskRun) (pc : Nat) (d : Desc) (op : Option AtomOp) (e : Finds) :
    Nat → List Bytes → State × Option Nat
  | _, [] => (s, none)
  | r, b :: bs => match s.rowWrite c t pc d r op b e with
    | (s, some x) => (s, some x)
    | (s, none) => State.rowsWrite s c t pc d op (findsAfter e (d.words b.length)) (r + 1) bs

/-- m and sh of a channel (R212): from the parameter register, or from the table of the window it names. -/
def State.convParam (s : State) (c : Fin 16) (p par ch : Nat) : State × Except Nat (Nat × Nat) :=
  if bitAt par 39 then
    match s.padRead c p (bitsOf par 42 40) (bitsOf par 63 43 * 32 + 8 * ch) 8 with
    | (s, .error x) => (s, .error x.exc)
    | (s, .ok b) => (s, .ok (fieldLe b 0 4, fieldLe b 4 1))
  else (s, .ok (bitsOf par 31 0, bitsOf par 37 32))

/-- One element of CONV (R212). -/
def convElem (sf df par x m sh : Nat) : Nat :=
  let relu := bitAt par 38
  if sf = 5 then unsignedOf (fmtBits df) (convInt (signedOf 32 x) (signedOf 32 m) sh (fmtBits df) relu)
  else convFp x m (fmtOf df) relu

/-- One row of CONV, channel by channel. -/
def State.convRow (s : State) (c : Fin 16) (p sf df par : Nat) : Nat → List Nat → State × Except Nat (List Nat)
  | _, [] => (s, .ok [])
  | ch, x :: xs => match s.convParam c p par ch with
    | (s, .error e) => (s, .error e)
    | (s, .ok (m, sh)) => match State.convRow s c p sf df par (ch + 1) xs with
      | (s, .error e) => (s, .error e)
      | (s, .ok ys) => (s, .ok (convElem sf df par x m sh :: ys))

/-- All rows of CONV. -/
def State.convRows (s : State) (c : Fin 16) (p : Nat) (j : DJob) : List Bytes → State × Except Nat (List Bytes)
  | [] => (s, .ok [])
  | b :: bs => match s.convRow c p j.ts.fmt j.td.fmt j.par 0 (elems j.ts.fmt b) with
    | (s, .error e) => (s, .error e)
    | (s, .ok y) => match State.convRows s c p j bs with
      | (s, .error e) => (s, .error e)
      | (s, .ok ys) => (s, .ok (packElems j.td.fmt y :: ys))

/-- The bits of MASKB (R204): element c of each row against the threshold, row after row. -/
def maskBits (fmt thr w : Nat) (rows : List Bytes) : Bytes :=
  let bits := rows.flatMap (fun b => ((elems fmt b).take w).map (fun x => !fmtNan fmt x && fmtLt fmt (thr % 2 ^ fmtBits fmt) x))
  let v := (bits.zip (List.range bits.length)).foldl (fun m y => if y.1 then m + 2 ^ y.2 else m) 0
  natLe (ceilDiv bits.length 256 * 32) v

/-- The operation a DMA's destination rows take. -/
def DJob.atom (j : DJob) : Option AtomOp :=
  if j.op = .add then some (if j.td.fmt = 5 then .addInt32 else .addFp32) else none

/-- Move a job's data (R204, R211, R212): the state and the exception it met. -/
def State.moveJob (s : State) (c : Fin 16) (j : DJob) (e : Finds) : State × Option Nat :=
  let p := j.run.part
  match j.op with
  | .drep => match s.padRead c p j.win j.off j.len none e with
    | (s, .error x) => (s, some x.exc)
    | (s, .ok b) =>
      ((rowMsgs 0 b).foldl (fun s y =>
        s.request 7 { ddev := s.device, dstop := stopFE, sdev := s.device, sstop := coreStop c.val, part := p, win := j.win
                      count := y.2.2, len := ceilDiv y.2.1.length 32 - 1, offset := y.1 / 32, data := y.2.1 }
          (some c.val) (some j.run) j.pc) s, none)
  | .maskb => match s.rowsRead c j.run j.pc j.ts j.ts.row e j.ts.count 0 with
    | (s, .error x) => (s, some x)
    | (s, .ok rows) => s.rowWrite c j.run j.pc j.td 0 none (maskBits j.ts.fmt j.par j.width rows)
  | _ =>
    let row := if j.op = .conv then j.ts.elems * fmtBits j.td.fmt / 8 else j.ts.row
    if j.td.cmp ∧ s.roomAt c p j.td < packedMax j.td.fmt j.ts.count row then (s, some 3)
    else
      match (if j.ts.cmp then s.unpackTable c j.run j.pc j.ts j.ts.count j.ts.row e
        else s.rowsRead c j.run j.pc j.ts j.ts.row e j.ts.count 0) with
      | (s, .error x) => (s, some x)
      | (s, .ok rows) =>
        match (if j.op = .conv then s.convRows c p j rows else (s, .ok rows)) with
        | (s, .error x) => (s, some x)
        | (s, .ok rows) =>
          if j.td.cmp then
            let b := rows.flatMap (packRow j.td.fmt)
            s.rowWrite c j.run j.pc j.td 0 none (padTo (ceilDiv b.length 32 * 32) b)
          else s.rowsWrite c j.run j.pc j.td j.atom (findsAfter e (j.ts.count * j.ts.words j.ts.row)) 0 rows

/-- The engine takes the queue's front entry (R205). -/
def State.dmaTake (s : State) (c : Fin 16) : State :=
  s.modSeq c (fun q => match q.dmaQ with
    | j :: js => { q with dmaQ := { j with started := true } :: js }
    | [] => q)

/-- Enter a job in the DMA queue: eight entries wait at most (R191, R193). -/
def State.dmaEnter (s : State) (c : Fin 16) (j : DJob) : Eff :=
  if 8 ≤ ((s.seqOf c).dmaQ.filter (fun x => !x.started)).length then .stay s
  else .next ((s.modSeq c (fun q => { q with dmaQ := q.dmaQ ++ [j] })).dmaTake c)

/-- FMT codes a compressed table may have (R211). -/
def cmpFmt (f : Nat) : Bool := f == 0 || f == 2 || f == 3 || f == 4

/-- The pairings of CONV (R212). -/
def convPair (a b : Nat) : Bool := (a == 5 && (b == 0 || b == 1)) || (a == 6 && (b == 4 || b == 7 || b == 2 || b == 3))

/-- A DMA's operands are within their limits (R197, R198, R204, R211, R212). -/
def dmaOk (op : DmaOp) (ts td : Desc) : Bool :=
  (ts.kind == 1 || ts.kind == 2 || ts.kind == 6) && (td.kind == 1 || td.kind == 3 || td.kind == 6 || td.kind == 7) &&
  (ts.kind != 2 || ts.irecOk) && (td.kind != 3 || td.irecOk) &&
  (!ts.cmp || ((ts.kind == 1 || ts.kind == 6) && td.cmp && op == .copy)) &&
  (!td.cmp || ((td.kind == 1 || td.kind == 6) && op != .add && cmpFmt td.fmt &&
    (if op == .conv then ts.elems % 16 == 0 else ts.row * 8 / fmtBits td.fmt % 16 == 0))) &&
  (match op with
    | .add => (td.fmt == 5 || td.fmt == 6) && (td.kind == 1 || td.kind == 3)
    | .conv => convPair ts.fmt td.fmt
    | _ => true)

/-- A DMA row (R204): A k, B sa, C ts, I td, D[3] count. -/
def State.dmaIns (s : State) (c : Fin 16) (n : Nat) (w : BitVec 56) (op : DmaOp) : State :=
  s.issue c n w { a := 63, b := 31, c := 7, d := 11, i := 7 } (fun s x =>
    let q := s.seqOf c
    let ts := q.td x.c
    let td := q.td x.i
    if !dmaOk op ts td then .exc s 2 0
    else s.dmaEnter c { op := op, ts := ts, td := td, par := (q.rd x.b).toNat, count := if bitAt x.d 3 then some x.a else none
                        word := w.toNat, pc := x.pc, run := x.r })

/-- DMA_COPY (R204). -/
def execDmaCopy (c : Fin 16) (w : BitVec 56) (s : State) : Out := .next (s.dmaIns c 0x50 w .copy)
/-- DMA_ADD (R204). -/
def execDmaAdd (c : Fin 16) (w : BitVec 56) (s : State) : Out := .next (s.dmaIns c 0x150 w .add)
/-- DMA_CONV (R212). -/
def execDmaConv (c : Fin 16) (w : BitVec 56) (s : State) : Out := .next (s.dmaIns c 0x250 w .conv)

/-- MASKB (R204): A k, B sa threshold, C ts, I[2:0] td, I[12:8] w − 1, D[3] count. -/
def execMaskb (c : Fin 16) (w : BitVec 56) (s : State) : Out :=
  .next (s.issue c 0x51 w { a := 63, b := 31, c := 7, d := 8, i := 0x1F07 } (fun s x =>
    let q := s.seqOf c
    let ts := q.td x.c
    let td := q.td (x.i % 8)
    let n := bitsOf x.i 12 8 + 1
    if ts.kind ≠ 1 ∨ td.kind ≠ 1 ∨ ts.cmp ∨ td.cmp ∨ ts.elems < n then .exc s 2 0
    else s.dmaEnter c { op := .maskb, ts := ts, td := td, par := (q.rd x.b).toNat, width := n
                        count := if bitAt x.d 3 then some x.a else none, word := w.toNat, pc := x.pc, run := x.r }))

/-- DREP (R204, R213): A[4:0] sb length, B sa offset, I[2:0] window; OPERAND where the length is no multiple of 32. -/
def execDrep (c : Fin 16) (w : BitVec 56) (s : State) : Out :=
  .next (s.issue c 0x52 w { a := 31, b := 31, i := 7 } (fun s x =>
    let n := (s.rs c x.a).toNat
    if n % 32 ≠ 0 then .exc s 2 0
    else s.dmaEnter c { op := .drep, off := (s.rs c x.b).toNat, len := n, win := x.i, word := w.toNat, pc := x.pc, run := x.r }))

/-- Take the front job away and start the next one. -/
def State.dmaPop (s : State) (c : Fin 16) : State := (s.modSeq c (fun q => { q with dmaQ := q.dmaQ.drop 1 })).dmaTake c

/-- The front job is complete: its counter, the next job, and a WCLOSE that waited for it (R202, R204). -/
def State.dmaFinish (s : State) (c : Fin 16) (j : DJob) : State :=
  let s := s.dmaPop c
  let s := match j.count with
    | some k => s.kadd c k 1
    | none => s
  s.closeIfFree c

/-- A READ of a unit has failed (R242, R275): what it brought is dropped, and the DMA entry that needed it does not go on. -/
def State.failGet (s : State) (c : Fin 16) (r : TaskRun) (pc : Nat) : State :=
  ((s.dropGets c r pc).modSeq c (fun q => { q with dmaQ := q.dmaQ.filter (fun j => !(j.run == r && j.pc == pc && !j.moved)) })).dmaTake c

/-- Requests of one job still unanswered. -/
def State.jobOpen (s : State) (c : Fin 16) (j : DJob) : Bool :=
  (s.fab.reqs ++ s.fab.held.map (fun h => h.req)).any (fun q => q.core == some c.val && q.task == some j.run && q.pc == j.pc)

/-- The remote rows a job reads have come; what has not been asked for is asked for now (R205). -/
def State.jobReady (s : State) (c : Fin 16) (j : DJob) : State × Bool :=
  match j.op with
  | .drep => (s, true)
  | _ => s.farReady c j.run j.pc j.ts j.ts.row 0 j.ts.count

/-- DMA_COMPLETE (R204, R205): once the remote rows it reads have come, the front job moves its rows, and once every write is acknowledged it is
complete. With remote rows earlier commands send what is asked and written, and a later one, after the answers, completes the job. `ecc`
says what its reads find. -/
def execDmaComplete (c : Fin 16) (ecc : Finds) (s : State) : Out :=
  .next (s.clocked (fun s =>
  match (s.seqOf c).dmaQ with
    | [] => s
    | j :: _ =>
      if j.moved then (if s.jobOpen c j then s else s.dmaFinish c j)
      else
        match s.jobReady c j with
        | (s, false) => s
        | (s, true) =>
          match s.moveJob c j ecc with
          | (s, some x) => (((s.dropGets c j.run j.pc).exceptRun c j.run x j.pc).dmaPop c).closeIfFree c
          | (s, none) =>
            let s := s.dropGets c j.run j.pc
            if s.jobOpen c j then
              s.modSeq c (fun q => { q with dmaQ := match q.dmaQ with
                | j :: js => { j with moved := true } :: js
                | [] => [] })
            else s.dmaFinish c j))

end Sys2Proof.Machine
end

