-- ==== Sys2Proof/Machine/Terms.lean ====
section
/-! DEFINITION. The arithmetic of the array: mode word and arrangements (R152, R155-R160), cell terms and reductions (R163-R167), checksums
(R179-R181), the roles of physical cells (R150, R152, R184) and rows that leave the array (R164, R188). -/

namespace Sys2Proof.Machine

/-- Lanes R and columns C of an arrangement (R152). -/
def arrDims : Nat → Nat × Nat
  | 0 => (128, 128) | 1 => (64, 256) | 2 => (256, 64) | 3 => (32, 512) | 4 => (512, 32) | 5 => (64, 64) | _ => (32, 32)

/-- Sub-arrays that run separate passes (R152). -/
def arrSubs : Nat → Nat
  | 5 => 4 | 6 => 16 | _ => 1

/-- Where a tile stands in an arrangement (R152): its sub-array and its logical tile row and column. -/
def tilePlace (arr tile : Nat) : Nat × Nat × Nat :=
  let u := tile / 4
  let v := tile % 4
  match arr with
  | 5 => (2 * (u / 2) + v / 2, u % 2, v % 2)
  | 6 => (tile, 0, 0)
  | _ => (0, tile / ((arrDims arr).2 / 32), tile % ((arrDims arr).2 / 32))

/-- The tiles of a sub-array, or of the gang. -/
def tilesOf (arr sub : Nat) : List Nat := (List.range 16).filter (fun t => (tilePlace arr t).1 == sub)

/-! Fields of the mode word (R155). -/

/-- ARR. -/
def mArr (w : Nat) : Nat := bitsOf w 31 29
/-- FLOW: 0 WS, 1 OS, 2 IS. -/
def mFlow (w : Nat) : Nat := bitsOf w 28 27
/-- OP: 0 MAC, 1 L1, 2 L2, 3 MAX, 4 MIN. -/
def mOp (w : Nat) : Nat := bitsOf w 26 24
/-- SFMT, whose codes are those of FMT. -/
def mSf (w : Nat) : Nat := bitsOf w 23 21
/-- TFMT. -/
def mTf (w : Nat) : Nat := bitsOf w 20 18
/-- LOAD: ripple. -/
def mRipple (w : Nat) : Bool := bitAt w 17
/-- ZSKIP. -/
def mZskip (w : Nat) : Bool := bitAt w 16
/-- PRUNE. -/
def mPrune (w : Nat) : Bool := bitAt w 15
/-- DEST: accumulator store. -/
def mStore (w : Nat) : Bool := bitAt w 14
/-- MAX or MIN: value and index pairs (R167). -/
def mPair (w : Nat) : Bool := mOp w == 3 || mOp w == 4
/-- Floating formats. -/
def mFp (w : Nat) : Bool := fmtIsFp (mSf w)

/-- Both formats are FP8. -/
def fp8 (f : Nat) : Bool := f == 2 || f == 3

/-- A mode word is refused whatever the task (R156). -/
def modeBad (w : Nat) : Bool :=
  mArr w == 7 || mFlow w == 3 || decide (5 ≤ mOp w) || decide (5 ≤ mSf w) || decide (5 ≤ mTf w) || w % 16384 != 0 ||
  (mSf w != mTf w && !(fp8 (mSf w) && fp8 (mTf w))) ||
  (mZskip w && (mFlow w != 1 || mOp w != 0 || mSf w == 1))

/-- Positions an accumulator takes: two for a value and its index (R167). -/
def accWide (w : Nat) : Nat := if mPair w then 2 else 1

/-- Rows of the accumulator store for a mode (R160, R167). -/
def storeRowsOf (w : Nat) : Nat := 65536 / (arrDims (mArr w)).2 / accWide w

/-- Reduction length per pass in WS and IS (R158). -/
def passK (w : Nat) : Nat :=
  let r := (arrDims (mArr w)).1
  if mSf w = 1 then 2 * r else if mSf w = 4 then r / 2 else r

/-- Columns per pass (R158). -/
def passC (w : Nat) : Nat :=
  let c := (arrDims (mArr w)).2
  if mFlow w = 1 ∧ mSf w = 4 then c / 2 else c

/-- Output-stationary rows per block (R158). -/
def passR (w : Nat) : Nat := (arrDims (mArr w)).1

/-- Elements of the reduction that a tile's 32 lanes take in WS and IS (R158). -/
def tileK (w : Nat) : Nat := if mSf w = 1 then 64 else if mSf w = 4 then 16 else 32

/-- Columns of a tile (R158): BF16 pairs them in OS. -/
def tileC (w : Nat) : Nat := if mFlow w = 1 ∧ mSf w = 4 then 16 else 32

/-- k elements of one core cycle in OS (R158). -/
def stepK (w : Nat) : Nat := if mSf w = 1 then 2 else 1

/-- Passes of a chunk (R159): column groups × reduction blocks, or output-stationary blocks. -/
def passCount (w rows k n : Nat) : Nat :=
  if mFlow w = 1 then ceilDiv rows (passR w) * ceilDiv n (passC w) else ceilDiv n (passC w) * ceilDiv k (passK w)

/-! Values. -/

/-- An integer as an exact value. -/
def fvOfInt (i : Int) : FVal := .fin (decide (i < 0)) i.natAbs 0

/-- The integer an exact value of non-negative exponent is. -/
def fvToInt : FVal → Int
  | .fin n m e => if n then -((m * 2 ^ e.toNat : Nat) : Int) else (m * 2 ^ e.toNat : Nat)
  | _ => 0

/-- The magnitude. -/
def fvAbs : FVal → FVal
  | .nan => .nan
  | .inf _ => .inf false
  | .fin _ m e => .fin false m e

/-- A value is finite. -/
def fvFinite : FVal → Bool
  | .fin _ _ _ => true
  | _ => false

/-- A value rounded to FP32, ties to even. -/
def fv32 : FVal → FVal
  | .fin n m e => f32 (fmt32.round n m e false)
  | v => v

/-- An exact product that lies outside the FP32 range is an infinity or a signed zero (R165; log entry 189). -/
def fpRange : FVal → FVal
  | .fin n m e =>
    let lead : Int := (Nat.log2 m : Int) + e
    if m = 0 then .fin n 0 0 else if 128 ≤ lead then .inf n else if lead < -149 then .fin n 0 0 else .fin n m e
  | v => v

/-- Two values are equal, exactly; NaNs are. -/
def fvSame (a b : FVal) : Bool := if a == .nan || b == .nan then a == b else !fvLt a b && !fvLt b a

/-- The bits of a value that FP32 holds. -/
def fvBits : FVal → Nat
  | .nan => nan32
  | .inf n => fmt32.infinity n
  | .fin n m e => fmt32.round n m e false

/-! Terms and nodes (R163-R165). -/

/-- What a reduction node answers: the value, for MAX and MIN its index (0xFFFF_FFFF: none) and whether a NaN term came by, and how many
operations below it gave a NaN or were flushed. -/
structure Part where
  v : FVal := .fin false 0 0
  idx : Nat := 0xFFFFFFFF
  seen : Bool := false
  nan : Nat := 0
  flushed : Nat := 0
  deriving DecidableEq, Repr, Inhabited

/-- The difference of two elements; BF16's is rounded to FP32 (R165). -/
def termDiff (w : Nat) (x y : FVal) : FVal :=
  let d := fvAdd x (fvNeg y)
  if mSf w = 4 then fv32 d else d

/-- A cell's term of MAC, L1 and L2 from its streamed and its stationary element (R163, R165). -/
def cellTerm (w a t : Nat) : Part :=
  let x := fmtValue (mSf w) a
  let y := fmtValue (mTf w) t
  let v := match mOp w with
    | 0 => if mFp w then fpRange (fvMul x y) else fvMul x y
    | 1 => fvAbs (termDiff w x y)
    | _ => let d := termDiff w x y; if mFp w then fv32 (fvMul d d) else fvMul d d
  { v := v, nan := if v == .nan then 1 else 0 }

/-- A reduction node (R164, R165): exact for integers, FP32 for floating formats. -/
def redNode (w : Nat) (a b : Part) : Part :=
  if mFp w then
    let r := fpAddV a.v b.v
    { v := f32 r.bits, nan := a.nan + b.nan + (if r.nan then 1 else 0), flushed := a.flushed + b.flushed + (if r.flushed then 1 else 0) }
  else { v := fvAdd a.v b.v }

/-- One level of a floating reduction halves its values; which two a node joins is fixed by the arrangement and the repair state `rep`, and
free (R153, R166; log entry 21). -/
def redLevel (w : Nat) (rep : List Nat) (place : Nat) : Nat → List Part → List Part
  | 0, l => l
  | _, [] => []
  | _, [a] => [a]
  | _, [a, b] => [redNode w a b]
  | n + 1, a :: l =>
    let i := Config.mate (mArr w) rep place l.length % l.length
    redNode w a (l.getD i {}) :: redLevel w rep place n (l.eraseIdx i)

/-- Levels until one value is left. -/
def redTree (w : Nat) (rep : List Nat) (place : Nat) : Nat → List Part → Part
  | 0, l => l.headD {}
  | _, [] => {}
  | _, [a] => a
  | n + 1, l => redTree w rep place n (redLevel w rep place l.length l)

/-- The sum of a pass's terms in one column (R153, R154, R164-R166): integers exactly; floating terms tile by tile, then across the tiles. -/
def sumTerms (w : Nat) (rep : List Nat) (ts : List Part) : Part :=
  if mFp w then
    let tiles := chunksOf (tileK w) (ts.length + 1) ts
    redTree w rep 16 8 ((tiles.zip (List.range tiles.length)).map (fun y => redTree w rep y.2 8 y.1))
  else { v := ts.foldl (fun t y => fvAdd t y.v) (.fin false 0 0) }

/-- The value of an empty MAX or MIN column (R167, R306). -/
def emptyCol (w : Nat) : FVal :=
  let lo := mOp w == 3
  match mSf w with
  | 0 => fvOfInt (if lo then -128 else 127)
  | 1 => fvOfInt (if lo then -8 else 7)
  | 2 => .fin lo 448 0
  | _ => .inf lo

/-- A candidate of MAX and MIN (R163, R167, R293): excluded where the stationary element is zero, ranked below every value where it is a NaN. -/
def pickTerm (w k a t : Nat) : Part :=
  if fmtZero (mTf w) t then { v := emptyCol w }
  else if fmtNan (mSf w) a then { v := emptyCol w, seen := true }
  else { v := fmtValue (mSf w) a, idx := k }

/-- The better of two candidates (R167): equal ones go by the lower index. -/
def pickBest (w : Nat) (p q : Part) : Part :=
  let seen := p.seen || q.seen
  if q.idx = 0xFFFFFFFF then { p with seen := seen }
  else if p.idx = 0xFFFFFFFF then { q with seen := seen }
  else
    let better := if mOp w = 3 then fvLt p.v q.v else fvLt q.v p.v
    let worse := if mOp w = 3 then fvLt q.v p.v else fvLt p.v q.v
    if better ∨ (!worse ∧ q.idx < p.idx) then { q with seen := seen } else { p with seen := seen }

/-- One column of a pass: the pairs of streamed and stationary elements from index k0 on. -/
def redColumn (w : Nat) (rep : List Nat) (k0 : Nat) (ps : List (Nat × Nat)) : Part :=
  if mPair w then
    (ps.zip (List.range ps.length)).foldl (fun x y => pickBest w x (pickTerm w (k0 + y.2) y.1.1 y.1.2)) { v := emptyCol w }
  else sumTerms w rep (ps.map (fun y => cellTerm w y.1 y.2))

/-! Accumulators (R160, R164, R165). -/

/-- The sticky overflow bit (R164). -/
def ovfOf (v : Int) : Bool := decide (v < -2147483648 ∨ 2147483647 < v)

/-- A value as an accumulator holds it: the integer, or the FP32 bits. -/
def accHold (w : Nat) (v : FVal) : Int := if mFp w then (fvBits v : Nat) else fvToInt v

/-- The exact value an accumulator holds. -/
def accExact (w : Nat) (x : Acc) : FVal := if mFp w then f32 x.v.toNat else fvOfInt x.v

/-- A fresh accumulator of a mode. -/
def accInit (w : Nat) : Acc := if mPair w then { v := accHold w (emptyCol w), idx := 0xFFFFFFFF, pair := true } else {}

/-- What an accumulator holds, as a part. -/
def accPart (w : Nat) (x : Acc) : Part := { v := accExact w x, idx := x.idx, seen := x.seen }

/-- A part joins an accumulator (R164, R165, R167); answers the operations that were flushed and that gave a NaN, too. -/
def accJoin (w : Nat) (x : Acc) (p : Part) : Acc × Nat × Nat :=
  if mPair w then
    let q := pickBest w (accPart w x) p
    ({ v := accHold w q.v, idx := q.idx, pair := true, seen := q.seen }, 0, 0)
  else if mFp w then
    let r := fpAddV (f32 x.v.toNat) p.v
    ({ x with v := (r.bits : Nat) }, p.flushed + (if r.flushed then 1 else 0), p.nan + (if r.nan then 1 else 0))
  else
    let v := x.v + fvToInt p.v
    ({ x with v := v, ovf := x.ovf || ovfOf v }, 0, 0)

/-- A value leaving the array (R164): its 32 bits and whether it was saturated. Where the sticky bit is set but the exact sum is
back in range the side is free (log entry 28). -/
def accLeave (w : Nat) (x : Acc) : Nat × Bool :=
  if x.pair ∨ mFp w then (unsignedOf 32 x.v, false)
  else if !x.ovf then (unsignedOf 32 x.v, false)
  else
    let high := if ovfOf x.v then decide (0 < x.v) else Config.satHigh x.v
    (if high then 0x7FFFFFFF else 0x80000000, true)

/-- Magnitude of a 32-bit value, integer or FP32: a NaN is larger than every number (R188). -/
def magOf (fp : Bool) (v : Nat) : Nat := if fp then v % 2 ^ 31 else (signedOf 32 v).natAbs

/-- Two-of-four pruning of one group (R188): equal magnitudes favour the lower column. -/
def prune4 (fp : Bool) (g : List Nat) : List Nat :=
  (g.zip (List.range g.length)).map (fun y =>
    let better := (g.zip (List.range g.length)).filter (fun z =>
      decide (magOf fp y.1 < magOf fp z.1 ∨ (magOf fp z.1 = magOf fp y.1 ∧ z.2 < y.2)))
    if better.length < 2 then y.1 else 0)

/-- The bytes of a result row (R167, R188): values, or value and index pairs. -/
def rowBytes (w : Nat) (row : List Acc) : Bytes :=
  if row.any (fun x => x.pair) then row.flatMap (fun x => natLe 4 (accLeave w x).1 ++ natLe 4 x.idx)
  else
    let vs := row.map (fun x => (accLeave w x).1)
    let vs := if mPrune w then (chunksOf 4 vs.length vs).flatMap (prune4 (mFp w)) else vs
    vs.flatMap (natLe 4)

/-- Values of a row that are saturated as they leave. -/
def rowSats (w : Nat) (row : List Acc) : Nat := (row.filter (fun x => (accLeave w x).2)).length

/-- A column of NaN terms only (R306). -/
def nanOnly (x : Acc) : Bool := x.pair && x.idx == 0xFFFFFFFF && x.seen

/-! Physical cells that work wrongly. -/

/-- The logical cell that a physical cell of a tile serves (R150, R184), by the tile's repair word: none where it is out of use. -/
def roleOf (word row col : Nat) : Option (Nat × Nat) :=
  let line := fun (out p : Nat) => if p = 33 then (if out < 33 then some out else none) else if p = out then none else some p
  if bitsOf word 15 14 = 3 then none
  else match line (bitsOf word 13 8) row, line (bitsOf word 5 0) col with
    | some r, some c => some (r, c)
    | _, _ => none

/-- A disturbance in the terms of an arrangement: sub-array, tile row and column, logical cell of the tile. -/
structure Spot where
  sub : Nat := 0
  i : Nat := 0
  j : Nat := 0
  r : Nat := 0
  c : Nat := 0
  held : Bool := false
  place : Nat := 0
  err : Int := 0
  deriving DecidableEq, Repr, Inhabited

/-- What a disturbance does in an arrangement; `words` are the core's tile words. -/
def spotOf (arr : Nat) (words : List Nat) (u : Upset) : Option Spot :=
  match roleOf (words.getD u.tile.val 0) u.row.val u.col.val with
  | none => none
  | some (r, c) =>
    let (sub, i, j) := tilePlace arr u.tile.val
    some { sub := sub, i := i, j := j, r := r, c := c, held := u.held, place := u.place, err := u.err }

/-- A value as a wrong cell gives it: an integer off by the error, or FP32 bits turned. -/
def fvUpset (w : Nat) (v : FVal) (err : Int) : FVal :=
  if mFp w then f32 (fvBits v ^^^ (err.natAbs % 2 ^ 32)) else fvOfInt (fvToInt v + err)

/-- A part with the errors of the given spots. -/
def partUpset (w : Nat) (p : Part) (ss : List Spot) : Part := ss.foldl (fun p x => { p with v := fvUpset w p.v x.err }) p

/-! Stationary blocks and their checks (R169-R172, R179). -/

/-- Element of a row, zero beyond its end (R159). -/
def elemAt (l : List Nat) (i : Nat) : Nat := l.getD i 0

/-- The sum of exact values. -/
def fvSum (l : List FVal) : FVal := l.foldl fvAdd (.fin false 0 0)

/-- The row of a stationary block that a lane of tile row i holds (R158); INT4 keeps two in a cell. -/
def laneK (w : Nat) (x : Spot) : Nat :=
  let l := 32 * x.i + x.r
  if mSf w = 1 then 2 * l + x.place % 2 else if mSf w = 4 then l / 2 else l

/-- One element of a block turned. -/
def blockFlip (w : Nat) (rows : List (List Nat)) (x : Spot) : List (List Nat) :=
  rows.modify (laneK w x) (fun row => row.modify (32 * x.j + x.c) (fun v => v ^^^ (x.err.natAbs % 2 ^ fmtBits (mTf w))))

/-- The block that a load leaves in the bank, with what wrong cells hold. -/
def blockOf (w : Nat) (src : List (List Nat)) (ss : List Spot) : Block :=
  let hs := ss.filter (fun x => x.held)
  { src := src
    held := (hs.filter (fun x => decide (x.r < 32 ∧ x.c < 32))).foldl (blockFlip w) src
    off := (hs.filter (fun x => decide (x.r < 32 ∧ x.c = 32))).map (fun x => (laneK w x, x.j, x.err)) }

/-- Columns of a block. -/
def Block.width (b : Block) : Nat := (b.src.headD []).length

/-- The value of one element of a stationary row. -/
def tVal (w : Nat) (row : List Nat) (n : Nat) : FVal := fmtValue (mTf w) (elemAt row n)

/-- The checksum-column value of a row in tile column j (R179), before any error of its own (log entry 190). -/
def rowSum (w : Nat) (row : List Nat) (j : Nat) : FVal := fvSum (((row.drop (32 * j)).take 32).map (fun v => fmtValue (mTf w) v))

/-- One comparison (R181): none where a compared value is infinite or a NaN, so that it is skipped. -/
abbrev Cmp := Option Bool

/-- Two sums compared exactly (R171, R180). -/
def cmpExact (a b : FVal) : Cmp := if fvFinite a && fvFinite b then some (fvSame a b) else none

/-- A bulk load's comparisons (R171): the column sums and the row sums that the checksum cells form from what the data cells hold, against the
loader's; a wrong checksum cell makes its own differ. -/
def loadCmps (w : Nat) (b : Block) (ss : List Spot) : List Cmp :=
  let tiles := List.range (ceilDiv b.width 32)
  let rows := (b.src.zip b.held).flatMap (fun y => tiles.map (fun j => cmpExact (rowSum w y.1 j) (rowSum w y.2 j)))
  let groups := (chunksOf (tileK w) (b.src.length + 1) b.src).zip (chunksOf (tileK w) (b.src.length + 1) b.held)
  let cols := groups.flatMap (fun y => (List.range b.width).map (fun n =>
    cmpExact (fvSum (y.1.map (fun row => tVal w row n))) (fvSum (y.2.map (fun row => tVal w row n)))))
  let own := (ss.filter (fun x => x.held && decide ((x.r = 32 ∨ x.c = 32) ∧ x.err ≠ 0))).map (fun _ => some false)
  rows ++ cols ++ own

/-- A sum of results against its checksum (R181); q is OD 0x6000.01. -/
def cmpSum (w q : Nat) (rs : List FVal) (chk : FVal) : Cmp :=
  if !mFp w then some (decide ((fvToInt (fvSum rs) - fvToInt chk) % 2 ^ 32 = 0))
  else if !(rs.all fvFinite && fvFinite chk) then none
  else
    let add := fun (a b : FVal) => fv32 (fvAdd a b)
    let c := fv32 chk
    let d := fvAbs (add (rs.foldl add (.fin false 0 0)) (fvNeg c))
    let m := add ((rs.map fvAbs).foldl add (.fin false 0 0)) (fvAbs c)
    match m, d with
    | .fin n x e, .fin _ _ _ => some (!fvLt (fv32 (.fin n x (e - q))) d)
    | _, _ => none

/-- A result against its shadow, value and index (R180). -/
def cmpShadow (w : Nat) (p q : Part) : Cmp :=
  if mFp w && !(fvFinite p.v && fvFinite q.v) then none else some (fvSame p.v q.v && p.idx == q.idx)

/-! One streamed row of a WS or IS pass. -/

/-- The results of a row, column by column, as the cells give them. -/
def passParts (w : Nat) (rep : List Nat) (k0 : Nat) (b : Block) (ss : List Spot) (a : List Nat) : List Part :=
  (List.range b.width).map (fun n =>
    partUpset w (redColumn w rep k0 ((List.range b.held.length).map (fun k => (elemAt a k, elemAt (b.held.getD k []) n))))
      (ss.filter (fun x => decide (x.r < 32 ∧ x.c < 32 ∧ 32 * x.j + x.c = n))))

/-- The checksum of a row in tile column j (R179): the streamed elements by the rows' sums, exactly. -/
def passChk (w : Nat) (b : Block) (ss : List Spot) (a : List Nat) (j : Nat) : FVal :=
  let one := fun (k : Nat) =>
    let off := (b.off.filter (fun y => y.1 == k && y.2.1 == j)).map (fun y => fvOfInt y.2.2)
    fvMul (fmtValue (mSf w) (elemAt a k)) (fvAdd (rowSum w (b.src.getD k []) j) (fvSum off))
  let err := (ss.filter (fun x => decide (x.r < 32 ∧ x.c = 32 ∧ x.j = j))).map (fun x => fvOfInt x.err)
  fvAdd (fvSum ((List.range b.src.length).map one)) (fvSum err)

/-- The comparisons of a row (R179, R180): per group of 32 columns its checksum for MAC, its shadowed column (p mod 32) for the others. -/
def passCmps (w : Nat) (rep : List Nat) (q p k0 : Nat) (b : Block) (ss : List Spot) (a : List Nat) (rs : List Part) : List Cmp :=
  (List.range (ceilDiv b.width 32)).filterMap (fun j =>
    if mOp w = 0 then some (cmpSum w q (((rs.drop (32 * j)).take 32).map (fun x => x.v)) (passChk w b ss a j))
    else
      let n := 32 * j + p % 32
      if n < b.width then
        let sh := redColumn w rep k0 ((List.range b.src.length).map (fun k => (elemAt a k, elemAt (b.src.getD k []) n)))
        some (cmpShadow w (rs.getD n {}) (partUpset w sh (ss.filter (fun x => decide (x.r < 32 ∧ x.c = 32 ∧ x.j = j)))))
      else none)

/-! An output-stationary block (R157, R162, R179, R180). -/

/-- The accumulator of cell (m, n) of a block: K streams in time (R157); `as_` holds the streamed rows, `ts` the k rows of the column operand.
Answers the operations flushed and those that gave a NaN, too. -/
def osCell (w : Nat) (a : List Nat) (ts : List (List Nat)) (n : Nat) : Acc × Nat × Nat :=
  let one := fun (k : Nat) => (elemAt a k, elemAt (ts.getD k []) n)
  ((List.range (ceilDiv ts.length (stepK w))).foldl (fun o i =>
    let ks := ((List.range (stepK w)).map (fun x => i * stepK w + x)).filter (fun k => decide (k < ts.length))
    let p := if mPair w then ks.foldl (fun x k => pickBest w x (pickTerm w k (one k).1 (one k).2)) { v := emptyCol w }
      else match ks.map (fun k => cellTerm w (one k).1 (one k).2) with
        | [x] => x
        | l => { v := fvSum (l.map (fun x => x.v)) }
    let r := accJoin w o.1 p
    (r.1, o.2.1 + r.2.1, o.2.2 + r.2.2)) (accInit w, 0, 0))

/-- The logical column in a tile of a physical one (R158). -/
def osCol (w c : Nat) : Nat := if mSf w = 4 then c / 2 else c

/-- An accumulator with the errors of the given spots. -/
def accUpset (w : Nat) (x : Acc) (ss : List Spot) : Acc := ss.foldl (fun x y => { x with v := accHold w (fvUpset w (accExact w x) y.err) }) x

/-- The spots of a logical cell of a tile. -/
def spotsAt (ss : List Spot) (i j r c : Nat) (w : Nat) : List Spot :=
  ss.filter (fun x => decide (x.i = i ∧ x.j = j ∧ x.r = r ∧ (if x.c < 32 then osCol w x.c else 32) = c))

/-- The rows of a block with what wrong cells add. -/
def osUpset (w : Nat) (ss : List Spot) (rows : List (List Acc)) : List (List Acc) :=
  (rows.zip (List.range rows.length)).map (fun y => (y.1.zip (List.range y.1.length)).map (fun z =>
    accUpset w z.1 (spotsAt ss (y.2 / 32) (z.2 / tileC w) (y.2 % 32) (z.2 % tileC w) w)))

/-- The comparisons of a MAC block at its drain, tile by tile (R179): every row against a × (Σ over columns of b), every column against
(Σ over lanes of a) × b, and the checksum row's sum against cell (32, 32). -/
def osMacCmps (w q : Nat) (ss : List Spot) (as_ ts : List (List Nat)) (rows : List (List Acc)) : List Cmp :=
  let width := (rows.headD []).length
  let aVal := fun (m k : Nat) => fmtValue (mSf w) (elemAt (as_.getD m []) k)
  let ks := List.range ts.length
  let at_ := fun (m n : Nat) => accExact w ((rows.getD m []).getD n {})
  let err := fun (i j r c : Nat) => fvSum ((spotsAt ss i j r c w).map (fun x => fvOfInt x.err))
  (List.range (ceilDiv rows.length 32)).flatMap (fun i => (List.range (ceilDiv width (tileC w))).flatMap (fun j =>
    let ms := (List.range 32).filterMap (fun r => if 32 * i + r < rows.length then some (32 * i + r) else none)
    let ns := (List.range (tileC w)).filterMap (fun c => if tileC w * j + c < width then some (tileC w * j + c) else none)
    let bSum := fun (k : Nat) => fvSum (ns.map (fun n => tVal w (ts.getD k []) n))
    let aSum := fun (k : Nat) => fvSum (ms.map (fun m => aVal m k))
    let rowChk := fun (m : Nat) => fvAdd (fvSum (ks.map (fun k => fvMul (aVal m k) (bSum k)))) (err i j (m % 32) 32)
    let colChk := fun (n : Nat) => fvAdd (fvSum (ks.map (fun k => fvMul (aSum k) (tVal w (ts.getD k []) n)))) (err i j 32 (n % tileC w))
    let corner := fvAdd (fvSum (ks.map (fun k => fvMul (aSum k) (bSum k)))) (err i j 32 32)
    ms.map (fun m => cmpSum w q (ns.map (fun n => at_ m n)) (rowChk m)) ++
    ns.map (fun n => cmpSum w q (ms.map (fun m => at_ m n)) (colChk n)) ++
    [cmpSum w q (ns.map colChk) corner]))

/-- The comparisons of a block of another operation (R180): the shadowed column and the shadowed row of every tile; `clean` holds what the shadow
lines compute. -/
def osShadowCmps (w p : Nat) (ss : List Spot) (clean rows : List (List Acc)) : List Cmp :=
  let width := (rows.headD []).length
  let one := fun (m n : Nat) (sh : List Spot) =>
    cmpShadow w (accPart w ((rows.getD m []).getD n {})) (accPart w (accUpset w ((clean.getD m []).getD n {}) sh))
  (List.range (ceilDiv rows.length 32)).flatMap (fun i => (List.range (ceilDiv width (tileC w))).flatMap (fun j =>
    let n := tileC w * j + osCol w (p % 32)
    let m := 32 * i + p % 32
    (if n < width then (List.range 32).filterMap (fun r =>
        if 32 * i + r < rows.length then some (one (32 * i + r) n (spotsAt ss i j r 32 w)) else none) else []) ++
    (if m < rows.length then (List.range (tileC w)).filterMap (fun c =>
        if tileC w * j + c < width then some (one m (tileC w * j + c) (spotsAt ss i j 32 c w)) else none) else [])))

/-- The comparisons of a block at its drain (R179, R180). -/
def osCmps (w q p : Nat) (ss : List Spot) (as_ ts : List (List Nat)) (clean rows : List (List Acc)) : List Cmp :=
  if mOp w = 0 then osMacCmps w q ss as_ ts rows else osShadowCmps w p ss clean rows

/-- A comparison failed. -/
def cmpsFail (l : List Cmp) : Bool := l.contains (some false)

/-- Comparisons skipped (R181). -/
def cmpsSkipped (l : List Cmp) : Nat := (l.filter (fun x => x.isNone)).length

/-- Cell operations of one streamed row whose multiplier does not switch (R168). -/
def rowGated (w : Nat) (n : Nat) (a : List Nat) (ts : List (List Nat)) : Nat :=
  if mOp w ≠ 0 then 0
  else ((List.range ts.length).map (fun k =>
    if fmtZero (mSf w) (elemAt a k) then n
    else ((List.range n).filter (fun i => fmtZero (mTf w) (elemAt (ts.getD k []) i))).length)).foldl (· + ·) 0

end Sys2Proof.Machine
end

