-- ==== Sys2Proof/Machine/Array.lean ====
section
/-! DEFINITION. The multiply-accumulate array at work: AMM and ADRAIN (R203), loads, passes and blocks (R159-R172), checks, verdicts and replays
(R179-R182), chunks and merges (R206-R210). -/

namespace Sys2Proof.Machine

/-! AMM and ADRAIN at issue (R156, R160, R198, R203, R206, R208, R232). -/

/-- Lines per core cycle of a part that moves rows of `row` bytes (R231). -/
def partLines (row : Nat) : Nat := Nat.max 1 (Nat.min 4 (row / 128))

/-- A descriptor used by a locked part (R232). -/
def lockedOk (d : Desc) (x : Win) (lines : Nat) : Bool :=
  d.base % 128 == 0 && d.stride % 128 == 0 && decide (lines ≤ x.m)

/-- The operands of an AMM are of the right KIND and within their limits. -/
def State.ammOk (s : State) (c : Fin 16) (p w : Nat) (ta tw td : Desc) : Bool :=
  let k := (s.cores[c]).pad
  (ta.kind == 1 || ta.kind == 2) && tw.kind == 1 && !tw.cmp && !td.cmp &&
  (if mStore w then td.kind == 5 else td.kind == 1 || td.kind == 4) &&
  (ta.kind != 2 || (ta.irecOk && !ta.cmp)) && (!ta.cmp || cmpFmt (mSf w)) &&
  (td.kind != 4 || (td.irecOk && (td.fmt == 5 || td.fmt == 6) && bitsOf td.aux 58 48 == 0 && td.pbase % 128 == 0 &&
    decide (2 ≤ td.pslots ∧ partLines td.row ≤ (k.win p td.pwin).m))) &&
  lockedOk ta (k.win p ta.win) 1 && lockedOk tw (k.win p tw.win) 1 &&
  (td.kind == 5 || lockedOk td (k.win p td.win) (partLines td.row))

/-- Store AMMs not yet drained when a further one is issued (R208). -/
def Core.storeOpen (k : Core) : List AJob :=
  let q := k.seq.arrayQ
  let own := (q.reverse.takeWhile (fun j => !j.isDrain)).reverse.filter (fun j => j.td.kind == 5)
  let now := (k.arr.running.map (fun u => u.chunk)).toList.filter (fun x => x.store && !x.again)
  if q.any (fun j => j.isDrain) then own else k.arr.storeJobs ++ now.map (fun x => x.job) ++ own

/-- AMM (R203). -/
def execAmm (c : Fin 16) (w : BitVec 56) (s : State) : Out :=
  .next (s.issue c 0x41 w { a := 63, b := 31, d := 7 } (fun s x =>
    let k := s.cores[c]
    let q := k.seq
    let v := (q.rd x.b).toNat
    let ta := q.td (x.a / 8)
    let tw := q.td (x.a % 8)
    let td := q.td x.d
    let j : AJob := { ta := ta, tw := tw, td := td, m := bitsOf v 31 0, k := bitsOf v 47 32, n := bitsOf v 63 48
                      mode := q.mode, pc := x.pc, word := w.toNat, run := x.r }
    if 4 ≤ q.arrayQ.length then .stay s
    else if j.m = 0 then .next s
    else if !q.modeValid then .exc s 4 0
    else if mRipple q.mode ∧ x.r.part = 0 then .exc (s.countRaise (odCore 0x6100 c 12) 0x6007 c.val) 4 0
    else if modeBad q.mode ∨ (mStore q.mode ∧ storeRowsOf q.mode < j.m) then .exc (s.countRaise (odCore 0x6100 c 12) 0x6008 c.val) 4 0
    else if mStore q.mode ≠ (td.kind == 5) then .exc s 4 0
    else if j.k = 0 ∨ j.n = 0 ∨ !s.ammOk c x.r.part q.mode ta tw td then .exc s 2 0
    else if td.kind = 4 ∧ (k.pad.win x.r.part td.pwin).size < td.pbase + 4096 * td.pslots * td.row then .exc s 3 0
    else if td.kind = 5 ∧ (16 ≤ k.storeOpen.length ∨ 4096 < (k.storeOpen.map (·.m)).foldl (· + ·) j.m) then .exc s 2 0
    else .next (s.modSeq c (fun q => { q with arrayQ := q.arrayQ ++ [j] }))))

/-- ADRAIN (R203): rows sa[47:32] on, sa[31:0] of them; td LINEAR or MERGE. Rows beyond those the store holds under the mode word are outside its
limits (R160). -/
def execAdrain (c : Fin 16) (w : BitVec 56) (s : State) : Out :=
  .next (s.issue c 0x42 w { b := 31, d := 7 } (fun s x =>
    let k := s.cores[c]
    let q := k.seq
    let v := (q.rd x.b).toNat
    let td := q.td x.d
    let j : AJob := { isDrain := true, td := td, m := bitsOf v 31 0, first := bitsOf v 47 32, mode := q.mode, pc := x.pc
                      word := w.toNat, run := x.r }
    if 4 ≤ q.arrayQ.length then .stay s
    else if (td.kind ≠ 1 ∧ td.kind ≠ 4) ∨ td.cmp ∨ (td.kind = 4 ∧ (!td.irecOk ∨ (td.fmt ≠ 5 ∧ td.fmt ≠ 6))) ∨
        storeRowsOf q.mode < j.first + j.m ∨ !lockedOk td (k.pad.win x.r.part td.win) (partLines td.row) then .exc s 2 0
    else .next (s.modSeq c (fun q => { q with arrayQ := q.arrayQ ++ [j] }))))

/-! What a pass reads. -/

/-- The header of the segment a gathered stream reads, where its index window is a segment ring, agrees with its body (R210). -/
def State.segmentOk (s : State) (c : Fin 16) (j : AJob) : Bool :=
  let k := (s.cores[c]).pad
  let x := k.win j.run.part j.ta.iwin
  if j.ta.kind ≠ 2 ∨ 2 ≤ j.ta.isel ∨ !bitAt x.attr 6 ∨ j.ta.ibase % 32800 ≠ 32 then true
  else
    let h := k.bytes x (j.ta.ibase - 32) 32
    let n := ceilDiv (fieldLe h 4 2 * 8) 32 * 32
    crc32c (k.bytes x j.ta.ibase n) == fieldLe h 20 4

/-- Read streamed rows row0 on of a chunk (R203, R205, R211). -/
def State.streamRows (s : State) (c : Fin 16) (j : AJob) (row0 rows : Nat) (e : Finds) : State × Except Nat (List Bytes) :=
  if !s.segmentOk c j then (s, .error 6)
  else if j.ta.cmp then
    match s.unpackTable c j.run j.pc { j.ta with ctrl := setBits j.ta.ctrl 7 4 (mSf j.mode) } (row0 + rows) j.ta.row e with
    | (s, .error x) => (s, .error x)
    | (s, .ok l) => (s, .ok (l.drop row0))
  else s.rowsRead c j.run j.pc j.ta j.ta.row e rows row0

/-- The part of a stationary row that a column group takes: `n` columns from `n0`, zeros beyond the row's end (R159). -/
def rowCols (w n0 n : Nat) (b : Bytes) : List Nat :=
  let l := elems (mTf w) b
  (List.range n).map (fun i => elemAt l (n0 + i))

/-- Column group and reduction block of a WS or IS pass (R159): groups in order, the K passes of each ascending. -/
def Chunk.group (x : Chunk) (pass : Nat) : Nat := pass / ceilDiv x.job.k (passK x.job.mode)
/-- Reduction block of a pass. -/
def Chunk.kb (x : Chunk) (pass : Nat) : Nat := pass % ceilDiv x.job.k (passK x.job.mode)

/-- First column and columns of a group. -/
def Chunk.cols (x : Chunk) (g : Nat) : Nat × Nat :=
  let w := x.job.mode
  (g * passC w, Nat.min (passC w) (x.job.n - g * passC w))

/-- The sub-array that runs a pass: the split arrangements take the groups, or the output-stationary blocks, in turn (R152; log entry 165). -/
def Chunk.sub (x : Chunk) (pass : Nat) : Nat :=
  (if mFlow x.job.mode = 1 then pass else x.group pass) % arrSubs (mArr x.job.mode)

/-- The stationary rows of a pass, as their elements (R157-R159, R170, R172): the state, the exception or the block, and the words read. -/
def State.blockRows (s : State) (c : Fin 16) (x : Chunk) (pass : Nat) (e : Finds) : State × Except Nat (List (List Nat) × Nat) :=
  let j := x.job
  let w := j.mode
  let k0 := x.kb pass * passK w
  let kn := Nat.min (passK w) (j.k - k0)
  let cs := x.cols (x.group pass)
  match s.rowsRead c j.run j.pc j.tw j.tw.row e kn k0 with
  | (s, .error y) => (s, .error y)
  | (s, .ok rows) => (s, .ok (rows.map (rowCols w cs.1 cs.2), kn * j.tw.words j.tw.row))

/-! The accumulator store (R160). -/

/-- The store row of a result row for a column group: the row itself while the store holds it, else free (log entry 33). -/
def storeRowAt (w row g : Nat) : Nat :=
  if row < storeRowsOf w ∧ g = 0 then row else Config.storeSpill (mArr w) row g % storeRowsOf w

/-- The position of an accumulator of a store row. -/
def storePos (w row g n : Nat) : Nat := storeRowAt w row g * (arrDims (mArr w)).2 * accWide w + n * accWide w

/-- Accumulators of a store row: `n` of a column group; an empty position is a fresh accumulator of the mode. -/
def Arr.storeRow (x : Arr) (w row g n : Nat) : List Acc :=
  (List.range n).map (fun i =>
    let y := Sparse.get (fun _ => ({} : Acc)) x.store (storePos w row g i)
    if y = {} then accInit w else y)

/-- Put accumulators of a store row. -/
def Arr.putRow (x : Arr) (w row g : Nat) (l : List Acc) : Arr :=
  let st := (l.zip (List.range l.length)).foldl (fun m y => Sparse.put (fun _ => ({} : Acc)) m (storePos w row g y.2) y.1) x.store
  { x with store := st }

/-- Zero `n` accumulators of a store row. -/
def Arr.zeroRow (x : Arr) (w row g n : Nat) : Arr := x.putRow w row g (List.replicate n {})

/-- Zero the store rows of a job (R208). -/
def Arr.zeroJob (x : Arr) (j : AJob) : Arr :=
  (List.range j.m).foldl (fun x r => (List.range (ceilDiv j.n (passC j.mode))).foldl (fun x g =>
    x.zeroRow j.mode (j.td.base + r) g (Nat.min (passC j.mode) (j.n - g * passC j.mode))) x) x

/-! Results that leave (R160, R161, R206, R209). -/

/-- Write rows one after another at `base + i · step` of a local window. -/
def State.putRows (s : State) (c : Fin 16) (p w base step : Nat) : Nat → List Bytes → State × Option Nat
  | _, [] => (s, none)
  | i, b :: bs => match s.padWrite c p w (base + i * step) b with
    | (s, some x) => (s, some x.exc)
    | (s, none) => State.putRows s c p w base step (i + 1) bs

/-- Deliver columns n0 on of result rows r0 on of a chunk: to the store, to the LINEAR rows, or into its partial slot; what lies beyond the
destination's ROW is not written. -/
def State.deliver (s : State) (c : Fin 16) (x : Chunk) (r0 g n0 : Nat) (rows : List (List Acc)) : State × Option Nat :=
  let j := x.job
  let w := j.mode
  if j.td.kind = 5 then
    (s.modArr c (fun a => (rows.zip (List.range rows.length)).foldl (fun a y => a.putRow w (j.td.base + r0 + y.2) g y.1) a), none)
  else
    let s := s.bump (odCore 0x6100 c 9) ((rows.map (rowSats w)).foldl (· + ·) 0)
    let o := 4 * n0 * accWide w
    let bs := rows.map (fun r => (rowBytes w r).take (j.td.row - o))
    if j.td.row ≤ o then (s, none)
    else if j.td.kind = 1 then s.putRows c j.run.part j.td.win (j.td.base + (x.row0 + r0) * j.td.stride + o) j.td.stride 0 bs
    else s.putRows c j.run.part j.td.pwin (j.td.pbase + (4096 * x.slot + r0) * j.td.row + o) j.td.row 0 bs

/-- Count what operations of results gave (R165, R306): flushed and NaN nodes, and columns of NaN terms only. -/
def State.countOps (s : State) (c : Fin 16) (flushed nan only : Nat) : State :=
  ((s.bump (odCore 0x6100 c 13) flushed).bump (odCore 0x6100 c 10) nan).bump (odCore 0x6103 c 8) only

/-- Count the comparisons of a pass or a drain: those skipped in OD 0x6100.07; a failed one marks the chunk with its sub-array (R181, R182). -/
def State.judge (s : State) (c : Fin 16) (l : List Cmp) : State × Bool := (s.bump (odCore 0x6100 c 7) (cmpsSkipped l), cmpsFail l)

/-- The tile words of a core (OD 0x6101), which fix the order of its sums (R166) and the roles of its cells (R184). -/
def State.repairKey (s : State) (c : Fin 16) : List Nat := (List.range 16).map (fun i => s.num (odCore 0x6101 c (i + 1)))

/-- Disturbances in an arrangement and a sub-array. -/
def State.spots (s : State) (c : Fin 16) (w sub : Nat) (ups : List Upset) : List Spot :=
  (ups.filterMap (spotOf (mArr w) (s.repairKey c))).filter (fun x => x.sub == sub)

/-! The array's progress. -/

/-- Rows of a job's next chunk: all of a store job's, at most 4,096 else (R206, R208). -/
def AJob.nextRows (j : AJob) : Nat := if j.td.kind = 5 then j.m - j.done else Nat.min 4096 (j.m - j.done)

/-- The chunk in work has taken its last row: it waits for its verdict; a store chunk grows (R181, R206, R208). -/
def State.chunkEnd (s : State) (c : Fin 16) (x : Chunk) : State :=
  (s.modArr c (fun a =>
    let a := { a with running := none, storeJobs := if x.store && !x.again then a.storeJobs ++ [x.job] else a.storeJobs }
    if x.store ∧ a.pending.any (fun y => y.store) then
      { a with pending := a.pending.map (fun y => if y.store then
          { y with rows := y.rows + x.rows, bad := y.bad ++ x.bad, failed := y.failed || x.failed } else y) }
    else { a with pending := a.pending ++ [x] })).dropGets c x.job.run x.job.pc

/-- The results of one pass over its streamed rows: the accumulators of the column group, what the operations counted, and the comparisons. -/
def passRows (w : Nat) (rep : List Nat) (q p k0 : Nat) (b : Block) (ss : List Spot) (as_ : List (List Nat)) (accs : List (List Acc)) :
    List (List Acc) × Nat × Nat × List Cmp :=
  let one := fun (y : (List Nat × List Acc) × Nat) =>
    let mine := ss.filter (fun x => !x.held && x.place == y.2)
    let ps := passParts w rep k0 b mine y.1.1
    ((y.1.2.zip ps).map (fun z => accJoin w z.1 z.2), passCmps w rep q p k0 b mine y.1.1 ps)
  let out := ((as_.zip accs).zip (List.range accs.length)).map one
  let flat := out.flatMap (fun o => o.1)
  (out.map (fun o => o.1.map (fun z => z.1)), (flat.map (fun z => z.2.1)).foldl (· + ·) 0,
    (flat.map (fun z => z.2.2)).foldl (· + ·) 0, out.flatMap (fun o => o.2))

/-- The accumulators a column group starts from: the store's for DEST 1, else fresh ones (R159, R160). -/
def State.groupStart (s : State) (c : Fin 16) (x : Chunk) (g : Nat) : List (List Acc) :=
  let w := x.job.mode
  let n := (x.cols g).2
  if x.job.td.kind = 5 then (List.range x.rows).map (fun r => (s.cores[c]).arr.storeRow w (x.job.td.base + x.row0 + r) g n)
  else List.replicate x.rows (List.replicate n (accInit w))

/-- The pass in work has its block in the bank (R169): it streams all its rows, and with the last K pass of a column group that group's results
leave. After the last pass the chunk is at its end. -/
def State.passGo (s : State) (c : Fin 16) (u : Running) (blk : Block) (ss : List Spot) (e : Finds) : State :=
  let x := u.chunk
  let j := x.job
  let w := j.mode
  let sub := x.sub u.pass
  let g := x.group u.pass
  let a := (s.cores[c]).arr
  let bank := if bitAt a.sel sub then 0 else 1
  let s := s.modArr c (fun a => { a with
    banks := (a.banks.filter (fun y => y.1 != 2 * sub + bank)) ++ [(2 * sub + bank, blk)]
    sel := if bitAt a.sel sub then clearBit a.sel sub else setBit a.sel sub
    passCount := (a.passCount + 1) % 32 })
  match s.streamRows c j x.row0 x.rows e with
  | (s, .error y) => s.exceptRun c j.run y j.pc
  | (s, .ok rows) =>
    let k0 := x.kb u.pass * passK w
    let as_ := rows.map (fun b => (List.range blk.held.length).map (fun k => elemAt (elems (mSf w) b) (k0 + k)))
    let start := if x.kb u.pass = 0 then s.groupStart c x g else u.accs
    let (accs, fl, nan, cmps) := passRows w (s.repairKey c) (s.num (od 0x6000 1)) a.passCount k0 blk ss as_ start
    let (s, bad) := s.judge c cmps
    let x := if bad then { x with bad := x.bad ++ [sub] } else x
    let s := s.modArr c (fun a => { a with
      cellOps := a.cellOps + as_.length * blk.held.length * blk.width
      gated := a.gated + (as_.map (fun r => rowGated w blk.width r blk.held)).foldl (· + ·) 0 })
    let last := x.kb u.pass + 1 == ceilDiv j.k (passK w)
    let only := if last then (accs.flatten.filter nanOnly).length else 0
    let s := s.countOps c fl nan only
    let u := { u with chunk := x, pass := u.pass + 1, loading := false, retried := false, accs := if last then [] else accs }
    match (if last then s.deliver c x 0 g (x.cols g).1 accs else (s, none)) with
    | (s, some y) => s.exceptRun c j.run y j.pc
    | (s, none) =>
      if passCount w x.rows j.k j.n ≤ u.pass then s.chunkEnd c x else s.modArr c (fun a => { a with running := some u })

/-- Both banks of a sub-array are invalid: the next pass must bulk-load (R169, R174, R217). -/
def Arr.mustBulk (a : Arr) (sub : Nat) : Bool := !a.banks.any (fun y => y.1 / 2 == sub)

/-- An output-stationary block streams K (R157, R159, R162): its rows fill an accumulator set, and its comparisons wait for the drain. -/
def State.osBlock (s : State) (c : Fin 16) (u : Running) (ups : List Upset) (e : Finds) : State :=
  let x := u.chunk
  let j := x.job
  let w := j.mode
  let nb := ceilDiv j.n (passC w)
  let bm := u.pass / nb
  let bn := u.pass % nb
  let rows := Nat.min (passR w) (x.rows - bm * passR w)
  let cs := x.cols bn
  match s.rowsRead c j.run j.pc j.tw j.tw.row e j.k 0 with
  | (s, .error y) => s.exceptRun c j.run y j.pc
  | (s, .ok tb) =>
    match s.streamRows c j (x.row0 + bm * passR w) rows (findsAfter e (j.k * j.tw.words j.tw.row)) with
    | (s, .error y) => s.exceptRun c j.run y j.pc
    | (s, .ok ab) =>
      let ts := tb.map (rowCols w cs.1 cs.2)
      let as_ := ab.map (fun b => (List.range j.k).map (elemAt (elems (mSf w) b)))
      let out := as_.map (fun a => (List.range cs.2).map (osCell w a ts))
      let clean := out.map (fun r => r.map (fun z => z.1))
      let flat := out.flatten
      let ss := (s.spots c w (x.sub u.pass) ups).filter (fun y => !y.held)
      let res := osUpset w ss clean
      let p := (s.cores[c]).arr.passCount
      let (s, bad) := s.judge c (osCmps w (s.num (od 0x6000 1)) p ss as_ ts clean res)
      let s := s.countOps c ((flat.map (fun z => z.2.1)).foldl (· + ·) 0) ((flat.map (fun z => z.2.2)).foldl (· + ·) 0)
        (res.flatten.filter nanOnly).length
      s.modArr c (fun a => { a with
        passCount := (a.passCount + 1) % 32
        cellOps := a.cellOps + as_.length * ts.length * cs.2
        gated := a.gated + (as_.map (fun r => rowGated w cs.2 r ts)).foldl (· + ·) 0
        running := some { u with
          chunk := if bad then { x with bad := x.bad ++ [x.sub u.pass] } else x
          pass := u.pass + 1
          sets := u.sets ++ [{ bm := bm, bn := bn, rows := res, bad := bad }] } })

/-- The pass in work begins (R159): OS fills a free accumulator set, WS and IS wait for their load. -/
def State.passBegin (s : State) (c : Fin 16) (u : Running) (ups : List Upset) (e : Finds) : State :=
  if mFlow u.chunk.job.mode = 1 then
    if u.sets.length < 2 then s.osBlock c u ups e else s
  else s.modArr c (fun x => { x with running := some { u with loading := true } })

/-- The mode's core numbers as an owner map: every position is the issuing core. -/
def ownMap (c : Nat) : Nat := (List.range 16).foldl (fun a i => a + c * 16 ^ i) 0

/-- The drain at the front of the array queue (R203): its rows leave the store and are zeroed. -/
def State.drain (s : State) (c : Fin 16) (j : AJob) (e : Finds) : State :=
  let s := s.modSeq c (fun q => { q with arrayQ := q.arrayQ.drop 1 })
  let w := j.mode
  let n := j.td.row / (4 * accWide w)
  let gs := (List.range (ceilDiv n (passC w))).map (fun g => (g, Nat.min (passC w) (n - g * passC w)))
  let rows := (List.range j.m).map (fun i => gs.flatMap (fun y => (List.range y.2).map (fun i' =>
    Sparse.get (fun _ => ({} : Acc)) (s.cores[c]).arr.store (storePos w (j.first + i) y.1 i'))))
  let s := s.bump (odCore 0x6100 c 9) ((rows.map (rowSats w)).foldl (· + ·) 0)
  let bs := rows.map (fun r => (rowBytes w r).take j.td.row)
  let td := { j.td with aux := ownMap c.val }
  let op := if j.td.kind = 4 then some (if j.td.fmt = 5 then AtomOp.addInt32 else AtomOp.addFp32) else none
  match s.rowsWrite c j.run j.pc td op e 0 bs with
  | (s, some x) => s.exceptRun c j.run x j.pc
  | (s, none) =>
    (s.modArr c (fun x => { (List.range j.m).foldl (fun x i => gs.foldl (fun x y => x.zeroRow w (j.first + i) y.1 y.2) x) x with
      storeJobs := [] })).closeIfFree c

/-- A conflict between locked parts (R233; log entry 193). -/
def State.conflict (s : State) (c : Fin 16) (j : AJob) : State :=
  (s.countRaise (odCore 0x7100 c 9) 0x7003 c.val).exceptRun c j.run 9 j.pc

/-- Chunks that hold a partial slot (R206). -/
def Arr.slotsHeld (x : Arr) : Nat := ((x.replays ++ x.pending ++ x.merges).filter (fun y => y.job.td.kind == 4)).length

/-- Work of another task is still in the array (R217). -/
def Arr.foreign (x : Arr) (r : TaskRun) : Bool := (x.replays ++ x.pending ++ x.merges).any (fun y => y.job.run != r)

/-- The remote rows that the next pass of a chunk streams have come; what has not been asked for is asked for now (R199, R205). -/
def State.chunkReady (s : State) (c : Fin 16) (x : Chunk) : State × Bool :=
  s.farReady c x.job.run x.job.pc x.job.ta x.job.ta.row x.row0 x.rows

/-- A chunk comes into work (R159, R169): a change of arrangement invalidates both banks. -/
def State.chunkBegin (s : State) (c : Fin 16) (x : Chunk) (ups : List Upset) (e : Finds) : State :=
  let w := x.job.mode
  let s := if (s.cores[c]).arr.arrangement = some (mArr w) then s
    else s.modArr c (fun a => { a with arrangement := some (mArr w), banks := [] })
  s.passBegin c { chunk := x } ups e

/-- The next chunk of a job (R206), and what of the job is left; a MERGE chunk takes the next partial slot. -/
def State.chunkOf (s : State) (c : Fin 16) (j : AJob) : State × Chunk :=
  let rows := j.nextRows
  let slot := (s.cores[c]).arr.nextSlot % Nat.max 1 j.td.pslots
  let rest := if j.m ≤ j.done + rows then none else some { j with done := j.done + rows }
  (s.modArr c (fun a => { a with cur := rest, nextSlot := if j.td.kind = 4 then slot + 1 else a.nextSlot }),
    { job := { j with done := 0 }, row0 := j.done, rows := rows, slot := slot, store := j.td.kind == 5 })

/-- The job whose next chunk comes: the one in work, else the front of the queue, which then leaves it (R205). -/
def State.jobNext (s : State) (c : Fin 16) : Option (AJob × State) :=
  match (s.cores[c]).arr.cur with
  | some j => some (j, s)
  | none => match (s.seqOf c).arrayQ with
    | [] => none
    | j :: q => some (j, s.modSeq c (fun x => { x with arrayQ := q }))

/-- Begin the next chunk of the array queue, or its drain (R203, R205, R206): a drain waits for the store chunk's verdict (R208); an AMM for a
free partial slot, for another task's work (R217) and for the remote rows it streams. -/
def State.jobBegin (s : State) (c : Fin 16) (conflict : Bool) (ups : List Upset) (e : Finds) : State :=
  match s.jobNext c with
  | none => s
  | some (j, s') =>
    let a := (s.cores[c]).arr
    if a.foreign j.run then s
    else if j.isDrain then
      if a.pending.any (fun y => y.store) then s
      else if conflict then s.conflict c j
      else s.drain c j e
    else if j.td.kind = 4 ∧ j.td.pslots ≤ a.slotsHeld then s
    else if conflict then s.conflict c j
    else
      let (s', x) := s'.chunkOf c j
      match s.chunkReady c x with
      | (s, false) => s
      | (_, true) => s'.chunkBegin c x ups e

/-- ARRAY_PASS_START (R159, R205, R206): the next pass of the chunk in work; else the next chunk to replay, then the one a replay interrupted
(R182), then the next of the queue. `ecc` and `ups` are what an output-stationary block, or a drain, finds. -/
def execArrayPassStart (c : Fin 16) (ecc : Finds) (conflict : Bool) (ups : List Upset) (s : State) : Out :=
  .next (s.clocked (fun s =>
  let a := (s.cores[c]).arr
  match a.running with
    | some u =>
      if u.loading ∨ passCount u.chunk.job.mode u.chunk.rows u.chunk.job.k u.chunk.job.n ≤ u.pass then s
      else if conflict then s.conflict c u.chunk.job
      else s.passBegin c u ups ecc
    | none =>
      match a.replays with
      | x :: xs =>
        if conflict then s.conflict c x.job
        else match s.chunkReady c x with
          | (s, false) => s
          | (s, true) => (s.modArr c (fun a => { a with replays := xs })).chunkBegin c x ups ecc
      | [] => match a.held with
        | some u =>
          let s := s.modArr c (fun a => { a with held := none, banks := [], arrangement := some (mArr u.chunk.job.mode), running := some u })
          if u.loading ∨ passCount u.chunk.job.mode u.chunk.rows u.chunk.job.k u.chunk.job.n ≤ u.pass then s
          else if conflict then s.conflict c u.chunk.job
          else s.passBegin c u ups ecc
        | none => s.jobBegin c conflict ups ecc))

/-- A replay has failed (R171, R182): counted, EV 0x6002, a targeted test of the gang's tiles, ARRAY_FAULT. -/
def State.arrayFault (s : State) (c : Fin 16) (j : AJob) (subs : List Nat) : State :=
  let s := s.countRaise (odCore 0x6100 c 6) 0x6002 c.val
  (s.askTiles c (subs.flatMap (tilesOf (mArr j.mode)))).exceptRun c j.run 5 j.pc

/-- BULK_LOAD (R170, R171): the block comes in through the input lanes, and the checksum cells compare what the data cells hold with the loader's
sums; a load whose sums differ is repeated once, and a second difference ends as a failed replay. `ecc` is what the reads of the block and
then of the streamed rows find, `ups` what the cells do wrongly. -/
def execBulkLoad (c : Fin 16) (ecc : Finds) (ups : List Upset) (s : State) : Out :=
  .next (s.clocked (fun s =>
  let a := (s.cores[c]).arr
  match a.running with
    | none => s
    | some u =>
      let j := u.chunk.job
      let sub := u.chunk.sub u.pass
      if !u.loading ∨ (mRipple j.mode ∧ !a.mustBulk sub) then s
      else
        match s.blockRows c u.chunk u.pass ecc with
        | (s, .error y) => s.exceptRun c j.run y j.pc
        | (s, .ok (src, words)) =>
          let ss := s.spots c j.mode sub ups
          let blk := blockOf j.mode src ss
          let (s, bad) := s.judge c (loadCmps j.mode blk ss)
          if !bad then s.passGo c u blk ss (findsAfter ecc words)
          else
            let s := s.bump (odCore 0x6100 c 8)
            if !u.retried then s.modArr c (fun x => { x with running := some { u with retried := true } })
            else (s.raise 0x6003 c.val).arrayFault c j [sub]))

/-- RIPPLE_LOAD (R172): only where the mode asks for it and a bank of the sub-array is valid (R169, R217); the cells are not read back. -/
def execRippleLoad (c : Fin 16) (ecc : Finds) (ups : List Upset) (s : State) : Out :=
  .next (s.clocked (fun s =>
  let a := (s.cores[c]).arr
  match a.running with
    | none => s
    | some u =>
      let j := u.chunk.job
      let sub := u.chunk.sub u.pass
      if !(u.loading && mRipple j.mode && !a.mustBulk sub) then s
      else
        match s.blockRows c u.chunk u.pass ecc with
        | (s, .error y) => s.exceptRun c j.run y j.pc
        | (s, .ok (src, words)) =>
          let ss := s.spots c j.mode sub ups
          s.passGo c u (blockOf j.mode src ss) ss (findsAfter ecc words)))

/-- The rows of an output-stationary set join the store's (R160): the state and what the additions counted (log entry 191). -/
def State.osStore (s : State) (c : Fin 16) (x : Chunk) (o : OsSet) : State :=
  let w := x.job.mode
  (o.rows.zip (List.range o.rows.length)).foldl (fun s y =>
    let row := x.job.td.base + x.row0 + o.bm * passR w + y.2
    let old := (s.cores[c]).arr.storeRow w row o.bn y.1.length
    let new := (old.zip y.1).map (fun z =>
      let r := accJoin w z.1 (accPart w z.2)
      ({ r.1 with ovf := r.1.ovf || z.2.ovf }, r.2))
    (s.modArr c (fun a => a.putRow w row o.bn (new.map (fun z => z.1)))).countOps c
      ((new.map (fun z => z.2.1)).foldl (· + ·) 0) ((new.map (fun z => z.2.2)).foldl (· + ·) 0) 0) s

/-- OS_DRAIN (R162, R179, R209): the oldest accumulator set of the chunk in work drains; its rows leave only where its comparisons held. -/
def execOsDrain (c : Fin 16) (s : State) : Out :=
  .next (s.clocked (fun s =>
  match (s.cores[c]).arr.running with
    | none => s
    | some u => match u.sets with
      | [] => s
      | o :: rest =>
        let x := u.chunk
        let w := x.job.mode
        let s := s.modArr c (fun a => { a with running := some { u with sets := rest } })
        let out := if o.bad then (s, none)
          else if x.job.td.kind = 5 then (s.osStore c x o, none)
          else s.deliver c x (o.bm * passR w) o.bn (x.cols o.bn).1 o.rows
        match out with
        | (s, some y) => s.exceptRun c x.job.run y x.job.pc
        | (s, none) =>
          if rest.isEmpty ∧ passCount w x.rows x.job.k x.job.n ≤ u.pass then s.chunkEnd c x else s))

/-! Verdicts and replays (R181, R182, R208). -/

/-- A chunk as its replay runs it. -/
def Chunk.replay (x : Chunk) (failed : Bool) : Chunk := { x with bad := [], again := true, failed := x.failed || failed }

/-- What a replay of a chunk runs: a store chunk's entries in order, else the chunk itself. -/
def Arr.replayOf (a : Arr) (x : Chunk) (failed : Bool) : List Chunk :=
  if x.store then (a.storeJobs.filter (fun j => j.run == x.job.run)).map (fun j =>
    ({ job := j, rows := j.m, store := true, failed := x.failed } : Chunk).replay failed)
  else [x.replay failed]

/-- A verdict has failed (R182, R208): the failing chunk and every later pending one are discarded, a store chunk's rows zeroed, and all are
replayed in their order, before the chunk in work, which goes on after them with a bulk load. A replay in work, or a store job whose chunk is
replayed, begins again itself. -/
def Arr.discard (a : Arr) (x : Chunk) (xs : List Chunk) : Arr :=
  let jobs := if (x :: xs).any (fun y => y.store) then a.storeJobs else []
  let again := fun (u : Running) => u.chunk.again || (u.chunk.store && !jobs.isEmpty)
  let inWork := (a.running.filter again).map (fun u => { u.chunk with bad := [] })
  let z := jobs.foldl Arr.zeroJob a
  let z := match a.running with
    | some u => if again u ∧ u.chunk.store then z.zeroJob u.chunk.job else z
    | none => z
  { z with
    pending := []
    running := none
    held := (a.running.filter (fun u => !again u)).orElse (fun _ => a.held)
    replays := a.replayOf x true ++ xs.flatMap (fun y => a.replayOf y false) ++ inWork.toList ++ a.replays
    banks := [] }

/-- CHUNK_VERDICT (R181, R182): the oldest pending chunk passes where none of its comparisons failed, and goes to its merge where it has one; else
it and every later pending chunk are replayed; a chunk that fails again after its replay is an array fault. -/
def execChunkVerdict (c : Fin 16) (s : State) : Out :=
  .next (s.clocked (fun s =>
  match (s.cores[c]).arr.pending with
    | [] => s
    | x :: xs =>
      if x.bad.isEmpty then
        (s.modArr c (fun a => { a with
          pending := xs
          merges := if x.job.td.kind = 4 then a.merges ++ [x] else a.merges })).closeIfFree c
      else if x.failed then (s.arrayFault c x.job x.bad).modArr c (fun a => { a with pending := a.pending.filter (· != x) })
      else (s.countRaise (odCore 0x6100 c 5) 0x6001 c.val).modArr c (fun a => a.discard x xs)))

/-! The merge engine (R207). -/

/-- Merge the rows of a chunk (R207): partial row i into the row its index record names. -/
def State.mergeRows (s : State) (c : Fin 16) (x : Chunk) (e : Finds) : Nat → Nat → State × Option Nat
  | 0, _ => (s, none)
  | n + 1, i =>
    let j := x.job
    let td := { j.td with aux := if j.ta.kind = 2 then j.ta.aux else ownMap c.val }
    match s.padRead c j.run.part td.pwin (j.td.pbase + 4096 * x.slot * td.row + i * td.row) td.row none e with
    | (s, .error y) => (s, some y.exc)
    | (s, .ok b) =>
      match s.rowWrite c j.run j.pc td (x.row0 + i)
          (some (if td.fmt = 5 then .addInt32 else .addFp32)) b (findsAfter e (td.row / 8)) with
      | (s, some y) => (s, some y)
      | (s, none) => State.mergeRows (s.bump (odCore 0x6102 c 9)) c x (findsAfter e (td.row / 8 + td.words td.row)) n (i + 1)

/-- MERGE_CHUNK (R207): the oldest chunk whose verdict has passed. A MERGE descriptor carries no owner map: the map is that of
the streamed GATHER operand, else the issuing core (log entry 34). -/
def execMergeChunk (c : Fin 16) (ecc : Finds) (s : State) : Out :=
  .next (s.clocked (fun s =>
  match (s.cores[c]).arr.merges with
    | [] => s
    | x :: xs =>
      let s := s.modArr c (fun a => { a with merges := xs })
      match s.mergeRows c x ecc x.rows 0 with
      | (s, none) => s.closeIfFree c
      | (s, some y) => (s.exceptRun c x.job.run y x.job.pc).closeIfFree c))

/-- ARRAY_REPAIR_CLEAR (R187): armed for the next restart. -/
def execArrayRepairClear (by_ : Writer) (v : BitVec 8) (s : State) : Out :=
  .next (s.command by_ 0x6002 1 (.num v.toNat) (fun _ => 0) (fun s => if v = 1 then s.arm (od 0x6002 1) else s))

end Sys2Proof.Machine
end

