-- ==== Sys2Proof/Machine/Fixed.lean ====
section
/-! DEFINITION. Exact geometry in fixed point: sines, turns and square roots as integers scaled by 2¹²⁰, far finer than any format of the
module, and the rounding of what they give (R48, R66-R69, R588). -/

namespace Sys2Proof.Machine

/-- The unit of the scaled integers. -/
def fxOne : Int := 2 ^ 120

/-- 2π. -/
def fxTurn : Int := 8351785813007552717653752915327115494

/-- A product of two scaled integers. -/
def fxMul (a b : Int) : Int := a * b / fxOne

/-- `n` steps of the alternating series 1 − x ÷ (k (k + 1)) · (1 − …): 1 − x/(k(k+1)) + x²/(k(k+1)(k+2)(k+3)) − …. -/
def fxSeries (x : Int) : Nat → Nat → Int
  | 0, _ => fxOne
  | n + 1, k => fxOne - fxMul x (fxSeries x n (k + 2)) / (k * (k + 1))

/-- Cosine and sine of twice an angle, from those of the angle. -/
def fxDouble (c : Int × Int) : Int × Int := (fxMul c.1 c.1 - fxMul c.2 c.2, 2 * fxMul c.1 c.2)

/-- `n` steps of a function. -/
def iterStep {α : Type} (f : α → α) : Nat → α → α
  | 0, x => x
  | n + 1, x => iterStep f n (f x)

/-- Cosine and sine of an angle in scaled radians: the series at the 2⁴⁰-th part, doubled 40 times. -/
def fxCosSin (a : Int) : Int × Int :=
  let h := a / 2 ^ 40
  let x := fxMul h h
  iterStep fxDouble 40 (fxSeries x 8 1, fxMul h (fxSeries x 8 2))

/-- Cosine and sine of an azimuth or elevation in 2⁻²⁴ turn, exact at the quarters (R588). -/
def turnCosSin (v : Int) : Int × Int :=
  let u := v % 16777216
  let (c, s) := fxCosSin (fxTurn * (u % 4194304) / 16777216)
  match u / 4194304 with
  | 0 => (c, s)
  | 1 => (-s, c)
  | 2 => (-c, -s)
  | _ => (s, -c)

/-- Square root of a natural number, scaled by 2⁶⁰. -/
def sqrt60 (n : Nat) : Nat := isqrt 256 (n * 2 ^ 120) 0

/-- A scaled value in a format whose unit is `fxOne`: itself where it is whole, else one of its two neighbours (log entry 16). -/
def openRound (key : List Int) (v : Int) : Int :=
  if v % fxOne = 0 then v / fxOne else v / fxOne + (if Config.roundUp key then 1 else 0)

/-- A quotient for which the spec gives no rounding: either neighbour of the exact one where it is not whole. -/
def eitherDiv (n d : Int) : Int := Int.fdiv n d + (if n % d ≠ 0 ∧ Config.roundUp [n, d] then 1 else 0)

/-- A free whole number held within `tol` (scaled) of a scaled value. -/
def fxWithin (v tol free : Int) : Int := clampI (-((tol - v) / fxOne)) ((v + tol) / fxOne) free

/-! Vectors and quaternions as lists of integers. -/

/-- Component `i` of a list of numbers. -/
def comp3 (l : List Int) (i : Nat) : Int := l.getD i 0

/-- Component-wise sum. -/
def addList (a b : List Int) : List Int := List.zipWith (· + ·) a b

/-- Component-wise difference. -/
def subList (a b : List Int) : List Int := List.zipWith (· - ·) a b

/-- Every component times `k`. -/
def scaleList (k : Int) (a : List Int) : List Int := a.map (k * ·)

/-- Inner product. -/
def dotList (a b : List Int) : Int := (List.zipWith (· * ·) a b).foldl (· + ·) 0

/-- Vector product. -/
def crossList (a b : List Int) : List Int :=
  [comp3 a 1 * comp3 b 2 - comp3 a 2 * comp3 b 1, comp3 a 2 * comp3 b 0 - comp3 a 0 * comp3 b 2,
   comp3 a 0 * comp3 b 1 - comp3 a 1 * comp3 b 0]

/-- Product of two quaternions w, x, y, z. -/
def quatMul (a b : List Int) : List Int :=
  let u := a.drop 1
  let v := b.drop 1
  (comp3 a 0 * comp3 b 0 - dotList u v) :: addList (addList (scaleList (comp3 a 0) v) (scaleList (comp3 b 0) u)) (crossList u v)

/-- The inverse turn. -/
def quatConj (a : List Int) : List Int := comp3 a 0 :: scaleList (-1) (a.drop 1)

/-- |q|² times the vector turned by the quaternion: (w² − u²) v + 2 (u·v) u + 2 w (u × v). -/
def turnVec (q v : List Int) : List Int :=
  let w := comp3 q 0
  let u := q.drop 1
  addList (addList (scaleList (w * w - dotList u u) v) (scaleList (2 * dotList u v) u)) (scaleList (2 * w) (crossList u v))

/-- A vector turned by a quaternion of any length, scaled by `fxOne`. -/
def turned (q v : List Int) : List Int := (turnVec q v).map (fun x => fxOne * x / dotList q q)

/-- A quaternion of any length as a unit quaternion in Q1.30, scaled by `fxOne`. -/
def unitQuat (q : List Int) : List Int := q.map (fun x => x * 2 ^ 210 / (sqrt60 (dotList q q).natAbs : Int))

/-- Each component of a scaled list in its format; `key` tells what it is computed of (log entry 16). -/
def roundList (key : List Int) (l : List Int) : List Int := (l.zip (List.range l.length)).map (fun x => openRound (x.2 :: key) x.1)

/-- The unit quaternion exp(φ ÷ 2), scaled by `fxOne`, and A and B of the twist (1 − cos θ) ÷ θ² and (θ − sin θ) ÷ θ³, for a rotation
vector φ in scaled radians: the quaternion at the 2⁴⁰-th part, squared 40 times. -/
def expTurn (phi : List Int) : List Int × Int × Int :=
  let h := phi.map (· / 2 ^ 41)
  let x := dotList h h / fxOne
  let q0 := fxSeries x 8 1 :: h.map (fun v => fxMul v (fxSeries x 8 2))
  let q := iterStep (fun q => (quatMul q q).map (· / fxOne)) 40 q0
  let t2 := dotList phi phi / fxOne
  if t2 < fxOne then (q, fxSeries t2 16 3 / 2, fxSeries t2 16 4 / 6)
  else
    let v := q.drop 1
    (q, 2 * dotList v v / t2, (fxOne - 2 * fxMul (comp3 q 0) (dotList v phi / fxOne) * fxOne / t2) * fxOne / t2)

end Sys2Proof.Machine
end

