-- ==== Sys2Proof/Machine/Geometry.lean ====
section
/-! DEFINITION. Points in space: extrinsics, poses, motion compensation, sectors, cell indices, keys and buckets (R48, R66-R70,
R78, R87-R91, R95, R111, R588). Lengths inside are in 1/65,536 m unless a name says otherwise. -/

namespace Sys2Proof.Machine

/-- The unit quaternion in Q1.30. -/
def quatId : List Int := [1073741824, 0, 0, 0]

/-- Extrinsic of R48 on a sensor-frame point: Rz(yaw) · Ry(pitch) · Rx(roll) · p + (tx, ty, tz), angles in µrad. -/
def applyExtrinsic (e p : List Int) : List Int :=
  let angle := fun (i : Nat) => fxCosSin (fxOne * comp3 e i / 1000000)
  let (cr, sr) := angle 3
  let (cp, sp) := angle 4
  let (cy, sy) := angle 5
  let x0 := fxOne * comp3 p 0
  let y1 := cr * comp3 p 1 - sr * comp3 p 2
  let z1 := sr * comp3 p 1 + cr * comp3 p 2
  let x2 := fxMul cp x0 + fxMul sp z1
  let z2 := fxMul cp z1 - fxMul sp x0
  roundList (e ++ p) [fxMul cy x2 - fxMul sy y1 + fxOne * comp3 e 0, fxMul sy x2 + fxMul cy y1 + fxOne * comp3 e 1, z2 + fxOne * comp3 e 2]

/-- Sensor-frame point of CVT (R588): (r cos ε cos α, r cos ε sin α, r sin ε). `r` in 1/1,024 m, `az` and `el` in 2⁻²⁴ turn. -/
def polarPoint (r az : Nat) (el : Int) : List Int :=
  let d : Int := 64 * r
  let (ca, sa) := turnCosSin az
  let (ce, se) := turnCosSin el
  roundList [(r : Int), az, el] [d * fxMul ce ca, d * fxMul ce sa, d * se]

/-- The sector of an offset from the head's origin (R78): sectors of 22.5° from +x toward +y. The boundary at 22.5° is
y = (√2 − 1) x, that is (x + y)² = 2x². At the origin itself the azimuth is not given (log entry 17). -/
def sectorIn (a b : Int) : Nat :=
  if (a + b) * (a + b) < 2 * a * a then 0
  else if b < a then 1
  else if (a + b) * (a + b) > 2 * b * b then 2
  else 3

/-- The sector 0-15 of an offset in x and y (R78). -/
def sectorOf (x y : Int) : Nat :=
  if x = 0 ∧ y = 0 then (Config.sectorOf x y).val
  else if 0 < x ∧ 0 ≤ y then sectorIn x y
  else if x ≤ 0 ∧ 0 < y then 4 + sectorIn y (-x)
  else if x < 0 ∧ y ≤ 0 then 8 + sectorIn (-x) (-y)
  else 12 + sectorIn (-y) x

/-- A sample's own pose: position in 1/65,536 m (R66, R69). -/
def PoseSample.pose (p : PoseSample) : Pose := { pos := p.pos.map (· * 64), quat := p.quat }

/-- What the free roundings of a pose are keyed by. -/
def PoseSample.nums (p : PoseSample) (t : Int) : List Int := [t, (p.time : Int)] ++ p.pos ++ p.quat ++ p.vel ++ p.ang

/-- Constant twist from one sample (R67): its linear and angular velocity in the vehicle frame, held constant over t − s, so that the
vehicle moves along exp of the twist: by d + A φ × d + B φ × (φ × d) in its frame at s, turned by exp(φ ÷ 2). -/
def twist (p : PoseSample) (t : Int) : Pose :=
  let dt := t - p.time
  let d := p.vel.map (fun v => fxOne * v * dt / 1000000000)
  let phi := p.ang.map (fun w => 2 ^ 96 * w * dt / 1000000000)
  let (q, a, b) := expTurn phi
  let c1 := (crossList phi d).map (· / fxOne)
  let c2 := (crossList phi c1).map (· / fxOne)
  let move := addList d (addList (c1.map (fxMul a)) (c2.map (fxMul b)))
  let world := (turnVec p.quat move).map (· / dotList p.quat p.quat)
  { pos := roundList (p.nums t) (addList (p.pos.map (fun x => 64 * fxOne * x)) world)
    quat := if phi.all (· == 0) then p.quat else roundList (p.nums t ++ [1]) (unitQuat (quatMul p.quat q)) }

/-- Between two samples (R67 model 1): the cubic Hermite curve through their positions and velocities, these turned into the world
frame, and the normalised linear interpolation of their quaternions along the shorter arc. -/
def between (p n : PoseSample) (t : Int) : Pose :=
  let u := t - p.time
  let w : Int := n.time - t
  let len := u + w
  let tangent := fun (x : PoseSample) => (turned x.quat x.vel)
  let cube := fun (k x : Int) => fxOne * 64 * k * x / (len * len * len)
  let slope := fun (k x : Int) => k * x / (len * len * 1000000000)
  let pos := addList
    (addList (p.pos.map (cube ((len + 2 * u) * w * w))) (n.pos.map (cube (u * u * (3 * len - 2 * u)))))
    (addList ((tangent p).map (slope (u * w * w))) ((tangent n).map (slope (-(u * u * w)))))
  let far := if dotList p.quat n.quat < 0 then scaleList (-1) n.quat else n.quat
  { pos := roundList (p.nums t ++ n.nums t) pos
    quat := roundList (p.nums t ++ n.nums t ++ [1]) (unitQuat (addList (scaleList w p.quat) (scaleList u far))) }

/-- The latest sample at or before an instant; samples are held oldest first. -/
def sampleBefore (l : List PoseSample) (t : Int) : Option PoseSample :=
  (l.filter (fun p => decide ((p.time : Int) ≤ t))).getLast?

/-- The earliest sample after an instant. -/
def sampleAfter (l : List PoseSample) (t : Int) : Option PoseSample := l.find? (fun p => decide (t < p.time))

/-- The pose at an instant from the held samples (R67); none where there is no sample. -/
def poseAt (model : Nat) (l : List PoseSample) (t : Int) : Option Pose :=
  match sampleBefore l t, sampleAfter l t with
  | none, none => none
  | none, some n => some (twist n t)
  | some p, none => some (twist p t)
  | some p, some n => some (if model = 0 ∨ (p.time : Int) = t then twist p t else between p n t)

/-- Round 1/65,536 m to 1/1,024 m, to nearest, ties away from zero (R69). -/
def toRecord (c : Int) : Int := divNearest c 64

/-- The largest coordinate of a point record (R69). -/
def coordMax : Int := 8388607

/-- Pref⁻¹ · P(t) · p of a vector, scaled by `fxOne`; `d` is P(t)'s position less Pref's in the unit of `p`, scaled likewise. -/
def moved (pref pt : Pose) (d p : List Int) : List Int :=
  let w := addList (turned pt.quat p) d
  (turnVec (quatConj pref.quat) w).map (· / dotList pref.quat pref.quat)

/-- q = Pref⁻¹ · P(t) · p in 1/1,024 m (R68, R69): the rounded exact one where neither pose turns or the two are equal; else, where R69
gives its tolerance (`held`), free within 2/1,024 m of the exact one and of the poses' own rounding; else free (log entry 16). -/
def compensated (pref pt : Pose) (raw : Int × Int × Int) (held : Bool) : List Int :=
  let p := [raw.1, raw.2.1, raw.2.2]
  if pref = pt then p.map toRecord
  else if pref.quat = quatId ∧ pt.quat = quatId then (addList p (subList pt.pos pref.pos)).map toRecord
  else
    let exact := moved pref pt (scaleList fxOne (subList pt.pos pref.pos)) p
    (List.range 3).map (fun i =>
      let free := Config.compensate (pref.pos ++ pref.quat) (pt.pos ++ pt.quat) p i
      if held then fxWithin (comp3 exact i / 64) (2 * fxOne + fxOne / 16) free else free)

/-- R69's conditions: within 200 ms of E, and no sample of the track faster than 50 m/s. -/
def poseHeld (l : List PoseSample) (t e : Int) : Bool :=
  decide ((t - e).natAbs ≤ 200000000) && l.all (fun p => decide (dotList p.vel p.vel ≤ 3276800 * 3276800))

/-- Some coordinate lies outside the record's range (R69). -/
def outOfRange (l : List Int) : Bool := l.any (fun c => decide (c < -coordMax ∨ coordMax < c))

/-- Saturate to the record's range (R69). -/
def satCoords (l : List Int) : Int × Int × Int :=
  let f := clampI (-coordMax) coordMax
  (f (comp3 l 0), f (comp3 l 1), f (comp3 l 2))

/-- The 16-byte point record (R15): coordinates, intensity, time offset, source byte, beam, little-endian, its last byte zero. -/
def Point.record (p : Point) : Bytes :=
  natLe 3 (unsignedOf 24 p.xyz.1) ++ natLe 3 (unsignedOf 24 p.xyz.2.1) ++ natLe 3 (unsignedOf 24 p.xyz.2.2) ++ natLe 1 p.intensity ++
  natLe 3 p.offset ++ natLe 1 (p.port % 16 + 16 * (p.ret % 4) + (if p.extrap then 64 else 0) + (if p.sat then 128 else 0)) ++
  natLe 1 p.beam ++ zeros 1

/-- A point with the fields that its record gives it (R15, R61). -/
def Point.ofRecord (p : Point) (b : Bytes) : Point :=
  let src := fieldLe b 13 1
  { p with
    xyz := (signedOf 24 (fieldLe b 0 3), signedOf 24 (fieldLe b 3 3), signedOf 24 (fieldLe b 6 3)), intensity := fieldLe b 9 1
    offset := fieldLe b 10 3, port := bitsOf src 3 0, ret := bitsOf src 5 4, extrap := bitAt src 6, sat := bitAt src 7, beam := fieldLe b 14 1 }

/-- Cell index of a coordinate in 1/1,024 m under size exponent k (R88). -/
def cellIndex (c : Int) (k : Nat) : Int := Int.fdiv (5 * c) (2 ^ (8 + k) : Nat)

/-- Offset inside the cell (R88). -/
def cellOffset (c : Int) (k : Nat) : Nat :=
  ((5 * c - cellIndex c k * (2 ^ (8 + k) : Nat)) / (2 ^ k : Nat)).toNat

/-- Index and offset of a coordinate in fine units (R106). -/
def fineIndex (c : Int) (k : Nat) : Int := Int.fdiv c (2 ^ (8 + k) : Nat)

/-- Offset of a coordinate in fine units (R106). -/
def fineOffset (c : Int) (k : Nat) : Nat := ((c - fineIndex c k * (2 ^ (8 + k) : Nat)) / (2 ^ k : Nat)).toNat

/-- Size exponent of a grid. -/
def State.gridK (s : State) (g : Nat) : Nat := s.num (od (0x4010 + g) 2)

/-- The indices lie in a grid's box (R87). -/
def State.inBox (s : State) (g : Nat) (ix iy iz : Int) : Bool :=
  let b := 0x4010 + g
  decide (s.int (od b 3) ≤ ix ∧ ix ≤ s.int (od b 4) ∧ s.int (od b 5) ≤ iy ∧ iy ≤ s.int (od b 6)
    ∧ s.int (od b 7) ≤ iz ∧ iz ≤ s.int (od b 8))

/-- The enabled grids that a point enters (R89). -/
def State.gridsOf (s : State) (p : Int × Int × Int) : List Nat :=
  (List.range 4).filter (fun g =>
    let k := s.gridK g
    s.flag (od (0x4010 + g) 1) && s.inBox g (cellIndex p.1 k) (cellIndex p.2.1 k) (cellIndex p.2.2 k))

/-- The cell key of R16 and R91. -/
def cellKey (g slot : Nat) (ix iy iz : Int) : Nat :=
  unsignedOf 16 ix + 2 ^ 16 * unsignedOf 16 iy + 2 ^ 32 * unsignedOf 10 iz + 2 ^ 42 * (slot % 4) + 2 ^ 44 * (g % 4)

/-- x, y, z indices of a key. -/
def keyX (key : Nat) : Int := signedOf 16 (bitsOf key 15 0)
/-- y index of a key (R16). -/
def keyY (key : Nat) : Int := signedOf 16 (bitsOf key 31 16)
/-- z index of a key (R16). -/
def keyZ (key : Nat) : Int := signedOf 10 (bitsOf key 41 32)
/-- Physical slot of a key (R16). -/
def keySlot (key : Nat) : Nat := bitsOf key 43 42
/-- Grid of a key (R16). -/
def keyGrid (key : Nat) : Nat := bitsOf key 45 44

/-- Key of a point in a grid, for a sweep tag (R91, R102). -/
def State.pointKey (s : State) (g tag : Nat) (p : Int × Int × Int) : Nat :=
  let k := s.gridK g
  cellKey g tag (cellIndex p.1 k) (cellIndex p.2.1 k) (cellIndex p.2.2 k)

/-- The bucket a key maps to (R95). -/
def State.bucket (s : State) (key : Nat) : Nat :=
  if s.num (od 0x4000 1) = 0 then
    (Nat.xor key (s.num (od 0x4000 2) % 2 ^ 48)) * s.num (od 0x4000 3) % 2 ^ 64 / 2 ^ 47
  else
    (crcRun (BitVec.ofNat 32 (s.num (od 0x4000 2))) (natLe 6 key) ^^^ 0xFFFFFFFF#32).toNat % 2 ^ 17

/-- Bird's-eye target of a cell (R111). -/
def State.bevTarget (s : State) (key : Nat) : Nat :=
  let g := keyGrid key
  let k := s.gridK g
  let j := s.num (od 0x4020 1)
  let ixm := keyX key / (2 ^ (j - k) : Nat) - s.int (od 0x4020 2)
  let iym := keyY key / (2 ^ (j - k) : Nat) - s.int (od 0x4020 4)
  let rows : Int := s.num (od 0x4020 3)
  let cols : Int := s.num (od 0x4020 5)
  if s.flag (od (0x4010 + g) 9) ∧ 0 ≤ ixm ∧ ixm < rows ∧ 0 ≤ iym ∧ iym < cols then (ixm * cols + iym).toNat
  else 0xFFFFFF

end Sys2Proof.Machine
end

