-- ==== Sys2Proof/Machine/Cells.lean ====
section
/-! DEFINITION. The cell table: search, insertion, withdrawal, sweeps, ageing and the snapshot (R92-R115). -/

namespace Sys2Proof.Machine

/-- An entry at a place. -/
def CellTable.at (t : CellTable) (place : Nat) : Option Entry := Sparse.get (fun _ => none) t.entries place

/-- Put or clear the entry at a place. -/
def CellTable.put (t : CellTable) (place : Nat) (e : Option Entry) : CellTable :=
  { t with entries := Sparse.put (fun _ => none) t.entries place e }

/-- First stash place. -/
def stashBase : Nat := 1048576

/-- The sweep a tag names is not RELEASED (R103). -/
def CellTable.holds (t : CellTable) (tag : Nat) : Bool := t.sweeps.any (fun w => w.tag == tag)

/-- The live entry at a place: VALID and of a sweep that is not released (R96). -/
def CellTable.live (t : CellTable) (place : Nat) : Option Entry :=
  match t.at place with
  | some e => if t.holds e.tag then some e else none
  | none => none

/-- All live places in scan order (R105, R124). -/
def CellTable.livePlaces (t : CellTable) : List (Nat × Entry) :=
  t.entries.filterMap (fun p => match p.2 with
    | some e => if t.holds e.tag then some (p.1, e) else none
    | none => none)

/-- Live entries, RETIRING ones included (R98). -/
def CellTable.count (t : CellTable) : Nat := t.livePlaces.length

/-- Live stash entries. -/
def CellTable.stashLive (t : CellTable) : List (Nat × Entry) :=
  t.livePlaces.filter (fun p => decide (stashBase ≤ p.1))

/-- Stash count kept for a bucket (R97). -/
def CellTable.stashOf (t : CellTable) (b : Nat) : Nat := Sparse.get (fun _ => 0) t.stashCount b

/-- Change a bucket's stash count. -/
def CellTable.setStash (t : CellTable) (b n : Nat) : CellTable :=
  { t with stashCount := Sparse.put (fun _ => 0) t.stashCount b n }

/-- The places of a bucket's ways, lowest first. -/
def ways (b : Nat) : List Nat := (List.range 8).map (fun w => b * 8 + w)

/-- The place of a live entry that the test picks: the bucket's ways first, then the stash if the bucket's count is not zero
(R96). -/
def CellTable.search (t : CellTable) (b : Nat) (same : Entry → Bool) : Option Nat :=
  match (ways b).find? (fun p => match t.live p with | some e => same e | none => false) with
  | some p => some p
  | none =>
    if t.stashOf b = 0 then none
    else (t.stashLive.find? (fun p => same p.2)).map (fun p => p.1)

/-- The lowest number from `n` on that a rising list does not hold. -/
def lowestFree : Nat → List Nat → Nat
  | n, [] => n
  | n, x :: xs => if x = n then lowestFree (n + 1) xs else n

/-- The place a new entry takes: lowest free way, else lowest free stash slot, none if both are full (R96). -/
def CellTable.room (t : CellTable) (b : Nat) : Option Nat :=
  match (ways b).find? (fun p => (t.live p).isNone) with
  | some p => some p
  | none =>
    let f := lowestFree stashBase (t.stashLive.map (fun p => p.1))
    if f < stashBase + 4096 then some f else none

/-- Create an entry at a place; the bucket's stash count rises when the place is in the stash (R97). -/
def CellTable.create (t : CellTable) (b place : Nat) (e : Entry) : CellTable :=
  let t := t.put place (some e)
  if place < stashBase then t else t.setStash b (t.stashOf b + 1)

/-- Free the entry at a place; a stash entry's bucket count falls (R97, R99). -/
def CellTable.free (t : CellTable) (b place : Nat) : CellTable :=
  let t := t.put place none
  if place < stashBase then t else t.setStash b (t.stashOf b - 1)

/-- The contribution of a point to an entry of a grid with exponent k. -/
def Point.entry (p : Point) (k key tag : Nat) : Entry :=
  let z := clampI (-32767) 32767 p.xyz.2.2
  { key := key, tag := tag, extrap := p.extrap, sat := p.sat, phase := tag % 2, count := 1
    sdx := cellOffset p.xyz.1 k, sdy := cellOffset p.xyz.2.1 k, sdz := cellOffset p.xyz.2.2 k
    sint := p.intensity, zmin := z, zmax := z, tfirst := p.offset
    sensors := 2 ^ p.port, returns := 2 ^ p.ret }

/-- Aggregate a point's contribution into an entry (R93); a full count changes nothing (R94). -/
def Entry.addPoint (e c : Entry) : Entry :=
  if e.count = 65535 then e
  else { e with
    count := e.count + 1, sdx := e.sdx + c.sdx, sdy := e.sdy + c.sdy, sdz := e.sdz + c.sdz, sint := e.sint + c.sint
    zmin := min e.zmin c.zmin, zmax := max e.zmax c.zmax, tfirst := Nat.min e.tfirst c.tfirst
    sensors := orBits e.sensors c.sensors, returns := orBits e.returns c.returns
    extrap := e.extrap || c.extrap, sat := e.sat || c.sat }

/-- Withdraw a point's contribution (R74, R93); a full count changes nothing (R94). -/
def Entry.subPoint (e c : Entry) : Entry :=
  if e.count = 65535 then e
  else { e with
    count := e.count - 1, sdx := e.sdx - c.sdx, sdy := e.sdy - c.sdy, sdz := e.sdz - c.sdz, sint := e.sint - c.sint }

/-- Update the point counts of the frame a point belongs to: the one being ingested, or the one whose sweep has just closed
and whose packet arrived before its end (R64). -/
def State.modPoint (s : State) (prev : Bool) (f : FrameCtx → FrameCtx) : State :=
  if prev then s.modComp f else s.modIng f

/-- Update the cell counts of that frame. -/
def State.modCells (s : State) (prev : Bool) (f : CellCount → CellCount) : State :=
  s.modPoint prev (fun c => { c with cells := f c.cells })

/-- Update the point counts of that frame. -/
def State.modPts (s : State) (prev : Bool) (f : SweepCount → SweepCount) : State :=
  s.modPoint prev (fun c => { c with pts := f c.pts })

/-- The stash peak of the frame, and EV 0x4003 once in each frame in which the stash stands at or above STASH_WARN (R115). -/
def State.noteStash (s : State) : State :=
  let n := s.cells.stashLive.length
  let s1 := s.modCells false (fun c => { c with stashPeak := Nat.max c.stashPeak n })
  if s.num (od 0x4000 5) ≤ n then s1.raiseIng 0x4003 0xFF n else s1

/-- What one insertion came to. -/
inductive InsertResult where | aggregated | saturated | created | bucketFull | limit
  deriving DecidableEq, Repr

/-- Which of the cases of R96 and R98 an insertion of key and tag meets. -/
def CellTable.insertCase (t : CellTable) (b : Nat) (key tag : Nat) : InsertResult × Nat :=
  match t.search b (fun e => e.key == key && e.tag == tag) with
  | some p => match t.live p with
    | some e => (if e.count = 65535 then .saturated else .aggregated, p)
    | none => (.aggregated, p)
  | none =>
    if 1048576 ≤ t.count then (.limit, 0)
    else match t.room b with
      | some p => (.created, p)
      | none => (.bucketFull, 0)

/-- Insert one point into one grid (R93-R98). The Bool says whether the grid took it (log entry 153). -/
def State.insertPoint (s : State) (p : Point) (g tag : Nat) : State × Bool :=
  let key := s.pointKey g tag p.xyz
  let b := s.bucket key
  let c := p.entry (s.gridK g) key tag
  match s.cells.insertCase b key tag with
  | (.aggregated, pl) =>
    let e := (s.cells.live pl).getD c
    ({ s with cells := s.cells.put pl (some (e.addPoint c)) }.modCells p.prev
      (fun x => { x with aggregated := x.aggregated + 1 }), true)
  | (.saturated, _) => (s.modCells p.prev (fun x => { x with saturated := x.saturated + 1 }), true)
  | (.created, pl) =>
    (({ s with cells := s.cells.create b pl c }.modCells p.prev
      (fun x => { x with created := x.created + 1 })).noteStash, true)
  | (.bucketFull, _) =>
    ((s.modCells p.prev (fun x => { x with refusedBucket := x.refusedBucket + 1 })).raiseIng 0x4001, false)
  | (.limit, _) =>
    ((s.modCells p.prev (fun x => { x with refusedLimit := x.refusedLimit + 1 })).raiseIng 0x4001, false)

/-- The sweep a point belongs to: the one in ingest, or the one just closed. -/
def State.sweepTag (s : State) (prev : Bool) : Nat := if prev then (s.cells.counter + 255) % 256 else s.cells.counter

/-- A point that some grid refused counts once in CELL_FULL and degrades its frame (R80, R89). -/
def State.cellFull (s : State) (prev : Bool) : State :=
  (s.modPts prev (fun c => { c with cellFull := c.cellFull + 1 })).modPoint prev (fun c => c.cause .ingest 2)

/-- Write a point to the run-ahead log, or count it as UNLOGGED when the log is full (R71, R72). One of a sweep that has ended is never
resolved and counts as UNRESOLVED (R76). -/
def State.logPoint (s : State) (p : Point) : State :=
  if p.prev then s.modPts true (fun c => { c with unresolved := c.unresolved + 1 })
  else if 262144 ≤ s.ing.log.length then s.modPts p.prev (fun c => { c with unlogged := c.unlogged + 1 })
  else { s with ing := { s.ing with log := s.ing.log ++
    [{ pt := { p with num := s.ing.logged + 1 }, epoch := p.epoch, sweep := s.sweepTag p.prev }], logged := s.ing.logged + 1 } }

/-- RUNAHEAD with EV 0x3010 above the share of R77, LATE with EV 0x3014 above 1 % of the received points (R64). -/
def State.judgeShares (s : State) (prev : Bool) : State :=
  let ctx := if prev then s.frame.comp else s.frame.ing
  let c := ctx.pts
  let one := fun (s : State) (more : Bool) (bit code : Nat) =>
    if more && !bitAt ctx.cIngest bit then
      let s := s.modPoint prev (fun c => c.cause .ingest bit)
      if prev then s.raiseComp code else s.raiseIng code
    else s
  let share := if prev then s.numC (od 0x3000 4) else s.num (od 0x3000 4)
  one (one s (decide (share * c.inserted < 1000 * (c.withdrawn + c.unresolved + c.unlogged))) 0 0x3010)
    (decide (c.inn < 100 * c.late)) 7 0x3014

/-- What reaches a sweep after its end is judged with it (R64, R76, R77). -/
def State.judgeAgain (s : State) (prev : Bool) : State := if prev then s.judgeShares true else s

/-- A point has met all its grids (R73, R80, R89). -/
def State.finishPoint (s : State) (p : Point) : State :=
  let s1 := if p.refused then s.cellFull p.prev else s
  if p.took.isEmpty then s1
  else
    let s2 := s1.modPts p.prev (fun c => { c with inserted := c.inserted + 1 })
    (if p.log then s2.logPoint { p with refused := false } else s2).judgeAgain p.prev

/-- CELL_INSERT (R96): port A inserts the front point into its next grid; after its last grid the point is counted. -/
def execCellInsert (s : State) : Out :=
  .next (s.clocked (fun s =>
  match s.ing.ins with
  | [] => s
  | p :: rest =>
    match p.grids with
    | [] => { s with ing := { s.ing with ins := rest } }
    | g :: gs =>
      let (s1, ok) := s.insertPoint p g (s.sweepTag p.prev)
      let p1 := { p with grids := gs, took := if ok then p.took ++ [g] else p.took, refused := p.refused || !ok }
      if gs.isEmpty then ({ s1 with ing := { s1.ing with ins := rest } }).finishPoint p1
      else { s1 with ing := { s1.ing with ins := p1 :: rest } }))

/-- Withdraw a point from one grid's entry (R74, R94, R99). -/
def State.withdrawFrom (s : State) (p : Point) (tag g : Nat) : State :=
  let key := s.pointKey g tag p.xyz
  let b := s.bucket key
  let c := p.entry (s.gridK g) key tag
  match s.cells.search b (fun e => e.key == key && e.tag == tag) with
  | none => s
  | some pl =>
    match s.cells.live pl with
    | none => s
    | some e =>
      if e.count = 65535 then s.modCells p.prev (fun x => { x with saturated := x.saturated + 1 })
      else if e.count ≤ 1 then
        { s with cells := s.cells.free b pl }.modCells p.prev (fun x => { x with freed := x.freed + 1 })
      else { s with cells := s.cells.put pl (some (e.subPoint c)) }

/-- RUNAHEAD_WITHDRAW (R73, R74, R90): the front failing point leaves every grid that took it, or OUTSIDE if it entered none, and waits
for its re-insertion. -/
def execRunaheadWithdraw (s : State) : Out :=
  .next (s.clocked (fun s =>
  match s.ing.withdraw with
  | [] => s
  | (old, new) :: rest =>
    let s1 := old.took.foldl (fun s g => s.withdrawFrom old (s.sweepTag old.prev) g) s
    let s2 := if (s.gridsOf old.xyz).isEmpty then s1.modCells old.prev (fun c => { c with outside := c.outside - 1 }) else s1
    { s2 with ing := { s2.ing with withdraw := rest, reinsert := s2.ing.reinsert ++ [new] } }))

/-- The grids that took a re-inserted point stand in its log entry, if it has one still. -/
def State.relog (s : State) (p : Point) (took : List Nat) : State :=
  { s with ing := { s.ing with log := s.ing.log.map (fun l => if l.pt.num = p.num then { l with pt := { l.pt with took := took } } else l) } }

/-- RUNAHEAD_REINSERT (R73, R90): a withdrawn point enters every grid of its new position; refusals follow R80, and INSERTED
does not change. If the point is still logged, its log entry holds the grids that took it. -/
def execRunaheadReinsert (s : State) : Out :=
  .next (s.clocked (fun s =>
  match s.ing.reinsert with
  | [] => s
  | p :: rest =>
    let s0 := { s with ing := { s.ing with reinsert := rest } }
    let grids := s0.gridsOf p.xyz
    if grids.isEmpty then s0.modCells p.prev (fun c => { c with outside := c.outside + 1 })
    else
      let (s1, took) := grids.foldl (fun a g =>
        let (s', ok) := a.1.insertPoint p g (a.1.sweepTag p.prev)
        (s', if ok then a.2 ++ [g] else a.2)) (s0, [])
      let s2 := s1.relog p took
      if took.length < grids.length then s2.cellFull p.prev else s2))

/-- The moved point: its coordinates under a pose track, and whether it saturates (R68, R69, R73). -/
def State.recompute (s : State) (l : List PoseSample) (p : Point) : Point :=
  let ctx := if p.prev then s.frame.comp else s.frame.ing
  match poseAt (s.num (od 0x3000 1)) l p.time with
  | none => p
  | some pt =>
    let q := compensated ctx.pref pt p.raw (poseHeld l p.time ctx.end_)
    { p with xyz := satCoords q, sat := outOfRange q }

/-- Smallest size exponent among grids; 5 where there is none. -/
def State.finestK (s : State) (gs : List Nat) : Nat := (gs.map s.gridK).foldl Nat.min 5

/-- A logged point moves beyond the tolerance: RUNAHEAD_TOL thousandths of the finest cell it enters at either place (R73). -/
def State.movedFar (s : State) (old new : Point) : Bool :=
  let gs := old.took ++ s.gridsOf new.xyz
  let lim : Int := 1024 * (s.num (od 0x3000 3) * 2 ^ s.finestK gs)
  let far (a b : Int) : Bool := decide (lim < 20000 * ((b - a).natAbs : Int))
  !gs.isEmpty && (far old.xyz.1 new.xyz.1 || far old.xyz.2.1 new.xyz.2.1 || far old.xyz.2.2 new.xyz.2.2)

/-- RUNAHEAD_RESOLVE (R73, R75): the oldest waiting sample's epoch is resolved: failing points are withdrawn and counted, points
beyond the sample stay logged under the next epoch, the others leave the log. Nothing happens while an earlier resolution
is still undoing, or a point of the epoch is still on its way to port A. -/
def execRunaheadResolve (s : State) : Out :=
  .next (s.clocked (fun s =>
  match s.ing.waitingSamples with
  | [] => s
  | (e, smp) :: rest =>
    if !s.ing.withdraw.isEmpty || !s.ing.reinsert.isEmpty || s.ing.ins.any (fun p => p.log && p.epoch == e) then s
    else
      let track := s.ing.samples.filter (fun x => decide (x.time ≤ smp.time))
      let due := s.ing.log.filter (fun l => l.epoch == e)
      let fails := due.filter (fun l => s.movedFar l.pt (s.recompute track l.pt))
      let stay (l : LogPoint) : Bool := decide ((smp.time : Int) < l.pt.time)
      let keep := s.ing.log.filterMap (fun l =>
        let moved := s.recompute track l.pt
        if l.epoch ≠ e then some l
        else if stay l then
          some { l with epoch := (e + 1) % 256, pt := (if s.movedFar l.pt moved then moved else l.pt) }
        else none)
      let s1 := { s with ing := { s.ing with
        waitingSamples := rest
        log := keep
        withdraw := fails.map (fun l =>
          let p := s.recompute track l.pt
          (l.pt, { p with extrap := stay l })) } }
      fails.foldl (fun s l => s.modPts l.pt.prev (fun c => { c with withdrawn := c.withdrawn + 1 })) s1))

/-- Centroid of an axis in fine units (R106 step 1). -/
def centroid (idx : Int) (sum count k : Nat) : Int :=
  idx * (2 ^ (8 + k) : Nat) + divNearest ((sum * 2 ^ k : Nat) : Int) count

/-- Δ on a centroid in fine units (R105, R106 step 2). -/
def Ageing.move (a : Ageing) (c : List Int) : List Int :=
  if a.identity ∨ a.from_ = a.to_ then c
  else if a.from_.quat = quatId ∧ a.to_.quat = quatId then
    List.zipWith (fun x d => divNearest (64 * x + 5 * d) 64) c (subList a.from_.pos a.to_.pos)
  else
    let exact := moved a.to_ a.from_ ((subList a.from_.pos a.to_.pos).map (fun x => fxOne * 5 * x / 64)) c
    (List.range 3).map (fun i =>
      fxWithin (comp3 exact i) (10 * fxOne + fxOne / 2) (Config.ageTransform (a.to_.pos ++ a.to_.quat) (a.from_.pos ++ a.from_.quat) c i))

/-- The aged entry and its new indices (R106). -/
def Ageing.aged (a : Ageing) (k : Nat) (e : Entry) : Entry × Int × Int × Int :=
  let c := [centroid (keyX e.key) e.sdx e.count k, centroid (keyY e.key) e.sdy e.count k,
    centroid (keyZ e.key) e.sdz e.count k]
  let m := a.move c
  let ix := fineIndex (comp3 m 0) k
  let iy := fineIndex (comp3 m 1) k
  let iz := fineIndex (comp3 m 2) k
  let dz := divNearest (comp3 m 2 - comp3 c 2) 5
  ({ e with
    key := cellKey (keyGrid e.key) (keySlot e.key) ix iy iz
    phase := a.phase
    sdx := e.count * fineOffset (comp3 m 0) k
    sdy := e.count * fineOffset (comp3 m 1) k
    sdz := e.count * fineOffset (comp3 m 2) k
    zmin := clampI (-32767) 32767 (e.zmin + dz)
    zmax := clampI (-32767) 32767 (e.zmax + dz) }, ix, iy, iz)

/-- Two entries of one sweep that age to one key (R107). -/
def Entry.merge (a b : Entry) : Entry :=
  let n := a.count + b.count
  let f (x y : Nat) : Nat := if n ≤ 65535 then x + y else 65535 * ((x + y) / n)
  { a with
    count := Nat.min 65535 n
    sdx := f a.sdx b.sdx, sdy := f a.sdy b.sdy, sdz := f a.sdz b.sdz, sint := f a.sint b.sint
    zmin := min a.zmin b.zmin, zmax := max a.zmax b.zmax, tfirst := Nat.min a.tfirst b.tfirst
    sensors := orBits a.sensors b.sensors, returns := orBits a.returns b.returns
    extrap := a.extrap || b.extrap, sat := a.sat || b.sat }

/-- Age the live entry at one place (R106, R107). The pass works for the frame in ingest (log entry 154). -/
def State.ageOne (s : State) (place : Nat) (e : Entry) : State :=
  let a := s.cells.ageing
  let g := keyGrid e.key
  let (e1, ix, iy, iz) := a.aged (s.gridK g) e
  let s0 := ({ s with cells := s.cells.free (s.bucket e.key) place }).modCells false
    (fun c => { c with aged := c.aged + 1 })
  let b := s.bucket e1.key
  if !s.inBox g ix iy iz then s0.modCells false (fun c => { c with agedOut := c.agedOut + 1 })
  else match s0.cells.search b (fun x => x.key == e1.key && x.tag == e1.tag && x.phase == a.phase) with
    | some p =>
      let o := (s0.cells.live p).getD e1
      ({ s0 with cells := s0.cells.put p (some (o.merge e1)) }).modCells false
        (fun c => { c with ageMerged := c.ageMerged + 1 })
    | none =>
      match (if 1048576 ≤ s0.cells.count then none else s0.cells.room b) with
      | some p => ({ s0 with cells := s0.cells.create b p e1 }).noteStash
      | none => ((s0.modCells false (fun c => { c with ageDropped := c.ageDropped + 1 })).causeIng .cells 1).raiseIng 0x4004

/-- AGE_ENTRY (R105-R107): port B visits the next place of the pass; an entry whose phase is already the pass's is passed
over. The pass ends with its last place. -/
def execAgeEntry (s : State) : Out :=
  .next (s.clocked (fun s =>
  match s.cells.ageing.todo with
  | [] => { s with cells := { s.cells with ageing := { s.cells.ageing with active := false } } }
  | p :: rest =>
    let s1 := { s with cells := { s.cells with
      ageing := { s.cells.ageing with todo := rest, active := !rest.isEmpty } } }
    match s1.cells.live p with
    | some e =>
      if e.phase = s1.cells.ageing.phase ∨ e.tag = s1.cells.counter then s1
      else s1.ageOne p e
    | none => s1))

/-- Publish the cell counts of the computing frame (R114: replaced at each report). -/
def State.publishCells (s : State) : State :=
  let c := s.frame.comp.cells
  let put := fun (s : State) (p : Nat × Int) => s.setNum (od 0x4F00 p.1) p.2
  let s1 := [(1, (s.frame.comp.n : Int)), (2, c.live), (3, c.created), (4, c.aggregated), (5, c.freed), (6, c.stashPeak),
    (7, c.refusedBucket), (8, c.refusedLimit), (9, c.outside), (0x0A, c.saturated), (0x0B, c.aged), (0x0C, c.agedOut),
    (0x0D, c.ageMerged), (0x0E, c.ageDropped), (0x0F, c.ageIncomplete), (0x10, s.frame.comp.cCells)].foldl put s
  (List.range 4).foldl (fun s g => s.setNum (od 0x4F01 (g + 1)) (c.liveG.getD g 0)) s1

/-- Release the sweeps that frame n was the last to read, start the ageing pass of the frame in ingest (R103, R105) and replace the cell
counts (R114): at the builder's report of frame n, or at E + L in its place (R104). -/
def State.reportDone (s : State) : State :=
  if s.frame.comp.reported ∨ s.frame.comp.n = 0 then s
  else
    let h := s.num (od 0x4000 4)
    let s1 := s.modComp (fun c => { c with reported := true })
    let age := fun (w : Sweep) => (s.cells.counter + 511 - w.tag) % 256
    let keep := s.cells.sweeps.filter (fun w => w.state == .ingest || (w.state == .held && decide (age w < h)))
    let t := { s1.cells with sweeps := keep }
    let past := t.livePlaces.filter (fun p => p.2.tag != t.counter)
    ({ s1 with cells := { t with ageing := {
        active := decide (h ≠ 0) && !past.isEmpty
        todo := if h = 0 then [] else past.map (fun (p : Nat × Entry) => p.1)
        phase := t.counter % 2
        frame := s.frame.ing.n
        from_ := s.frame.comp.pref
        to_ := s.frame.ing.pref
        identity := s.frame.comp.rest || s.frame.ing.rest } } }).publishCells

/-- At E, entries the pass has not reached are freed and counted (R109). -/
def State.ageingEnd (s : State) : State :=
  if s.cells.ageing.todo.isEmpty then s
  else
    let left := s.cells.ageing.todo.filterMap (fun p => match s.cells.live p with
      | some e => if e.phase = s.cells.ageing.phase ∨ e.tag = s.cells.counter then none else some (p, e)
      | none => none)
    let s1 := left.foldl (fun s p => { s with cells := s.cells.free (s.bucket p.2.key) p.1 }) s
    let s2 := { s1 with cells := { s1.cells with ageing := { s1.cells.ageing with todo := [], active := false } } }
    if left.isEmpty then s2
    else ((s2.modCells false (fun c => { c with ageIncomplete := c.ageIncomplete + left.length })).causeIng .cells 0).raiseIng
      0x4002 0xFF left.length

/-- The frame boundary in the cell table (R102, R103): the sweep in ingest becomes HELD, the one that shares the new slot
RETIRING, and the new sweep takes the next counter value. Runs after the frame contexts have moved on. -/
def State.sweepTurn (s : State) : State :=
  let t := s.cells
  let c := (t.counter + 1) % 256
  let aged := t.sweeps.map (fun w => match w.state with
    | .ingest => { w with state := SweepState.held, pref := s.frame.comp.pref, rest := s.frame.comp.rest }
    | .held => if w.tag % 4 = c % 4 then { w with state := SweepState.retiring } else w
    | .retiring => w)
  { s with cells := { t with counter := c
                             sweeps := aged ++ [{ tag := c, frame := s.frame.ing.n, state := .ingest }] } }

/-- Live entries and per-grid counts at E (R114). -/
def State.cellsAtE (s : State) : State :=
  let s := s.noteStash
  let l := s.cells.livePlaces
  s.modCells false (fun c => { c with
    live := l.length
    liveG := (List.range 4).map (fun g => (l.filter (fun p => keyGrid p.2.key == g)).length) })

/-- SNAP_REQUEST (R113): refused unless SNAPSHOT_ENABLE was set at the last restart; otherwise the next frame is copied. -/
def execSnapRequest (by_ : Writer) (v : BitVec 8) (s : State) : Out :=
  .next (s.command by_ 0x4F10 1 (.num v.toNat) (fun s => if s.flag (od 0x4000 6) then 0 else 6)
    (fun s => { s with cells := { s.cells with snapArmed := true } }))

end Sys2Proof.Machine
end

