-- ==== Sys2Proof/Machine/TopK.lean ====
section
/-! DEFINITION. The top-k unit and its merges (R284-R286, R290-R305). -/

namespace Sys2Proof.Machine

/-- Entry a ranks before entry b (R291). -/
def ranksBefore (fmt : Nat) (smallest : Bool) (a b : Nat × Nat) : Bool :=
  if fmtLt fmt b.1 a.1 then !smallest
  else if fmtLt fmt a.1 b.1 then smallest
  else decide (a.2 < b.2)

/-- Two values are equal under R290. -/
def sameValue (fmt a b : Nat) : Bool := !fmtLt fmt a b && !fmtLt fmt b a

/-- The value of the k-th entry, where the list is full. -/
def TopK.kth (t : TopK) : Option Nat := if t.entries.length = t.k then t.entries.getLast?.map (·.1) else none

/-- The list's entries replaced, and the tie-overflow count after an entry above the k-th entered (R298): it stays, with `more`
added, where the k-th value is the same and is 0 otherwise. -/
def TopK.entered (t : TopK) (l : List (Nat × Nat)) (more : Nat) : TopK :=
  let t' := { t with entries := l }
  match t.kth, t'.kth with
  | some a, some b => { t' with ties := if sameValue t.fmt a b then t.ties + more else 0 }
  | _, _ => { t' with ties := 0 }

/-- Place an entry that is no NaN (R291, R295, R298). -/
def TopK.place (t : TopK) (x : Nat × Nat) : TopK :=
  let before := ranksBefore t.fmt t.smallest
  if t.entries.length < t.k then { t with entries := insertBy before x t.entries }
  else
    match t.entries.getLast? with
    | none => t
    | some y =>
      if before x y then t.entered ((insertBy before x t.entries).take t.k) 1
      else { t with ties := if sameValue t.fmt x.1 y.1 then t.ties + 1 else t.ties }

/-- One element of a TKIN (R293, R294). -/
def TopK.element (t : TopK) (v : Nat) : TopK :=
  let idx := (t.base + t.count) % 2 ^ 32
  let t := { t with count := t.count + 1 }
  if fmtNan t.fmt v then { t with nan := t.nan + 1 } else t.place (v, idx)

/-- An arrival of a merge (R300): the list, and whether it was a duplicate and with a different value. -/
def TopK.arrive (t : TopK) (x : Nat × Nat) : TopK × Bool × Bool :=
  match t.entries.find? (fun y => y.2 == x.2) with
  | none => (t.place x, false, false)
  | some y =>
    if sameValue t.fmt x.1 y.1 then (t, true, false)
    else if ranksBefore t.fmt t.smallest x y then
      (t.entered (insertBy (ranksBefore t.fmt t.smallest) x (t.entries.filter (fun z => z.2 != x.2))) 0, true, true)
    else (t, true, true)

/-- The merged tie-overflow count (R302). -/
def TopK.allTies (t : TopK) : Nat :=
  match t.kth with
  | none => t.ties
  | some v => t.ties + ((t.recv.filter (fun y => sameValue t.fmt y.1 v)).map (·.2)).foldl (· + ·) 0

/-- The list of a core. -/
def State.topk (s : State) (c : Fin 16) : TopK := (s.seqOf c).topk

/-- Update the list of a core. -/
def State.modTopk (s : State) (c : Fin 16) (f : TopK → TopK) : State := s.modSeq c (fun q => { q with topk := f q.topk })

/-- TKRST (R204, R296): B sa k, C sb base, D FMT, I[0] smallest. -/
def execTkrst (c : Fin 16) (w : BitVec 56) (s : State) : Out :=
  .next (s.issue c 0x60 w { b := 31, c := 31, d := 15, i := 1 } (fun s x =>
    let k := (s.rs c x.b).toNat
    if k = 0 ∨ 1024 < k ∨ x.d < 4 ∨ 7 < x.d then .exc s 2 0
    else if (s.topk c).isOpen ∧ !(s.topk c).final then .stay s
    else .next (s.modTopk c (fun _ => { isOpen := true, k := k, fmt := x.d, smallest := bitAt x.i 0
                                        base := (s.rs c x.c).toNat % 2 ^ 32 }))))

/-- TKIN (R204, R294, R305): C ts; it takes its rows once those of other cores have come (R199). `ecc` is what the words read show. -/
def execTkin (c : Fin 16) (w : BitVec 56) (ecc : Finds) (s : State) : Out :=
  .next (s.issue c 0x61 w { c := 7 } (fun s x =>
    let t := s.topk c
    let d := (s.seqOf c).td x.c
    let n := d.count * d.elems
    if !t.isOpen ∨ d.fmt ≠ t.fmt ∨ (d.kind ≠ 1 ∧ d.kind ≠ 2) ∨ d.cmp ∨ (d.kind = 2 ∧ !d.irecOk) then .exc s 2 0
    else if x.r.part = 0 ∧ 65536 < t.count + n then .exc (s.countRaise (odCore 0x6103 c 7) 0x6021 c.val) 2 0
    else if n ≠ 0 ∧ (0xFFFFFFFE < t.base + t.count + n - 1 ∨ 2 ^ 32 ≤ t.count + n) then .exc s 2 0
    else match s.farReady c x.r x.pc d d.row 0 d.count with
    | (s, false) => .stay s
    | (s, true) => match s.rowsRead c x.r x.pc d d.row ecc d.count 0 with
      | (s, .error e) => .exc (s.dropGets c x.r x.pc) e 0
      | (s, .ok rows) =>
        let s := s.dropGets c x.r x.pc
        let vs := rows.flatMap (elems d.fmt)
        let nans := (vs.filter (fmtNan d.fmt)).length
        let s := s.bump (odCore 0x6103 c 1) nans
        .next (s.modTopk c (fun t => { vs.foldl TopK.element t with final := t.final && vs.isEmpty }))))

/-- Write the final list (R297): the state and the exception. -/
def State.tkWrite (s : State) (c : Fin 16) (p sd addr w : Nat) : State × Option Nat :=
  let t := s.topk c
  match s.padWrite c p w addr t.out with
  | (s, some e) => (s, some e.exc)
  | (s, none) => (s.ws c sd (BitVec.ofNat 64 (t.entries.length + 2 ^ 32 * (t.ties % 2 ^ 32))), none)

/-- TKOUT (R204, R297): A sd, B sa, C w; waits for the list to be final. -/
def execTkout (c : Fin 16) (w : BitVec 56) (s : State) : Out :=
  .next (s.issue c 0x62 w { a := 31, b := 31, c := 7 } (fun s x =>
    let a := (s.rs c x.b).toNat
    if (s.topk c).final then
      match s.tkWrite c x.r.part x.a a x.c with
      | (s, some e) => .exc s e 0
      | (s, none) => .next s
    else .stay (s.waitFor c (.tkout x.a a x.c))))

/-! Merging (R285, R286, R300-R303). -/

/-- The messages of a list block (R285): a summary, then 4 entries per flit and 4 flits per message. -/
def blockMsgs (t : TopK) : List Bytes :=
  let summary := natLe 2 t.k ++ natLe 1 t.fmt ++ natLe 1 (if t.smallest then 1 else 0) ++ natLe 4 t.entries.length ++
    natLe 4 t.allTies ++ natLe 4 t.nan ++ zeros 16
  let e := t.entries.flatMap entryBytes
  summary :: (chunksOf 128 (e.length + 1) e).map (fun m => padTo (ceilDiv m.length 32 * 32) m)

/-- Send a member its list block. -/
def State.sendBlock (s : State) (c : Fin 16) (ty g seq : Nat) (dst : Nat × Nat) (t : TopK) : State :=
  let ms := blockMsgs t
  (ms.zip (List.range ms.length)).foldl
    (fun s y => s.sendColl ty (coreStop c.val) g seq dst y.2 (y.2 + 1 == ms.length) y.1) s

/-- Send a list to every child of member i. -/
def State.sendDown (s : State) (c : Fin 16) (g seq i : Nat) (t : TopK) : State :=
  let e := s.group g
  (grpChildren e i).foldl (fun s j => s.sendBlock c 13 g seq (s.grpMember e j) t) s

/-- Take a child's complete block into the list (R286, R300, R302, R303). -/
def State.takeBlock (s : State) (c : Fin 16) (b : ListBlock) : State :=
  let t := s.topk c
  let s := s.modCore c (fun k => { k with arrived := b.src :: k.arrived })
  if b.k ≠ t.k ∨ b.fmt ≠ t.fmt ∨ b.smallest ≠ t.smallest then (s.bump (od 0x18F0 0x0A)).raise 0x1806 c.val
  else
    let s := b.entries.foldl (fun (s : State) x =>
      let (t, dup, diff) := (s.topk c).arrive x
      let s := s.modTopk c (fun _ => t)
      let s := if dup then s.bump (odCore 0x6103 c 4) else s
      if diff then (s.bump (odCore 0x6103 c 5)).raiseIng 0x6020 c.val else s) s
    s.modTopk c (fun t => { t with
      final := false
      nan := t.nan + b.nan
      recv := if b.valid = b.k then (match b.entries.getLast? with
        | some y => (y.1, b.ties) :: t.recv
        | none => t.recv) else t.recv })

/-- The list of a received final block. -/
def ListBlock.list (b : ListBlock) (t : TopK) : TopK := { t with entries := b.entries, ties := b.ties, nan := b.nan, recv := [], final := true }

/-- Every child of a core in a group has sent its block. -/
def State.childrenIn (s : State) (c : Fin 16) (g : Nat) : Bool :=
  let e := s.group g
  (grpChildren e ((s.grpIndex e s.device (coreStop c.val)).getD 0)).all (fun j => (s.cores[c]).arrived.contains j)

/-- Let a waiting TKMRG go on as far as it can (R285): take in complete blocks of its children, send the merged list up, or at
the root down; below the root replace the list by the final one and forward it. -/
def State.mergeTry (s : State) (c : Fin 16) : State :=
  match (s.seqOf c).wait with
  | .tkmrg g seq =>
    let e := s.group g
    let me := (s.grpIndex e s.device (coreStop c.val)).getD 0
    let mine := fun (b : ListBlock) => b.group == g && b.seq == seq && b.last
    if !(s.topk c).final then s
    else
      let ups := ((s.cores[c]).blocks.filter (fun b => mine b && !b.down))
      let s := ups.foldl (fun s b => s.takeBlock c b) s
      let s := s.modCore c (fun k => { k with blocks := k.blocks.filter (fun b => !(mine b && !b.down)) })
      if !(s.topk c).final then s
      else if s.childrenIn c g then
        if me = 0 then
          let s := s.modTopk c (fun t => { t with ties := t.allTies, recv := [] })
          let s := s.sendDown c g seq 0 (s.topk c)
          (s.modCore c (fun k => { k with arrived := [], sentUp := false })).resume c
        else
          let s := if (s.cores[c]).sentUp then s
            else (s.sendBlock c 10 g seq (s.grpMember e ((me - 1) / 4)) (s.topk c)).modCore c (fun k => { k with sentUp := true })
          match (s.cores[c]).blocks.find? (fun b => mine b && b.down) with
          | none => s
          | some b =>
            let s := s.modTopk c b.list
            let s := s.sendDown c g seq me (s.topk c)
            (s.modCore c (fun k => { k with
              arrived := [], sentUp := false, blocks := k.blocks.filter (fun b => !(mine b && b.down)) })).resume c
      else s
  | _ => s

/-- TKMRG (R284, R285, R305): sa[3:0] group, sa[15:8] sequence, other bits zero; the group's stops must hold cores, and a P0 group
must be LOCAL. -/
def execTkmrg (c : Fin 16) (w : BitVec 56) (s : State) : Out :=
  .next (s.issue c 0x63 w { b := 31 } (fun s x =>
    let v := (s.rs c x.b).toNat
    let g := v % 16
    let e := s.group g
    if 2 ^ 16 ≤ v ∨ bitsOf v 7 4 ≠ 0 ∨ !s.groupOk c x.r.part g ∨ (grpStops e).any (fun st => (stopCore st).isNone) ∨
        (x.r.part = 0 ∧ !grpLocal e) ∨ !(s.topk c).isOpen then .exc s 2 0
    else .stay ((s.waitFor c (.tkmrg g (bitsOf v 15 8))).mergeTry c)))

/-- A merge has taken in some of its children's lists only: its list is not the one made final (log entry 173). -/
def State.midMerge (s : State) (c : Fin 16) : Bool :=
  match (s.seqOf c).wait with
  | .tkmrg g _ => !s.childrenIn c g
  | _ => false

/-- The counters of a list made final (R299). -/
def State.countFinal (s : State) (c : Fin 16) : State :=
  let t := s.topk c
  let s := if t.entries.length < t.k then s.bump (odCore 0x6103 c 6) else s
  let s := if t.allTies ≠ 0 then s.bump (odCore 0x6103 c 3) else s
  s.setNum (odCore 0x6103 c 2) t.nan

/-- TOPK_LIST_FINAL (R299): the counters, then what waited for the list. -/
def execTopkListFinal (c : Fin 16) (s : State) : Out :=
  .next (s.clocked (fun s =>
  if !(s.topk c).isOpen ∨ (s.topk c).final then s
    else
      let s := (if s.midMerge c then s else s.countFinal c).modTopk c (fun t => { t with final := true })
      match (s.seqOf c).wait, (s.seqOf c).task with
      | .tkout sd a w, some r =>
        match s.tkWrite c r.part sd a w with
        | (s, some e) => s.except c e (s.seqOf c).pc
        | (s, none) => s.resume c
      | .tkmrg _ _, _ => s.mergeTry c
      | _, _ => s))

/-- Entries of a block's data, at most `n`. -/
def blockEntries (n : Nat) (d : Bytes) : List (Nat × Nat) :=
  ((chunksOf 8 d.length d).take n).map (fun e => (fieldLe e 0 4, fieldLe e 4 4))

/-- A message of a list block reaches a core (R285): message 0 opens the block, the others add entries. -/
def State.blockMsg (s : State) (c : Fin 16) (down : Bool) (m : Msg) : State :=
  let g := m.offset / 65536 % 16
  let seq := m.offset / 256 % 256
  let src := (s.grpIndex (s.group g) m.sdev m.sstop).getD 0
  let same := fun (b : ListBlock) => b.src == src && b.down == down && b.group == g && b.seq == seq && !b.last
  let s := if m.tag = 0 then
    s.modCore c (fun k => { k with blocks := k.blocks ++ [{ src := src, down := down, group := g, seq := seq
                                                            k := fieldLe m.data 0 2, fmt := fieldLe m.data 2 1
                                                            smallest := fieldLe m.data 3 1 == 1, valid := fieldLe m.data 4 4
                                                            ties := fieldLe m.data 8 4, nan := fieldLe m.data 12 4, last := m.count }] })
  else
    s.modCore c (fun k => { k with blocks := modifyFirst same (fun b => { b with
      entries := b.entries ++ blockEntries (b.valid - b.entries.length) m.data, last := m.count }) k.blocks })
  if m.count then s.mergeTry c else s

end Sys2Proof.Machine
end

