-- ==== Sys2Proof/Machine/Plan.lean ====
section
/-! DEFINITION. The rule-book plan (R145-R147) and the builder's published counts (R148). -/

namespace Sys2Proof.Machine

/-! The plan (R145-R147). -/

/-- A set declaration from its 64 bytes. -/
def parseSet (b : Bytes) : SetDecl :=
  let f := fieldLe b 5 1
  { set := fieldLe b 0 1, source := fieldLe b 1 1, parent := fieldLe b 2 1, grid := fieldLe b 3 1 % 4, ages := fieldLe b 3 1 / 4 % 16
    sx := bitsOf (fieldLe b 4 1) 1 0, sy := bitsOf (fieldLe b 4 1) 3 2, sz := bitsOf (fieldLe b 4 1) 5 4
    decided := bitAt f 0, exportKeys := bitAt f 1, keep := bitAt f 2
    mode := bitsOf (fieldLe b 6 1) 1 0, dil := bitsOf (fieldLe b 6 1) 3 2, genRb := fieldLe b 7 1
    coreA := fieldLe b 8 2, coreB := fieldLe b 10 2, s := fieldLe b 12 1, expWin := fieldLe b 13 1 % 8, expPart := fieldLe b 14 1 % 8
    maxRows := fieldLe b 16 4, stripe := (List.range 64).map (fun j => bitsOf (fieldLe b (32 + j / 2) 1) (4 * (j % 2) + 3) (4 * (j % 2))) }

/-- Reserved values and fields of a set declaration, its limits, its core sets and its stripe table (R116, R118, R136, R145). -/
def setOk (b : Bytes) : Bool :=
  let d := parseSet b
  decide (d.set < 64 ∧ d.source < 4 ∧ fieldLe b 3 1 < 64 ∧ fieldLe b 4 1 < 64 ∧ d.sx < 3 ∧ d.sy < 3 ∧ d.sz < 3 ∧ fieldLe b 5 1 < 8 ∧
    fieldLe b 6 1 < 16 ∧ d.mode < 3 ∧ d.dil < 3 ∧ d.s < 16 ∧ fieldLe b 13 1 < 8 ∧ fieldLe b 14 1 < 8 ∧ fieldLe b 15 1 = 0 ∧
    1 ≤ d.maxRows ∧ d.maxRows ≤ 1048576) && allZero (slice b 20 12) && d.coreA &&& d.coreB == 0 &&
  d.stripe.all (fun p => decide (p < popCount d.coreA 16) && (d.coreB == 0 || decide (p < popCount d.coreB 16)))

/-- A rule-book declaration from its 96 bytes. -/
def parseRb (b : Bytes) : RbDecl :=
  let off := fun (i : Nat) =>
    let v := fieldLe b (32 + 2 * i) 2
    [signedOf 4 v, signedOf 4 (v / 16), signedOf 4 (v / 256)]
  { rb := fieldLe b 0 1, cls := fieldLe b 1 1, inp := fieldLe b 2 1, out := fieldLe b 3 1, pair := fieldLe b 5 1, policy := fieldLe b 6 1
    ctr := fieldLe b 7 1, win := fieldLe b 8 1 % 8, part := fieldLe b 9 1, threshold := fieldLe b 12 4
    offs := (List.range (Nat.min 32 (fieldLe b 4 1))).map off }

/-- Reserved values and fields of a rule-book declaration (R127, R142, R146). -/
def rbOk (b : Bytes) : Bool :=
  let k := fieldLe b 4 1
  decide (fieldLe b 1 1 < 5 ∧ 1 ≤ k ∧ k ≤ 32 ∧ fieldLe b 6 1 < 4 ∧ fieldLe b 7 1 < 64 ∧ fieldLe b 8 1 < 8 ∧ fieldLe b 9 1 < 8 ∧
    fieldLe b 10 2 = 0) && allZero (slice b 16 16) &&
  (List.range 32).all (fun i => let v := fieldLe b (32 + 2 * i) 2; decide (v < 4096) && (decide (i < k) || v == 0))

/-- The declaration of a set. -/
def setIn (l : List SetDecl) (n : Nat) : Option SetDecl := l.find? (fun d => d.set == n)

/-- The declaration of a rule book. -/
def rbIn (l : List RbDecl) (n : Nat) : Option RbDecl := l.find? (fun d => d.rb == n)

/-- A set is decided (R116). -/
def SetDecl.isDecided (d : SetDecl) : Bool := d.source == 3 || (d.source == 2 && d.decided)

/-- The sets of a rule book match its class (R127), and its offset count a FUSE's ages (R147). -/
def rbFits (sets : List SetDecl) (rbs : List RbDecl) (r : RbDecl) : Bool :=
  match setIn sets r.inp, setIn sets r.out with
  | some i, some o =>
    match r.cls with
    | 0 => r.inp == r.out
    | 1 => o.source == 2 && o.parent == r.inp
    | 2 => match rbIn rbs r.pair with
      | some p => p.cls == 1 && p.inp == r.out && p.out == r.inp
      | none => false
    | 3 => o.source == 3 && o.parent == r.inp
    | _ => i.source == 0 && o.source == 1 && o.parent == r.inp && r.offs.length == popCount i.ages 4
  | _, _ => false

/-- No number comes twice. -/
def distinctNats : List Nat → Bool
  | [] => true
  | x :: xs => !xs.contains x && distinctNats xs

/-- Every set's parent stands before it, and a GENERATIVE set's rule book is declared (R147). -/
def parentsOk (rbs : List RbDecl) : List Nat → List SetDecl → Bool
  | _, [] => true
  | seen, d :: ds => (d.source == 0 || seen.contains d.parent) && (d.source != 3 || (rbIn rbs d.genRb).isSome) &&
    parentsOk rbs (d.set :: seen) ds

/-- The plan of a model, none where the module refuses it (R147). -/
def parsePlan (b : Bytes) : Option (List SetDecl × List RbDecl) :=
  let n := fieldLe b 2 1
  let m := fieldLe b 4 2
  let sb := (List.range n).map (fun i => slice b (16 + 64 * i) 64)
  let rb := (List.range m).map (fun i => slice b (16 + 64 * n + 96 * i) 96)
  let sets := sb.map parseSet
  let rbs := rb.map parseRb
  if fieldLe b 0 2 = 1 ∧ 1 ≤ n ∧ n ≤ 64 ∧ fieldLe b 3 1 = 0 ∧ 1 ≤ m ∧ m ≤ 256 ∧ allZero (slice b 6 10) ∧
      b.length = 16 + 64 * n + 96 * m ∧ sb.all setOk ∧ rb.all rbOk ∧ distinctNats (sets.map (·.set)) ∧ distinctNats (rbs.map (·.rb)) ∧
      parentsOk rbs [] sets ∧ rbs.all (rbFits sets rbs) then some (sets, rbs)
  else none

/-! The sets of the frame in build and the counts of its work (R120, R148). -/

/-- Update the builder. -/
def State.modBooks (s : State) (f : Books → Books) : State := { s with books := f s.books }

/-- Copies a set is built for: 0, and 1 where core set B is not zero (R120). -/
def SetDecl.copies (d : SetDecl) : List Nat := if d.coreB = 0 then [0] else [0, 1]

/-- A set is built for each copy by itself: it is decided, or follows from the keys of a set that is (R116, R120; log entry 160). -/
def perCopy (sets : List SetDecl) : Nat → SetDecl → Bool
  | 0, d => d.isDecided
  | n + 1, d => d.isDecided || (d.source != 0 && (match setIn sets d.parent with
    | some p => perCopy sets n p
    | none => false))

/-- A set is built for each copy by itself (a plan has at most 64 sets). -/
def Books.perCopy (b : Books) (d : SetDecl) : Bool := Sys2Proof.Machine.perCopy b.sets 64 d

/-- The copy under which a set's rows are held: a set that is built once serves both (R120). -/
def Books.rowCopy (b : Books) (d : SetDecl) (copy : Nat) : Nat := if b.perCopy d then copy else 0

/-- The rows of a set for a copy, none while it is not final. -/
def Books.rowsOf (b : Books) (set copy : Nat) : Option SetRows :=
  match setIn b.sets set with
  | none => none
  | some d => b.rows.find? (fun r => r.set == set && r.copy == b.rowCopy d copy)

/-- A rule book is to be built for a copy: its output set serves that copy (R120). -/
def Books.wants (b : Books) (r : RbDecl) (copy : Nat) : Bool :=
  match setIn b.sets r.out with
  | some o => o.copies.contains copy
  | none => false

/-- Everything of the frame has been built, exported and sent. -/
def Books.done (b : Books) : Bool :=
  b.scanned && b.queue.isEmpty && b.rbs.all (fun r => [0, 1].all (fun c => !b.wants r c || b.built.contains (r.rb, c))) &&
  b.sets.all (fun d => d.source != 0 && !d.exportKeys || b.rows.all (fun r => r.set != d.set || r.rows.length ≤ r.sent))

/-- A time that the model does not count (log entry 22). -/
def freeCycles (key : Nat) : Nat := Config.runTime (2 ^ 40 + key) % 2 ^ 32

/-- The PER_RULEBOOK object. -/
def Books.perRb (b : Books) : Bytes :=
  (b.rbs.flatMap (fun r => ([0, 1].filter (b.wants r)).map (fun c =>
    (b.counts.find? (fun x => x.rb == r.rb && x.copy == c)).getD { rb := r.rb, copy := c }))).flatMap (fun c => natLe 4 c.entries ++ natLe 4 c.buffered ++ natLe 4 c.released ++ natLe 4 c.squashed ++
    natLe 4 c.missedCells ++ natLe 4 c.missedEntries ++ natLe 4 c.repaired ++ natLe 4 (freeCycles (512 * b.frame + c.rb * 2 + c.copy)))

/-- The per-frame counts are replaced once the frame's last build is complete (R148). -/
def State.publishBooks (s : State) : State :=
  let b := s.books
  if !b.done then s
  else
    let put := fun (s : State) (p : Nat × Nat) => s.setNum (od 0x5F00 p.1) (Od.counter (od 0x5F00 p.1) p.2)
    let l := [(1, b.frame), (2, b.firstRes), (3, b.probes), (4, freeCycles (2 ^ 50 + b.frame)), (5, b.exported), (6, b.emitted),
      (7, b.specBuilt), (8, b.specReleased), (9, b.specSquashed), (0x0A, b.squashes), (0x0B, b.missedCells),
      (0x0C, b.missedEntries), (0x0D, b.repairedCells), (0x0E, b.setFull), (0x0F, b.overflow), (0x10, b.rbDegraded),
      (0x11, b.fallbacks), (0x12, b.discarded), (0x13, b.lost)]
    (l.foldl put s).setOct (od 0x5F01 0) b.perRb

end Sys2Proof.Machine
end

