-- ==== Sys2Proof/Machine/Fabric.lean ====
section
/-! DEFINITION. Messages at their destination stop (R240-R244, R271-R275, R283), timeouts and assembly buffers (R278). The
reports and exchange blocks that the builder and Peony take are in their own files. -/

namespace Sys2Proof.Machine

/-- A message is on its way to a stop: it heads the stop's crossing queue of its class, once all its flits have come. -/
def Fabric.headed (f : Fabric) (ty : Nat) (m : Msg) : Bool := f.ready m.dstop (classOf ty) == some (ty, m)

/-- The mesh brings a message to its stop's unit, which takes it: the Bool says whether it came. It does not where others of its class head the
stop's crossing queue (R267, R268) or CD16 stands (R548). A message that the fabric does not hold comes at once (log entry 167). -/
def State.deliverMsg (s : State) (ty : Nat) (m : Msg) : State × Bool :=
  if s.power.holdAt.isSome then (s, false)
  else if !s.fab.holds ty m then (s, true)
  else
    let s := s.meshRun (fun f => f.headed ty m) meshFuel
    if s.fab.headed ty m then ({ s with fab := s.fab.take m.dstop (classOf ty) }, true) else (s, false)

/-- What befell a message on its way (R266, R273): stray credits and corrected errors are counted, and a message whose header a hop found
uncorrectable is dropped, counted, EV 0x1803. -/
def State.travelled (s : State) (h : Travel) : State × Bool :=
  let (f, n) := s.fab.strays h.stray
  let s := (List.range n).foldl (fun s _ => s.countRaise (od 0x18F0 9) 0x1807) { s with fab := f }
  let s := if h.corrected = 0 then s else s.bump (od 0x18F0 1) h.corrected
  if h.lost then (s.countRaise (od 0x18F0 2) 0x1803, false) else (s, true)

/-- A message leaves the mesh at its destination. The Bool says whether it is to be taken. -/
def State.arrive (s : State) (ty : Nat) (m : Msg) (hdr : Travel) : State × Bool :=
  match s.deliverMsg ty m with
  | (s, false) => (s, false)
  | (s, true) => s.travelled hdr

/-- The units of the stops (R20, R270): cores, and those that WIN selects at SV and SI. -/
inductive StopUnit where
  | core (c : Fin 16)
  | switch | frontEnd | peony | marigoldBridge | foxglove | securityBoot | supervisor | memory | none
  deriving DecidableEq, Repr

/-- The unit that takes a message at a stop (R20, R270). -/
def unitAt (stop win : Nat) : StopUnit :=
  match stopCore stop with
  | some c => .core c
  | _ =>
    if stop = 4 then .switch else if stop = stopFE then .frontEnd else if stop = stopPE then .peony
    else if stop = 19 then (if win = 0 then .marigoldBridge else if win = 1 then .foxglove else .none)
    else if stop = 24 then (if win = 0 then .securityBoot else if win = 1 then .supervisor else .none)
    else if 20 ≤ stop ∧ stop ≤ 23 then .memory else .none

/-- Answer a request from its destination stop: ACK, or NACK with a reason (R271, R274). -/
def State.reply (s : State) (m : Msg) (reason : Option Nat) : State :=
  s.send (if reason.isSome then 5 else 4)
    { ddev := m.sdev, dstop := m.sstop, sdev := s.device, sstop := m.dstop, part := m.part, win := m.win, gen := m.gen
      tag := m.tag, reason := reason.getD 0 }

/-- What the check bits of the data flits said (R273): a corrected bit is counted. -/
def State.flitCount (s : State) (flit : Ecc) : State :=
  if flit = .corrected then s.bump (od 0x18F0 1) else s

/-- A counted message has been applied (R244): the window's counter and, where the builder wrote a segment header, its slot. -/
def State.counted (s : State) (c : Fin 16) (m : Msg) : State :=
  let x := (s.cores[c]).pad.win m.part m.win
  let s := if bitAt x.attr 6 ∧ m.sstop = stopFE then
      s.modWin c m.part m.win (fun v => { v with segs := v.segs ++ [32 * m.offset / 32800] }) else s
  s.kadd c x.kctr 1

/-- The checks of R242 that come before the data flits' own. -/
def Pad.refuses (k : Pad) (m : Msg) (n : Nat) : Option AccErr :=
  let x := k.win m.part m.win
  match x.check (32 * m.offset) n attrRemoteWrite (some m.gen) with
  | some e => some e
  | none => none

/-- Take a WRITE or ADD at its owner. The units beside the cores hold no windows, and the spec gives no requests that they take, so a request is
REFUSED there (log entry 170). -/
def State.ownerTake (s : State) (m : Msg) (flit : Ecc) (act : State → Fin 16 → State × Option AccErr) : State :=
  match unitAt m.dstop m.win with
  | .core c =>
    let s := s.flitCount flit
    if flit = .uncorrectable ∧ ((s.cores[c]).pad.refuses m m.data.length).isNone then
      (s.bump (od 0x18F0 3)).reply m (some AccErr.ecc.reason)
    else
      match act s c with
      | (s, some e) => s.reply m (some e.reason)
      | (s, none) => (if m.count then s.counted c m else s).reply m none
  | _ => s.reply m (some AccErr.refused.reason)

/-- MSG_WRITE (R242, R244). -/
def execMsgWrite (m : Msg) (hdr : Travel) (flit : Ecc) (s : State) : Out :=
  .next (match s.arrive 0 m hdr with
    | (s, false) => s
    | (s, true) => s.ownerTake m flit (fun s c => s.padWrite c m.part m.win (32 * m.offset) m.data (some m.gen)))

/-- The operation of an ADD (R270): none for the reserved format. -/
def addOp : Nat → Option AtomOp
  | 0 => some .addInt32 | 1 => some .addFp32 | 2 => some .addInt64 | _ => none

/-- MSG_ADD (R236, R242); the reserved format is REFUSED. `ecc` is what the reads of the words added to find. -/
def execMsgAdd (m : Msg) (hdr : Travel) (flit : Ecc) (ecc : Finds) (s : State) : Out :=
  .next (match s.arrive 1 m hdr with
    | (s, false) => s
    | (s, true) => s.ownerTake m flit (fun s c =>
        match addOp m.afmt with
        | none => (s.accFault c .refused true, some .refused)
        | some o => match s.padAtomic c m.part m.win (32 * m.offset) o m.data (some m.gen) ecc with
          | (s, .error e) => (s, some e)
          | (s, .ok _) => (s, none)))

/-- Bytes that a READ of n lines finds in its window: its last line may run past SIZE (log entry 171). -/
def Win.readLen (x : Win) (off n : Nat) : Nat := if off + 128 * (n - 1) < x.size then Nat.min (128 * n) (x.size - off) else 128 * n

/-- The RDATA messages that answer a READ (R272): one per line, the last one marked. -/
def State.readAnswer (s : State) (m : Msg) (n : Nat) (d : Bytes) : State :=
  (List.range n).foldl (fun s i =>
    s.send 3 { ddev := m.sdev, dstop := m.sstop, sdev := s.device, sstop := m.dstop, part := m.part, win := m.win
               gen := m.gen, count := i + 1 == n, len := 3, offset := m.offset + 4 * i, tag := m.tag
               data := padTo 128 (slice d (128 * i) 128) }) s

/-- MSG_READ (R242, R272): the checks over every line, then one RDATA per line, or one NACK. -/
def execMsgRead (m : Msg) (hdr : Travel) (ecc : Finds) (s : State) : Out :=
  .next (match s.arrive 2 m hdr with
    | (s, false) => s
    | (s, true) =>
      match unitAt m.dstop m.win with
      | .core c =>
        let n := m.len % 4 + 1
        let k := ((s.cores[c]).pad.win m.part m.win).readLen (32 * m.offset) n
        match s.padRead c m.part m.win (32 * m.offset) k (some m.gen) ecc with
        | (s, .error e) => s.reply m (some e.reason)
        | (s, .ok d) => s.readAnswer m n d
      | _ => s.reply m (some AccErr.refused.reason))

/-- The request a response answers. -/
def State.reqOf (s : State) (stop tag : Nat) : Option Req := s.fab.reqs.find? (fun q => q.stop == stop && q.tag == tag)

/-- A response finds no request: it came late (R275), is dropped and counted. `last`: no more of the answer comes. -/
def State.lateResponse (s : State) (stop tag : Nat) (last : Bool := true) : State :=
  let s := s.bump (od 0x18F0 7)
  if last then { s with fab := { s.fab with late := removeFirst (fun x => x == (stop, tag)) s.fab.late } } else s

/-- A sequencer that waits to close a window looks again. -/
def State.recheck (s : State) (q : Req) : State :=
  match q.core with
  | some c => s.closeIfFree (coreNo c)
  | none => s

/-- An item of the builder is lost (R590): once per item, whichever of its messages failed. The counts already published follow. -/
def State.exportLost (s : State) (item : Nat) : State :=
  if s.books.lostItems.contains item then s
  else
    let b := s.books
    let s := { s with books := { b with lostItems := item :: b.lostItems, lost := b.lost + 1, rbDegraded := setBit b.rbDegraded 1 } }
    ((s.causeComp .books 1).raiseComp 0x5007).publishBooks

/-- The task that a failed request belongs to takes an exception; what a failed READ was for does not go on. -/
def State.reqExcept (s : State) (q : Req) (code : Nat) : State :=
  match q.core, q.task with
  | some c, some r =>
    let s := s.exceptRun (coreNo c) r code q.pc
    if q.type = 2 then s.failGet (coreNo c) r q.pc else s
  | _, _ => s

/-- A request ends unanswered (R275, R590): a READ raises WINDOW, a builder's item is lost, anything else just completes. -/
def State.unanswered (s : State) (q : Req) : State :=
  let s := if q.stop = stopFE then s.exportLost q.pc else s
  if q.type = 2 then s.reqExcept q 3 else s

/-- A line of a READ's data reaches the unit that asked for it (R272). -/
def State.getData (s : State) (q : Req) (d : Bytes) (last : Bool) : State :=
  match q.core, q.task with
  | some c, some r => s.modCore (coreNo c) (fun k => { k with
      gets := modifyFirst (fun g => g.run == r && g.pc == q.pc && g.owner == q.owner && g.win == q.win && g.off == q.off)
        (fun g => { g with data := g.data ++ d, done := last }) k.gets })
  | _, _ => s

/-- MSG_RDATA (R272): the last line completes the READ. -/
def execMsgRdata (m : Msg) (hdr : Travel) (s : State) : Out :=
  .next (match s.arrive 3 m hdr with
    | (s, false) => s
    | (s, true) =>
      match s.reqOf m.dstop m.tag with
      | none => s.lateResponse m.dstop m.tag m.count
      | some q =>
        let s := s.getData q m.data m.count
        if m.count then (s.reqDone m.dstop m.tag).recheck q else s)

/-- MSG_ACK (R271, R275). -/
def execMsgAck (m : Msg) (hdr : Travel) (s : State) : Out :=
  .next (match s.arrive 4 m hdr with
    | (s, false) => s
    | (s, true) =>
      match s.reqOf m.dstop m.tag with
      | none => s.lateResponse m.dstop m.tag
      | some q => (s.reqDone m.dstop m.tag).recheck q)

/-- What a NACK does at the sender (R242, R243, R590). -/
def State.nacked (s : State) (q : Req) (reason : Nat) : State :=
  match reason with
  | 1 =>
    let s := match q.core with
      | some c => s.bump (odCore 0x7100 (coreNo c) 7)
      | none => s
    s.unanswered q
  | 2 => (if q.stop = stopFE then s.exportLost q.pc else s).reqExcept q 3
  | 3 => s.reqExcept q 8
  | 4 => s.reqExcept q 7
  | _ => s.unanswered q

/-- MSG_NACK (R274, R275): a reserved reason is dropped and counted. -/
def execMsgNack (m : Msg) (hdr : Travel) (s : State) : Out :=
  .next (match s.arrive 5 m hdr with
    | (s, false) => s
    | (s, true) =>
      if m.reason = 0 ∨ 6 < m.reason then s.countRaise (od 0x18F0 4) 0x1808
      else match s.reqOf m.dstop m.tag with
        | none => s.lateResponse m.dstop m.tag
        | some q => ((s.reqDone m.dstop m.tag).nacked q m.reason).recheck q)

/-- MSG_CREDIT (R241): credits for the block at the stop, the builder with the front end's export or Peony. -/
def execMsgCredit (m : Msg) (hdr : Travel) (s : State) : Out :=
  .next (match s.arrive 6 m hdr with
    | (s, false) => s
    | (s, true) =>
      match stopCore m.sstop with
      | none => s
      | some c =>
        let grant := fun (l : List Credit) => grantCredit l c.val m.part m.win m.gen m.tag
        if m.dstop = stopFE then s.modBooks (fun b => { b with credits := grant b.credits })
        else if m.dstop = stopPE then { s with peony := { s.peony with credits := grant s.peony.credits } }
        else s)

/-- MSG_TKM (R285, R286). -/
def execMsgTkm (m : Msg) (hdr : Travel) (s : State) : Out :=
  .next (match s.arrive 10 m hdr with
    | (s, false) => s
    | (s, true) => match stopCore m.dstop with
      | none => s
      | some c => s.blockMsg c false m)

/-- MSG_TKM_FINAL (R285). -/
def execMsgTkmFinal (m : Msg) (hdr : Travel) (s : State) : Out :=
  .next (match s.arrive 13 m hdr with
    | (s, false) => s
    | (s, true) => match stopCore m.dstop with
      | none => s
      | some c => s.blockMsg c true m)

/-- Release one member (R283): its release counter, its waiting BAR, and BAR_RELEASE to its children. -/
def State.release (s : State) (c : Fin 16) (g : Nat) : State :=
  let e := s.group g
  let i := (s.grpIndex e s.device (coreStop c.val)).getD 0
  let s := (grpChildren e i).foldl (fun s j => s.sendColl 12 (coreStop c.val) g 0 (s.grpMember e j) 0 false []) s
  (s.kadd c (e.getD 13 0).toNat 1).barTry c

/-- MSG_BAR_ARRIVE (R283): the root counts the arrival; at the member count it subtracts that count in the same cycle and
releases, itself included. -/
def execMsgBarArrive (m : Msg) (hdr : Travel) (s : State) : Out :=
  .next (match s.arrive 11 m hdr with
    | (s, false) => s
    | (s, true) =>
      match stopCore m.dstop with
      | none => s
      | some c =>
        let g := m.offset / 65536 % 16
        let e := s.group g
        let k := (e.getD 12 0).toNat
        let n := grpSize e
        if !grpValid e then s
        else if n ≤ s.kget c k + 1 then (s.kset c k (s.kget c k + 1 - n)).release c g
        else s.kadd c k 1)

/-- MSG_BAR_RELEASE (R283). -/
def execMsgBarRelease (m : Msg) (hdr : Travel) (s : State) : Out :=
  .next (match s.arrive 12 m hdr with
    | (s, false) => s
    | (s, true) =>
      match stopCore m.dstop with
      | none => s
      | some c => if grpValid (s.group (m.offset / 65536 % 16)) then s.release c (m.offset / 65536 % 16) else s)

/-- MSG_RESERVED_TYPE (R271): dropped, counted, EV 0x1808. -/
def execMsgReservedType (m : Msg) (hdr : Travel) (s : State) : Out :=
  let ty := if s.fab.holds 15 m then 15 else 14
  .next (match s.arrive ty m hdr with
    | (s, false) => s
    | (s, true) => s.countRaise (od 0x18F0 4) 0x1808)

/-- The timeout of a request in ns (R274). -/
def State.reqLimit (s : State) (q : Req) : Nat :=
  1000 * (if q.ddev = s.device then s.num (od 0x1800 1) else s.num (od 0x1800 2))

/-- REQUEST_TIMEOUT (R274, R275): the request has waited its limit without an answer. -/
def execRequestTimeout (stop : Fin 25) (tag : Nat) (t : Nat) (s : State) : Out :=
  .next (s.clocked (fun s =>
  let s := s.at t
  match s.reqOf stop.val tag with
    | none => s
    | some q =>
      if s.frame.now < q.since + s.reqLimit q then s
      else
        let s := s.reqDone stop.val tag
        let s := { s with fab := { s.fab with late := s.fab.late ++ [(stop.val, tag)] } }
        let s := s.bump (od 0x18F0 (if q.ddev = s.device then 5 else 6))
        ((s.raiseIng 0x1804 0xFF q.ddev).unanswered q).recheck q))

/-- PEER_ASSEMBLY_CLOSE (R278): the buffer has been open for PEER_FLUSH_TIME, in CD35 cycles of 2 ns, and closes at that instant. -/
def execPeerAssemblyClose (dev : Nat) (cls : Fin 4) (s : State) : Out :=
  let s := s.quiet
  .next (match s.buffer dev cls.val with
    | none => s
    | some a => ((s.at (a.opened + 2 * s.num (od 0x1800 3))).closeAssembly dev cls.val).swTake)

end Sys2Proof.Machine
end

