-- ==== Sys2Proof/Machine/Books.lean ====
section
/-! DEFINITION. The rule-book builder and Larkspur (R112, R113, R116-R148, R590). -/

namespace Sys2Proof.Machine

/-! Sets and rows (R116-R121). -/

/-- The physical core of an owner position of a set for a copy (R117). -/
def State.ownerCore (s : State) (d : SetDecl) (copy pos : Nat) : Fin 16 :=
  coreNo (s.sched.phys ((bitList (if copy = 0 then d.coreA else d.coreB) 16).getD pos 0))

/-- The owner position of a cell (R118). -/
def SetDecl.owner (d : SetDecl) (x : Int) : Nat := d.stripe.getD (Int.fdiv x (2 ^ d.s : Nat) % 64).toNat 0

/-- Give cells their rows per owner in the order given (R119, R121); `room` is what set memory still holds. Answers the rows and
how many cells were left out. -/
def SetDecl.number (d : SetDecl) (room : Nat) (cells : List RowRec) : List RowRec × Nat :=
  let step := fun (a : List RowRec × Nat × List (Nat × Nat) × Nat) (c : RowRec) =>
    let (out, left, used, n) := a
    let o := d.owner c.x
    let r := Sparse.get (fun _ => 0) used o
    if d.maxRows ≤ r ∨ room ≤ n then (out, left + 1, used, n)
    else (out ++ [{ c with idx := 1048576 * o + r }], left, Sparse.put (fun _ => 0) used o (r + 1), n + 1)
  let (out, left, _, _) := cells.foldl step ([], 0, [], 0)
  (out, left)

/-- Keys that set memory holds: derived sets of the frame and kept keys (R121). The predicted cells of a speculative build are not
counted (DESIGN CHOICE, log entry 158). -/
def Books.held (b : Books) : Nat :=
  ((b.rows.map (fun r => if ((setIn b.sets r.set).map (·.source)).getD 0 = 0 then 0 else r.rows.length)) ++
    b.kept.map (fun k => k.cells.length)).foldl (· + ·) 0

/-- Count cells left out (R121). -/
def State.setFull (s : State) (left : Nat) : State :=
  if left = 0 then s
  else
    let s := s.modBooks (fun b => { b with setFull := b.setFull + left, rbDegraded := setBit b.rbDegraded 0 })
    (s.causeComp .books 0).raiseComp 0x5002

/-- A set becomes final with its cells in order. -/
def State.finishSet (s : State) (d : SetDecl) (copy : Nat) (cells : List RowRec) : State :=
  let room := if d.source = 0 then 2 ^ 30 else 2097152 - s.books.held
  let (rows, left) := d.number room cells
  (s.modBooks (fun b => { b with rows := b.rows ++ [{ set := d.set, copy := copy, rows := rows }] })).setFull left

/-- Indices are equal. -/
def RowRec.same (a b : RowRec) : Bool := a.x == b.x && a.y == b.y && a.z == b.z

/-- Number cells in order, for provisional rows. -/
def provisional (l : List RowRec) : List RowRec := (l.zip (List.range l.length)).map (fun y => { y.1 with idx := y.2 })

/-- Distinct cells in order of first appearance. -/
def distinctCells (l : List RowRec) : List RowRec :=
  l.foldl (fun a c => if a.any (fun y => y.same c) then a else a ++ [c]) []

/-- Rows in ascending global row index (R119). -/
def byIndex (l : List RowRec) : List RowRec := sortBy (fun a b => decide (a.idx < b.idx)) l

/-- The cells of a CELLS set in scan order (R116, R119, R124). -/
def State.scanCells (s : State) (d : SetDecl) : List RowRec :=
  let t := s.cells
  t.livePlaces.filterMap (fun (p : Nat × Entry) =>
    let age := (t.counter + 511 - p.2.tag) % 256
    if p.2.tag ≠ t.counter ∧ keyGrid p.2.key = d.grid ∧ age ≤ 3 ∧ age ≤ s.num (od 0x4000 4) ∧ bitAt d.ages age then
      some { x := keyX p.2.key, y := keyY p.2.key, z := keyZ p.2.key, age := age, place := p.1 }
    else none)

/-- A cell shifted right by a set's strides (R116). -/
def SetDecl.shrink (d : SetDecl) (c : RowRec) : RowRec :=
  { x := Int.fdiv c.x (2 ^ d.sx : Nat), y := Int.fdiv c.y (2 ^ d.sy : Nat), z := Int.fdiv c.z (2 ^ d.sz : Nat) }

/-- The cell (c << σ) + dj (R116, R127). -/
def SetDecl.grow (d : SetDecl) (c : RowRec) (o : List Int) : RowRec :=
  { x := c.x * (2 ^ d.sx : Nat) + o.getD 0 0, y := c.y * (2 ^ d.sy : Nat) + o.getD 1 0, z := c.z * (2 ^ d.sz : Nat) + o.getD 2 0 }

/-- The cell c + dj (R127). -/
def RowRec.plus (c : RowRec) (o : List Int) : RowRec := { x := c.x + o.getD 0 0, y := c.y + o.getD 1 0, z := c.z + o.getD 2 0 }

/-- The offsets of a GENERATIVE set's children. -/
def Books.genOffs (b : Books) (d : SetDecl) : List (List Int) := ((rbIn b.rbs d.genRb).map (·.offs)).getD []

/-- Build a set that follows from the keys alone, once its parent is final (R116, R124). -/
def State.geometricSet (s : State) (copy : Nat) (d : SetDecl) : State :=
  if d.isDecided ∨ (s.books.rowsOf d.set copy).isSome ∨ !d.copies.contains copy then s
  else if d.source = 0 then s.finishSet d 0 (s.scanCells d)
  else match s.books.rowsOf d.parent copy with
    | none => s
    | some p =>
      let cells := byIndex p.rows
      let img := if d.source = 1 then cells.map (fun (c : RowRec) => ({ x := c.x, y := c.y, z := c.z } : RowRec)) else cells.map d.shrink
      s.finishSet d (s.books.rowCopy d copy) (distinctCells img)

/-- Build every set that follows from the keys alone and whose parent is final for a copy, in plan order (R116, R124). -/
def State.geometricSets (s : State) (copy : Nat) : State := s.books.sets.foldl (fun s d => s.geometricSet copy d) s

/-- The numbering scan of the frame computed, before the builder's first work on it (R64, R124): points received before E have been
inserted by then. -/
def State.scan (s : State) : State :=
  if s.books.scanned ∨ s.frame.comp.dropped then s
  else ({ s with books := { s.books with scanned := true } } : State).geometricSets 0

/-! Decided sets (R116, R135, R140). -/

/-- The row count of an owner in a set. -/
def SetRows.count (r : SetRows) (owner : Nat) : Nat := (r.rows.filter (fun c => c.idx / 1048576 == owner)).length

/-- Mask width of a decided set's reports (R135). -/
def Books.width (b : Books) (d : SetDecl) : Nat := if d.source = 2 then 1 else (b.genOffs d).length

/-- The mask of a parent row, from its owner's report. -/
def Books.maskOf (b : Books) (d : SetDecl) (copy : Nat) (c : RowRec) : Nat :=
  match b.reports.find? (fun r => r.set == d.set && r.copy == copy && r.owner == c.idx / 1048576) with
  | some r => r.masks.getD (c.idx % 1048576) 0
  | none => 0

/-- The true cells of a decided set, in order of first appearance (R116, R119). -/
def Books.trueCells (b : Books) (d : SetDecl) (copy : Nat) (parent : List RowRec) : List RowRec :=
  distinctCells ((byIndex parent).flatMap (fun c =>
    let m := b.maskOf d copy c
    if d.source = 2 then (if m % 2 = 1 then [d.shrink c] else [])
    else ((b.genOffs d).zip (List.range 32)).filterMap (fun o => if bitAt m o.2 then some (d.grow c o.1) else none)))

/-- Owner positions of a set for a copy. -/
def SetDecl.owners (d : SetDecl) (copy : Nat) : Nat := popCount (if copy = 0 then d.coreA else d.coreB) 16

/-! Entries (R127-R131). -/

/-- Row of a cell in a list, by its indices and, where both sides carry one, its age. -/
def findRow (l : List RowRec) (c : RowRec) (age : Option Nat) : Option RowRec :=
  l.find? (fun y => y.same c && (match age with
    | some a => y.age == a
    | none => true))

/-- The rows of a cell: one for each age that a CELLS set holds it at. -/
def rowsAt (l : List RowRec) (c : RowRec) (age : Option Nat) : List RowRec :=
  l.filter (fun y => y.same c && (match age with
    | some a => y.age == a
    | none => true))

/-- The entries of a rule book over given output rows (R127, R128); `mask` tells which children a parent row has. An INVERSE rule
book has none of its own (`Books.inverseOf`). -/
def entriesFor (r : RbDecl) (o i : SetDecl) (outs ins : List RowRec) (mask : RowRec → Nat) : List RbEntry :=
  let js := r.offs.zip (List.range 32)
  match r.cls with
  | 0 => outs.flatMap (fun c => js.flatMap (fun j =>
      (rowsAt ins (c.plus j.1) (if i.source = 0 then some c.age else none)).map (fun y => { j := j.2, out := c.idx, inp := y.idx })))
  | 1 => outs.flatMap (fun c => js.flatMap (fun j => (rowsAt ins (o.grow c j.1) none).map (fun y => { j := j.2, out := c.idx, inp := y.idx })))
  | 3 => (byIndex ins).flatMap (fun c => js.filterMap (fun j =>
      if bitAt (mask c) j.2 then (findRow outs (o.grow c j.1) none).map (fun y => { j := j.2, out := y.idx, inp := c.idx }) else none))
  | 4 => (byIndex ins).filterMap (fun c => (findRow outs c none).map (fun y => { j := c.age, out := y.idx, inp := c.idx }))
  | _ => []

/-- The entries of the paired rule book with their index fields exchanged (R129). -/
def Books.inverseOf (b : Books) (r : RbDecl) (copy : Nat) : List RbEntry :=
  ((b.entries.find? (fun e => e.1 == r.pair && e.2.1 == copy)).map (fun e => e.2.2.map (fun x =>
    ({ x with out := x.inp, inp := x.out } : RbEntry)))).getD []

/-- The cells that a build probes for, with the age of each where its set is a CELLS set (R123, R127). -/
def probedCells (r : RbDecl) (o i : SetDecl) (outs : List RowRec) : List RowRec :=
  match r.cls with
  | 0 => outs.flatMap (fun c => r.offs.map (fun j => { c.plus j with age := if i.source = 0 then c.age else 0 }))
  | 1 => outs.flatMap (fun c => r.offs.map (fun j => o.grow c j))
  | _ => []

/-- Entries in the order of a segment: output row, then input index (R132). -/
def entryOrder (a b : RbEntry) : Bool := decide (a.out < b.out) || (a.out == b.out && decide (a.inp < b.inp))

/-- Segments of one owner from entries, offset by offset (R132). -/
def Books.segs (_b : Books) (rb copy owner epoch flags : Nat) (l : List RbEntry) : List Segment :=
  let mine := l.filter (fun e => e.out / 1048576 == owner)
  (List.range 32).flatMap (fun j =>
    let ej := sortBy entryOrder (mine.filter (fun e => e.j == j))
    (chunksOf 4096 ej.length ej).map (fun es => { rb := rb, copy := copy, owner := owner, j := j, epoch := epoch, flags := flags, entries := es }))

/-- Number an owner's segments from 0; the final one is LAST, an empty one where there is none (R132, R134; log entry 35). An empty LAST
segment carries offset 0, epoch 0 and the flag LAST alone (DESIGN CHOICE, log entry 157). -/
def closeSegs (rb copy owner rows : Nat) (l : List Segment) : List Segment :=
  let l := if l.isEmpty then [{ rb := rb, copy := copy, owner := owner }] else l
  let n := l.length
  (l.zip (List.range n)).map (fun y =>
    if y.2 + 1 = n then { y.1 with seq := y.2, flags := setBit y.1.flags 0, total := n, rows := rows } else { y.1 with seq := y.2 })

/-- Update the counts of a rule book and copy (OD 0x5F01). -/
def Books.modCount (b : Books) (rb copy : Nat) (f : RbCount → RbCount) : Books :=
  if b.counts.any (fun c => c.rb == rb && c.copy == copy) then
    { b with counts := modifyFirst (fun c => c.rb == rb && c.copy == copy) f b.counts }
  else { b with counts := b.counts ++ [f { rb := rb, copy := copy }] }

/-- Queue the segments of a build: `parts` are lists of entries with their epoch and flags, in the order of sending. -/
def Books.emit (b : Books) (r : RbDecl) (o : SetDecl) (copy : Nat) (outs : List RowRec) (parts : List (Nat × Nat × List RbEntry)) : Books :=
  let segs := (List.range (o.owners copy)).flatMap (fun p =>
    closeSegs r.rb copy p ((outs.filter (fun c => c.idx / 1048576 == p)).length)
      (parts.flatMap (fun x => b.segs r.rb copy p x.1 x.2.1 x.2.2)))
  let all := parts.flatMap (fun x => x.2.2)
  let b := { b with built := b.built ++ [(r.rb, copy)], queue := b.queue ++ segs
                    entries := b.entries ++ [(r.rb, copy, all)] }
  b.modCount r.rb copy (fun c => { c with entries := c.entries + all.length })

/-- A build may start: not yet built, its sets final and, for INVERSE, its pair complete (R125, R129). -/
def Books.ready (b : Books) (r : RbDecl) (copy : Nat) : Bool :=
  b.wants r copy && !b.built.contains (r.rb, copy) && (b.rowsOf r.inp copy).isSome && (b.rowsOf r.out copy).isSome &&
  (r.cls != 2 || b.built.contains (r.pair, copy))

/-- A policy repairs its missed cells (R142): the frame becomes INVALID where FAULT_ABOVE is exceeded. -/
def RbDecl.repairs (r : RbDecl) (missed : Nat) : Bool :=
  match r.policy with
  | 0 => false
  | 1 => true
  | 2 => decide (missed ≤ r.threshold)
  | _ => r.part == 0

/-- The missed cells of a decided set and copy (R140). -/
def Books.missedOf (b : Books) (set copy : Nat) : List RowRec :=
  ((b.missed.find? (fun m => m.1 == set && m.2.1 == copy)).map (fun m => m.2.2)).getD []

/-- The grid at the root of a set's ancestors. -/
def Books.rootGrid (b : Books) : Nat → Nat → Nat
  | 0, _ => 0
  | n + 1, set => match setIn b.sets set with
    | some d => if d.source = 0 then d.grid else b.rootGrid n d.parent
    | none => 0

/-- The bank that a probe of a cell of a set reaches: its bucket's low five bits (R123). The slot bits are those of the probed age in a
CELLS set and zero in set memory. -/
def State.probeBank (s : State) (i : SetDecl) (c : RowRec) : Nat :=
  let slot := if i.source = 0 then (s.cells.counter + 511 - c.age) % 4 else 0
  s.bucket (cellKey (s.books.rootGrid 64 i.set) slot c.x c.y c.z) % 32

/-- Count the probes of a piece of work; EV 0x5004 where they are 256 or more and one bank receives more than 1/16 of them (R123; the
window over which the proviso is judged is the model's choice, log entry 161). -/
def State.countProbes (s : State) (i : SetDecl) (l : List RowRec) : State :=
  let banks := l.map (s.probeBank i)
  let s := s.modBooks (fun b => { b with probes := b.probes + l.length })
  if 256 ≤ l.length ∧ (List.range 32).any (fun k => decide (l.length < 16 * (banks.filter (· == k)).length)) then s.raiseComp 0x5004 else s

/-- Count missed entries of a rule book and copy (R142). -/
def Books.missEntries (b : Books) (rb copy n : Nat) : Books :=
  { b.modCount rb copy (fun c => { c with missedEntries := c.missedEntries + n }) with missedEntries := b.missedEntries + n }

/-- Build a rule book that is not speculative (R125-R130). Where its output set was decided with misses, the entries of the repaired
rows go in segments flagged MISS, and only under a policy that repairs (R142). -/
def State.buildBook (s : State) (r : RbDecl) (copy : Nat) : State :=
  let b := s.books
  match setIn b.sets r.out, setIn b.sets r.inp, b.rowsOf r.out copy, b.rowsOf r.inp copy with
  | some o, some i, some outs, some ins =>
    let es := if r.cls = 2 then b.inverseOf r copy else entriesFor r o i (byIndex outs.rows) ins.rows (b.maskOf o copy)
    let fixed := (outs.rows.filter (·.repaired)).map (·.idx)
    let missed := b.missedOf r.out copy
    let (late, first) := es.partition (fun e => fixed.contains e.out)
    let parts := (0, if r.cls = 4 then 8 else 0, first) :: (if r.repairs missed.length then [(0, 4, late)] else [])
    let lostBy := if r.cls ≠ 2 then 0 else match rbIn b.rbs r.pair with
      | some p => (entriesFor p i o ins.rows (provisional missed) (fun _ => 0)).length
      | none => 0
    let s := if copy = 0 ∨ b.perCopy o ∨ b.perCopy i then s.countProbes i (probedCells r o i outs.rows) else s
    s.modBooks (fun b => (b.emit r o copy outs.rows parts).missEntries r.rb copy lostBy)
  | _, _, _, _ => s

/-- RULEBOOK_BUILD (R125): in plan order among those that may start. At E + L the builder's remaining work is dropped (R104). -/
def execRulebookBuild (rb : Fin 256) (copy : Fin 2) (s : State) : Out :=
  .next (s.clocked (fun s =>
  let s := s.scan
  if s.frame.comp.dropped then s else match s.books.rbs.find? (fun r => s.books.ready r copy.val) with
    | some r => if r.rb = rb.val then (s.buildBook r copy.val).publishBooks else s
    | none => s))

/-! Exports (R112, R113, R124, R133, R145). -/

/-- A new item of the builder: its number. -/
def State.newItem (s : State) : State := s.modBooks (fun b => { b with nextItem := b.nextItem + 1 })

/-- Write bytes to a window of a core as WRITE messages from the FE stop, all of one item; only the last one counts where `count`. -/
def State.feWrite (s : State) (c : Fin 16) (part win gen off : Nat) (d : Bytes) (count : Bool) : State :=
  (rowMsgs off d).foldl (fun s y =>
    s.request 0 { ddev := s.device, dstop := coreStop c.val, sdev := s.device, sstop := stopFE, part := part, win := win, gen := gen
                  count := count && y.2.2, len := ceilDiv y.2.1.length 32 - 1, offset := y.1 / 32, data := padTo (ceilDiv y.2.1.length 32 * 32) y.2.1 }
      none none s.books.nextItem) s

/-- The credits for a window. -/
def Books.credit (b : Books) (core part win : Nat) : Option Credit := creditOf b.credits core part win

/-- The 32-byte cell row (R112). -/
def State.cellRow (s : State) (r : RowRec) : Bytes :=
  match s.cells.live r.place with
  | none => zeros 32
  | some e =>
    let mean := fun (n : Nat) => natLe 1 (n / Nat.max 1 e.count)
    natLe 6 e.key ++ natLe 1 r.age ++
    natLe 1 (128 + (if e.extrap then 64 else 0) + (if e.sat then 32 else 0) + e.phase % 2 * 16) ++ natLe 2 e.count ++
    mean e.sdx ++ mean e.sdy ++ mean e.sdz ++ mean e.sint ++ natLe 2 (unsignedOf 16 e.zmin) ++ natLe 2 (unsignedOf 16 e.zmax) ++
    natLe 3 e.tfirst ++ natLe 1 e.sensors ++ natLe 1 e.returns ++ natLe 3 (s.bevTarget e.key) ++ zeros 6

/-- The 8-byte key record of a derived set's row (R145). -/
def keyRecord (d : SetDecl) (grid : Nat) (r : RowRec) : Bytes :=
  natLe 6 (cellKey grid 0 r.x r.y r.z) ++ natLe 1 d.set ++ natLe 1 (if r.repaired then 1 else 0)

/-- The key record of a row of a set and copy was lost at its owner (R590). -/
def Books.keyLost (b : Books) (set copy idx : Nat) : Bool :=
  b.keyItems.any (fun k => k.2.1 == set && k.2.2.1 == copy && k.2.2.2 == idx && b.lostItems.contains k.1)

/-- The 32-byte word of an export window that holds a row's key record at byte 8 × (row mod 4), since a WRITE carries whole words (R270):
`rows` are the rows exported so far with the row itself first; a record of none of them, or one that was lost and is not sent again
(R590), is zero (log entry 147). -/
def Books.keyWord (b : Books) (d : SetDecl) (copy : Nat) (rows : List RowRec) (r : RowRec) : Bytes :=
  (List.range 4).flatMap (fun k => match rows.find? (fun q => q.idx == r.idx / 4 * 4 + k) with
    | some q => if q.idx != r.idx && b.keyLost d.set copy q.idx then zeros 8 else keyRecord d (b.rootGrid 64 d.set) q
    | none => zeros 8)

/-- The credits that a row's export to its owner in a copy's core set goes under (R241). -/
def State.exportCredit (s : State) (d : SetDecl) (copy : Nat) (r : RowRec) : Option Credit :=
  s.books.credit (s.ownerCore d copy (r.idx / 1048576)).val d.expPart d.expWin

/-- The builder holds credits of every window that a row goes to; without them it is held back (R124, R241; log entry 36). -/
def State.mayExport (s : State) (d : SetDecl) (copies : List Nat) (r : RowRec) : Bool :=
  copies.all (fun copy => (s.exportCredit d copy r).isSome)

/-- Send one row of a set to its owner in each core set that the rows serve; `data` is what each copy receives. -/
def State.exportRow (s : State) (d : SetDecl) (copies : List Nat) (r : RowRec) (size : Nat) (data : Nat → Bytes) : State :=
  copies.foldl (fun s copy =>
    let c := s.ownerCore d copy (r.idx / 1048576)
    s.newItem.feWrite c d.expPart d.expWin ((s.exportCredit d copy r).getD {}).gen (r.idx % 1048576 * size) (data copy) false) s

/-- The next row that has not been exported, of any copy held. -/
def Books.nextExport (b : Books) (set : Nat) : Option (SetRows × RowRec) :=
  b.rows.findSome? (fun x => if x.set = set then (x.rows[x.sent]?).map (fun r => (x, r)) else none)

/-- Count an exported row. -/
def Books.sentOne (b : Books) (x : SetRows) : Books :=
  { b with rows := modifyFirst (fun y => y.set == x.set && y.copy == x.copy) (fun y => { y with sent := y.sent + 1 }) b.rows
           exported := b.exported + 1 }

/-- Copy an exported row to the snapshot area (R113, R349). -/
def State.snapRow (s : State) (row : Bytes) : State :=
  if !s.cells.snapBusy ∨ s.cells.snapFrame ≠ s.books.frame then s
  else
    let s := s.dramPut (snapArea + s.cells.snapLen) row
    { s with cells := { s.cells with snapLen := s.cells.snapLen + row.length } }

/-- The copy to the snapshot area is complete: the builder exports no further row of the frame (R113). -/
def State.snapOver (s : State) : Bool :=
  s.cells.snapBusy && (s.frame.comp.dropped || s.books.frame != s.cells.snapFrame ||
    (s.books.scanned && s.books.sets.all (fun d => d.source != 0 || s.books.rows.all (fun r => r.set != d.set || r.rows.length ≤ r.sent))))

/-- The snapshot is published (R113). -/
def State.snapPublish (s : State) : State :=
  { s with cells := { s.cells with snapBusy := false, snapServed := s.cells.snapLen } }.setNum (od 0x4F10 2) s.cells.snapFrame

/-- SNAPSHOT_COMPLETE (R113; log entry 188). -/
def execSnapshotComplete (s : State) : Out := .next (s.clocked (fun s => if s.snapOver then s.snapPublish else s))

/-- CELL_ROW_EXPORT (R112, R113, R124): the set's next row goes to its owner's export window. -/
def execCellRowExport (set : Fin 64) (s : State) : Out :=
  .next (s.clocked (fun s =>
  let s := s.scan
  if s.frame.comp.dropped then s else match setIn s.books.sets set.val, s.books.nextExport set.val with
    | some d, some (x, r) =>
      if d.source ≠ 0 ∨ !s.mayExport d d.copies r then s
      else
        let row := s.cellRow r
        ((((s.exportRow d d.copies r 32 (fun _ => row)).modBooks (fun b => b.sentOne x)).snapRow row)).publishBooks
    | _, _ => s))

/-- KEY_RECORD_EXPORT (R145): the next row of a derived set with EXPORT_KEYS. -/
def execKeyRecordExport (set : Fin 64) (s : State) : Out :=
  .next (s.clocked (fun s =>
  let s := s.scan
  if s.frame.comp.dropped then s else match setIn s.books.sets set.val, s.books.nextExport set.val with
    | some d, some (x, r) =>
      let copies := if s.books.perCopy d then [x.copy] else d.copies
      if d.source = 0 ∨ !d.exportKeys ∨ !s.mayExport d copies r then s
      else
        let word := fun (copy : Nat) => s.books.keyWord d copy (r :: x.rows.take x.sent) r
        let items := (copies.zip (List.range copies.length)).map (fun y => (s.books.nextItem + 1 + y.2, d.set, y.1, r.idx))
        ((s.exportRow d copies r 8 word).modBooks (fun b => { b.sentOne x with keyItems := b.keyItems ++ items })).publishBooks
    | _, _ => s))

/-- The 8-byte entry (R131). -/
def RbEntry.word (e : RbEntry) (epoch flags : Nat) : Bytes :=
  natLe 8 (e.inp % 2 ^ 24 + 2 ^ 24 * (e.out % 2 ^ 24) + 2 ^ 48 * (e.j % 32) + (if bitAt flags 3 then 2 ^ 53 else 0) +
    (if bitAt flags 2 then 2 ^ 54 else 0) + (if bitAt flags 1 then 2 ^ 55 else 0) + 2 ^ 56 * (epoch % 256))

/-- Body of a segment (R132). -/
def Segment.body (g : Segment) : Bytes :=
  let d := g.entries.flatMap (fun e => e.word g.epoch g.flags)
  padTo (ceilDiv d.length 32 * 32) d

/-- Header of a segment (R132). -/
def Segment.header (g : Segment) (frame : Nat) : Bytes :=
  natLe 1 g.rb ++ natLe 1 g.j ++ natLe 1 g.epoch ++ natLe 1 g.flags ++ natLe 2 g.entries.length ++ natLe 1 g.owner ++ natLe 1 g.copy ++
  natLe 4 frame ++ natLe 4 g.seq ++ natLe 4 g.total ++ natLe 4 (crc32c g.body) ++ natLe 4 g.rows ++ zeros 4

/-- SEGMENT_WRITE (R133, R210): the oldest waiting segment of a rule book, copy and owner, under a credit of its ring, into the slot that its
sequence names, once that has come back: the body, then the header, which alone counts. -/
def execSegmentWrite (rb : Fin 256) (copy : Fin 2) (owner : Fin 16) (s : State) : Out :=
  .next (s.clocked (fun s =>
  let s := s.scan
  let mine := fun (g : Segment) => g.rb == rb.val && g.copy == copy.val && g.owner == owner.val
  if s.frame.comp.dropped then s else match s.books.queue.find? mine, rbIn s.books.rbs rb.val with
    | some g, some r =>
      match setIn s.books.sets r.out with
      | none => s
      | some o =>
        let c := s.ownerCore o copy.val owner.val
        match s.books.credit c.val r.part r.win with
        | none => s
        | some x =>
          let slot := g.seq % Nat.max 1 ((s.cores[c]).pad.win r.part r.win).slots
          if x.n = 0 ∨ x.held.contains slot then s
          else
            let at_ := 32800 * slot
            let s := s.newItem
            let s := s.feWrite c r.part r.win x.gen (at_ + 32) g.body false
            let s := s.feWrite c r.part r.win x.gen at_ (g.header s.books.frame) true
            (s.modBooks (fun b => { b with
              queue := removeFirst mine b.queue
              emitted := b.emitted + g.entries.length
              credits := modifyFirst (fun y => y.core == c.val && y.part == r.part && y.win == r.win)
                (fun y => { y with n := y.n - 1, held := y.held ++ [slot] }) b.credits })).publishBooks
    | _, _ => s))

/-- The work of the first resolution is done (R126): every cell row exported, every rule book on a CELLS set built and sent. -/
def Books.firstDone (b : Books) : Bool :=
  let first := fun (r : RbDecl) => ((setIn b.sets r.inp).map (·.source)) == some 0
  b.rbs.all (fun r => !first r || [0, 1].all (fun c => !b.wants r c || b.built.contains (r.rb, c))) &&
  b.queue.all (fun g => match rbIn b.rbs g.rb with
    | some r => !first r
    | none => true) &&
  b.sets.all (fun d => d.source != 0 || b.rows.all (fun r => r.set != d.set || decide (r.rows.length ≤ r.sent)))

/-- FIRST_RESOLUTION_REPORT (R126): the cycles from E come with the command; the oldest sweep is released and ageing starts
(R103, R105). -/
def execFirstResolutionReport (cycles : Nat) (s : State) : Out :=
  .next (s.clocked (fun s =>
  let s := s.scan
  if s.frame.comp.reported ∨ s.frame.comp.n = 0 ∨ !s.books.firstDone then s
    else ((s.modBooks (fun b => { b with firstRes := cycles })).reportDone).publishBooks))

/-! Prediction and release (R136-R143). -/

/-- The size exponent of a set's lattice on one axis, in powers of two of fine units (R106, R136). -/
def State.latticeExp (s : State) (pick : SetDecl → Nat) : Nat → Nat → Int
  | 0, _ => 8
  | n + 1, set => match setIn s.books.sets set with
    | none => 8
    | some d =>
      match d.source with
      | 0 => 8 + s.gridK d.grid
      | 1 => s.latticeExp pick n d.parent
      | 2 => s.latticeExp pick n d.parent + pick d
      | _ => s.latticeExp pick n d.parent - pick d

/-- A kept cell's place in the present frame: its centre moved by Δ (R136). -/
def State.moveKept (s : State) (k : Kept) (c : RowRec) : RowRec :=
  let e := fun (pick : SetDecl → Nat) => (s.latticeExp pick 64 k.set).toNat
  let ex := [e (·.sx), e (·.sy), e (·.sz)]
  let ctr := List.zipWith (fun (i : Int) (n : Nat) => i * (2 ^ n : Nat) + (2 ^ n / 2 : Nat)) [c.x, c.y, c.z] ex
  let a : Ageing := { from_ := k.pref, to_ := s.frame.comp.pref, identity := k.rest || s.frame.comp.rest }
  let m := List.zipWith (fun (i : Int) (n : Nat) => Int.fdiv i (2 ^ n : Nat)) (a.move ctr) ex
  { x := m.getD 0 0, y := m.getD 1 0, z := m.getD 2 0 }

/-- The candidates of a decided set (R136): every parent key shifted, or every child. -/
def Books.candidates (b : Books) (d : SetDecl) (parent : List RowRec) : List RowRec :=
  distinctCells ((byIndex parent).flatMap (fun c => if d.source = 2 then [d.shrink c] else (b.genOffs d).map (fun o => d.grow c o)))

/-- A cell lies within radius r of a cell on every axis. -/
def RowRec.near (r : Nat) (a b : RowRec) : Bool :=
  decide ((a.x - b.x).natAbs ≤ r ∧ (a.y - b.y).natAbs ≤ r ∧ (a.z - b.z).natAbs ≤ r)

/-- The set kept from the last frame for a set and copy. -/
def Books.keptFor (b : Books) (set copy : Nat) : Option Kept := b.kept.find? (fun k => k.set == set && k.copy == copy)

/-- The predicted cells of a decided set (R136): none where its mode is NONE or acts as NONE. -/
def State.predicted (s : State) (d : SetDecl) (copy : Nat) (parent : List RowRec) : Option (List RowRec) :=
  let cand := s.books.candidates d parent
  if s.numC (od 0x5000 1) = 0 then none
  else match d.mode with
    | 1 => some cand
    | 2 => (s.books.keptFor d.set copy).map (fun k =>
        let m := k.cells.map (s.moveKept k)
        cand.filter (fun c => m.any (fun y => c.near d.dil y)))
    | _ => none

/-- The next free epoch after the last one taken (R137). -/
def Books.freeEpoch (b : Books) : Option Nat :=
  ((List.range 255).map (fun i => (b.lastEpoch + i) % 255 + 1)).find? (fun e => !b.epochs.any (fun x => x.num == e))

/-- Entries the speculation buffer holds. -/
def Books.buffered (b : Books) : Nat := ((b.epochs.flatMap (fun e => e.books)).map (·.2)).foldl (· + ·) 0

/-- Larkspur stops building speculatively for the rest of the frame (R138; log entry 162). -/
def State.specStop (s : State) : State :=
  if s.books.specOff then s else (s.modBooks (fun b => { b with overflow := b.overflow + 1, specOff := true })).raiseComp 0x5005

/-- The entries that each lane result of a speculative build adds, in the order of the build: one result for each predicted cell of a
STRIDED rule book, one for each parent row of a GENERATIVE one. -/
def specVisits (r : RbDecl) (o i : SetDecl) (pred parent : List RowRec) : List (List RbEntry) :=
  let all := fun (_ : RowRec) => 2 ^ 32 - 1
  if r.cls = 1 then pred.map (fun c => entriesFor r o i [c] parent all) else (byIndex parent).map (fun c => entriesFor r o i pred [c] all)

/-- The speculative entries of a rule book over the predicted cells, in the order in which they are buffered. -/
def specEntries (r : RbDecl) (o i : SetDecl) (pred parent : List RowRec) : List RbEntry := (specVisits r o i pred parent).flatten

/-- The entries buffered per rule book once `reached` lane results are in and `room` entries fit, and whether some did not fit. -/
def specFill : Nat → Nat → List (Nat × List Nat) → List (Nat × Nat) × Bool
  | _, _, [] => ([], false)
  | reached, room, (rb, sizes) :: rest =>
    let want := (sizes.take reached).foldl (· + ·) 0
    let n := Nat.min want room
    let (l, full) := specFill (reached - sizes.length) (room - n) rest
    ((rb, n) :: l, full || decide (n < want))

/-- The rule books that a set's speculative build builds, in plan order (R137). -/
def Books.specBooks (b : Books) (set : Nat) : List RbDecl := b.rbs.filter (fun r => r.out == set && (r.cls == 1 || r.cls == 3))

/-- The lane results of an epoch's build go on by `n` (R137, R138): what is buffered, counted and probed. -/
def State.specRun (s : State) (d : SetDecl) (parent : List RowRec) (e : Epoch) (n : Nat) : State :=
  let b := s.books
  let work := (b.specBooks d.set).filterMap (fun r => (setIn b.sets r.inp).map (fun i => (r, i, specVisits r d i e.cells parent)))
  let sizes := work.map (fun w => (w.1.rb, w.2.2.map (·.length)))
  let total := (sizes.map (fun x => x.2.length)).foldl (· + ·) 0
  let reached := Nat.min total (e.reached + n)
  let old := (e.books.map (·.2)).foldl (· + ·) 0
  let (fill, full) := specFill reached (524288 - (b.buffered - old)) sizes
  let got := (fill.map (·.2)).foldl (· + ·) 0
  let probes := work.foldl (fun (a : List (SetDecl × List RowRec) × Nat × Nat) w =>
    let cells := if w.1.cls = 1 then probedCells w.1 d w.2.1 ((e.cells.take a.2.2).drop a.2.1) else []
    (a.1 ++ [(w.2.1, cells)], a.2.1 - w.2.2.length, a.2.2 - w.2.2.length)) ([], e.reached, reached)
  let s := probes.1.foldl (fun s p => s.countProbes p.1 p.2) s
  let s := s.modBooks (fun b =>
    let b := fill.foldl (fun b x =>
      let was := ((e.books.find? (fun y => y.1 == x.1)).map (·.2)).getD 0
      b.modCount x.1 e.copy (fun c => { c with buffered := c.buffered + (x.2 - was) })) b
    { b with specBuilt := b.specBuilt + (got - old)
             epochs := modifyFirst (fun x => x.num == e.num) (fun x => { x with reached := reached, books := fill }) b.epochs })
  if full then s.specStop else s

/-- SPECULATIVE_BUILD (R137-R139): Larkspur takes an epoch for the predicted set and builds on by `results` lane results, as many as the
free lanes have given; the build runs until all are in, until speculation stops, or until the last report ends it. -/
def execSpeculativeBuild (set : Fin 64) (copy : Fin 2) (results : Nat) (s : State) : Out :=
  .next (s.clocked (fun s =>
  let s := s.scan
  let b := s.books
  if s.frame.comp.dropped ∨ b.specOff then s else match setIn b.sets set.val with
    | none => s
    | some d =>
      match b.rowsOf d.parent copy.val with
      | none => s
      | some par =>
        if !d.isDecided ∨ !d.copies.contains copy.val ∨ (b.rowsOf d.set copy.val).isSome then s
        else match b.epochs.find? (fun e => e.set == d.set && e.copy == copy.val && !e.released && e.frame == b.frame) with
          | some e => s.specRun d par.rows e results
          | none => match s.predicted d copy.val par.rows with
            | none => s
            | some cells =>
              match b.freeEpoch with
              | none => s.specStop
              | some e =>
                if 64 ≤ b.epochs.length ∨ 524288 ≤ b.buffered then s.specStop
                else
                  let new : Epoch := { num := e, set := d.set, copy := copy.val, frame := b.frame, cells := provisional cells
                                       books := (b.specBooks d.set).map (fun r => (r.rb, 0)) }
                  (s.modBooks (fun b => { b with lastEpoch := e, epochs := b.epochs ++ [new] })).specRun d par.rows new results))

/-- Judge the misses of a rule book whose output set is decided (R142): they are counted, and beyond its threshold a FAULT_ABOVE rule
book makes the frame INVALID. -/
def State.judgeMisses (s : State) (copy : Nat) (rows missed : List RowRec) (entries : Nat) (r : RbDecl) : State :=
  let s := if r.policy = 2 ∧ r.threshold < missed.length then (s.modComp (fun c => c.worse 3)).raise 0x5003 r.rb missed.length else s
  let fixed := if r.repairs missed.length then (rows.filter (·.repaired)).length else 0
  s.modBooks (fun b =>
    let b := (b.missEntries r.rb copy entries).modCount r.rb copy (fun c => { c with
      missedCells := c.missedCells + missed.length, repaired := c.repaired + fixed })
    { b with missedCells := b.missedCells + missed.length })

/-- Release of one rule book of an epoch (R140 steps 3 to 5): speculative entries whose output proved true under the final
rows, what the build had not reached, and the repair of the missed cells. An entry of a GENERATIVE rule book also needs its own mask
bit, as R127 says (DESIGN CHOICE, log entry 156). -/
def State.releaseBook (s : State) (d : SetDecl) (copy : Nat) (e : Epoch) (rows missed parent : List RowRec) (r : RbDecl) : State :=
  let b := s.books
  match setIn b.sets r.inp with
  | none => s
  | some i =>
    let mask := b.maskOf d copy
    let ok := fun (x : RbEntry) => r.cls != 3 || (match parent.find? (fun c => c.idx == x.inp) with
      | some c => bitAt (mask c) x.j
      | none => false)
    let held := ((e.books.find? (fun x => x.1 == r.rb)).map (·.2)).getD 0
    let spec := (specEntries r d i e.cells parent).take held
    let pred := rows.filter (fun y => !y.repaired)
    let out := fun (x : RbEntry) => match e.cells[x.out]? with
      | some c => (findRow pred c none).map (fun y => ({ x with out := y.idx } : RbEntry))
      | none => none
    let rel := (spec.filter ok).filterMap out
    let fix := r.repairs missed.length
    let rest := (entriesFor r d i pred parent mask).filter (fun x => !rel.contains x)
    let repair := if fix then entriesFor r d i (rows.filter (·.repaired)) parent mask else []
    let s := s.judgeMisses copy rows missed (entriesFor r d i (provisional missed) parent mask).length r
    let s := if fix then s.countProbes i (probedCells r d i missed) else s
    s.modBooks (fun b =>
      let b := b.emit r d copy rows [(e.num, 2, rel), (0, 0, rest), (0, 4, repair)]
      let b := b.modCount r.rb copy (fun c => { c with released := c.released + rel.length, squashed := c.squashed + (spec.length - rel.length) })
      { b with specReleased := b.specReleased + rel.length, specSquashed := b.specSquashed + (spec.length - rel.length) })

/-- One rule book onto a set decided under an epoch: one that the epoch holds is released, another (SUBM, INVERSE) has its misses judged
and is built in its turn. The missed entries of an INVERSE rule book are counted when it is built. -/
def State.settleBook (s : State) (d : SetDecl) (copy : Nat) (e : Epoch) (rows missed parent : List RowRec) (r : RbDecl) : State :=
  if e.books.any (fun x => x.1 == r.rb) then s.releaseBook d copy e rows missed parent r
  else s.judgeMisses copy rows missed (entriesFor r d d (provisional missed) (rows.filter (fun y => !y.repaired) ++ missed) (fun _ => 0)).length r

/-- The last report of a decided set and copy has arrived (R119, R140): the set becomes final, the speculative builds of its
epoch are released and repaired, and the sets that follow from its keys become final after it (R116). Missed cells get rows for every
rule book where one of them repairs (DESIGN CHOICE, log entry 155). -/
def State.decideSet (s : State) (d : SetDecl) (copy : Nat) (parent : List RowRec) : State :=
  let b := s.books
  let true_ := b.trueCells d copy parent
  let s : State := match b.epochs.find? (fun e => e.set == d.set && e.copy == copy && !e.released && e.frame == b.frame) with
    | none => s.finishSet d copy true_
    | some e =>
      let kept := e.cells.filter (fun c => true_.any (fun y => y.same c))
      let missed := true_.filter (fun c => !e.cells.any (fun y => y.same c))
      let outs := b.rbs.filter (fun r => r.out == d.set)
      let fix := outs.any (fun r => r.repairs missed.length)
      let cells := kept.map (fun (c : RowRec) => { c with repaired := false }) ++ (if fix then missed.map (fun (c : RowRec) => { c with repaired := true }) else [])
      let s := s.finishSet d copy cells
      let rows := ((s.books.rowsOf d.set copy).map (·.rows)).getD []
      let s := s.modBooks (fun b => { b with
        repairedCells := b.repairedCells + (rows.filter (·.repaired)).length, missed := b.missed ++ [(d.set, copy, missed)] })
      let s := outs.foldl (fun s r => s.settleBook d copy e rows missed parent r) s
      s.modBooks (fun b => { b with epochs := b.epochs.map (fun x => if x.num = e.num then { x with released := true } else x) })
  s.geometricSets copy

/-- Take a whole decision report (R135). -/
def State.takeReport (s : State) (d : Bytes) : State :=
  let b := s.books
  let copy := fieldLe d 1 1
  let owner := fieldLe d 2 1
  let w := fieldLe d 3 1
  let n := fieldLe d 8 4
  let bad := (s.modBooks (fun b => { b with discarded := b.discarded + 1 })).raise 0x5006
  match setIn b.sets (fieldLe d 0 1) with
  | none => bad
  | some x =>
    match b.rowsOf x.parent copy, setIn b.sets x.parent with
    | some par, some px =>
      if !x.isDecided ∨ !x.copies.contains copy ∨ px.owners copy ≤ owner ∨ w ≠ b.width x ∨ fieldLe d 4 4 ≠ b.frame ∨ n ≠ par.count owner ∨
          (b.rowsOf x.set copy).isSome ∨ b.reports.any (fun r => r.set == x.set && r.copy == copy && r.owner == owner) then bad
      else
        let bits := leNat (d.drop 32)
        let masks := (List.range n).map (fun r => bits / 2 ^ (r * w) % 2 ^ w)
        let s := s.modBooks (fun b => { b with reports := b.reports ++ [{ set := x.set, copy := copy, owner := owner, masks := masks }] })
        let have_ := s.books.reports.filter (fun r => r.set == x.set && r.copy == copy)
        if have_.length = px.owners copy then s.decideSet x copy par.rows else s
    | _, _ => bad

/-- MSG_REPORT (R135, R139-R143): the messages of a report come together at the builder, each acknowledged; the last one completes
it. -/
def execMsgReport (m : Msg) (hdr : Travel) (flit : Ecc) (s : State) : Out :=
  .next (match s.arrive 7 m hdr with
    | (s, false) => s
    | (s, true) =>
      let s := s.flitCount flit
      if flit = .uncorrectable then (s.bump (od 0x18F0 3)).reply m (some AccErr.ecc.reason)
      else
        let old := ((s.books.asm.find? (fun x => x.1 == m.sstop)).map (·.2)).getD []
        let now := padTo (32 * m.offset) old ++ m.data
        let rest := s.books.asm.filter (fun x => x.1 != m.sstop)
        if m.count then ((s.modBooks (fun b => { b with asm := rest })).takeReport now).publishBooks.reply m none
        else (s.modBooks (fun b => { b with asm := rest ++ [(m.sstop, now)] })).reply m none)

/-- An epoch is to be squashed (R141): released, of a frame past its deadline, or its copy's tasks are dropped. -/
def State.squashDue (s : State) (e : Epoch) : Bool :=
  e.released || e.frame != s.frame.comp.n || s.frame.comp.dropped ||
  s.sched.insts.any (fun i => (i.state == .dropped || i.state == .ended) && !(s.sched.descOf i).optional && (s.sched.descOf i).copy == e.copy)

/-- EPOCH_SQUASH (R141): the epoch's entries leave the buffer and it is free for reuse. -/
def execEpochSquash (epoch : Fin 256) (s : State) : Out :=
  .next (s.clocked (fun s =>
  match s.books.epochs.find? (fun e => e.num == epoch.val) with
    | none => s
    | some e =>
      if !s.squashDue e then s
      else (s.modBooks (fun b => { b with epochs := b.epochs.filter (fun x => x.num != e.num), squashes := b.squashes + 1 })).publishBooks))

/-! The frame boundary (R124, R136). -/

/-- Sets kept for the next frame's prediction: the decided sets marked KEEP whose builds of the ended frame are final (R136). -/
def State.keepSets (s : State) (ended : FrameCtx) : List Kept :=
  s.books.sets.flatMap (fun d =>
    if !d.keep ∨ !d.isDecided then []
    else d.copies.filterMap (fun copy =>
      (s.books.rowsOf d.set copy).map (fun r =>
        { set := d.set, copy := copy, frame := ended.n, cells := r.rows, pref := ended.pref, rest := ended.rest })))

/-- The builder turns to frame n at its E (R124): counts start again, what is left of the last frame's work is dropped, kept
sets stay, and the numbering scan is due. Runs after the sweep has turned. -/
def State.booksBoundary (s : State) (ended : FrameCtx) : State :=
  let b := s.books
  let kept := if b.frame = ended.n then s.keepSets ended else []
  let falls := (b.sets.filter (fun d => d.isDecided && d.mode == 2 && s.numC (od 0x5000 1) != 0)).flatMap (fun d =>
    d.copies.filter (fun c => !kept.any (fun k => k.set == d.set && k.copy == c)))
  let s := if s.cells.snapBusy then s.snapPublish else s
  let s : State := { s with books := {
    frame := s.frame.comp.n, sets := b.sets, rbs := b.rbs, epochs := b.epochs, lastEpoch := b.lastEpoch, kept := kept
    credits := b.credits, nextItem := b.nextItem, fallbacks := falls.length, scanned := s.frame.comp.n == 0 } }
  if s.cells.snapArmed ∧ s.frame.comp.n ≠ 0 then
    ({ s with cells := { s.cells with snapArmed := false, snapBusy := true, snapFrame := s.frame.comp.n, snapLen := 0 } } : State)
  else s

/-- A model's plan comes into effect (R147): EV 0x5001 and the previous plan where it is refused. -/
def State.loadPlan (s : State) (b : Bytes) : State :=
  match parsePlan b with
  | none => s.raise 0x5001
  | some (sets, rbs) => ({ s with books := { sets := sets, rbs := rbs, frame := s.books.frame, nextItem := s.books.nextItem, credits := s.books.credits, scanned := s.frame.comp.n == 0 } : State }).setOct (od 0x5001 0) b

end Sys2Proof.Machine
end

