-- ==== Sys2Proof/Machine/Sign.lean ====
section
/-! DEFINITION. Signed records: key records, signature trailers and the signer each item needs (R514-R516). -/

namespace Sys2Proof.Machine

/-- The distinguishing identifier of a root (R515). -/
def rootName (r : Nat) : Bytes := ascii (if r = 0 then "TARKOR-ROOT-0" else "TARKOR-ROOT-1")

/-- A 72-byte trailer over `body` verifies under a public key and identifier (R515): the signature covers the body and the
trailer's bytes 0-7. Reserved bytes are ignored (R8). -/
def trailerOk (key id body trailer : Bytes) : Bool :=
  trailer.length == 72
    && Config.sm2Verify key id (body ++ trailer.take 8) (trailer.drop 8)

/-- A key record's dates include the present gPTP day; unchecked while the time unit is FREE (R516). -/
def State.datesOk (s : State) (body : Bytes) : Bool :=
  s.num (od 0x2000 1) == 0 ||
    (decide (fieldLe body 88 4 ≤ s.day) && (fieldLe body 92 4 == 0 || decide (s.day ≤ fieldLe body 92 4)))

/-- A 168-byte key record of a role verifies against a root that is not revoked (R514, R516). -/
def State.keyRecordOk (s : State) (rec : Bytes) (role : Nat) : Bool :=
  let body := rec.take 96
  let tr := rec.drop 96
  let root := fieldLe tr 1 1
  rec.length == 168 && fieldLe body 0 2 == 1 && fieldLe body 2 1 == role
    && fieldLe tr 0 1 == 0 && decide (root < 2) && fieldLe tr 4 4 == 0
    && !(root == 0 && s.sec.revoke0)
    && trailerOk (Config.root (if root = 0 then 0 else 1)) (rootName root) body tr
    && s.datesOk body

/-- The signer name of a key record without its zero padding (R514, R515). -/
def signerName (rec : Bytes) : Bytes := (slice rec 8 16).takeWhile (fun b => b != 0)

/-- An item's trailer names the signer that a key record describes, and its signature verifies (R516). -/
def State.signedBy (s : State) (rec : Bytes) (role : Nat) (body trailer : Bytes) : Bool :=
  s.keyRecordOk rec role && fieldLe trailer 0 1 == role && fieldLe trailer 1 1 == 0
    && fieldLe trailer 4 4 == fieldLe rec 4 4
    && trailerOk (slice rec 24 64) (signerName rec) body trailer

/-- Take draws of fresh bytes: `n` bytes of the present free value (log entry 2). -/
def State.freshBytes (s : State) (n : Nat) : Bytes := natLe n s.fresh

end Sys2Proof.Machine
end

