-- ==== Sys2Proof/Machine/Heads.lean ====
section
/-! DEFINITION. Sensor heads: pairing, acceptance, loss, bootstrap and online calibration, life counters (R41-R54, R587). -/

namespace Sys2Proof.Machine

/-- A head's per-port object (R85). -/
def portOd (base p sub : Nat) : Nat := od (base + 16 * p) sub

/-- Update one head. -/
def State.modHead (s : State) (p : Fin 8) (f : Head → Head) : State :=
  { s with ing := { s.ing with heads := s.ing.heads.set p (f s.ing.heads[p]) } }

/-- The head of a port. -/
def State.head (s : State) (p : Fin 8) : Head := s.ing.heads[p]

/-- Code of R42. -/
def HeadState.code : HeadState → Nat
  | .unused => 0 | .awaiting => 1 | .active => 2 | .quarantine => 3 | .bootstrap => 4 | .bootstrapFailed => 5 | .lost => 6

/-- The port's program number; 0xFF leaves it UNUSED. -/
def State.program (s : State) (p : Nat) : Nat := s.num (portOd 0x3100 p 1)

/-- The port's program slot holds no loaded program: it parses nothing and its state does not change (R55). -/
def State.slotEmpty (s : State) (p : Nat) : Bool :=
  s.program p != 0xFF && (s.ing.programs[s.program p]?.getD []).isEmpty

/-- A record's body as R47 lays it out; none where its length, version, port or program breaks the table, or its beam count lies outside
1-256 (log entry 149). Its reserved bits are ignored (R8). -/
def parseCal (b : Bytes) : Option CalRec :=
  if b.length = 2144 ∧ fieldLe b 0 2 = 1 ∧ fieldLe b 2 1 < 8 ∧ fieldLe b 3 1 < 8 ∧ 1 ≤ fieldLe b 88 2
      ∧ fieldLe b 88 2 ≤ 256 then
    some { port := fieldLe b 2 1, program := fieldLe b 3 1, serial := slice b 4 16
           t := [fieldI b 28 4, fieldI b 32 4, fieldI b 36 4]
           angles := [fieldI b 40 4, fieldI b 44 4, fieldI b 48 4]
           delay := fieldLe b 52 4, ratedTime := fieldLe b 56 8, ratedPulses := fieldLe b 64 8
           timeAtIssue := fieldLe b 72 8, pulsesAtIssue := fieldLe b 80 8, beams := fieldLe b 88 2
           table := (List.range 256).map (fun i => (fieldI b (96 + 8 * i) 4, fieldI b (100 + 8 * i) 4)) }
  else none

/-- A signed calibration record verifies against the installed calibration authority (R46, R516). -/
def State.calVerifies (s : State) (raw : Bytes) : Bool :=
  raw.length == 2216 && s.signedBy (s.oct (od 0xB002 1)) 4 (raw.take 2144) (raw.drop 2144)

/-- The head's stored record exists and verifies (R42, R44). -/
def State.storedOk (s : State) (h : Head) : Bool := h.cal.isSome && s.calVerifies h.calRaw

/-- The calibration record in force for a port (R589): the accepted one in BOOTSTRAP and ACTIVE, the stored one of the paired head, if it
verifies, otherwise. -/
def State.calInForce (s : State) (p : Fin 8) : Option CalRec :=
  match (s.head p).state with
  | .bootstrap => (s.head p).cal
  | .active => (s.head p).cal
  | .unused => none
  | _ => if s.storedOk (s.head p) then (s.head p).cal else none

/-- The record that the parser uses: without one in force, 256 beams, a zero table and a delay of 0 (R589). -/
def State.calRecord (s : State) (p : Fin 8) : CalRec := (s.calInForce p).getD {}

/-- The extrinsic in force: the record's plus correction base and correction, the identity without a record (R50, R589). -/
def State.extrinsicNow (s : State) (p : Fin 8) : List Int :=
  match s.calInForce p with
  | some c => addList (addList (c.t ++ c.angles) (s.head p).corrBase) (s.head p).corr
  | none => [0, 0, 0, 0, 0, 0]

/-- The extrinsic of a point of a time: every point of one frame from one head uses one (R50), so one of the sweep that has ended uses
that sweep's. -/
def State.extrinsicAt (s : State) (p : Fin 8) (t : Int) : List Int :=
  if s.frame.run ∧ t < s.frame.ing.start then (s.head p).prevExtr.getD (s.extrinsicNow p) else s.extrinsicNow p

/-- Another port is ACTIVE or in BOOTSTRAP with the serial (R42, R46). -/
def State.serialElsewhere (s : State) (p : Fin 8) (serial : Bytes) : Bool :=
  (List.finRange 8).any (fun q => q != p && (s.head q).paired == serial
    && ((s.head q).state == .active || (s.head q).state == .bootstrap))

/-- The points of a packet and of every later one of its port that have not met a grid are dropped, counted as QUARANTINED (R42, R43). -/
def State.dropPacket (s : State) (p : Fin 8) (pkt : Nat) : State :=
  let late := fun (x : Point) => x.port == p.val && decide (pkt ≤ x.pkt)
  let fresh := fun (x : Point) => late x && x.took.isEmpty && !x.refused
  let n := (s.ing.comp.filter late).length + (s.ing.ins.filter fresh).length
  { s with ing := { s.ing with comp := s.ing.comp.filter (fun x => !late x), ins := s.ing.ins.filter (fun x => !fresh x) } }.bump
    (portOd 0x3104 p 0x0D) n

/-- A port enters QUARANTINE at once, by a packet (R43). -/
def State.quarantine (s : State) (p : Fin 8) (pkt : Nat) : State :=
  ((s.dropPacket p pkt).modHead p (fun h => { h with state := .quarantine, returning := false, notActive := true })).raise 0x3002 p 0 true

/-- A head presents its serial (R43, R44). A foreign serial, or one in use on another port, quarantines the port at once; the
paired serial marks it to return at the next boundary while the stored record verifies; without such a record only a new
acceptance ends the quarantine. -/
def State.present (s : State) (p : Fin 8) (pkt : Nat) (serial : Bytes) : State :=
  let h := s.head p
  let s1 := (s.modHead p (fun h => { h with presented := serial })).setOct (portOd 0x3100 p 4) serial
  match h.state with
  | .unused => s1
  | .bootstrapFailed => s1
  | st =>
    if serial ≠ h.paired ∨ s.serialElsewhere p serial then
      if st = .quarantine then s1.modHead p (fun h => { h with returning := false }) else s1.quarantine p pkt
    else if !s.storedOk h then
      let s2 := s1.modHead p (fun h => { h with needsAccept := true })
      if st = .quarantine ∧ h.needsAccept then s2 else s2.quarantine p pkt
    else if h.needsAccept then s1
    else match st with
      | .awaiting => s1.modHead p (fun h => { h with returning := true })
      | .lost => s1.modHead p (fun h => { h with returning := true })
      | .quarantine => s1.modHead p (fun h => { h with returning := true })
      | _ => s1

/-- HEAD_LOSS_TIMEOUT (R45): a port in use without a packet for LOSS_TIMEOUT becomes LOST, but not while its program slot is empty (R55). -/
def execHeadLossTimeout (p : Fin 8) (t : Nat) (s : State) : Out :=
  let s := s.at t
  let h := s.head p
  .next (if (h.state = .active ∨ h.state = .bootstrap) ∧ !s.slotEmpty p ∧ h.lastPacket + 1000000 * s.num (od 0x3000 6) ≤ t then
    (s.modHead p (fun h => { h with
      state := .lost, returning := false, notActive := true })).raise 0x3008 p
  else s)

/-- Put a new record in force: the correction starts again (R46, R587). -/
def Head.install (h : Head) (c : CalRec) (raw : Bytes) : Head :=
  { h with cal := some c, calRaw := raw, newCal := none
           corrBase := [0, 0, 0, 0, 0, 0], corr := [0, 0, 0, 0, 0, 0], nextCorr := [0, 0, 0, 0, 0, 0] }

/-- Wear index (R52): a rated value of 0 leaves the quotient open. -/
def wearIndex (t tr p pr : Nat) : Nat :=
  if tr = 0 ∨ pr = 0 then Config.wearFree t p % 1001
  else Nat.min 1000 (Nat.max (1000 * t / tr) (1000 * p / pr))

/-- Checks of an acceptance (R46): STATE on an UNUSED port, REFUSED where the record fails. -/
def acceptCheck (p : Fin 8) (s : State) : Nat :=
  if s.program p = 0xFF then 11
  else
    let raw := s.oct (portOd 0x3100 p 6)
    match parseCal (raw.take 2144) with
    | none => 6
    | some c =>
      if s.calVerifies raw ∧ c.serial = (s.head p).presented ∧ c.port = p
          ∧ ¬ (s.ing.programs[c.program]?.getD []).isEmpty ∧ ¬ s.serialElsewhere p c.serial then 0 else 6

/-- The accepted record and serial are stored; the port enters BOOTSTRAP at the next boundary with every count at zero, and
its life counters start from the record's values, in flash as well, and its wear index with them (R46, R52-R54). -/
def acceptEffect (p : Fin 8) (s : State) : State :=
  let raw := s.oct (portOd 0x3100 p 6)
  match parseCal (raw.take 2144) with
  | none => s
  | some c =>
    let inUse := (s.head p).state == .active || (s.head p).state == .bootstrap
    let s1 := s.modHead p (fun h =>
      let h1 := { h with
        paired := c.serial, accepted := true, converged := false, needsAccept := false
        boundFrames := 0, atBound := false, contamFrames := 0, delivered := false, near := 0, total := 0, wearRaised := false
        opTimeNs := 1000000000 * c.timeAtIssue }
      if inUse then { h1 with newCal := some (c, raw) } else h1.install c raw)
    let s2 := ((s1.store (portOd 0x3102 p 1) (.num c.timeAtIssue)).store (portOd 0x3102 p 2) (.num c.pulsesAtIssue)).store
      (portOd 0x3102 p 3) (.num 0)
    ((s2.setOct (portOd 0x3100 p 2) c.serial).setNum (portOd 0x3102 p 4)
      (wearIndex c.timeAtIssue c.ratedTime c.pulsesAtIssue c.ratedPulses : Nat)).raise 0x3003 p

/-- ACCEPT (R46): a refusal by the record's checks raises EV 0x3004. -/
def execAccept (by_ : Writer) (p : Fin 8) (v : BitVec 8) (s : State) : Out :=
  let s1 := s.command by_ (0x3100 + 16 * p) 5 (.num v.toNat) (acceptCheck p) (acceptEffect p)
  .next (if s.mayCommand by_ (0x3100 + 16 * p) 5 (.num v.toNat) ∧ acceptCheck p (s.at by_.t) = 6 then
    s1.raise 0x3004 p else s1)

/-- Bounds of the correction: 0.050 m and 5.0 mrad in ACTIVE, 0.200 m and 20.0 mrad in BOOTSTRAP (R49, R50, R587). -/
def corrBounds (boot : Bool) : List Int :=
  if boot then [13107, 13107, 13107, 20000, 20000, 20000] else [3276, 3276, 3276, 5000, 5000, 5000]

/-- Steps per frame: 1 mm and 0.1 mrad (R50, R587). -/
def corrSteps : List Int := [65, 65, 65, 100, 100, 100]

/-- One step of a correction toward what the estimator asks for, within bounds and step (R50, R587). -/
def stepCorr (boot : Bool) (now want : List Int) : List Int :=
  (List.range 6).map (fun i =>
    let b := comp3 (corrBounds boot) i
    let d := comp3 corrSteps i
    clampI (-b) b (clampI (comp3 now i - d) (comp3 now i + d) (comp3 want i)))

/-- Some component stands at its bound (R51). -/
def atCorrBound (c : List Int) : Bool :=
  (List.range 6).any (fun i => decide (comp3 (corrBounds false) i ≤ ((comp3 c i).natAbs : Int)))

/-- CAL_STATUS (R51, R85). -/
def State.setCalStatus (s : State) (p : Fin 8) (v : Nat) : State := s.setNum (portOd 0x3101 p 7) v

/-- The bootstrap of a head has not converged within 6,000 frames (R49). -/
def State.bootFail (s : State) (p : Fin 8) : State :=
  (s.modHead p (fun h => { h with state := .bootstrapFailed, notActive := true })).raise 0x3006 p

/-- The estimator's result for one head and one frame (R49-R51, R587): a frame is evaluated once, a run of frames goes on only from the
frame before, and only a frame that the port spent in its present state counts for it. -/
def State.calOne (s : State) (frame : Nat) (e : CalEst) : State :=
  let p := e.port
  let h := s.head p
  if h.evalFrame = frame then s
  else
  let goesOn := h.steady && nextFrame h.evalFrame == frame
  let s1 := (s.setNum (portOd 0x3101 p 8) e.residual).modHead p (fun h => { h with evalFrame := frame })
  if !h.steady || s.slotEmpty p then s1
  else match h.state with
  | .bootstrap =>
    let low := if 1000 * e.residual < 65536 * 20 then (if goesOn then h.lowFrames else 0) + 1 else 0
    let s2 := s1.modHead p (fun h => { h with
      lowFrames := low, nextCorr := stepCorr true h.corr e.want
      convergedNow := h.convergedNow || decide (200 ≤ low) })
    if (s2.head p).convergedNow ∨ h.bootFrames < 6000 then s2 else s2.bootFail p
  | .active =>
    if s.flag (portOd 0x3101 p 9) then
      s1.modHead p (fun h => { h with nextCorr := h.corr })
    else
      let c := stepCorr false h.corr e.want
      if atCorrBound c then
        let n := (if goesOn then h.boundFrames else 0) + 1
        let s2 := (s1.modHead p (fun h => { h with nextCorr := c, boundFrames := n })).setCalStatus p 1
        if n = 100 then
          (s2.modHead p (fun h => { h with atBound := true })).raise 0x3007 p 0 true
        else s2
      else (s1.modHead p (fun h => { h with nextCorr := c, boundFrames := 0, atBound := false })).setCalStatus p 0
  | _ => s1

/-- CAL_EVALUATE (R587): the estimator's figures for the frame that ended last; any other frame has none. -/
def execCalEvaluate (frame : Nat) (ests : List CalEst) (s : State) : Out :=
  .next (if frame = s.frame.lastFrame ∧ frame ≠ 0 then ests.foldl (fun s e => s.calOne frame e) s else s)

/-- Life counters, contamination and wear of one head at the end of a sweep (R52, R54). -/
def State.lifeAtE (s : State) (p : Fin 8) : State :=
  let h := s.head p
  let ns := if h.delivered then h.opTimeNs + s.frame.period else h.opTimeNs
  let c0 := s.num (portOd 0x3102 p 3)
  let c : Nat := if h.total = 0 then c0 else
    ((c0 : Int) + divTrunc ((1000 * h.near / h.total : Nat) - (c0 : Int)) 64).toNat
  let above := decide (s.num (od 0x3000 8) ≤ c)
  let n := if above then h.contamFrames + 1 else 0
  let w0 : Nat := s.num (portOd 0x3102 p 4)
  let w : Nat := match h.cal with
    | some k => wearIndex (ns / 1000000000) k.ratedTime (s.num (portOd 0x3102 p 2)) k.ratedPulses
    | none => w0
  let s1 := (((s.modHead p (fun h => { h with
    opTimeNs := ns, near := 0, total := 0, delivered := false, contamFrames := n
    wearRaised := h.wearRaised || decide (900 ≤ w) })).setNum (portOd 0x3102 p 1)
    (ns / 1000000000 : Nat)).setNum (portOd 0x3102 p 3) c).setNum (portOd 0x3102 p 4) w
  let s2 := if !h.wearRaised ∧ 900 ≤ w then s1.raise 0x3009 p w true else s1
  if n = 600 then s2.raise 0x300A p c true else s2

/-- The keys of the life counters (R53, R505). -/
def lifeKeys : List Nat :=
  od 0x0003 1 :: (List.range 8).flatMap (fun p => [portOd 0x3102 p 1, portOd 0x3102 p 2, portOd 0x3102 p 3])

/-- Write the life counters and the persistent state to flash (R53, R357). -/
def State.saveLife (s : State) : State :=
  { s with dict := { s.dict with
    saved := lifeKeys.foldl (fun m k => Sparse.put Od.dflt m k (s.obj k)) s.dict.saved } }

/-- LIFE_COUNTER_STORE (R53). -/
def execLifeCounterStore (t : Nat) (s : State) : Out := .next (s.at t).saveLife

/-- The port's state after the boundary (R42, R44, R46, R49): PROGRAM, acceptance, convergence and returns act here; an empty program
slot holds the state (R55), a freeze in effect holds the correction and its status (R51). A return to BOOTSTRAP starts the run of 200
low-residual frames again, while the count of 6,000 goes on (log entries 148, 187). -/
def State.headBoundary (s : State) (p : Fin 8) : State :=
  let prog := s.program p
  let h := s.head p
  let freeze := s.flag (portOd 0x3101 p 9)
  let ended := s.extrinsicNow p
  let h1 := match h.newCal with
    | some (c, raw) => h.install c raw
    | none => if freeze ∧ h.state = .active then { h with nextCorr := h.corr } else { h with corr := h.nextCorr }
  let enterBoot (h : Head) : Head := { h with
    state := .bootstrap, accepted := false, returning := false, lowFrames := 0, convergedNow := false }
  let h2 : Head :=
    if prog = 0xFF then { h1 with state := .unused, returning := false, accepted := false }
    else if s.slotEmpty p ∧ h1.state ≠ .unused then h1
    else if h1.accepted then { enterBoot h1 with bootFrames := 0 }
    else match h1.state with
      | .unused => { h1 with state := .awaiting }
      | .bootstrap =>
        if h1.convergedNow then { h1 with
          state := .active, converged := true, convergedNow := false
          corrBase := addList h1.corrBase h1.corr, corr := [0, 0, 0, 0, 0, 0], nextCorr := [0, 0, 0, 0, 0, 0] }
        else if 6000 ≤ h1.bootFrames then { h1 with state := .bootstrapFailed }
        else { h1 with bootFrames := h1.bootFrames + 1 }
      | st =>
        if h1.returning then
          if h1.converged then { h1 with state := .active, returning := false } else enterBoot h1
        else { h1 with state := st }
  let s1 := s.modHead p (fun _ => { h2 with
    notActive := h2.state != .active && h2.state != .unused
    prevExtr := some ended, steady := h2.state == h.state && !h1.accepted
    atBound := h2.atBound && !freeze, boundFrames := if freeze then 0 else h2.boundFrames })
  let was := s.num (portOd 0x3101 p 7)
  let s1 := s1.setCalStatus p (if freeze then 2 else if was = 2 ∨ h1.accepted then 0 else was)
  let s2 := (List.range 6).foldl (fun s i => s.setNum (portOd 0x3101 p (i + 1)) (comp3 h2.corr i)) s1
  if h1.state = .bootstrap ∧ h2.state = .active ∧ h1.convergedNow then s2.raise 0x3005 p
  else if h1.state = .bootstrap ∧ h2.state = .bootstrapFailed then s2.raise 0x3006 p
  else s2

/-- Causes that the heads give the sweep at its end: HEAD_MISSING and CAL_BOUND (R51, R83). -/
def State.headCauses (s : State) : State :=
  let missing := (List.finRange 8).any (fun p => (s.head p).notActive)
  let bound := (List.finRange 8).any (fun p => (s.head p).atBound)
  let s1 := if missing then s.causeIng .ingest 5 else s
  if bound then s1.causeIng .ingest 6 else s1

end Sys2Proof.Machine
end

