-- ==== Sys2Proof/Machine/Parser.lean ====
section
/-! DEFINITION. The ingest parser's engines and instructions, and motion compensation (R55-R70, R78, R79, R588, R589). `w` is
bits [26:0] of the instruction word. -/

namespace Sys2Proof.Machine

/-- The engine of a number. -/
def State.engine (s : State) (e : Fin 16) : Engine := s.ing.engines[e]

/-- Update one engine. -/
def State.modEngine (s : State) (e : Fin 16) (f : Engine → Engine) : State :=
  { s with ing := { s.ing with engines := s.ing.engines.set e (f s.ing.engines[e]) } }

/-- A field of the operand word. -/
def fld (w : BitVec 27) (hi lo : Nat) : Nat := bitsOf w.toNat hi lo

/-- A register number of the operand word. -/
def regNo (w : BitVec 27) (lo : Nat) : Fin 16 := Fin.ofNat 16 (bitsOf w.toNat (lo + 3) lo)

/-- v0 reads as zero (R55). -/
def Engine.reg (x : Engine) (r : Fin 16) : BitVec 32 := if r = 0 then 0 else x.regs[r]

/-- A register is written; v0 stays zero (R55). -/
def Engine.setReg (x : Engine) (r : Fin 16) (v : BitVec 32) : Engine :=
  if r = 0 then x else { x with regs := x.regs.set r v }

/-- A parser fault: the rest of the packet is discarded, the fault is counted and EV 0x3016 raised (R59). -/
def State.parserFault (s : State) (e : Fin 16) : State :=
  let p := (s.engine e).port
  (s.modEngine e (fun x => { x with busy := false })).countRaise (portOd 0x3104 p 0x0E) 0x3016 p

/-- The engine goes on at word `pc`; the word after the last one is a parser fault (R59). -/
def State.goTo (s : State) (e : Fin 16) (pc : Nat) : State :=
  if (s.engine e).words.length ≤ pc then s.parserFault e
  else s.modEngine e (fun x => { x with pc := pc })

/-- The word the engine stands at is the one with opcode `op` in [31:27] and `w` in [26:0] (R57). -/
def Engine.fetches (x : Engine) (op : Nat) (w : BitVec 27) : Bool := x.words[x.pc]? == some (2 ^ 27 * op + w.toNat)

/-- One instruction on an engine that is running: its opcode picks the row, and a command of another row or word than the engine stands
at does nothing; it counts toward the 16,384 of R59; `f` answers none for a parser fault, otherwise the state and the next word. An
idle engine executes nothing, nor any while CD17 stands (R548). -/
def State.parse (s : State) (e : Fin 16) (op : Nat) (w : BitVec 27) (f : Engine → State → Option (State × Nat)) : State :=
  let x := s.engine e
  if !x.busy || s.power.holdAt.isSome || !x.fetches op w then s
  else if 16384 ≤ x.count then s.parserFault e
  else
    let s1 := s.modEngine e (fun x => { x with count := x.count + 1 })
    match f x s1 with
    | none => s1.parserFault e
    | some (s2, pc) => s2.goTo e pc

/-- An instruction that only changes its engine and goes on. -/
def State.parseReg (s : State) (e : Fin 16) (op : Nat) (w : BitVec 27) (f : Engine → Option Engine) : State :=
  s.parse e op w (fun x s1 => (f x).map (fun y =>
    (s1.modEngine e (fun z => { y with count := z.count }), x.pc + 1)))

/-- The next packet of a port: its payload and receive stamp, from its queue under R262, or where that is empty from the replay input with
its logged stamp (R84; log entry 163). -/
def State.nextPacket (s : State) (p : Fin 8) (ecc : QueueEcc) : State × Option (Bytes × Nat) :=
  let q : Fin 24 := Fin.castLE (by decide) p
  match (s.q[q]).pkts, s.ing.replay.find? (fun r => r.1 == p.val) with
  | [], some r =>
    ({ s with ing := { s.ing with replay := removeFirst (fun r => r.1 == p.val) s.ing.replay } }, some (r.2.data, r.2.stamp))
  | _, _ => ((s.qPop q ecc).1, (s.qPop q ecc).2.map (fun k => ((sensPayload k.data).getD [], k.stamp)))

/-- PACKET_PARSE_START (R55, R59, R60, R84, R262): a free engine takes the next packet of port p and starts its program at
word 0; an UNUSED port ignores it (R42); a port whose program slot is empty drops it unparsed. -/
def execPacketParseStart (p : Fin 8) (e : Fin 16) (ecc : QueueEcc) (s : State) : Out :=
  .next (s.clocked (fun s =>
  if (s.engine e).busy then s
  else match s.nextPacket p ecc with
    | (s1, none) => s1
    | (s1, some (payload, stamp)) =>
      if s.program p = 0xFF then s1
      else
      let words := s.ing.programs[s.program p]?.getD []
      if words.isEmpty then
        let s2 := s1.bump (portOd 0x3104 p 0x0E)
        s2.raiseIng 0x3016 p (s2.num (portOd 0x3104 p 0x0E))
      else
        let s2 := (s1.bump (portOd 0x3104 p 1)).modEngine e (fun _ =>
          { busy := true, pkt := s.ing.packets, port := p, words := words, payload := payload, stamp := stamp
            base := (stamp : Int) - (s.calRecord p).delay })
        { s2 with ing := { s2.ing with packets := s.ing.packets + 1 } }))

/-! The rows: what one does to the engine alone stands apart, for Marigold's interpreter runs it too (R57, R422). -/

/-- PRS_NOP. -/
def execPrsNop (e : Fin 16) (w : BitVec 27) (s : State) : Out := .next (s.parseReg e 0x00 w (fun x => some x))

/-- The field EXT extracts (R57): k bytes as one integer, little-endian or in network order; none beyond the packet. -/
def extField (x : Engine) (off wm1 sh : Nat) (sgn be : Bool) : Option Nat :=
  let w := wm1 + 1
  let k := ceilDiv (sh + w) 8
  let at_ := x.cursor + off
  if x.payload.length < at_ + k then none
  else
    let raw := if be then fieldBe x.payload at_ k / 2 ^ (8 * k - sh - w) % 2 ^ w
      else fieldLe x.payload at_ k / 2 ^ sh % 2 ^ w
    some (if sgn then unsignedOf 32 (signedOf w raw) else raw)

/-- EXT's effect on the engine. -/
def rowExt (w : BitVec 27) (x : Engine) : Option Engine :=
  (extField x (fld w 22 12) (fld w 11 7) (fld w 6 4) (fld w 3 3 == 1) (fld w 2 2 == 1)).map
    (fun v => x.setReg (regNo w 23) (BitVec.ofNat 32 v))

/-- PRS_EXT. -/
def execPrsExt (e : Fin 16) (w : BitVec 27) (s : State) : Out := .next (s.parseReg e 0x01 w (rowExt w))

/-- SCL's result (R57). -/
def scale (vs : BitVec 32) (m : Int) (sh : Nat) : BitVec 32 :=
  BitVec.ofInt 32 (satSigned 32 (divNearest (vs.toInt * m) (2 ^ sh)))

/-- SCL's effect on the engine. -/
def rowScl (w : BitVec 27) (x : Engine) : Engine :=
  x.setReg (regNo w 23) (scale (x.reg (regNo w 19)) (signedOf 14 (fld w 13 0)) (fld w 18 14))

/-- PRS_SCL. -/
def execPrsScl (e : Fin 16) (w : BitVec 27) (s : State) : Out := .next (s.parseReg e 0x02 w (fun x => some (rowScl w x)))

/-- ADD's effect on the engine. -/
def rowAdd (w : BitVec 27) (x : Engine) : Engine := x.setReg (regNo w 23) (x.reg (regNo w 19) + x.reg (regNo w 15))

/-- PRS_ADD. -/
def execPrsAdd (e : Fin 16) (w : BitVec 27) (s : State) : Out := .next (s.parseReg e 0x03 w (fun x => some (rowAdd w x)))

/-- ADDI's effect on the engine. -/
def rowAddi (w : BitVec 27) (x : Engine) : Engine :=
  x.setReg (regNo w 23) (x.reg (regNo w 19) + BitVec.ofInt 32 (signedOf 19 (fld w 18 0)))

/-- PRS_ADDI. -/
def execPrsAddi (e : Fin 16) (w : BitVec 27) (s : State) : Out := .next (s.parseReg e 0x04 w (fun x => some (rowAddi w x)))

/-- AND's effect on the engine. -/
def rowAnd (w : BitVec 27) (x : Engine) : Engine := x.setReg (regNo w 23) (x.reg (regNo w 19) &&& x.reg (regNo w 15))

/-- PRS_AND. -/
def execPrsAnd (e : Fin 16) (w : BitVec 27) (s : State) : Out := .next (s.parseReg e 0x05 w (fun x => some (rowAnd w x)))

/-- Reject the staged point under a reason, once (R58). -/
def State.rejectPoint (s : State) (e : Fin 16) (reason : Nat) : State :=
  if (s.engine e).staged.rejected then s
  else (s.modEngine e (fun x => { x with staged := { x.staged with rejected := true } })).bump
    (portOd 0x3104 (s.engine e).port (3 + reason))

/-- The beam LUT looks up. -/
def lutBeam (w : BitVec 27) (x : Engine) : Nat := (x.reg (regNo w 19)).toNat % 256

/-- LUT's effect on the engine under a calibration record: elevation, staged beam, held azimuth correction. -/
def rowLut (c : CalRec) (w : BitVec 27) (x : Engine) : Engine :=
  let t := c.table.getD (lutBeam w x) (0, 0)
  { x.setReg (regNo w 23) (BitVec.ofInt 32 t.1) with azCorr := t.2, staged := { x.staged with beam := lutBeam w x } }

/-- PRS_LUT (R57): a beam at or beyond the beam count rejects with reason 7. -/
def execPrsLut (e : Fin 16) (w : BitVec 27) (s : State) : Out :=
  .next (s.parse e 0x06 w (fun x s1 =>
    let c := s1.calRecord x.port
    let s2 := s1.modEngine e (rowLut c w)
    some (if c.beams ≤ lutBeam w x then s2.rejectPoint e 7 else s2, x.pc + 1)))

/-- The time of the staged point so far: packet base plus staged offset (R63). -/
def Engine.time (x : Engine) : Int := x.base + x.staged.offset

/-- A sensor-frame point in 1/65,536 m in the vehicle frame, by the extrinsic of its port at its time (R48, R50). -/
def State.vehicle (s : State) (p : Fin 8) (t : Int) (v : List Int) : Int × Int × Int :=
  let q := applyExtrinsic (s.extrinsicAt p t) v
  (comp3 q 0, comp3 q 1, comp3 q 2)

/-- Stage vehicle-frame coordinates from a sensor-frame point in 1/65,536 m (R57). -/
def State.stage (s : State) (e : Fin 16) (v : List Int) : State :=
  let x := s.engine e
  let q := s.vehicle x.port x.time v
  s.modEngine e (fun x => { x with staged := { x.staged with xyz := some q, sensor := v } })

/-- The sensor-frame point that CVT stages (R57, R588). -/
def cvtPoint (w : BitVec 27) (x : Engine) : List Int :=
  let az := (((x.reg (regNo w 19)).toNat % 2 ^ 24 : Nat) + x.azCorr) % (2 ^ 24 : Nat)
  polarPoint (x.reg (regNo w 23)).toNat az.toNat (x.reg (regNo w 15)).toInt

/-- PRS_CVT (R57, R588); the azimuth correction that LUT held is used up. -/
def execPrsCvt (e : Fin 16) (w : BitVec 27) (s : State) : Out :=
  .next (s.parse e 0x07 w (fun x s1 =>
    some ((s1.stage e (cvtPoint w x)).modEngine e (fun y => { y with azCorr := 0 }), x.pc + 1)))

/-- The sensor-frame point that CVC stages (R57, R588). -/
def cvcPoint (w : BitVec 27) (x : Engine) : List Int :=
  [(x.reg (regNo w 23)).toInt * 64, (x.reg (regNo w 19)).toInt * 64, (x.reg (regNo w 15)).toInt * 64]

/-- PRS_CVC (R57, R588). -/
def execPrsCvc (e : Fin 16) (w : BitVec 27) (s : State) : Out :=
  .next (s.parse e 0x08 w (fun x s1 => some (s1.stage e (cvcPoint w x), x.pc + 1)))

/-- SET's effect on the staging (R57); f = 4-7 are reserved and change nothing. -/
def setStaged (st : Staged) (f : Nat) (v : BitVec 32) : Staged :=
  match f with
  | 0 => { st with intensity := (clampI 0 255 v.toInt).toNat }
  | 1 => { st with offset := v.toNat }
  | 2 => { st with ret := v.toNat % 4 }
  | 3 => { st with beam := v.toNat % 256 }
  | _ => st

/-- SET's effect on the engine. -/
def rowSet (w : BitVec 27) (x : Engine) : Engine :=
  { x with staged := setStaged x.staged (fld w 26 24) (x.reg (regNo w 20)) }

/-- PRS_SET. -/
def execPrsSet (e : Fin 16) (w : BitVec 27) (s : State) : Out := .next (s.parseReg e 0x09 w (fun x => some (rowSet w x)))

/-- Seconds extended to the value nearest the module's time (R62 mode 1). -/
def nearSeconds (now vt : Nat) : Int := (now : Int) + signedOf 32 (unsignedOf 32 ((vt : Int) - now))

/-- A mode-2 packet (R62): the port's packets that executed mode 2, newest first, with this one, and its base time. A packet that
executes mode 2 again takes its own place again. -/
def tspMode2 (l : List TspSample) (pkt vs stamp : Nat) : List TspSample × Int :=
  let others := l.filter (fun x => x.pkt != pkt)
  let high := match others.head? with
    | some x => if 2 ^ 31 < x.vs - vs then x.high + 2 ^ 32 else x.high
    | none => 0
  let ext : Int := (1000 * (high + vs) : Nat)
  let hist := { pkt := pkt, vs := vs, high := high, off := (stamp : Int) - ext } :: others.take 15
  (hist, ext + (hist.map TspSample.off).foldl min ((stamp : Int) - ext))

/-- The packet base that TSP sets and the port's mode-2 packets after it (R62): `now` the module's time in ns, `delay` the record's;
none for a parser fault. -/
def rowTsp (now delay : Nat) (l : List TspSample) (w : BitVec 27) (x : Engine) : Option (Int × List TspSample) :=
  let vs := (x.reg (regNo w 23)).toNat
  let vt := (x.reg (regNo w 19)).toNat
  match fld w 18 17 with
  | 0 => some ((2 ^ 32 * vt + vs : Nat), l)
  | 1 => if 1000000000 ≤ vs then none else some (1000000000 * nearSeconds (now / 1000000000) vt + vs, l)
  | 2 => some ((tspMode2 l x.pkt vs x.stamp).2, (tspMode2 l x.pkt vs x.stamp).1)
  | _ => some ((x.stamp : Int) - delay, l)

/-- PRS_TSP (R62). -/
def execPrsTsp (e : Fin 16) (w : BitVec 27) (s : State) : Out :=
  .next (s.parse e 0x0A w (fun x s1 =>
    (rowTsp s1.frame.now (s1.calRecord x.port).delay (s1.head x.port).tsp w x).map (fun y =>
      ((s1.modHead x.port (fun h => { h with tsp := y.2 })).modEngine e (fun z => { z with base := y.1 }), x.pc + 1))))

/-- PRS_RNG (R52). -/
def execPrsRng (e : Fin 16) (w : BitVec 27) (s : State) : Out :=
  .next (s.parse e 0x0B w (fun x s1 =>
    let near := decide ((x.reg (regNo w 23)).toNat < s1.num (od 0x3000 7))
    some (s1.modHead x.port (fun h => { h with
      total := h.total + 1, near := if near then h.near + 1 else h.near }), x.pc + 1)))

/-- PRS_PLS (R52). -/
def execPrsPls (e : Fin 16) (w : BitVec 27) (s : State) : Out :=
  .next (s.parse e 0x0C w (fun x s1 =>
    some (s1.bump (portOd 0x3102 x.port 2) (x.reg (regNo w 23)).toNat, x.pc + 1)))

/-- Condition codes (R58); 7 is reserved and holds never. -/
def condHolds (cc : Nat) (a b : BitVec 32) : Bool :=
  match cc with
  | 0 => a == b
  | 1 => a != b
  | 2 => a.ult b
  | 3 => !a.ult b
  | 4 => a.slt b
  | 5 => !a.slt b
  | 6 => true
  | _ => false

/-- REJ's condition holds (R58). -/
def rejHolds (w : BitVec 27) (x : Engine) : Bool := condHolds (fld w 22 20) (x.reg (regNo w 23)) (BitVec.ofNat 32 (fld w 16 0))

/-- PRS_REJ (R58). -/
def execPrsRej (e : Fin 16) (w : BitVec 27) (s : State) : Out :=
  .next (s.parse e 0x0D w (fun x s1 => some (if rejHolds w x then s1.rejectPoint e (fld w 19 17) else s1, x.pc + 1)))

/-- Whether a sweep time is off the frame: its period from the one before by more than 0.1 %, or its start from a boundary by
more than 1,000 µs (R65). -/
def State.sweepOff (s : State) (before now : Int) : Bool :=
  let per : Int := s.frame.period
  let d := (now - s.frame.phase) % per
  decide (per < 1000 * ((now - before - per).natAbs : Int)) || decide (1000000 < min d (per - d))

/-- A sweep start of a head (R65): EV 0x3001 once 8 consecutive sweeps are off, then at most once per 100 frames. -/
def State.markSweep (s : State) (p : Fin 8) (t : Int) : State :=
  let h := s.head p
  let l := (t :: h.sweeps).take 9
  let s1 := s.modHead p (fun h => { h with sweeps := l })
  let off := (List.zip l (l.drop 1)).map (fun x => s.sweepOff x.2 x.1)
  let due : Bool := match h.lastMismatch with
    | none => true
    | some n => decide (n + 100 ≤ s.frame.ing.n)
  if s.frame.period ≠ 0 ∧ off.length = 8 ∧ off.all id ∧ due then
    (s1.modHead p (fun h => { h with lastMismatch := some s.frame.ing.n })).raise 0x3001 p
  else s1

/-- A point leaves the parser (R42, R61): counted as the port's state says; points of an ACTIVE or BOOTSTRAP port go to motion
compensation. -/
def State.emit (s : State) (x : Engine) (xyz : Int × Int × Int) : State :=
  let h := s.head x.port
  let prev := decide (x.stamp < s.frame.ing.start) && decide (s.frame.comp.n ≠ 0)
  let s1 := s.bump (portOd 0x3104 x.port 2)
  let s2 := if s.frame.run then s1.modPts prev (fun c => { c with inn := c.inn + 1 }) else s1
  let pt : Point := { port := x.port, pkt := x.pkt, raw := xyz, time := x.time, intensity := x.staged.intensity, ret := x.staged.ret
                      beam := x.staged.beam, prev := prev, insert := h.state == .active }
  let forward := fun (s : State) =>
    { s.modHead x.port (fun h => { h with delivered := true }) with
      ing := { (s.modHead x.port (fun h => { h with delivered := true })).ing with comp := s.ing.comp ++ [pt] } }
  match h.state with
  | .unused => s
  | .awaiting => s2.bump (portOd 0x3104 x.port 0x0C)
  | .lost => s2.bump (portOd 0x3104 x.port 0x0C)
  | .quarantine => s2.bump (portOd 0x3104 x.port 0x0D)
  | .bootstrapFailed => s2.bump (portOd 0x3104 x.port 0x0D)
  | .active => forward s2
  | .bootstrap => forward s2

/-- Points between EMIT and port A: one per front-end cycle of the 14 and 2 of R397 (log entry 159). -/
def pipeDepth : Nat := 16

/-- An EMIT of the engine waits: its point goes to motion compensation and the pipeline before port A is full (R100, R397). -/
def State.emitWaits (s : State) (x : Engine) : Bool :=
  x.staged.xyz.isSome && !x.staged.rejected && ((s.head x.port).state == .active || (s.head x.port).state == .bootstrap) &&
    decide (pipeDepth ≤ s.ing.comp.length)

/-- PRS_EMIT (R57, R59, R61, R65): a point that no CVT or CVC staged is a parser fault; a rejected one is not emitted; the
staging is cleared and a waiting sweep mark takes the point's time. The point's extrinsic is that of its sweep (R50). -/
def execPrsEmit (e : Fin 16) (w : BitVec 27) (s : State) : Out :=
  .next (if s.emitWaits (s.engine e) then s else s.parse e 0x0E w (fun x s1 =>
    match x.staged.xyz with
    | none => none
    | some _ =>
      let s2 := s1.modEngine e (fun y => { y with staged := {}, sweepMark := false })
      let s3 := if x.sweepMark then s2.markSweep x.port x.time else s2
      some (if x.staged.rejected then s3 else s3.emit x (s1.vehicle x.port x.time x.staged.sensor), x.pc + 1)))

/-- ADV's effect on the engine. -/
def rowAdv (w : BitVec 27) (x : Engine) : Engine := { x with cursor := x.cursor + fld w 15 0 }

/-- PRS_ADV. -/
def execPrsAdv (e : Fin 16) (w : BitVec 27) (s : State) : Out := .next (s.parseReg e 0x0F w (fun x => some (rowAdv w x)))

/-- The word after BR. -/
def brNext (w : BitVec 27) (x : Engine) : Nat :=
  if condHolds (fld w 18 16) (x.reg (regNo w 23)) (x.reg (regNo w 19)) then fld w 7 0 else x.pc + 1

/-- PRS_BR. -/
def execPrsBr (e : Fin 16) (w : BitVec 27) (s : State) : Out :=
  .next (s.parse e 0x10 w (fun x s1 => some (s1, brNext w x)))

/-- LOOP's effect on the engine; the decrement of v0 has no effect. -/
def rowLoop (w : BitVec 27) (x : Engine) : Engine := x.setReg (regNo w 23) (x.reg (regNo w 23) - 1)

/-- The word after LOOP. -/
def loopNext (w : BitVec 27) (x : Engine) : Nat := if (rowLoop w x).reg (regNo w 23) ≠ 0 then fld w 7 0 else x.pc + 1

/-- PRS_LOOP. -/
def execPrsLoop (e : Fin 16) (w : BitVec 27) (s : State) : Out :=
  .next (s.parse e 0x11 w (fun x s1 => some (s1.modEngine e (rowLoop w), loopNext w x)))

/-- The serial that IDN reads (R43, R57): `len` bytes from the cursor, zero-padded to 16; none beyond the packet. -/
def idnSerial (w : BitVec 27) (x : Engine) : Option Bytes :=
  let at_ := x.cursor + fld w 22 12
  let n := fld w 11 8 + 1
  if x.payload.length < at_ + n then none else some (padTo 16 (slice x.payload at_ n))

/-- PRS_IDN (R43, R57). -/
def execPrsIdn (e : Fin 16) (w : BitVec 27) (s : State) : Out :=
  .next (s.parse e 0x12 w (fun x s1 => (idnSerial w x).map (fun b => (s1.present x.port x.pkt b, x.pc + 1))))

/-- PRS_END: the packet ends and the engine is free. -/
def execPrsEnd (e : Fin 16) (w : BitVec 27) (s : State) : Out :=
  .next (s.clocked (fun s =>
  if (s.engine e).busy ∧ (s.engine e).fetches 0x13 w then
    if 16384 ≤ (s.engine e).count then s.parserFault e
    else s.modEngine e (fun x => { x with busy := false, count := x.count + 1 })
  else s))

/-- PRS_SWP (R65): the next emitted point's time marks a sweep start. -/
def execPrsSwp (e : Fin 16) (w : BitVec 27) (s : State) : Out :=
  .next (s.parseReg e 0x14 w (fun x => some { x with sweepMark := true }))

/-- The number that governs a point's frame: the frame computed keeps what the last boundary replaced (R478). -/
def State.numFor (s : State) (prev : Bool) (key : Nat) : Nat := if prev then s.numC key else s.num key

/-- Effective priority of a point (R78): its sector's priority, less 1 beyond the sector's far range, at least 0. -/
def State.priority (s : State) (p : Point) : Nat :=
  let e := s.extrinsicAt (Fin.ofNat 8 p.port) p.time
  let dx := p.raw.1 - comp3 e 0
  let dy := p.raw.2.1 - comp3 e 1
  let dz := p.raw.2.2 - comp3 e 2
  let v := s.numFor p.prev (portOd 0x3103 p.port (sectorOf dx dy + 1))
  let far : Int := (65536 * (v / 256) : Nat)
  let q := v % 8
  if far * far < dx * dx + dy * dy + dz * dz then q - 1 else q

/-- The admission limit of a priority (R79); L7 is fixed. -/
def State.budget (s : State) (prev : Bool) (q : Nat) : Nat := if q = 7 then 4194304 else s.numFor prev (od 0x3001 (q + 1))

/-- The time of the latest accepted sample. -/
def State.lastSample (s : State) : Option PoseSample := s.ing.samples.getLast?

/-- Move a point to the reference pose of its sweep (R68-R71): coordinates, EXTRAP, SAT, whether it is logged, and whether it
lies beyond the extrapolation limit. What goes on is the point's 16-byte record (R15, R61). -/
def State.compensatePoint (s : State) (ctx : FrameCtx) (p : Point) : Point × Bool :=
  let packed := fun (p : Point) => p.ofRecord p.record
  let p := { p with epoch := s.ing.epoch }
  if ctx.rest then
    let q := [p.raw.1, p.raw.2.1, p.raw.2.2].map toRecord
    (packed { p with xyz := satCoords q, sat := outOfRange q, extrap := true, log := false }, true)
  else match s.lastSample, s.ing.samples.head?, poseAt (s.numFor p.prev (od 0x3000 1)) s.ing.samples p.time with
    | some l, some f, some pt =>
      let q := compensated ctx.pref pt p.raw (poseHeld s.ing.samples p.time ctx.end_)
      let later := decide ((l.time : Int) < p.time)
      (packed { p with xyz := satCoords q, sat := outOfRange q, extrap := later || decide (p.time < f.time), log := later },
       decide ((l.time : Int) + 1000 * s.numFor p.prev (od 0x3000 2) < p.time))
    | _, _, _ => (p, false)

/-- A point held under an extrapolated pose beyond the limit, or under the rest model: cause POSE_GAP; EV 0x3013 once per gap, which the
next accepted sample ends (log entry 151), and once for the rest model (R70). -/
def State.poseGap (s : State) (prev rest : Bool) : State :=
  let s1 := s.modPoint prev (fun c => c.cause .ingest 4)
  if rest then (if s.ing.restRaised then s1 else ({ s1 with ing := { s1.ing with restRaised := true } }).raise 0x3013)
  else if s.ing.gapRaised then s1 else ({ s1 with ing := { s1.ing with gapRaised := true } }).raise 0x3013

/-- POINT_COMPENSATE (R63, R64, R68-R72, R78, R79, R89): the front emitted point is given to its sweep or counted as LATE or
FUTURE, admitted or counted as BUDGET, compensated, and sent to port A for every grid it enters, or counted as OUTSIDE. While port A is busy with
a point's grids, compensation holds its next point (R100). -/
def execPointCompensate (s : State) : Out :=
  .next (s.clocked (fun s =>
  match s.ing.ins, s.ing.comp with
  | _ :: _, _ => s
  | [], [] => s
  | [], p0 :: rest =>
    let s0 := { s with ing := { s.ing with comp := rest } }
    if !p0.insert || !s.frame.run then s0
    else
      let inPrev := p0.prev && decide (p0.time < s.frame.ing.start) && decide ((s.frame.comp.start : Int) ≤ p0.time)
        && !s.books.scanned
      let p := { p0 with prev := inPrev }
      let ctx := if inPrev then s.frame.comp else s.frame.ing
      if (s.frame.ing.end_ : Int) ≤ p.time then s0.modPts p0.prev (fun c => { c with future := c.future + 1 })
      else if p.time < (ctx.start : Int) then (s0.modPts p0.prev (fun c => { c with late := c.late + 1 })).judgeAgain p0.prev
      else if s.budget inPrev (s.priority p) ≤ ctx.pts.admitted then
        (s0.modPts inPrev (fun c => { c with budget := c.budget + 1 })).modPoint inPrev (fun c => c.cause .ingest 1)
      else
        let s1 := s0.modPts inPrev (fun c => { c with admitted := c.admitted + 1 })
        let (q, gap) := s1.compensatePoint ctx { p with offset := ((p.time - ctx.start) / 1000).toNat % 2 ^ 24 }
        let s2 := if gap then s1.poseGap inPrev ctx.rest else s1
        let gs := s2.gridsOf q.xyz
        if gs.isEmpty then
          let s3 := s2.modCells inPrev (fun c => { c with outside := c.outside + 1 })
          if q.log then (s3.logPoint q).judgeAgain inPrev else s3
        else { s2 with ing := { s2.ing with ins := s2.ing.ins ++ [{ q with grids := gs }] } }))

end Sys2Proof.Machine
end

