-- ==== Sys2Proof/Machine/Peony.lean ====
section
/-! DEFINITION. Peony's tables: descriptors, rings, lookups, pools, versions, the exchange, gradients (R311-R342). -/

namespace Sys2Proof.Machine

/-! Descriptors (R311, R312). -/

/-- Pool slots of the core at a position: whole rows of its pool window while that is open (R329). -/
def State.poolCap (s : State) (d : TDesc) (pos : Nat) : Nat :=
  let x := (s.cores[s.peCore d pos]).pad.win d.part d.pool
  if x.isOpen then x.size / Nat.max 1 d.rowLen else 0

/-- The generation of the pool window at a position. -/
def State.poolGen (s : State) (d : TDesc) (pos : Nat) : Nat := ((s.cores[s.peCore d pos]).pad.win d.part d.pool).gen

/-- Pool tags that a descriptor's windows hold (R330). -/
def State.poolTags (s : State) (d : TDesc) : Nat :=
  if d.place = 0 then 0 else ((List.range d.cores.length).map (s.poolCap d)).foldl (· + ·) 0

/-- Tags that no table but t holds (OD 0x8000.02). -/
def State.tagsLeft (s : State) (t : Nat) : Nat :=
  524288 - ((List.range 16).map (fun i => if i ≠ t ∧ (s.table i).state = 1 then s.poolTags (s.tdesc i) else 0)).foldl (· + ·) 0

/-- The cores a partition may use: those of the schedule last accepted; every core where there is none. -/
def State.partCores (s : State) (p : Nat) : Nat :=
  match s.sched.accepted.orElse (fun _ => s.sched.active) with
  | none => 65535
  | some a => ((a.parts.find? (fun r => r.part == p && r.present)).map (·.mask)).getD 0

/-- The module accepts a descriptor for table t (R311, R312). -/
def State.tdescOk (s : State) (t : Nat) (b : Bytes) : Bool :=
  let d := parseTDesc b
  let e := s.group d.group
  decide (d.table = t ∧ d.kind < 2 ∧ d.place < 3 ∧ d.fmt < 2 ∧ 16 ≤ d.e ∧ d.e ≤ 1024 ∧ d.e % 16 = 0 ∧ d.part < 8 ∧ d.group < 16 ∧
    fieldLe b 11 1 < 8 ∧ d.opt < 3 ∧ fieldLe b 13 1 < 4 ∧ fieldLe b 14 2 = 0 ∧ 1 ≤ d.rows ∧ d.rows ≤ 2 ^ 32 - 2 ∧ d.warm ≤ d.hot ∧
    d.accSlots ≤ 1048576 ∧ d.mask ≠ 0) &&
  !bitAt (fieldLe b 10 1) 3 && !bitAt (fieldLe b 10 1) 7 && allZero (slice b 44 20) && within d.mask (s.partCores d.part) &&
  d.pool != d.ring && (!d.train || (d.acc != d.pool && d.acc != d.ring)) &&
  (d.place == 2 || d.shard == 0) &&
  (d.place != 2 || (d.kind == 0 && grpStops e == [stopPE] && decide (d.rows ≤ d.shard * grpDevs e))) &&
  decide (s.poolTags d ≤ s.tagsLeft t)

/-! Rows in DRAM (R314-R320). -/

/-- Read an array of a table's partition: none where it leaves the region or is uncorrectable. -/
def State.pGet (s : State) (part off n : Nat) (e : Ecc := .clean) : State × Option Bytes :=
  match s.regionAt part off n with
  | none => (s, none)
  | some da => s.dramGet da n e

/-- Write an array of a table's partition. -/
def State.pPut (s : State) (part off : Nat) (d : Bytes) : State :=
  match s.regionAt part off d.length with
  | none => s
  | some da => s.dramPut da d

/-- A version's base. -/
def TVersion.base (v : TVersion) (i : Nat) : Nat := v.bases.getD i 0

/-- Stored bytes of a row by class, without padding (R316). -/
def classBytes (cls e : Nat) : Nat :=
  match cls with
  | 0 => 2 * e
  | 1 => 4 + e
  | _ => 4 + e / 2

/-- A directory entry's class and offset in bytes (R315). -/
def State.dirEntry (s : State) (d : TDesc) (v : TVersion) (idx : Nat) : State × Nat × Nat :=
  match s.pGet d.part (v.base 0 + 8 * idx) 8 with
  | (s, none) => (s, 3, 0)
  | (s, some b) => (s, bitsOf (leNat b) 63 62, bitsOf (leNat b) 39 0 * 32)

/-- The elements of a stored row as FP32 bits (R316, R317); `vals` follow the scale. -/
def rowValues (cls e scale : Nat) (vals : Bytes) : List Nat :=
  match cls with
  | 0 => (elems 7 (vals.take (2 * e))).map (fun x => f32Of ((fmtOf 7).decode x) x)
  | 1 => (elems 0 (vals.take e)).map (fun q => f32Of (fvMul (fmtValue 0 q) (f32 scale)) q)
  | _ => (elems 1 (vals.take (e / 2))).map (fun q => f32Of (fvMul (fmtValue 1 q) (f32 scale)) q)

/-- Read a stored row as FP32 elements; none where it is absent or unreadable. -/
def State.rowGet (s : State) (d : TDesc) (v : TVersion) (idx : Nat) (e : Ecc := .clean) : State × Option (List Nat) :=
  match s.dirEntry d v idx with
  | (s, 3, _) => (s, none)
  | (s, cls, off) =>
    match s.pGet d.part (v.base 1 + off) (classBytes cls d.e) e with
    | (s, none) => (s, none)
    | (s, some b) => (s, some (if cls = 0 then rowValues 0 d.e 0 b else rowValues cls d.e (leNat (b.take 4)) (b.drop 4)))

/-- FP32 elements in a class (R318); the Bool says that the scale was written as 0. -/
def quantise (cls : Nat) (l : List Nat) : Bytes × Bool :=
  if cls = 0 then (packElems 7 (l.map (f32To (fmtOf 7))), false)
  else
    let q := if cls = 1 then 127 else 7
    let mx := (l.map f32Abs).foldl Nat.max 0
    if mx = 0 ∨ 0x7F800000 ≤ mx then (natLe 4 0 ++ packElems (if cls = 1 then 0 else 1) (l.map (fun _ => 0)), true)
    else
      let sc := f32Of (ratioVal false (match f32 mx with | .fin _ m _ => m | _ => 0) (match f32 mx with | .fin _ _ x => x | _ => 0) q) 0
      -- a scale that rounds to 0 leaves 0 ÷ 0 open (log entry 39)
      let qs := l.map (fun x => if sc = 0 ∧ f32Abs x = 0 then (Config.zeroQuotient q % (2 * q + 1) : Nat) - (q : Int) else fvInt (fvDiv (f32 x) (f32 sc)) q)
      (natLe 4 sc ++ packElems (if cls = 1 then 0 else 1) (qs.map (fun i => unsignedOf (if cls = 1 then 8 else 4) i)), false)

/-- Padding of a stored row to 32 bytes. -/
def pad32 (b : Bytes) : Bytes := padTo (ceilDiv b.length 32 * 32) b

/-- Write a row at a byte offset of the row store, in its class; counted where the scale is 0 (R318). -/
def State.rowPut (s : State) (d : TDesc) (v : TVersion) (cls off : Nat) (l : List Nat) : State :=
  let (b, z) := quantise cls l
  let s := s.pPut d.part (v.base 1 + off) (pad32 b)
  if z then s.bump (od (0x8100 + 16 * d.table) 0x0C) else s

/-- FP32 elements in pool format (R317). -/
def poolBytes (d : TDesc) (l : List Nat) : Bytes := if d.fmt = 1 then packElems 6 l else packElems 4 (l.map (f32To (fmtOf 4)))

/-- Add hits to a row's counter (R320). -/
def State.addHits (s : State) (d : TDesc) (v : TVersion) (idx n : Nat) : State :=
  match s.pGet d.part (v.base 2 + 4 * idx) 4 with
  | (s, none) => s
  | (s, some b) => s.pPut d.part (v.base 2 + 4 * idx) (natLe 4 (Nat.min 0xFFFFFFFF (leNat b + n)))

/-! Versions (R332-R335). -/

/-- The version record (R332). -/
def TVersion.record (v : TVersion) : Bytes :=
  natLe 4 v.number ++ natLe 1 v.state ++ zeros 3 ++ (List.range 4).flatMap (fun i => natLe 8 (v.base i)) ++ natLe 20 v.frame ++ zeros 4

/-- Show the version records in OD 0x8101. -/
def State.showVers (s : State) (t : Nat) : State :=
  (List.range 3).foldl (fun s i => s.setOct (od (0x8101 + 16 * t) (i + 1)) ((s.table t).ver i).record) s

/-- Put a version slot and show it. -/
def State.setVer (s : State) (t i : Nat) (v : TVersion) : State := (s.modTable t (fun x => x.setVer i v)).showVers t

/-! Peony's accesses to the cores. -/

/-- The generation of Peony's credit for a window (R241): none before the window has ever granted one. -/
def State.peGen (s : State) (c : Fin 16) (p w : Nat) : Option Nat := (creditOf s.peony.credits c.val p w).map (·.gen)

/-- Read from a window of a core under its credit's generation (log entry 33). -/
def State.peRead (s : State) (c : Fin 16) (p w off n : Nat) : State × Option Bytes :=
  match s.peGen c p w with
  | none => (s, none)
  | some g => match s.padRead c p w off n (some g) with
    | (s, .ok d) => (s, some d)
    | (s, .error _) => (s, none)

/-- Send bytes to a window of a core as WRITE or ADD messages of request `id`, under its credit's generation; the last one counts where `count`.
Nothing goes to a window that has never granted a credit (R241; log entry 36). -/
def State.peSend (s : State) (dev : Nat) (c : Fin 16) (p w off : Nat) (ty afmt : Nat) (d : Bytes) (count : Bool) (id : Nat) : State :=
  match s.peGen c p w with
  | none => s
  | some gen => (rowMsgs off d).foldl (fun s y =>
    s.request ty { ddev := dev, dstop := coreStop c.val, sdev := s.device, sstop := stopPE, part := p, win := w, gen := gen
                   count := count && y.2.2, len := ceilDiv y.2.1.length 32 - 1, afmt := afmt, offset := y.1 / 32, data := y.2.1 }
      none none id) s

/-- A request's messages wait for answers. -/
def State.peWaits (s : State) (id : Nat) : Bool :=
  (s.fab.reqs ++ s.fab.held.map (fun h => h.req)).any (fun q => q.stop == stopPE && q.pc == id)

/-- Update a request of a table. -/
def PTable.modReq (x : PTable) (id : Nat) (f : PReq → PReq) : PTable := { x with reqs := modifyFirst (fun q => q.id == id) f x.reqs }

/-! The rings (R322, R323, R328). -/

/-- A request entry's fields (R323). -/
def parseReq (b : Bytes) (id core part : Nat) : PReq :=
  { id := id, core := core, part := part, op := fieldLe b 0 1, seq := fieldLe b 2 2, frame := fieldLe b 4 4, count := fieldLe b 8 4
    iwin := fieldLe b 12 1 % 8, rwin := fieldLe b 13 1 % 8, ref := fieldLe b 14 2, ioff := fieldLe b 16 4, roff := fieldLe b 20 4
    step := fieldLe b 24 4 }

/-- The entry breaks R323. -/
def reqBad (b : Bytes) : Bool :=
  !decide (1 ≤ fieldLe b 0 1 ∧ fieldLe b 0 1 ≤ 5 ∧ fieldLe b 1 1 < 16 ∧ fieldLe b 8 4 ≤ 1048576 ∧ fieldLe b 12 1 < 8 ∧ fieldLe b 13 1 < 8 ∧
    (fieldLe b 0 1 = 4 ∨ fieldLe b 14 2 = 0) ∧ fieldLe b 16 4 % 32 = 0 ∧ fieldLe b 20 4 % 32 = 0 ∧ fieldLe b 28 1 = 0 ∧
    fieldLe b 29 1 % 128 = 0 ∧ fieldLe b 30 2 = 0)

/-- A window that the descriptor names (R328; log entry 41). -/
def TDesc.names (d : TDesc) (w : Nat) : Bool := w == d.pool || w == d.ring || w == d.acc

/-- Peony refuses a request (R328, R332, R338). -/
def State.reqRefused (s : State) (b : Bytes) (q : PReq) : Bool :=
  let t := fieldLe b 1 1
  let d := s.tdesc t
  let x := s.table t
  let target := if d.live then x.slotIn 2 else x.slotIn 3
  reqBad b || x.state != 1 || !d.names q.iwin || !d.names q.rwin || q.part != d.part ||
  (q.op == 1 && d.place == 0) || (q.op == 3 && d.kind == 0) || (q.op == 2 && !d.train) ||
  (q.op == 5 && (target.isNone || (d.live && !s.flag (od 0x8000 3)) || (!d.live && (match target with
    | some i => (x.ver i.val).sealed
    | none => true)))) ||
  ((q.op == 1 || q.op == 2 || q.op == 3) && d.place != 0 && (x.bound q.frame).isNone)

/-- The ring of a core's window as Peony keeps it; a ring window that has opened anew starts at 0 (R322). -/
def State.ring (s : State) (c p w : Nat) (gen : Nat) : PRing :=
  match s.peony.rings.find? (fun r => r.core == c && r.part == p && r.win == w && r.gen == gen) with
  | some r => r
  | none => { core := c, part := p, win := w, gen := gen }

/-- Keep a ring. -/
def State.setRing (s : State) (r : PRing) : State :=
  { s with peony := { s.peony with
    rings := r :: s.peony.rings.filter (fun x => !(x.core == r.core && x.part == r.part && x.win == r.win)) } }

/-- RING_POLL (R322): the entry at the position of the table's ring on a core is taken if VALID and in sequence. -/
def execRingPoll (c : Fin 16) (table : Fin 16) (s : State) : Out :=
  .next (s.clocked (fun s =>
  let d := s.tdesc table.val
  let x := (s.cores[c]).pad.win d.part d.ring
  if (s.table table.val).state ≠ 1 ∨ !x.isOpen ∨ x.size < 32 ∨ !bitAt x.attr 2 ∨ !bitAt x.attr 3 ∨
      !d.cores.any (fun l => s.sched.phys l == c.val) then s
    else
      let r := s.ring c.val d.part d.ring x.gen
      match s.peRead c d.part d.ring (32 * r.pos) 32 with
      | (s, none) => s
      | (s, some b) =>
        if !bitAt (fieldLe b 29 1) 7 ∨ fieldLe b 2 2 ≠ r.seq then s.setRing r
        else
          let s := s.modPad c (fun k => k.write { x with attr := x.attr - bitsOf x.attr 8 7 * 128 } (32 * r.pos + 29)
            [BitVec.ofNat 8 (fieldLe b 29 1 % 128)])
          let s := s.setRing { r with pos := (r.pos + 1) % (x.size / 32), seq := (r.seq + 1) % 65536 }
          let b := b.take 29 ++ [BitVec.ofNat 8 (fieldLe b 29 1 % 128)] ++ b.drop 30
          let q := parseReq b s.peony.nextId c.val d.part
          let s := { s with peony := { s.peony with nextId := s.peony.nextId + 1 } }
          let t := fieldLe b 1 1
          if s.reqRefused b q then
            let s := s.countRaise (od 0x8F00 4) 0x8002 table.val
            s.modTable (if t < 16 then t else table.val) (fun y => { y with reqs := y.reqs ++ [{ q with op := 0, done := true, code := 2 }] })
          else s.modTable t (fun y => { y with reqs := y.reqs ++ [{ q with ver := (y.bound q.frame).getD 3 }] })))

/-! Where the arrays of a version end (R314, R349). -/

/-- A directory entry as DRAM holds it: class and offset in bytes. -/
def State.dirRaw (s : State) (part : Nat) (v : TVersion) (i : Nat) : Nat × Nat :=
  match s.regionAt part (v.base 0 + 8 * i) 8 with
  | none => (3, 0)
  | some da =>
    let n := leNat (Sparse.getN zeroByte s.ext.dram da 8)
    (bitsOf n 63 62, bitsOf n 39 0 * 32)

/-- The end of a version's arrays in its partition's region. -/
def State.verEnd (s : State) (d : TDesc) (v : TVersion) : Nat :=
  let rows := (List.range d.rows).foldl (fun m i =>
    let e := s.dirRaw d.part v i
    if e.1 = 3 then m else Nat.max m (e.2 + ceilDiv (classBytes e.1 d.e) 32 * 32)) 0
  [v.base 0 + 8 * d.rows, v.base 1 + rows, v.base 2 + 4 * d.rows, v.base 3 + 4 * d.rows].foldl Nat.max 0

/-- The end of the arrays of every version that Peony keeps in a partition's region. -/
def State.partEnd (s : State) (part : Nat) : Nat :=
  (List.range 16).foldl (fun m t =>
    let d := s.tdesc t
    if d.part ≠ part ∨ d.place = 0 ∨ (s.table t).state ≠ 1 then m
    else (s.table t).vers.toList.foldl (fun m v => if v.state = 0 then m else Nat.max m (s.verEnd d v)) m) 0

/-- The bases of a version that the module makes: behind what the region holds, with free gaps (log entry 38); `store` bytes of row store. -/
def State.newBases (s : State) (d : TDesc) (t slot store : Nat) : List Nat :=
  let g := fun (i : Nat) => (Config.versionGaps t slot).getD i 0
  let b0 := s.partEnd d.part + g 0
  let b1 := b0 + 8 * d.rows + g 1
  let b2 := b1 + store + g 2
  [b0, b1, b2, b2 + 4 * d.rows + g 3]

/-! The pool (R327-R330, R337). -/

/-- The slot number of R325. -/
def slotNo (pos row : Nat) : Nat := 1048576 * pos + row

/-- No slot. -/
def noSlot : Nat := 0xFFFFFFFF

/-- The clock hand's walk over a core's pool (R329): the slot taken, the slots left and the hand. -/
def clockWalk (pos cap : Nat) : Nat → Nat → List PoolSlot → Option (Nat × List PoolSlot)
  | 0, _, _ => none
  | n + 1, h, l =>
    let mine := fun (y : PoolSlot) => y.pos == pos && y.row == h
    match l.find? mine with
    | none => some (h, l)
    | some y =>
      if !y.pins.isEmpty then clockWalk pos cap n ((h + 1) % cap) l
      else if y.ref then clockWalk pos cap n ((h + 1) % cap) (modifyFirst mine (fun y => { y with ref := false }) l)
      else some (h, removeFirst mine l)

/-- Take a pool slot for a row (R329): from the requester's pool, else from the next position that has one. -/
def State.takeSlot (s : State) (t : Nat) (d : TDesc) (start : Nat) : State × Option (Nat × Nat) :=
  let n := d.cores.length
  let x := s.table t
  let free := fun (pos : Nat) =>
    let cap := s.poolCap d pos
    decide ((x.slots.filter (fun y => y.pos == pos && !y.pins.isEmpty)).length < cap)
  match ((List.range n).map (fun i => (start + i) % n)).find? free with
  | none => (s, none)
  | some pos =>
    let cap := s.poolCap d pos
    let hand := ((x.hands.find? (fun y => y.1 == pos)).map (·.2)).getD 0 % cap
    match clockWalk pos cap (2 * cap + 1) hand x.slots with
    | none => (s, none)
    | some (row, l) =>
      (s.modTable t (fun x => { x with slots := l, hands := (pos, (row + 1) % cap) :: x.hands.filter (fun y => y.1 != pos) }), some (pos, row))

/-- The accumulation slot of a row for a step's parity (R337): assigned once, none left answers 0xFFFF_FFFF. -/
def State.accFor (s : State) (t : Nat) (d : TDesc) (ver idx step : Nat) : State × Nat :=
  let p := step % 2
  let x := s.table t
  if !d.train then (s, noSlot)
  else match x.accs.find? (fun a => a.parity == p && a.idx == idx && a.ver == ver) with
    | some a => (s, a.slot)
    | none =>
      let n := ((x.accNext.find? (fun y => y.1 == p)).map (·.2)).getD 0
      if d.accSlots * d.cores.length ≤ n then (s, noSlot)
      else
        let slot := slotNo (n / d.accSlots) (n % d.accSlots)
        (s.modTable t (fun x => { x with
          accs := x.accs ++ [{ parity := p, idx := idx, slot := slot, ver := ver }]
          accNext := (p, n + 1) :: x.accNext.filter (fun y => y.1 != p) }), slot)

/-- Put the accumulation slot of a parity into a pool slot. -/
def PoolSlot.setAcc (y : PoolSlot) (step a dev : Nat) : PoolSlot :=
  if step % 2 = 0 then { y with acc0 := a, dev := dev } else { y with acc1 := a, dev := dev }

/-- Update the pool slot of a row. -/
def PTable.modSlot (x : PTable) (pos row : Nat) (f : PoolSlot → PoolSlot) : PTable :=
  { x with slots := modifyFirst (fun y => y.pos == pos && y.row == row) f x.slots }

/-- What a LOOKUP has come to so far: the request, and the distinct indices of its batch window with their slots. -/
structure Coal where
  q : PReq
  win : List (Nat × Nat) := []

/-- A record is dropped. -/
def Coal.drop (k : Coal) : Coal := { k with q := { k.q with dropped := k.q.dropped + 1, map := k.q.map ++ [noSlot] } }

/-- A dropped record of the frame (OD 0x8F00.03). -/
def State.peDrop (s : State) (n : Nat := 1) : State := { s with peony := { s.peony with drops := s.peony.drops + n } }

/-- One index record of a LOOKUP (R327, R329); `shard` names the other member that holds the row (log entry 184). -/
def State.lookupOne (s : State) (t : Nat) (d : TDesc) (shard : Nat → Option Nat) (k : Coal) (idx : Nat) : State × Coal :=
  let x := s.table t
  let v := x.ver k.q.ver
  let base := 0x8100 + 16 * t
  if d.rows ≤ idx then ((s.bump (od base 5)).peDrop, k.drop)
  else
    let (s, cls, _) := if (shard idx).isSome then (s, 0, 0) else s.dirEntry d v idx
    if cls = 3 then ((s.bump (od base 6)).peDrop, k.drop)
    else
      let hit := fun (s : State) => if (shard idx).isSome then s else s.addHits d v idx 1
      match k.win.find? (fun y => y.1 == idx) with
      | some y => (hit s, { k with q := { k.q with map := k.q.map ++ [y.2] } })
      | none =>
        let k := if 65536 ≤ k.win.length then { k with win := [] } else k
        match (s.table t).slots.find? (fun y => y.ver == k.q.ver && y.idx == idx) with
        | some y =>
          let (s, a) := if (shard idx).isSome then (s, if k.q.step % 2 = 0 then y.acc0 else y.acc1) else s.accFor t d k.q.ver idx k.q.step
          let s := s.modTable t (fun x => x.modSlot y.pos y.row (fun y =>
            ({ y with ref := true, pins := if y.pins.contains k.q.id then y.pins else k.q.id :: y.pins }).setAcc k.q.step a y.dev))
          let n := slotNo y.pos y.row
          (hit s, { q := { k.q with map := k.q.map ++ [n], distinct := k.q.distinct + 1, resident := k.q.resident + 1 }, win := k.win ++ [(idx, n)] })
        | none =>
          let start := ((d.cores.zip (List.range d.cores.length)).find? (fun y => s.sched.phys y.1 == k.q.core)).map (·.2)
          match s.takeSlot t d (start.getD 0) with
          | (s, none) =>
            let s := ((s.bump (od base 7)).peDrop).raiseComp 0x8003 t
            let s := { s with peony := { s.peony with degraded := setBit s.peony.degraded 0 } }
            (s.causeComp .peony 0, k.drop)
          | (s, some (pos, row)) =>
            let (s, a) := if (shard idx).isSome then (s, noSlot) else s.accFor t d k.q.ver idx k.q.step
            let slot : PoolSlot := { pos := pos, row := row, gen := s.poolGen d pos, ver := k.q.ver, idx := idx, pins := [k.q.id] }
            let s := s.modTable t (fun x => { x with
              slots := x.slots ++ [slot.setAcc k.q.step a (((shard idx).getD s.device))]
              fills := x.fills ++ [{ req := k.q.id, pos := pos, row := row, ver := k.q.ver, idx := idx, remote := (shard idx).isSome }] })
            let n := slotNo pos row
            (hit s, { q := { k.q with map := k.q.map ++ [n], distinct := k.q.distinct + 1 }, win := k.win ++ [(idx, n)] })

/-- U32 values of a string. -/
def words (b : Bytes) : List Nat := (chunksOf 4 b.length b).map leNat

/-- The pool slots whose window has closed since hold no row any more (R224, R329). -/
def State.dropClosed (s : State) (t : Nat) (d : TDesc) : State :=
  s.modTable t (fun x => { x with slots := x.slots.filter (fun y => s.poolGen d y.pos == y.gen) })

/-- Handle a LOOKUP: its index records in order. One whose index window cannot be read is refused (log entry 42). -/
def State.lookup (s : State) (t : Nat) (d : TDesc) (shard : Nat → Option Nat) (q : PReq) : State :=
  match s.peRead (coreNo q.core) q.part q.iwin q.ioff (4 * q.count) with
  | (s, none) =>
    (s.countRaise (od 0x8F00 4) 0x8002 t).modTable t (fun x => x.modReq q.id (fun q => { q with op := 0, done := true, code := 2 }))
  | (s, some b) =>
    let s := (s.dropClosed t d).bump (od (0x8100 + 16 * t) 0x0D) q.count
    let (s, k) := (words b).foldl (fun (a : State × Coal) i => a.1.lookupOne t d shard a.2 i) (s, { q := q })
    s.modTable t (fun x => x.modReq q.id (fun _ => { k.q with done := true, code := if k.q.dropped = 0 then 0 else 1 }))

/-- The first request of a table that has not been handled (R331). -/
def PTable.front (x : PTable) : Option PReq := x.reqs.find? (fun q => !q.done)

/-- PEONY_LOOKUP (R327): the table's next request, where it is a LOOKUP. A SHARDED table's wait for their batch (R336). -/
def execPeonyLookup (table : Fin 16) (s : State) : Out :=
  .next (s.clocked (fun s =>
  let d := s.tdesc table.val
  match (s.table table.val).front with
    | some q => if q.op = 1 ∧ d.place ≠ 2 then s.lookup table.val d (fun _ => none) q else s
    | none => s))

/-- Records that named a slot are dropped as absent (R327, R336, R350). -/
def State.dropSlot (s : State) (t pos row : Nat) : State :=
  let n := slotNo pos row
  let x := s.table t
  let hits := ((x.reqs.filter (fun q => !q.closed)).map (fun q => (q.map.filter (· == n)).length)).foldl (· + ·) 0
  let s := (s.bump (od (0x8100 + 16 * t) 6) hits).peDrop hits
  s.modTable t (fun x => { x with
    slots := x.slots.filter (fun y => !(y.pos == pos && y.row == row))
    reqs := x.reqs.map (fun q =>
      let k := (q.map.filter (· == n)).length
      if q.closed ∨ k = 0 then q
      else { q with map := q.map.map (fun m => if m = n then noSlot else m), dropped := q.dropped + k, code := if q.code = 3 then 3 else 1 }) })

/-- A filled row goes to its pool slot (R330). -/
def State.fillRow (s : State) (t : Nat) (d : TDesc) (f : PFill) (l : List Nat) : State :=
  let s := s.modTable t (fun x => { x with fills := x.fills.erase f }.modReq f.req (fun q => { q with filled := q.filled + 1 }))
  let s := s.bump (od (0x8100 + 16 * t) 0x0B)
  let s := { s with peony := { s.peony with fills := s.peony.fills + 1 } }
  s.peSend s.device (s.peCore d f.pos) d.part d.pool (f.row * d.rowLen) 0 0 (poolBytes d l) false f.req

/-- PEONY_FILL (R330, R350): the oldest fill of the table from its own DRAM. -/
def execPeonyFill (table : Fin 16) (ecc : Ecc) (s : State) : Out :=
  .next (s.clocked (fun s =>
  let d := s.tdesc table.val
  let x := s.table table.val
  match x.fills.find? (fun f => !f.remote) with
    | none => s
    | some f =>
      match s.rowGet d (x.ver f.ver) f.idx ecc with
      | (s, none) => (s.modTable table.val (fun x => { x with fills := x.fills.erase f })).dropSlot table.val f.pos f.row
      | (s, some l) => s.fillRow table.val d f l))

/-! UPDATE, WRITE, RELEASE, APPLY (R324, R331, R337, R338). -/

/-- The front request of a table with an op. -/
def State.frontOp (s : State) (t op : Nat) : Option PReq :=
  match (s.table t).front with
  | some q => if q.op = op then some q else none
  | none => none

/-- A request has been handled. -/
def State.finishReq (s : State) (t : Nat) (q : PReq) (dropped : Nat) : State :=
  s.modTable t (fun x => x.modReq q.id (fun q => { q with done := true, dropped := dropped, code := if dropped = 0 then 0 else 1 }))

/-- Slot records and their FP32 rows (R324). -/
def State.slotRows (s : State) (d : TDesc) (q : PReq) : State × Option (List (Nat × Bytes)) :=
  let head := ceilDiv (4 * q.count) 32 * 32
  match s.peRead (coreNo q.core) q.part q.iwin q.ioff (head + 4 * d.e * q.count) with
  | (s, none) => (s, none)
  | (s, some b) =>
    (s, some ((List.range q.count).map (fun i => (fieldLe b (4 * i) 4, slice b (head + 4 * d.e * i) (4 * d.e)))))

/-- The pool slot a slot number names. -/
def PTable.named (x : PTable) (n : Nat) : Option PoolSlot := x.slots.find? (fun y => slotNo y.pos y.row == n)

/-- Refuse a request that cannot be read (log entry 42). -/
def State.unreadable (s : State) (t : Nat) (q : PReq) : State :=
  (s.countRaise (od 0x8F00 4) 0x8002 t).modTable t (fun x => x.modReq q.id (fun q => { q with op := 0, done := true, code := 2 }))

/-- PEONY_UPDATE (R337): each gradient row goes to its row's accumulator at the owner, for the step's parity (log entry 186). -/
def execPeonyUpdate (table : Fin 16) (s : State) : Out :=
  .next (s.clocked (fun s =>
  let t := table.val
  let d := s.tdesc t
  match s.frontOp t 2 with
    | none => s
    | some q =>
      match (s.dropClosed t d).slotRows d q with
      | (s, none) => s.unreadable t q
      | (s, some l) =>
        let (s, dropped) := l.foldl (fun (a : State × Nat) r =>
          let (s, n) := a
          match (s.table t).named r.1 with
          | none => (s.peDrop, n + 1)
          | some y =>
            let acc := if q.step % 2 = 0 then y.acc0 else y.acc1
            if acc = noSlot then (s.bump (od (0x8100 + 16 * t) 0x0A), n)
            else
              let off := (2 * (acc % 1048576) + q.step % 2) * 4 * d.e
              (s.peSend y.dev (s.peCore d (acc / 1048576)) d.part d.acc off 1 1 r.2 false q.id, n)) (s, 0)
        s.finishReq t q dropped))

/-- PEONY_WRITE (R324, R331): each row goes into the live version in its class and into its pool slot. -/
def execPeonyWrite (table : Fin 16) (s : State) : Out :=
  .next (s.clocked (fun s =>
  let t := table.val
  let d := s.tdesc t
  match s.frontOp t 3 with
    | none => s
    | some q =>
      match (s.dropClosed t d).slotRows d q with
      | (s, none) => s.unreadable t q
      | (s, some l) =>
        let (s, dropped) := l.foldl (fun (a : State × Nat) r =>
          let (s, n) := a
          match (s.table t).named r.1, (s.table t).slotIn 2 with
          | some y, some i =>
            let v := (s.table t).ver i.val
            let (s, cls, off) := s.dirEntry d v y.idx
            if cls = 3 then (s.peDrop, n + 1)
            else
              let vals := elems 6 r.2
              let s := s.rowPut d v cls off vals
              (s.peSend s.device (s.peCore d y.pos) d.part d.pool (y.row * d.rowLen) 0 0 (poolBytes d vals) false q.id, n)
          | _, _ => (s.peDrop, n + 1)) (s, 0)
        s.finishReq t q dropped))

/-- Unpin the slots of a LOOKUP (R324, R341). -/
def PTable.unpin (x : PTable) (id : Nat) : PTable := { x with slots := x.slots.map (fun y => { y with pins := y.pins.filter (· != id) }) }

/-- PEONY_RELEASE (R324): the slots of the LOOKUP with the reference's sequence from the same core are unpinned. -/
def execPeonyRelease (table : Fin 16) (s : State) : Out :=
  .next (s.clocked (fun s =>
  let t := table.val
  match s.frontOp t 4 with
    | none => s
    | some q =>
      match (s.table t).reqs.find? (fun r => r.op == 1 && r.core == q.core && r.seq == q.ref && r.closed) with
      | none => s.finishReq t q 0
      | some r => (s.modTable t (fun x => { (x.unpin r.id) with reqs := x.reqs.filter (fun y => y.id != r.id) })).finishReq t q 0))

/-- The sum of FP32 values in some order: each addition rounds (R338). -/
def sumFp : Nat → List Nat → Nat
  | 0, l => l.headD 0
  | n + 1, l =>
    if l.length ≤ 1 then l.headD 0
    else
      let i := (Config.sumOrder l.length).1 % l.length
      let rest := l.eraseIdx i
      let j := (Config.sumOrder l.length).2 % rest.length
      sumFp n (f32Add (l.getD i 0) (rest.getD j 0) :: rest.eraseIdx j)

/-- Σ g² in FP32 (R338): each square and each addition rounds. -/
def sumSquares (g : List Nat) : Nat := sumFp g.length (g.map (fun x => f32Mul x x))

/-- The optimiser on one row (R338): the new values and the new state. -/
def optimise (d : TDesc) (w g : List Nat) (a : Nat) : List Nat × Nat :=
  match d.opt with
  | 1 => (List.zipWith (fun w g => f32Sub w (f32Mul d.eta g)) w g, a)
  | 2 =>
    let a := f32Add a (f32Div (sumSquares g) (f32Of (.fin false d.e 0) 0))
    let den := f32Add (f32Sqrt a) d.eps
    (List.zipWith (fun w g => f32Sub w (f32Div (f32Mul d.eta g) den)) w g, a)
  | _ => (w, a)

/-- Apply the gradients of one touched row (R335, R338): LIVE in place, a SHADOW at a new location. -/
def State.applyRow (s : State) (t : Nat) (d : TDesc) (slot : Nat) (p : Nat) (a : AccSlot) : State :=
  let c := s.peCore d (a.slot / 1048576)
  let off := (2 * (a.slot % 1048576) + p) * 4 * d.e
  let v := (s.table t).ver slot
  let s := match s.peRead c d.part d.acc off (4 * d.e) with
    | (s, none) => s
    | (s, some gb) =>
      match s.rowGet d v a.idx with
      | (s, none) => s
      | (s, some w) =>
        let (s, st) := if d.opt = 2 then s.pGet d.part (v.base 3 + 4 * a.idx) 4 else (s, some [])
        let (w', st') := optimise d w (elems 6 gb) (leNat (st.getD []))
        let s := if d.opt = 2 then s.pPut d.part (v.base 3 + 4 * a.idx) (natLe 4 st') else s
        let (s, cls, at_) := s.dirEntry d v a.idx
        let s := if d.opt = 0 then s
          else if d.live then s.rowPut d v cls at_ w'
          else
            let at_ := (ceilDiv (s.partEnd d.part - v.base 1) 32 + Config.shadowGap t v.own.length) % 2 ^ 40
            let s := s.rowPut d v cls (at_ * 32) w'
            let s := s.pPut d.part (v.base 0 + 8 * a.idx) (natLe 8 (2 ^ 62 * cls + at_))
            s.modTable t (fun x => x.setVer slot { (x.ver slot) with own := (x.ver slot).own ++ [a.idx] })
        s.bump (od (0x8100 + 16 * t) 0x0E)
  let x := (s.cores[c]).pad.win d.part d.acc
  if x.isOpen then s.modPad c (fun k => k.write { x with attr := x.attr - bitsOf x.attr 8 7 * 128 } off (zeros (4 * d.e))) else s

/-- PEONY_APPLY (R338): the touched rows of the step's parity in the order of their slots; the parity's assignments end and every
unpinned pool slot of the table is invalid. -/
def execPeonyApply (table : Fin 16) (s : State) : Out :=
  .next (s.clocked (fun s =>
  let t := table.val
  let d := s.tdesc t
  match s.frontOp t 5 with
    | none => s
    | some q =>
      let p := q.step % 2
      match (if d.live then (s.table t).slotIn 2 else (s.table t).slotIn 3) with
      | none => s.unreadable t q
      | some i =>
        let rows := (s.table t).accs.filter (fun a => a.parity == p)
        let s := rows.foldl (fun s a => s.applyRow t d i.val p a) s
        let s := s.modTable t (fun x => { x with
          accs := x.accs.filter (fun a => a.parity != p)
          accNext := x.accNext.filter (fun y => y.1 != p)
          slots := x.slots.filter (fun y => !y.pins.isEmpty) })
        s.finishReq t q 0))

/-- The status record (R326). -/
def PReq.status (q : PReq) : Bytes :=
  [q.seq, q.count, q.distinct, q.resident, q.filled, q.dropped, q.code, 0].flatMap (natLe 4)

/-- PEONY_STATUS_RECORD (R326): the oldest request without a record, handled, filled and acknowledged: its slot map and then its
status record, whose last message counts. -/
def execPeonyStatusRecord (table : Fin 16) (s : State) : Out :=
  .next (s.clocked (fun s =>
  let t := table.val
  let x := s.table t
  match x.reqs.find? (fun q => !q.closed) with
    | none => s
    | some q =>
      if !q.done ∨ x.fills.any (fun f => f.req == q.id) ∨ s.peWaits q.id then s
      else
        let c := coreNo q.core
        let head := if q.op = 1 then ceilDiv (4 * q.count) 32 * 32 else 0
        let s := if q.op = 1 then s.peSend s.device c q.part q.rwin q.roff 0 0 (padTo head (q.map.flatMap (natLe 4))) false 0 else s
        let s := s.peSend s.device c q.part q.rwin (q.roff + head) 0 0 q.status true 0
        s.modTable t (fun x => { x with
          reqs := if q.op = 1 then (x.modReq q.id (fun q => { q with closed := true })).reqs else x.reqs.filter (fun y => y.id != q.id) })))

/-! The exchange (R287, R336). -/

/-- The member of a SHARDED table's group that holds an index, as its device. -/
def State.shardDev (s : State) (d : TDesc) (idx : Nat) : Nat := s.grpBase (s.group d.group) + idx / Nat.max 1 d.shard

/-- The other members' devices. -/
def State.otherMembers (s : State) (d : TDesc) : List Nat :=
  let e := s.group d.group
  ((List.range (grpDevs e)).map (fun i => s.grpBase e + i)).filter (fun v => v != s.device)

/-- A block's header flit (R287). -/
def blockHeader (step items t : Nat) : Bytes := natLe 4 step ++ natLe 4 items ++ natLe 1 t ++ zeros 23

/-- Send a block of a group and table to a member's Peony (R287). -/
def State.peBlock (s : State) (ty g t dev step : Nat) (data : Bytes) : State :=
  let cs := chunksOf 128 data.length data
  (cs.zip (List.range cs.length)).foldl (fun s y =>
    s.sendColl ty stopPE g t (dev, stopPE) (if y.2 = 0 then step % 65536 else y.2) (y.2 + 1 == cs.length) y.1) s

/-- EXCHANGE_BATCH (R336): once the next request of every client core is a LOOKUP of the step, with fewer than two steps in
flight, the batch is coalesced and every other member gets its request block (log entry 185). -/
def execExchangeBatch (table : Fin 16) (step_ : Nat) (s : State) : Out :=
  .next (s.clocked (fun s =>
  let t := table.val
  let d := s.tdesc t
  let x := s.table t
  let reqs := d.cores.filterMap (fun c => x.reqs.find? (fun q => !q.done && q.core == s.sched.phys c))
  if x.state ≠ 1 ∨ d.place ≠ 2 ∨ 2 ≤ x.batches.length ∨ reqs.length ≠ d.cores.length ∨ d.cores.isEmpty ∨
      !reqs.all (fun q => q.op == 1 && q.step == step_) then s
    else
      let shard := fun (i : Nat) => if s.shardDev d i = s.device then none else some (s.shardDev d i)
      let order := x.reqs.filter (fun q => reqs.any (fun r => r.id == q.id))
      let s := order.foldl (fun s q => s.lookup t d shard q) s
      let ids := order.map (·.id)
      let fills := (s.table t).fills.filter (fun f => f.remote && ids.contains f.req)
      let count := fun (f : PFill) => (((s.table t).reqs.filter (fun q => ids.contains q.id)).map (fun q =>
        (q.map.filter (· == slotNo f.pos f.row)).length)).foldl (· + ·) 0
      let asked := (s.otherMembers d).map (fun v =>
        (v, sortBy (fun (a b : PFill) => decide (a.idx < b.idx)) (fills.filter (fun f => s.shardDev d f.idx == v))))
      let s := asked.foldl (fun s a =>
        s.peBlock 8 d.group d.table a.1 step_ (pad32 (blockHeader step_ a.2.length t ++ a.2.flatMap (fun f => natLe 4 f.idx) ++
          a.2.flatMap (fun f => natLe 4 (count f))))) s
      s.modTable t (fun x => { x with batches := x.batches ++ [{ step := step_, asked := asked.map (fun a => (a.1, a.2.map (·.idx))) }] })))

/-- A message's data begin with a block header that its TAG agrees with (R287). -/
def opensBlock (m : Msg) : Bool := m.tag == fieldLe m.data 0 2 && allZero (slice m.data 9 23)

/-- A message of a block reaches Peony (R287): the whole block once its LAST is there. A message that does not follow the one before begins a
block, where a header opens it; a block that has lost a message is never whole. -/
def State.blockIn (s : State) (answer : Bool) (m : Msg) : State × Option Bytes :=
  let mine := fun (b : PBlock) => b.dev == m.sdev && b.answer == answer
  let rest := s.peony.blocks.filter (fun b => !mine b)
  let put := fun (l : List PBlock) => { s with peony := { s.peony with blocks := l } }
  let grown := match s.peony.blocks.find? (fun b => mine b && b.next == m.tag) with
    | some b => some { b with next := b.next + 1, data := b.data ++ m.data }
    | none => if opensBlock m then some { dev := m.sdev, answer := answer, data := m.data } else none
  match grown with
  | none => (put rest, none)
  | some b => if m.count then (put rest, some b.data) else (put (rest ++ [b]), none)

/-- A row record of an answer block (R336). -/
def rowRecord (cls scale acc : Nat) (vals : Bytes) : Bytes :=
  pad32 (natLe 1 cls ++ zeros 3 ++ natLe 4 scale ++ natLe 4 acc ++ zeros 4 ++ vals)

/-- Answer one index of a request block (R336, R337; log entry 194). -/
def State.answerOne (s : State) (t : Nat) (d : TDesc) (step idx n : Nat) : State × Bytes :=
  let missing := rowRecord 3 0 noSlot []
  match (s.table t).slotIn 2 with
  | none => (s, missing)
  | some i =>
    let v := (s.table t).ver i.val
    if d.rows ≤ idx ∨ s.shardDev d idx ≠ s.device then (s, missing)
    else
      let (s, cls, off) := s.dirEntry d v idx
      if cls = 3 then (s, missing)
      else match s.pGet d.part (v.base 1 + off) (classBytes cls d.e) with
        | (s, none) => (s, missing)
        | (s, some b) =>
          let s := s.addHits d v idx n
          let (s, a) := s.accFor t d i.val idx step
          (s, if cls = 0 then rowRecord 0 0 a b else rowRecord cls (leNat (b.take 4)) a (b.drop 4))

/-- MSG_A2A_REQ (R287, R336): every request block gets one answer block, of MISSING records where the table does not serve. -/
def execMsgA2aReq (m : Msg) (hdr : Travel) (s : State) : Out :=
  .next (match s.arrive 8 m hdr with
    | (s, false) => s
    | (s, true) =>
      match s.blockIn false m with
      | (s, none) => s
      | (s, some b) =>
        let t := fieldLe b 8 1
        let d := s.tdesc t
        let n := Nat.min (fieldLe b 4 4) ((b.length - 32) / 4)
        let step := fieldLe b 0 4
        let serves := decide (t < 16) && (s.table t).state == 1 && d.place == 2
        let (s, out) := (List.range n).foldl (fun (a : State × Bytes) i =>
          let (s, r) := if serves then a.1.answerOne t d step (fieldLe b (32 + 4 * i) 4) (fieldLe b (32 + 4 * n + 4 * i) 4)
            else (a.1, rowRecord 3 0 noSlot [])
          (s, a.2 ++ r)) (s, [])
        s.peBlock 9 (m.offset / 65536 % 16) t m.sdev step (blockHeader step n t ++ out))

/-- Length of a row record of an answer block (R336). -/
def TDesc.recordLen (d : TDesc) (cls : Nat) : Nat :=
  if cls = 3 then 32 else ceilDiv (16 + (if cls = 0 then 2 * d.e else if cls = 1 then d.e else d.e / 2)) 32 * 32

/-- One row record of an answer block (R336). -/
def State.takeRow (s : State) (t : Nat) (d : TDesc) (dev step i : Nat) (b : Bytes) : State :=
  match (s.table t).fills.find? (fun f => f.remote && f.idx == i) with
  | none => s
  | some f =>
    if fieldLe b 0 1 = 3 then (s.modTable t (fun x => { x with fills := x.fills.erase f })).dropSlot t f.pos f.row
    else
      let s := s.modTable t (fun x => x.modSlot f.pos f.row (fun y => y.setAcc step (fieldLe b 8 4) dev))
      s.fillRow t d f (rowValues (fieldLe b 0 1) d.e (fieldLe b 4 4) (slice b 16 (d.recordLen (fieldLe b 0 1) - 16)))

/-- Take the row records of an answer block in the order of the request (R336). -/
def State.takeRows (s : State) (t : Nat) (d : TDesc) (dev step : Nat) (is : List Nat) (b : Bytes) : State :=
  (is.foldl (fun (a : State × Bytes) i => (a.1.takeRow t d dev step i a.2, a.2.drop (d.recordLen (fieldLe a.2 0 1)))) (s, b)).1

/-- MSG_A2A_ROW (R287, R336): the LAST answer of every other member ends the batch. -/
def execMsgA2aRow (m : Msg) (hdr : Travel) (s : State) : Out :=
  .next (match s.arrive 9 m hdr with
    | (s, false) => s
    | (s, true) =>
      match s.blockIn true m with
      | (s, none) => s
      | (s, some b) =>
        let t := fieldLe b 8 1
        let step := fieldLe b 0 4
        let d := s.tdesc t
        match (s.table t).batches.find? (fun x => x.step == step), decide (t < 16) with
        | some ba, true =>
          match ba.asked.find? (fun a => a.1 == m.sdev) with
          | none => s
          | some a =>
            let s := s.takeRows t d m.sdev step a.2 (b.drop 32)
            let left := ba.asked.filter (fun x => x.1 != m.sdev)
            s.modTable t (fun x => { x with
              batches := if left.isEmpty then x.batches.filter (fun y => y.step != step)
                else x.batches.map (fun y => if y.step = step then { y with asked := left } else y) })
        | _, _ => s)

/-! Commands on versions (R321, R333-R335). -/

/-- The class BUILD gives a row (R321). -/
def TDesc.classFor (d : TDesc) (h : Nat) : Nat := if d.hot ≤ h then 0 else if d.warm ≤ h then 1 else 2

/-- BUILD of a DRAM or SHARDED version (R321): rows in order, one behind the other. -/
def State.buildRows (s : State) (d : TDesc) (src dst : TVersion) (slot : Nat) : State :=
  ((List.range d.rows).foldl (fun (a : State × Nat) i =>
    let (s, at_) := a
    let (s, l) := s.rowGet d src i
    let (s, h) := s.pGet d.part (src.base 2 + 4 * i) 4
    let s := s.pPut d.part (dst.base 2 + 4 * i) (natLe 4 0)
    let s := if d.opt = 2 then s.pPut d.part (dst.base 3 + 4 * i) (natLe 4 (Config.buildState slot i)) else s
    match l with
    | none => (s.pPut d.part (dst.base 0 + 8 * i) (natLe 8 (2 ^ 62 * 3)), at_)
    | some l =>
      let cls := d.classFor (leNat (h.getD []))
      let s := s.rowPut d dst cls (at_ * 32) l
      (s.pPut d.part (dst.base 0 + 8 * i) (natLe 8 (2 ^ 62 * cls + at_)), at_ + ceilDiv (classBytes cls d.e) 32)) (s, 0)).1

/-- A REPLICATED version's rows fit every replica window (R313). -/
def State.replicaFits (s : State) (d : TDesc) : Bool :=
  (List.range d.cores.length).all (fun p => decide (d.rows * d.rowLen ≤ ((s.cores[s.peCore d p]).pad.win d.part d.pool).size))

/-- Version slots a table has (R332). -/
def TDesc.slots (d : TDesc) : Nat := if d.place = 0 then 2 else 3

/-- Whether a write of COMMAND passes (R333, R335, R342): RANGE for what its Meaning refuses, REFUSED for a slot that does not
suit. -/
def State.peonyCheck (s : State) (t v : Nat) : Nat :=
  let d := s.tdesc t
  let x := s.table t
  let a := v % 4
  let b := v / 4 % 4
  match v / 16 with
  | 1 =>
    if d.slots ≤ a ∨ d.slots ≤ b then 6
    else if x.state ≠ 1 ∨ (x.ver a).state = 0 ∨ (x.ver b).state ≠ 0 ∨ (x.ver b).loading then 6
    else if d.place = 0 ∧ !s.replicaFits d then 6 else 0
  | 2 =>
    if b ≠ 0 then 5
    else if d.slots ≤ a ∨ x.state ≠ 1 ∨ d.place = 0 ∨ (x.ver a).state ≠ 0 ∨ (x.slotIn 3).isSome ∨ (x.slotIn 2).isNone then 6 else 0
  | 3 =>
    if b ≠ 0 then 5 else if d.slots ≤ a ∨ (x.ver a).state ≠ 3 ∨ (x.ver a).sealed then 6 else 0
  | _ => 5

/-- What COMMAND does (R321, R333, R335). -/
def State.peonyCommand (s : State) (t v : Nat) : State :=
  let d := s.tdesc t
  let x := s.table t
  let a := v % 4
  let b := v / 4 % 4
  match v / 16 with
  | 1 =>
    let src := x.ver a
    let n := s.fresh % 2 ^ 32
    let s := s.drawn
    if d.place = 0 then s.setVer t b { number := n, image := src.image, loading := true }
    else
      let dst : TVersion := { number := n, state := 1, bases := s.newBases d t b (d.rows * (2 * d.e)) }
      (s.buildRows d src dst b).setVer t b dst
  | 2 =>
    let l := x.ver ((x.slotIn 2).map (·.val)).get!
    let n := s.fresh % 2 ^ 32
    let s := s.drawn
    let bs := s.newBases d t a 0
    let v : TVersion := { number := n, state := 3, bases := [bs.getD 0 0, l.base 1, bs.getD 2 0, bs.getD 3 0] }
    let copy := fun (s : State) (i len : Nat) => match s.pGet d.part (l.base i) len with
      | (s, some b) => s.pPut d.part (v.base i) b
      | (s, none) => s
    let s := copy (copy s 0 (8 * d.rows)) 2 (4 * d.rows)
    (if d.opt = 2 then copy s 3 (4 * d.rows) else s).setVer t a v
  | _ =>
    let v := x.ver a
    let (s, dir) := s.pGet d.part (v.base 0) (8 * d.rows)
    let (s, rows) := v.own.eraseDups.foldl (fun (acc : State × Bytes) i =>
      let (s, cls, off) := acc.1.dirEntry d v i
      let (s, r) := s.pGet d.part (v.base 1 + off) (ceilDiv (classBytes cls d.e) 32 * 32)
      (s, acc.2 ++ r.getD [])) (s, [])
    (s.setVer t a { v with sealed := true }).setOct (od (0x8100 + 16 * t) 8) (natLe 32 (Config.sm3 (dir.getD [] ++ rows)).toNat)

/-- BUILD (R321, R333): a write of COMMAND with 1 in bits [7:4]. -/
def execBuild (by_ : Writer) (table : Fin 16) (v : BitVec 8) (s : State) : Out :=
  .next (s.command by_ (0x8100 + 16 * table.val) 3 (.num v.toNat)
    (fun s => if v.toNat / 16 = 1 then s.peonyCheck table.val v.toNat else 5) (fun s => s.peonyCommand table.val v.toNat))

/-- CREATE_SHADOW (R335): 2 in bits [7:4]. -/
def execCreateShadow (by_ : Writer) (table : Fin 16) (v : BitVec 8) (s : State) : Out :=
  .next (s.command by_ (0x8100 + 16 * table.val) 3 (.num v.toNat)
    (fun s => if v.toNat / 16 = 2 then s.peonyCheck table.val v.toNat else 5) (fun s => s.peonyCommand table.val v.toNat))

/-- SEAL (R335): 3 in bits [7:4]. -/
def execSeal (by_ : Writer) (table : Fin 16) (v : BitVec 8) (s : State) : Out :=
  .next (s.command by_ (0x8100 + 16 * table.val) 3 (.num v.toNat)
    (fun s => if v.toNat / 16 = 3 then s.peonyCheck table.val v.toNat else 5) (fun s => s.peonyCommand table.val v.toNat))

/-- SWITCH's checks (R334, R534). -/
def State.switchCheck (s : State) (t v : Nat) : Nat :=
  if s.gateShut then 11 else if (s.tdesc t).slots ≤ v ∨ ((s.table t).ver v).state ≠ 1 then 6 else 0

/-- SWITCH (R334): the slot named becomes LIVE at the version switch. -/
def execSwitch (by_ : Writer) (table : Fin 16) (v : BitVec 8) (s : State) : Out :=
  .next (s.command by_ (0x8100 + 16 * table.val) 4 (.num v.toNat) (fun s => s.switchCheck table.val v.toNat)
    (fun s => s.modTable table.val (fun x => { x with switchTo := some v.toNat })))

/-- VERSION_SWITCH (R334): at a frame boundary, with the named slot PREPARED and no version still RETIRING, the LIVE slot retires with the last
frame before the one in ingest and the PREPARED one goes live from it. -/
def execVersionSwitch (table : Fin 16) (s : State) : Out :=
  .next (s.clocked (fun s =>
  let t := table.val
  let x := s.table t
  match x.switchTo with
    | none => s
    | some i =>
      if !s.frame.run ∨ s.frame.now ≠ s.frame.ing.start ∨ (x.ver i).state ≠ 1 ∨ (x.slotIn 4).isSome then s
      else
        let f := s.frame.ing.n
        let s := match x.slotIn 2 with
          | some l => s.setVer t l.val { (x.ver l.val) with state := 4, frame := f - 1 }
          | none => s
        (s.setVer t i { (x.ver i) with state := 2, frame := f }).modTable t (fun x => { x with switchTo := none })))

/-- VERSION_RETIRE (R334): the tasks of its last frame have ended and every LOOKUP bound to it is released. -/
def execVersionRetire (table : Fin 16) (s : State) : Out :=
  .next (s.clocked (fun s =>
  let t := table.val
  let x := s.table t
  match x.slotIn 4 with
    | none => s
    | some r =>
      let last := (x.ver r.val).frame
      let busy := s.frame.comp.n ≤ last && s.sched.insts.any (fun i => i.state.live)
      if s.frame.ing.n ≤ last ∨ busy ∨ x.reqs.any (fun q => q.op == 1 && q.ver == r.val) then s
      else (((s.modTable t (fun x => x.empty r.val)).showVers t).modTable t (fun x => { x with slots := x.slots.filter (fun y => y.ver != r.val) })).raise 0x8004 t))

/-- REPLICA_PREPARED (R333): a loading version is in every inactive replica window. -/
def execReplicaPrepared (table : Fin 16) (slot : Fin 3) (s : State) : Out :=
  .next (s.clocked (fun s =>
  let v := (s.table table.val).ver slot.val
  if v.loading then s.setVer table.val slot.val { v with loading := false, state := 1 } else s))

/-- A validation record agrees with the sealed shadow (R335, R518). -/
def State.validOk (s : State) (t : Nat) (rec : Bytes) : Bool :=
  match (s.table t).slotIn 3 with
  | none => false
  | some i =>
    ((s.table t).ver i.val).sealed && rec.length == 128 && fieldLe rec 0 2 == 1 && fieldLe rec 2 1 == t && fieldLe rec 3 1 == i.val &&
    allZero (slice rec 4 4) && slice rec 8 16 == s.oct (od 0 3) && slice rec 24 32 == padTo 32 (s.oct (od (0x8100 + 16 * t) 8)) &&
    s.signedBy (s.oct (od 0xB002 2)) 5 (rec.take 56) (rec.drop 56)

/-- A sealed shadow is validated (R335): PREPARED, or EV 0x8005. -/
def State.validate (s : State) (t : Nat) (rec : Bytes) : State :=
  match (s.table t).slotIn 3 with
  | some i => if s.validOk t rec then s.setVer t i.val { ((s.table t).ver i.val) with state := 1 } else s.raise 0x8005 t
  | none => s.raise 0x8005 t

/-- A refused validation record raises EV 0x8005 (R335). -/
def State.validRefused (s : State) (t : Nat) : State :=
  if s.hap.lastStatus = 6 then s.raise 0x8005 t else s

/-- VALIDATION (R335): a refused record is answered with REFUSED and raises EV 0x8005. -/
def execValidation (by_ : Writer) (table : Fin 16) (rec : Bytes) (s : State) : Out :=
  .next ((s.command by_ (0x8100 + 16 * table.val) 9 (.oct rec) (fun s => if s.validOk table.val rec then 0 else 6)
    (fun s => s.validate table.val rec)).validRefused table.val)

/-- A table version component takes effect (R333, R537): its slot is PREPARED, once every replica holds it where REPLICATED; a
REPLICATED one that does not fit stays EMPTY. -/
def State.loadTable (s : State) (t slot : Nat) (payload : Bytes) : State :=
  let d := s.tdesc t
  if d.place = 0 then
    if s.replicaFits d then s.setVer t slot { number := (Config.tableLoad payload).1, image := Config.tableImage payload, loading := true } else s
  else
    let (n, bases, pieces) := Config.tableLoad payload
    let s := pieces.foldl (fun s p => s.pPut d.part p.1 p.2) s
    s.setVer t slot { number := n, state := 1, bases := bases }

/-- The frame computed is closed for Peony (R341, R342): pins of ended tasks go, the frame's counts are shown. -/
def State.peonyBoundary (s : State) (ended : FrameCtx) : State :=
  let p := s.peony
  let gone := fun (q : PReq) => q.op == 1 && p.ended.contains (q.core, q.part, q.frame)
  let tables := p.tables.map (fun x =>
    let ids := (x.reqs.filter gone).map (·.id)
    { ids.foldl PTable.unpin x with reqs := x.reqs.filter (fun q => !(gone q && q.closed)) })
  -- a LOOKUP of an ended task that is not closed yet ends at a later boundary
  let left := p.ended.filter (fun y => tables.toList.any (fun x => x.reqs.any (fun q => q.op == 1 && (q.core, q.part, q.frame) == y)))
  let s := { s with peony := { p with tables := tables, ended := left, fills := 0, drops := 0, degraded := 0 } }
  (((s.setNum (od 0x8F00 1) ended.n).setNum (od 0x8F00 2) p.fills).setNum (od 0x8F00 3) p.drops).setNum (od 0x8F00 0x0A) p.degraded

end Sys2Proof.Machine
end

