-- ==== Sys2Proof/Machine/Scratch.lean ====
section
/-! DEFINITION. Scrubbing, the march tests, row repair and the confidential wipe (R237-R239, R247-R253). -/

namespace Sys2Proof.Machine

/-- Physical byte address of line n of a quad. -/
def lineAddr (quad n : Nat) : Nat := 1048576 * quad + n * 128

/-- The 16 words of a line, of all four banks: physical address ÷ 8. -/
def lineWords (a : Nat) : List Nat := (List.range 16).map (fun i => a / 8 + i)

/-- A read of a line finds what is known to be in error and what `e` says (R237, R238). -/
def State.lineFinds (s : State) (c : Fin 16) (a : Nat) (e : Finds) : State :=
  let known := (lineWords a).filter (fun w => (s.cores[c]).pad.badWord w)
  let fresh := { e with hits := e.hits.filter (fun y => !known.contains (a / 8 + y.1)) }
  ((known.foldl (fun s w => s.padUncorrectable c (8 * w)) s).padFinds c (lineWords a) fresh).1

/-- SCRUB_STEP (R239): the quad's next line is read, with R237 or R238 for what the read finds; after the last one the pass is
counted, and a pass that became late is counted late once. -/
def execScrubStep (c : Fin 16) (quad : Fin 24) (ecc : Finds) (late : Bool) (s : State) : Out :=
  .next (s.clocked (fun s =>
  let k := (s.cores[c]).pad
  let n := k.scrubPos[quad] % 8192
  let a := lineAddr quad.val n
  let s := s.lineFinds c a ecc
  let s := if late ∧ !k.scrubLate[quad] then s.countRaise (odCore 0x7100 c 5) 0x7002 c.val else s
  let s := if n = 8191 then s.bump (odCore 0x7100 c 4) else s
  s.modPad c (fun k => { k with
    scrubPos := k.scrubPos.set quad ((n + 1) % 8192)
    scrubLate := k.scrubLate.set quad (n != 8191 && (late || k.scrubLate[quad])) })))

/-- Every row of a core, spare rows included, bank by bank (R249, R251). -/
def allRows : List MarchRow :=
  (List.range 24).flatMap (fun q => (List.range 4).flatMap (fun b => (List.range 260).map (fun r => { quad := q, bank := b, row := r })))

/-- MARCH_REQUEST (R251): each core of the mask queues a preserving test of all its rows. -/
def State.marchRequest (s : State) (mask : Nat) : State :=
  (bitList mask 16).foldl (fun s c => s.modPad (coreNo c) (fun k => { k with marchQ := allRows })) s

/-- A write of MARCH_REQUEST. -/
def execMarchRequest (by_ : Writer) (mask : BitVec 16) (s : State) : Out :=
  .next (s.command by_ 0x7000 2 (.num mask.toNat) (fun _ => 0) (fun s => s.marchRequest mask.toNat))

/-- The lowest usable spare of a bank (R252). -/
def Pad.spareOf (k : Pad) (quad bank : Nat) : Option Nat :=
  (List.range 4).find? (fun i => !k.badSpares.contains (quad, bank, i) &&
    !k.repairs.any (fun r => r.quad == quad && r.bank == bank && r.spare == i))

/-- The repair map of a core (OD 0x7102). -/
def Pad.repairMap (k : Pad) : Bytes :=
  k.repairs.flatMap (fun r => natLe 4 (2 ^ 24 * r.quad + 2 ^ 22 * r.bank + 2 ^ 14 * r.row + 2 ^ 12 * r.spare))

/-- A quad is retired (R253): at once by a start-up test, at the next restart by a preserving one; flash holds it from now on. -/
def State.retireQuad (s : State) (c : Fin 16) (quad : Nat) (now : Bool) : State :=
  let key := odCore 0x7100 c 15
  let s := if now then s.store key (.num (setBit (s.num key) quad : Nat))
    else s.modPad c (fun k => { k with nextRetired := setBit k.nextRetired quad })
  s.raise 0x7007 c.val quad

/-- A faulty row that no spare replaces raises ECC until the restart (R253). -/
def Pad.rowDead (k : Pad) (key : Nat) : Pad := if k.deadRows.contains key then k else { k with deadRows := key :: k.deadRows }

/-- Map a faulty row to a spare, or retire its quad (R252, R253). -/
def State.repairRow (s : State) (c : Fin 16) (quad bank row : Nat) (now : Bool) : State :=
  match (s.cores[c]).pad.spareOf quad bank with
  | some sp =>
    let s := s.modPad c (fun k => { k with repairs := k.repairs ++ [{ quad := quad, bank := bank, row := row, spare := sp }] })
    let k := (s.cores[c]).pad
    let s := s.store (odCore 0x7100 c 16) (.num k.repairs.length)
    let s := s.store (odCore 0x7102 c 0) (.oct k.repairMap)
    s.raise 0x7006 c.val row
  | none =>
    let s := if now then s else s.modPad c (fun k => k.rowDead (1024 * quad + 256 * bank + row))
    if bitAt (s.num (odCore 0x7100 c 15)) quad ∨ bitAt (s.cores[c]).pad.nextRetired quad then s else s.retireQuad c quad now

/-- The spare row i of a bank is faulty (R252): it becomes unusable, and a row mapped to it needs another. -/
def State.loseSpare (s : State) (c : Fin 16) (quad bank i : Nat) (now : Bool) : State :=
  let hit := fun (r : RowRepair) => r.quad == quad && r.bank == bank && r.spare == i
  let used := (s.cores[c]).pad.repairs.find? hit
  let s := s.modPad c (fun k => { k with
    badSpares := if k.badSpares.contains (quad, bank, i) then k.badSpares else (quad, bank, i) :: k.badSpares
    repairs := k.repairs.filter (fun r => !hit r) })
  match used with
  | some r => s.repairRow c quad bank r.row now
  | none => s

/-- A row, or with row 256 + i a spare row, fails its test (R252). A row already mapped away is tested in its spare. -/
def State.rowFails (s : State) (c : Fin 16) (quad bank row : Nat) (now : Bool) : State :=
  if 256 ≤ row then s.loseSpare c quad bank (row - 256) now
  else match (s.cores[c]).pad.repairs.find? (fun r => r.quad == quad && r.bank == bank && r.row == row) with
    | some r => if now then s else s.loseSpare c quad bank r.spare now
    | none => s.repairRow c quad bank row now

/-- PRESERVING_TEST_ROW (R251, R252): the first queued row of the bank is tested and leaves the queue; its error count starts
again; the row's data stays. -/
def execPreservingTestRow (c : Fin 16) (quad : Fin 24) (bank : Fin 4) (row : Fin 260) (faulty : Bool) (s : State) : Out :=
  .next (s.clocked (fun s =>
  let x : MarchRow := { quad := quad.val, bank := bank.val, row := row.val }
  let k := (s.cores[c]).pad
  if k.marchQ.find? (fun y => y.quad == x.quad && y.bank == x.bank) ≠ some x then s
    else
      let s := s.modPad c (fun k => { k with
        marchQ := k.marchQ.erase x
        rowErrs := if row.val < 256 then Sparse.put (fun _ => 0) k.rowErrs (1024 * quad.val + 256 * bank.val + row.val) 0 else k.rowErrs })
      if faulty then s.rowFails c quad.val bank.val row.val false else s))

/-- What start-up leaves of a scratchpad (R223, R250): zero words, empty tags, closed windows, the repairs of flash. -/
def Pad.started (k : Pad) : Pad := { repairs := k.repairs, badSpares := k.badSpares }

/-- Scratchpads after the destructive test, with the failing rows given (R250, R252). -/
def State.marchAll (s : State) (bad : List (Fin 16 × Fin 24 × Fin 4 × Fin 260)) : State :=
  let s := (List.range 16).foldl (fun s c => s.modPad (coreNo c) Pad.started) s
  let spares := bad.filter (fun y => decide (256 ≤ y.2.2.2.val))
  let rows := bad.filter (fun y => decide (y.2.2.2.val < 256))
  (spares ++ rows).foldl (fun s y => s.rowFails y.1 y.2.1.val y.2.2.1.val y.2.2.2.val true) s

/-- STARTUP_MARCH_TEST (R250): acts before RUN only. -/
def execStartupMarchTest (bad : List (Fin 16 × Fin 24 × Fin 4 × Fin 260)) (s : State) : Out :=
  .next (if s.frame.run then s else s.marchAll bad)

/-- ROW_REPAIR_CLEAR (R253): takes effect at the next restart. -/
def execRowRepairClear (by_ : Writer) (v : BitVec 8) (s : State) : Out :=
  .next (s.command by_ 0x7000 4 (.num v.toNat) (fun _ => 0) (fun s => if v = 1 then s.arm (od 0x7000 4) else s))

/-- One core's part of R248 after every task has ended: its queues are discarded, its CONFIDENTIAL windows are wiped and closed, and it
reports. -/
def State.wipeCore (s : State) (c : Fin 16) : State :=
  s.modCore c (fun k => { k with
    seq := { k.seq with arrayQ := [], dmaQ := [], task := none, wait := .none }
    arr := { k.arr with running := none, cur := none, held := none, replays := [], pending := [], merges := [], storeJobs := [] }
    gets := []
    pad := { k.pad.closeConfidential with wiped := true } })

/-- All cores wipe (R248). -/
def State.wipeCores (s : State) : State :=
  (List.finRange 16).foldl (fun s c => s.wipeCore c) s.endEvery

end Sys2Proof.Machine
end

