-- ==== Sys2Proof/Machine/Schedule.lean ====
section
/-! DEFINITION. The schedule component (R363-R376): its layout, the reasons to refuse it, plans, program copies, activation. -/

namespace Sys2Proof.Machine

/-! Layout (R363, R364, R366, R372, R376). -/

/-- Part k of n records of `size` bytes from offset `o`. -/
def recordsOf (b : Bytes) (o size n : Nat) : List Bytes := (List.range n).map (fun i => slice b (o + size * i) size)

/-- A partition record (R364): partition i stands at place i, and reserved fields are zero. -/
def parsePart (i : Nat) (b : Bytes) : Option PartRec :=
  if fieldLe b 0 1 = i ∧ fieldLe b 1 1 < 2 ∧ fieldLe b 4 1 ≤ 22 ∧ fieldLe b 5 1 ≤ 62 ∧ fieldLe b 6 1 ≤ 8 ∧ fieldLe b 7 1 = 0 ∧
      allZero (slice b 16 16) ∧ fieldLe b 5 1 + fieldLe b 6 1 ≤ 64 then
    some { part := i, present := fieldLe b 1 1 == 1, mask := fieldLe b 2 2, quad := fieldLe b 4 1, granule := fieldLe b 5 1
           slots := fieldLe b 6 1, counters := fieldLe b 8 8 }
  else none

/-- A window specification (R366); F, B and the attribute bits of a NAMED one hold no reserved value. -/
def parseSpec (b : Bytes) : Option WinSpec :=
  let w : WinSpec := { size := fieldLe b 0 4, attr := fieldLe b 4 3, f := fieldLe b 7 1, b := fieldLe b 8 1, named := fieldLe b 9 1 == 1 }
  if fieldLe b 9 1 < 2 ∧ fieldLe b 10 2 = 0 ∧
      (w.named = false ∨ (w.attr < 2 ^ 22 ∧ bitsOf w.attr 8 7 ≠ 3 ∧ w.f < 24 ∧ w.b < 64)) then some w else none

/-- Parse a list of records, none where one of them does not parse. -/
def parseAll {α : Type} (f : Bytes → Option α) : List Bytes → Option (List α)
  | [] => some []
  | b :: bs =>
    match f b, parseAll f bs with
    | some a, some as_ => some (a :: as_)
    | _, _ => none

/-- A task descriptor (R366): w0 is NAMED and carries PROGRAM. -/
def parseTask (b : Bytes) : Option TaskDesc :=
  match parseAll parseSpec (recordsOf b 32 12 8) with
  | none => none
  | some ws =>
    let w0 := ws.headD {}
    let k := fieldLe b 6 1
    if fieldLe b 1 1 < 8 ∧ fieldLe b 4 1 < 8 ∧ fieldLe b 5 1 < 8 ∧ (k < 64 ∨ k = 255) ∧ fieldLe b 7 1 = 0 ∧ fieldLe b 20 4 = 0 ∧
        w0.named ∧ bitAt w0.attr 0 then
      some { task := fieldLe b 0 1, part := fieldLe b 1 1, mask := fieldLe b 2 2, crit := fieldLe b 4 1
             optional := bitAt (fieldLe b 5 1) 0, overrunEnd := bitAt (fieldLe b 5 1) 1, copy := bitsOf (fieldLe b 5 1) 2 2
             ready := k, threshold := fieldLe b 8 4, release := fieldLe b 12 2, due := fieldLe b 14 2, budget := fieldLe b 16 4
             arg := fieldLe b 24 8, wins := ws }
    else none

/-- A plan record (R376). -/
def parsePlanRec (b : Bytes) : Option Plan :=
  if fieldLe b 2 2 = 0 ∧ allZero (slice b 20 12) then
    some { retired := fieldLe b 0 2, first := fieldLe b 4 4, count := fieldLe b 8 4, map := fieldLe b 12 8 }
  else none

/-- A slot entry (R372): owners 0-9, lender a partition or none, and none for P0's entries. -/
def parseEntry (b : Bytes) : Option SlotEntry :=
  let e : SlotEntry := { start := fieldLe b 0 2, len := fieldLe b 2 2, mask := fieldLe b 4 2, owner := fieldLe b 6 1, lender := fieldLe b 7 1 }
  if e.owner < 10 ∧ (e.lender < 8 ∨ e.lender = 15) ∧ (e.owner ≠ 0 ∨ e.lender = 15) then some e else none

/-- A schedule's payload (R363-R376): none where a field is reserved or outside its range. -/
def parseSchedule (b : Bytes) : Option Schedule :=
  let nt := fieldLe b 2 2
  let np := fieldLe b 4 1
  let ne := fieldLe b 24 4
  let period := fieldLe b 8 4
  let phase := fieldLe b 12 4
  let l := fieldLe b 16 4
  if fieldLe b 0 2 = 1 ∧ 1 ≤ nt ∧ nt ≤ 256 ∧ 1 ≤ np ∧ np ≤ 17 ∧ 1 ≤ fieldLe b 5 1 ∧ fieldLe b 5 1 ≤ 8 ∧ fieldLe b 6 1 ≤ 12 ∧ fieldLe b 7 1 ≤ 4 ∧
      50000 ≤ period ∧ period ≤ 200000 ∧ period % 10 = 0 ∧ phase < period ∧ phase % 10 = 0 ∧ 1000 ≤ l ∧ l ≤ period ∧ l % 10 = 0 ∧
      4 ≤ fieldLe b 28 1 ∧ fieldLe b 28 1 ≤ 16 ∧ allZero (slice b 29 35) ∧ b.length = 320 + 128 * nt + 32 * np + 8 * ne then
    match parseAll (fun i => parsePart (fieldLe i 0 1) i) (recordsOf b 64 32 8),
        parseAll parseTask (recordsOf b 320 128 nt), parseAll parsePlanRec (recordsOf b (320 + 128 * nt) 32 np),
        parseAll parseEntry (recordsOf b (320 + 128 * nt + 32 * np) 8 ne) with
    | some ps, some ts, some pl, some es =>
      if ps.map (·.part) = List.range 8 then
        some { minCtrl := fieldLe b 5 1, guarantee := fieldLe b 6 1, foldMargin := fieldLe b 7 1, period := period, phase := phase, launch := l
               ident := fieldLe b 20 4, clock := fieldLe b 28 1, parts := ps, tasks := ts, plans := pl, entries := es }
      else none
    | _, _, _, _ => none
  else none

/-! Checks (R374, R408, R555, R585). -/

/-- The physical core of a logical core under a plan. -/
def Plan.phys (p : Plan) (l : Nat) : Nat := bitsOf p.map (4 * l + 3) (4 * l)

/-- Physical cores of a mask of logical cores under a plan. -/
def Plan.cores (p : Plan) (mask : Nat) : Nat := (bitList mask 16).foldl (fun m l => setBit m (p.phys l)) 0

/-- A plan's slot entries. -/
def Schedule.entriesOf (a : Schedule) (p : Plan) : List SlotEntry := (a.entries.drop p.first).take p.count

/-- Ranges that share nothing, in a list sorted by start. -/
def spansApart : List (Nat × Nat) → Bool
  | [] => true
  | [_] => true
  | x :: y :: r => decide (x.1 + x.2 ≤ y.1) && spansApart (y :: r)

/-- A plan's entries cover every slot of every logical core exactly once, with one HOLLYHOCK entry each (R372). -/
def Schedule.entriesOk (a : Schedule) (p : Plan) : Bool :=
  decide (p.first + p.count ≤ a.entries.length) &&
  (List.range 16).all (fun l =>
    let es := (a.entriesOf p).filter (fun e => bitAt e.mask l)
    let spans := sortBy (fun x y => decide (x.1 < y.1)) ((es.filter (fun e => e.len != 0)).map (fun e => (e.start, e.len)))
    (spans.map (·.2)).foldl (· + ·) 0 == a.period / 10 && spansApart spans &&
      spans.all (fun x => decide (x.1 + x.2 ≤ a.period / 10)) && (es.filter (fun e => e.owner == 8)).length == 1)

/-- Plans (R374, R376): plan 0 is the identity without retired cores, retired masks differ, and no plan uses a core it retires. -/
def Schedule.plansOk (a : Schedule) : Bool :=
  ((a.plans.head?).any (fun p => p.retired == 0 && p.map == 0xFEDCBA9876543210)) &&
  decide ((a.plans.map (·.retired)).Nodup) && a.plans.all (fun p => p.cores 0xFFFF &&& p.retired == 0)

/-- A task's fields against its partition and the launch offset (R374). -/
def Schedule.taskOk (a : Schedule) (t : TaskDesc) : Bool :=
  match a.parts.find? (fun p => p.part == t.part && p.present) with
  | none => false
  | some p =>
    (t.mask &&& (0xFFFF - p.mask)) == 0 && decide (t.release < t.due ∧ t.due ≤ a.launch / 10) &&
      t.wins.all (fun w => !w.named || bitAt p.counters (bitsOf w.attr 21 16))

/-- Granules of a NAMED window as (quad range, granule range). -/
def WinSpec.spot (w : WinSpec) : Nat × Nat × Nat × Nat :=
  let m := bitsOf w.attr 15 11 + 1
  (w.f, m, w.b, granules (ceilDiv w.size 32 * 32) m)

/-- Two granule rectangles share a granule. -/
def spotsMeet (x y : Nat × Nat × Nat × Nat) : Bool :=
  decide (x.1 < y.1 + y.2.1 ∧ y.1 < x.1 + x.2.1 ∧ x.2.2.1 < y.2.2.1 + y.2.2.2 ∧ y.2.2.1 < x.2.2.1 + x.2.2.2)

/-- NAMED windows of a task with their numbers. -/
def TaskDesc.named (t : TaskDesc) : List (Nat × WinSpec) := ((List.range 8).zip t.wins).filter (fun x => x.2.named)

/-- Two tasks name overlapping granules through different windows (R374). -/
def tasksMeet (t u : TaskDesc) : Bool :=
  t.named.any (fun x => u.named.any (fun y => (t.part != u.part || x.1 != y.1) && spotsMeet x.2.spot y.2.spot))

/-- No two tasks of one physical core do so under any plan (R374). -/
def Schedule.apart (a : Schedule) : Bool :=
  a.plans.all (fun p => a.tasks.all (fun t => a.tasks.all (fun u => p.cores t.mask &&& p.cores u.mask == 0 || !tasksMeet t u)))

/-- Save slots lie clear of every NAMED window (R374). -/
def Schedule.savesApart (a : Schedule) : Bool :=
  a.plans.all (fun p => a.parts.all (fun r => !r.present || a.tasks.all (fun t =>
    p.cores r.mask &&& p.cores t.mask == 0 || t.named.all (fun w => !spotsMeet w.2.spot (r.quad, 2, r.granule, r.slots)))))

/-- The value an object will have from the next start-up. -/
def State.storedNum (s : State) (key : Nat) : Nat := (Sparse.get Od.dflt s.dict.journal key).toInt.toNat

/-- The launch offset leaves the stored RESULT_LEAD, STALE_AGE and MARIGOLD_DUE in their ranges (R585). -/
def State.launchFits (s : State) (l : Nat) : Bool :=
  decide (s.storedNum (od 0x1A00 2) ≤ l ∧ l ≤ s.storedNum (od 0x1A00 3) ∧ s.storedNum (od 0xA030 8) + 1000 ≤ l)

/-- The copies suit the safety mode (R408). -/
def State.copiesOk (s : State) (a : Schedule) : Bool :=
  let p0 := a.tasks.filter (fun t => t.part == 0)
  let bs := p0.filter (fun t => t.copy == 1)
  if s.num (od 0xA000 1) = 1 then bs.isEmpty
  else !bs.isEmpty && a.plans.all (fun p => (p0.filter (fun t => t.copy == 0)).all (fun t => bs.all (fun u => p.cores t.mask &&& p.cores u.mask == 0)))

/-- Why a schedule is refused: 1 R374, 2 the copies of R408, 3 too few usable controllers. -/
def State.refuses (s : State) (a : Schedule) : Option Nat :=
  if !(decide ((a.tasks.map (·.task)).Nodup) && a.tasks.all a.taskOk && a.plansOk && a.plans.all a.entriesOk && a.apart && a.savesApart &&
      a.clock == s.num (od 0xE000 0x0B) && s.launchFits a.launch) then some 1
  else if !s.copiesOk a then some 2
  else if s.controllers.length < a.minCtrl then some 3 else none

/-- The same for a payload. -/
def State.refusesPayload (s : State) (b : Bytes) : Option Nat :=
  match parseSchedule b with
  | none => some 1
  | some a => s.refuses a

/-- What a refusal raises (R374, R386, R408). -/
def State.raiseRefusal (s : State) (why : Nat) : State :=
  let s := s.raise 0x9008
  if why = 2 then s.raise 0xA010 else if why = 3 then s.declareDoubt 2 else s

/-! Components the schedule takes its programs from. -/

/-- The installed component of a type and instance. -/
def State.component (s : State) (type inst : Nat) : Option Component := s.sec.comps.find? (fun c => c.type == type && c.inst == inst && !c.damaged)

/-- The order of the SM2 curve's base point (PRESUMED: GB/T 32918.5, which R512 names as the curve order; log entry 15). -/
def sm2Order : Nat := 0xFFFFFFFEFFFFFFFFFFFFFFFFFFFFFFFF7203DF6B21C6052B53BBF40939D54123

/-- SM3 over the device-unique secret and a label (R512). -/
def derived (label : String) : Bytes := natLe 32 (Config.sm3 (natLe 32 Config.dus.toNat ++ ascii label)).toNat

/-- The private part of the device identity key (R512): 0 is replaced by 1. -/
def identityKey : Nat :=
  let k := fieldBe (derived "IDENTITY") 0 32 % sm2Order
  if k = 0 then 1 else k

/-- The storage key (R512). -/
def storageKey : Bytes := (derived "STORAGE").take 16

/-- What a payload holds: SM4 in counter mode over an encrypted one (R520), 16 bytes for 16 bytes. -/
def Component.unseal (c : Component) (payload : Bytes) : Bytes :=
  if bitAt (fieldLe c.header 14 1) 0 then
    match Config.sm2Unwrap identityKey (slice c.header 80 113) with
    | some k => Config.sm4Ctr k (slice c.header 208 16) payload
    | none => payload
  else payload

/-- The contents of a component as flash holds it. -/
def Component.plain (c : Component) : Bytes := c.unseal c.payload

/-- The bytes of a component as OD 0x3010-0x3017 and 0x9001 serve them, and as the model library holds it. -/
def Component.bytes (c : Component) : Bytes :=
  c.header ++ c.keyRec ++ padTo (ceilDiv c.payload.length 32 * 32) c.payload ++ c.trailer

/-- No schedule is in force or accepted (R375, R525); in RUN that is a cause of FALLBACK (R428; log entry 183). -/
def State.noSchedule (s : State) : State :=
  let s := s.loseAll
  let s := s.modSched (fun x => { x with active := none, accepted := none, atRestart := false, insts := [], running_ := false })
  if s.frame.run then s.enterFallback 2 else s

/-! The model library (R23, R25, R349, R350): the components of the directory in its order from DA 0 on. -/

/-- Where a component lies in the library. -/
def libraryAt (cs : List Component) (c : Component) : Nat :=
  ((cs.takeWhile (fun x => !(x.type == c.type && x.inst == c.inst))).map (fun x => x.bytes.length)).foldl (· + ·) 0

/-- Put the components of the directory into the library. -/
def State.fillLibrary (s : State) : State :=
  s.sec.comps.foldl (fun s c => s.dramPut (libraryAt s.sec.comps c) c.bytes) s

/-- A component fails R519 at start-up, or a read of it reports damage (R350, R521): EV 0xB009 with SRV_N, damaged until it is replaced. -/
def State.damage (s : State) (c : Component) : State :=
  ({ s with sec := { s.sec with
    comps := s.sec.comps.map (fun d => if d.type = c.type ∧ d.inst = c.inst then { d with damaged := true } else d) } } : State).raise
    0xB009 (c.type % 256) 0 true

/-- What a component holds, read from the library; none where a word of it cannot be read, which damages it. -/
def State.fromLibrary (s : State) (c : Component) : State × Option Bytes :=
  match s.dramGet (libraryAt s.sec.comps c + 424) c.payload.length with
  | (s, some b) => (s, some (c.unseal b))
  | (s, none) => (s.damage c, none)

/-- The device identity key is available (R512, R532, R533). -/
def State.identityOk (s : State) : Bool := !s.sec.debugOpen && !s.sec.tampered && !s.sec.dusOff

/-- A component can be loaded: it is not encrypted, or the device identity key is available (R520). -/
def State.loadable (s : State) (c : Component) : Bool := !bitAt (fieldLe c.header 14 1) 0 || s.identityOk

/-- The model as the library gives it: empty where none is installed; one that is damaged or cannot be decrypted leaves no schedule (R520,
R521). -/
def State.readModel (s : State) : State × Option Bytes :=
  match s.component 0x10 0 with
  | none => (s, some [])
  | some c =>
    if !s.loadable c then (s.noSchedule, none)
    else match s.fromLibrary c with
    | (s, some b) => (s, some b)
    | (s, none) => (s.noSchedule, none)

/-- The program of each task goes from the model library into the w0 granules of the cores of `only` that may run it (R25, R367). -/
def State.copyPrograms (s : State) (only : Nat → Bool) : State :=
  match s.sched.active, s.readModel with
  | some a, (s, some m) =>
    a.tasks.foldl (fun s t =>
      let w := t.wins.headD {}
      (List.range 16).foldl (fun s c =>
        if only c ∧ s.sched.runsOn t.mask c then
          s.modPad (coreNo c) (fun k => k.load w.f w.b (bitsOf w.attr 15 11 + 1) (Config.modelProgram m t.task))
        else s) s) s
  | some _, (s, none) => s
  | none, _ => s

/-- A window of a schedule that carries CONFIDENTIAL holds an item of encrypted contents (R520). -/
def Schedule.hides (a : Schedule) (x : Nat × Nat × Nat × Nat × Bytes) : Bool :=
  a.tasks.any (fun t => bitAt t.mask x.1 && t.wins.any (fun w => bitAt w.attr 4 && w.f == x.2.1 && w.b == x.2.2.1
    && bitsOf w.attr 15 11 + 1 == x.2.2.2.1 && decide (x.2.2.2.2.length ≤ w.size)))

/-- A schedule and an encrypted model place contents, the tasks' programs in w0 among them, in a window that does not carry CONFIDENTIAL (R520; log entry 182). -/
def Schedule.leaks (a : Schedule) (m : Bytes) : Bool :=
  (Config.modelContents m).any (fun x => !a.hides x) ||
    a.tasks.any (fun t => !bitAt (t.wins.headD {}).attr 4 && !(Config.modelProgram m t.task).isEmpty)

/-- Encrypted contents go into their CONFIDENTIAL windows on the cores of `only` (R25, R377, R520). -/
def State.copyContents (s : State) (only : Nat → Bool) : State :=
  match s.component 0x10 0 with
  | none => s
  | some c =>
    if bitAt (fieldLe c.header 14 1) 0 then
      match s.readModel with
      | (s, some m) =>
        (Config.modelContents m).foldl (fun s x =>
          let c := s.sched.phys x.1
          if only c then s.modPad (coreNo c) (fun k => k.load x.2.1 x.2.2.1 x.2.2.2.1 x.2.2.2.2) else s) s
      | (s, none) => s
    else s

/-! Plans (R376, R377). -/

/-- Show the plan in force (OD 0x9000.02-.03). -/
def State.showPlan (s : State) : State :=
  match s.sched.plan_ with
  | some p => (s.setNum (od 0x9000 2) s.sched.plan).setNum (od 0x9000 3) p.map
  | none => s

/-- The instances of a schedule (R366): one per task and logical core of its mask. -/
def Schedule.instances (a : Schedule) : List Inst :=
  a.tasks.flatMap (fun t => (bitList t.mask 16).map (fun l => ({ task := t.task, lcore := l } : Inst)))

/-- The index of the plan for a retired mask. -/
def Schedule.planFor (a : Schedule) (retired : Nat) : Option Nat :=
  (List.range a.plans.length).find? (fun i => (a.plans[i]?.any (fun p => p.retired == retired)))

/-- Retired tiles of a core (OD 0x6100+0x10·c .02). -/
def State.tilesRetired (s : State) (c : Nat) : Nat := popCount (s.num (od (0x6100 + 16 * c) 2)) 16

/-- The causes of doubt that a schedule settles (R386): no plan, fold margin, controllers. -/
def State.judgeDoubt (s : State) : State :=
  match s.sched.active with
  | none => s
  | some a =>
    let s := if (a.planFor s.sched.retired).isNone then s.declareDoubt 0 else s
    let s := if (List.range 16).any (fun c => !bitAt s.sched.retired c && decide (a.foldMargin < s.tilesRetired c)) then s.declareDoubt 1 else s
    if s.controllers.length < a.minCtrl then s.declareDoubt 2 else s

/-- The cores that have retired change the plan at a boundary (R377). -/
def State.switchPlan (s : State) : State :=
  match s.sched.active with
  | none => s
  | some a =>
    let gone := fun (c : Nat) => bitAt s.sched.retired c
    let s := (List.range 16).foldl (fun s c => if gone c then s.modPad (coreNo c) Pad.closeAll else s) s
    match a.planFor s.sched.retired with
    | some i =>
      if i = s.sched.plan then s
      else
        let before := s.sched
        let s := s.modSched (fun x => { x with plan := i, insts := a.instances })
        let s := s.showPlan
        let more := fun (c : Nat) => (List.range 16).any (fun l => s.sched.phys l == c && before.phys l != c)
        ((s.copyPrograms more).copyContents more).raise 0x9006
    | none =>
      let s := s.modSched (fun x => { x with insts := x.insts.filter (fun i => !gone (x.phys i.lcore)) })
      s.declareDoubt 0

/-! Activation (R375). -/

/-- A partition record's bytes (OD 0x9010+P .01). -/
def PartRec.bytes (p : PartRec) : Bytes :=
  natLe 1 p.part ++ natLe 1 (if p.present then 1 else 0) ++ natLe 2 p.mask ++ natLe 1 p.quad ++ natLe 1 p.granule ++ natLe 1 p.slots ++ zeros 1 ++
  natLe 8 p.counters ++ zeros 16

/-- The objects that report a schedule (R387, R439). -/
def State.showSchedule (s : State) (a : Schedule) : State :=
  let s := (((s.setNum (od 0x9000 1) a.ident).setNum (od 0x9000 4) a.period).setNum (od 0x9000 5) a.phase).setNum (od 0x9000 6) a.launch
  let s := (s.setNum (od 0x9000 9) a.guarantee).setNum (od 0xA000 8) (a.launch + 2000 : Nat)
  a.parts.foldl (fun s p => s.setOct (od (0x9010 + p.part) 1) p.bytes) s

/-- The main channel may dispatch: no SAFE cause, and its DRAM regions exist (R354, R429). -/
def State.mayRun (s : State) : Bool := s.num (od 0xA000 0x0A) == 0 && !bitAt (s.num (od 0xA000 3)) 1

/-- Put a schedule in force (R375): what still runs is ended (R537), every window closes, programs and contents are copied; the frame's
times are taken over where no schedule runs; RETURNED and DECOMMISSIONED have none (R525); in RUN that changes the launch offset alone (R40, `acceptSchedule`). -/
def State.putSchedule (s : State) (a : Schedule) : State :=
  if s.sec.base = 5 ∨ s.sec.base = 6 then s else
  let s := s.loseAll
  let s := (List.range 16).foldl (fun s c => s.modPad (coreNo c) Pad.closeAll) s
  let fresh := s.sched.active.isNone
  let s := if fresh then { s with frame := { s.frame with period := 1000 * a.period, phase := 1000 * a.phase, launch := 1000 * a.launch } } else s
  let s := s.modSched (fun x => { x with
    active := some a, accepted := none, atRestart := false, insts := a.instances, plan := (a.planFor x.retired).getD 0
    slotOf := Vector.replicate 16 65535, preemptAt := Vector.replicate 16 none, running_ := s.mayRun, claimed := [], want := [] })
  let s := ((s.showSchedule a).showPlan).copyPrograms (fun _ => true)
  let s := s.copyContents (fun _ => true)
  (((s.clearDoubt 0).clearDoubt 1).clearDoubt 2).judgeDoubt

/-- A schedule has been accepted: it waits for its boundary, or for the next restart where it changes the frame (R40, R375). -/
def State.acceptSchedule (s : State) (a : Schedule) (staged : Bool) : State :=
  let now := s.frame.now
  let later := match s.sched.active with
    | some b => b.period != a.period || b.phase != a.phase || b.launch != a.launch
    | none => s.frame.run && (s.frame.period != 1000 * a.period || s.frame.phase != 1000 * a.phase)
  s.modSched (fun x => { x with accepted := some a, atRestart := later, acceptedAt := now, staged := staged })

end Sys2Proof.Machine
end

