-- ==== Sys2Proof/Machine/Comp.lean ====
section
/-! DEFINITION. Components (R515-R522, R535-R537): their format and checks, the directory, measurement, staging and activation. -/

namespace Sys2Proof.Machine

/-! Ingest programs (R55, R57, R58). -/

/-- A word of an ingest program holds no reserved opcode, field or value and no branch beyond the last word (R55, R57). -/
def ingestWordOk (n : Nat) (w : Nat) : Bool :=
  match bitsOf w 31 27 with
  | 0x00 => w % 2 ^ 27 == 0
  | 0x01 => bitsOf w 1 0 == 0
  | 0x02 => true
  | 0x03 => bitsOf w 14 0 == 0
  | 0x04 => true
  | 0x05 => bitsOf w 14 0 == 0
  | 0x06 => bitsOf w 18 0 == 0
  | 0x07 => bitsOf w 14 0 == 0
  | 0x08 => bitsOf w 14 0 == 0
  | 0x09 => bitsOf w 19 0 == 0 && decide (bitsOf w 26 24 < 4)
  | 0x0A => bitsOf w 16 0 == 0
  | 0x0B => bitsOf w 22 0 == 0
  | 0x0C => bitsOf w 22 0 == 0
  | 0x0D => bitsOf w 22 20 != 7
  | 0x0E => w % 2 ^ 27 == 0
  | 0x0F => bitsOf w 26 16 == 0
  | 0x10 => bitsOf w 15 8 == 0 && bitsOf w 18 16 != 7 && decide (bitsOf w 7 0 < n)
  | 0x11 => bitsOf w 22 8 == 0 && decide (bitsOf w 7 0 < n)
  | 0x12 => bitsOf w 26 23 == 0 && bitsOf w 7 0 == 0
  | 0x13 => w % 2 ^ 27 == 0
  | 0x14 => w % 2 ^ 27 == 0
  | _ => false

/-- The words of a payload. -/
def wordsOf (b : Bytes) : List Nat := (List.range (b.length / 4)).map (fun i => fieldLe b (4 * i) 4)

/-- A program that the module loads (R55). -/
def programOk (b : Bytes) : Bool :=
  let ws := wordsOf b
  b.length % 4 == 0 && decide (1 ≤ ws.length ∧ ws.length ≤ 256) && ws.all (ingestWordOk ws.length)

/-! The format (R517, R518). -/

/-- A type the module knows (R518). -/
def typeKnown (t : Nat) : Bool := [0x01, 0x02, 0x03, 0x10, 0x11, 0x12, 0x13, 0x20].contains t

/-- The largest payload of a type (R518); the heap's 110.75 MiB where the table says heap. -/
def typeLimit (t : Nat) : Nat :=
  match t with
  | 0x01 => 16777216 | 0x02 => 6291456 | 0x03 => 4194304 | 0x11 => 16777216 | 0x12 => 2048 | _ => 116129792

/-- The measurement register of a type (R518). -/
def typeReg (t : Nat) : Nat :=
  match t with
  | 0x01 => 0 | 0x02 => 1 | 0x03 => 1 | 0x10 => 2 | 0x11 => 3 | 0x12 => 4 | _ => 5

/-- The instance byte suits the type (R517). -/
def instanceOk (t i : Nat) : Bool :=
  match t with
  | 0x12 => decide (i < 8)
  | 0x13 => decide (i / 16 < 3)
  | _ => i == 0

/-- The parts of a component (R517): header, key record, payload, trailer; none where they do not make up the bytes. -/
def splitComponent (b : Bytes) : Option (Component × Bytes) :=
  let n := fieldLe b 8 4
  let padded := ceilDiv n 32 * 32
  if b.length = 496 + padded ∧ allZero (slice b (424 + n) (padded - n)) then
    some ({ type := fieldLe b 2 2, inst := fieldLe b 15 1, issue := fieldLe b 4 4, epoch := fieldLe b 12 2, header := b.take 256
            keyRec := slice b 256 168, payload := slice b 424 n, trailer := b.drop (424 + padded) }, b.drop (424 + padded))
  else none

/-- The bytes a component takes, from its header. -/
def componentSize (b : Bytes) : Nat := 496 + ceilDiv (fieldLe b 8 4) 32 * 32

/-- The components of a bundle (R518): back to back, each 32-byte aligned. -/
def bundleParts : Nat → Bytes → List Bytes
  | 0, _ => []
  | n + 1, b =>
    if b.length < 496 ∨ fieldLe b 0 2 ≠ 1 then (if allZero b then [] else [b])
    else b.take (componentSize b) :: bundleParts n (b.drop (ceilDiv (componentSize b) 32 * 32))

/-- The epoch floor of a type (R519): the persistent one, and for Tarkor types the fuse thermometer of 32 steps. -/
def State.floor (s : State) (t : Nat) : Nat :=
  let find := fun (l : List (Nat × Nat)) => ((l.find? (fun x => x.1 == t)).map (·.2)).getD 0
  Nat.max (find s.sec.floors) (if t ≤ 3 then find s.sec.thermometer else 0)

/-- The component's signer is the one R516 asks for. -/
def State.signerOk (s : State) (c : Component) (trailer : Bytes) : Bool :=
  let body := c.header ++ c.keyRec
  if c.type ≤ 3 then s.signedBy c.keyRec 1 body trailer
  else
    let own := s.oct (od 0xB002 3)
    s.signedBy c.keyRec 3 body trailer && own.length == 168 && fieldLe own 4 4 == fieldLe c.keyRec 4 4 && slice own 24 64 == slice c.keyRec 24 64

/-- R519's checks of one component, bundle or not, without a bundle's parts. -/
def State.oneOk (s : State) (c : Component) (trailer : Bytes) : Bool :=
  let h := c.header
  let flags := fieldLe h 14 1
  fieldLe h 0 2 == 1 && typeKnown c.type && decide (flags < 4) && instanceOk c.type c.inst && decide (c.payload.length ≤ typeLimit c.type) &&
  (if bitAt flags 1 then slice h 16 16 == s.oct (od 0 3) else allZero (slice h 16 16)) &&
  slice h 32 32 == natLe 32 (Config.sm3 c.payload).toNat && decide (fieldLe h 64 4 ≤ s.num (od 0 6)) &&
  allZero (slice h 68 12) && allZero (slice h 193 15) && allZero (slice h 224 32) &&
  (if bitAt flags 0 then s.identityOk && (Config.sm2Unwrap identityKey (slice h 80 113)).isSome else allZero (slice h 80 113)) &&
  decide (s.floor c.type ≤ c.epoch) && s.signerOk c trailer

/-- A component read from bytes, where R519 accepts it (no bundle). -/
def State.readOne (s : State) (b : Bytes) : Option Component :=
  match splitComponent b with
  | none => none
  | some (c, tr) => if c.type ≠ 0x20 ∧ s.oneOk c tr then some c else none

/-- R519: the components of an accepted component or bundle. -/
def State.readComponent (s : State) (b : Bytes) : Option (List Component) :=
  match splitComponent b with
  | none => none
  | some (c, tr) =>
    if !s.oneOk c tr then none
    else if c.type = 0x20 then
      match parseAll s.readOne (bundleParts 4096 c.payload) with
      | some cs => if (cs.map (fun x => (x.type, x.inst))).Nodup then some cs else none
      | none => none
    else some [c]

/-! Measurement (R522). -/

/-- Extend a measurement register: M ← SM3(M ‖ v). -/
def State.extend (s : State) (i : Nat) (v : Bytes) : State :=
  let k : Fin 8 := Fin.ofNat 8 i
  { s with sec := { s.sec with m := s.sec.m.set k (natLe 32 (Config.sm3 (s.sec.m[k] ++ v)).toNat) } }

/-- Extend a register with SM3 of bytes. -/
def State.measure (s : State) (i : Nat) (v : Bytes) : State := s.extend i (natLe 32 (Config.sm3 v).toNat)

/-- A component is measured into its type's register. -/
def State.measureComp (s : State) (c : Component) : State := s.measure (typeReg c.type) (c.header ++ c.keyRec)

/-! The directory and the heap (R357, R358, R507, R536). -/

/-- Heap bytes a component takes: whole erase blocks of 64 KiB (log entry 46). -/
def Component.heap (c : Component) : Nat := 65536 * ceilDiv (496 + ceilDiv c.payload.length 32 * 32) 65536

/-- The components in the heap: those that either directory copy names, each once, and those staged (R357, R358, R535, R536). -/
def Sec.inHeap (x : Sec) : List Component :=
  let a := (x.dirs[0]).parts
  let more := (x.dirs[1]).parts.filter (fun c => a.all (fun d => !(d.type == c.type && d.inst == c.inst && d.seq == c.seq)))
  a ++ more ++ (if x.stage.written then [] else x.stage.parts)

/-- Show HEAP_FREE (OD 0x7900.02). -/
def State.showHeap (s : State) : State :=
  let used := (s.sec.inHeap.map Component.heap).foldl (· + ·) 0
  s.setNum (od 0x7900 2) (116129792 - used : Nat)

/-- A component takes the place of the one of its type and instance, or comes last (log entry 47). -/
def putComponent (l : List Component) (c : Component) : List Component :=
  if l.any (fun x => x.type == c.type && x.inst == c.inst) then l.map (fun x => if x.type = c.type ∧ x.inst = c.inst then c else x)
  else l ++ [c]

/-- Raise an epoch floor, and a Tarkor type's thermometer (R519). -/
def State.raiseFloor (s : State) (c : Component) : State :=
  let up := fun (l : List (Nat × Nat)) (v : Nat) => (c.type, v) :: l.filter (fun x => x.1 != c.type)
  { s with sec := { s.sec with
    floors := up s.sec.floors (Nat.max (s.floor c.type) c.epoch)
    thermometer := if c.type ≤ 3 then up s.sec.thermometer (Nat.min 32 (Nat.max (s.floor c.type) c.epoch)) else s.sec.thermometer } }

/-- Write the directory copy not in use (R358, R536 step 3): the components are in force from now on. -/
def State.writeDirectory (s : State) (cs : List Component) : State :=
  let q := s.num (od 0x7900 1) + 1
  let s := s.store (od 0x7900 1) (.num q)
  let parts := (cs.map (fun c => ({ c with seq := q } : Component))).foldl putComponent s.sec.comps
  let other := 1 - s.sec.dirUsed
  let x : Sec := { s.sec with comps := parts, dirs := s.sec.dirs.set other { seq := q, parts := parts }, dirUsed := other }
  ({ s with sec := x } : State).showHeap

/-! Home rules of the types (R147, R311, R374, R408, R520; R536 step 2). -/

/-- The model that would be in force with the components, where it is encrypted (R520). -/
def State.secretModel (s : State) (cs : List Component) : Option Component :=
  let c := match cs.find? (fun c => c.type == 0x10) with
    | some c => some c
    | none => s.component 0x10 0
  c.filter (fun c => bitAt (fieldLe c.header 14 1) 0)

/-- The schedule that would be in force with the components. -/
def State.scheduleWith (s : State) (cs : List Component) : Option Schedule :=
  match cs.find? (fun c => c.type == 0x11) with
  | some c => parseSchedule c.plain
  | none => match s.sched.accepted with
    | some a => some a
    | none => s.sched.active

/-- The components place encrypted contents in a window that does not carry CONFIDENTIAL (R520). -/
def State.leaks (s : State) (cs : List Component) : Bool :=
  match s.secretModel cs, s.scheduleWith cs with
  | some c, some a => a.leaks c.plain
  | _, _ => false

/-- The components refuse together: the event of the home rule has been raised, and the Bool says whether all pass. -/
def State.homeRules (s : State) (cs : List Component) : State × Bool :=
  let model := cs.find? (fun c => c.type == 0x10)
  let sched := cs.find? (fun c => c.type == 0x11)
  if model.any (fun c => (parsePlan (Config.modelPlan c.plain)).isNone) then (s.raise 0x5001, false)
  else if s.leaks cs then (s, false)
  else if cs.any (fun c => c.type == 0x12 && !programOk c.plain) then (s, false)
  else if cs.any (fun c => c.type == 0x13 && (s.tdesc (c.inst % 16)).slots ≤ c.inst / 16) then (s, false)
  else if cs.any (fun c => c.type == 0x13 && (s.tdesc (c.inst % 16)).place == 0 && !s.replicaFits (s.tdesc (c.inst % 16))) then (s, false)
  else
    match sched.bind (fun c => s.refusesPayload c.plain) with
    | some why => (s.raiseRefusal why, false)
    | none => (s, true)

/-- What an accepted schedule or model asks of the scheduler (R374, R537). -/
def State.acceptParts (s : State) (cs : List Component) (staged : Bool) : State :=
  match cs.find? (fun c => c.type == 0x11) with
  | some c =>
    match parseSchedule c.plain with
    | some a => s.acceptSchedule a staged
    | none => s
  | none =>
    if cs.any (fun c => c.type == 0x10) then
      match s.sched.accepted, s.sched.active with
      | none, some a => s.acceptSchedule a staged
      | _, _ => s
    else s

/-! Effects at B (R537). -/

/-- Marigold restarts (R261, R425): its queues flush, RESTARTING, EV 0xA00A; the third time within 60 s it stops. -/
def State.restartMarigold (s : State) : State :=
  if s.num (od 0xA030 9) = 3 then s
  else
    let now := s.frame.now
    let s := (s.qFlush 22).qFlush 23
    let recent := now :: s.safety.restarts.filter (fun r => decide (now < r + 60000000000))
    let s := s.modSafety (fun x => { x with
      restarts := recent, missing := 0, restartAt := now, selfTestIn := none
      mariHeads := Vector.replicate 2 {}, mariPts := [] })
    if 3 ≤ recent.length then s.stopMarigold
    else
      let s := (s.setMarigold 1).raise 0xA00A 0xFF 0 (s.num (od 0xA000 1) != 0)
      if s.num (od 0xA000 1) = 0 then s else s.causeComp .safety 1

/-- The half of HyperRAM that Marigold does not run from (R537; the halves are a choice, log entry 179). -/
def hyperOther (a : Nat) : Nat := if a = 0 then 7340032 else 0

/-- The image of a Marigold component goes into the inactive area over the boot link while Marigold runs (R537, R538). -/
def State.writeImage (s : State) (cs : List Component) : State :=
  match cs.find? (fun c => c.type == 2) with
  | some c => s.modExt (fun e => { e with hyper := Sparse.putN zeroByte e.hyper (hyperOther e.hyperAt) c.payload })
  | none => s

/-- Marigold runs from the area that was inactive, with the image of a component (R537). -/
def State.takeImage (s : State) (c : Component) : State :=
  (s.modExt (fun e => { e with hyperAt := hyperOther e.hyperAt })).setNum (od 0 8) c.issue

/-- Marigold's image at start-up: streamed into HyperRAM over the boot link, and run from there (R538). -/
def State.loadMarigold (s : State) (c : Component) : State :=
  (s.modExt (fun e => { e with hyper := Sparse.putN zeroByte e.hyper e.hyperAt c.payload })).setNum (od 0 8) c.issue

/-- An ingest program takes its slot (R60). -/
def State.loadProgram (s : State) (i : Nat) (b : Bytes) : State :=
  { s with ing := { s.ing with programs := s.ing.programs.set (Fin.ofNat 8 i) (wordsOf b) } }

/-- What the supervisor makes of a component that it has read from the library (R521, R537, R559). -/
def State.useComponent (s : State) (c : Component) (b : Bytes) : State :=
  match c.type with
  | 0x10 => s.loadPlan (Config.modelPlan b)
  | 0x11 => s.setOct (od 0x9001 0) c.bytes
  | 0x12 => (s.loadProgram c.inst b).setOct (od (0x3010 + c.inst) 0) c.bytes
  | 0x13 => s.loadTable (c.inst % 16) (c.inst / 16) b
  | _ => s

/-- A damaged component's consequence (R521): no schedule, or an empty program slot; a table's slot stays EMPTY. -/
def State.withoutComponent (s : State) (c : Component) : State :=
  match c.type with
  | 0x10 => s.noSchedule
  | 0x11 => s.noSchedule
  | 0x12 => s.loadProgram c.inst []
  | 0x13 => (s.modTable (c.inst % 16) (fun x => x.empty (c.inst / 16))).showVers (c.inst % 16)
  | _ => s

/-- A component takes effect from the model library (R23, R350, R521). -/
def State.useLibrary (s : State) (c : Component) : State :=
  match s.fromLibrary c with
  | (s, some b) => s.useComponent c b
  | (s, none) => s.withoutComponent c

/-- A component takes effect in the running module (R537). -/
def State.takeEffect (s : State) (c : Component) : State :=
  match c.type with
  | 0x01 => s
  | 0x02 => (s.takeImage c).restartMarigold
  | 0x03 => s
  | _ => s.useLibrary c

/-- The accepted schedule takes effect unless it waits for a restart (R375, R537). -/
def State.activateAccepted (s : State) : State :=
  match s.sched.accepted with
  | some a => if s.sched.atRestart then s else s.putSchedule a
  | none => s

/-- Steps 4 and 5 of R536. -/
def State.completeActivation (s : State) (cs : List Component) : State :=
  let s := cs.foldl (fun s c => ((s.takeEffect c).measureComp c).raiseFloor c) s.fillLibrary
  let s := if cs.any (fun c => c.type == 0x10 || c.type == 0x11) then s.activateAccepted else s
  let s := s.store (od 0xC000 7) (.num (Od.counter (od 0xC000 7) (s.num (od 0xC000 7) + 1)))
  let s := (s.setNum (od 0xC000 3) 5).setNum (od 0xC000 6) 0
  s.raise 0xC003 0xFF (s.num (od 0xC000 7))

end Sys2Proof.Machine
end

