-- ==== Sys2Proof/Machine/Repair.lean ====
section
/-! DEFINITION. Repair and retirement of the array's tiles and of cores (R184-R187, R253, R377, R435): flash holds the new state at once, and
the next frame boundary puts it in force. -/

namespace Sys2Proof.Machine

/-- What flash holds of an object. -/
def State.flashNum (s : State) (key : Nat) : Nat := (Sparse.get Od.dflt s.dict.saved key).toInt.toNat

/-- Flash alone takes an object's new number, which is in force from the next boundary or restart on. -/
def State.save (s : State) (key v : Nat) : State :=
  { s with dict := { s.dict with saved := Sparse.put Od.dflt s.dict.saved key (.num v) } }

/-! Tile words (OD 0x6101): [15:14] spares in use, 3 retired; [13:8] and [5:0] the row and the column replaced, 63 for none. -/

/-- The tile is retired. -/
def tileGone (v : Nat) : Bool := bitsOf v 15 14 == 3

/-- One spare more is in use. -/
def tileUp (v : Nat) : Nat := setBits v 15 14 (Nat.min 2 (bitsOf v 15 14 + 1))

/-- The line that a spare replaces. -/
def tileLine (v : Nat) (col : Bool) : Nat := if col then bitsOf v 5 0 else bitsOf v 13 8

/-- What a fault asks of a tile (R184). -/
inductive TileAct where
  | keep
  | spare (col : Bool) (line : Nat)
  | dead (col : Bool)
  | retire
  deriving DecidableEq, Repr

/-- A faulty line of a tile (R184): its matching spare, where that is still unused; line 33 is the spare line itself, which counts as used from
now on. A line that a spare already replaces works no more. -/
def lineAct (v : Nat) (dead : Bool → Bool) (col : Bool) (line : Nat) : TileAct :=
  let at_ := tileLine v col
  if line = 33 then
    if at_ ≠ 63 then .retire else if dead col then .keep else .dead col
  else if at_ = line then .keep
  else if at_ = 63 ∧ !dead col then .spare col line
  else .retire

/-- A faulty cell of a tile (R150, R184): of a spare line, that line; of a line out of use, nothing; else whichever spare is unused, the spare
row first. The cell (33, 33), in use where both spares are, can be replaced by none. -/
def cellAct (v : Nat) (dead : Bool → Bool) (row col : Nat) : TileAct :=
  let up := tileLine v false
  let across := tileLine v true
  if row = 33 ∧ col = 33 then (if up ≠ 63 ∧ across ≠ 63 then .retire else .keep)
  else if row = 33 then (if across = col then .keep else lineAct v dead false 33)
  else if col = 33 then (if up = row then .keep else lineAct v dead true 33)
  else if up = row ∨ across = col then .keep
  else if up = 63 ∧ !dead false then .spare false row
  else if across = 63 ∧ !dead true then .spare true col
  else .retire

/-- A change that the boundary brings into force from flash (R185), with the event it raises; 0 for none. -/
def State.dueEvent (s : State) (c : Fin 16) (ev tile : Nat) : State := s.modArr c (fun a => { a with due := a.due ++ [(ev, tile)] })

/-- A core retires at the next boundary (R186, R435). -/
def State.retireNext (s : State) (c : Fin 16) : State :=
  if s.flashNum (odCore 0x6100 c 1) = 2 then s else (s.save (odCore 0x6100 c 1) 2).dueEvent c 0x6006 0

/-- A tile retires at the next boundary (R186): the core folds, or retires where it would be its fifth. -/
def State.tileNext (s : State) (c : Fin 16) (tile : Nat) : State :=
  let mask := s.flashNum (odCore 0x6100 c 2)
  if 4 ≤ popCount mask 16 then s.retireNext c
  else
    let key := odCore 0x6101 c (tile + 1)
    let s := s.save key (setBits (s.flashNum key) 15 14 3)
    let s := s.save (odCore 0x6100 c 2) (setBit mask tile)
    let s := if s.flashNum (odCore 0x6100 c 1) = 2 then s else s.save (odCore 0x6100 c 1) 1
    s.dueEvent c 0x6005 tile

/-- What a fault asks of a tile is stored in flash, and done at the next boundary (R184-R186). -/
def State.tileAct (s : State) (c : Fin 16) (tile : Nat) : TileAct → State
  | .keep => s
  | .retire => s.tileNext c tile
  | .dead col =>
    let key := odCore 0x6101 c (tile + 1)
    ((s.modArr c (fun a => { a with deadSpares := (tile, col) :: a.deadSpares })).save key (tileUp (s.flashNum key))).dueEvent c 0 tile
  | .spare col line =>
    let key := odCore 0x6101 c (tile + 1)
    let v := s.flashNum key
    let s := s.save key (tileUp (if col then setBits v 5 0 line else setBits v 13 8 line))
    (s.save (odCore 0x6100 c 3) (setBit (s.flashNum (odCore 0x6100 c 3)) tile)).dueEvent c 0x6004 tile

/-- What diagnosis located (R435): a cell or a line of a tile, by the state that flash holds of it, or a bank row, whose repair waits for the
boundary. -/
def State.diagnosed (s : State) (c : Fin 16) (f : FaultAt) : State :=
  let dead := fun (t : Nat) (col : Bool) => (s.cores[c]).arr.deadSpares.contains (t, col)
  let word := fun (t : Nat) => s.flashNum (odCore 0x6101 c (t + 1))
  match f with
  | .cell t row col => if tileGone (word t.val) then s else s.tileAct c t.val (cellAct (word t.val) (dead t.val) row.val col.val)
  | .line t col n => if tileGone (word t.val) then s else s.tileAct c t.val (lineAct (word t.val) (dead t.val) col n.val)
  | .bankRow q b r => s.modPad c (fun k => { k with dueRows := k.dueRows ++ [{ quad := q.val, bank := b.val, row := r.val }] })

/-- The objects of a core that repairs change (R185): its state, its masks and its tile words. -/
def coreRepairKeys (c : Fin 16) : List Nat :=
  [odCore 0x6100 c 1, odCore 0x6100 c 2, odCore 0x6100 c 3] ++ (List.range 16).map (fun i => odCore 0x6101 c (i + 1))

/-- The repair objects of a core as flash holds them. -/
def State.repairInForce (s : State) (c : Fin 16) : State :=
  let s := (coreRepairKeys c).foldl (fun s k => s.setNum k (s.flashNum k)) s
  s.setNum (odCore 0x6100 c 4) (16 - s.tilesRetired c.val : Nat)

/-- What flash holds of a core comes into force at a boundary (R185, R186), with its events; a retired core leaves the core map. -/
def State.repairCore (s : State) (c : Fin 16) : State :=
  let due := (s.cores[c]).arr.due
  let rows := (s.cores[c]).pad.dueRows
  let s := s.modCore c (fun k => { k with arr := { k.arr with due := [] }, pad := { k.pad with dueRows := [] } })
  let s := if due.isEmpty then s else s.repairInForce c
  let s := (due.filter (fun y => y.1 != 0)).foldl (fun s y => s.raise y.1 c.val y.2) s
  let s := rows.foldl (fun s r => s.rowFails c r.quad r.bank r.row false) s
  if s.num (odCore 0x6100 c 1) = 2 then s.modSched (fun x => { x with retired := setBit x.retired c.val }) else s

/-- A window that a task of the schedule in force names on a core covers a retired quad (R253). -/
def State.lostQuad (s : State) (c : Nat) : Bool :=
  let out := s.num (odCore 0x7100 (coreNo c) 15)
  out != 0 && match s.sched.active with
    | none => false
    | some a => a.tasks.any (fun t => s.sched.runsOn t.mask c && t.wins.any (fun w =>
        w.named && (List.range (bitsOf w.attr 15 11 + 1)).any (fun i => bitAt out (w.f + i))))

/-- Repairs and retirements at a boundary, or before the first dispatch (R185, R186, R253, R420, R435, R556): the cores that go leave the
core map, the plan follows (R377), and the rotation passes a core that went while it had the turn (R39). -/
def State.retireDue (s : State) : State :=
  let quar := s.safety.quarNext
  let s := (List.finRange 16).foldl (fun s c => if s.lostQuad c.val ∧ !bitAt s.sched.retired c.val then s.retireNext c else s) s
  let s := (List.finRange 16).foldl (fun s c => s.repairCore c) s
  let s := s.modSched (fun x => { x with retired := x.retired ||| quar })
  let s := s.modSafety (fun x => { x with quarNext := 0, transient := x.transient.filter (fun l => l.all (fun c => !bitAt quar c)) })
  let s := s.setNum (od 0xA000 7) (s.num (od 0xA000 7) ||| quar : Nat)
  if bitAt s.sched.retired s.sched.rotation then s.turnNext else s

end Sys2Proof.Machine
end

