-- ==== Sys2Proof/Machine/Sched.lean ====
section
/-! DEFINITION. The scheduler's commands (R363-R386): the schedule written directly, activation, releases, slot entries, budgets,
pre-emption limits, throttling, Hollyhock's entries and tests. -/

namespace Sys2Proof.Machine

/-- E of the frame computed has come: an instant t at or after it plus `slots` of 10 µs. -/
def State.sinceE (s : State) (slots t : Nat) : Bool := s.frame.comp.n != 0 && decide (s.frame.comp.end_ + 10000 * slots ≤ t)

/-- Step 5 of R536 for a component written directly (R519): measured, its epoch floor raised, counted, EV 0xC003. -/
def State.countActivation (s : State) (cs : List Component) : State :=
  let s := cs.foldl (fun s c => (s.measureComp c).raiseFloor c) s
  let s := s.store (od 0xC000 7) (.num (Od.counter (od 0xC000 7) (s.num (od 0xC000 7) + 1)))
  s.raise 0xC003 0xFF (s.num (od 0xC000 7))

/-- The one component of a direct write that R519 accepts for a type and instance. -/
def State.directComp (s : State) (type inst : Nat) (b : Bytes) : Option Component :=
  match s.readComponent b with
  | some [c] => if c.type = type ∧ c.inst = inst then some c else none
  | _ => none

/-- Checks of a schedule written directly (R374, R519, R534). -/
def State.scheduleCheck (s : State) (b : Bytes) : Nat :=
  if s.gateShut then 11
  else match s.directComp 0x11 0 b with
    | none => 6
    | some c => if (s.homeRules [c]).2 then 0 else 6

/-- A schedule written directly is accepted: in the directory, and waiting for its boundary (R375, R478, R519). Outside RUN it is in
force at once unless it changes the frame (R478). -/
def State.scheduleEffect (s : State) (b : Bytes) : State :=
  match s.directComp 0x11 0 b with
  | none => s
  | some c =>
    let s := ((s.writeDirectory [c]).acceptParts [c] false).countActivation [c]
    let s := s.setOct (od 0x9001 0) b
    if s.frame.run then s else s.activateAccepted

/-- What a refused schedule raises (R374, R386, R408). -/
def State.scheduleRefused (s : State) (b : Bytes) : State :=
  if s.hap.lastStatus ≠ 6 then s
  else match s.directComp 0x11 0 b with
    | none => s.raise 0x9008
    | some c => (s.homeRules [c]).1

/-- SCHEDULE (R374, R519): a write of OD 0x9001. -/
def execSchedule (by_ : Writer) (comp : Bytes) (s : State) : Out :=
  .next ((s.command by_ 0x9001 0 (.oct comp) (fun s => s.scheduleCheck comp) (fun s => s.scheduleEffect comp)).scheduleRefused comp)

/-- The instant t is the frame boundary just passed, or the module is not in RUN. -/
def State.atBoundary (s : State) (t : Nat) : Bool := !s.frame.run || t == s.frame.ing.start

/-- SCHEDULE_ACTIVATE (R375, R526): a schedule accepted by a direct write at the first boundary at least 1 ms after it (R478), or the
running one again at the second boundary after a life-cycle transition. -/
def execScheduleActivate (t : Nat) (s : State) : Out :=
  let s := s.at t
  .next (if !s.atBoundary t then s
    else if s.sched.accepted.isSome ∧ !s.sched.atRestart ∧ !s.sched.staged ∧ (!s.frame.run ∨ s.sched.acceptedAt + 1000000 ≤ t) then s.activateAccepted
    else match s.sec.reactivateAt, s.sched.active with
      | some n, some a =>
        if 2 ^ 31 ≤ (s.frame.ing.n + 2 ^ 32 - n) % 2 ^ 32 then s else { s.putSchedule a with sec := { (s.putSchedule a).sec with reactivateAt := none } }
      | _, _ => s)

/-- INSTANCE_RELEASE (R369). -/
def execInstanceRelease (task : Fin 256) (lcore : Fin 16) (t : Nat) (s : State) : Out :=
  let s := s.at t
  .next (match s.sched.insts.find? (fun i => i.task == task.val && i.lcore == lcore.val) with
    | none => s
    | some i =>
      let d := s.sched.descOf i
      let c := coreNo (s.sched.phys i.lcore)
      if i.state ≠ .idle ∨ !s.sched.running_ ∨ s.sched.hold ∨ !s.sinceE d.release t then s
      else if d.ready = 255 ∨ d.threshold ≤ s.kget c d.ready then
        (s.modInst i.task i.lcore (fun x => { x with state := .ready })).dispatch [c]
      else s.modInst i.task i.lcore (fun x => { x with state := .waiting }))

/-- The entry of a logical core that begins at a slot (R372). -/
def Sched.begins (x : Sched) (l slot : Nat) : Option SlotEntry :=
  match x.active, x.plan_ with
  | some a, some p => ((a.entries.drop p.first).take p.count).find? (fun e => bitAt e.mask l && e.start == slot && e.len != 0)
  | _, _ => none

/-- A logical core is in the entry that begins at a slot. -/
def State.enterSlot (s : State) (c : Fin 16) (slot : Nat) : State := s.modSched (fun x => { x with slotOf := x.slotOf.set c slot })

/-- SLOT_ENTRY_BEGIN (R370, R372, R373): `c` is the logical core; HOLLYHOCK entries begin by HOLLYHOCK_ENTRY. -/
def execSlotEntryBegin (c : Fin 16) (slot : Nat) (s : State) : Out :=
  .next (match s.sched.begins c.val slot with
    | none => s
    | some e => if e.owner = 8 then s else (s.enterSlot c slot).dispatch [coreNo (s.sched.phys c.val)])

/-- BUDGET_OVERRUN (R378): counted once per instance, EV 0x9002 once per task and frame, and ENDED where OVERRUN_END asks for it. -/
def execBudgetOverrun (task : Fin 256) (lcore : Fin 16) (t : Nat) (s : State) : Out :=
  let s := s.at t
  .next (match s.sched.insts.find? (fun i => i.task == task.val && i.lcore == lcore.val) with
    | none => s
    | some i =>
      let d := s.sched.descOf i
      let c := coreNo (s.sched.phys i.lcore)
      if i.state ≠ .running ∨ d.budget = 0 ∨ i.overran then s
      else
        let s := (s.bump (od (0x9100 + task) 2)).raiseComp 0x9002 task.val (s.num (od (0x9100 + task) 2) + 1)
        let s := s.modInst i.task i.lcore (fun x => { x with overran := true })
        if d.overrunEnd then
          let (s, cs) := s.endRunning c
          s.dispatch cs
        else s)

/-- The time in ns that core cycles take, a part of a ns as a whole one (R555). -/
def State.coreTime (s : State) (cycles : Nat) : Nat := ceilDiv (cycles * 160) (11 * s.num (od 0xE000 0x0B))

/-- PREEMPT_LIMIT_EXPIRE (R381): PREEMPT_LIMIT core cycles after the request. -/
def execPreemptLimitExpire (c : Fin 16) (s : State) : Out :=
  .next (match s.sched.preemptAt[c] with
    | none => s
    | some r =>
      let s := (s.at (r + s.coreTime (s.num (od 0x9000 7))))
      let s := s.countRaise (od 0x9F00 9) 0x9009 c.val
      let (s, cs) := s.endRunning c
      s.dispatch cs)

/-! Throttling (R382, R386). -/

/-- The power state follows the throttle level in RUN (R382, R551). -/
def State.showThrottle (s : State) : State :=
  let p := s.num (od 0xE000 1)
  let s := s.setNum (od 0x9000 8) s.sched.throttle
  if p = 3 ∨ p = 4 then s.setNum (od 0xE000 1) (if s.sched.throttle = 0 then 3 else 4) else s

/-- The level has stayed above G for a whole frame period: EV 0x900A, and doubt (R382, R386). -/
def State.judgeThrottle (s : State) : State :=
  if s.sched.throttle ≤ s.num (od 0x9000 9) then s.modSched (fun x => { x with aboveSince := none, aboveRaised := false })
  else match s.sched.aboveSince with
    | none => s.modSched (fun x => { x with aboveSince := some s.frame.now })
    | some u =>
      if 1000 * s.num (od 0x9000 4) ≤ s.frame.now - u then
        let s := if s.sched.aboveRaised then s else s.raise 0x900A
        (s.modSched (fun x => { x with aboveRaised := true })).declareDoubt 3
      else s

/-- THROTTLE_UPDATE (R382): up by 1 after a millisecond over a limit, down by 1 after 10 ms below every release value. What the last
sample found is used once. -/
def execThrottleUpdate (t : Nat) (s : State) : Out :=
  let s := s.at t
  let x := s.sched
  let s :=
    if s.power.overNow then
      let s := s.modSched (fun x => { x with throttle := Nat.min 12 (x.throttle + 1), underSince := none })
      ({ s with power := { s.power with overNow := false } } : State)
    else match x.underSince with
      | some u =>
        if u + 10000000 ≤ t then s.modSched (fun x => { x with throttle := x.throttle - 1, underSince := some t }) else s
      | none => s
  .next s.showThrottle.judgeThrottle

/-! Hollyhock (R383-R385, R421, R432-R435). -/

/-- The instance a forced test drops (R384): lowest criticality, then the higher task number. -/
def Sched.victim (x : Sched) : List Inst → Option Inst
  | [] => none
  | i :: is =>
    match x.victim is with
    | none => some i
    | some j =>
      let a := (x.descOf i).crit
      let b := (x.descOf j).crit
      if a < b ∨ (a = b ∧ j.task < i.task) then some i else some j

/-- A forced test (R384): counted, and one instance dropped. -/
def State.forceTest (s : State) (c : Fin 16) : State :=
  let s := s.bump (od 0x9F00 5)
  match s.sched.victim ((s.sched.on c.val).filter (fun i => i.state.held)) with
  | none => s
  | some i =>
    let s := s.countRaise (od 0x9F00 7) 0x9005 c.val
    let s := if i.state = .running then s.takeOff c else s
    (s.lose i .dropped).1

/-- HOLLYHOCK_ENTRY (R383-R385): `c` is the logical core. The first HOLLYHOCK entry of a physical core in a frame tests it where it holds
the turn and no core's turn has come in this frame (R39), and the next entry after a targeted test was asked does that one; in every other case
the entry serves its lender. -/
def execHollyhockEntry (c : Fin 16) (slot : Nat) (s : State) : Out :=
  .next (match s.sched.begins c.val slot with
    | none => s
    | some e =>
      let p := coreNo (s.sched.phys c.val)
      if e.owner ≠ 8 then s
      else
        let first := !s.sched.claimed.contains p.val
        let s := s.enterSlot c slot
        let s := s.modSched (fun x => { x with claimed := p.val :: x.claimed })
        let targeted := s.sched.targeted.contains p.val
        if (!first && !targeted) ∨ s.sched.testing.contains p.val ∨ bitAt s.sched.retired p.val ∨ !(targeted || (s.sched.rotation == p.val && !s.sched.turned)) ∨ !s.sched.running_ then s.dispatch [p]
        else
          let must := (s.sched.on p.val).any (fun i => i.state.held && (s.sched.descOf i).crit == 7)
          if !targeted ∧ must ∧ s.num (od 0x9F00 4) < 3 then
            (((s.bump (od 0x9F00 4)).countRaise (od 0x9F00 6) 0x9004 p.val)).dispatch [p]
          else
            let s := if targeted ∨ must then s.forceTest p else s
            (s.modSched (fun x => { x with want := p.val :: x.want, turned := x.turned || x.rotation == p.val })).dispatch [p])

/-- The result of a golden test of a core (R421, R435): diagnosis names what failed, or the core retires. -/
def State.judgeTest (s : State) (c : Fin 16) (pass : Bool) (fault : Option FaultAt) : State :=
  if pass ∧ !s.sec.comps.any (fun x => x.type == 3 && x.damaged) then
    let left := s.safety.transient.map (fun l => l.filter (· != c.val))
    let s := s.modSafety (fun x => { x with transient := left.filter (fun l => !l.isEmpty) })
    s.bump (od 0xAF00 0x0A) (left.filter (fun l => l.isEmpty)).length
  else
    let s := s.modSafety (fun x => { x with transient := x.transient.filter (fun l => !l.contains c.val) })
    let s := s.countRaise (od 0xAF00 0x0B) 0xA00C c.val
    match fault with
    | some f => s.diagnosed c f
    | none => s.retireNext c

/-- GOLDEN_TEST_COMPLETE (R183, R383, R385, R432-R435): in RUN the core under test; before RUN the start-up test of any core. The test forces a
mismatch in every checksum comparator of every tile; one that does not report it (`silent`) fails the test (log entry 192). -/
def execGoldenTestComplete (c : Fin 16) (pass : Bool) (silent : List (Fin 16 × Fin 33 × Bool)) (fault : Option FaultAt) (s : State) : Out :=
  let pass := pass && silent.isEmpty
  let ends := fun (s : State) => s.modArr c (fun a => { a with banks := [], targetTiles := [] })
  .next (if !s.frame.run then (ends s).judgeTest c pass fault
    else if !s.sched.testing.contains c.val then s
    else
      let s := ends s
      let s := if s.sched.targeted.contains c.val then s.bump (od 0xAF00 8) else s
      let s := if s.sched.rotation = c.val then (s.bump (od 0xAF00 9)).turnNext else s
      let s := s.modSched (fun x => { x with testing := x.testing.filter (· != c.val), targeted := x.targeted.filter (· != c.val) })
      (s.judgeTest c pass fault).dispatch [c])

end Sys2Proof.Machine
end

