-- ==== Sys2Proof/Machine/Marigold.lean ====
section
/-! DEFINITION. Marigold's function (R422-R424): its own interpreter over the packets of the two designated ports, obstacle points,
clusters, the closest in path, and the list's bytes. -/

namespace Sys2Proof.Machine

/-! The interpreter (R422): the rows of R57 on an engine of Marigold's own. It counts nothing and raises nothing; RNG, PLS and SWP have
no effect on its points (log entry 175). -/

/-- What Marigold knows of a designated port: its number, the accepted record while the port is ACTIVE, the paired serial, and RANGE in
1/65,536 m. -/
structure MariPort where
  port : Fin 8
  cal : Option CalRec
  paired : Bytes
  range : Int

/-- The record that Marigold's interpreter uses; without one 256 beams, a zero table and a delay of 0 (R589). -/
def MariPort.record (k : MariPort) : CalRec := k.cal.getD {}

/-- A packet being interpreted: the engine, what Marigold keeps of the port, and the points taken so far. -/
structure MariRun where
  x : Engine := {}
  h : MariHead := {}
  out : List MariPoint := []

/-- EMIT (R57, R61, R422): a point that is not rejected is taken while the port is ACTIVE and the IDN serial is the paired one, in the
vehicle frame by the record's extrinsic alone. None where no point is staged. -/
def MariPort.emit (k : MariPort) (r : MariRun) : Option MariRun :=
  match r.x.staged.xyz with
  | none => none
  | some _ =>
    let v := r.x.staged.sensor
    let takes := !r.x.staged.rejected && r.h.serial == k.paired
    let pts := match k.cal with
      | some c =>
        let q := applyExtrinsic (c.t ++ c.angles) v
        [{ x := comp3 q 0, y := comp3 q 1, z := comp3 q 2, time := r.x.time, stamp := r.x.stamp
           inRange := decide (dotList v v ≤ k.range * k.range) : MariPoint }]
      | none => []
    some { r with x := { r.x with staged := {} }, out := if takes then r.out ++ pts else r.out }

/-- A sensor-frame point is staged; the azimuth correction that LUT held is kept or used up. -/
def MariRun.stage (r : MariRun) (v : List Int) (az : Int) : MariRun :=
  { r with x := { r.x with azCorr := az, staged := { r.x.staged with xyz := some (0, 0, 0), sensor := v } } }

/-- The staged point is rejected (R58). -/
def MariRun.reject (r : MariRun) : MariRun := { r with x := { r.x with staged := { r.x.staged with rejected := true } } }

/-- One word of the program other than END: what it leaves and the next word; none for a parser fault (R57-R62). -/
def MariPort.row (k : MariPort) (now op : Nat) (w : BitVec 27) (r : MariRun) : Option (MariRun × Nat) :=
  let on := fun (y : Engine) => some ({ r with x := y }, r.x.pc + 1)
  let go := fun (y : MariRun) => some (y, r.x.pc + 1)
  match op with
  | 0x00 => go r
  | 0x01 => (rowExt w r.x).map (fun y => ({ r with x := y }, r.x.pc + 1))
  | 0x02 => on (rowScl w r.x)
  | 0x03 => on (rowAdd w r.x)
  | 0x04 => on (rowAddi w r.x)
  | 0x05 => on (rowAnd w r.x)
  | 0x06 =>
    let y := { r with x := rowLut k.record w r.x }
    go (if k.record.beams ≤ lutBeam w r.x then y.reject else y)
  | 0x07 => go (r.stage (cvtPoint w r.x) 0)
  | 0x08 => go (r.stage (cvcPoint w r.x) r.x.azCorr)
  | 0x09 => on (rowSet w r.x)
  | 0x0A => (rowTsp now k.record.delay r.h.tsp w r.x).map (fun y =>
      ({ r with x := { r.x with base := y.1 }, h := { r.h with tsp := y.2 } }, r.x.pc + 1))
  | 0x0B => go r
  | 0x0C => go r
  | 0x0D => go (if rejHolds w r.x then r.reject else r)
  | 0x0E => (k.emit r).map (fun y => (y, r.x.pc + 1))
  | 0x0F => on (rowAdv w r.x)
  | 0x10 => some (r, brNext w r.x)
  | 0x11 => some ({ r with x := rowLoop w r.x }, loopNext w r.x)
  | 0x12 => (idnSerial w r.x).map (fun b => ({ r with h := { r.h with serial := b } }, r.x.pc + 1))
  | 0x14 => go r
  | _ => none

/-- Interpret a packet from the engine's word on, for at most `fuel` words: END, a parser fault and the word after the last one end it
(R57, R59). -/
def MariPort.run (k : MariPort) (now : Nat) : Nat → MariRun → MariRun
  | 0, r => r
  | fuel + 1, r =>
    match r.x.words[r.x.pc]? with
    | none => r
    | some v =>
      if v / 2 ^ 27 = 0x13 then r
      else match k.row now (v / 2 ^ 27) (BitVec.ofNat 27 v) r with
        | none => r
        | some (y, pc) => k.run now fuel { y with x := { y.x with pc := pc } }

/-- What Marigold knows of the port that PORT_A or PORT_B names (R422). -/
def State.mariPort (s : State) (i : Fin 2) : MariPort :=
  let p : Fin 8 := Fin.ofNat 8 (s.num (od 0xA030 (1 + i.val)))
  { port := p, cal := if (s.head p).state == .active then (s.head p).cal else none, paired := (s.head p).paired
    range := (65536 * s.num (od 0xA030 7) : Nat) }

/-- Marigold interprets one packet of a designated port (R22, R422). -/
def State.mariTake (s : State) (i : Fin 2) (k : QPacket) : State :=
  let d := s.mariPort i
  let h := s.safety.mariHeads[i]
  let x : Engine := { busy := true, pkt := h.packets, port := d.port, words := s.ing.programs[s.program d.port]?.getD []
                      payload := (sensPayload k.data).getD [], stamp := k.stamp, base := (k.stamp : Int) - d.record.delay }
  let r := d.run s.frame.now 16384 { x := x, h := h }
  s.modSafety (fun y => { y with
    mariHeads := y.mariHeads.set i { r.h with packets := h.packets + 1 }, mariPts := y.mariPts ++ r.out })

/-- Marigold takes the packet at the front of a mirror, if it is not lost to its error (R262). -/
def State.mariPop (s : State) (i : Fin 2) (e : QueueEcc) : State :=
  let q : Fin 24 := if i = 0 then 22 else 23
  match s.qPop q e with
  | (s, some k) => s.mariTake i k
  | (s, none) => s

/-- Marigold takes all packets of a mirror, the first with the given outcome (R262, R263). -/
def State.mariTakeAll (s : State) (i : Fin 2) (e : QueueEcc) : State :=
  let q : Fin 24 := if i = 0 then 22 else 23
  let s := s.mariPop i e
  (List.range (s.q[q]).pkts.length).foldl (fun s _ => s.mariPop i .clean) s

/-- Marigold reads everything its mirrors hold (R263, R422); points that no list can hold any more are given up (R423, R560). -/
def State.mariRead (s : State) (e0 e1 : QueueEcc) : State :=
  let s := (s.mariTakeAll 0 e0).mariTakeAll 1 e1
  let first : Int := if s.frame.comp.n = 0 then s.frame.ing.start else s.frame.comp.start
  let now := s.frame.now
  s.modSafety (fun x => { x with mariPts := x.mariPts.filter (fun p => decide (first ≤ p.time ∨ now ≤ p.stamp + 200000000)) })

/-! The function (R423): lengths in 1/65,536 m. -/

/-- The cell of 0.4 m of a coordinate (R423). -/
def mariCell (v : Int) : Int := Int.fdiv (5 * v) 131072

/-- Obstacle points with their cells (R423 step 1). -/
def State.obstacles (s : State) (pts : List MariPoint) : List ((Int × Int) × MariPoint) :=
  let g : Int := s.num (od 0xA030 3)
  let kept := (pts.filter (fun p => p.inRange)).map (fun p => ((mariCell p.x, mariCell p.y), p))
  let patch := fun (c : Int × Int) => (Int.fdiv c.1 g, Int.fdiv c.2 g)
  kept.filter (fun p =>
    let same := kept.filter (fun q => patch q.1 == patch p.1)
    let ground := same.foldl (fun m q => if q.2.z < m then q.2.z else m) p.2.z
    let h := p.2.z - ground
    decide (64 * (s.num (od 0xA030 4) : Int) ≤ h ∧ h ≤ 64 * s.num (od 0xA030 5)))

/-- Absolute difference. -/
def dist (a b : Int) : Nat := (a - b).natAbs

/-- Cells touch by edge or corner (R423). -/
def cellsTouch (a b : Int × Int) : Bool := decide (dist a.1 b.1 ≤ 1 ∧ dist a.2 b.2 ≤ 1)

/-- Clusters of occupied cells: each cell joins the clusters that it touches (R423 step 2). -/
def clusterCells : List (Int × Int) → List (List (Int × Int))
  | [] => []
  | c :: cs =>
    let l := clusterCells cs
    (c :: (l.filter (fun k => k.any (cellsTouch c))).flatten) :: l.filter (fun k => !k.any (cellsTouch c))

/-- The corridor as x_min, x_max, y_min, y_max in half units of 1/1,024 m (R415). -/
def State.corridor (s : State) : Int × Int × Int × Int :=
  let h : Int := s.numC (od 0xA020 1)
  (0, 2048 * (s.numC (od 0xA020 2) : Int), -2 * h, 2 * h)

/-- A point lies in the corridor (R415). -/
def State.inCorridor (s : State) (p : MariPoint) : Bool :=
  let c := s.corridor
  decide (32 * c.1 ≤ p.x ∧ p.x ≤ 32 * c.2.1 ∧ 32 * c.2.2.1 ≤ p.y ∧ p.y ≤ 32 * c.2.2.2)

/-- A cluster's list entry from its obstacle points (R424); the rule gives no rounding to 1/64 m (log entry 48). -/
def State.clusterOf (s : State) (ps : List MariPoint) : MCluster :=
  let lo := fun (f : MariPoint → Int) => eitherDiv (ps.foldl (fun m p => if f p < m then f p else m) (f (ps.headD {}))) 1024
  let hi := fun (f : MariPoint → Int) => eitherDiv (ps.foldl (fun m p => if m < f p then f p else m) (f (ps.headD {}))) 1024
  { box := [lo (·.x), hi (·.x), lo (·.y), hi (·.y), lo (·.z), hi (·.z)].map (satSigned 16), points := Nat.min ps.length 65535
    inPath := ps.any s.inCorridor }

/-- Squared distance of the nearest point of a cluster. -/
def nearest (ps : List MariPoint) : Int :=
  let d := fun (p : MariPoint) => p.x * p.x + p.y * p.y + p.z * p.z
  ps.foldl (fun m p => if d p < m then d p else m) (d (ps.headD {}))

/-- Marigold's function (R423): the list and the clusters cut. -/
def State.mariList (s : State) (frame : Nat) (pts : List MariPoint) : MList × Nat :=
  let obs := s.obstacles pts
  let cells := (obs.map (·.1)).eraseDups
  let occupied := cells.filter (fun c => decide (s.num (od 0xA030 6) ≤ (obs.filter (fun o => o.1 == c)).length))
  let groups := (clusterCells occupied).map (fun k => (obs.filter (fun o => k.contains o.1)).map (·.2))
  let sorted := sortBy (fun a b => decide (nearest a < nearest b)) groups
  let path := (obs.map (·.2)).filter s.inCorridor
  let dm := path.foldl (fun m p => Nat.min m (eitherDiv p.x 64).toNat) 0xFFFFFFFF
  ({ frame := frame, dm := dm, clusters := (sorted.take 64).map s.clusterOf }, sorted.length - 64)

/-- The bytes of a list (R424). -/
def MList.bytes (m : MList) : Bytes :=
  natLe 4 m.frame ++ natLe 2 m.clusters.length ++ zeros 2 ++ natLe 4 m.dm ++ zeros 4 ++
  m.clusters.flatMap (fun k => k.box.flatMap (fun v => natLe 2 (unsignedOf 16 v)) ++ natLe 2 k.points ++ natLe 2 (if k.inPath then 1 else 0))

/-- Marigold works: RUNNING or SINGLE_RAM (R425). -/
def State.mariRuns (s : State) : Bool := s.num (od 0xA030 9) == 0 || s.num (od 0xA030 9) == 2

/-- The points of the sweep of the frame computed: by their own time, as R64 gives points to sweeps (log entry 175). -/
def State.mariSweep (s : State) : List MariPoint :=
  s.safety.mariPts.filter (fun p => decide ((s.frame.comp.start : Int) ≤ p.time ∧ p.time < s.frame.comp.end_))

/-- The points received in the preceding 200 ms (R560). -/
def State.mariRecent (s : State) : List MariPoint :=
  s.safety.mariPts.filter (fun p => decide (s.frame.now ≤ p.stamp + 200000000))

end Sys2Proof.Machine
end

