-- ==== Sys2Proof/Machine/Foxglove.lean ====
section
/-! DEFINITION. Foxglove and FAULT_N (R407-R431, R434): check lists, the two checks, verdicts and what disagreements lead to, Marigold's
commands, the inputs that put the module in SAFE. -/

namespace Sys2Proof.Machine

/-- The safety mode (R407): 0 COMPARE, 1 FALLBACK, 2 COMPARE_AND_FALLBACK. -/
def State.mode (s : State) : Nat := s.num (od 0xA000 1)

/-- FAULT_N is asserted (R427, R553, R561, R576): until RUN, in SAFE, in FALLBACK where OD 0xA000.04 says so, and unpowered. -/
def State.faultN (s : State) : Bool :=
  s.safety.foxAsserts || s.num (od 0xA000 2) == 3 || (s.num (od 0xA000 2) == 2 && s.flag (od 0xA000 4)) || s.num (od 0xE000 1) < 2

/-! Check lists (R410-R412). -/

/-- A locator's window: core, window, byte offset (R412). -/
def State.listAt (s : State) (copy : Nat) : Fin 16 × Nat × Nat :=
  let v := s.num (od 0xA011 (1 + copy))
  (coreNo (s.sched.phys (bitsOf v 3 0)), bitsOf v 10 8, bitsOf v 47 16)

/-- A check-list entry (R411). -/
def parseObj (b : Bytes) : CheckObj :=
  { x := fieldI b 0 4, y := fieldI b 4 4, z := fieldI b 8 4, length := fieldLe b 12 2, width := fieldLe b 14 2, height := fieldLe b 16 2
    heading := fieldI b 18 2, vx := fieldI b 20 2, vy := fieldI b 22 2, cls := fieldLe b 24 1, score := fieldLe b 25 1
    core := fieldLe b 26 1, index := fieldLe b 28 4 }

/-- Scores run in non-increasing order (R412). -/
def scoresFall : List CheckObj → Bool
  | [] => true
  | [_] => true
  | x :: y :: r => decide (y.score ≤ x.score) && scoresFall (y :: r)

/-- The list that a header and its entry bytes give (R410-R412). -/
def checkList (copy : Nat) (h e : Bytes) : CheckList :=
  let objs := (chunksOf 32 (e.length) e).map parseObj
  if fieldLe h 4 1 = copy ∧ fieldLe h 5 1 = 1 ∧ fieldLe h 6 2 ≤ 256 ∧ fieldLe h 8 4 = crc32c e ∧ allZero (slice h 12 20) ∧
      objs.all (fun o => decide (o.cls < 64)) ∧ (chunksOf 32 (e.length) e).all (fun b => fieldLe b 27 1 == 0) ∧ scoresFall objs then .good objs
  else .bad

/-- Foxglove reads a copy's list (R412): the state and what it found; `none` while no header is READY for frame n. -/
def State.readList (s : State) (copy : Nat) (ecc : Finds) : State × CheckList :=
  let (c, w, off) := s.listAt copy
  let gen := if copy = 0 then s.safety.genA else s.safety.genB
  match s.padRead c 0 w off 32 (some gen) ecc with
  | (s, .error _) => (s, .bad)
  | (s, .ok h) =>
    if fieldLe h 5 1 % 2 = 0 ∨ fieldLe h 0 4 ≠ s.frame.comp.n then (s, .none)
    else if 256 < fieldLe h 6 2 then (s, .bad)
    else match s.padRead c 0 w (off + 32) (32 * fieldLe h 6 2) (some gen) (findsAfter ecc 4) with
      | (s, .error _) => (s, .bad)
      | (s, .ok e) => (s, checkList copy h e)

/-- The physical cores of a copy's set (R409). -/
def State.copyCores (s : State) (copy : Nat) : Nat :=
  match s.sched.active, s.sched.plan_ with
  | some a, some p => (a.tasks.filter (fun t => t.part == 0 && t.copy == copy)).foldl (fun m t => m ||| p.cores t.mask) 0
  | _, _ => 0

/-! Verdicts and disagreements (R416-R421). -/

/-- The first failing pair's differences for the log (OD 0xAF01): the last 16 disagreements, 32 bytes each. -/
def State.logDisagreement (s : State) (code cores : Nat) (diff : Bytes) : State :=
  let rec_ := natLe 4 s.frame.comp.n ++ natLe 1 code ++ zeros 1 ++ natLe 2 cores ++ padTo 24 diff
  let all := s.oct (od 0xAF01 0) ++ rec_
  s.store (od 0xAF01 0) (.oct (all.drop (all.length - 512)))

/-- Two disagreements within 10 consecutive frames (R419): the cores in both, or else those in either, are quarantined at the next
boundary, and a fault window opens. -/
def State.quarantineCores (s : State) (a b : Nat) : State :=
  let q := if a &&& b = 0 then a ||| b else a &&& b
  let s := s.modSafety (fun x => { x with quarNext := x.quarNext ||| q, windowLeft := s.numC (od 0xA000 5) })
  let s := if q = 0 then s else s.bump (od 0xAF00 5)
  s.raise 0xA005

/-- A disagreement (R419-R421): logged, targeted tests asked; inside a fault window FALLBACK; as the second within 10 frames it
quarantines and opens a window, in an open one too (log entry 176). -/
def State.disagree (s : State) (code cores : Nat) (diff : Bytes) : State :=
  let s := s.countRaise (od 0xAF00 3) (if code = 2 then 0xA001 else if code = 3 then 0xA002 else 0xA003)
  let s := s.logDisagreement code cores diff
  let cs := bitList cores 16
  let s := cs.foldl (fun s c => s.askTarget c) s
  let s := if cs.isEmpty then s else s.modSafety (fun x => { x with transient := x.transient ++ [cs] })
  let before := s.safety.hist.head?
  let s := s.modSafety (fun x => { x with hist := (0, cores) :: x.hist })
  let s := if 0 < s.safety.windowLeft then s.enterFallback 0 else s
  match before with
  | none => s
  | some (_, m) => s.quarantineCores m cores

/-- Register the verdict of the frame computed (R417): status, primary list, counts. -/
def State.register (s : State) (code cores : Nat) (diff : Bytes) : State :=
  if s.safety.verdict.isSome then s
  else
    let s := s.modSafety (fun x => { x with verdict := some code })
    let s := (s.setNum (od 0xAF00 1) s.frame.comp.n).setNum (od 0xAF00 2) code
    let s := if code = 1 then s
      else s.modComp (fun c => { (if code = 6 then c else c.worse 3) with marigoldPrimary := true })
    let s := if code = 3 then s.modSafety (fun x => { x with selfTestIn := some 2 }) else s
    if code = 5 then s.countRaise (od 0xAF00 4) 0xA004
    else if code = 2 ∨ code = 3 ∨ code = 4 then s.disagree code cores diff else s

/-- A check list is good. -/
def CheckList.isGood : CheckList → Bool
  | .good _ => true
  | _ => false

/-- A check list is bad. -/
def CheckList.isBad : CheckList → Bool
  | .bad => true
  | _ => false

/-- Every list that the mode asks for is READY (R407). -/
def State.listsReady (s : State) : Bool := s.safety.listA.isGood && (s.mode == 1 || s.safety.listB.isGood)

/-- The verdict that what has been found gives, taking the codes in the order of R417; none while a check is missing. -/
def State.verdictNow (s : State) : Option (Nat × Nat × Bytes) :=
  let x := s.safety
  let bads := (if x.listA.isBad then s.copyCores 0 else 0) ||| (if x.listB.isBad then s.copyCores 1 else 0)
  if x.listA.isBad ∨ x.listB.isBad then some (4, bads, [])
  else
    match x.copyCheck, x.plausCheck with
    | some r, p =>
      if !r.pass then some (2, r.cores, r.diff)
      else match p with
        | some q => if q.pass then some (1, 0, []) else some (3, 0, [])
        | none => if s.mode = 0 ∨ (s.mode = 2 ∧ x.mariDue ∧ x.mari.isNone) then some (1, 0, []) else none
    | none, some q => if s.mode = 1 then (if q.pass then some (1, 0, []) else some (3, 0, [])) else none
    | none, none => none

/-- Register the verdict if it can be given. -/
def State.decideVerdict (s : State) : State :=
  match s.verdictNow with
  | some (code, cores, diff) => s.register code cores diff
  | none => s

/-- CHECK_LIST_POLL (R412): from E on, until the copy's list is in. -/
def execCheckListPoll (copy : Fin 2) (ecc : Finds) (t : Nat) (s : State) : Out :=
  let s := s.at t
  let have_ := if copy = 0 then s.safety.listA else s.safety.listB
  .next (if !s.sinceE 0 t ∨ have_ ≠ .none ∨ s.safety.verdict.isSome ∨ (copy = 1 ∧ s.mode = 1) ∨ s.num (od 0xA011 (1 + copy.val)) = 0 then s
    else
      let (s, l) := s.readList copy.val ecc
      let s := s.modSafety (fun x => if copy = 0 then { x with listA := l } else { x with listB := l })
      if l.isBad then s.decideVerdict else s)

/-! The copy comparison (R413, R414). -/

/-- The heading difference modulo one turn, from −½ to +½ turn (R413). -/
def headingDiff (a b : Int) : Int := signedOf 16 (unsignedOf 16 (a - b))

/-- A's partner among the objects of B that are still free, by position in B's list (R413). -/
def State.partner (s : State) (a : CheckObj) (bs : List (Nat × CheckObj)) : Option (Nat × CheckObj) :=
  let gate := 4 * s.numC (od 0xA010 1)
  let near := bs.filter (fun b => (b.2.cls == a.cls || s.numC (od 0xA010 9) == 0) && decide (dist b.2.x a.x ≤ gate ∧ dist b.2.y a.y ≤ gate))
  near.foldl (fun best b =>
    match best with
    | none => some b
    | some x => if dist b.2.x a.x + dist b.2.y a.y < dist x.2.x a.x + dist x.2.y a.y then some b else best) none

/-- The differences of a pair (R413). -/
def pairDiffs (a b : CheckObj) : List Int :=
  [a.x - b.x, a.y - b.y, a.z - b.z, (a.length : Int) - b.length, (a.width : Int) - b.width, (a.height : Int) - b.height,
   headingDiff a.heading b.heading, a.vx - b.vx, a.vy - b.vy, (a.score : Int) - b.score]

/-- The tolerances in the order of the differences (R413). -/
def State.tolerances (s : State) : List Nat :=
  let n := fun sub => s.numC (od 0xA010 sub)
  [n 1, n 1, n 2, n 3, n 3, n 3, n 4, n 5, n 5, n 6]

/-- A pair agrees (R413). -/
def State.pairOk (s : State) (a b : CheckObj) : Bool :=
  (List.zip (pairDiffs a b) s.tolerances).all (fun p => decide (p.1.natAbs ≤ p.2))

/-- The pairs and what stays alone in A and in B (R413 step 2). -/
def State.associate (s : State) : List CheckObj → List (Nat × CheckObj) → List (CheckObj × CheckObj) × List CheckObj × List CheckObj
  | [], bs => ([], [], bs.map (·.2))
  | a :: as_, bs =>
    match s.partner a bs with
    | some b =>
      let (ps, la, lb) := s.associate as_ (bs.filter (fun x => x.1 != b.1))
      ((a, b.2) :: ps, la, lb)
    | none =>
      let (ps, la, lb) := s.associate as_ bs
      (ps, a :: la, lb)

/-- The bit of a physical core. -/
def coreBit (c : Nat) : Nat := if c < 16 then 2 ^ c else 0

/-- The copy comparison's result and the unassociated objects it tolerates (R414). -/
def State.compareCopies (s : State) (as_ bs : List CheckObj) : CheckResult × Nat :=
  let floor := s.numC (od 0xA010 7)
  let top := floor + s.numC (od 0xA010 8)
  let part := fun (l : List CheckObj) => l.filter (fun o => decide (floor ≤ o.score))
  let b := part bs
  let (ps, la, lb) := s.associate (part as_) ((List.range b.length).zip b)
  let bad := ps.filter (fun p => !s.pairOk p.1 p.2)
  let alone := (la ++ lb).filter (fun o => decide (top ≤ o.score))
  let cores := bad.foldl (fun m p => m ||| coreBit p.1.core ||| coreBit p.2.core) (alone.foldl (fun m o => m ||| coreBit o.core) 0)
  let diff := match bad with
    | p :: _ => natLe 24 (Config.pairBytes (pairDiffs p.1 p.2)).toNat
    | [] => []
  ({ pass := bad.isEmpty && alone.isEmpty, cores := cores, diff := diff }, (la ++ lb).length - alone.length)

/-- COPY_COMPARE (R413, R414): both lists are in and the mode includes COMPARE. -/
def execCopyCompare (s : State) : Out :=
  .next (match s.safety.listA, s.safety.listB with
    | .good a, .good b =>
      if s.mode = 1 ∨ s.safety.copyCheck.isSome ∨ s.safety.verdict.isSome then s
      else
        let (r, n) := s.compareCopies a b
        let s := if n = 0 then s else s.bump (od 0xAF00 7) n
        (s.modSafety (fun x => { x with copyCheck := some r })).decideVerdict
    | _, _ => s)

/-! Plausibility (R415, R416). Positions are doubled, so that half a box edge stays a whole number. -/

/-- A box footprint as doubled x_min, x_max, y_min, y_max. -/
def CheckObj.foot (o : CheckObj) : Int × Int × Int × Int := (2 * o.x - o.length, 2 * o.x + o.length, 2 * o.y - o.width, 2 * o.y + o.width)

/-- Two doubled rectangles share a point. -/
def rectsMeet (a b : Int × Int × Int × Int) : Bool :=
  decide (a.1 ≤ b.2.1 ∧ b.1 ≤ a.2.1 ∧ a.2.2.1 ≤ b.2.2.2 ∧ b.2.2.1 ≤ a.2.2.2)

/-- An in-path object's distance, doubled (R415). -/
def CheckObj.dist2 (o : CheckObj) : Int := if 2 * o.x - o.length < 0 then 0 else 2 * o.x - o.length

/-- A cluster's box overlaps an object's footprint expanded by ASSOC_TOL (R415). -/
def State.confirms (s : State) (o : CheckObj) (k : MCluster) : Bool :=
  let tol : Int := 2 * (s.numC (od 0xA020 6) : Int)
  let f := o.foot
  rectsMeet (f.1 - tol, f.2.1 + tol, f.2.2.1 - tol, f.2.2.2 + tol)
    (32 * k.box.getD 0 0, 32 * k.box.getD 1 0, 32 * k.box.getD 2 0, 32 * k.box.getD 3 0)

/-- Objects of copy A in path (R415). -/
def State.inPath (s : State) (as_ : List CheckObj) : List CheckObj :=
  as_.filter (fun o => decide (s.numC (od 0xA010 7) ≤ o.score) && rectsMeet o.foot s.corridor)

/-- MISSED (R415): Marigold's closest obstacle lies nearer than the main channel's by more than the tolerance. -/
def State.missed (s : State) (dm : Nat) (path : List CheckObj) : Bool :=
  let abs_ : Int := s.numC (od 0xA020 3)
  let rel : Int := s.numC (od 0xA020 4)
  decide (dm ≤ 1024 * s.numC (od 0xA020 2)) &&
  path.all (fun o => decide (2000 * (dm : Int) < 1000 * o.dist2 - 2000 * abs_ - 2 * rel * dm))

/-- UNCONFIRMED objects (R415). -/
def State.unconfirmed (s : State) (m : MList) (path : List CheckObj) : List CheckObj :=
  path.filter (fun o => decide (o.dist2 ≤ 2048 * (s.num (od 0xA030 7) : Int)) &&
    decide (s.numC (od 0xA010 7) + s.numC (od 0xA010 8) ≤ o.score) && !m.clusters.any (s.confirms o))

/-- PLAUSIBILITY_CHECK (R415): copy A's list and Marigold's are in and the mode includes FALLBACK. -/
def execPlausibilityCheck (s : State) : Out :=
  .next (match s.safety.listA, s.safety.mari with
    | .good a, some m =>
      if s.mode = 0 ∨ s.safety.plausCheck.isSome ∨ s.safety.verdict.isSome then s
      else
        let path := s.inPath a
        let un := s.unconfirmed m path
        let s := if un.isEmpty then s else s.bump (od 0xAF00 0x0D) un.length
        let ok := !s.missed m.dm path && (un.isEmpty || s.numC (od 0xA020 5) == 0)
        (s.modSafety (fun x => { x with plausCheck := some { pass := ok } })).decideVerdict
    | _, _ => s)

/-- A verdict that some check alone gives where the others never came: IMPLAUSIBLE stands before the given code (R417). -/
def State.registerLast (s : State) (code : Nat) : State :=
  s.register (if s.safety.plausCheck.any (fun q => !q.pass) then 3 else code) 0 []

/-- E + MARIGOLD_DUE passes, once per frame (R417, R425): without a list the plausibility check is skipped or the verdict is LATE, and the
third missing list in a row restarts Marigold. -/
def State.mariDeadline (s : State) : State :=
  if s.frame.comp.n = 0 ∨ s.safety.mariDue then s
  else
    let s := s.modSafety (fun x => { x with mariDue := true })
    if s.safety.mari.isSome then s
    else
      let s := if s.mode = 2 then s.causeComp .safety 2 else s
      let s := s.decideVerdict
      let s := if s.mode = 1 then s.register 5 0 [] else s
      let s := s.modSafety (fun x => { x with missing := x.missing + 1 })
      if 3 ≤ s.safety.missing ∧ s.mariRuns then s.restartMarigold else s

/-- VERDICT_LATE (R417): no verdict by E + L − VERDICT_MARGIN in spite of every list being READY. -/
def execVerdictLate (t : Nat) (s : State) : Out :=
  let s := s.at t
  let due := s.frame.comp.end_ + s.frame.launch - 1000 * s.num (od 0xA000 6)
  .next (if s.frame.comp.n = 0 ∨ t < due ∨ !s.listsReady then s else (s.mariDeadline.decideVerdict).registerLast 5)

/-- At E + L, when MARIGOLD_DUE has passed, the verdict is final (R417, R439): LATE with every list READY, SKIPPED otherwise. -/
def State.finalVerdict (s : State) : State := (s.mariDeadline.decideVerdict).registerLast (if s.listsReady then 5 else 6)

/-! Marigold's commands (R422-R426). -/

/-- MARIGOLD_SWEEP (R422-R424): Marigold reads its mirrors and, once per frame, gives the list of frame n; after E + MARIGOLD_DUE it is
late, counted, EV 0xA009, and not used. With that frame's list made, or none in RUN yet, it only reads (log entry 175). -/
def execMarigoldSweep (e0 e1 : QueueEcc) (t : Nat) (s : State) : Out :=
  let s := s.at t
  .next (if !s.mariRuns then s
    else
    let s := s.mariRead e0 e1
    if s.frame.comp.n = 0 ∨ s.safety.mariSeen ∨ t < s.frame.comp.end_ then s
    else
      let (m, cut) := s.mariList s.frame.comp.n s.mariSweep
      let s := if cut = 0 then s else s.bump (od 0xAF00 0x0F) cut
      let s := s.modSafety (fun x => { x with mariSeen := true })
      if s.frame.comp.end_ + 1000 * s.num (od 0xA030 8) < t ∨ s.safety.mariDue then s.countRaise (od 0xAF00 6) 0xA009
      else s.modSafety (fun x => { x with mari := some m, missing := 0 }))

/-- MARIGOLD_DUE (R417, R425). -/
def execMarigoldDue (t : Nat) (s : State) : Out :=
  let s := s.at t
  .next (if t < s.frame.comp.end_ + 1000 * s.num (od 0xA030 8) then s else s.mariDeadline)

/-- MARIGOLD_LOCKSTEP_MISMATCH (R425). -/
def execMarigoldLockstepMismatch (t : Nat) (s : State) : Out :=
  let s := s.at t
  .next (if s.mariRuns then s.restartMarigold else s)

/-- MARIGOLD_SELF_TEST (R416, R425): a failure leads to a restart. -/
def execMarigoldSelfTest (pass : Bool) (t : Nat) (s : State) : Out :=
  let s := (s.at t).modSafety (fun x => { x with selfTestIn := none })
  .next (if pass ∨ !s.mariRuns then s else s.restartMarigold)

/-- MARIGOLD_RESTART_COMPLETE (R425): RUNNING or SINGLE_RAM again, or STOPPED where the restart failed. -/
def execMarigoldRestartComplete (ok : Bool) (t : Nat) (s : State) : Out :=
  let s := s.at t
  .next (if s.num (od 0xA030 9) ≠ 1 then s
    else if !ok then s.stopMarigold
    else (s.setMarigold (if s.hyperDead 0 ∨ s.hyperDead 1 then 2 else 0)).modSafety (fun x => { x with missing := 0 }))

/-! Foxglove's inputs (R428-R431, R434). -/

/-- SUPERVISOR_KICK (R430): the kick line toggles. -/
def execSupervisorKick (t : Nat) (s : State) : Out :=
  .next ((s.at t).modSafety (fun x => { x with kick := !x.kick, lastKick := t }))

/-- WATCHDOG_TIMEOUT (R429, R430): no toggle for 10 ms once the supervisor has been released, or while Primrose recovers (R539). -/
def execWatchdogTimeout (t : Nat) (s : State) : Out :=
  let s := s.at t
  .next (if t < s.safety.lastKick + 10000000 ∨ !(s.power.supervisor || s.sec.recovery.active) then s else s.enterSafe 0)

/-- FAULT_LINE (R429, R430): a line that is driven puts the module in SAFE. -/
def execFaultLine (security : Bool) (level : Bool) (s : State) : Out :=
  let s := s.modSafety (fun x => if security then { x with lineSec := level } else { x with linePow := level })
  .next (if level then s.enterSafe (if security then 1 else 2) else s)

/-- LAUNCH_LINE_TOGGLE (R430): once per launched record. -/
def execLaunchLineToggle (t : Nat) (s : State) : Out :=
  let s := s.at t
  .next (if !s.frame.comp.launched ∨ s.safety.launchedFrame = s.frame.comp.n then s
    else s.modSafety (fun x => { x with launchLine := !x.launchLine, launchedFrame := s.frame.comp.n }))

/-- MISSING_LAUNCH (R430): no launch of frame n by E + L + 1,000 µs. -/
def execMissingLaunch (t : Nat) (s : State) : Out :=
  let s := s.at t
  .next (if s.frame.comp.n = 0 ∨ t < s.frame.comp.end_ + s.frame.launch + 1000000 ∨ s.safety.launchedFrame = s.frame.comp.n then s
    else s.enterSafe 4)

/-- CLOCK_MONITOR (R430): `deviation` of CD57 from its nominal ratio to CD55 over 100 µs, in thousandths; above 10 % is a self-check
failure. -/
def execClockMonitor (deviation : Nat) (s : State) : Out := .next (if 100 < deviation then s.enterSafe 3 else s)

/-- FAULT_N_READBACK (R431): the halves disagree, or the pin is high while asserted, is a self-check failure; a pin low that Foxglove does
not assert is counted, EV 0xA00E with SRV_N. -/
def execFaultNReadback (low : Bool) (halvesAgree : Bool) (s : State) : Out :=
  .next (if !halvesAgree then s.enterSafe 3
    else if low ∧ !s.faultN then s.countRaise (od 0xAF00 0x0E) 0xA00E 0xFF true
    else if !low ∧ s.faultN then s.enterSafe 3 else s)

/-- FOXGLOVE_TEST_PAIR (R434): after the record's launch, once per frame; the stored pair agrees in even frames. -/
def execFoxgloveTestPair (agreed : Bool) (s : State) : Out :=
  let n := s.frame.comp.n
  .next (if s.frame.run ∧ (!s.frame.comp.launched ∨ s.safety.testSeen = n) then s
    else
      let s := s.modSafety (fun x => { x with testSeen := n })
      if agreed = (n % 2 == 0) then s else (s.raise 0xA00D).enterSafe 3)

/-- FORCE_FALLBACK (R428): a write of 1. -/
def execForceFallback (by_ : Writer) (v : BitVec 8) (s : State) : Out :=
  .next (s.command by_ 0xA000 9 (.num v.toNat) (fun _ => 0) (fun s => if v = 1 then s.enterFallback 3 else s))

end Sys2Proof.Machine
end

