-- ==== Sys2Proof/Machine/Net.lean ====
section
/-! DEFINITION. The ports and the switch (R441-R451, R276-R280): frames received, Qci, MACsec and 802.1CB, ARP and ICMP, links, the
gate list, peer frames and their pauses. -/

namespace Sys2Proof.Machine

/-- A received frame is dropped (R442, R446). -/
def State.rxDrop (s : State) (p : Nat) : State := s.bump (netOd p 7)

/-- The port's link, in the state and in the dictionary. -/
def State.setLink (s : State) (p : Fin 12) (up : Bool) : State :=
  (s.modNet (fun n => { n with port := n.port.set p { n.port[p] with link := up } })).setNum (netOd p.val 2) (if up then 1 else 0)

/-! Qci (R448). -/

/-- Filter i matches a frame: MAC or all ones, VLAN ID or 0xFFFF; an untagged frame has VLAN ID 0. -/
def qciMatches (f : Bytes) (e : EthIn) : Bool :=
  (f.take 6 == List.replicate 6 0xFF || f.take 6 == e.dst) && (fieldLe f 6 2 == 0xFFFF || fieldLe f 6 2 == e.vid.getD 0)

/-- The meter of a filter, filled up to an instant: CIR in kb/s, bucket of CBS × 64 bytes, full before its first frame; in units of
1/8,000,000 byte. -/
def State.meterAt (s : State) (p i cir cap t : Nat) : Nat :=
  match s.net.meters.find? (fun m => m.port == p && m.filter == i) with
  | none => 8000000 * cap
  | some m => Nat.min (8000000 * cap) (m.tokens + (t - m.at_) * cir)

/-- A frame passes the port's filters (R448): the first match governs, longer than its SDU or short of tokens drops it. -/
def State.qci (s : State) (p : Nat) (e : EthIn) (len : Nat) : State × Bool :=
  let fs := chunksOf 16 8 (s.oct (netOd p 0x0F))
  let drop := fun (s : State) => (s.bump (netOd p 0x10)).raiseIng 0x1004 p
  match (fs.zip (List.range 8)).find? (fun y => qciMatches y.1 e) with
  | none => (s, true)
  | some (f, i) =>
    let cir := fieldLe f 12 4
    let t := s.frame.now
    if fieldLe f 8 2 < len then (drop s, false)
    else if cir = 0 then (s, true)
    else
      let have_ := s.meterAt p i cir (64 * fieldLe f 10 2) t
      let ok := decide (8000000 * len ≤ have_)
      let m : Meter := { port := p, filter := i, tokens := if ok then have_ - 8000000 * len else have_, at_ := t }
      let s := s.modNet (fun n => { n with meters := m :: n.meters.filter (fun x => !(x.port == p && x.filter == i)) })
      if ok then (s, true) else (drop s, false)

/-! MACsec (R450). -/

/-- A frame on a port with MACsec (R450): EtherType 0x88E5, an association by AN and SCI, validation, and a packet number not below the
lowest acceptable one. Answers the frame in clear, none where it is dropped. -/
def State.macsecIn (s : State) (p : Nat) (b : Bytes) : State × Option Bytes :=
  if !s.flag (netOd p 0x0D) ∨ fieldBe b 12 2 = 0x88F7 ∨ fieldBe b 12 2 = 0x8808 then (s, some b)
  else
    let drop := (s.bump (netOd p 0x0E)).raiseIng 0x1005 p
    let an := (b.getD 14 0).toNat % 4
    if fieldBe b 12 2 ≠ 0x88E5 then (drop, none)
    else match s.sec.sas.find? (fun a => a.is p false && a.an == an && a.sci == fieldBe b 20 8) with
      | none => (drop, none)
      | some a =>
        match Config.macsecOpen (a.key ++ a.salt ++ natBe 4 a.ssci) (natLe 8 a.pn) b with
        | none => (drop, none)
        | some (pn, rest) =>
          if pn < a.pn then (drop, none) else (s.usePn p false a.an a.sci pn, some (b.take 12 ++ rest))

/-! 802.1CB recovery (R449; the vector recovery algorithm of IEEE 802.1CB). -/

/-- One frame at a VLAN's recovery function; the Bool says whether it passes. -/
def State.recover (s : State) (vlan seq : Nat) : State × Bool :=
  let put := fun (s : State) (r : CbRec) =>
    s.modNet (fun n => { n with cb := r :: n.cb.filter (fun x => x.vlan != vlan) })
  let now := s.frame.now
  match s.net.cb.find? (fun r => r.vlan == vlan) with
  | none => ((put s { vlan := vlan, newest := seq, seen := [0], last := now }).bump (od 0x10F0 1), true)
  | some r =>
    let d := signedOf 16 (seq + 65536 - r.newest)
    if 32 ≤ d ∨ d ≤ -32 then (s.bump (od 0x10F0 4), false)
    else if d ≤ 0 then
      let back := d.natAbs
      if r.seen.contains back then (s.bump (od 0x10F0 2), false)
      else ((put s { r with seen := back :: r.seen, last := now }).bump (od 0x10F0 1), true)
    else
      let k := d.toNat
      let lost := ((List.range k).filter (fun i => !r.seen.contains (31 - i))).length
      let seen := 0 :: (r.seen.filter (fun i => i + k < 32)).map (· + k)
      let s := put s { r with newest := seq, seen := seen, last := now }
      ((s.bump (od 0x10F0 3) lost).bump (od 0x10F0 1), true)

/-- CB_RESET_TIMEOUT (R449): no frame of the VLAN passed for CB_RESET_TIME. -/
def execCbResetTimeout (vlan : Nat) (t : Nat) (s : State) : Out :=
  let s := s.at t
  .next (s.modNet (fun n => { n with
    cb := n.cb.filter (fun r => r.vlan != vlan || decide (s.frame.now < r.last + 1000000 * s.num (od 0x1000 8))) }))

/-! Frames received. -/

/-- A whole SENS packet at its queue (R81): one dropped for space counts as QUEUE and sets that cause. -/
def State.sensPush (s : State) (p : Fin 8) (k : QPacket) : State :=
  let q : Fin 24 := Fin.castLE (by decide) p
  let lost := fun (s : State) => (s.bump (portOd 0x3104 p 0x0B)).causeIng .ingest 3
  if s.num (od 0xE000 4) = 3 ∧ !k.err then lost (s.bump (od (0x1830 + q.val) 3))
  else match s.qPush q k with
    | (s, true) => s
    | (s, false) => if k.err then s else lost s

/-- Frames of the designated ports go to Marigold's mirrors as well (R22). -/
def State.mirror (s : State) (p : Fin 8) (k : QPacket) : State :=
  let s := if s.num (od 0xA030 1) = p.val then (s.qPush 22 k).1 else s
  if s.num (od 0xA030 2) = p.val then (s.qPush 23 k).1 else s

/-- SENS_FRAME_RECEIVE (R442, R446, R448, R81): gPTP goes to the time unit, any other form than UDP over IPv4 is dropped before the queue,
and the rest is written whole with its receive stamp or dropped. -/
def execSensFrameReceive (p : Fin 8) (f : RawFrame) (t : Nat) (s : State) : Out :=
  let s := s.at t
  .next (if !s.net.link p.val then s
  else
    let s := if f.fcsOk then s else s.bump (netOd p.val 8)
    match parseEth f.bytes with
    | none => s.rxDrop p.val
    | some e =>
      if e.etype = 0x88F7 ∧ e.vid.isNone then (if f.fcsOk then s.bump (netOd p.val 6) else s)
      else if (sensPayload f.bytes).isNone ∨ !s.vlanOk p.val e then s.rxDrop p.val
      else
        let k : QPacket := { data := f.bytes, stamp := t, err := !f.fcsOk }
        if !f.fcsOk then (s.sensPush p k).mirror p k
        else match s.qci p.val e f.bytes.length with
          | (s, false) => s
          | (s, true) =>
            let s := (s.bump (netOd p.val 6)).modHead p (fun h => { h with lastPacket := t })
            (s.sensPush p k).mirror p k)

/-- A destination that HOST and PEER ports take (R442). -/
def State.dstOk (s : State) (p : Nat) (dst : Bytes) : Bool :=
  dst == s.ownMac p || dst == List.replicate 6 0xFF || dst == [0x01, 0x80, 0xC2, 0, 0, 0x0E] ||
  (decide (10 ≤ p) && dst == [0x01, 0x80, 0xC2, 0, 0, 0x01])

/-- A frame in clear that the switch gives to the supervisor: its source is learned where the datagram is one the module takes (R443). -/
def State.toSupervisor (s : State) (h : Fin 2) (e : EthIn) : State :=
  if e.etype = 0x0806 then s.learn h (fieldBe e.body 14 4) e.src
  else if e.etype = 0x0800 then
    match parseIp e.body with
    | none => s
    | some i => if i.fragment ∨ i.ihl ≠ 20 ∨ (i.proto = 17 ∧ !udpSumOk i) then s else s.learn h i.src e.src
  else s

/-- The R-TAG of a frame's body: its sequence number and the EtherType and body behind it (R449). -/
def EthIn.rtag (e : EthIn) : Option (Nat × EthIn) :=
  if e.etype = 0xF1C1 ∧ 6 ≤ e.body.length then
    some (fieldBe e.body 2 2, { e with etype := fieldBe e.body 4 2, body := e.body.drop 6 })
  else none

/-- A HOST frame that its queue delivered (R442, R446, R448-R450). -/
def State.hostTake (s : State) (h : Fin 2) (b : Bytes) : State :=
  let p := hostPort h
  match parseEth b with
  | none => s.rxDrop p
  | some e =>
    if !s.dstOk p e.dst ∨ !s.vlanOk p e then s.rxDrop p
    else if e.etype = 0x88F7 then s.bump (netOd p 6)
    else match s.qci p e b.length with
      | (s, false) => s
      | (s, true) =>
        match s.macsecIn p b with
        | (s, none) => s
        | (s, some clear) =>
          match parseEth clear with
          | none => s.rxDrop p
          | some e =>
            if !s.vlanOk p e then s.rxDrop p
            else
              let s := s.bump (netOd p 6)
              match e.rtag with
              | none => s.toSupervisor h e
              | some (seq, e') =>
                match s.recover (e.vid.getD 0) seq with
                | (s, false) => s
                | (s, true) => s.toSupervisor h e'

/-- HOST_FRAME_RECEIVE (R258, R262, R442): the frame passes its ingress queue whole, then the switch. What the supervisor does with the
message it carries is that message's own command. -/
def execHostFrameReceive (h : Fin 2) (f : RawFrame) (ecc : QueueEcc) (t : Nat) (s : State) : Out :=
  let s := s.at t
  let q : Fin 24 := Fin.ofNat 24 (8 + h.val)
  .next (if !s.net.link (hostPort h) then s
  else
    let s := if f.fcsOk then s else s.bump (netOd (hostPort h) 8)
    match s.qPush q { data := f.bytes, stamp := t, err := !f.fcsOk } with
    | (s, false) => s
    | (s, true) =>
      match s.qPop q ecc with
      | (s, none) => s
      | (s, some k) => s.hostTake h k.data)

/-- ARP_REQUEST (R443, R444): a request for the module's own address is answered; the supervisor serves it once it runs. -/
def execArpRequest (h : Fin 2) (f : RawFrame) (s : State) : Out :=
  let s := s.quiet
  .next (match parseEth f.bytes with
  | none => s
  | some e =>
    let a := e.body
    if !s.net.link (hostPort h) ∨ !s.power.supervisor ∨ !f.fcsOk ∨ e.etype ≠ 0x0806 ∨ a.take 8 ≠ [0, 1, 8, 0, 6, 4, 0, 1]
        ∨ a.length < 28 ∨ fieldBe a 24 4 ≠ s.ownIp then s
    else
      let me := s.ownMac (hostPort h)
      (s.learn h (fieldBe a 14 4) e.src).hostSend h
        { port := hostPort h, cls := 0, dst := slice a 8 6, vlan := s.num (netOd (hostPort h) 0x0A), etype := 0x0806, proto := 0
          payload := [0, 1, 8, 0, 6, 4, 0, 2] ++ me ++ natBe 4 s.ownIp ++ slice a 8 10 })

/-- ICMP_ECHO (R443): an echo request to the module's own address is answered on its port with the same identifier, sequence and data. -/
def execIcmpEcho (h : Fin 2) (f : RawFrame) (s : State) : Out :=
  let s := s.quiet
  .next (match parseEth f.bytes with
  | none => s
  | some e =>
    match parseIp e.body with
    | none => s
    | some i =>
      if !s.net.link (hostPort h) ∨ !s.power.supervisor ∨ !f.fcsOk ∨ e.etype ≠ 0x0800 ∨ i.fragment ∨ i.ihl ≠ 20 ∨ i.proto ≠ 1
          ∨ i.dst ≠ s.ownIp ∨ i.body.take 2 ≠ [8, 0] ∨ i.body.length < 8 ∨ !sumOk i.body then s
      else
        let rest := i.body.drop 4
        (s.learn h i.src e.src).sendOn h 0 none 1 0 0 i.src ([0, 0] ++ natBe 2 (65535 - onesFold (onesSum rest)) ++ rest))

/-! Links and gates (R445, R446). -/

/-- A port's link delay is known (R452): above NEIGHBOR_THRESH the port is not asCapable, EV 0x2007 when it comes to be so. -/
def State.setDelay (s : State) (p : Fin 12) (delay : Nat) : State :=
  let slow := decide (s.num (od 0x2000 0x0A) < delay)
  let was := (s.net.port[p]).slow
  let s := (s.setNum (od (0x2100 + 16 * p.val) 3) delay).setNum (od (0x2100 + 16 * p.val) 5) (if slow then 0 else 1)
  let s := s.modNet (fun n => { n with port := n.port.set p { n.port[p] with slow := slow } })
  if slow ∧ !was then s.raise 0x2007 p.val else s

/-- A port with a fixed delay uses it from the start (R452). -/
def State.fixDelay (s : State) (p : Fin 12) : State :=
  let d := s.num (od (0x2100 + 16 * p.val) 4)
  if d = 0 ∨ s.num (od (0x2100 + 16 * p.val) 1) = 0 then s else s.setDelay p d

/-- LINK_UP (R445, R542): EV 0x1002; a HOST port owes three vehicle announcements; a head must present itself again (R42),
but one in QUARANTINE stays there (log entry 150), and nothing changes on a port whose program slot is empty (R55). -/
def execLinkUp (p : Fin 12) (s : State) : Out :=
  .next (if s.net.link p.val ∨ !s.flag (netOd p.val 1) then s
  else
    let s := ((s.setLink p true).raise 0x1002 p.val).fixDelay p
    if h : p.val < 8 then
      if s.slotEmpty p.val then s
      else s.modHead ⟨p.val, h⟩ (fun x => match x.state with
        | .active => { x with state := .awaiting, returning := false, notActive := true }
        | .bootstrap => { x with state := .awaiting, returning := false, notActive := true }
        | .lost => { x with state := .awaiting, returning := false }
        | _ => x)
    else if p.val < 10 then s.modNet (fun n => { n with announce := n.announce.set (Fin.ofNat 2 (p.val - 8)) 3 })
    else s)

/-- Some entry of the peer table moves to the other port when this one fails (R276). -/
def State.hasFailover (s : State) (p : Nat) : Bool :=
  (chunksOf 8 65536 (s.oct (od 0x1820 0))).any (fun e =>
    bitAt (e.getD 6 0).toNat 0 && bitsOf (e.getD 6 0).toNat 2 1 == 2 + p)

/-- A queue is emptied and the flush counted, whatever its mode (R276). -/
def State.qEmpty (s : State) (q : Fin 24) : State := (s.qClear q).bump (od (0x1830 + q.val) 7)

/-- The mirror queues that a designated SENS port feeds are flushed with its link (R261, R263). -/
def State.mirrorDown (s : State) (p : Nat) : State :=
  let s := if s.num (od 0xA030 1) = p then s.qFlush 22 else s
  if s.num (od 0xA030 2) = p then s.qFlush 23 else s

/-- LINK_DOWN (R445, R261, R276): counted, EV 0x1001; ingress queues are flushed; a PEER port fails over; with both HOST links down EV
0x1003. -/
def execLinkDown (p : Fin 12) (s : State) : Out :=
  .next (if !s.net.link p.val then s
  else
    let s := ((s.setLink p false).modNet (fun n => { n with port := n.port.set p { n.port[p] with pdelay := none } })).countRaise (netOd p.val 0x0B) 0x1001 p.val
    if h : p.val < 10 then
      let s := s.qFlush (Fin.castLE (by decide) (⟨p.val, h⟩ : Fin 10))
      if p.val < 8 then s.mirrorDown p.val
      else
        let s := s.modHost (Fin.ofNat 2 (p.val - 8)) (fun x => { x with waiting := [], held := [], credit := Vector.replicate 2 0 })
        if s.net.link 8 ∨ s.net.link 9 then s else s.raise 0x1003
    else
      let n := p.val - 10
      let s := (List.range 4).foldl (fun s c => s.qFlush (Fin.ofNat 24 (12 + 4 * n + c))) s
      let s := s.qEmpty (Fin.ofNat 24 (20 + n))
      let s := { s with fab := { s.fab with pfcSent := s.fab.pfcSent.filter (fun x => x.1 != n), pfcHeld := s.fab.pfcHeld.filter (fun x => x.1 != n) } }
      if s.hasFailover n then s.raise 0x180A p.val else s)

/-- GATE_LIST_INTERVAL_END (R446): the interval of the entry in force is over and the next entry's mask holds; the last entry holds until
the cycle, the frame period, ends. Before RUN there is no cycle and the first entry holds (log entry 178). -/
def execGateListIntervalEnd (h : Fin 2) (ecc : QueueEcc) (s : State) : Out :=
  let s := s.quiet
  .next (if !s.frame.run ∨ (s.gateList h).length ≤ (s.net.host[h]).entry + 1 then s
  else
    let s := s.at (((s.gateSpans h)[(s.net.host[h]).entry]?.getD (0, 0)).1)
    let s := (s.accrue h s.frame.now).modHost h (fun x => { x with entry := x.entry + 1 })
    (s.hostLook h ecc).hostFlow h)

/-! Peer frames and pauses (R279, R280). -/

/-- Bytes that `n` messages take; none where they run beyond the end. -/
def msgsLen : Nat → Bytes → Option Nat
  | 0, _ => some 0
  | n + 1, l =>
    if l.length < 16 then none
    else
      let h := leNat (l.take 16)
      let k := 16 + (if typeHasData (bitsOf h 127 124) then 32 * (bitsOf h 66 65 + 1) else 0)
      if l.length < k then none else (msgsLen n (l.drop k)).map (· + k)

/-- The messages of a peer frame that passes the checks of R279; padding to the shortest Ethernet frame is no message. -/
def State.peerMsgs (s : State) (whole : Nat) (e : EthIn) : Option (List (Nat × Msg)) :=
  let b := e.body
  let n := fieldLe b 2 2
  if e.etype ≠ 0x88B5 ∨ b.getD 0 0 ≠ 1 ∨ fieldLe b 6 2 ≠ s.device ∨ b.length < 16 ∨ n = 0 then none
  else match msgsLen n (b.drop 16) with
    | none => none
    | some k =>
      if b.length = 16 + k ∨ (whole ≤ 60 ∧ allZero (b.drop (16 + k))) then parseMsgs n (slice b 16 k) else none

/-- A peer frame that its queue delivered (R442, R446, R450, R279). -/
def State.peerTake (s : State) (p : Fin 2) (b : Bytes) : State :=
  let port := 10 + p.val
  match s.macsecIn port b with
  | (s, none) => s
  | (s, some clear) =>
    match parseEth clear with
    | none => s.rxDrop port
    | some e =>
      if !s.vlanOk port e then s.rxDrop port
      else
        let s := s.bump (netOd port 6)
        match s.peerMsgs clear.length e with
        | none => s.countRaise (od 0x18F0 0x0D) 0x180B port
        | some ms => ({ s with fab := { s.fab with mesh := s.fab.mesh ++ ms } }).bump (od 0x18F0 0x0C)

/-- PEER_FRAME_RECEIVE (R279, R280, R446): gPTP goes to the time unit, IEEE 802.3 PAUSE is ignored and counted, a peer frame passes its
class's queue. -/
def execPeerFrameReceive (p : Fin 2) (f : RawFrame) (ecc : QueueEcc) (s : State) : Out :=
  let port := 10 + p.val
  let s := s.quiet
  .next (if !s.net.link port then s
  else
    let s := if f.fcsOk then s else s.bump (netOd port 8)
    let ty := fieldBe f.bytes 12 2
    if !s.dstOk port (f.bytes.take 6) then s.rxDrop port
    else if ty = 0x88F7 ∨ ty = 0x8808 then
      if !f.fcsOk then s
      else if ty = 0x8808 ∧ fieldBe f.bytes 14 2 = 1 then (s.rxDrop port).raise 0x1009 port
      else s.bump (netOd port 6)
    else
      let cls := peerClass f.bytes
      match s.qPush (peerInQ p cls) { data := f.bytes, err := !f.fcsOk } with
      | (s, false) => s
      | (s, true) =>
        match (s.pfcLook p cls).qPop (peerInQ p cls) ecc with
        | (s, none) => s.pfcLook p cls
        | (s, some k) => (s.pfcLook p cls).peerTake p k.data)

/-- PFC_PAUSE_REPEAT (R280): every 32,768 quanta while the output stays set. -/
def execPfcPauseRepeat (p : Fin 2) (cls : Fin 4) (s : State) : Out :=
  let s := s.quiet
  .next (if s.fab.pfcSent.contains (p.val, cls.val) ∧ (s.q[peerInQ p cls.val]).congested then s.sendPause p cls.val else s)

/-- PFC_PAUSE_RECEIVE (R280): the priority's egress stops until the pause ends; a pause of 0 quanta ends it. -/
def execPfcPauseReceive (p : Fin 2) (prio : Fin 8) (quanta : Nat) (ecc : QueueEcc) (s : State) : Out :=
  let s := s.quiet
  let rest := s.fab.pfcHeld.filter (fun x => x != (p.val, prio.val))
  .next (if !s.net.link (10 + p.val) then s
  else if quanta = 0 then ({ s with fab := { s.fab with pfcHeld := rest } }).peerFlow p ecc
  else { s with fab := { s.fab with pfcHeld := (p.val, prio.val) :: rest } })

/-- PFC_PAUSE_EXPIRE (R280); `ecc` is what the first read of the egress queue finds. -/
def execPfcPauseExpire (p : Fin 2) (prio : Fin 8) (ecc : QueueEcc) (s : State) : Out :=
  let s := s.quiet
  .next (({ s with fab := { s.fab with pfcHeld := s.fab.pfcHeld.filter (fun x => x != (p.val, prio.val)) } }).peerFlow p ecc)

end Sys2Proof.Machine
end

