-- ==== Sys2Proof/Machine/TimeUnit.lean ====
section
/-! DEFINITION. The time unit and gPTP (R452-R459): Sync, trim, slew, the one step, the states, holdover, PPS and Pdelay. -/

namespace Sys2Proof.Machine

/-- Update the time unit. -/
def State.modTime (s : State) (f : TimeUnit → TimeUnit) : State := s.modNet (fun n => { n with time := f n.time })

/-- Update a port. -/
def State.modPort (s : State) (p : Fin 12) (f : PortSt → PortSt) : State :=
  s.modNet (fun n => { n with port := n.port.set p (f n.port[p]) })

/-- gPTP role of a port (R452). -/
def State.role (s : State) (p : Nat) : Nat := s.num (od (0x2100 + 16 * p) 1)

/-- State of R456. -/
def State.timeState (s : State) : Nat := s.num (od 0x2000 1)

/-- The slave port. -/
def State.slavePort (s : State) : Nat := s.num (od 0x2000 8)

/-- An interval of 2ᵏ s in ns. -/
def syncNs (k : Int) : Nat := if 0 ≤ k then 1000000000 * 2 ^ k.toNat else 1000000000 / 2 ^ k.natAbs

/-- The conditions of R457 hold now: UNSYNCED, HOLDOVER_LONG. -/
def State.timeBits (s : State) : Bool × Bool :=
  (s.timeState == 0 || decide (16 * s.num (od 0x2000 4) < s.net.time.offset.natAbs),
   s.timeState == 3 && decide ((s.net.time.holdover.getD s.frame.now) + 1000000 * s.num (od 0x2000 5) < s.frame.now))

/-- What holds now degrades the frame being ingested (R457). -/
def State.timeCauses (s : State) : State :=
  let b := s.timeBits
  let s := if b.1 then s.causeIng .time 0 else s
  if b.2 then s.causeIng .time 1 else s

/-- The time unit changes its state; outside LOCKED PPS_OUT stays low (R459). The causes that held before still count. -/
def State.setTimeState (s : State) (v : Nat) : State :=
  let s := s.timeCauses.setNum (od 0x2000 1) v
  if v = 2 then s else s.modTime (fun x => { x with pps := false })

/-- The frequency trim in ppb (R456): from the oldest to the newest Sync in use; 0 with fewer than two. -/
def trimOf (l : List (Nat × Nat)) : Int :=
  match l with
  | [] => 0
  | y :: rest =>
    match rest.getLast? with
    | none => 0
    | some x =>
      let dc : Int := (y.1 : Int) - x.1
      let dm : Int := (y.2 : Int) - x.2
      let n := 1000000000 * (dm - dc)
      if dc ≤ 0 then 0
      else clampI (-500000) 500000 (eitherDiv n dc)

/-- The offset of a Sync in 1/16 ns (R454, R456): the module's time less the master's, which lies the link delay and the asymmetry behind
the instant it was sent. -/
def State.syncOffset (s : State) (p : Nat) (y : SyncIn) : Int :=
  16 * ((y.t : Int) - y.masterNs - s.num (od (0x2100 + 16 * p) 3)) - s.int (od (0x2100 + 16 * p) 2)

/-- A session's instants moved. -/
def Session.move (f : Nat → Nat) (x : Session) : Session :=
  { x with
    levelEnd := x.levelEnd.map f
    lastNotify := x.lastNotify.map f
    snapshot := x.snapshot.map (fun y => { y with last := f y.last })
    transfer := x.transfer.map (fun y => { y with last := f y.last })
    lastTime := f x.lastTime
    nonce := x.nonce.map (fun y => { y with at_ := f y.at_ })
    attestAt := x.attestAt.map f }

/-- Supply and start-up instants moved. -/
def Power.move (f : Nat → Nat) (x : Power) : Power :=
  { x with
    holdAt := x.holdAt.map f, resumeAt := x.resumeAt.map f, dipAt := x.dipAt.map f, highAt := x.highAt.map f
    fullAt := x.fullAt.map f, idleAt := x.idleAt.map f, shutAt := x.shutAt.map f, startedAt := f x.startedAt }

/-- The instants kept in module time move with it: sessions, security, supply, DoIP, heads, scheduler, safety, memories, ports. -/
def State.moveInstants (s : State) (f : Nat → Nat) : State :=
  { s with
    hap := { s.hap with sessions := s.hap.sessions.map (Session.move f) }
    sec := { s.sec with
      lockoutEnd := f s.sec.lockoutEnd, gateAt := f s.sec.gateAt
      stage := { s.sec.stage with writtenAt := f s.sec.stage.writtenAt }
      recovery := { s.sec.recovery with last := f s.sec.recovery.last } }
    power := s.power.move f
    doip := s.doip.map (fun x => { x with seed := x.seed.map (fun y => { y with at_ := f y.at_ }), last := f x.last })
    dict := { s.dict with waiting := s.dict.waiting.map (fun w => { w with at_ := f w.at_ }) }
    ing := { s.ing with heads := s.ing.heads.map (fun h => { h with lastPacket := f h.lastPacket }) }
    sched := { s.sched with
      acceptedAt := f s.sched.acceptedAt, preemptAt := s.sched.preemptAt.map (fun x => x.map f)
      underSince := s.sched.underSince.map f, aboveSince := s.sched.aboveSince.map f }
    safety := { s.safety with lastKick := f s.safety.lastKick, restartAt := f s.safety.restartAt, restarts := s.safety.restarts.map f }
    ext := { s.ext with ueAt := s.ext.ueAt.map (fun y => (y.1, f y.2)), hyperUeAt := s.ext.hyperUeAt.map (fun y => (y.1, f y.2)) }
    fab := { s.fab with
      reqs := s.fab.reqs.map (fun q => { q with since := f q.since })
      assembly := s.fab.assembly.map (fun a => { a with opened := f a.opened }) }
    net := { s.net with
      port := s.net.port.map (fun x => { x with lastSync := x.lastSync.map f })
      cb := s.net.cb.map (fun x => { x with last := f x.last })
      host := s.net.host.map (fun x => { x with free := f x.free, creditAt := f x.creditAt })
      meters := s.net.meters.map (fun x => { x with at_ := f x.at_ })
      time := { s.net.time with holdover := s.net.time.holdover.map f } } }

/-- The step (R456): the module's time moves so that the offset is 0; instants kept in module time move with it. EV 0x2002. -/
def State.stepTime (s : State) (off : Int) : State :=
  let d := Int.fdiv off 16
  let move := fun (x : Nat) => ((x : Int) - d).toNat
  let s := { s with frame := { s.frame with now := move s.frame.now } }
  let s := (s.moveInstants move).modNet (fun n => { n with time := { n.time with start := n.time.start - d } })
  s.raise 0x2002

/-- Frame boundaries are permitted (R456). -/
def State.permit (s : State) : State := s.modTime (fun x => { x with permitted := true })

/-- The state after a Sync whose offset is good or not (R456). -/
def State.afterSync (s : State) (good : Bool) : State :=
  let x := s.net.time
  match s.timeState with
  | 3 =>
    let s := s.setTimeState 1
    let s := s.modTime (fun x => { x with good := if good then 1 else 0, bad := 0, holdover := none })
    s.raise 0x2004
  | 2 =>
    let bad := if good then 0 else x.bad + 1
    if 4 ≤ bad then (s.setTimeState 1).modTime (fun x => { x with good := 0, bad := 0 })
    else s.modTime (fun x => { x with bad := bad })
  | _ =>
    let n := if good then x.good + 1 else 0
    if n < 4 then (s.setTimeState 1).modTime (fun x => { x with good := n })
    else
      let s := (s.setTimeState 2).modTime (fun x => { x with good := n, bad := 0 })
      if x.locked then s else ((s.modTime (fun x => { x with locked := true })).raise 0x2001).permit

/-- A Sync on the slave port (R456). -/
def State.slaveSync (s : State) (p : Nat) (y : SyncIn) : State :=
  let raw := s.syncOffset p y
  let steps := s.timeState == 0 && !s.net.time.permitted
  let s := if steps then s.stepTime raw else s
  let off := if steps then 0 else raw
  let old := if s.timeState = 3 then [] else s.net.time.syncs
  let l := ((y.clock, y.masterNs) :: old).take 8
  let above := decide (16 * s.num (od 0x2000 4) < off.natAbs)
  let was := s.net.time.above
  let s := s.timeCauses
  let s := s.modTime (fun x => { x with syncs := l, above := above, offset := off, slew := clampI (-800000) 800000 (-off) })
  let s := s.setNum (od 0x2000 2) (eitherDiv off 16)
  let s := s.setNum (od 0x2000 3) (trimOf l)
  let s := if above ∧ !was then s.raise 0x2005 else s
  (s.afterSync (decide (off.natAbs ≤ 16000))).timeCauses

/-- SYNC_RECEIVE (R452, R453, R456): the slave port's Syncs drive the time unit, the standby port's are only noted; a port that is not
asCapable takes none. -/
def execSyncReceive (p : Fin 12) (y : SyncIn) (s : State) : Out :=
  let t := s.net.time
  .next (if !s.net.link p.val ∨ !s.flag (od (0x2100 + 16 * p.val) 5) ∨ !(p.val == s.slavePort || t.standby == some p.val) then s
  else
    let s := (s.at y.t).modPort p (fun x => { x with lastSync := some y.t, masterInt := y.interval })
    if p.val = s.slavePort then s.slaveSync p.val y else s)

/-- A port's last Sync came within three of the intervals it announced. -/
def State.syncFresh (s : State) (p : Nat) : Bool :=
  match s.net.port[p]? with
  | some x => match x.lastSync with
    | some l => decide (s.frame.now < l + 3 * syncNs x.masterInt)
    | none => false
  | none => false

/-- SYNC_TIMEOUT (R453, R456): the standby port takes over where its own Syncs are fresh, else HOLDOVER. -/
def execSyncTimeout (t : Nat) (s : State) : Out :=
  let s := s.at t
  let p := s.slavePort
  let heard := ((s.net.port[p]?.getD {}).lastSync).isSome
  .next (if !heard ∨ s.syncFresh p ∨ s.timeState = 3 then s
  else match s.net.time.standby with
    | some q =>
      if s.syncFresh q then
        ((s.setNum (od 0x2000 8) q).modTime (fun x => { x with standby := some p, syncs := [] })).raise 0x2006 q
      else ((s.setTimeState 3).modTime (fun x => { x with holdover := some s.frame.now, slew := 0, good := 0, bad := 0 })).raise 0x2003
    | none => ((s.setTimeState 3).modTime (fun x => { x with holdover := some s.frame.now, slew := 0, good := 0, bad := 0 })).raise 0x2003)

/-- SYNC_WAIT_EXPIRE (R456): SYNC_WAIT after the time unit started, frame boundaries are permitted without a lock. -/
def execSyncWaitExpire (t : Nat) (s : State) : Out :=
  let s := s.at t
  .next (if s.net.time.start + 1000000 * s.num (od 0x2000 6) ≤ (s.frame.now : Int) then s.permit else s)

/-- The gPTP address. -/
def gptpMac : Bytes := [0x01, 0x80, 0xC2, 0, 0, 0x0E]

/-- The interval of a master port's Syncs (R452): SYNC_INTERVAL, or what the last request within its range asked for. -/
def State.syncInterval (s : State) (p : Fin 12) : Int := ((s.net.port[p]).ownInt).getD (s.int (od 0x2000 7))

/-- A port sends a gPTP message (R446, R447): class 2 on HOST ports. -/
def State.sendGptp (s : State) (p : Fin 12) (kind t : Nat) : State :=
  let f : TxFrame := { port := p.val, cls := 2, dst := gptpMac, etype := 0x88F7, proto := 0
                       payload := Config.gptpBytes kind p.val (s.syncInterval p) t }
  if p.val = 8 ∨ p.val = 9 then s.hostSend (Fin.ofNat 2 (p.val - 8)) f else s.transmit f

/-- SYNC_SEND (R452): a master port that is asCapable sends Sync and Follow_Up. -/
def execSyncSend (p : Fin 12) (t : Nat) (s : State) : Out :=
  let s := (s.at t).quiet
  .next (if s.net.link p.val ∧ s.role p.val = 1 ∧ s.flag (od (0x2100 + 16 * p.val) 5) then (s.sendGptp p 0 t).sendGptp p 8 t else s)

/-- PDELAY_REQUEST_SEND (R452): an enabled port without a fixed delay asks once per second. -/
def execPdelayRequestSend (p : Fin 12) (t : Nat) (s : State) : Out :=
  let s := (s.at t).quiet
  .next (if s.net.link p.val ∧ s.role p.val ≠ 0 ∧ s.num (od (0x2100 + 16 * p.val) 4) = 0 then s.sendGptp p 2 t else s)

/-- PDELAY_REQUEST_RECEIVE (R452): an enabled port answers its partner, whether its own delay is fixed or not. -/
def execPdelayRequestReceive (p : Fin 12) (t : Nat) (s : State) : Out :=
  let s := (s.at t).quiet
  .next (if s.net.link p.val ∧ s.role p.val ≠ 0 then (s.sendGptp p 3 t).sendGptp p 10 t else s)

/-- The mean link delay of a Pdelay exchange in ns (R454; IEEE 802.1AS-2020 as log entry 51 has it): request sent at t₁ and received at t₂,
response sent at t₃ and received at t₄, the partner's rate from this exchange's t₃ and t₄ and the last one's. -/
def linkDelay (last : Option (Nat × Nat)) (y : PdelayIn) : Nat :=
  let there : Int := (y.t4 : Int) - y.t1
  let turn : Int := (y.t3 : Int) - y.t2
  let d := match last with
    | some (a, b) => if b < y.t4 then eitherDiv (((y.t3 : Int) - a) * there - turn * (y.t4 - b)) (2 * (y.t4 - b)) else eitherDiv (there - turn) 2
    | none => eitherDiv (there - turn) 2
  Nat.min d.toNat (2 ^ 32 - 1)

/-- PDELAY_RESPONSE_RECEIVE (R452, R454): the delay measured by the exchange, unless the port's delay is fixed. -/
def execPdelayResponseReceive (p : Fin 12) (y : PdelayIn) (s : State) : Out :=
  .next (if s.net.link p.val ∧ s.role p.val ≠ 0 ∧ s.num (od (0x2100 + 16 * p.val) 4) = 0 then
    (s.setDelay p (linkDelay (s.net.port[p]).pdelay y)).modPort p (fun x => { x with pdelay := some (y.t3, y.t4) })
  else s)

/-- MESSAGE_INTERVAL_REQUEST (R452): honoured from −5 to 0 on a master port. -/
def execMessageIntervalRequest (p : Fin 12) (interval : Int) (s : State) : Out :=
  .next (if s.role p.val = 1 ∧ -5 ≤ interval ∧ interval ≤ 0 then s.modPort p (fun x => { x with ownInt := some interval }) else s)

/-- PPS_OUT_RISE (R459): at a whole second, while LOCKED. -/
def execPpsOutRise (t : Nat) (s : State) : Out :=
  let s := s.at t
  .next (if s.timeState = 2 ∧ t % 1000000000 = 0 then s.modTime (fun x => { x with pps := true }) else s)

/-- PPS_OUT_FALL (R459): 100 ms after its rise. -/
def execPpsOutFall (t : Nat) (s : State) : Out := .next ((s.at t).modTime (fun x => { x with pps := false }))

/-- PPS_IN_EDGE (R459): stamped in full time. -/
def execPpsInEdge (t : Nat) (s : State) : Out := .next ((s.at t).setOct (od 0x2000 0x0C) (time80 t))

end Sys2Proof.Machine
end

