-- ==== Sys2Proof/Machine/Results.lean ====
section
/-! DEFINITION. The frame's deadline and its result record (R36, R104, R379, R460-R472, R560): the body, the header, the launch, the
stored records and boot records. -/

namespace Sys2Proof.Machine

/-! The deadline (R36, R379, R417). -/

/-- An instance that has not completed (R36). -/
def InstState.unfinished (x : InstState) : Bool := x.live || x == .idle

/-- One unfinished instance at E + L (R379): a RUNNING one is ended at once, any other is dropped. -/
def State.cutInst (s : State) (i : Inst) : State :=
  let d := s.sched.descOf i
  let c := coreNo (s.sched.phys i.lcore)
  let run := i.state == .running
  let s := if run then (s.recordExc c 0x0C (s.cores[c]).seq.pc i.task 0).takeOff c else s
  let s := s.peonyEnd c.val d.part
  let s := s.modInst i.task i.lcore (fun x => { x with state := if run then .ended else .dropped, slot := none, saved := none, cur := none })
  s.bump (taskOd i.task (if run then 4 else 5))

/-- The overruns of the last ten frames (R386): three make a cause of doubt, 100 quiet frames clear it. -/
def State.noteOverrun (s : State) (above : Bool) : State :=
  let s := s.modSched (fun x => { x with overruns := (above :: x.overruns).take 10 })
  if 3 ≤ (s.sched.overruns.filter (·)).length then s.declareDoubt 4
  else
    let s := s.modSched (fun x => { x with quietOverrun := x.quietOverrun + 1 })
    if 100 ≤ s.sched.quietOverrun then s.clearDoubt 4 else s

/-- E + L of the frame computed, once (R36, R104, R417): unfinished tasks end, the report is taken as made, the verdict is final. Overruns
in HOLD do not count toward doubt (R548). -/
def State.deadline (s : State) : State :=
  if s.frame.comp.n = 0 ∨ s.frame.comp.dropped then s
  else
    let late := s.sched.insts.filter (fun i => i.state.unfinished)
    let s := late.foldl (fun s i => s.cutInst i) s
    let s := s.modComp (fun c => { c with dropped := true })
    let s := if late.isEmpty then s
      else (s.modComp (fun c => { c.worse 3 with marigoldPrimary := true })).countRaise (od 0x9F00 2) 0x9001
    let s := s.noteOverrun (!late.isEmpty && s.num (od 0xE000 4) != 3)
    let s := (s.reportDone).finalVerdict
    s.dispatch ((late.filter (fun i => i.state == .running)).map (fun i => coreNo (s.sched.phys i.lcore)))

/-- FRAME_DEADLINE (R36). -/
def execFrameDeadline (t : Nat) (s : State) : Out :=
  let s := s.at t
  .next (if t < s.frame.comp.end_ + s.frame.launch then s else s.deadline)

/-! The body (R461, R466). -/

/-- RESULT_BODY's core, partition, window and offset; none where a locator is none (R461). -/
def State.bodyAt (s : State) : Option (Fin 16 × Nat × Nat × Nat) :=
  let v := s.num (od 0x1A00 1)
  if bitsOf v 15 11 ≠ 0 ∨ bitsOf v 7 7 ≠ 0 ∨ bitsOf v 63 48 ≠ 0 ∨ bitsOf v 10 8 = 0 ∨ bitsOf v 47 16 % 32 ≠ 0 then none
  else some (coreNo (s.sched.phys (bitsOf v 3 0)), bitsOf v 6 4, bitsOf v 10 8, bitsOf v 47 16)

/-- Bytes of `n` trajectory records from `o` on (R468); none where they run beyond the end. -/
def trajBytes (b : Bytes) : Nat → Nat → Option Nat
  | 0, _ => some 0
  | n + 1, o =>
    if b.length < o + 16 then none
    else
      let k := 16 + 8 * (b.getD (o + 4) 0).toNat
      (trajBytes b n (o + k)).map (· + k)

/-- The checks of R466: frame, reserved fields, CRC, and the section sizes against the body length. -/
def bodyOk (frame : Nat) (b : Bytes) : Bool :=
  let n := fieldLe b 16 4
  fieldLe b 0 4 == frame && (b.getD 4 0).toNat == 1 && fieldLe b 10 2 == 0 && allZero (slice b 24 8) && b.length == n &&
  fieldLe b 20 4 == crc32c (b.drop 32) &&
  match trajBytes b (fieldLe b 8 2) (32 + 48 * fieldLe b 6 2) with
  | none => false
  | some k => ceilDiv (32 + 48 * fieldLe b 6 2 + k + fieldLe b 12 4) 32 * 32 == n

/-- The body is omitted (R461): counted missing or bad, EV 0x100A, INVALID with Marigold's list primary. -/
def State.omitBody (s : State) (bad : Bool) : State :=
  let s := s.modNet (fun n => { n with results := { n.results with bad := true } })
  (s.modComp (fun c => { c.worse 3 with marigoldPrimary := true })).countRaise (od 0x1A00 (if bad then 7 else 6)) 0x100A

/-- RESULT_BODY_POLL (R461): from E + L − RESULT_LEAD to E + L − 20 µs, until READY with frame n is found; then the body is read and
checked. A window not yet opened under its generation is not yet READY. -/
def execResultBodyPoll (ecc : Finds) (t : Nat) (s : State) : Out :=
  let s := s.at t
  let c := s.frame.comp
  let l := c.end_ + s.frame.launch
  let r := s.net.results
  .next (if c.n = 0 ∨ c.dropped ∨ r.body.isSome ∨ r.bad ∨ t + 1000 * s.num (od 0x1A00 2) < l ∨ l < t + 20000 then s
  else match s.bodyAt with
    | none => s
    | some (core, p, w, off) =>
      let x := (s.cores[core]).pad.win p w
      if !x.isOpen ∧ x.gen = r.gen then s
      else match s.padRead core p w off 32 (some r.gen) ecc with
        | (s, .error _) => s.omitBody true
        | (s, .ok h) =>
          let n := fieldLe h 16 4
          if fieldLe h 0 4 ≠ c.n ∨ (h.getD 4 0).toNat % 2 = 0 then s
          else if n < 32 ∨ 98304 < n then s.omitBody true
          else match s.padRead core p w off n (some r.gen) (findsAfter ecc 4) with
            | (s, .error _) => s.omitBody true
            | (s, .ok b) =>
              if bodyOk c.n b then s.modNet (fun x => { x with results := { x.results with body := some b } })
              else s.omitBody true)

/-! The record (R463-R465). -/

/-- A pose as OD 0x3F00.0C and the record hold it, as in R66: three I32 in 1/1,024 m and four in Q1.30. -/
def Pose.bytes (p : Pose) : Bytes := (p.pos.map toRecord ++ p.quat).flatMap (fun v => natLe 4 (unsignedOf 32 v))

/-- Pose age in µs (R464). -/
def FrameCtx.poseAge (c : FrameCtx) : Nat :=
  if c.rest then 0xFFFFFFFF
  else match c.poseAt with
    | none => 0xFFFFFFFF
    | some t => Nat.min ((c.end_ - t) / 1000) 0xFFFFFFFE

/-- The eight cause words (R464). -/
def FrameCtx.causes (c : FrameCtx) : List Nat := [c.cIngest, c.cCells, c.cBooks, c.cPeony, c.cSched, c.cSafety, c.cTime, 0]

/-- What a record header says that other fields do not hold. -/
structure RecHead where
  frame : Nat
  requested : Nat
  status : Nat
  primary : Nat
  verdict : Nat
  timeState : Nat
  mari : Bool
  e : Nat
  launch : Nat
  poseAge : Nat
  pref : Bytes
  causes : List Nat
  age : Nat

/-- A header with its CRC (R464). -/
def withCrc (h : Bytes) : Bytes := h.take 124 ++ natLe 4 (crc32c (h.take 124))

/-- Version, header length, frame, requested frame, start-up number, device and delivery count (R464). -/
def State.headStart (s : State) (frame requested count : Nat) : Bytes :=
  natLe 2 1 ++ natLe 2 128 ++ natLe 4 frame ++ natLe 4 requested ++ natLe 4 (s.num (od 0x1A00 0x0B)) ++ natLe 2 s.device ++ natLe 2 count

/-- A record header as launched (R464). -/
def State.header (s : State) (r : RecHead) (body : Bytes) : Bytes :=
  withCrc (s.headStart r.frame r.requested 1 ++ natLe 1 r.status ++ natLe 1 r.status ++ natLe 1 r.primary ++ natLe 1 r.verdict ++
    natLe 1 (s.num (od 0xA000 2)) ++ natLe 1 r.timeState ++
    natLe 2 ((if body.isEmpty then 0 else 1) + (if r.mari then 2 else 0)) ++ natLe 4 (s.num (od 0x9000 1)) ++ time80 r.e ++ time80 r.launch ++
    natLe 4 r.poseAge ++ padTo 28 r.pref ++ r.causes.flatMap (natLe 2) ++ natLe 4 body.length ++ natLe 2 (ceilDiv body.length 1440) ++
    natLe 2 (fieldLe body 6 2) ++ natLe 2 (fieldLe body 8 2) ++ natLe 2 (fieldLe body 12 4 / 2) ++ natLe 4 r.age ++ zeros 8)

/-- Send a record (R463): segment 0 holds the header and the Marigold section, the rest the body in pieces of 1,440 bytes; nothing while
RESULT_IP is 0 (R444). -/
def State.sendRecord (s : State) (frame : Nat) (head body : Bytes) : State :=
  let ip := s.num (od 0x1000 3)
  if ip = 0 then s
  else
    let parts := head :: chunksOf 1440 body.length body
    let total := head.length + body.length
    let place := fun (i : Nat) => if i = 0 then 0 else head.length + 1440 * (i - 1)
    (parts.zip (List.range parts.length)).foldl (fun s y =>
      s.sendUdp 3 44101 44101 ip (natLe 4 frame ++ natLe 2 y.2 ++ natLe 2 parts.length ++ natLe 4 total ++ natLe 4 (place y.2) ++ y.1)) s

/-- What the safety state gives every frame (R425, R427): CAPACITY_DOUBT in DOUBT, MARIGOLD_DOWN while Marigold restarts or is stopped. -/
def State.safetyCauses (s : State) : State :=
  let s := if s.num (od 0xA000 2) = 1 then s.causeComp .safety 0 else s
  if s.mode ≠ 0 ∧ (s.num (od 0xA030 9) = 1 ∨ s.num (od 0xA030 9) = 3) then s.causeComp .safety 1 else s

/-- The status of the frame computed (R37, R427, R548). -/
def State.recordStatus (s : State) : Nat :=
  if 2 ≤ s.num (od 0xA000 2) then 4
  else if s.frame.comp.hold ∨ s.num (od 0xE000 4) = 3 then Nat.max 3 s.frame.comp.status
  else s.frame.comp.status

/-- The primary list (R407, R417, R427): 0 main, 1 Marigold, 2 none. -/
def State.primary (s : State) : Nat :=
  let st := s.num (od 0xA000 2)
  if s.frame.comp.marigoldPrimary ∨ 3 ≤ s.recordStatus ∨ (st = 1 ∧ s.mode ≠ 0) then (if s.mode = 0 then 2 else 1) else 0

/-- Step 2 of R460 at E + L: the values latched at that instant (R462), the record sent and kept for storage. -/
def State.launchRecord (s : State) : State :=
  let s := s.deadline
  let r := s.net.results
  let s := if r.body.isNone ∧ !r.bad then s.omitBody false else s
  let s := s.safetyCauses
  let c := s.frame.comp
  let body := r.body.getD []
  let m := s.safety.mari
  let h := s.header { frame := c.n, requested := c.n, status := s.recordStatus, primary := s.primary, verdict := s.safety.verdict.getD 0
                      timeState := c.timeState, mari := m.isSome, e := c.end_, launch := c.end_ + s.frame.launch, poseAge := c.poseAge
                      pref := c.pref.bytes, causes := c.causes, age := s.frame.launch / 1000 } body
  let head := h ++ (m.getD { frame := c.n }).bytes
  let s := s.modComp (fun c => { c with launched := true })
  let s := s.modNet (fun n => { n with results := { n.results with record := some { frame := c.n, e := c.end_, data := head ++ body }, latest := c.n } })
  let s := ((s.setNum (od 0x1A00 4) c.n).bump (od 0x1A00 5))
  let s := if c.n = 1 then s.setNum (od 0xE000 0x0A) s.sinceWake else s
  s.sendRecord c.n head body

/-- RECORD_LAUNCH (R460, R462); SHUTDOWN launches no further record (R553). -/
def execRecordLaunch (t : Nat) (s : State) : Out :=
  let s := (s.at t).quiet
  .next (if s.frame.comp.n = 0 ∨ s.frame.comp.launched ∨ t < s.frame.comp.end_ + s.frame.launch ∨ s.num (od 0xE000 1) = 6 then s
    else s.launchRecord)

/-- RESULT_GATE_CLOSE (R460): at E + L − 15 µs, on each HOST port whose link is up. -/
def execResultGateClose (t : Nat) (s : State) : Out :=
  let s := s.at t
  .next (if s.frame.comp.n = 0 ∨ s.frame.comp.launched ∨ s.num (od 0x1000 3) = 0 ∨ t + 15000 < s.frame.comp.end_ + s.frame.launch then s
    else [0, 1].foldl (fun s h => if s.net.link (hostPort h) then (s.accrue h s.frame.now).modHost h (fun x => { x with window := true }) else s) s)

/-- RESULT_GATE_REOPEN (R460): when the last byte of the last body frame has left, the gates take what the list says again, and what
waited leaves. -/
def execResultGateReopen (host : Fin 2) (ecc : QueueEcc) (s : State) : Out :=
  let s := s.quiet
  let s := ((s.at (s.lineFree host)).accrue host (s.lineFree host)).modHost host (fun x => { x with window := false })
  .next ((s.hostLook host ecc).hostFlow host)

/-! Storage and reads (R472). -/

/-- A slot of the system region that holds none of the records kept (R472). -/
def freeRetained (l : List Retained) : Nat := ((List.range 8).find? (fun i => l.all (fun x => x.slot != i))).getD 0

/-- The supervisor has stored the launched record in the system region; 8 are retained. -/
def State.storeRecord (s : State) : State :=
  match s.net.results.record with
  | none => s
  | some r =>
    let kept := s.net.results.retained.take 7
    let x : Retained := { frame := r.frame, e := r.e, slot := freeRetained kept, len := r.data.length }
    (s.dramPut (retainedAt x.slot) r.data).modNet (fun n => { n with results := { n.results with record := none, retained := x :: kept } })

/-- A read of frame m has to wait for the storage of its record. -/
def State.readWaits (s : State) (m : Nat) : Bool :=
  match s.net.results.record with
  | some r => (if m = 0 then s.net.results.latest else m) == r.frame
  | none => false

/-- A header alone (R472): what the rule does not give is free. -/
def State.headAlone (s : State) (frame m status : Nat) (same : Bool) : Bytes :=
  let fill := padTo 128 (Config.headerFill s.freeCtr)
  withCrc (s.headStart frame m 0 ++ natLe 1 status ++ (if same then natLe 1 status else slice fill 21 1) ++ slice fill 22 2 ++
    natLe 1 (s.num (od 0xA000 2)) ++ slice fill 25 1 ++ natLe 2 0 ++ natLe 4 (s.num (od 0x9000 1)) ++ slice fill 32 68 ++ zeros 12 ++
    slice fill 112 4 ++ zeros 8)

/-- The reply data of a read of frame m (R472), counted. -/
def State.readResult (s : State) (m : Nat) : State × Bytes :=
  let r := s.net.results
  let want := if m = 0 then r.latest else m
  let s := s.bump (od 0x1A00 8)
  let ahead := (want + 2 ^ 32 - r.latest) % 2 ^ 32
  match (if r.latest = 0 then none else r.retained.find? (fun x => x.frame == want)) with
  | some x =>
    match s.dramGet (retainedAt x.slot) x.len with
    | (s, none) =>
      -- a record that cannot be read is damaged: it is retained no longer (R350, log entry 172)
      let s := s.modNet (fun n => { n with results := { n.results with retained := n.results.retained.filter (fun y => y.frame != want) } })
      ((s.bump (od 0x1A00 0x0A)).drawn, s.headAlone m m 2 false)
    | (s, some d) =>
      let age := Nat.min ((s.frame.now - x.e) / 1000) 0xFFFFFFFF
      let stale := decide (s.num (od 0x1A00 3) < age)
      let count := natLe 2 (fieldLe d 18 2 + 1)
      let h := withCrc (slice d 0 18 ++ count ++ (if stale then [2] else slice d 21 1) ++ slice d 21 91 ++ natLe 4 age ++ slice d 116 8)
      let s := s.dramPut (retainedAt x.slot + 18) count
      (if stale then s.bump (od 0x1A00 0x0A) else s, h ++ d.drop 128)
  | none =>
    if r.latest = 0 ∨ (1 ≤ ahead ∧ ahead < 2 ^ 31) then ((s.bump (od 0x1A00 9)).drawn, s.headAlone r.latest m 5 true)
    else ((s.bump (od 0x1A00 0x0A)).drawn, s.headAlone m m 2 false)

/-! Boot records (R560). -/

/-- MARIGOLD_BOOT_LIST (R560): until the first frame record launches, a list and a record of it, which is not retained. -/
def execMarigoldBootList (e0 e1 : QueueEcc) (t : Nat) (s : State) : Out :=
  let s := (s.at t).quiet
  .next (if s.net.results.latest ≠ 0 ∨ !s.mariRuns ∨ !s.power.booted ∨ s.num (od 0xE000 1) < 2 ∨ s.num (od 0xE000 1) = 6 then s
  else
    let s := s.mariRead e0 e1
    let (m, cut) := s.mariList 0 s.mariRecent
    let s := if cut = 0 then s else s.bump (od 0xAF00 0x0F) cut
    let s := { s with power := { s.power with bootRecords := s.power.bootRecords + 1 } }
    let s := if s.power.bootRecords = 1 then s.setNum (od 0xE000 9) s.sinceWake else s
    let now := s.frame.now
    let h := s.header { frame := 0, requested := 0, status := 3, primary := 1, verdict := 0, timeState := s.timeState, mari := true, e := now
                        launch := now, poseAge := { s.frame.ing with end_ := now }.poseAge, pref := s.frame.ing.pref.bytes
                        causes := List.replicate 8 0, age := 0 } []
    s.sendRecord 0 (h ++ m.bytes) [])

end Sys2Proof.Machine
end

