-- ==== Sys2Proof/Machine/Life.lean ====
section
/-! DEFINITION. What life cycle, sessions, restarts and start-up share (R248, R356-R360, R490, R524-R533, R539, R557-R560): the effective
state and its transitions, erasures, the debug port, the end of a session, what a restart keeps, network recovery's entry. -/

namespace Sys2Proof.Machine

/-- Update the security block. -/
def State.modSec (s : State) (f : Sec → Sec) : State := { s with sec := f s.sec }

/-- Update the power block. -/
def State.modPower (s : State) (f : Power → Power) : State := { s with power := f s.power }

/-- Update a DoIP connection. -/
def State.modDoip (s : State) (c : Fin 2) (f : Doip → Doip) : State := { s with doip := s.doip.set c (f s.doip[c]) }

/-! The effective state (R524, R526, R527). -/

/-- A session of a level exists. -/
def State.holdsLevel (s : State) (l : Level) : Bool := s.hap.sessions.any (fun x => x.level == l)

/-- The effective state that R524 gives. -/
def State.lifeWanted (s : State) : Nat :=
  if s.sec.base ≠ 2 then s.sec.base
  else if s.holdsLevel .vendor then 4
  else if s.holdsLevel .workshop ∨ s.doip.any (fun x => x.workshop) then 3
  else 2

/-- Begin the wipe of R248 that a transition or a tamper asks for; the target is a base state asked by LC_REQUEST. -/
def State.beginWipe (s : State) (target : Option Nat) : State :=
  s.wipeCores.modSec (fun x => { x with wiping := true, held := false, wipeTarget := target })

/-- A transition that has fallen due begins, or is held back by the gate with EV 0x0002 (R527). -/
def State.syncLife (s : State) : State :=
  if s.sec.wiping then s
  else if s.lifeWanted = s.sec.effective then s.modSec (fun x => { x with held := false })
  else if s.gateShut then
    if s.sec.held then s else (s.modSec (fun x => { x with held := true })).raise 0x0002
  else s.beginWipe none

/-- The debug port is open in these cases (R532). -/
def State.debugWanted (s : State) : Bool :=
  s.sec.base == 0 || ((s.sec.effective == 4 || s.sec.base == 5) && s.hap.sessions.any (fun x => x.debug))

/-- The debug port opens (R532). -/
def State.openDebug (s : State) : State :=
  if s.sec.debugOpen ∨ !s.debugWanted then s
  else ((s.modSec (fun x => { x with debugOpen := true })).setNum (od 0xB000 5) 1).raise 0xB005
/-- The effective state changes (R526): M6, LC_TRANSITIONS, EV 0x0001; the running schedule is re-activated at the second boundary after. -/
def State.enterLife (s : State) (v : Nat) : State :=
  let again := if s.frame.run then nextFrame (nextFrame s.frame.ing.n) else 0
  let s := s.modSec (fun x => { x with effective := v, reactivateAt := some again })
  let s := (s.extend 6 (natLe 1 v)).setNum (od 2 1) v
  let s := s.store (od 2 3) (.num (Od.counter (od 2 3) (s.num (od 2 3) + 1)))
  s.raise 0x0001 0xFF v

/-! Erasures (R525). -/

/-- Every table version is gone. -/
def State.emptyTables (s : State) : State :=
  (List.range 16).foldl (fun s t => (s.modTable t (fun (x : PTable) => ({ state := x.state } : PTable))).showVers t) s

/-- Forget a key that the journal holds. -/
def State.unstore (s : State) (key : Nat) : State :=
  { s with dict := { s.dict with
    vals := Sparse.put Od.dflt s.dict.vals key (Od.dflt key)
    journal := Sparse.put Od.dflt s.dict.journal key (Od.dflt key)
    waiting := s.dict.waiting.filter (fun w => w.key != key) } }

/-- The OEM components, the SAs and the staged update go. -/
def State.eraseOemParts (s : State) : State :=
  let own := fun (l : List Component) => l.filter (fun c => decide (c.type ≤ 3))
  s.modSec (fun x => { x with comps := own x.comps, dirs := x.dirs.map (fun d => { d with parts := own d.parts }), sas := [], stage := {} })

/-- The OEM key records and the workshop verifier go. -/
def State.eraseOemKeys (s : State) : State := [od 0xB002 1, od 0xB002 2, od 0xB002 3, od 0xB000 4].foldl State.unstore s

/-- Every DRAM region and the retained results go. -/
def State.eraseDram (s : State) : State :=
  ((s.modExt (fun e => { e with dram := [], bad := [] })).emptyTables).modNet (fun n => { n with results := { n.results with retained := [] } })

/-- The parser programs held by the engines go. -/
def State.dropWords (s : State) : State := { s with ing := { s.ing with programs := Vector.replicate 8 [] } }

/-- The objects that show the parser programs and the schedule. -/
def State.dropPrograms (s : State) : State :=
  (((List.range 8).foldl (fun s i => s.setOct (od (0x3010 + i) 0) []) s.dropWords).setNum (od 0xC000 3) 0).setOct (od 0x9001 0) []

/-- RETURNED erases OEM components, OEM key records, the workshop verifier, the SAs and every DRAM region (R525). -/
def State.eraseReturned (s : State) : State := s.noSchedule.eraseOemParts.eraseOemKeys.eraseDram.dropPrograms.showHeap

/-- Keys of page 0x0. -/
def onPage0 (x : Nat × OdVal) : Bool := decide (x.1 < od 0x1000 0)

/-- An object that flash holds (R479), outside page 0x0. -/
def storedKey (key : Nat) : Bool :=
  decide (od 0x1000 0 ≤ key) && (match Od.find (key / 256) (key % 256) with
    | some r => r.stored
    | none => false)

/-- Every component goes and the DUS is off. -/
def State.eraseParts (s : State) : State := s.modSec (fun x => { x with comps := [], dirs := x.dirs.map (fun d => { d with parts := [] }), dusOff := true, decommissionedFuse := true })

/-- Every stored object but page 0x0 goes. -/
def State.eraseStored (s : State) : State :=
  { s with dict := { s.dict with
    vals := s.dict.vals.filter (fun x => !storedKey x.1)
    journal := s.dict.journal.filter onPage0
    saved := s.dict.saved.filter onPage0
    waiting := s.dict.waiting.filter (fun w => !storedKey w.key) } }

/-- The pairing of the sensor heads goes. -/
def State.eraseHeads (s : State) : State := { s with ing := { s.ing with heads := Vector.replicate 8 {} } }

/-- The stored event records behind the tester go; the event log stays. -/
def State.eraseSrv (s : State) : State := { s with log := { s.log with srv := false, srvEvents := [], dtcs := [] } }

/-- Every session is at OPEN: HAP serves OPEN-level reads only (R525). -/
def State.openLevels (s : State) : State :=
  { s with hap := { s.hap with sessions := s.hap.sessions.map (fun x => { x with level := .open, levelEnd := none, debug := false }) } }

/-- DECOMMISSIONED erases every component and stored object but page 0x0 and the event log, and disables the DUS (R525). -/
def State.eraseAll (s : State) : State :=
  (s.eraseReturned.eraseParts.eraseStored.eraseHeads.eraseSrv.openLevels.modSafety (fun x => { x with lineSec := true })).stopMarigold.showHeap.enterSafe 1

/-- The base state changes (R525). -/
def State.setBase (s : State) (b : Nat) : State :=
  let s := s.modSec (fun x => { x with base := b, lcRecord := natLe 1 b })
  match b with
  | 1 => s.modSec (fun x => { x with floors := x.floors.filter (fun y => decide (y.1 ≤ 3)), provisionedFuse := true })
  | 5 => s.eraseReturned
  | 6 => s.eraseAll
  | _ => s

/-- A core's report of its wipe has been taken. -/
def Core.wipeOver (k : Core) : Core := { k with pad := { k.pad with wiped := false } }

/-- No core reports a wipe any more. -/
def State.coresOver (s : State) : State := { s with cores := s.cores.map Core.wipeOver }

/-- The wipe is over on Cassiope and on every core. -/
def State.wipeOver (s : State) : State :=
  ((s.raise 0x7008).modSec (fun x => { x with wiping := false, wipeTarget := none })).coresOver

/-- The base state a wipe was for takes effect. -/
def State.baseAfter (s : State) (target : Option Nat) : State :=
  match target with
  | some b => s.setBase b
  | none => s

/-- The effective state follows, but where the gate holds a transition without a new base state back. -/
def State.lifeAfter (s : State) (target : Option Nat) : State :=
  if s.lifeWanted = s.sec.effective ∨ (target.isNone ∧ s.sec.held) then s else s.enterLife s.lifeWanted

/-- Every core has reported the wipe complete (R248): the transition takes effect (R526). A transition that the gate holds back stays so. -/
def State.wipeDone (s : State) : State :=
  ((s.wipeOver.baseAfter s.sec.wipeTarget).lifeAfter s.sec.wipeTarget).openDebug.syncLife

/-! Sessions (R487, R490, R531). -/

/-- Sessions open: HAP's and the routed DoIP connections (R487, R542). -/
def State.sessionCount (s : State) : Nat := s.hap.sessions.length + (s.doip.toList.filter (fun x => x.routed)).length

/-- A session falls to OPEN (R531); what then falls due follows R527. -/
def State.dropLevel (s : State) (id : Nat) : State :=
  (s.modSession id (fun x => { x with level := .open, levelEnd := none, debug := false })).syncLife

/-- A session ends (R490), with its level, subscriptions, snapshots and transfer. -/
def State.endSession (s : State) (id : Nat) : State :=
  { s with hap := { s.hap with sessions := s.hap.sessions.filter (fun x => x.id != id) } }.syncLife

/-- A DoIP connection ends its routed session and its WORKSHOP level (R543). -/
def State.closeDoip (s : State) (c : Fin 2) : State := (s.modDoip c (fun _ => {})).syncLife

/-! Restarts (R356-R360, R479, R504, R557, R558). -/

/-- Overlay one store on another. -/
def overlay (m : List (Nat × OdVal)) : List (Nat × OdVal) → List (Nat × OdVal)
  | [] => m
  | (k, v) :: l => overlay (Sparse.put Od.dflt m k v) l

/-- Objects that show what the always-on logic measures, and what a restart does not change. -/
def alwaysOnKeys : List Nat := [od 0xE000 2, od 0xE000 4, od 0xE000 8]

/-- Keys of the array's repair state (R187, R189). -/
def repairKeys : List Nat :=
  (List.finRange 16).flatMap (fun c => [odCore 0x6100 c 1, odCore 0x6100 c 2, odCore 0x6100 c 3, odCore 0x6100 c 4] ++
    (List.range 16).map (fun i => odCore 0x6101 c (i + 1)))

/-- Keys of the scratchpads' row repairs and retired quads (R253, R254). -/
def rowRepairKeys : List Nat := (List.finRange 16).flatMap (fun c => [odCore 0x7100 c 15, odCore 0x7100 c 16, odCore 0x7102 c 0])

/-- Flash forgets keys. -/
def forget (m : List (Nat × OdVal)) (keys : List Nat) : List (Nat × OdVal) :=
  keys.foldl (fun m k => Sparse.put Od.dflt m k (Od.dflt k)) m

/-- A core without row repairs. -/
def Core.unrepaired (k : Core) : Core := { k with pad := { k.pad with repairs := [], badSpares := [] } }

/-- A core without array repairs. -/
def Core.unspared (k : Core) : Core := { k with arr := { k.arr with deadSpares := [], due := [] } }

/-- The armed RESTART commands act on flash (R187, R253, R354), and quads that a preserving test retired are out (R253). -/
def State.applyArmed (s : State) : State :=
  let s := (List.finRange 16).foldl (fun s c =>
    let n := (s.cores[c]).pad.nextRetired
    let key := odCore 0x7100 c 15
    if n = 0 then s else s.store key (.num (s.num key ||| n : Nat))) s
  let on := fun (k : Nat) => s.dict.armed.contains k
  let keys := (if on (od 0x6002 1) then repairKeys else []) ++ (if on (od 0x7000 4) then rowRepairKeys else []) ++
    (if on (od 0x7800 4) then [od 0x7800 3] else [])
  let s := { s with dict := { s.dict with saved := forget s.dict.saved keys, armed := [] } }
  let s := if on (od 0x6002 1) then { s with cores := s.cores.map Core.unspared } else s
  if on (od 0x7000 4) then { s with cores := s.cores.map Core.unrepaired } else s

/-- A head after a restart (R46, R49, R53, R360): the pairing, the record, the correction that bootstrap found, the operating time of flash. -/
def Head.started (h : Head) (seconds : Nat) : Head :=
  let h := match h.newCal with
    | some (c, raw) => h.install c raw
    | none => h
  { paired := h.paired, cal := h.cal, calRaw := h.calRaw, converged := h.converged, corrBase := h.corrBase, needsAccept := h.needsAccept
    opTimeNs := 1000000000 * seconds, wearRaised := h.wearRaised }

/-- A core after a restart: its scratchpad's repairs (R253), and its array's faulty spares and events of repairs that flash holds (R184,
R185; log entry 195). -/
def Core.started (k : Core) : Core := { pad := k.pad.started, arr := { due := k.arr.due, deadSpares := k.arr.deadSpares } }

/-- The cores that flash holds as retired (R186). -/
def State.retiredStored (s : State) : Nat :=
  (List.finRange 16).foldl (fun m c => if s.num (odCore 0x6100 c 1) = 2 then setBit m c.val else m) 0

/-- A port by role, where one has it (R452). -/
def State.portOf (s : State) (role : Nat) : Option Nat := (List.range 12).find? (fun p => s.num (od (0x2100 + 16 * p) 1) == role)

/-- The save of an orderly shutdown or restart (R53, R357, R550, R553): persistent state and the staged log. -/
def State.saveAll (s : State) : State :=
  s.saveLife.flushLog

/-- What the security block keeps over a restart (R512, R519, R524, R530): the lockout counts down only while powered. -/
def Sec.kept (x : Sec) (now : Nat) : Sec :=
  { revoke0 := x.revoke0, provisionedFuse := x.provisionedFuse, decommissionedFuse := x.decommissionedFuse, dusOff := x.dusOff
    thermometer := x.thermometer, base := x.base, lcRecord := x.lcRecord, effective := x.base, fails := x.fails
    lockoutEnd := x.lockoutEnd - now, comps := x.comps, dirs := x.dirs, dirUsed := x.dirUsed, floors := x.floors }

/-- What the always-on logic keeps of the supply, whose band is given (R546, R553, R554, R557). -/
def Power.kept (x : Power) (band : Nat) : Power :=
  let since := fun (b : Bool) => if b then some 0 else none
  { kl15 := x.kl15, wakeLow := x.wakeLow, highEnded := x.highEnded, coolantHot := x.coolantHot, failed := x.failed
    holdAt := since (band == 3), fullAt := since (band == 4), highAt := since (band == 5 || band == 6), idleAt := since (!x.kl15 && !x.wakeLow) }

/-- STANDBY is allowed (R553). -/
def State.standbyOk (s : State) : Bool := !s.power.kl15 && !s.power.wakeLow && s.num (od 0xC000 3) != 4

/-- The always-on logic notes since when STANDBY is allowed (R553). -/
def State.noteIdle (s : State) : State :=
  let ok := s.standbyOk
  s.modPower (fun x => { x with idleAt := if ok then some (x.idleAt.getD s.frame.now) else none })

/-- The dictionary after a restart (R360, R479): defaults, what flash holds, and what the always-on logic measures. -/
def State.dictKept (s : State) : Dict :=
  { vals := overlay (overlay s.dict.saved s.dict.journal) (alwaysOnKeys.map (fun k => (k, s.obj k)))
    journal := s.dict.journal
    saved := s.dict.saved }

/-- The stores that outlive a restart (R360); `log` are the records the log still has. -/
def State.kept (s : State) (log : List EventRec) : State :=
  { State.reset with
    dict := s.dictKept
    log := { seq := s.log.seq, ring := log, srv := s.log.srv, srvEvents := s.log.srvEvents, dtcs := s.log.dtcs }
    sec := s.sec.kept s.frame.now
    power := s.power.kept (s.num (od 0xE000 4))
    cores := s.cores.map (fun k => k.started)
    net := { sent := s.net.sent }
    hap := { lastStatus := s.hap.lastStatus, lastReply := s.hap.lastReply }
    freeCtr := s.freeCtr
    pending := s.pending }

/-- The heads of flash (R360). -/
def State.keepHeads (n s : State) : State :=
  let n := { n with ing := { n.ing with heads := Vector.ofFn (fun (p : Fin 8) => (s.ing.heads[p]).started (n.num (portOd 0x3102 p.val 1))) } }
  (List.finRange 8).foldl (fun n p => n.setOct (portOd 0x3100 p.val 2) (s.ing.heads[p]).paired) n

/-- What stored values configure at start-up (R186, R345, R452, R559): retired cores, fold factors, the slave and standby ports. -/
def State.configure (n : State) : State :=
  let n := n.modSched (fun x => { x with retired := n.retiredStored, hold := n.power.holdAt.isSome })
  let n := (List.finRange 16).foldl (fun n c => n.setNum (odCore 0x6100 c 4) (16 - n.tilesRetired c.val : Nat)) n
  let n := n.setNum (od 0x2000 8) ((n.portOf 2).getD 8 : Nat)
  let n := n.modTime (fun x => { x with standby := n.portOf 3 })
  (n.setNum (od 2 1) n.sec.base).showHeap

/-- A start-up is counted under its cause (R557). -/
def State.countStart (n : State) (cause : Nat) : State :=
  let n := n.store (od 0x1A00 0x0B) (.num (Od.counter (od 0x1A00 0x0B) (n.num (od 0x1A00 0x0B) + 1)))
  let n := n.store (od 0xE000 7) (.num cause)
  let n := n.store (od 0xEF01 cause) (.num (Od.counter (od 0xEF01 cause) (n.num (od 0xEF01 cause) + 1)))
  n.setNum (od 0xE000 1) 2

/-- In DECOMMISSIONED the security block holds its fault line and Marigold runs nothing (R525). -/
def State.decommissioned (n : State) : State :=
  if n.sec.base = 6 then ((n.modSafety (fun x => { x with lineSec := true })).setMarigold 3).enterSafe 1 else n

/-- A start-up begins (R360, R504, R557): only what flash, fuses, the always-on logic and the real-time counter hold is kept. -/
def State.startUp (s : State) (cause : Nat) (log : List EventRec) : State :=
  let s := s.applyArmed
  let n := ((s.kept log).keepHeads s).configure
  ((n.setNum (od 0x7900 1) (s.num (od 0x7900 1))).countStart cause).decommissioned

/-- A restart (R557): with the save first for causes 3 and 4; the staged log survives every restart (R360). -/
def State.restarted (s : State) (cause : Nat) : State :=
  let a := s.saveAll
  if cause = 3 ∨ cause = 4 then a.startUp cause a.log.ring else s.startUp cause a.log.ring

/-! Network recovery (R539). -/

/-- Primrose enters network recovery with a reason of R540: the supervisor does not run, the HOST ports come up, EV 0xC005. -/
def State.enterRecovery (s : State) (reason : Nat) : State :=
  if s.sec.base = 6 ∨ s.sec.recovery.active then s
  else
    let s := s.modSec (fun x => { x with recovery := { active := true, reason := reason } })
    (s.modPower (fun x => { x with supervisor := false, trained := false, mainReady := false })).raise 0xC005 0xFF 0 true

/-- WIPE_COMPLETE (R248, R525-R527). -/
def execWipeComplete (s : State) : Out := .next (if s.sec.wiping then s.wipeDone else s)

end Sys2Proof.Machine
end

