-- ==== Sys2Proof/Machine/Security.lean ====
section
/-! DEFINITION. The security block's commands (R504, R516, R522-R541, R558): life cycle, the update gate, staging and activation,
attestation, key and SA records, tamper, the debug port, requested restarts. -/

namespace Sys2Proof.Machine

/-! Life cycle (R525-R527, R530, R531). -/

/-- Checks of LC_REQUEST (R525, R527; log entry 196). -/
def lcCheck (v : Nat) (s : State) : Nat :=
  let b := s.sec.base
  if v ≠ 1 ∧ v ≠ 2 ∧ v ≠ 5 ∧ v ≠ 6 then 5
  else
    let allowed := match v with
      | 1 => b == 5
      | 2 => b == 1 && (s.oct (od 0xB002 3)).length == 168
      | 5 => b == 1 || b == 2
      | _ => b != 0 && b != 6
    if !allowed ∨ s.sec.wiping ∨ s.gateShut then 11 else 0

/-- LC_REQUEST (R525, R526): the wipe begins; the state changes when it is complete. -/
def execLcRequest (by_ : Writer) (v : BitVec 8) (s : State) : Out :=
  .next (s.command by_ 2 2 (.num v.toNat) (lcCheck v.toNat) (fun s => s.beginWipe (some v.toNat)))

/-- HELD_TRANSITION_RELEASE (R527): the gate reads 1 or the module has left RUN. -/
def execHeldTransitionRelease (t : Nat) (s : State) : Out :=
  let s := s.at t
  .next (if s.sec.held ∧ !s.gateShut then s.syncLife else s)

/-- VENDOR_EXPIRY (R531). -/
def execVendorExpiry (session : Nat) (t : Nat) (s : State) : Out :=
  let s := s.at t
  .next (match (s.session session).bind (fun x => x.levelEnd) with
    | some e => if e ≤ s.frame.now then s.dropLevel session else s
    | none => s)

/-- LOCKOUT_EXPIRY (R530). -/
def execLockoutExpiry (t : Nat) (s : State) : Out :=
  let s := s.at t
  .next (if s.sec.lockoutEnd ≤ s.frame.now then s.modSec (fun x => { x with lockoutEnd := 0 }) else s)

/-! The update gate (R487, R534). -/

/-- Only a host session writes UPDATE_GATE (R487). -/
def gateCheck (session : Nat) (s : State) : Nat := if (s.session session).any (fun x => x.isHost) then 0 else 2

/-- The gate as written; GATE_TIMEOUT counts from here (R534). -/
def gateEffect (v : Nat) (s : State) : State :=
  (s.setNum (od 0xC000 1) v).modSec (fun x => { x with gateAt := s.frame.now })

/-- UPDATE_GATE (R534). -/
def execUpdateGate (by_ : Writer) (v : BitVec 8) (s : State) : Out :=
  .next (s.command by_ 0xC000 1 (.num v.toNat) (gateCheck by_.session) (gateEffect v.toNat))

/-- UPDATE_GATE_EXPIRE (R534). -/
def execUpdateGateExpire (t : Nat) (s : State) : Out :=
  let s := s.at t
  .next (if s.flag (od 0xC000 1) ∧ !s.updateGate then s.setNum (od 0xC000 1) 0 else s)

/-! Staging and activation (R535-R537). -/

/-- The stage holds nothing. -/
def State.emptyStage (s : State) : State := (s.modSec (fun x => { x with stage := {} })).showHeap

/-- A component written to STAGE (R535): its status and what follows. -/
def State.stageEnd (s : State) (b : Bytes) : State × Nat :=
  if s.num (od 0xC000 3) = 4 then (s, 7)
  else match s.readComponent b with
    | some cs =>
      let s := (s.modSec (fun x => { x with stage := { parts := cs } })).showHeap
      ((s.setNum (od 0xC000 3) 2).raise 0xC001, 0)
    | none =>
      let s := s.emptyStage.setNum (od 0xC000 3) 3
      (s.countRaise (od 0xC000 8) 0xC002, 6)

/-- Steps 4 and 5 of R536 for what the stage holds. -/
def State.finishStage (s : State) : State :=
  let parts := s.sec.stage.parts
  ((s.modSec (fun x => { x with stage := {} })).completeActivation parts).noteIdle

/-- ACTIVATE is accepted while VERIFIED and where the gate allows it (R534, R536). -/
def activateCheck (s : State) : Nat := if s.num (od 0xC000 3) ≠ 2 ∨ s.gateShut then 11 else 0

/-- The gate has closed before step 3 (R536): the activation is abandoned. -/
def State.abandon (s : State) : State := ((s.setNum (od 0xC000 3) 2).setNum (od 0xC000 6) 11).raise 0xC004

/-- Step 3 of R536: the directory copy is written. -/
def State.stepThree (s : State) (cs : List Component) : State :=
  let s := s.modSec (fun x => { x with stage := { x.stage with written := true, writtenAt := s.frame.now } })
  let s := ((s.writeDirectory cs).acceptParts cs true).writeImage cs
  if s.frame.run then s.noteIdle else s.finishStage

/-- Steps 1 to 3 of R536, the third at t3 unless the gate has closed by then; outside RUN B is the end of step 3 (R537; log entry 196). -/
def activateEffect (t3 : Nat) (s : State) : State :=
  let cs := s.sec.stage.parts
  match (s.setNum (od 0xC000 3) 4).homeRules cs with
  | (s, false) => ((s.setNum (od 0xC000 3) 3).setNum (od 0xC000 6) 6).raise 0xC004
  | (s, true) => if (s.at t3).gateShut then (s.at t3).abandon else (s.at t3).stepThree cs

/-- ACTIVATE (R536). -/
def execActivate (by_ : Writer) (v : BitVec 8) (t3 : Nat) (s : State) : Out :=
  .next (s.command by_ 0xC000 4 (.num v.toNat) activateCheck (activateEffect t3))

/-- DISCARD is refused while ACTIVATING (R535). -/
def discardCheck (s : State) : Nat := if s.num (od 0xC000 3) = 4 then 11 else 0

/-- The stage is emptied (R507). -/
def discardEffect (s : State) : State := s.emptyStage.setNum (od 0xC000 3) 0

/-- DISCARD (R535). -/
def execDiscard (by_ : Writer) (v : BitVec 8) (s : State) : Out :=
  .next (s.command by_ 0xC000 5 (.num v.toNat) discardCheck discardEffect)

/-- COMPONENT_EFFECT (R537): at the first boundary at least 100 ms after the directory was written. -/
def execComponentEffect (t : Nat) (s : State) : Out :=
  let s := s.at t
  .next (if s.num (od 0xC000 3) = 4 ∧ s.sec.stage.written ∧ s.atBoundary t ∧ (!s.frame.run ∨ s.sec.stage.writtenAt + 100000000 ≤ t) then
    s.finishStage else s)

/-! Attestation (R523). -/

/-- No quote while the debug port is open, in BLANK and in DECOMMISSIONED (R523). -/
def attestCheck (s : State) : Nat := if s.sec.debugOpen ∨ s.sec.base = 0 ∨ s.sec.effective = 6 then 11 else 0

/-- The nonce starts a quote; until it is ready ATTEST_QUOTE reads empty (R523). -/
def attestEffect (session : Nat) (nonce : Bytes) (s : State) : State :=
  s.modSession session (fun x => { x with attestNonce := nonce, attestAt := some s.frame.now, quote := [] })

/-- ATTEST_NONCE (R523). -/
def execAttestNonce (by_ : Writer) (nonce : Bytes) (s : State) : Out :=
  .next (s.command by_ 0xB003 1 (.oct nonce) attestCheck (attestEffect by_.session nonce))

/-- Bytes 0-335 of a quote (R523). -/
def State.quoteBody (s : State) (nonce : Bytes) : Bytes :=
  natLe 2 1 ++ natLe 1 s.sec.effective ++ natLe 1 (if s.sec.debugOpen then 1 else 0) ++ natLe 2 s.device ++ zeros 2 ++ padTo 16 (s.oct (od 0 3)) ++
  natLe 4 (s.num (od 0x1A00 0x0B)) ++ natLe 4 (s.num (od 0xC000 7)) ++ time80 s.frame.now ++ zeros 6 ++ padTo 32 nonce ++
  s.sec.m.toList.flatMap (padTo 32)

/-- A quote (R523). -/
def State.quote (s : State) (nonce : Bytes) : Bytes := s.quoteBody nonce ++ natBe 64 (Config.sm2Sign identityKey (s.oct (od 0 3)) (s.quoteBody nonce)).toNat

/-- ATTEST_QUOTE_READY (R523): signed with the device identity key, where it is available. -/
def execAttestQuoteReady (session : Nat) (t : Nat) (s : State) : Out :=
  let s := s.at t
  .next (match s.session session with
    | none => s
    | some x =>
      if x.attestAt.isNone ∨ !s.identityOk then s
      else s.modSession session (fun y => { y with attestAt := none, quote := s.quote x.attestNonce }))

/-! Key records (R514-R516). -/

/-- The role that an object of OD 0xB002 asks for (R514, R516). -/
def keyRole (which : Fin 3) : Nat :=
  match which.val with
  | 0 => 4
  | 1 => 5
  | _ => 3

/-- A key record that does not verify is refused (R516). -/
def keyCheck (which : Fin 3) (rec : Bytes) (s : State) : Nat := if s.keyRecordOk rec (keyRole which) then 0 else 6

/-- Put a value into the configuration journal (R479); it is in force from the next start-up. -/
def State.toJournal (s : State) (key : Nat) (v : OdVal) : State :=
  { s with dict := { s.dict with journal := Sparse.put Od.dflt s.dict.journal key v } }

/-- A key record accepted replaces the one before at the next restart (R516; log entry 181). -/
def keyEffect (which : Fin 3) (rec : Bytes) (s : State) : State := s.toJournal (od 0xB002 (which.val + 1)) (.oct rec)

/-- The event of a refusal, where the last command was answered REFUSED. -/
def State.refusedEvent (s : State) (code : Nat) : State := if s.hap.lastStatus = 6 then s.raise code else s

/-- AUTHORITY_KEY_WRITE (R516): EV 0xB007 where it is refused. -/
def execAuthorityKeyWrite (by_ : Writer) (which : Fin 3) (rec : Bytes) (s : State) : Out :=
  .next ((s.command by_ 0xB002 (which.val + 1) (.oct rec) (keyCheck which rec) (keyEffect which rec)).refusedEvent 0xB007)

/-! SA records (R541). -/

/-- The fields of an SA record lie in their ranges (R541). -/
def saFieldsOk (tx : Bool) (r : Bytes) : Bool :=
  r.length == 168 && decide (fieldLe r 0 1 < 4) && decide (fieldLe r 1 1 < (if tx then 4 else 2)) && allZero (slice r 2 2) &&
  allZero (slice r 165 3)

/-- INSTALL of an SA record (R541). -/
def saInstall (r : Bytes) : Bool := bitAt (fieldLe r 1 1) 0

/-- The SAK of an SA record, none where it does not unwrap to 32 bytes (R541). -/
def State.sakOf (s : State) (r : Bytes) : Option Bytes :=
  if s.identityOk then (Config.sm2Unwrap identityKey (slice r 36 129)).filter (fun k => k.length == 32) else none

/-- The SCIs of the RX associations of a port. -/
def State.scis (s : State) (port : Nat) : List Nat := ((s.sec.sas.filter (fun a => a.is port false)).map (fun a => a.sci)).eraseDups

/-- Checks of an SA record (R541). -/
def saCheck (tx : Bool) (p : Fin 4) (r : Bytes) (s : State) : Nat :=
  if !saFieldsOk tx r then 6
  else if !saInstall r then 0
  else if (s.sakOf r).isNone then 6
  else if !tx ∧ !(s.scis (8 + p.val)).contains (fieldBe r 4 8) ∧ 4 ≤ (s.scis (8 + p.val)).length then 5
  else 0

/-- An SA record installs or deletes its association (R541); TRANSMIT makes it the one its port sends under. -/
def saEffect (tx : Bool) (p : Fin 4) (r : Bytes) (s : State) : State :=
  let port := 8 + p.val
  let an := fieldLe r 0 1
  let sci := fieldBe r 4 8
  let on := tx && bitAt (fieldLe r 1 1) 1
  let rest := s.sec.sas.filter (fun a => !(a.is port tx && a.an == an && a.sci == sci))
  if !saInstall r then s.modSec (fun x => { x with sas := rest })
  else
    let rest := if on then rest.map (fun a => if a.is port true then { a with transmit := false } else a) else rest
    let a : Sa := { port := port, tx := tx, an := an, sci := sci, ssci := fieldBe r 12 4, salt := slice r 16 12, pn := fieldLe r 28 8
                    key := (s.sakOf r).getD [], transmit := on }
    s.modSec (fun x => { x with sas := a :: rest })

/-- TX_SA (R541): EV 0xB008 where it is refused. -/
def execTxSa (by_ : Writer) (p : Fin 4) (rec : Bytes) (s : State) : Out :=
  .next ((s.command by_ (0xB100 + 16 * p.val) 1 (.oct rec) (saCheck true p rec) (saEffect true p rec)).refusedEvent 0xB008)

/-- RX_SA (R541): EV 0xB008 where it is refused. -/
def execRxSa (by_ : Writer) (p : Fin 4) (rec : Bytes) (s : State) : Out :=
  .next ((s.command by_ (0xB100 + 16 * p.val) 2 (.oct rec) (saCheck false p rec) (saEffect false p rec)).refusedEvent 0xB008)

/-! SRV_N, restarts, tamper and the debug port (R504, R532, R533, R558). -/

/-- SRV_N is released, its events and the DTCs are cleared, EV 0xD001 (R504, R544). -/
def srvEffect (s : State) : State := ({ s with log := { s.log with srv := false, srvEvents := [], dtcs := [] } }).raise 0xD001

/-- SRV_CLEAR (R504). -/
def execSrvClear (by_ : Writer) (v : BitVec 8) (s : State) : Out :=
  .next (s.command by_ 0xD000 5 (.num v.toNat) (fun _ => 0) srvEffect)

/-- In RUN a restart needs the open gate (R558). -/
def restartCheck (s : State) : Nat := if s.gateShut then 11 else 0

/-- EV 0xE00B, then the restart (R557, R558). -/
def restartEffect (s : State) : State := (s.raise 0xE00B).restarted 3

/-- RESTART (R558). -/
def execRestart (by_ : Writer) (v : BitVec 8) (s : State) : Out :=
  .next (s.command by_ 0xE000 5 (.num v.toNat) restartCheck restartEffect)

/-- TAMPER_DETECT (R533): counted, stamped, EV 0xB004 with SRV_N, the wipe of R248, nothing derived from the DUS until restart, and the
fault line, which puts the module in SAFE. -/
def execTamperDetect (t : Nat) (s : State) : Out :=
  let s := s.at t
  let n := Od.counter (od 0xB000 6) (s.num (od 0xB000 6) + 1)
  let s := (s.store (od 0xB000 6) (.num n)).store (od 0xB000 7) (.oct (time80 s.frame.now))
  let s := s.raise 0xB004 0xFF n true
  let s := (s.modSec (fun x => { x with tampered := true })).modSafety (fun x => { x with lineSec := true })
  let s := if s.sec.wiping then s else s.wipeCores.modSec (fun x => { x with wiping := true, wipeTarget := none })
  .next (s.enterSafe 1)

/-- DEBUG_PORT_CLOSE (R532): the grant has ended; EV 0xB006 and a restart at once. -/
def execDebugPortClose (t : Nat) (s : State) : Out :=
  let s := s.at t
  .next (if s.sec.debugOpen ∧ !s.debugWanted then (s.raise 0xB006).restarted 5 else s)

end Sys2Proof.Machine
end

