-- ==== Sys2Proof/Machine/Power.lean ====
section
/-! DEFINITION. Supply bands, hold-up, power states, clocks and sensors (R451, R546-R558, R563, R564). -/

namespace Sys2Proof.Machine

/-- POWER_STATE (R551). -/
def State.powerState (s : State) : Nat := s.num (od 0xE000 1)

/-- The module runs: BOOT, RUN, THROTTLED, SAFE or SHUTDOWN (R551). -/
def State.alive (s : State) : Bool := decide (2 ≤ s.powerState)

/-- The band in force (R546). -/
def State.band (s : State) : Nat := s.num (od 0xE000 4)

/-- The band of a voltage in mV, after a band (R546): HOLD is left above 16.5 V. A voltage on a limit belongs to the band above it, and
58.0 V to HIGH. -/
def bandOf (old : Nat) (mv : Int) : Nat :=
  if mv < -300 then 0
  else if mv < 6000 then 1
  else if mv < 10000 then 2
  else if mv < 16000 ∨ (old = 3 ∧ mv ≤ 16500) then 3
  else if mv < 32000 then 4
  else if mv ≤ 58000 then 5
  else 6

/-- No supply for the module in a band (R546, R550). -/
def bandDead (b : Nat) : Bool := b < 3 || b == 6

/-- SRV_N is driven low (R504, R575): released in OFF and STANDBY. -/
def State.srvN (s : State) : Bool := s.log.srv && s.alive

/-- XOFF_N is driven low (R82, R575): released in OFF and STANDBY. -/
def State.xoffN (s : State) : Bool := s.ing.xoff && s.alive

/-! Power off and on (R550-R553, R557). -/

/-- The rails are cut (R550, R553): flash, fuses and the always-on logic keep what they hold; `log` are the records that flash has. The
state is OFF or STANDBY. -/
def State.powerDown (s : State) (log : List EventRec) (failed ended : Bool) : State :=
  let b := s.band
  let n := (s.applyArmed.kept log).keepHeads s
  (n.modPower (fun x => { x with failed := failed, highEnded := ended })).setNum (od 0xE000 1) (if b < 2 ∨ b = 6 then 0 else 1 : Nat)

/-- The module wakes into BOOT (R552, R557): a start-up from the wake, counted in POWER_CYCLES. -/
def State.bootUp (s : State) (pulse : Bool) : State :=
  let s := s.store (od 3 2) (.num (Od.counter (od 3 2) (s.num (od 3 2) + 1)))
  let s := { s with frame := { s.frame with now := 0 } }
  let cause := if s.power.failed then 2 else 1
  let s := s.startUp cause s.log.ring
  s.modPower (fun x => { x with failed := false, highEnded := false, pulse := pulse })

/-- The band has been FULL for a time in ns. -/
def State.fullFor (s : State) (ns : Nat) : Bool := s.power.fullAt.any (fun f => decide (f + ns ≤ s.frame.now))

/-- A wake source is active (R552). -/
def State.wakeActive (s : State) : Bool := s.power.kl15 || s.power.wakeLow

/-- From OFF (R552): BOOT once the band has been FULL for 10 ms with a wake source active, STANDBY without one. -/
def State.leaveOff (s : State) : State :=
  if s.powerState ≠ 0 ∨ !s.fullFor 10000000 then s
  else if s.wakeActive ∧ (!s.power.highEnded ∨ s.fullFor 1000000000) then s.bootUp true
  else s.setNum (od 0xE000 1) 1

/-- From STANDBY a wake starts BOOT (R549, R552), but not while the band is LOW, and after a HIGH shutdown only once the band has been FULL
for 1 s with a wake source active. -/
def State.leaveStandby (s : State) (pulse : Bool) : State :=
  if s.powerState ≠ 1 ∨ bandDead s.band ∨ (s.power.highEnded ∧ !(s.wakeActive && s.fullFor 1000000000)) then s
  else s.bootUp pulse

/-- The supervisor can save (R553): it runs and its watchdog has not found it lost. -/
def State.saves (s : State) : Bool := s.power.supervisor && !bitAt (s.num (od 0xA000 0x0A)) 0

/-- SHUTDOWN (R553): every instance ends, no record is launched, Marigold stops, FAULT_N is asserted; a supervisor that runs saves, and
the rails are cut. Without one the always-on logic waits for its limit. -/
def State.shutDown (s : State) (ended : Bool) : State :=
  let s := s.loseAll.modSched (fun x => { x with running_ := false })
  let s := (s.setMarigold 3).modSafety (fun x => { x with foxAsserts := true, mari := none })
  let s := (s.setNum (od 0xE000 1) 6).modPower (fun x => { x with shutAt := some s.frame.now, highEnded := ended })
  if s.saves then
    let a := s.saveAll
    a.powerDown a.log.ring false ended
  else s

/-- SHUTDOWN may begin: the module runs and is not shutting down. -/
def State.up (s : State) : Bool := s.alive && s.powerState != 6

/-- A power failure (R550): EV 0xE003, the save of an orderly shutdown, the rails cut. -/
def State.powerFail (s : State) : State :=
  let s := s.store (od 0xEF00 2) (.num (Od.counter (od 0xEF00 2) (s.num (od 0xEF00 2) + 1)))
  let s := (s.raise 0xE003).loseAll
  let a := s.saveAll
  a.powerDown a.log.ring true s.power.highEnded

/-- Hold-up is spent: 10 ms since the band fell (R550). -/
def State.holdUpSpent (s : State) : Bool := s.power.dipAt.any (fun d => decide (d + 10000000 ≤ s.frame.now))

/-! Bands (R546-R550). -/

/-- HOLD begins (R548): the main channel stops, EV 0xE001. -/
def State.enterHold (s : State) : State :=
  let s := s.modPower (fun x => { x with holdAt := some (x.holdAt.getD s.frame.now), resumeAt := none })
  if !s.alive then s
  else
    let s := s.store (od 0xEF00 1) (.num (Od.counter (od 0xEF00 1) (s.num (od 0xEF00 1) + 1)))
    let s := (s.modSched (fun x => { x with hold := true })).modIng (fun c => { c with hold := true })
    s.raise 0xE001

/-- HOLD ends (R548): EV 0xE002; dispatch resumes at the first boundary at least 1 ms later. -/
def State.leaveHold (s : State) : State :=
  match s.power.holdAt with
  | none => s
  | some h =>
    let now := s.frame.now
    let s := s.modPower (fun x => { x with holdAt := none, resumeAt := some (now + 1000000) })
    if !s.alive then s
    else
      let s := s.bump (od 0xEF00 5) ((now - h) / 1000000)
      let s := if s.frame.run then s else s.modSched (fun x => { x with hold := false })
      s.raise 0xE002

/-- What follows from a change of the band (R546-R550, R552). -/
def State.bandEffects (s : State) (old new : Nat) : State :=
  let now := s.frame.now
  let s := s.modPower (fun x => { x with
    fullAt := if new = 4 then some (x.fullAt.getD now) else none
    highAt := if new = 5 ∨ new = 6 then some (x.highAt.getD now) else none })
  let s := if new = 3 ∧ old ≠ 3 then s.enterHold else if old = 3 ∧ new ≠ 3 then s.leaveHold else s
  if s.alive then
    if bandDead new then s.modPower (fun x => { x with dipAt := some (x.dipAt.getD now) })
    else if s.power.dipAt.isSome then (s.modPower (fun x => { x with dipAt := none })).bump (od 0xEF00 3)
    else s
  else if new < 2 ∨ new = 6 then s.setNum (od 0xE000 1) 0
  else if s.powerState = 0 ∧ new ≠ 4 then s.setNum (od 0xE000 1) 1
  else s.leaveOff

/-- SUPPLY_BAND_CHANGE (R546-R552): `millivolts` is the higher of KL30A and KL30B, `kl30` which of them lie above 6.0 V. A dip longer
than hold-up is a power failure first. -/
def execSupplyBandChange (millivolts : Int) (kl30 : BitVec 2) (t : Nat) (s : State) : Out :=
  let s := s.at t
  let s := if s.alive ∧ s.holdUpSpent then s.powerFail else s
  let old := s.band
  let new := bandOf old millivolts
  let s := (s.setNum (od 0xE000 2) (clampI 0 65535 millivolts)).setNum (od 0xE000 8) kl30.toNat
  .next ((s.setNum (od 0xE000 4) new).bandEffects old new)

/-- HIGH_BAND_TIMEOUT (R549): 75 s in HIGH or CLAMP; EV 0xE004 and SHUTDOWN. -/
def execHighBandTimeout (t : Nat) (s : State) : Out :=
  let s := s.at t
  .next (if !s.up ∨ !(s.power.highAt.any (fun h => decide (h + 75000000000 ≤ s.frame.now))) then s
  else
    let s := s.store (od 0xEF00 4) (.num (Od.counter (od 0xEF00 4) (s.num (od 0xEF00 4) + 1)))
    (s.raise 0xE004).shutDown true)

/-- POWER_FAILURE (R550). -/
def execPowerFailure (t : Nat) (s : State) : Out :=
  let s := s.at t
  .next (if s.alive ∧ s.holdUpSpent ∧ bandDead s.band then s.powerFail else s)

/-! Wake and shutdown (R451, R552, R553). -/

/-- A wake source that the command WAKE names by its own occurrence: KL15, where neither is known to be active. -/
def State.wakePins (s : State) : State := if s.wakeActive then s else s.modPower (fun x => { x with kl15 := true })

/-- WAKE (R552): in STANDBY, in OFF once the band holds, and during SHUTDOWN, which completes first (R553). HOST0 sends a wake-up pulse
(R451). -/
def execWake (t : Nat) (s : State) : Out :=
  let s := s.at t
  .next (match s.powerState with
    | 0 => s.wakePins.leaveOff
    | 1 => s.wakePins.leaveStandby true
    | 6 => s.wakePins.modPower (fun x => { x with wakeWaits := true })
    | _ => s)

/-- TC10_WAKE (R451, R552): a wake-up of the link partner in STANDBY. -/
def execTc10Wake (s : State) : Out :=
  .next (match s.powerState with
    | 1 => s.leaveStandby false
    | 6 => s.modPower (fun x => { x with wakeWaits := true })
    | _ => s)

/-- The level of a pin from its voltage in mV (R575): low up to a limit, high from another on; between the two the last level holds. -/
def pinLevel (low high : Int) (was : Bool) (mv : Int) : Bool := decide (high ≤ mv) || (was && decide (low < mv))

/-- KL15_CHANGE (R553, R575): the voltages of KL15 and WAKE_N in mV, and with them whether STANDBY is allowed; a wake source that returns
during SHUTDOWN waits for its end. -/
def execKl15Change (kl15 : Int) (wake : Int) (t : Nat) (s : State) : Out :=
  let s := (s.at t).modPower (fun x => { x with kl15 := pinLevel 4000 8000 x.kl15 kl15, wakeLow := !pinLevel 1500 3500 (!x.wakeLow) wake })
  .next (if s.powerState = 6 then s.modPower (fun x => { x with wakeWaits := x.wakeWaits || x.kl15 || x.wakeLow }) else s.noteIdle)

/-- OFF_DELAY_EXPIRE (R553): STANDBY has been allowed for OFF_DELAY. -/
def execOffDelayExpire (t : Nat) (s : State) : Out :=
  let s := s.at t
  .next (if s.up ∧ s.standbyOk ∧ s.power.idleAt.any (fun i => decide (i + 1000000 * s.num (od 0xE000 6) ≤ s.frame.now)) then s.shutDown false
  else s)

/-- TC10_SLEEP_REQUEST (R451, R553): acknowledged where STANDBY is allowed, EV 0x1007 and SHUTDOWN at once; else rejected, EV 0x1008. -/
def execTc10SleepRequest (s : State) : Out :=
  .next (if !s.up ∨ !s.net.link 8 then s
  else if s.standbyOk then ((s.raise 0x1007).shutDown false).setNum (od 0x1180 0x14) 1
  else s.raise 0x1008)

/-- SHUTDOWN_SAVE_TIMEOUT (R553): the rails are cut without a save; a wake that waits starts BOOT. -/
def execShutdownSaveTimeout (t : Nat) (s : State) : Out :=
  let s := s.at t
  .next (if s.powerState ≠ 6 ∨ !(s.power.shutAt.any (fun a => decide (a + 200000000 ≤ s.frame.now))) then s
  else
    let waits := s.power.wakeWaits
    let s := s.powerDown s.log.ring false s.power.highEnded
    if waits then s.leaveStandby true else s)

/-! Clocks (R554, R556). -/

/-- PLL_LOCK_FAILURE (R556): EV 0xE00A with the domain, and what its kind asks for. Domains without a PLL of their own have none to
lose. -/
def execPllLockFailure (domain : Fin 60) (s : State) : Out :=
  let d := domain.val
  let said := s.raise 0xE00A d
  .next (if !s.alive then s
  else if d < 16 then
    let s := said.retireNext (coreNo d)
    if s.frame.run then s else s.retireDue
  else if 19 ≤ d ∧ d ≤ 26 then said.failController (d - 19)
  else if 27 ≤ d ∧ d ≤ 34 then said.failController (d - 27)
  else if d = 51 ∨ d = 52 then said.stopMarigold
  else if d = 55 then said.enterSafe 3
  else if d ≤ 18 ∨ d = 35 ∨ d = 36 ∨ d = 37 ∨ d = 50 ∨ d = 56 then (said.modSafety (fun x => { x with linePow := true })).enterSafe 2
  else s)

/-! Temperature and power (R382, R563, R564). -/

/-- A sensor's reading as its limits take it (R564), in 1/16 °C: one outside −55 °C to 150 °C counts as at its limit. -/
def sensed (limit v : Int) : Int := if v < -880 ∨ 2400 < v then limit else v

/-- SENSOR_SAMPLE (R563, R564): 23 temperatures in 1/16 °C and the input power in 100 mW. -/
def execSensorSample (temps : List Int) (power : Nat) (t : Nat) (s : State) : Out :=
  let s := s.at t
  .next (if !s.alive ∨ temps.length ≠ 23 then s
  else
    let now := s.frame.now
    let top : Int := 16 * s.int (od 0xE010 2)
    let low : Int := top - 16 * s.num (od 0xE010 3)
    let watts := s.num (od 0xE010 1)
    let die := (temps.take 20).map (sensed top)
    let board := (temps.drop 21).map (sensed 1760)
    let above := decide (10 * watts < power) || die.any (fun v => decide (top < v)) || board.any (fun v => decide (1760 < v))
    let under := decide (power < 10 * (watts - 5)) && die.all (fun v => decide (v < low)) && board.all (fun v => decide (v < 1680))
    let hot := die.any (fun v => decide (2000 ≤ v))
    let warm := decide (1120 < sensed 1120 (temps.getD 20 0))
    let peak := die.foldl (fun m v => if m < v then v else m) (s.int (od 0xE020 0x18))
    let s := (temps.zip (List.range 23)).foldl (fun s x => s.setNum (od 0xE020 (x.2 + 1)) (satSigned 16 x.1)) s
    let s := s.setNum (od 0xE000 3) (Nat.min power 65535 : Nat)
    let s := if s.int (od 0xE020 0x18) < peak then s.store (od 0xE020 0x18) (.num peak) else s
    let s := s.modSched (fun x => { x with underSince := if under then some (x.underSince.getD now) else none })
    let was := s.power
    let s := s.modPower (fun x => { x with overNow := above, coolantHot := warm, dieHot := hot })
    let s := if warm ∧ !was.coolantHot then s.raise 0xE009 0xFF 0 true else s
    if hot ∧ !was.dieHot then ((s.raise 0xE008).modSafety (fun x => { x with linePow := true })).enterSafe 2 else s)

end Sys2Proof.Machine
end

