-- ==== Sys2Proof/Machine/Boot.lean ====
section
/-! DEFINITION. Start-up (R354, R356, R521, R522, R524, R538, R539, R559-R561) and network recovery (R539, R540). -/

namespace Sys2Proof.Machine

/-! Primrose (R524, R538). -/

/-- The base state that fuses and the life-cycle record give (R524): a record that fails its CMAC on a provisioned module that is not
decommissioned makes it FIELD_LOCKED, EV 0xB004. -/
def State.readLife (s : State) : State :=
  let x := s.sec
  let settle := fun (s : State) (b : Nat) => (s.modSec (fun x => { x with base := b, effective := b })).setNum (od 2 1) b
  if x.decommissionedFuse then settle s 6
  else if !x.provisionedFuse then settle s 0
  else if Config.lcRecordOk storageKey x.lcRecord then settle s x.base
  else (settle s 2).raise 0xB004 0xFF 0 true

/-- A component of the directory that passes R519, or its damage (R519, R521). -/
def State.checked (s : State) (c : Component) : State × Bool :=
  if !c.damaged ∧ s.oneOk c c.trailer then (s, true) else (s.damage c, false)

/-- Primrose takes the directory copy with the higher sequence number among those that verify (R358); where none does it has only the Marigold
firmware that either copy names (R539). The Bool says whether one verifies. -/
def State.selectDirectory (s : State) (ok0 ok1 : Bool) (bad : List (Nat × Nat)) : State × Bool :=
  let d0 := s.sec.dirs[0]
  let d1 := s.sec.dirs[1]
  let mark := fun (l : List Component) => l.map (fun c => { c with damaged := bad.contains (c.type, c.inst) })
  let take := fun (i : Fin 2) =>
    let d := s.sec.dirs[i]
    ((s.modSec (fun x => { x with dirUsed := i, comps := mark d.parts })).store (od 0x7900 1) (.num d.seq))
  if ok0 ∧ (!ok1 ∨ d1.seq ≤ d0.seq) then (take 0, true)
  else if ok1 then (take 1, true)
  else (s.modSec (fun x => { x with comps := mark ((d0.parts ++ d1.parts).filter (fun c => c.type == 2)).eraseDups }), false)

/-- Marigold's state as start-up leaves it (R356, R425): both HyperRAM devices, one, or none. -/
def State.ramState (s : State) : Nat :=
  if s.hyperDead 0 ∧ s.hyperDead 1 then 3 else if s.hyperDead 0 ∨ s.hyperDead 1 then 2 else 0

/-- The firmware of a type that Primrose takes: the first that verifies, else the first named (R538, R539). -/
def State.firmware (s : State) (type : Nat) : Option Component :=
  match s.sec.comps.find? (fun c => c.type == type && !c.damaged && s.oneOk c c.trailer) with
  | some c => some c
  | none => s.sec.comps.find? (fun c => c.type == type)

/-- Step 3 of R538: Marigold's firmware is verified, streamed into HyperRAM, started and measured. -/
def State.bootMarigold (s : State) : State :=
  match s.firmware 2 with
  | none => s.stopMarigold
  | some c =>
    match s.checked c with
    | (s, false) => s.stopMarigold
    | (s, true) =>
      let s := (s.loadMarigold c).measureComp c
      if s.ramState = 3 then s.stopMarigold else s.setMarigold s.ramState

/-- Step 4 of R538: the supervisor firmware is verified, loaded, measured and released; without it network recovery (R539). -/
def State.bootSupervisor (s : State) : State :=
  match s.sec.comps.find? (fun c => c.type == 1) with
  | none => s.enterRecovery 2
  | some c =>
    match s.checked c with
    | (s, false) => s.enterRecovery 2
    | (s, true) => (s.measureComp c).modPower (fun x => { x with supervisor := true })

/-- PRIMROSE_BOOT (R538): once per start-up, in BOOT. In DECOMMISSIONED, where every component is gone, Marigold runs nothing and what serves HAP's
reads is released all the same (R525; log entry 180). -/
def execPrimroseBoot (dir0 dir1 : Bool) (bad : List (Nat × Nat)) (t : Nat) (s : State) : Out :=
  let s := s.at t
  .next (if s.powerState < 2 ∨ s.powerState = 6 ∨ s.power.booted then s
  else
    let s := (s.modPower (fun x => { x with booted := true, startedAt := s.frame.now })).readLife
    let s := s.extend 0 (natLe 4 (s.num (od 0 7)))
    let (s, found) := s.selectDirectory dir0 dir1 bad
    let s := match s.sec.comps.find? (fun c => c.type == 1) with
      | some c => s.setNum (od 0 6) c.issue
      | none => s
    (if s.sec.base = 6 then s.decommissioned.modPower (fun x => { x with supervisor := true })
    else if found then s.bootMarigold.bootSupervisor
    else s.bootMarigold.enterRecovery 1).openDebug)

/-- SUPERVISOR_START_TIMEOUT (R539): released for 2 s without a kick and without having configured anything. -/
def execSupervisorStartTimeout (t : Nat) (s : State) : Out :=
  let s := s.at t
  .next (if !s.power.supervisor ∨ s.power.trained ∨ s.power.startedAt < s.safety.lastKick ∨ s.frame.now < s.power.startedAt + 2000000000 then s
  else s.enterRecovery 3)

/-! Network recovery (R539, R540). -/

/-- A recovery message (R540). -/
def recMsg (op status seq offset : Nat) (d : Bytes) : Bytes :=
  natLe 1 1 ++ natLe 1 op ++ natLe 1 status ++ zeros 1 ++ natLe 4 seq ++ natLe 4 offset ++ natLe 2 d.length ++ zeros 2 ++ d

/-- Primrose sends a recovery message on a HOST port. -/
def State.recSend (s : State) (h : Fin 2) (ip port : Nat) (m : Bytes) : State := s.sendOn h 0 none 17 44103 port ip m

/-- RECOVERY_HELLO (R540): broadcast on both ports; its sequence number is free. -/
def execRecoveryHello (t : Nat) (s : State) : Out :=
  let s := (s.at t).quiet
  let r := s.sec.recovery
  .next (if !r.active then s
  else
    let d := padTo 16 (s.oct (od 0 3)) ++ natLe 1 s.sec.effective ++ natLe 1 r.reason ++ zeros 2 ++ natLe 4 (s.num (od 0 7))
    let m := recMsg 1 0 s.fresh 0 d
    (s.drawn.recSend 0 0xFFFFFFFF 44103 m).recSend 1 0xFFFFFFFF 44103 m)

/-- Update network recovery. -/
def State.modRec (s : State) (f : Recovery → Recovery) : State := s.modSec (fun x => { x with recovery := f x.recovery })

/-- ACK, or NACK with a status, to a message's source under its sequence number (R540). -/
def State.recAnswer (s : State) (r : RecReq) (status : Nat) : State :=
  s.recSend r.host r.srcIp r.srcPort (recMsg (if status = 0 then 5 else 6) status r.seq 0 [])

/-- A message of the transfer's owner, or of anyone where none is open; another source gets BUSY (R540). -/
def State.recRequest (s : State) (r : RecReq) (opens : Bool) (f : State → State × Nat) : State :=
  let s := (s.at r.t).quiet
  let x := s.sec.recovery
  if !x.active ∨ r.version ≠ 1 then s
  else if x.owner.any (fun o => o != r.srcIp) then s.recAnswer r 7
  else if !opens ∧ x.owner.isNone then s.recAnswer r 12
  else
    match f (s.modRec (fun y => { y with last := s.frame.now })) with
    | (s, st) => s.recAnswer r st

/-- RECOVERY_BEGIN (R540). -/
def execRecoveryBegin (r : RecReq) (s : State) : Out :=
  .next (s.recRequest r true (fun s =>
    if r.data.length ≠ 8 then (s, 10)
    else if s.num (od 0x7900 2) < fieldLe r.data 0 4 then (s, 5)
    else (s.modRec (fun y => { y with owner := some r.srcIp, total := fieldLe r.data 0 4, crc := fieldLe r.data 4 4, data := [] }), 0)))

/-- RECOVERY_SEGMENT (R540). -/
def execRecoverySegment (r : RecReq) (s : State) : Out :=
  .next (s.recRequest r false (fun s =>
    let x := s.sec.recovery
    if 1392 < r.data.length then (s, 10)
    else if r.offset ≠ x.data.length ∨ x.total < x.data.length + r.data.length then (s, 12)
    else (s.modRec (fun y => { y with data := y.data ++ r.data }), 0)))

/-- What recovery takes (R540): supervisor firmware, or a bundle of it and Marigold's. -/
def recTypesOk (cs : List Component) : Bool :=
  cs.any (fun c => c.type == 1) && cs.all (fun c => c.type == 1 || c.type == 2) && decide (cs.length ≤ 2)

/-- RECOVERY_END (R519, R540): checked, written to the heap and the directory, EV 0xC006, and the module restarts. -/
def execRecoveryEnd (r : RecReq) (s : State) : Out :=
  let x := s.sec.recovery
  let whole := x.data.length == x.total && crc32c x.data == x.crc
  let parts := if whole then ((s.at r.t).readComponent x.data).filter recTypesOk else none
  let s' := s.recRequest r false (fun s =>
    (s.modRec (fun y => { y with owner := none, total := 0, data := [] }), if !whole then 12 else if parts.isNone then 6 else 0))
  .next (match parts with
    | none => s'
    | some cs =>
      if !x.active ∨ r.version ≠ 1 ∨ x.owner ≠ some r.srcIp then s'
      else
        let s' := s'.writeDirectory cs
        let s' := if x.reason = 1 then s'.raise 0x7806 else s'
        (s'.raise 0xC006).restarted 6)

/-- RECOVERY_TRANSFER_TIMEOUT (R540): 10 s without a message. -/
def execRecoveryTransferTimeout (t : Nat) (s : State) : Out :=
  let s := s.at t
  .next (if s.sec.recovery.owner.isSome ∧ s.sec.recovery.last + 10000000000 ≤ s.frame.now then
    s.modRec (fun y => { y with owner := none, total := 0, data := [] }) else s)

/-! The main channel (R354, R521, R559, R561). -/

/-- CORE_RESET_RELEASE (R354, R552, R559): DRAM is trained, the usable controllers are those neither stored as failed nor untrained; one that
does not train fails. Not while the band is HOLD. -/
def execCoreResetRelease (trained : BitVec 8) (t : Nat) (s : State) : Out :=
  let s := s.at t
  .next (if !s.power.supervisor ∨ s.power.trained ∨ s.band = 3 then s
  else
    let ok := fun (c : Nat) => bitAt trained.toNat c
    let s := (List.range 8).foldl (fun s c => if ok c ∨ bitAt (s.num (od 0x7800 3)) c then s else s.failController c) s
    let out := s.num (od 0x7800 3)
    let s := (List.range 8).foldl (fun s c => if bitAt out c then s.setNum (od (0x7880 + c) 4) 2 else s) s
    let s := s.setNum (od 0x7800 1) (255 - out % 256 : Nat)
    let s := (s.setNum (od 0x7800 2) s.capacity).modPower (fun x => { x with trained := true })
    let s := s.modExt (fun e => { e with failed := out % 256 })
    let s := if s.controllers.length < 8 then s.raise 0x7804 else s
    if regionsOk s.num s.capacity then s else s.enterFallback 1)

/-- A table as its stored descriptor makes it: unused, serving or refused (R311, R342). -/
def State.startTable (s : State) (t : Nat) : State :=
  let d := s.oct (od (0x8100 + 16 * t) 1)
  s.modTable t (fun x => { x with state := if allZero d then 0 else if s.tdescOk t d then 1 else 2 })

/-- A component of the directory that the supervisor loads (R521, R522, R559); the schedule follows when the others are in. -/
def State.loadComp (s : State) (c : Component) : State :=
  if c.type = 1 ∨ c.type = 2 then s
  else match s.checked c with
    | (s, false) => s
    | (s, true) => if c.type = 3 then s.measureComp c else (s.measureComp c).useLibrary c

/-- The schedule of the directory is checked again and put in force (R374, R375); with the model damaged there is none (R521). -/
def State.startSchedule (s : State) : State :=
  match s.component 0x11 0 with
  | none => s
  | some c =>
    if s.sec.comps.any (fun x => x.type == 0x10 && x.damaged) then s
    else match parseSchedule c.plain with
    | none => s.raise 0x9008
    | some a =>
      match s.refuses a with
      | some why => s.raiseRefusal why
      | none => s.putSchedule a

/-- MAIN_CHANNEL_READY (R521, R522, R559): components in directory order, then the schedule; what the start-up tests found takes effect
before the first dispatch. -/
def execMainChannelReady (t : Nat) (s : State) : Out :=
  let s := s.at t
  .next (if !s.power.supervisor ∨ !s.power.trained ∨ s.power.mainReady then s
  else
    let s := [od 0xB002 1, od 0xB002 2, od 0xB002 3].foldl (fun s k => if (s.oct k).length = 168 then s.measure 6 (s.oct k) else s) s
    let s := (List.range 16).foldl (fun s i => s.startTable i) s
    let s := s.fillLibrary
    let s := s.sec.comps.foldl (fun s c => s.loadComp c) s
    let s := s.startSchedule.retireDue.switchPlan
    s.modPower (fun x => { x with mainReady := true }))

/-- MAIN_NOT_READY (R561): 3.0 s after Primrose's start, once. -/
def execMainNotReady (t : Nat) (s : State) : Out :=
  let s := s.at t
  .next (if !s.power.booted ∨ s.power.mainReady ∨ s.power.lateRaised ∨ s.frame.now < s.power.startedAt + 3000000000 then s
  else (s.raise 0xE00C).modPower (fun x => { x with lateRaised := true }))

end Sys2Proof.Machine
end

