-- ==== Sys2Proof/Machine/Cmd.lean ====
section
/-! DEFINITION. Writes of the dictionary (R475-R480, R492, R493, R585, R586): decoding, reserved bits, home rules, what each accepted
write does at its apply time, and what a refused one raises. -/

namespace Sys2Proof.Machine

/-! Reserved bits (R8). -/

/-- Bits of a number that a mask keeps. -/
def keepBits (v : Int) (mask : Nat) : OdVal := .num ((v.toNat &&& mask : Nat) : Int)

/-- A peer-table entry without its reserved bits (R276). -/
def cleanPeer (e : Bytes) : Bytes := e.take 6 ++ natLe 1 ((e.getD 6 0).toNat % 16) ++ zeros 1

/-- A gate-list entry without its reserved bits (R473). -/
def cleanGate (e : Bytes) : Bytes := e.take 4 ++ natLe 1 ((e.getD 4 0).toNat % 8) ++ zeros 3

/-- A written value without the reserved bits that its table ignores (R8). -/
def cleanVal (idx sub : Nat) : OdVal → OdVal
  | .num v =>
    if idx = 0x1A00 ∧ sub = 1 then keepBits v 0xFFFFFFFF077F
    else if idx = 0xA011 then keepBits v 0xFFFFFFFF070F
    else if 0x3100 ≤ idx ∧ idx < 0x3180 ∧ idx % 16 = 3 then keepBits v 0xFF07
    else .num v
  | .oct b =>
    if idx = 0x1820 then .oct ((chunksOf 8 65536 b).flatMap (fun e => if e.length = 8 then cleanPeer e else e))
    else if (idx = 0x1180 ∨ idx = 0x1190) ∧ sub = 0x11 then .oct ((chunksOf 8 16 b).flatMap (fun e => if e.length = 8 then cleanGate e else e))
    else .oct b

/-! Home rules (R493). -/

/-- A key of an object that applies at RESTART. -/
def restartKey (key : Nat) : Bool :=
  match Od.find (key / 256) (key % 256) with
  | some r => r.apply == .restart
  | none => false

/-- Every object at the value it will hold when what has been accepted, and the values `view` of the same WRITE, take effect (R493). -/
def State.asWillBe (s : State) (view : List (Nat × OdVal)) : State :=
  let base := overlay (s.dict.vals.filter (fun x => !restartKey x.1)) s.dict.journal
  { s with dict := { s.dict with vals := overlay (overlay base (s.dict.waiting.map (fun w => (w.key, w.val)))) view } }

/-- The grids and the map are a legal configuration (R87, R111). -/
def State.gridsOk (s : State) : Bool :=
  let g := fun (i sub : Nat) => s.int (od (0x4010 + i) sub)
  (List.range 4).all (fun i => decide (g i 3 ≤ g i 4 ∧ g i 5 ≤ g i 6 ∧ g i 7 ≤ g i 8) &&
    (g i 9 == 0 || decide (g i 2 ≤ s.int (od 0x4020 1)))) &&
  (List.range 4).any (fun i => g i 1 != 0) && decide (s.num (od 0x4020 3) * s.num (od 0x4020 5) ≤ 16777215)

/-- Exactly one SLAVE and at most one STANDBY (R452). -/
def State.rolesOk (s : State) : Bool :=
  let n := fun (r : Nat) => ((List.range 12).filter (fun p => s.num (od (0x2100 + 16 * p) 1) == r)).length
  n 2 == 1 && decide (n 3 ≤ 1)

/-- The launch offset that will govern from the next start-up (R585): the most recently accepted schedule's, which the directory names. -/
def State.nextLaunch (s : State) : Nat :=
  match (s.sec.comps.find? (fun c => c.type == 0x11)).bind (fun c => parseSchedule c.plain) with
  | some a => a.launch
  | none => 18000

/-- A gate list holds 1 to 16 entries whose intervals are multiples of 8 ns (R446, R473). -/
def gateListOk (b : Bytes) : Bool :=
  b.length % 8 == 0 && decide (8 ≤ b.length ∧ b.length ≤ 128) && (chunksOf 8 16 b).all (fun e => fieldLe e 0 4 % 8 == 0)

/-- What the home rule of an object answers for a value, on the state that will hold when it takes effect: 0, ACCESS or RANGE. -/
def State.homeStatus (s : State) (idx sub : Nat) (v : OdVal) : Nat :=
  let n := v.toInt.toNat
  let ok := fun (b : Bool) => if b then 0 else 5
  if 0x1830 ≤ idx ∧ idx < 0x1848 then ok (s.num (od idx 0x0B) < s.num (od idx 0x0A))
  else if 0x1810 ≤ idx ∧ idx < 0x1820 then ok (!s.groupBad v.toBytes)
  else if 0x1100 ≤ idx ∧ idx < 0x11C0 ∧ sub = 4 then (if idx < 0x11A0 then 2 else ok (n == 10 || n == 25))
  else if 0x2100 ≤ idx ∧ idx < 0x21C0 ∧ sub = 1 then ok s.rolesOk
  else if 0x3100 ≤ idx ∧ idx < 0x3180 ∧ idx % 16 = 0 ∧ sub = 1 then ok (decide (n ≤ 7) || n == 0xFF)
  else if 0x4010 ≤ idx ∧ idx < 0x4014 then ok s.gridsOk
  else if 0x7810 ≤ idx ∧ idx < 0x7818 then ok (regionsOk s.num s.capacity && sharesOk s.num)
  else if 0x8100 ≤ idx ∧ idx < 0x8200 ∧ idx % 16 = 0 ∧ sub = 1 then ok (s.tdescOk ((idx - 0x8100) / 16) v.toBytes)
  else if (idx = 0x1180 ∨ idx = 0x1190) ∧ sub = 0x11 then ok (gateListOk v.toBytes)
  else match idx, sub with
    | 0x1800, 4 => ok (n == 1500 || n == 9000)
    | 0x1800, 5 => ok ((List.range 4).all (fun c => !bitAt n (4 * c + 3)))
    | 0x1820, _ => ok (v.toBytes.length % 8 == 0)
    | 0x1A00, 1 => ok (bitsOf n 20 16 == 0)
    | 0x1A00, 2 => ok (decide (n ≤ s.nextLaunch))
    | 0x1A00, 3 => ok (decide (s.nextLaunch ≤ n))
    | 0x3001, _ => ok ((List.range 7).all (fun q => decide (s.num (od 0x3001 (q + 1)) ≤ s.num (od 0x3001 (q + 2)))))
    | 0x3002, _ => ok (s.num (od 0x3002 2) < s.num (od 0x3002 1))
    | 0x4000, 3 => ok (n % 2 == 1)
    | 0x4020, _ => ok s.gridsOk
    | 0xA011, _ => ok (n == 0 || (bitsOf n 20 16 == 0 && bitsOf n 10 8 != 0))
    | 0xA030, 1 => ok (s.num (od 0xA030 1) != s.num (od 0xA030 2))
    | 0xA030, 2 => ok (s.num (od 0xA030 1) != s.num (od 0xA030 2))
    | 0xA030, 8 => ok (decide (n + 1000 ≤ s.nextLaunch))
    | _, _ => 0

/-! Apply times (R478, R479). -/

/-- A value takes effect: a head's program configures its port (R42), a component written to a program slot loads it (R60). -/
def State.applyWrite (s : State) (key : Nat) (v : OdVal) : State :=
  let s := s.setObj key v
  let idx := key / 256
  if 0x3010 ≤ idx ∧ idx < 0x3018 then
    match splitComponent v.toBytes with
    | some (c, _) => s.loadProgram (idx - 0x3010) c.plain
    | none => s
  else if 0x3100 ≤ idx ∧ idx < 0x3180 ∧ idx % 16 = 0 ∧ key % 256 = 1 ∧ !s.frame.run then
    s.modHead (Fin.ofNat 8 ((idx - 0x3100) / 16)) (fun h =>
      if v.toInt = 0xFF then { h with state := .unused, returning := false, accepted := false }
      else if h.state = .unused then { h with state := .awaiting } else h)
  else s

/-- A limit that a NOW write has moved judges what stands against it at once: the stash (R115), the SENS queues (R82). -/
def State.nowEffect (s : State) (key : Nat) : State :=
  if key = od 0x4000 5 then s.noteStash
  else if key = od 0x3002 1 ∨ key = od 0x3002 2 then s.judgeSens
  else s

/-- An accepted value goes where its apply time has it (R478, R479): in effect at once, waiting for its boundary, or in the journal for the
next start-up. -/
def State.install (s : State) (r : OdRow) (key : Nat) (v : OdVal) : State :=
  match r.apply with
  | .restart => s.toJournal key v
  | .frame =>
    if s.frame.run then { s with dict := { s.dict with waiting := s.dict.waiting ++ [{ key := key, val := v, at_ := s.frame.now }] } }
    else s.applyWrite key v
  | _ => (if r.stored then (s.setObj key v).toJournal key v else s.setObj key v).nowEffect key

/-! Objects with checks and effects of their own. -/

/-- Checks of an ingest program written directly (R519, R534). -/
def programCheck (i : Nat) (b : Bytes) (s : State) : Nat :=
  if s.gateShut then 11
  else match s.directComp 0x12 i b with
    | none => 6
    | some c => if (s.homeRules [c]).2 then 0 else 6

/-- An ingest program written directly: in the directory and measured at once, in its slot at the boundary (R60, R478, R519). -/
def programEffect (r : OdRow) (i : Nat) (b : Bytes) (s : State) : State :=
  match s.directComp 0x12 i b with
  | none => s
  | some c => (((s.writeDirectory [c]).countActivation [c])).install r (od (0x3010 + i) 0) (.oct b)

/-- A calibration record has its version and length (R47). -/
def calFormatOk (b : Bytes) : Bool := b.length == 2216 && fieldLe b 0 2 == 1

/-- An object that acts when it is written: its check and its effect. -/
structure Hook where
  base : Nat
  sub : Nat
  check : State → Nat
  effect : State → State

/-- The objects up to page 0x7 that act when they are written. -/
def hooksLow (r : OdRow) (idx : Nat) (v : OdVal) : List Hook :=
  let n := v.toInt.toNat
  let b := v.toBytes
  let i := r.inst idx
  [⟨0x0002, 2, lcCheck n, fun s => s.beginWipe (some n)⟩,
    ⟨0x1830, 8, fun _ => 0, fun s => s.flushNow (Fin.ofNat 24 i)⟩,
    ⟨0x3010, 0, programCheck i b, programEffect r i b⟩,
    ⟨0x3100, 5, acceptCheck (Fin.ofNat 8 i), acceptEffect (Fin.ofNat 8 i)⟩,
    ⟨0x3100, 6, fun _ => if calFormatOk b then 0 else 6, fun s => s.setOct (od idx 6) b⟩,
    ⟨0x4F10, 1, fun s => if s.flag (od 0x4000 6) then 0 else 6, fun s => { s with cells := { s.cells with snapArmed := true } }⟩,
    ⟨0x6002, 1, fun _ => 0, fun s => s.arm (od 0x6002 1)⟩,
    ⟨0x7000, 2, fun _ => 0, fun s => s.marchRequest n⟩,
    ⟨0x7000, 4, fun _ => 0, fun s => s.arm (od 0x7000 4)⟩,
    ⟨0x7800, 4, fun _ => 0, fun s => s.arm (od 0x7800 4)⟩]

/-- The objects from page 0x8 on that act when they are written. A restart's effect is the caller's, after the reply. -/
def hooksHigh (w : Writer) (r : OdRow) (v : OdVal) (idx : Nat) : List Hook :=
  let n := v.toInt.toNat
  let b := v.toBytes
  let i := r.inst idx
  [⟨0x8100, 3, fun s => s.peonyCheck i n, fun s => s.peonyCommand i n⟩,
    ⟨0x8100, 4, fun s => s.switchCheck i n, fun s => s.modTable i (fun x => { x with switchTo := some n })⟩,
    ⟨0x8100, 9, fun s => if s.validOk i b then 0 else 6, fun s => s.validate i b⟩,
    ⟨0x9001, 0, fun s => s.scheduleCheck b, fun s => s.scheduleEffect b⟩,
    ⟨0xA000, 9, fun _ => 0, fun s => s.enterFallback 3⟩,
    ⟨0xB002, 1, keyCheck (Fin.ofNat 3 0) b, keyEffect (Fin.ofNat 3 0) b⟩,
    ⟨0xB002, 2, keyCheck (Fin.ofNat 3 1) b, keyEffect (Fin.ofNat 3 1) b⟩,
    ⟨0xB002, 3, keyCheck (Fin.ofNat 3 2) b, keyEffect (Fin.ofNat 3 2) b⟩,
    ⟨0xB003, 1, attestCheck, attestEffect w.session b⟩,
    ⟨0xB100, 1, saCheck true (Fin.ofNat 4 i) b, saEffect true (Fin.ofNat 4 i) b⟩,
    ⟨0xB100, 2, saCheck false (Fin.ofNat 4 i) b, saEffect false (Fin.ofNat 4 i) b⟩,
    ⟨0xC000, 1, gateCheck w.session, gateEffect n⟩,
    ⟨0xC000, 4, activateCheck, fun s => activateEffect s.frame.now s⟩,
    ⟨0xC000, 5, discardCheck, discardEffect⟩,
    ⟨0xC001, 0, fun s => (s.stageEnd b).2, fun s => (s.stageEnd b).1⟩,
    ⟨0xD000, 5, fun _ => 0, srvEffect⟩,
    ⟨0xE000, 5, restartCheck, id⟩]

/-- What an object does that acts when it is written; none of an object that only holds its value. -/
def hookOf (w : Writer) (r : OdRow) (idx : Nat) (v : OdVal) : Option Hook :=
  (hooksLow r idx v ++ hooksHigh w r v idx).find? (fun h => h.base == r.base && h.sub == r.sub)

/-- Take a decoded value of an object: the state after it and its status. -/
def State.takeValue (s : State) (w : Writer) (view : List (Nat × OdVal)) (r : OdRow) (idx : Nat) (v : OdVal) : State × Nat :=
  let v := cleanVal idx r.sub v
  match hookOf w r idx v with
  | some h => if h.check s = 0 then (h.effect s, 0) else (s, h.check s)
  | none =>
    let st := (s.asWillBe (view ++ [(od idx r.sub, v)])).homeStatus idx r.sub v
    if st = 0 then (s.install r (od idx r.sub) v, 0) else (s, st)

/-- What a refused write raises: configurations refused by their home chapters (R87, R111, R282, R311, R349, R351) and records
(R46, R335, R374, R516, R535, R541). -/
def State.refusal (s : State) (r : OdRow) (idx : Nat) (v : OdVal) (st : Nat) : State :=
  let i := r.inst idx
  if st = 5 then
    match r.base, r.sub with
    | 0x4010, _ => s.raise 0x4005
    | 0x4020, _ => s.raise 0x4005
    | 0x1810, _ => s.raise 0x1806
    | 0x7810, _ => s.raise 0x7803 i
    | 0x8100, 1 => s.raise 0x8001 i
    | _, _ => s
  else if st = 6 then
    match r.base, r.sub with
    | 0x3100, 5 => s.raise 0x3004 i
    | 0x8100, 9 => s.raise 0x8005 i
    | 0x9001, _ => (s.answer 6).scheduleRefused v.toBytes
    | 0xB002, _ => s.raise 0xB007
    | 0xB100, _ => s.raise 0xB008
    | 0xC001, _ => (s.stageEnd v.toBytes).1
    | _, _ => s
  else s

/-! A WRITE (R492). -/

/-- An entry of a WRITE: index, subindex, value bytes. -/
abbrev WEntry := Nat × Nat × Bytes

/-- The values a WRITE's entries give, where they decode. -/
def viewOf (es : List WEntry) : List (Nat × OdVal) :=
  es.filterMap (fun (i, sub, b) => (Od.find i sub).bind (fun r =>
    if r.ty.size.isNone then none
    else match r.decode b with
      | .inl v => some (od i sub, cleanVal i sub v)
      | .inr _ => none))

/-- Access, level and type of a write of an object (R476, R477, R480, R486): its row, or the status. -/
def State.mayWrite (s : State) (session idx sub : Nat) (blob : Bool) : OdRow ⊕ Nat :=
  match Od.find idx sub with
  | none => .inr (if sub = 0 ∧ (Od.highest idx).isSome then 2 else 1)
  | some r =>
    if r.acc = .ro then .inr 2
    else if ((s.session session).map (fun x => x.level.rank)).getD 0 < r.level.rank then .inr 3
    else if r.ty.size.isNone ≠ blob then .inr 4
    else .inl r

/-- One entry of a WRITE: the state after it and its status. -/
def State.writeOne (s : State) (w : Writer) (view : List (Nat × OdVal)) (e : WEntry) : State × Nat :=
  match s.mayWrite w.session e.1 e.2.1 false with
  | .inr st => (s, st)
  | .inl r =>
    match r.decode e.2.2 with
    | .inr st => (s, st)
    | .inl v => s.takeValue w view r e.1 v

/-- What the refusal of an entry raises. -/
def State.writeRefused (s : State) (e : WEntry) (st : Nat) : State :=
  match Od.find e.1 e.2.1 with
  | none => s
  | some r =>
    match r.decode e.2.2 with
    | .inr _ => s.refusal r e.1 (.oct e.2.2) st
    | .inl v => s.refusal r e.1 v st

/-- The entries one after another: the state after all of them, the position of the first that fails (0xFF: none) and the status. -/
def State.writeAll (w : Writer) (view : List (Nat × OdVal)) : Nat → State → List WEntry → State × Nat × Nat
  | _, s, [] => (s, 0xFF, 0)
  | i, s, e :: es =>
    match s.writeOne w view e with
    | (s1, 0) => State.writeAll w view (i + 1) s1 es
    | (_, st) => (s, i, st)

/-- The frame that a FRAME write accepted now governs first (R478, R492). -/
def State.applyFrame (s : State) : Nat :=
  if !s.frame.run then 1
  else if s.frame.now + 1000000 ≤ s.frame.ing.end_ then nextFrame s.frame.ing.n
  else nextFrame (nextFrame s.frame.ing.n)

/-- The applying frame of accepted writes (R492): `s` is the state after them. -/
def State.applying (s : State) (es : List (Nat × Nat)) : Nat :=
  let of := fun (a : OdApply) => es.any (fun e => (Od.find e.1 e.2).any (fun r => r.apply == a))
  if of .restart ∨ (es.any (fun e => e.1 == 0x9001) ∧ s.sched.atRestart) then 0xFFFFFFFF
  else if of .frame then s.applyFrame else 0

/-- Do a WRITE: all entries or none (R492). Answers the position and the status. -/
def State.write (s : State) (w : Writer) (es : List WEntry) : State × Nat × Nat :=
  match State.writeAll w (viewOf es) 0 s es with
  | (s1, pos, 0) => (s1, pos, 0)
  | (_, pos, st) => (((es[pos]?).map (fun e => s.writeRefused e st)).getD s, pos, st)

end Sys2Proof.Machine
end

