-- ==== Sys2Proof/Machine/Read.lean ====
section
/-! DEFINITION. Reads of the dictionary (R476, R477, R480, R491, R494): what each object shows, its row on the wire, DESCRIBE and LIST. -/

namespace Sys2Proof.Machine

/-- Code of an instance's state (R368). -/
def InstState.code : InstState → Nat
  | .idle => 0 | .waiting => 1 | .ready => 2 | .running => 3 | .preempted => 4 | .done => 5 | .ended => 6 | .dropped => 7

/-- The records the log retains, oldest first, the staged ones included (R504). -/
def EvLog.all (l : EvLog) : List EventRec := l.ring ++ l.staged

/-- A component's entry in COMPONENTS (R507). -/
def Component.entry (c : Component) : Bytes :=
  natLe 2 c.type ++ zeros 2 ++ natLe 4 c.issue ++ natLe 4 c.payload.length ++ natLe 4 c.seq ++ slice c.header 32 32 ++ zeros 16

/-- A task's state per logical core (OD 0x9100+t .01). -/
def State.taskStates (s : State) (task : Nat) : Bytes :=
  (List.range 16).map (fun l => BitVec.ofNat 8
    (((s.sched.insts.find? (fun i => i.task == task && i.lcore == l)).map (fun i => i.state.code)).getD 0))

/-- Core cycles in which an access of a class waited (R235): 0 at start-up, then free (log entry 22). -/
def State.waited (s : State) (core cls : Nat) : Nat :=
  if s.frame.now = 0 ∧ s.freeCtr = 0 then 0 else Config.waitCycles core cls s.frame.now s.freeCtr % 2 ^ 64

/-- Highest erase count of any flash block (OD 0x7900.03): the sizes of journal records and the choice of heap blocks are not given, so it is
free, from 0 at the start (log entry 174). -/
def State.eraseMax (s : State) : Nat :=
  if s.frame.now = 0 ∧ s.freeCtr = 0 then 0 else Config.eraseMax s.frame.now s.freeCtr % 2 ^ 32

/-- What an object shows to a session: its value in effect, or what the unit that owns it holds at the moment. -/
def State.showObj (s : State) (session : Nat) (r : OdRow) (idx : Nat) : OdVal :=
  let i := r.inst idx
  let c := coreNo i
  let f := s.frame.comp
  let n := fun (v : Nat) => OdVal.num v
  match r.base, r.sub with
  | 0x1B00, 2 => n s.sessionCount
  | 0x2000, 9 => n ((s.net.time.holdover.map (fun h => (s.frame.now - h) / 1000000)).getD 0)
  | 0x2000, 0x0B => .oct (time80 s.frame.now)
  | 0x3100, 3 => n (s.head (Fin.ofNat 8 i)).state.code
  | 0x3F00, 1 => n f.n
  | 0x3F00, 2 => n f.pts.inn
  | 0x3F00, 3 => n f.pts.inserted
  | 0x3F00, 4 => n f.pts.withdrawn
  | 0x3F00, 5 => n f.pts.unresolved
  | 0x3F00, 6 => n f.pts.unlogged
  | 0x3F00, 7 => n f.pts.budget
  | 0x3F00, 8 => n f.pts.cellFull
  | 0x3F00, 9 => n f.pts.late
  | 0x3F00, 0x0A => n f.cIngest
  | 0x3F00, 0x0C => if f.n = 0 then .oct (zeros 28) else .oct (padTo 28 f.pref.bytes)
  | 0x3F00, 0x0D => n f.pts.future
  | 0x2F00, 1 => n f.cTime
  | 0x9F00, 8 => n f.cSched
  | 0xAF00, 0x0C => n f.cSafety
  | 0x7900, 3 => n s.eraseMax
  | 0x7000, 5 => n ((List.finRange 16).foldl (fun m k => if (s.cores[k]).pad.marchQ.isEmpty then m else setBit m k.val) 0)
  | 0x7100, 0x0E => n (s.freeGranules c)
  | 0x7100, 0x11 => n (s.waited c.val 3)
  | 0x7100, 0x12 => n (s.waited c.val 4)
  | 0x7100, 0x13 => n (s.waited c.val 5)
  | 0x7100, 0x14 => n (s.waited c.val 6)
  | 0x7101, 0 => .oct (s.cores[c]).pad.table
  | 0x8000, 2 => n (s.tagsLeft 16)
  | 0x8100, 2 => n (s.table i).state
  | 0x9100, 1 => .oct (s.taskStates i)
  | 0xB000, 1 => n (((s.session session).map (fun x => x.level.rank)).getD 0)
  | 0xB000, 3 => n (ceilDiv (s.sec.lockoutEnd - s.frame.now) 1000000000)
  | 0xB001, 0 => .oct Config.deviceCert
  | 0xB003, 2 => .oct (((s.session session).map (fun x => x.quote)).getD [])
  | 0xB100, 3 => n (((s.sec.sas.find? (fun a => a.is (8 + i) true && a.transmit)).map (fun a => a.pn)).getD 0)
  | 0xC000, 1 => n (if s.updateGate then 1 else 0)
  | 0xC002, 0 => .oct (s.sec.comps.flatMap Component.entry)
  | 0xEF00, 5 => .num (s.int (od 0xEF00 5) + (s.power.holdAt.map (fun h => (s.frame.now - h) / 1000000)).getD 0)
  | 0xD000, 1 => n ((s.log.all.getLast?.map (fun x => x.seq)).getD 0)
  | 0xD000, 2 => n ((s.log.all.head?.map (fun x => x.seq)).getD 0)
  | 0xD000, 6 => n (if s.log.srv then 1 else 0)
  | 0xD001, 0 => .oct (s.log.all.flatMap EventRec.bytes)
  | 0xD002, 0 => .oct (padTo 32 (s.log.srvEvents.flatMap (natLe 2)))
  | _, _ => s.obj (od idx r.sub)

/-- The value that an accepted write will install, where one waits (R491). -/
def State.pendingObj (s : State) (r : OdRow) (idx : Nat) : Option OdVal :=
  let key := od idx r.sub
  match r.apply with
  | .frame => ((s.dict.waiting.filter (fun w => w.key == key)).getLast?).map (fun w => w.val)
  | .restart => if r.acc = .rw then some (Sparse.get Od.dflt s.dict.journal key) else none
  | _ => none

/-- Access and level of a read (R476, R477, R480): the row, none for a subindex 0x00 that counts subindices, or the status. -/
def State.mayRead (s : State) (session idx sub : Nat) : Option OdRow ⊕ Nat :=
  match Od.find idx sub with
  | none => if sub = 0 ∧ (Od.highest idx).isSome then .inl none else .inr 1
  | some r =>
    if r.acc = .wo then .inr 2
    else if r.acc = .ro ∧ ((s.session session).map (fun x => x.level.rank)).getD 0 < r.level.rank then .inr 3
    else .inl (some r)

/-- The answer to one entry of a READ: status and value bytes (R491). -/
def State.readEntry (s : State) (session idx sub : Nat) (pending : Bool) : Nat × Bytes :=
  match s.mayRead session idx sub with
  | .inr st => (st, [])
  | .inl none => (0, natLe 1 ((Od.highest idx).getD 0))
  | .inl (some r) =>
    if r.ty.size.isNone then (4, [])
    else
      let v := if pending then (s.pendingObj r idx).getD (s.showObj session r idx) else s.showObj session r idx
      (0, r.ty.encode v)

/-- Pad to a multiple of 4 bytes. -/
def pad4 (b : Bytes) : Bytes := padTo (ceilDiv b.length 4 * 4) b

/-- One answer on the wire (R491). -/
def answerBytes (idx sub : Nat) (a : Nat × Bytes) : Bytes :=
  natLe 2 idx ++ natLe 1 sub ++ natLe 1 a.1 ++ natLe 2 a.2.length ++ zeros 2 ++ pad4 a.2

/-- The answers of a READ that fit the body limit, with their count (R491). -/
def State.readAll (s : State) (session : Nat) : Nat → Nat → List (Nat × Nat × Nat) → Nat × Bytes
  | n, _, [] => (n, [])
  | n, room, (idx, sub, flags) :: es =>
    let a := answerBytes idx sub (s.readEntry session idx sub (flags == 1))
    if room < a.length then (n, [])
    else
      let (m, rest) := s.readAll session (n + 1) (room - a.length) es
      (m, a ++ rest)

/-! BLOBs and descriptions. -/

/-- The largest value of a BLOB object (R494, R496). -/
def State.blobLimit (s : State) (idx sub : Nat) : Nat :=
  match Od.find idx sub with
  | none => 0
  | some r =>
    match r.base, r.sub with
    | 0x1180, _ => 128
    | 0x1820, _ => 524288
    | 0x3010, _ => 2544
    | 0x3100, _ => 2216
    | 0x8100, _ => 128
    | 0x9001, _ => 16777712
    | 0xAF01, _ => 512
    | 0xB002, _ => 168
    | 0xB003, _ => 400
    | 0xB100, _ => 168
    | 0xC001, _ => s.num (od 0x7900 2)
    | _, _ => Config.blobMax (od idx sub)

/-- Codes of access, apply time and level in DESCRIBE (R494). -/
def OdAcc.code : OdAcc → Nat
  | .ro => 0 | .rw => 1 | .wo => 2

/-- As DESCRIBE numbers it. -/
def OdApply.code : OdApply → Nat
  | .now => 0 | .frame => 1 | .restart => 2 | .none => 0xFF

/-- An object's name: the ingest programs' rows carry their number (R85). -/
def OdRow.nameAt (r : OdRow) (idx : Nat) : String := if r.base = 0x3010 then r.name ++ "_" ++ toString (r.inst idx) else r.name

/-- The 64 bytes of DESCRIBE (R494); none where the object does not exist. -/
def State.describe (s : State) (idx sub : Nat) : Option Bytes :=
  match Od.find idx sub with
  | some r =>
    let size := match r.ty.size with
      | some n => n
      | none => s.blobLimit idx sub
    some (natLe 1 r.ty.code ++ natLe 1 r.acc.code ++ natLe 1 (if r.acc = .ro then 0xFF else r.apply.code) ++ natLe 1 r.level.rank ++
      natLe 1 (if r.stored then 1 else 0) ++ zeros 3 ++ natLe 4 size ++ padTo 24 (ascii (r.nameAt idx)) ++ padTo 28 (r.ty.encode (Od.dflt (od idx sub))))
  | none =>
    match (if sub = 0 then Od.highest idx else none) with
    | some h => some (natLe 1 1 ++ natLe 1 0 ++ natLe 1 0xFF ++ natLe 1 0 ++ natLe 1 0 ++ zeros 3 ++ natLe 4 1 ++ padTo 24 (Config.subName idx) ++
        padTo 28 (natLe 1 h))
    | none => none

/-- Up to `need` existing objects from an index on, with their highest subindices, ascending. -/
def Od.listFrom : Nat → Nat → Nat → List (Nat × Nat)
  | 0, _, _ => []
  | _, _, 0 => []
  | fuel + 1, idx, need + 1 =>
    match Od.highest idx with
    | some h => (idx, h) :: Od.listFrom fuel (idx + 1) need
    | none => Od.listFrom fuel (idx + 1) (need + 1)

/-- LIST's reply body (R494). -/
def listBody (start : Nat) : Bytes :=
  let l := Od.listFrom (65536 - start) start 257
  let l' := l.take 256
  natLe 2 l'.length ++ natLe 2 (if l.length = 257 then 0 else 1) ++ l'.flatMap (fun x => natLe 2 x.1 ++ natLe 1 x.2 ++ zeros 1)

end Sys2Proof.Machine
end

