-- ==== Sys2Proof/Machine/Hap.lean ====
section
/-! DEFINITION. The Henah Access Protocol (R483-R501): messages, sessions and sequences, reads and writes, BLOBs, subscriptions and
notifications, results and pose. -/

namespace Sys2Proof.Machine

/-! Messages (R484, R488). -/

/-- A HAP message (R484). -/
def hapMsg (op flags status session seq : Nat) (body : Bytes) : Bytes :=
  natLe 1 1 ++ natLe 1 op ++ natLe 1 flags ++ natLe 1 status ++ natLe 4 session ++ natLe 4 seq ++ natLe 2 body.length ++ zeros 2 ++ body

/-- Send a reply to a request's source, on both HOST ports (R483). -/
def State.sendReply (s : State) (ip port : Nat) (status : Nat) (body msg : Bytes) : State :=
  let s := s.sendUdp 1 44100 port ip msg
  { s with hap := { s.hap with lastStatus := status, lastReply := body } }

/-- Answer a request of a session and keep the reply for a repeat (R488). -/
def State.replyTo (s : State) (id ip port op seq status : Nat) (body : Bytes) : State :=
  let m := hapMsg op 1 status id seq body
  (s.modSession id (fun x => { x with reply := m })).sendReply ip port status body m

/-- What an operation answers: status and body, no answer yet (R472), or an answer before a restart (R557). -/
inductive HapAns where
  | reply (status : Nat) (body : Bytes)
  | waits
  | restarts (body : Bytes)

/-- A request that the module drops (R484). -/
def hapBad (r : HapReq) : Bool :=
  r.version != 1 || r.flags != 0 || r.status != 0 || r.reserved != 0 || r.length != r.body.length || decide (1400 < r.length)

/-- A request of an open session (R484, R488, R490): dropped, repeated, out of sequence, or executed by `f` and answered. In
DECOMMISSIONED only reads are served (R525). -/
def State.hapRequest (s : State) (r : HapReq) (op : Nat) (serves : Bool) (f : State → Session → State × HapAns) : State :=
  let s := (s.at r.t).quiet
  if !s.power.supervisor then s
  else if hapBad r then s.bump (od 0x1B00 3)
  else match s.session r.session with
    | none => s.sendReply r.srcIp r.srcPort 9 [] (hapMsg op 1 9 r.session r.seq [])
    | some x =>
      let s := s.modSession r.session (fun x => { x with lastTime := s.frame.now })
      if x.waitRead.isSome then s.bump (od 0x1B00 5)
      else if r.seq = x.lastSeq ∧ !x.reply.isEmpty then
        (s.bump (od 0x1B00 6)).sendReply r.srcIp r.srcPort s.hap.lastStatus s.hap.lastReply x.reply
      else if r.seq ≠ (x.lastSeq + 1) % 2 ^ 32 then
        (s.bump (od 0x1B00 4)).sendReply r.srcIp r.srcPort 8 [] (hapMsg op 1 8 r.session r.seq [])
      else
        let s := (s.modSession r.session (fun x => { x with lastSeq := r.seq, reply := [] })).bump (od 0x1B00 0x0A)
        if s.sec.effective = 6 ∧ !serves then s.replyTo r.session r.srcIp r.srcPort op r.seq 11 []
        else match f s x with
          | (s, .reply st body) => s.replyTo r.session r.srcIp r.srcPort op r.seq st body
          | (s, .waits) => s
          | (s, .restarts body) => (s.replyTo r.session r.srcIp r.srcPort op r.seq 0 body).restarted 3

/-! Sessions (R487, R490). -/

/-- A random non-zero ID that no session has (R487). -/
def State.freshId (s : State) : Nat :=
  let v := s.fresh % 2 ^ 32
  let free := fun (i : Nat) => i != 0 && (s.session i).isNone
  if free v then v else ((List.range 16).find? free).getD 1

/-- HAP_OPEN (R487). -/
def execHapOpen (r : HapReq) (s : State) : Out :=
  let s := (s.at r.t).quiet
  let say := fun (s : State) (st id : Nat) (body : Bytes) => s.sendReply r.srcIp r.srcPort st body (hapMsg 1 1 st id r.seq body)
  let b := r.body
  .next (if !s.power.supervisor then s
  else if hapBad r then s.bump (od 0x1B00 3)
  else if r.session ≠ 0 ∨ b.length ≠ 16 ∨ fieldLe b 0 1 ≠ 1 ∨ fieldLe b 1 1 ≠ 0 ∨ !allZero (b.drop 4) then say s 10 0 []
  else if 8 ≤ s.sessionCount then say (s.raise 0x1011) 7 0 []
  else
    let id := s.freshId
    let host := s.num (od 0x1000 2) != 0 && r.srcIp == s.num (od 0x1000 2)
    let x : Session := { id := id, srcIp := r.srcIp, notifyPort := (if fieldLe b 2 2 = 0 then r.srcPort else fieldLe b 2 2), isHost := host
                         lastTime := s.frame.now }
    let s := ({ s.drawn with hap := { s.hap with sessions := s.hap.sessions ++ [x] } } : State).bump (od 0x1B00 0x0A)
    say s 0 id (natLe 4 id ++ [0, 32] ++ natLe 2 1400 ++ natLe 2 s.device ++ zeros 2 ++ natLe 4 (s.num (od 0x1A00 0x0B))))

/-- HAP_CLOSE (R490). -/
def execHapClose (r : HapReq) (s : State) : Out :=
  .next (s.hapRequest r 2 true (fun s x => if r.body.isEmpty then (s.endSession x.id, .reply 0 []) else (s, .reply 10 [])))

/-- HAP_PING (R485). -/
def execHapPing (r : HapReq) (s : State) : Out :=
  .next (s.hapRequest r 3 true (fun s _ => (s, .reply (if r.body.isEmpty then 0 else 10) [])))

/-- SESSION_TIMEOUT (R490): no request for SESSION_TIMEOUT. -/
def execSessionTimeout (session : Nat) (t : Nat) (s : State) : Out :=
  let s := s.at t
  .next (match s.session session with
    | none => s
    | some x =>
      if s.frame.now < x.lastTime + 1000000 * s.num (od 0x1B00 1) then s else (s.raise 0x1012).endSession session)

/-! Reading and writing (R491, R492, R494). -/

/-- The entries of a READ body; none where it breaks its layout. -/
def readEntries (b : Bytes) : Option (List (Nat × Nat × Nat)) :=
  let n := fieldLe b 0 1
  let es := (List.range n).map (fun i => (fieldLe b (4 + 4 * i) 2, fieldLe b (6 + 4 * i) 1, fieldLe b (7 + 4 * i) 1))
  if n = 0 ∨ 32 < n ∨ !allZero (slice b 1 3) ∨ b.length ≠ 4 + 4 * n ∨ es.any (fun e => 1 < e.2.2) then none else some es

/-- HAP_READ (R491). -/
def execHapRead (r : HapReq) (s : State) : Out :=
  .next (s.hapRequest r 0x10 true (fun s x =>
    match readEntries r.body with
    | none => (s, .reply 10 [])
    | some es =>
      let a := s.readAll x.id 0 1396 es
      (s, .reply 0 (natLe 1 a.1 ++ zeros 3 ++ a.2))))

/-- `n` entries of a WRITE body; none where they do not make up the bytes. -/
def writeEntries : Nat → Bytes → Option (List WEntry)
  | 0, b => if b.isEmpty then some [] else none
  | n + 1, b =>
    let k := fieldLe b 4 2
    let size := 8 + ceilDiv k 4 * 4
    if b.length < size ∨ fieldLe b 3 1 ≠ 0 ∨ fieldLe b 6 2 ≠ 0 then none
    else (writeEntries n (b.drop size)).map (fun es => (fieldLe b 0 2, fieldLe b 2 1, slice b 8 k) :: es)

/-- The reply body of a write (R492). -/
def writeBody (pos applying : Nat) : Bytes := natLe 1 pos ++ zeros 3 ++ natLe 4 applying

/-- HAP_WRITE (R492, R493): an accepted RESTART restarts after the reply. -/
def execHapWrite (r : HapReq) (s : State) : Out :=
  .next (s.hapRequest r 0x11 false (fun s x =>
    let n := fieldLe r.body 0 1
    if n = 0 ∨ 16 < n ∨ !allZero (slice r.body 1 3) then (s, .reply 10 [])
    else match writeEntries n (r.body.drop 4) with
      | none => (s, .reply 10 [])
      | some es =>
        match s.write { session := x.id, t := r.t } es with
        | (s, pos, 0) =>
          let body := writeBody pos (s.applying (es.map (fun e => (e.1, e.2.1))))
          if es.any (fun e => e.1 == 0xE000 && e.2.1 == 5) then (s.raise 0xE00B, .restarts body) else (s, .reply 0 body)
        | (s, pos, st) => (s, .reply st (writeBody pos 0))))

/-- HAP_DESCRIBE (R494). -/
def execHapDescribe (r : HapReq) (s : State) : Out :=
  .next (s.hapRequest r 0x12 true (fun s _ =>
    if r.body.length ≠ 4 ∨ fieldLe r.body 3 1 ≠ 0 then (s, .reply 10 [])
    else match s.describe (fieldLe r.body 0 2) (fieldLe r.body 2 1) with
      | none => (s, .reply 1 [])
      | some b => (s, .reply 0 b)))

/-- HAP_LIST (R494). -/
def execHapList (r : HapReq) (s : State) : Out :=
  .next (s.hapRequest r 0x13 true (fun s _ =>
    if r.body.length ≠ 4 ∨ fieldLe r.body 2 2 ≠ 0 then (s, .reply 10 []) else (s, .reply 0 (listBody (fieldLe r.body 0 2)))))

/-! BLOBs (R495, R496). -/

/-- A piece of a session's snapshot of a value (R495): the reply, TRANSFER without one, RANGE beyond its end. -/
def State.servePiece (s : State) (id key off max : Nat) : State × HapAns :=
  match (s.session id).bind (fun x => x.snapshot) with
  | none => (s, .reply 12 [])
  | some y =>
    if y.key ≠ key then (s, .reply 12 [])
    else
      let s := s.modSession id (fun x => { x with snapshot := some { y with last := s.frame.now } })
      if y.data.length < off then (s, .reply 5 [])
      else (s, .reply 0 (natLe 4 y.data.length ++ natLe 4 off ++ slice y.data off max))

/-- Bytes of the snapshots of all sessions but one (R495). -/
def State.snapBytes (s : State) (id : Nat) : Nat :=
  ((s.hap.sessions.filter (fun x => x.id != id)).map (fun x => (x.snapshot.map (fun y => y.data.length)).getD 0)).foldl (· + ·) 0

/-- Take a snapshot and serve its first piece; BUSY beyond 64 MiB per session or 128 MiB in all (R495). -/
def State.takeSnapshot (s : State) (id key max : Nat) (d : Bytes) : State × HapAns :=
  let s := s.modSession id (fun x => { x with snapshot := none })
  if 67108864 < d.length ∨ 134217728 < s.snapBytes id + d.length then (s, .reply 7 [])
  else (s.modSession id (fun x => { x with snapshot := some { key := key, data := d, last := s.frame.now } })).servePiece id key 0 max

/-- The value of a BLOB: what the object shows; the rows of the cell snapshot are read from the snapshot area (R113, R349), and one that
cannot be read serves none of them (log entry 172). -/
def State.blobValue (s : State) (session : Nat) (row : OdRow) (idx sub : Nat) : State × Bytes :=
  if idx = 0x4F10 ∧ sub = 3 then
    match s.dramGet snapArea s.cells.snapServed with
    | (s, some d) => (s, d)
    | (s, none) => (s, [])
  else (s, (s.showObj session row idx).toBytes)

/-- BLOB_READ (R495). -/
def execBlobRead (r : HapReq) (s : State) : Out :=
  let b := r.body
  let idx := fieldLe b 0 2
  let sub := fieldLe b 2 1
  let max := fieldLe b 8 2
  .next (s.hapRequest r 0x20 true (fun s x =>
    if b.length ≠ 12 ∨ fieldLe b 3 1 ≠ 0 ∨ fieldLe b 10 2 ≠ 0 ∨ max = 0 ∨ 1392 < max then (s, .reply 10 [])
    else match s.mayRead x.id idx sub with
      | .inr st => (s, .reply st [])
      | .inl none => (s, .reply 4 [])
      | .inl (some row) =>
        if row.ty.size.isSome then (s, .reply 4 [])
        else if fieldLe b 4 4 = 0 then
          let (s, d) := s.blobValue x.id row idx sub
          s.takeSnapshot x.id (od idx sub) max d
        else s.servePiece x.id (od idx sub) (fieldLe b 4 4) max))

/-- Bytes that the open transfers of all sessions stage (R496). -/
def State.stagedBytes (s : State) : Nat :=
  (s.hap.sessions.map (fun x => (x.transfer.map (fun y => y.total)).getD 0)).foldl (· + ·) 0

/-- A slot of the update staging that no open transfer holds. -/
def State.freeStaging (s : State) : Nat :=
  ((List.range 8).find? (fun i => s.hap.sessions.all (fun x => x.transfer.all (fun y => y.slot != i)))).getD 0

/-- BLOB_BEGIN (R496, R535). -/
def execBlobBegin (r : HapReq) (s : State) : Out :=
  let b := r.body
  let idx := fieldLe b 0 2
  let sub := fieldLe b 2 1
  let total := fieldLe b 4 4
  .next (s.hapRequest r 0x21 false (fun s x =>
    if b.length ≠ 12 ∨ fieldLe b 3 1 ≠ 0 then (s, .reply 10 [])
    else match s.mayWrite x.id idx sub true with
      | .inr st => (s, .reply st [])
      | .inl _ =>
        if x.transfer.isSome ∨ s.hap.sessions.any (fun y => y.transfer.any (fun z => z.key == od idx sub))
            ∨ 134217728 < s.stagedBytes + total ∨ (idx = 0xC001 ∧ s.num (od 0xC000 3) = 4) then (s, .reply 7 [])
        else if s.blobLimit idx sub < total then (s, .reply 5 [])
        else (s.modSession x.id (fun y => { y with transfer := some {
          key := od idx sub, total := total, crc := fieldLe b 8 4, slot := s.freeStaging, last := s.frame.now } }),
          .reply 0 [])))

/-- BLOB_SEGMENT (R496). -/
def execBlobSegment (r : HapReq) (s : State) : Out :=
  .next (s.hapRequest r 0x22 false (fun s x =>
    if r.body.length < 5 ∨ 1396 < r.body.length then (s, .reply 10 [])
    else match x.transfer with
      | none => (s, .reply 12 [])
      | some y =>
        let d := r.body.drop 4
        let fits := decide (fieldLe r.body 0 4 = y.got ∧ y.got + d.length ≤ y.total)
        let s := if fits then s.dramPut (stagingAt y.slot + y.got) d else s
        (s.modSession x.id (fun z => { z with transfer := some { y with got := if fits then y.got + d.length else y.got, last := s.frame.now } }),
          .reply (if fits then 0 else 12) [])))

/-- Write a BLOB whose transfer is complete, as a WRITE of one entry (R496). -/
def State.writeBlob (s : State) (w : Writer) (idx sub : Nat) (d : Bytes) : State × HapAns :=
  match s.mayWrite w.session idx sub true with
  | .inr st => (s, .reply st (writeBody 0 0))
  | .inl row =>
    match s.takeValue w [] row idx (.oct d) with
    | (s, 0) => (s, .reply 0 (writeBody 0xFF (s.applying [(idx, sub)])))
    | (s, st) => (s.refusal row idx (.oct d) st, .reply st (writeBody 0 0))

/-- BLOB_END (R496). -/
def execBlobEnd (r : HapReq) (s : State) : Out :=
  .next (s.hapRequest r 0x23 false (fun s x =>
    if !r.body.isEmpty then (s, .reply 10 [])
    else match x.transfer with
      | none => (s, .reply 12 [])
      | some y =>
        let s := s.modSession x.id (fun z => { z with transfer := none })
        if y.got ≠ y.total then (s, .reply 12 [])
        else match s.dramGet (stagingAt y.slot) y.total with
          | (s, none) => (s, .reply 12 [])
          | (s, some d) =>
            if crc32c d ≠ y.crc then (s, .reply 12 []) else s.writeBlob { session := x.id, t := r.t } (y.key / 256) (y.key % 256) d))

/-- BLOB_ABORT (R496). -/
def execBlobAbort (r : HapReq) (s : State) : Out :=
  .next (s.hapRequest r 0x24 false (fun s x =>
    if r.body.isEmpty then (s.modSession x.id (fun z => { z with transfer := none }), .reply 0 []) else (s, .reply 10 [])))

/-- BLOB_TRANSFER_TIMEOUT (R496): 10 s without a request. -/
def execBlobTransferTimeout (session : Nat) (t : Nat) (s : State) : Out :=
  let s := s.at t
  .next (match (s.session session).bind (fun x => x.transfer) with
    | none => s
    | some y =>
      if s.frame.now < y.last + 10000000000 then s
      else (s.modSession session (fun x => { x with transfer := none })).countRaise (od 0x1B00 7) 0x1013)

/-- BLOB_SNAPSHOT_EXPIRE (R495): 10 s without a read. -/
def execBlobSnapshotExpire (session : Nat) (t : Nat) (s : State) : Out :=
  let s := s.at t
  .next (match (s.session session).bind (fun x => x.snapshot) with
    | none => s
    | some y => if s.frame.now < y.last + 10000000000 then s else s.modSession session (fun x => { x with snapshot := none }))

/-! Results and pose (R472, R500, R501). -/

/-- The snapshot key of a read of frame m: no object's key. -/
def resultKey (m : Nat) : Nat := 2 ^ 24 + m

/-- RESULT_READ (R500): at offset 0 the record is formed, or waited for where its storage is under way. -/
def execResultRead (r : HapReq) (s : State) : Out :=
  let b := r.body
  let m := fieldLe b 0 4
  let max := fieldLe b 8 2
  .next (s.hapRequest r 0x50 true (fun s x =>
    if b.length ≠ 10 ∨ max = 0 ∨ 1392 < max then (s, .reply 10 [])
    else if fieldLe b 4 4 ≠ 0 then
      match x.snapshot with
      | some y =>
        if y.key = resultKey m ∧ y.data.length < fieldLe b 4 4 then (s, .reply 0 (natLe 4 y.data.length ++ natLe 4 (fieldLe b 4 4)))
        else s.servePiece x.id (resultKey m) (fieldLe b 4 4) max
      | none => (s, .reply 12 [])
    else if s.readWaits m then
      (s.modSession x.id (fun y => { y with waitRead := some { frame := m, maxLen := max, seq := r.seq, ip := r.srcIp, port := r.srcPort } }), .waits)
    else
      let (s, d) := s.readResult m
      s.takeSnapshot x.id (resultKey m) max d))

/-- Answer a read that waited for the storage of its record (R472). -/
def State.answerWait (s : State) (id : Nat) : State :=
  match (s.session id).bind (fun x => x.waitRead) with
  | none => s
  | some w =>
    if s.readWaits w.frame then s
    else
      let s := s.modSession id (fun x => { x with waitRead := none })
      let (s, d) := s.readResult w.frame
      match s.takeSnapshot id (resultKey w.frame) w.maxLen d with
      | (s, .reply st body) => s.replyTo id w.ip w.port 0x50 w.seq st body
      | (s, _) => s

/-- RECORD_STORE (R472): within 200 µs of its launch the record is stored, and the reads that waited for it are answered. -/
def execRecordStore (t : Nat) (s : State) : Out :=
  let s := (s.at t).quiet.storeRecord
  .next ((s.hap.sessions.map (fun x => x.id)).foldl (fun s id => s.answerWait id) s)

/-- A pose sample's fields (R66). -/
def parsePose (b : Bytes) : PoseSample :=
  let v := fun (o n : Nat) => (List.range n).map (fun i => fieldI b (o + 4 * i) 4)
  { time := (ofTime80 (b.take 10)).getD 0, pos := v 12 3, quat := v 24 4, vel := v 40 3, ang := v 52 3 }

/-- Squared norm of a quaternion in Q2.60. -/
def quatNorm (q : List Int) : Int := (q.map (fun x => x * x)).foldl (· + ·) 0

/-- The front end takes a pose sample (R66, R71, R75): discarded and counted, or the newest of the track, with the next epoch; samples within
400 ms of it are held. -/
def State.takePose (s : State) (b : Bytes) : State :=
  let p := parsePose b
  let norm := quatNorm p.quat
  let busy := !s.ing.withdraw.isEmpty || !s.ing.reinsert.isEmpty
  if (ofTime80 (b.take 10)).isNone ∨ s.lastSample.any (fun x => decide (p.time ≤ x.time)) ∨ 2 ^ 54 < (norm - 2 ^ 60).natAbs
      ∨ (if busy then 4 else 5) ≤ s.ing.waitingSamples.length then s.bump (od 0x3F00 0x0B)
  else
    let p := if norm = 2 ^ 60 then p else { p with quat := roundList p.quat (unitQuat p.quat) }
    { s with ing := { s.ing with
      samples := (s.ing.samples ++ [p]).filter (fun x => decide (p.time ≤ x.time + 400000000))
      waitingSamples := s.ing.waitingSamples ++ [(s.ing.epoch, p)]
      epoch := (s.ing.epoch + 1) % 256
      gapRaised := false } }

/-- POSE (R501): never answered, exempt from sequences (R488). -/
def execPose (r : HapReq) (s : State) : Out :=
  let s := (s.at r.t).quiet
  let n := fieldLe r.body 0 1
  .next (if !s.power.supervisor then s
  else if hapBad r then s.bump (od 0x1B00 3)
  else if !(s.session r.session).any (fun x => x.isHost) ∨ n = 0 ∨ 8 < n ∨ !allZero (slice r.body 1 3) ∨ r.body.length ≠ 4 + 64 * n
      ∨ s.sec.effective = 6 then s.bump (od 0x1B00 9)
  else
    let s := (s.modSession r.session (fun x => { x with lastTime := s.frame.now })).bump (od 0x1B00 0x0A)
    (List.range n).foldl (fun s i => s.takePose (slice r.body (4 + 64 * i) 64)) s)

/-! Subscriptions and notifications (R497-R499). -/

/-- The lowest VALUE subscription number that a session does not use. -/
def Session.freeSub (x : Session) : Nat := ((List.range 32).map (· + 1)).find? (fun n => !x.values.any (fun v => v.num == n)) |>.getD 0

/-- SUBSCRIBE (R498). -/
def execSubscribe (r : HapReq) (s : State) : Out :=
  let b := r.body
  .next (s.hapRequest r 0x40 false (fun s x =>
    if fieldLe b 0 1 = 0 then
      if b.length ≠ 4 ∨ fieldLe b 1 1 ≠ 0 then (s, .reply 10 [])
      else (s.modSession x.id (fun y => { y with evMask := some (fieldLe b 2 2) }), .reply 0 (zeros 4))
    else if fieldLe b 0 1 ≠ 1 then (s, .reply 5 [])
    else if b.length ≠ 5 then (s, .reply 10 [])
    else
      let idx := fieldLe b 1 2
      let sub := fieldLe b 3 1
      match s.mayRead x.id idx sub with
      | .inr st => (s, .reply st [])
      | .inl row =>
        if row.any (fun r => r.ty.size.isNone) then (s, .reply 4 [])
        else if 32 ≤ x.values.length then (s, .reply 7 [])
        else
          let v : ValueSub := { num := x.freeSub, key := od idx sub, mode := fieldLe b 4 1 }
          (s.modSession x.id (fun y => { y with values := y.values ++ [v] }), .reply 0 (natLe 1 v.num ++ zeros 3))))

/-- UNSUBSCRIBE (R498). -/
def execUnsubscribe (r : HapReq) (s : State) : Out :=
  let n := fieldLe r.body 0 1
  .next (s.hapRequest r 0x41 false (fun s x =>
    if r.body.isEmpty ∨ !allZero (r.body.drop 1) then (s, .reply 10 [])
    else if n = 0 then
      if x.evMask.isNone then (s, .reply 5 []) else (s.modSession x.id (fun y => { y with evMask := none, evQueue := [] }), .reply 0 [])
    else if !x.values.any (fun v => v.num == n) then (s, .reply 5 [])
    else (s.modSession x.id (fun y => { y with values := y.values.filter (fun v => v.num != n) }), .reply 0 [])))

/-- A datagram to an address can leave on some HOST port. -/
def State.reaches (s : State) (ip : Nat) : Bool :=
  (s.net.link 8 && (s.macFor 0 ip).isSome) || (s.net.link 9 && (s.macFor 1 ip).isSome)

/-- Send a notification to a session (R497); one that cannot be sent is counted. -/
def State.notify (s : State) (id op : Nat) (body : Bytes) : State :=
  match s.session id with
  | none => s
  | some x =>
    let s := s.modSession id (fun y => { y with notifySeq := (y.notifySeq + 1) % 2 ^ 32 })
    if s.reaches x.srcIp then s.sendUdp 1 44102 x.notifyPort x.srcIp (hapMsg op 2 0 id x.notifySeq body) else s.bump (od 0x1B00 8)

/-- EVENT_NOTIFY (R499): the events gathered for a session, 40 at most, and not within 10 ms of the EVENT before. -/
def execEventNotify (session : Nat) (t : Nat) (s : State) : Out :=
  let s := (s.at t).quiet
  .next (match s.session session with
    | none => s
    | some x =>
      if x.evQueue.isEmpty ∨ x.lastNotify.any (fun l => decide (s.frame.now < l + 10000000)) then s
      else
        let es := x.evQueue.take 40
        let s := s.modSession session (fun y => { y with evQueue := y.evQueue.drop 40, lastNotify := some s.frame.now })
        s.notify session 0x60 (natLe 1 es.length ++ zeros 3 ++ es.flatMap EventRec.bytes))

/-- The present value of a subscribed object on the wire. -/
def State.subValue (s : State) (id key : Nat) : Bytes := (s.readEntry id (key / 256) (key % 256) false).2

/-- A VALUE subscription at a boundary (R499): itself afterwards and whether it is sent. -/
def ValueSub.sample (v : ValueSub) (now : Bytes) : ValueSub × Bool :=
  if v.mode = 0 then (if v.last = some now then (v, false) else ({ v with last := some now }, true))
  else if v.mode ≤ v.count + 1 then ({ v with count := 0 }, true)
  else ({ v with count := v.count + 1 }, false)

/-- Entries in notifications of at most 1,400 bytes; `fuel` bounds them. -/
def packEntries : Nat → List Bytes → List (List Bytes)
  | 0, _ => []
  | _, [] => []
  | fuel + 1, e :: es =>
    let rec fit (room : Nat) : List Bytes → List Bytes
      | [] => []
      | x :: xs => if room < x.length then [] else x :: fit (room - x.length) xs
    let first := e :: fit (1396 - e.length) es
    first :: packEntries fuel ((e :: es).drop first.length)

/-- One session's VALUE notifications at a boundary (R499). -/
def State.sampleSession (s : State) (frame id : Nat) : State :=
  match s.session id with
  | none => s
  | some x =>
    let now := x.values.map (fun v => (v.sample (s.subValue id v.key), s.subValue id v.key))
    let s := s.modSession id (fun y => { y with values := now.map (fun z => z.1.1) })
    let due := (now.filter (fun z => z.1.2)).map (fun z =>
      natLe 1 z.1.1.num ++ zeros 1 ++ natLe 2 z.2.length ++ natLe 4 frame ++ pad4 z.2)
    (packEntries 32 due).foldl (fun s es => s.notify id 0x61 (natLe 1 es.length ++ zeros 3 ++ es.flatten)) s

/-- VALUE notifications of every session, after the boundary's FRAME writes (R499). -/
def State.sampleValues (s : State) (frame : Nat) : State :=
  (s.hap.sessions.map (fun x => x.id)).foldl (fun s id => s.sampleSession frame id) s

end Sys2Proof.Machine
end

