-- ==== Sys2Proof/Machine/Unlock.lean ====
section
/-! DEFINITION. Unlocking (R527-R532): challenge, response, failures and lockout, LOCK. -/

namespace Sys2Proof.Machine

/-- A lockout is running (R530). -/
def State.lockedOut (s : State) : Bool := decide (s.frame.now < s.sec.lockoutEnd)

/-- Seconds of the lockout that the f-th consecutive failure begins (R530). -/
def lockoutFor (f : Nat) : Nat := Nat.min 86400 (10 * 2 ^ (Nat.min 20 (f - 3)))

/-- A response failed verification (R530): counted, EV 0xB002; from the third in a row on a lockout, EV 0xB003. -/
def State.unlockFailed (s : State) : State :=
  let n := Od.counter (od 0xB000 2) (s.num (od 0xB000 2) + 1)
  let s := (s.store (od 0xB000 2) (.num n)).raise 0xB002 0xFF n
  let f := s.sec.fails + 1
  let s := s.modSec (fun x => { x with fails := f })
  if f < 3 then s
  else (s.modSec (fun x => { x with lockoutEnd := s.frame.now + 1000000000 * lockoutFor f })).raise 0xB003 0xFF n true

/-- An unlock succeeded (R529, R530): no failures in a row, EV 0xB001, and the transition that falls due. -/
def State.unlocked (s : State) : State := (((s.modSec (fun x => { x with fails := 0 })).raise 0xB001).syncLife).openDebug

/-- The nonce is still good (R528): 60 s. -/
def Nonce.good (n : Nonce) (kind now : Nat) : Bool := n.kind == kind && decide (now ≤ n.at_ + 60000000000)

/-- The workshop proof (R528): SM3 of the verifier, the nonce and a U32. -/
def State.workshopProof (s : State) (nonce : Bytes) (who : Nat) : Bytes :=
  natLe 32 (Config.sm3 (s.oct (od 0xB000 4) ++ nonce ++ natLe 4 who)).toNat

/-- The vendor token (R528). -/
def State.vendorToken (s : State) (nonce : Bytes) (id flags validity : Nat) : Bytes :=
  nonce ++ padTo 16 (s.oct (od 0 3)) ++ natLe 4 id ++ natLe 1 flags ++ zeros 3 ++ natLe 4 validity

/-- The state `s` with a level granted would begin an opening transition that the closed gate refuses (R527). -/
def State.openingRefused (s : State) : Bool := s.gateShut && decide (s.lifeWanted ≠ s.sec.effective)

/-- UNLOCK_CHALLENGE (R528, R530). -/
def execUnlockChallenge (r : HapReq) (s : State) : Out :=
  .next (s.hapRequest r 0x30 false (fun s x =>
    let kind := fieldLe r.body 0 1
    if r.body.length ≠ 4 ∨ !allZero (r.body.drop 1) then (s, .reply 10 [])
    else if kind ≠ 1 ∧ kind ≠ 2 then (s, .reply 5 [])
    else if s.lockedOut then (s, .reply 7 [])
    else
      let n : Nonce := { kind := kind, bytes := s.freshBytes 32, at_ := s.frame.now }
      (s.drawn.modSession x.id (fun y => { y with nonce := some n }),
        .reply 0 (n.bytes ++ padTo 16 (s.oct (od 0 3)) ++ natLe 1 s.sec.effective ++ zeros 3))))

/-- A response's layout (R528). -/
def responseOk (b : Bytes) : Bool :=
  match fieldLe b 0 1 with
  | 1 => b.length == 40 && allZero (slice b 1 7)
  | 2 => b.length == 248 && decide (fieldLe b 1 1 < 2) && allZero (slice b 2 2)
  | _ => false

/-- Grant a session a level (R529), where R527 allows the transition. -/
def State.grant (s : State) (id : Nat) (level : Level) (seconds : Nat) (debug : Bool) : State × HapAns :=
  let s' := s.modSession id (fun y => { y with
    level := level
    levelEnd := if seconds = 0 then none else some (s.frame.now + 1000000000 * seconds)
    debug := debug })
  if s'.openingRefused then (s, .reply 11 [])
  else (s'.unlocked, .reply 0 (natLe 1 level.rank ++ zeros 3 ++ natLe 4 seconds))

/-- UNLOCK_RESPONSE (R528-R532): the nonce serves this one response. -/
def execUnlockResponse (r : HapReq) (s : State) : Out :=
  let b := r.body
  .next (s.hapRequest r 0x31 false (fun s x =>
    if !responseOk b then (s, .reply 10 [])
    else
      let kind := fieldLe b 0 1
      let s := s.modSession x.id (fun y => { y with nonce := none })
      match x.nonce with
      | none => (s, .reply 6 [])
      | some n =>
        if !n.good kind s.frame.now then (s, .reply 6 [])
        else if kind = 1 then
          if (s.oct (od 0xB000 4)).isEmpty then (s, .reply 11 [])
          else if slice b 8 32 ≠ s.workshopProof n.bytes x.id then (s.unlockFailed, .reply 6 [])
          else s.grant x.id .workshop 0 false
        else
          let debug := bitAt (fieldLe b 1 1) 0
          let validity := fieldLe b 4 4
          if validity = 0 ∨ 86400 < validity then (s, .reply 5 [])
          else if !s.signedBy (slice b 8 168) 2 (s.vendorToken n.bytes x.id (fieldLe b 1 1) validity) (slice b 176 72) then
            (s.unlockFailed, .reply 6 [])
          else if debug ∧ s.num (od 0xA000 2) ≠ 2 then (s, .reply 11 [])
          else s.grant x.id .vendor validity debug))

/-- LOCK (R531). -/
def execLock (r : HapReq) (s : State) : Out :=
  .next (s.hapRequest r 0x32 false (fun s x => if r.body.isEmpty then (s.dropLevel x.id, .reply 0 []) else (s, .reply 10 [])))

end Sys2Proof.Machine
end

