-- ==== Sys2Proof/Machine/Doip.lean ====
section
/-! DEFINITION. Workshop diagnostics (R542-R544): DoIP on UDP and TCP port 13400, and the UDS services of a routed connection. -/

namespace Sys2Proof.Machine

/-! Messages (R542, ISO 13400-2). -/

/-- A DoIP message: version and its inverse, payload type, length, payload. -/
def doipMsg (version type : Nat) (b : Bytes) : Bytes := natBe 1 version ++ natBe 1 (255 - version) ++ natBe 2 type ++ natBe 4 b.length ++ b

/-- The version of a reply: the one received, where it is 2 or 3. -/
def doipVersion (r : DoipReq) : Nat := if r.version = 3 then 3 else 2

/-- Send a DoIP message to the source of a request, on the port it came in: class SERVICE (R447), no R-TAG sequence (R449). -/
def State.doipSend (s : State) (r : DoipReq) (tcp : Bool) (type : Nat) (b : Bytes) : State :=
  s.sendOn r.host 0 none (if tcp then 6 else 17) 13400 r.srcPort r.srcIp (doipMsg (doipVersion r) type b)

/-- A DoIP message that the supervisor receives; a version that is not 2 or 3 gets the generic NACK 0x00. -/
def State.doipRequest (s : State) (r : DoipReq) (tcp : Bool) (f : State → State) : State :=
  let s := (s.at r.t).quiet
  if !s.power.supervisor then s
  else if r.version ≠ 2 ∧ r.version ≠ 3 then s.doipSend r tcp 0 [0x00]
  else f s

/-- The module's logical address (R542). -/
def doipAddress : Nat := 0x4410

/-- A vehicle identification or announcement: VIN, logical address, EID, GID, no further action (R542). -/
def State.vehicleId (s : State) : Bytes :=
  let mac := s.ownMac 8
  List.replicate 17 0xFF ++ natBe 2 doipAddress ++ mac ++ mac ++ [0]

/-- DOIP_VEHICLE_IDENTIFICATION (R542): without a filter, by EID or by VIN. -/
def execDoipVehicleIdentification (r : DoipReq) (s : State) : Out :=
  .next (s.doipRequest r false (fun s =>
    let n := r.body.length
    if n ≠ 0 ∧ n ≠ 6 ∧ n ≠ 17 then s.doipSend r false 0 [0x04]
    else if n = 6 ∧ r.body ≠ s.ownMac 8 ∨ n = 17 ∧ r.body ≠ List.replicate 17 0xFF then s
    else s.doipSend r false 4 s.vehicleId))

/-- DOIP_VEHICLE_ANNOUNCEMENT (R542): one of the three that a link-up of the HOST port owes. -/
def execDoipVehicleAnnouncement (h : Fin 2) (s : State) : Out :=
  let s := s.quiet
  .next (if !s.power.supervisor ∨ s.net.announce[h] = 0 ∨ !s.net.link (hostPort h) then s
  else
    let s := s.modNet (fun n => { n with announce := n.announce.set h (n.announce[h] - 1) })
    s.sendOn h 0 none 17 13400 13400 0xFFFFFFFF (doipMsg 2 4 s.vehicleId))

/-- DOIP_GENERIC_NACK (R542): received, and answered with nothing. -/
def execDoipGenericNack (r : DoipReq) (s : State) : Out := .next (s.at r.t).quiet

/-- DOIP_ENTITY_STATUS (R542): a node with 2 sockets and 4,096 bytes. -/
def execDoipEntityStatus (r : DoipReq) (s : State) : Out :=
  .next (s.doipRequest r false (fun s =>
    let n := (s.doip.toList.filter (fun x => x.routed)).length
    if !r.body.isEmpty then s.doipSend r false 0 [0x04] else s.doipSend r false 0x4002 ([1, 2] ++ natBe 1 n ++ natBe 4 4096)))

/-- DOIP_POWER_MODE (R542). -/
def execDoipPowerMode (r : DoipReq) (s : State) : Out :=
  .next (s.doipRequest r false (fun s =>
    if !r.body.isEmpty then s.doipSend r false 0 [0x04] else s.doipSend r false 0x4004 [if s.frame.run then 1 else 0]))

/-- The connection a message came in on; none beyond the two that the module serves. -/
def doipConn (r : DoipReq) : Option (Fin 2) := if h : r.conn.val < 2 then some ⟨r.conn.val, h⟩ else none

/-- A tester's address (R542). -/
def testerOk (a : Nat) : Bool := decide (0x0E00 ≤ a) && decide (a ≤ 0x0FFF)

/-- The code of a routing activation (R542). -/
def State.routingCode (s : State) (r : DoipReq) : Nat :=
  let source := fieldBe r.body 0 2
  match doipConn r with
  | none => if testerOk source then 1 else 0
  | some c =>
    let x := s.doip[c]
    if !testerOk source ∨ (x.routed ∧ x.tester ≠ source) then 0
    else if !x.routed ∧ 8 ≤ s.sessionCount then 1
    else if fieldBe r.body 2 1 ≠ 0 then 6
    else 0x10

/-- DOIP_ROUTING_ACTIVATION (R542): an activated connection counts as a session (R487). -/
def execDoipRoutingActivation (r : DoipReq) (s : State) : Out :=
  .next (s.doipRequest r true (fun s =>
    let source := fieldBe r.body 0 2
    let code := s.routingCode r
    if r.body.length ≠ 7 ∧ r.body.length ≠ 11 then s.doipSend r true 0 [0x04]
    else
      let s := match doipConn r with
        | some c =>
          if code = 0x10 ∧ !(s.doip[c]).routed then s.modDoip c (fun _ => { routed := true, tester := source, last := s.frame.now }) else s
        | none => s
      s.doipSend r true 6 (natBe 2 source ++ natBe 2 doipAddress ++ natBe 1 code ++ zeros 4)))

/-- DOIP_ALIVE_CHECK (R542): a request is answered; a response confirms the connection and changes nothing. -/
def execDoipAliveCheck (r : DoipReq) (s : State) : Out :=
  .next (s.doipRequest r true (fun s =>
    if r.body.isEmpty then s.doipSend r true 8 (natBe 2 doipAddress)
    else if r.body.length = 2 then s
    else s.doipSend r true 0 [0x04]))

/-- DOIP_CONNECTION_CLOSE (R543). -/
def execDoipConnectionClose (conn : Fin 2) (s : State) : Out := .next (s.closeDoip conn)

/-! UDS (R543, R544, ISO 14229-1). -/

/-- What a UDS service answers: bytes, nothing, or bytes before a restart. -/
inductive UdsAns where
  | reply (b : Bytes)
  | silent
  | restarts (b : Bytes)

/-- A negative response. -/
def udsNo (sid code : Nat) : UdsAns := .reply [0x7F, BitVec.ofNat 8 sid, BitVec.ofNat 8 code]

/-- The connection's WORKSHOP level and seed end (R543). -/
def State.udsDefault (s : State) (c : Fin 2) : State :=
  (s.modDoip c (fun x => { x with extended := false, workshop := false, seed := none })).syncLife

/-- Service 0x10 (R543), with P2 in ms and P2* in 10 ms. -/
def State.udsSession (s : State) (c : Fin 2) (b : Bytes) : State × UdsAns :=
  let times := natBe 2 50 ++ natBe 2 500
  if b.length ≠ 2 then (s, udsNo 0x10 0x13)
  else match fieldBe b 1 1 with
    | 1 => (s.udsDefault c, .reply ([0x50, 1] ++ times))
    | 3 => (s.modDoip c (fun x => { x with extended := true }), .reply ([0x50, 3] ++ times))
    | _ => (s, udsNo 0x10 0x12)

/-- What the extended session and WORKSHOP refuse: 0x7F, 0x33. -/
def State.udsBarred (s : State) (c : Fin 2) : Option Nat :=
  if !(s.doip[c]).extended then some 0x7F else if !(s.doip[c]).workshop then some 0x33 else none

/-- Service 0x11 (R543, R557). -/
def State.udsReset (s : State) (c : Fin 2) (b : Bytes) : State × UdsAns :=
  if !(s.doip[c]).extended then (s, udsNo 0x11 0x7F)
  else if b.length ≠ 2 then (s, udsNo 0x11 0x13)
  else if fieldBe b 1 1 ≠ 1 then (s, udsNo 0x11 0x12)
  else if !(s.doip[c]).workshop then (s, udsNo 0x11 0x33)
  else if s.gateShut then (s, udsNo 0x11 0x22)
  else (s, .restarts [0x51, 1])

/-- Service 0x14 (R543): as SRV_CLEAR. -/
def State.udsClear (s : State) (c : Fin 2) (b : Bytes) : State × UdsAns :=
  match s.udsBarred c with
  | some n => (s, udsNo 0x14 n)
  | none =>
    if b.length ≠ 4 then (s, udsNo 0x14 0x13)
    else if fieldBe b 1 3 ≠ 0xFFFFFF then (s, udsNo 0x14 0x31)
    else (srvEffect s, .reply [0x54])

/-- The events that assert SRV_N: the DTCs the module supports (R504, R544). -/
def dtcCodes : List Nat :=
  [0x3002, 0x3007, 0x3009, 0x300A, 0x7801, 0x7805, 0xA00A, 0xA00B, 0xA00E, 0xB003, 0xB004, 0xB009, 0xC005, 0xE009]

/-- A DTC's status (R544): bit 0 while SRV_N is asserted because of it, bit 3 once raised since the last clear. -/
def State.dtcStatus (s : State) (code : Nat) : Nat :=
  if code ∈ s.log.dtcs then (if s.log.srv then 9 else 8) else 0

/-- A DTC as ReadDTCInformation lists it: its value and status. -/
def State.dtcBytes (s : State) (code : Nat) : Bytes := [0x5A] ++ natBe 2 code ++ natBe 1 (s.dtcStatus code)

/-- Service 0x19 (R543, R544). -/
def State.udsReadDtc (s : State) (b : Bytes) : Bytes ⊕ Nat :=
  let mask := fieldBe b 2 1
  let hit := dtcCodes.filter (fun c => s.dtcStatus c &&& mask &&& 9 != 0)
  if b.length < 2 then .inr 0x13
  else match fieldBe b 1 1 with
    | 1 => if b.length ≠ 3 then .inr 0x13 else .inl ([0x59, 1, 9, 1] ++ natBe 2 hit.length)
    | 2 => if b.length ≠ 3 then .inr 0x13 else .inl ([0x59, 2, 9] ++ hit.flatMap s.dtcBytes)
    | 0x0A => if b.length ≠ 2 then .inr 0x13 else .inl ([0x59, 0x0A, 9] ++ dtcCodes.flatMap s.dtcBytes)
    | _ => .inr 0x12

/-- The object of a data identifier (R543). -/
def didObject (d : Nat) : Option (Nat × Nat) :=
  match d with
  | 0xF187 => some (0x0000, 2) | 0xF18C => some (0x0000, 3) | 0xF191 => some (0x0000, 4) | 0xF195 => some (0x0000, 6)
  | 0xF18B => some (0x0000, 0x0A) | 0x0100 => some (0x0002, 1) | 0x0101 => some (0xA000, 2) | _ => none

/-- Service 0x22 (R543): up to four identifiers, their values as their objects. -/
def State.udsReadData (s : State) (b : Bytes) : Bytes ⊕ Nat :=
  let n := (b.length - 1) / 2
  let ids := (List.range n).map (fun i => fieldBe b (1 + 2 * i) 2)
  let vals := ids.filterMap (fun d => (didObject d).map (fun o => natBe 2 d ++ (s.readEntry 0 o.1 o.2 false).2))
  if b.length % 2 = 0 ∨ n = 0 ∨ 4 < n then .inr 0x13 else if vals.isEmpty then .inr 0x31 else .inl ([0x62] ++ vals.flatten)

/-- Service 0x27 0x01 (R543): the seed is the nonce of R528; zero where WORKSHOP is held. -/
def State.udsSeed (s : State) (c : Fin 2) (b : Bytes) : State × UdsAns :=
  if !(s.doip[c]).extended then (s, udsNo 0x27 0x7F)
  else if b.length ≠ 2 then (s, udsNo 0x27 0x13)
  else if s.lockedOut then (s, udsNo 0x27 0x37)
  else if (s.doip[c]).workshop then (s, .reply ([0x67, 1] ++ zeros 32))
  else
    let n : Nonce := { bytes := s.freshBytes 32, at_ := s.frame.now }
    (s.drawn.modDoip c (fun x => { x with seed := some n }), .reply ([0x67, 1] ++ n.bytes))

/-- Service 0x27 0x02 (R527, R530, R543). -/
def State.udsKey (s : State) (c : Fin 2) (b : Bytes) : State × UdsAns :=
  let x := s.doip[c]
  let s' := s.modDoip c (fun y => { y with seed := none })
  if !x.extended then (s, udsNo 0x27 0x7F)
  else if b.length ≠ 34 then (s, udsNo 0x27 0x13)
  else if s.lockedOut then (s, udsNo 0x27 0x37)
  else match x.seed with
    | none => (s, udsNo 0x27 0x24)
    | some n =>
      if !n.good 1 s.frame.now then (s', udsNo 0x27 0x24)
      else if (s.oct (od 0xB000 4)).isEmpty then (s', udsNo 0x27 0x22)
      else if b.drop 2 ≠ s.workshopProof n.bytes x.tester then
        let s := s'.unlockFailed
        (s, udsNo 0x27 (if s.lockedOut then 0x36 else 0x35))
      else
        let t := s'.modDoip c (fun y => { y with workshop := true })
        if t.openingRefused then (s', udsNo 0x27 0x22) else (t.unlocked, .reply [0x67, 2])

/-- Service 0x31 (R543): routine 0x0201 as a write of 0xFFFF to MARCH_REQUEST. -/
def State.udsRoutine (s : State) (c : Fin 2) (b : Bytes) : State × UdsAns :=
  if !(s.doip[c]).extended then (s, udsNo 0x31 0x7F)
  else if b.length ≠ 4 then (s, udsNo 0x31 0x13)
  else if fieldBe b 1 1 ≠ 1 then (s, udsNo 0x31 0x12)
  else if !(s.doip[c]).workshop then (s, udsNo 0x31 0x33)
  else if fieldBe b 2 2 ≠ 0x0201 then (s, udsNo 0x31 0x31)
  else (s.marchRequest 0xFFFF, .reply [0x71, 1, 2, 1])

/-- Service 0x3E (R543). -/
def State.udsPresent (s : State) (b : Bytes) : State × UdsAns :=
  if b.length ≠ 2 then (s, udsNo 0x3E 0x13)
  else match fieldBe b 1 1 with
    | 0x00 => (s, .reply [0x7E, 0])
    | 0x80 => (s, .silent)
    | _ => (s, udsNo 0x3E 0x12)

/-- An answer or a negative response, by a service that changes nothing. -/
def udsGive (s : State) (sid : Nat) : Bytes ⊕ Nat → State × UdsAns
  | .inl b => (s, .reply b)
  | .inr n => (s, udsNo sid n)

/-- A UDS request by its service (R543); any other is answered with NRC 0x11. -/
def State.udsServe (s : State) (c : Fin 2) (b : Bytes) : State × UdsAns :=
  match fieldBe b 0 1 with
  | 0x10 => s.udsSession c b
  | 0x11 => s.udsReset c b
  | 0x14 => s.udsClear c b
  | 0x19 => udsGive s 0x19 (s.udsReadDtc b)
  | 0x22 => udsGive s 0x22 (s.udsReadData b)
  | 0x27 =>
    match fieldBe b 1 1 with
    | 1 => s.udsSeed c b
    | 2 => s.udsKey c b
    | _ => (s, udsNo 0x27 (if !(s.doip[c]).extended then 0x7F else if b.length < 2 then 0x13 else 0x12))
  | 0x31 => s.udsRoutine c b
  | 0x3E => s.udsPresent b
  | n => (s, udsNo n 0x11)

/-- Send a UDS answer to the tester of a connection. -/
def State.udsSend (s : State) (c : Fin 2) (r : DoipReq) (b : Bytes) : State :=
  s.doipSend r true 0x8001 (natBe 2 doipAddress ++ natBe 2 (s.doip[c]).tester ++ b)

/-- Serve a UDS request of a routed connection and answer it; each request restarts S3. -/
def State.udsOn (s : State) (c : Fin 2) (r : DoipReq) (f : State → State × UdsAns) : State :=
  match f (s.modDoip c (fun x => { x with last := s.frame.now })) with
  | (s, .reply b) => s.udsSend c r b
  | (s, .silent) => s
  | (s, .restarts b) => (s.udsSend c r b).restarted 4

/-- A UDS request given as a command: on a routed connection, with its service's SID. -/
def State.udsRow (s : State) (r : DoipReq) (sid : Nat) (f : State → Fin 2 → State × UdsAns) : State :=
  let s := (s.at r.t).quiet
  match doipConn r with
  | none => s
  | some c => if !s.power.supervisor ∨ !(s.doip[c]).routed ∨ fieldBe r.body 0 1 ≠ sid ∨ r.body.isEmpty then s else s.udsOn c r (fun s => f s c)

/-- DOIP_DIAGNOSTIC_MESSAGE (R542, R543): acknowledged, and its UDS request served; NACK 0x02 for a foreign source, 0x03 for another
target, 0x04 beyond 4,096 bytes. -/
def execDoipDiagnosticMessage (r : DoipReq) (s : State) : Out :=
  .next (s.doipRequest r true (fun s =>
    let source := fieldBe r.body 0 2
    let target := fieldBe r.body 2 2
    let nack := fun (code : Nat) => s.doipSend r true 0x8003 (natBe 2 target ++ natBe 2 source ++ natBe 1 code)
    if r.body.length < 5 then s.doipSend r true 0 [0x04]
    else match doipConn r with
      | none => nack 2
      | some c =>
        if !(s.doip[c]).routed ∨ (s.doip[c]).tester ≠ source then nack 2
        else if target ≠ doipAddress then nack 3
        else if 4096 < r.body.length then nack 4
        else
          let s := s.doipSend r true 0x8002 (natBe 2 target ++ natBe 2 source ++ [0])
          s.udsOn c r (fun s => s.udsServe c (r.body.drop 4))))

/-- DIAGNOSTIC_SESSION_CONTROL (R543). -/
def execDiagnosticSessionControl (r : DoipReq) (s : State) : Out := .next (s.udsRow r 0x10 (fun s c => s.udsSession c r.body))

/-- ECU_RESET (R543, R557). -/
def execEcuReset (r : DoipReq) (s : State) : Out := .next (s.udsRow r 0x11 (fun s c => s.udsReset c r.body))

/-- CLEAR_DIAGNOSTIC_INFORMATION (R543). -/
def execClearDiagnosticInformation (r : DoipReq) (s : State) : Out := .next (s.udsRow r 0x14 (fun s c => s.udsClear c r.body))

/-- READ_DTC_INFORMATION (R543, R544). -/
def execReadDtcInformation (r : DoipReq) (s : State) : Out := .next (s.udsRow r 0x19 (fun s _ => udsGive s 0x19 (s.udsReadDtc r.body)))

/-- READ_DATA_BY_IDENTIFIER (R543). -/
def execReadDataByIdentifier (r : DoipReq) (s : State) : Out := .next (s.udsRow r 0x22 (fun s _ => udsGive s 0x22 (s.udsReadData r.body)))

/-- SECURITY_ACCESS_REQUEST_SEED (R543). -/
def execSecurityAccessRequestSeed (r : DoipReq) (s : State) : Out :=
  .next (s.udsRow r 0x27 (fun s c => if fieldBe r.body 1 1 = 1 then s.udsSeed c r.body else (s, .silent)))

/-- SECURITY_ACCESS_SEND_KEY (R543). -/
def execSecurityAccessSendKey (r : DoipReq) (s : State) : Out :=
  .next (s.udsRow r 0x27 (fun s c => if fieldBe r.body 1 1 = 2 then s.udsKey c r.body else (s, .silent)))

/-- ROUTINE_CONTROL (R543). -/
def execRoutineControl (r : DoipReq) (s : State) : Out := .next (s.udsRow r 0x31 (fun s c => s.udsRoutine c r.body))

/-- TESTER_PRESENT (R543). -/
def execTesterPresent (r : DoipReq) (s : State) : Out := .next (s.udsRow r 0x3E (fun s _ => s.udsPresent r.body))

/-- S3_TIMEOUT (R543): 5 s without a request end the extended session and the WORKSHOP level. -/
def execS3Timeout (conn : Fin 2) (t : Nat) (s : State) : Out :=
  let s := s.at t
  .next (if (s.doip[conn]).extended ∧ (s.doip[conn]).last + 5000000000 ≤ s.frame.now then s.udsDefault conn else s)

end Sys2Proof.Machine
end

