-- ==== Sys2Proof/Machine/Frame.lean ====
section
/-! DEFINITION. The frame boundary and the entry into RUN (R26-R28, R44, R64, R68, R76, R77, R83, R102, R168, R185, R368, R377, R386, R420,
R478, R499, R548, R561). -/

namespace Sys2Proof.Machine

/-! The sweep that ends (R64, R76, R77, R83). -/

/-- Logged points of the sweep stay where they are and count as UNRESOLVED; its part of the log is cleared (R76). -/
def State.logEnd (s : State) : State :=
  let n := (s.ing.log.filter (fun l => l.sweep == s.cells.counter)).length
  { s with ing := { s.ing with log := [] } }.modPts false (fun c => { c with unresolved := c.unresolved + n })

/-- What the end of a sweep fixes: its counts, its causes, the heads' figures, the time state at E (R52, R64, R76, R83, R109, R114, R457,
R464). -/
def State.sweepEnd (s : State) : State :=
  let s := (s.ageingEnd.cellsAtE.logEnd.judgeShares false).headCauses.timeCauses
  let s := (List.finRange 8).foldl (fun s p => s.lifeAtE p) s
  let now := s.timeState
  s.modIng (fun c => { c with timeState := now })

/-! Writes with apply time FRAME (R478). -/

/-- Accepted writes that are at least 1 ms old take effect; the frame computed keeps the values they replace. -/
def State.frameWrites (s : State) (e : Nat) : State :=
  let due := s.dict.waiting.filter (fun w => decide (w.at_ + 1000000 ≤ e))
  let rest := s.dict.waiting.filter (fun w => !decide (w.at_ + 1000000 ≤ e))
  let old := due.map (fun w => (w.key, s.obj w.key))
  let s := due.foldl (fun s w => s.applyWrite w.key w.val) s
  { s with dict := { s.dict with waiting := rest, prev := old } }

/-! The sweep that begins (R27, R28, R68, R70). -/

/-- The context of the frame whose sweep begins at `e`: Pref by constant twist from the latest sample to its end, or the rest model. -/
def State.newSweep (s : State) (n e : Nat) : FrameCtx :=
  let end_ := e + s.frame.period
  let c : FrameCtx := { n := n, start := e, end_ := end_, hold := s.power.holdAt.isSome }
  match s.lastSample with
  | none => c
  | some l => { c with rest := false, poseAt := some l.time, pref := twist l end_ }

/-- What is still on its way in the front end belongs to the sweep that has ended; what belonged to the one before is dropped (R64, R76). -/
def Ingest.turn (x : Ingest) : Ingest :=
  let old := fun (p : Point) => { p with prev := true }
  { x with
    comp := x.comp.map old
    ins := (x.ins.filter (fun p => !p.prev)).map old
    withdraw := (x.withdraw.filter (fun p => !p.1.prev)).map (fun p => (old p.1, old p.2))
    reinsert := (x.reinsert.filter (fun p => !p.prev)).map old }

/-- The two frames in flight move on (R28), and the cell table with them (R102). -/
def State.turnFrames (s : State) (n e : Nat) : State :=
  let ended := s.frame.ing
  let next := s.newSweep n e
  let s := { s with frame := { s.frame with comp := ended, ing := next, lastFrame := ended.n }, ing := s.ing.turn }
  s.sweepTurn.noteStash.timeCauses

/-! The units that close the frame computed. -/

/-- The share of gated cell operations of the frame, in thousandths (R168). -/
def State.showGated (s : State) (c : Fin 16) : State :=
  let a := (s.cores[c]).arr
  let v := if a.cellOps = 0 then 0 else 1000 * a.gated / a.cellOps
  (s.setNum (odCore 0x6100 c 0x0B) (v : Nat)).modArr c (fun a => { a with cellOps := 0, gated := 0 })

/-- The scheduler closes a frame (R368, R387): its counts are shown, its instances return to IDLE. -/
def State.closeInsts (s : State) (ended : FrameCtx) : State :=
  let dropped := (s.sched.insts.filter (fun i => i.state == .dropped)).length
  let s := if ended.n = 0 then s else (s.setNum (od 0x9F00 1) ended.n).setNum (od 0x9F00 3) dropped
  s.modSched (fun x => { x with
    insts := x.insts.map (fun i => { i with state := .idle, slot := none, saved := none, overran := false })
    slotOf := Vector.replicate 16 65535, claimed := [], turned := false })

/-- The throttle's cause of doubt at a boundary (R386): it clears after 100 frames without it. -/
def State.throttleFrame (s : State) : State :=
  let s := s.judgeThrottle
  if s.sched.aboveRaised then s.modSched (fun x => { x with quietThrottle := 0 })
  else
    let s := s.modSched (fun x => { x with quietThrottle := x.quietThrottle + 1 })
    if 100 ≤ s.sched.quietThrottle then s.clearDoubt 3 else s

/-- Dispatch resumes at the first boundary at least 1 ms after HOLD (R548). -/
def State.resumeDispatch (s : State) (e : Nat) : State :=
  if s.power.holdAt.isNone ∧ s.power.resumeAt.all (fun r => decide (r ≤ e)) then
    (s.modSched (fun x => { x with hold := false })).modPower (fun x => { x with resumeAt := none })
  else s

/-- The generation of a window of P0 of a core, none for a locator that names no window. -/
def State.genOf (s : State) (core : Fin 16) (part win : Nat) : Nat := ((s.cores[core]).pad.win part win).gen

/-- Foxglove turns to the frame computed (R412, R416, R419): its lists, checks and verdict start again, the histories move one frame on. -/
def State.safetyTurn (s : State) : State :=
  let a := s.listAt 0
  let b := s.listAt 1
  let ga := s.genOf a.1 0 a.2.1
  let gb := s.genOf b.1 0 b.2.1
  s.modSafety (fun x => { x with
    listA := .none, listB := .none, mari := none, mariSeen := false, mariDue := false, copyCheck := none, plausCheck := none
    verdict := none, genA := ga, genB := gb
    hist := (x.hist.map (fun h => (h.1 + 1, h.2))).filter (fun h => decide (h.1 < 10))
    windowLeft := x.windowLeft - 1, selfTestIn := x.selfTestIn.map (· - 1) })

/-- The result stream turns to the frame computed (R461): no body yet, and the generation its window holds now. -/
def State.resultsTurn (s : State) : State :=
  let g := match s.bodyAt with
    | some (c, p, w, _) => s.genOf c p w
    | none => 0
  s.modNet (fun n => { n with results := { n.results with body := none, bad := false, gen := g } })

/-- OPERATING_TIME in RUN (OD 0x0003.01): whole seconds, and the rest for the next frame. -/
def State.countRun (s : State) : State :=
  let ns := s.power.runNs + s.frame.period
  let s := s.modPower (fun x => { x with runNs := ns % 1000000000 })
  s.bump (od 3 1) (ns / 1000000000)

/-- The event log's frame begins (R359). -/
def State.logTurn (s : State) : State := { s with log := { s.log with inFrame := 0, overflowed := false } }

/-- The frame boundary at the end of the sweep in ingest. -/
def State.boundary (s : State) : State :=
  let e := s.frame.ing.end_
  let s := s.deadline.sweepEnd
  let closed := s.frame.comp
  let s := s.countRun.logTurn.frameWrites e
  let s := (List.finRange 8).foldl (fun s p => s.headBoundary p) s
  let s := s.turnFrames (nextFrame s.frame.ing.n) e
  let s := (s.booksBoundary closed).peonyBoundary closed
  let s := (List.finRange 16).foldl (fun s c => s.showGated c) s
  let s := (s.closeInsts closed).resumeDispatch e
  let s := s.retireDue.switchPlan.judgeDoubt.throttleFrame
  let s := s.safetyTurn.resultsTurn.turnGates
  s.sampleValues s.frame.ing.n

/-! Entry into RUN (R561). -/

/-- The period and phase that hold where no schedule has set them (OD 0x9000.04-.06). -/
def State.frameTimes (s : State) : State :=
  if s.frame.period ≠ 0 then s
  else { s with frame := { s.frame with
    period := 1000 * s.num (od 0x9000 4), phase := 1000 * s.num (od 0x9000 5), launch := 1000 * s.num (od 0x9000 6) } }

/-- t lies on the grid of frame boundaries (R26). -/
def State.onGrid (s : State) (t : Nat) : Bool := (t + s.frame.period - s.frame.phase) % s.frame.period == 0

/-- The module may enter RUN at t (R456, R551, R561): it boots, the main channel is ready and not held, boundaries are permitted. -/
def State.mayEnter (s : State) (t : Nat) : Bool :=
  (s.powerState == 2 || s.powerState == 5) && s.power.mainReady && s.power.holdAt.isNone && s.net.time.permitted && s.onGrid t

/-- RUN begins at B0 (R27, R427, R428, R561): frame 1's sweep starts, FAULT_N follows the safety state, and without a schedule the module
is in FALLBACK. -/
def State.runEnter (s : State) (t : Nat) : State :=
  let s := { s with frame := { s.frame with run := true } }
  let s := if s.powerState = 2 then s.setNum (od 0xE000 1) (if s.sched.throttle = 0 then 3 else 4 : Nat) else s
  let s := (List.finRange 8).foldl (fun s p => s.headBoundary p) s
  let s := (s.logTurn).turnFrames 1 t
  let s := s.safetyTurn.resultsTurn.turnGates
  let s := s.modSafety (fun x => { x with foxAsserts := false })
  let s := if s.sched.active.isNone then s.enterFallback 2 else s
  s.sampleValues 1

/-- FRAME_BOUNDARY (R26): at t the sweep in ingest ends and the next begins, or the module enters RUN. -/
def execFrameBoundary (t : Nat) (s : State) : Out :=
  let s := (s.at t).quiet
  .next (if s.frame.run then (if t < s.frame.ing.end_ ∨ s.powerState = 6 then s else s.boundary)
    else
      let s := s.frameTimes
      if s.mayEnter t then s.runEnter t else s)

end Sys2Proof.Machine
end

