-- ==== Sys2Proof/Machine/Preempt.lean ====
section
/-! DEFINITION. The save of a pre-empted task (R217, R380). -/

namespace Sys2Proof.Machine

/-- A pre-emption request may take effect (R217): no chunk is running, replay-interrupted or open into the accumulator store (R208; log
entry 166), and the sequencer stands between instructions or waits in WAITK, AWAIT or FENCE. -/
def Core.mayPreempt (k : Core) (r : TaskRun) : Bool :=
  k.arr.running.isNone && k.arr.held.isNone && !k.arr.storeJobs.any (fun j => j.run == r) &&
  match k.seq.wait with
  | .none => true
  | .await => true
  | .fence => true
  | .waitk _ _ => true
  | _ => false

/-- A core after a save: started DMAs, verdicts, replays and merges go on, and the next task finds both banks invalid (R217). -/
def Core.afterSave (k : Core) : Core :=
  { k with
    seq := { (default : Seq) with dmaQ := k.seq.dmaQ }
    arr := { k.arr.fresh with cur := none } }

/-- The running task r, instance i, is saved into slot n of its partition (R217): 10,240 bytes in the save quads; what the layout does not hold
stays with the instance. -/
def State.saveTask (s : State) (c : Fin 16) (r : TaskRun) (i : Inst) (pr : PartRec) (n : Nat) : State :=
  let k := s.cores[c]
  let s := s.modPad c (fun p => p.write (pr.saveWin n) 0 (k.saveBytes r.part))
  let s := s.bump (odCore 0x6102 c 7)
  let s := s.bump (taskOd i.task 3)
  let s := s.noteRun i.task
  let s := s.modCore c Core.afterSave
  let s := s.modSched (fun x => { x with preemptAt := x.preemptAt.set c none })
  s.modInst i.task i.lcore (fun x => { x with
    state := .preempted, slot := some n, saved := some { k.seq with wait := .none, dmaQ := [] }, cur := k.arr.cur })

/-- PREEMPT_SAVE (R217, R380): where a request waits and may take effect, the running task is saved into its partition's lowest free slot and the
core decides again. -/
def execPreemptSave (c : Fin 16) (s : State) : Out :=
  .next (s.clocked (fun s =>
  match (s.cores[c]).seq.task, s.sched.runningOn c.val with
    | some r, some i =>
      if !((s.sched.preemptAt[c]).isSome && (s.cores[c]).mayPreempt r) then s
      else
        match s.sched.part r.part with
        | none => s
        | some pr =>
          match (List.range pr.slots).find? (fun n => !(s.sched.slotsUsed c.val r.part).contains n) with
          | none => s
          | some n => (s.saveTask c r i pr n).dispatch [c]
    | _, _ => s))

end Sys2Proof.Machine
end

