-- ==== Sys2Proof/Machine/Dispatch.lean ====
section
/-! DEFINITION. One arm per command: its meaning, called once, or the refusal by name while it has none. -/

namespace Sys2Proof.Machine

/-- The effect of a command on everything but the queue. -/
def exec (i : Instr) (s : State) : Host.Outcome State Fault Refusal :=
  match i with
  | .frameBoundary t => Sys2Proof.Machine.execFrameBoundary t s
  | .frameDeadline t => Sys2Proof.Machine.execFrameDeadline t s
  | .resultGateClose t => Sys2Proof.Machine.execResultGateClose t s
  | .recordLaunch t => Sys2Proof.Machine.execRecordLaunch t s
  | .resultGateReopen host ecc => Sys2Proof.Machine.execResultGateReopen host ecc s
  | .resultBodyPoll ecc t => Sys2Proof.Machine.execResultBodyPoll ecc t s
  | .recordStore t => Sys2Proof.Machine.execRecordStore t s
  | .sensFrameReceive p f t => Sys2Proof.Machine.execSensFrameReceive p f t s
  | .packetParseStart p e ecc => Sys2Proof.Machine.execPacketParseStart p e ecc s
  | .prsNop e w => Sys2Proof.Machine.execPrsNop e w s
  | .prsExt e w => Sys2Proof.Machine.execPrsExt e w s
  | .prsScl e w => Sys2Proof.Machine.execPrsScl e w s
  | .prsAdd e w => Sys2Proof.Machine.execPrsAdd e w s
  | .prsAddi e w => Sys2Proof.Machine.execPrsAddi e w s
  | .prsAnd e w => Sys2Proof.Machine.execPrsAnd e w s
  | .prsLut e w => Sys2Proof.Machine.execPrsLut e w s
  | .prsCvt e w => Sys2Proof.Machine.execPrsCvt e w s
  | .prsCvc e w => Sys2Proof.Machine.execPrsCvc e w s
  | .prsSet e w => Sys2Proof.Machine.execPrsSet e w s
  | .prsTsp e w => Sys2Proof.Machine.execPrsTsp e w s
  | .prsRng e w => Sys2Proof.Machine.execPrsRng e w s
  | .prsPls e w => Sys2Proof.Machine.execPrsPls e w s
  | .prsRej e w => Sys2Proof.Machine.execPrsRej e w s
  | .prsEmit e w => Sys2Proof.Machine.execPrsEmit e w s
  | .prsAdv e w => Sys2Proof.Machine.execPrsAdv e w s
  | .prsBr e w => Sys2Proof.Machine.execPrsBr e w s
  | .prsLoop e w => Sys2Proof.Machine.execPrsLoop e w s
  | .prsIdn e w => Sys2Proof.Machine.execPrsIdn e w s
  | .prsEnd e w => Sys2Proof.Machine.execPrsEnd e w s
  | .prsSwp e w => Sys2Proof.Machine.execPrsSwp e w s
  | .pointCompensate => Sys2Proof.Machine.execPointCompensate s
  | .cellInsert => Sys2Proof.Machine.execCellInsert s
  | .headLossTimeout p t => Sys2Proof.Machine.execHeadLossTimeout p t s
  | .accept by_ p v => Sys2Proof.Machine.execAccept by_ p v s
  | .calEvaluate frame ests => Sys2Proof.Machine.execCalEvaluate frame ests s
  | .lifeCounterStore t => Sys2Proof.Machine.execLifeCounterStore t s
  | .pose r => Sys2Proof.Machine.execPose r s
  | .runaheadResolve => Sys2Proof.Machine.execRunaheadResolve s
  | .runaheadWithdraw => Sys2Proof.Machine.execRunaheadWithdraw s
  | .runaheadReinsert => Sys2Proof.Machine.execRunaheadReinsert s
  | .ageEntry => Sys2Proof.Machine.execAgeEntry s
  | .snapRequest by_ v => Sys2Proof.Machine.execSnapRequest by_ v s
  | .snapshotComplete => Sys2Proof.Machine.execSnapshotComplete s
  | .cellRowExport set => Sys2Proof.Machine.execCellRowExport set s
  | .keyRecordExport set => Sys2Proof.Machine.execKeyRecordExport set s
  | .rulebookBuild rb copy => Sys2Proof.Machine.execRulebookBuild rb copy s
  | .segmentWrite rb copy owner => Sys2Proof.Machine.execSegmentWrite rb copy owner s
  | .firstResolutionReport cycles => Sys2Proof.Machine.execFirstResolutionReport cycles s
  | .speculativeBuild set copy results => Sys2Proof.Machine.execSpeculativeBuild set copy results s
  | .epochSquash epoch => Sys2Proof.Machine.execEpochSquash epoch s
  | .nop c w => Sys2Proof.Machine.execNop c w s
  | .add c w => Sys2Proof.Machine.execAdd c w s
  | .sub c w => Sys2Proof.Machine.execSub c w s
  | .and c w => Sys2Proof.Machine.execAnd c w s
  | .or c w => Sys2Proof.Machine.execOr c w s
  | .xor c w => Sys2Proof.Machine.execXor c w s
  | .shl c w => Sys2Proof.Machine.execShl c w s
  | .shr c w => Sys2Proof.Machine.execShr c w s
  | .sra c w => Sys2Proof.Machine.execSra c w s
  | .mul c w => Sys2Proof.Machine.execMul c w s
  | .min c w => Sys2Proof.Machine.execMin c w s
  | .max c w => Sys2Proof.Machine.execMax c w s
  | .addi c w => Sys2Proof.Machine.execAddi c w s
  | .andi c w => Sys2Proof.Machine.execAndi c w s
  | .ori c w => Sys2Proof.Machine.execOri c w s
  | .shli c w => Sys2Proof.Machine.execShli c w s
  | .shri c w => Sys2Proof.Machine.execShri c w s
  | .srai c w => Sys2Proof.Machine.execSrai c w s
  | .li c w => Sys2Proof.Machine.execLi c w s
  | .lih c w => Sys2Proof.Machine.execLih c w s
  | .cmp c w => Sys2Proof.Machine.execCmp c w s
  | .cmpi c w => Sys2Proof.Machine.execCmpi c w s
  | .plog c w => Sys2Proof.Machine.execPlog c w s
  | .br c w => Sys2Proof.Machine.execBr c w s
  | .loop c w => Sys2Proof.Machine.execLoop c w s
  | .jal c w => Sys2Proof.Machine.execJal c w s
  | .jr c w => Sys2Proof.Machine.execJr c w s
  | .tinfo c w cycles t => Sys2Proof.Machine.execTinfo c w cycles t s
  | .tend c w => Sys2Proof.Machine.execTend c w s
  | .tendComplete c => Sys2Proof.Machine.execTendComplete c s
  | .trap c w => Sys2Proof.Machine.execTrap c w s
  | .ld c w ecc => Sys2Proof.Machine.execLd c w ecc s
  | .st c w => Sys2Proof.Machine.execSt c w s
  | .aadd c w ecc => Sys2Proof.Machine.execAadd c w ecc s
  | .aswp c w ecc => Sys2Proof.Machine.execAswp c w ecc s
  | .tset c w => Sys2Proof.Machine.execTset c w s
  | .tget c w => Sys2Proof.Machine.execTget c w s
  | .wopen c w => Sys2Proof.Machine.execWopen c w s
  | .wclose c w => Sys2Proof.Machine.execWclose c w s
  | .winfo c w => Sys2Proof.Machine.execWinfo c w s
  | .amode c w => Sys2Proof.Machine.execAmode c w s
  | .amm c w => Sys2Proof.Machine.execAmm c w s
  | .adrain c w => Sys2Proof.Machine.execAdrain c w s
  | .await c w => Sys2Proof.Machine.execAwait c w s
  | .awaitComplete c => Sys2Proof.Machine.execAwaitComplete c s
  | .astat c w => Sys2Proof.Machine.execAstat c w s
  | .segh c w ecc => Sys2Proof.Machine.execSegh c w ecc s
  | .segr c w => Sys2Proof.Machine.execSegr c w s
  | .segmentSlotReturn c win => Sys2Proof.Machine.execSegmentSlotReturn c win s
  | .dmaCopy c w => Sys2Proof.Machine.execDmaCopy c w s
  | .dmaAdd c w => Sys2Proof.Machine.execDmaAdd c w s
  | .dmaConv c w => Sys2Proof.Machine.execDmaConv c w s
  | .dmaComplete c ecc => Sys2Proof.Machine.execDmaComplete c ecc s
  | .maskb c w => Sys2Proof.Machine.execMaskb c w s
  | .drep c w => Sys2Proof.Machine.execDrep c w s
  | .waitk c w => Sys2Proof.Machine.execWaitk c w s
  | .waitkResume c => Sys2Proof.Machine.execWaitkResume c s
  | .kget c w => Sys2Proof.Machine.execKget c w s
  | .ksub c w => Sys2Proof.Machine.execKsub c w s
  | .fence c w => Sys2Proof.Machine.execFence c w s
  | .fenceComplete c => Sys2Proof.Machine.execFenceComplete c s
  | .bar c w => Sys2Proof.Machine.execBar c w s
  | .tkrst c w => Sys2Proof.Machine.execTkrst c w s
  | .tkin c w ecc => Sys2Proof.Machine.execTkin c w ecc s
  | .topkListFinal c => Sys2Proof.Machine.execTopkListFinal c s
  | .tkout c w => Sys2Proof.Machine.execTkout c w s
  | .tkmrg c w => Sys2Proof.Machine.execTkmrg c w s
  | .arrayPassStart c ecc conflict ups => Sys2Proof.Machine.execArrayPassStart c ecc conflict ups s
  | .bulkLoad c ecc ups => Sys2Proof.Machine.execBulkLoad c ecc ups s
  | .rippleLoad c ecc ups => Sys2Proof.Machine.execRippleLoad c ecc ups s
  | .osDrain c => Sys2Proof.Machine.execOsDrain c s
  | .chunkVerdict c => Sys2Proof.Machine.execChunkVerdict c s
  | .mergeChunk c ecc => Sys2Proof.Machine.execMergeChunk c ecc s
  | .preemptSave c => Sys2Proof.Machine.execPreemptSave c s
  | .arrayRepairClear by_ v => Sys2Proof.Machine.execArrayRepairClear by_ v s
  | .msgWrite m hdr flit => Sys2Proof.Machine.execMsgWrite m hdr flit s
  | .msgAdd m hdr flit ecc => Sys2Proof.Machine.execMsgAdd m hdr flit ecc s
  | .msgRead m hdr ecc => Sys2Proof.Machine.execMsgRead m hdr ecc s
  | .msgRdata m hdr => Sys2Proof.Machine.execMsgRdata m hdr s
  | .msgAck m hdr => Sys2Proof.Machine.execMsgAck m hdr s
  | .msgNack m hdr => Sys2Proof.Machine.execMsgNack m hdr s
  | .msgCredit m hdr => Sys2Proof.Machine.execMsgCredit m hdr s
  | .msgReport m hdr flit => Sys2Proof.Machine.execMsgReport m hdr flit s
  | .msgA2aReq m hdr => Sys2Proof.Machine.execMsgA2aReq m hdr s
  | .msgA2aRow m hdr => Sys2Proof.Machine.execMsgA2aRow m hdr s
  | .msgTkm m hdr => Sys2Proof.Machine.execMsgTkm m hdr s
  | .msgTkmFinal m hdr => Sys2Proof.Machine.execMsgTkmFinal m hdr s
  | .msgBarArrive m hdr => Sys2Proof.Machine.execMsgBarArrive m hdr s
  | .msgBarRelease m hdr => Sys2Proof.Machine.execMsgBarRelease m hdr s
  | .msgReservedType m hdr => Sys2Proof.Machine.execMsgReservedType m hdr s
  | .requestTimeout stop tag t => Sys2Proof.Machine.execRequestTimeout stop tag t s
  | .scrubStep c quad ecc late => Sys2Proof.Machine.execScrubStep c quad ecc late s
  | .marchRequest by_ mask => Sys2Proof.Machine.execMarchRequest by_ mask s
  | .preservingTestRow c quad bank row faulty => Sys2Proof.Machine.execPreservingTestRow c quad bank row faulty s
  | .startupMarchTest bad => Sys2Proof.Machine.execStartupMarchTest bad s
  | .rowRepairClear by_ v => Sys2Proof.Machine.execRowRepairClear by_ v s
  | .wipeComplete => Sys2Proof.Machine.execWipeComplete s
  | .flush by_ q v => Sys2Proof.Machine.execFlush by_ q v s
  | .peerFrameReceive p f ecc => Sys2Proof.Machine.execPeerFrameReceive p f ecc s
  | .pfcPauseRepeat p cls => Sys2Proof.Machine.execPfcPauseRepeat p cls s
  | .pfcPauseReceive p prio quanta ecc => Sys2Proof.Machine.execPfcPauseReceive p prio quanta ecc s
  | .pfcPauseExpire p prio ecc => Sys2Proof.Machine.execPfcPauseExpire p prio ecc s
  | .peerAssemblyClose dev cls => Sys2Proof.Machine.execPeerAssemblyClose dev cls s
  | .ringPoll c table => Sys2Proof.Machine.execRingPoll c table s
  | .peonyLookup table => Sys2Proof.Machine.execPeonyLookup table s
  | .peonyUpdate table => Sys2Proof.Machine.execPeonyUpdate table s
  | .peonyWrite table => Sys2Proof.Machine.execPeonyWrite table s
  | .peonyRelease table => Sys2Proof.Machine.execPeonyRelease table s
  | .peonyApply table => Sys2Proof.Machine.execPeonyApply table s
  | .peonyFill table ecc => Sys2Proof.Machine.execPeonyFill table ecc s
  | .peonyStatusRecord table => Sys2Proof.Machine.execPeonyStatusRecord table s
  | .exchangeBatch table step_ => Sys2Proof.Machine.execExchangeBatch table step_ s
  | .build by_ table v => Sys2Proof.Machine.execBuild by_ table v s
  | .createShadow by_ table v => Sys2Proof.Machine.execCreateShadow by_ table v s
  | .seal by_ table v => Sys2Proof.Machine.execSeal by_ table v s
  | .switch by_ table v => Sys2Proof.Machine.execSwitch by_ table v s
  | .versionSwitch table => Sys2Proof.Machine.execVersionSwitch table s
  | .versionRetire table => Sys2Proof.Machine.execVersionRetire table s
  | .replicaPrepared table slot => Sys2Proof.Machine.execReplicaPrepared table slot s
  | .validation by_ table rec => Sys2Proof.Machine.execValidation by_ table rec s
  | .dramRead da n ecc t => Sys2Proof.Machine.execDramRead da n ecc t s
  | .dramWrite da data => Sys2Proof.Machine.execDramWrite da data s
  | .dramRefresh ctrl chan bank => Sys2Proof.Machine.execDramRefresh ctrl chan bank s
  | .patrolScrub ctrl line ecc t => Sys2Proof.Machine.execPatrolScrub ctrl line ecc t s
  | .dramControllerFail ctrl => Sys2Proof.Machine.execDramControllerFail ctrl s
  | .failureClear by_ v => Sys2Proof.Machine.execFailureClear by_ v s
  | .hyperramRead a n ecc0 ecc1 t => Sys2Proof.Machine.execHyperramRead a n ecc0 ecc1 t s
  | .hyperramWrite a data answers0 answers1 => Sys2Proof.Machine.execHyperramWrite a data answers0 answers1 s
  | .eventLogFlush ok => Sys2Proof.Machine.execEventLogFlush ok s
  | .schedule by_ comp => Sys2Proof.Machine.execSchedule by_ comp s
  | .scheduleActivate t => Sys2Proof.Machine.execScheduleActivate t s
  | .instanceRelease task lcore t => Sys2Proof.Machine.execInstanceRelease task lcore t s
  | .slotEntryBegin c slot => Sys2Proof.Machine.execSlotEntryBegin c slot s
  | .budgetOverrun task lcore t => Sys2Proof.Machine.execBudgetOverrun task lcore t s
  | .preemptLimitExpire c => Sys2Proof.Machine.execPreemptLimitExpire c s
  | .throttleUpdate t => Sys2Proof.Machine.execThrottleUpdate t s
  | .hollyhockEntry c slot => Sys2Proof.Machine.execHollyhockEntry c slot s
  | .goldenTestComplete c pass silent fault => Sys2Proof.Machine.execGoldenTestComplete c pass silent fault s
  | .foxgloveTestPair agreed => Sys2Proof.Machine.execFoxgloveTestPair agreed s
  | .checkListPoll copy ecc t => Sys2Proof.Machine.execCheckListPoll copy ecc t s
  | .copyCompare => Sys2Proof.Machine.execCopyCompare s
  | .plausibilityCheck => Sys2Proof.Machine.execPlausibilityCheck s
  | .verdictLate t => Sys2Proof.Machine.execVerdictLate t s
  | .marigoldSweep e0 e1 t => Sys2Proof.Machine.execMarigoldSweep e0 e1 t s
  | .marigoldLockstepMismatch t => Sys2Proof.Machine.execMarigoldLockstepMismatch t s
  | .marigoldSelfTest pass t => Sys2Proof.Machine.execMarigoldSelfTest pass t s
  | .marigoldBootList e0 e1 t => Sys2Proof.Machine.execMarigoldBootList e0 e1 t s
  | .supervisorKick t => Sys2Proof.Machine.execSupervisorKick t s
  | .watchdogTimeout t => Sys2Proof.Machine.execWatchdogTimeout t s
  | .faultLine security level => Sys2Proof.Machine.execFaultLine security level s
  | .launchLineToggle t => Sys2Proof.Machine.execLaunchLineToggle t s
  | .missingLaunch t => Sys2Proof.Machine.execMissingLaunch t s
  | .clockMonitor deviation => Sys2Proof.Machine.execClockMonitor deviation s
  | .faultNReadback low halvesAgree => Sys2Proof.Machine.execFaultNReadback low halvesAgree s
  | .forceFallback by_ v => Sys2Proof.Machine.execForceFallback by_ v s
  | .linkUp p => Sys2Proof.Machine.execLinkUp p s
  | .linkDown p => Sys2Proof.Machine.execLinkDown p s
  | .hostFrameReceive h f ecc t => Sys2Proof.Machine.execHostFrameReceive h f ecc t s
  | .arpRequest h f => Sys2Proof.Machine.execArpRequest h f s
  | .icmpEcho h f => Sys2Proof.Machine.execIcmpEcho h f s
  | .syncReceive p y => Sys2Proof.Machine.execSyncReceive p y s
  | .syncSend p t => Sys2Proof.Machine.execSyncSend p t s
  | .pdelayRequestSend p t => Sys2Proof.Machine.execPdelayRequestSend p t s
  | .pdelayRequestReceive p t => Sys2Proof.Machine.execPdelayRequestReceive p t s
  | .syncTimeout t => Sys2Proof.Machine.execSyncTimeout t s
  | .syncWaitExpire t => Sys2Proof.Machine.execSyncWaitExpire t s
  | .ppsOutRise t => Sys2Proof.Machine.execPpsOutRise t s
  | .ppsInEdge t => Sys2Proof.Machine.execPpsInEdge t s
  | .tc10SleepRequest => Sys2Proof.Machine.execTc10SleepRequest s
  | .tc10Wake => Sys2Proof.Machine.execTc10Wake s
  | .hapOpen r => Sys2Proof.Machine.execHapOpen r s
  | .hapClose r => Sys2Proof.Machine.execHapClose r s
  | .hapPing r => Sys2Proof.Machine.execHapPing r s
  | .hapRead r => Sys2Proof.Machine.execHapRead r s
  | .hapWrite r => Sys2Proof.Machine.execHapWrite r s
  | .hapDescribe r => Sys2Proof.Machine.execHapDescribe r s
  | .hapList r => Sys2Proof.Machine.execHapList r s
  | .blobRead r => Sys2Proof.Machine.execBlobRead r s
  | .blobBegin r => Sys2Proof.Machine.execBlobBegin r s
  | .blobSegment r => Sys2Proof.Machine.execBlobSegment r s
  | .blobEnd r => Sys2Proof.Machine.execBlobEnd r s
  | .blobAbort r => Sys2Proof.Machine.execBlobAbort r s
  | .blobTransferTimeout session t => Sys2Proof.Machine.execBlobTransferTimeout session t s
  | .blobSnapshotExpire session t => Sys2Proof.Machine.execBlobSnapshotExpire session t s
  | .unlockChallenge r => Sys2Proof.Machine.execUnlockChallenge r s
  | .unlockResponse r => Sys2Proof.Machine.execUnlockResponse r s
  | .lock r => Sys2Proof.Machine.execLock r s
  | .subscribe r => Sys2Proof.Machine.execSubscribe r s
  | .unsubscribe r => Sys2Proof.Machine.execUnsubscribe r s
  | .resultRead r => Sys2Proof.Machine.execResultRead r s
  | .eventNotify session t => Sys2Proof.Machine.execEventNotify session t s
  | .sessionTimeout session t => Sys2Proof.Machine.execSessionTimeout session t s
  | .srvClear by_ v => Sys2Proof.Machine.execSrvClear by_ v s
  | .updateGate by_ v => Sys2Proof.Machine.execUpdateGate by_ v s
  | .updateGateExpire t => Sys2Proof.Machine.execUpdateGateExpire t s
  | .activate by_ v t3 => Sys2Proof.Machine.execActivate by_ v t3 s
  | .discard by_ v => Sys2Proof.Machine.execDiscard by_ v s
  | .componentEffect t => Sys2Proof.Machine.execComponentEffect t s
  | .lcRequest by_ v => Sys2Proof.Machine.execLcRequest by_ v s
  | .heldTransitionRelease t => Sys2Proof.Machine.execHeldTransitionRelease t s
  | .vendorExpiry session t => Sys2Proof.Machine.execVendorExpiry session t s
  | .lockoutExpiry t => Sys2Proof.Machine.execLockoutExpiry t s
  | .attestNonce by_ nonce => Sys2Proof.Machine.execAttestNonce by_ nonce s
  | .attestQuoteReady session t => Sys2Proof.Machine.execAttestQuoteReady session t s
  | .authorityKeyWrite by_ which rec => Sys2Proof.Machine.execAuthorityKeyWrite by_ which rec s
  | .txSa by_ p rec => Sys2Proof.Machine.execTxSa by_ p rec s
  | .rxSa by_ p rec => Sys2Proof.Machine.execRxSa by_ p rec s
  | .tamperDetect t => Sys2Proof.Machine.execTamperDetect t s
  | .debugPortClose t => Sys2Proof.Machine.execDebugPortClose t s
  | .primroseBoot dir0 dir1 bad t => Sys2Proof.Machine.execPrimroseBoot dir0 dir1 bad t s
  | .supervisorStartTimeout t => Sys2Proof.Machine.execSupervisorStartTimeout t s
  | .recoveryHello t => Sys2Proof.Machine.execRecoveryHello t s
  | .recoveryBegin r => Sys2Proof.Machine.execRecoveryBegin r s
  | .recoverySegment r => Sys2Proof.Machine.execRecoverySegment r s
  | .recoveryEnd r => Sys2Proof.Machine.execRecoveryEnd r s
  | .recoveryTransferTimeout t => Sys2Proof.Machine.execRecoveryTransferTimeout t s
  | .doipVehicleIdentification r => Sys2Proof.Machine.execDoipVehicleIdentification r s
  | .doipVehicleAnnouncement h => Sys2Proof.Machine.execDoipVehicleAnnouncement h s
  | .doipRoutingActivation r => Sys2Proof.Machine.execDoipRoutingActivation r s
  | .doipAliveCheck r => Sys2Proof.Machine.execDoipAliveCheck r s
  | .doipEntityStatus r => Sys2Proof.Machine.execDoipEntityStatus r s
  | .doipPowerMode r => Sys2Proof.Machine.execDoipPowerMode r s
  | .doipGenericNack r => Sys2Proof.Machine.execDoipGenericNack r s
  | .doipDiagnosticMessage r => Sys2Proof.Machine.execDoipDiagnosticMessage r s
  | .diagnosticSessionControl r => Sys2Proof.Machine.execDiagnosticSessionControl r s
  | .ecuReset r => Sys2Proof.Machine.execEcuReset r s
  | .clearDiagnosticInformation r => Sys2Proof.Machine.execClearDiagnosticInformation r s
  | .readDtcInformation r => Sys2Proof.Machine.execReadDtcInformation r s
  | .readDataByIdentifier r => Sys2Proof.Machine.execReadDataByIdentifier r s
  | .securityAccessRequestSeed r => Sys2Proof.Machine.execSecurityAccessRequestSeed r s
  | .securityAccessSendKey r => Sys2Proof.Machine.execSecurityAccessSendKey r s
  | .routineControl r => Sys2Proof.Machine.execRoutineControl r s
  | .testerPresent r => Sys2Proof.Machine.execTesterPresent r s
  | .s3Timeout conn t => Sys2Proof.Machine.execS3Timeout conn t s
  | .supplyBandChange millivolts kl30 t => Sys2Proof.Machine.execSupplyBandChange millivolts kl30 t s
  | .highBandTimeout t => Sys2Proof.Machine.execHighBandTimeout t s
  | .powerFailure t => Sys2Proof.Machine.execPowerFailure t s
  | .wake t => Sys2Proof.Machine.execWake t s
  | .offDelayExpire t => Sys2Proof.Machine.execOffDelayExpire t s
  | .shutdownSaveTimeout t => Sys2Proof.Machine.execShutdownSaveTimeout t s
  | .pllLockFailure domain => Sys2Proof.Machine.execPllLockFailure domain s
  | .restart by_ v => Sys2Proof.Machine.execRestart by_ v s
  | .coreResetRelease trained t => Sys2Proof.Machine.execCoreResetRelease trained t s
  | .mainChannelReady t => Sys2Proof.Machine.execMainChannelReady t s
  | .mainNotReady t => Sys2Proof.Machine.execMainNotReady t s
  | .sensorSample temps power t => Sys2Proof.Machine.execSensorSample temps power t s
  | .marigoldDue t => Sys2Proof.Machine.execMarigoldDue t s
  | .marigoldRestartComplete ok t => Sys2Proof.Machine.execMarigoldRestartComplete ok t s
  | .kl15Change kl15 wake t => Sys2Proof.Machine.execKl15Change kl15 wake t s
  | .ppsOutFall t => Sys2Proof.Machine.execPpsOutFall t s
  | .pdelayResponseReceive p y => Sys2Proof.Machine.execPdelayResponseReceive p y s
  | .messageIntervalRequest p interval => Sys2Proof.Machine.execMessageIntervalRequest p interval s
  | .gateListIntervalEnd h ecc => Sys2Proof.Machine.execGateListIntervalEnd h ecc s
  | .cbResetTimeout vlan t => Sys2Proof.Machine.execCbResetTimeout vlan t s
  | .doipConnectionClose conn => Sys2Proof.Machine.execDoipConnectionClose conn s

end Sys2Proof.Machine
end

