-- ==== Sys2Proof/WellFormed.lean ====
section
/-! DEFINITION. Which commands are well formed: every operand fits the field the spec gives it. The meanings are total all the same. -/

namespace Sys2Proof

/-- The largest BLOB the heap can take (R357). -/
def blobMax : Nat := 116129792

/-- An instant of gPTP time in ns fits TIME80's 48 bits of seconds (R464). -/
def instantOk (t : Nat) : Bool := decide (t < 2 ^ 48 * 1000000000)

/-- A signed value of n bits. -/
def inBits (n : Nat) (v : Int) : Bool := decide (-(2 ^ (n - 1) : Nat) ≤ v ∧ v < (2 ^ (n - 1) : Nat))

/-- Who writes names a session by 32 bits (R484). -/
def Writer.wf (w : Writer) : Bool := decide (w.session < 2 ^ 32) && instantOk w.t

/-- A frame on a port has at least its addresses and EtherType (R442). -/
def RawFrame.wf (f : RawFrame) : Bool := decide (14 ≤ f.bytes.length)

/-- A fabric message's header fields have the widths of R270 and its data whole flits. -/
def Msg.wf (m : Msg) : Bool :=
  decide (m.ddev < 2 ^ 16 ∧ m.dstop < 25 ∧ m.sdev < 2 ^ 16 ∧ m.sstop < 25 ∧ m.part < 8 ∧ m.win < 8 ∧ m.gen < 256 ∧ m.len < 4 ∧ m.afmt < 4 ∧
    m.offset < 2 ^ 20 ∧ m.tag < 2 ^ 16 ∧ m.reason < 8 ∧ m.data.length % 32 = 0 ∧ m.data.length ≤ 128)

/-- A HAP header's fields have the widths of R484. -/
def HapReq.wf (r : HapReq) : Bool :=
  decide (r.srcIp < 2 ^ 32 ∧ r.srcPort < 2 ^ 16 ∧ r.version < 256 ∧ r.flags < 256 ∧ r.status < 256 ∧ r.session < 2 ^ 32 ∧ r.seq < 2 ^ 32 ∧
    r.length < 2 ^ 16 ∧ r.reserved < 2 ^ 16 ∧ r.body.length ≤ 1472) && instantOk r.t

/-- A DoIP or UDS request comes from an IPv4 address and port (R542). -/
def DoipReq.wf (r : DoipReq) : Bool := decide (r.srcIp < 2 ^ 32 ∧ r.srcPort < 2 ^ 16 ∧ r.version < 256) && instantOk r.t

/-- A recovery message's fields have the widths of R540. -/
def RecReq.wf (r : RecReq) : Bool :=
  decide (r.srcIp < 2 ^ 32 ∧ r.srcPort < 2 ^ 16 ∧ r.version < 256 ∧ r.seq < 2 ^ 32 ∧ r.offset < 2 ^ 32 ∧ r.data.length < 2 ^ 16) && instantOk r.t

/-- An estimate has six components (R587). -/
def CalEst.wf (e : CalEst) : Bool := e.want.length == 6 && decide (e.residual < 2 ^ 32)

/-- A Sync's interval is a signed byte (R453). -/
def SyncIn.wf (y : SyncIn) : Bool := instantOk y.masterNs && inBits 8 y.interval && instantOk y.t

/-- A command's operands fit their fields. -/
def Instr.wf (i : Instr) : Bool :=
  match i with
  | .frameBoundary t => instantOk t
  | .frameDeadline t => instantOk t
  | .resultGateClose t => instantOk t
  | .recordLaunch t => instantOk t
  | .resultGateReopen _ _ => true
  | .resultBodyPoll _ t => instantOk t
  | .recordStore t => instantOk t
  | .sensFrameReceive _ f t => f.wf && instantOk t
  | .packetParseStart _ _ _ => true
  | .prsNop _ _ => true
  | .prsExt _ _ => true
  | .prsScl _ _ => true
  | .prsAdd _ _ => true
  | .prsAddi _ _ => true
  | .prsAnd _ _ => true
  | .prsLut _ _ => true
  | .prsCvt _ _ => true
  | .prsCvc _ _ => true
  | .prsSet _ _ => true
  | .prsTsp _ _ => true
  | .prsRng _ _ => true
  | .prsPls _ _ => true
  | .prsRej _ _ => true
  | .prsEmit _ _ => true
  | .prsAdv _ _ => true
  | .prsBr _ _ => true
  | .prsLoop _ _ => true
  | .prsIdn _ _ => true
  | .prsEnd _ _ => true
  | .prsSwp _ _ => true
  | .pointCompensate => true
  | .cellInsert => true
  | .headLossTimeout _ t => instantOk t
  | .accept by_ _ _ => by_.wf
  | .calEvaluate frame ests => decide (frame < 2 ^ 32) && ests.all CalEst.wf
  | .lifeCounterStore t => instantOk t
  | .pose r => r.wf
  | .runaheadResolve => true
  | .runaheadWithdraw => true
  | .runaheadReinsert => true
  | .ageEntry => true
  | .snapRequest by_ _ => by_.wf
  | .snapshotComplete => true
  | .cellRowExport _ => true
  | .keyRecordExport _ => true
  | .rulebookBuild _ _ => true
  | .segmentWrite _ _ _ => true
  | .firstResolutionReport cycles => decide (cycles < 2 ^ 32)
  | .speculativeBuild _ _ _ => true
  | .epochSquash _ => true
  | .nop _ _ => true
  | .add _ _ => true
  | .sub _ _ => true
  | .and _ _ => true
  | .or _ _ => true
  | .xor _ _ => true
  | .shl _ _ => true
  | .shr _ _ => true
  | .sra _ _ => true
  | .mul _ _ => true
  | .min _ _ => true
  | .max _ _ => true
  | .addi _ _ => true
  | .andi _ _ => true
  | .ori _ _ => true
  | .shli _ _ => true
  | .shri _ _ => true
  | .srai _ _ => true
  | .li _ _ => true
  | .lih _ _ => true
  | .cmp _ _ => true
  | .cmpi _ _ => true
  | .plog _ _ => true
  | .br _ _ => true
  | .loop _ _ => true
  | .jal _ _ => true
  | .jr _ _ => true
  | .tinfo _ _ cycles t => decide (cycles < 2 ^ 64) && instantOk t
  | .tend _ _ => true
  | .tendComplete _ => true
  | .trap _ _ => true
  | .ld _ _ _ => true
  | .st _ _ => true
  | .aadd _ _ _ => true
  | .aswp _ _ _ => true
  | .tset _ _ => true
  | .tget _ _ => true
  | .wopen _ _ => true
  | .wclose _ _ => true
  | .winfo _ _ => true
  | .amode _ _ => true
  | .amm _ _ => true
  | .adrain _ _ => true
  | .await _ _ => true
  | .awaitComplete _ => true
  | .astat _ _ => true
  | .segh _ _ _ => true
  | .segr _ _ => true
  | .segmentSlotReturn _ _ => true
  | .dmaCopy _ _ => true
  | .dmaAdd _ _ => true
  | .dmaConv _ _ => true
  | .dmaComplete _ _ => true
  | .maskb _ _ => true
  | .drep _ _ => true
  | .waitk _ _ => true
  | .waitkResume _ => true
  | .kget _ _ => true
  | .ksub _ _ => true
  | .fence _ _ => true
  | .fenceComplete _ => true
  | .bar _ _ => true
  | .tkrst _ _ => true
  | .tkin _ _ _ => true
  | .topkListFinal _ => true
  | .tkout _ _ => true
  | .tkmrg _ _ => true
  | .arrayPassStart _ _ _ _ => true
  | .bulkLoad _ _ _ => true
  | .rippleLoad _ _ _ => true
  | .osDrain _ => true
  | .chunkVerdict _ => true
  | .mergeChunk _ _ => true
  | .preemptSave _ => true
  | .arrayRepairClear by_ _ => by_.wf
  | .msgWrite m _ _ => m.wf
  | .msgAdd m _ _ _ => m.wf
  | .msgRead m _ _ => m.wf
  | .msgRdata m _ => m.wf
  | .msgAck m _ => m.wf
  | .msgNack m _ => m.wf
  | .msgCredit m _ => m.wf
  | .msgReport m _ _ => m.wf
  | .msgA2aReq m _ => m.wf
  | .msgA2aRow m _ => m.wf
  | .msgTkm m _ => m.wf
  | .msgTkmFinal m _ => m.wf
  | .msgBarArrive m _ => m.wf
  | .msgBarRelease m _ => m.wf
  | .msgReservedType m _ => m.wf
  | .requestTimeout _ tag t => decide (tag < 2 ^ 16) && instantOk t
  | .scrubStep _ _ _ _ => true
  | .marchRequest by_ _ => by_.wf
  | .preservingTestRow _ _ _ _ _ => true
  | .startupMarchTest _ => true
  | .rowRepairClear by_ _ => by_.wf
  | .wipeComplete => true
  | .flush by_ _ _ => by_.wf
  | .peerFrameReceive _ f _ => f.wf
  | .pfcPauseRepeat _ _ => true
  | .pfcPauseReceive _ _ quanta _ => decide (quanta < 2 ^ 16)
  | .pfcPauseExpire _ _ _ => true
  | .peerAssemblyClose dev _ => decide (dev < 2 ^ 16)
  | .ringPoll _ _ => true
  | .peonyLookup _ => true
  | .peonyUpdate _ => true
  | .peonyWrite _ => true
  | .peonyRelease _ => true
  | .peonyApply _ => true
  | .peonyFill _ _ => true
  | .peonyStatusRecord _ => true
  | .exchangeBatch _ step_ => decide (step_ < 2 ^ 32)
  | .build by_ _ _ => by_.wf
  | .createShadow by_ _ _ => by_.wf
  | .seal by_ _ _ => by_.wf
  | .switch by_ _ _ => by_.wf
  | .versionSwitch _ => true
  | .versionRetire _ => true
  | .replicaPrepared _ _ => true
  | .validation by_ _ rec => by_.wf && decide (rec.length ≤ blobMax)
  | .dramRead da n _ t => decide (da + n ≤ 2 ^ 36) && decide (1 ≤ n) && instantOk t
  | .dramWrite da data => decide (da + data.length ≤ 2 ^ 36) && !data.isEmpty
  | .dramRefresh _ _ _ => true
  | .patrolScrub _ line _ t => decide (line < 2 ^ 30) && instantOk t
  | .dramControllerFail _ => true
  | .failureClear by_ _ => by_.wf
  | .hyperramRead a n _ _ t => decide (a + n ≤ 2 ^ 24) && decide (1 ≤ n) && instantOk t
  | .hyperramWrite a data _ _ => decide (a + data.length ≤ 2 ^ 24) && !data.isEmpty
  | .eventLogFlush _ => true
  | .schedule by_ comp => by_.wf && decide (comp.length ≤ blobMax)
  | .scheduleActivate t => instantOk t
  | .instanceRelease _ _ t => instantOk t
  | .slotEntryBegin _ slot => decide (slot < 20000)
  | .budgetOverrun _ _ t => instantOk t
  | .preemptLimitExpire _ => true
  | .throttleUpdate t => instantOk t
  | .hollyhockEntry _ slot => decide (slot < 20000)
  | .goldenTestComplete _ _ _ _ => true
  | .foxgloveTestPair _ => true
  | .checkListPoll _ _ t => instantOk t
  | .copyCompare => true
  | .plausibilityCheck => true
  | .verdictLate t => instantOk t
  | .marigoldSweep _ _ t => instantOk t
  | .marigoldLockstepMismatch t => instantOk t
  | .marigoldSelfTest _ t => instantOk t
  | .marigoldBootList _ _ t => instantOk t
  | .supervisorKick t => instantOk t
  | .watchdogTimeout t => instantOk t
  | .faultLine _ _ => true
  | .launchLineToggle t => instantOk t
  | .missingLaunch t => instantOk t
  | .clockMonitor deviation => decide (deviation < 2 ^ 32)
  | .faultNReadback _ _ => true
  | .forceFallback by_ _ => by_.wf
  | .linkUp _ => true
  | .linkDown _ => true
  | .hostFrameReceive _ f _ t => f.wf && instantOk t
  | .arpRequest _ f => f.wf
  | .icmpEcho _ f => f.wf
  | .syncReceive _ y => y.wf
  | .syncSend _ t => instantOk t
  | .pdelayRequestSend _ t => instantOk t
  | .pdelayRequestReceive _ t => instantOk t
  | .syncTimeout t => instantOk t
  | .syncWaitExpire t => instantOk t
  | .ppsOutRise t => instantOk t
  | .ppsInEdge t => instantOk t
  | .tc10SleepRequest => true
  | .tc10Wake => true
  | .hapOpen r => r.wf
  | .hapClose r => r.wf
  | .hapPing r => r.wf
  | .hapRead r => r.wf
  | .hapWrite r => r.wf
  | .hapDescribe r => r.wf
  | .hapList r => r.wf
  | .blobRead r => r.wf
  | .blobBegin r => r.wf
  | .blobSegment r => r.wf
  | .blobEnd r => r.wf
  | .blobAbort r => r.wf
  | .blobTransferTimeout session t => decide (session < 2 ^ 32) && instantOk t
  | .blobSnapshotExpire session t => decide (session < 2 ^ 32) && instantOk t
  | .unlockChallenge r => r.wf
  | .unlockResponse r => r.wf
  | .lock r => r.wf
  | .subscribe r => r.wf
  | .unsubscribe r => r.wf
  | .resultRead r => r.wf
  | .eventNotify session t => decide (session < 2 ^ 32) && instantOk t
  | .sessionTimeout session t => decide (session < 2 ^ 32) && instantOk t
  | .srvClear by_ _ => by_.wf
  | .updateGate by_ _ => by_.wf
  | .updateGateExpire t => instantOk t
  | .activate by_ _ _ => by_.wf
  | .discard by_ _ => by_.wf
  | .componentEffect t => instantOk t
  | .lcRequest by_ _ => by_.wf
  | .heldTransitionRelease t => instantOk t
  | .vendorExpiry session t => decide (session < 2 ^ 32) && instantOk t
  | .lockoutExpiry t => instantOk t
  | .attestNonce by_ nonce => by_.wf && decide (nonce.length ≤ blobMax)
  | .attestQuoteReady session t => decide (session < 2 ^ 32) && instantOk t
  | .authorityKeyWrite by_ _ rec => by_.wf && decide (rec.length ≤ blobMax)
  | .txSa by_ _ rec => by_.wf && decide (rec.length ≤ blobMax)
  | .rxSa by_ _ rec => by_.wf && decide (rec.length ≤ blobMax)
  | .tamperDetect t => instantOk t
  | .debugPortClose t => instantOk t
  | .primroseBoot _ _ bad t => bad.all (fun x => decide (x.1 < 65536 ∧ x.2 < 256)) && instantOk t
  | .supervisorStartTimeout t => instantOk t
  | .recoveryHello t => instantOk t
  | .recoveryBegin r => r.wf
  | .recoverySegment r => r.wf
  | .recoveryEnd r => r.wf
  | .recoveryTransferTimeout t => instantOk t
  | .doipVehicleIdentification r => r.wf
  | .doipVehicleAnnouncement _ => true
  | .doipRoutingActivation r => r.wf
  | .doipAliveCheck r => r.wf
  | .doipEntityStatus r => r.wf
  | .doipPowerMode r => r.wf
  | .doipGenericNack r => r.wf
  | .doipDiagnosticMessage r => r.wf
  | .diagnosticSessionControl r => r.wf
  | .ecuReset r => r.wf
  | .clearDiagnosticInformation r => r.wf
  | .readDtcInformation r => r.wf
  | .readDataByIdentifier r => r.wf
  | .securityAccessRequestSeed r => r.wf
  | .securityAccessSendKey r => r.wf
  | .routineControl r => r.wf
  | .testerPresent r => r.wf
  | .s3Timeout _ t => instantOk t
  | .supplyBandChange millivolts _ t => decide (-100000 ≤ millivolts ∧ millivolts ≤ 100000) && instantOk t
  | .highBandTimeout t => instantOk t
  | .powerFailure t => instantOk t
  | .wake t => instantOk t
  | .offDelayExpire t => instantOk t
  | .shutdownSaveTimeout t => instantOk t
  | .pllLockFailure _ => true
  | .restart by_ _ => by_.wf
  | .coreResetRelease _ t => instantOk t
  | .mainChannelReady t => instantOk t
  | .mainNotReady t => instantOk t
  | .sensorSample temps power t => temps.length == 23 && temps.all (inBits 16) && decide (power < 2 ^ 32) && instantOk t
  | .marigoldDue t => instantOk t
  | .marigoldRestartComplete _ t => instantOk t
  | .kl15Change _ _ t => instantOk t
  | .ppsOutFall t => instantOk t
  | .pdelayResponseReceive _ y => instantOk y.t1 && instantOk y.t2 && instantOk y.t3 && instantOk y.t4
  | .messageIntervalRequest _ interval => inBits 8 interval
  | .gateListIntervalEnd _ _ => true
  | .cbResetTimeout vlan t => decide (vlan < 4095) && instantOk t
  | .doipConnectionClose _ => true

end Sys2Proof
end

