-- ==== Sys2Proof/Safety.lean ====
section
/-! DEFINITION. The terms in which statements are made: when a unit is ready to do its work, and the invariants of the module. -/

namespace Sys2Proof.Machine

/-! When a unit does its work. -/

/-- The clocks CD00 to CD17 run (R548). -/
abbrev State.runs (s : State) : Prop := s.power.holdAt = none

/-- Core `c` issues an instruction of task `r` (R193-R195, R216, R548): nothing is waited for, its clock runs and the PC lies in w0. -/
abbrev State.issues (s : State) (c : Fin 16) (r : TaskRun) : Prop :=
  (s.cores[c]).seq.task = some r ∧ (s.cores[c]).seq.wait = .none ∧ (s.cores[c]).frozen = false ∧ s.runs ∧
    s.pcOk c r.part (s.cores[c]).seq.pc = true

/-- Core `c` fetches the instruction word `w` of the row with opcode `op` (R194): the word at the PC can be read and is one of the row. For
DMA the operation stands above the opcode in `op`. -/
abbrev State.fetches (s : State) (c : Fin 16) (r : TaskRun) (op : Nat) (w : BitVec 56) : Prop :=
  let n := s.fetched c r.part (s.cores[c]).seq.pc
  s.issues c r ∧ (s.cores[c]).pad.firstBad ((s.cores[c]).pad.win r.part 0) (s.cores[c]).seq.pc 8 = none ∧
    isRow op n = true ∧ opReserved n = false ∧ n % 2 ^ 56 = w.toNat

/-- Core `c` executes the instruction word `w` of the row with opcode `op` and the given fields (R194, R195): it fetches the word, its unused
bits are zero and its guard lets it run. -/
abbrev State.executes (s : State) (c : Fin 16) (r : TaskRun) (op : Nat) (w : BitVec 56) (h : Shape) : Prop :=
  s.fetches c r op w ∧ h.ok w.toNat = true ∧ (s.cores[c]).seq.guardOk w.toNat = true

/-- The PC of core `c`. -/
def State.pcAt (s : State) (c : Fin 16) : Nat := (s.cores[c]).seq.pc

/-- Field A of an instruction word (R194). -/
def fieldA (w : BitVec 56) : Nat := bitsOf w.toNat 51 46
/-- Field B. -/
def fieldB (w : BitVec 56) : Nat := bitsOf w.toNat 45 41
/-- Field C. -/
def fieldC (w : BitVec 56) : Nat := bitsOf w.toNat 40 36
/-- Field D. -/
def fieldD (w : BitVec 56) : Nat := bitsOf w.toNat 35 32
/-- Field I. -/
def fieldImm (w : BitVec 56) : Nat := bitsOf w.toNat 31 0

/-- Engine `e` executes the instruction with opcode `op` and operand bits `w` at which it stands (R55, R57, R59, R548). -/
abbrev State.parses (s : State) (e : Fin 16) (op : Nat) (w : BitVec 27) : Prop :=
  (s.engine e).busy = true ∧ (s.engine e).count < 16384 ∧ s.runs ∧ (s.engine e).fetches op w = true

/-- The word after the one an engine stands at is within its program too (R59). -/
abbrev State.parsesOn (s : State) (e : Fin 16) (op : Nat) (w : BitVec 27) : Prop :=
  s.parses e op w ∧ (s.engine e).pc + 1 < (s.engine e).words.length

/-- An engine that has executed one more instruction and stands at word `pc`. -/
def Engine.at (x : Engine) (pc : Nat) : Engine := { x with pc := pc, count := x.count + 1 }

/-- An engine that goes on with the next word. -/
def Engine.next (x : Engine) : Engine := x.at (x.pc + 1)

/-- A write of a command object passes what every such write is tested for (R476, R477, R486, R525). -/
abbrev State.accepts (s : State) (w : Writer) (idx sub : Nat) (v : OdVal) : Prop := s.mayCommand w idx sub v = true

/-- The rows of the sequencer (R201-R204) with their opcodes (for DMA the operation in the bits above) and the fields each uses (R195), on core
`c` with the word `w`; `e` is what the check bits of the words read say. TINFO carries an instant as well and is not listed. -/
def seqRows (c : Fin 16) (w : BitVec 56) (e : Finds) : List (Instr × Nat × Shape) :=
  let three : Shape := { a := 31, b := 31, c := 31 }
  let imm : Shape := { a := 31, b := 31, i := 0xFFFFFFFF }
  let shift : Shape := { a := 31, b := 31, i := 63 }
  [(.nop c w, 0x00, { a := 0 }), (.add c w, 0x01, three), (.sub c w, 0x02, three), (.and c w, 0x03, three), (.or c w, 0x04, three), (.xor c w, 0x05, three), (.shl c w, 0x06, three),
   (.shr c w, 0x07, three), (.sra c w, 0x08, three), (.mul c w, 0x09, three), (.min c w, 0x0A, three), (.max c w, 0x0B, three), (.addi c w, 0x10, imm), (.andi c w, 0x11, imm),
   (.ori c w, 0x12, imm), (.shli c w, 0x13, shift), (.shri c w, 0x14, shift), (.srai c w, 0x15, shift)] ++
  [(.li c w, 0x16, { a := 31, i := 0xFFFFFFFF }), (.lih c w, 0x17, { a := 31, i := 0xFFFFFFFF }),
   (.cmp c w, 0x18, { a := 3, b := 31, c := 31, d := 15, dmax := 5 }), (.cmpi c w, 0x19, { a := 3, b := 31, d := 15, i := 0xFFFFFFFF, dmax := 5 }),
   (.plog c w, 0x1A, { a := 3, b := 3, c := 3, d := 15, dmax := 3 }), (.br c w, 0x30, { i := 0xFFFFFFFF }), (.loop c w, 0x31, { b := 31, i := 0xFFFFFFFF }),
   (.jal c w, 0x32, { a := 31, i := 0xFFFFFFFF }), (.jr c w, 0x33, { b := 31 }), (.tend c w, 0x71, { a := 0 }), (.trap c w, 0x72, { i := 0xFFFFFFFF })] ++
  [(.ld c w e, 0x20, { a := 31, b := 31, c := 7, d := 7, i := 0xFFFFFFFF }), (.st c w, 0x21, { a := 31, b := 31, c := 7, d := 3, i := 0xFFFFFFFF }),
   (.aadd c w e, 0x22, { a := 31, b := 31, c := 31, d := 1, i := 7 }), (.aswp c w e, 0x23, { a := 31, b := 31, c := 31, d := 1, i := 7 }),
   (.tset c w, 0x38, { a := 7, b := 31, d := 7 }), (.tget c w, 0x39, { a := 31, c := 7, d := 7 }),
   (.wopen c w, 0x3C, { a := 7, b := 31, c := 31, d := 3 }), (.wclose c w, 0x3D, { a := 7 }), (.winfo c w, 0x3E, { a := 31, c := 7 })] ++
  [(.amode c w, 0x40, { b := 31 }), (.amm c w, 0x41, { a := 63, b := 31, d := 7 }), (.adrain c w, 0x42, { b := 31, d := 7 }), (.await c w, 0x43, { a := 0 }),
   (.astat c w, 0x44, { a := 31 }), (.segh c w e, 0x48, { a := 31, b := 31, c := 7 }), (.segr c w, 0x49, { c := 7 }),
   (.dmaCopy c w, 0x50, { a := 63, b := 31, c := 7, d := 11, i := 7 }), (.dmaAdd c w, 0x150, { a := 63, b := 31, c := 7, d := 11, i := 7 }),
   (.dmaConv c w, 0x250, { a := 63, b := 31, c := 7, d := 11, i := 7 }), (.maskb c w, 0x51, { a := 63, b := 31, c := 7, d := 8, i := 0x1F07 }),
   (.drep c w, 0x52, { a := 31, b := 31, i := 7 })] ++
  [(.waitk c w, 0x58, { a := 63, b := 31 }), (.kget c w, 0x59, { a := 63, c := 31 }), (.ksub c w, 0x5A, { a := 63, b := 31 }), (.fence c w, 0x5B, { a := 0 }),
   (.bar c w, 0x5C, { b := 31 }), (.tkrst c w, 0x60, { b := 31, c := 31, d := 15, i := 1 }), (.tkin c w e, 0x61, { c := 7 }),
   (.tkout c w, 0x62, { a := 31, b := 31, c := 7 }), (.tkmrg c w, 0x63, { b := 31 })]

/-- A message comes to its stop and is taken there: CD16 runs, and where the fabric holds the message it is brought there before anything else of
its class (R266-R268, R548). -/
abbrev State.lands (s : State) (ty : Nat) (m : Msg) : Prop := s.runs ∧ (s.deliverMsg ty m).2 = true

/-- The message has left the fabric; what moved there meanwhile has moved. -/
def State.landed (s : State) (ty : Nat) (m : Msg) : State := (s.deliverMsg ty m).1

/-- A cause of SAFE has put the module in SAFE (R427, R429): the cause is shown, and where it is the first, the state is SAFE and nothing is
dispatched any more. -/
abbrev State.madeSafe (s t : State) (cause : Nat) : Prop :=
  bitAt (t.num (od 0xA000 0x0A)) cause = true ∧
    (s.num (od 0xA000 0x0A) = 0 → t.num (od 0xA000 2) = 3 ∧ t.sched.running_ = false)

/-! Requests of a session. -/

/-- The module serves a request of session `x` (R484, R488, R525): well-formed, in sequence, no read of it waits, not DECOMMISSIONED. -/
abbrev State.serves (s : State) (r : HapReq) (x : Session) : Prop :=
  s.power.supervisor = true ∧ hapBad r = false ∧ s.session r.session = some x ∧ x.waitRead = none ∧ (r.seq = x.lastSeq → x.reply = []) ∧
    r.seq = (x.lastSeq + 1) % 2 ^ 32 ∧ s.sec.effective ≠ 6

/-- The state in which a served request is executed (R488, R490): its number is taken, the session's silence ends, it is counted. -/
def State.taken (s : State) (r : HapReq) : State :=
  ((s.at r.t).quiet.modSession r.session (fun x =>
    { x with lastTime := Nat.max s.frame.now r.t, lastSeq := r.seq, reply := [] })).bump (od 0x1B00 0x0A)

/-- `t` is `s` after a served request has been answered: status and body, and the reply kept for a repeat (R488). -/
abbrev State.answered (s t : State) (r : HapReq) (op st : Nat) (body : Bytes) : Prop :=
  t.hap.lastStatus = st ∧ t.hap.lastReply = body ∧
    (t.session r.session).any (fun y => y.lastSeq == r.seq && y.reply == hapMsg op 1 st r.session r.seq body &&
      y.lastTime == Nat.max s.frame.now r.t) = true

/-- A session of `t` as `p` says. -/
abbrev State.sessionHas (t : State) (id : Nat) (p : Session → Bool) : Prop := (t.session id).any p = true

/-- A frame of class 0 leaves a HOST port at once (R443, R446, R447, R450): the link is up, the gate of class 0 is open and stays so, no frame
waits, class 0 has no idle slope, and the port sends without MACsec. -/
abbrev State.lineReady (s : State) (h : Fin 2) : Prop :=
  s.net.link (hostPort h) = true ∧ s.gateOpen h 0 = true ∧ s.listCloses h 0 = none ∧ s.windowCloses = none ∧
    s.idleSlope h 0 = 0 ∧ (s.net.host[h]).waiting = [] ∧ (s.net.host[h]).held = [] ∧ s.flag (netOd (hostPort h) 0x0D) = false

/-- A diagnostic reply to an address leaves on a HOST port at once: the port can send it, and the address has its pair (R443). -/
abbrev State.canReply (s : State) (h : Fin 2) (ip : Nat) : Prop := s.lineReady h ∧ (s.macFor h ip).isSome = true

/-- The command has sent exactly these DoIP messages to a request's source. -/
abbrev State.replied (t : State) (r : DoipReq) (ms : List (Nat × Bytes)) : Prop :=
  t.net.sent.map (fun f => (f.port, f.dstIp, f.sport, f.dport, f.payload)) =
    ms.map (fun m => (hostPort r.host, r.srcIp, 13400, r.srcPort, doipMsg (doipVersion r) m.1 m.2))

/-- The command has sent exactly this UDS answer to the tester of a routed connection. -/
abbrev State.udsAnswered (t : State) (r : DoipReq) (tester : Nat) (b : Bytes) : Prop :=
  t.replied r [(0x8001, natBe 2 doipAddress ++ natBe 2 tester ++ b)]

/-! Starting and stopping. -/

/-- The module has restarted under a cause of R557: it is in BOOT (SAFE at once in DECOMMISSIONED), outside RUN, with no session, and neither
Primrose nor the supervisor has done anything yet. -/
abbrev State.startsAgain (s t : State) (cause : Nat) : Prop :=
  t.num (od 0xE000 7) = cause ∧ t.frame.run = false ∧ t.hap.sessions = [] ∧ t.power.booted = false ∧ t.power.supervisor = false ∧
    t.sec.debugOpen = false ∧ (s.sec.base ≠ 6 → t.powerState = 2)

/-- SHUTDOWN has begun (R553): a supervisor that saves has saved and the rails are cut; otherwise the module stays in SHUTDOWN. -/
abbrev State.shutsDown (s t : State) : Prop :=
  (s.saves = true → t.powerState = (if s.band < 2 ∨ s.band = 6 then 0 else 1) ∧ t.frame.run = false) ∧
    (s.saves = false → t.powerState = 6 ∧ t.power.shutAt.isSome = true ∧ t.safety.foxAsserts = true ∧ t.sched.running_ = false)

/-! Invariants. -/

/-- An engine's v0 holds zero, and an engine at work stands within its program and has executed at most 16,384 instructions (R55, R59). -/
def Engine.wf (x : Engine) : Bool :=
  x.regs[(0 : Fin 16)] == 0 && (!x.busy || decide (x.pc < x.words.length ∧ x.count ≤ 16384))

/-- Every parser engine is as R55 and R59 keep it. -/
def State.enginesWf (s : State) : Prop := ∀ e : Fin 16, (s.engine e).wf = true

/-- DRAM, HyperRAM and every scratchpad are in canonical form. -/
def State.memoriesWf (s : State) : Prop :=
  Memory.wf s.ext.dram = true ∧ Memory.wf s.ext.hyper = true ∧ ∀ c : Fin 16, Memory.wf (s.cores[c]).pad.mem = true

/-- Foxglove asserts FAULT_N whenever the module is in SAFE or off (R427, R553). -/
def State.faultShown (s : State) : Prop := (s.num (od 0xA000 2) = 3 ∨ s.powerState < 2) → s.faultN = true

end Sys2Proof.Machine
end

