-- ==== Sys2Proof/Certificates/Slice0/Obligations.lean ====
section
/-! DEFINITION. The statements for the provers, one Prop each; OBLIGATIONS.json lists them. `r`, `w`, `c` and `e` in them are a task, an
instruction word, a core and an engine; `∃ t, exec … = .next t ∧ …` says that the command completes and what then holds. -/

open Sys2Proof Sys2Proof.Machine

/-! The queue, reset and the invariants. -/

/-- Tier 1. A step runs the command at the front of the queue, with the queue's rest, and answers its outcome; with nothing waiting the
block idles, and no time-driven effect happens without its command (idling is the model's choice, log entry 1). -/
def Obligations.StepRunsFrontCommand : Prop :=
  (∀ (c : Instr) (s : State), step { s with pending := c :: s.pending } = exec c s) ∧
  (∀ s : State, s.pending = [] → step s = .next s)

/-- Tier 1. Right after reset: no command waits, the module is in BOOT, no session is open, no head has left UNUSED, every engine is idle,
no core runs a task, every window is closed and every scratchpad byte reads zero (R223), no frame is in flight (R27) and XOFF_N is
released. It holds the model to its readings of log entries 5, 13. -/
def Obligations.ResetLeaves : Prop :=
  let s := State.reset
  s.pending = [] ∧ s.powerState = 2 ∧ s.hap.sessions = [] ∧ s.frame.run = false ∧ s.frame.ing.n = 0 ∧ s.frame.comp.n = 0 ∧
  s.ing.xoff = false ∧ s.log.seq = 0 ∧
  (∀ p : Fin 8, (s.head p).state = .unused) ∧
  (∀ e : Fin 16, (s.engine e).busy = false) ∧
  (∀ c : Fin 16, (s.cores[c]).seq.task = none ∧ (s.cores[c]).seq.wait = .none) ∧
  (∀ (c : Fin 16) (p w : Nat), ((s.cores[c]).pad.win p w).isOpen = false) ∧
  (∀ (c : Fin 16) (a : Nat), (s.cores[c]).pad.mem.rd a = 0)

/-- Tier 1. The invariants of the module hold right after reset. -/
def Obligations.ResetMeetsInvariants : Prop :=
  State.reset.enginesWf ∧ State.reset.memoriesWf

/-- Tier 3. Whatever command a step takes, every parser engine stays as R55 and R59 keep it: v0 reads zero, and an engine at work stands
within its program and has executed at most 16,384 instructions of its packet. -/
def Obligations.EveryStepKeepsEngines : Prop :=
  ∀ s t : State, s.enginesWf → s.memoriesWf → step s = .next t → t.enginesWf

/-- Tier 3. Whatever command a step takes, DRAM, HyperRAM and all sixteen scratchpads stay in canonical form. It holds the model to its
reading of log entry 3. -/
def Obligations.EveryStepKeepsMemories : Prop :=
  ∀ s t : State, s.enginesWf → s.memoriesWf → step s = .next t → t.memoriesWf

/-- Tier 2. Every command of every row completes, in whatever state that meets the invariants: it answers a next state, and its effect does
not touch the queue of waiting commands. -/
def Obligations.NoEffectTouchesTheQueue : Prop :=
  ∀ (i : Instr) (s : State), s.enginesWf → s.memoriesWf → ∃ t, exec i s = .next t ∧ t.pending = s.pending

/-- Tier 2. While the supply band holds the module, CD00 to CD17 stand (R548): no command of a sequencer, an array, a scratchpad, a parser
engine or the cell pipeline changes anything. -/
def Obligations.HoldStopsTheUnits : Prop :=
  ∀ s : State, ¬ s.runs →
    (∀ (c : Fin 16) (w : BitVec 56),
      exec (.nop c w) s = .next s ∧ exec (.add c w) s = .next s ∧ exec (.sub c w) s = .next s ∧ exec (.mul c w) s = .next s ∧
      exec (.li c w) s = .next s ∧ exec (.cmp c w) s = .next s ∧ exec (.br c w) s = .next s ∧ exec (.jr c w) s = .next s ∧
      exec (.tend c w) s = .next s ∧ exec (.trap c w) s = .next s ∧ exec (.st c w) s = .next s ∧ exec (.tset c w) s = .next s ∧
      exec (.wopen c w) s = .next s ∧ exec (.amm c w) s = .next s ∧ exec (.dmaCopy c w) s = .next s ∧ exec (.kget c w) s = .next s ∧
      exec (.bar c w) s = .next s ∧ exec (.tkin c w {}) s = .next s) ∧
    (∀ c : Fin 16, exec (.tendComplete c) s = .next s ∧ exec (.awaitComplete c) s = .next s ∧ exec (.fenceComplete c) s = .next s ∧
      exec (.waitkResume c) s = .next s ∧ exec (.rippleLoad c {} []) s = .next s ∧ exec (.osDrain c) s = .next s ∧
      exec (.mergeChunk c {}) s = .next s) ∧
    (∀ (e : Fin 16) (w : BitVec 27), exec (.prsNop e w) s = .next s ∧ exec (.prsExt e w) s = .next s ∧ exec (.prsCvt e w) s = .next s ∧
      exec (.prsEmit e w) s = .next s ∧ exec (.prsBr e w) s = .next s ∧ exec (.prsLoop e w) s = .next s ∧ exec (.prsEnd e w) s = .next s) ∧
    exec .pointCompensate s = .next s ∧ exec .cellInsert s = .next s ∧ exec .ageEntry s = .next s ∧ exec .runaheadResolve s = .next s ∧
    exec .runaheadWithdraw s = .next s ∧ exec .runaheadReinsert s = .next s

/-! Parser rows. -/

/-- Tier 1. The parser's register rows (R57): vd takes the value the table gives, nothing else changes but the word number and the count of
R59. EXT takes a field of w = [11:7] + 1 bits of the k bytes from the cursor on, in either byte order; where they reach beyond the
packet it is a parser fault. It holds the model to its reading of log entry 67. -/
def Obligations.ParserRegisterRowsWriteVd : Prop :=
  ∀ (e : Fin 16) (w : BitVec 27) (s : State),
    (s.parsesOn e 0x03 w → exec (.prsAdd e w) s = .next (s.modEngine e (fun x =>
      (x.setReg (regNo w 23) (x.reg (regNo w 19) + x.reg (regNo w 15))).next))) ∧
    (s.parsesOn e 0x04 w → exec (.prsAddi e w) s = .next (s.modEngine e (fun x =>
      (x.setReg (regNo w 23) (x.reg (regNo w 19) + (w.extractLsb' 0 19).signExtend 32)).next))) ∧
    (s.parsesOn e 0x05 w → exec (.prsAnd e w) s = .next (s.modEngine e (fun x =>
      (x.setReg (regNo w 23) (x.reg (regNo w 19) &&& x.reg (regNo w 15))).next))) ∧
    (s.parsesOn e 0x02 w → exec (.prsScl e w) s = .next (s.modEngine e (fun x =>
      (x.setReg (regNo w 23) (BitVec.ofInt 32 (satSigned 32
        (divNearest ((x.reg (regNo w 19)).toInt * (w.extractLsb' 0 14).toInt) (2 ^ fld w 18 14))))).next))) ∧
    (s.parsesOn e 0x01 w → ∀ (n k off sh : Nat), n = fld w 11 7 + 1 → sh = fld w 6 4 → k = (sh + n + 7) / 8 → off = (s.engine e).cursor + fld w 22 12 →
      off + k ≤ (s.engine e).payload.length →
      ∀ v : Nat, v = (if fld w 2 2 = 1 then fieldBe (s.engine e).payload off k / 2 ^ (8 * k - sh - n) % 2 ^ n
          else fieldLe (s.engine e).payload off k / 2 ^ sh % 2 ^ n) →
        exec (.prsExt e w) s = .next (s.modEngine e (fun x => (x.setReg (regNo w 23)
          (if fld w 3 3 = 1 then (BitVec.ofNat n v).signExtend 32 else BitVec.ofNat 32 v)).next)))

/-- Tier 1. LUT (R57, R58): vd takes the entry's elevation, the staged beam the number, the azimuth correction is held; at or beyond the
beam count the staged point is rejected with reason 7, once. It holds the model to its reading of log entry 16. -/
def Obligations.ParserLutReadsTheBeamTable : Prop :=
  ∀ (e : Fin 16) (w : BitVec 27) (s : State), s.parsesOn e 0x06 w →
    ∀ b : Nat, b = ((s.engine e).reg (regNo w 19)).toNat % 256 →
    ∀ c : CalRec, c = s.calRecord (s.engine e).port →
      ∃ t, exec (.prsLut e w) s = .next t ∧
        (t.engine e).reg (regNo w 23) = (if regNo w 23 = 0 then 0 else BitVec.ofInt 32 (c.table.getD b (0, 0)).1) ∧
        (t.engine e).azCorr = (c.table.getD b (0, 0)).2 ∧ (t.engine e).staged.beam = b ∧
        (t.engine e).staged.rejected = ((s.engine e).staged.rejected || decide (c.beams ≤ b)) ∧
        (t.engine e).pc = (s.engine e).pc + 1 ∧
        (c.beams ≤ b → (s.engine e).staged.rejected = false →
          t.num (portOd 0x3104 (s.engine e).port 0x0A) = Od.counter (portOd 0x3104 (s.engine e).port 0x0A)
            (s.num (portOd 0x3104 (s.engine e).port 0x0A) + 1)) ∧
        (b < c.beams → t.dict = s.dict)

/-- Tier 1. The rows that stage a point (R57, R588): SET by its field number, ADV moves the cursor, CVT and CVC put the vehicle-frame
coordinates that the extrinsic of the head's sweep gives, and CVT uses up the azimuth correction that LUT held; NOP and SWP change
nothing else. It holds the model to its reading of log entry 16. -/
def Obligations.ParserStagingRows : Prop :=
  ∀ (e : Fin 16) (w : BitVec 27) (s : State),
    (s.parsesOn e 0x00 w → exec (.prsNop e w) s = .next (s.modEngine e (fun x => x.next))) ∧
    (s.parsesOn e 0x0F w → exec (.prsAdv e w) s = .next (s.modEngine e (fun x => { x with cursor := x.cursor + fld w 15 0 }.next))) ∧
    (s.parsesOn e 0x14 w → exec (.prsSwp e w) s = .next (s.modEngine e (fun x => { x with sweepMark := true }.next))) ∧
    (s.parsesOn e 0x09 w → fld w 26 24 = 0 → exec (.prsSet e w) s = .next (s.modEngine e (fun x =>
      { x with staged := { x.staged with intensity := (clampI 0 255 (x.reg (regNo w 20)).toInt).toNat } }.next))) ∧
    (s.parsesOn e 0x09 w → fld w 26 24 = 1 → exec (.prsSet e w) s = .next (s.modEngine e (fun x =>
      { x with staged := { x.staged with offset := (x.reg (regNo w 20)).toNat } }.next))) ∧
    (s.parsesOn e 0x09 w → fld w 26 24 = 2 → exec (.prsSet e w) s = .next (s.modEngine e (fun x =>
      { x with staged := { x.staged with ret := (x.reg (regNo w 20)).toNat % 4 } }.next))) ∧
    (s.parsesOn e 0x09 w → fld w 26 24 = 3 → exec (.prsSet e w) s = .next (s.modEngine e (fun x =>
      { x with staged := { x.staged with beam := (x.reg (regNo w 20)).toNat % 256 } }.next))) ∧
    (∀ v q : List Int, v = [(s.engine e).reg (regNo w 23), (s.engine e).reg (regNo w 19), (s.engine e).reg (regNo w 15)].map (fun v => v.toInt * 64) →
      q = applyExtrinsic (s.extrinsicAt (s.engine e).port (s.engine e).time) v → s.parsesOn e 0x08 w →
      exec (.prsCvc e w) s = .next (s.modEngine e (fun x =>
        { x with staged := { x.staged with xyz := some (comp3 q 0, comp3 q 1, comp3 q 2), sensor := v } }.next))) ∧
    (∀ v q : List Int, v = polarPoint ((s.engine e).reg (regNo w 23)).toNat
        ((((s.engine e).reg (regNo w 19)).toNat % 16777216 + (s.engine e).azCorr) % 16777216).toNat
        ((s.engine e).reg (regNo w 15)).toInt →
      q = applyExtrinsic (s.extrinsicAt (s.engine e).port (s.engine e).time) v → s.parsesOn e 0x07 w →
      exec (.prsCvt e w) s = .next (s.modEngine e (fun x =>
        { x with staged := { x.staged with xyz := some (comp3 q 0, comp3 q 1, comp3 q 2), sensor := v }, azCorr := 0 }.next)))

/-- Tier 1. The rows that reach the head's port (R52, R57, R58, R62): RNG counts the range for the contamination index, PLS adds to the
pulse estimate, TSP sets the packet base by its mode, IDN presents the serial, REJ rejects under its reason where its condition holds.
It holds the model to its readings of log entries 67, 75. -/
def Obligations.ParserHeadRows : Prop :=
  ∀ (e : Fin 16) (w : BitVec 27) (s : State),
    (s.parsesOn e 0x0B w → ∃ t, exec (.prsRng e w) s = .next t ∧
      (t.head (s.engine e).port).total = (s.head (s.engine e).port).total + 1 ∧
      (t.head (s.engine e).port).near = (s.head (s.engine e).port).near +
        (if ((s.engine e).reg (regNo w 23)).toNat < s.num (od 0x3000 7) then 1 else 0)) ∧
    (s.parsesOn e 0x0C w → ∃ t, exec (.prsPls e w) s = .next t ∧ t.num (portOd 0x3102 (s.engine e).port 2) =
      Od.counter (portOd 0x3102 (s.engine e).port 2)
        (s.num (portOd 0x3102 (s.engine e).port 2) + ((s.engine e).reg (regNo w 23)).toNat)) ∧
    (s.parsesOn e 0x0A w → fld w 18 17 = 0 → exec (.prsTsp e w) s = .next (s.modEngine e (fun x =>
      { x with base := 2 ^ 32 * ((x.reg (regNo w 19)).toNat : Int) + (x.reg (regNo w 23)).toNat }.next))) ∧
    (s.parsesOn e 0x0A w → fld w 18 17 = 3 → exec (.prsTsp e w) s = .next (s.modEngine e (fun x =>
      { x with base := (x.stamp : Int) - (s.calRecord x.port).delay }.next))) ∧
    (s.parsesOn e 0x12 w → ∀ n : Nat, n = fld w 11 8 + 1 → (s.engine e).cursor + fld w 22 12 + n ≤ (s.engine e).payload.length →
      ∃ t, exec (.prsIdn e w) s = .next t ∧ (t.engine e).pc = (s.engine e).pc + 1 ∧
        (t.head (s.engine e).port).presented = padTo 16 (slice (s.engine e).payload ((s.engine e).cursor + fld w 22 12) n)) ∧
    (s.parsesOn e 0x0D w → condHolds (fld w 22 20) ((s.engine e).reg (regNo w 23)) (BitVec.ofNat 32 (fld w 16 0)) = true →
      (s.engine e).staged.rejected = false →
      ∃ t, exec (.prsRej e w) s = .next t ∧ (t.engine e).staged.rejected = true ∧ (t.engine e).pc = (s.engine e).pc + 1 ∧
        t.num (portOd 0x3104 (s.engine e).port (3 + fld w 19 17)) = Od.counter (portOd 0x3104 (s.engine e).port (3 + fld w 19 17))
          (s.num (portOd 0x3104 (s.engine e).port (3 + fld w 19 17)) + 1)) ∧
    (s.parsesOn e 0x0D w → (condHolds (fld w 22 20) ((s.engine e).reg (regNo w 23)) (BitVec.ofNat 32 (fld w 16 0)) = false ∨
        (s.engine e).staged.rejected = true) →
      exec (.prsRej e w) s = .next (s.modEngine e Engine.next))

/-- Tier 1. EMIT, BR, LOOP and END (R57, R59, R61): EMIT sends the staged point of an ACTIVE port to motion compensation, in the vehicle
frame of its sweep, while the 16 points that the pipeline holds leave room (R397), and clears the staging; BR and LOOP go to their
target; END frees the engine. It holds the model to its reading of log entry 67. -/
def Obligations.ParserFlowRows : Prop :=
  ∀ (e : Fin 16) (w : BitVec 27) (s : State),
    (s.parses e 0x0E w → s.ing.comp.length < 16 → ∀ xyz, (s.engine e).staged.xyz = some xyz → (s.engine e).staged.rejected = false →
      (s.head (s.engine e).port).state = .active → (s.engine e).sweepMark = false → (s.engine e).pc + 1 < (s.engine e).words.length →
      ∃ t p, exec (.prsEmit e w) s = .next t ∧ t.ing.comp = s.ing.comp ++ [p] ∧ (t.engine e).staged = {} ∧
        p.port = (s.engine e).port.val ∧ p.raw = s.vehicle (s.engine e).port (s.engine e).time (s.engine e).staged.sensor ∧ p.time = (s.engine e).base + (s.engine e).staged.offset ∧
        p.intensity = (s.engine e).staged.intensity ∧ p.ret = (s.engine e).staged.ret ∧ p.beam = (s.engine e).staged.beam ∧
        t.num (portOd 0x3104 (s.engine e).port 2) =
          Od.counter (portOd 0x3104 (s.engine e).port 2) (s.num (portOd 0x3104 (s.engine e).port 2) + 1)) ∧
    (s.parses e 0x10 w → condHolds (fld w 18 16) ((s.engine e).reg (regNo w 23)) ((s.engine e).reg (regNo w 19)) = true →
      fld w 7 0 < (s.engine e).words.length → exec (.prsBr e w) s = .next (s.modEngine e (fun x => x.at (fld w 7 0)))) ∧
    (s.parses e 0x10 w → condHolds (fld w 18 16) ((s.engine e).reg (regNo w 23)) ((s.engine e).reg (regNo w 19)) = false →
      (s.engine e).pc + 1 < (s.engine e).words.length → exec (.prsBr e w) s = .next (s.modEngine e Engine.next)) ∧
    (s.parses e 0x11 w → regNo w 23 ≠ 0 → (s.engine e).reg (regNo w 23) ≠ 1 → fld w 7 0 < (s.engine e).words.length →
      exec (.prsLoop e w) s = .next (s.modEngine e (fun x =>
        (x.setReg (regNo w 23) (x.reg (regNo w 23) - 1)).at (fld w 7 0)))) ∧
    (s.parses e 0x11 w → (regNo w 23 = 0 ∨ (s.engine e).reg (regNo w 23) = 1) → (s.engine e).pc + 1 < (s.engine e).words.length →
      exec (.prsLoop e w) s = .next (s.modEngine e (fun x => (x.setReg (regNo w 23) 0).next))) ∧
    (s.parses e 0x13 w → exec (.prsEnd e w) s = .next (s.modEngine e (fun x => { x with busy := false, count := x.count + 1 })))

/-- Tier 1. The parser faults of R59: an EXT or IDN beyond the packet, going past the last loaded word, an EMIT with nothing staged, a
16,385th instruction. The engine is freed, the fault counted, EV 0x3016 raised (kept while the frame has fewer than 64 events, R359), and every other engine, the points already emitted and the cores stay. -/
def Obligations.ParserFaultsOfR59 : Prop :=
  ∀ (e : Fin 16) (w : BitVec 27) (s : State), (s.engine e).busy = true → s.runs →
    let faulted := fun (o : Out) => ∃ t, o = .next t ∧ (t.engine e).busy = false ∧ t.ing.comp = s.ing.comp ∧ t.cores = s.cores ∧
      (∀ d : Fin 16, d ≠ e → t.engine d = s.engine d) ∧
      t.num (portOd 0x3104 (s.engine e).port 0x0E) = Od.counter (portOd 0x3104 (s.engine e).port 0x0E)
        (s.num (portOd 0x3104 (s.engine e).port 0x0E) + 1) ∧
      (s.log.inFrame < 64 → t.log.seq = s.log.next ∧
        t.log.staged.getLast?.map (fun x => (x.code, x.inst)) = some (0x3016, (s.engine e).port.val))
    ((s.engine e).fetches 0x01 w = true →
      (s.engine e).payload.length < (s.engine e).cursor + fld w 22 12 + (fld w 6 4 + (fld w 11 7 + 1) + 7) / 8 →
      faulted (exec (.prsExt e w) s)) ∧
    ((s.engine e).fetches 0x12 w = true →
      (s.engine e).payload.length < (s.engine e).cursor + fld w 22 12 + (fld w 11 8 + 1) → faulted (exec (.prsIdn e w) s)) ∧
    ((s.engine e).fetches 0x0E w = true → (s.engine e).staged.xyz = none → faulted (exec (.prsEmit e w) s)) ∧
    ((s.engine e).words.length ≤ (s.engine e).pc + 1 →
      ((s.engine e).fetches 0x00 w = true → faulted (exec (.prsNop e w) s)) ∧ ((s.engine e).fetches 0x03 w = true → faulted (exec (.prsAdd e w) s))) ∧
    (16384 ≤ (s.engine e).count →
      ((s.engine e).fetches 0x00 w = true → faulted (exec (.prsNop e w) s)) ∧ ((s.engine e).fetches 0x13 w = true → faulted (exec (.prsEnd e w) s)))

/-! Scalar and state rows of the sequencer. -/

/-- Tier 1. The three-register rows of R201: sd takes the table's result of sa and sb (s0 reads zero, a write of s0 is discarded), the PC
goes on by 8, nothing else changes. NOP changes the PC only. It holds the model to its reading of log entry 67. -/
def Obligations.ThreeRegisterRowsWriteSd : Prop :=
  ∀ (c : Fin 16) (r : TaskRun) (w : BitVec 56) (s : State) (x y : Scalar), x = s.rs c (fieldB w) → y = s.rs c (fieldC w) →
    let runs := fun (op : Nat) => s.executes c r op w { a := 31, b := 31, c := 31 }
    let wrote := fun (v : Scalar) => Host.Outcome.next (φ := Fault) (ρ := Refusal) ((s.ws c (fieldA w) v).setPc c (s.pcAt c + 8))
    (runs 0x01 → exec (.add c w) s = wrote (x + y)) ∧
    (runs 0x02 → exec (.sub c w) s = wrote (x - y)) ∧
    (runs 0x03 → exec (.and c w) s = wrote (x &&& y)) ∧
    (runs 0x04 → exec (.or c w) s = wrote (x ||| y)) ∧
    (runs 0x05 → exec (.xor c w) s = wrote (x ^^^ y)) ∧
    (runs 0x06 → exec (.shl c w) s = wrote (x <<< (y.toNat % 64))) ∧
    (runs 0x07 → exec (.shr c w) s = wrote (x >>> (y.toNat % 64))) ∧
    (runs 0x08 → exec (.sra c w) s = wrote (x.sshiftRight (y.toNat % 64))) ∧
    (runs 0x09 → exec (.mul c w) s = wrote (x * y)) ∧
    (runs 0x0A → exec (.min c w) s = wrote (if x.slt y then x else y)) ∧
    (runs 0x0B → exec (.max c w) s = wrote (if x.slt y then y else x))

/-- Tier 1. The immediate rows of R201 and NOP: a 32-bit immediate is sign-extended, a shift takes I[5:0], LIH replaces the upper half. It
holds the model to its reading of log entry 67. -/
def Obligations.ImmediateRowsWriteSd : Prop :=
  ∀ (c : Fin 16) (r : TaskRun) (w : BitVec 56) (s : State),
    let wrote := fun (v : Scalar) => Host.Outcome.next (φ := Fault) (ρ := Refusal) ((s.ws c (fieldA w) v).setPc c (s.pcAt c + 8))
    let imm := (w.extractLsb' 0 32).signExtend 64
    let two := fun (op : Nat) => s.executes c r op w { a := 31, b := 31, i := 0xFFFFFFFF }
    let shift := fun (op : Nat) => s.executes c r op w { a := 31, b := 31, i := 63 }
    let one := fun (op : Nat) => s.executes c r op w { a := 31, i := 0xFFFFFFFF }
    (two 0x10 → exec (.addi c w) s = wrote (s.rs c (fieldB w) + imm)) ∧
    (two 0x11 → exec (.andi c w) s = wrote (s.rs c (fieldB w) &&& imm)) ∧
    (two 0x12 → exec (.ori c w) s = wrote (s.rs c (fieldB w) ||| imm)) ∧
    (shift 0x13 → exec (.shli c w) s = wrote (s.rs c (fieldB w) <<< fieldImm w)) ∧
    (shift 0x14 → exec (.shri c w) s = wrote (s.rs c (fieldB w) >>> fieldImm w)) ∧
    (shift 0x15 → exec (.srai c w) s = wrote ((s.rs c (fieldB w)).sshiftRight (fieldImm w))) ∧
    (one 0x16 → exec (.li c w) s = wrote imm) ∧
    (one 0x17 → exec (.lih c w) s = wrote (w.extractLsb' 0 32 ++ (s.rs c (fieldA w)).extractLsb' 0 32)) ∧
    (s.executes c r 0x00 w {} → exec (.nop c w) s = .next (s.setPc c (s.pcAt c + 8)))

/-- Tier 1. CMP, CMPI and PLOG (R196): the predicate takes the comparison of the condition code or the logical result; nothing else but the
PC changes. Every other value of D is reserved and ILLEGAL. -/
def Obligations.CompareRowsWriteThePredicate : Prop :=
  ∀ (c : Fin 16) (r : TaskRun) (w : BitVec 56) (s : State),
    let put := fun (v : Bool) => Host.Outcome.next (φ := Fault) (ρ := Refusal)
      ((s.modSeq c (fun q => q.setPred (fieldA w) v)).setPc c (s.pcAt c + 8))
    let cond := fun (x y : Scalar) => [x == y, x != y, x.ult y, y.ule x, x.slt y, y.sle x]
    let pa := (s.seqOf c).pred (fieldB w)
    let pb := (s.seqOf c).pred (fieldC w)
    (s.executes c r 0x18 w { a := 3, b := 31, c := 31, d := 15, dmax := 5 } → ∀ v ∈ (cond (s.rs c (fieldB w)) (s.rs c (fieldC w)))[fieldD w]?,
      exec (.cmp c w) s = put v) ∧
    (s.executes c r 0x19 w { a := 3, b := 31, d := 15, i := 0xFFFFFFFF, dmax := 5 } →
      ∀ v ∈ (cond (s.rs c (fieldB w)) ((w.extractLsb' 0 32).signExtend 64))[fieldD w]?, exec (.cmpi c w) s = put v) ∧
    (s.executes c r 0x1A w { a := 3, b := 3, c := 3, d := 15, dmax := 3 } → ∀ v ∈ ([pa && pb, pa || pb, pa != pb, pa && !pb])[fieldD w]?,
      exec (.plog c w) s = put v) ∧
    (s.fetches c r 0x18 w → 5 < fieldD w → exec (.cmp c w) s = .next (s.except c 1 (s.pcAt c))) ∧
    (s.fetches c r 0x19 w → 5 < fieldD w → exec (.cmpi c w) s = .next (s.except c 1 (s.pcAt c))) ∧
    (s.fetches c r 0x1A w → 3 < fieldD w → exec (.plog c w) s = .next (s.except c 1 (s.pcAt c)))

/-- Tier 1. BR, LOOP, JAL and JR (R195, R201): the target is the PC plus eight times the signed immediate, or sa; a target outside w0, or one
that is no multiple of 8, is ILLEGAL. -/
def Obligations.BranchRowsGoToTheirTarget : Prop :=
  ∀ (c : Fin 16) (r : TaskRun) (w : BitVec 56) (s : State),
    let tgt : Int := s.pcAt c + 8 * (w.extractLsb' 0 32).toInt
    let fits := fun (t : Int) => 0 ≤ t ∧ t + 8 ≤ s.w0Size c r.part
    let n := (s.rs c (fieldB w)).toNat
    (s.executes c r 0x30 w { i := 0xFFFFFFFF } → fits tgt → exec (.br c w) s = .next (s.setPc c tgt.toNat)) ∧
    (s.executes c r 0x30 w { i := 0xFFFFFFFF } → ¬ fits tgt → exec (.br c w) s = .next (s.except c 1 (s.pcAt c))) ∧
    (s.executes c r 0x32 w { a := 31, i := 0xFFFFFFFF } → fits tgt →
      exec (.jal c w) s = .next ((s.ws c (fieldA w) (BitVec.ofNat 64 (s.pcAt c + 8))).setPc c tgt.toNat)) ∧
    (s.executes c r 0x33 w { b := 31 } → n % 8 = 0 → n + 8 ≤ s.w0Size c r.part → exec (.jr c w) s = .next (s.setPc c n)) ∧
    (s.executes c r 0x33 w { b := 31 } → n % 8 ≠ 0 ∨ s.w0Size c r.part < n + 8 → exec (.jr c w) s = .next (s.except c 1 (s.pcAt c))) ∧
    (s.executes c r 0x31 w { b := 31, i := 0xFFFFFFFF } → fieldB w ≠ 0 → s.rs c (fieldB w) ≠ 1 → fits tgt →
      exec (.loop c w) s = .next ((s.ws c (fieldB w) (s.rs c (fieldB w) - 1)).setPc c tgt.toNat)) ∧
    (s.executes c r 0x31 w { b := 31, i := 0xFFFFFFFF } → fieldB w ≠ 0 → s.rs c (fieldB w) = 1 →
      exec (.loop c w) s = .next ((s.ws c (fieldB w) 0).setPc c (s.pcAt c + 8)))

/-- Tier 1. The rows that read the machine into a register, and those that write a descriptor field or AMODE (R197, R201-R203, R225). It
holds the model to its reading of log entry 22. -/
def Obligations.StateReadingRows : Prop :=
  ∀ (c : Fin 16) (r : TaskRun) (w : BitVec 56) (s : State),
    let wrote := fun (v : Nat) => Host.Outcome.next (φ := Fault) (ρ := Refusal)
      ((s.ws c (fieldA w) (BitVec.ofNat 64 v)).setPc c (s.pcAt c + 8))
    let k := s.cores[c]
    let d := (s.seqOf c).td (fieldC w)
    let x := k.pad.win r.part (fieldC w)
    (s.executes c r 0x39 w { a := 31, c := 7, d := 7 } → ∀ v ∈ ([d.ctrl, d.base, d.row, d.count, d.stride, d.ictrl, d.ibase, d.aux])[fieldD w]?,
      exec (.tget c w) s = wrote v) ∧
    (s.executes c r 0x38 w { a := 7, b := 31, d := 7 } → fieldOk ((s.seqOf c).td (fieldA w)).kind (fieldD w) (s.rs c (fieldB w)).toNat = true →
      ∃ t, exec (.tset c w) s = .next t ∧
        ((t.seqOf c).td (fieldA w)).field (fieldD w) = (s.rs c (fieldB w)).toNat ∧ t.pcAt c = s.pcAt c + 8 ∧
        (∀ f, f < 8 → f ≠ fieldD w → ((t.seqOf c).td (fieldA w)).field f = ((s.seqOf c).td (fieldA w)).field f) ∧
        (∀ n, n < 8 → n ≠ fieldA w → (t.seqOf c).td n = (s.seqOf c).td n)) ∧
    (s.executes c r 0x38 w { a := 7, b := 31, d := 7 } → fieldOk ((s.seqOf c).td (fieldA w)).kind (fieldD w) (s.rs c (fieldB w)).toNat = false →
      exec (.tset c w) s = .next (s.except c 2 (s.pcAt c))) ∧
    (s.executes c r 0x3E w { a := 31, c := 7 } → exec (.winfo c w) s = wrote (x.size + 2 ^ 32 * x.gen + 2 ^ 40 * x.attr)) ∧
    (s.executes c r 0x44 w { a := 31 } → exec (.astat c w) s =
      wrote (k.seq.arrayQ.length + 65536 * k.arr.pending.length + 2 ^ 32 * k.arr.merges.length)) ∧
    (s.executes c r 0x40 w { b := 31 } → exec (.amode c w) s = .next ((s.modSeq c (fun q =>
      { q with mode := (s.rs c (fieldB w)).toNat % 2 ^ 32, modeValid := true })).setPc c (s.pcAt c + 8))) ∧
    (∀ (cycles t : Nat), (s.at t).executes c r 0x70 w { a := 31, d := 15, dmax := 4 } →
      ∀ v ∈ ([r.frame, r.arg, c.val + 16 * r.copy + 256 * r.part + 65536 * r.task, cycles, shortStamp t])[fieldD w]?,
        exec (.tinfo c w cycles t) s = .next (((s.at t).ws c (fieldA w) (BitVec.ofNat 64 v)).setPc c (s.pcAt c + 8)))

/-! Memory, window, waiting and counter rows. -/

/-- Tier 1. LD and ST (R202, R230): LD takes the bytes at sa + offset of its window, zero- or sign-extended; ST puts the low bytes of sb
there, and every other byte of every scratchpad stays as it was. -/
def Obligations.LoadAndStoreMoveTheirBytes : Prop :=
  ∀ (c : Fin 16) (r : TaskRun) (w : BitVec 56) (s : State),
    let x := (s.cores[c]).pad.win r.part (fieldC w)
    let a := (s.rs c (fieldB w) + (w.extractLsb' 0 32).signExtend 64).toNat
    let n := 2 ^ (fieldD w % 4)
    x.isOpen = true → a + n ≤ x.size → x.tagMode = 0 → a % n = 0 →
    (s.executes c r 0x20 w { a := 31, b := 31, c := 7, d := 7, i := 0xFFFFFFFF } → (s.cores[c]).pad.firstBad x a n = none →
      ∀ v : Nat, v = leNat ((List.range n).map (fun i => (s.cores[c]).pad.mem.rd (x.phys (a + i)))) →
        exec (.ld c w {}) s = .next ((s.ws c (fieldA w)
          (if fieldD w < 4 then BitVec.ofNat 64 v else (BitVec.ofNat (8 * n) v).signExtend 64)).setPc c (s.pcAt c + 8))) ∧
    (s.executes c r 0x21 w { a := 31, b := 31, c := 7, d := 3, i := 0xFFFFFFFF } → bitAt x.attr 1 = true →
      ∃ t, exec (.st c w) s = .next t ∧ t.pcAt c = s.pcAt c + 8 ∧ (t.seqOf c).regs = (s.seqOf c).regs ∧
        (∀ i < n, (t.cores[c]).pad.mem.rd (x.phys (a + i)) =
          ((s.rs c (fieldA w)).extractLsb' (8 * i) 8)) ∧
        (∀ b, (∀ i < n, b ≠ x.phys (a + i)) → (t.cores[c]).pad.mem.rd b = (s.cores[c]).pad.mem.rd b) ∧
        (∀ d : Fin 16, d ≠ c → t.cores[d] = s.cores[d]) ∧ t.ext = s.ext)

/-- Tier 1. AADD and ASWP (R202, R236): sd takes the old value of the 8 bytes, or with D[0] set of the 4 bytes, at sa, which then hold the
sum with sb or sb itself; every other byte stays. It holds the model to its reading of log entry 30. -/
def Obligations.AtomicsReturnTheOldValue : Prop :=
  ∀ (c : Fin 16) (r : TaskRun) (w : BitVec 56) (s : State),
    let x := (s.cores[c]).pad.win r.part (fieldImm w)
    let a := (s.rs c (fieldB w)).toNat
    let n := if fieldD w = 1 then 4 else 8
    let old := leNat ((List.range n).map (fun i => (s.cores[c]).pad.mem.rd (x.phys (a + i))))
    x.isOpen = true → a + n ≤ x.size → x.tagMode = 0 → a % n = 0 → bitAt x.attr 1 = true → (s.cores[c]).pad.firstBad x a n = none →
    let did := fun (o : Out) (new : Nat) => ∃ t, o = .next t ∧ t.pcAt c = s.pcAt c + 8 ∧
      (fieldA w ≠ 0 → t.rs c (fieldA w) = BitVec.ofNat 64 old) ∧
      (∀ i < n, (t.cores[c]).pad.mem.rd (x.phys (a + i)) = (BitVec.ofNat 64 new).extractLsb' (8 * i) 8) ∧
      (∀ b, (∀ i < n, b ≠ x.phys (a + i)) → (t.cores[c]).pad.mem.rd b = (s.cores[c]).pad.mem.rd b) ∧
      (∀ d : Fin 16, d ≠ c → t.cores[d] = s.cores[d])
    (s.executes c r 0x22 w { a := 31, b := 31, c := 31, d := 1, i := 7 } →
      did (exec (.aadd c w {}) s) (old + (s.rs c (fieldC w)).toNat)) ∧
    (s.executes c r 0x23 w { a := 31, b := 31, c := 31, d := 1, i := 7 } → did (exec (.aswp c w {}) s) (s.rs c (fieldC w)).toNat)

/-- Tier 1. Where an access or an operand is out of its limits the task ends by the exception its row names (R202, R230): OPERAND for a
misaligned address, WINDOW for a closed window or one that is too short or without WRITE. -/
def Obligations.BadAccessesRaiseTheirException : Prop :=
  ∀ (c : Fin 16) (r : TaskRun) (w : BitVec 56) (s : State),
    let x := (s.cores[c]).pad.win r.part (fieldC w)
    let a := (s.rs c (fieldB w) + (w.extractLsb' 0 32).signExtend 64).toNat
    let n := 2 ^ (fieldD w % 4)
    (s.executes c r 0x20 w { a := 31, b := 31, c := 7, d := 7, i := 0xFFFFFFFF } → ∀ e : Finds,
      (a % n ≠ 0 → exec (.ld c w e) s = .next (s.except c 2 (s.pcAt c))) ∧
      (a % n = 0 → x.isOpen = false ∨ x.size < a + n → exec (.ld c w e) s = .next (s.except c 3 (s.pcAt c)))) ∧
    (s.executes c r 0x21 w { a := 31, b := 31, c := 7, d := 3, i := 0xFFFFFFFF } →
      (a % n ≠ 0 → exec (.st c w) s = .next (s.except c 2 (s.pcAt c))) ∧
      (a % n = 0 → x.isOpen = false ∨ x.size < a + n ∨ bitAt x.attr 1 = false → exec (.st c w) s = .next (s.except c 3 (s.pcAt c))))

/-- Tier 1. WOPEN and WCLOSE (R202, R227, R229): a granted window is open with the size rounded up to 32 bytes and the attributes asked for,
the predicate says so, and a refused one stays closed; a closed window's generation is one further. ILLEGAL for w0 and for opening an
open window. It holds the model to its readings of log entries 31, 71. -/
def Obligations.WindowRowsOpenAndClose : Prop :=
  ∀ (c : Fin 16) (r : TaskRun) (w : BitVec 56) (s : State),
    let v := fieldA w
    let x := (s.cores[c]).pad.win r.part v
    let size := ((s.rs c (fieldB w)).toNat + 31) / 32 * 32
    let attr := (s.rs c (fieldC w)).toNat
    let m := bitsOf attr 15 11 + 1
    (s.executes c r 0x3C w { a := 7, b := 31, c := 31, d := 3 } → v ≠ 0 → x.isOpen = false →
      (∀ f b, s.winRules r.part v size attr false = true → s.findRun c (bitsOf attr 10 9) m (granules size m) = some (f, b) →
        ∃ t, exec (.wopen c w) s = .next t ∧
          (t.cores[c]).pad.win r.part v = { isOpen := true, f := f, b := b, gen := x.gen, size := size, attr := attr } ∧
          (t.seqOf c).pred (fieldD w) = true ∧ t.pcAt c = s.pcAt c + 8) ∧
      (s.winRules r.part v size attr false = false ∨ s.findRun c (bitsOf attr 10 9) m (granules size m) = none →
        ∃ t, exec (.wopen c w) s = .next t ∧ (t.cores[c]).pad.win r.part v = x ∧ (t.seqOf c).pred (fieldD w) = false ∧
          t.pcAt c = s.pcAt c + 8)) ∧
    (s.executes c r 0x3C w { a := 7, b := 31, c := 31, d := 3 } → v = 0 ∨ x.isOpen = true →
      exec (.wopen c w) s = .next (s.except c 1 (s.pcAt c))) ∧
    (s.executes c r 0x3D w { a := 7 } → v = 0 → exec (.wclose c w) s = .next (s.except c 1 (s.pcAt c))) ∧
    (s.executes c r 0x3D w { a := 7 } → v ≠ 0 → x.isOpen = true → s.winBusy c r.part v = false →
      ∃ t, exec (.wclose c w) s = .next t ∧ ((t.cores[c]).pad.win r.part v).isOpen = false ∧
        ((t.cores[c]).pad.win r.part v).gen = (x.gen + 1) % 256 ∧ t.pcAt c = s.pcAt c + 8) ∧
    (s.executes c r 0x3D w { a := 7 } → v ≠ 0 → s.winBusy c r.part v = true → exec (.wclose c w) s = .next (s.waitFor c (.wclose v)))

/-- Tier 1. The waiting rows (R201, R203, R204): where what they wait for is met, AWAIT, FENCE and WAITK go on with the next word at once, and
TEND ends the task; otherwise the sequencer waits, and goes on when it is told that the wait is met. -/
def Obligations.WaitingRowsWaitAndGoOn : Prop :=
  ∀ (c : Fin 16) (r : TaskRun) (w : BitVec 56) (s : State),
    let on := Host.Outcome.next (φ := Fault) (ρ := Refusal) (s.setPc c (s.pcAt c + 8))
    let goes := Host.Outcome.next (φ := Fault) (ρ := Refusal) ((s.waitFor c .none).setPc c (s.pcAt c + 8))
    let idle := (s.cores[c]).arrayIdle
    (s.executes c r 0x43 w {} →
      (idle = true → exec (.await c w) s = on) ∧ (idle = false → exec (.await c w) s = .next (s.waitFor c .await))) ∧
    (s.executes c r 0x5B w {} →
      (s.fenceMet c = true → exec (.fence c w) s = on) ∧ (s.fenceMet c = false → exec (.fence c w) s = .next (s.waitFor c .fence))) ∧
    (s.executes c r 0x71 w {} →
      (idle = true → s.fenceMet c = true → exec (.tend c w) s = .next (s.taskDone c)) ∧
      (idle = false ∨ s.fenceMet c = false → exec (.tend c w) s = .next (s.waitFor c .tend))) ∧
    (s.executes c r 0x58 w { a := 63, b := 31 } →
      ((s.rs c (fieldB w)).toNat % 4294967296 ≤ s.kget c (fieldA w) → exec (.waitk c w) s = on) ∧
      (s.kget c (fieldA w) < (s.rs c (fieldB w)).toNat % 4294967296 →
        exec (.waitk c w) s = .next (s.waitFor c (.waitk (fieldA w) ((s.rs c (fieldB w)).toNat % 4294967296))))) ∧
    (s.runs →
      ((s.seqOf c).wait = .await → idle = true → exec (.awaitComplete c) s = goes) ∧
      ((s.seqOf c).wait = .fence → s.fenceMet c = true → exec (.fenceComplete c) s = goes) ∧
      ((s.seqOf c).wait = .tend → idle = true → s.fenceMet c = true → exec (.tendComplete c) s = .next (s.taskDone c)) ∧
      (∀ k v, (s.seqOf c).wait = .waitk k v → v ≤ s.kget c k → exec (.waitkResume c) s = goes) ∧
      (∀ k v, (s.seqOf c).wait = .waitk k v → s.kget c k < v → exec (.waitkResume c) s = .next s))

/-- Tier 1. A task that ends by TEND is DONE (R201, R369): while the scheduler dispatches nothing, its core has no task and
waits for nothing, its array has nothing queued, its instance is DONE, and the other cores are as before. -/
def Obligations.TendEndsTheTask : Prop :=
  ∀ (c : Fin 16) (r : TaskRun) (s : State) (i : Inst), (s.seqOf c).task = some r → s.sched.running_ = false →
    s.sched.runningOn c.val = some i →
      ((s.taskDone c).seqOf c).task = none ∧ ((s.taskDone c).seqOf c).wait = .none ∧ ((s.taskDone c).seqOf c).arrayQ = [] ∧
      (∀ j, (s.taskDone c).sched.insts.find? (fun j => j.task == i.task && j.lcore == i.lcore) = some j → j.state = .done) ∧
      (∀ d : Fin 16, d ≠ c → (s.taskDone c).cores[d] = s.cores[d])

/-- Tier 1. Arrival counters and segments (R203, R204, R210, R283): KGET reads and KSUB subtracts, OPERAND below zero; SEGH gives the five
values of the header of the task's own frame, copy and owner; SEGR marks a slot and SEGMENT_SLOT_RETURN gives it back; BAR goes on once
its release counter holds 1. It holds the model to its reading of log entry 32. -/
def Obligations.CounterAndSegmentRows : Prop :=
  ∀ (c : Fin 16) (r : TaskRun) (w : BitVec 56) (s : State),
    (s.executes c r 0x59 w { a := 63, c := 31 } → exec (.kget c w) s =
      .next ((s.ws c (fieldC w) (BitVec.ofNat 64 (s.kget c (fieldA w)))).setPc c (s.pcAt c + 8))) ∧
    (s.executes c r 0x5A w { a := 63, b := 31 } → ∀ v, v = (s.rs c (fieldB w)).toNat % 4294967296 →
      (v ≤ s.kget c (fieldA w) → ∃ t, exec (.ksub c w) s = .next t ∧ t.kget c (fieldA w) = s.kget c (fieldA w) - v ∧
        t.pcAt c = s.pcAt c + 8 ∧ ∀ k, k < 64 → k ≠ fieldA w → t.kget c k = s.kget c k) ∧
      (s.kget c (fieldA w) < v → exec (.ksub c w) s = .next (s.except c 2 (s.pcAt c)))) ∧
    (s.executes c r 0x48 w { a := 31, b := 31, c := 7 } → 1 ≤ fieldA w → fieldA w ≤ 27 →
      ∀ x, x = (s.cores[c]).pad.win r.part (fieldC w) → ∀ a, a = (s.rs c (fieldB w)).toNat →
      x.isOpen = true → a + 32 ≤ x.size → x.tagMode = 0 → (s.cores[c]).pad.firstBad x a 32 = none →
      ∀ h, h = (s.cores[c]).pad.bytes x a 32 →
        (fieldLe h 8 4 = r.frame → fieldLe h 7 1 = r.copy → fieldLe h 6 1 = s.ownerPos (fieldLe h 0 1) r →
          ∃ t, exec (.segh c w {}) s = .next t ∧ t.pcAt c = s.pcAt c + 8 ∧
            t.rs c (fieldA w) = BitVec.ofNat 64 (fieldLe h 4 2) ∧ t.rs c (fieldA w + 1) = BitVec.ofNat 64 (fieldLe h 1 1) ∧
            t.rs c (fieldA w + 2) = BitVec.ofNat 64 (fieldLe h 3 1) ∧ t.rs c (fieldA w + 3) = BitVec.ofNat 64 (fieldLe h 12 4) ∧
            t.rs c (fieldA w + 4) = BitVec.ofNat 64 (fieldLe h 16 4 + 4294967296 * fieldLe h 24 4)) ∧
        (fieldLe h 8 4 ≠ r.frame ∨ fieldLe h 7 1 ≠ r.copy ∨ fieldLe h 6 1 ≠ s.ownerPos (fieldLe h 0 1) r →
          exec (.segh c w {}) s = .next (s.except c 6 (s.pcAt c)))) ∧
    (s.executes c r 0x49 w { c := 7 } → ∀ x, x = (s.cores[c]).pad.win r.part (fieldC w) →
      (∀ n rest, x.segs = n :: rest → ∃ t, exec (.segr c w) s = .next t ∧ t.pcAt c = s.pcAt c + 8 ∧
        (t.cores[c]).pad.win r.part (fieldC w) = { x with segs := rest, marked := x.marked ++ [n] }) ∧
      (x.segs = [] → exec (.segr c w) s = .next (s.except c 1 (s.pcAt c)))) ∧
    (∀ win : Fin 8, s.runs → (s.seqOf c).task = some r → ∀ x, x = (s.cores[c]).pad.win r.part win.val → x.marked ≠ [] →
      (s.cores[c]).jobs = [] → (s.seqOf c).dmaQ = [] →
        ∃ t, exec (.segmentSlotReturn c win) s = .next t ∧
          ((t.cores[c]).pad.win r.part win.val).marked = x.marked.drop 1) ∧
    (s.executes c r 0x5C w { b := 31 } → ∀ g, g = (s.rs c (fieldB w)).toNat → g ≤ 15 → s.groupOk c r.part g = true →
      (s.grpMember (s.group g) 0).1 = s.device → 1 ≤ s.kget c ((s.group g).getD 13 0).toNat → ((s.group g).getD 13 0).toNat < 64 →
        ∃ t, exec (.bar c w) s = .next t ∧ (t.seqOf c).wait = .none ∧ t.pcAt c = s.pcAt c + 8) ∧
    (s.executes c r 0x5C w { b := 31 } → 15 < (s.rs c (fieldB w)).toNat ∨ s.groupOk c r.part (s.rs c (fieldB w)).toNat = false →
      exec (.bar c w) s = .next (s.except c 2 (s.pcAt c)))

/-! Array, DMA and top-k. -/

/-- Tier 1. AMM and ADRAIN enter the array queue (R156, R203): with a valid mode word, operands of the right KIND and room in the queue the
job joins the queue's end and the PC goes on; M = 0 does nothing; a full queue waits; a mode word not set or not allowed is ARRAY_MODE.
It holds the model to its reading of log entry 78. -/
def Obligations.ArrayRowsEnterTheQueue : Prop :=
  ∀ (c : Fin 16) (r : TaskRun) (w : BitVec 56) (s : State),
    let q := s.seqOf c
    let v := (q.rd (fieldB w)).toNat
    let ta := q.td (fieldA w / 8)
    let tw := q.td (fieldA w % 8)
    let td := q.td (fieldD w)
    let m := bitsOf v 31 0
    (s.executes c r 0x41 w { a := 63, b := 31, d := 7 } → q.arrayQ.length < 4 → m ≠ 0 → q.modeValid = true →
      (mRipple q.mode = true → r.part ≠ 0) → modeBad q.mode = false → (mStore q.mode = true → m ≤ storeRowsOf q.mode) →
      (mStore q.mode = true ↔ td.kind = 5) → bitsOf v 47 32 ≠ 0 → bitsOf v 63 48 ≠ 0 → s.ammOk c r.part q.mode ta tw td = true →
      (td.kind = 4 → td.pbase + 4096 * td.pslots * td.row ≤ ((s.cores[c]).pad.win r.part td.pwin).size) →
      (td.kind = 5 → (s.cores[c]).storeOpen.length < 16 ∧ ((s.cores[c]).storeOpen.map (·.m)).foldl (· + ·) m ≤ 4096) →
      exec (.amm c w) s = .next ((s.modSeq c (fun q => { q with arrayQ := q.arrayQ ++
        [{ ta := ta, tw := tw, td := td, m := m, k := bitsOf v 47 32, n := bitsOf v 63 48, mode := q.mode, pc := s.pcAt c, word := w.toNat,
           run := r }] })).setPc c (s.pcAt c + 8))) ∧
    (s.executes c r 0x41 w { a := 63, b := 31, d := 7 } → q.arrayQ.length < 4 → m = 0 → exec (.amm c w) s = .next (s.setPc c (s.pcAt c + 8))) ∧
    (s.executes c r 0x41 w { a := 63, b := 31, d := 7 } → q.arrayQ.length < 4 → m ≠ 0 → q.modeValid = false →
      exec (.amm c w) s = .next (s.except c 4 (s.pcAt c))) ∧
    (s.executes c r 0x41 w { a := 63, b := 31, d := 7 } → 4 ≤ q.arrayQ.length → exec (.amm c w) s = .next s) ∧
    (s.executes c r 0x42 w { b := 31, d := 7 } → q.arrayQ.length < 4 → td.kind = 1 → td.cmp = false → bitsOf v 47 32 + m ≤ storeRowsOf q.mode →
      lockedOk td ((s.cores[c]).pad.win r.part td.win) (partLines td.row) = true →
      exec (.adrain c w) s = .next ((s.modSeq c (fun q => { q with arrayQ := q.arrayQ ++
        [{ isDrain := true, td := td, m := m, first := bitsOf v 47 32, mode := q.mode, pc := s.pcAt c, word := w.toNat, run := r }] })).setPc c
          (s.pcAt c + 8)))

/-- Tier 1. The array at work (R159, R162, R169-R172, R179, R209): a pass of WS or IS waits for its load; a block of OS fills an accumulator
set while fewer than two wait to drain. A load reads its block, and where the sums agree the pass streams its rows against it: the pass
count goes on, the sub-array's other bank holds the block, and the column group's accumulators take the row's results. A bulk load whose
sums differ is counted and repeated once. A drain takes the oldest set, whose rows leave where its comparisons held. It holds the model
to its reading of log entry 23. -/
def Obligations.ArrayPassesAndLoads : Prop :=
  ∀ (c : Fin 16) (s : State) (u : Running) (e : Finds), s.runs → (s.cores[c]).arr.running = some u →
    let x := u.chunk
    let j := x.job
    let sub := x.sub u.pass
    let more := u.pass < passCount j.mode x.rows j.k j.n
    (∀ ups, u.loading = false → more → mFlow j.mode ≠ 1 →
      exec (.arrayPassStart c e false ups) s = .next (s.modArr c (fun a => { a with running := some { u with loading := true } }))) ∧
    (u.loading = false → more → mFlow j.mode = 1 → u.sets.length < 2 →
      ∀ nb bm bn, nb = ceilDiv j.n (passC j.mode) → bm = u.pass / nb → bn = u.pass % nb →
      ∀ s1 tb s2 ab, s.rowsRead c j.run j.pc j.tw j.tw.row e j.k 0 = (s1, .ok tb) →
        s1.streamRows c j (x.row0 + bm * passR j.mode) (Nat.min (passR j.mode) (x.rows - bm * passR j.mode))
          (findsAfter e (j.k * j.tw.words j.tw.row)) = (s2, .ok ab) →
        ∃ t o v, exec (.arrayPassStart c e false []) s = .next t ∧ (t.cores[c]).arr.running = some v ∧
          (t.cores[c]).arr.passCount = ((s2.cores[c]).arr.passCount + 1) % 32 ∧ v.pass = u.pass + 1 ∧ v.sets = u.sets ++ [o] ∧
          o.bm = bm ∧ o.bn = bn ∧
          o.rows = ab.map (fun b => (List.range (x.cols bn).2).map (fun n =>
            (osCell j.mode ((List.range j.k).map (elemAt (elems (mSf j.mode) b))) (tb.map (rowCols j.mode (x.cols bn).1 (x.cols bn).2)) n).1))) ∧
    (∀ s1 src words ups, u.loading = true → s.blockRows c x u.pass e = (s1, .ok (src, words)) →
      ∀ ss blk cmps, ss = s1.spots c j.mode sub ups → blk = blockOf j.mode src ss → cmps = loadCmps j.mode blk ss →
      (mRipple j.mode = false ∨ (s.cores[c]).arr.mustBulk sub = true → cmpsFail cmps = false →
        exec (.bulkLoad c e ups) s = .next ((s1.judge c cmps).1.passGo c u blk ss (findsAfter e words))) ∧
      (mRipple j.mode = true → (s.cores[c]).arr.mustBulk sub = false →
        exec (.rippleLoad c e ups) s = .next (s1.passGo c u blk ss (findsAfter e words))) ∧
      (mRipple j.mode = false ∨ (s.cores[c]).arr.mustBulk sub = true → cmpsFail cmps = true → u.retried = false →
        ∃ t, exec (.bulkLoad c e ups) s = .next t ∧ (t.cores[c]).arr.running = some { u with retried := true } ∧
          t.num (odCore 0x6100 c 8) = Od.counter (odCore 0x6100 c 8) (s1.num (odCore 0x6100 c 8) + 1))) ∧
    (∀ (blk : Block) (w : Nat), w = j.mode → mFlow w ≠ 1 → j.ta.kind = 1 → j.ta.cmp = false → x.kb u.pass + 1 ≠ ceilDiv j.k (passK w) → more →
      ∀ bank, bank = (if bitAt (s.cores[c]).arr.sel sub then 0 else 1) →
      ∀ s2 rows, (s.modArr c (fun a => { a with
          banks := (a.banks.filter (fun y => y.1 != 2 * sub + bank)) ++ [(2 * sub + bank, blk)]
          sel := if bitAt a.sel sub then clearBit a.sel sub else setBit a.sel sub
          passCount := (a.passCount + 1) % 32 })).streamRows c j x.row0 x.rows e = (s2, .ok rows) →
        ∃ v, ((s.passGo c u blk [] e).cores[c]).arr.running = some v ∧ v.pass = u.pass + 1 ∧ v.loading = false ∧
          ((s.passGo c u blk [] e).cores[c]).arr.banks = (s2.cores[c]).arr.banks ∧
          v.accs = (passRows w (s2.repairKey c) (s2.num (od 0x6000 1)) (s.cores[c]).arr.passCount (x.kb u.pass * passK w) blk []
            (rows.map (fun b => (List.range blk.held.length).map (fun k => elemAt (elems (mSf w) b) (x.kb u.pass * passK w + k))))
            (if x.kb u.pass = 0 then s2.groupStart c x (x.group u.pass) else u.accs)).1) ∧
    (∀ o rest, u.sets = o :: rest → rest ≠ [] ∨ more →
      (o.bad = true → exec (.osDrain c) s = .next (s.modArr c (fun a => { a with running := some { u with sets := rest } }))) ∧
      (o.bad = false → j.td.kind ≠ 5 → ∀ t, (s.modArr c (fun a => { a with running := some { u with sets := rest } })).deliver c x
          (o.bm * passR j.mode) o.bn (x.cols o.bn).1 o.rows = (t, none) → exec (.osDrain c) s = .next t))

/-- Tier 1. Chunks (R181, R182, R206, R207): the queue's front AMM leaves the queue and begins its next chunk of at most 4,096 rows; a chunk
none of whose comparisons failed is taken from the oldest end, and with a MERGE descriptor goes to the merge engine, which works in
verdict order; one that failed is counted and it and every later one are discarded and replayed. It holds the model to its reading of
log entry 23. -/
def Obligations.ChunksBeginPassAndMerge : Prop :=
  ∀ (c : Fin 16) (s : State) (e : Finds), s.runs →
    (∀ (j : AJob) (js : List AJob) (ups : List Upset), (s.cores[c]).arr.running = none → (s.cores[c]).arr.replays = [] → (s.cores[c]).arr.held = none →
      (s.cores[c]).arr.cur = none → (s.seqOf c).arrayQ = j :: js → j.isDrain = false → j.td.kind = 1 → j.ta.kind = 1 →
      (s.cores[c]).arr.foreign j.run = false → (s.cores[c]).arr.arrangement = some (mArr j.mode) → mFlow j.mode ≠ 1 →
      ∀ n, n = Nat.min 4096 (j.m - j.done) →
        ∃ t, exec (.arrayPassStart c e false ups) s = .next t ∧ (t.seqOf c).arrayQ = js ∧
          (t.cores[c]).arr.cur = (if j.m ≤ j.done + n then none else some { j with done := j.done + n }) ∧
          ∃ v, (t.cores[c]).arr.running = some v ∧ v.loading = true ∧ v.pass = 0 ∧ v.chunk.row0 = j.done ∧ v.chunk.rows = n) ∧
    (∀ (x : Chunk) (xs : List Chunk), (s.cores[c]).arr.pending = x :: xs →
      (x.bad = [] → ∃ t, exec (.chunkVerdict c) s = .next t ∧ (t.cores[c]).arr.pending = xs ∧
        (t.cores[c]).arr.merges = (if x.job.td.kind = 4 then (s.cores[c]).arr.merges ++ [x] else (s.cores[c]).arr.merges)) ∧
      (x.bad ≠ [] → x.failed = false → ∃ t, exec (.chunkVerdict c) s = .next t ∧
        (t.cores[c]).arr = (s.cores[c]).arr.discard x xs ∧ (t.cores[c]).arr.pending = [] ∧
        t.num (odCore 0x6100 c 5) = Od.counter (odCore 0x6100 c 5) (s.num (odCore 0x6100 c 5) + 1))) ∧
    (∀ (x : Chunk) (xs : List Chunk) (u : State), (s.cores[c]).arr.merges = x :: xs →
      (s.modArr c (fun a => { a with merges := xs })).mergeRows c x e x.rows 0 = (u, none) →
      exec (.mergeChunk c e) s = .next (u.closeIfFree c))

/-- Tier 1. The pre-emption save and the repair clear (R187, R217, R380): while nothing is dispatched, a requested pre-emption that may take
effect and has a free save slot writes the task's state into the slot, leaves the core without a task and the instance PREEMPTED in that slot. -/
def Obligations.PreemptionSavesTheTask : Prop :=
  ∀ (c : Fin 16) (s : State),
    (∀ (r : TaskRun) (i : Inst) (pr : PartRec) (n : Nat), s.runs → (s.seqOf c).task = some r → s.sched.runningOn c.val = some i →
      (s.sched.preemptAt[c]).isSome = true → (s.cores[c]).mayPreempt r = true → s.sched.part r.part = some pr →
      (List.range pr.slots).find? (fun n => !(s.sched.slotsUsed c.val r.part).contains n) = some n → s.sched.running_ = false →
      ∃ t, exec (.preemptSave c) s = .next t ∧ (t.seqOf c).task = none ∧ t.sched.preemptAt[c] = none ∧
        (∀ j, t.sched.insts.find? (fun j => j.task == i.task && j.lcore == i.lcore) = some j → j.state = .preempted ∧ j.slot = some n ∧
          j.saved = some { s.seqOf c with wait := .none, dmaQ := [] }) ∧
        (t.cores[c]).pad.mem = ((s.cores[c]).pad.write
          { isOpen := true, f := pr.quad, b := pr.granule + n, size := 32768, attr := 2048 } 0 ((s.cores[c]).saveBytes r.part)).mem ∧
        t.num (odCore 0x6102 c 7) = Od.counter (odCore 0x6102 c 7) (s.num (odCore 0x6102 c 7) + 1)) ∧
    (∀ by_ : Writer, (s.at by_.t).accepts by_ 0x6002 1 (.num 1) →
      ∃ t, exec (.arrayRepairClear by_ 1) s = .next t ∧ t.hap.lastStatus = 0 ∧ od 0x6002 1 ∈ t.dict.armed)

/-- Tier 1. The DMA rows enter the DMA queue (R204, R205, R212): on an empty queue the engine takes the entry at once, behind others it
waits; a queue with eight waiting entries makes the sequencer wait; operands out of their limits are OPERAND. It holds the model to its
reading of log entry 80. -/
def Obligations.DmaRowsEnterTheQueue : Prop :=
  ∀ (c : Fin 16) (r : TaskRun) (w : BitVec 56) (s : State),
    let q := s.seqOf c
    let enters := fun (o : Out) (j : DJob) =>
      (q.dmaQ = [] → o = .next ((s.modSeq c (fun q => { q with dmaQ := [{ j with started := true }] })).setPc c (s.pcAt c + 8))) ∧
      (∀ f fs, q.dmaQ = f :: fs → f.started = true → (q.dmaQ.filter (fun x => !x.started)).length < 8 →
        o = .next ((s.modSeq c (fun q => { q with dmaQ := q.dmaQ ++ [j] })).setPc c (s.pcAt c + 8))) ∧
      (8 ≤ (q.dmaQ.filter (fun x => !x.started)).length → o = .next s)
    let dma := fun (op : DmaOp) => ({ op := op, ts := q.td (fieldC w), td := q.td (fieldImm w), par := (q.rd (fieldB w)).toNat
                                      count := if bitAt (fieldD w) 3 then some (fieldA w) else none, word := w.toNat, pc := s.pcAt c
                                      run := r } : DJob)
    let runs := fun (op : Nat) => s.executes c r op w { a := 63, b := 31, c := 7, d := 11, i := 7 }
    let ok := fun (op : DmaOp) => dmaOk op (q.td (fieldC w)) (q.td (fieldImm w))
    (runs 0x50 → (ok .copy = true → enters (exec (.dmaCopy c w) s) (dma .copy)) ∧
      (ok .copy = false → exec (.dmaCopy c w) s = .next (s.except c 2 (s.pcAt c)))) ∧
    (runs 0x150 → (ok .add = true → enters (exec (.dmaAdd c w) s) (dma .add)) ∧
      (ok .add = false → exec (.dmaAdd c w) s = .next (s.except c 2 (s.pcAt c)))) ∧
    (runs 0x250 → (ok .conv = true → enters (exec (.dmaConv c w) s) (dma .conv)) ∧
      (ok .conv = false → exec (.dmaConv c w) s = .next (s.except c 2 (s.pcAt c)))) ∧
    (s.executes c r 0x51 w { a := 63, b := 31, c := 7, d := 8, i := 0x1F07 } →
      ∀ ts td n, ts = q.td (fieldC w) → td = q.td (fieldImm w % 8) → n = bitsOf (fieldImm w) 12 8 + 1 →
      ts.kind = 1 → td.kind = 1 → ts.cmp = false → td.cmp = false → n ≤ ts.elems →
      enters (exec (.maskb c w) s) { op := .maskb, ts := ts, td := td, par := (q.rd (fieldB w)).toNat, width := n
                                     count := if bitAt (fieldD w) 3 then some (fieldA w) else none, word := w.toNat, pc := s.pcAt c
                                     run := r }) ∧
    (s.executes c r 0x52 w { a := 31, b := 31, i := 7 } → ∀ n, n = (q.rd (fieldA w)).toNat →
      (n % 32 = 0 → enters (exec (.drep c w) s) { op := .drep, off := (q.rd (fieldB w)).toNat, len := n, win := fieldImm w, word := w.toNat
                                                  pc := s.pcAt c, run := r }) ∧
      (n % 32 ≠ 0 → exec (.drep c w) s = .next (s.except c 2 (s.pcAt c))))

/-- Tier 1. A COPY moves its row (R204, R205): a row of a LINEAR source, in open, untagged, error-free windows of the core, stands in the
LINEAR destination afterwards; the job has left the queue and the counter it names, if any, is one higher. It holds the model to its
reading of log entry 80. -/
def Obligations.DmaCopyMovesTheRow : Prop :=
  ∀ (c : Fin 16) (s : State) (j : DJob), s.runs → (s.seqOf c).dmaQ = [j] → j.op = .copy → j.moved = false →
    j.ts.kind = 1 → j.td.kind = 1 → j.ts.cmp = false → j.td.cmp = false → j.ts.count = 1 → (s.seqOf c).wait = .none →
    ∀ x y n, x = (s.cores[c]).pad.win j.run.part j.ts.win → y = (s.cores[c]).pad.win j.run.part j.td.win → n = j.ts.row → 0 < n →
    x.isOpen = true → x.tagMode = 0 → j.ts.base + n ≤ x.size → (s.cores[c]).pad.firstBad x j.ts.base n = none →
    y.isOpen = true → y.tagMode = 0 → j.td.base + n ≤ y.size → bitAt y.attr 1 = true →
    (∀ a b, a < n → b < n → y.phys (j.td.base + a) = y.phys (j.td.base + b) → a = b) →
    (∀ q ∈ s.fab.reqs, q.core ≠ some c.val) → (∀ h ∈ s.fab.held, h.req.core ≠ some c.val) → s.sched.insts = [] →
      ∃ t, exec (.dmaComplete c {}) s = .next t ∧ (t.seqOf c).dmaQ = [] ∧
        (∀ i < n, (t.cores[c]).pad.mem.rd (y.phys (j.td.base + i)) = (s.cores[c]).pad.mem.rd (x.phys (j.ts.base + i))) ∧
        (∀ a, (∀ i < n, a ≠ y.phys (j.td.base + i)) → (t.cores[c]).pad.mem.rd a = (s.cores[c]).pad.mem.rd a) ∧
        (∀ k, j.count = some k → k < 64 → t.kget c k = Nat.min (s.kget c k + 1) 4294967295) ∧
        (∀ d : Fin 16, d ≠ c → t.cores[d] = s.cores[d])

/-- Tier 1. The top-k rows (R204, R294-R299): TKRST clears the list for its k, format, direction and index base; TKIN enters every element of the
rows it reads; the list becomes final with its counters; TKOUT writes a final list and gives its two counts, and waits for one that is not;
TKMRG waits for its merge. -/
def Obligations.TopKRows : Prop :=
  ∀ (c : Fin 16) (r : TaskRun) (w : BitVec 56) (s : State),
    let k := (s.rs c (fieldB w)).toNat
    let t0 := s.topk c
    (s.executes c r 0x60 w { b := 31, c := 31, d := 15, i := 1 } →
      (1 ≤ k → k ≤ 1024 → 4 ≤ fieldD w → fieldD w ≤ 7 → t0.isOpen = false ∨ t0.final = true →
        exec (.tkrst c w) s = .next ((s.modTopk c (fun _ => { isOpen := true, k := k, fmt := fieldD w, smallest := fieldImm w == 1
                                                              base := (s.rs c (fieldC w)).toNat % 4294967296 })).setPc c (s.pcAt c + 8))) ∧
      (k = 0 ∨ 1024 < k ∨ fieldD w < 4 ∨ 7 < fieldD w → exec (.tkrst c w) s = .next (s.except c 2 (s.pcAt c)))) ∧
    (s.executes c r 0x61 w { c := 7 } → ∀ d, d = (s.seqOf c).td (fieldC w) → t0.isOpen = true → d.fmt = t0.fmt → d.kind = 1 → d.cmp = false →
      r.part ≠ 0 → t0.base + t0.count + d.count * d.elems ≤ 4294967295 → ∀ e u rows, s.rowsRead c r (s.pcAt c) d d.row e d.count 0 = (u, .ok rows) →
        ∃ t, exec (.tkin c w e) s = .next t ∧ t.pcAt c = s.pcAt c + 8 ∧
          t.topk c = { (rows.flatMap (elems d.fmt)).foldl TopK.element (u.topk c) with
            final := (u.topk c).final && (rows.flatMap (elems d.fmt)).isEmpty }) ∧
    (s.runs → t0.isOpen = true → t0.final = false → (s.seqOf c).wait = .none →
      ∃ t, exec (.topkListFinal c) s = .next t ∧ t.topk c = { t0 with final := true } ∧ t.num (odCore 0x6103 c 2) = t0.nan) ∧
    (s.executes c r 0x62 w { a := 31, b := 31, c := 7 } →
      (t0.final = true → ∀ x, x = (s.cores[c]).pad.win r.part (fieldC w) → x.isOpen = true → x.tagMode = 0 → bitAt x.attr 1 = true →
        k + t0.out.length ≤ x.size →
        ∃ t, exec (.tkout c w) s = .next t ∧ t.pcAt c = s.pcAt c + 8 ∧
          (t.cores[c]).pad.mem = x.store k (s.cores[c]).pad.mem t0.out ∧
          (fieldA w ≠ 0 → t.rs c (fieldA w) = BitVec.ofNat 64 (t0.entries.length + 4294967296 * (t0.ties % 4294967296)))) ∧
      (t0.final = false → exec (.tkout c w) s = .next (s.waitFor c (.tkout (fieldA w) k (fieldC w))))) ∧
    (s.executes c r 0x63 w { b := 31 } → k < 65536 → bitsOf k 7 4 = 0 → s.groupOk c r.part (k % 16) = true →
      (∀ st ∈ grpStops (s.group (k % 16)), (stopCore st).isSome = true) → (r.part = 0 → grpLocal (s.group (k % 16)) = true) → t0.isOpen = true →
      t0.final = false → exec (.tkmrg c w) s = .next (s.waitFor c (.tkmrg (k % 16) (k / 256))))

/-- Tier 2. After any sequence of elements a top-k list holds the min(k, v) entries of highest rank, however the elements were divided
(R295): every element has its index, a NaN is counted and stays out, the list stands in rank order, and every element that is not in it
ranks behind all that are. From any state a list never outgrows its k and counts what enters. -/
def Obligations.TopKListHoldsTheHighestRanks : Prop :=
  (∀ (t : TopK) (vs : List Nat), t.entries.length ≤ t.k →
    (vs.foldl TopK.element t).entries.length ≤ t.k ∧ (vs.foldl TopK.element t).k = t.k ∧
    (vs.foldl TopK.element t).count = t.count + vs.length ∧
    (vs.foldl TopK.element t).nan = t.nan + (vs.filter (fmtNan t.fmt)).length) ∧
  (∀ (t : TopK) (vs : List Nat), t.entries = [] → t.count = 0 → t.base + vs.length ≤ 4294967295 →
    let u := vs.foldl TopK.element t
    let offered := (vs.zip (List.range vs.length)).filterMap (fun x => if fmtNan t.fmt x.1 then none else some (x.1, t.base + x.2))
    u.entries.length = Nat.min t.k offered.length ∧ (∀ x ∈ u.entries, x ∈ offered) ∧
      u.entries.Pairwise (fun x y => ranksBefore t.fmt t.smallest x y = true) ∧
      (∀ x ∈ offered, x ∉ u.entries → ∀ y ∈ u.entries, ranksBefore t.fmt t.smallest y x = true) ∧
      (∀ as bs, vs = as ++ bs → bs.foldl TopK.element (as.foldl TopK.element t) = u))

/-! Exceptions and the common checks. -/

/-- Tier 1. TRAP (R201, R215, R216): the task ends by exception 0x0B with the immediate as its detail; the record names code, PC, task and
detail, its count goes up by one, and the core has no task (stated for a scheduler that is not running, so that no new task takes over).
It holds the model to its reading of log entry 14. -/
def Obligations.TrapEndsTheTaskAndIsRecorded : Prop :=
  ∀ (c : Fin 16) (r : TaskRun) (w : BitVec 56) (s : State), s.executes c r 0x72 w { i := 0xFFFFFFFF } →
    exec (.trap c w) s = .next (s.except c 0x0B (s.pcAt c) (fieldImm w)) ∧
    (s.sched.running_ = false → ∃ t, exec (.trap c w) s = .next t ∧ (t.cores[c]).seq.task = none ∧
      t.num (odCore 0x6102 c 1) = 0x0B ∧ t.num (odCore 0x6102 c 2) = s.pcAt c % 2 ^ 32 ∧ t.num (odCore 0x6102 c 3) = r.task ∧
      t.num (odCore 0x6102 c 4) = fieldImm w ∧
      t.num (odCore 0x6102 c 8) = Od.counter (odCore 0x6102 c 8) (s.num (odCore 0x6102 c 8) + 1))

/-- Tier 2. Every row of the sequencer (R194, R195, R238): a word with a bit outside its fields or a reserved code of D, a reserved opcode,
or a PC outside w0, ends the task with ILLEGAL, and a word that cannot be read with ECC; where the guard does not hold nothing changes
but the PC, and where the word is another instruction's nothing at all. It holds the model to its readings of log entries 67, 68. -/
def Obligations.EveryRowIsCheckedAndGuarded : Prop :=
  ∀ (c : Fin 16) (r : TaskRun) (w : BitVec 56) (e : Finds) (s : State), ∀ x ∈ seqRows c w e,
    let k := s.cores[c]
    let n := s.fetched c r.part k.seq.pc
    let bad := k.pad.firstBad (k.pad.win r.part 0) k.seq.pc 8
    (s.fetches c r x.2.1 w → x.2.2.ok w.toNat = false → exec x.1 s = .next (s.except c 1 (s.pcAt c))) ∧
    (s.fetches c r x.2.1 w → x.2.2.ok w.toNat = true → k.seq.guardOk w.toNat = false → exec x.1 s = .next (s.setPc c (s.pcAt c + 8))) ∧
    (s.issues c r → bad = none → opReserved n = true → exec x.1 s = .next (s.except c 1 (s.pcAt c))) ∧
    (s.issues c r → bad = none → opReserved n = false → isRow x.2.1 n = false ∨ n % 2 ^ 56 ≠ w.toNat → exec x.1 s = .next s) ∧
    (s.issues c r → ∀ a, bad = some a → exec x.1 s = .next ((s.padUncorrectable c a).except c 7 (s.pcAt c))) ∧
    (k.seq.task = some r → k.seq.wait = .none → k.frozen = false → s.runs →
      s.pcOk c r.part (s.pcAt c) = false → exec x.1 s = .next (s.except c 1 (s.pcAt c))) ∧
    (k.seq.task = none ∨ k.seq.wait ≠ .none ∨ k.frozen = true ∨ ¬ s.runs → exec x.1 s = .next s)

/-! Messages of the fabric. -/

/-- Tier 1. WRITE, ADD and READ at a core of the module (R236, R240, R242, R272): the bytes are stored or added, every other byte of every
scratchpad stays, and the sender gets an ACK; a READ is answered with one RDATA for each line and changes no byte; a stale generation is
answered with NACK reason 1 and changes no byte (R243: the sender of a READ so answered raises WINDOW). A counted message is then counted (R244). -/
def Obligations.RequestsActAtTheirOwner : Prop :=
  ∀ (m : Msg) (s : State) (c : Fin 16) (ty : Nat) (s0 : State), stopCore m.dstop = some c → s.lands ty m → s0 = s.landed ty m →
      m.sdev = s0.device →
    let k := (s0.cores[c]).pad
    let x := k.win m.part m.win
    let a := 32 * m.offset
    let back : Msg := { ddev := m.sdev, dstop := m.sstop, sdev := m.sdev, sstop := m.dstop, part := m.part, win := m.win
                        gen := m.gen, tag := m.tag }
    (x.isOpen = true → x.gen = m.gen → x.tagMode = 0 → m.win % 8 ≠ 0 →
      (ty = 0 → a + m.data.length ≤ x.size → m.data.length ≤ 128 → bitAt x.attr 3 = true →
        ∃ u : State, (u.cores = s0.cores.set c { s0.cores[c] with pad := k.write x a m.data }) ∧ u.fab = s0.fab ∧ u.ext = s0.ext ∧
          (∀ i < m.data.length, ((u.cores[c]).pad.mem.rd (x.phys (a + i))) = m.data.getD i 0) ∧
          (∀ b, (∀ i < m.data.length, b ≠ x.phys (a + i)) → (u.cores[c]).pad.mem.rd b = k.mem.rd b) ∧
          exec (.msgWrite m {} .clean) s = .next ((if m.count then u.counted c m else u).reply m none)) ∧
      (ty = 1 → m.afmt = 0 → m.count = false → ∀ n, m.data.length = 4 * n → n ≤ 32 → a + 4 * n ≤ x.size → bitAt x.attr 3 = true →
        k.firstBad x a (4 * n) = none →
        ∃ t, exec (.msgAdd m {} .clean {}) s = .next t ∧ t.fab.mesh = s0.fab.mesh ++ [(4, back)] ∧
          (∀ i < n, leNat ((t.cores[c]).pad.bytes x (a + 4 * i) 4) =
            (leNat (k.bytes x (a + 4 * i) 4) + leNat (slice m.data (4 * i) 4)) % 2 ^ 32) ∧
          (∀ b, (∀ i < 4 * n, b ≠ x.phys (a + i)) → (t.cores[c]).pad.mem.rd b = k.mem.rd b) ∧
          (∀ d : Fin 16, d ≠ c → t.cores[d] = s0.cores[d])) ∧
      (ty = 2 → ∀ n, n = m.len % 4 + 1 → a + 128 * n ≤ x.size → bitAt x.attr 2 = true → k.firstBad x a (128 * n) = none →
        ∃ t, exec (.msgRead m {} {}) s = .next t ∧ t.cores = s0.cores ∧
          t.fab.mesh = s0.fab.mesh ++ (List.range n).map (fun i =>
            ((3, { back with count := i + 1 == n, len := 3, offset := m.offset + 4 * i, data := k.bytes x (a + 128 * i) 128 }) : Nat × Msg)))) ∧
    (x.gen ≠ m.gen →
      (ty = 0 → ∃ t, exec (.msgWrite m {} .clean) s = .next t ∧ t.cores = s0.cores ∧
        t.fab.mesh = s0.fab.mesh ++ [(5, { back with reason := 1 })]) ∧
      (ty = 2 → ∃ t, exec (.msgRead m {} {}) s = .next t ∧ t.cores = s0.cores ∧
        t.fab.mesh = s0.fab.mesh ++ [(5, { back with reason := 1 })])) ∧
    (∀ q n r, s0.reqOf m.dstop m.tag = some q → q.type = 2 → q.stop ≠ stopFE → q.core = some n → q.task = some r → ty = 5 →
      m.reason = 1 → exec (.msgNack m {}) s = .next
        (((((s0.reqDone m.dstop m.tag).bump (odCore 0x7100 (coreNo n) 7)).exceptRun (coreNo n) r 3 q.pc).failGet (coreNo n) r q.pc).recheck q))

/-- Tier 1. Responses, credits and timeouts (R133, R241-R243, R271-R275): the last RDATA, an ACK and a NACK complete the request they
answer, a late one is dropped and counted; a STALE request is counted at its sender's core, a TAG or ECC one raises its exception there;
CREDIT gives the builder or Peony its slots; a request that has waited its limit ends and is counted. It holds the model to its reading
of log entry 29. -/
def Obligations.ResponsesCompleteTheirRequest : Prop :=
  ∀ (m : Msg) (s : State),
    (∀ (ty : Nat) (s0 : State), s.lands ty m → s0 = s.landed ty m → s0.fab.held = [] →
      let gone := fun (t : State) => t.fab.reqs = removeFirst (fun q => q.stop == m.dstop && q.tag == m.tag) s0.fab.reqs
      (∀ q, s0.reqOf m.dstop m.tag = some q →
        (ty = 3 → m.count = true → ∃ t, exec (.msgRdata m {}) s = .next t ∧ gone t ∧ t.dict = s0.dict) ∧
        (ty = 3 → m.count = false → exec (.msgRdata m {}) s = .next (s0.getData q m.data false)) ∧
        (ty = 4 → ∃ t, exec (.msgAck m {}) s = .next t ∧ gone t ∧ t.dict = s0.dict) ∧
        (ty = 5 → m.reason = 1 → q.type ≠ 2 → q.stop ≠ stopFE → ∀ n, q.core = some n →
          ∃ t, exec (.msgNack m {}) s = .next t ∧ gone t ∧ t.num (odCore 0x7100 (coreNo n) 7) =
            Od.counter (odCore 0x7100 (coreNo n) 7) (s0.num (odCore 0x7100 (coreNo n) 7) + 1)) ∧
        (ty = 5 → q.type ≠ 2 → ∀ n r, q.core = some n → q.task = some r →
          (m.reason = 3 → exec (.msgNack m {}) s = .next (((s0.reqDone m.dstop m.tag).exceptRun (coreNo n) r 8 q.pc).recheck q)) ∧
          (m.reason = 4 → exec (.msgNack m {}) s = .next (((s0.reqDone m.dstop m.tag).exceptRun (coreNo n) r 7 q.pc).recheck q)))) ∧
      (s0.reqOf m.dstop m.tag = none →
        let late := fun (o : Out) => ∃ t, o = .next t ∧ t.fab.reqs = s0.fab.reqs ∧ t.cores = s0.cores ∧
          t.num (od 0x18F0 7) = Od.counter (od 0x18F0 7) (s0.num (od 0x18F0 7) + 1)
        (ty = 3 → late (exec (.msgRdata m {}) s)) ∧ (ty = 4 → late (exec (.msgAck m {}) s)) ∧
        (ty = 5 → 1 ≤ m.reason → m.reason ≤ 6 → late (exec (.msgNack m {}) s))) ∧
      (ty = 5 → m.reason = 0 ∨ 6 < m.reason → ∃ t, exec (.msgNack m {}) s = .next t ∧ t.fab.reqs = s0.fab.reqs ∧ t.cores = s0.cores ∧
        t.num (od 0x18F0 4) = Od.counter (od 0x18F0 4) (s0.num (od 0x18F0 4) + 1)) ∧
      (ty = 6 → ∀ c, stopCore m.sstop = some c → ∃ t, exec (.msgCredit m {}) s = .next t ∧
        (∀ old new : List Credit, (m.dstop = stopFE ∧ old = s0.books.credits ∧ new = t.books.credits) ∨
            (m.dstop = stopPE ∧ old = s0.peony.credits ∧ new = t.peony.credits) →
          (creditOf new c.val m.part m.win).map (fun x => (x.gen, x.n)) = some (m.gen,
            (match creditOf old c.val m.part m.win with | some x => if x.gen = m.gen then x.n else 0 | none => 0) + m.tag)))) ∧
    (s.runs → s.fab.held = [] → ∀ (stop : Fin 25) (tag instant : Nat) (q : Req), s.reqOf stop.val tag = some q → q.type ≠ 2 → q.stop ≠ stopFE →
      q.since + s.reqLimit q ≤ Nat.max s.frame.now instant → ∃ t, exec (.requestTimeout stop tag instant) s = .next t ∧
        t.fab.reqs = removeFirst (fun q => q.stop == stop.val && q.tag == tag) s.fab.reqs ∧ t.fab.late = s.fab.late ++ [(stop.val, tag)] ∧
        ∀ o, o = od 0x18F0 (if q.ddev = s.device then 5 else 6) → t.num o = Od.counter o (s.num o + 1))

/-- Tier 1. The messages of the builder, Peony, top-k lists and groups (R135, R271, R283, R285, R287): a report or a block gathers its
messages until the last one; a list block opens with its summary; a barrier counts arrivals and releases at the member count; a reserved
type is dropped and counted, and so is a message whose header a hop found uncorrectable. It holds the model to its reading of log entry
73. -/
def Obligations.CollectiveMessagesAreTaken : Prop :=
  ∀ (m : Msg) (s : State) (ty : Nat) (s0 : State), s.lands ty m → s0 = s.landed ty m →
    let dropped := fun (o : Out) => ∃ t, o = .next t ∧ t.fab.reqs = s0.fab.reqs ∧ t.cores = s0.cores ∧ t.books = s0.books ∧
      t.num (od 0x18F0 2) = Od.counter (od 0x18F0 2) (s0.num (od 0x18F0 2) + 1)
    (ty = 7 → m.count = false → ∃ u : State, exec (.msgReport m {} .clean) s = .next (u.reply m none) ∧
      u.books.asm.find? (fun x => x.1 == m.sstop) = some (m.sstop,
        padTo (32 * m.offset) (((s0.books.asm.find? (fun x => x.1 == m.sstop)).map (·.2)).getD []) ++ m.data) ∧
      u.fab = s0.fab ∧ u.cores = s0.cores) ∧
    (∀ ans : Bool, m.count = false →
      let find := fun (l : List PBlock) => l.find? (fun b => b.dev == m.sdev && b.answer == ans)
      let after := s0.peony.blocks.find? (fun b => (b.dev == m.sdev && b.answer == ans) && b.next == m.tag)
      let o := if ans then exec (.msgA2aRow m {}) s else exec (.msgA2aReq m {}) s
      ty = (if ans then 9 else 8) → ∃ t, o = .next t ∧ t.peony.tables = s0.peony.tables ∧
        (∀ b, after = some b → find t.peony.blocks = some { b with next := b.next + 1, data := b.data ++ m.data }) ∧
        (after = none → opensBlock m = true → find t.peony.blocks = some { dev := m.sdev, answer := ans, data := m.data }) ∧
        (after = none → opensBlock m = false → find t.peony.blocks = none)) ∧
    (∀ c, stopCore m.dstop = some c →
      let g := m.offset / 65536 % 16
      let e := s0.group g
      let block := fun (down : Bool) => ({ src := (s0.grpIndex e m.sdev m.sstop).getD 0, down := down, group := g, seq := m.offset / 256 % 256
                                           k := fieldLe m.data 0 2, fmt := fieldLe m.data 2 1, smallest := fieldLe m.data 3 1 == 1
                                           valid := fieldLe m.data 4 4, ties := fieldLe m.data 8 4, nan := fieldLe m.data 12 4 } : ListBlock)
      (m.tag = 0 → m.count = false →
        (ty = 10 → exec (.msgTkm m {}) s = .next (s0.modCore c (fun k => { k with blocks := k.blocks ++ [block false] }))) ∧
        (ty = 13 → exec (.msgTkmFinal m {}) s = .next (s0.modCore c (fun k => { k with blocks := k.blocks ++ [block true] })))) ∧
      (grpValid e = true → ∀ k, k = (e.getD 12 0).toNat →
        (ty = 11 → s0.kget c k + 1 < grpSize e → exec (.msgBarArrive m {}) s = .next (s0.kadd c k 1)) ∧
        (ty = 11 → s0.kget c k + 1 = grpSize e → exec (.msgBarArrive m {}) s = .next ((s0.kset c k 0).release c g)) ∧
        (ty = 12 → exec (.msgBarRelease m {}) s = .next (s0.release c g)))) ∧
    (s.fab.holds 15 m = false → ty = 14 → ∃ t, exec (.msgReservedType m {}) s = .next t ∧ t.cores = s0.cores ∧
      t.num (od 0x18F0 4) = Od.counter (od 0x18F0 4) (s0.num (od 0x18F0 4) + 1)) ∧
    ((ty = 0 → dropped (exec (.msgWrite m { lost := true } .clean) s)) ∧ (ty = 4 → dropped (exec (.msgAck m { lost := true }) s)) ∧
      (ty = 6 → dropped (exec (.msgCredit m { lost := true }) s)) ∧ (ty = 12 → dropped (exec (.msgBarRelease m { lost := true }) s)))

/-! Scratchpad scrubbing and repair. -/

/-- Tier 1. Scrubbing, tests and repair of the scratchpads (R237-R239, R248-R253): a scrub step reads the quad's next line and goes on,
counting the pass after the last; a preserving test leaves every byte, and a faulty row of a bank with a usable spare is mapped to the
lowest one; the start-up test zeroes the scratchpads and closes their windows, before RUN only. It holds the model to its readings of
log entries 23, 82, 83, 116. -/
def Obligations.ScratchpadsAreScrubbedAndRepaired : Prop :=
  ∀ (c : Fin 16) (quad : Fin 24) (s : State),
    let k := (s.cores[c]).pad
    let n := k.scrubPos[quad] % 8192
    (s.runs → (∀ x ∈ lineWords (lineAddr quad.val n), k.badWord x = false) → ∃ t, exec (.scrubStep c quad {} false) s = .next t ∧
      (t.cores[c]).pad.scrubPos[quad] = (n + 1) % 8192 ∧ (t.cores[c]).pad.mem = k.mem ∧
      (n = 8191 → t.num (odCore 0x7100 c 4) = Od.counter (odCore 0x7100 c 4) (s.num (odCore 0x7100 c 4) + 1)) ∧
      (n ≠ 8191 → t.dict = s.dict)) ∧
    (s.runs → (∀ x ∈ lineWords (lineAddr quad.val n), k.badWord x = false) → ∃ t, exec (.scrubStep c quad { hits := [(0, false)] } false) s = .next t ∧
      (t.cores[c]).pad.mem = k.mem ∧ t.num (odCore 0x7100 c 1) = Od.counter (odCore 0x7100 c 1) (s.num (odCore 0x7100 c 1) + 1)) ∧
    (s.runs → (∀ x ∈ lineWords (lineAddr quad.val n), k.badWord x = false) → ∃ t, exec (.scrubStep c quad { hits := [(0, true)] } false) s = .next t ∧
      (t.cores[c]).pad.mem = k.mem ∧ Sparse.get noBit (t.cores[c]).pad.bad (lineAddr quad.val n / 8) = true ∧
      t.num (odCore 0x7100 c 3) = 8192 * quad.val + n ∧
      t.num (odCore 0x7100 c 2) = Od.counter (odCore 0x7100 c 2) (s.num (odCore 0x7100 c 2) + 1)) ∧
    (∀ (bank : Fin 4) (row : Fin 260), s.runs →
      k.marchQ.find? (fun y => y.quad == quad.val && y.bank == bank.val) = some { quad := quad.val, bank := bank.val, row := row.val } →
      (∃ t, exec (.preservingTestRow c quad bank row false) s = .next t ∧ (t.cores[c]).pad.mem = k.mem ∧
        (t.cores[c]).pad.marchQ = k.marchQ.erase { quad := quad.val, bank := bank.val, row := row.val } ∧ t.dict = s.dict) ∧
      (row.val < 256 → k.repairs.find? (fun r => r.quad == quad.val && r.bank == bank.val && r.row == row.val) = none →
        ∀ sp, k.spareOf quad.val bank.val = some sp → ∃ t, exec (.preservingTestRow c quad bank row true) s = .next t ∧
          (t.cores[c]).pad.mem = k.mem ∧
          (t.cores[c]).pad.repairs = k.repairs ++ [{ quad := quad.val, bank := bank.val, row := row.val, spare := sp }] ∧
          t.num (odCore 0x7100 c 16) = k.repairs.length + 1)) ∧
    (s.frame.run = false → ∃ t, exec (.startupMarchTest []) s = .next t ∧ ∀ d : Fin 16, (t.cores[d]).pad = (s.cores[d]).pad.started) ∧
    (s.frame.run = true → ∀ bad, exec (.startupMarchTest bad) s = .next s) ∧
    (∀ (w : Writer), (s.at w.t).accepts w 0x7000 2 (.num 1) → ∃ t, exec (.marchRequest w 1) s = .next t ∧
      (t.cores[(0 : Fin 16)]).pad.marchQ = allRows ∧ (∀ d : Fin 16, d ≠ 0 → t.cores[d] = s.cores[d]) ∧ t.hap.lastStatus = 0) ∧
    (∀ (w : Writer), (s.at w.t).accepts w 0x7000 4 (.num 1) → ∃ t, exec (.rowRepairClear w 1) s = .next t ∧ t.cores = s.cores ∧
      t.dict.armed.contains (od 0x7000 4) = true ∧ t.hap.lastStatus = 0)

/-! Ports and frames. -/

/-- Tier 1. PEER links, links and gates (R261, R276-R280, R445, R446, R449): the messages of a good peer frame enter the mesh; pauses are
repeated, held and ended; an assembly buffer's frame leaves PEER_FLUSH_TIME after the buffer was opened; a link that comes up or goes
down is shown, and a sensor port's queue is flushed; the gate list goes on to its last entry; a recovery function without a frame for
CB_RESET_TIME is forgotten. It holds the model to its readings of log entries 53, 94, 95, 97, 150. -/
def Obligations.PeerLinksAndPortsWork : Prop :=
  ∀ (p : Fin 2) (s : State),
    (∀ (f : RawFrame) (e : EthIn) (ms : List (Nat × Msg)), s.net.link (10 + p.val) = true → f.fcsOk = true →
      s.dstOk (10 + p.val) (f.bytes.take 6) = true → fieldBe f.bytes 12 2 ≠ 0x88F7 → fieldBe f.bytes 12 2 ≠ 0x8808 →
      (s.q[peerInQ p (peerClass f.bytes)]).pkts = [] → ceilDiv f.bytes.length 32 ≤ 4096 → s.flag (netOd (10 + p.val) 0x0D) = false →
      parseEth f.bytes = some e → s.vlanOk (10 + p.val) e = true → s.peerMsgs f.bytes.length e = some ms →
      ∃ t, exec (.peerFrameReceive p f .clean) s = .next t ∧ t.fab.mesh = s.fab.mesh ++ ms ∧ t.cores = s.cores ∧
        t.num (od 0x18F0 0x0C) = Od.counter (od 0x18F0 0x0C) (s.num (od 0x18F0 0x0C) + 1)) ∧
    (∀ cls : Fin 4, s.fab.pfcSent.contains (p.val, cls.val) = true → (s.q[peerInQ p cls.val]).congested = true →
      s.net.link (10 + p.val) = true → ∃ t, exec (.pfcPauseRepeat p cls) s = .next t ∧ t.fab = s.fab ∧
        t.net.sent = [{ port := 10 + p.val, dst := [0x01, 0x80, 0xC2, 0, 0, 0x01], etype := 0x8808, proto := 0
                        payload := natBe 2 0x0101 ++ natBe 2 (2 ^ s.pfcPrio cls.val) ++
                          (List.range 8).flatMap (fun i => natBe 2 (if i = s.pfcPrio cls.val then 65535 else 0)) }]) ∧
    (∀ (prio : Fin 8) (quanta : Nat) (ecc : QueueEcc), s.net.link (10 + p.val) = true →
      ∃ t, exec (.pfcPauseReceive p prio quanta ecc) s = .next t ∧ t.fab.pfcHeld.contains (p.val, prio.val) = decide (quanta ≠ 0)) ∧
    (∀ (prio : Fin 8) (ecc : QueueEcc), ∃ t, exec (.pfcPauseExpire p prio ecc) s = .next t ∧ t.fab.pfcHeld = s.fab.pfcHeld.filter (fun x => x != (p.val, prio.val))) ∧
    (∀ (dev : Nat) (cls : Fin 4) (a : Assembly), s.fab.assembly.find? (fun a => a.dev == dev && a.cls == cls.val) = some a →
      s.peerPort dev = some p → s.peerFits p (s.peerFrame p a) = true → (∀ k < 4, s.fab.ready 4 k = none) →
      ∃ t, exec (.peerAssemblyClose dev cls) s = .next t ∧ t.frame.now = Nat.max s.frame.now (a.opened + 2 * s.num (od 0x1800 3)) ∧
        t.fab.assembly = s.fab.assembly.filter (fun a => !(a.dev == dev && a.cls == cls.val)) ∧
        t.num (od 0x18F0 0x0B) = Od.counter (od 0x18F0 0x0B) (s.num (od 0x18F0 0x0B) + 1)) ∧
    (∀ x : Fin 12, s.net.link x.val = false → s.flag (netOd x.val 1) = true → ∃ t, exec (.linkUp x) s = .next t ∧
      t.net.link x.val = true ∧ t.num (netOd x.val 2) = 1 ∧
      (∀ h : Fin 8, h.val = x.val → s.slotEmpty h.val = false → (s.head h).state = .active → (t.head h).state = .awaiting)) ∧
    (∀ x : Fin 12, s.net.link x.val = true → ∃ t, exec (.linkDown x) s = .next t ∧ t.net.link x.val = false ∧
      t.num (netOd x.val 2) = 0 ∧ t.num (netOd x.val 0x0B) = Od.counter (netOd x.val 0x0B) (s.num (netOd x.val 0x0B) + 1) ∧
      (∀ h : Fin 8, h.val = x.val → (t.q[(Fin.castLE (by decide) h : Fin 24)]).pkts = [])) ∧
    (∀ ecc : QueueEcc, s.frame.run = true → ∀ n, n = (s.net.host[p]).entry → n + 1 < (s.gateList p).length →
      ∃ t, exec (.gateListIntervalEnd p ecc) s = .next t ∧ (t.net.host[p]).entry = n + 1 ∧
        ∀ stop mask, (s.gateSpans p)[n]? = some (stop, mask) → t.frame.now = Nat.max s.frame.now stop) ∧
    (∀ vlan instant : Nat, ∃ t, exec (.cbResetTimeout vlan instant) s = .next t ∧
      t.net.cb = s.net.cb.filter (fun r => r.vlan != vlan ||
        decide (Nat.max s.frame.now instant < r.last + 1000000 * s.num (od 0x1000 8))))

/-- Tier 1. Frames from the sensors and the host (R81, R442-R444, R446): a good UDP frame of a sensor port that no stream filter matches is
written whole to its queue with its stamp, and one of another form is counted as dropped; a HOST frame passes its queue and is counted;
an ARP request and an echo request for the module's address are answered. It holds the model to its readings of log entries 66, 91, 93,
96, 102. -/
def Obligations.ReceivedFramesAreTakenOrAnswered : Prop :=
  ∀ s : State,
    (∀ (p : Fin 8) (f : RawFrame) (e : EthIn) (instant : Nat), s.net.link p.val = true → f.fcsOk = true → parseEth f.bytes = some e →
      ∀ q : Fin 24, q = Fin.castLE (by decide) p →
      ((sensPayload f.bytes).isSome = true → s.vlanOk p.val e = true →
        (∀ f ∈ chunksOf 16 8 (s.oct (netOd p.val 0x0F)), qciMatches f e = false) → s.num (od 0xE000 4) ≠ 3 →
        (s.q[q]).fill + ceilDiv f.bytes.length 32 ≤ 8192 → ∃ t, exec (.sensFrameReceive p f instant) s = .next t ∧
          (t.q[q]).pkts = (s.q[q]).pkts ++ [{ data := f.bytes, stamp := instant }] ∧ (t.head p).lastPacket = instant ∧ t.cores = s.cores ∧
          t.num (netOd p.val 6) = Od.counter (netOd p.val 6) (s.num (netOd p.val 6) + 1)) ∧
      ((sensPayload f.bytes).isNone = true → e.etype ≠ 0x88F7 → ∃ t, exec (.sensFrameReceive p f instant) s = .next t ∧ t.q = s.q ∧
        t.num (netOd p.val 7) = Od.counter (netOd p.val 7) (s.num (netOd p.val 7) + 1))) ∧
    (∀ (h : Fin 2) (f : RawFrame) (e : EthIn), s.net.link (hostPort h) = true → f.fcsOk = true → parseEth f.bytes = some e →
      (∀ instant : Nat, s.dstOk (hostPort h) e.dst = true → s.vlanOk (hostPort h) e = true → e.etype = 0x0806 →
        (∀ f ∈ chunksOf 16 8 (s.oct (netOd (hostPort h) 0x0F)), qciMatches f e = false) → s.flag (netOd (hostPort h) 0x0D) = false →
        ∀ q : Fin 24, q = Fin.ofNat 24 (8 + h.val) → (s.q[q]).pkts = [] → ceilDiv f.bytes.length 32 ≤ 2048 →
        ∃ t, exec (.hostFrameReceive h f .clean instant) s = .next t ∧ (t.q[q]).pkts = [] ∧ t.cores = s.cores ∧
          (t.net.host[h]).macs.head? = some (fieldBe e.body 14 4, e.src) ∧
          t.num (netOd (hostPort h) 6) = Od.counter (netOd (hostPort h) 6) (s.num (netOd (hostPort h) 6) + 1)) ∧
      (s.power.supervisor = true → s.lineReady h →
        (e.etype = 0x0806 → e.body.take 8 = [0, 1, 8, 0, 6, 4, 0, 1] → 28 ≤ e.body.length → fieldBe e.body 24 4 = s.ownIp →
          ∃ t, exec (.arpRequest h f) s = .next t ∧
            t.net.sent = [{ port := hostPort h, cls := 0, dst := slice e.body 8 6, vlan := s.num (netOd (hostPort h) 0x0A), etype := 0x0806
                            proto := 0, payload := [0, 1, 8, 0, 6, 4, 0, 2] ++ s.ownMac (hostPort h) ++ natBe 4 s.ownIp ++ slice e.body 8 10
                            at_ := s.lineFree h }]) ∧
        (∀ i : IpIn, e.etype = 0x0800 → parseIp e.body = some i → i.fragment = false → i.ihl = 20 → i.proto = 1 → i.dst = s.ownIp →
          i.body.take 2 = [8, 0] → 8 ≤ i.body.length → sumOk i.body = true →
          ∃ t x, exec (.icmpEcho h f) s = .next t ∧ t.net.sent = [x] ∧ x.proto = 1 ∧ x.dstIp = i.src ∧ x.srcIp = s.ownIp ∧
            x.payload.take 2 = [0, 0] ∧ x.payload.drop 4 = i.body.drop 4)))

/-! Ingest, heads and poses. -/

/-- Tier 1. From the queue to the cell table (R55, R59, R60, R63, R64, R68-R70, R78-R80, R84, R89, R93, R94, R96, R98, R100): a free engine
takes the next packet of its port, from its queue or from the replay input; while port A is free the front emitted point is given to its
sweep and counted, or goes on compensated to the grids it enters; the front point enters its next grid as a new entry, into its entry,
or is refused; FLUSH empties a queue. It holds the model to its readings of log entries 16, 77. -/
def Obligations.PointsReachTheCellTable : Prop :=
  ∀ s : State, s.runs →
    let of := fun (prev : Bool) (t : State) => if prev then t.frame.comp else t.frame.ing
    (∀ (p : Fin 8) (e : Fin 16) (ecc : QueueEcc) (s1 : State), (s.engine e).busy = false →
      (s.nextPacket p ecc = (s1, none) → exec (.packetParseStart p e ecc) s = .next s1) ∧
      (∀ (payload : Bytes) (stamp : Nat), s.nextPacket p ecc = (s1, some (payload, stamp)) →
        (s.program p = 0xFF → exec (.packetParseStart p e ecc) s = .next s1) ∧
        (s.program p ≠ 0xFF → ∀ ws, ws = s.ing.programs[s.program p]?.getD [] →
          (ws ≠ [] → ∃ t, exec (.packetParseStart p e ecc) s = .next t ∧ t.q = s1.q ∧ t.ing.packets = s.ing.packets + 1 ∧
            t.engine e = { busy := true, pkt := s.ing.packets, port := p, words := ws, payload := payload, stamp := stamp
                           base := (stamp : Int) - (s.calRecord p).delay } ∧
            t.num (portOd 0x3104 p 1) = Od.counter (portOd 0x3104 p 1) (s1.num (portOd 0x3104 p 1) + 1)) ∧
          (ws = [] → ∃ t, exec (.packetParseStart p e ecc) s = .next t ∧ t.q = s1.q ∧ t.engine e = s.engine e ∧
            t.num (portOd 0x3104 p 0x0E) = Od.counter (portOd 0x3104 p 0x0E) (s1.num (portOd 0x3104 p 0x0E) + 1))))) ∧
    (∀ (p : Fin 8) (q : Fin 24) (k : QPacket) (rest : List QPacket), q = Fin.castLE (by decide) p → (s.q[q]).pkts = k :: rest →
      (s.nextPacket p .clean).2 = some ((sensPayload k.data).getD [], k.stamp) ∧ (((s.nextPacket p .clean).1).q[q]).pkts = rest) ∧
    (∀ (p0 : Point) (rest : List Point), s.ing.ins = [] → s.ing.comp = p0 :: rest →
      let prev := p0.prev && decide (p0.time < s.frame.ing.start) && decide ((s.frame.comp.start : Int) ≤ p0.time) && !s.books.scanned
      let p := { p0 with prev := prev }
      let ctx := of prev s
      ((p0.insert = false ∨ s.frame.run = false) →
        exec .pointCompensate s = .next { s with ing := { s.ing with comp := rest } }) ∧
      (p0.insert = true → s.frame.run = true →
        ((s.frame.ing.end_ : Int) ≤ p.time → ∃ t, exec .pointCompensate s = .next t ∧ t.ing = { s.ing with comp := rest } ∧
          (of p0.prev t).pts = { (of p0.prev s).pts with future := (of p0.prev s).pts.future + 1 }) ∧
        (p.time < (s.frame.ing.end_ : Int) → p.time < (ctx.start : Int) → ∃ t, exec .pointCompensate s = .next t ∧ t.ing = { s.ing with comp := rest } ∧
          (of p0.prev t).pts = { (of p0.prev s).pts with late := (of p0.prev s).pts.late + 1 }) ∧
        (p.time < (s.frame.ing.end_ : Int) → (ctx.start : Int) ≤ p.time → s.budget prev (s.priority p) ≤ ctx.pts.admitted →
          ∃ t, exec .pointCompensate s = .next t ∧ t.ing = { s.ing with comp := rest } ∧ bitAt (of prev t).cIngest 1 = true ∧
            (of prev t).pts = { ctx.pts with budget := ctx.pts.budget + 1 }) ∧
        (p.time < (s.frame.ing.end_ : Int) → (ctx.start : Int) ≤ p.time → ctx.pts.admitted < s.budget prev (s.priority p) →
          ∀ (q : Point) (gap : Bool),
          s.compensatePoint ctx { p with offset := ((p.time - ctx.start) / 1000).toNat % 2 ^ 24 } = (q, gap) →
          ∃ t, exec .pointCompensate s = .next t ∧ t.ing.comp = rest ∧ (of prev t).pts.admitted = ctx.pts.admitted + 1 ∧
            (gap = true → bitAt (of prev t).cIngest 4 = true) ∧
            (s.gridsOf q.xyz ≠ [] → t.ing.ins = [{ q with grids := s.gridsOf q.xyz }]) ∧
            (s.gridsOf q.xyz = [] → t.ing.ins = [] ∧ (of prev t).cells.outside = ctx.cells.outside + 1)))) ∧
    (∀ (ctx : FrameCtx) (p : Point),
      (ctx.rest = true → ∀ c, c = [p.raw.1, p.raw.2.1, p.raw.2.2].map toRecord → (s.compensatePoint ctx p).1.xyz = satCoords c ∧
        (s.compensatePoint ctx p).1.sat = outOfRange c ∧ (s.compensatePoint ctx p).1.extrap = true ∧
        (s.compensatePoint ctx p).1.log = false ∧ (s.compensatePoint ctx p).2 = true) ∧
      (ctx.rest = false → ∀ (l f : PoseSample) (pt : Pose) (c : List Int), s.lastSample = some l → s.ing.samples.head? = some f →
        poseAt (s.numFor p.prev (od 0x3000 1)) s.ing.samples p.time = some pt →
        c = compensated ctx.pref pt p.raw (poseHeld s.ing.samples p.time ctx.end_) → (s.compensatePoint ctx p).1.xyz = satCoords c ∧
        (s.compensatePoint ctx p).1.sat = outOfRange c ∧
        (s.compensatePoint ctx p).1.extrap = (decide ((l.time : Int) < p.time) || decide (p.time < f.time)) ∧
        (s.compensatePoint ctx p).1.log = decide ((l.time : Int) < p.time) ∧ (s.compensatePoint ctx p).1.epoch = s.ing.epoch ∧
        (s.compensatePoint ctx p).2 = decide ((l.time : Int) + 1000 * s.numFor p.prev (od 0x3000 2) < p.time))) ∧
    (∀ (p : Point) (rest : List Point) (g : Nat) (gs : List Nat), s.ing.ins = p :: rest → p.grids = g :: gs →
      let tag := s.sweepTag p.prev
      let key := s.pointKey g tag p.xyz
      let c := p.entry (s.gridK g) key tag
      let after := fun (ok : Bool) (t : State) =>
        t.ing.ins = (if gs = [] then rest else
          { p with grids := gs, took := if ok then p.took ++ [g] else p.took, refused := p.refused || !ok } :: rest) ∧
        (of p.prev t).pts.inserted = (of p.prev s).pts.inserted + (if gs = [] ∧ (ok = true ∨ p.took ≠ []) then 1 else 0) ∧
        (of p.prev t).pts.cellFull = (of p.prev s).pts.cellFull + (if gs = [] ∧ (ok = false ∨ p.refused = true) then 1 else 0)
      (∀ pl, s.cells.insertCase (s.bucket key) key tag = (.created, pl) → ∃ t, exec .cellInsert s = .next t ∧
        t.cells.at pl = some c ∧ (∀ x, x ≠ pl → t.cells.at x = s.cells.at x) ∧ after true t ∧
        (of p.prev t).cells.created = (of p.prev s).cells.created + 1) ∧
      (∀ pl e, s.cells.insertCase (s.bucket key) key tag = (.aggregated, pl) → s.cells.live pl = some e →
        ∃ t, exec .cellInsert s = .next t ∧ t.cells.at pl = some (e.addPoint c) ∧ (∀ x, x ≠ pl → t.cells.at x = s.cells.at x) ∧
          after true t ∧ (of p.prev t).cells.aggregated = (of p.prev s).cells.aggregated + 1) ∧
      (∀ pl, s.cells.insertCase (s.bucket key) key tag = (.saturated, pl) → ∃ t, exec .cellInsert s = .next t ∧ t.cells = s.cells ∧
        after true t ∧ (of p.prev t).cells.saturated = (of p.prev s).cells.saturated + 1) ∧
      (∀ pl, s.cells.insertCase (s.bucket key) key tag = (.bucketFull, pl) → ∃ t, exec .cellInsert s = .next t ∧ t.cells = s.cells ∧
        after false t ∧ (of p.prev t).cells.refusedBucket = (of p.prev s).cells.refusedBucket + 1) ∧
      (∀ pl, s.cells.insertCase (s.bucket key) key tag = (.limit, pl) → ∃ t, exec .cellInsert s = .next t ∧ t.cells = s.cells ∧
        after false t ∧ (of p.prev t).cells.refusedLimit = (of p.prev s).cells.refusedLimit + 1)) ∧
    (∀ (w : Writer) (q : Fin 24), (s.at w.t).accepts w (0x1830 + q.val) 8 (.num 1) → qMode q.val ≠ .credit →
      ∃ t, exec (.flush w q 1) s = .next t ∧ (t.q[q]).pkts = [] ∧ t.hap.lastStatus = 0)

/-- Tier 1. Heads, poses and life counters (R45, R46, R50, R52, R53, R55, R66, R501, R587): a silent head is LOST; an accepted record is
stored and the head enters BOOTSTRAP at the next boundary, a record that fails its checks is refused; the correction moves by one
bounded step; a pose sample becomes the newest; the life counters reach flash. It holds the model to its readings of log entries 23,
121, 131. -/
def Obligations.HeadsAndPosesFollowTheirRules : Prop :=
  ∀ (p : Fin 8) (s : State),
    (∀ instant, (s.head p).state = .active ∨ (s.head p).state = .bootstrap → s.slotEmpty p = false →
      (s.head p).lastPacket + 1000000 * s.num (od 0x3000 6) ≤ instant → ∃ t, exec (.headLossTimeout p instant) s = .next t ∧
        t.head p = { s.head p with state := .lost, returning := false, notActive := true } ∧
        (∀ q : Fin 8, q ≠ p → t.head q = s.head q) ∧ t.cells = s.cells) ∧
    (∀ w : Writer, (s.at w.t).accepts w (0x3100 + 16 * p.val) 5 (.num 1) →
      (acceptCheck p (s.at w.t) = 0 → ∀ c, parseCal ((s.oct (portOd 0x3100 p 6)).take 2144) = some c →
        ∃ t, exec (.accept w p 1) s = .next t ∧ (t.head p).paired = c.serial ∧ (t.head p).accepted = true ∧ t.hap.lastStatus = 0 ∧
          t.oct (portOd 0x3100 p 2) = c.serial ∧ t.num (portOd 0x3102 p 1) = c.timeAtIssue ∧
          t.num (portOd 0x3102 p 2) = c.pulsesAtIssue ∧ t.num (portOd 0x3102 p 3) = 0 ∧
          (t.head p).opTimeNs = 1000000000 * c.timeAtIssue) ∧
      (acceptCheck p (s.at w.t) = 6 → ∃ t, exec (.accept w p 1) s = .next t ∧ t.ing = s.ing ∧ t.hap.lastStatus = 6)) ∧
    (∀ (frame : Nat) (e : CalEst), frame = s.frame.lastFrame → frame ≠ 0 → e.port = p → (s.head p).evalFrame ≠ frame →
      (s.head p).steady = true → s.slotEmpty p = false → (s.head p).state = .active →
      s.flag (portOd 0x3101 p 9) = false → atCorrBound (stepCorr false (s.head p).corr e.want) = false →
      ∃ t, exec (.calEvaluate frame [e]) s = .next t ∧ t.num (portOd 0x3101 p 7) = 0 ∧ t.num (portOd 0x3101 p 8) = e.residual ∧
        t.head p = { s.head p with
          evalFrame := frame, nextCorr := stepCorr false (s.head p).corr e.want, boundFrames := 0, atBound := false }) ∧
    (∀ instant, ∃ t, exec (.lifeCounterStore instant) s = .next t ∧ t.dict.vals = s.dict.vals ∧
      (∀ k ∈ lifeKeys, Sparse.get Od.dflt t.dict.saved k = s.obj k) ∧
      (∀ k, k ∉ lifeKeys → Sparse.get Od.dflt t.dict.saved k = Sparse.get Od.dflt s.dict.saved k)) ∧
    (∀ (r : HapReq) (x : Session) (b : Bytes) (time : Nat), s.power.supervisor = true → hapBad r = false →
      s.session r.session = some x → x.isHost = true → s.sec.effective ≠ 6 → r.body = [1, 0, 0, 0] ++ b → b.length = 64 →
      ofTime80 (b.take 10) = some time → (∀ l, s.lastSample = some l → l.time < time) → quatNorm (parsePose b).quat = 2 ^ 60 →
      s.ing.waitingSamples.length < 4 → ∃ t, exec (.pose r) s = .next t ∧ t.ing.samples.getLast? = some (parsePose b) ∧
        t.ing.waitingSamples = s.ing.waitingSamples ++ [(s.ing.epoch, parsePose b)] ∧ t.ing.epoch = (s.ing.epoch + 1) % 256 ∧
        t.cores = s.cores ∧ t.net.sent = [])

/-! Cells, run-ahead and the rule-book builder. -/

/-- Tier 1. Run-ahead, ageing and the snapshot (R73-R76, R90, R94, R96, R98, R99, R105-R107, R113): a resolved epoch withdraws the points
that moved beyond the tolerance and keeps those beyond the sample under the next epoch; a withdrawn point leaves every entry that took
it, or frees it; a re-inserted one enters as any point; ageing moves an entry to its new cell, merges it, drops it, or takes it out of
the box; a snapshot is armed, and served when complete. It holds the model to its reading of log entry 16. -/
def Obligations.RunAheadAndAgeingMovePoints : Prop :=
  ∀ s : State, s.runs →
    let of := fun (prev : Bool) (t : State) => if prev then t.frame.comp else t.frame.ing
    (∀ e smp rest, s.ing.waitingSamples = (e, smp) :: rest → s.ing.withdraw = [] → s.ing.reinsert = [] →
      s.ing.ins.any (fun p => p.log && p.epoch == e) = false →
      ∀ track, track = s.ing.samples.filter (fun x => decide (x.time ≤ smp.time)) → ∃ t, exec .runaheadResolve s = .next t ∧
        t.ing.waitingSamples = rest ∧ t.ing.reinsert = [] ∧ t.cells = s.cells ∧
        t.ing.withdraw.map (·.1) = ((s.ing.log.filter (fun l => l.epoch == e)).filter (fun l =>
          s.movedFar l.pt (s.recompute track l.pt))).map (·.pt) ∧
        (∀ l ∈ s.ing.log, l.epoch ≠ e → l ∈ t.ing.log) ∧
        (∀ l ∈ t.ing.log, (l.epoch ≠ e ∧ l ∈ s.ing.log) ∨ (l.epoch = (e + 1) % 256 ∧ (smp.time : Int) < l.pt.time))) ∧
    (∀ (old new : Point) (rest : List (Point × Point)), s.ing.withdraw = (old, new) :: rest →
      (∃ t, exec .runaheadWithdraw s = .next t ∧ t.ing.withdraw = rest ∧ t.ing.reinsert = s.ing.reinsert ++ [new] ∧
        t.ing.log = s.ing.log ∧ (old.took = [] → t.cells = s.cells) ∧
        (old.took = [] → s.gridsOf old.xyz = [] → (of old.prev t).cells.outside = (of old.prev s).cells.outside - 1)) ∧
      (∀ (g pl : Nat) (x : Entry), old.took = [g] →
        let tag := s.sweepTag old.prev
        let key := s.pointKey g tag old.xyz
        s.cells.search (s.bucket key) (fun y => y.key == key && y.tag == tag) = some pl → s.cells.live pl = some x →
        ∃ t, exec .runaheadWithdraw s = .next t ∧ t.ing.withdraw = rest ∧ (∀ y, y ≠ pl → t.cells.at y = s.cells.at y) ∧
          t.cells.at pl = (if x.count = 65535 then some x else if x.count ≤ 1 then none
            else some (x.subPoint (old.entry (s.gridK g) key tag))) ∧
          (of old.prev t).cells.freed = (of old.prev s).cells.freed + (if x.count ≤ 1 then 1 else 0) ∧
          (of old.prev t).cells.saturated = (of old.prev s).cells.saturated + (if x.count = 65535 then 1 else 0))) ∧
    (∀ (p : Point) (rest : List Point), s.ing.reinsert = p :: rest →
      (s.gridsOf p.xyz = [] → ∃ t, exec .runaheadReinsert s = .next t ∧ t.ing.reinsert = rest ∧ t.cells = s.cells ∧
        (of p.prev t).cells.outside = (of p.prev s).cells.outside + 1) ∧
      (∃ t, exec .runaheadReinsert s = .next t ∧ t.ing.reinsert = rest ∧ t.ing.withdraw = s.ing.withdraw ∧
        (of p.prev t).pts.inserted = (of p.prev s).pts.inserted) ∧
      (∀ g : Nat, s.gridsOf p.xyz = [g] →
        let tag := s.sweepTag p.prev
        let key := s.pointKey g tag p.xyz
        let c := p.entry (s.gridK g) key tag
        (∀ pl, s.cells.insertCase (s.bucket key) key tag = (.created, pl) → ∃ t, exec .runaheadReinsert s = .next t ∧
          t.ing.reinsert = rest ∧ t.cells.at pl = some c ∧ (∀ y, y ≠ pl → t.cells.at y = s.cells.at y)) ∧
        (∀ pl e, s.cells.insertCase (s.bucket key) key tag = (.aggregated, pl) → s.cells.live pl = some e →
          ∃ t, exec .runaheadReinsert s = .next t ∧
            t.ing.reinsert = rest ∧ t.cells.at pl = some (e.addPoint c) ∧ (∀ y, y ≠ pl → t.cells.at y = s.cells.at y)) ∧
        (∀ pl r, r = .bucketFull ∨ r = .limit → s.cells.insertCase (s.bucket key) key tag = (r, pl) →
          ∃ t, exec .runaheadReinsert s = .next t ∧ t.ing.reinsert = rest ∧ t.cells = s.cells ∧
            (of p.prev t).pts.cellFull = (of p.prev s).pts.cellFull + 1))) ∧
    (s.cells.ageing.todo = [] →
      exec .ageEntry s = .next { s with cells := { s.cells with ageing := { s.cells.ageing with active := false } } }) ∧
    (∀ (pl : Nat) (rest : List Nat), s.cells.ageing.todo = pl :: rest →
      ((s.cells.live pl = none ∨ ∃ x, s.cells.live pl = some x ∧ (x.phase = s.cells.ageing.phase ∨ x.tag = s.cells.counter)) →
        ∃ t, exec .ageEntry s = .next t ∧ t.cells.entries = s.cells.entries ∧ t.cells.ageing.todo = rest ∧ t.frame = s.frame) ∧
      (∀ (x y : Entry) (ix iy iz : Int), s.cells.live pl = some x → x.phase ≠ s.cells.ageing.phase → x.tag ≠ s.cells.counter →
        s.cells.ageing.aged (s.gridK (keyGrid x.key)) x = (y, ix, iy, iz) →
        let left := s.cells.free (s.bucket x.key) pl
        let dst := left.search (s.bucket y.key) (fun z => z.key == y.key && z.tag == y.tag && z.phase == s.cells.ageing.phase)
        let aged := fun (t : State) => t.cells.ageing.todo = rest ∧ t.frame.ing.cells.aged = s.frame.ing.cells.aged + 1
        (s.inBox (keyGrid x.key) ix iy iz = false → ∃ t, exec .ageEntry s = .next t ∧ aged t ∧ t.cells.at pl = none ∧
          (∀ z, z ≠ pl → t.cells.at z = s.cells.at z) ∧ t.frame.ing.cells.agedOut = s.frame.ing.cells.agedOut + 1) ∧
        (s.inBox (keyGrid x.key) ix iy iz = true →
          (∀ (q : Nat) (o : Entry), dst = some q → left.live q = some o → ∃ t, exec .ageEntry s = .next t ∧ aged t ∧
            t.cells.at q = some (o.merge y) ∧ (∀ z, z ≠ q → t.cells.at z = left.at z) ∧
            t.frame.ing.cells.ageMerged = s.frame.ing.cells.ageMerged + 1) ∧
          (∀ q : Nat, dst = none → left.count < 1048576 → left.room (s.bucket y.key) = some q → ∃ t, exec .ageEntry s = .next t ∧ aged t ∧
            t.cells.at q = some y ∧ (∀ z, z ≠ q → t.cells.at z = left.at z)) ∧
          (dst = none → 1048576 ≤ left.count ∨ left.room (s.bucket y.key) = none → ∃ t, exec .ageEntry s = .next t ∧ aged t ∧
            t.cells.entries = left.entries ∧ bitAt t.frame.ing.cCells 1 = true ∧
            t.frame.ing.cells.ageDropped = s.frame.ing.cells.ageDropped + 1)))) ∧
    (∀ w : Writer, (s.at w.t).accepts w 0x4F10 1 (.num 1) →
      (s.flag (od 0x4000 6) = true → ∃ t, exec (.snapRequest w 1) s = .next t ∧ t.cells = { s.cells with snapArmed := true } ∧
        t.hap.lastStatus = 0) ∧
      (s.flag (od 0x4000 6) = false → ∃ t, exec (.snapRequest w 1) s = .next t ∧ t.cells = s.cells ∧ t.hap.lastStatus = 6)) ∧
    (s.snapOver = true → ∃ t, exec .snapshotComplete s = .next t ∧
      t.cells = { s.cells with snapBusy := false, snapServed := s.cells.snapLen } ∧ t.ext = s.ext ∧ t.num (od 0x4F10 2) = s.cells.snapFrame) ∧
    (s.snapOver = false → exec .snapshotComplete s = .next s)

/-- Tier 1. The rule-book builder (R112, R124-R134, R136-R138, R141, R145, R210, R241): a row is exported to its owner as one WRITE under
the window's credits, a key record at byte 8 times the row within the 32-byte word that the WRITE carries (the model's choice, log entry
147: the word repeats the records exported before it); the next rule book in plan order is built from its final sets; a segment goes out
under a credit into the slot its sequence names; the first resolution is reported once; a speculative build takes the next free epoch
with its predicted cells, and a squashed one leaves the buffer. It holds the model to its readings of log entries 35, 36, 132, 147. -/
def Obligations.TheBuilderBuildsAndExports : Prop :=
  ∀ s : State, s.runs → s.books.scanned = true → s.frame.comp.dropped = false →
    (∀ (set : Fin 64) (d : SetDecl) (x : SetRows) (r : RowRec), setIn s.books.sets set.val = some d →
      s.books.nextExport set.val = some (x, r) →
      let sent := fun (t : State) => t.books.exported = s.books.exported + 1 ∧ t.books.rows = (s.books.sentOne x).rows
      let goes := fun (copy : Nat) (msg : Msg) => msg.dstop = coreStop (s.ownerCore d copy (r.idx / 1048576)).val ∧ msg.part = d.expPart ∧
        msg.win = d.expWin ∧ msg.count = false ∧ (s.exportCredit d copy r).map (·.gen) = some msg.gen
      (d.source = 0 → s.mayExport d d.copies r = true →
        (∃ t, exec (.cellRowExport set) s = .next t ∧ sent t) ∧
        (d.coreB = 0 → (s.freeTag stopFE).isSome = true → ∃ t msg, exec (.cellRowExport set) s = .next t ∧ sent t ∧
          t.fab.mesh = s.fab.mesh ++ [(0, msg)] ∧ msg.data = s.cellRow r ∧ goes 0 msg ∧ msg.offset = r.idx % 1048576)) ∧
      (d.source ≠ 0 → d.exportKeys = true → ∀ copies, copies = (if s.books.perCopy d then [x.copy] else d.copies) →
        s.mayExport d copies r = true →
        (∃ t, exec (.keyRecordExport set) s = .next t ∧ sent t) ∧
        (∀ copy, copies = [copy] → (s.freeTag stopFE).isSome = true → ∃ t msg, exec (.keyRecordExport set) s = .next t ∧ sent t ∧
          t.fab.mesh = s.fab.mesh ++ [(0, msg)] ∧ msg.data.length = 32 ∧ goes copy msg ∧ msg.offset = r.idx % 1048576 / 4 ∧
          (msg.data.drop (8 * (r.idx % 4))).take 8 = keyRecord d (s.books.rootGrid 64 d.set) r ∧
          (∀ q k, k < 4 → (r :: x.rows.take x.sent).find? (fun q => q.idx == r.idx / 4 * 4 + k) = some q →
            q.idx = r.idx ∨ s.books.keyLost d.set copy q.idx = false →
            (msg.data.drop (8 * k)).take 8 = keyRecord d (s.books.rootGrid 64 d.set) q)))) ∧
    (∀ (rb : Fin 256) (copy : Fin 2) (r : RbDecl) (o i : SetDecl) (outs ins : SetRows),
      s.books.rbs.find? (fun r => s.books.ready r copy.val) = some r → r.rb = rb.val →
      setIn s.books.sets r.out = some o → setIn s.books.sets r.inp = some i →
      s.books.rowsOf r.out copy.val = some outs → s.books.rowsOf r.inp copy.val = some ins →
      ∃ t, exec (.rulebookBuild rb copy) s = .next t ∧ t.books.built = s.books.built ++ [(rb.val, copy.val)] ∧ t.fab = s.fab ∧
        ((∀ y ∈ outs.rows, y.repaired = false) → t.books.entries = s.books.entries ++ [(rb.val, copy.val,
          if r.cls = 2 then s.books.inverseOf r copy.val
          else entriesFor r o i (byIndex outs.rows) ins.rows (s.books.maskOf o copy.val))])) ∧
    (∀ (rb : Fin 256) (copy : Fin 2) (owner : Fin 16) (g : Segment) (r : RbDecl) (o : SetDecl) (c : Credit),
      let mine := fun (g : Segment) => g.rb == rb.val && g.copy == copy.val && g.owner == owner.val
      s.books.queue.find? mine = some g → rbIn s.books.rbs rb.val = some r → setIn s.books.sets r.out = some o →
      let core := s.ownerCore o copy.val owner.val
      let slot := g.seq % Nat.max 1 ((s.cores[core]).pad.win r.part r.win).slots
      s.books.credit core.val r.part r.win = some c → c.n ≠ 0 → c.held.contains slot = false →
      ∃ t, exec (.segmentWrite rb copy owner) s = .next t ∧ t.books.queue = removeFirst mine s.books.queue ∧
        t.books.emitted = s.books.emitted + g.entries.length ∧
        t.books.credit core.val r.part r.win = some { c with n := c.n - 1, held := c.held ++ [slot] }) ∧
    (∀ cycles, s.frame.comp.reported = false → s.frame.comp.n ≠ 0 → s.books.firstDone = true →
      ∃ t, exec (.firstResolutionReport cycles) s = .next t ∧ t.books.firstRes = cycles ∧ t.frame.comp.reported = true ∧
        t.cells.entries = s.cells.entries) ∧
    (∀ (set : Fin 64) (copy : Fin 2) (d : SetDecl) (par : SetRows) (n results : Nat) (cells : List RowRec),
      setIn s.books.sets set.val = some d → s.books.specOff = false →
      s.books.rowsOf d.parent copy.val = some par → d.isDecided = true → d.copies.contains copy.val = true →
      (s.books.rowsOf d.set copy.val).isNone = true →
      s.books.epochs.find? (fun e => e.set == d.set && e.copy == copy.val && !e.released && e.frame == s.books.frame) = none →
      s.predicted d copy.val par.rows = some cells → s.books.freeEpoch = some n → s.books.epochs.length < 64 → s.books.buffered < 524288 →
      ∃ t ep, exec (.speculativeBuild set copy results) s = .next t ∧ t.books.epochs = s.books.epochs ++ [ep] ∧ ep.num = n ∧ ep.set = d.set ∧
        ep.copy = copy.val ∧ ep.cells = provisional cells ∧ ep.released = false ∧ ep.reached ≤ results ∧ t.books.lastEpoch = n ∧
        (d.mode = 1 → ep.cells = provisional (s.books.candidates d par.rows))) ∧
    (∀ (epoch : Fin 256) (e : Epoch), s.books.epochs.find? (fun e => e.num == epoch.val) = some e → s.squashDue e = true →
      ∃ t, exec (.epochSquash epoch) s = .next t ∧ t.books.epochs = s.books.epochs.filter (fun x => x.num != epoch.val) ∧
        t.books.squashes = s.books.squashes + 1)

/-! Peony. -/

/-- Tier 1. Peony's rings and requests (R322-R331, R336-R338): a VALID entry in sequence is taken and its VALID bit cleared; a LOOKUP of a
row beyond the table is dropped and counted; a fill goes to its pool slot; UPDATE sends gradient rows to their accumulators, WRITE rows
to the pool; RELEASE unpins; APPLY ends the parity's assignments; the status record closes a request; a batch of an exchange is noted.
It holds the model to its readings of log entries 33, 41, 42. -/
def Obligations.PeonyServesItsRings : Prop :=
  ∀ (table : Fin 16) (s : State), s.runs →
    let n := table.val
    let d := s.tdesc n
    (∀ (c : Fin 16) (b : Bytes),
      let k := (s.cores[c]).pad
      let x := k.win d.part d.ring
      let r := s.ring c.val d.part d.ring x.gen
      let b' := b.take 29 ++ [BitVec.ofNat 8 (fieldLe b 29 1 % 128)] ++ b.drop 30
      let q := parseReq b' s.peony.nextId c.val d.part
      (s.table n).state = 1 → x.isOpen = true → 32 * r.pos + 32 ≤ x.size → bitAt x.attr 2 = true → bitAt x.attr 3 = true → x.tagMode = 0 →
      d.ring ≠ 0 → s.peGen c d.part d.ring = some x.gen → d.cores.any (fun l => s.sched.phys l == c.val) = true →
      k.firstBad x (32 * r.pos) 32 = none → b = k.bytes x (32 * r.pos) 32 → bitAt (fieldLe b 29 1) 7 = true → fieldLe b 2 2 = r.seq →
      s.reqRefused b' q = false → ∃ t, exec (.ringPoll c table) s = .next t ∧
        (t.table (fieldLe b 1 1)).reqs = (s.table (fieldLe b 1 1)).reqs ++
          [{ q with ver := ((s.table (fieldLe b 1 1)).bound q.frame).getD 3 }] ∧
        t.ring c.val d.part d.ring x.gen = { r with pos := (r.pos + 1) % (x.size / 32), seq := (r.seq + 1) % 65536 } ∧
        ((t.cores[c]).pad.mem.rd (x.phys (32 * r.pos + 29))).toNat = fieldLe b 29 1 % 128) ∧
    (∀ q, (s.table n).front = some q → q.op = 1 → d.place ≠ 2 →
      exec (.peonyLookup table) s = .next (s.lookup n d (fun _ => none) q) ∧
      (∀ s' b idx, s.peRead (coreNo q.core) q.part q.iwin q.ioff (4 * q.count) = (s', some b) → words b = [idx] → d.rows ≤ idx →
        ∃ t, exec (.peonyLookup table) s = .next t ∧ t.peony.drops = s.peony.drops + 1 ∧ (t.table n).slots = ((s.dropClosed n d).table n).slots ∧
          t.num (od (0x8100 + 16 * n) 5) = Od.counter (od (0x8100 + 16 * n) 5) (s.num (od (0x8100 + 16 * n) 5) + 1))) ∧
    (∀ f s' l, (s.table n).fills.find? (fun f => !f.remote) = some f →
      s.rowGet d ((s.table n).ver f.ver) f.idx .clean = (s', some l) → ∃ t, exec (.peonyFill table .clean) s = .next t ∧
        (t.table n).fills = (s.table n).fills.erase f ∧ t.peony.fills = s.peony.fills + 1 ∧
        ∃ ms, t.fab.mesh = s.fab.mesh ++ ms ∧ ∀ m ∈ ms, m.1 = 0 ∧ m.2.dstop = coreStop (s.peCore d f.pos).val ∧ m.2.part = d.part ∧ m.2.win = d.pool) ∧
    (∀ q s' r y, s.frontOp n 2 = some q → (s.dropClosed n d).slotRows d q = (s', some [r]) → (s'.table n).named r.1 = some y → y.dev = s.device →
      ∀ acc, acc = (if q.step % 2 = 0 then y.acc0 else y.acc1) → acc ≠ noSlot →
        ∃ t ms, exec (.peonyUpdate table) s = .next t ∧ t.fab.mesh = s.fab.mesh ++ ms ∧
          (∀ m ∈ ms, m.1 = 1 ∧ m.2.afmt = 1 ∧ m.2.dstop = coreStop (s.peCore d (acc / 1048576)).val ∧ m.2.part = d.part ∧ m.2.win = d.acc) ∧
          (t.table n).reqs = ((s.table n).modReq q.id (fun q => { q with done := true, dropped := 0, code := 0 })).reqs) ∧
    (∀ q s' s2 r y i cls off, s.frontOp n 3 = some q → (s.dropClosed n d).slotRows d q = (s', some [r]) → (s'.table n).named r.1 = some y →
      (s.table n).slotIn 2 = some i → s'.dirEntry d ((s.table n).ver i.val) y.idx = (s2, cls, off) → cls ≠ 3 →
        ∃ t ms, exec (.peonyWrite table) s = .next t ∧ t.fab.mesh = s.fab.mesh ++ ms ∧
          (∀ m ∈ ms, m.1 = 0 ∧ m.2.dstop = coreStop (s.peCore d y.pos).val ∧ m.2.part = d.part ∧ m.2.win = d.pool) ∧
          (t.table n).reqs = ((s.table n).modReq q.id (fun q => { q with done := true, dropped := 0, code := 0 })).reqs) ∧
    (∀ q r, s.frontOp n 4 = some q →
      (s.table n).reqs.find? (fun r => r.op == 1 && r.core == q.core && r.seq == q.ref && r.closed) = some r →
      ∃ t, exec (.peonyRelease table) s = .next t ∧ (t.table n).slots = ((s.table n).unpin r.id).slots ∧
        (∀ y ∈ (t.table n).slots, y.pins.contains r.id = false) ∧ (t.table n).fills = (s.table n).fills) ∧
    (∀ q i, s.frontOp n 5 = some q → (if d.live then (s.table n).slotIn 2 else (s.table n).slotIn 3) = some i →
      ∃ t, exec (.peonyApply table) s = .next t ∧ (t.table n).accs = (s.table n).accs.filter (fun a => a.parity != q.step % 2) ∧
        (t.table n).slots = (s.table n).slots.filter (fun y => !y.pins.isEmpty)) ∧
    (∀ q, (s.table n).reqs.find? (fun q => !q.closed) = some q → q.done = true → (s.table n).fills.any (fun f => f.req == q.id) = false →
      s.peWaits q.id = false → ∃ t ms, exec (.peonyStatusRecord table) s = .next t ∧ t.fab.mesh = s.fab.mesh ++ ms ∧
        (∀ m ∈ ms, m.1 = 0 ∧ m.2.dstop = coreStop (coreNo q.core).val ∧ m.2.part = q.part ∧ m.2.win = q.rwin) ∧
        (q.op ≠ 1 → (s.peGen (coreNo q.core) q.part q.rwin).isSome = true → (s.freeTag stopPE).isSome = true →
          ∃ m, ms = [(0, m)] ∧ m.count = true ∧ m.data = q.status ∧ m.offset = q.roff / 32) ∧
        (q.op ≠ 1 → (t.table n).reqs = (s.table n).reqs.filter (fun y => y.id != q.id)) ∧
        (q.op = 1 → (t.table n).reqs = ((s.table n).modReq q.id (fun q => { q with closed := true })).reqs)) ∧
    (∀ step, let reqs := d.cores.filterMap (fun c => (s.table n).reqs.find? (fun q => !q.done && q.core == s.sched.phys c))
      (s.table n).state = 1 → d.place = 2 → (s.table n).batches.length < 2 → reqs.length = d.cores.length → d.cores ≠ [] →
      reqs.all (fun q => q.op == 1 && q.step == step) = true → ∃ t, exec (.exchangeBatch table step) s = .next t ∧
        (t.table n).batches.map (·.step) = (s.table n).batches.map (·.step) ++ [step])

/-- Tier 1. Versions of a table (R321, R332-R335): BUILD prepares a slot, CREATE_SHADOW shares the live rows, SEAL seals, SWITCH names the
next version, which goes live with the frame in ingest while the old one retires with the last before it; a retired one is EMPTY; a
sealed shadow is PREPARED by a valid record and stays by a bad one. It holds the model to its readings of log entries 37, 38, 40, 85. -/
def Obligations.VersionsMoveByTheirRules : Prop :=
  ∀ (table : Fin 16) (s : State),
    let n := table.val
    let d := s.tdesc n
    let x := s.table n
    (∀ (w : Writer) (v : BitVec 8), (s.at w.t).accepts w (0x8100 + 16 * n) 3 (.num v.toNat) →
      (v.toNat / 16 = 1 → (s.at w.t).peonyCheck n v.toNat = 0 → ∃ t, exec (.build w table v) s = .next t ∧ t.hap.lastStatus = 0 ∧
        (d.place ≠ 0 → ((t.table n).ver (v.toNat / 4 % 4)).state = 1 ∧
          ((t.table n).ver (v.toNat / 4 % 4)).bases = s.newBases d n (v.toNat / 4 % 4) (d.rows * (2 * d.e))) ∧
        (d.place = 0 → ((t.table n).ver (v.toNat / 4 % 4)).loading = true ∧
          ((t.table n).ver (v.toNat / 4 % 4)).image = (x.ver (v.toNat % 4)).image)) ∧
      (v.toNat / 16 = 2 → (s.at w.t).peonyCheck n v.toNat = 0 → ∀ l, x.slotIn 2 = some l → ∃ t, exec (.createShadow w table v) s = .next t ∧
        t.hap.lastStatus = 0 ∧ ((t.table n).ver (v.toNat % 4)).state = 3 ∧
        ((t.table n).ver (v.toNat % 4)).base 1 = (x.ver l.val).base 1 ∧ ((t.table n).ver (v.toNat % 4)).own = []) ∧
      (v.toNat / 16 = 3 → (s.at w.t).peonyCheck n v.toNat = 0 → ∃ t, exec (.seal w table v) s = .next t ∧ t.hap.lastStatus = 0 ∧
        (t.table n).ver (v.toNat % 4) = { (x.ver (v.toNat % 4)) with sealed := true }) ∧
      (v.toNat / 16 ≠ 1 → ∃ t, exec (.build w table v) s = .next t ∧ t.hap.lastStatus = 5 ∧ t.peony = s.peony)) ∧
    (∀ (w : Writer) (v : BitVec 8), (s.at w.t).accepts w (0x8100 + 16 * n) 4 (.num v.toNat) → (s.at w.t).switchCheck n v.toNat = 0 →
      ∃ t, exec (.switch w table v) s = .next t ∧ t.hap.lastStatus = 0 ∧ (t.table n).switchTo = some v.toNat ∧ (t.table n).vers = x.vers) ∧
    (s.runs → ∀ i l, x.switchTo = some i → s.frame.run = true → s.frame.now = s.frame.ing.start → (x.ver i).state = 1 → x.slotIn 4 = none → x.slotIn 2 = some l →
      ∃ t, exec (.versionSwitch table) s = .next t ∧ (t.table n).switchTo = none ∧
        (t.table n).ver i = { (x.ver i) with state := 2, frame := s.frame.ing.n } ∧
        (t.table n).ver l.val = { (x.ver l.val) with state := 4, frame := s.frame.ing.n - 1 }) ∧
    (s.runs → ∀ r, x.slotIn 4 = some r → (x.ver r.val).frame < s.frame.comp.n → (x.ver r.val).frame < s.frame.ing.n →
      x.reqs.any (fun q => q.op == 1 && q.ver == r.val) = false → ∃ t, exec (.versionRetire table) s = .next t ∧
        (t.table n).ver r.val = {} ∧ (t.table n).slots = x.slots.filter (fun y => y.ver != r.val)) ∧
    (s.runs → ∀ slot : Fin 3, (x.ver slot.val).loading = true → ∃ t, exec (.replicaPrepared table slot) s = .next t ∧
      (t.table n).ver slot.val = { (x.ver slot.val) with loading := false, state := 1 }) ∧
    (∀ (w : Writer) (rec : Bytes), (s.at w.t).accepts w (0x8100 + 16 * n) 9 (.oct rec) →
      ((s.at w.t).validOk n rec = true → ∀ i, x.slotIn 3 = some i → ∃ t, exec (.validation w table rec) s = .next t ∧ t.hap.lastStatus = 0 ∧
        (t.table n).ver i.val = { (x.ver i.val) with state := 1 }) ∧
      ((s.at w.t).validOk n rec = false → ∃ t, exec (.validation w table rec) s = .next t ∧ t.hap.lastStatus = 6 ∧ t.peony = s.peony))

/-! External memory. -/

/-- Tier 1. External memory (R344-R347, R350, R352-R357, R359, R399): a DRAM read answers the stored bytes, a corrected one is counted, an
uncorrectable one or one in a failed controller answers nothing; a write changes exactly the bytes of working controllers; a refresh
closes a bank; the patrol scrub reads its line; a controller failure is stored; HyperRAM reads fall back on device 1 and writes go to
both. It holds the model to its readings of log entries 3, 23, 81. -/
def Obligations.ExternalMemoriesServeTheirCommands : Prop :=
  ∀ s : State,
    (∀ da n t' : Nat, da + n ≤ s.capacity → n ≤ 128 →
      (s.dramDead da n = none → (∀ x, da ≤ x → x < da + n → Sparse.get noBit s.ext.bad (x / 8) = false) →
        (∃ t, exec (.dramRead da n .clean t') s = .next t ∧ t.ext.lastRead = some (Sparse.getN zeroByte s.ext.dram da n) ∧
          t.ext.dram = s.ext.dram ∧ t.dict = s.dict) ∧
        (∃ t, exec (.dramRead da n .corrected t') s = .next t ∧ t.ext.lastRead = some (Sparse.getN zeroByte s.ext.dram da n) ∧
          t.ext.dram = s.ext.dram ∧
          t.num (od (0x7880 + s.ctrlOf da) 1) = Od.counter (od (0x7880 + s.ctrlOf da) 1) (s.num (od (0x7880 + s.ctrlOf da) 1) + 1)) ∧
        (∃ t, exec (.dramRead da n .uncorrectable t') s = .next t ∧ t.ext.lastRead = none ∧ t.ext.dram = s.ext.dram ∧
          t.num (od (0x7880 + s.ctrlOf da) 2) = Od.counter (od (0x7880 + s.ctrlOf da) 2) (s.num (od (0x7880 + s.ctrlOf da) 2) + 1) ∧
          t.num (od (0x7880 + s.ctrlOf da) 3) = da)) ∧
      (∀ a e, s.dramDead da n = some a → ∃ t, exec (.dramRead da n e t') s = .next t ∧ t.ext.lastRead = none ∧
        t.ext.dram = s.ext.dram)) ∧
    (∀ (da : Nat) (data : Bytes), da + data.length ≤ s.capacity → ∃ t, exec (.dramWrite da data) s = .next t ∧
      (∀ x, Mem.rd t.ext.dram x = if da ≤ x ∧ x < da + data.length ∧ bitAt s.ext.failed (s.ctrlOf x) = false then data.getD (x - da) 0
        else Mem.rd s.ext.dram x)) ∧
    (∀ (ctrl : Fin 8) (chan : Fin 4) (bank : Fin 16), ∃ t, exec (.dramRefresh ctrl chan bank) s = .next t ∧ t.ext.dram = s.ext.dram ∧
      (∀ y, Sparse.get (fun _ => 0) t.ext.rows y =
        if y = (ctrl.val * 4 + chan.val) * 16 + bank.val then 0 else Sparse.get (fun _ => 0) s.ext.rows y)) ∧
    (∀ (ctrl : Fin 8) (line t' : Nat) (e : Ecc), ctrl.val ∈ s.controllers → ∃ t, exec (.patrolScrub ctrl line e t') s = .next t ∧
      Sparse.get (fun _ => 0) t.ext.scrubbed ctrl.val = line + 1 ∧ t.ext.dram = s.ext.dram ∧
      (bitAt s.ext.failed ctrl.val = false → (∀ a, Sparse.get noBit s.ext.bad a = false) →
        (e = .corrected →
          t.num (od (0x7880 + ctrl.val) 1) = Od.counter (od (0x7880 + ctrl.val) 1) (s.num (od (0x7880 + ctrl.val) 1) + 1)) ∧
        (e = .uncorrectable →
          t.num (od (0x7880 + ctrl.val) 2) = Od.counter (od (0x7880 + ctrl.val) 2) (s.num (od (0x7880 + ctrl.val) 2) + 1)))) ∧
    (∀ ctrl : Fin 8, bitAt s.ext.failed ctrl.val = false → ∃ t, exec (.dramControllerFail ctrl) s = .next t ∧
      t.ext.failed = setBit s.ext.failed ctrl.val ∧ t.num (od 0x7800 3) = setBit (s.num (od 0x7800 3)) ctrl.val ∧
      t.num (od (0x7880 + ctrl.val) 4) = 1 ∧ t.log.srv = true ∧
      (s.frame.run = true → t.safety.ctrlFailed = true ∧ t.num (od 0xA000 2) = t.safetyOf)) ∧
    (∀ (w : Writer) (v : BitVec 8), (s.at w.t).accepts w 0x7800 4 (.num v.toNat) →
      ∃ t, exec (.failureClear w v) s = .next t ∧ t.hap.lastStatus = 0 ∧ (v = 1 → od 0x7800 4 ∈ t.dict.armed) ∧ t.ext = s.ext) ∧
    (∀ a n t' : Nat, a + n ≤ 14680064 →
      (s.hyperDead 0 = false → (∀ x, Sparse.get noBit s.ext.hyperBad0 x = false) → ∀ e1,
        ∃ t, exec (.hyperramRead a n .clean e1 t') s = .next t ∧ t.ext.lastRead = some (Sparse.getN zeroByte s.ext.hyper a n) ∧
          t.dict = s.dict) ∧
      (s.hyperDead 0 = false → s.hyperDead 1 = false → (∀ x, Sparse.get noBit s.ext.hyperBad1 x = false) →
        ∃ t, exec (.hyperramRead a n .uncorrectable .clean t') s = .next t ∧
          t.ext.lastRead = some (Sparse.getN zeroByte s.ext.hyper a n) ∧
          t.num (od 0x7890 3) = Od.counter (od 0x7890 3) (s.num (od 0x7890 3) + 1)) ∧
      (∃ t, exec (.hyperramRead a n .uncorrectable .uncorrectable t') s = .next t ∧ t.ext.lastRead = none)) ∧
    (∀ (a : Nat) (data : Bytes), a + data.length ≤ 14680064 → s.hyperDead 1 = false →
      (∃ t, exec (.hyperramWrite a data true true) s = .next t ∧ t.ext.hyper = Sparse.putN zeroByte s.ext.hyper a data ∧
        t.dict = s.dict) ∧
      (s.hyperDead 0 = false → ∃ t, exec (.hyperramWrite a data false true) s = .next t ∧
        t.ext.hyper = Sparse.putN zeroByte s.ext.hyper a data ∧ t.hyperDead 0 = true ∧ t.log.srv = true)) ∧
    (s.log.ring.length + s.log.staged.length ≤ 262144 → (∀ i < s.log.staged.length, s.dramDead (logStagingAt i) 32 = none) →
      (∀ x, Sparse.get noBit s.ext.bad x = false) →
      (∃ t, exec (.eventLogFlush true) s = .next t ∧ t.log.ring = s.log.ring ++ s.log.staged ∧ t.log.staged = [] ∧ t.dict = s.dict) ∧
      (∃ t, exec (.eventLogFlush false) s = .next t ∧ t.log.ring = s.log.ring ++ s.log.staged ∧
        t.num (od 0x7900 4) = Od.counter (od 0x7900 4) (s.num (od 0x7900 4) + 1))) ∧
    (s.sec.wiping = true →
      (s.sec.wipeTarget = none → s.lifeWanted = s.sec.effective → ∃ t, exec .wipeComplete s = .next t ∧ t.sec.wiping = false ∧
        t.sec.held = false ∧ t.sec.base = s.sec.base ∧ t.sec.effective = s.sec.effective ∧
        (∀ c : Fin 16, (t.cores[c]).pad.wiped = false)) ∧
      (∀ b, s.sec.wipeTarget = some b → ∃ t, exec .wipeComplete s = .next t ∧ t.sec.wiping = false ∧ t.sec.wipeTarget = none ∧
        t.sec.base = b ∧ t.sec.effective = t.lifeWanted))

/-! The scheduler. -/

/-- Tier 1. The scheduler (R369, R370, R372-R375, R378, R381-R385, R421, R433, R435): a schedule is accepted or refused; it is activated at
a boundary; a release makes an instance WAITING or READY; a slot entry brings a dispatch decision; an overrun is counted; a late pre-
emption ends its task; the throttle follows the sensors; an idle core in its turn begins its golden test; a failed test retires. It
holds the model to its readings of log entries 24, 25, 70, 72, 84, 86. -/
def Obligations.TheSchedulerFollowsItsRules : Prop :=
  ∀ s : State,
    (∀ (w : Writer) (comp : Bytes), (s.at w.t).accepts w 0x9001 0 (.oct comp) →
      (∀ c a, (s.at w.t).scheduleCheck comp = 0 → (s.at w.t).directComp 0x11 0 comp = some c → parseSchedule c.plain = some a →
        s.frame.run = true → ∃ t, exec (.schedule w comp) s = .next t ∧ t.hap.lastStatus = 0 ∧ t.sched.accepted = some a ∧
          t.sched.active = s.sched.active ∧ t.sched.insts = s.sched.insts ∧ t.oct (od 0x9001 0) = comp) ∧
      ((s.at w.t).scheduleCheck comp ≠ 0 → ∃ t, exec (.schedule w comp) s = .next t ∧
        t.hap.lastStatus = (s.at w.t).scheduleCheck comp ∧ t.sched.accepted = s.sched.accepted ∧ t.sched.active = s.sched.active ∧
        t.sec = s.sec)) ∧
    (∀ (t' : Nat) (a : Schedule), (s.at t').atBoundary t' = true → s.sched.accepted = some a → s.sched.atRestart = false →
      s.sched.staged = false → (s.frame.run = false ∨ s.sched.acceptedAt + 1000000 ≤ t') → s.sec.base ≠ 5 → s.sec.base ≠ 6 →
      (∀ c, s.component 0x10 0 = some c → s.loadable c = true ∧ (∀ x, Sparse.get noBit s.ext.bad x = false) ∧
        s.dramDead (libraryAt s.sec.comps c + 424) c.payload.length = none) → ∃ t, exec (.scheduleActivate t') s = .next t ∧
        t.sched.active = some a ∧ t.sched.accepted = none ∧ t.sched.insts = a.instances ∧ t.num (od 0x9000 1) = a.ident ∧
        t.num (od 0x9000 4) = a.period ∧ t.num (od 0x9000 6) = a.launch) ∧
    (∀ (task : Fin 256) (lcore : Fin 16) (t' : Nat) (i : Inst),
      s.sched.insts.find? (fun i => i.task == task.val && i.lcore == lcore.val) = some i →
      (i.state = .idle → s.sched.running_ = true → s.sched.hold = false → s.sinceE (s.sched.descOf i).release t' = true →
        let k := (s.sched.descOf i).ready
        let c := coreNo (s.sched.phys i.lcore)
        let enough := k = 255 ∨ (s.sched.descOf i).threshold ≤ s.kget c k
        (¬ enough → exec (.instanceRelease task lcore t') s =
          .next ((s.at t').modInst i.task i.lcore (fun x => { x with state := .waiting }))) ∧
        (enough → exec (.instanceRelease task lcore t') s =
          .next (((s.at t').modInst i.task i.lcore (fun x => { x with state := .ready })).dispatch [c]))) ∧
      (i.state = .running → (s.sched.descOf i).budget ≠ 0 → i.overran = false → ∃ u : State,
        u.num (od (0x9100 + task.val) 2) = Od.counter (od (0x9100 + task.val) 2) (s.num (od (0x9100 + task.val) 2) + 1) ∧
        u.sched = (s.modInst i.task i.lcore (fun x => { x with overran := true })).sched ∧ u.cores = s.cores ∧
        ((s.sched.descOf i).overrunEnd = false → exec (.budgetOverrun task lcore t') s = .next u) ∧
        ((s.sched.descOf i).overrunEnd = true → exec (.budgetOverrun task lcore t') s =
          .next ((u.endRunning (coreNo (s.sched.phys i.lcore))).1.dispatch (u.endRunning (coreNo (s.sched.phys i.lcore))).2))) ∧
      ((i.state ≠ .running ∨ i.overran = true) → exec (.budgetOverrun task lcore t') s = .next (s.at t'))) ∧
    (∀ (c : Fin 16) (i : Inst) (u : State) (r : TaskRun), s.sched.running_ = true → s.sched.hold = false →
      bitAt s.sched.retired c.val = false → s.sched.testing.contains c.val = false → s.sched.want.contains c.val = false →
      s.sched.runningOn c.val = none → s.sched.choice c.val = some i → i.saved = none → s.openNamed c (s.sched.descOf i) = some u →
      r = { task := i.task, part := (s.sched.descOf i).part, copy := (s.sched.descOf i).copy, frame := s.frame.comp.n
            arg := (s.sched.descOf i).arg, lcore := i.lcore } →
      ∃ v : State, s.dispatch [c] = v ∧ (v.cores[c]).seq.task = some r ∧ (v.cores[c]).seq.regs = startRegs r c ∧ (v.cores[c]).seq.pc = 0 ∧
        v.sched.insts = modifyFirst (fun j => j.task == i.task && j.lcore == i.lcore) (fun j => { j with state := .running }) s.sched.insts) ∧
    (∀ (c : Fin 16) (slot : Nat) (e : SlotEntry), s.sched.begins c.val slot = some e →
      let p := coreNo (s.sched.phys c.val)
      (e.owner ≠ 8 → exec (.slotEntryBegin c slot) s = .next ((s.enterSlot c slot).dispatch [p])) ∧
      (e.owner = 8 → s.sched.claimed.contains p.val = false → bitAt s.sched.retired p.val = false → s.sched.rotation = p.val →
        s.sched.targeted.contains p.val = false → s.sched.turned = false → s.sched.running_ = true → s.sched.hold = false →
        s.sched.testing.contains p.val = false → s.sched.runningOn p.val = none →
        ((s.sched.on p.val).any (fun i => i.state.held && (s.sched.descOf i).crit == 7) = false →
          ∃ t, exec (.hollyhockEntry c slot) s = .next t ∧ t.sched.testing = p.val :: s.sched.testing ∧ t.sched.want.contains p.val = false ∧
            t.sched.claimed = p.val :: s.sched.claimed ∧ t.cores = s.cores) ∧
        ((s.sched.on p.val).any (fun i => i.state.held && (s.sched.descOf i).crit == 7) = true → s.num (od 0x9F00 4) < 3 →
          ∃ u : State, exec (.hollyhockEntry c slot) s = .next (u.dispatch [p]) ∧ u.sched.testing = s.sched.testing ∧
            u.sched.want = s.sched.want ∧ u.num (od 0x9F00 4) = s.num (od 0x9F00 4) + 1 ∧
            u.num (od 0x9F00 6) = Od.counter (od 0x9F00 6) (s.num (od 0x9F00 6) + 1)))) ∧
    (∀ c : Fin 16, (s.sched.preemptAt[c] = none → exec (.preemptLimitExpire c) s = .next s) ∧
      (∀ asked, s.sched.preemptAt[c] = some asked → ∃ u : State, u.frame.now = Nat.max s.frame.now (asked + s.coreTime (s.num (od 0x9000 7))) ∧
        u.num (od 0x9F00 9) = Od.counter (od 0x9F00 9) (s.num (od 0x9F00 9) + 1) ∧
        u.sched = s.sched ∧ u.cores = s.cores ∧ exec (.preemptLimitExpire c) s = .next ((u.endRunning c).1.dispatch (u.endRunning c).2))) ∧
    (∀ t', ∃ t, exec (.throttleUpdate t') s = .next t ∧ t.num (od 0x9000 8) = t.sched.throttle ∧
      (s.power.overNow = true → t.sched.throttle = Nat.min 12 (s.sched.throttle + 1) ∧ t.power.overNow = false) ∧
      (∀ u, s.power.overNow = false → s.sched.underSince = some u →
        t.sched.throttle = (if u + 10000000 ≤ t' then s.sched.throttle - 1 else s.sched.throttle)) ∧
      (s.power.overNow = false → s.sched.underSince = none → t.sched.throttle = s.sched.throttle)) ∧
    (∀ (c : Fin 16) (pass : Bool) (silent : List (Fin 16 × Fin 33 × Bool)) (fault : Option FaultAt),
      s.sec.comps.any (fun x => x.type == 3 && x.damaged) = false →
      let fails := pass = false ∨ silent ≠ []
      let word := fun (tile : Fin 16) => s.flashNum (odCore 0x6101 c (tile.val + 1))
      let dead := fun (tile : Fin 16) (col : Bool) => (s.cores[c]).arr.deadSpares.contains (tile.val, col)
      let found := fun (t : State) =>
        (fault = none → t.flashNum (odCore 0x6100 c 1) = 2) ∧
        (∀ q b r, fault = some (.bankRow q b r) →
          (t.cores[c]).pad.dueRows = (s.cores[c]).pad.dueRows ++ [{ quad := q.val, bank := b.val, row := r.val }]) ∧
        (∀ tile f, tileGone (word tile) = false →
          ((∃ row col, fault = some (.cell tile row col) ∧ f = cellAct (word tile) (dead tile) row.val col.val) ∨
            (∃ col n, fault = some (.line tile col n) ∧ f = lineAct (word tile) (dead tile) col n.val)) →
          (∀ col line, f = .spare col line → t.flashNum (odCore 0x6101 c (tile.val + 1)) =
            tileUp (if col then setBits (word tile) 5 0 line else setBits (word tile) 13 8 line)) ∧
          (f = .keep → t.dict.saved = s.dict.saved))
      (s.frame.run = false → ∃ t, exec (.goldenTestComplete c pass silent fault) s = .next t ∧ (t.cores[c]).arr.banks = [] ∧
        t.sched.testing = s.sched.testing ∧ (¬ fails → t.dict.saved = s.dict.saved) ∧
        (fails → t.num (od 0xAF00 0x0B) = Od.counter (od 0xAF00 0x0B) (s.num (od 0xAF00 0x0B) + 1) ∧ found t)) ∧
      (s.frame.run = true → s.sched.testing.contains c.val = true → ∃ u : State,
        exec (.goldenTestComplete c pass silent fault) s = .next (u.dispatch [c]) ∧
        u.sched.testing = s.sched.testing.filter (· != c.val) ∧ u.sched.targeted = s.sched.targeted.filter (· != c.val) ∧
        (s.sched.rotation = c.val → u.num (od 0xAF00 9) = Od.counter (od 0xAF00 9) (s.num (od 0xAF00 9) + 1) ∧
          u.num (od 0x9000 0x0B) = u.sched.rotation ∧ u.num (od 0x9F00 4) = 0) ∧
        (s.sched.rotation ≠ c.val → u.sched.rotation = s.sched.rotation) ∧ (fails → found u)) ∧
      (s.frame.run = true → s.sched.testing.contains c.val = false → exec (.goldenTestComplete c pass silent fault) s = .next s))

/-! Frames and records. -/

/-- Tier 1. Frames and their records (R26-R28, R36, R359, R368, R379, R417, R456, R460-R462, R472, R478, R560, R561): the boundary moves the
two frames on; RUN begins with frame 1; at E + L what has not completed ends and the frame is INVALID; the body is read when READY; the
record launches, is stored, and the gates close and reopen around it; boot records leave before the first one. It holds the model to its
readings of log entries 56, 57, 58, 60, 61, 104, 106, 107. -/
def Obligations.FramesCloseAndLaunch : Prop :=
  ∀ (t' : Nat) (s : State),
    (s.frame.run = true → t' < s.frame.ing.end_ → exec (.frameBoundary t') s = .next (s.at t').quiet) ∧
    (s.frame.run = true → s.frame.ing.end_ ≤ t' → s.powerState ≠ 6 → ∃ t, exec (.frameBoundary t') s = .next t ∧
      t.frame.ing.n = nextFrame s.frame.ing.n ∧ t.frame.ing.start = s.frame.ing.end_ ∧
      t.frame.ing.end_ = s.frame.ing.end_ + s.frame.period ∧ t.frame.comp.n = s.frame.ing.n ∧ t.frame.lastFrame = s.frame.ing.n ∧
      t.dict.waiting = s.dict.waiting.filter (fun w => !decide (w.at_ + 1000000 ≤ s.frame.ing.end_)) ∧
      (∀ i ∈ t.sched.insts, i.state = .idle) ∧ t.safety.verdict = none ∧ t.net.results.body = none) ∧
    (s.frame.run = false → (s.at t').quiet.frameTimes.mayEnter t' = true → ∃ t, exec (.frameBoundary t') s = .next t ∧
      t.frame.run = true ∧ t.frame.ing.n = 1 ∧ t.frame.ing.start = t' ∧ t.safety.foxAsserts = false ∧
      (s.sched.active.isSome = true → s.powerState = 2 → t.powerState = if s.sched.throttle = 0 then 3 else 4) ∧
      (s.sched.active = none → bitAt (t.num (od 0xA000 3)) 2 = true)) ∧
    (s.frame.comp.n ≠ 0 → s.frame.comp.dropped = false → s.frame.comp.end_ + s.frame.launch ≤ t' →
      (s.sched.insts.map (fun i => (i.task, i.lcore))).Nodup → ∃ t, exec (.frameDeadline t') s = .next t ∧ t.frame.comp.dropped = true ∧
        t.safety.verdict ≠ none ∧ (∀ i ∈ t.sched.insts, i.state.unfinished = false) ∧
        (s.sched.insts.any (fun i => i.state.unfinished) = true → 3 ≤ t.frame.comp.status ∧ t.frame.comp.marigoldPrimary = true ∧
          t.num (od 0x9F00 2) = Od.counter (od 0x9F00 2) (s.num (od 0x9F00 2) + 1))) ∧
    (t' < s.frame.comp.end_ + s.frame.launch → exec (.frameDeadline t') s = .next (s.at t')) ∧
    (∀ core p w off s1 s2 h b ecc, let r := s.net.results
      s.frame.comp.n ≠ 0 → s.frame.comp.dropped = false → r.body = none → r.bad = false →
      s.frame.comp.end_ + s.frame.launch ≤ t' + 1000 * s.num (od 0x1A00 2) → t' + 20000 ≤ s.frame.comp.end_ + s.frame.launch →
      s.bodyAt = some (core, p, w, off) → ((s.cores[core]).pad.win p w).isOpen = true →
      (s.at t').padRead core p w off 32 (some r.gen) ecc = (s1, .ok h) → fieldLe h 0 4 = s.frame.comp.n →
      ((h.getD 4 0).toNat % 2 = 0 → exec (.resultBodyPoll ecc t') s = .next s1) ∧
      ((h.getD 4 0).toNat % 2 = 1 → 32 ≤ fieldLe h 16 4 → fieldLe h 16 4 ≤ 98304 →
        s1.padRead core p w off (fieldLe h 16 4) (some r.gen) (findsAfter ecc 4) = (s2, .ok b) →
        ∃ t, exec (.resultBodyPoll ecc t') s = .next t ∧
          (bodyOk s.frame.comp.n b = true → t.net.results = { r with body := some b }) ∧
          (bodyOk s.frame.comp.n b = false → t.net.results = { r with bad := true } ∧ 3 ≤ t.frame.comp.status ∧
            t.frame.comp.marigoldPrimary = true ∧ t.num (od 0x1A00 7) = Od.counter (od 0x1A00 7) (s.num (od 0x1A00 7) + 1)))) ∧
    (s.frame.comp.n ≠ 0 → s.frame.comp.launched = false → s.num (od 0x1000 3) ≠ 0 →
      s.frame.comp.end_ + s.frame.launch ≤ t' + 15000 → ∃ t, exec (.resultGateClose t') s = .next t ∧
        (∀ h : Fin 2, (t.net.host[h]).window = (s.net.link (hostPort h) || (s.net.host[h]).window) ∧
          (t.net.host[h]).waiting = (s.net.host[h]).waiting) ∧ t.net.sent = s.net.sent) ∧
    (s.frame.comp.n ≠ 0 → s.frame.comp.launched = false → s.frame.comp.end_ + s.frame.launch ≤ t' → s.num (od 0xE000 1) ≠ 6 →
      ∃ t r, exec (.recordLaunch t') s = .next t ∧ t.frame.comp.launched = true ∧ t.frame.comp.dropped = true ∧
        t.net.results.record = some r ∧ r.frame = s.frame.comp.n ∧ r.e = s.frame.comp.end_ ∧ t.net.results.latest = s.frame.comp.n ∧
        t.num (od 0x1A00 4) = s.frame.comp.n ∧ t.num (od 0x1A00 5) = Od.counter (od 0x1A00 5) (s.num (od 0x1A00 5) + 1) ∧
        (s.num (od 0x1000 3) = 0 → t.net.sent = []) ∧
        (s.net.results.body = none → s.net.results.bad = false → 3 ≤ t.frame.comp.status ∧
          t.num (od 0x1A00 6) = Od.counter (od 0x1A00 6) (s.num (od 0x1A00 6) + 1))) ∧
    (∀ (host : Fin 2) ecc, ∃ t, exec (.resultGateReopen host ecc) s = .next t ∧ (t.net.host[host]).window = false ∧
      ((s.net.host[host]).waiting = [] → (s.net.host[host]).held = [] → t.net.sent = [] ∧ t.frame.now = s.lineFree host) ∧
      (∀ f, (s.net.host[host]).waiting = [f] → (s.net.host[host]).held = [] → f.cls = 2 → ecc = .clean → s.net.link f.port = true →
        s.flag (netOd f.port 0x0D) = false →
        ((s.at (s.lineFree host)).modHost host (fun x => { x with window := false })).gateLets host f (s.lineFree host) = true →
        t.net.sent = [{ f with at_ := s.lineFree host }] ∧ (t.net.host[host]).waiting = [])) ∧
    (∃ t, exec (.recordStore t') s = .next t ∧ t.net.results.record = none ∧
      (∀ r, s.net.results.record = some r → (∀ x ∈ s.hap.sessions, x.waitRead = none) → let kept := s.net.results.retained.take 7
        t.net.results.retained = { frame := r.frame, e := r.e, slot := freeRetained kept, len := r.data.length } :: kept) ∧
      ((s.hap.sessions.map (·.id)).Nodup → ∀ x ∈ t.hap.sessions, x.waitRead = none)) ∧
    (∀ e0 e1, s.net.results.latest = 0 → s.mariRuns = true → s.power.booted = true → 2 ≤ s.num (od 0xE000 1) → s.num (od 0xE000 1) ≠ 6 →
      ∃ t, exec (.marigoldBootList e0 e1 t') s = .next t ∧ t.power.bootRecords = s.power.bootRecords + 1 ∧
        t.net.results = s.net.results ∧ t.safety.mari = s.safety.mari ∧ (s.num (od 0x1000 3) = 0 → t.net.sent = []))

/-! Safety. -/

/-- Tier 1. Foxglove's checks and verdicts (R407, R412-R421, R425, R434): a bad list is a verdict at once; the copy comparison and the
plausibility check give theirs; VERDICT_LATE; what Marigold's list, its lateness, its self-test and its restart do; the test pair. It
holds the model to its readings of log entries 89, 104. -/
def Obligations.FoxgloveJudgesTheFrame : Prop :=
  ∀ s : State,
    (∀ (copy : Fin 2) (ecc : Finds) (t' : Nat), s.sinceE 0 t' = true → s.safety.verdict = none →
      (if copy = 0 then s.safety.listA else s.safety.listB) = .none → (copy = 1 → s.mode ≠ 1) → s.num (od 0xA011 (1 + copy.val)) ≠ 0 →
      ∃ t, exec (.checkListPoll copy ecc t') s = .next t ∧
        (if copy = 0 then t.safety.listA else t.safety.listB) = ((s.at t').readList copy.val ecc).2 ∧
        (((s.at t').readList copy.val ecc).2.isBad = true → t.safety.verdict = some 4 ∧ t.num (od 0xAF00 2) = 4 ∧
          3 ≤ t.frame.comp.status ∧ t.frame.comp.marigoldPrimary = true) ∧
        (((s.at t').readList copy.val ecc).2.isBad = false → t.safety.verdict = none)) ∧
    (∀ a b r n, s.safety.listA = .good a → s.safety.listB = .good b → s.mode ≠ 1 → s.safety.copyCheck = none → s.safety.verdict = none →
      s.compareCopies a b = (r, n) → ∃ t, exec .copyCompare s = .next t ∧ t.safety.copyCheck = some r ∧
        t.num (od 0xAF00 7) = (if n = 0 then s.num (od 0xAF00 7) else Od.counter (od 0xAF00 7) (s.num (od 0xAF00 7) + n)) ∧
        (r.pass = false → t.safety.verdict = some 2 ∧ 3 ≤ t.frame.comp.status ∧ t.frame.comp.marigoldPrimary = true ∧
          t.num (od 0xAF00 3) = Od.counter (od 0xAF00 3) (s.num (od 0xAF00 3) + 1)) ∧
        (r.pass = true → s.mode = 0 → s.safety.plausCheck = none → t.safety.verdict = some 1 ∧ t.frame = s.frame)) ∧
    (∀ a m, s.safety.listA = .good a → s.safety.mari = some m → s.mode ≠ 0 → s.safety.plausCheck = none → s.safety.verdict = none →
      let un := s.unconfirmed m (s.inPath a)
      let ok := !s.missed m.dm (s.inPath a) && (un.isEmpty || s.numC (od 0xA020 5) == 0)
      ∃ t, exec .plausibilityCheck s = .next t ∧ t.safety.plausCheck = some { pass := ok } ∧
        (s.mode = 1 → s.safety.copyCheck = none → s.safety.listB.isBad = false →
          t.safety.verdict = some (if ok then 1 else 3) ∧ (ok = false → t.safety.selfTestIn = some 2 ∧ 3 ≤ t.frame.comp.status))) ∧
    (∀ t', s.frame.comp.n ≠ 0 → s.frame.comp.end_ + s.frame.launch - 1000 * s.num (od 0xA000 6) ≤ t' → s.listsReady = true →
      s.verdictNow = none → s.safety.verdict = none → (s.safety.mariDue = true ∨ s.safety.mari.isSome = true ∨ s.mode ≠ 2) →
      let failed := s.safety.plausCheck.any (fun q => !q.pass)
      ∃ t, exec (.verdictLate t') s = .next t ∧ t.safety.verdict = some (if failed then 3 else 5) ∧ 3 ≤ t.frame.comp.status ∧
        (failed = false → t.num (od 0xAF00 4) = Od.counter (od 0xAF00 4) (s.num (od 0xAF00 4) + 1))) ∧
    (∀ e0 e1 t', let u := (s.at t').mariRead e0 e1
      (s.mariRuns = false → exec (.marigoldSweep e0 e1 t') s = .next (s.at t')) ∧
      (s.mariRuns = true → (s.frame.comp.n = 0 ∨ s.safety.mariSeen = true ∨ t' < s.frame.comp.end_) →
        exec (.marigoldSweep e0 e1 t') s = .next u) ∧
      (s.mariRuns = true → s.frame.comp.n ≠ 0 → s.safety.mariSeen = false → s.frame.comp.end_ ≤ t' →
        ∃ t, exec (.marigoldSweep e0 e1 t') s = .next t ∧ t.safety.mariSeen = true ∧
          (t' ≤ s.frame.comp.end_ + 1000 * s.num (od 0xA030 8) → s.safety.mariDue = false →
            t.safety.mari = some (u.mariList s.frame.comp.n u.mariSweep).1 ∧ t.safety.missing = 0) ∧
          (s.frame.comp.end_ + 1000 * s.num (od 0xA030 8) < t' ∨ s.safety.mariDue = true → t.safety.mari = s.safety.mari ∧
            t.num (od 0xAF00 6) = Od.counter (od 0xAF00 6) (s.num (od 0xAF00 6) + 1)))) ∧
    (∀ t', s.frame.comp.n ≠ 0 → s.safety.mariDue = false → s.frame.comp.end_ + 1000 * s.num (od 0xA030 8) ≤ t' →
      ∃ t, exec (.marigoldDue t') s = .next t ∧ t.safety.mariDue = true ∧
        (s.safety.mari.isSome = true → t.safety.missing = s.safety.missing ∧ t.safety.verdict = s.safety.verdict) ∧
        (s.safety.mari = none →
          (s.safety.missing < 2 → t.safety.missing = s.safety.missing + 1) ∧
          (s.mode = 2 → bitAt t.frame.comp.cSafety 2 = true) ∧ (s.mode = 1 → t.safety.verdict ≠ none) ∧
          (s.mode = 0 → s.safety.verdict.isSome = true → 2 ≤ s.safety.missing → s.mariRuns = true →
            t.num (od 0xA030 9) =
              if (s.safety.restarts.filter (fun r => decide ((s.at t').frame.now < r + 60000000000))).length < 2 then 1 else 3))) ∧
    (∀ (t' : Nat) (pass : Bool), s.mariRuns = true →
      let recent := s.safety.restarts.filter (fun r => decide ((s.at t').frame.now < r + 60000000000))
      (∃ t, exec (.marigoldLockstepMismatch t') s = .next t ∧ t.num (od 0xA030 9) = (if recent.length < 2 then 1 else 3)) ∧
      (∃ t, exec (.marigoldSelfTest pass t') s = .next t ∧ t.safety.selfTestIn = none ∧
        t.num (od 0xA030 9) = (if pass then s.num (od 0xA030 9) else if recent.length < 2 then 1 else 3))) ∧
    (∀ t', s.num (od 0xA030 9) = 1 →
      (∃ t, exec (.marigoldRestartComplete true t') s = .next t ∧ t.safety.missing = 0 ∧
        t.num (od 0xA030 9) = (if s.hyperDead 0 = true ∨ s.hyperDead 1 = true then 2 else 0)) ∧
      (∃ t, exec (.marigoldRestartComplete false t') s = .next t ∧ t.num (od 0xA030 9) = 3)) ∧
    (∀ agreed : Bool, (s.frame.run = true → s.frame.comp.launched = true ∧ s.safety.testSeen ≠ s.frame.comp.n) →
      ∃ t, exec (.foxgloveTestPair agreed) s = .next t ∧ t.safety.testSeen = s.frame.comp.n ∧
        (agreed = (s.frame.comp.n % 2 == 0) → t.dict = s.dict ∧ t.log = s.log) ∧
        (agreed ≠ (s.frame.comp.n % 2 == 0) → s.madeSafe t 3))

/-- Tier 1. What Foxglove watches (R427-R431): the kick line, the watchdog, the fault lines, the launch line, the clock monitor and
FAULT_N's read-back put the module in SAFE, a write of 1 to FORCE_FALLBACK puts it in FALLBACK, and nothing else of theirs does. It
holds the model to its readings of log entries 87, 88, 90. -/
def Obligations.FoxgloveEntersSafeAndFallback : Prop :=
  ∀ s : State,
    (∀ t', ∃ t, exec (.supervisorKick t') s = .next t ∧ t.safety = { s.safety with kick := !s.safety.kick, lastKick := t' } ∧
      t.dict = s.dict) ∧
    (∀ t',
      (t' < s.safety.lastKick + 10000000 → exec (.watchdogTimeout t') s = .next (s.at t')) ∧
      (s.safety.lastKick + 10000000 ≤ t' → (s.power.supervisor = true ∨ s.sec.recovery.active = true) →
        ∃ t, exec (.watchdogTimeout t') s = .next t ∧ s.madeSafe t 0)) ∧
    (∀ security : Bool,
      (∃ t, exec (.faultLine security true) s = .next t ∧ s.madeSafe t (if security then 1 else 2) ∧
        (if security then t.safety.lineSec else t.safety.linePow) = true) ∧
      (∃ t, exec (.faultLine security false) s = .next t ∧ t.dict = s.dict ∧
        (if security then t.safety.lineSec else t.safety.linePow) = false)) ∧
    (∀ t', s.frame.comp.launched = true →
      (s.safety.launchedFrame ≠ s.frame.comp.n → ∃ t, exec (.launchLineToggle t') s = .next t ∧
        t.safety = { s.safety with launchLine := !s.safety.launchLine, launchedFrame := s.frame.comp.n }) ∧
      (s.safety.launchedFrame = s.frame.comp.n → exec (.launchLineToggle t') s = .next (s.at t'))) ∧
    (∀ t', s.frame.comp.n ≠ 0 → s.frame.comp.end_ + s.frame.launch + 1000000 ≤ t' →
      (s.safety.launchedFrame ≠ s.frame.comp.n → ∃ t, exec (.missingLaunch t') s = .next t ∧ s.madeSafe t 4) ∧
      (s.safety.launchedFrame = s.frame.comp.n → exec (.missingLaunch t') s = .next (s.at t'))) ∧
    (∀ d, (d ≤ 100 → exec (.clockMonitor d) s = .next s) ∧ (100 < d → ∃ t, exec (.clockMonitor d) s = .next t ∧ s.madeSafe t 3)) ∧
    (∀ low : Bool, (∃ t, exec (.faultNReadback low false) s = .next t ∧ s.madeSafe t 3) ∧
      (s.faultN = true → (low = true → exec (.faultNReadback low true) s = .next s) ∧
        (low = false → ∃ t, exec (.faultNReadback low true) s = .next t ∧ s.madeSafe t 3)) ∧
      (s.faultN = false → (low = false → exec (.faultNReadback low true) s = .next s) ∧
        (low = true → ∃ t, exec (.faultNReadback low true) s = .next t ∧ t.log.srv = true ∧
          t.num (od 0xAF00 0x0E) = Od.counter (od 0xAF00 0x0E) (s.num (od 0xAF00 0x0E) + 1)))) ∧
    (∀ (w : Writer) (v : BitVec 8), (s.at w.t).accepts w 0xA000 9 (.num v.toNat) →
      ∃ t, exec (.forceFallback w v) s = .next t ∧ t.hap.lastStatus = 0 ∧
        (v = 1 → bitAt (t.num (od 0xA000 3)) 3 = true ∧
          (s.num (od 0xA000 0x0A) = 0 → s.noFallback = false → t.num (od 0xA000 2) = 2) ∧
          (s.noFallback = true → s.madeSafe t 5)))

/-! Time. -/

/-- Tier 1. The time unit (R452-R459): a Sync on the slave port gives the offset, the trim, the slew and the state; the first one steps the
time; a missing one brings the standby port or HOLDOVER; boundaries are permitted; gPTP messages leave; Pdelay, interval requests and
the PPS pins do what their rules say. It holds the model to its readings of log entries 98, 99, 100. -/
def Obligations.TheTimeUnitFollowsItsMaster : Prop :=
  ∀ s : State,
    (∀ (p : Fin 12) (y : SyncIn), s.net.link p.val = true → s.flag (od (0x2100 + 16 * p.val) 5) = true →
      (p.val = s.slavePort → (s.timeState ≠ 0 ∨ s.net.time.permitted = true) →
        let off := s.syncOffset p.val y
        let l := ((y.clock, y.masterNs) :: (if s.timeState = 3 then [] else s.net.time.syncs)).take 8
        let good := decide (off.natAbs ≤ 16000)
        ∃ t, exec (.syncReceive p y) s = .next t ∧ t.net.time.offset = off ∧ t.net.time.syncs = l ∧
          t.net.time.slew = clampI (-800000) 800000 (-off) ∧ t.int (od 0x2000 3) = trimOf l ∧
          t.int (od 0x2000 2) = eitherDiv off 16 ∧
          (t.net.port[p]).lastSync = some y.t ∧ (t.net.port[p]).masterInt = y.interval ∧
          (s.timeState = 3 → t.timeState = 1) ∧
          (s.timeState = 2 → t.timeState = if good = false ∧ 3 ≤ s.net.time.bad then 1 else 2) ∧
          (s.timeState < 2 → t.timeState = (if good = true ∧ 3 ≤ s.net.time.good then 2 else 1) ∧
            (t.timeState = 2 → s.net.time.locked = false → t.net.time.locked = true ∧ t.net.time.permitted = true))) ∧
      (p.val = s.slavePort → s.timeState = 0 → s.net.time.permitted = false → s.net.time.good < 3 →
        ∃ t, exec (.syncReceive p y) s = .next t ∧ t.net.time.offset = 0 ∧ t.int (od 0x2000 2) = 0 ∧ t.timeState = 1 ∧
          t.frame.now = (((s.at y.t).frame.now : Int) - Int.fdiv (s.syncOffset p.val y) 16).toNat) ∧
      (p.val ≠ s.slavePort → s.net.time.standby = some p.val → ∃ t, exec (.syncReceive p y) s = .next t ∧
        t.net.time = s.net.time ∧ (t.net.port[p]).lastSync = some y.t ∧ (t.net.port[p]).masterInt = y.interval ∧ t.dict = s.dict)) ∧
    (∀ t', ((s.net.port[s.slavePort]?.getD {}).lastSync).isSome = true → (s.at t').syncFresh s.slavePort = false → s.timeState ≠ 3 →
      (∀ q, s.net.time.standby = some q → (s.at t').syncFresh q = true → ∃ t, exec (.syncTimeout t') s = .next t ∧ t.slavePort = q ∧
        t.net.time.standby = some s.slavePort ∧ t.net.time.syncs = [] ∧ t.timeState = s.timeState) ∧
      (s.net.time.standby.any (fun q => (s.at t').syncFresh q) = false → ∃ t, exec (.syncTimeout t') s = .next t ∧ t.timeState = 3 ∧
        t.net.time.holdover = some (Nat.max s.frame.now t') ∧ t.net.time.slew = 0 ∧ t.net.time.pps = false ∧ t.slavePort = s.slavePort)) ∧
    (∀ t' : Nat,
      (s.net.time.start + 1000000 * s.num (od 0x2000 6) ≤ (Nat.max s.frame.now t' : Nat) → ∃ t, exec (.syncWaitExpire t') s = .next t ∧
        t.net.time = { s.net.time with permitted := true }) ∧
      ((Nat.max s.frame.now t' : Nat) < s.net.time.start + 1000000 * s.num (od 0x2000 6) →
        exec (.syncWaitExpire t') s = .next (s.at t')) ∧
      (s.timeState = 2 → t' % 1000000000 = 0 → ∃ t, exec (.ppsOutRise t') s = .next t ∧ t.net.time.pps = true) ∧
      (s.timeState ≠ 2 ∨ t' % 1000000000 ≠ 0 → exec (.ppsOutRise t') s = .next (s.at t')) ∧
      (∃ t, exec (.ppsOutFall t') s = .next t ∧ t.net.time.pps = false ∧ t.dict = s.dict) ∧
      (∃ t, exec (.ppsInEdge t') s = .next t ∧ t.oct (od 0x2000 0x0C) = time80 t' ∧ t.net = s.net)) ∧
    (∀ (p : Fin 12) (t' : Nat), s.net.link p.val = true →
      let bytes := fun (kind : Nat) => Config.gptpBytes kind p.val (s.syncInterval p) t'
      ((p.val ≠ 8 ∧ p.val ≠ 9) ∨ (∃ h : Fin 2, p.val = 8 + h.val ∧ s.frame.run = false ∧ s.gateOpen h 2 = true ∧
        (s.net.host[h]).waiting = [] ∧ (s.net.host[h]).held = []) ∧ ∀ kind, (bytes kind).length ≤ 1500) →
      (s.role p.val = 1 → s.flag (od (0x2100 + 16 * p.val) 5) = true → ∃ t, exec (.syncSend p t') s = .next t ∧
        t.net.sent.map (fun f => (f.port, f.etype, f.payload)) =
          [(p.val, 0x88F7, bytes 0), (p.val, 0x88F7, bytes 8)]) ∧
      (s.role p.val ≠ 0 → s.num (od (0x2100 + 16 * p.val) 4) = 0 → ∃ t, exec (.pdelayRequestSend p t') s = .next t ∧
        t.net.sent.map (fun f => (f.port, f.etype, f.payload)) = [(p.val, 0x88F7, bytes 2)]) ∧
      (s.role p.val ≠ 0 → ∃ t, exec (.pdelayRequestReceive p t') s = .next t ∧
        t.net.sent.map (fun f => (f.port, f.etype, f.payload)) =
          [(p.val, 0x88F7, bytes 3), (p.val, 0x88F7, bytes 10)])) ∧
    (∀ (p : Fin 12) (y : PdelayIn), let delay := linkDelay (s.net.port[p]).pdelay y
      s.net.link p.val = true → s.role p.val ≠ 0 →
      (s.num (od (0x2100 + 16 * p.val) 4) = 0 → ∃ t, exec (.pdelayResponseReceive p y) s = .next t ∧
        (t.net.port[p]).pdelay = some (y.t3, y.t4) ∧ t.num (od (0x2100 + 16 * p.val) 3) = delay ∧
        t.num (od (0x2100 + 16 * p.val) 5) = (if s.num (od 0x2000 0x0A) < delay then 0 else 1)) ∧
      (s.num (od (0x2100 + 16 * p.val) 4) ≠ 0 → exec (.pdelayResponseReceive p y) s = .next s)) ∧
    (∀ (p : Fin 12) (k : Int),
      (s.role p.val = 1 → -5 ≤ k → k ≤ 0 → ∃ t, exec (.messageIntervalRequest p k) s = .next t ∧ (t.net.port[p]).ownInt = some k ∧
        t.dict = s.dict) ∧
      ((s.role p.val ≠ 1 ∨ k < -5 ∨ 0 < k) → exec (.messageIntervalRequest p k) s = .next s))

/-! HAP. -/

/-- Tier 1. HAP sessions and the dictionary (R484-R494, R497-R499, R504): OPEN, CLOSE, PING, the silence that ends a session, READ, WRITE
(all entries or none), DESCRIBE, LIST, subscriptions, notifications, SRV_CLEAR. It holds the model to its readings of log entries 2,
101, 130. -/
def Obligations.HapSessionsAreServed : Prop :=
  ∀ s : State,
    (∀ r : HapReq, s.power.supervisor = true → hapBad r = false → r.session = 0 → r.body.length = 16 → fieldLe r.body 0 1 = 1 →
      fieldLe r.body 1 1 = 0 → allZero (r.body.drop 4) = true →
      (s.sessionCount < 8 → ∃ t id, exec (.hapOpen r) s = .next t ∧ t.hap.lastStatus = 0 ∧ id ≠ 0 ∧ s.session id = none ∧
        t.hap.sessions.map (·.id) = s.hap.sessions.map (·.id) ++ [id] ∧ t.hap.lastReply.take 4 = natLe 4 id ∧
        t.sessionHas id (fun y => y.level == .open && y.lastTime == Nat.max s.frame.now r.t &&
          y.notifyPort == (if fieldLe r.body 2 2 = 0 then r.srcPort else fieldLe r.body 2 2))) ∧
      (8 ≤ s.sessionCount → ∃ t, exec (.hapOpen r) s = .next t ∧ t.hap.lastStatus = 7 ∧
        t.hap.sessions.map (·.id) = s.hap.sessions.map (·.id))) ∧
    (∀ (r : HapReq) (x : Session), s.serves r x →
      (r.body = [] → (∃ t, exec (.hapPing r) s = .next t ∧ s.answered t r 3 0 []) ∧
        (∃ t, exec (.hapClose r) s = .next t ∧ t.hap.lastStatus = 0 ∧ t.session r.session = none ∧
          t.hap.sessions.map (·.id) = (s.hap.sessions.map (·.id)).filter (· != r.session))) ∧
      (∀ es, readEntries r.body = some es → ∃ t, exec (.hapRead r) s = .next t ∧
        s.answered t r 0x10 0 (natLe 1 ((s.taken r).readAll r.session 0 1396 es).1 ++ zeros 3 ++ ((s.taken r).readAll r.session 0 1396 es).2)) ∧
      (∀ n es u pos st, fieldLe r.body 0 1 = n → 1 ≤ n → n ≤ 16 → allZero (slice r.body 1 3) = true →
        writeEntries n (r.body.drop 4) = some es → (s.taken r).write { session := r.session, t := r.t } es = (u, pos, st) →
        (st = 0 → es.any (fun e => e.1 == 0xE000 && e.2.1 == 5) = false → ∃ t, exec (.hapWrite r) s = .next t ∧
          s.answered t r 0x11 0 (writeBody pos (u.applying (es.map (fun e => (e.1, e.2.1))))) ∧ pos = 0xFF ∧
          t.dict.waiting = u.dict.waiting ∧ t.dict.journal = u.dict.journal) ∧
        (st ≠ 0 → ∃ t, exec (.hapWrite r) s = .next t ∧ s.answered t r 0x11 st (writeBody pos 0) ∧ pos < es.length ∧
          t.dict.waiting = s.dict.waiting ∧ t.dict.journal = s.dict.journal ∧ t.dict.armed = s.dict.armed)) ∧
      (r.body.length = 4 → fieldLe r.body 3 1 = 0 →
        (∀ b, (s.taken r).describe (fieldLe r.body 0 2) (fieldLe r.body 2 1) = some b → ∃ t, exec (.hapDescribe r) s = .next t ∧
          s.answered t r 0x12 0 b) ∧
        ((s.taken r).describe (fieldLe r.body 0 2) (fieldLe r.body 2 1) = none → ∃ t, exec (.hapDescribe r) s = .next t ∧
          s.answered t r 0x12 1 [])) ∧
      (r.body.length = 4 → fieldLe r.body 2 2 = 0 → ∃ t, exec (.hapList r) s = .next t ∧
        s.answered t r 0x13 0 (listBody (fieldLe r.body 0 2))) ∧
      (fieldLe r.body 0 1 = 0 → r.body.length = 4 → fieldLe r.body 1 1 = 0 → ∃ t, exec (.subscribe r) s = .next t ∧
        s.answered t r 0x40 0 (zeros 4) ∧ t.sessionHas r.session (fun y => y.evMask == some (fieldLe r.body 2 2) && y.values == x.values)) ∧
      (∀ row : OdRow, fieldLe r.body 0 1 = 1 → r.body.length = 5 →
        (s.taken r).mayRead r.session (fieldLe r.body 1 2) (fieldLe r.body 3 1) = .inl (some row) → row.ty.size.isSome = true →
        x.values.length < 32 → ∃ t, exec (.subscribe r) s = .next t ∧ s.answered t r 0x40 0 (natLe 1 x.freeSub ++ zeros 3) ∧
          t.sessionHas r.session (fun y => y.values == x.values ++
            [{ num := x.freeSub, key := od (fieldLe r.body 1 2) (fieldLe r.body 3 1), mode := fieldLe r.body 4 1 }])) ∧
      (∀ n, r.body = natLe 1 n → n < 256 →
        (n = 0 → x.evMask.isSome = true → ∃ t, exec (.unsubscribe r) s = .next t ∧ s.answered t r 0x41 0 [] ∧
          t.sessionHas r.session (fun y => y.evMask == none && y.evQueue == [])) ∧
        (n ≠ 0 → x.values.any (fun v => v.num == n) = true → ∃ t, exec (.unsubscribe r) s = .next t ∧ s.answered t r 0x41 0 [] ∧
          t.sessionHas r.session (fun y => y.values == x.values.filter (fun v => v.num != n))))) ∧
    (∀ (id t' : Nat) (x : Session), s.session id = some x →
      (x.lastTime + 1000000 * s.num (od 0x1B00 1) ≤ Nat.max s.frame.now t' → ∃ t, exec (.sessionTimeout id t') s = .next t ∧
        t.session id = none) ∧
      (Nat.max s.frame.now t' < x.lastTime + 1000000 * s.num (od 0x1B00 1) → exec (.sessionTimeout id t') s = .next (s.at t')) ∧
      (x.evQueue ≠ [] → x.lastNotify.any (fun l => decide (Nat.max s.frame.now t' < l + 10000000)) = false → s.sec.sas = [] →
        ∃ t, exec (.eventNotify id t') s = .next t ∧
          t.sessionHas id (fun y => y.evQueue == x.evQueue.drop 40 && y.lastNotify == some (Nat.max s.frame.now t') &&
            y.notifySeq == (x.notifySeq + 1) % 2 ^ 32))) ∧
    (∀ (w : Writer) (v : BitVec 8), (s.at w.t).accepts w 0xD000 5 (.num v.toNat) → ∃ t, exec (.srvClear w v) s = .next t ∧
      t.hap.lastStatus = 0 ∧ t.log.srv = false ∧ t.log.srvEvents = [] ∧ t.log.dtcs = [])

/-- Tier 1. BLOBs and results (R472, R495, R496, R500): a first piece takes a snapshot and later ones are served from it; a transfer is
opened, grows by segments in order, ends as a WRITE of one entry or with TRANSFER, is aborted or runs out; a result read serves its
record. It holds the model to its readings of log entries 52, 130. -/
def Obligations.BlobsAndResultsAreTransferred : Prop :=
  ∀ s : State,
    (∀ (r : HapReq) (x : Session), s.serves r x →
      let b := r.body
      let key := od (fieldLe b 0 2) (fieldLe b 2 1)
      let max := fieldLe b 8 2
      (∀ (row : OdRow) (d : Bytes) (u : State), b.length = 12 → fieldLe b 3 1 = 0 → fieldLe b 10 2 = 0 → 1 ≤ max → max ≤ 1392 →
        (s.taken r).mayRead r.session (fieldLe b 0 2) (fieldLe b 2 1) = .inl (some row) → row.ty.size = none →
        (s.taken r).blobValue r.session row (fieldLe b 0 2) (fieldLe b 2 1) = (u, d) →
        (fieldLe b 4 4 = 0 → d.length ≤ 67108864 → u.snapBytes r.session + d.length ≤ 134217728 →
          ∃ t, exec (.blobRead r) s = .next t ∧ s.answered t r 0x20 0 (natLe 4 d.length ++ natLe 4 0 ++ slice d 0 max) ∧
            t.sessionHas r.session (fun y => y.snapshot == some { key := key, data := d, last := Nat.max s.frame.now r.t })) ∧
        (∀ y, fieldLe b 4 4 ≠ 0 → x.snapshot = some y → y.key = key → fieldLe b 4 4 ≤ y.data.length →
          ∃ t, exec (.blobRead r) s = .next t ∧
            s.answered t r 0x20 0 (natLe 4 y.data.length ++ natLe 4 (fieldLe b 4 4) ++ slice y.data (fieldLe b 4 4) max)) ∧
        (fieldLe b 4 4 ≠ 0 → x.snapshot = none → ∃ t, exec (.blobRead r) s = .next t ∧ s.answered t r 0x20 12 [])) ∧
      (∀ row : OdRow, b.length = 12 → fieldLe b 3 1 = 0 →
        (s.taken r).mayWrite r.session (fieldLe b 0 2) (fieldLe b 2 1) true = .inl row → x.transfer = none →
        s.hap.sessions.any (fun y => y.transfer.any (fun z => z.key == key)) = false → s.stagedBytes + fieldLe b 4 4 ≤ 134217728 →
        ¬ (fieldLe b 0 2 = 0xC001 ∧ s.num (od 0xC000 3) = 4) →
        (fieldLe b 4 4 ≤ s.blobLimit (fieldLe b 0 2) (fieldLe b 2 1) → ∃ t, exec (.blobBegin r) s = .next t ∧ s.answered t r 0x21 0 [] ∧
          t.sessionHas r.session (fun y => y.transfer ==
            some { key := key, total := fieldLe b 4 4, crc := fieldLe b 8 4, slot := s.freeStaging, last := Nat.max s.frame.now r.t })) ∧
        (s.blobLimit (fieldLe b 0 2) (fieldLe b 2 1) < fieldLe b 4 4 → ∃ t, exec (.blobBegin r) s = .next t ∧ s.answered t r 0x21 5 [] ∧
          t.sessionHas r.session (fun y => y.transfer == none))) ∧
      (∀ y, x.transfer = some y →
        (5 ≤ b.length → b.length ≤ 1396 →
          (fieldLe b 0 4 = y.got → y.got + (b.length - 4) ≤ y.total → ∃ t, exec (.blobSegment r) s = .next t ∧
            s.answered t r 0x22 0 [] ∧ t.ext = ((s.taken r).dramPut (stagingAt y.slot + y.got) (b.drop 4)).ext ∧
            t.sessionHas r.session (fun z => z.transfer ==
              some { y with got := y.got + (b.length - 4), last := Nat.max s.frame.now r.t })) ∧
          (fieldLe b 0 4 ≠ y.got → ∃ t, exec (.blobSegment r) s = .next t ∧ s.answered t r 0x22 12 [] ∧
            t.sessionHas r.session (fun z => z.transfer == some { y with last := Nat.max s.frame.now r.t }))) ∧
        (b = [] →
          (∃ t, exec (.blobAbort r) s = .next t ∧ s.answered t r 0x24 0 [] ∧ t.sessionHas r.session (fun z => z.transfer == none)) ∧
          (∀ v o, ((s.taken r).modSession r.session (fun z => { z with transfer := none })).dramGet (stagingAt y.slot) y.total = (v, o) →
            (y.got ≠ y.total ∨ o.all (fun d => crc32c d != y.crc) = true) → ∃ t, exec (.blobEnd r) s = .next t ∧ s.answered t r 0x23 12 [] ∧
              t.sessionHas r.session (fun z => z.transfer == none) ∧ t.dict.waiting = s.dict.waiting ∧
              t.dict.journal = s.dict.journal) ∧
          (∀ v d row u st,
            ((s.taken r).modSession r.session (fun z => { z with transfer := none })).dramGet (stagingAt y.slot) y.total = (v, some d) →
            y.got = y.total → crc32c d = y.crc → v.mayWrite r.session (y.key / 256) (y.key % 256) true = .inl row →
            v.takeValue { session := r.session, t := r.t } [] row (y.key / 256) (.oct d) = (u, st) →
            (st = 0 → ∃ t, exec (.blobEnd r) s = .next t ∧ t.dict.journal = u.dict.journal ∧ t.dict.waiting = u.dict.waiting ∧
              s.answered t r 0x23 0 (writeBody 0xFF (u.applying [(y.key / 256, y.key % 256)]))) ∧
            (st ≠ 0 → ∃ t, exec (.blobEnd r) s = .next t ∧ s.answered t r 0x23 st (writeBody 0 0))))) ∧
      (b.length = 10 → 1 ≤ max → max ≤ 1392 → fieldLe b 4 4 = 0 →
        (∀ u d, s.readWaits (fieldLe b 0 4) = false → (s.taken r).readResult (fieldLe b 0 4) = (u, d) → d.length ≤ 67108864 →
          u.snapBytes r.session + d.length ≤ 134217728 → ∃ t, exec (.resultRead r) s = .next t ∧
            s.answered t r 0x50 0 (natLe 4 d.length ++ natLe 4 0 ++ slice d 0 max)) ∧
        (s.readWaits (fieldLe b 0 4) = true → ∃ t, exec (.resultRead r) s = .next t ∧ t.hap.lastStatus = s.hap.lastStatus ∧
          t.net.sent = [] ∧ t.sessionHas r.session (fun y => y.waitRead ==
            some { frame := fieldLe b 0 4, maxLen := max, seq := r.seq, ip := r.srcIp, port := r.srcPort })))) ∧
    (∀ (id t' : Nat) (x : Session), s.session id = some x →
      (∀ y, x.transfer = some y → y.last + 10000000000 ≤ Nat.max s.frame.now t' → ∃ t, exec (.blobTransferTimeout id t') s = .next t ∧
        t.sessionHas id (fun z => z.transfer == none) ∧ t.num (od 0x1B00 7) = Od.counter (od 0x1B00 7) (s.num (od 0x1B00 7) + 1)) ∧
      (∀ y, x.snapshot = some y → y.last + 10000000000 ≤ Nat.max s.frame.now t' → ∃ t, exec (.blobSnapshotExpire id t') s = .next t ∧
        t.sessionHas id (fun z => z.snapshot == none)))

/-! Security, life cycle and updates. -/

/-- Tier 1. Unlocking, the life cycle and attestation (R248, R523, R525-R533): a challenge gives a nonce; a right proof or token gives its
level, a wrong one is counted and locks out from the third; levels end by LOCK or expiry; a life-cycle request and a held transition
begin the wipe; tamper and the end of a debug grant; a nonce starts a quote and the quote is signed. It holds the model to its readings
of log entries 2, 15, 108, 109, 110, 122. -/
def Obligations.UnlockingAndTheLifeCycleFollowTheirRules : Prop :=
  ∀ s : State,
    (∀ (r : HapReq) (x : Session), s.serves r x →
      let now := Nat.max s.frame.now r.t
      let b := r.body
      (b.length = 4 → allZero (b.drop 1) = true → (fieldLe b 0 1 = 1 ∨ fieldLe b 0 1 = 2) →
        (s.sec.lockoutEnd ≤ now → ∃ t, exec (.unlockChallenge r) s = .next t ∧
          s.answered t r 0x30 0 (s.freshBytes 32 ++ padTo 16 (s.oct (od 0 3)) ++ natLe 1 s.sec.effective ++ zeros 3) ∧
          t.sessionHas r.session (fun y => y.nonce == some { kind := fieldLe b 0 1, bytes := s.freshBytes 32, at_ := now })) ∧
        (now < s.sec.lockoutEnd → ∃ t, exec (.unlockChallenge r) s = .next t ∧ s.answered t r 0x30 7 [])) ∧
      (∀ n, responseOk b = true → x.nonce = some n → n.good (fieldLe b 0 1) now = true →
        (fieldLe b 0 1 = 1 → (s.oct (od 0xB000 4)).isEmpty = false →
          (slice b 8 32 ≠ s.workshopProof n.bytes r.session → ∃ t, exec (.unlockResponse r) s = .next t ∧ s.answered t r 0x31 6 [] ∧
            t.sec.fails = s.sec.fails + 1 ∧ t.num (od 0xB000 2) = Od.counter (od 0xB000 2) (s.num (od 0xB000 2) + 1) ∧
            t.sec.lockoutEnd = (if 2 ≤ s.sec.fails then now + 1000000000 * lockoutFor (s.sec.fails + 1) else s.sec.lockoutEnd) ∧
            t.sessionHas r.session (fun y => y.level == x.level && y.nonce == none)) ∧
          (slice b 8 32 = s.workshopProof n.bytes r.session → (s.at r.t).gateShut = false → ∃ t, exec (.unlockResponse r) s = .next t ∧
            s.answered t r 0x31 0 (natLe 1 1 ++ zeros 3 ++ natLe 4 0) ∧ t.sec.fails = 0 ∧
            t.sessionHas r.session (fun y => y.level == .workshop && y.levelEnd == none && y.nonce == none))) ∧
        (fieldLe b 0 1 = 2 → 1 ≤ fieldLe b 4 4 → fieldLe b 4 4 ≤ 86400 → bitAt (fieldLe b 1 1) 0 = false →
          (s.at r.t).signedBy (slice b 8 168) 2 (s.vendorToken n.bytes r.session (fieldLe b 1 1) (fieldLe b 4 4)) (slice b 176 72) = true →
          (s.at r.t).gateShut = false → ∃ t, exec (.unlockResponse r) s = .next t ∧
            s.answered t r 0x31 0 (natLe 1 2 ++ zeros 3 ++ natLe 4 (fieldLe b 4 4)) ∧ t.sec.fails = 0 ∧
            t.sessionHas r.session (fun y => y.level == .vendor && y.levelEnd == some (now + 1000000000 * fieldLe b 4 4)))) ∧
      (b = [] → ∃ t, exec (.lock r) s = .next t ∧ s.answered t r 0x32 0 [] ∧
        t.sessionHas r.session (fun y => y.level == .open && y.levelEnd == none && !y.debug))) ∧
    (∀ (id t' : Nat) (x : Session), s.session id = some x →
      (∀ e, x.levelEnd = some e → e ≤ Nat.max s.frame.now t' → ∃ t, exec (.vendorExpiry id t') s = .next t ∧
        t.sessionHas id (fun y => y.level == .open && y.levelEnd == none && !y.debug)) ∧
      (∀ e, x.levelEnd = some e → Nat.max s.frame.now t' < e → exec (.vendorExpiry id t') s = .next (s.at t')) ∧
      (x.attestAt.isSome = true → s.identityOk = true → ∃ t, exec (.attestQuoteReady id t') s = .next t ∧
        t.sessionHas id (fun y => y.quote == (s.at t').quote x.attestNonce && y.attestAt == none)) ∧
      (s.identityOk = false → exec (.attestQuoteReady id t') s = .next (s.at t'))) ∧
    (∀ (w : Writer) (nonce : Bytes), (s.at w.t).accepts w 0xB003 1 (.oct nonce) →
      (attestCheck s = 0 → ∃ t, exec (.attestNonce w nonce) s = .next t ∧ t.hap.lastStatus = 0 ∧
        t.sessionHas w.session (fun y => y.attestNonce == nonce && y.attestAt == some (Nat.max s.frame.now w.t) && y.quote == [])) ∧
      (attestCheck s ≠ 0 → ∃ t, exec (.attestNonce w nonce) s = .next t ∧ t.hap.lastStatus = 11 ∧ t.hap.sessions = s.hap.sessions)) ∧
    (∀ (w : Writer) (v : BitVec 8), (s.at w.t).accepts w 2 2 (.num v.toNat) →
      (lcCheck v.toNat (s.at w.t) = 0 → ∃ t, exec (.lcRequest w v) s = .next t ∧ t.hap.lastStatus = 0 ∧ t.sec.wiping = true ∧
        t.sec.wipeTarget = some v.toNat ∧ t.sec.base = s.sec.base ∧ (∀ c : Fin 16, (t.cores[c]).pad.wiped = true)) ∧
      (lcCheck v.toNat (s.at w.t) ≠ 0 → ∃ t, exec (.lcRequest w v) s = .next t ∧ t.hap.lastStatus = lcCheck v.toNat (s.at w.t) ∧
        t.sec = s.sec ∧ t.cores = s.cores)) ∧
    (∀ t' : Nat,
      (s.sec.held = true → (s.at t').gateShut = false → s.sec.wiping = false → ∃ t, exec (.heldTransitionRelease t') s = .next t ∧
        t.sec.held = false ∧ t.sec.wiping = decide (s.lifeWanted ≠ s.sec.effective) ∧ t.sec.effective = s.sec.effective) ∧
      ((s.at t').gateShut = true → exec (.heldTransitionRelease t') s = .next (s.at t')) ∧
      (s.sec.lockoutEnd ≤ Nat.max s.frame.now t' → ∃ t, exec (.lockoutExpiry t') s = .next t ∧ t.sec = { s.sec with lockoutEnd := 0 }) ∧
      (Nat.max s.frame.now t' < s.sec.lockoutEnd → exec (.lockoutExpiry t') s = .next (s.at t')) ∧
      (∃ t, exec (.tamperDetect t') s = .next t ∧ t.sec.tampered = true ∧ t.sec.wiping = true ∧ t.safety.lineSec = true ∧
        t.log.srv = true ∧ s.madeSafe t 1 ∧ (s.sec.wiping = false → ∀ c : Fin 16, (t.cores[c]).pad.wiped = true)) ∧
      (s.sec.debugOpen = true → s.debugWanted = false → ∃ t, exec (.debugPortClose t') s = .next t ∧ s.startsAgain t 5) ∧
      ((s.sec.debugOpen = false ∨ s.debugWanted = true) → exec (.debugPortClose t') s = .next (s.at t')))

/-- Tier 1. Updates, keys, associations and requested restarts (R358, R487, R516, R534-R537, R541, R557, R558): the gate and its end;
ACTIVATE, DISCARD and the effect at the boundary; a key record waits for the restart; an SA record installs or deletes its association.
It holds the model to its readings of log entries 15, 123, 126, 145. -/
def Obligations.UpdatesKeysAndAssociationsFollowTheirRules : Prop :=
  ∀ s : State,
    (∀ (w : Writer) (v : BitVec 8), (s.at w.t).accepts w 0xC000 1 (.num v.toNat) →
      ((s.session w.session).any (fun x => x.isHost) = true → ∃ t, exec (.updateGate w v) s = .next t ∧ t.hap.lastStatus = 0 ∧
        t.num (od 0xC000 1) = v.toNat ∧ t.sec.gateAt = Nat.max s.frame.now w.t ∧
        t.num (od 0xC000 3) = s.num (od 0xC000 3)) ∧
      ((s.session w.session).any (fun x => x.isHost) = false → ∃ t, exec (.updateGate w v) s = .next t ∧ t.hap.lastStatus = 2 ∧
        t.dict = s.dict ∧ t.sec = s.sec)) ∧
    (∀ t',
      (s.flag (od 0xC000 1) = true → (s.at t').updateGate = false → ∃ t, exec (.updateGateExpire t') s = .next t ∧ t.num (od 0xC000 1) = 0) ∧
      ((s.at t').updateGate = true → exec (.updateGateExpire t') s = .next (s.at t')) ∧
      (s.num (od 0xC000 3) = 4 → s.sec.stage.written = true → (s.at t').atBoundary t' = true →
        (s.frame.run = false ∨ s.sec.stage.writtenAt + 100000000 ≤ t') → ∃ t, exec (.componentEffect t') s = .next t ∧
          t.num (od 0xC000 3) = 5 ∧ t.num (od 0xC000 6) = 0 ∧ t.sec.stage = {} ∧
          t.sec.comps.map (fun c => { c with damaged := true }) = s.sec.comps.map (fun c => { c with damaged := true })) ∧
      ((s.num (od 0xC000 3) ≠ 4 ∨ s.sec.stage.written = false) → exec (.componentEffect t') s = .next (s.at t'))) ∧
    (∀ (w : Writer) (v : BitVec 8) (t3 : Nat), (s.at w.t).accepts w 0xC000 4 (.num v.toNat) →
      let rules := (((s.at w.t).setNum (od 0xC000 3) 4).homeRules s.sec.stage.parts).2
      (activateCheck (s.at w.t) = 0 → rules = false → ∃ t, exec (.activate w v t3) s = .next t ∧ t.hap.lastStatus = 0 ∧
        t.num (od 0xC000 3) = 3 ∧ t.num (od 0xC000 6) = 6 ∧ t.sec.comps = s.sec.comps ∧ t.num (od 0x7900 1) = s.num (od 0x7900 1)) ∧
      (activateCheck (s.at w.t) = 0 → rules = true → ((s.at w.t).at t3).gateShut = true → ∃ t, exec (.activate w v t3) s = .next t ∧
        t.hap.lastStatus = 0 ∧ t.num (od 0xC000 3) = 2 ∧ t.num (od 0xC000 6) = 11 ∧ t.sec.comps = s.sec.comps ∧
        t.num (od 0x7900 1) = s.num (od 0x7900 1)) ∧
      (activateCheck (s.at w.t) = 0 → rules = true → ((s.at w.t).at t3).gateShut = false → s.frame.run = true → ∃ t, exec (.activate w v t3) s = .next t ∧ t.hap.lastStatus = 0 ∧
        t.num (od 0xC000 3) = 4 ∧ t.sec.stage.written = true ∧ t.sec.stage.writtenAt = Nat.max (Nat.max s.frame.now w.t) t3 ∧
        t.num (od 0x7900 1) = s.num (od 0x7900 1) + 1 ∧
        t.sec.comps = (s.sec.stage.parts.map (fun c => ({ c with seq := s.num (od 0x7900 1) + 1 } : Component))).foldl putComponent s.sec.comps) ∧
      (activateCheck (s.at w.t) = 0 → rules = true → s.frame.run = false → ∃ t, exec (.activate w v t3) s = .next t ∧ t.hap.lastStatus = 0 ∧
        t.num (od 0xC000 3) = 5 ∧ t.sec.stage = {}) ∧
      (activateCheck (s.at w.t) ≠ 0 → ∃ t, exec (.activate w v t3) s = .next t ∧ t.hap.lastStatus = 11 ∧ t.sec = s.sec ∧ t.dict = s.dict)) ∧
    (∀ (w : Writer) (v : BitVec 8), (s.at w.t).accepts w 0xC000 5 (.num v.toNat) →
      (s.num (od 0xC000 3) ≠ 4 → ∃ t, exec (.discard w v) s = .next t ∧ t.hap.lastStatus = 0 ∧ t.num (od 0xC000 3) = 0 ∧
        t.sec.stage = {}) ∧
      (s.num (od 0xC000 3) = 4 → ∃ t, exec (.discard w v) s = .next t ∧ t.hap.lastStatus = 11 ∧ t.sec = s.sec ∧ t.dict = s.dict)) ∧
    (∀ (w : Writer) (which : Fin 3) (rec : Bytes), (s.at w.t).accepts w 0xB002 (which.val + 1) (.oct rec) →
      ((s.at w.t).keyRecordOk rec (keyRole which) = true → ∃ t, exec (.authorityKeyWrite w which rec) s = .next t ∧ t.hap.lastStatus = 0 ∧
        Sparse.get Od.dflt t.dict.journal (od 0xB002 (which.val + 1)) = .oct rec ∧ t.dict.vals = s.dict.vals) ∧
      ((s.at w.t).keyRecordOk rec (keyRole which) = false → ∃ t, exec (.authorityKeyWrite w which rec) s = .next t ∧
        t.hap.lastStatus = 6 ∧ t.dict.journal = s.dict.journal)) ∧
    (∀ (w : Writer) (p : Fin 4) (rec : Bytes),
      let an := fieldLe rec 0 1
      let sci := fieldBe rec 4 8
      let rest := fun tx => s.sec.sas.filter (fun a => !(a.is (8 + p.val) tx && a.an == an && a.sci == sci))
      ((s.at w.t).accepts w (0xB100 + 16 * p.val) 1 (.oct rec) → saFieldsOk true rec = true →
        (saInstall rec = false → ∃ t, exec (.txSa w p rec) s = .next t ∧ t.hap.lastStatus = 0 ∧ t.sec.sas = rest true) ∧
        (∀ k, saInstall rec = true → s.sakOf rec = some k → ∃ t a, exec (.txSa w p rec) s = .next t ∧ t.hap.lastStatus = 0 ∧
          t.sec.sas.head? = some a ∧ a.port = 8 + p.val ∧ a.tx = true ∧ a.an = an ∧ a.sci = sci ∧ a.key = k ∧ a.pn = fieldLe rec 28 8 ∧
          a.transmit = bitAt (fieldLe rec 1 1) 1 ∧ t.sec.sas.length = (rest true).length + 1)) ∧
      ((s.at w.t).accepts w (0xB100 + 16 * p.val) 1 (.oct rec) → saFieldsOk true rec = false →
        ∃ t, exec (.txSa w p rec) s = .next t ∧ t.hap.lastStatus = 6 ∧ t.sec = s.sec) ∧
      ((s.at w.t).accepts w (0xB100 + 16 * p.val) 2 (.oct rec) → saFieldsOk false rec = true →
        (saInstall rec = false → ∃ t, exec (.rxSa w p rec) s = .next t ∧ t.hap.lastStatus = 0 ∧ t.sec.sas = rest false) ∧
        (∀ k, saInstall rec = true → s.sakOf rec = some k → (s.scis (8 + p.val)).length < 4 → ∃ t a, exec (.rxSa w p rec) s = .next t ∧
          t.hap.lastStatus = 0 ∧ t.sec.sas = a :: rest false ∧ a.port = 8 + p.val ∧ a.tx = false ∧ a.an = an ∧ a.sci = sci ∧ a.key = k) ∧
        (∀ k, saInstall rec = true → s.sakOf rec = some k → (s.scis (8 + p.val)).contains sci = false → 4 ≤ (s.scis (8 + p.val)).length →
          ∃ t, exec (.rxSa w p rec) s = .next t ∧ t.hap.lastStatus = 5 ∧ t.sec = s.sec))) ∧
    (∀ (w : Writer) (v : BitVec 8), (s.at w.t).accepts w 0xE000 5 (.num v.toNat) →
      ((s.at w.t).gateShut = false → ∃ t, exec (.restart w v) s = .next t ∧ t.hap.lastStatus = 0 ∧ s.startsAgain t 3) ∧
      ((s.at w.t).gateShut = true → ∃ t, exec (.restart w v) s = .next t ∧ t.hap.lastStatus = 11 ∧ t.dict = s.dict ∧ t.sec = s.sec))

/-! Power, start-up and recovery. -/

/-- Tier 1. Start-up and network recovery (R345, R347, R354, R519, R521, R524, R538-R540, R559, R561): Primrose boots once and releases the
supervisor or enters recovery; a supervisor that does not start leads there too; recovery takes a transfer from one source and restarts;
the main channel's DRAM and its readiness follow. It holds the model to its readings of log entries 13, 15, 64, 65, 137, 138. -/
def Obligations.TheModuleStartsAndRecovers : Prop :=
  ∀ s : State,
    (∀ (dir0 dir1 : Bool) (bad : List (Nat × Nat)) (t' : Nat), 2 ≤ s.powerState → s.powerState ≠ 6 →
      let base := if !s.sec.provisionedFuse then 0 else if Config.lcRecordOk storageKey s.sec.lcRecord then s.sec.base else 2
      let chosen : Option (Fin 2) := if dir0 ∧ (!dir1 ∨ (s.sec.dirs[1]).seq ≤ (s.sec.dirs[0]).seq) then some 0 else if dir1 then some 1 else none
      (s.power.booted = true → exec (.primroseBoot dir0 dir1 bad t') s = .next (s.at t')) ∧
      (s.power.booted = false → s.sec.decommissionedFuse = false → s.sec.recovery.active = false → base ≠ 6 →
        (chosen = none → ∃ t, exec (.primroseBoot dir0 dir1 bad t') s = .next t ∧ t.power.booted = true ∧
          t.power.startedAt = Nat.max s.frame.now t' ∧ t.sec.effective = base ∧ t.sec.recovery = { active := true, reason := 1 } ∧
          t.power.supervisor = false ∧ t.log.srv = true) ∧
        (∀ i, chosen = some i → (∀ c ∈ (s.sec.dirs[i]).parts, c.type = 1 → bad.contains (c.type, c.inst) = true) →
          ∃ t, exec (.primroseBoot dir0 dir1 bad t') s = .next t ∧ t.power.booted = true ∧
            t.power.startedAt = Nat.max s.frame.now t' ∧ t.sec.effective = base ∧ t.sec.recovery = { active := true, reason := 2 } ∧
            t.power.supervisor = false ∧ t.log.srv = true ∧ t.sec.dirUsed = i)) ∧
      (s.power.booted = false → s.sec.provisionedFuse = true → s.sec.decommissionedFuse = false →
        Config.lcRecordOk storageKey s.sec.lcRecord = true → s.sec.base ≠ 6 → ∀ i c, chosen = some i →
        (s.sec.dirs[i]).parts.find? (fun c => c.type == 1) = some c → bad.contains (c.type, c.inst) = false →
        ((s.at t').setNum (od 0 6) c.issue).oneOk c c.trailer = true → ∃ t, exec (.primroseBoot dir0 dir1 bad t') s = .next t ∧
          t.power.booted = true ∧ t.power.supervisor = true ∧ t.sec.recovery = s.sec.recovery ∧ t.num (od 0 6) = c.issue ∧
          t.sec.dirUsed = i ∧ t.num (od 0x7900 1) = (s.sec.dirs[i]).seq) ∧
      (s.power.booted = false → s.sec.decommissionedFuse = true → ∃ t, exec (.primroseBoot dir0 dir1 bad t') s = .next t ∧
        t.power.booted = true ∧ t.power.supervisor = true ∧ t.sec.effective = 6 ∧ t.num (od 0xA030 9) = 3 ∧ t.safety.lineSec = true)) ∧
    (∀ t', s.power.supervisor = true → s.power.trained = false → s.safety.lastKick ≤ s.power.startedAt →
      (s.power.startedAt + 2000000000 ≤ Nat.max s.frame.now t' → s.sec.base ≠ 6 → s.sec.recovery.active = false →
        ∃ t, exec (.supervisorStartTimeout t') s = .next t ∧ t.sec.recovery = { active := true, reason := 3 } ∧
          t.power.supervisor = false ∧ t.log.srv = true) ∧
      (Nat.max s.frame.now t' < s.power.startedAt + 2000000000 → exec (.supervisorStartTimeout t') s = .next (s.at t'))) ∧
    (∀ t',
      (s.sec.recovery.active = false → exec (.recoveryHello t') s = .next (s.at t').quiet) ∧
      (s.sec.recovery.active = true → (∀ h : Fin 2, s.lineReady h) →
        ∃ t, exec (.recoveryHello t') s = .next t ∧ t.freeCtr = s.freeCtr + 1 ∧
          t.net.sent.map (fun f => (f.port, f.dstIp, f.sport, f.dport)) =
            [(8, 0xFFFFFFFF, 44103, 44103), (9, 0xFFFFFFFF, 44103, 44103)]) ∧
      (s.sec.recovery.owner.isSome = true → s.sec.recovery.last + 10000000000 ≤ Nat.max s.frame.now t' →
        ∃ t, exec (.recoveryTransferTimeout t') s = .next t ∧
          t.sec.recovery = { s.sec.recovery with owner := none, total := 0, data := [] })) ∧
    (∀ r : RecReq, s.sec.recovery.active = true → r.version = 1 →
      let x := s.sec.recovery
      let now := Nat.max s.frame.now r.t
      let whole := x.data.length == x.total && crc32c x.data == x.crc
      (∀ o, x.owner = some o → o ≠ r.srcIp → (∃ t, exec (.recoveryBegin r) s = .next t ∧ t.sec.recovery = x) ∧
        (∃ t, exec (.recoverySegment r) s = .next t ∧ t.sec.recovery = x) ∧
        (∃ t, exec (.recoveryEnd r) s = .next t ∧ t.sec.recovery = x ∧ t.sec.comps = s.sec.comps)) ∧
      ((x.owner = none ∨ x.owner = some r.srcIp) → r.data.length = 8 → fieldLe r.data 0 4 ≤ s.num (od 0x7900 2) →
        ∃ t, exec (.recoveryBegin r) s = .next t ∧ t.sec.recovery =
          { x with owner := some r.srcIp, total := fieldLe r.data 0 4, crc := fieldLe r.data 4 4, data := [], last := now }) ∧
      (x.owner = some r.srcIp → r.data.length ≤ 1392 → r.offset = x.data.length → x.data.length + r.data.length ≤ x.total →
        ∃ t, exec (.recoverySegment r) s = .next t ∧
          t.sec.recovery = { x with data := x.data ++ r.data, last := now }) ∧
      (x.owner = some r.srcIp →
        (whole = false → ∃ t, exec (.recoveryEnd r) s = .next t ∧
          t.sec.recovery = { x with owner := none, total := 0, data := [], last := now } ∧ t.sec.comps = s.sec.comps) ∧
        (whole = true → ((s.at r.t).readComponent x.data).filter recTypesOk = none → ∃ t, exec (.recoveryEnd r) s = .next t ∧
          t.sec.recovery = { x with owner := none, total := 0, data := [], last := now } ∧ t.sec.comps = s.sec.comps) ∧
        (∀ cs, whole = true → ((s.at r.t).readComponent x.data).filter recTypesOk = some cs → ∃ t, exec (.recoveryEnd r) s = .next t ∧
          s.startsAgain t 6 ∧ t.sec.comps =
            (cs.map (fun c => ({ c with seq := s.num (od 0x7900 1) + 1 } : Component))).foldl putComponent s.sec.comps))) ∧
    (∀ (trained : BitVec 8) (t' : Nat), s.power.supervisor = true → s.power.trained = false → s.band ≠ 3 → s.ext.failed = 0 →
      ∃ t, exec (.coreResetRelease trained t') s = .next t ∧ t.power.trained = true ∧
        t.num (od 0x7800 1) = 255 - t.num (od 0x7800 3) % 256 ∧ t.num (od 0x7800 2) = t.capacity ∧
        t.ext.failed = t.num (od 0x7800 3) % 256 ∧
        (∀ c, c < 8 → bitAt (t.num (od 0x7800 3)) c = (bitAt (s.num (od 0x7800 3)) c || !bitAt trained.toNat c)) ∧
        (regionsOk t.num t.capacity = false → bitAt (t.num (od 0xA000 3)) 1 = true)) ∧
    (∀ t', s.power.supervisor = true → s.power.trained = true → s.power.mainReady = false →
      ∃ t, exec (.mainChannelReady t') s = .next t ∧ t.power.mainReady = true ∧
        (s.sec.comps = [] → ∀ n : Fin 16, 
          if allZero (s.oct (od (0x8100 + 16 * n.val) 1)) = true then (t.table n.val).state = 0
          else (t.table n.val).state = 1 ∨ (t.table n.val).state = 2)) ∧
    (∀ t', s.power.booted = true → s.power.mainReady = false →
      (s.power.lateRaised = false → s.power.startedAt + 3000000000 ≤ Nat.max s.frame.now t' → ∃ t, exec (.mainNotReady t') s = .next t ∧
        t.power.lateRaised = true ∧ t.log.seq ≠ s.log.seq) ∧
      (s.power.lateRaised = true → exec (.mainNotReady t') s = .next (s.at t')))

/-- Tier 1. Supply, power states, clocks and sensors (R382, R427, R451, R546-R553, R556, R563, R564): bands and HOLD; SHUTDOWN by HIGH, by
the off delay and by a sleep request; power failure; wakes; a lost PLL; the samples and what lies above a limit. It holds the model to
its readings of log entries 133, 134, 135, 136, 140, 141. -/
def Obligations.PowerFollowsTheSupplyAndThePins : Prop :=
  ∀ (t' : Nat) (s : State),
    let now := Nat.max s.frame.now t'
    let off := if s.band < 2 ∨ s.band = 6 then 0 else 1
    (∀ (mv : Int) (kl30 : BitVec 2), 2 ≤ s.powerState → s.power.dipAt = none →
      let new := bandOf s.band mv
      ∃ t, exec (.supplyBandChange mv kl30 t') s = .next t ∧ t.band = new ∧ t.int (od 0xE000 2) = clampI 0 65535 mv ∧
        t.num (od 0xE000 8) = kl30.toNat ∧ t.powerState = s.powerState ∧
        (new = 3 → s.band ≠ 3 → t.power.holdAt.isSome = true ∧ t.sched.hold = true ∧ t.frame.ing.hold = true) ∧
        (new ≠ 3 → s.band = 3 → s.power.holdAt.isSome = true → t.power.holdAt = none ∧ t.power.resumeAt = some (now + 1000000)) ∧
        t.power.dipAt = (if bandDead new = true then some now else none)) ∧
    (∀ (mv : Int) (kl30 : BitVec 2), s.powerState < 2 → (bandOf s.band mv < 2 ∨ bandOf s.band mv = 6) →
      ∃ t, exec (.supplyBandChange mv kl30 t') s = .next t ∧ t.powerState = 0 ∧ t.band = bandOf s.band mv) ∧
    (∀ h, s.up = true → s.power.highAt = some h → h + 75000000000 ≤ now → ∃ t, exec (.highBandTimeout t') s = .next t ∧ s.shutsDown t ∧
      t.power.highEnded = true) ∧
    (s.power.highAt = none → exec (.highBandTimeout t') s = .next (s.at t')) ∧
    (∀ d, 2 ≤ s.powerState → bandDead s.band = true → s.power.dipAt = some d →
      (d + 10000000 ≤ now → ∃ t, exec (.powerFailure t') s = .next t ∧ t.powerState = off ∧ t.power.failed = true ∧ t.frame.run = false) ∧
      (now < d + 10000000 → exec (.powerFailure t') s = .next (s.at t'))) ∧
    (s.powerState = 1 → bandDead s.band = false → s.power.highEnded = false →
      (∃ t, exec (.wake t') s = .next t ∧ s.startsAgain t (if s.power.failed then 2 else 1) ∧ t.power.pulse = true) ∧
      (∃ t, exec .tc10Wake s = .next t ∧ s.startsAgain t (if s.power.failed then 2 else 1) ∧ t.power.pulse = false)) ∧
    (s.powerState = 6 → (∃ t, exec (.wake t') s = .next t ∧ t.power.wakeWaits = true ∧ t.powerState = 6) ∧
      (∃ t, exec .tc10Wake s = .next t ∧ t.power.wakeWaits = true ∧ t.powerState = 6)) ∧
    (2 ≤ s.powerState → s.powerState < 6 → exec (.wake t') s = .next (s.at t') ∧ exec .tc10Wake s = .next s) ∧
    (∀ mv15 mvWake : Int, let kl15 := pinLevel 4000 8000 s.power.kl15 mv15
      let wakeLow := !pinLevel 1500 3500 (!s.power.wakeLow) mvWake
      ∃ t, exec (.kl15Change mv15 mvWake t') s = .next t ∧ t.power.kl15 = kl15 ∧ t.power.wakeLow = wakeLow ∧
      (8000 ≤ mv15 → kl15 = true) ∧ (mv15 ≤ 4000 → kl15 = false) ∧ (3500 ≤ mvWake → wakeLow = false) ∧
      (mvWake ≤ 1500 → wakeLow = true) ∧ t.dict = s.dict ∧
      (s.powerState = 6 → t.power.wakeWaits = (s.power.wakeWaits || kl15 || wakeLow)) ∧
      (s.powerState ≠ 6 → t.power.idleAt = if (!kl15 && !wakeLow && s.num (od 0xC000 3) != 4) = true then
        some (s.power.idleAt.getD now) else none)) ∧
    (s.up = true → s.standbyOk = true →
      (∀ i, s.power.idleAt = some i → i + 1000000 * s.num (od 0xE000 6) ≤ now → ∃ t, exec (.offDelayExpire t') s = .next t ∧
        s.shutsDown t) ∧
      (s.net.link 8 = true → ∃ t, exec .tc10SleepRequest s = .next t ∧ s.shutsDown t ∧ t.num (od 0x1180 0x14) = 1)) ∧
    (s.standbyOk = false → exec (.offDelayExpire t') s = .next (s.at t') ∧
      (s.up = true → s.net.link 8 = true → ∃ t, exec .tc10SleepRequest s = .next t ∧ t.power = s.power ∧ t.powerState = s.powerState ∧
        t.log.seq ≠ s.log.seq)) ∧
    (∀ a, s.powerState = 6 → s.power.shutAt = some a →
      (a + 200000000 ≤ now → s.power.wakeWaits = false → ∃ t, exec (.shutdownSaveTimeout t') s = .next t ∧ t.powerState = off ∧
        t.frame.run = false) ∧
      (now < a + 200000000 → exec (.shutdownSaveTimeout t') s = .next (s.at t'))) ∧
    (∀ d : Fin 60, 2 ≤ s.powerState → ∃ t, exec (.pllLockFailure d) s = .next t ∧
      (d.val < 16 → s.frame.run = true → t.flashNum (odCore 0x6100 (coreNo d.val) 1) = 2) ∧
      (19 ≤ d.val → d.val ≤ 34 → bitAt t.ext.failed ((d.val - 19) % 8) = true) ∧
      (d.val = 51 ∨ d.val = 52 → t.num (od 0xA030 9) = 3) ∧
      (d.val = 55 → s.madeSafe t 3) ∧
      (d.val ∈ [16, 17, 18, 35, 36, 37, 50, 56] → t.safety.linePow = true ∧ s.madeSafe t 2)) ∧
    (∀ (temps : List Int) (power : Nat), 2 ≤ s.powerState → temps.length = 23 → ∃ t, exec (.sensorSample temps power t') s = .next t ∧
      (∀ i v, temps[i]? = some v → t.int (od 0xE020 (i + 1)) = satSigned 16 v) ∧ t.num (od 0xE000 3) = Nat.min power 65535 ∧
      (10 * s.num (od 0xE010 1) < power → t.power.overNow = true) ∧
      (s.power.dieHot = false → (∃ v ∈ temps.take 20, 2000 ≤ v ∧ v ≤ 2400) → t.safety.linePow = true ∧ s.madeSafe t 2))

/-! Diagnostics. -/

/-- Tier 1. Diagnostics (R542-R544): vehicle identification and announcement, routing activation, alive check, status and power mode; a
diagnostic message is acknowledged and its service served; each UDS service answers what the rule gives and what it needs; S3 and the
close end the level. It holds the model to its readings of log entries 2, 114, 115, 145. -/
def Obligations.DiagnosticsAreServed : Prop :=
  ∀ s : State,
    (∀ h : Fin 2, s.power.supervisor = true → s.net.announce[h] ≠ 0 → s.canReply h 0xFFFFFFFF →
      ∃ t, exec (.doipVehicleAnnouncement h) s = .next t ∧ t.net.announce[h] = s.net.announce[h] - 1 ∧
        t.net.sent.map (fun f => (f.port, f.dstIp, f.dport, f.payload)) = [(hostPort h, 0xFFFFFFFF, 13400, doipMsg 2 4 s.vehicleId)]) ∧
    (∀ r : DoipReq, exec (.doipGenericNack r) s = .next (s.at r.t).quiet) ∧
    (∀ r : DoipReq, s.power.supervisor = true → (r.version = 2 ∨ r.version = 3) → s.canReply r.host r.srcIp →
      (r.body = [] →
        (∃ t, exec (.doipVehicleIdentification r) s = .next t ∧ t.replied r [(4, s.vehicleId)] ∧ t.doip = s.doip) ∧
        (∃ t, exec (.doipEntityStatus r) s = .next t ∧ t.doip = s.doip ∧
          t.replied r [(0x4002, [1, 2] ++ natBe 1 (s.doip.toList.filter (fun x => x.routed)).length ++ natBe 4 4096)]) ∧
        (∃ t, exec (.doipPowerMode r) s = .next t ∧ t.replied r [(0x4004, [if s.frame.run then 1 else 0])] ∧ t.doip = s.doip) ∧
        (∃ t, exec (.doipAliveCheck r) s = .next t ∧ t.replied r [(8, natBe 2 doipAddress)] ∧ t.doip = s.doip)) ∧
      ((r.body.length = 7 ∨ r.body.length = 11) → ∃ t, exec (.doipRoutingActivation r) s = .next t ∧
        t.replied r [(6, natBe 2 (fieldBe r.body 0 2) ++ natBe 2 doipAddress ++ natBe 1 (s.routingCode r) ++ zeros 4)] ∧
        (∀ c, doipConn r = some c → s.routingCode r = 0x10 → (s.doip[c]).routed = false →
          t.doip[c] = { routed := true, tester := fieldBe r.body 0 2, last := Nat.max s.frame.now r.t }) ∧
        (s.routingCode r ≠ 0x10 → t.doip = s.doip)) ∧
      (∀ c, doipConn r = some c → 5 ≤ r.body.length → r.body.length ≤ 4096 →
        let source := fieldBe r.body 0 2
        let target := fieldBe r.body 2 2
        ((s.doip[c]).routed = true → (s.doip[c]).tester = source → target = doipAddress →
          ∃ v : State, v.replied r [(0x8002, natBe 2 target ++ natBe 2 source ++ [0])] ∧ v.doip = s.doip ∧ v.dict.journal = s.dict.journal ∧
            exec (.doipDiagnosticMessage r) s = .next (v.udsOn c r (fun s => s.udsServe c (r.body.drop 4)))) ∧
        (((s.doip[c]).routed = false ∨ (s.doip[c]).tester ≠ source) → ∃ t, exec (.doipDiagnosticMessage r) s = .next t ∧
          t.replied r [(0x8003, natBe 2 target ++ natBe 2 source ++ [2])] ∧ t.doip = s.doip) ∧
        ((s.doip[c]).routed = true → (s.doip[c]).tester = source → target ≠ doipAddress →
          ∃ t, exec (.doipDiagnosticMessage r) s = .next t ∧ t.replied r [(0x8003, natBe 2 target ++ natBe 2 source ++ [3])] ∧
            t.doip = s.doip))) ∧
    (∀ (r : DoipReq) (c : Fin 2), s.power.supervisor = true → doipConn r = some c → (s.doip[c]).routed = true → s.canReply r.host r.srcIp →
      let x := s.doip[c]
      let now := Nat.max s.frame.now r.t
      (r.body = [0x10, 1] → ∃ t, exec (.diagnosticSessionControl r) s = .next t ∧
        t.udsAnswered r x.tester ([0x50, 1] ++ (natBe 2 50 ++ natBe 2 500)) ∧
        t.doip[c] = { x with extended := false, workshop := false, seed := none, last := now }) ∧
      (r.body = [0x10, 3] → ∃ t, exec (.diagnosticSessionControl r) s = .next t ∧
        t.udsAnswered r x.tester ([0x50, 3] ++ (natBe 2 50 ++ natBe 2 500)) ∧ t.doip[c] = { x with extended := true, last := now }) ∧
      (r.body = [0x11, 1] →
        (x.extended = true → x.workshop = true → (s.at r.t).gateShut = false → ∃ t, exec (.ecuReset r) s = .next t ∧
          t.udsAnswered r x.tester [0x51, 1] ∧ s.startsAgain t 4) ∧
        (x.extended = false → ∃ t, exec (.ecuReset r) s = .next t ∧ t.udsAnswered r x.tester [0x7F, 0x11, 0x7F] ∧
          t.powerState = s.powerState) ∧
        (x.extended = true → x.workshop = true → (s.at r.t).gateShut = true → ∃ t, exec (.ecuReset r) s = .next t ∧
          t.udsAnswered r x.tester [0x7F, 0x11, 0x22] ∧ t.powerState = s.powerState)) ∧
      (r.body = [0x14, 0xFF, 0xFF, 0xFF] → x.extended = true → x.workshop = true → ∃ t,
        exec (.clearDiagnosticInformation r) s = .next t ∧ t.udsAnswered r x.tester [0x54] ∧ t.log.srv = false ∧ t.log.srvEvents = [] ∧
        t.log.dtcs = []) ∧
      (fieldBe r.body 0 1 = 0x19 →
        (∀ b, s.udsReadDtc r.body = .inl b → ∃ t, exec (.readDtcInformation r) s = .next t ∧ t.udsAnswered r x.tester b ∧
          t.doip[c] = { x with last := now }) ∧
        (∀ n, s.udsReadDtc r.body = .inr n → ∃ t, exec (.readDtcInformation r) s = .next t ∧
          t.udsAnswered r x.tester [0x7F, 0x19, BitVec.ofNat 8 n])) ∧
      (fieldBe r.body 0 1 = 0x22 →
        (∀ b, s.udsReadData r.body = .inl b → ∃ t, exec (.readDataByIdentifier r) s = .next t ∧ t.udsAnswered r x.tester b ∧
          t.doip[c] = { x with last := now }) ∧
        (∀ n, s.udsReadData r.body = .inr n → ∃ t, exec (.readDataByIdentifier r) s = .next t ∧
          t.udsAnswered r x.tester [0x7F, 0x22, BitVec.ofNat 8 n])) ∧
      (r.body = [0x27, 1] → x.extended = true → x.workshop = false →
        (s.sec.lockoutEnd ≤ now → ∃ t, exec (.securityAccessRequestSeed r) s = .next t ∧
          t.udsAnswered r x.tester ([0x67, 1] ++ s.freshBytes 32) ∧
          t.doip[c] = { x with seed := some { bytes := s.freshBytes 32, at_ := now }, last := now }) ∧
        (now < s.sec.lockoutEnd → ∃ t, exec (.securityAccessRequestSeed r) s = .next t ∧
          t.udsAnswered r x.tester [0x7F, 0x27, 0x37])) ∧
      (∀ n, r.body.take 2 = [0x27, 2] → r.body.length = 34 → x.extended = true → s.sec.lockoutEnd ≤ now → x.seed = some n →
        n.good 1 now = true → (s.oct (od 0xB000 4)).isEmpty = false →
        (r.body.drop 2 = s.workshopProof n.bytes x.tester → (s.at r.t).gateShut = false →
          ∃ t, exec (.securityAccessSendKey r) s = .next t ∧ t.udsAnswered r x.tester [0x67, 2] ∧
            t.doip[c] = { x with workshop := true, seed := none, last := now } ∧ t.sec.fails = 0) ∧
        (r.body.drop 2 ≠ s.workshopProof n.bytes x.tester → ∃ t, exec (.securityAccessSendKey r) s = .next t ∧
          t.udsAnswered r x.tester [0x7F, 0x27, if s.sec.fails < 2 then 0x35 else 0x36] ∧ t.sec.fails = s.sec.fails + 1 ∧
          t.doip[c] = { x with seed := none, last := now })) ∧
      (r.body = [0x31, 1, 2, 1] → x.extended = true → x.workshop = true → ∃ t, exec (.routineControl r) s = .next t ∧
        t.udsAnswered r x.tester [0x71, 1, 2, 1] ∧ t.cores = (s.marchRequest 0xFFFF).cores) ∧
      (r.body = [0x3E, 0] → ∃ t, exec (.testerPresent r) s = .next t ∧ t.udsAnswered r x.tester [0x7E, 0] ∧
        t.doip[c] = { x with last := now }) ∧
      (r.body = [0x3E, 0x80] → ∃ t, exec (.testerPresent r) s = .next t ∧ t.net.sent = [] ∧ t.doip[c] = { x with last := now })) ∧
    (∀ (c : Fin 2) (t' : Nat),
      (∃ t, exec (.doipConnectionClose c) s = .next t ∧ t.doip = s.doip.set c {}) ∧
      ((s.doip[c]).extended = true → (s.doip[c]).last + 5000000000 ≤ Nat.max s.frame.now t' → ∃ t, exec (.s3Timeout c t') s = .next t ∧
        t.doip[c] = { s.doip[c] with extended := false, workshop := false, seed := none }) ∧
      ((s.doip[c]).extended = false → exec (.s3Timeout c t') s = .next (s.at t')))
end

