-- ==== Sys2Proof/Laws/Sparse.lean ====
section
/-! SUPPORT. The laws of a sparse table: reading after a write, and the canonical form. -/

namespace Sys2Proof.Machine

variable {α : Type}

theorem Sparse.get_del_same (d : Nat → α) (m : List (Nat × α)) (a : Nat) : Sparse.get d (Sparse.del m a) a = d a := by
  induction m with
  | nil => rfl
  | cons x m ih =>
    obtain ⟨k, v⟩ := x
    by_cases h : k = a
    · simpa [Sparse.del, h] using ih
    · simpa [Sparse.del, h, Sparse.get, Ne.symm h] using ih

theorem Sparse.get_del_other (d : Nat → α) (m : List (Nat × α)) {a b : Nat} (h : b ≠ a) :
    Sparse.get d (Sparse.del m a) b = Sparse.get d m b := by
  induction m with
  | nil => rfl
  | cons x m ih =>
    obtain ⟨k, v⟩ := x
    by_cases hk : k = a
    · subst hk; simpa [Sparse.del, Sparse.get, h] using ih
    · by_cases hb : b = k
      · subst hb; simp [Sparse.del, Sparse.get, h]
      · simpa [Sparse.del, hk, Sparse.get, hb] using ih

theorem Sparse.get_ins_other (d : Nat → α) (m : List (Nat × α)) {a b : Nat} (v : α) (h : b ≠ a) :
    Sparse.get d (Sparse.ins m a v) b = Sparse.get d m b := by
  induction m with
  | nil => simp [Sparse.ins, Sparse.get, h]
  | cons x m ih =>
    obtain ⟨k, w⟩ := x
    by_cases hk : a < k
    · simp [Sparse.ins, hk, Sparse.get, h]
    · by_cases hb : b = k <;> simp [Sparse.ins, hk, Sparse.get, hb, ih]

theorem Sparse.get_ins_same (d : Nat → α) (m : List (Nat × α)) (a : Nat) (v : α) (h : ∀ x ∈ m, x.1 ≠ a) :
    Sparse.get d (Sparse.ins m a v) a = v := by
  induction m with
  | nil => simp [Sparse.ins, Sparse.get]
  | cons x m ih =>
    obtain ⟨k, w⟩ := x
    have hk : k ≠ a := h (k, w) (by simp)
    by_cases hl : a < k
    · simp [Sparse.ins, hl, Sparse.get]
    · simp only [Sparse.ins, hl, if_false, Sparse.get, if_neg (Ne.symm hk)]
      exact ih (fun x hx => h x (by simp [hx]))

theorem Sparse.not_mem_del (m : List (Nat × α)) (a : Nat) : ∀ x ∈ Sparse.del m a, x.1 ≠ a := by
  intro x hx; simpa using (List.mem_filter.1 hx).2

/-- Reading what was just put. -/
@[simp] theorem Sparse.get_put_same [DecidableEq α] (d : Nat → α) (m : List (Nat × α)) (a : Nat) (v : α) :
    Sparse.get d (Sparse.put d m a v) a = v := by
  unfold Sparse.put
  split
  · rename_i h; rw [h]; exact Sparse.get_del_same d m a
  · exact Sparse.get_ins_same d _ a v (Sparse.not_mem_del m a)

/-- A write leaves every other key alone. -/
theorem Sparse.get_put_other [DecidableEq α] (d : Nat → α) (m : List (Nat × α)) {a b : Nat} (v : α) (h : b ≠ a) :
    Sparse.get d (Sparse.put d m a v) b = Sparse.get d m b := by
  unfold Sparse.put
  split
  · exact Sparse.get_del_other d m h
  · rw [Sparse.get_ins_other d _ v h, Sparse.get_del_other d m h]

/-- Reading after a write. -/
theorem Sparse.get_put [DecidableEq α] (d : Nat → α) (m : List (Nat × α)) (a b : Nat) (v : α) :
    Sparse.get d (Sparse.put d m a v) b = if b = a then v else Sparse.get d m b := by
  split
  · rename_i h; subst h; exact Sparse.get_put_same d m b v
  · rename_i h; exact Sparse.get_put_other d m v h

theorem Sparse.wfFrom_mono [DecidableEq α] (d : Nat → α) {lo lo' : Nat} (h : lo' ≤ lo) (m : List (Nat × α))
    (hm : Sparse.wfFrom d lo m = true) : Sparse.wfFrom d lo' m = true := by
  cases m with
  | nil => rfl
  | cons x m =>
    obtain ⟨k, v⟩ := x
    simp only [Sparse.wfFrom, Bool.and_eq_true, decide_eq_true_eq] at hm ⊢
    exact ⟨⟨le_trans h hm.1.1, hm.1.2⟩, hm.2⟩

theorem Sparse.wfFrom_filter [DecidableEq α] (d : Nat → α) (p : Nat × α → Bool) (lo : Nat) (m : List (Nat × α))
    (hm : Sparse.wfFrom d lo m = true) : Sparse.wfFrom d lo (m.filter p) = true := by
  induction m generalizing lo with
  | nil => rfl
  | cons x m ih =>
    obtain ⟨k, v⟩ := x
    simp only [Sparse.wfFrom, Bool.and_eq_true, decide_eq_true_eq] at hm
    have h2 := ih (k + 1) hm.2
    by_cases hp : p (k, v)
    · simp only [List.filter_cons, hp, if_true, Sparse.wfFrom, Bool.and_eq_true, decide_eq_true_eq]; exact ⟨hm.1, h2⟩
    · simp only [List.filter_cons, hp]
      exact Sparse.wfFrom_mono d (le_trans hm.1.1 (Nat.le_succ k)) _ h2

theorem Sparse.wfFrom_ins [DecidableEq α] (d : Nat → α) (lo : Nat) (m : List (Nat × α)) (a : Nat) (v : α) (hl : lo ≤ a)
    (hv : v ≠ d a) (hn : ∀ x ∈ m, x.1 ≠ a) (hm : Sparse.wfFrom d lo m = true) : Sparse.wfFrom d lo (Sparse.ins m a v) = true := by
  induction m generalizing lo with
  | nil => simp [Sparse.ins, Sparse.wfFrom, hl, hv]
  | cons x m ih =>
    obtain ⟨k, w⟩ := x
    have hk : k ≠ a := hn (k, w) (by simp)
    simp only [Sparse.wfFrom, Bool.and_eq_true, decide_eq_true_eq] at hm
    by_cases h : a < k
    · simp only [Sparse.ins, h, if_true, Sparse.wfFrom, Bool.and_eq_true, decide_eq_true_eq]
      exact ⟨⟨hl, hv⟩, ⟨⟨h, hm.1.2⟩, hm.2⟩⟩
    · simp only [Sparse.ins, h, if_false, Sparse.wfFrom, Bool.and_eq_true, decide_eq_true_eq]
      exact ⟨hm.1, ih (k + 1) (by omega) (fun x hx => hn x (by simp [hx])) hm.2⟩

/-- A filter keeps the canonical form. -/
theorem Sparse.wf_filter [DecidableEq α] (d : Nat → α) (p : Nat × α → Bool) (m : List (Nat × α)) (h : Sparse.wf d m = true) :
    Sparse.wf d (m.filter p) = true := Sparse.wfFrom_filter d p 0 m h

/-- A write keeps the canonical form. -/
theorem Sparse.wf_put [DecidableEq α] (d : Nat → α) (m : List (Nat × α)) (a : Nat) (v : α) (h : Sparse.wf d m = true) :
    Sparse.wf d (Sparse.put d m a v) = true := by
  unfold Sparse.put
  split
  · exact Sparse.wf_filter d _ m h
  · rename_i hv
    exact Sparse.wfFrom_ins d 0 _ a v (Nat.zero_le a) hv (Sparse.not_mem_del m a) (Sparse.wf_filter d _ m h)

/-- A run of writes keeps the canonical form. -/
theorem Sparse.wf_putN [DecidableEq α] (d : Nat → α) (m : List (Nat × α)) (a : Nat) (l : List α) (h : Sparse.wf d m = true) :
    Sparse.wf d (Sparse.putN d m a l) = true := by
  induction l generalizing m a with
  | nil => exact h
  | cons v l ih => exact ih _ _ (Sparse.wf_put d m a v h)

/-- A fold of operations that keep the canonical form keeps it. -/
theorem Sparse.wf_foldl {β : Type} [DecidableEq α] (d : Nat → α) (f : List (Nat × α) → β → List (Nat × α))
    (hf : ∀ m x, Sparse.wf d m = true → Sparse.wf d (f m x) = true) (l : List β) (m : List (Nat × α)) (h : Sparse.wf d m = true) :
    Sparse.wf d (l.foldl f m) = true := by
  induction l generalizing m with
  | nil => exact h
  | cons x l ih => exact ih _ (hf m x h)

/-- What was put in a run of keys reads back, and every other key reads as before. -/
theorem Sparse.get_putN [DecidableEq α] (d : Nat → α) (m : List (Nat × α)) (a : Nat) (l : List α) (b : Nat) :
    Sparse.get d (Sparse.putN d m a l) b = if a ≤ b then (l[b - a]?).getD (Sparse.get d m b) else Sparse.get d m b := by
  induction l generalizing m a with
  | nil => simp [Sparse.putN]
  | cons v l ih =>
    rw [Sparse.putN, ih, Sparse.get_put]
    rcases Nat.lt_trichotomy b a with h | rfl | h
    · rw [if_neg (by omega), if_neg (by omega), if_neg (by omega)]
    · rw [if_neg (by omega), if_pos rfl, if_pos (Nat.le_refl b), Nat.sub_self]; rfl
    · rw [if_pos (by omega), if_neg (by omega), if_pos (by omega), show b - a = (b - (a + 1)) + 1 by omega,
        List.getElem?_cons_succ]

/-- One byte after a byte was written. -/
theorem Mem.rd_wr (m : Mem) (a b : Nat) (v : Byte) : Mem.rd (m.wr a v) b = if b = a then v else Mem.rd m b :=
  Sparse.get_put zeroByte m a b v

/-- Writing a byte keeps a memory's canonical form. -/
theorem Memory.wf_wr (m : Mem) (a : Nat) (v : Byte) (h : Memory.wf m = true) : Memory.wf (m.wr a v) = true :=
  Sparse.wf_put zeroByte m a v h

end Sys2Proof.Machine
end

