-- ==== Sys2Proof/Laws/Sound00.lean ====
section
/-! SUPPORT. What operations and meanings keep, part 1 of 12: the queue of waiting commands, every parser engine as R55 and R59 have it, and the
canonical form of every byte memory (`sound`). Callees come before their callers, so a lemma cites those of the operations it unfolds to. -/


namespace Sys2Proof.Machine

/-- What every command keeps: the queue is `v`, every parser engine and every byte memory is as it should be. -/
def sound (v : List Instr) (s : State) : Prop := s.pending = v ∧ s.enginesWf ∧ s.memoriesWf

/-- `sound` of a state written out. -/
def soundParts (v a : List Instr) (i : Ingest) (e : Ext) (k : Vector Core 16) : Prop :=
  a = v ∧ (∀ x : Fin 16, (i.engines[x]).wf = true) ∧
    Memory.wf e.dram = true ∧ Memory.wf e.hyper = true ∧ ∀ x : Fin 16, Memory.wf (k[x]).pad.mem = true

theorem sound_mk {v a} {d l hp f q i c k b g sc n e p se sa po di fr} :
    sound v (State.mk d l hp f q i c k b g sc n e p se sa po di fr a) = soundParts v a i e k := rfl

theorem sound_of {v a : List Instr} {i : Ingest} {e : Ext} {k : Vector Core 16} {x : State} (e1 : a = x.pending)
    (e2 : i.engines = x.ing.engines) (e3 : e.dram = x.ext.dram) (e4 : e.hyper = x.ext.hyper) (e5 : k = x.cores) (h : sound v x) :
    soundParts v a i e k := by
  obtain ⟨h1, h2, h3, h4, h5⟩ := h
  exact ⟨e1.trans h1, by simpa [State.enginesWf, State.engine, e2] using h2, e3 ▸ h3, e4 ▸ h4, e5 ▸ h5⟩

theorem ite_keep {σ : Type} {P : σ → Prop} {c : Prop} [Decidable c] {a b : σ} (ha : P a) (hb : P b) : P (if c then a else b) := by
  split <;> assumption

theorem foldl_keep {σ β : Type} {P : σ → Prop} {f : σ → β → σ} (hf : ∀ s x, P s → P (f s x)) {l : List β} {s : σ} (h : P s) :
    P (l.foldl f s) := by
  induction l generalizing s with
  | nil => exact h
  | cons x l ih => exact ih (hf s x h)

theorem Win.store_wf (w : Win) (off : Nat) (m : Mem) (d : Bytes) (h : Memory.wf m = true) : Memory.wf (w.store off m d) = true := by
  induction d generalizing off m with
  | nil => exact h
  | cons b bs ih => exact ih _ _ (Memory.wf_wr m _ b h)

theorem Pad.write_wf (k : Pad) (w : Win) (off : Nat) (d : Bytes) (h : Memory.wf k.mem = true) : Memory.wf (k.write w off d).mem = true :=
  Win.store_wf w off k.mem d h

theorem Pad.load_wf (k : Pad) (f b m : Nat) (d : Bytes) (h : Memory.wf k.mem = true) : Memory.wf (k.load f b m d).mem = true :=
  Pad.write_wf k _ 0 d h

theorem Pad.consume_mem (k : Pad) (w : Win) (off n : Nat) : (k.consume w off n).mem = k.mem := by unfold Pad.consume; split <;> rfl

theorem Pad.queueTest_mem (k : Pad) (key : Nat) : (k.queueTest key).mem = k.mem := by unfold Pad.queueTest; split <;> rfl

theorem Pad.wipe_wf (k : Pad) (x : Win) (h : Memory.wf k.mem = true) : Memory.wf (k.wipe x).mem = true := Sparse.wf_filter zeroByte _ k.mem h

theorem Pad.close_wf (k : Pad) (p w : Nat) (h : Memory.wf k.mem = true) : Memory.wf (k.close p w).mem = true := by
  unfold Pad.close; dsimp only
  split
  · exact h
  · split
    · exact Pad.wipe_wf k _ h
    · exact h

theorem Pad.closeAll_wf (k : Pad) (h : Memory.wf k.mem = true) : Memory.wf k.closeAll.mem = true :=
  foldl_keep (P := fun k : Pad => Memory.wf k.mem = true) (fun k i hk => Pad.close_wf k (i / 8) (i % 8) hk) h

theorem Pad.closeConfidential_wf (k : Pad) (h : Memory.wf k.mem = true) : Memory.wf k.closeConfidential.mem = true :=
  foldl_keep (P := fun k : Pad => Memory.wf k.mem = true) (fun k i hk => by
    split
    · exact Pad.close_wf k (i / 8) (i % 8) hk
    · exact hk) h

theorem Pad.restoreWins_wf (k : Pad) (p : Nat) (b : Bytes) (h : Memory.wf k.mem = true) : Memory.wf (k.restoreWins p b).mem = true := by
  unfold Pad.restoreWins
  refine foldl_keep (P := fun k : Pad => Memory.wf k.mem = true) (fun k w hk => ?_) h
  dsimp only
  repeat' split
  all_goals exact hk

theorem Pad.rowDead_mem (k : Pad) (key : Nat) : (k.rowDead key).mem = k.mem := by unfold Pad.rowDead; split <;> rfl

theorem State.modCore_soundMem {v s c f} (hf : ∀ k : Core, Memory.wf k.pad.mem = true → Memory.wf (f k).pad.mem = true) (h : sound v s) :
    sound v (State.modCore s c f) := by
  obtain ⟨h1, h2, h3, h4, h5⟩ := h
  refine ⟨h1, h2, h3, h4, fun x => ?_⟩
  by_cases hx : x = c
  · subst hx; simpa [State.modCore] using hf _ (h5 x)
  · have : (c : Nat) ≠ x := fun e => hx (Fin.ext e.symm)
    simpa [State.modCore, Vector.getElem_set, this] using h5 x

theorem State.modCore_sound {v s c f} (hf : ∀ k : Core, (f k).pad.mem = k.pad.mem) (h : sound v s) : sound v (State.modCore s c f) :=
  State.modCore_soundMem (fun k hk => by rw [hf]; exact hk) h

theorem State.modPad_soundMem {v s c f} (hf : ∀ k : Pad, Memory.wf k.mem = true → Memory.wf (f k).mem = true) (h : sound v s) :
    sound v (State.modPad s c f) := State.modCore_soundMem (fun k hk => hf k.pad hk) h

theorem State.modPad_sound {v s c f} (hf : ∀ k : Pad, (f k).mem = k.mem) (h : sound v s) : sound v (State.modPad s c f) :=
  State.modCore_sound (fun k => hf k.pad) h

theorem State.modExt_sound {v s f} (hd : ∀ x : Ext, (f x).dram = x.dram) (hh : ∀ x : Ext, (f x).hyper = x.hyper) (h : sound v s) :
    sound v (State.modExt s f) := by
  obtain ⟨h1, h2, h3, h4, h5⟩ := h
  exact ⟨h1, h2, by simpa [State.modExt, hd] using h3, by simpa [State.modExt, hh] using h4, h5⟩

theorem State.modExt_soundMem {v s f} (hf : ∀ x : Ext, Memory.wf x.dram = true → Memory.wf x.hyper = true →
    Memory.wf (f x).dram = true ∧ Memory.wf (f x).hyper = true) (h : sound v s) : sound v (State.modExt s f) := by
  obtain ⟨h1, h2, h3, h4, h5⟩ := h
  exact ⟨h1, h2, (hf _ h3 h4).1, (hf _ h3 h4).2, h5⟩

theorem State.modEngine_sound {v s e f} (hf : ∀ x : Engine, x.wf = true → (f x).wf = true) (h : sound v s) :
    sound v (State.modEngine s e f) := by
  obtain ⟨h1, h2, h3⟩ := h
  refine ⟨h1, fun x => ?_, h3⟩
  by_cases hx : x = e
  · subst hx; simpa [State.modEngine, State.engine] using hf _ (h2 x)
  · have : (e : Nat) ≠ x := fun h => hx (Fin.ext h.symm)
    simpa [State.modEngine, State.engine, Vector.getElem_set, this] using h2 x

theorem sound_fst {β : Type} {v s} {y : β} (h : sound v s) : sound v (s, y).1 := h

theorem foldl_fst {β γ : Type} {P : State → Prop} {f : State × γ → β → State × γ} (hf : ∀ a x, P a.1 → P (f a x).1) {l : List β} {a : State × γ}
    (h : P a.1) : P (l.foldl f a).1 := by
  induction l generalizing a with
  | nil => exact h
  | cons x l ih => exact ih (hf a x h)

theorem Memory.wf_nil : Memory.wf [] = true := rfl

theorem Pad.consume_wf (k : Pad) (w : Win) (off n : Nat) (h : Memory.wf k.mem = true) : Memory.wf (k.consume w off n).mem = true := by
  rw [Pad.consume_mem]; exact h

theorem State.modEngine_soundAt {v s e f} (hf : (f (s.engine e)).wf = true) (h : sound v s) : sound v (State.modEngine s e f) := by
  obtain ⟨h1, h2, h3⟩ := h
  refine ⟨h1, fun x => ?_, h3⟩
  by_cases hx : x = e
  · subst hx; simpa [State.modEngine, State.engine] using hf
  · have : (e : Nat) ≠ x := fun h => hx (Fin.ext h.symm)
    simpa [State.modEngine, State.engine, Vector.getElem_set, this] using h2 x

theorem sound_engine {v s} (h : sound v s) (e : Fin 16) : (s.engine e).wf = true := h.2.1 e


theorem State.raiseOne_sound {v} (s : State) (a1) (a2) (a3) (a4) (h : sound v s) : sound v (State.raiseOne s a1 a2 a3 a4) := by
  unfold State.raiseOne; try dsimp only
  repeat' (first | with_reducible assumption | with_reducible refine ite_keep (P := sound _) ?_ ?_ | with_reducible refine foldl_keep (P := sound _) (fun _ _ _ => ?_) ?_ | with_reducible refine foldl_fst (P := sound _) (fun _ _ _ => ?_) ?_ | with_reducible refine Pad.restoreWins_wf _ _ _ ?_ | with_reducible refine (Pad.rowDead_mem _ _).symm ▸ ?_ | split | dsimp only | fail_if_no_progress (rw [sound_mk]; refine sound_of rfl rfl rfl rfl rfl ?_))

theorem State.setObj_sound {v} (s : State) (a1) (a2) (h : sound v s) : sound v (State.setObj s a1 a2) := by
  unfold State.setObj; try dsimp only
  repeat' (first | with_reducible assumption | with_reducible refine ite_keep (P := sound _) ?_ ?_ | with_reducible refine foldl_keep (P := sound _) (fun _ _ _ => ?_) ?_ | with_reducible refine foldl_fst (P := sound _) (fun _ _ _ => ?_) ?_ | with_reducible refine Pad.restoreWins_wf _ _ _ ?_ | with_reducible refine (Pad.rowDead_mem _ _).symm ▸ ?_ | split | dsimp only | fail_if_no_progress (rw [sound_mk]; refine sound_of rfl rfl rfl rfl rfl ?_))

theorem State.setNum_sound {v} (s : State) (a1) (a2) (h : sound v s) : sound v (State.setNum s a1 a2) := by
  unfold State.setNum; try dsimp only
  repeat' (first | with_reducible assumption | with_reducible refine ite_keep (P := sound _) ?_ ?_ | with_reducible refine State.setObj_sound _ _ _ ?_)

theorem State.bump_sound {v} (s : State) (a1) (a2) (h : sound v s) : sound v (State.bump s a1 a2) := by
  unfold State.bump; try dsimp only
  repeat' (first | with_reducible assumption | with_reducible refine ite_keep (P := sound _) ?_ ?_ | with_reducible refine State.setNum_sound _ _ _ ?_)

theorem State.raise_sound {v} (s : State) (a1) (a2) (a3) (a4) (h : sound v s) : sound v (State.raise s a1 a2 a3 a4) := by
  unfold State.raise; try dsimp only
  repeat' (first | with_reducible assumption | with_reducible refine ite_keep (P := sound _) ?_ ?_ | with_reducible refine State.raiseOne_sound _ _ _ _ _ ?_ | with_reducible refine State.bump_sound _ _ _ ?_ | with_reducible refine foldl_keep (P := sound _) (fun _ _ _ => ?_) ?_ | with_reducible refine foldl_fst (P := sound _) (fun _ _ _ => ?_) ?_ | with_reducible refine Pad.restoreWins_wf _ _ _ ?_ | with_reducible refine (Pad.rowDead_mem _ _).symm ▸ ?_ | split | dsimp only | fail_if_no_progress (rw [sound_mk]; refine sound_of rfl rfl rfl rfl rfl ?_))

theorem State.abandon_sound {v} (s : State) (h : sound v s) : sound v (State.abandon s) := by
  unfold State.abandon; try dsimp only
  repeat' (first | with_reducible assumption | with_reducible refine ite_keep (P := sound _) ?_ ?_ | with_reducible refine State.raise_sound _ _ _ _ _ ?_ | with_reducible refine State.setNum_sound _ _ _ ?_)

theorem State.raiseIng_sound {v} (s : State) (a1) (a2) (a3) (a4) (h : sound v s) : sound v (State.raiseIng s a1 a2 a3 a4) := by
  unfold State.raiseIng; try dsimp only
  repeat' (first | with_reducible assumption | with_reducible refine ite_keep (P := sound _) ?_ ?_ | with_reducible refine State.raise_sound _ _ _ _ _ ?_ | with_reducible refine foldl_keep (P := sound _) (fun _ _ _ => ?_) ?_ | with_reducible refine foldl_fst (P := sound _) (fun _ _ _ => ?_) ?_ | with_reducible refine Pad.restoreWins_wf _ _ _ ?_ | with_reducible refine (Pad.rowDead_mem _ _).symm ▸ ?_ | split | dsimp only | fail_if_no_progress (rw [sound_mk]; refine sound_of rfl rfl rfl rfl rfl ?_))

theorem State.countRaise_sound {v} (s : State) (a1) (a2) (a3) (a4) (h : sound v s) : sound v (State.countRaise s a1 a2 a3 a4) := by
  unfold State.countRaise; try dsimp only
  repeat' (first | with_reducible assumption | with_reducible refine ite_keep (P := sound _) ?_ ?_ | with_reducible refine State.bump_sound _ _ _ ?_ | with_reducible refine State.raise_sound _ _ _ _ _ ?_)

theorem State.accFault_sound {v} (s : State) (a1) (a2) (a3) (h : sound v s) : sound v (State.accFault s a1 a2 a3) := by
  unfold State.accFault; try dsimp only
  repeat' (first | with_reducible assumption | with_reducible refine ite_keep (P := sound _) ?_ ?_ | with_reducible refine State.raiseIng_sound _ _ _ _ _ ?_ | with_reducible refine State.bump_sound _ _ _ ?_ | with_reducible refine State.countRaise_sound _ _ _ _ _ ?_ | with_reducible refine foldl_keep (P := sound _) (fun _ _ _ => ?_) ?_ | with_reducible refine foldl_fst (P := sound _) (fun _ _ _ => ?_) ?_ | with_reducible refine Pad.restoreWins_wf _ _ _ ?_ | with_reducible refine (Pad.rowDead_mem _ _).symm ▸ ?_ | split)

theorem State.modTable_sound {v} (s : State) (a1) (a2) (h : sound v s) : sound v (State.modTable s a1 a2) := by
  unfold State.modTable; try dsimp only
  repeat' (first | with_reducible assumption | with_reducible refine ite_keep (P := sound _) ?_ ?_ | with_reducible refine foldl_keep (P := sound _) (fun _ _ _ => ?_) ?_ | with_reducible refine foldl_fst (P := sound _) (fun _ _ _ => ?_) ?_ | with_reducible refine Pad.restoreWins_wf _ _ _ ?_ | with_reducible refine (Pad.rowDead_mem _ _).symm ▸ ?_ | split | dsimp only | fail_if_no_progress (rw [sound_mk]; refine sound_of rfl rfl rfl rfl rfl ?_))

theorem State.accFor_sound {v} (s : State) (a1) (a2) (a3) (a4) (a5) (h : sound v s) : sound v (State.accFor s a1 a2 a3 a4 a5).1 := by
  unfold State.accFor; try dsimp only
  repeat' (first | with_reducible assumption | with_reducible refine ite_keep (P := sound _) ?_ ?_ | with_reducible refine State.modTable_sound _ _ _ ?_ | with_reducible refine foldl_keep (P := sound _) (fun _ _ _ => ?_) ?_ | with_reducible refine foldl_fst (P := sound _) (fun _ _ _ => ?_) ?_ | with_reducible refine Pad.restoreWins_wf _ _ _ ?_ | with_reducible refine (Pad.rowDead_mem _ _).symm ▸ ?_ | split)
theorem State.accFor_sound_eq {v} {s : State} {a1} {a2} {a3} {a4} {a5} {t} {y} (e : State.accFor s a1 a2 a3 a4 a5 = (t, y)) (h : sound v s) : sound v t := by
  have := State.accFor_sound s a1 a2 a3 a4 a5 h; rwa [e] at this

theorem State.modSched_sound {v} (s : State) (a1) (h : sound v s) : sound v (State.modSched s a1) := by
  unfold State.modSched; try dsimp only
  repeat' (first | with_reducible assumption | with_reducible refine ite_keep (P := sound _) ?_ ?_ | with_reducible refine foldl_keep (P := sound _) (fun _ _ _ => ?_) ?_ | with_reducible refine foldl_fst (P := sound _) (fun _ _ _ => ?_) ?_ | with_reducible refine Pad.restoreWins_wf _ _ _ ?_ | with_reducible refine (Pad.rowDead_mem _ _).symm ▸ ?_ | split | dsimp only | fail_if_no_progress (rw [sound_mk]; refine sound_of rfl rfl rfl rfl rfl ?_))

theorem State.acceptSchedule_sound {v} (s : State) (a1) (a2) (h : sound v s) : sound v (State.acceptSchedule s a1 a2) := by
  unfold State.acceptSchedule; try dsimp only
  repeat' (first | with_reducible assumption | with_reducible refine ite_keep (P := sound _) ?_ ?_ | with_reducible refine State.modSched_sound _ _ ?_)

theorem State.acceptParts_sound {v} (s : State) (a1) (a2) (h : sound v s) : sound v (State.acceptParts s a1 a2) := by
  unfold State.acceptParts; try dsimp only
  repeat' (first | with_reducible assumption | with_reducible refine ite_keep (P := sound _) ?_ ?_ | with_reducible refine State.acceptSchedule_sound _ _ _ ?_ | with_reducible refine foldl_keep (P := sound _) (fun _ _ _ => ?_) ?_ | with_reducible refine foldl_fst (P := sound _) (fun _ _ _ => ?_) ?_ | with_reducible refine Pad.restoreWins_wf _ _ _ ?_ | with_reducible refine (Pad.rowDead_mem _ _).symm ▸ ?_ | split)

theorem State.modNet_sound {v} (s : State) (a1) (h : sound v s) : sound v (State.modNet s a1) := by
  unfold State.modNet; try dsimp only
  repeat' (first | with_reducible assumption | with_reducible refine ite_keep (P := sound _) ?_ ?_ | with_reducible refine foldl_keep (P := sound _) (fun _ _ _ => ?_) ?_ | with_reducible refine foldl_fst (P := sound _) (fun _ _ _ => ?_) ?_ | with_reducible refine Pad.restoreWins_wf _ _ _ ?_ | with_reducible refine (Pad.rowDead_mem _ _).symm ▸ ?_ | split | dsimp only | fail_if_no_progress (rw [sound_mk]; refine sound_of rfl rfl rfl rfl rfl ?_))

theorem State.modHost_sound {v} (s : State) (a1) (a2) (h : sound v s) : sound v (State.modHost s a1 a2) := by
  unfold State.modHost; try dsimp only
  repeat' (first | with_reducible assumption | with_reducible refine ite_keep (P := sound _) ?_ ?_ | with_reducible refine State.modNet_sound _ _ ?_)

theorem State.credits_sound {v} (s : State) (a1) (a2) (a3) (h : sound v s) : sound v (State.credits s a1 a2 a3) := by
  unfold State.credits; try dsimp only
  repeat' (first | with_reducible assumption | with_reducible refine ite_keep (P := sound _) ?_ ?_ | with_reducible refine State.modHost_sound _ _ _ ?_)

theorem State.accrue_sound {v} (s : State) (a1) (a2) (h : sound v s) : sound v (State.accrue s a1 a2) := by
  unfold State.accrue; try dsimp only
  repeat' (first | with_reducible assumption | with_reducible refine ite_keep (P := sound _) ?_ ?_ | with_reducible refine State.credits_sound _ _ _ _ ?_)

theorem State.drawn_sound {v} (s : State) (h : sound v s) : sound v (State.drawn s) := by
  unfold State.drawn; try dsimp only
  repeat' (first | with_reducible assumption | with_reducible refine ite_keep (P := sound _) ?_ ?_ | with_reducible refine foldl_keep (P := sound _) (fun _ _ _ => ?_) ?_ | with_reducible refine foldl_fst (P := sound _) (fun _ _ _ => ?_) ?_ | with_reducible refine Pad.restoreWins_wf _ _ _ ?_ | with_reducible refine (Pad.rowDead_mem _ _).symm ▸ ?_ | split | dsimp only | fail_if_no_progress (rw [sound_mk]; refine sound_of rfl rfl rfl rfl rfl ?_))

theorem State.noteRun_sound {v} (s : State) (a1) (h : sound v s) : sound v (State.noteRun s a1) := by
  unfold State.noteRun; try dsimp only
  repeat' (first | with_reducible assumption | with_reducible refine ite_keep (P := sound _) ?_ ?_ | with_reducible refine State.drawn_sound _ ?_ | with_reducible refine State.setNum_sound _ _ _ ?_)

theorem State.takeOff_sound {v} (s : State) (a1) (h : sound v s) : sound v (State.takeOff s a1) := by
  unfold State.takeOff; try dsimp only
  repeat' (first | with_reducible assumption | with_reducible refine ite_keep (P := sound _) ?_ ?_ | with_reducible refine State.noteRun_sound _ _ ?_ | with_reducible refine State.modCore_sound (fun _ => rfl) ?_ | with_reducible refine State.modCore_soundMem (fun _ hm => ?_) ?_ | with_reducible refine State.modSched_sound _ _ ?_ | with_reducible refine foldl_keep (P := sound _) (fun _ _ _ => ?_) ?_ | with_reducible refine foldl_fst (P := sound _) (fun _ _ _ => ?_) ?_ | with_reducible refine Pad.restoreWins_wf _ _ _ ?_ | with_reducible refine (Pad.rowDead_mem _ _).symm ▸ ?_ | split)

theorem State.recordExc_sound {v} (s : State) (a1) (a2) (a3) (a4) (a5) (h : sound v s) : sound v (State.recordExc s a1 a2 a3 a4 a5) := by
  unfold State.recordExc; try dsimp only
  repeat' (first | with_reducible assumption | with_reducible refine ite_keep (P := sound _) ?_ ?_ | with_reducible refine State.setNum_sound _ _ _ ?_ | with_reducible refine State.countRaise_sound _ _ _ _ _ ?_)

theorem State.modInst_sound {v} (s : State) (a1) (a2) (a3) (h : sound v s) : sound v (State.modInst s a1 a2 a3) := by
  unfold State.modInst; try dsimp only
  repeat' (first | with_reducible assumption | with_reducible refine ite_keep (P := sound _) ?_ ?_ | with_reducible refine State.modSched_sound _ _ ?_)

theorem State.peonyEnd_sound {v} (s : State) (a1) (a2) (h : sound v s) : sound v (State.peonyEnd s a1 a2) := by
  unfold State.peonyEnd; try dsimp only
  repeat' (first | with_reducible assumption | with_reducible refine ite_keep (P := sound _) ?_ ?_ | with_reducible refine foldl_keep (P := sound _) (fun _ _ _ => ?_) ?_ | with_reducible refine foldl_fst (P := sound _) (fun _ _ _ => ?_) ?_ | with_reducible refine Pad.restoreWins_wf _ _ _ ?_ | with_reducible refine (Pad.rowDead_mem _ _).symm ▸ ?_ | split | dsimp only | fail_if_no_progress (rw [sound_mk]; refine sound_of rfl rfl rfl rfl rfl ?_))

theorem State.modComp_sound {v} (s : State) (a1) (h : sound v s) : sound v (State.modComp s a1) := by
  unfold State.modComp; try dsimp only
  repeat' (first | with_reducible assumption | with_reducible refine ite_keep (P := sound _) ?_ ?_ | with_reducible refine foldl_keep (P := sound _) (fun _ _ _ => ?_) ?_ | with_reducible refine foldl_fst (P := sound _) (fun _ _ _ => ?_) ?_ | with_reducible refine Pad.restoreWins_wf _ _ _ ?_ | with_reducible refine (Pad.rowDead_mem _ _).symm ▸ ?_ | split | dsimp only | fail_if_no_progress (rw [sound_mk]; refine sound_of rfl rfl rfl rfl rfl ?_))

theorem State.causeComp_sound {v} (s : State) (a1) (a2) (h : sound v s) : sound v (State.causeComp s a1 a2) := by
  unfold State.causeComp; try dsimp only
  repeat' (first | with_reducible assumption | with_reducible refine ite_keep (P := sound _) ?_ ?_ | with_reducible refine State.modComp_sound _ _ ?_)

theorem State.lose_sound {v} (s : State) (a1) (a2) (h : sound v s) : sound v (State.lose s a1 a2).1 := by
  unfold State.lose; try dsimp only
  repeat' (first | with_reducible assumption | with_reducible refine ite_keep (P := sound _) ?_ ?_ | with_reducible refine State.peonyEnd_sound _ _ _ ?_ | with_reducible refine State.modInst_sound _ _ _ _ ?_ | with_reducible refine State.bump_sound _ _ _ ?_ | with_reducible refine State.causeComp_sound _ _ _ ?_ | with_reducible refine State.modComp_sound _ _ ?_ | with_reducible refine State.raise_sound _ _ _ _ _ ?_ | with_reducible refine State.takeOff_sound _ _ ?_ | with_reducible refine foldl_keep (P := sound _) (fun _ _ _ => ?_) ?_ | with_reducible refine foldl_fst (P := sound _) (fun _ _ _ => ?_) ?_ | with_reducible refine Pad.restoreWins_wf _ _ _ ?_ | with_reducible refine (Pad.rowDead_mem _ _).symm ▸ ?_ | split)
theorem State.lose_sound_eq {v} {s : State} {a1} {a2} {t} {y} (e : State.lose s a1 a2 = (t, y)) (h : sound v s) : sound v t := by
  have := State.lose_sound s a1 a2 h; rwa [e] at this

theorem State.endTogether_sound {v} (s : State) (a1) (h : sound v s) : sound v (State.endTogether s a1) := by
  unfold State.endTogether; try dsimp only
  repeat' (first | with_reducible assumption | with_reducible refine ite_keep (P := sound _) ?_ ?_ | with_reducible refine State.takeOff_sound _ _ ?_ | with_reducible refine State.recordExc_sound _ _ _ _ _ _ ?_ | with_reducible refine State.modInst_sound _ _ _ _ ?_ | with_reducible refine State.lose_sound _ _ _ ?_ | with_reducible refine State.lose_sound_eq (by assumption) ?_ | with_reducible refine foldl_keep (P := sound _) (fun _ _ _ => ?_) ?_)

theorem State.endEvery_sound {v} (s : State) (h : sound v s) : sound v (State.endEvery s) := by
  unfold State.endEvery; try dsimp only
  repeat' (first | with_reducible assumption | with_reducible refine ite_keep (P := sound _) ?_ ?_ | with_reducible refine State.endTogether_sound _ _ ?_)

theorem State.loseAll_sound {v} (s : State) (h : sound v s) : sound v (State.loseAll s) := by
  unfold State.loseAll; try dsimp only
  repeat' (first | with_reducible assumption | with_reducible refine ite_keep (P := sound _) ?_ ?_ | with_reducible refine State.endEvery_sound _ ?_ | with_reducible refine State.lose_sound _ _ _ ?_ | with_reducible refine State.lose_sound_eq (by assumption) ?_ | with_reducible refine foldl_keep (P := sound _) (fun _ _ _ => ?_) ?_)

theorem State.setMask_sound {v} (s : State) (a1) (a2) (h : sound v s) : sound v (State.setMask s a1 a2) := by
  unfold State.setMask; try dsimp only
  repeat' (first | with_reducible assumption | with_reducible refine ite_keep (P := sound _) ?_ ?_ | with_reducible refine State.setNum_sound _ _ _ ?_)

theorem State.showSafety_sound {v} (s : State) (h : sound v s) : sound v (State.showSafety s) := by
  unfold State.showSafety; try dsimp only
  repeat' (first | with_reducible assumption | with_reducible refine ite_keep (P := sound _) ?_ ?_ | with_reducible refine State.setNum_sound _ _ _ ?_ | with_reducible refine State.raise_sound _ _ _ _ _ ?_)

theorem State.enterSafe_sound {v} (s : State) (a1) (h : sound v s) : sound v (State.enterSafe s a1) := by
  unfold State.enterSafe; try dsimp only
  repeat' (first | with_reducible assumption | with_reducible refine ite_keep (P := sound _) ?_ ?_ | with_reducible refine State.setMask_sound _ _ _ ?_ | with_reducible refine State.modSched_sound _ _ ?_ | with_reducible refine State.endEvery_sound _ ?_ | with_reducible refine State.showSafety_sound _ ?_ | with_reducible refine State.raise_sound _ _ _ _ _ ?_)

theorem State.enterFallback_sound {v} (s : State) (a1) (h : sound v s) : sound v (State.enterFallback s a1) := by
  unfold State.enterFallback; try dsimp only
  repeat' (first | with_reducible assumption | with_reducible refine ite_keep (P := sound _) ?_ ?_ | with_reducible refine State.setMask_sound _ _ _ ?_ | with_reducible refine State.raise_sound _ _ _ _ _ ?_ | with_reducible refine State.enterSafe_sound _ _ ?_ | with_reducible refine State.showSafety_sound _ ?_)

theorem State.noSchedule_sound {v} (s : State) (h : sound v s) : sound v (State.noSchedule s) := by
  unfold State.noSchedule; try dsimp only
  repeat' (first | with_reducible assumption | with_reducible refine ite_keep (P := sound _) ?_ ?_ | with_reducible refine State.loseAll_sound _ ?_ | with_reducible refine State.modSched_sound _ _ ?_ | with_reducible refine State.enterFallback_sound _ _ ?_)

theorem State.touchRow_sound {v} (s : State) (a1) (h : sound v s) : sound v (State.touchRow s a1) := by
  unfold State.touchRow; try dsimp only
  repeat' (first | with_reducible assumption | with_reducible refine ite_keep (P := sound _) ?_ ?_ | with_reducible refine State.modExt_sound (fun _ => rfl) (fun _ => rfl) ?_)

theorem State.store_sound {v} (s : State) (a1) (a2) (h : sound v s) : sound v (State.store s a1 a2) := by
  unfold State.store; try dsimp only
  repeat' (first | with_reducible assumption | with_reducible refine ite_keep (P := sound _) ?_ ?_ | with_reducible refine foldl_keep (P := sound _) (fun _ _ _ => ?_) ?_ | with_reducible refine foldl_fst (P := sound _) (fun _ _ _ => ?_) ?_ | with_reducible refine Pad.restoreWins_wf _ _ _ ?_ | with_reducible refine (Pad.rowDead_mem _ _).symm ▸ ?_ | split | dsimp only | fail_if_no_progress (rw [sound_mk]; refine sound_of rfl rfl rfl rfl rfl ?_))

theorem State.modSafety_sound {v} (s : State) (a1) (h : sound v s) : sound v (State.modSafety s a1) := by
  unfold State.modSafety; try dsimp only
  repeat' (first | with_reducible assumption | with_reducible refine ite_keep (P := sound _) ?_ ?_ | with_reducible refine foldl_keep (P := sound _) (fun _ _ _ => ?_) ?_ | with_reducible refine foldl_fst (P := sound _) (fun _ _ _ => ?_) ?_ | with_reducible refine Pad.restoreWins_wf _ _ _ ?_ | with_reducible refine (Pad.rowDead_mem _ _).symm ▸ ?_ | split | dsimp only | fail_if_no_progress (rw [sound_mk]; refine sound_of rfl rfl rfl rfl rfl ?_))

theorem State.failController_sound {v} (s : State) (a1) (h : sound v s) : sound v (State.failController s a1) := by
  unfold State.failController; try dsimp only
  repeat' (first | with_reducible assumption | with_reducible refine ite_keep (P := sound _) ?_ ?_ | with_reducible refine State.modExt_sound (fun _ => rfl) (fun _ => rfl) ?_ | with_reducible refine State.setNum_sound _ _ _ ?_ | with_reducible refine State.store_sound _ _ _ ?_ | with_reducible refine State.raise_sound _ _ _ _ _ ?_ | with_reducible refine State.showSafety_sound _ ?_ | with_reducible refine State.modSafety_sound _ _ ?_)

theorem State.dramUe_sound {v} (s : State) (a1) (h : sound v s) : sound v (State.dramUe s a1) := by
  unfold State.dramUe; try dsimp only
  repeat' (first | with_reducible assumption | with_reducible refine ite_keep (P := sound _) ?_ ?_ | with_reducible refine State.setNum_sound _ _ _ ?_ | with_reducible refine State.bump_sound _ _ _ ?_ | with_reducible refine State.raiseIng_sound _ _ _ _ _ ?_ | with_reducible refine State.modExt_sound (fun _ => rfl) (fun _ => rfl) ?_ | with_reducible refine State.failController_sound _ _ ?_)

theorem State.dramGet_sound {v} (s : State) (a1) (a2) (a3) (h : sound v s) : sound v (State.dramGet s a1 a2 a3).1 := by
  unfold State.dramGet; try dsimp only
  repeat' (first | with_reducible assumption | with_reducible refine ite_keep (P := sound _) ?_ ?_ | with_reducible refine State.touchRow_sound _ _ ?_ | with_reducible refine State.dramUe_sound _ _ ?_ | with_reducible refine State.modExt_sound (fun _ => rfl) (fun _ => rfl) ?_ | with_reducible refine State.bump_sound _ _ _ ?_ | with_reducible refine foldl_keep (P := sound _) (fun _ _ _ => ?_) ?_ | with_reducible refine foldl_fst (P := sound _) (fun _ _ _ => ?_) ?_ | with_reducible refine Pad.restoreWins_wf _ _ _ ?_ | with_reducible refine (Pad.rowDead_mem _ _).symm ▸ ?_ | split)
theorem State.dramGet_sound_eq {v} {s : State} {a1} {a2} {a3} {t} {y} (e : State.dramGet s a1 a2 a3 = (t, y)) (h : sound v s) : sound v t := by
  have := State.dramGet_sound s a1 a2 a3 h; rwa [e] at this

theorem State.damage_sound {v} (s : State) (a1) (h : sound v s) : sound v (State.damage s a1) := by
  unfold State.damage; try dsimp only
  repeat' (first | with_reducible assumption | with_reducible refine ite_keep (P := sound _) ?_ ?_ | with_reducible refine State.raise_sound _ _ _ _ _ ?_ | with_reducible refine foldl_keep (P := sound _) (fun _ _ _ => ?_) ?_ | with_reducible refine foldl_fst (P := sound _) (fun _ _ _ => ?_) ?_ | with_reducible refine Pad.restoreWins_wf _ _ _ ?_ | with_reducible refine (Pad.rowDead_mem _ _).symm ▸ ?_ | split | dsimp only | fail_if_no_progress (rw [sound_mk]; refine sound_of rfl rfl rfl rfl rfl ?_))

theorem State.fromLibrary_sound {v} (s : State) (a1) (h : sound v s) : sound v (State.fromLibrary s a1).1 := by
  unfold State.fromLibrary; try dsimp only
  repeat' (first | with_reducible assumption | with_reducible refine ite_keep (P := sound _) ?_ ?_ | with_reducible refine State.dramGet_sound _ _ _ _ ?_ | with_reducible refine State.dramGet_sound_eq (by assumption) ?_ | with_reducible refine State.damage_sound _ _ ?_ | with_reducible refine foldl_keep (P := sound _) (fun _ _ _ => ?_) ?_ | with_reducible refine foldl_fst (P := sound _) (fun _ _ _ => ?_) ?_ | with_reducible refine Pad.restoreWins_wf _ _ _ ?_ | with_reducible refine (Pad.rowDead_mem _ _).symm ▸ ?_ | split)
theorem State.fromLibrary_sound_eq {v} {s : State} {a1} {t} {y} (e : State.fromLibrary s a1 = (t, y)) (h : sound v s) : sound v t := by
  have := State.fromLibrary_sound s a1 h; rwa [e] at this

theorem State.readModel_sound {v} (s : State) (h : sound v s) : sound v (State.readModel s).1 := by
  unfold State.readModel; try dsimp only
  repeat' (first | with_reducible assumption | with_reducible refine ite_keep (P := sound _) ?_ ?_ | with_reducible refine State.noSchedule_sound _ ?_ | with_reducible refine State.fromLibrary_sound _ _ ?_ | with_reducible refine State.fromLibrary_sound_eq (by assumption) ?_ | with_reducible refine foldl_keep (P := sound _) (fun _ _ _ => ?_) ?_ | with_reducible refine foldl_fst (P := sound _) (fun _ _ _ => ?_) ?_ | with_reducible refine Pad.restoreWins_wf _ _ _ ?_ | with_reducible refine (Pad.rowDead_mem _ _).symm ▸ ?_ | split)
theorem State.readModel_sound_eq {v} {s : State} {t} {y} (e : State.readModel s = (t, y)) (h : sound v s) : sound v t := by
  have := State.readModel_sound s h; rwa [e] at this

theorem State.copyPrograms_sound {v} (s : State) (a1) (h : sound v s) : sound v (State.copyPrograms s a1) := by
  unfold State.copyPrograms; try dsimp only
  repeat' (first | with_reducible assumption | with_reducible refine ite_keep (P := sound _) ?_ ?_ | with_reducible refine State.readModel_sound _ ?_ | with_reducible refine State.readModel_sound_eq (by assumption) ?_ | with_reducible refine State.modPad_soundMem (fun _ hm => Pad.closeAll_wf _ hm) ?_ | with_reducible refine State.modPad_soundMem (fun _ hm => Pad.close_wf _ _ _ hm) ?_ | with_reducible refine State.modPad_soundMem (fun _ hm => Pad.load_wf _ _ _ _ _ hm) ?_ | with_reducible refine State.modPad_soundMem (fun _ hm => Pad.write_wf _ _ _ _ hm) ?_ | with_reducible refine State.modPad_soundMem (fun _ hm => Pad.closeConfidential_wf _ hm) ?_ | with_reducible refine State.modPad_sound (fun _ => rfl) ?_ | with_reducible refine State.modPad_soundMem (fun _ hm => ?_) ?_ | with_reducible refine foldl_keep (P := sound _) (fun _ _ _ => ?_) ?_ | with_reducible refine foldl_fst (P := sound _) (fun _ _ _ => ?_) ?_ | with_reducible refine Pad.restoreWins_wf _ _ _ ?_ | with_reducible refine (Pad.rowDead_mem _ _).symm ▸ ?_ | split)

theorem State.showPlan_sound {v} (s : State) (h : sound v s) : sound v (State.showPlan s) := by
  unfold State.showPlan; try dsimp only
  repeat' (first | with_reducible assumption | with_reducible refine ite_keep (P := sound _) ?_ ?_ | with_reducible refine State.setNum_sound _ _ _ ?_ | with_reducible refine foldl_keep (P := sound _) (fun _ _ _ => ?_) ?_ | with_reducible refine foldl_fst (P := sound _) (fun _ _ _ => ?_) ?_ | with_reducible refine Pad.restoreWins_wf _ _ _ ?_ | with_reducible refine (Pad.rowDead_mem _ _).symm ▸ ?_ | split)

theorem State.setOct_sound {v} (s : State) (a1) (a2) (h : sound v s) : sound v (State.setOct s a1 a2) := by
  unfold State.setOct; try dsimp only
  repeat' (first | with_reducible assumption | with_reducible refine ite_keep (P := sound _) ?_ ?_ | with_reducible refine State.setObj_sound _ _ _ ?_)

theorem State.showSchedule_sound {v} (s : State) (a1) (h : sound v s) : sound v (State.showSchedule s a1) := by
  unfold State.showSchedule; try dsimp only
  repeat' (first | with_reducible assumption | with_reducible refine ite_keep (P := sound _) ?_ ?_ | with_reducible refine State.setNum_sound _ _ _ ?_ | with_reducible refine State.setOct_sound _ _ _ ?_ | with_reducible refine foldl_keep (P := sound _) (fun _ _ _ => ?_) ?_)

theorem State.copyContents_sound {v} (s : State) (a1) (h : sound v s) : sound v (State.copyContents s a1) := by
  unfold State.copyContents; try dsimp only
  repeat' (first | with_reducible assumption | with_reducible refine ite_keep (P := sound _) ?_ ?_ | with_reducible refine State.readModel_sound _ ?_ | with_reducible refine State.readModel_sound_eq (by assumption) ?_ | with_reducible refine State.modPad_soundMem (fun _ hm => Pad.closeAll_wf _ hm) ?_ | with_reducible refine State.modPad_soundMem (fun _ hm => Pad.close_wf _ _ _ hm) ?_ | with_reducible refine State.modPad_soundMem (fun _ hm => Pad.load_wf _ _ _ _ _ hm) ?_ | with_reducible refine State.modPad_soundMem (fun _ hm => Pad.write_wf _ _ _ _ hm) ?_ | with_reducible refine State.modPad_soundMem (fun _ hm => Pad.closeConfidential_wf _ hm) ?_ | with_reducible refine State.modPad_sound (fun _ => rfl) ?_ | with_reducible refine State.modPad_soundMem (fun _ hm => ?_) ?_ | with_reducible refine foldl_keep (P := sound _) (fun _ _ _ => ?_) ?_ | with_reducible refine foldl_fst (P := sound _) (fun _ _ _ => ?_) ?_ | with_reducible refine Pad.restoreWins_wf _ _ _ ?_ | with_reducible refine (Pad.rowDead_mem _ _).symm ▸ ?_ | split)

theorem State.declareDoubt_sound {v} (s : State) (a1) (h : sound v s) : sound v (State.declareDoubt s a1) := by
  unfold State.declareDoubt; try dsimp only
  repeat' (first | with_reducible assumption | with_reducible refine ite_keep (P := sound _) ?_ ?_ | with_reducible refine State.modSched_sound _ _ ?_ | with_reducible refine State.setNum_sound _ _ _ ?_ | with_reducible refine State.showSafety_sound _ ?_ | with_reducible refine State.raise_sound _ _ _ _ _ ?_)

theorem State.judgeDoubt_sound {v} (s : State) (h : sound v s) : sound v (State.judgeDoubt s) := by
  unfold State.judgeDoubt; try dsimp only
  repeat' (first | with_reducible assumption | with_reducible refine ite_keep (P := sound _) ?_ ?_ | with_reducible refine State.declareDoubt_sound _ _ ?_ | with_reducible refine foldl_keep (P := sound _) (fun _ _ _ => ?_) ?_ | with_reducible refine foldl_fst (P := sound _) (fun _ _ _ => ?_) ?_ | with_reducible refine Pad.restoreWins_wf _ _ _ ?_ | with_reducible refine (Pad.rowDead_mem _ _).symm ▸ ?_ | split)

theorem State.clearDoubt_sound {v} (s : State) (a1) (h : sound v s) : sound v (State.clearDoubt s a1) := by
  unfold State.clearDoubt; try dsimp only
  repeat' (first | with_reducible assumption | with_reducible refine ite_keep (P := sound _) ?_ ?_ | with_reducible refine State.modSched_sound _ _ ?_ | with_reducible refine State.showSafety_sound _ ?_ | with_reducible refine State.setNum_sound _ _ _ ?_)

theorem State.putSchedule_sound {v} (s : State) (a1) (h : sound v s) : sound v (State.putSchedule s a1) := by
  unfold State.putSchedule; try dsimp only
  repeat' (first | with_reducible assumption | with_reducible refine ite_keep (P := sound _) ?_ ?_ | with_reducible refine State.loseAll_sound _ ?_ | with_reducible refine State.modPad_soundMem (fun _ hm => Pad.closeAll_wf _ hm) ?_ | with_reducible refine State.modPad_soundMem (fun _ hm => Pad.close_wf _ _ _ hm) ?_ | with_reducible refine State.modPad_soundMem (fun _ hm => Pad.load_wf _ _ _ _ _ hm) ?_ | with_reducible refine State.modPad_soundMem (fun _ hm => Pad.write_wf _ _ _ _ hm) ?_ | with_reducible refine State.modPad_soundMem (fun _ hm => Pad.closeConfidential_wf _ hm) ?_ | with_reducible refine State.modPad_sound (fun _ => rfl) ?_ | with_reducible refine State.modPad_soundMem (fun _ hm => ?_) ?_ | with_reducible refine State.modSched_sound _ _ ?_ | with_reducible refine State.copyPrograms_sound _ _ ?_ | with_reducible refine State.showPlan_sound _ ?_ | with_reducible refine State.showSchedule_sound _ _ ?_ | with_reducible refine State.copyContents_sound _ _ ?_ | with_reducible refine State.judgeDoubt_sound _ ?_ | with_reducible refine State.clearDoubt_sound _ _ ?_ | with_reducible refine foldl_keep (P := sound _) (fun _ _ _ => ?_) ?_ | with_reducible refine foldl_fst (P := sound _) (fun _ _ _ => ?_) ?_ | with_reducible refine Pad.restoreWins_wf _ _ _ ?_ | with_reducible refine (Pad.rowDead_mem _ _).symm ▸ ?_ | split | dsimp only | fail_if_no_progress (rw [sound_mk]; refine sound_of rfl rfl rfl rfl rfl ?_))

theorem State.activateAccepted_sound {v} (s : State) (h : sound v s) : sound v (State.activateAccepted s) := by
  unfold State.activateAccepted; try dsimp only
  repeat' (first | with_reducible assumption | with_reducible refine ite_keep (P := sound _) ?_ ?_ | with_reducible refine State.putSchedule_sound _ _ ?_ | with_reducible refine foldl_keep (P := sound _) (fun _ _ _ => ?_) ?_ | with_reducible refine foldl_fst (P := sound _) (fun _ _ _ => ?_) ?_ | with_reducible refine Pad.restoreWins_wf _ _ _ ?_ | with_reducible refine (Pad.rowDead_mem _ _).symm ▸ ?_ | split)

theorem State.pGet_sound {v} (s : State) (a1) (a2) (a3) (a4) (h : sound v s) : sound v (State.pGet s a1 a2 a3 a4).1 := by
  unfold State.pGet; try dsimp only
  repeat' (first | with_reducible assumption | with_reducible refine ite_keep (P := sound _) ?_ ?_ | with_reducible refine State.dramGet_sound _ _ _ _ ?_ | with_reducible refine State.dramGet_sound_eq (by assumption) ?_ | with_reducible refine foldl_keep (P := sound _) (fun _ _ _ => ?_) ?_ | with_reducible refine foldl_fst (P := sound _) (fun _ _ _ => ?_) ?_ | with_reducible refine Pad.restoreWins_wf _ _ _ ?_ | with_reducible refine (Pad.rowDead_mem _ _).symm ▸ ?_ | split)
theorem State.pGet_sound_eq {v} {s : State} {a1} {a2} {a3} {a4} {t} {y} (e : State.pGet s a1 a2 a3 a4 = (t, y)) (h : sound v s) : sound v t := by
  have := State.pGet_sound s a1 a2 a3 a4 h; rwa [e] at this

theorem State.dramPut_sound {v} (s : State) (a1) (a2) (h : sound v s) : sound v (State.dramPut s a1 a2) := by
  unfold State.dramPut; dsimp only
  refine foldl_keep (P := sound _) (fun t l ht => ?_) (State.touchRow_sound s a1 h)
  split
  · exact State.bump_sound t _ _ ht
  · exact State.modExt_soundMem (fun x hd hh => ⟨Sparse.wf_putN zeroByte _ _ _ hd, hh⟩) ht

theorem State.pPut_sound {v} (s : State) (a1) (a2) (a3) (h : sound v s) : sound v (State.pPut s a1 a2 a3) := by
  unfold State.pPut; try dsimp only
  repeat' (first | with_reducible assumption | with_reducible refine ite_keep (P := sound _) ?_ ?_ | with_reducible refine State.dramPut_sound _ _ _ ?_ | with_reducible refine foldl_keep (P := sound _) (fun _ _ _ => ?_) ?_ | with_reducible refine foldl_fst (P := sound _) (fun _ _ _ => ?_) ?_ | with_reducible refine Pad.restoreWins_wf _ _ _ ?_ | with_reducible refine (Pad.rowDead_mem _ _).symm ▸ ?_ | split)

theorem State.addHits_sound {v} (s : State) (a1) (a2) (a3) (a4) (h : sound v s) : sound v (State.addHits s a1 a2 a3 a4) := by
  unfold State.addHits; try dsimp only
  repeat' (first | with_reducible assumption | with_reducible refine ite_keep (P := sound _) ?_ ?_ | with_reducible refine State.pGet_sound _ _ _ _ _ ?_ | with_reducible refine State.pGet_sound_eq (by assumption) ?_ | with_reducible refine State.pPut_sound _ _ _ _ ?_ | with_reducible refine foldl_keep (P := sound _) (fun _ _ _ => ?_) ?_ | with_reducible refine foldl_fst (P := sound _) (fun _ _ _ => ?_) ?_ | with_reducible refine Pad.restoreWins_wf _ _ _ ?_ | with_reducible refine (Pad.rowDead_mem _ _).symm ▸ ?_ | split)

theorem State.letIn_sound {v} (n : Nat) (s : State) (p : Fin 2) (h : sound v s) : sound v (State.letIn n s p) := by
  induction n generalizing s with
  | zero => exact h
  | succ n ih =>
    unfold State.letIn
    split
    · exact h
    · split
      · exact h
      · exact ih _ (State.modHost_sound _ _ _ h)

theorem State.modIng_sound {v} (s : State) (a1) (h : sound v s) : sound v (State.modIng s a1) := by
  unfold State.modIng; try dsimp only
  repeat' (first | with_reducible assumption | with_reducible refine ite_keep (P := sound _) ?_ ?_ | with_reducible refine foldl_keep (P := sound _) (fun _ _ _ => ?_) ?_ | with_reducible refine foldl_fst (P := sound _) (fun _ _ _ => ?_) ?_ | with_reducible refine Pad.restoreWins_wf _ _ _ ?_ | with_reducible refine (Pad.rowDead_mem _ _).symm ▸ ?_ | split | dsimp only | fail_if_no_progress (rw [sound_mk]; refine sound_of rfl rfl rfl rfl rfl ?_))

theorem State.causeIng_sound {v} (s : State) (a1) (a2) (h : sound v s) : sound v (State.causeIng s a1 a2) := by
  unfold State.causeIng; try dsimp only
  repeat' (first | with_reducible assumption | with_reducible refine ite_keep (P := sound _) ?_ ?_ | with_reducible refine State.modIng_sound _ _ ?_)

theorem State.timeCauses_sound {v} (s : State) (h : sound v s) : sound v (State.timeCauses s) := by
  unfold State.timeCauses; try dsimp only
  repeat' (first | with_reducible assumption | with_reducible refine ite_keep (P := sound _) ?_ ?_ | with_reducible refine State.causeIng_sound _ _ _ ?_)

theorem State.modTime_sound {v} (s : State) (a1) (h : sound v s) : sound v (State.modTime s a1) := by
  unfold State.modTime; try dsimp only
  repeat' (first | with_reducible assumption | with_reducible refine ite_keep (P := sound _) ?_ ?_ | with_reducible refine State.modNet_sound _ _ ?_)

theorem State.setTimeState_sound {v} (s : State) (a1) (h : sound v s) : sound v (State.setTimeState s a1) := by
  unfold State.setTimeState; try dsimp only
  repeat' (first | with_reducible assumption | with_reducible refine ite_keep (P := sound _) ?_ ?_ | with_reducible refine State.setNum_sound _ _ _ ?_ | with_reducible refine State.timeCauses_sound _ ?_ | with_reducible refine State.modTime_sound _ _ ?_)

theorem State.permit_sound {v} (s : State) (h : sound v s) : sound v (State.permit s) := by
  unfold State.permit; try dsimp only
  repeat' (first | with_reducible assumption | with_reducible refine ite_keep (P := sound _) ?_ ?_ | with_reducible refine State.modTime_sound _ _ ?_)

theorem State.afterSync_sound {v} (s : State) (a1) (h : sound v s) : sound v (State.afterSync s a1) := by
  unfold State.afterSync; try dsimp only
  repeat' (first | with_reducible assumption | with_reducible refine ite_keep (P := sound _) ?_ ?_ | with_reducible refine State.setTimeState_sound _ _ ?_ | with_reducible refine State.modTime_sound _ _ ?_ | with_reducible refine State.raise_sound _ _ _ _ _ ?_ | with_reducible refine State.permit_sound _ ?_ | with_reducible refine foldl_keep (P := sound _) (fun _ _ _ => ?_) ?_ | with_reducible refine foldl_fst (P := sound _) (fun _ _ _ => ?_) ?_ | with_reducible refine Pad.restoreWins_wf _ _ _ ?_ | with_reducible refine (Pad.rowDead_mem _ _).symm ▸ ?_ | split)

theorem State.modPoint_sound {v} (s : State) (a1) (a2) (h : sound v s) : sound v (State.modPoint s a1 a2) := by
  unfold State.modPoint; try dsimp only
  repeat' (first | with_reducible assumption | with_reducible refine ite_keep (P := sound _) ?_ ?_ | with_reducible refine State.modComp_sound _ _ ?_ | with_reducible refine State.modIng_sound _ _ ?_)

theorem State.modCells_sound {v} (s : State) (a1) (a2) (h : sound v s) : sound v (State.modCells s a1 a2) := by
  unfold State.modCells; try dsimp only
  repeat' (first | with_reducible assumption | with_reducible refine ite_keep (P := sound _) ?_ ?_ | with_reducible refine State.modPoint_sound _ _ _ ?_)

theorem State.noteStash_sound {v} (s : State) (h : sound v s) : sound v (State.noteStash s) := by
  unfold State.noteStash; try dsimp only
  repeat' (first | with_reducible assumption | with_reducible refine ite_keep (P := sound _) ?_ ?_ | with_reducible refine State.modCells_sound _ _ _ ?_ | with_reducible refine State.raiseIng_sound _ _ _ _ _ ?_)

end Sys2Proof.Machine
end

