-- ==== Sys2Proof/Laws/Sound01.lean ====
section
/-! SUPPORT. What operations and meanings keep, part 2 of 12: the queue of waiting commands, every parser engine as R55 and R59 have it, and the
canonical form of every byte memory (`sound`). Callees come before their callers, so a lemma cites those of the operations it unfolds to. -/

namespace Sys2Proof.Machine

theorem State.ageOne_sound {v} (s : State) (a1) (a2) (h : sound v s) : sound v (State.ageOne s a1 a2) := by
  unfold State.ageOne; try dsimp only
  repeat' (first | with_reducible assumption | with_reducible refine ite_keep (P := sound _) ?_ ?_ | with_reducible refine State.modCells_sound _ _ _ ?_ | with_reducible refine State.noteStash_sound _ ?_ | with_reducible refine State.raiseIng_sound _ _ _ _ _ ?_ | with_reducible refine State.causeIng_sound _ _ _ ?_ | with_reducible refine foldl_keep (P := sound _) (fun _ _ _ => ?_) ?_ | with_reducible refine foldl_fst (P := sound _) (fun _ _ _ => ?_) ?_ | with_reducible refine Pad.restoreWins_wf _ _ _ ?_ | with_reducible refine (Pad.rowDead_mem _ _).symm ▸ ?_ | split | dsimp only | fail_if_no_progress (rw [sound_mk]; refine sound_of rfl rfl rfl rfl rfl ?_))

theorem State.ageingEnd_sound {v} (s : State) (h : sound v s) : sound v (State.ageingEnd s) := by
  unfold State.ageingEnd; try dsimp only
  repeat' (first | with_reducible assumption | with_reducible refine ite_keep (P := sound _) ?_ ?_ | with_reducible refine State.raiseIng_sound _ _ _ _ _ ?_ | with_reducible refine State.causeIng_sound _ _ _ ?_ | with_reducible refine State.modCells_sound _ _ _ ?_ | with_reducible refine foldl_keep (P := sound _) (fun _ _ _ => ?_) ?_ | with_reducible refine foldl_fst (P := sound _) (fun _ _ _ => ?_) ?_ | with_reducible refine Pad.restoreWins_wf _ _ _ ?_ | with_reducible refine (Pad.rowDead_mem _ _).symm ▸ ?_ | split | dsimp only | fail_if_no_progress (rw [sound_mk]; refine sound_of rfl rfl rfl rfl rfl ?_))

theorem State.allocate_sound {v} (s : State) (a1) (a2) (a3) (a4) (a5) (h : sound v s) : sound v (State.allocate s a1 a2 a3 a4 a5).1 := by
  unfold State.allocate; try dsimp only
  repeat' (first | with_reducible assumption | with_reducible refine ite_keep (P := sound _) ?_ ?_ | with_reducible refine State.modPad_soundMem (fun _ hm => Pad.closeAll_wf _ hm) ?_ | with_reducible refine State.modPad_soundMem (fun _ hm => Pad.close_wf _ _ _ hm) ?_ | with_reducible refine State.modPad_soundMem (fun _ hm => Pad.load_wf _ _ _ _ _ hm) ?_ | with_reducible refine State.modPad_soundMem (fun _ hm => Pad.write_wf _ _ _ _ hm) ?_ | with_reducible refine State.modPad_soundMem (fun _ hm => Pad.closeConfidential_wf _ hm) ?_ | with_reducible refine State.modPad_sound (fun _ => rfl) ?_ | with_reducible refine State.modPad_soundMem (fun _ hm => ?_) ?_ | with_reducible refine State.bump_sound _ _ _ ?_ | with_reducible refine foldl_keep (P := sound _) (fun _ _ _ => ?_) ?_ | with_reducible refine foldl_fst (P := sound _) (fun _ _ _ => ?_) ?_ | with_reducible refine Pad.restoreWins_wf _ _ _ ?_ | with_reducible refine (Pad.rowDead_mem _ _).symm ▸ ?_ | split)
theorem State.allocate_sound_eq {v} {s : State} {a1} {a2} {a3} {a4} {a5} {t} {y} (e : State.allocate s a1 a2 a3 a4 a5 = (t, y)) (h : sound v s) : sound v t := by
  have := State.allocate_sound s a1 a2 a3 a4 a5 h; rwa [e] at this

theorem State.padUncorrectable_sound {v} (s : State) (c a) (h : sound v s) : sound v (State.padUncorrectable s c a) := by
  unfold State.padUncorrectable; dsimp only
  exact State.modPad_sound (fun k => Pad.queueTest_mem _ _) (State.setNum_sound _ _ _ (State.countRaise_sound _ _ _ _ _ h))

theorem State.showReplica_sound {v} (s : State) (a1) (a2) (a3) (h : sound v s) : sound v (State.showReplica s a1 a2 a3) := by
  unfold State.showReplica; try dsimp only
  repeat' (first | with_reducible assumption | with_reducible refine ite_keep (P := sound _) ?_ ?_ | with_reducible refine State.modTable_sound _ _ _ ?_ | with_reducible refine State.modPad_soundMem (fun _ hm => Pad.closeAll_wf _ hm) ?_ | with_reducible refine State.modPad_soundMem (fun _ hm => Pad.close_wf _ _ _ hm) ?_ | with_reducible refine State.modPad_soundMem (fun _ hm => Pad.load_wf _ _ _ _ _ hm) ?_ | with_reducible refine State.modPad_soundMem (fun _ hm => Pad.write_wf _ _ _ _ hm) ?_)

theorem State.loadReplicas_sound {v} (s : State) (a1) (a2) (h : sound v s) : sound v (State.loadReplicas s a1 a2) := by
  unfold State.loadReplicas; try dsimp only
  repeat' (first | with_reducible assumption | with_reducible refine ite_keep (P := sound _) ?_ ?_ | with_reducible refine State.showReplica_sound _ _ _ _ ?_ | with_reducible refine foldl_keep (P := sound _) (fun _ _ _ => ?_) ?_ | with_reducible refine foldl_fst (P := sound _) (fun _ _ _ => ?_) ?_ | with_reducible refine Pad.restoreWins_wf _ _ _ ?_ | with_reducible refine (Pad.rowDead_mem _ _).symm ▸ ?_ | split)

theorem State.resumeInst_sound {v} (s : State) (a1) (a2) (a3) (a4) (h : sound v s) : sound v (State.resumeInst s a1 a2 a3 a4).1 := by
  unfold State.resumeInst; try dsimp only
  repeat' (first | with_reducible assumption | with_reducible refine ite_keep (P := sound _) ?_ ?_ | with_reducible refine State.recordExc_sound _ _ _ _ _ _ ?_ | with_reducible refine State.padUncorrectable_sound _ _ _ ?_ | with_reducible refine State.lose_sound _ _ _ ?_ | with_reducible refine State.lose_sound_eq (by assumption) ?_ | with_reducible refine State.modInst_sound _ _ _ _ ?_ | with_reducible refine State.loadReplicas_sound _ _ _ ?_ | with_reducible refine State.modCore_sound (fun _ => rfl) ?_ | with_reducible refine State.modCore_soundMem (fun _ hm => ?_) ?_ | with_reducible refine foldl_keep (P := sound _) (fun _ _ _ => ?_) ?_ | with_reducible refine foldl_fst (P := sound _) (fun _ _ _ => ?_) ?_ | with_reducible refine Pad.restoreWins_wf _ _ _ ?_ | with_reducible refine (Pad.rowDead_mem _ _).symm ▸ ?_ | split)
theorem State.resumeInst_sound_eq {v} {s : State} {a1} {a2} {a3} {a4} {t} {y} (e : State.resumeInst s a1 a2 a3 a4 = (t, y)) (h : sound v s) : sound v t := by
  have := State.resumeInst_sound s a1 a2 a3 a4 h; rwa [e] at this

theorem State.closeOld_sound {v} (s : State) (a1) (a2) (a3) (h : sound v s) : sound v (State.closeOld s a1 a2 a3) := by
  unfold State.closeOld; try dsimp only
  repeat' (first | with_reducible assumption | with_reducible refine ite_keep (P := sound _) ?_ ?_ | with_reducible refine State.modPad_soundMem (fun _ hm => Pad.closeAll_wf _ hm) ?_ | with_reducible refine State.modPad_soundMem (fun _ hm => Pad.close_wf _ _ _ hm) ?_)

theorem State.post_sound {v} (s : State) (a1) (a2) (h : sound v s) : sound v (State.post s a1 a2) := by
  unfold State.post; try dsimp only
  repeat' (first | with_reducible assumption | with_reducible refine ite_keep (P := sound _) ?_ ?_ | with_reducible refine foldl_keep (P := sound _) (fun _ _ _ => ?_) ?_ | with_reducible refine foldl_fst (P := sound _) (fun _ _ _ => ?_) ?_ | with_reducible refine Pad.restoreWins_wf _ _ _ ?_ | with_reducible refine (Pad.rowDead_mem _ _).symm ▸ ?_ | split | dsimp only | fail_if_no_progress (rw [sound_mk]; refine sound_of rfl rfl rfl rfl rfl ?_))

theorem State.grantWin_sound {v} (s : State) (a1) (a2) (a3) (h : sound v s) : sound v (State.grantWin s a1 a2 a3) := by
  unfold State.grantWin; try dsimp only
  repeat' (first | with_reducible assumption | with_reducible refine ite_keep (P := sound _) ?_ ?_ | with_reducible refine State.post_sound _ _ _ ?_)

theorem State.openOne_sound {v} {s : State} {c p q w} {t} (e : State.openOne s c p q w = some t) (h : sound v s) : sound v t := by
  unfold State.openOne at e; dsimp only at e
  split at e
  · injection e with e; subst e; exact h
  · split at e
    · injection e with e; subst e
      exact State.grantWin_sound _ _ _ _ (State.modPad_sound (fun _ => rfl) (State.closeOld_sound _ _ _ _ h))
    · cases e

theorem State.openList_sound {v} {c p} {l} {s : State} {t} (e : State.openList c p l s = some t) (h : sound v s) : sound v t := by
  induction l generalizing s with
  | nil => unfold State.openList at e; injection e with e; subst e; exact h
  | cons x l ih =>
    unfold State.openList at e
    cases hx : s.openOne c p x.1 x.2 with
    | none => rw [hx] at e; cases e
    | some u => rw [hx] at e; exact ih e (State.openOne_sound hx h)

theorem State.openNamed_sound {v} {s : State} {c d} {t} (e : State.openNamed s c d = some t) (h : sound v s) : sound v t :=
  State.openList_sound e h

theorem State.startInst_sound {v} (s : State) (a1) (a2) (h : sound v s) : sound v (State.startInst s a1 a2).1 := by
  unfold State.startInst; try dsimp only
  repeat' (first | with_reducible assumption | with_reducible refine ite_keep (P := sound _) ?_ ?_ | with_reducible refine State.resumeInst_sound _ _ _ _ _ ?_ | with_reducible refine State.resumeInst_sound_eq (by assumption) ?_ | with_reducible refine State.openNamed_sound (by assumption) ?_ | with_reducible refine State.recordExc_sound _ _ _ _ _ _ ?_ | with_reducible refine State.countRaise_sound _ _ _ _ _ ?_ | with_reducible refine State.lose_sound _ _ _ ?_ | with_reducible refine State.lose_sound_eq (by assumption) ?_ | with_reducible refine State.loadReplicas_sound _ _ _ ?_ | with_reducible refine State.modInst_sound _ _ _ _ ?_ | with_reducible refine State.modCore_sound (fun _ => rfl) ?_ | with_reducible refine State.modCore_soundMem (fun _ hm => ?_) ?_ | with_reducible refine foldl_keep (P := sound _) (fun _ _ _ => ?_) ?_ | with_reducible refine foldl_fst (P := sound _) (fun _ _ _ => ?_) ?_ | with_reducible refine Pad.restoreWins_wf _ _ _ ?_ | with_reducible refine (Pad.rowDead_mem _ _).symm ▸ ?_ | split)
theorem State.startInst_sound_eq {v} {s : State} {a1} {a2} {t} {y} (e : State.startInst s a1 a2 = (t, y)) (h : sound v s) : sound v t := by
  have := State.startInst_sound s a1 a2 h; rwa [e] at this

theorem State.endRunning_sound {v} (s : State) (a1) (h : sound v s) : sound v (State.endRunning s a1).1 := by
  unfold State.endRunning; try dsimp only
  repeat' (first | with_reducible assumption | with_reducible refine ite_keep (P := sound _) ?_ ?_ | with_reducible refine State.recordExc_sound _ _ _ _ _ _ ?_ | with_reducible refine State.takeOff_sound _ _ ?_ | with_reducible refine State.lose_sound _ _ _ ?_ | with_reducible refine State.lose_sound_eq (by assumption) ?_ | with_reducible refine foldl_keep (P := sound _) (fun _ _ _ => ?_) ?_ | with_reducible refine foldl_fst (P := sound _) (fun _ _ _ => ?_) ?_ | with_reducible refine Pad.restoreWins_wf _ _ _ ?_ | with_reducible refine (Pad.rowDead_mem _ _).symm ▸ ?_ | split)
theorem State.endRunning_sound_eq {v} {s : State} {a1} {t} {y} (e : State.endRunning s a1 = (t, y)) (h : sound v s) : sound v t := by
  have := State.endRunning_sound s a1 h; rwa [e] at this

theorem State.askPreempt_sound {v} (s : State) (a1) (a2) (a3) (h : sound v s) : sound v (State.askPreempt s a1 a2 a3).1 := by
  unfold State.askPreempt; try dsimp only
  repeat' (first | with_reducible assumption | with_reducible refine ite_keep (P := sound _) ?_ ?_ | with_reducible refine State.countRaise_sound _ _ _ _ _ ?_ | with_reducible refine State.endRunning_sound _ _ ?_ | with_reducible refine State.endRunning_sound_eq (by assumption) ?_ | with_reducible refine State.modSched_sound _ _ ?_ | with_reducible refine foldl_keep (P := sound _) (fun _ _ _ => ?_) ?_ | with_reducible refine foldl_fst (P := sound _) (fun _ _ _ => ?_) ?_ | with_reducible refine Pad.restoreWins_wf _ _ _ ?_ | with_reducible refine (Pad.rowDead_mem _ _).symm ▸ ?_ | split)
theorem State.askPreempt_sound_eq {v} {s : State} {a1} {a2} {a3} {t} {y} (e : State.askPreempt s a1 a2 a3 = (t, y)) (h : sound v s) : sound v t := by
  have := State.askPreempt_sound s a1 a2 a3 h; rwa [e] at this

theorem State.decideOne_sound {v} (s : State) (a1) (h : sound v s) : sound v (State.decideOne s a1).1 := by
  unfold State.decideOne; try dsimp only
  repeat' (first | with_reducible assumption | with_reducible refine ite_keep (P := sound _) ?_ ?_ | with_reducible refine State.modSched_sound _ _ ?_ | with_reducible refine State.startInst_sound _ _ _ ?_ | with_reducible refine State.startInst_sound_eq (by assumption) ?_ | with_reducible refine State.askPreempt_sound _ _ _ _ ?_ | with_reducible refine State.askPreempt_sound_eq (by assumption) ?_ | with_reducible refine foldl_keep (P := sound _) (fun _ _ _ => ?_) ?_ | with_reducible refine foldl_fst (P := sound _) (fun _ _ _ => ?_) ?_ | with_reducible refine Pad.restoreWins_wf _ _ _ ?_ | with_reducible refine (Pad.rowDead_mem _ _).symm ▸ ?_ | split)
theorem State.decideOne_sound_eq {v} {s : State} {a1} {t} {y} (e : State.decideOne s a1 = (t, y)) (h : sound v s) : sound v t := by
  have := State.decideOne_sound s a1 h; rwa [e] at this

theorem State.decideAll_sound {v} (n : Nat) (s : State) (l : List (Fin 16)) (h : sound v s) : sound v (State.decideAll n s l) := by
  induction n generalizing s l with
  | zero => exact h
  | succ n ih =>
    cases l with
    | nil => exact h
    | cons c cs => exact ih _ _ (State.decideOne_sound s c h)

theorem State.dispatch_sound {v} (s : State) (a1) (h : sound v s) : sound v (State.dispatch s a1) := by
  unfold State.dispatch; try dsimp only
  repeat' (first | with_reducible assumption | with_reducible refine ite_keep (P := sound _) ?_ ?_ | with_reducible refine State.decideAll_sound _ _ _ ?_)

theorem State.except_sound {v} (s : State) (c a b d) (h : sound v s) : sound v (State.except s c a b d) := by
  unfold State.except; dsimp only
  split
  · exact h
  · rename_i r _
    have h1 : sound v (if a = 6 then s.countRaise (odCore 0x6102 c 5) 0x6011 c.val else s) := by
      split
      · exact State.countRaise_sound _ _ _ _ _ h
      · exact h
    have h2 := State.takeOff_sound _ c (State.recordExc_sound _ c a b r.task d h1)
    split
    · exact h2
    · exact State.dispatch_sound _ _ (State.lose_sound _ _ _ h2)

theorem State.modSeq_sound {v} (s : State) (a1) (a2) (h : sound v s) : sound v (State.modSeq s a1 a2) := State.modCore_sound (fun _ => rfl) h

theorem State.setPc_sound {v} (s : State) (a1) (a2) (h : sound v s) : sound v (State.setPc s a1 a2) := by
  unfold State.setPc; try dsimp only
  repeat' (first | with_reducible assumption | with_reducible refine ite_keep (P := sound _) ?_ ?_ | with_reducible refine State.modSeq_sound _ _ _ ?_)

/-- An effect keeps what every command keeps. -/
def effSound (v : List Instr) : Eff → Prop
  | .next s => sound v s
  | .jump s _ => sound v s
  | .stay s => sound v s
  | .exc s _ _ => sound v s

theorem effSound_next {v s} (h : sound v s) : effSound v (.next s) := h
theorem effSound_jump {v s t} (h : sound v s) : effSound v (.jump s t) := h
theorem effSound_stay {v s} (h : sound v s) : effSound v (.stay s) := h
theorem effSound_exc {v s a b} (h : sound v s) : effSound v (.exc s a b) := h

theorem State.issue_sound {v} (s : State) (c o w h) (f : State → Ins → Eff) (hf : ∀ s x, sound v s → effSound v (f s x)) (hs : sound v s) :
    sound v (State.issue s c o w h f) := by
  unfold State.issue; dsimp only
  split
  · exact hs
  · split
    · exact hs
    · split
      · exact State.except_sound _ _ _ _ _ hs
      · split
        · exact State.except_sound _ _ _ _ _ (State.padUncorrectable_sound _ _ _ hs)
        · split
          · exact State.except_sound _ _ _ _ _ hs
          · split
            · exact hs
            · split
              · exact State.except_sound _ _ _ _ _ hs
              · split
                · exact State.setPc_sound _ _ _ hs
                · generalize hq : f s _ = q
                  have he : effSound v q := hq ▸ hf s _ hs
                  cases q with
                  | next t => exact State.setPc_sound _ _ _ he
                  | stay t => exact he
                  | exc t a b => exact State.except_sound _ _ _ _ _ he
                  | jump t a =>
                    dsimp only
                    split
                    · exact State.except_sound _ _ _ _ _ he
                    · exact State.setPc_sound _ _ _ he

theorem State.ws_sound {v} (s : State) (a1) (a2) (a3) (h : sound v s) : sound v (State.ws s a1 a2 a3) := by
  unfold State.ws; try dsimp only
  repeat' (first | with_reducible assumption | with_reducible refine ite_keep (P := sound _) ?_ ?_ | with_reducible refine State.modSeq_sound _ _ _ ?_)

theorem State.alu3_sound {v} (s : State) (a1) (a2) (a3) (a4) (h : sound v s) : sound v (State.alu3 s a1 a2 a3 a4) := by
  unfold State.alu3; try dsimp only
  repeat' (first | with_reducible assumption | with_reducible refine ite_keep (P := sound _) ?_ ?_ | with_reducible refine State.issue_sound _ _ _ _ _ _ (fun _ _ _ => ?_) ?_ | with_reducible refine ite_keep (P := effSound _) ?_ ?_ | with_reducible refine effSound_next ?_ | with_reducible refine effSound_jump ?_ | with_reducible refine effSound_stay ?_ | with_reducible refine effSound_exc ?_ | with_reducible refine State.ws_sound _ _ _ _ ?_)

theorem State.aluImm_sound {v} (s : State) (a1) (a2) (a3) (a4) (h : sound v s) : sound v (State.aluImm s a1 a2 a3 a4) := by
  unfold State.aluImm; try dsimp only
  repeat' (first | with_reducible assumption | with_reducible refine ite_keep (P := sound _) ?_ ?_ | with_reducible refine State.issue_sound _ _ _ _ _ _ (fun _ _ _ => ?_) ?_ | with_reducible refine ite_keep (P := effSound _) ?_ ?_ | with_reducible refine effSound_next ?_ | with_reducible refine effSound_jump ?_ | with_reducible refine effSound_stay ?_ | with_reducible refine effSound_exc ?_ | with_reducible refine State.ws_sound _ _ _ _ ?_)

theorem State.aluShift_sound {v} (s : State) (a1) (a2) (a3) (a4) (h : sound v s) : sound v (State.aluShift s a1 a2 a3 a4) := by
  unfold State.aluShift; try dsimp only
  repeat' (first | with_reducible assumption | with_reducible refine ite_keep (P := sound _) ?_ ?_ | with_reducible refine State.issue_sound _ _ _ _ _ _ (fun _ _ _ => ?_) ?_ | with_reducible refine ite_keep (P := effSound _) ?_ ?_ | with_reducible refine effSound_next ?_ | with_reducible refine effSound_jump ?_ | with_reducible refine effSound_stay ?_ | with_reducible refine effSound_exc ?_ | with_reducible refine State.ws_sound _ _ _ _ ?_)

theorem State.answer_sound {v} (s : State) (a1) (h : sound v s) : sound v (State.answer s a1) := by
  unfold State.answer; try dsimp only
  repeat' (first | with_reducible assumption | with_reducible refine ite_keep (P := sound _) ?_ ?_ | with_reducible refine foldl_keep (P := sound _) (fun _ _ _ => ?_) ?_ | with_reducible refine foldl_fst (P := sound _) (fun _ _ _ => ?_) ?_ | with_reducible refine Pad.restoreWins_wf _ _ _ ?_ | with_reducible refine (Pad.rowDead_mem _ _).symm ▸ ?_ | split | dsimp only | fail_if_no_progress (rw [sound_mk]; refine sound_of rfl rfl rfl rfl rfl ?_))

theorem State.dirEntry_sound {v} (s : State) (a1) (a2) (a3) (h : sound v s) : sound v (State.dirEntry s a1 a2 a3).1 := by
  unfold State.dirEntry; try dsimp only
  repeat' (first | with_reducible assumption | with_reducible refine ite_keep (P := sound _) ?_ ?_ | with_reducible refine State.pGet_sound _ _ _ _ _ ?_ | with_reducible refine State.pGet_sound_eq (by assumption) ?_ | with_reducible refine foldl_keep (P := sound _) (fun _ _ _ => ?_) ?_ | with_reducible refine foldl_fst (P := sound _) (fun _ _ _ => ?_) ?_ | with_reducible refine Pad.restoreWins_wf _ _ _ ?_ | with_reducible refine (Pad.rowDead_mem _ _).symm ▸ ?_ | split)
theorem State.dirEntry_sound_eq {v} {s : State} {a1} {a2} {a3} {t} {y} (e : State.dirEntry s a1 a2 a3 = (t, y)) (h : sound v s) : sound v t := by
  have := State.dirEntry_sound s a1 a2 a3 h; rwa [e] at this

theorem State.answerOne_sound {v} (s : State) (a1) (a2) (a3) (a4) (a5) (h : sound v s) : sound v (State.answerOne s a1 a2 a3 a4 a5).1 := by
  unfold State.answerOne; try dsimp only
  repeat' (first | with_reducible assumption | with_reducible refine ite_keep (P := sound _) ?_ ?_ | with_reducible refine State.dirEntry_sound _ _ _ _ ?_ | with_reducible refine State.dirEntry_sound_eq (by assumption) ?_ | with_reducible refine State.pGet_sound _ _ _ _ _ ?_ | with_reducible refine State.pGet_sound_eq (by assumption) ?_ | with_reducible refine State.addHits_sound _ _ _ _ _ ?_ | with_reducible refine State.accFor_sound _ _ _ _ _ _ ?_ | with_reducible refine State.accFor_sound_eq (by assumption) ?_ | with_reducible refine foldl_keep (P := sound _) (fun _ _ _ => ?_) ?_ | with_reducible refine foldl_fst (P := sound _) (fun _ _ _ => ?_) ?_ | with_reducible refine Pad.restoreWins_wf _ _ _ ?_ | with_reducible refine (Pad.rowDead_mem _ _).symm ▸ ?_ | split)
theorem State.answerOne_sound_eq {v} {s : State} {a1} {a2} {a3} {a4} {a5} {t} {y} (e : State.answerOne s a1 a2 a3 a4 a5 = (t, y)) (h : sound v s) : sound v t := by
  have := State.answerOne_sound s a1 a2 a3 a4 a5 h; rwa [e] at this

theorem State.modSession_sound {v} (s : State) (a1) (a2) (h : sound v s) : sound v (State.modSession s a1 a2) := by
  unfold State.modSession; try dsimp only
  repeat' (first | with_reducible assumption | with_reducible refine ite_keep (P := sound _) ?_ ?_ | with_reducible refine foldl_keep (P := sound _) (fun _ _ _ => ?_) ?_ | with_reducible refine foldl_fst (P := sound _) (fun _ _ _ => ?_) ?_ | with_reducible refine Pad.restoreWins_wf _ _ _ ?_ | with_reducible refine (Pad.rowDead_mem _ _).symm ▸ ?_ | split | dsimp only | fail_if_no_progress (rw [sound_mk]; refine sound_of rfl rfl rfl rfl rfl ?_))

theorem State.readResult_sound {v} (s : State) (a1) (h : sound v s) : sound v (State.readResult s a1).1 := by
  unfold State.readResult; try dsimp only
  repeat' (first | with_reducible assumption | with_reducible refine ite_keep (P := sound _) ?_ ?_ | with_reducible refine State.bump_sound _ _ _ ?_ | with_reducible refine State.dramGet_sound _ _ _ _ ?_ | with_reducible refine State.dramGet_sound_eq (by assumption) ?_ | with_reducible refine State.modNet_sound _ _ ?_ | with_reducible refine State.drawn_sound _ ?_ | with_reducible refine State.dramPut_sound _ _ _ ?_ | with_reducible refine foldl_keep (P := sound _) (fun _ _ _ => ?_) ?_ | with_reducible refine foldl_fst (P := sound _) (fun _ _ _ => ?_) ?_ | with_reducible refine Pad.restoreWins_wf _ _ _ ?_ | with_reducible refine (Pad.rowDead_mem _ _).symm ▸ ?_ | split)
theorem State.readResult_sound_eq {v} {s : State} {a1} {t} {y} (e : State.readResult s a1 = (t, y)) (h : sound v s) : sound v t := by
  have := State.readResult_sound s a1 h; rwa [e] at this

theorem State.servePiece_sound {v} (s : State) (a1) (a2) (a3) (a4) (h : sound v s) : sound v (State.servePiece s a1 a2 a3 a4).1 := by
  unfold State.servePiece; try dsimp only
  repeat' (first | with_reducible assumption | with_reducible refine ite_keep (P := sound _) ?_ ?_ | with_reducible refine State.modSession_sound _ _ _ ?_ | with_reducible refine foldl_keep (P := sound _) (fun _ _ _ => ?_) ?_ | with_reducible refine foldl_fst (P := sound _) (fun _ _ _ => ?_) ?_ | with_reducible refine Pad.restoreWins_wf _ _ _ ?_ | with_reducible refine (Pad.rowDead_mem _ _).symm ▸ ?_ | split)
theorem State.servePiece_sound_eq {v} {s : State} {a1} {a2} {a3} {a4} {t} {y} (e : State.servePiece s a1 a2 a3 a4 = (t, y)) (h : sound v s) : sound v t := by
  have := State.servePiece_sound s a1 a2 a3 a4 h; rwa [e] at this

theorem State.takeSnapshot_sound {v} (s : State) (a1) (a2) (a3) (a4) (h : sound v s) : sound v (State.takeSnapshot s a1 a2 a3 a4).1 := by
  unfold State.takeSnapshot; try dsimp only
  repeat' (first | with_reducible assumption | with_reducible refine ite_keep (P := sound _) ?_ ?_ | with_reducible refine State.modSession_sound _ _ _ ?_ | with_reducible refine State.servePiece_sound _ _ _ _ _ ?_ | with_reducible refine State.servePiece_sound_eq (by assumption) ?_ | with_reducible refine foldl_keep (P := sound _) (fun _ _ _ => ?_) ?_ | with_reducible refine foldl_fst (P := sound _) (fun _ _ _ => ?_) ?_ | with_reducible refine Pad.restoreWins_wf _ _ _ ?_ | with_reducible refine (Pad.rowDead_mem _ _).symm ▸ ?_ | split)
theorem State.takeSnapshot_sound_eq {v} {s : State} {a1} {a2} {a3} {a4} {t} {y} (e : State.takeSnapshot s a1 a2 a3 a4 = (t, y)) (h : sound v s) : sound v t := by
  have := State.takeSnapshot_sound s a1 a2 a3 a4 h; rwa [e] at this

theorem State.useSeq_sound {v} (s : State) (a1) (h : sound v s) : sound v (State.useSeq s a1) := by
  unfold State.useSeq; try dsimp only
  repeat' (first | with_reducible assumption | with_reducible refine ite_keep (P := sound _) ?_ ?_ | with_reducible refine State.modNet_sound _ _ ?_)

theorem State.usePn_sound {v} (s : State) (a1) (a2) (a3) (a4) (a5) (h : sound v s) : sound v (State.usePn s a1 a2 a3 a4 a5) := by
  unfold State.usePn; try dsimp only
  repeat' (first | with_reducible assumption | with_reducible refine ite_keep (P := sound _) ?_ ?_ | with_reducible refine State.raise_sound _ _ _ _ _ ?_ | with_reducible refine foldl_keep (P := sound _) (fun _ _ _ => ?_) ?_ | with_reducible refine foldl_fst (P := sound _) (fun _ _ _ => ?_) ?_ | with_reducible refine Pad.restoreWins_wf _ _ _ ?_ | with_reducible refine (Pad.rowDead_mem _ _).symm ▸ ?_ | split | dsimp only | fail_if_no_progress (rw [sound_mk]; refine sound_of rfl rfl rfl rfl rfl ?_))

theorem State.transmit_sound {v} (s : State) (a1) (h : sound v s) : sound v (State.transmit s a1) := by
  unfold State.transmit; try dsimp only
  repeat' (first | with_reducible assumption | with_reducible refine ite_keep (P := sound _) ?_ ?_ | with_reducible refine State.modNet_sound _ _ ?_ | with_reducible refine State.bump_sound _ _ _ ?_ | with_reducible refine State.usePn_sound _ _ _ _ _ _ ?_ | with_reducible refine foldl_keep (P := sound _) (fun _ _ _ => ?_) ?_ | with_reducible refine foldl_fst (P := sound _) (fun _ _ _ => ?_) ?_ | with_reducible refine Pad.restoreWins_wf _ _ _ ?_ | with_reducible refine (Pad.rowDead_mem _ _).symm ▸ ?_ | split)

theorem State.onLine_sound {v} (s : State) (a1) (a2) (a3) (h : sound v s) : sound v (State.onLine s a1 a2 a3) := by
  unfold State.onLine; try dsimp only
  repeat' (first | with_reducible assumption | with_reducible refine ite_keep (P := sound _) ?_ ?_ | with_reducible refine State.transmit_sound _ _ ?_ | with_reducible refine State.modHost_sound _ _ _ ?_ | with_reducible refine State.credits_sound _ _ _ _ ?_)

theorem State.hostAdmit_sound {v} (s : State) (a1) (h : sound v s) : sound v (State.hostAdmit s a1) := by
  unfold State.hostAdmit; try dsimp only
  repeat' (first | with_reducible assumption | with_reducible refine ite_keep (P := sound _) ?_ ?_ | with_reducible refine State.letIn_sound _ _ _ ?_ | with_reducible refine State.setNum_sound _ _ _ ?_)

theorem State.hostDrain_sound {v} (n : Nat) (s : State) (p : Fin 2) (t) (h : sound v s) : sound v (State.hostDrain n s p t) := by
  induction n generalizing s t with
  | zero => exact h
  | succ n ih =>
    have h1 := State.accrue_sound s p t h
    unfold State.hostDrain; dsimp only
    split
    · exact ih _ _ (State.bump_sound _ _ _ (State.hostAdmit_sound _ _ (State.onLine_sound _ _ _ _ (State.modHost_sound _ _ _ h1))))
    · split
      · exact ih _ _ h1
      · exact h1

theorem State.hostFlow_sound {v} (s : State) (a1) (h : sound v s) : sound v (State.hostFlow s a1) := by
  unfold State.hostFlow; try dsimp only
  repeat' (first | with_reducible assumption | with_reducible refine ite_keep (P := sound _) ?_ ?_ | with_reducible refine State.hostDrain_sound _ _ _ _ ?_)

theorem State.hostSend_sound {v} (s : State) (a1) (a2) (h : sound v s) : sound v (State.hostSend s a1 a2) := by
  unfold State.hostSend; try dsimp only
  repeat' (first | with_reducible assumption | with_reducible refine ite_keep (P := sound _) ?_ ?_ | with_reducible refine State.onLine_sound _ _ _ _ ?_ | with_reducible refine State.hostFlow_sound _ _ ?_ | with_reducible refine State.hostAdmit_sound _ _ ?_ | with_reducible refine State.modHost_sound _ _ _ ?_ | with_reducible refine State.accrue_sound _ _ _ ?_)

theorem State.sendOn_sound {v} (s : State) (a1) (a2) (a3) (a4) (a5) (a6) (a7) (a8) (h : sound v s) : sound v (State.sendOn s a1 a2 a3 a4 a5 a6 a7 a8) := by
  unfold State.sendOn; try dsimp only
  repeat' (first | with_reducible assumption | with_reducible refine ite_keep (P := sound _) ?_ ?_ | with_reducible refine State.modHost_sound _ _ _ ?_ | with_reducible refine State.hostSend_sound _ _ _ ?_ | with_reducible refine foldl_keep (P := sound _) (fun _ _ _ => ?_) ?_ | with_reducible refine foldl_fst (P := sound _) (fun _ _ _ => ?_) ?_ | with_reducible refine Pad.restoreWins_wf _ _ _ ?_ | with_reducible refine (Pad.rowDead_mem _ _).symm ▸ ?_ | split)

theorem State.sendUdp_sound {v} (s : State) (a1) (a2) (a3) (a4) (a5) (h : sound v s) : sound v (State.sendUdp s a1 a2 a3 a4 a5) := by
  unfold State.sendUdp; try dsimp only
  repeat' (first | with_reducible assumption | with_reducible refine ite_keep (P := sound _) ?_ ?_ | with_reducible refine State.useSeq_sound _ _ ?_ | with_reducible refine State.sendOn_sound _ _ _ _ _ _ _ _ _ ?_)

theorem State.sendReply_sound {v} (s : State) (a1) (a2) (a3) (a4) (a5) (h : sound v s) : sound v (State.sendReply s a1 a2 a3 a4 a5) := by
  unfold State.sendReply; try dsimp only
  repeat' (first | with_reducible assumption | with_reducible refine ite_keep (P := sound _) ?_ ?_ | with_reducible refine State.sendUdp_sound _ _ _ _ _ _ ?_ | with_reducible refine foldl_keep (P := sound _) (fun _ _ _ => ?_) ?_ | with_reducible refine foldl_fst (P := sound _) (fun _ _ _ => ?_) ?_ | with_reducible refine Pad.restoreWins_wf _ _ _ ?_ | with_reducible refine (Pad.rowDead_mem _ _).symm ▸ ?_ | split | dsimp only | fail_if_no_progress (rw [sound_mk]; refine sound_of rfl rfl rfl rfl rfl ?_))

theorem State.replyTo_sound {v} (s : State) (a1) (a2) (a3) (a4) (a5) (a6) (a7) (h : sound v s) : sound v (State.replyTo s a1 a2 a3 a4 a5 a6 a7) := by
  unfold State.replyTo; try dsimp only
  repeat' (first | with_reducible assumption | with_reducible refine ite_keep (P := sound _) ?_ ?_ | with_reducible refine State.sendReply_sound _ _ _ _ _ _ ?_ | with_reducible refine State.modSession_sound _ _ _ ?_)

theorem State.answerWait_sound {v} (s : State) (a1) (h : sound v s) : sound v (State.answerWait s a1) := by
  unfold State.answerWait; try dsimp only
  repeat' (first | with_reducible assumption | with_reducible refine ite_keep (P := sound _) ?_ ?_ | with_reducible refine State.modSession_sound _ _ _ ?_ | with_reducible refine State.readResult_sound _ _ ?_ | with_reducible refine State.readResult_sound_eq (by assumption) ?_ | with_reducible refine State.takeSnapshot_sound _ _ _ _ _ ?_ | with_reducible refine State.takeSnapshot_sound_eq (by assumption) ?_ | with_reducible refine State.replyTo_sound _ _ _ _ _ _ _ _ ?_ | with_reducible refine foldl_keep (P := sound _) (fun _ _ _ => ?_) ?_ | with_reducible refine foldl_fst (P := sound _) (fun _ _ _ => ?_) ?_ | with_reducible refine Pad.restoreWins_wf _ _ _ ?_ | with_reducible refine (Pad.rowDead_mem _ _).symm ▸ ?_ | split)

theorem sound_cores {v} {s : State} (f : Core → Core) (hf : ∀ k : Core, (f k).pad.mem = k.pad.mem) (h : sound v s) :
    sound v { s with cores := s.cores.map f } := by
  obtain ⟨h1, h2, h3, h4, h5⟩ := h
  exact ⟨h1, h2, h3, h4, fun c => by simpa [hf] using h5 c⟩

theorem State.applyArmed_sound {v} (s : State) (h : sound v s) : sound v (State.applyArmed s) := by
  unfold State.applyArmed
  have h1 : sound v ((List.finRange 16).foldl (fun s c =>
    let n := (s.cores[c]).pad.nextRetired
    let key := odCore 0x7100 c 15
    if n = 0 then s else s.store key (.num (s.num key ||| n : Nat))) s) := by
    refine foldl_keep (P := sound _) (fun t c ht => ?_) h
    dsimp only
    split
    · exact ht
    · exact State.store_sound _ _ _ ht
  generalize ((List.finRange 16).foldl (fun s c =>
    let n := (s.cores[c]).pad.nextRetired
    let key := odCore 0x7100 c 15
    if n = 0 then s else s.store key (.num (s.num key ||| n : Nat))) s) = u at h1 ⊢
  dsimp only
  generalize forget _ _ = sv
  have h2 : sound v { u with dict := { u.dict with saved := sv, armed := [] } } := by rw [sound_mk]; exact sound_of rfl rfl rfl rfl rfl h1
  have h3 : sound v (if u.dict.armed.contains (od 0x6002 1) then { ({ u with dict := { u.dict with saved := sv, armed := [] } } : State) with
      cores := u.cores.map Core.unspared } else { u with dict := { u.dict with saved := sv, armed := [] } }) := by
    split
    · exact sound_cores _ (fun _ => rfl) h2
    · exact h2
  split
  · exact sound_cores _ (fun _ => rfl) h3
  · exact h3

theorem State.padCorrected_sound {v} (s : State) (c a) (h : sound v s) : sound v (State.padCorrected s c a) := by
  unfold State.padCorrected; dsimp only
  have h1 := fun n => State.modPad_sound (c := c) (f := fun k => { k with rowErrs := Sparse.put (fun _ => 0) k.rowErrs (rowKey a) n }) (fun _ => rfl)
    (State.bump_sound s (odCore 0x7100 c 1) 1 h)
  split
  · exact State.raise_sound _ _ _ _ _ (State.modPad_sound (fun k => Pad.queueTest_mem k _) (h1 _))
  · exact h1 _

theorem State.padFinds_sound {v} (s : State) (c ws e) (h : sound v s) : sound v (State.padFinds s c ws e).1 := by
  unfold State.padFinds
  refine foldl_fst (P := sound v) (fun a x ha => ?_) h
  dsimp only
  split
  · exact State.padUncorrectable_sound _ _ _ ha
  · exact State.padCorrected_sound _ _ _ ha
theorem State.padFinds_sound_eq {v} {s : State} {a1} {a2} {a3} {t} {y} (e : State.padFinds s a1 a2 a3 = (t, y)) (h : sound v s) : sound v t := by
  have := State.padFinds_sound (v := v) s a1 a2 a3 h; rwa [e] at this

theorem State.padRead_sound {v} (s : State) (c p w off n g e) (h : sound v s) : sound v (State.padRead s c p w off n g e).1 := by
  unfold State.padRead; dsimp only
  split
  · exact State.accFault_sound _ _ _ _ h
  · split
    · exact State.accFault_sound _ _ _ _ h
    · split
      · exact State.padUncorrectable_sound _ _ _ h
      · have h1 := State.padFinds_sound s c (((s.cores[c]).pad.win p w).words8 off n) e h
        split
        · exact h1
        · exact State.modPad_sound (f := fun k => k.consume ((s.cores[c]).pad.win p w) off n) (fun k => Pad.consume_mem k _ _ _) h1
theorem State.padRead_sound_eq {v} {s : State} {a1} {a2} {a3} {a4} {a5} {a6} {a7} {t} {y} (e : State.padRead s a1 a2 a3 a4 a5 a6 a7 = (t, y)) (h : sound v s) : sound v t := by
  have := State.padRead_sound (v := v) s a1 a2 a3 a4 a5 a6 a7 h; rwa [e] at this

theorem State.peRead_sound {v} (s : State) (a1) (a2) (a3) (a4) (a5) (h : sound v s) : sound v (State.peRead s a1 a2 a3 a4 a5).1 := by
  unfold State.peRead; try dsimp only
  repeat' (first | with_reducible assumption | with_reducible refine ite_keep (P := sound _) ?_ ?_ | with_reducible refine State.padRead_sound _ _ _ _ _ _ _ _ ?_ | with_reducible refine State.padRead_sound_eq (by assumption) ?_ | with_reducible refine foldl_keep (P := sound _) (fun _ _ _ => ?_) ?_ | with_reducible refine foldl_fst (P := sound _) (fun _ _ _ => ?_) ?_ | with_reducible refine Pad.restoreWins_wf _ _ _ ?_ | with_reducible refine (Pad.rowDead_mem _ _).symm ▸ ?_ | split)
theorem State.peRead_sound_eq {v} {s : State} {a1} {a2} {a3} {a4} {a5} {t} {y} (e : State.peRead s a1 a2 a3 a4 a5 = (t, y)) (h : sound v s) : sound v t := by
  have := State.peRead_sound s a1 a2 a3 a4 a5 h; rwa [e] at this

theorem State.rowGet_sound {v} (s : State) (a1) (a2) (a3) (a4) (h : sound v s) : sound v (State.rowGet s a1 a2 a3 a4).1 := by
  unfold State.rowGet; try dsimp only
  repeat' (first | with_reducible assumption | with_reducible refine ite_keep (P := sound _) ?_ ?_ | with_reducible refine State.dirEntry_sound _ _ _ _ ?_ | with_reducible refine State.dirEntry_sound_eq (by assumption) ?_ | with_reducible refine State.pGet_sound _ _ _ _ _ ?_ | with_reducible refine State.pGet_sound_eq (by assumption) ?_ | with_reducible refine foldl_keep (P := sound _) (fun _ _ _ => ?_) ?_ | with_reducible refine foldl_fst (P := sound _) (fun _ _ _ => ?_) ?_ | with_reducible refine Pad.restoreWins_wf _ _ _ ?_ | with_reducible refine (Pad.rowDead_mem _ _).symm ▸ ?_ | split)
theorem State.rowGet_sound_eq {v} {s : State} {a1} {a2} {a3} {a4} {t} {y} (e : State.rowGet s a1 a2 a3 a4 = (t, y)) (h : sound v s) : sound v t := by
  have := State.rowGet_sound s a1 a2 a3 a4 h; rwa [e] at this

theorem State.rowPut_sound {v} (s : State) (a1) (a2) (a3) (a4) (a5) (h : sound v s) : sound v (State.rowPut s a1 a2 a3 a4 a5) := by
  unfold State.rowPut; try dsimp only
  repeat' (first | with_reducible assumption | with_reducible refine ite_keep (P := sound _) ?_ ?_ | with_reducible refine State.pPut_sound _ _ _ _ ?_ | with_reducible refine State.bump_sound _ _ _ ?_)

theorem State.applyRow_sound {v} (s : State) (a1) (a2) (a3) (a4) (a5) (h : sound v s) : sound v (State.applyRow s a1 a2 a3 a4 a5) := by
  unfold State.applyRow; try dsimp only
  repeat' (first | with_reducible assumption | with_reducible refine ite_keep (P := sound _) ?_ ?_ | with_reducible refine State.peRead_sound _ _ _ _ _ _ ?_ | with_reducible refine State.peRead_sound_eq (by assumption) ?_ | with_reducible refine State.rowGet_sound _ _ _ _ _ ?_ | with_reducible refine State.rowGet_sound_eq (by assumption) ?_ | with_reducible refine State.pGet_sound _ _ _ _ _ ?_ | with_reducible refine State.pGet_sound_eq (by assumption) ?_ | with_reducible refine State.pPut_sound _ _ _ _ ?_ | with_reducible refine State.dirEntry_sound _ _ _ _ ?_ | with_reducible refine State.dirEntry_sound_eq (by assumption) ?_ | with_reducible refine State.rowPut_sound _ _ _ _ _ _ ?_ | with_reducible refine State.modTable_sound _ _ _ ?_ | with_reducible refine State.bump_sound _ _ _ ?_ | with_reducible refine State.modPad_soundMem (fun _ hm => Pad.closeAll_wf _ hm) ?_ | with_reducible refine State.modPad_soundMem (fun _ hm => Pad.close_wf _ _ _ hm) ?_ | with_reducible refine State.modPad_soundMem (fun _ hm => Pad.load_wf _ _ _ _ _ hm) ?_ | with_reducible refine State.modPad_soundMem (fun _ hm => Pad.write_wf _ _ _ _ hm) ?_ | with_reducible refine State.modPad_soundMem (fun _ hm => Pad.closeConfidential_wf _ hm) ?_ | with_reducible refine State.modPad_sound (fun _ => rfl) ?_ | with_reducible refine State.modPad_soundMem (fun _ hm => ?_) ?_ | with_reducible refine foldl_keep (P := sound _) (fun _ _ _ => ?_) ?_ | with_reducible refine foldl_fst (P := sound _) (fun _ _ _ => ?_) ?_ | with_reducible refine Pad.restoreWins_wf _ _ _ ?_ | with_reducible refine (Pad.rowDead_mem _ _).symm ▸ ?_ | split)

theorem State.loadProgram_sound {v} (s : State) (a1) (a2) (h : sound v s) : sound v (State.loadProgram s a1 a2) := by
  unfold State.loadProgram; try dsimp only
  repeat' (first | with_reducible assumption | with_reducible refine ite_keep (P := sound _) ?_ ?_ | with_reducible refine foldl_keep (P := sound _) (fun _ _ _ => ?_) ?_ | with_reducible refine foldl_fst (P := sound _) (fun _ _ _ => ?_) ?_ | with_reducible refine Pad.restoreWins_wf _ _ _ ?_ | with_reducible refine (Pad.rowDead_mem _ _).symm ▸ ?_ | split | dsimp only | fail_if_no_progress (rw [sound_mk]; refine sound_of rfl rfl rfl rfl rfl ?_))

theorem State.modHead_sound {v} (s : State) (a1) (a2) (h : sound v s) : sound v (State.modHead s a1 a2) := by
  unfold State.modHead; try dsimp only
  repeat' (first | with_reducible assumption | with_reducible refine ite_keep (P := sound _) ?_ ?_ | with_reducible refine foldl_keep (P := sound _) (fun _ _ _ => ?_) ?_ | with_reducible refine foldl_fst (P := sound _) (fun _ _ _ => ?_) ?_ | with_reducible refine Pad.restoreWins_wf _ _ _ ?_ | with_reducible refine (Pad.rowDead_mem _ _).symm ▸ ?_ | split | dsimp only | fail_if_no_progress (rw [sound_mk]; refine sound_of rfl rfl rfl rfl rfl ?_))

theorem State.applyWrite_sound {v} (s : State) (a1) (a2) (h : sound v s) : sound v (State.applyWrite s a1 a2) := by
  unfold State.applyWrite; try dsimp only
  repeat' (first | with_reducible assumption | with_reducible refine ite_keep (P := sound _) ?_ ?_ | with_reducible refine State.setObj_sound _ _ _ ?_ | with_reducible refine State.loadProgram_sound _ _ _ ?_ | with_reducible refine State.modHead_sound _ _ _ ?_ | with_reducible refine foldl_keep (P := sound _) (fun _ _ _ => ?_) ?_ | with_reducible refine foldl_fst (P := sound _) (fun _ _ _ => ?_) ?_ | with_reducible refine Pad.restoreWins_wf _ _ _ ?_ | with_reducible refine (Pad.rowDead_mem _ _).symm ▸ ?_ | split)

theorem State.arm_sound {v} (s : State) (a1) (h : sound v s) : sound v (State.arm s a1) := by
  unfold State.arm; try dsimp only
  repeat' (first | with_reducible assumption | with_reducible refine ite_keep (P := sound _) ?_ ?_ | with_reducible refine foldl_keep (P := sound _) (fun _ _ _ => ?_) ?_ | with_reducible refine foldl_fst (P := sound _) (fun _ _ _ => ?_) ?_ | with_reducible refine Pad.restoreWins_wf _ _ _ ?_ | with_reducible refine (Pad.rowDead_mem _ _).symm ▸ ?_ | split | dsimp only | fail_if_no_progress (rw [sound_mk]; refine sound_of rfl rfl rfl rfl rfl ?_))

theorem State.exceptRun_sound {v} (s : State) (a1) (a2) (a3) (a4) (h : sound v s) : sound v (State.exceptRun s a1 a2 a3 a4) := by
  unfold State.exceptRun; try dsimp only
  repeat' (first | with_reducible assumption | with_reducible refine ite_keep (P := sound _) ?_ ?_ | with_reducible refine State.except_sound _ _ _ _ _ ?_ | with_reducible refine State.countRaise_sound _ _ _ _ _ ?_ | with_reducible refine State.recordExc_sound _ _ _ _ _ _ ?_ | with_reducible refine State.modCore_sound (fun _ => rfl) ?_ | with_reducible refine State.modCore_soundMem (fun _ hm => ?_) ?_ | with_reducible refine State.lose_sound _ _ _ ?_ | with_reducible refine State.lose_sound_eq (by assumption) ?_ | with_reducible refine State.dispatch_sound _ _ ?_ | with_reducible refine foldl_keep (P := sound _) (fun _ _ _ => ?_) ?_ | with_reducible refine foldl_fst (P := sound _) (fun _ _ _ => ?_) ?_ | with_reducible refine Pad.restoreWins_wf _ _ _ ?_ | with_reducible refine (Pad.rowDead_mem _ _).symm ▸ ?_ | split)

theorem State.askTarget_sound {v} (s : State) (a1) (h : sound v s) : sound v (State.askTarget s a1) := by
  unfold State.askTarget; try dsimp only
  repeat' (first | with_reducible assumption | with_reducible refine ite_keep (P := sound _) ?_ ?_ | with_reducible refine State.modSched_sound _ _ ?_)

end Sys2Proof.Machine
end

