-- ==== Sys2Proof/Laws/Sound02.lean ====
section
/-! SUPPORT. What operations and meanings keep, part 3 of 12: the queue of waiting commands, every parser engine as R55 and R59 have it, and the
canonical form of every byte memory (`sound`). Callees come before their callers, so a lemma cites those of the operations it unfolds to. -/

namespace Sys2Proof.Machine

theorem State.modArr_sound {v} (s : State) (a1) (a2) (h : sound v s) : sound v (State.modArr s a1 a2) := State.modCore_sound (fun _ => rfl) h

theorem State.askTiles_sound {v} (s : State) (a1) (a2) (h : sound v s) : sound v (State.askTiles s a1 a2) := by
  unfold State.askTiles; try dsimp only
  repeat' (first | with_reducible assumption | with_reducible refine ite_keep (P := sound _) ?_ ?_ | with_reducible refine State.askTarget_sound _ _ ?_ | with_reducible refine State.modArr_sound _ _ _ ?_)

theorem State.arrayFault_sound {v} (s : State) (a1) (a2) (a3) (h : sound v s) : sound v (State.arrayFault s a1 a2 a3) := by
  unfold State.arrayFault; try dsimp only
  repeat' (first | with_reducible assumption | with_reducible refine ite_keep (P := sound _) ?_ ?_ | with_reducible refine State.countRaise_sound _ _ _ _ _ ?_ | with_reducible refine State.exceptRun_sound _ _ _ _ _ ?_ | with_reducible refine State.askTiles_sound _ _ _ ?_)

theorem State.unreachable_sound {v} (s : State) (a1) (a2) (h : sound v s) : sound v (State.unreachable s a1 a2) := by
  unfold State.unreachable; try dsimp only
  repeat' (first | with_reducible assumption | with_reducible refine ite_keep (P := sound _) ?_ ?_ | with_reducible refine State.raiseIng_sound _ _ _ _ _ ?_ | with_reducible refine State.bump_sound _ _ _ ?_ | with_reducible refine State.exceptRun_sound _ _ _ _ _ ?_ | with_reducible refine foldl_keep (P := sound _) (fun _ _ _ => ?_) ?_ | with_reducible refine foldl_fst (P := sound _) (fun _ _ _ => ?_) ?_ | with_reducible refine Pad.restoreWins_wf _ _ _ ?_ | with_reducible refine (Pad.rowDead_mem _ _).symm ▸ ?_ | split | dsimp only | fail_if_no_progress (rw [sound_mk]; refine sound_of rfl rfl rfl rfl rfl ?_))

theorem State.dropAssembly_sound {v} (s : State) (a1) (a2) (h : sound v s) : sound v (State.dropAssembly s a1 a2) := by
  unfold State.dropAssembly; try dsimp only
  repeat' (first | with_reducible assumption | with_reducible refine ite_keep (P := sound _) ?_ ?_ | with_reducible refine foldl_keep (P := sound _) (fun _ _ _ => ?_) ?_ | with_reducible refine foldl_fst (P := sound _) (fun _ _ _ => ?_) ?_ | with_reducible refine Pad.restoreWins_wf _ _ _ ?_ | with_reducible refine (Pad.rowDead_mem _ _).symm ▸ ?_ | split | dsimp only | fail_if_no_progress (rw [sound_mk]; refine sound_of rfl rfl rfl rfl rfl ?_))

theorem State.setQueue_sound {v} (s : State) (a1) (a2) (h : sound v s) : sound v (State.setQueue s a1 a2) := by
  unfold State.setQueue; try dsimp only
  repeat' (first | with_reducible assumption | with_reducible refine ite_keep (P := sound _) ?_ ?_ | with_reducible refine foldl_keep (P := sound _) (fun _ _ _ => ?_) ?_ | with_reducible refine foldl_fst (P := sound _) (fun _ _ _ => ?_) ?_ | with_reducible refine Pad.restoreWins_wf _ _ _ ?_ | with_reducible refine (Pad.rowDead_mem _ _).symm ▸ ?_ | split | dsimp only | fail_if_no_progress (rw [sound_mk]; refine sound_of rfl rfl rfl rfl rfl ?_))

theorem State.peerSend_sound {v} (s : State) (a1) (a2) (h : sound v s) : sound v (State.peerSend s a1 a2) := by
  unfold State.peerSend; try dsimp only
  repeat' (first | with_reducible assumption | with_reducible refine ite_keep (P := sound _) ?_ ?_ | with_reducible refine State.bump_sound _ _ _ ?_ | with_reducible refine State.transmit_sound _ _ ?_)

theorem State.peerDrain_sound {v} (s : State) (a1) (h : sound v s) : sound v (State.peerDrain s a1) := by
  unfold State.peerDrain; try dsimp only
  repeat' (first | with_reducible assumption | with_reducible refine ite_keep (P := sound _) ?_ ?_ | with_reducible refine State.setQueue_sound _ _ _ ?_ | with_reducible refine State.peerSend_sound _ _ _ ?_ | with_reducible refine foldl_keep (P := sound _) (fun _ _ _ => ?_) ?_)

theorem State.driveXoff_sound {v} (s : State) (h : sound v s) : sound v (State.driveXoff s) := by
  unfold State.driveXoff; try dsimp only
  repeat' (first | with_reducible assumption | with_reducible refine ite_keep (P := sound _) ?_ ?_ | with_reducible refine State.raiseIng_sound _ _ _ _ _ ?_ | with_reducible refine foldl_keep (P := sound _) (fun _ _ _ => ?_) ?_ | with_reducible refine foldl_fst (P := sound _) (fun _ _ _ => ?_) ?_ | with_reducible refine Pad.restoreWins_wf _ _ _ ?_ | with_reducible refine (Pad.rowDead_mem _ _).symm ▸ ?_ | split | dsimp only | fail_if_no_progress (rw [sound_mk]; refine sound_of rfl rfl rfl rfl rfl ?_))

theorem State.fillPeak_sound {v} (s : State) (a1) (h : sound v s) : sound v (State.fillPeak s a1) := by
  unfold State.fillPeak; try dsimp only
  repeat' (first | with_reducible assumption | with_reducible refine ite_keep (P := sound _) ?_ ?_ | with_reducible refine State.setNum_sound _ _ _ ?_)

theorem State.qPush_sound {v} (s : State) (a1) (a2) (h : sound v s) : sound v (State.qPush s a1 a2).1 := by
  unfold State.qPush; try dsimp only
  repeat' (first | with_reducible assumption | with_reducible refine ite_keep (P := sound _) ?_ ?_ | with_reducible refine State.bump_sound _ _ _ ?_ | with_reducible refine State.setQueue_sound _ _ _ ?_ | with_reducible refine State.driveXoff_sound _ ?_ | with_reducible refine State.fillPeak_sound _ _ ?_ | with_reducible refine foldl_keep (P := sound _) (fun _ _ _ => ?_) ?_ | with_reducible refine foldl_fst (P := sound _) (fun _ _ _ => ?_) ?_ | with_reducible refine Pad.restoreWins_wf _ _ _ ?_ | with_reducible refine (Pad.rowDead_mem _ _).symm ▸ ?_ | split)
theorem State.qPush_sound_eq {v} {s : State} {a1} {a2} {t} {y} (e : State.qPush s a1 a2 = (t, y)) (h : sound v s) : sound v t := by
  have := State.qPush_sound s a1 a2 h; rwa [e] at this

theorem State.peerOut_sound {v} (s : State) (a1) (a2) (h : sound v s) : sound v (State.peerOut s a1 a2) := by
  unfold State.peerOut; try dsimp only
  repeat' (first | with_reducible assumption | with_reducible refine ite_keep (P := sound _) ?_ ?_ | with_reducible refine State.peerDrain_sound _ _ ?_ | with_reducible refine State.qPush_sound _ _ _ ?_)

theorem State.closeAssembly_sound {v} (s : State) (a1) (a2) (h : sound v s) : sound v (State.closeAssembly s a1 a2) := by
  unfold State.closeAssembly; try dsimp only
  repeat' (first | with_reducible assumption | with_reducible refine ite_keep (P := sound _) ?_ ?_ | with_reducible refine State.dropAssembly_sound _ _ _ ?_ | with_reducible refine State.bump_sound _ _ _ ?_ | with_reducible refine State.peerOut_sound _ _ _ ?_ | with_reducible refine foldl_keep (P := sound _) (fun _ _ _ => ?_) ?_ | with_reducible refine foldl_fst (P := sound _) (fun _ _ _ => ?_) ?_ | with_reducible refine Pad.restoreWins_wf _ _ _ ?_ | with_reducible refine (Pad.rowDead_mem _ _).symm ▸ ?_ | split)

theorem State.makeRoom_sound {v} (s : State) (a1) (a2) (h : sound v s) : sound v (State.makeRoom s a1 a2) := by
  unfold State.makeRoom; try dsimp only
  repeat' (first | with_reducible assumption | with_reducible refine ite_keep (P := sound _) ?_ ?_ | with_reducible refine State.closeAssembly_sound _ _ _ ?_ | with_reducible refine foldl_keep (P := sound _) (fun _ _ _ => ?_) ?_ | with_reducible refine foldl_fst (P := sound _) (fun _ _ _ => ?_) ?_ | with_reducible refine Pad.restoreWins_wf _ _ _ ?_ | with_reducible refine (Pad.rowDead_mem _ _).symm ▸ ?_ | split)

theorem State.assemble_sound {v} (s : State) (a1) (a2) (h : sound v s) : sound v (State.assemble s a1 a2) := by
  unfold State.assemble; try dsimp only
  repeat' (first | with_reducible assumption | with_reducible refine ite_keep (P := sound _) ?_ ?_ | with_reducible refine foldl_keep (P := sound _) (fun _ _ _ => ?_) ?_ | with_reducible refine foldl_fst (P := sound _) (fun _ _ _ => ?_) ?_ | with_reducible refine Pad.restoreWins_wf _ _ _ ?_ | with_reducible refine (Pad.rowDead_mem _ _).symm ▸ ?_ | split | dsimp only | fail_if_no_progress (rw [sound_mk]; refine sound_of rfl rfl rfl rfl rfl ?_))

theorem State.swClass_sound {v} (s : State) (a1) (h : sound v s) : sound v (State.swClass s a1) := by
  unfold State.swClass; try dsimp only
  repeat' (first | with_reducible assumption | with_reducible refine ite_keep (P := sound _) ?_ ?_ | with_reducible refine State.unreachable_sound _ _ _ ?_ | with_reducible refine State.makeRoom_sound _ _ _ ?_ | with_reducible refine State.assemble_sound _ _ _ ?_ | with_reducible refine foldl_keep (P := sound _) (fun _ _ _ => ?_) ?_ | with_reducible refine foldl_fst (P := sound _) (fun _ _ _ => ?_) ?_ | with_reducible refine Pad.restoreWins_wf _ _ _ ?_ | with_reducible refine (Pad.rowDead_mem _ _).symm ▸ ?_ | split | dsimp only | fail_if_no_progress (rw [sound_mk]; refine sound_of rfl rfl rfl rfl rfl ?_))

theorem State.swTake_sound {v} (s : State) (h : sound v s) : sound v (State.swTake s) := by
  unfold State.swTake; try dsimp only
  repeat' (first | with_reducible assumption | with_reducible refine ite_keep (P := sound _) ?_ ?_ | with_reducible refine State.swClass_sound _ _ ?_ | with_reducible refine foldl_keep (P := sound _) (fun _ _ _ => ?_) ?_)

theorem State.meshRun_sound {v} (g) (n) (s : State) (h : sound v s) : sound v (State.meshRun g n s) := by
  induction n generalizing s with
  | zero => exact h
  | succ n ih =>
    have h1 : sound v (State.swTake { s with fab := s.fab.tick s.device }) :=
      State.swTake_sound _ (by rw [sound_mk]; exact sound_of rfl rfl rfl rfl rfl h)
    unfold State.meshRun; dsimp only
    split
    · exact h
    · split
      · exact h
      · exact ih _ h1

theorem State.deliverMsg_sound {v} (s : State) (a1) (a2) (h : sound v s) : sound v (State.deliverMsg s a1 a2).1 := by
  unfold State.deliverMsg; try dsimp only
  repeat' (first | with_reducible assumption | with_reducible refine ite_keep (P := sound _) ?_ ?_ | with_reducible refine State.meshRun_sound _ _ _ ?_ | with_reducible refine foldl_keep (P := sound _) (fun _ _ _ => ?_) ?_ | with_reducible refine foldl_fst (P := sound _) (fun _ _ _ => ?_) ?_ | with_reducible refine Pad.restoreWins_wf _ _ _ ?_ | with_reducible refine (Pad.rowDead_mem _ _).symm ▸ ?_ | split | dsimp only | fail_if_no_progress (rw [sound_mk]; refine sound_of rfl rfl rfl rfl rfl ?_))
theorem State.deliverMsg_sound_eq {v} {s : State} {a1} {a2} {t} {y} (e : State.deliverMsg s a1 a2 = (t, y)) (h : sound v s) : sound v t := by
  have := State.deliverMsg_sound s a1 a2 h; rwa [e] at this

theorem State.travelled_sound {v} (s : State) (a1) (h : sound v s) : sound v (State.travelled s a1).1 := by
  unfold State.travelled; try dsimp only
  repeat' (first | with_reducible assumption | with_reducible refine ite_keep (P := sound _) ?_ ?_ | with_reducible refine State.countRaise_sound _ _ _ _ _ ?_ | with_reducible refine State.bump_sound _ _ _ ?_ | with_reducible refine foldl_keep (P := sound _) (fun _ _ _ => ?_) ?_ | with_reducible refine foldl_fst (P := sound _) (fun _ _ _ => ?_) ?_ | with_reducible refine Pad.restoreWins_wf _ _ _ ?_ | with_reducible refine (Pad.rowDead_mem _ _).symm ▸ ?_ | split | dsimp only | fail_if_no_progress (rw [sound_mk]; refine sound_of rfl rfl rfl rfl rfl ?_))
theorem State.travelled_sound_eq {v} {s : State} {a1} {t} {y} (e : State.travelled s a1 = (t, y)) (h : sound v s) : sound v t := by
  have := State.travelled_sound s a1 h; rwa [e] at this

theorem State.arrive_sound {v} (s : State) (a1) (a2) (a3) (h : sound v s) : sound v (State.arrive s a1 a2 a3).1 := by
  unfold State.arrive; try dsimp only
  repeat' (first | with_reducible assumption | with_reducible refine ite_keep (P := sound _) ?_ ?_ | with_reducible refine State.deliverMsg_sound _ _ _ ?_ | with_reducible refine State.deliverMsg_sound_eq (by assumption) ?_ | with_reducible refine State.travelled_sound _ _ ?_ | with_reducible refine State.travelled_sound_eq (by assumption) ?_ | with_reducible refine foldl_keep (P := sound _) (fun _ _ _ => ?_) ?_ | with_reducible refine foldl_fst (P := sound _) (fun _ _ _ => ?_) ?_ | with_reducible refine Pad.restoreWins_wf _ _ _ ?_ | with_reducible refine (Pad.rowDead_mem _ _).symm ▸ ?_ | split)
theorem State.arrive_sound_eq {v} {s : State} {a1} {a2} {a3} {t} {y} (e : State.arrive s a1 a2 a3 = (t, y)) (h : sound v s) : sound v t := by
  have := State.arrive_sound s a1 a2 a3 h; rwa [e] at this

theorem State.asWillBe_sound {v} (s : State) (a1) (h : sound v s) : sound v (State.asWillBe s a1) := by
  unfold State.asWillBe; try dsimp only
  repeat' (first | with_reducible assumption | with_reducible refine ite_keep (P := sound _) ?_ ?_ | with_reducible refine foldl_keep (P := sound _) (fun _ _ _ => ?_) ?_ | with_reducible refine foldl_fst (P := sound _) (fun _ _ _ => ?_) ?_ | with_reducible refine Pad.restoreWins_wf _ _ _ ?_ | with_reducible refine (Pad.rowDead_mem _ _).symm ▸ ?_ | split | dsimp only | fail_if_no_progress (rw [sound_mk]; refine sound_of rfl rfl rfl rfl rfl ?_))

theorem State.send_sound {v} (s : State) (a1) (a2) (h : sound v s) : sound v (State.send s a1 a2) := by
  unfold State.send; try dsimp only
  repeat' (first | with_reducible assumption | with_reducible refine ite_keep (P := sound _) ?_ ?_ | with_reducible refine State.meshRun_sound _ _ _ ?_ | with_reducible refine foldl_keep (P := sound _) (fun _ _ _ => ?_) ?_ | with_reducible refine foldl_fst (P := sound _) (fun _ _ _ => ?_) ?_ | with_reducible refine Pad.restoreWins_wf _ _ _ ?_ | with_reducible refine (Pad.rowDead_mem _ _).symm ▸ ?_ | split | dsimp only | fail_if_no_progress (rw [sound_mk]; refine sound_of rfl rfl rfl rfl rfl ?_))

theorem State.issueReq_sound {v} (s : State) (a1) (a2) (h : sound v s) : sound v (State.issueReq s a1 a2) := by
  unfold State.issueReq; try dsimp only
  repeat' (first | with_reducible assumption | with_reducible refine ite_keep (P := sound _) ?_ ?_ | with_reducible refine State.send_sound _ _ _ ?_ | with_reducible refine foldl_keep (P := sound _) (fun _ _ _ => ?_) ?_ | with_reducible refine foldl_fst (P := sound _) (fun _ _ _ => ?_) ?_ | with_reducible refine Pad.restoreWins_wf _ _ _ ?_ | with_reducible refine (Pad.rowDead_mem _ _).symm ▸ ?_ | split | dsimp only | fail_if_no_progress (rw [sound_mk]; refine sound_of rfl rfl rfl rfl rfl ?_))

theorem State.request_sound {v} (s : State) (a1) (a2) (a3) (a4) (a5) (a6) (a7) (h : sound v s) : sound v (State.request s a1 a2 a3 a4 a5 a6 a7) := by
  unfold State.request; try dsimp only
  repeat' (first | with_reducible assumption | with_reducible refine ite_keep (P := sound _) ?_ ?_ | with_reducible refine State.issueReq_sound _ _ _ ?_ | with_reducible refine foldl_keep (P := sound _) (fun _ _ _ => ?_) ?_ | with_reducible refine foldl_fst (P := sound _) (fun _ _ _ => ?_) ?_ | with_reducible refine Pad.restoreWins_wf _ _ _ ?_ | with_reducible refine (Pad.rowDead_mem _ _).symm ▸ ?_ | split | dsimp only | fail_if_no_progress (rw [sound_mk]; refine sound_of rfl rfl rfl rfl rfl ?_))

theorem State.askPiece_sound {v} (s : State) (a1) (a2) (a3) (a4) (a5) (a6) (h : sound v s) : sound v (State.askPiece s a1 a2 a3 a4 a5 a6) := by
  unfold State.askPiece; try dsimp only
  repeat' (first | with_reducible assumption | with_reducible refine ite_keep (P := sound _) ?_ ?_ | with_reducible refine State.request_sound _ _ _ _ _ _ _ _ ?_ | with_reducible refine State.modCore_sound (fun _ => rfl) ?_)

theorem State.askRow_sound {v} (s : State) (a1) (a2) (a3) (a4) (a5) (a6) (a7) (h : sound v s) : sound v (State.askRow s a1 a2 a3 a4 a5 a6 a7) := by
  unfold State.askRow; try dsimp only
  repeat' (first | with_reducible assumption | with_reducible refine ite_keep (P := sound _) ?_ ?_ | with_reducible refine State.askPiece_sound _ _ _ _ _ _ _ ?_ | with_reducible refine foldl_keep (P := sound _) (fun _ _ _ => ?_) ?_)

theorem State.at_sound {v} (s : State) (a1) (h : sound v s) : sound v (State.at s a1) := by
  unfold State.at; try dsimp only
  repeat' (first | with_reducible assumption | with_reducible refine ite_keep (P := sound _) ?_ ?_ | with_reducible refine foldl_keep (P := sound _) (fun _ _ _ => ?_) ?_ | with_reducible refine foldl_fst (P := sound _) (fun _ _ _ => ?_) ?_ | with_reducible refine Pad.restoreWins_wf _ _ _ ?_ | with_reducible refine (Pad.rowDead_mem _ _).symm ▸ ?_ | split | dsimp only | fail_if_no_progress (rw [sound_mk]; refine sound_of rfl rfl rfl rfl rfl ?_))

theorem State.atomCount_sound {v} (s : State) (a1) (a2) (h : sound v s) : sound v (State.atomCount s a1 a2) := by
  unfold State.atomCount; try dsimp only
  repeat' (first | with_reducible assumption | with_reducible refine ite_keep (P := sound _) ?_ ?_ | with_reducible refine State.bump_sound _ _ _ ?_)

theorem State.padAtomic_sound {v} (s : State) (c p w off o d g e) (h : sound v s) : sound v (State.padAtomic s c p w off o d g e).1 := by
  unfold State.padAtomic; dsimp only
  split
  · exact State.accFault_sound _ _ _ _ h
  · split
    · exact State.accFault_sound _ _ _ _ h
    · split
      · exact State.padUncorrectable_sound _ _ _ h
      · split
        · exact State.padFinds_sound _ _ _ _ h
        · refine State.modPad_soundMem (fun k hk => Win.store_wf _ _ _ _ hk) ?_
          exact foldl_keep (P := sound _) (fun t r ht => State.atomCount_sound _ _ _ ht) (State.padFinds_sound _ _ _ _ h)
theorem State.padAtomic_sound_eq {v} {s : State} {c p w off o d g e t y} (q : State.padAtomic s c p w off o d g e = (t, y)) (h : sound v s) : sound v t := by
  have := State.padAtomic_sound s c p w off o d g e h; rwa [q] at this

theorem State.atomicIns_sound {v} (s : State) (a1) (a2) (a3) (a4) (a5) (h : sound v s) : sound v (State.atomicIns s a1 a2 a3 a4 a5) := by
  unfold State.atomicIns; try dsimp only
  repeat' (first | with_reducible assumption | with_reducible refine ite_keep (P := sound _) ?_ ?_ | with_reducible refine State.issue_sound _ _ _ _ _ _ (fun _ _ _ => ?_) ?_ | with_reducible refine ite_keep (P := effSound _) ?_ ?_ | with_reducible refine effSound_next ?_ | with_reducible refine effSound_jump ?_ | with_reducible refine effSound_stay ?_ | with_reducible refine effSound_exc ?_ | with_reducible refine State.padAtomic_sound _ _ _ _ _ _ _ _ _ ?_ | with_reducible refine State.padAtomic_sound_eq (by assumption) ?_ | with_reducible refine State.ws_sound _ _ _ _ ?_ | with_reducible refine foldl_keep (P := sound _) (fun _ _ _ => ?_) ?_ | with_reducible refine foldl_fst (P := sound _) (fun _ _ _ => ?_) ?_ | with_reducible refine Pad.restoreWins_wf _ _ _ ?_ | with_reducible refine (Pad.rowDead_mem _ _).symm ▸ ?_ | split)

theorem State.modPower_sound {v} (s : State) (a1) (h : sound v s) : sound v (State.modPower s a1) := by
  unfold State.modPower; try dsimp only
  repeat' (first | with_reducible assumption | with_reducible refine ite_keep (P := sound _) ?_ ?_ | with_reducible refine foldl_keep (P := sound _) (fun _ _ _ => ?_) ?_ | with_reducible refine foldl_fst (P := sound _) (fun _ _ _ => ?_) ?_ | with_reducible refine Pad.restoreWins_wf _ _ _ ?_ | with_reducible refine (Pad.rowDead_mem _ _).symm ▸ ?_ | split | dsimp only | fail_if_no_progress (rw [sound_mk]; refine sound_of rfl rfl rfl rfl rfl ?_))

theorem State.enterHold_sound {v} (s : State) (h : sound v s) : sound v (State.enterHold s) := by
  unfold State.enterHold; try dsimp only
  repeat' (first | with_reducible assumption | with_reducible refine ite_keep (P := sound _) ?_ ?_ | with_reducible refine State.modPower_sound _ _ ?_ | with_reducible refine State.store_sound _ _ _ ?_ | with_reducible refine State.modIng_sound _ _ ?_ | with_reducible refine State.modSched_sound _ _ ?_ | with_reducible refine State.raise_sound _ _ _ _ _ ?_)

theorem State.leaveHold_sound {v} (s : State) (h : sound v s) : sound v (State.leaveHold s) := by
  unfold State.leaveHold; try dsimp only
  repeat' (first | with_reducible assumption | with_reducible refine ite_keep (P := sound _) ?_ ?_ | with_reducible refine State.modPower_sound _ _ ?_ | with_reducible refine State.bump_sound _ _ _ ?_ | with_reducible refine State.modSched_sound _ _ ?_ | with_reducible refine State.raise_sound _ _ _ _ _ ?_ | with_reducible refine foldl_keep (P := sound _) (fun _ _ _ => ?_) ?_ | with_reducible refine foldl_fst (P := sound _) (fun _ _ _ => ?_) ?_ | with_reducible refine Pad.restoreWins_wf _ _ _ ?_ | with_reducible refine (Pad.rowDead_mem _ _).symm ▸ ?_ | split)

theorem State.showHeap_sound {v} (s : State) (h : sound v s) : sound v (State.showHeap s) := by
  unfold State.showHeap; try dsimp only
  repeat' (first | with_reducible assumption | with_reducible refine ite_keep (P := sound _) ?_ ?_ | with_reducible refine State.setNum_sound _ _ _ ?_)

theorem State.configure_sound {v} (s : State) (h : sound v s) : sound v (State.configure s) := by
  unfold State.configure; try dsimp only
  repeat' (first | with_reducible assumption | with_reducible refine ite_keep (P := sound _) ?_ ?_ | with_reducible refine State.modSched_sound _ _ ?_ | with_reducible refine State.setNum_sound _ _ _ ?_ | with_reducible refine State.modTime_sound _ _ ?_ | with_reducible refine State.showHeap_sound _ ?_ | with_reducible refine foldl_keep (P := sound _) (fun _ _ _ => ?_) ?_)

theorem State.keepHeads_sound {v} (n s : State) (h : sound v n) : sound v (State.keepHeads n s) := by
  unfold State.keepHeads; dsimp only
  refine foldl_keep (P := sound _) (fun t p ht => State.setOct_sound _ _ _ ht) ?_
  rw [sound_mk]; exact sound_of rfl rfl rfl rfl rfl h

theorem State.kept_sound {v} (s : State) (l) (h : sound v s) : sound v (State.kept s l) := by
  refine ⟨h.1, fun e => by simp [State.kept, State.engine, State.reset, Engine.wf], rfl, rfl, fun c => ?_⟩
  simp [State.kept, Core.started, Pad.started, Memory.wf, Sparse.wf, Sparse.wfFrom]

theorem State.setMarigold_sound {v} (s : State) (a1) (h : sound v s) : sound v (State.setMarigold s a1) := by
  unfold State.setMarigold; try dsimp only
  repeat' (first | with_reducible assumption | with_reducible refine ite_keep (P := sound _) ?_ ?_ | with_reducible refine State.setNum_sound _ _ _ ?_)

theorem State.decommissioned_sound {v} (s : State) (h : sound v s) : sound v (State.decommissioned s) := by
  unfold State.decommissioned; try dsimp only
  repeat' (first | with_reducible assumption | with_reducible refine ite_keep (P := sound _) ?_ ?_ | with_reducible refine State.enterSafe_sound _ _ ?_ | with_reducible refine State.setMarigold_sound _ _ ?_ | with_reducible refine State.modSafety_sound _ _ ?_)

theorem State.countStart_sound {v} (s : State) (a1) (h : sound v s) : sound v (State.countStart s a1) := by
  unfold State.countStart; try dsimp only
  repeat' (first | with_reducible assumption | with_reducible refine ite_keep (P := sound _) ?_ ?_ | with_reducible refine State.store_sound _ _ _ ?_ | with_reducible refine State.setNum_sound _ _ _ ?_)

theorem State.startUp_sound {v} (s : State) (a1) (a2) (h : sound v s) : sound v (State.startUp s a1 a2) := by
  unfold State.startUp; try dsimp only
  repeat' (first | with_reducible assumption | with_reducible refine ite_keep (P := sound _) ?_ ?_ | with_reducible refine State.applyArmed_sound _ ?_ | with_reducible refine State.configure_sound _ ?_ | with_reducible refine State.keepHeads_sound _ _ ?_ | with_reducible refine State.kept_sound _ _ ?_ | with_reducible refine State.decommissioned_sound _ ?_ | with_reducible refine State.countStart_sound _ _ ?_ | with_reducible refine State.setNum_sound _ _ _ ?_)

theorem State.bootUp_sound {v} (s : State) (a1) (h : sound v s) : sound v (State.bootUp s a1) := by
  unfold State.bootUp; try dsimp only
  repeat' (first | with_reducible assumption | with_reducible refine ite_keep (P := sound _) ?_ ?_ | with_reducible refine State.store_sound _ _ _ ?_ | with_reducible refine State.startUp_sound _ _ _ ?_ | with_reducible refine State.modPower_sound _ _ ?_ | with_reducible refine foldl_keep (P := sound _) (fun _ _ _ => ?_) ?_ | with_reducible refine foldl_fst (P := sound _) (fun _ _ _ => ?_) ?_ | with_reducible refine Pad.restoreWins_wf _ _ _ ?_ | with_reducible refine (Pad.rowDead_mem _ _).symm ▸ ?_ | split | dsimp only | fail_if_no_progress (rw [sound_mk]; refine sound_of rfl rfl rfl rfl rfl ?_))

theorem State.leaveOff_sound {v} (s : State) (h : sound v s) : sound v (State.leaveOff s) := by
  unfold State.leaveOff; try dsimp only
  repeat' (first | with_reducible assumption | with_reducible refine ite_keep (P := sound _) ?_ ?_ | with_reducible refine State.bootUp_sound _ _ ?_ | with_reducible refine State.setNum_sound _ _ _ ?_)

theorem State.bandEffects_sound {v} (s : State) (a1) (a2) (h : sound v s) : sound v (State.bandEffects s a1 a2) := by
  unfold State.bandEffects; try dsimp only
  repeat' (first | with_reducible assumption | with_reducible refine ite_keep (P := sound _) ?_ ?_ | with_reducible refine State.modPower_sound _ _ ?_ | with_reducible refine State.enterHold_sound _ ?_ | with_reducible refine State.leaveHold_sound _ ?_ | with_reducible refine State.bump_sound _ _ _ ?_ | with_reducible refine State.setNum_sound _ _ _ ?_ | with_reducible refine State.leaveOff_sound _ ?_)

theorem State.resume_sound {v} (s : State) (a1) (h : sound v s) : sound v (State.resume s a1) := by
  unfold State.resume; try dsimp only
  repeat' (first | with_reducible assumption | with_reducible refine ite_keep (P := sound _) ?_ ?_ | with_reducible refine State.modSeq_sound _ _ _ ?_)

theorem State.kset_sound {v} (s : State) (a1) (a2) (a3) (h : sound v s) : sound v (State.kset s a1 a2 a3) := by
  unfold State.kset; try dsimp only
  repeat' (first | with_reducible assumption | with_reducible refine ite_keep (P := sound _) ?_ ?_ | with_reducible refine State.modPad_soundMem (fun _ hm => Pad.closeAll_wf _ hm) ?_ | with_reducible refine State.modPad_soundMem (fun _ hm => Pad.close_wf _ _ _ hm) ?_ | with_reducible refine State.modPad_soundMem (fun _ hm => Pad.load_wf _ _ _ _ _ hm) ?_ | with_reducible refine State.modPad_soundMem (fun _ hm => Pad.write_wf _ _ _ _ hm) ?_ | with_reducible refine State.modPad_soundMem (fun _ hm => Pad.closeConfidential_wf _ hm) ?_ | with_reducible refine State.modPad_sound (fun _ => rfl) ?_)

theorem State.barTry_sound {v} (s : State) (a1) (h : sound v s) : sound v (State.barTry s a1) := by
  unfold State.barTry; try dsimp only
  repeat' (first | with_reducible assumption | with_reducible refine ite_keep (P := sound _) ?_ ?_ | with_reducible refine State.resume_sound _ _ ?_ | with_reducible refine State.kset_sound _ _ _ _ ?_ | with_reducible refine foldl_keep (P := sound _) (fun _ _ _ => ?_) ?_ | with_reducible refine foldl_fst (P := sound _) (fun _ _ _ => ?_) ?_ | with_reducible refine Pad.restoreWins_wf _ _ _ ?_ | with_reducible refine (Pad.rowDead_mem _ _).symm ▸ ?_ | split)

theorem State.modSec_sound {v} (s : State) (a1) (h : sound v s) : sound v (State.modSec s a1) := by
  unfold State.modSec; try dsimp only
  repeat' (first | with_reducible assumption | with_reducible refine ite_keep (P := sound _) ?_ ?_ | with_reducible refine foldl_keep (P := sound _) (fun _ _ _ => ?_) ?_ | with_reducible refine foldl_fst (P := sound _) (fun _ _ _ => ?_) ?_ | with_reducible refine Pad.restoreWins_wf _ _ _ ?_ | with_reducible refine (Pad.rowDead_mem _ _).symm ▸ ?_ | split | dsimp only | fail_if_no_progress (rw [sound_mk]; refine sound_of rfl rfl rfl rfl rfl ?_))

theorem State.dropWords_sound {v} (s : State) (h : sound v s) : sound v (State.dropWords s) := by
  unfold State.dropWords; try dsimp only
  repeat' (first | with_reducible assumption | with_reducible refine ite_keep (P := sound _) ?_ ?_ | with_reducible refine foldl_keep (P := sound _) (fun _ _ _ => ?_) ?_ | with_reducible refine foldl_fst (P := sound _) (fun _ _ _ => ?_) ?_ | with_reducible refine Pad.restoreWins_wf _ _ _ ?_ | with_reducible refine (Pad.rowDead_mem _ _).symm ▸ ?_ | split | dsimp only | fail_if_no_progress (rw [sound_mk]; refine sound_of rfl rfl rfl rfl rfl ?_))

theorem State.dropPrograms_sound {v} (s : State) (h : sound v s) : sound v (State.dropPrograms s) := by
  unfold State.dropPrograms; try dsimp only
  repeat' (first | with_reducible assumption | with_reducible refine ite_keep (P := sound _) ?_ ?_ | with_reducible refine State.setOct_sound _ _ _ ?_ | with_reducible refine State.setNum_sound _ _ _ ?_ | with_reducible refine State.dropWords_sound _ ?_ | with_reducible refine foldl_keep (P := sound _) (fun _ _ _ => ?_) ?_)

theorem State.showVers_sound {v} (s : State) (a1) (h : sound v s) : sound v (State.showVers s a1) := by
  unfold State.showVers; try dsimp only
  repeat' (first | with_reducible assumption | with_reducible refine ite_keep (P := sound _) ?_ ?_ | with_reducible refine State.setOct_sound _ _ _ ?_ | with_reducible refine foldl_keep (P := sound _) (fun _ _ _ => ?_) ?_)

theorem State.emptyTables_sound {v} (s : State) (h : sound v s) : sound v (State.emptyTables s) := by
  unfold State.emptyTables; try dsimp only
  repeat' (first | with_reducible assumption | with_reducible refine ite_keep (P := sound _) ?_ ?_ | with_reducible refine State.showVers_sound _ _ ?_ | with_reducible refine State.modTable_sound _ _ _ ?_ | with_reducible refine foldl_keep (P := sound _) (fun _ _ _ => ?_) ?_)

theorem State.eraseDram_sound {v} (s : State) (h : sound v s) : sound v (State.eraseDram s) := by
  unfold State.eraseDram
  exact State.modNet_sound _ _ (State.emptyTables_sound _ (State.modExt_soundMem (fun x _ hh => ⟨Memory.wf_nil, hh⟩) h))

theorem State.unstore_sound {v} (s : State) (a1) (h : sound v s) : sound v (State.unstore s a1) := by
  unfold State.unstore; try dsimp only
  repeat' (first | with_reducible assumption | with_reducible refine ite_keep (P := sound _) ?_ ?_ | with_reducible refine foldl_keep (P := sound _) (fun _ _ _ => ?_) ?_ | with_reducible refine foldl_fst (P := sound _) (fun _ _ _ => ?_) ?_ | with_reducible refine Pad.restoreWins_wf _ _ _ ?_ | with_reducible refine (Pad.rowDead_mem _ _).symm ▸ ?_ | split | dsimp only | fail_if_no_progress (rw [sound_mk]; refine sound_of rfl rfl rfl rfl rfl ?_))

theorem State.eraseOemKeys_sound {v} (s : State) (h : sound v s) : sound v (State.eraseOemKeys s) := by
  unfold State.eraseOemKeys; try dsimp only
  repeat' (first | with_reducible assumption | with_reducible refine ite_keep (P := sound _) ?_ ?_ | with_reducible refine State.unstore_sound _ _ ?_ | with_reducible refine foldl_keep (P := sound _) (fun _ _ _ => ?_) ?_)

theorem State.eraseOemParts_sound {v} (s : State) (h : sound v s) : sound v (State.eraseOemParts s) := by
  unfold State.eraseOemParts; try dsimp only
  repeat' (first | with_reducible assumption | with_reducible refine ite_keep (P := sound _) ?_ ?_ | with_reducible refine State.modSec_sound _ _ ?_)

theorem State.eraseReturned_sound {v} (s : State) (h : sound v s) : sound v (State.eraseReturned s) := by
  unfold State.eraseReturned; try dsimp only
  repeat' (first | with_reducible assumption | with_reducible refine ite_keep (P := sound _) ?_ ?_ | with_reducible refine State.showHeap_sound _ ?_ | with_reducible refine State.dropPrograms_sound _ ?_ | with_reducible refine State.eraseDram_sound _ ?_ | with_reducible refine State.eraseOemKeys_sound _ ?_ | with_reducible refine State.eraseOemParts_sound _ ?_ | with_reducible refine State.noSchedule_sound _ ?_)

theorem State.stopMarigold_sound {v} (s : State) (h : sound v s) : sound v (State.stopMarigold s) := by
  unfold State.stopMarigold; try dsimp only
  repeat' (first | with_reducible assumption | with_reducible refine ite_keep (P := sound _) ?_ ?_ | with_reducible refine State.modSafety_sound _ _ ?_ | with_reducible refine State.setMarigold_sound _ _ ?_ | with_reducible refine State.raise_sound _ _ _ _ _ ?_ | with_reducible refine State.causeComp_sound _ _ _ ?_ | with_reducible refine State.enterSafe_sound _ _ ?_)

theorem State.openLevels_sound {v} (s : State) (h : sound v s) : sound v (State.openLevels s) := by
  unfold State.openLevels; try dsimp only
  repeat' (first | with_reducible assumption | with_reducible refine ite_keep (P := sound _) ?_ ?_ | with_reducible refine foldl_keep (P := sound _) (fun _ _ _ => ?_) ?_ | with_reducible refine foldl_fst (P := sound _) (fun _ _ _ => ?_) ?_ | with_reducible refine Pad.restoreWins_wf _ _ _ ?_ | with_reducible refine (Pad.rowDead_mem _ _).symm ▸ ?_ | split | dsimp only | fail_if_no_progress (rw [sound_mk]; refine sound_of rfl rfl rfl rfl rfl ?_))

theorem State.eraseSrv_sound {v} (s : State) (h : sound v s) : sound v (State.eraseSrv s) := by
  unfold State.eraseSrv; try dsimp only
  repeat' (first | with_reducible assumption | with_reducible refine ite_keep (P := sound _) ?_ ?_ | with_reducible refine foldl_keep (P := sound _) (fun _ _ _ => ?_) ?_ | with_reducible refine foldl_fst (P := sound _) (fun _ _ _ => ?_) ?_ | with_reducible refine Pad.restoreWins_wf _ _ _ ?_ | with_reducible refine (Pad.rowDead_mem _ _).symm ▸ ?_ | split | dsimp only | fail_if_no_progress (rw [sound_mk]; refine sound_of rfl rfl rfl rfl rfl ?_))

theorem State.eraseHeads_sound {v} (s : State) (h : sound v s) : sound v (State.eraseHeads s) := by
  unfold State.eraseHeads; try dsimp only
  repeat' (first | with_reducible assumption | with_reducible refine ite_keep (P := sound _) ?_ ?_ | with_reducible refine foldl_keep (P := sound _) (fun _ _ _ => ?_) ?_ | with_reducible refine foldl_fst (P := sound _) (fun _ _ _ => ?_) ?_ | with_reducible refine Pad.restoreWins_wf _ _ _ ?_ | with_reducible refine (Pad.rowDead_mem _ _).symm ▸ ?_ | split | dsimp only | fail_if_no_progress (rw [sound_mk]; refine sound_of rfl rfl rfl rfl rfl ?_))

theorem State.eraseStored_sound {v} (s : State) (h : sound v s) : sound v (State.eraseStored s) := by
  unfold State.eraseStored; try dsimp only
  repeat' (first | with_reducible assumption | with_reducible refine ite_keep (P := sound _) ?_ ?_ | with_reducible refine foldl_keep (P := sound _) (fun _ _ _ => ?_) ?_ | with_reducible refine foldl_fst (P := sound _) (fun _ _ _ => ?_) ?_ | with_reducible refine Pad.restoreWins_wf _ _ _ ?_ | with_reducible refine (Pad.rowDead_mem _ _).symm ▸ ?_ | split | dsimp only | fail_if_no_progress (rw [sound_mk]; refine sound_of rfl rfl rfl rfl rfl ?_))

theorem State.eraseParts_sound {v} (s : State) (h : sound v s) : sound v (State.eraseParts s) := by
  unfold State.eraseParts; try dsimp only
  repeat' (first | with_reducible assumption | with_reducible refine ite_keep (P := sound _) ?_ ?_ | with_reducible refine State.modSec_sound _ _ ?_)

theorem State.eraseAll_sound {v} (s : State) (h : sound v s) : sound v (State.eraseAll s) := by
  unfold State.eraseAll; try dsimp only
  repeat' (first | with_reducible assumption | with_reducible refine ite_keep (P := sound _) ?_ ?_ | with_reducible refine State.enterSafe_sound _ _ ?_ | with_reducible refine State.showHeap_sound _ ?_ | with_reducible refine State.stopMarigold_sound _ ?_ | with_reducible refine State.modSafety_sound _ _ ?_ | with_reducible refine State.openLevels_sound _ ?_ | with_reducible refine State.eraseSrv_sound _ ?_ | with_reducible refine State.eraseHeads_sound _ ?_ | with_reducible refine State.eraseStored_sound _ ?_ | with_reducible refine State.eraseParts_sound _ ?_ | with_reducible refine State.eraseReturned_sound _ ?_)

theorem State.setBase_sound {v} (s : State) (a1) (h : sound v s) : sound v (State.setBase s a1) := by
  unfold State.setBase; try dsimp only
  repeat' (first | with_reducible assumption | with_reducible refine ite_keep (P := sound _) ?_ ?_ | with_reducible refine State.modSec_sound _ _ ?_ | with_reducible refine State.eraseReturned_sound _ ?_ | with_reducible refine State.eraseAll_sound _ ?_ | with_reducible refine foldl_keep (P := sound _) (fun _ _ _ => ?_) ?_ | with_reducible refine foldl_fst (P := sound _) (fun _ _ _ => ?_) ?_ | with_reducible refine Pad.restoreWins_wf _ _ _ ?_ | with_reducible refine (Pad.rowDead_mem _ _).symm ▸ ?_ | split)

theorem State.baseAfter_sound {v} (s : State) (a1) (h : sound v s) : sound v (State.baseAfter s a1) := by
  unfold State.baseAfter; try dsimp only
  repeat' (first | with_reducible assumption | with_reducible refine ite_keep (P := sound _) ?_ ?_ | with_reducible refine State.setBase_sound _ _ ?_ | with_reducible refine foldl_keep (P := sound _) (fun _ _ _ => ?_) ?_ | with_reducible refine foldl_fst (P := sound _) (fun _ _ _ => ?_) ?_ | with_reducible refine Pad.restoreWins_wf _ _ _ ?_ | with_reducible refine (Pad.rowDead_mem _ _).symm ▸ ?_ | split)

theorem State.wipeCore_sound {v} (s : State) (c) (h : sound v s) : sound v (State.wipeCore s c) := by
  unfold State.wipeCore; dsimp only
  exact State.modCore_soundMem (fun k hk => Pad.closeConfidential_wf k.pad hk) h

theorem State.wipeCores_sound {v} (s : State) (h : sound v s) : sound v (State.wipeCores s) := by
  unfold State.wipeCores; try dsimp only
  repeat' (first | with_reducible assumption | with_reducible refine ite_keep (P := sound _) ?_ ?_ | with_reducible refine State.wipeCore_sound _ _ ?_ | with_reducible refine State.endEvery_sound _ ?_ | with_reducible refine foldl_keep (P := sound _) (fun _ _ _ => ?_) ?_)

theorem State.beginWipe_sound {v} (s : State) (a1) (h : sound v s) : sound v (State.beginWipe s a1) := by
  unfold State.beginWipe; try dsimp only
  repeat' (first | with_reducible assumption | with_reducible refine ite_keep (P := sound _) ?_ ?_ | with_reducible refine State.modSec_sound _ _ ?_ | with_reducible refine State.wipeCores_sound _ ?_)

theorem State.blobValue_sound {v} (s : State) (a1) (a2) (a3) (a4) (h : sound v s) : sound v (State.blobValue s a1 a2 a3 a4).1 := by
  unfold State.blobValue; try dsimp only
  repeat' (first | with_reducible assumption | with_reducible refine ite_keep (P := sound _) ?_ ?_ | with_reducible refine State.dramGet_sound _ _ _ _ ?_ | with_reducible refine State.dramGet_sound_eq (by assumption) ?_ | with_reducible refine foldl_keep (P := sound _) (fun _ _ _ => ?_) ?_ | with_reducible refine foldl_fst (P := sound _) (fun _ _ _ => ?_) ?_ | with_reducible refine Pad.restoreWins_wf _ _ _ ?_ | with_reducible refine (Pad.rowDead_mem _ _).symm ▸ ?_ | split)
theorem State.blobValue_sound_eq {v} {s : State} {a1} {a2} {a3} {a4} {t} {y} (e : State.blobValue s a1 a2 a3 a4 = (t, y)) (h : sound v s) : sound v t := by
  have := State.blobValue_sound s a1 a2 a3 a4 h; rwa [e] at this

theorem State.blockIn_sound {v} (s : State) (a1) (a2) (h : sound v s) : sound v (State.blockIn s a1 a2).1 := by
  unfold State.blockIn; try dsimp only
  repeat' (first | with_reducible assumption | with_reducible refine ite_keep (P := sound _) ?_ ?_ | with_reducible refine foldl_keep (P := sound _) (fun _ _ _ => ?_) ?_ | with_reducible refine foldl_fst (P := sound _) (fun _ _ _ => ?_) ?_ | with_reducible refine Pad.restoreWins_wf _ _ _ ?_ | with_reducible refine (Pad.rowDead_mem _ _).symm ▸ ?_ | split | dsimp only | fail_if_no_progress (rw [sound_mk]; refine sound_of rfl rfl rfl rfl rfl ?_))
theorem State.blockIn_sound_eq {v} {s : State} {a1} {a2} {t} {y} (e : State.blockIn s a1 a2 = (t, y)) (h : sound v s) : sound v t := by
  have := State.blockIn_sound s a1 a2 h; rwa [e] at this

theorem State.modTopk_sound {v} (s : State) (a1) (a2) (h : sound v s) : sound v (State.modTopk s a1 a2) := by
  unfold State.modTopk; try dsimp only
  repeat' (first | with_reducible assumption | with_reducible refine ite_keep (P := sound _) ?_ ?_ | with_reducible refine State.modSeq_sound _ _ _ ?_)

theorem State.takeBlock_sound {v} (s : State) (a1) (a2) (h : sound v s) : sound v (State.takeBlock s a1 a2) := by
  unfold State.takeBlock; try dsimp only
  repeat' (first | with_reducible assumption | with_reducible refine ite_keep (P := sound _) ?_ ?_ | with_reducible refine State.modCore_sound (fun _ => rfl) ?_ | with_reducible refine State.modCore_soundMem (fun _ hm => ?_) ?_ | with_reducible refine State.raise_sound _ _ _ _ _ ?_ | with_reducible refine State.bump_sound _ _ _ ?_ | with_reducible refine State.modTopk_sound _ _ _ ?_ | with_reducible refine State.raiseIng_sound _ _ _ _ _ ?_ | with_reducible refine foldl_keep (P := sound _) (fun _ _ _ => ?_) ?_)

end Sys2Proof.Machine
end

