-- ==== Sys2Proof/Laws/Sound03.lean ====
section
/-! SUPPORT. What operations and meanings keep, part 4 of 12: the queue of waiting commands, every parser engine as R55 and R59 have it, and the
canonical form of every byte memory (`sound`). Callees come before their callers, so a lemma cites those of the operations it unfolds to. -/

namespace Sys2Proof.Machine

theorem State.sendColl_sound {v} (s : State) (a1) (a2) (a3) (a4) (a5) (a6) (a7) (a8) (h : sound v s) : sound v (State.sendColl s a1 a2 a3 a4 a5 a6 a7 a8) := by
  unfold State.sendColl; try dsimp only
  repeat' (first | with_reducible assumption | with_reducible refine ite_keep (P := sound _) ?_ ?_ | with_reducible refine State.send_sound _ _ _ ?_)

theorem State.sendBlock_sound {v} (s : State) (a1) (a2) (a3) (a4) (a5) (a6) (h : sound v s) : sound v (State.sendBlock s a1 a2 a3 a4 a5 a6) := by
  unfold State.sendBlock; try dsimp only
  repeat' (first | with_reducible assumption | with_reducible refine ite_keep (P := sound _) ?_ ?_ | with_reducible refine State.sendColl_sound _ _ _ _ _ _ _ _ _ ?_ | with_reducible refine foldl_keep (P := sound _) (fun _ _ _ => ?_) ?_)

theorem State.sendDown_sound {v} (s : State) (a1) (a2) (a3) (a4) (a5) (h : sound v s) : sound v (State.sendDown s a1 a2 a3 a4 a5) := by
  unfold State.sendDown; try dsimp only
  repeat' (first | with_reducible assumption | with_reducible refine ite_keep (P := sound _) ?_ ?_ | with_reducible refine State.sendBlock_sound _ _ _ _ _ _ _ ?_ | with_reducible refine foldl_keep (P := sound _) (fun _ _ _ => ?_) ?_)

theorem State.mergeTry_sound {v} (s : State) (a1) (h : sound v s) : sound v (State.mergeTry s a1) := by
  unfold State.mergeTry; try dsimp only
  repeat' (first | with_reducible assumption | with_reducible refine ite_keep (P := sound _) ?_ ?_ | with_reducible refine State.takeBlock_sound _ _ _ ?_ | with_reducible refine State.modCore_sound (fun _ => rfl) ?_ | with_reducible refine State.modCore_soundMem (fun _ hm => ?_) ?_ | with_reducible refine State.modTopk_sound _ _ _ ?_ | with_reducible refine State.sendDown_sound _ _ _ _ _ _ ?_ | with_reducible refine State.resume_sound _ _ ?_ | with_reducible refine State.sendBlock_sound _ _ _ _ _ _ _ ?_ | with_reducible refine foldl_keep (P := sound _) (fun _ _ _ => ?_) ?_ | with_reducible refine foldl_fst (P := sound _) (fun _ _ _ => ?_) ?_ | with_reducible refine Pad.restoreWins_wf _ _ _ ?_ | with_reducible refine (Pad.rowDead_mem _ _).symm ▸ ?_ | split)

theorem State.blockMsg_sound {v} (s : State) (a1) (a2) (a3) (h : sound v s) : sound v (State.blockMsg s a1 a2 a3) := by
  unfold State.blockMsg; try dsimp only
  repeat' (first | with_reducible assumption | with_reducible refine ite_keep (P := sound _) ?_ ?_ | with_reducible refine State.modCore_sound (fun _ => rfl) ?_ | with_reducible refine State.modCore_soundMem (fun _ hm => ?_) ?_ | with_reducible refine State.mergeTry_sound _ _ ?_)

theorem State.indexRec_sound {v} (s : State) (a1) (a2) (a3) (a4) (a5) (h : sound v s) : sound v (State.indexRec s a1 a2 a3 a4 a5).1 := by
  unfold State.indexRec; try dsimp only
  repeat' (first | with_reducible assumption | with_reducible refine ite_keep (P := sound _) ?_ ?_ | with_reducible refine State.padRead_sound _ _ _ _ _ _ _ _ ?_)
theorem State.indexRec_sound_eq {v} {s : State} {a1} {a2} {a3} {a4} {a5} {t} {y} (e : State.indexRec s a1 a2 a3 a4 a5 = (t, y)) (h : sound v s) : sound v t := by
  have := State.indexRec_sound s a1 a2 a3 a4 a5 h; rwa [e] at this

theorem State.skipIndex_sound {v} (s : State) (a1) (h : sound v s) : sound v (State.skipIndex s a1) := by
  unfold State.skipIndex; try dsimp only
  repeat' (first | with_reducible assumption | with_reducible refine ite_keep (P := sound _) ?_ ?_ | with_reducible refine State.bump_sound _ _ _ ?_)

theorem State.rowRead_sound {v} (s : State) (a1) (a2) (a3) (a4) (a5) (a6) (a7) (h : sound v s) : sound v (State.rowRead s a1 a2 a3 a4 a5 a6 a7).1 := by
  unfold State.rowRead; try dsimp only
  repeat' (first | with_reducible assumption | with_reducible refine ite_keep (P := sound _) ?_ ?_ | with_reducible refine State.padRead_sound _ _ _ _ _ _ _ _ ?_ | with_reducible refine State.padRead_sound_eq (by assumption) ?_ | with_reducible refine State.dramGet_sound _ _ _ _ ?_ | with_reducible refine State.dramGet_sound_eq (by assumption) ?_ | with_reducible refine State.indexRec_sound _ _ _ _ _ _ ?_ | with_reducible refine State.indexRec_sound_eq (by assumption) ?_ | with_reducible refine State.skipIndex_sound _ _ ?_ | with_reducible refine foldl_keep (P := sound _) (fun _ _ _ => ?_) ?_ | with_reducible refine foldl_fst (P := sound _) (fun _ _ _ => ?_) ?_ | with_reducible refine Pad.restoreWins_wf _ _ _ ?_ | with_reducible refine (Pad.rowDead_mem _ _).symm ▸ ?_ | split)
theorem State.rowRead_sound_eq {v} {s : State} {a1} {a2} {a3} {a4} {a5} {a6} {a7} {t} {y} (e : State.rowRead s a1 a2 a3 a4 a5 a6 a7 = (t, y)) (h : sound v s) : sound v t := by
  have := State.rowRead_sound s a1 a2 a3 a4 a5 a6 a7 h; rwa [e] at this

theorem State.rowsRead_sound {v} (s : State) (c p pc d n e) (k r : Nat) (h : sound v s) : sound v (State.rowsRead s c p pc d n e k r).1 := by
  induction k generalizing s r e with
  | zero => exact h
  | succ k ih =>
    unfold State.rowsRead
    have h1 := State.rowRead_sound s c p pc d r n e h
    split <;> rename_i hx <;> rw [hx] at h1
    · exact h1
    · rename_i s1 _
      have h2 := ih s1 (findsAfter e (d.words n)) (r + 1) h1
      split <;> rename_i hy <;> rw [hy] at h2 <;> exact h2
theorem State.rowsRead_sound_eq {v} {s : State} {a1} {a2} {a3} {a4} {a5} {a6} {a7} {a8} {t} {y} (e : State.rowsRead s a1 a2 a3 a4 a5 a6 a7 a8 = (t, y)) (h : sound v s) : sound v t := by
  have := State.rowsRead_sound (v := v) s a1 a2 a3 a4 a5 a6 a7 a8 h; rwa [e] at this

theorem State.blockRows_sound {v} (s : State) (a1) (a2) (a3) (a4) (h : sound v s) : sound v (State.blockRows s a1 a2 a3 a4).1 := by
  unfold State.blockRows; try dsimp only
  repeat' (first | with_reducible assumption | with_reducible refine ite_keep (P := sound _) ?_ ?_ | with_reducible refine State.rowsRead_sound _ _ _ _ _ _ _ _ _ ?_ | with_reducible refine State.rowsRead_sound_eq (by assumption) ?_ | with_reducible refine foldl_keep (P := sound _) (fun _ _ _ => ?_) ?_ | with_reducible refine foldl_fst (P := sound _) (fun _ _ _ => ?_) ?_ | with_reducible refine Pad.restoreWins_wf _ _ _ ?_ | with_reducible refine (Pad.rowDead_mem _ _).symm ▸ ?_ | split)
theorem State.blockRows_sound_eq {v} {s : State} {a1} {a2} {a3} {a4} {t} {y} (e : State.blockRows s a1 a2 a3 a4 = (t, y)) (h : sound v s) : sound v t := by
  have := State.blockRows_sound s a1 a2 a3 a4 h; rwa [e] at this

theorem State.snapPublish_sound {v} (s : State) (h : sound v s) : sound v (State.snapPublish s) := by
  unfold State.snapPublish; try dsimp only
  repeat' (first | with_reducible assumption | with_reducible refine ite_keep (P := sound _) ?_ ?_ | with_reducible refine State.setNum_sound _ _ _ ?_ | with_reducible refine foldl_keep (P := sound _) (fun _ _ _ => ?_) ?_ | with_reducible refine foldl_fst (P := sound _) (fun _ _ _ => ?_) ?_ | with_reducible refine Pad.restoreWins_wf _ _ _ ?_ | with_reducible refine (Pad.rowDead_mem _ _).symm ▸ ?_ | split | dsimp only | fail_if_no_progress (rw [sound_mk]; refine sound_of rfl rfl rfl rfl rfl ?_))

theorem State.booksBoundary_sound {v} (s : State) (a1) (h : sound v s) : sound v (State.booksBoundary s a1) := by
  unfold State.booksBoundary; try dsimp only
  repeat' (first | with_reducible assumption | with_reducible refine ite_keep (P := sound _) ?_ ?_ | with_reducible refine State.snapPublish_sound _ ?_ | with_reducible refine foldl_keep (P := sound _) (fun _ _ _ => ?_) ?_ | with_reducible refine foldl_fst (P := sound _) (fun _ _ _ => ?_) ?_ | with_reducible refine Pad.restoreWins_wf _ _ _ ?_ | with_reducible refine (Pad.rowDead_mem _ _).symm ▸ ?_ | split | dsimp only | fail_if_no_progress (rw [sound_mk]; refine sound_of rfl rfl rfl rfl rfl ?_))

theorem State.bootFail_sound {v} (s : State) (a1) (h : sound v s) : sound v (State.bootFail s a1) := by
  unfold State.bootFail; try dsimp only
  repeat' (first | with_reducible assumption | with_reducible refine ite_keep (P := sound _) ?_ ?_ | with_reducible refine State.raise_sound _ _ _ _ _ ?_ | with_reducible refine State.modHead_sound _ _ _ ?_)

theorem State.checked_sound {v} (s : State) (a1) (h : sound v s) : sound v (State.checked s a1).1 := by
  unfold State.checked; try dsimp only
  repeat' (first | with_reducible assumption | with_reducible refine ite_keep (P := sound _) ?_ ?_ | with_reducible refine State.damage_sound _ _ ?_ | with_reducible refine foldl_keep (P := sound _) (fun _ _ _ => ?_) ?_ | with_reducible refine foldl_fst (P := sound _) (fun _ _ _ => ?_) ?_ | with_reducible refine Pad.restoreWins_wf _ _ _ ?_ | with_reducible refine (Pad.rowDead_mem _ _).symm ▸ ?_ | split)
theorem State.checked_sound_eq {v} {s : State} {a1} {t} {y} (e : State.checked s a1 = (t, y)) (h : sound v s) : sound v t := by
  have := State.checked_sound s a1 h; rwa [e] at this

theorem State.extend_sound {v} (s : State) (a1) (a2) (h : sound v s) : sound v (State.extend s a1 a2) := by
  unfold State.extend; try dsimp only
  repeat' (first | with_reducible assumption | with_reducible refine ite_keep (P := sound _) ?_ ?_ | with_reducible refine foldl_keep (P := sound _) (fun _ _ _ => ?_) ?_ | with_reducible refine foldl_fst (P := sound _) (fun _ _ _ => ?_) ?_ | with_reducible refine Pad.restoreWins_wf _ _ _ ?_ | with_reducible refine (Pad.rowDead_mem _ _).symm ▸ ?_ | split | dsimp only | fail_if_no_progress (rw [sound_mk]; refine sound_of rfl rfl rfl rfl rfl ?_))

theorem State.measure_sound {v} (s : State) (a1) (a2) (h : sound v s) : sound v (State.measure s a1 a2) := by
  unfold State.measure; try dsimp only
  repeat' (first | with_reducible assumption | with_reducible refine ite_keep (P := sound _) ?_ ?_ | with_reducible refine State.extend_sound _ _ _ ?_)

theorem State.measureComp_sound {v} (s : State) (a1) (h : sound v s) : sound v (State.measureComp s a1) := by
  unfold State.measureComp; try dsimp only
  repeat' (first | with_reducible assumption | with_reducible refine ite_keep (P := sound _) ?_ ?_ | with_reducible refine State.measure_sound _ _ _ ?_)

theorem State.loadMarigold_sound {v} (s : State) (a1) (h : sound v s) : sound v (State.loadMarigold s a1) := by
  unfold State.loadMarigold
  exact State.setNum_sound _ _ _ (State.modExt_soundMem (fun x hd hh => ⟨hd, Sparse.wf_putN zeroByte _ _ _ hh⟩) h)

theorem State.bootMarigold_sound {v} (s : State) (h : sound v s) : sound v (State.bootMarigold s) := by
  unfold State.bootMarigold; try dsimp only
  repeat' (first | with_reducible assumption | with_reducible refine ite_keep (P := sound _) ?_ ?_ | with_reducible refine State.stopMarigold_sound _ ?_ | with_reducible refine State.checked_sound _ _ ?_ | with_reducible refine State.checked_sound_eq (by assumption) ?_ | with_reducible refine State.measureComp_sound _ _ ?_ | with_reducible refine State.loadMarigold_sound _ _ ?_ | with_reducible refine State.setMarigold_sound _ _ ?_ | with_reducible refine foldl_keep (P := sound _) (fun _ _ _ => ?_) ?_ | with_reducible refine foldl_fst (P := sound _) (fun _ _ _ => ?_) ?_ | with_reducible refine Pad.restoreWins_wf _ _ _ ?_ | with_reducible refine (Pad.rowDead_mem _ _).symm ▸ ?_ | split)

theorem State.enterRecovery_sound {v} (s : State) (a1) (h : sound v s) : sound v (State.enterRecovery s a1) := by
  unfold State.enterRecovery; try dsimp only
  repeat' (first | with_reducible assumption | with_reducible refine ite_keep (P := sound _) ?_ ?_ | with_reducible refine State.modSec_sound _ _ ?_ | with_reducible refine State.raise_sound _ _ _ _ _ ?_ | with_reducible refine State.modPower_sound _ _ ?_)

theorem State.bootSupervisor_sound {v} (s : State) (h : sound v s) : sound v (State.bootSupervisor s) := by
  unfold State.bootSupervisor; try dsimp only
  repeat' (first | with_reducible assumption | with_reducible refine ite_keep (P := sound _) ?_ ?_ | with_reducible refine State.enterRecovery_sound _ _ ?_ | with_reducible refine State.checked_sound _ _ ?_ | with_reducible refine State.checked_sound_eq (by assumption) ?_ | with_reducible refine State.modPower_sound _ _ ?_ | with_reducible refine State.measureComp_sound _ _ ?_ | with_reducible refine foldl_keep (P := sound _) (fun _ _ _ => ?_) ?_ | with_reducible refine foldl_fst (P := sound _) (fun _ _ _ => ?_) ?_ | with_reducible refine Pad.restoreWins_wf _ _ _ ?_ | with_reducible refine (Pad.rowDead_mem _ _).symm ▸ ?_ | split)

theorem State.headCauses_sound {v} (s : State) (h : sound v s) : sound v (State.headCauses s) := by
  unfold State.headCauses; try dsimp only
  repeat' (first | with_reducible assumption | with_reducible refine ite_keep (P := sound _) ?_ ?_ | with_reducible refine State.causeIng_sound _ _ _ ?_)

theorem State.raiseComp_sound {v} (s : State) (a1) (a2) (a3) (a4) (h : sound v s) : sound v (State.raiseComp s a1 a2 a3 a4) := by
  unfold State.raiseComp; try dsimp only
  repeat' (first | with_reducible assumption | with_reducible refine ite_keep (P := sound _) ?_ ?_ | with_reducible refine State.raise_sound _ _ _ _ _ ?_ | with_reducible refine foldl_keep (P := sound _) (fun _ _ _ => ?_) ?_ | with_reducible refine foldl_fst (P := sound _) (fun _ _ _ => ?_) ?_ | with_reducible refine Pad.restoreWins_wf _ _ _ ?_ | with_reducible refine (Pad.rowDead_mem _ _).symm ▸ ?_ | split | dsimp only | fail_if_no_progress (rw [sound_mk]; refine sound_of rfl rfl rfl rfl rfl ?_))

theorem State.judgeShares_sound {v} (s : State) (a1) (h : sound v s) : sound v (State.judgeShares s a1) := by
  unfold State.judgeShares; try dsimp only
  repeat' (first | with_reducible assumption | with_reducible refine ite_keep (P := sound _) ?_ ?_ | with_reducible refine State.modPoint_sound _ _ _ ?_ | with_reducible refine State.raiseComp_sound _ _ _ _ _ ?_ | with_reducible refine State.raiseIng_sound _ _ _ _ _ ?_)

theorem State.modPts_sound {v} (s : State) (a1) (a2) (h : sound v s) : sound v (State.modPts s a1 a2) := by
  unfold State.modPts; try dsimp only
  repeat' (first | with_reducible assumption | with_reducible refine ite_keep (P := sound _) ?_ ?_ | with_reducible refine State.modPoint_sound _ _ _ ?_)

theorem State.logEnd_sound {v} (s : State) (h : sound v s) : sound v (State.logEnd s) := by
  unfold State.logEnd; try dsimp only
  repeat' (first | with_reducible assumption | with_reducible refine ite_keep (P := sound _) ?_ ?_ | with_reducible refine State.modPts_sound _ _ _ ?_ | with_reducible refine foldl_keep (P := sound _) (fun _ _ _ => ?_) ?_ | with_reducible refine foldl_fst (P := sound _) (fun _ _ _ => ?_) ?_ | with_reducible refine Pad.restoreWins_wf _ _ _ ?_ | with_reducible refine (Pad.rowDead_mem _ _).symm ▸ ?_ | split | dsimp only | fail_if_no_progress (rw [sound_mk]; refine sound_of rfl rfl rfl rfl rfl ?_))

theorem State.cellsAtE_sound {v} (s : State) (h : sound v s) : sound v (State.cellsAtE s) := by
  unfold State.cellsAtE; try dsimp only
  repeat' (first | with_reducible assumption | with_reducible refine ite_keep (P := sound _) ?_ ?_ | with_reducible refine State.noteStash_sound _ ?_ | with_reducible refine State.modCells_sound _ _ _ ?_)

theorem State.lifeAtE_sound {v} (s : State) (a1) (h : sound v s) : sound v (State.lifeAtE s a1) := by
  unfold State.lifeAtE; try dsimp only
  repeat' (first | with_reducible assumption | with_reducible refine ite_keep (P := sound _) ?_ ?_ | with_reducible refine State.setNum_sound _ _ _ ?_ | with_reducible refine State.modHead_sound _ _ _ ?_ | with_reducible refine State.raise_sound _ _ _ _ _ ?_)

theorem State.sweepEnd_sound {v} (s : State) (h : sound v s) : sound v (State.sweepEnd s) := by
  unfold State.sweepEnd; try dsimp only
  repeat' (first | with_reducible assumption | with_reducible refine ite_keep (P := sound _) ?_ ?_ | with_reducible refine State.timeCauses_sound _ ?_ | with_reducible refine State.headCauses_sound _ ?_ | with_reducible refine State.judgeShares_sound _ _ ?_ | with_reducible refine State.logEnd_sound _ ?_ | with_reducible refine State.cellsAtE_sound _ ?_ | with_reducible refine State.ageingEnd_sound _ ?_ | with_reducible refine State.lifeAtE_sound _ _ ?_ | with_reducible refine State.modIng_sound _ _ ?_ | with_reducible refine foldl_keep (P := sound _) (fun _ _ _ => ?_) ?_)

theorem State.cutInst_sound {v} (s : State) (a1) (h : sound v s) : sound v (State.cutInst s a1) := by
  unfold State.cutInst; try dsimp only
  repeat' (first | with_reducible assumption | with_reducible refine ite_keep (P := sound _) ?_ ?_ | with_reducible refine State.takeOff_sound _ _ ?_ | with_reducible refine State.recordExc_sound _ _ _ _ _ _ ?_ | with_reducible refine State.peonyEnd_sound _ _ _ ?_ | with_reducible refine State.modInst_sound _ _ _ _ ?_ | with_reducible refine State.bump_sound _ _ _ ?_)

theorem State.noteOverrun_sound {v} (s : State) (a1) (h : sound v s) : sound v (State.noteOverrun s a1) := by
  unfold State.noteOverrun; try dsimp only
  repeat' (first | with_reducible assumption | with_reducible refine ite_keep (P := sound _) ?_ ?_ | with_reducible refine State.modSched_sound _ _ ?_ | with_reducible refine State.declareDoubt_sound _ _ ?_ | with_reducible refine State.clearDoubt_sound _ _ ?_)

theorem State.logDisagreement_sound {v} (s : State) (a1) (a2) (a3) (h : sound v s) : sound v (State.logDisagreement s a1 a2 a3) := by
  unfold State.logDisagreement; try dsimp only
  repeat' (first | with_reducible assumption | with_reducible refine ite_keep (P := sound _) ?_ ?_ | with_reducible refine State.store_sound _ _ _ ?_)

theorem State.quarantineCores_sound {v} (s : State) (a1) (a2) (h : sound v s) : sound v (State.quarantineCores s a1 a2) := by
  unfold State.quarantineCores; try dsimp only
  repeat' (first | with_reducible assumption | with_reducible refine ite_keep (P := sound _) ?_ ?_ | with_reducible refine State.modSafety_sound _ _ ?_ | with_reducible refine State.bump_sound _ _ _ ?_ | with_reducible refine State.raise_sound _ _ _ _ _ ?_)

theorem State.disagree_sound {v} (s : State) (a1) (a2) (a3) (h : sound v s) : sound v (State.disagree s a1 a2 a3) := by
  unfold State.disagree; try dsimp only
  repeat' (first | with_reducible assumption | with_reducible refine ite_keep (P := sound _) ?_ ?_ | with_reducible refine State.countRaise_sound _ _ _ _ _ ?_ | with_reducible refine State.logDisagreement_sound _ _ _ _ ?_ | with_reducible refine State.askTarget_sound _ _ ?_ | with_reducible refine State.modSafety_sound _ _ ?_ | with_reducible refine State.enterFallback_sound _ _ ?_ | with_reducible refine State.quarantineCores_sound _ _ _ ?_ | with_reducible refine foldl_keep (P := sound _) (fun _ _ _ => ?_) ?_ | with_reducible refine foldl_fst (P := sound _) (fun _ _ _ => ?_) ?_ | with_reducible refine Pad.restoreWins_wf _ _ _ ?_ | with_reducible refine (Pad.rowDead_mem _ _).symm ▸ ?_ | split)

theorem State.register_sound {v} (s : State) (a1) (a2) (a3) (h : sound v s) : sound v (State.register s a1 a2 a3) := by
  unfold State.register; try dsimp only
  repeat' (first | with_reducible assumption | with_reducible refine ite_keep (P := sound _) ?_ ?_ | with_reducible refine State.modSafety_sound _ _ ?_ | with_reducible refine State.setNum_sound _ _ _ ?_ | with_reducible refine State.modComp_sound _ _ ?_ | with_reducible refine State.countRaise_sound _ _ _ _ _ ?_ | with_reducible refine State.disagree_sound _ _ _ _ ?_)

theorem State.registerLast_sound {v} (s : State) (a1) (h : sound v s) : sound v (State.registerLast s a1) := by
  unfold State.registerLast; try dsimp only
  repeat' (first | with_reducible assumption | with_reducible refine ite_keep (P := sound _) ?_ ?_ | with_reducible refine State.register_sound _ _ _ _ ?_)

theorem State.decideVerdict_sound {v} (s : State) (h : sound v s) : sound v (State.decideVerdict s) := by
  unfold State.decideVerdict; try dsimp only
  repeat' (first | with_reducible assumption | with_reducible refine ite_keep (P := sound _) ?_ ?_ | with_reducible refine State.register_sound _ _ _ _ ?_ | with_reducible refine foldl_keep (P := sound _) (fun _ _ _ => ?_) ?_ | with_reducible refine foldl_fst (P := sound _) (fun _ _ _ => ?_) ?_ | with_reducible refine Pad.restoreWins_wf _ _ _ ?_ | with_reducible refine (Pad.rowDead_mem _ _).symm ▸ ?_ | split)

theorem State.qClear_sound {v} (s : State) (a1) (h : sound v s) : sound v (State.qClear s a1) := by
  unfold State.qClear; try dsimp only
  repeat' (first | with_reducible assumption | with_reducible refine ite_keep (P := sound _) ?_ ?_ | with_reducible refine State.setQueue_sound _ _ _ ?_ | with_reducible refine State.driveXoff_sound _ ?_)

theorem State.qFlush_sound {v} (s : State) (a1) (h : sound v s) : sound v (State.qFlush s a1) := by
  unfold State.qFlush; try dsimp only
  repeat' (first | with_reducible assumption | with_reducible refine ite_keep (P := sound _) ?_ ?_ | with_reducible refine State.bump_sound _ _ _ ?_ | with_reducible refine State.qClear_sound _ _ ?_)

theorem State.restartMarigold_sound {v} (s : State) (h : sound v s) : sound v (State.restartMarigold s) := by
  unfold State.restartMarigold; try dsimp only
  repeat' (first | with_reducible assumption | with_reducible refine ite_keep (P := sound _) ?_ ?_ | with_reducible refine State.qFlush_sound _ _ ?_ | with_reducible refine State.modSafety_sound _ _ ?_ | with_reducible refine State.stopMarigold_sound _ ?_ | with_reducible refine State.raise_sound _ _ _ _ _ ?_ | with_reducible refine State.setMarigold_sound _ _ ?_ | with_reducible refine State.causeComp_sound _ _ _ ?_)

theorem State.mariDeadline_sound {v} (s : State) (h : sound v s) : sound v (State.mariDeadline s) := by
  unfold State.mariDeadline; try dsimp only
  repeat' (first | with_reducible assumption | with_reducible refine ite_keep (P := sound _) ?_ ?_ | with_reducible refine State.modSafety_sound _ _ ?_ | with_reducible refine State.causeComp_sound _ _ _ ?_ | with_reducible refine State.decideVerdict_sound _ ?_ | with_reducible refine State.register_sound _ _ _ _ ?_ | with_reducible refine State.restartMarigold_sound _ ?_)

theorem State.finalVerdict_sound {v} (s : State) (h : sound v s) : sound v (State.finalVerdict s) := by
  unfold State.finalVerdict; try dsimp only
  repeat' (first | with_reducible assumption | with_reducible refine ite_keep (P := sound _) ?_ ?_ | with_reducible refine State.registerLast_sound _ _ ?_ | with_reducible refine State.decideVerdict_sound _ ?_ | with_reducible refine State.mariDeadline_sound _ ?_)

theorem State.publishCells_sound {v} (s : State) (h : sound v s) : sound v (State.publishCells s) := by
  unfold State.publishCells; try dsimp only
  repeat' (first | with_reducible assumption | with_reducible refine ite_keep (P := sound _) ?_ ?_ | with_reducible refine State.setNum_sound _ _ _ ?_ | with_reducible refine foldl_keep (P := sound _) (fun _ _ _ => ?_) ?_)

theorem State.reportDone_sound {v} (s : State) (h : sound v s) : sound v (State.reportDone s) := by
  unfold State.reportDone; try dsimp only
  repeat' (first | with_reducible assumption | with_reducible refine ite_keep (P := sound _) ?_ ?_ | with_reducible refine State.modComp_sound _ _ ?_ | with_reducible refine State.publishCells_sound _ ?_ | with_reducible refine foldl_keep (P := sound _) (fun _ _ _ => ?_) ?_ | with_reducible refine foldl_fst (P := sound _) (fun _ _ _ => ?_) ?_ | with_reducible refine Pad.restoreWins_wf _ _ _ ?_ | with_reducible refine (Pad.rowDead_mem _ _).symm ▸ ?_ | split | dsimp only | fail_if_no_progress (rw [sound_mk]; refine sound_of rfl rfl rfl rfl rfl ?_))

theorem State.deadline_sound {v} (s : State) (h : sound v s) : sound v (State.deadline s) := by
  unfold State.deadline; try dsimp only
  repeat' (first | with_reducible assumption | with_reducible refine ite_keep (P := sound _) ?_ ?_ | with_reducible refine State.cutInst_sound _ _ ?_ | with_reducible refine State.modComp_sound _ _ ?_ | with_reducible refine State.countRaise_sound _ _ _ _ _ ?_ | with_reducible refine State.noteOverrun_sound _ _ ?_ | with_reducible refine State.finalVerdict_sound _ ?_ | with_reducible refine State.reportDone_sound _ ?_ | with_reducible refine State.dispatch_sound _ _ ?_ | with_reducible refine foldl_keep (P := sound _) (fun _ _ _ => ?_) ?_)

theorem State.frameWrites_sound {v} (s : State) (a1) (h : sound v s) : sound v (State.frameWrites s a1) := by
  unfold State.frameWrites; try dsimp only
  repeat' (first | with_reducible assumption | with_reducible refine ite_keep (P := sound _) ?_ ?_ | with_reducible refine State.applyWrite_sound _ _ _ ?_ | with_reducible refine foldl_keep (P := sound _) (fun _ _ _ => ?_) ?_ | with_reducible refine foldl_fst (P := sound _) (fun _ _ _ => ?_) ?_ | with_reducible refine Pad.restoreWins_wf _ _ _ ?_ | with_reducible refine (Pad.rowDead_mem _ _).symm ▸ ?_ | split | dsimp only | fail_if_no_progress (rw [sound_mk]; refine sound_of rfl rfl rfl rfl rfl ?_))

theorem State.logTurn_sound {v} (s : State) (h : sound v s) : sound v (State.logTurn s) := by
  unfold State.logTurn; try dsimp only
  repeat' (first | with_reducible assumption | with_reducible refine ite_keep (P := sound _) ?_ ?_ | with_reducible refine foldl_keep (P := sound _) (fun _ _ _ => ?_) ?_ | with_reducible refine foldl_fst (P := sound _) (fun _ _ _ => ?_) ?_ | with_reducible refine Pad.restoreWins_wf _ _ _ ?_ | with_reducible refine (Pad.rowDead_mem _ _).symm ▸ ?_ | split | dsimp only | fail_if_no_progress (rw [sound_mk]; refine sound_of rfl rfl rfl rfl rfl ?_))

theorem State.countRun_sound {v} (s : State) (h : sound v s) : sound v (State.countRun s) := by
  unfold State.countRun; try dsimp only
  repeat' (first | with_reducible assumption | with_reducible refine ite_keep (P := sound _) ?_ ?_ | with_reducible refine State.modPower_sound _ _ ?_ | with_reducible refine State.bump_sound _ _ _ ?_)

theorem State.setCalStatus_sound {v} (s : State) (a1) (a2) (h : sound v s) : sound v (State.setCalStatus s a1 a2) := by
  unfold State.setCalStatus; try dsimp only
  repeat' (first | with_reducible assumption | with_reducible refine ite_keep (P := sound _) ?_ ?_ | with_reducible refine State.setNum_sound _ _ _ ?_)

theorem State.headBoundary_sound {v} (s : State) (a1) (h : sound v s) : sound v (State.headBoundary s a1) := by
  unfold State.headBoundary; try dsimp only
  repeat' (first | with_reducible assumption | with_reducible refine ite_keep (P := sound _) ?_ ?_ | with_reducible refine State.modHead_sound _ _ _ ?_ | with_reducible refine State.setCalStatus_sound _ _ _ ?_ | with_reducible refine State.setNum_sound _ _ _ ?_ | with_reducible refine State.raise_sound _ _ _ _ _ ?_ | with_reducible refine foldl_keep (P := sound _) (fun _ _ _ => ?_) ?_)

theorem State.sweepTurn_sound {v} (s : State) (h : sound v s) : sound v (State.sweepTurn s) := by
  unfold State.sweepTurn; try dsimp only
  repeat' (first | with_reducible assumption | with_reducible refine ite_keep (P := sound _) ?_ ?_ | with_reducible refine foldl_keep (P := sound _) (fun _ _ _ => ?_) ?_ | with_reducible refine foldl_fst (P := sound _) (fun _ _ _ => ?_) ?_ | with_reducible refine Pad.restoreWins_wf _ _ _ ?_ | with_reducible refine (Pad.rowDead_mem _ _).symm ▸ ?_ | split | dsimp only | fail_if_no_progress (rw [sound_mk]; refine sound_of rfl rfl rfl rfl rfl ?_))

theorem State.turnFrames_sound {v} (s : State) (a1) (a2) (h : sound v s) : sound v (State.turnFrames s a1 a2) := by
  unfold State.turnFrames; try dsimp only
  repeat' (first | with_reducible assumption | with_reducible refine ite_keep (P := sound _) ?_ ?_ | with_reducible refine State.timeCauses_sound _ ?_ | with_reducible refine State.noteStash_sound _ ?_ | with_reducible refine State.sweepTurn_sound _ ?_ | with_reducible refine foldl_keep (P := sound _) (fun _ _ _ => ?_) ?_ | with_reducible refine foldl_fst (P := sound _) (fun _ _ _ => ?_) ?_ | with_reducible refine Pad.restoreWins_wf _ _ _ ?_ | with_reducible refine (Pad.rowDead_mem _ _).symm ▸ ?_ | split | dsimp only | fail_if_no_progress (rw [sound_mk]; refine sound_of rfl rfl rfl rfl rfl ?_))

theorem State.peonyBoundary_sound {v} (s : State) (a1) (h : sound v s) : sound v (State.peonyBoundary s a1) := by
  unfold State.peonyBoundary; try dsimp only
  repeat' (first | with_reducible assumption | with_reducible refine ite_keep (P := sound _) ?_ ?_ | with_reducible refine State.setNum_sound _ _ _ ?_ | with_reducible refine foldl_keep (P := sound _) (fun _ _ _ => ?_) ?_ | with_reducible refine foldl_fst (P := sound _) (fun _ _ _ => ?_) ?_ | with_reducible refine Pad.restoreWins_wf _ _ _ ?_ | with_reducible refine (Pad.rowDead_mem _ _).symm ▸ ?_ | split | dsimp only | fail_if_no_progress (rw [sound_mk]; refine sound_of rfl rfl rfl rfl rfl ?_))

theorem State.showGated_sound {v} (s : State) (a1) (h : sound v s) : sound v (State.showGated s a1) := by
  unfold State.showGated; try dsimp only
  repeat' (first | with_reducible assumption | with_reducible refine ite_keep (P := sound _) ?_ ?_ | with_reducible refine State.modArr_sound _ _ _ ?_ | with_reducible refine State.setNum_sound _ _ _ ?_)

theorem State.resumeDispatch_sound {v} (s : State) (a1) (h : sound v s) : sound v (State.resumeDispatch s a1) := by
  unfold State.resumeDispatch; try dsimp only
  repeat' (first | with_reducible assumption | with_reducible refine ite_keep (P := sound _) ?_ ?_ | with_reducible refine State.modPower_sound _ _ ?_ | with_reducible refine State.modSched_sound _ _ ?_)

theorem State.closeInsts_sound {v} (s : State) (a1) (h : sound v s) : sound v (State.closeInsts s a1) := by
  unfold State.closeInsts; try dsimp only
  repeat' (first | with_reducible assumption | with_reducible refine ite_keep (P := sound _) ?_ ?_ | with_reducible refine State.setNum_sound _ _ _ ?_ | with_reducible refine State.modSched_sound _ _ ?_)

theorem State.judgeThrottle_sound {v} (s : State) (h : sound v s) : sound v (State.judgeThrottle s) := by
  unfold State.judgeThrottle; try dsimp only
  repeat' (first | with_reducible assumption | with_reducible refine ite_keep (P := sound _) ?_ ?_ | with_reducible refine State.modSched_sound _ _ ?_ | with_reducible refine State.raise_sound _ _ _ _ _ ?_ | with_reducible refine State.declareDoubt_sound _ _ ?_ | with_reducible refine foldl_keep (P := sound _) (fun _ _ _ => ?_) ?_ | with_reducible refine foldl_fst (P := sound _) (fun _ _ _ => ?_) ?_ | with_reducible refine Pad.restoreWins_wf _ _ _ ?_ | with_reducible refine (Pad.rowDead_mem _ _).symm ▸ ?_ | split)

theorem State.throttleFrame_sound {v} (s : State) (h : sound v s) : sound v (State.throttleFrame s) := by
  unfold State.throttleFrame; try dsimp only
  repeat' (first | with_reducible assumption | with_reducible refine ite_keep (P := sound _) ?_ ?_ | with_reducible refine State.judgeThrottle_sound _ ?_ | with_reducible refine State.modSched_sound _ _ ?_ | with_reducible refine State.clearDoubt_sound _ _ ?_)

theorem State.switchPlan_sound {v} (s : State) (h : sound v s) : sound v (State.switchPlan s) := by
  unfold State.switchPlan; try dsimp only
  repeat' (first | with_reducible assumption | with_reducible refine ite_keep (P := sound _) ?_ ?_ | with_reducible refine State.modPad_soundMem (fun _ hm => Pad.closeAll_wf _ hm) ?_ | with_reducible refine State.modPad_soundMem (fun _ hm => Pad.close_wf _ _ _ hm) ?_ | with_reducible refine State.modPad_soundMem (fun _ hm => Pad.load_wf _ _ _ _ _ hm) ?_ | with_reducible refine State.modPad_soundMem (fun _ hm => Pad.write_wf _ _ _ _ hm) ?_ | with_reducible refine State.modPad_soundMem (fun _ hm => Pad.closeConfidential_wf _ hm) ?_ | with_reducible refine State.modPad_sound (fun _ => rfl) ?_ | with_reducible refine State.modPad_soundMem (fun _ hm => ?_) ?_ | with_reducible refine State.modSched_sound _ _ ?_ | with_reducible refine State.showPlan_sound _ ?_ | with_reducible refine State.raise_sound _ _ _ _ _ ?_ | with_reducible refine State.copyContents_sound _ _ ?_ | with_reducible refine State.copyPrograms_sound _ _ ?_ | with_reducible refine State.declareDoubt_sound _ _ ?_ | with_reducible refine foldl_keep (P := sound _) (fun _ _ _ => ?_) ?_ | with_reducible refine foldl_fst (P := sound _) (fun _ _ _ => ?_) ?_ | with_reducible refine Pad.restoreWins_wf _ _ _ ?_ | with_reducible refine (Pad.rowDead_mem _ _).symm ▸ ?_ | split)

theorem State.dueEvent_sound {v} (s : State) (a1) (a2) (a3) (h : sound v s) : sound v (State.dueEvent s a1 a2 a3) := by
  unfold State.dueEvent; try dsimp only
  repeat' (first | with_reducible assumption | with_reducible refine ite_keep (P := sound _) ?_ ?_ | with_reducible refine State.modArr_sound _ _ _ ?_)

theorem State.save_sound {v} (s : State) (a1) (a2) (h : sound v s) : sound v (State.save s a1 a2) := by
  unfold State.save; try dsimp only
  repeat' (first | with_reducible assumption | with_reducible refine ite_keep (P := sound _) ?_ ?_ | with_reducible refine foldl_keep (P := sound _) (fun _ _ _ => ?_) ?_ | with_reducible refine foldl_fst (P := sound _) (fun _ _ _ => ?_) ?_ | with_reducible refine Pad.restoreWins_wf _ _ _ ?_ | with_reducible refine (Pad.rowDead_mem _ _).symm ▸ ?_ | split | dsimp only | fail_if_no_progress (rw [sound_mk]; refine sound_of rfl rfl rfl rfl rfl ?_))

theorem State.retireNext_sound {v} (s : State) (a1) (h : sound v s) : sound v (State.retireNext s a1) := by
  unfold State.retireNext; try dsimp only
  repeat' (first | with_reducible assumption | with_reducible refine ite_keep (P := sound _) ?_ ?_ | with_reducible refine State.dueEvent_sound _ _ _ _ ?_ | with_reducible refine State.save_sound _ _ _ ?_)

theorem State.repairInForce_sound {v} (s : State) (a1) (h : sound v s) : sound v (State.repairInForce s a1) := by
  unfold State.repairInForce; try dsimp only
  repeat' (first | with_reducible assumption | with_reducible refine ite_keep (P := sound _) ?_ ?_ | with_reducible refine State.setNum_sound _ _ _ ?_ | with_reducible refine foldl_keep (P := sound _) (fun _ _ _ => ?_) ?_)

theorem State.retireQuad_sound {v} (s : State) (a1) (a2) (a3) (h : sound v s) : sound v (State.retireQuad s a1 a2 a3) := by
  unfold State.retireQuad; try dsimp only
  repeat' (first | with_reducible assumption | with_reducible refine ite_keep (P := sound _) ?_ ?_ | with_reducible refine State.store_sound _ _ _ ?_ | with_reducible refine State.modPad_soundMem (fun _ hm => Pad.closeAll_wf _ hm) ?_ | with_reducible refine State.modPad_soundMem (fun _ hm => Pad.close_wf _ _ _ hm) ?_ | with_reducible refine State.modPad_soundMem (fun _ hm => Pad.load_wf _ _ _ _ _ hm) ?_ | with_reducible refine State.modPad_soundMem (fun _ hm => Pad.write_wf _ _ _ _ hm) ?_ | with_reducible refine State.modPad_soundMem (fun _ hm => Pad.closeConfidential_wf _ hm) ?_ | with_reducible refine State.modPad_sound (fun _ => rfl) ?_ | with_reducible refine State.modPad_soundMem (fun _ hm => ?_) ?_ | with_reducible refine State.raise_sound _ _ _ _ _ ?_)

theorem State.repairRow_sound {v} (s : State) (a1) (a2) (a3) (a4) (a5) (h : sound v s) : sound v (State.repairRow s a1 a2 a3 a4 a5) := by
  unfold State.repairRow; try dsimp only
  repeat' (first | with_reducible assumption | with_reducible refine ite_keep (P := sound _) ?_ ?_ | with_reducible refine State.modPad_soundMem (fun _ hm => Pad.closeAll_wf _ hm) ?_ | with_reducible refine State.modPad_soundMem (fun _ hm => Pad.close_wf _ _ _ hm) ?_ | with_reducible refine State.modPad_soundMem (fun _ hm => Pad.load_wf _ _ _ _ _ hm) ?_ | with_reducible refine State.modPad_soundMem (fun _ hm => Pad.write_wf _ _ _ _ hm) ?_ | with_reducible refine State.modPad_soundMem (fun _ hm => Pad.closeConfidential_wf _ hm) ?_ | with_reducible refine State.modPad_sound (fun _ => rfl) ?_ | with_reducible refine State.modPad_soundMem (fun _ hm => ?_) ?_ | with_reducible refine State.store_sound _ _ _ ?_ | with_reducible refine State.raise_sound _ _ _ _ _ ?_ | with_reducible refine State.retireQuad_sound _ _ _ _ ?_ | with_reducible refine foldl_keep (P := sound _) (fun _ _ _ => ?_) ?_ | with_reducible refine foldl_fst (P := sound _) (fun _ _ _ => ?_) ?_ | with_reducible refine Pad.restoreWins_wf _ _ _ ?_ | with_reducible refine (Pad.rowDead_mem _ _).symm ▸ ?_ | split)

theorem State.loseSpare_sound {v} (s : State) (a1) (a2) (a3) (a4) (a5) (h : sound v s) : sound v (State.loseSpare s a1 a2 a3 a4 a5) := by
  unfold State.loseSpare; try dsimp only
  repeat' (first | with_reducible assumption | with_reducible refine ite_keep (P := sound _) ?_ ?_ | with_reducible refine State.modPad_soundMem (fun _ hm => Pad.closeAll_wf _ hm) ?_ | with_reducible refine State.modPad_soundMem (fun _ hm => Pad.close_wf _ _ _ hm) ?_ | with_reducible refine State.modPad_soundMem (fun _ hm => Pad.load_wf _ _ _ _ _ hm) ?_ | with_reducible refine State.modPad_soundMem (fun _ hm => Pad.write_wf _ _ _ _ hm) ?_ | with_reducible refine State.modPad_soundMem (fun _ hm => Pad.closeConfidential_wf _ hm) ?_ | with_reducible refine State.modPad_sound (fun _ => rfl) ?_ | with_reducible refine State.modPad_soundMem (fun _ hm => ?_) ?_ | with_reducible refine State.repairRow_sound _ _ _ _ _ _ ?_ | with_reducible refine foldl_keep (P := sound _) (fun _ _ _ => ?_) ?_ | with_reducible refine foldl_fst (P := sound _) (fun _ _ _ => ?_) ?_ | with_reducible refine Pad.restoreWins_wf _ _ _ ?_ | with_reducible refine (Pad.rowDead_mem _ _).symm ▸ ?_ | split)

theorem State.rowFails_sound {v} (s : State) (a1) (a2) (a3) (a4) (a5) (h : sound v s) : sound v (State.rowFails s a1 a2 a3 a4 a5) := by
  unfold State.rowFails; try dsimp only
  repeat' (first | with_reducible assumption | with_reducible refine ite_keep (P := sound _) ?_ ?_ | with_reducible refine State.loseSpare_sound _ _ _ _ _ _ ?_ | with_reducible refine State.repairRow_sound _ _ _ _ _ _ ?_ | with_reducible refine foldl_keep (P := sound _) (fun _ _ _ => ?_) ?_ | with_reducible refine foldl_fst (P := sound _) (fun _ _ _ => ?_) ?_ | with_reducible refine Pad.restoreWins_wf _ _ _ ?_ | with_reducible refine (Pad.rowDead_mem _ _).symm ▸ ?_ | split)

theorem State.repairCore_sound {v} (s : State) (a1) (h : sound v s) : sound v (State.repairCore s a1) := by
  unfold State.repairCore; try dsimp only
  repeat' (first | with_reducible assumption | with_reducible refine ite_keep (P := sound _) ?_ ?_ | with_reducible refine State.modCore_sound (fun _ => rfl) ?_ | with_reducible refine State.modCore_soundMem (fun _ hm => ?_) ?_ | with_reducible refine State.repairInForce_sound _ _ ?_ | with_reducible refine State.raise_sound _ _ _ _ _ ?_ | with_reducible refine State.rowFails_sound _ _ _ _ _ _ ?_ | with_reducible refine State.modSched_sound _ _ ?_ | with_reducible refine foldl_keep (P := sound _) (fun _ _ _ => ?_) ?_)

theorem State.turnNext_sound {v} (s : State) (h : sound v s) : sound v (State.turnNext s) := by
  unfold State.turnNext; try dsimp only
  repeat' (first | with_reducible assumption | with_reducible refine ite_keep (P := sound _) ?_ ?_ | with_reducible refine State.setNum_sound _ _ _ ?_ | with_reducible refine State.modSched_sound _ _ ?_)

theorem State.retireDue_sound {v} (s : State) (h : sound v s) : sound v (State.retireDue s) := by
  unfold State.retireDue; try dsimp only
  repeat' (first | with_reducible assumption | with_reducible refine ite_keep (P := sound _) ?_ ?_ | with_reducible refine State.retireNext_sound _ _ ?_ | with_reducible refine State.repairCore_sound _ _ ?_ | with_reducible refine State.modSched_sound _ _ ?_ | with_reducible refine State.modSafety_sound _ _ ?_ | with_reducible refine State.setNum_sound _ _ _ ?_ | with_reducible refine State.turnNext_sound _ ?_ | with_reducible refine foldl_keep (P := sound _) (fun _ _ _ => ?_) ?_)

theorem State.turnGates_sound {v} (s : State) (h : sound v s) : sound v (State.turnGates s) := by
  unfold State.turnGates; try dsimp only
  repeat' (first | with_reducible assumption | with_reducible refine ite_keep (P := sound _) ?_ ?_ | with_reducible refine State.hostFlow_sound _ _ ?_ | with_reducible refine State.modHost_sound _ _ _ ?_ | with_reducible refine State.accrue_sound _ _ _ ?_ | with_reducible refine foldl_keep (P := sound _) (fun _ _ _ => ?_) ?_)

theorem State.resultsTurn_sound {v} (s : State) (h : sound v s) : sound v (State.resultsTurn s) := by
  unfold State.resultsTurn; try dsimp only
  repeat' (first | with_reducible assumption | with_reducible refine ite_keep (P := sound _) ?_ ?_ | with_reducible refine State.modNet_sound _ _ ?_)

theorem State.safetyTurn_sound {v} (s : State) (h : sound v s) : sound v (State.safetyTurn s) := by
  unfold State.safetyTurn; try dsimp only
  repeat' (first | with_reducible assumption | with_reducible refine ite_keep (P := sound _) ?_ ?_ | with_reducible refine State.modSafety_sound _ _ ?_)

theorem State.notify_sound {v} (s : State) (a1) (a2) (a3) (h : sound v s) : sound v (State.notify s a1 a2 a3) := by
  unfold State.notify; try dsimp only
  repeat' (first | with_reducible assumption | with_reducible refine ite_keep (P := sound _) ?_ ?_ | with_reducible refine State.modSession_sound _ _ _ ?_ | with_reducible refine State.sendUdp_sound _ _ _ _ _ _ ?_ | with_reducible refine State.bump_sound _ _ _ ?_ | with_reducible refine foldl_keep (P := sound _) (fun _ _ _ => ?_) ?_ | with_reducible refine foldl_fst (P := sound _) (fun _ _ _ => ?_) ?_ | with_reducible refine Pad.restoreWins_wf _ _ _ ?_ | with_reducible refine (Pad.rowDead_mem _ _).symm ▸ ?_ | split)

theorem State.sampleSession_sound {v} (s : State) (a1) (a2) (h : sound v s) : sound v (State.sampleSession s a1 a2) := by
  unfold State.sampleSession; try dsimp only
  repeat' (first | with_reducible assumption | with_reducible refine ite_keep (P := sound _) ?_ ?_ | with_reducible refine State.modSession_sound _ _ _ ?_ | with_reducible refine State.notify_sound _ _ _ _ ?_ | with_reducible refine foldl_keep (P := sound _) (fun _ _ _ => ?_) ?_ | with_reducible refine foldl_fst (P := sound _) (fun _ _ _ => ?_) ?_ | with_reducible refine Pad.restoreWins_wf _ _ _ ?_ | with_reducible refine (Pad.rowDead_mem _ _).symm ▸ ?_ | split)

theorem State.sampleValues_sound {v} (s : State) (a1) (h : sound v s) : sound v (State.sampleValues s a1) := by
  unfold State.sampleValues; try dsimp only
  repeat' (first | with_reducible assumption | with_reducible refine ite_keep (P := sound _) ?_ ?_ | with_reducible refine State.sampleSession_sound _ _ _ ?_ | with_reducible refine foldl_keep (P := sound _) (fun _ _ _ => ?_) ?_)

end Sys2Proof.Machine
end

