-- ==== Sys2Proof/Laws/Sound04.lean ====
section
/-! SUPPORT. What operations and meanings keep, part 5 of 12: the queue of waiting commands, every parser engine as R55 and R59 have it, and the
canonical form of every byte memory (`sound`). Callees come before their callers, so a lemma cites those of the operations it unfolds to. -/

namespace Sys2Proof.Machine

theorem State.boundary_sound {v} (s : State) (h : sound v s) : sound v (State.boundary s) := by
  unfold State.boundary; try dsimp only
  repeat' (first | with_reducible assumption | with_reducible refine ite_keep (P := sound _) ?_ ?_ | with_reducible refine State.sweepEnd_sound _ ?_ | with_reducible refine State.deadline_sound _ ?_ | with_reducible refine State.frameWrites_sound _ _ ?_ | with_reducible refine State.logTurn_sound _ ?_ | with_reducible refine State.countRun_sound _ ?_ | with_reducible refine State.headBoundary_sound _ _ ?_ | with_reducible refine State.turnFrames_sound _ _ _ ?_ | with_reducible refine State.peonyBoundary_sound _ _ ?_ | with_reducible refine State.booksBoundary_sound _ _ ?_ | with_reducible refine State.showGated_sound _ _ ?_ | with_reducible refine State.resumeDispatch_sound _ _ ?_ | with_reducible refine State.closeInsts_sound _ _ ?_ | with_reducible refine State.throttleFrame_sound _ ?_ | with_reducible refine State.judgeDoubt_sound _ ?_ | with_reducible refine State.switchPlan_sound _ ?_ | with_reducible refine State.retireDue_sound _ ?_ | with_reducible refine State.turnGates_sound _ ?_ | with_reducible refine State.resultsTurn_sound _ ?_ | with_reducible refine State.safetyTurn_sound _ ?_ | with_reducible refine State.sampleValues_sound _ _ ?_ | with_reducible refine foldl_keep (P := sound _) (fun _ _ _ => ?_) ?_)

theorem State.modBooks_sound {v} (s : State) (a1) (h : sound v s) : sound v (State.modBooks s a1) := by
  unfold State.modBooks; try dsimp only
  repeat' (first | with_reducible assumption | with_reducible refine ite_keep (P := sound _) ?_ ?_ | with_reducible refine foldl_keep (P := sound _) (fun _ _ _ => ?_) ?_ | with_reducible refine foldl_fst (P := sound _) (fun _ _ _ => ?_) ?_ | with_reducible refine Pad.restoreWins_wf _ _ _ ?_ | with_reducible refine (Pad.rowDead_mem _ _).symm ▸ ?_ | split | dsimp only | fail_if_no_progress (rw [sound_mk]; refine sound_of rfl rfl rfl rfl rfl ?_))

theorem State.countProbes_sound {v} (s : State) (a1) (a2) (h : sound v s) : sound v (State.countProbes s a1 a2) := by
  unfold State.countProbes; try dsimp only
  repeat' (first | with_reducible assumption | with_reducible refine ite_keep (P := sound _) ?_ ?_ | with_reducible refine State.modBooks_sound _ _ ?_ | with_reducible refine State.raiseComp_sound _ _ _ _ _ ?_)

theorem State.buildBook_sound {v} (s : State) (a1) (a2) (h : sound v s) : sound v (State.buildBook s a1 a2) := by
  unfold State.buildBook; try dsimp only
  repeat' (first | with_reducible assumption | with_reducible refine ite_keep (P := sound _) ?_ ?_ | with_reducible refine State.countProbes_sound _ _ _ ?_ | with_reducible refine State.modBooks_sound _ _ ?_ | with_reducible refine foldl_keep (P := sound _) (fun _ _ _ => ?_) ?_ | with_reducible refine foldl_fst (P := sound _) (fun _ _ _ => ?_) ?_ | with_reducible refine Pad.restoreWins_wf _ _ _ ?_ | with_reducible refine (Pad.rowDead_mem _ _).symm ▸ ?_ | split)

theorem State.buildRows_sound {v} (s : State) (a1) (a2) (a3) (a4) (h : sound v s) : sound v (State.buildRows s a1 a2 a3 a4) := by
  unfold State.buildRows; try dsimp only
  repeat' (first | with_reducible assumption | with_reducible refine ite_keep (P := sound _) ?_ ?_ | with_reducible refine State.rowGet_sound _ _ _ _ _ ?_ | with_reducible refine State.rowGet_sound_eq (by assumption) ?_ | with_reducible refine State.pGet_sound _ _ _ _ _ ?_ | with_reducible refine State.pGet_sound_eq (by assumption) ?_ | with_reducible refine State.pPut_sound _ _ _ _ ?_ | with_reducible refine State.rowPut_sound _ _ _ _ _ _ ?_ | with_reducible refine foldl_keep (P := sound _) (fun _ _ _ => ?_) ?_ | with_reducible refine foldl_fst (P := sound _) (fun _ _ _ => ?_) ?_ | with_reducible refine Pad.restoreWins_wf _ _ _ ?_ | with_reducible refine (Pad.rowDead_mem _ _).symm ▸ ?_ | split)

theorem State.calOne_sound {v} (s : State) (a1) (a2) (h : sound v s) : sound v (State.calOne s a1 a2) := by
  unfold State.calOne; try dsimp only
  repeat' (first | with_reducible assumption | with_reducible refine ite_keep (P := sound _) ?_ ?_ | with_reducible refine State.modHead_sound _ _ _ ?_ | with_reducible refine State.setNum_sound _ _ _ ?_ | with_reducible refine State.bootFail_sound _ _ ?_ | with_reducible refine State.setCalStatus_sound _ _ _ ?_ | with_reducible refine State.raise_sound _ _ _ _ _ ?_ | with_reducible refine foldl_keep (P := sound _) (fun _ _ _ => ?_) ?_ | with_reducible refine foldl_fst (P := sound _) (fun _ _ _ => ?_) ?_ | with_reducible refine Pad.restoreWins_wf _ _ _ ?_ | with_reducible refine (Pad.rowDead_mem _ _).symm ▸ ?_ | split)

theorem State.cellFull_sound {v} (s : State) (a1) (h : sound v s) : sound v (State.cellFull s a1) := by
  unfold State.cellFull; try dsimp only
  repeat' (first | with_reducible assumption | with_reducible refine ite_keep (P := sound _) ?_ ?_ | with_reducible refine State.modPoint_sound _ _ _ ?_ | with_reducible refine State.modPts_sound _ _ _ ?_)

theorem State.unpackTable_sound {v} (s : State) (a1) (a2) (a3) (a4) (a5) (a6) (a7) (h : sound v s) : sound v (State.unpackTable s a1 a2 a3 a4 a5 a6 a7).1 := by
  unfold State.unpackTable; try dsimp only
  repeat' (first | with_reducible assumption | with_reducible refine ite_keep (P := sound _) ?_ ?_ | with_reducible refine State.rowRead_sound _ _ _ _ _ _ _ _ ?_ | with_reducible refine State.rowRead_sound_eq (by assumption) ?_ | with_reducible refine foldl_keep (P := sound _) (fun _ _ _ => ?_) ?_ | with_reducible refine foldl_fst (P := sound _) (fun _ _ _ => ?_) ?_ | with_reducible refine Pad.restoreWins_wf _ _ _ ?_ | with_reducible refine (Pad.rowDead_mem _ _).symm ▸ ?_ | split)
theorem State.unpackTable_sound_eq {v} {s : State} {a1} {a2} {a3} {a4} {a5} {a6} {a7} {t} {y} (e : State.unpackTable s a1 a2 a3 a4 a5 a6 a7 = (t, y)) (h : sound v s) : sound v t := by
  have := State.unpackTable_sound s a1 a2 a3 a4 a5 a6 a7 h; rwa [e] at this

theorem State.streamRows_sound {v} (s : State) (a1) (a2) (a3) (a4) (a5) (h : sound v s) : sound v (State.streamRows s a1 a2 a3 a4 a5).1 := by
  unfold State.streamRows; try dsimp only
  repeat' (first | with_reducible assumption | with_reducible refine ite_keep (P := sound _) ?_ ?_ | with_reducible refine State.unpackTable_sound _ _ _ _ _ _ _ _ ?_ | with_reducible refine State.unpackTable_sound_eq (by assumption) ?_ | with_reducible refine State.rowsRead_sound _ _ _ _ _ _ _ _ _ ?_ | with_reducible refine State.rowsRead_sound_eq (by assumption) ?_ | with_reducible refine foldl_keep (P := sound _) (fun _ _ _ => ?_) ?_ | with_reducible refine foldl_fst (P := sound _) (fun _ _ _ => ?_) ?_ | with_reducible refine Pad.restoreWins_wf _ _ _ ?_ | with_reducible refine (Pad.rowDead_mem _ _).symm ▸ ?_ | split)
theorem State.streamRows_sound_eq {v} {s : State} {a1} {a2} {a3} {a4} {a5} {t} {y} (e : State.streamRows s a1 a2 a3 a4 a5 = (t, y)) (h : sound v s) : sound v t := by
  have := State.streamRows_sound s a1 a2 a3 a4 a5 h; rwa [e] at this

theorem State.judge_sound {v} (s : State) (a1) (a2) (h : sound v s) : sound v (State.judge s a1 a2).1 := by
  unfold State.judge; try dsimp only
  repeat' (first | with_reducible assumption | with_reducible refine ite_keep (P := sound _) ?_ ?_ | with_reducible refine State.bump_sound _ _ _ ?_)
theorem State.judge_sound_eq {v} {s : State} {a1} {a2} {t} {y} (e : State.judge s a1 a2 = (t, y)) (h : sound v s) : sound v t := by
  have := State.judge_sound s a1 a2 h; rwa [e] at this

theorem State.countOps_sound {v} (s : State) (a1) (a2) (a3) (a4) (h : sound v s) : sound v (State.countOps s a1 a2 a3 a4) := by
  unfold State.countOps; try dsimp only
  repeat' (first | with_reducible assumption | with_reducible refine ite_keep (P := sound _) ?_ ?_ | with_reducible refine State.bump_sound _ _ _ ?_)

theorem State.osBlock_sound {v} (s : State) (a1) (a2) (a3) (a4) (h : sound v s) : sound v (State.osBlock s a1 a2 a3 a4) := by
  unfold State.osBlock; try dsimp only
  repeat' (first | with_reducible assumption | with_reducible refine ite_keep (P := sound _) ?_ ?_ | with_reducible refine State.rowsRead_sound _ _ _ _ _ _ _ _ _ ?_ | with_reducible refine State.rowsRead_sound_eq (by assumption) ?_ | with_reducible refine State.exceptRun_sound _ _ _ _ _ ?_ | with_reducible refine State.streamRows_sound _ _ _ _ _ _ ?_ | with_reducible refine State.streamRows_sound_eq (by assumption) ?_ | with_reducible refine State.judge_sound _ _ _ ?_ | with_reducible refine State.judge_sound_eq (by assumption) ?_ | with_reducible refine State.countOps_sound _ _ _ _ _ ?_ | with_reducible refine State.modArr_sound _ _ _ ?_ | with_reducible refine foldl_keep (P := sound _) (fun _ _ _ => ?_) ?_ | with_reducible refine foldl_fst (P := sound _) (fun _ _ _ => ?_) ?_ | with_reducible refine Pad.restoreWins_wf _ _ _ ?_ | with_reducible refine (Pad.rowDead_mem _ _).symm ▸ ?_ | split)

theorem State.passBegin_sound {v} (s : State) (a1) (a2) (a3) (a4) (h : sound v s) : sound v (State.passBegin s a1 a2 a3 a4) := by
  unfold State.passBegin; try dsimp only
  repeat' (first | with_reducible assumption | with_reducible refine ite_keep (P := sound _) ?_ ?_ | with_reducible refine State.osBlock_sound _ _ _ _ _ ?_ | with_reducible refine State.modArr_sound _ _ _ ?_)

theorem State.chunkBegin_sound {v} (s : State) (a1) (a2) (a3) (a4) (h : sound v s) : sound v (State.chunkBegin s a1 a2 a3 a4) := by
  unfold State.chunkBegin; try dsimp only
  repeat' (first | with_reducible assumption | with_reducible refine ite_keep (P := sound _) ?_ ?_ | with_reducible refine State.modArr_sound _ _ _ ?_ | with_reducible refine State.passBegin_sound _ _ _ _ _ ?_)

theorem State.dropGets_sound {v} (s : State) (a1) (a2) (a3) (h : sound v s) : sound v (State.dropGets s a1 a2 a3) := by
  unfold State.dropGets; try dsimp only
  repeat' (first | with_reducible assumption | with_reducible refine ite_keep (P := sound _) ?_ ?_ | with_reducible refine State.modCore_sound (fun _ => rfl) ?_)

theorem State.chunkEnd_sound {v} (s : State) (a1) (a2) (h : sound v s) : sound v (State.chunkEnd s a1 a2) := by
  unfold State.chunkEnd; try dsimp only
  repeat' (first | with_reducible assumption | with_reducible refine ite_keep (P := sound _) ?_ ?_ | with_reducible refine State.dropGets_sound _ _ _ _ ?_ | with_reducible refine State.modArr_sound _ _ _ ?_)

theorem State.chunkOf_sound {v} (s : State) (a1) (a2) (h : sound v s) : sound v (State.chunkOf s a1 a2).1 := by
  unfold State.chunkOf; try dsimp only
  repeat' (first | with_reducible assumption | with_reducible refine ite_keep (P := sound _) ?_ ?_ | with_reducible refine State.modArr_sound _ _ _ ?_)
theorem State.chunkOf_sound_eq {v} {s : State} {a1} {a2} {t} {y} (e : State.chunkOf s a1 a2 = (t, y)) (h : sound v s) : sound v t := by
  have := State.chunkOf_sound s a1 a2 h; rwa [e] at this

theorem State.farReady_sound {v} (s : State) (a1) (a2) (a3) (a4) (a5) (a6) (a7) (h : sound v s) : sound v (State.farReady s a1 a2 a3 a4 a5 a6 a7).1 := by
  unfold State.farReady; try dsimp only
  repeat' (first | with_reducible assumption | with_reducible refine ite_keep (P := sound _) ?_ ?_ | with_reducible refine State.askRow_sound _ _ _ _ _ _ _ _ ?_ | with_reducible refine foldl_keep (P := sound _) (fun _ _ _ => ?_) ?_)
theorem State.farReady_sound_eq {v} {s : State} {a1} {a2} {a3} {a4} {a5} {a6} {a7} {t} {y} (e : State.farReady s a1 a2 a3 a4 a5 a6 a7 = (t, y)) (h : sound v s) : sound v t := by
  have := State.farReady_sound s a1 a2 a3 a4 a5 a6 a7 h; rwa [e] at this

theorem State.chunkReady_sound {v} (s : State) (a1) (a2) (h : sound v s) : sound v (State.chunkReady s a1 a2).1 := by
  unfold State.chunkReady; try dsimp only
  repeat' (first | with_reducible assumption | with_reducible refine ite_keep (P := sound _) ?_ ?_ | with_reducible refine State.farReady_sound _ _ _ _ _ _ _ _ ?_)
theorem State.chunkReady_sound_eq {v} {s : State} {a1} {a2} {t} {y} (e : State.chunkReady s a1 a2 = (t, y)) (h : sound v s) : sound v t := by
  have := State.chunkReady_sound s a1 a2 h; rwa [e] at this

theorem State.clocked_sound {v} (s : State) (f : State → State) (hf : ∀ s, sound v s → sound v (f s)) (h : sound v s) : sound v (State.clocked s f) := by
  unfold State.clocked; split
  · exact h
  · exact hf s h

theorem State.syncLife_sound {v} (s : State) (h : sound v s) : sound v (State.syncLife s) := by
  unfold State.syncLife; try dsimp only
  repeat' (first | with_reducible assumption | with_reducible refine ite_keep (P := sound _) ?_ ?_ | with_reducible refine State.modSec_sound _ _ ?_ | with_reducible refine State.raise_sound _ _ _ _ _ ?_ | with_reducible refine State.beginWipe_sound _ _ ?_)

theorem State.modDoip_sound {v} (s : State) (a1) (a2) (h : sound v s) : sound v (State.modDoip s a1 a2) := by
  unfold State.modDoip; try dsimp only
  repeat' (first | with_reducible assumption | with_reducible refine ite_keep (P := sound _) ?_ ?_ | with_reducible refine foldl_keep (P := sound _) (fun _ _ _ => ?_) ?_ | with_reducible refine foldl_fst (P := sound _) (fun _ _ _ => ?_) ?_ | with_reducible refine Pad.restoreWins_wf _ _ _ ?_ | with_reducible refine (Pad.rowDead_mem _ _).symm ▸ ?_ | split | dsimp only | fail_if_no_progress (rw [sound_mk]; refine sound_of rfl rfl rfl rfl rfl ?_))

theorem State.closeDoip_sound {v} (s : State) (a1) (h : sound v s) : sound v (State.closeDoip s a1) := by
  unfold State.closeDoip; try dsimp only
  repeat' (first | with_reducible assumption | with_reducible refine ite_keep (P := sound _) ?_ ?_ | with_reducible refine State.syncLife_sound _ ?_ | with_reducible refine State.modDoip_sound _ _ _ ?_)

theorem State.closeDue_sound {v} (s : State) (h : sound v s) : sound v (State.closeDue s) := by
  unfold State.closeDue; try dsimp only
  repeat' (first | with_reducible assumption | with_reducible refine ite_keep (P := sound _) ?_ ?_ | with_reducible refine State.swTake_sound _ ?_ | with_reducible refine State.closeAssembly_sound _ _ _ ?_ | with_reducible refine foldl_keep (P := sound _) (fun _ _ _ => ?_) ?_)

theorem State.closeIfFree_sound {v} (s : State) (a1) (h : sound v s) : sound v (State.closeIfFree s a1) := by
  unfold State.closeIfFree; try dsimp only
  repeat' (first | with_reducible assumption | with_reducible refine ite_keep (P := sound _) ?_ ?_ | with_reducible refine State.resume_sound _ _ ?_ | with_reducible refine State.modPad_soundMem (fun _ hm => Pad.closeAll_wf _ hm) ?_ | with_reducible refine State.modPad_soundMem (fun _ hm => Pad.close_wf _ _ _ hm) ?_ | with_reducible refine State.modPad_soundMem (fun _ hm => Pad.load_wf _ _ _ _ _ hm) ?_ | with_reducible refine State.modPad_soundMem (fun _ hm => Pad.write_wf _ _ _ _ hm) ?_ | with_reducible refine State.modPad_soundMem (fun _ hm => Pad.closeConfidential_wf _ hm) ?_ | with_reducible refine State.modPad_sound (fun _ => rfl) ?_ | with_reducible refine State.modPad_soundMem (fun _ hm => ?_) ?_ | with_reducible refine foldl_keep (P := sound _) (fun _ _ _ => ?_) ?_ | with_reducible refine foldl_fst (P := sound _) (fun _ _ _ => ?_) ?_ | with_reducible refine Pad.restoreWins_wf _ _ _ ?_ | with_reducible refine (Pad.rowDead_mem _ _).symm ▸ ?_ | split)

theorem State.command_sound {v} (s : State) (w i j x) (c : State → Nat) (f : State → State) (hf : ∀ s, sound v s → sound v (f s)) (h : sound v s) :
    sound v (State.command s w i j x c f) := by
  have h1 := State.at_sound s w.t h
  unfold State.command; dsimp only
  repeat' (first | with_reducible assumption | with_reducible refine State.answer_sound _ _ ?_ | exact hf _ h1 | split)

theorem State.raiseFloor_sound {v} (s : State) (a1) (h : sound v s) : sound v (State.raiseFloor s a1) := by
  unfold State.raiseFloor; try dsimp only
  repeat' (first | with_reducible assumption | with_reducible refine ite_keep (P := sound _) ?_ ?_ | with_reducible refine foldl_keep (P := sound _) (fun _ _ _ => ?_) ?_ | with_reducible refine foldl_fst (P := sound _) (fun _ _ _ => ?_) ?_ | with_reducible refine Pad.restoreWins_wf _ _ _ ?_ | with_reducible refine (Pad.rowDead_mem _ _).symm ▸ ?_ | split | dsimp only | fail_if_no_progress (rw [sound_mk]; refine sound_of rfl rfl rfl rfl rfl ?_))

theorem State.takeImage_sound {v} (s : State) (a1) (h : sound v s) : sound v (State.takeImage s a1) := by
  unfold State.takeImage; try dsimp only
  repeat' (first | with_reducible assumption | with_reducible refine ite_keep (P := sound _) ?_ ?_ | with_reducible refine State.setNum_sound _ _ _ ?_ | with_reducible refine State.modExt_sound (fun _ => rfl) (fun _ => rfl) ?_)

theorem State.loadPlan_sound {v} (s : State) (a1) (h : sound v s) : sound v (State.loadPlan s a1) := by
  unfold State.loadPlan; try dsimp only
  repeat' (first | with_reducible assumption | with_reducible refine ite_keep (P := sound _) ?_ ?_ | with_reducible refine State.raise_sound _ _ _ _ _ ?_ | with_reducible refine State.setOct_sound _ _ _ ?_ | with_reducible refine foldl_keep (P := sound _) (fun _ _ _ => ?_) ?_ | with_reducible refine foldl_fst (P := sound _) (fun _ _ _ => ?_) ?_ | with_reducible refine Pad.restoreWins_wf _ _ _ ?_ | with_reducible refine (Pad.rowDead_mem _ _).symm ▸ ?_ | split | dsimp only | fail_if_no_progress (rw [sound_mk]; refine sound_of rfl rfl rfl rfl rfl ?_))

theorem State.setVer_sound {v} (s : State) (a1) (a2) (a3) (h : sound v s) : sound v (State.setVer s a1 a2 a3) := by
  unfold State.setVer; try dsimp only
  repeat' (first | with_reducible assumption | with_reducible refine ite_keep (P := sound _) ?_ ?_ | with_reducible refine State.showVers_sound _ _ ?_ | with_reducible refine State.modTable_sound _ _ _ ?_)

theorem State.loadTable_sound {v} (s : State) (a1) (a2) (a3) (h : sound v s) : sound v (State.loadTable s a1 a2 a3) := by
  unfold State.loadTable; try dsimp only
  repeat' (first | with_reducible assumption | with_reducible refine ite_keep (P := sound _) ?_ ?_ | with_reducible refine State.setVer_sound _ _ _ _ ?_ | with_reducible refine State.pPut_sound _ _ _ _ ?_ | with_reducible refine foldl_keep (P := sound _) (fun _ _ _ => ?_) ?_)

theorem State.useComponent_sound {v} (s : State) (a1) (a2) (h : sound v s) : sound v (State.useComponent s a1 a2) := by
  unfold State.useComponent; try dsimp only
  repeat' (first | with_reducible assumption | with_reducible refine ite_keep (P := sound _) ?_ ?_ | with_reducible refine State.loadPlan_sound _ _ ?_ | with_reducible refine State.setOct_sound _ _ _ ?_ | with_reducible refine State.loadProgram_sound _ _ _ ?_ | with_reducible refine State.loadTable_sound _ _ _ _ ?_ | with_reducible refine foldl_keep (P := sound _) (fun _ _ _ => ?_) ?_ | with_reducible refine foldl_fst (P := sound _) (fun _ _ _ => ?_) ?_ | with_reducible refine Pad.restoreWins_wf _ _ _ ?_ | with_reducible refine (Pad.rowDead_mem _ _).symm ▸ ?_ | split)

theorem State.withoutComponent_sound {v} (s : State) (a1) (h : sound v s) : sound v (State.withoutComponent s a1) := by
  unfold State.withoutComponent; try dsimp only
  repeat' (first | with_reducible assumption | with_reducible refine ite_keep (P := sound _) ?_ ?_ | with_reducible refine State.noSchedule_sound _ ?_ | with_reducible refine State.loadProgram_sound _ _ _ ?_ | with_reducible refine State.showVers_sound _ _ ?_ | with_reducible refine State.modTable_sound _ _ _ ?_ | with_reducible refine foldl_keep (P := sound _) (fun _ _ _ => ?_) ?_ | with_reducible refine foldl_fst (P := sound _) (fun _ _ _ => ?_) ?_ | with_reducible refine Pad.restoreWins_wf _ _ _ ?_ | with_reducible refine (Pad.rowDead_mem _ _).symm ▸ ?_ | split)

theorem State.useLibrary_sound {v} (s : State) (a1) (h : sound v s) : sound v (State.useLibrary s a1) := by
  unfold State.useLibrary; try dsimp only
  repeat' (first | with_reducible assumption | with_reducible refine ite_keep (P := sound _) ?_ ?_ | with_reducible refine State.fromLibrary_sound _ _ ?_ | with_reducible refine State.fromLibrary_sound_eq (by assumption) ?_ | with_reducible refine State.useComponent_sound _ _ _ ?_ | with_reducible refine State.withoutComponent_sound _ _ ?_ | with_reducible refine foldl_keep (P := sound _) (fun _ _ _ => ?_) ?_ | with_reducible refine foldl_fst (P := sound _) (fun _ _ _ => ?_) ?_ | with_reducible refine Pad.restoreWins_wf _ _ _ ?_ | with_reducible refine (Pad.rowDead_mem _ _).symm ▸ ?_ | split)

theorem State.takeEffect_sound {v} (s : State) (a1) (h : sound v s) : sound v (State.takeEffect s a1) := by
  unfold State.takeEffect; try dsimp only
  repeat' (first | with_reducible assumption | with_reducible refine ite_keep (P := sound _) ?_ ?_ | with_reducible refine State.restartMarigold_sound _ ?_ | with_reducible refine State.takeImage_sound _ _ ?_ | with_reducible refine State.useLibrary_sound _ _ ?_ | with_reducible refine foldl_keep (P := sound _) (fun _ _ _ => ?_) ?_ | with_reducible refine foldl_fst (P := sound _) (fun _ _ _ => ?_) ?_ | with_reducible refine Pad.restoreWins_wf _ _ _ ?_ | with_reducible refine (Pad.rowDead_mem _ _).symm ▸ ?_ | split)

theorem State.fillLibrary_sound {v} (s : State) (h : sound v s) : sound v (State.fillLibrary s) := by
  unfold State.fillLibrary; try dsimp only
  repeat' (first | with_reducible assumption | with_reducible refine ite_keep (P := sound _) ?_ ?_ | with_reducible refine State.dramPut_sound _ _ _ ?_ | with_reducible refine foldl_keep (P := sound _) (fun _ _ _ => ?_) ?_)

theorem State.completeActivation_sound {v} (s : State) (a1) (h : sound v s) : sound v (State.completeActivation s a1) := by
  unfold State.completeActivation; try dsimp only
  repeat' (first | with_reducible assumption | with_reducible refine ite_keep (P := sound _) ?_ ?_ | with_reducible refine State.raiseFloor_sound _ _ ?_ | with_reducible refine State.measureComp_sound _ _ ?_ | with_reducible refine State.takeEffect_sound _ _ ?_ | with_reducible refine State.fillLibrary_sound _ ?_ | with_reducible refine State.activateAccepted_sound _ ?_ | with_reducible refine State.store_sound _ _ _ ?_ | with_reducible refine State.setNum_sound _ _ _ ?_ | with_reducible refine State.raise_sound _ _ _ _ _ ?_ | with_reducible refine foldl_keep (P := sound _) (fun _ _ _ => ?_) ?_)

theorem State.conflict_sound {v} (s : State) (a1) (a2) (h : sound v s) : sound v (State.conflict s a1 a2) := by
  unfold State.conflict; try dsimp only
  repeat' (first | with_reducible assumption | with_reducible refine ite_keep (P := sound _) ?_ ?_ | with_reducible refine State.exceptRun_sound _ _ _ _ _ ?_ | with_reducible refine State.countRaise_sound _ _ _ _ _ ?_)

theorem State.convParam_sound {v} (s : State) (a1) (a2) (a3) (a4) (h : sound v s) : sound v (State.convParam s a1 a2 a3 a4).1 := by
  unfold State.convParam; try dsimp only
  repeat' (first | with_reducible assumption | with_reducible refine ite_keep (P := sound _) ?_ ?_ | with_reducible refine State.padRead_sound _ _ _ _ _ _ _ _ ?_ | with_reducible refine State.padRead_sound_eq (by assumption) ?_ | with_reducible refine foldl_keep (P := sound _) (fun _ _ _ => ?_) ?_ | with_reducible refine foldl_fst (P := sound _) (fun _ _ _ => ?_) ?_ | with_reducible refine Pad.restoreWins_wf _ _ _ ?_ | with_reducible refine (Pad.rowDead_mem _ _).symm ▸ ?_ | split)
theorem State.convParam_sound_eq {v} {s : State} {a1} {a2} {a3} {a4} {t} {y} (e : State.convParam s a1 a2 a3 a4 = (t, y)) (h : sound v s) : sound v t := by
  have := State.convParam_sound s a1 a2 a3 a4 h; rwa [e] at this

theorem State.convRow_sound {v} (s : State) (c p a b d) (i : Nat) (l) (h : sound v s) : sound v (State.convRow s c p a b d i l).1 := by
  induction l generalizing s i with
  | nil => exact h
  | cons x l ih =>
    unfold State.convRow
    have h1 := State.convParam_sound s c p d i h
    split <;> rename_i hx <;> rw [hx] at h1
    · exact h1
    · have h2 := ih _ (i + 1) h1
      split <;> rename_i hy <;> rw [hy] at h2 <;> exact h2
theorem State.convRow_sound_eq {v} {s : State} {a1} {a2} {a3} {a4} {a5} {a6} {a7} {t} {y} (e : State.convRow s a1 a2 a3 a4 a5 a6 a7 = (t, y)) (h : sound v s) : sound v t := by
  have := State.convRow_sound (v := v) s a1 a2 a3 a4 a5 a6 a7 h; rwa [e] at this

theorem State.convRows_sound {v} (s : State) (c p j) (l) (h : sound v s) : sound v (State.convRows s c p j l).1 := by
  induction l generalizing s with
  | nil => exact h
  | cons x l ih =>
    unfold State.convRows
    have h1 := State.convRow_sound s c p j.ts.fmt j.td.fmt j.par 0 (elems j.ts.fmt x) h
    split <;> rename_i hx <;> rw [hx] at h1
    · exact h1
    · have h2 := ih _ h1
      split <;> rename_i hy <;> rw [hy] at h2 <;> exact h2
theorem State.convRows_sound_eq {v} {s : State} {a1} {a2} {a3} {a4} {t} {y} (e : State.convRows s a1 a2 a3 a4 = (t, y)) (h : sound v s) : sound v t := by
  have := State.convRows_sound (v := v) s a1 a2 a3 a4 h; rwa [e] at this

theorem State.coresOver_sound {v} (s : State) (h : sound v s) : sound v (State.coresOver s) :=
  sound_cores Core.wipeOver (fun _ => rfl) h

theorem State.countActivation_sound {v} (s : State) (a1) (h : sound v s) : sound v (State.countActivation s a1) := by
  unfold State.countActivation; try dsimp only
  repeat' (first | with_reducible assumption | with_reducible refine ite_keep (P := sound _) ?_ ?_ | with_reducible refine State.raiseFloor_sound _ _ ?_ | with_reducible refine State.measureComp_sound _ _ ?_ | with_reducible refine State.store_sound _ _ _ ?_ | with_reducible refine State.raise_sound _ _ _ _ _ ?_ | with_reducible refine foldl_keep (P := sound _) (fun _ _ _ => ?_) ?_)

theorem State.countFinal_sound {v} (s : State) (a1) (h : sound v s) : sound v (State.countFinal s a1) := by
  unfold State.countFinal; try dsimp only
  repeat' (first | with_reducible assumption | with_reducible refine ite_keep (P := sound _) ?_ ?_ | with_reducible refine State.bump_sound _ _ _ ?_ | with_reducible refine State.setNum_sound _ _ _ ?_)

theorem State.modWin_sound {v} (s : State) (a1) (a2) (a3) (a4) (h : sound v s) : sound v (State.modWin s a1 a2 a3 a4) := by
  unfold State.modWin; try dsimp only
  repeat' (first | with_reducible assumption | with_reducible refine ite_keep (P := sound _) ?_ ?_ | with_reducible refine State.modPad_soundMem (fun _ hm => Pad.closeAll_wf _ hm) ?_ | with_reducible refine State.modPad_soundMem (fun _ hm => Pad.close_wf _ _ _ hm) ?_ | with_reducible refine State.modPad_soundMem (fun _ hm => Pad.load_wf _ _ _ _ _ hm) ?_ | with_reducible refine State.modPad_soundMem (fun _ hm => Pad.write_wf _ _ _ _ hm) ?_ | with_reducible refine State.modPad_soundMem (fun _ hm => Pad.closeConfidential_wf _ hm) ?_ | with_reducible refine State.modPad_sound (fun _ => rfl) ?_)

theorem State.wakeCore_sound {v} (s : State) (a1) (h : sound v s) : sound v (State.wakeCore s a1) := by
  unfold State.wakeCore; try dsimp only
  repeat' (first | with_reducible assumption | with_reducible refine ite_keep (P := sound _) ?_ ?_ | with_reducible refine State.dispatch_sound _ _ ?_ | with_reducible refine State.modInst_sound _ _ _ _ ?_ | with_reducible refine foldl_keep (P := sound _) (fun _ _ _ => ?_) ?_)

theorem State.kadd_sound {v} (s : State) (a1) (a2) (a3) (h : sound v s) : sound v (State.kadd s a1 a2 a3) := by
  unfold State.kadd; try dsimp only
  repeat' (first | with_reducible assumption | with_reducible refine ite_keep (P := sound _) ?_ ?_ | with_reducible refine State.countRaise_sound _ _ _ _ _ ?_ | with_reducible refine State.wakeCore_sound _ _ ?_ | with_reducible refine State.kset_sound _ _ _ _ ?_)

theorem State.counted_sound {v} (s : State) (a1) (a2) (h : sound v s) : sound v (State.counted s a1 a2) := by
  unfold State.counted; try dsimp only
  repeat' (first | with_reducible assumption | with_reducible refine ite_keep (P := sound _) ?_ ?_ | with_reducible refine State.modWin_sound _ _ _ _ _ ?_ | with_reducible refine State.kadd_sound _ _ _ _ ?_)

theorem State.setFull_sound {v} (s : State) (a1) (h : sound v s) : sound v (State.setFull s a1) := by
  unfold State.setFull; try dsimp only
  repeat' (first | with_reducible assumption | with_reducible refine ite_keep (P := sound _) ?_ ?_ | with_reducible refine State.modBooks_sound _ _ ?_ | with_reducible refine State.raiseComp_sound _ _ _ _ _ ?_ | with_reducible refine State.causeComp_sound _ _ _ ?_)

theorem State.finishSet_sound {v} (s : State) (a1) (a2) (a3) (h : sound v s) : sound v (State.finishSet s a1 a2 a3) := by
  unfold State.finishSet; try dsimp only
  repeat' (first | with_reducible assumption | with_reducible refine ite_keep (P := sound _) ?_ ?_ | with_reducible refine State.setFull_sound _ _ ?_ | with_reducible refine State.modBooks_sound _ _ ?_)

theorem State.judgeMisses_sound {v} (s : State) (a1) (a2) (a3) (a4) (a5) (h : sound v s) : sound v (State.judgeMisses s a1 a2 a3 a4 a5) := by
  unfold State.judgeMisses; try dsimp only
  repeat' (first | with_reducible assumption | with_reducible refine ite_keep (P := sound _) ?_ ?_ | with_reducible refine State.raise_sound _ _ _ _ _ ?_ | with_reducible refine State.modComp_sound _ _ ?_ | with_reducible refine State.modBooks_sound _ _ ?_)

theorem State.releaseBook_sound {v} (s : State) (a1) (a2) (a3) (a4) (a5) (a6) (a7) (h : sound v s) : sound v (State.releaseBook s a1 a2 a3 a4 a5 a6 a7) := by
  unfold State.releaseBook; try dsimp only
  repeat' (first | with_reducible assumption | with_reducible refine ite_keep (P := sound _) ?_ ?_ | with_reducible refine State.judgeMisses_sound _ _ _ _ _ _ ?_ | with_reducible refine State.countProbes_sound _ _ _ ?_ | with_reducible refine State.modBooks_sound _ _ ?_ | with_reducible refine foldl_keep (P := sound _) (fun _ _ _ => ?_) ?_ | with_reducible refine foldl_fst (P := sound _) (fun _ _ _ => ?_) ?_ | with_reducible refine Pad.restoreWins_wf _ _ _ ?_ | with_reducible refine (Pad.rowDead_mem _ _).symm ▸ ?_ | split)

theorem State.settleBook_sound {v} (s : State) (a1) (a2) (a3) (a4) (a5) (a6) (a7) (h : sound v s) : sound v (State.settleBook s a1 a2 a3 a4 a5 a6 a7) := by
  unfold State.settleBook; try dsimp only
  repeat' (first | with_reducible assumption | with_reducible refine ite_keep (P := sound _) ?_ ?_ | with_reducible refine State.releaseBook_sound _ _ _ _ _ _ _ _ ?_ | with_reducible refine State.judgeMisses_sound _ _ _ _ _ _ ?_)

theorem State.geometricSet_sound {v} (s : State) (a1) (a2) (h : sound v s) : sound v (State.geometricSet s a1 a2) := by
  unfold State.geometricSet; try dsimp only
  repeat' (first | with_reducible assumption | with_reducible refine ite_keep (P := sound _) ?_ ?_ | with_reducible refine State.finishSet_sound _ _ _ _ ?_ | with_reducible refine foldl_keep (P := sound _) (fun _ _ _ => ?_) ?_ | with_reducible refine foldl_fst (P := sound _) (fun _ _ _ => ?_) ?_ | with_reducible refine Pad.restoreWins_wf _ _ _ ?_ | with_reducible refine (Pad.rowDead_mem _ _).symm ▸ ?_ | split)

theorem State.geometricSets_sound {v} (s : State) (a1) (h : sound v s) : sound v (State.geometricSets s a1) := by
  unfold State.geometricSets; try dsimp only
  repeat' (first | with_reducible assumption | with_reducible refine ite_keep (P := sound _) ?_ ?_ | with_reducible refine State.geometricSet_sound _ _ _ ?_ | with_reducible refine foldl_keep (P := sound _) (fun _ _ _ => ?_) ?_)

theorem State.decideSet_sound {v} (s : State) (a1) (a2) (a3) (h : sound v s) : sound v (State.decideSet s a1 a2 a3) := by
  unfold State.decideSet; try dsimp only
  repeat' (first | with_reducible assumption | with_reducible refine ite_keep (P := sound _) ?_ ?_ | with_reducible refine State.finishSet_sound _ _ _ _ ?_ | with_reducible refine State.modBooks_sound _ _ ?_ | with_reducible refine State.settleBook_sound _ _ _ _ _ _ _ _ ?_ | with_reducible refine State.geometricSets_sound _ _ ?_ | with_reducible refine foldl_keep (P := sound _) (fun _ _ _ => ?_) ?_ | with_reducible refine foldl_fst (P := sound _) (fun _ _ _ => ?_) ?_ | with_reducible refine Pad.restoreWins_wf _ _ _ ?_ | with_reducible refine (Pad.rowDead_mem _ _).symm ▸ ?_ | split)

theorem State.padWrite_sound {v} (s : State) (a1) (a2) (a3) (a4) (a5) (a6) (h : sound v s) : sound v (State.padWrite s a1 a2 a3 a4 a5 a6).1 := by
  unfold State.padWrite; try dsimp only
  repeat' (first | with_reducible assumption | with_reducible refine ite_keep (P := sound _) ?_ ?_ | with_reducible refine State.accFault_sound _ _ _ _ ?_ | with_reducible refine State.modPad_soundMem (fun _ hm => Pad.closeAll_wf _ hm) ?_ | with_reducible refine State.modPad_soundMem (fun _ hm => Pad.close_wf _ _ _ hm) ?_ | with_reducible refine State.modPad_soundMem (fun _ hm => Pad.load_wf _ _ _ _ _ hm) ?_ | with_reducible refine State.modPad_soundMem (fun _ hm => Pad.write_wf _ _ _ _ hm) ?_ | with_reducible refine State.modPad_soundMem (fun _ hm => Pad.closeConfidential_wf _ hm) ?_ | with_reducible refine State.modPad_sound (fun _ => rfl) ?_ | with_reducible refine State.modPad_soundMem (fun _ hm => ?_) ?_ | with_reducible refine foldl_keep (P := sound _) (fun _ _ _ => ?_) ?_ | with_reducible refine foldl_fst (P := sound _) (fun _ _ _ => ?_) ?_ | with_reducible refine Pad.restoreWins_wf _ _ _ ?_ | with_reducible refine (Pad.rowDead_mem _ _).symm ▸ ?_ | split)
theorem State.padWrite_sound_eq {v} {s : State} {a1} {a2} {a3} {a4} {a5} {a6} {t} {y} (e : State.padWrite s a1 a2 a3 a4 a5 a6 = (t, y)) (h : sound v s) : sound v t := by
  have := State.padWrite_sound s a1 a2 a3 a4 a5 a6 h; rwa [e] at this

theorem State.putRows_sound {v} (s : State) (c p w b st) (i : Nat) (l) (h : sound v s) : sound v (State.putRows s c p w b st i l).1 := by
  induction l generalizing s i with
  | nil => exact h
  | cons x l ih =>
    unfold State.putRows
    have h1 := State.padWrite_sound s c p w (b + i * st) x none h
    split <;> rename_i hx <;> rw [hx] at h1
    · exact h1
    · exact ih _ _ h1
theorem State.putRows_sound_eq {v} {s : State} {a1} {a2} {a3} {a4} {a5} {a6} {a7} {t} {y} (e : State.putRows s a1 a2 a3 a4 a5 a6 a7 = (t, y)) (h : sound v s) : sound v t := by
  have := State.putRows_sound (v := v) s a1 a2 a3 a4 a5 a6 a7 h; rwa [e] at this

theorem State.deliver_sound {v} (s : State) (a1) (a2) (a3) (a4) (a5) (a6) (h : sound v s) : sound v (State.deliver s a1 a2 a3 a4 a5 a6).1 := by
  unfold State.deliver; try dsimp only
  repeat' (first | with_reducible assumption | with_reducible refine ite_keep (P := sound _) ?_ ?_ | with_reducible refine State.modArr_sound _ _ _ ?_ | with_reducible refine State.bump_sound _ _ _ ?_ | with_reducible refine State.putRows_sound _ _ _ _ _ _ _ _ ?_ | with_reducible refine State.putRows_sound_eq (by assumption) ?_ | with_reducible refine foldl_keep (P := sound _) (fun _ _ _ => ?_) ?_ | with_reducible refine foldl_fst (P := sound _) (fun _ _ _ => ?_) ?_ | with_reducible refine Pad.restoreWins_wf _ _ _ ?_ | with_reducible refine (Pad.rowDead_mem _ _).symm ▸ ?_ | split)
theorem State.deliver_sound_eq {v} {s : State} {a1} {a2} {a3} {a4} {a5} {a6} {t} {y} (e : State.deliver s a1 a2 a3 a4 a5 a6 = (t, y)) (h : sound v s) : sound v t := by
  have := State.deliver_sound s a1 a2 a3 a4 a5 a6 h; rwa [e] at this

theorem State.tileNext_sound {v} (s : State) (a1) (a2) (h : sound v s) : sound v (State.tileNext s a1 a2) := by
  unfold State.tileNext; try dsimp only
  repeat' (first | with_reducible assumption | with_reducible refine ite_keep (P := sound _) ?_ ?_ | with_reducible refine State.retireNext_sound _ _ ?_ | with_reducible refine State.save_sound _ _ _ ?_ | with_reducible refine State.dueEvent_sound _ _ _ _ ?_)

theorem State.tileAct_sound {v} (s : State) (a1) (a2) (a3) (h : sound v s) : sound v (State.tileAct s a1 a2 a3) := by
  unfold State.tileAct; try dsimp only
  repeat' (first | with_reducible assumption | with_reducible refine ite_keep (P := sound _) ?_ ?_ | with_reducible refine State.tileNext_sound _ _ _ ?_ | with_reducible refine State.dueEvent_sound _ _ _ _ ?_ | with_reducible refine State.save_sound _ _ _ ?_ | with_reducible refine State.modArr_sound _ _ _ ?_ | with_reducible refine foldl_keep (P := sound _) (fun _ _ _ => ?_) ?_ | with_reducible refine foldl_fst (P := sound _) (fun _ _ _ => ?_) ?_ | with_reducible refine Pad.restoreWins_wf _ _ _ ?_ | with_reducible refine (Pad.rowDead_mem _ _).symm ▸ ?_ | split)

theorem State.diagnosed_sound {v} (s : State) (a1) (a2) (h : sound v s) : sound v (State.diagnosed s a1 a2) := by
  unfold State.diagnosed; try dsimp only
  repeat' (first | with_reducible assumption | with_reducible refine ite_keep (P := sound _) ?_ ?_ | with_reducible refine State.tileAct_sound _ _ _ _ ?_ | with_reducible refine State.modPad_soundMem (fun _ hm => Pad.closeAll_wf _ hm) ?_ | with_reducible refine State.modPad_soundMem (fun _ hm => Pad.close_wf _ _ _ hm) ?_ | with_reducible refine State.modPad_soundMem (fun _ hm => Pad.load_wf _ _ _ _ _ hm) ?_ | with_reducible refine State.modPad_soundMem (fun _ hm => Pad.write_wf _ _ _ _ hm) ?_ | with_reducible refine State.modPad_soundMem (fun _ hm => Pad.closeConfidential_wf _ hm) ?_ | with_reducible refine State.modPad_sound (fun _ => rfl) ?_ | with_reducible refine State.modPad_soundMem (fun _ hm => ?_) ?_ | with_reducible refine foldl_keep (P := sound _) (fun _ _ _ => ?_) ?_ | with_reducible refine foldl_fst (P := sound _) (fun _ _ _ => ?_) ?_ | with_reducible refine Pad.restoreWins_wf _ _ _ ?_ | with_reducible refine (Pad.rowDead_mem _ _).symm ▸ ?_ | split)

theorem State.dmaTake_sound {v} (s : State) (a1) (h : sound v s) : sound v (State.dmaTake s a1) := by
  unfold State.dmaTake; try dsimp only
  repeat' (first | with_reducible assumption | with_reducible refine ite_keep (P := sound _) ?_ ?_ | with_reducible refine State.modSeq_sound _ _ _ ?_)

theorem State.dmaEnter_sound {v} (s : State) (c j) (h : sound v s) : effSound v (State.dmaEnter s c j) := by
  unfold State.dmaEnter
  split
  · exact h
  · exact State.dmaTake_sound _ _ (State.modSeq_sound _ _ _ h)

theorem State.dmaPop_sound {v} (s : State) (a1) (h : sound v s) : sound v (State.dmaPop s a1) := by
  unfold State.dmaPop; try dsimp only
  repeat' (first | with_reducible assumption | with_reducible refine ite_keep (P := sound _) ?_ ?_ | with_reducible refine State.dmaTake_sound _ _ ?_ | with_reducible refine State.modSeq_sound _ _ _ ?_)

theorem State.dmaFinish_sound {v} (s : State) (a1) (a2) (h : sound v s) : sound v (State.dmaFinish s a1 a2) := by
  unfold State.dmaFinish; try dsimp only
  repeat' (first | with_reducible assumption | with_reducible refine ite_keep (P := sound _) ?_ ?_ | with_reducible refine State.dmaPop_sound _ _ ?_ | with_reducible refine State.kadd_sound _ _ _ _ ?_ | with_reducible refine State.closeIfFree_sound _ _ ?_ | with_reducible refine foldl_keep (P := sound _) (fun _ _ _ => ?_) ?_ | with_reducible refine foldl_fst (P := sound _) (fun _ _ _ => ?_) ?_ | with_reducible refine Pad.restoreWins_wf _ _ _ ?_ | with_reducible refine (Pad.rowDead_mem _ _).symm ▸ ?_ | split)

theorem State.dmaIns_sound {v} (s : State) (a1) (a2) (a3) (a4) (h : sound v s) : sound v (State.dmaIns s a1 a2 a3 a4) := by
  unfold State.dmaIns; try dsimp only
  repeat' (first | with_reducible assumption | with_reducible refine ite_keep (P := sound _) ?_ ?_ | with_reducible refine State.issue_sound _ _ _ _ _ _ (fun _ _ _ => ?_) ?_ | with_reducible refine ite_keep (P := effSound _) ?_ ?_ | with_reducible refine effSound_next ?_ | with_reducible refine effSound_jump ?_ | with_reducible refine effSound_stay ?_ | with_reducible refine effSound_exc ?_ | with_reducible refine State.dmaEnter_sound _ _ _ ?_)

theorem State.quiet_sound {v} (s : State) (h : sound v s) : sound v (State.quiet s) := by
  unfold State.quiet; try dsimp only
  repeat' (first | with_reducible assumption | with_reducible refine ite_keep (P := sound _) ?_ ?_ | with_reducible refine State.modNet_sound _ _ ?_)

theorem State.doipSend_sound {v} (s : State) (a1) (a2) (a3) (a4) (h : sound v s) : sound v (State.doipSend s a1 a2 a3 a4) := by
  unfold State.doipSend; try dsimp only
  repeat' (first | with_reducible assumption | with_reducible refine ite_keep (P := sound _) ?_ ?_ | with_reducible refine State.sendOn_sound _ _ _ _ _ _ _ _ _ ?_)

end Sys2Proof.Machine
end

