-- ==== Sys2Proof/Laws/Sound05.lean ====
section
/-! SUPPORT. What operations and meanings keep, part 6 of 12: the queue of waiting commands, every parser engine as R55 and R59 have it, and the
canonical form of every byte memory (`sound`). Callees come before their callers, so a lemma cites those of the operations it unfolds to. -/

namespace Sys2Proof.Machine

theorem State.doipRequest_sound {v} (s : State) (r b) (f : State → State) (hf : ∀ s, sound v s → sound v (f s)) (h : sound v s) :
    sound v (State.doipRequest s r b f) := by
  have h1 := State.quiet_sound _ (State.at_sound s r.t h)
  unfold State.doipRequest; dsimp only
  split
  · exact h1
  · split
    · exact State.doipSend_sound _ _ _ _ _ h1
    · exact hf _ h1

theorem State.sendRow_sound {v} (s : State) (a1) (a2) (a3) (a4) (a5) (a6) (a7) (a8) (a9) (h : sound v s) : sound v (State.sendRow s a1 a2 a3 a4 a5 a6 a7 a8 a9) := by
  unfold State.sendRow; try dsimp only
  repeat' (first | with_reducible assumption | with_reducible refine ite_keep (P := sound _) ?_ ?_ | with_reducible refine State.request_sound _ _ _ _ _ _ _ _ ?_ | with_reducible refine foldl_keep (P := sound _) (fun _ _ _ => ?_) ?_)

theorem State.placeRow_sound {v} (s : State) (a1) (a2) (a3) (a4) (a5) (a6) (a7) (a8) (a9) (h : sound v s) : sound v (State.placeRow s a1 a2 a3 a4 a5 a6 a7 a8 a9).1 := by
  unfold State.placeRow; try dsimp only
  repeat' (first | with_reducible assumption | with_reducible refine ite_keep (P := sound _) ?_ ?_ | with_reducible refine State.padWrite_sound _ _ _ _ _ _ _ ?_ | with_reducible refine State.padWrite_sound_eq (by assumption) ?_ | with_reducible refine State.padAtomic_sound _ _ _ _ _ _ _ _ _ ?_ | with_reducible refine State.padAtomic_sound_eq (by assumption) ?_ | with_reducible refine State.sendRow_sound _ _ _ _ _ _ _ _ _ _ ?_ | with_reducible refine foldl_keep (P := sound _) (fun _ _ _ => ?_) ?_ | with_reducible refine foldl_fst (P := sound _) (fun _ _ _ => ?_) ?_ | with_reducible refine Pad.restoreWins_wf _ _ _ ?_ | with_reducible refine (Pad.rowDead_mem _ _).symm ▸ ?_ | split)
theorem State.placeRow_sound_eq {v} {s : State} {a1} {a2} {a3} {a4} {a5} {a6} {a7} {a8} {a9} {t} {y} (e : State.placeRow s a1 a2 a3 a4 a5 a6 a7 a8 a9 = (t, y)) (h : sound v s) : sound v t := by
  have := State.placeRow_sound s a1 a2 a3 a4 a5 a6 a7 a8 a9 h; rwa [e] at this

theorem State.replay_sound {v} (s : State) (a1) (h : sound v s) : sound v (State.replay s a1) := by
  unfold State.replay; try dsimp only
  repeat' (first | with_reducible assumption | with_reducible refine ite_keep (P := sound _) ?_ ?_ | with_reducible refine foldl_keep (P := sound _) (fun _ _ _ => ?_) ?_ | with_reducible refine foldl_fst (P := sound _) (fun _ _ _ => ?_) ?_ | with_reducible refine Pad.restoreWins_wf _ _ _ ?_ | with_reducible refine (Pad.rowDead_mem _ _).symm ▸ ?_ | split | dsimp only | fail_if_no_progress (rw [sound_mk]; refine sound_of rfl rfl rfl rfl rfl ?_))

theorem State.rowWrite_sound {v} (s : State) (a1) (a2) (a3) (a4) (a5) (a6) (a7) (a8) (h : sound v s) : sound v (State.rowWrite s a1 a2 a3 a4 a5 a6 a7 a8).1 := by
  unfold State.rowWrite; try dsimp only
  repeat' (first | with_reducible assumption | with_reducible refine ite_keep (P := sound _) ?_ ?_ | with_reducible refine State.placeRow_sound _ _ _ _ _ _ _ _ _ _ ?_ | with_reducible refine State.placeRow_sound_eq (by assumption) ?_ | with_reducible refine State.dramPut_sound _ _ _ ?_ | with_reducible refine State.replay_sound _ _ ?_ | with_reducible refine State.indexRec_sound _ _ _ _ _ _ ?_ | with_reducible refine State.indexRec_sound_eq (by assumption) ?_ | with_reducible refine State.skipIndex_sound _ _ ?_ | with_reducible refine foldl_keep (P := sound _) (fun _ _ _ => ?_) ?_ | with_reducible refine foldl_fst (P := sound _) (fun _ _ _ => ?_) ?_ | with_reducible refine Pad.restoreWins_wf _ _ _ ?_ | with_reducible refine (Pad.rowDead_mem _ _).symm ▸ ?_ | split)
theorem State.rowWrite_sound_eq {v} {s : State} {a1} {a2} {a3} {a4} {a5} {a6} {a7} {a8} {t} {y} (e : State.rowWrite s a1 a2 a3 a4 a5 a6 a7 a8 = (t, y)) (h : sound v s) : sound v t := by
  have := State.rowWrite_sound s a1 a2 a3 a4 a5 a6 a7 a8 h; rwa [e] at this

theorem State.rowsWrite_sound {v} (s : State) (c t pc d o e) (i : Nat) (l) (h : sound v s) : sound v (State.rowsWrite s c t pc d o e i l).1 := by
  induction l generalizing s i e with
  | nil => exact h
  | cons x l ih =>
    unfold State.rowsWrite
    have h1 := State.rowWrite_sound s c t pc d i o x e h
    split <;> rename_i hx <;> rw [hx] at h1
    · exact h1
    · exact ih _ _ _ h1
theorem State.rowsWrite_sound_eq {v} {s : State} {a1} {a2} {a3} {a4} {a5} {a6} {a7} {a8} {t} {y} (e : State.rowsWrite s a1 a2 a3 a4 a5 a6 a7 a8 = (t, y)) (h : sound v s) : sound v t := by
  have := State.rowsWrite_sound (v := v) s a1 a2 a3 a4 a5 a6 a7 a8 h; rwa [e] at this

theorem State.drain_sound {v} (s : State) (a1) (a2) (a3) (h : sound v s) : sound v (State.drain s a1 a2 a3) := by
  unfold State.drain; try dsimp only
  repeat' (first | with_reducible assumption | with_reducible refine ite_keep (P := sound _) ?_ ?_ | with_reducible refine State.modSeq_sound _ _ _ ?_ | with_reducible refine State.bump_sound _ _ _ ?_ | with_reducible refine State.rowsWrite_sound _ _ _ _ _ _ _ _ _ ?_ | with_reducible refine State.rowsWrite_sound_eq (by assumption) ?_ | with_reducible refine State.exceptRun_sound _ _ _ _ _ ?_ | with_reducible refine State.closeIfFree_sound _ _ ?_ | with_reducible refine State.modArr_sound _ _ _ ?_ | with_reducible refine foldl_keep (P := sound _) (fun _ _ _ => ?_) ?_ | with_reducible refine foldl_fst (P := sound _) (fun _ _ _ => ?_) ?_ | with_reducible refine Pad.restoreWins_wf _ _ _ ?_ | with_reducible refine (Pad.rowDead_mem _ _).symm ▸ ?_ | split)

theorem State.dropClosed_sound {v} (s : State) (a1) (a2) (h : sound v s) : sound v (State.dropClosed s a1 a2) := by
  unfold State.dropClosed; try dsimp only
  repeat' (first | with_reducible assumption | with_reducible refine ite_keep (P := sound _) ?_ ?_ | with_reducible refine State.modTable_sound _ _ _ ?_)

theorem State.dropLevel_sound {v} (s : State) (a1) (h : sound v s) : sound v (State.dropLevel s a1) := by
  unfold State.dropLevel; try dsimp only
  repeat' (first | with_reducible assumption | with_reducible refine ite_keep (P := sound _) ?_ ?_ | with_reducible refine State.syncLife_sound _ ?_ | with_reducible refine State.modSession_sound _ _ _ ?_)

theorem State.dropPacket_sound {v} (s : State) (a1) (a2) (h : sound v s) : sound v (State.dropPacket s a1 a2) := by
  unfold State.dropPacket; try dsimp only
  repeat' (first | with_reducible assumption | with_reducible refine ite_keep (P := sound _) ?_ ?_ | with_reducible refine State.bump_sound _ _ _ ?_ | with_reducible refine foldl_keep (P := sound _) (fun _ _ _ => ?_) ?_ | with_reducible refine foldl_fst (P := sound _) (fun _ _ _ => ?_) ?_ | with_reducible refine Pad.restoreWins_wf _ _ _ ?_ | with_reducible refine (Pad.rowDead_mem _ _).symm ▸ ?_ | split | dsimp only | fail_if_no_progress (rw [sound_mk]; refine sound_of rfl rfl rfl rfl rfl ?_))

theorem State.peDrop_sound {v} (s : State) (a1) (h : sound v s) : sound v (State.peDrop s a1) := by
  unfold State.peDrop; try dsimp only
  repeat' (first | with_reducible assumption | with_reducible refine ite_keep (P := sound _) ?_ ?_ | with_reducible refine foldl_keep (P := sound _) (fun _ _ _ => ?_) ?_ | with_reducible refine foldl_fst (P := sound _) (fun _ _ _ => ?_) ?_ | with_reducible refine Pad.restoreWins_wf _ _ _ ?_ | with_reducible refine (Pad.rowDead_mem _ _).symm ▸ ?_ | split | dsimp only | fail_if_no_progress (rw [sound_mk]; refine sound_of rfl rfl rfl rfl rfl ?_))

theorem State.dropSlot_sound {v} (s : State) (a1) (a2) (a3) (h : sound v s) : sound v (State.dropSlot s a1 a2 a3) := by
  unfold State.dropSlot; try dsimp only
  repeat' (first | with_reducible assumption | with_reducible refine ite_keep (P := sound _) ?_ ?_ | with_reducible refine State.peDrop_sound _ _ ?_ | with_reducible refine State.bump_sound _ _ _ ?_ | with_reducible refine State.modTable_sound _ _ _ ?_)

theorem State.emit_sound {v} (s : State) (a1) (a2) (h : sound v s) : sound v (State.emit s a1 a2) := by
  unfold State.emit; try dsimp only
  repeat' (first | with_reducible assumption | with_reducible refine ite_keep (P := sound _) ?_ ?_ | with_reducible refine State.bump_sound _ _ _ ?_ | with_reducible refine State.modPts_sound _ _ _ ?_ | with_reducible refine State.modHead_sound _ _ _ ?_ | with_reducible refine foldl_keep (P := sound _) (fun _ _ _ => ?_) ?_ | with_reducible refine foldl_fst (P := sound _) (fun _ _ _ => ?_) ?_ | with_reducible refine Pad.restoreWins_wf _ _ _ ?_ | with_reducible refine (Pad.rowDead_mem _ _).symm ▸ ?_ | split | dsimp only | fail_if_no_progress (rw [sound_mk]; refine sound_of rfl rfl rfl rfl rfl ?_))

theorem State.emptyStage_sound {v} (s : State) (h : sound v s) : sound v (State.emptyStage s) := by
  unfold State.emptyStage; try dsimp only
  repeat' (first | with_reducible assumption | with_reducible refine ite_keep (P := sound _) ?_ ?_ | with_reducible refine State.showHeap_sound _ ?_ | with_reducible refine State.modSec_sound _ _ ?_)

theorem State.endSession_sound {v} (s : State) (a1) (h : sound v s) : sound v (State.endSession s a1) := by
  unfold State.endSession; try dsimp only
  repeat' (first | with_reducible assumption | with_reducible refine ite_keep (P := sound _) ?_ ?_ | with_reducible refine State.syncLife_sound _ ?_ | with_reducible refine foldl_keep (P := sound _) (fun _ _ _ => ?_) ?_ | with_reducible refine foldl_fst (P := sound _) (fun _ _ _ => ?_) ?_ | with_reducible refine Pad.restoreWins_wf _ _ _ ?_ | with_reducible refine (Pad.rowDead_mem _ _).symm ▸ ?_ | split | dsimp only | fail_if_no_progress (rw [sound_mk]; refine sound_of rfl rfl rfl rfl rfl ?_))

theorem State.enterLife_sound {v} (s : State) (a1) (h : sound v s) : sound v (State.enterLife s a1) := by
  unfold State.enterLife; try dsimp only
  repeat' (first | with_reducible assumption | with_reducible refine ite_keep (P := sound _) ?_ ?_ | with_reducible refine State.modSec_sound _ _ ?_ | with_reducible refine State.setNum_sound _ _ _ ?_ | with_reducible refine State.extend_sound _ _ _ ?_ | with_reducible refine State.store_sound _ _ _ ?_ | with_reducible refine State.raise_sound _ _ _ _ _ ?_)

theorem State.enterSlot_sound {v} (s : State) (a1) (a2) (h : sound v s) : sound v (State.enterSlot s a1 a2) := by
  unfold State.enterSlot; try dsimp only
  repeat' (first | with_reducible assumption | with_reducible refine ite_keep (P := sound _) ?_ ?_ | with_reducible refine State.modSched_sound _ _ ?_)

theorem State.publishBooks_sound {v} (s : State) (h : sound v s) : sound v (State.publishBooks s) := by
  unfold State.publishBooks; try dsimp only
  repeat' (first | with_reducible assumption | with_reducible refine ite_keep (P := sound _) ?_ ?_ | with_reducible refine State.setNum_sound _ _ _ ?_ | with_reducible refine State.setOct_sound _ _ _ ?_ | with_reducible refine foldl_keep (P := sound _) (fun _ _ _ => ?_) ?_)

theorem State.exportLost_sound {v} (s : State) (a1) (h : sound v s) : sound v (State.exportLost s a1) := by
  unfold State.exportLost; try dsimp only
  repeat' (first | with_reducible assumption | with_reducible refine ite_keep (P := sound _) ?_ ?_ | with_reducible refine State.publishBooks_sound _ ?_ | with_reducible refine State.raiseComp_sound _ _ _ _ _ ?_ | with_reducible refine State.causeComp_sound _ _ _ ?_ | with_reducible refine foldl_keep (P := sound _) (fun _ _ _ => ?_) ?_ | with_reducible refine foldl_fst (P := sound _) (fun _ _ _ => ?_) ?_ | with_reducible refine Pad.restoreWins_wf _ _ _ ?_ | with_reducible refine (Pad.rowDead_mem _ _).symm ▸ ?_ | split | dsimp only | fail_if_no_progress (rw [sound_mk]; refine sound_of rfl rfl rfl rfl rfl ?_))

theorem State.feWrite_sound {v} (s : State) (a1) (a2) (a3) (a4) (a5) (a6) (a7) (h : sound v s) : sound v (State.feWrite s a1 a2 a3 a4 a5 a6 a7) := by
  unfold State.feWrite; try dsimp only
  repeat' (first | with_reducible assumption | with_reducible refine ite_keep (P := sound _) ?_ ?_ | with_reducible refine State.request_sound _ _ _ _ _ _ _ _ ?_ | with_reducible refine foldl_keep (P := sound _) (fun _ _ _ => ?_) ?_)

theorem State.newItem_sound {v} (s : State) (h : sound v s) : sound v (State.newItem s) := by
  unfold State.newItem; try dsimp only
  repeat' (first | with_reducible assumption | with_reducible refine ite_keep (P := sound _) ?_ ?_ | with_reducible refine State.modBooks_sound _ _ ?_)

theorem State.exportRow_sound {v} (s : State) (a1) (a2) (a3) (a4) (a5) (h : sound v s) : sound v (State.exportRow s a1 a2 a3 a4 a5) := by
  unfold State.exportRow; try dsimp only
  repeat' (first | with_reducible assumption | with_reducible refine ite_keep (P := sound _) ?_ ?_ | with_reducible refine State.feWrite_sound _ _ _ _ _ _ _ _ ?_ | with_reducible refine State.newItem_sound _ ?_ | with_reducible refine foldl_keep (P := sound _) (fun _ _ _ => ?_) ?_)

theorem State.failGet_sound {v} (s : State) (a1) (a2) (a3) (h : sound v s) : sound v (State.failGet s a1 a2 a3) := by
  unfold State.failGet; try dsimp only
  repeat' (first | with_reducible assumption | with_reducible refine ite_keep (P := sound _) ?_ ?_ | with_reducible refine State.dmaTake_sound _ _ ?_ | with_reducible refine State.modSeq_sound _ _ _ ?_ | with_reducible refine State.dropGets_sound _ _ _ _ ?_)

theorem State.failHyper_sound {v} (s : State) (a1) (h : sound v s) : sound v (State.failHyper s a1) := by
  unfold State.failHyper; try dsimp only
  repeat' (first | with_reducible assumption | with_reducible refine ite_keep (P := sound _) ?_ ?_ | with_reducible refine State.raise_sound _ _ _ _ _ ?_ | with_reducible refine State.store_sound _ _ _ ?_ | with_reducible refine State.stopMarigold_sound _ ?_ | with_reducible refine State.setMarigold_sound _ _ ?_)

theorem State.peSend_sound {v} (s : State) (a1) (a2) (a3) (a4) (a5) (a6) (a7) (a8) (a9) (a10) (h : sound v s) : sound v (State.peSend s a1 a2 a3 a4 a5 a6 a7 a8 a9 a10) := by
  unfold State.peSend; try dsimp only
  repeat' (first | with_reducible assumption | with_reducible refine ite_keep (P := sound _) ?_ ?_ | with_reducible refine State.request_sound _ _ _ _ _ _ _ _ ?_ | with_reducible refine foldl_keep (P := sound _) (fun _ _ _ => ?_) ?_ | with_reducible refine foldl_fst (P := sound _) (fun _ _ _ => ?_) ?_ | with_reducible refine Pad.restoreWins_wf _ _ _ ?_ | with_reducible refine (Pad.rowDead_mem _ _).symm ▸ ?_ | split)

theorem State.fillRow_sound {v} (s : State) (a1) (a2) (a3) (a4) (h : sound v s) : sound v (State.fillRow s a1 a2 a3 a4) := by
  unfold State.fillRow; try dsimp only
  repeat' (first | with_reducible assumption | with_reducible refine ite_keep (P := sound _) ?_ ?_ | with_reducible refine State.modTable_sound _ _ _ ?_ | with_reducible refine State.bump_sound _ _ _ ?_ | with_reducible refine State.peSend_sound _ _ _ _ _ _ _ _ _ _ _ ?_ | with_reducible refine foldl_keep (P := sound _) (fun _ _ _ => ?_) ?_ | with_reducible refine foldl_fst (P := sound _) (fun _ _ _ => ?_) ?_ | with_reducible refine Pad.restoreWins_wf _ _ _ ?_ | with_reducible refine (Pad.rowDead_mem _ _).symm ▸ ?_ | split | dsimp only | fail_if_no_progress (rw [sound_mk]; refine sound_of rfl rfl rfl rfl rfl ?_))

theorem State.judgeAgain_sound {v} (s : State) (a1) (h : sound v s) : sound v (State.judgeAgain s a1) := by
  unfold State.judgeAgain; try dsimp only
  repeat' (first | with_reducible assumption | with_reducible refine ite_keep (P := sound _) ?_ ?_ | with_reducible refine State.judgeShares_sound _ _ ?_)

theorem State.logPoint_sound {v} (s : State) (a1) (h : sound v s) : sound v (State.logPoint s a1) := by
  unfold State.logPoint; try dsimp only
  repeat' (first | with_reducible assumption | with_reducible refine ite_keep (P := sound _) ?_ ?_ | with_reducible refine State.modPts_sound _ _ _ ?_ | with_reducible refine foldl_keep (P := sound _) (fun _ _ _ => ?_) ?_ | with_reducible refine foldl_fst (P := sound _) (fun _ _ _ => ?_) ?_ | with_reducible refine Pad.restoreWins_wf _ _ _ ?_ | with_reducible refine (Pad.rowDead_mem _ _).symm ▸ ?_ | split | dsimp only | fail_if_no_progress (rw [sound_mk]; refine sound_of rfl rfl rfl rfl rfl ?_))

theorem State.finishPoint_sound {v} (s : State) (a1) (h : sound v s) : sound v (State.finishPoint s a1) := by
  unfold State.finishPoint; try dsimp only
  repeat' (first | with_reducible assumption | with_reducible refine ite_keep (P := sound _) ?_ ?_ | with_reducible refine State.cellFull_sound _ _ ?_ | with_reducible refine State.modPts_sound _ _ _ ?_ | with_reducible refine State.judgeAgain_sound _ _ ?_ | with_reducible refine State.logPoint_sound _ _ ?_)

theorem State.finishReq_sound {v} (s : State) (a1) (a2) (a3) (h : sound v s) : sound v (State.finishReq s a1 a2 a3) := by
  unfold State.finishReq; try dsimp only
  repeat' (first | with_reducible assumption | with_reducible refine ite_keep (P := sound _) ?_ ?_ | with_reducible refine State.modTable_sound _ _ _ ?_)

theorem State.noteIdle_sound {v} (s : State) (h : sound v s) : sound v (State.noteIdle s) := by
  unfold State.noteIdle; try dsimp only
  repeat' (first | with_reducible assumption | with_reducible refine ite_keep (P := sound _) ?_ ?_ | with_reducible refine State.modPower_sound _ _ ?_)

theorem State.finishStage_sound {v} (s : State) (h : sound v s) : sound v (State.finishStage s) := by
  unfold State.finishStage; try dsimp only
  repeat' (first | with_reducible assumption | with_reducible refine ite_keep (P := sound _) ?_ ?_ | with_reducible refine State.noteIdle_sound _ ?_ | with_reducible refine State.completeActivation_sound _ _ ?_ | with_reducible refine State.modSec_sound _ _ ?_)

theorem State.setDelay_sound {v} (s : State) (a1) (a2) (h : sound v s) : sound v (State.setDelay s a1 a2) := by
  unfold State.setDelay; try dsimp only
  repeat' (first | with_reducible assumption | with_reducible refine ite_keep (P := sound _) ?_ ?_ | with_reducible refine State.setNum_sound _ _ _ ?_ | with_reducible refine State.modNet_sound _ _ ?_ | with_reducible refine State.raise_sound _ _ _ _ _ ?_)

theorem State.fixDelay_sound {v} (s : State) (a1) (h : sound v s) : sound v (State.fixDelay s a1) := by
  unfold State.fixDelay; try dsimp only
  repeat' (first | with_reducible assumption | with_reducible refine ite_keep (P := sound _) ?_ ?_ | with_reducible refine State.setDelay_sound _ _ _ ?_)

theorem State.flitCount_sound {v} (s : State) (a1) (h : sound v s) : sound v (State.flitCount s a1) := by
  unfold State.flitCount; try dsimp only
  repeat' (first | with_reducible assumption | with_reducible refine ite_keep (P := sound _) ?_ ?_ | with_reducible refine State.bump_sound _ _ _ ?_)

theorem State.stageRecord_sound {v} (s : State) (a1) (a2) (h : sound v s) : sound v (State.stageRecord s a1 a2).1 := by
  unfold State.stageRecord; try dsimp only
  repeat' (first | with_reducible assumption | with_reducible refine ite_keep (P := sound _) ?_ ?_ | with_reducible refine State.dramGet_sound _ _ _ _ ?_ | with_reducible refine State.dramGet_sound_eq (by assumption) ?_ | with_reducible refine State.dramPut_sound _ _ _ ?_ | with_reducible refine foldl_keep (P := sound _) (fun _ _ _ => ?_) ?_ | with_reducible refine foldl_fst (P := sound _) (fun _ _ _ => ?_) ?_ | with_reducible refine Pad.restoreWins_wf _ _ _ ?_ | with_reducible refine (Pad.rowDead_mem _ _).symm ▸ ?_ | split)
theorem State.stageRecord_sound_eq {v} {s : State} {a1} {a2} {t} {y} (e : State.stageRecord s a1 a2 = (t, y)) (h : sound v s) : sound v t := by
  have := State.stageRecord_sound s a1 a2 h; rwa [e] at this

theorem State.flushLog_sound {v} (s : State) (h : sound v s) : sound v (State.flushLog s) := by
  unfold State.flushLog; try dsimp only
  repeat' (first | with_reducible assumption | with_reducible refine ite_keep (P := sound _) ?_ ?_ | with_reducible refine State.stageRecord_sound _ _ _ ?_ | with_reducible refine State.stageRecord_sound_eq (by assumption) ?_ | with_reducible refine foldl_keep (P := sound _) (fun _ _ _ => ?_) ?_ | with_reducible refine foldl_fst (P := sound _) (fun _ _ _ => ?_) ?_ | with_reducible refine Pad.restoreWins_wf _ _ _ ?_ | with_reducible refine (Pad.rowDead_mem _ _).symm ▸ ?_ | split | dsimp only | fail_if_no_progress (rw [sound_mk]; refine sound_of rfl rfl rfl rfl rfl ?_))

theorem State.sendPfc_sound {v} (s : State) (a1) (a2) (a3) (h : sound v s) : sound v (State.sendPfc s a1 a2 a3) := by
  unfold State.sendPfc; try dsimp only
  repeat' (first | with_reducible assumption | with_reducible refine ite_keep (P := sound _) ?_ ?_ | with_reducible refine State.transmit_sound _ _ ?_)

theorem State.sendPause_sound {v} (s : State) (a1) (a2) (h : sound v s) : sound v (State.sendPause s a1 a2) := by
  unfold State.sendPause; try dsimp only
  repeat' (first | with_reducible assumption | with_reducible refine ite_keep (P := sound _) ?_ ?_ | with_reducible refine State.sendPfc_sound _ _ _ _ ?_ | with_reducible refine State.raiseIng_sound _ _ _ _ _ ?_)

theorem State.pfcLook_sound {v} (s : State) (a1) (a2) (h : sound v s) : sound v (State.pfcLook s a1 a2) := by
  unfold State.pfcLook; try dsimp only
  repeat' (first | with_reducible assumption | with_reducible refine ite_keep (P := sound _) ?_ ?_ | with_reducible refine State.sendPause_sound _ _ _ ?_ | with_reducible refine State.sendPfc_sound _ _ _ _ ?_ | with_reducible refine foldl_keep (P := sound _) (fun _ _ _ => ?_) ?_ | with_reducible refine foldl_fst (P := sound _) (fun _ _ _ => ?_) ?_ | with_reducible refine Pad.restoreWins_wf _ _ _ ?_ | with_reducible refine (Pad.rowDead_mem _ _).symm ▸ ?_ | split | dsimp only | fail_if_no_progress (rw [sound_mk]; refine sound_of rfl rfl rfl rfl rfl ?_))

theorem State.flushNow_sound {v} (s : State) (a1) (h : sound v s) : sound v (State.flushNow s a1) := by
  unfold State.flushNow; try dsimp only
  repeat' (first | with_reducible assumption | with_reducible refine ite_keep (P := sound _) ?_ ?_ | with_reducible refine State.qFlush_sound _ _ ?_ | with_reducible refine State.pfcLook_sound _ _ _ ?_)

theorem State.forceTest_sound {v} (s : State) (a1) (h : sound v s) : sound v (State.forceTest s a1) := by
  unfold State.forceTest; try dsimp only
  repeat' (first | with_reducible assumption | with_reducible refine ite_keep (P := sound _) ?_ ?_ | with_reducible refine State.bump_sound _ _ _ ?_ | with_reducible refine State.countRaise_sound _ _ _ _ _ ?_ | with_reducible refine State.takeOff_sound _ _ ?_ | with_reducible refine State.lose_sound _ _ _ ?_ | with_reducible refine State.lose_sound_eq (by assumption) ?_ | with_reducible refine foldl_keep (P := sound _) (fun _ _ _ => ?_) ?_ | with_reducible refine foldl_fst (P := sound _) (fun _ _ _ => ?_) ?_ | with_reducible refine Pad.restoreWins_wf _ _ _ ?_ | with_reducible refine (Pad.rowDead_mem _ _).symm ▸ ?_ | split)

theorem State.frameTimes_sound {v} (s : State) (h : sound v s) : sound v (State.frameTimes s) := by
  unfold State.frameTimes; try dsimp only
  repeat' (first | with_reducible assumption | with_reducible refine ite_keep (P := sound _) ?_ ?_ | with_reducible refine foldl_keep (P := sound _) (fun _ _ _ => ?_) ?_ | with_reducible refine foldl_fst (P := sound _) (fun _ _ _ => ?_) ?_ | with_reducible refine Pad.restoreWins_wf _ _ _ ?_ | with_reducible refine (Pad.rowDead_mem _ _).symm ▸ ?_ | split | dsimp only | fail_if_no_progress (rw [sound_mk]; refine sound_of rfl rfl rfl rfl rfl ?_))

theorem State.getData_sound {v} (s : State) (a1) (a2) (a3) (h : sound v s) : sound v (State.getData s a1 a2 a3) := by
  unfold State.getData; try dsimp only
  repeat' (first | with_reducible assumption | with_reducible refine ite_keep (P := sound _) ?_ ?_ | with_reducible refine State.modCore_sound (fun _ => rfl) ?_ | with_reducible refine State.modCore_soundMem (fun _ hm => ?_) ?_ | with_reducible refine foldl_keep (P := sound _) (fun _ _ _ => ?_) ?_ | with_reducible refine foldl_fst (P := sound _) (fun _ _ _ => ?_) ?_ | with_reducible refine Pad.restoreWins_wf _ _ _ ?_ | with_reducible refine (Pad.rowDead_mem _ _).symm ▸ ?_ | split)

theorem State.parserFault_sound {v} (s : State) (e) (h : sound v s) : sound v (State.parserFault s e) := by
  unfold State.parserFault; dsimp only
  refine State.countRaise_sound _ _ _ _ _ (State.modEngine_sound (fun x hx => ?_) h)
  simp only [Engine.wf, Bool.and_eq_true] at hx ⊢
  exact ⟨hx.1, rfl⟩

theorem State.goTo_sound {v} (s : State) (e : Fin 16) (pc : Nat) (h : sound v s) : sound v (State.goTo s e pc) := by
  unfold State.goTo
  split
  · exact State.parserFault_sound _ _ h
  · rename_i hp
    refine State.modEngine_soundAt ?_ h
    have hw := sound_engine h e
    simp only [Engine.wf, Bool.and_eq_true, Bool.or_eq_true, decide_eq_true_eq] at hw ⊢
    exact ⟨hw.1, hw.2.imp id (fun hh => ⟨by omega, hh.2⟩)⟩

theorem State.openDebug_sound {v} (s : State) (h : sound v s) : sound v (State.openDebug s) := by
  unfold State.openDebug; try dsimp only
  repeat' (first | with_reducible assumption | with_reducible refine ite_keep (P := sound _) ?_ ?_ | with_reducible refine State.raise_sound _ _ _ _ _ ?_ | with_reducible refine State.setNum_sound _ _ _ ?_ | with_reducible refine State.modSec_sound _ _ ?_)

theorem State.unlocked_sound {v} (s : State) (h : sound v s) : sound v (State.unlocked s) := by
  unfold State.unlocked; try dsimp only
  repeat' (first | with_reducible assumption | with_reducible refine ite_keep (P := sound _) ?_ ?_ | with_reducible refine State.openDebug_sound _ ?_ | with_reducible refine State.syncLife_sound _ ?_ | with_reducible refine State.raise_sound _ _ _ _ _ ?_ | with_reducible refine State.modSec_sound _ _ ?_)

theorem State.grant_sound {v} (s : State) (a1) (a2) (a3) (a4) (h : sound v s) : sound v (State.grant s a1 a2 a3 a4).1 := by
  unfold State.grant; try dsimp only
  repeat' (first | with_reducible assumption | with_reducible refine ite_keep (P := sound _) ?_ ?_ | with_reducible refine State.modSession_sound _ _ _ ?_ | with_reducible refine State.unlocked_sound _ ?_ | with_reducible refine foldl_keep (P := sound _) (fun _ _ _ => ?_) ?_ | with_reducible refine foldl_fst (P := sound _) (fun _ _ _ => ?_) ?_ | with_reducible refine Pad.restoreWins_wf _ _ _ ?_ | with_reducible refine (Pad.rowDead_mem _ _).symm ▸ ?_ | split)
theorem State.grant_sound_eq {v} {s : State} {a1} {a2} {a3} {a4} {t} {y} (e : State.grant s a1 a2 a3 a4 = (t, y)) (h : sound v s) : sound v t := by
  have := State.grant_sound s a1 a2 a3 a4 h; rwa [e] at this

theorem State.saveLife_sound {v} (s : State) (h : sound v s) : sound v (State.saveLife s) := by
  unfold State.saveLife; try dsimp only
  repeat' (first | with_reducible assumption | with_reducible refine ite_keep (P := sound _) ?_ ?_ | with_reducible refine foldl_keep (P := sound _) (fun _ _ _ => ?_) ?_ | with_reducible refine foldl_fst (P := sound _) (fun _ _ _ => ?_) ?_ | with_reducible refine Pad.restoreWins_wf _ _ _ ?_ | with_reducible refine (Pad.rowDead_mem _ _).symm ▸ ?_ | split | dsimp only | fail_if_no_progress (rw [sound_mk]; refine sound_of rfl rfl rfl rfl rfl ?_))

theorem State.saveAll_sound {v} (s : State) (h : sound v s) : sound v (State.saveAll s) := by
  unfold State.saveAll; try dsimp only
  repeat' (first | with_reducible assumption | with_reducible refine ite_keep (P := sound _) ?_ ?_ | with_reducible refine State.flushLog_sound _ ?_ | with_reducible refine State.saveLife_sound _ ?_)

theorem State.restarted_sound {v} (s : State) (a1) (h : sound v s) : sound v (State.restarted s a1) := by
  unfold State.restarted; try dsimp only
  repeat' (first | with_reducible assumption | with_reducible refine ite_keep (P := sound _) ?_ ?_ | with_reducible refine State.saveAll_sound _ ?_ | with_reducible refine State.startUp_sound _ _ _ ?_)

theorem State.hapRequest_sound {v} (s : State) (r o b) (f : State → Session → State × HapAns) (hf : ∀ s x, sound v s → sound v (f s x).1)
    (h : sound v s) : sound v (State.hapRequest s r o b f) := by
  have h1 := State.quiet_sound _ (State.at_sound s r.t h)
  unfold State.hapRequest; dsimp only
  split
  · exact h1
  · split
    · exact State.bump_sound _ _ _ h1
    · split
      · exact State.sendReply_sound _ _ _ _ _ _ h1
      · rename_i x _
        have h2 := State.modSession_sound _ r.session (fun x => { x with lastTime := (s.at r.t).quiet.frame.now }) h1
        split
        · exact State.bump_sound _ _ _ h2
        · split
          · exact State.sendReply_sound _ _ _ _ _ _ (State.bump_sound _ _ _ h2)
          · split
            · exact State.sendReply_sound _ _ _ _ _ _ (State.bump_sound _ _ _ h2)
            · have h3 := State.bump_sound _ (od 0x1B00 0x0A) 1 (State.modSession_sound _ r.session (fun x => { x with lastSeq := r.seq, reply := [] }) h2)
              split
              · exact State.replyTo_sound _ _ _ _ _ _ _ _ h3
              · have h4 := hf _ x h3
                split <;> rename_i hx <;> rw [hx] at h4
                · exact State.replyTo_sound _ _ _ _ _ _ _ _ h4
                · exact h4
                · exact State.restarted_sound _ _ (State.replyTo_sound _ _ _ _ _ _ _ _ h4)

theorem State.raiseRefusal_sound {v} (s : State) (a1) (h : sound v s) : sound v (State.raiseRefusal s a1) := by
  unfold State.raiseRefusal; try dsimp only
  repeat' (first | with_reducible assumption | with_reducible refine ite_keep (P := sound _) ?_ ?_ | with_reducible refine State.raise_sound _ _ _ _ _ ?_ | with_reducible refine State.declareDoubt_sound _ _ ?_)

theorem State.homeRules_sound {v} (s : State) (a1) (h : sound v s) : sound v (State.homeRules s a1).1 := by
  unfold State.homeRules; try dsimp only
  repeat' (first | with_reducible assumption | with_reducible refine ite_keep (P := sound _) ?_ ?_ | with_reducible refine State.raise_sound _ _ _ _ _ ?_ | with_reducible refine State.raiseRefusal_sound _ _ ?_ | with_reducible refine foldl_keep (P := sound _) (fun _ _ _ => ?_) ?_ | with_reducible refine foldl_fst (P := sound _) (fun _ _ _ => ?_) ?_ | with_reducible refine Pad.restoreWins_wf _ _ _ ?_ | with_reducible refine (Pad.rowDead_mem _ _).symm ▸ ?_ | split)
theorem State.homeRules_sound_eq {v} {s : State} {a1} {t} {y} (e : State.homeRules s a1 = (t, y)) (h : sound v s) : sound v t := by
  have := State.homeRules_sound s a1 h; rwa [e] at this

theorem State.hostLook_sound {v} (s : State) (a1) (a2) (h : sound v s) : sound v (State.hostLook s a1 a2) := by
  unfold State.hostLook; try dsimp only
  repeat' (first | with_reducible assumption | with_reducible refine ite_keep (P := sound _) ?_ ?_ | with_reducible refine State.bump_sound _ _ _ ?_ | with_reducible refine State.countRaise_sound _ _ _ _ _ ?_ | with_reducible refine State.hostAdmit_sound _ _ ?_ | with_reducible refine State.modHost_sound _ _ _ ?_ | with_reducible refine foldl_keep (P := sound _) (fun _ _ _ => ?_) ?_ | with_reducible refine foldl_fst (P := sound _) (fun _ _ _ => ?_) ?_ | with_reducible refine Pad.restoreWins_wf _ _ _ ?_ | with_reducible refine (Pad.rowDead_mem _ _).symm ▸ ?_ | split)

theorem State.rxDrop_sound {v} (s : State) (a1) (h : sound v s) : sound v (State.rxDrop s a1) := by
  unfold State.rxDrop; try dsimp only
  repeat' (first | with_reducible assumption | with_reducible refine ite_keep (P := sound _) ?_ ?_ | with_reducible refine State.bump_sound _ _ _ ?_)

theorem State.qci_sound {v} (s : State) (a1) (a2) (a3) (h : sound v s) : sound v (State.qci s a1 a2 a3).1 := by
  unfold State.qci; try dsimp only
  repeat' (first | with_reducible assumption | with_reducible refine ite_keep (P := sound _) ?_ ?_ | with_reducible refine State.raiseIng_sound _ _ _ _ _ ?_ | with_reducible refine State.bump_sound _ _ _ ?_ | with_reducible refine State.modNet_sound _ _ ?_ | with_reducible refine foldl_keep (P := sound _) (fun _ _ _ => ?_) ?_ | with_reducible refine foldl_fst (P := sound _) (fun _ _ _ => ?_) ?_ | with_reducible refine Pad.restoreWins_wf _ _ _ ?_ | with_reducible refine (Pad.rowDead_mem _ _).symm ▸ ?_ | split)
theorem State.qci_sound_eq {v} {s : State} {a1} {a2} {a3} {t} {y} (e : State.qci s a1 a2 a3 = (t, y)) (h : sound v s) : sound v t := by
  have := State.qci_sound s a1 a2 a3 h; rwa [e] at this

theorem State.macsecIn_sound {v} (s : State) (a1) (a2) (h : sound v s) : sound v (State.macsecIn s a1 a2).1 := by
  unfold State.macsecIn; try dsimp only
  repeat' (first | with_reducible assumption | with_reducible refine ite_keep (P := sound _) ?_ ?_ | with_reducible refine State.raiseIng_sound _ _ _ _ _ ?_ | with_reducible refine State.bump_sound _ _ _ ?_ | with_reducible refine State.usePn_sound _ _ _ _ _ _ ?_ | with_reducible refine foldl_keep (P := sound _) (fun _ _ _ => ?_) ?_ | with_reducible refine foldl_fst (P := sound _) (fun _ _ _ => ?_) ?_ | with_reducible refine Pad.restoreWins_wf _ _ _ ?_ | with_reducible refine (Pad.rowDead_mem _ _).symm ▸ ?_ | split)
theorem State.macsecIn_sound_eq {v} {s : State} {a1} {a2} {t} {y} (e : State.macsecIn s a1 a2 = (t, y)) (h : sound v s) : sound v t := by
  have := State.macsecIn_sound s a1 a2 h; rwa [e] at this

theorem State.learn_sound {v} (s : State) (a1) (a2) (a3) (h : sound v s) : sound v (State.learn s a1 a2 a3) := by
  unfold State.learn; try dsimp only
  repeat' (first | with_reducible assumption | with_reducible refine ite_keep (P := sound _) ?_ ?_ | with_reducible refine State.modHost_sound _ _ _ ?_)

theorem State.toSupervisor_sound {v} (s : State) (a1) (a2) (h : sound v s) : sound v (State.toSupervisor s a1 a2) := by
  unfold State.toSupervisor; try dsimp only
  repeat' (first | with_reducible assumption | with_reducible refine ite_keep (P := sound _) ?_ ?_ | with_reducible refine State.learn_sound _ _ _ _ ?_ | with_reducible refine foldl_keep (P := sound _) (fun _ _ _ => ?_) ?_ | with_reducible refine foldl_fst (P := sound _) (fun _ _ _ => ?_) ?_ | with_reducible refine Pad.restoreWins_wf _ _ _ ?_ | with_reducible refine (Pad.rowDead_mem _ _).symm ▸ ?_ | split)

theorem State.recover_sound {v} (s : State) (a1) (a2) (h : sound v s) : sound v (State.recover s a1 a2).1 := by
  unfold State.recover; try dsimp only
  repeat' (first | with_reducible assumption | with_reducible refine ite_keep (P := sound _) ?_ ?_ | with_reducible refine State.modNet_sound _ _ ?_ | with_reducible refine State.bump_sound _ _ _ ?_ | with_reducible refine foldl_keep (P := sound _) (fun _ _ _ => ?_) ?_ | with_reducible refine foldl_fst (P := sound _) (fun _ _ _ => ?_) ?_ | with_reducible refine Pad.restoreWins_wf _ _ _ ?_ | with_reducible refine (Pad.rowDead_mem _ _).symm ▸ ?_ | split)
theorem State.recover_sound_eq {v} {s : State} {a1} {a2} {t} {y} (e : State.recover s a1 a2 = (t, y)) (h : sound v s) : sound v t := by
  have := State.recover_sound s a1 a2 h; rwa [e] at this

theorem State.hostTake_sound {v} (s : State) (a1) (a2) (h : sound v s) : sound v (State.hostTake s a1 a2) := by
  unfold State.hostTake; try dsimp only
  repeat' (first | with_reducible assumption | with_reducible refine ite_keep (P := sound _) ?_ ?_ | with_reducible refine State.rxDrop_sound _ _ ?_ | with_reducible refine State.bump_sound _ _ _ ?_ | with_reducible refine State.qci_sound _ _ _ _ ?_ | with_reducible refine State.qci_sound_eq (by assumption) ?_ | with_reducible refine State.macsecIn_sound _ _ _ ?_ | with_reducible refine State.macsecIn_sound_eq (by assumption) ?_ | with_reducible refine State.toSupervisor_sound _ _ _ ?_ | with_reducible refine State.recover_sound _ _ _ ?_ | with_reducible refine State.recover_sound_eq (by assumption) ?_ | with_reducible refine foldl_keep (P := sound _) (fun _ _ _ => ?_) ?_ | with_reducible refine foldl_fst (P := sound _) (fun _ _ _ => ?_) ?_ | with_reducible refine Pad.restoreWins_wf _ _ _ ?_ | with_reducible refine (Pad.rowDead_mem _ _).symm ▸ ?_ | split)

theorem State.hyperHears_sound {v} (s : State) (a1) (a2) (h : sound v s) : sound v (State.hyperHears s a1 a2) := by
  unfold State.hyperHears; try dsimp only
  repeat' (first | with_reducible assumption | with_reducible refine ite_keep (P := sound _) ?_ ?_ | with_reducible refine State.failHyper_sound _ _ ?_)

theorem State.hyperUe_sound {v} (s : State) (a1) (h : sound v s) : sound v (State.hyperUe s a1) := by
  unfold State.hyperUe; try dsimp only
  repeat' (first | with_reducible assumption | with_reducible refine ite_keep (P := sound _) ?_ ?_ | with_reducible refine State.bump_sound _ _ _ ?_ | with_reducible refine State.modExt_sound (fun _ => rfl) (fun _ => rfl) ?_ | with_reducible refine State.failHyper_sound _ _ ?_)

theorem State.hyperOne_sound {v} (s : State) (a1) (a2) (a3) (a4) (h : sound v s) : sound v (State.hyperOne s a1 a2 a3 a4).1 := by
  unfold State.hyperOne; try dsimp only
  repeat' (first | with_reducible assumption | with_reducible refine ite_keep (P := sound _) ?_ ?_ | with_reducible refine State.modExt_sound (fun _ => rfl) (fun _ => rfl) ?_ | with_reducible refine State.hyperUe_sound _ _ ?_ | with_reducible refine State.bump_sound _ _ _ ?_ | with_reducible refine foldl_keep (P := sound _) (fun _ _ _ => ?_) ?_ | with_reducible refine foldl_fst (P := sound _) (fun _ _ _ => ?_) ?_ | with_reducible refine Pad.restoreWins_wf _ _ _ ?_ | with_reducible refine (Pad.rowDead_mem _ _).symm ▸ ?_ | split)
theorem State.hyperOne_sound_eq {v} {s : State} {a1} {a2} {a3} {a4} {t} {y} (e : State.hyperOne s a1 a2 a3 a4 = (t, y)) (h : sound v s) : sound v t := by
  have := State.hyperOne_sound s a1 a2 a3 a4 h; rwa [e] at this

theorem State.hyperStore_sound {v} (s : State) (a d) (h : sound v s) : sound v (State.hyperStore s a d) := by
  unfold State.hyperStore
  split
  · exact h
  · exact State.modExt_soundMem (fun z hd hh => ⟨hd, Sparse.wf_putN zeroByte _ _ _ hh⟩) h

theorem State.insertPoint_sound {v} (s : State) (a1) (a2) (a3) (h : sound v s) : sound v (State.insertPoint s a1 a2 a3).1 := by
  unfold State.insertPoint; try dsimp only
  repeat' (first | with_reducible assumption | with_reducible refine ite_keep (P := sound _) ?_ ?_ | with_reducible refine State.modCells_sound _ _ _ ?_ | with_reducible refine State.noteStash_sound _ ?_ | with_reducible refine State.raiseIng_sound _ _ _ _ _ ?_ | with_reducible refine foldl_keep (P := sound _) (fun _ _ _ => ?_) ?_ | with_reducible refine foldl_fst (P := sound _) (fun _ _ _ => ?_) ?_ | with_reducible refine Pad.restoreWins_wf _ _ _ ?_ | with_reducible refine (Pad.rowDead_mem _ _).symm ▸ ?_ | split | dsimp only | fail_if_no_progress (rw [sound_mk]; refine sound_of rfl rfl rfl rfl rfl ?_))
theorem State.insertPoint_sound_eq {v} {s : State} {a1} {a2} {a3} {t} {y} (e : State.insertPoint s a1 a2 a3 = (t, y)) (h : sound v s) : sound v t := by
  have := State.insertPoint_sound s a1 a2 a3 h; rwa [e] at this

theorem State.toJournal_sound {v} (s : State) (a1) (a2) (h : sound v s) : sound v (State.toJournal s a1 a2) := by
  unfold State.toJournal; try dsimp only
  repeat' (first | with_reducible assumption | with_reducible refine ite_keep (P := sound _) ?_ ?_ | with_reducible refine foldl_keep (P := sound _) (fun _ _ _ => ?_) ?_ | with_reducible refine foldl_fst (P := sound _) (fun _ _ _ => ?_) ?_ | with_reducible refine Pad.restoreWins_wf _ _ _ ?_ | with_reducible refine (Pad.rowDead_mem _ _).symm ▸ ?_ | split | dsimp only | fail_if_no_progress (rw [sound_mk]; refine sound_of rfl rfl rfl rfl rfl ?_))

theorem State.judgeSens_sound {v} (s : State) (h : sound v s) : sound v (State.judgeSens s) := by
  unfold State.judgeSens; try dsimp only
  repeat' (first | with_reducible assumption | with_reducible refine ite_keep (P := sound _) ?_ ?_ | with_reducible refine State.driveXoff_sound _ ?_ | with_reducible refine State.setQueue_sound _ _ _ ?_ | with_reducible refine foldl_keep (P := sound _) (fun _ _ _ => ?_) ?_)

end Sys2Proof.Machine
end

