-- ==== Sys2Proof/Laws/Sound06.lean ====
section
/-! SUPPORT. What operations and meanings keep, part 7 of 12: the queue of waiting commands, every parser engine as R55 and R59 have it, and the
canonical form of every byte memory (`sound`). Callees come before their callers, so a lemma cites those of the operations it unfolds to. -/

namespace Sys2Proof.Machine

theorem State.nowEffect_sound {v} (s : State) (a1) (h : sound v s) : sound v (State.nowEffect s a1) := by
  unfold State.nowEffect; try dsimp only
  repeat' (first | with_reducible assumption | with_reducible refine ite_keep (P := sound _) ?_ ?_ | with_reducible refine State.noteStash_sound _ ?_ | with_reducible refine State.judgeSens_sound _ ?_)

theorem State.install_sound {v} (s : State) (a1) (a2) (a3) (h : sound v s) : sound v (State.install s a1 a2 a3) := by
  unfold State.install; try dsimp only
  repeat' (first | with_reducible assumption | with_reducible refine ite_keep (P := sound _) ?_ ?_ | with_reducible refine State.toJournal_sound _ _ _ ?_ | with_reducible refine State.applyWrite_sound _ _ _ ?_ | with_reducible refine State.nowEffect_sound _ _ ?_ | with_reducible refine State.setObj_sound _ _ _ ?_ | with_reducible refine foldl_keep (P := sound _) (fun _ _ _ => ?_) ?_ | with_reducible refine foldl_fst (P := sound _) (fun _ _ _ => ?_) ?_ | with_reducible refine Pad.restoreWins_wf _ _ _ ?_ | with_reducible refine (Pad.rowDead_mem _ _).symm ▸ ?_ | split | dsimp only | fail_if_no_progress (rw [sound_mk]; refine sound_of rfl rfl rfl rfl rfl ?_))

theorem State.jobNext_sound {v} {s t : State} {c j} (e : s.jobNext c = some (j, t)) (h : sound v s) : sound v t := by
  unfold State.jobNext at e
  split at e
  · injection e with e; injection e with _ e; subst e; exact h
  · split at e
    · cases e
    · injection e with e; injection e with _ e; subst e; exact State.modSeq_sound _ _ _ h

theorem State.jobBegin_sound {v} (s : State) (c b u e) (h : sound v s) : sound v (State.jobBegin s c b u e) := by
  unfold State.jobBegin; dsimp only
  split
  · exact h
  · rename_i hj
    have h1 := State.jobNext_sound hj h
    repeat' (first
      | with_reducible assumption
      | with_reducible refine State.conflict_sound _ _ _ ?_
      | with_reducible refine State.drain_sound _ _ _ _ ?_
      | with_reducible refine State.chunkBegin_sound _ _ _ _ _ ?_
      | with_reducible refine State.chunkOf_sound _ _ _ ?_
      | with_reducible refine State.chunkReady_sound_eq (by assumption) ?_
      | split)

theorem State.jobReady_sound {v} (s : State) (a1) (a2) (h : sound v s) : sound v (State.jobReady s a1 a2).1 := by
  unfold State.jobReady; try dsimp only
  repeat' (first | with_reducible assumption | with_reducible refine ite_keep (P := sound _) ?_ ?_ | with_reducible refine State.farReady_sound _ _ _ _ _ _ _ _ ?_ | with_reducible refine State.farReady_sound_eq (by assumption) ?_ | with_reducible refine foldl_keep (P := sound _) (fun _ _ _ => ?_) ?_ | with_reducible refine foldl_fst (P := sound _) (fun _ _ _ => ?_) ?_ | with_reducible refine Pad.restoreWins_wf _ _ _ ?_ | with_reducible refine (Pad.rowDead_mem _ _).symm ▸ ?_ | split)
theorem State.jobReady_sound_eq {v} {s : State} {a1} {a2} {t} {y} (e : State.jobReady s a1 a2 = (t, y)) (h : sound v s) : sound v t := by
  have := State.jobReady_sound s a1 a2 h; rwa [e] at this

theorem State.judgeTest_sound {v} (s : State) (a1) (a2) (a3) (h : sound v s) : sound v (State.judgeTest s a1 a2 a3) := by
  unfold State.judgeTest; try dsimp only
  repeat' (first | with_reducible assumption | with_reducible refine ite_keep (P := sound _) ?_ ?_ | with_reducible refine State.modSafety_sound _ _ ?_ | with_reducible refine State.bump_sound _ _ _ ?_ | with_reducible refine State.countRaise_sound _ _ _ _ _ ?_ | with_reducible refine State.diagnosed_sound _ _ _ ?_ | with_reducible refine State.retireNext_sound _ _ ?_ | with_reducible refine foldl_keep (P := sound _) (fun _ _ _ => ?_) ?_ | with_reducible refine foldl_fst (P := sound _) (fun _ _ _ => ?_) ?_ | with_reducible refine Pad.restoreWins_wf _ _ _ ?_ | with_reducible refine (Pad.rowDead_mem _ _).symm ▸ ?_ | split)

theorem State.lateResponse_sound {v} (s : State) (a1) (a2) (a3) (h : sound v s) : sound v (State.lateResponse s a1 a2 a3) := by
  unfold State.lateResponse; try dsimp only
  repeat' (first | with_reducible assumption | with_reducible refine ite_keep (P := sound _) ?_ ?_ | with_reducible refine State.bump_sound _ _ _ ?_ | with_reducible refine foldl_keep (P := sound _) (fun _ _ _ => ?_) ?_ | with_reducible refine foldl_fst (P := sound _) (fun _ _ _ => ?_) ?_ | with_reducible refine Pad.restoreWins_wf _ _ _ ?_ | with_reducible refine (Pad.rowDead_mem _ _).symm ▸ ?_ | split | dsimp only | fail_if_no_progress (rw [sound_mk]; refine sound_of rfl rfl rfl rfl rfl ?_))

theorem State.omitBody_sound {v} (s : State) (a1) (h : sound v s) : sound v (State.omitBody s a1) := by
  unfold State.omitBody; try dsimp only
  repeat' (first | with_reducible assumption | with_reducible refine ite_keep (P := sound _) ?_ ?_ | with_reducible refine State.modNet_sound _ _ ?_ | with_reducible refine State.countRaise_sound _ _ _ _ _ ?_ | with_reducible refine State.modComp_sound _ _ ?_)

theorem State.safetyCauses_sound {v} (s : State) (h : sound v s) : sound v (State.safetyCauses s) := by
  unfold State.safetyCauses; try dsimp only
  repeat' (first | with_reducible assumption | with_reducible refine ite_keep (P := sound _) ?_ ?_ | with_reducible refine State.causeComp_sound _ _ _ ?_)

theorem State.sendRecord_sound {v} (s : State) (a1) (a2) (a3) (h : sound v s) : sound v (State.sendRecord s a1 a2 a3) := by
  unfold State.sendRecord; try dsimp only
  repeat' (first | with_reducible assumption | with_reducible refine ite_keep (P := sound _) ?_ ?_ | with_reducible refine State.sendUdp_sound _ _ _ _ _ _ ?_ | with_reducible refine foldl_keep (P := sound _) (fun _ _ _ => ?_) ?_)

theorem State.launchRecord_sound {v} (s : State) (h : sound v s) : sound v (State.launchRecord s) := by
  unfold State.launchRecord; try dsimp only
  repeat' (first | with_reducible assumption | with_reducible refine ite_keep (P := sound _) ?_ ?_ | with_reducible refine State.deadline_sound _ ?_ | with_reducible refine State.omitBody_sound _ _ ?_ | with_reducible refine State.safetyCauses_sound _ ?_ | with_reducible refine State.modComp_sound _ _ ?_ | with_reducible refine State.modNet_sound _ _ ?_ | with_reducible refine State.bump_sound _ _ _ ?_ | with_reducible refine State.setNum_sound _ _ _ ?_ | with_reducible refine State.sendRecord_sound _ _ _ _ ?_)

theorem State.leaveStandby_sound {v} (s : State) (a1) (h : sound v s) : sound v (State.leaveStandby s a1) := by
  unfold State.leaveStandby; try dsimp only
  repeat' (first | with_reducible assumption | with_reducible refine ite_keep (P := sound _) ?_ ?_ | with_reducible refine State.bootUp_sound _ _ ?_)

theorem State.lifeAfter_sound {v} (s : State) (a1) (h : sound v s) : sound v (State.lifeAfter s a1) := by
  unfold State.lifeAfter; try dsimp only
  repeat' (first | with_reducible assumption | with_reducible refine ite_keep (P := sound _) ?_ ?_ | with_reducible refine State.enterLife_sound _ _ ?_)

theorem State.lineFinds_sound {v} (s : State) (a1) (a2) (a3) (h : sound v s) : sound v (State.lineFinds s a1 a2 a3) := by
  unfold State.lineFinds; try dsimp only
  repeat' (first | with_reducible assumption | with_reducible refine ite_keep (P := sound _) ?_ ?_ | with_reducible refine State.padFinds_sound _ _ _ _ ?_ | with_reducible refine State.padFinds_sound_eq (by assumption) ?_ | with_reducible refine State.padUncorrectable_sound _ _ _ ?_ | with_reducible refine foldl_keep (P := sound _) (fun _ _ _ => ?_) ?_)

theorem State.loadComp_sound {v} (s : State) (a1) (h : sound v s) : sound v (State.loadComp s a1) := by
  unfold State.loadComp; try dsimp only
  repeat' (first | with_reducible assumption | with_reducible refine ite_keep (P := sound _) ?_ ?_ | with_reducible refine State.checked_sound _ _ ?_ | with_reducible refine State.checked_sound_eq (by assumption) ?_ | with_reducible refine State.measureComp_sound _ _ ?_ | with_reducible refine State.useLibrary_sound _ _ ?_ | with_reducible refine foldl_keep (P := sound _) (fun _ _ _ => ?_) ?_ | with_reducible refine foldl_fst (P := sound _) (fun _ _ _ => ?_) ?_ | with_reducible refine Pad.restoreWins_wf _ _ _ ?_ | with_reducible refine (Pad.rowDead_mem _ _).symm ▸ ?_ | split)

theorem State.takeSlot_sound {v} (s : State) (a1) (a2) (a3) (h : sound v s) : sound v (State.takeSlot s a1 a2 a3).1 := by
  unfold State.takeSlot; try dsimp only
  repeat' (first | with_reducible assumption | with_reducible refine ite_keep (P := sound _) ?_ ?_ | with_reducible refine State.modTable_sound _ _ _ ?_ | with_reducible refine foldl_keep (P := sound _) (fun _ _ _ => ?_) ?_ | with_reducible refine foldl_fst (P := sound _) (fun _ _ _ => ?_) ?_ | with_reducible refine Pad.restoreWins_wf _ _ _ ?_ | with_reducible refine (Pad.rowDead_mem _ _).symm ▸ ?_ | split)
theorem State.takeSlot_sound_eq {v} {s : State} {a1} {a2} {a3} {t} {y} (e : State.takeSlot s a1 a2 a3 = (t, y)) (h : sound v s) : sound v t := by
  have := State.takeSlot_sound s a1 a2 a3 h; rwa [e] at this

theorem State.lookupOne_sound {v} (s : State) (a1) (a2) (a3) (a4) (a5) (h : sound v s) : sound v (State.lookupOne s a1 a2 a3 a4 a5).1 := by
  unfold State.lookupOne; try dsimp only
  repeat' (first | with_reducible assumption | with_reducible refine ite_keep (P := sound _) ?_ ?_ | with_reducible refine State.peDrop_sound _ _ ?_ | with_reducible refine State.bump_sound _ _ _ ?_ | with_reducible refine State.dirEntry_sound _ _ _ _ ?_ | with_reducible refine State.dirEntry_sound_eq (by assumption) ?_ | with_reducible refine State.addHits_sound _ _ _ _ _ ?_ | with_reducible refine State.accFor_sound _ _ _ _ _ _ ?_ | with_reducible refine State.accFor_sound_eq (by assumption) ?_ | with_reducible refine State.modTable_sound _ _ _ ?_ | with_reducible refine State.takeSlot_sound _ _ _ _ ?_ | with_reducible refine State.takeSlot_sound_eq (by assumption) ?_ | with_reducible refine State.raiseComp_sound _ _ _ _ _ ?_ | with_reducible refine State.causeComp_sound _ _ _ ?_ | with_reducible refine foldl_keep (P := sound _) (fun _ _ _ => ?_) ?_ | with_reducible refine foldl_fst (P := sound _) (fun _ _ _ => ?_) ?_ | with_reducible refine Pad.restoreWins_wf _ _ _ ?_ | with_reducible refine (Pad.rowDead_mem _ _).symm ▸ ?_ | split | dsimp only | fail_if_no_progress (rw [sound_mk]; refine sound_of rfl rfl rfl rfl rfl ?_))
theorem State.lookupOne_sound_eq {v} {s : State} {a1} {a2} {a3} {a4} {a5} {t} {y} (e : State.lookupOne s a1 a2 a3 a4 a5 = (t, y)) (h : sound v s) : sound v t := by
  have := State.lookupOne_sound s a1 a2 a3 a4 a5 h; rwa [e] at this

theorem State.lookup_sound {v} (s : State) (a1) (a2) (a3) (a4) (h : sound v s) : sound v (State.lookup s a1 a2 a3 a4) := by
  unfold State.lookup; try dsimp only
  repeat' (first | with_reducible assumption | with_reducible refine ite_keep (P := sound _) ?_ ?_ | with_reducible refine State.peRead_sound _ _ _ _ _ _ ?_ | with_reducible refine State.peRead_sound_eq (by assumption) ?_ | with_reducible refine State.modTable_sound _ _ _ ?_ | with_reducible refine State.countRaise_sound _ _ _ _ _ ?_ | with_reducible refine State.bump_sound _ _ _ ?_ | with_reducible refine State.dropClosed_sound _ _ _ ?_ | with_reducible refine State.lookupOne_sound _ _ _ _ _ _ ?_ | with_reducible refine State.lookupOne_sound_eq (by assumption) ?_ | with_reducible refine foldl_keep (P := sound _) (fun _ _ _ => ?_) ?_ | with_reducible refine foldl_fst (P := sound _) (fun _ _ _ => ?_) ?_ | with_reducible refine Pad.restoreWins_wf _ _ _ ?_ | with_reducible refine (Pad.rowDead_mem _ _).symm ▸ ?_ | split)

theorem State.marchAll_sound {v} (s : State) (b) (h : sound v s) : sound v (State.marchAll s b) := by
  unfold State.marchAll; dsimp only
  refine foldl_keep (P := sound _) (fun t y ht => State.rowFails_sound _ _ _ _ _ _ ht) ?_
  exact foldl_keep (P := sound _) (fun t y ht => State.modPad_soundMem (fun k hk => Memory.wf_nil) ht) h

theorem State.marchRequest_sound {v} (s : State) (a1) (h : sound v s) : sound v (State.marchRequest s a1) := by
  unfold State.marchRequest; try dsimp only
  repeat' (first | with_reducible assumption | with_reducible refine ite_keep (P := sound _) ?_ ?_ | with_reducible refine State.modPad_soundMem (fun _ hm => Pad.closeAll_wf _ hm) ?_ | with_reducible refine State.modPad_soundMem (fun _ hm => Pad.close_wf _ _ _ hm) ?_ | with_reducible refine State.modPad_soundMem (fun _ hm => Pad.load_wf _ _ _ _ _ hm) ?_ | with_reducible refine State.modPad_soundMem (fun _ hm => Pad.write_wf _ _ _ _ hm) ?_ | with_reducible refine State.modPad_soundMem (fun _ hm => Pad.closeConfidential_wf _ hm) ?_ | with_reducible refine State.modPad_sound (fun _ => rfl) ?_ | with_reducible refine State.modPad_soundMem (fun _ hm => ?_) ?_ | with_reducible refine foldl_keep (P := sound _) (fun _ _ _ => ?_) ?_)

theorem State.qShift_sound {v} (s : State) (a1) (h : sound v s) : sound v (State.qShift s a1) := by
  unfold State.qShift; try dsimp only
  repeat' (first | with_reducible assumption | with_reducible refine ite_keep (P := sound _) ?_ ?_ | with_reducible refine State.setQueue_sound _ _ _ ?_ | with_reducible refine State.driveXoff_sound _ ?_)

theorem State.qPop_sound {v} (s : State) (a1) (a2) (h : sound v s) : sound v (State.qPop s a1 a2).1 := by
  unfold State.qPop; try dsimp only
  repeat' (first | with_reducible assumption | with_reducible refine ite_keep (P := sound _) ?_ ?_ | with_reducible refine State.countRaise_sound _ _ _ _ _ ?_ | with_reducible refine State.qClear_sound _ _ ?_ | with_reducible refine State.qShift_sound _ _ ?_ | with_reducible refine State.bump_sound _ _ _ ?_ | with_reducible refine foldl_keep (P := sound _) (fun _ _ _ => ?_) ?_ | with_reducible refine foldl_fst (P := sound _) (fun _ _ _ => ?_) ?_ | with_reducible refine Pad.restoreWins_wf _ _ _ ?_ | with_reducible refine (Pad.rowDead_mem _ _).symm ▸ ?_ | split)
theorem State.qPop_sound_eq {v} {s : State} {a1} {a2} {t} {y} (e : State.qPop s a1 a2 = (t, y)) (h : sound v s) : sound v t := by
  have := State.qPop_sound s a1 a2 h; rwa [e] at this

theorem State.mariTake_sound {v} (s : State) (a1) (a2) (h : sound v s) : sound v (State.mariTake s a1 a2) := by
  unfold State.mariTake; try dsimp only
  repeat' (first | with_reducible assumption | with_reducible refine ite_keep (P := sound _) ?_ ?_ | with_reducible refine State.modSafety_sound _ _ ?_)

theorem State.mariPop_sound {v} (s : State) (a1) (a2) (h : sound v s) : sound v (State.mariPop s a1 a2) := by
  unfold State.mariPop; try dsimp only
  repeat' (first | with_reducible assumption | with_reducible refine ite_keep (P := sound _) ?_ ?_ | with_reducible refine State.qPop_sound _ _ _ ?_ | with_reducible refine State.qPop_sound_eq (by assumption) ?_ | with_reducible refine State.mariTake_sound _ _ _ ?_ | with_reducible refine foldl_keep (P := sound _) (fun _ _ _ => ?_) ?_ | with_reducible refine foldl_fst (P := sound _) (fun _ _ _ => ?_) ?_ | with_reducible refine Pad.restoreWins_wf _ _ _ ?_ | with_reducible refine (Pad.rowDead_mem _ _).symm ▸ ?_ | split)

theorem State.mariTakeAll_sound {v} (s : State) (a1) (a2) (h : sound v s) : sound v (State.mariTakeAll s a1 a2) := by
  unfold State.mariTakeAll; try dsimp only
  repeat' (first | with_reducible assumption | with_reducible refine ite_keep (P := sound _) ?_ ?_ | with_reducible refine State.mariPop_sound _ _ _ ?_ | with_reducible refine foldl_keep (P := sound _) (fun _ _ _ => ?_) ?_)

theorem State.mariRead_sound {v} (s : State) (a1) (a2) (h : sound v s) : sound v (State.mariRead s a1 a2) := by
  unfold State.mariRead; try dsimp only
  repeat' (first | with_reducible assumption | with_reducible refine ite_keep (P := sound _) ?_ ?_ | with_reducible refine State.mariTakeAll_sound _ _ _ ?_ | with_reducible refine State.modSafety_sound _ _ ?_)

theorem State.markSweep_sound {v} (s : State) (a1) (a2) (h : sound v s) : sound v (State.markSweep s a1 a2) := by
  unfold State.markSweep; try dsimp only
  repeat' (first | with_reducible assumption | with_reducible refine ite_keep (P := sound _) ?_ ?_ | with_reducible refine State.modHead_sound _ _ _ ?_ | with_reducible refine State.raise_sound _ _ _ _ _ ?_)

theorem State.mergeRows_sound {v} (s : State) (c x e) (n i : Nat) (h : sound v s) : sound v (State.mergeRows s c x e n i).1 := by
  induction n generalizing s i e with
  | zero => exact h
  | succ n ih =>
    unfold State.mergeRows; dsimp only
    split
    · rename_i hx; exact State.padRead_sound_eq hx h
    · rename_i hx
      have h1 := State.padRead_sound_eq hx h
      split
      · rename_i hy; exact State.rowWrite_sound_eq hy h1
      · rename_i hy; exact ih _ _ _ (State.bump_sound _ _ _ (State.rowWrite_sound_eq hy h1))
theorem State.mergeRows_sound_eq {v} {s : State} {a1} {a2} {a3} {a4} {a5} {t} {y} (e : State.mergeRows s a1 a2 a3 a4 a5 = (t, y)) (h : sound v s) : sound v t := by
  have := State.mergeRows_sound (v := v) s a1 a2 a3 a4 a5 h; rwa [e] at this

theorem State.mirror_sound {v} (s : State) (a1) (a2) (h : sound v s) : sound v (State.mirror s a1 a2) := by
  unfold State.mirror; try dsimp only
  repeat' (first | with_reducible assumption | with_reducible refine ite_keep (P := sound _) ?_ ?_ | with_reducible refine State.qPush_sound _ _ _ ?_)

theorem State.mirrorDown_sound {v} (s : State) (a1) (h : sound v s) : sound v (State.mirrorDown s a1) := by
  unfold State.mirrorDown; try dsimp only
  repeat' (first | with_reducible assumption | with_reducible refine ite_keep (P := sound _) ?_ ?_ | with_reducible refine State.qFlush_sound _ _ ?_)

theorem State.modPort_sound {v} (s : State) (a1) (a2) (h : sound v s) : sound v (State.modPort s a1 a2) := by
  unfold State.modPort; try dsimp only
  repeat' (first | with_reducible assumption | with_reducible refine ite_keep (P := sound _) ?_ ?_ | with_reducible refine State.modNet_sound _ _ ?_)

theorem State.modRec_sound {v} (s : State) (a1) (h : sound v s) : sound v (State.modRec s a1) := by
  unfold State.modRec; try dsimp only
  repeat' (first | with_reducible assumption | with_reducible refine ite_keep (P := sound _) ?_ ?_ | with_reducible refine State.modSec_sound _ _ ?_)

theorem State.moveInstants_sound {v} (s : State) (a1) (h : sound v s) : sound v (State.moveInstants s a1) := by
  unfold State.moveInstants; try dsimp only
  repeat' (first | with_reducible assumption | with_reducible refine ite_keep (P := sound _) ?_ ?_ | with_reducible refine foldl_keep (P := sound _) (fun _ _ _ => ?_) ?_ | with_reducible refine foldl_fst (P := sound _) (fun _ _ _ => ?_) ?_ | with_reducible refine Pad.restoreWins_wf _ _ _ ?_ | with_reducible refine (Pad.rowDead_mem _ _).symm ▸ ?_ | split | dsimp only | fail_if_no_progress (rw [sound_mk]; refine sound_of rfl rfl rfl rfl rfl ?_))

theorem State.rowsIf_sound {v} {s t : State} {c r pc d n e k y} (q : (if d.cmp = true then s.unpackTable c r pc d k n e
    else s.rowsRead c r pc d n e k 0) = (t, y)) (h : sound v s) : sound v t := by
  split at q
  · exact State.unpackTable_sound_eq q h
  · exact State.rowsRead_sound_eq q h

theorem sound_pair {v} {γ : Type} {s t : State} {x y : γ} (e : (s, x) = (t, y)) (h : sound v s) : sound v t := by injection e with e; subst e; exact h

theorem State.moveJob_sound {v} (s : State) (c j e) (h : sound v s) : sound v (State.moveJob s c j e).1 := by
  unfold State.moveJob; dsimp only
  repeat' (first
    | with_reducible assumption
    | with_reducible refine foldl_keep (P := sound _) (fun _ _ _ => ?_) ?_
    | with_reducible refine State.request_sound _ _ _ _ _ _ _ _ ?_
    | with_reducible refine State.padRead_sound_eq (by assumption) ?_
    | with_reducible refine State.rowsRead_sound_eq (by assumption) ?_
    | with_reducible refine State.rowsIf_sound (by assumption) ?_
    | with_reducible refine State.convRows_sound_eq (by assumption) ?_
    | with_reducible refine sound_pair (by assumption) ?_
    | with_reducible refine State.rowWrite_sound _ _ _ _ _ _ _ _ _ ?_
    | with_reducible refine State.rowsWrite_sound _ _ _ _ _ _ _ _ _ ?_
    | split
    | dsimp only)
theorem State.moveJob_sound_eq {v} {s : State} {a1} {a2} {a3} {t} {y} (e : State.moveJob s a1 a2 a3 = (t, y)) (h : sound v s) : sound v t := by
  have := State.moveJob_sound (v := v) s a1 a2 a3 h; rwa [e] at this

theorem State.reqExcept_sound {v} (s : State) (a1) (a2) (h : sound v s) : sound v (State.reqExcept s a1 a2) := by
  unfold State.reqExcept; try dsimp only
  repeat' (first | with_reducible assumption | with_reducible refine ite_keep (P := sound _) ?_ ?_ | with_reducible refine State.exceptRun_sound _ _ _ _ _ ?_ | with_reducible refine State.failGet_sound _ _ _ _ ?_ | with_reducible refine foldl_keep (P := sound _) (fun _ _ _ => ?_) ?_ | with_reducible refine foldl_fst (P := sound _) (fun _ _ _ => ?_) ?_ | with_reducible refine Pad.restoreWins_wf _ _ _ ?_ | with_reducible refine (Pad.rowDead_mem _ _).symm ▸ ?_ | split)

theorem State.unanswered_sound {v} (s : State) (a1) (h : sound v s) : sound v (State.unanswered s a1) := by
  unfold State.unanswered; try dsimp only
  repeat' (first | with_reducible assumption | with_reducible refine ite_keep (P := sound _) ?_ ?_ | with_reducible refine State.exportLost_sound _ _ ?_ | with_reducible refine State.reqExcept_sound _ _ _ ?_)

theorem State.nacked_sound {v} (s : State) (a1) (a2) (h : sound v s) : sound v (State.nacked s a1 a2) := by
  unfold State.nacked; try dsimp only
  repeat' (first | with_reducible assumption | with_reducible refine ite_keep (P := sound _) ?_ ?_ | with_reducible refine State.bump_sound _ _ _ ?_ | with_reducible refine State.unanswered_sound _ _ ?_ | with_reducible refine State.reqExcept_sound _ _ _ ?_ | with_reducible refine State.exportLost_sound _ _ ?_ | with_reducible refine foldl_keep (P := sound _) (fun _ _ _ => ?_) ?_ | with_reducible refine foldl_fst (P := sound _) (fun _ _ _ => ?_) ?_ | with_reducible refine Pad.restoreWins_wf _ _ _ ?_ | with_reducible refine (Pad.rowDead_mem _ _).symm ▸ ?_ | split)

theorem State.nextPacket_sound {v} (s : State) (a1) (a2) (h : sound v s) : sound v (State.nextPacket s a1 a2).1 := by
  unfold State.nextPacket; try dsimp only
  repeat' (first | with_reducible assumption | with_reducible refine ite_keep (P := sound _) ?_ ?_ | with_reducible refine State.qPop_sound _ _ _ ?_ | with_reducible refine State.qPop_sound_eq (by assumption) ?_ | with_reducible refine foldl_keep (P := sound _) (fun _ _ _ => ?_) ?_ | with_reducible refine foldl_fst (P := sound _) (fun _ _ _ => ?_) ?_ | with_reducible refine Pad.restoreWins_wf _ _ _ ?_ | with_reducible refine (Pad.rowDead_mem _ _).symm ▸ ?_ | split | dsimp only | fail_if_no_progress (rw [sound_mk]; refine sound_of rfl rfl rfl rfl rfl ?_))
theorem State.nextPacket_sound_eq {v} {s : State} {a1} {a2} {t} {y} (e : State.nextPacket s a1 a2 = (t, y)) (h : sound v s) : sound v t := by
  have := State.nextPacket_sound s a1 a2 h; rwa [e] at this

theorem State.osStore_sound {v} (s : State) (a1) (a2) (a3) (h : sound v s) : sound v (State.osStore s a1 a2 a3) := by
  unfold State.osStore; try dsimp only
  repeat' (first | with_reducible assumption | with_reducible refine ite_keep (P := sound _) ?_ ?_ | with_reducible refine State.countOps_sound _ _ _ _ _ ?_ | with_reducible refine State.modArr_sound _ _ _ ?_ | with_reducible refine foldl_keep (P := sound _) (fun _ _ _ => ?_) ?_)

theorem State.reply_sound {v} (s : State) (a1) (a2) (h : sound v s) : sound v (State.reply s a1 a2) := by
  unfold State.reply; try dsimp only
  repeat' (first | with_reducible assumption | with_reducible refine ite_keep (P := sound _) ?_ ?_ | with_reducible refine State.send_sound _ _ _ ?_)

theorem State.ownerTake_sound {v} (s : State) (m e) (f : State → Fin 16 → State × Option AccErr) (hf : ∀ s c, sound v s → sound v (f s c).1)
    (h : sound v s) : sound v (State.ownerTake s m e f) := by
  unfold State.ownerTake; dsimp only
  split
  · rename_i c _
    have h1 := State.flitCount_sound s e h
    split
    · exact State.reply_sound _ _ _ (State.bump_sound _ _ _ h1)
    · have h2 := hf _ c h1
      split <;> rename_i hx <;> rw [hx] at h2
      · exact State.reply_sound _ _ _ h2
      · split
        · exact State.reply_sound _ _ _ (State.counted_sound _ _ _ h2)
        · exact State.reply_sound _ _ _ h2
  · exact State.reply_sound _ _ _ h

theorem Engine.wf_count {x : Engine} (h : x.wf = true) (hc : x.count < 16384) : Engine.wf { x with count := x.count + 1 } = true := by
  simp only [Engine.wf, Bool.and_eq_true, Bool.or_eq_true, decide_eq_true_eq] at h ⊢
  exact ⟨h.1, h.2.imp id (fun hh => ⟨hh.1, by omega⟩)⟩

theorem State.parse_sound {v} (s : State) (e : Fin 16) (o w) (f : Engine → State → Option (State × Nat))
    (hf : ∀ s2 pc, (s.engine e).busy = true → sound v (s.modEngine e (fun x => { x with count := x.count + 1 })) →
      f (s.engine e) (s.modEngine e (fun x => { x with count := x.count + 1 })) = some (s2, pc) → sound v s2)
    (h : sound v s) : sound v (State.parse s e o w f) := by
  unfold State.parse; dsimp only
  split
  · exact h
  · rename_i hb
    split
    · exact State.parserFault_sound _ _ h
    · rename_i hc
      have h1 : sound v (s.modEngine e (fun x => { x with count := x.count + 1 })) :=
        State.modEngine_soundAt (Engine.wf_count (sound_engine h e) (by omega)) h
      split
      · exact State.parserFault_sound _ _ h1
      · rename_i s2 pc hx
        exact State.goTo_sound _ _ _ (hf _ _ (by simp only [Bool.or_eq_true, Bool.not_eq_true', not_or, Bool.not_eq_false] at hb; exact hb.1.1) h1 hx)

theorem State.parseReg_sound {v} (s : State) (e : Fin 16) (o w) (f : Engine → Option Engine)
    (hf : ∀ x y, x.wf = true → f x = some y → y.regs[(0 : Fin 16)] = 0 ∧ y.words = x.words ∧ y.pc = x.pc) (h : sound v s) :
    sound v (State.parseReg s e o w f) := by
  unfold State.parseReg
  refine State.parse_sound s e _ _ _ (fun s2 pc hb h1 hx => ?_) h
  simp only [Option.map_eq_some_iff, Prod.mk.injEq] at hx
  obtain ⟨y, hy, rfl, rfl⟩ := hx
  obtain ⟨y0, yw, yp⟩ := hf _ _ (sound_engine h e) hy
  refine State.modEngine_soundAt ?_ h1
  have h2 := sound_engine h1 e
  simp only [State.engine, State.modEngine, Fin.getElem_fin, Vector.getElem_set_self] at h2 hb ⊢
  simp only [Engine.wf, Bool.and_eq_true, Bool.or_eq_true, decide_eq_true_eq, hb, Bool.not_true, Bool.false_eq_true, false_or, beq_iff_eq] at h2 ⊢
  refine ⟨y0, Or.inr ⟨?_, h2.2.2⟩⟩
  rw [yw, yp]; exact h2.2.1

theorem State.deliverIf_sound {v} {b : Bool} {s t : State} {c x r g n l y}
    (e : (if b = true then s.deliver c x r g n l else (s, none)) = (t, y)) (h : sound v s) : sound v t := by
  split at e
  · exact State.deliver_sound_eq e h
  · injection e with e; subst e; exact h

theorem State.passGo_sound {v} (s : State) (c u b l e) (h : sound v s) : sound v (State.passGo s c u b l e) := by
  unfold State.passGo; dsimp only
  repeat' (first
    | with_reducible assumption
    | with_reducible refine State.exceptRun_sound _ _ _ _ _ ?_
    | with_reducible refine State.chunkEnd_sound _ _ _ ?_
    | with_reducible refine State.modArr_sound _ _ _ ?_
    | with_reducible refine State.streamRows_sound_eq (by assumption) ?_
    | with_reducible refine State.deliverIf_sound (by assumption) ?_
    | with_reducible refine State.countOps_sound _ _ _ _ _ ?_
    | with_reducible refine State.judge_sound _ _ _ ?_
    | split)

theorem State.peBlock_sound {v} (s : State) (a1) (a2) (a3) (a4) (a5) (a6) (h : sound v s) : sound v (State.peBlock s a1 a2 a3 a4 a5 a6) := by
  unfold State.peBlock; try dsimp only
  repeat' (first | with_reducible assumption | with_reducible refine ite_keep (P := sound _) ?_ ?_ | with_reducible refine State.sendColl_sound _ _ _ _ _ _ _ _ _ ?_ | with_reducible refine foldl_keep (P := sound _) (fun _ _ _ => ?_) ?_)

theorem State.peerLook_sound {v} (s : State) (a1) (a2) (h : sound v s) : sound v (State.peerLook s a1 a2) := by
  unfold State.peerLook; try dsimp only
  repeat' (first | with_reducible assumption | with_reducible refine ite_keep (P := sound _) ?_ ?_ | with_reducible refine State.bump_sound _ _ _ ?_ | with_reducible refine State.countRaise_sound _ _ _ _ _ ?_ | with_reducible refine State.setQueue_sound _ _ _ ?_ | with_reducible refine foldl_keep (P := sound _) (fun _ _ _ => ?_) ?_ | with_reducible refine foldl_fst (P := sound _) (fun _ _ _ => ?_) ?_ | with_reducible refine Pad.restoreWins_wf _ _ _ ?_ | with_reducible refine (Pad.rowDead_mem _ _).symm ▸ ?_ | split)

theorem State.peerFlow_sound {v} (s : State) (a1) (a2) (h : sound v s) : sound v (State.peerFlow s a1 a2) := by
  unfold State.peerFlow; try dsimp only
  repeat' (first | with_reducible assumption | with_reducible refine ite_keep (P := sound _) ?_ ?_ | with_reducible refine State.peerDrain_sound _ _ ?_ | with_reducible refine State.closeDue_sound _ ?_ | with_reducible refine State.peerLook_sound _ _ _ ?_)

theorem State.peerTake_sound {v} (s : State) (a1) (a2) (h : sound v s) : sound v (State.peerTake s a1 a2) := by
  unfold State.peerTake; try dsimp only
  repeat' (first | with_reducible assumption | with_reducible refine ite_keep (P := sound _) ?_ ?_ | with_reducible refine State.macsecIn_sound _ _ _ ?_ | with_reducible refine State.macsecIn_sound_eq (by assumption) ?_ | with_reducible refine State.rxDrop_sound _ _ ?_ | with_reducible refine State.bump_sound _ _ _ ?_ | with_reducible refine State.countRaise_sound _ _ _ _ _ ?_ | with_reducible refine foldl_keep (P := sound _) (fun _ _ _ => ?_) ?_ | with_reducible refine foldl_fst (P := sound _) (fun _ _ _ => ?_) ?_ | with_reducible refine Pad.restoreWins_wf _ _ _ ?_ | with_reducible refine (Pad.rowDead_mem _ _).symm ▸ ?_ | split | dsimp only | fail_if_no_progress (rw [sound_mk]; refine sound_of rfl rfl rfl rfl rfl ?_))

theorem State.peonyCommand_sound {v} (s : State) (a1) (a2) (h : sound v s) : sound v (State.peonyCommand s a1 a2) := by
  unfold State.peonyCommand; try dsimp only
  repeat' (first | with_reducible assumption | with_reducible refine ite_keep (P := sound _) ?_ ?_ | with_reducible refine State.drawn_sound _ ?_ | with_reducible refine State.setVer_sound _ _ _ _ ?_ | with_reducible refine State.buildRows_sound _ _ _ _ _ ?_ | with_reducible refine State.pGet_sound _ _ _ _ _ ?_ | with_reducible refine State.pGet_sound_eq (by assumption) ?_ | with_reducible refine State.pPut_sound _ _ _ _ ?_ | with_reducible refine State.dirEntry_sound _ _ _ _ ?_ | with_reducible refine State.dirEntry_sound_eq (by assumption) ?_ | with_reducible refine State.setOct_sound _ _ _ ?_ | with_reducible refine foldl_keep (P := sound _) (fun _ _ _ => ?_) ?_ | with_reducible refine foldl_fst (P := sound _) (fun _ _ _ => ?_) ?_ | with_reducible refine Pad.restoreWins_wf _ _ _ ?_ | with_reducible refine (Pad.rowDead_mem _ _).symm ▸ ?_ | split)

theorem State.poseGap_sound {v} (s : State) (a1) (a2) (h : sound v s) : sound v (State.poseGap s a1 a2) := by
  unfold State.poseGap; try dsimp only
  repeat' (first | with_reducible assumption | with_reducible refine ite_keep (P := sound _) ?_ ?_ | with_reducible refine State.modPoint_sound _ _ _ ?_ | with_reducible refine State.raise_sound _ _ _ _ _ ?_ | with_reducible refine foldl_keep (P := sound _) (fun _ _ _ => ?_) ?_ | with_reducible refine foldl_fst (P := sound _) (fun _ _ _ => ?_) ?_ | with_reducible refine Pad.restoreWins_wf _ _ _ ?_ | with_reducible refine (Pad.rowDead_mem _ _).symm ▸ ?_ | split | dsimp only | fail_if_no_progress (rw [sound_mk]; refine sound_of rfl rfl rfl rfl rfl ?_))

theorem State.powerDown_sound {v} (s : State) (a1) (a2) (a3) (h : sound v s) : sound v (State.powerDown s a1 a2 a3) := by
  unfold State.powerDown; try dsimp only
  repeat' (first | with_reducible assumption | with_reducible refine ite_keep (P := sound _) ?_ ?_ | with_reducible refine State.keepHeads_sound _ _ ?_ | with_reducible refine State.kept_sound _ _ ?_ | with_reducible refine State.applyArmed_sound _ ?_ | with_reducible refine State.setNum_sound _ _ _ ?_ | with_reducible refine State.modPower_sound _ _ ?_)

theorem State.powerFail_sound {v} (s : State) (h : sound v s) : sound v (State.powerFail s) := by
  unfold State.powerFail; try dsimp only
  repeat' (first | with_reducible assumption | with_reducible refine ite_keep (P := sound _) ?_ ?_ | with_reducible refine State.store_sound _ _ _ ?_ | with_reducible refine State.loseAll_sound _ ?_ | with_reducible refine State.raise_sound _ _ _ _ _ ?_ | with_reducible refine State.saveAll_sound _ ?_ | with_reducible refine State.powerDown_sound _ _ _ _ ?_)

theorem State.quarantine_sound {v} (s : State) (a1) (a2) (h : sound v s) : sound v (State.quarantine s a1 a2) := by
  unfold State.quarantine; try dsimp only
  repeat' (first | with_reducible assumption | with_reducible refine ite_keep (P := sound _) ?_ ?_ | with_reducible refine State.raise_sound _ _ _ _ _ ?_ | with_reducible refine State.modHead_sound _ _ _ ?_ | with_reducible refine State.dropPacket_sound _ _ _ ?_)

theorem State.present_sound {v} (s : State) (a1) (a2) (a3) (h : sound v s) : sound v (State.present s a1 a2 a3) := by
  unfold State.present; try dsimp only
  repeat' (first | with_reducible assumption | with_reducible refine ite_keep (P := sound _) ?_ ?_ | with_reducible refine State.setOct_sound _ _ _ ?_ | with_reducible refine State.modHead_sound _ _ _ ?_ | with_reducible refine State.quarantine_sound _ _ _ ?_ | with_reducible refine foldl_keep (P := sound _) (fun _ _ _ => ?_) ?_ | with_reducible refine foldl_fst (P := sound _) (fun _ _ _ => ?_) ?_ | with_reducible refine Pad.restoreWins_wf _ _ _ ?_ | with_reducible refine (Pad.rowDead_mem _ _).symm ▸ ?_ | split)

theorem State.qEmpty_sound {v} (s : State) (a1) (h : sound v s) : sound v (State.qEmpty s a1) := by
  unfold State.qEmpty; try dsimp only
  repeat' (first | with_reducible assumption | with_reducible refine ite_keep (P := sound _) ?_ ?_ | with_reducible refine State.bump_sound _ _ _ ?_ | with_reducible refine State.qClear_sound _ _ ?_)

theorem State.readAnswer_sound {v} (s : State) (a1) (a2) (a3) (h : sound v s) : sound v (State.readAnswer s a1 a2 a3) := by
  unfold State.readAnswer; try dsimp only
  repeat' (first | with_reducible assumption | with_reducible refine ite_keep (P := sound _) ?_ ?_ | with_reducible refine State.send_sound _ _ _ ?_ | with_reducible refine foldl_keep (P := sound _) (fun _ _ _ => ?_) ?_)

theorem State.readLife_sound {v} (s : State) (h : sound v s) : sound v (State.readLife s) := by
  unfold State.readLife; try dsimp only
  repeat' (first | with_reducible assumption | with_reducible refine ite_keep (P := sound _) ?_ ?_ | with_reducible refine State.setNum_sound _ _ _ ?_ | with_reducible refine State.modSec_sound _ _ ?_ | with_reducible refine State.raise_sound _ _ _ _ _ ?_)

theorem State.readList_sound {v} (s : State) (a1) (a2) (h : sound v s) : sound v (State.readList s a1 a2).1 := by
  unfold State.readList; try dsimp only
  repeat' (first | with_reducible assumption | with_reducible refine ite_keep (P := sound _) ?_ ?_ | with_reducible refine State.padRead_sound _ _ _ _ _ _ _ _ ?_ | with_reducible refine State.padRead_sound_eq (by assumption) ?_ | with_reducible refine foldl_keep (P := sound _) (fun _ _ _ => ?_) ?_ | with_reducible refine foldl_fst (P := sound _) (fun _ _ _ => ?_) ?_ | with_reducible refine Pad.restoreWins_wf _ _ _ ?_ | with_reducible refine (Pad.rowDead_mem _ _).symm ▸ ?_ | split)
theorem State.readList_sound_eq {v} {s : State} {a1} {a2} {t} {y} (e : State.readList s a1 a2 = (t, y)) (h : sound v s) : sound v t := by
  have := State.readList_sound s a1 a2 h; rwa [e] at this

theorem State.recSend_sound {v} (s : State) (a1) (a2) (a3) (a4) (h : sound v s) : sound v (State.recSend s a1 a2 a3 a4) := by
  unfold State.recSend; try dsimp only
  repeat' (first | with_reducible assumption | with_reducible refine ite_keep (P := sound _) ?_ ?_ | with_reducible refine State.sendOn_sound _ _ _ _ _ _ _ _ _ ?_)

theorem State.recAnswer_sound {v} (s : State) (a1) (a2) (h : sound v s) : sound v (State.recAnswer s a1 a2) := by
  unfold State.recAnswer; try dsimp only
  repeat' (first | with_reducible assumption | with_reducible refine ite_keep (P := sound _) ?_ ?_ | with_reducible refine State.recSend_sound _ _ _ _ _ ?_)

theorem State.recRequest_sound {v} (s : State) (r b) (f : State → State × Nat) (hf : ∀ s, sound v s → sound v (f s).1) (h : sound v s) :
    sound v (State.recRequest s r b f) := by
  have h1 := State.quiet_sound _ (State.at_sound s r.t h)
  unfold State.recRequest; dsimp only
  split
  · exact h1
  · split
    · exact State.recAnswer_sound _ _ _ h1
    · split
      · exact State.recAnswer_sound _ _ _ h1
      · have h2 := hf _ (State.modRec_sound _ (fun y => { y with last := (s.at r.t).quiet.frame.now }) h1)
        exact State.recAnswer_sound _ _ _ h2

theorem State.recheck_sound {v} (s : State) (a1) (h : sound v s) : sound v (State.recheck s a1) := by
  unfold State.recheck; try dsimp only
  repeat' (first | with_reducible assumption | with_reducible refine ite_keep (P := sound _) ?_ ?_ | with_reducible refine State.closeIfFree_sound _ _ ?_ | with_reducible refine foldl_keep (P := sound _) (fun _ _ _ => ?_) ?_ | with_reducible refine foldl_fst (P := sound _) (fun _ _ _ => ?_) ?_ | with_reducible refine Pad.restoreWins_wf _ _ _ ?_ | with_reducible refine (Pad.rowDead_mem _ _).symm ▸ ?_ | split)

theorem State.scheduleRefused_sound {v} (s : State) (a1) (h : sound v s) : sound v (State.scheduleRefused s a1) := by
  unfold State.scheduleRefused; try dsimp only
  repeat' (first | with_reducible assumption | with_reducible refine ite_keep (P := sound _) ?_ ?_ | with_reducible refine State.raise_sound _ _ _ _ _ ?_ | with_reducible refine State.homeRules_sound _ _ ?_ | with_reducible refine State.homeRules_sound_eq (by assumption) ?_ | with_reducible refine foldl_keep (P := sound _) (fun _ _ _ => ?_) ?_ | with_reducible refine foldl_fst (P := sound _) (fun _ _ _ => ?_) ?_ | with_reducible refine Pad.restoreWins_wf _ _ _ ?_ | with_reducible refine (Pad.rowDead_mem _ _).symm ▸ ?_ | split)

theorem State.stageEnd_sound {v} (s : State) (a1) (h : sound v s) : sound v (State.stageEnd s a1).1 := by
  unfold State.stageEnd; try dsimp only
  repeat' (first | with_reducible assumption | with_reducible refine ite_keep (P := sound _) ?_ ?_ | with_reducible refine State.showHeap_sound _ ?_ | with_reducible refine State.modSec_sound _ _ ?_ | with_reducible refine State.raise_sound _ _ _ _ _ ?_ | with_reducible refine State.setNum_sound _ _ _ ?_ | with_reducible refine State.emptyStage_sound _ ?_ | with_reducible refine State.countRaise_sound _ _ _ _ _ ?_ | with_reducible refine foldl_keep (P := sound _) (fun _ _ _ => ?_) ?_ | with_reducible refine foldl_fst (P := sound _) (fun _ _ _ => ?_) ?_ | with_reducible refine Pad.restoreWins_wf _ _ _ ?_ | with_reducible refine (Pad.rowDead_mem _ _).symm ▸ ?_ | split)
theorem State.stageEnd_sound_eq {v} {s : State} {a1} {t} {y} (e : State.stageEnd s a1 = (t, y)) (h : sound v s) : sound v t := by
  have := State.stageEnd_sound s a1 h; rwa [e] at this

theorem State.refusal_sound {v} (s : State) (a1) (a2) (a3) (a4) (h : sound v s) : sound v (State.refusal s a1 a2 a3 a4) := by
  unfold State.refusal; try dsimp only
  repeat' (first | with_reducible assumption | with_reducible refine ite_keep (P := sound _) ?_ ?_ | with_reducible refine State.raise_sound _ _ _ _ _ ?_ | with_reducible refine State.scheduleRefused_sound _ _ ?_ | with_reducible refine State.answer_sound _ _ ?_ | with_reducible refine State.stageEnd_sound _ _ ?_ | with_reducible refine State.stageEnd_sound_eq (by assumption) ?_ | with_reducible refine foldl_keep (P := sound _) (fun _ _ _ => ?_) ?_ | with_reducible refine foldl_fst (P := sound _) (fun _ _ _ => ?_) ?_ | with_reducible refine Pad.restoreWins_wf _ _ _ ?_ | with_reducible refine (Pad.rowDead_mem _ _).symm ▸ ?_ | split)

theorem State.refusedEvent_sound {v} (s : State) (a1) (h : sound v s) : sound v (State.refusedEvent s a1) := by
  unfold State.refusedEvent; try dsimp only
  repeat' (first | with_reducible assumption | with_reducible refine ite_keep (P := sound _) ?_ ?_ | with_reducible refine State.raise_sound _ _ _ _ _ ?_)

theorem State.rejectPoint_sound {v} (s : State) (e n) (h : sound v s) : sound v (State.rejectPoint s e n) := by
  unfold State.rejectPoint; dsimp only
  split
  · exact h
  · exact State.bump_sound _ _ _ (State.modEngine_sound (fun x hx => hx) h)

theorem State.release_sound {v} (s : State) (a1) (a2) (h : sound v s) : sound v (State.release s a1 a2) := by
  unfold State.release; try dsimp only
  repeat' (first | with_reducible assumption | with_reducible refine ite_keep (P := sound _) ?_ ?_ | with_reducible refine State.sendColl_sound _ _ _ _ _ _ _ _ _ ?_ | with_reducible refine State.barTry_sound _ _ ?_ | with_reducible refine State.kadd_sound _ _ _ _ ?_ | with_reducible refine foldl_keep (P := sound _) (fun _ _ _ => ?_) ?_)

end Sys2Proof.Machine
end

