-- ==== Sys2Proof/Laws/Sound07.lean ====
section
/-! SUPPORT. What operations and meanings keep, part 8 of 12: the queue of waiting commands, every parser engine as R55 and R59 have it, and the
canonical form of every byte memory (`sound`). Callees come before their callers, so a lemma cites those of the operations it unfolds to. -/

namespace Sys2Proof.Machine

theorem State.relog_sound {v} (s : State) (a1) (a2) (h : sound v s) : sound v (State.relog s a1 a2) := by
  unfold State.relog; try dsimp only
  repeat' (first | with_reducible assumption | with_reducible refine ite_keep (P := sound _) ?_ ?_ | with_reducible refine foldl_keep (P := sound _) (fun _ _ _ => ?_) ?_ | with_reducible refine foldl_fst (P := sound _) (fun _ _ _ => ?_) ?_ | with_reducible refine Pad.restoreWins_wf _ _ _ ?_ | with_reducible refine (Pad.rowDead_mem _ _).symm ▸ ?_ | split | dsimp only | fail_if_no_progress (rw [sound_mk]; refine sound_of rfl rfl rfl rfl rfl ?_))

theorem State.reqDone_sound {v} (s : State) (a1) (a2) (h : sound v s) : sound v (State.reqDone s a1 a2) := by
  unfold State.reqDone; try dsimp only
  repeat' (first | with_reducible assumption | with_reducible refine ite_keep (P := sound _) ?_ ?_ | with_reducible refine State.issueReq_sound _ _ _ ?_ | with_reducible refine foldl_keep (P := sound _) (fun _ _ _ => ?_) ?_ | with_reducible refine foldl_fst (P := sound _) (fun _ _ _ => ?_) ?_ | with_reducible refine Pad.restoreWins_wf _ _ _ ?_ | with_reducible refine (Pad.rowDead_mem _ _).symm ▸ ?_ | split | dsimp only | fail_if_no_progress (rw [sound_mk]; refine sound_of rfl rfl rfl rfl rfl ?_))

theorem State.runEnter_sound {v} (s : State) (a1) (h : sound v s) : sound v (State.runEnter s a1) := by
  unfold State.runEnter; try dsimp only
  repeat' (first | with_reducible assumption | with_reducible refine ite_keep (P := sound _) ?_ ?_ | with_reducible refine State.setNum_sound _ _ _ ?_ | with_reducible refine State.headBoundary_sound _ _ ?_ | with_reducible refine State.turnFrames_sound _ _ _ ?_ | with_reducible refine State.logTurn_sound _ ?_ | with_reducible refine State.turnGates_sound _ ?_ | with_reducible refine State.resultsTurn_sound _ ?_ | with_reducible refine State.safetyTurn_sound _ ?_ | with_reducible refine State.modSafety_sound _ _ ?_ | with_reducible refine State.enterFallback_sound _ _ ?_ | with_reducible refine State.sampleValues_sound _ _ ?_ | with_reducible refine foldl_keep (P := sound _) (fun _ _ _ => ?_) ?_ | with_reducible refine foldl_fst (P := sound _) (fun _ _ _ => ?_) ?_ | with_reducible refine Pad.restoreWins_wf _ _ _ ?_ | with_reducible refine (Pad.rowDead_mem _ _).symm ▸ ?_ | split | dsimp only | fail_if_no_progress (rw [sound_mk]; refine sound_of rfl rfl rfl rfl rfl ?_))

theorem State.saveTask_sound {v} (s : State) (a1) (a2) (a3) (a4) (a5) (h : sound v s) : sound v (State.saveTask s a1 a2 a3 a4 a5) := by
  unfold State.saveTask; try dsimp only
  repeat' (first | with_reducible assumption | with_reducible refine ite_keep (P := sound _) ?_ ?_ | with_reducible refine State.modPad_soundMem (fun _ hm => Pad.closeAll_wf _ hm) ?_ | with_reducible refine State.modPad_soundMem (fun _ hm => Pad.close_wf _ _ _ hm) ?_ | with_reducible refine State.modPad_soundMem (fun _ hm => Pad.load_wf _ _ _ _ _ hm) ?_ | with_reducible refine State.modPad_soundMem (fun _ hm => Pad.write_wf _ _ _ _ hm) ?_ | with_reducible refine State.modPad_soundMem (fun _ hm => Pad.closeConfidential_wf _ hm) ?_ | with_reducible refine State.modPad_sound (fun _ => rfl) ?_ | with_reducible refine State.modPad_soundMem (fun _ hm => ?_) ?_ | with_reducible refine State.bump_sound _ _ _ ?_ | with_reducible refine State.noteRun_sound _ _ ?_ | with_reducible refine State.modCore_sound (fun _ => rfl) ?_ | with_reducible refine State.modCore_soundMem (fun _ hm => ?_) ?_ | with_reducible refine State.modSched_sound _ _ ?_ | with_reducible refine State.modInst_sound _ _ _ _ ?_)

theorem State.scan_sound {v} (s : State) (h : sound v s) : sound v (State.scan s) := by
  unfold State.scan; try dsimp only
  repeat' (first | with_reducible assumption | with_reducible refine ite_keep (P := sound _) ?_ ?_ | with_reducible refine State.geometricSets_sound _ _ ?_ | with_reducible refine foldl_keep (P := sound _) (fun _ _ _ => ?_) ?_ | with_reducible refine foldl_fst (P := sound _) (fun _ _ _ => ?_) ?_ | with_reducible refine Pad.restoreWins_wf _ _ _ ?_ | with_reducible refine (Pad.rowDead_mem _ _).symm ▸ ?_ | split | dsimp only | fail_if_no_progress (rw [sound_mk]; refine sound_of rfl rfl rfl rfl rfl ?_))

theorem State.writeDirectory_sound {v} (s : State) (a1) (h : sound v s) : sound v (State.writeDirectory s a1) := by
  unfold State.writeDirectory; try dsimp only
  repeat' (first | with_reducible assumption | with_reducible refine ite_keep (P := sound _) ?_ ?_ | with_reducible refine State.store_sound _ _ _ ?_ | with_reducible refine State.showHeap_sound _ ?_ | with_reducible refine foldl_keep (P := sound _) (fun _ _ _ => ?_) ?_ | with_reducible refine foldl_fst (P := sound _) (fun _ _ _ => ?_) ?_ | with_reducible refine Pad.restoreWins_wf _ _ _ ?_ | with_reducible refine (Pad.rowDead_mem _ _).symm ▸ ?_ | split | dsimp only | fail_if_no_progress (rw [sound_mk]; refine sound_of rfl rfl rfl rfl rfl ?_))

theorem State.scheduleEffect_sound {v} (s : State) (a1) (h : sound v s) : sound v (State.scheduleEffect s a1) := by
  unfold State.scheduleEffect; try dsimp only
  repeat' (first | with_reducible assumption | with_reducible refine ite_keep (P := sound _) ?_ ?_ | with_reducible refine State.countActivation_sound _ _ ?_ | with_reducible refine State.acceptParts_sound _ _ _ ?_ | with_reducible refine State.writeDirectory_sound _ _ ?_ | with_reducible refine State.setOct_sound _ _ _ ?_ | with_reducible refine State.activateAccepted_sound _ ?_ | with_reducible refine foldl_keep (P := sound _) (fun _ _ _ => ?_) ?_ | with_reducible refine foldl_fst (P := sound _) (fun _ _ _ => ?_) ?_ | with_reducible refine Pad.restoreWins_wf _ _ _ ?_ | with_reducible refine (Pad.rowDead_mem _ _).symm ▸ ?_ | split)

theorem State.selectDirectory_sound {v} (s : State) (a1) (a2) (a3) (h : sound v s) : sound v (State.selectDirectory s a1 a2 a3).1 := by
  unfold State.selectDirectory; try dsimp only
  repeat' (first | with_reducible assumption | with_reducible refine ite_keep (P := sound _) ?_ ?_ | with_reducible refine State.store_sound _ _ _ ?_ | with_reducible refine State.modSec_sound _ _ ?_ | with_reducible refine foldl_keep (P := sound _) (fun _ _ _ => ?_) ?_ | with_reducible refine foldl_fst (P := sound _) (fun _ _ _ => ?_) ?_ | with_reducible refine Pad.restoreWins_wf _ _ _ ?_ | with_reducible refine (Pad.rowDead_mem _ _).symm ▸ ?_ | split)
theorem State.selectDirectory_sound_eq {v} {s : State} {a1} {a2} {a3} {t} {y} (e : State.selectDirectory s a1 a2 a3 = (t, y)) (h : sound v s) : sound v t := by
  have := State.selectDirectory_sound s a1 a2 a3 h; rwa [e] at this

theorem State.sendGptp_sound {v} (s : State) (a1) (a2) (a3) (h : sound v s) : sound v (State.sendGptp s a1 a2 a3) := by
  unfold State.sendGptp; try dsimp only
  repeat' (first | with_reducible assumption | with_reducible refine ite_keep (P := sound _) ?_ ?_ | with_reducible refine State.hostSend_sound _ _ _ ?_ | with_reducible refine State.transmit_sound _ _ ?_)

theorem State.sensPush_sound {v} (s : State) (a1) (a2) (h : sound v s) : sound v (State.sensPush s a1 a2) := by
  unfold State.sensPush; try dsimp only
  repeat' (first | with_reducible assumption | with_reducible refine ite_keep (P := sound _) ?_ ?_ | with_reducible refine State.causeIng_sound _ _ _ ?_ | with_reducible refine State.bump_sound _ _ _ ?_ | with_reducible refine State.qPush_sound _ _ _ ?_ | with_reducible refine State.qPush_sound_eq (by assumption) ?_ | with_reducible refine foldl_keep (P := sound _) (fun _ _ _ => ?_) ?_ | with_reducible refine foldl_fst (P := sound _) (fun _ _ _ => ?_) ?_ | with_reducible refine Pad.restoreWins_wf _ _ _ ?_ | with_reducible refine (Pad.rowDead_mem _ _).symm ▸ ?_ | split)

theorem State.setLink_sound {v} (s : State) (a1) (a2) (h : sound v s) : sound v (State.setLink s a1 a2) := by
  unfold State.setLink; try dsimp only
  repeat' (first | with_reducible assumption | with_reducible refine ite_keep (P := sound _) ?_ ?_ | with_reducible refine State.setNum_sound _ _ _ ?_ | with_reducible refine State.modNet_sound _ _ ?_)

theorem State.setRing_sound {v} (s : State) (a1) (h : sound v s) : sound v (State.setRing s a1) := by
  unfold State.setRing; try dsimp only
  repeat' (first | with_reducible assumption | with_reducible refine ite_keep (P := sound _) ?_ ?_ | with_reducible refine foldl_keep (P := sound _) (fun _ _ _ => ?_) ?_ | with_reducible refine foldl_fst (P := sound _) (fun _ _ _ => ?_) ?_ | with_reducible refine Pad.restoreWins_wf _ _ _ ?_ | with_reducible refine (Pad.rowDead_mem _ _).symm ▸ ?_ | split | dsimp only | fail_if_no_progress (rw [sound_mk]; refine sound_of rfl rfl rfl rfl rfl ?_))

theorem State.showThrottle_sound {v} (s : State) (h : sound v s) : sound v (State.showThrottle s) := by
  unfold State.showThrottle; try dsimp only
  repeat' (first | with_reducible assumption | with_reducible refine ite_keep (P := sound _) ?_ ?_ | with_reducible refine State.setNum_sound _ _ _ ?_)

theorem State.shutDown_sound {v} (s : State) (a1) (h : sound v s) : sound v (State.shutDown s a1) := by
  unfold State.shutDown; try dsimp only
  repeat' (first | with_reducible assumption | with_reducible refine ite_keep (P := sound _) ?_ ?_ | with_reducible refine State.modSched_sound _ _ ?_ | with_reducible refine State.loseAll_sound _ ?_ | with_reducible refine State.modSafety_sound _ _ ?_ | with_reducible refine State.setMarigold_sound _ _ ?_ | with_reducible refine State.modPower_sound _ _ ?_ | with_reducible refine State.setNum_sound _ _ _ ?_ | with_reducible refine State.saveAll_sound _ ?_ | with_reducible refine State.powerDown_sound _ _ _ _ ?_)

theorem State.stepTime_sound {v} (s : State) (a1) (h : sound v s) : sound v (State.stepTime s a1) := by
  unfold State.stepTime; try dsimp only
  repeat' (first | with_reducible assumption | with_reducible refine ite_keep (P := sound _) ?_ ?_ | with_reducible refine State.modNet_sound _ _ ?_ | with_reducible refine State.moveInstants_sound _ _ ?_ | with_reducible refine State.raise_sound _ _ _ _ _ ?_ | with_reducible refine foldl_keep (P := sound _) (fun _ _ _ => ?_) ?_ | with_reducible refine foldl_fst (P := sound _) (fun _ _ _ => ?_) ?_ | with_reducible refine Pad.restoreWins_wf _ _ _ ?_ | with_reducible refine (Pad.rowDead_mem _ _).symm ▸ ?_ | split | dsimp only | fail_if_no_progress (rw [sound_mk]; refine sound_of rfl rfl rfl rfl rfl ?_))

theorem State.slaveSync_sound {v} (s : State) (a1) (a2) (h : sound v s) : sound v (State.slaveSync s a1 a2) := by
  unfold State.slaveSync; try dsimp only
  repeat' (first | with_reducible assumption | with_reducible refine ite_keep (P := sound _) ?_ ?_ | with_reducible refine State.stepTime_sound _ _ ?_ | with_reducible refine State.timeCauses_sound _ ?_ | with_reducible refine State.modTime_sound _ _ ?_ | with_reducible refine State.setNum_sound _ _ _ ?_ | with_reducible refine State.raise_sound _ _ _ _ _ ?_ | with_reducible refine State.afterSync_sound _ _ ?_)

theorem State.slotRows_sound {v} (s : State) (a1) (a2) (h : sound v s) : sound v (State.slotRows s a1 a2).1 := by
  unfold State.slotRows; try dsimp only
  repeat' (first | with_reducible assumption | with_reducible refine ite_keep (P := sound _) ?_ ?_ | with_reducible refine State.peRead_sound _ _ _ _ _ _ ?_ | with_reducible refine State.peRead_sound_eq (by assumption) ?_ | with_reducible refine foldl_keep (P := sound _) (fun _ _ _ => ?_) ?_ | with_reducible refine foldl_fst (P := sound _) (fun _ _ _ => ?_) ?_ | with_reducible refine Pad.restoreWins_wf _ _ _ ?_ | with_reducible refine (Pad.rowDead_mem _ _).symm ▸ ?_ | split)
theorem State.slotRows_sound_eq {v} {s : State} {a1} {a2} {t} {y} (e : State.slotRows s a1 a2 = (t, y)) (h : sound v s) : sound v t := by
  have := State.slotRows_sound s a1 a2 h; rwa [e] at this

theorem State.snapRow_sound {v} (s : State) (a1) (h : sound v s) : sound v (State.snapRow s a1) := by
  unfold State.snapRow; try dsimp only
  repeat' (first | with_reducible assumption | with_reducible refine ite_keep (P := sound _) ?_ ?_ | with_reducible refine State.dramPut_sound _ _ _ ?_ | with_reducible refine foldl_keep (P := sound _) (fun _ _ _ => ?_) ?_ | with_reducible refine foldl_fst (P := sound _) (fun _ _ _ => ?_) ?_ | with_reducible refine Pad.restoreWins_wf _ _ _ ?_ | with_reducible refine (Pad.rowDead_mem _ _).symm ▸ ?_ | split | dsimp only | fail_if_no_progress (rw [sound_mk]; refine sound_of rfl rfl rfl rfl rfl ?_))

theorem State.specStop_sound {v} (s : State) (h : sound v s) : sound v (State.specStop s) := by
  unfold State.specStop; try dsimp only
  repeat' (first | with_reducible assumption | with_reducible refine ite_keep (P := sound _) ?_ ?_ | with_reducible refine State.raiseComp_sound _ _ _ _ _ ?_ | with_reducible refine State.modBooks_sound _ _ ?_)

theorem State.specRun_sound {v} (s : State) (a1) (a2) (a3) (a4) (h : sound v s) : sound v (State.specRun s a1 a2 a3 a4) := by
  unfold State.specRun; try dsimp only
  repeat' (first | with_reducible assumption | with_reducible refine ite_keep (P := sound _) ?_ ?_ | with_reducible refine State.countProbes_sound _ _ _ ?_ | with_reducible refine State.modBooks_sound _ _ ?_ | with_reducible refine State.specStop_sound _ ?_ | with_reducible refine foldl_keep (P := sound _) (fun _ _ _ => ?_) ?_)

theorem State.stage_sound {v} (s : State) (e p) (h : sound v s) : sound v (State.stage s e p) :=
  State.modEngine_sound (fun x hx => hx) h

theorem State.startSchedule_sound {v} (s : State) (h : sound v s) : sound v (State.startSchedule s) := by
  unfold State.startSchedule; try dsimp only
  repeat' (first | with_reducible assumption | with_reducible refine ite_keep (P := sound _) ?_ ?_ | with_reducible refine State.raise_sound _ _ _ _ _ ?_ | with_reducible refine State.raiseRefusal_sound _ _ ?_ | with_reducible refine State.putSchedule_sound _ _ ?_ | with_reducible refine foldl_keep (P := sound _) (fun _ _ _ => ?_) ?_ | with_reducible refine foldl_fst (P := sound _) (fun _ _ _ => ?_) ?_ | with_reducible refine Pad.restoreWins_wf _ _ _ ?_ | with_reducible refine (Pad.rowDead_mem _ _).symm ▸ ?_ | split)

theorem State.startTable_sound {v} (s : State) (a1) (h : sound v s) : sound v (State.startTable s a1) := by
  unfold State.startTable; try dsimp only
  repeat' (first | with_reducible assumption | with_reducible refine ite_keep (P := sound _) ?_ ?_ | with_reducible refine State.modTable_sound _ _ _ ?_)

theorem State.writeImage_sound {v} (s : State) (l) (h : sound v s) : sound v (State.writeImage s l) := by
  unfold State.writeImage
  split
  · exact State.modExt_soundMem (fun z hd hh => ⟨hd, Sparse.wf_putN zeroByte _ _ _ hh⟩) h
  · exact h

theorem State.stepThree_sound {v} (s : State) (a1) (h : sound v s) : sound v (State.stepThree s a1) := by
  unfold State.stepThree; try dsimp only
  repeat' (first | with_reducible assumption | with_reducible refine ite_keep (P := sound _) ?_ ?_ | with_reducible refine State.modSec_sound _ _ ?_ | with_reducible refine State.writeImage_sound _ _ ?_ | with_reducible refine State.acceptParts_sound _ _ _ ?_ | with_reducible refine State.writeDirectory_sound _ _ ?_ | with_reducible refine State.noteIdle_sound _ ?_ | with_reducible refine State.finishStage_sound _ ?_)

theorem State.storeRecord_sound {v} (s : State) (h : sound v s) : sound v (State.storeRecord s) := by
  unfold State.storeRecord; try dsimp only
  repeat' (first | with_reducible assumption | with_reducible refine ite_keep (P := sound _) ?_ ?_ | with_reducible refine State.modNet_sound _ _ ?_ | with_reducible refine State.dramPut_sound _ _ _ ?_ | with_reducible refine foldl_keep (P := sound _) (fun _ _ _ => ?_) ?_ | with_reducible refine foldl_fst (P := sound _) (fun _ _ _ => ?_) ?_ | with_reducible refine Pad.restoreWins_wf _ _ _ ?_ | with_reducible refine (Pad.rowDead_mem _ _).symm ▸ ?_ | split)

theorem State.takePose_sound {v} (s : State) (a1) (h : sound v s) : sound v (State.takePose s a1) := by
  unfold State.takePose; try dsimp only
  repeat' (first | with_reducible assumption | with_reducible refine ite_keep (P := sound _) ?_ ?_ | with_reducible refine State.bump_sound _ _ _ ?_ | with_reducible refine foldl_keep (P := sound _) (fun _ _ _ => ?_) ?_ | with_reducible refine foldl_fst (P := sound _) (fun _ _ _ => ?_) ?_ | with_reducible refine Pad.restoreWins_wf _ _ _ ?_ | with_reducible refine (Pad.rowDead_mem _ _).symm ▸ ?_ | split | dsimp only | fail_if_no_progress (rw [sound_mk]; refine sound_of rfl rfl rfl rfl rfl ?_))

theorem State.takeReport_sound {v} (s : State) (a1) (h : sound v s) : sound v (State.takeReport s a1) := by
  unfold State.takeReport; try dsimp only
  repeat' (first | with_reducible assumption | with_reducible refine ite_keep (P := sound _) ?_ ?_ | with_reducible refine State.raise_sound _ _ _ _ _ ?_ | with_reducible refine State.modBooks_sound _ _ ?_ | with_reducible refine State.decideSet_sound _ _ _ _ ?_ | with_reducible refine foldl_keep (P := sound _) (fun _ _ _ => ?_) ?_ | with_reducible refine foldl_fst (P := sound _) (fun _ _ _ => ?_) ?_ | with_reducible refine Pad.restoreWins_wf _ _ _ ?_ | with_reducible refine (Pad.rowDead_mem _ _).symm ▸ ?_ | split)

theorem State.takeRow_sound {v} (s : State) (a1) (a2) (a3) (a4) (a5) (a6) (h : sound v s) : sound v (State.takeRow s a1 a2 a3 a4 a5 a6) := by
  unfold State.takeRow; try dsimp only
  repeat' (first | with_reducible assumption | with_reducible refine ite_keep (P := sound _) ?_ ?_ | with_reducible refine State.dropSlot_sound _ _ _ _ ?_ | with_reducible refine State.modTable_sound _ _ _ ?_ | with_reducible refine State.fillRow_sound _ _ _ _ _ ?_ | with_reducible refine foldl_keep (P := sound _) (fun _ _ _ => ?_) ?_ | with_reducible refine foldl_fst (P := sound _) (fun _ _ _ => ?_) ?_ | with_reducible refine Pad.restoreWins_wf _ _ _ ?_ | with_reducible refine (Pad.rowDead_mem _ _).symm ▸ ?_ | split)

theorem State.takeRows_sound {v} (s : State) (a1) (a2) (a3) (a4) (a5) (a6) (h : sound v s) : sound v (State.takeRows s a1 a2 a3 a4 a5 a6) := by
  unfold State.takeRows; try dsimp only
  repeat' (first | with_reducible assumption | with_reducible refine ite_keep (P := sound _) ?_ ?_ | with_reducible refine State.takeRow_sound _ _ _ _ _ _ _ ?_ | with_reducible refine foldl_keep (P := sound _) (fun _ _ _ => ?_) ?_ | with_reducible refine foldl_fst (P := sound _) (fun _ _ _ => ?_) ?_)

theorem programEffect_sound {v} (a0) (a1) (a2) (s : State) (h : sound v s) : sound v (programEffect a0 a1 a2 s) := by
  unfold programEffect; try dsimp only
  repeat' (first | with_reducible assumption | with_reducible refine ite_keep (P := sound _) ?_ ?_ | with_reducible refine State.install_sound _ _ _ _ ?_ | with_reducible refine State.countActivation_sound _ _ ?_ | with_reducible refine State.writeDirectory_sound _ _ ?_ | with_reducible refine foldl_keep (P := sound _) (fun _ _ _ => ?_) ?_ | with_reducible refine foldl_fst (P := sound _) (fun _ _ _ => ?_) ?_ | with_reducible refine Pad.restoreWins_wf _ _ _ ?_ | with_reducible refine (Pad.rowDead_mem _ _).symm ▸ ?_ | split)

theorem acceptEffect_sound {v} (a0) (s : State) (h : sound v s) : sound v (acceptEffect a0 s) := by
  unfold acceptEffect; try dsimp only
  repeat' (first | with_reducible assumption | with_reducible refine ite_keep (P := sound _) ?_ ?_ | with_reducible refine State.modHead_sound _ _ _ ?_ | with_reducible refine State.store_sound _ _ _ ?_ | with_reducible refine State.raise_sound _ _ _ _ _ ?_ | with_reducible refine State.setNum_sound _ _ _ ?_ | with_reducible refine State.setOct_sound _ _ _ ?_ | with_reducible refine foldl_keep (P := sound _) (fun _ _ _ => ?_) ?_ | with_reducible refine foldl_fst (P := sound _) (fun _ _ _ => ?_) ?_ | with_reducible refine Pad.restoreWins_wf _ _ _ ?_ | with_reducible refine (Pad.rowDead_mem _ _).symm ▸ ?_ | split)

theorem State.validate_sound {v} (s : State) (a1) (a2) (h : sound v s) : sound v (State.validate s a1 a2) := by
  unfold State.validate; try dsimp only
  repeat' (first | with_reducible assumption | with_reducible refine ite_keep (P := sound _) ?_ ?_ | with_reducible refine State.setVer_sound _ _ _ _ ?_ | with_reducible refine State.raise_sound _ _ _ _ _ ?_ | with_reducible refine foldl_keep (P := sound _) (fun _ _ _ => ?_) ?_ | with_reducible refine foldl_fst (P := sound _) (fun _ _ _ => ?_) ?_ | with_reducible refine Pad.restoreWins_wf _ _ _ ?_ | with_reducible refine (Pad.rowDead_mem _ _).symm ▸ ?_ | split)

theorem keyEffect_sound {v} (a0) (a1) (s : State) (h : sound v s) : sound v (keyEffect a0 a1 s) := by
  unfold keyEffect; try dsimp only
  repeat' (first | with_reducible assumption | with_reducible refine ite_keep (P := sound _) ?_ ?_ | with_reducible refine State.toJournal_sound _ _ _ ?_)

theorem attestEffect_sound {v} (a0) (a1) (s : State) (h : sound v s) : sound v (attestEffect a0 a1 s) := by
  unfold attestEffect; try dsimp only
  repeat' (first | with_reducible assumption | with_reducible refine ite_keep (P := sound _) ?_ ?_ | with_reducible refine State.modSession_sound _ _ _ ?_)

theorem saEffect_sound {v} (a0) (a1) (a2) (s : State) (h : sound v s) : sound v (saEffect a0 a1 a2 s) := by
  unfold saEffect; try dsimp only
  repeat' (first | with_reducible assumption | with_reducible refine ite_keep (P := sound _) ?_ ?_ | with_reducible refine State.modSec_sound _ _ ?_)

theorem gateEffect_sound {v} (a0) (s : State) (h : sound v s) : sound v (gateEffect a0 s) := by
  unfold gateEffect; try dsimp only
  repeat' (first | with_reducible assumption | with_reducible refine ite_keep (P := sound _) ?_ ?_ | with_reducible refine State.modSec_sound _ _ ?_ | with_reducible refine State.setNum_sound _ _ _ ?_)

theorem activateEffect_sound {v} (a0) (s : State) (h : sound v s) : sound v (activateEffect a0 s) := by
  unfold activateEffect; try dsimp only
  repeat' (first | with_reducible assumption | with_reducible refine ite_keep (P := sound _) ?_ ?_ | with_reducible refine State.homeRules_sound _ _ ?_ | with_reducible refine State.homeRules_sound_eq (by assumption) ?_ | with_reducible refine State.setNum_sound _ _ _ ?_ | with_reducible refine State.raise_sound _ _ _ _ _ ?_ | with_reducible refine State.at_sound _ _ ?_ | with_reducible refine State.abandon_sound _ ?_ | with_reducible refine State.stepThree_sound _ _ ?_ | with_reducible refine foldl_keep (P := sound _) (fun _ _ _ => ?_) ?_ | with_reducible refine foldl_fst (P := sound _) (fun _ _ _ => ?_) ?_ | with_reducible refine Pad.restoreWins_wf _ _ _ ?_ | with_reducible refine (Pad.rowDead_mem _ _).symm ▸ ?_ | split)

theorem discardEffect_sound {v} (s : State) (h : sound v s) : sound v (discardEffect s) := by
  unfold discardEffect; try dsimp only
  repeat' (first | with_reducible assumption | with_reducible refine ite_keep (P := sound _) ?_ ?_ | with_reducible refine State.setNum_sound _ _ _ ?_ | with_reducible refine State.emptyStage_sound _ ?_)

theorem srvEffect_sound {v} (s : State) (h : sound v s) : sound v (srvEffect s) := by
  unfold srvEffect; try dsimp only
  repeat' (first | with_reducible assumption | with_reducible refine ite_keep (P := sound _) ?_ ?_ | with_reducible refine State.raise_sound _ _ _ _ _ ?_ | with_reducible refine foldl_keep (P := sound _) (fun _ _ _ => ?_) ?_ | with_reducible refine foldl_fst (P := sound _) (fun _ _ _ => ?_) ?_ | with_reducible refine Pad.restoreWins_wf _ _ _ ?_ | with_reducible refine (Pad.rowDead_mem _ _).symm ▸ ?_ | split | dsimp only | fail_if_no_progress (rw [sound_mk]; refine sound_of rfl rfl rfl rfl rfl ?_))

theorem hookOf_sound {v} {w r idx x k} {s : State} (e : hookOf w r idx x = some k) (h : sound v s) : sound v (k.effect s) := by
  have hm := List.mem_of_find?_eq_some e
  simp only [hooksLow, hooksHigh, List.mem_append, List.mem_cons, List.not_mem_nil, or_false] at hm
  rcases hm with (rfl | rfl | rfl | rfl | rfl | rfl | rfl | rfl | rfl | rfl) |
    (rfl | rfl | rfl | rfl | rfl | rfl | rfl | rfl | rfl | rfl | rfl | rfl | rfl | rfl | rfl | rfl | rfl) <;> dsimp only <;> (first
    | with_reducible exact State.beginWipe_sound _ _ h | with_reducible exact State.flushNow_sound _ _ h | with_reducible exact programEffect_sound _ _ _ _ h
    | with_reducible exact acceptEffect_sound _ _ h | with_reducible exact State.setOct_sound _ _ _ h | with_reducible exact State.arm_sound _ _ h
    | with_reducible exact State.marchRequest_sound _ _ h | with_reducible exact State.peonyCommand_sound _ _ _ h | with_reducible exact State.modTable_sound _ _ _ h
    | with_reducible exact State.validate_sound _ _ _ h | with_reducible exact State.scheduleEffect_sound _ _ h | with_reducible exact State.enterFallback_sound _ _ h
    | with_reducible exact keyEffect_sound _ _ _ h | with_reducible exact attestEffect_sound _ _ _ h | with_reducible exact saEffect_sound _ _ _ _ h
    | with_reducible exact gateEffect_sound _ _ h | with_reducible exact activateEffect_sound _ _ h | with_reducible exact discardEffect_sound _ h
    | with_reducible exact State.stageEnd_sound _ _ h | with_reducible exact srvEffect_sound _ h | exact h)

theorem State.takeValue_sound {v} (s : State) (w vw r i x) (h : sound v s) : sound v (State.takeValue s w vw r i x).1 := by
  unfold State.takeValue; dsimp only
  split
  · rename_i hk
    split
    · exact hookOf_sound hk h
    · exact h
  · split
    · exact State.install_sound _ _ _ _ h
    · exact h
theorem State.takeValue_sound_eq {v} {s : State} {a1} {a2} {a3} {a4} {a5} {t} {y} (e : State.takeValue s a1 a2 a3 a4 a5 = (t, y)) (h : sound v s) : sound v t := by
  have := State.takeValue_sound (v := v) s a1 a2 a3 a4 a5 h; rwa [e] at this

theorem State.taskDone_sound {v} (s : State) (a1) (h : sound v s) : sound v (State.taskDone s a1) := by
  unfold State.taskDone; try dsimp only
  repeat' (first | with_reducible assumption | with_reducible refine ite_keep (P := sound _) ?_ ?_ | with_reducible refine State.takeOff_sound _ _ ?_ | with_reducible refine State.dispatch_sound _ _ ?_ | with_reducible refine State.modInst_sound _ _ _ _ ?_ | with_reducible refine foldl_keep (P := sound _) (fun _ _ _ => ?_) ?_ | with_reducible refine foldl_fst (P := sound _) (fun _ _ _ => ?_) ?_ | with_reducible refine Pad.restoreWins_wf _ _ _ ?_ | with_reducible refine (Pad.rowDead_mem _ _).symm ▸ ?_ | split)

theorem State.tkWrite_sound {v} (s : State) (a1) (a2) (a3) (a4) (a5) (h : sound v s) : sound v (State.tkWrite s a1 a2 a3 a4 a5).1 := by
  unfold State.tkWrite; try dsimp only
  repeat' (first | with_reducible assumption | with_reducible refine ite_keep (P := sound _) ?_ ?_ | with_reducible refine State.padWrite_sound _ _ _ _ _ _ _ ?_ | with_reducible refine State.padWrite_sound_eq (by assumption) ?_ | with_reducible refine State.ws_sound _ _ _ _ ?_ | with_reducible refine foldl_keep (P := sound _) (fun _ _ _ => ?_) ?_ | with_reducible refine foldl_fst (P := sound _) (fun _ _ _ => ?_) ?_ | with_reducible refine Pad.restoreWins_wf _ _ _ ?_ | with_reducible refine (Pad.rowDead_mem _ _).symm ▸ ?_ | split)
theorem State.tkWrite_sound_eq {v} {s : State} {a1} {a2} {a3} {a4} {a5} {t} {y} (e : State.tkWrite s a1 a2 a3 a4 a5 = (t, y)) (h : sound v s) : sound v t := by
  have := State.tkWrite_sound s a1 a2 a3 a4 a5 h; rwa [e] at this

theorem State.udsClear_sound {v} (s : State) (a1) (a2) (h : sound v s) : sound v (State.udsClear s a1 a2).1 := by
  unfold State.udsClear; try dsimp only
  repeat' (first | with_reducible assumption | with_reducible refine ite_keep (P := sound _) ?_ ?_ | with_reducible refine srvEffect_sound _ ?_ | with_reducible refine foldl_keep (P := sound _) (fun _ _ _ => ?_) ?_ | with_reducible refine foldl_fst (P := sound _) (fun _ _ _ => ?_) ?_ | with_reducible refine Pad.restoreWins_wf _ _ _ ?_ | with_reducible refine (Pad.rowDead_mem _ _).symm ▸ ?_ | split)
theorem State.udsClear_sound_eq {v} {s : State} {a1} {a2} {t} {y} (e : State.udsClear s a1 a2 = (t, y)) (h : sound v s) : sound v t := by
  have := State.udsClear_sound s a1 a2 h; rwa [e] at this

theorem State.udsDefault_sound {v} (s : State) (a1) (h : sound v s) : sound v (State.udsDefault s a1) := by
  unfold State.udsDefault; try dsimp only
  repeat' (first | with_reducible assumption | with_reducible refine ite_keep (P := sound _) ?_ ?_ | with_reducible refine State.syncLife_sound _ ?_ | with_reducible refine State.modDoip_sound _ _ _ ?_)

theorem State.unlockFailed_sound {v} (s : State) (h : sound v s) : sound v (State.unlockFailed s) := by
  unfold State.unlockFailed; try dsimp only
  repeat' (first | with_reducible assumption | with_reducible refine ite_keep (P := sound _) ?_ ?_ | with_reducible refine State.raise_sound _ _ _ _ _ ?_ | with_reducible refine State.store_sound _ _ _ ?_ | with_reducible refine State.modSec_sound _ _ ?_)

theorem State.udsKey_sound {v} (s : State) (a1) (a2) (h : sound v s) : sound v (State.udsKey s a1 a2).1 := by
  unfold State.udsKey; try dsimp only
  repeat' (first | with_reducible assumption | with_reducible refine ite_keep (P := sound _) ?_ ?_ | with_reducible refine State.modDoip_sound _ _ _ ?_ | with_reducible refine State.unlockFailed_sound _ ?_ | with_reducible refine State.unlocked_sound _ ?_ | with_reducible refine foldl_keep (P := sound _) (fun _ _ _ => ?_) ?_ | with_reducible refine foldl_fst (P := sound _) (fun _ _ _ => ?_) ?_ | with_reducible refine Pad.restoreWins_wf _ _ _ ?_ | with_reducible refine (Pad.rowDead_mem _ _).symm ▸ ?_ | split)
theorem State.udsKey_sound_eq {v} {s : State} {a1} {a2} {t} {y} (e : State.udsKey s a1 a2 = (t, y)) (h : sound v s) : sound v t := by
  have := State.udsKey_sound s a1 a2 h; rwa [e] at this

theorem State.udsSend_sound {v} (s : State) (a1) (a2) (a3) (h : sound v s) : sound v (State.udsSend s a1 a2 a3) := by
  unfold State.udsSend; try dsimp only
  repeat' (first | with_reducible assumption | with_reducible refine ite_keep (P := sound _) ?_ ?_ | with_reducible refine State.doipSend_sound _ _ _ _ _ ?_)

theorem State.udsOn_sound {v} (s : State) (c r) (f : State → State × UdsAns) (hf : ∀ s, sound v s → sound v (f s).1) (h : sound v s) :
    sound v (State.udsOn s c r f) := by
  unfold State.udsOn
  have h2 := hf _ (State.modDoip_sound s c (fun x => { x with last := s.frame.now }) h)
  split <;> rename_i hx <;> rw [hx] at h2
  · exact State.udsSend_sound _ _ _ _ h2
  · exact h2
  · exact State.restarted_sound _ _ (State.udsSend_sound _ _ _ _ h2)

theorem State.udsPresent_sound {v} (s : State) (a1) (h : sound v s) : sound v (State.udsPresent s a1).1 := by
  unfold State.udsPresent; try dsimp only
  repeat' (first | with_reducible assumption | with_reducible refine ite_keep (P := sound _) ?_ ?_ | with_reducible refine foldl_keep (P := sound _) (fun _ _ _ => ?_) ?_ | with_reducible refine foldl_fst (P := sound _) (fun _ _ _ => ?_) ?_ | with_reducible refine Pad.restoreWins_wf _ _ _ ?_ | with_reducible refine (Pad.rowDead_mem _ _).symm ▸ ?_ | split)
theorem State.udsPresent_sound_eq {v} {s : State} {a1} {t} {y} (e : State.udsPresent s a1 = (t, y)) (h : sound v s) : sound v t := by
  have := State.udsPresent_sound s a1 h; rwa [e] at this

theorem State.udsReset_sound {v} (s : State) (a1) (a2) (h : sound v s) : sound v (State.udsReset s a1 a2).1 := by
  unfold State.udsReset; try dsimp only
  repeat' (first | with_reducible assumption | with_reducible refine ite_keep (P := sound _) ?_ ?_ | with_reducible refine foldl_keep (P := sound _) (fun _ _ _ => ?_) ?_ | with_reducible refine foldl_fst (P := sound _) (fun _ _ _ => ?_) ?_ | with_reducible refine Pad.restoreWins_wf _ _ _ ?_ | with_reducible refine (Pad.rowDead_mem _ _).symm ▸ ?_ | split)
theorem State.udsReset_sound_eq {v} {s : State} {a1} {a2} {t} {y} (e : State.udsReset s a1 a2 = (t, y)) (h : sound v s) : sound v t := by
  have := State.udsReset_sound s a1 a2 h; rwa [e] at this

theorem State.udsRoutine_sound {v} (s : State) (a1) (a2) (h : sound v s) : sound v (State.udsRoutine s a1 a2).1 := by
  unfold State.udsRoutine; try dsimp only
  repeat' (first | with_reducible assumption | with_reducible refine ite_keep (P := sound _) ?_ ?_ | with_reducible refine State.marchRequest_sound _ _ ?_ | with_reducible refine foldl_keep (P := sound _) (fun _ _ _ => ?_) ?_ | with_reducible refine foldl_fst (P := sound _) (fun _ _ _ => ?_) ?_ | with_reducible refine Pad.restoreWins_wf _ _ _ ?_ | with_reducible refine (Pad.rowDead_mem _ _).symm ▸ ?_ | split)
theorem State.udsRoutine_sound_eq {v} {s : State} {a1} {a2} {t} {y} (e : State.udsRoutine s a1 a2 = (t, y)) (h : sound v s) : sound v t := by
  have := State.udsRoutine_sound s a1 a2 h; rwa [e] at this

theorem State.udsRow_sound {v} (s : State) (r n) (f : State → Fin 2 → State × UdsAns) (hf : ∀ s c, sound v s → sound v (f s c).1) (h : sound v s) :
    sound v (State.udsRow s r n f) := by
  have h1 := State.quiet_sound _ (State.at_sound s r.t h)
  unfold State.udsRow; dsimp only
  split
  · exact h1
  · split
    · exact h1
    · exact State.udsOn_sound _ _ _ _ (fun s => hf s _) h1

theorem State.udsSeed_sound {v} (s : State) (a1) (a2) (h : sound v s) : sound v (State.udsSeed s a1 a2).1 := by
  unfold State.udsSeed; try dsimp only
  repeat' (first | with_reducible assumption | with_reducible refine ite_keep (P := sound _) ?_ ?_ | with_reducible refine State.modDoip_sound _ _ _ ?_ | with_reducible refine State.drawn_sound _ ?_ | with_reducible refine foldl_keep (P := sound _) (fun _ _ _ => ?_) ?_ | with_reducible refine foldl_fst (P := sound _) (fun _ _ _ => ?_) ?_ | with_reducible refine Pad.restoreWins_wf _ _ _ ?_ | with_reducible refine (Pad.rowDead_mem _ _).symm ▸ ?_ | split)
theorem State.udsSeed_sound_eq {v} {s : State} {a1} {a2} {t} {y} (e : State.udsSeed s a1 a2 = (t, y)) (h : sound v s) : sound v t := by
  have := State.udsSeed_sound s a1 a2 h; rwa [e] at this

theorem State.udsSession_sound {v} (s : State) (a1) (a2) (h : sound v s) : sound v (State.udsSession s a1 a2).1 := by
  unfold State.udsSession; try dsimp only
  repeat' (first | with_reducible assumption | with_reducible refine ite_keep (P := sound _) ?_ ?_ | with_reducible refine State.udsDefault_sound _ _ ?_ | with_reducible refine State.modDoip_sound _ _ _ ?_ | with_reducible refine foldl_keep (P := sound _) (fun _ _ _ => ?_) ?_ | with_reducible refine foldl_fst (P := sound _) (fun _ _ _ => ?_) ?_ | with_reducible refine Pad.restoreWins_wf _ _ _ ?_ | with_reducible refine (Pad.rowDead_mem _ _).symm ▸ ?_ | split)
theorem State.udsSession_sound_eq {v} {s : State} {a1} {a2} {t} {y} (e : State.udsSession s a1 a2 = (t, y)) (h : sound v s) : sound v t := by
  have := State.udsSession_sound s a1 a2 h; rwa [e] at this

theorem udsGive_sound {v} (s : State) (a1) (a2) (h : sound v s) : sound v (udsGive s a1 a2).1 := by
  unfold udsGive; try dsimp only
  repeat' (first | with_reducible assumption | with_reducible refine ite_keep (P := sound _) ?_ ?_ | with_reducible refine foldl_keep (P := sound _) (fun _ _ _ => ?_) ?_ | with_reducible refine foldl_fst (P := sound _) (fun _ _ _ => ?_) ?_ | with_reducible refine Pad.restoreWins_wf _ _ _ ?_ | with_reducible refine (Pad.rowDead_mem _ _).symm ▸ ?_ | split)
theorem udsGive_sound_eq {v} {s : State} {a1} {a2} {t} {y} (e : udsGive s a1 a2 = (t, y)) (h : sound v s) : sound v t := by
  have := udsGive_sound s a1 a2 h; rwa [e] at this

theorem State.udsServe_sound {v} (s : State) (a1) (a2) (h : sound v s) : sound v (State.udsServe s a1 a2).1 := by
  unfold State.udsServe; try dsimp only
  repeat' (first | with_reducible assumption | with_reducible refine ite_keep (P := sound _) ?_ ?_ | with_reducible refine State.udsSession_sound _ _ _ ?_ | with_reducible refine State.udsSession_sound_eq (by assumption) ?_ | with_reducible refine State.udsReset_sound _ _ _ ?_ | with_reducible refine State.udsReset_sound_eq (by assumption) ?_ | with_reducible refine State.udsClear_sound _ _ _ ?_ | with_reducible refine State.udsClear_sound_eq (by assumption) ?_ | with_reducible refine udsGive_sound _ _ _ ?_ | with_reducible refine udsGive_sound_eq (by assumption) ?_ | with_reducible refine State.udsSeed_sound _ _ _ ?_ | with_reducible refine State.udsSeed_sound_eq (by assumption) ?_ | with_reducible refine State.udsKey_sound _ _ _ ?_ | with_reducible refine State.udsKey_sound_eq (by assumption) ?_ | with_reducible refine State.udsRoutine_sound _ _ _ ?_ | with_reducible refine State.udsRoutine_sound_eq (by assumption) ?_ | with_reducible refine State.udsPresent_sound _ _ ?_ | with_reducible refine State.udsPresent_sound_eq (by assumption) ?_ | with_reducible refine foldl_keep (P := sound _) (fun _ _ _ => ?_) ?_ | with_reducible refine foldl_fst (P := sound _) (fun _ _ _ => ?_) ?_ | with_reducible refine Pad.restoreWins_wf _ _ _ ?_ | with_reducible refine (Pad.rowDead_mem _ _).symm ▸ ?_ | split)
theorem State.udsServe_sound_eq {v} {s : State} {a1} {a2} {t} {y} (e : State.udsServe s a1 a2 = (t, y)) (h : sound v s) : sound v t := by
  have := State.udsServe_sound s a1 a2 h; rwa [e] at this

theorem State.unreadable_sound {v} (s : State) (a1) (a2) (h : sound v s) : sound v (State.unreadable s a1 a2) := by
  unfold State.unreadable; try dsimp only
  repeat' (first | with_reducible assumption | with_reducible refine ite_keep (P := sound _) ?_ ?_ | with_reducible refine State.modTable_sound _ _ _ ?_ | with_reducible refine State.countRaise_sound _ _ _ _ _ ?_)

theorem State.validRefused_sound {v} (s : State) (a1) (h : sound v s) : sound v (State.validRefused s a1) := by
  unfold State.validRefused; try dsimp only
  repeat' (first | with_reducible assumption | with_reducible refine ite_keep (P := sound _) ?_ ?_ | with_reducible refine State.raise_sound _ _ _ _ _ ?_)

theorem State.waitFor_sound {v} (s : State) (a1) (a2) (h : sound v s) : sound v (State.waitFor s a1 a2) := by
  unfold State.waitFor; try dsimp only
  repeat' (first | with_reducible assumption | with_reducible refine ite_keep (P := sound _) ?_ ?_ | with_reducible refine State.modSeq_sound _ _ _ ?_)

theorem State.wakePins_sound {v} (s : State) (h : sound v s) : sound v (State.wakePins s) := by
  unfold State.wakePins; try dsimp only
  repeat' (first | with_reducible assumption | with_reducible refine ite_keep (P := sound _) ?_ ?_ | with_reducible refine State.modPower_sound _ _ ?_)

theorem State.wipeOver_sound {v} (s : State) (h : sound v s) : sound v (State.wipeOver s) := by
  unfold State.wipeOver; try dsimp only
  repeat' (first | with_reducible assumption | with_reducible refine ite_keep (P := sound _) ?_ ?_ | with_reducible refine State.coresOver_sound _ ?_ | with_reducible refine State.modSec_sound _ _ ?_ | with_reducible refine State.raise_sound _ _ _ _ _ ?_)

theorem State.wipeDone_sound {v} (s : State) (h : sound v s) : sound v (State.wipeDone s) := by
  unfold State.wipeDone; try dsimp only
  repeat' (first | with_reducible assumption | with_reducible refine ite_keep (P := sound _) ?_ ?_ | with_reducible refine State.syncLife_sound _ ?_ | with_reducible refine State.openDebug_sound _ ?_ | with_reducible refine State.lifeAfter_sound _ _ ?_ | with_reducible refine State.baseAfter_sound _ _ ?_ | with_reducible refine State.wipeOver_sound _ ?_)

theorem State.withdrawFrom_sound {v} (s : State) (a1) (a2) (a3) (h : sound v s) : sound v (State.withdrawFrom s a1 a2 a3) := by
  unfold State.withdrawFrom; try dsimp only
  repeat' (first | with_reducible assumption | with_reducible refine ite_keep (P := sound _) ?_ ?_ | with_reducible refine State.modCells_sound _ _ _ ?_ | with_reducible refine foldl_keep (P := sound _) (fun _ _ _ => ?_) ?_ | with_reducible refine foldl_fst (P := sound _) (fun _ _ _ => ?_) ?_ | with_reducible refine Pad.restoreWins_wf _ _ _ ?_ | with_reducible refine (Pad.rowDead_mem _ _).symm ▸ ?_ | split | dsimp only | fail_if_no_progress (rw [sound_mk]; refine sound_of rfl rfl rfl rfl rfl ?_))

theorem State.writeOne_sound {v} (s : State) (a1) (a2) (a3) (h : sound v s) : sound v (State.writeOne s a1 a2 a3).1 := by
  unfold State.writeOne; try dsimp only
  repeat' (first | with_reducible assumption | with_reducible refine ite_keep (P := sound _) ?_ ?_ | with_reducible refine State.takeValue_sound _ _ _ _ _ _ ?_ | with_reducible refine State.takeValue_sound_eq (by assumption) ?_ | with_reducible refine foldl_keep (P := sound _) (fun _ _ _ => ?_) ?_ | with_reducible refine foldl_fst (P := sound _) (fun _ _ _ => ?_) ?_ | with_reducible refine Pad.restoreWins_wf _ _ _ ?_ | with_reducible refine (Pad.rowDead_mem _ _).symm ▸ ?_ | split)
theorem State.writeOne_sound_eq {v} {s : State} {a1} {a2} {a3} {t} {y} (e : State.writeOne s a1 a2 a3 = (t, y)) (h : sound v s) : sound v t := by
  have := State.writeOne_sound s a1 a2 a3 h; rwa [e] at this

theorem State.writeAll_sound {v} (w vw) (i : Nat) (s : State) (l) (h : sound v s) : sound v (State.writeAll w vw i s l).1 := by
  induction l generalizing s i with
  | nil => exact h
  | cons x l ih =>
    unfold State.writeAll
    have h1 := State.writeOne_sound s w vw x h
    split <;> rename_i hx <;> rw [hx] at h1
    · exact ih _ _ h1
    · exact h
end Sys2Proof.Machine
end

