-- ==== Sys2Proof/Laws/Sound08.lean ====
section
/-! SUPPORT. What operations and meanings keep, part 9 of 12: the queue of waiting commands, every parser engine as R55 and R59 have it, and the
canonical form of every byte memory (`sound`). Callees come before their callers, so a lemma cites those of the operations it unfolds to. -/

namespace Sys2Proof.Machine

theorem State.writeAll_sound_eq {v} {a0} {a1} {a2} {s : State} {a4} {t} {y} (e : State.writeAll a0 a1 a2 s a4 = (t, y)) (h : sound v s) : sound v t := by
  have := State.writeAll_sound (v := v) a0 a1 a2 s a4 h; rwa [e] at this

theorem State.writeRefused_sound {v} (s : State) (a1) (a2) (h : sound v s) : sound v (State.writeRefused s a1 a2) := by
  unfold State.writeRefused; try dsimp only
  repeat' (first | with_reducible assumption | with_reducible refine ite_keep (P := sound _) ?_ ?_ | with_reducible refine State.refusal_sound _ _ _ _ _ ?_ | with_reducible refine foldl_keep (P := sound _) (fun _ _ _ => ?_) ?_ | with_reducible refine foldl_fst (P := sound _) (fun _ _ _ => ?_) ?_ | with_reducible refine Pad.restoreWins_wf _ _ _ ?_ | with_reducible refine (Pad.rowDead_mem _ _).symm ▸ ?_ | split)

theorem State.write_sound {v} (s : State) (w l) (h : sound v s) : sound v (State.write s w l).1 := by
  unfold State.write
  have h1 := State.writeAll_sound w (viewOf l) 0 s l h
  split <;> rename_i hx
  · rw [hx] at h1; exact h1
  · rename_i pos st _
    show sound v (((l[pos]?).map (fun e => s.writeRefused e st)).getD s)
    cases l[pos]? with
    | none => exact h
    | some e => exact State.writeRefused_sound _ _ _ h
theorem State.write_sound_eq {v} {s : State} {a1} {a2} {t} {y} (e : State.write s a1 a2 = (t, y)) (h : sound v s) : sound v t := by
  have := State.write_sound (v := v) s a1 a2 h; rwa [e] at this

theorem State.writeBlob_sound {v} (s : State) (a1) (a2) (a3) (a4) (h : sound v s) : sound v (State.writeBlob s a1 a2 a3 a4).1 := by
  unfold State.writeBlob; try dsimp only
  repeat' (first | with_reducible assumption | with_reducible refine ite_keep (P := sound _) ?_ ?_ | with_reducible refine State.takeValue_sound _ _ _ _ _ _ ?_ | with_reducible refine State.takeValue_sound_eq (by assumption) ?_ | with_reducible refine State.refusal_sound _ _ _ _ _ ?_ | with_reducible refine foldl_keep (P := sound _) (fun _ _ _ => ?_) ?_ | with_reducible refine foldl_fst (P := sound _) (fun _ _ _ => ?_) ?_ | with_reducible refine Pad.restoreWins_wf _ _ _ ?_ | with_reducible refine (Pad.rowDead_mem _ _).symm ▸ ?_ | split)
theorem State.writeBlob_sound_eq {v} {s : State} {a1} {a2} {a3} {a4} {t} {y} (e : State.writeBlob s a1 a2 a3 a4 = (t, y)) (h : sound v s) : sound v t := by
  have := State.writeBlob_sound s a1 a2 a3 a4 h; rwa [e] at this

theorem execFrameBoundary_sound {v} (a0) (s : State) {t} (e : execFrameBoundary a0 s = .next t) (h : sound v s) : sound v t := by
  unfold execFrameBoundary at e; injection e with e; subst e; try dsimp only
  repeat' (first | with_reducible assumption | with_reducible refine ite_keep (P := sound _) ?_ ?_ | with_reducible refine State.quiet_sound _ ?_ | with_reducible refine State.at_sound _ _ ?_ | with_reducible refine State.boundary_sound _ ?_ | with_reducible refine State.frameTimes_sound _ ?_ | with_reducible refine State.runEnter_sound _ _ ?_)

theorem execFrameDeadline_sound {v} (a0) (s : State) {t} (e : execFrameDeadline a0 s = .next t) (h : sound v s) : sound v t := by
  unfold execFrameDeadline at e; injection e with e; subst e; try dsimp only
  repeat' (first | with_reducible assumption | with_reducible refine ite_keep (P := sound _) ?_ ?_ | with_reducible refine State.at_sound _ _ ?_ | with_reducible refine State.deadline_sound _ ?_)

theorem execResultGateClose_sound {v} (a0) (s : State) {t} (e : execResultGateClose a0 s = .next t) (h : sound v s) : sound v t := by
  unfold execResultGateClose at e; injection e with e; subst e; try dsimp only
  repeat' (first | with_reducible assumption | with_reducible refine ite_keep (P := sound _) ?_ ?_ | with_reducible refine State.at_sound _ _ ?_ | with_reducible refine State.modHost_sound _ _ _ ?_ | with_reducible refine State.accrue_sound _ _ _ ?_ | with_reducible refine foldl_keep (P := sound _) (fun _ _ _ => ?_) ?_)

theorem execRecordLaunch_sound {v} (a0) (s : State) {t} (e : execRecordLaunch a0 s = .next t) (h : sound v s) : sound v t := by
  unfold execRecordLaunch at e; injection e with e; subst e; try dsimp only
  repeat' (first | with_reducible assumption | with_reducible refine ite_keep (P := sound _) ?_ ?_ | with_reducible refine State.quiet_sound _ ?_ | with_reducible refine State.at_sound _ _ ?_ | with_reducible refine State.launchRecord_sound _ ?_)

theorem execResultGateReopen_sound {v} (a0) (a1) (s : State) {t} (e : execResultGateReopen a0 a1 s = .next t) (h : sound v s) : sound v t := by
  unfold execResultGateReopen at e; injection e with e; subst e; try dsimp only
  repeat' (first | with_reducible assumption | with_reducible refine ite_keep (P := sound _) ?_ ?_ | with_reducible refine State.quiet_sound _ ?_ | with_reducible refine State.modHost_sound _ _ _ ?_ | with_reducible refine State.accrue_sound _ _ _ ?_ | with_reducible refine State.at_sound _ _ ?_ | with_reducible refine State.hostFlow_sound _ _ ?_ | with_reducible refine State.hostLook_sound _ _ _ ?_)

theorem execResultBodyPoll_sound {v} (a0) (a1) (s : State) {t} (e : execResultBodyPoll a0 a1 s = .next t) (h : sound v s) : sound v t := by
  unfold execResultBodyPoll at e; injection e with e; subst e; try dsimp only
  repeat' (first | with_reducible assumption | with_reducible refine ite_keep (P := sound _) ?_ ?_ | with_reducible refine State.at_sound _ _ ?_ | with_reducible refine State.padRead_sound _ _ _ _ _ _ _ _ ?_ | with_reducible refine State.padRead_sound_eq (by assumption) ?_ | with_reducible refine State.omitBody_sound _ _ ?_ | with_reducible refine State.modNet_sound _ _ ?_ | with_reducible refine foldl_keep (P := sound _) (fun _ _ _ => ?_) ?_ | with_reducible refine foldl_fst (P := sound _) (fun _ _ _ => ?_) ?_ | with_reducible refine Pad.restoreWins_wf _ _ _ ?_ | with_reducible refine (Pad.rowDead_mem _ _).symm ▸ ?_ | split)

theorem execRecordStore_sound {v} (a0) (s : State) {t} (e : execRecordStore a0 s = .next t) (h : sound v s) : sound v t := by
  unfold execRecordStore at e; injection e with e; subst e; try dsimp only
  repeat' (first | with_reducible assumption | with_reducible refine ite_keep (P := sound _) ?_ ?_ | with_reducible refine State.storeRecord_sound _ ?_ | with_reducible refine State.quiet_sound _ ?_ | with_reducible refine State.at_sound _ _ ?_ | with_reducible refine State.answerWait_sound _ _ ?_ | with_reducible refine foldl_keep (P := sound _) (fun _ _ _ => ?_) ?_)

theorem execSensFrameReceive_sound {v} (a0) (a1) (a2) (s : State) {t} (e : execSensFrameReceive a0 a1 a2 s = .next t) (h : sound v s) : sound v t := by
  unfold execSensFrameReceive at e; injection e with e; subst e; try dsimp only
  repeat' (first | with_reducible assumption | with_reducible refine ite_keep (P := sound _) ?_ ?_ | with_reducible refine State.at_sound _ _ ?_ | with_reducible refine State.bump_sound _ _ _ ?_ | with_reducible refine State.rxDrop_sound _ _ ?_ | with_reducible refine State.mirror_sound _ _ _ ?_ | with_reducible refine State.sensPush_sound _ _ _ ?_ | with_reducible refine State.qci_sound _ _ _ _ ?_ | with_reducible refine State.qci_sound_eq (by assumption) ?_ | with_reducible refine State.modHead_sound _ _ _ ?_ | with_reducible refine foldl_keep (P := sound _) (fun _ _ _ => ?_) ?_ | with_reducible refine foldl_fst (P := sound _) (fun _ _ _ => ?_) ?_ | with_reducible refine Pad.restoreWins_wf _ _ _ ?_ | with_reducible refine (Pad.rowDead_mem _ _).symm ▸ ?_ | split)

theorem execPacketParseStart_sound {v} (p e c) (s : State) {t} (q : execPacketParseStart p e c s = .next t) (h : sound v s) : sound v t := by
  unfold execPacketParseStart at q; injection q with q; subst q
  refine State.clocked_sound _ _ (fun s h => ?_) h
  split
  · exact h
  · split
    · rename_i hq; exact State.nextPacket_sound_eq hq h
    · rename_i hq
      have h1 := State.nextPacket_sound_eq hq h
      split
      · exact h1
      · dsimp only
        split
        · exact State.raiseIng_sound _ _ _ _ _ (State.bump_sound _ _ _ h1)
        · rename_i hw
          rw [sound_mk]
          refine sound_of rfl rfl rfl rfl rfl (State.modEngine_soundAt ?_ (State.bump_sound _ _ _ h1))
          simp only [Engine.wf, Bool.and_eq_true, Bool.or_eq_true, decide_eq_true_eq]
          refine ⟨rfl, Or.inr ⟨?_, Nat.zero_le _⟩⟩
          simpa [List.isEmpty_iff, List.length_pos_iff] using hw

theorem Engine.setReg_ok (x : Engine) (r : Fin 16) (w : BitVec 32) (h : x.wf = true) :
    (x.setReg r w).regs[(0 : Fin 16)] = 0 ∧ (x.setReg r w).words = x.words ∧ (x.setReg r w).pc = x.pc := by
  have h0 : x.regs[(0 : Fin 16)] = 0 := by simp only [Engine.wf, Bool.and_eq_true, beq_iff_eq] at h; exact h.1
  unfold Engine.setReg
  split
  · exact ⟨h0, rfl, rfl⟩
  · rename_i hr
    refine ⟨?_, rfl, rfl⟩
    have : (r : Nat) ≠ 0 := fun e => hr (Fin.ext e)
    simpa [Vector.getElem_set, this] using h0

theorem Engine.setReg_wf (x : Engine) (r : Fin 16) (w : BitVec 32) (h : x.wf = true) : (x.setReg r w).wf = true := by
  obtain ⟨g1, g2, g3⟩ := Engine.setReg_ok x r w h
  have gb : (x.setReg r w).busy = x.busy ∧ (x.setReg r w).count = x.count := by unfold Engine.setReg; split <;> exact ⟨rfl, rfl⟩
  simp only [Engine.wf, Bool.and_eq_true, Bool.or_eq_true, beq_iff_eq, decide_eq_true_eq] at h ⊢
  rw [gb.1, gb.2, g2, g3]; exact ⟨g1, h.2⟩

theorem Engine.same_ok (x : Engine) (h : x.wf = true) : x.regs[(0 : Fin 16)] = 0 ∧ x.words = x.words ∧ x.pc = x.pc := by
  simp only [Engine.wf, Bool.and_eq_true, beq_iff_eq] at h; exact ⟨h.1, rfl, rfl⟩

theorem execPrsNop_sound {v} (e w) (s : State) {t} (q : execPrsNop e w s = .next t) (h : sound v s) : sound v t := by
  unfold execPrsNop at q; injection q with q; subst q
  exact State.parseReg_sound _ _ _ _ _ (fun x y hx hy => by injection hy with hy; subst hy; exact Engine.same_ok _ hx) h

theorem execPrsExt_sound {v} (e w) (s : State) {t} (q : execPrsExt e w s = .next t) (h : sound v s) : sound v t := by
  unfold execPrsExt at q; injection q with q; subst q
  refine State.parseReg_sound _ _ _ _ _ (fun x y hx hy => ?_) h
  obtain ⟨n, -, rfl⟩ := Option.map_eq_some_iff.1 hy
  exact Engine.setReg_ok _ _ _ hx

theorem execPrsScl_sound {v} (e w) (s : State) {t} (q : execPrsScl e w s = .next t) (h : sound v s) : sound v t := by
  unfold execPrsScl at q; injection q with q; subst q
  exact State.parseReg_sound _ _ _ _ _ (fun x y hx hy => by injection hy with hy; subst hy; exact Engine.setReg_ok _ _ _ hx) h

theorem execPrsAdd_sound {v} (e w) (s : State) {t} (q : execPrsAdd e w s = .next t) (h : sound v s) : sound v t := by
  unfold execPrsAdd at q; injection q with q; subst q
  exact State.parseReg_sound _ _ _ _ _ (fun x y hx hy => by injection hy with hy; subst hy; exact Engine.setReg_ok _ _ _ hx) h

theorem execPrsAddi_sound {v} (e w) (s : State) {t} (q : execPrsAddi e w s = .next t) (h : sound v s) : sound v t := by
  unfold execPrsAddi at q; injection q with q; subst q
  exact State.parseReg_sound _ _ _ _ _ (fun x y hx hy => by injection hy with hy; subst hy; exact Engine.setReg_ok _ _ _ hx) h

theorem execPrsAnd_sound {v} (e w) (s : State) {t} (q : execPrsAnd e w s = .next t) (h : sound v s) : sound v t := by
  unfold execPrsAnd at q; injection q with q; subst q
  exact State.parseReg_sound _ _ _ _ _ (fun x y hx hy => by injection hy with hy; subst hy; exact Engine.setReg_ok _ _ _ hx) h

theorem execPrsLut_sound {v} (e w) (s : State) {t} (q : execPrsLut e w s = .next t) (h : sound v s) : sound v t := by
  unfold execPrsLut at q; injection q with q; subst q
  refine State.parse_sound _ _ _ _ _ (fun s2 pc hb h1 hx => ?_) h
  dsimp only at hx
  injection hx with hx; injection hx with hx _; subst hx
  have h2 := fun c => State.modEngine_sound (e := e) (f := rowLut c w) (fun x hx => Engine.setReg_wf _ _ _ hx) h1
  split
  · exact State.rejectPoint_sound _ _ _ (h2 _)
  · exact h2 _

theorem execPrsCvt_sound {v} (e w) (s : State) {t} (q : execPrsCvt e w s = .next t) (h : sound v s) : sound v t := by
  unfold execPrsCvt at q; injection q with q; subst q
  refine State.parse_sound _ _ _ _ _ (fun s2 pc hb h1 hx => ?_) h
  injection hx with hx; injection hx with hx _; subst hx
  exact State.modEngine_sound (fun x hx => hx) (State.stage_sound _ _ _ h1)

theorem execPrsCvc_sound {v} (e w) (s : State) {t} (q : execPrsCvc e w s = .next t) (h : sound v s) : sound v t := by
  unfold execPrsCvc at q; injection q with q; subst q
  refine State.parse_sound _ _ _ _ _ (fun s2 pc hb h1 hx => ?_) h
  injection hx with hx; injection hx with hx _; subst hx; exact State.stage_sound _ _ _ h1

theorem execPrsSet_sound {v} (e w) (s : State) {t} (q : execPrsSet e w s = .next t) (h : sound v s) : sound v t := by
  unfold execPrsSet at q; injection q with q; subst q
  exact State.parseReg_sound _ _ _ _ _ (fun x y hx hy => by injection hy with hy; subst hy; exact Engine.same_ok _ hx) h

theorem execPrsTsp_sound {v} (e w) (s : State) {t} (q : execPrsTsp e w s = .next t) (h : sound v s) : sound v t := by
  unfold execPrsTsp at q; injection q with q; subst q
  refine State.parse_sound _ _ _ _ _ (fun s2 pc hb h1 hx => ?_) h
  obtain ⟨y, -, hx⟩ := Option.map_eq_some_iff.1 hx
  injection hx with hx _; subst hx
  exact State.modEngine_sound (fun x hx => hx) (State.modHead_sound _ _ _ h1)

theorem execPrsRng_sound {v} (e w) (s : State) {t} (q : execPrsRng e w s = .next t) (h : sound v s) : sound v t := by
  unfold execPrsRng at q; injection q with q; subst q
  refine State.parse_sound _ _ _ _ _ (fun s2 pc hb h1 hx => ?_) h
  dsimp only at hx
  injection hx with hx; injection hx with hx _; subst hx; exact State.modHead_sound _ _ _ h1

theorem execPrsPls_sound {v} (e w) (s : State) {t} (q : execPrsPls e w s = .next t) (h : sound v s) : sound v t := by
  unfold execPrsPls at q; injection q with q; subst q
  refine State.parse_sound _ _ _ _ _ (fun s2 pc hb h1 hx => ?_) h
  injection hx with hx; injection hx with hx _; subst hx; exact State.bump_sound _ _ _ h1

theorem execPrsRej_sound {v} (e w) (s : State) {t} (q : execPrsRej e w s = .next t) (h : sound v s) : sound v t := by
  unfold execPrsRej at q; injection q with q; subst q
  refine State.parse_sound _ _ _ _ _ (fun s2 pc hb h1 hx => ?_) h
  injection hx with hx; injection hx with hx _; subst hx
  split
  · exact State.rejectPoint_sound _ _ _ h1
  · exact h1

theorem execPrsEmit_sound {v} (e w) (s : State) {t} (q : execPrsEmit e w s = .next t) (h : sound v s) : sound v t := by
  unfold execPrsEmit at q; injection q with q; subst q
  split
  · exact h
  refine State.parse_sound _ _ _ _ _ (fun s2 pc hb h1 hx => ?_) h
  split at hx
  · cases hx
  · dsimp only at hx
    injection hx with hx; injection hx with hx _; subst hx
    have h2 : sound v ((s.modEngine e (fun x => { x with count := x.count + 1 })).modEngine e (fun y => { y with staged := {}, sweepMark := false })) :=
      State.modEngine_sound (fun x hx => hx) h1
    have h3 : sound v (if (s.engine e).sweepMark = true then State.markSweep ((s.modEngine e (fun x => { x with count := x.count + 1 })).modEngine e
        (fun y => { y with staged := {}, sweepMark := false })) (s.engine e).port (s.engine e).time
        else (s.modEngine e (fun x => { x with count := x.count + 1 })).modEngine e (fun y => { y with staged := {}, sweepMark := false })) := by
      split
      · exact State.markSweep_sound _ _ _ h2
      · exact h2
    split
    · exact h3
    · exact State.emit_sound _ _ _ h3

theorem execPrsAdv_sound {v} (e w) (s : State) {t} (q : execPrsAdv e w s = .next t) (h : sound v s) : sound v t := by
  unfold execPrsAdv at q; injection q with q; subst q
  exact State.parseReg_sound _ _ _ _ _ (fun x y hx hy => by injection hy with hy; subst hy; exact Engine.same_ok _ hx) h

theorem execPrsBr_sound {v} (e w) (s : State) {t} (q : execPrsBr e w s = .next t) (h : sound v s) : sound v t := by
  unfold execPrsBr at q; injection q with q; subst q
  refine State.parse_sound _ _ _ _ _ (fun s2 pc hb h1 hx => ?_) h
  injection hx with hx; injection hx with hx _; subst hx; exact h1

theorem execPrsLoop_sound {v} (e w) (s : State) {t} (q : execPrsLoop e w s = .next t) (h : sound v s) : sound v t := by
  unfold execPrsLoop at q; injection q with q; subst q
  refine State.parse_sound _ _ _ _ _ (fun s2 pc hb h1 hx => ?_) h
  injection hx with hx; injection hx with hx _; subst hx
  exact State.modEngine_sound (fun x hx => Engine.setReg_wf _ _ _ hx) h1

theorem execPrsIdn_sound {v} (e w) (s : State) {t} (q : execPrsIdn e w s = .next t) (h : sound v s) : sound v t := by
  unfold execPrsIdn at q; injection q with q; subst q
  refine State.parse_sound _ _ _ _ _ (fun s2 pc hb h1 hx => ?_) h
  obtain ⟨b, -, hx⟩ := Option.map_eq_some_iff.1 hx
  injection hx with hx _; subst hx; exact State.present_sound _ _ _ _ h1

theorem execPrsEnd_sound {v} (e w) (s : State) {t} (q : execPrsEnd e w s = .next t) (h : sound v s) : sound v t := by
  unfold execPrsEnd at q; injection q with q; subst q
  refine State.clocked_sound _ _ (fun s h => ?_) h
  split
  · split
    · exact State.parserFault_sound _ _ h
    · refine State.modEngine_sound (fun x hx => ?_) h
      simp only [Engine.wf, Bool.and_eq_true] at hx ⊢; exact ⟨hx.1, rfl⟩
  · exact h

theorem execPrsSwp_sound {v} (e w) (s : State) {t} (q : execPrsSwp e w s = .next t) (h : sound v s) : sound v t := by
  unfold execPrsSwp at q; injection q with q; subst q
  exact State.parseReg_sound _ _ _ _ _ (fun x y hx hy => by injection hy with hy; subst hy; exact Engine.same_ok _ hx) h

theorem execPointCompensate_sound {v} (s : State) {t} (e : execPointCompensate s = .next t) (h : sound v s) : sound v t := by
  unfold execPointCompensate at e; injection e with e; subst e; try dsimp only
  repeat' (first | with_reducible assumption | with_reducible refine ite_keep (P := sound _) ?_ ?_ | with_reducible refine State.clocked_sound _ _ (fun _ _ => ?_) ?_ | with_reducible refine State.modPts_sound _ _ _ ?_ | with_reducible refine State.judgeAgain_sound _ _ ?_ | with_reducible refine State.modPoint_sound _ _ _ ?_ | with_reducible refine State.poseGap_sound _ _ _ ?_ | with_reducible refine State.modCells_sound _ _ _ ?_ | with_reducible refine State.logPoint_sound _ _ ?_ | with_reducible refine foldl_keep (P := sound _) (fun _ _ _ => ?_) ?_ | with_reducible refine foldl_fst (P := sound _) (fun _ _ _ => ?_) ?_ | with_reducible refine Pad.restoreWins_wf _ _ _ ?_ | with_reducible refine (Pad.rowDead_mem _ _).symm ▸ ?_ | split | dsimp only | fail_if_no_progress (rw [sound_mk]; refine sound_of rfl rfl rfl rfl rfl ?_))

theorem execCellInsert_sound {v} (s : State) {t} (e : execCellInsert s = .next t) (h : sound v s) : sound v t := by
  unfold execCellInsert at e; injection e with e; subst e; try dsimp only
  repeat' (first | with_reducible assumption | with_reducible refine ite_keep (P := sound _) ?_ ?_ | with_reducible refine State.clocked_sound _ _ (fun _ _ => ?_) ?_ | with_reducible refine State.insertPoint_sound _ _ _ _ ?_ | with_reducible refine State.insertPoint_sound_eq (by assumption) ?_ | with_reducible refine State.finishPoint_sound _ _ ?_ | with_reducible refine foldl_keep (P := sound _) (fun _ _ _ => ?_) ?_ | with_reducible refine foldl_fst (P := sound _) (fun _ _ _ => ?_) ?_ | with_reducible refine Pad.restoreWins_wf _ _ _ ?_ | with_reducible refine (Pad.rowDead_mem _ _).symm ▸ ?_ | split | dsimp only | fail_if_no_progress (rw [sound_mk]; refine sound_of rfl rfl rfl rfl rfl ?_))

theorem execHeadLossTimeout_sound {v} (a0) (a1) (s : State) {t} (e : execHeadLossTimeout a0 a1 s = .next t) (h : sound v s) : sound v t := by
  unfold execHeadLossTimeout at e; injection e with e; subst e; try dsimp only
  repeat' (first | with_reducible assumption | with_reducible refine ite_keep (P := sound _) ?_ ?_ | with_reducible refine State.at_sound _ _ ?_ | with_reducible refine State.raise_sound _ _ _ _ _ ?_ | with_reducible refine State.modHead_sound _ _ _ ?_)

theorem execAccept_sound {v} (a0) (a1) (a2) (s : State) {t} (e : execAccept a0 a1 a2 s = .next t) (h : sound v s) : sound v t := by
  unfold execAccept at e; injection e with e; subst e; try dsimp only
  repeat' (first | with_reducible assumption | with_reducible refine ite_keep (P := sound _) ?_ ?_ | with_reducible refine State.command_sound _ _ _ _ _ _ _ (fun _ _ => ?_) ?_ | with_reducible refine acceptEffect_sound _ _ ?_ | with_reducible refine State.at_sound _ _ ?_ | with_reducible refine State.raise_sound _ _ _ _ _ ?_)

theorem execCalEvaluate_sound {v} (a0) (a1) (s : State) {t} (e : execCalEvaluate a0 a1 s = .next t) (h : sound v s) : sound v t := by
  unfold execCalEvaluate at e; injection e with e; subst e; try dsimp only
  repeat' (first | with_reducible assumption | with_reducible refine ite_keep (P := sound _) ?_ ?_ | with_reducible refine State.calOne_sound _ _ _ ?_ | with_reducible refine foldl_keep (P := sound _) (fun _ _ _ => ?_) ?_)

theorem execLifeCounterStore_sound {v} (a0) (s : State) {t} (e : execLifeCounterStore a0 s = .next t) (h : sound v s) : sound v t := by
  unfold execLifeCounterStore at e; injection e with e; subst e; try dsimp only
  repeat' (first | with_reducible assumption | with_reducible refine ite_keep (P := sound _) ?_ ?_ | with_reducible refine State.saveLife_sound _ ?_ | with_reducible refine State.at_sound _ _ ?_)

theorem execPose_sound {v} (a0) (s : State) {t} (e : execPose a0 s = .next t) (h : sound v s) : sound v t := by
  unfold execPose at e; injection e with e; subst e; try dsimp only
  repeat' (first | with_reducible assumption | with_reducible refine ite_keep (P := sound _) ?_ ?_ | with_reducible refine State.quiet_sound _ ?_ | with_reducible refine State.at_sound _ _ ?_ | with_reducible refine State.bump_sound _ _ _ ?_ | with_reducible refine State.modSession_sound _ _ _ ?_ | with_reducible refine State.takePose_sound _ _ ?_ | with_reducible refine foldl_keep (P := sound _) (fun _ _ _ => ?_) ?_)

theorem execRunaheadResolve_sound {v} (s : State) {t} (e : execRunaheadResolve s = .next t) (h : sound v s) : sound v t := by
  unfold execRunaheadResolve at e; injection e with e; subst e; try dsimp only
  repeat' (first | with_reducible assumption | with_reducible refine ite_keep (P := sound _) ?_ ?_ | with_reducible refine State.clocked_sound _ _ (fun _ _ => ?_) ?_ | with_reducible refine State.modPts_sound _ _ _ ?_ | with_reducible refine foldl_keep (P := sound _) (fun _ _ _ => ?_) ?_ | with_reducible refine foldl_fst (P := sound _) (fun _ _ _ => ?_) ?_ | with_reducible refine Pad.restoreWins_wf _ _ _ ?_ | with_reducible refine (Pad.rowDead_mem _ _).symm ▸ ?_ | split | dsimp only | fail_if_no_progress (rw [sound_mk]; refine sound_of rfl rfl rfl rfl rfl ?_))

theorem execRunaheadWithdraw_sound {v} (s : State) {t} (e : execRunaheadWithdraw s = .next t) (h : sound v s) : sound v t := by
  unfold execRunaheadWithdraw at e; injection e with e; subst e; try dsimp only
  repeat' (first | with_reducible assumption | with_reducible refine ite_keep (P := sound _) ?_ ?_ | with_reducible refine State.clocked_sound _ _ (fun _ _ => ?_) ?_ | with_reducible refine State.withdrawFrom_sound _ _ _ _ ?_ | with_reducible refine State.modCells_sound _ _ _ ?_ | with_reducible refine foldl_keep (P := sound _) (fun _ _ _ => ?_) ?_ | with_reducible refine foldl_fst (P := sound _) (fun _ _ _ => ?_) ?_ | with_reducible refine Pad.restoreWins_wf _ _ _ ?_ | with_reducible refine (Pad.rowDead_mem _ _).symm ▸ ?_ | split | dsimp only | fail_if_no_progress (rw [sound_mk]; refine sound_of rfl rfl rfl rfl rfl ?_))

theorem execRunaheadReinsert_sound {v} (s : State) {t} (e : execRunaheadReinsert s = .next t) (h : sound v s) : sound v t := by
  unfold execRunaheadReinsert at e; injection e with e; subst e; try dsimp only
  repeat' (first | with_reducible assumption | with_reducible refine ite_keep (P := sound _) ?_ ?_ | with_reducible refine State.clocked_sound _ _ (fun _ _ => ?_) ?_ | with_reducible refine State.modCells_sound _ _ _ ?_ | with_reducible refine State.insertPoint_sound _ _ _ _ ?_ | with_reducible refine State.insertPoint_sound_eq (by assumption) ?_ | with_reducible refine State.relog_sound _ _ _ ?_ | with_reducible refine State.cellFull_sound _ _ ?_ | with_reducible refine foldl_keep (P := sound _) (fun _ _ _ => ?_) ?_ | with_reducible refine foldl_fst (P := sound _) (fun _ _ _ => ?_) ?_ | with_reducible refine Pad.restoreWins_wf _ _ _ ?_ | with_reducible refine (Pad.rowDead_mem _ _).symm ▸ ?_ | split | dsimp only | fail_if_no_progress (rw [sound_mk]; refine sound_of rfl rfl rfl rfl rfl ?_))

theorem execAgeEntry_sound {v} (s : State) {t} (e : execAgeEntry s = .next t) (h : sound v s) : sound v t := by
  unfold execAgeEntry at e; injection e with e; subst e; try dsimp only
  repeat' (first | with_reducible assumption | with_reducible refine ite_keep (P := sound _) ?_ ?_ | with_reducible refine State.clocked_sound _ _ (fun _ _ => ?_) ?_ | with_reducible refine State.ageOne_sound _ _ _ ?_ | with_reducible refine foldl_keep (P := sound _) (fun _ _ _ => ?_) ?_ | with_reducible refine foldl_fst (P := sound _) (fun _ _ _ => ?_) ?_ | with_reducible refine Pad.restoreWins_wf _ _ _ ?_ | with_reducible refine (Pad.rowDead_mem _ _).symm ▸ ?_ | split | dsimp only | fail_if_no_progress (rw [sound_mk]; refine sound_of rfl rfl rfl rfl rfl ?_))

theorem execSnapRequest_sound {v} (a0) (a1) (s : State) {t} (e : execSnapRequest a0 a1 s = .next t) (h : sound v s) : sound v t := by
  unfold execSnapRequest at e; injection e with e; subst e; try dsimp only
  repeat' (first | with_reducible assumption | with_reducible refine ite_keep (P := sound _) ?_ ?_ | with_reducible refine State.command_sound _ _ _ _ _ _ _ (fun _ _ => ?_) ?_ | with_reducible refine foldl_keep (P := sound _) (fun _ _ _ => ?_) ?_ | with_reducible refine foldl_fst (P := sound _) (fun _ _ _ => ?_) ?_ | with_reducible refine Pad.restoreWins_wf _ _ _ ?_ | with_reducible refine (Pad.rowDead_mem _ _).symm ▸ ?_ | split | dsimp only | fail_if_no_progress (rw [sound_mk]; refine sound_of rfl rfl rfl rfl rfl ?_))

theorem execSnapshotComplete_sound {v} (s : State) {t} (e : execSnapshotComplete s = .next t) (h : sound v s) : sound v t := by
  unfold execSnapshotComplete at e; injection e with e; subst e; try dsimp only
  repeat' (first | with_reducible assumption | with_reducible refine ite_keep (P := sound _) ?_ ?_ | with_reducible refine State.clocked_sound _ _ (fun _ _ => ?_) ?_ | with_reducible refine State.snapPublish_sound _ ?_)

theorem execCellRowExport_sound {v} (a0) (s : State) {t} (e : execCellRowExport a0 s = .next t) (h : sound v s) : sound v t := by
  unfold execCellRowExport at e; injection e with e; subst e; try dsimp only
  repeat' (first | with_reducible assumption | with_reducible refine ite_keep (P := sound _) ?_ ?_ | with_reducible refine State.clocked_sound _ _ (fun _ _ => ?_) ?_ | with_reducible refine State.scan_sound _ ?_ | with_reducible refine State.publishBooks_sound _ ?_ | with_reducible refine State.snapRow_sound _ _ ?_ | with_reducible refine State.modBooks_sound _ _ ?_ | with_reducible refine State.exportRow_sound _ _ _ _ _ _ ?_ | with_reducible refine foldl_keep (P := sound _) (fun _ _ _ => ?_) ?_ | with_reducible refine foldl_fst (P := sound _) (fun _ _ _ => ?_) ?_ | with_reducible refine Pad.restoreWins_wf _ _ _ ?_ | with_reducible refine (Pad.rowDead_mem _ _).symm ▸ ?_ | split)

theorem execKeyRecordExport_sound {v} (a0) (s : State) {t} (e : execKeyRecordExport a0 s = .next t) (h : sound v s) : sound v t := by
  unfold execKeyRecordExport at e; injection e with e; subst e; try dsimp only
  repeat' (first | with_reducible assumption | with_reducible refine ite_keep (P := sound _) ?_ ?_ | with_reducible refine State.clocked_sound _ _ (fun _ _ => ?_) ?_ | with_reducible refine State.scan_sound _ ?_ | with_reducible refine State.publishBooks_sound _ ?_ | with_reducible refine State.modBooks_sound _ _ ?_ | with_reducible refine State.exportRow_sound _ _ _ _ _ _ ?_ | with_reducible refine foldl_keep (P := sound _) (fun _ _ _ => ?_) ?_ | with_reducible refine foldl_fst (P := sound _) (fun _ _ _ => ?_) ?_ | with_reducible refine Pad.restoreWins_wf _ _ _ ?_ | with_reducible refine (Pad.rowDead_mem _ _).symm ▸ ?_ | split)

theorem execRulebookBuild_sound {v} (a0) (a1) (s : State) {t} (e : execRulebookBuild a0 a1 s = .next t) (h : sound v s) : sound v t := by
  unfold execRulebookBuild at e; injection e with e; subst e; try dsimp only
  repeat' (first | with_reducible assumption | with_reducible refine ite_keep (P := sound _) ?_ ?_ | with_reducible refine State.clocked_sound _ _ (fun _ _ => ?_) ?_ | with_reducible refine State.scan_sound _ ?_ | with_reducible refine State.publishBooks_sound _ ?_ | with_reducible refine State.buildBook_sound _ _ _ ?_ | with_reducible refine foldl_keep (P := sound _) (fun _ _ _ => ?_) ?_ | with_reducible refine foldl_fst (P := sound _) (fun _ _ _ => ?_) ?_ | with_reducible refine Pad.restoreWins_wf _ _ _ ?_ | with_reducible refine (Pad.rowDead_mem _ _).symm ▸ ?_ | split)

theorem execSegmentWrite_sound {v} (a0) (a1) (a2) (s : State) {t} (e : execSegmentWrite a0 a1 a2 s = .next t) (h : sound v s) : sound v t := by
  unfold execSegmentWrite at e; injection e with e; subst e; try dsimp only
  repeat' (first | with_reducible assumption | with_reducible refine ite_keep (P := sound _) ?_ ?_ | with_reducible refine State.clocked_sound _ _ (fun _ _ => ?_) ?_ | with_reducible refine State.scan_sound _ ?_ | with_reducible refine State.newItem_sound _ ?_ | with_reducible refine State.feWrite_sound _ _ _ _ _ _ _ _ ?_ | with_reducible refine State.publishBooks_sound _ ?_ | with_reducible refine State.modBooks_sound _ _ ?_ | with_reducible refine foldl_keep (P := sound _) (fun _ _ _ => ?_) ?_ | with_reducible refine foldl_fst (P := sound _) (fun _ _ _ => ?_) ?_ | with_reducible refine Pad.restoreWins_wf _ _ _ ?_ | with_reducible refine (Pad.rowDead_mem _ _).symm ▸ ?_ | split)

theorem execFirstResolutionReport_sound {v} (a0) (s : State) {t} (e : execFirstResolutionReport a0 s = .next t) (h : sound v s) : sound v t := by
  unfold execFirstResolutionReport at e; injection e with e; subst e; try dsimp only
  repeat' (first | with_reducible assumption | with_reducible refine ite_keep (P := sound _) ?_ ?_ | with_reducible refine State.clocked_sound _ _ (fun _ _ => ?_) ?_ | with_reducible refine State.scan_sound _ ?_ | with_reducible refine State.publishBooks_sound _ ?_ | with_reducible refine State.reportDone_sound _ ?_ | with_reducible refine State.modBooks_sound _ _ ?_)

theorem execSpeculativeBuild_sound {v} (a0) (a1) (a2) (s : State) {t} (e : execSpeculativeBuild a0 a1 a2 s = .next t) (h : sound v s) : sound v t := by
  unfold execSpeculativeBuild at e; injection e with e; subst e; try dsimp only
  repeat' (first | with_reducible assumption | with_reducible refine ite_keep (P := sound _) ?_ ?_ | with_reducible refine State.clocked_sound _ _ (fun _ _ => ?_) ?_ | with_reducible refine State.scan_sound _ ?_ | with_reducible refine State.specRun_sound _ _ _ _ _ ?_ | with_reducible refine State.specStop_sound _ ?_ | with_reducible refine State.modBooks_sound _ _ ?_ | with_reducible refine foldl_keep (P := sound _) (fun _ _ _ => ?_) ?_ | with_reducible refine foldl_fst (P := sound _) (fun _ _ _ => ?_) ?_ | with_reducible refine Pad.restoreWins_wf _ _ _ ?_ | with_reducible refine (Pad.rowDead_mem _ _).symm ▸ ?_ | split)

theorem execEpochSquash_sound {v} (a0) (s : State) {t} (e : execEpochSquash a0 s = .next t) (h : sound v s) : sound v t := by
  unfold execEpochSquash at e; injection e with e; subst e; try dsimp only
  repeat' (first | with_reducible assumption | with_reducible refine ite_keep (P := sound _) ?_ ?_ | with_reducible refine State.clocked_sound _ _ (fun _ _ => ?_) ?_ | with_reducible refine State.publishBooks_sound _ ?_ | with_reducible refine State.modBooks_sound _ _ ?_ | with_reducible refine foldl_keep (P := sound _) (fun _ _ _ => ?_) ?_ | with_reducible refine foldl_fst (P := sound _) (fun _ _ _ => ?_) ?_ | with_reducible refine Pad.restoreWins_wf _ _ _ ?_ | with_reducible refine (Pad.rowDead_mem _ _).symm ▸ ?_ | split)

theorem execNop_sound {v} (a0) (a1) (s : State) {t} (e : execNop a0 a1 s = .next t) (h : sound v s) : sound v t := by
  unfold execNop at e; injection e with e; subst e; try dsimp only
  repeat' (first | with_reducible assumption | with_reducible refine ite_keep (P := sound _) ?_ ?_ | with_reducible refine State.issue_sound _ _ _ _ _ _ (fun _ _ _ => ?_) ?_ | with_reducible refine ite_keep (P := effSound _) ?_ ?_ | with_reducible refine effSound_next ?_)

theorem execAdd_sound {v} (a0) (a1) (s : State) {t} (e : execAdd a0 a1 s = .next t) (h : sound v s) : sound v t := by
  unfold execAdd at e; injection e with e; subst e; try dsimp only
  repeat' (first | with_reducible assumption | with_reducible refine ite_keep (P := sound _) ?_ ?_ | with_reducible refine State.alu3_sound _ _ _ _ _ ?_)

theorem execSub_sound {v} (a0) (a1) (s : State) {t} (e : execSub a0 a1 s = .next t) (h : sound v s) : sound v t := by
  unfold execSub at e; injection e with e; subst e; try dsimp only
  repeat' (first | with_reducible assumption | with_reducible refine ite_keep (P := sound _) ?_ ?_ | with_reducible refine State.alu3_sound _ _ _ _ _ ?_)

theorem execAnd_sound {v} (a0) (a1) (s : State) {t} (e : execAnd a0 a1 s = .next t) (h : sound v s) : sound v t := by
  unfold execAnd at e; injection e with e; subst e; try dsimp only
  repeat' (first | with_reducible assumption | with_reducible refine ite_keep (P := sound _) ?_ ?_ | with_reducible refine State.alu3_sound _ _ _ _ _ ?_)

theorem execOr_sound {v} (a0) (a1) (s : State) {t} (e : execOr a0 a1 s = .next t) (h : sound v s) : sound v t := by
  unfold execOr at e; injection e with e; subst e; try dsimp only
  repeat' (first | with_reducible assumption | with_reducible refine ite_keep (P := sound _) ?_ ?_ | with_reducible refine State.alu3_sound _ _ _ _ _ ?_)

theorem execXor_sound {v} (a0) (a1) (s : State) {t} (e : execXor a0 a1 s = .next t) (h : sound v s) : sound v t := by
  unfold execXor at e; injection e with e; subst e; try dsimp only
  repeat' (first | with_reducible assumption | with_reducible refine ite_keep (P := sound _) ?_ ?_ | with_reducible refine State.alu3_sound _ _ _ _ _ ?_)

theorem execShl_sound {v} (a0) (a1) (s : State) {t} (e : execShl a0 a1 s = .next t) (h : sound v s) : sound v t := by
  unfold execShl at e; injection e with e; subst e; try dsimp only
  repeat' (first | with_reducible assumption | with_reducible refine ite_keep (P := sound _) ?_ ?_ | with_reducible refine State.alu3_sound _ _ _ _ _ ?_)

theorem execShr_sound {v} (a0) (a1) (s : State) {t} (e : execShr a0 a1 s = .next t) (h : sound v s) : sound v t := by
  unfold execShr at e; injection e with e; subst e; try dsimp only
  repeat' (first | with_reducible assumption | with_reducible refine ite_keep (P := sound _) ?_ ?_ | with_reducible refine State.alu3_sound _ _ _ _ _ ?_)

theorem execSra_sound {v} (a0) (a1) (s : State) {t} (e : execSra a0 a1 s = .next t) (h : sound v s) : sound v t := by
  unfold execSra at e; injection e with e; subst e; try dsimp only
  repeat' (first | with_reducible assumption | with_reducible refine ite_keep (P := sound _) ?_ ?_ | with_reducible refine State.alu3_sound _ _ _ _ _ ?_)

theorem execMul_sound {v} (a0) (a1) (s : State) {t} (e : execMul a0 a1 s = .next t) (h : sound v s) : sound v t := by
  unfold execMul at e; injection e with e; subst e; try dsimp only
  repeat' (first | with_reducible assumption | with_reducible refine ite_keep (P := sound _) ?_ ?_ | with_reducible refine State.alu3_sound _ _ _ _ _ ?_)

theorem execMin_sound {v} (a0) (a1) (s : State) {t} (e : execMin a0 a1 s = .next t) (h : sound v s) : sound v t := by
  unfold execMin at e; injection e with e; subst e; try dsimp only
  repeat' (first | with_reducible assumption | with_reducible refine ite_keep (P := sound _) ?_ ?_ | with_reducible refine State.alu3_sound _ _ _ _ _ ?_)

theorem execMax_sound {v} (a0) (a1) (s : State) {t} (e : execMax a0 a1 s = .next t) (h : sound v s) : sound v t := by
  unfold execMax at e; injection e with e; subst e; try dsimp only
  repeat' (first | with_reducible assumption | with_reducible refine ite_keep (P := sound _) ?_ ?_ | with_reducible refine State.alu3_sound _ _ _ _ _ ?_)

theorem execAddi_sound {v} (a0) (a1) (s : State) {t} (e : execAddi a0 a1 s = .next t) (h : sound v s) : sound v t := by
  unfold execAddi at e; injection e with e; subst e; try dsimp only
  repeat' (first | with_reducible assumption | with_reducible refine ite_keep (P := sound _) ?_ ?_ | with_reducible refine State.aluImm_sound _ _ _ _ _ ?_)

theorem execAndi_sound {v} (a0) (a1) (s : State) {t} (e : execAndi a0 a1 s = .next t) (h : sound v s) : sound v t := by
  unfold execAndi at e; injection e with e; subst e; try dsimp only
  repeat' (first | with_reducible assumption | with_reducible refine ite_keep (P := sound _) ?_ ?_ | with_reducible refine State.aluImm_sound _ _ _ _ _ ?_)

theorem execOri_sound {v} (a0) (a1) (s : State) {t} (e : execOri a0 a1 s = .next t) (h : sound v s) : sound v t := by
  unfold execOri at e; injection e with e; subst e; try dsimp only
  repeat' (first | with_reducible assumption | with_reducible refine ite_keep (P := sound _) ?_ ?_ | with_reducible refine State.aluImm_sound _ _ _ _ _ ?_)

theorem execShli_sound {v} (a0) (a1) (s : State) {t} (e : execShli a0 a1 s = .next t) (h : sound v s) : sound v t := by
  unfold execShli at e; injection e with e; subst e; try dsimp only
  repeat' (first | with_reducible assumption | with_reducible refine ite_keep (P := sound _) ?_ ?_ | with_reducible refine State.aluShift_sound _ _ _ _ _ ?_)

theorem execShri_sound {v} (a0) (a1) (s : State) {t} (e : execShri a0 a1 s = .next t) (h : sound v s) : sound v t := by
  unfold execShri at e; injection e with e; subst e; try dsimp only
  repeat' (first | with_reducible assumption | with_reducible refine ite_keep (P := sound _) ?_ ?_ | with_reducible refine State.aluShift_sound _ _ _ _ _ ?_)

theorem execSrai_sound {v} (a0) (a1) (s : State) {t} (e : execSrai a0 a1 s = .next t) (h : sound v s) : sound v t := by
  unfold execSrai at e; injection e with e; subst e; try dsimp only
  repeat' (first | with_reducible assumption | with_reducible refine ite_keep (P := sound _) ?_ ?_ | with_reducible refine State.aluShift_sound _ _ _ _ _ ?_)

theorem execLi_sound {v} (a0) (a1) (s : State) {t} (e : execLi a0 a1 s = .next t) (h : sound v s) : sound v t := by
  unfold execLi at e; injection e with e; subst e; try dsimp only
  repeat' (first | with_reducible assumption | with_reducible refine ite_keep (P := sound _) ?_ ?_ | with_reducible refine State.issue_sound _ _ _ _ _ _ (fun _ _ _ => ?_) ?_ | with_reducible refine ite_keep (P := effSound _) ?_ ?_ | with_reducible refine effSound_next ?_ | with_reducible refine effSound_jump ?_ | with_reducible refine effSound_stay ?_ | with_reducible refine effSound_exc ?_ | with_reducible refine State.ws_sound _ _ _ _ ?_)

theorem execLih_sound {v} (a0) (a1) (s : State) {t} (e : execLih a0 a1 s = .next t) (h : sound v s) : sound v t := by
  unfold execLih at e; injection e with e; subst e; try dsimp only
  repeat' (first | with_reducible assumption | with_reducible refine ite_keep (P := sound _) ?_ ?_ | with_reducible refine State.issue_sound _ _ _ _ _ _ (fun _ _ _ => ?_) ?_ | with_reducible refine ite_keep (P := effSound _) ?_ ?_ | with_reducible refine effSound_next ?_ | with_reducible refine effSound_jump ?_ | with_reducible refine effSound_stay ?_ | with_reducible refine effSound_exc ?_ | with_reducible refine State.ws_sound _ _ _ _ ?_)

theorem execCmp_sound {v} (a0) (a1) (s : State) {t} (e : execCmp a0 a1 s = .next t) (h : sound v s) : sound v t := by
  unfold execCmp at e; injection e with e; subst e; try dsimp only
  repeat' (first | with_reducible assumption | with_reducible refine ite_keep (P := sound _) ?_ ?_ | with_reducible refine State.issue_sound _ _ _ _ _ _ (fun _ _ _ => ?_) ?_ | with_reducible refine ite_keep (P := effSound _) ?_ ?_ | with_reducible refine effSound_next ?_ | with_reducible refine effSound_jump ?_ | with_reducible refine effSound_stay ?_ | with_reducible refine effSound_exc ?_ | with_reducible refine State.modSeq_sound _ _ _ ?_)

theorem execCmpi_sound {v} (a0) (a1) (s : State) {t} (e : execCmpi a0 a1 s = .next t) (h : sound v s) : sound v t := by
  unfold execCmpi at e; injection e with e; subst e; try dsimp only
  repeat' (first | with_reducible assumption | with_reducible refine ite_keep (P := sound _) ?_ ?_ | with_reducible refine State.issue_sound _ _ _ _ _ _ (fun _ _ _ => ?_) ?_ | with_reducible refine ite_keep (P := effSound _) ?_ ?_ | with_reducible refine effSound_next ?_ | with_reducible refine effSound_jump ?_ | with_reducible refine effSound_stay ?_ | with_reducible refine effSound_exc ?_ | with_reducible refine State.modSeq_sound _ _ _ ?_)

end Sys2Proof.Machine
end

