-- ==== Sys2Proof/Laws/Sound09.lean ====
section
/-! SUPPORT. What operations and meanings keep, part 10 of 12: the queue of waiting commands, every parser engine as R55 and R59 have it, and the
canonical form of every byte memory (`sound`). Callees come before their callers, so a lemma cites those of the operations it unfolds to. -/

namespace Sys2Proof.Machine

theorem execPlog_sound {v} (a0) (a1) (s : State) {t} (e : execPlog a0 a1 s = .next t) (h : sound v s) : sound v t := by
  unfold execPlog at e; injection e with e; subst e; try dsimp only
  repeat' (first | with_reducible assumption | with_reducible refine ite_keep (P := sound _) ?_ ?_ | with_reducible refine State.issue_sound _ _ _ _ _ _ (fun _ _ _ => ?_) ?_ | with_reducible refine ite_keep (P := effSound _) ?_ ?_ | with_reducible refine effSound_next ?_ | with_reducible refine effSound_jump ?_ | with_reducible refine effSound_stay ?_ | with_reducible refine effSound_exc ?_ | with_reducible refine State.modSeq_sound _ _ _ ?_)

theorem execBr_sound {v} (a0) (a1) (s : State) {t} (e : execBr a0 a1 s = .next t) (h : sound v s) : sound v t := by
  unfold execBr at e; injection e with e; subst e; try dsimp only
  repeat' (first | with_reducible assumption | with_reducible refine ite_keep (P := sound _) ?_ ?_ | with_reducible refine State.issue_sound _ _ _ _ _ _ (fun _ _ _ => ?_) ?_ | with_reducible refine ite_keep (P := effSound _) ?_ ?_ | with_reducible refine effSound_next ?_ | with_reducible refine effSound_jump ?_)

theorem execLoop_sound {v} (a0) (a1) (s : State) {t} (e : execLoop a0 a1 s = .next t) (h : sound v s) : sound v t := by
  unfold execLoop at e; injection e with e; subst e; try dsimp only
  repeat' (first | with_reducible assumption | with_reducible refine ite_keep (P := sound _) ?_ ?_ | with_reducible refine State.issue_sound _ _ _ _ _ _ (fun _ _ _ => ?_) ?_ | with_reducible refine ite_keep (P := effSound _) ?_ ?_ | with_reducible refine effSound_next ?_ | with_reducible refine effSound_jump ?_ | with_reducible refine effSound_stay ?_ | with_reducible refine effSound_exc ?_ | with_reducible refine State.ws_sound _ _ _ _ ?_)

theorem execJal_sound {v} (a0) (a1) (s : State) {t} (e : execJal a0 a1 s = .next t) (h : sound v s) : sound v t := by
  unfold execJal at e; injection e with e; subst e; try dsimp only
  repeat' (first | with_reducible assumption | with_reducible refine ite_keep (P := sound _) ?_ ?_ | with_reducible refine State.issue_sound _ _ _ _ _ _ (fun _ _ _ => ?_) ?_ | with_reducible refine ite_keep (P := effSound _) ?_ ?_ | with_reducible refine effSound_next ?_ | with_reducible refine effSound_jump ?_ | with_reducible refine effSound_stay ?_ | with_reducible refine effSound_exc ?_ | with_reducible refine State.ws_sound _ _ _ _ ?_)

theorem execJr_sound {v} (a0) (a1) (s : State) {t} (e : execJr a0 a1 s = .next t) (h : sound v s) : sound v t := by
  unfold execJr at e; injection e with e; subst e; try dsimp only
  repeat' (first | with_reducible assumption | with_reducible refine ite_keep (P := sound _) ?_ ?_ | with_reducible refine State.issue_sound _ _ _ _ _ _ (fun _ _ _ => ?_) ?_ | with_reducible refine ite_keep (P := effSound _) ?_ ?_ | with_reducible refine effSound_next ?_ | with_reducible refine effSound_jump ?_ | with_reducible refine effSound_stay ?_ | with_reducible refine effSound_exc ?_)

theorem execTinfo_sound {v} (a0) (a1) (a2) (a3) (s : State) {t} (e : execTinfo a0 a1 a2 a3 s = .next t) (h : sound v s) : sound v t := by
  unfold execTinfo at e; injection e with e; subst e; try dsimp only
  repeat' (first | with_reducible assumption | with_reducible refine ite_keep (P := sound _) ?_ ?_ | with_reducible refine State.issue_sound _ _ _ _ _ _ (fun _ _ _ => ?_) ?_ | with_reducible refine ite_keep (P := effSound _) ?_ ?_ | with_reducible refine effSound_next ?_ | with_reducible refine effSound_jump ?_ | with_reducible refine effSound_stay ?_ | with_reducible refine effSound_exc ?_ | with_reducible refine State.at_sound _ _ ?_ | with_reducible refine State.ws_sound _ _ _ _ ?_)

theorem execTend_sound {v} (a0) (a1) (s : State) {t} (e : execTend a0 a1 s = .next t) (h : sound v s) : sound v t := by
  unfold execTend at e; injection e with e; subst e; try dsimp only
  repeat' (first | with_reducible assumption | with_reducible refine ite_keep (P := sound _) ?_ ?_ | with_reducible refine State.issue_sound _ _ _ _ _ _ (fun _ _ _ => ?_) ?_ | with_reducible refine ite_keep (P := effSound _) ?_ ?_ | with_reducible refine effSound_next ?_ | with_reducible refine effSound_jump ?_ | with_reducible refine effSound_stay ?_ | with_reducible refine effSound_exc ?_ | with_reducible refine State.taskDone_sound _ _ ?_ | with_reducible refine State.waitFor_sound _ _ _ ?_)

theorem execTendComplete_sound {v} (a0) (s : State) {t} (e : execTendComplete a0 s = .next t) (h : sound v s) : sound v t := by
  unfold execTendComplete at e; injection e with e; subst e; try dsimp only
  repeat' (first | with_reducible assumption | with_reducible refine ite_keep (P := sound _) ?_ ?_ | with_reducible refine State.clocked_sound _ _ (fun _ _ => ?_) ?_ | with_reducible refine State.taskDone_sound _ _ ?_)

theorem execTrap_sound {v} (a0) (a1) (s : State) {t} (e : execTrap a0 a1 s = .next t) (h : sound v s) : sound v t := by
  unfold execTrap at e; injection e with e; subst e; try dsimp only
  repeat' (first | with_reducible assumption | with_reducible refine ite_keep (P := sound _) ?_ ?_ | with_reducible refine State.issue_sound _ _ _ _ _ _ (fun _ _ _ => ?_) ?_ | with_reducible refine ite_keep (P := effSound _) ?_ ?_ | with_reducible refine effSound_next ?_ | with_reducible refine effSound_jump ?_ | with_reducible refine effSound_stay ?_ | with_reducible refine effSound_exc ?_)

theorem execLd_sound {v} (a0) (a1) (a2) (s : State) {t} (e : execLd a0 a1 a2 s = .next t) (h : sound v s) : sound v t := by
  unfold execLd at e; injection e with e; subst e; try dsimp only
  repeat' (first | with_reducible assumption | with_reducible refine ite_keep (P := sound _) ?_ ?_ | with_reducible refine State.issue_sound _ _ _ _ _ _ (fun _ _ _ => ?_) ?_ | with_reducible refine ite_keep (P := effSound _) ?_ ?_ | with_reducible refine effSound_next ?_ | with_reducible refine effSound_jump ?_ | with_reducible refine effSound_stay ?_ | with_reducible refine effSound_exc ?_ | with_reducible refine State.padRead_sound _ _ _ _ _ _ _ _ ?_ | with_reducible refine State.padRead_sound_eq (by assumption) ?_ | with_reducible refine State.ws_sound _ _ _ _ ?_ | with_reducible refine foldl_keep (P := sound _) (fun _ _ _ => ?_) ?_ | with_reducible refine foldl_fst (P := sound _) (fun _ _ _ => ?_) ?_ | with_reducible refine Pad.restoreWins_wf _ _ _ ?_ | with_reducible refine (Pad.rowDead_mem _ _).symm ▸ ?_ | split)

theorem execSt_sound {v} (a0) (a1) (s : State) {t} (e : execSt a0 a1 s = .next t) (h : sound v s) : sound v t := by
  unfold execSt at e; injection e with e; subst e; try dsimp only
  repeat' (first | with_reducible assumption | with_reducible refine ite_keep (P := sound _) ?_ ?_ | with_reducible refine State.issue_sound _ _ _ _ _ _ (fun _ _ _ => ?_) ?_ | with_reducible refine ite_keep (P := effSound _) ?_ ?_ | with_reducible refine effSound_next ?_ | with_reducible refine effSound_jump ?_ | with_reducible refine effSound_stay ?_ | with_reducible refine effSound_exc ?_ | with_reducible refine State.padWrite_sound _ _ _ _ _ _ _ ?_ | with_reducible refine State.padWrite_sound_eq (by assumption) ?_ | with_reducible refine foldl_keep (P := sound _) (fun _ _ _ => ?_) ?_ | with_reducible refine foldl_fst (P := sound _) (fun _ _ _ => ?_) ?_ | with_reducible refine Pad.restoreWins_wf _ _ _ ?_ | with_reducible refine (Pad.rowDead_mem _ _).symm ▸ ?_ | split)

theorem execAadd_sound {v} (a0) (a1) (a2) (s : State) {t} (e : execAadd a0 a1 a2 s = .next t) (h : sound v s) : sound v t := by
  unfold execAadd at e; injection e with e; subst e; try dsimp only
  repeat' (first | with_reducible assumption | with_reducible refine ite_keep (P := sound _) ?_ ?_ | with_reducible refine State.atomicIns_sound _ _ _ _ _ _ ?_)

theorem execAswp_sound {v} (a0) (a1) (a2) (s : State) {t} (e : execAswp a0 a1 a2 s = .next t) (h : sound v s) : sound v t := by
  unfold execAswp at e; injection e with e; subst e; try dsimp only
  repeat' (first | with_reducible assumption | with_reducible refine ite_keep (P := sound _) ?_ ?_ | with_reducible refine State.atomicIns_sound _ _ _ _ _ _ ?_)

theorem execTset_sound {v} (a0) (a1) (s : State) {t} (e : execTset a0 a1 s = .next t) (h : sound v s) : sound v t := by
  unfold execTset at e; injection e with e; subst e; try dsimp only
  repeat' (first | with_reducible assumption | with_reducible refine ite_keep (P := sound _) ?_ ?_ | with_reducible refine State.issue_sound _ _ _ _ _ _ (fun _ _ _ => ?_) ?_ | with_reducible refine ite_keep (P := effSound _) ?_ ?_ | with_reducible refine effSound_next ?_ | with_reducible refine effSound_jump ?_ | with_reducible refine effSound_stay ?_ | with_reducible refine effSound_exc ?_ | with_reducible refine State.modSeq_sound _ _ _ ?_)

theorem execTget_sound {v} (a0) (a1) (s : State) {t} (e : execTget a0 a1 s = .next t) (h : sound v s) : sound v t := by
  unfold execTget at e; injection e with e; subst e; try dsimp only
  repeat' (first | with_reducible assumption | with_reducible refine ite_keep (P := sound _) ?_ ?_ | with_reducible refine State.issue_sound _ _ _ _ _ _ (fun _ _ _ => ?_) ?_ | with_reducible refine ite_keep (P := effSound _) ?_ ?_ | with_reducible refine effSound_next ?_ | with_reducible refine effSound_jump ?_ | with_reducible refine effSound_stay ?_ | with_reducible refine effSound_exc ?_ | with_reducible refine State.ws_sound _ _ _ _ ?_)

theorem execWopen_sound {v} (a0) (a1) (s : State) {t} (e : execWopen a0 a1 s = .next t) (h : sound v s) : sound v t := by
  unfold execWopen at e; injection e with e; subst e; try dsimp only
  repeat' (first | with_reducible assumption | with_reducible refine ite_keep (P := sound _) ?_ ?_ | with_reducible refine State.issue_sound _ _ _ _ _ _ (fun _ _ _ => ?_) ?_ | with_reducible refine ite_keep (P := effSound _) ?_ ?_ | with_reducible refine effSound_next ?_ | with_reducible refine effSound_jump ?_ | with_reducible refine effSound_stay ?_ | with_reducible refine effSound_exc ?_ | with_reducible refine State.allocate_sound _ _ _ _ _ _ ?_ | with_reducible refine State.allocate_sound_eq (by assumption) ?_ | with_reducible refine State.modSeq_sound _ _ _ ?_ | with_reducible refine State.grantWin_sound _ _ _ _ ?_)

theorem execWclose_sound {v} (a0) (a1) (s : State) {t} (e : execWclose a0 a1 s = .next t) (h : sound v s) : sound v t := by
  unfold execWclose at e; injection e with e; subst e; try dsimp only
  repeat' (first | with_reducible assumption | with_reducible refine ite_keep (P := sound _) ?_ ?_ | with_reducible refine State.issue_sound _ _ _ _ _ _ (fun _ _ _ => ?_) ?_ | with_reducible refine ite_keep (P := effSound _) ?_ ?_ | with_reducible refine effSound_next ?_ | with_reducible refine effSound_jump ?_ | with_reducible refine effSound_stay ?_ | with_reducible refine effSound_exc ?_ | with_reducible refine State.waitFor_sound _ _ _ ?_ | with_reducible refine State.modPad_soundMem (fun _ hm => Pad.closeAll_wf _ hm) ?_ | with_reducible refine State.modPad_soundMem (fun _ hm => Pad.close_wf _ _ _ hm) ?_)

theorem execWinfo_sound {v} (a0) (a1) (s : State) {t} (e : execWinfo a0 a1 s = .next t) (h : sound v s) : sound v t := by
  unfold execWinfo at e; injection e with e; subst e; try dsimp only
  repeat' (first | with_reducible assumption | with_reducible refine ite_keep (P := sound _) ?_ ?_ | with_reducible refine State.issue_sound _ _ _ _ _ _ (fun _ _ _ => ?_) ?_ | with_reducible refine ite_keep (P := effSound _) ?_ ?_ | with_reducible refine effSound_next ?_ | with_reducible refine effSound_jump ?_ | with_reducible refine effSound_stay ?_ | with_reducible refine effSound_exc ?_ | with_reducible refine State.ws_sound _ _ _ _ ?_)

theorem execAmode_sound {v} (a0) (a1) (s : State) {t} (e : execAmode a0 a1 s = .next t) (h : sound v s) : sound v t := by
  unfold execAmode at e; injection e with e; subst e; try dsimp only
  repeat' (first | with_reducible assumption | with_reducible refine ite_keep (P := sound _) ?_ ?_ | with_reducible refine State.issue_sound _ _ _ _ _ _ (fun _ _ _ => ?_) ?_ | with_reducible refine ite_keep (P := effSound _) ?_ ?_ | with_reducible refine effSound_next ?_ | with_reducible refine effSound_jump ?_ | with_reducible refine effSound_stay ?_ | with_reducible refine effSound_exc ?_ | with_reducible refine State.modSeq_sound _ _ _ ?_)

theorem execAmm_sound {v} (a0) (a1) (s : State) {t} (e : execAmm a0 a1 s = .next t) (h : sound v s) : sound v t := by
  unfold execAmm at e; injection e with e; subst e; try dsimp only
  repeat' (first | with_reducible assumption | with_reducible refine ite_keep (P := sound _) ?_ ?_ | with_reducible refine State.issue_sound _ _ _ _ _ _ (fun _ _ _ => ?_) ?_ | with_reducible refine ite_keep (P := effSound _) ?_ ?_ | with_reducible refine effSound_next ?_ | with_reducible refine effSound_jump ?_ | with_reducible refine effSound_stay ?_ | with_reducible refine effSound_exc ?_ | with_reducible refine State.countRaise_sound _ _ _ _ _ ?_ | with_reducible refine State.modSeq_sound _ _ _ ?_)

theorem execAdrain_sound {v} (a0) (a1) (s : State) {t} (e : execAdrain a0 a1 s = .next t) (h : sound v s) : sound v t := by
  unfold execAdrain at e; injection e with e; subst e; try dsimp only
  repeat' (first | with_reducible assumption | with_reducible refine ite_keep (P := sound _) ?_ ?_ | with_reducible refine State.issue_sound _ _ _ _ _ _ (fun _ _ _ => ?_) ?_ | with_reducible refine ite_keep (P := effSound _) ?_ ?_ | with_reducible refine effSound_next ?_ | with_reducible refine effSound_jump ?_ | with_reducible refine effSound_stay ?_ | with_reducible refine effSound_exc ?_ | with_reducible refine State.modSeq_sound _ _ _ ?_)

theorem execAwait_sound {v} (a0) (a1) (s : State) {t} (e : execAwait a0 a1 s = .next t) (h : sound v s) : sound v t := by
  unfold execAwait at e; injection e with e; subst e; try dsimp only
  repeat' (first | with_reducible assumption | with_reducible refine ite_keep (P := sound _) ?_ ?_ | with_reducible refine State.issue_sound _ _ _ _ _ _ (fun _ _ _ => ?_) ?_ | with_reducible refine ite_keep (P := effSound _) ?_ ?_ | with_reducible refine effSound_next ?_ | with_reducible refine effSound_jump ?_ | with_reducible refine effSound_stay ?_ | with_reducible refine effSound_exc ?_ | with_reducible refine State.waitFor_sound _ _ _ ?_)

theorem execAwaitComplete_sound {v} (a0) (s : State) {t} (e : execAwaitComplete a0 s = .next t) (h : sound v s) : sound v t := by
  unfold execAwaitComplete at e; injection e with e; subst e; try dsimp only
  repeat' (first | with_reducible assumption | with_reducible refine ite_keep (P := sound _) ?_ ?_ | with_reducible refine State.clocked_sound _ _ (fun _ _ => ?_) ?_ | with_reducible refine State.resume_sound _ _ ?_)

theorem execAstat_sound {v} (a0) (a1) (s : State) {t} (e : execAstat a0 a1 s = .next t) (h : sound v s) : sound v t := by
  unfold execAstat at e; injection e with e; subst e; try dsimp only
  repeat' (first | with_reducible assumption | with_reducible refine ite_keep (P := sound _) ?_ ?_ | with_reducible refine State.issue_sound _ _ _ _ _ _ (fun _ _ _ => ?_) ?_ | with_reducible refine ite_keep (P := effSound _) ?_ ?_ | with_reducible refine effSound_next ?_ | with_reducible refine effSound_jump ?_ | with_reducible refine effSound_stay ?_ | with_reducible refine effSound_exc ?_ | with_reducible refine State.ws_sound _ _ _ _ ?_)

theorem execSegh_sound {v} (a0) (a1) (a2) (s : State) {t} (e : execSegh a0 a1 a2 s = .next t) (h : sound v s) : sound v t := by
  unfold execSegh at e; injection e with e; subst e; try dsimp only
  repeat' (first | with_reducible assumption | with_reducible refine ite_keep (P := sound _) ?_ ?_ | with_reducible refine State.issue_sound _ _ _ _ _ _ (fun _ _ _ => ?_) ?_ | with_reducible refine ite_keep (P := effSound _) ?_ ?_ | with_reducible refine effSound_next ?_ | with_reducible refine effSound_jump ?_ | with_reducible refine effSound_stay ?_ | with_reducible refine effSound_exc ?_ | with_reducible refine State.padRead_sound _ _ _ _ _ _ _ _ ?_ | with_reducible refine State.padRead_sound_eq (by assumption) ?_ | with_reducible refine State.ws_sound _ _ _ _ ?_ | with_reducible refine foldl_keep (P := sound _) (fun _ _ _ => ?_) ?_ | with_reducible refine foldl_fst (P := sound _) (fun _ _ _ => ?_) ?_ | with_reducible refine Pad.restoreWins_wf _ _ _ ?_ | with_reducible refine (Pad.rowDead_mem _ _).symm ▸ ?_ | split)

theorem execSegr_sound {v} (a0) (a1) (s : State) {t} (e : execSegr a0 a1 s = .next t) (h : sound v s) : sound v t := by
  unfold execSegr at e; injection e with e; subst e; try dsimp only
  repeat' (first | with_reducible assumption | with_reducible refine ite_keep (P := sound _) ?_ ?_ | with_reducible refine State.issue_sound _ _ _ _ _ _ (fun _ _ _ => ?_) ?_ | with_reducible refine ite_keep (P := effSound _) ?_ ?_ | with_reducible refine effSound_next ?_ | with_reducible refine effSound_jump ?_ | with_reducible refine effSound_stay ?_ | with_reducible refine effSound_exc ?_ | with_reducible refine State.modWin_sound _ _ _ _ _ ?_ | with_reducible refine foldl_keep (P := sound _) (fun _ _ _ => ?_) ?_ | with_reducible refine foldl_fst (P := sound _) (fun _ _ _ => ?_) ?_ | with_reducible refine Pad.restoreWins_wf _ _ _ ?_ | with_reducible refine (Pad.rowDead_mem _ _).symm ▸ ?_ | split)

theorem execSegmentSlotReturn_sound {v} (a0) (a1) (s : State) {t} (e : execSegmentSlotReturn a0 a1 s = .next t) (h : sound v s) : sound v t := by
  unfold execSegmentSlotReturn at e; injection e with e; subst e; try dsimp only
  repeat' (first | with_reducible assumption | with_reducible refine ite_keep (P := sound _) ?_ ?_ | with_reducible refine State.clocked_sound _ _ (fun _ _ => ?_) ?_ | with_reducible refine State.modWin_sound _ _ _ _ _ ?_ | with_reducible refine State.send_sound _ _ _ ?_ | with_reducible refine foldl_keep (P := sound _) (fun _ _ _ => ?_) ?_ | with_reducible refine foldl_fst (P := sound _) (fun _ _ _ => ?_) ?_ | with_reducible refine Pad.restoreWins_wf _ _ _ ?_ | with_reducible refine (Pad.rowDead_mem _ _).symm ▸ ?_ | split)

theorem execDmaCopy_sound {v} (a0) (a1) (s : State) {t} (e : execDmaCopy a0 a1 s = .next t) (h : sound v s) : sound v t := by
  unfold execDmaCopy at e; injection e with e; subst e; try dsimp only
  repeat' (first | with_reducible assumption | with_reducible refine ite_keep (P := sound _) ?_ ?_ | with_reducible refine State.dmaIns_sound _ _ _ _ _ ?_)

theorem execDmaAdd_sound {v} (a0) (a1) (s : State) {t} (e : execDmaAdd a0 a1 s = .next t) (h : sound v s) : sound v t := by
  unfold execDmaAdd at e; injection e with e; subst e; try dsimp only
  repeat' (first | with_reducible assumption | with_reducible refine ite_keep (P := sound _) ?_ ?_ | with_reducible refine State.dmaIns_sound _ _ _ _ _ ?_)

theorem execDmaConv_sound {v} (a0) (a1) (s : State) {t} (e : execDmaConv a0 a1 s = .next t) (h : sound v s) : sound v t := by
  unfold execDmaConv at e; injection e with e; subst e; try dsimp only
  repeat' (first | with_reducible assumption | with_reducible refine ite_keep (P := sound _) ?_ ?_ | with_reducible refine State.dmaIns_sound _ _ _ _ _ ?_)

theorem execDmaComplete_sound {v} (a0) (a1) (s : State) {t} (e : execDmaComplete a0 a1 s = .next t) (h : sound v s) : sound v t := by
  unfold execDmaComplete at e; injection e with e; subst e; try dsimp only
  repeat' (first | with_reducible assumption | with_reducible refine ite_keep (P := sound _) ?_ ?_ | with_reducible refine State.clocked_sound _ _ (fun _ _ => ?_) ?_ | with_reducible refine State.dmaFinish_sound _ _ _ ?_ | with_reducible refine State.jobReady_sound _ _ _ ?_ | with_reducible refine State.jobReady_sound_eq (by assumption) ?_ | with_reducible refine State.moveJob_sound _ _ _ _ ?_ | with_reducible refine State.moveJob_sound_eq (by assumption) ?_ | with_reducible refine State.closeIfFree_sound _ _ ?_ | with_reducible refine State.dmaPop_sound _ _ ?_ | with_reducible refine State.exceptRun_sound _ _ _ _ _ ?_ | with_reducible refine State.dropGets_sound _ _ _ _ ?_ | with_reducible refine State.modSeq_sound _ _ _ ?_ | with_reducible refine foldl_keep (P := sound _) (fun _ _ _ => ?_) ?_ | with_reducible refine foldl_fst (P := sound _) (fun _ _ _ => ?_) ?_ | with_reducible refine Pad.restoreWins_wf _ _ _ ?_ | with_reducible refine (Pad.rowDead_mem _ _).symm ▸ ?_ | split)

theorem execMaskb_sound {v} (a0) (a1) (s : State) {t} (e : execMaskb a0 a1 s = .next t) (h : sound v s) : sound v t := by
  unfold execMaskb at e; injection e with e; subst e; try dsimp only
  repeat' (first | with_reducible assumption | with_reducible refine ite_keep (P := sound _) ?_ ?_ | with_reducible refine State.issue_sound _ _ _ _ _ _ (fun _ _ _ => ?_) ?_ | with_reducible refine ite_keep (P := effSound _) ?_ ?_ | with_reducible refine effSound_next ?_ | with_reducible refine effSound_jump ?_ | with_reducible refine effSound_stay ?_ | with_reducible refine effSound_exc ?_ | with_reducible refine State.dmaEnter_sound _ _ _ ?_)

theorem execDrep_sound {v} (a0) (a1) (s : State) {t} (e : execDrep a0 a1 s = .next t) (h : sound v s) : sound v t := by
  unfold execDrep at e; injection e with e; subst e; try dsimp only
  repeat' (first | with_reducible assumption | with_reducible refine ite_keep (P := sound _) ?_ ?_ | with_reducible refine State.issue_sound _ _ _ _ _ _ (fun _ _ _ => ?_) ?_ | with_reducible refine ite_keep (P := effSound _) ?_ ?_ | with_reducible refine effSound_next ?_ | with_reducible refine effSound_jump ?_ | with_reducible refine effSound_stay ?_ | with_reducible refine effSound_exc ?_ | with_reducible refine State.dmaEnter_sound _ _ _ ?_)

theorem execWaitk_sound {v} (a0) (a1) (s : State) {t} (e : execWaitk a0 a1 s = .next t) (h : sound v s) : sound v t := by
  unfold execWaitk at e; injection e with e; subst e; try dsimp only
  repeat' (first | with_reducible assumption | with_reducible refine ite_keep (P := sound _) ?_ ?_ | with_reducible refine State.issue_sound _ _ _ _ _ _ (fun _ _ _ => ?_) ?_ | with_reducible refine ite_keep (P := effSound _) ?_ ?_ | with_reducible refine effSound_next ?_ | with_reducible refine effSound_jump ?_ | with_reducible refine effSound_stay ?_ | with_reducible refine effSound_exc ?_ | with_reducible refine State.waitFor_sound _ _ _ ?_)

theorem execWaitkResume_sound {v} (a0) (s : State) {t} (e : execWaitkResume a0 s = .next t) (h : sound v s) : sound v t := by
  unfold execWaitkResume at e; injection e with e; subst e; try dsimp only
  repeat' (first | with_reducible assumption | with_reducible refine ite_keep (P := sound _) ?_ ?_ | with_reducible refine State.clocked_sound _ _ (fun _ _ => ?_) ?_ | with_reducible refine State.resume_sound _ _ ?_ | with_reducible refine foldl_keep (P := sound _) (fun _ _ _ => ?_) ?_ | with_reducible refine foldl_fst (P := sound _) (fun _ _ _ => ?_) ?_ | with_reducible refine Pad.restoreWins_wf _ _ _ ?_ | with_reducible refine (Pad.rowDead_mem _ _).symm ▸ ?_ | split)

theorem execKget_sound {v} (a0) (a1) (s : State) {t} (e : execKget a0 a1 s = .next t) (h : sound v s) : sound v t := by
  unfold execKget at e; injection e with e; subst e; try dsimp only
  repeat' (first | with_reducible assumption | with_reducible refine ite_keep (P := sound _) ?_ ?_ | with_reducible refine State.issue_sound _ _ _ _ _ _ (fun _ _ _ => ?_) ?_ | with_reducible refine ite_keep (P := effSound _) ?_ ?_ | with_reducible refine effSound_next ?_ | with_reducible refine effSound_jump ?_ | with_reducible refine effSound_stay ?_ | with_reducible refine effSound_exc ?_ | with_reducible refine State.ws_sound _ _ _ _ ?_)

theorem execKsub_sound {v} (a0) (a1) (s : State) {t} (e : execKsub a0 a1 s = .next t) (h : sound v s) : sound v t := by
  unfold execKsub at e; injection e with e; subst e; try dsimp only
  repeat' (first | with_reducible assumption | with_reducible refine ite_keep (P := sound _) ?_ ?_ | with_reducible refine State.issue_sound _ _ _ _ _ _ (fun _ _ _ => ?_) ?_ | with_reducible refine ite_keep (P := effSound _) ?_ ?_ | with_reducible refine effSound_next ?_ | with_reducible refine effSound_jump ?_ | with_reducible refine effSound_stay ?_ | with_reducible refine effSound_exc ?_ | with_reducible refine State.kset_sound _ _ _ _ ?_)

theorem execFence_sound {v} (a0) (a1) (s : State) {t} (e : execFence a0 a1 s = .next t) (h : sound v s) : sound v t := by
  unfold execFence at e; injection e with e; subst e; try dsimp only
  repeat' (first | with_reducible assumption | with_reducible refine ite_keep (P := sound _) ?_ ?_ | with_reducible refine State.issue_sound _ _ _ _ _ _ (fun _ _ _ => ?_) ?_ | with_reducible refine ite_keep (P := effSound _) ?_ ?_ | with_reducible refine effSound_next ?_ | with_reducible refine effSound_jump ?_ | with_reducible refine effSound_stay ?_ | with_reducible refine effSound_exc ?_ | with_reducible refine State.waitFor_sound _ _ _ ?_)

theorem execFenceComplete_sound {v} (a0) (s : State) {t} (e : execFenceComplete a0 s = .next t) (h : sound v s) : sound v t := by
  unfold execFenceComplete at e; injection e with e; subst e; try dsimp only
  repeat' (first | with_reducible assumption | with_reducible refine ite_keep (P := sound _) ?_ ?_ | with_reducible refine State.clocked_sound _ _ (fun _ _ => ?_) ?_ | with_reducible refine State.resume_sound _ _ ?_)

theorem execBar_sound {v} (a0) (a1) (s : State) {t} (e : execBar a0 a1 s = .next t) (h : sound v s) : sound v t := by
  unfold execBar at e; injection e with e; subst e; try dsimp only
  repeat' (first | with_reducible assumption | with_reducible refine ite_keep (P := sound _) ?_ ?_ | with_reducible refine State.issue_sound _ _ _ _ _ _ (fun _ _ _ => ?_) ?_ | with_reducible refine ite_keep (P := effSound _) ?_ ?_ | with_reducible refine effSound_next ?_ | with_reducible refine effSound_jump ?_ | with_reducible refine effSound_stay ?_ | with_reducible refine effSound_exc ?_ | with_reducible refine State.sendColl_sound _ _ _ _ _ _ _ _ _ ?_ | with_reducible refine State.barTry_sound _ _ ?_ | with_reducible refine State.waitFor_sound _ _ _ ?_)

theorem execTkrst_sound {v} (a0) (a1) (s : State) {t} (e : execTkrst a0 a1 s = .next t) (h : sound v s) : sound v t := by
  unfold execTkrst at e; injection e with e; subst e; try dsimp only
  repeat' (first | with_reducible assumption | with_reducible refine ite_keep (P := sound _) ?_ ?_ | with_reducible refine State.issue_sound _ _ _ _ _ _ (fun _ _ _ => ?_) ?_ | with_reducible refine ite_keep (P := effSound _) ?_ ?_ | with_reducible refine effSound_next ?_ | with_reducible refine effSound_jump ?_ | with_reducible refine effSound_stay ?_ | with_reducible refine effSound_exc ?_ | with_reducible refine State.modTopk_sound _ _ _ ?_)

theorem execTkin_sound {v} (a0) (a1) (a2) (s : State) {t} (e : execTkin a0 a1 a2 s = .next t) (h : sound v s) : sound v t := by
  unfold execTkin at e; injection e with e; subst e; try dsimp only
  repeat' (first | with_reducible assumption | with_reducible refine ite_keep (P := sound _) ?_ ?_ | with_reducible refine State.issue_sound _ _ _ _ _ _ (fun _ _ _ => ?_) ?_ | with_reducible refine ite_keep (P := effSound _) ?_ ?_ | with_reducible refine effSound_next ?_ | with_reducible refine effSound_jump ?_ | with_reducible refine effSound_stay ?_ | with_reducible refine effSound_exc ?_ | with_reducible refine State.countRaise_sound _ _ _ _ _ ?_ | with_reducible refine State.farReady_sound _ _ _ _ _ _ _ _ ?_ | with_reducible refine State.farReady_sound_eq (by assumption) ?_ | with_reducible refine State.rowsRead_sound _ _ _ _ _ _ _ _ _ ?_ | with_reducible refine State.rowsRead_sound_eq (by assumption) ?_ | with_reducible refine State.dropGets_sound _ _ _ _ ?_ | with_reducible refine State.bump_sound _ _ _ ?_ | with_reducible refine State.modTopk_sound _ _ _ ?_ | with_reducible refine foldl_keep (P := sound _) (fun _ _ _ => ?_) ?_ | with_reducible refine foldl_fst (P := sound _) (fun _ _ _ => ?_) ?_ | with_reducible refine Pad.restoreWins_wf _ _ _ ?_ | with_reducible refine (Pad.rowDead_mem _ _).symm ▸ ?_ | split)

theorem execTopkListFinal_sound {v} (a0) (s : State) {t} (e : execTopkListFinal a0 s = .next t) (h : sound v s) : sound v t := by
  unfold execTopkListFinal at e; injection e with e; subst e; try dsimp only
  repeat' (first | with_reducible assumption | with_reducible refine ite_keep (P := sound _) ?_ ?_ | with_reducible refine State.clocked_sound _ _ (fun _ _ => ?_) ?_ | with_reducible refine State.modTopk_sound _ _ _ ?_ | with_reducible refine State.countFinal_sound _ _ ?_ | with_reducible refine State.tkWrite_sound _ _ _ _ _ _ ?_ | with_reducible refine State.tkWrite_sound_eq (by assumption) ?_ | with_reducible refine State.except_sound _ _ _ _ _ ?_ | with_reducible refine State.resume_sound _ _ ?_ | with_reducible refine State.mergeTry_sound _ _ ?_ | with_reducible refine foldl_keep (P := sound _) (fun _ _ _ => ?_) ?_ | with_reducible refine foldl_fst (P := sound _) (fun _ _ _ => ?_) ?_ | with_reducible refine Pad.restoreWins_wf _ _ _ ?_ | with_reducible refine (Pad.rowDead_mem _ _).symm ▸ ?_ | split)

theorem execTkout_sound {v} (a0) (a1) (s : State) {t} (e : execTkout a0 a1 s = .next t) (h : sound v s) : sound v t := by
  unfold execTkout at e; injection e with e; subst e; try dsimp only
  repeat' (first | with_reducible assumption | with_reducible refine ite_keep (P := sound _) ?_ ?_ | with_reducible refine State.issue_sound _ _ _ _ _ _ (fun _ _ _ => ?_) ?_ | with_reducible refine ite_keep (P := effSound _) ?_ ?_ | with_reducible refine effSound_next ?_ | with_reducible refine effSound_jump ?_ | with_reducible refine effSound_stay ?_ | with_reducible refine effSound_exc ?_ | with_reducible refine State.tkWrite_sound _ _ _ _ _ _ ?_ | with_reducible refine State.tkWrite_sound_eq (by assumption) ?_ | with_reducible refine State.waitFor_sound _ _ _ ?_ | with_reducible refine foldl_keep (P := sound _) (fun _ _ _ => ?_) ?_ | with_reducible refine foldl_fst (P := sound _) (fun _ _ _ => ?_) ?_ | with_reducible refine Pad.restoreWins_wf _ _ _ ?_ | with_reducible refine (Pad.rowDead_mem _ _).symm ▸ ?_ | split)

theorem execTkmrg_sound {v} (a0) (a1) (s : State) {t} (e : execTkmrg a0 a1 s = .next t) (h : sound v s) : sound v t := by
  unfold execTkmrg at e; injection e with e; subst e; try dsimp only
  repeat' (first | with_reducible assumption | with_reducible refine ite_keep (P := sound _) ?_ ?_ | with_reducible refine State.issue_sound _ _ _ _ _ _ (fun _ _ _ => ?_) ?_ | with_reducible refine ite_keep (P := effSound _) ?_ ?_ | with_reducible refine effSound_next ?_ | with_reducible refine effSound_jump ?_ | with_reducible refine effSound_stay ?_ | with_reducible refine effSound_exc ?_ | with_reducible refine State.mergeTry_sound _ _ ?_ | with_reducible refine State.waitFor_sound _ _ _ ?_)

theorem execArrayPassStart_sound {v} (a0) (a1) (a2) (a3) (s : State) {t} (e : execArrayPassStart a0 a1 a2 a3 s = .next t) (h : sound v s) : sound v t := by
  unfold execArrayPassStart at e; injection e with e; subst e; try dsimp only
  repeat' (first | with_reducible assumption | with_reducible refine ite_keep (P := sound _) ?_ ?_ | with_reducible refine State.clocked_sound _ _ (fun _ _ => ?_) ?_ | with_reducible refine State.conflict_sound _ _ _ ?_ | with_reducible refine State.passBegin_sound _ _ _ _ _ ?_ | with_reducible refine State.chunkReady_sound _ _ _ ?_ | with_reducible refine State.chunkReady_sound_eq (by assumption) ?_ | with_reducible refine State.chunkBegin_sound _ _ _ _ _ ?_ | with_reducible refine State.modArr_sound _ _ _ ?_ | with_reducible refine State.jobBegin_sound _ _ _ _ _ ?_ | with_reducible refine foldl_keep (P := sound _) (fun _ _ _ => ?_) ?_ | with_reducible refine foldl_fst (P := sound _) (fun _ _ _ => ?_) ?_ | with_reducible refine Pad.restoreWins_wf _ _ _ ?_ | with_reducible refine (Pad.rowDead_mem _ _).symm ▸ ?_ | split)

theorem execBulkLoad_sound {v} (a0) (a1) (a2) (s : State) {t} (e : execBulkLoad a0 a1 a2 s = .next t) (h : sound v s) : sound v t := by
  unfold execBulkLoad at e; injection e with e; subst e; try dsimp only
  repeat' (first | with_reducible assumption | with_reducible refine ite_keep (P := sound _) ?_ ?_ | with_reducible refine State.clocked_sound _ _ (fun _ _ => ?_) ?_ | with_reducible refine State.blockRows_sound _ _ _ _ _ ?_ | with_reducible refine State.blockRows_sound_eq (by assumption) ?_ | with_reducible refine State.exceptRun_sound _ _ _ _ _ ?_ | with_reducible refine State.judge_sound _ _ _ ?_ | with_reducible refine State.judge_sound_eq (by assumption) ?_ | with_reducible refine State.passGo_sound _ _ _ _ _ _ ?_ | with_reducible refine State.bump_sound _ _ _ ?_ | with_reducible refine State.modArr_sound _ _ _ ?_ | with_reducible refine State.arrayFault_sound _ _ _ _ ?_ | with_reducible refine State.raise_sound _ _ _ _ _ ?_ | with_reducible refine foldl_keep (P := sound _) (fun _ _ _ => ?_) ?_ | with_reducible refine foldl_fst (P := sound _) (fun _ _ _ => ?_) ?_ | with_reducible refine Pad.restoreWins_wf _ _ _ ?_ | with_reducible refine (Pad.rowDead_mem _ _).symm ▸ ?_ | split)

theorem execRippleLoad_sound {v} (a0) (a1) (a2) (s : State) {t} (e : execRippleLoad a0 a1 a2 s = .next t) (h : sound v s) : sound v t := by
  unfold execRippleLoad at e; injection e with e; subst e; try dsimp only
  repeat' (first | with_reducible assumption | with_reducible refine ite_keep (P := sound _) ?_ ?_ | with_reducible refine State.clocked_sound _ _ (fun _ _ => ?_) ?_ | with_reducible refine State.blockRows_sound _ _ _ _ _ ?_ | with_reducible refine State.blockRows_sound_eq (by assumption) ?_ | with_reducible refine State.exceptRun_sound _ _ _ _ _ ?_ | with_reducible refine State.passGo_sound _ _ _ _ _ _ ?_ | with_reducible refine foldl_keep (P := sound _) (fun _ _ _ => ?_) ?_ | with_reducible refine foldl_fst (P := sound _) (fun _ _ _ => ?_) ?_ | with_reducible refine Pad.restoreWins_wf _ _ _ ?_ | with_reducible refine (Pad.rowDead_mem _ _).symm ▸ ?_ | split)

theorem execOsDrain_sound {v} (c) (s : State) {t} (q : execOsDrain c s = .next t) (h : sound v s) : sound v t := by
  unfold execOsDrain at q; injection q with q; subst q
  refine State.clocked_sound _ _ (fun s h => ?_) h
  split
  · exact h
  · split
    · exact h
    · rename_i u _ _ o rest _
      have h1 := State.modArr_sound s c (fun a => { a with running := some { u with sets := rest } }) h
      dsimp only
      have h2 : ∀ q, (if o.bad = true then (s.modArr c fun a => { a with running := some { u with sets := rest } }, none) else
          if u.chunk.job.td.kind = 5 then ((s.modArr c fun a => { a with running := some { u with sets := rest } }).osStore c u.chunk o, none)
          else (s.modArr c fun a => { a with running := some { u with sets := rest } }).deliver c u.chunk (o.bm * passR u.chunk.job.mode) o.bn
            (u.chunk.cols o.bn).1 o.rows) = q → sound v q.1 := by
        rintro q rfl
        split
        · exact h1
        · split
          · exact State.osStore_sound _ _ _ _ h1
          · exact State.deliver_sound _ _ _ _ _ _ _ h1
      split
      · rename_i hq; exact State.exceptRun_sound _ _ _ _ _ (h2 _ hq)
      · rename_i hq
        split
        · exact State.chunkEnd_sound _ _ _ (h2 _ hq)
        · exact h2 _ hq

theorem execChunkVerdict_sound {v} (a0) (s : State) {t} (e : execChunkVerdict a0 s = .next t) (h : sound v s) : sound v t := by
  unfold execChunkVerdict at e; injection e with e; subst e; try dsimp only
  repeat' (first | with_reducible assumption | with_reducible refine ite_keep (P := sound _) ?_ ?_ | with_reducible refine State.clocked_sound _ _ (fun _ _ => ?_) ?_ | with_reducible refine State.closeIfFree_sound _ _ ?_ | with_reducible refine State.modArr_sound _ _ _ ?_ | with_reducible refine State.arrayFault_sound _ _ _ _ ?_ | with_reducible refine State.countRaise_sound _ _ _ _ _ ?_ | with_reducible refine foldl_keep (P := sound _) (fun _ _ _ => ?_) ?_ | with_reducible refine foldl_fst (P := sound _) (fun _ _ _ => ?_) ?_ | with_reducible refine Pad.restoreWins_wf _ _ _ ?_ | with_reducible refine (Pad.rowDead_mem _ _).symm ▸ ?_ | split)

theorem execMergeChunk_sound {v} (a0) (a1) (s : State) {t} (e : execMergeChunk a0 a1 s = .next t) (h : sound v s) : sound v t := by
  unfold execMergeChunk at e; injection e with e; subst e; try dsimp only
  repeat' (first | with_reducible assumption | with_reducible refine ite_keep (P := sound _) ?_ ?_ | with_reducible refine State.clocked_sound _ _ (fun _ _ => ?_) ?_ | with_reducible refine State.modArr_sound _ _ _ ?_ | with_reducible refine State.mergeRows_sound _ _ _ _ _ _ ?_ | with_reducible refine State.mergeRows_sound_eq (by assumption) ?_ | with_reducible refine State.closeIfFree_sound _ _ ?_ | with_reducible refine State.exceptRun_sound _ _ _ _ _ ?_ | with_reducible refine foldl_keep (P := sound _) (fun _ _ _ => ?_) ?_ | with_reducible refine foldl_fst (P := sound _) (fun _ _ _ => ?_) ?_ | with_reducible refine Pad.restoreWins_wf _ _ _ ?_ | with_reducible refine (Pad.rowDead_mem _ _).symm ▸ ?_ | split)

theorem execPreemptSave_sound {v} (a0) (s : State) {t} (e : execPreemptSave a0 s = .next t) (h : sound v s) : sound v t := by
  unfold execPreemptSave at e; injection e with e; subst e; try dsimp only
  repeat' (first | with_reducible assumption | with_reducible refine ite_keep (P := sound _) ?_ ?_ | with_reducible refine State.clocked_sound _ _ (fun _ _ => ?_) ?_ | with_reducible refine State.dispatch_sound _ _ ?_ | with_reducible refine State.saveTask_sound _ _ _ _ _ _ ?_ | with_reducible refine foldl_keep (P := sound _) (fun _ _ _ => ?_) ?_ | with_reducible refine foldl_fst (P := sound _) (fun _ _ _ => ?_) ?_ | with_reducible refine Pad.restoreWins_wf _ _ _ ?_ | with_reducible refine (Pad.rowDead_mem _ _).symm ▸ ?_ | split)

theorem execArrayRepairClear_sound {v} (a0) (a1) (s : State) {t} (e : execArrayRepairClear a0 a1 s = .next t) (h : sound v s) : sound v t := by
  unfold execArrayRepairClear at e; injection e with e; subst e; try dsimp only
  repeat' (first | with_reducible assumption | with_reducible refine ite_keep (P := sound _) ?_ ?_ | with_reducible refine State.command_sound _ _ _ _ _ _ _ (fun _ _ => ?_) ?_ | with_reducible refine State.arm_sound _ _ ?_)

theorem execMsgWrite_sound {v} (a0) (a1) (a2) (s : State) {t} (e : execMsgWrite a0 a1 a2 s = .next t) (h : sound v s) : sound v t := by
  unfold execMsgWrite at e; injection e with e; subst e; try dsimp only
  repeat' (first | with_reducible assumption | with_reducible refine ite_keep (P := sound _) ?_ ?_ | with_reducible refine State.arrive_sound _ _ _ _ ?_ | with_reducible refine State.arrive_sound_eq (by assumption) ?_ | with_reducible refine State.ownerTake_sound _ _ _ _ (fun _ _ _ => ?_) ?_ | with_reducible refine State.padWrite_sound _ _ _ _ _ _ _ ?_ | with_reducible refine State.padWrite_sound_eq (by assumption) ?_ | with_reducible refine foldl_keep (P := sound _) (fun _ _ _ => ?_) ?_ | with_reducible refine foldl_fst (P := sound _) (fun _ _ _ => ?_) ?_ | with_reducible refine Pad.restoreWins_wf _ _ _ ?_ | with_reducible refine (Pad.rowDead_mem _ _).symm ▸ ?_ | split)

theorem execMsgAdd_sound {v} (a0) (a1) (a2) (a3) (s : State) {t} (e : execMsgAdd a0 a1 a2 a3 s = .next t) (h : sound v s) : sound v t := by
  unfold execMsgAdd at e; injection e with e; subst e; try dsimp only
  repeat' (first | with_reducible assumption | with_reducible refine ite_keep (P := sound _) ?_ ?_ | with_reducible refine State.arrive_sound _ _ _ _ ?_ | with_reducible refine State.arrive_sound_eq (by assumption) ?_ | with_reducible refine State.ownerTake_sound _ _ _ _ (fun _ _ _ => ?_) ?_ | with_reducible refine State.accFault_sound _ _ _ _ ?_ | with_reducible refine State.padAtomic_sound _ _ _ _ _ _ _ _ _ ?_ | with_reducible refine State.padAtomic_sound_eq (by assumption) ?_ | with_reducible refine foldl_keep (P := sound _) (fun _ _ _ => ?_) ?_ | with_reducible refine foldl_fst (P := sound _) (fun _ _ _ => ?_) ?_ | with_reducible refine Pad.restoreWins_wf _ _ _ ?_ | with_reducible refine (Pad.rowDead_mem _ _).symm ▸ ?_ | split)

theorem execMsgRead_sound {v} (a0) (a1) (a2) (s : State) {t} (e : execMsgRead a0 a1 a2 s = .next t) (h : sound v s) : sound v t := by
  unfold execMsgRead at e; injection e with e; subst e; try dsimp only
  repeat' (first | with_reducible assumption | with_reducible refine ite_keep (P := sound _) ?_ ?_ | with_reducible refine State.arrive_sound _ _ _ _ ?_ | with_reducible refine State.arrive_sound_eq (by assumption) ?_ | with_reducible refine State.padRead_sound _ _ _ _ _ _ _ _ ?_ | with_reducible refine State.padRead_sound_eq (by assumption) ?_ | with_reducible refine State.reply_sound _ _ _ ?_ | with_reducible refine State.readAnswer_sound _ _ _ _ ?_ | with_reducible refine foldl_keep (P := sound _) (fun _ _ _ => ?_) ?_ | with_reducible refine foldl_fst (P := sound _) (fun _ _ _ => ?_) ?_ | with_reducible refine Pad.restoreWins_wf _ _ _ ?_ | with_reducible refine (Pad.rowDead_mem _ _).symm ▸ ?_ | split)

theorem execMsgRdata_sound {v} (a0) (a1) (s : State) {t} (e : execMsgRdata a0 a1 s = .next t) (h : sound v s) : sound v t := by
  unfold execMsgRdata at e; injection e with e; subst e; try dsimp only
  repeat' (first | with_reducible assumption | with_reducible refine ite_keep (P := sound _) ?_ ?_ | with_reducible refine State.arrive_sound _ _ _ _ ?_ | with_reducible refine State.arrive_sound_eq (by assumption) ?_ | with_reducible refine State.lateResponse_sound _ _ _ _ ?_ | with_reducible refine State.getData_sound _ _ _ _ ?_ | with_reducible refine State.recheck_sound _ _ ?_ | with_reducible refine State.reqDone_sound _ _ _ ?_ | with_reducible refine foldl_keep (P := sound _) (fun _ _ _ => ?_) ?_ | with_reducible refine foldl_fst (P := sound _) (fun _ _ _ => ?_) ?_ | with_reducible refine Pad.restoreWins_wf _ _ _ ?_ | with_reducible refine (Pad.rowDead_mem _ _).symm ▸ ?_ | split)

theorem execMsgAck_sound {v} (a0) (a1) (s : State) {t} (e : execMsgAck a0 a1 s = .next t) (h : sound v s) : sound v t := by
  unfold execMsgAck at e; injection e with e; subst e; try dsimp only
  repeat' (first | with_reducible assumption | with_reducible refine ite_keep (P := sound _) ?_ ?_ | with_reducible refine State.arrive_sound _ _ _ _ ?_ | with_reducible refine State.arrive_sound_eq (by assumption) ?_ | with_reducible refine State.lateResponse_sound _ _ _ _ ?_ | with_reducible refine State.recheck_sound _ _ ?_ | with_reducible refine State.reqDone_sound _ _ _ ?_ | with_reducible refine foldl_keep (P := sound _) (fun _ _ _ => ?_) ?_ | with_reducible refine foldl_fst (P := sound _) (fun _ _ _ => ?_) ?_ | with_reducible refine Pad.restoreWins_wf _ _ _ ?_ | with_reducible refine (Pad.rowDead_mem _ _).symm ▸ ?_ | split)

theorem execMsgNack_sound {v} (a0) (a1) (s : State) {t} (e : execMsgNack a0 a1 s = .next t) (h : sound v s) : sound v t := by
  unfold execMsgNack at e; injection e with e; subst e; try dsimp only
  repeat' (first | with_reducible assumption | with_reducible refine ite_keep (P := sound _) ?_ ?_ | with_reducible refine State.arrive_sound _ _ _ _ ?_ | with_reducible refine State.arrive_sound_eq (by assumption) ?_ | with_reducible refine State.countRaise_sound _ _ _ _ _ ?_ | with_reducible refine State.lateResponse_sound _ _ _ _ ?_ | with_reducible refine State.recheck_sound _ _ ?_ | with_reducible refine State.nacked_sound _ _ _ ?_ | with_reducible refine State.reqDone_sound _ _ _ ?_ | with_reducible refine foldl_keep (P := sound _) (fun _ _ _ => ?_) ?_ | with_reducible refine foldl_fst (P := sound _) (fun _ _ _ => ?_) ?_ | with_reducible refine Pad.restoreWins_wf _ _ _ ?_ | with_reducible refine (Pad.rowDead_mem _ _).symm ▸ ?_ | split)

theorem execMsgCredit_sound {v} (a0) (a1) (s : State) {t} (e : execMsgCredit a0 a1 s = .next t) (h : sound v s) : sound v t := by
  unfold execMsgCredit at e; injection e with e; subst e; try dsimp only
  repeat' (first | with_reducible assumption | with_reducible refine ite_keep (P := sound _) ?_ ?_ | with_reducible refine State.arrive_sound _ _ _ _ ?_ | with_reducible refine State.arrive_sound_eq (by assumption) ?_ | with_reducible refine State.modBooks_sound _ _ ?_ | with_reducible refine foldl_keep (P := sound _) (fun _ _ _ => ?_) ?_ | with_reducible refine foldl_fst (P := sound _) (fun _ _ _ => ?_) ?_ | with_reducible refine Pad.restoreWins_wf _ _ _ ?_ | with_reducible refine (Pad.rowDead_mem _ _).symm ▸ ?_ | split | dsimp only | fail_if_no_progress (rw [sound_mk]; refine sound_of rfl rfl rfl rfl rfl ?_))

theorem execMsgReport_sound {v} (a0) (a1) (a2) (s : State) {t} (e : execMsgReport a0 a1 a2 s = .next t) (h : sound v s) : sound v t := by
  unfold execMsgReport at e; injection e with e; subst e; try dsimp only
  repeat' (first | with_reducible assumption | with_reducible refine ite_keep (P := sound _) ?_ ?_ | with_reducible refine State.arrive_sound _ _ _ _ ?_ | with_reducible refine State.arrive_sound_eq (by assumption) ?_ | with_reducible refine State.flitCount_sound _ _ ?_ | with_reducible refine State.reply_sound _ _ _ ?_ | with_reducible refine State.bump_sound _ _ _ ?_ | with_reducible refine State.publishBooks_sound _ ?_ | with_reducible refine State.takeReport_sound _ _ ?_ | with_reducible refine State.modBooks_sound _ _ ?_ | with_reducible refine foldl_keep (P := sound _) (fun _ _ _ => ?_) ?_ | with_reducible refine foldl_fst (P := sound _) (fun _ _ _ => ?_) ?_ | with_reducible refine Pad.restoreWins_wf _ _ _ ?_ | with_reducible refine (Pad.rowDead_mem _ _).symm ▸ ?_ | split)

theorem execMsgA2aReq_sound {v} (a0) (a1) (s : State) {t} (e : execMsgA2aReq a0 a1 s = .next t) (h : sound v s) : sound v t := by
  unfold execMsgA2aReq at e; injection e with e; subst e; try dsimp only
  repeat' (first | with_reducible assumption | with_reducible refine ite_keep (P := sound _) ?_ ?_ | with_reducible refine State.arrive_sound _ _ _ _ ?_ | with_reducible refine State.arrive_sound_eq (by assumption) ?_ | with_reducible refine State.blockIn_sound _ _ _ ?_ | with_reducible refine State.blockIn_sound_eq (by assumption) ?_ | with_reducible refine State.answerOne_sound _ _ _ _ _ _ ?_ | with_reducible refine State.answerOne_sound_eq (by assumption) ?_ | with_reducible refine State.peBlock_sound _ _ _ _ _ _ _ ?_ | with_reducible refine foldl_keep (P := sound _) (fun _ _ _ => ?_) ?_ | with_reducible refine foldl_fst (P := sound _) (fun _ _ _ => ?_) ?_ | with_reducible refine Pad.restoreWins_wf _ _ _ ?_ | with_reducible refine (Pad.rowDead_mem _ _).symm ▸ ?_ | split)

theorem execMsgA2aRow_sound {v} (a0) (a1) (s : State) {t} (e : execMsgA2aRow a0 a1 s = .next t) (h : sound v s) : sound v t := by
  unfold execMsgA2aRow at e; injection e with e; subst e; try dsimp only
  repeat' (first | with_reducible assumption | with_reducible refine ite_keep (P := sound _) ?_ ?_ | with_reducible refine State.arrive_sound _ _ _ _ ?_ | with_reducible refine State.arrive_sound_eq (by assumption) ?_ | with_reducible refine State.blockIn_sound _ _ _ ?_ | with_reducible refine State.blockIn_sound_eq (by assumption) ?_ | with_reducible refine State.takeRows_sound _ _ _ _ _ _ _ ?_ | with_reducible refine State.modTable_sound _ _ _ ?_ | with_reducible refine foldl_keep (P := sound _) (fun _ _ _ => ?_) ?_ | with_reducible refine foldl_fst (P := sound _) (fun _ _ _ => ?_) ?_ | with_reducible refine Pad.restoreWins_wf _ _ _ ?_ | with_reducible refine (Pad.rowDead_mem _ _).symm ▸ ?_ | split)

theorem execMsgTkm_sound {v} (a0) (a1) (s : State) {t} (e : execMsgTkm a0 a1 s = .next t) (h : sound v s) : sound v t := by
  unfold execMsgTkm at e; injection e with e; subst e; try dsimp only
  repeat' (first | with_reducible assumption | with_reducible refine ite_keep (P := sound _) ?_ ?_ | with_reducible refine State.arrive_sound _ _ _ _ ?_ | with_reducible refine State.arrive_sound_eq (by assumption) ?_ | with_reducible refine State.blockMsg_sound _ _ _ _ ?_ | with_reducible refine foldl_keep (P := sound _) (fun _ _ _ => ?_) ?_ | with_reducible refine foldl_fst (P := sound _) (fun _ _ _ => ?_) ?_ | with_reducible refine Pad.restoreWins_wf _ _ _ ?_ | with_reducible refine (Pad.rowDead_mem _ _).symm ▸ ?_ | split)

theorem execMsgTkmFinal_sound {v} (a0) (a1) (s : State) {t} (e : execMsgTkmFinal a0 a1 s = .next t) (h : sound v s) : sound v t := by
  unfold execMsgTkmFinal at e; injection e with e; subst e; try dsimp only
  repeat' (first | with_reducible assumption | with_reducible refine ite_keep (P := sound _) ?_ ?_ | with_reducible refine State.arrive_sound _ _ _ _ ?_ | with_reducible refine State.arrive_sound_eq (by assumption) ?_ | with_reducible refine State.blockMsg_sound _ _ _ _ ?_ | with_reducible refine foldl_keep (P := sound _) (fun _ _ _ => ?_) ?_ | with_reducible refine foldl_fst (P := sound _) (fun _ _ _ => ?_) ?_ | with_reducible refine Pad.restoreWins_wf _ _ _ ?_ | with_reducible refine (Pad.rowDead_mem _ _).symm ▸ ?_ | split)

theorem execMsgBarArrive_sound {v} (a0) (a1) (s : State) {t} (e : execMsgBarArrive a0 a1 s = .next t) (h : sound v s) : sound v t := by
  unfold execMsgBarArrive at e; injection e with e; subst e; try dsimp only
  repeat' (first | with_reducible assumption | with_reducible refine ite_keep (P := sound _) ?_ ?_ | with_reducible refine State.arrive_sound _ _ _ _ ?_ | with_reducible refine State.arrive_sound_eq (by assumption) ?_ | with_reducible refine State.release_sound _ _ _ ?_ | with_reducible refine State.kset_sound _ _ _ _ ?_ | with_reducible refine State.kadd_sound _ _ _ _ ?_ | with_reducible refine foldl_keep (P := sound _) (fun _ _ _ => ?_) ?_ | with_reducible refine foldl_fst (P := sound _) (fun _ _ _ => ?_) ?_ | with_reducible refine Pad.restoreWins_wf _ _ _ ?_ | with_reducible refine (Pad.rowDead_mem _ _).symm ▸ ?_ | split)

theorem execMsgBarRelease_sound {v} (a0) (a1) (s : State) {t} (e : execMsgBarRelease a0 a1 s = .next t) (h : sound v s) : sound v t := by
  unfold execMsgBarRelease at e; injection e with e; subst e; try dsimp only
  repeat' (first | with_reducible assumption | with_reducible refine ite_keep (P := sound _) ?_ ?_ | with_reducible refine State.arrive_sound _ _ _ _ ?_ | with_reducible refine State.arrive_sound_eq (by assumption) ?_ | with_reducible refine State.release_sound _ _ _ ?_ | with_reducible refine foldl_keep (P := sound _) (fun _ _ _ => ?_) ?_ | with_reducible refine foldl_fst (P := sound _) (fun _ _ _ => ?_) ?_ | with_reducible refine Pad.restoreWins_wf _ _ _ ?_ | with_reducible refine (Pad.rowDead_mem _ _).symm ▸ ?_ | split)

theorem execMsgReservedType_sound {v} (a0) (a1) (s : State) {t} (e : execMsgReservedType a0 a1 s = .next t) (h : sound v s) : sound v t := by
  unfold execMsgReservedType at e; injection e with e; subst e; try dsimp only
  repeat' (first | with_reducible assumption | with_reducible refine ite_keep (P := sound _) ?_ ?_ | with_reducible refine State.arrive_sound _ _ _ _ ?_ | with_reducible refine State.arrive_sound_eq (by assumption) ?_ | with_reducible refine State.countRaise_sound _ _ _ _ _ ?_ | with_reducible refine foldl_keep (P := sound _) (fun _ _ _ => ?_) ?_ | with_reducible refine foldl_fst (P := sound _) (fun _ _ _ => ?_) ?_ | with_reducible refine Pad.restoreWins_wf _ _ _ ?_ | with_reducible refine (Pad.rowDead_mem _ _).symm ▸ ?_ | split)

theorem execRequestTimeout_sound {v} (a0) (a1) (a2) (s : State) {t} (e : execRequestTimeout a0 a1 a2 s = .next t) (h : sound v s) : sound v t := by
  unfold execRequestTimeout at e; injection e with e; subst e; try dsimp only
  repeat' (first | with_reducible assumption | with_reducible refine ite_keep (P := sound _) ?_ ?_ | with_reducible refine State.clocked_sound _ _ (fun _ _ => ?_) ?_ | with_reducible refine State.at_sound _ _ ?_ | with_reducible refine State.reqDone_sound _ _ _ ?_ | with_reducible refine State.bump_sound _ _ _ ?_ | with_reducible refine State.recheck_sound _ _ ?_ | with_reducible refine State.unanswered_sound _ _ ?_ | with_reducible refine State.raiseIng_sound _ _ _ _ _ ?_ | with_reducible refine foldl_keep (P := sound _) (fun _ _ _ => ?_) ?_ | with_reducible refine foldl_fst (P := sound _) (fun _ _ _ => ?_) ?_ | with_reducible refine Pad.restoreWins_wf _ _ _ ?_ | with_reducible refine (Pad.rowDead_mem _ _).symm ▸ ?_ | split | dsimp only | fail_if_no_progress (rw [sound_mk]; refine sound_of rfl rfl rfl rfl rfl ?_))

theorem execScrubStep_sound {v} (a0) (a1) (a2) (a3) (s : State) {t} (e : execScrubStep a0 a1 a2 a3 s = .next t) (h : sound v s) : sound v t := by
  unfold execScrubStep at e; injection e with e; subst e; try dsimp only
  repeat' (first | with_reducible assumption | with_reducible refine ite_keep (P := sound _) ?_ ?_ | with_reducible refine State.clocked_sound _ _ (fun _ _ => ?_) ?_ | with_reducible refine State.lineFinds_sound _ _ _ _ ?_ | with_reducible refine State.countRaise_sound _ _ _ _ _ ?_ | with_reducible refine State.bump_sound _ _ _ ?_ | with_reducible refine State.modPad_soundMem (fun _ hm => Pad.closeAll_wf _ hm) ?_ | with_reducible refine State.modPad_soundMem (fun _ hm => Pad.close_wf _ _ _ hm) ?_ | with_reducible refine State.modPad_soundMem (fun _ hm => Pad.load_wf _ _ _ _ _ hm) ?_ | with_reducible refine State.modPad_soundMem (fun _ hm => Pad.write_wf _ _ _ _ hm) ?_ | with_reducible refine State.modPad_soundMem (fun _ hm => Pad.closeConfidential_wf _ hm) ?_ | with_reducible refine State.modPad_sound (fun _ => rfl) ?_)

theorem execMarchRequest_sound {v} (a0) (a1) (s : State) {t} (e : execMarchRequest a0 a1 s = .next t) (h : sound v s) : sound v t := by
  unfold execMarchRequest at e; injection e with e; subst e; try dsimp only
  repeat' (first | with_reducible assumption | with_reducible refine ite_keep (P := sound _) ?_ ?_ | with_reducible refine State.command_sound _ _ _ _ _ _ _ (fun _ _ => ?_) ?_ | with_reducible refine State.marchRequest_sound _ _ ?_)

theorem execPreservingTestRow_sound {v} (a0) (a1) (a2) (a3) (a4) (s : State) {t} (e : execPreservingTestRow a0 a1 a2 a3 a4 s = .next t) (h : sound v s) : sound v t := by
  unfold execPreservingTestRow at e; injection e with e; subst e; try dsimp only
  repeat' (first | with_reducible assumption | with_reducible refine ite_keep (P := sound _) ?_ ?_ | with_reducible refine State.clocked_sound _ _ (fun _ _ => ?_) ?_ | with_reducible refine State.modPad_soundMem (fun _ hm => Pad.closeAll_wf _ hm) ?_ | with_reducible refine State.modPad_soundMem (fun _ hm => Pad.close_wf _ _ _ hm) ?_ | with_reducible refine State.modPad_soundMem (fun _ hm => Pad.load_wf _ _ _ _ _ hm) ?_ | with_reducible refine State.modPad_soundMem (fun _ hm => Pad.write_wf _ _ _ _ hm) ?_ | with_reducible refine State.modPad_soundMem (fun _ hm => Pad.closeConfidential_wf _ hm) ?_ | with_reducible refine State.modPad_sound (fun _ => rfl) ?_ | with_reducible refine State.modPad_soundMem (fun _ hm => ?_) ?_ | with_reducible refine State.rowFails_sound _ _ _ _ _ _ ?_)

theorem execStartupMarchTest_sound {v} (a0) (s : State) {t} (e : execStartupMarchTest a0 s = .next t) (h : sound v s) : sound v t := by
  unfold execStartupMarchTest at e; injection e with e; subst e; try dsimp only
  repeat' (first | with_reducible assumption | with_reducible refine ite_keep (P := sound _) ?_ ?_ | with_reducible refine State.marchAll_sound _ _ ?_)

theorem execRowRepairClear_sound {v} (a0) (a1) (s : State) {t} (e : execRowRepairClear a0 a1 s = .next t) (h : sound v s) : sound v t := by
  unfold execRowRepairClear at e; injection e with e; subst e; try dsimp only
  repeat' (first | with_reducible assumption | with_reducible refine ite_keep (P := sound _) ?_ ?_ | with_reducible refine State.command_sound _ _ _ _ _ _ _ (fun _ _ => ?_) ?_ | with_reducible refine State.arm_sound _ _ ?_)

theorem execWipeComplete_sound {v} (s : State) {t} (e : execWipeComplete s = .next t) (h : sound v s) : sound v t := by
  unfold execWipeComplete at e; injection e with e; subst e; try dsimp only
  repeat' (first | with_reducible assumption | with_reducible refine ite_keep (P := sound _) ?_ ?_ | with_reducible refine State.wipeDone_sound _ ?_)

theorem execFlush_sound {v} (a0) (a1) (a2) (s : State) {t} (e : execFlush a0 a1 a2 s = .next t) (h : sound v s) : sound v t := by
  unfold execFlush at e; injection e with e; subst e; try dsimp only
  repeat' (first | with_reducible assumption | with_reducible refine ite_keep (P := sound _) ?_ ?_ | with_reducible refine State.command_sound _ _ _ _ _ _ _ (fun _ _ => ?_) ?_ | with_reducible refine State.quiet_sound _ ?_ | with_reducible refine State.flushNow_sound _ _ ?_)

theorem execPeerFrameReceive_sound {v} (a0) (a1) (a2) (s : State) {t} (e : execPeerFrameReceive a0 a1 a2 s = .next t) (h : sound v s) : sound v t := by
  unfold execPeerFrameReceive at e; injection e with e; subst e; try dsimp only
  repeat' (first | with_reducible assumption | with_reducible refine ite_keep (P := sound _) ?_ ?_ | with_reducible refine State.quiet_sound _ ?_ | with_reducible refine State.bump_sound _ _ _ ?_ | with_reducible refine State.rxDrop_sound _ _ ?_ | with_reducible refine State.raise_sound _ _ _ _ _ ?_ | with_reducible refine State.qPush_sound _ _ _ ?_ | with_reducible refine State.qPush_sound_eq (by assumption) ?_ | with_reducible refine State.qPop_sound _ _ _ ?_ | with_reducible refine State.qPop_sound_eq (by assumption) ?_ | with_reducible refine State.pfcLook_sound _ _ _ ?_ | with_reducible refine State.peerTake_sound _ _ _ ?_ | with_reducible refine foldl_keep (P := sound _) (fun _ _ _ => ?_) ?_ | with_reducible refine foldl_fst (P := sound _) (fun _ _ _ => ?_) ?_ | with_reducible refine Pad.restoreWins_wf _ _ _ ?_ | with_reducible refine (Pad.rowDead_mem _ _).symm ▸ ?_ | split)

theorem execPfcPauseRepeat_sound {v} (a0) (a1) (s : State) {t} (e : execPfcPauseRepeat a0 a1 s = .next t) (h : sound v s) : sound v t := by
  unfold execPfcPauseRepeat at e; injection e with e; subst e; try dsimp only
  repeat' (first | with_reducible assumption | with_reducible refine ite_keep (P := sound _) ?_ ?_ | with_reducible refine State.quiet_sound _ ?_ | with_reducible refine State.sendPause_sound _ _ _ ?_)

theorem execPfcPauseReceive_sound {v} (a0) (a1) (a2) (a3) (s : State) {t} (e : execPfcPauseReceive a0 a1 a2 a3 s = .next t) (h : sound v s) : sound v t := by
  unfold execPfcPauseReceive at e; injection e with e; subst e; try dsimp only
  repeat' (first | with_reducible assumption | with_reducible refine ite_keep (P := sound _) ?_ ?_ | with_reducible refine State.quiet_sound _ ?_ | with_reducible refine State.peerFlow_sound _ _ _ ?_ | with_reducible refine foldl_keep (P := sound _) (fun _ _ _ => ?_) ?_ | with_reducible refine foldl_fst (P := sound _) (fun _ _ _ => ?_) ?_ | with_reducible refine Pad.restoreWins_wf _ _ _ ?_ | with_reducible refine (Pad.rowDead_mem _ _).symm ▸ ?_ | split | dsimp only | fail_if_no_progress (rw [sound_mk]; refine sound_of rfl rfl rfl rfl rfl ?_))

theorem execPfcPauseExpire_sound {v} (a0) (a1) (a2) (s : State) {t} (e : execPfcPauseExpire a0 a1 a2 s = .next t) (h : sound v s) : sound v t := by
  unfold execPfcPauseExpire at e; injection e with e; subst e; try dsimp only
  repeat' (first | with_reducible assumption | with_reducible refine ite_keep (P := sound _) ?_ ?_ | with_reducible refine State.quiet_sound _ ?_ | with_reducible refine State.peerFlow_sound _ _ _ ?_ | with_reducible refine foldl_keep (P := sound _) (fun _ _ _ => ?_) ?_ | with_reducible refine foldl_fst (P := sound _) (fun _ _ _ => ?_) ?_ | with_reducible refine Pad.restoreWins_wf _ _ _ ?_ | with_reducible refine (Pad.rowDead_mem _ _).symm ▸ ?_ | split | dsimp only | fail_if_no_progress (rw [sound_mk]; refine sound_of rfl rfl rfl rfl rfl ?_))

theorem execPeerAssemblyClose_sound {v} (a0) (a1) (s : State) {t} (e : execPeerAssemblyClose a0 a1 s = .next t) (h : sound v s) : sound v t := by
  unfold execPeerAssemblyClose at e; injection e with e; subst e; try dsimp only
  repeat' (first | with_reducible assumption | with_reducible refine ite_keep (P := sound _) ?_ ?_ | with_reducible refine State.quiet_sound _ ?_ | with_reducible refine State.swTake_sound _ ?_ | with_reducible refine State.closeAssembly_sound _ _ _ ?_ | with_reducible refine State.at_sound _ _ ?_ | with_reducible refine foldl_keep (P := sound _) (fun _ _ _ => ?_) ?_ | with_reducible refine foldl_fst (P := sound _) (fun _ _ _ => ?_) ?_ | with_reducible refine Pad.restoreWins_wf _ _ _ ?_ | with_reducible refine (Pad.rowDead_mem _ _).symm ▸ ?_ | split)

end Sys2Proof.Machine
end

