-- ==== Sys2Proof/Laws/Sound10.lean ====
section
/-! SUPPORT. What operations and meanings keep, part 11 of 12: the queue of waiting commands, every parser engine as R55 and R59 have it, and the
canonical form of every byte memory (`sound`). Callees come before their callers, so a lemma cites those of the operations it unfolds to. -/

namespace Sys2Proof.Machine

theorem execRingPoll_sound {v} (a0) (a1) (s : State) {t} (e : execRingPoll a0 a1 s = .next t) (h : sound v s) : sound v t := by
  unfold execRingPoll at e; injection e with e; subst e; try dsimp only
  repeat' (first | with_reducible assumption | with_reducible refine ite_keep (P := sound _) ?_ ?_ | with_reducible refine State.clocked_sound _ _ (fun _ _ => ?_) ?_ | with_reducible refine State.peRead_sound _ _ _ _ _ _ ?_ | with_reducible refine State.peRead_sound_eq (by assumption) ?_ | with_reducible refine State.setRing_sound _ _ ?_ | with_reducible refine State.modPad_soundMem (fun _ hm => Pad.closeAll_wf _ hm) ?_ | with_reducible refine State.modPad_soundMem (fun _ hm => Pad.close_wf _ _ _ hm) ?_ | with_reducible refine State.modPad_soundMem (fun _ hm => Pad.load_wf _ _ _ _ _ hm) ?_ | with_reducible refine State.modPad_soundMem (fun _ hm => Pad.write_wf _ _ _ _ hm) ?_ | with_reducible refine State.modPad_soundMem (fun _ hm => Pad.closeConfidential_wf _ hm) ?_ | with_reducible refine State.modPad_sound (fun _ => rfl) ?_ | with_reducible refine State.modPad_soundMem (fun _ hm => ?_) ?_ | with_reducible refine State.countRaise_sound _ _ _ _ _ ?_ | with_reducible refine State.modTable_sound _ _ _ ?_ | with_reducible refine foldl_keep (P := sound _) (fun _ _ _ => ?_) ?_ | with_reducible refine foldl_fst (P := sound _) (fun _ _ _ => ?_) ?_ | with_reducible refine Pad.restoreWins_wf _ _ _ ?_ | with_reducible refine (Pad.rowDead_mem _ _).symm ▸ ?_ | split | dsimp only | fail_if_no_progress (rw [sound_mk]; refine sound_of rfl rfl rfl rfl rfl ?_))

theorem execPeonyLookup_sound {v} (a0) (s : State) {t} (e : execPeonyLookup a0 s = .next t) (h : sound v s) : sound v t := by
  unfold execPeonyLookup at e; injection e with e; subst e; try dsimp only
  repeat' (first | with_reducible assumption | with_reducible refine ite_keep (P := sound _) ?_ ?_ | with_reducible refine State.clocked_sound _ _ (fun _ _ => ?_) ?_ | with_reducible refine State.lookup_sound _ _ _ _ _ ?_ | with_reducible refine foldl_keep (P := sound _) (fun _ _ _ => ?_) ?_ | with_reducible refine foldl_fst (P := sound _) (fun _ _ _ => ?_) ?_ | with_reducible refine Pad.restoreWins_wf _ _ _ ?_ | with_reducible refine (Pad.rowDead_mem _ _).symm ▸ ?_ | split)

theorem execPeonyUpdate_sound {v} (a0) (s : State) {t} (e : execPeonyUpdate a0 s = .next t) (h : sound v s) : sound v t := by
  unfold execPeonyUpdate at e; injection e with e; subst e; try dsimp only
  repeat' (first | with_reducible assumption | with_reducible refine ite_keep (P := sound _) ?_ ?_ | with_reducible refine State.clocked_sound _ _ (fun _ _ => ?_) ?_ | with_reducible refine State.slotRows_sound _ _ _ ?_ | with_reducible refine State.slotRows_sound_eq (by assumption) ?_ | with_reducible refine State.dropClosed_sound _ _ _ ?_ | with_reducible refine State.unreadable_sound _ _ _ ?_ | with_reducible refine State.peDrop_sound _ _ ?_ | with_reducible refine State.bump_sound _ _ _ ?_ | with_reducible refine State.peSend_sound _ _ _ _ _ _ _ _ _ _ _ ?_ | with_reducible refine State.finishReq_sound _ _ _ _ ?_ | with_reducible refine foldl_keep (P := sound _) (fun _ _ _ => ?_) ?_ | with_reducible refine foldl_fst (P := sound _) (fun _ _ _ => ?_) ?_ | with_reducible refine Pad.restoreWins_wf _ _ _ ?_ | with_reducible refine (Pad.rowDead_mem _ _).symm ▸ ?_ | split)

theorem execPeonyWrite_sound {v} (a0) (s : State) {t} (e : execPeonyWrite a0 s = .next t) (h : sound v s) : sound v t := by
  unfold execPeonyWrite at e; injection e with e; subst e; try dsimp only
  repeat' (first | with_reducible assumption | with_reducible refine ite_keep (P := sound _) ?_ ?_ | with_reducible refine State.clocked_sound _ _ (fun _ _ => ?_) ?_ | with_reducible refine State.slotRows_sound _ _ _ ?_ | with_reducible refine State.slotRows_sound_eq (by assumption) ?_ | with_reducible refine State.dropClosed_sound _ _ _ ?_ | with_reducible refine State.unreadable_sound _ _ _ ?_ | with_reducible refine State.dirEntry_sound _ _ _ _ ?_ | with_reducible refine State.dirEntry_sound_eq (by assumption) ?_ | with_reducible refine State.peDrop_sound _ _ ?_ | with_reducible refine State.rowPut_sound _ _ _ _ _ _ ?_ | with_reducible refine State.peSend_sound _ _ _ _ _ _ _ _ _ _ _ ?_ | with_reducible refine State.finishReq_sound _ _ _ _ ?_ | with_reducible refine foldl_keep (P := sound _) (fun _ _ _ => ?_) ?_ | with_reducible refine foldl_fst (P := sound _) (fun _ _ _ => ?_) ?_ | with_reducible refine Pad.restoreWins_wf _ _ _ ?_ | with_reducible refine (Pad.rowDead_mem _ _).symm ▸ ?_ | split)

theorem execPeonyRelease_sound {v} (a0) (s : State) {t} (e : execPeonyRelease a0 s = .next t) (h : sound v s) : sound v t := by
  unfold execPeonyRelease at e; injection e with e; subst e; try dsimp only
  repeat' (first | with_reducible assumption | with_reducible refine ite_keep (P := sound _) ?_ ?_ | with_reducible refine State.clocked_sound _ _ (fun _ _ => ?_) ?_ | with_reducible refine State.finishReq_sound _ _ _ _ ?_ | with_reducible refine State.modTable_sound _ _ _ ?_ | with_reducible refine foldl_keep (P := sound _) (fun _ _ _ => ?_) ?_ | with_reducible refine foldl_fst (P := sound _) (fun _ _ _ => ?_) ?_ | with_reducible refine Pad.restoreWins_wf _ _ _ ?_ | with_reducible refine (Pad.rowDead_mem _ _).symm ▸ ?_ | split)

theorem execPeonyApply_sound {v} (a0) (s : State) {t} (e : execPeonyApply a0 s = .next t) (h : sound v s) : sound v t := by
  unfold execPeonyApply at e; injection e with e; subst e; try dsimp only
  repeat' (first | with_reducible assumption | with_reducible refine ite_keep (P := sound _) ?_ ?_ | with_reducible refine State.clocked_sound _ _ (fun _ _ => ?_) ?_ | with_reducible refine State.unreadable_sound _ _ _ ?_ | with_reducible refine State.applyRow_sound _ _ _ _ _ _ ?_ | with_reducible refine State.modTable_sound _ _ _ ?_ | with_reducible refine State.finishReq_sound _ _ _ _ ?_ | with_reducible refine foldl_keep (P := sound _) (fun _ _ _ => ?_) ?_ | with_reducible refine foldl_fst (P := sound _) (fun _ _ _ => ?_) ?_ | with_reducible refine Pad.restoreWins_wf _ _ _ ?_ | with_reducible refine (Pad.rowDead_mem _ _).symm ▸ ?_ | split)

theorem execPeonyFill_sound {v} (a0) (a1) (s : State) {t} (e : execPeonyFill a0 a1 s = .next t) (h : sound v s) : sound v t := by
  unfold execPeonyFill at e; injection e with e; subst e; try dsimp only
  repeat' (first | with_reducible assumption | with_reducible refine ite_keep (P := sound _) ?_ ?_ | with_reducible refine State.clocked_sound _ _ (fun _ _ => ?_) ?_ | with_reducible refine State.rowGet_sound _ _ _ _ _ ?_ | with_reducible refine State.rowGet_sound_eq (by assumption) ?_ | with_reducible refine State.dropSlot_sound _ _ _ _ ?_ | with_reducible refine State.modTable_sound _ _ _ ?_ | with_reducible refine State.fillRow_sound _ _ _ _ _ ?_ | with_reducible refine foldl_keep (P := sound _) (fun _ _ _ => ?_) ?_ | with_reducible refine foldl_fst (P := sound _) (fun _ _ _ => ?_) ?_ | with_reducible refine Pad.restoreWins_wf _ _ _ ?_ | with_reducible refine (Pad.rowDead_mem _ _).symm ▸ ?_ | split)

theorem execPeonyStatusRecord_sound {v} (a0) (s : State) {t} (e : execPeonyStatusRecord a0 s = .next t) (h : sound v s) : sound v t := by
  unfold execPeonyStatusRecord at e; injection e with e; subst e; try dsimp only
  repeat' (first | with_reducible assumption | with_reducible refine ite_keep (P := sound _) ?_ ?_ | with_reducible refine State.clocked_sound _ _ (fun _ _ => ?_) ?_ | with_reducible refine State.peSend_sound _ _ _ _ _ _ _ _ _ _ _ ?_ | with_reducible refine State.modTable_sound _ _ _ ?_ | with_reducible refine foldl_keep (P := sound _) (fun _ _ _ => ?_) ?_ | with_reducible refine foldl_fst (P := sound _) (fun _ _ _ => ?_) ?_ | with_reducible refine Pad.restoreWins_wf _ _ _ ?_ | with_reducible refine (Pad.rowDead_mem _ _).symm ▸ ?_ | split)

theorem execExchangeBatch_sound {v} (a0) (a1) (s : State) {t} (e : execExchangeBatch a0 a1 s = .next t) (h : sound v s) : sound v t := by
  unfold execExchangeBatch at e; injection e with e; subst e; try dsimp only
  repeat' (first | with_reducible assumption | with_reducible refine ite_keep (P := sound _) ?_ ?_ | with_reducible refine State.clocked_sound _ _ (fun _ _ => ?_) ?_ | with_reducible refine State.lookup_sound _ _ _ _ _ ?_ | with_reducible refine State.peBlock_sound _ _ _ _ _ _ _ ?_ | with_reducible refine State.modTable_sound _ _ _ ?_ | with_reducible refine foldl_keep (P := sound _) (fun _ _ _ => ?_) ?_)

theorem execBuild_sound {v} (a0) (a1) (a2) (s : State) {t} (e : execBuild a0 a1 a2 s = .next t) (h : sound v s) : sound v t := by
  unfold execBuild at e; injection e with e; subst e; try dsimp only
  repeat' (first | with_reducible assumption | with_reducible refine ite_keep (P := sound _) ?_ ?_ | with_reducible refine State.command_sound _ _ _ _ _ _ _ (fun _ _ => ?_) ?_ | with_reducible refine State.peonyCommand_sound _ _ _ ?_)

theorem execCreateShadow_sound {v} (a0) (a1) (a2) (s : State) {t} (e : execCreateShadow a0 a1 a2 s = .next t) (h : sound v s) : sound v t := by
  unfold execCreateShadow at e; injection e with e; subst e; try dsimp only
  repeat' (first | with_reducible assumption | with_reducible refine ite_keep (P := sound _) ?_ ?_ | with_reducible refine State.command_sound _ _ _ _ _ _ _ (fun _ _ => ?_) ?_ | with_reducible refine State.peonyCommand_sound _ _ _ ?_)

theorem execSeal_sound {v} (a0) (a1) (a2) (s : State) {t} (e : execSeal a0 a1 a2 s = .next t) (h : sound v s) : sound v t := by
  unfold execSeal at e; injection e with e; subst e; try dsimp only
  repeat' (first | with_reducible assumption | with_reducible refine ite_keep (P := sound _) ?_ ?_ | with_reducible refine State.command_sound _ _ _ _ _ _ _ (fun _ _ => ?_) ?_ | with_reducible refine State.peonyCommand_sound _ _ _ ?_)

theorem execSwitch_sound {v} (a0) (a1) (a2) (s : State) {t} (e : execSwitch a0 a1 a2 s = .next t) (h : sound v s) : sound v t := by
  unfold execSwitch at e; injection e with e; subst e; try dsimp only
  repeat' (first | with_reducible assumption | with_reducible refine ite_keep (P := sound _) ?_ ?_ | with_reducible refine State.command_sound _ _ _ _ _ _ _ (fun _ _ => ?_) ?_ | with_reducible refine State.modTable_sound _ _ _ ?_)

theorem execVersionSwitch_sound {v} (a0) (s : State) {t} (e : execVersionSwitch a0 s = .next t) (h : sound v s) : sound v t := by
  unfold execVersionSwitch at e; injection e with e; subst e; try dsimp only
  repeat' (first | with_reducible assumption | with_reducible refine ite_keep (P := sound _) ?_ ?_ | with_reducible refine State.clocked_sound _ _ (fun _ _ => ?_) ?_ | with_reducible refine State.setVer_sound _ _ _ _ ?_ | with_reducible refine State.modTable_sound _ _ _ ?_ | with_reducible refine foldl_keep (P := sound _) (fun _ _ _ => ?_) ?_ | with_reducible refine foldl_fst (P := sound _) (fun _ _ _ => ?_) ?_ | with_reducible refine Pad.restoreWins_wf _ _ _ ?_ | with_reducible refine (Pad.rowDead_mem _ _).symm ▸ ?_ | split)

theorem execVersionRetire_sound {v} (a0) (s : State) {t} (e : execVersionRetire a0 s = .next t) (h : sound v s) : sound v t := by
  unfold execVersionRetire at e; injection e with e; subst e; try dsimp only
  repeat' (first | with_reducible assumption | with_reducible refine ite_keep (P := sound _) ?_ ?_ | with_reducible refine State.clocked_sound _ _ (fun _ _ => ?_) ?_ | with_reducible refine State.raise_sound _ _ _ _ _ ?_ | with_reducible refine State.modTable_sound _ _ _ ?_ | with_reducible refine State.showVers_sound _ _ ?_ | with_reducible refine foldl_keep (P := sound _) (fun _ _ _ => ?_) ?_ | with_reducible refine foldl_fst (P := sound _) (fun _ _ _ => ?_) ?_ | with_reducible refine Pad.restoreWins_wf _ _ _ ?_ | with_reducible refine (Pad.rowDead_mem _ _).symm ▸ ?_ | split)

theorem execReplicaPrepared_sound {v} (a0) (a1) (s : State) {t} (e : execReplicaPrepared a0 a1 s = .next t) (h : sound v s) : sound v t := by
  unfold execReplicaPrepared at e; injection e with e; subst e; try dsimp only
  repeat' (first | with_reducible assumption | with_reducible refine ite_keep (P := sound _) ?_ ?_ | with_reducible refine State.clocked_sound _ _ (fun _ _ => ?_) ?_ | with_reducible refine State.setVer_sound _ _ _ _ ?_)

theorem execValidation_sound {v} (a0) (a1) (a2) (s : State) {t} (e : execValidation a0 a1 a2 s = .next t) (h : sound v s) : sound v t := by
  unfold execValidation at e; injection e with e; subst e; try dsimp only
  repeat' (first | with_reducible assumption | with_reducible refine ite_keep (P := sound _) ?_ ?_ | with_reducible refine State.validRefused_sound _ _ ?_ | with_reducible refine State.command_sound _ _ _ _ _ _ _ (fun _ _ => ?_) ?_ | with_reducible refine State.validate_sound _ _ _ ?_)

theorem execDramRead_sound {v} (a0) (a1) (a2) (a3) (s : State) {t} (e : execDramRead a0 a1 a2 a3 s = .next t) (h : sound v s) : sound v t := by
  unfold execDramRead at e; injection e with e; subst e; try dsimp only
  repeat' (first | with_reducible assumption | with_reducible refine ite_keep (P := sound _) ?_ ?_ | with_reducible refine State.at_sound _ _ ?_ | with_reducible refine State.dramGet_sound _ _ _ _ ?_ | with_reducible refine State.dramGet_sound_eq (by assumption) ?_ | with_reducible refine State.modExt_sound (fun _ => rfl) (fun _ => rfl) ?_)

theorem execDramWrite_sound {v} (a0) (a1) (s : State) {t} (e : execDramWrite a0 a1 s = .next t) (h : sound v s) : sound v t := by
  unfold execDramWrite at e; injection e with e; subst e; try dsimp only
  repeat' (first | with_reducible assumption | with_reducible refine ite_keep (P := sound _) ?_ ?_ | with_reducible refine State.dramPut_sound _ _ _ ?_)

theorem execDramRefresh_sound {v} (a0) (a1) (a2) (s : State) {t} (e : execDramRefresh a0 a1 a2 s = .next t) (h : sound v s) : sound v t := by
  unfold execDramRefresh at e; injection e with e; subst e; try dsimp only
  repeat' (first | with_reducible assumption | with_reducible refine ite_keep (P := sound _) ?_ ?_ | with_reducible refine State.modExt_sound (fun _ => rfl) (fun _ => rfl) ?_)

theorem execPatrolScrub_sound {v} (a0) (a1) (a2) (a3) (s : State) {t} (e : execPatrolScrub a0 a1 a2 a3 s = .next t) (h : sound v s) : sound v t := by
  unfold execPatrolScrub at e; injection e with e; subst e; try dsimp only
  repeat' (first | with_reducible assumption | with_reducible refine ite_keep (P := sound _) ?_ ?_ | with_reducible refine State.at_sound _ _ ?_ | with_reducible refine State.dramGet_sound _ _ _ _ ?_ | with_reducible refine State.dramGet_sound_eq (by assumption) ?_ | with_reducible refine State.modExt_sound (fun _ => rfl) (fun _ => rfl) ?_)

theorem execDramControllerFail_sound {v} (a0) (s : State) {t} (e : execDramControllerFail a0 s = .next t) (h : sound v s) : sound v t := by
  unfold execDramControllerFail at e; injection e with e; subst e; try dsimp only
  repeat' (first | with_reducible assumption | with_reducible refine ite_keep (P := sound _) ?_ ?_ | with_reducible refine State.failController_sound _ _ ?_)

theorem execFailureClear_sound {v} (a0) (a1) (s : State) {t} (e : execFailureClear a0 a1 s = .next t) (h : sound v s) : sound v t := by
  unfold execFailureClear at e; injection e with e; subst e; try dsimp only
  repeat' (first | with_reducible assumption | with_reducible refine ite_keep (P := sound _) ?_ ?_ | with_reducible refine State.command_sound _ _ _ _ _ _ _ (fun _ _ => ?_) ?_ | with_reducible refine State.arm_sound _ _ ?_)

theorem execHyperramRead_sound {v} (a0) (a1) (a2) (a3) (a4) (s : State) {t} (e : execHyperramRead a0 a1 a2 a3 a4 s = .next t) (h : sound v s) : sound v t := by
  unfold execHyperramRead at e; injection e with e; subst e; try dsimp only
  repeat' (first | with_reducible assumption | with_reducible refine ite_keep (P := sound _) ?_ ?_ | with_reducible refine State.at_sound _ _ ?_ | with_reducible refine State.hyperOne_sound _ _ _ _ _ ?_ | with_reducible refine State.hyperOne_sound_eq (by assumption) ?_ | with_reducible refine State.modExt_sound (fun _ => rfl) (fun _ => rfl) ?_ | with_reducible refine foldl_keep (P := sound _) (fun _ _ _ => ?_) ?_ | with_reducible refine foldl_fst (P := sound _) (fun _ _ _ => ?_) ?_ | with_reducible refine Pad.restoreWins_wf _ _ _ ?_ | with_reducible refine (Pad.rowDead_mem _ _).symm ▸ ?_ | split)

theorem execHyperramWrite_sound {v} (a d x y) (s : State) {t} (e : execHyperramWrite a d x y s = .next t) (h : sound v s) : sound v t := by
  unfold execHyperramWrite at e; injection e with e; subst e
  split
  · exact h
  · exact State.hyperStore_sound _ _ _ (State.hyperHears_sound _ _ _ (State.hyperHears_sound _ _ _ h))

theorem execEventLogFlush_sound {v} (a0) (s : State) {t} (e : execEventLogFlush a0 s = .next t) (h : sound v s) : sound v t := by
  unfold execEventLogFlush at e; injection e with e; subst e; try dsimp only
  repeat' (first | with_reducible assumption | with_reducible refine ite_keep (P := sound _) ?_ ?_ | with_reducible refine State.flushLog_sound _ ?_ | with_reducible refine State.countRaise_sound _ _ _ _ _ ?_)

theorem execSchedule_sound {v} (a0) (a1) (s : State) {t} (e : execSchedule a0 a1 s = .next t) (h : sound v s) : sound v t := by
  unfold execSchedule at e; injection e with e; subst e; try dsimp only
  repeat' (first | with_reducible assumption | with_reducible refine ite_keep (P := sound _) ?_ ?_ | with_reducible refine State.scheduleRefused_sound _ _ ?_ | with_reducible refine State.command_sound _ _ _ _ _ _ _ (fun _ _ => ?_) ?_ | with_reducible refine State.scheduleEffect_sound _ _ ?_)

theorem execScheduleActivate_sound {v} (a0) (s : State) {t} (e : execScheduleActivate a0 s = .next t) (h : sound v s) : sound v t := by
  unfold execScheduleActivate at e; injection e with e; subst e; try dsimp only
  repeat' (first | with_reducible assumption | with_reducible refine ite_keep (P := sound _) ?_ ?_ | with_reducible refine State.at_sound _ _ ?_ | with_reducible refine State.activateAccepted_sound _ ?_ | with_reducible refine State.putSchedule_sound _ _ ?_ | with_reducible refine foldl_keep (P := sound _) (fun _ _ _ => ?_) ?_ | with_reducible refine foldl_fst (P := sound _) (fun _ _ _ => ?_) ?_ | with_reducible refine Pad.restoreWins_wf _ _ _ ?_ | with_reducible refine (Pad.rowDead_mem _ _).symm ▸ ?_ | split | dsimp only | fail_if_no_progress (rw [sound_mk]; refine sound_of rfl rfl rfl rfl rfl ?_))

theorem execInstanceRelease_sound {v} (a0) (a1) (a2) (s : State) {t} (e : execInstanceRelease a0 a1 a2 s = .next t) (h : sound v s) : sound v t := by
  unfold execInstanceRelease at e; injection e with e; subst e; try dsimp only
  repeat' (first | with_reducible assumption | with_reducible refine ite_keep (P := sound _) ?_ ?_ | with_reducible refine State.at_sound _ _ ?_ | with_reducible refine State.dispatch_sound _ _ ?_ | with_reducible refine State.modInst_sound _ _ _ _ ?_ | with_reducible refine foldl_keep (P := sound _) (fun _ _ _ => ?_) ?_ | with_reducible refine foldl_fst (P := sound _) (fun _ _ _ => ?_) ?_ | with_reducible refine Pad.restoreWins_wf _ _ _ ?_ | with_reducible refine (Pad.rowDead_mem _ _).symm ▸ ?_ | split)

theorem execSlotEntryBegin_sound {v} (a0) (a1) (s : State) {t} (e : execSlotEntryBegin a0 a1 s = .next t) (h : sound v s) : sound v t := by
  unfold execSlotEntryBegin at e; injection e with e; subst e; try dsimp only
  repeat' (first | with_reducible assumption | with_reducible refine ite_keep (P := sound _) ?_ ?_ | with_reducible refine State.dispatch_sound _ _ ?_ | with_reducible refine State.enterSlot_sound _ _ _ ?_ | with_reducible refine foldl_keep (P := sound _) (fun _ _ _ => ?_) ?_ | with_reducible refine foldl_fst (P := sound _) (fun _ _ _ => ?_) ?_ | with_reducible refine Pad.restoreWins_wf _ _ _ ?_ | with_reducible refine (Pad.rowDead_mem _ _).symm ▸ ?_ | split)

theorem execBudgetOverrun_sound {v} (a0) (a1) (a2) (s : State) {t} (e : execBudgetOverrun a0 a1 a2 s = .next t) (h : sound v s) : sound v t := by
  unfold execBudgetOverrun at e; injection e with e; subst e; try dsimp only
  repeat' (first | with_reducible assumption | with_reducible refine ite_keep (P := sound _) ?_ ?_ | with_reducible refine State.at_sound _ _ ?_ | with_reducible refine State.raiseComp_sound _ _ _ _ _ ?_ | with_reducible refine State.bump_sound _ _ _ ?_ | with_reducible refine State.modInst_sound _ _ _ _ ?_ | with_reducible refine State.endRunning_sound _ _ ?_ | with_reducible refine State.endRunning_sound_eq (by assumption) ?_ | with_reducible refine State.dispatch_sound _ _ ?_ | with_reducible refine foldl_keep (P := sound _) (fun _ _ _ => ?_) ?_ | with_reducible refine foldl_fst (P := sound _) (fun _ _ _ => ?_) ?_ | with_reducible refine Pad.restoreWins_wf _ _ _ ?_ | with_reducible refine (Pad.rowDead_mem _ _).symm ▸ ?_ | split)

theorem execPreemptLimitExpire_sound {v} (a0) (s : State) {t} (e : execPreemptLimitExpire a0 s = .next t) (h : sound v s) : sound v t := by
  unfold execPreemptLimitExpire at e; injection e with e; subst e; try dsimp only
  repeat' (first | with_reducible assumption | with_reducible refine ite_keep (P := sound _) ?_ ?_ | with_reducible refine State.at_sound _ _ ?_ | with_reducible refine State.countRaise_sound _ _ _ _ _ ?_ | with_reducible refine State.endRunning_sound _ _ ?_ | with_reducible refine State.endRunning_sound_eq (by assumption) ?_ | with_reducible refine State.dispatch_sound _ _ ?_ | with_reducible refine foldl_keep (P := sound _) (fun _ _ _ => ?_) ?_ | with_reducible refine foldl_fst (P := sound _) (fun _ _ _ => ?_) ?_ | with_reducible refine Pad.restoreWins_wf _ _ _ ?_ | with_reducible refine (Pad.rowDead_mem _ _).symm ▸ ?_ | split)

theorem execThrottleUpdate_sound {v} (a0) (s : State) {t} (e : execThrottleUpdate a0 s = .next t) (h : sound v s) : sound v t := by
  unfold execThrottleUpdate at e; injection e with e; subst e; try dsimp only
  repeat' (first | with_reducible assumption | with_reducible refine ite_keep (P := sound _) ?_ ?_ | with_reducible refine State.at_sound _ _ ?_ | with_reducible refine State.modSched_sound _ _ ?_ | with_reducible refine State.judgeThrottle_sound _ ?_ | with_reducible refine State.showThrottle_sound _ ?_ | with_reducible refine foldl_keep (P := sound _) (fun _ _ _ => ?_) ?_ | with_reducible refine foldl_fst (P := sound _) (fun _ _ _ => ?_) ?_ | with_reducible refine Pad.restoreWins_wf _ _ _ ?_ | with_reducible refine (Pad.rowDead_mem _ _).symm ▸ ?_ | split | dsimp only | fail_if_no_progress (rw [sound_mk]; refine sound_of rfl rfl rfl rfl rfl ?_))

theorem execHollyhockEntry_sound {v} (a0) (a1) (s : State) {t} (e : execHollyhockEntry a0 a1 s = .next t) (h : sound v s) : sound v t := by
  unfold execHollyhockEntry at e; injection e with e; subst e; try dsimp only
  repeat' (first | with_reducible assumption | with_reducible refine ite_keep (P := sound _) ?_ ?_ | with_reducible refine State.enterSlot_sound _ _ _ ?_ | with_reducible refine State.modSched_sound _ _ ?_ | with_reducible refine State.dispatch_sound _ _ ?_ | with_reducible refine State.countRaise_sound _ _ _ _ _ ?_ | with_reducible refine State.bump_sound _ _ _ ?_ | with_reducible refine State.forceTest_sound _ _ ?_ | with_reducible refine foldl_keep (P := sound _) (fun _ _ _ => ?_) ?_ | with_reducible refine foldl_fst (P := sound _) (fun _ _ _ => ?_) ?_ | with_reducible refine Pad.restoreWins_wf _ _ _ ?_ | with_reducible refine (Pad.rowDead_mem _ _).symm ▸ ?_ | split)

theorem execGoldenTestComplete_sound {v} (a0) (a1) (a2) (a3) (s : State) {t} (e : execGoldenTestComplete a0 a1 a2 a3 s = .next t) (h : sound v s) : sound v t := by
  unfold execGoldenTestComplete at e; injection e with e; subst e; try dsimp only
  repeat' (first | with_reducible assumption | with_reducible refine ite_keep (P := sound _) ?_ ?_ | with_reducible refine State.modArr_sound _ _ _ ?_ | with_reducible refine State.judgeTest_sound _ _ _ _ ?_ | with_reducible refine State.bump_sound _ _ _ ?_ | with_reducible refine State.turnNext_sound _ ?_ | with_reducible refine State.modSched_sound _ _ ?_ | with_reducible refine State.dispatch_sound _ _ ?_)

theorem execFoxgloveTestPair_sound {v} (a0) (s : State) {t} (e : execFoxgloveTestPair a0 s = .next t) (h : sound v s) : sound v t := by
  unfold execFoxgloveTestPair at e; injection e with e; subst e; try dsimp only
  repeat' (first | with_reducible assumption | with_reducible refine ite_keep (P := sound _) ?_ ?_ | with_reducible refine State.modSafety_sound _ _ ?_ | with_reducible refine State.enterSafe_sound _ _ ?_ | with_reducible refine State.raise_sound _ _ _ _ _ ?_)

theorem execCheckListPoll_sound {v} (a0) (a1) (a2) (s : State) {t} (e : execCheckListPoll a0 a1 a2 s = .next t) (h : sound v s) : sound v t := by
  unfold execCheckListPoll at e; injection e with e; subst e; try dsimp only
  repeat' (first | with_reducible assumption | with_reducible refine ite_keep (P := sound _) ?_ ?_ | with_reducible refine State.at_sound _ _ ?_ | with_reducible refine State.readList_sound _ _ _ ?_ | with_reducible refine State.readList_sound_eq (by assumption) ?_ | with_reducible refine State.modSafety_sound _ _ ?_ | with_reducible refine State.decideVerdict_sound _ ?_)

theorem execCopyCompare_sound {v} (s : State) {t} (e : execCopyCompare s = .next t) (h : sound v s) : sound v t := by
  unfold execCopyCompare at e; injection e with e; subst e; try dsimp only
  repeat' (first | with_reducible assumption | with_reducible refine ite_keep (P := sound _) ?_ ?_ | with_reducible refine State.bump_sound _ _ _ ?_ | with_reducible refine State.decideVerdict_sound _ ?_ | with_reducible refine State.modSafety_sound _ _ ?_ | with_reducible refine foldl_keep (P := sound _) (fun _ _ _ => ?_) ?_ | with_reducible refine foldl_fst (P := sound _) (fun _ _ _ => ?_) ?_ | with_reducible refine Pad.restoreWins_wf _ _ _ ?_ | with_reducible refine (Pad.rowDead_mem _ _).symm ▸ ?_ | split)

theorem execPlausibilityCheck_sound {v} (s : State) {t} (e : execPlausibilityCheck s = .next t) (h : sound v s) : sound v t := by
  unfold execPlausibilityCheck at e; injection e with e; subst e; try dsimp only
  repeat' (first | with_reducible assumption | with_reducible refine ite_keep (P := sound _) ?_ ?_ | with_reducible refine State.bump_sound _ _ _ ?_ | with_reducible refine State.decideVerdict_sound _ ?_ | with_reducible refine State.modSafety_sound _ _ ?_ | with_reducible refine foldl_keep (P := sound _) (fun _ _ _ => ?_) ?_ | with_reducible refine foldl_fst (P := sound _) (fun _ _ _ => ?_) ?_ | with_reducible refine Pad.restoreWins_wf _ _ _ ?_ | with_reducible refine (Pad.rowDead_mem _ _).symm ▸ ?_ | split)

theorem execVerdictLate_sound {v} (a0) (s : State) {t} (e : execVerdictLate a0 s = .next t) (h : sound v s) : sound v t := by
  unfold execVerdictLate at e; injection e with e; subst e; try dsimp only
  repeat' (first | with_reducible assumption | with_reducible refine ite_keep (P := sound _) ?_ ?_ | with_reducible refine State.at_sound _ _ ?_ | with_reducible refine State.registerLast_sound _ _ ?_ | with_reducible refine State.decideVerdict_sound _ ?_ | with_reducible refine State.mariDeadline_sound _ ?_)

theorem execMarigoldSweep_sound {v} (a0) (a1) (a2) (s : State) {t} (e : execMarigoldSweep a0 a1 a2 s = .next t) (h : sound v s) : sound v t := by
  unfold execMarigoldSweep at e; injection e with e; subst e; try dsimp only
  repeat' (first | with_reducible assumption | with_reducible refine ite_keep (P := sound _) ?_ ?_ | with_reducible refine State.at_sound _ _ ?_ | with_reducible refine State.mariRead_sound _ _ _ ?_ | with_reducible refine State.bump_sound _ _ _ ?_ | with_reducible refine State.modSafety_sound _ _ ?_ | with_reducible refine State.countRaise_sound _ _ _ _ _ ?_)

theorem execMarigoldLockstepMismatch_sound {v} (a0) (s : State) {t} (e : execMarigoldLockstepMismatch a0 s = .next t) (h : sound v s) : sound v t := by
  unfold execMarigoldLockstepMismatch at e; injection e with e; subst e; try dsimp only
  repeat' (first | with_reducible assumption | with_reducible refine ite_keep (P := sound _) ?_ ?_ | with_reducible refine State.at_sound _ _ ?_ | with_reducible refine State.restartMarigold_sound _ ?_)

theorem execMarigoldSelfTest_sound {v} (a0) (a1) (s : State) {t} (e : execMarigoldSelfTest a0 a1 s = .next t) (h : sound v s) : sound v t := by
  unfold execMarigoldSelfTest at e; injection e with e; subst e; try dsimp only
  repeat' (first | with_reducible assumption | with_reducible refine ite_keep (P := sound _) ?_ ?_ | with_reducible refine State.modSafety_sound _ _ ?_ | with_reducible refine State.at_sound _ _ ?_ | with_reducible refine State.restartMarigold_sound _ ?_)

theorem execMarigoldBootList_sound {v} (a0) (a1) (a2) (s : State) {t} (e : execMarigoldBootList a0 a1 a2 s = .next t) (h : sound v s) : sound v t := by
  unfold execMarigoldBootList at e; injection e with e; subst e; try dsimp only
  repeat' (first | with_reducible assumption | with_reducible refine ite_keep (P := sound _) ?_ ?_ | with_reducible refine State.quiet_sound _ ?_ | with_reducible refine State.at_sound _ _ ?_ | with_reducible refine State.mariRead_sound _ _ _ ?_ | with_reducible refine State.bump_sound _ _ _ ?_ | with_reducible refine State.setNum_sound _ _ _ ?_ | with_reducible refine State.sendRecord_sound _ _ _ _ ?_ | with_reducible refine foldl_keep (P := sound _) (fun _ _ _ => ?_) ?_ | with_reducible refine foldl_fst (P := sound _) (fun _ _ _ => ?_) ?_ | with_reducible refine Pad.restoreWins_wf _ _ _ ?_ | with_reducible refine (Pad.rowDead_mem _ _).symm ▸ ?_ | split | dsimp only | fail_if_no_progress (rw [sound_mk]; refine sound_of rfl rfl rfl rfl rfl ?_))

theorem execSupervisorKick_sound {v} (a0) (s : State) {t} (e : execSupervisorKick a0 s = .next t) (h : sound v s) : sound v t := by
  unfold execSupervisorKick at e; injection e with e; subst e; try dsimp only
  repeat' (first | with_reducible assumption | with_reducible refine ite_keep (P := sound _) ?_ ?_ | with_reducible refine State.modSafety_sound _ _ ?_ | with_reducible refine State.at_sound _ _ ?_)

theorem execWatchdogTimeout_sound {v} (a0) (s : State) {t} (e : execWatchdogTimeout a0 s = .next t) (h : sound v s) : sound v t := by
  unfold execWatchdogTimeout at e; injection e with e; subst e; try dsimp only
  repeat' (first | with_reducible assumption | with_reducible refine ite_keep (P := sound _) ?_ ?_ | with_reducible refine State.at_sound _ _ ?_ | with_reducible refine State.enterSafe_sound _ _ ?_)

theorem execFaultLine_sound {v} (a0) (a1) (s : State) {t} (e : execFaultLine a0 a1 s = .next t) (h : sound v s) : sound v t := by
  unfold execFaultLine at e; injection e with e; subst e; try dsimp only
  repeat' (first | with_reducible assumption | with_reducible refine ite_keep (P := sound _) ?_ ?_ | with_reducible refine State.modSafety_sound _ _ ?_ | with_reducible refine State.enterSafe_sound _ _ ?_)

theorem execLaunchLineToggle_sound {v} (a0) (s : State) {t} (e : execLaunchLineToggle a0 s = .next t) (h : sound v s) : sound v t := by
  unfold execLaunchLineToggle at e; injection e with e; subst e; try dsimp only
  repeat' (first | with_reducible assumption | with_reducible refine ite_keep (P := sound _) ?_ ?_ | with_reducible refine State.at_sound _ _ ?_ | with_reducible refine State.modSafety_sound _ _ ?_)

theorem execMissingLaunch_sound {v} (a0) (s : State) {t} (e : execMissingLaunch a0 s = .next t) (h : sound v s) : sound v t := by
  unfold execMissingLaunch at e; injection e with e; subst e; try dsimp only
  repeat' (first | with_reducible assumption | with_reducible refine ite_keep (P := sound _) ?_ ?_ | with_reducible refine State.at_sound _ _ ?_ | with_reducible refine State.enterSafe_sound _ _ ?_)

theorem execClockMonitor_sound {v} (a0) (s : State) {t} (e : execClockMonitor a0 s = .next t) (h : sound v s) : sound v t := by
  unfold execClockMonitor at e; injection e with e; subst e; try dsimp only
  repeat' (first | with_reducible assumption | with_reducible refine ite_keep (P := sound _) ?_ ?_ | with_reducible refine State.enterSafe_sound _ _ ?_)

theorem execFaultNReadback_sound {v} (a0) (a1) (s : State) {t} (e : execFaultNReadback a0 a1 s = .next t) (h : sound v s) : sound v t := by
  unfold execFaultNReadback at e; injection e with e; subst e; try dsimp only
  repeat' (first | with_reducible assumption | with_reducible refine ite_keep (P := sound _) ?_ ?_ | with_reducible refine State.enterSafe_sound _ _ ?_ | with_reducible refine State.countRaise_sound _ _ _ _ _ ?_)

theorem execForceFallback_sound {v} (a0) (a1) (s : State) {t} (e : execForceFallback a0 a1 s = .next t) (h : sound v s) : sound v t := by
  unfold execForceFallback at e; injection e with e; subst e; try dsimp only
  repeat' (first | with_reducible assumption | with_reducible refine ite_keep (P := sound _) ?_ ?_ | with_reducible refine State.command_sound _ _ _ _ _ _ _ (fun _ _ => ?_) ?_ | with_reducible refine State.enterFallback_sound _ _ ?_)

theorem execLinkUp_sound {v} (a0) (s : State) {t} (e : execLinkUp a0 s = .next t) (h : sound v s) : sound v t := by
  unfold execLinkUp at e; injection e with e; subst e; try dsimp only
  repeat' (first | with_reducible assumption | with_reducible refine ite_keep (P := sound _) ?_ ?_ | with_reducible refine State.fixDelay_sound _ _ ?_ | with_reducible refine State.raise_sound _ _ _ _ _ ?_ | with_reducible refine State.setLink_sound _ _ _ ?_ | with_reducible refine State.modHead_sound _ _ _ ?_ | with_reducible refine State.modNet_sound _ _ ?_ | with_reducible refine foldl_keep (P := sound _) (fun _ _ _ => ?_) ?_ | with_reducible refine foldl_fst (P := sound _) (fun _ _ _ => ?_) ?_ | with_reducible refine Pad.restoreWins_wf _ _ _ ?_ | with_reducible refine (Pad.rowDead_mem _ _).symm ▸ ?_ | split)

theorem execLinkDown_sound {v} (a0) (s : State) {t} (e : execLinkDown a0 s = .next t) (h : sound v s) : sound v t := by
  unfold execLinkDown at e; injection e with e; subst e; try dsimp only
  repeat' (first | with_reducible assumption | with_reducible refine ite_keep (P := sound _) ?_ ?_ | with_reducible refine State.countRaise_sound _ _ _ _ _ ?_ | with_reducible refine State.modNet_sound _ _ ?_ | with_reducible refine State.setLink_sound _ _ _ ?_ | with_reducible refine State.qFlush_sound _ _ ?_ | with_reducible refine State.mirrorDown_sound _ _ ?_ | with_reducible refine State.modHost_sound _ _ _ ?_ | with_reducible refine State.raise_sound _ _ _ _ _ ?_ | with_reducible refine State.qEmpty_sound _ _ ?_ | with_reducible refine foldl_keep (P := sound _) (fun _ _ _ => ?_) ?_ | with_reducible refine foldl_fst (P := sound _) (fun _ _ _ => ?_) ?_ | with_reducible refine Pad.restoreWins_wf _ _ _ ?_ | with_reducible refine (Pad.rowDead_mem _ _).symm ▸ ?_ | split | dsimp only | fail_if_no_progress (rw [sound_mk]; refine sound_of rfl rfl rfl rfl rfl ?_))

theorem execHostFrameReceive_sound {v} (a0) (a1) (a2) (a3) (s : State) {t} (e : execHostFrameReceive a0 a1 a2 a3 s = .next t) (h : sound v s) : sound v t := by
  unfold execHostFrameReceive at e; injection e with e; subst e; try dsimp only
  repeat' (first | with_reducible assumption | with_reducible refine ite_keep (P := sound _) ?_ ?_ | with_reducible refine State.at_sound _ _ ?_ | with_reducible refine State.bump_sound _ _ _ ?_ | with_reducible refine State.qPush_sound _ _ _ ?_ | with_reducible refine State.qPush_sound_eq (by assumption) ?_ | with_reducible refine State.qPop_sound _ _ _ ?_ | with_reducible refine State.qPop_sound_eq (by assumption) ?_ | with_reducible refine State.hostTake_sound _ _ _ ?_ | with_reducible refine foldl_keep (P := sound _) (fun _ _ _ => ?_) ?_ | with_reducible refine foldl_fst (P := sound _) (fun _ _ _ => ?_) ?_ | with_reducible refine Pad.restoreWins_wf _ _ _ ?_ | with_reducible refine (Pad.rowDead_mem _ _).symm ▸ ?_ | split)

theorem execArpRequest_sound {v} (a0) (a1) (s : State) {t} (e : execArpRequest a0 a1 s = .next t) (h : sound v s) : sound v t := by
  unfold execArpRequest at e; injection e with e; subst e; try dsimp only
  repeat' (first | with_reducible assumption | with_reducible refine ite_keep (P := sound _) ?_ ?_ | with_reducible refine State.quiet_sound _ ?_ | with_reducible refine State.hostSend_sound _ _ _ ?_ | with_reducible refine State.learn_sound _ _ _ _ ?_ | with_reducible refine foldl_keep (P := sound _) (fun _ _ _ => ?_) ?_ | with_reducible refine foldl_fst (P := sound _) (fun _ _ _ => ?_) ?_ | with_reducible refine Pad.restoreWins_wf _ _ _ ?_ | with_reducible refine (Pad.rowDead_mem _ _).symm ▸ ?_ | split)

theorem execIcmpEcho_sound {v} (a0) (a1) (s : State) {t} (e : execIcmpEcho a0 a1 s = .next t) (h : sound v s) : sound v t := by
  unfold execIcmpEcho at e; injection e with e; subst e; try dsimp only
  repeat' (first | with_reducible assumption | with_reducible refine ite_keep (P := sound _) ?_ ?_ | with_reducible refine State.quiet_sound _ ?_ | with_reducible refine State.sendOn_sound _ _ _ _ _ _ _ _ _ ?_ | with_reducible refine State.learn_sound _ _ _ _ ?_ | with_reducible refine foldl_keep (P := sound _) (fun _ _ _ => ?_) ?_ | with_reducible refine foldl_fst (P := sound _) (fun _ _ _ => ?_) ?_ | with_reducible refine Pad.restoreWins_wf _ _ _ ?_ | with_reducible refine (Pad.rowDead_mem _ _).symm ▸ ?_ | split)

theorem execSyncReceive_sound {v} (a0) (a1) (s : State) {t} (e : execSyncReceive a0 a1 s = .next t) (h : sound v s) : sound v t := by
  unfold execSyncReceive at e; injection e with e; subst e; try dsimp only
  repeat' (first | with_reducible assumption | with_reducible refine ite_keep (P := sound _) ?_ ?_ | with_reducible refine State.modPort_sound _ _ _ ?_ | with_reducible refine State.at_sound _ _ ?_ | with_reducible refine State.slaveSync_sound _ _ _ ?_)

theorem execSyncSend_sound {v} (a0) (a1) (s : State) {t} (e : execSyncSend a0 a1 s = .next t) (h : sound v s) : sound v t := by
  unfold execSyncSend at e; injection e with e; subst e; try dsimp only
  repeat' (first | with_reducible assumption | with_reducible refine ite_keep (P := sound _) ?_ ?_ | with_reducible refine State.quiet_sound _ ?_ | with_reducible refine State.at_sound _ _ ?_ | with_reducible refine State.sendGptp_sound _ _ _ _ ?_)

theorem execPdelayRequestSend_sound {v} (a0) (a1) (s : State) {t} (e : execPdelayRequestSend a0 a1 s = .next t) (h : sound v s) : sound v t := by
  unfold execPdelayRequestSend at e; injection e with e; subst e; try dsimp only
  repeat' (first | with_reducible assumption | with_reducible refine ite_keep (P := sound _) ?_ ?_ | with_reducible refine State.quiet_sound _ ?_ | with_reducible refine State.at_sound _ _ ?_ | with_reducible refine State.sendGptp_sound _ _ _ _ ?_)

theorem execPdelayRequestReceive_sound {v} (a0) (a1) (s : State) {t} (e : execPdelayRequestReceive a0 a1 s = .next t) (h : sound v s) : sound v t := by
  unfold execPdelayRequestReceive at e; injection e with e; subst e; try dsimp only
  repeat' (first | with_reducible assumption | with_reducible refine ite_keep (P := sound _) ?_ ?_ | with_reducible refine State.quiet_sound _ ?_ | with_reducible refine State.at_sound _ _ ?_ | with_reducible refine State.sendGptp_sound _ _ _ _ ?_)

theorem execSyncTimeout_sound {v} (a0) (s : State) {t} (e : execSyncTimeout a0 s = .next t) (h : sound v s) : sound v t := by
  unfold execSyncTimeout at e; injection e with e; subst e; try dsimp only
  repeat' (first | with_reducible assumption | with_reducible refine ite_keep (P := sound _) ?_ ?_ | with_reducible refine State.at_sound _ _ ?_ | with_reducible refine State.raise_sound _ _ _ _ _ ?_ | with_reducible refine State.modTime_sound _ _ ?_ | with_reducible refine State.setNum_sound _ _ _ ?_ | with_reducible refine State.setTimeState_sound _ _ ?_ | with_reducible refine foldl_keep (P := sound _) (fun _ _ _ => ?_) ?_ | with_reducible refine foldl_fst (P := sound _) (fun _ _ _ => ?_) ?_ | with_reducible refine Pad.restoreWins_wf _ _ _ ?_ | with_reducible refine (Pad.rowDead_mem _ _).symm ▸ ?_ | split)

theorem execSyncWaitExpire_sound {v} (a0) (s : State) {t} (e : execSyncWaitExpire a0 s = .next t) (h : sound v s) : sound v t := by
  unfold execSyncWaitExpire at e; injection e with e; subst e; try dsimp only
  repeat' (first | with_reducible assumption | with_reducible refine ite_keep (P := sound _) ?_ ?_ | with_reducible refine State.at_sound _ _ ?_ | with_reducible refine State.permit_sound _ ?_)

theorem execPpsOutRise_sound {v} (a0) (s : State) {t} (e : execPpsOutRise a0 s = .next t) (h : sound v s) : sound v t := by
  unfold execPpsOutRise at e; injection e with e; subst e; try dsimp only
  repeat' (first | with_reducible assumption | with_reducible refine ite_keep (P := sound _) ?_ ?_ | with_reducible refine State.at_sound _ _ ?_ | with_reducible refine State.modTime_sound _ _ ?_)

theorem execPpsInEdge_sound {v} (a0) (s : State) {t} (e : execPpsInEdge a0 s = .next t) (h : sound v s) : sound v t := by
  unfold execPpsInEdge at e; injection e with e; subst e; try dsimp only
  repeat' (first | with_reducible assumption | with_reducible refine ite_keep (P := sound _) ?_ ?_ | with_reducible refine State.setOct_sound _ _ _ ?_ | with_reducible refine State.at_sound _ _ ?_)

theorem execTc10SleepRequest_sound {v} (s : State) {t} (e : execTc10SleepRequest s = .next t) (h : sound v s) : sound v t := by
  unfold execTc10SleepRequest at e; injection e with e; subst e; try dsimp only
  repeat' (first | with_reducible assumption | with_reducible refine ite_keep (P := sound _) ?_ ?_ | with_reducible refine State.setNum_sound _ _ _ ?_ | with_reducible refine State.shutDown_sound _ _ ?_ | with_reducible refine State.raise_sound _ _ _ _ _ ?_)

theorem execTc10Wake_sound {v} (s : State) {t} (e : execTc10Wake s = .next t) (h : sound v s) : sound v t := by
  unfold execTc10Wake at e; injection e with e; subst e; try dsimp only
  repeat' (first | with_reducible assumption | with_reducible refine ite_keep (P := sound _) ?_ ?_ | with_reducible refine State.leaveStandby_sound _ _ ?_ | with_reducible refine State.modPower_sound _ _ ?_ | with_reducible refine foldl_keep (P := sound _) (fun _ _ _ => ?_) ?_ | with_reducible refine foldl_fst (P := sound _) (fun _ _ _ => ?_) ?_ | with_reducible refine Pad.restoreWins_wf _ _ _ ?_ | with_reducible refine (Pad.rowDead_mem _ _).symm ▸ ?_ | split)

theorem execHapOpen_sound {v} (a0) (s : State) {t} (e : execHapOpen a0 s = .next t) (h : sound v s) : sound v t := by
  unfold execHapOpen at e; injection e with e; subst e; try dsimp only
  repeat' (first | with_reducible assumption | with_reducible refine ite_keep (P := sound _) ?_ ?_ | with_reducible refine State.quiet_sound _ ?_ | with_reducible refine State.at_sound _ _ ?_ | with_reducible refine State.sendReply_sound _ _ _ _ _ _ ?_ | with_reducible refine State.bump_sound _ _ _ ?_ | with_reducible refine State.raise_sound _ _ _ _ _ ?_ | with_reducible refine State.drawn_sound _ ?_ | with_reducible refine foldl_keep (P := sound _) (fun _ _ _ => ?_) ?_ | with_reducible refine foldl_fst (P := sound _) (fun _ _ _ => ?_) ?_ | with_reducible refine Pad.restoreWins_wf _ _ _ ?_ | with_reducible refine (Pad.rowDead_mem _ _).symm ▸ ?_ | split | dsimp only | fail_if_no_progress (rw [sound_mk]; refine sound_of rfl rfl rfl rfl rfl ?_))

theorem execHapClose_sound {v} (a0) (s : State) {t} (e : execHapClose a0 s = .next t) (h : sound v s) : sound v t := by
  unfold execHapClose at e; injection e with e; subst e; try dsimp only
  repeat' (first | with_reducible assumption | with_reducible refine ite_keep (P := sound _) ?_ ?_ | with_reducible refine State.hapRequest_sound _ _ _ _ _ (fun _ _ _ => ?_) ?_ | with_reducible refine State.endSession_sound _ _ ?_ | with_reducible refine foldl_keep (P := sound _) (fun _ _ _ => ?_) ?_ | with_reducible refine foldl_fst (P := sound _) (fun _ _ _ => ?_) ?_ | with_reducible refine Pad.restoreWins_wf _ _ _ ?_ | with_reducible refine (Pad.rowDead_mem _ _).symm ▸ ?_ | split)

theorem execHapPing_sound {v} (a0) (s : State) {t} (e : execHapPing a0 s = .next t) (h : sound v s) : sound v t := by
  unfold execHapPing at e; injection e with e; subst e; try dsimp only
  repeat' (first | with_reducible assumption | with_reducible refine ite_keep (P := sound _) ?_ ?_ | with_reducible refine State.hapRequest_sound _ _ _ _ _ (fun _ _ _ => ?_) ?_)

theorem execHapRead_sound {v} (a0) (s : State) {t} (e : execHapRead a0 s = .next t) (h : sound v s) : sound v t := by
  unfold execHapRead at e; injection e with e; subst e; try dsimp only
  repeat' (first | with_reducible assumption | with_reducible refine ite_keep (P := sound _) ?_ ?_ | with_reducible refine State.hapRequest_sound _ _ _ _ _ (fun _ _ _ => ?_) ?_ | with_reducible refine foldl_keep (P := sound _) (fun _ _ _ => ?_) ?_ | with_reducible refine foldl_fst (P := sound _) (fun _ _ _ => ?_) ?_ | with_reducible refine Pad.restoreWins_wf _ _ _ ?_ | with_reducible refine (Pad.rowDead_mem _ _).symm ▸ ?_ | split)

theorem execHapWrite_sound {v} (a0) (s : State) {t} (e : execHapWrite a0 s = .next t) (h : sound v s) : sound v t := by
  unfold execHapWrite at e; injection e with e; subst e; try dsimp only
  repeat' (first | with_reducible assumption | with_reducible refine ite_keep (P := sound _) ?_ ?_ | with_reducible refine State.hapRequest_sound _ _ _ _ _ (fun _ _ _ => ?_) ?_ | with_reducible refine State.write_sound _ _ _ ?_ | with_reducible refine State.write_sound_eq (by assumption) ?_ | with_reducible refine State.raise_sound _ _ _ _ _ ?_ | with_reducible refine foldl_keep (P := sound _) (fun _ _ _ => ?_) ?_ | with_reducible refine foldl_fst (P := sound _) (fun _ _ _ => ?_) ?_ | with_reducible refine Pad.restoreWins_wf _ _ _ ?_ | with_reducible refine (Pad.rowDead_mem _ _).symm ▸ ?_ | split)

theorem execHapDescribe_sound {v} (a0) (s : State) {t} (e : execHapDescribe a0 s = .next t) (h : sound v s) : sound v t := by
  unfold execHapDescribe at e; injection e with e; subst e; try dsimp only
  repeat' (first | with_reducible assumption | with_reducible refine ite_keep (P := sound _) ?_ ?_ | with_reducible refine State.hapRequest_sound _ _ _ _ _ (fun _ _ _ => ?_) ?_ | with_reducible refine foldl_keep (P := sound _) (fun _ _ _ => ?_) ?_ | with_reducible refine foldl_fst (P := sound _) (fun _ _ _ => ?_) ?_ | with_reducible refine Pad.restoreWins_wf _ _ _ ?_ | with_reducible refine (Pad.rowDead_mem _ _).symm ▸ ?_ | split)

theorem execHapList_sound {v} (a0) (s : State) {t} (e : execHapList a0 s = .next t) (h : sound v s) : sound v t := by
  unfold execHapList at e; injection e with e; subst e; try dsimp only
  repeat' (first | with_reducible assumption | with_reducible refine ite_keep (P := sound _) ?_ ?_ | with_reducible refine State.hapRequest_sound _ _ _ _ _ (fun _ _ _ => ?_) ?_ | with_reducible refine foldl_keep (P := sound _) (fun _ _ _ => ?_) ?_ | with_reducible refine foldl_fst (P := sound _) (fun _ _ _ => ?_) ?_ | with_reducible refine Pad.restoreWins_wf _ _ _ ?_ | with_reducible refine (Pad.rowDead_mem _ _).symm ▸ ?_ | split)

theorem execBlobRead_sound {v} (a0) (s : State) {t} (e : execBlobRead a0 s = .next t) (h : sound v s) : sound v t := by
  unfold execBlobRead at e; injection e with e; subst e; try dsimp only
  repeat' (first | with_reducible assumption | with_reducible refine ite_keep (P := sound _) ?_ ?_ | with_reducible refine State.hapRequest_sound _ _ _ _ _ (fun _ _ _ => ?_) ?_ | with_reducible refine State.blobValue_sound _ _ _ _ _ ?_ | with_reducible refine State.blobValue_sound_eq (by assumption) ?_ | with_reducible refine State.takeSnapshot_sound _ _ _ _ _ ?_ | with_reducible refine State.takeSnapshot_sound_eq (by assumption) ?_ | with_reducible refine State.servePiece_sound _ _ _ _ _ ?_ | with_reducible refine State.servePiece_sound_eq (by assumption) ?_ | with_reducible refine foldl_keep (P := sound _) (fun _ _ _ => ?_) ?_ | with_reducible refine foldl_fst (P := sound _) (fun _ _ _ => ?_) ?_ | with_reducible refine Pad.restoreWins_wf _ _ _ ?_ | with_reducible refine (Pad.rowDead_mem _ _).symm ▸ ?_ | split)

theorem execBlobBegin_sound {v} (a0) (s : State) {t} (e : execBlobBegin a0 s = .next t) (h : sound v s) : sound v t := by
  unfold execBlobBegin at e; injection e with e; subst e; try dsimp only
  repeat' (first | with_reducible assumption | with_reducible refine ite_keep (P := sound _) ?_ ?_ | with_reducible refine State.hapRequest_sound _ _ _ _ _ (fun _ _ _ => ?_) ?_ | with_reducible refine State.modSession_sound _ _ _ ?_ | with_reducible refine foldl_keep (P := sound _) (fun _ _ _ => ?_) ?_ | with_reducible refine foldl_fst (P := sound _) (fun _ _ _ => ?_) ?_ | with_reducible refine Pad.restoreWins_wf _ _ _ ?_ | with_reducible refine (Pad.rowDead_mem _ _).symm ▸ ?_ | split)

theorem execBlobSegment_sound {v} (a0) (s : State) {t} (e : execBlobSegment a0 s = .next t) (h : sound v s) : sound v t := by
  unfold execBlobSegment at e; injection e with e; subst e; try dsimp only
  repeat' (first | with_reducible assumption | with_reducible refine ite_keep (P := sound _) ?_ ?_ | with_reducible refine State.hapRequest_sound _ _ _ _ _ (fun _ _ _ => ?_) ?_ | with_reducible refine State.dramPut_sound _ _ _ ?_ | with_reducible refine State.modSession_sound _ _ _ ?_ | with_reducible refine foldl_keep (P := sound _) (fun _ _ _ => ?_) ?_ | with_reducible refine foldl_fst (P := sound _) (fun _ _ _ => ?_) ?_ | with_reducible refine Pad.restoreWins_wf _ _ _ ?_ | with_reducible refine (Pad.rowDead_mem _ _).symm ▸ ?_ | split)

theorem execBlobEnd_sound {v} (a0) (s : State) {t} (e : execBlobEnd a0 s = .next t) (h : sound v s) : sound v t := by
  unfold execBlobEnd at e; injection e with e; subst e; try dsimp only
  repeat' (first | with_reducible assumption | with_reducible refine ite_keep (P := sound _) ?_ ?_ | with_reducible refine State.hapRequest_sound _ _ _ _ _ (fun _ _ _ => ?_) ?_ | with_reducible refine State.modSession_sound _ _ _ ?_ | with_reducible refine State.dramGet_sound _ _ _ _ ?_ | with_reducible refine State.dramGet_sound_eq (by assumption) ?_ | with_reducible refine State.writeBlob_sound _ _ _ _ _ ?_ | with_reducible refine State.writeBlob_sound_eq (by assumption) ?_ | with_reducible refine foldl_keep (P := sound _) (fun _ _ _ => ?_) ?_ | with_reducible refine foldl_fst (P := sound _) (fun _ _ _ => ?_) ?_ | with_reducible refine Pad.restoreWins_wf _ _ _ ?_ | with_reducible refine (Pad.rowDead_mem _ _).symm ▸ ?_ | split)

theorem execBlobAbort_sound {v} (a0) (s : State) {t} (e : execBlobAbort a0 s = .next t) (h : sound v s) : sound v t := by
  unfold execBlobAbort at e; injection e with e; subst e; try dsimp only
  repeat' (first | with_reducible assumption | with_reducible refine ite_keep (P := sound _) ?_ ?_ | with_reducible refine State.hapRequest_sound _ _ _ _ _ (fun _ _ _ => ?_) ?_ | with_reducible refine State.modSession_sound _ _ _ ?_ | with_reducible refine foldl_keep (P := sound _) (fun _ _ _ => ?_) ?_ | with_reducible refine foldl_fst (P := sound _) (fun _ _ _ => ?_) ?_ | with_reducible refine Pad.restoreWins_wf _ _ _ ?_ | with_reducible refine (Pad.rowDead_mem _ _).symm ▸ ?_ | split)

theorem execBlobTransferTimeout_sound {v} (a0) (a1) (s : State) {t} (e : execBlobTransferTimeout a0 a1 s = .next t) (h : sound v s) : sound v t := by
  unfold execBlobTransferTimeout at e; injection e with e; subst e; try dsimp only
  repeat' (first | with_reducible assumption | with_reducible refine ite_keep (P := sound _) ?_ ?_ | with_reducible refine State.at_sound _ _ ?_ | with_reducible refine State.countRaise_sound _ _ _ _ _ ?_ | with_reducible refine State.modSession_sound _ _ _ ?_ | with_reducible refine foldl_keep (P := sound _) (fun _ _ _ => ?_) ?_ | with_reducible refine foldl_fst (P := sound _) (fun _ _ _ => ?_) ?_ | with_reducible refine Pad.restoreWins_wf _ _ _ ?_ | with_reducible refine (Pad.rowDead_mem _ _).symm ▸ ?_ | split)

theorem execBlobSnapshotExpire_sound {v} (a0) (a1) (s : State) {t} (e : execBlobSnapshotExpire a0 a1 s = .next t) (h : sound v s) : sound v t := by
  unfold execBlobSnapshotExpire at e; injection e with e; subst e; try dsimp only
  repeat' (first | with_reducible assumption | with_reducible refine ite_keep (P := sound _) ?_ ?_ | with_reducible refine State.at_sound _ _ ?_ | with_reducible refine State.modSession_sound _ _ _ ?_ | with_reducible refine foldl_keep (P := sound _) (fun _ _ _ => ?_) ?_ | with_reducible refine foldl_fst (P := sound _) (fun _ _ _ => ?_) ?_ | with_reducible refine Pad.restoreWins_wf _ _ _ ?_ | with_reducible refine (Pad.rowDead_mem _ _).symm ▸ ?_ | split)

end Sys2Proof.Machine
end

