-- ==== Sys2Proof/Laws/Sound11.lean ====
section
/-! SUPPORT. What operations and meanings keep, part 12 of 12: the queue of waiting commands, every parser engine as R55 and R59 have it, and the
canonical form of every byte memory (`sound`). Callees come before their callers, so a lemma cites those of the operations it unfolds to. -/

namespace Sys2Proof.Machine

theorem execUnlockChallenge_sound {v} (a0) (s : State) {t} (e : execUnlockChallenge a0 s = .next t) (h : sound v s) : sound v t := by
  unfold execUnlockChallenge at e; injection e with e; subst e; try dsimp only
  repeat' (first | with_reducible assumption | with_reducible refine ite_keep (P := sound _) ?_ ?_ | with_reducible refine State.hapRequest_sound _ _ _ _ _ (fun _ _ _ => ?_) ?_ | with_reducible refine State.modSession_sound _ _ _ ?_ | with_reducible refine State.drawn_sound _ ?_ | with_reducible refine foldl_keep (P := sound _) (fun _ _ _ => ?_) ?_ | with_reducible refine foldl_fst (P := sound _) (fun _ _ _ => ?_) ?_ | with_reducible refine Pad.restoreWins_wf _ _ _ ?_ | with_reducible refine (Pad.rowDead_mem _ _).symm ▸ ?_ | split)

theorem execUnlockResponse_sound {v} (a0) (s : State) {t} (e : execUnlockResponse a0 s = .next t) (h : sound v s) : sound v t := by
  unfold execUnlockResponse at e; injection e with e; subst e; try dsimp only
  repeat' (first | with_reducible assumption | with_reducible refine ite_keep (P := sound _) ?_ ?_ | with_reducible refine State.hapRequest_sound _ _ _ _ _ (fun _ _ _ => ?_) ?_ | with_reducible refine State.modSession_sound _ _ _ ?_ | with_reducible refine State.unlockFailed_sound _ ?_ | with_reducible refine State.grant_sound _ _ _ _ _ ?_ | with_reducible refine State.grant_sound_eq (by assumption) ?_ | with_reducible refine foldl_keep (P := sound _) (fun _ _ _ => ?_) ?_ | with_reducible refine foldl_fst (P := sound _) (fun _ _ _ => ?_) ?_ | with_reducible refine Pad.restoreWins_wf _ _ _ ?_ | with_reducible refine (Pad.rowDead_mem _ _).symm ▸ ?_ | split)

theorem execLock_sound {v} (a0) (s : State) {t} (e : execLock a0 s = .next t) (h : sound v s) : sound v t := by
  unfold execLock at e; injection e with e; subst e; try dsimp only
  repeat' (first | with_reducible assumption | with_reducible refine ite_keep (P := sound _) ?_ ?_ | with_reducible refine State.hapRequest_sound _ _ _ _ _ (fun _ _ _ => ?_) ?_ | with_reducible refine State.dropLevel_sound _ _ ?_ | with_reducible refine foldl_keep (P := sound _) (fun _ _ _ => ?_) ?_ | with_reducible refine foldl_fst (P := sound _) (fun _ _ _ => ?_) ?_ | with_reducible refine Pad.restoreWins_wf _ _ _ ?_ | with_reducible refine (Pad.rowDead_mem _ _).symm ▸ ?_ | split)

theorem execSubscribe_sound {v} (a0) (s : State) {t} (e : execSubscribe a0 s = .next t) (h : sound v s) : sound v t := by
  unfold execSubscribe at e; injection e with e; subst e; try dsimp only
  repeat' (first | with_reducible assumption | with_reducible refine ite_keep (P := sound _) ?_ ?_ | with_reducible refine State.hapRequest_sound _ _ _ _ _ (fun _ _ _ => ?_) ?_ | with_reducible refine State.modSession_sound _ _ _ ?_ | with_reducible refine foldl_keep (P := sound _) (fun _ _ _ => ?_) ?_ | with_reducible refine foldl_fst (P := sound _) (fun _ _ _ => ?_) ?_ | with_reducible refine Pad.restoreWins_wf _ _ _ ?_ | with_reducible refine (Pad.rowDead_mem _ _).symm ▸ ?_ | split)

theorem execUnsubscribe_sound {v} (a0) (s : State) {t} (e : execUnsubscribe a0 s = .next t) (h : sound v s) : sound v t := by
  unfold execUnsubscribe at e; injection e with e; subst e; try dsimp only
  repeat' (first | with_reducible assumption | with_reducible refine ite_keep (P := sound _) ?_ ?_ | with_reducible refine State.hapRequest_sound _ _ _ _ _ (fun _ _ _ => ?_) ?_ | with_reducible refine State.modSession_sound _ _ _ ?_ | with_reducible refine foldl_keep (P := sound _) (fun _ _ _ => ?_) ?_ | with_reducible refine foldl_fst (P := sound _) (fun _ _ _ => ?_) ?_ | with_reducible refine Pad.restoreWins_wf _ _ _ ?_ | with_reducible refine (Pad.rowDead_mem _ _).symm ▸ ?_ | split)

theorem execResultRead_sound {v} (a0) (s : State) {t} (e : execResultRead a0 s = .next t) (h : sound v s) : sound v t := by
  unfold execResultRead at e; injection e with e; subst e; try dsimp only
  repeat' (first | with_reducible assumption | with_reducible refine ite_keep (P := sound _) ?_ ?_ | with_reducible refine State.hapRequest_sound _ _ _ _ _ (fun _ _ _ => ?_) ?_ | with_reducible refine State.servePiece_sound _ _ _ _ _ ?_ | with_reducible refine State.servePiece_sound_eq (by assumption) ?_ | with_reducible refine State.modSession_sound _ _ _ ?_ | with_reducible refine State.readResult_sound _ _ ?_ | with_reducible refine State.readResult_sound_eq (by assumption) ?_ | with_reducible refine State.takeSnapshot_sound _ _ _ _ _ ?_ | with_reducible refine State.takeSnapshot_sound_eq (by assumption) ?_ | with_reducible refine foldl_keep (P := sound _) (fun _ _ _ => ?_) ?_ | with_reducible refine foldl_fst (P := sound _) (fun _ _ _ => ?_) ?_ | with_reducible refine Pad.restoreWins_wf _ _ _ ?_ | with_reducible refine (Pad.rowDead_mem _ _).symm ▸ ?_ | split)

theorem execEventNotify_sound {v} (a0) (a1) (s : State) {t} (e : execEventNotify a0 a1 s = .next t) (h : sound v s) : sound v t := by
  unfold execEventNotify at e; injection e with e; subst e; try dsimp only
  repeat' (first | with_reducible assumption | with_reducible refine ite_keep (P := sound _) ?_ ?_ | with_reducible refine State.quiet_sound _ ?_ | with_reducible refine State.at_sound _ _ ?_ | with_reducible refine State.modSession_sound _ _ _ ?_ | with_reducible refine State.notify_sound _ _ _ _ ?_ | with_reducible refine foldl_keep (P := sound _) (fun _ _ _ => ?_) ?_ | with_reducible refine foldl_fst (P := sound _) (fun _ _ _ => ?_) ?_ | with_reducible refine Pad.restoreWins_wf _ _ _ ?_ | with_reducible refine (Pad.rowDead_mem _ _).symm ▸ ?_ | split)

theorem execSessionTimeout_sound {v} (a0) (a1) (s : State) {t} (e : execSessionTimeout a0 a1 s = .next t) (h : sound v s) : sound v t := by
  unfold execSessionTimeout at e; injection e with e; subst e; try dsimp only
  repeat' (first | with_reducible assumption | with_reducible refine ite_keep (P := sound _) ?_ ?_ | with_reducible refine State.at_sound _ _ ?_ | with_reducible refine State.endSession_sound _ _ ?_ | with_reducible refine State.raise_sound _ _ _ _ _ ?_ | with_reducible refine foldl_keep (P := sound _) (fun _ _ _ => ?_) ?_ | with_reducible refine foldl_fst (P := sound _) (fun _ _ _ => ?_) ?_ | with_reducible refine Pad.restoreWins_wf _ _ _ ?_ | with_reducible refine (Pad.rowDead_mem _ _).symm ▸ ?_ | split)

theorem execSrvClear_sound {v} (a0) (a1) (s : State) {t} (e : execSrvClear a0 a1 s = .next t) (h : sound v s) : sound v t := by
  unfold execSrvClear at e; injection e with e; subst e; try dsimp only
  repeat' (first | with_reducible assumption | with_reducible refine ite_keep (P := sound _) ?_ ?_ | with_reducible refine State.command_sound _ _ _ _ _ _ _ (fun _ _ => ?_) ?_ | with_reducible refine srvEffect_sound _ ?_)

theorem execUpdateGate_sound {v} (a0) (a1) (s : State) {t} (e : execUpdateGate a0 a1 s = .next t) (h : sound v s) : sound v t := by
  unfold execUpdateGate at e; injection e with e; subst e; try dsimp only
  repeat' (first | with_reducible assumption | with_reducible refine ite_keep (P := sound _) ?_ ?_ | with_reducible refine State.command_sound _ _ _ _ _ _ _ (fun _ _ => ?_) ?_ | with_reducible refine gateEffect_sound _ _ ?_)

theorem execUpdateGateExpire_sound {v} (a0) (s : State) {t} (e : execUpdateGateExpire a0 s = .next t) (h : sound v s) : sound v t := by
  unfold execUpdateGateExpire at e; injection e with e; subst e; try dsimp only
  repeat' (first | with_reducible assumption | with_reducible refine ite_keep (P := sound _) ?_ ?_ | with_reducible refine State.at_sound _ _ ?_ | with_reducible refine State.setNum_sound _ _ _ ?_)

theorem execActivate_sound {v} (a0) (a1) (a2) (s : State) {t} (e : execActivate a0 a1 a2 s = .next t) (h : sound v s) : sound v t := by
  unfold execActivate at e; injection e with e; subst e; try dsimp only
  repeat' (first | with_reducible assumption | with_reducible refine ite_keep (P := sound _) ?_ ?_ | with_reducible refine State.command_sound _ _ _ _ _ _ _ (fun _ _ => ?_) ?_ | with_reducible refine activateEffect_sound _ _ ?_)

theorem execDiscard_sound {v} (a0) (a1) (s : State) {t} (e : execDiscard a0 a1 s = .next t) (h : sound v s) : sound v t := by
  unfold execDiscard at e; injection e with e; subst e; try dsimp only
  repeat' (first | with_reducible assumption | with_reducible refine ite_keep (P := sound _) ?_ ?_ | with_reducible refine State.command_sound _ _ _ _ _ _ _ (fun _ _ => ?_) ?_ | with_reducible refine discardEffect_sound _ ?_)

theorem execComponentEffect_sound {v} (a0) (s : State) {t} (e : execComponentEffect a0 s = .next t) (h : sound v s) : sound v t := by
  unfold execComponentEffect at e; injection e with e; subst e; try dsimp only
  repeat' (first | with_reducible assumption | with_reducible refine ite_keep (P := sound _) ?_ ?_ | with_reducible refine State.at_sound _ _ ?_ | with_reducible refine State.finishStage_sound _ ?_)

theorem execLcRequest_sound {v} (a0) (a1) (s : State) {t} (e : execLcRequest a0 a1 s = .next t) (h : sound v s) : sound v t := by
  unfold execLcRequest at e; injection e with e; subst e; try dsimp only
  repeat' (first | with_reducible assumption | with_reducible refine ite_keep (P := sound _) ?_ ?_ | with_reducible refine State.command_sound _ _ _ _ _ _ _ (fun _ _ => ?_) ?_ | with_reducible refine State.beginWipe_sound _ _ ?_)

theorem execHeldTransitionRelease_sound {v} (a0) (s : State) {t} (e : execHeldTransitionRelease a0 s = .next t) (h : sound v s) : sound v t := by
  unfold execHeldTransitionRelease at e; injection e with e; subst e; try dsimp only
  repeat' (first | with_reducible assumption | with_reducible refine ite_keep (P := sound _) ?_ ?_ | with_reducible refine State.at_sound _ _ ?_ | with_reducible refine State.syncLife_sound _ ?_)

theorem execVendorExpiry_sound {v} (a0) (a1) (s : State) {t} (e : execVendorExpiry a0 a1 s = .next t) (h : sound v s) : sound v t := by
  unfold execVendorExpiry at e; injection e with e; subst e; try dsimp only
  repeat' (first | with_reducible assumption | with_reducible refine ite_keep (P := sound _) ?_ ?_ | with_reducible refine State.at_sound _ _ ?_ | with_reducible refine State.dropLevel_sound _ _ ?_ | with_reducible refine foldl_keep (P := sound _) (fun _ _ _ => ?_) ?_ | with_reducible refine foldl_fst (P := sound _) (fun _ _ _ => ?_) ?_ | with_reducible refine Pad.restoreWins_wf _ _ _ ?_ | with_reducible refine (Pad.rowDead_mem _ _).symm ▸ ?_ | split)

theorem execLockoutExpiry_sound {v} (a0) (s : State) {t} (e : execLockoutExpiry a0 s = .next t) (h : sound v s) : sound v t := by
  unfold execLockoutExpiry at e; injection e with e; subst e; try dsimp only
  repeat' (first | with_reducible assumption | with_reducible refine ite_keep (P := sound _) ?_ ?_ | with_reducible refine State.at_sound _ _ ?_ | with_reducible refine State.modSec_sound _ _ ?_)

theorem execAttestNonce_sound {v} (a0) (a1) (s : State) {t} (e : execAttestNonce a0 a1 s = .next t) (h : sound v s) : sound v t := by
  unfold execAttestNonce at e; injection e with e; subst e; try dsimp only
  repeat' (first | with_reducible assumption | with_reducible refine ite_keep (P := sound _) ?_ ?_ | with_reducible refine State.command_sound _ _ _ _ _ _ _ (fun _ _ => ?_) ?_ | with_reducible refine attestEffect_sound _ _ _ ?_)

theorem execAttestQuoteReady_sound {v} (a0) (a1) (s : State) {t} (e : execAttestQuoteReady a0 a1 s = .next t) (h : sound v s) : sound v t := by
  unfold execAttestQuoteReady at e; injection e with e; subst e; try dsimp only
  repeat' (first | with_reducible assumption | with_reducible refine ite_keep (P := sound _) ?_ ?_ | with_reducible refine State.at_sound _ _ ?_ | with_reducible refine State.modSession_sound _ _ _ ?_ | with_reducible refine foldl_keep (P := sound _) (fun _ _ _ => ?_) ?_ | with_reducible refine foldl_fst (P := sound _) (fun _ _ _ => ?_) ?_ | with_reducible refine Pad.restoreWins_wf _ _ _ ?_ | with_reducible refine (Pad.rowDead_mem _ _).symm ▸ ?_ | split)

theorem execAuthorityKeyWrite_sound {v} (a0) (a1) (a2) (s : State) {t} (e : execAuthorityKeyWrite a0 a1 a2 s = .next t) (h : sound v s) : sound v t := by
  unfold execAuthorityKeyWrite at e; injection e with e; subst e; try dsimp only
  repeat' (first | with_reducible assumption | with_reducible refine ite_keep (P := sound _) ?_ ?_ | with_reducible refine State.refusedEvent_sound _ _ ?_ | with_reducible refine State.command_sound _ _ _ _ _ _ _ (fun _ _ => ?_) ?_ | with_reducible refine keyEffect_sound _ _ _ ?_)

theorem execTxSa_sound {v} (a0) (a1) (a2) (s : State) {t} (e : execTxSa a0 a1 a2 s = .next t) (h : sound v s) : sound v t := by
  unfold execTxSa at e; injection e with e; subst e; try dsimp only
  repeat' (first | with_reducible assumption | with_reducible refine ite_keep (P := sound _) ?_ ?_ | with_reducible refine State.refusedEvent_sound _ _ ?_ | with_reducible refine State.command_sound _ _ _ _ _ _ _ (fun _ _ => ?_) ?_ | with_reducible refine saEffect_sound _ _ _ _ ?_)

theorem execRxSa_sound {v} (a0) (a1) (a2) (s : State) {t} (e : execRxSa a0 a1 a2 s = .next t) (h : sound v s) : sound v t := by
  unfold execRxSa at e; injection e with e; subst e; try dsimp only
  repeat' (first | with_reducible assumption | with_reducible refine ite_keep (P := sound _) ?_ ?_ | with_reducible refine State.refusedEvent_sound _ _ ?_ | with_reducible refine State.command_sound _ _ _ _ _ _ _ (fun _ _ => ?_) ?_ | with_reducible refine saEffect_sound _ _ _ _ ?_)

theorem execTamperDetect_sound {v} (a0) (s : State) {t} (e : execTamperDetect a0 s = .next t) (h : sound v s) : sound v t := by
  unfold execTamperDetect at e; injection e with e; subst e; try dsimp only
  repeat' (first | with_reducible assumption | with_reducible refine ite_keep (P := sound _) ?_ ?_ | with_reducible refine State.at_sound _ _ ?_ | with_reducible refine State.store_sound _ _ _ ?_ | with_reducible refine State.raise_sound _ _ _ _ _ ?_ | with_reducible refine State.modSafety_sound _ _ ?_ | with_reducible refine State.modSec_sound _ _ ?_ | with_reducible refine State.wipeCores_sound _ ?_ | with_reducible refine State.enterSafe_sound _ _ ?_)

theorem execDebugPortClose_sound {v} (a0) (s : State) {t} (e : execDebugPortClose a0 s = .next t) (h : sound v s) : sound v t := by
  unfold execDebugPortClose at e; injection e with e; subst e; try dsimp only
  repeat' (first | with_reducible assumption | with_reducible refine ite_keep (P := sound _) ?_ ?_ | with_reducible refine State.at_sound _ _ ?_ | with_reducible refine State.restarted_sound _ _ ?_ | with_reducible refine State.raise_sound _ _ _ _ _ ?_)

theorem execPrimroseBoot_sound {v} (a0) (a1) (a2) (a3) (s : State) {t} (e : execPrimroseBoot a0 a1 a2 a3 s = .next t) (h : sound v s) : sound v t := by
  unfold execPrimroseBoot at e; injection e with e; subst e; try dsimp only
  repeat' (first | with_reducible assumption | with_reducible refine ite_keep (P := sound _) ?_ ?_ | with_reducible refine State.at_sound _ _ ?_ | with_reducible refine State.readLife_sound _ ?_ | with_reducible refine State.modPower_sound _ _ ?_ | with_reducible refine State.extend_sound _ _ _ ?_ | with_reducible refine State.selectDirectory_sound _ _ _ _ ?_ | with_reducible refine State.selectDirectory_sound_eq (by assumption) ?_ | with_reducible refine State.setNum_sound _ _ _ ?_ | with_reducible refine State.openDebug_sound _ ?_ | with_reducible refine State.decommissioned_sound _ ?_ | with_reducible refine State.bootSupervisor_sound _ ?_ | with_reducible refine State.bootMarigold_sound _ ?_ | with_reducible refine State.enterRecovery_sound _ _ ?_ | with_reducible refine foldl_keep (P := sound _) (fun _ _ _ => ?_) ?_ | with_reducible refine foldl_fst (P := sound _) (fun _ _ _ => ?_) ?_ | with_reducible refine Pad.restoreWins_wf _ _ _ ?_ | with_reducible refine (Pad.rowDead_mem _ _).symm ▸ ?_ | split)

theorem execSupervisorStartTimeout_sound {v} (a0) (s : State) {t} (e : execSupervisorStartTimeout a0 s = .next t) (h : sound v s) : sound v t := by
  unfold execSupervisorStartTimeout at e; injection e with e; subst e; try dsimp only
  repeat' (first | with_reducible assumption | with_reducible refine ite_keep (P := sound _) ?_ ?_ | with_reducible refine State.at_sound _ _ ?_ | with_reducible refine State.enterRecovery_sound _ _ ?_)

theorem execRecoveryHello_sound {v} (a0) (s : State) {t} (e : execRecoveryHello a0 s = .next t) (h : sound v s) : sound v t := by
  unfold execRecoveryHello at e; injection e with e; subst e; try dsimp only
  repeat' (first | with_reducible assumption | with_reducible refine ite_keep (P := sound _) ?_ ?_ | with_reducible refine State.quiet_sound _ ?_ | with_reducible refine State.at_sound _ _ ?_ | with_reducible refine State.recSend_sound _ _ _ _ _ ?_ | with_reducible refine State.drawn_sound _ ?_)

theorem execRecoveryBegin_sound {v} (a0) (s : State) {t} (e : execRecoveryBegin a0 s = .next t) (h : sound v s) : sound v t := by
  unfold execRecoveryBegin at e; injection e with e; subst e; try dsimp only
  repeat' (first | with_reducible assumption | with_reducible refine ite_keep (P := sound _) ?_ ?_ | with_reducible refine State.recRequest_sound _ _ _ _ (fun _ _ => ?_) ?_ | with_reducible refine State.modRec_sound _ _ ?_ | with_reducible refine foldl_keep (P := sound _) (fun _ _ _ => ?_) ?_ | with_reducible refine foldl_fst (P := sound _) (fun _ _ _ => ?_) ?_ | with_reducible refine Pad.restoreWins_wf _ _ _ ?_ | with_reducible refine (Pad.rowDead_mem _ _).symm ▸ ?_ | split)

theorem execRecoverySegment_sound {v} (a0) (s : State) {t} (e : execRecoverySegment a0 s = .next t) (h : sound v s) : sound v t := by
  unfold execRecoverySegment at e; injection e with e; subst e; try dsimp only
  repeat' (first | with_reducible assumption | with_reducible refine ite_keep (P := sound _) ?_ ?_ | with_reducible refine State.recRequest_sound _ _ _ _ (fun _ _ => ?_) ?_ | with_reducible refine State.modRec_sound _ _ ?_ | with_reducible refine foldl_keep (P := sound _) (fun _ _ _ => ?_) ?_ | with_reducible refine foldl_fst (P := sound _) (fun _ _ _ => ?_) ?_ | with_reducible refine Pad.restoreWins_wf _ _ _ ?_ | with_reducible refine (Pad.rowDead_mem _ _).symm ▸ ?_ | split)

theorem execRecoveryEnd_sound {v} (a0) (s : State) {t} (e : execRecoveryEnd a0 s = .next t) (h : sound v s) : sound v t := by
  unfold execRecoveryEnd at e; injection e with e; subst e; try dsimp only
  repeat' (first | with_reducible assumption | with_reducible refine ite_keep (P := sound _) ?_ ?_ | with_reducible refine State.at_sound _ _ ?_ | with_reducible refine State.recRequest_sound _ _ _ _ (fun _ _ => ?_) ?_ | with_reducible refine State.modRec_sound _ _ ?_ | with_reducible refine State.writeDirectory_sound _ _ ?_ | with_reducible refine State.raise_sound _ _ _ _ _ ?_ | with_reducible refine State.restarted_sound _ _ ?_ | with_reducible refine foldl_keep (P := sound _) (fun _ _ _ => ?_) ?_ | with_reducible refine foldl_fst (P := sound _) (fun _ _ _ => ?_) ?_ | with_reducible refine Pad.restoreWins_wf _ _ _ ?_ | with_reducible refine (Pad.rowDead_mem _ _).symm ▸ ?_ | split)

theorem execRecoveryTransferTimeout_sound {v} (a0) (s : State) {t} (e : execRecoveryTransferTimeout a0 s = .next t) (h : sound v s) : sound v t := by
  unfold execRecoveryTransferTimeout at e; injection e with e; subst e; try dsimp only
  repeat' (first | with_reducible assumption | with_reducible refine ite_keep (P := sound _) ?_ ?_ | with_reducible refine State.at_sound _ _ ?_ | with_reducible refine State.modRec_sound _ _ ?_)

theorem execDoipVehicleIdentification_sound {v} (a0) (s : State) {t} (e : execDoipVehicleIdentification a0 s = .next t) (h : sound v s) : sound v t := by
  unfold execDoipVehicleIdentification at e; injection e with e; subst e; try dsimp only
  repeat' (first | with_reducible assumption | with_reducible refine ite_keep (P := sound _) ?_ ?_ | with_reducible refine State.doipRequest_sound _ _ _ _ (fun _ _ => ?_) ?_ | with_reducible refine State.doipSend_sound _ _ _ _ _ ?_)

theorem execDoipVehicleAnnouncement_sound {v} (a0) (s : State) {t} (e : execDoipVehicleAnnouncement a0 s = .next t) (h : sound v s) : sound v t := by
  unfold execDoipVehicleAnnouncement at e; injection e with e; subst e; try dsimp only
  repeat' (first | with_reducible assumption | with_reducible refine ite_keep (P := sound _) ?_ ?_ | with_reducible refine State.quiet_sound _ ?_ | with_reducible refine State.modNet_sound _ _ ?_ | with_reducible refine State.sendOn_sound _ _ _ _ _ _ _ _ _ ?_)

theorem execDoipRoutingActivation_sound {v} (a0) (s : State) {t} (e : execDoipRoutingActivation a0 s = .next t) (h : sound v s) : sound v t := by
  unfold execDoipRoutingActivation at e; injection e with e; subst e; try dsimp only
  repeat' (first | with_reducible assumption | with_reducible refine ite_keep (P := sound _) ?_ ?_ | with_reducible refine State.doipRequest_sound _ _ _ _ (fun _ _ => ?_) ?_ | with_reducible refine State.doipSend_sound _ _ _ _ _ ?_ | with_reducible refine State.modDoip_sound _ _ _ ?_ | with_reducible refine foldl_keep (P := sound _) (fun _ _ _ => ?_) ?_ | with_reducible refine foldl_fst (P := sound _) (fun _ _ _ => ?_) ?_ | with_reducible refine Pad.restoreWins_wf _ _ _ ?_ | with_reducible refine (Pad.rowDead_mem _ _).symm ▸ ?_ | split)

theorem execDoipAliveCheck_sound {v} (a0) (s : State) {t} (e : execDoipAliveCheck a0 s = .next t) (h : sound v s) : sound v t := by
  unfold execDoipAliveCheck at e; injection e with e; subst e; try dsimp only
  repeat' (first | with_reducible assumption | with_reducible refine ite_keep (P := sound _) ?_ ?_ | with_reducible refine State.doipRequest_sound _ _ _ _ (fun _ _ => ?_) ?_ | with_reducible refine State.doipSend_sound _ _ _ _ _ ?_)

theorem execDoipEntityStatus_sound {v} (a0) (s : State) {t} (e : execDoipEntityStatus a0 s = .next t) (h : sound v s) : sound v t := by
  unfold execDoipEntityStatus at e; injection e with e; subst e; try dsimp only
  repeat' (first | with_reducible assumption | with_reducible refine ite_keep (P := sound _) ?_ ?_ | with_reducible refine State.doipRequest_sound _ _ _ _ (fun _ _ => ?_) ?_ | with_reducible refine State.doipSend_sound _ _ _ _ _ ?_)

theorem execDoipPowerMode_sound {v} (a0) (s : State) {t} (e : execDoipPowerMode a0 s = .next t) (h : sound v s) : sound v t := by
  unfold execDoipPowerMode at e; injection e with e; subst e; try dsimp only
  repeat' (first | with_reducible assumption | with_reducible refine ite_keep (P := sound _) ?_ ?_ | with_reducible refine State.doipRequest_sound _ _ _ _ (fun _ _ => ?_) ?_ | with_reducible refine State.doipSend_sound _ _ _ _ _ ?_)

theorem execDoipGenericNack_sound {v} (a0) (s : State) {t} (e : execDoipGenericNack a0 s = .next t) (h : sound v s) : sound v t := by
  unfold execDoipGenericNack at e; injection e with e; subst e; try dsimp only
  repeat' (first | with_reducible assumption | with_reducible refine ite_keep (P := sound _) ?_ ?_ | with_reducible refine State.quiet_sound _ ?_ | with_reducible refine State.at_sound _ _ ?_)

theorem execDoipDiagnosticMessage_sound {v} (a0) (s : State) {t} (e : execDoipDiagnosticMessage a0 s = .next t) (h : sound v s) : sound v t := by
  unfold execDoipDiagnosticMessage at e; injection e with e; subst e; try dsimp only
  repeat' (first | with_reducible assumption | with_reducible refine ite_keep (P := sound _) ?_ ?_ | with_reducible refine State.doipRequest_sound _ _ _ _ (fun _ _ => ?_) ?_ | with_reducible refine State.doipSend_sound _ _ _ _ _ ?_ | with_reducible refine State.udsOn_sound _ _ _ _ (fun _ _ => ?_) ?_ | with_reducible refine State.udsServe_sound _ _ _ ?_ | with_reducible refine State.udsServe_sound_eq (by assumption) ?_ | with_reducible refine foldl_keep (P := sound _) (fun _ _ _ => ?_) ?_ | with_reducible refine foldl_fst (P := sound _) (fun _ _ _ => ?_) ?_ | with_reducible refine Pad.restoreWins_wf _ _ _ ?_ | with_reducible refine (Pad.rowDead_mem _ _).symm ▸ ?_ | split)

theorem execDiagnosticSessionControl_sound {v} (a0) (s : State) {t} (e : execDiagnosticSessionControl a0 s = .next t) (h : sound v s) : sound v t := by
  unfold execDiagnosticSessionControl at e; injection e with e; subst e; try dsimp only
  repeat' (first | with_reducible assumption | with_reducible refine ite_keep (P := sound _) ?_ ?_ | with_reducible refine State.udsRow_sound _ _ _ _ (fun _ _ _ => ?_) ?_ | with_reducible refine State.udsSession_sound _ _ _ ?_)

theorem execEcuReset_sound {v} (a0) (s : State) {t} (e : execEcuReset a0 s = .next t) (h : sound v s) : sound v t := by
  unfold execEcuReset at e; injection e with e; subst e; try dsimp only
  repeat' (first | with_reducible assumption | with_reducible refine ite_keep (P := sound _) ?_ ?_ | with_reducible refine State.udsRow_sound _ _ _ _ (fun _ _ _ => ?_) ?_ | with_reducible refine State.udsReset_sound _ _ _ ?_)

theorem execClearDiagnosticInformation_sound {v} (a0) (s : State) {t} (e : execClearDiagnosticInformation a0 s = .next t) (h : sound v s) : sound v t := by
  unfold execClearDiagnosticInformation at e; injection e with e; subst e; try dsimp only
  repeat' (first | with_reducible assumption | with_reducible refine ite_keep (P := sound _) ?_ ?_ | with_reducible refine State.udsRow_sound _ _ _ _ (fun _ _ _ => ?_) ?_ | with_reducible refine State.udsClear_sound _ _ _ ?_)

theorem execReadDtcInformation_sound {v} (a0) (s : State) {t} (e : execReadDtcInformation a0 s = .next t) (h : sound v s) : sound v t := by
  unfold execReadDtcInformation at e; injection e with e; subst e; try dsimp only
  repeat' (first | with_reducible assumption | with_reducible refine ite_keep (P := sound _) ?_ ?_ | with_reducible refine State.udsRow_sound _ _ _ _ (fun _ _ _ => ?_) ?_ | with_reducible refine udsGive_sound _ _ _ ?_)

theorem execReadDataByIdentifier_sound {v} (a0) (s : State) {t} (e : execReadDataByIdentifier a0 s = .next t) (h : sound v s) : sound v t := by
  unfold execReadDataByIdentifier at e; injection e with e; subst e; try dsimp only
  repeat' (first | with_reducible assumption | with_reducible refine ite_keep (P := sound _) ?_ ?_ | with_reducible refine State.udsRow_sound _ _ _ _ (fun _ _ _ => ?_) ?_ | with_reducible refine udsGive_sound _ _ _ ?_)

theorem execSecurityAccessRequestSeed_sound {v} (a0) (s : State) {t} (e : execSecurityAccessRequestSeed a0 s = .next t) (h : sound v s) : sound v t := by
  unfold execSecurityAccessRequestSeed at e; injection e with e; subst e; try dsimp only
  repeat' (first | with_reducible assumption | with_reducible refine ite_keep (P := sound _) ?_ ?_ | with_reducible refine State.udsRow_sound _ _ _ _ (fun _ _ _ => ?_) ?_ | with_reducible refine State.udsSeed_sound _ _ _ ?_ | with_reducible refine State.udsSeed_sound_eq (by assumption) ?_ | with_reducible refine foldl_keep (P := sound _) (fun _ _ _ => ?_) ?_ | with_reducible refine foldl_fst (P := sound _) (fun _ _ _ => ?_) ?_ | with_reducible refine Pad.restoreWins_wf _ _ _ ?_ | with_reducible refine (Pad.rowDead_mem _ _).symm ▸ ?_ | split)

theorem execSecurityAccessSendKey_sound {v} (a0) (s : State) {t} (e : execSecurityAccessSendKey a0 s = .next t) (h : sound v s) : sound v t := by
  unfold execSecurityAccessSendKey at e; injection e with e; subst e; try dsimp only
  repeat' (first | with_reducible assumption | with_reducible refine ite_keep (P := sound _) ?_ ?_ | with_reducible refine State.udsRow_sound _ _ _ _ (fun _ _ _ => ?_) ?_ | with_reducible refine State.udsKey_sound _ _ _ ?_ | with_reducible refine State.udsKey_sound_eq (by assumption) ?_ | with_reducible refine foldl_keep (P := sound _) (fun _ _ _ => ?_) ?_ | with_reducible refine foldl_fst (P := sound _) (fun _ _ _ => ?_) ?_ | with_reducible refine Pad.restoreWins_wf _ _ _ ?_ | with_reducible refine (Pad.rowDead_mem _ _).symm ▸ ?_ | split)

theorem execRoutineControl_sound {v} (a0) (s : State) {t} (e : execRoutineControl a0 s = .next t) (h : sound v s) : sound v t := by
  unfold execRoutineControl at e; injection e with e; subst e; try dsimp only
  repeat' (first | with_reducible assumption | with_reducible refine ite_keep (P := sound _) ?_ ?_ | with_reducible refine State.udsRow_sound _ _ _ _ (fun _ _ _ => ?_) ?_ | with_reducible refine State.udsRoutine_sound _ _ _ ?_)

theorem execTesterPresent_sound {v} (a0) (s : State) {t} (e : execTesterPresent a0 s = .next t) (h : sound v s) : sound v t := by
  unfold execTesterPresent at e; injection e with e; subst e; try dsimp only
  repeat' (first | with_reducible assumption | with_reducible refine ite_keep (P := sound _) ?_ ?_ | with_reducible refine State.udsRow_sound _ _ _ _ (fun _ _ _ => ?_) ?_ | with_reducible refine State.udsPresent_sound _ _ ?_)

theorem execS3Timeout_sound {v} (a0) (a1) (s : State) {t} (e : execS3Timeout a0 a1 s = .next t) (h : sound v s) : sound v t := by
  unfold execS3Timeout at e; injection e with e; subst e; try dsimp only
  repeat' (first | with_reducible assumption | with_reducible refine ite_keep (P := sound _) ?_ ?_ | with_reducible refine State.at_sound _ _ ?_ | with_reducible refine State.udsDefault_sound _ _ ?_)

theorem execSupplyBandChange_sound {v} (a0) (a1) (a2) (s : State) {t} (e : execSupplyBandChange a0 a1 a2 s = .next t) (h : sound v s) : sound v t := by
  unfold execSupplyBandChange at e; injection e with e; subst e; try dsimp only
  repeat' (first | with_reducible assumption | with_reducible refine ite_keep (P := sound _) ?_ ?_ | with_reducible refine State.at_sound _ _ ?_ | with_reducible refine State.powerFail_sound _ ?_ | with_reducible refine State.setNum_sound _ _ _ ?_ | with_reducible refine State.bandEffects_sound _ _ _ ?_)

theorem execHighBandTimeout_sound {v} (a0) (s : State) {t} (e : execHighBandTimeout a0 s = .next t) (h : sound v s) : sound v t := by
  unfold execHighBandTimeout at e; injection e with e; subst e; try dsimp only
  repeat' (first | with_reducible assumption | with_reducible refine ite_keep (P := sound _) ?_ ?_ | with_reducible refine State.at_sound _ _ ?_ | with_reducible refine State.store_sound _ _ _ ?_ | with_reducible refine State.shutDown_sound _ _ ?_ | with_reducible refine State.raise_sound _ _ _ _ _ ?_)

theorem execPowerFailure_sound {v} (a0) (s : State) {t} (e : execPowerFailure a0 s = .next t) (h : sound v s) : sound v t := by
  unfold execPowerFailure at e; injection e with e; subst e; try dsimp only
  repeat' (first | with_reducible assumption | with_reducible refine ite_keep (P := sound _) ?_ ?_ | with_reducible refine State.at_sound _ _ ?_ | with_reducible refine State.powerFail_sound _ ?_)

theorem execWake_sound {v} (a0) (s : State) {t} (e : execWake a0 s = .next t) (h : sound v s) : sound v t := by
  unfold execWake at e; injection e with e; subst e; try dsimp only
  repeat' (first | with_reducible assumption | with_reducible refine ite_keep (P := sound _) ?_ ?_ | with_reducible refine State.at_sound _ _ ?_ | with_reducible refine State.leaveOff_sound _ ?_ | with_reducible refine State.wakePins_sound _ ?_ | with_reducible refine State.leaveStandby_sound _ _ ?_ | with_reducible refine State.modPower_sound _ _ ?_ | with_reducible refine foldl_keep (P := sound _) (fun _ _ _ => ?_) ?_ | with_reducible refine foldl_fst (P := sound _) (fun _ _ _ => ?_) ?_ | with_reducible refine Pad.restoreWins_wf _ _ _ ?_ | with_reducible refine (Pad.rowDead_mem _ _).symm ▸ ?_ | split)

theorem execOffDelayExpire_sound {v} (a0) (s : State) {t} (e : execOffDelayExpire a0 s = .next t) (h : sound v s) : sound v t := by
  unfold execOffDelayExpire at e; injection e with e; subst e; try dsimp only
  repeat' (first | with_reducible assumption | with_reducible refine ite_keep (P := sound _) ?_ ?_ | with_reducible refine State.at_sound _ _ ?_ | with_reducible refine State.shutDown_sound _ _ ?_)

theorem execShutdownSaveTimeout_sound {v} (a0) (s : State) {t} (e : execShutdownSaveTimeout a0 s = .next t) (h : sound v s) : sound v t := by
  unfold execShutdownSaveTimeout at e; injection e with e; subst e; try dsimp only
  repeat' (first | with_reducible assumption | with_reducible refine ite_keep (P := sound _) ?_ ?_ | with_reducible refine State.at_sound _ _ ?_ | with_reducible refine State.powerDown_sound _ _ _ _ ?_ | with_reducible refine State.leaveStandby_sound _ _ ?_)

theorem execPllLockFailure_sound {v} (a0) (s : State) {t} (e : execPllLockFailure a0 s = .next t) (h : sound v s) : sound v t := by
  unfold execPllLockFailure at e; injection e with e; subst e; try dsimp only
  repeat' (first | with_reducible assumption | with_reducible refine ite_keep (P := sound _) ?_ ?_ | with_reducible refine State.raise_sound _ _ _ _ _ ?_ | with_reducible refine State.retireNext_sound _ _ ?_ | with_reducible refine State.retireDue_sound _ ?_ | with_reducible refine State.failController_sound _ _ ?_ | with_reducible refine State.stopMarigold_sound _ ?_ | with_reducible refine State.enterSafe_sound _ _ ?_ | with_reducible refine State.modSafety_sound _ _ ?_)

theorem restartEffect_sound {v} (s : State) (h : sound v s) : sound v (restartEffect s) := by
  unfold restartEffect; try dsimp only
  repeat' (first | with_reducible assumption | with_reducible refine ite_keep (P := sound _) ?_ ?_ | with_reducible refine State.restarted_sound _ _ ?_ | with_reducible refine State.raise_sound _ _ _ _ _ ?_)

theorem execRestart_sound {v} (a0) (a1) (s : State) {t} (e : execRestart a0 a1 s = .next t) (h : sound v s) : sound v t := by
  unfold execRestart at e; injection e with e; subst e; try dsimp only
  repeat' (first | with_reducible assumption | with_reducible refine ite_keep (P := sound _) ?_ ?_ | with_reducible refine State.command_sound _ _ _ _ _ _ _ (fun _ _ => ?_) ?_ | with_reducible refine restartEffect_sound _ ?_)

theorem execCoreResetRelease_sound {v} (a0) (a1) (s : State) {t} (e : execCoreResetRelease a0 a1 s = .next t) (h : sound v s) : sound v t := by
  unfold execCoreResetRelease at e; injection e with e; subst e; try dsimp only
  repeat' (first | with_reducible assumption | with_reducible refine ite_keep (P := sound _) ?_ ?_ | with_reducible refine State.at_sound _ _ ?_ | with_reducible refine State.failController_sound _ _ ?_ | with_reducible refine State.setNum_sound _ _ _ ?_ | with_reducible refine State.modPower_sound _ _ ?_ | with_reducible refine State.modExt_sound (fun _ => rfl) (fun _ => rfl) ?_ | with_reducible refine State.raise_sound _ _ _ _ _ ?_ | with_reducible refine State.enterFallback_sound _ _ ?_ | with_reducible refine foldl_keep (P := sound _) (fun _ _ _ => ?_) ?_)

theorem execMainChannelReady_sound {v} (a0) (s : State) {t} (e : execMainChannelReady a0 s = .next t) (h : sound v s) : sound v t := by
  unfold execMainChannelReady at e; injection e with e; subst e; try dsimp only
  repeat' (first | with_reducible assumption | with_reducible refine ite_keep (P := sound _) ?_ ?_ | with_reducible refine State.at_sound _ _ ?_ | with_reducible refine State.measure_sound _ _ _ ?_ | with_reducible refine State.startTable_sound _ _ ?_ | with_reducible refine State.fillLibrary_sound _ ?_ | with_reducible refine State.loadComp_sound _ _ ?_ | with_reducible refine State.switchPlan_sound _ ?_ | with_reducible refine State.retireDue_sound _ ?_ | with_reducible refine State.startSchedule_sound _ ?_ | with_reducible refine State.modPower_sound _ _ ?_ | with_reducible refine foldl_keep (P := sound _) (fun _ _ _ => ?_) ?_)

theorem execMainNotReady_sound {v} (a0) (s : State) {t} (e : execMainNotReady a0 s = .next t) (h : sound v s) : sound v t := by
  unfold execMainNotReady at e; injection e with e; subst e; try dsimp only
  repeat' (first | with_reducible assumption | with_reducible refine ite_keep (P := sound _) ?_ ?_ | with_reducible refine State.at_sound _ _ ?_ | with_reducible refine State.modPower_sound _ _ ?_ | with_reducible refine State.raise_sound _ _ _ _ _ ?_)

theorem execSensorSample_sound {v} (a0) (a1) (a2) (s : State) {t} (e : execSensorSample a0 a1 a2 s = .next t) (h : sound v s) : sound v t := by
  unfold execSensorSample at e; injection e with e; subst e; try dsimp only
  repeat' (first | with_reducible assumption | with_reducible refine ite_keep (P := sound _) ?_ ?_ | with_reducible refine State.at_sound _ _ ?_ | with_reducible refine State.setNum_sound _ _ _ ?_ | with_reducible refine State.store_sound _ _ _ ?_ | with_reducible refine State.modSched_sound _ _ ?_ | with_reducible refine State.modPower_sound _ _ ?_ | with_reducible refine State.raise_sound _ _ _ _ _ ?_ | with_reducible refine State.enterSafe_sound _ _ ?_ | with_reducible refine State.modSafety_sound _ _ ?_ | with_reducible refine foldl_keep (P := sound _) (fun _ _ _ => ?_) ?_)

theorem execMarigoldDue_sound {v} (a0) (s : State) {t} (e : execMarigoldDue a0 s = .next t) (h : sound v s) : sound v t := by
  unfold execMarigoldDue at e; injection e with e; subst e; try dsimp only
  repeat' (first | with_reducible assumption | with_reducible refine ite_keep (P := sound _) ?_ ?_ | with_reducible refine State.at_sound _ _ ?_ | with_reducible refine State.mariDeadline_sound _ ?_)

theorem execMarigoldRestartComplete_sound {v} (a0) (a1) (s : State) {t} (e : execMarigoldRestartComplete a0 a1 s = .next t) (h : sound v s) : sound v t := by
  unfold execMarigoldRestartComplete at e; injection e with e; subst e; try dsimp only
  repeat' (first | with_reducible assumption | with_reducible refine ite_keep (P := sound _) ?_ ?_ | with_reducible refine State.at_sound _ _ ?_ | with_reducible refine State.stopMarigold_sound _ ?_ | with_reducible refine State.modSafety_sound _ _ ?_ | with_reducible refine State.setMarigold_sound _ _ ?_)

theorem execKl15Change_sound {v} (a0) (a1) (a2) (s : State) {t} (e : execKl15Change a0 a1 a2 s = .next t) (h : sound v s) : sound v t := by
  unfold execKl15Change at e; injection e with e; subst e; try dsimp only
  repeat' (first | with_reducible assumption | with_reducible refine ite_keep (P := sound _) ?_ ?_ | with_reducible refine State.modPower_sound _ _ ?_ | with_reducible refine State.at_sound _ _ ?_ | with_reducible refine State.noteIdle_sound _ ?_)

theorem execPpsOutFall_sound {v} (a0) (s : State) {t} (e : execPpsOutFall a0 s = .next t) (h : sound v s) : sound v t := by
  unfold execPpsOutFall at e; injection e with e; subst e; try dsimp only
  repeat' (first | with_reducible assumption | with_reducible refine ite_keep (P := sound _) ?_ ?_ | with_reducible refine State.modTime_sound _ _ ?_ | with_reducible refine State.at_sound _ _ ?_)

theorem execPdelayResponseReceive_sound {v} (a0) (a1) (s : State) {t} (e : execPdelayResponseReceive a0 a1 s = .next t) (h : sound v s) : sound v t := by
  unfold execPdelayResponseReceive at e; injection e with e; subst e; try dsimp only
  repeat' (first | with_reducible assumption | with_reducible refine ite_keep (P := sound _) ?_ ?_ | with_reducible refine State.modPort_sound _ _ _ ?_ | with_reducible refine State.setDelay_sound _ _ _ ?_)

theorem execMessageIntervalRequest_sound {v} (a0) (a1) (s : State) {t} (e : execMessageIntervalRequest a0 a1 s = .next t) (h : sound v s) : sound v t := by
  unfold execMessageIntervalRequest at e; injection e with e; subst e; try dsimp only
  repeat' (first | with_reducible assumption | with_reducible refine ite_keep (P := sound _) ?_ ?_ | with_reducible refine State.modPort_sound _ _ _ ?_)

theorem execGateListIntervalEnd_sound {v} (a0) (a1) (s : State) {t} (e : execGateListIntervalEnd a0 a1 s = .next t) (h : sound v s) : sound v t := by
  unfold execGateListIntervalEnd at e; injection e with e; subst e; try dsimp only
  repeat' (first | with_reducible assumption | with_reducible refine ite_keep (P := sound _) ?_ ?_ | with_reducible refine State.quiet_sound _ ?_ | with_reducible refine State.at_sound _ _ ?_ | with_reducible refine State.modHost_sound _ _ _ ?_ | with_reducible refine State.accrue_sound _ _ _ ?_ | with_reducible refine State.hostFlow_sound _ _ ?_ | with_reducible refine State.hostLook_sound _ _ _ ?_)

theorem execCbResetTimeout_sound {v} (a0) (a1) (s : State) {t} (e : execCbResetTimeout a0 a1 s = .next t) (h : sound v s) : sound v t := by
  unfold execCbResetTimeout at e; injection e with e; subst e; try dsimp only
  repeat' (first | with_reducible assumption | with_reducible refine ite_keep (P := sound _) ?_ ?_ | with_reducible refine State.at_sound _ _ ?_ | with_reducible refine State.modNet_sound _ _ ?_)

theorem execDoipConnectionClose_sound {v} (a0) (s : State) {t} (e : execDoipConnectionClose a0 s = .next t) (h : sound v s) : sound v t := by
  unfold execDoipConnectionClose at e; injection e with e; subst e; try dsimp only
  repeat' (first | with_reducible assumption | with_reducible refine ite_keep (P := sound _) ?_ ?_ | with_reducible refine State.closeDoip_sound _ _ ?_)


end Sys2Proof.Machine
end

