-- ==== Sys2Proof/Laws/State.lean ====
section
/-! SUPPORT. Beside State: for every update operation and every component of the state, what the update leaves of that component. -/

namespace Sys2Proof.Machine

variable (s : State)

@[simp] theorem State.setObj_log (k : Nat) (v : OdVal) : (s.setObj k v).log = s.log := rfl
@[simp] theorem State.setObj_hap (k : Nat) (v : OdVal) : (s.setObj k v).hap = s.hap := rfl
@[simp] theorem State.setObj_frame (k : Nat) (v : OdVal) : (s.setObj k v).frame = s.frame := rfl
@[simp] theorem State.setObj_q (k : Nat) (v : OdVal) : (s.setObj k v).q = s.q := rfl
@[simp] theorem State.setObj_ing (k : Nat) (v : OdVal) : (s.setObj k v).ing = s.ing := rfl
@[simp] theorem State.setObj_cells (k : Nat) (v : OdVal) : (s.setObj k v).cells = s.cells := rfl
@[simp] theorem State.setObj_cores (k : Nat) (v : OdVal) : (s.setObj k v).cores = s.cores := rfl
@[simp] theorem State.setObj_fab (k : Nat) (v : OdVal) : (s.setObj k v).fab = s.fab := rfl
@[simp] theorem State.setObj_books (k : Nat) (v : OdVal) : (s.setObj k v).books = s.books := rfl
@[simp] theorem State.setObj_sched (k : Nat) (v : OdVal) : (s.setObj k v).sched = s.sched := rfl
@[simp] theorem State.setObj_net (k : Nat) (v : OdVal) : (s.setObj k v).net = s.net := rfl
@[simp] theorem State.setObj_ext (k : Nat) (v : OdVal) : (s.setObj k v).ext = s.ext := rfl
@[simp] theorem State.setObj_peony (k : Nat) (v : OdVal) : (s.setObj k v).peony = s.peony := rfl
@[simp] theorem State.setObj_sec (k : Nat) (v : OdVal) : (s.setObj k v).sec = s.sec := rfl
@[simp] theorem State.setObj_safety (k : Nat) (v : OdVal) : (s.setObj k v).safety = s.safety := rfl
@[simp] theorem State.setObj_power (k : Nat) (v : OdVal) : (s.setObj k v).power = s.power := rfl
@[simp] theorem State.setObj_doip (k : Nat) (v : OdVal) : (s.setObj k v).doip = s.doip := rfl
@[simp] theorem State.setObj_freeCtr (k : Nat) (v : OdVal) : (s.setObj k v).freeCtr = s.freeCtr := rfl
@[simp] theorem State.setObj_pending (k : Nat) (v : OdVal) : (s.setObj k v).pending = s.pending := rfl

@[simp] theorem State.setNum_log (k : Nat) (v : Int) : (s.setNum k v).log = s.log := rfl
@[simp] theorem State.setNum_hap (k : Nat) (v : Int) : (s.setNum k v).hap = s.hap := rfl
@[simp] theorem State.setNum_frame (k : Nat) (v : Int) : (s.setNum k v).frame = s.frame := rfl
@[simp] theorem State.setNum_q (k : Nat) (v : Int) : (s.setNum k v).q = s.q := rfl
@[simp] theorem State.setNum_ing (k : Nat) (v : Int) : (s.setNum k v).ing = s.ing := rfl
@[simp] theorem State.setNum_cells (k : Nat) (v : Int) : (s.setNum k v).cells = s.cells := rfl
@[simp] theorem State.setNum_cores (k : Nat) (v : Int) : (s.setNum k v).cores = s.cores := rfl
@[simp] theorem State.setNum_fab (k : Nat) (v : Int) : (s.setNum k v).fab = s.fab := rfl
@[simp] theorem State.setNum_books (k : Nat) (v : Int) : (s.setNum k v).books = s.books := rfl
@[simp] theorem State.setNum_sched (k : Nat) (v : Int) : (s.setNum k v).sched = s.sched := rfl
@[simp] theorem State.setNum_net (k : Nat) (v : Int) : (s.setNum k v).net = s.net := rfl
@[simp] theorem State.setNum_ext (k : Nat) (v : Int) : (s.setNum k v).ext = s.ext := rfl
@[simp] theorem State.setNum_peony (k : Nat) (v : Int) : (s.setNum k v).peony = s.peony := rfl
@[simp] theorem State.setNum_sec (k : Nat) (v : Int) : (s.setNum k v).sec = s.sec := rfl
@[simp] theorem State.setNum_safety (k : Nat) (v : Int) : (s.setNum k v).safety = s.safety := rfl
@[simp] theorem State.setNum_power (k : Nat) (v : Int) : (s.setNum k v).power = s.power := rfl
@[simp] theorem State.setNum_doip (k : Nat) (v : Int) : (s.setNum k v).doip = s.doip := rfl
@[simp] theorem State.setNum_freeCtr (k : Nat) (v : Int) : (s.setNum k v).freeCtr = s.freeCtr := rfl
@[simp] theorem State.setNum_pending (k : Nat) (v : Int) : (s.setNum k v).pending = s.pending := rfl

@[simp] theorem State.setOct_log (k : Nat) (b : Bytes) : (s.setOct k b).log = s.log := rfl
@[simp] theorem State.setOct_hap (k : Nat) (b : Bytes) : (s.setOct k b).hap = s.hap := rfl
@[simp] theorem State.setOct_frame (k : Nat) (b : Bytes) : (s.setOct k b).frame = s.frame := rfl
@[simp] theorem State.setOct_q (k : Nat) (b : Bytes) : (s.setOct k b).q = s.q := rfl
@[simp] theorem State.setOct_ing (k : Nat) (b : Bytes) : (s.setOct k b).ing = s.ing := rfl
@[simp] theorem State.setOct_cells (k : Nat) (b : Bytes) : (s.setOct k b).cells = s.cells := rfl
@[simp] theorem State.setOct_cores (k : Nat) (b : Bytes) : (s.setOct k b).cores = s.cores := rfl
@[simp] theorem State.setOct_fab (k : Nat) (b : Bytes) : (s.setOct k b).fab = s.fab := rfl
@[simp] theorem State.setOct_books (k : Nat) (b : Bytes) : (s.setOct k b).books = s.books := rfl
@[simp] theorem State.setOct_sched (k : Nat) (b : Bytes) : (s.setOct k b).sched = s.sched := rfl
@[simp] theorem State.setOct_net (k : Nat) (b : Bytes) : (s.setOct k b).net = s.net := rfl
@[simp] theorem State.setOct_ext (k : Nat) (b : Bytes) : (s.setOct k b).ext = s.ext := rfl
@[simp] theorem State.setOct_peony (k : Nat) (b : Bytes) : (s.setOct k b).peony = s.peony := rfl
@[simp] theorem State.setOct_sec (k : Nat) (b : Bytes) : (s.setOct k b).sec = s.sec := rfl
@[simp] theorem State.setOct_safety (k : Nat) (b : Bytes) : (s.setOct k b).safety = s.safety := rfl
@[simp] theorem State.setOct_power (k : Nat) (b : Bytes) : (s.setOct k b).power = s.power := rfl
@[simp] theorem State.setOct_doip (k : Nat) (b : Bytes) : (s.setOct k b).doip = s.doip := rfl
@[simp] theorem State.setOct_freeCtr (k : Nat) (b : Bytes) : (s.setOct k b).freeCtr = s.freeCtr := rfl
@[simp] theorem State.setOct_pending (k : Nat) (b : Bytes) : (s.setOct k b).pending = s.pending := rfl

@[simp] theorem State.store_log (k : Nat) (v : OdVal) : (s.store k v).log = s.log := rfl
@[simp] theorem State.store_hap (k : Nat) (v : OdVal) : (s.store k v).hap = s.hap := rfl
@[simp] theorem State.store_frame (k : Nat) (v : OdVal) : (s.store k v).frame = s.frame := rfl
@[simp] theorem State.store_q (k : Nat) (v : OdVal) : (s.store k v).q = s.q := rfl
@[simp] theorem State.store_ing (k : Nat) (v : OdVal) : (s.store k v).ing = s.ing := rfl
@[simp] theorem State.store_cells (k : Nat) (v : OdVal) : (s.store k v).cells = s.cells := rfl
@[simp] theorem State.store_cores (k : Nat) (v : OdVal) : (s.store k v).cores = s.cores := rfl
@[simp] theorem State.store_fab (k : Nat) (v : OdVal) : (s.store k v).fab = s.fab := rfl
@[simp] theorem State.store_books (k : Nat) (v : OdVal) : (s.store k v).books = s.books := rfl
@[simp] theorem State.store_sched (k : Nat) (v : OdVal) : (s.store k v).sched = s.sched := rfl
@[simp] theorem State.store_net (k : Nat) (v : OdVal) : (s.store k v).net = s.net := rfl
@[simp] theorem State.store_ext (k : Nat) (v : OdVal) : (s.store k v).ext = s.ext := rfl
@[simp] theorem State.store_peony (k : Nat) (v : OdVal) : (s.store k v).peony = s.peony := rfl
@[simp] theorem State.store_sec (k : Nat) (v : OdVal) : (s.store k v).sec = s.sec := rfl
@[simp] theorem State.store_safety (k : Nat) (v : OdVal) : (s.store k v).safety = s.safety := rfl
@[simp] theorem State.store_power (k : Nat) (v : OdVal) : (s.store k v).power = s.power := rfl
@[simp] theorem State.store_doip (k : Nat) (v : OdVal) : (s.store k v).doip = s.doip := rfl
@[simp] theorem State.store_freeCtr (k : Nat) (v : OdVal) : (s.store k v).freeCtr = s.freeCtr := rfl
@[simp] theorem State.store_pending (k : Nat) (v : OdVal) : (s.store k v).pending = s.pending := rfl

@[simp] theorem State.bump_log (k n : Nat) : (s.bump k n).log = s.log := rfl
@[simp] theorem State.bump_hap (k n : Nat) : (s.bump k n).hap = s.hap := rfl
@[simp] theorem State.bump_frame (k n : Nat) : (s.bump k n).frame = s.frame := rfl
@[simp] theorem State.bump_q (k n : Nat) : (s.bump k n).q = s.q := rfl
@[simp] theorem State.bump_ing (k n : Nat) : (s.bump k n).ing = s.ing := rfl
@[simp] theorem State.bump_cells (k n : Nat) : (s.bump k n).cells = s.cells := rfl
@[simp] theorem State.bump_cores (k n : Nat) : (s.bump k n).cores = s.cores := rfl
@[simp] theorem State.bump_fab (k n : Nat) : (s.bump k n).fab = s.fab := rfl
@[simp] theorem State.bump_books (k n : Nat) : (s.bump k n).books = s.books := rfl
@[simp] theorem State.bump_sched (k n : Nat) : (s.bump k n).sched = s.sched := rfl
@[simp] theorem State.bump_net (k n : Nat) : (s.bump k n).net = s.net := rfl
@[simp] theorem State.bump_ext (k n : Nat) : (s.bump k n).ext = s.ext := rfl
@[simp] theorem State.bump_peony (k n : Nat) : (s.bump k n).peony = s.peony := rfl
@[simp] theorem State.bump_sec (k n : Nat) : (s.bump k n).sec = s.sec := rfl
@[simp] theorem State.bump_safety (k n : Nat) : (s.bump k n).safety = s.safety := rfl
@[simp] theorem State.bump_power (k n : Nat) : (s.bump k n).power = s.power := rfl
@[simp] theorem State.bump_doip (k n : Nat) : (s.bump k n).doip = s.doip := rfl
@[simp] theorem State.bump_freeCtr (k n : Nat) : (s.bump k n).freeCtr = s.freeCtr := rfl
@[simp] theorem State.bump_pending (k n : Nat) : (s.bump k n).pending = s.pending := rfl

@[simp] theorem State.setMask_log (k b : Nat) : (s.setMask k b).log = s.log := rfl
@[simp] theorem State.setMask_hap (k b : Nat) : (s.setMask k b).hap = s.hap := rfl
@[simp] theorem State.setMask_frame (k b : Nat) : (s.setMask k b).frame = s.frame := rfl
@[simp] theorem State.setMask_q (k b : Nat) : (s.setMask k b).q = s.q := rfl
@[simp] theorem State.setMask_ing (k b : Nat) : (s.setMask k b).ing = s.ing := rfl
@[simp] theorem State.setMask_cells (k b : Nat) : (s.setMask k b).cells = s.cells := rfl
@[simp] theorem State.setMask_cores (k b : Nat) : (s.setMask k b).cores = s.cores := rfl
@[simp] theorem State.setMask_fab (k b : Nat) : (s.setMask k b).fab = s.fab := rfl
@[simp] theorem State.setMask_books (k b : Nat) : (s.setMask k b).books = s.books := rfl
@[simp] theorem State.setMask_sched (k b : Nat) : (s.setMask k b).sched = s.sched := rfl
@[simp] theorem State.setMask_net (k b : Nat) : (s.setMask k b).net = s.net := rfl
@[simp] theorem State.setMask_ext (k b : Nat) : (s.setMask k b).ext = s.ext := rfl
@[simp] theorem State.setMask_peony (k b : Nat) : (s.setMask k b).peony = s.peony := rfl
@[simp] theorem State.setMask_sec (k b : Nat) : (s.setMask k b).sec = s.sec := rfl
@[simp] theorem State.setMask_safety (k b : Nat) : (s.setMask k b).safety = s.safety := rfl
@[simp] theorem State.setMask_power (k b : Nat) : (s.setMask k b).power = s.power := rfl
@[simp] theorem State.setMask_doip (k b : Nat) : (s.setMask k b).doip = s.doip := rfl
@[simp] theorem State.setMask_freeCtr (k b : Nat) : (s.setMask k b).freeCtr = s.freeCtr := rfl
@[simp] theorem State.setMask_pending (k b : Nat) : (s.setMask k b).pending = s.pending := rfl

@[simp] theorem State.arm_log (k : Nat) : (s.arm k).log = s.log := rfl
@[simp] theorem State.arm_hap (k : Nat) : (s.arm k).hap = s.hap := rfl
@[simp] theorem State.arm_frame (k : Nat) : (s.arm k).frame = s.frame := rfl
@[simp] theorem State.arm_q (k : Nat) : (s.arm k).q = s.q := rfl
@[simp] theorem State.arm_ing (k : Nat) : (s.arm k).ing = s.ing := rfl
@[simp] theorem State.arm_cells (k : Nat) : (s.arm k).cells = s.cells := rfl
@[simp] theorem State.arm_cores (k : Nat) : (s.arm k).cores = s.cores := rfl
@[simp] theorem State.arm_fab (k : Nat) : (s.arm k).fab = s.fab := rfl
@[simp] theorem State.arm_books (k : Nat) : (s.arm k).books = s.books := rfl
@[simp] theorem State.arm_sched (k : Nat) : (s.arm k).sched = s.sched := rfl
@[simp] theorem State.arm_net (k : Nat) : (s.arm k).net = s.net := rfl
@[simp] theorem State.arm_ext (k : Nat) : (s.arm k).ext = s.ext := rfl
@[simp] theorem State.arm_peony (k : Nat) : (s.arm k).peony = s.peony := rfl
@[simp] theorem State.arm_sec (k : Nat) : (s.arm k).sec = s.sec := rfl
@[simp] theorem State.arm_safety (k : Nat) : (s.arm k).safety = s.safety := rfl
@[simp] theorem State.arm_power (k : Nat) : (s.arm k).power = s.power := rfl
@[simp] theorem State.arm_doip (k : Nat) : (s.arm k).doip = s.doip := rfl
@[simp] theorem State.arm_freeCtr (k : Nat) : (s.arm k).freeCtr = s.freeCtr := rfl
@[simp] theorem State.arm_pending (k : Nat) : (s.arm k).pending = s.pending := rfl

@[simp] theorem State.at_dict (t : Nat) : (s.at t).dict = s.dict := rfl
@[simp] theorem State.at_log (t : Nat) : (s.at t).log = s.log := rfl
@[simp] theorem State.at_hap (t : Nat) : (s.at t).hap = s.hap := rfl
@[simp] theorem State.at_q (t : Nat) : (s.at t).q = s.q := rfl
@[simp] theorem State.at_ing (t : Nat) : (s.at t).ing = s.ing := rfl
@[simp] theorem State.at_cells (t : Nat) : (s.at t).cells = s.cells := rfl
@[simp] theorem State.at_cores (t : Nat) : (s.at t).cores = s.cores := rfl
@[simp] theorem State.at_fab (t : Nat) : (s.at t).fab = s.fab := rfl
@[simp] theorem State.at_books (t : Nat) : (s.at t).books = s.books := rfl
@[simp] theorem State.at_sched (t : Nat) : (s.at t).sched = s.sched := rfl
@[simp] theorem State.at_net (t : Nat) : (s.at t).net = s.net := rfl
@[simp] theorem State.at_ext (t : Nat) : (s.at t).ext = s.ext := rfl
@[simp] theorem State.at_peony (t : Nat) : (s.at t).peony = s.peony := rfl
@[simp] theorem State.at_sec (t : Nat) : (s.at t).sec = s.sec := rfl
@[simp] theorem State.at_safety (t : Nat) : (s.at t).safety = s.safety := rfl
@[simp] theorem State.at_power (t : Nat) : (s.at t).power = s.power := rfl
@[simp] theorem State.at_doip (t : Nat) : (s.at t).doip = s.doip := rfl
@[simp] theorem State.at_freeCtr (t : Nat) : (s.at t).freeCtr = s.freeCtr := rfl
@[simp] theorem State.at_pending (t : Nat) : (s.at t).pending = s.pending := rfl

@[simp] theorem State.quiet_dict : (s.quiet).dict = s.dict := rfl
@[simp] theorem State.quiet_log : (s.quiet).log = s.log := rfl
@[simp] theorem State.quiet_hap : (s.quiet).hap = s.hap := rfl
@[simp] theorem State.quiet_frame : (s.quiet).frame = s.frame := rfl
@[simp] theorem State.quiet_q : (s.quiet).q = s.q := rfl
@[simp] theorem State.quiet_ing : (s.quiet).ing = s.ing := rfl
@[simp] theorem State.quiet_cells : (s.quiet).cells = s.cells := rfl
@[simp] theorem State.quiet_cores : (s.quiet).cores = s.cores := rfl
@[simp] theorem State.quiet_fab : (s.quiet).fab = s.fab := rfl
@[simp] theorem State.quiet_books : (s.quiet).books = s.books := rfl
@[simp] theorem State.quiet_sched : (s.quiet).sched = s.sched := rfl
@[simp] theorem State.quiet_ext : (s.quiet).ext = s.ext := rfl
@[simp] theorem State.quiet_peony : (s.quiet).peony = s.peony := rfl
@[simp] theorem State.quiet_sec : (s.quiet).sec = s.sec := rfl
@[simp] theorem State.quiet_safety : (s.quiet).safety = s.safety := rfl
@[simp] theorem State.quiet_power : (s.quiet).power = s.power := rfl
@[simp] theorem State.quiet_doip : (s.quiet).doip = s.doip := rfl
@[simp] theorem State.quiet_freeCtr : (s.quiet).freeCtr = s.freeCtr := rfl
@[simp] theorem State.quiet_pending : (s.quiet).pending = s.pending := rfl

@[simp] theorem State.drawn_dict : (s.drawn).dict = s.dict := rfl
@[simp] theorem State.drawn_log : (s.drawn).log = s.log := rfl
@[simp] theorem State.drawn_hap : (s.drawn).hap = s.hap := rfl
@[simp] theorem State.drawn_frame : (s.drawn).frame = s.frame := rfl
@[simp] theorem State.drawn_q : (s.drawn).q = s.q := rfl
@[simp] theorem State.drawn_ing : (s.drawn).ing = s.ing := rfl
@[simp] theorem State.drawn_cells : (s.drawn).cells = s.cells := rfl
@[simp] theorem State.drawn_cores : (s.drawn).cores = s.cores := rfl
@[simp] theorem State.drawn_fab : (s.drawn).fab = s.fab := rfl
@[simp] theorem State.drawn_books : (s.drawn).books = s.books := rfl
@[simp] theorem State.drawn_sched : (s.drawn).sched = s.sched := rfl
@[simp] theorem State.drawn_net : (s.drawn).net = s.net := rfl
@[simp] theorem State.drawn_ext : (s.drawn).ext = s.ext := rfl
@[simp] theorem State.drawn_peony : (s.drawn).peony = s.peony := rfl
@[simp] theorem State.drawn_sec : (s.drawn).sec = s.sec := rfl
@[simp] theorem State.drawn_safety : (s.drawn).safety = s.safety := rfl
@[simp] theorem State.drawn_power : (s.drawn).power = s.power := rfl
@[simp] theorem State.drawn_doip : (s.drawn).doip = s.doip := rfl
@[simp] theorem State.drawn_freeCtr : (s.drawn).freeCtr = s.freeCtr + 1 := rfl
@[simp] theorem State.drawn_pending : (s.drawn).pending = s.pending := rfl

@[simp] theorem State.answer_dict (st : Nat) : (s.answer st).dict = s.dict := rfl
@[simp] theorem State.answer_log (st : Nat) : (s.answer st).log = s.log := rfl
@[simp] theorem State.answer_frame (st : Nat) : (s.answer st).frame = s.frame := rfl
@[simp] theorem State.answer_q (st : Nat) : (s.answer st).q = s.q := rfl
@[simp] theorem State.answer_ing (st : Nat) : (s.answer st).ing = s.ing := rfl
@[simp] theorem State.answer_cells (st : Nat) : (s.answer st).cells = s.cells := rfl
@[simp] theorem State.answer_cores (st : Nat) : (s.answer st).cores = s.cores := rfl
@[simp] theorem State.answer_fab (st : Nat) : (s.answer st).fab = s.fab := rfl
@[simp] theorem State.answer_books (st : Nat) : (s.answer st).books = s.books := rfl
@[simp] theorem State.answer_sched (st : Nat) : (s.answer st).sched = s.sched := rfl
@[simp] theorem State.answer_net (st : Nat) : (s.answer st).net = s.net := rfl
@[simp] theorem State.answer_ext (st : Nat) : (s.answer st).ext = s.ext := rfl
@[simp] theorem State.answer_peony (st : Nat) : (s.answer st).peony = s.peony := rfl
@[simp] theorem State.answer_sec (st : Nat) : (s.answer st).sec = s.sec := rfl
@[simp] theorem State.answer_safety (st : Nat) : (s.answer st).safety = s.safety := rfl
@[simp] theorem State.answer_power (st : Nat) : (s.answer st).power = s.power := rfl
@[simp] theorem State.answer_doip (st : Nat) : (s.answer st).doip = s.doip := rfl
@[simp] theorem State.answer_freeCtr (st : Nat) : (s.answer st).freeCtr = s.freeCtr := rfl
@[simp] theorem State.answer_pending (st : Nat) : (s.answer st).pending = s.pending := rfl

@[simp] theorem State.modSession_dict (i : Nat) (f : Session → Session) : (s.modSession i f).dict = s.dict := rfl
@[simp] theorem State.modSession_log (i : Nat) (f : Session → Session) : (s.modSession i f).log = s.log := rfl
@[simp] theorem State.modSession_frame (i : Nat) (f : Session → Session) : (s.modSession i f).frame = s.frame := rfl
@[simp] theorem State.modSession_q (i : Nat) (f : Session → Session) : (s.modSession i f).q = s.q := rfl
@[simp] theorem State.modSession_ing (i : Nat) (f : Session → Session) : (s.modSession i f).ing = s.ing := rfl
@[simp] theorem State.modSession_cells (i : Nat) (f : Session → Session) : (s.modSession i f).cells = s.cells := rfl
@[simp] theorem State.modSession_cores (i : Nat) (f : Session → Session) : (s.modSession i f).cores = s.cores := rfl
@[simp] theorem State.modSession_fab (i : Nat) (f : Session → Session) : (s.modSession i f).fab = s.fab := rfl
@[simp] theorem State.modSession_books (i : Nat) (f : Session → Session) : (s.modSession i f).books = s.books := rfl
@[simp] theorem State.modSession_sched (i : Nat) (f : Session → Session) : (s.modSession i f).sched = s.sched := rfl
@[simp] theorem State.modSession_net (i : Nat) (f : Session → Session) : (s.modSession i f).net = s.net := rfl
@[simp] theorem State.modSession_ext (i : Nat) (f : Session → Session) : (s.modSession i f).ext = s.ext := rfl
@[simp] theorem State.modSession_peony (i : Nat) (f : Session → Session) : (s.modSession i f).peony = s.peony := rfl
@[simp] theorem State.modSession_sec (i : Nat) (f : Session → Session) : (s.modSession i f).sec = s.sec := rfl
@[simp] theorem State.modSession_safety (i : Nat) (f : Session → Session) : (s.modSession i f).safety = s.safety := rfl
@[simp] theorem State.modSession_power (i : Nat) (f : Session → Session) : (s.modSession i f).power = s.power := rfl
@[simp] theorem State.modSession_doip (i : Nat) (f : Session → Session) : (s.modSession i f).doip = s.doip := rfl
@[simp] theorem State.modSession_freeCtr (i : Nat) (f : Session → Session) : (s.modSession i f).freeCtr = s.freeCtr := rfl
@[simp] theorem State.modSession_pending (i : Nat) (f : Session → Session) : (s.modSession i f).pending = s.pending := rfl

@[simp] theorem State.modIng_dict (f : FrameCtx → FrameCtx) : (s.modIng f).dict = s.dict := rfl
@[simp] theorem State.modIng_log (f : FrameCtx → FrameCtx) : (s.modIng f).log = s.log := rfl
@[simp] theorem State.modIng_hap (f : FrameCtx → FrameCtx) : (s.modIng f).hap = s.hap := rfl
@[simp] theorem State.modIng_frame (f : FrameCtx → FrameCtx) : (s.modIng f).frame = { s.frame with ing := f s.frame.ing } := rfl
@[simp] theorem State.modIng_q (f : FrameCtx → FrameCtx) : (s.modIng f).q = s.q := rfl
@[simp] theorem State.modIng_ing (f : FrameCtx → FrameCtx) : (s.modIng f).ing = s.ing := rfl
@[simp] theorem State.modIng_cells (f : FrameCtx → FrameCtx) : (s.modIng f).cells = s.cells := rfl
@[simp] theorem State.modIng_cores (f : FrameCtx → FrameCtx) : (s.modIng f).cores = s.cores := rfl
@[simp] theorem State.modIng_fab (f : FrameCtx → FrameCtx) : (s.modIng f).fab = s.fab := rfl
@[simp] theorem State.modIng_books (f : FrameCtx → FrameCtx) : (s.modIng f).books = s.books := rfl
@[simp] theorem State.modIng_sched (f : FrameCtx → FrameCtx) : (s.modIng f).sched = s.sched := rfl
@[simp] theorem State.modIng_net (f : FrameCtx → FrameCtx) : (s.modIng f).net = s.net := rfl
@[simp] theorem State.modIng_ext (f : FrameCtx → FrameCtx) : (s.modIng f).ext = s.ext := rfl
@[simp] theorem State.modIng_peony (f : FrameCtx → FrameCtx) : (s.modIng f).peony = s.peony := rfl
@[simp] theorem State.modIng_sec (f : FrameCtx → FrameCtx) : (s.modIng f).sec = s.sec := rfl
@[simp] theorem State.modIng_safety (f : FrameCtx → FrameCtx) : (s.modIng f).safety = s.safety := rfl
@[simp] theorem State.modIng_power (f : FrameCtx → FrameCtx) : (s.modIng f).power = s.power := rfl
@[simp] theorem State.modIng_doip (f : FrameCtx → FrameCtx) : (s.modIng f).doip = s.doip := rfl
@[simp] theorem State.modIng_freeCtr (f : FrameCtx → FrameCtx) : (s.modIng f).freeCtr = s.freeCtr := rfl
@[simp] theorem State.modIng_pending (f : FrameCtx → FrameCtx) : (s.modIng f).pending = s.pending := rfl

@[simp] theorem State.modComp_dict (f : FrameCtx → FrameCtx) : (s.modComp f).dict = s.dict := rfl
@[simp] theorem State.modComp_log (f : FrameCtx → FrameCtx) : (s.modComp f).log = s.log := rfl
@[simp] theorem State.modComp_hap (f : FrameCtx → FrameCtx) : (s.modComp f).hap = s.hap := rfl
@[simp] theorem State.modComp_frame (f : FrameCtx → FrameCtx) : (s.modComp f).frame = { s.frame with comp := f s.frame.comp } := rfl
@[simp] theorem State.modComp_q (f : FrameCtx → FrameCtx) : (s.modComp f).q = s.q := rfl
@[simp] theorem State.modComp_ing (f : FrameCtx → FrameCtx) : (s.modComp f).ing = s.ing := rfl
@[simp] theorem State.modComp_cells (f : FrameCtx → FrameCtx) : (s.modComp f).cells = s.cells := rfl
@[simp] theorem State.modComp_cores (f : FrameCtx → FrameCtx) : (s.modComp f).cores = s.cores := rfl
@[simp] theorem State.modComp_fab (f : FrameCtx → FrameCtx) : (s.modComp f).fab = s.fab := rfl
@[simp] theorem State.modComp_books (f : FrameCtx → FrameCtx) : (s.modComp f).books = s.books := rfl
@[simp] theorem State.modComp_sched (f : FrameCtx → FrameCtx) : (s.modComp f).sched = s.sched := rfl
@[simp] theorem State.modComp_net (f : FrameCtx → FrameCtx) : (s.modComp f).net = s.net := rfl
@[simp] theorem State.modComp_ext (f : FrameCtx → FrameCtx) : (s.modComp f).ext = s.ext := rfl
@[simp] theorem State.modComp_peony (f : FrameCtx → FrameCtx) : (s.modComp f).peony = s.peony := rfl
@[simp] theorem State.modComp_sec (f : FrameCtx → FrameCtx) : (s.modComp f).sec = s.sec := rfl
@[simp] theorem State.modComp_safety (f : FrameCtx → FrameCtx) : (s.modComp f).safety = s.safety := rfl
@[simp] theorem State.modComp_power (f : FrameCtx → FrameCtx) : (s.modComp f).power = s.power := rfl
@[simp] theorem State.modComp_doip (f : FrameCtx → FrameCtx) : (s.modComp f).doip = s.doip := rfl
@[simp] theorem State.modComp_freeCtr (f : FrameCtx → FrameCtx) : (s.modComp f).freeCtr = s.freeCtr := rfl
@[simp] theorem State.modComp_pending (f : FrameCtx → FrameCtx) : (s.modComp f).pending = s.pending := rfl

@[simp] theorem State.causeIng_dict (w : CauseWord) (b : Nat) : (s.causeIng w b).dict = s.dict := rfl
@[simp] theorem State.causeIng_log (w : CauseWord) (b : Nat) : (s.causeIng w b).log = s.log := rfl
@[simp] theorem State.causeIng_hap (w : CauseWord) (b : Nat) : (s.causeIng w b).hap = s.hap := rfl
@[simp] theorem State.causeIng_q (w : CauseWord) (b : Nat) : (s.causeIng w b).q = s.q := rfl
@[simp] theorem State.causeIng_ing (w : CauseWord) (b : Nat) : (s.causeIng w b).ing = s.ing := rfl
@[simp] theorem State.causeIng_cells (w : CauseWord) (b : Nat) : (s.causeIng w b).cells = s.cells := rfl
@[simp] theorem State.causeIng_cores (w : CauseWord) (b : Nat) : (s.causeIng w b).cores = s.cores := rfl
@[simp] theorem State.causeIng_fab (w : CauseWord) (b : Nat) : (s.causeIng w b).fab = s.fab := rfl
@[simp] theorem State.causeIng_books (w : CauseWord) (b : Nat) : (s.causeIng w b).books = s.books := rfl
@[simp] theorem State.causeIng_sched (w : CauseWord) (b : Nat) : (s.causeIng w b).sched = s.sched := rfl
@[simp] theorem State.causeIng_net (w : CauseWord) (b : Nat) : (s.causeIng w b).net = s.net := rfl
@[simp] theorem State.causeIng_ext (w : CauseWord) (b : Nat) : (s.causeIng w b).ext = s.ext := rfl
@[simp] theorem State.causeIng_peony (w : CauseWord) (b : Nat) : (s.causeIng w b).peony = s.peony := rfl
@[simp] theorem State.causeIng_sec (w : CauseWord) (b : Nat) : (s.causeIng w b).sec = s.sec := rfl
@[simp] theorem State.causeIng_safety (w : CauseWord) (b : Nat) : (s.causeIng w b).safety = s.safety := rfl
@[simp] theorem State.causeIng_power (w : CauseWord) (b : Nat) : (s.causeIng w b).power = s.power := rfl
@[simp] theorem State.causeIng_doip (w : CauseWord) (b : Nat) : (s.causeIng w b).doip = s.doip := rfl
@[simp] theorem State.causeIng_freeCtr (w : CauseWord) (b : Nat) : (s.causeIng w b).freeCtr = s.freeCtr := rfl
@[simp] theorem State.causeIng_pending (w : CauseWord) (b : Nat) : (s.causeIng w b).pending = s.pending := rfl

@[simp] theorem State.causeComp_dict (w : CauseWord) (b : Nat) : (s.causeComp w b).dict = s.dict := rfl
@[simp] theorem State.causeComp_log (w : CauseWord) (b : Nat) : (s.causeComp w b).log = s.log := rfl
@[simp] theorem State.causeComp_hap (w : CauseWord) (b : Nat) : (s.causeComp w b).hap = s.hap := rfl
@[simp] theorem State.causeComp_q (w : CauseWord) (b : Nat) : (s.causeComp w b).q = s.q := rfl
@[simp] theorem State.causeComp_ing (w : CauseWord) (b : Nat) : (s.causeComp w b).ing = s.ing := rfl
@[simp] theorem State.causeComp_cells (w : CauseWord) (b : Nat) : (s.causeComp w b).cells = s.cells := rfl
@[simp] theorem State.causeComp_cores (w : CauseWord) (b : Nat) : (s.causeComp w b).cores = s.cores := rfl
@[simp] theorem State.causeComp_fab (w : CauseWord) (b : Nat) : (s.causeComp w b).fab = s.fab := rfl
@[simp] theorem State.causeComp_books (w : CauseWord) (b : Nat) : (s.causeComp w b).books = s.books := rfl
@[simp] theorem State.causeComp_sched (w : CauseWord) (b : Nat) : (s.causeComp w b).sched = s.sched := rfl
@[simp] theorem State.causeComp_net (w : CauseWord) (b : Nat) : (s.causeComp w b).net = s.net := rfl
@[simp] theorem State.causeComp_ext (w : CauseWord) (b : Nat) : (s.causeComp w b).ext = s.ext := rfl
@[simp] theorem State.causeComp_peony (w : CauseWord) (b : Nat) : (s.causeComp w b).peony = s.peony := rfl
@[simp] theorem State.causeComp_sec (w : CauseWord) (b : Nat) : (s.causeComp w b).sec = s.sec := rfl
@[simp] theorem State.causeComp_safety (w : CauseWord) (b : Nat) : (s.causeComp w b).safety = s.safety := rfl
@[simp] theorem State.causeComp_power (w : CauseWord) (b : Nat) : (s.causeComp w b).power = s.power := rfl
@[simp] theorem State.causeComp_doip (w : CauseWord) (b : Nat) : (s.causeComp w b).doip = s.doip := rfl
@[simp] theorem State.causeComp_freeCtr (w : CauseWord) (b : Nat) : (s.causeComp w b).freeCtr = s.freeCtr := rfl
@[simp] theorem State.causeComp_pending (w : CauseWord) (b : Nat) : (s.causeComp w b).pending = s.pending := rfl

@[simp] theorem State.modCore_dict (c : Fin 16) (f : Core → Core) : (s.modCore c f).dict = s.dict := rfl
@[simp] theorem State.modCore_log (c : Fin 16) (f : Core → Core) : (s.modCore c f).log = s.log := rfl
@[simp] theorem State.modCore_hap (c : Fin 16) (f : Core → Core) : (s.modCore c f).hap = s.hap := rfl
@[simp] theorem State.modCore_frame (c : Fin 16) (f : Core → Core) : (s.modCore c f).frame = s.frame := rfl
@[simp] theorem State.modCore_q (c : Fin 16) (f : Core → Core) : (s.modCore c f).q = s.q := rfl
@[simp] theorem State.modCore_ing (c : Fin 16) (f : Core → Core) : (s.modCore c f).ing = s.ing := rfl
@[simp] theorem State.modCore_cells (c : Fin 16) (f : Core → Core) : (s.modCore c f).cells = s.cells := rfl
@[simp] theorem State.modCore_fab (c : Fin 16) (f : Core → Core) : (s.modCore c f).fab = s.fab := rfl
@[simp] theorem State.modCore_books (c : Fin 16) (f : Core → Core) : (s.modCore c f).books = s.books := rfl
@[simp] theorem State.modCore_sched (c : Fin 16) (f : Core → Core) : (s.modCore c f).sched = s.sched := rfl
@[simp] theorem State.modCore_net (c : Fin 16) (f : Core → Core) : (s.modCore c f).net = s.net := rfl
@[simp] theorem State.modCore_ext (c : Fin 16) (f : Core → Core) : (s.modCore c f).ext = s.ext := rfl
@[simp] theorem State.modCore_peony (c : Fin 16) (f : Core → Core) : (s.modCore c f).peony = s.peony := rfl
@[simp] theorem State.modCore_sec (c : Fin 16) (f : Core → Core) : (s.modCore c f).sec = s.sec := rfl
@[simp] theorem State.modCore_safety (c : Fin 16) (f : Core → Core) : (s.modCore c f).safety = s.safety := rfl
@[simp] theorem State.modCore_power (c : Fin 16) (f : Core → Core) : (s.modCore c f).power = s.power := rfl
@[simp] theorem State.modCore_doip (c : Fin 16) (f : Core → Core) : (s.modCore c f).doip = s.doip := rfl
@[simp] theorem State.modCore_freeCtr (c : Fin 16) (f : Core → Core) : (s.modCore c f).freeCtr = s.freeCtr := rfl
@[simp] theorem State.modCore_pending (c : Fin 16) (f : Core → Core) : (s.modCore c f).pending = s.pending := rfl

@[simp] theorem State.modPad_dict (c : Fin 16) (f : Pad → Pad) : (s.modPad c f).dict = s.dict := rfl
@[simp] theorem State.modPad_log (c : Fin 16) (f : Pad → Pad) : (s.modPad c f).log = s.log := rfl
@[simp] theorem State.modPad_hap (c : Fin 16) (f : Pad → Pad) : (s.modPad c f).hap = s.hap := rfl
@[simp] theorem State.modPad_frame (c : Fin 16) (f : Pad → Pad) : (s.modPad c f).frame = s.frame := rfl
@[simp] theorem State.modPad_q (c : Fin 16) (f : Pad → Pad) : (s.modPad c f).q = s.q := rfl
@[simp] theorem State.modPad_ing (c : Fin 16) (f : Pad → Pad) : (s.modPad c f).ing = s.ing := rfl
@[simp] theorem State.modPad_cells (c : Fin 16) (f : Pad → Pad) : (s.modPad c f).cells = s.cells := rfl
@[simp] theorem State.modPad_fab (c : Fin 16) (f : Pad → Pad) : (s.modPad c f).fab = s.fab := rfl
@[simp] theorem State.modPad_books (c : Fin 16) (f : Pad → Pad) : (s.modPad c f).books = s.books := rfl
@[simp] theorem State.modPad_sched (c : Fin 16) (f : Pad → Pad) : (s.modPad c f).sched = s.sched := rfl
@[simp] theorem State.modPad_net (c : Fin 16) (f : Pad → Pad) : (s.modPad c f).net = s.net := rfl
@[simp] theorem State.modPad_ext (c : Fin 16) (f : Pad → Pad) : (s.modPad c f).ext = s.ext := rfl
@[simp] theorem State.modPad_peony (c : Fin 16) (f : Pad → Pad) : (s.modPad c f).peony = s.peony := rfl
@[simp] theorem State.modPad_sec (c : Fin 16) (f : Pad → Pad) : (s.modPad c f).sec = s.sec := rfl
@[simp] theorem State.modPad_safety (c : Fin 16) (f : Pad → Pad) : (s.modPad c f).safety = s.safety := rfl
@[simp] theorem State.modPad_power (c : Fin 16) (f : Pad → Pad) : (s.modPad c f).power = s.power := rfl
@[simp] theorem State.modPad_doip (c : Fin 16) (f : Pad → Pad) : (s.modPad c f).doip = s.doip := rfl
@[simp] theorem State.modPad_freeCtr (c : Fin 16) (f : Pad → Pad) : (s.modPad c f).freeCtr = s.freeCtr := rfl
@[simp] theorem State.modPad_pending (c : Fin 16) (f : Pad → Pad) : (s.modPad c f).pending = s.pending := rfl

@[simp] theorem State.modSeq_dict (c : Fin 16) (f : Seq → Seq) : (s.modSeq c f).dict = s.dict := rfl
@[simp] theorem State.modSeq_log (c : Fin 16) (f : Seq → Seq) : (s.modSeq c f).log = s.log := rfl
@[simp] theorem State.modSeq_hap (c : Fin 16) (f : Seq → Seq) : (s.modSeq c f).hap = s.hap := rfl
@[simp] theorem State.modSeq_frame (c : Fin 16) (f : Seq → Seq) : (s.modSeq c f).frame = s.frame := rfl
@[simp] theorem State.modSeq_q (c : Fin 16) (f : Seq → Seq) : (s.modSeq c f).q = s.q := rfl
@[simp] theorem State.modSeq_ing (c : Fin 16) (f : Seq → Seq) : (s.modSeq c f).ing = s.ing := rfl
@[simp] theorem State.modSeq_cells (c : Fin 16) (f : Seq → Seq) : (s.modSeq c f).cells = s.cells := rfl
@[simp] theorem State.modSeq_fab (c : Fin 16) (f : Seq → Seq) : (s.modSeq c f).fab = s.fab := rfl
@[simp] theorem State.modSeq_books (c : Fin 16) (f : Seq → Seq) : (s.modSeq c f).books = s.books := rfl
@[simp] theorem State.modSeq_sched (c : Fin 16) (f : Seq → Seq) : (s.modSeq c f).sched = s.sched := rfl
@[simp] theorem State.modSeq_net (c : Fin 16) (f : Seq → Seq) : (s.modSeq c f).net = s.net := rfl
@[simp] theorem State.modSeq_ext (c : Fin 16) (f : Seq → Seq) : (s.modSeq c f).ext = s.ext := rfl
@[simp] theorem State.modSeq_peony (c : Fin 16) (f : Seq → Seq) : (s.modSeq c f).peony = s.peony := rfl
@[simp] theorem State.modSeq_sec (c : Fin 16) (f : Seq → Seq) : (s.modSeq c f).sec = s.sec := rfl
@[simp] theorem State.modSeq_safety (c : Fin 16) (f : Seq → Seq) : (s.modSeq c f).safety = s.safety := rfl
@[simp] theorem State.modSeq_power (c : Fin 16) (f : Seq → Seq) : (s.modSeq c f).power = s.power := rfl
@[simp] theorem State.modSeq_doip (c : Fin 16) (f : Seq → Seq) : (s.modSeq c f).doip = s.doip := rfl
@[simp] theorem State.modSeq_freeCtr (c : Fin 16) (f : Seq → Seq) : (s.modSeq c f).freeCtr = s.freeCtr := rfl
@[simp] theorem State.modSeq_pending (c : Fin 16) (f : Seq → Seq) : (s.modSeq c f).pending = s.pending := rfl

@[simp] theorem State.modArr_dict (c : Fin 16) (f : Arr → Arr) : (s.modArr c f).dict = s.dict := rfl
@[simp] theorem State.modArr_log (c : Fin 16) (f : Arr → Arr) : (s.modArr c f).log = s.log := rfl
@[simp] theorem State.modArr_hap (c : Fin 16) (f : Arr → Arr) : (s.modArr c f).hap = s.hap := rfl
@[simp] theorem State.modArr_frame (c : Fin 16) (f : Arr → Arr) : (s.modArr c f).frame = s.frame := rfl
@[simp] theorem State.modArr_q (c : Fin 16) (f : Arr → Arr) : (s.modArr c f).q = s.q := rfl
@[simp] theorem State.modArr_ing (c : Fin 16) (f : Arr → Arr) : (s.modArr c f).ing = s.ing := rfl
@[simp] theorem State.modArr_cells (c : Fin 16) (f : Arr → Arr) : (s.modArr c f).cells = s.cells := rfl
@[simp] theorem State.modArr_fab (c : Fin 16) (f : Arr → Arr) : (s.modArr c f).fab = s.fab := rfl
@[simp] theorem State.modArr_books (c : Fin 16) (f : Arr → Arr) : (s.modArr c f).books = s.books := rfl
@[simp] theorem State.modArr_sched (c : Fin 16) (f : Arr → Arr) : (s.modArr c f).sched = s.sched := rfl
@[simp] theorem State.modArr_net (c : Fin 16) (f : Arr → Arr) : (s.modArr c f).net = s.net := rfl
@[simp] theorem State.modArr_ext (c : Fin 16) (f : Arr → Arr) : (s.modArr c f).ext = s.ext := rfl
@[simp] theorem State.modArr_peony (c : Fin 16) (f : Arr → Arr) : (s.modArr c f).peony = s.peony := rfl
@[simp] theorem State.modArr_sec (c : Fin 16) (f : Arr → Arr) : (s.modArr c f).sec = s.sec := rfl
@[simp] theorem State.modArr_safety (c : Fin 16) (f : Arr → Arr) : (s.modArr c f).safety = s.safety := rfl
@[simp] theorem State.modArr_power (c : Fin 16) (f : Arr → Arr) : (s.modArr c f).power = s.power := rfl
@[simp] theorem State.modArr_doip (c : Fin 16) (f : Arr → Arr) : (s.modArr c f).doip = s.doip := rfl
@[simp] theorem State.modArr_freeCtr (c : Fin 16) (f : Arr → Arr) : (s.modArr c f).freeCtr = s.freeCtr := rfl
@[simp] theorem State.modArr_pending (c : Fin 16) (f : Arr → Arr) : (s.modArr c f).pending = s.pending := rfl

@[simp] theorem State.ws_dict (c : Fin 16) (n : Nat) (v : Scalar) : (s.ws c n v).dict = s.dict := rfl
@[simp] theorem State.ws_log (c : Fin 16) (n : Nat) (v : Scalar) : (s.ws c n v).log = s.log := rfl
@[simp] theorem State.ws_hap (c : Fin 16) (n : Nat) (v : Scalar) : (s.ws c n v).hap = s.hap := rfl
@[simp] theorem State.ws_frame (c : Fin 16) (n : Nat) (v : Scalar) : (s.ws c n v).frame = s.frame := rfl
@[simp] theorem State.ws_q (c : Fin 16) (n : Nat) (v : Scalar) : (s.ws c n v).q = s.q := rfl
@[simp] theorem State.ws_ing (c : Fin 16) (n : Nat) (v : Scalar) : (s.ws c n v).ing = s.ing := rfl
@[simp] theorem State.ws_cells (c : Fin 16) (n : Nat) (v : Scalar) : (s.ws c n v).cells = s.cells := rfl
@[simp] theorem State.ws_fab (c : Fin 16) (n : Nat) (v : Scalar) : (s.ws c n v).fab = s.fab := rfl
@[simp] theorem State.ws_books (c : Fin 16) (n : Nat) (v : Scalar) : (s.ws c n v).books = s.books := rfl
@[simp] theorem State.ws_sched (c : Fin 16) (n : Nat) (v : Scalar) : (s.ws c n v).sched = s.sched := rfl
@[simp] theorem State.ws_net (c : Fin 16) (n : Nat) (v : Scalar) : (s.ws c n v).net = s.net := rfl
@[simp] theorem State.ws_ext (c : Fin 16) (n : Nat) (v : Scalar) : (s.ws c n v).ext = s.ext := rfl
@[simp] theorem State.ws_peony (c : Fin 16) (n : Nat) (v : Scalar) : (s.ws c n v).peony = s.peony := rfl
@[simp] theorem State.ws_sec (c : Fin 16) (n : Nat) (v : Scalar) : (s.ws c n v).sec = s.sec := rfl
@[simp] theorem State.ws_safety (c : Fin 16) (n : Nat) (v : Scalar) : (s.ws c n v).safety = s.safety := rfl
@[simp] theorem State.ws_power (c : Fin 16) (n : Nat) (v : Scalar) : (s.ws c n v).power = s.power := rfl
@[simp] theorem State.ws_doip (c : Fin 16) (n : Nat) (v : Scalar) : (s.ws c n v).doip = s.doip := rfl
@[simp] theorem State.ws_freeCtr (c : Fin 16) (n : Nat) (v : Scalar) : (s.ws c n v).freeCtr = s.freeCtr := rfl
@[simp] theorem State.ws_pending (c : Fin 16) (n : Nat) (v : Scalar) : (s.ws c n v).pending = s.pending := rfl

@[simp] theorem State.setPc_dict (c : Fin 16) (p : Nat) : (s.setPc c p).dict = s.dict := rfl
@[simp] theorem State.setPc_log (c : Fin 16) (p : Nat) : (s.setPc c p).log = s.log := rfl
@[simp] theorem State.setPc_hap (c : Fin 16) (p : Nat) : (s.setPc c p).hap = s.hap := rfl
@[simp] theorem State.setPc_frame (c : Fin 16) (p : Nat) : (s.setPc c p).frame = s.frame := rfl
@[simp] theorem State.setPc_q (c : Fin 16) (p : Nat) : (s.setPc c p).q = s.q := rfl
@[simp] theorem State.setPc_ing (c : Fin 16) (p : Nat) : (s.setPc c p).ing = s.ing := rfl
@[simp] theorem State.setPc_cells (c : Fin 16) (p : Nat) : (s.setPc c p).cells = s.cells := rfl
@[simp] theorem State.setPc_fab (c : Fin 16) (p : Nat) : (s.setPc c p).fab = s.fab := rfl
@[simp] theorem State.setPc_books (c : Fin 16) (p : Nat) : (s.setPc c p).books = s.books := rfl
@[simp] theorem State.setPc_sched (c : Fin 16) (p : Nat) : (s.setPc c p).sched = s.sched := rfl
@[simp] theorem State.setPc_net (c : Fin 16) (p : Nat) : (s.setPc c p).net = s.net := rfl
@[simp] theorem State.setPc_ext (c : Fin 16) (p : Nat) : (s.setPc c p).ext = s.ext := rfl
@[simp] theorem State.setPc_peony (c : Fin 16) (p : Nat) : (s.setPc c p).peony = s.peony := rfl
@[simp] theorem State.setPc_sec (c : Fin 16) (p : Nat) : (s.setPc c p).sec = s.sec := rfl
@[simp] theorem State.setPc_safety (c : Fin 16) (p : Nat) : (s.setPc c p).safety = s.safety := rfl
@[simp] theorem State.setPc_power (c : Fin 16) (p : Nat) : (s.setPc c p).power = s.power := rfl
@[simp] theorem State.setPc_doip (c : Fin 16) (p : Nat) : (s.setPc c p).doip = s.doip := rfl
@[simp] theorem State.setPc_freeCtr (c : Fin 16) (p : Nat) : (s.setPc c p).freeCtr = s.freeCtr := rfl
@[simp] theorem State.setPc_pending (c : Fin 16) (p : Nat) : (s.setPc c p).pending = s.pending := rfl

@[simp] theorem State.waitFor_dict (c : Fin 16) (x : Wait) : (s.waitFor c x).dict = s.dict := rfl
@[simp] theorem State.waitFor_log (c : Fin 16) (x : Wait) : (s.waitFor c x).log = s.log := rfl
@[simp] theorem State.waitFor_hap (c : Fin 16) (x : Wait) : (s.waitFor c x).hap = s.hap := rfl
@[simp] theorem State.waitFor_frame (c : Fin 16) (x : Wait) : (s.waitFor c x).frame = s.frame := rfl
@[simp] theorem State.waitFor_q (c : Fin 16) (x : Wait) : (s.waitFor c x).q = s.q := rfl
@[simp] theorem State.waitFor_ing (c : Fin 16) (x : Wait) : (s.waitFor c x).ing = s.ing := rfl
@[simp] theorem State.waitFor_cells (c : Fin 16) (x : Wait) : (s.waitFor c x).cells = s.cells := rfl
@[simp] theorem State.waitFor_fab (c : Fin 16) (x : Wait) : (s.waitFor c x).fab = s.fab := rfl
@[simp] theorem State.waitFor_books (c : Fin 16) (x : Wait) : (s.waitFor c x).books = s.books := rfl
@[simp] theorem State.waitFor_sched (c : Fin 16) (x : Wait) : (s.waitFor c x).sched = s.sched := rfl
@[simp] theorem State.waitFor_net (c : Fin 16) (x : Wait) : (s.waitFor c x).net = s.net := rfl
@[simp] theorem State.waitFor_ext (c : Fin 16) (x : Wait) : (s.waitFor c x).ext = s.ext := rfl
@[simp] theorem State.waitFor_peony (c : Fin 16) (x : Wait) : (s.waitFor c x).peony = s.peony := rfl
@[simp] theorem State.waitFor_sec (c : Fin 16) (x : Wait) : (s.waitFor c x).sec = s.sec := rfl
@[simp] theorem State.waitFor_safety (c : Fin 16) (x : Wait) : (s.waitFor c x).safety = s.safety := rfl
@[simp] theorem State.waitFor_power (c : Fin 16) (x : Wait) : (s.waitFor c x).power = s.power := rfl
@[simp] theorem State.waitFor_doip (c : Fin 16) (x : Wait) : (s.waitFor c x).doip = s.doip := rfl
@[simp] theorem State.waitFor_freeCtr (c : Fin 16) (x : Wait) : (s.waitFor c x).freeCtr = s.freeCtr := rfl
@[simp] theorem State.waitFor_pending (c : Fin 16) (x : Wait) : (s.waitFor c x).pending = s.pending := rfl

@[simp] theorem State.resume_dict (c : Fin 16) : (s.resume c).dict = s.dict := rfl
@[simp] theorem State.resume_log (c : Fin 16) : (s.resume c).log = s.log := rfl
@[simp] theorem State.resume_hap (c : Fin 16) : (s.resume c).hap = s.hap := rfl
@[simp] theorem State.resume_frame (c : Fin 16) : (s.resume c).frame = s.frame := rfl
@[simp] theorem State.resume_q (c : Fin 16) : (s.resume c).q = s.q := rfl
@[simp] theorem State.resume_ing (c : Fin 16) : (s.resume c).ing = s.ing := rfl
@[simp] theorem State.resume_cells (c : Fin 16) : (s.resume c).cells = s.cells := rfl
@[simp] theorem State.resume_fab (c : Fin 16) : (s.resume c).fab = s.fab := rfl
@[simp] theorem State.resume_books (c : Fin 16) : (s.resume c).books = s.books := rfl
@[simp] theorem State.resume_sched (c : Fin 16) : (s.resume c).sched = s.sched := rfl
@[simp] theorem State.resume_net (c : Fin 16) : (s.resume c).net = s.net := rfl
@[simp] theorem State.resume_ext (c : Fin 16) : (s.resume c).ext = s.ext := rfl
@[simp] theorem State.resume_peony (c : Fin 16) : (s.resume c).peony = s.peony := rfl
@[simp] theorem State.resume_sec (c : Fin 16) : (s.resume c).sec = s.sec := rfl
@[simp] theorem State.resume_safety (c : Fin 16) : (s.resume c).safety = s.safety := rfl
@[simp] theorem State.resume_power (c : Fin 16) : (s.resume c).power = s.power := rfl
@[simp] theorem State.resume_doip (c : Fin 16) : (s.resume c).doip = s.doip := rfl
@[simp] theorem State.resume_freeCtr (c : Fin 16) : (s.resume c).freeCtr = s.freeCtr := rfl
@[simp] theorem State.resume_pending (c : Fin 16) : (s.resume c).pending = s.pending := rfl

@[simp] theorem State.setQueue_dict (i : Fin 24) (x : Queue) : (s.setQueue i x).dict = s.dict := rfl
@[simp] theorem State.setQueue_log (i : Fin 24) (x : Queue) : (s.setQueue i x).log = s.log := rfl
@[simp] theorem State.setQueue_hap (i : Fin 24) (x : Queue) : (s.setQueue i x).hap = s.hap := rfl
@[simp] theorem State.setQueue_frame (i : Fin 24) (x : Queue) : (s.setQueue i x).frame = s.frame := rfl
@[simp] theorem State.setQueue_q (i : Fin 24) (x : Queue) : (s.setQueue i x).q = s.q.set i x := rfl
@[simp] theorem State.setQueue_ing (i : Fin 24) (x : Queue) : (s.setQueue i x).ing = s.ing := rfl
@[simp] theorem State.setQueue_cells (i : Fin 24) (x : Queue) : (s.setQueue i x).cells = s.cells := rfl
@[simp] theorem State.setQueue_cores (i : Fin 24) (x : Queue) : (s.setQueue i x).cores = s.cores := rfl
@[simp] theorem State.setQueue_fab (i : Fin 24) (x : Queue) : (s.setQueue i x).fab = s.fab := rfl
@[simp] theorem State.setQueue_books (i : Fin 24) (x : Queue) : (s.setQueue i x).books = s.books := rfl
@[simp] theorem State.setQueue_sched (i : Fin 24) (x : Queue) : (s.setQueue i x).sched = s.sched := rfl
@[simp] theorem State.setQueue_net (i : Fin 24) (x : Queue) : (s.setQueue i x).net = s.net := rfl
@[simp] theorem State.setQueue_ext (i : Fin 24) (x : Queue) : (s.setQueue i x).ext = s.ext := rfl
@[simp] theorem State.setQueue_peony (i : Fin 24) (x : Queue) : (s.setQueue i x).peony = s.peony := rfl
@[simp] theorem State.setQueue_sec (i : Fin 24) (x : Queue) : (s.setQueue i x).sec = s.sec := rfl
@[simp] theorem State.setQueue_safety (i : Fin 24) (x : Queue) : (s.setQueue i x).safety = s.safety := rfl
@[simp] theorem State.setQueue_power (i : Fin 24) (x : Queue) : (s.setQueue i x).power = s.power := rfl
@[simp] theorem State.setQueue_doip (i : Fin 24) (x : Queue) : (s.setQueue i x).doip = s.doip := rfl
@[simp] theorem State.setQueue_freeCtr (i : Fin 24) (x : Queue) : (s.setQueue i x).freeCtr = s.freeCtr := rfl
@[simp] theorem State.setQueue_pending (i : Fin 24) (x : Queue) : (s.setQueue i x).pending = s.pending := rfl

@[simp] theorem State.modEngine_dict (e : Fin 16) (f : Engine → Engine) : (s.modEngine e f).dict = s.dict := rfl
@[simp] theorem State.modEngine_log (e : Fin 16) (f : Engine → Engine) : (s.modEngine e f).log = s.log := rfl
@[simp] theorem State.modEngine_hap (e : Fin 16) (f : Engine → Engine) : (s.modEngine e f).hap = s.hap := rfl
@[simp] theorem State.modEngine_frame (e : Fin 16) (f : Engine → Engine) : (s.modEngine e f).frame = s.frame := rfl
@[simp] theorem State.modEngine_q (e : Fin 16) (f : Engine → Engine) : (s.modEngine e f).q = s.q := rfl
@[simp] theorem State.modEngine_cells (e : Fin 16) (f : Engine → Engine) : (s.modEngine e f).cells = s.cells := rfl
@[simp] theorem State.modEngine_cores (e : Fin 16) (f : Engine → Engine) : (s.modEngine e f).cores = s.cores := rfl
@[simp] theorem State.modEngine_fab (e : Fin 16) (f : Engine → Engine) : (s.modEngine e f).fab = s.fab := rfl
@[simp] theorem State.modEngine_books (e : Fin 16) (f : Engine → Engine) : (s.modEngine e f).books = s.books := rfl
@[simp] theorem State.modEngine_sched (e : Fin 16) (f : Engine → Engine) : (s.modEngine e f).sched = s.sched := rfl
@[simp] theorem State.modEngine_net (e : Fin 16) (f : Engine → Engine) : (s.modEngine e f).net = s.net := rfl
@[simp] theorem State.modEngine_ext (e : Fin 16) (f : Engine → Engine) : (s.modEngine e f).ext = s.ext := rfl
@[simp] theorem State.modEngine_peony (e : Fin 16) (f : Engine → Engine) : (s.modEngine e f).peony = s.peony := rfl
@[simp] theorem State.modEngine_sec (e : Fin 16) (f : Engine → Engine) : (s.modEngine e f).sec = s.sec := rfl
@[simp] theorem State.modEngine_safety (e : Fin 16) (f : Engine → Engine) : (s.modEngine e f).safety = s.safety := rfl
@[simp] theorem State.modEngine_power (e : Fin 16) (f : Engine → Engine) : (s.modEngine e f).power = s.power := rfl
@[simp] theorem State.modEngine_doip (e : Fin 16) (f : Engine → Engine) : (s.modEngine e f).doip = s.doip := rfl
@[simp] theorem State.modEngine_freeCtr (e : Fin 16) (f : Engine → Engine) : (s.modEngine e f).freeCtr = s.freeCtr := rfl
@[simp] theorem State.modEngine_pending (e : Fin 16) (f : Engine → Engine) : (s.modEngine e f).pending = s.pending := rfl

@[simp] theorem State.modHead_dict (p : Fin 8) (f : Head → Head) : (s.modHead p f).dict = s.dict := rfl
@[simp] theorem State.modHead_log (p : Fin 8) (f : Head → Head) : (s.modHead p f).log = s.log := rfl
@[simp] theorem State.modHead_hap (p : Fin 8) (f : Head → Head) : (s.modHead p f).hap = s.hap := rfl
@[simp] theorem State.modHead_frame (p : Fin 8) (f : Head → Head) : (s.modHead p f).frame = s.frame := rfl
@[simp] theorem State.modHead_q (p : Fin 8) (f : Head → Head) : (s.modHead p f).q = s.q := rfl
@[simp] theorem State.modHead_cells (p : Fin 8) (f : Head → Head) : (s.modHead p f).cells = s.cells := rfl
@[simp] theorem State.modHead_cores (p : Fin 8) (f : Head → Head) : (s.modHead p f).cores = s.cores := rfl
@[simp] theorem State.modHead_fab (p : Fin 8) (f : Head → Head) : (s.modHead p f).fab = s.fab := rfl
@[simp] theorem State.modHead_books (p : Fin 8) (f : Head → Head) : (s.modHead p f).books = s.books := rfl
@[simp] theorem State.modHead_sched (p : Fin 8) (f : Head → Head) : (s.modHead p f).sched = s.sched := rfl
@[simp] theorem State.modHead_net (p : Fin 8) (f : Head → Head) : (s.modHead p f).net = s.net := rfl
@[simp] theorem State.modHead_ext (p : Fin 8) (f : Head → Head) : (s.modHead p f).ext = s.ext := rfl
@[simp] theorem State.modHead_peony (p : Fin 8) (f : Head → Head) : (s.modHead p f).peony = s.peony := rfl
@[simp] theorem State.modHead_sec (p : Fin 8) (f : Head → Head) : (s.modHead p f).sec = s.sec := rfl
@[simp] theorem State.modHead_safety (p : Fin 8) (f : Head → Head) : (s.modHead p f).safety = s.safety := rfl
@[simp] theorem State.modHead_power (p : Fin 8) (f : Head → Head) : (s.modHead p f).power = s.power := rfl
@[simp] theorem State.modHead_doip (p : Fin 8) (f : Head → Head) : (s.modHead p f).doip = s.doip := rfl
@[simp] theorem State.modHead_freeCtr (p : Fin 8) (f : Head → Head) : (s.modHead p f).freeCtr = s.freeCtr := rfl
@[simp] theorem State.modHead_pending (p : Fin 8) (f : Head → Head) : (s.modHead p f).pending = s.pending := rfl

@[simp] theorem State.modBooks_dict (f : Books → Books) : (s.modBooks f).dict = s.dict := rfl
@[simp] theorem State.modBooks_log (f : Books → Books) : (s.modBooks f).log = s.log := rfl
@[simp] theorem State.modBooks_hap (f : Books → Books) : (s.modBooks f).hap = s.hap := rfl
@[simp] theorem State.modBooks_frame (f : Books → Books) : (s.modBooks f).frame = s.frame := rfl
@[simp] theorem State.modBooks_q (f : Books → Books) : (s.modBooks f).q = s.q := rfl
@[simp] theorem State.modBooks_ing (f : Books → Books) : (s.modBooks f).ing = s.ing := rfl
@[simp] theorem State.modBooks_cells (f : Books → Books) : (s.modBooks f).cells = s.cells := rfl
@[simp] theorem State.modBooks_cores (f : Books → Books) : (s.modBooks f).cores = s.cores := rfl
@[simp] theorem State.modBooks_fab (f : Books → Books) : (s.modBooks f).fab = s.fab := rfl
@[simp] theorem State.modBooks_books (f : Books → Books) : (s.modBooks f).books = f s.books := rfl
@[simp] theorem State.modBooks_sched (f : Books → Books) : (s.modBooks f).sched = s.sched := rfl
@[simp] theorem State.modBooks_net (f : Books → Books) : (s.modBooks f).net = s.net := rfl
@[simp] theorem State.modBooks_ext (f : Books → Books) : (s.modBooks f).ext = s.ext := rfl
@[simp] theorem State.modBooks_peony (f : Books → Books) : (s.modBooks f).peony = s.peony := rfl
@[simp] theorem State.modBooks_sec (f : Books → Books) : (s.modBooks f).sec = s.sec := rfl
@[simp] theorem State.modBooks_safety (f : Books → Books) : (s.modBooks f).safety = s.safety := rfl
@[simp] theorem State.modBooks_power (f : Books → Books) : (s.modBooks f).power = s.power := rfl
@[simp] theorem State.modBooks_doip (f : Books → Books) : (s.modBooks f).doip = s.doip := rfl
@[simp] theorem State.modBooks_freeCtr (f : Books → Books) : (s.modBooks f).freeCtr = s.freeCtr := rfl
@[simp] theorem State.modBooks_pending (f : Books → Books) : (s.modBooks f).pending = s.pending := rfl

@[simp] theorem State.modExt_dict (f : Ext → Ext) : (s.modExt f).dict = s.dict := rfl
@[simp] theorem State.modExt_log (f : Ext → Ext) : (s.modExt f).log = s.log := rfl
@[simp] theorem State.modExt_hap (f : Ext → Ext) : (s.modExt f).hap = s.hap := rfl
@[simp] theorem State.modExt_frame (f : Ext → Ext) : (s.modExt f).frame = s.frame := rfl
@[simp] theorem State.modExt_q (f : Ext → Ext) : (s.modExt f).q = s.q := rfl
@[simp] theorem State.modExt_ing (f : Ext → Ext) : (s.modExt f).ing = s.ing := rfl
@[simp] theorem State.modExt_cells (f : Ext → Ext) : (s.modExt f).cells = s.cells := rfl
@[simp] theorem State.modExt_cores (f : Ext → Ext) : (s.modExt f).cores = s.cores := rfl
@[simp] theorem State.modExt_fab (f : Ext → Ext) : (s.modExt f).fab = s.fab := rfl
@[simp] theorem State.modExt_books (f : Ext → Ext) : (s.modExt f).books = s.books := rfl
@[simp] theorem State.modExt_sched (f : Ext → Ext) : (s.modExt f).sched = s.sched := rfl
@[simp] theorem State.modExt_net (f : Ext → Ext) : (s.modExt f).net = s.net := rfl
@[simp] theorem State.modExt_ext (f : Ext → Ext) : (s.modExt f).ext = f s.ext := rfl
@[simp] theorem State.modExt_peony (f : Ext → Ext) : (s.modExt f).peony = s.peony := rfl
@[simp] theorem State.modExt_sec (f : Ext → Ext) : (s.modExt f).sec = s.sec := rfl
@[simp] theorem State.modExt_safety (f : Ext → Ext) : (s.modExt f).safety = s.safety := rfl
@[simp] theorem State.modExt_power (f : Ext → Ext) : (s.modExt f).power = s.power := rfl
@[simp] theorem State.modExt_doip (f : Ext → Ext) : (s.modExt f).doip = s.doip := rfl
@[simp] theorem State.modExt_freeCtr (f : Ext → Ext) : (s.modExt f).freeCtr = s.freeCtr := rfl
@[simp] theorem State.modExt_pending (f : Ext → Ext) : (s.modExt f).pending = s.pending := rfl

@[simp] theorem State.modSched_dict (f : Sched → Sched) : (s.modSched f).dict = s.dict := rfl
@[simp] theorem State.modSched_log (f : Sched → Sched) : (s.modSched f).log = s.log := rfl
@[simp] theorem State.modSched_hap (f : Sched → Sched) : (s.modSched f).hap = s.hap := rfl
@[simp] theorem State.modSched_frame (f : Sched → Sched) : (s.modSched f).frame = s.frame := rfl
@[simp] theorem State.modSched_q (f : Sched → Sched) : (s.modSched f).q = s.q := rfl
@[simp] theorem State.modSched_ing (f : Sched → Sched) : (s.modSched f).ing = s.ing := rfl
@[simp] theorem State.modSched_cells (f : Sched → Sched) : (s.modSched f).cells = s.cells := rfl
@[simp] theorem State.modSched_cores (f : Sched → Sched) : (s.modSched f).cores = s.cores := rfl
@[simp] theorem State.modSched_fab (f : Sched → Sched) : (s.modSched f).fab = s.fab := rfl
@[simp] theorem State.modSched_books (f : Sched → Sched) : (s.modSched f).books = s.books := rfl
@[simp] theorem State.modSched_sched (f : Sched → Sched) : (s.modSched f).sched = f s.sched := rfl
@[simp] theorem State.modSched_net (f : Sched → Sched) : (s.modSched f).net = s.net := rfl
@[simp] theorem State.modSched_ext (f : Sched → Sched) : (s.modSched f).ext = s.ext := rfl
@[simp] theorem State.modSched_peony (f : Sched → Sched) : (s.modSched f).peony = s.peony := rfl
@[simp] theorem State.modSched_sec (f : Sched → Sched) : (s.modSched f).sec = s.sec := rfl
@[simp] theorem State.modSched_safety (f : Sched → Sched) : (s.modSched f).safety = s.safety := rfl
@[simp] theorem State.modSched_power (f : Sched → Sched) : (s.modSched f).power = s.power := rfl
@[simp] theorem State.modSched_doip (f : Sched → Sched) : (s.modSched f).doip = s.doip := rfl
@[simp] theorem State.modSched_freeCtr (f : Sched → Sched) : (s.modSched f).freeCtr = s.freeCtr := rfl
@[simp] theorem State.modSched_pending (f : Sched → Sched) : (s.modSched f).pending = s.pending := rfl

@[simp] theorem State.modInst_dict (a b : Nat) (f : Inst → Inst) : (s.modInst a b f).dict = s.dict := rfl
@[simp] theorem State.modInst_log (a b : Nat) (f : Inst → Inst) : (s.modInst a b f).log = s.log := rfl
@[simp] theorem State.modInst_hap (a b : Nat) (f : Inst → Inst) : (s.modInst a b f).hap = s.hap := rfl
@[simp] theorem State.modInst_frame (a b : Nat) (f : Inst → Inst) : (s.modInst a b f).frame = s.frame := rfl
@[simp] theorem State.modInst_q (a b : Nat) (f : Inst → Inst) : (s.modInst a b f).q = s.q := rfl
@[simp] theorem State.modInst_ing (a b : Nat) (f : Inst → Inst) : (s.modInst a b f).ing = s.ing := rfl
@[simp] theorem State.modInst_cells (a b : Nat) (f : Inst → Inst) : (s.modInst a b f).cells = s.cells := rfl
@[simp] theorem State.modInst_cores (a b : Nat) (f : Inst → Inst) : (s.modInst a b f).cores = s.cores := rfl
@[simp] theorem State.modInst_fab (a b : Nat) (f : Inst → Inst) : (s.modInst a b f).fab = s.fab := rfl
@[simp] theorem State.modInst_books (a b : Nat) (f : Inst → Inst) : (s.modInst a b f).books = s.books := rfl
@[simp] theorem State.modInst_net (a b : Nat) (f : Inst → Inst) : (s.modInst a b f).net = s.net := rfl
@[simp] theorem State.modInst_ext (a b : Nat) (f : Inst → Inst) : (s.modInst a b f).ext = s.ext := rfl
@[simp] theorem State.modInst_peony (a b : Nat) (f : Inst → Inst) : (s.modInst a b f).peony = s.peony := rfl
@[simp] theorem State.modInst_sec (a b : Nat) (f : Inst → Inst) : (s.modInst a b f).sec = s.sec := rfl
@[simp] theorem State.modInst_safety (a b : Nat) (f : Inst → Inst) : (s.modInst a b f).safety = s.safety := rfl
@[simp] theorem State.modInst_power (a b : Nat) (f : Inst → Inst) : (s.modInst a b f).power = s.power := rfl
@[simp] theorem State.modInst_doip (a b : Nat) (f : Inst → Inst) : (s.modInst a b f).doip = s.doip := rfl
@[simp] theorem State.modInst_freeCtr (a b : Nat) (f : Inst → Inst) : (s.modInst a b f).freeCtr = s.freeCtr := rfl
@[simp] theorem State.modInst_pending (a b : Nat) (f : Inst → Inst) : (s.modInst a b f).pending = s.pending := rfl

@[simp] theorem State.modSafety_dict (f : Safety → Safety) : (s.modSafety f).dict = s.dict := rfl
@[simp] theorem State.modSafety_log (f : Safety → Safety) : (s.modSafety f).log = s.log := rfl
@[simp] theorem State.modSafety_hap (f : Safety → Safety) : (s.modSafety f).hap = s.hap := rfl
@[simp] theorem State.modSafety_frame (f : Safety → Safety) : (s.modSafety f).frame = s.frame := rfl
@[simp] theorem State.modSafety_q (f : Safety → Safety) : (s.modSafety f).q = s.q := rfl
@[simp] theorem State.modSafety_ing (f : Safety → Safety) : (s.modSafety f).ing = s.ing := rfl
@[simp] theorem State.modSafety_cells (f : Safety → Safety) : (s.modSafety f).cells = s.cells := rfl
@[simp] theorem State.modSafety_cores (f : Safety → Safety) : (s.modSafety f).cores = s.cores := rfl
@[simp] theorem State.modSafety_fab (f : Safety → Safety) : (s.modSafety f).fab = s.fab := rfl
@[simp] theorem State.modSafety_books (f : Safety → Safety) : (s.modSafety f).books = s.books := rfl
@[simp] theorem State.modSafety_sched (f : Safety → Safety) : (s.modSafety f).sched = s.sched := rfl
@[simp] theorem State.modSafety_net (f : Safety → Safety) : (s.modSafety f).net = s.net := rfl
@[simp] theorem State.modSafety_ext (f : Safety → Safety) : (s.modSafety f).ext = s.ext := rfl
@[simp] theorem State.modSafety_peony (f : Safety → Safety) : (s.modSafety f).peony = s.peony := rfl
@[simp] theorem State.modSafety_sec (f : Safety → Safety) : (s.modSafety f).sec = s.sec := rfl
@[simp] theorem State.modSafety_safety (f : Safety → Safety) : (s.modSafety f).safety = f s.safety := rfl
@[simp] theorem State.modSafety_power (f : Safety → Safety) : (s.modSafety f).power = s.power := rfl
@[simp] theorem State.modSafety_doip (f : Safety → Safety) : (s.modSafety f).doip = s.doip := rfl
@[simp] theorem State.modSafety_freeCtr (f : Safety → Safety) : (s.modSafety f).freeCtr = s.freeCtr := rfl
@[simp] theorem State.modSafety_pending (f : Safety → Safety) : (s.modSafety f).pending = s.pending := rfl

@[simp] theorem State.modSec_dict (f : Sec → Sec) : (s.modSec f).dict = s.dict := rfl
@[simp] theorem State.modSec_log (f : Sec → Sec) : (s.modSec f).log = s.log := rfl
@[simp] theorem State.modSec_hap (f : Sec → Sec) : (s.modSec f).hap = s.hap := rfl
@[simp] theorem State.modSec_frame (f : Sec → Sec) : (s.modSec f).frame = s.frame := rfl
@[simp] theorem State.modSec_q (f : Sec → Sec) : (s.modSec f).q = s.q := rfl
@[simp] theorem State.modSec_ing (f : Sec → Sec) : (s.modSec f).ing = s.ing := rfl
@[simp] theorem State.modSec_cells (f : Sec → Sec) : (s.modSec f).cells = s.cells := rfl
@[simp] theorem State.modSec_cores (f : Sec → Sec) : (s.modSec f).cores = s.cores := rfl
@[simp] theorem State.modSec_fab (f : Sec → Sec) : (s.modSec f).fab = s.fab := rfl
@[simp] theorem State.modSec_books (f : Sec → Sec) : (s.modSec f).books = s.books := rfl
@[simp] theorem State.modSec_sched (f : Sec → Sec) : (s.modSec f).sched = s.sched := rfl
@[simp] theorem State.modSec_net (f : Sec → Sec) : (s.modSec f).net = s.net := rfl
@[simp] theorem State.modSec_ext (f : Sec → Sec) : (s.modSec f).ext = s.ext := rfl
@[simp] theorem State.modSec_peony (f : Sec → Sec) : (s.modSec f).peony = s.peony := rfl
@[simp] theorem State.modSec_sec (f : Sec → Sec) : (s.modSec f).sec = f s.sec := rfl
@[simp] theorem State.modSec_safety (f : Sec → Sec) : (s.modSec f).safety = s.safety := rfl
@[simp] theorem State.modSec_power (f : Sec → Sec) : (s.modSec f).power = s.power := rfl
@[simp] theorem State.modSec_doip (f : Sec → Sec) : (s.modSec f).doip = s.doip := rfl
@[simp] theorem State.modSec_freeCtr (f : Sec → Sec) : (s.modSec f).freeCtr = s.freeCtr := rfl
@[simp] theorem State.modSec_pending (f : Sec → Sec) : (s.modSec f).pending = s.pending := rfl

@[simp] theorem State.modPower_dict (f : Power → Power) : (s.modPower f).dict = s.dict := rfl
@[simp] theorem State.modPower_log (f : Power → Power) : (s.modPower f).log = s.log := rfl
@[simp] theorem State.modPower_hap (f : Power → Power) : (s.modPower f).hap = s.hap := rfl
@[simp] theorem State.modPower_frame (f : Power → Power) : (s.modPower f).frame = s.frame := rfl
@[simp] theorem State.modPower_q (f : Power → Power) : (s.modPower f).q = s.q := rfl
@[simp] theorem State.modPower_ing (f : Power → Power) : (s.modPower f).ing = s.ing := rfl
@[simp] theorem State.modPower_cells (f : Power → Power) : (s.modPower f).cells = s.cells := rfl
@[simp] theorem State.modPower_cores (f : Power → Power) : (s.modPower f).cores = s.cores := rfl
@[simp] theorem State.modPower_fab (f : Power → Power) : (s.modPower f).fab = s.fab := rfl
@[simp] theorem State.modPower_books (f : Power → Power) : (s.modPower f).books = s.books := rfl
@[simp] theorem State.modPower_sched (f : Power → Power) : (s.modPower f).sched = s.sched := rfl
@[simp] theorem State.modPower_net (f : Power → Power) : (s.modPower f).net = s.net := rfl
@[simp] theorem State.modPower_ext (f : Power → Power) : (s.modPower f).ext = s.ext := rfl
@[simp] theorem State.modPower_peony (f : Power → Power) : (s.modPower f).peony = s.peony := rfl
@[simp] theorem State.modPower_sec (f : Power → Power) : (s.modPower f).sec = s.sec := rfl
@[simp] theorem State.modPower_safety (f : Power → Power) : (s.modPower f).safety = s.safety := rfl
@[simp] theorem State.modPower_power (f : Power → Power) : (s.modPower f).power = f s.power := rfl
@[simp] theorem State.modPower_doip (f : Power → Power) : (s.modPower f).doip = s.doip := rfl
@[simp] theorem State.modPower_freeCtr (f : Power → Power) : (s.modPower f).freeCtr = s.freeCtr := rfl
@[simp] theorem State.modPower_pending (f : Power → Power) : (s.modPower f).pending = s.pending := rfl

@[simp] theorem State.modDoip_dict (c : Fin 2) (f : Doip → Doip) : (s.modDoip c f).dict = s.dict := rfl
@[simp] theorem State.modDoip_log (c : Fin 2) (f : Doip → Doip) : (s.modDoip c f).log = s.log := rfl
@[simp] theorem State.modDoip_hap (c : Fin 2) (f : Doip → Doip) : (s.modDoip c f).hap = s.hap := rfl
@[simp] theorem State.modDoip_frame (c : Fin 2) (f : Doip → Doip) : (s.modDoip c f).frame = s.frame := rfl
@[simp] theorem State.modDoip_q (c : Fin 2) (f : Doip → Doip) : (s.modDoip c f).q = s.q := rfl
@[simp] theorem State.modDoip_ing (c : Fin 2) (f : Doip → Doip) : (s.modDoip c f).ing = s.ing := rfl
@[simp] theorem State.modDoip_cells (c : Fin 2) (f : Doip → Doip) : (s.modDoip c f).cells = s.cells := rfl
@[simp] theorem State.modDoip_cores (c : Fin 2) (f : Doip → Doip) : (s.modDoip c f).cores = s.cores := rfl
@[simp] theorem State.modDoip_fab (c : Fin 2) (f : Doip → Doip) : (s.modDoip c f).fab = s.fab := rfl
@[simp] theorem State.modDoip_books (c : Fin 2) (f : Doip → Doip) : (s.modDoip c f).books = s.books := rfl
@[simp] theorem State.modDoip_sched (c : Fin 2) (f : Doip → Doip) : (s.modDoip c f).sched = s.sched := rfl
@[simp] theorem State.modDoip_net (c : Fin 2) (f : Doip → Doip) : (s.modDoip c f).net = s.net := rfl
@[simp] theorem State.modDoip_ext (c : Fin 2) (f : Doip → Doip) : (s.modDoip c f).ext = s.ext := rfl
@[simp] theorem State.modDoip_peony (c : Fin 2) (f : Doip → Doip) : (s.modDoip c f).peony = s.peony := rfl
@[simp] theorem State.modDoip_sec (c : Fin 2) (f : Doip → Doip) : (s.modDoip c f).sec = s.sec := rfl
@[simp] theorem State.modDoip_safety (c : Fin 2) (f : Doip → Doip) : (s.modDoip c f).safety = s.safety := rfl
@[simp] theorem State.modDoip_power (c : Fin 2) (f : Doip → Doip) : (s.modDoip c f).power = s.power := rfl
@[simp] theorem State.modDoip_freeCtr (c : Fin 2) (f : Doip → Doip) : (s.modDoip c f).freeCtr = s.freeCtr := rfl
@[simp] theorem State.modDoip_pending (c : Fin 2) (f : Doip → Doip) : (s.modDoip c f).pending = s.pending := rfl

@[simp] theorem State.modNet_dict (f : Net → Net) : (s.modNet f).dict = s.dict := rfl
@[simp] theorem State.modNet_log (f : Net → Net) : (s.modNet f).log = s.log := rfl
@[simp] theorem State.modNet_hap (f : Net → Net) : (s.modNet f).hap = s.hap := rfl
@[simp] theorem State.modNet_frame (f : Net → Net) : (s.modNet f).frame = s.frame := rfl
@[simp] theorem State.modNet_q (f : Net → Net) : (s.modNet f).q = s.q := rfl
@[simp] theorem State.modNet_ing (f : Net → Net) : (s.modNet f).ing = s.ing := rfl
@[simp] theorem State.modNet_cells (f : Net → Net) : (s.modNet f).cells = s.cells := rfl
@[simp] theorem State.modNet_cores (f : Net → Net) : (s.modNet f).cores = s.cores := rfl
@[simp] theorem State.modNet_fab (f : Net → Net) : (s.modNet f).fab = s.fab := rfl
@[simp] theorem State.modNet_books (f : Net → Net) : (s.modNet f).books = s.books := rfl
@[simp] theorem State.modNet_sched (f : Net → Net) : (s.modNet f).sched = s.sched := rfl
@[simp] theorem State.modNet_net (f : Net → Net) : (s.modNet f).net = f s.net := rfl
@[simp] theorem State.modNet_ext (f : Net → Net) : (s.modNet f).ext = s.ext := rfl
@[simp] theorem State.modNet_peony (f : Net → Net) : (s.modNet f).peony = s.peony := rfl
@[simp] theorem State.modNet_sec (f : Net → Net) : (s.modNet f).sec = s.sec := rfl
@[simp] theorem State.modNet_safety (f : Net → Net) : (s.modNet f).safety = s.safety := rfl
@[simp] theorem State.modNet_power (f : Net → Net) : (s.modNet f).power = s.power := rfl
@[simp] theorem State.modNet_doip (f : Net → Net) : (s.modNet f).doip = s.doip := rfl
@[simp] theorem State.modNet_freeCtr (f : Net → Net) : (s.modNet f).freeCtr = s.freeCtr := rfl
@[simp] theorem State.modNet_pending (f : Net → Net) : (s.modNet f).pending = s.pending := rfl

@[simp] theorem State.modTime_dict (f : TimeUnit → TimeUnit) : (s.modTime f).dict = s.dict := rfl
@[simp] theorem State.modTime_log (f : TimeUnit → TimeUnit) : (s.modTime f).log = s.log := rfl
@[simp] theorem State.modTime_hap (f : TimeUnit → TimeUnit) : (s.modTime f).hap = s.hap := rfl
@[simp] theorem State.modTime_frame (f : TimeUnit → TimeUnit) : (s.modTime f).frame = s.frame := rfl
@[simp] theorem State.modTime_q (f : TimeUnit → TimeUnit) : (s.modTime f).q = s.q := rfl
@[simp] theorem State.modTime_ing (f : TimeUnit → TimeUnit) : (s.modTime f).ing = s.ing := rfl
@[simp] theorem State.modTime_cells (f : TimeUnit → TimeUnit) : (s.modTime f).cells = s.cells := rfl
@[simp] theorem State.modTime_cores (f : TimeUnit → TimeUnit) : (s.modTime f).cores = s.cores := rfl
@[simp] theorem State.modTime_fab (f : TimeUnit → TimeUnit) : (s.modTime f).fab = s.fab := rfl
@[simp] theorem State.modTime_books (f : TimeUnit → TimeUnit) : (s.modTime f).books = s.books := rfl
@[simp] theorem State.modTime_sched (f : TimeUnit → TimeUnit) : (s.modTime f).sched = s.sched := rfl
@[simp] theorem State.modTime_ext (f : TimeUnit → TimeUnit) : (s.modTime f).ext = s.ext := rfl
@[simp] theorem State.modTime_peony (f : TimeUnit → TimeUnit) : (s.modTime f).peony = s.peony := rfl
@[simp] theorem State.modTime_sec (f : TimeUnit → TimeUnit) : (s.modTime f).sec = s.sec := rfl
@[simp] theorem State.modTime_safety (f : TimeUnit → TimeUnit) : (s.modTime f).safety = s.safety := rfl
@[simp] theorem State.modTime_power (f : TimeUnit → TimeUnit) : (s.modTime f).power = s.power := rfl
@[simp] theorem State.modTime_doip (f : TimeUnit → TimeUnit) : (s.modTime f).doip = s.doip := rfl
@[simp] theorem State.modTime_freeCtr (f : TimeUnit → TimeUnit) : (s.modTime f).freeCtr = s.freeCtr := rfl
@[simp] theorem State.modTime_pending (f : TimeUnit → TimeUnit) : (s.modTime f).pending = s.pending := rfl

@[simp] theorem State.modPort_dict (p : Fin 12) (f : PortSt → PortSt) : (s.modPort p f).dict = s.dict := rfl
@[simp] theorem State.modPort_log (p : Fin 12) (f : PortSt → PortSt) : (s.modPort p f).log = s.log := rfl
@[simp] theorem State.modPort_hap (p : Fin 12) (f : PortSt → PortSt) : (s.modPort p f).hap = s.hap := rfl
@[simp] theorem State.modPort_frame (p : Fin 12) (f : PortSt → PortSt) : (s.modPort p f).frame = s.frame := rfl
@[simp] theorem State.modPort_q (p : Fin 12) (f : PortSt → PortSt) : (s.modPort p f).q = s.q := rfl
@[simp] theorem State.modPort_ing (p : Fin 12) (f : PortSt → PortSt) : (s.modPort p f).ing = s.ing := rfl
@[simp] theorem State.modPort_cells (p : Fin 12) (f : PortSt → PortSt) : (s.modPort p f).cells = s.cells := rfl
@[simp] theorem State.modPort_cores (p : Fin 12) (f : PortSt → PortSt) : (s.modPort p f).cores = s.cores := rfl
@[simp] theorem State.modPort_fab (p : Fin 12) (f : PortSt → PortSt) : (s.modPort p f).fab = s.fab := rfl
@[simp] theorem State.modPort_books (p : Fin 12) (f : PortSt → PortSt) : (s.modPort p f).books = s.books := rfl
@[simp] theorem State.modPort_sched (p : Fin 12) (f : PortSt → PortSt) : (s.modPort p f).sched = s.sched := rfl
@[simp] theorem State.modPort_ext (p : Fin 12) (f : PortSt → PortSt) : (s.modPort p f).ext = s.ext := rfl
@[simp] theorem State.modPort_peony (p : Fin 12) (f : PortSt → PortSt) : (s.modPort p f).peony = s.peony := rfl
@[simp] theorem State.modPort_sec (p : Fin 12) (f : PortSt → PortSt) : (s.modPort p f).sec = s.sec := rfl
@[simp] theorem State.modPort_safety (p : Fin 12) (f : PortSt → PortSt) : (s.modPort p f).safety = s.safety := rfl
@[simp] theorem State.modPort_power (p : Fin 12) (f : PortSt → PortSt) : (s.modPort p f).power = s.power := rfl
@[simp] theorem State.modPort_doip (p : Fin 12) (f : PortSt → PortSt) : (s.modPort p f).doip = s.doip := rfl
@[simp] theorem State.modPort_freeCtr (p : Fin 12) (f : PortSt → PortSt) : (s.modPort p f).freeCtr = s.freeCtr := rfl
@[simp] theorem State.modPort_pending (p : Fin 12) (f : PortSt → PortSt) : (s.modPort p f).pending = s.pending := rfl

@[simp] theorem State.modHost_dict (h : Fin 2) (f : HostOut → HostOut) : (s.modHost h f).dict = s.dict := rfl
@[simp] theorem State.modHost_log (h : Fin 2) (f : HostOut → HostOut) : (s.modHost h f).log = s.log := rfl
@[simp] theorem State.modHost_hap (h : Fin 2) (f : HostOut → HostOut) : (s.modHost h f).hap = s.hap := rfl
@[simp] theorem State.modHost_frame (h : Fin 2) (f : HostOut → HostOut) : (s.modHost h f).frame = s.frame := rfl
@[simp] theorem State.modHost_q (h : Fin 2) (f : HostOut → HostOut) : (s.modHost h f).q = s.q := rfl
@[simp] theorem State.modHost_ing (h : Fin 2) (f : HostOut → HostOut) : (s.modHost h f).ing = s.ing := rfl
@[simp] theorem State.modHost_cells (h : Fin 2) (f : HostOut → HostOut) : (s.modHost h f).cells = s.cells := rfl
@[simp] theorem State.modHost_cores (h : Fin 2) (f : HostOut → HostOut) : (s.modHost h f).cores = s.cores := rfl
@[simp] theorem State.modHost_fab (h : Fin 2) (f : HostOut → HostOut) : (s.modHost h f).fab = s.fab := rfl
@[simp] theorem State.modHost_books (h : Fin 2) (f : HostOut → HostOut) : (s.modHost h f).books = s.books := rfl
@[simp] theorem State.modHost_sched (h : Fin 2) (f : HostOut → HostOut) : (s.modHost h f).sched = s.sched := rfl
@[simp] theorem State.modHost_ext (h : Fin 2) (f : HostOut → HostOut) : (s.modHost h f).ext = s.ext := rfl
@[simp] theorem State.modHost_peony (h : Fin 2) (f : HostOut → HostOut) : (s.modHost h f).peony = s.peony := rfl
@[simp] theorem State.modHost_sec (h : Fin 2) (f : HostOut → HostOut) : (s.modHost h f).sec = s.sec := rfl
@[simp] theorem State.modHost_safety (h : Fin 2) (f : HostOut → HostOut) : (s.modHost h f).safety = s.safety := rfl
@[simp] theorem State.modHost_power (h : Fin 2) (f : HostOut → HostOut) : (s.modHost h f).power = s.power := rfl
@[simp] theorem State.modHost_doip (h : Fin 2) (f : HostOut → HostOut) : (s.modHost h f).doip = s.doip := rfl
@[simp] theorem State.modHost_freeCtr (h : Fin 2) (f : HostOut → HostOut) : (s.modHost h f).freeCtr = s.freeCtr := rfl
@[simp] theorem State.modHost_pending (h : Fin 2) (f : HostOut → HostOut) : (s.modHost h f).pending = s.pending := rfl

@[simp] theorem State.modTable_dict (t : Nat) (f : PTable → PTable) : (s.modTable t f).dict = s.dict := rfl
@[simp] theorem State.modTable_log (t : Nat) (f : PTable → PTable) : (s.modTable t f).log = s.log := rfl
@[simp] theorem State.modTable_hap (t : Nat) (f : PTable → PTable) : (s.modTable t f).hap = s.hap := rfl
@[simp] theorem State.modTable_frame (t : Nat) (f : PTable → PTable) : (s.modTable t f).frame = s.frame := rfl
@[simp] theorem State.modTable_q (t : Nat) (f : PTable → PTable) : (s.modTable t f).q = s.q := rfl
@[simp] theorem State.modTable_ing (t : Nat) (f : PTable → PTable) : (s.modTable t f).ing = s.ing := rfl
@[simp] theorem State.modTable_cells (t : Nat) (f : PTable → PTable) : (s.modTable t f).cells = s.cells := rfl
@[simp] theorem State.modTable_cores (t : Nat) (f : PTable → PTable) : (s.modTable t f).cores = s.cores := rfl
@[simp] theorem State.modTable_fab (t : Nat) (f : PTable → PTable) : (s.modTable t f).fab = s.fab := rfl
@[simp] theorem State.modTable_books (t : Nat) (f : PTable → PTable) : (s.modTable t f).books = s.books := rfl
@[simp] theorem State.modTable_sched (t : Nat) (f : PTable → PTable) : (s.modTable t f).sched = s.sched := rfl
@[simp] theorem State.modTable_net (t : Nat) (f : PTable → PTable) : (s.modTable t f).net = s.net := rfl
@[simp] theorem State.modTable_ext (t : Nat) (f : PTable → PTable) : (s.modTable t f).ext = s.ext := rfl
@[simp] theorem State.modTable_sec (t : Nat) (f : PTable → PTable) : (s.modTable t f).sec = s.sec := rfl
@[simp] theorem State.modTable_safety (t : Nat) (f : PTable → PTable) : (s.modTable t f).safety = s.safety := rfl
@[simp] theorem State.modTable_power (t : Nat) (f : PTable → PTable) : (s.modTable t f).power = s.power := rfl
@[simp] theorem State.modTable_doip (t : Nat) (f : PTable → PTable) : (s.modTable t f).doip = s.doip := rfl
@[simp] theorem State.modTable_freeCtr (t : Nat) (f : PTable → PTable) : (s.modTable t f).freeCtr = s.freeCtr := rfl
@[simp] theorem State.modTable_pending (t : Nat) (f : PTable → PTable) : (s.modTable t f).pending = s.pending := rfl

/-! Events change the log, the sessions that hear them and the count of events lost. -/

@[simp] theorem State.raise_frame (c i v : Nat) (b : Bool) : (s.raise c i v b).frame = s.frame := by
  unfold State.raise; dsimp only; split; · rfl
  split; · rfl
  split <;> rfl
@[simp] theorem State.countRaise_frame (k c i : Nat) (b : Bool) : (s.countRaise k c i b).frame = s.frame :=
  (State.raise_frame _ c i _ b).trans rfl
@[simp] theorem State.raise_q (c i v : Nat) (b : Bool) : (s.raise c i v b).q = s.q := by
  unfold State.raise; dsimp only; split; · rfl
  split; · rfl
  split <;> rfl
@[simp] theorem State.countRaise_q (k c i : Nat) (b : Bool) : (s.countRaise k c i b).q = s.q :=
  (State.raise_q _ c i _ b).trans rfl
@[simp] theorem State.raiseIng_q (c i v : Nat) (b : Bool) : (s.raiseIng c i v b).q = s.q := by
  unfold State.raiseIng; split; · rfl
  exact State.raise_q s c i v b
@[simp] theorem State.raiseComp_q (c i v : Nat) (b : Bool) : (s.raiseComp c i v b).q = s.q := by
  unfold State.raiseComp; split; · rfl
  exact State.raise_q s c i v b
@[simp] theorem State.raise_ing (c i v : Nat) (b : Bool) : (s.raise c i v b).ing = s.ing := by
  unfold State.raise; dsimp only; split; · rfl
  split; · rfl
  split <;> rfl
@[simp] theorem State.countRaise_ing (k c i : Nat) (b : Bool) : (s.countRaise k c i b).ing = s.ing :=
  (State.raise_ing _ c i _ b).trans rfl
@[simp] theorem State.raiseIng_ing (c i v : Nat) (b : Bool) : (s.raiseIng c i v b).ing = s.ing := by
  unfold State.raiseIng; split; · rfl
  exact State.raise_ing s c i v b
@[simp] theorem State.raiseComp_ing (c i v : Nat) (b : Bool) : (s.raiseComp c i v b).ing = s.ing := by
  unfold State.raiseComp; split; · rfl
  exact State.raise_ing s c i v b
@[simp] theorem State.raise_cells (c i v : Nat) (b : Bool) : (s.raise c i v b).cells = s.cells := by
  unfold State.raise; dsimp only; split; · rfl
  split; · rfl
  split <;> rfl
@[simp] theorem State.countRaise_cells (k c i : Nat) (b : Bool) : (s.countRaise k c i b).cells = s.cells :=
  (State.raise_cells _ c i _ b).trans rfl
@[simp] theorem State.raiseIng_cells (c i v : Nat) (b : Bool) : (s.raiseIng c i v b).cells = s.cells := by
  unfold State.raiseIng; split; · rfl
  exact State.raise_cells s c i v b
@[simp] theorem State.raiseComp_cells (c i v : Nat) (b : Bool) : (s.raiseComp c i v b).cells = s.cells := by
  unfold State.raiseComp; split; · rfl
  exact State.raise_cells s c i v b
@[simp] theorem State.raise_cores (c i v : Nat) (b : Bool) : (s.raise c i v b).cores = s.cores := by
  unfold State.raise; dsimp only; split; · rfl
  split; · rfl
  split <;> rfl
@[simp] theorem State.countRaise_cores (k c i : Nat) (b : Bool) : (s.countRaise k c i b).cores = s.cores :=
  (State.raise_cores _ c i _ b).trans rfl
@[simp] theorem State.raiseIng_cores (c i v : Nat) (b : Bool) : (s.raiseIng c i v b).cores = s.cores := by
  unfold State.raiseIng; split; · rfl
  exact State.raise_cores s c i v b
@[simp] theorem State.raiseComp_cores (c i v : Nat) (b : Bool) : (s.raiseComp c i v b).cores = s.cores := by
  unfold State.raiseComp; split; · rfl
  exact State.raise_cores s c i v b
@[simp] theorem State.raise_fab (c i v : Nat) (b : Bool) : (s.raise c i v b).fab = s.fab := by
  unfold State.raise; dsimp only; split; · rfl
  split; · rfl
  split <;> rfl
@[simp] theorem State.countRaise_fab (k c i : Nat) (b : Bool) : (s.countRaise k c i b).fab = s.fab :=
  (State.raise_fab _ c i _ b).trans rfl
@[simp] theorem State.raiseIng_fab (c i v : Nat) (b : Bool) : (s.raiseIng c i v b).fab = s.fab := by
  unfold State.raiseIng; split; · rfl
  exact State.raise_fab s c i v b
@[simp] theorem State.raiseComp_fab (c i v : Nat) (b : Bool) : (s.raiseComp c i v b).fab = s.fab := by
  unfold State.raiseComp; split; · rfl
  exact State.raise_fab s c i v b
@[simp] theorem State.raise_books (c i v : Nat) (b : Bool) : (s.raise c i v b).books = s.books := by
  unfold State.raise; dsimp only; split; · rfl
  split; · rfl
  split <;> rfl
@[simp] theorem State.countRaise_books (k c i : Nat) (b : Bool) : (s.countRaise k c i b).books = s.books :=
  (State.raise_books _ c i _ b).trans rfl
@[simp] theorem State.raiseIng_books (c i v : Nat) (b : Bool) : (s.raiseIng c i v b).books = s.books := by
  unfold State.raiseIng; split; · rfl
  exact State.raise_books s c i v b
@[simp] theorem State.raiseComp_books (c i v : Nat) (b : Bool) : (s.raiseComp c i v b).books = s.books := by
  unfold State.raiseComp; split; · rfl
  exact State.raise_books s c i v b
@[simp] theorem State.raise_sched (c i v : Nat) (b : Bool) : (s.raise c i v b).sched = s.sched := by
  unfold State.raise; dsimp only; split; · rfl
  split; · rfl
  split <;> rfl
@[simp] theorem State.countRaise_sched (k c i : Nat) (b : Bool) : (s.countRaise k c i b).sched = s.sched :=
  (State.raise_sched _ c i _ b).trans rfl
@[simp] theorem State.raiseIng_sched (c i v : Nat) (b : Bool) : (s.raiseIng c i v b).sched = s.sched := by
  unfold State.raiseIng; split; · rfl
  exact State.raise_sched s c i v b
@[simp] theorem State.raiseComp_sched (c i v : Nat) (b : Bool) : (s.raiseComp c i v b).sched = s.sched := by
  unfold State.raiseComp; split; · rfl
  exact State.raise_sched s c i v b
@[simp] theorem State.raise_net (c i v : Nat) (b : Bool) : (s.raise c i v b).net = s.net := by
  unfold State.raise; dsimp only; split; · rfl
  split; · rfl
  split <;> rfl
@[simp] theorem State.countRaise_net (k c i : Nat) (b : Bool) : (s.countRaise k c i b).net = s.net :=
  (State.raise_net _ c i _ b).trans rfl
@[simp] theorem State.raiseIng_net (c i v : Nat) (b : Bool) : (s.raiseIng c i v b).net = s.net := by
  unfold State.raiseIng; split; · rfl
  exact State.raise_net s c i v b
@[simp] theorem State.raiseComp_net (c i v : Nat) (b : Bool) : (s.raiseComp c i v b).net = s.net := by
  unfold State.raiseComp; split; · rfl
  exact State.raise_net s c i v b
@[simp] theorem State.raise_ext (c i v : Nat) (b : Bool) : (s.raise c i v b).ext = s.ext := by
  unfold State.raise; dsimp only; split; · rfl
  split; · rfl
  split <;> rfl
@[simp] theorem State.countRaise_ext (k c i : Nat) (b : Bool) : (s.countRaise k c i b).ext = s.ext :=
  (State.raise_ext _ c i _ b).trans rfl
@[simp] theorem State.raiseIng_ext (c i v : Nat) (b : Bool) : (s.raiseIng c i v b).ext = s.ext := by
  unfold State.raiseIng; split; · rfl
  exact State.raise_ext s c i v b
@[simp] theorem State.raiseComp_ext (c i v : Nat) (b : Bool) : (s.raiseComp c i v b).ext = s.ext := by
  unfold State.raiseComp; split; · rfl
  exact State.raise_ext s c i v b
@[simp] theorem State.raise_peony (c i v : Nat) (b : Bool) : (s.raise c i v b).peony = s.peony := by
  unfold State.raise; dsimp only; split; · rfl
  split; · rfl
  split <;> rfl
@[simp] theorem State.countRaise_peony (k c i : Nat) (b : Bool) : (s.countRaise k c i b).peony = s.peony :=
  (State.raise_peony _ c i _ b).trans rfl
@[simp] theorem State.raiseIng_peony (c i v : Nat) (b : Bool) : (s.raiseIng c i v b).peony = s.peony := by
  unfold State.raiseIng; split; · rfl
  exact State.raise_peony s c i v b
@[simp] theorem State.raiseComp_peony (c i v : Nat) (b : Bool) : (s.raiseComp c i v b).peony = s.peony := by
  unfold State.raiseComp; split; · rfl
  exact State.raise_peony s c i v b
@[simp] theorem State.raise_sec (c i v : Nat) (b : Bool) : (s.raise c i v b).sec = s.sec := by
  unfold State.raise; dsimp only; split; · rfl
  split; · rfl
  split <;> rfl
@[simp] theorem State.countRaise_sec (k c i : Nat) (b : Bool) : (s.countRaise k c i b).sec = s.sec :=
  (State.raise_sec _ c i _ b).trans rfl
@[simp] theorem State.raiseIng_sec (c i v : Nat) (b : Bool) : (s.raiseIng c i v b).sec = s.sec := by
  unfold State.raiseIng; split; · rfl
  exact State.raise_sec s c i v b
@[simp] theorem State.raiseComp_sec (c i v : Nat) (b : Bool) : (s.raiseComp c i v b).sec = s.sec := by
  unfold State.raiseComp; split; · rfl
  exact State.raise_sec s c i v b
@[simp] theorem State.raise_safety (c i v : Nat) (b : Bool) : (s.raise c i v b).safety = s.safety := by
  unfold State.raise; dsimp only; split; · rfl
  split; · rfl
  split <;> rfl
@[simp] theorem State.countRaise_safety (k c i : Nat) (b : Bool) : (s.countRaise k c i b).safety = s.safety :=
  (State.raise_safety _ c i _ b).trans rfl
@[simp] theorem State.raiseIng_safety (c i v : Nat) (b : Bool) : (s.raiseIng c i v b).safety = s.safety := by
  unfold State.raiseIng; split; · rfl
  exact State.raise_safety s c i v b
@[simp] theorem State.raiseComp_safety (c i v : Nat) (b : Bool) : (s.raiseComp c i v b).safety = s.safety := by
  unfold State.raiseComp; split; · rfl
  exact State.raise_safety s c i v b
@[simp] theorem State.raise_power (c i v : Nat) (b : Bool) : (s.raise c i v b).power = s.power := by
  unfold State.raise; dsimp only; split; · rfl
  split; · rfl
  split <;> rfl
@[simp] theorem State.countRaise_power (k c i : Nat) (b : Bool) : (s.countRaise k c i b).power = s.power :=
  (State.raise_power _ c i _ b).trans rfl
@[simp] theorem State.raiseIng_power (c i v : Nat) (b : Bool) : (s.raiseIng c i v b).power = s.power := by
  unfold State.raiseIng; split; · rfl
  exact State.raise_power s c i v b
@[simp] theorem State.raiseComp_power (c i v : Nat) (b : Bool) : (s.raiseComp c i v b).power = s.power := by
  unfold State.raiseComp; split; · rfl
  exact State.raise_power s c i v b
@[simp] theorem State.raise_doip (c i v : Nat) (b : Bool) : (s.raise c i v b).doip = s.doip := by
  unfold State.raise; dsimp only; split; · rfl
  split; · rfl
  split <;> rfl
@[simp] theorem State.countRaise_doip (k c i : Nat) (b : Bool) : (s.countRaise k c i b).doip = s.doip :=
  (State.raise_doip _ c i _ b).trans rfl
@[simp] theorem State.raiseIng_doip (c i v : Nat) (b : Bool) : (s.raiseIng c i v b).doip = s.doip := by
  unfold State.raiseIng; split; · rfl
  exact State.raise_doip s c i v b
@[simp] theorem State.raiseComp_doip (c i v : Nat) (b : Bool) : (s.raiseComp c i v b).doip = s.doip := by
  unfold State.raiseComp; split; · rfl
  exact State.raise_doip s c i v b
@[simp] theorem State.raise_freeCtr (c i v : Nat) (b : Bool) : (s.raise c i v b).freeCtr = s.freeCtr := by
  unfold State.raise; dsimp only; split; · rfl
  split; · rfl
  split <;> rfl
@[simp] theorem State.countRaise_freeCtr (k c i : Nat) (b : Bool) : (s.countRaise k c i b).freeCtr = s.freeCtr :=
  (State.raise_freeCtr _ c i _ b).trans rfl
@[simp] theorem State.raiseIng_freeCtr (c i v : Nat) (b : Bool) : (s.raiseIng c i v b).freeCtr = s.freeCtr := by
  unfold State.raiseIng; split; · rfl
  exact State.raise_freeCtr s c i v b
@[simp] theorem State.raiseComp_freeCtr (c i v : Nat) (b : Bool) : (s.raiseComp c i v b).freeCtr = s.freeCtr := by
  unfold State.raiseComp; split; · rfl
  exact State.raise_freeCtr s c i v b
@[simp] theorem State.raise_pending (c i v : Nat) (b : Bool) : (s.raise c i v b).pending = s.pending := by
  unfold State.raise; dsimp only; split; · rfl
  split; · rfl
  split <;> rfl
@[simp] theorem State.countRaise_pending (k c i : Nat) (b : Bool) : (s.countRaise k c i b).pending = s.pending :=
  (State.raise_pending _ c i _ b).trans rfl
@[simp] theorem State.raiseIng_pending (c i v : Nat) (b : Bool) : (s.raiseIng c i v b).pending = s.pending := by
  unfold State.raiseIng; split; · rfl
  exact State.raise_pending s c i v b
@[simp] theorem State.raiseComp_pending (c i v : Nat) (b : Bool) : (s.raiseComp c i v b).pending = s.pending := by
  unfold State.raiseComp; split; · rfl
  exact State.raise_pending s c i v b

/-! Objects. -/

@[simp] theorem State.obj_setObj (k : Nat) (v : OdVal) : (s.setObj k v).obj k = v := Sparse.get_put_same _ _ _ _
theorem State.obj_setObj_other {k j : Nat} (v : OdVal) (h : j ≠ k) : (s.setObj k v).obj j = s.obj j := Sparse.get_put_other _ _ _ h
@[simp] theorem State.obj_setNum (k : Nat) (v : Int) : (s.setNum k v).obj k = .num v := State.obj_setObj s k _
@[simp] theorem State.int_setNum (k : Nat) (v : Int) : (s.setNum k v).int k = v := by simp [State.int, OdVal.toInt]
@[simp] theorem State.num_setNum (k n : Nat) : (s.setNum k n).num k = n := by simp [State.num]
theorem State.obj_setNum_other {k j : Nat} (v : Int) (h : j ≠ k) : (s.setNum k v).obj j = s.obj j := State.obj_setObj_other s _ h
theorem State.num_setNum_other {k j : Nat} (v : Int) (h : j ≠ k) : (s.setNum k v).num j = s.num j := by
  simp [State.num, State.int, State.obj_setNum_other s v h]
theorem State.int_setNum_other {k j : Nat} (v : Int) (h : j ≠ k) : (s.setNum k v).int j = s.int j := by
  simp [State.int, State.obj_setNum_other s v h]
@[simp] theorem State.oct_setOct (k : Nat) (b : Bytes) : (s.setOct k b).oct k = b := by
  simp [State.oct, State.setOct, OdVal.toBytes]
@[simp] theorem State.obj_store (k : Nat) (v : OdVal) : (s.store k v).obj k = v := Sparse.get_put_same _ _ _ _
theorem State.obj_store_other {k j : Nat} (v : OdVal) (h : j ≠ k) : (s.store k v).obj j = s.obj j := Sparse.get_put_other _ _ _ h
@[simp] theorem State.num_bump (k n : Nat) : (s.bump k n).num k = Od.counter k (s.num k + n) := State.num_setNum s k _
theorem State.obj_bump_other {k j : Nat} (n : Nat) (h : j ≠ k) : (s.bump k n).obj j = s.obj j := State.obj_setNum_other s _ h
theorem State.num_bump_other {k j : Nat} (n : Nat) (h : j ≠ k) : (s.bump k n).num j = s.num j := State.num_setNum_other s _ h

/-- A state whose dictionary is that of another reads every object as it does. -/
theorem State.obj_congr {s t : State} (h : s.dict = t.dict) (k : Nat) : s.obj k = t.obj k := by simp [State.obj, h]
theorem State.num_congr {s t : State} (h : s.dict = t.dict) (k : Nat) : s.num k = t.num k := by simp [State.num, State.int, State.obj, h]

/-- An event leaves every object alone but the count of events lost. -/
theorem State.obj_raise {k : Nat} (c i v : Nat) (b : Bool) (h : k ≠ od 0x7900 5) : (s.raise c i v b).obj k = s.obj k := by
  unfold State.raise; dsimp only
  split
  · rfl
  · split
    · rfl
    · split
      · exact State.obj_bump_other (s.raiseOne c i v b) 1 h
      · exact State.obj_bump_other (s.raiseOne c i v b) 1 h

theorem State.num_raise {k : Nat} (c i v : Nat) (b : Bool) (h : k ≠ od 0x7900 5) : (s.raise c i v b).num k = s.num k := by
  simp [State.num, State.int, State.obj_raise s c i v b h]

theorem State.num_countRaise {k : Nat} (c i : Nat) (b : Bool) (h : k ≠ od 0x7900 5) :
    (s.countRaise k c i b).num k = Od.counter k (s.num k + 1) :=
  (State.num_raise _ c i _ b h).trans (State.num_bump s k 1)

theorem State.num_countRaise_other {k j : Nat} (c i : Nat) (b : Bool) (h : j ≠ od 0x7900 5) (hk : j ≠ k) :
    (s.countRaise k c i b).num j = s.num j :=
  (State.num_raise _ c i _ b h).trans (State.num_bump_other s 1 hk)

/-! Cores, engines, heads. -/

@[simp] theorem State.modCore_same (c : Fin 16) (f : Core → Core) : (s.modCore c f).cores[c] = f s.cores[c] := by
  simp [State.modCore]
theorem State.modCore_other {c d : Fin 16} (f : Core → Core) (h : d ≠ c) : (s.modCore c f).cores[d] = s.cores[d] := by
  have : (c : Nat) ≠ d := fun e => h (Fin.ext e.symm)
  simp [State.modCore, this]
@[simp] theorem State.modSeq_same (c : Fin 16) (f : Seq → Seq) : (s.modSeq c f).cores[c] = { s.cores[c] with seq := f s.cores[c].seq } :=
  State.modCore_same s c _
@[simp] theorem State.modPad_same (c : Fin 16) (f : Pad → Pad) : (s.modPad c f).cores[c] = { s.cores[c] with pad := f s.cores[c].pad } :=
  State.modCore_same s c _
@[simp] theorem State.modArr_same (c : Fin 16) (f : Arr → Arr) : (s.modArr c f).cores[c] = { s.cores[c] with arr := f s.cores[c].arr } :=
  State.modCore_same s c _
@[simp] theorem State.modEngine_same (e : Fin 16) (f : Engine → Engine) : (s.modEngine e f).engine e = f (s.engine e) := by
  simp [State.modEngine, State.engine]
theorem State.modEngine_other {e d : Fin 16} (f : Engine → Engine) (h : d ≠ e) : (s.modEngine e f).engine d = s.engine d := by
  have : (e : Nat) ≠ d := fun x => h (Fin.ext x.symm)
  simp [State.modEngine, State.engine, this]
@[simp] theorem State.modHead_same (p : Fin 8) (f : Head → Head) : (s.modHead p f).ing.heads[p] = f s.ing.heads[p] := by
  simp [State.modHead]

/-! Shared operations. -/

/-- Bits below bit 56 are those of the number without what lies above (R194). -/
theorem bitsOf_low (n : Nat) {hi lo : Nat} (h : hi < 56) : bitsOf (n % 2 ^ 56) hi lo = bitsOf n hi lo := by
  unfold bitsOf
  apply Nat.eq_of_testBit_eq
  intro i
  rw [Nat.testBit_mod_two_pow, Nat.testBit_mod_two_pow, Nat.testBit_div_two_pow, Nat.testBit_div_two_pow, Nat.testBit_mod_two_pow]
  by_cases p : i < hi + 1 - lo
  · have : i + lo < 56 := by omega
    simp [p, this]
  · simp [p]
theorem bitAt_low (n : Nat) {i : Nat} (h : i < 56) : bitAt (n % 2 ^ 56) i = bitAt n i := by
  have a := bitsOf_low n (hi := i) (lo := i) h
  simp only [bitsOf, Nat.add_sub_cancel_left, Nat.pow_one] at a
  simp only [bitAt, a]

/-- What an instruction that executes does (R193-R195). -/
theorem State.issue_executes {s : State} {c : Fin 16} {r : TaskRun} {op : Nat} {w : BitVec 56} {h : Shape} (e : s.executes c r op w h)
    (f : State → Ins → Eff) :
    s.issue c op w h f = match f s { r := r, pc := s.pcAt c, a := fieldA w, b := fieldB w, c := fieldC w, d := fieldD w, i := fieldImm w } with
      | .next t => t.setPc c (s.pcAt c + 8)
      | .stay t => t
      | .exc t code detail => t.except c code (s.pcAt c) detail
      | .jump t g => if g < 0 ∨ s.w0Size c r.part < g.toNat + 8 then t.except c 1 (s.pcAt c) else t.setPc c g.toNat := by
  obtain ⟨⟨⟨h1, h2, h3, h4, h5⟩, h6, h7, h8, h9⟩, h10, h11⟩ := e
  have h4' : s.power.holdAt = none := h4
  have a1 := bitsOf_low (s.fetched c r.part (s.cores[c]).seq.pc) (hi := 51) (lo := 46) (by decide)
  have a2 := bitsOf_low (s.fetched c r.part (s.cores[c]).seq.pc) (hi := 45) (lo := 41) (by decide)
  have a3 := bitsOf_low (s.fetched c r.part (s.cores[c]).seq.pc) (hi := 40) (lo := 36) (by decide)
  have a4 := bitsOf_low (s.fetched c r.part (s.cores[c]).seq.pc) (hi := 35) (lo := 32) (by decide)
  have a5 := bitsOf_low (s.fetched c r.part (s.cores[c]).seq.pc) (hi := 31) (lo := 0) (by decide)
  have a6 := bitsOf_low (s.fetched c r.part (s.cores[c]).seq.pc) (hi := 53) (lo := 52) (by decide)
  have a7 := bitAt_low (s.fetched c r.part (s.cores[c]).seq.pc) (i := 55) (by decide)
  have a8 := bitAt_low (s.fetched c r.part (s.cores[c]).seq.pc) (i := 54) (by decide)
  rw [h9] at a1 a2 a3 a4 a5 a6 a7 a8
  have ok : h.ok (s.fetched c r.part (s.cores[c]).seq.pc) = true := by
    rw [← h10]; unfold Shape.ok; rw [a1, a2, a3, a4, a5]
  have gd : (s.cores[c]).seq.guardOk (s.fetched c r.part (s.cores[c]).seq.pc) = true := by
    rw [← h11]; unfold Seq.guardOk; rw [a6, a7, a8]
  simp only [State.issue, h1, h2, h3, h4', h5, h6, h7, h8, h9, ok, gd, ← a1, ← a2, ← a3, ← a4, ← a5]
  simp only [ne_eq, not_true_eq_false, Option.isSome_none, Bool.false_eq_true, or_self, if_false, Bool.not_true]
  rfl

/-- A parser instruction that may run (R55, R57, R59): it counts, and goes on where its effect says. -/
theorem State.parse_parses {s : State} {e : Fin 16} {op : Nat} {w : BitVec 27} (h : s.parses e op w)
    (f : Engine → State → Option (State × Nat)) :
    s.parse e op w f = match f (s.engine e) (s.modEngine e (fun x => { x with count := x.count + 1 })) with
      | none => (s.modEngine e (fun x => { x with count := x.count + 1 })).parserFault e
      | some (t, pc) => t.goTo e pc := by
  obtain ⟨h1, h2, h3, h4⟩ := h
  have h3' : s.power.holdAt = none := h3
  simp only [State.parse, h1, h3', h4, Nat.not_le.mpr h2, if_false]
  rfl

/-- A write of a command object that passes the shared tests (R476, R477, R493): its check decides. -/
theorem State.command_accepts {s : State} {w : Writer} {idx sub : Nat} {v : OdVal} (h : (s.at w.t).accepts w idx sub v)
    (check : State → Nat) (effect : State → State) :
    s.command w idx sub v check effect =
      if check (s.at w.t) ≠ 0 then (s.at w.t).answer (check (s.at w.t)) else (effect (s.at w.t)).answer 0 := by
  unfold State.accepts State.mayCommand at h

  split at h
  · rename_i x r hx hr
    simp only [Bool.and_eq_true, bne_iff_ne, decide_eq_true_eq] at h
    obtain ⟨⟨⟨h1, h2⟩, h3⟩, h4⟩ := h
    rw [State.at_sec] at h1
    simp [State.command, hx, hr, h1, h2, h4, Nat.not_lt.mpr h3]
  · cases h

/-- A unit's command while its clock runs, and while it stands (R548). -/
theorem State.clocked_runs {s : State} (h : s.runs) (f : State → State) : s.clocked f = f s := by
  have : s.power.holdAt = none := h
  simp [State.clocked, this]
theorem State.clocked_held {s : State} (h : ¬ s.runs) (f : State → State) : s.clocked f = s := by
  have : s.power.holdAt.isSome = true := Option.isSome_iff_ne_none.mpr h
  simp [State.clocked, this]

end Sys2Proof.Machine
end

