-- ==== Sys2Proof/Laws/Units.lean ====
section
/-! SUPPORT. What the shared operations of the parser engines and the sequencers do, said once: a row's effect on its engine, fields and
immediates, and that nothing is executed in HOLD. -/

namespace Sys2Proof.Machine

/-- Engines stand in the ingest state alone. -/
theorem State.engine_of_ing {s t : State} (h : t.ing = s.ing) (e : Fin 16) : t.engine e = s.engine e := by simp [State.engine, h]

/-- Heads stand in the ingest state alone. -/
theorem State.head_of_ing {s t : State} (h : t.ing = s.ing) (e : Fin 8) : t.head e = s.head e := by simp [State.head, h]

/-- Two updates of an engine are one. -/
@[simp] theorem State.modEngine_modEngine (s : State) (e : Fin 16) (f g : Engine → Engine) :
    (s.modEngine e f).modEngine e g = s.modEngine e (fun x => g (f x)) := by
  simp [State.modEngine, Vector.set_set]

/-- Updates that agree on the engine as it is are the same. -/
theorem State.modEngine_congr (s : State) (e : Fin 16) {f g : Engine → Engine} (h : f (s.engine e) = g (s.engine e)) :
    s.modEngine e f = s.modEngine e g := by
  have : f (s.ing.engines[e]) = g (s.ing.engines[e]) := h
  unfold State.modEngine; rw [this]

/-- A PC inside the program raises nothing (R59). -/
theorem State.goTo_within {s : State} {e : Fin 16} {pc : Nat} (h : pc < (s.engine e).words.length) :
    s.goTo e pc = s.modEngine e (fun x => { x with pc := pc }) := by
  simp [State.goTo, Nat.not_le.mpr h]

/-- A parser row that writes registers: the engine takes the row's effect and goes on (R55-R57). -/
theorem State.parseReg_next {s : State} {e : Fin 16} {op : Nat} {w : BitVec 27} (h : s.parsesOn e op w) (f : Engine → Option Engine) {g : Engine → Engine}
    (hf : f (s.engine e) = some (g (s.engine e))) (hw : (g (s.engine e)).words = (s.engine e).words)
    (hc : (g (s.engine e)).count = (s.engine e).count) (hp : (g (s.engine e)).pc = (s.engine e).pc) :
    s.parseReg e op w f = s.modEngine e (fun x => (g x).next) := by
  obtain ⟨h1, h2⟩ := h
  unfold State.parseReg
  rw [State.parse_parses h1]
  simp only [hf, Option.map]
  rw [State.goTo_within (by simpa [hw] using h2)]
  simp only [State.modEngine_modEngine]
  apply State.modEngine_congr
  simp [Engine.next, Engine.at, hc, hp]

/-- A parser row whose effect is on its engine alone and that goes on (R55-R57). -/
theorem State.parse_next {s : State} {e : Fin 16} {op : Nat} {w : BitVec 27} (h : s.parsesOn e op w) (f : Engine → State → Option (State × Nat)) {g : Engine → Engine}
    (hf : f (s.engine e) (s.modEngine e (fun x => { x with count := x.count + 1 })) =
      some ((s.modEngine e (fun x => { x with count := x.count + 1 })).modEngine e g, (s.engine e).pc + 1))
    (hw : ∀ x, (g x).words = x.words) :
    s.parse e op w f = s.modEngine e (fun x => { g { x with count := x.count + 1 } with pc := x.pc + 1 }) := by
  obtain ⟨h1, h2⟩ := h
  rw [State.parse_parses h1, hf]
  simp only
  rw [State.goTo_within (by simpa [hw] using h2)]
  simp only [State.modEngine_modEngine]
  apply State.modEngine_congr
  rfl

/-- A register write leaves the program (R55). -/
@[simp] theorem Engine.setReg_words (x : Engine) (r v) : (x.setReg r v).words = x.words := by unfold Engine.setReg; split <;> rfl

/-- A register write leaves the count. -/
@[simp] theorem Engine.setReg_count (x : Engine) (r v) : (x.setReg r v).count = x.count := by unfold Engine.setReg; split <;> rfl

/-- A register write leaves the PC. -/
@[simp] theorem Engine.setReg_pc (x : Engine) (r v) : (x.setReg r v).pc = x.pc := by unfold Engine.setReg; split <;> rfl

/-- A signed field is the bit vector's own value. -/
theorem signedOf_toInt {m : Nat} (w : BitVec m) (n : Nat) : signedOf n w.toNat = (w.extractLsb' 0 n).toInt := by
  unfold signedOf BitVec.toInt
  simp [BitVec.extractLsb'_toNat]

/-- A low field of a parser word, signed. -/
theorem fld_low (w : BitVec 27) (n : Nat) (h : 0 < n) : signedOf n (fld w (n-1) 0) = (w.extractLsb' 0 n).toInt := by
  rw [← signedOf_toInt]
  unfold fld bitsOf signedOf
  simp [Nat.sub_add_cancel h]

/-- Sign extension by the value. -/
theorem signExt_ofInt {n m : Nat} (x : BitVec n) : x.signExtend m = BitVec.ofInt m x.toInt := rfl

/-- An immediate of the sequencer is bits 31 to 0, sign-extended (R194). -/
theorem immOf_fieldImm (w : BitVec 56) : immOf (fieldImm w) = (w.extractLsb' 0 32).signExtend 64 := by
  unfold immOf; rw [signExt_ofInt, ← signedOf_toInt]
  unfold fieldImm bitsOf signedOf; simp

/-- While the units stand no instruction of a sequencer is issued (R548). -/
theorem State.issue_held {s : State} (h : ¬ s.runs) (c o w sh f) : s.issue c o w sh f = s := by
  have : s.power.holdAt.isSome = true := Option.isSome_iff_ne_none.mpr h
  unfold State.issue; dsimp only; split
  · rfl
  · simp [this]

/-- While the units stand no parser engine executes (R548). -/
theorem State.parse_held {s : State} (h : ¬ s.runs) (e o w f) : s.parse e o w f = s := by
  have : s.power.holdAt.isSome = true := Option.isSome_iff_ne_none.mpr h
  simp [State.parse, this]

end Sys2Proof.Machine
end

