-- ==== Sys2Proof/Tests/Slice0.lean ====
section
/-! SUPPORT. Tests: an ill-formed term for each check of WellFormed, and for every statement of the obligations concrete states and
operands that meet the hypotheses of its clauses, with what the command then does. Expected values are worked from the rules cited. -/

namespace Sys2Proof.Tests

open Sys2Proof.Machine

set_option Elab.async false

/-- A command completes in a state with the property. -/
def ok (o : Out) (p : State → Bool) : Bool :=
  match o with
  | .next t => p t
  | _ => false
/-! Parser rows (R55-R62). -/

/-- Engine 2 works for port 3 on a program of three words; its packet holds eight bytes. -/
def prs : State := State.reset.modEngine 2 (fun x =>
  { x with busy := true, port := 3, words := [0, 0, 0], payload := [0x12, 0x34, 0x56, 0x78, 0x9A, 0xBC, 0xDE, 0xF0] })

/-- The same with registers set. -/
def prsRegs (l : List (Fin 16 × Nat)) : State :=
  prs.modEngine 2 (fun x => l.foldl (fun y r => y.setReg r.1 (BitVec.ofNat 32 r.2)) x)

/-- The word of opcode `op` with these operand bits stands where the engine is. -/
def atWord (op : Nat) (w : BitVec 27) (s : State) : State :=
  s.modEngine 2 (fun x => { x with words := x.words.set x.pc (op * 2 ^ 27 + w.toNat) })

/-- A parser word's operand bits: the fields at 23, 19 and 15 and the rest. -/
def pw (vd va vb low : Nat) : BitVec 27 := BitVec.ofNat 27 (vd * 2 ^ 23 + va * 2 ^ 19 + vb * 2 ^ 15 + low)

/-- Register r of engine 2 holds v and the engine went on with the next word. -/
def got (o : Out) (r : Fin 16) (v : Nat) : Bool := ok o (fun t => (t.engine 2).reg r == BitVec.ofNat 32 v && (t.engine 2).pc == 1 && (t.engine 2).count == 1)

theorem wit_parses : (atWord 3 (pw 3 1 2 0) prs).parsesOn 2 3 (pw 3 1 2 0) := by decide
/-- R57: vd ← vs + vt modulo 2³². -/
theorem test_prs_add : got (exec (.prsAdd 2 (pw 3 1 2 0)) (atWord 0x03 (pw 3 1 2 0) (prsRegs [(1, 0xFFFFFFFF), (2, 3)]))) 3 2 = true := by decide +kernel
/-- R55: a write of v0 leaves it zero. -/
theorem test_prs_add_v0 : got (exec (.prsAdd 2 (pw 0 1 2 0)) (atWord 0x03 (pw 0 1 2 0) (prsRegs [(1, 5), (2, 3)]))) 0 0 = true := by decide +kernel
/-- R57: the immediate is signed; 0x7FFFF is −1. -/
theorem test_prs_addi : got (exec (.prsAddi 2 (pw 3 1 0 0x7FFFF)) (atWord 0x04 (pw 3 1 0 0x7FFFF) (prsRegs [(1, 5)]))) 3 4 = true := by decide +kernel
theorem test_prs_and : got (exec (.prsAnd 2 (pw 3 1 2 0)) (atWord 0x05 (pw 3 1 2 0) (prsRegs [(1, 12), (2, 10)]))) 3 8 = true := by decide +kernel
/-- The worked program's word 6: 180.00° in 0.01° by 7,457 ÷ 16 is 8,389,125. -/
theorem test_prs_scl : got (exec (.prsScl 2 (pw 3 1 0 (4 * 2 ^ 14 + 7457))) (atWord 0x02 (pw 3 1 0 (4 * 2 ^ 14 + 7457)) (prsRegs [(1, 18000)]))) 3 8389125 = true := by decide +kernel
/-- R57: −1 ÷ 2 is rounded away from zero. -/
theorem test_prs_scl_tie : got (exec (.prsScl 2 (pw 3 1 0 (1 * 2 ^ 14 + 1))) (atWord 0x02 (pw 3 1 0 (1 * 2 ^ 14 + 1)) (prsRegs [(1, 0xFFFFFFFF)]))) 3 0xFFFFFFFF = true := by decide +kernel
/-- R57: 16 bits in network order. -/
theorem test_prs_ext_be : got (exec (.prsExt 2 (pw 3 0 0 (0 * 2 ^ 12 + 15 * 2 ^ 7 + 4))) (atWord 0x01 (pw 3 0 0 (0 * 2 ^ 12 + 15 * 2 ^ 7 + 4)) prs)) 3 0x1234 = true := by decide +kernel
/-- R57: 8 bits from bit 4 of bytes 6 and 7, little-endian and sign-extended: 0xF0DE gives 0x0D; the last byte is still in the packet. -/
theorem test_prs_ext_le : got (exec (.prsExt 2 (pw 3 0 0 (6 * 2 ^ 12 + 7 * 2 ^ 7 + 4 * 2 ^ 4 + 8))) (atWord 0x01 (pw 3 0 0 (6 * 2 ^ 12 + 7 * 2 ^ 7 + 4 * 2 ^ 4 + 8)) prs)) 3 0x0D = true := by decide +kernel
/-- R59: 16 bits from byte 7 on reach beyond the packet: the engine is freed, the fault counted, EV 0x3016 raised. -/
theorem test_prs_ext_fault : ok (exec (.prsExt 2 (pw 3 0 0 (7 * 2 ^ 12 + 15 * 2 ^ 7))) (atWord 0x01 (pw 3 0 0 (7 * 2 ^ 12 + 15 * 2 ^ 7)) prs)) (fun t =>
    !(t.engine 2).busy && t.num (portOd 0x3104 3 0x0E) == 1 && t.log.staged.map (fun r => (r.code, r.inst)) == [(0x3016, 3)]) = true := by
  decide +kernel

/-- A calibration record of 32 beams for port 3. -/
def beams : State := (prsRegs [(1, 31), (4, 32)]).modHead 3 (fun h =>
  { h with state := .active, cal := some { beams := 32, table := List.replicate 31 (0, 0) ++ [(-5, 9)] } })
/-- R57: beam 31 is the last of 32 and gives its elevation and azimuth correction. -/
theorem test_prs_lut : ok (exec (.prsLut 2 (pw 3 1 0 0)) (atWord 0x06 (pw 3 1 0 0) beams)) (fun t =>
    ((t.engine 2).reg 3).toInt == -5 && (t.engine 2).azCorr == 9 && (t.engine 2).staged.beam == 31 && !(t.engine 2).staged.rejected) = true := by
  decide +kernel
/-- R57, R58: beam 32 of 32 is rejected under reason 7. -/
theorem test_prs_lut_reject : ok (exec (.prsLut 2 (pw 3 4 0 0)) (atWord 0x06 (pw 3 4 0 0) beams)) (fun t =>
    (t.engine 2).staged.rejected && t.num (portOd 0x3104 3 0x0A) == 1) = true := by decide +kernel

theorem test_prs_nop : ok (exec (.prsNop 2 0) (atWord 0x00 0 prs)) (fun t => (t.engine 2).pc == 1) = true := by decide +kernel
theorem test_prs_adv : ok (exec (.prsAdv 2 (pw 0 0 0 65535)) (atWord 0x0F (pw 0 0 0 65535) prs)) (fun t => (t.engine 2).cursor == 65535) = true := by decide +kernel
theorem test_prs_swp : ok (exec (.prsSwp 2 0) (atWord 0x14 0 prs)) (fun t => (t.engine 2).sweepMark) = true := by decide +kernel
/-- A SET of a field from v1 stages as said. -/
def sets (f v : Nat) (p : Staged → Bool) : Bool :=
  ok (exec (.prsSet 2 (BitVec.ofNat 27 (f * 2 ^ 24 + 1 * 2 ^ 20))) (atWord 0x09 (BitVec.ofNat 27 (f * 2 ^ 24 + 1 * 2 ^ 20)) (prsRegs [(1, v)]))) (fun t => p (t.engine 2).staged)
/-- R57: intensity saturates at 255 and a negative value gives 0; the return index and the beam take their low bits. -/
theorem test_prs_set : (sets 0 300 (·.intensity == 255) && sets 0 0xFFFFFFFF (·.intensity == 0) && sets 1 1000 (·.offset == 1000) &&
    sets 2 7 (·.ret == 3) && sets 3 257 (·.beam == 1)) = true := by decide +kernel
/-- R57: with no record the extrinsic is the identity, so (1, −2, 3) m stands as it is. -/
theorem test_prs_cvc : ok (exec (.prsCvc 2 (pw 1 2 3 0)) (atWord 0x08 (pw 1 2 3 0) (prsRegs [(1, 1024), (2, 2 ^ 32 - 2048), (3, 3072)]))) (fun t =>
    (t.engine 2).staged.xyz == some (65536, -131072, 196608)) = true := by decide +kernel
theorem test_prs_rng : ok (exec (.prsRng 2 (pw 1 0 0 0)) (atWord 0x0B (pw 1 0 0 0) (prsRegs [(1, 306)]))) (fun t => (t.head 3).near == 1 && (t.head 3).total == 1) = true := by
  decide +kernel
/-- R52: 307 units is not below the near range. -/
theorem test_prs_rng_far : ok (exec (.prsRng 2 (pw 1 0 0 0)) (atWord 0x0B (pw 1 0 0 0) (prsRegs [(1, 307)]))) (fun t => (t.head 3).near == 0 && (t.head 3).total == 1) = true := by
  decide +kernel
theorem test_prs_pls : ok (exec (.prsPls 2 (pw 1 0 0 0)) (atWord 0x0C (pw 1 0 0 0) (prsRegs [(1, 70000)]))) (fun t => t.num (portOd 0x3102 3 2) == 70000) = true := by
  decide +kernel
/-- R62 mode 0: vt is the high word. -/
theorem test_prs_tsp0 : ok (exec (.prsTsp 2 (pw 1 2 0 0)) (atWord 0x0A (pw 1 2 0 0) (prsRegs [(1, 5), (2, 1)]))) (fun t => (t.engine 2).base == 4294967301) = true := by
  decide +kernel
/-- R62 mode 3: the receive stamp minus the transport delay. -/
theorem test_prs_tsp3 : ok (exec (.prsTsp 2 (pw 1 2 0 (3 * 2 ^ 17))) (atWord 0x0A (pw 1 2 0 (3 * 2 ^ 17)) ((prs.modEngine 2 (fun x => { x with stamp := 900 })).modHead 3 (fun h => { h with state := .active, cal := some { delay := 200 } })))) (fun t =>
      (t.engine 2).base == 700) = true := by decide +kernel
/-- R57: a serial of two bytes is padded to 16; the bytes end with the packet. -/
theorem test_prs_idn : ok (exec (.prsIdn 2 (pw 0 0 0 (6 * 2 ^ 12 + 1 * 2 ^ 8))) (atWord 0x12 (pw 0 0 0 (6 * 2 ^ 12 + 1 * 2 ^ 8)) prs)) (fun t =>
    (t.head 3).presented == [0xDE, 0xF0] ++ zeros 14) = true := by decide +kernel
theorem test_prs_idn_fault : ok (exec (.prsIdn 2 (pw 0 0 0 (7 * 2 ^ 12 + 1 * 2 ^ 8))) (atWord 0x12 (pw 0 0 0 (7 * 2 ^ 12 + 1 * 2 ^ 8)) prs)) (fun t => !(t.engine 2).busy) = true := by
  decide +kernel
/-- R58: the rejection counts under its reason, once. -/
theorem test_prs_rej : ok (exec (.prsRej 2 (BitVec.ofNat 27 (1 * 2 ^ 23 + 0 * 2 ^ 20 + 4 * 2 ^ 17 + 7))) (atWord 0x0D (BitVec.ofNat 27 (1 * 2 ^ 23 + 0 * 2 ^ 20 + 4 * 2 ^ 17 + 7)) (prsRegs [(1, 7)]))) (fun t =>
    (t.engine 2).staged.rejected && t.num (portOd 0x3104 3 7) == 1) = true := by decide +kernel
theorem test_prs_rej_not : ok (exec (.prsRej 2 (BitVec.ofNat 27 (1 * 2 ^ 23 + 1 * 2 ^ 20 + 4 * 2 ^ 17 + 7))) (atWord 0x0D (BitVec.ofNat 27 (1 * 2 ^ 23 + 1 * 2 ^ 20 + 4 * 2 ^ 17 + 7)) (prsRegs [(1, 7)]))) (fun t =>
    !(t.engine 2).staged.rejected && (t.engine 2).pc == 1) = true := by decide +kernel

/-- Port 3 is ACTIVE and a point is staged. -/
def staged : State := (prs.modEngine 2 (fun x => { x with base := 100, staged := { xyz := some (1, 2, 3), sensor := [1, 2, 3], offset := 7, intensity := 9 } })).modHead 3
  (fun h => { h with state := .active })
/-- R61: the point goes to motion compensation with its base plus its offset, and the staging is cleared. -/
theorem test_prs_emit : ok (exec (.prsEmit 2 0) (atWord 0x0E 0 staged)) (fun t =>
    t.ing.comp.map (fun p => (p.port, p.raw, p.time, p.intensity)) == [(3, (1, 2, 3), 107, 9)] && (t.engine 2).staged == {} &&
      t.num (portOd 0x3104 3 2) == 1) = true := by decide +kernel
/-- R59: an EMIT with nothing staged is a fault. -/
theorem test_prs_emit_fault : ok (exec (.prsEmit 2 0) (atWord 0x0E 0 prs)) (fun t => !(t.engine 2).busy && t.num (portOd 0x3104 3 0x0E) == 1) = true := by
  decide +kernel
theorem test_prs_br : ok (exec (.prsBr 2 (pw 1 2 0 (2 * 2 ^ 16 + 2))) (atWord 0x10 (pw 1 2 0 (2 * 2 ^ 16 + 2)) (prsRegs [(1, 1), (2, 0xFFFFFFFF)]))) (fun t => (t.engine 2).pc == 2) = true := by
  decide +kernel
/-- Condition 4 is signed: 1 is not below −1. -/
theorem test_prs_br_not : ok (exec (.prsBr 2 (pw 1 2 0 (4 * 2 ^ 16 + 2))) (atWord 0x10 (pw 1 2 0 (4 * 2 ^ 16 + 2)) (prsRegs [(1, 1), (2, 0xFFFFFFFF)]))) (fun t => (t.engine 2).pc == 1) = true := by
  decide +kernel
theorem test_prs_loop : ok (exec (.prsLoop 2 (pw 1 0 0 2)) (atWord 0x11 (pw 1 0 0 2) (prsRegs [(1, 2)]))) (fun t => (t.engine 2).pc == 2 && (t.engine 2).reg 1 == 1) = true := by
  decide +kernel
theorem test_prs_loop_ends : ok (exec (.prsLoop 2 (pw 1 0 0 2)) (atWord 0x11 (pw 1 0 0 2) (prsRegs [(1, 1)]))) (fun t => (t.engine 2).pc == 1 && (t.engine 2).reg 1 == 0) = true := by
  decide +kernel
/-- R59: the word after the last one is a fault, but END at the last word is not. -/
theorem test_prs_last : (ok (exec (.prsNop 2 0) (atWord 0x00 0 (prs.modEngine 2 (fun x => { x with pc := 2 })))) (fun t => t.num (portOd 0x3104 3 0x0E) == 1) &&
    ok (exec (.prsEnd 2 0) (atWord 0x13 0 (prs.modEngine 2 (fun x => { x with pc := 2 })))) (fun t => !(t.engine 2).busy && t.dict == State.reset.dict)) = true := by
  decide +kernel
/-- R59: 16,384 instructions may execute; the 16,385th is a fault. -/
theorem test_prs_limit : (ok (exec (.prsEnd 2 0) (atWord 0x13 0 (prs.modEngine 2 (fun x => { x with count := 16383 })))) (fun t => t.dict == State.reset.dict) &&
    ok (exec (.prsEnd 2 0) (atWord 0x13 0 (prs.modEngine 2 (fun x => { x with count := 16384 })))) (fun t => t.num (portOd 0x3104 3 0x0E) == 1)) = true := by
  decide +kernel
/-! Rows of the sequencer (R191-R204, R225-R230). -/

/-- Core 1 runs task 7 of partition 2 at the first of eight words of w0; w1 has 256 bytes that may be written, w2 64 bytes that may not. -/
def run : State :=
  let part : PartRec := { part := 2, present := true, mask := 2, quad := 2, granule := 9, slots := 1, counters := 1 }
  ((State.reset.modSched (fun x => { x with active := some { parts := [part] } })).modSeq 1 (fun q =>
    { q with task := some { task := 7, part := 2, frame := 9, arg := 6 } })).modPad 1 (fun k =>
      ((k.setWin 2 0 { isOpen := true, f := 0, b := 0, size := 64, attr := 1 }).setWin 2 1
        { isOpen := true, f := 8, b := 2, size := 256, attr := 2 }).setWin 2 2 { isOpen := true, f := 9, b := 3, size := 64, attr := 0 })

/-- The task. -/
def job : TaskRun := { task := 7, part := 2, frame := 9, arg := 6 }

/-- The same with scalar registers set. -/
def regs (l : List (Nat × Nat)) : State := run.modSeq 1 (fun q => l.foldl (fun y r => y.wr r.1 (BitVec.ofNat 64 r.2)) q)

/-- The instruction word of opcode `op` stands at the PC, in w0 of partition 2 (R194). -/
def atPc (op : Nat) (w : BitVec 56) (s : State) : State :=
  s.modPad 1 (fun k => k.write (k.win 2 0) (s.pcAt 1) (natLe 8 (op * 2 ^ 56 + w.toNat)))

/-- An instruction word's fields (R194), not guarded. -/
def iw (a b c d i : Nat) : BitVec 56 := BitVec.ofNat 56 (a * 2 ^ 46 + b * 2 ^ 41 + c * 2 ^ 36 + d * 2 ^ 32 + i)

/-- −n in 64 bits. -/
def neg64 (n : Nat) : Nat := 2 ^ 64 - n

/-- The row of R201 put v into s31 and the PC went on. -/
def put (o : Out) (v : Nat) : Bool := ok o (fun t => t.rs 1 31 == BitVec.ofNat 64 v && t.pcAt 1 == 8)

/-- The word of opcode `op` as a row of core 1 raises exception `code`. -/
abbrev raises (i : Fin 16 → BitVec 56 → Instr) (op : Nat) (w : BitVec 56) (s : State) (code : Nat) : Prop :=
  exec (i 1 w) (atPc op w s) = .next ((atPc op w s).except 1 code 0)

/-- Core 1 executes the word of the row. -/
abbrev execd (op : Nat) (w : BitVec 56) (h : Shape) : Prop := (atPc op w run).executes 1 job op w h
theorem wit_executes : execd 0x01 (iw 31 31 31 0 0) { a := 31, b := 31, c := 31 } ∧
    execd 0x10 (iw 31 31 0 0 0xFFFFFFFF) { a := 31, b := 31, i := 0xFFFFFFFF } ∧
    execd 0x13 (iw 31 31 0 0 63) { a := 31, b := 31, i := 63 } ∧ execd 0x5B (iw 0 0 0 0 0) ({ a := 0 } : Shape) ∧
    execd 0x18 (iw 3 31 31 5 0) { a := 3, b := 31, c := 31, d := 15, dmax := 5 } ∧
    execd 0x1A (iw 3 3 3 3 0) { a := 3, b := 3, c := 3, d := 15, dmax := 3 } ∧
    execd 0x50 (iw 63 1 3 8 4) { a := 63, b := 31, c := 7, d := 11, i := 7 } ∧ run.issues 1 job := by
  repeat' first | refine And.intro ?_ ?_ | decide +kernel | rfl

/-- A row of three registers on s1 and s2 into s31. -/
def three (i : Fin 16 → BitVec 56 → Instr) (op x y v : Nat) : Bool := put (exec (i 1 (iw 31 1 2 0 0)) (atPc op (iw 31 1 2 0 0) (regs [(1, x), (2, y)]))) v
/-- R201: sums wrap, shifts take the low six bits, SRA and MIN are signed. -/
theorem test_three : (three .add 0x01 (neg64 1) 2 1 && three .sub 0x02 1 2 (neg64 1) && three .and 0x03 12 10 8 && three .or 0x04 12 10 14 && three .xor 0x05 12 10 6 &&
    three .shl 0x06 1 67 8 && three .shr 0x07 (neg64 1) 63 1 && three .sra 0x08 (neg64 8) 1 (neg64 4) && three .mul 0x09 (neg64 3) 5 (neg64 15) &&
    three .min 0x0A (neg64 1) 1 (neg64 1) && three .max 0x0B (neg64 1) 1 1) = true := by decide +kernel
/-- R191: a write of s0 is discarded. -/
theorem test_s0 : ok (exec (.add 1 (iw 0 1 2 0 0)) (atPc 0x01 (iw 0 1 2 0 0) (regs [(1, 5), (2, 6)]))) (fun t => t.rs 1 0 == 0 && t.pcAt 1 == 8) = true := by decide +kernel
/-- An immediate row on s1 into s31. -/
def imm (i : Fin 16 → BitVec 56 → Instr) (op x n v : Nat) : Bool := put (exec (i 1 (iw 31 1 0 0 n)) (atPc op (iw 31 1 0 0 n) (regs [(1, x)]))) v
/-- R201: immediates are sign-extended. -/
theorem test_imm : (imm .addi 0x10 5 0xFFFFFFFF 4 && imm .andi 0x11 0x1F0F 0xFFFFFF00 0x1F00 && imm .ori 0x12 1 0x80000000 (neg64 0x7FFFFFFF) && imm .shli 0x13 1 63 (2 ^ 63) &&
    imm .shri 0x14 (2 ^ 63) 63 1 && imm .srai 0x15 (2 ^ 63) 63 (neg64 1)) = true := by decide +kernel
/-- R201: LI extends its sign, LIH replaces the upper half. -/
theorem test_li : (put (exec (.li 1 (iw 31 0 0 0 0xFFFFFFFE)) (atPc 0x16 (iw 31 0 0 0 0xFFFFFFFE) run)) (neg64 2) &&
    put (exec (.lih 1 (iw 31 0 0 0 0x12345678)) (atPc 0x17 (iw 31 0 0 0 0x12345678) (regs [(31, 0xFFFFFFFF00000009)]))) 0x1234567800000009) = true := by decide +kernel
theorem test_nop : exec (.nop 1 0) (atPc 0x00 0 run) = .next ((atPc 0x00 0 run).setPc 1 8) := rfl
/-- R194: a guard on p3 that reads 0 lets nothing happen but the PC's advance; negated, the row runs. -/
theorem test_guard : (ok (exec (.add 1 (iw 31 1 2 0 0 + BitVec.ofNat 56 (2 ^ 55 + 3 * 2 ^ 52))) (atPc 0x01 (iw 31 1 2 0 0 + BitVec.ofNat 56 (2 ^ 55 + 3 * 2 ^ 52)) (regs [(1, 1), (2, 1)]))) (fun t =>
      t.rs 1 31 == 0 && t.pcAt 1 == 8) &&
    put (exec (.add 1 (iw 31 1 2 0 0 + BitVec.ofNat 56 (2 ^ 55 + 2 ^ 54 + 3 * 2 ^ 52))) (atPc 0x01 (iw 31 1 2 0 0 + BitVec.ofNat 56 (2 ^ 55 + 2 ^ 54 + 3 * 2 ^ 52)) (regs [(1, 1), (2, 1)]))) 2) = true := by decide +kernel

/-- CMP of s1 and s2 under a code. -/
def cmps (x y d : Nat) (v : Bool) : Bool := ok (exec (.cmp 1 (iw 3 1 2 d 0)) (atPc 0x18 (iw 3 1 2 d 0) (regs [(1, x), (2, y)]))) (fun t => (t.seqOf 1).pred 3 == v && t.pcAt 1 == 8)
/-- R196: EQ, NE, LTU, GEU, LT and GE of −1 and 1; code 6 is reserved. -/
theorem test_cmp : (cmps (neg64 1) 1 0 false && cmps (neg64 1) 1 1 true && cmps (neg64 1) 1 2 false && cmps (neg64 1) 1 3 true &&
    cmps (neg64 1) 1 4 true && cmps (neg64 1) 1 5 false && cmps 1 1 5 true) = true := by decide +kernel
theorem test_cmp_reserved : raises .cmp 0x18 (iw 3 1 2 6 0) run 1 ∧ raises .cmpi 0x19 (iw 3 1 0 6 0) run 1 ∧
    raises .plog 0x1A (iw 3 1 2 4 0) run 1 := by
  repeat' first | refine And.intro ?_ ?_ | decide +kernel | rfl
theorem test_cmpi : ok (exec (.cmpi 1 (iw 3 1 0 4 0xFFFFFFFF)) (atPc 0x19 (iw 3 1 0 4 0xFFFFFFFF) (regs [(1, neg64 2)]))) (fun t => (t.seqOf 1).pred 3) = true := by decide +kernel
/-- R196: AND, OR, XOR and ANDN of p1 = 1 and p2 = 0. -/
theorem test_plog : ((List.range 4).map (fun d => ok (exec (.plog 1 (iw 3 1 2 d 0)) (atPc 0x1A (iw 3 1 2 d 0) (run.modSeq 1 (fun q => q.setPred 1 true)))) (fun t => (t.seqOf 1).pred 3)) ==
    [false, true, true, true]) = true := by decide +kernel

/-- R195, R201: the last word of w0 is a target, the one after it is not, nor one before w0. -/
theorem test_br : ok (exec (.br 1 (iw 0 0 0 0 7)) (atPc 0x30 (iw 0 0 0 0 7) run)) (fun t => t.pcAt 1 == 56) = true ∧ raises .br 0x30 (iw 0 0 0 0 8) run 1 ∧
    raises .br 0x30 (iw 0 0 0 0 0xFFFFFFFF) run 1 := by
  repeat' first | refine And.intro ?_ ?_ | decide +kernel | rfl
theorem test_jal : ok (exec (.jal 1 (iw 31 0 0 0 2)) (atPc 0x32 (iw 31 0 0 0 2) run)) (fun t => t.pcAt 1 == 16 && t.rs 1 31 == 8) = true := by decide +kernel
theorem test_jr : ok (exec (.jr 1 (iw 0 1 0 0 0)) (atPc 0x33 (iw 0 1 0 0 0) (regs [(1, 56)]))) (fun t => t.pcAt 1 == 56) = true ∧
    raises .jr 0x33 (iw 0 1 0 0 0) (regs [(1, 12)]) 1 ∧
    raises .jr 0x33 (iw 0 1 0 0 0) (regs [(1, 64)]) 1 := by
  repeat' first | refine And.intro ?_ ?_ | decide +kernel | rfl
theorem test_loop : (ok (exec (.loop 1 (iw 0 1 0 0 3)) (atPc 0x31 (iw 0 1 0 0 3) (regs [(1, 2)]))) (fun t => t.pcAt 1 == 24 && t.rs 1 1 == 1) &&
    ok (exec (.loop 1 (iw 0 1 0 0 3)) (atPc 0x31 (iw 0 1 0 0 3) (regs [(1, 1)]))) (fun t => t.pcAt 1 == 8 && t.rs 1 1 == 0)) = true := by decide +kernel
/-- R215: what is recorded of an exception. -/
theorem test_record : ((run.recordExc 1 0x0B 40 7 0xFFFFFFFF).num (odCore 0x6102 1 1) == 0x0B && (run.recordExc 1 0x0B 40 7 9).num (odCore 0x6102 1 2) == 40 &&
    (run.recordExc 1 0x0B 40 7 9).num (odCore 0x6102 1 3) == 7 && (run.recordExc 1 0x0B 40 7 9).num (odCore 0x6102 1 4) == 9 &&
    (run.recordExc 1 0x0B 40 7 9).num (odCore 0x6102 1 8) == 1) = true := by decide +kernel
theorem test_trap : exec (.trap 1 (iw 0 0 0 0 0xFFFFFFFF)) (atPc 0x72 (iw 0 0 0 0 0xFFFFFFFF) run) =
    .next ((atPc 0x72 (iw 0 0 0 0 0xFFFFFFFF) run).except 1 0x0B 0 0xFFFFFFFF) := rfl
theorem test_trap_ends : ok (exec (.trap 1 (iw 0 0 0 0 3)) (atPc 0x72 (iw 0 0 0 0 3) run)) (fun t => (t.seqOf 1).task == none) = true := by decide +kernel

/-- R197: each field is written and read; a BASE that is no multiple of 32 is OPERAND. -/
theorem test_tset : ok (exec (.tset 1 (iw 7 1 0 1 0)) (atPc 0x38 (iw 7 1 0 1 0) (regs [(1, 96)]))) (fun t => (t.seqOf 1).td 7 == { base := 96 } && t.pcAt 1 == 8) = true ∧
    raises .tset 0x38 (iw 7 1 0 1 0) (regs [(1, 97)]) 2 := by
  repeat' first | refine And.intro ?_ ?_ | decide +kernel | rfl
theorem test_tget : put (exec (.tget 1 (iw 31 0 7 7 0)) (atPc 0x39 (iw 31 0 7 7 0) (run.modSeq 1 (fun q => { q with desc := q.desc.set 7 { aux := 5 } })))) 5 = true := by decide +kernel
/-- R225: size, generation and attributes. -/
theorem test_winfo : put (exec (.winfo 1 (iw 31 0 3 0 0)) (atPc 0x3E (iw 31 0 3 0 0) (run.modPad 1 (fun k => k.setWin 2 3 { size := 32, gen := 255, attr := 2 })))) (32 + 255 * 2 ^ 32 + 2 * 2 ^ 40)
    = true := by decide +kernel
theorem test_astat : put (exec (.astat 1 (iw 31 0 0 0 0)) (atPc 0x44 (iw 31 0 0 0 0) ((run.modSeq 1 (fun q => { q with arrayQ := [{}] })).modArr 1 (fun a =>
    { a with pending := [{}, {}], merges := [{}] })))) (1 + 2 * 65536 + 2 ^ 32) = true := by decide +kernel
theorem test_amode : ok (exec (.amode 1 (iw 0 1 0 0 0)) (atPc 0x40 (iw 0 1 0 0 0) (regs [(1, 2 ^ 32 + 5)]))) (fun t => (t.seqOf 1).mode == 5 && (t.seqOf 1).modeValid) = true := by
  decide +kernel
/-- R201: frame, argument, place, cycle count and short stamp. -/
theorem test_tinfo : ((List.range 5).zip [9, 6, 1 + 256 * 2 + 65536 * 7, 77, 500]).all (fun x =>
    put (exec (.tinfo 1 (iw 31 0 0 x.1 0) 77 500) (atPc 0x70 (iw 31 0 0 x.1 0) run)) x.2) = true := by decide +kernel

/-- R202: eight bytes that end with the window; one byte with its sign; beyond the window; misaligned. -/
theorem test_ld : let s := (regs [(1, 248)]).modPad 1 (fun k => k.write (k.win 2 1) 248 [1, 2, 3, 4, 5, 6, 7, 0xF8])
    (put (exec (.ld 1 (iw 31 1 1 3 0) {}) (atPc 0x20 (iw 31 1 1 3 0) s)) 0xF807060504030201 && put (exec (.ld 1 (iw 31 1 1 4 7) {}) (atPc 0x20 (iw 31 1 1 4 7) s)) (neg64 8)) = true ∧
      raises (fun c w => .ld c w {}) 0x20 (iw 31 1 1 3 8) s 3 ∧ raises (fun c w => .ld c w {}) 0x20 (iw 31 1 1 3 4) s 2 := by
  repeat' first | refine And.intro ?_ ?_ | decide +kernel | rfl
/-- R202, R221, R230: the bytes stand at line 128 · b of quad f; a window without WRITE and a closed one refuse. -/
theorem test_st : let s := regs [(1, 4), (31, 0x0A0B0C0D)]
    ok (exec (.st 1 (iw 31 1 1 2 0xFFFFFFFC)) (atPc 0x21 (iw 31 1 1 2 0xFFFFFFFC) s)) (fun t => (List.range 5).map (fun i => (t.cores[1]).pad.mem.rd (8 * 1048576 + 2 * 16384 + i)) ==
      [0x0D, 0x0C, 0x0B, 0x0A, 0] && t.pcAt 1 == 8) = true ∧
      raises .st 0x21 (iw 31 1 2 2 0) s 3 ∧ raises .st 0x21 (iw 31 1 3 2 0) s 3 ∧ raises .st 0x21 (iw 31 1 1 2 0xFFFFFFFD) s 2 := by
  repeat' first | refine And.intro ?_ ?_ | decide +kernel | rfl
/-- R202, R236: the old value is returned and the sum wraps in four bytes. -/
theorem test_aadd : let s := (regs [(1, 252), (2, 3)]).modPad 1 (fun k => k.write (k.win 2 1) 252 [0xFF, 0xFF, 0xFF, 0xFF])
    ok (exec (.aadd 1 (iw 31 1 2 1 1) {}) (atPc 0x22 (iw 31 1 2 1 1) s)) (fun t => t.rs 1 31 == 0xFFFFFFFF && (t.cores[1]).pad.bytes ((t.cores[1]).pad.win 2 1) 252 4 == [2, 0, 0, 0]) = true := by
  decide +kernel
theorem test_aswp : let s := (regs [(1, 248), (2, 3)]).modPad 1 (fun k => k.write (k.win 2 1) 248 [9, 0, 0, 0, 0, 0, 0, 0])
    ok (exec (.aswp 1 (iw 31 1 2 0 1) {}) (atPc 0x23 (iw 31 1 2 0 1) s)) (fun t => t.rs 1 31 == 9 && (t.cores[1]).pad.bytes ((t.cores[1]).pad.win 2 1) 248 8 == [3, 0, 0, 0, 0, 0, 0, 0]) = true := by
  decide +kernel

/-- R227: a near window of 33 bytes takes one granule of quad 0 and 64 bytes; a size of zero is not granted; w0 and an open window are ILLEGAL. -/
theorem test_wopen : let s := regs [(1, 33), (2, 2 + 1 * 512)]
    (ok (exec (.wopen 1 (iw 7 1 2 1 0)) (atPc 0x3C (iw 7 1 2 1 0) s)) (fun t => (t.cores[1]).pad.win 2 7 == { isOpen := true, f := 0, b := 0, size := 64, attr := 514 } && (t.seqOf 1).pred 1) &&
      ok (exec (.wopen 1 (iw 7 0 2 1 0)) (atPc 0x3C (iw 7 0 2 1 0) s)) (fun t => !((t.cores[1]).pad.win 2 7).isOpen && !(t.seqOf 1).pred 1 && t.pcAt 1 == 8)) = true ∧
      raises .wopen 0x3C (iw 0 1 2 1 0) s 1 ∧ raises .wopen 0x3C (iw 1 1 2 1 0) s 1 := by
  repeat' first | refine And.intro ?_ ?_ | decide +kernel | rfl
theorem wit_wopen : (regs [(1, 33), (2, 514)]).winRules 2 7 64 514 false = true ∧ (regs [(1, 33), (2, 514)]).findRun 1 1 1 1 = some (0, 0) ∧
    (regs []).winRules 2 7 0 514 false = false := by decide +kernel
/-- R229: the generation goes on modulo 256; w0 is ILLEGAL; a window in use makes the sequencer wait. -/
theorem test_wclose : let s := run.modPad 1 (fun k => k.setWin 2 1 { isOpen := true, f := 8, b := 2, size := 256, attr := 2, gen := 255 })
    (ok (exec (.wclose 1 (iw 1 0 0 0 0)) (atPc 0x3D (iw 1 0 0 0 0) s)) (fun t => !((t.cores[1]).pad.win 2 1).isOpen && ((t.cores[1]).pad.win 2 1).gen == 0 && t.pcAt 1 == 8) &&
      ok (exec (.wclose 1 (iw 1 0 0 0 0)) (atPc 0x3D (iw 1 0 0 0 0) (s.modSeq 1 (fun q => { q with dmaQ := [{ run := job, ts := { ctrl := 512 } }] })))) (fun t =>
        (t.seqOf 1).wait == .wclose 1 && t.pcAt 1 == 0)) = true ∧
      raises .wclose 0x3D (iw 0 0 0 0 0) s 1 := by
  repeat' first | refine And.intro ?_ ?_ | decide +kernel | rfl
/-! Waiting rows, counters and segments (R203, R204, R210, R283). -/

theorem test_await : (ok (exec (.await 1 0) (atPc 0x43 0 run)) (fun t => t.pcAt 1 == 8) &&
    ok (exec (.await 1 0) (atPc 0x43 0 (run.modArr 1 (fun a => { a with merges := [{}] })))) (fun t => (t.seqOf 1).wait == .await && t.pcAt 1 == 0) &&
    ok (exec (.awaitComplete 1) (run.waitFor 1 .await)) (fun t => (t.seqOf 1).wait == .none && t.pcAt 1 == 8)) = true := by decide +kernel
/-- A request of the task that is not answered yet holds a FENCE. -/
def asked : State := { run with fab := { run.fab with reqs := [{ core := some 1, task := some job }] } }
theorem test_fence : (ok (exec (.fence 1 0) (atPc 0x5B 0 run)) (fun t => t.pcAt 1 == 8) && ok (exec (.fence 1 0) (atPc 0x5B 0 asked)) (fun t => (t.seqOf 1).wait == .fence) &&
    ok (exec (.fenceComplete 1) (run.waitFor 1 .fence)) (fun t => t.pcAt 1 == 8)) = true := by decide +kernel
theorem test_tend : (ok (exec (.tend 1 0) (atPc 0x71 0 run)) (fun t => (t.seqOf 1).task == none) && ok (exec (.tend 1 0) (atPc 0x71 0 asked)) (fun t => (t.seqOf 1).wait == .tend) &&
    ok (exec (.tendComplete 1) (run.waitFor 1 .tend)) (fun t => (t.seqOf 1).task == none)) = true := by decide +kernel
/-- R369: the instance is DONE. -/
theorem test_done : let s := run.modSched (fun x => { x with insts := [{ task := 7, lcore := 1, state := .running }] })
    s.sched.runningOn 1 = some { task := 7, lcore := 1, state := .running } ∧
      (s.taskDone 1).sched.insts.map (·.state) = [.done] := by decide +kernel
/-- Core 1 with counter 63 at v. -/
def kAt (v : Nat) (l : List (Nat × Nat)) : State := (regs l).kset 1 63 v
theorem test_waitk : (ok (exec (.waitk 1 (iw 63 1 0 0 0)) (atPc 0x58 (iw 63 1 0 0 0) (kAt 5 [(1, 2 ^ 32 + 5)]))) (fun t => t.pcAt 1 == 8) &&
    ok (exec (.waitk 1 (iw 63 1 0 0 0)) (atPc 0x58 (iw 63 1 0 0 0) (kAt 5 [(1, 6)]))) (fun t => (t.seqOf 1).wait == .waitk 63 6) &&
    ok (exec (.waitkResume 1) ((kAt 5 []).waitFor 1 (.waitk 63 5))) (fun t => t.pcAt 1 == 8)) = true ∧
    exec (.waitkResume 1) ((kAt 5 []).waitFor 1 (.waitk 63 6)) = .next ((kAt 5 []).waitFor 1 (.waitk 63 6)) := by
  repeat' first | refine And.intro ?_ ?_ | decide +kernel | rfl
theorem test_kget : put (exec (.kget 1 (iw 63 0 31 0 0)) (atPc 0x59 (iw 63 0 31 0 0) (kAt 5 []))) 5 = true := by decide +kernel
/-- R204: the counter may become zero, not less. -/
theorem test_ksub : ok (exec (.ksub 1 (iw 63 1 0 0 0)) (atPc 0x5A (iw 63 1 0 0 0) (kAt 5 [(1, 5)]))) (fun t => t.kget 1 63 == 0 && t.pcAt 1 == 8) = true ∧
    raises .ksub 0x5A (iw 63 1 0 0 0) (kAt 5 [(1, 6)]) 2 := by
  repeat' first | refine And.intro ?_ ?_ | decide +kernel | rfl
/-- A segment header for frame 9, copy 0, owner 0: rule book 3, class 5, number 600, length 4, chunk 70,000, 24-bit fields 1 and 2. -/
def header (frame : Nat) : Bytes :=
  natLe 1 3 ++ natLe 1 5 ++ natLe 1 0 ++ natLe 1 1 ++ natLe 2 600 ++ natLe 1 0 ++ natLe 1 0 ++ natLe 4 frame ++ natLe 4 70000 ++ natLe 4 1 ++
    natLe 4 0 ++ natLe 4 2 ++ natLe 4 0
def headed (frame : Nat) : State := (regs [(1, 224)]).modPad 1 (fun k => k.write (k.win 2 1) 224 (header frame))
/-- R210: the five values of the header; a header of another frame is SEGMENT. -/
theorem test_segh : ok (exec (.segh 1 (iw 27 1 1 0 0) {}) (atPc 0x48 (iw 27 1 1 0 0) (headed 9))) (fun t =>
      [27, 28, 29, 30, 31].map (fun r => (t.rs 1 r).toNat) == [600, 5, 1, 70000, 1 + 2 * 2 ^ 32] && t.pcAt 1 == 8) = true ∧
    exec (.segh 1 (iw 27 1 1 0 0) {}) (atPc 0x48 (iw 27 1 1 0 0) (headed 8)) = .next ((atPc 0x48 (iw 27 1 1 0 0) (headed 8)).except 1 6 0) := by
  repeat' first | refine And.intro ?_ ?_ | decide +kernel | rfl
/-- R203: SEGR marks the oldest written slot, SEGMENT_SLOT_RETURN gives the oldest marked one back; with none written SEGR is ILLEGAL. -/
def ring (w m : List Nat) : State := run.modPad 1 (fun k => k.setWin 2 3 { isOpen := true, f := 10, size := 32800, attr := 64, segs := w, marked := m })
theorem test_segr : ok (exec (.segr 1 (iw 0 0 3 0 0)) (atPc 0x49 (iw 0 0 3 0 0) (ring [1, 0] []))) (fun t =>
      ((t.cores[1]).pad.win 2 3).segs == [0] && ((t.cores[1]).pad.win 2 3).marked == [1] && t.pcAt 1 == 8) = true ∧
    raises .segr 0x49 (iw 0 0 3 0 0) (ring [] [1]) 1 ∧
    ok (exec (.segmentSlotReturn 1 3) (ring [] [1, 0])) (fun t => ((t.cores[1]).pad.win 2 3).marked == [0] && t.fab.mesh.map (·.1) == [6]) = true := by
  repeat' first | refine And.intro ?_ ?_ | decide +kernel | rfl
/-- Group 15 of partition 2 has the cores 0 and 1; arrivals count in k12, releases in k13 of each. -/
def grouped (k13 : Nat) (v : Nat) : State :=
  ((regs [(1, v)]).setOct (od 0x181F 0) (natLe 1 3 ++ natLe 1 2 ++ zeros 6 ++ natLe 4 3 ++ natLe 1 12 ++ natLe 1 13 ++ zeros 2)).kset 1 13 k13
theorem wit_group : (grouped 1 15).groupOk 1 2 15 = true ∧ (grouped 1 15).groupOk 1 2 14 = false ∧
    ((grouped 1 15).grpMember ((grouped 1 15).group 15) 0).1 = (grouped 1 15).device := by decide +kernel
theorem test_bar : ok (exec (.bar 1 (iw 0 1 0 0 0)) (atPc 0x5C (iw 0 1 0 0 0) (grouped 1 15))) (fun t => (t.seqOf 1).wait == .none && t.pcAt 1 == 8 && t.kget 1 13 == 0) = true ∧
    raises .bar 0x5C (iw 0 1 0 0 0) (grouped 1 16) 2 ∧ raises .bar 0x5C (iw 0 1 0 0 0) (grouped 1 14) 2 := by
  repeat' first | refine And.intro ?_ ?_ | decide +kernel | rfl
/-! The array, DMA and top-k (R156-R187, R203-R217, R290-R305). -/

/-- LINEAR descriptors on w1; the mode word zero: arrangement 0, weight-stationary, INT8 MAC, destination LINEAR. -/
def armed (valid : Bool) (v : Nat) (queue : List AJob) : State :=
  (regs [(1, v)]).modSeq 1 (fun q => { q with desc := Vector.replicate 8 { ctrl := 4096 + 512, row := 32, count := 1 }, modeValid := valid, arrayQ := queue })
theorem wit_amm : (armed true (2 + 2 ^ 32 + 2 ^ 48) []).ammOk 1 2 0 { ctrl := 4608, row := 32, count := 1 } { ctrl := 4608, row := 32, count := 1 }
    { ctrl := 4608, row := 32, count := 1 } = true ∧ modeBad 0 = false ∧ mStore 0 = false ∧ mRipple 0 = false := by decide +kernel
theorem test_amm : (ok (exec (.amm 1 (iw 8 1 0 2 0)) (atPc 0x41 (iw 8 1 0 2 0) (armed true (2 + 2 ^ 32 + 2 ^ 48) [{}, {}, {}]))) (fun t =>
      (t.seqOf 1).arrayQ.length == 4 && ((t.seqOf 1).arrayQ.getLast?.map (fun j => (j.m, j.k, j.n, j.run))) == some (2, 1, 1, job) && t.pcAt 1 == 8) &&
    ok (exec (.amm 1 (iw 8 1 0 2 0)) (atPc 0x41 (iw 8 1 0 2 0) (armed false 0 []))) (fun t => (t.seqOf 1).arrayQ.length == 0 && t.pcAt 1 == 8)) = true ∧
    exec (.amm 1 (iw 8 1 0 2 0)) (atPc 0x41 (iw 8 1 0 2 0) (armed true 2 [{}, {}, {}, {}])) = .next (atPc 0x41 (iw 8 1 0 2 0) (armed true 2 [{}, {}, {}, {}])) ∧
    raises .amm 0x41 (iw 8 1 0 2 0) (armed false 2 []) 4 := by
  repeat' first | refine And.intro ?_ ?_ | decide +kernel | rfl
theorem test_adrain : ok (exec (.adrain 1 (iw 0 1 0 2 0)) (atPc 0x42 (iw 0 1 0 2 0) (armed true (511 * 2 ^ 32 + 1) []))) (fun t =>
    (t.seqOf 1).arrayQ.map (fun j => (j.isDrain, j.first, j.m)) == [(true, 511, 1)] && t.pcAt 1 == 8) = true := by decide +kernel

/-- One streamed row (3, 4) and the stationary rows (5, 5) in w2; two multiply-accumulates per result of the columns 0 and 1. -/
def product : AJob :=
  { ta := { ctrl := 4096 + 2 * 512, row := 32 }, tw := { ctrl := 4096 + 2 * 512, base := 32, row := 32 }, td := { ctrl := 4096 + 512, row := 32 }
    m := 1, k := 2, n := 2, run := job }
def stocked (a : Arr) : State := (run.modPad 1 (fun k => (k.write (k.win 2 2) 0 [3, 4]).write (k.win 2 2) 32 [5, 6])).modArr 1 (fun _ => a)
/-- A cell (0, 0) of tile 0 that holds a wrong stationary bit. -/
def wrong : Upset := { held := true, err := 1 }
/-- The array works on the chunk. -/
def working (j : AJob) (u : Running → Running) (a : Arr) : State := stocked { a with running := some (u { chunk := { job := j, rows := 1 } }) }
/-- R159, R160: the pass streams its row against the block: 3 · 5 + 4 · 5 and 3 · 6 + 4 · 6 leave for w1, and the chunk waits for its verdict. -/
theorem test_bulk : ok (exec (.bulkLoad 1 {} []) (working product (fun u => { u with loading := true }) { passCount := 31 })) (fun t =>
    (t.cores[1]).arr.running == none && (t.cores[1]).arr.pending.map (·.bad) == [[]] && (t.cores[1]).arr.passCount == 0 &&
      (t.cores[1]).arr.banks.map (fun b => (b.1, b.2.held)) == [(1, [[5, 6], [5, 6]])] &&
      (t.cores[1]).pad.bytes ((t.cores[1]).pad.win 2 1) 0 9 == [35, 0, 0, 0, 42, 0, 0, 0, 0]) = true := by decide +kernel
/-- R171: a load whose sums differ is repeated. R172: a ripple load needs a valid bank. -/
theorem test_loads : (ok (exec (.bulkLoad 1 {} [wrong]) (working product (fun u => { u with loading := true }) {})) (fun t =>
      (t.cores[1]).arr.running.map (fun u => (u.loading, u.retried, u.pass)) == some (true, true, 0) && t.num (odCore 0x6100 1 8) == 1) &&
    ok (exec (.rippleLoad 1 {} []) (working { product with mode := 2 ^ 17 } (fun u => { u with loading := true }) { banks := [(0, {})], sel := 0 })) (fun t =>
      (t.cores[1]).arr.banks.map (·.1) == [0, 1] && (t.cores[1]).arr.pending.length == 1) &&
    ok (exec (.rippleLoad 1 {} []) (working { product with mode := 2 ^ 17 } (fun u => { u with loading := true }) {})) (fun t =>
      (t.cores[1]).arr.running.map (fun u => (u.loading, u.pass)) == some (true, 0))) = true := by decide +kernel
/-- R159: arrangement 3 takes 32 of K in a pass; the sums of the first stay in the array. -/
theorem test_pass_go : ok (exec (.bulkLoad 1 {} []) (working { product with mode := 3 * 2 ^ 29, k := 33, ta := { ctrl := 4096 + 512, row := 64 } }
      (fun u => { u with loading := true }) {})) (fun t =>
    (t.cores[1]).arr.running.map (fun u => (u.pass, u.loading, u.accs.map (fun r => r.map (·.v)))) == some (1, false, [[0, 0]])) = true := by decide +kernel
/-- R159, R162: an output-stationary block fills a set; its drain writes its rows; a set whose comparisons failed leaves nothing. -/
theorem test_os : (ok (exec (.arrayPassStart 1 {} false []) (working { product with mode := 2 ^ 27 } id {})) (fun t =>
      (t.cores[1]).arr.running.map (fun u => (u.pass, u.sets.map (fun o => (o.bm, o.bn, o.bad, o.rows.map (fun r => r.map (·.v)))))) == some (1, [(0, 0, false, [[35, 42]])])) &&
    ok (exec (.osDrain 1) (working { product with mode := 2 ^ 27 } (fun u => { u with pass := 1, sets := [{ rows := [[{ v := 35 }]] }, {}] }) {})) (fun t =>
      (t.cores[1]).arr.running.map (fun u => u.sets.length) == some 1 && (t.cores[1]).pad.bytes ((t.cores[1]).pad.win 2 1) 0 4 == [35, 0, 0, 0]) &&
    ok (exec (.osDrain 1) (working { product with mode := 2 ^ 27 } (fun u => { u with pass := 1, sets := [{ rows := [[{ v := 35 }]], bad := true }, {}] }) {})) (fun t =>
      (t.cores[1]).arr.running.map (fun u => u.sets.length) == some 1 && (t.cores[1]).pad.bytes ((t.cores[1]).pad.win 2 1) 0 4 == [0, 0, 0, 0])) = true := by
  decide +kernel
theorem test_pass : ok (exec (.arrayPassStart 1 {} false []) (working product id {})) (fun t =>
    (t.cores[1]).arr.running == some { chunk := { job := product, rows := 1 }, loading := true }) = true := by decide +kernel
/-- R206: a chunk takes at most 4,096 rows; what is left of its job follows, and its place in the queue is free. -/
def queued : State := (run.modSeq 1 (fun q => { q with arrayQ := [{ product with m := 5000 }] })).modArr 1 (fun a => { a with arrangement := some 0 })
theorem test_chunk : ok (exec (.arrayPassStart 1 {} false []) queued) (fun t =>
    (t.cores[1]).arr.running.map (fun u => (u.chunk.row0, u.chunk.rows, u.pass, u.loading)) == some (0, 4096, 0, true) &&
      (t.seqOf 1).arrayQ == [] && (t.cores[1]).arr.cur.map (·.done) == some 4096) = true := by decide +kernel
/-- R181, R182, R207: a verdict takes the oldest pending chunk; a MERGE chunk goes to the merge engine; a chunk that failed is replayed with all
that follow. -/
def pended (ctrl : Nat) (bad : List Nat) : State := run.modArr 1 (fun a =>
  { a with pending := [{ job := { td := { ctrl := ctrl } }, rows := 1, bad := bad }, { rows := 2 }] })
theorem test_verdict : (ok (exec (.chunkVerdict 1) (pended (4 * 4096) [])) (fun t =>
      (t.cores[1]).arr.pending.map (·.rows) == [2] && (t.cores[1]).arr.merges.map (·.rows) == [1]) &&
    ok (exec (.chunkVerdict 1) (pended 4096 [])) (fun t => (t.cores[1]).arr.merges == []) &&
    ok (exec (.chunkVerdict 1) (pended 4096 [0])) (fun t => (t.cores[1]).arr.pending == [] && t.num (odCore 0x6100 1 5) == 1 &&
      (t.cores[1]).arr.replays.map (fun x => (x.rows, x.again, x.failed, x.bad)) == [(1, true, true, []), (2, true, false, [])])) = true := by decide +kernel
theorem wit_merge : let s := run.modArr 1 (fun a => { a with merges := [{}] })
    ((s.modArr 1 (fun a => { a with merges := [] })).mergeRows 1 {} {} 0 0).2 = none ∧
      ok (exec (.mergeChunk 1 {}) s) (fun t => (t.cores[1]).arr.merges == []) = true := by decide +kernel

/-- The task runs as an instance on core 1 and is to be pre-empted; partition 2 has one save slot. -/
def preempted : State := run.modSched (fun x => { x with
  insts := [{ task := 7, lcore := 1, state := .running }], preemptAt := x.preemptAt.set 1 (some 0) })
theorem wit_preempt : preempted.sched.runningOn 1 = some { task := 7, lcore := 1, state := .running } ∧ preempted.sched.part 2 =
    some { part := 2, present := true, mask := 2, quad := 2, granule := 9, slots := 1, counters := 1 } ∧ preempted.sched.slotsUsed 1 2 = [] ∧
    preempted.cores[1].mayPreempt job = true := by decide +kernel
theorem test_preempt : ok (exec (.preemptSave 1) preempted) (fun t => (t.seqOf 1).task == none && t.sched.preemptAt[(1 : Fin 16)] == none &&
    t.sched.insts.map (fun i => (i.state, i.slot)) == [(.preempted, some 0)]) = true := by decide +kernel

/-- A writer with a VENDOR session. -/
def vendor : State := { State.reset with power := { State.reset.power with supervisor := true }, hap := { State.reset.hap with
  sessions := [{ id := 5, level := .vendor, isHost := true }] } }
def who : Writer := { session := 5, t := 1000 }
theorem wit_accepts : (vendor.at who.t).accepts who 0x6002 1 (.num 1) ∧ (vendor.at who.t).accepts who 0x7000 4 (.num 1) ∧
    (vendor.at who.t).accepts who 0x7000 2 (.num 1) ∧ (vendor.at who.t).accepts who 0x1830 8 (.num 1) := by decide +kernel
theorem test_repair_clear : ok (exec (.arrayRepairClear who 1) vendor) (fun t => t.hap.lastStatus == 0 && t.dict.armed == [od 0x6002 1]) = true := by
  decide +kernel

/-- Core 1 copies 32 bytes from w2 to the end of w1. -/
def copying : DJob := { ts := { ctrl := 4096 + 2 * 512, row := 32, count := 1 }, td := { ctrl := 4096 + 512, base := 224, row := 32, count := 1 }
                        count := some 63, run := job, started := true }
def dmaState (q : List DJob) : State := (((regs [(1, 0), (2, 64)]).modSeq 1 (fun s => { s with dmaQ := q, desc := (s.desc.set 3 copying.ts).set 4 copying.td })).modPad 1
  (fun k => k.write (k.win 2 2) 0 (natLe 32 0x1234))).kset 1 63 4294967295
theorem wit_dma : dmaOk .copy copying.ts copying.td = true ∧ (dmaState [copying]).cores[1].pad.firstBad ((dmaState []).cores[1].pad.win 2 2) 0 32 = none := by
  decide +kernel
theorem test_dma : (ok (exec (.dmaCopy 1 (iw 63 1 3 8 4)) (atPc 0x50 (iw 63 1 3 8 4) (dmaState []))) (fun t => (t.seqOf 1).dmaQ.map (fun j => (j.started, j.count)) == [(true, some 63)] && t.pcAt 1 == 8) &&
    ok (exec (.dmaCopy 1 (iw 0 1 3 0 4)) (atPc 0x50 (iw 0 1 3 0 4) (dmaState (copying :: List.replicate 7 {})))) (fun t => (t.seqOf 1).dmaQ.length == 9 && t.pcAt 1 == 8) &&
    ok (exec (.maskb 1 (iw 0 1 3 0 (31 * 256 + 4))) (atPc 0x51 (iw 0 1 3 0 (31 * 256 + 4)) (dmaState []))) (fun t => (t.seqOf 1).dmaQ.map (·.width) == [32]) &&
    ok (exec (.drep 1 (iw 2 1 0 0 7)) (atPc 0x52 (iw 2 1 0 0 7) (dmaState []))) (fun t => (t.seqOf 1).dmaQ.map (fun j => (j.len, j.win)) == [(64, 7)])) = true ∧
    exec (.dmaCopy 1 (iw 0 1 3 0 4)) (atPc 0x50 (iw 0 1 3 0 4) (dmaState (copying :: List.replicate 8 {}))) = .next (atPc 0x50 (iw 0 1 3 0 4) (dmaState (copying :: List.replicate 8 {}))) ∧
    raises .dmaCopy 0x50 (iw 0 1 5 0 4) (dmaState []) 2 ∧
    raises .drep 0x52 (iw 2 1 0 0 7) (regs [(2, 33)]) 2 := by
  repeat' first | refine And.intro ?_ ?_ | decide +kernel | rfl
theorem test_dma_add_conv : (ok (exec (.dmaAdd 1 (iw 0 1 3 1 4)) (atPc 0x50 (iw 0 1 3 1 4) ((dmaState []).modSeq 1 (fun q => { q with desc := q.desc.set 4 { ctrl := 4096 + 512 + 5 * 16 } }))))
      (fun t => (t.seqOf 1).dmaQ.map (·.op) == [.add]) &&
    ok (exec (.dmaConv 1 (iw 0 1 3 2 4)) (atPc 0x50 (iw 0 1 3 2 4) ((dmaState []).modSeq 1 (fun q => { q with desc := (q.desc.set 3 { ctrl := 4096 + 6 * 16 }).set 4 { ctrl := 4096 + 512 + 4 * 16 } }))))
      (fun t => (t.seqOf 1).dmaQ.map (·.op) == [.conv])) = true := by decide +kernel
/-- R205: the row has moved, the job is gone and its full counter stays at its largest value. -/
theorem test_copy : ok (exec (.dmaComplete 1 {}) (dmaState [copying])) (fun t => (t.seqOf 1).dmaQ == [] && t.kget 1 63 == 4294967295 &&
    (t.cores[1]).pad.bytes ((t.cores[1]).pad.win 2 1) 224 32 == natLe 32 0x1234) = true := by decide +kernel

/-- Core 1's list. -/
def listed (t : TopK) (l : List (Nat × Nat)) : State := (regs l).modTopk 1 (fun _ => t)
theorem test_tkrst : ok (exec (.tkrst 1 (iw 0 1 2 5 1)) (atPc 0x60 (iw 0 1 2 5 1) (listed {} [(1, 1024), (2, 77)]))) (fun t =>
      t.topk 1 == { isOpen := true, k := 1024, fmt := 5, smallest := true, base := 77, final := false } || t.topk 1 == { isOpen := true, k := 1024, fmt := 5, smallest := true, base := 77 }) = true ∧
    raises .tkrst 0x60 (iw 0 1 2 5 1) (listed {} [(1, 1025)]) 2 ∧
    raises .tkrst 0x60 (iw 0 1 2 8 1) (listed {} [(1, 4)]) 2 := by
  repeat' first | refine And.intro ?_ ?_ | decide +kernel | rfl
/-- R293-R295: four INT32 elements into a LARGEST list of two. -/
def poured : State := ((listed { isOpen := true, k := 2, fmt := 5, base := 10, final := false } [(1, 0)]).modSeq 1 (fun q =>
  { q with desc := q.desc.set 6 { ctrl := 4096 + 512 + 5 * 16, row := 16, count := 1 } })).modPad 1 (fun k =>
    k.write (k.win 2 1) 0 (natLe 4 7 ++ natLe 4 0xFFFFFFFF ++ natLe 4 9 ++ natLe 4 7))
theorem test_tkin : ok (exec (.tkin 1 (iw 0 0 6 0 0) {}) (atPc 0x61 (iw 0 0 6 0 0) poured)) (fun t => (t.topk 1).entries == [(9, 12), (7, 10)] && (t.topk 1).ties == 1 &&
    (t.topk 1).count == 4 && t.pcAt 1 == 8) = true := by decide +kernel
theorem wit_tkin : (poured.rowsRead 1 job 0 { ctrl := 4096 + 512 + 5 * 16, row := 16, count := 1 } 16 {} 1 0).2.toOption.isSome = true := by decide +kernel
theorem test_topk_final : ok (exec (.topkListFinal 1) (listed { isOpen := true, k := 2, fmt := 5, final := false, nan := 3 } [])) (fun t =>
    (t.topk 1).final && t.num (odCore 0x6103 1 2) == 3) = true := by decide +kernel
/-- R297: the valid entries, then padding; the counts. -/
theorem test_tkout : (ok (exec (.tkout 1 (iw 31 1 1 0 0)) (atPc 0x62 (iw 31 1 1 0 0) (listed { isOpen := true, k := 2, fmt := 5, entries := [(9, 12)], final := true } [(1, 240)]))) (fun t =>
      (t.cores[1]).pad.bytes ((t.cores[1]).pad.win 2 1) 240 16 == natLe 4 9 ++ natLe 4 12 ++ natLe 4 0x80000000 ++ natLe 4 0xFFFFFFFF && t.rs 1 31 == 1) &&
    ok (exec (.tkout 1 (iw 31 1 1 0 0)) (atPc 0x62 (iw 31 1 1 0 0) (listed { isOpen := true, k := 2, fmt := 5, final := false } [(1, 240)]))) (fun t =>
      (t.seqOf 1).wait == .tkout 31 240 1)) = true := by decide +kernel
theorem test_tkmrg : ok (exec (.tkmrg 1 (iw 0 1 0 0 0)) (atPc 0x63 (iw 0 1 0 0 0) ((grouped 0 (15 + 255 * 256)).modTopk 1 (fun _ => { isOpen := true, final := false })))) (fun t =>
    (t.seqOf 1).wait == .tkmrg 15 255) = true := by decide +kernel
/-- R291, R293, R298: NaNs stay out, of equal values the lower index ranks first, and the left-out equal is counted. -/
theorem test_topk_list : let t := [0x7FC00000, 0x3F800000, 0xBF800000, 0x3F800000, 0x3F800000].foldl TopK.element { k := 2, fmt := 6 }
    (t.entries, t.nan, t.ties, t.count) = ([(0x3F800000, 1), (0x3F800000, 3)], 1, 1, 5) := by decide +kernel
/-! Messages (R236-R244, R268-R288). -/

/-- Core 1's w1 of partition 2 in generation 7, for remote reads and writes, and a request of core 0 for it. -/
def own : State := run.modPad 1 (fun k => (k.setWin 2 1 { isOpen := true, f := 8, b := 2, size := 256, gen := 7, attr := 14 }).write
  { isOpen := true, f := 8, b := 2, size := 256, attr := 2 } 224 [0xFF, 0xFF, 0xFF, 0xFF])
def msg : Msg := { dstop := coreStop 1, sstop := coreStop 0, part := 2, win := 1, gen := 7, tag := 77, offset := 7 }
/-- The message stands in the mesh. -/
def meshed (ty : Nat) (m : Msg) (s : State) : State := { s with fab := { s.fab with mesh := [(ty, m)] } }
def dataOf (s : State) : Bytes := (s.cores[1]).pad.bytes ((s.cores[1]).pad.win 2 1) 224 32

theorem wit_lands : (meshed 0 msg own).lands 0 msg ∧ own.lands 0 msg ∧ stopCore msg.dstop = some 1 ∧ msg.sdev = own.device := by decide +kernel
/-- R236, R271: the last 32 bytes of the window; the sender gets an ACK. -/
theorem test_msg_write : ok (exec (.msgWrite { msg with data := natLe 32 5 } {} .clean) (meshed 0 { msg with data := natLe 32 5 } own)) (fun t =>
    dataOf t == natLe 32 5 && t.fab.mesh.map (fun x => (x.1, x.2.dstop, x.2.tag)) == [(4, coreStop 0, 77)]) = true := by decide +kernel
/-- R236: an INT32 sum wraps. -/
theorem test_msg_add : ok (exec (.msgAdd { msg with data := natLe 32 2 } {} .clean {}) own) (fun t => dataOf t == natLe 32 1) = true := by decide +kernel
theorem test_msg_read : ok (exec (.msgRead { msg with offset := 4 } {} {}) own) (fun t =>
    t.fab.mesh.map (fun x => (x.1, x.2.count, (x.2.data.drop 96).take 4)) == [(3, true, [0xFF, 0xFF, 0xFF, 0xFF])]) = true := by decide +kernel
/-- R242, R243: another generation is STALE. -/
theorem test_msg_stale : (ok (exec (.msgWrite { msg with gen := 6, data := natLe 32 5 } {} .clean) own) (fun t =>
      dataOf t == dataOf own && t.fab.mesh.map (fun x => (x.1, x.2.reason)) == [(5, 1)]) &&
    ok (exec (.msgRead { msg with gen := 6 } {} {}) own) (fun t => t.fab.mesh.map (fun x => (x.1, x.2.reason)) == [(5, 1)])) = true := by
  decide +kernel

/-- Core 1 waits for an answer of type `ty` under tag 77. -/
def req (ty : Nat) : Req := { stop := coreStop 1, tag := 77, type := ty, core := some 1, task := some job, pc := 16, since := 0 }
def asks (ty : Nat) : State := { run with fab := { run.fab with reqs := [req ty] } }
theorem wit_req : (asks 0).reqOf msg.dstop msg.tag = some (req 0) ∧ run.reqOf msg.dstop msg.tag = none := by decide +kernel
theorem test_answers : (ok (exec (.msgRdata { msg with count := true } {}) (asks 2)) (fun t => t.fab.reqs == []) &&
    ok (exec (.msgRdata msg {}) (asks 2)) (fun t => t.fab.reqs == [req 2]) && ok (exec (.msgAck msg {}) (asks 0)) (fun t => t.fab.reqs == []) &&
    ok (exec (.msgNack { msg with reason := 1 } {}) (asks 0)) (fun t => t.fab.reqs == [] && t.num (odCore 0x7100 1 7) == 1) &&
    ok (exec (.msgNack { msg with reason := 6 } {}) run) (fun t => t.num (od 0x18F0 7) == 1) &&
    ok (exec (.msgNack { msg with reason := 0 } {}) run) (fun t => t.num (od 0x18F0 4) == 1) &&
    ok (exec (.msgNack { msg with reason := 7 } {}) run) (fun t => t.num (od 0x18F0 4) == 1) &&
    ok (exec (.msgRdata msg {}) run) (fun t => t.num (od 0x18F0 7) == 1) && ok (exec (.msgAck msg {}) run) (fun t => t.num (od 0x18F0 7) == 1)) = true := by
  decide +kernel
/-- R243: TAG, ECC and a stale READ raise their exceptions in the sending task. -/
theorem test_nack_raises : [3, 4].all (fun r => ok (exec (.msgNack { msg with reason := r } {}) (asks 0)) (fun t => (t.seqOf 1).task == none)) = true ∧
    ok (exec (.msgNack { msg with reason := 1 } {}) (asks 2)) (fun t => (t.seqOf 1).task == none) = true := by decide +kernel
theorem test_credit : ok (exec (.msgCredit { msg with dstop := stopFE, sstop := coreStop 1, tag := 3 } {})
    { run with books := { run.books with credits := [{ core := 1, part := 2, win := 1, gen := 7, n := 2 }] } }) (fun t =>
      t.books.credits.map (·.n) == [5]) = true := by decide +kernel
/-- R274: a request ends when its limit has passed since it was made. -/
theorem test_timeout : let s := asks 0
    (ok (exec (.requestTimeout (Fin.ofNat 25 (coreStop 1)) 77 (s.reqLimit (req 0))) s) (fun t => t.fab.reqs == [] && t.fab.late == [(coreStop 1, 77)] &&
      t.num (od 0x18F0 5) == 1) && ok (exec (.requestTimeout (Fin.ofNat 25 (coreStop 1)) 77 (s.reqLimit (req 0) - 1)) s) (fun t => t.fab.reqs == [req 0])) = true := by
  decide +kernel

theorem test_report : ok (exec (.msgReport { msg with dstop := stopFE, offset := 1, data := natLe 32 9 } {} .clean) run) (fun t =>
    t.books.asm == [(coreStop 0, zeros 32 ++ natLe 32 9)] && t.fab.mesh.map (·.1) == [4]) = true := by decide +kernel
theorem test_a2a : (ok (exec (.msgA2aReq { msg with sdev := 3, tag := 9, data := natLe 32 9 } {}) run) (fun t => t.peony.blocks.map (fun b => (b.dev, b.answer)) == [(3, false)]) &&
    ok (exec (.msgA2aRow { msg with sdev := 3, tag := 9, data := natLe 32 9 } {}) run) (fun t => t.peony.blocks.map (fun b => (b.dev, b.answer)) == [(3, true)])) = true := by
  decide +kernel
/-- Group 15 of `grouped`, a message to its core 0 or 1. -/
def coll (c : Fin 16) : Msg := { dstop := coreStop c, sstop := coreStop 1, part := 2, offset := 15 * 65536, data := zeros 32 }
theorem test_tkm : (ok (exec (.msgTkm (coll 0) {}) (grouped 0 0)) (fun t => (t.cores[(0 : Fin 16)]).blocks.map (fun b => (b.src, b.down, b.group)) == [(1, false, 15)]) &&
    ok (exec (.msgTkmFinal (coll 0) {}) (grouped 0 0)) (fun t => (t.cores[(0 : Fin 16)]).blocks.map (·.down) == [true])) = true := by decide +kernel
/-- R283: of two members the first arrival waits, the second releases and the root's counter is zero again. -/
theorem test_bar_msgs : (ok (exec (.msgBarArrive (coll 0) {}) (grouped 0 0)) (fun t => t.kget 0 12 == 1 && t.kget 0 13 == 0) &&
    ok (exec (.msgBarArrive (coll 0) {}) ((grouped 0 0).kset 0 12 1)) (fun t => t.kget 0 12 == 0 && t.kget 0 13 == 1) &&
    ok (exec (.msgBarRelease (coll 1) {}) (grouped 0 0)) (fun t => t.kget 1 13 == 1)) = true := by decide +kernel
theorem test_reserved : (ok (exec (.msgReservedType msg {}) run) (fun t => t.num (od 0x18F0 4) == 1) &&
    ok (exec (.msgWrite msg { lost := true } .clean) run) (fun t => t.num (od 0x18F0 2) == 1) && ok (exec (.msgAck msg { lost := true }) run) (fun t => t.num (od 0x18F0 2) == 1) &&
    ok (exec (.msgCredit msg { lost := true }) run) (fun t => t.num (od 0x18F0 2) == 1) &&
    ok (exec (.msgBarRelease msg { lost := true }) run) (fun t => t.num (od 0x18F0 2) == 1)) = true := by decide +kernel

/-! Scrubbing, tests and repair (R237-R239, R248-R253). -/

/-- The scrubber of quad 23 of core 2 at its last line. -/
def scrub : State := State.reset.modPad 2 (fun k => { k with scrubPos := k.scrubPos.set 23 8191, marchQ := [{ quad := 5, bank := 3, row := 255 }, { quad := 6, bank := 0, row := 259 }] })
theorem wit_scrub : (∀ x ∈ lineWords (lineAddr 23 8191), (scrub.cores[(2 : Fin 16)]).pad.badWord x = false) ∧ (scrub.cores[(2 : Fin 16)]).pad.spareOf 5 3 = some 0 := by decide +kernel
theorem test_scrub : (ok (exec (.scrubStep 2 23 {} false) scrub) (fun t => (t.cores[(2 : Fin 16)]).pad.scrubPos[(23 : Fin 24)] == 0 && t.num (odCore 0x7100 2 4) == 1) &&
    ok (exec (.scrubStep 2 22 {} false) scrub) (fun t => (t.cores[(2 : Fin 16)]).pad.scrubPos[(22 : Fin 24)] == 1 && t.dict == scrub.dict) &&
    ok (exec (.scrubStep 2 23 { hits := [(3, false)] } false) scrub) (fun t => t.num (odCore 0x7100 2 1) == 1) &&
    ok (exec (.scrubStep 2 23 { hits := [(0, true)] } false) scrub) (fun t => t.num (odCore 0x7100 2 2) == 1 &&
      Sparse.get noBit (t.cores[(2 : Fin 16)]).pad.bad (lineAddr 23 8191 / 8))) = true := by decide +kernel
/-- R251, R252: row 259 is a spare row and is not mapped; row 255 is mapped to the lowest spare. -/
theorem test_march_row : (ok (exec (.preservingTestRow 2 5 3 255 true) scrub) (fun t => (t.cores[(2 : Fin 16)]).pad.repairs == [{ quad := 5, bank := 3, row := 255, spare := 0 }] &&
      t.num (odCore 0x7100 2 16) == 1) &&
    ok (exec (.preservingTestRow 2 6 0 259 false) scrub) (fun t => (t.cores[(2 : Fin 16)]).pad.marchQ.length == 1 && t.dict == scrub.dict)) = true := by decide +kernel
/-- R223: every byte reads zero after the start-up test, and no window is open. -/
theorem test_startup : ok (exec (.startupMarchTest []) (State.reset.modPad 2 (fun k => { k with mem := [(5, 1)], kctr := k.kctr.set 3 9 }))) (fun t =>
    (t.cores[(2 : Fin 16)]).pad.mem == []) = true ∧ exec (.startupMarchTest []) { run with frame := { run.frame with run := true } } = .next { run with frame := { run.frame with run := true } } := by
  repeat' first | refine And.intro ?_ ?_ | decide +kernel | rfl
theorem test_march_request : (ok (exec (.marchRequest who 1) vendor) (fun t => t.hap.lastStatus == 0 && (t.cores[(0 : Fin 16)]).pad.marchQ.take 1 == [{ quad := 0, bank := 0, row := 0 }]) &&
    ok (exec (.rowRepairClear who 1) vendor) (fun t => t.hap.lastStatus == 0 && t.dict.armed == [od 0x7000 4])) = true := by decide +kernel
/-! Ports and frames (R81, R261, R276-R280, R442-R450). -/

/-- A port's link is up. -/
def linked (ps : List (Fin 12)) (s : State) : State := ps.foldl (fun s p => s.modPort p (fun x => { x with link := true })) s
/-- A broadcast frame from 02:00:00:00:00:09. -/
def eth (etype : Nat) (body : Bytes) : Bytes := List.replicate 6 0xFF ++ [2, 0, 0, 0, 0, 9] ++ natBe 2 etype ++ body
/-- An IPv4 datagram from 10.0.0.2; the header checksum is not looked at. -/
def ip (proto dst : Nat) (body : Bytes) : Bytes :=
  [0x45, 0] ++ natBe 2 (20 + body.length) ++ zeros 4 ++ [64, BitVec.ofNat 8 proto] ++ zeros 2 ++ natBe 4 0x0A000002 ++ natBe 4 dst ++ body

/-- A message of 32 data bytes as a peer frame, byte by byte (R270, R277). -/
def peerBytes : Bytes := eth 0x88B5 ([1, 0, 1, 0, 0, 0, 0, 0] ++ zeros 8 ++
  natLe 16 (coreStop 1 * 2 ^ 103 + coreStop 0 * 2 ^ 82 + 2 * 2 ^ 79 + 1 * 2 ^ 76 + 7 * 2 ^ 68 + 7 * 2 ^ 43 + 77 * 2 ^ 27) ++ natLe 32 5)
theorem wit_peer : (linked [10] State.reset).dstOk 10 (peerBytes.take 6) = true ∧ (parseEth peerBytes).isSome = true ∧
    ((parseEth peerBytes).bind (fun e => State.reset.peerMsgs peerBytes.length e)) = some [(0, { msg with data := natLe 32 5 })] := by decide +kernel
theorem test_peer_receive : ok (exec (.peerFrameReceive 0 { bytes := peerBytes } .clean) (linked [10] State.reset)) (fun t =>
    t.fab.mesh == [(0, { msg with data := natLe 32 5 })] && t.num (od 0x18F0 0x0C) == 1) = true := by decide +kernel
/-- R280: the pause of a class carries its priority's bit and 65,535 quanta. -/
theorem test_pfc_repeat : ok (exec (.pfcPauseRepeat 1 2) { linked [11] State.reset with
    q := State.reset.q.set 18 { congested := true }, fab := { State.reset.fab with pfcSent := [(1, 2)] } }) (fun t =>
      t.net.sent.map (fun f => (f.port, f.etype, f.payload.length)) == [(11, 0x8808, 20)]) = true := by decide +kernel
theorem test_pfc_receive : (ok (exec (.pfcPauseReceive 1 7 65535 .clean) (linked [11] State.reset)) (fun t => t.fab.pfcHeld == [(1, 7)]) &&
    ok (exec (.pfcPauseReceive 1 7 0 .clean) (linked [11] State.reset)) (fun t => t.fab.pfcHeld == []) &&
    ok (exec (.pfcPauseExpire 1 7 .clean) { State.reset with fab := { State.reset.fab with pfcHeld := [(1, 7), (0, 7)] } }) (fun t => t.fab.pfcHeld == [(0, 7)])) = true := by
  decide +kernel
/-- Device 3 is reached through port 0. -/
def peered : State := { linked [10] (State.reset.setOct (od 0x1820 0) (zeros 24 ++ [2, 0, 0, 0, 0, 3] ++ [1, 0])) with fab := { State.reset.fab with assembly := [{ dev := 3, cls := 1, msgs := [(4, msg)] }] } }
theorem test_assembly : (peered.peerPort 3 = some 0) ∧ ok (exec (.peerAssemblyClose 3 1) peered) (fun t => t.fab.assembly == [] && t.num (od 0x18F0 0x0B) == 1) = true := by
  decide +kernel
theorem test_links : (ok (exec (.linkUp 3) ((State.reset.setNum (netOd 3 1) 1).modHead 3 (fun h => { h with state := .active }))) (fun t =>
      t.net.link 3 && t.num (netOd 3 2) == 1 && (t.head 3).state == .awaiting) &&
    ok (exec (.linkDown 3) { linked [3] State.reset with q := State.reset.q.set 3 { pkts := [{}] } }) (fun t => !t.net.link 3 && t.num (netOd 3 0x0B) == 1 &&
      (t.q[(3 : Fin 24)]).pkts == [])) = true := by decide +kernel
def inRun : State := { State.reset with frame := { State.reset.frame with run := true } }
theorem test_gates : (ok (exec (.gateListIntervalEnd 1 .clean) (inRun.setOct (od 0x1190 0x11) (zeros 16))) (fun t => (t.net.host[(1 : Fin 2)]).entry == 1) &&
    ok (exec (.gateListIntervalEnd 1 .clean) (((inRun.setOct (od 0x1190 0x11) (zeros 16))).modHost 1 (fun h => { h with entry := 1 }))) (fun t =>
      (t.net.host[(1 : Fin 2)]).entry == 1)) = true := by decide +kernel
/-- R449: the history of VLAN 5 is forgotten when the reset time has passed. -/
def seen : State := State.reset.modNet (fun n => { n with cb := [{ vlan := 5, last := 100 }, { vlan := 6, last := 100 }] })
theorem test_cb_reset : (ok (exec (.cbResetTimeout 5 (100 + 1000000 * State.reset.num (od 0x1000 8))) seen) (fun t => t.net.cb.map (·.vlan) == [6]) &&
    ok (exec (.cbResetTimeout 5 (99 + 1000000 * State.reset.num (od 0x1000 8))) seen) (fun t => t.net.cb.map (·.vlan) == [5, 6])) = true := by decide +kernel

/-- A UDP frame whose payload is one byte, and one that is no IPv4. -/
def udpFrame : Bytes := eth 0x0800 (ip 17 0x0A000001 (natBe 2 1 ++ natBe 2 2 ++ natBe 2 9 ++ zeros 2 ++ [0x55]))
theorem test_sens : sensPayload udpFrame = some [0x55] ∧
    (ok (exec (.sensFrameReceive 3 { bytes := udpFrame } 500) (linked [3] State.reset)) (fun t => (t.q[(3 : Fin 24)]).pkts == [{ data := udpFrame, stamp := 500 }] &&
      (t.head 3).lastPacket == 500 && t.num (netOd 3 6) == 1) &&
    ok (exec (.sensFrameReceive 3 { bytes := eth 0x1234 [] } 500) (linked [3] State.reset)) (fun t => (t.q[(3 : Fin 24)]).pkts == [] && t.num (netOd 3 7) == 1)) = true := by
  decide +kernel
/-- No stream filter of ports 3 and 9 matches: they are for a zero MAC. -/
theorem wit_qci : ∀ p ∈ [3, 9], ∀ f ∈ chunksOf 16 8 (State.reset.oct (netOd p 0x0F)), ∀ e ∈ parseEth udpFrame, qciMatches f e = false := by decide +kernel
def arp : Bytes := [0, 1, 8, 0, 6, 4, 0, 1, 2, 0, 0, 0, 0, 9] ++ natBe 4 0x0A000002 ++ zeros 6 ++ natBe 4 0xA9FE2C0A
theorem test_host_frame : ok (exec (.hostFrameReceive 1 { bytes := eth 0x0806 arp } .clean 500) (linked [9] State.reset)) (fun t =>
    (t.net.host[(1 : Fin 2)]).macs == [(0x0A000002, [2, 0, 0, 0, 0, 9])] && t.num (netOd 9 6) == 1) = true := by decide +kernel
/-- The supervisor runs. -/
def sup (s : State) : State := { s with power := { s.power with supervisor := true } }
/-- R444: the reply swaps the addresses and is an ARP reply to the requester. -/
theorem test_arp : ok (exec (.arpRequest 1 { bytes := eth 0x0806 arp }) (sup (linked [9] State.reset))) (fun t =>
    t.net.sent.map (fun f => (f.port, f.dst, f.payload.take 8, f.payload.drop 18)) ==
      [(9, [2, 0, 0, 0, 0, 9], [0, 1, 8, 0, 6, 4, 0, 2], [2, 0, 0, 0, 0, 9] ++ natBe 4 0x0A000002)]) = true := by decide +kernel
/-- An echo request with identifier 1 and one data byte pair; 0x0800 + 1 + 0x1234 has the complement 0xE5CA. -/
def echo : Bytes := [8, 0, 0xE5, 0xCA, 0, 1, 0x12, 0x34]
theorem test_icmp : sumOk echo = true ∧ ok (exec (.icmpEcho 0 { bytes := eth 0x0800 (ip 1 0xA9FE2C0A echo) }) (sup (linked [8] State.reset))) (fun t =>
    t.net.sent.map (fun f => (f.dstIp, f.payload.take 2, f.payload.drop 4)) == [(0x0A000002, [0, 0], echo.drop 4)]) = true := by decide +kernel

/-! Ingest, heads and poses (R45-R66, R78-R80, R501, R587). -/

/-- A packet waits in port 3's queue; its head's program is in slot 2. -/
def packet (ws : List Nat) : State :=
  { State.reset.setNum (portOd 0x3100 3 1) 2 with
    q := State.reset.q.set 3 { pkts := [{ data := udpFrame, stamp := 500 }, {}] }, ing := { State.reset.ing with programs := State.reset.ing.programs.set 2 ws } }
theorem test_parse_start : (ok (exec (.packetParseStart 3 15 .clean) (packet [7])) (fun t => (t.q[(3 : Fin 24)]).pkts.length == 1 &&
      t.engine 15 == { busy := true, port := 3, words := [7], payload := [0x55], stamp := 500, base := 500 } && t.num (portOd 0x3104 3 1) == 1) &&
    ok (exec (.packetParseStart 3 15 .clean) (packet [])) (fun t => !(t.engine 15).busy && t.num (portOd 0x3104 3 0x0E) == 1)) = true := by decide +kernel

/-- Frame 5 is in ingest from 1,000,000 to 101,000,000 ns; one pose sample at rest stands at the start and one at the end. -/
def moving : State := { State.reset with
  frame := { State.reset.frame with run := true, ing := { State.reset.frame.ing with n := 5, start := 1000000, end_ := 101000000 } }
  cells := { State.reset.cells with counter := 5, sweeps := [{ tag := 5 }] }
  ing := { State.reset.ing with samples := [{ time := 1000000 }, { time := 101000000 }] } }
/-- A point 10 m ahead. -/
def point (t : Int) : Point := { port := 3, raw := (655360, 0, 65536), time := t }
def fed (p : Point) : State := { moving with ing := { moving.ing with comp := [p] } }
/-- R63, R68: the last instant of the sweep is admitted and its offset is 99,999 µs; the boundary itself is FUTURE. -/
theorem test_compensate : (ok (exec .pointCompensate (fed (point 100999999))) (fun t => t.ing.comp == [] && t.frame.ing.pts.admitted == 1 &&
      t.ing.ins.map (fun p => (p.xyz, p.offset, p.grids)) == [((10240, 0, 1024), 99999, [0])]) &&
    ok (exec .pointCompensate (fed (point 101000000))) (fun t => t.frame.ing.pts.future == 1 && t.ing.ins == [])) = true := by decide +kernel

/-- Grid 0 with cells of 0.2 m and the sweep counter at 0x53, as in the worked example of the cells chapter. -/
def grid0 (p : Point) : State := { moving.setNum (od 0x4010 2) 2 with
  cells := { moving.cells with counter := 0x53, sweeps := [{ tag := 0x53 }] }, ing := { moving.ing with ins := [p] } }
def first : Point := { xyz := (38720, -5130, 1434), grids := [0] }
/-- R88, R91, R92: the worked example's key and offsets. -/
theorem test_cell_new : ok (exec .cellInsert (grid0 first)) (fun t => t.cells.livePlaces.map (fun x => (x.2.key, x.2.count, x.2.sdx, x.2.sdy, x.2.sdz, x.2.zmin)) ==
    [(0x0C07FFE600BD, 1, 16, 243, 0, 1434)] && t.frame.ing.pts.inserted == 1 && t.frame.ing.cells.created == 1) = true := by decide +kernel
/-- The first point's entry at the first way of its bucket, then the worked example's second point. -/
def joined : State :=
  let s := grid0 { first with xyz := (38752, -5130, 1500) }
  { s with cells := s.cells.put (8 * s.bucket 0x0C07FFE600BD) (some (first.entry 2 0x0C07FFE600BD 0x53)) }
theorem test_cell_join : ok (exec .cellInsert joined) (fun t => t.cells.livePlaces.map (fun x => (x.2.key, x.2.count, x.2.sdx, x.2.sdy, x.2.sdz, x.2.zmin, x.2.zmax)) ==
    [(0x0C07FFE600BD, 2, 72, 486, 83, 1434, 1500)] && t.frame.ing.cells.aggregated == 1) = true := by decide +kernel
/-- R106: the worked example's ageing by −2.5 m in x. -/
theorem test_aged : let e : Entry := { key := 0x0C07FFE600BD, tag := 0x53, count := 2, sdx := 72, sdy := 486, sdz := 83, zmin := 1434, zmax := 1500 }
    let a : Ageing := { active := true, identity := false, from_ := {}, to_ := { pos := [163840, 0, 0] } }
    ((a.aged 2 e).1.key, (a.aged 2 e).1.sdx, (a.aged 2 e).1.sdy, (a.aged 2 e).1.sdz, (a.aged 2 e).2.1) = (0x0C07FFE600B0, 328, 486, 82, 176) := by decide +kernel
theorem test_flush : ok (exec (.flush who 0 1) { vendor with q := State.reset.q.set 0 { pkts := [{}] } }) (fun t => (t.q[(0 : Fin 24)]).pkts == [] && t.hap.lastStatus == 0) = true := by
  decide +kernel

/-- Head 3 is ACTIVE and was last heard of at 1 ms. -/
def heard : State := State.reset.modHead 3 (fun h => { h with state := .active, lastPacket := 1000000, returning := true })
theorem test_head_loss : let limit := 1000000 + 1000000 * State.reset.num (od 0x3000 6)
    (ok (exec (.headLossTimeout 3 limit) heard) (fun t => (t.head 3).state == .lost && !(t.head 3).returning) &&
      ok (exec (.headLossTimeout 3 (limit - 1)) heard) (fun t => (t.head 3).state == .active)) = true := by decide +kernel
theorem test_cal : ok (exec (.calEvaluate 4 [{ port := 3, residual := 12, want := [100, -100, 0, 0, 0, 0] }]) { heard.modHead 3 (fun h => { h with steady := true }) with frame := { heard.frame with lastFrame := 4 } }) (fun t =>
    (t.head 3).nextCorr == stepCorr false [0, 0, 0, 0, 0, 0] [100, -100, 0, 0, 0, 0] && t.num (portOd 0x3101 3 8) == 12) = true := by decide +kernel
/-- R50: one step is at most 1 mm, 65 units. -/
theorem test_cal_step : stepCorr false [0, 0, 0, 0, 0, 0] [100, -100, 30, 0, 0, 0] = [65, -65, 30, 0, 0, 0] := by decide +kernel
theorem test_life_store : ok (exec (.lifeCounterStore 9) (State.reset.setNum (portOd 0x3102 0 2) 70)) (fun t =>
    Sparse.get Od.dflt t.dict.saved (portOd 0x3102 0 2) == .num 70) = true := by decide +kernel
/-- A host session that may send poses. -/
def host : State := { vendor with hap := { vendor.hap with sessions := [{ id := 5, isHost := true }] } }
def sample : Bytes := time80 3000000007 ++ zeros 2 ++ zeros 12 ++ natLe 4 1073741824 ++ zeros 36
theorem test_pose : sample.length = 64 ∧ ofTime80 (sample.take 10) = some 3000000007 ∧ quatNorm (parsePose sample).quat = 2 ^ 60 ∧
    ok (exec (.pose { session := 5, body := [1, 0, 0, 0] ++ sample, length := 68 }) host) (fun t => t.ing.samples.map (·.time) == [3000000007] && t.ing.epoch == 1) = true := by
  decide +kernel
/-! The cell table after the boundary, run-ahead and the builder (R73-R148). -/

/-- Sample 3 at the end of the frame has the vehicle 2.5 m further on; of three logged points of epoch 3 one was taken then, one at
the start and one after the sample; the fourth is of epoch 4. -/
def ahead : State :=
  let late : PoseSample := { time := 101000000, pos := [2560, 0, 0] }
  let l := fun (t : Int) (e : Nat) => ({ pt := { raw := (655360, 0, 65536), xyz := (10240, 0, 1024), time := t }, epoch := e } : LogPoint)
  let s := grid0 first
  { s with ing := { s.ing with samples := [{ time := 1000000 }, late], waitingSamples := [(3, late)],
                               log := [l 101000000 3, l 1000000 3, l 101000001 3, l 5 4] } }
/-- R73, R75: the points moved by 2.5 m are withdrawn; the one beyond the sample stays under epoch 4. -/
theorem test_resolve : ok (exec .runaheadResolve ahead) (fun t => t.ing.withdraw.map (fun p => (p.1.time, p.2.xyz)) ==
      [(101000000, (12800, 0, 1024)), (101000001, (12800, 0, 1024))] && t.ing.log.map (fun l => (l.epoch, l.pt.time)) == [(4, 101000001), (4, 5)] &&
    t.ing.waitingSamples == []) = true := by decide +kernel
/-- The second point, of an entry that holds it and the first, is withdrawn. -/
def back (n : Nat) : State :=
  let p2 : Point := { first with xyz := (38752, -5130, 1500), took := [0] }
  let e := (if n = 2 then first.entry 2 0x0C07FFE600BD 0x53 |>.addPoint (p2.entry 2 0x0C07FFE600BD 0x53) else p2.entry 2 0x0C07FFE600BD 0x53)
  let s := grid0 first
  { s with cells := s.cells.put (8 * s.bucket 0x0C07FFE600BD) (some e), ing := { s.ing with withdraw := [(p2, first)] } }
theorem test_withdraw : (ok (exec .runaheadWithdraw (back 2)) (fun t => t.ing.reinsert == [first] && t.ing.withdraw == [] &&
      t.cells.livePlaces.map (fun x => (x.2.count, x.2.sdx, x.2.sdy, x.2.sdz, x.2.zmax)) == [(1, 16, 243, 0, 1500)]) &&
    ok (exec .runaheadWithdraw (back 1)) (fun t => t.cells.livePlaces == [])) = true := by decide +kernel
theorem test_reinsert : (ok (exec .runaheadReinsert { grid0 first with ing := { (grid0 first).ing with reinsert := [first] } }) (fun t =>
      t.ing.reinsert == [] && t.cells.livePlaces.map (fun x => (x.2.key, x.2.count)) == [(0x0C07FFE600BD, 1)] && t.frame.ing.pts.inserted == 0) &&
    ok (exec .runaheadReinsert { State.reset with ing := { State.reset.ing with reinsert := [{ xyz := (2000000, 0, 0) }] } }) (fun t =>
      t.ing.reinsert == [] && t.frame.ing.cells.outside == 1)) = true := by decide +kernel
/-- The entry of the worked example, of the sweep before, waits to be aged by −2.5 m. -/
def agedOf (phase : Nat) (sx : Int) : State :=
  let s := (grid0 first).setNum (od 0x4010 3) sx
  { s with cells := { (s.cells.put (8 * s.bucket 0x0C07FFE600BD) (some { key := 0x0C07FFE600BD, tag := 0x52, phase := phase, count := 2, sdx := 72, sdy := 486, sdz := 83, zmin := 1434, zmax := 1500 })) with
    sweeps := [{ tag := 0x52, state := .held }, { tag := 0x53 }]
    ageing := { active := true, todo := [8 * s.bucket 0x0C07FFE600BD], phase := 1, identity := false, to_ := { pos := [163840, 0, 0] } } } }
theorem test_age : (ok (exec .ageEntry (agedOf 0 (-500))) (fun t => t.cells.ageing.todo == [] && t.frame.ing.cells.aged == 1 &&
      t.cells.livePlaces.map (fun x => (x.2.key, x.2.sdx, x.2.phase)) == [(0x0C07FFE600B0, 328, 1)]) &&
    ok (exec .ageEntry (agedOf 0 177)) (fun t => t.cells.livePlaces == [] && t.frame.ing.cells.agedOut == 1) &&
    ok (exec .ageEntry (agedOf 1 (-500))) (fun t => t.cells.ageing.todo == [] && t.cells.entries == (agedOf 1 (-500)).cells.entries)) = true := by
  decide +kernel
/-- The snapshot of frame 9 is under way; the builder works for frame n and has not scanned it yet. -/
def snapped (n : Nat) : State := { State.reset with
  cells := { State.reset.cells with snapBusy := true, snapFrame := 9, snapLen := 64 }, books := { frame := n, scanned := false } }
theorem test_snap : (ok (exec (.snapRequest who 1) (vendor.setNum (od 0x4000 6) 1)) (fun t => t.cells.snapArmed && t.hap.lastStatus == 0) &&
    ok (exec (.snapRequest who 1) (vendor.setNum (od 0x4000 6) 0)) (fun t => !t.cells.snapArmed && t.hap.lastStatus == 6) &&
    ok (exec .snapshotComplete (snapped 4)) (fun t =>
      !t.cells.snapBusy && t.num (od 0x4F10 2) == 9 && t.cells.snapServed == 64) && (snapped 4).snapOver && !(snapped 9).snapOver) = true := by decide +kernel

/-- The builder in frame 5: CELLS set 1 of two neighbours, decided set 2 below it, rule book 7 over set 1 with its own cell and the
next in x; the first cell has the entry of the worked example. -/
def built : State :=
  let s := joined
  { s with
    frame := { s.frame with comp := { s.frame.comp with n := 5 } }
    books := { frame := 5, credits := [{ core := 0, part := 2, win := 1, gen := 4, n := 1 }]
               sets := [{ set := 1, coreA := 1, expPart := 2, expWin := 1, maxRows := 100 },
                 { set := 2, source := 2, parent := 1, decided := true, exportKeys := true, sx := 1, coreA := 1, expPart := 2, expWin := 1, maxRows := 100, mode := 1 }]
               rbs := [{ rb := 7, inp := 1, out := 1, win := 3, part := 2, offs := [[0, 0, 0], [1, 0, 0]] }]
               rows := [{ set := 1, rows := [{ x := 189, idx := 0, place := 8 * s.bucket 0x0C07FFE600BD }, { x := 190, idx := 1 }] }] } }
/-- R112: the row's key, flags, count, means of the offsets, heights and the row's place in the export window. -/
theorem test_cell_row : ok (exec (.cellRowExport 1 ) built) (fun t => t.books.exported == 1 &&
    t.fab.mesh.map (fun x => (x.1, x.2.dstop, x.2.part, x.2.win, x.2.offset, x.2.count, x.2.data.take 18)) ==
      [(0, coreStop 0, 2, 1, 0, false, natLe 6 0x0C07FFE600BD ++ natLe 1 0 ++ natLe 1 (128 + 16) ++ natLe 2 1 ++ [16, 243, 0, 0] ++ natLe 2 1434 ++ natLe 2 1434)]) = true := by
  decide +kernel
theorem test_key_record : ok (exec (.keyRecordExport 2) { built with books := { built.books with rows := built.books.rows ++ [{ set := 2, rows := [{ x := 9 }, { x := 94, y := -1, z := 3, idx := 5 }], sent := 1 }] } }) (fun t =>
    t.fab.mesh.map (fun x => (x.2.offset, x.2.data)) ==
      [(1, zeros 8 ++ natLe 2 94 ++ natLe 2 0xFFFF ++ natLe 2 3 ++ natLe 1 2 ++ natLe 1 0 ++ zeros 16)]) = true := by decide +kernel
theorem test_rulebook : (built.books.rbs.find? (fun r => built.books.ready r 0)).map (·.rb) = some 7 ∧ ok (exec (.rulebookBuild 7 0) built) (fun t =>
    t.books.built == [(7, 0)] && t.books.entries.map (fun x => x.2.2.map (fun e => (e.j, e.out, e.inp))) == [[(0, 0, 0), (1, 0, 1), (0, 1, 1)]] &&
      t.books.queue.map (fun g => (g.j, g.seq, g.total, g.flags)) == [(0, 0, 0, 0), (1, 1, 2, 1)]) = true := by decide +kernel
/-- R131-R133: the body's entry, then the header, which counts; one credit less. -/
theorem test_segment_write : ok (exec (.segmentWrite 7 0 0) { built with books := { built.books with
      queue := [{ rb := 7, owner := 0, j := 1, flags := 1, total := 1, rows := 2, entries := [{ j := 1, out := 0, inp := 1 }] }]
      credits := [{ core := 0, part := 2, win := 3, gen := 4, n := 1 }] } }) (fun t => t.books.queue == [] && t.books.credits.map (fun c => (c.n, c.held)) == [(0, [0])] &&
    t.fab.mesh.map (fun x => (x.2.offset, x.2.gen, x.2.count, x.2.data.take 8)) ==
      [(1, 4, false, natLe 3 1 ++ natLe 3 0 ++ [1, 0]), (0, 4, true, [7, 1, 0, 1, 1, 0, 0, 0])]) = true := by decide +kernel
theorem test_first_report : ok (exec (.firstResolutionReport 99) { built with books := { frame := 5 } }) (fun t => t.books.firstRes == 99 && t.frame.comp.reported) = true := by
  decide +kernel
theorem test_speculative : ok (exec (.speculativeBuild 2 0 10) (built.setNum (od 0x5000 1) 1)) (fun t =>
      t.books.epochs.map (fun e => (e.num, e.set, e.cells.map (fun c => (c.x, c.idx)))) == [(1, 2, [(94, 0), (95, 1)])] && t.books.lastEpoch == 1) = true ∧
    ok (exec (.epochSquash 3) { built with books := { built.books with epochs := [{ num := 3, frame := 4 }] } }) (fun t => t.books.epochs == [] && t.books.squashes == 1) = true := by
  decide +kernel
/-! Peony (R311-R342). -/

/-- Table 2 lies in DRAM, six rows (four where it is REPLICATED) of 16 FP32 elements for core 1 with pool w1, gradients in w2 and ring w3; its version in slot 0 is
LIVE from frame 1. Row 5 is stored as FP16 ones at byte 64 of the row store. -/
def desc (place rows : Nat) : Bytes :=
  [2, 0, BitVec.ofNat 8 place, 1] ++ natLe 2 16 ++ [2, 15] ++ natLe 2 2 ++ [49, 2, 0, 1] ++ zeros 2 ++ natLe 4 rows ++ zeros 20 ++ natLe 4 4 ++ zeros 20
def tab (place : Nat) (f : PTable → PTable) : State :=
  let s := (((vendor.modPad 1 (fun k => ((k.setWin 2 1 { isOpen := true, f := 8, b := 2, size := 256, attr := 14 }).setWin 2 2
    { isOpen := true, f := 9, b := 3, size := 64, attr := 14 }).setWin 2 3 { isOpen := true, f := 10, b := 4, size := 64, attr := 14 })).setOct (od 0x8120 1) (desc place (if place = 0 then 4 else 6))).setNum
      (od 0x7812 1) 32).setNum (od 0x7812 2) 1
  let s := s.setNum (od 0x7800 1) 255
  let s := s.modExt (fun e => { e with dram := Sparse.putN zeroByte (Sparse.putN zeroByte [] (2 ^ 31 + 40) (natLe 8 2)) (2 ^ 31 + 4096 + 64) ((List.replicate 16 [0, 0x3C]).flatten) })
  let s := { s with peony := { s.peony with credits := [1, 2, 3].map (fun w => { core := 1, part := 2, win := w, n := 1 }) } }
  s.modTable 2 (fun x => f { x with state := 1, vers := x.vers.set 0 { state := 2, frame := 1, bases := [0, 4096, 8192, 12288] } })
/-- The index window holds these bytes. -/
def idxs (b : Bytes) (s : State) : State := s.modPad 1 (fun k => k.write (k.win 2 1) 0 b)
def req1 (op count : Nat) : PReq := { id := 9, core := 1, part := 2, op := op, count := count, iwin := 1, rwin := 1, frame := 5 }

/-- A LOOKUP entry in the ring. -/
def entry : Bytes := [1, 2, 0, 0] ++ natLe 4 5 ++ natLe 4 1 ++ [1, 1] ++ zeros 14 ++ [0, 128, 0, 0]
def ringed : State := (tab 1 id).modPad 1 (fun k => k.write (k.win 2 3) 0 entry)
theorem test_ring : ok (exec (.ringPoll 1 2) ringed) (fun t => (t.table 2).reqs.map (fun q => (q.op, q.frame, q.ver, q.done)) == [(1, 5, 0, false)] &&
    (t.ring 1 2 3 0).pos == 1 && (t.ring 1 2 3 0).seq == 1 && ((t.cores[(1 : Fin 16)]).pad.bytes ((t.cores[(1 : Fin 16)]).pad.win 2 3) 28 4) == zeros 4) = true := by
  decide +kernel
/-- Row 5 gets the first pool slot, row 200 does not exist. -/
theorem test_lookup : (ok (exec (.peonyLookup 2) (idxs (natLe 4 5 ++ natLe 4 200) (tab 1 (fun x => { x with reqs := [req1 1 2] })))) (fun t =>
      (t.table 2).reqs.map (fun q => (q.map, q.dropped, q.code, q.done)) == [([0, 0xFFFFFFFF], 1, 1, true)] && (t.table 2).slots.map (·.idx) == [5] &&
      (t.table 2).fills.map (fun f => (f.pos, f.row, f.idx)) == [(0, 0, 5)]) &&
    ok (exec (.peonyLookup 2) (idxs (natLe 4 6) (tab 1 (fun x => { x with reqs := [req1 1 1] })))) (fun t => t.peony.drops == 1 && t.num (od 0x8120 5) == 1)) = true := by
  decide +kernel
def ones : Bytes := (List.replicate 16 [0, 0, 0x80, 0x3F]).flatten
theorem test_fill : ok (exec (.peonyFill 2 .clean) (tab 1 (fun x => { x with fills := [{ req := 9, pos := 0, row := 3, ver := 0, idx := 5 }] }))) (fun t =>
    (t.table 2).fills == [] && t.peony.fills == 1 && t.fab.mesh.map (fun x => (x.1, x.2.dstop, x.2.win, x.2.offset, x.2.data)) == [(0, coreStop 1, 1, 6, ones)]) = true := by
  decide +kernel
/-- Slot 0 holds row 5, its gradients in slot 3 of the even parity. -/
def held (op : Nat) : State := idxs (zeros 32 ++ ones) (tab 1 (fun x => { x with
  reqs := [{ id := 4, core := 1, part := 2, op := 1, seq := 7, done := true, closed := true }, { req1 op 1 with ref := 7 }]
  slots := [{ idx := 5, dev := State.reset.device, pins := [4], acc0 := 3 }, { row := 1, idx := 4 }], accs := [{ parity := 0, idx := 5 }, { parity := 1, idx := 5, slot := 1 }] }))
theorem test_update : ok (exec (.peonyUpdate 2) (held 2)) (fun t => t.fab.mesh.map (fun x => (x.1, x.2.afmt, x.2.win, x.2.offset, x.2.data)) == [(1, 1, 2, 12, ones)] &&
    (t.table 2).reqs.map (fun q => (q.done, q.code)) == [(true, 0), (true, 0)]) = true := by decide +kernel
theorem test_write : ok (exec (.peonyWrite 2) (held 3)) (fun t => t.fab.mesh.map (fun x => (x.1, x.2.win, x.2.offset)) == [(0, 1, 0)]) = true := by decide +kernel
theorem test_release : ok (exec (.peonyRelease 2) (held 4)) (fun t => (t.table 2).slots.map (·.pins) == [[], []] && (t.table 2).reqs.length == 1) = true := by
  decide +kernel
/-- The unpinned slot goes, the even parity's assignment too; optimiser 0 writes no row. -/
theorem test_apply : ok (exec (.peonyApply 2) ((held 5).setOct (od 0x8120 1) ((desc 1 6).take 13 ++ [3] ++ (desc 1 6).drop 14))) (fun t =>
    (t.table 2).accs.map (·.parity) == [1] && (t.table 2).slots.map (·.idx) == [5]) = true := by decide +kernel
theorem test_status : ok (exec (.peonyStatusRecord 2) (tab 1 (fun x => { x with reqs := [{ req1 2 1 with seq := 6, done := true, dropped := 1, code := 1 }] }))) (fun t =>
    (t.table 2).reqs == [] && t.fab.mesh.map (fun x => (x.2.count, x.2.data)) == [(true, [6, 1, 0, 0, 0, 1, 1, 0].flatMap (natLe 4))]) = true := by decide +kernel
theorem test_exchange : ok (exec (.exchangeBatch 2 77) (tab 2 (fun x => { x with reqs := [{ req1 1 0 with step := 77 }] }))) (fun t =>
    (t.table 2).batches.map (·.step) == [77]) = true := by decide +kernel

/-- R321, R335: from slot 0 into slot 1; where the new version's arrays lie is free, so a copy in DRAM is not run here. -/
theorem wit_build : ((tab 1 id).at who.t).peonyCheck 2 0x14 = 0 ∧ ((tab 1 id).at who.t).peonyCheck 2 0x22 = 0 ∧ (tab 1 id |>.table 2).slotIn 2 = some 0 ∧
    ((tab 1 id).at who.t).accepts who 0x8120 3 (.num 0x14) := by decide +kernel
theorem test_build : (ok (exec (.build who 2 0x14) (tab 0 (fun x => { x with vers := x.vers.set 0 { state := 2, image := [1, 2] } }))) (fun t => ((t.table 2).ver 1).loading && ((t.table 2).ver 1).image == [1, 2]) &&
    ok (exec (.build who 2 0x22) (tab 1 id)) (fun t => t.hap.lastStatus == 5) &&
    ok (exec (.seal who 2 0x32) (tab 1 (fun x => { x with vers := x.vers.set 2 { state := 3 } }))) (fun t => t.hap.lastStatus == 0 && (t.table 2).ver 2 == { state := 3, sealed := true })) = true := by
  decide +kernel
/-- Slot 1 is PREPARED; frame 5 is in ingest. -/
def next (f : PTable → PTable) : State :=
  let s := tab 1 (fun x => f { x with vers := x.vers.set 1 { state := 1 } })
  { s with frame := { s.frame with run := true, ing := { s.frame.ing with n := 5 }, comp := { s.frame.comp with n := 5 } } }
theorem test_switch : (ok (exec (.switch who 2 1) { next id with frame := State.reset.frame }) (fun t => t.hap.lastStatus == 0 && (t.table 2).switchTo == some 1) &&
    ok (exec (.versionSwitch 2) (next (fun x => { x with switchTo := some 1 }))) (fun t => (t.table 2).switchTo == none &&
      (t.table 2).vers.toList.map (fun v => (v.state, v.frame)) == [(4, 4), (2, 5), (0, 0)]) &&
    ok (exec (.versionRetire 2) (next (fun x => { x with vers := x.vers.set 0 { state := 4, frame := 4 }, slots := [{ ver := 0 }, { ver := 1, row := 1 }] }))) (fun t =>
      (t.table 2).ver 0 == {} && (t.table 2).slots.map (·.ver) == [1]) &&
    ok (exec (.replicaPrepared 2 1) (next (fun x => { x with vers := x.vers.set 1 { loading := true } }))) (fun t => (t.table 2).ver 1 == { state := 1 })) = true := by decide +kernel
theorem test_validation : ok (exec (.validation who 2 (zeros 128)) (tab 1 id)) (fun t => t.hap.lastStatus == 6) = true := by decide +kernel

/-! External memory (R344-R359). -/

def dram (usable : Nat) : State := (State.reset.setNum (od 0x7800 1) usable).modExt (fun e => { e with dram := Sparse.putN zeroByte [] 0x12345A3C (natLe 8 0x1122334455667788) })
/-- R345: the worked example, and the same address once controller 3 has failed. -/
theorem test_place : (dram 255).ctrlOf 0x12345A40 = 2 ∧ (dram 255).dramPlace 0x12345A40 = ((2 * 4 + 1) * 16 + 14, 332, 3) ∧
    (dram 0xF7).ctrlOf 0x12345A40 = 6 ∧ (dram 0xF7).dramPlace 0x12345A40 = ((6 * 4 + 1) * 16 + 6, 380, 27) := by decide +kernel
theorem test_dram_read : (dram 255).dramDead 0x12345A3C 8 = none ∧ (ok (exec (.dramRead 0x12345A3C 8 .clean 5) (dram 255)) (fun t => t.ext.lastRead == some (natLe 8 0x1122334455667788)) &&
    ok (exec (.dramRead 0x12345A3C 8 .corrected 5) (dram 255)) (fun t => t.num (od 0x7882 1) == 1 && t.ext.lastRead.isSome) &&
    ok (exec (.dramRead 0x12345A3C 8 .uncorrectable 5) (dram 255)) (fun t => t.num (od 0x7882 2) == 1 && t.num (od 0x7882 3) == 0x12345A3C && t.ext.lastRead == none) &&
    ok (exec (.dramRead 0x12345A3C 8 .clean 5) ((dram 255).modExt (fun e => { e with failed := 4 }))) (fun t => t.ext.lastRead == none)) = true := by decide +kernel
/-- A write across the line of controller 1's successor: only bytes of working controllers land. -/
theorem test_dram_write : ok (exec (.dramWrite 0x1FE [1, 2, 3, 4]) ((dram 255).modExt (fun e => { e with failed := 4 }))) (fun t =>
    [0x1FD, 0x1FE, 0x1FF, 0x200, 0x201].map (Mem.rd t.ext.dram) == [0, 1, 2, 0, 0]) = true := by decide +kernel
theorem test_dram_rest : (ok (exec (.dramRefresh 2 1 14) ((dram 255).touchRow 0x12345A40)) (fun t => t.ext.rows == []) &&
    ok (exec (.patrolScrub 2 9 .corrected 5) (dram 255)) (fun t => Sparse.get (fun _ => 0) t.ext.scrubbed 2 == 10 && t.num (od 0x7882 1) == 1) &&
    ok (exec (.dramControllerFail 7) { dram 255 with frame := { State.reset.frame with run := true } }) (fun t => t.ext.failed == 128 && t.num (od 0x7800 3) == 128 && t.num (od 0x7887 4) == 1 && t.log.srv && t.safety.ctrlFailed) &&
    ok (exec (.failureClear who 1) vendor) (fun t => t.hap.lastStatus == 0 && t.dict.armed == [od 0x7800 4])) = true := by decide +kernel
/-- R355, R356: device 1 serves where device 0 cannot; device 0 gives no answer and fails. -/
theorem test_hyper : (ok (exec (.hyperramWrite 14680060 [1, 2, 3, 4] true true) State.reset) (fun t =>
      ok (exec (.hyperramRead 14680060 4 .uncorrectable .clean 5) t) (fun u => u.ext.lastRead == some [1, 2, 3, 4] && u.num (od 0x7890 3) == 1) &&
      ok (exec (.hyperramRead 14680060 4 .clean .uncorrectable 5) t) (fun u => u.ext.lastRead == some [1, 2, 3, 4]) &&
      ok (exec (.hyperramRead 14680060 4 .uncorrectable .uncorrectable 5) t) (fun u => u.ext.lastRead == none)) &&
    ok (exec (.hyperramWrite 0 [7] false true) State.reset) (fun t => t.hyperDead 0 && t.log.srv && Mem.rd t.ext.hyper 0 == 7)) = true := by decide +kernel
theorem test_log_flush : (ok (exec (.eventLogFlush false) { State.reset with log := { State.reset.log with staged := [default] } }) (fun t =>
      t.log.ring.length == 1 && t.num (od 0x7900 4) == 1) &&
    ok (exec (.eventLogFlush true) { State.reset with log := { State.reset.log with staged := [default] } }) (fun t => t.log.ring == [default] && t.log.staged == [])) = true := by decide +kernel
theorem test_wipe_complete : (ok (exec .wipeComplete { State.reset with sec := { State.reset.sec with wiping := true, wipeTarget := some 3 } }) (fun t =>
      !t.sec.wiping && t.sec.base == 3 && t.sec.wipeTarget == none) &&
    ok (exec .wipeComplete { State.reset with sec := { State.reset.sec with wiping := true, held := true, effective := State.reset.lifeWanted } }) (fun t => !t.sec.wiping && !t.sec.held)) = true := by decide +kernel
/-! The scheduler (R363-R387) and frames (R26-R36, R460-R472). -/

/-- Task 7 of partition 2 on core 1, READY on counter 5 at 3, budget 10; the first 9,990 slots are partition 2's, then HOLLYHOCK's,
lent to it. -/
def plan (above : Bool) (st : InstState) : State :=
  let a : Schedule := { parts := [{ part := 2, present := true, mask := 2, quad := 2, granule := 9, slots := 1, counters := 32 }]
                        tasks := [{ task := 7, part := 2, mask := 2, crit := 1, ready := 5, threshold := 3, arg := 6, due := 1800, budget := 10, overrunEnd := above }]
                        plans := [{ count := 2 }], entries := [{ len := 9990, mask := 65535, owner := 2 }, { start := 9990, len := 10, mask := 65535, owner := 8, lender := 2 }] }
  { State.reset.modSched (fun x => { x with active := some a, running_ := true, rotation := 1, insts := [{ task := 7, lcore := 1, state := st }]
                                            slotOf := x.slotOf.set 1 0 }) with
    frame := { State.reset.frame with comp := { State.reset.frame.comp with n := 9, end_ := 1000 }, launch := 18000000 } }
theorem test_instance_release : (ok (exec (.instanceRelease 7 1 1000) (plan false .idle)) (fun t => t.sched.insts.map (·.state) == [.waiting]) &&
    ok (exec (.instanceRelease 7 1 999) (plan false .idle)) (fun t => t.sched.insts.map (·.state) == [.idle]) &&
    ok (exec (.instanceRelease 7 1 1000) ((plan false .idle).kset 1 5 3)) (fun t => t.sched.insts.map (·.state) == [.running] &&
      (t.seqOf 1).task == some { task := 7, part := 2, frame := 9, arg := 6, lcore := 1 } && t.rs 1 1 == 9 && t.rs 1 2 == 6 && t.rs 1 3 == 1 + 256 * 2 + 65536 * 7)) = true := by
  decide +kernel
theorem wit_dispatch : (plan false .ready).sched.choice 1 = some { task := 7, lcore := 1, state := .ready } ∧ (plan false .ready).sched.runningOn 1 = none ∧
    ((plan false .ready).openNamed 1 ((plan false .ready).sched.descOf { task := 7, lcore := 1 })).isSome = true := by decide +kernel
/-- The test entry gives its core to Hollyhock, or, with a critical task, is put off. -/
def must (n : Nat) : State := ((plan false .waiting).setNum (od 0x9F00 4) n).modSched (fun x => { x with
  active := x.active.map (fun a => { a with tasks := a.tasks.map (fun t => { t with crit := 7 }) }), insts := [{ task := 7, lcore := 1, state := .ready }] })
theorem test_entries : (ok (exec (.slotEntryBegin 1 0) (plan false .waiting)) (fun t => t.sched.slotOf[(1 : Fin 16)] == 0) &&
    ok (exec (.hollyhockEntry 1 9990) (plan false .waiting)) (fun t => t.sched.testing == [1] && t.sched.claimed == [1] && t.sched.slotOf[(1 : Fin 16)] == 9990) &&
    ok (exec (.hollyhockEntry 1 9990) (must 2)) (fun t => t.sched.testing == [] && t.num (od 0x9F00 4) == 3 && t.num (od 0x9F00 6) == 1)) = true ∧
    (plan false .waiting).sched.begins 1 9990 = some { start := 9990, len := 10, mask := 65535, owner := 8, lender := 2 } := by decide +kernel
theorem test_overrun : (ok (exec (.budgetOverrun 7 1 2000) (plan false .running)) (fun t => t.num (od 0x9107 2) == 1 && t.sched.insts.map (·.overran) == [true]) &&
    ok (exec (.budgetOverrun 7 1 2000) (plan true .running)) (fun t => t.num (od 0x9107 2) == 1 && t.sched.insts.map (·.state) == [.ended]) &&
    ok (exec (.preemptLimitExpire 1) ((plan false .running).modSched (fun x => { x with preemptAt := x.preemptAt.set 1 (some 0) }))) (fun t =>
      t.num (od 0x9F00 9) == 1 && t.sched.insts.map (·.state) == [.ended])) = true := by decide +kernel
theorem test_throttle : (ok (exec (.throttleUpdate 50) ({ State.reset.modSched (fun x => { x with throttle := 12 }) with power := { State.reset.power with overNow := true } })) (fun t =>
      t.sched.throttle == 12 && t.num (od 0x9000 8) == 12 && !t.power.overNow) &&
    ok (exec (.throttleUpdate 10000050) (State.reset.modSched (fun x => { x with throttle := 4, underSince := some 50 }))) (fun t => t.sched.throttle == 3) &&
    ok (exec (.throttleUpdate 10000049) (State.reset.modSched (fun x => { x with throttle := 4, underSince := some 50 }))) (fun t => t.sched.throttle == 4)) = true := by decide +kernel
/-- In RUN with core 1's turn and test. -/
def tested : State := { (plan false .waiting).modSched (fun x => { x with testing := [1] }) with frame := { (plan false .waiting).frame with run := true } }
/-- R184, R435: a column of a tile takes its spare, a cell whichever spare is unused, the row first; a comparator that reports no mismatch fails the test. -/
theorem test_golden : (ok (exec (.goldenTestComplete 1 true [] none) tested) (fun t => t.sched.testing == [] && t.num (od 0xAF00 9) == 1 && t.sched.rotation == 2 && (t.cores[(1 : Fin 16)]).arr.banks == []) &&
    ok (exec (.goldenTestComplete 1 false [] none) tested) (fun t => t.flashNum (odCore 0x6100 1 1) == 2) &&
    ok (exec (.goldenTestComplete 1 false [] (some (.line 3 true 5))) (plan false .waiting)) (fun t => t.flashNum (odCore 0x6101 1 4) == 0x7F05 && t.num (od 0xAF00 0x0B) == 1 && t.flashNum (odCore 0x6100 1 1) == 0) &&
    ok (exec (.goldenTestComplete 1 false [] (some (.cell 3 7 9))) (plan false .waiting)) (fun t => t.flashNum (odCore 0x6101 1 4) == 0x473F) &&
    ok (exec (.goldenTestComplete 1 false [] (some (.bankRow 3 1 9))) (plan false .waiting)) (fun t => (t.cores[(1 : Fin 16)]).pad.dueRows == [{ quad := 3, bank := 1, row := 9 }]) &&
    ok (exec (.goldenTestComplete 1 true [(0, 32, true)] none) (plan false .waiting)) (fun t => t.flashNum (odCore 0x6100 1 1) == 2)) = true := by decide +kernel
theorem test_schedule : ok (exec (.schedule who [1, 2, 3]) vendor) (fun t => t.hap.lastStatus == 6 && t.sched.accepted == none) = true := by decide +kernel
theorem test_activate : ok (exec (.scheduleActivate 1000) (State.reset.modSched (fun x => { x with accepted := some { ident := 5, period := 50000 } }))) (fun t =>
    (t.sched.active.map (·.ident)) == some 5 && t.sched.accepted == none && t.num (od 0x9000 1) == 5 && t.num (od 0x9000 4) == 50000) = true := by decide +kernel

/-- RUN with frame 9 computed up to 1 ms and frame 10 in ingest until 101 ms. -/
def frames : State := { plan false .done with frame := {
  run := true, period := 100000000, launch := 18000000, now := 0, lastFrame := 9
  comp := { n := 9, end_ := 1000000 }, ing := { n := 10, start := 1000000, end_ := 101000000 } } }
theorem test_boundary : (ok (exec (.frameBoundary 101000000) frames) (fun t => t.frame.comp.n == 10 && t.frame.ing.n == 11 && t.frame.ing.start == 101000000 &&
      t.frame.ing.end_ == 201000000 && t.sched.insts.map (·.state) == [.idle] && t.frame.lastFrame == 10) &&
    ok (exec (.frameBoundary 100999999) frames) (fun t => t.frame.comp.n == 9)) = true := by decide +kernel
/-- Ready for RUN, on the grid of 100 ms. -/
def booted : State := { (State.reset.modNet (fun n => { n with time := { n.time with permitted := true } })) with power := { State.reset.power with mainReady := true } }
theorem test_run_entry : ok (exec (.frameBoundary 300000000) booted) (fun t => t.frame.run && t.frame.ing.n == 1 && t.frame.ing.start == 300000000 && bitAt (t.num (od 0xA000 3)) 2) = true ∧
    booted.frameTimes.mayEnter 300000010 = false := by decide +kernel
theorem test_deadline : (ok (exec (.frameDeadline 19000000) { frames with sched := (plan false .waiting).sched }) (fun t => t.frame.comp.dropped && t.sched.insts.map (·.state) == [.dropped] &&
      t.frame.comp.status == 3 && t.frame.comp.marigoldPrimary && t.num (od 0x9F00 2) == 1 && t.safety.verdict.isSome) &&
    ok (exec (.frameDeadline 18999999) frames) (fun t => !t.frame.comp.dropped) &&
    ok (exec (.frameDeadline 19000000) frames) (fun t => t.frame.comp.dropped && t.num (od 0x9F00 2) == 0)) = true := by decide +kernel
/-- The body stands in w1 of partition 2 of core 1: 32 bytes, nothing in it, READY. -/
def bodyBytes : Bytes := natLe 4 9 ++ [1, 0] ++ zeros 10 ++ natLe 4 32 ++ natLe 4 (crc32c []) ++ zeros 8
def bodied (b : Bytes) : State := ((frames.setNum (od 0x1A00 1) (1 + 2 * 16 + 256)).setNum (od 0x1A00 2) 1000).modPad 1 (fun k =>
  let k := k.setWin 2 1 { isOpen := true, f := 8, b := 2, size := 256, attr := 14 }
  k.write (k.win 2 1) 0 b)
theorem test_body : bodyOk 9 bodyBytes = true ∧ (ok (exec (.resultBodyPoll {} 18000000) (bodied bodyBytes)) (fun t => t.net.results.body == some bodyBytes) &&
    ok (exec (.resultBodyPoll {} 18000000) (bodied (bodyBytes.take 20 ++ [1, 2, 3, 4] ++ zeros 8))) (fun t => t.net.results.bad && t.frame.comp.status == 3 && t.num (od 0x1A00 7) == 1) &&
    ok (exec (.resultBodyPoll {} 18000000) (bodied (zeros 32))) (fun t => t.net.results.body == none && !t.net.results.bad) &&
    ok (exec (.resultBodyPoll {} 17999999) (bodied bodyBytes)) (fun t => t.net.results.body == none)) = true := by decide +kernel
theorem test_gates_close : (ok (exec (.resultGateClose 18985000) ((linked [8] frames).setNum (od 0x1000 3) 7)) (fun t => (t.net.host[(0 : Fin 2)]).window && !(t.net.host[(1 : Fin 2)]).window) &&
    ok (exec (.resultGateReopen 0 .clean) (frames.modHost 0 (fun h => { h with window := true }))) (fun t => !(t.net.host[(0 : Fin 2)]).window)) = true := by decide +kernel
theorem test_launch : (ok (exec (.recordLaunch 19000000) frames) (fun t => t.frame.comp.launched && t.net.results.latest == 9 && (t.net.results.record.map (·.frame)) == some 9 &&
      t.num (od 0x1A00 4) == 9 && t.num (od 0x1A00 5) == 1 && t.num (od 0x1A00 6) == 1 && t.net.sent == []) &&
    ok (exec (.recordStore 19500000) (frames.modNet (fun n => { n with results := { n.results with record := some { frame := 9 } } }))) (fun t =>
      t.net.results.record == none && t.net.results.retained.map (·.frame) == [9])) = true := by decide +kernel
/-- Marigold runs, and the module has booted. -/
def boots : State := { State.reset with power := { State.reset.power with booted := true } }
theorem wit_mari : boots.mariRuns = true := by decide +kernel
theorem test_boot_list : ok (exec (.marigoldBootList .clean .clean 5000) { boots with power := { boots.power with bootRecords := 1 } }) (fun t => t.power.bootRecords == 2 && t.net.sent == []) = true := by
  decide +kernel
/-! Safety (R405-R434). -/

/-- One object 10 m ahead, 4 m long, as an entry of 32 bytes. -/
def objBytes : Bytes := natLe 4 10240 ++ zeros 8 ++ natLe 2 4096 ++ natLe 2 2048 ++ natLe 2 1500 ++ zeros 6 ++ [1, 200, 1, 0] ++ zeros 4
def obj : CheckObj := { x := 10240, length := 4096, width := 2048, height := 1500, cls := 1, score := 200, core := 1 }
/-- Copy A's list with `crc` stands in w1 of core 1; the mode is `m`. -/
def judged (m : Nat) (crc : Nat) : State := ((frames.setNum (od 0xA000 1) m).setNum (od 0xA011 1) (1 + 256)).modPad 1 (fun k =>
  let k := k.setWin 0 1 { isOpen := true, f := 8, b := 2, size := 256, attr := 14 }
  k.write (k.win 0 1) 0 (natLe 4 9 ++ [0, 1] ++ natLe 2 1 ++ natLe 4 crc ++ zeros 20 ++ objBytes))
/-- R410, R411: the entry is read as said; a wrong CRC is a LIST_BAD verdict at once. -/
theorem test_list : (ok (exec (.checkListPoll 0 {} 1000000) (judged 2 (crc32c objBytes))) (fun t => t.safety.listA == .good [obj] && t.safety.verdict == none) &&
    ok (exec (.checkListPoll 0 {} 1000000) (judged 2 (crc32c objBytes + 1))) (fun t => t.safety.listA == .bad && t.safety.verdict == some 4 && t.num (od 0xAF00 2) == 4 &&
      t.frame.comp.status == 3 && t.frame.comp.marigoldPrimary)) = true := by decide +kernel
def lists (m : Nat) (a b : List CheckObj) : State := { judged m 0 with safety := { State.reset.safety with listA := .good a, listB := .good b } }
/-- R413, R414: B's object lies 0.25 m away; half a kilometre; or its score lies between FLOOR and the margin. -/
theorem test_copies : (ok (exec .copyCompare (lists 0 [obj] [obj])) (fun t => t.safety.verdict == some 1 && t.safety.copyCheck.map (·.pass) == some true) &&
    ok (exec .copyCompare (lists 2 [obj] [])) (fun t => t.safety.verdict == some 2 && t.num (od 0xAF00 3) == 1 && t.frame.comp.status == 3) &&
    ok (exec .copyCompare (lists 0 [] [{ obj with score := State.reset.num (od 0xA010 7) }])) (fun t => t.safety.verdict == some 1 && t.num (od 0xAF00 7) == 1)) = true := by decide +kernel
/-- R415: an obstacle at 5 m where the main channel sees its first object's rear at 8 m is MISSED. -/
def plaus (m dm : Nat) : State := { lists m [{ obj with score := 255 }] [] with safety := { (lists m [obj] []).safety with mari := some { frame := 9, dm := dm } } }
theorem test_plausible : (ok (exec .plausibilityCheck (plaus 1 5120)) (fun t => t.safety.plausCheck.map (·.pass) == some false && t.safety.verdict == some 3 && t.safety.selfTestIn == some 2) &&
    ok (exec .plausibilityCheck ((plaus 1 8192).setNum (od 0xA020 5) 0)) (fun t => t.safety.plausCheck.map (·.pass) == some true && t.safety.verdict == some 1)) = true := by decide +kernel
theorem wit_late : (lists 2 [obj] [obj]).listsReady = true ∧ (lists 2 [obj] [obj]).verdictNow = none := by decide +kernel
theorem test_late : ok (exec (.verdictLate (19000000 - 1000 * State.reset.num (od 0xA000 6))) (lists 2 [obj] [obj])) (fun t => t.safety.verdict == some 5 && t.num (od 0xAF00 4) == 1) = true := by
  decide +kernel
/-- Three obstacle points above a ground point. -/
def sweep : List MariPoint := [(5120, 0), (5121, 700), (5122, 700), (5123, 700)].map (fun p => { x := 64 * p.1, z := 64 * p.2, time := 999999 })
/-- The interpreter has read them. -/
def scanned (m : Nat) : State := { judged m 0 with safety := { State.reset.safety with mariPts := sweep } }
theorem test_sweep : (ok (exec (.marigoldSweep .clean .clean 1000000) (scanned 2)) (fun t => t.safety.mariSeen && t.safety.mari.map (fun m => (m.frame, m.dm)) == some (9, 5121)) &&
    ok (exec (.marigoldSweep .clean .clean (1000001 + 1000 * State.reset.num (od 0xA030 8))) (scanned 2)) (fun t => t.safety.mari == none && t.num (od 0xAF00 6) == 1)) = true := by decide +kernel
theorem test_due : let at_ := 1000000 + 1000 * State.reset.num (od 0xA030 8)
    (ok (exec (.marigoldDue at_) (judged 2 0)) (fun t => t.safety.mariDue && t.safety.missing == 1 && bitAt t.frame.comp.cSafety 2) &&
      ok (exec (.marigoldDue at_) (judged 1 0)) (fun t => t.safety.verdict == some 5) &&
      ok (exec (.marigoldDue at_) { judged 2 0 with safety := { State.reset.safety with missing := 2 } }) (fun t => t.num (od 0xA030 9) == 1)) = true := by decide +kernel
theorem test_marigold : (ok (exec (.marigoldLockstepMismatch 5) State.reset) (fun t => t.num (od 0xA030 9) == 1) &&
    ok (exec (.marigoldLockstepMismatch 5) { State.reset with safety := { State.reset.safety with restarts := [1, 2] } }) (fun t => t.num (od 0xA030 9) == 3) &&
    ok (exec (.marigoldSelfTest false 5) State.reset) (fun t => t.num (od 0xA030 9) == 1) && ok (exec (.marigoldSelfTest true 5) State.reset) (fun t => t.num (od 0xA030 9) == 0) &&
    ok (exec (.marigoldRestartComplete true 5) (State.reset.setNum (od 0xA030 9) 1)) (fun t => t.num (od 0xA030 9) == 0) &&
    ok (exec (.marigoldRestartComplete true 5) ((State.reset.setNum (od 0xA030 9) 1).setNum (od 0x7890 1) 2)) (fun t => t.num (od 0xA030 9) == 2) &&
    ok (exec (.marigoldRestartComplete false 5) (State.reset.setNum (od 0xA030 9) 1)) (fun t => t.num (od 0xA030 9) == 3)) = true := by decide +kernel
def safe (o : Out) : Bool := ok o (fun t => t.num (od 0xA000 2) == 3)
theorem test_pair : (ok (exec (.foxgloveTestPair true) State.reset) (fun t => t.num (od 0xA000 2) != 3) && safe (exec (.foxgloveTestPair false) State.reset) &&
    safe (exec (.foxgloveTestPair true) { frames with frame := { frames.frame with comp := { frames.frame.comp with launched := true } } })) = true := by decide +kernel
theorem test_watch : (ok (exec (.supervisorKick 77) State.reset) (fun t => t.safety.kick && t.safety.lastKick == 77) &&
    safe (exec (.watchdogTimeout 10000000) vendor) && !safe (exec (.watchdogTimeout 9999999) vendor) && safe (exec (.faultLine true true) State.reset) && safe (exec (.faultLine false true) State.reset) &&
    ok (exec (.faultLine true false) { State.reset with safety := { State.reset.safety with lineSec := true } }) (fun t => !t.safety.lineSec) &&
    safe (exec (.clockMonitor 101) State.reset) && !safe (exec (.clockMonitor 100) State.reset)) = true := by decide +kernel
theorem test_launch_line : (ok (exec (.launchLineToggle 5) { frames with frame := { frames.frame with comp := { frames.frame.comp with launched := true } } }) (fun t => t.safety.launchLine && t.safety.launchedFrame == 9) &&
    safe (exec (.missingLaunch 20000000) frames) && !safe (exec (.missingLaunch 19999999) frames)) = true := by decide +kernel
/-- FAULT_N is asserted after reset; in RUN and NORMAL it is not. -/
theorem test_readback : State.reset.faultN = true ∧ (safe (exec (.faultNReadback true false) State.reset) && safe (exec (.faultNReadback false true) State.reset) && !safe (exec (.faultNReadback true true) State.reset) &&
    ok (exec (.faultNReadback true true) { State.reset with safety := { State.reset.safety with foxAsserts := false } }) (fun t => t.num (od 0xAF00 0x0E) == 1 && t.log.srv && t.num (od 0xA000 2) != 3)) = true := by decide +kernel
theorem test_force : (ok (exec (.forceFallback who 1) vendor) (fun t => t.hap.lastStatus == 0 && t.num (od 0xA000 2) == 2 && bitAt (t.num (od 0xA000 3)) 3) &&
    ok (exec (.forceFallback who 0) vendor) (fun t => t.num (od 0xA000 2) == vendor.num (od 0xA000 2))) = true := by decide +kernel

/-! Time (R452-R459). -/

/-- HOST port 0 is the slave and asCapable; its delay is 100 ns. -/
def slave (st : Nat) (f : TimeUnit → TimeUnit) : State := ((((linked [8, 9] State.reset).setNum (od 0x2180 5) 1).setNum (od 0x2190 5) 1).setNum (od 0x2180 3) 100).setNum (od 0x2000 1) st |>.modNet
  (fun n => { n with time := f n.time })
theorem wit_slave : (slave 1 id).slavePort = 8 ∧ (slave 1 id).net.time.standby = some 9 := by decide +kernel
/-- R456: 40 ns late, 16 × 40 = 640 sixteenths. -/
theorem test_sync : (ok (exec (.syncReceive 8 { masterNs := 1000, clock := 5, t := 1140 }) (slave 1 (fun x => { x with permitted := true, good := 3 }))) (fun t =>
      t.net.time.offset == 640 && t.net.time.slew == -640 && t.int (od 0x2000 2) == 40 && t.timeState == 2 && t.net.time.locked) &&
    ok (exec (.syncReceive 8 { masterNs := 1000, clock := 5, t := 1140 }) (slave 0 id)) (fun t => t.frame.now == 1100 && t.net.time.offset == 0 && t.timeState == 1) &&
    ok (exec (.syncReceive 8 { masterNs := 1000, clock := 5, t := 5140 }) (slave 2 (fun x => { x with bad := 3 }))) (fun t => t.timeState == 1) &&
    ok (exec (.syncReceive 8 { masterNs := 1000, clock := 5, t := 1140 }) (slave 3 id)) (fun t => t.timeState == 1 && t.net.time.syncs == [(5, 1000)]) &&
    ok (exec (.syncReceive 9 { masterNs := 1000, clock := 5, t := 1140 }) (slave 1 id)) (fun t => (t.net.port[(9 : Fin 12)]).lastSync == some 1140 && t.timeState == 1)) = true := by decide +kernel
/-- R456: 10 ppm fast over one second. -/
theorem test_trim : trimOf [(1000000000, 1000010000), (0, 0)] = 10000 ∧ trimOf [(5, 5)] = 0 ∧ trimOf [(1000, 2000), (0, 0)] = 500000 := by decide +kernel
def gone : State := (slave 2 id).modPort 8 (fun x => { x with lastSync := some 0 })
theorem test_sync_timeout : (ok (exec (.syncTimeout 400000000) gone) (fun t => t.timeState == 3 && t.net.time.holdover == some 400000000 && t.net.time.slew == 0 && !t.net.time.pps) &&
    ok (exec (.syncTimeout 374999999) gone) (fun t => t.timeState == 2) &&
    ok (exec (.syncTimeout 400000000) (gone.modPort 9 (fun x => { x with lastSync := some 300000000 }))) (fun t => t.slavePort == 9 && t.net.time.standby == some 8 && t.timeState == 2)) = true := by decide +kernel
theorem test_time : (ok (exec (.syncWaitExpire (1000000 * State.reset.num (od 0x2000 6))) State.reset) (fun t => t.net.time.permitted) &&
    ok (exec (.syncWaitExpire (1000000 * State.reset.num (od 0x2000 6) - 1)) State.reset) (fun t => !t.net.time.permitted) &&
    ok (exec (.ppsOutRise 2000000000) (slave 2 id)) (fun t => t.net.time.pps) && ok (exec (.ppsOutRise 2000000000) (slave 1 id)) (fun t => !t.net.time.pps) &&
    ok (exec (.ppsOutFall 2100000000) (slave 2 (fun x => { x with pps := true }))) (fun t => !t.net.time.pps) &&
    ok (exec (.ppsInEdge 3000000007) State.reset) (fun t => t.oct (od 0x2000 0x0C) == time80 3000000007)) = true := by decide +kernel
theorem test_time80 : time80 3000000007 = natLe 10 (3 + 2 ^ 48 * 7) := by decide +kernel
/-- Port 0 is a master. -/
def master : State := ((linked [0] State.reset).setNum (od 0x2100 1) 1).setNum (od 0x2100 5) 1
theorem test_gptp : (ok (exec (.pdelayResponseReceive 0 { t1 := 0, t2 := 1050, t3 := 2050, t4 := 1100 }) master) (fun t => t.num (od 0x2100 3) == 50 && t.num (od 0x2100 5) == 1) &&
    ok (exec (.pdelayResponseReceive 0 { t4 := 200000000 }) master) (fun t => t.num (od 0x2100 5) == 0) && ok (exec (.messageIntervalRequest 0 (-5)) master) (fun t => (t.net.port[(0 : Fin 12)]).ownInt == some (-5)) &&
    ok (exec (.messageIntervalRequest 0 (-6)) master) (fun t => (t.net.port[(0 : Fin 12)]).ownInt == (master.net.port[(0 : Fin 12)]).ownInt) &&
    [exec (.syncSend 0 9) master, exec (.pdelayRequestReceive 0 9) master].all (fun o => ok o (fun t => t.net.sent.length == 2)) && ok (exec (.pdelayRequestSend 0 9) master) (fun t => t.net.sent.length == 1)) = true := by decide +kernel
/-! HAP (R483-R501). -/

/-- A request of session 5 with a body. -/
def hap (b : Bytes) : HapReq := { session := 5, seq := 1, body := b, length := b.length, t := 1000, srcIp := 0x0A000002, srcPort := 999 }
theorem wit_serves : vendor.serves (hap []) { id := 5, level := .vendor, isHost := true } := by decide +kernel
/-- The command answers session 5's request with a status and a body. -/
def answers (o : Out) (st : Nat) (body : Bytes) (p : Session → Bool := fun _ => true) : Bool :=
  ok o (fun t => t.hap.lastStatus == st && t.hap.lastReply == body && (t.session 5).any (fun x => x.lastSeq == 1 && p x))
/-- R485, R487, R490: a session more; the ninth is refused. -/
def opens (r : HapReq) : HapReq := { r with session := 0 }
theorem test_open : (ok (exec (.hapOpen (opens (hap ([1] ++ zeros 15)))) vendor) (fun t => t.hap.lastStatus == 0 && t.hap.sessions.length == 2) &&
    ok (exec (.hapOpen (opens (hap ([1] ++ zeros 15)))) { vendor with hap := { vendor.hap with sessions := (List.range 8).map (fun i => { id := i + 1 }) } }) (fun t =>
      t.hap.lastStatus == 7 && t.hap.sessions.length == 8)) = true := by decide +kernel
theorem test_ping : (answers (exec (.hapPing (hap [])) vendor) 0 [] && answers (exec (.hapPing (hap [0])) vendor) 10 [] &&
    ok (exec (.hapClose (hap [])) vendor) (fun t => t.hap.sessions == [] && t.hap.lastStatus == 0)) = true := by decide +kernel
/-- R491: MODULE_IP reads 0; an object that does not exist answers with status 1. -/
theorem test_read : answers (exec (.hapRead (hap ([2, 0, 0, 0] ++ natLe 2 0x1000 ++ [1, 0] ++ natLe 2 0x0FFF ++ [0, 0]))) vendor) 0
    ([2, 0, 0, 0] ++ natLe 2 0x1000 ++ [1, 0, 4, 0, 0, 0] ++ natLe 4 0 ++ natLe 2 0x0FFF ++ [0, 1, 0, 0, 0, 0]) = true := by decide +kernel
/-- R492: both entries or none; RESULT_IP applies at the next restart. -/
def entries (bad : Nat) : Bytes := [2, 0, 0, 0] ++ natLe 2 0x1000 ++ [3, 0, 4, 0, 0, 0] ++ natLe 4 7 ++ natLe 2 0x1000 ++ [BitVec.ofNat 8 bad, 0, 4, 0, 0, 0] ++ natLe 4 9
theorem test_write_entries : (ok (exec (.hapWrite (hap (entries 1))) vendor) (fun t => t.hap.lastStatus == 0 && t.hap.lastReply.take 1 == [0xFF] &&
      Sparse.get Od.dflt t.dict.journal (od 0x1000 3) == .num 7 && t.num (od 0x1000 3) == 0) &&
    ok (exec (.hapWrite (hap (entries 0x30))) vendor) (fun t => t.hap.lastStatus == 1 && t.hap.lastReply == [1, 0, 0, 0, 0, 0, 0, 0] && t.dict.journal == vendor.dict.journal)) = true := by
  decide +kernel
/-- R494: MODULE_IP is a U32, RW, RESTART, WORKSHOP, STORED, of 4 bytes. -/
theorem test_describe : (ok (exec (.hapDescribe (hap (natLe 2 0x1000 ++ [1, 0]))) vendor) (fun t => t.hap.lastStatus == 0 && (slice t.hap.lastReply 1 20) == [1, 2, 1, 1, 0, 0, 0] ++ natLe 4 4 ++ [77, 79, 68, 85, 76, 69, 95, 73, 80]) &&
    answers (exec (.hapDescribe (hap (natLe 2 0x0FFF ++ [1, 0]))) vendor) 1 [] && answers (exec (.hapList (hap (natLe 2 0xFFFF ++ [0, 0]))) vendor) 0 [0, 0, 1, 0]) = true := by decide +kernel
theorem test_subscribe : (answers (exec (.subscribe (hap [0, 0, 7, 0])) vendor) 0 (zeros 4) (fun x => x.evMask == some 7) &&
    ok (exec (.subscribe (hap ([1] ++ natLe 2 0x1000 ++ [1, 0]))) vendor) (fun t => t.hap.lastStatus == 0 && (t.session 5).any (fun x => x.values.map (·.key) == [od 0x1000 1])) &&
    answers (exec (.unsubscribe (hap [0])) { vendor with hap := { vendor.hap with sessions := [{ id := 5, evMask := some 7 }] } }) 0 [] (fun x => x.evMask == none) &&
    answers (exec (.unsubscribe (hap [3])) { vendor with hap := { vendor.hap with sessions := [{ id := 5, values := [{ num := 3 }, { num := 4 }] }] } }) 0 [] (fun x => x.values.map (·.num) == [4])) = true := by
  decide +kernel
/-- R490, R498: one session at its limit, with 41 events. -/
def quiet5 : State := { vendor with hap := { vendor.hap with sessions := [{ id := 5, lastTime := 7, evMask := some 0, evQueue := List.replicate 41 default }] } }
theorem test_session_time : let limit := 7 + 1000000 * vendor.num (od 0x1B00 1)
    (ok (exec (.sessionTimeout 5 limit) quiet5) (fun t => t.hap.sessions == []) && ok (exec (.sessionTimeout 5 (limit - 1)) quiet5) (fun t => t.hap.sessions.length == 1) &&
      ok (exec (.eventNotify 5 100) quiet5) (fun t => t.hap.sessions.map (fun x => (x.evQueue.length, x.lastNotify, x.notifySeq)) == [(1, some 100, 2)])) = true := by decide +kernel
theorem test_srv_clear : ok (exec (.srvClear who 1) { vendor with log := { vendor.log with srv := true, srvEvents := [5], dtcs := [default] } }) (fun t =>
    t.hap.lastStatus == 0 && !t.log.srv && t.log.srvEvents == [] && t.log.dtcs == []) = true := by decide +kernel

/-! BLOBs and results (R472, R495, R496, R500). -/

/-- PEER_TABLE's first bytes; a second piece without a snapshot; one with. -/
theorem test_blob_read : (answers (exec (.blobRead (hap (natLe 2 0x1820 ++ [0, 0] ++ natLe 4 0 ++ natLe 2 100 ++ zeros 2))) (vendor.setOct (od 0x1820 0) [7, 8])) 0 (natLe 4 2 ++ natLe 4 0 ++ [7, 8]) (fun x => x.snapshot.isSome) &&
    answers (exec (.blobRead (hap (natLe 2 0x1820 ++ [0, 0] ++ natLe 4 1 ++ natLe 2 100 ++ zeros 2))) vendor) 12 [] &&
    answers (exec (.blobRead (hap (natLe 2 0x1820 ++ [0, 0] ++ natLe 4 1 ++ natLe 2 100 ++ zeros 2))) { vendor with hap := { vendor.hap with sessions := [{ id := 5, snapshot := some { key := od 0x1820 0, data := [7, 8, 9] } }] } }) 0 (natLe 4 3 ++ natLe 4 1 ++ [8, 9])) = true := by decide +kernel
/-- R496: 524,288 bytes are PEER_TABLE's largest value. -/
def begins (n : Nat) : HapReq := hap (natLe 2 0x1820 ++ [0, 0] ++ natLe 4 n ++ natLe 4 77)
theorem test_blob_begin : (answers (exec (.blobBegin (begins 524288)) vendor) 0 [] (fun x => x.transfer == some { key := od 0x1820 0, total := 524288, crc := 77, last := 1000 }) &&
    answers (exec (.blobBegin (begins 524289)) vendor) 5 [] (fun x => x.transfer == none)) = true := by decide +kernel
/-- A transfer of four bytes of which two are there. -/
def moved (d : Bytes) (n crc : Nat) : State := { vendor with hap := { vendor.hap with sessions := [{ id := 5, level := .vendor, transfer := some { key := od 0x1820 0, got := d.length, total := n, crc := crc } }] } } |> fun s =>
  (s.setNum (od 0x7800 1) 255).modExt (fun e => { e with dram := Sparse.putN zeroByte e.dram (stagingAt 0) d })
theorem test_blob_segment : (answers (exec (.blobSegment (hap (natLe 4 2 ++ [3, 4]))) (moved [1, 2] 4 0)) 0 [] (fun x => x.transfer.any (fun y => y.got == 4)) &&
    ok (exec (.blobSegment (hap (natLe 4 2 ++ [3, 4]))) (moved [1, 2] 4 0)) (fun t => Sparse.getN zeroByte t.ext.dram (stagingAt 0) 4 == [1, 2, 3, 4]) &&
    answers (exec (.blobSegment (hap (natLe 4 1 ++ [3, 4]))) (moved [1, 2] 4 0)) 12 [] (fun x => x.transfer.any (fun y => y.got == 2)) &&
    answers (exec (.blobAbort (hap [])) (moved [1, 2] 4 0)) 0 [] (fun x => x.transfer == none)) = true := by decide +kernel
/-- The table of one entry; the last byte missing; a value of no whole entry. -/
theorem test_blob_end : (ok (exec (.blobEnd (hap [])) (moved (zeros 8) 8 (crc32c (zeros 8)))) (fun t => t.hap.lastStatus == 0 && t.hap.lastReply.take 1 == [0xFF]) &&
    answers (exec (.blobEnd (hap [])) (moved (zeros 7) 8 (crc32c (zeros 7)))) 12 [] (fun x => x.transfer == none) &&
    answers (exec (.blobEnd (hap [])) (moved (zeros 8) 8 1)) 12 [] (fun x => x.transfer == none)) = true := by decide +kernel
theorem test_blob_time : (ok (exec (.blobTransferTimeout 5 10000000000) (moved [1, 2] 4 0)) (fun t => t.hap.sessions.all (fun x => x.transfer == none) && t.num (od 0x1B00 7) == 1) &&
    ok (exec (.blobTransferTimeout 5 9999999999) (moved [1, 2] 4 0)) (fun t => t.hap.sessions.all (fun x => x.transfer.isSome)) &&
    ok (exec (.blobSnapshotExpire 5 10000000000) { vendor with hap := { vendor.hap with sessions := [{ id := 5, snapshot := some {} }] } }) (fun t => t.hap.sessions.all (fun x => x.snapshot == none))) = true := by decide +kernel
/-- R472: frame 9's record is held; a record under way makes its reader wait. -/
def stored : State := (vendor.setNum (od 0x7800 1) 255).modNet (fun n => { n with results := { n.results with latest := 9, retained := [{ frame := 9, e := 0, slot := 0, len := 160 }] } })
theorem test_result_read : (ok (exec (.resultRead (hap (natLe 4 9 ++ natLe 4 0 ++ natLe 2 8))) stored) (fun t => t.hap.lastStatus == 0 && t.hap.lastReply == natLe 4 160 ++ natLe 4 0 ++ zeros 8) &&
    ok (exec (.resultRead (hap (natLe 4 10 ++ natLe 4 0 ++ natLe 2 8))) (stored.modNet (fun n => { n with results := { n.results with record := some { frame := 10 } } }))) (fun t =>
      t.net.sent == [] && (t.session 5).any (fun x => x.waitRead.any (fun y => y.frame == 10)))) = true := by decide +kernel

/-! Unlocking and the life cycle (R523-R533). -/

/-- Session 5 is OPEN and holds a workshop challenge's nonce; a verifier is stored. -/
def asked5 (fails : Nat) : State :=
  let s := vendor.setOct (od 0xB000 4) (natLe 32 99)
  { s with hap := { s.hap with sessions := [{ id := 5, nonce := some { kind := 1, bytes := natLe 32 3, at_ := 0 } }] }, sec := { s.sec with fails := fails } }
/-- A wrong proof of 32 zero bytes may not be told from the right one, since the digest is free; a token is refused by its form. -/
theorem test_challenge : (ok (exec (.unlockChallenge (hap [1, 0, 0, 0])) vendor) (fun t => t.hap.lastStatus == 0 && (t.session 5).any (fun x => x.nonce.any (fun n => n.kind == 1 && n.at_ == 1000))) &&
    answers (exec (.unlockChallenge (hap [1, 0, 0, 0])) { vendor with sec := { vendor.sec with lockoutEnd := 1001 } }) 7 [] &&
    answers (exec (.lock (hap [])) vendor) 0 [] (fun x => x.level == .open)) = true := by decide +kernel
/-- A response that carries the proof meets the clause of the right proof. -/
theorem wit_proof : let b := [1] ++ zeros 7 ++ (asked5 2).workshopProof (natLe 32 3) 5
    responseOk b = true ∧ slice b 8 32 = (asked5 2).workshopProof (natLe 32 3) 5 ∧ ((asked5 2).at 1000).gateShut = false := by
  refine ⟨?_, rfl, ?_⟩ <;> decide +kernel
theorem test_lockout : lockoutFor 3 = 10 ∧ lockoutFor 4 = 20 ∧ lockoutFor 17 = 86400 := by decide
def expires : State := { vendor with hap := { vendor.hap with sessions := [{ id := 5, level := .vendor, levelEnd := some 500, attestAt := some 1 }] } }
theorem test_expiry : (ok (exec (.vendorExpiry 5 500) expires) (fun t => t.hap.sessions.map (·.level) == [.open]) && ok (exec (.vendorExpiry 5 499) expires) (fun t => t.hap.sessions.map (·.level) == [.vendor])) = true := by
  decide +kernel
theorem test_attest : (ok (exec (.attestNonce who (natLe 32 8)) vendor) (fun t => t.hap.lastStatus == 0 && (t.session 5).any (fun x => x.attestNonce == natLe 32 8 && x.attestAt == some 1000)) &&
    ok (exec (.attestNonce who (natLe 32 8)) { vendor with sec := { vendor.sec with debugOpen := true } }) (fun t => t.hap.lastStatus == 11) &&
    ok (exec (.attestQuoteReady 5 9) expires) (fun t => t.hap.sessions.all (fun x => x.attestAt == none)) &&
    ok (exec (.attestQuoteReady 5 9) { expires with sec := { expires.sec with tampered := true } }) (fun t => t.hap.sessions.all (fun x => x.attestAt == some 1))) = true := by decide +kernel
theorem test_lc : (ok (exec (.lcRequest who 3) vendor) (fun t => t.hap.lastStatus == lcCheck 3 (vendor.at 1000)) &&
    ok (exec (.tamperDetect 9) State.reset) (fun t => t.sec.tampered && t.sec.wiping && t.log.srv && t.num (od 0xA000 2) == 3 && t.safety.lineSec) &&
    ok (exec (.lockoutExpiry 20) { vendor with sec := { vendor.sec with lockoutEnd := 20 } }) (fun t => t.sec.lockoutEnd == 0) &&
    ok (exec (.lockoutExpiry 19) { vendor with sec := { vendor.sec with lockoutEnd := 20 } }) (fun t => t.sec.lockoutEnd == 20)) = true := by decide +kernel
/-- A transition to 4 was held back by the gate, which has opened. -/
def heldBack : State := { vendor with sec := { vendor.sec with base := 2, effective := 2, held := true } }
theorem test_held : ok (exec (.heldTransitionRelease 9) heldBack) (fun t => !t.sec.held && t.sec.wiping) = true := by decide +kernel

/-! Updates, keys, associations (R516, R534-R541). -/

theorem test_gate : (ok (exec (.updateGate who 1) vendor) (fun t => t.hap.lastStatus == 0 && t.num (od 0xC000 1) == 1 && t.sec.gateAt == 1000) &&
    ok (exec (.updateGate who 1) { vendor with hap := { vendor.hap with sessions := [{ id := 5, level := .vendor }] } }) (fun t => t.hap.lastStatus == 2 && t.num (od 0xC000 1) == 0) &&
    ok (exec (.updateGateExpire 10000000000) (vendor.setNum (od 0xC000 1) 1)) (fun t => t.num (od 0xC000 1) == 0)) = true := by decide +kernel
/-- An update is staged, or has been written. -/
def updating (st : Nat) (w : Bool) : State := { vendor.setNum (od 0xC000 3) st with sec := { vendor.sec with stage := { written := w, parts := [{ type := 0x15 }] } } }
theorem test_update_stage : (ok (exec (.discard who 1) (updating 2 false)) (fun t => t.hap.lastStatus == 0 && t.num (od 0xC000 3) == 0 && t.sec.stage == {}) &&
    ok (exec (.discard who 1) (updating 4 true)) (fun t => t.hap.lastStatus == 11 && t.num (od 0xC000 3) == 4) && ok (exec (.activate who 1 2000) (updating 1 false)) (fun t => t.hap.lastStatus == 11) &&
    ok (exec (.activate who 1 2000) (updating 2 false)) (fun t => t.hap.lastStatus == 0 && t.num (od 0xC000 3) == 5) &&
    ok (exec (.componentEffect 9) (updating 4 true)) (fun t => t.num (od 0xC000 3) == 5 && t.sec.stage == {})) = true := by decide +kernel
theorem test_key : (ok (exec (.authorityKeyWrite who 0 (zeros 168)) vendor) (fun t => t.hap.lastStatus == 6 && t.dict.journal == vendor.dict.journal)) = true := by decide +kernel
/-- R541: a record deletes the association of its AN and SCI on HOST0; one of another length is refused. -/
def assoc : State := { vendor with sec := { vendor.sec with sas := [{ port := 8, an := 1, sci := 5 }, { port := 8, tx := false, an := 1, sci := 5 }] } }
theorem test_sa : (ok (exec (.txSa who 0 ([1, 0, 0, 0] ++ natBe 8 5 ++ zeros 156)) assoc) (fun t => t.hap.lastStatus == 0 && t.sec.sas.map (·.tx) == [false]) &&
    ok (exec (.rxSa who 0 ([1, 0, 0, 0] ++ natBe 8 5 ++ zeros 156)) assoc) (fun t => t.hap.lastStatus == 0 && t.sec.sas.map (·.tx) == [true]) && ok (exec (.txSa who 0 (zeros 4)) assoc) (fun t => t.hap.lastStatus == 6 || t.hap.lastStatus == 4) &&
    ok (exec (.rxSa who 0 ([4, 0, 0, 0] ++ zeros 164)) assoc) (fun t => t.hap.lastStatus == 6)) = true := by decide +kernel
theorem test_restart : (ok (exec (.restart who 1) vendor) (fun t => t.powerState == 2 && t.num (od 0xE000 7) == 3 && t.hap.sessions == []) &&
    ok (exec (.restart who 1) { vendor with frame := { vendor.frame with run := true } }) (fun t => t.hap.lastStatus == 11)) = true := by decide +kernel

/-! The queue (the block's step), HOLD, and the checks of every row (R194, R195, R548). -/

theorem test_step : step { State.reset with pending := [.prsNop 0 0, .wake 5] } = exec (.prsNop 0 0) { State.reset with pending := [.wake 5] } := rfl
theorem test_idle : step State.reset = .next State.reset := rfl
theorem wit_reset : (State.reset.pending = [] ∧ State.reset.powerState = 2 ∧ State.reset.runs) := by decide
/-- HOLD has begun: CD00 to CD17 stand. -/
def still : State := { run with power := { run.power with holdAt := some 5 } }
theorem wit_still : ¬ still.runs := by decide
theorem test_still : exec (.add 1 (iw 31 1 2 0 0)) (atPc 0x01 (iw 31 1 2 0 0) still) = .next (atPc 0x01 (iw 31 1 2 0 0) still) ∧ exec (.prsNop 0 0) still = .next still ∧ exec .cellInsert still = .next still := by
  repeat' first | refine And.intro ?_ ?_ | decide +kernel | rfl
/-- R194: a bit of I in a row that has none, a reserved relation, and a PC outside w0 are ILLEGAL. -/
theorem test_illegal : raises .add 0x01 (iw 31 1 2 0 1) run 1 ∧ raises .cmp 0x18 (iw 3 1 2 6 0) run 1 ∧
    exec (.add 1 (iw 31 1 2 0 0)) (atPc 0x01 (iw 31 1 2 0 0) (run.setPc 1 64)) = .next ((atPc 0x01 (iw 31 1 2 0 0) (run.setPc 1 64)).except 1 1 64) := by
  repeat' first | refine And.intro ?_ ?_ | decide +kernel | rfl
theorem test_no_task : exec (.add 2 (iw 31 1 2 0 0)) run = .next run := rfl
/-! Start-up and recovery (R538-R540, R559, R561). -/

/-- Not provisioned, no component in flash. -/
def blank : State := { State.reset with sec := { State.reset.sec with provisionedFuse := false } }
theorem test_boot : (ok (exec (.primroseBoot true false [] 9) blank) (fun t => t.power.booted && t.power.startedAt == 9 && t.sec.effective == 0 &&
      t.sec.recovery == { active := true, reason := 2 } && !t.power.supervisor && t.log.srv && t.num (od 0xA030 9) == 3) &&
    ok (exec (.primroseBoot false false [] 9) blank) (fun t => t.sec.recovery == { active := true, reason := 1 }) &&
    ok (exec (.primroseBoot true true [] 9) boots) (fun t => t.power.startedAt == 0 && !t.sec.recovery.active)) = true := by decide +kernel
theorem test_no_start : (ok (exec (.supervisorStartTimeout 2000000000) vendor) (fun t => t.sec.recovery == { active := true, reason := 3 } && !t.power.supervisor && t.log.srv) &&
    ok (exec (.supervisorStartTimeout 1999999999) vendor) (fun t => t.sec.recovery == {} && t.power.supervisor)) = true := by decide +kernel
/-- No class of a HOST port is shaped by a credit. -/
def unshaped (s : State) : State := [0x1180, 0x1190].foldl (fun s i => (s.setNum (od i 0x12) 0).setNum (od i 0x13) 0) s
/-- In recovery, both HOST ports up; 10.0.0.2 has sent two of four bytes. -/
def recovering (o : Option Nat) (d : Bytes) (crc : Nat) : State :=
  let s := linked [8, 9] (unshaped (State.reset.setNum (od 0x7900 2) 1000))
  { s with sec := { s.sec with recovery := { active := true, reason := 2, owner := o, total := if o.isSome then 4 else 0, crc := crc, data := d } } }
theorem test_hello : (ok (exec (.recoveryHello 9) (recovering none [] 0)) (fun t => t.freeCtr == 1 &&
      t.net.sent.map (fun f => (f.port, f.dstIp, f.sport, f.dport)) == [(8, 0xFFFFFFFF, 44103, 44103), (9, 0xFFFFFFFF, 44103, 44103)]) &&
    ok (exec (.recoveryHello 9) State.reset) (fun t => t.net.sent == [] && t.freeCtr == 0) &&
    ok (exec (.recoveryTransferTimeout 10000000000) (recovering (some 0x0A000002) [1, 2] 7)) (fun t => t.sec.recovery == { active := true, reason := 2, crc := 7 }) &&
    ok (exec (.recoveryTransferTimeout 9999999999) (recovering (some 0x0A000002) [1, 2] 7)) (fun t => t.sec.recovery.owner.isSome)) = true := by decide +kernel
def rec4 (off : Nat) (d : Bytes) (ip : Nat) : RecReq := { host := 0, srcIp := ip, srcPort := 5, version := 1, seq := 3, offset := off, data := d, t := 9 }
theorem test_recovery_begin : (ok (exec (.recoveryBegin (rec4 0 (natLe 4 1000 ++ natLe 4 7) 1)) (recovering none [] 0)) (fun t =>
      t.sec.recovery == { active := true, reason := 2, owner := some 1, total := 1000, crc := 7, last := 9 }) &&
    ok (exec (.recoveryBegin (rec4 0 (natLe 4 1001 ++ natLe 4 7) 1)) (recovering none [] 0)) (fun t => t.sec.recovery.owner == none) &&
    ok (exec (.recoveryBegin (rec4 0 (natLe 4 9 ++ natLe 4 7) 2)) (recovering (some 1) [1, 2] 0)) (fun t => t.sec.recovery == (recovering (some 1) [1, 2] 0).sec.recovery)) = true := by decide +kernel
theorem test_recovery_segment : (ok (exec (.recoverySegment (rec4 2 [3, 4] 1)) (recovering (some 1) [1, 2] 0)) (fun t => t.sec.recovery.data == [1, 2, 3, 4] && t.sec.recovery.last == 9) &&
    ok (exec (.recoverySegment (rec4 2 [3, 4, 5] 1)) (recovering (some 1) [1, 2] 0)) (fun t => t.sec.recovery.data == [1, 2]) &&
    ok (exec (.recoverySegment (rec4 2 [3, 4] 2)) (recovering (some 1) [1, 2] 0)) (fun t => t.sec.recovery == (recovering (some 1) [1, 2] 0).sec.recovery)) = true := by decide +kernel
/-- R540: neither a short transfer nor four bytes that are no component restart the module. -/
theorem test_recovery_end : (ok (exec (.recoveryEnd (rec4 0 [] 1)) (recovering (some 1) [1, 2] 7)) (fun t => t.sec.recovery == { active := true, reason := 2, crc := 7, last := 9 } && t.sec.comps == []) &&
    ok (exec (.recoveryEnd (rec4 0 [] 1)) (recovering (some 1) [1, 2, 3, 4] (crc32c [1, 2, 3, 4]))) (fun t => t.sec.recovery.owner == none && t.sec.recovery.active && t.sec.comps == []) &&
    ok (exec (.recoveryEnd (rec4 0 [] 2)) (recovering (some 1) [1, 2] 7)) (fun t => t.sec.recovery == (recovering (some 1) [1, 2] 7).sec.recovery)) = true := by decide +kernel
theorem test_core_release : (ok (exec (.coreResetRelease 0xFF 9) vendor) (fun t => t.power.trained && t.num (od 0x7800 1) == 255 && t.ext.failed == 0 && t.num (od 0x7800 2) == t.capacity && t.num (od 0x7800 3) == 0) &&
    ok (exec (.coreResetRelease 0xF7 9) vendor) (fun t => t.power.trained && t.num (od 0x7800 1) == 0xF7 && t.ext.failed == 8 && t.num (od 0x7800 3) == 8)) = true := by decide +kernel
/-- The main channel is released. -/
def released : State := { vendor with power := { vendor.power with trained := true, booted := true } }
theorem test_main : ok (exec (.mainChannelReady 9) released) (fun t => t.power.mainReady && (t.table 3).state == 0) = true := by decide +kernel
theorem test_main_late : (ok (exec (.mainNotReady 3000000000) released) (fun t => t.power.lateRaised && t.log.seq == 1) &&
    ok (exec (.mainNotReady 2999999999) released) (fun t => !t.power.lateRaised) &&
    ok (exec (.mainNotReady 3000000000) { released with power := { released.power with lateRaised := true } }) (fun t => t.log.seq == 0)) = true := by decide +kernel

/-! Supply, power, clocks and sensors (R546-R564). -/

/-- R546: the bands' limits, and HOLD's way out. -/
theorem test_bands : [-301, -300, 5999, 6000, 9999, 10000, 15999, 16000, 31999, 32000, 58000, 58001].map (bandOf 4) = [0, 1, 1, 2, 2, 3, 3, 4, 4, 5, 5, 6] ∧
    bandOf 3 16500 = 3 ∧ bandOf 3 16501 = 4 := by decide
theorem test_hold : (ok (exec (.supplyBandChange 12000 3 9) State.reset) (fun t => t.band == 3 && t.power.holdAt == some 9 && t.sched.hold && t.frame.ing.hold && t.int (od 0xE000 2) == 12000 && t.powerState == 2 && t.power.dipAt == none && t.num (od 0xE000 8) == 3) &&
    ok (exec (.supplyBandChange 24000 3 9) ({ still with frame := { still.frame with run := true } }.setNum (od 0xE000 4) 3)) (fun t => t.band == 4 && t.power.holdAt == none && t.power.resumeAt == some 1000009) &&
    ok (exec (.supplyBandChange 7000 1 9) State.reset) (fun t => t.band == 2 && t.power.dipAt == some 9)) = true := by decide +kernel
/-- OFF, with the band FULL or none. -/
def dark (st band : Nat) : State := (State.reset.setNum (od 0xE000 1) st).setNum (od 0xE000 4) band
theorem test_off : (ok (exec (.supplyBandChange 100 0 9) (dark 1 4)) (fun t => t.powerState == 0 && t.band == 1) &&
    ok (exec (.supplyBandChange 24000 3 9) (dark 0 1)) (fun t => t.powerState == 0 && t.power.fullAt == some 9)) = true := by decide +kernel
theorem test_high : (ok (exec (.highBandTimeout 75000000000) { vendor with power := { vendor.power with highAt := some 0 } }) (fun t => t.powerState == 1 && t.power.highEnded && !t.frame.run) &&
    ok (exec (.highBandTimeout 75000000000) { State.reset with power := { State.reset.power with highAt := some 0 } }) (fun t => t.powerState == 6 && t.power.shutAt.isSome && t.safety.foxAsserts && t.power.highEnded && !t.sched.running_) &&
    ok (exec (.highBandTimeout 75000000000) vendor) (fun t => t.powerState == 2)) = true := by decide +kernel
theorem test_dip : let s := { dark 5 2 with power := { (dark 5 2).power with dipAt := some 0 } }
    (ok (exec (.powerFailure 10000000) s) (fun t => t.powerState == 1 && t.power.failed && !t.frame.run) && ok (exec (.powerFailure 9999999) s) (fun t => t.powerState == 5) &&
      ok (exec (.powerFailure 10000000) (s.setNum (od 0xE000 4) 1)) (fun t => t.powerState == 0)) = true := by decide +kernel
theorem test_wake : (ok (exec (.wake 9) (dark 1 4)) (fun t => t.powerState == 2 && t.num (od 0xE000 7) == 1 && t.power.pulse && !t.power.booted) &&
    ok (exec .tc10Wake { dark 1 4 with power := { (dark 1 4).power with failed := true } }) (fun t => t.powerState == 2 && t.num (od 0xE000 7) == 2 && !t.power.pulse) &&
    ok (exec (.wake 9) (dark 6 4)) (fun t => t.powerState == 6 && t.power.wakeWaits) && ok (exec .tc10Wake (dark 6 4)) (fun t => t.powerState == 6 && t.power.wakeWaits) &&
    ok (exec (.wake 9) (dark 5 4)) (fun t => t.powerState == 5) && ok (exec .tc10Wake (dark 5 4)) (fun t => t.powerState == 5)) = true := by decide +kernel
theorem test_kl15 : (ok (exec (.kl15Change 0 12000 9) State.reset) (fun t => !t.power.kl15 && t.power.idleAt == some 9) &&
    ok (exec (.kl15Change 0 12000 9) (State.reset.setNum (od 0xC000 3) 4)) (fun t => t.power.idleAt == none) &&
    ok (exec (.kl15Change 12000 12000 9) { dark 6 4 with power := { (dark 6 4).power with kl15 := false } }) (fun t => t.power.wakeWaits)) = true := by decide +kernel
/-- KL15 has been low since 0. -/
def parked : State := linked [8] { vendor with power := { vendor.power with kl15 := false, idleAt := some 0 } }
theorem test_sleep : parked.standbyOk = true ∧ (let d := 1000000 * parked.num (od 0xE000 6)
    (ok (exec (.offDelayExpire d) parked) (fun t => t.powerState == 1) && ok (exec (.offDelayExpire (d - 1)) parked) (fun t => t.powerState == 2) &&
      ok (exec .tc10SleepRequest parked) (fun t => t.powerState == 1 && t.num (od 0x1180 0x14) == 1) &&
      ok (exec .tc10SleepRequest (linked [8] vendor)) (fun t => t.powerState == 2 && t.log.seq == 1)) = true) := by decide +kernel
theorem test_save : let s := { dark 6 4 with power := { (dark 6 4).power with shutAt := some 0 } }
    (ok (exec (.shutdownSaveTimeout 200000000) s) (fun t => t.powerState == 1 && !t.frame.run) && ok (exec (.shutdownSaveTimeout 199999999) s) (fun t => t.powerState == 6)) = true := by decide +kernel
theorem test_pll : (ok (exec (.pllLockFailure 5) { State.reset with frame := { State.reset.frame with run := true } }) (fun t => t.flashNum (odCore 0x6100 5 1) == 2) &&
    ok (exec (.pllLockFailure 20) State.reset) (fun t => bitAt t.ext.failed 1) && ok (exec (.pllLockFailure 51) State.reset) (fun t => t.num (od 0xA030 9) == 3) &&
    ok (exec (.pllLockFailure 55) State.reset) (fun t => bitAt (t.num (od 0xA000 0x0A)) 3 && t.num (od 0xA000 2) == 3 && !t.sched.running_) &&
    ok (exec (.pllLockFailure 16) State.reset) (fun t => t.safety.linePow && bitAt (t.num (od 0xA000 0x0A)) 2)) = true := by decide +kernel
theorem test_sensors : (ok (exec (.sensorSample (2000 :: List.replicate 22 400) 70000 9) State.reset) (fun t => t.int (od 0xE020 1) == 2000 && t.int (od 0xE020 23) == 400 && t.num (od 0xE000 3) == 65535 && t.power.overNow && t.safety.linePow && bitAt (t.num (od 0xA000 0x0A)) 2) &&
    ok (exec (.sensorSample (1999 :: List.replicate 22 400) 1 9) State.reset) (fun t => !t.safety.linePow && t.num (od 0xE000 3) == 1)) = true := by decide +kernel

/-! Diagnostics (R542-R544). -/

/-- Both HOST ports up, the tester's address pair known, three announcements owed. -/
def bench : State := { ((linked [8, 9] (unshaped vendor)).modHost 0 (fun x => { x with macs := [(0x0A000002, zeros 6)] })).modNet (fun n => { n with announce := n.announce.set 0 3 }) with
  log := { vendor.log with srv := true, dtcs := [0x3002] } }
def tester (b : Bytes) (conn : Fin 3 := 0) : DoipReq := { host := 0, srcIp := 0x0A000002, srcPort := 999, conn := conn, version := 2, body := b, t := 1000 }
theorem wit_bench : bench.canReply 0 0x0A000002 ∧ bench.canReply 0 0xFFFFFFFF := by decide +kernel
/-- The command has sent these DoIP messages. -/
def tells (o : Out) (ms : List (Nat × Bytes)) (p : State → Bool := fun _ => true) : Bool :=
  ok o (fun t => t.net.sent.map (fun f => (f.port, f.dstIp, f.sport, f.dport, f.payload)) ==
    ms.map (fun m => (8, 0x0A000002, 13400, 999, [2, 0xFD] ++ natBe 2 m.1 ++ natBe 4 m.2.length ++ m.2)) && p t)
theorem test_announce : ok (exec (.doipVehicleAnnouncement 0) bench) (fun t => t.net.announce[(0 : Fin 2)] == 2 &&
    t.net.sent.map (fun f => (f.port, f.dstIp, f.dport, f.payload)) == [(8, 0xFFFFFFFF, 13400, [2, 0xFD, 0, 4, 0, 0, 0, 32] ++ bench.vehicleId)]) = true := by decide +kernel
theorem test_doip : (tells (exec (.doipVehicleIdentification (tester [])) bench) [(4, bench.vehicleId)] && tells (exec (.doipVehicleIdentification (tester (List.replicate 17 0xFF))) bench) [(4, bench.vehicleId)] &&
    tells (exec (.doipVehicleIdentification (tester ([1] ++ zeros 5))) bench) [] && tells (exec (.doipEntityStatus (tester [])) bench) [(0x4002, [1, 2, 0, 0, 0, 16, 0])] &&
    tells (exec (.doipPowerMode (tester [])) bench) [(0x4004, [0])] && tells (exec (.doipAliveCheck (tester [])) bench) [(8, [0x44, 0x10])] &&
    tells (exec (.doipGenericNack (tester [])) bench) []) = true := by decide +kernel
/-- Connection 1 is routed to tester 0x0E80, in the extended session, with WORKSHOP or without. -/
def routed (ext work : Bool) (s : State) : State := s.modDoip 1 (fun _ => { routed := true, tester := 0x0E80, extended := ext, workshop := work, last := 1 })
/-- R542: activated; a foreign type; a foreign source; a third connection. -/
theorem test_routing : (tells (exec (.doipRoutingActivation (tester [0x0E, 0x80, 0, 0, 0, 0, 0])) bench) [(6, [0x0E, 0x80, 0x44, 0x10, 0x10, 0, 0, 0, 0])] (fun t => t.doip[(0 : Fin 2)] == { routed := true, tester := 0x0E80, last := 1000 }) &&
    tells (exec (.doipRoutingActivation (tester [0x0E, 0x80, 1, 0, 0, 0, 0])) bench) [(6, [0x0E, 0x80, 0x44, 0x10, 6, 0, 0, 0, 0])] (fun t => t.doip == bench.doip) &&
    tells (exec (.doipRoutingActivation (tester [0x0D, 0xFF, 0, 0, 0, 0, 0])) bench) [(6, [0x0D, 0xFF, 0x44, 0x10, 0, 0, 0, 0, 0])] (fun t => t.doip == bench.doip) &&
    tells (exec (.doipRoutingActivation (tester [0x0E, 0x80, 0, 0, 0, 0, 0] 2)) bench) [(6, [0x0E, 0x80, 0x44, 0x10, 1, 0, 0, 0, 0])]) = true := by decide +kernel
theorem test_diag : (tells (exec (.doipDiagnosticMessage (tester [0x0E, 0x80, 0x44, 0x10, 0x3E, 0] 1)) (routed false false bench)) [(0x8002, [0x44, 0x10, 0x0E, 0x80, 0]), (0x8001, [0x44, 0x10, 0x0E, 0x80, 0x7E, 0])] &&
    tells (exec (.doipDiagnosticMessage (tester [0x0E, 0x81, 0x44, 0x10, 0x3E, 0] 1)) (routed false false bench)) [(0x8003, [0x44, 0x10, 0x0E, 0x81, 2])] &&
    tells (exec (.doipDiagnosticMessage (tester [0x0E, 0x80, 0x44, 0x11, 0x3E, 0] 1)) (routed false false bench)) [(0x8003, [0x44, 0x11, 0x0E, 0x80, 3])]) = true := by decide +kernel
/-- A service of connection 1 answers so. -/
def serves (i : DoipReq → Instr) (b : Bytes) (s : State) (a : Bytes) (p : Doip → Bool := fun _ => true) : Bool :=
  tells (exec (i (tester b 1)) s) [(0x8001, [0x44, 0x10, 0x0E, 0x80] ++ a)] (fun t => p (t.doip[(1 : Fin 2)]))
theorem test_uds : (serves .diagnosticSessionControl [0x10, 1] (routed true true bench) [0x50, 1, 0, 50, 1, 0xF4] (fun x => !x.extended && !x.workshop && x.last == 1000) &&
    serves .diagnosticSessionControl [0x10, 3] (routed false false bench) [0x50, 3, 0, 50, 1, 0xF4] (fun x => x.extended) &&
    serves .ecuReset [0x11, 1] (routed false false bench) [0x7F, 0x11, 0x7F] && serves .clearDiagnosticInformation [0x14, 0xFF, 0xFF, 0xFF] (routed true true bench) [0x54] &&
    serves .readDtcInformation [0x19, 2, 8] bench [] == false && serves .readDtcInformation [0x19, 2, 8] (routed false false bench) [0x59, 2, 9, 0x5A, 0x30, 2, 9] &&
    serves .readDtcInformation [0x19, 1, 1] (routed false false bench) [0x59, 1, 9, 1, 0, 1] && serves .readDtcInformation [0x19, 3, 1] (routed false false bench) [0x7F, 0x19, 0x12] &&
    serves .readDataByIdentifier [0x22, 1, 1] (routed false false bench) ([0x62, 1, 1, 0]) && serves .readDataByIdentifier [0x22, 9, 9] (routed false false bench) [0x7F, 0x22, 0x31]) = true := by decide +kernel
theorem test_uds_reset : (ok (exec (.ecuReset (tester [0x11, 1] 1)) (routed true true bench)) (fun t => t.powerState == 2 && t.num (od 0xE000 7) == 4 && t.hap.sessions == []) &&
    serves .ecuReset [0x11, 1] { routed true true bench with frame := { bench.frame with run := true } } [0x7F, 0x11, 0x22] &&
    ok (exec (.clearDiagnosticInformation (tester [0x14, 0xFF, 0xFF, 0xFF] 1)) (routed true true bench)) (fun t => !t.log.srv && t.log.dtcs == [])) = true := by decide +kernel
theorem test_seed : (ok (exec (.securityAccessRequestSeed (tester [0x27, 1] 1)) (routed true false bench)) (fun t => (t.doip[(1 : Fin 2)]).seed.any (fun n => n.at_ == 1000)) &&
    serves .securityAccessRequestSeed [0x27, 1] (routed true false { bench with sec := { bench.sec with lockoutEnd := 1001 } }) [0x7F, 0x27, 0x37] &&
    serves .securityAccessSendKey ([0x27, 2] ++ zeros 32) (routed true false bench) [0x7F, 0x27, 0x24]) = true := by decide +kernel
/-- A seed has been given, and a workshop verifier is stored: the proof meets its clause. -/
def seeded : State := (bench.setOct (od 0xB000 4) (natLe 32 99)).modDoip 1 (fun _ => { routed := true, tester := 0x0E80, extended := true, seed := some { kind := 1, bytes := natLe 32 3, at_ := 900 } })
theorem wit_seeded : (∀ n ∈ (seeded.doip[(1 : Fin 2)]).seed, n.good 1 1000 = true) ∧ (seeded.doip[(1 : Fin 2)]).seed.isSome = true ∧ (seeded.oct (od 0xB000 4)).isEmpty = false ∧ (seeded.at 9).gateShut = false := by decide +kernel
theorem test_routine : (serves .routineControl [0x31, 1, 2, 1] (routed true true bench) [0x71, 1, 2, 1] && serves .routineControl [0x31, 1, 2, 2] (routed true true bench) [0x7F, 0x31, 0x31] &&
    serves .testerPresent [0x3E, 0] (routed true false bench) [0x7E, 0] (fun x => x.last == 1000) && tells (exec (.testerPresent (tester [0x3E, 0x80] 1)) (routed true false bench)) [] (fun t => (t.doip[(1 : Fin 2)]).last == 1000)) = true := by decide +kernel
theorem test_s3 : (ok (exec (.s3Timeout 1 5000000001) (routed true true bench)) (fun t => t.doip[(1 : Fin 2)] == { routed := true, tester := 0x0E80, last := 1 }) &&
    ok (exec (.s3Timeout 1 5000000000) (routed true true bench)) (fun t => (t.doip[(1 : Fin 2)]).workshop) && ok (exec (.doipConnectionClose 1) (routed true true bench)) (fun t => t.doip[(1 : Fin 2)] == {})) = true := by decide +kernel

/-! Well-formedness: an ill-formed term for each check. -/

theorem wf_time : (Instr.wake (2 ^ 48 * 1000000000)).wf = false ∧ (Instr.wake (2 ^ 48 * 1000000000 - 1)).wf = true := by decide
theorem wf_writer : (Instr.activate { session := 2 ^ 32 } 1 0).wf = false := by decide
theorem wf_frame : (Instr.arpRequest 8 { bytes := zeros 13 }).wf = false ∧ (Instr.arpRequest 8 { bytes := zeros 14 }).wf = true := by decide
theorem wf_msg : (Instr.msgRdata { ddev := 2 ^ 16 } {}).wf = false ∧ (Instr.msgRdata { dstop := 25 } {}).wf = false ∧ (Instr.msgRdata { sstop := 25 } {}).wf = false ∧
    (Instr.msgRdata { part := 8 } {}).wf = false ∧ (Instr.msgRdata { offset := 2 ^ 20 } {}).wf = false ∧ (Instr.msgRdata { data := zeros 31 } {}).wf = false ∧
    (Instr.msgRdata { data := zeros 160 } {}).wf = false ∧ (Instr.msgRdata { data := zeros 128 } {}).wf = true := by decide +kernel
theorem wf_hap : (Instr.hapOpen { (hap []) with srcPort := 65536 }).wf = false ∧ (Instr.hapOpen (hap (zeros 1473))).wf = false := by decide +kernel
theorem wf_doip : (Instr.doipAliveCheck { tester [] with version := 256 }).wf = false ∧ (Instr.recoveryEnd { rec4 0 [] 1 with offset := 2 ^ 32 }).wf = false := by decide
theorem wf_cal : (Instr.calEvaluate 1 [{ want := [0, 0, 0, 0, 0] }]).wf = false ∧ (Instr.calEvaluate (2 ^ 32) []).wf = false := by decide
theorem wf_sync : (Instr.syncReceive 8 { interval := 128 }).wf = false ∧ (Instr.messageIntervalRequest 8 (-129)).wf = false := by decide
theorem wf_fields : (Instr.firstResolutionReport (2 ^ 32)).wf = false ∧ (Instr.tinfo 0 0 (2 ^ 64) 0).wf = false ∧
    (Instr.requestTimeout 0 65536 0).wf = false ∧ (Instr.pfcPauseReceive 8 0 65536 .clean).wf = false ∧ (Instr.peerAssemblyClose 65536 0).wf = false ∧
    (Instr.exchangeBatch 0 (2 ^ 32)).wf = false ∧ (Instr.slotEntryBegin 0 20000).wf = false ∧ (Instr.hollyhockEntry 0 20000).wf = false ∧
    (Instr.clockMonitor (2 ^ 32)).wf = false ∧ (Instr.eventNotify (2 ^ 32) 0).wf = false ∧ (Instr.pdelayResponseReceive 8 { t4 := 2 ^ 80 }).wf = false ∧
    (Instr.cbResetTimeout 4095 0).wf = false := by decide
theorem wf_memory : (Instr.dramRead (2 ^ 36) 1 .clean 0).wf = false ∧ (Instr.dramRead 0 0 .clean 0).wf = false ∧ (Instr.dramWrite 0 []).wf = false ∧
    (Instr.hyperramRead (2 ^ 24) 1 .clean .clean 0).wf = false ∧ (Instr.hyperramWrite (2 ^ 24) [1] false false).wf = false ∧ (Instr.patrolScrub 0 (2 ^ 30) .clean 0).wf = false := by decide
theorem wf_sensors : (Instr.sensorSample [] 0 0).wf = false ∧ (Instr.sensorSample (List.replicate 23 32768) 0 0).wf = false ∧ (Instr.sensorSample (List.replicate 23 0) (2 ^ 32) 0).wf = false ∧
    (Instr.supplyBandChange 100001 0 0).wf = false := by decide
/-- A BLOB longer than the heap is ill-formed, however it reads. -/
theorem wf_blob (w : Writer) (b : Bytes) (h : blobMax < b.length) : (Instr.schedule w b).wf = false ∧ (Instr.validation w 0 b).wf = false ∧
    (Instr.attestNonce w b).wf = false ∧ (Instr.txSa w 0 b).wf = false ∧ (Instr.rxSa w 0 b).wf = false ∧ (Instr.authorityKeyWrite w 0 b).wf = false := by
  simp [Instr.wf]; omega
theorem wf_boot : (Instr.primroseBoot true true [(65536, 0)] 0).wf = false ∧ (Instr.primroseBoot true true [(0, 256)] 0).wf = false := by decide

end Sys2Proof.Tests
end

