-- ==== Sys2Proof/Proofs/FrameCalm.lean ====
section
/-! SUPPORT. What the units of the main channel leave of the two frames in flight and of the result stream while they end tasks, dispatch,
raise events and settle the verdict: the relation `Calm`, one rule per operation of the state, and a rule per shared operation built of them. -/

namespace Sys2Proof.Machine

/-- What stands fixed of the frames from one boundary to the next (R26-R28): RUN, the frame times, numbers and sweeps of the frames in flight,
and the writes that wait for a boundary. -/
structure Standing where
  run : Bool
  period : Nat
  launch : Nat
  lastFrame : Nat
  ing : Nat
  start : Nat
  end_ : Nat
  comp : Nat
  compEnd : Nat
  waiting : List PendWrite

/-- The standing part of a state. -/
def State.standing (s : State) : Standing :=
  { run := s.frame.run, period := s.frame.period, launch := s.frame.launch, lastFrame := s.frame.lastFrame
    ing := s.frame.ing.n, start := s.frame.ing.start, end_ := s.frame.ing.end_
    comp := s.frame.comp.n, compEnd := s.frame.comp.end_, waiting := s.dict.waiting }

/-! The fields of a state whose standing part is known. -/

theorem State.run_of {s : State} {x : Standing} (h : s.standing = x) : s.frame.run = x.run := by rw [← h]; rfl
theorem State.lastFrame_of {s : State} {x : Standing} (h : s.standing = x) : s.frame.lastFrame = x.lastFrame := by rw [← h]; rfl
theorem State.ing_of {s : State} {x : Standing} (h : s.standing = x) : s.frame.ing.n = x.ing := by rw [← h]; rfl
theorem State.start_of {s : State} {x : Standing} (h : s.standing = x) : s.frame.ing.start = x.start := by rw [← h]; rfl
theorem State.end_of {s : State} {x : Standing} (h : s.standing = x) : s.frame.ing.end_ = x.end_ := by rw [← h]; rfl
theorem State.comp_of {s : State} {x : Standing} (h : s.standing = x) : s.frame.comp.n = x.comp := by rw [← h]; rfl
theorem State.compEnd_of {s : State} {x : Standing} (h : s.standing = x) : s.frame.comp.end_ = x.compEnd := by rw [← h]; rfl
theorem State.waiting_of {s : State} {x : Standing} (h : s.standing = x) : s.dict.waiting = x.waiting := by rw [← h]; rfl

theorem State.standing_congr {s t : State} (hf : t.frame = s.frame) (hd : t.dict.waiting = s.dict.waiting) :
    t.standing = s.standing := by
  simp [State.standing, hf, hd]

/-- The objects of the record stream and of the deadline that other units leave alone: RESULT_IP, the counts of the result stream
(OD 0x1A00.04-.07) and of late frames. -/
def recordKeys : List Nat := [od 0x1000 3, od 0x1A00 4, od 0x1A00 5, od 0x1A00 6, od 0x1A00 7, od 0x9F00 2]

/-- Objects that the units of a deadline write: neither a record key nor the causes of FALLBACK. -/
def freeKey (k : Nat) : Bool := k != od 0xA000 3 && !recordKeys.contains k

/-- An object of none of the four indices is free. -/
theorem freeKey_od {i j : Nat} (hj : j < 256) (h : i ≠ 0x1000 ∧ i ≠ 0x1A00 ∧ i ≠ 0x9F00 ∧ i ≠ 0xA000) : freeKey (od i j) = true := by
  obtain ⟨h1, h2, h3, h4⟩ := h
  simp only [freeKey, recordKeys, od, List.contains_eq_mem, List.mem_cons, List.not_mem_nil, or_false, Bool.and_eq_true, bne_iff_ne, ne_eq,
    Bool.not_eq_true', decide_eq_false_iff_not, not_or]
  omega

theorem freeKey_odCore {b : Nat} {c : Fin 16} {j : Nat} (hb : 0x6000 ≤ b ∧ b < 0x8000) (hj : j < 256) : freeKey (odCore b c j) = true :=
  freeKey_od hj (by have := c.isLt; omega)

theorem freeKey_taskOd {t j : Nat} (hj : j < 256) : freeKey (taskOd t j) = true :=
  freeKey_od hj (by have := Nat.mod_lt t (show 0 < 256 by decide); omega)

/-- A bit of a mask is the library's test of that bit. -/
theorem bitAt_eq_testBit (v i : Nat) : bitAt v i = v.testBit i := by
  rw [bitAt, Nat.testBit_eq_decide_div_mod_eq]
  rfl

theorem bitAt_setBit (v i j : Nat) : bitAt (setBit v i) j = (bitAt v j || decide (i = j)) := by
  rw [bitAt_eq_testBit, bitAt_eq_testBit, setBit, Nat.testBit_or, Nat.testBit_two_pow]

/-- A frame in flight only gets worse (R36, R37): its status, the primary list and its deadline. -/
structure FrameCtx.Worse (c d : FrameCtx) : Prop where
  status : c.status ≤ d.status
  primary : c.marigoldPrimary = true → d.marigoldPrimary = true
  dropped : c.dropped = true → d.dropped = true

theorem FrameCtx.Worse.refl (c : FrameCtx) : c.Worse c := ⟨Nat.le_refl _, id, id⟩

theorem FrameCtx.Worse.trans {a b c : FrameCtx} (h : a.Worse b) (k : b.Worse c) : a.Worse c :=
  ⟨h.status.trans k.status, fun x => k.primary (h.primary x), fun x => k.dropped (h.dropped x)⟩

/-- What an update of the first element that is picked can give. -/
theorem mem_modifyFirst {α : Type} {p : α → Bool} {f : α → α} {l : List α} {x : α} (h : x ∈ modifyFirst p f l) :
    x ∈ l ∨ ∃ y ∈ l, p y = true ∧ x = f y := by
  induction l with
  | nil => exact .inl h
  | cons y l ih =>
    rw [modifyFirst] at h
    split at h
    case isTrue hy =>
      rcases List.mem_cons.1 h with rfl | h
      · exact .inr ⟨y, List.mem_cons_self, hy, rfl⟩
      · exact .inl (List.mem_cons_of_mem _ h)
    case isFalse =>
      rcases List.mem_cons.1 h with rfl | h
      · exact .inl List.mem_cons_self
      · rcases ih h with h | ⟨z, hz, hp, rfl⟩
        · exact .inl (List.mem_cons_of_mem _ h)
        · exact .inr ⟨z, List.mem_cons_of_mem _ hz, hp, rfl⟩

/-- An INVALID frame with Marigold's list primary (R36). -/
theorem FrameCtx.Worse.invalid (c : FrameCtx) : c.Worse { c.worse 3 with marigoldPrimary := true } := ⟨Nat.le_max_left _ _, fun _ => rfl, id⟩

/-- Every task of the frame has come to its end (R36, R379). -/
def State.allEnded (s : State) : Prop := ∀ i ∈ s.sched.insts, i.state.unfinished = false

/-- What the units of the main channel leave of the frames and records of `s` in `t`. -/
structure Calm (s t : State) : Prop where
  standing : t.standing = s.standing
  net : t.net = s.net
  power : t.power = s.power
  record : ∀ k ∈ recordKeys, t.num k = s.num k
  faults : ∀ b, bitAt (s.num (od 0xA000 3)) b = true → bitAt (t.num (od 0xA000 3)) b = true
  fox : t.safety.foxAsserts = s.safety.foxAsserts
  verdict : s.safety.verdict ≠ none → t.safety.verdict ≠ none
  worse : s.frame.comp.Worse t.frame.comp
  noInsts : s.sched.insts = [] → t.sched.insts = []
  ended : s.allEnded → t.allEnded

namespace Calm

variable {s t u : State}

theorem refl (s : State) : Calm s s :=
  ⟨rfl, rfl, rfl, fun _ _ => rfl, fun _ => id, rfl, id, .refl _, id, id⟩

theorem trans (h : Calm s t) (k : Calm t u) : Calm s u where
  standing := k.standing.trans h.standing
  net := k.net.trans h.net
  power := k.power.trans h.power
  record x hx := (k.record x hx).trans (h.record x hx)
  faults b hb := k.faults b (h.faults b hb)
  fox := k.fox.trans h.fox
  verdict hv := k.verdict (h.verdict hv)
  worse := h.worse.trans k.worse
  noInsts hs := k.noInsts (h.noInsts hs)
  ended hs := k.ended (h.ended hs)

/-! One rule per operation of the state. -/

/-- An operation on none of the parts concerned. -/
theorem same (h : Calm s t) (hd : u.dict = t.dict) (hf : u.standing = t.standing) (hw : t.frame.comp.Worse u.frame.comp)
    (hn : u.net = t.net) (hp : u.power = t.power) (hs : u.safety = t.safety) (hi : u.sched.insts = t.sched.insts) : Calm s u :=
  h.trans ⟨hf, hn, hp, fun k _ => State.num_congr hd k, fun b => by rw [State.num_congr hd]; exact id, by rw [hs], by rw [hs]; exact id, hw,
    by rw [hi]; exact id, by unfold State.allEnded; rw [hi]; exact id⟩

theorem ite {c : Prop} [Decidable c] (h : Calm s t) (k : Calm s u) : Calm s (if c then t else u) := ite_keep (P := Calm s) h k

theorem foldl {β : Type} {f : State → β → State} {l : List β} (h : Calm s t) (hf : ∀ t x, Calm s t → Calm s (f t x)) :
    Calm s (l.foldl f t) :=
  foldl_keep (P := Calm s) hf h

theorem foldlMem {β : Type} {f : State → β → State} {l : List β} (h : Calm s t) (hf : ∀ x ∈ l, ∀ t, Calm s t → Calm s (f t x)) :
    Calm s (l.foldl f t) := by
  induction l generalizing t with
  | nil => exact h
  | cons x l ih => exact ih (hf x List.mem_cons_self t h) fun y hy => hf y (List.mem_cons_of_mem _ hy)

/-- An operation on the dictionary alone. -/
theorem ofDict {d : Dict} (h : Calm s t) (hw : d.waiting = t.dict.waiting) (hk : ∀ k, freeKey k = false → State.num { t with dict := d } k = t.num k) :
    Calm s { t with dict := d } :=
  h.trans ⟨State.standing_congr rfl hw, rfl, rfl, fun k hm => hk k (by simp [freeKey, hm]),
    fun b => by rw [hk (od 0xA000 3) (by simp [freeKey])]; exact id, rfl, id, .refl _, id, id⟩

theorem setNum {k : Nat} {v : Int} (h : Calm s t) (hk : freeKey k = true) : Calm s (t.setNum k v) :=
  h.ofDict rfl (fun j hj => State.num_setNum_other t v (by rintro rfl; simp [hk] at hj))

theorem bump {k n : Nat} (h : Calm s t) (hk : freeKey k = true) : Calm s (t.bump k n) := h.setNum hk

theorem setMask {k b : Nat} (h : Calm s t) (hk : freeKey k = true) : Calm s (t.setMask k b) := h.setNum hk

theorem store {k : Nat} {v : OdVal} (h : Calm s t) (hk : freeKey k = true) : Calm s (t.store k v) :=
  h.ofDict rfl (fun j hj => by
    have hne : j ≠ k := by rintro rfl; simp [hk] at hj
    exact congrArg (fun v => (OdVal.toInt v).toNat) (State.obj_store_other t v hne))

theorem drawn (h : Calm s t) : Calm s t.drawn := h.same rfl rfl (.refl _) rfl rfl rfl rfl
theorem post {ty : Nat} {m : Msg} (h : Calm s t) : Calm s (t.post ty m) := h.same rfl rfl (.refl _) rfl rfl rfl rfl
theorem setIng {x : Ingest} (h : Calm s t) : Calm s { t with ing := x } := h.same rfl rfl (.refl _) rfl rfl rfl rfl
theorem setCells {x : CellTable} (h : Calm s t) : Calm s { t with cells := x } := h.same rfl rfl (.refl _) rfl rfl rfl rfl
theorem modCore {c : Fin 16} {f : Core → Core} (h : Calm s t) : Calm s (t.modCore c f) := h.same rfl rfl (.refl _) rfl rfl rfl rfl
theorem modPad {c : Fin 16} {f : Pad → Pad} (h : Calm s t) : Calm s (t.modPad c f) := h.modCore
theorem modTable {n : Nat} {f : PTable → PTable} (h : Calm s t) : Calm s (t.modTable n f) := h.same rfl rfl (.refl _) rfl rfl rfl rfl
theorem setQueue {q : Fin 24} {x : Queue} (h : Calm s t) : Calm s (t.setQueue q x) := h.same rfl rfl (.refl _) rfl rfl rfl rfl
theorem peonyEnd {c p : Nat} (h : Calm s t) : Calm s (t.peonyEnd c p) := h.same rfl rfl (.refl _) rfl rfl rfl rfl

theorem modSched {f : Sched → Sched} (h : Calm s t) (hf : ∀ x, (f x).insts = x.insts := by exact fun _ => rfl) : Calm s (t.modSched f) :=
  h.same rfl rfl (.refl _) rfl rfl rfl (hf _)

theorem modSafety {f : Safety → Safety} (h : Calm s t) (hf : ∀ x, (f x).foxAsserts = x.foxAsserts := by exact fun _ => rfl)
    (hv : ∀ x, x.verdict ≠ none → (f x).verdict ≠ none := by exact fun _ => id) : Calm s (t.modSafety f) :=
  h.trans ⟨rfl, rfl, rfl, fun _ _ => rfl, fun _ => id, hf _, hv _, .refl _, id, id⟩

theorem modComp {f : FrameCtx → FrameCtx} (h : Calm s t) (hw : ∀ c : FrameCtx, c.Worse (f c))
    (hn : ∀ c, (f c).n = c.n := by exact fun _ => rfl) (he : ∀ c, (f c).end_ = c.end_ := by exact fun _ => rfl) :
    Calm s (t.modComp f) :=
  h.same rfl (by simp [State.standing, hn, he]) (hw _) rfl rfl rfl rfl

theorem causeComp {w : CauseWord} {b : Nat} (h : Calm s t) : Calm s (t.causeComp w b) := by
  unfold State.causeComp
  cases w <;> exact h.modComp fun _ => ⟨Nat.le_max_left _ _, id, id⟩

theorem raise {c i v : Nat} {b : Bool} (h : Calm s t) : Calm s (t.raise c i v b) := by
  have hd : (t.raise c i v b).dict.waiting = t.dict.waiting := by
    unfold State.raise
    dsimp only
    repeat' split
    all_goals rfl
  refine h.trans ⟨State.standing_congr (State.raise_frame ..) hd, State.raise_net .., State.raise_power .., fun k hk => State.num_raise _ _ _ _ _ ?_,
    fun x hx => ?_, by rw [State.raise_safety], by rw [State.raise_safety]; exact id, by rw [State.raise_frame]; exact .refl _,
    by rw [State.raise_sched]; exact id, by unfold State.allEnded; rw [State.raise_sched]; exact id⟩
  · rintro rfl
    exact absurd hk (by decide)
  · rwa [State.num_raise _ _ _ _ _ (by decide)]

theorem countRaise {k c i : Nat} {b : Bool} (h : Calm s t) (hk : freeKey k = true) : Calm s (t.countRaise k c i b) := (h.bump hk).raise

theorem raiseIng {c i v : Nat} {b : Bool} (h : Calm s t) : Calm s (t.raiseIng c i v b) := by
  unfold State.raiseIng
  exact h.ite (h.raise.same rfl rfl (.refl _) rfl rfl rfl rfl)

/-- A task that is put in a state comes to its end, unless some task has not at the beginning. -/
theorem modInst {a b : Nat} {f : Inst → Inst} (h : Calm s t) (hf : s.allEnded → ∀ x, (f x).state.unfinished = false) :
    Calm s (t.modInst a b f) := by
  refine ⟨h.standing, h.net, h.power, h.record, h.faults, h.fox, h.verdict, h.worse, fun h0 => ?_, fun he i hi => ?_⟩
  · simp [State.modInst, State.modSched, h.noInsts h0, modifyFirst]
  · rcases mem_modifyFirst hi with hi | ⟨x, -, -, rfl⟩
    · exact h.ended he i hi
    · exact hf he x

end Calm

end Sys2Proof.Machine
end

