-- ==== Sys2Proof/Proofs/CalmUnits.lean ====
section
/-! SUPPORT. The shared operations of the scheduler, the safety units and the scratchpads leave the frames and records as `Calm` says. -/

namespace Sys2Proof.Machine

/-- The best of a list of instances is one of them. -/
theorem Sched.mem_of_best {x : Sched} {l : List Inst} {i : Inst} (h : x.best l = some i) : i ∈ l := by
  induction l generalizing i with
  | nil => cases h
  | cons a l ih =>
    rw [Sched.best] at h
    split at h
    · cases h
      exact List.mem_cons_self
    · rename_i j e
      split at h <;> cases h
      · exact List.mem_cons_self
      · exact List.mem_cons_of_mem _ (ih e)

namespace Calm

variable {s t : State}

/-! Ends of tasks (R215, R216, R379). -/

theorem padUncorrectable {c : Fin 16} {a : Nat} (h : Calm s t) : Calm s (t.padUncorrectable c a) := by
  unfold State.padUncorrectable
  exact ((h.countRaise (freeKey_odCore (by decide) (by decide))).setNum (freeKey_odCore (by decide) (by decide))).modPad

theorem recordExc {c : Fin 16} {code pc task d : Nat} (h : Calm s t) : Calm s (t.recordExc c code pc task d) := by
  have hk : ∀ j < 256, freeKey (odCore 0x6102 c j) = true := fun j hj => freeKey_odCore (by decide) hj
  exact ((((h.setNum (hk 1 (by decide))).setNum (hk 2 (by decide))).setNum (hk 3 (by decide))).setNum (hk 4 (by decide))).countRaise
    (hk 8 (by decide))

theorem noteRun {n : Nat} (h : Calm s t) : Calm s (t.noteRun n) := h.drawn.setNum (freeKey_taskOd (by decide))

theorem takeOff {c : Fin 16} (h : Calm s t) : Calm s (t.takeOff c) := by
  unfold State.takeOff
  split
  · exact h
  · exact h.noteRun.modCore.modSched

theorem lose {i : Inst} {d : InstState} (h : Calm s t) (hd : d.unfinished = false) : Calm s (t.lose i d).1 := by
  have hk : ∀ n, freeKey (taskOd n (if d = .ended then 4 else 5)) = true := fun n => freeKey_taskOd (by split <;> decide)
  have h1 := ((h.peonyEnd (c := t.sched.phys i.lcore) (p := (t.sched.descOf i).part)).modInst (a := i.task) (b := i.lcore)
    (f := fun x => { x with state := d, slot := none, saved := none, cur := none }) (fun _ _ => hd)).bump (n := 1) (hk i.task)
  unfold State.lose
  dsimp only
  split
  · exact h1.causeComp
  · refine Calm.foldl (Calm.foldl ?_ fun t c h => h.takeOff) fun t j h => ?_
    · exact (h1.modComp fun _ => .invalid _).raise
    · exact (h.peonyEnd.modInst fun _ _ => rfl).bump (freeKey_taskOd (by decide))

theorem endRunning {c : Fin 16} (h : Calm s t) : Calm s (t.endRunning c).1 := by
  unfold State.endRunning
  split
  · exact h
  · exact h.recordExc.takeOff.lose rfl

theorem endTogether {cs : List (Fin 16)} (h : Calm s t) : Calm s (t.endTogether cs) :=
  (((h.foldl fun _ _ h => h.recordExc.takeOff).foldl fun _ _ h => h.modInst fun _ _ => rfl).foldl fun _ _ h => h.lose rfl)

theorem endEvery (h : Calm s t) : Calm s t.endEvery := h.endTogether

theorem loseAll (h : Calm s t) : Calm s t.loseAll := h.endEvery.foldl fun _ _ h => (h.lose rfl).ite h

/-! Safety states (R386, R427-R429). -/

theorem showSafety (h : Calm s t) : Calm s t.showSafety := by
  unfold State.showSafety
  extract_lets was now s1 s2
  have h1 : Calm s s1 := h.setNum (by decide)
  have h2 : Calm s s2 := (h1.setNum (by decide)).ite h1
  exact h2.raise.ite h2

theorem enterSafe {b : Nat} (h : Calm s t) : Calm s (t.enterSafe b) := by
  have h1 : Calm s (t.setMask (od 0xA000 0x0A) b) := h.setMask (by decide)
  exact h1.ite (h1.modSched.endEvery.raise.showSafety)

/-- A cause of FALLBACK adds its bit to those that hold. -/
theorem setFault {b : Nat} (h : Calm s t) : Calm s (t.setMask (od 0xA000 3) b) := by
  refine h.trans ⟨rfl, rfl, rfl, fun k hk => ?_, fun x hx => ?_, rfl, id, .refl _, id, id⟩
  · exact State.num_setNum_other _ _ (by rintro rfl; exact absurd hk (by decide))
  · rw [State.setMask, State.num_setNum]
    simp [bitAt_setBit, hx]

/-- What follows a cause of FALLBACK (R428, R429). -/
theorem enterFallback_sets {b : Nat} : Calm (t.setMask (od 0xA000 3) b) (t.enterFallback b) := by
  unfold State.enterFallback
  extract_lets before s1 s2 s3
  have h2 : Calm s1 s2 := (refl s1).raise.ite (refl s1)
  have h3 : Calm s1 s3 := h2.enterSafe.ite h2
  exact h3.showSafety

theorem enterFallback {b : Nat} (h : Calm s t) : Calm s (t.enterFallback b) := h.setFault.trans enterFallback_sets

/-- The cause holds from then on (R428). -/
theorem enterFallback_fault {b : Nat} : bitAt ((t.enterFallback b).num (od 0xA000 3)) b = true :=
  enterFallback_sets.faults b (by rw [State.setMask, State.num_setNum, bitAt_setBit]; simp)

theorem setMarigold {v : Nat} (h : Calm s t) : Calm s (t.setMarigold v) := h.setNum (by decide)

theorem stopMarigold (h : Calm s t) : Calm s t.stopMarigold := by
  unfold State.stopMarigold
  extract_lets s1 s2 s3
  have h1 : Calm s s1 := h.setMarigold.modSafety
  have h2 : Calm s s2 := h1.raise
  have h3 : Calm s s3 := h2.ite h2.causeComp
  exact h.ite (h3.enterSafe.ite h3)

theorem declareDoubt {n : Nat} (h : Calm s t) : Calm s (t.declareDoubt n) := by
  unfold State.declareDoubt
  extract_lets first s1 s2
  have h1 : Calm s s1 := h.modSched
  have h2 : Calm s s2 := h1.setNum (by decide)
  exact (h2.raise.ite h2).showSafety

theorem clearDoubt {n : Nat} (h : Calm s t) : Calm s (t.clearDoubt n) := by
  unfold State.clearDoubt
  extract_lets s1
  have h1 : Calm s s1 := h.modSched
  exact ((h1.setNum (by decide)).ite h1).showSafety.ite h

/-! The dispatch decision (R368-R373, R380). -/

theorem showReplica {n v : Nat} {c : Fin 16} (h : Calm s t) : Calm s (t.showReplica n c v) := by
  unfold State.showReplica
  exact h.modPad.modTable

theorem loadReplicas {p : Nat} {c : Fin 16} (h : Calm s t) : Calm s (t.loadReplicas c p) := by
  refine h.foldl fun t n h => ?_
  dsimp only
  split
  · exact h
  · split
    · exact h
    · exact h.ite h.showReplica

theorem closeOld {c : Fin 16} {p w : Nat} (h : Calm s t) : Calm s (t.closeOld c p w) := h.modPad.ite h

theorem grantWin {c : Fin 16} {p w : Nat} (h : Calm s t) : Calm s (t.grantWin c p w) := (h.post.ite h).post.ite (h.post.ite h)

theorem openOne {c : Fin 16} {n w : Nat} {p : WinSpec} {u : State} (h : Calm s t) (e : t.openOne c n p w = some u) : Calm s u := by
  unfold State.openOne at e
  dsimp only at e
  split at e
  · cases e
    exact h
  · split at e
    · cases e
      exact h.closeOld.modPad.grantWin
    · cases e

theorem openList {c : Fin 16} {n : Nat} {l : List (WinSpec × Nat)} {u : State} (h : Calm s t) (e : State.openList c n l t = some u) :
    Calm s u := by
  induction l generalizing t with
  | nil =>
    cases e
    exact h
  | cons y l ih =>
    rw [State.openList] at e
    obtain ⟨v, hv, hu⟩ := Option.bind_eq_some_iff.1 e
    exact ih (h.openOne hv) hu

theorem openNamed {c : Fin 16} {d : TaskDesc} {u : State} (h : Calm s t) (e : t.openNamed c d = some u) : Calm s u := h.openList e

/-- A task that is chosen has not come to its end: nothing is dispatched once every task has. -/
theorem resumeInst {c : Fin 16} {i : Inst} {r : TaskRun} {q : Seq} (h : Calm s t) (hl : ¬ s.allEnded) : Calm s (t.resumeInst c i r q).1 := by
  unfold State.resumeInst
  dsimp only
  split
  · exact h.padUncorrectable.recordExc.lose rfl
  · with_reducible exact (h.modInst fun e => absurd e hl).modCore.loadReplicas

theorem startInst {c : Fin 16} {i : Inst} (h : Calm s t) (hl : ¬ s.allEnded) : Calm s (t.startInst c i).1 := by
  unfold State.startInst
  dsimp only
  split
  · exact h.resumeInst hl
  · split
    · exact (h.recordExc.countRaise (freeKey_taskOd (by decide))).lose rfl
    · rename_i u e
      with_reducible exact ((h.openNamed e).modInst fun e => absurd e hl).loadReplicas.modCore

/-- A task that is chosen is READY or PREEMPTED. -/
theorem choice_unended {x : Sched} {c : Nat} {i : Inst} (h : x.choice c = some i) : ∃ j ∈ x.insts, j.state.unfinished = true := by
  have hm := Sched.mem_of_best h
  obtain ⟨hon, hst⟩ := List.mem_filter.1 hm
  refine ⟨i, (List.mem_filter.1 hon).1, ?_⟩
  simp only [Bool.and_eq_true, Bool.or_eq_true, beq_iff_eq] at hst
  rcases hst.1 with e | e <;> rw [e] <;> rfl

theorem askPreempt {c : Fin 16} {i : Inst} {k : Bool} (h : Calm s t) : Calm s (t.askPreempt c i k).1 := by
  unfold State.askPreempt
  dsimp only
  split
  · exact h
  · split
    · split
      · exact h.countRaise (by decide)
      · exact (h.countRaise (by decide)).endRunning
    · with_reducible exact h.modSched

theorem decideOne {c : Fin 16} (h : Calm s t) : Calm s (t.decideOne c).1 := by
  unfold State.decideOne
  dsimp only
  split
  · exact h
  split
  · split
    · with_reducible exact h.modSched
    · split
      · exact h
      · rename_i i e
        refine h.startInst fun he => ?_
        obtain ⟨j, hj, hu⟩ := choice_unended e
        simp [h.ended he j hj] at hu
  · split
    · exact h.askPreempt
    · split
      · exact h
      · split
        · exact h.askPreempt
        · exact h

theorem decideAll {n : Nat} {cs : List (Fin 16)} (h : Calm s t) : Calm s (State.decideAll n t cs) := by
  induction n generalizing t cs with
  | zero => exact h
  | succ n ih =>
    cases cs with
    | nil => exact h
    | cons c cs => exact ih h.decideOne

theorem dispatch {cs : List (Fin 16)} (h : Calm s t) : Calm s (t.dispatch cs) := h.decideAll

/-! Queues and Marigold (R261, R425). -/

theorem driveXoff (h : Calm s t) : Calm s t.driveXoff := by
  unfold State.driveXoff
  extract_lets fills on x s1
  have h1 : Calm s s1 := h.setIng
  exact h1.raiseIng.ite h1

theorem qClear {q : Fin 24} (h : Calm s t) : Calm s (t.qClear q) := h.setQueue.driveXoff.ite h.setQueue

theorem qFlush {q : Fin 24} (h : Calm s t) : Calm s (t.qFlush q) :=
  h.ite (h.qClear.bump (freeKey_od (by decide) (by have := q.isLt; omega)))

theorem restartMarigold (h : Calm s t) : Calm s t.restartMarigold := by
  unfold State.restartMarigold
  extract_lets now s1 recent s2 s3
  have h1 : Calm s s1 := h.qFlush.qFlush
  have h2 : Calm s s2 := h1.modSafety
  have h3 : Calm s s3 := h2.setMarigold.raise
  exact h.ite (h2.stopMarigold.ite (h3.ite h3.causeComp))

/-! The verdict (R416-R421). -/

theorem logDisagreement {code cores : Nat} {d : Bytes} (h : Calm s t) : Calm s (t.logDisagreement code cores d) := h.store (by decide)

theorem quarantineCores {a b : Nat} (h : Calm s t) : Calm s (t.quarantineCores a b) :=
  (h.modSafety.ite (h.modSafety.bump (by decide))).raise

theorem askTarget {n : Nat} (h : Calm s t) : Calm s (t.askTarget n) := h.modSched

theorem disagree {code cores : Nat} {d : Bytes} (h : Calm s t) : Calm s (t.disagree code cores d) := by
  unfold State.disagree
  extract_lets s1 s2 cs s3 s4 before s5 s6
  have h1 : Calm s s1 := h.countRaise (by decide)
  have h2 : Calm s s2 := h1.logDisagreement
  have h3 : Calm s s3 := h2.foldl fun _ _ h => h.askTarget
  have h4 : Calm s s4 := h3.ite h3.modSafety
  have h5 : Calm s s5 := h4.modSafety
  have h6 : Calm s s6 := h5.enterFallback.ite h5
  clear_value before
  split
  · exact h6
  · exact h6.quarantineCores

/-- What follows the registration of a verdict (R417-R420). -/
theorem register_settles {code cores : Nat} {d : Bytes} (hv : t.safety.verdict.isSome = false) :
    Calm (t.modSafety fun x => { x with verdict := some code }) (t.register code cores d) := by
  unfold State.register
  extract_lets s1 s2 s3 s4
  have h2 : Calm s1 s2 := ((refl s1).setNum (by decide)).setNum (by decide)
  have h3 : Calm s1 s3 := h2.ite (h2.modComp (fun _ => by
      split
      · exact ⟨Nat.le_refl _, fun _ => rfl, id⟩
      · exact .invalid _) (fun _ => by split <;> rfl) fun _ => by split <;> rfl)
  have h4 : Calm s1 s4 := h3.modSafety.ite h3
  rw [hv]
  exact (h4.countRaise (by decide)).ite (h4.disagree.ite h4)

theorem register {code cores : Nat} {d : Bytes} (h : Calm s t) : Calm s (t.register code cores d) := by
  cases hv : t.safety.verdict.isSome with
  | false => exact (h.modSafety (hv := fun _ _ => Option.some_ne_none _)).trans (register_settles hv)
  | true =>
    rw [State.register, hv]
    exact h

theorem decideVerdict (h : Calm s t) : Calm s t.decideVerdict := by
  unfold State.decideVerdict
  split
  · exact h.register
  · exact h

theorem registerLast {n : Nat} (h : Calm s t) : Calm s (t.registerLast n) := h.register

theorem mariDeadline (h : Calm s t) : Calm s t.mariDeadline := by
  unfold State.mariDeadline
  extract_lets s1 s2 s3 s4 s5
  have h1 : Calm s s1 := h.modSafety
  have h2 : Calm s s2 := h1.causeComp.ite h1
  have h3 : Calm s s3 := h2.decideVerdict
  have h4 : Calm s s4 := h3.register.ite h3
  have h5 : Calm s s5 := h4.modSafety
  exact h.ite (h1.ite (h5.restartMarigold.ite h5))

theorem finalVerdict (h : Calm s t) : Calm s t.finalVerdict := h.mariDeadline.decideVerdict.registerLast

/-! The deadline (R36, R104, R379, R386). -/

theorem publishCells (h : Calm s t) : Calm s t.publishCells := by
  unfold State.publishCells
  extract_lets c put s1
  have h1 : Calm s s1 := h.foldlMem fun x hx t h => h.setNum (freeKey_od (by
    revert x
    simp) (by decide))
  exact h1.foldlMem fun g hg t h => h.setNum (freeKey_od (by have := List.mem_range.1 hg; omega) (by decide))

theorem reportDone (h : Calm s t) : Calm s t.reportDone := by
  unfold State.reportDone
  extract_lets a s1 b c d e
  have h1 : Calm s s1 := h.modComp fun _ => ⟨Nat.le_refl _, id, id⟩
  exact h.ite h1.setCells.publishCells

theorem cutInst {i : Inst} (h : Calm s t) : Calm s (t.cutInst i) := by
  unfold State.cutInst
  extract_lets d c run s1 s2 s3
  have h1 : Calm s s1 := h.recordExc.takeOff.ite h
  have h2 : Calm s s2 := h1.peonyEnd
  have h3 : Calm s s3 := h2.modInst fun _ _ => by dsimp only; split <;> rfl
  exact h3.bump (freeKey_taskOd (by split <;> decide))

theorem noteOverrun {b : Bool} (h : Calm s t) : Calm s (t.noteOverrun b) := by
  unfold State.noteOverrun
  extract_lets s1 s2
  have h1 : Calm s s1 := h.modSched
  have h2 : Calm s s2 := h1.modSched
  exact h1.declareDoubt.ite (h2.clearDoubt.ite h2)

end Calm

end Sys2Proof.Machine
end

