-- ==== Sys2Proof/Proofs/Deadline.lean ====
section
/-! SUPPORT. E + L of the frame computed (R36, R379, R417): every unfinished task ends, the frame is INVALID if there was one, and the
verdict is final. -/

namespace Sys2Proof.Machine

/-! An update of the one element of a key. -/

theorem modifyFirst_map_key {α κ : Type} {p : α → Bool} {f : α → α} {key : α → κ} (hf : ∀ x, key (f x) = key x) (l : List α) :
    (modifyFirst p f l).map key = l.map key := by
  induction l with
  | nil => rfl
  | cons x l ih =>
    rw [modifyFirst]
    split
    · simp [hf]
    · simp [ih]

/-- Where keys are distinct, the element of the updated key is the updated one. -/
theorem mem_modifyFirst_key {α κ : Type} {p : α → Bool} {f : α → α} {key : α → κ} {k : κ} (hp : ∀ x, p x = true ↔ key x = k) {l : List α}
    (hn : (l.map key).Nodup) {x : α} (hx : x ∈ modifyFirst p f l) : (∃ y ∈ l, x = f y) ∨ (x ∈ l ∧ key x ≠ k) := by
  induction l with
  | nil => cases hx
  | cons y l ih =>
    rw [List.map_cons, List.nodup_cons] at hn
    rw [modifyFirst] at hx
    split at hx
    case isTrue hy =>
      rcases List.mem_cons.1 hx with rfl | hx
      · exact .inl ⟨y, List.mem_cons_self, rfl⟩
      · refine .inr ⟨List.mem_cons_of_mem _ hx, fun e => hn.1 ?_⟩
        rw [(hp y).1 hy, ← e]
        exact List.mem_map_of_mem hx
    case isFalse hy =>
      rcases List.mem_cons.1 hx with rfl | hx
      · exact .inr ⟨List.mem_cons_self, fun e => hy ((hp x).2 e)⟩
      · rcases ih hn.2 hx with ⟨z, hz, rfl⟩ | ⟨hx, e⟩
        · exact .inl ⟨z, List.mem_cons_of_mem _ hz, rfl⟩
        · exact .inr ⟨List.mem_cons_of_mem _ hx, e⟩

/-! Unfinished instances end (R379). -/

theorem State.takeOff_insts (s : State) (c : Fin 16) : (s.takeOff c).sched.insts = s.sched.insts := by
  unfold State.takeOff
  split <;> rfl

/-- A task as E + L leaves it: a RUNNING one ENDED, any other DROPPED. -/
def Inst.cut (run : Bool) (x : Inst) : Inst := { x with state := if run then .ended else .dropped, slot := none, saved := none, cur := none }

theorem Inst.cut_unfinished (run : Bool) (x : Inst) : (x.cut run).state.unfinished = false := by cases run <;> rfl

theorem State.cutInst_insts (s : State) (i : Inst) : (s.cutInst i).sched.insts =
    modifyFirst (fun j => j.task == i.task && j.lcore == i.lcore) (Inst.cut (i.state == .running)) s.sched.insts := by
  have hs : ∀ c e n, ((s.recordExc c 0x0C e n 0).takeOff c).sched.insts = s.sched.insts := fun c e n => by
    rw [State.takeOff_insts, State.recordExc, State.countRaise_sched]
    rfl
  unfold State.cutInst
  extract_lets d c run s1 s2 s3
  have h1 : s1.sched.insts = s.sched.insts := by
    simp only [s1]
    split
    · exact hs _ _ _
    · rfl
  exact congrArg (modifyFirst _ _) h1

/-- A scheduled task's number and logical core. -/
def Inst.key (i : Inst) : Nat × Nat := (i.task, i.lcore)

/-- Once the listed instances are cut none is unfinished, where every unfinished one is listed. -/
theorem State.allEnded_of_cut {l : List Inst} {s : State} (hn : (s.sched.insts.map Inst.key).Nodup)
    (hl : ∀ i ∈ s.sched.insts, i.state.unfinished = true → i.key ∈ l.map Inst.key) : (l.foldl (fun s i => s.cutInst i) s).allEnded := by
  induction l generalizing s with
  | nil =>
    intro i hi
    by_contra h
    exact absurd (hl i hi (by simpa using h)) (by simp)
  | cons j l ih =>
    refine ih ?_ fun i hi hu => ?_
    · rw [State.cutInst_insts, modifyFirst_map_key (key := Inst.key) (f := Inst.cut _) (fun _ => rfl)]
      exact hn
    · rw [State.cutInst_insts] at hi
      rcases mem_modifyFirst_key (key := Inst.key) (k := j.key) (by simp [Inst.key]) hn hi with ⟨y, -, rfl⟩ | ⟨hi, hne⟩
      · simp [Inst.cut_unfinished] at hu
      · rcases List.mem_cons.1 (hl i hi hu) with e | e
        · exact absurd e hne
        · exact e

/-! The deadline. -/

/-- The instances that E + L finds unfinished. -/
def State.late (s : State) : List Inst := s.sched.insts.filter (fun i => i.state.unfinished)

/-- A frame with an unfinished task (R36): INVALID, Marigold's list primary, counted, EV 0x9001. -/
def State.lateFrame (s : State) : State :=
  (s.modComp (fun c => { c.worse 3 with marigoldPrimary := true })).countRaise (od 0x9F00 2) 0x9001

theorem Calm.finalVerdict_verdict (s : State) : s.finalVerdict.safety.verdict ≠ none := by
  unfold State.finalVerdict State.registerLast
  generalize s.mariDeadline.decideVerdict = t
  cases hv : t.safety.verdict.isSome with
  | false => exact (Calm.register_settles hv).verdict (Option.some_ne_none _)
  | true =>
    rw [State.register, hv]
    exact Option.isSome_iff_ne_none.1 hv

/-- What E + L does, once (R36, R379): `u` is the state after the cuts and `v` the one in which the late frame is counted. -/
theorem State.deadline_cases {s : State} (hn : s.frame.comp.n ≠ 0) (hd : s.frame.comp.dropped = false) :
    ∃ u v, Calm s u ∧ u.frame.comp.dropped = true ∧ ((s.sched.insts.map Inst.key).Nodup → u.allEnded) ∧
      v = (if s.late.isEmpty then u else u.lateFrame) ∧ Calm v s.deadline ∧ s.deadline.safety.verdict ≠ none := by
  refine ⟨(s.late.foldl (fun s i => s.cutInst i) s).modComp (fun c => { c with dropped := true }), _, ?_, rfl, fun h => ?_, rfl, ?_⟩
  · exact ((Calm.refl s).foldl fun _ _ h => h.cutInst).modComp fun _ => ⟨Nat.le_refl _, id, fun _ => rfl⟩
  · exact State.allEnded_of_cut h fun i hi hu => List.mem_map_of_mem (List.mem_filter.2 ⟨hi, hu⟩)
  · unfold State.deadline
    extract_lets late s1 s2 s3 s4 s5
    have hc : ¬ (s.frame.comp.n = 0 ∨ s.frame.comp.dropped = true) := by simp [hn, hd]
    rw [if_neg hc]
    refine ⟨((Calm.refl s3).noteOverrun).reportDone.finalVerdict.dispatch, ?_⟩
    exact ((Calm.refl s5).dispatch).verdict (Calm.finalVerdict_verdict _)

/-- What the deadline leaves for the launch and the boundary that follow: the standing part of the frames, the ports and the objects of the
record stream. -/
structure Leaves (s t : State) : Prop where
  standing : t.standing = s.standing
  net : t.net = s.net
  record : ∀ k ∈ recordKeys, k ≠ od 0x9F00 2 → t.num k = s.num k

theorem Leaves.trans {s t u : State} (h : Leaves s t) (k : Leaves t u) : Leaves s u :=
  ⟨k.standing.trans h.standing, k.net.trans h.net, fun x hx hn => (k.record x hx hn).trans (h.record x hx hn)⟩

theorem Calm.leaves {s t : State} (h : Calm s t) : Leaves s t := ⟨h.standing, h.net, fun k hk _ => h.record k hk⟩

theorem State.lateFrame_num (s : State) : s.lateFrame.num (od 0x9F00 2) = Od.counter (od 0x9F00 2) (s.num (od 0x9F00 2) + 1) :=
  State.num_countRaise _ _ _ _ (by decide)

theorem State.lateFrame_comp (s : State) : s.lateFrame.frame.comp = { s.frame.comp.worse 3 with marigoldPrimary := true } := by
  simp [State.lateFrame]

theorem State.lateFrame_leaves (s : State) : Leaves s s.lateFrame where
  standing := ((Calm.refl _).raise.standing).trans rfl
  net := State.countRaise_net ..
  record k hk hn := (State.num_countRaise_other _ _ _ _ (by rintro rfl; exact absurd hk (by decide)) hn).trans rfl

theorem State.deadline_leaves (s : State) : Leaves s s.deadline := by
  by_cases hc : s.frame.comp.n = 0 ∨ s.frame.comp.dropped = true
  · rw [State.deadline, if_pos hc]
    exact (Calm.refl s).leaves
  · obtain ⟨hn, hd⟩ := not_or.1 hc
    obtain ⟨u, v, hu, -, -, hv, ht, -⟩ := State.deadline_cases hn (by simpa using hd)
    refine (hu.leaves.trans ?_).trans ht.leaves
    rw [hv]
    split
    · exact (Calm.refl u).leaves
    · exact u.lateFrame_leaves

theorem State.deadline_dropped {s : State} (hn : s.frame.comp.n ≠ 0) : s.deadline.frame.comp.dropped = true := by
  cases hd : s.frame.comp.dropped with
  | true => rwa [State.deadline, if_pos (.inr hd)]
  | false =>
    obtain ⟨u, v, -, hu, -, hv, ht, -⟩ := State.deadline_cases hn hd
    refine ht.worse.dropped ?_
    rw [hv]
    split
    · exact hu
    · rw [State.lateFrame_comp]
      exact hu

/-- FRAME_DEADLINE at E + L, where the instances are those of distinct tasks and cores (R36, R379, R417; log entry 106). -/
theorem State.deadline_ends {s : State} (hn : s.frame.comp.n ≠ 0) (hd : s.frame.comp.dropped = false)
    (hk : (s.sched.insts.map (fun i => (i.task, i.lcore))).Nodup) :
    s.deadline.frame.comp.dropped = true ∧ s.deadline.safety.verdict ≠ none ∧ s.deadline.allEnded ∧
      (s.sched.insts.any (fun i => i.state.unfinished) = true → 3 ≤ s.deadline.frame.comp.status ∧
        s.deadline.frame.comp.marigoldPrimary = true ∧
        s.deadline.num (od 0x9F00 2) = Od.counter (od 0x9F00 2) (s.num (od 0x9F00 2) + 1)) := by
  obtain ⟨u, v, hu, -, he, hv, ht, hverd⟩ := State.deadline_cases hn hd
  have hev : v.allEnded := by
    rw [hv]
    split
    · exact he hk
    · have : u.lateFrame.sched = u.sched := State.countRaise_sched ..
      intro i hi
      rw [this] at hi
      exact he hk i hi
  refine ⟨State.deadline_dropped hn, hverd, ht.ended hev, fun ha => ?_⟩
  have hl : s.late.isEmpty = false := by
    obtain ⟨i, hi, hx⟩ := List.any_eq_true.1 ha
    exact List.isEmpty_eq_false_iff.2 (List.ne_nil_of_mem (List.mem_filter.2 ⟨hi, hx⟩))
  rw [hl, if_neg Bool.false_ne_true] at hv
  subst hv
  have h3 : 3 ≤ u.lateFrame.frame.comp.status := by
    rw [State.lateFrame_comp]
    exact Nat.le_max_right _ _
  have hp : u.lateFrame.frame.comp.marigoldPrimary = true := by rw [State.lateFrame_comp]
  exact ⟨h3.trans ht.worse.status, ht.worse.primary hp,
    by rw [ht.record _ (by decide), State.lateFrame_num, hu.record _ (by decide)]⟩

end Sys2Proof.Machine
end

