-- ==== Sys2Proof/Proofs/Sends.lean ====
section
/-! SUPPORT. What a frame that leaves by the HOST ports touches, and what it leaves: the relation `Sends`, one rule per operation. -/

namespace Sys2Proof.Machine

/-- The objects that sending leaves alone: those of the record stream, the power state and the causes of FALLBACK. -/
def sendKeys : List Nat := od 0xE000 1 :: od 0xA000 3 :: recordKeys

/-- What each session waits for: its ID and its pending read of a result. -/
def State.waits (s : State) : List (Nat × Option WaitRead) := s.hap.sessions.map (fun x => (x.id, x.waitRead))

/-- What sending frames leaves of `s` in `t`. -/
structure Sends (s t : State) : Prop where
  frame : t.frame = s.frame
  sched : t.sched = s.sched
  safety : t.safety = s.safety
  power : t.power = s.power
  waiting : t.dict.waiting = s.dict.waiting
  results : t.net.results = s.net.results
  windows : ∀ h : Fin 2, (t.net.host[h]).window = (s.net.host[h]).window
  waits : t.waits = s.waits
  num : ∀ k ∈ sendKeys, t.num k = s.num k

theorem State.modHost_same (s : State) (h : Fin 2) (f : HostOut → HostOut) : (s.modHost h f).net.host[h] = f s.net.host[h] := by
  simp [State.modHost, State.modNet]

theorem State.modHost_other (s : State) {h g : Fin 2} (f : HostOut → HostOut) (hn : g ≠ h) :
    (s.modHost h f).net.host[g] = s.net.host[g] := by
  have : (h : Nat) ≠ g := fun e => hn (Fin.ext e.symm)
  simp [State.modHost, State.modNet, this]

/-- Events tell every session that hears them and change no pending read. -/
theorem State.raise_waits (s : State) (c i v : Nat) (b : Bool) : (s.raise c i v b).waits = s.waits := by
  have h1 : ∀ (h : Hap) (r : EventRec), (h.notify r).sessions.map (fun x => (x.id, x.waitRead)) = h.sessions.map (fun x => (x.id, x.waitRead)) := by
    intro h r
    rw [Hap.notify, List.map_map]
    refine List.map_congr_left fun x _ => ?_
    dsimp only [Function.comp]
    repeat' split
    all_goals rfl
  unfold State.raise State.waits
  extract_lets s1 s2
  split
  · exact h1 _ _
  split
  · exact h1 _ _
  split
  · exact h1 _ _
  · exact (h1 _ _).trans (h1 _ _)

namespace Sends

variable {s t u : State}

theorem refl (s : State) : Sends s s := ⟨rfl, rfl, rfl, rfl, rfl, rfl, fun _ => rfl, rfl, fun _ _ => rfl⟩

theorem trans (h : Sends s t) (k : Sends t u) : Sends s u where
  frame := k.frame.trans h.frame
  sched := k.sched.trans h.sched
  safety := k.safety.trans h.safety
  power := k.power.trans h.power
  waiting := k.waiting.trans h.waiting
  results := k.results.trans h.results
  windows x := (k.windows x).trans (h.windows x)
  waits := k.waits.trans h.waits
  num x hx := (k.num x hx).trans (h.num x hx)

theorem standing (h : Sends s t) : t.standing = s.standing := State.standing_congr h.frame h.waiting

theorem ite {c : Prop} [Decidable c] (h : Sends s t) (k : Sends s u) : Sends s (if c then t else u) := ite_keep (P := Sends s) h k

theorem foldl {β : Type} {f : State → β → State} {l : List β} (h : Sends s t) (hf : ∀ t x, Sends s t → Sends s (f t x)) :
    Sends s (l.foldl f t) :=
  foldl_keep (P := Sends s) hf h

theorem setNum {k : Nat} {v : Int} (h : Sends s t) (hk : k ∉ sendKeys) : Sends s (t.setNum k v) :=
  h.trans ⟨rfl, rfl, rfl, rfl, rfl, rfl, fun _ => rfl, rfl, fun _ hj => State.num_setNum_other t v (ne_of_mem_of_not_mem hj hk)⟩

theorem bump {k n : Nat} (h : Sends s t) (hk : k ∉ sendKeys) : Sends s (t.bump k n) := h.setNum hk

theorem raise {c i v : Nat} {b : Bool} (h : Sends s t) : Sends s (t.raise c i v b) := by
  have hd : (t.raise c i v b).dict.waiting = t.dict.waiting := by
    unfold State.raise
    dsimp only
    repeat' split
    all_goals rfl
  refine h.trans ⟨State.raise_frame .., State.raise_sched .., State.raise_safety .., State.raise_power .., hd,
    by rw [State.raise_net], fun _ => by rw [State.raise_net], State.raise_waits .., fun k hk => State.num_raise _ _ _ _ _ ?_⟩
  rintro rfl
  exact absurd hk (by decide)

theorem countRaise {k c i : Nat} {b : Bool} (h : Sends s t) (hk : k ∉ sendKeys) : Sends s (t.countRaise k c i b) := (h.bump hk).raise

theorem modNet {f : Net → Net} (h : Sends s t) (hr : ∀ n, (f n).results = n.results := by exact fun _ => rfl)
    (hh : ∀ n, (f n).host = n.host := by exact fun _ => rfl) : Sends s (t.modNet f) :=
  h.trans ⟨rfl, rfl, rfl, rfl, rfl, hr _, fun g => congrArg (fun v : Vector HostOut 2 => (v[g]).window) (hh _), rfl, fun _ _ => rfl⟩

theorem modHost {g : Fin 2} {f : HostOut → HostOut} (h : Sends s t) (hf : ∀ x, (f x).window = x.window := by exact fun _ => rfl) :
    Sends s (t.modHost g f) := by
  refine h.trans ⟨rfl, rfl, rfl, rfl, rfl, rfl, fun k => ?_, rfl, fun _ _ => rfl⟩
  by_cases e : k = g
  · subst e
    rw [State.modHost_same, hf]
  · rw [State.modHost_other _ _ e]

theorem modSession {n : Nat} {f : Session → Session} (h : Sends s t)
    (hf : ∀ x, ((f x).id, (f x).waitRead) = (x.id, x.waitRead) := by exact fun _ => rfl) : Sends s (t.modSession n f) :=
  h.trans ⟨rfl, rfl, rfl, rfl, rfl, rfl, fun _ => rfl, modifyFirst_map_key hf _, fun _ _ => rfl⟩

/-! Ports (R443-R450). -/

/-- Subindex 9, a port's count of frames sent, is none of the kept objects. -/
theorem sentCount_notMem (i : Nat) : od i 9 ∉ sendKeys := by
  simp only [sendKeys, recordKeys, od, List.mem_cons, List.not_mem_nil, or_false, not_or]
  omega

theorem usePn {p an sci pn : Nat} {tx : Bool} (h : Sends s t) : Sends s (t.usePn p tx an sci pn) := by
  unfold State.usePn
  extract_lets mine
  split
  · exact h
  · extract_lets warn s1
    have h1 : Sends s s1 := h.trans ⟨rfl, rfl, rfl, rfl, rfl, rfl, fun _ => rfl, rfl, fun _ _ => rfl⟩
    exact h1.raise.ite h1

theorem transmit {f : TxFrame} (h : Sends s t) : Sends s (t.transmit f) := by
  unfold State.transmit
  extract_lets put
  have hp : ∀ u g, Sends s u → Sends s (put u g) := fun u g h => (h.bump (sentCount_notMem _)).modNet
  refine h.ite (ite ?_ (hp _ _ h))
  split
  · exact h
  · exact h.ite (hp _ _ h.usePn)

theorem credits {g : Fin 2} {b : Option Nat} {n : Nat} (h : Sends s t) : Sends s (t.credits g b n) := by
  unfold State.credits
  exact h.modHost

theorem accrue {g : Fin 2} {n : Nat} (h : Sends s t) : Sends s (t.accrue g n) := h.credits

theorem letIn {n : Nat} {g : Fin 2} (h : Sends s t) : Sends s (State.letIn n t g) := by
  induction n generalizing t with
  | zero => exact h
  | succ n ih =>
    rw [State.letIn]
    split
    · exact h
    · split
      · exact h
      · exact ih h.modHost

theorem egress_notMem {g : Fin 2} {j : Nat} (hj : j < 256) : od (0x183A + g.val) j ∉ sendKeys := by
  have := g.isLt
  simp only [sendKeys, recordKeys, od, List.mem_cons, List.not_mem_nil, or_false, not_or]
  omega

theorem hostAdmit {g : Fin 2} (h : Sends s t) : Sends s (t.hostAdmit g) := h.letIn.setNum (egress_notMem (by decide))

theorem onLine {g : Fin 2} {f : TxFrame} {n : Nat} (h : Sends s t) : Sends s (t.onLine g f n) := h.credits.modHost.transmit

theorem hostDrain {n m : Nat} {g : Fin 2} (h : Sends s t) : Sends s (State.hostDrain n t g m) := by
  induction n generalizing t m with
  | zero => exact h
  | succ n ih =>
    rw [State.hostDrain]
    have h1 : Sends s (t.accrue g m) := h.accrue
    split
    · exact ih (h1.modHost.onLine.hostAdmit.bump (egress_notMem (by decide)))
    · split
      · exact ih h1
      · exact h1

theorem hostFlow {g : Fin 2} (h : Sends s t) : Sends s (t.hostFlow g) := h.hostDrain

theorem hostLook {g : Fin 2} {e : QueueEcc} (h : Sends s t) : Sends s (t.hostLook g e) := by
  unfold State.hostLook
  split
  · exact h
  · exact h
  · exact h.bump (egress_notMem (by decide))
  · exact h.modHost.hostAdmit.countRaise (egress_notMem (by decide))
  · exact h.modHost.hostAdmit.countRaise (egress_notMem (by decide))

theorem hostSend {g : Fin 2} {f : TxFrame} (h : Sends s t) : Sends s (t.hostSend g f) :=
  h.ite (h.onLine.ite h.accrue.modHost.hostAdmit.hostFlow)

theorem turnGates (h : Sends s t) : Sends s t.turnGates := h.foldl fun _ _ h => h.accrue.modHost.hostFlow

theorem sendOn {g : Fin 2} {c p a b i : Nat} {r : Option Nat} {d : Bytes} (h : Sends s t) : Sends s (t.sendOn g c r p a b i d) := by
  unfold State.sendOn
  split
  · exact h
  · exact (h.modHost (hf := fun x => by split <;> rfl)).hostSend

theorem useSeq {n : Nat} (h : Sends s t) : Sends s (t.useSeq n) := by
  unfold State.useSeq
  exact h.modNet

theorem sendUdp {c a b i : Nat} {d : Bytes} (h : Sends s t) : Sends s (t.sendUdp c a b i d) := h.useSeq.sendOn.sendOn

theorem sendRecord {n : Nat} {a b : Bytes} (h : Sends s t) : Sends s (t.sendRecord n a b) := h.ite (h.foldl fun _ _ h => h.sendUdp)

/-! Notifications (R497-R499). -/

theorem notify {n op : Nat} {b : Bytes} (h : Sends s t) : Sends s (t.notify n op b) := by
  unfold State.notify
  split
  · exact h
  · exact h.modSession.sendUdp.ite (h.modSession.bump (by decide))

theorem sampleSession {n m : Nat} (h : Sends s t) : Sends s (t.sampleSession n m) := by
  unfold State.sampleSession
  split
  · exact h
  · exact h.modSession.foldl fun _ _ h => h.notify

theorem sampleValues {n : Nat} (h : Sends s t) : Sends s (t.sampleValues n) := h.foldl fun _ _ h => h.sampleSession

end Sends

end Sys2Proof.Machine
end

