-- ==== Sys2Proof/Proofs/Boundary.lean ====
section
/-! SUPPORT. The frame boundary (R26-R28, R368, R416, R461, R478): what its operations leave of the frames and instances, and what it makes of
them. -/

namespace Sys2Proof.Machine

/-- Every task waits for its release (R368). -/
def State.allIdle (s : State) : Prop := ∀ i ∈ s.sched.insts, i.state = .idle

/-- What the operations of a boundary leave of `s` in `t`: the standing part of the frames, and IDLE instances. -/
structure Still (s t : State) : Prop where
  standing : t.standing = s.standing
  idle : s.allIdle → t.allIdle

namespace Still

variable {s t u : State}

theorem refl (s : State) : Still s s := ⟨rfl, id⟩

theorem trans (h : Still s t) (k : Still t u) : Still s u := ⟨k.standing.trans h.standing, fun x => k.idle (h.idle x)⟩

theorem same (h : Still s t) (hf : u.standing = t.standing) (hi : u.sched.insts = t.sched.insts) : Still s u :=
  h.trans ⟨hf, by unfold State.allIdle; rw [hi]; exact id⟩

theorem sends (h : Still s t) (k : Sends t u) : Still s u := h.same k.standing (by rw [k.sched])

theorem ite {c : Prop} [Decidable c] (h : Still s t) (k : Still s u) : Still s (if c then t else u) := ite_keep (P := Still s) h k

theorem foldl {β : Type} {f : State → β → State} {l : List β} (h : Still s t) (hf : ∀ t x, Still s t → Still s (f t x)) :
    Still s (l.foldl f t) :=
  foldl_keep (P := Still s) hf h

/-! One rule per operation of the state. -/

theorem setObj {k : Nat} {v : OdVal} (h : Still s t) : Still s (t.setObj k v) := h.same rfl rfl
theorem setNum {k : Nat} {v : Int} (h : Still s t) : Still s (t.setNum k v) := h.same rfl rfl
theorem bump {k n : Nat} (h : Still s t) : Still s (t.bump k n) := h.same rfl rfl
theorem store {k : Nat} {v : OdVal} (h : Still s t) : Still s (t.store k v) := h.same rfl rfl
theorem save {k v : Nat} (h : Still s t) : Still s (t.save k v) := h.same rfl rfl
theorem modHead {p : Fin 8} {f : Head → Head} (h : Still s t) : Still s (t.modHead p f) := h.same rfl rfl
theorem modCore {c : Fin 16} {f : Core → Core} (h : Still s t) : Still s (t.modCore c f) := h.same rfl rfl
theorem modPad {c : Fin 16} {f : Pad → Pad} (h : Still s t) : Still s (t.modPad c f) := h.modCore
theorem modArr {c : Fin 16} {f : Arr → Arr} (h : Still s t) : Still s (t.modArr c f) := h.modCore
theorem modSafety {f : Safety → Safety} (h : Still s t) : Still s (t.modSafety f) := h.same rfl rfl
theorem modNet {f : Net → Net} (h : Still s t) : Still s (t.modNet f) := h.same rfl rfl
theorem modPower {f : Power → Power} (h : Still s t) : Still s (t.modPower f) := h.same rfl rfl
theorem modExt {f : Ext → Ext} (h : Still s t) : Still s (t.modExt f) := h.same rfl rfl
theorem setIng {x : Ingest} (h : Still s t) : Still s { t with ing := x } := h.same rfl rfl
theorem setCells {x : CellTable} (h : Still s t) : Still s { t with cells := x } := h.same rfl rfl
theorem setBooks {x : Books} (h : Still s t) : Still s { t with books := x } := h.same rfl rfl
theorem setPeony {x : Peony} (h : Still s t) : Still s { t with peony := x } := h.same rfl rfl
theorem setSec {x : Sec} (h : Still s t) : Still s { t with sec := x } := h.same rfl rfl
theorem setLog {x : EvLog} (h : Still s t) : Still s { t with log := x } := h.same rfl rfl

theorem modSched {f : Sched → Sched} (h : Still s t) (hf : ∀ x, (f x).insts = x.insts := by exact fun _ => rfl) : Still s (t.modSched f) :=
  h.same rfl (hf _)

theorem modIng {f : FrameCtx → FrameCtx} (h : Still s t) (hn : ∀ c, (f c).n = c.n := by exact fun _ => rfl)
    (hs : ∀ c, (f c).start = c.start := by exact fun _ => rfl) (he : ∀ c, (f c).end_ = c.end_ := by exact fun _ => rfl) :
    Still s (t.modIng f) :=
  h.same (by simp [State.standing, hn, hs, he]) rfl

theorem causeIng {w : CauseWord} {b : Nat} (h : Still s t) : Still s (t.causeIng w b) := by
  unfold State.causeIng
  cases w <;> exact h.modIng

/-- An operation of the deadline that keeps the instances. -/
theorem calm (h : Still s t) (k : Calm t u) (hi : u.sched.insts = t.sched.insts) : Still s u := h.same k.standing hi

theorem raise {c i v : Nat} {b : Bool} (h : Still s t) : Still s (t.raise c i v b) :=
  h.calm (Calm.refl t).raise (by rw [State.raise_sched])

theorem raiseIng {c i v : Nat} {b : Bool} (h : Still s t) : Still s (t.raiseIng c i v b) :=
  h.calm (Calm.refl t).raiseIng (by rw [State.raiseIng_sched])

theorem showSafety (h : Still s t) : Still s t.showSafety := by
  refine h.calm (Calm.refl t).showSafety ?_
  unfold State.showSafety
  extract_lets was now s1 s2
  have h2 : s2.sched = t.sched := ite_keep (P := fun u : State => u.sched = t.sched) rfl rfl
  exact congrArg Sched.insts (ite_keep (P := fun u : State => u.sched = t.sched) ((State.raise_sched ..).trans h2) h2)

theorem declareDoubt {n : Nat} (h : Still s t) : Still s (t.declareDoubt n) := by
  unfold State.declareDoubt
  extract_lets first s1 s2
  have h2 : Still s s2 := h.modSched.setNum
  exact (h2.raise.ite h2).showSafety

theorem clearDoubt {n : Nat} (h : Still s t) : Still s (t.clearDoubt n) := by
  unfold State.clearDoubt
  extract_lets s1
  have h1 : Still s s1 := h.modSched
  exact (h1.setNum.ite h1).showSafety.ite h

/-! The sweep that ends (R52, R64, R76, R83, R109, R114). -/

theorem modCells {f : CellCount → CellCount} (h : Still s t) : Still s (t.modCells false f) :=
  (h.modIng : Still s (t.modIng fun c => { c with cells := f c.cells }))
theorem modPts {f : SweepCount → SweepCount} (h : Still s t) : Still s (t.modPts false f) :=
  (h.modIng : Still s (t.modIng fun c => { c with pts := f c.pts }))

theorem noteStash (h : Still s t) : Still s t.noteStash := by
  unfold State.noteStash
  extract_lets n s1
  have h1 : Still s s1 := h.modCells
  exact h1.raiseIng.ite h1

theorem ageingEnd (h : Still s t) : Still s t.ageingEnd := by
  unfold State.ageingEnd
  extract_lets left s1 x y s2
  have h1 : Still s s1 := h.foldl fun _ _ h => h.setCells
  have h2 : Still s s2 := h1.setCells
  exact h.ite (h2.ite h2.modCells.causeIng.raiseIng)

theorem cellsAtE (h : Still s t) : Still s t.cellsAtE := by
  unfold State.cellsAtE
  exact h.noteStash.modCells

theorem logEnd (h : Still s t) : Still s t.logEnd := by
  unfold State.logEnd
  exact h.setIng.modPts

theorem judgeShares (h : Still s t) : Still s (t.judgeShares false) := by
  unfold State.judgeShares
  extract_lets ctx c one share
  have h1 : ∀ u m b k, Still s u → Still s (one u m b k) := by
    intro u m b k hu
    refine ite ?_ hu
    have : Still s (u.modIng fun c => c.cause .ingest b) := hu.causeIng
    exact this.raiseIng
  exact h1 _ _ _ _ (h1 _ _ _ _ h)

theorem headCauses (h : Still s t) : Still s t.headCauses := by
  unfold State.headCauses
  extract_lets missing bound s1
  have h1 : Still s s1 := h.causeIng.ite h
  exact h1.causeIng.ite h1

theorem timeCauses (h : Still s t) : Still s t.timeCauses := by
  unfold State.timeCauses
  extract_lets b s1
  have h1 : Still s s1 := h.causeIng.ite h
  exact h1.causeIng.ite h1

theorem lifeAtE {p : Fin 8} (h : Still s t) : Still s (t.lifeAtE p) := by
  unfold State.lifeAtE
  extract_lets x ns c0 c above n w0 w s1 s2
  have h1 : Still s s1 := h.modHead.setNum.setNum.setNum
  have h2 : Still s s2 := h1.raise.ite h1
  exact h2.raise.ite h2

theorem sweepEnd (h : Still s t) : Still s t.sweepEnd := by
  unfold State.sweepEnd
  extract_lets s1 s2 now
  have h1 : Still s s1 := h.ageingEnd.cellsAtE.logEnd.judgeShares.headCauses.timeCauses
  have h2 : Still s s2 := h1.foldl fun _ _ h => h.lifeAtE
  exact h2.modIng

theorem countRun (h : Still s t) : Still s t.countRun := h.modPower.bump

theorem logTurn (h : Still s t) : Still s t.logTurn := h.setLog

theorem applyWrite {k : Nat} {v : OdVal} (h : Still s t) : Still s (t.applyWrite k v) := by
  unfold State.applyWrite
  extract_lets s1 idx
  have h1 : Still s s1 := h.setObj
  refine ite ?_ (h1.modHead.ite h1)
  split
  · exact h1.setIng
  · exact h1

theorem headBoundary {p : Fin 8} (h : Still s t) : Still s (t.headBoundary p) := by
  unfold State.headBoundary
  extract_lets prog x freeze ended h1 boot src h2 s0 was s1 s2
  have k1 : Still s s1 := h.modHead.setNum
  have k2 : Still s s2 := k1.foldl fun _ _ h => h.setNum
  exact k2.raise.ite (k2.raise.ite k2)

/-! The units that close the frame computed. -/

theorem booksBoundary {c : FrameCtx} (h : Still s t) : Still s (t.booksBoundary c) := by
  unfold State.booksBoundary
  extract_lets b kept falls s1 s2
  have h1 : Still s s1 := h.setCells.setNum.ite h
  have h2 : Still s s2 := h1.setBooks
  exact h2.setCells.ite h2

theorem peonyBoundary {c : FrameCtx} (h : Still s t) : Still s (t.peonyBoundary c) := h.setPeony.setNum.setNum.setNum.setNum

theorem showGated {c : Fin 16} (h : Still s t) : Still s (t.showGated c) := by
  unfold State.showGated
  exact h.setNum.modArr

theorem resumeDispatch {e : Nat} (h : Still s t) : Still s (t.resumeDispatch e) := h.modSched.modPower.ite h

/-! Repair and retirement (R184-R187, R253). -/

theorem retireNext {c : Fin 16} (h : Still s t) : Still s (t.retireNext c) := h.ite h.save.modArr

theorem retireQuad {c : Fin 16} {q : Nat} {b : Bool} (h : Still s t) : Still s (t.retireQuad c q b) := (h.store.ite h.modPad).raise

theorem repairRow {c : Fin 16} {q n r : Nat} {b : Bool} (h : Still s t) : Still s (t.repairRow c q n r b) := by
  unfold State.repairRow
  split
  · exact h.modPad.store.store.raise
  · extract_lets s1
    have h1 : Still s s1 := h.ite h.modPad
    exact h1.ite h1.retireQuad

theorem loseSpare {c : Fin 16} {q n r : Nat} {b : Bool} (h : Still s t) : Still s (t.loseSpare c q n r b) := by
  unfold State.loseSpare
  extract_lets hit used s1
  have h1 : Still s s1 := h.modPad
  clear_value used
  split
  · exact h1.repairRow
  · exact h1

theorem rowFails {c : Fin 16} {q n r : Nat} {b : Bool} (h : Still s t) : Still s (t.rowFails c q n r b) := by
  unfold State.rowFails
  refine h.loseSpare.ite ?_
  split
  · exact h.ite h.loseSpare
  · exact h.repairRow

theorem repairInForce {c : Fin 16} (h : Still s t) : Still s (t.repairInForce c) := (h.foldl fun _ _ h => h.setNum).setNum

theorem repairCore {c : Fin 16} (h : Still s t) : Still s (t.repairCore c) := by
  unfold State.repairCore
  extract_lets due rows s1 s2 s3 s4
  have h1 : Still s s1 := h.modCore
  have h2 : Still s s2 := h1.ite h1.repairInForce
  have h3 : Still s s3 := h2.foldl fun _ _ h => h.raise
  have h4 : Still s s4 := h3.foldl fun _ _ h => h.rowFails
  exact h4.modSched.ite h4

theorem turnNext (h : Still s t) : Still s t.turnNext := h.modSched.setNum.setNum

theorem retireDue (h : Still s t) : Still s t.retireDue := by
  unfold State.retireDue
  extract_lets quar s1 s2 s3 s4 s5
  have h1 : Still s s1 := h.foldl fun _ _ h => h.retireNext.ite h
  have h2 : Still s s2 := h1.foldl fun _ _ h => h.repairCore
  have h3 : Still s s3 := h2.modSched
  have h5 : Still s s5 := h3.modSafety.setNum
  exact h5.turnNext.ite h5

/-! The plan and its programs (R186, R377, R521). -/

theorem failController {c : Nat} (h : Still s t) : Still s (t.failController c) := by
  unfold State.failController
  extract_lets s1 s2 s3 s4
  have h4 : Still s s4 := h.modExt.setNum.store.raise
  exact h.ite (h4.modSafety.showSafety.ite h4)

theorem dramUe {a : Nat} (h : Still s t) : Still s (t.dramUe a) := by
  unfold State.dramUe
  extract_lets c now s1 s2 s3
  have h3 : Still s s3 := h.bump.setNum.raiseIng.modExt
  exact h3.failController.ite h3

theorem touchRow {a : Nat} (h : Still s t) : Still s (t.touchRow a) := by
  unfold State.touchRow
  exact h.modExt

theorem dramGet {a n : Nat} {e : Ecc} (h : Still s t) : Still s (t.dramGet a n e).1 := by
  unfold State.dramGet
  extract_lets s1 ws
  have h1 : Still s s1 := h.touchRow
  split
  · exact h1.dramUe
  · split
    · exact h1.dramUe
    · split
      · exact h1.modExt.dramUe
      · exact h1.bump
      · exact h1

/-- Without a schedule there are no instances (R364, R428). -/
theorem noSchedule (h : Still s t) : Still s t.noSchedule := by
  unfold State.noSchedule
  extract_lets s1 s2
  have h2 : Still s s2 := h.trans ⟨(Calm.refl t).loseAll.standing.trans rfl, fun _ i hi => absurd hi List.not_mem_nil⟩
  exact (h2.calm (Calm.refl s2).enterFallback ((Calm.refl s2).enterFallback.noInsts rfl)).ite h2

theorem fromLibrary {c : Component} (h : Still s t) : Still s (t.fromLibrary c).1 := by
  have hg := h.dramGet (a := libraryAt t.sec.comps c + 424) (n := c.payload.length) (e := .clean)
  unfold State.fromLibrary
  split <;> rename_i u _ e <;> rw [e] at hg
  · exact hg
  · exact hg.setSec.raise

theorem readModel (h : Still s t) : Still s t.readModel.1 := by
  unfold State.readModel
  split
  · exact h
  · rename_i c _
    have hg := h.fromLibrary (c := c)
    split
    · exact h.noSchedule
    · split <;> rename_i u _ e <;> rw [e] at hg
      · exact hg
      · exact hg.noSchedule

theorem copyPrograms {f : Nat → Bool} (h : Still s t) : Still s (t.copyPrograms f) := by
  have hr := h.readModel
  unfold State.copyPrograms
  split
  · rename_i u m _ e
    rw [e] at hr
    exact hr.foldl fun _ _ h => h.foldl fun _ _ h => h.modPad.ite h
  · rename_i u _ e
    rw [e] at hr
    exact hr
  · exact h

theorem copyContents {f : Nat → Bool} (h : Still s t) : Still s (t.copyContents f) := by
  have hr := h.readModel
  unfold State.copyContents
  split
  · exact h
  · refine ite ?_ h
    split <;> rename_i u _ e <;> rw [e] at hr
    · exact hr.foldl fun _ _ h => h.modPad.ite h
    · exact hr

theorem judgeDoubt (h : Still s t) : Still s t.judgeDoubt := by
  unfold State.judgeDoubt
  split
  · exact h
  · extract_lets s1 s2
    have h1 : Still s s1 := h.declareDoubt.ite h
    have h2 : Still s s2 := h1.declareDoubt.ite h1
    exact h2.declareDoubt.ite h2

theorem showPlan (h : Still s t) : Still s t.showPlan := by
  unfold State.showPlan
  split
  · exact h.setNum.setNum
  · exact h

/-- The instances of a schedule begin IDLE (R366, R368). -/
theorem instances_idle {a : Schedule} {i : Inst} (h : i ∈ a.instances) : i.state = .idle := by
  obtain ⟨d, -, hi⟩ := List.mem_flatMap.1 h
  obtain ⟨l, -, rfl⟩ := List.mem_map.1 hi
  rfl

theorem switchPlan (h : Still s t) : Still s t.switchPlan := by
  unfold State.switchPlan
  split
  · exact h
  · rename_i a _
    extract_lets gone s1 before s2
    have h1 : Still s s1 := h.foldl fun _ _ h => h.modPad.ite h
    split
    · extract_lets s3 s4 more
      have h3 : Still s s3 := h1.trans ⟨rfl, fun _ i hi => instances_idle hi⟩
      exact h1.ite h3.showPlan.copyPrograms.copyContents.raise
    · have h2 : Still s s2 := h1.trans ⟨rfl, fun hi i hm => hi i (List.mem_filter.1 hm).1⟩
      exact h2.declareDoubt

theorem judgeThrottle (h : Still s t) : Still s t.judgeThrottle := by
  unfold State.judgeThrottle
  refine h.modSched.ite ?_
  split
  · exact h.modSched
  · extract_lets s1
    have h1 : Still s s1 := h.ite h.raise
    exact h1.modSched.declareDoubt.ite h

theorem throttleFrame (h : Still s t) : Still s t.throttleFrame := by
  unfold State.throttleFrame
  extract_lets s1 s2
  have h1 : Still s s1 := h.judgeThrottle
  have h2 : Still s s2 := h1.modSched
  exact h1.modSched.ite (h2.clearDoubt.ite h2)

theorem safetyTurn (h : Still s t) : Still s t.safetyTurn := by
  unfold State.safetyTurn
  exact h.modSafety

theorem resultsTurn (h : Still s t) : Still s t.resultsTurn := by
  unfold State.resultsTurn
  exact h.modNet

end Still

end Sys2Proof.Machine
end

