-- ==== Sys2Proof/Proofs/FrameBoundary.lean ====
section
/-! SUPPORT. FRAME_BOUNDARY (R26-R28, R44, R368, R416, R461, R478, R561): what holds of the frames after a boundary and after the entry into
RUN. -/

namespace Sys2Proof.Machine

variable (s : State)

/-- Writes that are at least 1 ms old no longer wait (R478). -/
theorem State.frameWrites_standing (e : Nat) : (s.frameWrites e).standing =
    { s.standing with waiting := s.standing.waiting.filter (fun w => !decide (w.at_ + 1000000 ≤ e)) } := by
  unfold State.frameWrites
  extract_lets due rest old s1
  have h : Still s s1 := (Still.refl s).foldl fun _ _ h => h.applyWrite
  exact (show _ = { s1.standing with waiting := rest } from rfl).trans (by rw [h.standing])

theorem State.newSweep_n (n e : Nat) : (s.newSweep n e).n = n := by unfold State.newSweep; dsimp only; split <;> rfl
theorem State.newSweep_start (n e : Nat) : (s.newSweep n e).start = e := by unfold State.newSweep; dsimp only; split <;> rfl
theorem State.newSweep_end (n e : Nat) : (s.newSweep n e).end_ = e + s.frame.period := by unfold State.newSweep; dsimp only; split <;> rfl

/-- The sweep that ended becomes the frame computed (R28). -/
theorem State.turnFrames_standing (n e : Nat) : (s.turnFrames n e).standing =
    { s.standing with
      lastFrame := s.standing.ing, ing := n, start := e, end_ := e + s.standing.period
      comp := s.standing.ing, compEnd := s.standing.end_ } := by
  unfold State.turnFrames
  extract_lets ended next x s1
  have h : Still s1 (s1.sweepTurn.noteStash.timeCauses) := by
    have : Still s1 s1.sweepTurn := by
      unfold State.sweepTurn
      exact (Still.refl s1).setCells
    exact this.noteStash.timeCauses
  rw [h.standing]
  simp only [State.standing, s1, x, next, ended, State.newSweep_n, State.newSweep_start, State.newSweep_end]
  rfl

/-- The instances of the frame that ended wait for their next release (R368). -/
theorem State.closeInsts_still (c : FrameCtx) : (s.closeInsts c).standing = s.standing ∧ (s.closeInsts c).allIdle := by
  unfold State.closeInsts
  extract_lets dropped s1
  have h1 : Still s s1 := (Still.refl s).ite (Still.refl s).setNum.setNum
  refine ⟨h1.standing, fun i hi => ?_⟩
  obtain ⟨j, -, rfl⟩ := List.mem_map.1 hi
  rfl

/-- The frame boundary in RUN (R26-R28, R368, R416, R461, R478). -/
theorem State.boundary_turns : s.boundary.standing =
    { s.standing with
      waiting := s.dict.waiting.filter (fun w => !decide (w.at_ + 1000000 ≤ s.frame.ing.end_)), lastFrame := s.frame.ing.n
      ing := nextFrame s.frame.ing.n, start := s.frame.ing.end_, end_ := s.frame.ing.end_ + s.frame.period
      comp := s.frame.ing.n, compEnd := s.frame.ing.end_ } ∧
    s.boundary.allIdle ∧ s.boundary.safety.verdict = none ∧ s.boundary.net.results.body = none := by
  unfold State.boundary
  extract_lets e s1 closed s2 s3 s4 s5 s6 s7 s8 s9
  have h1 : s1.countRun.logTurn.standing = s.standing :=
    (Still.refl s.deadline).sweepEnd.countRun.logTurn.standing.trans s.deadline_leaves.standing
  have h2 : s2.standing = _ := s1.countRun.logTurn.frameWrites_standing e
  have h3 : s3.standing = s2.standing := ((Still.refl s2).foldl fun _ _ h => h.headBoundary).standing
  have h4 : s4.standing = _ := s3.turnFrames_standing (nextFrame s3.frame.ing.n) e
  have h6 : Still s4 s6 := ((Still.refl s4).booksBoundary.peonyBoundary).foldl fun _ _ h => h.showGated
  obtain ⟨hc, hi⟩ := s6.closeInsts_still closed
  have h8 : Still (s6.closeInsts closed) s8 := (Still.refl _).resumeDispatch.retireDue.switchPlan.judgeDoubt.throttleFrame
  have h9 : Sends (s8.safetyTurn.resultsTurn) s9 := (Sends.refl _).turnGates
  have ht := h9.sampleValues (n := s9.frame.ing.n)
  have h10 : Still s8 (s9.sampleValues s9.frame.ing.n) := (Still.refl s8).safetyTurn.resultsTurn.sends ht
  refine ⟨?_, h10.idle (h8.idle hi), ?_, ?_⟩
  · rw [h10.standing, h8.standing, hc, h6.standing, h4, State.ing_of (h3.trans h2), h3, h2, h1]
    rfl
  · rw [ht.safety]
    rfl
  · rw [ht.results]
    rfl

/-! Entry into RUN (R561). -/

/-- What the entry into RUN leaves to the safety state and the power state: the scheduler and OD 0xE000.01. -/
structure Enters (s t : State) : Prop where
  sched : t.sched = s.sched
  power : t.num (od 0xE000 1) = s.num (od 0xE000 1)

namespace Enters

variable {s t : State}

theorem refl (s : State) : Enters s s := ⟨rfl, rfl⟩

theorem ite {c : Prop} [Decidable c] {u : State} (h : Enters s t) (k : Enters s u) : Enters s (if c then t else u) :=
  ite_keep (P := Enters s) h k

theorem setNum {k : Nat} {v : Int} (h : Enters s t) (hk : od 0xE000 1 ≠ k) : Enters s (t.setNum k v) :=
  ⟨h.sched, (State.num_setNum_other t v hk).trans h.power⟩

theorem raise {c i v : Nat} {b : Bool} (h : Enters s t) : Enters s (t.raise c i v b) :=
  ⟨(State.raise_sched ..).trans h.sched, (State.num_raise _ _ _ _ _ (by decide)).trans h.power⟩

theorem raiseIng {c i v : Nat} {b : Bool} (h : Enters s t) : Enters s (t.raiseIng c i v b) := by
  unfold State.raiseIng
  have h1 := h.raise (c := c) (i := i) (v := v) (b := b)
  exact h.ite ⟨h1.sched, h1.power⟩

theorem modHead {p : Fin 8} {f : Head → Head} (h : Enters s t) : Enters s (t.modHead p f) := ⟨h.sched, h.power⟩
theorem modIng {f : FrameCtx → FrameCtx} (h : Enters s t) : Enters s (t.modIng f) := ⟨h.sched, h.power⟩
theorem modCells {f : CellCount → CellCount} (h : Enters s t) : Enters s (t.modCells false f) :=
  (h.modIng : Enters s (t.modIng fun c => { c with cells := f c.cells }))
theorem setCells {x : CellTable} (h : Enters s t) : Enters s { t with cells := x } := ⟨h.sched, h.power⟩

theorem logTurn (h : Enters s t) : Enters s t.logTurn := ⟨h.sched, h.power⟩
theorem modSafety {f : Safety → Safety} (h : Enters s t) : Enters s (t.modSafety f) := ⟨h.sched, h.power⟩
theorem safetyTurn (h : Enters s t) : Enters s t.safetyTurn := by
  unfold State.safetyTurn
  exact h.modSafety
theorem resultsTurn (h : Enters s t) : Enters s t.resultsTurn := ⟨h.sched, h.power⟩

theorem sends {u : State} (h : Enters s t) (k : Sends t u) : Enters s u :=
  ⟨k.sched.trans h.sched, (k.num _ List.mem_cons_self).trans h.power⟩

theorem portOd_ne {p : Fin 8} {j : Nat} (hj : j < 256) : od 0xE000 1 ≠ portOd 0x3101 p j := by
  have := p.isLt
  simp only [portOd, od]
  omega

theorem headBoundary {p : Fin 8} (h : Enters s t) : Enters s (t.headBoundary p) := by
  unfold State.headBoundary
  extract_lets prog x freeze ended h1 boot src h2 s0 was s1 s2
  have k1 : Enters s s1 := h.modHead.setNum (portOd_ne (by decide))
  have k2 : Enters s s2 := by
    refine List.foldlRecOn (motive := Enters s) _ _ k1 fun u hu i hi => hu.setNum (portOd_ne ?_)
    have := List.mem_range.1 hi
    omega
  exact k2.raise.ite (k2.raise.ite k2)

theorem timeCauses (h : Enters s t) : Enters s t.timeCauses := by
  unfold State.timeCauses
  extract_lets b s1
  have h1 : Enters s s1 := h.modIng.ite h
  exact h1.modIng.ite h1

theorem turnFrames {n e : Nat} (h : Enters s t) : Enters s (t.turnFrames n e) := by
  unfold State.turnFrames
  extract_lets ended next x s1
  have h1 : Enters s s1 := ⟨h.sched, h.power⟩
  have h2 : Enters s s1.sweepTurn := by
    unfold State.sweepTurn
    exact h1.setCells
  have h3 : Enters s s1.sweepTurn.noteStash := by
    unfold State.noteStash
    extract_lets m s2
    have k : Enters s s2 := h2.modCells
    exact k.raiseIng.ite k
  exact h3.timeCauses

end Enters

/-- RUN begins (R27, R427, R428, R561). -/
theorem State.runEnter_begins (t : Nat) : (s.runEnter t).frame.run = true ∧ (s.runEnter t).frame.ing.n = 1 ∧
    (s.runEnter t).frame.ing.start = t ∧ (s.runEnter t).safety.foxAsserts = false ∧
    (s.sched.active.isSome = true → s.powerState = 2 → (s.runEnter t).powerState = if s.sched.throttle = 0 then 3 else 4) ∧
    (s.sched.active = none → bitAt ((s.runEnter t).num (od 0xA000 3)) 2 = true) := by
  unfold State.runEnter
  extract_lets x s1 s2 s3 s4 s5 s6 s7
  have s2_sched : s2.sched = s.sched := by simp only [s2]; split <;> rfl
  have hs : s2.standing = { s.standing with run := true } := by simp only [s2]; split <;> rfl
  have e3 : Enters s2 s3 := List.foldlRecOn (motive := Enters s2) _ _ (.refl s2) fun _ h _ _ => h.headBoundary
  have e4 : Enters s2 s4 := e3.logTurn.turnFrames
  have h5 : Sends (s4.safetyTurn.resultsTurn) s5 := (Sends.refl _).turnGates
  have e5 : Enters s2 s5 := e4.safetyTurn.resultsTurn.sends h5
  have e6 : Enters s2 s6 := e5.modSafety
  have h7 : Calm s6 s7 := (Calm.refl s6).enterFallback.ite (Calm.refl s6)
  have h8 : Sends s7 (s7.sampleValues 1) := (Sends.refl s7).sampleValues
  have h6 : s6.standing = s4.standing :=
    ((Still.refl s5).modSafety.standing).trans (h5.standing.trans (Still.refl s4).safetyTurn.resultsTurn.standing)
  have k3 : Still s2 s3 := (Still.refl s2).foldl fun _ _ h => h.headBoundary
  have h3 : s3.logTurn.standing.run = true := congrArg Standing.run (k3.logTurn.standing.trans hs)
  clear_value s3
  have hst := h8.standing.trans (h7.standing.trans (h6.trans (s3.logTurn.turnFrames_standing 1 t)))
  refine ⟨(State.run_of hst).trans h3, State.ing_of hst, State.start_of hst, ?_, fun ha hp => ?_, fun ha => ?_⟩
  · rw [h8.safety, h7.fox]
    rfl
  · have hs6 : s6.sched.active.isNone = false := by rw [e6.sched, s2_sched]; exact Option.isNone_eq_false_iff.2 ha
    have hp7 : s7.num (od 0xE000 1) = s2.num (od 0xE000 1) := by
      simp only [s7, hs6, Bool.false_eq_true, if_false]
      exact e6.power
    rw [State.powerState, h8.num _ (by decide), hp7]
    simp only [s2]
    have hp1 : s1.powerState = 2 := hp
    rw [if_pos hp1]
    split
    · exact State.num_setNum _ _ 3
    · exact State.num_setNum _ _ 4
  · have hs6 : s6.sched.active.isNone = true := by rw [e6.sched, s2_sched]; simp [ha]
    rw [h8.num _ (by decide)]
    simp only [s7, hs6, if_true]
    exact Calm.enterFallback_fault

end Sys2Proof.Machine
end

