-- ==== Sys2Proof/Proofs/ResultStream.lean ====
section
/-! SUPPORT. The result stream before a launch (R460, R461): the poll of the body and the gates that close, with what they leave waiting. -/

namespace Sys2Proof.Machine

/-! The body (R461). -/

namespace Calm

variable {s t : State}

theorem padCorrected {c : Fin 16} {a : Nat} (h : Calm s t) : Calm s (t.padCorrected c a) := by
  unfold State.padCorrected
  extract_lets s1 key n s2
  have h1 : Calm s s1 := h.bump (freeKey_odCore (by decide) (by decide))
  have h2 : Calm s s2 := h1.modPad
  exact h2.modPad.raise.ite h2

theorem padFinds {c : Fin 16} {l : List Nat} {e : Finds} (h : Calm s t) : Calm s (t.padFinds c l e).1 := by
  refine foldl_fst (P := Calm s) (fun a x h => ?_) h
  dsimp only
  split
  · exact h.padUncorrectable
  · exact h.padCorrected

theorem accFault {c : Fin 16} {e : AccErr} {r : Bool} (h : Calm s t) : Calm s (t.accFault c e r) := by
  have hk : ∀ j < 256, freeKey (odCore 0x7100 c j) = true := fun j hj => freeKey_odCore (by decide) hj
  cases e with
  | stale => exact (h.bump (hk 6 (by decide))).raiseIng
  | refused => exact (h.countRaise (hk 8 (by decide))).ite h
  | tag => exact h.countRaise (hk 10 (by decide))
  | ecc => exact h

theorem padRead {c : Fin 16} {p w o n : Nat} {g : Option Nat} {e : Finds} (h : Calm s t) : Calm s (t.padRead c p w o n g e).1 := by
  unfold State.padRead
  extract_lets k x r
  split
  · exact h.accFault
  · split
    · with_reducible exact h.accFault
    · split
      · exact h.padUncorrectable
      · split
        · exact h.padFinds
        · with_reducible exact h.padFinds.modPad

end Calm

section
variable (s : State)

theorem State.omitBody_results (b : Bool) : (s.omitBody b).net.results = { s.net.results with bad := true } := by
  simp [State.omitBody, State.modNet]

theorem State.omitBody_comp (b : Bool) : (s.omitBody b).frame.comp = { s.frame.comp.worse 3 with marigoldPrimary := true } := by
  simp [State.omitBody]

theorem State.omitBody_num (b : Bool) : (s.omitBody b).num (od 0x1A00 (if b then 7 else 6)) =
    Od.counter (od 0x1A00 (if b then 7 else 6)) (s.num (od 0x1A00 (if b then 7 else 6)) + 1) :=
  State.num_countRaise _ _ _ _ (by cases b <;> decide)

end

/-- The conditions under which a poll looks at the body (R461): a frame is computed, its deadline has not passed, no body has been found, the
instant lies in the poll's time. -/
def State.polls (s : State) (t : Nat) : Prop :=
  s.frame.comp.n ≠ 0 ∧ s.frame.comp.dropped = false ∧ s.net.results.body = none ∧ s.net.results.bad = false ∧
    s.frame.comp.end_ + s.frame.launch ≤ t + 1000 * s.num (od 0x1A00 2) ∧ t + 20000 ≤ s.frame.comp.end_ + s.frame.launch

/-- What a poll makes of the header it has read: not READY, or the body read and checked (R461, R466). -/
def State.takeBody (s : State) (n gen : Nat) (core : Fin 16) (p w off : Nat) (h : Bytes) (ecc : Finds) : State :=
  if fieldLe h 0 4 ≠ n ∨ (h.getD 4 0).toNat % 2 = 0 then s
  else if fieldLe h 16 4 < 32 ∨ 98304 < fieldLe h 16 4 then s.omitBody true
  else match s.padRead core p w off (fieldLe h 16 4) (some gen) (findsAfter ecc 4) with
    | (s, .error _) => s.omitBody true
    | (s, .ok b) =>
      if bodyOk n b then s.modNet (fun x => { x with results := { x.results with body := some b } }) else s.omitBody true

/-- A poll that reads the body's header (R461). -/
theorem execResultBodyPoll_header {s s1 : State} {t : Nat} {core : Fin 16} {p w off : Nat} {h : Bytes} {ecc : Finds} (hp : s.polls t)
    (hb : s.bodyAt = some (core, p, w, off)) (ho : ((s.cores[core]).pad.win p w).isOpen = true)
    (h1 : (s.at t).padRead core p w off 32 (some s.net.results.gen) ecc = (s1, .ok h)) :
    execResultBodyPoll ecc t s = .next (s1.takeBody s.frame.comp.n s.net.results.gen core p w off h ecc) := by
  obtain ⟨hn, hd, hbody, hbad, hlo, hhi⟩ := hp
  unfold execResultBodyPoll
  extract_lets s0 c l r
  have hc : ¬ (c.n = 0 ∨ c.dropped = true ∨ r.body.isSome = true ∨ r.bad = true ∨ t + 1000 * s0.num (od 0x1A00 2) < l ∨ l < t + 20000) := by
    have e1 : c = s.frame.comp := rfl
    have e2 : r = s.net.results := rfl
    have e3 : s0.num (od 0x1A00 2) = s.num (od 0x1A00 2) := rfl
    have e4 : l = s.frame.comp.end_ + s.frame.launch := rfl
    rw [e1, e2, e3, e4, hd, hbody, hbad]
    simp only [hn, Option.isSome_none, Bool.false_eq_true, false_or]
    omega
  have hb0 : s0.bodyAt = some (core, p, w, off) := hb
  have ho0 : (!((s0.cores[core]).pad.win p w).isOpen) = false := congrArg not ho
  have h10 : s0.padRead core p w off 32 (some r.gen) ecc = (s1, .ok h) := h1
  rw [if_neg hc, hb0]
  dsimp only
  rw [if_neg fun hx => Bool.false_ne_true (ho0.symm.trans hx.1), h10]
  rfl

theorem State.takeBody_unready {s : State} {n gen : Nat} {core : Fin 16} {p w off : Nat} {h : Bytes} {ecc : Finds}
    (hr : (h.getD 4 0).toNat % 2 = 0) : s.takeBody n gen core p w off h ecc = s := by
  rw [State.takeBody, if_pos (.inr hr)]

theorem State.takeBody_ready {s s2 : State} {n gen : Nat} {core : Fin 16} {p w off : Nat} {h b : Bytes} {ecc : Finds}
    (hn : fieldLe h 0 4 = n) (hr : (h.getD 4 0).toNat % 2 = 1) (hlo : 32 ≤ fieldLe h 16 4) (hhi : fieldLe h 16 4 ≤ 98304)
    (h2 : s.padRead core p w off (fieldLe h 16 4) (some gen) (findsAfter ecc 4) = (s2, .ok b)) :
    s.takeBody n gen core p w off h ecc =
      if bodyOk n b then s2.modNet (fun x => { x with results := { x.results with body := some b } }) else s2.omitBody true := by
  rw [State.takeBody, if_neg (by omega), if_neg (by omega), h2]

/-! The gates around a launch (R460). -/

/-- The window of a launch closes classes 0-2 of a HOST port whose link is up. -/
def State.shutGate (s : State) (h : Fin 2) : State :=
  if s.net.link (hostPort h) then (s.accrue h s.frame.now).modHost h (fun x => { x with window := true }) else s

theorem State.shutGate_port (s : State) (h : Fin 2) : (s.shutGate h).net.port = s.net.port := by
  unfold State.shutGate
  split <;> rfl

theorem State.shutGate_sent (s : State) (h : Fin 2) : (s.shutGate h).net.sent = s.net.sent := by
  unfold State.shutGate
  split <;> rfl

theorem State.shutGate_host (s : State) (h g : Fin 2) :
    ((s.shutGate h).net.host[g]).window = ((decide (g = h) && s.net.link (hostPort h)) || (s.net.host[g]).window) ∧
      ((s.shutGate h).net.host[g]).waiting = (s.net.host[g]).waiting := by
  unfold State.shutGate
  by_cases hg : g = h
  · subst hg
    split
    case isTrue hl => simp [-Fin.getElem_fin, State.modHost_same, State.accrue, State.credits, hl]
    case isFalse hl => simp [-Fin.getElem_fin, hl]
  · split
    · simp [-Fin.getElem_fin, State.modHost_other, State.accrue, State.credits, hg]
    · simp [hg]

theorem execResultGateClose_shuts {s : State} {t : Nat} (hn : s.frame.comp.n ≠ 0) (hl : s.frame.comp.launched = false)
    (hip : s.num (od 0x1000 3) ≠ 0) (ht : s.frame.comp.end_ + s.frame.launch ≤ t + 15000) :
    execResultGateClose t s = .next (((s.at t).shutGate 0).shutGate 1) := by
  unfold execResultGateClose
  extract_lets s0
  have hc : ¬ (s0.frame.comp.n = 0 ∨ s0.frame.comp.launched = true ∨ s0.num (od 0x1000 3) = 0 ∨
      t + 15000 < s0.frame.comp.end_ + s0.frame.launch) := by
    have e1 : s0.num (od 0x1000 3) = s.num (od 0x1000 3) := rfl
    have e2 : s0.frame.comp = s.frame.comp := rfl
    have e3 : s0.frame.launch = s.frame.launch := rfl
    rw [e1, e2, e3, hl]
    simp only [hn, hip, Bool.false_eq_true, false_or]
    omega
  rw [if_neg hc]
  rfl

theorem State.shutGates_host (s : State) (g : Fin 2) :
    (((s.shutGate 0).shutGate 1).net.host[g]).window = (s.net.link (hostPort g) || (s.net.host[g]).window) ∧
      (((s.shutGate 0).shutGate 1).net.host[g]).waiting = (s.net.host[g]).waiting := by
  obtain ⟨h1, h2⟩ := (s.shutGate 0).shutGate_host 1 g
  obtain ⟨h3, h4⟩ := s.shutGate_host 0 g
  have hl : (s.shutGate 0).net.link (hostPort 1) = s.net.link (hostPort 1) := by rw [Net.link, State.shutGate_port]; rfl
  refine ⟨?_, h2.trans h4⟩
  rw [h1, h3, hl]
  match g with
  | 0 => simp
  | 1 => simp

/-! What waits for the gates (R447, R460). -/

theorem State.credits_host (s : State) (h : Fin 2) (b : Option Nat) (t : Nat) : ∃ c n, (s.credits h b t).net.host[h] =
    { s.net.host[h] with credit := c, creditAt := n } :=
  ⟨_, _, State.modHost_same _ _ _⟩

theorem State.nextOut_nil {s : State} {h : Fin 2} (hw : (s.net.host[h]).waiting = []) (t : Nat) : s.nextOut h t = none := by
  simp [-Fin.getElem_fin, State.nextOut, HostOut.front, hw]

theorem State.creditBack_nil {s : State} {h : Fin 2} (hw : (s.net.host[h]).waiting = []) (t : Nat) : s.creditBack h t = none := by
  simp [-Fin.getElem_fin, State.creditBack, HostOut.front, hw]

/-- A frame of class 2 needs no credit (R446). -/
theorem State.nextOut_single {s : State} {h : Fin 2} {f : TxFrame} {t : Nat} (hw : (s.net.host[h]).waiting = [f]) (hc : f.cls = 2)
    (hg : s.gateLets h f t = true) : s.nextOut h t = some f := by
  simp [-Fin.getElem_fin, State.nextOut, HostOut.front, hw, hc, hg, State.creditOk, State.idleSlope]

theorem State.hostDrain_nil {s : State} {h : Fin 2} (hw : (s.net.host[h]).waiting = []) (n t : Nat) :
    State.hostDrain (n + 1) s h t = s.accrue h t := by
  obtain ⟨c, m, e⟩ := s.credits_host h none t
  have hw1 : ((s.accrue h t).net.host[h]).waiting = [] := by rw [State.accrue, e]; exact hw
  rw [State.hostDrain]
  simp only [State.nextOut_nil hw1, State.creditBack_nil hw1]

end Sys2Proof.Machine
end

