-- ==== Sys2Proof/Proofs/GateReopen.lean ====
section
/-! SUPPORT. The gates after a launch (R447, R460): the window ends, and what waits leaves where its gate lets it. -/

namespace Sys2Proof.Machine

/-- Of the ports, gates follow the window and the list's entry alone. -/
theorem State.gateLets_net (s : State) (h : Fin 2) {n m : Net} (hw : (n.host[h]).window = (m.host[h]).window)
    (he : (n.host[h]).entry = (m.host[h]).entry) (g : TxFrame) (t : Nat) :
    State.gateLets { s with net := n } h g t = State.gateLets { s with net := m } h g t := by
  have h1 : State.gateOpen { s with net := n } h g.cls = State.gateOpen { s with net := m } h g.cls := by
    unfold State.gateOpen State.gateMask
    rw [hw, he]
    rfl
  have h2 : State.listCloses { s with net := n } h g.cls = State.listCloses { s with net := m } h g.cls := by
    unfold State.listCloses
    rw [he]
    rfl
  have h3 : State.wireNs { s with net := n } g = State.wireNs { s with net := m } g := rfl
  have h4 : State.windowCloses { s with net := n } = State.windowCloses { s with net := m } := rfl
  unfold State.gateLets
  rw [h1, h2, h3, h4]

theorem State.gateLets_accrue (s : State) (h : Fin 2) (u : Nat) (g : TxFrame) (t : Nat) :
    (s.accrue h u).gateLets h g t = s.gateLets h g t := by
  obtain ⟨c, n, e⟩ := s.credits_host h none u
  exact State.gateLets_net s h (n := (s.accrue h u).net) (m := s.net) (by rw [State.accrue, e]) (by rw [State.accrue, e]) g t

/-- An unprotected frame of a port whose link is up leaves (R450). -/
theorem State.transmit_plain {s : State} {f : TxFrame} (hl : s.net.link f.port = true) (hs : s.flag (netOd f.port 0x0D) = false) :
    s.transmit f = (s.bump (netOd f.port 9)).modNet (fun n => { n with sent := n.sent ++ [f] }) := by
  simp [State.transmit, hl, hs]

/-- With nothing held back a HOST egress queue admits nothing. -/
theorem State.hostAdmit_net {s : State} {h : Fin 2} (hh : (s.net.host[h]).held = []) : (s.hostAdmit h).net = s.net := by
  unfold State.hostAdmit
  rw [hh]
  rfl

/-- What a frame that takes the line leaves on its port. -/
theorem State.onLine_plain {s : State} {h : Fin 2} {f : TxFrame} {t : Nat} (hl : s.net.link f.port = true)
    (hs : s.flag (netOd f.port 0x0D) = false) : (s.onLine h f t).net.sent = s.net.sent ++ [{ f with at_ := t }] ∧
      ((s.onLine h f t).net.host[h]).waiting = (s.net.host[h]).waiting ∧ ((s.onLine h f t).net.host[h]).held = (s.net.host[h]).held := by
  unfold State.onLine
  extract_lets stop
  rw [State.transmit_plain (s := (s.credits h (some f.cls) stop).modHost h fun x => { x with free := stop }) (f := { f with at_ := t }) hl hs]
  have e1 := State.modHost_same (s.credits h (some f.cls) stop) h (fun x => { x with free := stop })
  obtain ⟨c, n, e2⟩ := s.credits_host h (some f.cls) stop
  have e3 : ((((s.credits h (some f.cls) stop).modHost h fun x => { x with free := stop }).bump (netOd f.port 9)).modNet
      fun n => { n with sent := n.sent ++ [{ f with at_ := t }] }).net.host[h] = _ := e1
  refine ⟨rfl, ?_, ?_⟩
  · rw [e3, e2]
  · rw [e3, e2]

/-- The queue's single frame leaves it and takes the line. -/
def State.leave (s : State) (h : Fin 2) (f : TxFrame) (t : Nat) : State :=
  (((s.modHost h (fun x => { x with waiting := x.waiting.eraseP (fun y => y.cls == f.cls) })).onLine h f t).hostAdmit h).bump
    (od (0x183A + h.val) 2)

theorem State.leave_single {s : State} {h : Fin 2} {f : TxFrame} {t : Nat} (hw : (s.net.host[h]).waiting = [f])
    (hh : (s.net.host[h]).held = []) (hl : s.net.link f.port = true) (hs : s.flag (netOd f.port 0x0D) = false) :
    (s.leave h f t).net.sent = s.net.sent ++ [{ f with at_ := t }] ∧ ((s.leave h f t).net.host[h]).waiting = [] := by
  have e1 := State.modHost_same s h fun x => { x with waiting := x.waiting.eraseP (fun y => y.cls == f.cls) }
  obtain ⟨h1, h2, h3⟩ := State.onLine_plain (h := h) (t := t)
    (s := s.modHost h (fun x => { x with waiting := x.waiting.eraseP (fun y => y.cls == f.cls) })) hl hs
  rw [e1] at h2 h3
  have hn : (s.leave h f t).net = ((s.modHost h fun x => { x with waiting := x.waiting.eraseP (fun y => y.cls == f.cls) }).onLine h f t).net :=
    State.hostAdmit_net (h3.trans hh)
  rw [hn]
  refine ⟨h1, h2.trans ?_⟩
  simp [-Fin.getElem_fin, hw]

/-- A single waiting frame of class 2 whose gate lets it leaves at once, and nothing waits any more (R447). -/
theorem State.hostDrain_single {s : State} {h : Fin 2} {f : TxFrame} {t : Nat} (hw : (s.net.host[h]).waiting = [f])
    (hh : (s.net.host[h]).held = []) (hc : f.cls = 2) (hl : s.net.link f.port = true) (hs : s.flag (netOd f.port 0x0D) = false)
    (hg : s.gateLets h f t = true) (n : Nat) :
    (State.hostDrain (n + 2) s h t).net.sent = s.net.sent ++ [{ f with at_ := t }] ∧
      ((State.hostDrain (n + 2) s h t).net.host[h]).waiting = [] := by
  obtain ⟨c, m, e⟩ := s.credits_host h none t
  have hw1 : ((s.accrue h t).net.host[h]).waiting = [f] := by rw [State.accrue, e]; exact hw
  have hh1 : ((s.accrue h t).net.host[h]).held = [] := by rw [State.accrue, e]; exact hh
  have ho : (s.accrue h t).nextOut h t = some f := State.nextOut_single hw1 hc ((s.gateLets_accrue h t f t).trans hg)
  obtain ⟨h1, h2⟩ := State.leave_single (t := t) hw1 hh1 hl hs
  have hd : State.hostDrain (n + 2) s h t = ((s.accrue h t).leave h f t).accrue h
      (((s.accrue h t).modHost h fun x => { x with waiting := x.waiting.eraseP (fun y => y.cls == f.cls) }).onLine h f t |>.lineFree h) := by
    rw [State.hostDrain]
    simp only [ho]
    exact State.hostDrain_nil h2 _ _
  rw [hd]
  refine ⟨h1, ?_⟩
  obtain ⟨c', m', e'⟩ := ((s.accrue h t).leave h f t).credits_host h none
    (((s.accrue h t).modHost h fun x => { x with waiting := x.waiting.eraseP (fun y => y.cls == f.cls) }).onLine h f t |>.lineFree h)
  rw [State.accrue, e']
  exact h2

/-- RESULT_GATE_REOPEN: from the instant at which the line is free, without the window. -/
def State.reopened (s : State) (h : Fin 2) : State :=
  ((s.quiet.at (s.lineFree h)).accrue h (s.lineFree h)).modHost h (fun x => { x with window := false })

theorem execResultGateReopen_eq (s : State) (h : Fin 2) (e : QueueEcc) :
    execResultGateReopen h e s = .next (((s.reopened h).hostLook h e).hostFlow h) := rfl

theorem State.reopened_host (s : State) (h : Fin 2) : ((s.reopened h).net.host[h]).window = false ∧
    ((s.reopened h).net.host[h]).waiting = (s.net.host[h]).waiting ∧ ((s.reopened h).net.host[h]).held = (s.net.host[h]).held ∧
    ((s.reopened h).net.host[h]).free = (s.net.host[h]).free ∧ ((s.reopened h).net.host[h]).entry = (s.net.host[h]).entry := by
  obtain ⟨c, n, e⟩ := (s.quiet.at (s.lineFree h)).credits_host h none (s.lineFree h)
  have e1 := State.modHost_same ((s.quiet.at (s.lineFree h)).accrue h (s.lineFree h)) h (fun x => { x with window := false })
  rw [State.reopened, e1, State.accrue, e]
  exact ⟨rfl, rfl, rfl, rfl, rfl⟩

theorem State.reopened_lineFree (s : State) (h : Fin 2) : (s.reopened h).lineFree h = s.lineFree h := by
  obtain ⟨-, -, -, hf, -⟩ := s.reopened_host h
  rw [State.lineFree, hf]
  change max (max s.frame.now (max s.frame.now (s.net.host[h]).free)) (s.net.host[h]).free = max s.frame.now (s.net.host[h]).free
  omega

theorem State.reopened_now (s : State) (h : Fin 2) : (s.reopened h).frame.now = s.lineFree h := by
  change max s.frame.now (max s.frame.now (s.net.host[h]).free) = max s.frame.now (s.net.host[h]).free
  omega

theorem State.reopened_sent (s : State) (h : Fin 2) : (s.reopened h).net.sent = [] := rfl

/-- With nothing waiting nothing leaves. -/
theorem State.reopened_nothing {s : State} {h : Fin 2} (e : QueueEcc) (hw : (s.net.host[h]).waiting = []) (hh : (s.net.host[h]).held = []) :
    ((s.reopened h).hostLook h e).hostFlow h = s.reopened h := by
  obtain ⟨-, h1, h2, -, -⟩ := s.reopened_host h
  have hl : (s.reopened h).hostLook h e = s.reopened h := by
    unfold State.hostLook
    rw [State.nextOut_nil (h1.trans hw)]
  rw [hl, State.hostFlow, h1, h2, hw, hh]
  rfl

theorem State.gateLets_reopened (s : State) (h : Fin 2) (f : TxFrame) (t : Nat) :
    (s.reopened h).gateLets h f t = ((s.at (s.lineFree h)).modHost h (fun x => { x with window := false })).gateLets h f t := by
  obtain ⟨hw, -, -, -, he⟩ := s.reopened_host h
  have e1 := State.modHost_same (s.at (s.lineFree h)) h (fun x => { x with window := false })
  refine State.gateLets_net (s.at (s.lineFree h)) h ?_ ?_ f t
  · exact hw.trans (congrArg HostOut.window e1).symm
  · exact he.trans (congrArg HostOut.entry e1).symm

/-- A sound front frame stays where it is. -/
theorem State.hostLook_clean (s : State) (h : Fin 2) : s.hostLook h .clean = s := by
  unfold State.hostLook
  split
  · rfl
  · rfl
  · contradiction
  · contradiction
  · contradiction

/-- One clean frame of class 2 whose gate lets it, on a port whose link is up, leaves as the window ends (R447, R460). -/
theorem State.reopened_single {s : State} {h : Fin 2} {f : TxFrame} (hw : (s.net.host[h]).waiting = [f]) (hh : (s.net.host[h]).held = [])
    (hc : f.cls = 2) (hl : s.net.link f.port = true) (hs : s.flag (netOd f.port 0x0D) = false)
    (hg : ((s.at (s.lineFree h)).modHost h (fun x => { x with window := false })).gateLets h f (s.lineFree h) = true) :
    (((s.reopened h).hostLook h .clean).hostFlow h).net.sent = [{ f with at_ := s.lineFree h }] ∧
      ((((s.reopened h).hostLook h .clean).hostFlow h).net.host[h]).waiting = [] := by
  obtain ⟨-, h1, h2, -, -⟩ := s.reopened_host h
  rw [State.hostLook_clean, State.hostFlow, h1, h2, hw, hh, State.reopened_lineFree]
  exact State.hostDrain_single (h1.trans hw) (h2.trans hh) hc hl hs ((s.gateLets_reopened h f _).trans hg) 1

/-- RESULT_GATE_REOPEN (R460): the window is gone, and what waits leaves where its gate lets it. -/
theorem execResultGateReopen_leaves (s : State) (h : Fin 2) (e : QueueEcc) :
    ∃ t, execResultGateReopen h e s = .next t ∧ (t.net.host[h]).window = false ∧
      ((s.net.host[h]).waiting = [] → (s.net.host[h]).held = [] → t.net.sent = [] ∧ t.frame.now = s.lineFree h) ∧
      (∀ f, (s.net.host[h]).waiting = [f] → (s.net.host[h]).held = [] → f.cls = 2 → e = .clean → s.net.link f.port = true →
        s.flag (netOd f.port 0x0D) = false →
        ((s.at (s.lineFree h)).modHost h (fun x => { x with window := false })).gateLets h f (s.lineFree h) = true →
        t.net.sent = [{ f with at_ := s.lineFree h }] ∧ (t.net.host[h]).waiting = []) := by
  refine ⟨_, execResultGateReopen_eq s h e, ?_, fun hw hh => ?_, fun f hw hh hc he hl hs hg => ?_⟩
  · rw [(Sends.refl _).hostLook.hostFlow.windows h]
    exact (s.reopened_host h).1
  · rw [State.reopened_nothing e hw hh]
    exact ⟨State.reopened_sent s h, State.reopened_now s h⟩
  · subst he
    exact State.reopened_single hw hh hc hl hs hg

end Sys2Proof.Machine
end

