-- ==== Sys2Proof/Proofs/Launch.lean ====
section
/-! SUPPORT. The launch of a record (R460, R462): what E + L has made of the frame by then, and the record kept, counted and sent. -/

namespace Sys2Proof.Machine

variable (s : State)

theorem Calm.safetyCauses {s t : State} (h : Calm s t) : Calm s t.safetyCauses := by
  unfold State.safetyCauses
  extract_lets s1
  have h1 : Calm s s1 := h.causeComp.ite h
  exact h1.causeComp.ite h1

/-- The frame as the launch finds it: past its deadline, its body taken or omitted, with the causes that the safety state gives. -/
def State.atLaunch : State :=
  (if s.deadline.net.results.body.isNone = true ∧ (!s.deadline.net.results.bad) = true then s.deadline.omitBody false
    else s.deadline).safetyCauses

theorem State.omitBody_standing (b : Bool) : (s.omitBody b).standing = s.standing :=
  ((Calm.refl _).raise.standing).trans rfl

theorem State.omitBody_num_other {b : Bool} {k : Nat} (h1 : k ≠ od 0x7900 5) (h2 : k ≠ od 0x1A00 (if b then 7 else 6)) :
    (s.omitBody b).num k = s.num k :=
  (State.num_countRaise_other _ _ _ _ h1 h2).trans rfl

theorem State.atLaunch_standing : s.atLaunch.standing = s.standing := by
  refine (Calm.refl _).safetyCauses.standing.trans ?_
  split
  · rw [State.omitBody_standing, s.deadline_leaves.standing]
  · exact s.deadline_leaves.standing

theorem State.atLaunch_sent : s.atLaunch.net.sent = s.net.sent := by
  rw [State.atLaunch, (Calm.refl _).safetyCauses.net]
  split
  · rw [State.omitBody, State.countRaise_net]
    change s.deadline.net.sent = s.net.sent
    rw [s.deadline_leaves.net]
  · rw [s.deadline_leaves.net]

/-- The launch's own objects are not those of the deadline or of a body that is missing. -/
theorem State.atLaunch_num {k : Nat} (h : k ∈ [od 0x1000 3, od 0x1A00 5]) : s.atLaunch.num k = s.num k := by
  have hr : k ∈ recordKeys := by
    rcases List.mem_pair.1 h with rfl | rfl <;> decide
  have hn : k ≠ od 0x9F00 2 ∧ k ≠ od 0x7900 5 ∧ k ≠ od 0x1A00 6 := by
    rcases List.mem_pair.1 h with rfl | rfl <;> decide
  obtain ⟨h1, h2, h3⟩ := hn
  rw [State.atLaunch, (Calm.refl _).safetyCauses.record k hr]
  split
  · rw [State.omitBody_num_other _ (b := false) h2 h3, s.deadline_leaves.record k hr h1]
  · exact s.deadline_leaves.record k hr h1

theorem State.atLaunch_dropped (hn : s.frame.comp.n ≠ 0) : s.atLaunch.frame.comp.dropped = true := by
  refine (Calm.refl _).safetyCauses.worse.dropped ?_
  split
  · rw [State.omitBody_comp]
    exact State.deadline_dropped hn
  · exact State.deadline_dropped hn

/-- A body that never came makes the frame INVALID and is counted missing (R461). -/
theorem State.atLaunch_missing (h1 : s.net.results.body = none) (h2 : s.net.results.bad = false) :
    3 ≤ s.atLaunch.frame.comp.status ∧ s.atLaunch.num (od 0x1A00 6) = Od.counter (od 0x1A00 6) (s.num (od 0x1A00 6) + 1) := by
  have hc : s.deadline.net.results.body.isNone = true ∧ (!s.deadline.net.results.bad) = true := by
    rw [s.deadline_leaves.net, h1, h2]
    exact ⟨rfl, rfl⟩
  rw [State.atLaunch, if_pos hc]
  have h := (Calm.refl (s.deadline.omitBody false)).safetyCauses
  have h3 : 3 ≤ (s.deadline.omitBody false).frame.comp.status := by
    rw [State.omitBody_comp]
    exact Nat.le_max_right _ _
  refine ⟨h3.trans h.worse.status, ?_⟩
  rw [h.record _ (by decide), ← s.deadline_leaves.record (od 0x1A00 6) (by decide) (by decide)]
  exact s.deadline.omitBody_num false

/-- The record of the frame computed is kept for storage, its frame shown and counted (R462, R472). -/
def State.keepRecord (data : Bytes) : State :=
  let c := s.frame.comp
  let s := s.modComp (fun c => { c with launched := true })
  let s := s.modNet (fun n => { n with results := { n.results with record := some { frame := c.n, e := c.end_, data := data }, latest := c.n } })
  let s := (s.setNum (od 0x1A00 4) c.n).bump (od 0x1A00 5)
  if c.n = 1 then s.setNum (od 0xE000 0x0A) s.sinceWake else s

theorem State.keepRecord_net (d : Bytes) : (s.keepRecord d).net = { s.net with results := { s.net.results with
    record := some { frame := s.frame.comp.n, e := s.frame.comp.end_, data := d }, latest := s.frame.comp.n } } := by
  unfold State.keepRecord
  extract_lets
  split <;> rfl

theorem State.keepRecord_comp (d : Bytes) : (s.keepRecord d).frame.comp = { s.frame.comp with launched := true } := by
  unfold State.keepRecord
  extract_lets
  split <;> rfl

theorem State.keepRecord_num (d : Bytes) {k : Nat} (h : k ≠ od 0xE000 0x0A) :
    (s.keepRecord d).num k = ((s.setNum (od 0x1A00 4) s.frame.comp.n).bump (od 0x1A00 5)).num k := by
  unfold State.keepRecord
  extract_lets
  split
  · exact State.num_setNum_other _ _ h
  · rfl

/-- A launch keeps a record of the frame and sends it. -/
theorem State.launchRecord_keeps : ∃ head body, s.launchRecord =
    (s.atLaunch.keepRecord (head ++ body)).sendRecord s.atLaunch.frame.comp.n head body :=
  ⟨_, _, rfl⟩

/-- While RESULT_IP is 0 nothing leaves (R444). -/
theorem State.sendRecord_noIp {s : State} (h : s.num (od 0x1000 3) = 0) (n : Nat) (a b : Bytes) : s.sendRecord n a b = s := by
  rw [State.sendRecord]
  exact if_pos h

/-- What a launch leaves (R460-R462, R444; log entry 106). -/
theorem State.launchRecord_launches (hn : s.frame.comp.n ≠ 0) : let t := s.launchRecord
    ∃ r, t.frame.comp.launched = true ∧ t.frame.comp.dropped = true ∧
      t.net.results.record = some r ∧ r.frame = s.frame.comp.n ∧ r.e = s.frame.comp.end_ ∧ t.net.results.latest = s.frame.comp.n ∧
      t.num (od 0x1A00 4) = s.frame.comp.n ∧ t.num (od 0x1A00 5) = Od.counter (od 0x1A00 5) (s.num (od 0x1A00 5) + 1) ∧
      (s.num (od 0x1000 3) = 0 → t.net.sent = s.net.sent) ∧
      (s.net.results.body = none → s.net.results.bad = false → 3 ≤ t.frame.comp.status ∧
        t.num (od 0x1A00 6) = Od.counter (od 0x1A00 6) (s.num (od 0x1A00 6) + 1)) := by
  obtain ⟨head, body, e⟩ := s.launchRecord_keeps
  have h : Sends (s.atLaunch.keepRecord (head ++ body)) s.launchRecord := by
    rw [e]
    exact (Sends.refl _).sendRecord
  have hs := s.atLaunch_standing
  have hc : s.launchRecord.frame.comp = { s.atLaunch.frame.comp with launched := true } := by rw [h.frame, State.keepRecord_comp]
  have hk : ∀ k ∈ sendKeys, k ≠ od 0xE000 0x0A → s.launchRecord.num k =
      ((s.atLaunch.setNum (od 0x1A00 4) s.atLaunch.frame.comp.n).bump (od 0x1A00 5)).num k :=
    fun k hk h1 => (h.num k hk).trans (State.keepRecord_num _ _ h1)
  have hr := h.results
  rw [State.keepRecord_net] at hr
  refine ⟨{ frame := s.atLaunch.frame.comp.n, e := s.atLaunch.frame.comp.end_, data := head ++ body }, ?_, ?_, ?_,
    State.comp_of hs, State.compEnd_of hs, ?_, ?_, ?_, fun h0 => ?_, fun h1 h2 => ?_⟩
  · rw [hc]
  · rw [hc]
    exact s.atLaunch_dropped hn
  · rw [hr]
  · rw [hr]
    exact State.comp_of hs
  · rw [hk _ (by decide) (by decide), State.num_bump_other _ _ (by decide), State.num_setNum]
    exact State.comp_of hs
  · rw [hk _ (by decide) (by decide), State.num_bump, State.num_setNum_other _ _ (by decide), s.atLaunch_num (by decide)]
  · have hip : (s.atLaunch.keepRecord (head ++ body)).num (od 0x1000 3) = 0 := by
      rw [State.keepRecord_num _ _ (by decide), State.num_bump_other _ _ (by decide), State.num_setNum_other _ _ (by decide),
        s.atLaunch_num (by decide), h0]
    rw [e, State.sendRecord_noIp hip, State.keepRecord_net]
    exact s.atLaunch_sent
  · obtain ⟨h3, h4⟩ := s.atLaunch_missing h1 h2
    rw [hc]
    refine ⟨h3, ?_⟩
    rw [hk _ (by decide) (by decide), State.num_bump_other _ _ (by decide), State.num_setNum_other _ _ (by decide), h4]

end Sys2Proof.Machine
end

