-- ==== Sys2Proof/Proofs/Storage.lean ====
section
/-! SUPPORT. The storage of a record and the reads that waited for it (R472), and the lists that leave before the first record (R560). -/

namespace Sys2Proof.Machine

/-- What DRAM, the queues and Marigold's mirrors leave of the ports, the sessions, the power state, Marigold's list and RESULT_IP. -/
structure Apart (s t : State) : Prop where
  net : t.net = s.net
  power : t.power = s.power
  mari : t.safety.mari = s.safety.mari
  waits : t.waits = s.waits
  ip : t.num (od 0x1000 3) = s.num (od 0x1000 3)

namespace Apart

variable {s t u : State}

theorem refl (s : State) : Apart s s := ⟨rfl, rfl, rfl, rfl, rfl⟩

theorem trans (h : Apart s t) (k : Apart t u) : Apart s u :=
  ⟨k.net.trans h.net, k.power.trans h.power, k.mari.trans h.mari, k.waits.trans h.waits, k.ip.trans h.ip⟩

theorem ite {c : Prop} [Decidable c] (h : Apart s t) (k : Apart s u) : Apart s (if c then t else u) := ite_keep (P := Apart s) h k

theorem foldl {β : Type} {f : State → β → State} {l : List β} (h : Apart s t) (hf : ∀ t x, Apart s t → Apart s (f t x)) :
    Apart s (l.foldl f t) :=
  foldl_keep (P := Apart s) hf h

theorem setNum {k : Nat} {v : Int} (h : Apart s t) (hk : od 0x1000 3 ≠ k) : Apart s (t.setNum k v) :=
  h.trans ⟨rfl, rfl, rfl, rfl, State.num_setNum_other t v hk⟩

theorem bump {k n : Nat} (h : Apart s t) (hk : od 0x1000 3 ≠ k) : Apart s (t.bump k n) := h.setNum hk

theorem store {k : Nat} {v : OdVal} (h : Apart s t) (hk : od 0x1000 3 ≠ k) : Apart s (t.store k v) :=
  h.trans ⟨rfl, rfl, rfl, rfl, congrArg (fun v => (OdVal.toInt v).toNat) (State.obj_store_other t v hk)⟩

theorem raise {c i v : Nat} {b : Bool} (h : Apart s t) : Apart s (t.raise c i v b) :=
  h.trans ⟨State.raise_net .., State.raise_power .., by rw [State.raise_safety], State.raise_waits .., State.num_raise _ _ _ _ _ (by decide)⟩

theorem countRaise {k c i : Nat} {b : Bool} (h : Apart s t) (hk : od 0x1000 3 ≠ k) : Apart s (t.countRaise k c i b) := (h.bump hk).raise

theorem raiseIng {c i v : Nat} {b : Bool} (h : Apart s t) : Apart s (t.raiseIng c i v b) :=
  h.ite (h.raise.trans ⟨rfl, rfl, rfl, rfl, rfl⟩)

theorem modExt {f : Ext → Ext} (h : Apart s t) : Apart s (t.modExt f) := h.trans ⟨rfl, rfl, rfl, rfl, rfl⟩
theorem setQueue {q : Fin 24} {x : Queue} (h : Apart s t) : Apart s (t.setQueue q x) := h.trans ⟨rfl, rfl, rfl, rfl, rfl⟩

theorem modSafety {f : Safety → Safety} (h : Apart s t) (hf : ∀ x, (f x).mari = x.mari := by exact fun _ => rfl) : Apart s (t.modSafety f) :=
  h.trans ⟨rfl, rfl, hf _, rfl, rfl⟩

/-! DRAM (R346-R353). -/

/-- Objects of an index above 0x1000, so those of a DRAM controller or a queue, are not RESULT_IP. -/
theorem ip_ne_od {i j : Nat} (hj : j < 256) (h : 0x1000 < i) : od 0x1000 3 ≠ od i j := by
  simp only [od]
  omega

theorem ip_ne_ctrl (c : Nat) {j : Nat} (hj : j < 256) : od 0x1000 3 ≠ od (0x7880 + c) j := ip_ne_od hj (by omega)

theorem showSafety (h : Apart s t) : Apart s t.showSafety := by
  unfold State.showSafety
  extract_lets was now s1 s2
  have h1 : Apart s s1 := h.setNum (by decide)
  have h2 : Apart s s2 := (h1.setNum (by decide)).ite h1
  exact h2.raise.ite h2

theorem failController {c : Nat} (h : Apart s t) : Apart s (t.failController c) := by
  unfold State.failController
  extract_lets s1 s2 s3 s4
  have h4 : Apart s s4 := ((h.modExt.setNum (ip_ne_ctrl _ (by decide))).store (by decide)).raise
  exact h.ite (h4.modSafety.showSafety.ite h4)

theorem dramUe {a : Nat} (h : Apart s t) : Apart s (t.dramUe a) := by
  unfold State.dramUe
  extract_lets c now s1 s2 s3
  have h3 : Apart s s3 := ((h.bump (ip_ne_ctrl _ (by decide))).setNum (ip_ne_ctrl _ (by decide))).raiseIng.modExt
  exact h3.failController.ite h3

theorem touchRow {a : Nat} (h : Apart s t) : Apart s (t.touchRow a) := by
  unfold State.touchRow
  exact h.modExt

theorem dramGet {a n : Nat} {e : Ecc} (h : Apart s t) : Apart s (t.dramGet a n e).1 := by
  unfold State.dramGet
  extract_lets s1 ws
  have h1 : Apart s s1 := h.touchRow
  split
  · exact h1.dramUe
  · split
    · exact h1.dramUe
    · split
      · exact h1.modExt.dramUe
      · exact h1.bump (ip_ne_ctrl _ (by decide))
      · exact h1

theorem dramPut {a : Nat} {d : Bytes} (h : Apart s t) : Apart s (t.dramPut a d) := by
  unfold State.dramPut
  exact h.touchRow.foldl fun _ _ h => (h.bump (ip_ne_ctrl _ (by decide))).ite h.modExt

/-! Marigold's mirrors (R259-R263, R422). -/

theorem driveXoff (h : Apart s t) : Apart s t.driveXoff := by
  unfold State.driveXoff
  extract_lets fills on y s1
  have h1 : Apart s s1 := h.trans ⟨rfl, rfl, rfl, rfl, rfl⟩
  exact h1.raiseIng.ite h1

theorem qClear {q : Fin 24} (h : Apart s t) : Apart s (t.qClear q) := h.setQueue.driveXoff.ite h.setQueue

theorem qShift {q : Fin 24} (h : Apart s t) : Apart s (t.qShift q) := h.setQueue.driveXoff.ite h.setQueue

theorem qPop {q : Fin 24} {e : QueueEcc} (h : Apart s t) : Apart s (t.qPop q e).1 := by
  have hk : ∀ j < 256, od 0x1000 3 ≠ od (0x1830 + q) j := fun j hj => ip_ne_od hj (by omega)
  unfold State.qPop
  split
  · exact h
  · split
    · exact h.qClear.countRaise (hk 5 (by decide))
    · exact h.qShift.countRaise (hk 5 (by decide))
    · exact (h.qShift.bump (hk 2 (by decide))).bump (hk 4 (by decide))
    · exact h.qShift.bump (hk 2 (by decide))

theorem mariTake {i : Fin 2} {k : QPacket} (h : Apart s t) : Apart s (t.mariTake i k) := by
  unfold State.mariTake
  exact h.modSafety

theorem mariPop {i : Fin 2} {e : QueueEcc} (h : Apart s t) : Apart s (t.mariPop i e) := by
  unfold State.mariPop
  extract_lets q
  have hq : Apart s (t.qPop q e).1 := h.qPop
  split <;> rename_i eq <;> rw [eq] at hq
  · exact hq.mariTake
  · exact hq

theorem mariTakeAll {i : Fin 2} {e : QueueEcc} (h : Apart s t) : Apart s (t.mariTakeAll i e) := h.mariPop.foldl fun _ _ h => h.mariPop

theorem mariRead {e0 e1 : QueueEcc} (h : Apart s t) : Apart s (t.mariRead e0 e1) := by
  unfold State.mariRead
  exact h.mariTakeAll.mariTakeAll.modSafety

end Apart

/-! Reads of retained records (R472, R500). -/

/-- What serving a read leaves: the record under storage and what each session waits for. -/
structure Serves (s t : State) : Prop where
  record : t.net.results.record = s.net.results.record
  waits : t.waits = s.waits

theorem Apart.serves {s t : State} (h : Apart s t) : Serves s t := ⟨by rw [h.net], h.waits⟩
theorem Sends.serves {s t : State} (h : Sends s t) : Serves s t := ⟨by rw [h.results], h.waits⟩

namespace Serves

variable {s t u : State}

theorem refl (s : State) : Serves s s := ⟨rfl, rfl⟩
theorem trans (h : Serves s t) (k : Serves t u) : Serves s u := ⟨k.record.trans h.record, k.waits.trans h.waits⟩
theorem bump {k n : Nat} (h : Serves s t) : Serves s (t.bump k n) := h.trans ⟨rfl, rfl⟩
theorem drawn (h : Serves s t) : Serves s t.drawn := h.trans ⟨rfl, rfl⟩

theorem readResult {m : Nat} (h : Serves s t) : Serves s (t.readResult m).1 := by
  unfold State.readResult
  extract_lets r want s1 ahead
  have h1 : Serves s s1 := h.bump
  split
  · rename_i x _
    have hg : Serves s (s1.dramGet (retainedAt x.slot) x.len).1 := h1.trans (Apart.refl s1).dramGet.serves
    split <;> rename_i e <;> rw [e] at hg
    · extract_lets s2
      have h2 : Serves s s2 := hg.trans ⟨rfl, rfl⟩
      exact h2.bump.drawn
    · extract_lets age stale count hd s2
      have h2 : Serves s s2 := hg.trans (Apart.refl _).dramPut.serves
      exact ite_keep (P := Serves s) h2.bump h2
  · split
    · exact h1.bump.drawn
    · exact h1.bump.drawn

theorem modSession {i : Nat} {f : Session → Session} (h : Serves s t)
    (hf : ∀ x, ((f x).id, (f x).waitRead) = (x.id, x.waitRead) := by exact fun _ => rfl) : Serves s (t.modSession i f) :=
  h.trans ((Sends.refl t).modSession hf).serves

theorem servePiece {i k o m : Nat} (h : Serves s t) : Serves s (t.servePiece i k o m).1 := by
  unfold State.servePiece
  split
  · exact h
  · split
    · exact h
    · extract_lets s1
      have h1 : Serves s s1 := h.modSession
      split
      · exact h1
      · exact h1

theorem takeSnapshot {i k m : Nat} {d : Bytes} (h : Serves s t) : Serves s (t.takeSnapshot i k m d).1 := by
  unfold State.takeSnapshot
  extract_lets s1
  have h1 : Serves s s1 := h.modSession
  split
  · exact h1
  · exact h1.modSession.servePiece

theorem replyTo {i a p op q st : Nat} {b : Bytes} (h : Serves s t) : Serves s (t.replyTo i a p op q st b) := by
  unfold State.replyTo State.sendReply
  extract_lets m s1
  have h1 : Serves s s1 := h.modSession.trans (Sends.refl _).sendUdp.serves
  clear_value s1
  exact h1.trans ⟨rfl, rfl⟩

end Serves

/-- The session waits for no record any more. -/
def State.endWait (s : State) (i : Nat) : State := s.modSession i (fun x => { x with waitRead := none })

/-- With no record under storage a read that waited is answered. -/
theorem State.answerWait_cases {s : State} (hr : s.net.results.record = none) (i : Nat) :
    ((s.session i).bind (fun x => x.waitRead) = none ∧ s.answerWait i = s) ∨ Serves (s.endWait i) (s.answerWait i) := by
  unfold State.answerWait
  split
  case h_1 e => exact .inl ⟨e, rfl⟩
  case h_2 w e =>
    have hw : s.readWaits w.frame = false := by
      unfold State.readWaits
      rw [hr]
    rw [hw, if_neg Bool.false_ne_true]
    right
    have h1 : Serves (s.endWait i) ((s.endWait i).readResult w.frame).1 := (Serves.refl _).readResult
    extract_lets s1
    split
    rename_i s2 d e2
    have e2' : (s.endWait i).readResult w.frame = (s2, d) := e2
    rw [e2'] at h1
    have h2 : Serves (s.endWait i) (s2.takeSnapshot i (resultKey w.frame) w.maxLen d).1 := h1.takeSnapshot
    split <;> rename_i e3 <;> rw [e3] at h2
    · exact h2.replyTo
    · exact h2

/-- A session's read, if it had one, is answered. -/
def State.waitOver (s : State) (i : Nat) : Prop := ∀ w ∈ s.waits, w.1 = i → w.2 = none

theorem State.ids_eq (s : State) : s.waits.map Prod.fst = s.hap.sessions.map (fun x => x.id) := by
  rw [State.waits, List.map_map]
  rfl

theorem State.endWait_ids (s : State) (i : Nat) : (s.endWait i).waits.map Prod.fst = s.waits.map Prod.fst := by
  rw [State.ids_eq, State.ids_eq]
  exact modifyFirst_map_key (key := fun x : Session => x.id) (f := fun x => { x with waitRead := none }) (fun _ => rfl) _

theorem State.mem_endWait {s : State} (hn : (s.waits.map Prod.fst).Nodup) {i : Nat} {w : Nat × Option WaitRead}
    (hw : w ∈ (s.endWait i).waits) : w.2 = none ∨ (w ∈ s.waits ∧ w.1 ≠ i) := by
  obtain ⟨x, hx, rfl⟩ := List.mem_map.1 hw
  rw [State.ids_eq] at hn
  rcases mem_modifyFirst_key (key := fun x : Session => x.id) (k := i) (fun x => beq_iff_eq) hn hx with ⟨y, -, rfl⟩ | ⟨hx, hne⟩
  · exact .inl rfl
  · exact .inr ⟨List.mem_map_of_mem hx, hne⟩

/-- A session that is found without a read has none. -/
theorem State.waitOver_of_session {s : State} (hn : (s.waits.map Prod.fst).Nodup) {i : Nat}
    (h : (s.session i).bind (fun x => x.waitRead) = none) : s.waitOver i := by
  intro w hw hi
  obtain ⟨x, hx, rfl⟩ := List.mem_map.1 hw
  rw [State.ids_eq] at hn
  cases hf : s.session i with
  | none => exact absurd (beq_iff_eq.2 hi) (List.find?_eq_none.1 hf x hx)
  | some y =>
    have hy : y.id = i := beq_iff_eq.1 (List.find?_some (p := fun x : Session => x.id == i) hf)
    have hxy : x = y := List.inj_on_of_nodup_map hn hx (List.mem_of_find?_eq_some hf) (hi.trans hy.symm)
    rw [hf] at h
    rw [hxy]
    exact h

/-- One answer: the session's read is answered, and no read is begun (R472). -/
theorem State.answerWait_answers {s : State} (hr : s.net.results.record = none) (hn : (s.waits.map Prod.fst).Nodup) (i : Nat) :
    (s.answerWait i).net.results.record = none ∧ (s.answerWait i).waits.map Prod.fst = s.waits.map Prod.fst ∧
      (s.answerWait i).waitOver i ∧ ∀ j, s.waitOver j → (s.answerWait i).waitOver j := by
  rcases State.answerWait_cases hr i with ⟨h, e⟩ | h
  · rw [e]
    exact ⟨hr, rfl, State.waitOver_of_session hn h, fun _ => id⟩
  · have hm : ∀ w ∈ (s.answerWait i).waits, w.2 = none ∨ (w ∈ s.waits ∧ w.1 ≠ i) := fun w hw => by
      rw [h.waits] at hw
      exact State.mem_endWait hn hw
    refine ⟨h.record.trans hr, by rw [h.waits, State.endWait_ids], fun w hw hi => ?_, fun j hj w hw hi => ?_⟩
    · exact (hm w hw).resolve_right fun k => k.2 hi
    · exact (hm w hw).elim id fun k => hj w k.1 hi

/-- The reads of all sessions listed are answered, one after the other (R472). -/
theorem State.answerWaits_answer {l : List Nat} {s : State} (hr : s.net.results.record = none) (hn : (s.waits.map Prod.fst).Nodup) :
    let t := l.foldl (fun s i => s.answerWait i) s
    t.waits.map Prod.fst = s.waits.map Prod.fst ∧ ∀ j, j ∈ l ∨ s.waitOver j → t.waitOver j := by
  induction l generalizing s with
  | nil => exact ⟨rfl, fun j hj => hj.resolve_left List.not_mem_nil⟩
  | cons i l ih =>
    obtain ⟨h1, h2, h3, h4⟩ := State.answerWait_answers hr hn i
    obtain ⟨k1, k2⟩ := ih h1 (by rwa [h2])
    refine ⟨k1.trans h2, fun j hj => k2 j ?_⟩
    rcases hj with hj | hj
    · rcases List.mem_cons.1 hj with rfl | hj
      · exact .inr h3
      · exact .inl hj
    · exact .inr (h4 j hj)

/-- No read brings a record back under storage. -/
theorem State.answerWait_record {s : State} (hr : s.net.results.record = none) (i : Nat) : (s.answerWait i).net.results.record = none := by
  rcases State.answerWait_cases hr i with ⟨-, e⟩ | h
  · rwa [e]
  · exact h.record.trans hr

/-- Where no session waits nothing is answered. -/
theorem State.answerWait_none {s : State} (h : ∀ x ∈ s.hap.sessions, x.waitRead = none) (i : Nat) : s.answerWait i = s := by
  have hb : (s.session i).bind (fun x => x.waitRead) = none := by
    cases hf : s.session i with
    | none => rfl
    | some x => exact h x (List.mem_of_find?_eq_some hf)
  rw [State.answerWait, hb]

/-! Storage (R472). -/

theorem State.storeRecord_record (s : State) : s.storeRecord.net.results.record = none := by
  unfold State.storeRecord
  split
  · assumption
  · rfl

theorem State.storeRecord_waits (s : State) : s.storeRecord.waits = s.waits := by
  unfold State.storeRecord
  split
  · rfl
  · exact (Apart.refl s).dramPut.waits

/-- A record stored is the first of the eight that are retained. -/
theorem State.storeRecord_retained {s : State} {r : Stored} (h : s.net.results.record = some r) : let kept := s.net.results.retained.take 7
    s.storeRecord.net.results.retained = { frame := r.frame, e := r.e, slot := freeRetained kept, len := r.data.length } :: kept := by
  rw [State.storeRecord, h]
  rfl

end Sys2Proof.Machine
end

