-- ==== Sys2Proof/Proofs/FramesCloseAndLaunch.lean ====
section
/-! SUPPORT. The commands of the frames and their records, from any state (R26-R28, R36, R379, R417, R460-R462, R472, R478, R560, R561), and
the obligation they settle. -/

namespace Sys2Proof.Machine

section

variable {s : State} {t : Nat}

/-- Steps to equal states are equal. -/
theorem next_congr {a b : State} (h : a = b) : (.next a : Out) = .next b := by rw [h]

/-! The boundary and the deadline. -/

/-- Before the sweep's end nothing turns (R26). -/
theorem execFrameBoundary_early (hr : s.frame.run = true) (ht : t < s.frame.ing.end_) : execFrameBoundary t s = .next (s.at t).quiet := by
  have h1 : (s.at t).quiet.frame.run = true := hr
  have h2 : t < (s.at t).quiet.frame.ing.end_ ∨ (s.at t).quiet.powerState = 6 := .inl ht
  unfold execFrameBoundary
  extract_lets s0 s1
  rw [if_pos h1, if_pos h2]

/-- In RUN the frames turn when the sweep ends, unless the module shuts down (R26-R28, R553). -/
theorem execFrameBoundary_turns (hr : s.frame.run = true) (ht : s.frame.ing.end_ ≤ t) (hp : s.powerState ≠ 6) :
    execFrameBoundary t s = .next (s.at t).quiet.boundary := by
  have h1 : (s.at t).quiet.frame.run = true := hr
  have h2 : ¬ (t < (s.at t).quiet.frame.ing.end_ ∨ (s.at t).quiet.powerState = 6) := not_or.2 ⟨Nat.not_lt.2 ht, hp⟩
  unfold execFrameBoundary
  extract_lets s0 s1
  rw [if_pos h1, if_neg h2]

/-- Outside RUN the first boundary that permits it enters RUN (R27, R561). -/
theorem execFrameBoundary_enters (hr : s.frame.run = false) (hm : (s.at t).quiet.frameTimes.mayEnter t = true) :
    execFrameBoundary t s = .next ((s.at t).quiet.frameTimes.runEnter t) := by
  have h1 : ¬ (s.at t).quiet.frame.run = true := fun h => Bool.false_ne_true (hr.symm.trans h)
  unfold execFrameBoundary
  extract_lets s0 s1
  rw [if_neg h1, if_pos hm]

/-- The frame times fixed for RUN are part of the frames' state alone. -/
theorem State.frameTimes_enters (s : State) : Enters s s.frameTimes := by
  unfold State.frameTimes
  exact Enters.ite (.refl s) ⟨rfl, rfl⟩

/-- RUN begins with frame 1 (R27, R427, R428, R561). -/
theorem execFrameBoundary_begins (hr : s.frame.run = false) (hm : (s.at t).quiet.frameTimes.mayEnter t = true) :
    ∃ u, execFrameBoundary t s = .next u ∧ u.frame.run = true ∧ u.frame.ing.n = 1 ∧ u.frame.ing.start = t ∧ u.safety.foxAsserts = false ∧
      (s.sched.active.isSome = true → s.powerState = 2 → u.powerState = if s.sched.throttle = 0 then 3 else 4) ∧
      (s.sched.active = none → bitAt (u.num (od 0xA000 3)) 2 = true) := by
  have h := (s.at t).quiet.frameTimes.runEnter_begins t
  have he := (s.at t).quiet.frameTimes_enters
  have hp : (s.at t).quiet.frameTimes.powerState = s.powerState := he.power
  rw [he.sched, hp] at h
  exact ⟨_, execFrameBoundary_enters hr hm, h⟩

/-- A boundary in RUN moves the two frames on (R26-R28, R368, R416, R461, R478; log entry 61). -/
theorem execFrameBoundary_moves (hr : s.frame.run = true) (ht : s.frame.ing.end_ ≤ t) (hp : s.powerState ≠ 6) :
    ∃ u, execFrameBoundary t s = .next u ∧
      u.frame.ing.n = nextFrame s.frame.ing.n ∧ u.frame.ing.start = s.frame.ing.end_ ∧
      u.frame.ing.end_ = s.frame.ing.end_ + s.frame.period ∧ u.frame.comp.n = s.frame.ing.n ∧ u.frame.lastFrame = s.frame.ing.n ∧
      u.dict.waiting = s.dict.waiting.filter (fun w => !decide (w.at_ + 1000000 ≤ s.frame.ing.end_)) ∧
      (∀ i ∈ u.sched.insts, i.state = .idle) ∧ u.safety.verdict = none ∧ u.net.results.body = none := by
  obtain ⟨h, hi, hv, hb⟩ := (s.at t).quiet.boundary_turns
  exact ⟨_, execFrameBoundary_turns hr ht hp, State.ing_of h, State.start_of h, State.end_of h, State.comp_of h, State.lastFrame_of h,
    State.waiting_of h, hi, hv, hb⟩

theorem execFrameDeadline_early (ht : t < s.frame.comp.end_ + s.frame.launch) : execFrameDeadline t s = .next (s.at t) :=
  next_congr (if_pos ht)

theorem execFrameDeadline_due (ht : s.frame.comp.end_ + s.frame.launch ≤ t) : execFrameDeadline t s = .next (s.at t).deadline :=
  next_congr (if_neg (Nat.not_lt.2 ht))

/-! The body (R461). -/

/-- A body that is READY and passes its checks is the frame's; one that fails them is omitted (R461, R466). -/
theorem execResultBodyPoll_takes {core : Fin 16} {p w off : Nat} {s1 s2 : State} {h b : Bytes} {ecc : Finds} (hp : s.polls t)
    (hb : s.bodyAt = some (core, p, w, off)) (ho : ((s.cores[core]).pad.win p w).isOpen = true)
    (h1 : (s.at t).padRead core p w off 32 (some s.net.results.gen) ecc = (s1, .ok h)) (hn : fieldLe h 0 4 = s.frame.comp.n)
    (hr : (h.getD 4 0).toNat % 2 = 1) (hlo : 32 ≤ fieldLe h 16 4) (hhi : fieldLe h 16 4 ≤ 98304)
    (h2 : s1.padRead core p w off (fieldLe h 16 4) (some s.net.results.gen) (findsAfter ecc 4) = (s2, .ok b)) :
    ∃ u, execResultBodyPoll ecc t s = .next u ∧
      (bodyOk s.frame.comp.n b = true → u.net.results = { s.net.results with body := some b }) ∧
      (bodyOk s.frame.comp.n b = false → u.net.results = { s.net.results with bad := true } ∧ 3 ≤ u.frame.comp.status ∧
        u.frame.comp.marigoldPrimary = true ∧ u.num (od 0x1A00 7) = Od.counter (od 0x1A00 7) (s.num (od 0x1A00 7) + 1)) := by
  have c1 : Calm (s.at t) s1 := by
    have := (Calm.refl (s.at t)).padRead (c := core) (p := p) (w := w) (o := off) (n := 32) (g := some s.net.results.gen) (e := ecc)
    rwa [h1] at this
  have c2 : Calm (s.at t) s2 := by
    have := c1.padRead (c := core) (p := p) (w := w) (o := off) (n := fieldLe h 16 4) (g := some s.net.results.gen) (e := findsAfter ecc 4)
    rwa [h2] at this
  have hnet : s2.net = s.net := c2.net
  refine ⟨_, execResultBodyPoll_header hp hb ho h1, fun hk => ?_, fun hk => ?_⟩
  · rw [State.takeBody_ready hn hr hlo hhi h2, if_pos hk]
    exact congrArg (fun n : Net => { n.results with body := some b }) hnet
  · rw [State.takeBody_ready hn hr hlo hhi h2, if_neg (by rw [hk]; exact Bool.false_ne_true), State.omitBody_results, State.omitBody_comp, hnet]
    exact ⟨rfl, Nat.le_max_right _ _, rfl, (s2.omitBody_num true).trans (by rw [c2.record _ (by decide)]; rfl)⟩

/-! The launch, its gates and the storage (R460-R465, R472). -/

theorem execResultGateClose_closes (hn : s.frame.comp.n ≠ 0) (hl : s.frame.comp.launched = false) (hip : s.num (od 0x1000 3) ≠ 0)
    (ht : s.frame.comp.end_ + s.frame.launch ≤ t + 15000) : ∃ u, execResultGateClose t s = .next u ∧
      (∀ h : Fin 2, (u.net.host[h]).window = (s.net.link (hostPort h) || (s.net.host[h]).window) ∧
        (u.net.host[h]).waiting = (s.net.host[h]).waiting) ∧ u.net.sent = s.net.sent :=
  ⟨_, execResultGateClose_shuts hn hl hip ht, (s.at t).shutGates_host,
    (State.shutGate_sent _ 1).trans (State.shutGate_sent _ 0)⟩

theorem execRecordLaunch_launches (hn : s.frame.comp.n ≠ 0) (hl : s.frame.comp.launched = false)
    (ht : s.frame.comp.end_ + s.frame.launch ≤ t) (hp : s.num (od 0xE000 1) ≠ 6) :
    execRecordLaunch t s = .next (s.at t).quiet.launchRecord := by
  have hc : ¬ ((s.at t).quiet.frame.comp.n = 0 ∨ (s.at t).quiet.frame.comp.launched = true ∨
      t < (s.at t).quiet.frame.comp.end_ + (s.at t).quiet.frame.launch ∨ (s.at t).quiet.num (od 0xE000 1) = 6) :=
    not_or.2 ⟨hn, not_or.2 ⟨fun h => Bool.false_ne_true (hl.symm.trans h), not_or.2 ⟨Nat.not_lt.2 ht, hp⟩⟩⟩
  exact next_congr (if_neg hc)

/-- RECORD_STORE (R472): the record is retained, and the reads that waited for it are answered (log entry 107). -/
theorem execRecordStore_stores (s : State) (t : Nat) : ∃ u, execRecordStore t s = .next u ∧ u.net.results.record = none ∧
    (∀ r, s.net.results.record = some r → (∀ x ∈ s.hap.sessions, x.waitRead = none) → let kept := s.net.results.retained.take 7
      u.net.results.retained = { frame := r.frame, e := r.e, slot := freeRetained kept, len := r.data.length } :: kept) ∧
    ((s.hap.sessions.map (·.id)).Nodup → ∀ x ∈ u.hap.sessions, x.waitRead = none) := by
  have hr := (s.at t).quiet.storeRecord_record
  have hw := (s.at t).quiet.storeRecord_waits
  refine ⟨_, rfl, ?_, fun r h hx => ?_, fun hn x hx => ?_⟩
  · exact foldl_keep (P := fun u : State => u.net.results.record = none) (fun _ i h => State.answerWait_record h i) hr
  · have hx' : ∀ x ∈ (s.at t).quiet.storeRecord.hap.sessions, x.waitRead = none := fun x hm => by
      have hm' : (x.id, x.waitRead) ∈ (s.at t).quiet.waits := hw ▸ List.mem_map_of_mem hm
      obtain ⟨y, hy, e⟩ := List.mem_map.1 hm'
      rw [← (Prod.mk.inj e).2]
      exact hx y hy
    have hid := foldl_keep (P := fun u : State => u = (s.at t).quiet.storeRecord) (f := fun u i => u.answerWait i)
      (fun u i h => by rw [h]; exact State.answerWait_none hx' i) (l := (s.at t).quiet.storeRecord.hap.sessions.map (fun x => x.id)) rfl
    rw [hid]
    exact State.storeRecord_retained h
  · have hn' : ((s.at t).quiet.storeRecord.waits.map Prod.fst).Nodup := by
      rw [hw, State.ids_eq]
      exact hn
    obtain ⟨h1, h2⟩ := State.answerWaits_answer (l := (s.at t).quiet.storeRecord.hap.sessions.map (fun x => x.id)) hr hn'
    refine h2 x.id (.inl ?_) (x.id, x.waitRead) (List.mem_map_of_mem hx) rfl
    rw [← State.ids_eq, ← h1, State.ids_eq]
    exact List.mem_map_of_mem hx

/-! Boot records (R560). -/

/-- A boot record is counted, the clusters its list left out are, and the first one shows its instant. -/
def State.bootTurn (s : State) (cut : Nat) : State :=
  let s := if cut = 0 then s else s.bump (od 0xAF00 0x0F) cut
  let s := { s with power := { s.power with bootRecords := s.power.bootRecords + 1 } }
  if s.power.bootRecords = 1 then s.setNum (od 0xE000 9) s.sinceWake else s

theorem State.bootTurn_power (s : State) (cut : Nat) : (s.bootTurn cut).power = { s.power with bootRecords := s.power.bootRecords + 1 } := by
  unfold State.bootTurn
  extract_lets s1 p s2
  have h1 : s1.power = s.power := by simp only [s1]; split <;> rfl
  have h2 : s2.power = { s.power with bootRecords := s.power.bootRecords + 1 } := by simp only [s2, p, h1]
  split
  · exact h2
  · exact h2

theorem State.bootTurn_keeps (s : State) (cut : Nat) : (s.bootTurn cut).net = s.net ∧ (s.bootTurn cut).safety = s.safety ∧
    (s.bootTurn cut).num (od 0x1000 3) = s.num (od 0x1000 3) := by
  unfold State.bootTurn
  extract_lets s1 p s2
  have h1 : s2.net = s.net ∧ s2.safety = s.safety ∧ s2.num (od 0x1000 3) = s.num (od 0x1000 3) := by
    simp only [s2, s1]
    split
    · exact ⟨rfl, rfl, rfl⟩
    · exact ⟨rfl, rfl, State.num_bump_other s _ (by decide)⟩
  obtain ⟨hn, hs, hi⟩ := h1
  split
  · exact ⟨hn, hs, (State.num_setNum_other s2 _ (by decide)).trans hi⟩
  · exact ⟨hn, hs, hi⟩

/-- Until the first record launches a boot record leaves (R560). -/
theorem execMarigoldBootList_bootTurn {e0 e1 : QueueEcc} (h1 : s.net.results.latest = 0) (h2 : s.mariRuns = true)
    (h3 : s.power.booted = true) (h4 : 2 ≤ s.num (od 0xE000 1)) (h5 : s.num (od 0xE000 1) ≠ 6) : ∃ cut head,
      execMarigoldBootList e0 e1 t s = .next ((((s.at t).quiet.mariRead e0 e1).bootTurn cut).sendRecord 0 head []) := by
  have hc : ¬ ((s.at t).quiet.net.results.latest ≠ 0 ∨ (!(s.at t).quiet.mariRuns) = true ∨ (!(s.at t).quiet.power.booted) = true ∨
      (s.at t).quiet.num (od 0xE000 1) < 2 ∨ (s.at t).quiet.num (od 0xE000 1) = 6) := by
    have e2 : (!(s.at t).quiet.mariRuns) = false := congrArg not h2
    have e3 : (!(s.at t).quiet.power.booted) = false := congrArg not h3
    rw [e2, e3]
    simp only [Bool.false_eq_true, false_or, not_or]
    exact ⟨not_not_intro h1, Nat.not_lt.2 h4, h5⟩
  unfold execMarigoldBootList
  extract_lets s0 s1
  rw [if_neg hc]
  generalize s1.mariList 0 s1.mariRecent = x
  obtain ⟨m, cut⟩ := x
  exact ⟨cut, _, rfl⟩

theorem execMarigoldBootList_sends (e0 e1 : QueueEcc) (h1 : s.net.results.latest = 0) (h2 : s.mariRuns = true)
    (h3 : s.power.booted = true) (h4 : 2 ≤ s.num (od 0xE000 1)) (h5 : s.num (od 0xE000 1) ≠ 6) :
    ∃ u, execMarigoldBootList e0 e1 t s = .next u ∧ u.power.bootRecords = s.power.bootRecords + 1 ∧
      u.net.results = s.net.results ∧ u.safety.mari = s.safety.mari ∧ (s.num (od 0x1000 3) = 0 → u.net.sent = []) := by
  obtain ⟨cut, head, e⟩ := execMarigoldBootList_bootTurn (t := t) (e0 := e0) (e1 := e1) h1 h2 h3 h4 h5
  have ha : Apart (s.at t).quiet ((s.at t).quiet.mariRead e0 e1) := (Apart.refl _).mariRead
  obtain ⟨hn, hs, hi⟩ := ((s.at t).quiet.mariRead e0 e1).bootTurn_keeps cut
  have hsend := (Sends.refl (((s.at t).quiet.mariRead e0 e1).bootTurn cut)).sendRecord (n := 0) (a := head) (b := [])
  refine ⟨_, e, ?_, ?_, ?_, fun h0 => ?_⟩
  · rw [hsend.power, State.bootTurn_power, ha.power]
    rfl
  · rw [hsend.results, hn, ha.net]
    rfl
  · rw [hsend.safety, hs, ha.mari]
    rfl
  · rw [State.sendRecord_noIp (hi.trans (ha.ip.trans h0)), hn, ha.net]
    rfl

end

/-- Settles O50: the boundary and the deadline by what the units leave of the frames (`Still`, `Calm`), the result stream by what sending
leaves of it (`Sends`), the storage by one answer for each session that waits. -/
theorem framesCloseAndLaunch : Obligations.FramesCloseAndLaunch := by
  unfold Obligations.FramesCloseAndLaunch
  intro t s
  refine ⟨execFrameBoundary_early, execFrameBoundary_moves, execFrameBoundary_begins, fun hn hd ht hk => ?_, execFrameDeadline_early, ?_,
    execResultGateClose_closes, fun hn hl ht hp => ?_, execResultGateReopen_leaves s, execRecordStore_stores s t,
    execMarigoldBootList_sends⟩
  · exact ⟨_, execFrameDeadline_due ht, (s.at t).deadline_ends hn hd hk⟩
  · intro core p w off s1 s2 h b ecc r hn hd hbody hbad hlo hhi hb ho h1 hf
    have hp : s.polls t := ⟨hn, hd, hbody, hbad, hlo, hhi⟩
    refine ⟨fun hr => ?_, fun hr hmin hmax h2 => execResultBodyPoll_takes hp hb ho h1 hf hr hmin hmax h2⟩
    exact (execResultBodyPoll_header hp hb ho h1).trans (next_congr (State.takeBody_unready hr))
  · obtain ⟨r, h⟩ := (s.at t).quiet.launchRecord_launches hn
    exact ⟨_, r, execRecordLaunch_launches hn hl ht hp, h⟩

end Sys2Proof.Machine
end

