-- ==== Sys2Proof/Proofs/Invariants.lean ====
section
/-! PROOFS. The invariants of the module: they hold at reset, and every row and so every step keeps them (R55, R59, R223, R345). -/

namespace Sys2Proof.Machine

/-- Every row keeps the queue, the parser engines and the byte memories: an arm of `exec` for each, by what its own meaning keeps
(Laws/Sound00 to Sound11). -/
theorem exec_sound {v : List Instr} {s t : State} : ∀ i : Instr, exec i s = .next t → sound v s → sound v t
  | .frameBoundary _, e => execFrameBoundary_sound _ s e
  | .frameDeadline _, e => execFrameDeadline_sound _ s e
  | .resultGateClose _, e => execResultGateClose_sound _ s e
  | .recordLaunch _, e => execRecordLaunch_sound _ s e
  | .resultGateReopen _ _, e => execResultGateReopen_sound _ _ s e
  | .resultBodyPoll _ _, e => execResultBodyPoll_sound _ _ s e
  | .recordStore _, e => execRecordStore_sound _ s e
  | .sensFrameReceive _ _ _, e => execSensFrameReceive_sound _ _ _ s e
  | .packetParseStart _ _ _, e => execPacketParseStart_sound _ _ _ s e
  | .prsNop _ _, e => execPrsNop_sound _ _ s e
  | .prsExt _ _, e => execPrsExt_sound _ _ s e
  | .prsScl _ _, e => execPrsScl_sound _ _ s e
  | .prsAdd _ _, e => execPrsAdd_sound _ _ s e
  | .prsAddi _ _, e => execPrsAddi_sound _ _ s e
  | .prsAnd _ _, e => execPrsAnd_sound _ _ s e
  | .prsLut _ _, e => execPrsLut_sound _ _ s e
  | .prsCvt _ _, e => execPrsCvt_sound _ _ s e
  | .prsCvc _ _, e => execPrsCvc_sound _ _ s e
  | .prsSet _ _, e => execPrsSet_sound _ _ s e
  | .prsTsp _ _, e => execPrsTsp_sound _ _ s e
  | .prsRng _ _, e => execPrsRng_sound _ _ s e
  | .prsPls _ _, e => execPrsPls_sound _ _ s e
  | .prsRej _ _, e => execPrsRej_sound _ _ s e
  | .prsEmit _ _, e => execPrsEmit_sound _ _ s e
  | .prsAdv _ _, e => execPrsAdv_sound _ _ s e
  | .prsBr _ _, e => execPrsBr_sound _ _ s e
  | .prsLoop _ _, e => execPrsLoop_sound _ _ s e
  | .prsIdn _ _, e => execPrsIdn_sound _ _ s e
  | .prsEnd _ _, e => execPrsEnd_sound _ _ s e
  | .prsSwp _ _, e => execPrsSwp_sound _ _ s e
  | .pointCompensate, e => execPointCompensate_sound s e
  | .cellInsert, e => execCellInsert_sound s e
  | .headLossTimeout _ _, e => execHeadLossTimeout_sound _ _ s e
  | .accept _ _ _, e => execAccept_sound _ _ _ s e
  | .calEvaluate _ _, e => execCalEvaluate_sound _ _ s e
  | .lifeCounterStore _, e => execLifeCounterStore_sound _ s e
  | .pose _, e => execPose_sound _ s e
  | .runaheadResolve, e => execRunaheadResolve_sound s e
  | .runaheadWithdraw, e => execRunaheadWithdraw_sound s e
  | .runaheadReinsert, e => execRunaheadReinsert_sound s e
  | .ageEntry, e => execAgeEntry_sound s e
  | .snapRequest _ _, e => execSnapRequest_sound _ _ s e
  | .snapshotComplete, e => execSnapshotComplete_sound s e
  | .cellRowExport _, e => execCellRowExport_sound _ s e
  | .keyRecordExport _, e => execKeyRecordExport_sound _ s e
  | .rulebookBuild _ _, e => execRulebookBuild_sound _ _ s e
  | .segmentWrite _ _ _, e => execSegmentWrite_sound _ _ _ s e
  | .firstResolutionReport _, e => execFirstResolutionReport_sound _ s e
  | .speculativeBuild _ _ _, e => execSpeculativeBuild_sound _ _ _ s e
  | .epochSquash _, e => execEpochSquash_sound _ s e
  | .nop _ _, e => execNop_sound _ _ s e
  | .add _ _, e => execAdd_sound _ _ s e
  | .sub _ _, e => execSub_sound _ _ s e
  | .and _ _, e => execAnd_sound _ _ s e
  | .or _ _, e => execOr_sound _ _ s e
  | .xor _ _, e => execXor_sound _ _ s e
  | .shl _ _, e => execShl_sound _ _ s e
  | .shr _ _, e => execShr_sound _ _ s e
  | .sra _ _, e => execSra_sound _ _ s e
  | .mul _ _, e => execMul_sound _ _ s e
  | .min _ _, e => execMin_sound _ _ s e
  | .max _ _, e => execMax_sound _ _ s e
  | .addi _ _, e => execAddi_sound _ _ s e
  | .andi _ _, e => execAndi_sound _ _ s e
  | .ori _ _, e => execOri_sound _ _ s e
  | .shli _ _, e => execShli_sound _ _ s e
  | .shri _ _, e => execShri_sound _ _ s e
  | .srai _ _, e => execSrai_sound _ _ s e
  | .li _ _, e => execLi_sound _ _ s e
  | .lih _ _, e => execLih_sound _ _ s e
  | .cmp _ _, e => execCmp_sound _ _ s e
  | .cmpi _ _, e => execCmpi_sound _ _ s e
  | .plog _ _, e => execPlog_sound _ _ s e
  | .br _ _, e => execBr_sound _ _ s e
  | .loop _ _, e => execLoop_sound _ _ s e
  | .jal _ _, e => execJal_sound _ _ s e
  | .jr _ _, e => execJr_sound _ _ s e
  | .tinfo _ _ _ _, e => execTinfo_sound _ _ _ _ s e
  | .tend _ _, e => execTend_sound _ _ s e
  | .tendComplete _, e => execTendComplete_sound _ s e
  | .trap _ _, e => execTrap_sound _ _ s e
  | .ld _ _ _, e => execLd_sound _ _ _ s e
  | .st _ _, e => execSt_sound _ _ s e
  | .aadd _ _ _, e => execAadd_sound _ _ _ s e
  | .aswp _ _ _, e => execAswp_sound _ _ _ s e
  | .tset _ _, e => execTset_sound _ _ s e
  | .tget _ _, e => execTget_sound _ _ s e
  | .wopen _ _, e => execWopen_sound _ _ s e
  | .wclose _ _, e => execWclose_sound _ _ s e
  | .winfo _ _, e => execWinfo_sound _ _ s e
  | .amode _ _, e => execAmode_sound _ _ s e
  | .amm _ _, e => execAmm_sound _ _ s e
  | .adrain _ _, e => execAdrain_sound _ _ s e
  | .await _ _, e => execAwait_sound _ _ s e
  | .awaitComplete _, e => execAwaitComplete_sound _ s e
  | .astat _ _, e => execAstat_sound _ _ s e
  | .segh _ _ _, e => execSegh_sound _ _ _ s e
  | .segr _ _, e => execSegr_sound _ _ s e
  | .segmentSlotReturn _ _, e => execSegmentSlotReturn_sound _ _ s e
  | .dmaCopy _ _, e => execDmaCopy_sound _ _ s e
  | .dmaAdd _ _, e => execDmaAdd_sound _ _ s e
  | .dmaConv _ _, e => execDmaConv_sound _ _ s e
  | .dmaComplete _ _, e => execDmaComplete_sound _ _ s e
  | .maskb _ _, e => execMaskb_sound _ _ s e
  | .drep _ _, e => execDrep_sound _ _ s e
  | .waitk _ _, e => execWaitk_sound _ _ s e
  | .waitkResume _, e => execWaitkResume_sound _ s e
  | .kget _ _, e => execKget_sound _ _ s e
  | .ksub _ _, e => execKsub_sound _ _ s e
  | .fence _ _, e => execFence_sound _ _ s e
  | .fenceComplete _, e => execFenceComplete_sound _ s e
  | .bar _ _, e => execBar_sound _ _ s e
  | .tkrst _ _, e => execTkrst_sound _ _ s e
  | .tkin _ _ _, e => execTkin_sound _ _ _ s e
  | .topkListFinal _, e => execTopkListFinal_sound _ s e
  | .tkout _ _, e => execTkout_sound _ _ s e
  | .tkmrg _ _, e => execTkmrg_sound _ _ s e
  | .arrayPassStart _ _ _ _, e => execArrayPassStart_sound _ _ _ _ s e
  | .bulkLoad _ _ _, e => execBulkLoad_sound _ _ _ s e
  | .rippleLoad _ _ _, e => execRippleLoad_sound _ _ _ s e
  | .osDrain _, e => execOsDrain_sound _ s e
  | .chunkVerdict _, e => execChunkVerdict_sound _ s e
  | .mergeChunk _ _, e => execMergeChunk_sound _ _ s e
  | .preemptSave _, e => execPreemptSave_sound _ s e
  | .arrayRepairClear _ _, e => execArrayRepairClear_sound _ _ s e
  | .msgWrite _ _ _, e => execMsgWrite_sound _ _ _ s e
  | .msgAdd _ _ _ _, e => execMsgAdd_sound _ _ _ _ s e
  | .msgRead _ _ _, e => execMsgRead_sound _ _ _ s e
  | .msgRdata _ _, e => execMsgRdata_sound _ _ s e
  | .msgAck _ _, e => execMsgAck_sound _ _ s e
  | .msgNack _ _, e => execMsgNack_sound _ _ s e
  | .msgCredit _ _, e => execMsgCredit_sound _ _ s e
  | .msgReport _ _ _, e => execMsgReport_sound _ _ _ s e
  | .msgA2aReq _ _, e => execMsgA2aReq_sound _ _ s e
  | .msgA2aRow _ _, e => execMsgA2aRow_sound _ _ s e
  | .msgTkm _ _, e => execMsgTkm_sound _ _ s e
  | .msgTkmFinal _ _, e => execMsgTkmFinal_sound _ _ s e
  | .msgBarArrive _ _, e => execMsgBarArrive_sound _ _ s e
  | .msgBarRelease _ _, e => execMsgBarRelease_sound _ _ s e
  | .msgReservedType _ _, e => execMsgReservedType_sound _ _ s e
  | .requestTimeout _ _ _, e => execRequestTimeout_sound _ _ _ s e
  | .scrubStep _ _ _ _, e => execScrubStep_sound _ _ _ _ s e
  | .marchRequest _ _, e => execMarchRequest_sound _ _ s e
  | .preservingTestRow _ _ _ _ _, e => execPreservingTestRow_sound _ _ _ _ _ s e
  | .startupMarchTest _, e => execStartupMarchTest_sound _ s e
  | .rowRepairClear _ _, e => execRowRepairClear_sound _ _ s e
  | .wipeComplete, e => execWipeComplete_sound s e
  | .flush _ _ _, e => execFlush_sound _ _ _ s e
  | .peerFrameReceive _ _ _, e => execPeerFrameReceive_sound _ _ _ s e
  | .pfcPauseRepeat _ _, e => execPfcPauseRepeat_sound _ _ s e
  | .pfcPauseReceive _ _ _ _, e => execPfcPauseReceive_sound _ _ _ _ s e
  | .pfcPauseExpire _ _ _, e => execPfcPauseExpire_sound _ _ _ s e
  | .peerAssemblyClose _ _, e => execPeerAssemblyClose_sound _ _ s e
  | .ringPoll _ _, e => execRingPoll_sound _ _ s e
  | .peonyLookup _, e => execPeonyLookup_sound _ s e
  | .peonyUpdate _, e => execPeonyUpdate_sound _ s e
  | .peonyWrite _, e => execPeonyWrite_sound _ s e
  | .peonyRelease _, e => execPeonyRelease_sound _ s e
  | .peonyApply _, e => execPeonyApply_sound _ s e
  | .peonyFill _ _, e => execPeonyFill_sound _ _ s e
  | .peonyStatusRecord _, e => execPeonyStatusRecord_sound _ s e
  | .exchangeBatch _ _, e => execExchangeBatch_sound _ _ s e
  | .build _ _ _, e => execBuild_sound _ _ _ s e
  | .createShadow _ _ _, e => execCreateShadow_sound _ _ _ s e
  | .seal _ _ _, e => execSeal_sound _ _ _ s e
  | .switch _ _ _, e => execSwitch_sound _ _ _ s e
  | .versionSwitch _, e => execVersionSwitch_sound _ s e
  | .versionRetire _, e => execVersionRetire_sound _ s e
  | .replicaPrepared _ _, e => execReplicaPrepared_sound _ _ s e
  | .validation _ _ _, e => execValidation_sound _ _ _ s e
  | .dramRead _ _ _ _, e => execDramRead_sound _ _ _ _ s e
  | .dramWrite _ _, e => execDramWrite_sound _ _ s e
  | .dramRefresh _ _ _, e => execDramRefresh_sound _ _ _ s e
  | .patrolScrub _ _ _ _, e => execPatrolScrub_sound _ _ _ _ s e
  | .dramControllerFail _, e => execDramControllerFail_sound _ s e
  | .failureClear _ _, e => execFailureClear_sound _ _ s e
  | .hyperramRead _ _ _ _ _, e => execHyperramRead_sound _ _ _ _ _ s e
  | .hyperramWrite _ _ _ _, e => execHyperramWrite_sound _ _ _ _ s e
  | .eventLogFlush _, e => execEventLogFlush_sound _ s e
  | .schedule _ _, e => execSchedule_sound _ _ s e
  | .scheduleActivate _, e => execScheduleActivate_sound _ s e
  | .instanceRelease _ _ _, e => execInstanceRelease_sound _ _ _ s e
  | .slotEntryBegin _ _, e => execSlotEntryBegin_sound _ _ s e
  | .budgetOverrun _ _ _, e => execBudgetOverrun_sound _ _ _ s e
  | .preemptLimitExpire _, e => execPreemptLimitExpire_sound _ s e
  | .throttleUpdate _, e => execThrottleUpdate_sound _ s e
  | .hollyhockEntry _ _, e => execHollyhockEntry_sound _ _ s e
  | .goldenTestComplete _ _ _ _, e => execGoldenTestComplete_sound _ _ _ _ s e
  | .foxgloveTestPair _, e => execFoxgloveTestPair_sound _ s e
  | .checkListPoll _ _ _, e => execCheckListPoll_sound _ _ _ s e
  | .copyCompare, e => execCopyCompare_sound s e
  | .plausibilityCheck, e => execPlausibilityCheck_sound s e
  | .verdictLate _, e => execVerdictLate_sound _ s e
  | .marigoldSweep _ _ _, e => execMarigoldSweep_sound _ _ _ s e
  | .marigoldLockstepMismatch _, e => execMarigoldLockstepMismatch_sound _ s e
  | .marigoldSelfTest _ _, e => execMarigoldSelfTest_sound _ _ s e
  | .marigoldBootList _ _ _, e => execMarigoldBootList_sound _ _ _ s e
  | .supervisorKick _, e => execSupervisorKick_sound _ s e
  | .watchdogTimeout _, e => execWatchdogTimeout_sound _ s e
  | .faultLine _ _, e => execFaultLine_sound _ _ s e
  | .launchLineToggle _, e => execLaunchLineToggle_sound _ s e
  | .missingLaunch _, e => execMissingLaunch_sound _ s e
  | .clockMonitor _, e => execClockMonitor_sound _ s e
  | .faultNReadback _ _, e => execFaultNReadback_sound _ _ s e
  | .forceFallback _ _, e => execForceFallback_sound _ _ s e
  | .linkUp _, e => execLinkUp_sound _ s e
  | .linkDown _, e => execLinkDown_sound _ s e
  | .hostFrameReceive _ _ _ _, e => execHostFrameReceive_sound _ _ _ _ s e
  | .arpRequest _ _, e => execArpRequest_sound _ _ s e
  | .icmpEcho _ _, e => execIcmpEcho_sound _ _ s e
  | .syncReceive _ _, e => execSyncReceive_sound _ _ s e
  | .syncSend _ _, e => execSyncSend_sound _ _ s e
  | .pdelayRequestSend _ _, e => execPdelayRequestSend_sound _ _ s e
  | .pdelayRequestReceive _ _, e => execPdelayRequestReceive_sound _ _ s e
  | .syncTimeout _, e => execSyncTimeout_sound _ s e
  | .syncWaitExpire _, e => execSyncWaitExpire_sound _ s e
  | .ppsOutRise _, e => execPpsOutRise_sound _ s e
  | .ppsInEdge _, e => execPpsInEdge_sound _ s e
  | .tc10SleepRequest, e => execTc10SleepRequest_sound s e
  | .tc10Wake, e => execTc10Wake_sound s e
  | .hapOpen _, e => execHapOpen_sound _ s e
  | .hapClose _, e => execHapClose_sound _ s e
  | .hapPing _, e => execHapPing_sound _ s e
  | .hapRead _, e => execHapRead_sound _ s e
  | .hapWrite _, e => execHapWrite_sound _ s e
  | .hapDescribe _, e => execHapDescribe_sound _ s e
  | .hapList _, e => execHapList_sound _ s e
  | .blobRead _, e => execBlobRead_sound _ s e
  | .blobBegin _, e => execBlobBegin_sound _ s e
  | .blobSegment _, e => execBlobSegment_sound _ s e
  | .blobEnd _, e => execBlobEnd_sound _ s e
  | .blobAbort _, e => execBlobAbort_sound _ s e
  | .blobTransferTimeout _ _, e => execBlobTransferTimeout_sound _ _ s e
  | .blobSnapshotExpire _ _, e => execBlobSnapshotExpire_sound _ _ s e
  | .unlockChallenge _, e => execUnlockChallenge_sound _ s e
  | .unlockResponse _, e => execUnlockResponse_sound _ s e
  | .lock _, e => execLock_sound _ s e
  | .subscribe _, e => execSubscribe_sound _ s e
  | .unsubscribe _, e => execUnsubscribe_sound _ s e
  | .resultRead _, e => execResultRead_sound _ s e
  | .eventNotify _ _, e => execEventNotify_sound _ _ s e
  | .sessionTimeout _ _, e => execSessionTimeout_sound _ _ s e
  | .srvClear _ _, e => execSrvClear_sound _ _ s e
  | .updateGate _ _, e => execUpdateGate_sound _ _ s e
  | .updateGateExpire _, e => execUpdateGateExpire_sound _ s e
  | .activate _ _ _, e => execActivate_sound _ _ _ s e
  | .discard _ _, e => execDiscard_sound _ _ s e
  | .componentEffect _, e => execComponentEffect_sound _ s e
  | .lcRequest _ _, e => execLcRequest_sound _ _ s e
  | .heldTransitionRelease _, e => execHeldTransitionRelease_sound _ s e
  | .vendorExpiry _ _, e => execVendorExpiry_sound _ _ s e
  | .lockoutExpiry _, e => execLockoutExpiry_sound _ s e
  | .attestNonce _ _, e => execAttestNonce_sound _ _ s e
  | .attestQuoteReady _ _, e => execAttestQuoteReady_sound _ _ s e
  | .authorityKeyWrite _ _ _, e => execAuthorityKeyWrite_sound _ _ _ s e
  | .txSa _ _ _, e => execTxSa_sound _ _ _ s e
  | .rxSa _ _ _, e => execRxSa_sound _ _ _ s e
  | .tamperDetect _, e => execTamperDetect_sound _ s e
  | .debugPortClose _, e => execDebugPortClose_sound _ s e
  | .primroseBoot _ _ _ _, e => execPrimroseBoot_sound _ _ _ _ s e
  | .supervisorStartTimeout _, e => execSupervisorStartTimeout_sound _ s e
  | .recoveryHello _, e => execRecoveryHello_sound _ s e
  | .recoveryBegin _, e => execRecoveryBegin_sound _ s e
  | .recoverySegment _, e => execRecoverySegment_sound _ s e
  | .recoveryEnd _, e => execRecoveryEnd_sound _ s e
  | .recoveryTransferTimeout _, e => execRecoveryTransferTimeout_sound _ s e
  | .doipVehicleIdentification _, e => execDoipVehicleIdentification_sound _ s e
  | .doipVehicleAnnouncement _, e => execDoipVehicleAnnouncement_sound _ s e
  | .doipRoutingActivation _, e => execDoipRoutingActivation_sound _ s e
  | .doipAliveCheck _, e => execDoipAliveCheck_sound _ s e
  | .doipEntityStatus _, e => execDoipEntityStatus_sound _ s e
  | .doipPowerMode _, e => execDoipPowerMode_sound _ s e
  | .doipGenericNack _, e => execDoipGenericNack_sound _ s e
  | .doipDiagnosticMessage _, e => execDoipDiagnosticMessage_sound _ s e
  | .diagnosticSessionControl _, e => execDiagnosticSessionControl_sound _ s e
  | .ecuReset _, e => execEcuReset_sound _ s e
  | .clearDiagnosticInformation _, e => execClearDiagnosticInformation_sound _ s e
  | .readDtcInformation _, e => execReadDtcInformation_sound _ s e
  | .readDataByIdentifier _, e => execReadDataByIdentifier_sound _ s e
  | .securityAccessRequestSeed _, e => execSecurityAccessRequestSeed_sound _ s e
  | .securityAccessSendKey _, e => execSecurityAccessSendKey_sound _ s e
  | .routineControl _, e => execRoutineControl_sound _ s e
  | .testerPresent _, e => execTesterPresent_sound _ s e
  | .s3Timeout _ _, e => execS3Timeout_sound _ _ s e
  | .supplyBandChange _ _ _, e => execSupplyBandChange_sound _ _ _ s e
  | .highBandTimeout _, e => execHighBandTimeout_sound _ s e
  | .powerFailure _, e => execPowerFailure_sound _ s e
  | .wake _, e => execWake_sound _ s e
  | .offDelayExpire _, e => execOffDelayExpire_sound _ s e
  | .shutdownSaveTimeout _, e => execShutdownSaveTimeout_sound _ s e
  | .pllLockFailure _, e => execPllLockFailure_sound _ s e
  | .restart _ _, e => execRestart_sound _ _ s e
  | .coreResetRelease _ _, e => execCoreResetRelease_sound _ _ s e
  | .mainChannelReady _, e => execMainChannelReady_sound _ s e
  | .mainNotReady _, e => execMainNotReady_sound _ s e
  | .sensorSample _ _ _, e => execSensorSample_sound _ _ _ s e
  | .marigoldDue _, e => execMarigoldDue_sound _ s e
  | .marigoldRestartComplete _ _, e => execMarigoldRestartComplete_sound _ _ s e
  | .kl15Change _ _ _, e => execKl15Change_sound _ _ _ s e
  | .ppsOutFall _, e => execPpsOutFall_sound _ s e
  | .pdelayResponseReceive _ _, e => execPdelayResponseReceive_sound _ _ s e
  | .messageIntervalRequest _ _, e => execMessageIntervalRequest_sound _ _ s e
  | .gateListIntervalEnd _ _, e => execGateListIntervalEnd_sound _ _ s e
  | .cbResetTimeout _ _, e => execCbResetTimeout_sound _ _ s e
  | .doipConnectionClose _, e => execDoipConnectionClose_sound _ s e

/-- A step keeps the engines and the memories: it idles, or runs the command at the front on the queue's rest. -/
theorem step_keeps_wf {s t : State} (e : step s = .next t) (he : s.enginesWf) (hm : s.memoriesWf) : t.enginesWf ∧ t.memoriesWf := by
  unfold step at e
  split at e
  case h_1 =>
    cases e
    exact ⟨he, hm⟩
  case h_2 => exact (exec_sound _ e ⟨rfl, he, hm⟩).2

/-- Settles O4: a step keeps both invariants together, the engines' among them. -/
theorem everyStepKeepsEngines : Obligations.EveryStepKeepsEngines := by
  unfold Obligations.EveryStepKeepsEngines
  intro s t he hm e
  exact (step_keeps_wf e he hm).1

/-! Reset. -/

theorem State.engine_reset (e : Fin 16) : State.reset.engine e = {} := Vector.getElem_replicate ..

theorem Engine.wf_idle : ({} : Engine).wf = true := by decide

theorem State.mem_reset (c : Fin 16) : (State.reset.cores[c]).pad.mem = [] :=
  congrArg (fun k : Core => k.pad.mem) (Vector.getElem_replicate ..)

/-- Settles O3: at reset every engine is idle with v0 zero, and no byte of any memory has been written. -/
theorem resetMeetsInvariants : Obligations.ResetMeetsInvariants := by
  unfold Obligations.ResetMeetsInvariants
  refine ⟨fun e => ?_, rfl, rfl, fun c => ?_⟩
  · rw [State.engine_reset]
    exact Engine.wf_idle
  · rw [State.mem_reset]
    rfl

end Sys2Proof.Machine
end

