-- ==== Sys2Proof/Proofs/ParserRows.lean ====
section
/-! PROOFS. The rows of a parser engine that change the engine alone: those that write a register and those that stage a point (R57, R588). -/

namespace Sys2Proof.Machine

variable {s : State} {e : Fin 16} {op : Nat} {w : BitVec 27}

/-! Registers and fields. -/

/-- A row that writes a register: the engine takes the value and goes on with the next word. -/
theorem State.parseReg_setReg (h : s.parsesOn e op w) {f : Engine → Option Engine} {r : Fin 16} {v : Engine → BitVec 32}
    (hf : f (s.engine e) = some ((s.engine e).setReg r (v (s.engine e)))) :
    s.parseReg e op w f = s.modEngine e (fun x => (x.setReg r (v x)).next) :=
  State.parseReg_next h f (g := fun x => x.setReg r (v x)) hf (Engine.setReg_words ..) (Engine.setReg_count ..) (Engine.setReg_pc ..)

theorem ofNat_unsignedOf (z : Int) : BitVec.ofNat 32 (unsignedOf 32 z) = BitVec.ofInt 32 z := by
  apply BitVec.eq_of_toNat_eq
  have : z % 4294967296 < 4294967296 := Int.emod_lt_of_pos z (by decide)
  simpa [unsignedOf, BitVec.toNat_ofInt] using this

theorem signedOf_ofNat (n v : Nat) : signedOf n v = (BitVec.ofNat n v).toInt := by
  simp [signedOf, BitVec.toInt]

/-- A field that EXT extracts within the packet, sign-extended or not (R57). -/
theorem extField_within {x : Engine} {off wm1 sh : Nat} {sgn be : Bool}
    (h : x.cursor + off + ceilDiv (sh + (wm1 + 1)) 8 ≤ x.payload.length) :
    extField x off wm1 sh sgn be =
      let k := ceilDiv (sh + (wm1 + 1)) 8
      let raw := if be then fieldBe x.payload (x.cursor + off) k / 2 ^ (8 * k - sh - (wm1 + 1)) % 2 ^ (wm1 + 1)
        else fieldLe x.payload (x.cursor + off) k / 2 ^ sh % 2 ^ (wm1 + 1)
      some (if sgn then unsignedOf 32 (signedOf (wm1 + 1) raw) else raw) :=
  if_neg (Nat.not_lt.mpr h)

/-- The register value of an extracted field. -/
theorem ofNat_extended (c : Prop) [Decidable c] (n v : Nat) :
    BitVec.ofNat 32 (if c then unsignedOf 32 (signedOf n v) else v) = if c then (BitVec.ofNat n v).signExtend 32 else BitVec.ofNat 32 v := by
  split
  · rw [ofNat_unsignedOf, signedOf_ofNat]
    rfl
  · rfl

/-- EXT within the packet (R57). -/
theorem execPrsExt_within (h : s.parsesOn e 0x01 w) {n k off sh v : Nat} (hn : n = fld w 11 7 + 1) (hsh : sh = fld w 6 4)
    (hk : k = (sh + n + 7) / 8) (ho : off = (s.engine e).cursor + fld w 22 12) (hin : off + k ≤ (s.engine e).payload.length)
    (hv : v = (if fld w 2 2 = 1 then fieldBe (s.engine e).payload off k / 2 ^ (8 * k - sh - n) % 2 ^ n
      else fieldLe (s.engine e).payload off k / 2 ^ sh % 2 ^ n)) :
    execPrsExt e w s = .next (s.modEngine e (fun x => (x.setReg (regNo w 23)
      (if fld w 3 3 = 1 then (BitVec.ofNat n v).signExtend 32 else BitVec.ofNat 32 v)).next)) := by
  subst hn hsh hk ho hv
  refine next_congr (State.parseReg_setReg h (v := fun _ => _) ?_)
  simp only [rowExt, extField_within hin, Option.map, ofNat_extended, beq_iff_eq]
  rfl

/-- Settles O8: each row writes one register (`State.parseReg_setReg`); EXT's field is `extField_within`, its sign `ofNat_extended`. -/
theorem parserRegisterRowsWriteVd : Obligations.ParserRegisterRowsWriteVd := by
  unfold Obligations.ParserRegisterRowsWriteVd
  intro e w s
  refine ⟨fun h => next_congr (State.parseReg_setReg h rfl), fun h => ?_, fun h => next_congr (State.parseReg_setReg h rfl), fun h => ?_,
    fun h n k off sh hn hsh hk ho hin v hv => execPrsExt_within h hn hsh hk ho hin hv⟩
  · rw [signExt_ofInt, ← fld_low w 19 (by decide)]
    exact next_congr (State.parseReg_setReg h rfl)
  · rw [← fld_low w 14 (by decide)]
    exact next_congr (State.parseReg_setReg h rfl)

/-! Rows that reach beyond registers. -/

/-- An engine that has counted one more instruction. -/
def Engine.counts (x : Engine) : Engine := { x with count := x.count + 1 }

@[simp] theorem Engine.counts_words (x : Engine) : x.counts.words = x.words := rfl
@[simp] theorem Engine.counts_port (x : Engine) : x.counts.port = x.port := rfl

/-- The state in which a row acts: its engine has counted it (R59). -/
abbrev State.rowCounted (s : State) (e : Fin 16) : State := s.modEngine e Engine.counts

/-- A row that goes on with the next word, whatever state its effect leaves, as long as the program stays. -/
theorem State.parse_goesOn {t : State} (h : s.parsesOn e op w) {f : Engine → State → Option (State × Nat)}
    (hf : f (s.engine e) (s.rowCounted e) = some (t, (s.engine e).pc + 1)) (hw : (t.engine e).words = (s.engine e).words) :
    s.parse e op w f = t.modEngine e (fun x => { x with pc := (s.engine e).pc + 1 }) := by
  obtain ⟨h1, h2⟩ := h
  have hr := State.parse_parses h1 f
  change _ = (match f (s.engine e) (s.rowCounted e) with | none => _ | some (t, pc) => _) at hr
  rw [hr, hf]
  exact State.goTo_within (hw ▸ h2)

@[simp] theorem Engine.reg_setReg (x : Engine) (r : Fin 16) (v : BitVec 32) : (x.setReg r v).reg r = if r = 0 then 0 else v := by
  unfold Engine.setReg Engine.reg
  split
  · rfl
  · simp

/-- An engine whose staged point is rejected where `b` says so. -/
def Engine.rejects (x : Engine) (b : Bool) : Engine := { x with staged := { x.staged with rejected := x.staged.rejected || b } }

theorem Engine.rejects_false (x : Engine) : x.rejects false = x := by rw [Engine.rejects, Bool.or_false]

/-- A register write leaves the port. -/
@[simp] theorem Engine.setReg_port (x : Engine) (r v) : (x.setReg r v).port = x.port := by unfold Engine.setReg; split <;> rfl

theorem State.rejectPoint_engine (s : State) (e : Fin 16) (k : Nat) : (s.rejectPoint e k).engine e = (s.engine e).rejects true := by
  unfold State.rejectPoint Engine.rejects
  rw [Bool.or_true]
  split
  case isTrue h => rw [← h]
  case isFalse => exact (State.engine_of_ing (State.bump_ing ..) e).trans (State.modEngine_same ..)

/-- A point rejected for the first time is counted under its reason (R58). -/
theorem State.rejectPoint_num {p : Fin 8} {k : Nat} (hp : (s.engine e).port = p) (h : (s.engine e).staged.rejected = false) :
    (s.rejectPoint e k).num (portOd 0x3104 p (3 + k)) = Od.counter (portOd 0x3104 p (3 + k)) (s.num (portOd 0x3104 p (3 + k)) + 1) := by
  subst hp
  unfold State.rejectPoint
  rw [if_neg (by simp [h])]
  exact State.num_bump ..

/-- A point rejected before stays as it is. -/
theorem State.rejectPoint_again {k : Nat} (h : (s.engine e).staged.rejected = true) : s.rejectPoint e k = s := if_pos h

/-- The state after LUT has acted, before the engine goes on. -/
def State.lutActs (s : State) (e : Fin 16) (w : BitVec 27) : State :=
  let c := s.calRecord (s.engine e).port
  let t := (s.rowCounted e).modEngine e (rowLut c w)
  if c.beams ≤ lutBeam w (s.engine e) then t.rejectPoint e 7 else t

theorem State.lutActs_engine (s : State) (e : Fin 16) (w : BitVec 27) :
    (s.lutActs e w).engine e =
      let c := s.calRecord (s.engine e).port
      (rowLut c w (s.engine e).counts).rejects (decide (c.beams ≤ lutBeam w (s.engine e))) := by
  unfold State.lutActs
  extract_lets c t
  have ht : t.engine e = rowLut c w (s.engine e).counts := by simp only [t, State.modEngine_same]
  split
  case isTrue h => rw [State.rejectPoint_engine, ht, decide_eq_true h]
  case isFalse h => rw [ht, decide_eq_false h, Engine.rejects_false]

/-- LUT counts a beam at or beyond the beam count under reason 7, once. -/
theorem State.lutActs_num (hb : (s.calRecord (s.engine e).port).beams ≤ lutBeam w (s.engine e)) (hr : (s.engine e).staged.rejected = false) :
    (s.lutActs e w).num (portOd 0x3104 (s.engine e).port 0x0A) =
      Od.counter (portOd 0x3104 (s.engine e).port 0x0A) (s.num (portOd 0x3104 (s.engine e).port 0x0A) + 1) := by
  unfold State.lutActs
  extract_lets c t
  have ht : t.engine e = rowLut c w (s.engine e).counts := by simp only [t, State.modEngine_same]
  rw [if_pos hb]
  refine State.rejectPoint_num (s := t) (k := 7) ?_ ?_
  · rw [ht]
    exact Engine.setReg_port ..
  · rw [ht]
    exact hr

/-- Below the beam count LUT leaves every object. -/
theorem State.lutActs_dict (hb : lutBeam w (s.engine e) < (s.calRecord (s.engine e).port).beams) : (s.lutActs e w).dict = s.dict := by
  unfold State.lutActs
  rw [if_neg (Nat.not_le.mpr hb)]
  rfl

theorem execPrsLut_acts (h : s.parsesOn e 0x06 w) :
    execPrsLut e w s = .next ((s.lutActs e w).modEngine e (fun x => { x with pc := (s.engine e).pc + 1 })) := by
  refine next_congr (State.parse_goesOn h rfl ?_)
  rw [State.lutActs_engine]
  exact Engine.setReg_words ..

/-- Settles O9: LUT's effect on the engine is `State.lutActs_engine`, what it counts `State.lutActs_num`. -/
theorem parserLutReadsTheBeamTable : Obligations.ParserLutReadsTheBeamTable := by
  unfold Obligations.ParserLutReadsTheBeamTable
  rintro e w s h b rfl c rfl
  refine ⟨_, execPrsLut_acts h, ?_⟩
  rw [State.modEngine_same, State.lutActs_engine]
  exact ⟨Engine.reg_setReg .., rfl, rfl, rfl, rfl, fun hb hr => State.lutActs_num hb hr, fun hb => State.lutActs_dict hb⟩

/-! Rows that stage a point. -/

/-- An engine that has staged a sensor-frame point with its vehicle-frame coordinates (R57). -/
def Engine.stages (x : Engine) (q : Int × Int × Int) (v : List Int) : Engine := { x with staged := { x.staged with xyz := some q, sensor := v } }

/-- Staging by an engine that has counted its row: the vehicle frame is that of the packet's port at the point's time (R48, R50). -/
theorem State.stage_counts (s : State) (e : Fin 16) (v : List Int) :
    (s.rowCounted e).stage e v =
      (s.rowCounted e).modEngine e (fun x => x.stages (s.vehicle (s.engine e).port (s.engine e).time v) v) := by
  unfold State.stage
  rw [State.modEngine_same]
  rfl

/-- SET puts the register's value in the staged field that its number names (R57). -/
theorem execPrsSet_sets (h : s.parsesOn e 0x09 w) {k : Nat} (hk : fld w 26 24 = k) :
    execPrsSet e w s = .next (s.modEngine e (fun x => { x with staged := setStaged x.staged k (x.reg (regNo w 20)) }.next)) := by
  subst hk
  exact next_congr (State.parseReg_next h _ (g := rowSet w) rfl rfl rfl rfl)

theorem execPrsCvc_stages (h : s.parsesOn e 0x08 w) :
    execPrsCvc e w s = .next (s.modEngine e (fun x => (x.stages
      (s.vehicle (s.engine e).port (s.engine e).time (cvcPoint w (s.engine e))) (cvcPoint w (s.engine e))).next)) :=
  next_congr (State.parse_next h _ (g := fun x => x.stages _ _) (congrArg (fun t => some (t, _)) (State.stage_counts ..)) (fun _ => rfl))

theorem execPrsCvt_stages (h : s.parsesOn e 0x07 w) :
    execPrsCvt e w s = .next (s.modEngine e (fun x => { x.stages
      (s.vehicle (s.engine e).port (s.engine e).time (cvtPoint w (s.engine e))) (cvtPoint w (s.engine e)) with azCorr := 0 }.next)) := by
  refine next_congr (State.parse_next h _ (g := fun x => { x.stages (s.vehicle (s.engine e).port (s.engine e).time
    (cvtPoint w (s.engine e))) (cvtPoint w (s.engine e)) with azCorr := 0 }) ?_ (fun _ => rfl))
  refine congrArg (fun t => some (t, _)) ?_
  exact (congrArg (State.modEngine · e _) (State.stage_counts ..)).trans (State.modEngine_modEngine ..)

/-- Settles O10: a row on the engine alone by `State.parseReg_next`, SET by `execPrsSet_sets`, CVC and CVT by what they stage. -/
theorem parserStagingRows : Obligations.ParserStagingRows := by
  unfold Obligations.ParserStagingRows
  intro e w s
  refine ⟨fun h => next_congr (State.parseReg_next h _ (g := id) rfl rfl rfl rfl),
    fun h => next_congr (State.parseReg_next h _ (g := rowAdv w) rfl rfl rfl rfl),
    fun h => next_congr (State.parseReg_next h _ (g := fun x => { x with sweepMark := true }) rfl rfl rfl rfl),
    fun h k => execPrsSet_sets h k, fun h k => execPrsSet_sets h k, fun h k => execPrsSet_sets h k, fun h k => execPrsSet_sets h k, ?_, ?_⟩
  · rintro v q rfl rfl h
    exact execPrsCvc_stages h
  · rintro v q rfl rfl h
    exact execPrsCvt_stages h

end Sys2Proof.Machine
end

