-- ==== Sys2Proof/Proofs/ParserFlow.lean ====
section
/-! PROOFS. The rows of a parser engine that reach its head, the emitted points and the program's flow, and the parser faults (R52, R57-R62). -/

namespace Sys2Proof.Machine

variable {s : State} {e : Fin 16} {op : Nat} {w : BitVec 27}

/-! Heads. -/

@[simp] theorem State.head_modHead (s : State) (p : Fin 8) (f : Head → Head) : (s.modHead p f).head p = f (s.head p) := State.modHead_same ..

/-- An update that leaves the head as it is changes nothing. -/
theorem State.modHead_id {p : Fin 8} {f : Head → Head} (h : f (s.head p) = s.head p) : s.modHead p f = s := by
  have : s.ing.heads.set p (f s.ing.heads[p]) = s.ing.heads := by
    rw [show f s.ing.heads[p] = s.ing.heads[p] from h]
    exact Vector.set_getElem_self ..
  unfold State.modHead
  rw [this]

@[simp] theorem State.engine_modHead (s : State) (p : Fin 8) (f : Head → Head) (e : Fin 16) : (s.modHead p f).engine e = s.engine e := rfl
@[simp] theorem State.head_modEngine (s : State) (e : Fin 16) (f : Engine → Engine) (p : Fin 8) : (s.modEngine e f).head p = s.head p := rfl
@[simp] theorem State.num_modEngine (s : State) (e : Fin 16) (f : Engine → Engine) (k : Nat) : (s.modEngine e f).num k = s.num k := rfl
@[simp] theorem State.engine_bump (s : State) (k n : Nat) (e : Fin 16) : (s.bump k n).engine e = s.engine e := rfl

/-- RNG counts the range, among the near ones where it is below the limit (R52). -/
theorem execPrsRng_counts (h : s.parsesOn e 0x0B w) : ∃ t, execPrsRng e w s = .next t ∧
    (t.head (s.engine e).port).total = (s.head (s.engine e).port).total + 1 ∧
    (t.head (s.engine e).port).near = (s.head (s.engine e).port).near +
      (if ((s.engine e).reg (regNo w 23)).toNat < s.num (od 0x3000 7) then 1 else 0) := by
  refine ⟨_, next_congr (State.parse_goesOn h rfl (by simp)), ?_⟩
  simp only [State.head_modEngine, State.head_modHead, State.num_modEngine]
  by_cases hn : ((s.engine e).reg (regNo w 23)).toNat < s.num (od 0x3000 7)
  · simp [hn]
  · simp [hn]

/-- PLS adds to the pulse estimate (R52). -/
theorem execPrsPls_adds (h : s.parsesOn e 0x0C w) : ∃ t, execPrsPls e w s = .next t ∧ t.num (portOd 0x3102 (s.engine e).port 2) =
    Od.counter (portOd 0x3102 (s.engine e).port 2)
      (s.num (portOd 0x3102 (s.engine e).port 2) + ((s.engine e).reg (regNo w 23)).toNat) :=
  ⟨_, next_congr (State.parse_goesOn h rfl (by simp)), State.num_bump ..⟩

/-- TSP in a mode that leaves the port's mode-2 packets sets the packet base alone (R62). -/
theorem execPrsTsp_sets (h : s.parsesOn e 0x0A w) {b : Int}
    (hr : rowTsp s.frame.now (s.calRecord (s.engine e).port).delay (s.head (s.engine e).port).tsp w (s.engine e) =
      some (b, (s.head (s.engine e).port).tsp)) :
    execPrsTsp e w s = .next (s.modEngine e (fun x => { x with base := b }.next)) := by
  refine next_congr (State.parse_next h _ (g := fun x => { x with base := b }) ?_ (fun _ => rfl))
  refine (congrArg (Option.map _) hr).trans ?_
  refine congrArg (fun t : State => some (t.modEngine e _, _)) (State.modHead_id ?_)
  rfl

/-- The engines of `s`, with the head of port `p` presenting `b`. -/
def State.presents (s : State) (p : Fin 8) (b : Bytes) (t : State) : Prop := t.ing.engines = s.ing.engines ∧ (t.head p).presented = b

theorem State.presents_modHead {p : Fin 8} {b : Bytes} {t : State} {f : Head → Head} (h : s.presents p b t)
    (hf : ∀ x, (f x).presented = x.presented := by exact fun _ => rfl) : s.presents p b (t.modHead p f) :=
  ⟨h.1, by rw [State.head_modHead, hf, h.2]⟩

theorem State.presents_quarantine {p : Fin 8} {b : Bytes} {t : State} {k : Nat} (h : s.presents p b t) : s.presents p b (t.quarantine p k) := by
  have hd : s.presents p b (t.dropPacket p k) := h
  have hm : s.presents p b ((t.dropPacket p k).modHead p (fun x => { x with state := .quarantine, returning := false, notActive := true })) :=
    State.presents_modHead hd
  unfold State.quarantine
  exact ⟨(congrArg Ingest.engines (State.raise_ing ..)).trans hm.1,
    (congrArg Head.presented (State.head_of_ing (State.raise_ing ..) p)).trans hm.2⟩

/-- A head that presents its serial leaves the engines, and shows the serial whatever becomes of its port (R43). -/
theorem State.present_presents (s : State) (p : Fin 8) (k : Nat) (b : Bytes) : s.presents p b (s.present p k b) := by
  unfold State.present
  extract_lets x t
  have h : s.presents p b t := ⟨rfl, (congrArg Head.presented (State.head_modHead s p (fun x => { x with presented := b })) :)⟩
  have hq : ∀ u, s.presents p b u → s.presents p b (u.quarantine p k) := fun _ => State.presents_quarantine
  split
  · exact h
  · exact h
  split
  · split
    · exact State.presents_modHead h
    · exact hq _ h
  split
  · have h2 := State.presents_modHead (f := fun x => { x with needsAccept := true }) h
    split
    · exact h2
    · exact hq _ h2
  split
  · exact h
  split
  · exact State.presents_modHead h
  · exact State.presents_modHead h
  · exact State.presents_modHead h
  · exact h

theorem execPrsIdn_presents (h : s.parsesOn e 0x12 w) {n : Nat} (hn : n = fld w 11 8 + 1)
    (hin : (s.engine e).cursor + fld w 22 12 + n ≤ (s.engine e).payload.length) :
    ∃ t, execPrsIdn e w s = .next t ∧ (t.engine e).pc = (s.engine e).pc + 1 ∧
      (t.head (s.engine e).port).presented = padTo 16 (slice (s.engine e).payload ((s.engine e).cursor + fld w 22 12) n) := by
  subst hn
  have hs : idnSerial w (s.engine e) = some (padTo 16 (slice (s.engine e).payload ((s.engine e).cursor + fld w 22 12) (fld w 11 8 + 1))) :=
    if_neg (Nat.not_lt.mpr hin)
  obtain ⟨he, hp⟩ := (s.rowCounted e).present_presents (s.engine e).port (s.engine e).pkt
    (padTo 16 (slice (s.engine e).payload ((s.engine e).cursor + fld w 22 12) (fld w 11 8 + 1)))
  refine ⟨_, next_congr (State.parse_goesOn h (congrArg (Option.map _) hs) ?_), ?_, hp⟩
  · rw [State.engine, he]
    exact (congrArg Engine.words (State.modEngine_same s e Engine.counts) :)
  · rw [State.modEngine_same]

/-- REJ where its condition holds: the staged point is rejected under the reason, once (R58). -/
theorem execPrsRej_rejects (h : s.parsesOn e 0x0D w) (hc : rejHolds w (s.engine e) = true) (hr : (s.engine e).staged.rejected = false) :
    ∃ t, execPrsRej e w s = .next t ∧ (t.engine e).staged.rejected = true ∧ (t.engine e).pc = (s.engine e).pc + 1 ∧
      t.num (portOd 0x3104 (s.engine e).port (3 + fld w 19 17)) = Od.counter (portOd 0x3104 (s.engine e).port (3 + fld w 19 17))
        (s.num (portOd 0x3104 (s.engine e).port (3 + fld w 19 17)) + 1) := by
  have he : ((s.rowCounted e).rejectPoint e (fld w 19 17)).engine e = (s.engine e).counts.rejects true := by
    rw [State.rejectPoint_engine, State.modEngine_same]
  refine ⟨_, next_congr (State.parse_goesOn h (congrArg (fun t => some (t, _)) (if_pos hc)) (congrArg Engine.words he :)), ?_, ?_, ?_⟩
  · rw [State.modEngine_same]
    exact (congrArg (·.staged.rejected) he).trans (Bool.or_true _)
  · rw [State.modEngine_same]
  · exact State.rejectPoint_num (s := s.rowCounted e) (congrArg Engine.port (State.modEngine_same ..) :)
      ((congrArg (·.staged.rejected) (State.modEngine_same ..)).trans hr)

/-- REJ otherwise goes on. -/
theorem execPrsRej_passes (h : s.parsesOn e 0x0D w) (hc : rejHolds w (s.engine e) = false ∨ (s.engine e).staged.rejected = true) :
    execPrsRej e w s = .next (s.modEngine e Engine.next) := by
  have hs : (if rejHolds w (s.engine e) then (s.rowCounted e).rejectPoint e (fld w 19 17) else s.rowCounted e) =
      s.rowCounted e := by
    rcases hc with hc | hr
    · rw [hc]
      rfl
    · rw [State.rejectPoint_again ((congrArg (·.staged.rejected) (State.modEngine_same ..)).trans hr), ite_self]
  refine next_congr ((State.parse_goesOn h (congrArg (fun t => some (t, _)) hs) ?_).trans (State.modEngine_modEngine ..))
  exact (congrArg Engine.words (State.modEngine_same ..) :)

/-- Settles O11: RNG and PLS by what they count, TSP's modes 0 and 3 by `execPrsTsp_sets`, IDN by `State.present_presents`, REJ by its two
outcomes. -/
theorem parserHeadRows : Obligations.ParserHeadRows := by
  unfold Obligations.ParserHeadRows
  intro e w s
  refine ⟨execPrsRng_counts, execPrsPls_adds, fun h h0 => ?_, fun h h3 => ?_, fun h n hn hin => execPrsIdn_presents h hn hin,
    execPrsRej_rejects, execPrsRej_passes⟩
  · refine (execPrsTsp_sets h (b := ((2 ^ 32 * ((s.engine e).reg (regNo w 19)).toNat + ((s.engine e).reg (regNo w 23)).toNat : Nat) : Int)) ?_).trans
      (next_congr (State.modEngine_congr s e ?_))
    · simp only [rowTsp, h0]
    · push_cast
      rfl
  · refine (execPrsTsp_sets h (b := ((s.engine e).stamp : Int) - (s.calRecord (s.engine e).port).delay) ?_).trans
      (next_congr (State.modEngine_congr s e rfl))
    simp only [rowTsp, h3]

/-! Points emitted, and the program's flow. -/

/-- The point that an engine emits (R61). -/
def State.emitted (s : State) (x : Engine) (q : Int × Int × Int) : Point :=
  { port := x.port, pkt := x.pkt, raw := q, time := x.time, intensity := x.staged.intensity, ret := x.staged.ret, beam := x.staged.beam
    prev := decide (x.stamp < s.frame.ing.start) && decide (s.frame.comp.n ≠ 0), insert := (s.head x.port).state == .active }

/-- A point of an ACTIVE port goes to motion compensation and is counted; engines stay (R61). -/
theorem State.emit_active {x : Engine} {q : Int × Int × Int} (h : (s.head x.port).state = .active) :
    (s.emit x q).ing.comp = s.ing.comp ++ [s.emitted x q] ∧ (s.emit x q).ing.engines = s.ing.engines ∧
      (s.emit x q).num (portOd 0x3104 x.port 2) = Od.counter (portOd 0x3104 x.port 2) (s.num (portOd 0x3104 x.port 2) + 1) := by
  unfold State.emit
  extract_lets y prev s1 s2 pt forward
  have hs : s2.ing = s.ing ∧ s2.dict = s1.dict := by
    unfold s2
    split
    · unfold State.modPts State.modPoint
      split <;> exact ⟨rfl, rfl⟩
    · exact ⟨rfl, rfl⟩
  obtain ⟨hi, hd⟩ := hs
  have hy : y.state = .active := h
  rw [hy]
  change (forward s2).ing.comp = _ ∧ (forward s2).ing.engines = _ ∧ (forward s2).num _ = _
  exact ⟨congrArg (·.comp ++ [pt]) hi, (congrArg Ingest.engines hi :), (State.num_congr hd _).trans (State.num_bump ..)⟩

theorem State.emitWaits_room {x : Engine} (h : s.ing.comp.length < 16) : s.emitWaits x = false := by
  have hd : decide (pipeDepth ≤ s.ing.comp.length) = false := decide_eq_false (Nat.not_le.mpr h)
  rw [State.emitWaits, hd, Bool.and_false]

/-- An engine with its staging cleared. -/
def Engine.clears (x : Engine) : Engine := { x with staged := {}, sweepMark := false }

/-- EMIT of an ACTIVE port's staged point, no sweep mark waiting: it goes to motion compensation and the staging is cleared (R57, R61). -/
theorem execPrsEmit_active (h : s.parsesOn e 0x0E w) (hroom : s.ing.comp.length < 16) {xyz : Int × Int × Int}
    (hx : (s.engine e).staged.xyz = some xyz) (hr : (s.engine e).staged.rejected = false) (ha : (s.head (s.engine e).port).state = .active)
    (hm : (s.engine e).sweepMark = false) :
    ∃ t, execPrsEmit e w s = .next t ∧
      t.ing.comp = s.ing.comp ++ [s.emitted (s.engine e) (s.vehicle (s.engine e).port (s.engine e).time (s.engine e).staged.sensor)] ∧
      (t.engine e).staged = {} ∧
      t.num (portOd 0x3104 (s.engine e).port 2) =
        Od.counter (portOd 0x3104 (s.engine e).port 2) (s.num (portOd 0x3104 (s.engine e).port 2) + 1) := by
  have hq : ((s.rowCounted e).modEngine e Engine.clears).engine e = (s.engine e).counts.clears := by simp only [State.modEngine_same]
  obtain ⟨hc, he, hn⟩ := ((s.rowCounted e).modEngine e Engine.clears).emit_active (x := s.engine e)
    (q := s.vehicle (s.engine e).port (s.engine e).time (s.engine e).staged.sensor) ha
  have hg := (congrArg (fun v : Vector Engine 16 => v[e]) he).trans hq
  refine ⟨_, next_congr ((if_neg (by rw [State.emitWaits_room hroom]; decide)).trans (State.parse_goesOn h ?_ ?_)), hc, ?_, hn⟩
  · simp only [hx, hr, hm]
    rfl
  · exact (congrArg Engine.words hg :)
  · rw [State.modEngine_same]
    exact (congrArg Engine.staged hg :)

/-- A row that jumps within the program. -/
theorem State.parse_at {t : State} {pc : Nat} (h : s.parses e op w) {f : Engine → State → Option (State × Nat)}
    (hf : f (s.engine e) (s.rowCounted e) = some (t, pc)) (hpc : pc < (t.engine e).words.length) :
    s.parse e op w f = t.modEngine e (fun x => { x with pc := pc }) := by
  have hr := State.parse_parses h f
  change _ = (match f (s.engine e) (s.rowCounted e) with | none => _ | some (t, pc) => _) at hr
  rw [hr, hf]
  exact State.goTo_within hpc

/-- BR goes to the word that its condition picks (R57, R58). -/
theorem execPrsBr_goes (h : s.parses e 0x10 w) (hpc : brNext w (s.engine e) < (s.engine e).words.length) :
    execPrsBr e w s = .next (s.modEngine e (fun x => x.at (brNext w (s.engine e)))) :=
  next_congr ((State.parse_at h rfl (by simpa using hpc)).trans (State.modEngine_modEngine ..))

/-- Counting a row does not change what LOOP does. -/
theorem rowLoop_counts (w : BitVec 27) (x : Engine) : rowLoop w x.counts = (rowLoop w x).counts := by
  unfold rowLoop Engine.setReg
  split <;> rfl

/-- The register that LOOP leaves. -/
theorem rowLoop_reg (w : BitVec 27) (x : Engine) :
    (rowLoop w x).reg (regNo w 23) = if regNo w 23 = 0 then 0 else x.reg (regNo w 23) - 1 := Engine.reg_setReg ..

/-- LOOP decrements its register and goes to the word that the result picks (R57). -/
theorem execPrsLoop_goes (h : s.parses e 0x11 w) (hpc : loopNext w (s.engine e) < (s.engine e).words.length) :
    execPrsLoop e w s = .next (s.modEngine e (fun x => (rowLoop w x).at (loopNext w (s.engine e)))) := by
  refine next_congr ((State.parse_at h rfl ?_).trans ?_)
  · simpa [rowLoop] using hpc
  · simp only [State.modEngine_modEngine, rowLoop_counts]
    rfl

/-- END frees the engine (R57). -/
theorem execPrsEnd_frees (h : s.parses e 0x13 w) :
    execPrsEnd e w s = .next (s.modEngine e (fun x => { x with busy := false, count := x.count + 1 })) := by
  obtain ⟨hb, hc, hr, hf⟩ := h
  refine next_congr ((State.clocked_runs hr _).trans ?_)
  rw [if_pos ⟨hb, hf⟩, if_neg (Nat.not_le.mpr hc)]

/-- Settles O12: EMIT by `execPrsEmit_active`, BR and LOOP by the word they go to, END by `execPrsEnd_frees`. -/
theorem parserFlowRows : Obligations.ParserFlowRows := by
  unfold Obligations.ParserFlowRows
  intro e w s
  refine ⟨fun h hroom xyz hx hr ha hm hpc => ?_, fun h hc hpc => ?_, fun h hc hpc => ?_, fun h h0 h1 hpc => ?_, fun h h01 hpc => ?_,
    execPrsEnd_frees⟩
  · obtain ⟨t, ht, hcomp, hst, hn⟩ := execPrsEmit_active ⟨h, hpc⟩ hroom hx hr ha hm
    exact ⟨t, _, ht, hcomp, hst, rfl, rfl, rfl, rfl, rfl, rfl, hn⟩
  · have hb : brNext w (s.engine e) = fld w 7 0 := if_pos hc
    rw [← hb]
    exact execPrsBr_goes h (hb ▸ hpc)
  · have hb : brNext w (s.engine e) = (s.engine e).pc + 1 := if_neg (by simp [hc])
    refine (execPrsBr_goes h (hb ▸ hpc)).trans (next_congr (State.modEngine_congr s e ?_))
    rw [hb]
    rfl
  · have hl : loopNext w (s.engine e) = fld w 7 0 := by
      refine if_pos ?_
      rw [rowLoop_reg, if_neg h0]
      exact sub_ne_zero.mpr h1
    rw [← hl]
    exact execPrsLoop_goes h (hl ▸ hpc)
  · have hw : rowLoop w (s.engine e) = (s.engine e).setReg (regNo w 23) 0 := by
      rcases h01 with h0 | h1
      · rw [rowLoop, Engine.setReg, if_pos h0, Engine.setReg, if_pos h0]
      · rw [rowLoop, h1]
        rfl
    have hl : loopNext w (s.engine e) = (s.engine e).pc + 1 :=
      if_neg (by rw [hw, Engine.reg_setReg, ite_self]; exact not_not_intro rfl)
    refine (execPrsLoop_goes h (hl ▸ hpc)).trans (next_congr (State.modEngine_congr s e ?_))
    rw [hl, hw, Engine.next, Engine.setReg_pc]

/-! Parser faults. -/

@[simp] theorem State.modEngine_id (s : State) (e : Fin 16) : s.modEngine e id = s := by
  have : s.ing.engines.set e s.ing.engines[e] = s.ing.engines := Vector.set_getElem_self ..
  simp only [State.modEngine, id, this]

/-- What a parser fault of engine `e` leaves of `s` (R59): the engine freed, the fault counted and its event raised, and every other engine,
the points already emitted and the cores as they were. -/
def State.faulted (s : State) (e : Fin 16) (o : Out) : Prop :=
  ∃ t, o = .next t ∧ (t.engine e).busy = false ∧ t.ing.comp = s.ing.comp ∧ t.cores = s.cores ∧
    (∀ d : Fin 16, d ≠ e → t.engine d = s.engine d) ∧
    t.num (portOd 0x3104 (s.engine e).port 0x0E) = Od.counter (portOd 0x3104 (s.engine e).port 0x0E)
      (s.num (portOd 0x3104 (s.engine e).port 0x0E) + 1) ∧
    (s.log.inFrame < 64 → t.log.seq = s.log.next ∧
      t.log.staged.getLast?.map (fun x => (x.code, x.inst)) = some (0x3016, (s.engine e).port.val))

/-- An event among the first 64 of its frame is kept as the newest one (R359). -/
theorem State.raise_kept {c i v : Nat} {b : Bool} (h : s.log.inFrame < 64) : (s.raise c i v b).log.seq = s.log.next ∧
    (s.raise c i v b).log.staged.getLast?.map (fun x => (x.code, x.inst)) = some (c, i) := by
  have h1 : (s.raiseOne c i v b).log.seq = s.log.next ∧
      (s.raiseOne c i v b).log.staged.getLast?.map (fun x => (x.code, x.inst)) = some (c, i) := by
    unfold State.raiseOne EvLog.push
    dsimp only
    rw [if_pos (.inl h), List.getLast?_concat]
    exact ⟨rfl, rfl⟩
  unfold State.raise
  extract_lets s1
  split
  · exact h1
  · exact h1

/-- A parser fault after the row has changed its engine, as far as its packet's port stays. -/
theorem State.parserFault_faulted {f : Engine → Engine} (hp : (f (s.engine e)).port = (s.engine e).port) :
    s.faulted e (.next ((s.modEngine e f).parserFault e)) := by
  have hk : portOd 0x3104 (s.engine e).port 0x0E ≠ od 0x7900 5 := by
    unfold portOd od
    omega
  have hport : ((s.modEngine e f).engine e).port = (s.engine e).port := (congrArg Engine.port (State.modEngine_same ..)).trans hp
  refine ⟨_, rfl, ?_⟩
  unfold State.parserFault
  rw [hport]
  refine ⟨?_, ?_, ?_, fun d hd => ?_, State.num_countRaise _ _ _ _ hk, fun hl => State.raise_kept hl⟩
  · rw [State.engine_of_ing (State.countRaise_ing ..), State.modEngine_same]
  · rw [State.countRaise_ing]
    rfl
  · rw [State.countRaise_cores]
    rfl
  · rw [State.engine_of_ing (State.countRaise_ing ..), State.modEngine_other _ _ hd, State.modEngine_other _ _ hd]

/-- A row of a running engine faults at the 16,385th instruction, where its effect is a fault, and where it goes beyond the program (R59). -/
theorem State.parse_faulted (hb : (s.engine e).busy = true) (hr : s.runs) (hf : (s.engine e).fetches op w = true)
    {f : Engine → State → Option (State × Nat)}
    (h : 16384 ≤ (s.engine e).count ∨ f (s.engine e) (s.rowCounted e) = none ∨
      ∃ g pc, f (s.engine e) (s.rowCounted e) = some (s.modEngine e g, pc) ∧ (g (s.engine e)).port = (s.engine e).port ∧
        (g (s.engine e)).words.length ≤ pc) :
    s.faulted e (.next (s.parse e op w f)) := by
  by_cases hc : 16384 ≤ (s.engine e).count
  · have hp : s.parse e op w f = (s.modEngine e id).parserFault e := by
      have hr' : s.power.holdAt = none := hr
      rw [State.modEngine_id]
      simp [State.parse, hb, hr', hf, hc]
    rw [hp]
    exact State.parserFault_faulted rfl
  · have hp := State.parse_parses ⟨hb, Nat.lt_of_not_le hc, hr, hf⟩ f
    change _ = (match f (s.engine e) (s.rowCounted e) with | none => _ | some (t, pc) => _) at hp
    rcases h with h | h | ⟨g, pc, h, hport, hpc⟩
    · exact absurd h hc
    · rw [hp, h]
      exact State.parserFault_faulted rfl
    · rw [hp, h]
      have hg : (s.modEngine e g).goTo e pc = (s.modEngine e g).parserFault e := if_pos (by rw [State.modEngine_same]; exact hpc)
      dsimp only
      rw [hg]
      exact State.parserFault_faulted hport

/-- An EMIT with nothing staged does not wait for the pipeline. -/
theorem State.emitWaits_unstaged {x : Engine} (h : x.staged.xyz = none) : s.emitWaits x = false := by
  rw [State.emitWaits, h]
  rfl

/-- Settles O13: each fault is a fault of the row's effect (`State.parse_faulted`); END's is its own. -/
theorem parserFaultsOfR59 : Obligations.ParserFaultsOfR59 := by
  unfold Obligations.ParserFaultsOfR59
  intro e w s hb hr
  refine ⟨fun hf hlen => ?_, fun hf hlen => ?_, fun hf hx => ?_, fun hlast => ⟨fun hf => ?_, fun hf => ?_⟩, fun hc => ⟨fun hf => ?_, fun hf => ?_⟩⟩
  · refine State.parse_faulted hb hr hf (.inr (.inl ?_))
    have hn : extField (s.engine e) (fld w 22 12) (fld w 11 7) (fld w 6 4) (fld w 3 3 == 1) (fld w 2 2 == 1) = none := if_pos hlen
    rw [rowExt, hn]
    rfl
  · refine State.parse_faulted hb hr hf (.inr (.inl ?_))
    have hn : idnSerial w (s.engine e) = none := if_pos hlen
    rw [hn]
    rfl
  · have hq : execPrsEmit e w s = .next (s.parse e 0x0E w _) := next_congr (if_neg (by rw [State.emitWaits_unstaged hx]; decide))
    refine (?_ : s.faulted e (execPrsEmit e w s))
    rw [hq]
    refine State.parse_faulted hb hr hf (.inr (.inl ?_))
    simp only [hx]
  · exact State.parse_faulted hb hr hf (.inr (.inr ⟨_, _, congrArg (fun t => some (t, _)) (State.modEngine_modEngine ..), rfl, hlast⟩))
  · exact State.parse_faulted hb hr hf (.inr (.inr ⟨_, _, congrArg (fun t => some (t, _)) (State.modEngine_modEngine ..),
      Engine.setReg_port .., (congrArg List.length (Engine.setReg_words ..)).trans_le hlast⟩))
  · exact State.parse_faulted hb hr hf (.inl hc)
  · have hq : execPrsEnd e w s = .next ((s.modEngine e id).parserFault e) := by
      rw [State.modEngine_id]
      refine next_congr ((State.clocked_runs hr _).trans ?_)
      rw [if_pos ⟨hb, hf⟩, if_pos hc]
    refine (?_ : s.faulted e (execPrsEnd e w s))
    rw [hq]
    exact State.parserFault_faulted rfl

end Sys2Proof.Machine
end

