-- ==== Sys2Proof/Proofs/QueueBlock.lean ====
section
/-! SUPPORT. What the queue block leaves of the rest of the module (R255-R263): the relation `Queueing`, one rule per operation, and what
each operation does to the queues themselves. -/

namespace Sys2Proof.Machine

/-- The objects of the queues (OD 0x1830 to 0x1847) and the count of events lost. -/
def queueKey (k : Nat) : Prop := (od 0x1830 0 ≤ k ∧ k < od 0x1848 0) ∨ k = od 0x7900 5

/-- What the queue block leaves of `s` in `t`: everything but the queues, their objects, XOFF_N, events and what a frame has raised. -/
structure Queueing (s t : State) : Prop where
  cores : t.cores = s.cores
  cells : t.cells = s.cells
  net : t.net = s.net
  power : t.power = s.power
  ing : t.ing = { s.ing with xoff := t.ing.xoff }
  now : t.frame.now = s.frame.now
  obj : ∀ k, ¬ queueKey k → t.obj k = s.obj k

theorem queueKey_od {q j : Nat} (hq : q < 24) (hj : j < 256) : queueKey (od (0x1830 + q) j) := by
  unfold queueKey od
  omega

/-- An object of another index is none of the queues'. -/
theorem not_queueKey_od {i j : Nat} (hj : j < 256) (h : (i < 0x1830 ∨ 0x1848 ≤ i) ∧ i ≠ 0x7900) : ¬ queueKey (od i j) := by
  unfold queueKey od
  omega

theorem not_queueKey_netOd {p j : Nat} (hp : p < 16) (hj : j < 256) : ¬ queueKey (netOd p j) := not_queueKey_od hj (by omega)

namespace Queueing

variable {s t u : State}

theorem refl (s : State) : Queueing s s := ⟨rfl, rfl, rfl, rfl, rfl, rfl, fun _ _ => rfl⟩

theorem trans (h : Queueing s t) (k : Queueing t u) : Queueing s u where
  cores := k.cores.trans h.cores
  cells := k.cells.trans h.cells
  net := k.net.trans h.net
  power := k.power.trans h.power
  ing := by rw [k.ing, h.ing]
  now := k.now.trans h.now
  obj x hx := (k.obj x hx).trans (h.obj x hx)

theorem ite {c : Prop} [Decidable c] (h : Queueing s t) (k : Queueing s u) : Queueing s (if c then t else u) :=
  ite_keep (P := Queueing s) h k

theorem num (h : Queueing s t) {k : Nat} (hk : ¬ queueKey k) : t.num k = s.num k := by simp only [State.num, State.int, h.obj k hk]
theorem oct (h : Queueing s t) {k : Nat} (hk : ¬ queueKey k) : t.oct k = s.oct k := by simp only [State.oct, h.obj k hk]
theorem head (h : Queueing s t) (p : Fin 8) : t.head p = s.head p := by rw [State.head, h.ing]; rfl
theorem engine (h : Queueing s t) (e : Fin 16) : t.engine e = s.engine e := by rw [State.engine, h.ing]; rfl

theorem setQueue {q : Fin 24} {x : Queue} (h : Queueing s t) : Queueing s (t.setQueue q x) :=
  h.trans ⟨rfl, rfl, rfl, rfl, rfl, rfl, fun _ _ => rfl⟩

theorem setNum {k : Nat} {v : Int} (h : Queueing s t) (hk : queueKey k) : Queueing s (t.setNum k v) :=
  h.trans ⟨rfl, rfl, rfl, rfl, rfl, rfl, fun _ hj => State.obj_setNum_other t v fun e => hj (e ▸ hk)⟩

theorem bump {k n : Nat} (h : Queueing s t) (hk : queueKey k) : Queueing s (t.bump k n) := h.setNum hk

theorem raise {c i v : Nat} {b : Bool} (h : Queueing s t) : Queueing s (t.raise c i v b) :=
  h.trans ⟨State.raise_cores .., State.raise_cells .., State.raise_net .., State.raise_power .., by rw [State.raise_ing],
    by rw [State.raise_frame], fun _ hj => State.obj_raise t c i v b fun e => hj (.inr e)⟩

theorem countRaise {k c i : Nat} {b : Bool} (h : Queueing s t) (hk : queueKey k) : Queueing s (t.countRaise k c i b) := (h.bump hk).raise

theorem raiseIng {c i v : Nat} {b : Bool} (h : Queueing s t) : Queueing s (t.raiseIng c i v b) :=
  h.ite (h.raise.trans ⟨rfl, rfl, rfl, rfl, rfl, rfl, fun _ _ => rfl⟩)

theorem driveXoff (h : Queueing s t) : Queueing s t.driveXoff := by
  unfold State.driveXoff
  extract_lets fills on y s1
  have h1 : Queueing s s1 := h.trans ⟨rfl, rfl, rfl, rfl, rfl, rfl, fun _ _ => rfl⟩
  exact h1.raiseIng.ite h1

theorem fillPeak {q : Fin 24} (h : Queueing s t) : Queueing s (t.fillPeak q) := h.setNum (queueKey_od q.isLt (by decide))

theorem qPush {q : Fin 24} {p : QPacket} (h : Queueing s t) : Queueing s (t.qPush q p).1 := by
  have hk : ∀ {j}, j < 256 → queueKey (od (0x1830 + q) j) := queueKey_od q.isLt
  unfold State.qPush
  split
  · exact h.bump (hk (by decide))
  split
  · exact h.bump (hk (by decide))
  · exact h.setQueue.fillPeak.driveXoff.ite h.setQueue.fillPeak

theorem qClear {q : Fin 24} (h : Queueing s t) : Queueing s (t.qClear q) := h.setQueue.driveXoff.ite h.setQueue

theorem qShift {q : Fin 24} (h : Queueing s t) : Queueing s (t.qShift q) := h.setQueue.driveXoff.ite h.setQueue

theorem qPop {q : Fin 24} {e : QueueEcc} (h : Queueing s t) : Queueing s (t.qPop q e).1 := by
  have hk : ∀ {j}, j < 256 → queueKey (od (0x1830 + q) j) := queueKey_od q.isLt
  unfold State.qPop
  split
  · exact h
  split
  · exact h.qClear.countRaise (hk (by decide))
  · exact h.qShift.countRaise (hk (by decide))
  · exact (h.qShift.bump (hk (by decide))).bump (hk (by decide))
  · exact h.qShift.bump (hk (by decide))

theorem mirror {p : Fin 8} {k : QPacket} (h : Queueing s t) : Queueing s (t.mirror p k) := by
  unfold State.mirror
  extract_lets s1
  have h1 : Queueing s s1 := h.qPush.ite h
  exact h1.qPush.ite h1

end Queueing

/-! The queues themselves. -/

variable (s : State) (q : Fin 24)

theorem State.setQueue_same (x : Queue) : (s.setQueue q x).q[q] = x := by simp [State.setQueue]

theorem State.setQueue_other {r : Fin 24} (x : Queue) (h : r ≠ q) : (s.setQueue q x).q[r] = s.q[r] := by
  have : (q : Nat) ≠ r := fun e => h (Fin.ext e.symm)
  simp [State.setQueue, this]

@[simp] theorem State.driveXoff_q : s.driveXoff.q = s.q := by
  unfold State.driveXoff
  extract_lets fills on y s1
  split
  · exact State.raiseIng_q ..
  · rfl

/-- Driving XOFF_N, or not, leaves the queues. -/
theorem State.mayDriveXoff_q (c : Prop) [Decidable c] : (if c then s.driveXoff else s).q = s.q := by
  split
  · exact State.driveXoff_q s
  · rfl

/-- A packet list of a state with the queues of another. -/
theorem State.pkts_congr {s t : State} (h : t.q = s.q) (q : Fin 24) : (t.q[q]).pkts = (s.q[q]).pkts := by simp only [h]

theorem State.qClear_pkts : ((s.qClear q).q[q]).pkts = [] :=
  (State.pkts_congr (State.mayDriveXoff_q ..) q).trans (congrArg Queue.pkts (State.setQueue_same ..))

theorem State.qShift_pkts : ((s.qShift q).q[q]).pkts = (s.q[q]).pkts.drop 1 :=
  (State.pkts_congr (State.mayDriveXoff_q ..) q).trans (congrArg Queue.pkts (State.setQueue_same ..))

/-- A packet that fits leaves the queues as `State.setQueue` has them. -/
theorem State.qPush_taken {s : State} {q : Fin 24} {p : QPacket} (he : ¬ (p.err = true ∧ qMode q ≠ .credit))
    (hf : ¬ qCap q < (s.q[q]).fill + p.words) : (s.qPush q p).2 = true ∧
      ∃ c, (s.qPush q p).1.q = (s.setQueue q { pkts := (s.q[q]).pkts ++ [p], congested := c }).q := by
  unfold State.qPush
  rw [if_neg he, if_neg hf]
  refine ⟨rfl, s.congestUp q { s.q[q] with pkts := (s.q[q]).pkts ++ [p] }, ?_⟩
  dsimp only
  split
  · exact State.driveXoff_q _
  · rfl

/-- A good packet that fits is in its queue behind the others (R258). -/
theorem State.qPush_fits {s : State} {q : Fin 24} {p : QPacket} (he : p.err = false) (hf : (s.q[q]).fill + p.words ≤ qCap q) :
    (s.qPush q p).2 = true ∧ ((s.qPush q p).1.q[q]).pkts = (s.q[q]).pkts ++ [p] := by
  obtain ⟨h, c, hq⟩ := State.qPush_taken (s := s) (q := q) (p := p) (by simp [he]) (Nat.not_lt.mpr hf)
  exact ⟨h, (State.pkts_congr hq q).trans (congrArg Queue.pkts (State.setQueue_same ..))⟩

/-- A push leaves every other queue. -/
theorem State.qPush_other {r : Fin 24} (p : QPacket) (h : r ≠ q) : (s.qPush q p).1.q[r] = s.q[r] := by
  by_cases he : p.err = true ∧ qMode q ≠ .credit
  · unfold State.qPush
    rw [if_pos he]
    rfl
  by_cases hf : qCap q < (s.q[q]).fill + p.words
  · unfold State.qPush
    rw [if_neg he, if_pos hf]
    rfl
  · obtain ⟨-, c, hq⟩ := State.qPush_taken he hf
    exact (congrArg (fun v : Vector Queue 24 => v[r]) hq).trans (State.setQueue_other s q _ h)

/-- A clean front packet is read, and the queue goes on with the next (R262). -/
theorem State.qPop_clean {s : State} {q : Fin 24} {p : QPacket} {rest : List QPacket} (h : (s.q[q]).pkts = p :: rest) :
    (s.qPop q .clean).2 = some p ∧ ((s.qPop q .clean).1.q[q]).pkts = rest := by
  unfold State.qPop
  rw [h]
  refine ⟨rfl, ?_⟩
  exact (State.qShift_pkts s q).trans (by rw [h]; rfl)

/-- A good packet that an empty queue can hold passes it at once: what is pushed is read, and the queue is empty again (R258, R262). -/
theorem State.qPush_qPop {s : State} {q : Fin 24} {p : QPacket} (hempty : (s.q[q]).pkts = []) (he : p.err = false) (hf : p.words ≤ qCap q) :
    ∃ t u, s.qPush q p = (t, true) ∧ t.qPop q .clean = (u, some p) ∧ Queueing s u ∧ (u.q[q]).pkts = [] := by
  have hfill : (s.q[q]).fill + p.words ≤ qCap q := by
    rw [Queue.fill, hempty]
    exact (Nat.zero_add _).trans_le hf
  obtain ⟨h1, h2⟩ := State.qPush_fits he hfill
  obtain ⟨h3, h4⟩ := State.qPop_clean (h2.trans (by rw [hempty]; rfl))
  exact ⟨_, _, Prod.ext rfl h1, Prod.ext rfl h3, (Queueing.refl s).qPush.qPop, h4⟩

/-- The mirrors are queues 22 and 23 (R263). -/
theorem State.mirror_other (p : Fin 8) (k : QPacket) (h : q.val < 22) : (s.mirror p k).q[q] = s.q[q] := by
  have h22 : q ≠ 22 := fun e => absurd h (by rw [e]; decide)
  have h23 : q ≠ 23 := fun e => absurd h (by rw [e]; decide)
  unfold State.mirror
  extract_lets s1
  have h1 : s1.q[q] = s.q[q] := by
    unfold s1
    split
    · exact State.qPush_other s 22 k h22
    · rfl
  split
  · exact (State.qPush_other s1 23 k h23).trans h1
  · exact h1

end Sys2Proof.Machine
end

