-- ==== Sys2Proof/Proofs/Received.lean ====
section
/-! PROOFS. Frames received from the sensors and the host (R81, R442-R446): what is written to a queue, dropped, learned and answered. -/

namespace Sys2Proof.Machine

variable {s : State}

/-! The sensor ports. -/

/-- A frame with a UDP payload is an IPv4 frame (R442). -/
theorem etype_of_sensPayload {b : Bytes} {e : EthIn} (he : parseEth b = some e) (h : (sensPayload b).isSome = true) : e.etype = 0x0800 := by
  by_contra hn
  rw [sensPayload, he] at h
  simp [hn] at h

/-- No filter of the port matches, so its frames pass (R448). -/
theorem State.qci_unmatched {p : Nat} {e : EthIn} (n : Nat) (h : ∀ f ∈ chunksOf 16 8 (s.oct (netOd p 0x0F)), qciMatches f e = false) :
    s.qci p e n = (s, true) := by
  have hf : ((chunksOf 16 8 (s.oct (netOd p 0x0F))).zip (List.range 8)).find? (fun y => qciMatches y.1 e) = none := by
    rw [List.find?_eq_none]
    intro y hy
    simp [h y.1 (List.of_mem_zip hy).1]
  unfold State.qci
  dsimp only
  rw [hf]

/-- A good packet that fits is at the end of its sensor queue, unless the module holds its sensors' frames back (R81). -/
theorem State.sensPush_fits {p : Fin 8} {k : QPacket} {q : Fin 24} (hq : q = Fin.castLE (by decide) p) (hs : s.num (od 0xE000 4) ≠ 3)
    (he : k.err = false) (hf : (s.q[q]).fill + k.words ≤ qCap q) :
    Queueing s (s.sensPush p k) ∧ ((s.sensPush p k).q[q]).pkts = (s.q[q]).pkts ++ [k] := by
  subst hq
  obtain ⟨h1, h2⟩ := State.qPush_fits he hf
  have hk := (Queueing.refl s).qPush (q := Fin.castLE (by decide) p) (p := k)
  unfold State.sensPush
  extract_lets q lost
  rw [if_neg (fun h => hs h.1)]
  generalize hx : s.qPush q k = x at h1 h2 hk
  obtain ⟨t, b⟩ := x
  subst h1
  exact ⟨hk, h2⟩

/-- The state in which a good frame of a sensor port is written to its queue: the frame is counted and the head has been heard. -/
def State.sensHeard (s : State) (p : Fin 8) (instant : Nat) : State :=
  ((s.at instant).bump (netOd p.val 6)).modHead p (fun h => { h with lastPacket := instant })

/-- A good UDP frame that no filter matches goes to its queue and, from a designated port, to Marigold's mirrors. -/
theorem execSensFrameReceive_pushes {p : Fin 8} {f : RawFrame} {e : EthIn} (instant : Nat) (hl : s.net.link p.val = true)
    (hc : f.fcsOk = true) (he : parseEth f.bytes = some e) (hs : (sensPayload f.bytes).isSome = true) (hv : s.vlanOk p.val e = true)
    (hm : ∀ f ∈ chunksOf 16 8 (s.oct (netOd p.val 0x0F)), qciMatches f e = false) :
    execSensFrameReceive p f instant s = .next (((s.sensHeard p instant).sensPush p { data := f.bytes, stamp := instant }).mirror p
      { data := f.bytes, stamp := instant }) := by
  have ht : e.etype ≠ 0x88F7 := by rw [etype_of_sensPayload he hs]; decide
  have hsome : (sensPayload f.bytes).isNone = false := by rw [Option.isNone_eq_false_iff]; exact hs
  have hv' : (s.at instant).vlanOk p.val e = true := hv
  have hqci := State.qci_unmatched (s := s.at instant) f.bytes.length hm
  unfold execSensFrameReceive State.sensHeard
  simp [hl, hc, he, ht, hsome, hv', hqci]

/-- Such a frame is at the end of its queue with its stamp (R81, R442). -/
theorem execSensFrameReceive_takes {p : Fin 8} {f : RawFrame} {e : EthIn} {instant : Nat} {q : Fin 24} (hq : q = Fin.castLE (by decide) p)
    (hl : s.net.link p.val = true) (hc : f.fcsOk = true) (he : parseEth f.bytes = some e) (hs : (sensPayload f.bytes).isSome = true)
    (hv : s.vlanOk p.val e = true) (hm : ∀ f ∈ chunksOf 16 8 (s.oct (netOd p.val 0x0F)), qciMatches f e = false)
    (hp : s.num (od 0xE000 4) ≠ 3) (hf : (s.q[q]).fill + ceilDiv f.bytes.length 32 ≤ 8192) :
    ∃ t, execSensFrameReceive p f instant s = .next t ∧
      (t.q[q]).pkts = (s.q[q]).pkts ++ [{ data := f.bytes, stamp := instant }] ∧ (t.head p).lastPacket = instant ∧ t.cores = s.cores ∧
      t.num (netOd p.val 6) = Od.counter (netOd p.val 6) (s.num (netOd p.val 6) + 1) := by
  have hq8 : q.val < 8 := by rw [hq]; exact p.isLt
  have hcap : qCap q = 8192 := if_pos hq8
  have hstate : (s.sensHeard p instant).num (od 0xE000 4) ≠ 3 := by
    refine fun h => hp ((State.num_bump_other (s.at instant) 1 ?_).symm.trans h)
    unfold netOd od
    omega
  obtain ⟨hk, hpk⟩ := State.sensPush_fits (s := s.sensHeard p instant) (k := { data := f.bytes, stamp := instant }) hq hstate rfl
    (by rw [hcap]; exact hf)
  refine ⟨_, execSensFrameReceive_pushes instant hl hc he hs hv hm, ?_, ?_, hk.mirror.cores, ?_⟩
  · rw [State.mirror_other _ _ _ _ (hq8.trans (by decide)), hpk]
    rfl
  · rw [hk.mirror.head]
    exact congrArg Head.lastPacket (State.head_modHead ..)
  · rw [hk.mirror.num (not_queueKey_netOd (by omega) (by decide))]
    exact State.num_bump ..

/-- A good frame of another form is dropped before the queue and counted (R442, R446). -/
theorem execSensFrameReceive_drops {p : Fin 8} {f : RawFrame} {e : EthIn} (instant : Nat) (hl : s.net.link p.val = true)
    (hc : f.fcsOk = true) (he : parseEth f.bytes = some e) (hs : (sensPayload f.bytes).isNone = true) (ht : e.etype ≠ 0x88F7) :
    execSensFrameReceive p f instant s = .next ((s.at instant).rxDrop p.val) := by
  unfold execSensFrameReceive
  simp [hl, hc, he, ht, hs]

/-! The HOST ports: learning. -/

/-- What a state after the queue still says of a HOST port, as its frame meets the switch. -/
theorem Queueing.dstOk {t : State} (h : Queueing s t) (p : Fin 2) (d : Bytes) : t.dstOk (hostPort p) d = s.dstOk (hostPort p) d := by
  unfold State.dstOk State.ownMac
  rw [h.oct (not_queueKey_netOd (by unfold hostPort; omega) (by decide))]

theorem Queueing.vlanOk {t : State} (h : Queueing s t) (p : Fin 2) (e : EthIn) : t.vlanOk (hostPort p) e = s.vlanOk (hostPort p) e := by
  unfold State.vlanOk
  rw [h.num (not_queueKey_netOd (by unfold hostPort; omega) (by decide))]

/-- A good ARP frame that its queue delivered teaches the module its sender's pair (R442, R443). -/
theorem State.hostTake_arp {h : Fin 2} {b : Bytes} {e : EthIn} (he : parseEth b = some e) (hd : s.dstOk (hostPort h) e.dst = true)
    (hv : s.vlanOk (hostPort h) e = true) (ht : e.etype = 0x0806)
    (hm : ∀ f ∈ chunksOf 16 8 (s.oct (netOd (hostPort h) 0x0F)), qciMatches f e = false) (hs : s.flag (netOd (hostPort h) 0x0D) = false) :
    s.hostTake h b = (s.bump (netOd (hostPort h) 6)).learn h (fieldBe e.body 14 4) e.src := by
  have hsec : s.macsecIn (hostPort h) b = (s, some b) := if_pos (.inl (by rw [hs]; rfl))
  have hr : e.rtag = none := if_neg fun h => absurd (ht.symm.trans h.1) (by decide)
  unfold State.hostTake
  simp [he, hd, hv, ht, State.qci_unmatched _ hm, hsec, hr, State.toSupervisor]

theorem execHostFrameReceive_learns {h : Fin 2} {f : RawFrame} {e : EthIn} {instant : Nat} {q : Fin 24} (hq : q = Fin.ofNat 24 (8 + h.val))
    (hl : s.net.link (hostPort h) = true) (hc : f.fcsOk = true) (he : parseEth f.bytes = some e)
    (hd : s.dstOk (hostPort h) e.dst = true) (hv : s.vlanOk (hostPort h) e = true) (ht : e.etype = 0x0806)
    (hm : ∀ f ∈ chunksOf 16 8 (s.oct (netOd (hostPort h) 0x0F)), qciMatches f e = false) (hs : s.flag (netOd (hostPort h) 0x0D) = false)
    (hempty : (s.q[q]).pkts = []) (hf : ceilDiv f.bytes.length 32 ≤ 2048) :
    ∃ t, execHostFrameReceive h f .clean instant s = .next t ∧ (t.q[q]).pkts = [] ∧ t.cores = s.cores ∧
      (t.net.host[h]).macs.head? = some (fieldBe e.body 14 4, e.src) ∧
      t.num (netOd (hostPort h) 6) = Od.counter (netOd (hostPort h) 6) (s.num (netOd (hostPort h) 6) + 1) := by
  have hp : hostPort h < 16 := by unfold hostPort; omega
  have hcap : qCap q = 2048 := by
    have : q = 8 ∨ q = 9 := by subst hq; fin_cases h <;> decide
    rcases this with rfl | rfl <;> rfl
  obtain ⟨t, u, h1, h2, hk, hu⟩ := State.qPush_qPop (s := s.at instant) (p := { data := f.bytes, stamp := instant }) hempty rfl
    (hf.trans_eq hcap.symm)
  subst hq
  have hx : execHostFrameReceive h f .clean instant s = .next (u.hostTake h f.bytes) := by
    unfold execHostFrameReceive
    simp [-Fin.ofNat_eq_cast, hl, hc, h1, h2]
  have htake : u.hostTake h f.bytes = (u.bump (netOd (hostPort h) 6)).learn h (fieldBe e.body 14 4) e.src :=
    State.hostTake_arp he ((hk.dstOk h _).trans hd) ((hk.vlanOk h _).trans hv) ht
      (by rw [hk.oct (not_queueKey_netOd hp (by decide))]; exact hm)
      (by rw [State.flag, hk.num (not_queueKey_netOd hp (by decide))]; exact hs)
  refine ⟨_, hx, ?_⟩
  rw [htake]
  refine ⟨hu, hk.cores, ?_, ?_⟩
  · exact congrArg (fun x : HostOut => x.macs.head?) (State.modHost_same ..)
  · exact (State.num_bump ..).trans (by rw [hk.num (not_queueKey_netOd hp (by decide))]; rfl)

end Sys2Proof.Machine
end

