-- ==== Sys2Proof/Proofs/HostReply.lean ====
section
/-! PROOFS. ARP and ICMP are answered (R443, R444): a frame of class 0 leaves a ready HOST port at once. -/

namespace Sys2Proof.Machine

variable {s t : State} {h : Fin 2} {f : TxFrame}

/-! Gates. -/

/-- Nothing holds class 0 of a HOST port back (R446, R447, R460): its gate is open and stays so, no result window closes it, and it has no
idle slope. -/
structure State.freeClass0 (s : State) (h : Fin 2) : Prop where
  gate : s.gateOpen h 0 = true
  list : s.listCloses h 0 = none
  window : s.windowCloses = none
  slope : s.idleSlope h 0 = 0

/-- Class 0 stays free while the frame, the port's window and entry, its gate list and slope and RESULT_IP stay. -/
theorem State.freeClass0.congr (a : s.freeClass0 h) (hf : t.frame = s.frame) (hw : (t.net.host[h]).window = (s.net.host[h]).window)
    (he : (t.net.host[h]).entry = (s.net.host[h]).entry)
    (ho : ∀ k ∈ [od (0x1180 + 16 * h.val) 0x11, od (0x1180 + 16 * h.val) 0x12, od 0x1000 3], t.obj k = s.obj k) : t.freeClass0 h := by
  have hl : t.gateList h = s.gateList h := by
    simp only [State.gateList, State.oct, ho _ (List.mem_cons_self ..)]
  have hip : t.num (od 0x1000 3) = s.num (od 0x1000 3) := by
    simp only [State.num, State.int, ho (od 0x1000 3) (by simp)]
  have hsl : t.num (od (0x1180 + 16 * h.val) 0x12) = s.num (od (0x1180 + 16 * h.val) 0x12) := by
    simp only [State.num, State.int, ho (od (0x1180 + 16 * h.val) 0x12) (by simp)]
  have hsp : t.gateSpans h = s.gateSpans h := by simp only [State.gateSpans, hf, hl]
  obtain ⟨h1, h2, h3, h4⟩ := a
  refine ⟨?_, ?_, ?_, ?_⟩
  · rw [← h1]
    simp only [State.gateOpen, State.gateMask, hw, he, hl]
  · rw [← h2]
    simp only [State.listCloses, hf, hsp, hl, he]
  · rw [← h3]
    simp only [State.windowCloses, hf, hip]
  · exact hsl.trans h4

theorem State.lineReady.freeClass0 (a : s.lineReady h) : s.freeClass0 h := by
  obtain ⟨-, h1, h2, h3, h4, -⟩ := a
  exact ⟨h1, h2, h3, h4⟩

/-- The frame that waits alone starts where its class is free. -/
theorem State.nextOut_free (a : s.freeClass0 h) (hw : (s.net.host[h]).waiting = [f]) (hc : f.cls = 0) (n : Nat) : s.nextOut h n = some f := by
  have hg : s.gateLets h f n = true := by
    rw [State.gateLets, hc, a.gate, a.list, a.window]
    rfl
  simp [-Fin.getElem_fin, State.nextOut, HostOut.front, hw, hc, hg, State.creditOk, a.slope]

/-- The frame that starts alone leaves, and nothing waits any more (R447). -/
theorem State.hostDrain_leaves (hw : (s.net.host[h]).waiting = [f]) (hh : (s.net.host[h]).held = []) {n m : Nat}
    (ho : (s.accrue h m).nextOut h m = some f) (hl : s.net.link f.port = true) (hs : s.flag (netOd f.port 0x0D) = false) :
    (State.hostDrain (n + 2) s h m).net.sent = s.net.sent ++ [{ f with at_ := m }] := by
  obtain ⟨c, k, e⟩ := s.credits_host h none m
  have hw1 : ((s.accrue h m).net.host[h]).waiting = [f] := by rw [State.accrue, e]; exact hw
  have hh1 : ((s.accrue h m).net.host[h]).held = [] := by rw [State.accrue, e]; exact hh
  obtain ⟨h1, h2⟩ := State.leave_single (t := m) hw1 hh1 hl hs
  have hd : State.hostDrain (n + 2) s h m = ((s.accrue h m).leave h f m).accrue h
      (((s.accrue h m).modHost h fun x => { x with waiting := x.waiting.eraseP (fun y => y.cls == f.cls) }).onLine h f m |>.lineFree h) := by
    rw [State.hostDrain]
    simp only [ho]
    exact State.hostDrain_nil h2 _ _
  rw [hd]
  exact h1

/-- A frame that its egress queue can hold enters it alone (R258). -/
theorem State.hostAdmit_alone (hw : (s.net.host[h]).waiting = []) (hh : (s.net.host[h]).held = [f]) (hn : s.frameWords f ≤ 4096) :
    ∃ v : Int, s.hostAdmit h = (s.modHost h (fun x => { x with waiting := x.waiting ++ [f], held := [] })).setNum (od (0x183A + h.val) 1) v := by
  have hl : State.letIn 1 s h = s.modHost h (fun x => { x with waiting := x.waiting ++ [f], held := [] }) := by
    have hfit : ¬ 4096 < s.hostFill h + s.frameWords f := by
      rw [State.hostFill, hw]
      exact Nat.not_lt.mpr ((Nat.zero_add _).trans_le hn)
    rw [State.letIn, hh]
    dsimp only
    rw [if_neg hfit, State.letIn]
  unfold State.hostAdmit
  rw [hh]
  exact ⟨_, congrArg (fun t : State => t.setNum (od (0x183A + h.val) 1) _) hl⟩

/-- The state in which a frame has entered the empty egress queue of a HOST port. -/
theorem State.hostAdmit_queued (hw : (s.net.host[h]).waiting = []) (hh : (s.net.host[h]).held = []) (hn : s.frameWords f ≤ 4096) :
    ∃ u c k, ((s.accrue h s.frame.now).modHost h (fun x => { x with held := x.held ++ [f] })).hostAdmit h = u ∧
      u.frame = s.frame ∧ u.net.sent = s.net.sent ∧ u.net.port = s.net.port ∧
      u.net.host[h] = { s.net.host[h] with credit := c, creditAt := k, waiting := [f], held := [] } ∧
      ∀ j, j ≠ od (0x183A + h.val) 1 → u.obj j = s.obj j := by
  obtain ⟨c, k, e⟩ := s.credits_host h none s.frame.now
  have e1 := State.modHost_same (s.accrue h s.frame.now) h (fun x => { x with held := x.held ++ [f] })
  rw [State.accrue, e, hh] at e1
  have e2 := State.modHost_same ((s.accrue h s.frame.now).modHost h (fun x => { x with held := x.held ++ [f] })) h
    (fun x => { x with waiting := x.waiting ++ [f], held := [] })
  rw [State.accrue, e1, hw] at e2
  obtain ⟨v, hq⟩ := State.hostAdmit_alone (f := f) (s := (s.accrue h s.frame.now).modHost h (fun x => { x with held := x.held ++ [f] }))
    (by rw [State.accrue, e1]; exact hw) (by rw [State.accrue, e1]; rfl) hn
  exact ⟨_, c, k, hq, rfl, rfl, rfl, e2, fun j hj => State.obj_setNum_other _ v hj⟩

/-- A frame of class 0 leaves a ready HOST port at the instant from which its line is free (R443, R446, R447). -/
theorem State.hostSend_ready (a : s.lineReady h) (hc : f.cls = 0) (hp : f.port = hostPort h) (hn : s.frameWords f ≤ 4096) :
    (s.hostSend h f).net.sent = s.net.sent ++ [{ f with at_ := s.lineFree h }] := by
  have hfree := State.lineReady.freeClass0 a
  obtain ⟨hl, -, -, -, -, hwait, hheld, hsec⟩ := a
  obtain ⟨u, c, k, hu, hframe, hsent, hport, hhost, hobj⟩ := State.hostAdmit_queued hwait hheld hn
  have hx : s.hostSend h f = u.hostFlow h := by
    unfold State.hostSend
    rw [if_neg (by rw [hl]; decide), if_neg (by rw [hc]; decide), hu]
  have hline : u.lineFree h = s.lineFree h := by simp only [State.lineFree, hframe, hhost]
  have hflow : u.hostFlow h = State.hostDrain 3 u h (s.lineFree h) := by
    rw [State.hostFlow, hline, hhost]
    rfl
  have hkeys : ∀ j ∈ [od (0x1180 + 16 * h.val) 0x11, od (0x1180 + 16 * h.val) 0x12, od 0x1000 3], u.obj j = s.obj j := by
    intro j hj
    refine hobj j ?_
    simp only [List.mem_cons, List.not_mem_nil, or_false, od] at hj ⊢
    omega
  have hufree : u.freeClass0 h := hfree.congr hframe (by rw [hhost]) (by rw [hhost]) hkeys
  obtain ⟨c', k', e'⟩ := u.credits_host h none (s.lineFree h)
  have hafree : (u.accrue h (s.lineFree h)).freeClass0 h :=
    hufree.congr rfl (by rw [State.accrue, e']) (by rw [State.accrue, e']) fun _ _ => rfl
  have hflag : u.flag (netOd f.port 0x0D) = false := by
    rw [← hsec, hp]
    simp only [State.flag, State.num, State.int]
    rw [hobj]
    unfold netOd od hostPort
    omega
  rw [hx, hflow, State.hostDrain_leaves (by rw [hhost]) (by rw [hhost])
    (State.nextOut_free hafree (by rw [State.accrue, e', hhost]) hc _) ?_ hflag, hsent]
  rw [hp, Net.link, hport]
  exact hl

end Sys2Proof.Machine
end

