-- ==== Sys2Proof/Proofs/ArpIcmp.lean ====
section
/-! PROOFS. The replies to ARP and echo requests (R443, R444), and the frames received from the sensors and the host. -/

namespace Sys2Proof.Machine

variable {s t : State} {h : Fin 2} {f : TxFrame}

/-! Lengths. -/

theorem natLe_length (n v : Nat) : (natLe n v).length = n := by
  induction n generalizing v with
  | zero => rfl
  | succ n ih => rw [natLe, List.length_cons, ih]

theorem natBe_length (n v : Nat) : (natBe n v).length = n := by rw [natBe, List.length_reverse, natLe_length]

theorem padTo_length (n : Nat) (l : Bytes) : (padTo n l).length = n := by
  simp only [padTo, zeros, List.length_append, List.length_take, List.length_replicate]
  omega

theorem slice_length_le (l : Bytes) (o n : Nat) : (slice l o n).length ≤ n := by
  rw [slice, List.length_take]
  exact Nat.min_le_left ..

theorem beNat_foldl_lt (l : Bytes) (a : Nat) : l.foldl (fun a b => 256 * a + b.toNat) a < (a + 1) * 256 ^ l.length := by
  induction l generalizing a with
  | nil => simp
  | cons b l ih =>
    refine (ih _).trans_le ?_
    rw [List.length_cons, pow_succ']
    have hb := b.isLt
    calc (256 * a + b.toNat + 1) * 256 ^ l.length ≤ ((a + 1) * 256) * 256 ^ l.length := Nat.mul_le_mul_right _ (by omega)
      _ = (a + 1) * (256 * 256 ^ l.length) := Nat.mul_assoc ..

theorem fieldBe_lt (l : Bytes) (o n : Nat) : fieldBe l o n < 256 ^ n := by
  have h := beNat_foldl_lt (slice l o n) 0
  rw [Nat.zero_add, Nat.one_mul] at h
  exact h.trans_le (Nat.pow_le_pow_right (by decide) (slice_length_le l o n))

/-- A datagram carries less than 65,536 bytes. -/
theorem parseIp_length {b : Bytes} {i : IpIn} (hi : parseIp b = some i) : i.body.length < 65536 := by
  unfold parseIp at hi
  extract_lets v ihl total at hi
  split at hi
  · cases hi
  · cases hi
    have := fieldBe_lt b 2 2
    exact (slice_length_le ..).trans_lt (by omega)

/-- A frame's bytes beside its destination and content: source, tags and EtherType. -/
theorem State.frameBytes_length_le (s : State) (f : TxFrame) : (s.frameBytes f).length ≤ f.dst.length + f.content.length + 18 := by
  have hv : (if f.vlan = 0 then ([] : Bytes) else natBe 2 0x8100 ++ natBe 2 f.vlan).length ≤ 4 := by
    split
    · exact Nat.zero_le _
    · simp [natBe_length]
  unfold State.frameBytes
  cases f.rtag with
  | none =>
    simp only [List.length_append, List.length_nil, natBe_length, State.ownMac, padTo_length] at hv ⊢
    omega
  | some q =>
    simp only [List.length_append, natBe_length, State.ownMac, padTo_length] at hv ⊢
    omega

theorem TxFrame.content_raw (hp : f.proto = 0) : f.content = f.payload := if_pos hp

/-- An ICMP datagram's header has 20 bytes. -/
theorem TxFrame.content_icmp (hp : f.proto = 1) : f.content.length = f.payload.length + 20 := by
  unfold TxFrame.content
  simp [hp, natBe_length]
  omega

/-- A frame of fewer than 65,600 bytes of content fits into the empty egress queue. -/
theorem State.frameWords_le (s : State) (hd : f.dst.length ≤ 6) (hc : f.content.length ≤ 65600) : s.frameWords f ≤ 4096 := by
  have := s.frameBytes_length_le f
  unfold State.frameWords ceilDiv
  omega

/-! Replies. -/

/-- A HOST port stays ready, and its line free from the same instant, while at most its address pairs change. -/
theorem State.lineReady_macs (a : s.lineReady h) (hf : t.frame = s.frame) (hd : t.dict = s.dict) (hp : t.net.port = s.net.port)
    {m : List (Nat × Bytes)} (hh : t.net.host[h] = { s.net.host[h] with macs := m }) : t.lineReady h ∧ t.lineFree h = s.lineFree h := by
  obtain ⟨h1, h2, h3, h4⟩ := (State.lineReady.freeClass0 a).congr (t := t) hf (by rw [hh]) (by rw [hh]) fun k _ => State.obj_congr hd k
  obtain ⟨hl, -, -, -, -, hw, hheld, hs⟩ := a
  refine ⟨⟨?_, h1, h2, h3, h4, ?_, ?_, ?_⟩, ?_⟩
  · rw [← hl, Net.link, Net.link, hp]
  · rw [hh]; exact hw
  · rw [hh]; exact hheld
  · rw [← hs, State.flag, State.flag, State.num_congr hd]
  · simp only [State.lineFree, hf, hh]

/-- The pair of a sender is known once it is learned (R443). -/
theorem State.macFor_learn (s : State) (h : Fin 2) (ip : Nat) {mac : Bytes} (hm : mac.length ≤ 6) :
    ∃ m, (s.learn h ip mac).macFor h ip = some m ∧ m.length ≤ 6 := by
  have hh : ((s.learn h ip mac).net.host[h]).macs.find? (fun y => y.1 == ip) = some (ip, mac) := by
    rw [State.learn, State.modHost_same]
    simp
  unfold State.macFor
  split
  · exact ⟨_, rfl, by simp⟩
  split
  · exact ⟨_, rfl, by simp [natBe_length]⟩
  split
  · exact ⟨_, rfl, (padTo_length ..).le⟩
  · rw [hh]
    exact ⟨mac, rfl, hm⟩

theorem State.learn_ready (a : s.lineReady h) (ip : Nat) (mac : Bytes) :
    (s.quiet.learn h ip mac).lineReady h ∧ (s.quiet.learn h ip mac).lineFree h = s.lineFree h :=
  State.lineReady_macs a rfl rfl rfl (State.modHost_same s.quiet h _)

/-- Addresses of a frame read from the wire have at most six bytes. -/
theorem parseEth_src {b : Bytes} {e : EthIn} (he : parseEth b = some e) : e.src.length ≤ 6 := by
  unfold parseEth at he
  extract_lets ty ty2 at he
  split at he
  · cases he
  split at he
  · cases he
    exact slice_length_le ..
  split at he
  · cases he
  · cases he
    exact slice_length_le ..

/-- A request for the module's own address is answered with its MAC at once (R443, R444). -/
theorem execArpRequest_answers {h : Fin 2} {f : RawFrame} {e : EthIn} (hl : s.net.link (hostPort h) = true) (hc : f.fcsOk = true)
    (he : parseEth f.bytes = some e) (hsup : s.power.supervisor = true) (a : s.lineReady h) (ht : e.etype = 0x0806)
    (h8 : e.body.take 8 = [0, 1, 8, 0, 6, 4, 0, 1]) (hlen : 28 ≤ e.body.length) (hip : fieldBe e.body 24 4 = s.ownIp) :
    ∃ t, execArpRequest h f s = .next t ∧
      t.net.sent = [{ port := hostPort h, cls := 0, dst := slice e.body 8 6, vlan := s.num (netOd (hostPort h) 0x0A), etype := 0x0806
                      proto := 0, payload := [0, 1, 8, 0, 6, 4, 0, 2] ++ s.ownMac (hostPort h) ++ natBe 4 s.ownIp ++ slice e.body 8 10
                      at_ := s.lineFree h }] := by
  have hlen' : ¬ e.body.length < 28 := Nat.not_lt.mpr hlen
  have hip' : fieldBe e.body 24 4 = s.quiet.ownIp := hip
  have hl' : s.quiet.net.link (hostPort h) = true := hl
  have hsup' : s.quiet.power.supervisor = true := hsup
  obtain ⟨hr, hfree⟩ := State.learn_ready a (fieldBe e.body 14 4) e.src
  have hx : execArpRequest h f s = .next ((s.quiet.learn h (fieldBe e.body 14 4) e.src).hostSend h
      { port := hostPort h, cls := 0, dst := slice e.body 8 6, vlan := s.num (netOd (hostPort h) 0x0A), etype := 0x0806, proto := 0
        payload := [0, 1, 8, 0, 6, 4, 0, 2] ++ s.ownMac (hostPort h) ++ natBe 4 s.ownIp ++ slice e.body 8 10 }) := by
    unfold execArpRequest
    simp only [he, hl', hsup', hc, ht, h8, hlen', hip']
    exact next_congr (if_neg (by simp))
  refine ⟨_, hx, ?_⟩
  rw [State.hostSend_ready hr rfl rfl, hfree]
  · rfl
  · refine State.frameWords_le _ (slice_length_le ..) ?_
    rw [TxFrame.content_raw rfl]
    have := slice_length_le e.body 8 10
    simp only [List.length_append, List.length_cons, List.length_nil, natBe_length, State.ownMac, padTo_length]
    omega

/-- What a datagram to a known address puts on a ready HOST port (R443). -/
theorem State.sendOn_ready {h : Fin 2} {ip sp dp : Nat} {d mac : Bytes} (a : s.lineReady h) (hm : s.macFor h ip = some mac)
    (hmac : mac.length ≤ 6) (hd : d.length ≤ 65536) :
    ∃ x, (s.sendOn h 0 none 1 sp dp ip d).net.sent = s.net.sent ++ [x] ∧ x.proto = 1 ∧ x.dstIp = ip ∧ x.srcIp = s.ownIp ∧ x.payload = d := by
  unfold State.sendOn
  rw [hm]
  extract_lets u
  obtain ⟨m, hu⟩ : ∃ m, u.net.host[h] = { s.net.host[h] with macs := m } := by
    rw [State.modHost_same]
    split
    · exact ⟨_, rfl⟩
    · exact ⟨_, rfl⟩
  obtain ⟨hr, -⟩ := State.lineReady_macs a (t := u) rfl rfl rfl hu
  refine ⟨_, State.hostSend_ready hr rfl rfl (State.frameWords_le _ hmac ?_), rfl, rfl, rfl, rfl⟩
  rw [TxFrame.content_icmp rfl]
  dsimp only
  omega

/-- An echo request for the module's own address is answered with its identifier, sequence and data (R443). -/
theorem execIcmpEcho_answers {h : Fin 2} {f : RawFrame} {e : EthIn} {i : IpIn} (hl : s.net.link (hostPort h) = true) (hc : f.fcsOk = true)
    (he : parseEth f.bytes = some e) (hsup : s.power.supervisor = true) (a : s.lineReady h) (ht : e.etype = 0x0800)
    (hi : parseIp e.body = some i) (hfrag : i.fragment = false) (hihl : i.ihl = 20) (hproto : i.proto = 1) (hdst : i.dst = s.ownIp)
    (h8 : i.body.take 2 = [8, 0]) (hlen : 8 ≤ i.body.length) (hsum : sumOk i.body = true) :
    ∃ t x, execIcmpEcho h f s = .next t ∧ t.net.sent = [x] ∧ x.proto = 1 ∧ x.dstIp = i.src ∧ x.srcIp = s.ownIp ∧
      x.payload.take 2 = [0, 0] ∧ x.payload.drop 4 = i.body.drop 4 := by
  have hlen' : ¬ i.body.length < 8 := Nat.not_lt.mpr hlen
  have hdst' : i.dst = s.quiet.ownIp := hdst
  have hl' : s.quiet.net.link (hostPort h) = true := hl
  have hsup' : s.quiet.power.supervisor = true := hsup
  obtain ⟨hr, -⟩ := State.learn_ready a i.src e.src
  obtain ⟨m, hm, hm6⟩ := s.quiet.macFor_learn h i.src (parseEth_src he)
  let d : Bytes := [0, 0] ++ natBe 2 (65535 - onesFold (onesSum (i.body.drop 4))) ++ i.body.drop 4
  have hx : execIcmpEcho h f s = .next ((s.quiet.learn h i.src e.src).sendOn h 0 none 1 0 0 i.src d) := by
    unfold execIcmpEcho
    simp only [he, hi, hl', hsup', hc, ht, hfrag, hihl, hproto, h8, hlen', hdst', hsum]
    exact next_congr (if_neg (by simp))
  have hd : d.length ≤ 65536 := by
    have := parseIp_length hi
    simp only [d, List.length_append, List.length_cons, List.length_nil, natBe_length, List.length_drop]
    omega
  obtain ⟨x, hsent, h1, h2, h3, h4⟩ := State.sendOn_ready (sp := 0) (dp := 0) hr hm hm6 hd
  have h2b : (natBe 2 (65535 - onesFold (onesSum (i.body.drop 4)))).length = 2 := natBe_length ..
  refine ⟨_, x, hx, hsent, h1, h2, h3, ?_, ?_⟩
  · rw [h4]
    rfl
  · rw [h4]
    exact List.drop_left' (by rw [List.length_append, h2b]; rfl)

/-- Settles O41: the sensor frames by `execSensFrameReceive_takes` and `_drops`, HOST frames by `execHostFrameReceive_learns`, and the two
replies by `execArpRequest_answers` and `execIcmpEcho_answers`. -/
theorem receivedFramesAreTakenOrAnswered : Obligations.ReceivedFramesAreTakenOrAnswered := by
  unfold Obligations.ReceivedFramesAreTakenOrAnswered
  refine fun s => ⟨fun p f e instant hl hc he q hq => ⟨?_, ?_⟩, fun h f e hl hc he => ⟨?_, fun hsup hready => ⟨?_, ?_⟩⟩⟩
  · exact fun hs hv hm hp hf => execSensFrameReceive_takes hq hl hc he hs hv hm hp hf
  · exact fun hs ht => ⟨_, execSensFrameReceive_drops instant hl hc he hs ht, rfl, State.num_bump ..⟩
  · exact fun instant hd hv ht hm hs q hq hempty hf => execHostFrameReceive_learns hq hl hc he hd hv ht hm hs hempty hf
  · exact fun ht h8 hlen hip => execArpRequest_answers hl hc he hsup hready ht h8 hlen hip
  · exact fun i ht hi hfrag hihl hproto hdst h8 hlen hsum => execIcmpEcho_answers hl hc he hsup hready ht hi hfrag hihl hproto hdst h8 hlen hsum

end Sys2Proof.Machine
end

