-- ==== Sys2Proof/Proofs/HeadsPoses.lean ====
section
/-! SUPPORT and THEOREMS. Heads, poses and life counters (R45, R46, R50, R52, R53, R66, R501): O43. -/

namespace Sys2Proof.Machine

variable {s t : State} {p : Fin 8}

/-! What the updates leave of heads and objects. -/

theorem State.head_modHead_other {q : Fin 8} (f : Head → Head) (h : q ≠ p) : (s.modHead p f).head q = s.head q := by
  have : (p : Nat) ≠ q := fun e => h (Fin.ext e.symm)
  simp [State.head, State.modHead, this]

theorem State.num_of_obj {k : Nat} (h : t.obj k = s.obj k) : t.num k = s.num k := by simp only [State.num, State.int, h]
theorem State.oct_of_obj {k : Nat} (h : t.obj k = s.obj k) : t.oct k = s.oct k := by simp only [State.oct, h]

@[simp] theorem State.head_setNum (s : State) (k : Nat) (v : Int) (p : Fin 8) : (s.setNum k v).head p = s.head p := rfl
@[simp] theorem State.head_setOct (s : State) (k : Nat) (b : Bytes) (p : Fin 8) : (s.setOct k b).head p = s.head p := rfl
@[simp] theorem State.head_store (s : State) (k : Nat) (v : OdVal) (p : Fin 8) : (s.store k v).head p = s.head p := rfl
@[simp] theorem State.head_raise (s : State) (c i v : Nat) (b : Bool) (p : Fin 8) : (s.raise c i v b).head p = s.head p :=
  State.head_of_ing (State.raise_ing ..) p

/-- An event leaves the status that a command was answered with. -/
theorem State.raise_lastStatus (s : State) (c i v : Nat) (b : Bool) : (s.raise c i v b).hap.lastStatus = s.hap.lastStatus := by
  unfold State.raise
  dsimp only
  split
  · rfl
  · split
    · rfl
    · split <;> rfl

/-- No object of a port counts the events lost (R359). -/
theorem portOd_ne_lost {b j : Nat} (hb : b < 0x7800) (hj : j < 256) : portOd b p j ≠ od 0x7900 5 := by
  unfold portOd od
  omega

/-! A silent head (R45). -/

theorem execHeadLossTimeout_lost {n : Nat} (hs : (s.head p).state = .active ∨ (s.head p).state = .bootstrap)
    (he : s.slotEmpty p = false) (hn : (s.head p).lastPacket + 1000000 * s.num (od 0x3000 6) ≤ n) :
    execHeadLossTimeout p n s = .next (((s.at n).modHead p (fun h => { h with
      state := .lost, returning := false, notActive := true })).raise 0x3008 p) :=
  next_congr (if_pos ⟨hs, by rw [show (s.at n).slotEmpty p = s.slotEmpty p from rfl, he]; rfl, hn⟩)

/-! Acceptance (R46). -/

/-- What an acceptance of a record leaves in its head: paired, accepted, its life counter at the record's value. -/
def Head.accepts (h : Head) (c : CalRec) : Prop :=
  h.paired = c.serial ∧ h.accepted = true ∧ h.opTimeNs = 1000000000 * c.timeAtIssue

/-- The objects that an acceptance gives (R46, R52, R53). -/
def State.holdsRecord (s : State) (p : Fin 8) (c : CalRec) : Prop :=
  s.oct (portOd 0x3100 p 2) = c.serial ∧ s.num (portOd 0x3102 p 1) = c.timeAtIssue ∧ s.num (portOd 0x3102 p 2) = c.pulsesAtIssue ∧
    s.num (portOd 0x3102 p 3) = 0

theorem State.holdsRecord_of_obj {c : CalRec} (h : s.holdsRecord p c)
    (hk : ∀ b j, b < 0x7800 → j < 256 → t.obj (portOd b p j) = s.obj (portOd b p j)) :
    t.holdsRecord p c := by
  obtain ⟨h1, h2, h3, h4⟩ := h
  exact ⟨(State.oct_of_obj (hk _ _ (by decide) (by decide))).trans h1, (State.num_of_obj (hk _ _ (by decide) (by decide))).trans h2,
    (State.num_of_obj (hk _ _ (by decide) (by decide))).trans h3, (State.num_of_obj (hk _ _ (by decide) (by decide))).trans h4⟩

/-- The objects as an acceptance stores them, one after the other. -/
theorem State.holdsRecord_stored (s : State) (p : Fin 8) (c : CalRec) (w : Int) :
    ((((((s.store (portOd 0x3102 p 1) (.num c.timeAtIssue)).store (portOd 0x3102 p 2) (.num c.pulsesAtIssue)).store
      (portOd 0x3102 p 3) (.num 0)).setOct (portOd 0x3100 p 2) c.serial).setNum (portOd 0x3102 p 4) w)).holdsRecord p c := by
  simp (disch := (unfold portOd od; omega)) [State.holdsRecord, State.oct, State.num, State.int, State.setOct, State.obj_setNum_other,
    State.obj_setObj_other, State.obj_store_other, OdVal.toBytes, OdVal.toInt]

theorem acceptEffect_accepts {c : CalRec} (hc : parseCal ((s.oct (portOd 0x3100 p 6)).take 2144) = some c) :
    ((acceptEffect p s).head p).accepts c ∧ (acceptEffect p s).holdsRecord p c := by
  unfold acceptEffect
  simp only [hc]
  constructor
  · simp only [State.head_raise, State.head_setNum, State.head_setOct, State.head_store, State.head_modHead]
    split <;> exact ⟨rfl, rfl, rfl⟩
  · exact State.holdsRecord_of_obj (State.holdsRecord_stored _ p c _) fun b j hb hj => State.obj_raise _ _ _ _ _ (portOd_ne_lost hb hj)

theorem execAccept_accepts {w : Writer} (ha : (s.at w.t).accepts w (0x3100 + 16 * p.val) 5 (.num 1)) (h0 : acceptCheck p (s.at w.t) = 0) :
    execAccept w p 1 s = .next ((acceptEffect p (s.at w.t)).answer 0) := by
  unfold execAccept
  rw [h0, State.command_accepts (v := .num (1 : BitVec 8).toNat) ha]
  simp [h0]

theorem execAccept_refuses {w : Writer} (ha : (s.at w.t).accepts w (0x3100 + 16 * p.val) 5 (.num 1)) (h6 : acceptCheck p (s.at w.t) = 6) :
    ∃ t, execAccept w p 1 s = .next t ∧ t.ing = s.ing ∧ t.hap.lastStatus = 6 := by
  refine ⟨_, rfl, ?_⟩
  rw [State.command_accepts (v := .num (1 : BitVec 8).toNat) ha, h6]
  split
  · exact ⟨(State.raise_ing ..), State.raise_lastStatus ..⟩
  · exact ⟨rfl, rfl⟩

/-! The correction (R50, R587). -/

theorem State.calOne_steps {frame : Nat} {e : CalEst} (hf : (s.head e.port).evalFrame ≠ frame) (hs : (s.head e.port).steady = true)
    (he : s.slotEmpty e.port = false) (ha : (s.head e.port).state = .active) (hz : s.flag (portOd 0x3101 e.port 9) = false)
    (hb : atCorrBound (stepCorr false (s.head e.port).corr e.want) = false) :
    s.calOne frame e = (((s.setNum (portOd 0x3101 e.port 8) e.residual).modHead e.port (fun h => { h with evalFrame := frame })).modHead
      e.port (fun h => { h with nextCorr := stepCorr false (s.head e.port).corr e.want, boundFrames := 0, atBound := false })).setCalStatus
      e.port 0 := by
  unfold State.calOne
  simp only [if_neg hf, hs, he, ha, hz, hb]
  rfl

theorem execCalEvaluate_one {frame : Nat} {e : CalEst} (h : frame = s.frame.lastFrame) (h0 : frame ≠ 0) :
    execCalEvaluate frame [e] s = .next (s.calOne frame e) := next_congr (if_pos ⟨h, h0⟩)

/-! Life counters (R53). -/

/-- A map into which the values of some keys were put one after another. -/
theorem get_foldl_put {α : Type} [DecidableEq α] (d : Nat → α) (f : Nat → α) (l : List Nat) (m : List (Nat × α)) (k : Nat) :
    Sparse.get d (l.foldl (fun m k => Sparse.put d m k (f k)) m) k = if k ∈ l then f k else Sparse.get d m k := by
  induction l generalizing m with
  | nil => rfl
  | cons a l ih =>
    rw [List.foldl_cons, ih, Sparse.get_put]
    by_cases h : k = a
    · subst h; simp
    · simp [h]

/-! Pose samples (R66, R75). -/

theorem execPose_takes {r : HapReq} {x : Session} {b : Bytes} (hp : s.power.supervisor = true) (hr : hapBad r = false)
    (hx : s.session r.session = some x) (hh : x.isHost = true) (h6 : s.sec.effective ≠ 6) (hb : r.body = [1, 0, 0, 0] ++ b)
    (hl : b.length = 64) :
    ∃ u : State, execPose r s = .next (u.takePose b) ∧ u.ing = s.ing ∧ u.cores = s.cores ∧ u.net.sent = [] := by
  refine ⟨(((s.at r.t).quiet.modSession r.session (fun x => { x with lastTime := (s.at r.t).quiet.frame.now })).bump (od 0x1B00 0x0A)),
    next_congr ?_, rfl, rfl, rfl⟩
  have hn : fieldLe r.body 0 1 = 1 := by rw [hb]; rfl
  have hs : slice r.body (4 + 64 * 0) 64 = b := by rw [hb]; simp [slice, hl]
  have hz : allZero (slice r.body 1 3) = true := by rw [hb]; rfl
  have h1 : ((s.at r.t).quiet.session r.session).any (fun x => x.isHost) = true := by
    rw [show (s.at r.t).quiet.session r.session = some x from hx]; exact hh
  have hlen : r.body.length = 4 + 64 := by rw [hb, List.length_append, hl]; rfl
  simp only [hn, hz, hlen, hr, h1, show (s.at r.t).quiet.power.supervisor = true from hp]
  rw [if_neg (by simp), if_neg (by simp), if_neg (by simpa using h6), show List.range 1 = [0] from rfl, List.foldl_cons, List.foldl_nil, hs]

theorem State.takePose_newest {b : Bytes} {time : Nat} (ht : ofTime80 (b.take 10) = some time)
    (hl : ∀ l, s.lastSample = some l → l.time < time) (hq : quatNorm (parsePose b).quat = 2 ^ 60)
    (hw : s.ing.waitingSamples.length < 4) :
    s.takePose b = { s with ing := { s.ing with
      samples := (s.ing.samples ++ [parsePose b]).filter (fun x => decide ((parsePose b).time ≤ x.time + 400000000))
      waitingSamples := s.ing.waitingSamples ++ [(s.ing.epoch, parsePose b)]
      epoch := (s.ing.epoch + 1) % 256
      gapRaised := false } } := by
  have htime : (parsePose b).time = time := congrArg (Option.getD · 0) ht
  have hlate : s.lastSample.any (fun x => decide (time ≤ x.time)) = false := by
    cases h : s.lastSample with
    | none => rfl
    | some l => simpa using hl l h
  unfold State.takePose
  dsimp only
  rw [hq, htime, hlate, ht, if_neg]
  · rw [if_pos rfl, htime]
  · simp only [Option.isNone_some, Bool.false_eq_true, false_or, not_or]
    exact ⟨by decide, by split <;> omega⟩

theorem getLast?_filter_last {α : Type} {f : α → Bool} (l : List α) {x : α} (h : f x = true) :
    ((l ++ [x]).filter f).getLast? = some x := by
  simp [List.filter_append, h]

/-- Settles O43: each command is its effect in a known branch, and the effect's rules read it. -/
theorem headsAndPosesFollowTheirRules : Obligations.HeadsAndPosesFollowTheirRules := by
  unfold Obligations.HeadsAndPosesFollowTheirRules
  intro p s
  refine ⟨fun n hs he hn => ?_, fun w ha => ⟨fun h0 c hc => ?_, fun h6 => execAccept_refuses ha h6⟩, ?_, fun n => ?_, ?_⟩
  · refine ⟨_, execHeadLossTimeout_lost hs he hn, ?_, fun q hq => ?_, State.raise_cells ..⟩
    · rw [State.head_raise, State.head_modHead]; rfl
    · rw [State.head_raise, State.head_modHead_other _ hq]; rfl
  · obtain ⟨⟨h1, h2, h3⟩, h4, h5, h6, h7⟩ := acceptEffect_accepts (s := s.at w.t) hc
    exact ⟨_, execAccept_accepts ha h0, h1, h2, rfl, h4, h5, h6, h7, h3⟩
  · rintro frame e hf h0 rfl hev hst he ha hz hb
    refine ⟨_, (execCalEvaluate_one hf h0).trans (next_congr (State.calOne_steps hev hst he ha hz hb)), State.num_setNum _ _ 0, ?_, ?_⟩
    · exact (State.num_setNum_other _ 0 (by unfold portOd od; omega)).trans (State.num_setNum s _ e.residual)
    · simp [State.setCalStatus]
  · refine ⟨_, rfl, rfl, fun k hk => ?_, fun k hk => ?_⟩
    · exact (get_foldl_put ..).trans (if_pos hk)
    · exact (get_foldl_put ..).trans (if_neg hk)
  · intro r x b time hp hr hx hh h6 hb hl ht hlast hq hw
    obtain ⟨u, hu, hi, hc, hn⟩ := execPose_takes hp hr hx hh h6 hb hl
    have h := State.takePose_newest (s := u) ht (by simpa only [State.lastSample, hi] using hlast) hq (by rw [hi]; exact hw)
    refine ⟨_, hu.trans (next_congr h), getLast?_filter_last _ (by simp), by rw [← hi], by rw [← hi], hc, hn⟩

end Sys2Proof.Machine
end

