-- ==== Sys2Proof/Proofs/FrameCounts.lean ====
section
/-! SUPPORT. The counts of the two frames in flight (R64, R114): the frame that a point counts in, and what judging a sweep (R64, R76,
R77, R115), the gap of poses (R70) and the run-ahead log (R71) leave of the points, the cells and their counts. -/

namespace Sys2Proof.Machine

variable {s t u : State}

/-- The frame that a point counts in (R64): the one computed for a point of the sweep that has ended, else the one in ingest. -/
def State.ctxOf (s : State) (prev : Bool) : FrameCtx := if prev then s.frame.comp else s.frame.ing

@[simp] theorem State.ctxOf_modPoint (s : State) (p : Bool) (f : FrameCtx → FrameCtx) : (s.modPoint p f).ctxOf p = f (s.ctxOf p) := by
  cases p <;> rfl

theorem State.ctxOf_of_frame (h : t.frame = s.frame) (r : Bool) : t.ctxOf r = s.ctxOf r := by rw [State.ctxOf, h]; rfl

/-- A part of the context that an update of one frame leaves stays in both. -/
theorem State.ctxOf_modPoint_keeps {α : Type} {f : FrameCtx → FrameCtx} (g : FrameCtx → α) (hf : ∀ c, g (f c) = g c) (s : State)
    (p r : Bool) : g ((s.modPoint p f).ctxOf r) = g (s.ctxOf r) := by
  cases p <;> cases r
  · exact hf _
  · rfl
  · rfl
  · exact hf _

@[simp] theorem State.modPoint_ing (s : State) (p : Bool) (f : FrameCtx → FrameCtx) : (s.modPoint p f).ing = s.ing := by cases p <;> rfl
@[simp] theorem State.modPoint_cells (s : State) (p : Bool) (f : FrameCtx → FrameCtx) : (s.modPoint p f).cells = s.cells := by
  cases p <;> rfl
@[simp] theorem State.modPoint_dict (s : State) (p : Bool) (f : FrameCtx → FrameCtx) : (s.modPoint p f).dict = s.dict := by
  cases p <;> rfl

/-- Cell counts that agree but for the stash peak. -/
def CellCount.Peaks (c d : CellCount) : Prop := d = { c with stashPeak := d.stashPeak }

theorem CellCount.Peaks.trans {a b c : CellCount} (h : a.Peaks b) (k : b.Peaks c) : a.Peaks c := by
  unfold CellCount.Peaks at *
  rw [k, h]

/-- A count other than the stash peak. -/
theorem CellCount.Peaks.count {c d : CellCount} (h : c.Peaks d) {α : Type} (f : CellCount → α)
    (hf : ∀ c n, f { c with stashPeak := n } = f c) :
    f d = f c := by
  unfold CellCount.Peaks at h
  rw [h, hf]

/-- What judging leaves of a frame: the counts but those of points not resolved, the cells' counts but the stash peak, and the causes
already there. -/
structure FrameCtx.Judged (c d : FrameCtx) : Prop where
  pts : d.pts = { c.pts with unresolved := d.pts.unresolved, unlogged := d.pts.unlogged }
  cells : c.cells.Peaks d.cells
  ingest : ∀ i, bitAt c.cIngest i = true → bitAt d.cIngest i = true
  table : ∀ i, bitAt c.cCells i = true → bitAt d.cCells i = true

namespace FrameCtx.Judged

theorem refl (c : FrameCtx) : c.Judged c := ⟨rfl, rfl, fun _ => id, fun _ => id⟩

theorem trans {a b c : FrameCtx} (h : a.Judged b) (k : b.Judged c) : a.Judged c where
  pts := by rw [k.pts, h.pts]
  cells := h.cells.trans k.cells
  ingest i hi := k.ingest i (h.ingest i hi)
  table i hi := k.table i (h.table i hi)

theorem cause (c : FrameCtx) (w : CauseWord) (i : Nat) : c.Judged (c.cause w i) := by
  have keep : ∀ {v j}, bitAt v j = true → bitAt (setBit v i) j = true := fun h => by rw [bitAt_setBit, h]; rfl
  cases w
  case ingest => exact ⟨rfl, rfl, fun _ => keep, fun _ => id⟩
  case cells => exact ⟨rfl, rfl, fun _ => id, fun _ => keep⟩
  all_goals exact ⟨rfl, rfl, fun _ => id, fun _ => id⟩

end FrameCtx.Judged

/-- The cause that a frame was just given stands in its word. -/
theorem bitAt_cause_ingest (c : FrameCtx) (i : Nat) : bitAt (c.cause .ingest i).cIngest i = true := by
  show bitAt (setBit c.cIngest i) i = true
  rw [bitAt_setBit, decide_eq_true rfl, Bool.or_true]

theorem bitAt_cause_cells (c : FrameCtx) (i : Nat) : bitAt (c.cause .cells i).cCells i = true := by
  show bitAt (setBit c.cCells i) i = true
  rw [bitAt_setBit, decide_eq_true rfl, Bool.or_true]

/-- What judging, the gap of poses and the run-ahead log leave of `s` in `t`: the points on their way, the cell table, the objects but the
count of events lost, and the frames as `FrameCtx.Judged` says. -/
structure Logs (s t : State) : Prop where
  ins : t.ing.ins = s.ing.ins
  comp : t.ing.comp = s.ing.comp
  withdraw : t.ing.withdraw = s.ing.withdraw
  reinsert : t.ing.reinsert = s.ing.reinsert
  cells : t.cells = s.cells
  obj : ∀ k, k ≠ od 0x7900 5 → t.obj k = s.obj k
  ctx : ∀ r, (s.ctxOf r).Judged (t.ctxOf r)

/-- What judging alone leaves: all that, the front end and the counts of points. -/
structure Judges (s t : State) : Prop extends Logs s t where
  ing : t.ing = s.ing
  pts : ∀ r, (t.ctxOf r).pts = (s.ctxOf r).pts

namespace Logs

theorem refl (s : State) : Logs s s := ⟨rfl, rfl, rfl, rfl, rfl, fun _ _ => rfl, fun _ => .refl _⟩

theorem trans (h : Logs s t) (k : Logs t u) : Logs s u where
  ins := k.ins.trans h.ins
  comp := k.comp.trans h.comp
  withdraw := k.withdraw.trans h.withdraw
  reinsert := k.reinsert.trans h.reinsert
  cells := k.cells.trans h.cells
  obj x hx := (k.obj x hx).trans (h.obj x hx)
  ctx r := (h.ctx r).trans (k.ctx r)

theorem inserted (h : Logs s t) (r : Bool) : (t.ctxOf r).pts.inserted = (s.ctxOf r).pts.inserted := by rw [(h.ctx r).pts]
theorem cellFull (h : Logs s t) (r : Bool) : (t.ctxOf r).pts.cellFull = (s.ctxOf r).pts.cellFull := by rw [(h.ctx r).pts]
theorem admitted (h : Logs s t) (r : Bool) : (t.ctxOf r).pts.admitted = (s.ctxOf r).pts.admitted := by rw [(h.ctx r).pts]

/-- The grids that a place lies in are those before (R89). -/
theorem gridsOf (h : Logs s t) (p : Int × Int × Int) : t.gridsOf p = s.gridsOf p := by
  unfold State.gridsOf
  refine List.filter_congr fun g hg => ?_
  have hg : g < 4 := List.mem_range.1 hg
  have hk : ∀ j, j < 256 → t.int (od (0x4010 + g) j) = s.int (od (0x4010 + g) j) := fun j hj =>
    congrArg OdVal.toInt (h.obj _ (by unfold od; omega))
  unfold State.inBox State.gridK State.flag State.num
  dsimp only
  rw [hk 1 (by decide), hk 2 (by decide), hk 3 (by decide), hk 4 (by decide), hk 5 (by decide), hk 6 (by decide), hk 7 (by decide),
    hk 8 (by decide)]

end Logs

namespace Judges

theorem refl (s : State) : Judges s s := ⟨.refl s, rfl, fun _ => rfl⟩

theorem trans (h : Judges s t) (k : Judges t u) : Judges s u :=
  ⟨h.toLogs.trans k.toLogs, k.ing.trans h.ing, fun r => (k.pts r).trans (h.pts r)⟩

theorem ite {c : Prop} [Decidable c] (h : Judges s t) (k : Judges s u) : Judges s (if c then t else u) := ite_keep (P := Judges s) h k

/-- An update of the frames alone. -/
theorem frames (hi : t.ing = s.ing) (hc : t.cells = s.cells) (ho : ∀ k, k ≠ od 0x7900 5 → t.obj k = s.obj k)
    (hp : ∀ r, (t.ctxOf r).pts = (s.ctxOf r).pts) (hj : ∀ r, (s.ctxOf r).Judged (t.ctxOf r)) : Judges s t :=
  ⟨⟨by rw [hi], by rw [hi], by rw [hi], by rw [hi], hc, ho, hj⟩, hi, hp⟩

theorem modPoint (h : Judges s t) {p : Bool} {f : FrameCtx → FrameCtx} (hp : ∀ c, (f c).pts = c.pts)
    (hj : ∀ c : FrameCtx, c.Judged (f c)) :
    Judges s (t.modPoint p f) := by
  refine h.trans (frames (State.modPoint_ing ..) (State.modPoint_cells ..) (fun k _ => State.obj_congr (State.modPoint_dict ..) k)
    (fun r => State.ctxOf_modPoint_keeps FrameCtx.pts hp ..) fun r => ?_)
  cases p <;> cases r
  · exact hj _
  · exact .refl _
  · exact .refl _
  · exact hj _

theorem cause (h : Judges s t) {p : Bool} {w : CauseWord} {i : Nat} : Judges s (t.modPoint p (fun c => c.cause w i)) :=
  h.modPoint (fun c => by cases w <;> rfl) fun c => .cause c w i

theorem raise (h : Judges s t) {c i v : Nat} {b : Bool} : Judges s (t.raise c i v b) :=
  have hf := State.ctxOf_of_frame (State.raise_frame t c i v b)
  h.trans (frames (State.raise_ing ..) (State.raise_cells ..) (fun _ hk => State.obj_raise t c i v b hk)
    (fun r => congrArg FrameCtx.pts (hf r)) fun r => (hf r).symm ▸ .refl _)

theorem once (h : Judges s t) (p : Bool) (l : FrameCtx → List (Nat × Nat)) : Judges s (t.modPoint p (fun c => { c with once := l c })) :=
  h.modPoint (fun _ => rfl) fun _ => ⟨rfl, rfl, fun _ => id, fun _ => id⟩

theorem raiseIng (h : Judges s t) {c i v : Nat} {b : Bool} : Judges s (t.raiseIng c i v b) := by
  unfold State.raiseIng
  exact h.ite (h.raise.once false fun x => (c, i) :: x.once)

theorem raiseComp (h : Judges s t) {c i v : Nat} {b : Bool} : Judges s (t.raiseComp c i v b) := by
  unfold State.raiseComp
  exact h.ite (h.raise.once true fun x => (c, i) :: x.once)

theorem noteStash (h : Judges s t) : Judges s t.noteStash := by
  unfold State.noteStash
  extract_lets n s1
  have h1 : Judges s s1 := h.modPoint (fun _ => rfl) fun _ => ⟨rfl, rfl, fun _ => id, fun _ => id⟩
  exact h1.raiseIng.ite h1

theorem judgeShares (h : Judges s t) {p : Bool} : Judges s (t.judgeShares p) := by
  unfold State.judgeShares
  extract_lets ctx c one share
  have h1 : ∀ v m b k, Judges s v → Judges s (one v m b k) := fun v m b k hv => ite (ite hv.cause.raiseComp hv.cause.raiseIng) hv
  exact h1 _ _ _ _ (h1 _ _ _ _ h)

theorem judgeAgain (h : Judges s t) {p : Bool} : Judges s (t.judgeAgain p) := h.judgeShares.ite h

end Judges

namespace Logs

/-- A change of the front end that leaves the points on their way. -/
theorem setIng (h : Logs s t) {i : Ingest} (h1 : i.ins = t.ing.ins) (h2 : i.comp = t.ing.comp) (h3 : i.withdraw = t.ing.withdraw)
    (h4 : i.reinsert = t.ing.reinsert) : Logs s { t with ing := i } :=
  h.trans ⟨h1, h2, h3, h4, rfl, fun _ _ => rfl, fun _ => .refl _⟩

theorem modPts (h : Logs s t) {p : Bool} {f : SweepCount → SweepCount}
    (hf : ∀ c, f c = { c with unresolved := (f c).unresolved, unlogged := (f c).unlogged }) : Logs s (t.modPts p f) := by
  refine h.trans ?_
  cases p
  · exact ⟨rfl, rfl, rfl, rfl, rfl, fun _ _ => rfl, fun r => by cases r; exacts [⟨hf _, rfl, fun _ => id, fun _ => id⟩, .refl _]⟩
  · exact ⟨rfl, rfl, rfl, rfl, rfl, fun _ _ => rfl, fun r => by cases r; exacts [.refl _, ⟨hf _, rfl, fun _ => id, fun _ => id⟩]⟩

theorem logPoint (h : Logs s t) {p : Point} : Logs s (t.logPoint p) := by
  unfold State.logPoint
  exact ite_keep (P := Logs s) (h.modPts fun _ => rfl) (ite_keep (P := Logs s) (h.modPts fun _ => rfl) (h.setIng rfl rfl rfl rfl))

theorem judgeAgain (h : Logs s t) {p : Bool} : Logs s (t.judgeAgain p) := h.trans (Judges.refl t).judgeAgain.toLogs

theorem poseGap_caused (s : State) (p r : Bool) : Logs (s.modPoint p (fun c => c.cause .ingest 4)) (s.poseGap p r) := by
  unfold State.poseGap
  extract_lets s1
  have raised : ∀ {v : State}, Logs s1 v → Logs s1 (v.raise 0x3013) := fun h => h.trans (Judges.refl _).raise.toLogs
  exact ite_keep (P := Logs s1) (ite_keep (P := Logs s1) (.refl s1) (raised ((Logs.refl s1).setIng rfl rfl rfl rfl)))
    (ite_keep (P := Logs s1) (.refl s1) (raised ((Logs.refl s1).setIng rfl rfl rfl rfl)))

theorem poseGap (h : Logs s t) {p r : Bool} : Logs s (t.poseGap p r) := h.trans ((Judges.refl t).cause.toLogs.trans (poseGap_caused t p r))

end Logs

/-- A gap of poses gives the point's frame its cause (R70). -/
theorem State.poseGap_bit (s : State) (p r : Bool) : bitAt ((s.poseGap p r).ctxOf p).cIngest 4 = true :=
  ((Logs.poseGap_caused s p r).ctx p).ingest 4 (by rw [State.ctxOf_modPoint]; exact bitAt_cause_ingest _ 4)

end Sys2Proof.Machine
end

