-- ==== Sys2Proof/Proofs/CellInsert.lean ====
section
/-! SUPPORT. A point at the cell table (R93-R98): what an insertion makes of the table and of the counts of its frame, and what the point
leaves when it has met all its grids (R73, R80, R89). -/

namespace Sys2Proof.Machine

variable {s t u : State} {p : Point} {g tag : Nat}

/-! The table. -/

theorem CellTable.at_put (m : CellTable) (a : Nat) (e : Option Entry) (x : Nat) : (m.put a e).at x = if x = a then e else m.at x :=
  Sparse.get_put ..

theorem CellTable.at_create (m : CellTable) (b a : Nat) (e : Entry) (x : Nat) :
    (m.create b a e).at x = if x = a then some e else m.at x := by
  unfold CellTable.create
  dsimp only
  split <;> exact CellTable.at_put m a (some e) x

theorem CellTable.at_free (m : CellTable) (b a x : Nat) : (m.free b a).at x = if x = a then none else m.at x := by
  unfold CellTable.free
  dsimp only
  split <;> exact CellTable.at_put m a none x

/-! An insertion (R96, R98). -/

/-- The state with another table and other cell counts in the frame of a point. -/
def State.tabled (s : State) (m : CellTable) (prev : Bool) (f : CellCount → CellCount) : State := { s with cells := m }.modCells prev f

@[simp] theorem State.tabled_ing (s : State) (m : CellTable) (r : Bool) (f : CellCount → CellCount) : (s.tabled m r f).ing = s.ing :=
  State.modPoint_ing ..
@[simp] theorem State.tabled_cells (s : State) (m : CellTable) (r : Bool) (f : CellCount → CellCount) : (s.tabled m r f).cells = m :=
  State.modPoint_cells ..
theorem State.tabled_pts (s : State) (m : CellTable) (r : Bool) (f : CellCount → CellCount) (a : Bool) :
    ((s.tabled m r f).ctxOf a).pts = (s.ctxOf a).pts :=
  State.ctxOf_modPoint_keeps (f := fun c => { c with cells := f c.cells }) FrameCtx.pts (fun _ => rfl) { s with cells := m } r a
theorem State.tabled_counts (s : State) (m : CellTable) (r : Bool) (f : CellCount → CellCount) :
    ((s.tabled m r f).ctxOf r).cells = f (s.ctxOf r).cells :=
  congrArg FrameCtx.cells (State.ctxOf_modPoint { s with cells := m } r _)

/-- The bucket in which a point's entry stands. -/
abbrev State.pointBucket (s : State) (g tag : Nat) (p : Point) : Nat := s.bucket (s.pointKey g tag p.xyz)

/-- The entry that a point alone makes. -/
abbrev State.pointEntry (s : State) (g tag : Nat) (p : Point) : Entry := p.entry (s.gridK g) (s.pointKey g tag p.xyz) tag

/-- The case that the insertion of a point meets. -/
abbrev State.pointCase (s : State) (g tag : Nat) (p : Point) : InsertResult × Nat :=
  s.cells.insertCase (s.pointBucket g tag p) (s.pointKey g tag p.xyz) tag

/-- What an insertion comes to: a table, counts, and what is judged with them. -/
def State.Inserts (s : State) (p : Point) (g tag : Nat) (m : CellTable) (f : CellCount → CellCount) (ok : Bool) : Prop :=
  (s.insertPoint p g tag).2 = ok ∧ Judges (s.tabled m p.prev f) (s.insertPoint p g tag).1

theorem State.inserts_created {pl : Nat} (h : s.pointCase g tag p = (.created, pl)) :
    s.Inserts p g tag (s.cells.create (s.pointBucket g tag p) pl (s.pointEntry g tag p)) (fun x => { x with created := x.created + 1 })
      true := by
  unfold State.Inserts State.insertPoint
  simp only [h]
  exact ⟨trivial, (Judges.refl _).noteStash⟩

theorem State.inserts_aggregated {pl : Nat} {e : Entry} (h : s.pointCase g tag p = (.aggregated, pl)) (he : s.cells.live pl = some e) :
    s.Inserts p g tag (s.cells.put pl (some (e.addPoint (s.pointEntry g tag p)))) (fun x => { x with aggregated := x.aggregated + 1 })
      true := by
  unfold State.Inserts State.insertPoint
  simp only [h, he]
  exact ⟨trivial, Judges.refl _⟩

theorem State.inserts_saturated {pl : Nat} (h : s.pointCase g tag p = (.saturated, pl)) :
    s.Inserts p g tag s.cells (fun x => { x with saturated := x.saturated + 1 }) true := by
  unfold State.Inserts State.insertPoint
  simp only [h]
  exact ⟨trivial, Judges.refl _⟩

theorem State.inserts_bucketFull {pl : Nat} (h : s.pointCase g tag p = (.bucketFull, pl)) :
    s.Inserts p g tag s.cells (fun x => { x with refusedBucket := x.refusedBucket + 1 }) false := by
  unfold State.Inserts State.insertPoint
  simp only [h]
  exact ⟨trivial, (Judges.refl _).raiseIng⟩

theorem State.inserts_limit {pl : Nat} (h : s.pointCase g tag p = (.limit, pl)) :
    s.Inserts p g tag s.cells (fun x => { x with refusedLimit := x.refusedLimit + 1 }) false := by
  unfold State.Inserts State.insertPoint
  simp only [h]
  exact ⟨trivial, (Judges.refl _).raiseIng⟩

/-- Whatever an insertion comes to, the front end and the counts of points are as before. -/
theorem State.insertPoint_front (s : State) (p : Point) (g tag : Nat) :
    (s.insertPoint p g tag).1.ing = s.ing ∧ ∀ r, ((s.insertPoint p g tag).1.ctxOf r).pts = (s.ctxOf r).pts := by
  have front : ∀ {t m f}, Judges (s.tabled m p.prev f) t → t.ing = s.ing ∧ ∀ r, (t.ctxOf r).pts = (s.ctxOf r).pts := fun h =>
    ⟨h.ing.trans (State.tabled_ing ..), fun r => (h.pts r).trans (State.tabled_pts ..)⟩
  unfold State.insertPoint
  extract_lets key b c
  split
  · exact front (f := fun x => { x with aggregated := x.aggregated + 1 }) (.refl _)
  · exact front (m := s.cells) (f := fun x => { x with saturated := x.saturated + 1 }) (.refl _)
  · exact front (f := fun x => { x with created := x.created + 1 }) (Judges.refl _).noteStash
  · exact front (m := s.cells) (f := fun x => { x with refusedBucket := x.refusedBucket + 1 }) (Judges.refl _).raiseIng
  · exact front (m := s.cells) (f := fun x => { x with refusedLimit := x.refusedLimit + 1 }) (Judges.refl _).raiseIng

/-! A point that has met all its grids. -/

@[simp] theorem State.cellFull_ing (s : State) (r : Bool) : (s.cellFull r).ing = s.ing :=
  (State.modPoint_ing ..).trans (State.modPoint_ing ..)
@[simp] theorem State.cellFull_cells (s : State) (r : Bool) : (s.cellFull r).cells = s.cells :=
  (State.modPoint_cells ..).trans (State.modPoint_cells ..)
theorem State.cellFull_pts (s : State) (r : Bool) :
    ((s.cellFull r).ctxOf r).pts = { (s.ctxOf r).pts with cellFull := (s.ctxOf r).pts.cellFull + 1 } := by
  unfold State.cellFull State.modPts
  rw [State.ctxOf_modPoint, State.ctxOf_modPoint]
  rfl
theorem State.cellFull_counts (s : State) (r : Bool) : ((s.cellFull r).ctxOf r).cells = (s.ctxOf r).cells := by
  unfold State.cellFull State.modPts
  rw [State.ctxOf_modPoint, State.ctxOf_modPoint]
  rfl

/-- A point that has met all its grids is counted: in CELL_FULL where some grid refused it, as inserted where some grid took it. -/
def State.meets (s : State) (p : Point) : State :=
  let s1 := if p.refused then s.cellFull p.prev else s
  if p.took.isEmpty then s1 else s1.modPts p.prev (fun c => { c with inserted := c.inserted + 1 })

theorem State.finishPoint_logs (s : State) (p : Point) : Logs (s.meets p) (s.finishPoint p) := by
  unfold State.finishPoint State.meets
  dsimp only
  split
  · exact .refl _
  · exact (ite_keep (P := Logs _) (Logs.refl _).logPoint (.refl _)).judgeAgain

theorem State.meets_ing (s : State) (p : Point) : (s.meets p).ing = s.ing := by
  unfold State.meets State.modPts
  split <;> split <;> simp

theorem State.meets_cells (s : State) (p : Point) : (s.meets p).cells = s.cells := by
  unfold State.meets State.modPts
  split <;> split <;> simp

theorem State.meets_counts (s : State) (p : Point) : ((s.meets p).ctxOf p.prev).cells = (s.ctxOf p.prev).cells := by
  unfold State.meets State.modPts
  split <;> split <;> simp [State.cellFull_counts]

theorem State.meets_inserted (s : State) (p : Point) :
    ((s.meets p).ctxOf p.prev).pts.inserted = (s.ctxOf p.prev).pts.inserted + if p.took = [] then 0 else 1 := by
  unfold State.meets State.modPts
  split <;> split <;> simp_all [State.cellFull_pts]

theorem State.meets_cellFull (s : State) (p : Point) :
    ((s.meets p).ctxOf p.prev).pts.cellFull = (s.ctxOf p.prev).pts.cellFull + if p.refused = true then 1 else 0 := by
  unfold State.meets State.modPts
  split <;> split <;> simp_all [State.cellFull_pts]

/-! CELL_INSERT. -/

/-- The point after one more of its grids. -/
def Point.met (p : Point) (g : Nat) (gs : List Nat) (ok : Bool) : Point :=
  { p with grids := gs, took := if ok then p.took ++ [g] else p.took, refused := p.refused || !ok }

/-- What CELL_INSERT leaves of the point and its counts. -/
def State.afterGrid (s t : State) (p : Point) (rest : List Point) (g : Nat) (gs : List Nat) (ok : Bool) : Prop :=
  t.ing.ins = (if gs = [] then rest else p.met g gs ok :: rest) ∧
    (t.ctxOf p.prev).pts.inserted = (s.ctxOf p.prev).pts.inserted + (if gs = [] ∧ (ok = true ∨ p.took ≠ []) then 1 else 0) ∧
    (t.ctxOf p.prev).pts.cellFull = (s.ctxOf p.prev).pts.cellFull + (if gs = [] ∧ (ok = false ∨ p.refused = true) then 1 else 0)

theorem execCellInsert_counts {rest : List Point} {gs : List Nat} {m : CellTable} {f : CellCount → CellCount} {ok : Bool} (hr : s.runs)
    (hi : s.ing.ins = p :: rest) (hg : p.grids = g :: gs) (h : s.Inserts p g (s.sweepTag p.prev) m f ok) :
    ∃ t, execCellInsert s = .next t ∧ t.cells = m ∧ s.afterGrid t p rest g gs ok ∧
      (f (s.ctxOf p.prev).cells).Peaks (t.ctxOf p.prev).cells := by
  obtain ⟨hok, hj⟩ := h
  generalize hu : s.insertPoint p g (s.sweepTag p.prev) = x at hok hj
  obtain ⟨u, ok⟩ := x
  subst hok
  have hc : u.cells = m := hj.cells.trans (State.tabled_cells ..)
  have hp : (u.ctxOf p.prev).pts = (s.ctxOf p.prev).pts := (hj.pts _).trans (State.tabled_pts ..)
  have hn : (f (s.ctxOf p.prev).cells).Peaks (u.ctxOf p.prev).cells := State.tabled_counts s m p.prev f ▸ (hj.ctx p.prev).cells
  cases gs with
  | nil =>
    let v : State := { u with ing := { u.ing with ins := rest } }
    have hl := State.finishPoint_logs v (p.met g [] ok)
    refine ⟨v.finishPoint (p.met g [] ok), ?_, ?_, ⟨?_, ?_, ?_⟩, ?_⟩
    · refine next_congr ((State.clocked_runs hr _).trans ?_)
      simp only [hi, hg, hu]
      rfl
    · rw [hl.cells, State.meets_cells]; exact hc
    · rw [hl.ins, State.meets_ing]; rfl
    · rw [hl.inserted]
      refine (State.meets_inserted v _).trans ?_
      rw [show (v.ctxOf (p.met g [] ok).prev).pts = (s.ctxOf p.prev).pts from hp]
      cases ok <;> simp [Point.met]
    · rw [hl.cellFull]
      refine (State.meets_cellFull v _).trans ?_
      rw [show (v.ctxOf (p.met g [] ok).prev).pts = (s.ctxOf p.prev).pts from hp]
      cases ok <;> simp [Point.met]
    · have hv : ((v.meets (p.met g [] ok)).ctxOf p.prev).cells = (u.ctxOf p.prev).cells := State.meets_counts v (p.met g [] ok)
      exact (hv ▸ hn).trans (hl.ctx p.prev).cells
  | cons g' gs =>
    refine ⟨{ u with ing := { u.ing with ins := p.met g (g' :: gs) ok :: rest } }, ?_, hc, ⟨rfl, ?_, ?_⟩, hn⟩
    · refine next_congr ((State.clocked_runs hr _).trans ?_)
      simp only [hi, hg, hu]
      rfl
    · exact congrArg SweepCount.inserted hp
    · exact congrArg SweepCount.cellFull hp

end Sys2Proof.Machine
end

