-- ==== Sys2Proof/Proofs/Compensation.lean ====
section
/-! SUPPORT. Motion compensation (R63-R72, R78, R79): the record in which a compensated point goes on, and each way that the front
emitted point can take. -/

namespace Sys2Proof.Machine

variable {s : State}

/-! The 16-byte record (R15). -/

theorem leNat_natLe (n v : Nat) : leNat (natLe n v) = v % 256 ^ n := by
  induction n generalizing v with
  | zero => simp [natLe, leNat, Nat.mod_one]
  | succ n ih => rw [natLe, leNat, ih, BitVec.toNat_ofNat, show 256 ^ (n + 1) = 256 * 256 ^ n from Nat.pow_succ', Nat.mod_mul]

theorem unsignedOf_lt (i : Int) : unsignedOf 24 i < 256 ^ 3 := by
  unfold unsignedOf
  omega

/-- A coordinate within the record's range survives its three bytes. -/
theorem signedOf_unsignedOf {i : Int} (h : -coordMax ≤ i ∧ i ≤ coordMax) : signedOf 24 (unsignedOf 24 i) = i := by
  unfold coordMax at h
  unfold signedOf unsignedOf
  dsimp only
  split <;> omega

theorem coord_of_record {i : Int} (h : -coordMax ≤ i ∧ i ≤ coordMax) : signedOf 24 (leNat (natLe 3 (unsignedOf 24 i))) = i := by
  rw [leNat_natLe, Nat.mod_eq_of_lt (unsignedOf_lt i), signedOf_unsignedOf h]

theorem clampI_coordMax (v : Int) : -coordMax ≤ clampI (-coordMax) coordMax v ∧ clampI (-coordMax) coordMax v ≤ coordMax := by
  unfold clampI coordMax
  split
  · omega
  · split <;> omega

/-- Coordinates that were saturated stand in the record as they are. -/
theorem Point.ofRecord_xyz (p : Point) {c : List Int} (h : p.xyz = satCoords c) : (p.ofRecord p.record).xyz = satCoords c := by
  have hx : (p.ofRecord p.record).xyz = (signedOf 24 (leNat (natLe 3 (unsignedOf 24 p.xyz.1))),
    signedOf 24 (leNat (natLe 3 (unsignedOf 24 p.xyz.2.1))), signedOf 24 (leNat (natLe 3 (unsignedOf 24 p.xyz.2.2)))) := rfl
  rw [hx, h]
  unfold satCoords
  rw [coord_of_record (clampI_coordMax _), coord_of_record (clampI_coordMax _), coord_of_record (clampI_coordMax _)]

/-- The source byte of a record: port, return, EXTRAP and SAT. -/
theorem Point.ofRecord_flags (p : Point) : (p.ofRecord p.record).extrap = p.extrap ∧ (p.ofRecord p.record).sat = p.sat := by
  have he : (p.ofRecord p.record).extrap = bitAt (leNat (natLe 1 (p.port % 16 + 16 * (p.ret % 4) + (if p.extrap then 64 else 0) +
    (if p.sat then 128 else 0)))) 6 := rfl
  have hs : (p.ofRecord p.record).sat = bitAt (leNat (natLe 1 (p.port % 16 + 16 * (p.ret % 4) + (if p.extrap then 64 else 0) +
    (if p.sat then 128 else 0)))) 7 := rfl
  rw [he, hs, leNat_natLe]
  cases p.extrap <;> cases p.sat <;> simp [bitAt] <;> omega

/-- What a point's compensation under the rest model gives (R70). -/
theorem State.compensatePoint_rest {ctx : FrameCtx} {p : Point} {c : List Int} (h : ctx.rest = true)
    (hc : c = [p.raw.1, p.raw.2.1, p.raw.2.2].map toRecord) :
    (s.compensatePoint ctx p).1.xyz = satCoords c ∧ (s.compensatePoint ctx p).1.sat = outOfRange c ∧
      (s.compensatePoint ctx p).1.extrap = true ∧ (s.compensatePoint ctx p).1.log = false ∧ (s.compensatePoint ctx p).2 = true := by
  subst hc
  unfold State.compensatePoint
  rw [if_pos h]
  exact ⟨Point.ofRecord_xyz _ rfl, (Point.ofRecord_flags _).2, (Point.ofRecord_flags _).1, rfl, rfl⟩

/-- What a point's compensation under a track of poses gives (R68, R69, R71). -/
theorem State.compensatePoint_track {ctx : FrameCtx} {p : Point} {l f : PoseSample} {pt : Pose} {c : List Int} (h : ctx.rest = false)
    (hl : s.lastSample = some l) (hf : s.ing.samples.head? = some f)
    (hp : poseAt (s.numFor p.prev (od 0x3000 1)) s.ing.samples p.time = some pt)
    (hc : c = compensated ctx.pref pt p.raw (poseHeld s.ing.samples p.time ctx.end_)) :
    (s.compensatePoint ctx p).1.xyz = satCoords c ∧ (s.compensatePoint ctx p).1.sat = outOfRange c ∧
      (s.compensatePoint ctx p).1.extrap = (decide ((l.time : Int) < p.time) || decide (p.time < f.time)) ∧
      (s.compensatePoint ctx p).1.log = decide ((l.time : Int) < p.time) ∧ (s.compensatePoint ctx p).1.epoch = s.ing.epoch ∧
      (s.compensatePoint ctx p).2 = decide ((l.time : Int) + 1000 * s.numFor p.prev (od 0x3000 2) < p.time) := by
  subst hc
  unfold State.compensatePoint
  simp only [h, hl, hf, hp]
  exact ⟨Point.ofRecord_xyz _ rfl, (Point.ofRecord_flags _).2, (Point.ofRecord_flags _).1, rfl, rfl, rfl⟩

/-! Counts of points. -/

@[simp] theorem State.modPts_ing (s : State) (r : Bool) (f : SweepCount → SweepCount) : (s.modPts r f).ing = s.ing :=
  State.modPoint_ing ..
theorem State.modPts_pts (s : State) (r : Bool) (f : SweepCount → SweepCount) : ((s.modPts r f).ctxOf r).pts = f (s.ctxOf r).pts :=
  congrArg FrameCtx.pts (State.ctxOf_modPoint s r _)
theorem State.modPts_counts (s : State) (r : Bool) (f : SweepCount → SweepCount) (a : Bool) :
    ((s.modPts r f).ctxOf a).cells = (s.ctxOf a).cells :=
  State.ctxOf_modPoint_keeps (f := fun c => { c with pts := f c.pts }) FrameCtx.cells (fun _ => rfl) s r a

/-- What motion compensation reads besides the point: the pose samples, their epoch and the objects. -/
theorem State.compensatePoint_congr {t : State} (hi : t.ing.samples = s.ing.samples) (he : t.ing.epoch = s.ing.epoch) (hd : t.dict = s.dict)
    (ctx : FrameCtx) (p : Point) : t.compensatePoint ctx p = s.compensatePoint ctx p := by
  have hn : ∀ r k, t.numFor r k = s.numFor r k := fun r k => by
    simp only [State.numFor, State.numC, State.objC, State.num, State.int, State.obj, hd]
  simp only [State.compensatePoint, State.lastSample, hi, he, hn]

/-! POINT_COMPENSATE: the ways of the front emitted point. -/

/-- The front point has left the pipeline. -/
def State.tookPoint (s : State) (rest : List Point) : State := { s with ing := { s.ing with comp := rest } }

/-- The point belongs to the sweep that has ended (R64). -/
def State.ofEnded (s : State) (p : Point) : Bool :=
  p.prev && decide (p.time < s.frame.ing.start) && decide ((s.frame.comp.start : Int) ≤ p.time) && !s.books.scanned

/-- The state in which an admitted point is compensated. -/
def State.admits (s : State) (prev : Bool) (rest : List Point) : State :=
  (s.tookPoint rest).modPts prev (fun c => { c with admitted := c.admitted + 1 })

theorem State.admits_compensates (s : State) (r : Bool) (rest : List Point) (ctx : FrameCtx) (p : Point) :
    (s.admits r rest).compensatePoint ctx p = s.compensatePoint ctx p := by
  have h : (s.admits r rest).ing = (s.tookPoint rest).ing := State.modPts_ing ..
  exact State.compensatePoint_congr (congrArg Ingest.samples h) (congrArg Ingest.epoch h) (State.modPoint_dict ..) ctx p

/-- A compensated point goes on: to port A for the grids it enters, or counted as OUTSIDE. -/
def State.sends (s : State) (prev : Bool) (q : Point) : State :=
  if (s.gridsOf q.xyz).isEmpty then
    let s1 := s.modCells prev (fun c => { c with outside := c.outside + 1 })
    if q.log then (s1.logPoint q).judgeAgain prev else s1
  else { s with ing := { s.ing with ins := s.ing.ins ++ [{ q with grids := s.gridsOf q.xyz }] } }

/-- An admitted point under its compensation (R70). -/
def State.moves (s : State) (prev : Bool) (rest : List Point) (x : Point × Bool) : State :=
  (if x.2 then (s.admits prev rest).poseGap prev (s.ctxOf prev).rest else s.admits prev rest).sends prev x.1

/-- The front emitted point of a sweep is FUTURE, LATE, beyond its BUDGET, or admitted (R64, R79). -/
def State.places (s : State) (p : Point) (rest : List Point) (wasPrev : Bool) : State :=
  let ctx := s.ctxOf p.prev
  if (s.frame.ing.end_ : Int) ≤ p.time then (s.tookPoint rest).modPts wasPrev (fun c => { c with future := c.future + 1 })
  else if p.time < (ctx.start : Int) then
    ((s.tookPoint rest).modPts wasPrev (fun c => { c with late := c.late + 1 })).judgeAgain wasPrev
  else if s.budget p.prev (s.priority p) ≤ ctx.pts.admitted then
    ((s.tookPoint rest).modPts p.prev (fun c => { c with budget := c.budget + 1 })).modPoint p.prev (fun c => c.cause .ingest 1)
  else s.moves p.prev rest ((s.admits p.prev rest).compensatePoint ctx { p with offset := ((p.time - ctx.start) / 1000).toNat % 2 ^ 24 })

/-- POINT_COMPENSATE while port A is free. -/
theorem execPointCompensate_front {p0 : Point} {rest : List Point} (hr : s.runs) (hi : s.ing.ins = []) (hc : s.ing.comp = p0 :: rest) :
    execPointCompensate s = .next (if !p0.insert || !s.frame.run then s.tookPoint rest
      else s.places { p0 with prev := s.ofEnded p0 } rest p0.prev) := by
  refine next_congr ((State.clocked_runs hr _).trans ?_)
  dsimp only
  split
  next h => rw [hi] at h; cases h
  next h => rw [hc] at h; cases h
  next h =>
    rw [hc] at h
    cases h
    rfl

theorem State.sends_inside {prev : Bool} {q : Point} (h : s.gridsOf q.xyz ≠ []) :
    s.sends prev q = { s with ing := { s.ing with ins := s.ing.ins ++ [{ q with grids := s.gridsOf q.xyz }] } } :=
  if_neg (by simpa using h)

theorem State.sends_outside {prev : Bool} {q : Point} (h : s.gridsOf q.xyz = []) :
    Logs (s.modCells prev (fun c => { c with outside := c.outside + 1 })) (s.sends prev q) := by
  unfold State.sends
  rw [if_pos (by rw [h]; rfl)]
  exact ite_keep (P := Logs _) (Logs.refl _).logPoint.judgeAgain (.refl _)

@[simp] theorem State.modCells_ing (s : State) (r : Bool) (f : CellCount → CellCount) : (s.modCells r f).ing = s.ing :=
  State.modPoint_ing ..
theorem State.modCells_ctxOf (s : State) (r : Bool) (f : CellCount → CellCount) :
    (s.modCells r f).ctxOf r = { s.ctxOf r with cells := f (s.ctxOf r).cells } := State.ctxOf_modPoint ..

/-- What a point that goes on leaves: the pipeline, the count of admitted points and the causes there were. -/
theorem State.sends_leaves (s : State) (prev : Bool) (q : Point) : (s.sends prev q).ing.comp = s.ing.comp ∧
    ((s.sends prev q).ctxOf prev).pts.admitted = (s.ctxOf prev).pts.admitted ∧
    ∀ i, bitAt (s.ctxOf prev).cIngest i = true → bitAt ((s.sends prev q).ctxOf prev).cIngest i = true := by
  by_cases h : s.gridsOf q.xyz = []
  · have hl := State.sends_outside (prev := prev) h
    refine ⟨by rw [hl.comp, State.modCells_ing], by rw [hl.admitted, State.modCells_ctxOf], fun i hi => (hl.ctx prev).ingest i ?_⟩
    rw [State.modCells_ctxOf]
    exact hi
  · rw [State.sends_inside h]
    exact ⟨rfl, rfl, fun _ => id⟩

/-- The state in which a compensated point goes on. -/
theorem State.moves_from (s : State) (prev : Bool) (rest : List Point) (x : Point × Bool) :
    ∃ u, s.moves prev rest x = u.sends prev x.1 ∧ Logs (s.admits prev rest) u ∧
      (x.2 = true → bitAt (u.ctxOf prev).cIngest 4 = true) := by
  refine ⟨_, rfl, ?_, fun h => ?_⟩
  · exact ite_keep (P := Logs _) (Logs.refl _).poseGap (.refl _)
  · rw [if_pos h]
    exact State.poseGap_bit ..

/-- What an admitted point comes to (R63, R70, R89). -/
theorem State.moves_admitted {prev : Bool} {rest : List Point} {x : Point × Bool} (hi : s.ing.ins = []) :
    (s.moves prev rest x).ing.comp = rest ∧ ((s.moves prev rest x).ctxOf prev).pts.admitted = (s.ctxOf prev).pts.admitted + 1 ∧
      (x.2 = true → bitAt ((s.moves prev rest x).ctxOf prev).cIngest 4 = true) ∧
      (s.gridsOf x.1.xyz ≠ [] → (s.moves prev rest x).ing.ins = [{ x.1 with grids := s.gridsOf x.1.xyz }]) ∧
      (s.gridsOf x.1.xyz = [] → (s.moves prev rest x).ing.ins = [] ∧
        ((s.moves prev rest x).ctxOf prev).cells.outside = (s.ctxOf prev).cells.outside + 1) := by
  obtain ⟨u, he, hl, hb⟩ := s.moves_from prev rest x
  rw [he]
  have ha : (s.admits prev rest).ing = (s.tookPoint rest).ing := State.modPts_ing ..
  have hg : u.gridsOf x.1.xyz = s.gridsOf x.1.xyz := (hl.gridsOf _).trans (by cases prev <;> rfl)
  have hins : u.ing.ins = [] := hl.ins.trans ((congrArg Ingest.ins ha).trans hi)
  obtain ⟨h1, h2, h3⟩ := u.sends_leaves prev x.1
  refine ⟨h1.trans (hl.comp.trans (congrArg Ingest.comp ha)), ?_, fun h => h3 4 (hb h), fun h => ?_, fun h => ?_⟩
  · rw [h2, hl.admitted, State.admits, State.modPts_pts]
    rfl
  · rw [State.sends_inside (hg ▸ h), hins, hg]
    rfl
  · have ho := State.sends_outside (prev := prev) (hg.trans h)
    refine ⟨by rw [ho.ins, State.modCells_ing, hins], ?_⟩
    rw [(ho.ctx prev).cells.count CellCount.outside fun _ _ => rfl, State.modCells_ctxOf]
    refine congrArg (· + 1) (((hl.ctx prev).cells.count CellCount.outside fun _ _ => rfl).trans ?_)
    rw [State.admits, State.modPts_counts]
    rfl

end Sys2Proof.Machine
end

