-- ==== Sys2Proof/Proofs/PointPath.lean ====
section
/-! THEOREMS. From the queue to the cell table (R55, R63, R64, R68-R70, R78-R80, R84, R96, R98, R261): O42. -/

namespace Sys2Proof.Machine

variable {s t : State}

/-! The next packet of a port (R84, R262). -/

theorem State.nextPacket_engine (s : State) (p : Fin 8) (ecc : QueueEcc) (e : Fin 16) : (s.nextPacket p ecc).1.engine e = s.engine e := by
  unfold State.nextPacket
  dsimp only
  split
  · rfl
  · exact (Queueing.refl s).qPop.engine e

/-- A packet that waits in the port's queue is the next one. -/
theorem State.nextPacket_queued {p : Fin 8} {q : Fin 24} {k : QPacket} {rest : List QPacket} (hq : q = Fin.castLE (by decide) p)
    (h : (s.q[q]).pkts = k :: rest) :
    (s.nextPacket p .clean).2 = some ((sensPayload k.data).getD [], k.stamp) ∧ (((s.nextPacket p .clean).1).q[q]).pkts = rest := by
  subst hq
  obtain ⟨h1, h2⟩ := State.qPop_clean h
  unfold State.nextPacket
  dsimp only
  split
  next h0 _ => exact absurd (h.symm.trans h0) (List.cons_ne_nil _ _)
  next => exact ⟨by rw [h1]; rfl, h2⟩

/-- An engine with the packet it has just taken (R55, R60). -/
def State.packetEngine (s : State) (p : Fin 8) (ws : List Nat) (payload : Bytes) (stamp : Nat) : Engine :=
  { busy := true, pkt := s.ing.packets, port := p, words := ws, payload := payload, stamp := stamp
    base := (stamp : Int) - (s.calRecord p).delay }

/-- A packet that an engine starts is counted. -/
def State.countPacket (s : State) (n : Nat) : State := { s with ing := { s.ing with packets := n } }

section
variable {p : Fin 8} {e : Fin 16} {ecc : QueueEcc} (hr : s.runs) (hb : (s.engine e).busy = false)
include hr hb

theorem execPacketParseStart_none (h : s.nextPacket p ecc = (t, none)) : execPacketParseStart p e ecc s = .next t := by
  refine next_congr ((State.clocked_runs hr _).trans ?_)
  simp [hb, h]

variable {payload : Bytes} {stamp : Nat} (h : s.nextPacket p ecc = (t, some (payload, stamp)))
include h

theorem execPacketParseStart_unused (hp : s.program p = 0xFF) : execPacketParseStart p e ecc s = .next t := by
  refine next_congr ((State.clocked_runs hr _).trans ?_)
  simp [hb, h, hp]

variable (hp : s.program p ≠ 0xFF)
include hp

theorem execPacketParseStart_starts {ws : List Nat} (hw : ws = s.ing.programs[s.program p]?.getD []) (hn : ws ≠ []) :
    execPacketParseStart p e ecc s = .next
      (((t.bump (portOd 0x3104 p 1)).modEngine e (fun _ => s.packetEngine p ws payload stamp)).countPacket (s.ing.packets + 1)) := by
  refine next_congr ((State.clocked_runs hr _).trans ?_)
  simp [hb, h, hp, ← hw, hn, State.countPacket, State.packetEngine]

theorem execPacketParseStart_unparsed (hw : s.ing.programs[s.program p]?.getD [] = []) :
    execPacketParseStart p e ecc s = .next
      ((t.bump (portOd 0x3104 p 0x0E)).raiseIng 0x3016 p ((t.bump (portOd 0x3104 p 0x0E)).num (portOd 0x3104 p 0x0E))) := by
  refine next_congr ((State.clocked_runs hr _).trans ?_)
  simp [hb, h, hp, hw]

end

/-! The ways of the front emitted point (R64, R79). -/

theorem State.places_future {p : Point} {rest : List Point} {r : Bool} (h : (s.frame.ing.end_ : Int) ≤ p.time) :
    s.places p rest r = (s.tookPoint rest).modPts r (fun c => { c with future := c.future + 1 }) := if_pos h

section
variable {p : Point} {rest : List Point} {r : Bool} (he : p.time < (s.frame.ing.end_ : Int))
include he

theorem State.places_late (h : p.time < ((s.ctxOf p.prev).start : Int)) :
    s.places p rest r = ((s.tookPoint rest).modPts r (fun c => { c with late := c.late + 1 })).judgeAgain r :=
  (if_neg (Int.not_le.2 he)).trans (if_pos h)

variable (hs : ((s.ctxOf p.prev).start : Int) ≤ p.time)
include hs

theorem State.places_budget (h : s.budget p.prev (s.priority p) ≤ (s.ctxOf p.prev).pts.admitted) :
    s.places p rest r = ((s.tookPoint rest).modPts p.prev (fun c => { c with budget := c.budget + 1 })).modPoint p.prev
      (fun c => c.cause .ingest 1) :=
  (if_neg (Int.not_le.2 he)).trans ((if_neg (Int.not_lt.2 hs)).trans (if_pos h))

theorem State.places_admitted (h : (s.ctxOf p.prev).pts.admitted < s.budget p.prev (s.priority p)) :
    s.places p rest r = s.moves p.prev rest (s.compensatePoint (s.ctxOf p.prev)
      { p with offset := ((p.time - (s.ctxOf p.prev).start) / 1000).toNat % 2 ^ 24 }) :=
  (if_neg (Int.not_le.2 he)).trans ((if_neg (Int.not_lt.2 hs)).trans ((if_neg (Nat.not_le.2 h)).trans
    (congrArg (s.moves p.prev rest) (State.admits_compensates ..))))

end

/-! FLUSH (R261). -/

theorem State.usePn_q (s : State) (p : Nat) (tx : Bool) (an sci pn : Nat) : (s.usePn p tx an sci pn).q = s.q := by
  unfold State.usePn
  dsimp only
  split
  · rfl
  · split
    · exact State.raise_q ..
    · rfl

/-- A frame that a port sends leaves the queues. -/
theorem State.transmit_q (s : State) (f : TxFrame) : (s.transmit f).q = s.q := by
  unfold State.transmit
  dsimp only
  split
  · rfl
  · split
    · split
      · rfl
      · split
        · rfl
        · exact State.usePn_q ..
    · rfl

theorem State.pfcLook_q (s : State) (p : Fin 2) (cls : Nat) : (s.pfcLook p cls).q = s.q := by
  unfold State.pfcLook State.sendPause State.sendPfc
  dsimp only
  split
  · split
    · exact State.transmit_q ..
    · exact (State.raiseIng_q ..).trans (State.transmit_q ..)
  · split
    · exact State.transmit_q ..
    · rfl

theorem State.flushNow_pkts (s : State) {q : Fin 24} (h : qMode q.val ≠ .credit) : ((s.flushNow q).q[q]).pkts = [] := by
  have hc : ((s.qFlush q).q[q]).pkts = [] := by
    unfold State.qFlush
    rw [if_neg h]
    exact State.qClear_pkts s q
  unfold State.flushNow
  dsimp only
  split
  · exact (State.pkts_congr (State.pfcLook_q ..) q).trans hc
  · exact hc

theorem execFlush_flushes {w : Writer} {q : Fin 24} (ha : (s.at w.t).accepts w (0x1830 + q.val) 8 (.num 1)) :
    execFlush w q 1 s = .next (((s.quiet.at w.t).flushNow q).answer 0) :=
  next_congr ((State.command_accepts (s := s.quiet) (v := .num (1 : BitVec 8).toNat) ha _ _).trans (if_neg (by decide)))

/-- Settles O42: one rule per way of a packet, of an emitted point and of a point at its grid. -/
theorem pointsReachTheCellTable : Obligations.PointsReachTheCellTable := by
  unfold Obligations.PointsReachTheCellTable
  intro s hr of
  refine ⟨fun p e ecc s1 hb => ⟨execPacketParseStart_none hr hb, fun payload stamp h => ⟨execPacketParseStart_unused hr hb h, ?_⟩⟩,
    fun p q k rest => State.nextPacket_queued, ?_, ?_, ?_, ?_⟩
  · rintro hp ws hw
    refine ⟨fun hn => ?_, fun hn => ?_⟩
    · exact ⟨_, execPacketParseStart_starts hr hb h hp hw hn, rfl, rfl,
        State.modEngine_same (s1.bump (portOd 0x3104 p 1)) e (fun _ => s.packetEngine p ws payload stamp), State.num_bump s1 _ 1⟩
    · refine ⟨_, execPacketParseStart_unparsed hr hb h hp (hw ▸ hn), State.raiseIng_q .., ?_, ?_⟩
      · have he := s.nextPacket_engine p ecc e
        rw [h] at he
        exact (State.engine_of_ing (State.raiseIng_ing ..) e).trans he
      · exact (State.num_of_obj ((Judges.refl _).raiseIng.obj _ (portOd_ne_lost (by decide) (by decide)))).trans (State.num_bump ..)
  · intro p0 rest hi hc prev p ctx
    have hf := execPointCompensate_front hr hi hc
    refine ⟨fun h => hf.trans (next_congr (if_pos (by rcases h with h | h <;> simp [h]))), fun hn hu => ?_⟩
    have hfront : execPointCompensate s = .next (s.places p rest p0.prev) := hf.trans (next_congr (if_neg (by simp [hn, hu])))
    refine ⟨fun he => ?_, fun he hs => ?_, fun he hs hb => ?_, fun he hs hb q gap hq => ?_⟩
    · exact ⟨_, hfront.trans (next_congr (State.places_future he)), State.modPts_ing .., State.modPts_pts (s.tookPoint rest) ..⟩
    · have hj := (Judges.refl ((s.tookPoint rest).modPts p0.prev (fun c => { c with late := c.late + 1 }))).judgeAgain (p := p0.prev)
      exact ⟨_, hfront.trans (next_congr (State.places_late he hs)), hj.ing.trans (State.modPts_ing ..),
        (hj.pts p0.prev).trans (State.modPts_pts (s.tookPoint rest) ..)⟩
    · have hj := (Judges.refl ((s.tookPoint rest).modPts prev (fun c => { c with budget := c.budget + 1 }))).cause (p := prev)
        (w := .ingest) (i := 1)
      refine ⟨_, hfront.trans (next_congr (State.places_budget he hs hb)), hj.ing.trans (State.modPts_ing ..), ?_,
        (hj.pts prev).trans (State.modPts_pts (s.tookPoint rest) ..)⟩
      exact (congrArg (fun c : FrameCtx => bitAt c.cIngest 1) (State.ctxOf_modPoint ..)).trans (bitAt_cause_ingest _ 1)
    · have hm := State.moves_admitted (prev := prev) (rest := rest) (x := (q, gap)) hi
      exact ⟨_, hfront.trans (next_congr ((State.places_admitted he hs hb).trans (congrArg (s.moves prev rest) hq))), hm⟩
  · intro ctx p
    exact ⟨fun h c hc => State.compensatePoint_rest h hc, fun h l f pt c hl hf hp hc => State.compensatePoint_track h hl hf hp hc⟩
  · intro p rest g gs hi hg tag key c after
    refine ⟨fun pl h => ?_, fun pl e h he => ?_, fun pl h => ?_, fun pl h => ?_, fun pl h => ?_⟩
    · obtain ⟨t, ht, hc, ha, hn⟩ := execCellInsert_counts hr hi hg (State.inserts_created h)
      have hat := fun x => (congrArg (fun m : CellTable => m.at x) hc).trans (CellTable.at_create ..)
      exact ⟨t, ht, (hat pl).trans (if_pos rfl), fun x hx => (hat x).trans (if_neg hx), ha, hn.count CellCount.created fun _ _ => rfl⟩
    · obtain ⟨t, ht, hc, ha, hn⟩ := execCellInsert_counts hr hi hg (State.inserts_aggregated h he)
      have hat := fun x => (congrArg (fun m : CellTable => m.at x) hc).trans (CellTable.at_put ..)
      exact ⟨t, ht, (hat pl).trans (if_pos rfl), fun x hx => (hat x).trans (if_neg hx), ha,
        hn.count CellCount.aggregated fun _ _ => rfl⟩
    · obtain ⟨t, ht, hc, ha, hn⟩ := execCellInsert_counts hr hi hg (State.inserts_saturated h)
      exact ⟨t, ht, hc, ha, hn.count CellCount.saturated fun _ _ => rfl⟩
    · obtain ⟨t, ht, hc, ha, hn⟩ := execCellInsert_counts hr hi hg (State.inserts_bucketFull h)
      exact ⟨t, ht, hc, ha, hn.count CellCount.refusedBucket fun _ _ => rfl⟩
    · obtain ⟨t, ht, hc, ha, hn⟩ := execCellInsert_counts hr hi hg (State.inserts_limit h)
      exact ⟨t, ht, hc, ha, hn.count CellCount.refusedLimit fun _ _ => rfl⟩
  · intro w q ha hm
    exact ⟨_, execFlush_flushes ha, State.flushNow_pkts _ hm, rfl⟩

end Sys2Proof.Machine
end

