-- ==== Sys2Proof/Proofs/RunAhead.lean ====
section
/-! SUPPORT. Pose run-ahead (R73-R76, R90): what the resolution of an epoch, a withdrawal and a re-insertion come to. -/

namespace Sys2Proof.Machine

variable {s t : State}

/-! RUNAHEAD_RESOLVE. -/

/-- The points of an epoch that moved beyond the tolerance (R73). -/
def State.failing (s : State) (e : Nat) (track : List PoseSample) : List LogPoint :=
  (s.ing.log.filter (fun l => l.epoch == e)).filter (fun l => s.movedFar l.pt (s.recompute track l.pt))

/-- What is logged of a logged point once epoch `e` is resolved by a sample (R73, R75). -/
def State.logsOn (s : State) (e : Nat) (smp : PoseSample) (track : List PoseSample) (l : LogPoint) : Option LogPoint :=
  let moved := s.recompute track l.pt
  if l.epoch ≠ e then some l
  else if decide ((smp.time : Int) < l.pt.time) then
    some { l with epoch := (e + 1) % 256, pt := (if s.movedFar l.pt moved then moved else l.pt) }
  else none

/-- The front end once the oldest waiting sample has resolved its epoch. -/
def State.resolved (s : State) (e : Nat) (smp : PoseSample) (rest : List (Nat × PoseSample)) (track : List PoseSample) : State :=
  { s with ing := { s.ing with
    waitingSamples := rest
    log := s.ing.log.filterMap (s.logsOn e smp track)
    withdraw := (s.failing e track).map (fun l =>
      let p := s.recompute track l.pt
      (l.pt, { p with extrap := decide ((smp.time : Int) < l.pt.time) })) } }

theorem execRunaheadResolve_resolves {e : Nat} {smp : PoseSample} {rest : List (Nat × PoseSample)} (hr : s.runs)
    (h : s.ing.waitingSamples = (e, smp) :: rest) (hw : s.ing.withdraw = []) (hi : s.ing.reinsert = [])
    (hn : s.ing.ins.any (fun p => p.log && p.epoch == e) = false) {track : List PoseSample}
    (ht : track = s.ing.samples.filter (fun x => decide (x.time ≤ smp.time))) :
    execRunaheadResolve s = .next ((s.failing e track).foldl
      (fun s l => s.modPts l.pt.prev (fun c => { c with withdrawn := c.withdrawn + 1 })) (s.resolved e smp rest track)) := by
  subst ht
  refine next_congr ((State.clocked_runs hr _).trans ?_)
  dsimp only
  split
  next h0 => rw [h] at h0; cases h0
  next h1 =>
    rw [h] at h1
    cases h1
    exact if_neg (by simp [hw, hi, hn])

/-- Counting points leaves the front end and the table. -/
theorem foldl_modPts_keeps (l : List LogPoint) (f : SweepCount → SweepCount) (s : State) :
    (l.foldl (fun s x => s.modPts x.pt.prev f) s).ing = s.ing ∧ (l.foldl (fun s x => s.modPts x.pt.prev f) s).cells = s.cells :=
  foldl_keep (P := fun u : State => u.ing = s.ing ∧ u.cells = s.cells)
    (fun _ _ h => ⟨(State.modPoint_ing ..).trans h.1, (State.modPoint_cells ..).trans h.2⟩) ⟨rfl, rfl⟩

/-- A point under another track keeps its time. -/
theorem State.recompute_time (s : State) (l : List PoseSample) (p : Point) : (s.recompute l p).time = p.time := by
  unfold State.recompute
  dsimp only
  split <;> rfl

theorem State.logsOn_other {e : Nat} {smp : PoseSample} {track : List PoseSample} {l : LogPoint} (h : l.epoch ≠ e) :
    s.logsOn e smp track l = some l := if_pos h

/-- What stays logged is a point of another epoch, or one beyond the sample under the next epoch. -/
theorem State.logsOn_some {e : Nat} {smp : PoseSample} {track : List PoseSample} {l x : LogPoint} (h : s.logsOn e smp track l = some x) :
    (x.epoch ≠ e ∧ x = l) ∨ (x.epoch = (e + 1) % 256 ∧ (smp.time : Int) < x.pt.time) := by
  unfold State.logsOn at h
  dsimp only at h
  split at h
  case isTrue he => cases h; exact .inl ⟨he, rfl⟩
  case isFalse =>
    split at h
    case isTrue ht =>
      have ht := of_decide_eq_true ht
      cases h
      refine .inr ⟨rfl, ?_⟩
      dsimp only
      split
      · rw [State.recompute_time]; exact ht
      · exact ht
    case isFalse => cases h

/-! RUNAHEAD_WITHDRAW. -/

/-- A withdrawn point waits for its re-insertion. -/
def State.requeue (s : State) (rest : List (Point × Point)) (new : Point) : State :=
  { s with ing := { s.ing with withdraw := rest, reinsert := s.ing.reinsert ++ [new] } }

/-- The point leaves every grid that took it. -/
def State.leavesGrids (s : State) (p : Point) : State := p.took.foldl (fun s g => s.withdrawFrom p (s.sweepTag p.prev) g) s

/-- The point leaves OUTSIDE if it entered no grid (R90). -/
def State.leavesOutside (s u : State) (p : Point) : State :=
  if (s.gridsOf p.xyz).isEmpty then u.modCells p.prev (fun c => { c with outside := c.outside - 1 }) else u

theorem execRunaheadWithdraw_withdraws {old new : Point} {rest : List (Point × Point)} (hr : s.runs)
    (h : s.ing.withdraw = (old, new) :: rest) :
    execRunaheadWithdraw s = .next ((s.leavesOutside (s.leavesGrids old) old).requeue rest new) := by
  refine next_congr ((State.clocked_runs hr _).trans ?_)
  dsimp only
  split
  next h0 => rw [h] at h0; cases h0
  next h1 =>
    rw [h] at h1
    cases h1
    rfl

theorem State.withdrawFrom_ing (s : State) (p : Point) (tag g : Nat) : (s.withdrawFrom p tag g).ing = s.ing := by
  unfold State.withdrawFrom
  extract_lets key b c
  split
  · rfl
  · split
    · rfl
    · split
      · exact State.modCells_ing ..
      · split
        · exact State.modCells_ing ..
        · rfl

theorem State.leavesGrids_ing (s : State) (p : Point) : (s.leavesGrids p).ing = s.ing :=
  foldl_keep (P := fun u : State => u.ing = s.ing) (fun _ _ h => (State.withdrawFrom_ing ..).trans h) rfl

theorem State.leavesOutside_ing (s u : State) (p : Point) : (s.leavesOutside u p).ing = u.ing :=
  ite_keep (P := fun v : State => v.ing = u.ing) (State.modCells_ing ..) rfl

theorem State.leavesOutside_cells (s u : State) (p : Point) : (s.leavesOutside u p).cells = u.cells :=
  ite_keep (P := fun v : State => v.cells = u.cells) (State.modPoint_cells ..) rfl

/-- Leaving OUTSIDE touches no other count of the table. -/
theorem State.leavesOutside_count (s u : State) (p : Point) {α : Type} (f : CellCount → α)
    (hf : ∀ c n, f { c with outside := n } = f c) :
    f ((s.leavesOutside u p).ctxOf p.prev).cells = f (u.ctxOf p.prev).cells :=
  ite_keep (P := fun v : State => f (v.ctxOf p.prev).cells = f (u.ctxOf p.prev).cells)
    (by rw [State.modCells_ctxOf]; exact hf _ _) rfl

theorem State.leavesGrids_none {p : Point} (h : p.took = []) : s.leavesGrids p = s := by
  rw [State.leavesGrids, h]
  rfl

theorem State.leavesGrids_one {p : Point} {g : Nat} (h : p.took = [g]) : s.leavesGrids p = s.withdrawFrom p (s.sweepTag p.prev) g := by
  rw [State.leavesGrids, h]
  rfl

theorem State.leavesOutside_outside {u : State} {p : Point} (h : u = s) (hg : s.gridsOf p.xyz = []) :
    ((s.leavesOutside u p).ctxOf p.prev).cells.outside = (s.ctxOf p.prev).cells.outside - 1 := by
  subst h
  rw [State.leavesOutside, if_pos (by rw [hg]; rfl), State.modCells_ctxOf]

/-- The table once a point has left the entry `x` at a place (R74, R94, R99). -/
def CellTable.lessPoint (m : CellTable) (b pl : Nat) (x c : Entry) : CellTable :=
  if x.count = 65535 then m else if x.count ≤ 1 then m.free b pl else m.put pl (some (x.subPoint c))

/-- The counts once a point has left the entry `x`. -/
def CellCount.lessPoint (x : Entry) (c : CellCount) : CellCount :=
  { c with freed := c.freed + (if x.count ≤ 1 then 1 else 0), saturated := c.saturated + (if x.count = 65535 then 1 else 0) }

theorem State.withdrawFrom_found {p : Point} {tag g pl : Nat} {x : Entry}
    (h : s.cells.search (s.pointBucket g tag p) (fun y => y.key == s.pointKey g tag p.xyz && y.tag == tag) = some pl)
    (hx : s.cells.live pl = some x) :
    s.withdrawFrom p tag g = s.tabled (s.cells.lessPoint (s.pointBucket g tag p) pl x (s.pointEntry g tag p)) p.prev
      (CellCount.lessPoint x) := by
  unfold State.withdrawFrom CellTable.lessPoint CellCount.lessPoint
  simp only [h, hx]
  by_cases hf : x.count = 65535
  · simp only [hf]
    rfl
  · by_cases h1 : x.count ≤ 1
    · simp only [hf, h1]
      rfl
    · simp only [hf, h1]
      cases p.prev <;> rfl

theorem CellTable.at_lessPoint (m : CellTable) (b pl : Nat) (x c : Entry) (h : m.at pl = some x) (y : Nat) :
    (m.lessPoint b pl x c).at y = if y = pl then (if x.count = 65535 then some x else if x.count ≤ 1 then none else some (x.subPoint c))
      else m.at y := by
  unfold CellTable.lessPoint
  split
  · split
    case isTrue e => rw [e, h]
    case isFalse => rfl
  · split
    · exact CellTable.at_free ..
    · exact CellTable.at_put ..

/-- A live entry stands at its place. -/
theorem CellTable.at_of_live {m : CellTable} {pl : Nat} {x : Entry} (h : m.live pl = some x) : m.at pl = some x := by
  unfold CellTable.live at h
  split at h
  next e he =>
    split at h
    · rw [he, h]
    · cases h
  next => cases h

/-- What the withdrawal of a point that one grid took leaves of the table and its counts. -/
theorem State.leavesOne {p : Point} {g pl : Nat} {x : Entry} (ht : p.took = [g])
    (h : s.cells.search (s.pointBucket g (s.sweepTag p.prev) p)
      (fun y => y.key == s.pointKey g (s.sweepTag p.prev) p.xyz && y.tag == s.sweepTag p.prev) = some pl)
    (hx : s.cells.live pl = some x) :
    let t := s.leavesOutside (s.leavesGrids p) p
    (∀ y, y ≠ pl → t.cells.at y = s.cells.at y) ∧
      t.cells.at pl = (if x.count = 65535 then some x else if x.count ≤ 1 then none
        else some (x.subPoint (s.pointEntry g (s.sweepTag p.prev) p))) ∧
      (t.ctxOf p.prev).cells.freed = (s.ctxOf p.prev).cells.freed + (if x.count ≤ 1 then 1 else 0) ∧
      (t.ctxOf p.prev).cells.saturated = (s.ctxOf p.prev).cells.saturated + (if x.count = 65535 then 1 else 0) := by
  intro t
  have hg : s.leavesGrids p = _ := (State.leavesGrids_one ht).trans (State.withdrawFrom_found h hx)
  have hc : t.cells = _ := (s.leavesOutside_cells (s.leavesGrids p) p).trans (by rw [hg, State.tabled_cells])
  have hat := fun y => (congrArg (fun m : CellTable => m.at y) hc).trans (CellTable.at_lessPoint _ _ pl x _ (CellTable.at_of_live hx) y)
  have hn : ∀ {f : CellCount → Nat}, (∀ c n, f { c with outside := n } = f c) →
      f (t.ctxOf p.prev).cells = f (CellCount.lessPoint x (s.ctxOf p.prev).cells) := fun hf =>
    (s.leavesOutside_count (s.leavesGrids p) p _ hf).trans (by rw [hg, State.tabled_counts])
  exact ⟨fun y hy => (hat y).trans (if_neg hy), (hat pl).trans (if_pos rfl), hn (f := CellCount.freed) fun _ _ => rfl,
    hn (f := CellCount.saturated) fun _ _ => rfl⟩

/-! RUNAHEAD_REINSERT. -/

/-- The point that is re-inserted no longer waits. -/
def State.tookWithdrawn (s : State) (rest : List Point) : State := { s with ing := { s.ing with reinsert := rest } }

/-- The grids that a re-inserted point enters, one after another, and those that took it. -/
def State.reenters (s : State) (p : Point) (grids : List Nat) : State × List Nat :=
  grids.foldl (fun a g =>
    let x := a.1.insertPoint p g (a.1.sweepTag p.prev)
    (x.1, if x.2 then a.2 ++ [g] else a.2)) (s, [])

/-- A re-inserted point has entered its grids: its log entry says which took it, and a refusal counts (R73, R80). -/
def State.reentered (x : State × List Nat) (p : Point) (grids : List Nat) : State :=
  if x.2.length < grids.length then (x.1.relog p x.2).cellFull p.prev else x.1.relog p x.2

theorem execRunaheadReinsert_outside {p : Point} {rest : List Point} (hr : s.runs) (h : s.ing.reinsert = p :: rest)
    (hg : s.gridsOf p.xyz = []) :
    execRunaheadReinsert s = .next ((s.tookWithdrawn rest).modCells p.prev (fun c => { c with outside := c.outside + 1 })) := by
  refine next_congr ((State.clocked_runs hr _).trans ?_)
  dsimp only
  split
  next h0 => rw [h] at h0; cases h0
  next h1 =>
    rw [h] at h1
    cases h1
    exact if_pos (congrArg List.isEmpty hg)

theorem execRunaheadReinsert_enters {p : Point} {rest : List Point} (hr : s.runs) (h : s.ing.reinsert = p :: rest)
    (hg : s.gridsOf p.xyz ≠ []) :
    execRunaheadReinsert s = .next (State.reentered ((s.tookWithdrawn rest).reenters p (s.gridsOf p.xyz)) p (s.gridsOf p.xyz)) := by
  refine next_congr ((State.clocked_runs hr _).trans ?_)
  dsimp only
  split
  next h0 => rw [h] at h0; cases h0
  next h1 =>
    rw [h] at h1
    cases h1
    exact if_neg fun he => hg (List.isEmpty_iff.1 he)

/-- What a re-insertion leaves: the points that wait, and the counts of inserted points. -/
theorem State.reenters_front (s : State) (p : Point) (grids : List Nat) :
    (s.reenters p grids).1.ing = s.ing ∧ ∀ r, ((s.reenters p grids).1.ctxOf r).pts = (s.ctxOf r).pts := by
  refine foldl_keep (P := fun a : State × List Nat => a.1.ing = s.ing ∧ ∀ r, (a.1.ctxOf r).pts = (s.ctxOf r).pts)
    (fun a g h => ?_) ⟨rfl, fun _ => rfl⟩
  obtain ⟨h1, h2⟩ := a.1.insertPoint_front p g (a.1.sweepTag p.prev)
  exact ⟨h1.trans h.1, fun r => (h2 r).trans (h.2 r)⟩

theorem State.reentered_front (x : State × List Nat) (p : Point) (grids : List Nat) :
    (State.reentered x p grids).ing.reinsert = x.1.ing.reinsert ∧ (State.reentered x p grids).ing.withdraw = x.1.ing.withdraw ∧
      ((State.reentered x p grids).ctxOf p.prev).pts.inserted = (x.1.ctxOf p.prev).pts.inserted ∧
      (State.reentered x p grids).cells = x.1.cells ∧
      ((State.reentered x p grids).ctxOf p.prev).pts.cellFull =
        (x.1.ctxOf p.prev).pts.cellFull + if x.2.length < grids.length then 1 else 0 := by
  unfold State.reentered
  split
  · rw [State.cellFull_ing, State.cellFull_pts, State.cellFull_cells]
    exact ⟨rfl, rfl, rfl, rfl, rfl⟩
  · exact ⟨rfl, rfl, rfl, rfl, rfl⟩

/-- A point that enters one grid. -/
theorem State.reenters_one {p : Point} {g : Nat} {m : CellTable} {f : CellCount → CellCount} {ok : Bool}
    (h : s.Inserts p g (s.sweepTag p.prev) m f ok) : Judges (s.tabled m p.prev f) (s.reenters p [g]).1 ∧
      (s.reenters p [g]).2.length = if ok then 1 else 0 := by
  obtain ⟨rfl, hj⟩ := h
  refine ⟨hj, ?_⟩
  show (if (s.insertPoint p g (s.sweepTag p.prev)).2 then [] ++ [g] else []).length = _
  split <;> rfl

/-- What the re-insertion of a point that lies in one grid leaves. -/
theorem execRunaheadReinsert_one {p : Point} {rest : List Point} {g : Nat} {m : CellTable} {f : CellCount → CellCount} {ok : Bool}
    (hr : s.runs) (h : s.ing.reinsert = p :: rest) (hg : s.gridsOf p.xyz = [g])
    (hi : (s.tookWithdrawn rest).Inserts p g (s.sweepTag p.prev) m f ok) :
    ∃ t, execRunaheadReinsert s = .next t ∧ t.ing.reinsert = rest ∧ t.cells = m ∧
      (t.ctxOf p.prev).pts.cellFull = (s.ctxOf p.prev).pts.cellFull + if ok then 0 else 1 := by
  obtain ⟨hj, hl⟩ := State.reenters_one hi
  obtain ⟨h1, -, -, h4, h5⟩ := State.reentered_front ((s.tookWithdrawn rest).reenters p [g]) p [g]
  have hex := execRunaheadReinsert_enters hr h (by rw [hg]; exact List.cons_ne_nil _ _)
  rw [hg] at hex
  refine ⟨_, hex, h1.trans ?_, h4.trans (hj.cells.trans (State.tabled_cells ..)), h5.trans ?_⟩
  · rw [hj.ing, State.tabled_ing]
    rfl
  · rw [hl, hj.pts, State.tabled_pts]
    cases ok <;> rfl

end Sys2Proof.Machine
end

