-- ==== Sys2Proof/Proofs/Ageing.lean ====
section
/-! SUPPORT and THEOREMS. Ageing (R105-R107), the snapshot (R113), and with the run-ahead rules: O44. -/

namespace Sys2Proof.Machine

variable {s t : State}

/-! The table under another pass. -/

/-- The table with another pass of ageing. -/
def CellTable.passing (m : CellTable) (a : Ageing) : CellTable := { m with ageing := a }

theorem CellTable.free_passing (m : CellTable) (a : Ageing) (b pl : Nat) : (m.passing a).free b pl = (m.free b pl).passing a := by
  unfold CellTable.free
  dsimp only
  split <;> rfl

theorem CellTable.create_ageing (m : CellTable) (b pl : Nat) (e : Entry) : (m.create b pl e).ageing = m.ageing := by
  unfold CellTable.create
  dsimp only
  split <;> rfl

/-! AGE_ENTRY. -/

/-- The pass with its remaining places. -/
def Ageing.goesOn (a : Ageing) (rest : List Nat) : Ageing := { a with todo := rest, active := !rest.isEmpty }

/-- The pass has come to its next place. -/
def State.visits (s : State) (rest : List Nat) : State := { s with cells := s.cells.passing (s.cells.ageing.goesOn rest) }

theorem execAgeEntry_ends (hr : s.runs) (h : s.cells.ageing.todo = []) :
    execAgeEntry s = .next { s with cells := { s.cells with ageing := { s.cells.ageing with active := false } } } := by
  refine next_congr ((State.clocked_runs hr _).trans ?_)
  dsimp only
  split
  next => rfl
  next h0 => rw [h] at h0; cases h0

theorem execAgeEntry_visits {pl : Nat} {rest : List Nat} (hr : s.runs) (h : s.cells.ageing.todo = pl :: rest) :
    execAgeEntry s = .next (match s.cells.live pl with
      | some e => if e.phase = s.cells.ageing.phase ∨ e.tag = s.cells.counter then s.visits rest else (s.visits rest).ageOne pl e
      | none => s.visits rest) := by
  refine next_congr ((State.clocked_runs hr _).trans ?_)
  dsimp only
  split
  next h0 => rw [h] at h0; cases h0
  next h1 =>
    rw [h] at h1
    cases h1
    rfl

theorem execAgeEntry_passes {pl : Nat} {rest : List Nat} (hr : s.runs) (h : s.cells.ageing.todo = pl :: rest)
    (hp : s.cells.live pl = none ∨ ∃ x, s.cells.live pl = some x ∧ (x.phase = s.cells.ageing.phase ∨ x.tag = s.cells.counter)) :
    execAgeEntry s = .next (s.visits rest) := by
  rw [execAgeEntry_visits hr h]
  rcases hp with hn | ⟨x, hx, hp⟩
  · simp only [hn]
  · simp only [hx, hp, if_true]

theorem execAgeEntry_ages {pl : Nat} {rest : List Nat} {x : Entry} (hr : s.runs) (h : s.cells.ageing.todo = pl :: rest)
    (hx : s.cells.live pl = some x) (hp : x.phase ≠ s.cells.ageing.phase) (ht : x.tag ≠ s.cells.counter) :
    execAgeEntry s = .next ((s.visits rest).ageOne pl x) := by
  rw [execAgeEntry_visits hr h]
  simp only [hx, hp, ht, or_self, if_false]

/-- The entry has left its place and is counted as aged. -/
def State.lifts (s : State) (rest : List Nat) (pl : Nat) (x : Entry) : State :=
  (s.visits rest).tabled ((s.cells.free (s.bucket x.key) pl).passing (s.cells.ageing.goesOn rest)) false
    (fun c => { c with aged := c.aged + 1 })

/-- The entry at its new place, or merged, or dropped. -/
def State.sets (u : State) (y : Entry) (phase : Nat) : State :=
  match u.cells.search (u.bucket y.key) (fun z => z.key == y.key && z.tag == y.tag && z.phase == phase) with
  | some p => ({ u with cells := u.cells.put p (some (((u.cells.live p).getD y).merge y)) }).modCells false
      (fun c => { c with ageMerged := c.ageMerged + 1 })
  | none =>
    match (if 1048576 ≤ u.cells.count then none else u.cells.room (u.bucket y.key)) with
    | some p => ({ u with cells := u.cells.create (u.bucket y.key) p y }).noteStash
    | none => ((u.modCells false (fun c => { c with ageDropped := c.ageDropped + 1 })).causeIng .cells 1).raiseIng 0x4004

variable {pl : Nat} {rest : List Nat} {x y : Entry} {ix iy iz : Int}

theorem State.ageOne_lifts (ha : s.cells.ageing.aged (s.gridK (keyGrid x.key)) x = (y, ix, iy, iz)) :
    (s.visits rest).ageOne pl x = if s.inBox (keyGrid x.key) ix iy iz then (s.lifts rest pl x).sets y s.cells.ageing.phase
      else (s.lifts rest pl x).modCells false (fun c => { c with agedOut := c.agedOut + 1 }) := by
  have ha' : (s.visits rest).cells.ageing.aged ((s.visits rest).gridK (keyGrid x.key)) x = (y, ix, iy, iz) := ha
  have hf : (s.visits rest).cells.free ((s.visits rest).bucket x.key) pl =
      (s.cells.free (s.bucket x.key) pl).passing (s.cells.ageing.goesOn rest) := CellTable.free_passing ..
  unfold State.ageOne
  dsimp only
  rw [ha', hf]
  by_cases hb : s.inBox (keyGrid x.key) ix iy iz
  · rw [if_pos hb]
    exact if_neg (by rw [show (s.visits rest).inBox (keyGrid x.key) ix iy iz = true from hb]; decide)
  · rw [if_neg hb]
    exact if_pos (by rw [show (s.visits rest).inBox (keyGrid x.key) ix iy iz = false from Bool.eq_false_iff.2 hb]; rfl)

section
variable (hr : s.runs) (h : s.cells.ageing.todo = pl :: rest) (hx : s.cells.live pl = some x) (hp : x.phase ≠ s.cells.ageing.phase)
  (ht : x.tag ≠ s.cells.counter) (ha : s.cells.ageing.aged (s.gridK (keyGrid x.key)) x = (y, ix, iy, iz))
include hr h hx hp ht ha

theorem execAgeEntry_out (hb : s.inBox (keyGrid x.key) ix iy iz = false) :
    execAgeEntry s = .next ((s.lifts rest pl x).modCells false (fun c => { c with agedOut := c.agedOut + 1 })) :=
  (execAgeEntry_ages hr h hx hp ht).trans (next_congr ((State.ageOne_lifts ha).trans (if_neg (by simp [hb]))))

theorem execAgeEntry_sets (hb : s.inBox (keyGrid x.key) ix iy iz = true) :
    execAgeEntry s = .next ((s.lifts rest pl x).sets y s.cells.ageing.phase) :=
  (execAgeEntry_ages hr h hx hp ht).trans (next_congr ((State.ageOne_lifts ha).trans (if_pos hb)))

end

theorem State.sets_merges {u : State} {ph q : Nat} {o : Entry}
    (h : u.cells.search (u.bucket y.key) (fun z => z.key == y.key && z.tag == y.tag && z.phase == ph) = some q)
    (ho : u.cells.live q = some o) :
    u.sets y ph = u.tabled (u.cells.put q (some (o.merge y))) false (fun c => { c with ageMerged := c.ageMerged + 1 }) := by
  unfold State.sets
  rw [h]
  dsimp only
  rw [ho]
  rfl

theorem State.sets_creates {u : State} {ph q : Nat}
    (h : u.cells.search (u.bucket y.key) (fun z => z.key == y.key && z.tag == y.tag && z.phase == ph) = none)
    (hc : u.cells.count < 1048576) (hq : u.cells.room (u.bucket y.key) = some q) :
    Judges { u with cells := u.cells.create (u.bucket y.key) q y } (u.sets y ph) := by
  unfold State.sets
  rw [h]
  dsimp only
  rw [if_neg (Nat.not_le.2 hc), hq]
  exact (Judges.refl _).noteStash

theorem State.sets_drops {u : State} {ph : Nat}
    (h : u.cells.search (u.bucket y.key) (fun z => z.key == y.key && z.tag == y.tag && z.phase == ph) = none)
    (hc : 1048576 ≤ u.cells.count ∨ u.cells.room (u.bucket y.key) = none) :
    Judges ((u.modCells false (fun c => { c with ageDropped := c.ageDropped + 1 })).causeIng .cells 1) (u.sets y ph) := by
  unfold State.sets
  rw [h]
  dsimp only
  have hn : (if 1048576 ≤ u.cells.count then none else u.cells.room (u.bucket y.key)) = none := by
    rcases hc with hc | hc
    · exact if_pos hc
    · rw [hc, ite_self]
  rw [hn]
  exact (Judges.refl _).raiseIng

/-- An aged entry that is created anew leaves the pass as it is. -/
theorem State.lifts_todo {b q : Nat} (h : t.cells = (s.lifts rest pl x).cells.create b q y) : t.cells.ageing.todo = rest := by
  rw [h, CellTable.create_ageing]
  rfl

/-! SNAP_REQUEST and SNAPSHOT_COMPLETE (R113). -/

theorem execSnapRequest_arms {w : Writer} (ha : (s.at w.t).accepts w 0x4F10 1 (.num 1)) (h : s.flag (od 0x4000 6) = true) :
    execSnapRequest w 1 s = .next (({ s.at w.t with cells := { s.cells with snapArmed := true } } : State).answer 0) :=
  next_congr ((State.command_accepts (v := .num (1 : BitVec 8).toNat) ha _ _).trans
    (if_neg (not_not.2 (if_pos (show (s.at w.t).flag (od 0x4000 6) = true from h)))))

theorem execSnapRequest_refuses {w : Writer} (ha : (s.at w.t).accepts w 0x4F10 1 (.num 1)) (h : s.flag (od 0x4000 6) = false) :
    execSnapRequest w 1 s = .next ((s.at w.t).answer 6) := by
  have h6 : (if (s.at w.t).flag (od 0x4000 6) then 0 else 6) = 6 :=
    if_neg (by rw [show (s.at w.t).flag (od 0x4000 6) = false from h]; decide)
  refine next_congr ((State.command_accepts (v := .num (1 : BitVec 8).toNat) ha _ _).trans ?_)
  dsimp only
  rw [h6]
  rfl

theorem execSnapshotComplete_runs (hr : s.runs) : execSnapshotComplete s = .next (if s.snapOver then s.snapPublish else s) :=
  next_congr (State.clocked_runs hr _)

/-- Settles O44: one rule per outcome of a resolution, a withdrawal, a re-insertion and a place of the pass. -/
theorem runAheadAndAgeingMovePoints : Obligations.RunAheadAndAgeingMovePoints := by
  unfold Obligations.RunAheadAndAgeingMovePoints
  intro s hr of
  refine ⟨?_, fun old new rest h => ⟨?_, ?_⟩, fun p rest h => ⟨fun hg => ?_, ?_, fun g hg => ?_⟩, execAgeEntry_ends hr,
    fun pl rest h => ⟨fun hp => ⟨_, execAgeEntry_passes hr h hp, rfl, rfl, rfl⟩, ?_⟩,
    fun w ha => ⟨fun h => ⟨_, execSnapRequest_arms ha h, rfl, rfl⟩, fun h => ⟨_, execSnapRequest_refuses ha h, rfl, rfl⟩⟩,
    fun h => ?_, fun h => ?_⟩
  · intro e smp rest h hw hi hn track ht
    obtain ⟨hing, hcells⟩ := foldl_modPts_keeps (s.failing e track) (fun c => { c with withdrawn := c.withdrawn + 1 })
      (s.resolved e smp rest track)
    refine ⟨_, execRunaheadResolve_resolves hr h hw hi hn ht, ?_⟩
    rw [hing, hcells]
    refine ⟨rfl, hi, rfl, ?_, fun l hl he => List.mem_filterMap.2 ⟨l, hl, State.logsOn_other he⟩, fun l hl => ?_⟩
    · exact List.map_map
    · obtain ⟨x, hx, hs⟩ := List.mem_filterMap.1 hl
      exact (State.logsOn_some hs).imp_left fun ⟨he, hl⟩ => ⟨he, hl ▸ hx⟩
  · have hi := (s.leavesOutside_ing (s.leavesGrids old) old).trans (s.leavesGrids_ing old)
    refine ⟨_, execRunaheadWithdraw_withdraws hr h, rfl, congrArg (fun i : Ingest => i.reinsert ++ [new]) hi,
      (congrArg Ingest.log hi :), fun h0 => ?_, fun h0 hg => ?_⟩
    · exact (s.leavesOutside_cells (s.leavesGrids old) old).trans (congrArg State.cells (State.leavesGrids_none h0))
    · exact State.leavesOutside_outside (State.leavesGrids_none h0) hg
  · intro g pl x htook tag key hs hx
    exact ⟨_, execRunaheadWithdraw_withdraws hr h, rfl, State.leavesOne htook hs hx⟩
  · exact ⟨_, execRunaheadReinsert_outside hr h hg, congrArg Ingest.reinsert (State.modCells_ing ..), State.modPoint_cells ..,
      congrArg (fun c : FrameCtx => c.cells.outside) (State.modCells_ctxOf ..)⟩
  · by_cases hg : s.gridsOf p.xyz = []
    · exact ⟨_, execRunaheadReinsert_outside hr h hg, congrArg Ingest.reinsert (State.modCells_ing ..),
        (congrArg Ingest.withdraw (State.modCells_ing (s.tookWithdrawn rest) ..) :),
        (congrArg (fun c : FrameCtx => c.pts.inserted) (State.modCells_ctxOf (s.tookWithdrawn rest) ..) :)⟩
    · obtain ⟨h1, h2, h3, -, -⟩ := State.reentered_front ((s.tookWithdrawn rest).reenters p (s.gridsOf p.xyz)) p (s.gridsOf p.xyz)
      obtain ⟨hing, hpts⟩ := (s.tookWithdrawn rest).reenters_front p (s.gridsOf p.xyz)
      exact ⟨_, execRunaheadReinsert_enters hr h hg, h1.trans (congrArg Ingest.reinsert hing), h2.trans (congrArg Ingest.withdraw hing :),
        h3.trans (congrArg SweepCount.inserted (hpts p.prev))⟩
  · intro tag key c
    refine ⟨fun pl hc => ?_, fun pl e hc he => ?_, ?_⟩
    · obtain ⟨t, ht, hw, hm, -⟩ := execRunaheadReinsert_one hr h hg (State.inserts_created hc)
      have hat := fun y => (congrArg (fun m : CellTable => m.at y) hm).trans (CellTable.at_create ..)
      exact ⟨t, ht, hw, (hat pl).trans (if_pos rfl), fun y hy => (hat y).trans (if_neg hy)⟩
    · obtain ⟨t, ht, hw, hm, -⟩ := execRunaheadReinsert_one hr h hg (State.inserts_aggregated hc he)
      have hat := fun y => (congrArg (fun m : CellTable => m.at y) hm).trans (CellTable.at_put ..)
      exact ⟨t, ht, hw, (hat pl).trans (if_pos rfl), fun y hy => (hat y).trans (if_neg hy)⟩
    · rintro pl r (rfl | rfl) hc
      · exact execRunaheadReinsert_one hr h hg (State.inserts_bucketFull hc)
      · exact execRunaheadReinsert_one hr h hg (State.inserts_limit hc)
  · intro x y ix iy iz hx hp ht ha left dst aged
    refine ⟨fun hb => ⟨_, execAgeEntry_out hr h hx hp ht ha hb, ⟨rfl, rfl⟩, ?_, fun z hz => ?_, rfl⟩, fun hb => ?_⟩
    · exact (CellTable.at_free ..).trans (if_pos rfl)
    · exact (CellTable.at_free ..).trans (if_neg hz)
    have hex := execAgeEntry_sets hr h hx hp ht ha hb
    refine ⟨fun q o hq ho => ?_, fun q hd hc hq => ?_, fun hd hc => ?_⟩
    · have hm := State.sets_merges (u := s.lifts rest pl x) hq ho
      have hat := fun z => CellTable.at_put left q (some (o.merge y)) z
      exact ⟨_, hex.trans (next_congr hm), ⟨rfl, rfl⟩, (hat q).trans (if_pos rfl), fun z hz => (hat z).trans (if_neg hz), rfl⟩
    · have hj := State.sets_creates (u := s.lifts rest pl x) hd hc hq
      have hat := fun z => (congrArg (fun m : CellTable => m.at z) hj.cells).trans (CellTable.at_create ..)
      have hn := (hj.ctx false).cells.count CellCount.aged fun _ _ => rfl
      exact ⟨_, hex, ⟨State.lifts_todo hj.cells, hn⟩, (hat q).trans (if_pos rfl), fun z hz => (hat z).trans (if_neg hz)⟩
    · have hj := State.sets_drops (u := s.lifts rest pl x) hd hc
      have hn := (hj.ctx false).cells.count CellCount.aged fun _ _ => rfl
      exact ⟨_, hex, ⟨congrArg (fun m : CellTable => m.ageing.todo) hj.cells, hn⟩,
        (congrArg CellTable.entries hj.cells :), (hj.ctx false).table 1 (bitAt_cause_cells _ 1),
        (hj.ctx false).cells.count CellCount.ageDropped fun _ _ => rfl⟩
  · exact ⟨_, (execSnapshotComplete_runs hr).trans (next_congr (if_pos h)), rfl, rfl, State.num_setNum ..⟩
  · exact (execSnapshotComplete_runs hr).trans (next_congr (if_neg (by simp [h])))

end Sys2Proof.Machine
end

