-- ==== Sys2Proof/Proofs/Exports.lean ====
section
/-! SUPPORT. The exports of the rule-book builder (R112, R124, R145, R241): what its WRITE messages make of the fabric and leave of the rest,
the 32-byte words that carry key records, and what one exported row comes to. -/

namespace Sys2Proof.Machine

variable {s : State}

/-! The builder's messages (R240, R241, R269, R271). -/

/-- A request to a stop of the module itself changes the fabric alone. -/
theorem State.request_own {ty : Nat} {m : Msg} {core : Option Nat} {task : Option TaskRun} {pc o off : Nat} (h : m.ddev = s.device) :
    ∃ f, s.request ty m core task pc o off = { s with fab := f } := by
  unfold State.request
  dsimp only
  split
  · exact ⟨_, if_pos h⟩
  · exact ⟨_, rfl⟩

/-- Under a free tag it waits at its source for the mesh. -/
theorem State.request_own_mesh {ty : Nat} {m : Msg} {core : Option Nat} {task : Option TaskRun} {pc o off tag : Nat} (h : m.ddev = s.device)
    (ht : s.freeTag m.sstop = some tag) :
    (s.request ty m core task pc o off).fab.mesh = s.fab.mesh ++ [(ty, { m with tag := tag })] := by
  unfold State.request
  dsimp only
  rw [ht]
  exact congrArg (fun t : State => t.fab.mesh) (if_pos h)

/-- The WRITE that carries one 32-byte word to a window of a core from the FE stop. -/
def State.wordMsg (s : State) (c : Fin 16) (part win gen off : Nat) (d : Bytes) (tag : Nat) : Msg :=
  { ddev := s.device, dstop := coreStop c.val, sdev := s.device, sstop := stopFE, part := part, win := win, gen := gen
    offset := off / 32, tag := tag, data := d }

theorem rowMsgs_word {off : Nat} {d : Bytes} (h : d.length = 32) : rowMsgs off d = [(off, d, true)] := by
  have hc : chunksOf 128 32 d = [d] := by
    match d, h with
    | b :: d, h =>
      have hd : (b :: d).take 128 = b :: d := List.take_of_length_le (by omega)
      have hr : (b :: d).drop 128 = [] := List.drop_of_length_le (by omega)
      rw [chunksOf, hd, hr, chunksOf] <;> exact nofun
  unfold rowMsgs
  rw [h, hc]
  rfl

theorem padTo_of_length {n : Nat} {d : Bytes} (h : d.length = n) : padTo n d = d := by
  rw [padTo, h, Nat.sub_self, List.take_of_length_le (Nat.le_of_eq h)]
  exact List.append_nil d

theorem State.feWrite_fab_only (c : Fin 16) (part win gen off : Nat) (d : Bytes) (count : Bool) :
    ∃ f, s.feWrite c part win gen off d count = { s with fab := f } := by
  refine foldl_keep (P := fun t : State => ∃ f, t = { s with fab := f }) ?_ ⟨s.fab, rfl⟩
  rintro _ y ⟨f, rfl⟩
  exact State.request_own rfl

@[simp] theorem State.feWrite_books (c : Fin 16) (part win gen off : Nat) (d : Bytes) (count : Bool) :
    (s.feWrite c part win gen off d count).books = s.books := by
  obtain ⟨f, h⟩ := s.feWrite_fab_only c part win gen off d count
  rw [h]

theorem State.feWrite_word {c : Fin 16} {part win gen off : Nat} {d : Bytes} (hd : d.length = 32) (ht : (s.freeTag stopFE).isSome = true) :
    ∃ tag, (s.feWrite c part win gen off d false).fab.mesh = s.fab.mesh ++ [(0, s.wordMsg c part win gen off d tag)] := by
  obtain ⟨tag, ht⟩ := Option.isSome_iff_exists.1 ht
  unfold State.feWrite
  rw [rowMsgs_word hd, List.foldl_cons, List.foldl_nil]
  refine ⟨tag, (State.request_own_mesh rfl ht).trans ?_⟩
  rw [hd, show ceilDiv 32 32 = 1 from rfl, padTo_of_length hd]
  rfl

/-! One exported row (R124, R241). -/

/-- An exported row takes a number for each item and changes nothing else of the builder. -/
theorem State.exportRow_books (d : SetDecl) (copies : List Nat) (r : RowRec) (size : Nat) (data : Nat → Bytes) :
    ∃ n, (s.exportRow d copies r size data).books = { s.books with nextItem := n } := by
  refine foldl_keep (P := fun t : State => ∃ n, t.books = { s.books with nextItem := n }) ?_ ⟨_, rfl⟩
  rintro t copy ⟨n, h⟩
  refine ⟨t.books.nextItem + 1, (State.feWrite_books ..).trans ?_⟩
  rw [State.newItem, State.modBooks_books, h]

/-- The WRITE that brings a row's word to its owner in a copy's core set. -/
def State.exportMsg (s : State) (d : SetDecl) (copy : Nat) (r : RowRec) (size : Nat) (word : Bytes) (tag : Nat) : Msg :=
  s.wordMsg (s.ownerCore d copy (r.idx / 1048576)) d.expPart d.expWin ((s.exportCredit d copy r).getD {}).gen
    (r.idx % 1048576 * size) word tag

theorem State.exportRow_mesh {d : SetDecl} {copy : Nat} {r : RowRec} {size : Nat} {data : Nat → Bytes} (hd : (data copy).length = 32)
    (ht : (s.freeTag stopFE).isSome = true) :
    ∃ tag, (s.exportRow d [copy] r size data).fab.mesh = s.fab.mesh ++ [(0, s.exportMsg d copy r size (data copy) tag)] :=
  State.feWrite_word (s := s.newItem) hd ht

theorem State.exportMsg_gen {d : SetDecl} {copy size tag : Nat} {r : RowRec} {word : Bytes} (h : s.mayExport d [copy] r = true) :
    (s.exportCredit d copy r).map (·.gen) = some (s.exportMsg d copy r size word tag).gen := by
  have h : (s.exportCredit d copy r).isSome = true := by simpa [State.mayExport] using h
  obtain ⟨c, hc⟩ := Option.isSome_iff_exists.1 h
  rw [State.exportMsg, State.wordMsg, hc]
  rfl

theorem State.cellRow_length (r : RowRec) : (s.cellRow r).length = 32 := by
  unfold State.cellRow
  split
  · exact List.length_replicate
  · simp only [List.length_append, natLe_length, zeros, List.length_replicate]

/-! The words that carry key records (R145, R270; log entry 147). -/

theorem keyRecord_length (d : SetDecl) (grid : Nat) (r : RowRec) : (keyRecord d grid r).length = 8 := by
  simp only [keyRecord, List.length_append, natLe_length]

/-- The record that a key word holds for row `4 * (row / 4) + k`. -/
def Books.keySlot (b : Books) (d : SetDecl) (copy : Nat) (rows : List RowRec) (r : RowRec) (k : Nat) : Bytes :=
  match rows.find? (fun q => q.idx == r.idx / 4 * 4 + k) with
  | some q => if q.idx != r.idx && b.keyLost d.set copy q.idx then zeros 8 else keyRecord d (b.rootGrid 64 d.set) q
  | none => zeros 8

theorem Books.keySlot_length (b : Books) (d : SetDecl) (copy : Nat) (rows : List RowRec) (r : RowRec) (k : Nat) :
    (b.keySlot d copy rows r k).length = 8 := by
  unfold Books.keySlot
  repeat' split
  · exact List.length_replicate
  · exact keyRecord_length ..
  · exact List.length_replicate

/-- The k-th piece of a string of pieces of one length. -/
theorem take_drop_flatMap_range {f : Nat → Bytes} {n m k : Nat} (hf : ∀ i, (f i).length = n) (hk : k < m) :
    (((List.range m).flatMap f).drop (n * k)).take n = f k := by
  induction k generalizing f m with
  | zero =>
    obtain ⟨m, rfl⟩ := Nat.exists_eq_succ_of_ne_zero (Nat.ne_of_gt hk)
    rw [List.range_succ_eq_map, List.flatMap_cons, Nat.mul_zero, List.drop_zero, List.take_left' (hf 0)]
  | succ k ih =>
    obtain ⟨m, rfl⟩ := Nat.exists_eq_succ_of_ne_zero (Nat.ne_of_gt (Nat.zero_lt_of_lt hk))
    rw [List.range_succ_eq_map, List.flatMap_cons, List.flatMap_map, Nat.mul_succ, Nat.add_comm, ← List.drop_drop, List.drop_left' (hf 0)]
    exact ih (fun i => hf _) (Nat.lt_of_succ_lt_succ hk)

section
variable {b : Books} {d : SetDecl} {copy : Nat} {rows : List RowRec} {r q : RowRec}

theorem Books.keyWord_slot {k : Nat} (hk : k < 4) :
    ((b.keyWord d copy rows r).drop (8 * k)).take 8 = b.keySlot d copy rows r k :=
  take_drop_flatMap_range (b.keySlot_length d copy rows r) hk

theorem Books.keyWord_length : (b.keyWord d copy rows r).length = 32 := by
  rw [show b.keyWord d copy rows r = (List.range 4).flatMap (b.keySlot d copy rows r) from rfl, List.length_flatMap]
  simp only [Books.keySlot_length]
  rfl

theorem Books.keyWord_found {k : Nat} (hk : k < 4) (hq : rows.find? (fun q => q.idx == r.idx / 4 * 4 + k) = some q)
    (h : q.idx = r.idx ∨ b.keyLost d.set copy q.idx = false) :
    ((b.keyWord d copy rows r).drop (8 * k)).take 8 = keyRecord d (b.rootGrid 64 d.set) q := by
  rw [Books.keyWord_slot hk, Books.keySlot, hq]
  exact if_neg (by rcases h with h | h <;> simp [h])

theorem Books.keyWord_own :
    ((b.keyWord d copy (r :: rows) r).drop (8 * (r.idx % 4))).take 8 = keyRecord d (b.rootGrid 64 d.set) r :=
  Books.keyWord_found (Nat.mod_lt _ (by decide)) (List.find?_cons_of_pos (by simp; omega)) (.inl rfl)

end

/-! The snapshot and the published counts beside an exported row (R113, R148). -/

theorem foldl_setNum_dict_only {β : Type} (k : β → Nat) (v : β → Int) (l : List β) (s : State) :
    ∃ x, l.foldl (fun s p => s.setNum (k p) (v p)) s = { s with dict := x } :=
  foldl_keep (P := fun t : State => ∃ x, t = { s with dict := x }) (by rintro _ p ⟨x, rfl⟩; exact ⟨_, rfl⟩) ⟨s.dict, rfl⟩

theorem State.publishBooks_dict_only (s : State) : ∃ x, s.publishBooks = { s with dict := x } := by
  unfold State.publishBooks
  dsimp only
  split
  · exact ⟨s.dict, rfl⟩
  · obtain ⟨x, h⟩ := foldl_setNum_dict_only (fun p : Nat × Nat => od 0x5F00 p.1) (fun p => Od.counter (od 0x5F00 p.1) p.2) _ s
    rw [h]
    exact ⟨_, rfl⟩

@[simp] theorem State.publishBooks_books (s : State) : s.publishBooks.books = s.books := by
  obtain ⟨x, h⟩ := s.publishBooks_dict_only
  rw [h]

@[simp] theorem State.publishBooks_fab (s : State) : s.publishBooks.fab = s.fab := by
  obtain ⟨x, h⟩ := s.publishBooks_dict_only
  rw [h]

@[simp] theorem State.publishBooks_frame (s : State) : s.publishBooks.frame = s.frame := by
  obtain ⟨x, h⟩ := s.publishBooks_dict_only
  rw [h]

@[simp] theorem State.publishBooks_cells (s : State) : s.publishBooks.cells = s.cells := by
  obtain ⟨x, h⟩ := s.publishBooks_dict_only
  rw [h]

/-- A write of DRAM leaves the builder and the fabric. -/
theorem State.dramPut_front (s : State) (a : Nat) (d : Bytes) : (s.dramPut a d).books = s.books ∧ (s.dramPut a d).fab = s.fab := by
  refine foldl_keep (P := fun t : State => t.books = s.books ∧ t.fab = s.fab) (fun t l h => ?_) ⟨rfl, rfl⟩
  exact ite_keep (P := fun t : State => t.books = s.books ∧ t.fab = s.fab) h h

theorem State.snapRow_front (s : State) (row : Bytes) : (s.snapRow row).books = s.books ∧ (s.snapRow row).fab = s.fab :=
  ite_keep (P := fun t : State => t.books = s.books ∧ t.fab = s.fab) ⟨rfl, rfl⟩ (s.dramPut_front _ row)

/-! The two exports. -/

theorem State.scan_scanned (h : s.books.scanned = true) : s.scan = s := if_pos (.inl h)

/-- A cell row has gone to its owner in each core set. -/
def State.cellRowSent (s : State) (d : SetDecl) (x : SetRows) (r : RowRec) : State :=
  (((s.exportRow d d.copies r 32 (fun _ => s.cellRow r)).modBooks (fun b => b.sentOne x)).snapRow (s.cellRow r)).publishBooks

/-- A row's key record has gone to its owner in the core sets of `copies`. -/
def State.keyRecordSent (s : State) (d : SetDecl) (x : SetRows) (r : RowRec) (copies : List Nat) : State :=
  ((s.exportRow d copies r 8 (fun copy => s.books.keyWord d copy (r :: x.rows.take x.sent) r)).modBooks (fun b => { b.sentOne x with
    keyItems := b.keyItems ++
      (copies.zip (List.range copies.length)).map (fun y => (s.books.nextItem + 1 + y.2, d.set, y.1, r.idx)) })).publishBooks

section
variable {set : Fin 64} {d : SetDecl} {x : SetRows} {r : RowRec}

theorem execCellRowExport_sends (hr : s.runs) (hs : s.books.scanned = true) (hd : s.frame.comp.dropped = false)
    (hset : setIn s.books.sets set.val = some d) (hn : s.books.nextExport set.val = some (x, r)) (h0 : d.source = 0)
    (hm : s.mayExport d d.copies r = true) : execCellRowExport set s = .next (s.cellRowSent d x r) := by
  refine next_congr ((State.clocked_runs hr _).trans ?_)
  dsimp only
  rw [State.scan_scanned hs, if_neg (by simp [hd]), hset, hn]
  exact if_neg (by simp [h0, hm])

theorem execKeyRecordExport_sends (hr : s.runs) (hs : s.books.scanned = true) (hd : s.frame.comp.dropped = false)
    (hset : setIn s.books.sets set.val = some d) (hn : s.books.nextExport set.val = some (x, r)) (h0 : d.source ≠ 0)
    (hk : d.exportKeys = true) {copies : List Nat} (hc : copies = if s.books.perCopy d then [x.copy] else d.copies)
    (hm : s.mayExport d copies r = true) : execKeyRecordExport set s = .next (s.keyRecordSent d x r copies) := by
  subst hc
  refine next_congr ((State.clocked_runs hr _).trans ?_)
  dsimp only
  rw [State.scan_scanned hs, if_neg (by simp [hd]), hset, hn]
  exact if_neg (by simp [h0, hk, hm])

theorem State.cellRowSent_sent :
    (s.cellRowSent d x r).books.exported = s.books.exported + 1 ∧ (s.cellRowSent d x r).books.rows = (s.books.sentOne x).rows := by
  obtain ⟨n, hb⟩ := s.exportRow_books d d.copies r 32 (fun _ => s.cellRow r)
  rw [State.cellRowSent, State.publishBooks_books, (State.snapRow_front ..).1, State.modBooks_books, hb]
  exact ⟨rfl, rfl⟩

theorem State.keyRecordSent_sent {copies : List Nat} :
    (s.keyRecordSent d x r copies).books.exported = s.books.exported + 1 ∧
      (s.keyRecordSent d x r copies).books.rows = (s.books.sentOne x).rows := by
  obtain ⟨n, hb⟩ := s.exportRow_books d copies r 8 (fun copy => s.books.keyWord d copy (r :: x.rows.take x.sent) r)
  rw [State.keyRecordSent, State.publishBooks_books, State.modBooks_books, hb]
  exact ⟨rfl, rfl⟩

theorem State.cellRowSent_mesh (hc : d.coreB = 0) (ht : (s.freeTag stopFE).isSome = true) :
    ∃ tag, (s.cellRowSent d x r).fab.mesh = s.fab.mesh ++ [(0, s.exportMsg d 0 r 32 (s.cellRow r) tag)] := by
  rw [State.cellRowSent, State.publishBooks_fab, (State.snapRow_front ..).2, State.modBooks_fab, show d.copies = [0] from if_pos hc]
  exact State.exportRow_mesh (data := fun _ => s.cellRow r) (State.cellRow_length r) ht

theorem State.keyRecordSent_mesh {copy : Nat} (ht : (s.freeTag stopFE).isSome = true) :
    ∃ tag, (s.keyRecordSent d x r [copy]).fab.mesh = s.fab.mesh ++
      [(0, s.exportMsg d copy r 8 (s.books.keyWord d copy (r :: x.rows.take x.sent) r) tag)] := by
  rw [State.keyRecordSent, State.publishBooks_fab, State.modBooks_fab]
  exact State.exportRow_mesh (data := fun copy => s.books.keyWord d copy (r :: x.rows.take x.sent) r) Books.keyWord_length ht

end

end Sys2Proof.Machine
end

