-- ==== Sys2Proof/Proofs/Builder.lean ====
section
/-! SUPPORT and THEOREMS. The rule-book builder (R125-R139, R141, R210): what a build over final sets, a segment, the first report, a
speculative build and a squash come to; with the exports: O45. -/

namespace Sys2Proof.Machine

variable {s : State}

/-! RULEBOOK_BUILD (R125-R130). -/

theorem Books.modCount_counts_only (b : Books) (rb copy : Nat) (f : RbCount → RbCount) :
    ∃ c, b.modCount rb copy f = { b with counts := c } := by
  unfold Books.modCount
  split <;> exact ⟨_, rfl⟩

@[simp] theorem Books.modCount_built (b : Books) (rb copy : Nat) (f : RbCount → RbCount) :
    (b.modCount rb copy f).built = b.built := by
  obtain ⟨c, h⟩ := b.modCount_counts_only rb copy f
  rw [h]

@[simp] theorem Books.modCount_entries (b : Books) (rb copy : Nat) (f : RbCount → RbCount) :
    (b.modCount rb copy f).entries = b.entries := by
  obtain ⟨c, h⟩ := b.modCount_counts_only rb copy f
  rw [h]

theorem Books.emit_built (b : Books) (r : RbDecl) (o : SetDecl) (copy : Nat) (outs : List RowRec)
    (parts : List (Nat × Nat × List RbEntry)) :
    (b.emit r o copy outs parts).built = b.built ++ [(r.rb, copy)] := Books.modCount_built ..

theorem Books.emit_entries (b : Books) (r : RbDecl) (o : SetDecl) (copy : Nat) (outs : List RowRec)
    (parts : List (Nat × Nat × List RbEntry)) :
    (b.emit r o copy outs parts).entries = b.entries ++ [(r.rb, copy, parts.flatMap (fun x => x.2.2))] := Books.modCount_entries ..

/-- Counting probes leaves the fabric, and of the builder all but their count. -/
theorem State.countProbes_probes (s : State) (i : SetDecl) (l : List RowRec) :
    (∃ p, (s.countProbes i l).books = { s.books with probes := p }) ∧ (s.countProbes i l).fab = s.fab :=
  ite_keep (P := fun t : State => (∃ p, t.books = { s.books with probes := p }) ∧ t.fab = s.fab)
    ⟨⟨_, State.raiseComp_books ..⟩, State.raiseComp_fab ..⟩ ⟨⟨_, rfl⟩, rfl⟩

/-- The entries of a rule book over its final sets (R127-R130). -/
def Books.finalEntries (b : Books) (r : RbDecl) (o i : SetDecl) (copy : Nat) (outs ins : List RowRec) : List RbEntry :=
  if r.cls = 2 then b.inverseOf r copy else entriesFor r o i (byIndex outs) ins (b.maskOf o copy)

/-- The parts in which a rule book goes out: what its repaired rows have, under a policy that repairs, after the rest (R142). -/
def RbDecl.parts (r : RbDecl) (missed : Nat) (outs : List RowRec) (es : List RbEntry) :
    List (Nat × Nat × List RbEntry) :=
  let (late, first) := es.partition (fun e => ((outs.filter (·.repaired)).map (·.idx)).contains e.out)
  (0, if r.cls = 4 then 8 else 0, first) :: (if r.repairs missed then [(0, 4, late)] else [])

theorem RbDecl.parts_unrepaired {r : RbDecl} {missed : Nat} {outs : List RowRec} {es : List RbEntry} (h : ∀ y ∈ outs, y.repaired = false) :
    (r.parts missed outs es).flatMap (fun x => x.2.2) = es := by
  have hf : outs.filter (·.repaired) = [] := List.filter_eq_nil_iff.2 fun y hy => by simp [h y hy]
  have hp : es.partition (fun e => (([] : List RowRec).map (·.idx)).contains e.out) = ([], es) := by
    simp [List.partition_eq_filter_filter]
  rw [RbDecl.parts, hf, hp]
  dsimp only
  split <;> simp

theorem State.buildBook_builds {r : RbDecl} {copy : Nat} {o i : SetDecl} {outs ins : SetRows} (ho : setIn s.books.sets r.out = some o)
    (hi : setIn s.books.sets r.inp = some i) (hout : s.books.rowsOf r.out copy = some outs) (hin : s.books.rowsOf r.inp copy = some ins) :
    (s.buildBook r copy).fab = s.fab ∧ (s.buildBook r copy).books.built = s.books.built ++ [(r.rb, copy)] ∧
      (s.buildBook r copy).books.entries = s.books.entries ++ [(r.rb, copy, (r.parts (s.books.missedOf r.out copy).length outs.rows
        (s.books.finalEntries r o i copy outs.rows ins.rows)).flatMap (fun x => x.2.2))] := by
  unfold State.buildBook
  dsimp only
  rw [ho, hi, hout, hin]
  dsimp only
  generalize hu : (if copy = 0 ∨ s.books.perCopy o = true ∨ s.books.perCopy i = true then
    s.countProbes i (probedCells r o i outs.rows) else s) = u
  obtain ⟨⟨p, hb⟩, hf⟩ : (∃ p, u.books = { s.books with probes := p }) ∧ u.fab = s.fab := by
    subst hu
    exact ite_keep (P := fun t : State => (∃ p, t.books = { s.books with probes := p }) ∧ t.fab = s.fab)
      (s.countProbes_probes i _) ⟨⟨_, rfl⟩, rfl⟩
  rw [State.modBooks_books, hb]
  refine ⟨hf, (Books.modCount_built ..).trans (Books.emit_built ..), ?_⟩
  exact (Books.modCount_entries ..).trans (Books.emit_entries ..)

theorem execRulebookBuild_builds {rb : Fin 256} {copy : Fin 2} {r : RbDecl} (hr : s.runs) (hs : s.books.scanned = true)
    (hd : s.frame.comp.dropped = false) (hf : s.books.rbs.find? (fun r => s.books.ready r copy.val) = some r) (hrb : r.rb = rb.val) :
    execRulebookBuild rb copy s = .next (s.buildBook r copy.val).publishBooks := by
  refine next_congr ((State.clocked_runs hr _).trans ?_)
  dsimp only
  rw [State.scan_scanned hs, if_neg (by simp [hd]), hf]
  exact if_pos hrb

/-! SEGMENT_WRITE (R133, R210). -/

/-- An update that keeps the test of an element commutes with finding it. -/
theorem find?_modifyFirst {α : Type} {p : α → Bool} {f : α → α} (hf : ∀ x, p x = true → p (f x) = true) (l : List α) :
    (modifyFirst p f l).find? p = (l.find? p).map f := by
  induction l with
  | nil => rfl
  | cons x l ih =>
    rw [modifyFirst]
    by_cases hx : p x = true
    · rw [if_pos hx, List.find?_cons_of_pos (hf x hx), List.find?_cons_of_pos hx]
      rfl
    · rw [if_neg hx, List.find?_cons_of_neg hx, List.find?_cons_of_neg hx, ih]

/-- One credit less, and one slot more that is filled (R133, R210). -/
def Credit.spend (slot : Nat) (x : Credit) : Credit := { x with n := x.n - 1, held := x.held ++ [slot] }

theorem creditOf_spend (l : List Credit) (core part win slot : Nat) :
    creditOf (modifyFirst (fun y => y.core == core && y.part == part && y.win == win) (Credit.spend slot) l) core part win =
      (creditOf l core part win).map (Credit.spend slot) :=
  find?_modifyFirst (f := Credit.spend slot) (p := fun y : Credit => y.core == core && y.part == part && y.win == win) (fun _ h => h) l

/-- A segment of a rule book has gone out to a core under the credits of its window, into a slot of the ring. -/
def State.segmentSent (s : State) (mine : Segment → Bool) (g : Segment) (r : RbDecl) (c : Fin 16) (x : Credit) (slot : Nat) : State :=
  (((s.newItem.feWrite c r.part r.win x.gen (32800 * slot + 32) g.body false).feWrite c r.part r.win x.gen (32800 * slot)
    (g.header s.books.frame) true).modBooks (fun b => { b with
      queue := removeFirst mine b.queue
      emitted := b.emitted + g.entries.length
      credits := modifyFirst (fun y => y.core == c.val && y.part == r.part && y.win == r.win) (Credit.spend slot) b.credits })).publishBooks

theorem execSegmentWrite_sends {rb : Fin 256} {copy : Fin 2} {owner : Fin 16} {g : Segment} {r : RbDecl} {o : SetDecl} {x : Credit}
    {mine : Segment → Bool} (hmine : mine = fun g => g.rb == rb.val && g.copy == copy.val && g.owner == owner.val) {c : Fin 16}
    (hc : c = s.ownerCore o copy.val owner.val) {slot : Nat} (hslot : slot = g.seq % Nat.max 1 ((s.cores[c]).pad.win r.part r.win).slots)
    (hr : s.runs) (hs : s.books.scanned = true) (hd : s.frame.comp.dropped = false) (hg : s.books.queue.find? mine = some g)
    (hrb : rbIn s.books.rbs rb.val = some r) (ho : setIn s.books.sets r.out = some o) (hx : s.books.credit c.val r.part r.win = some x)
    (hn : x.n ≠ 0) (hh : x.held.contains slot = false) :
    execSegmentWrite rb copy owner s = .next (s.segmentSent mine g r c x slot) := by
  subst hmine hc hslot
  refine next_congr ((State.clocked_runs hr _).trans ?_)
  simp only [State.scan_scanned hs]
  rw [if_neg (by simp [hd]), hg, hrb]
  dsimp only
  rw [ho]
  dsimp only
  rw [hx]
  refine (if_neg ?_).trans ?_
  · rintro (h | h)
    · exact hn h
    · rw [hh] at h
      cases h
  · rw [State.segmentSent, State.feWrite_books]
    rfl

theorem State.segmentSent_books {mine : Segment → Bool} {g : Segment} {r : RbDecl} {c : Fin 16} {x : Credit} {slot : Nat} :
    let t := s.segmentSent mine g r c x slot
    t.books.queue = removeFirst mine s.books.queue ∧ t.books.emitted = s.books.emitted + g.entries.length ∧
      t.books.credit c.val r.part r.win = (s.books.credit c.val r.part r.win).map (Credit.spend slot) := by
  dsimp only
  rw [State.segmentSent, State.publishBooks_books, State.modBooks_books, State.feWrite_books, State.feWrite_books]
  exact ⟨rfl, rfl, creditOf_spend ..⟩

/-! FIRST_RESOLUTION_REPORT (R126). -/

theorem State.publishCells_dict_only (s : State) : ∃ x, s.publishCells = { s with dict := x } := by
  unfold State.publishCells
  extract_lets c put t
  obtain ⟨x, h⟩ : ∃ x, t = { s with dict := x } := foldl_setNum_dict_only (fun p : Nat × Int => od 0x4F00 p.1) (fun p => p.2) _ s
  obtain ⟨y, h'⟩ := foldl_setNum_dict_only (fun g : Nat => od 0x4F01 (g + 1)) (fun g => (c.liveG.getD g 0 : Nat)) (List.range 4) t
  exact ⟨y, h'.trans (by rw [h])⟩

/-- The report of a frame releases sweeps and starts a pass; the entries stay (R103, R105). -/
theorem State.reportDone_reports (h : s.frame.comp.reported = false) (hn : s.frame.comp.n ≠ 0) :
    s.reportDone.books = s.books ∧ s.reportDone.frame.comp.reported = true ∧ s.reportDone.cells.entries = s.cells.entries := by
  unfold State.reportDone
  rw [if_neg (by simp [h, hn])]
  obtain ⟨x, hx⟩ := State.publishCells_dict_only _
  dsimp only
  rw [hx]
  exact ⟨rfl, rfl, rfl⟩

theorem execFirstResolutionReport_reports (hr : s.runs) (hs : s.books.scanned = true) (h : s.frame.comp.reported = false)
    (hn : s.frame.comp.n ≠ 0) (hf : s.books.firstDone = true) (cycles : Nat) :
    execFirstResolutionReport cycles s = .next (s.modBooks (fun b => { b with firstRes := cycles })).reportDone.publishBooks := by
  refine next_congr ((State.clocked_runs hr _).trans ?_)
  dsimp only
  rw [State.scan_scanned hs]
  exact if_neg (by simp [h, hn, hf])

/-! SPECULATIVE_BUILD and EPOCH_SQUASH (R136-R139, R141). -/

theorem modifyFirst_append_last {α : Type} {p : α → Bool} {f : α → α} {l : List α} {x : α}
    (hl : ∀ y ∈ l, p y = false) (hx : p x = true) :
    modifyFirst p f (l ++ [x]) = l ++ [f x] := by
  induction l with
  | nil => exact if_pos hx
  | cons y l ih =>
    rw [List.cons_append, modifyFirst, if_neg (by simp [hl y List.mem_cons_self]), ih fun z hz => hl z (List.mem_cons_of_mem _ hz)]
    rfl

/-- A free epoch is held by no build (R137). -/
theorem Books.freeEpoch_free {b : Books} {n : Nat} (h : b.freeEpoch = some n) : ∀ e ∈ b.epochs, (e.num == n) = false := by
  have hn := List.find?_some h
  simpa using hn

theorem State.specStop_epochs (s : State) :
    s.specStop.books.epochs = s.books.epochs ∧ s.specStop.books.lastEpoch = s.books.lastEpoch := by
  unfold State.specStop
  split
  · exact ⟨rfl, rfl⟩
  · rw [State.raiseComp_books]
    exact ⟨rfl, rfl⟩

theorem foldl_modCount_counts_only {β : Type} (rb copy : β → Nat) (f : β → RbCount → RbCount) (l : List β) (b : Books) :
    ∃ c, l.foldl (fun b x => b.modCount (rb x) (copy x) (f x)) b = { b with counts := c } :=
  foldl_keep (P := fun u : Books => ∃ c, u = { b with counts := c }) (fun u x ⟨_, h⟩ => by
    obtain ⟨c, hc⟩ := u.modCount_counts_only (rb x) (copy x) (f x)
    exact ⟨c, hc.trans (by rw [h])⟩) ⟨b.counts, rfl⟩

theorem foldl_countProbes_probes (l : List (SetDecl × List RowRec)) (s : State) :
    ∃ p, (l.foldl (fun s x => s.countProbes x.1 x.2) s).books = { s.books with probes := p } :=
  foldl_keep (P := fun t : State => ∃ p, t.books = { s.books with probes := p }) (fun t x ⟨_, h⟩ => by
    obtain ⟨⟨p, hp⟩, -⟩ := t.countProbes_probes x.1 x.2
    exact ⟨p, hp.trans (by rw [h])⟩) ⟨_, rfl⟩

/-- Lane results of a build reach no other epoch, and at most as many as come (R137). -/
theorem State.specRun_epochs (s : State) (d : SetDecl) (parent : List RowRec) (e : Epoch) (n : Nat) :
    (∃ reached fill, reached ≤ e.reached + n ∧ (s.specRun d parent e n).books.epochs =
      modifyFirst (fun x => x.num == e.num) (fun x => { x with reached := reached, books := fill }) s.books.epochs) ∧
    (s.specRun d parent e n).books.lastEpoch = s.books.lastEpoch := by
  unfold State.specRun
  extract_lets b work sizes total reached old probes t
  generalize specFill _ _ _ = filled
  obtain ⟨fill, full⟩ := filled
  dsimp -zeta only
  extract_lets got u
  obtain ⟨p, ht⟩ : ∃ p, t.books = { s.books with probes := p } := foldl_countProbes_probes probes.1 s
  have hu : u.books.epochs = modifyFirst (fun x => x.num == e.num) (fun x => { x with reached := reached, books := fill }) s.books.epochs ∧
      u.books.lastEpoch = s.books.lastEpoch := by
    obtain ⟨c, hc⟩ := foldl_modCount_counts_only (fun x : Nat × Nat => x.1) (fun _ => e.copy)
      (fun x c => { c with buffered := c.buffered + (x.2 - ((e.books.find? (fun y => y.1 == x.1)).map (·.2)).getD 0) }) fill t.books
    unfold u
    rw [State.modBooks_books]
    dsimp only
    rw [hc, ht]
    exact ⟨rfl, rfl⟩
  obtain ⟨he, hl⟩ := ite_keep (P := fun v : State => v.books.epochs = u.books.epochs ∧ v.books.lastEpoch = u.books.lastEpoch)
    (c := full = true) u.specStop_epochs ⟨rfl, rfl⟩
  exact ⟨⟨reached, fill, Nat.min_le_right .., he.trans hu.1⟩, hl.trans hu.2⟩

/-- The build of a predicted set under the epoch it takes, before the first lane result (R137). -/
def State.newEpoch (s : State) (d : SetDecl) (copy n : Nat) (cells : List RowRec) : Epoch :=
  { num := n, set := d.set, copy := copy, frame := s.books.frame, cells := provisional cells
    books := (s.books.specBooks d.set).map (fun r => (r.rb, 0)) }

/-- A speculative build has taken its epoch and its first lane results (R137, R139). -/
def State.specBegun (s : State) (d : SetDecl) (copy n : Nat) (parent cells : List RowRec) (results : Nat) : State :=
  (s.modBooks (fun b => { b with lastEpoch := n, epochs := b.epochs ++ [s.newEpoch d copy n cells] })).specRun d parent
    (s.newEpoch d copy n cells) results

section
variable {set : Fin 64} {copy : Fin 2} {d : SetDecl} {par : SetRows} {n : Nat} {cells : List RowRec}

theorem execSpeculativeBuild_begins (hr : s.runs) (hs : s.books.scanned = true) (hd : s.frame.comp.dropped = false)
    (hset : setIn s.books.sets set.val = some d) (ho : s.books.specOff = false) (hp : s.books.rowsOf d.parent copy.val = some par)
    (hdec : d.isDecided = true) (hc : d.copies.contains copy.val = true) (hno : (s.books.rowsOf d.set copy.val).isNone = true)
    (he : s.books.epochs.find? (fun e => e.set == d.set && e.copy == copy.val && !e.released && e.frame == s.books.frame) = none)
    (hcells : s.predicted d copy.val par.rows = some cells) (hn : s.books.freeEpoch = some n) (hl : s.books.epochs.length < 64)
    (hb : s.books.buffered < 524288) (results : Nat) :
    execSpeculativeBuild set copy results s = .next (s.specBegun d copy.val n par.rows cells results) := by
  refine next_congr ((State.clocked_runs hr _).trans ?_)
  dsimp only
  rw [State.scan_scanned hs, if_neg (by simp [hd, ho]), hset]
  dsimp only
  rw [hp]
  dsimp only
  rw [if_neg (by simp [hdec, Option.isNone_iff_eq_none.1 hno]; simpa using hc), he]
  dsimp only
  rw [hcells]
  dsimp only
  rw [hn]
  exact if_neg (by omega)

theorem State.specBegun_epochs (hn : s.books.freeEpoch = some n) (copy : Nat) (parent : List RowRec) (results : Nat) :
    ∃ reached fill, reached ≤ results ∧ (s.specBegun d copy n parent cells results).books.epochs =
      s.books.epochs ++ [{ s.newEpoch d copy n cells with reached := reached, books := fill }] := by
  obtain ⟨⟨reached, fill, hle, h⟩, -⟩ := (s.modBooks (fun b => { b with
    lastEpoch := n, epochs := b.epochs ++ [s.newEpoch d copy n cells] })).specRun_epochs d parent (s.newEpoch d copy n cells) results
  refine ⟨reached, fill, hle.trans_eq (Nat.zero_add _), h.trans ?_⟩
  exact modifyFirst_append_last (Books.freeEpoch_free hn) (beq_self_eq_true n)

/-- Under mode ALL every candidate is predicted (R136). -/
theorem State.predicted_all {copy : Nat} {parent : List RowRec} (h : s.predicted d copy parent = some cells) (hm : d.mode = 1) :
    cells = s.books.candidates d parent := by
  unfold State.predicted at h
  dsimp only at h
  split at h
  · cases h
  · rw [hm] at h
    exact (Option.some.inj h).symm

end

theorem execEpochSquash_squashes {epoch : Fin 256} {e : Epoch} (hr : s.runs)
    (he : s.books.epochs.find? (fun e => e.num == epoch.val) = some e) (hd : s.squashDue e = true) :
    execEpochSquash epoch s = .next (s.modBooks (fun b => { b with
      epochs := b.epochs.filter (fun x => x.num != epoch.val), squashes := b.squashes + 1 })).publishBooks := by
  have hnum : e.num = epoch.val := by simpa using List.find?_some he
  refine next_congr ((State.clocked_runs hr _).trans ?_)
  rw [he, ← hnum]
  exact if_neg (by simp [hd])

/-- Settles O45: each command is its effect in a known branch; what an exported row sends is read off the mesh and the key word, the rest off the
builder's records. -/
theorem theBuilderBuildsAndExports : Obligations.TheBuilderBuildsAndExports := by
  unfold Obligations.TheBuilderBuildsAndExports
  intro s hr hs hd
  refine ⟨?_, ?_, ?_, ?_, ?_, ?_⟩
  · intro set d x r hset hn sent goes
    refine ⟨fun h0 hm => ?_, fun h0 hk copies hc hm => ?_⟩
    · have hex := execCellRowExport_sends hr hs hd hset hn h0 hm
      refine ⟨⟨_, hex, State.cellRowSent_sent⟩, fun hB ht => ?_⟩
      obtain ⟨tag, hmesh⟩ := State.cellRowSent_mesh (x := x) (r := r) hB ht
      rw [show d.copies = [0] from if_pos hB] at hm
      exact ⟨_, _, hex, State.cellRowSent_sent, hmesh, rfl, ⟨rfl, rfl, rfl, rfl, State.exportMsg_gen hm⟩,
        Nat.mul_div_cancel _ (by decide)⟩
    · have hex := execKeyRecordExport_sends hr hs hd hset hn h0 hk hc hm
      refine ⟨⟨_, hex, State.keyRecordSent_sent⟩, ?_⟩
      rintro copy rfl ht
      obtain ⟨tag, hmesh⟩ := State.keyRecordSent_mesh (d := d) (x := x) (r := r) (copy := copy) ht
      exact ⟨_, _, hex, State.keyRecordSent_sent, hmesh, Books.keyWord_length, ⟨rfl, rfl, rfl, rfl, State.exportMsg_gen hm⟩,
        Nat.mul_div_mul_right (m := 8) _ 4 (by decide), Books.keyWord_own, fun q k h4 hq hl => Books.keyWord_found h4 hq hl⟩
  · intro rb copy r o i outs ins hf hrb ho hi hout hin
    obtain ⟨hfab, hbuilt, hes⟩ := State.buildBook_builds ho hi hout hin
    refine ⟨_, execRulebookBuild_builds hr hs hd hf hrb, ?_, (State.publishBooks_fab _).trans hfab, fun hrep => ?_⟩
    · rw [State.publishBooks_books, hbuilt, hrb]
    · rw [State.publishBooks_books, hes, RbDecl.parts_unrepaired hrep, hrb]
      rfl
  · intro rb copy owner g r o c mine hg hrb ho core slot hc hn hh
    have hex := execSegmentWrite_sends (mine := mine) (c := core) (slot := slot) rfl rfl rfl hr hs hd hg hrb ho hc hn hh
    obtain ⟨hq, hem, hcr⟩ := State.segmentSent_books (s := s) (mine := mine) (g := g) (r := r) (c := core) (x := c) (slot := slot)
    exact ⟨_, hex, hq, hem, hcr.trans (congrArg (Option.map (Credit.spend slot)) hc)⟩
  · intro cycles h hn hf
    obtain ⟨hb, hrep, hent⟩ := State.reportDone_reports (s := s.modBooks (fun b => { b with firstRes := cycles })) h hn
    refine ⟨_, execFirstResolutionReport_reports hr hs h hn hf cycles, ?_, ?_, ?_⟩
    · rw [State.publishBooks_books, hb]; rfl
    · rw [State.publishBooks_frame, hrep]
    · rw [State.publishBooks_cells, hent]; rfl
  · intro set copy d par n results cells hset ho hp hdec hc hno he hcells hn hl hb
    obtain ⟨reached, fill, hle, hep⟩ := State.specBegun_epochs (d := d) (cells := cells) hn copy.val par.rows results
    refine ⟨_, _, execSpeculativeBuild_begins hr hs hd hset ho hp hdec hc hno he hcells hn hl hb results, hep,
      rfl, rfl, rfl, rfl, rfl, hle, (State.specRun_epochs ..).2, fun hm => congrArg provisional (State.predicted_all hcells hm)⟩
  · intro epoch e he hdue
    refine ⟨_, execEpochSquash_squashes hr he hdue, ?_, ?_⟩ <;> rw [State.publishBooks_books] <;> rfl

end Sys2Proof.Machine
end

