-- ==== Sys2Proof/Proofs/Arrivals.lean ====
section
/-! SUPPORT. A message at its destination stop (R266-R268, R273, R275): what a clean one and one with a lost header leave, and what the end of
a request changes. -/

namespace Sys2Proof.Machine

variable {s : State} {m : Msg} {ty : Nat}

theorem State.arrive_lands (h : s.lands ty m) (hdr : Travel) : s.arrive ty m hdr = (s.landed ty m).travelled hdr := by
  have hd : s.deliverMsg ty m = (s.landed ty m, true) := Prod.ext rfl h.2
  rw [State.arrive, hd]

/-- A message whose header no hop found in error is taken, in the state in which it has left the fabric. -/
theorem State.arrive_clean (h : s.lands ty m) : s.arrive ty m {} = (s.landed ty m, true) := State.arrive_lands h {}

/-- A message whose header a hop found uncorrectable is counted and not taken (R273). -/
theorem State.arrive_lost (h : s.lands ty m) :
    s.arrive ty m { lost := true } = ((s.landed ty m).countRaise (od 0x18F0 2) 0x1803, false) := State.arrive_lands h { lost := true }

/-- Event 0x7808's count is no fabric counter. -/
theorem fabricCount_ne_lost {j : Nat} (h : j < 256) : od 0x18F0 j ≠ od 0x7900 5 := by unfold od; omega

theorem State.num_raiseIng {k : Nat} (c i v : Nat) (b : Bool) (h : k ≠ od 0x7900 5) : (s.raiseIng c i v b).num k = s.num k :=
  State.num_of_obj ((Judges.refl s).raiseIng.obj k h)

/-! The end of a request (R269, R271-R275). -/

/-- Where no request waits for a tag, the end of one frees its tag and does nothing else. -/
theorem State.reqDone_unheld (h : s.fab.held = []) (stop tag : Nat) :
    s.reqDone stop tag =
      { s with fab := { s.fab with reqs := removeFirst (fun q => q.stop == stop && q.tag == tag) s.fab.reqs } } := by
  simp only [State.reqDone, h, List.find?_nil]

theorem State.closeIfFree_cores_only (s : State) (c : Fin 16) : ∃ k, s.closeIfFree c = { s with cores := k } := by
  unfold State.closeIfFree
  dsimp only
  split
  · split
    · exact ⟨_, rfl⟩
    · exact ⟨_, rfl⟩
  · exact ⟨_, rfl⟩

/-- A WCLOSE that looks again changes cores alone. -/
theorem State.recheck_cores_only (s : State) (q : Req) : ∃ k, s.recheck q = { s with cores := k } := by
  unfold State.recheck
  split
  · exact s.closeIfFree_cores_only _
  · exact ⟨_, rfl⟩

@[simp] theorem State.recheck_fab (s : State) (q : Req) : (s.recheck q).fab = s.fab := by
  obtain ⟨k, h⟩ := s.recheck_cores_only q
  rw [h]

@[simp] theorem State.recheck_dict (s : State) (q : Req) : (s.recheck q).dict = s.dict := by
  obtain ⟨k, h⟩ := s.recheck_cores_only q
  rw [h]

/-- Data that come change cores alone. -/
theorem State.getData_cores_only (s : State) (q : Req) (d : Bytes) (last : Bool) : ∃ k, s.getData q d last = { s with cores := k } := by
  unfold State.getData
  split
  · exact ⟨_, rfl⟩
  · exact ⟨_, rfl⟩

@[simp] theorem State.getData_fab (s : State) (q : Req) (d : Bytes) (last : Bool) : (s.getData q d last).fab = s.fab := by
  obtain ⟨k, h⟩ := s.getData_cores_only q d last
  rw [h]

@[simp] theorem State.getData_dict (s : State) (q : Req) (d : Bytes) (last : Bool) : (s.getData q d last).dict = s.dict := by
  obtain ⟨k, h⟩ := s.getData_cores_only q d last
  rw [h]

/-- A request that ends leaves the list of requests, and no object changes. -/
theorem State.reqDone_recheck (h : s.fab.held = []) (stop tag : Nat) (q : Req) :
    ((s.reqDone stop tag).recheck q).fab.reqs = removeFirst (fun q => q.stop == stop && q.tag == tag) s.fab.reqs ∧
      ((s.reqDone stop tag).recheck q).dict = s.dict := by
  rw [State.recheck_fab, State.recheck_dict, State.reqDone_unheld h]
  exact ⟨rfl, rfl⟩

/-- A request other than a READ or the builder's ends unanswered with nothing more to do (R275). -/
theorem State.unanswered_plain {q : Req} (hq : q.type ≠ 2) (hs : q.stop ≠ stopFE) : s.unanswered q = s := by
  simp only [State.unanswered, if_neg hq, if_neg hs]

/-- The exception of a failed request other than a READ (R243). -/
theorem State.reqExcept_plain {q : Req} {n : Nat} {r : TaskRun} (hq : q.type ≠ 2) (hn : q.core = some n) (hr : q.task = some r) (code : Nat) :
    s.reqExcept q code = s.exceptRun (coreNo n) r code q.pc := by
  simp only [State.reqExcept, hn, hr, if_neg hq]

/-- A STALE request other than a READ or the builder's is counted at its core (R243). -/
theorem State.nacked_stale {q : Req} {n : Nat} (hq : q.type ≠ 2) (hs : q.stop ≠ stopFE) (hn : q.core = some n) :
    s.nacked q 1 = s.bump (odCore 0x7100 (coreNo n) 7) := by
  simp only [State.nacked, hn, State.unanswered_plain hq hs]

/-- A late response is counted and changes neither requests nor cores (R275). -/
theorem State.lateResponse_counts (s : State) (stop tag : Nat) (last : Bool) :
    (s.lateResponse stop tag last).fab.reqs = s.fab.reqs ∧ (s.lateResponse stop tag last).cores = s.cores ∧
      (s.lateResponse stop tag last).num (od 0x18F0 7) = Od.counter (od 0x18F0 7) (s.num (od 0x18F0 7) + 1) := by
  have hn := s.num_bump (od 0x18F0 7) 1
  cases last
  · exact ⟨rfl, rfl, hn⟩
  · exact ⟨rfl, rfl, hn⟩

/-- A counted event of the fabric (R266, R273, R274). -/
theorem State.countRaise_fabric (s : State) {j code : Nat} (h : j < 256) :
    (s.countRaise (od 0x18F0 j) code).fab = s.fab ∧ (s.countRaise (od 0x18F0 j) code).cores = s.cores ∧
      (s.countRaise (od 0x18F0 j) code).books = s.books ∧
      (s.countRaise (od 0x18F0 j) code).num (od 0x18F0 j) = Od.counter (od 0x18F0 j) (s.num (od 0x18F0 j) + 1) :=
  ⟨State.countRaise_fab .., State.countRaise_cores .., State.countRaise_books .., State.num_countRaise s _ _ _ (fabricCount_ne_lost h)⟩

end Sys2Proof.Machine
end

