-- ==== Sys2Proof/Proofs/Responses.lean ====
section
/-! SUPPORT and THEOREMS. Responses, credits and timeouts (R133, R241-R243, R271-R275): O37. -/

namespace Sys2Proof.Machine

variable {s : State} {m : Msg} {q : Req}

/-! RDATA, ACK and NACK. -/

theorem execMsgRdata_last (h : s.lands 3 m) (hq : (s.landed 3 m).reqOf m.dstop m.tag = some q) (hm : m.count = true) :
    execMsgRdata m {} s = .next ((((s.landed 3 m).getData q m.data true).reqDone m.dstop m.tag).recheck q) := by
  simp only [execMsgRdata, State.arrive_clean h, hq, hm, if_true]

theorem execMsgRdata_more (h : s.lands 3 m) (hq : (s.landed 3 m).reqOf m.dstop m.tag = some q) (hm : m.count = false) :
    execMsgRdata m {} s = .next ((s.landed 3 m).getData q m.data false) := by
  simp only [execMsgRdata, State.arrive_clean h, hq, hm, Bool.false_eq_true, if_false]

theorem execMsgRdata_late (h : s.lands 3 m) (hq : (s.landed 3 m).reqOf m.dstop m.tag = none) :
    execMsgRdata m {} s = .next ((s.landed 3 m).lateResponse m.dstop m.tag m.count) := by
  simp only [execMsgRdata, State.arrive_clean h, hq]

theorem execMsgAck_answers (h : s.lands 4 m) (hq : (s.landed 4 m).reqOf m.dstop m.tag = some q) :
    execMsgAck m {} s = .next (((s.landed 4 m).reqDone m.dstop m.tag).recheck q) := by
  simp only [execMsgAck, State.arrive_clean h, hq]

theorem execMsgAck_late (h : s.lands 4 m) (hq : (s.landed 4 m).reqOf m.dstop m.tag = none) :
    execMsgAck m {} s = .next ((s.landed 4 m).lateResponse m.dstop m.tag) := by
  simp only [execMsgAck, State.arrive_clean h, hq]

/-- A reason that R274 reserves is counted, whatever request it names. -/
theorem execMsgNack_reserved (h : s.lands 5 m) (hr : m.reason = 0 ∨ 6 < m.reason) :
    execMsgNack m {} s = .next ((s.landed 5 m).countRaise (od 0x18F0 4) 0x1808) := by
  simp only [execMsgNack, State.arrive_clean h, if_pos hr]

theorem execMsgNack_answers (h : s.lands 5 m) (hr : 1 ≤ m.reason) (hr' : m.reason ≤ 6)
    (hq : (s.landed 5 m).reqOf m.dstop m.tag = some q) :
    execMsgNack m {} s = .next ((((s.landed 5 m).reqDone m.dstop m.tag).nacked q m.reason).recheck q) := by
  have hn : ¬ (m.reason = 0 ∨ 6 < m.reason) := by omega
  simp only [execMsgNack, State.arrive_clean h, if_neg hn, hq]

theorem execMsgNack_late (h : s.lands 5 m) (hr : 1 ≤ m.reason) (hr' : m.reason ≤ 6)
    (hq : (s.landed 5 m).reqOf m.dstop m.tag = none) :
    execMsgNack m {} s = .next ((s.landed 5 m).lateResponse m.dstop m.tag) := by
  have hn : ¬ (m.reason = 0 ∨ 6 < m.reason) := by omega
  simp only [execMsgNack, State.arrive_clean h, if_neg hn, hq]

/-- A TAG or ECC answer raises the exception of its code at the sender's core (R243). -/
theorem execMsgNack_excepts (h : s.lands 5 m) (hq : (s.landed 5 m).reqOf m.dstop m.tag = some q) (ht : q.type ≠ 2) {n : Nat} {r : TaskRun}
    (hn : q.core = some n) (hr : q.task = some r) {code : Nat} (hc : m.reason = 3 ∧ code = 8 ∨ m.reason = 4 ∧ code = 7) :
    execMsgNack m {} s = .next ((((s.landed 5 m).reqDone m.dstop m.tag).exceptRun (coreNo n) r code q.pc).recheck q) := by
  rw [execMsgNack_answers h (by omega) (by omega) hq]
  obtain ⟨hm, rfl⟩ | ⟨hm, rfl⟩ := hc
  · rw [hm, State.nacked, State.reqExcept_plain ht hn hr]
  · rw [hm, State.nacked, State.reqExcept_plain ht hn hr]

/-! CREDIT (R241). -/

/-- What n credits of a generation make of those that a stop holds for the window. -/
def Credit.grant (gen n : Nat) (x : Credit) : Credit :=
  { x with gen := gen, n := if x.gen = gen then x.n + n else n, held := if x.gen = gen then x.held.drop n else [] }

/-- Credits of a window that a stop knows: those of the same generation add up, a new generation starts again. -/
theorem creditOf_grantCredit_known {l : List Credit} {core part win : Nat} {x : Credit} (h : creditOf l core part win = some x) (gen n : Nat) :
    (creditOf (grantCredit l core part win gen n) core part win).map (fun y => (y.gen, y.n)) =
      some (gen, (if x.gen = gen then x.n else 0) + n) := by
  have ha : l.any (fun y => y.core == core && y.part == part && y.win == win) = true :=
    List.any_eq_true.2 ⟨x, List.mem_of_find?_eq_some h,
      List.find?_some (p := fun y : Credit => y.core == core && y.part == part && y.win == win) h⟩
  have hg : creditOf (grantCredit l core part win gen n) core part win = some (x.grant gen n) := by
    rw [grantCredit, if_pos ha]
    exact (find?_modifyFirst (f := Credit.grant gen n) (p := fun y : Credit => y.core == core && y.part == part && y.win == win)
      (fun _ hp => hp) l).trans (congrArg (Option.map (Credit.grant gen n)) h)
  rw [hg, Option.map_some, Credit.grant]
  split
  · rfl
  · rw [Nat.zero_add]

/-- The first credits of a window. -/
theorem creditOf_grantCredit_new {l : List Credit} {core part win : Nat} (h : creditOf l core part win = none) (gen n : Nat) :
    creditOf (grantCredit l core part win gen n) core part win = some { core := core, part := part, win := win, gen := gen, n := n } := by
  have ha : ¬ l.any (fun y => y.core == core && y.part == part && y.win == win) = true := fun ha => by
    obtain ⟨y, hy, hp⟩ := List.any_eq_true.1 ha
    exact List.find?_eq_none.1 h y hy hp
  rw [grantCredit, if_neg ha, creditOf, List.find?_append, show List.find? _ l = none from h]
  simp

/-- Credits go to the builder or to Peony, by the stop that the message came to. -/
theorem execMsgCredit_grants (h : s.lands 6 m) {c : Fin 16} (hc : stopCore m.sstop = some c) :
    ∃ t, execMsgCredit m {} s = .next t ∧
      (m.dstop = stopFE → t.books.credits = grantCredit (s.landed 6 m).books.credits c.val m.part m.win m.gen m.tag) ∧
      (m.dstop = stopPE → t.peony.credits = grantCredit (s.landed 6 m).peony.credits c.val m.part m.win m.gen m.tag) := by
  simp only [execMsgCredit, State.arrive_clean h, hc]
  refine ⟨_, rfl, fun hd => ?_, fun hd => ?_⟩
  · rw [if_pos hd, State.modBooks_books]
  · rw [hd, if_neg (by decide), if_pos rfl]

/-! REQUEST_TIMEOUT (R274, R275). -/

/-- The object that counts the timeouts of a request: of one to the module itself, or of one to another device (R274). -/
def State.timeoutCount (s : State) (q : Req) : Nat := od 0x18F0 (if q.ddev = s.device then 5 else 6)

/-- The state in which a request has waited its limit: it is removed and its tag may still see a late answer. -/
def State.timedOut (s : State) (stop tag : Nat) : State :=
  { s with fab := { s.fab with
    reqs := removeFirst (fun q => q.stop == stop && q.tag == tag) s.fab.reqs
    late := s.fab.late ++ [(stop, tag)] } }

theorem execRequestTimeout_expires {stop : Fin 25} {tag instant : Nat} (hr : s.runs) (hh : s.fab.held = [])
    (hq : s.reqOf stop.val tag = some q) (ht : q.type ≠ 2) (hs : q.stop ≠ stopFE)
    (hd : q.since + s.reqLimit q ≤ Nat.max s.frame.now instant) :
    execRequestTimeout stop tag instant s = .next
      (((((s.at instant).timedOut stop.val tag).bump (s.timeoutCount q)).raiseIng 0x1804 0xFF q.ddev).recheck q) := by
  have hq' : (s.at instant).reqOf stop.val tag = some q := hq
  have hd' : ¬ (s.at instant).frame.now < q.since + (s.at instant).reqLimit q := Nat.not_lt.2 hd
  refine next_congr ((State.clocked_runs hr _).trans ?_)
  simp only [hq', if_neg hd', State.unanswered_plain ht hs, State.reqDone_unheld (s := s.at instant) hh]
  rfl

theorem timeoutCount_ne_lost (s : State) (q : Req) : s.timeoutCount q ≠ od 0x7900 5 := by
  unfold State.timeoutCount
  split
  · exact fabricCount_ne_lost (by decide)
  · exact fabricCount_ne_lost (by decide)

/-- Settles O37: each response is its effect in a known branch; the request ends by `State.reqDone_recheck`, the credits add up by
`creditOf_grantCredit_known` and begin by `creditOf_grantCredit_new`. -/
theorem responsesCompleteTheirRequest : Obligations.ResponsesCompleteTheirRequest := by
  unfold Obligations.ResponsesCompleteTheirRequest
  intro m s
  refine ⟨?_, ?_⟩
  · rintro ty s0 h rfl hh gone
    refine ⟨fun q hq => ⟨?_, ?_, ?_, ?_, ?_⟩, fun hq => ⟨?_, ?_, ?_⟩, ?_, ?_⟩
    · rintro rfl hm
      obtain ⟨hreqs, hdict⟩ := State.reqDone_recheck (s := (s.landed 3 m).getData q m.data true) (by rwa [State.getData_fab]) m.dstop m.tag q
      exact ⟨_, execMsgRdata_last h hq hm, by rwa [State.getData_fab] at hreqs, hdict.trans (State.getData_dict ..)⟩
    · rintro rfl hm
      exact execMsgRdata_more h hq hm
    · rintro rfl
      exact ⟨_, execMsgAck_answers h hq, State.reqDone_recheck hh ..⟩
    · rintro rfl hm ht hs n hn
      refine ⟨_, execMsgNack_answers h (by omega) (by omega) hq, ?_⟩
      rw [hm, State.nacked_stale ht hs hn, State.reqDone_unheld hh]
      exact ⟨congrArg Fabric.reqs (State.recheck_fab ..), (State.num_congr (State.recheck_dict ..) _).trans (State.num_bump ..)⟩
    · rintro rfl ht n r hn hr
      exact ⟨fun hm => execMsgNack_excepts h hq ht hn hr (.inl ⟨hm, rfl⟩), fun hm => execMsgNack_excepts h hq ht hn hr (.inr ⟨hm, rfl⟩)⟩
    · rintro rfl
      exact ⟨_, execMsgRdata_late h hq, State.lateResponse_counts ..⟩
    · rintro rfl
      exact ⟨_, execMsgAck_late h hq, State.lateResponse_counts ..⟩
    · rintro rfl hr hr'
      exact ⟨_, execMsgNack_late h hr hr' hq, State.lateResponse_counts ..⟩
    · rintro rfl hr
      obtain ⟨hfab, hcores, -, hnum⟩ := (s.landed 5 m).countRaise_fabric (j := 4) (code := 0x1808) (by decide)
      exact ⟨_, execMsgNack_reserved h hr, congrArg Fabric.reqs hfab, hcores, hnum⟩
    · rintro rfl c hc
      obtain ⟨t, ht, hfe, hpe⟩ := execMsgCredit_grants h hc
      refine ⟨t, ht, fun old new ho => ?_⟩
      have hnew : new = grantCredit old c.val m.part m.win m.gen m.tag := by
        rcases ho with ⟨hd, rfl, rfl⟩ | ⟨hd, rfl, rfl⟩
        · exact hfe hd
        · exact hpe hd
      subst hnew
      cases hx : creditOf old c.val m.part m.win with
      | none => rw [creditOf_grantCredit_new hx]; simp
      | some x => exact creditOf_grantCredit_known hx ..
  · intro hr hh stop tag instant q hq ht hs hd
    refine ⟨_, execRequestTimeout_expires hr hh hq ht hs hd, ?_, ?_, ?_⟩
    · rw [State.recheck_fab, State.raiseIng_fab]; rfl
    · rw [State.recheck_fab, State.raiseIng_fab]; rfl
    · rintro o rfl
      exact (State.num_congr (State.recheck_dict ..) _).trans
        ((State.num_raiseIng _ _ _ _ (timeoutCount_ne_lost s q)).trans (State.num_bump ..))

end Sys2Proof.Machine
end

