-- ==== Sys2Proof/Proofs/Collectives.lean ====
section
/-! SUPPORT and THEOREMS. The messages of the builder, Peony, top-k lists and groups (R135, R271, R273, R283, R285, R287): O38. -/

namespace Sys2Proof.Machine

variable {s : State} {m : Msg}

/-! Reports (R135). -/

/-- Of a list in which an element takes the place of all that `p` picks, `p` picks that element. -/
theorem find?_replaced {α : Type} {p : α → Bool} {x : α} (hx : p x = true) (l : List α) :
    (l.filter (fun y => !p y) ++ [x]).find? p = some x := by
  have hn : (l.filter (fun y => !p y)).find? p = none :=
    List.find?_eq_none.2 fun y hy hp => by simpa [hp] using (List.mem_filter.1 hy).2
  rw [List.find?_append, hn, Option.none_or, List.find?_cons_of_pos hx]

/-- The bytes of a report gathered with a message more. -/
def State.reportWith (s : State) (m : Msg) : Bytes :=
  padTo (32 * m.offset) (((s.books.asm.find? (fun x => x.1 == m.sstop)).map (·.2)).getD []) ++ m.data

/-- The state in which a stop's report has gathered a message more. -/
def State.reportGathered (s : State) (m : Msg) : State :=
  s.modBooks (fun b => { b with asm := b.asm.filter (fun x => x.1 != m.sstop) ++ [(m.sstop, s.reportWith m)] })

theorem execMsgReport_gathers (h : s.lands 7 m) (hm : m.count = false) :
    execMsgReport m {} .clean s = .next (((s.landed 7 m).reportGathered m).reply m none) := by
  simp only [execMsgReport, State.arrive_clean h, State.flitCount, hm, reduceCtorEq, Bool.false_eq_true, if_false]
  rfl

theorem State.reportGathered_asm (s : State) (m : Msg) :
    (s.reportGathered m).books.asm.find? (fun x => x.1 == m.sstop) = some (m.sstop, s.reportWith m) :=
  find?_replaced (p := fun x : Nat × Bytes => x.1 == m.sstop) (beq_self_eq_true m.sstop) s.books.asm

/-! Blocks of an exchange (R287). -/

/-- A message that is not its block's last brings no whole block. -/
theorem State.blockIn_partial (s : State) (ans : Bool) (hm : m.count = false) : (s.blockIn ans m).2 = none := by
  unfold State.blockIn
  dsimp only
  split
  · rfl
  · rw [hm]; rfl

theorem State.blockIn_tables (s : State) (ans : Bool) (m : Msg) : (s.blockIn ans m).1.peony.tables = s.peony.tables := by
  unfold State.blockIn
  dsimp only
  split
  · rfl
  · split
    · rfl
    · rfl

theorem execMsgA2aReq_gathers (h : s.lands 8 m) (hm : m.count = false) :
    execMsgA2aReq m {} s = .next ((s.landed 8 m).blockIn false m).1 := by
  have hb : (s.landed 8 m).blockIn false m = (((s.landed 8 m).blockIn false m).1, none) := Prod.ext rfl (State.blockIn_partial _ _ hm)
  simp only [execMsgA2aReq, State.arrive_clean h]
  rw [hb]

theorem execMsgA2aRow_gathers (h : s.lands 9 m) (hm : m.count = false) :
    execMsgA2aRow m {} s = .next ((s.landed 9 m).blockIn true m).1 := by
  have hb : (s.landed 9 m).blockIn true m = (((s.landed 9 m).blockIn true m).1, none) := Prod.ext rfl (State.blockIn_partial _ _ hm)
  simp only [execMsgA2aRow, State.arrive_clean h]
  rw [hb]

/-- A message that follows the one before adds its data to its sender's block. -/
theorem State.blockIn_follows {ans : Bool} (hm : m.count = false) {b : PBlock}
    (h : s.peony.blocks.find? (fun b => (b.dev == m.sdev && b.answer == ans) && b.next == m.tag) = some b) :
    (s.blockIn ans m).1.peony.blocks.find? (fun b => b.dev == m.sdev && b.answer == ans) =
      some { b with next := b.next + 1, data := b.data ++ m.data } := by
  have hb : (b.dev == m.sdev && b.answer == ans) = true :=
    (Bool.and_eq_true _ _ ▸ List.find?_some (p := fun b : PBlock => (b.dev == m.sdev && b.answer == ans) && b.next == m.tag) h).1
  simp only [State.blockIn, h, hm, Bool.false_eq_true, if_false]
  exact find?_replaced (p := fun b : PBlock => b.dev == m.sdev && b.answer == ans)
    (x := { b with next := b.next + 1, data := b.data ++ m.data }) hb s.peony.blocks

section
variable {ans : Bool} (h : s.peony.blocks.find? (fun b => (b.dev == m.sdev && b.answer == ans) && b.next == m.tag) = none)
include h

/-- A message that follows none begins a block where a header opens it. -/
theorem State.blockIn_opens (hm : m.count = false) (ho : opensBlock m = true) :
    (s.blockIn ans m).1.peony.blocks.find? (fun b => b.dev == m.sdev && b.answer == ans) =
      some { dev := m.sdev, answer := ans, data := m.data } := by
  simp only [State.blockIn, h, ho, hm, Bool.false_eq_true, if_true, if_false]
  exact find?_replaced (p := fun b : PBlock => b.dev == m.sdev && b.answer == ans) (by simp) s.peony.blocks

/-- One that neither follows nor opens ends its sender's block. -/
theorem State.blockIn_breaks (ho : opensBlock m = false) :
    (s.blockIn ans m).1.peony.blocks.find? (fun b => b.dev == m.sdev && b.answer == ans) = none := by
  simp only [State.blockIn, h, ho, Bool.false_eq_true, if_false]
  exact List.find?_eq_none.2 fun b hb hp => by simpa [hp] using (List.mem_filter.1 hb).2

end

/-! List blocks (R285). -/

/-- The block that the summary of a list opens, on its way up or down the group's tree. -/
def State.listBlock (s : State) (m : Msg) (down : Bool) : ListBlock :=
  let g := m.offset / 65536 % 16
  { src := (s.grpIndex (s.group g) m.sdev m.sstop).getD 0, down := down, group := g, seq := m.offset / 256 % 256
    k := fieldLe m.data 0 2, fmt := fieldLe m.data 2 1, smallest := fieldLe m.data 3 1 == 1
    valid := fieldLe m.data 4 4, ties := fieldLe m.data 8 4, nan := fieldLe m.data 12 4 }

theorem State.blockMsg_summary (c : Fin 16) (down : Bool) (ht : m.tag = 0) (hm : m.count = false) :
    s.blockMsg c down m = s.modCore c (fun k => { k with blocks := k.blocks ++ [s.listBlock m down] }) := by
  simp only [State.blockMsg, ht, hm, Bool.false_eq_true, if_true, if_false]
  rfl

section
variable {c : Fin 16} (hc : stopCore m.dstop = some c)
include hc

theorem execMsgTkm_takes (h : s.lands 10 m) : execMsgTkm m {} s = .next ((s.landed 10 m).blockMsg c false m) := by
  simp only [execMsgTkm, State.arrive_clean h, hc]

theorem execMsgTkmFinal_takes (h : s.lands 13 m) : execMsgTkmFinal m {} s = .next ((s.landed 13 m).blockMsg c true m) := by
  simp only [execMsgTkmFinal, State.arrive_clean h, hc]

/-! Barriers (R283). -/

variable {g : Nat} (hg : g = m.offset / 65536 % 16)
include hg

theorem execMsgBarArrive_waits (h : s.lands 11 m) {s0 : State} (h0 : s0 = s.landed 11 m) (hv : grpValid (s0.group g) = true) {k : Nat}
    (hk : k = ((s0.group g).getD 12 0).toNat) (hn : s0.kget c k + 1 < grpSize (s0.group g)) :
    execMsgBarArrive m {} s = .next (s0.kadd c k 1) := by
  subst hg h0 hk
  simp only [execMsgBarArrive, State.arrive_clean h, hc, hv, Bool.not_true, Bool.false_eq_true, if_false,
    if_neg (Nat.not_le.2 hn)]

theorem execMsgBarArrive_releases (h : s.lands 11 m) {s0 : State} (h0 : s0 = s.landed 11 m) (hv : grpValid (s0.group g) = true) {k : Nat}
    (hk : k = ((s0.group g).getD 12 0).toNat) (hn : s0.kget c k + 1 = grpSize (s0.group g)) :
    execMsgBarArrive m {} s = .next ((s0.kset c k 0).release c g) := by
  subst hg h0 hk
  simp only [execMsgBarArrive, State.arrive_clean h, hc, hv, hn, Bool.not_true, Bool.false_eq_true, if_false, Nat.le_refl,
    Nat.sub_self, if_true]

theorem execMsgBarRelease_releases (h : s.lands 12 m) (hv : grpValid ((s.landed 12 m).group g) = true) :
    execMsgBarRelease m {} s = .next ((s.landed 12 m).release c g) := by
  subst hg
  simp only [execMsgBarRelease, State.arrive_clean h, hc, hv, if_true]

end

/-! Messages that are dropped (R271, R273). -/

theorem execMsgReservedType_drops (hf : s.fab.holds 15 m = false) (h : s.lands 14 m) :
    execMsgReservedType m {} s = .next ((s.landed 14 m).countRaise (od 0x18F0 4) 0x1808) := by
  simp only [execMsgReservedType, hf, Bool.false_eq_true, if_false, State.arrive_clean h]

/-- A dropped message is counted and changes no request, no core and nothing of the builder. -/
theorem State.countRaise_drops {o : Out} (h : o = .next (s.countRaise (od 0x18F0 2) 0x1803)) : ∃ t, o = .next t ∧
    t.fab.reqs = s.fab.reqs ∧ t.cores = s.cores ∧ t.books = s.books ∧
      t.num (od 0x18F0 2) = Od.counter (od 0x18F0 2) (s.num (od 0x18F0 2) + 1) := by
  obtain ⟨hfab, hcores, hbooks, hnum⟩ := s.countRaise_fabric (j := 2) (code := 0x1803) (by decide)
  exact ⟨_, h, congrArg Fabric.reqs hfab, hcores, hbooks, hnum⟩

theorem execMsgWrite_lost (h : s.lands 0 m) (flit : Ecc) :
    execMsgWrite m { lost := true } flit s = .next ((s.landed 0 m).countRaise (od 0x18F0 2) 0x1803) := by
  simp only [execMsgWrite, State.arrive_lost h]

theorem execMsgAck_lost (h : s.lands 4 m) :
    execMsgAck m { lost := true } s = .next ((s.landed 4 m).countRaise (od 0x18F0 2) 0x1803) := by
  simp only [execMsgAck, State.arrive_lost h]

theorem execMsgCredit_lost (h : s.lands 6 m) :
    execMsgCredit m { lost := true } s = .next ((s.landed 6 m).countRaise (od 0x18F0 2) 0x1803) := by
  simp only [execMsgCredit, State.arrive_lost h]

theorem execMsgBarRelease_lost (h : s.lands 12 m) :
    execMsgBarRelease m { lost := true } s = .next ((s.landed 12 m).countRaise (od 0x18F0 2) 0x1803) := by
  simp only [execMsgBarRelease, State.arrive_lost h]

/-- Settles O38: each message is its effect in a known branch; what a report or a block has gathered is found by `find?_replaced`. -/
theorem collectiveMessagesAreTaken : Obligations.CollectiveMessagesAreTaken := by
  unfold Obligations.CollectiveMessagesAreTaken
  rintro m s ty s0 h rfl dropped
  refine ⟨?_, ?_, ?_, ?_, ?_, ?_, ?_, ?_⟩
  · rintro rfl hm
    exact ⟨_, execMsgReport_gathers h hm, State.reportGathered_asm .., rfl, rfl⟩
  · rintro ans hm find after o hty
    have ho : o = .next ((s.landed ty m).blockIn ans m).1 := by
      cases ans
      · subst hty; exact execMsgA2aReq_gathers h hm
      · subst hty; exact execMsgA2aRow_gathers h hm
    exact ⟨_, ho, State.blockIn_tables .., fun b hb => State.blockIn_follows hm hb, fun ha => State.blockIn_opens ha hm,
      fun ha => State.blockIn_breaks ha⟩
  · intro c hc g e block
    refine ⟨fun ht hm => ⟨?_, ?_⟩, fun hv k hk => ⟨?_, ?_, ?_⟩⟩
    · rintro rfl
      exact (execMsgTkm_takes hc h).trans (next_congr (State.blockMsg_summary c false ht hm))
    · rintro rfl
      exact (execMsgTkmFinal_takes hc h).trans (next_congr (State.blockMsg_summary c true ht hm))
    · rintro rfl hn
      exact execMsgBarArrive_waits hc rfl h rfl hv hk hn
    · rintro rfl hn
      exact execMsgBarArrive_releases hc rfl h rfl hv hk hn
    · rintro rfl
      exact execMsgBarRelease_releases hc rfl h hv
  · rintro hf rfl
    obtain ⟨-, hcores, -, hnum⟩ := (s.landed 14 m).countRaise_fabric (j := 4) (code := 0x1808) (by decide)
    exact ⟨_, execMsgReservedType_drops hf h, hcores, hnum⟩
  · rintro rfl
    exact State.countRaise_drops (execMsgWrite_lost h .clean)
  · rintro rfl
    exact State.countRaise_drops (execMsgAck_lost h)
  · rintro rfl
    exact State.countRaise_drops (execMsgCredit_lost h)
  · rintro rfl
    exact State.countRaise_drops (execMsgBarRelease_lost h)

end Sys2Proof.Machine
end

