-- ==== Sys2Proof/Proofs/ArrayQueue.lean ====
section
/-! PROOFS. The array rows of the sequencer (R156, R160, R203, R206, R208): which of their checks answers, and what enters the array queue. -/

namespace Sys2Proof.Machine

variable {s : State} {c : Fin 16} {r : TaskRun} {op : Nat} {w : BitVec 56}

/-! An instruction that executes, by what its effect answers (R194, R195). -/

/-- The instruction of task `r` as core `c` executes it. -/
def State.insOf (s : State) (c : Fin 16) (r : TaskRun) (w : BitVec 56) : Ins :=
  { r := r, pc := s.pcAt c, a := fieldA w, b := fieldB w, c := fieldC w, d := fieldD w, i := fieldImm w }

section
variable {sh : Shape} {f : State → Ins → Eff} {t : State}

theorem State.issue_next (h : s.executes c r op w sh) (hf : f s (s.insOf c r w) = .next t) : s.issue c op w sh f = t.setPc c (s.pcAt c + 8) := by
  rw [State.insOf] at hf
  rw [State.issue_executes h, hf]

theorem State.issue_stay (h : s.executes c r op w sh) (hf : f s (s.insOf c r w) = .stay t) : s.issue c op w sh f = t := by
  rw [State.insOf] at hf
  rw [State.issue_executes h, hf]

theorem State.issue_exc (h : s.executes c r op w sh) {code detail : Nat} (hf : f s (s.insOf c r w) = .exc t code detail) :
    s.issue c op w sh f = t.except c code (s.pcAt c) detail := by
  rw [State.insOf] at hf
  rw [State.issue_executes h, hf]

end

/-! AMM (R203). -/

/-- What an AMM of task `r` asks of the array. -/
def State.ammJob (s : State) (c : Fin 16) (r : TaskRun) (w : BitVec 56) : AJob :=
  let q := s.seqOf c
  let v := (q.rd (fieldB w)).toNat
  { ta := q.td (fieldA w / 8), tw := q.td (fieldA w % 8), td := q.td (fieldD w), m := bitsOf v 31 0, k := bitsOf v 47 32, n := bitsOf v 63 48
    mode := q.mode, pc := s.pcAt c, word := w.toNat, run := r }

/-- A job joins the end of a core's array queue. -/
def State.queueJob (s : State) (c : Fin 16) (j : AJob) : State := s.modSeq c (fun q => { q with arrayQ := q.arrayQ ++ [j] })

namespace AJob

/-- The mode word lets the job's result leave: within the store's rows for DEST 1, and to a descriptor of the KIND that DEST asks for (R156,
R160). -/
structure ModeFits (j : AJob) : Prop where
  task : mRipple j.mode = true → j.run.part ≠ 0
  mode : modeBad j.mode = false
  rows : mStore j.mode = true → j.m ≤ storeRowsOf j.mode
  dest : mStore j.mode = true ↔ j.td.kind = 5

/-- The job's operands are within their limits, and so is what stands open in the store (R203, R206, R208). -/
structure Fits (j : AJob) (s : State) (c : Fin 16) : Prop where
  k : j.k ≠ 0
  n : j.n ≠ 0
  operands : s.ammOk c j.run.part j.mode j.ta j.tw j.td = true
  slots : j.td.kind = 4 → j.td.pbase + 4096 * j.td.pslots * j.td.row ≤ ((s.cores[c]).pad.win j.run.part j.td.pwin).size
  store : j.td.kind = 5 → (s.cores[c]).storeOpen.length < 16 ∧ ((s.cores[c]).storeOpen.map (·.m)).foldl (· + ·) j.m ≤ 4096

variable {j : AJob}

theorem ModeFits.task_ok (h : j.ModeFits) : ¬ (mRipple j.mode = true ∧ j.run.part = 0) := fun x => h.task x.1 x.2

theorem ModeFits.mode_ok (h : j.ModeFits) : ¬ (modeBad j.mode = true ∨ (mStore j.mode = true ∧ storeRowsOf j.mode < j.m)) := by
  rintro (hbad | ⟨hst, hlt⟩)
  · exact Bool.eq_false_iff.1 h.mode hbad
  · exact Nat.not_lt.2 (h.rows hst) hlt

theorem ModeFits.dest_ok (h : j.ModeFits) : ¬ (mStore j.mode ≠ (j.td.kind == 5)) :=
  not_not.2 (Bool.eq_iff_iff.2 (h.dest.trans beq_iff_eq.symm))

theorem Fits.operands_ok (h : j.Fits s c) : ¬ (j.k = 0 ∨ j.n = 0 ∨ (!s.ammOk c j.run.part j.mode j.ta j.tw j.td) = true) := by
  rintro (hk | hn | ho)
  · exact h.k hk
  · exact h.n hn
  · rw [h.operands] at ho
    cases ho

theorem Fits.slots_ok (h : j.Fits s c) :
    ¬ (j.td.kind = 4 ∧ ((s.cores[c]).pad.win j.run.part j.td.pwin).size < j.td.pbase + 4096 * j.td.pslots * j.td.row) :=
  fun x => Nat.not_lt.2 (h.slots x.1) x.2

theorem Fits.store_ok (h : j.Fits s c) : ¬ (j.td.kind = 5 ∧
    (16 ≤ (s.cores[c]).storeOpen.length ∨ 4096 < ((s.cores[c]).storeOpen.map (·.m)).foldl (· + ·) j.m)) := by
  rintro ⟨hk, hlen | hrows⟩
  · exact Nat.not_le.2 (h.store hk).1 hlen
  · exact Nat.not_lt.2 (h.store hk).2 hrows

end AJob

section
variable (h : s.executes c r 0x41 w { a := 63, b := 31, d := 7 })
include h

theorem execAmm_full (hq : 4 ≤ (s.seqOf c).arrayQ.length) : exec (.amm c w) s = .next s :=
  next_congr (State.issue_stay h (if_pos hq))

variable (hq : (s.seqOf c).arrayQ.length < 4)
include hq

theorem execAmm_empty (hm : (s.ammJob c r w).m = 0) : exec (.amm c w) s = .next (s.setPc c (s.pcAt c + 8)) :=
  next_congr (State.issue_next h ((if_neg (Nat.not_le.2 hq)).trans (if_pos hm)))

variable (hm : (s.ammJob c r w).m ≠ 0)
include hm

theorem execAmm_modeUnset (hv : (s.seqOf c).modeValid = false) : exec (.amm c w) s = .next (s.except c 4 (s.pcAt c)) :=
  next_congr (State.issue_exc h ((if_neg (Nat.not_le.2 hq)).trans <| (if_neg hm).trans <| if_pos (congrArg not hv)))

/-- An AMM that passes every check, in the order of the checks (R203). -/
theorem execAmm_enters (hv : (s.seqOf c).modeValid = true) (hf : (s.ammJob c r w).ModeFits) (ho : (s.ammJob c r w).Fits s c) :
    exec (.amm c w) s = .next ((s.queueJob c (s.ammJob c r w)).setPc c (s.pcAt c + 8)) :=
  have hset : ¬ (!(s.seqOf c).modeValid) = true := by simp [hv]
  next_congr (State.issue_next h ((if_neg (Nat.not_le.2 hq)).trans <| (if_neg hm).trans <| (if_neg hset).trans <|
    (if_neg hf.task_ok).trans <| (if_neg hf.mode_ok).trans <| (if_neg hf.dest_ok).trans <| (if_neg ho.operands_ok).trans <|
    (if_neg ho.slots_ok).trans <| if_neg ho.store_ok))

end

/-! ADRAIN (R203). -/

/-- What an ADRAIN of task `r` asks of the array. -/
def State.drainJob (s : State) (c : Fin 16) (r : TaskRun) (w : BitVec 56) : AJob :=
  let q := s.seqOf c
  let v := (q.rd (fieldB w)).toNat
  { isDrain := true, td := q.td (fieldD w), m := bitsOf v 31 0, first := bitsOf v 47 32, mode := q.mode, pc := s.pcAt c, word := w.toNat, run := r }

section
variable {j : AJob}

/-- The rows of a drain to LINEAR rows are those the store holds, and its descriptor suits a locked part (R160, R203, R232). -/
structure AJob.Drains (j : AJob) (s : State) (c : Fin 16) : Prop where
  kind : j.td.kind = 1
  plain : j.td.cmp = false
  rows : j.first + j.m ≤ storeRowsOf j.mode
  locked : lockedOk j.td ((s.cores[c]).pad.win j.run.part j.td.win) (partLines j.td.row) = true

theorem AJob.Drains.operands_ok (h : j.Drains s c) : ¬ ((j.td.kind ≠ 1 ∧ j.td.kind ≠ 4) ∨ j.td.cmp = true ∨
    (j.td.kind = 4 ∧ ((!j.td.irecOk) = true ∨ (j.td.fmt ≠ 5 ∧ j.td.fmt ≠ 6))) ∨ storeRowsOf j.mode < j.first + j.m ∨
    (!lockedOk j.td ((s.cores[c]).pad.win j.run.part j.td.win) (partLines j.td.row)) = true) := by
  rintro (hkind | hcmp | hmerge | hrows | hlock)
  · exact hkind.1 h.kind
  · exact Bool.eq_false_iff.1 h.plain hcmp
  · exact absurd (h.kind.symm.trans hmerge.1) (by decide)
  · exact Nat.not_lt.2 h.rows hrows
  · rw [h.locked] at hlock
    cases hlock

end

theorem execAdrain_enters (h : s.executes c r 0x42 w { b := 31, d := 7 }) (hq : (s.seqOf c).arrayQ.length < 4)
    (hd : (s.drainJob c r w).Drains s c) :
    exec (.adrain c w) s = .next ((s.queueJob c (s.drainJob c r w)).setPc c (s.pcAt c + 8)) :=
  next_congr (State.issue_next h ((if_neg (Nat.not_le.2 hq)).trans (if_neg hd.operands_ok)))

/-- Settles O26: AMM and ADRAIN by the check that answers; what passes all of AMM's is `AJob.ModeFits` and `AJob.Fits`. -/
theorem arrayRowsEnterTheQueue : Obligations.ArrayRowsEnterTheQueue := by
  unfold Obligations.ArrayRowsEnterTheQueue
  intro c r w s q v ta tw td m
  refine ⟨?_, fun h hq hm => execAmm_empty h hq hm, fun h hq hm hv => execAmm_modeUnset h hq hm hv, fun h hq => execAmm_full h hq,
    fun h hq hk hp hrows hl => execAdrain_enters h hq ⟨hk, hp, hrows, hl⟩⟩
  intro h hq hm hv htask hmode hrows hdest hk hn ho hslots hstore
  exact execAmm_enters h hq hm hv ⟨htask, hmode, hrows, hdest⟩ ⟨hk, hn, ho, hslots, hstore⟩

end Sys2Proof.Machine
end

