-- ==== Sys2Proof/Proofs/ArrayPasses.lean ====
section
/-! PROOFS. The array at work (R159, R162, R169-R172, R179, R209): where a pass begins, what a load, a pass and a drain leave. -/

namespace Sys2Proof.Machine

variable {s s1 s2 : State} {c : Fin 16} {u : Running} {e : Finds} {ups : List Upset}

/-! Where a pass begins (R159, R162). -/

/-- Passes of the chunk in work. -/
def Running.passes (u : Running) : Nat := passCount u.chunk.job.mode u.chunk.rows u.chunk.job.k u.chunk.job.n

theorem execArrayPassStart_passes (h : s.runs) (hr : (s.cores[c]).arr.running = some u) (hl : u.loading = false) (hm : u.pass < u.passes) :
    exec (.arrayPassStart c e false ups) s = .next (s.passBegin c u ups e) := by
  have hgo : ¬ (u.loading = true ∨ u.passes ≤ u.pass) := by simp [hl, hm]
  refine next_congr ((State.clocked_runs h _).trans ?_)
  dsimp only
  rw [hr]
  exact (if_neg hgo).trans (if_neg Bool.false_ne_true)

theorem State.passBegin_loads (hf : mFlow u.chunk.job.mode ≠ 1) :
    s.passBegin c u ups e = s.modArr c (fun a => { a with running := some { u with loading := true } }) := if_neg hf

theorem State.passBegin_streams (hf : mFlow u.chunk.job.mode = 1) (hs : u.sets.length < 2) : s.passBegin c u ups e = s.osBlock c u ups e :=
  (if_pos hf).trans (if_pos hs)

/-! What comparisons and counts leave (R165, R181). -/

theorem State.modArr_arr (f : Arr → Arr) : ((s.modArr c f).cores[c]).arr = f (s.cores[c]).arr := congrArg Core.arr (s.modArr_same c f)

theorem State.judge_cores (l : List Cmp) : (s.judge c l).1.cores = s.cores := State.bump_cores ..

theorem odCore_ne (b : Nat) (c : Fin 16) {i j : Nat} (h : i ≠ j) : odCore b c i ≠ odCore b c j := fun e => h (Nat.add_left_cancel e)

/-- Comparing counts skipped comparisons alone (OD 0x6100.07). -/
theorem State.judge_num {j : Nat} (l : List Cmp) (h : j ≠ 7) : (s.judge c l).1.num (odCore 0x6100 c j) = s.num (odCore 0x6100 c j) :=
  State.num_bump_other s _ (odCore_ne _ c h)

theorem State.countOps_cores (f n o : Nat) : (s.countOps c f n o).cores = s.cores := rfl

/-! An output-stationary block (R157, R162). -/

theorem accUpset_nil (w : Nat) (x : Acc) : accUpset w x [] = x := rfl

/-- Numbering the elements of a list and mapping each back gives the list. -/
theorem map_zip_range {α : Type} {f : α × Nat → α} (hf : ∀ y, f y = y.1) (l : List α) : (l.zip (List.range l.length)).map f = l := by
  rw [funext hf]
  exact List.map_fst_zip (by rw [List.length_range])

theorem osUpset_nil (w : Nat) (rows : List (List Acc)) : osUpset w [] rows = rows :=
  map_zip_range (fun y => map_zip_range (fun z => accUpset_nil w z.1) y.1) rows

theorem State.spots_nil (w sub : Nat) : s.spots c w sub [] = [] := rfl

/-- What the cells of an output-stationary block hold of its rows `ab` and of the column operand's rows `tb` (R157). -/
def Chunk.osRows (x : Chunk) (bn : Nat) (tb ab : List Bytes) : List (List Acc) :=
  let w := x.job.mode
  ab.map (fun b => (List.range (x.cols bn).2).map (fun n =>
    (osCell w ((List.range x.job.k).map (elemAt (elems (mSf w) b))) (tb.map (rowCols w (x.cols bn).1 (x.cols bn).2)) n).1))

/-- A block without disturbances fills a set with what its cells hold, and the pass counts. -/
theorem State.osBlock_fills {j : AJob} (hj : j = u.chunk.job) {tb ab : List Bytes} {bm bn : Nat} (hbm : bm = u.pass / ceilDiv j.n (passC j.mode))
    (hbn : bn = u.pass % ceilDiv j.n (passC j.mode)) (ht : s.rowsRead c j.run j.pc j.tw j.tw.row e j.k 0 = (s1, .ok tb))
    (ha : s1.streamRows c j (u.chunk.row0 + bm * passR j.mode) (Nat.min (passR j.mode) (u.chunk.rows - bm * passR j.mode))
      (findsAfter e (j.k * j.tw.words j.tw.row)) = (s2, .ok ab)) :
    ∃ o v, ((s.osBlock c u [] e).cores[c]).arr.running = some v ∧
      ((s.osBlock c u [] e).cores[c]).arr.passCount = ((s2.cores[c]).arr.passCount + 1) % 32 ∧
      v.pass = u.pass + 1 ∧ v.sets = u.sets ++ [o] ∧ o.bm = bm ∧ o.bn = bn ∧ o.rows = u.chunk.osRows bn tb ab := by
  subst hj hbm hbn
  simp only [State.osBlock, ht, ha, State.modArr_same]
  refine ⟨_, _, rfl, ?_, rfl, rfl, rfl, rfl, ?_⟩
  · rfl
  · simp [State.spots_nil, osUpset_nil, Chunk.osRows]

/-! A pass over its streamed rows (R159, R169). -/

theorem pass_succ_lt {p a b : Nat} (h : p < a * b) (hl : p % b + 1 ≠ b) : p + 1 < a * b := by
  refine Nat.lt_of_le_of_ne h fun e => hl ?_
  have hb : 0 < b := Nat.pos_of_ne_zero fun hb => Nat.not_lt_zero p (by rwa [hb, Nat.mul_zero] at h)
  rw [(Nat.mod_eq_sub_iff Nat.one_pos hb).2 (Dvd.intro_left a e.symm), Nat.sub_add_cancel hb]

/-- A block stands in the bank that the sub-array's last pass did not read, and the pass counts (R169). -/
def State.banked (s : State) (c : Fin 16) (sub : Nat) (blk : Block) : State :=
  let bank := if bitAt (s.cores[c]).arr.sel sub then 0 else 1
  s.modArr c (fun a => { a with
    banks := (a.banks.filter (fun y => y.1 != 2 * sub + bank)) ++ [(2 * sub + bank, blk)]
    sel := if bitAt a.sel sub then clearBit a.sel sub else setBit a.sel sub
    passCount := (a.passCount + 1) % 32 })

/-- A pass that is not the last of its column group is not the last of its chunk (R159). -/
theorem Running.pass_goesOn (u : Running) (hf : mFlow u.chunk.job.mode ≠ 1)
    (hl : u.chunk.kb u.pass + 1 ≠ ceilDiv u.chunk.job.k (passK u.chunk.job.mode)) (hm : u.pass < u.passes) : u.pass + 1 < u.passes := by
  have hp : u.passes = ceilDiv u.chunk.job.n (passC u.chunk.job.mode) * ceilDiv u.chunk.job.k (passK u.chunk.job.mode) := if_neg hf
  rw [hp] at hm ⊢
  exact pass_succ_lt hm hl

/-- The accumulators of a column group after a pass of `u`, from the rows streamed; `q` is the pass count before it (R159, R179). -/
def State.passAccs (s : State) (c : Fin 16) (u : Running) (q : Nat) (blk : Block) (ss : List Spot) (rows : List Bytes) : List (List Acc) :=
  let x := u.chunk
  let w := x.job.mode
  let k0 := x.kb u.pass * passK w
  (passRows w (s.repairKey c) (s.num (od 0x6000 1)) q k0 blk ss
    (rows.map (fun b => (List.range blk.held.length).map (fun k => elemAt (elems (mSf w) b) (k0 + k))))
    (if x.kb u.pass = 0 then s.groupStart c x (x.group u.pass) else u.accs)).1

/-- A pass that is not its group's last keeps the group's accumulators, and the next pass of the chunk comes. -/
theorem State.passGo_goesOn {blk : Block} {ss : List Spot} {rows : List Bytes}
    (hs : (s.banked c (u.chunk.sub u.pass) blk).streamRows c u.chunk.job u.chunk.row0 u.chunk.rows e = (s2, .ok rows))
    (hl : u.chunk.kb u.pass + 1 ≠ ceilDiv u.chunk.job.k (passK u.chunk.job.mode)) (hm : u.pass + 1 < u.passes) :
    ∃ (x : Chunk) (t : State), s.passGo c u blk ss e = t.modArr c (fun a => { a with running := some { u with
        chunk := x, pass := u.pass + 1, loading := false, retried := false
        accs := s2.passAccs c u (s.cores[c]).arr.passCount blk ss rows } }) ∧
      (t.cores[c]).arr.banks = (s2.cores[c]).arr.banks := by
  unfold State.passGo
  extract_lets x j w sub g a bank t k0
  have ht : t.streamRows c j x.row0 x.rows e = (s2, .ok rows) := hs
  rw [ht]
  dsimp -zeta only
  extract_lets as_ start y s3 last only_ s4 v
  have hy : y.kb u.pass = x.kb u.pass ∧ y.rows = x.rows := by
    unfold y
    split
    · exact ⟨rfl, rfl⟩
    · exact ⟨rfl, rfl⟩
  have hlast : last = false := by
    unfold last
    rw [hy.1]
    exact beq_eq_false_iff_ne.2 hl
  have hgo : ¬ passCount w y.rows j.k j.n ≤ v.pass := by
    rw [hy.2]
    exact Nat.not_le.2 hm
  clear_value last
  subst hlast
  refine ⟨y, s4, ?_, ?_⟩
  · exact if_neg hgo
  · simp only [s4, s3, State.countOps_cores, State.modArr_same, State.judge_cores]

/-! Loads (R170-R172). -/

section
variable {src : List (List Nat)} {words : Nat} (h : s.runs) (hr : (s.cores[c]).arr.running = some u) (hl : u.loading = true)
  (hb : s.blockRows c u.chunk u.pass e = (s1, .ok (src, words))) {ss : List Spot} {blk : Block}
  (hss : ss = s1.spots c u.chunk.job.mode (u.chunk.sub u.pass) ups) (hblk : blk = blockOf u.chunk.job.mode src ss)
include h hr hl hb hss hblk

/-- A ripple load leaves the block in the bank unread (R172). -/
theorem execRippleLoad_goes (hm : mRipple u.chunk.job.mode = true) (hk : (s.cores[c]).arr.mustBulk (u.chunk.sub u.pass) = false) :
    exec (.rippleLoad c e ups) s = .next (s1.passGo c u blk ss (findsAfter e words)) := by
  subst hblk hss
  have hgo : ¬ (!(u.loading && mRipple u.chunk.job.mode && !(s.cores[c]).arr.mustBulk (u.chunk.sub u.pass))) = true := by
    rw [hl, hm, hk]
    decide
  refine next_congr ((State.clocked_runs h _).trans ?_)
  dsimp only
  rw [hr]
  refine (if_neg hgo).trans ?_
  rw [hb]

variable (hk : mRipple u.chunk.job.mode = false ∨ (s.cores[c]).arr.mustBulk (u.chunk.sub u.pass) = true) {cmps : List Cmp}
  (hcmps : cmps = loadCmps u.chunk.job.mode blk ss)
include hk hcmps

/-- A bulk load goes by what its comparisons say: its pass streams, or it is repeated once, or it ends as a failed replay. -/
theorem execBulkLoad_compares : exec (.bulkLoad c e ups) s = .next (
    if !cmpsFail cmps then (s1.judge c cmps).1.passGo c u blk ss (findsAfter e words)
    else if !u.retried then
      ((s1.judge c cmps).1.bump (odCore 0x6100 c 8)).modArr c (fun a => { a with running := some { u with retried := true } })
    else (((s1.judge c cmps).1.bump (odCore 0x6100 c 8)).raise 0x6003 c.val).arrayFault c u.chunk.job [u.chunk.sub u.pass]) := by
  subst hcmps hblk hss
  have hgo : ¬ ((!u.loading) = true ∨
      (mRipple u.chunk.job.mode = true ∧ (!(s.cores[c]).arr.mustBulk (u.chunk.sub u.pass)) = true)) := by
    rintro (x | ⟨x, y⟩)
    · rw [hl] at x
      cases x
    · rcases hk with hk | hk
      · exact Bool.eq_false_iff.1 hk x
      · rw [hk] at y
        cases y
  refine next_congr ((State.clocked_runs h _).trans ?_)
  dsimp only
  rw [hr]
  refine (if_neg hgo).trans ?_
  rw [hb]
  rfl

theorem execBulkLoad_goes (hc : cmpsFail cmps = false) :
    exec (.bulkLoad c e ups) s = .next ((s1.judge c cmps).1.passGo c u blk ss (findsAfter e words)) :=
  (execBulkLoad_compares h hr hl hb hss hblk hk hcmps).trans (next_congr (if_pos (congrArg not hc)))

/-- A load whose sums differ for the first time is counted and asked for again (R171). -/
theorem execBulkLoad_retries (hc : cmpsFail cmps = true) (hu : u.retried = false) :
    ∃ t, exec (.bulkLoad c e ups) s = .next t ∧ (t.cores[c]).arr.running = some { u with retried := true } ∧
      t.num (odCore 0x6100 c 8) = Od.counter (odCore 0x6100 c 8) (s1.num (odCore 0x6100 c 8) + 1) := by
  have hfail : ¬ (!cmpsFail cmps) = true := by simp [hc]
  refine ⟨_, (execBulkLoad_compares h hr hl hb hss hblk hk hcmps).trans (next_congr ((if_neg hfail).trans (if_pos (congrArg not hu)))),
    congrArg Arr.running (State.modArr_arr _), ?_⟩
  calc _ = ((s1.judge c cmps).1.bump (odCore 0x6100 c 8)).num (odCore 0x6100 c 8) := State.num_congr rfl _
    _ = _ := by rw [State.num_bump, State.judge_num cmps (by decide)]

end

/-! The drain of an output-stationary set (R162, R179, R209). -/

section
variable {o : OsSet} {rest : List OsSet} (h : s.runs) (hr : (s.cores[c]).arr.running = some u) (ho : u.sets = o :: rest)
  (hm : rest ≠ [] ∨ u.pass < u.passes)
include h hr ho hm

/-- A set that is not the chunk's last drains: nothing where its comparisons failed, else its rows leave. -/
theorem execOsDrain_goes {t : State}
    (hd : (let s1 := s.modArr c (fun a => { a with running := some { u with sets := rest } })
      if o.bad then (s1, none)
      else if u.chunk.job.td.kind = 5 then (s1.osStore c u.chunk o, none)
      else s1.deliver c u.chunk (o.bm * passR u.chunk.job.mode) o.bn (u.chunk.cols o.bn).1 o.rows) = (t, none)) :
    exec (.osDrain c) s = .next t := by
  have hgo : ¬ (rest.isEmpty = true ∧ u.passes ≤ u.pass) := fun x => hm.elim (· (List.isEmpty_iff.1 x.1)) (Nat.not_lt.2 x.2)
  refine next_congr ((State.clocked_runs h _).trans ?_)
  dsimp only at hd ⊢
  rw [hr]
  dsimp only
  rw [ho]
  dsimp only
  rw [hd]
  exact if_neg hgo

end

/-- Settles O27: each command is its effect in a known branch; a pass that is not its group's last goes on by `State.passGo_goesOn`. -/
theorem arrayPassesAndLoads : Obligations.ArrayPassesAndLoads := by
  unfold Obligations.ArrayPassesAndLoads
  intro c s u e h hr x j sub more
  refine ⟨?_, ?_, ?_, ?_, ?_⟩
  · intro ups hl hm hf
    exact (execArrayPassStart_passes h hr hl hm).trans (next_congr (State.passBegin_loads hf))
  · intro hl hm hf hs nb bm bn hnb hbm hbn s1 tb s2 ab ht ha
    subst hnb
    obtain ⟨o, v, hv⟩ := State.osBlock_fills rfl hbm hbn ht ha
    exact ⟨_, o, v, (execArrayPassStart_passes h hr hl hm).trans (next_congr (State.passBegin_streams hf hs)), hv⟩
  · intro s1 src words ups hl hb ss blk cmps hss hblk hcmps
    exact ⟨fun hk hc => execBulkLoad_goes h hr hl hb hss hblk hk hcmps hc, fun hm hk => execRippleLoad_goes h hr hl hb hss hblk hm hk,
      fun hk hc hu => execBulkLoad_retries h hr hl hb hss hblk hk hcmps hc hu⟩
  · intro blk w hw hf hk hp hl hm bank hbank s2 rows hs
    subst hw hbank
    obtain ⟨y, t, ht, hbanks⟩ := State.passGo_goesOn (ss := []) hs hl (u.pass_goesOn hf hl hm)
    rw [ht, State.modArr_arr]
    exact ⟨_, rfl, rfl, rfl, hbanks, rfl⟩
  · intro o rest ho hm
    refine ⟨fun hb => execOsDrain_goes h hr ho hm (if_pos hb), fun hb hk t ht => execOsDrain_goes h hr ho hm ?_⟩
    exact (if_neg (Bool.eq_false_iff.1 hb)).trans ((if_neg hk).trans ht)

end Sys2Proof.Machine
end

