-- ==== Sys2Proof/Proofs/ArrayChunks.lean ====
section
/-! PROOFS. Chunks (R181, R182, R206, R207): how the queue's front AMM begins its next one, what a verdict and a merge leave. -/

namespace Sys2Proof.Machine

variable {s : State} {c : Fin 16} {e : Finds} {ups : List Upset}

/-- A WCLOSE that looks again leaves its core's array. -/
theorem State.closeIfFree_arr : ((s.closeIfFree c).cores[c]).arr = (s.cores[c]).arr := by
  unfold State.closeIfFree State.resume
  dsimp only
  split
  · split
    · rfl
    · rw [State.modSeq_same, State.modPad_same]
  · rfl

/-! The next chunk of the queue (R205, R206). -/

theorem State.seqOf_modArr (f : Arr → Arr) : (s.modArr c f).seqOf c = s.seqOf c := by rw [State.seqOf, State.modArr_same, State.seqOf]

theorem State.seqOf_modSeq (f : Seq → Seq) : (s.modSeq c f).seqOf c = f (s.seqOf c) := congrArg Core.seq (s.modSeq_same c f)

theorem State.modSeq_arr (f : Seq → Seq) : ((s.modSeq c f).cores[c]).arr = (s.cores[c]).arr := by rw [State.modSeq_same]

theorem execArrayPassStart_begins (h : s.runs) (hr : (s.cores[c]).arr.running = none) (hx : (s.cores[c]).arr.replays = [])
    (hh : (s.cores[c]).arr.held = none) : exec (.arrayPassStart c e false ups) s = .next (s.jobBegin c false ups e) := by
  refine next_congr ((State.clocked_runs h _).trans ?_)
  dsimp only
  rw [hr]
  dsimp only
  rw [hx]
  dsimp only
  rw [hh]

variable {j : AJob} {js : List AJob}

theorem State.jobNext_front (hc : (s.cores[c]).arr.cur = none) (hq : (s.seqOf c).arrayQ = j :: js) :
    s.jobNext c = some (j, s.modSeq c (fun q => { q with arrayQ := js })) := by
  unfold State.jobNext
  rw [hc, hq]

/-- A chunk that streams LINEAR rows needs none of other cores (R199). -/
theorem State.chunkReady_linear {x : Chunk} (h : x.job.ta.kind = 1) : s.chunkReady c x = (s, true) := by
  have hfar : s.farRows c x.job.run.part x.job.ta x.row0 x.rows = [] := if_pos (by rw [h]; decide)
  unfold State.chunkReady State.farReady
  rw [hfar]
  rfl

theorem State.chunkBegin_same {x : Chunk} (h : (s.cores[c]).arr.arrangement = some (mArr x.job.mode)) :
    s.chunkBegin c x ups e = s.passBegin c { chunk := x } ups e := by
  unfold State.chunkBegin
  dsimp only
  rw [if_pos h]

/-- An AMM of LINEAR operands begins its next chunk where no other task's work is in the array (R206, R217). -/
theorem State.jobBegin_linear {t : State} (hn : s.jobNext c = some (j, t)) (hf : (s.cores[c]).arr.foreign j.run = false)
    (hd : j.isDrain = false) (htd : j.td.kind = 1) (hta : j.ta.kind = 1) :
    s.jobBegin c false ups e = (t.chunkOf c j).1.chunkBegin c (t.chunkOf c j).2 ups e := by
  have hslots : ¬ (j.td.kind = 4 ∧ j.td.pslots ≤ (s.cores[c]).arr.slotsHeld) := fun x => absurd (htd.symm.trans x.1) (by decide)
  unfold State.jobBegin
  rw [hn]
  refine (if_neg (Bool.eq_false_iff.1 hf)).trans <| (if_neg (Bool.eq_false_iff.1 hd)).trans <| (if_neg hslots).trans <|
    (if_neg Bool.false_ne_true).trans ?_
  dsimp only
  rw [State.chunkReady_linear (x := (t.chunkOf c j).2) hta]

/-- The front AMM of the queue leaves it and its next chunk waits for the load of its first pass. -/
theorem execArrayPassStart_nextChunk (h : s.runs) (hr : (s.cores[c]).arr.running = none) (hx : (s.cores[c]).arr.replays = [])
    (hh : (s.cores[c]).arr.held = none) (hc : (s.cores[c]).arr.cur = none) (hq : (s.seqOf c).arrayQ = j :: js)
    (hd : j.isDrain = false) (htd : j.td.kind = 1) (hta : j.ta.kind = 1) (hf : (s.cores[c]).arr.foreign j.run = false)
    (ha : (s.cores[c]).arr.arrangement = some (mArr j.mode)) (hm : mFlow j.mode ≠ 1) :
    let o := (s.modSeq c (fun q => { q with arrayQ := js })).chunkOf c j
    exec (.arrayPassStart c e false ups) s = .next (o.1.modArr c (fun a => { a with running := some { chunk := o.2, loading := true } })) := by
  intro o
  have ho : (o.1.cores[c]).arr.arrangement = some (mArr o.2.job.mode) := by
    unfold o State.chunkOf
    dsimp only
    rw [State.modArr_arr, State.modSeq_arr]
    exact ha
  have hjob : s.jobBegin c false ups e = o.1.chunkBegin c o.2 ups e := State.jobBegin_linear (State.jobNext_front hc hq) hf hd htd hta
  rw [execArrayPassStart_begins h hr hx hh, hjob, State.chunkBegin_same ho]
  exact next_congr (State.passBegin_loads hm)

/-! Verdicts (R181, R182). -/

section
variable {x : Chunk} {xs : List Chunk} (h : s.runs) (hp : (s.cores[c]).arr.pending = x :: xs)
include h hp

theorem execChunkVerdict_passes (hb : x.bad = []) : exec (.chunkVerdict c) s = .next ((s.modArr c (fun a => { a with
    pending := xs
    merges := if x.job.td.kind = 4 then a.merges ++ [x] else a.merges })).closeIfFree c) := by
  refine next_congr ((State.clocked_runs h _).trans ?_)
  rw [hp]
  exact if_pos (List.isEmpty_iff.2 hb)

theorem execChunkVerdict_fails (hb : x.bad ≠ []) (hf : x.failed = false) :
    exec (.chunkVerdict c) s = .next ((s.countRaise (odCore 0x6100 c 5) 0x6001 c.val).modArr c (fun a => a.discard x xs)) := by
  refine next_congr ((State.clocked_runs h _).trans ?_)
  rw [hp]
  exact (if_neg (hb ∘ List.isEmpty_iff.1)).trans (if_neg (Bool.eq_false_iff.1 hf))

end

/-! Merges (R207). -/

theorem execMergeChunk_merges {x : Chunk} {xs : List Chunk} {u : State} (h : s.runs) (hm : (s.cores[c]).arr.merges = x :: xs)
    (hu : (s.modArr c (fun a => { a with merges := xs })).mergeRows c x e x.rows 0 = (u, none)) :
    exec (.mergeChunk c e) s = .next (u.closeIfFree c) := by
  refine next_congr ((State.clocked_runs h _).trans ?_)
  dsimp only
  rw [hm]
  dsimp only
  rw [hu]

/-- An array's objects are none of the events'. -/
theorem arrayKey_ne_lost (j : Nat) (c : Fin 16) (h : j < 256) : odCore 0x6100 c j ≠ od 0x7900 5 := by
  unfold odCore od
  omega

/-- Settles O28: the next chunk by `execArrayPassStart_nextChunk`, verdict and merge by what each leaves. -/
theorem chunksBeginPassAndMerge : Obligations.ChunksBeginPassAndMerge := by
  unfold Obligations.ChunksBeginPassAndMerge
  intro c s e h
  refine ⟨?_, ?_, fun x xs u hm hu => execMergeChunk_merges h hm hu⟩
  · intro j js ups hr hx hh hc hq hd htd hta hf ha hm n hn
    have hrows : j.nextRows = n := hn ▸ if_neg (by rw [htd]; decide)
    refine ⟨_, execArrayPassStart_nextChunk h hr hx hh hc hq hd htd hta hf ha hm, ?_, ?_, ?_⟩
    · unfold State.chunkOf
      rw [State.seqOf_modArr, State.seqOf_modArr, State.seqOf_modSeq]
    · unfold State.chunkOf
      rw [State.modArr_arr, State.modArr_arr, hrows]
    · rw [State.modArr_arr]
      exact ⟨_, rfl, rfl, rfl, rfl, hrows⟩
  · intro x xs hp
    refine ⟨fun hb => ⟨_, execChunkVerdict_passes h hp hb, ?_, ?_⟩, fun hb hf => ⟨_, execChunkVerdict_fails h hp hb hf, ?_, ?_, ?_⟩⟩
    · rw [State.closeIfFree_arr, State.modArr_arr]
    · rw [State.closeIfFree_arr, State.modArr_arr]
    · rw [State.modArr_arr, State.countRaise_cores]
    · rw [State.modArr_arr]
      rfl
    · exact (State.num_congr (State.modArr_dict ..) _).trans (s.num_countRaise _ _ _ (arrayKey_ne_lost 5 c (by decide)))

end Sys2Proof.Machine
end

