-- ==== Sys2Proof/Proofs/ResetAndMemories.lean ====
section
/-! THEOREMS. The memories over a step, and the machine right after reset (R27, R223): O5, O2. -/

namespace Sys2Proof.Machine

/-- Settles O5: a step keeps both invariants together, the memories' among them. -/
theorem everyStepKeepsMemories : Obligations.EveryStepKeepsMemories := by
  unfold Obligations.EveryStepKeepsMemories
  intro s t he hm e
  exact (step_keeps_wf e he hm).2

theorem State.core_reset (c : Fin 16) : State.reset.cores[c] = {} := Vector.getElem_replicate ..

theorem State.head_reset (p : Fin 8) : State.reset.head p = {} := Vector.getElem_replicate ..

theorem Pad.win_empty (p w : Nat) : ({} : Pad).win p w = {} := Vector.getElem_replicate ..

theorem State.powerState_reset : State.reset.powerState = 2 := by decide

/-- Settles O2: every unit of the reset state is the empty one; the module's state is the default of its object. -/
theorem resetLeaves : Obligations.ResetLeaves := by
  unfold Obligations.ResetLeaves
  refine ⟨rfl, State.powerState_reset, rfl, rfl, rfl, rfl, rfl, rfl, fun p => ?_, fun e => ?_, fun c => ?_, fun c p w => ?_, fun c a => ?_⟩
  · rw [State.head_reset]
  · rw [State.engine_reset]
  · rw [State.core_reset]
    exact ⟨rfl, rfl⟩
  · rw [State.core_reset, Pad.win_empty]
  · rw [State.mem_reset]
    rfl

end Sys2Proof.Machine
end

