-- ==== Sys2Proof/Proofs/Windows.lean ====
section
/-! SUPPORT. Bytes of a window (R221, R230, R236, R242): what a run of bytes written reads back as, what an element-wise addition leaves, and how
an access that passes its checks ends. -/

namespace Sys2Proof.Machine

/-! Addresses (R221). -/

/-- Two offsets of a window at most 128 bytes apart have different addresses: they lie in one line or in two that follow each other. -/
theorem Win.phys_near {w : Win} {x y : Nat} (hxy : x < y) (hy : y ≤ x + 128) : w.phys x ≠ w.phys y := by
  intro h
  have hm : 0 < w.m := Nat.succ_pos _
  have hn : y / 128 = x / 128 ∨ y / 128 = x / 128 + 1 := by omega
  simp only [Win.phys] at h
  rcases hn with hn | hn
  · rw [hn] at h
    omega
  · rw [hn] at h
    have hlt := Nat.mod_lt (x / 128) hm
    have hd := Nat.div_add_mod (x / 128) w.m
    have hd' := Nat.div_add_mod (x / 128 + 1) w.m
    have hs : (x / 128 + 1) / w.m = _ := Nat.succ_div
    by_cases hv : w.m ∣ x / 128 + 1
    · rw [Nat.mod_eq_zero_of_dvd hv] at h
      rw [if_pos hv] at hs
      omega
    · rw [if_neg hv] at hs
      rw [hs, Nat.add_zero] at h hd'
      have : (x / 128 + 1) % w.m = x / 128 % w.m + 1 := by omega
      omega

/-! A run of bytes. -/

/-- A run of bytes leaves every address alone that is none of its own. -/
theorem Win.rd_store_other {w : Win} {d : Bytes} {off : Nat} {m : Mem} {b : Nat} (h : ∀ i < d.length, b ≠ w.phys (off + i)) :
    (w.store off m d).rd b = m.rd b := by
  induction d generalizing off m with
  | nil => rfl
  | cons v d ih =>
    have h0 : b ≠ w.phys off := h 0 (Nat.succ_pos _)
    refine (ih fun i hi => ?_).trans ((m.rd_wr _ b v).trans (if_neg h0))
    rw [Nat.add_right_comm]
    exact h (i + 1) (Nat.succ_lt_succ hi)

/-- A run of at most 128 bytes reads back. -/
theorem Win.rd_store {w : Win} {d : Bytes} {off : Nat} {m : Mem} (hd : d.length ≤ 128) {i : Nat} (hi : i < d.length) :
    (w.store off m d).rd (w.phys (off + i)) = d.getD i 0 := by
  induction d generalizing off m i with
  | nil => cases hi
  | cons v d ih =>
    rw [List.length_cons] at hd hi
    cases i with
    | zero =>
      have ho : ∀ j < d.length, w.phys off ≠ w.phys (off + 1 + j) := fun j hj => Win.phys_near (by omega) (by omega)
      exact (Win.rd_store_other ho).trans ((m.rd_wr _ _ v).trans (if_pos rfl))
    | succ i =>
      have := ih (off := off + 1) (m := m.wr (w.phys off) v) (i := i) (by omega) (by omega)
      rwa [show off + 1 + i = off + (i + 1) by omega] at this

theorem Pad.bytes_eq_map (k : Pad) (w : Win) (off n : Nat) :
    k.bytes w off n = (List.range n).map (fun i => k.mem.rd (w.phys (off + i))) := by
  induction n generalizing off with
  | zero => rfl
  | succ n ih =>
    rw [Pad.bytes, ih, List.range_succ_eq_map, List.map_cons, List.map_map]
    simp only [Nat.add_zero, Nat.add_right_comm, Nat.add_assoc, Function.comp_def, Nat.succ_eq_add_one]

@[simp] theorem Pad.bytes_length (k : Pad) (w : Win) (off n : Nat) : (k.bytes w off n).length = n := by
  rw [Pad.bytes_eq_map, List.length_map, List.length_range]

/-- A part of the bytes read is what a read of that part gives. -/
theorem Pad.slice_bytes (k : Pad) (w : Win) (off : Nat) {n o l : Nat} (h : o + l ≤ n) : slice (k.bytes w off n) o l = k.bytes w (off + o) l := by
  refine List.ext_getElem ?_ fun i h1 h2 => ?_
  · simp only [slice, List.length_take, List.length_drop, Pad.bytes_length]
    omega
  · simp only [slice, List.getElem_take, List.getElem_drop, Pad.bytes_eq_map, List.getElem_map, List.getElem_range, Nat.add_assoc]

/-- Bytes of a run just written. -/
theorem Pad.bytes_store {k : Pad} {w : Win} {off : Nat} {m : Mem} {d : Bytes} (hk : k.mem = w.store off m d) (hd : d.length ≤ 128) {o l : Nat}
    (h : o + l ≤ d.length) : k.bytes w (off + o) l = slice d o l := by
  refine List.ext_getElem ?_ fun i h1 h2 => ?_
  · simp only [slice, List.length_take, List.length_drop, Pad.bytes_length]
    omega
  · rw [Pad.bytes_length] at h1
    simp only [slice, List.getElem_take, List.getElem_drop, Pad.bytes_eq_map, List.getElem_map, List.getElem_range, Nat.add_assoc, hk]
    rw [Win.rd_store hd (by omega), List.getD_eq_getElem _ _ (by omega)]

/-! Elements of a run (R236). -/

/-- A string of whole elements is cut into its elements. -/
theorem chunksOf_slices {n k fuel : Nat} (hk : 0 < k) {l : Bytes} (hl : l.length = k * n) (hf : n ≤ fuel) :
    chunksOf k fuel l = (List.range n).map (fun i => slice l (k * i) k) := by
  induction n generalizing fuel l with
  | zero =>
    obtain rfl : l = [] := List.length_eq_zero_iff.1 hl
    cases fuel with
    | zero => rfl
    | succ fuel => rfl
  | succ n ih =>
    obtain ⟨fuel, rfl⟩ : ∃ f, fuel = f + 1 := ⟨fuel - 1, by omega⟩
    rw [Nat.mul_succ] at hl
    have hr : (l.drop k).length = k * n := by rw [List.length_drop]; omega
    have hc : chunksOf k (fuel + 1) l = l.take k :: chunksOf k fuel (l.drop k) := by
      cases l with
      | nil => simp at hl; omega
      | cons x l => rfl
    rw [hc, ih hr (by omega), List.range_succ_eq_map, List.map_cons, List.map_map]
    refine congrArg₂ List.cons rfl (List.map_congr_left fun i _ => ?_)
    rw [Function.comp_apply, slice, slice, List.drop_drop, Nat.mul_succ, Nat.add_comm]

/-- Element i of a string put together of elements of one length. -/
theorem slice_flatMap {α : Type} {f : α → Bytes} {k : Nat} (hf : ∀ x, (f x).length = k) (l : List α) {i : Nat} (hi : i < l.length) :
    slice (l.flatMap f) (k * i) k = f l[i] := by
  induction l generalizing i with
  | nil => cases hi
  | cons x l ih =>
    rw [List.flatMap_cons]
    cases i with
    | zero => rw [slice, Nat.mul_zero, List.drop_zero, List.take_append_of_le_length (hf x).ge, List.take_of_length_le (hf x).le]; rfl
    | succ i =>
      have hd : (f x ++ l.flatMap f).drop (k * (i + 1)) = (l.flatMap f).drop (k * i) := by
        rw [Nat.mul_succ, Nat.add_comm, ← List.drop_drop, List.drop_append_of_le_length (hf x).ge, List.drop_of_length_le (hf x).le,
          List.nil_append]
      rw [slice, hd]
      exact ih (Nat.lt_of_succ_lt_succ hi)

/-- An INT32 sum wraps (R236). -/
theorem addInt32_one (a b : Nat) : (AtomOp.addInt32.one a b).1 = (a + b) % 2 ^ 32 := by
  simp only [AtomOp.one, unsignedOf, signedOf]
  split <;> split <;> omega

/-! What an access at a core counts (R236, R242, R246). -/

/-- `t` is `s` after counts and events of a core: cores, fabric and device stand as they did. -/
structure Counts (s t : State) : Prop where
  cores : t.cores = s.cores
  fab : t.fab = s.fab
  device : t.device = s.device

namespace Counts

variable {s t : State} {c : Fin 16}

theorem refl (s : State) : Counts s s := ⟨rfl, rfl, rfl⟩

/-- No object of a core is the device's ID. -/
theorem device_ne_odCore {b j : Nat} (hb : 0x6000 ≤ b) : od 1 1 ≠ odCore b c j := by unfold odCore od; omega

theorem bump {b j n : Nat} (h : Counts s t) (hb : 0x6000 ≤ b) : Counts s (t.bump (odCore b c j) n) :=
  ⟨h.cores, h.fab, (State.num_bump_other t n (device_ne_odCore hb)).trans h.device⟩

theorem raise {k i v : Nat} {b : Bool} (h : Counts s t) : Counts s (t.raise k i v b) :=
  ⟨(State.raise_cores ..).trans h.cores, (State.raise_fab ..).trans h.fab, (State.num_raise t _ _ _ _ (by decide)).trans h.device⟩

theorem raiseIng {k i v : Nat} {b : Bool} (h : Counts s t) : Counts s (t.raiseIng k i v b) :=
  ⟨(State.raiseIng_cores ..).trans h.cores, (State.raiseIng_fab ..).trans h.fab, (State.num_raiseIng _ _ _ _ (by decide)).trans h.device⟩

theorem ite {p : Prop} [Decidable p] {u : State} (h : Counts s t) (k : Counts s u) : Counts s (if p then t else u) :=
  ite_keep (P := Counts s) h k

theorem atomCount {r : Nat × Bool × FRes} (h : Counts s t) : Counts s (t.atomCount c r) := by
  have h1 := (h.bump (c := c) (b := 0x7100) (j := 13) (n := 1) (by decide)).ite (p := r.2.1 = true) h
  have h2 := (h1.bump (c := c) (b := 0x6100) (j := 10) (n := 1) (by decide)).ite (p := r.2.2.nan = true) h1
  exact (h2.bump (by decide)).ite h2

theorem accFault {e : AccErr} {r : Bool} (h : Counts s t) : Counts s (t.accFault c e r) := by
  cases e with
  | stale => exact (h.bump (by decide)).raiseIng
  | refused => exact ((h.bump (by decide)).raise).ite h
  | tag => exact (h.bump (by decide)).raise
  | ecc => exact h

end Counts

/-! Accesses from elsewhere (R240, R242). -/

section
variable {s : State} {c : Fin 16} {p w off gen : Nat}

/-- Another generation is STALE, whatever else fails. -/
theorem Pad.check_stale {k : Pad} {n need : Nat} (h : (k.win p w).gen ≠ gen) : k.check p w off n need (some gen) = some .stale := by
  have hg : (some gen).isSome ∧ some gen ≠ some (k.win p w).gen := ⟨rfl, fun e => h (Option.some.inj e).symm⟩
  simp only [Pad.check, Win.check, if_pos hg]

theorem State.padWrite_stale (h : ((s.cores[c]).pad.win p w).gen ≠ gen) (d : Bytes) :
    s.padWrite c p w off d (some gen) = (s.accFault c .stale true, some .stale) := by
  simp only [State.padWrite, Pad.check_stale h]
  rfl

theorem State.padRead_stale (h : ((s.cores[c]).pad.win p w).gen ≠ gen) (n : Nat) (e : Finds) :
    s.padRead c p w off n (some gen) e = (s.accFault c .stale true, .error .stale) := by
  simp only [State.padRead, Pad.check_stale h]
  rfl

/-- A window that takes an access of `n` bytes at `off` from elsewhere: it is open in the generation named, is none of the windows 0, has no slot
tags, reaches that far and allows what bit `i` of its attributes stands for. -/
structure Pad.Admits (k : Pad) (p w off n gen i : Nat) : Prop where
  isOpen : (k.win p w).isOpen = true
  gen : (k.win p w).gen = gen
  tagMode : (k.win p w).tagMode = 0
  remote : w % 8 ≠ 0
  fits : off + n ≤ (k.win p w).size
  allows : bitAt (k.win p w).attr i = true

theorem Pad.Admits.check {k : Pad} {n i need : Nat} (h : k.Admits p w off n gen i) (hn : need = 2 ^ i) :
    k.check p w off n need (some gen) = none := by
  subst hn
  have ha : (k.win p w).attr / 2 ^ i % 2 ≠ 0 := by
    have := beq_iff_eq.1 h.allows
    omega
  have hg : ¬ ((some gen).isSome ∧ some gen ≠ some (k.win p w).gen) := fun e => e.2 (congrArg some h.gen.symm)
  have hr : ¬ ((!(k.win p w).isOpen) = true ∨ (k.win p w).size < off + n ∨ 2 ^ i ≠ 0 ∧ (k.win p w).attr / 2 ^ i % 2 = 0) := by
    rw [h.isOpen]
    rintro (e | e | e)
    · exact absurd e (by decide)
    · exact absurd h.fits (Nat.not_le.2 e)
    · exact ha e.2
  simp only [Pad.check, Win.check, if_neg hg, if_neg hr]
  exact if_neg fun e : _ ∧ _ => h.remote e.2

theorem Pad.Admits.writeTagOk {k : Pad} {n i : Nat} (h : k.Admits p w off n gen i) (l : Nat) : k.writeTagOk (k.win p w) off l = true := by
  rw [Pad.writeTagOk, h.tagMode]
  rfl

theorem Pad.Admits.readTagOk {k : Pad} {n i : Nat} (h : k.Admits p w off n gen i) (l : Nat) : k.readTagOk (k.win p w) off l = true := by
  rw [Pad.readTagOk, h.tagMode]
  rfl

/-- Words in which the check bits found nothing. -/
theorem State.padFinds_clean (s : State) (c : Fin 16) (ws : List Nat) : s.padFinds c ws {} = (s, false) := rfl

theorem State.padWrite_admitted {d : Bytes} (h : (s.cores[c]).pad.Admits p w off d.length gen 3) :
    s.padWrite c p w off d (some gen) = (s.modPad c (fun k => k.write ((s.cores[c]).pad.win p w) off d), none) := by
  simp only [State.padWrite, Option.isSome_some, if_true, h.check (need := attrRemoteWrite) rfl, h.writeTagOk, Bool.not_true, Bool.false_eq_true, if_false]

/-- A read changes nothing. -/
theorem State.padRead_admitted {n : Nat} (h : (s.cores[c]).pad.Admits p w off n gen 2)
    (hb : (s.cores[c]).pad.firstBad ((s.cores[c]).pad.win p w) off n = none) :
    s.padRead c p w off n (some gen) {} = (s, .ok ((s.cores[c]).pad.bytes ((s.cores[c]).pad.win p w) off n)) := by
  have hm : s.modPad c (fun k => k.consume ((s.cores[c]).pad.win p w) off n) = s := by
    have hk : (s.cores[c]).pad.consume ((s.cores[c]).pad.win p w) off n = (s.cores[c]).pad := if_neg (by rw [h.tagMode]; decide)
    rw [State.modPad, State.modCore, hk, show s.cores.set c { s.cores[c] with pad := (s.cores[c]).pad } = s.cores from Vector.set_getElem_self ..]
  simp only [State.padRead, Option.isSome_some, if_true, h.check (need := attrRemoteRead) rfl, h.readTagOk, Bool.not_true, Bool.false_eq_true, if_false, hb, State.padFinds_clean, hm]

/-- The elements that an INT32 addition of `d` puts in the place of `old`. -/
def int32Sums (old d : Bytes) : List (Nat × Bool × FRes) :=
  ((chunksOf 4 d.length old).zip (chunksOf 4 d.length d)).map (fun y => AtomOp.addInt32.one (leNat y.1) (leNat y.2))

theorem State.padAtomic_admitted {d : Bytes} (h : (s.cores[c]).pad.Admits p w off d.length gen 3)
    (hb : (s.cores[c]).pad.firstBad ((s.cores[c]).pad.win p w) off d.length = none) :
    let x := (s.cores[c]).pad.win p w
    let old := (s.cores[c]).pad.bytes x off d.length
    s.padAtomic c p w off .addInt32 d (some gen) {} = (((int32Sums old d).foldl (fun s r => s.atomCount c r) s).modPad c
      (fun k => { k with mem := x.store off k.mem ((int32Sums old d).flatMap (fun r => natLe 4 r.1)) }), .ok old) := by
  simp only [State.padAtomic, Option.isSome_some, if_true, h.check (need := attrRemoteWrite) rfl, h.readTagOk, Bool.not_true, Bool.false_eq_true, if_false, hb, State.padFinds_clean]
  rfl

theorem int32Sums_eq_map {old d : Bytes} {n : Nat} (ho : old.length = 4 * n) (hd : d.length = 4 * n) : int32Sums old d =
    (List.range n).map (fun i => AtomOp.addInt32.one (leNat (slice old (4 * i) 4)) (leNat (slice d (4 * i) 4))) := by
  rw [int32Sums, chunksOf_slices (by decide) ho (by omega), chunksOf_slices (by decide) hd (by omega), List.zip_map', List.map_map]
  rfl

/-- Element i of the bytes that an INT32 addition writes. -/
theorem int32Sums_slice {old d : Bytes} {n : Nat} (ho : old.length = 4 * n) (hd : d.length = 4 * n) {i : Nat} (hi : i < n) :
    leNat (slice ((int32Sums old d).flatMap (fun r => natLe 4 r.1)) (4 * i) 4) =
      (leNat (slice old (4 * i) 4) + leNat (slice d (4 * i) 4)) % 2 ^ 32 := by
  rw [int32Sums_eq_map ho hd, slice_flatMap (f := fun r : Nat × Bool × FRes => natLe 4 r.1) (fun r => natLe_length 4 r.1) _ (by simpa using hi), leNat_natLe, List.getElem_map,
    List.getElem_range, addInt32_one]
  exact Nat.mod_mod ..

theorem int32Sums_length {old d : Bytes} {n : Nat} (ho : old.length = 4 * n) (hd : d.length = 4 * n) :
    ((int32Sums old d).flatMap (fun r => natLe 4 r.1)).length = 4 * n := by
  rw [int32Sums_eq_map ho hd, List.length_flatMap]
  simp only [natLe_length, List.map_const', List.sum_replicate, List.length_map, List.length_range, smul_eq_mul, Nat.mul_comm]

end

end Sys2Proof.Machine
end

