-- ==== Sys2Proof/Proofs/Requests.lean ====
section
/-! SUPPORT and THEOREMS. WRITE, ADD and READ at a core of the module, and the NACK of a stale READ (R236, R240-R244, R271, R272): O36. -/

namespace Sys2Proof.Machine

variable {s : State} {m : Msg} {c : Fin 16}

/-! Answers (R265, R271, R272). -/

/-- A message to the module itself waits at its source stop. -/
theorem State.send_own {ty : Nat} {m : Msg} (h : m.ddev = s.device) : s.send ty m = s.post ty m := if_pos h

@[simp] theorem State.post_cores (s : State) (ty : Nat) (m : Msg) : (s.post ty m).cores = s.cores := rfl

/-- The message that answers a request. -/
def answerTo (m : Msg) : Msg :=
  { ddev := m.sdev, dstop := m.sstop, sdev := m.sdev, sstop := m.dstop, part := m.part, win := m.win, gen := m.gen, tag := m.tag }

theorem State.reply_own (h : m.sdev = s.device) (e : Option Nat) :
    s.reply m e = s.post (if e.isSome then 5 else 4) { answerTo m with reason := e.getD 0 } := by
  rw [State.reply, State.send_own h, ← h]
  rfl

/-- Line i of the answer to a READ of n lines. -/
def lineOf (m : Msg) (n : Nat) (d : Bytes) (i : Nat) : Msg :=
  { answerTo m with count := i + 1 == n, len := 3, offset := m.offset + 4 * i, data := d }

/-- Messages to the module itself wait one after another. -/
theorem State.foldl_send_own {ty dev : Nat} {f : Nat → Nat → Msg} (hf : ∀ i, (f dev i).ddev = dev) (l : List Nat) {s : State}
    (h : s.device = dev) : l.foldl (fun s i => s.send ty (f s.device i)) s =
      { s with fab := { s.fab with mesh := s.fab.mesh ++ l.map (fun i => (ty, f dev i)) } } := by
  induction l generalizing s with
  | nil => rw [List.map_nil, List.append_nil]; rfl
  | cons i l ih =>
    have hs : s.send ty (f s.device i) = s.post ty (f dev i) := by rw [h, State.send_own ((hf i).trans h.symm)]
    rw [List.foldl_cons, hs, ih (s := s.post ty (f dev i)) h]
    simp only [State.post, List.append_assoc, List.map_cons, List.singleton_append]

theorem State.readAnswer_own (h : m.sdev = s.device) (n : Nat) (d : Bytes) : s.readAnswer m n d =
    { s with fab := { s.fab with
      mesh := s.fab.mesh ++ (List.range n).map (fun i => (3, lineOf m n (padTo 128 (slice d (128 * i) 128)) i)) } } :=
  State.foldl_send_own (f := fun dev i => { (lineOf m n (padTo 128 (slice d (128 * i) 128)) i) with sdev := dev }) (fun _ => rfl) _ h.symm

/-! The owner (R242). -/

theorem unitAt_core {stop : Nat} (h : stopCore stop = some c) (win : Nat) : unitAt stop win = .core c := by
  simp only [unitAt, h]

section
variable {f : State → Fin 16 → State × Option AccErr} {t : State} (hc : stopCore m.dstop = some c)
include hc

theorem State.ownerTake_takes (hf : f s c = (t, none)) : s.ownerTake m .clean f = (if m.count then t.counted c m else t).reply m none := by
  simp only [State.ownerTake, unitAt_core hc, State.flitCount, reduceCtorEq, if_false, false_and, hf]

theorem State.ownerTake_fails {e : AccErr} (hf : f s c = (t, some e)) : s.ownerTake m .clean f = t.reply m (some e.reason) := by
  simp only [State.ownerTake, unitAt_core hc, State.flitCount, reduceCtorEq, if_false, false_and, hf]

/-! WRITE (R236, R242, R244). -/

/-- The window that a request names at its core. -/
def State.target (s : State) (c : Fin 16) (m : Msg) : Win := (s.cores[c]).pad.win m.part m.win

theorem execMsgWrite_takes (h : s.lands 0 m) (ha : ((s.landed 0 m).cores[c]).pad.Admits m.part m.win (32 * m.offset) m.data.length m.gen 3) :
    let u := (s.landed 0 m).modPad c (fun k => k.write ((s.landed 0 m).target c m) (32 * m.offset) m.data)
    execMsgWrite m {} .clean s = .next ((if m.count then u.counted c m else u).reply m none) := by
  simp only [execMsgWrite, State.arrive_clean h]
  exact congrArg _ (State.ownerTake_takes hc (State.padWrite_admitted ha))

theorem execMsgWrite_stale (h : s.lands 0 m) (hg : ((s.landed 0 m).target c m).gen ≠ m.gen) :
    execMsgWrite m {} .clean s = .next (((s.landed 0 m).accFault c .stale true).reply m (some 1)) := by
  simp only [execMsgWrite, State.arrive_clean h]
  exact congrArg _ (State.ownerTake_fails (e := .stale) hc (State.padWrite_stale hg m.data))

/-! ADD (R236, R242). -/

/-- The bytes that an INT32 ADD leaves in its target. -/
def State.sums (s : State) (c : Fin 16) (m : Msg) : Bytes :=
  (int32Sums ((s.cores[c]).pad.bytes (s.target c m) (32 * m.offset) m.data.length) m.data).flatMap (fun r => natLe 4 r.1)

/-- An INT32 ADD counts what wraps, stores the sums and is acknowledged. -/
theorem execMsgAdd_takes (h : s.lands 1 m) (hf : m.afmt = 0) (hm : m.count = false)
    (ha : ((s.landed 1 m).cores[c]).pad.Admits m.part m.win (32 * m.offset) m.data.length m.gen 3)
    (hb : ((s.landed 1 m).cores[c]).pad.firstBad ((s.landed 1 m).target c m) (32 * m.offset) m.data.length = none) :
    ∃ u, Counts (s.landed 1 m) u ∧ execMsgAdd m {} .clean {} s = .next ((u.modPad c (fun k => { k with
      mem := ((s.landed 1 m).target c m).store (32 * m.offset) k.mem ((s.landed 1 m).sums c m) })).reply m none) := by
  refine ⟨_, foldl_keep (P := Counts (s.landed 1 m)) (f := fun t r => t.atomCount c r)
    (l := int32Sums (((s.landed 1 m).cores[c]).pad.bytes ((s.landed 1 m).target c m) (32 * m.offset) m.data.length) m.data)
    (fun _ _ k => k.atomCount) (.refl _), ?_⟩
  simp only [execMsgAdd, State.arrive_clean h]
  refine congrArg _ ((State.ownerTake_takes hc ?_).trans (by rw [hm]; rfl))
  simp only [hf, addOp, State.padAtomic_admitted ha hb]
  rfl

/-- After an INT32 ADD: the sums stand in its target, no other core has changed, and the sender gets an ACK. -/
theorem execMsgAdd_stores (h : s.lands 1 m) (hd : m.sdev = (s.landed 1 m).device) (hf : m.afmt = 0) (hm : m.count = false)
    (ha : ((s.landed 1 m).cores[c]).pad.Admits m.part m.win (32 * m.offset) m.data.length m.gen 3)
    (hb : ((s.landed 1 m).cores[c]).pad.firstBad ((s.landed 1 m).target c m) (32 * m.offset) m.data.length = none) :
    ∃ t, execMsgAdd m {} .clean {} s = .next t ∧ t.fab.mesh = (s.landed 1 m).fab.mesh ++ [(4, answerTo m)] ∧
      (t.cores[c]).pad.mem =
        ((s.landed 1 m).target c m).store (32 * m.offset) ((s.landed 1 m).cores[c]).pad.mem ((s.landed 1 m).sums c m) ∧
      ∀ d : Fin 16, d ≠ c → t.cores[d] = (s.landed 1 m).cores[d] := by
  obtain ⟨u, hu, e⟩ := execMsgAdd_takes hc h hf hm ha hb
  rw [State.reply_own (s := u.modPad c _) (hd.trans hu.device.symm)] at e
  refine ⟨_, e, ?_, ?_, fun d hne => ?_⟩
  · rw [← hu.fab]
    rfl
  · rw [← hu.cores]
    rw [State.post_cores, State.modPad_same]
  · rw [← hu.cores]
    rw [State.post_cores, State.modPad, State.modCore_other u _ hne]

/-! READ (R242, R272). -/

theorem execMsgRead_takes (h : s.lands 2 m) {n : Nat} (hn : n = m.len % 4 + 1)
    (ha : ((s.landed 2 m).cores[c]).pad.Admits m.part m.win (32 * m.offset) (128 * n) m.gen 2)
    (hb : ((s.landed 2 m).cores[c]).pad.firstBad ((s.landed 2 m).target c m) (32 * m.offset) (128 * n) = none) :
    execMsgRead m {} {} s = .next ((s.landed 2 m).readAnswer m n
      (((s.landed 2 m).cores[c]).pad.bytes ((s.landed 2 m).target c m) (32 * m.offset) (128 * n))) := by
  have hl : ((s.landed 2 m).target c m).readLen (32 * m.offset) n = 128 * n := by
    have hs : 32 * m.offset + 128 * n ≤ ((s.landed 2 m).target c m).size := ha.fits
    unfold Win.readLen
    split
    · exact Nat.min_eq_left (by omega)
    · rfl
  have hr := State.padRead_admitted ha hb
  subst hn
  simp only [execMsgRead, State.arrive_clean h, unitAt_core hc]
  unfold State.target at hl
  rw [hl, hr]
  rfl

theorem execMsgRead_stale (h : s.lands 2 m) (hg : ((s.landed 2 m).target c m).gen ≠ m.gen) :
    execMsgRead m {} {} s = .next (((s.landed 2 m).accFault c .stale true).reply m (some 1)) := by
  simp only [execMsgRead, State.arrive_clean h, unitAt_core hc]
  rw [State.padRead_stale hg]
  rfl

end

/-- A request of another generation changes no byte, and its sender is told so (R242, R274). -/
theorem State.stale_nacked (h : m.sdev = s.device) {o : Out} (ho : o = .next ((s.accFault c .stale true).reply m (some 1))) :
    ∃ t, o = .next t ∧ t.cores = s.cores ∧ t.fab.mesh = s.fab.mesh ++ [(5, { answerTo m with reason := 1 })] := by
  have k : Counts s (s.accFault c .stale true) := (Counts.refl s).accFault
  refine ⟨_, ho, ?_, ?_⟩
  · rw [State.reply_own (h.trans k.device.symm)]
    exact k.cores
  · rw [State.reply_own (h.trans k.device.symm), ← k.fab]
    rfl

/-- The sender of a READ that came to another generation raises WINDOW (R243). -/
theorem execMsgNack_staleRead {q : Req} {n : Nat} {r : TaskRun} (h : s.lands 5 m) (hq : (s.landed 5 m).reqOf m.dstop m.tag = some q)
    (ht : q.type = 2) (hs : q.stop ≠ stopFE) (hn : q.core = some n) (hr : q.task = some r) (hm : m.reason = 1) :
    execMsgNack m {} s = .next ((((((s.landed 5 m).reqDone m.dstop m.tag).bump (odCore 0x7100 (coreNo n) 7)).exceptRun
      (coreNo n) r 3 q.pc).failGet (coreNo n) r q.pc).recheck q) := by
  rw [execMsgNack_answers h (by omega) (by omega) hq]
  simp only [State.nacked, hm, hn, State.unanswered, if_neg hs, if_pos ht, State.reqExcept, hr]

/-- Settles O36: WRITE by `execMsgWrite_takes` and what a run of bytes reads back as, ADD by `int32Sums_slice`, READ by `Pad.slice_bytes`, the
stale ones by `State.stale_nacked` and `execMsgNack_staleRead`. -/
theorem requestsActAtTheirOwner : Obligations.RequestsActAtTheirOwner := by
  unfold Obligations.RequestsActAtTheirOwner
  rintro m s c ty s0 hc h rfl hd k x a back
  refine ⟨fun ho hg ht hw => ⟨?_, ?_, ?_⟩, fun hg => ⟨?_, ?_⟩, ?_⟩
  · rintro rfl hs hl hb
    refine ⟨(s.landed 0 m).modPad c (fun k => k.write x a m.data), rfl, rfl, rfl, fun i hi => ?_, fun b hi => ?_,
      execMsgWrite_takes hc h ⟨ho, hg, ht, hw, hs, hb⟩⟩
    · rw [State.modPad_same]
      exact Win.rd_store hl hi
    · rw [State.modPad_same]
      exact Win.rd_store_other hi
  · rintro rfl hf hm n hl hn hs hb he
    rw [← hl] at hs he
    obtain ⟨t, e, hmesh, hmem, hother⟩ := execMsgAdd_stores hc h hd hf hm ⟨ho, hg, ht, hw, hs, hb⟩ he
    have hlen : ((s.landed 1 m).sums c m).length = 4 * n := int32Sums_length (by rw [Pad.bytes_length, hl]) hl
    refine ⟨t, e, hmesh, fun i hi => ?_, fun b hi => ?_, hother⟩
    · refine (congrArg leNat (Pad.bytes_store (o := 4 * i) (l := 4) hmem (by omega) (by omega))).trans ?_
      exact (int32Sums_slice (by rw [Pad.bytes_length, hl]) hl hi).trans (by rw [Pad.slice_bytes _ _ _ (by omega)]; rfl)
    · rw [hmem]
      exact Win.rd_store_other (by rwa [hlen])
  · rintro rfl n hn hs hb he
    refine ⟨_, execMsgRead_takes hc h hn ⟨ho, hg, ht, hw, hs, hb⟩ he, ?_, ?_⟩
    · rw [State.readAnswer_own hd]
    · rw [State.readAnswer_own hd]
      refine congrArg _ (List.map_congr_left fun i hi => ?_)
      have hi := List.mem_range.1 hi
      rw [Pad.slice_bytes _ _ _ (by omega), padTo_of_length (Pad.bytes_length ..)]
      rfl
  · rintro rfl
    exact State.stale_nacked hd (execMsgWrite_stale hc h hg)
  · rintro rfl
    exact State.stale_nacked hd (execMsgRead_stale hc h hg)
  · rintro q n r hq ht hs hn hr rfl hm
    exact execMsgNack_staleRead h hq ht hs hn hr hm

end Sys2Proof.Machine
end

