-- ==== Sys2Proof/Proofs/Scrubbing.lean ====
section
/-! SUPPORT and THEOREMS. Scrubbing, march tests and row repair of the scratchpads (R237-R239, R249-R253): O39. -/

namespace Sys2Proof.Machine

variable {s : State} {c : Fin 16}

/-! Every core of a list is updated once. -/

theorem State.foldl_modCore (f : Core → Core) {l : List (Fin 16)} (hl : l.Nodup) (s : State) (d : Fin 16) :
    (l.foldl (fun s c => s.modCore c f) s).cores[d] = if d ∈ l then f s.cores[d] else s.cores[d] := by
  induction l generalizing s with
  | nil => rfl
  | cons c l ih =>
    obtain ⟨hc, hl⟩ := List.nodup_cons.1 hl
    rw [List.foldl_cons, ih hl]
    by_cases hd : d = c
    · subst hd
      rw [if_neg hc, if_pos List.mem_cons_self, State.modCore_same]
    · rw [State.modCore_other s f hd]
      simp only [List.mem_cons, hd, false_or]

/-- The update of all sixteen cores. -/
theorem State.foldl_modCore_all (f : Core → Core) (s : State) (d : Fin 16) :
    ((List.finRange 16).foldl (fun s c => s.modCore c f) s).cores[d] = f s.cores[d] := by
  rw [State.foldl_modCore f (List.nodup_finRange 16), if_pos (List.mem_finRange d)]

theorem State.pad_modPad (s : State) (c : Fin 16) (f : Pad → Pad) : ((s.modPad c f).cores[c]).pad = f (s.cores[c]).pad :=
  congrArg Core.pad (State.modPad_same s c f)

theorem State.pad_of_cores {s t : State} (h : t.cores = s.cores) (c : Fin 16) : (t.cores[c]).pad = (s.cores[c]).pad := by rw [h]

theorem range_coreNo : (List.range 16).map coreNo = List.finRange 16 := by decide

/-! What a scrub finds in a line (R237-R239). -/

theorem lineAddr_div (q n : Nat) : 8 * (lineAddr q n / 8) = lineAddr q n := by
  unfold lineAddr
  omega

/-- The line of a quad that an address names (R238). -/
theorem lineAddr_line (q n : Nat) :
    8192 * (lineAddr q n / 1048576) + lineAddr q n % 1048576 / 128 = 8192 * q + n := by
  unfold lineAddr
  omega

/-- A line without a word known to be bad is in error where the check bits say so. -/
theorem State.lineFinds_fresh {a : Nat} (h : ∀ x ∈ lineWords a, (s.cores[c]).pad.badWord x = false) (e : Finds) :
    s.lineFinds c a e = (s.padFinds c (lineWords a) e).1 := by
  have hk : (lineWords a).filter (fun w => (s.cores[c]).pad.badWord w) = [] :=
    List.filter_eq_nil_iff.2 fun x hx => by rw [h x hx]; decide
  simp only [State.lineFinds, hk, List.foldl_nil, List.contains_nil, Bool.not_false, List.filter_true]

/-- An error in the first word of a line. -/
theorem State.lineFinds_first {q n : Nat} (h : ∀ x ∈ lineWords (lineAddr q n), (s.cores[c]).pad.badWord x = false) (u : Bool) :
    s.lineFinds c (lineAddr q n) { hits := [(0, u)] } =
      if u then s.padUncorrectable c (lineAddr q n) else s.padCorrected c (lineAddr q n) := by
  have hw : 8 * (lineWords (lineAddr q n)).getD 0 0 = lineAddr q n := lineAddr_div q n
  have hf : findsIn { hits := [(0, u)] } (lineWords (lineAddr q n)).length = [(0, u)] := by
    rw [lineWords, List.length_map, List.length_range]
    rfl
  rw [State.lineFinds_fresh h, State.padFinds, hf, List.foldl_cons, List.foldl_nil, hw]
  cases u
  · rfl
  · rfl

/-- The objects of a scratchpad that this file's commands count in are none of the events'. -/
theorem padKey_ne_lost (c : Fin 16) {j : Nat} (h : j < 256) : odCore 0x7100 c j ≠ od 0x7900 5 := by
  unfold odCore od
  omega

theorem Pad.queueTest_bad (k : Pad) (key : Nat) : (k.queueTest key).bad = k.bad := by
  unfold Pad.queueTest
  split
  · rfl
  · rfl

/-- A corrected error changes no byte and is counted (R237). -/
theorem State.padCorrected_counts (s : State) (c : Fin 16) (a : Nat) : ((s.padCorrected c a).cores[c]).pad.mem = (s.cores[c]).pad.mem ∧
    (s.padCorrected c a).num (odCore 0x7100 c 1) = Od.counter (odCore 0x7100 c 1) (s.num (odCore 0x7100 c 1) + 1) := by
  let u := (s.bump (odCore 0x7100 c 1)).modPad c (fun k => { k with
    rowErrs := Sparse.put (fun _ => 0) k.rowErrs (rowKey a) (Sparse.get (fun _ => 0) (s.cores[c]).pad.rowErrs (rowKey a) + 1) })
  have hmem : (u.cores[c]).pad.mem = (s.cores[c]).pad.mem := (congrArg Pad.mem (State.pad_modPad ..)).trans rfl
  have hnum : u.num (odCore 0x7100 c 1) = Od.counter (odCore 0x7100 c 1) (s.num (odCore 0x7100 c 1) + 1) := State.num_bump ..
  refine ite_keep (P := fun t : State => (t.cores[c]).pad.mem = (s.cores[c]).pad.mem ∧
    t.num (odCore 0x7100 c 1) = Od.counter (odCore 0x7100 c 1) (s.num (odCore 0x7100 c 1) + 1)) ⟨?_, ?_⟩ ⟨hmem, hnum⟩
  · exact (congrArg Pad.mem ((State.pad_of_cores (State.raise_cores ..) c).trans (State.pad_modPad ..))).trans
      ((Pad.queueTest_mem ..).trans hmem)
  · exact (State.num_raise _ _ _ _ _ (padKey_ne_lost c (by decide))).trans hnum

/-- A pad in which the word at an address is known to be in error. -/
def Pad.spoiled (k : Pad) (a : Nat) : Pad := { k with bad := Sparse.put noBit k.bad (a / 8) true }

/-- An uncorrectable error changes no byte; its word is known to be bad, its line is shown and it is counted (R238). -/
theorem State.padUncorrectable_counts (s : State) (c : Fin 16) (a : Nat) :
    ((s.padUncorrectable c a).cores[c]).pad.mem = (s.cores[c]).pad.mem ∧
    Sparse.get noBit ((s.padUncorrectable c a).cores[c]).pad.bad (a / 8) = true ∧
    (s.padUncorrectable c a).num (odCore 0x7100 c 3) = 8192 * (a / 1048576) + a % 1048576 / 128 ∧
    (s.padUncorrectable c a).num (odCore 0x7100 c 2) = Od.counter (odCore 0x7100 c 2) (s.num (odCore 0x7100 c 2) + 1) := by
  have hpad : ((s.padUncorrectable c a).cores[c]).pad = ((s.cores[c]).pad.spoiled a).queueTest (rowKey a) :=
    (State.pad_modPad ..).trans
      (congrArg (fun k : Pad => (k.spoiled a).queueTest (rowKey a)) (State.pad_of_cores (State.countRaise_cores ..) c))
  rw [hpad, Pad.queueTest_mem, Pad.queueTest_bad]
  refine ⟨rfl, Sparse.get_put_same noBit (s.cores[c]).pad.bad (a / 8) true, State.num_setNum .., ?_⟩
  exact (State.num_setNum_other _ _ (odCore_ne _ c (by decide))).trans (State.num_countRaise s _ _ _ (padKey_ne_lost c (by decide)))

/-! SCRUB_STEP (R239). -/

/-- A pad whose scrubber of a quad has read line n in time. -/
def Pad.scrubbed (k : Pad) (quad : Fin 24) (n : Nat) : Pad :=
  { k with scrubPos := k.scrubPos.set quad ((n + 1) % 8192), scrubLate := k.scrubLate.set quad (n != 8191 && k.scrubLate[quad]) }

/-- The state after a line was read: the pass is counted after the last one. -/
def State.scrubbed (s : State) (c : Fin 16) (quad : Fin 24) (n : Nat) : State :=
  (if n = 8191 then s.bump (odCore 0x7100 c 4) else s).modPad c (fun k => k.scrubbed quad n)

theorem execScrubStep_scrubs (h : s.runs) (quad : Fin 24) {n : Nat} (hn : n = (s.cores[c]).pad.scrubPos[quad] % 8192) (e : Finds) :
    execScrubStep c quad e false s = .next ((s.lineFinds c (lineAddr quad.val n) e).scrubbed c quad n) := by
  subst hn
  refine congrArg Host.Outcome.next ((State.clocked_runs h _).trans ?_)
  simp only [Bool.false_eq_true, false_and, if_false, Bool.false_or]
  rfl

theorem State.scrubbed_pad (s : State) (c : Fin 16) (quad : Fin 24) (n : Nat) :
    ((s.scrubbed c quad n).cores[c]).pad = (s.cores[c]).pad.scrubbed quad n := by
  refine (State.pad_modPad ..).trans (congrArg (Pad.scrubbed · quad n) (State.pad_of_cores ?_ c))
  exact ite_keep (P := fun t : State => t.cores = s.cores) rfl rfl

/-- The last line of a quad ends a pass. -/
theorem State.scrubbed_counts {quad : Fin 24} {n : Nat} (h : n = 8191) :
    (s.scrubbed c quad n).num (odCore 0x7100 c 4) = Od.counter (odCore 0x7100 c 4) (s.num (odCore 0x7100 c 4) + 1) := by
  rw [State.scrubbed, if_pos h]
  exact State.num_bump ..

theorem State.scrubbed_num {quad : Fin 24} {n k : Nat} (h : k ≠ odCore 0x7100 c 4) : (s.scrubbed c quad n).num k = s.num k := by
  unfold State.scrubbed
  split
  · exact State.num_bump_other s 1 h
  · rfl

theorem State.scrubbed_dict {quad : Fin 24} {n : Nat} (h : n ≠ 8191) : (s.scrubbed c quad n).dict = s.dict := by
  rw [State.scrubbed, if_neg h, State.modPad_dict]

/-! PRESERVING_TEST_ROW (R251, R252). -/

/-- The state in which a queued row has been tested: it has left the queue and its error count starts again. -/
def State.rowTested (s : State) (c : Fin 16) (x : MarchRow) : State :=
  s.modPad c (fun k => { k with
    marchQ := k.marchQ.erase x
    rowErrs := if x.row < 256 then Sparse.put (fun _ => 0) k.rowErrs (1024 * x.quad + 256 * x.bank + x.row) 0 else k.rowErrs })

theorem State.pad_rowTested (s : State) (c : Fin 16) (x : MarchRow) : ((s.rowTested c x).cores[c]).pad = { (s.cores[c]).pad with
    marchQ := (s.cores[c]).pad.marchQ.erase x
    rowErrs := if x.row < 256 then Sparse.put (fun _ => 0) (s.cores[c]).pad.rowErrs (1024 * x.quad + 256 * x.bank + x.row) 0
      else (s.cores[c]).pad.rowErrs } :=
  State.pad_modPad ..

theorem execPreservingTestRow_tests (h : s.runs) {quad : Fin 24} {bank : Fin 4} {row : Fin 260} {x : MarchRow}
    (hx : x = { quad := quad.val, bank := bank.val, row := row.val })
    (hq : (s.cores[c]).pad.marchQ.find? (fun y => y.quad == quad.val && y.bank == bank.val) = some x) (faulty : Bool) :
    execPreservingTestRow c quad bank row faulty s =
      .next (if faulty then (s.rowTested c x).rowFails c quad.val bank.val row.val false else s.rowTested c x) := by
  subst hx
  refine congrArg Host.Outcome.next ((State.clocked_runs h _).trans ?_)
  exact if_neg (not_not.2 hq)

/-- A faulty row that is not mapped yet takes the lowest usable spare of its bank (R252). -/
theorem State.rowFails_maps {quad bank row sp : Nat} (hr : row < 256)
    (hm : (s.cores[c]).pad.repairs.find? (fun r => r.quad == quad && r.bank == bank && r.row == row) = none)
    (hs : (s.cores[c]).pad.spareOf quad bank = some sp) :
    let t := s.rowFails c quad bank row false
    (t.cores[c]).pad.mem = (s.cores[c]).pad.mem ∧
    (t.cores[c]).pad.repairs = (s.cores[c]).pad.repairs ++ [{ quad := quad, bank := bank, row := row, spare := sp }] ∧
    t.num (odCore 0x7100 c 16) = (s.cores[c]).pad.repairs.length + 1 := by
  let u := s.modPad c (fun k => { k with repairs := k.repairs ++ [{ quad := quad, bank := bank, row := row, spare := sp }] })
  have hpad : (u.cores[c]).pad =
      { (s.cores[c]).pad with repairs := (s.cores[c]).pad.repairs ++ [{ quad := quad, bank := bank, row := row, spare := sp }] } :=
    State.pad_modPad ..
  have e : s.rowFails c quad bank row false = ((u.store (odCore 0x7100 c 16) (.num (u.cores[c]).pad.repairs.length)).store
      (odCore 0x7102 c 0) (.oct (u.cores[c]).pad.repairMap)).raise 0x7006 c.val row := by
    simp only [State.rowFails, if_neg (Nat.not_le.2 hr), hm, State.repairRow, hs]
    rfl
  have ht : ((s.rowFails c quad bank row false).cores[c]).pad = (u.cores[c]).pad := by
    rw [e]
    exact State.pad_of_cores (State.raise_cores ..) c
  have hne : odCore 0x7100 c 16 ≠ odCore 0x7102 c 0 := by unfold odCore od; omega
  refine ⟨?_, ?_, ?_⟩
  · rw [ht, hpad]
  · rw [ht, hpad]
  · rw [e]
    refine (State.num_raise _ _ _ _ _ (padKey_ne_lost c (by decide))).trans ?_
    rw [State.num, State.int, State.obj_store_other _ _ hne, State.obj_store, hpad]
    simp only [OdVal.toInt, Int.toNat_natCast, List.length_append, List.length_singleton]

/-! The start-up test and the two writes (R250, R251, R253). -/

theorem State.marchAll_started (s : State) (d : Fin 16) : ((s.marchAll []).cores[d]).pad = (s.cores[d]).pad.started := by
  have hf : s.marchAll [] = (List.finRange 16).foldl (fun s c => s.modPad c Pad.started) s := by
    rw [← range_coreNo, List.foldl_map]
    simp only [State.marchAll, List.filter_nil, List.append_nil, List.foldl_nil]
  rw [hf]
  exact congrArg Core.pad (State.foldl_modCore_all _ s d)

theorem State.marchRequest_first (s : State) : s.marchRequest 1 = s.modPad 0 (fun k => { k with marchQ := allRows }) := by
  have hb : bitList 1 16 = [0] := by decide
  rw [State.marchRequest, hb, List.foldl_cons, List.foldl_nil]
  rfl

/-- A command object whose check passes does its effect and is answered with status 0. -/
theorem State.command_passes {w : Writer} {idx sub : Nat} {v : OdVal} (h : (s.at w.t).accepts w idx sub v) {check : State → Nat}
    (hc : check (s.at w.t) = 0) (effect : State → State) :
    s.command w idx sub v check effect = (effect (s.at w.t)).answer 0 := by
  rw [State.command_accepts h, if_neg (not_not.2 hc)]

theorem execMarchRequest_first {w : Writer} (h : (s.at w.t).accepts w 0x7000 2 (.num 1)) :
    execMarchRequest w 1 s = .next (((s.at w.t).modPad 0 (fun k => { k with marchQ := allRows })).answer 0) :=
  congrArg Host.Outcome.next ((State.command_passes h rfl _).trans (congrArg (State.answer · 0) (State.marchRequest_first _)))

theorem State.arm_armed (s : State) (k : Nat) : (s.arm k).dict.armed.contains k = true := by
  unfold State.arm
  split
  · assumption
  · simp

/-- Settles O39: a scrub step by what it finds (`State.lineFinds_fresh`, `State.lineFinds_first`), a test by the row that leaves the queue and,
where it is faulty, `State.rowFails_maps`, the start-up test by the update of every core. -/
theorem scratchpadsAreScrubbedAndRepaired : Obligations.ScratchpadsAreScrubbedAndRepaired := by
  unfold Obligations.ScratchpadsAreScrubbedAndRepaired
  intro c quad s k n
  refine ⟨fun h hw => ?_, fun h hw => ?_, fun h hw => ?_, fun bank row h hq => ⟨?_, ?_⟩, ?_, ?_, ?_, ?_⟩
  · have e := execScrubStep_scrubs (c := c) h quad (n := n) rfl {}
    rw [State.lineFinds_fresh hw] at e
    refine ⟨_, e, ?_, ?_, fun hn => ?_, fun hn => ?_⟩
    · rw [State.scrubbed_pad]
      exact Vector.getElem_set_self ..
    · rw [State.scrubbed_pad]
      rfl
    · exact State.scrubbed_counts hn
    · exact State.scrubbed_dict hn
  · obtain ⟨hmem, hnum⟩ := s.padCorrected_counts c (lineAddr quad.val n)
    have e := execScrubStep_scrubs (c := c) h quad (n := n) rfl { hits := [(0, false)] }
    rw [State.lineFinds_first hw] at e
    refine ⟨_, e, ?_, (State.scrubbed_num (odCore_ne _ c (by decide))).trans hnum⟩
    rw [State.scrubbed_pad]
    exact hmem
  · obtain ⟨hmem, hbad, hline, hnum⟩ := s.padUncorrectable_counts c (lineAddr quad.val n)
    have e := execScrubStep_scrubs (c := c) h quad (n := n) rfl { hits := [(0, true)] }
    rw [State.lineFinds_first hw] at e
    refine ⟨_, e, ?_, ?_, ?_, (State.scrubbed_num (odCore_ne _ c (by decide))).trans hnum⟩
    · rw [State.scrubbed_pad]
      exact hmem
    · rw [State.scrubbed_pad]
      exact hbad
    · exact (State.scrubbed_num (odCore_ne _ c (by decide))).trans (hline.trans (lineAddr_line ..))
  · refine ⟨_, execPreservingTestRow_tests h rfl hq false, ?_, ?_, rfl⟩
    · exact (congrArg Pad.mem (s.pad_rowTested c _)).trans rfl
    · exact (congrArg Pad.marchQ (s.pad_rowTested c _)).trans rfl
  · intro hr hm sp hs
    have hp := s.pad_rowTested c { quad := quad.val, bank := bank.val, row := row.val }
    obtain ⟨hmem, hrep, hnum⟩ := State.rowFails_maps (s := s.rowTested c { quad := quad.val, bank := bank.val, row := row.val }) hr
      (by rw [hp]; exact hm) (by rw [hp]; exact hs)
    rw [hp] at hmem hrep hnum
    exact ⟨_, execPreservingTestRow_tests h rfl hq true, hmem, hrep, hnum⟩
  · intro hr
    exact ⟨_, congrArg Host.Outcome.next (if_neg (by rw [hr]; decide)), State.marchAll_started s⟩
  · intro hr bad
    exact congrArg Host.Outcome.next (if_pos hr)
  · intro w hw
    refine ⟨_, execMarchRequest_first hw, ?_, fun d hd => ?_, rfl⟩
    · rw [State.answer_cores, State.pad_modPad]
    · rw [State.answer_cores, State.modPad, State.modCore_other _ _ hd, State.at_cores]
  · intro w hw
    exact ⟨_, congrArg Host.Outcome.next (State.command_passes hw rfl _), rfl, State.arm_armed .., rfl⟩

end Sys2Proof.Machine
end

