-- ==== Sys2Proof/Proofs/Guarded.lean ====
section
/-! SUPPORT. What events, ends of tasks, entering SAFE and a reply that leaves by the HOST ports keep of the sessions, the security block
and a few objects: the relation `Guarded`, one rule per operation. -/

namespace Sys2Proof.Machine

/-- A session without the events that wait to be notified. -/
def Session.deaf (x : Session) : Session := { x with evQueue := [] }

/-- The sessions but for their waiting events. -/
def State.people (s : State) : List Session := s.hap.sessions.map Session.deaf

/-- The security block without its associations, whose packet numbers sending uses up (R450). -/
def Sec.bare (x : Sec) : Sec := { x with sas := [] }

/-- Objects that sending and ends of tasks leave alone: the causes of SAFE, failed unlocks, the cause of the last start-up. -/
def secureKeys : List Nat := [od 0xA000 0x0A, od 0xB000 2, od 0xE000 7]

/-- What events, ends of tasks and replies leave of `s` in `t`. -/
structure Guarded (s t : State) : Prop where
  people : t.people = s.people
  sec : t.sec.bare = s.sec.bare
  safety : t.safety = s.safety
  num : ∀ k ∈ secureKeys, t.num k = s.num k
  srv : s.log.srv = true → t.log.srv = true
  stopped : s.sched.running_ = false → t.sched.running_ = false
  wiped : ∀ c : Fin 16, (s.cores[c]).pad.wiped = true → (t.cores[c]).pad.wiped = true

/-- Events tell every session that hears them and change nothing else of it. -/
theorem Hap.notify_people (h : Hap) (r : EventRec) : (h.notify r).sessions.map Session.deaf = h.sessions.map Session.deaf := by
  rw [Hap.notify, List.map_map]
  refine List.map_congr_left fun x _ => ?_
  dsimp only [Function.comp]
  repeat' split
  all_goals rfl

theorem State.raise_people (s : State) (c i v : Nat) (b : Bool) : (s.raise c i v b).people = s.people := by
  unfold State.raise State.people
  extract_lets s1 s2
  split
  · exact Hap.notify_people _ _
  split
  · exact Hap.notify_people _ _
  split
  · exact Hap.notify_people _ _
  · exact (Hap.notify_people _ _).trans (Hap.notify_people _ _)

/-- SRV_N is asserted by an event that asserts it, and stays so (R504). -/
theorem State.raise_srv (s : State) (c i v : Nat) {b : Bool} (h : (s.log.srv || b) = true) : (s.raise c i v b).log.srv = true := by
  unfold State.raise
  extract_lets s1 s2
  split
  · exact h
  split
  · exact h
  split
  · exact h
  · exact Bool.or_eq_true_iff.2 (.inl h)

namespace Guarded

variable {s t u : State}

theorem refl (s : State) : Guarded s s := ⟨rfl, rfl, rfl, fun _ _ => rfl, id, id, fun _ => id⟩

theorem trans (h : Guarded s t) (k : Guarded t u) : Guarded s u where
  people := k.people.trans h.people
  sec := k.sec.trans h.sec
  safety := k.safety.trans h.safety
  num x hx := (k.num x hx).trans (h.num x hx)
  srv hs := k.srv (h.srv hs)
  stopped hs := k.stopped (h.stopped hs)
  wiped c hc := k.wiped c (h.wiped c hc)

theorem ite {c : Prop} [Decidable c] (h : Guarded s t) (k : Guarded s u) : Guarded s (if c then t else u) := ite_keep (P := Guarded s) h k

theorem foldl {β : Type} {f : State → β → State} {l : List β} (h : Guarded s t) (hf : ∀ t x, Guarded s t → Guarded s (f t x)) :
    Guarded s (l.foldl f t) :=
  foldl_keep (P := Guarded s) hf h

/-! One rule per operation of the state. -/

/-- An operation on none of the parts concerned. -/
theorem same (h : Guarded s t) (hd : u.dict = t.dict := by exact rfl) (hh : u.hap = t.hap := by exact rfl) (hx : u.sec = t.sec := by exact rfl)
    (hs : u.safety = t.safety := by exact rfl) (hl : u.log = t.log := by exact rfl) (hc : u.sched.running_ = t.sched.running_ := by exact rfl)
    (hk : u.cores = t.cores := by exact rfl) : Guarded s u :=
  h.trans ⟨by rw [State.people, hh]; rfl, by rw [hx], hs, fun k _ => State.num_congr hd k, by rw [hl]; exact id, by rw [hc]; exact id, fun c => by rw [hk]; exact id⟩

theorem setNum {k : Nat} {v : Int} (h : Guarded s t) (hk : k ∉ secureKeys) : Guarded s (t.setNum k v) :=
  h.trans ⟨rfl, rfl, rfl, fun _ hj => State.num_setNum_other t v (ne_of_mem_of_not_mem hj hk), id, id, fun _ => id⟩

theorem bump {k n : Nat} (h : Guarded s t) (hk : k ∉ secureKeys) : Guarded s (t.bump k n) := h.setNum hk

theorem raise {c i v : Nat} {b : Bool} (h : Guarded s t) : Guarded s (t.raise c i v b) := by
  refine h.trans ⟨State.raise_people .., by rw [State.raise_sec], State.raise_safety .., fun k hk => State.num_raise _ _ _ _ _ ?_,
    fun hs => State.raise_srv _ _ _ _ (by rw [hs]; rfl),
    by rw [State.raise_sched]; exact id, fun k => by rw [State.raise_cores]; exact id⟩
  rintro rfl
  exact absurd hk (by decide)

theorem countRaise {k c i : Nat} {b : Bool} (h : Guarded s t) (hk : k ∉ secureKeys) : Guarded s (t.countRaise k c i b) := (h.bump hk).raise

theorem modCore {c : Fin 16} {f : Core → Core} (h : Guarded s t) (hf : ∀ k : Core, k.pad.wiped = true → (f k).pad.wiped = true := by exact fun _ => id) :
    Guarded s (t.modCore c f) := by
  refine h.trans ⟨rfl, rfl, rfl, fun _ _ => rfl, id, id, fun d hd => ?_⟩
  by_cases e : d = c
  · subst e
    rw [State.modCore_same]
    exact hf _ hd
  · rwa [State.modCore_other _ _ e]

theorem modSched {f : Sched → Sched} (h : Guarded s t) (hf : ∀ x : Sched, x.running_ = false → (f x).running_ = false := by exact fun _ => id) :
    Guarded s (t.modSched f) :=
  h.trans ⟨rfl, rfl, rfl, fun _ _ => rfl, id, hf _, fun _ => id⟩

theorem drawn (h : Guarded s t) : Guarded s t.drawn := h.same
theorem peonyEnd {c p : Nat} (h : Guarded s t) : Guarded s (t.peonyEnd c p) := h.same
theorem modComp {f : FrameCtx → FrameCtx} (h : Guarded s t) : Guarded s (t.modComp f) := h.same
theorem causeComp {w : CauseWord} {b : Nat} (h : Guarded s t) : Guarded s (t.causeComp w b) := h.modComp
theorem modInst {a b : Nat} {f : Inst → Inst} (h : Guarded s t) : Guarded s (t.modInst a b f) := h.modSched
theorem modNet {f : Net → Net} (h : Guarded s t) : Guarded s (t.modNet f) := h.same
theorem modHost {g : Fin 2} {f : HostOut → HostOut} (h : Guarded s t) : Guarded s (t.modHost g f) := h.modNet

/-! Ends of tasks (R215, R216, R379). -/

theorem od_notMem {i j : Nat} (hj : j < 256) (h : i ≠ 0xA000 ∧ i ≠ 0xB000 ∧ i ≠ 0xE000) : od i j ∉ secureKeys := by
  simp only [secureKeys, od, List.mem_cons, List.not_mem_nil, or_false, not_or]
  omega

theorem odCore_notMem {b : Nat} {c : Fin 16} {j : Nat} (hj : j < 256) (hb : b < 0x8000) : odCore b c j ∉ secureKeys :=
  od_notMem hj (by have := c.isLt; omega)

theorem taskOd_notMem {n j : Nat} (hj : j < 256) : taskOd n j ∉ secureKeys :=
  od_notMem hj (by have := Nat.mod_lt n (show 0 < 256 by decide); omega)

theorem recordExc {c : Fin 16} {code pc task d : Nat} (h : Guarded s t) : Guarded s (t.recordExc c code pc task d) := by
  have hk : ∀ j < 256, odCore 0x6102 c j ∉ secureKeys := fun j hj => odCore_notMem hj (by decide)
  exact ((((h.setNum (hk 1 (by decide))).setNum (hk 2 (by decide))).setNum (hk 3 (by decide))).setNum (hk 4 (by decide))).countRaise
    (hk 8 (by decide))

theorem takeOff {c : Fin 16} (h : Guarded s t) : Guarded s (t.takeOff c) := by
  unfold State.takeOff
  split
  · exact h
  · exact (h.drawn.setNum (taskOd_notMem (by decide))).modCore.modSched

theorem lose {i : Inst} {d : InstState} (h : Guarded s t) : Guarded s (t.lose i d).1 := by
  unfold State.lose
  extract_lets x s1 s2 s3 s4 s5 rest cores s6 s7
  have h3 : Guarded s s3 := h.peonyEnd.modInst.bump (taskOd_notMem (by split <;> decide))
  have h6 : Guarded s s6 := h3.modComp.raise.foldl fun _ _ h => h.takeOff
  have h7 : Guarded s s7 := h6.foldl fun _ _ h => h.peonyEnd.modInst.bump (taskOd_notMem (by decide))
  split
  · exact h3.causeComp
  · exact h7

theorem endEvery (h : Guarded s t) : Guarded s t.endEvery :=
  ((h.foldl fun _ _ h => h.recordExc.takeOff).foldl fun _ _ h => h.modInst).foldl fun _ _ h => h.lose

theorem wipeCores (h : Guarded s t) : Guarded s t.wipeCores := h.endEvery.foldl fun _ _ h => h.modCore fun _ _ => rfl

/-! Entering SAFE (R427, R429). -/

theorem showSafety (h : Guarded s t) : Guarded s t.showSafety := by
  unfold State.showSafety
  extract_lets was now s1 s2
  have h1 : Guarded s s1 := h.setNum (by decide)
  have h2 : Guarded s s2 := (h1.setNum (by decide)).ite h1
  exact h2.raise.ite h2

/-- What follows a cause of SAFE. -/
theorem enterSafe_sets {b : Nat} : Guarded (t.setMask (od 0xA000 0x0A) b) (t.enterSafe b) :=
  ite_keep (P := Guarded _) (refl _) (((refl _).modSched fun _ _ => rfl).endEvery.raise.showSafety)

/-! A datagram leaves by the HOST ports (R443-R450, R483). -/

theorem usePn {p an sci pn : Nat} {tx : Bool} (h : Guarded s t) : Guarded s (t.usePn p tx an sci pn) := by
  unfold State.usePn
  extract_lets mine
  split
  · exact h
  · extract_lets warn s1
    have h1 : Guarded s s1 := h.trans ⟨rfl, rfl, rfl, fun _ _ => rfl, id, id, fun _ => id⟩
    exact h1.raise.ite h1

theorem transmit {f : TxFrame} (h : Guarded s t) : Guarded s (t.transmit f) := by
  unfold State.transmit
  extract_lets put
  have hk : ∀ p, netOd p 9 ∉ secureKeys := fun p => by
    simp only [netOd, secureKeys, secureKeys, od, List.mem_cons, List.not_mem_nil, or_false, not_or]
    omega
  have hp : ∀ u g, Guarded s u → Guarded s (put u g) := fun u g h => (h.bump (hk _)).modNet
  refine h.ite (ite ?_ (hp _ _ h))
  split
  · exact h
  · exact h.ite (hp _ _ h.usePn)

theorem accrue {g : Fin 2} {n : Nat} (h : Guarded s t) : Guarded s (t.accrue g n) := by
  unfold State.accrue State.credits
  exact h.modHost

theorem letIn {n : Nat} {g : Fin 2} (h : Guarded s t) : Guarded s (State.letIn n t g) := by
  induction n generalizing t with
  | zero => exact h
  | succ n ih =>
    rw [State.letIn]
    split
    · exact h
    · exact h.ite (ih h.modHost)

theorem egress_notMem {g : Fin 2} {j : Nat} (hj : j < 256) : od (0x183A + g.val) j ∉ secureKeys :=
  od_notMem hj (by have := g.isLt; omega)

theorem hostAdmit {g : Fin 2} (h : Guarded s t) : Guarded s (t.hostAdmit g) := h.letIn.setNum (egress_notMem (by decide))

theorem onLine {g : Fin 2} {f : TxFrame} {n : Nat} (h : Guarded s t) : Guarded s (t.onLine g f n) := h.modHost.modHost.transmit

theorem hostDrain {n m : Nat} {g : Fin 2} (h : Guarded s t) : Guarded s (State.hostDrain n t g m) := by
  induction n generalizing t m with
  | zero => exact h
  | succ n ih =>
    rw [State.hostDrain]
    have h1 : Guarded s (t.accrue g m) := h.accrue
    split
    · exact ih (h1.modHost.onLine.hostAdmit.bump (egress_notMem (by decide)))
    · split
      · exact ih h1
      · exact h1

theorem hostSend {g : Fin 2} {f : TxFrame} (h : Guarded s t) : Guarded s (t.hostSend g f) :=
  h.ite (h.onLine.ite h.accrue.modHost.hostAdmit.hostDrain)

theorem sendOn {g : Fin 2} {c p a b i : Nat} {r : Option Nat} {d : Bytes} (h : Guarded s t) : Guarded s (t.sendOn g c r p a b i d) := by
  unfold State.sendOn
  split
  · exact h
  · exact h.modHost.hostSend

theorem sendUdp {c a b i : Nat} {d : Bytes} (h : Guarded s t) : Guarded s (t.sendUdp c a b i d) := by
  unfold State.sendUdp State.useSeq
  exact h.modNet.sendOn.sendOn

end Guarded

end Sys2Proof.Machine
end

