-- ==== Sys2Proof/Proofs/SessionReplies.lean ====
section
/-! SUPPORT. Sessions as `Guarded` keeps them, and requests that a session's turn serves (R488, R490): taken, executed, answered. -/

namespace Sys2Proof.Machine

variable {s t u : State} {id : Nat} {x y : Session} {r : HapReq}

/-! What is known of a session. -/

/-- The session of an ID is `y`, but for events that wait to be notified. -/
def State.knows (s : State) (id : Nat) (y : Session) : Prop := (s.session id).map Session.deaf = some y.deaf

theorem State.people_find (s : State) (id : Nat) : s.people.find? (fun y => y.id == id) = (s.session id).map Session.deaf := List.find?_map ..

theorem State.knows_of_session (h : s.session id = some x) : s.knows id x := congrArg (Option.map Session.deaf) h

theorem State.knows.congr (h : s.knows id y) (hp : t.people = s.people) : t.knows id y := by
  rwa [State.knows, ← State.people_find, hp, State.people_find]

/-- An update of the session that is known. -/
theorem State.knows.modSession {f : Session → Session} (h : s.knows id y) (hi : ∀ x, (f x).id = x.id := by exact fun _ => rfl)
    (hf : ∀ x, (f x).deaf = (f x.deaf).deaf := by exact fun _ => rfl) : (s.modSession id f).knows id (f y) := by
  have h1 : (s.modSession id f).session id = (s.session id).map f :=
    find?_modifyFirst (fun x hx => by rw [hi]; exact hx) s.hap.sessions
  obtain ⟨x, hx, hy⟩ := Option.map_eq_some_iff.1 h
  rw [State.knows, h1, hx]
  exact congrArg some ((hf x).trans ((congrArg (fun z => (f z).deaf) hy).trans (hf y).symm))

/-- What does not depend on waiting events holds of a session as it is known. -/
theorem State.knows.sessionHas {p : Session → Bool} (h : s.knows id y) (hy : p y = true) (hp : ∀ x, p x = p x.deaf := by exact fun _ => rfl) :
    s.sessionHas id p := by
  obtain ⟨x, hx, he⟩ := Option.map_eq_some_iff.1 h
  rw [State.sessionHas, hx]
  exact (hp x).trans ((congrArg p he).trans ((hp y).symm.trans hy))

theorem State.session_id (h : s.session id = some x) : x.id = id := beq_iff_eq.1 (List.find?_some (p := fun x : Session => x.id == id) h)

/-! Requests (R484, R488, R490). -/

/-- A session whose request `r` has been taken at an instant. -/
def Session.takes (x : Session) (r : HapReq) (now : Nat) : Session := { x with lastTime := now, lastSeq := r.seq, reply := [] }

theorem modifyFirst_twice {α : Type} {p : α → Bool} {f g : α → α} (hf : ∀ x, p (f x) = p x) (l : List α) :
    modifyFirst p g (modifyFirst p f l) = modifyFirst p (fun x => g (f x)) l := by
  induction l with
  | nil => rfl
  | cons x l ih =>
    by_cases hx : p x = true
    · rw [modifyFirst, if_pos hx, modifyFirst, if_pos ((hf x).trans hx), modifyFirst, if_pos hx]
    · rw [modifyFirst, if_neg hx, modifyFirst, if_neg hx, ih, modifyFirst, if_neg hx]

theorem State.modSession_twice (s : State) (id : Nat) {f : Session → Session} (g : Session → Session) (hf : ∀ x, (f x).id = x.id) :
    (s.modSession id f).modSession id g = s.modSession id (fun x => g (f x)) := by
  unfold State.modSession
  exact congrArg (fun l => { s with hap := { s.hap with sessions := l } }) (modifyFirst_twice (p := fun x => x.id == id) (fun x => congrArg (· == id) (hf x)) s.hap.sessions)

theorem State.taken_knows (h : s.session r.session = some x) : (s.taken r).knows r.session (x.takes r (Nat.max s.frame.now r.t)) :=
  (State.knows_of_session (s := (s.at r.t).quiet) h).modSession (f := fun x => x.takes r (Nat.max s.frame.now r.t))

theorem State.taken_obj (s : State) (r : HapReq) {k : Nat} (h : k ≠ od 0x1B00 0x0A) : (s.taken r).obj k = s.obj k := State.obj_bump_other _ _ h

/-- A request that the module serves, and to which the operation replies, is answered in the state in which it was taken. -/
theorem State.hapRequest_serves (h : s.serves r x) {op : Nat} {b : Bool} {f : State → Session → State × HapAns} {st : Nat} {body : Bytes}
    (hf : f (s.taken r) x = (u, .reply st body)) :
    s.hapRequest r op b f = u.replyTo r.session r.srcIp r.srcPort op r.seq st body := by
  obtain ⟨h1, h2, h3, h4, h5, h6, h7⟩ := h
  have e2 : ¬ (r.seq = x.lastSeq ∧ (!x.reply.isEmpty) = true) := fun ⟨e, he⟩ => by rw [h5 e] at he; cases he
  have e3 : ((s.at r.t).quiet.modSession r.session (fun x => { x with lastTime := Nat.max s.frame.now r.t })).modSession r.session
      (fun x => { x with lastSeq := r.seq, reply := [] }) = (s.at r.t).quiet.modSession r.session (fun x => x.takes r (Nat.max s.frame.now r.t)) :=
    State.modSession_twice _ _ _ fun _ => rfl
  have e4 : ¬ ((s.taken r).sec.effective = 6 ∧ (!b) = true) := fun e => h7 e.1
  unfold State.hapRequest
  dsimp only
  rw [if_neg (by rw [State.quiet_power, State.at_power, h1]; decide), if_neg (by rw [h2]; decide)]
  have h3' : (s.at r.t).quiet.session r.session = some x := h3
  rw [h3']
  dsimp only
  rw [if_neg (by rw [h4]; decide), if_neg e2, if_neg (not_not.2 h6)]
  have e5 : ((((s.at r.t).quiet.modSession r.session (fun x => { x with lastTime := (s.at r.t).quiet.frame.now })).modSession r.session
      (fun x => { x with lastSeq := r.seq, reply := [] })).bump (od 0x1B00 0x0A)) = s.taken r := congrArg (State.bump · (od 0x1B00 0x0A)) e3
  rw [e5, if_neg e4, hf]

/-- The reply to a request that was taken, kept for a repeat: what it leaves of the state in which the request was executed. -/
theorem State.replyTo_answers (hk : u.knows r.session y) (hq : y.lastSeq = r.seq) (ht : y.lastTime = Nat.max s.frame.now r.t) (op st : Nat)
    (body : Bytes) : let t := u.replyTo r.session r.srcIp r.srcPort op r.seq st body
    s.answered t r op st body ∧ t.knows r.session { y with reply := hapMsg op 1 st r.session r.seq body } ∧ t.sec.bare = u.sec.bare ∧
      ∀ k ∈ secureKeys, t.num k = u.num k := by
  intro t
  let v := u.modSession r.session (fun y => { y with reply := hapMsg op 1 st r.session r.seq body })
  have hg : Guarded v (v.sendUdp 1 44100 r.srcPort r.srcIp (hapMsg op 1 st r.session r.seq body)) := (Guarded.refl v).sendUdp
  have hv : v.knows r.session { y with reply := hapMsg op 1 st r.session r.seq body } := hk.modSession
  have hs : t.knows r.session { y with reply := hapMsg op 1 st r.session r.seq body } := hv.congr hg.people
  refine ⟨⟨rfl, rfl, hs.sessionHas ?_⟩, hs, hg.sec, hg.num⟩
  simp only [hq, ht, beq_self_eq_true, Bool.and_self]

/-- What a served request leads to: its answer, and its session, the security block and the secure objects as the operation left them. -/
theorem State.serves_answers (h : s.serves r x) {op : Nat} {b : Bool} {f : State → Session → State × HapAns} {st : Nat} {body : Bytes}
    (hf : f (s.taken r) x = (u, .reply st body)) (hk : u.knows r.session y) (hq : y.lastSeq = r.seq)
    (ht : y.lastTime = Nat.max s.frame.now r.t) :
    ∃ t, Host.Outcome.next (s.hapRequest r op b f) = (.next t : Out) ∧ s.answered t r op st body ∧
      t.knows r.session { y with reply := hapMsg op 1 st r.session r.seq body } ∧ t.sec.bare = u.sec.bare ∧ ∀ k ∈ secureKeys, t.num k = u.num k :=
  ⟨_, congrArg Host.Outcome.next (State.hapRequest_serves h hf), State.replyTo_answers hk hq ht op st body⟩

end Sys2Proof.Machine
end

