-- ==== Sys2Proof/Proofs/LifeCycle.lean ====
section
/-! SUPPORT. What the life cycle, an unlock and a start-up make of the security block (R248, R525-R533, R557). -/

namespace Sys2Proof.Machine

variable {s t u : State}

/-! The closed gate and signatures depend on little of the state. -/

theorem State.gateShut_congr (hf : t.frame = s.frame) (hx : t.sec = s.sec) (h1 : t.obj (od 0xC000 1) = s.obj (od 0xC000 1))
    (h2 : t.obj (od 0xC000 2) = s.obj (od 0xC000 2)) : t.gateShut = s.gateShut := by
  rw [State.gateShut, State.updateGate, State.flag, hf, hx, State.num_of_obj h1, State.num_of_obj h2, ← State.flag, ← State.updateGate,
    ← State.gateShut]

theorem State.signedBy_congr (hf : t.frame = s.frame) (hx : t.sec = s.sec) (h1 : t.obj (od 0x2000 1) = s.obj (od 0x2000 1)) (rec : Bytes) (role : Nat)
    (body trailer : Bytes) : t.signedBy rec role body trailer = s.signedBy rec role body trailer := by
  have hk : t.keyRecordOk rec role = s.keyRecordOk rec role := by
    unfold State.keyRecordOk State.datesOk State.day
    rw [hf, hx, State.num_of_obj h1]
  rw [State.signedBy, hk, ← State.signedBy]

/-! Transitions (R248, R526, R527). -/

/-- A core that has wiped (R248). -/
def Core.wipes (k : Core) : Core :=
  { k with
    seq := { k.seq with arrayQ := [], dmaQ := [], task := none, wait := .none }
    arr := { k.arr with running := none, cur := none, held := none, replays := [], pending := [], merges := [], storeJobs := [] }
    gets := []
    pad := { k.pad.closeConfidential with wiped := true } }

theorem State.wipeCores_eq (s : State) : s.wipeCores = (List.finRange 16).foldl (fun s c => s.modCore c Core.wipes) s.endEvery := rfl

/-- All cores wipe and report it (R248). -/
theorem State.wipeCores_wiped (s : State) (c : Fin 16) : (s.wipeCores.cores[c]).pad.wiped = true := by
  rw [State.wipeCores_eq, State.foldl_modCore_all]
  rfl

/-- The security block while a wipe runs. -/
def Sec.wipes (x : Sec) (target : Option Nat) : Sec := { x with wiping := true, held := false, wipeTarget := target }

theorem Guarded.wipes (h : Guarded s t) (target : Option Nat) : (t.modSec (Sec.wipes · target)).people = s.people ∧
    (t.modSec (Sec.wipes · target)).sec.bare = (s.sec.wipes target).bare :=
  ⟨h.people, congrArg (Sec.wipes · target) h.sec⟩

theorem State.beginWipe_eq (s : State) (target : Option Nat) : s.beginWipe target = s.wipeCores.modSec (Sec.wipes · target) := rfl

/-- What the begin of a wipe leaves of the sessions and of the security block. -/
theorem State.beginWipe_keeps (s : State) (target : Option Nat) : (s.beginWipe target).people = s.people ∧
    (s.beginWipe target).sec.bare = (s.sec.wipes target).bare := by
  rw [State.beginWipe_eq]
  exact (Guarded.refl s).wipeCores.wipes target

theorem State.beginWipe_wiped (s : State) (target : Option Nat) (c : Fin 16) : ((s.beginWipe target).cores[c]).pad.wiped = true := by
  have h := s.wipeCores_wiped c
  rw [State.beginWipe_eq]
  generalize s.wipeCores = u at h ⊢
  exact h

/-- A transition that falls due, or is held back, changes no session and forgets no failure. -/
theorem State.syncLife_keeps (s : State) : s.syncLife.people = s.people ∧ s.syncLife.sec.fails = s.sec.fails := by
  unfold State.syncLife
  split
  · exact ⟨rfl, rfl⟩
  split
  · exact ⟨rfl, rfl⟩
  split
  · split
    · exact ⟨rfl, rfl⟩
    · exact ⟨State.raise_people .., by rw [State.raise_sec]; rfl⟩
  · exact ⟨(s.beginWipe_keeps none).1, (congrArg Sec.fails (s.beginWipe_keeps none).2 :)⟩

/-- The gate lets a transition begin. -/
theorem State.syncLife_open (hw : s.sec.wiping = false) (hg : s.gateShut = false) : s.syncLife.sec.held = false ∧
    s.syncLife.sec.wiping = decide (s.lifeWanted ≠ s.sec.effective) ∧ s.syncLife.sec.effective = s.sec.effective := by
  unfold State.syncLife
  rw [hw, if_neg Bool.false_ne_true, hg, if_neg Bool.false_ne_true]
  have hb := (s.beginWipe_keeps none).2
  split
  case isTrue h => exact ⟨rfl, hw.trans (by simp [h]), rfl⟩
  case isFalse h => exact ⟨(congrArg Sec.held hb :), (congrArg Sec.wiping hb :).trans (by simp [h, Sec.wipes, Sec.bare]), (congrArg Sec.effective hb :)⟩

theorem State.openDebug_keeps (s : State) : s.openDebug.people = s.people ∧ s.openDebug.sec.fails = s.sec.fails := by
  unfold State.openDebug
  split
  · exact ⟨rfl, rfl⟩
  · exact ⟨State.raise_people .., by rw [State.raise_sec]; rfl⟩

/-! Unlocking (R528-R531). -/

theorem State.unlocked_keeps (s : State) : s.unlocked.people = s.people ∧ s.unlocked.sec.fails = 0 := by
  let v := (s.modSec (fun x => { x with fails := 0 })).raise 0xB001
  have hv : v.people = s.people ∧ v.sec.fails = 0 := ⟨State.raise_people .., by rw [State.raise_sec]; rfl⟩
  exact ⟨v.syncLife.openDebug_keeps.1.trans (v.syncLife_keeps.1.trans hv.1), v.syncLife.openDebug_keeps.2.trans (v.syncLife_keeps.2.trans hv.2)⟩

/-- A level is granted where the gate does not refuse the transition (R527, R529). -/
theorem State.grant_open (h : s.gateShut = false) (id : Nat) (l : Level) (n : Nat) (d : Bool) :
    s.grant id l n d = ((s.modSession id (fun y => { y with
      level := l, levelEnd := if n = 0 then none else some (s.frame.now + 1000000000 * n), debug := d })).unlocked,
      .reply 0 (natLe 1 l.rank ++ zeros 3 ++ natLe 4 n)) := by
  unfold State.grant
  extract_lets v
  have hv : v.gateShut = false := (State.gateShut_congr rfl rfl rfl rfl).trans h
  rw [State.openingRefused, hv, Bool.false_and, if_neg Bool.false_ne_true]

/-- A wrong proof or token is counted; from the third in a row on a lockout runs (R530). -/
theorem State.unlockFailed_counts (s : State) : s.unlockFailed.people = s.people ∧ s.unlockFailed.sec.fails = s.sec.fails + 1 ∧
    s.unlockFailed.num (od 0xB000 2) = Od.counter (od 0xB000 2) (s.num (od 0xB000 2) + 1) ∧
    s.unlockFailed.sec.lockoutEnd =
      if 2 ≤ s.sec.fails then s.frame.now + 1000000000 * lockoutFor (s.sec.fails + 1) else s.sec.lockoutEnd := by
  unfold State.unlockFailed
  extract_lets n v f w
  have hx : v.sec = s.sec := State.raise_sec ..
  have hn : v.num (od 0xB000 2) = n :=
    (State.num_raise _ _ _ _ _ (by decide)).trans (congrArg (fun v => (OdVal.toInt v).toNat) (State.obj_store s (od 0xB000 2) (.num n)))
  have hp : v.people = s.people := State.raise_people ..
  have hf : f = s.sec.fails + 1 := by rw [← hx]
  have ht : w.frame.now = s.frame.now := congrArg FrameSt.now (State.raise_frame ..)
  split
  case isTrue h => exact ⟨hp, hf, hn, by rw [if_neg (by omega)]; exact (congrArg Sec.lockoutEnd hx :)⟩
  case isFalse h =>
    refine ⟨(State.raise_people ..).trans hp, ?_, (State.num_raise _ _ _ _ _ (by decide)).trans hn, ?_⟩
    · rw [State.raise_sec]
      exact hf
    · rw [State.raise_sec, if_pos (by omega), ← hf, ← ht]
      rfl

/-! SAFE (R427, R429). -/

theorem State.setMask_bit (s : State) (k b : Nat) : bitAt ((s.setMask k b).num k) b = true := by
  rw [State.setMask, State.num_setNum, bitAt_setBit]
  simp

theorem State.showSafety_safe (h : s.safetyOf = 3) : s.showSafety.num (od 0xA000 2) = 3 := by
  unfold State.showSafety
  rw [h]
  extract_lets was n v w
  have hv : v.num (od 0xA000 2) = 3 := State.num_setNum ..
  have hw : w.num (od 0xA000 2) = 3 :=
    ite_keep (P := fun t : State => t.num (od 0xA000 2) = 3) ((State.num_setNum_other v 5 (by decide)).trans hv) hv
  rwa [if_neg (by simp)]

/-- A cause of SAFE makes the module safe. -/
theorem State.enterSafe_makes (h : t.num (od 0xA000 0x0A) = s.num (od 0xA000 0x0A)) (b : Nat) : s.madeSafe (t.enterSafe b) b := by
  let v := t.setMask (od 0xA000 0x0A) b
  let w := ((v.modSched (fun x => { x with running_ := false })).endEvery).raise 0xA007
  have hv : bitAt (v.num (od 0xA000 0x0A)) b = true := t.setMask_bit _ b
  have hw : Guarded (v.modSched (fun x => { x with running_ := false })) w := (Guarded.refl _).endEvery.raise
  unfold State.enterSafe
  extract_lets before u v1
  split
  case isTrue h0 => exact ⟨hv, fun h1 => absurd (h.trans h1) h0⟩
  case isFalse h0 =>
    have hb : bitAt (w.num (od 0xA000 0x0A)) b = true := by rwa [hw.num _ (by decide)]
    have hg : Guarded w w.showSafety := (Guarded.refl w).showSafety
    refine ⟨by rwa [hg.num _ (by decide)], fun _ => ⟨?_, hg.stopped (hw.stopped rfl)⟩⟩
    have h3 : w.safetyOf = 3 := if_pos fun e => by rw [e] at hb; exact absurd hb (by simp [bitAt_eq_testBit])
    exact State.showSafety_safe h3

end Sys2Proof.Machine
end

