-- ==== Sys2Proof/Proofs/Unlocking.lean ====
section
/-! THEOREMS. Requests that unlock (R528-R532): the challenge, the response and LOCK. -/

namespace Sys2Proof.Machine

variable {s : State} {r : HapReq} {x : Session} {n : Nonce}

/-! UNLOCK_CHALLENGE (R528, R530). -/

/-- A challenge's body (R528). -/
def challengeOk (b : Bytes) : Prop := b.length = 4 ∧ allZero (b.drop 1) = true ∧ (fieldLe b 0 1 = 1 ∨ fieldLe b 0 1 = 2)

theorem execUnlockChallenge_gives (h : s.serves r x) (hb : challengeOk r.body) (hl : s.sec.lockoutEnd ≤ Nat.max s.frame.now r.t) :
    ∃ t, exec (.unlockChallenge r) s = .next t ∧
      s.answered t r 0x30 0 (s.freshBytes 32 ++ padTo 16 (s.oct (od 0 3)) ++ natLe 1 s.sec.effective ++ zeros 3) ∧
      t.sessionHas r.session (fun y => y.nonce == some { kind := fieldLe r.body 0 1, bytes := s.freshBytes 32, at_ := Nat.max s.frame.now r.t }) := by
  obtain ⟨h1, h2, h3⟩ := hb
  obtain ⟨-, -, hx, -⟩ := id h
  have hk := ((State.taken_knows hx).congr (t := (s.taken r).drawn) rfl).modSession (f := fun y => { y with
    nonce := some { kind := fieldLe r.body 0 1, bytes := s.freshBytes 32, at_ := Nat.max s.frame.now r.t } })
  have hlock : (s.taken r).lockedOut = false := decide_eq_false (Nat.not_lt.2 hl)
  refine (State.serves_answers h ?_ hk rfl rfl).imp fun t ⟨ht, ha, hs, _⟩ => ⟨ht, ha, hs.sessionHas (beq_self_eq_true _)⟩
  rw [← State.oct_of_obj (s.taken_obj r (k := od 0 3) (by decide))]
  dsimp only
  rw [if_neg (by rw [h1, h2]; decide), if_neg (by omega), hlock, if_neg Bool.false_ne_true, State.session_id hx]
  rfl

theorem execUnlockChallenge_locked (h : s.serves r x) (hb : challengeOk r.body) (hl : Nat.max s.frame.now r.t < s.sec.lockoutEnd) :
    ∃ t, exec (.unlockChallenge r) s = .next t ∧ s.answered t r 0x30 7 [] := by
  obtain ⟨h1, h2, h3⟩ := hb
  obtain ⟨-, -, hx, -⟩ := id h
  have hlock : (s.taken r).lockedOut = true := decide_eq_true hl
  refine (State.serves_answers h ?_ (State.taken_knows hx) rfl rfl).imp fun t ⟨ht, ha, _⟩ => ⟨ht, ha⟩
  dsimp only
  rw [if_neg (by rw [h1, h2]; decide), if_neg (by omega), hlock, if_pos rfl]

/-! UNLOCK_RESPONSE (R528-R532). -/

/-- The state in which a response is judged: its nonce has served. -/
def State.judging (s : State) (r : HapReq) : State := (s.taken r).modSession r.session (fun y => { y with nonce := none })

/-- A session whose response is judged at an instant. -/
def Session.judged (x : Session) (r : HapReq) (now : Nat) : Session := { x.takes r now with nonce := none }

theorem State.judging_knows (h : s.session r.session = some x) : (s.judging r).knows r.session (x.judged r (Nat.max s.frame.now r.t)) :=
  (State.taken_knows h).modSession

theorem State.judging_obj (s : State) (r : HapReq) {k : Nat} (h : k ≠ od 0x1B00 0x0A) : (s.judging r).obj k = s.obj k := s.taken_obj r h

theorem State.judging_gateShut (s : State) (r : HapReq) : (s.judging r).gateShut = (s.at r.t).gateShut :=
  State.gateShut_congr rfl rfl (s.judging_obj r (by decide)) (s.judging_obj r (by decide))

theorem State.judging_proof (s : State) (r : HapReq) (b : Bytes) (who : Nat) : (s.judging r).workshopProof b who = s.workshopProof b who := by
  unfold State.workshopProof
  rw [State.oct_of_obj (s.judging_obj r (by decide))]

theorem State.judging_token (s : State) (r : HapReq) (b : Bytes) (i f v : Nat) : (s.judging r).vendorToken b i f v = s.vendorToken b i f v := by
  unfold State.vendorToken
  rw [State.oct_of_obj (s.judging_obj r (by decide))]

/-- A response in time to the session's challenge. -/
structure State.responds (s : State) (r : HapReq) (x : Session) (n : Nonce) (kind : Nat) : Prop where
  serves : s.serves r x
  body : responseOk r.body = true
  nonce : x.nonce = some n
  good : n.good (fieldLe r.body 0 1) (Nat.max s.frame.now r.t) = true
  kind : fieldLe r.body 0 1 = kind

theorem State.responds.session {kind : Nat} (h : s.responds r x n kind) : s.session r.session = some x := h.serves.2.2.1

theorem State.responds.judged_good {kind : Nat} (h : s.responds r x n kind) :
    n.good (fieldLe r.body 0 1) ((s.taken r).modSession r.session fun y => { y with nonce := none }).frame.now = true := h.good

/-- A workshop proof is judged where a verifier is set (R528). -/
theorem State.judging_verifier (hv : (s.oct (od 0xB000 4)).isEmpty = false) :
    (((s.taken r).modSession r.session fun y => { y with nonce := none }).oct (od 0xB000 4)).isEmpty = false := by
  rw [← State.judging, State.oct_of_obj (s.judging_obj r (by decide)), hv]

theorem execUnlockResponse_wrong (h : s.responds r x n 1) (hv : (s.oct (od 0xB000 4)).isEmpty = false)
    (hp : slice r.body 8 32 ≠ s.workshopProof n.bytes r.session) : ∃ t, exec (.unlockResponse r) s = .next t ∧ s.answered t r 0x31 6 [] ∧
      t.sec.fails = s.sec.fails + 1 ∧ t.num (od 0xB000 2) = Od.counter (od 0xB000 2) (s.num (od 0xB000 2) + 1) ∧
      t.sec.lockoutEnd =
        (if 2 ≤ s.sec.fails then Nat.max s.frame.now r.t + 1000000000 * lockoutFor (s.sec.fails + 1) else s.sec.lockoutEnd) ∧
      t.sessionHas r.session (fun y => y.level == x.level && y.nonce == none) := by
  obtain ⟨h1, h2, h3, h4⟩ := (s.judging r).unlockFailed_counts
  have hg := h.judged_good
  have hn : (s.judging r).num (od 0xB000 2) = s.num (od 0xB000 2) := State.num_of_obj (s.judging_obj r (by decide))
  refine (State.serves_answers h.serves ?_ ((State.judging_knows h.session).congr h1) rfl rfl).imp fun t ⟨ht, ha, hs, hx, hk⟩ =>
    ⟨ht, ha, (congrArg Sec.fails hx :).trans h2, (hk _ (by decide)).trans (h3.trans (by rw [hn])), (congrArg Sec.lockoutEnd hx :).trans h4,
      hs.sessionHas ?_⟩
  · dsimp only
    rw [if_neg (by rw [h.body]; decide), h.nonce, State.session_id h.session]
    dsimp only
    rw [hg, h.kind, if_neg (by decide), if_pos rfl, State.judging_verifier hv, if_neg (by decide), ← State.judging, State.judging_proof, if_pos hp]
  · exact Bool.and_eq_true_iff.2 ⟨beq_self_eq_true _, rfl⟩

theorem execUnlockResponse_right (h : s.responds r x n 1) (hv : (s.oct (od 0xB000 4)).isEmpty = false)
    (hp : slice r.body 8 32 = s.workshopProof n.bytes r.session) (ho : (s.at r.t).gateShut = false) : ∃ t, exec (.unlockResponse r) s = .next t ∧
      s.answered t r 0x31 0 (natLe 1 1 ++ zeros 3 ++ natLe 4 0) ∧ t.sec.fails = 0 ∧
      t.sessionHas r.session (fun y => y.level == .workshop && y.levelEnd == none && y.nonce == none) := by
  obtain ⟨h1, h2⟩ := ((s.judging r).modSession r.session
    (fun y => { y with level := .workshop, levelEnd := none, debug := false })).unlocked_keeps
  have hg := h.judged_good
  refine (State.serves_answers h.serves ?_ ((State.judging_knows h.session).modSession.congr h1) rfl rfl).imp fun t ⟨ht, ha, hs, hx, _⟩ =>
    ⟨ht, ha, (congrArg Sec.fails hx :).trans h2, hs.sessionHas rfl⟩
  dsimp only
  rw [if_neg (by rw [h.body]; decide), h.nonce, State.session_id h.session]
  dsimp only
  rw [hg, h.kind, if_neg (by decide), if_pos rfl, State.judging_verifier hv, if_neg (by decide), ← State.judging, State.judging_proof,
    if_neg (not_not.2 hp), State.grant_open (s.judging_gateShut r ▸ ho)]
  rfl

/-- A token's validity and flags (R528, R529): VENDOR without the debug port. -/
def tokenOk (b : Bytes) : Prop := 1 ≤ fieldLe b 4 4 ∧ fieldLe b 4 4 ≤ 86400 ∧ bitAt (fieldLe b 1 1) 0 = false

theorem execUnlockResponse_token (h : s.responds r x n 2) (hb : tokenOk r.body)
    (hv : (s.at r.t).signedBy (slice r.body 8 168) 2 (s.vendorToken n.bytes r.session (fieldLe r.body 1 1) (fieldLe r.body 4 4))
      (slice r.body 176 72) = true) (ho : (s.at r.t).gateShut = false) : ∃ t, exec (.unlockResponse r) s = .next t ∧
      s.answered t r 0x31 0 (natLe 1 2 ++ zeros 3 ++ natLe 4 (fieldLe r.body 4 4)) ∧ t.sec.fails = 0 ∧
      t.sessionHas r.session (fun y => y.level == .vendor && y.levelEnd == some (Nat.max s.frame.now r.t + 1000000000 * fieldLe r.body 4 4)) := by
  obtain ⟨h3, h4, h5⟩ := hb
  obtain ⟨h1, h2⟩ := ((s.judging r).modSession r.session (fun y => { y with
    level := .vendor, levelEnd := some (Nat.max s.frame.now r.t + 1000000000 * fieldLe r.body 4 4), debug := false })).unlocked_keeps
  have hg := h.judged_good
  have hs : (s.judging r).signedBy (slice r.body 8 168) 2 (s.vendorToken n.bytes r.session (fieldLe r.body 1 1) (fieldLe r.body 4 4))
      (slice r.body 176 72) = true :=
    (State.signedBy_congr (s := s.at r.t) (t := s.judging r) rfl rfl (s.judging_obj r (by decide)) _ _ _ _).trans hv
  refine (State.serves_answers h.serves ?_ ((State.judging_knows h.session).modSession.congr h1) rfl rfl).imp fun t ⟨ht, ha, hk, hx, _⟩ =>
    ⟨ht, ha, (congrArg Sec.fails hx :).trans h2, hk.sessionHas (Bool.and_eq_true_iff.2 ⟨rfl, beq_self_eq_true _⟩)⟩
  dsimp only
  rw [if_neg (by rw [h.body]; decide), h.nonce, State.session_id h.session]
  dsimp only
  rw [hg, h.kind, if_neg (by decide), if_neg (by decide), if_neg (by omega), ← State.judging, State.judging_token, hs, if_neg (by decide), h5,
    if_neg (by simp), State.grant_open (s.judging_gateShut r ▸ ho), if_neg (by omega)]
  rfl

/-! LOCK (R531). -/

/-- A session that has fallen to OPEN. -/
def Session.opened (x : Session) : Session := { x with level := .open, levelEnd := none, debug := false }

theorem State.knows.dropLevel {id : Nat} {y : Session} (h : s.knows id y) : (s.dropLevel id).knows id y.opened :=
  (h.modSession (f := Session.opened)).congr (State.syncLife_keeps (s.modSession id Session.opened)).1

theorem execLock_opens (h : s.serves r x) (hb : r.body = []) : ∃ t, exec (.lock r) s = .next t ∧ s.answered t r 0x32 0 [] ∧
    t.sessionHas r.session (fun y => y.level == .open && y.levelEnd == none && !y.debug) := by
  obtain ⟨-, -, hx, -⟩ := id h
  refine (State.serves_answers h ?_ (State.taken_knows hx).dropLevel rfl rfl).imp fun t ⟨ht, ha, hs, _⟩ => ⟨ht, ha, hs.sessionHas rfl⟩
  rw [hb, State.session_id hx]
  exact if_pos rfl

end Sys2Proof.Machine
end

