-- ==== Sys2Proof/Proofs/ExpiryAndTamper.lean ====
section
/-! THEOREMS. Expiry, attestation, the life cycle, tamper and the debug port (R248, R523, R525-R527, R530-R533): O56. -/

namespace Sys2Proof.Machine

variable {s : State} {x : Session} {id t' : Nat} {w : Writer}

/-! VENDOR_EXPIRY and LOCKOUT_EXPIRY (R530, R531). -/

theorem execVendorExpiry_ends {e : Nat} (h : s.session id = some x) (he : x.levelEnd = some e) (hn : e ≤ Nat.max s.frame.now t') :
    ∃ t, exec (.vendorExpiry id t') s = .next t ∧ t.sessionHas id (fun y => y.level == .open && y.levelEnd == none && !y.debug) := by
  have hb : ((s.at t').session id).bind (fun x => x.levelEnd) = some e := (congrArg (·.bind (fun x => x.levelEnd)) h).trans he
  refine ⟨(s.at t').dropLevel id, congrArg Host.Outcome.next ?_, (State.knows_of_session (s := s.at t') h).dropLevel.sessionHas rfl⟩
  rw [hb]
  exact if_pos hn

theorem execVendorExpiry_early {e : Nat} (h : s.session id = some x) (he : x.levelEnd = some e) (hn : Nat.max s.frame.now t' < e) :
    exec (.vendorExpiry id t') s = .next (s.at t') := by
  have hb : ((s.at t').session id).bind (fun x => x.levelEnd) = some e := (congrArg (·.bind (fun x => x.levelEnd)) h).trans he
  refine congrArg Host.Outcome.next ?_
  rw [hb]
  exact if_neg (Nat.not_le.2 hn)

theorem execLockoutExpiry_ends (h : s.sec.lockoutEnd ≤ Nat.max s.frame.now t') :
    ∃ t, exec (.lockoutExpiry t') s = .next t ∧ t.sec = { s.sec with lockoutEnd := 0 } :=
  ⟨(s.at t').modSec (fun x => { x with lockoutEnd := 0 }), congrArg Host.Outcome.next (if_pos h), rfl⟩

theorem execLockoutExpiry_early (h : Nat.max s.frame.now t' < s.sec.lockoutEnd) : exec (.lockoutExpiry t') s = .next (s.at t') :=
  congrArg Host.Outcome.next (if_neg (Nat.not_le.2 h))

/-! Attestation (R523). -/

theorem execAttestQuoteReady_signs (h : s.session id = some x) (ha : x.attestAt.isSome = true) (hi : s.identityOk = true) :
    ∃ t, exec (.attestQuoteReady id t') s = .next t ∧
      t.sessionHas id (fun y => y.quote == (s.at t').quote x.attestNonce && y.attestAt == none) := by
  have hx : (s.at t').session id = some x := h
  have hi' : (s.at t').identityOk = true := hi
  refine ⟨(s.at t').modSession id (fun y => { y with attestAt := none, quote := (s.at t').quote x.attestNonce }), congrArg Host.Outcome.next ?_,
    (State.knows_of_session hx).modSession.sessionHas (Bool.and_eq_true_iff.2 ⟨beq_self_eq_true _, rfl⟩)⟩
  rw [hx]
  exact if_neg (by simp [hi', Option.isNone_iff_eq_none, Option.isSome_iff_ne_none.1 ha])

theorem execAttestQuoteReady_noKey (hi : s.identityOk = false) : exec (.attestQuoteReady id t') s = .next (s.at t') := by
  have hi' : (s.at t').identityOk = false := hi
  refine congrArg Host.Outcome.next ?_
  split
  · rfl
  · exact if_pos (.inr (by rw [hi']; rfl))

/-- A write that passes the shared tests is of a session that exists. -/
theorem State.accepts_session {i j : Nat} {v : OdVal} (h : (s.at w.t).accepts w i j v) : ∃ x, s.session w.session = some x := by
  unfold State.accepts State.mayCommand at h
  split at h
  · exact ⟨_, by assumption⟩
  · cases h

theorem execAttestNonce_starts {nonce : Bytes} (h : (s.at w.t).accepts w 0xB003 1 (.oct nonce)) (hc : attestCheck s = 0) :
    ∃ t, exec (.attestNonce w nonce) s = .next t ∧ t.hap.lastStatus = 0 ∧
      t.sessionHas w.session (fun y => y.attestNonce == nonce && y.attestAt == some (Nat.max s.frame.now w.t) && y.quote == []) := by
  obtain ⟨x, hx⟩ := State.accepts_session h
  have hk := (State.knows_of_session (s := s.at w.t) hx).modSession
    (f := fun x => { x with attestNonce := nonce, attestAt := some (Nat.max s.frame.now w.t), quote := [] })
  exact ⟨((attestEffect w.session nonce (s.at w.t)).answer 0), congrArg Host.Outcome.next (State.command_passes h hc _), rfl,
    State.knows.sessionHas (s := (attestEffect w.session nonce (s.at w.t)).answer 0) hk (by simp)⟩

theorem execAttestNonce_refused {nonce : Bytes} (h : (s.at w.t).accepts w 0xB003 1 (.oct nonce)) (hc : attestCheck s ≠ 0) :
    ∃ t, exec (.attestNonce w nonce) s = .next t ∧ t.hap.lastStatus = 11 ∧ t.hap.sessions = s.hap.sessions := by
  have h11 : attestCheck s = 11 := by
    unfold attestCheck at hc ⊢
    split
    · rfl
    · rename_i hn
      exact absurd (if_neg hn) hc
  exact ⟨(s.at w.t).answer (attestCheck s), congrArg Host.Outcome.next ((State.command_accepts h _ _).trans (if_pos hc)), h11, rfl⟩

/-! LC_REQUEST (R248, R525, R526). -/

theorem execLcRequest_begins {v : BitVec 8} (h : (s.at w.t).accepts w 2 2 (.num v.toNat)) (hc : lcCheck v.toNat (s.at w.t) = 0) :
    ∃ t, exec (.lcRequest w v) s = .next t ∧ t.hap.lastStatus = 0 ∧ t.sec.wiping = true ∧ t.sec.wipeTarget = some v.toNat ∧
      t.sec.base = s.sec.base ∧ ∀ c : Fin 16, (t.cores[c]).pad.wiped = true := by
  have he : exec (.lcRequest w v) s = .next (((s.at w.t).beginWipe (some v.toNat)).answer 0) :=
    congrArg Host.Outcome.next (State.command_passes h hc _)
  obtain ⟨-, hb⟩ := (s.at w.t).beginWipe_keeps (some v.toNat)
  have hw := (s.at w.t).beginWipe_wiped (some v.toNat)
  generalize (s.at w.t).beginWipe (some v.toNat) = u at he hb hw
  exact ⟨u.answer 0, he, rfl, (congrArg Sec.wiping hb :), (congrArg Sec.wipeTarget hb :), (congrArg Sec.base hb :), hw⟩

theorem execLcRequest_refused {v : BitVec 8} (h : (s.at w.t).accepts w 2 2 (.num v.toNat)) (hc : lcCheck v.toNat (s.at w.t) ≠ 0) :
    ∃ t, exec (.lcRequest w v) s = .next t ∧ t.hap.lastStatus = lcCheck v.toNat (s.at w.t) ∧ t.sec = s.sec ∧ t.cores = s.cores :=
  ⟨(s.at w.t).answer (lcCheck v.toNat (s.at w.t)), congrArg Host.Outcome.next ((State.command_accepts h _ _).trans (if_pos hc)), rfl, rfl, rfl⟩

/-! HELD_TRANSITION_RELEASE (R527). -/

theorem execHeldTransitionRelease_goes (h : s.sec.held = true) (hg : (s.at t').gateShut = false) (hw : s.sec.wiping = false) :
    ∃ t, exec (.heldTransitionRelease t') s = .next t ∧ t.sec.held = false ∧ t.sec.wiping = decide (s.lifeWanted ≠ s.sec.effective) ∧
      t.sec.effective = s.sec.effective :=
  ⟨(s.at t').syncLife, congrArg Host.Outcome.next (if_pos ⟨h, by rw [hg]; rfl⟩), State.syncLife_open (s := s.at t') hw hg⟩

theorem execHeldTransitionRelease_shut (hg : (s.at t').gateShut = true) : exec (.heldTransitionRelease t') s = .next (s.at t') :=
  congrArg Host.Outcome.next (if_neg fun h => by rw [hg] at h; exact absurd h.2 (by decide))

/-! TAMPER_DETECT (R533). -/

/-- A tamper as it is noted: counted, stamped, told with SRV_N, and shown on the fault line. -/
def State.tamperNoted (s : State) : State :=
  let n := Od.counter (od 0xB000 6) (s.num (od 0xB000 6) + 1)
  let s := (s.store (od 0xB000 6) (.num n)).store (od 0xB000 7) (.oct (time80 s.frame.now))
  let s := s.raise 0xB004 0xFF n true
  (s.modSec (fun x => { x with tampered := true })).modSafety (fun x => { x with lineSec := true })

/-- The wipe that a tamper begins, unless one runs already. -/
def State.tamperWiped (s : State) : State :=
  if s.sec.wiping then s else s.wipeCores.modSec (fun x => { x with wiping := true, wipeTarget := none })

theorem execTamperDetect_eq (s : State) : exec (.tamperDetect t') s = .next ((s.at t').tamperNoted.tamperWiped.enterSafe 1) := rfl

/-- The security block has noted a tamper. -/
structure State.tampers (s t : State) : Prop where
  tampered : t.sec.tampered = true
  line : t.safety.lineSec = true
  srv : t.log.srv = true
  causes : t.num (od 0xA000 0x0A) = s.num (od 0xA000 0x0A)

theorem State.tamperNoted_tampers (s : State) : s.tampers s.tamperNoted := by
  unfold State.tamperNoted
  extract_lets n v w
  have hv : v.num (od 0xA000 0x0A) = s.num (od 0xA000 0x0A) :=
    (State.num_of_obj (State.obj_store_other _ _ (by decide))).trans (State.num_of_obj (State.obj_store_other _ _ (by decide)))
  exact ⟨rfl, rfl, State.raise_srv v _ _ _ (Bool.or_true _), (State.num_raise v _ _ _ _ (by decide)).trans hv⟩

theorem State.tamperNoted_wiping (s : State) : s.tamperNoted.sec.wiping = s.sec.wiping := by
  unfold State.tamperNoted
  extract_lets n v w
  exact (congrArg Sec.wiping (State.raise_sec v ..) :)

theorem State.tamperWiped_keeps (s : State) : s.tamperWiped.sec.tampered = s.sec.tampered ∧ s.tamperWiped.sec.wiping = true ∧
    s.tamperWiped.safety = s.safety ∧ (s.log.srv = true → s.tamperWiped.log.srv = true) ∧
    s.tamperWiped.num (od 0xA000 0x0A) = s.num (od 0xA000 0x0A) ∧
    (s.sec.wiping = false → ∀ c : Fin 16, (s.tamperWiped.cores[c]).pad.wiped = true) := by
  unfold State.tamperWiped
  split
  case isTrue h => exact ⟨rfl, h, rfl, id, rfl, fun e => by rw [h] at e; cases e⟩
  case isFalse h =>
    have hg : Guarded s s.wipeCores := (Guarded.refl s).wipeCores
    have hw := s.wipeCores_wiped
    generalize s.wipeCores = u at hg hw
    exact ⟨(congrArg Sec.tampered hg.sec :), rfl, hg.safety, hg.srv, hg.num _ (by decide), fun _ => hw⟩

theorem execTamperDetect_acts (s : State) (t' : Nat) : ∃ t, exec (.tamperDetect t') s = .next t ∧ t.sec.tampered = true ∧ t.sec.wiping = true ∧
    t.safety.lineSec = true ∧ t.log.srv = true ∧ s.madeSafe t 1 ∧ (s.sec.wiping = false → ∀ c : Fin 16, (t.cores[c]).pad.wiped = true) := by
  have hn := (s.at t').tamperNoted_tampers
  have hx := (s.at t').tamperNoted_wiping
  have he := execTamperDetect_eq (t' := t') s
  obtain ⟨h1, h2, h3, h4, h5, h6⟩ := (s.at t').tamperNoted.tamperWiped_keeps
  generalize (s.at t').tamperNoted.tamperWiped = u at h1 h2 h3 h4 h5 h6 he
  have hg : Guarded (u.setMask (od 0xA000 0x0A) 1) (u.enterSafe 1) := Guarded.enterSafe_sets
  have hm : s.madeSafe (u.enterSafe 1) 1 := State.enterSafe_makes (h5.trans hn.causes) 1
  refine ⟨u.enterSafe 1, he, (congrArg Sec.tampered hg.sec :).trans (h1.trans hn.tampered), (congrArg Sec.wiping hg.sec :).trans h2, ?_,
    hg.srv (h4 hn.srv), hm, fun e c => hg.wiped c (h6 (hx.trans e) c)⟩
  rw [hg.safety]
  exact (congrArg Safety.lineSec h3).trans hn.line

end Sys2Proof.Machine
end

