-- ==== Sys2Proof/Proofs/StartUp.lean ====
section
/-! THEOREMS. A start-up (R357, R360, R525, R557) and the end of a debug grant (R532): O56. -/

namespace Sys2Proof.Machine

variable {s n : State}

/-- A module that starts up: outside RUN, without sessions, the supervisor not yet loaded, the debug port shut; the base state is `b`. -/
structure State.Starting (b : Nat) (n : State) : Prop where
  run : n.frame.run = false
  sessions : n.hap.sessions = []
  booted : n.power.booted = false
  supervisor : n.power.supervisor = false
  debug : n.sec.debugOpen = false
  base : n.sec.base = b

namespace State.Starting

variable {b : Nat}

/-- Objects, the scheduler and the time unit are none of this. -/
theorem setObj {k : Nat} {v : OdVal} (h : n.Starting b) : (n.setObj k v).Starting b := ⟨h.run, h.sessions, h.booted, h.supervisor, h.debug, h.base⟩
theorem setNum {k : Nat} {v : Int} (h : n.Starting b) : (n.setNum k v).Starting b := h.setObj
theorem store {k : Nat} {v : OdVal} (h : n.Starting b) : (n.store k v).Starting b := ⟨h.run, h.sessions, h.booted, h.supervisor, h.debug, h.base⟩
theorem modSched {f : Sched → Sched} (h : n.Starting b) : (n.modSched f).Starting b := ⟨h.run, h.sessions, h.booted, h.supervisor, h.debug, h.base⟩
theorem modTime {f : TimeUnit → TimeUnit} (h : n.Starting b) : (n.modTime f).Starting b := ⟨h.run, h.sessions, h.booted, h.supervisor, h.debug, h.base⟩

theorem keepHeads (h : n.Starting b) (s : State) : (n.keepHeads s).Starting b :=
  foldl_keep (P := State.Starting b) (fun _ _ h => h.setObj) ⟨h.run, h.sessions, h.booted, h.supervisor, h.debug, h.base⟩

theorem configure (h : n.Starting b) : n.configure.Starting b := by
  unfold State.configure
  extract_lets n1 n2 n3 n4
  have h2 : n2.Starting b := foldl_keep (P := State.Starting b) (fun _ _ h => h.setNum) h.modSched
  exact h2.setNum.modTime.setNum.setNum

end State.Starting

/-- What the stores that outlive a restart begin with (R360). -/
theorem State.kept_starting (s : State) (log : List EventRec) : (s.kept log).Starting s.sec.base := ⟨rfl, rfl, rfl, rfl, rfl, rfl⟩

/-- Armed commands act on flash and on the repairs alone (R187, R253, R354). -/
theorem State.applyArmed_sec (s : State) : s.applyArmed.sec = s.sec := by
  unfold State.applyArmed
  extract_lets s1 on keys d s2 s3
  have h1 : s1.sec = s.sec := by
    refine foldl_keep (P := fun u : State => u.sec = s.sec) (fun u c h => ?_) rfl
    exact ite_keep (P := fun u : State => u.sec = s.sec) h ((State.store_sec ..).trans h)
  clear_value s1
  have h3 : s3.sec = s.sec := ite_keep (P := fun u : State => u.sec = s.sec) h1 h1
  exact ite_keep (P := fun u : State => u.sec = s.sec) h3 h3

/-- A start-up that has been counted under its cause stands in BOOT (R557). -/
theorem State.countStart_counts {b : Nat} (h : n.Starting b) (cause : Nat) (hc : od 0xEF01 cause ≠ od 0xE000 7) :
    (n.countStart cause).Starting b ∧ (n.countStart cause).num (od 0xE000 7) = cause ∧ (n.countStart cause).powerState = 2 := by
  unfold State.countStart
  extract_lets n1 n2 n3
  refine ⟨h.store.store.store.setNum, ?_, State.num_setNum ..⟩
  have h2 : n2.num (od 0xE000 7) = cause := congrArg (fun v => (OdVal.toInt v).toNat) (State.obj_store n1 (od 0xE000 7) (.num cause))
  exact (State.num_setNum_other n3 _ (by decide)).trans ((State.num_of_obj (State.obj_store_other n2 _ hc.symm)).trans h2)

/-- In DECOMMISSIONED the module is SAFE at once (R525); otherwise it stays in BOOT. -/
theorem State.decommissioned_starts {b cause : Nat} (h : n.Starting b) (hc : n.num (od 0xE000 7) = cause) (hp : n.powerState = 2) :
    n.decommissioned.num (od 0xE000 7) = cause ∧ n.decommissioned.frame.run = false ∧ n.decommissioned.hap.sessions = [] ∧
      n.decommissioned.power.booted = false ∧ n.decommissioned.power.supervisor = false ∧ n.decommissioned.sec.debugOpen = false ∧
      (b ≠ 6 → n.decommissioned.powerState = 2) := by
  unfold State.decommissioned
  split
  case isFalse => exact ⟨hc, h.run, h.sessions, h.booted, h.supervisor, h.debug, fun _ => hp⟩
  case isTrue h6 =>
    let m := (n.modSafety (fun x => { x with lineSec := true })).setMarigold 3
    have hg : Guarded (m.setMask (od 0xA000 0x0A) 1) (m.enterSafe 1) := Guarded.enterSafe_sets
    have hm : Calm n (m.enterSafe 1) := (Calm.refl n).modSafety.setMarigold.enterSafe
    have hk : (m.setMask (od 0xA000 0x0A) 1).num (od 0xE000 7) = cause :=
      (State.num_setNum_other m _ (by decide)).trans ((State.num_setNum_other _ _ (by decide)).trans hc)
    have hp : (m.enterSafe 1).people = [] := hg.people.trans (by rw [State.people]; exact congrArg (List.map Session.deaf) h.sessions)
    exact ⟨(hg.num _ (by decide)).trans hk, (State.run_of hm.standing).trans h.run, List.map_eq_nil_iff.1 hp,
      (congrArg Power.booted hm.power).trans h.booted, (congrArg Power.supervisor hm.power).trans h.supervisor,
      (congrArg Sec.debugOpen hg.sec :).trans h.debug, fun hb => absurd (h.base.symm.trans h6) hb⟩

/-- A start-up starts the module again, under its cause (R557). -/
theorem State.startUp_starts (s : State) {cause : Nat} (hc : od 0xEF01 cause ≠ od 0xE000 7) (log : List EventRec) :
    s.startsAgain (s.startUp cause log) cause := by
  have hx := s.applyArmed_sec
  unfold State.startUp
  generalize s.applyArmed = a at hx
  have h1 : (a.kept log).Starting s.sec.base := hx ▸ a.kept_starting log
  obtain ⟨h2, h3, h4⟩ := State.countStart_counts (h1.keepHeads a).configure.setNum cause hc
  exact State.decommissioned_starts h2 h3 h4

/-- Only causes 3 and 4 save first (R557). -/
theorem State.restarted_unsaved (s : State) : s.restarted 5 = s.startUp 5 s.saveAll.log.ring := by
  unfold State.restarted
  exact if_neg (by decide)

/-! DEBUG_PORT_CLOSE (R532). -/

theorem State.debugWanted_at (s : State) (t : Nat) : (s.at t).debugWanted = s.debugWanted := rfl

theorem execDebugPortClose_restarts {t' : Nat} (ho : s.sec.debugOpen = true) (hw : s.debugWanted = false) :
    ∃ t, exec (.debugPortClose t') s = .next t ∧ s.startsAgain t 5 := by
  have hb : ((s.at t').raise 0xB006).sec.base = s.sec.base := congrArg Sec.base (State.raise_sec ..)
  have he : exec (.debugPortClose t') s = .next (((s.at t').raise 0xB006).restarted 5) :=
    congrArg Host.Outcome.next (if_pos ⟨ho, by rw [State.debugWanted_at, hw]; rfl⟩)
  generalize (s.at t').raise 0xB006 = u at hb he
  obtain ⟨h1, h2, h3, h4, h5, h6, h7⟩ := u.startUp_starts (cause := 5) (by decide) u.saveAll.log.ring
  rw [State.restarted_unsaved] at he
  exact ⟨_, he, h1, h2, h3, h4, h5, h6, fun h => h7 (hb ▸ h)⟩

theorem execDebugPortClose_stays {t' : Nat} (h : s.sec.debugOpen = false ∨ s.debugWanted = true) :
    exec (.debugPortClose t') s = .next (s.at t') := by
  refine congrArg Host.Outcome.next (if_neg fun ⟨ho, hw⟩ => ?_)
  rcases h with h | h
  · exact absurd (ho.symm.trans h) (by decide)
  · rw [State.debugWanted_at, h] at hw
    cases hw

/-- Settles O56: every command's outcome, clause by clause. -/
theorem unlockingAndTheLifeCycleFollowTheirRules : Obligations.UnlockingAndTheLifeCycleFollowTheirRules := by
  unfold Obligations.UnlockingAndTheLifeCycleFollowTheirRules
  intro s
  refine ⟨fun r x h => ?_, fun id t' x h => ?_, fun w nonce h => ?_, fun w v h => ?_, fun t' => ?_⟩
  · intro now b
    refine ⟨fun h1 h2 h3 => ?_, fun n h1 h2 h3 => ?_, execLock_opens h⟩
    · exact ⟨execUnlockChallenge_gives h ⟨h1, h2, h3⟩, execUnlockChallenge_locked h ⟨h1, h2, h3⟩⟩
    · refine ⟨fun hk hv => ?_, fun hk h4 h5 h6 => execUnlockResponse_token ⟨h, h1, h2, h3, hk⟩ ⟨h4, h5, h6⟩⟩
      exact ⟨execUnlockResponse_wrong ⟨h, h1, h2, h3, hk⟩ hv, execUnlockResponse_right ⟨h, h1, h2, h3, hk⟩ hv⟩
  · exact ⟨fun e => execVendorExpiry_ends h, fun e => execVendorExpiry_early h, execAttestQuoteReady_signs h, execAttestQuoteReady_noKey⟩
  · exact ⟨execAttestNonce_starts h, execAttestNonce_refused h⟩
  · exact ⟨execLcRequest_begins h, execLcRequest_refused h⟩
  · exact ⟨execHeldTransitionRelease_goes, execHeldTransitionRelease_shut, execLockoutExpiry_ends, execLockoutExpiry_early,
      execTamperDetect_acts s t', execDebugPortClose_restarts, execDebugPortClose_stays⟩

end Sys2Proof.Machine
end

