-- ==== Sys2Proof/Proofs/PeerSending.lean ====
section
/-! SUPPORT. What the queues and frames of a PEER port touch (R258, R276-R280): the relation `Peering`, one rule per operation. -/

namespace Sys2Proof.Machine

/-! Queues are no part of the fabric. -/

section
variable (s : State) (q : Fin 24)

theorem State.driveXoff_fab : s.driveXoff.fab = s.fab := by
  unfold State.driveXoff
  extract_lets fills on y s1
  split
  · exact State.raiseIng_fab ..
  · rfl

theorem State.qClear_fab : (s.qClear q).fab = s.fab := ite_keep (P := fun t : State => t.fab = s.fab) (State.driveXoff_fab _) rfl

theorem State.qShift_fab : (s.qShift q).fab = s.fab := ite_keep (P := fun t : State => t.fab = s.fab) (State.driveXoff_fab _) rfl

theorem State.qPush_fab (k : QPacket) : (s.qPush q k).1.fab = s.fab := by
  unfold State.qPush
  split
  · rfl
  split
  · rfl
  · exact ite_keep (P := fun t : State => t.fab = s.fab) (State.driveXoff_fab _) rfl

theorem State.qPop_fab (e : QueueEcc) : (s.qPop q e).1.fab = s.fab := by
  unfold State.qPop
  split
  · rfl
  split
  · exact (State.countRaise_fab ..).trans (s.qClear_fab q)
  · exact (State.countRaise_fab ..).trans (s.qShift_fab q)
  · exact s.qShift_fab q
  · exact s.qShift_fab q

end

/-- The objects that a PEER port's queues and frames count in: those of the queues, and subindex 9, a port's count of frames sent. -/
def peerKey (k : Nat) : Prop := queueKey k ∨ k % 256 = 9

theorem not_peerKey_od {i j : Nat} (hj : j < 256) (h9 : j ≠ 9) (h : (i < 0x1830 ∨ 0x1848 ≤ i) ∧ i ≠ 0x7900) : ¬ peerKey (od i j) := by
  rintro (hq | hs)
  · exact not_queueKey_od hj h hq
  · unfold od at hs
    omega

theorem peerKey_netOd (p : Nat) : peerKey (netOd p 9) := .inr (by unfold netOd od; omega)

/-- What the queues and frames of a PEER port leave of `s` in `t`: cores, time, the fabric but for the pauses it asks for, and the objects but
for their counts. -/
structure Peering (s t : State) : Prop where
  cores : t.cores = s.cores
  fab : t.fab = { s.fab with pfcSent := t.fab.pfcSent }
  now : t.frame.now = s.frame.now
  obj : ∀ k, ¬ peerKey k → t.obj k = s.obj k

namespace Peering

variable {s t u : State} {p : Fin 2}

theorem refl (s : State) : Peering s s := ⟨rfl, rfl, rfl, fun _ _ => rfl⟩

theorem trans (h : Peering s t) (k : Peering t u) : Peering s u where
  cores := k.cores.trans h.cores
  fab := by rw [k.fab, h.fab]
  now := k.now.trans h.now
  obj x hx := (k.obj x hx).trans (h.obj x hx)

theorem ite {c : Prop} [Decidable c] (h : Peering s t) (k : Peering s u) : Peering s (if c then t else u) := ite_keep (P := Peering s) h k

theorem num (h : Peering s t) {k : Nat} (hk : ¬ peerKey k) : t.num k = s.num k := State.num_of_obj (h.obj k hk)

theorem queueing (h : Peering s t) (k : Queueing t u) (hf : u.fab = t.fab) : Peering s u :=
  h.trans ⟨k.cores, by rw [hf], k.now, fun x hx => k.obj x fun hq => hx (.inl hq)⟩

theorem qPush {q : Fin 24} {x : QPacket} (h : Peering s t) : Peering s (t.qPush q x).1 := h.queueing (Queueing.refl t).qPush (t.qPush_fab q x)

theorem qPop {q : Fin 24} {e : QueueEcc} (h : Peering s t) : Peering s (t.qPop q e).1 := h.queueing (Queueing.refl t).qPop (t.qPop_fab q e)

theorem setQueue {q : Fin 24} {x : Queue} (h : Peering s t) : Peering s (t.setQueue q x) := h.trans ⟨rfl, rfl, rfl, fun _ _ => rfl⟩

theorem bump {k n : Nat} (h : Peering s t) (hk : peerKey k) : Peering s (t.bump k n) :=
  h.trans ⟨rfl, rfl, rfl, fun _ hx => State.obj_bump_other t n fun e => hx (e ▸ hk)⟩

theorem bumpQueue {q : Fin 24} {j n : Nat} (h : Peering s t) (hj : j < 256) : Peering s (t.bump (od (0x1830 + q.val) j) n) :=
  h.bump (.inl (queueKey_od q.isLt hj))

theorem raise {c i v : Nat} {b : Bool} (h : Peering s t) : Peering s (t.raise c i v b) :=
  h.queueing (Queueing.refl t).raise (State.raise_fab ..)

theorem raiseIng {c i v : Nat} {b : Bool} (h : Peering s t) : Peering s (t.raiseIng c i v b) :=
  h.queueing (Queueing.refl t).raiseIng (State.raiseIng_fab ..)

theorem modNet {f : Net → Net} (h : Peering s t) : Peering s (t.modNet f) := h.trans ⟨rfl, rfl, rfl, fun _ _ => rfl⟩

theorem usePn {n an sci pn : Nat} {tx : Bool} (h : Peering s t) : Peering s (t.usePn n tx an sci pn) := by
  unfold State.usePn
  extract_lets mine
  split
  · exact h
  · extract_lets warn s1
    have h1 : Peering s s1 := h.trans ⟨rfl, rfl, rfl, fun _ _ => rfl⟩
    exact h1.raise.ite h1

theorem transmit {f : TxFrame} (h : Peering s t) : Peering s (t.transmit f) := by
  unfold State.transmit
  extract_lets put
  have hp : ∀ u g, Peering s u → Peering s (put u g) := fun u g h => (h.bump (peerKey_netOd _)).modNet
  refine h.ite (ite ?_ (hp _ _ h))
  split
  · exact h
  · exact h.ite (hp _ _ h.usePn)

theorem peerSend {k : QPacket} (h : Peering s t) : Peering s (t.peerSend p k) := h.transmit.bumpQueue (by decide)

theorem peerDrain (h : Peering s t) : Peering s (t.peerDrain p) := foldl_keep (P := Peering s) (fun _ _ h => h.peerSend) h.setQueue

theorem peerOut {b : Bytes} (h : Peering s t) : Peering s (t.peerOut p b) := h.qPush.peerDrain

theorem peerLook {e : QueueEcc} (h : Peering s t) : Peering s (t.peerLook p e) := by
  unfold State.peerLook
  extract_lets q
  split
  · exact h
  · exact h
  · exact h.bumpQueue (by decide)
  · exact (h.setQueue.bumpQueue (by decide)).raise
  · exact (h.setQueue.bumpQueue (by decide)).raise

theorem sendPfc {cls quanta : Nat} (h : Peering s t) : Peering s (t.sendPfc p cls quanta) := h.transmit

theorem sendPause {cls : Nat} (h : Peering s t) : Peering s (t.sendPause p cls) := h.sendPfc.ite h.sendPfc.raiseIng

theorem pfcLook {cls : Nat} (h : Peering s t) : Peering s (t.pfcLook p cls) := by
  have hs : ∀ l, Peering s { t with fab := { t.fab with pfcSent := l } } := fun l => h.trans ⟨rfl, rfl, rfl, fun _ _ => rfl⟩
  exact (hs _).sendPause.ite ((hs _).sendPfc.ite h)

end Peering

end Sys2Proof.Machine
end

