-- ==== Sys2Proof/Proofs/PauseKeeping.lean ====
section
/-! SUPPORT. What a PEER port sends when its pause ends holds no other pause and ends none (R280): the relation `KeepsPauses`, through the ends
of tasks whose messages have no way to their device (R216, R275, R379). -/

namespace Sys2Proof.Machine

/-- The pauses received that hold in `t` are those that hold in `s`. -/
def KeepsPauses (s t : State) : Prop := t.fab.pfcHeld = s.fab.pfcHeld

namespace KeepsPauses

variable {s t u : State}

theorem refl (s : State) : KeepsPauses s s := rfl

/-- An operation outside the fabric. -/
theorem same (h : KeepsPauses s t) (hf : u.fab = t.fab := by exact rfl) : KeepsPauses s u := (congrArg Fabric.pfcHeld hf).trans h

/-- An operation on the fabric's other parts. -/
theorem fabric (h : KeepsPauses s t) (hf : u.fab.pfcHeld = t.fab.pfcHeld := by exact rfl) : KeepsPauses s u := hf.trans h

theorem peering (h : KeepsPauses s t) (k : Peering t u) : KeepsPauses s u := h.fabric (by rw [k.fab])

theorem ite {c : Prop} [Decidable c] (h : KeepsPauses s t) (k : KeepsPauses s u) : KeepsPauses s (if c then t else u) :=
  ite_keep (P := KeepsPauses s) h k

theorem foldl {β : Type} {f : State → β → State} {l : List β} (h : KeepsPauses s t) (hf : ∀ t x, KeepsPauses s t → KeepsPauses s (f t x)) :
    KeepsPauses s (l.foldl f t) :=
  foldl_keep (P := KeepsPauses s) hf h

theorem countRaise {k c i : Nat} {b : Bool} (h : KeepsPauses s t) : KeepsPauses s (t.countRaise k c i b) := h.same (State.countRaise_fab ..)

theorem modCore {c : Fin 16} {f : Core → Core} (h : KeepsPauses s t) : KeepsPauses s (t.modCore c f) := h.same

theorem modInst {a b : Nat} {f : Inst → Inst} (h : KeepsPauses s t) : KeepsPauses s (t.modInst a b f) := h.same

/-! Ends of tasks (R215, R216, R379). -/

theorem recordExc {c : Fin 16} {code pc task d : Nat} (h : KeepsPauses s t) : KeepsPauses s (t.recordExc c code pc task d) :=
  h.same (State.countRaise_fab ..)

theorem padUncorrectable {c : Fin 16} {a : Nat} (h : KeepsPauses s t) : KeepsPauses s (t.padUncorrectable c a) :=
  h.same (State.countRaise_fab ..)

theorem takeOff {c : Fin 16} (h : KeepsPauses s t) : KeepsPauses s (t.takeOff c) := by
  unfold State.takeOff
  split
  · exact h
  · exact h.same

theorem lose {i : Inst} {d : InstState} (h : KeepsPauses s t) : KeepsPauses s (t.lose i d).1 := by
  unfold State.lose
  extract_lets x s1 s2 s3 s4 s5 rest cores s6 s7
  have h3 : KeepsPauses s s3 := h.same
  have h5 : KeepsPauses s s5 := h3.same (State.raise_fab ..)
  have h6 : KeepsPauses s s6 := h5.foldl fun _ _ h => h.takeOff
  have h7 : KeepsPauses s s7 := h6.foldl fun _ _ h => h.same
  split
  · exact h3.same
  · exact h7

theorem endRunning {c : Fin 16} (h : KeepsPauses s t) : KeepsPauses s (t.endRunning c).1 := by
  unfold State.endRunning
  split
  · exact h
  · exact h.recordExc.takeOff.lose

/-! The dispatch decision (R368-R373, R380). -/

theorem loadReplicas {n : Nat} {c : Fin 16} (h : KeepsPauses s t) : KeepsPauses s (t.loadReplicas c n) := by
  refine h.foldl fun t x h => ?_
  dsimp only
  split
  · exact h
  split
  · exact h
  · exact h.ite h.same

/-- The credits of a window that opens wait at their stop, in the mesh (R241). -/
theorem grantWin {c : Fin 16} {n w : Nat} (h : KeepsPauses s t) : KeepsPauses s (t.grantWin c n w) := by
  unfold State.grantWin
  extract_lets x credit s1
  have h1 : KeepsPauses s s1 := h.fabric.ite h
  exact h1.fabric.ite h1

theorem openOne {c : Fin 16} {n w : Nat} {x : WinSpec} (h : KeepsPauses s t) (e : t.openOne c n x w = some u) : KeepsPauses s u := by
  unfold State.openOne at e
  extract_lets y s1 at e
  have h1 : KeepsPauses s s1 := h.same.ite h
  split at e
  · cases e
    exact h
  split at e
  · cases e
    exact h1.same.grantWin
  · cases e

theorem openList {c : Fin 16} {n : Nat} {l : List (WinSpec × Nat)} (h : KeepsPauses s t) (e : State.openList c n l t = some u) :
    KeepsPauses s u := by
  induction l generalizing t with
  | nil =>
    cases e
    exact h
  | cons y l ih =>
    obtain ⟨v, hv, hu⟩ := Option.bind_eq_some_iff.1 e
    exact ih (h.openOne hv) hu

theorem openNamed {c : Fin 16} {d : TaskDesc} (h : KeepsPauses s t) (e : t.openNamed c d = some u) : KeepsPauses s u := h.openList e

theorem resumeInst {c : Fin 16} {i : Inst} {r : TaskRun} {q : Seq} (h : KeepsPauses s t) : KeepsPauses s (t.resumeInst c i r q).1 := by
  unfold State.resumeInst
  dsimp only
  split
  · exact h.padUncorrectable.recordExc.lose
  · with_reducible exact h.modInst.modCore.loadReplicas

theorem startInst {c : Fin 16} {i : Inst} (h : KeepsPauses s t) : KeepsPauses s (t.startInst c i).1 := by
  unfold State.startInst
  extract_lets d r s1
  split
  · exact h.resumeInst
  split
  · exact h.recordExc.countRaise.lose
  case h_2 u e => with_reducible exact (h.openNamed e).modInst.loadReplicas.modCore

theorem askPreempt {c : Fin 16} {i : Inst} {keep : Bool} (h : KeepsPauses s t) : KeepsPauses s (t.askPreempt c i keep).1 := by
  unfold State.askPreempt
  extract_lets n m s1
  have h1 : KeepsPauses s s1 := h.countRaise
  split
  · exact h
  split
  · split
    · exact h1
    · exact h1.endRunning
  · exact h.same

theorem decideOne {c : Fin 16} (h : KeepsPauses s t) : KeepsPauses s (t.decideOne c).1 := by
  unfold State.decideOne
  extract_lets x
  split
  · exact h
  split
  · split
    · exact h.same
    split
    · exact h
    · exact h.startInst
  · split
    · exact h.askPreempt
    split
    · exact h
    split
    · exact h.askPreempt
    · exact h

theorem dispatch {cs : List (Fin 16)} (h : KeepsPauses s t) : KeepsPauses s (t.dispatch cs) := by
  unfold State.dispatch
  generalize 8192 = n
  induction n generalizing t cs with
  | zero => exact h
  | succ n ih =>
    cases cs with
    | nil => exact h
    | cons c cs => exact ih h.decideOne

theorem except {c : Fin 16} {code pc d : Nat} (h : KeepsPauses s t) : KeepsPauses s (t.except c code pc d) := by
  unfold State.except
  split
  · exact h
  extract_lets s1 s2 s3
  have h3 : KeepsPauses s s3 := (h.countRaise.ite h).recordExc.takeOff
  split
  · exact h3
  · exact h3.lose.dispatch

theorem exceptRun {c : Fin 16} {r : TaskRun} {code pc : Nat} (h : KeepsPauses s t) : KeepsPauses s (t.exceptRun c r code pc) := by
  unfold State.exceptRun
  split
  · exact h.except
  split
  · extract_lets s1 s2 s3
    have h3 : KeepsPauses s s3 := (h.countRaise.ite h).recordExc.same
    exact h3.lose.dispatch.ite h
  · exact h

/-! SW and the assembly buffers (R275, R278). -/

theorem unreachable {ty : Nat} {m : Msg} (h : KeepsPauses s t) : KeepsPauses s (t.unreachable ty m) := by
  unfold State.unreachable
  extract_lets s1
  have h1 : KeepsPauses s s1 := h.same (State.raiseIng_fab ..)
  split
  · exact h1
  · split
    · exact h1.fabric.exceptRun
    · exact h1.fabric

theorem closeAssembly {dev cls : Nat} (h : KeepsPauses s t) : KeepsPauses s (t.closeAssembly dev cls) := by
  have hd : KeepsPauses s (t.dropAssembly dev cls) := h.fabric
  unfold State.closeAssembly
  split
  · exact h
  split
  · exact hd
  · exact (hd.peering (Peering.refl _).peerOut).same.ite h

theorem makeRoom {cls : Nat} {m : Msg} (h : KeepsPauses s t) : KeepsPauses s (t.makeRoom cls m) := by
  unfold State.makeRoom
  split
  · exact h.ite h.closeAssembly
  split
  · split
    · exact h.closeAssembly
    · exact h
  · exact h

theorem assemble {ty : Nat} {m : Msg} (h : KeepsPauses s t) : KeepsPauses s (t.assemble ty m) := h.fabric.ite h.fabric

theorem swClass {cls : Nat} (h : KeepsPauses s t) : KeepsPauses s (t.swClass cls) := by
  unfold State.swClass
  split
  · exact h
  split
  · exact h
  · extract_lets took s1
    have ht : ∀ u, KeepsPauses s u → KeepsPauses s (took u) := fun u h => h.fabric
    have h1 : KeepsPauses s s1 := h.makeRoom
    exact (ht _ h).unreachable.ite ((ht _ h1).assemble.ite h1)

theorem swTake (h : KeepsPauses s t) : KeepsPauses s t.swTake := h.foldl fun _ _ h => h.swClass

theorem closeDue (h : KeepsPauses s t) : KeepsPauses s t.closeDue := (h.foldl fun _ _ h => h.closeAssembly).swTake

theorem peerFlow {p : Fin 2} {e : QueueEcc} (h : KeepsPauses s t) : KeepsPauses s (t.peerFlow p e) :=
  (h.peering (Peering.refl t).peerLook.peerDrain).closeDue.peering (Peering.refl _).peerDrain

end KeepsPauses

end Sys2Proof.Machine
end

