-- ==== Sys2Proof/Proofs/PeerFrames.lean ====
section
/-! PROOFS. PEER frames, pauses and assembly buffers (R261, R276-R280): what is taken, repeated, held and sent. -/

namespace Sys2Proof.Machine

variable {s t : State} {p : Fin 2}

/-! Frames received (R279). -/

theorem peerInQ_val (p : Fin 2) (cls : Nat) : (peerInQ p cls).val = 12 + 4 * p.val + cls % 4 := Nat.mod_eq_of_lt (by omega)

/-- The ingress queues of the PEER ports hold 4,096 words (R263). -/
theorem qCap_peerInQ (p : Fin 2) (cls : Nat) : qCap (peerInQ p cls) = 4096 := by
  have h := peerInQ_val p cls
  unfold qCap
  rw [if_neg (by omega), if_neg (by omega), if_pos (by omega)]

/-- A good packet that an empty ingress queue can hold passes it at once, whatever pauses its congestion asks for (R258, R262, R280). -/
theorem State.peerInQ_passes {cls : Nat} {k : QPacket} (hempty : (s.q[peerInQ p cls]).pkts = []) (he : k.err = false) (hw : k.words ≤ 4096) :
    ∃ t u, s.qPush (peerInQ p cls) k = (t, true) ∧ (t.pfcLook p cls).qPop (peerInQ p cls) .clean = (u, some k) ∧ Peering s u := by
  have hfit : (s.q[peerInQ p cls]).fill + k.words ≤ qCap (peerInQ p cls) := by
    rw [Queue.fill, hempty, qCap_peerInQ]
    exact (Nat.zero_add _).trans_le hw
  obtain ⟨h1, h2⟩ := State.qPush_fits he hfit
  rw [hempty] at h2
  obtain ⟨h3, -⟩ := State.qPop_clean ((State.pkts_congr (State.pfcLook_q _ p cls) _).trans h2)
  exact ⟨_, _, Prod.ext rfl h1, Prod.ext rfl h3, (Peering.refl s).qPush.pfcLook.qPop⟩

/-- Of the module a peer frame's checks know its device ID alone. -/
theorem State.peerMsgs_of_device (h : t.device = s.device) (n : Nat) (e : EthIn) : t.peerMsgs n e = s.peerMsgs n e := by
  unfold State.peerMsgs
  rw [h]

/-- A good frame of a port without MACsec is counted, and its messages enter the mesh (R279, R446). -/
theorem State.peerTake_good {b : Bytes} {e : EthIn} {ms : List (Nat × Msg)} (hs : s.flag (netOd (10 + p.val) 0x0D) = false)
    (he : parseEth b = some e) (hv : s.vlanOk (10 + p.val) e = true) (hm : s.peerMsgs b.length e = some ms) :
    s.peerTake p b = State.bump { s.bump (netOd (10 + p.val) 6) with fab := { s.fab with mesh := s.fab.mesh ++ ms } } (od 0x18F0 0x0C) := by
  have hsec : s.macsecIn (10 + p.val) b = (s, some b) := if_pos (.inl (by rw [hs]; rfl))
  have hm' : (s.bump (netOd (10 + p.val) 6)).peerMsgs b.length e = some ms :=
    (State.peerMsgs_of_device (State.num_bump_other s 1 (by unfold netOd od; omega)) ..).trans hm
  unfold State.peerTake
  simp [hsec, he, hv, hm']

/-- A good peer frame's messages enter the mesh, and nothing reaches the cores yet (R279). -/
theorem execPeerFrameReceive_takes {f : RawFrame} {e : EthIn} {ms : List (Nat × Msg)} (hl : s.net.link (10 + p.val) = true)
    (hc : f.fcsOk = true) (hd : s.dstOk (10 + p.val) (f.bytes.take 6) = true) (ht : fieldBe f.bytes 12 2 ≠ 0x88F7)
    (hp : fieldBe f.bytes 12 2 ≠ 0x8808) (hempty : (s.q[peerInQ p (peerClass f.bytes)]).pkts = [])
    (hw : ceilDiv f.bytes.length 32 ≤ 4096) (hs : s.flag (netOd (10 + p.val) 0x0D) = false) (he : parseEth f.bytes = some e)
    (hv : s.vlanOk (10 + p.val) e = true) (hm : s.peerMsgs f.bytes.length e = some ms) :
    ∃ t, execPeerFrameReceive p f .clean s = .next t ∧ t.fab.mesh = s.fab.mesh ++ ms ∧ t.cores = s.cores ∧
      t.num (od 0x18F0 0x0C) = Od.counter (od 0x18F0 0x0C) (s.num (od 0x18F0 0x0C) + 1) := by
  obtain ⟨t, u, h1, h2, hu⟩ := State.peerInQ_passes (s := s.quiet) (k := { data := f.bytes }) hempty rfl hw
  have hk : Peering s.quiet (u.pfcLook p (peerClass f.bytes)) := hu.pfcLook
  have hx : execPeerFrameReceive p f .clean s = .next ((u.pfcLook p (peerClass f.bytes)).peerTake p f.bytes) := by
    have hl' : s.quiet.net.link (10 + p.val) = true := hl
    have hd' : s.quiet.dstOk (10 + p.val) (f.bytes.take 6) = true := hd
    unfold execPeerFrameReceive
    simp [hl', hc, hd', ht, hp, h1, h2]
  refine ⟨_, hx, ?_⟩
  generalize u.pfcLook p (peerClass f.bytes) = v at hk
  have hport : ∀ j < 256, j ≠ 9 → v.num (netOd (10 + p.val) j) = s.num (netOd (10 + p.val) j) := fun j hj h9 =>
    hk.num (not_peerKey_od hj h9 (by omega))
  have hv' : v.vlanOk (10 + p.val) e = true := by
    rw [← hv, State.vlanOk, State.vlanOk, hport 0x0A (by decide) (by decide)]
  have hs' : v.flag (netOd (10 + p.val) 0x0D) = false := by
    rw [← hs, State.flag, State.flag, hport 0x0D (by decide) (by decide)]
  have hm' : v.peerMsgs f.bytes.length e = some ms :=
    (State.peerMsgs_of_device (hk.num (not_peerKey_od (by decide) (by decide) (by decide))) ..).trans hm
  rw [State.peerTake_good hs' he hv' hm']
  refine ⟨?_, hk.cores, (State.num_bump ..).trans ?_⟩
  · exact congrArg (· ++ ms) (congrArg Fabric.mesh hk.fab :)
  · have hn : v.num (od 0x18F0 0x0C) = s.num (od 0x18F0 0x0C) := hk.num (not_peerKey_od (by decide) (by decide) (by decide))
    rw [← hn, ← State.num_bump_other v 1 (show od 0x18F0 0x0C ≠ netOd (10 + p.val) 6 by unfold netOd od; omega)]
    rfl

/-! Pauses (R280). -/

/-- MAC control frames leave unprotected (R450). -/
theorem State.transmit_control {f : TxFrame} (hl : s.net.link f.port = true) (he : f.etype = 0x8808) :
    s.transmit f = (s.bump (netOd f.port 9)).modNet (fun n => { n with sent := n.sent ++ [f] }) := by
  simp [State.transmit, hl, he]

/-- A pause whose queue is still congested is sent again (R280). -/
theorem execPfcPauseRepeat_repeats {cls : Fin 4} (hsent : s.fab.pfcSent.contains (p.val, cls.val) = true)
    (hq : (s.q[peerInQ p cls.val]).congested = true) (hl : s.net.link (10 + p.val) = true) :
    ∃ t, execPfcPauseRepeat p cls s = .next t ∧ t.fab = s.fab ∧
      t.net.sent = [{ port := 10 + p.val, dst := [0x01, 0x80, 0xC2, 0, 0, 0x01], etype := 0x8808, proto := 0
                      payload := natBe 2 0x0101 ++ natBe 2 (2 ^ s.pfcPrio cls.val) ++
                        (List.range 8).flatMap (fun i => natBe 2 (if i = s.pfcPrio cls.val then 65535 else 0)) }] := by
  have hx : execPfcPauseRepeat p cls s = .next (s.quiet.sendPause p cls.val) := next_congr (if_pos ⟨hsent, hq⟩)
  refine ⟨_, hx, ?_⟩
  unfold State.sendPause
  extract_lets u
  have hu : u = _ := State.transmit_control hl rfl
  have hfab : u.fab = s.fab := by rw [hu]; rfl
  have hnet := congrArg (fun v : State => v.net.sent) hu
  split
  · exact ⟨hfab, hnet⟩
  · rw [State.raiseIng_fab, State.raiseIng_net]
    exact ⟨hfab, hnet⟩

/-- A pause holds its priority; one of 0 quanta ends it, and what then flows holds none again (R280). -/
theorem execPfcPauseReceive_holds (prio : Fin 8) (quanta : Nat) (ecc : QueueEcc) (hl : s.net.link (10 + p.val) = true) :
    ∃ t, execPfcPauseReceive p prio quanta ecc s = .next t ∧ t.fab.pfcHeld.contains (p.val, prio.val) = decide (quanta ≠ 0) := by
  have hl' : s.quiet.net.link (10 + p.val) = true := hl
  unfold execPfcPauseReceive
  extract_lets s0 rest
  rw [if_neg (by rw [hl']; decide)]
  by_cases hq : quanta = 0
  · rw [if_pos hq]
    refine ⟨_, rfl, ?_⟩
    have hk : KeepsPauses { s0 with fab := { s0.fab with pfcHeld := rest } } _ := (KeepsPauses.refl _).peerFlow (p := p) (e := ecc)
    rw [hk]
    simp [rest, hq]
  · rw [if_neg hq]
    exact ⟨_, rfl, by simp [hq]⟩

/-- A pause that expires ends, and the others go on (R280). -/
theorem execPfcPauseExpire_ends (s : State) (p : Fin 2) (prio : Fin 8) (ecc : QueueEcc) :
    ∃ t, execPfcPauseExpire p prio ecc s = .next t ∧ t.fab.pfcHeld = s.fab.pfcHeld.filter (fun x => x != (p.val, prio.val)) :=
  ⟨_, rfl, (KeepsPauses.refl _).peerFlow⟩

/-! Assembly buffers (R278). -/

/-- A buffer whose frame fits into the egress queue of a port that is up leaves by it (R278). -/
theorem State.closeAssembly_sends {dev cls : Nat} {a : Assembly} (hb : s.buffer dev cls = some a) (hp : s.peerPort dev = some p)
    (hf : s.peerFits p (s.peerFrame p a) = true) :
    s.closeAssembly dev cls = ((s.dropAssembly dev cls).peerOut p (s.peerFrame p a)).bump (od 0x18F0 0x0B) := by
  rw [State.buffer] at hb
  unfold State.closeAssembly
  rw [hb, hp]
  exact if_pos hf

/-- With nothing at its crossing queue SW takes nothing (R265). -/
theorem State.swTake_nothing (h : ∀ k < 4, s.fab.ready 4 k = none) : s.swTake = s := by
  have hc : ∀ k < 4, s.swClass k = s := fun k hk => by
    unfold State.swClass
    rw [h k hk]
  change (((s.swClass 0).swClass 1).swClass 2).swClass 3 = s
  rw [hc 0 (by decide), hc 1 (by decide), hc 2 (by decide), hc 3 (by decide)]

/-- What heads a crossing queue stands in its flits alone. -/
theorem Fabric.ready_of_lanes {f g : Fabric} (h : f.lanes = g.lanes) (stop cls : Nat) : f.ready stop cls = g.ready stop cls := by
  rw [Fabric.ready, Fabric.ready, Fabric.lane, Fabric.lane, h]

/-- A buffer's frame leaves PEER_FLUSH_TIME after the buffer was opened (R278). -/
theorem execPeerAssemblyClose_closes {dev : Nat} {cls : Fin 4} {a : Assembly}
    (hb : s.fab.assembly.find? (fun a => a.dev == dev && a.cls == cls.val) = some a) (hp : s.peerPort dev = some p)
    (hf : s.peerFits p (s.peerFrame p a) = true) (hr : ∀ k < 4, s.fab.ready 4 k = none) :
    ∃ t, execPeerAssemblyClose dev cls s = .next t ∧ t.frame.now = Nat.max s.frame.now (a.opened + 2 * s.num (od 0x1800 3)) ∧
      t.fab.assembly = s.fab.assembly.filter (fun a => !(a.dev == dev && a.cls == cls.val)) ∧
      t.num (od 0x18F0 0x0B) = Od.counter (od 0x18F0 0x0B) (s.num (od 0x18F0 0x0B) + 1) := by
  let u := s.quiet.at (a.opened + 2 * s.num (od 0x1800 3))
  have hbuf : s.quiet.buffer dev cls.val = some a := hb
  have hk : Peering (u.dropAssembly dev cls.val) ((u.dropAssembly dev cls.val).peerOut p (s.peerFrame p a)) := (Peering.refl _).peerOut
  have hclose : u.closeAssembly dev cls.val = ((u.dropAssembly dev cls.val).peerOut p (s.peerFrame p a)).bump (od 0x18F0 0x0B) :=
    State.closeAssembly_sends (s := u) hb hp hf
  have hx : execPeerAssemblyClose dev cls s = .next (u.closeAssembly dev cls.val).swTake := by
    unfold execPeerAssemblyClose
    extract_lets s0
    rw [hbuf]
    rfl
  rw [hclose, State.swTake_nothing] at hx
  · refine ⟨_, hx, hk.now, congrArg Fabric.assembly hk.fab, (State.num_bump ..).trans ?_⟩
    rw [hk.num (not_peerKey_od (by decide) (by decide) (by decide))]
    rfl
  · intro k hk4
    exact (Fabric.ready_of_lanes (congrArg Fabric.lanes hk.fab) ..).trans (hr k hk4)

end Sys2Proof.Machine
end

