-- ==== Sys2Proof/Proofs/LinksAndGates.lean ====
section
/-! PROOFS. Links that come up and go down, and the gate list (R261, R276, R445, R446). -/

namespace Sys2Proof.Machine

variable {s t : State}

/-! A link that comes up (R445, R452). -/

theorem Net.link_port (n : Net) (x : Fin 12) : n.link x.val = n.port[x].link := by simp [Net.link]

theorem State.setLink_link (s : State) (x : Fin 12) (up : Bool) : (s.setLink x up).net.link x.val = up := by
  rw [Net.link_port]
  simp [State.setLink, State.modNet]

/-- A delay that comes to be known changes no link, no head and no object but its own (R452). -/
theorem State.setDelay_leaves (s : State) (x : Fin 12) (d : Nat) :
    (s.setDelay x d).net.link x.val = s.net.link x.val ∧ (s.setDelay x d).ing = s.ing ∧
      ∀ i j, j < 256 → i ≠ 0x2100 + 16 * x.val → i ≠ 0x7900 → (s.setDelay x d).num (od i j) = s.num (od i j) := by
  unfold State.setDelay
  extract_lets slow was s1 s2
  have hl : s2.net.link x.val = s.net.link x.val := by
    rw [Net.link_port, Net.link_port]
    simp [s2, s1, State.modNet]
  have hn : ∀ i j, j < 256 → i ≠ 0x2100 + 16 * x.val → s2.num (od i j) = s.num (od i j) := fun i j hj hi =>
    (State.num_setNum_other _ _ (by unfold od; omega)).trans (State.num_setNum_other _ _ (by unfold od; omega))
  split
  · refine ⟨by rw [State.raise_net, hl], State.raise_ing .., fun i j hj hi h79 => ?_⟩
    exact (State.num_raise _ _ _ _ _ (by unfold od; omega)).trans (hn i j hj hi)
  · exact ⟨hl, rfl, fun i j hj hi _ => hn i j hj hi⟩

theorem State.fixDelay_leaves (s : State) (x : Fin 12) :
    (s.fixDelay x).net.link x.val = s.net.link x.val ∧ (s.fixDelay x).ing = s.ing ∧
      ∀ i j, j < 256 → i ≠ 0x2100 + 16 * x.val → i ≠ 0x7900 → (s.fixDelay x).num (od i j) = s.num (od i j) := by
  unfold State.fixDelay
  extract_lets d
  split
  · exact ⟨rfl, rfl, fun _ _ _ _ _ => rfl⟩
  · exact s.setDelay_leaves x d

/-- The state in which a link that came up is shown. -/
def State.linkShown (s : State) (x : Fin 12) : State := ((s.setLink x true).raise 0x1002 x.val).fixDelay x

theorem State.linkShown_shows (s : State) (x : Fin 12) : (s.linkShown x).net.link x.val = true ∧ (s.linkShown x).num (netOd x.val 2) = 1 ∧
    (s.linkShown x).ing = s.ing ∧ ∀ h < 8, (s.linkShown x).slotEmpty h = s.slotEmpty h := by
  obtain ⟨hl, hi, hn⟩ := ((s.setLink x true).raise 0x1002 x.val).fixDelay_leaves x
  have hing : (s.linkShown x).ing = s.ing := hi.trans (State.raise_ing ..)
  have hnum : ∀ i, i ≠ 0x2100 + 16 * x.val → i ≠ 0x7900 → ∀ j < 256, (s.linkShown x).num (od i j) = (s.setLink x true).num (od i j) :=
    fun i hi h79 j hj => (hn i j hj hi h79).trans (State.num_raise _ _ _ _ _ (by unfold od; omega))
  refine ⟨?_, ?_, hing, fun h hh => ?_⟩
  · rw [State.linkShown, hl, State.raise_net, State.setLink_link]
  · exact (hnum (0x1100 + 16 * x.val) (by omega) (by omega) 2 (by decide)).trans (State.num_setNum ..)
  · have hp : (s.linkShown x).num (portOd 0x3100 h 1) = s.num (portOd 0x3100 h 1) :=
      (hnum (0x3100 + 16 * h) (by omega) (by omega) 1 (by decide)).trans
        (State.num_setNum_other _ _ (by unfold netOd od; omega))
    rw [State.slotEmpty, State.slotEmpty, State.program, State.program, hp, hing]

/-- A link that comes up is shown, and an active head of its port must present itself again (R42, R445). -/
theorem execLinkUp_shows {x : Fin 12} (hl : s.net.link x.val = false) (he : s.flag (netOd x.val 1) = true) :
    ∃ t, execLinkUp x s = .next t ∧ t.net.link x.val = true ∧ t.num (netOd x.val 2) = 1 ∧
      ∀ h : Fin 8, h.val = x.val → s.slotEmpty h.val = false → (s.head h).state = .active → (t.head h).state = .awaiting := by
  obtain ⟨h1, h2, hi, hs⟩ := s.linkShown_shows x
  unfold execLinkUp
  rw [if_neg (by simp [hl, he])]
  change ∃ t, Host.Outcome.next (dite (x.val < 8) _ _) = .next t ∧ _
  by_cases hx : x.val < 8
  · rw [dif_pos hx]
    cases hemp : s.slotEmpty x.val
    case true =>
      refine ⟨_, congrArg _ (if_pos ((hs _ hx).trans hemp)), h1, h2, fun h hh hn => ?_⟩
      rw [hh, hemp] at hn
      cases hn
    case false =>
      refine ⟨_, congrArg _ (if_neg fun e => Bool.false_ne_true (hemp.symm.trans ((hs _ hx).symm.trans e))), h1, h2, fun h hh _ ha => ?_⟩
      have hport : (⟨x.val, hx⟩ : Fin 8) = h := Fin.ext hh.symm
      rw [hport, State.head_modHead]
      have hhead : (s.linkShown x).head h = s.head h := State.head_of_ing hi h
      have hstate : ((((s.setLink x true).raise 0x1002 x.val).fixDelay x).head h).state = .active := (congrArg Head.state hhead).trans ha
      simp only [hstate]
  · rw [dif_neg hx]
    have hno : ∀ h : Fin 8, h.val ≠ x.val := fun h => by omega
    refine ⟨_, rfl, ?_, ?_, fun h hh => absurd hh (hno h)⟩
    · split
      · exact h1
      · exact h1
    · split
      · exact h2
      · exact h2

/-! A link that goes down (R261, R276, R445). -/

theorem Queueing.qFlush {q : Fin 24} (h : Queueing s t) : Queueing s (t.qFlush q) :=
  h.ite (h.qClear.bump (queueKey_od q.isLt (by decide)))

theorem Queueing.qEmpty {q : Fin 24} (h : Queueing s t) : Queueing s (t.qEmpty q) := h.qClear.bump (queueKey_od q.isLt (by decide))

/-- The queues of the SENS and HOST ports drop what they cannot hold (R263). -/
theorem qMode_ne_credit {q : Nat} (h : q < 10) : qMode q ≠ .credit := by
  rw [qMode, if_pos h]
  decide

theorem State.qFlush_pkts (s : State) {q : Fin 24} (h : qMode q.val ≠ .credit) : ((s.qFlush q).q[q]).pkts = [] := by
  unfold State.qFlush
  rw [if_neg h]
  exact s.qClear_pkts q

theorem State.qFlush_other (s : State) {q r : Fin 24} (h : r ≠ q) : (s.qFlush q).q[r] = s.q[r] := by
  unfold State.qFlush
  split
  · rfl
  · have hq : ((s.qClear q).bump (od (0x1830 + q.val) 7)).q = (s.setQueue q _).q := State.mayDriveXoff_q ..
    simp only [hq]
    exact State.setQueue_other s q _ h

theorem Queueing.mirrorDown {n : Nat} (h : Queueing s t) : Queueing s (t.mirrorDown n) := by
  unfold State.mirrorDown
  extract_lets s1
  have h1 : Queueing s s1 := h.qFlush.ite h
  exact h1.qFlush.ite h1

/-- The mirrors are queues 22 and 23 (R263). -/
theorem State.mirrorDown_other (s : State) (n : Nat) {r : Fin 24} (h : r.val < 22) : (s.mirrorDown n).q[r] = s.q[r] := by
  have h22 : r ≠ 22 := fun e => absurd h (by rw [e]; decide)
  have h23 : r ≠ 23 := fun e => absurd h (by rw [e]; decide)
  have hf : ∀ u : State, u.q[r] = s.q[r] → ∀ q, r ≠ q → (u.qFlush q).q[r] = s.q[r] := fun u hu q hq => (u.qFlush_other hq).trans hu
  unfold State.mirrorDown
  extract_lets s1
  have h1 : s1.q[r] = s.q[r] := ite_keep (P := fun u : State => u.q[r] = s.q[r]) (hf s rfl 22 h22) rfl
  exact ite_keep (P := fun u : State => u.q[r] = s.q[r]) (hf s1 h1 23 h23) h1

/-- What follows the loss of a link leaves of `s` in `t`: the ports, and the objects but those of the queues. -/
structure LeavesPorts (s t : State) : Prop where
  port : t.net.port = s.net.port
  obj : ∀ k, ¬ queueKey k → t.obj k = s.obj k

namespace LeavesPorts

variable {u : State}

theorem refl (s : State) : LeavesPorts s s := ⟨rfl, fun _ _ => rfl⟩

theorem trans (h : LeavesPorts s t) (k : LeavesPorts t u) : LeavesPorts s u :=
  ⟨k.port.trans h.port, fun x hx => (k.obj x hx).trans (h.obj x hx)⟩

theorem ite {c : Prop} [Decidable c] (h : LeavesPorts s t) (k : LeavesPorts s u) : LeavesPorts s (if c then t else u) :=
  ite_keep (P := LeavesPorts s) h k

theorem queueing (h : LeavesPorts s t) (k : Queueing t u) : LeavesPorts s u := h.trans ⟨by rw [k.net], k.obj⟩

theorem raise {c i v : Nat} {b : Bool} (h : LeavesPorts s t) : LeavesPorts s (t.raise c i v b) := h.queueing (Queueing.refl t).raise

theorem modHost {g : Fin 2} {f : HostOut → HostOut} (h : LeavesPorts s t) : LeavesPorts s (t.modHost g f) := h.trans ⟨rfl, fun _ _ => rfl⟩

theorem setFab {f : Fabric} (h : LeavesPorts s t) : LeavesPorts s { t with fab := f } := h.trans ⟨rfl, fun _ _ => rfl⟩

end LeavesPorts

/-- The state in which a link that went down is counted, before anything is flushed. -/
def State.linkLost (s : State) (x : Fin 12) : State :=
  ((s.setLink x false).modNet (fun n => { n with port := n.port.set x { n.port[x] with pdelay := none } })).countRaise
    (netOd x.val 0x0B) 0x1001 x.val

theorem State.linkLost_shows (s : State) (x : Fin 12) : (s.linkLost x).net.link x.val = false ∧ (s.linkLost x).num (netOd x.val 2) = 0 ∧
    (s.linkLost x).num (netOd x.val 0x0B) = Od.counter (netOd x.val 0x0B) (s.num (netOd x.val 0x0B) + 1) := by
  have hne : ∀ j < 256, netOd x.val j ≠ od 0x7900 5 := fun j hj => by unfold netOd od; omega
  refine ⟨?_, ?_, ?_⟩
  · rw [State.linkLost, State.countRaise_net, Net.link_port]
    simp [State.setLink, State.modNet]
  · refine (State.num_countRaise_other _ _ _ _ (hne 2 (by decide)) (by unfold netOd od; omega)).trans ?_
    exact State.num_setNum ..
  · refine (State.num_countRaise _ _ _ _ (hne 0x0B (by decide))).trans ?_
    exact congrArg (fun n => Od.counter (netOd x.val 0x0B) (n + 1)) (State.num_setNum_other _ _ (by unfold netOd od; omega))

/-- What is flushed with a link leaves the ports, and the queue of a sensor port is empty (R261, R276). -/
theorem execLinkDown_flushes {x : Fin 12} (hl : s.net.link x.val = true) : ∃ t, execLinkDown x s = .next t ∧ LeavesPorts (s.linkLost x) t ∧
    ∀ h : Fin 8, h.val = x.val → (t.q[(Fin.castLE (by decide) h : Fin 24)]).pkts = [] := by
  unfold execLinkDown
  rw [if_neg (by simp [hl])]
  refine ⟨_, rfl, ?_⟩
  extract_lets u n u1 u2
  have h0 : LeavesPorts (s.linkLost x) u := LeavesPorts.refl _
  by_cases hx : x.val < 10
  · rw [dif_pos hx]
    extract_lets q1 q2
    have h1 : LeavesPorts (s.linkLost x) q1 := h0.queueing (Queueing.refl u).qFlush
    have h2 : LeavesPorts (s.linkLost x) q2 := h1.modHost
    refine ⟨(h1.queueing (Queueing.refl q1).mirrorDown).ite (h2.ite h2.raise), fun h hh => ?_⟩
    have h8 : x.val < 8 := hh ▸ h.isLt
    have hq : q1 = u.qFlush (Fin.castLE (by decide) h) := congrArg u.qFlush (Fin.ext hh.symm)
    rw [if_pos h8]
    refine (congrArg Queue.pkts (State.mirrorDown_other q1 x.val (Nat.lt_trans h.isLt (by decide)))).trans ?_
    rw [hq]
    exact u.qFlush_pkts (qMode_ne_credit (Nat.lt_trans h.isLt (by decide)))
  · rw [dif_neg hx]
    have h1 : LeavesPorts (s.linkLost x) u1 :=
      foldl_keep (P := LeavesPorts (s.linkLost x)) (fun t _ h => h.queueing (Queueing.refl t).qFlush) h0
    have h2 : LeavesPorts (s.linkLost x) u2 := h1.queueing (Queueing.refl u1).qEmpty
    exact ⟨h2.setFab.raise.ite h2.setFab, fun h hh => absurd (hh ▸ h.isLt) (by omega)⟩

/-- A link that goes down is shown and counted, and the queue of a sensor port is flushed (R261, R445). -/
theorem execLinkDown_shows {x : Fin 12} (hl : s.net.link x.val = true) : ∃ t, execLinkDown x s = .next t ∧ t.net.link x.val = false ∧
    t.num (netOd x.val 2) = 0 ∧ t.num (netOd x.val 0x0B) = Od.counter (netOd x.val 0x0B) (s.num (netOd x.val 0x0B) + 1) ∧
    ∀ h : Fin 8, h.val = x.val → (t.q[(Fin.castLE (by decide) h : Fin 24)]).pkts = [] := by
  obtain ⟨t, hx, hk, hq⟩ := execLinkDown_flushes hl
  obtain ⟨h1, h2, h3⟩ := s.linkLost_shows x
  have hn : ∀ j < 256, t.num (netOd x.val j) = (s.linkLost x).num (netOd x.val j) := fun j hj =>
    State.num_of_obj (hk.obj _ (not_queueKey_netOd (by omega) hj))
  exact ⟨t, hx, by rw [← h1, Net.link, Net.link, hk.port], (hn 2 (by decide)).trans h2, (hn 0x0B (by decide)).trans h3, hq⟩

/-! The gate list (R446). -/

/-- The entry of a HOST port's gate list that is in force in `t` is that of `s`. -/
def KeepsEntry (g : Fin 2) (s t : State) : Prop := (t.net.host[g]).entry = (s.net.host[g]).entry

namespace KeepsEntry

variable {g : Fin 2} {u : State}

theorem refl (s : State) : KeepsEntry g s s := rfl

/-- An operation outside the HOST ports. -/
theorem same (h : KeepsEntry g s t) (hn : u.net.host = t.net.host := by exact rfl) : KeepsEntry g s u :=
  (congrArg (fun v : Vector HostOut 2 => (v[g]).entry) hn).trans h

theorem ite {c : Prop} [Decidable c] (h : KeepsEntry g s t) (k : KeepsEntry g s u) : KeepsEntry g s (if c then t else u) :=
  ite_keep (P := KeepsEntry g s) h k

theorem modHost {f : HostOut → HostOut} (h : KeepsEntry g s t) (hf : ∀ x, (f x).entry = x.entry := by exact fun _ => rfl) :
    KeepsEntry g s (t.modHost g f) :=
  ((congrArg HostOut.entry (State.modHost_same t g f)).trans (hf _)).trans h

theorem bump {k n : Nat} (h : KeepsEntry g s t) : KeepsEntry g s (t.bump k n) := h.same

theorem countRaise {k c i : Nat} {b : Bool} (h : KeepsEntry g s t) : KeepsEntry g s (t.countRaise k c i b) :=
  h.same (congrArg Net.host (State.countRaise_net ..))

theorem usePn {n an sci pn : Nat} {tx : Bool} (h : KeepsEntry g s t) : KeepsEntry g s (t.usePn n tx an sci pn) := by
  unfold State.usePn
  extract_lets mine
  split
  · exact h
  · extract_lets warn s1
    have h1 : KeepsEntry g s s1 := h.same
    exact (h1.same (congrArg Net.host (State.raise_net ..))).ite h1

theorem transmit {f : TxFrame} (h : KeepsEntry g s t) : KeepsEntry g s (t.transmit f) := by
  unfold State.transmit
  extract_lets put
  have hp : ∀ u f, KeepsEntry g s u → KeepsEntry g s (put u f) := fun u f h => h.same
  refine h.ite (ite ?_ (hp _ _ h))
  split
  · exact h
  · exact h.ite (hp _ _ h.usePn)

theorem credits {b : Option Nat} {n : Nat} (h : KeepsEntry g s t) : KeepsEntry g s (t.credits g b n) := by
  unfold State.credits
  exact h.modHost

theorem onLine {f : TxFrame} {n : Nat} (h : KeepsEntry g s t) : KeepsEntry g s (t.onLine g f n) := h.credits.modHost.transmit

theorem hostAdmit (h : KeepsEntry g s t) : KeepsEntry g s (t.hostAdmit g) := by
  unfold State.hostAdmit
  generalize (t.net.host[g]).held.length = n
  refine KeepsEntry.same (t := State.letIn n t g) ?_
  induction n generalizing t with
  | zero => exact h
  | succ n ih =>
    rw [State.letIn]
    split
    · exact h
    · exact h.ite (ih h.modHost)

theorem hostLook {e : QueueEcc} (h : KeepsEntry g s t) : KeepsEntry g s (t.hostLook g e) := by
  unfold State.hostLook
  split
  · exact h
  · exact h
  · exact h.same
  · exact h.modHost.hostAdmit.countRaise
  · exact h.modHost.hostAdmit.countRaise

theorem hostFlow (h : KeepsEntry g s t) : KeepsEntry g s (t.hostFlow g) := by
  unfold State.hostFlow
  generalize 3 * ((t.net.host[g]).waiting.length + (t.net.host[g]).held.length) = n
  generalize t.lineFree g = m
  induction n generalizing t m with
  | zero => exact h
  | succ n ih =>
    rw [State.hostDrain]
    have h1 : KeepsEntry g s (t.accrue g m) := h.credits
    split
    · exact ih h1.modHost.onLine.hostAdmit.bump _
    · split
      · exact ih h1 _
      · exact h1

end KeepsEntry

/-- The next entry holds from the instant at which the one in force ends (R446). -/
theorem execGateListIntervalEnd_advances {g : Fin 2} (ecc : QueueEcc) (hr : s.frame.run = true) {n : Nat} (hn : n = (s.net.host[g]).entry)
    (hlt : n + 1 < (s.gateList g).length) :
    ∃ t, execGateListIntervalEnd g ecc s = .next t ∧ (t.net.host[g]).entry = n + 1 ∧
      ∀ stop mask, (s.gateSpans g)[n]? = some (stop, mask) → t.frame.now = Nat.max s.frame.now stop := by
  subst hn
  let u := s.quiet.at (((s.gateSpans g)[(s.net.host[g]).entry]?.getD (0, 0)).1)
  let v := (u.accrue g u.frame.now).modHost g (fun x => { x with entry := x.entry + 1 })
  have hx : execGateListIntervalEnd g ecc s = .next ((v.hostLook g ecc).hostFlow g) := by
    refine next_congr (if_neg ?_)
    have hlt' : ¬ (s.quiet.gateList g).length ≤ (s.quiet.net.host[g]).entry + 1 := Nat.not_le.mpr hlt
    rintro (h | h)
    · have hr' : s.quiet.frame.run = true := hr
      rw [hr'] at h
      cases h
    · exact hlt' h
  have hv : (v.net.host[g]).entry = (s.net.host[g]).entry + 1 :=
    (congrArg HostOut.entry (State.modHost_same ..)).trans (congrArg (· + 1) ((KeepsEntry.refl u).credits))
  refine ⟨_, hx, ((KeepsEntry.refl v).hostLook.hostFlow).trans hv, fun stop mask hs => ?_⟩
  rw [((Sends.refl v).hostLook.hostFlow).frame]
  have hu : v.frame.now = Nat.max s.frame.now (((s.gateSpans g)[(s.net.host[g]).entry]?.getD (0, 0)).1) := rfl
  rw [hu, hs]
  rfl

end Sys2Proof.Machine
end

