-- ==== Sys2Proof/Proofs/PeerLinksAndPorts.lean ====
section
/-! THEOREMS. PEER links, links and gates (R261, R276-R280, R445, R446, R449): O40. -/

namespace Sys2Proof.Machine

/-- Settles O40: the frames, pauses and buffers of the PEER ports by the rules of Proofs/PeerFrames, links and the gate list by those of
Proofs/LinksAndGates. -/
theorem peerLinksAndPortsWork : Obligations.PeerLinksAndPortsWork := by
  unfold Obligations.PeerLinksAndPortsWork
  intro p s
  refine ⟨?_, fun cls => execPfcPauseRepeat_repeats, fun prio quanta ecc => execPfcPauseReceive_holds prio quanta ecc,
    fun prio ecc => execPfcPauseExpire_ends s p prio ecc, fun dev cls a => execPeerAssemblyClose_closes, fun x => execLinkUp_shows,
    fun x => execLinkDown_shows, fun ecc hr n => execGateListIntervalEnd_advances ecc hr, fun vlan instant => ⟨_, rfl, rfl⟩⟩
  exact fun f e ms hl hc hd ht hp hempty hw hs he hv hm => execPeerFrameReceive_takes hl hc hd ht hp hempty hw hs he hv hm

end Sys2Proof.Machine
end

