-- ==== Sys2Proof/Proofs/RankOrder.lean ====
section
/-! THEOREMS. The order of values and of top-k entries is strict and linear (R290, R291). -/

namespace Sys2Proof.Machine

/-- A sign and a magnitude, as `fvLt` reads them. -/
def signed (neg : Bool) (m : Nat) : Int := if neg then -(m : Int) else m

/-- Where a value stands on the extended real line; a NaN stands nowhere, and 0 is its filler. -/
noncomputable def FVal.rank : FVal → EReal
  | .nan => 0
  | .inf neg => if neg then ⊥ else ⊤
  | .fin neg m e => (((signed neg m : ℝ) * 2 ^ e : ℝ) : EReal)

/-- A magnitude brought to the lower exponent `d` stands for the same value. -/
theorem signed_shift (neg : Bool) (m : Nat) {d e : Int} (h : d ≤ e) :
    (signed neg (m * 2 ^ (e - d).toNat) : ℝ) * 2 ^ d = signed neg m * 2 ^ e := by
  have hpow : (2 : ℝ) ^ (e - d).toNat * 2 ^ d = 2 ^ e := by
    rw [← zpow_natCast, Int.toNat_of_nonneg (by omega), ← zpow_add₀ two_ne_zero, Int.sub_add_cancel]
  cases neg <;> simp [signed, ← hpow, mul_assoc]

/-- Two finite values compare as the reals they stand for. -/
theorem fvLt_fin (na nb : Bool) (ma mb : Nat) (ea eb : Int) :
    fvLt (.fin na ma ea) (.fin nb mb eb) = true ↔ (signed na ma : ℝ) * 2 ^ ea < signed nb mb * 2 ^ eb := by
  have hd : (if ea ≤ eb then ea else eb) = min ea eb := rfl
  have hpos : (0 : ℝ) < 2 ^ min ea eb := by positivity
  rw [← signed_shift na ma (min_le_left ea eb), ← signed_shift nb mb (min_le_right ea eb), mul_lt_mul_iff_of_pos_right hpos,
    Int.cast_lt]
  simp only [fvLt, hd, decide_eq_true_eq, signed]

/-- R290: values that are no NaNs compare as their places on the line do. -/
theorem fvLt_iff_rank {a b : FVal} (ha : a ≠ .nan) (hb : b ≠ .nan) : fvLt a b = true ↔ a.rank < b.rank := by
  match a, b with
  | .nan, _ => exact absurd rfl ha
  | _, .nan => exact absurd rfl hb
  | .inf na, .inf nb => cases na <;> cases nb <;> simp [fvLt, FVal.rank]
  | .inf na, .fin nb mb eb => cases na <;> simp [fvLt, FVal.rank, -EReal.coe_mul]
  | .fin na ma ea, .inf nb => cases nb <;> simp [fvLt, FVal.rank, -EReal.coe_mul]
  | .fin na ma ea, .fin nb mb eb => simpa only [FVal.rank, EReal.coe_lt_coe_iff] using fvLt_fin na nb ma mb ea eb

/-- An entry's place in a list's order: by value, the highest first unless the list takes the smallest, then by index (R291). -/
noncomputable def rankKey (fmt : Nat) (smallest : Bool) (x : Nat × Nat) : EReal ×ₗ Nat :=
  toLex (if smallest then (fmtValue fmt x.1).rank else -(fmtValue fmt x.1).rank, x.2)

/-- Elements that are no NaNs compare as the ranks of their values. -/
theorem fmtLt_iff_rank {fmt a b : Nat} (ha : fmtNan fmt a = false) (hb : fmtNan fmt b = false) :
    fmtLt fmt a b = true ↔ (fmtValue fmt a).rank < (fmtValue fmt b).rank :=
  fvLt_iff_rank (by simpa [fmtNan] using ha) (by simpa [fmtNan] using hb)

/-- R291: of two entries that are no NaNs, the one with the lower key ranks first. -/
theorem ranksBefore_iff_key {fmt : Nat} {smallest : Bool} {x y : Nat × Nat} (hx : fmtNan fmt x.1 = false)
    (hy : fmtNan fmt y.1 = false) : ranksBefore fmt smallest x y = true ↔ rankKey fmt smallest x < rankKey fmt smallest y := by
  simp only [ranksBefore, fmtLt_iff_rank hy hx, fmtLt_iff_rank hx hy, rankKey, Prod.Lex.toLex_lt_toLex]
  generalize (fmtValue fmt x.1).rank = p
  generalize (fmtValue fmt y.1).rank = q
  rcases lt_trichotomy p q with h | rfl | h
  · cases smallest <;> simp [h, h.not_gt, h.ne]
  · simp
  · cases smallest <;> simp [h, h.not_gt, h.ne']

/-- Entries that are no NaNs: ranking is transitive. -/
theorem ranksBefore_trans {fmt : Nat} {smallest : Bool} {x y z : Nat × Nat} (hx : fmtNan fmt x.1 = false)
    (hy : fmtNan fmt y.1 = false) (hz : fmtNan fmt z.1 = false) (hxy : ranksBefore fmt smallest x y = true)
    (hyz : ranksBefore fmt smallest y z = true) : ranksBefore fmt smallest x z = true := by
  rw [ranksBefore_iff_key hx hy] at hxy
  rw [ranksBefore_iff_key hy hz] at hyz
  exact (ranksBefore_iff_key hx hz).mpr (hxy.trans hyz)

/-- R291: of two entries of different indexes one ranks before the other. -/
theorem ranksBefore_total {fmt : Nat} {smallest : Bool} {x y : Nat × Nat} (hx : fmtNan fmt x.1 = false)
    (hy : fmtNan fmt y.1 = false) (hne : x.2 ≠ y.2) (h : ranksBefore fmt smallest y x = false) :
    ranksBefore fmt smallest x y = true := by
  have hnot : ¬ rankKey fmt smallest y < rankKey fmt smallest x := by simp [← ranksBefore_iff_key hy hx, h]
  have hkey : rankKey fmt smallest x ≠ rankKey fmt smallest y := fun e => hne (congrArg (fun k => (ofLex k).2) e)
  exact (ranksBefore_iff_key hx hy).mpr (lt_of_le_of_ne (not_lt.mp hnot) hkey)

end Sys2Proof.Machine
end

