-- ==== Sys2Proof/Proofs/SortedInsertion.lean ====
section
/-! THEOREMS. Insertion into a list in order, and its first k entries. -/

namespace Sys2Proof.Machine

section
variable {α : Type} {before : α → α → Bool} {x : α} {l : List α}

/-- An insertion adds the element and nothing else. -/
theorem insertBy_perm (before : α → α → Bool) (x : α) (l : List α) : (insertBy before x l).Perm (x :: l) := by
  induction l with
  | nil => exact .refl _
  | cons y ys ih =>
    rw [insertBy]
    split
    · exact .refl _
    · exact (ih.cons y).trans (.swap x y ys)

@[simp] theorem length_insertBy (before : α → α → Bool) (x : α) (l : List α) : (insertBy before x l).length = l.length + 1 :=
  (insertBy_perm before x l).length_eq

/-- An element that ranks before none of a list goes to its end. -/
theorem insertBy_eq_append (h : ∀ y ∈ l, before x y = false) : insertBy before x l = l ++ [x] := by
  induction l with
  | nil => rfl
  | cons y ys ih => simp [insertBy, h y (by simp), ih fun z hz => h z (by simp [hz])]

/-- The first k entries after an insertion depend on the first k before it alone. -/
theorem take_insertBy (before : α → α → Bool) (x : α) (l : List α) (k : Nat) :
    (insertBy before x (l.take k)).take k = (insertBy before x l).take k := by
  induction l generalizing k with
  | nil => simp
  | cons y ys ih =>
    cases k with
    | zero => rfl
    | succ k =>
      simp only [List.take_succ_cons, insertBy]
      split
      · cases k <;> simp [List.take_take]
      · simp [ih]

/-- Insertion keeps a list in order where the order is transitive and decides between the element and every entry. -/
theorem insertBy_pairwise (tot : ∀ y ∈ l, before x y = false → before y x = true)
    (trans : ∀ y ∈ l, ∀ z ∈ l, before x y = true → before y z = true → before x z = true)
    (hl : l.Pairwise (fun a b => before a b = true)) : (insertBy before x l).Pairwise (fun a b => before a b = true) := by
  induction l with
  | nil => simp [insertBy]
  | cons y ys ih =>
    obtain ⟨hy, hys⟩ := List.pairwise_cons.mp hl
    rw [insertBy]
    split
    case isTrue hxy =>
      refine List.pairwise_cons.mpr ⟨fun z hz => ?_, hl⟩
      rcases List.mem_cons.mp hz with rfl | hz
      · exact hxy
      · exact trans y (by simp) z (by simp [hz]) hxy (hy z hz)
    case isFalse hxy =>
      have rest := ih (fun z hz => tot z (by simp [hz])) (fun a ha b hb => trans a (by simp [ha]) b (by simp [hb])) hys
      refine List.pairwise_cons.mpr ⟨fun z hz => ?_, rest⟩
      rcases List.mem_cons.mp ((insertBy_perm before x ys).mem_iff.mp hz) with rfl | hz
      · exact tot y (by simp) (by simpa using hxy)
      · exact hy z hz

/-- In a list in order, an element that does not rank before the last entry ranks before none. -/
theorem before_none_of_last {y : α} (trans : ∀ z ∈ l, ∀ w ∈ l, before x z = true → before z w = true → before x w = true)
    (hl : l.Pairwise (fun a b => before a b = true)) (hlast : l.getLast? = some y) (hy : before x y = false) :
    ∀ z ∈ l, before x z = false := by
  obtain ⟨init, rfl⟩ := List.getLast?_eq_some_iff.mp hlast
  intro z hz
  rcases List.mem_append.mp hz with hz | hz
  · have hzy : before z y = true := (List.pairwise_append.mp hl).2.2 z hz y (by simp)
    by_contra h
    have hxy := trans z (by simp [hz]) y (by simp) (by simpa using h) hzy
    simp [hy] at hxy
  · rwa [List.mem_singleton.mp hz]

@[simp] theorem sortBy_append_singleton (before : α → α → Bool) (l : List α) (x : α) :
    sortBy before (l ++ [x]) = insertBy before x (sortBy before l) := by
  simp [sortBy]

theorem sortBy_perm (before : α → α → Bool) (l : List α) : (sortBy before l).Perm l := by
  induction l using List.reverseRecOn with
  | nil => exact .refl _
  | append_singleton l x ih =>
    rw [sortBy_append_singleton]
    exact ((insertBy_perm before x _).trans (ih.cons x)).trans (List.perm_append_singleton x l).symm

/-- Sorting brings a list in order where the order is transitive and decides between every two of its elements. -/
theorem sortBy_pairwise (tot : l.Pairwise (fun x y => before y x = false → before x y = true))
    (trans : ∀ x ∈ l, ∀ y ∈ l, ∀ z ∈ l, before x y = true → before y z = true → before x z = true) :
    (sortBy before l).Pairwise (fun a b => before a b = true) := by
  induction l using List.reverseRecOn with
  | nil => exact .nil
  | append_singleton l x ih =>
    have hmem : ∀ {y}, y ∈ sortBy before l → y ∈ l := (sortBy_perm before l).mem_iff.mp
    obtain ⟨tot, -, last⟩ := List.pairwise_append.mp tot
    rw [sortBy_append_singleton]
    refine insertBy_pairwise (fun y hy => last y (hmem hy) x (by simp)) (fun y hy z hz => ?_) (ih tot fun y hy z hz w hw => ?_)
    · exact trans x (by simp) y (by simp [hmem hy]) z (by simp [hmem hz])
    · exact trans y (by simp [hy]) z (by simp [hz]) w (by simp [hw])

end

end Sys2Proof.Machine
end

