-- ==== Sys2Proof/Proofs/TopKList.lean ====
section
/-! THEOREMS. What a top-k list holds after a sequence of elements (R291, R293-R295, R298): O33. -/

namespace Sys2Proof.Machine

/-! What an element leaves of the list's parameters, from any state. -/

/-- Replaced entries change the entries and the tie-overflow count. -/
theorem TopK.entered_eq (t : TopK) (l : List (Nat × Nat)) (more : Nat) :
    ∃ n, t.entered l more = { t with entries := l, ties := n } := by
  unfold TopK.entered
  dsimp only
  split
  · exact ⟨_, rfl⟩
  · exact ⟨_, rfl⟩

/-- Placing an entry changes the entries, at most k of them, and the tie-overflow count. -/
theorem TopK.place_eq (t : TopK) (x : Nat × Nat) (h : t.entries.length ≤ t.k) :
    ∃ l n, t.place x = { t with entries := l, ties := n } ∧ l.length ≤ t.k := by
  unfold TopK.place
  dsimp only
  split
  · next hlt => exact ⟨_, _, rfl, by simpa using hlt⟩
  split
  · exact ⟨_, _, rfl, h⟩
  split
  · obtain ⟨n, e⟩ := t.entered_eq ((insertBy (ranksBefore t.fmt t.smallest) x t.entries).take t.k) 1
    exact ⟨_, n, e, List.length_take_le _ _⟩
  · exact ⟨_, _, rfl, h⟩

/-- An element counts itself, and itself as a NaN where it is one, and changes the entries, at most k of them, and the tie-overflow count
(R293, R294). -/
theorem TopK.element_eq (t : TopK) (v : Nat) (h : t.entries.length ≤ t.k) :
    ∃ l n, t.element v = { t with entries := l, ties := n, count := t.count + 1, nan := t.nan + (fmtNan t.fmt v).toNat } ∧
      l.length ≤ t.k := by
  unfold TopK.element
  dsimp only
  split
  · next hv => exact ⟨_, t.ties, by simp [hv], h⟩
  · next hv =>
    obtain ⟨l, n, e, hl⟩ := TopK.place_eq { t with count := t.count + 1 } (v, (t.base + t.count) % 2 ^ 32) h
    exact ⟨l, n, by simpa [hv] using e, hl⟩

/-- A sequence of elements counts them and their NaNs, and changes the entries, at most k of them, and the tie-overflow count. -/
theorem TopK.foldl_element_eq (vs : List Nat) (t : TopK) (h : t.entries.length ≤ t.k) :
    ∃ l n, vs.foldl TopK.element t = { t with
      entries := l, ties := n, count := t.count + vs.length, nan := t.nan + (vs.filter (fmtNan t.fmt)).length } ∧ l.length ≤ t.k := by
  induction vs generalizing t with
  | nil => exact ⟨_, _, rfl, h⟩
  | cons v vs ih =>
    obtain ⟨l₁, n₁, e₁, h₁⟩ := t.element_eq v h
    obtain ⟨l, n, e, hl⟩ := ih (t.element v) (by rw [e₁]; exact h₁)
    rw [e₁] at e hl
    refine ⟨l, n, ?_, hl⟩
    rw [List.foldl_cons, e₁, e]
    cases hv : fmtNan t.fmt v <;> simp +arith [hv]

/-! The elements that may enter a list, each with its index. -/

/-- The elements of a sequence that are no NaNs, with their indexes from `base` on (R293, R294). -/
def offeredFrom (fmt base : Nat) (vs : List Nat) : List (Nat × Nat) :=
  (vs.zip (List.range vs.length)).filterMap (fun x => if fmtNan fmt x.1 then none else some (x.1, base + x.2))

theorem offeredFrom_append_singleton (fmt base : Nat) (vs : List Nat) (v : Nat) :
    offeredFrom fmt base (vs ++ [v]) =
      offeredFrom fmt base vs ++ if fmtNan fmt v then [] else [(v, base + vs.length)] := by
  rw [offeredFrom, List.length_append, List.length_singleton, List.range_succ, List.zip_append (by simp), List.filterMap_append]
  cases hv : fmtNan fmt v <;> simp [offeredFrom, hv]

theorem not_nan_of_mem_offeredFrom {fmt base : Nat} {vs : List Nat} {x : Nat × Nat} (h : x ∈ offeredFrom fmt base vs) :
    fmtNan fmt x.1 = false := by
  obtain ⟨y, -, hy⟩ := List.mem_filterMap.mp h
  cases hn : fmtNan fmt y.1 <;> simp [hn] at hy
  simpa [← hy] using hn

theorem index_lt_of_mem_offeredFrom {fmt base : Nat} {vs : List Nat} {x : Nat × Nat} (h : x ∈ offeredFrom fmt base vs) :
    x.2 < base + vs.length := by
  obtain ⟨y, hy, hx⟩ := List.mem_filterMap.mp h
  have hr : y.2 < vs.length := List.mem_range.mp (List.of_mem_zip hy).2
  cases hn : fmtNan fmt y.1 <;> simp [hn] at hx
  simpa [← hx] using hr

/-- R294: later elements have higher indexes. -/
theorem offeredFrom_indexes (fmt base : Nat) (vs : List Nat) : (offeredFrom fmt base vs).Pairwise (fun x y => x.2 < y.2) := by
  induction vs using List.reverseRecOn with
  | nil => exact .nil
  | append_singleton vs v ih =>
    rw [offeredFrom_append_singleton]
    split
    · simpa using ih
    · refine List.pairwise_append.mpr ⟨ih, List.pairwise_singleton _ _, fun x hx y hy => ?_⟩
      rw [List.mem_singleton.mp hy]
      exact index_lt_of_mem_offeredFrom hx

/-- The offered elements in rank order (R291). -/
def rankedFrom (fmt base : Nat) (smallest : Bool) (vs : List Nat) : List (Nat × Nat) :=
  sortBy (ranksBefore fmt smallest) (offeredFrom fmt base vs)

theorem rankedFrom_perm (fmt base : Nat) (smallest : Bool) (vs : List Nat) :
    (rankedFrom fmt base smallest vs).Perm (offeredFrom fmt base vs) := sortBy_perm _ _

theorem rankedFrom_pairwise (fmt base : Nat) (smallest : Bool) (vs : List Nat) :
    (rankedFrom fmt base smallest vs).Pairwise (fun x y => ranksBefore fmt smallest x y = true) := by
  refine sortBy_pairwise ((offeredFrom_indexes fmt base vs).imp_of_mem fun hx hy hlt => ?_) fun x hx y hy z hz => ?_
  · exact ranksBefore_total (not_nan_of_mem_offeredFrom hx) (not_nan_of_mem_offeredFrom hy) hlt.ne
  · exact ranksBefore_trans (not_nan_of_mem_offeredFrom hx) (not_nan_of_mem_offeredFrom hy) (not_nan_of_mem_offeredFrom hz)

theorem rankedFrom_append_nan {fmt v : Nat} (hv : fmtNan fmt v = true) (base : Nat) (smallest : Bool) (vs : List Nat) :
    rankedFrom fmt base smallest (vs ++ [v]) = rankedFrom fmt base smallest vs := by
  simp [rankedFrom, offeredFrom_append_singleton, hv]

theorem rankedFrom_append {fmt v : Nat} (hv : fmtNan fmt v = false) (base : Nat) (smallest : Bool) (vs : List Nat) :
    rankedFrom fmt base smallest (vs ++ [v]) =
      insertBy (ranksBefore fmt smallest) (v, base + vs.length) (rankedFrom fmt base smallest vs) := by
  simp [rankedFrom, offeredFrom_append_singleton, hv]

/-! What the list holds. -/

/-- Placing an entry into a list in order inserts it and keeps the first k (R295). -/
theorem TopK.place_entries (t : TopK) (x : Nat × Nat) (hk : t.entries.length ≤ t.k)
    (trans : ∀ y ∈ t.entries, ∀ z ∈ t.entries, ranksBefore t.fmt t.smallest x y = true →
      ranksBefore t.fmt t.smallest y z = true → ranksBefore t.fmt t.smallest x z = true)
    (hl : t.entries.Pairwise (fun y z => ranksBefore t.fmt t.smallest y z = true)) :
    (t.place x).entries = (insertBy (ranksBefore t.fmt t.smallest) x t.entries).take t.k := by
  unfold TopK.place
  dsimp only
  split
  · next hlt => exact (List.take_of_length_le (by simpa using hlt)).symm
  · next hge =>
    have hfull : t.entries.length = t.k := by omega
    split
    · next hnone =>
      have hzero : t.k = 0 := by simpa [List.getLast?_eq_none_iff.mp hnone] using hfull.symm
      simp [hzero, List.getLast?_eq_none_iff.mp hnone]
    · next y hlast =>
      split
      · obtain ⟨n, e⟩ := t.entered_eq ((insertBy (ranksBefore t.fmt t.smallest) x t.entries).take t.k) 1
        rw [e]
      · next hxy =>
        have hnone := before_none_of_last trans hl hlast (by simpa using hxy)
        simp [insertBy_eq_append hnone, ← hfull]

theorem TopK.element_entries_of_nan (t : TopK) {v : Nat} (hv : fmtNan t.fmt v = true) : (t.element v).entries = t.entries := by
  simp [TopK.element, hv]

theorem TopK.element_entries (t : TopK) {v : Nat} (hv : fmtNan t.fmt v = false) (hk : t.entries.length ≤ t.k)
    (hno : ∀ y ∈ t.entries, fmtNan t.fmt y.1 = false)
    (hl : t.entries.Pairwise (fun y z => ranksBefore t.fmt t.smallest y z = true)) :
    (t.element v).entries =
      (insertBy (ranksBefore t.fmt t.smallest) (v, (t.base + t.count) % 2 ^ 32) t.entries).take t.k := by
  have hplace := TopK.place_entries { t with count := t.count + 1 } (v, (t.base + t.count) % 2 ^ 32) hk
    (fun y hy z hz => ranksBefore_trans hv (hno y hy) (hno z hz)) hl
  simpa [TopK.element, hv] using hplace

/-- R295: a list that began empty holds the first k of its elements' rank order. -/
theorem TopK.foldl_element_entries (t : TopK) (vs : List Nat) (he : t.entries = []) (hc : t.count = 0)
    (hn : t.base + vs.length ≤ 4294967295) :
    (vs.foldl TopK.element t).entries = (rankedFrom t.fmt t.base t.smallest vs).take t.k := by
  induction vs using List.reverseRecOn with
  | nil => simp [he, rankedFrom, offeredFrom, sortBy]
  | append_singleton vs v ih =>
    rw [List.length_append, List.length_singleton] at hn
    have hlist := ih (by omega)
    obtain ⟨l, n, e, hl⟩ := TopK.foldl_element_eq vs t (by simp [he])
    rw [List.foldl_append, List.foldl_cons, List.foldl_nil]
    rw [e] at hlist ⊢
    change l = _ at hlist
    cases hv : fmtNan t.fmt v with
    | true =>
      rw [rankedFrom_append_nan hv, ← hlist]
      exact TopK.element_entries_of_nan _ hv
    | false =>
      have hno : ∀ y ∈ l, fmtNan t.fmt y.1 = false := fun y hy =>
        not_nan_of_mem_offeredFrom ((rankedFrom_perm _ _ _ _).mem_iff.mp (List.mem_of_mem_take (hlist ▸ hy)))
      have hsorted : l.Pairwise (fun y z => ranksBefore t.fmt t.smallest y z = true) :=
        hlist ▸ (rankedFrom_pairwise t.fmt t.base t.smallest vs).take
      have hidx : (t.base + (t.count + vs.length)) % 2 ^ 32 = t.base + vs.length := by omega
      rw [rankedFrom_append hv, ← take_insertBy, ← hlist, ← hidx]
      exact TopK.element_entries _ hv hl hno hsorted

/-- Settles O33: the counts by `TopK.foldl_element_eq`; what the list holds is the first k of the elements' rank order
(`TopK.foldl_element_entries`), and what is left out stands behind them in that order. -/
theorem topKListHoldsTheHighestRanks : Obligations.TopKListHoldsTheHighestRanks := by
  unfold Obligations.TopKListHoldsTheHighestRanks
  refine ⟨fun t vs h => ?_, fun t vs he hc hn => ?_⟩
  · obtain ⟨l, n, e, hl⟩ := TopK.foldl_element_eq vs t h
    rw [e]
    exact ⟨hl, rfl, rfl, rfl⟩
  · intro u offered
    have hu : u.entries = (rankedFrom t.fmt t.base t.smallest vs).take t.k := TopK.foldl_element_entries t vs he hc hn
    have hperm : (rankedFrom t.fmt t.base t.smallest vs).Perm offered := rankedFrom_perm t.fmt t.base t.smallest vs
    have hsorted := rankedFrom_pairwise t.fmt t.base t.smallest vs
    refine ⟨?_, fun x hx => ?_, ?_, fun x hx hout y hy => ?_, fun as bs hsplit => ?_⟩
    · rw [hu, List.length_take, hperm.length_eq]
    · exact hperm.mem_iff.mp (List.mem_of_mem_take (hu ▸ hx))
    · exact hu ▸ hsorted.take
    · rw [hu] at hout hy
      have hparts := List.take_append_drop t.k (rankedFrom t.fmt t.base t.smallest vs)
      have hdrop : x ∈ (rankedFrom t.fmt t.base t.smallest vs).drop t.k := by
        have hmem := hperm.mem_iff.mpr hx
        rw [← hparts, List.mem_append] at hmem
        exact hmem.resolve_left hout
      rw [← hparts] at hsorted
      exact (List.pairwise_append.mp hsorted).2.2 y hy x hdrop
    · rw [← List.foldl_append, ← hsplit]

end Sys2Proof.Machine
end

