-- ==== Sys2Proof/Proofs/Versions.lean ====
section
/-! SUPPORT and THEOREMS. The version slots of Peony's tables (R321, R332-R335): O47. -/

namespace Sys2Proof.Machine

variable {s : State}

/-! Reads and writes of DRAM leave Peony (R346, R350, R353). -/

@[simp] theorem State.showSafety_peony (s : State) : s.showSafety.peony = s.peony := by
  unfold State.showSafety
  extract_lets was now u v
  have hv : v.peony = s.peony := ite_keep (P := fun t : State => t.peony = s.peony) rfl rfl
  exact ite_keep (P := fun t : State => t.peony = s.peony) ((State.raise_peony ..).trans hv) hv

@[simp] theorem State.failController_peony (s : State) (c : Nat) : (s.failController c).peony = s.peony := by
  unfold State.failController
  split
  · rfl
  · dsimp only
    split
    · exact (State.showSafety_peony _).trans (State.raise_peony ..)
    · exact State.raise_peony ..

@[simp] theorem State.dramUe_peony (s : State) (a : Nat) : (s.dramUe a).peony = s.peony := by
  unfold State.dramUe
  dsimp only
  split <;> simp

@[simp] theorem State.dramGet_peony (s : State) (a n : Nat) (e : Ecc) : (s.dramGet a n e).1.peony = s.peony := by
  unfold State.dramGet
  extract_lets u ws
  have hu : u.peony = s.peony := rfl
  split
  · simp [hu]
  · split
    · simp [hu]
    · split <;> simp [hu]

@[simp] theorem State.dramPut_peony (s : State) (a : Nat) (d : Bytes) : (s.dramPut a d).peony = s.peony := by
  refine foldl_keep (P := fun t : State => t.peony = s.peony) (fun t l h => ?_) rfl
  exact ite_keep (P := fun t : State => t.peony = s.peony) h h

@[simp] theorem State.pGet_peony (s : State) (part off n : Nat) (e : Ecc) : (s.pGet part off n e).1.peony = s.peony := by
  unfold State.pGet
  split <;> simp

@[simp] theorem State.pPut_peony (s : State) (part off : Nat) (d : Bytes) : (s.pPut part off d).peony = s.peony := by
  unfold State.pPut
  split <;> simp

/-- What a read of a partition's array answers comes with the same Peony. -/
theorem State.peony_of_pGet {s u : State} {part off n : Nat} {e : Ecc} {b : Option Bytes} (h : s.pGet part off n e = (u, b)) :
    u.peony = s.peony := by
  have := s.pGet_peony part off n e
  rwa [h] at this

@[simp] theorem State.dirEntry_peony (s : State) (d : TDesc) (v : TVersion) (i : Nat) : (s.dirEntry d v i).1.peony = s.peony := by
  unfold State.dirEntry
  split
  · next h => exact State.peony_of_pGet h
  · next h => exact State.peony_of_pGet h

theorem State.peony_of_dirEntry {s u : State} {d : TDesc} {v : TVersion} {i : Nat} {y : Nat × Nat} (h : s.dirEntry d v i = (u, y)) :
    u.peony = s.peony := by
  have := s.dirEntry_peony d v i
  rwa [h] at this

@[simp] theorem State.rowGet_peony (s : State) (d : TDesc) (v : TVersion) (i : Nat) (e : Ecc) :
    (s.rowGet d v i e).1.peony = s.peony := by
  unfold State.rowGet
  split
  · next h => exact State.peony_of_dirEntry h
  · next h =>
    split
    · next hg => exact (State.peony_of_pGet hg).trans (State.peony_of_dirEntry h)
    · next hg => exact (State.peony_of_pGet hg).trans (State.peony_of_dirEntry h)

@[simp] theorem State.rowPut_peony (s : State) (d : TDesc) (v : TVersion) (cls off : Nat) (l : List Nat) :
    (s.rowPut d v cls off l).peony = s.peony := by
  unfold State.rowPut
  dsimp only
  split <;> simp

/-- BUILD writes the arrays of the new version and nothing of Peony (R321). -/
@[simp] theorem State.buildRows_peony (s : State) (d : TDesc) (src dst : TVersion) (slot : Nat) :
    (s.buildRows d src dst slot).peony = s.peony := by
  unfold State.buildRows
  refine foldl_fst (P := fun t => t.peony = s.peony) (fun a i ha => ?_) rfl
  dsimp only at ha ⊢
  split <;> split <;> simp [ha]

/-! A table and its version slots (R332). -/

@[simp] theorem State.table_modTable (s : State) (n : Nat) (f : PTable → PTable) : (s.modTable n f).table n = f (s.table n) := by
  simp [State.modTable, State.table]

/-- Tables stand in Peony's state alone. -/
theorem State.table_of_peony {s t : State} (h : t.peony = s.peony) (n : Nat) : t.table n = s.table n := by
  simp [State.table, h]

@[simp] theorem PTable.ver_setVer (x : PTable) (i : Nat) (v : TVersion) : (x.setVer i v).ver i = v := by
  simp [PTable.setVer, PTable.ver]

theorem PTable.ver_setVer_other (x : PTable) {i j : Nat} (v : TVersion) (h : Fin.ofNat 3 i ≠ Fin.ofNat 3 j) :
    (x.setVer i v).ver j = x.ver j := by
  have hv : (Fin.ofNat 3 i : Nat) ≠ Fin.ofNat 3 j := fun e => h (Fin.ext e)
  simp only [PTable.setVer, PTable.ver, Fin.getElem_fin]
  exact Vector.getElem_set_ne _ _ hv

/-- Versions in different states are in different slots. -/
theorem PTable.slots_ne_of_states_ne {x : PTable} {i j : Nat} (h : (x.ver i).state ≠ (x.ver j).state) :
    Fin.ofNat 3 i ≠ Fin.ofNat 3 j :=
  fun e => h (by simp only [PTable.ver, e])

/-- The slot that is found in a state is in that state. -/
theorem PTable.state_of_slotIn {x : PTable} {st : Nat} {i : Fin 3} (h : x.slotIn st = some i) : (x.ver i.val).state = st := by
  have hi := List.find?_some h
  rw [beq_iff_eq] at hi
  simpa [PTable.ver] using hi

/-- The version records show what Peony holds and leave it (R332). -/
@[simp] theorem State.showVers_peony (s : State) (n : Nat) : (s.showVers n).peony = s.peony := by
  unfold State.showVers
  refine foldl_keep (P := fun t : State => t.peony = s.peony) (fun t i h => ?_) rfl
  exact h

@[simp] theorem State.table_setVer (s : State) (n i : Nat) (v : TVersion) : (s.setVer n i v).table n = (s.table n).setVer i v :=
  (State.table_of_peony (State.showVers_peony ..) n).trans (State.table_modTable ..)

/-- A command's answer leaves the tables. -/
@[simp] theorem State.table_answer (s : State) (st n : Nat) : (s.answer st).table n = s.table n := rfl

/-! The commands of COMMAND (R321, R333, R335). -/

/-- BUILD of a REPLICATED table: the slot takes the source's rows and is loading (R333). -/
theorem State.peonyCommand_build_replicated {n v : Nat} (hb : v / 16 = 1) (hd : (s.tdesc n).place = 0) :
    ((s.peonyCommand n v).table n).ver (v / 4 % 4) =
      { number := s.fresh % 2 ^ 32, image := ((s.table n).ver (v % 4)).image, loading := true } := by
  unfold State.peonyCommand
  simp only [hb, hd, if_true]
  simp

/-- BUILD of a table in DRAM: the slot is PREPARED behind what its region holds (R321; log entry 38). -/
theorem State.peonyCommand_build_dram {n v : Nat} (hb : v / 16 = 1) (hd : (s.tdesc n).place ≠ 0) :
    ((s.peonyCommand n v).table n).ver (v / 4 % 4) =
      { number := s.fresh % 2 ^ 32, state := 1
        bases := s.newBases (s.tdesc n) n (v / 4 % 4) ((s.tdesc n).rows * (2 * (s.tdesc n).e)) } := by
  unfold State.peonyCommand
  simp only [hb, hd, if_false, State.table_setVer, PTable.ver_setVer]
  rfl

/-- CREATE_SHADOW: the slot is a SHADOW without rows of its own, on the row store of the LIVE slot (R335). -/
theorem State.peonyCommand_shadow {n v : Nat} {l : Fin 3} (hb : v / 16 = 2) (hl : (s.table n).slotIn 2 = some l) :
    ∃ dir hits opt : Nat, ((s.peonyCommand n v).table n).ver (v % 4) =
      { number := s.fresh % 2 ^ 32, state := 3, bases := [dir, ((s.table n).ver l.val).base 1, hits, opt] } := by
  unfold State.peonyCommand
  simp only [hb, hl, State.table_setVer, PTable.ver_setVer]
  exact ⟨_, _, _, rfl⟩

/-- SEAL marks the slot as sealed and leaves the rest of it (R335). -/
theorem State.peonyCommand_seal {n v : Nat} (hb : v / 16 = 3) :
    ((s.peonyCommand n v).table n).ver (v % 4) = { (s.table n).ver (v % 4) with sealed := true } := by
  unfold State.peonyCommand
  simp only [hb]
  rw [State.table_of_peony (State.setOct_peony ..), State.table_setVer, PTable.ver_setVer]

/-! The writes of COMMAND, SWITCH and VALIDATION (R321, R333-R335). -/

section
variable {w : Writer} {table : Fin 16} {v : BitVec 8} {rec : Bytes}

/-- A write of COMMAND whose bits 7 to 4 are the row's own and that passes its check does what COMMAND does. -/
theorem State.command_peonyCommand {k : Nat} (h : (s.at w.t).accepts w (0x8100 + 16 * table.val) 3 (.num v.toNat))
    (hk : v.toNat / 16 = k) (hc : (s.at w.t).peonyCheck table.val v.toNat = 0) :
    s.command w (0x8100 + 16 * table.val) 3 (.num v.toNat)
        (fun s => if v.toNat / 16 = k then s.peonyCheck table.val v.toNat else 5) (fun s => s.peonyCommand table.val v.toNat) =
      ((s.at w.t).peonyCommand table.val v.toNat).answer 0 :=
  State.command_passes h ((if_pos hk).trans hc) _

/-- BUILD takes no other command: RANGE. -/
theorem execBuild_refuses (h : (s.at w.t).accepts w (0x8100 + 16 * table.val) 3 (.num v.toNat)) (hb : v.toNat / 16 ≠ 1) :
    exec (.build w table v) s = .next ((s.at w.t).answer 5) := by
  refine next_congr ((State.command_accepts h _ _).trans ?_)
  rw [if_neg hb]
  exact if_pos (by decide)

theorem execSwitch_names (h : (s.at w.t).accepts w (0x8100 + 16 * table.val) 4 (.num v.toNat))
    (hc : (s.at w.t).switchCheck table.val v.toNat = 0) :
    exec (.switch w table v) s =
      .next (((s.at w.t).modTable table.val (fun x => { x with switchTo := some v.toNat })).answer 0) :=
  next_congr (State.command_passes h hc _)

/-- A valid record makes the sealed shadow PREPARED (R335). -/
theorem execValidation_prepares (h : (s.at w.t).accepts w (0x8100 + 16 * table.val) 9 (.oct rec))
    (hv : (s.at w.t).validOk table.val rec = true) {i : Fin 3} (hi : (s.table table.val).slotIn 3 = some i) :
    exec (.validation w table rec) s =
      .next (((s.at w.t).setVer table.val i.val { (s.table table.val).ver i.val with state := 1 }).answer 0) := by
  have hval : (s.at w.t).validate table.val rec =
      (s.at w.t).setVer table.val i.val { (s.table table.val).ver i.val with state := 1 } := by
    unfold State.validate
    rw [State.table_of_peony (State.at_peony s w.t), hi]
    exact if_pos hv
  refine next_congr ?_
  rw [State.command_passes h (if_pos hv), hval]
  exact if_neg (by decide : (0 : Nat) ≠ 6)

/-- A record that is not valid is REFUSED and raises EV 0x8005 (R335). -/
theorem execValidation_refuses (h : (s.at w.t).accepts w (0x8100 + 16 * table.val) 9 (.oct rec))
    (hv : (s.at w.t).validOk table.val rec = false) :
    exec (.validation w table rec) s = .next (((s.at w.t).answer 6).raise 0x8005 table.val) := by
  refine next_congr ?_
  rw [State.command_accepts h, if_neg (by simp [hv] : ¬ (s.at w.t).validOk table.val rec = true), if_pos (by decide : (6 : Nat) ≠ 0)]
  exact if_pos rfl

end

/-! The version switch, the end of a version and its replicas (R333, R334). -/

section
variable {table : Fin 16}

/-- The LIVE slot retires with the frame before the one in ingest, and slot `i` goes live with that one (R334). -/
def State.versionSwitched (s : State) (n i : Nat) (l : Fin 3) : State :=
  ((s.setVer n l.val { (s.table n).ver l.val with state := 4, frame := s.frame.ing.n - 1 }).setVer n i
    { (s.table n).ver i with state := 2, frame := s.frame.ing.n }).modTable n (fun x => { x with switchTo := none })

theorem execVersionSwitch_switches (hr : s.runs) {i : Nat} {l : Fin 3} (hto : (s.table table.val).switchTo = some i)
    (hrun : s.frame.run = true) (hnow : s.frame.now = s.frame.ing.start) (h1 : ((s.table table.val).ver i).state = 1)
    (h4 : (s.table table.val).slotIn 4 = none) (h2 : (s.table table.val).slotIn 2 = some l) :
    exec (.versionSwitch table) s = .next (s.versionSwitched table.val i l) := by
  have hgo : ¬ ((!s.frame.run) = true ∨ s.frame.now ≠ s.frame.ing.start ∨ ((s.table table.val).ver i).state ≠ 1 ∨
      ((s.table table.val).slotIn 4).isSome = true) := by simp [hrun, hnow, h1, h4]
  refine next_congr ((State.clocked_runs hr _).trans ?_)
  dsimp only
  rw [hto]
  exact (if_neg hgo).trans (by rw [h2]; rfl)

theorem State.table_versionSwitched (s : State) (n i : Nat) (l : Fin 3) :
    (s.versionSwitched n i l).table n = { ((s.table n).setVer l.val { (s.table n).ver l.val with state := 4, frame := s.frame.ing.n - 1 }).setVer i
      { (s.table n).ver i with state := 2, frame := s.frame.ing.n } with switchTo := none } := by
  simp [State.versionSwitched]

/-- A retired version's slot is EMPTY, its pool slots are free and EV 0x8004 tells it (R334). -/
def State.versionRetired (s : State) (n : Nat) (r : Fin 3) : State :=
  (((s.modTable n (fun x => x.empty r.val)).showVers n).modTable n
    (fun x => { x with slots := x.slots.filter (fun y => y.ver != r.val) })).raise 0x8004 n

theorem execVersionRetire_retires (hr : s.runs) {r : Fin 3} (h4 : (s.table table.val).slotIn 4 = some r)
    (hcomp : ((s.table table.val).ver r.val).frame < s.frame.comp.n) (hing : ((s.table table.val).ver r.val).frame < s.frame.ing.n)
    (hreq : (s.table table.val).reqs.any (fun q => q.op == 1 && q.ver == r.val) = false) :
    exec (.versionRetire table) s = .next (s.versionRetired table.val r) := by
  refine next_congr ((State.clocked_runs hr _).trans ?_)
  dsimp only
  rw [h4]
  exact if_neg (by simp [hcomp, hing, hreq])

theorem State.table_versionRetired (s : State) (n : Nat) (r : Fin 3) :
    (s.versionRetired n r).table n =
      { (s.table n).empty r.val with slots := (s.table n).slots.filter (fun y => y.ver != r.val) } := by
  rw [State.versionRetired, State.table_of_peony (State.raise_peony ..), State.table_modTable,
    State.table_of_peony (State.showVers_peony ..), State.table_modTable]
  rfl

theorem execReplicaPrepared_prepares (hr : s.runs) {slot : Fin 3} (hl : ((s.table table.val).ver slot.val).loading = true) :
    exec (.replicaPrepared table slot) s = .next (s.setVer table.val slot.val
      { (s.table table.val).ver slot.val with loading := false, state := 1 }) :=
  next_congr ((State.clocked_runs hr _).trans (if_pos hl))

end

/-- Settles O47: each command is its effect in a known branch; COMMAND's by `State.peonyCommand_build_replicated`,
`State.peonyCommand_build_dram`, `State.peonyCommand_shadow` and `State.peonyCommand_seal`; at a switch the LIVE slot is another than the one named,
since that one is PREPARED. -/
theorem versionsMoveByTheirRules : Obligations.VersionsMoveByTheirRules := by
  unfold Obligations.VersionsMoveByTheirRules
  intro table s
  dsimp only
  refine ⟨fun w v h => ⟨fun hb hc => ?_, fun hb hc l hl => ?_, fun hb hc => ?_, fun hb => ?_⟩, fun w v h hc => ?_,
    fun hr i l hto hrun hnow h1 h4 h2 => ?_, fun hr r h4 hcomp hing hreq => ?_, fun hr slot hl => ?_,
    fun w rec h => ⟨fun hv i hi => ?_, fun hv => ?_⟩⟩
  · refine ⟨_, next_congr (State.command_peonyCommand h hb hc), rfl, fun hp => ?_, fun hp => ?_⟩
    · rw [State.table_answer, State.peonyCommand_build_dram (s := s.at w.t) hb hp]
      exact ⟨rfl, rfl⟩
    · rw [State.table_answer, State.peonyCommand_build_replicated (s := s.at w.t) hb hp]
      exact ⟨rfl, rfl⟩
  · obtain ⟨dir, hits, opt, hver⟩ := State.peonyCommand_shadow (s := s.at w.t) hb hl
    refine ⟨_, next_congr (State.command_peonyCommand h hb hc), rfl, ?_⟩
    rw [State.table_answer, hver]
    exact ⟨rfl, rfl, rfl⟩
  · exact ⟨_, next_congr (State.command_peonyCommand h hb hc), rfl, State.peonyCommand_seal (s := s.at w.t) hb⟩
  · exact ⟨_, execBuild_refuses h hb, rfl, rfl⟩
  · refine ⟨_, execSwitch_names h hc, rfl, ?_⟩
    rw [State.table_answer, State.table_modTable]
    exact ⟨rfl, rfl⟩
  · have hne : Fin.ofNat 3 i ≠ Fin.ofNat 3 l.val :=
      PTable.slots_ne_of_states_ne (x := s.table table.val) (by rw [h1, PTable.state_of_slotIn h2]; decide)
    refine ⟨_, execVersionSwitch_switches hr hto hrun hnow h1 h4 h2, ?_⟩
    rw [State.table_versionSwitched]
    exact ⟨rfl, PTable.ver_setVer .., (PTable.ver_setVer_other _ _ hne).trans (PTable.ver_setVer ..)⟩
  · refine ⟨_, execVersionRetire_retires hr h4 hcomp hing hreq, ?_⟩
    rw [State.table_versionRetired]
    exact ⟨PTable.ver_setVer .., rfl⟩
  · refine ⟨_, execReplicaPrepared_prepares hr hl, ?_⟩
    rw [State.table_setVer, PTable.ver_setVer]
  · refine ⟨_, execValidation_prepares h hv hi, rfl, ?_⟩
    rw [State.table_answer, State.table_setVer, PTable.ver_setVer]
  · exact ⟨_, execValidation_refuses h hv, State.raise_lastStatus .., State.raise_peony ..⟩

end Sys2Proof.Machine
end

