-- ==== Sys2Proof/Proofs/DramAccess.lean ====
section
/-! SUPPORT. Accesses to DRAM (R345, R346, R350, R353): what an error or a failed controller leaves, what a read answers, which bytes a write
changes. -/

namespace Sys2Proof.Machine

variable {s : State} {da n : Nat}

/-! Controllers (R345). -/

/-- A line's controller is one of the eight. -/
theorem State.ctrlOf_lt (s : State) (da : Nat) : s.ctrlOf da < 8 := by
  unfold State.ctrlOf
  extract_lets u
  rw [List.getD_eq_getElem?_getD]
  cases h : u[da / 256 % Nat.max 1 u.length]? with
  | none => decide
  | some c => exact List.mem_range.1 (List.mem_filter.1 (List.mem_of_getElem? h)).1

/-- A block of 256 bytes lies in one controller. -/
theorem State.ctrlOf_block (s : State) {a b : Nat} (h : a / 256 = b / 256) : s.ctrlOf a = s.ctrlOf b := by
  rw [State.ctrlOf, h, ← State.ctrlOf]

theorem State.ctrlOf_congr {s t : State} (h : t.dict = s.dict) (a : Nat) : t.ctrlOf a = s.ctrlOf a := by
  unfold State.ctrlOf State.controllers
  rw [State.num_congr h]

/-- The units of `w` bytes that hold a byte of [da, da + n). -/
theorem mem_units {w u : Nat} (hw : 0 < w) :
    u ∈ (List.range (if n = 0 then 0 else (da + n - 1) / w - da / w + 1)).map (fun i => da / w + i) ↔ ∃ x, da ≤ x ∧ x < da + n ∧ x / w = u := by
  simp only [List.mem_map, List.mem_range]
  have hle : n ≠ 0 → da / w ≤ (da + n - 1) / w := fun h => Nat.div_le_div_right (by omega)
  constructor
  · rintro ⟨i, hi, rfl⟩
    split at hi
    case isTrue => cases hi
    case isFalse h0 =>
      by_cases hi0 : i = 0
      · exact ⟨da, le_rfl, by omega, by rw [hi0]; rfl⟩
      · have := hle h0
        have h1 : da < w * (da / w + i) := (Nat.lt_mul_div_succ da hw).trans_le (Nat.mul_le_mul_left w (by omega))
        have h2 : w * (da / w + i) ≤ da + n - 1 := (Nat.mul_le_mul_left w (by omega)).trans (Nat.mul_div_le ..)
        exact ⟨w * (da / w + i), h1.le, by omega, Nat.mul_div_cancel_left _ hw⟩
  · rintro ⟨x, h1, h2, rfl⟩
    have h3 : da / w ≤ x / w := Nat.div_le_div_right h1
    have h4 : x / w ≤ (da + n - 1) / w := Nat.div_le_div_right (by omega)
    exact ⟨x / w - da / w, by rw [if_neg (by omega)]; omega, by omega⟩

/-- No line of a range lies in a failed controller exactly where no byte does. -/
theorem State.dramDead_eq_none : s.dramDead da n = none ↔ ∀ x, da ≤ x → x < da + n → bitAt s.ext.failed (s.ctrlOf x) = false := by
  have hm : (List.range (if n = 0 then 0 else (da + n - 1) / 256 - da / 256 + 1)).map (fun i => 256 * (da / 256 + i)) =
      ((List.range (if n = 0 then 0 else (da + n - 1) / 256 - da / 256 + 1)).map (fun i => da / 256 + i)).map (256 * ·) := by
    rw [List.map_map]
    rfl
  rw [State.dramDead, hm, List.find?_eq_none]
  have hb : ∀ x, s.ctrlOf (256 * (x / 256)) = s.ctrlOf x := fun x => s.ctrlOf_block (by omega)
  constructor
  · intro h x h1 h2
    have := h (256 * (x / 256)) (List.mem_map_of_mem ((mem_units (by decide)).2 ⟨x, h1, h2, rfl⟩))
    rwa [hb, Bool.not_eq_true] at this
  · intro h a ha
    obtain ⟨u, hu, rfl⟩ := List.mem_map.1 ha
    obtain ⟨x, h1, h2, rfl⟩ := (mem_units (by decide)).1 hu
    rw [hb, h x h1 h2]
    decide

/-- No word of a range is known to be bad. -/
theorem find_words_eq_none {bad : List (Nat × Bool)} (h : ∀ x, da ≤ x → x < da + n → Sparse.get noBit bad (x / 8) = false) :
    ((List.range (if n = 0 then 0 else (da + n - 1) / 8 - da / 8 + 1)).map (fun i => da / 8 + i)).find? (fun a => Sparse.get noBit bad a) =
      none := by
  refine List.find?_eq_none.2 fun a ha => ?_
  obtain ⟨x, h1, h2, rfl⟩ := (mem_units (by decide)).1 ha
  rw [h x h1 h2]
  decide

/-! Errors and failures (R350, R352, R353). -/

theorem State.obj_showSafety {k : Nat} (h : k ≠ od 0xA000 2) (hp : k ≠ od 0xE000 1) (h5 : k ≠ od 0x7900 5) : s.showSafety.obj k = s.obj k := by
  unfold State.showSafety
  extract_lets was now u v
  have hu : u.obj k = s.obj k := State.obj_setNum_other s _ h
  have hv : v.obj k = s.obj k := ite_keep (P := fun t : State => t.obj k = s.obj k) ((State.obj_setNum_other u _ hp).trans hu) hu
  exact ite_keep (P := fun t : State => t.obj k = s.obj k) ((State.obj_raise v _ _ _ _ h5).trans hv) hv

/-- The safety state is shown as it follows from its causes (R427). -/
theorem State.showSafety_shows (s : State) : s.showSafety.num (od 0xA000 2) = s.showSafety.safetyOf := by
  have hn : s.showSafety.num (od 0xA000 2) = s.safetyOf := by
    unfold State.showSafety
    extract_lets was now u v
    have hu : u.num (od 0xA000 2) = now := State.num_setNum ..
    have hv : v.num (od 0xA000 2) = now :=
      ite_keep (P := fun t : State => t.num (od 0xA000 2) = now) ((State.num_setNum_other u _ (by decide)).trans hu) hu
    exact ite_keep (P := fun t : State => t.num (od 0xA000 2) = now) ((State.num_raise v _ _ _ _ (by decide)).trans hv) hv
  have hs : s.showSafety.sched = s.sched := by
    unfold State.showSafety
    extract_lets was now u v
    have hv : v.sched = s.sched := ite_keep (P := fun t : State => t.sched = s.sched) rfl rfl
    exact ite_keep (P := fun t : State => t.sched = s.sched) ((State.raise_sched ..).trans hv) hv
  rw [hn, State.safetyOf, State.safetyOf, (Guarded.refl s).showSafety.safety, hs,
    State.num_of_obj (State.obj_showSafety (by decide) (by decide) (by decide)),
    State.num_of_obj (State.obj_showSafety (by decide) (by decide) (by decide))]

@[simp] theorem State.showSafety_ext (s : State) : s.showSafety.ext = s.ext := by
  unfold State.showSafety
  extract_lets was now u v
  have hv : v.ext = s.ext := ite_keep (P := fun t : State => t.ext = s.ext) rfl rfl
  exact ite_keep (P := fun t : State => t.ext = s.ext) ((State.raise_ext ..).trans hv) hv

/-- Objects that the failure of a controller may change. -/
def failureKeys (c : Nat) : List Nat := [od (0x7880 + c) 4, od 0x7800 3, od 0x7900 5, od 0xA000 2, od 0xE000 1]

/-- The counts of a controller are none of them. -/
theorem ctrlCount_notMem {c j : Nat} (hc : c < 8) (h : 1 ≤ j ∧ j ≤ 3) : od (0x7880 + c) j ∉ failureKeys c := by
  simp only [failureKeys, od, List.mem_cons, List.not_mem_nil, or_false, not_or]
  omega

theorem State.obj_failController {c k : Nat} (h : k ∉ failureKeys c) : (s.failController c).obj k = s.obj k := by
  simp only [failureKeys, List.mem_cons, List.not_mem_nil, or_false, not_or] at h
  obtain ⟨h4, h3, h5, h2, h1⟩ := h
  unfold State.failController
  extract_lets u v w x
  have hx : x.obj k = s.obj k :=
    (State.obj_raise w _ _ _ _ h5).trans ((State.obj_store_other v _ h3).trans (State.obj_setNum_other u _ h4))
  refine ite_keep (P := fun t : State => t.obj k = s.obj k) rfl (ite_keep (P := fun t : State => t.obj k = s.obj k) ?_ hx)
  exact (State.obj_showSafety h2 h1 h5).trans hx

theorem State.failController_ext (s : State) (c : Nat) : ∃ f, (s.failController c).ext = { s.ext with failed := f } := by
  unfold State.failController
  extract_lets u v w x
  have hx : x.ext = { s.ext with failed := setBit s.ext.failed c } := State.raise_ext ..
  split
  · exact ⟨_, rfl⟩
  · split
    · exact ⟨_, (State.showSafety_ext _).trans hx⟩
    · exact ⟨_, hx⟩

/-- An uncorrectable word changes no stored byte and no bad word. -/
theorem State.dramUe_ext (s : State) (a : Nat) : ∃ f l, (s.dramUe a).ext = { s.ext with failed := f, ueAt := l } := by
  unfold State.dramUe
  extract_lets c now u v w
  obtain ⟨l, hl⟩ : ∃ l, w.ext = { s.ext with ueAt := l } := by
    have hv : v.ext = s.ext := State.raiseIng_ext u ..
    exact ⟨_, by rw [← hv]; rfl⟩
  split
  · obtain ⟨f, hf⟩ := w.failController_ext c
    exact ⟨f, l, by rw [hf, hl]⟩
  · exact ⟨_, l, hl⟩

/-- An uncorrectable word is counted, and its address shown (R350). -/
theorem State.dramUe_counts (s : State) (a : Nat) :
    (s.dramUe a).num (od (0x7880 + s.ctrlOf a) 2) =
      Od.counter (od (0x7880 + s.ctrlOf a) 2) (s.num (od (0x7880 + s.ctrlOf a) 2) + 1) ∧
    (s.dramUe a).num (od (0x7880 + s.ctrlOf a) 3) = a := by
  have hc := s.ctrlOf_lt a
  let u := (s.bump (od (0x7880 + s.ctrlOf a) 2)).setNum (od (0x7880 + s.ctrlOf a) 3) a
  have hu : ∀ j, 1 ≤ j ∧ j ≤ 3 → (s.dramUe a).num (od (0x7880 + s.ctrlOf a) j) = u.num (od (0x7880 + s.ctrlOf a) j) := by
    intro j hj
    have hk := ctrlCount_notMem hc hj
    unfold State.dramUe
    extract_lets c now v w x
    have hx : x.num (od (0x7880 + c) j) = u.num (od (0x7880 + c) j) :=
      ite_keep (P := fun t : State => t.num (od (0x7880 + c) j) = u.num (od (0x7880 + c) j)) rfl
        (State.num_raise u _ _ _ _ fun e => hk (by rw [e]; simp [failureKeys]))
    exact ite_keep (P := fun t : State => t.num (od (0x7880 + c) j) = u.num (od (0x7880 + c) j))
      ((State.num_of_obj (State.obj_failController hk)).trans hx) hx
  have hne : od (0x7880 + s.ctrlOf a) 2 ≠ od (0x7880 + s.ctrlOf a) 3 := by
    unfold od
    omega
  refine ⟨(hu 2 (by decide)).trans ((State.num_setNum_other _ _ hne).trans (State.num_bump ..)), (hu 3 (by decide)).trans (State.num_setNum ..)⟩

/-! Reads (R346, R350). -/

theorem State.dramGet_dead {a : Nat} (h : s.dramDead da n = some a) (e : Ecc) : s.dramGet da n e = ((s.touchRow da).dramUe a, none) := by
  have hd : (s.touchRow da).dramDead da n = some a := h
  unfold State.dramGet
  simp only [hd]

/-- What a read of sound lines answers is what its check bits say. -/
theorem State.dramGet_intact (hd : s.dramDead da n = none) (hb : ∀ x, da ≤ x → x < da + n → Sparse.get noBit s.ext.bad (x / 8) = false) (e : Ecc) :
    s.dramGet da n e = match e with
      | .uncorrectable => (((s.touchRow da).modExt (fun x => { x with bad := Sparse.put noBit x.bad (da / 8) true })).dramUe da, none)
      | .corrected => ((s.touchRow da).bump (od (0x7880 + s.ctrlOf da) 1), some (Sparse.getN zeroByte s.ext.dram da n))
      | .clean => (s.touchRow da, some (Sparse.getN zeroByte s.ext.dram da n)) := by
  have hd' : (s.touchRow da).dramDead da n = none := hd
  have hw := find_words_eq_none hb
  have hw' : ((List.range (if n = 0 then 0 else (da + n - 1) / 8 - da / 8 + 1)).map (fun i => da / 8 + i)).find?
      (fun a => Sparse.get noBit (s.touchRow da).ext.bad a) = none := hw
  unfold State.dramGet
  simp only [hd', hw']
  cases e <;> rfl

/-- A read changes no stored byte and no position of a scrub. -/
theorem State.dramGet_keeps (s : State) (da n : Nat) (e : Ecc) :
    (s.dramGet da n e).1.ext.dram = s.ext.dram ∧ (s.dramGet da n e).1.ext.scrubbed = s.ext.scrubbed := by
  have hue : ∀ (u : State) (a : Nat), (u.dramUe a).ext.dram = u.ext.dram ∧ (u.dramUe a).ext.scrubbed = u.ext.scrubbed := fun u a => by
    obtain ⟨f, l, h⟩ := u.dramUe_ext a
    rw [h]
    exact ⟨rfl, rfl⟩
  unfold State.dramGet
  extract_lets u words
  split
  · exact hue u _
  · split
    · exact hue u _
    · cases e
      · exact ⟨rfl, rfl⟩
      · exact ⟨rfl, rfl⟩
      · exact hue _ da

/-! Writes (R346, R353). -/

/-- The bytes of a range that lie in one line of 64 are written, or counted where the line's controller has failed. -/
def State.putLine (s : State) (da : Nat) (d : Bytes) (l : Nat) : State :=
  let lo := Nat.max da (l * 64)
  let hi := Nat.min (da + d.length) (l * 64 + 64)
  if bitAt s.ext.failed (s.ctrlOf lo) then s.bump (od (0x7880 + s.ctrlOf lo) 5)
  else s.modExt (fun e => { e with
    dram := Sparse.putN zeroByte e.dram lo (slice d (lo - da) (hi - lo))
    bad := if hi - lo = 64 then (List.range 8).foldl (fun m i => Sparse.put noBit m (l * 8 + i) false) e.bad else e.bad })

/-- A write goes line by line. -/
theorem State.dramPut_eq (s : State) (da : Nat) (d : Bytes) : s.dramPut da d =
    ((List.range (if d.length = 0 then 0 else (da + d.length - 1) / 64 - da / 64 + 1)).map (fun i => da / 64 + i)).foldl
      (fun s l => s.putLine da d l) (s.touchRow da) := rfl

theorem State.putLine_failed (s : State) (da : Nat) (d : Bytes) (l : Nat) : (s.putLine da d l).ext.failed = s.ext.failed :=
  ite_keep (P := fun t : State => t.ext.failed = s.ext.failed) rfl rfl

/-- A count of discarded bytes is not what names the controllers. -/
theorem State.putLine_ctrlOf (s : State) (da : Nat) (d : Bytes) (l a : Nat) : (s.putLine da d l).ctrlOf a = s.ctrlOf a := by
  refine ite_keep (P := fun t : State => t.ctrlOf a = s.ctrlOf a) ?_ rfl
  unfold State.ctrlOf State.controllers
  rw [State.num_bump_other]
  unfold od
  omega

theorem getElem?_slice {d : Bytes} {o m i : Nat} (h : i < m) : (slice d o m)[i]? = d[o + i]? := by
  rw [slice, List.getElem?_take_of_lt h, List.getElem?_drop]

/-- The bytes of a line after its part of a write. -/
theorem State.rd_putLine (s : State) (da : Nat) (d : Bytes) (l x : Nat) : Mem.rd (s.putLine da d l).ext.dram x =
    if da ≤ x ∧ x < da + d.length ∧ x / 64 = l ∧ bitAt s.ext.failed (s.ctrlOf x) = false then d.getD (x - da) 0
    else Mem.rd s.ext.dram x := by
  have hin : da ≤ x ∧ x < da + d.length ∧ x / 64 = l ↔ Nat.max da (l * 64) ≤ x ∧ x < Nat.min (da + d.length) (l * 64 + 64) := by
    rw [Nat.max_le, Nat.lt_min]
    omega
  unfold State.putLine
  extract_lets lo hi
  have hlo : da ≤ x ∧ x < da + d.length ∧ x / 64 = l → s.ctrlOf lo = s.ctrlOf x := fun h => s.ctrlOf_block (by
    have h1 : lo / 64 = x / 64 := by
      have := hin.1 h
      have : l * 64 ≤ lo := Nat.le_max_right ..
      omega
    omega)
  split
  case isTrue hf =>
    rw [if_neg]
    · rfl
    rintro ⟨h1, h2, h3, h4⟩
    rw [hlo ⟨h1, h2, h3⟩, h4] at hf
    cases hf
  case isFalse hf =>
    refine (Sparse.get_putN ..).trans ?_
    by_cases h : da ≤ x ∧ x < da + d.length ∧ x / 64 = l
    · obtain ⟨h5, h6⟩ := hin.1 h
      have h7 : da ≤ lo := Nat.le_max_left ..
      rw [if_pos h5, if_pos ⟨h.1, h.2.1, h.2.2, by rw [← hlo h, Bool.eq_false_iff]; exact hf⟩,
        getElem?_slice (by omega), show lo - da + (x - lo) = x - da by omega, List.getD_eq_getElem?_getD,
        List.getElem?_eq_getElem (by omega)]
      rfl
    · refine Eq.trans ?_ (if_neg fun ⟨h1, h2, h3, _⟩ => h ⟨h1, h2, h3⟩).symm
      split
      case isTrue h5 =>
        rw [List.getElem?_eq_none]
        · rfl
        · rw [slice, List.length_take, List.length_drop]
          have : ¬ x < hi := fun h6 => h (hin.2 ⟨h5, h6⟩)
          omega
      case isFalse => rfl

theorem State.rd_putLines (da : Nat) (d : Bytes) (x : Nat) (ls : List Nat) (s : State) :
    Mem.rd (ls.foldl (fun s l => s.putLine da d l) s).ext.dram x =
      if da ≤ x ∧ x < da + d.length ∧ x / 64 ∈ ls ∧ bitAt s.ext.failed (s.ctrlOf x) = false then d.getD (x - da) 0 else Mem.rd s.ext.dram x := by
  induction ls generalizing s with
  | nil => simp
  | cons l ls ih =>
    rw [List.foldl_cons, ih, State.putLine_failed, State.putLine_ctrlOf, State.rd_putLine]
    by_cases h : da ≤ x ∧ x < da + d.length ∧ bitAt s.ext.failed (s.ctrlOf x) = false
    · obtain ⟨h1, h2, h3⟩ := h
      simp only [h1, h2, h3, true_and, and_true, List.mem_cons]
      by_cases hl : x / 64 = l <;> by_cases hm : x / 64 ∈ ls <;> simp [hl, hm]
    · rw [if_neg (fun k => h ⟨k.1, k.2.1, k.2.2.2⟩), if_neg (fun k => h ⟨k.1, k.2.1, k.2.2.2⟩), if_neg (fun k => h ⟨k.1, k.2.1, k.2.2.2⟩)]

/-- A write changes exactly the bytes of its range that lie in working controllers. -/
theorem State.rd_dramPut (s : State) (da : Nat) (d : Bytes) (x : Nat) : Mem.rd (s.dramPut da d).ext.dram x =
    if da ≤ x ∧ x < da + d.length ∧ bitAt s.ext.failed (s.ctrlOf x) = false then d.getD (x - da) 0 else Mem.rd s.ext.dram x := by
  rw [State.dramPut_eq, State.rd_putLines]
  refine if_congr ?_ rfl rfl
  constructor
  · exact fun ⟨h1, h2, _, h4⟩ => ⟨h1, h2, h4⟩
  · exact fun ⟨h1, h2, h4⟩ => ⟨h1, h2, (mem_units (by decide)).2 ⟨x, h1, h2, rfl⟩, h4⟩

end Sys2Proof.Machine
end

