-- ==== Sys2Proof/Proofs/TaskEnds.lean ====
section
/-! SUPPORT. What ends of tasks, safety states and doubt leave of the security block, the supply, the clock, the memories, the dictionary and Peony's
tables (R215, R216, R341, R379, R386, R427-R429): the relation `Ends`, one rule per operation. -/

namespace Sys2Proof.Machine

/-- Objects that units show themselves in: those of the cores (OD 0x6000-0x6FFF), of the scheduler (OD 0x9000-0x9FFF), of safety (OD 0xA000), the
events lost and the power state. -/
def unitKey (k : Nat) : Bool :=
  decide ((od 0x6000 0 ≤ k ∧ k < od 0x7000 0) ∨ (od 0x9000 0 ≤ k ∧ k < od 0xA001 0) ∨ k = od 0x7900 5 ∨ k = od 0xE000 1)

theorem unitKey_od {i j : Nat} (hj : j < 256) (h : 0x6000 ≤ i ∧ i < 0x7000 ∨ 0x9000 ≤ i ∧ i ≤ 0xA000) : unitKey (od i j) = true := by
  refine decide_eq_true ?_
  simp only [od]
  omega

theorem unitKey_odCore {c : Fin 16} {j : Nat} (hj : j < 256) : unitKey (odCore 0x6102 c j) = true :=
  unitKey_od hj (by have := c.isLt; omega)

theorem unitKey_taskOd {n j : Nat} (hj : j < 256) : unitKey (taskOd n j) = true :=
  unitKey_od hj (by have := Nat.mod_lt n (show 0 < 256 by decide); omega)

/-- An object that is not a unit's is another than a unit's. -/
theorem ne_of_unitKey {j k : Nat} (hj : unitKey j = false) (hk : unitKey k = true) : j ≠ k := by
  rintro rfl
  rw [hj] at hk
  cases hk

/-- What ends of tasks and safety states leave of `s` in `t`. -/
structure Ends (s t : State) : Prop where
  sec : t.sec = s.sec
  power : t.power = s.power
  now : t.frame.now = s.frame.now
  ext : t.ext = s.ext
  obj : ∀ k, unitKey k = false → t.obj k = s.obj k
  states : ∀ n, (t.table n).state = (s.table n).state

namespace Ends

variable {s t u : State}

theorem num (h : Ends s t) {k : Nat} (hk : unitKey k = false) : t.num k = s.num k := State.num_of_obj (h.obj k hk)

theorem refl (s : State) : Ends s s := ⟨rfl, rfl, rfl, rfl, fun _ _ => rfl, fun _ => rfl⟩

theorem trans (h : Ends s t) (k : Ends t u) : Ends s u :=
  ⟨k.sec.trans h.sec, k.power.trans h.power, k.now.trans h.now, k.ext.trans h.ext,
    fun j hj => (k.obj j hj).trans (h.obj j hj), fun n => (k.states n).trans (h.states n)⟩

theorem ite {c : Prop} [Decidable c] (h : Ends s t) (k : Ends s u) : Ends s (if c then t else u) := ite_keep (P := Ends s) h k

theorem foldl {β : Type} {f : State → β → State} {l : List β} (h : Ends s t) (hf : ∀ t x, Ends s t → Ends s (f t x)) : Ends s (l.foldl f t) :=
  foldl_keep (P := Ends s) hf h

/-- An operation on none of the parts concerned. -/
theorem same (h : Ends s t) (hd : u.dict = t.dict := by exact rfl) (hx : u.sec = t.sec := by exact rfl) (hp : u.power = t.power := by exact rfl)
    (he : u.ext = t.ext := by exact rfl) (hn : u.frame.now = t.frame.now := by exact rfl) (hy : u.peony = t.peony := by exact rfl) : Ends s u :=
  h.trans ⟨hx, hp, hn, he, fun k _ => State.obj_congr hd k, fun n => by rw [State.table_of_peony hy]⟩

theorem setNum {k : Nat} {v : Int} (h : Ends s t) (hk : unitKey k = true) : Ends s (t.setNum k v) :=
  h.trans ⟨rfl, rfl, rfl, rfl, fun _ hj => State.obj_setNum_other t v (ne_of_unitKey hj hk), fun _ => rfl⟩

theorem bump {k n : Nat} (h : Ends s t) (hk : unitKey k = true) : Ends s (t.bump k n) := h.setNum hk

theorem raise {c i v : Nat} {b : Bool} (h : Ends s t) : Ends s (t.raise c i v b) :=
  h.trans ⟨State.raise_sec .., State.raise_power .., congrArg FrameSt.now (State.raise_frame ..), State.raise_ext ..,
    fun _ hj => State.obj_raise t _ _ _ _ (ne_of_unitKey hj (by decide)), fun n => by rw [State.table_of_peony (State.raise_peony ..)]⟩

theorem countRaise {k c i : Nat} {b : Bool} (h : Ends s t) (hk : unitKey k = true) : Ends s (t.countRaise k c i b) := (h.bump hk).raise

theorem modCore {c : Fin 16} {f : Core → Core} (h : Ends s t) : Ends s (t.modCore c f) := h.same
theorem modSched {f : Sched → Sched} (h : Ends s t) : Ends s (t.modSched f) := h.same
theorem modInst {a b : Nat} {f : Inst → Inst} (h : Ends s t) : Ends s (t.modInst a b f) := h.modSched
theorem modSafety {f : Safety → Safety} (h : Ends s t) : Ends s (t.modSafety f) := h.same
theorem modComp {f : FrameCtx → FrameCtx} (h : Ends s t) : Ends s (t.modComp f) := h.same
theorem causeComp {w : CauseWord} {b : Nat} (h : Ends s t) : Ends s (t.causeComp w b) := h.modComp
theorem drawn (h : Ends s t) : Ends s t.drawn := h.same

/-- The end of a task leaves the state of every table (R341). -/
theorem peonyEnd {c p : Nat} (h : Ends s t) : Ends s (t.peonyEnd c p) :=
  h.trans ⟨rfl, rfl, rfl, rfl, fun _ _ => rfl, fun n => by simp [State.peonyEnd, State.table, PTable.endTask]⟩

/-! Ends of tasks (R215, R216, R379). -/

theorem recordExc {c : Fin 16} {code pc task d : Nat} (h : Ends s t) : Ends s (t.recordExc c code pc task d) :=
  ((((h.setNum (unitKey_odCore (by decide))).setNum (unitKey_odCore (by decide))).setNum (unitKey_odCore (by decide))).setNum
    (unitKey_odCore (by decide))).countRaise (unitKey_odCore (by decide))

theorem takeOff {c : Fin 16} (h : Ends s t) : Ends s (t.takeOff c) := by
  unfold State.takeOff
  split
  · exact h
  · exact (h.drawn.setNum (unitKey_taskOd (by decide))).modCore.modSched

theorem lose {i : Inst} {d : InstState} (h : Ends s t) : Ends s (t.lose i d).1 := by
  unfold State.lose
  extract_lets x s1 s2 s3 s4 s5 rest cores s6 s7
  have h3 : Ends s s3 := h.peonyEnd.modInst.bump (unitKey_taskOd (by split <;> decide))
  have h6 : Ends s s6 := h3.modComp.raise.foldl fun _ _ h => h.takeOff
  have h7 : Ends s s7 := h6.foldl fun _ _ h => h.peonyEnd.modInst.bump (unitKey_taskOd (by decide))
  split
  · exact h3.causeComp
  · exact h7

theorem endEvery (h : Ends s t) : Ends s t.endEvery :=
  ((h.foldl fun _ _ h => h.recordExc.takeOff).foldl fun _ _ h => h.modInst).foldl fun _ _ h => h.lose

theorem loseAll (h : Ends s t) : Ends s t.loseAll := h.endEvery.foldl fun _ _ h => h.lose.ite h

/-! Safety states and doubt (R386, R427-R429). -/

theorem showSafety (h : Ends s t) : Ends s t.showSafety := by
  unfold State.showSafety
  extract_lets was now s1 s2
  have h1 : Ends s s1 := h.setNum (by decide)
  have h2 : Ends s s2 := (h1.setNum (by decide)).ite h1
  exact h2.raise.ite h2

theorem enterSafe {b : Nat} (h : Ends s t) : Ends s (t.enterSafe b) := by
  have h1 : Ends s (t.setMask (od 0xA000 0x0A) b) := h.setNum (by decide)
  exact h1.ite h1.modSched.endEvery.raise.showSafety

theorem enterFallback {b : Nat} (h : Ends s t) : Ends s (t.enterFallback b) := by
  unfold State.enterFallback
  extract_lets before s1 s2 s3
  have h1 : Ends s s1 := h.setNum (by decide)
  have h2 : Ends s s2 := h1.raise.ite h1
  have h3 : Ends s s3 := h2.enterSafe.ite h2
  exact h3.showSafety

theorem noSchedule (h : Ends s t) : Ends s t.noSchedule := by
  unfold State.noSchedule
  extract_lets s1 s2
  have h2 : Ends s s2 := h.loseAll.modSched
  exact h2.enterFallback.ite h2

theorem declareDoubt {n : Nat} (h : Ends s t) : Ends s (t.declareDoubt n) := by
  unfold State.declareDoubt
  extract_lets first s1 s2
  have h2 : Ends s s2 := h.modSched.setNum (by decide)
  exact (h2.raise.ite h2).showSafety

theorem clearDoubt {n : Nat} (h : Ends s t) : Ends s (t.clearDoubt n) := by
  unfold State.clearDoubt
  extract_lets s1
  have h1 : Ends s s1 := h.modSched
  exact ((h1.setNum (by decide)).ite h1).showSafety.ite h

/-- Marigold's state is shown as stopped, if it was not (R425). -/
theorem stopMarigold_shows : t.stopMarigold = t ∨ Ends (t.setMarigold 3) t.stopMarigold := by
  unfold State.stopMarigold
  extract_lets s1 s2 s3
  have h2 : Ends (t.setMarigold 3) s2 := (refl _).modSafety.raise
  have h3 : Ends (t.setMarigold 3) s3 := h2.ite h2.causeComp
  split
  · exact .inl rfl
  · exact .inr (h3.enterSafe.ite h3)

end Ends

/-- Marigold's stop is none of the security block. -/
theorem State.stopMarigold_sec (s : State) : s.stopMarigold.sec = s.sec := by
  rcases Ends.stopMarigold_shows (t := s) with h | h
  · rw [h]
  · exact h.sec.trans rfl

end Sys2Proof.Machine
end

