-- ==== Sys2Proof/Proofs/ExternalMemory.lean ====
section
/-! THEOREMS. DRAM, HyperRAM and the flash flush of the event log at work (R345-R359, R399): O48, all but the end of a wipe. -/

namespace Sys2Proof.Machine

variable {s : State} {da n t' : Nat}

/-! DRAM_READ (R346, R350). -/

/-- A read inside the capacity keeps its answer. -/
theorem execDramRead_answers (hc : da + n ≤ s.capacity) (hn : n ≤ 128) (e : Ecc) : exec (.dramRead da n e t') s =
    .next (((s.at t').dramGet da n e).1.modExt (fun x => { x with lastRead := ((s.at t').dramGet da n e).2 })) :=
  next_congr (if_neg (not_or.2 ⟨Nat.not_lt.2 hc, Nat.not_lt.2 hn⟩))

section
variable (hc : da + n ≤ s.capacity) (hn : n ≤ 128)
include hc hn

theorem execDramRead_dead {a : Nat} (hd : s.dramDead da n = some a) (e : Ecc) :
    ∃ t, exec (.dramRead da n e t') s = .next t ∧ t.ext.lastRead = none ∧ t.ext.dram = s.ext.dram := by
  refine ⟨_, execDramRead_answers hc hn e, ?_, ((s.at t').dramGet_keeps da n e).1⟩
  rw [State.dramGet_dead (s := s.at t') hd]
  rfl

variable (hd : s.dramDead da n = none) (hb : ∀ x, da ≤ x → x < da + n → Sparse.get noBit s.ext.bad (x / 8) = false)
include hd hb

theorem execDramRead_clean : ∃ t, exec (.dramRead da n .clean t') s = .next t ∧ t.ext.lastRead = some (Sparse.getN zeroByte s.ext.dram da n) ∧
    t.ext.dram = s.ext.dram ∧ t.dict = s.dict := by
  refine ⟨_, execDramRead_answers hc hn .clean, ?_⟩
  rw [State.dramGet_intact (s := s.at t') hd hb]
  exact ⟨rfl, rfl, rfl⟩

theorem execDramRead_corrected : ∃ t, exec (.dramRead da n .corrected t') s = .next t ∧
    t.ext.lastRead = some (Sparse.getN zeroByte s.ext.dram da n) ∧ t.ext.dram = s.ext.dram ∧
    t.num (od (0x7880 + s.ctrlOf da) 1) = Od.counter (od (0x7880 + s.ctrlOf da) 1) (s.num (od (0x7880 + s.ctrlOf da) 1) + 1) := by
  refine ⟨_, execDramRead_answers hc hn .corrected, ?_⟩
  rw [State.dramGet_intact (s := s.at t') hd hb]
  exact ⟨rfl, rfl, State.num_bump ((s.at t').touchRow da) _ 1⟩

theorem execDramRead_uncorrectable : ∃ t, exec (.dramRead da n .uncorrectable t') s = .next t ∧ t.ext.lastRead = none ∧
    t.ext.dram = s.ext.dram ∧
    t.num (od (0x7880 + s.ctrlOf da) 2) = Od.counter (od (0x7880 + s.ctrlOf da) 2) (s.num (od (0x7880 + s.ctrlOf da) 2) + 1) ∧
    t.num (od (0x7880 + s.ctrlOf da) 3) = da := by
  refine ⟨_, execDramRead_answers hc hn .uncorrectable, ?_⟩
  have hk := ((s.at t').dramGet_keeps da n .uncorrectable).1
  rw [State.dramGet_intact (s := s.at t') hd hb] at hk ⊢
  have h := (((s.at t').touchRow da).modExt (fun x => { x with bad := Sparse.put noBit x.bad (da / 8) true })).dramUe_counts da
  have hv : (((s.at t').touchRow da).modExt (fun x => { x with bad := Sparse.put noBit x.bad (da / 8) true })).ctrlOf da = s.ctrlOf da :=
    State.ctrlOf_congr rfl da
  rw [hv] at h
  generalize (((s.at t').touchRow da).modExt (fun x => { x with bad := Sparse.put noBit x.bad (da / 8) true })).dramUe da = u at hk h
  exact ⟨rfl, hk, h⟩

end

/-! PATROL_SCRUB (R352). -/

/-- The number of an element of a list names it. -/
theorem getD_takeWhile_ne {l : List Nat} {c : Nat} (h : c ∈ l) : l.getD (l.takeWhile (· != c)).length 0 = c := by
  induction l with
  | nil => cases h
  | cons b l ih =>
    by_cases hb : b = c
    · simp [hb]
    · simpa [hb] using ih ((List.mem_cons.1 h).resolve_left (Ne.symm hb))

theorem length_takeWhile_ne {l : List Nat} {c : Nat} (h : c ∈ l) : (l.takeWhile (· != c)).length < l.length := by
  induction l with
  | nil => cases h
  | cons b l ih =>
    by_cases hb : b = c
    · simp [hb]
    · simpa [hb] using ih ((List.mem_cons.1 h).resolve_left (Ne.symm hb))

/-- The device address of a channel line of a controller. -/
def State.scrubAt (s : State) (c line : Nat) : Nat :=
  256 * (line / 4 * Nat.max 1 s.controllers.length + (s.controllers.takeWhile (· != c)).length) + line % 4 * 64

/-- A line of a controller lies in it. -/
theorem State.ctrlOf_scrubAt {c : Nat} (h : c ∈ s.controllers) (line i : Nat) (hi : i < 64) : s.ctrlOf (s.scrubAt c line + i) = c := by
  have hk := length_takeWhile_ne h
  have hm : Nat.max 1 s.controllers.length = s.controllers.length := Nat.max_eq_right (by omega)
  have hd : (s.scrubAt c line + i) / 256 = (s.controllers.takeWhile (· != c)).length + line / 4 * s.controllers.length := by
    rw [State.scrubAt, hm]
    omega
  rw [State.ctrlOf, hd, hm, Nat.add_mul_mod_self_right, Nat.mod_eq_of_lt hk, getD_takeWhile_ne h]

section
variable {ctrl : Fin 8} {line : Nat} (hc : ctrl.val ∈ s.controllers)
include hc

theorem execPatrolScrub_reads (e : Ecc) : exec (.patrolScrub ctrl line e t') s = .next (((s.at t').dramGet (s.scrubAt ctrl.val line) 64 e).1.modExt
    (fun x => { x with scrubbed := Sparse.put (fun _ => 0) x.scrubbed ctrl.val (line + 1) })) :=
  next_congr (if_neg (not_not.2 hc))

/-- The scrub of a line of a sound controller counts what it finds (R350, R352). -/
theorem State.scrub_counts (hf : bitAt s.ext.failed ctrl.val = false) (hb : ∀ a, Sparse.get noBit s.ext.bad a = false) (e : Ecc) :
    (e = .corrected → (s.dramGet (s.scrubAt ctrl.val line) 64 e).1.num (od (0x7880 + ctrl.val) 1) =
      Od.counter (od (0x7880 + ctrl.val) 1) (s.num (od (0x7880 + ctrl.val) 1) + 1)) ∧
    (e = .uncorrectable → (s.dramGet (s.scrubAt ctrl.val line) 64 e).1.num (od (0x7880 + ctrl.val) 2) =
      Od.counter (od (0x7880 + ctrl.val) 2) (s.num (od (0x7880 + ctrl.val) 2) + 1)) := by
  have h0 : s.ctrlOf (s.scrubAt ctrl.val line) = ctrl.val := State.ctrlOf_scrubAt hc line 0 (by decide)
  have hd : s.dramDead (s.scrubAt ctrl.val line) 64 = none := State.dramDead_eq_none.2 fun x h1 h2 => by
    have := State.ctrlOf_scrubAt hc line (x - s.scrubAt ctrl.val line) (by omega)
    rw [Nat.add_sub_cancel' h1] at this
    rw [this, hf]
  rw [State.dramGet_intact hd fun x _ _ => hb (x / 8), h0]
  refine ⟨?_, ?_⟩
  · rintro rfl
    exact State.num_bump (s.touchRow (s.scrubAt ctrl.val line)) _ 1
  · rintro rfl
    have h := (((s.touchRow (s.scrubAt ctrl.val line)).modExt
      (fun x => { x with bad := Sparse.put noBit x.bad (s.scrubAt ctrl.val line / 8) true })).dramUe_counts (s.scrubAt ctrl.val line)).1
    have h1 : ((s.touchRow (s.scrubAt ctrl.val line)).modExt
      (fun x => { x with bad := Sparse.put noBit x.bad (s.scrubAt ctrl.val line / 8) true })).ctrlOf (s.scrubAt ctrl.val line) = ctrl.val := h0
    rw [h1] at h
    exact h

end

/-! DRAM_CONTROLLER_FAIL (R353, R427). -/

/-- A controller that fails is noted, stored and shown. -/
theorem State.failController_fails {c : Nat} (h : bitAt s.ext.failed c = false) : (s.failController c).ext.failed = setBit s.ext.failed c ∧
    (s.failController c).num (od 0x7800 3) = setBit (s.num (od 0x7800 3)) c ∧ (s.failController c).num (od (0x7880 + c) 4) = 1 ∧
    (s.failController c).log.srv = true ∧
    (s.frame.run = true → (s.failController c).safety.ctrlFailed = true ∧
      (s.failController c).num (od 0xA000 2) = (s.failController c).safetyOf) := by
  unfold State.failController
  rw [h, if_neg Bool.false_ne_true]
  extract_lets u v w x
  have h4 : od (0x7880 + c) 4 ≠ od 0x7800 3 ∧ od (0x7880 + c) 4 ≠ od 0x7900 5 ∧ od (0x7880 + c) 4 ≠ od 0xA000 2 ∧
      od (0x7880 + c) 4 ≠ od 0xE000 1 := by
    unfold od
    omega
  have hxf : x.ext.failed = setBit s.ext.failed c := congrArg Ext.failed (State.raise_ext w ..)
  have hvn : v.num (od 0x7800 3) = s.num (od 0x7800 3) := State.num_setNum_other u 1 (by unfold od; omega)
  have hx3 : x.num (od 0x7800 3) = setBit (s.num (od 0x7800 3)) c := by
    refine (State.num_raise w _ _ _ _ (by decide)).trans ?_
    rw [State.num, State.int, State.obj_store, hvn]
    rfl
  have hx4 : x.num (od (0x7880 + c) 4) = 1 :=
    (State.num_raise w _ _ _ _ h4.2.1).trans ((State.num_of_obj (State.obj_store_other v _ h4.1)).trans (State.num_setNum ..))
  have hxs : x.log.srv = true := State.raise_srv w _ _ _ (Bool.or_true _)
  have hrun : x.frame.run = s.frame.run := congrArg FrameSt.run (State.raise_frame w ..)
  split
  case isTrue hr =>
    let y := x.modSafety (fun z => { z with ctrlFailed := true })
    have hg : Guarded y y.showSafety := (Guarded.refl y).showSafety
    refine ⟨(congrArg Ext.failed y.showSafety_ext).trans hxf, ?_, ?_, hg.srv hxs, fun _ => ⟨by rw [hg.safety]; rfl, y.showSafety_shows⟩⟩
    · exact (State.num_of_obj (State.obj_showSafety (by decide) (by decide) (by decide))).trans hx3
    · exact (State.num_of_obj (State.obj_showSafety h4.2.2.1 h4.2.2.2 h4.2.1)).trans hx4
  case isFalse hr => exact ⟨hxf, hx3, hx4, hxs, fun h => absurd (hrun.trans h) hr⟩

/-! HyperRAM (R355, R356). -/

/-- Objects that the failure of a HyperRAM device changes. -/
def hyperKeys : List Nat := [od 0x7890 1, od 0x7900 5, od 0xA030 9]

theorem bitAt_setBit_self (v i : Nat) : bitAt (setBit v i) i = true := by simp [bitAt_setBit]

theorem bitAt_setBit_other (v : Nat) {i j : Nat} (h : i ≠ j) : bitAt (setBit v i) j = bitAt v j := by simp [bitAt_setBit, h]

theorem State.hyperDead_store (s : State) (v d : Nat) : (s.store (od 0x7890 1) (.num v)).hyperDead d = bitAt v d := by
  rw [State.hyperDead, State.num, State.int, State.obj_store]
  rfl

theorem State.hyperDead_of_obj {s t : State} (h : t.obj (od 0x7890 1) = s.obj (od 0x7890 1)) (d : Nat) : t.hyperDead d = s.hyperDead d := by
  rw [State.hyperDead, State.num_of_obj h, ← State.hyperDead]

/-- Device 0 fails while device 1 works: Marigold goes on with the one. -/
theorem State.failHyper_first (h0 : s.hyperDead 0 = false) (h1 : s.hyperDead 1 = false) : (s.failHyper 0).ext = s.ext ∧
    (∀ k ∉ hyperKeys, (s.failHyper 0).obj k = s.obj k) ∧ (s.failHyper 0).hyperDead 0 = true ∧ (s.failHyper 0).hyperDead 1 = false ∧
    (s.failHyper 0).log.srv = true := by
  let v := s.store (od 0x7890 1) (.num (setBit (s.num (od 0x7890 1)) 0))
  let w := v.raise 0x7805 0 0 true
  have hobj : ∀ k ∉ hyperKeys, w.obj k = s.obj k := fun k hk => by
    simp only [hyperKeys, List.mem_cons, List.not_mem_nil, or_false, not_or] at hk
    obtain ⟨hk1, hk5, -⟩ := hk
    exact (State.obj_raise v _ _ _ _ hk5).trans (State.obj_store_other s _ hk1)
  have hdead : ∀ d, w.hyperDead d = bitAt (setBit (s.num (od 0x7890 1)) 0) d := fun d =>
    (State.hyperDead_of_obj (State.obj_raise v _ _ _ _ (by decide)) d).trans (s.hyperDead_store _ d)
  have hw0 : w.hyperDead 0 = true := (hdead 0).trans (bitAt_setBit_self _ 0)
  have hw1 : w.hyperDead 1 = false := (hdead 1).trans ((bitAt_setBit_other _ (by decide)).trans h1)
  have he : w.ext = s.ext := State.raise_ext v ..
  have hs : w.log.srv = true := State.raise_srv v _ _ _ (Bool.or_true _)
  have e : s.failHyper 0 = if w.num (od 0xA030 9) = 0 then w.setMarigold 2 else w := by
    unfold State.failHyper
    rw [h0, if_neg Bool.false_ne_true]
    exact if_neg fun h => by rw [hw1] at h; exact absurd h.2 (by decide)
  rw [e]
  split
  case isFalse => exact ⟨he, hobj, hw0, hw1, hs⟩
  case isTrue =>
    have hd : ∀ d, (w.setMarigold 2).hyperDead d = w.hyperDead d := State.hyperDead_of_obj (State.obj_setNum_other w _ (by decide))
    refine ⟨he, fun k hk => ?_, (hd 0).trans hw0, (hd 1).trans hw1, hs⟩
    refine (State.obj_setNum_other w _ ?_).trans (hobj k hk)
    rintro rfl
    exact hk (by simp [hyperKeys])

/-- An uncorrectable word of device 0 is counted; device 1 goes on. -/
theorem State.hyperUe_first (h0 : s.hyperDead 0 = false) (h1 : s.hyperDead 1 = false) :
    (∃ l, (s.hyperUe 0).ext = { s.ext with hyperUeAt := l }) ∧ (s.hyperUe 0).hyperDead 1 = false ∧
    (s.hyperUe 0).num (od 0x7890 3) = Od.counter (od 0x7890 3) (s.num (od 0x7890 3) + 1) := by
  unfold State.hyperUe
  extract_lets now u v
  have hd : ∀ d, v.hyperDead d = s.hyperDead d := State.hyperDead_of_obj (State.obj_bump_other s 1 (by decide))
  have hn : v.num (od 0x7890 3) = Od.counter (od 0x7890 3) (s.num (od 0x7890 3) + 1) := State.num_bump s _ 1
  have hv : ∃ l, v.ext = { s.ext with hyperUeAt := l } := ⟨_, rfl⟩
  split
  case isFalse => exact ⟨hv, (hd 1).trans h1, hn⟩
  case isTrue =>
    obtain ⟨fe, fo, -, f1, -⟩ := State.failHyper_first ((hd 0).trans h0) ((hd 1).trans h1)
    exact ⟨by rw [fe]; exact hv, f1, (State.num_of_obj (fo _ (by decide))).trans hn⟩

/-- A device without a bad word answers a clean read. -/
theorem State.hyperOne_clean {d a : Nat} (hb : ∀ x, Sparse.get noBit (if d = 0 then s.ext.hyperBad0 else s.ext.hyperBad1) x = false) :
    s.hyperOne d a n .clean = (s, true) := by
  unfold State.hyperOne
  extract_lets bad words
  have hw : words.any (fun w => Sparse.get noBit bad w) = false := List.any_eq_false.2 fun x _ => by
    rw [show Sparse.get noBit bad x = false from hb x]
    decide
  rw [if_neg (by simp [hw])]
  rfl

/-- A read with an uncorrectable word spoils it and has no answer. -/
theorem State.hyperOne_uncorrectable (s : State) (d a n : Nat) : s.hyperOne d a n .uncorrectable =
    ((s.modExt (fun x => if d = 0 then { x with hyperBad0 := Sparse.put noBit x.hyperBad0 (a / 8) true }
      else { x with hyperBad1 := Sparse.put noBit x.hyperBad1 (a / 8) true })).hyperUe d, false) :=
  if_pos (.inr rfl)

section
variable {a : Nat} (ha : a + n ≤ 14680064)
include ha

theorem execHyperramRead_first (h0 : s.hyperDead 0 = false) (hb : ∀ x, Sparse.get noBit s.ext.hyperBad0 x = false) (e1 : Ecc) :
    ∃ t, exec (.hyperramRead a n .clean e1 t') s = .next t ∧ t.ext.lastRead = some (Sparse.getN zeroByte s.ext.hyper a n) ∧ t.dict = s.dict := by
  have h0' : (s.at t').hyperDead 0 = false := h0
  have e : exec (.hyperramRead a n .clean e1 t') s =
      .next ((s.at t').modExt (fun e => { e with lastRead := some (Sparse.getN zeroByte e.hyper a n) })) := by
    refine next_congr ((if_neg (Nat.not_lt.2 ha)).trans ?_)
    rw [h0', if_neg Bool.false_ne_true, State.hyperOne_clean (s := s.at t') (d := 0) hb]
    rfl
  exact ⟨_, e, rfl, rfl⟩

theorem execHyperramRead_second (h0 : s.hyperDead 0 = false) (h1 : s.hyperDead 1 = false)
    (hb : ∀ x, Sparse.get noBit s.ext.hyperBad1 x = false) :
    ∃ t, exec (.hyperramRead a n .uncorrectable .clean t') s = .next t ∧ t.ext.lastRead = some (Sparse.getN zeroByte s.ext.hyper a n) ∧
      t.num (od 0x7890 3) = Od.counter (od 0x7890 3) (s.num (od 0x7890 3) + 1) := by
  let v := (s.at t').modExt (fun x => { x with hyperBad0 := Sparse.put noBit x.hyperBad0 (a / 8) true })
  obtain ⟨⟨l, he⟩, hd1, hn⟩ := State.hyperUe_first (s := v) h0 h1
  have h0' : (s.at t').hyperDead 0 = false := h0
  have e : exec (.hyperramRead a n .uncorrectable .clean t') s =
      .next ((v.hyperUe 0).modExt (fun e => { e with lastRead := some (Sparse.getN zeroByte e.hyper a n) })) := by
    refine next_congr ((if_neg (Nat.not_lt.2 ha)).trans ?_)
    rw [h0', if_neg Bool.false_ne_true, State.hyperOne_uncorrectable]
    dsimp only
    rw [if_neg Bool.false_ne_true]
    have hv : ((s.at t').modExt (fun x => if (0 : Nat) = 0 then { x with hyperBad0 := Sparse.put noBit x.hyperBad0 (a / 8) true }
      else { x with hyperBad1 := Sparse.put noBit x.hyperBad1 (a / 8) true })) = v := rfl
    rw [hv, hd1, if_neg Bool.false_ne_true, State.hyperOne_clean (s := v.hyperUe 0) (d := 1) (by rw [he]; exact hb)]
    rfl
  refine ⟨_, e, ?_, hn⟩
  show some (Sparse.getN zeroByte (v.hyperUe 0).ext.hyper a n) = _
  rw [he]
  rfl

/-- With an uncorrectable word in both devices there is no answer, whatever devices still work. -/
theorem execHyperramRead_none : ∃ t, exec (.hyperramRead a n .uncorrectable .uncorrectable t') s = .next t ∧ t.ext.lastRead = none := by
  have e : ∃ v : State, exec (.hyperramRead a n .uncorrectable .uncorrectable t') s = .next (v.modExt (fun e => { e with lastRead := none })) := by
    have hone : ∀ (u : State) (d : Nat), ∃ v, (if u.hyperDead d then (u, false) else u.hyperOne d a n .uncorrectable) = (v, false) := by
      intro u d
      rw [State.hyperOne_uncorrectable]
      split
      · exact ⟨_, rfl⟩
      · exact ⟨_, rfl⟩
    obtain ⟨v, hv⟩ := hone (s.at t') 0
    obtain ⟨w, hw⟩ := hone v 1
    refine ⟨w, next_congr ((if_neg (Nat.not_lt.2 ha)).trans ?_)⟩
    rw [hv]
    dsimp only
    rw [if_neg Bool.false_ne_true, hw]
    rfl
  obtain ⟨v, e⟩ := e
  exact ⟨_, e, rfl⟩

end

section
variable {a : Nat} {data : Bytes} (ha : a + data.length ≤ 14680064) (h1 : s.hyperDead 1 = false)
include ha h1

theorem execHyperramWrite_both : ∃ t, exec (.hyperramWrite a data true true) s = .next t ∧
    t.ext.hyper = Sparse.putN zeroByte s.ext.hyper a data ∧ t.dict = s.dict := by
  have e : exec (.hyperramWrite a data true true) s = .next (s.hyperStore a data) := next_congr (if_neg (Nat.not_lt.2 ha))
  rw [State.hyperStore, h1, if_neg (by simp)] at e
  exact ⟨_, e, rfl, rfl⟩

theorem execHyperramWrite_second (h0 : s.hyperDead 0 = false) : ∃ t, exec (.hyperramWrite a data false true) s = .next t ∧
    t.ext.hyper = Sparse.putN zeroByte s.ext.hyper a data ∧ t.hyperDead 0 = true ∧ t.log.srv = true := by
  obtain ⟨fe, -, f0, f1, fs⟩ := State.failHyper_first h0 h1
  have e : exec (.hyperramWrite a data false true) s = .next ((s.failHyper 0).hyperStore a data) := next_congr (if_neg (Nat.not_lt.2 ha))
  rw [State.hyperStore, f1, if_neg (by simp)] at e
  refine ⟨_, e, ?_, f0, fs⟩
  show Sparse.putN zeroByte (s.failHyper 0).ext.hyper a data = _
  rw [fe]

end

/-! EVENT_LOG_FLUSH (R357, R359). -/

/-- A run of steps that each hand on what they take. -/
theorem foldl_collects {σ α : Type} {P : σ → Prop} {f : σ × List α → α × Nat → σ × List α} {l : List (α × Nat)}
    (hf : ∀ u k, ∀ y ∈ l, P u → ∃ v, P v ∧ f (u, k) y = (v, k ++ [y.1])) {u : σ} {k : List α} (h : P u) :
    ∃ v, P v ∧ l.foldl f (u, k) = (v, k ++ l.map Prod.fst) := by
  induction l generalizing u k with
  | nil => exact ⟨u, h, by simp⟩
  | cons y l ih =>
    obtain ⟨v, hv, e⟩ := hf u k y List.mem_cons_self h
    obtain ⟨w, hw, e'⟩ := ih (fun u k y hy => hf u k y (List.mem_cons_of_mem _ hy)) hv (k := k ++ [y.1])
    exact ⟨w, hw, by rw [List.foldl_cons, e, e', List.map_cons, List.append_assoc]; rfl⟩

/-- What records in a sound staging buffer leave: dictionary, log and failed controllers, and no bad word. -/
structure State.Stages (s t : State) : Prop where
  dict : t.dict = s.dict
  log : t.log = s.log
  failed : t.ext.failed = s.ext.failed
  bad : ∀ x, Sparse.get noBit t.ext.bad x = false

theorem EventRec.bytes_length (r : EventRec) : r.bytes.length = 32 := by
  simp only [EventRec.bytes, time80, List.length_append, natLe_length, zeros, List.length_replicate]

theorem State.dramDead_congr {s t : State} (hd : t.dict = s.dict) (hf : t.ext.failed = s.ext.failed) (a m : Nat) :
    t.dramDead a m = s.dramDead a m := by
  simp only [State.dramDead, hf, State.ctrlOf_congr hd]

/-- Half a line is written at once. -/
theorem State.dramPut_half (s : State) {a : Nat} (ha : a % 32 = 0) {d : Bytes} (hd : d.length = 32) :
    s.dramPut a d = (s.touchRow a).putLine a d (a / 64) := by
  rw [State.dramPut_eq, hd, if_neg (by decide), show (a + 32 - 1) / 64 - a / 64 + 1 = 1 by omega]
  rfl

/-- A line that is written makes no word bad. -/
theorem State.Stages.putLine {u : State} (h : s.Stages u) {a l : Nat} {d : Bytes} (hl : a / 256 = Nat.max a (l * 64) / 256)
    (hc : bitAt s.ext.failed (s.ctrlOf a) = false) : s.Stages (u.putLine a d l) := by
  unfold State.putLine
  extract_lets lo hi
  rw [h.failed, State.ctrlOf_congr h.dict, ← s.ctrlOf_block hl, hc, if_neg Bool.false_ne_true]
  refine ⟨h.dict, h.log, h.failed, fun x => ?_⟩
  have hp : ∀ m, (∀ x, Sparse.get noBit m x = false) → ∀ i x, Sparse.get noBit (Sparse.put noBit m i false) x = false := fun m hm i x => by
    rw [Sparse.get_put, hm x, ite_self]
  exact ite_keep (P := fun m => Sparse.get noBit m x = false)
    (foldl_keep (P := fun m => ∀ x, Sparse.get noBit m x = false) (fun m i hm => hp m hm _) h.bad x) (h.bad x)

theorem State.Stages.touchRow {u : State} (h : s.Stages u) (a : Nat) : s.Stages (u.touchRow a) := ⟨h.dict, h.log, h.failed, h.bad⟩

/-- A record staged in sound words can be read again. -/
theorem State.stageRecord_reads {u : State} (h : s.Stages u) {i : Nat} (hd : s.dramDead (logStagingAt i) 32 = none) (r : EventRec) :
    ∃ v, s.Stages v ∧ u.stageRecord i r = (v, true) := by
  have ha : logStagingAt i % 32 = 0 := by
    unfold logStagingAt
    omega
  unfold State.stageRecord
  generalize logStagingAt i = a at hd ha
  have hw : s.Stages (u.dramPut a r.bytes) := by
    rw [u.dramPut_half ha r.bytes_length]
    have hm : Nat.max a (a / 64 * 64) = a := Nat.max_eq_left (Nat.div_mul_le_self ..)
    exact (h.touchRow a).putLine (by rw [hm]) (State.dramDead_eq_none.1 hd a le_rfl (by omega))
  refine ⟨_, hw.touchRow a, ?_⟩
  rw [State.dramGet_intact ((State.dramDead_congr hw.dict hw.failed ..).trans hd) fun x _ _ => hw.bad _]

/-- A flush of a sound staging buffer takes every staged record into the ring. -/
theorem State.flushLog_takes (hd : ∀ i < s.log.staged.length, s.dramDead (logStagingAt i) 32 = none)
    (hb : ∀ x, Sparse.get noBit s.ext.bad x = false) :
    s.flushLog.log.ring = (s.log.keepAll s.log.staged).ring ∧ s.flushLog.log.staged = [] ∧ s.flushLog.dict = s.dict := by
  have hz : (s.log.staged.zip (List.range s.log.staged.length)).map Prod.fst = s.log.staged := by
    rw [List.map_fst_zip]
    simp
  unfold State.flushLog
  extract_lets rs
  obtain ⟨v, hv, e⟩ := foldl_collects (P := s.Stages) (l := rs.zip (List.range rs.length)) (u := s) (k := [])
    (f := fun (x : State × List EventRec) y => match x.1.stageRecord y.2 y.1 with
      | (s, true) => (s, x.2 ++ [y.1])
      | (s, false) => (s, x.2))
    (fun u k y hy hu => by
      have hi : y.2 < rs.length := List.mem_range.1 (List.of_mem_zip hy).2
      obtain ⟨v, hv, e⟩ := State.stageRecord_reads hu (hd y.2 hi) y.1
      exact ⟨v, hv, by dsimp only; rw [e]⟩) ⟨rfl, rfl, rfl, hb⟩
  rw [List.nil_append, hz] at e
  split
  rename_i u kept e'
  obtain ⟨rfl, rfl⟩ : u = v ∧ kept = s.log.staged := Prod.mk.inj (e'.symm.trans e)
  refine ⟨?_, ?_, hv.dict⟩
  · show (u.log.keepAll s.log.staged).ring = _
    rw [hv.log]
  · show u.log.staged.drop rs.length = []
    rw [hv.log, List.drop_length]

/-- A ring that does not overflow keeps all its records. -/
theorem EvLog.keepAll_ring {l : EvLog} {rs : List EventRec} (h : l.ring.length + rs.length ≤ 262144) : (l.keepAll rs).ring = l.ring ++ rs := by
  have h0 : (l.ring ++ rs).length - 262144 = 0 := by
    rw [List.length_append]
    omega
  show (l.ring ++ rs).drop (2048 * ceilDiv ((l.ring ++ rs).length - 262144) 2048) = _
  rw [h0]
  rfl

/-- The log's ring is none of what an event changes. -/
theorem State.raise_ring (s : State) (c i v : Nat) (b : Bool) : (s.raise c i v b).log.ring = s.log.ring := by
  unfold State.raise
  extract_lets s1 s2
  split
  · rfl
  split
  · rfl
  split
  · rfl
  · rfl

section
variable (hl : s.log.ring.length + s.log.staged.length ≤ 262144) (hd : ∀ i < s.log.staged.length, s.dramDead (logStagingAt i) 32 = none)
  (hb : ∀ x, Sparse.get noBit s.ext.bad x = false)
include hl hd hb

theorem execEventLogFlush_takes : ∃ t, exec (.eventLogFlush true) s = .next t ∧ t.log.ring = s.log.ring ++ s.log.staged ∧ t.log.staged = [] ∧
    t.dict = s.dict := by
  obtain ⟨hring, hstaged, hdict⟩ := State.flushLog_takes hd hb
  exact ⟨s.flushLog, next_congr (if_pos rfl), hring.trans (EvLog.keepAll_ring hl), hstaged, hdict⟩

theorem execEventLogFlush_retires : ∃ t, exec (.eventLogFlush false) s = .next t ∧ t.log.ring = s.log.ring ++ s.log.staged ∧
    t.num (od 0x7900 4) = Od.counter (od 0x7900 4) (s.num (od 0x7900 4) + 1) := by
  obtain ⟨hring, hstaged, hdict⟩ := State.flushLog_takes hd hb
  refine ⟨s.flushLog.countRaise (od 0x7900 4) 0x7807, next_congr (if_neg Bool.false_ne_true),
    (State.raise_ring ..).trans (hring.trans (EvLog.keepAll_ring hl)), ?_⟩
  rw [State.num_countRaise _ _ _ _ (by decide), State.num_congr hdict]

end

end Sys2Proof.Machine
end

