-- ==== Sys2Proof/Proofs/WipeEnd.lean ====
section
/-! THEOREMS. The end of a wipe (R248, R525-R527), and with it the external memories (R344-R359, R399): O48. -/

namespace Sys2Proof.Machine

variable {s t : State}

/-! The state that R524 gives depends on the base state and on who is at work. -/

theorem State.holdsLevel_eq (s : State) (l : Level) : s.holdsLevel l = s.people.any (fun x => x.level == l) := by
  rw [State.holdsLevel, State.people, List.any_map]
  rfl

theorem State.lifeWanted_congr (hb : t.sec.base = s.sec.base) (hp : t.people = s.people) (hd : t.doip = s.doip) : t.lifeWanted = s.lifeWanted := by
  simp only [State.lifeWanted, State.holdsLevel_eq, hb, hp, hd]

/-- With the effective state as it should be, nothing falls due (R526). -/
theorem State.syncLife_settled (hw : s.sec.wiping = false) (h : s.sec.effective = s.lifeWanted) :
    s.syncLife = s.modSec (fun x => { x with held := false }) := by
  rw [State.syncLife, hw, if_neg Bool.false_ne_true, if_pos h.symm]

/-! What a wipe and a change of the base state concern of the security block: the base state, the wipe and what it is for. -/

/-- The base state, whether a wipe runs, and the base state it is for. -/
def Sec.turn (x : Sec) : Nat × Bool × Option Nat := (x.base, x.wiping, x.wipeTarget)

/-- Showing a table's versions is none of it. -/
theorem State.showVers_sec (s : State) (n : Nat) : (s.showVers n).sec = s.sec := by
  refine foldl_keep (P := fun v : State => v.sec = s.sec) (fun v i h => ?_) rfl
  exact h

theorem State.emptyTables_sec (s : State) : s.emptyTables.sec = s.sec := by
  refine foldl_keep (P := fun v : State => v.sec = s.sec) (fun v n h => ?_) rfl
  exact (State.showVers_sec ..).trans h

theorem State.eraseDram_sec (s : State) : s.eraseDram.sec = s.sec := by
  rw [State.eraseDram, State.modNet_sec, State.emptyTables_sec, State.modExt_sec]

theorem State.dropPrograms_sec (s : State) : s.dropPrograms.sec = s.sec := by
  rw [State.dropPrograms, State.setOct_sec, State.setNum_sec]
  refine foldl_keep (P := fun v : State => v.sec = s.sec) (fun v i h => ?_) rfl
  exact h

theorem State.eraseOemKeys_sec (s : State) : s.eraseOemKeys.sec = s.sec := rfl

/-- RETURNED's erasures are none of it (R525). -/
theorem State.eraseReturned_turn (s : State) : s.eraseReturned.sec.turn = s.sec.turn := by
  have h1 : s.noSchedule.sec = s.sec := (Ends.refl s).noSchedule.sec
  rw [State.eraseReturned, State.showHeap, State.setNum_sec, State.dropPrograms_sec, State.eraseDram_sec, State.eraseOemKeys_sec, ← h1]
  rfl

/-- Nor are DECOMMISSIONED's (R525). -/
theorem State.eraseAll_turn (s : State) : s.eraseAll.sec.turn = s.sec.turn := by
  let u := s.eraseReturned.eraseParts.eraseStored.eraseHeads.eraseSrv.openLevels.modSafety (fun x => { x with lineSec := true })
  have h1 : s.eraseAll.sec = u.stopMarigold.showHeap.sec := (Ends.refl u.stopMarigold.showHeap).enterSafe.sec
  have h2 : u.stopMarigold.showHeap.sec = u.sec := (State.setNum_sec ..).trans u.stopMarigold_sec
  rw [h1, h2]
  exact s.eraseReturned_turn

/-- A new base state is all that its transition changes of these (R525). -/
theorem State.setBase_turn (s : State) (b : Nat) : (s.setBase b).sec.turn = (b, s.sec.wiping, s.sec.wipeTarget) := by
  unfold State.setBase
  extract_lets u
  split
  · rfl
  · exact u.eraseReturned_turn
  · exact u.eraseAll_turn
  · rfl

/-! The transition (R526). -/

theorem State.enterLife_enters (s : State) (v : Nat) : (s.enterLife v).sec.turn = s.sec.turn ∧ (s.enterLife v).sec.effective = v ∧
    (s.enterLife v).people = s.people ∧ (s.enterLife v).doip = s.doip := by
  unfold State.enterLife
  extract_lets again u w x
  exact ⟨(congrArg Sec.turn (State.raise_sec x ..) :), (congrArg Sec.effective (State.raise_sec x ..) :), State.raise_people .., State.raise_doip ..⟩

/-- With a new base state the effective state is the one that R524 gives, whatever the gate. -/
theorem State.lifeAfter_follows (s : State) (b : Nat) : (s.lifeAfter (some b)).sec.turn = s.sec.turn ∧
    (s.lifeAfter (some b)).sec.effective = s.lifeWanted ∧ (s.lifeAfter (some b)).people = s.people ∧
    (s.lifeAfter (some b)).doip = s.doip := by
  unfold State.lifeAfter
  split
  case isTrue h =>
    rcases h with h | h
    · exact ⟨rfl, h.symm, rfl, rfl⟩
    · exact absurd h.1 Bool.false_ne_true
  case isFalse => exact s.enterLife_enters _

/-- The debug port's opening is none of this. -/
theorem State.openDebug_leaves (s : State) : s.openDebug.sec = { s.sec with debugOpen := s.openDebug.sec.debugOpen } ∧
    s.openDebug.people = s.people ∧ s.openDebug.doip = s.doip ∧ s.openDebug.cores = s.cores := by
  unfold State.openDebug
  split
  · exact ⟨rfl, rfl, rfl, rfl⟩
  · exact ⟨by rw [State.raise_sec]; rfl, State.raise_people .., State.raise_doip .., State.raise_cores ..⟩

/-- No core reports the wipe any more (R248). -/
theorem State.wipeOver_leaves (s : State) : s.wipeOver.sec = { s.sec with wiping := false, wipeTarget := none } ∧ s.wipeOver.people = s.people ∧
    s.wipeOver.doip = s.doip ∧ ∀ c : Fin 16, (s.wipeOver.cores[c]).pad.wiped = false := by
  refine ⟨?_, State.raise_people .., State.raise_doip .., fun c => ?_⟩
  · show { (s.raise 0x7008).sec with wiping := false, wipeTarget := none } = _
    rw [State.raise_sec]
  · simp [State.wipeOver, State.coresOver, Core.wipeOver]

/-! WIPE_COMPLETE. -/

theorem execWipeComplete_done (hw : s.sec.wiping = true) : exec .wipeComplete s = .next s.wipeDone := next_congr (if_pos hw)

theorem execWipeComplete_stays (hw : s.sec.wiping = true) (ht : s.sec.wipeTarget = none) (hl : s.lifeWanted = s.sec.effective) :
    ∃ t, exec .wipeComplete s = .next t ∧ t.sec.wiping = false ∧ t.sec.held = false ∧ t.sec.base = s.sec.base ∧
      t.sec.effective = s.sec.effective ∧ ∀ c : Fin 16, (t.cores[c]).pad.wiped = false := by
  obtain ⟨hx, hp, hd, hc⟩ := s.wipeOver_leaves
  obtain ⟨kx, kp, kd, kc⟩ := s.wipeOver.openDebug_leaves
  have hlife : s.wipeOver.lifeWanted = s.wipeOver.sec.effective := by
    rw [State.lifeWanted_congr (congrArg Sec.base hx :) hp hd, hl, hx]
  have hsync : s.wipeOver.openDebug.syncLife = s.wipeOver.openDebug.modSec (fun x => { x with held := false }) := by
    refine State.syncLife_settled (by rw [kx, hx]) ?_
    rw [State.lifeWanted_congr (congrArg Sec.base kx :) kp kd, hlife, kx]
  have e : s.wipeDone = s.wipeOver.openDebug.modSec (fun x => { x with held := false }) := by
    rw [State.wipeDone, ht, State.baseAfter, State.lifeAfter, if_pos (.inl hlife), hsync]
  refine ⟨_, (execWipeComplete_done hw).trans (congrArg Host.Outcome.next e), ?_, rfl, ?_, ?_, fun c => ?_⟩
  · show s.wipeOver.openDebug.sec.wiping = false
    rw [kx, hx]
  · show s.wipeOver.openDebug.sec.base = _
    rw [kx, hx]
  · show s.wipeOver.openDebug.sec.effective = _
    rw [kx, hx]
  · show (s.wipeOver.openDebug.cores[c]).pad.wiped = false
    rw [State.pad_of_cores kc]
    exact hc c

theorem execWipeComplete_turns (hw : s.sec.wiping = true) {b : Nat} (ht : s.sec.wipeTarget = some b) :
    ∃ t, exec .wipeComplete s = .next t ∧ t.sec.wiping = false ∧ t.sec.wipeTarget = none ∧ t.sec.base = b ∧
      t.sec.effective = t.lifeWanted := by
  let u := s.wipeOver.setBase b
  obtain ⟨ax, ae, ap, ad⟩ := u.lifeAfter_follows b
  obtain ⟨kx, kp, kd, -⟩ := (u.lifeAfter (some b)).openDebug_leaves
  have hturn : (u.lifeAfter (some b)).openDebug.sec.turn = (b, false, none) := by
    have h1 : (u.lifeAfter (some b)).openDebug.sec.turn = (u.lifeAfter (some b)).sec.turn := (congrArg Sec.turn kx :)
    rw [h1, ax, State.setBase_turn, s.wipeOver_leaves.1]
  have hbase : (u.lifeAfter (some b)).openDebug.sec.base = b := congrArg Prod.fst hturn
  have hwiping : (u.lifeAfter (some b)).openDebug.sec.wiping = false := congrArg (fun x => x.2.1) hturn
  have htarget : (u.lifeAfter (some b)).openDebug.sec.wipeTarget = none := congrArg (fun x => x.2.2) hturn
  have hu : u.sec.base = b := congrArg Prod.fst (State.setBase_turn s.wipeOver b)
  have hlife : (u.lifeAfter (some b)).openDebug.lifeWanted = u.lifeWanted :=
    State.lifeWanted_congr (hbase.trans hu.symm) (kp.trans ap) (kd.trans ad)
  have heff : (u.lifeAfter (some b)).openDebug.sec.effective = (u.lifeAfter (some b)).openDebug.lifeWanted := by
    rw [hlife, kx]
    exact ae
  have e : s.wipeDone = (u.lifeAfter (some b)).openDebug.modSec (fun x => { x with held := false }) := by
    rw [State.wipeDone, ht]
    exact State.syncLife_settled hwiping heff
  exact ⟨_, (execWipeComplete_done hw).trans (congrArg Host.Outcome.next e), hwiping, htarget, hbase, heff⟩

/-! The writes. -/

theorem execFailureClear_arms {w : Writer} {v : BitVec 8} (h : (s.at w.t).accepts w 0x7800 4 (.num v.toNat)) :
    ∃ t, exec (.failureClear w v) s = .next t ∧ t.hap.lastStatus = 0 ∧ (v = 1 → od 0x7800 4 ∈ t.dict.armed) ∧ t.ext = s.ext := by
  refine ⟨_, next_congr (State.command_passes h rfl _), rfl, ?_, ?_⟩
  · rintro rfl
    exact List.contains_iff_mem.1 ((s.at w.t).arm_armed (od 0x7800 4))
  · exact ite_keep (P := fun t : State => t.ext = s.ext) rfl rfl

/-- Settles O48: reads by `State.dramGet_dead` and `State.dramGet_intact`, writes by `State.rd_dramPut`, a failure by
`State.failController_fails`, HyperRAM by what each device answers, and the end of a wipe by `State.syncLife_settled`. -/
theorem externalMemoriesServeTheirCommands : Obligations.ExternalMemoriesServeTheirCommands := by
  unfold Obligations.ExternalMemoriesServeTheirCommands
  intro s
  refine ⟨fun da n t' hc hn => ⟨fun hd hb => ?_, fun a e hd => execDramRead_dead hc hn hd e⟩, fun da data hc => ?_, fun ctrl chan bank => ?_,
    fun ctrl line t' e hc => ?_, fun ctrl hf => ⟨_, rfl, State.failController_fails hf⟩, fun w v h => execFailureClear_arms h,
    fun a n t' ha => ?_, fun a data ha h1 => ?_, fun hl hd hb => ?_, fun hw => ?_⟩
  · exact ⟨execDramRead_clean hc hn hd hb, execDramRead_corrected hc hn hd hb, execDramRead_uncorrectable hc hn hd hb⟩
  · exact ⟨_, next_congr (if_neg (Nat.not_lt.2 hc)), s.rd_dramPut da data⟩
  · exact ⟨_, rfl, rfl, fun y => Sparse.get_put (fun _ => 0) s.ext.rows _ y 0⟩
  · exact ⟨_, execPatrolScrub_reads hc e, Sparse.get_put_same (fun _ => 0) _ ctrl.val (line + 1), ((s.at t').dramGet_keeps ..).1,
      fun hf hb => State.scrub_counts (s := s.at t') hc hf hb e⟩
  · exact ⟨fun h0 hb e1 => execHyperramRead_first ha h0 hb e1, execHyperramRead_second ha, execHyperramRead_none ha⟩
  · exact ⟨execHyperramWrite_both ha h1, execHyperramWrite_second ha h1⟩
  · exact ⟨execEventLogFlush_takes hl hd hb, execEventLogFlush_retires hl hd hb⟩
  · exact ⟨execWipeComplete_stays hw, fun b => execWipeComplete_turns hw⟩

end Sys2Proof.Machine
end

