-- ==== Sys2Proof/Proofs/ComponentLoads.lean ====
section
/-! SUPPORT. What the model library, components that take effect, schedules, plans and repairs leave of the security block and of the state of
Peony's tables (R23, R184-R186, R253, R374-R377, R520, R521, R537): the relation `Loads`, one rule per operation. -/

namespace Sys2Proof.Machine

/-- A component as one that is damaged. -/
def Component.harmed (c : Component) : Component := { c with damaged := true }

/-- The security block but for damage, measurements and epoch floors. -/
def Sec.steady (x : Sec) : Sec :=
  { x with comps := x.comps.map Component.harmed, m := Vector.replicate 8 [], floors := [], thermometer := [] }

/-- What loading leaves of `s` in `t`. -/
structure Loads (s t : State) : Prop where
  sec : t.sec.steady = s.sec.steady
  states : ∀ n, (t.table n).state = (s.table n).state

theorem Ends.loads {s t : State} (h : Ends s t) : Loads s t := ⟨by rw [h.sec], h.states⟩

namespace Loads

variable {s t u : State}

theorem refl (s : State) : Loads s s := ⟨rfl, fun _ => rfl⟩
theorem trans (h : Loads s t) (k : Loads t u) : Loads s u := ⟨k.sec.trans h.sec, fun n => (k.states n).trans (h.states n)⟩
theorem ite {c : Prop} [Decidable c] (h : Loads s t) (k : Loads s u) : Loads s (if c then t else u) := ite_keep (P := Loads s) h k

theorem foldl {β : Type} {f : State → β → State} {l : List β} (h : Loads s t) (hf : ∀ t x, Loads s t → Loads s (f t x)) : Loads s (l.foldl f t) :=
  foldl_keep (P := Loads s) hf h

/-! One rule per operation of the state. -/

/-- An operation on none of the parts concerned. -/
theorem same (h : Loads s t) (hx : u.sec.steady = t.sec.steady := by exact rfl) (hy : u.peony = t.peony := by exact rfl) : Loads s u :=
  h.trans ⟨hx, fun n => by rw [State.table_of_peony hy]⟩

theorem setNum {k : Nat} {v : Int} (h : Loads s t) : Loads s (t.setNum k v) := h.same
theorem setOct {k : Nat} {b : Bytes} (h : Loads s t) : Loads s (t.setOct k b) := h.same
theorem bump {k n : Nat} (h : Loads s t) : Loads s (t.bump k n) := h.same
theorem store {k : Nat} {v : OdVal} (h : Loads s t) : Loads s (t.store k v) := h.same
theorem save {k v : Nat} (h : Loads s t) : Loads s (t.save k v) := h.same
theorem raise {c i v : Nat} {b : Bool} (h : Loads s t) : Loads s (t.raise c i v b) := h.same (by rw [State.raise_sec]) (State.raise_peony ..)
theorem raiseIng {c i v : Nat} {b : Bool} (h : Loads s t) : Loads s (t.raiseIng c i v b) :=
  h.same (by rw [State.raiseIng_sec]) (State.raiseIng_peony ..)
theorem modExt {f : Ext → Ext} (h : Loads s t) : Loads s (t.modExt f) := h.same
theorem modCore {c : Fin 16} {f : Core → Core} (h : Loads s t) : Loads s (t.modCore c f) := h.same
theorem modPad {c : Fin 16} {f : Pad → Pad} (h : Loads s t) : Loads s (t.modPad c f) := h.modCore
theorem modArr {c : Fin 16} {f : Arr → Arr} (h : Loads s t) : Loads s (t.modArr c f) := h.modCore
theorem modSched {f : Sched → Sched} (h : Loads s t) : Loads s (t.modSched f) := h.same
theorem modSafety {f : Safety → Safety} (h : Loads s t) : Loads s (t.modSafety f) := h.same
theorem causeComp {w : CauseWord} {b : Nat} (h : Loads s t) : Loads s (t.causeComp w b) := h.same
theorem setQueue {q : Fin 24} {x : Queue} (h : Loads s t) : Loads s (t.setQueue q x) := h.same
theorem setMarigold {v : Nat} (h : Loads s t) : Loads s (t.setMarigold v) := h.setNum

theorem ends (h : Loads s t) (k : Ends t u) : Loads s u := h.trans k.loads

/-- An update of a table that leaves its state. -/
theorem modTable {n : Nat} {f : PTable → PTable} (h : Loads s t) (hf : ∀ x, (f x).state = x.state := by exact fun _ => rfl) :
    Loads s (t.modTable n f) := by
  refine h.trans ⟨rfl, fun m => ?_⟩
  by_cases e : Fin.ofNat 16 n = Fin.ofNat 16 m
  · show ((t.peony.tables.set (Fin.ofNat 16 n) (f (t.table n)))[(Fin.ofNat 16 m).val]).state = (t.table m).state
    simp only [← e, Vector.getElem_set_self, hf]
    exact congrArg (fun x => (t.peony.tables[x]).state) e
  · have hne : (Fin.ofNat 16 n).val ≠ (Fin.ofNat 16 m).val := fun h => e (Fin.ext h)
    show ((t.peony.tables.set (Fin.ofNat 16 n) (f (t.table n)))[(Fin.ofNat 16 m).val]).state = _
    rw [Vector.getElem_set_ne _ _ hne]
    rfl

theorem showVers {n : Nat} (h : Loads s t) : Loads s (t.showVers n) := h.foldl fun _ _ h => h.setOct

theorem setVer {n i : Nat} {v : TVersion} (h : Loads s t) : Loads s (t.setVer n i v) := h.modTable.showVers

/-! DRAM (R346-R353). -/

theorem failController {c : Nat} (h : Loads s t) : Loads s (t.failController c) := by
  unfold State.failController
  extract_lets s1 s2 s3 s4
  have h4 : Loads s s4 := h.modExt.setNum.store.raise
  exact h.ite ((h4.modSafety.ends (Ends.refl _).showSafety).ite h4)

theorem dramUe {a : Nat} (h : Loads s t) : Loads s (t.dramUe a) := by
  unfold State.dramUe
  extract_lets c now s1 s2 s3
  have h3 : Loads s s3 := h.bump.setNum.raiseIng.modExt
  exact h3.failController.ite h3

theorem touchRow {a : Nat} (h : Loads s t) : Loads s (t.touchRow a) := by
  unfold State.touchRow
  exact h.modExt

theorem dramGet {a n : Nat} {e : Ecc} (h : Loads s t) : Loads s (t.dramGet a n e).1 := by
  unfold State.dramGet
  extract_lets s1 ws
  have h1 : Loads s s1 := h.touchRow
  split
  · exact h1.dramUe
  · split
    · exact h1.dramUe
    · cases e
      · exact h1
      · exact h1.bump
      · exact h1.modExt.dramUe

theorem dramPut {a : Nat} {d : Bytes} (h : Loads s t) : Loads s (t.dramPut a d) := by
  unfold State.dramPut
  exact h.touchRow.foldl fun _ _ h => h.bump.ite h.modExt

theorem pPut {p o : Nat} {d : Bytes} (h : Loads s t) : Loads s (t.pPut p o d) := by
  unfold State.pPut
  split
  · exact h
  · exact h.dramPut

/-! The model library (R23, R350, R520, R521). -/

theorem fillLibrary (h : Loads s t) : Loads s t.fillLibrary := h.foldl fun _ _ h => h.dramPut

/-- Damage is all that a component's damage changes. -/
theorem damage {c : Component} (h : Loads s t) : Loads s (t.damage c) := by
  refine h.same ?_ (by rw [State.damage, State.raise_peony])
  rw [State.damage, State.raise_sec]
  unfold Sec.steady
  rw [List.map_map]
  congr 1
  refine List.map_congr_left fun d _ => ?_
  exact ite_keep (P := fun x : Component => x.harmed = d.harmed) rfl rfl

theorem fromLibrary {c : Component} (h : Loads s t) : Loads s (t.fromLibrary c).1 := by
  have hg := h.dramGet (a := libraryAt t.sec.comps c + 424) (n := c.payload.length) (e := .clean)
  unfold State.fromLibrary
  split <;> rename_i u _ e <;> rw [e] at hg
  · exact hg
  · exact hg.damage

theorem noSchedule (h : Loads s t) : Loads s t.noSchedule := h.ends (Ends.refl t).noSchedule

theorem readModel (h : Loads s t) : Loads s t.readModel.1 := by
  unfold State.readModel
  split
  · exact h
  · rename_i c _
    have hg := h.fromLibrary (c := c)
    split
    · exact h.noSchedule
    · split <;> rename_i u _ e <;> rw [e] at hg
      · exact hg
      · exact hg.noSchedule

/-! Schedules and plans (R375-R377, R386). -/

theorem copyPrograms {f : Nat → Bool} (h : Loads s t) : Loads s (t.copyPrograms f) := by
  have hr := h.readModel
  unfold State.copyPrograms
  split
  · rename_i u m _ e
    rw [e] at hr
    exact hr.foldl fun _ _ h => h.foldl fun _ _ h => h.modPad.ite h
  · rename_i u _ e
    rw [e] at hr
    exact hr
  · exact h

theorem copyContents {f : Nat → Bool} (h : Loads s t) : Loads s (t.copyContents f) := by
  have hr := h.readModel
  unfold State.copyContents
  split
  · exact h
  · refine ite ?_ h
    split <;> rename_i u _ e <;> rw [e] at hr
    · exact hr.foldl fun _ _ h => h.modPad.ite h
    · exact hr

theorem declareDoubt {n : Nat} (h : Loads s t) : Loads s (t.declareDoubt n) := h.ends (Ends.refl t).declareDoubt

theorem clearDoubt {n : Nat} (h : Loads s t) : Loads s (t.clearDoubt n) := h.ends (Ends.refl t).clearDoubt

theorem judgeDoubt (h : Loads s t) : Loads s t.judgeDoubt := by
  unfold State.judgeDoubt
  split
  · exact h
  · extract_lets s1 s2
    have h1 : Loads s s1 := h.declareDoubt.ite h
    have h2 : Loads s s2 := h1.declareDoubt.ite h1
    exact h2.declareDoubt.ite h2

theorem showPlan (h : Loads s t) : Loads s t.showPlan := by
  unfold State.showPlan
  split
  · exact h.setNum.setNum
  · exact h

theorem switchPlan (h : Loads s t) : Loads s t.switchPlan := by
  unfold State.switchPlan
  split
  · exact h
  · extract_lets gone s1 before s2
    have h1 : Loads s s1 := h.foldl fun _ _ h => h.modPad.ite h
    split
    · exact h1.ite h1.modSched.showPlan.copyPrograms.copyContents.raise
    · exact h1.modSched.declareDoubt

theorem showSchedule {a : Schedule} (h : Loads s t) : Loads s (t.showSchedule a) :=
  h.setNum.setNum.setNum.setNum.setNum.setNum.foldl fun _ _ h => h.setOct

theorem putSchedule {a : Schedule} (h : Loads s t) : Loads s (t.putSchedule a) := by
  unfold State.putSchedule
  refine h.ite ?_
  extract_lets s1 s2 fresh fr s3 s4 s5 s6
  have h2 : Loads s s2 := (h.ends (Ends.refl t).loseAll).foldl fun _ _ h => h.modPad
  clear_value s2
  have hf (x : FrameSt) : Loads s { s2 with frame := x } := h2.same
  have h3 : Loads s s3 := (hf _).ite h2
  have h4 : Loads s s4 := h3.modSched
  have h5 : Loads s s5 := h4.showSchedule.showPlan.copyPrograms
  have h6 : Loads s s6 := h5.copyContents
  exact h6.clearDoubt.clearDoubt.clearDoubt.judgeDoubt

theorem activateAccepted (h : Loads s t) : Loads s t.activateAccepted := by
  unfold State.activateAccepted
  split
  · exact h.ite h.putSchedule
  · exact h

/-! Marigold (R261, R425, R537). -/

theorem stopMarigold (h : Loads s t) : Loads s t.stopMarigold := by
  rcases Ends.stopMarigold_shows (t := t) with e | e
  · rwa [e]
  · exact h.setMarigold.ends e

theorem driveXoff (h : Loads s t) : Loads s t.driveXoff := by
  unfold State.driveXoff
  extract_lets fills on x s1
  have h1 : Loads s s1 := h.same
  exact h1.raiseIng.ite h1

theorem qFlush {q : Fin 24} (h : Loads s t) : Loads s (t.qFlush q) := h.ite (h.setQueue.driveXoff.ite h.setQueue).bump

theorem restartMarigold (h : Loads s t) : Loads s t.restartMarigold := by
  unfold State.restartMarigold
  extract_lets now s1 recent s2 s3
  have h2 : Loads s s2 := h.qFlush.qFlush.modSafety
  have h3 : Loads s s3 := h2.setMarigold.raise
  exact h.ite (h2.stopMarigold.ite (h3.ite h3.causeComp))

/-! Components that take effect (R521, R537). -/

theorem loadPlan {b : Bytes} (h : Loads s t) : Loads s (t.loadPlan b) := by
  unfold State.loadPlan
  split
  · exact h.raise
  · exact h.same

theorem loadTable {n i : Nat} {b : Bytes} (h : Loads s t) : Loads s (t.loadTable n i b) := by
  unfold State.loadTable
  extract_lets d
  refine ite (h.setVer.ite h) ?_
  split
  exact (h.foldl fun _ _ h => h.pPut).setVer

theorem loadProgram {i : Nat} {b : Bytes} (h : Loads s t) : Loads s (t.loadProgram i b) := h.same

theorem useComponent {c : Component} {b : Bytes} (h : Loads s t) : Loads s (t.useComponent c b) := by
  unfold State.useComponent
  split
  · exact h.loadPlan
  · exact h.setOct
  · exact h.loadProgram.setOct
  · exact h.loadTable
  · exact h

theorem withoutComponent {c : Component} (h : Loads s t) : Loads s (t.withoutComponent c) := by
  unfold State.withoutComponent
  split
  · exact h.noSchedule
  · exact h.noSchedule
  · exact h.loadProgram
  · exact h.modTable.showVers
  · exact h

theorem useLibrary {c : Component} (h : Loads s t) : Loads s (t.useLibrary c) := by
  have hf := h.fromLibrary (c := c)
  unfold State.useLibrary
  split <;> rename_i u _ e <;> rw [e] at hf
  · exact hf.useComponent
  · exact hf.withoutComponent

theorem takeEffect {c : Component} (h : Loads s t) : Loads s (t.takeEffect c) := by
  unfold State.takeEffect
  split
  · exact h
  · exact h.modExt.setNum.restartMarigold
  · exact h
  · exact h.useLibrary

theorem measureComp {c : Component} (h : Loads s t) : Loads s (t.measureComp c) := h.same

theorem raiseFloor {c : Component} (h : Loads s t) : Loads s (t.raiseFloor c) := h.same

/-! Repairs and retirements (R184-R186, R253). -/

theorem repairRow {c : Fin 16} {q n r : Nat} {b : Bool} (h : Loads s t) : Loads s (t.repairRow c q n r b) := by
  unfold State.repairRow
  split
  · exact h.modPad.store.store.raise
  · extract_lets s1
    have h1 : Loads s s1 := h.ite h.modPad
    exact h1.ite (h1.store.ite h1.modPad).raise

theorem loseSpare {c : Fin 16} {q n r : Nat} {b : Bool} (h : Loads s t) : Loads s (t.loseSpare c q n r b) := by
  unfold State.loseSpare
  extract_lets hit used s1
  have h1 : Loads s s1 := h.modPad
  clear_value used
  split
  · exact h1.repairRow
  · exact h1

theorem rowFails {c : Fin 16} {q n r : Nat} {b : Bool} (h : Loads s t) : Loads s (t.rowFails c q n r b) := by
  unfold State.rowFails
  refine h.loseSpare.ite ?_
  split
  · exact h.ite h.loseSpare
  · exact h.repairRow

theorem repairCore {c : Fin 16} (h : Loads s t) : Loads s (t.repairCore c) := by
  unfold State.repairCore
  extract_lets due rows s1 s2 s3 s4
  have h1 : Loads s s1 := h.modCore
  have h2 : Loads s s2 := h1.ite (h1.foldl fun _ _ h => h.setNum).setNum
  have h4 : Loads s s4 := (h2.foldl fun _ _ h => h.raise).foldl fun _ _ h => h.rowFails
  exact h4.modSched.ite h4

theorem retireDue (h : Loads s t) : Loads s t.retireDue := by
  unfold State.retireDue
  extract_lets quar s1 s2 s3 s4 s5
  have h1 : Loads s s1 := h.foldl fun _ _ h => (h.ite h.save.modArr).ite h
  have h2 : Loads s s2 := h1.foldl fun _ _ h => h.repairCore
  have h5 : Loads s s5 := h2.modSched.modSafety.setNum
  exact h5.modSched.setNum.setNum.ite h5

end Loads

end Sys2Proof.Machine
end

