-- ==== Sys2Proof/Proofs/UpdatesAndKeys.lean ====
section
/-! THEOREMS. The update gate, activation, key records, MACsec associations and requested restarts (R358, R487, R516, R534-R537, R541,
R557, R558), up to the statement about them. -/

namespace Sys2Proof.Machine

variable {s : State} {w : Writer} {v : BitVec 8} {t' : Nat}

/-- A command that its own check refuses answers the check's status alone. -/
theorem State.command_refused {idx sub : Nat} {x : OdVal} (h : (s.at w.t).accepts w idx sub x) {check : State → Nat} {n : Nat}
    (hc : check (s.at w.t) = n) (hn : n ≠ 0) (effect : State → State) : s.command w idx sub x check effect = (s.at w.t).answer n := by
  rw [State.command_accepts h, if_pos (by rwa [hc]), hc]

/-- A status other than REFUSED is no event. -/
theorem State.refusedEvent_answer {n : Nat} (h : n ≠ 6) (u : State) (code : Nat) : (u.answer n).refusedEvent code = u.answer n := if_neg h

/-- REFUSED is an event. -/
theorem State.refusedEvent_refused (u : State) (code : Nat) : (u.answer 6).refusedEvent code = (u.answer 6).raise code := if_pos rfl

/-- An event is no change of the journal. -/
theorem State.raise_journal (s : State) (c i n : Nat) (b : Bool) : (s.raise c i n b).dict.journal = s.dict.journal := by
  unfold State.raise
  dsimp only
  split
  · rfl
  · split
    · rfl
    · split <;> rfl

/-! The update gate (R487, R534). -/

theorem execUpdateGate_host (ha : (s.at w.t).accepts w 0xC000 1 (.num v.toNat)) (h : (s.session w.session).any (fun x => x.isHost) = true) :
    ∃ t, exec (.updateGate w v) s = .next t ∧ t.hap.lastStatus = 0 ∧ t.num (od 0xC000 1) = v.toNat ∧
      t.sec.gateAt = Nat.max s.frame.now w.t ∧ t.num (od 0xC000 3) = s.num (od 0xC000 3) :=
  ⟨_, next_congr (State.command_passes ha (if_pos h) _), rfl, State.num_setNum .., rfl, State.num_setNum_other _ _ (by decide)⟩

theorem execUpdateGate_refused (ha : (s.at w.t).accepts w 0xC000 1 (.num v.toNat)) (h : (s.session w.session).any (fun x => x.isHost) = false) :
    ∃ t, exec (.updateGate w v) s = .next t ∧ t.hap.lastStatus = 2 ∧ t.dict = s.dict ∧ t.sec = s.sec :=
  ⟨_, next_congr (State.command_refused ha (if_neg (h ▸ Bool.false_ne_true)) (by decide) _), rfl, rfl, rfl⟩

theorem execUpdateGateExpire_closes (hf : s.flag (od 0xC000 1) = true) (hg : (s.at t').updateGate = false) :
    ∃ t, exec (.updateGateExpire t') s = .next t ∧ t.num (od 0xC000 1) = 0 :=
  ⟨_, next_congr (if_pos ⟨hf, by rw [hg]; rfl⟩), State.num_setNum _ _ 0⟩

theorem execUpdateGateExpire_open (hg : (s.at t').updateGate = true) : exec (.updateGateExpire t') s = .next (s.at t') :=
  next_congr (if_neg fun h => by rw [hg] at h; exact absurd h.2 (by decide))

/-! Steps of an activation (R536, R537). -/

theorem Ends.raiseRefusal {t : State} (h : Ends s t) {why : Nat} : Ends s (t.raiseRefusal why) := by
  unfold State.raiseRefusal
  exact h.raise.raise.ite (h.raise.declareDoubt.ite h.raise)

/-- The home rules change nothing but the events and the doubt of a refusal. -/
theorem State.homeRules_ends (s : State) (cs : List Component) : Ends s (s.homeRules cs).1 := by
  have hs : Ends s s := .refl s
  have hP : ∀ {c : Prop} [Decidable c] {x y : State × Bool}, Ends s x.1 → Ends s y.1 → Ends s (if c then x else y).1 :=
    fun hx hy => ite_keep (P := fun x : State × Bool => Ends s x.1) hx hy
  unfold State.homeRules
  extract_lets model sched
  refine hP hs.raise (hP hs (hP hs (hP hs (hP hs ?_))))
  split
  · exact hs.raiseRefusal
  · exact hs

/-- Where all home rules pass they change nothing. -/
theorem State.homeRules_pass {cs : List Component} (h : (s.homeRules cs).2 = true) : (s.homeRules cs).1 = s := by
  have hP : ∀ {c : Prop} [Decidable c] {x y : State × Bool}, x.2 = false → (y.2 = true → y.1 = s) →
      (if c then x else y).2 = true → (if c then x else y).1 = s := fun {c} _ {x y} hx hy => by
    split
    · exact fun h => absurd (hx.symm.trans h) Bool.false_ne_true
    · exact hy
  revert h
  unfold State.homeRules
  extract_lets model sched
  refine hP rfl (hP rfl (hP rfl (hP rfl (hP rfl ?_))))
  split
  · exact fun h => absurd h Bool.false_ne_true
  · exact fun _ => rfl

/-- What an accepted schedule asks is the scheduler's alone. -/
theorem State.acceptParts_sched (s : State) (cs : List Component) (b : Bool) : ∃ f, s.acceptParts cs b = s.modSched f := by
  have hs : ∃ f, s = s.modSched f := ⟨id, rfl⟩
  have ha : ∀ a, ∃ f, s.acceptSchedule a b = s.modSched f := fun a => by
    unfold State.acceptSchedule
    exact ⟨_, rfl⟩
  unfold State.acceptParts
  split
  · split
    · exact ha _
    · exact hs
  · refine ite_keep (P := fun t => ∃ f, t = s.modSched f) ?_ hs
    split
    · exact ha _
    · exact hs

/-- A Marigold image goes into HyperRAM. -/
theorem State.writeImage_ext (s : State) (cs : List Component) : ∃ f, s.writeImage cs = s.modExt f := by
  unfold State.writeImage
  split
  · exact ⟨_, rfl⟩
  · exact ⟨id, rfl⟩

theorem State.writeDirectory_comps (s : State) (cs : List Component) : (s.writeDirectory cs).sec.comps =
    (cs.map (fun c => ({ c with seq := s.num (od 0x7900 1) + 1 } : Component))).foldl putComponent s.sec.comps := rfl

theorem State.writeDirectory_stage (s : State) (cs : List Component) : (s.writeDirectory cs).sec.stage = s.sec.stage := rfl

theorem State.writeDirectory_seq (s : State) (cs : List Component) : (s.writeDirectory cs).num (od 0x7900 1) = s.num (od 0x7900 1) + 1 := by
  have h := State.obj_store s (od 0x7900 1) (.num (s.num (od 0x7900 1) + 1 : Nat))
  exact (State.num_setNum_other _ _ (by decide)).trans (congrArg (fun x => (OdVal.toInt x).toNat) h)

theorem State.writeDirectory_num (s : State) (cs : List Component) {k : Nat} (h1 : k ≠ od 0x7900 1) (h2 : k ≠ od 0x7900 2) :
    (s.writeDirectory cs).num k = s.num k :=
  (State.num_setNum_other _ _ h2).trans (State.num_of_obj (State.obj_store_other s _ h1))

/-- Steps 4 and 5 leave the installed components but for their damage, and the stage empty. -/
theorem State.finishStage_finishes (s : State) : s.finishStage.num (od 0xC000 3) = 5 ∧ s.finishStage.num (od 0xC000 6) = 0 ∧
    s.finishStage.sec.stage = {} ∧ s.finishStage.sec.comps.map Component.harmed = s.sec.comps.map Component.harmed := by
  unfold State.finishStage
  extract_lets parts
  unfold State.completeActivation
  extract_lets s1 s2 s3 s4
  let s0 := s.modSec (fun x => { x with stage := {} })
  have h1 : Loads s0 s1 := (Loads.refl s0).fillLibrary.foldl fun _ _ h => h.takeEffect.measureComp.raiseFloor
  have h2 : Loads s0 s2 := h1.activateAccepted.ite h1
  have h5 : Loads s0 (s4.raise 0xC003 0xFF (s4.num (od 0xC000 7))) := h2.store.setNum.setNum.raise
  clear_value s2
  refine ⟨?_, ?_, (congrArg Sec.stage h5.sec :), (congrArg Sec.comps h5.sec :)⟩
  · exact (State.num_raise _ _ _ _ _ (by decide)).trans ((State.num_setNum_other _ _ (by decide)).trans (State.num_setNum _ _ 5))
  · exact (State.num_raise _ _ _ _ _ (by decide)).trans (State.num_setNum _ _ 0)

/-- In RUN step 3 writes the directory and waits for the boundary. -/
theorem State.stepThree_runs (hr : s.frame.run = true) (cs : List Component) : (s.stepThree cs).num (od 0xC000 3) = s.num (od 0xC000 3) ∧
    (s.stepThree cs).sec.stage.written = true ∧ (s.stepThree cs).sec.stage.writtenAt = s.frame.now ∧
    (s.stepThree cs).num (od 0x7900 1) = s.num (od 0x7900 1) + 1 ∧
    (s.stepThree cs).sec.comps = (cs.map (fun c => ({ c with seq := s.num (od 0x7900 1) + 1 } : Component))).foldl putComponent s.sec.comps := by
  unfold State.stepThree
  extract_lets s1 s2
  obtain ⟨f, hf⟩ := (s1.writeDirectory cs).acceptParts_sched cs true
  obtain ⟨g, hg⟩ := ((s1.writeDirectory cs).modSched f).writeImage_ext cs
  have h2 : s2 = ((s1.writeDirectory cs).modSched f).modExt g := (congrArg (State.writeImage · cs) hf).trans hg
  rw [if_pos (by rw [h2]; exact hr), h2]
  exact ⟨s1.writeDirectory_num cs (by decide) (by decide), rfl, rfl, s1.writeDirectory_seq cs, rfl⟩

/-- Outside RUN step 3 goes on to the end. -/
theorem State.stepThree_ends (hr : s.frame.run = false) (cs : List Component) :
    (s.stepThree cs).num (od 0xC000 3) = 5 ∧ (s.stepThree cs).sec.stage = {} := by
  unfold State.stepThree
  extract_lets s1 s2
  obtain ⟨f, hf⟩ := (s1.writeDirectory cs).acceptParts_sched cs true
  obtain ⟨g, hg⟩ := ((s1.writeDirectory cs).modSched f).writeImage_ext cs
  have h2 : s2 = ((s1.writeDirectory cs).modSched f).modExt g := (congrArg (State.writeImage · cs) hf).trans hg
  rw [if_neg (by rw [h2]; exact ne_true_of_eq_false hr)]
  obtain ⟨h3, -, h5, -⟩ := s2.finishStage_finishes
  exact ⟨h3, h5⟩

/-! ACTIVATE, COMPONENT_EFFECT and DISCARD (R535-R537). -/

theorem execComponentEffect_due (h3 : s.num (od 0xC000 3) = 4) (hw : s.sec.stage.written = true) (hb : (s.at t').atBoundary t' = true)
    (hr : s.frame.run = false ∨ s.sec.stage.writtenAt + 100000000 ≤ t') : ∃ t, exec (.componentEffect t') s = .next t ∧
      t.num (od 0xC000 3) = 5 ∧ t.num (od 0xC000 6) = 0 ∧ t.sec.stage = {} ∧
      t.sec.comps.map Component.harmed = s.sec.comps.map Component.harmed :=
  ⟨_, next_congr (if_pos ⟨h3, hw, hb, hr.imp_left fun h => by rw [show (s.at t').frame.run = s.frame.run from rfl, h]; rfl⟩),
    (s.at t').finishStage_finishes⟩

theorem execComponentEffect_waits (h : s.num (od 0xC000 3) ≠ 4 ∨ s.sec.stage.written = false) :
    exec (.componentEffect t') s = .next (s.at t') :=
  next_congr (if_neg fun ⟨h3, hw, _⟩ => h.elim (· h3) fun e => absurd (e.symm.trans hw) Bool.false_ne_true)

section
variable {t3 : Nat}

theorem activateEffect_refused (h : ((s.setNum (od 0xC000 3) 4).homeRules s.sec.stage.parts).2 = false) : activateEffect t3 s =
    ((((s.setNum (od 0xC000 3) 4).homeRules s.sec.stage.parts).1.setNum (od 0xC000 3) 3).setNum (od 0xC000 6) 6).raise 0xC004 := by
  unfold activateEffect
  extract_lets cs
  split
  · rename_i u e
    rw [e]
  · rename_i u e
    rw [e] at h
    cases h

theorem activateEffect_passes (h : ((s.setNum (od 0xC000 3) 4).homeRules s.sec.stage.parts).2 = true) : activateEffect t3 s =
    if ((s.setNum (od 0xC000 3) 4).at t3).gateShut then ((s.setNum (od 0xC000 3) 4).at t3).abandon
    else ((s.setNum (od 0xC000 3) 4).at t3).stepThree s.sec.stage.parts := by
  have h1 := State.homeRules_pass h
  unfold activateEffect
  extract_lets cs
  split
  · rename_i u e
    rw [e] at h
    cases h
  · rename_i u e
    rw [e] at h1
    rw [← h1]

theorem State.gateShut_activating : ((s.setNum (od 0xC000 3) 4).at t3).gateShut = (s.at t3).gateShut :=
  State.gateShut_congr (s := s.at t3) rfl rfl (State.obj_setNum_other s _ (by decide)) (State.obj_setNum_other s _ (by decide))

variable (ha : (s.at w.t).accepts w 0xC000 4 (.num v.toNat))
include ha

theorem execActivate_bars (hc : activateCheck (s.at w.t) = 0)
    (hr : (((s.at w.t).setNum (od 0xC000 3) 4).homeRules s.sec.stage.parts).2 = false) : ∃ t, exec (.activate w v t3) s = .next t ∧
      t.hap.lastStatus = 0 ∧ t.num (od 0xC000 3) = 3 ∧ t.num (od 0xC000 6) = 6 ∧ t.sec.comps = s.sec.comps ∧
      t.num (od 0x7900 1) = s.num (od 0x7900 1) := by
  have he := ((s.at w.t).setNum (od 0xC000 3) 4).homeRules_ends s.sec.stage.parts
  refine ⟨_, next_congr ((State.command_passes ha hc _).trans (congrArg (State.answer · 0) (activateEffect_refused hr))), rfl, ?_, ?_, ?_, ?_⟩
  · exact (State.num_raise _ _ _ _ _ (by decide)).trans ((State.num_setNum_other _ _ (by decide)).trans (State.num_setNum _ _ 3))
  · exact (State.num_raise _ _ _ _ _ (by decide)).trans (State.num_setNum _ _ 6)
  · exact (congrArg Sec.comps (State.raise_sec ..) :).trans (congrArg Sec.comps he.sec :)
  · exact (State.num_raise _ _ _ _ _ (by decide)).trans ((State.num_setNum_other _ _ (by decide)).trans
      ((State.num_setNum_other _ _ (by decide)).trans ((he.num (by decide)).trans (State.num_setNum_other _ _ (by decide)))))

theorem execActivate_closed (hc : activateCheck (s.at w.t) = 0)
    (hr : (((s.at w.t).setNum (od 0xC000 3) 4).homeRules s.sec.stage.parts).2 = true) (hg : ((s.at w.t).at t3).gateShut = true) :
    ∃ t, exec (.activate w v t3) s = .next t ∧ t.hap.lastStatus = 0 ∧ t.num (od 0xC000 3) = 2 ∧ t.num (od 0xC000 6) = 11 ∧
      t.sec.comps = s.sec.comps ∧ t.num (od 0x7900 1) = s.num (od 0x7900 1) := by
  have he := (activateEffect_passes (t3 := t3) hr).trans (if_pos (State.gateShut_activating.trans hg))
  refine ⟨_, next_congr ((State.command_passes ha hc _).trans (congrArg (State.answer · 0) he)), rfl, ?_, ?_, ?_, ?_⟩
  · exact (State.num_raise _ _ _ _ _ (by decide)).trans ((State.num_setNum_other _ _ (by decide)).trans (State.num_setNum _ _ 2))
  · exact (State.num_raise _ _ _ _ _ (by decide)).trans (State.num_setNum _ _ 11)
  · exact (congrArg Sec.comps (State.raise_sec ..) :)
  · exact (State.num_raise _ _ _ _ _ (by decide)).trans ((State.num_setNum_other _ _ (by decide)).trans
      ((State.num_setNum_other _ _ (by decide)).trans (State.num_setNum_other _ _ (by decide))))

/-- An activation whose home rules pass and whose gate stays open takes step 3. -/
theorem execActivate_third (hc : activateCheck (s.at w.t) = 0)
    (hr : (((s.at w.t).setNum (od 0xC000 3) 4).homeRules s.sec.stage.parts).2 = true) (hg : ((s.at w.t).at t3).gateShut = false) :
    exec (.activate w v t3) s = .next (((((s.at w.t).setNum (od 0xC000 3) 4).at t3).stepThree s.sec.stage.parts).answer 0) :=
  next_congr ((State.command_passes ha hc _).trans (congrArg (State.answer · 0)
    ((activateEffect_passes hr).trans (if_neg (ne_true_of_eq_false (State.gateShut_activating.trans hg))))))

theorem execActivate_writes (hc : activateCheck (s.at w.t) = 0)
    (hr : (((s.at w.t).setNum (od 0xC000 3) 4).homeRules s.sec.stage.parts).2 = true) (hg : ((s.at w.t).at t3).gateShut = false)
    (hrun : s.frame.run = true) : ∃ t, exec (.activate w v t3) s = .next t ∧ t.hap.lastStatus = 0 ∧
      t.num (od 0xC000 3) = 4 ∧ t.sec.stage.written = true ∧ t.sec.stage.writtenAt = Nat.max (Nat.max s.frame.now w.t) t3 ∧
      t.num (od 0x7900 1) = s.num (od 0x7900 1) + 1 ∧
      t.sec.comps = (s.sec.stage.parts.map (fun c => ({ c with seq := s.num (od 0x7900 1) + 1 } : Component))).foldl putComponent s.sec.comps := by
  obtain ⟨h1, h2, h3, h4, h5⟩ := State.stepThree_runs (s := ((s.at w.t).setNum (od 0xC000 3) 4).at t3) hrun s.sec.stage.parts
  have hq : (((s.at w.t).setNum (od 0xC000 3) 4).at t3).num (od 0x7900 1) = s.num (od 0x7900 1) := State.num_setNum_other s _ (by decide)
  rw [hq] at h4 h5
  exact ⟨_, execActivate_third ha hc hr hg, rfl, h1.trans (State.num_setNum s (od 0xC000 3) 4), h2, h3, h4, h5⟩

theorem execActivate_finishes (hc : activateCheck (s.at w.t) = 0)
    (hr : (((s.at w.t).setNum (od 0xC000 3) 4).homeRules s.sec.stage.parts).2 = true) (hrun : s.frame.run = false) :
    ∃ t, exec (.activate w v t3) s = .next t ∧ t.hap.lastStatus = 0 ∧ t.num (od 0xC000 3) = 5 ∧ t.sec.stage = {} := by
  have hg : ((s.at w.t).at t3).gateShut = false := by
    rw [State.gateShut, show ((s.at w.t).at t3).frame.run = s.frame.run from rfl, hrun, Bool.false_and]
  obtain ⟨h1, h2⟩ := State.stepThree_ends (s := ((s.at w.t).setNum (od 0xC000 3) 4).at t3) hrun s.sec.stage.parts
  exact ⟨_, execActivate_third ha hc hr hg, rfl, h1, h2⟩

theorem execActivate_refused (hc : activateCheck (s.at w.t) ≠ 0) : ∃ t, exec (.activate w v t3) s = .next t ∧ t.hap.lastStatus = 11 ∧
    t.sec = s.sec ∧ t.dict = s.dict := by
  have h11 : activateCheck (s.at w.t) = 11 := by
    unfold activateCheck at hc ⊢
    split
    · rfl
    · rename_i h
      exact absurd (if_neg h) hc
  exact ⟨_, next_congr (State.command_refused ha h11 (by decide) _), rfl, rfl, rfl⟩

end

theorem execDiscard_empties (ha : (s.at w.t).accepts w 0xC000 5 (.num v.toNat)) (h : s.num (od 0xC000 3) ≠ 4) :
    ∃ t, exec (.discard w v) s = .next t ∧ t.hap.lastStatus = 0 ∧ t.num (od 0xC000 3) = 0 ∧ t.sec.stage = {} :=
  ⟨_, next_congr (State.command_passes ha (if_neg h) _), rfl, State.num_setNum _ _ 0, rfl⟩

theorem execDiscard_refused (ha : (s.at w.t).accepts w 0xC000 5 (.num v.toNat)) (h : s.num (od 0xC000 3) = 4) :
    ∃ t, exec (.discard w v) s = .next t ∧ t.hap.lastStatus = 11 ∧ t.sec = s.sec ∧ t.dict = s.dict :=
  ⟨_, next_congr (State.command_refused ha (if_pos h) (by decide) _), rfl, rfl, rfl⟩

/-! Key records (R516). -/

section
variable {which : Fin 3} {rec : Bytes} (ha : (s.at w.t).accepts w 0xB002 (which.val + 1) (.oct rec))
include ha

theorem execAuthorityKeyWrite_waits (h : (s.at w.t).keyRecordOk rec (keyRole which) = true) :
    ∃ t, exec (.authorityKeyWrite w which rec) s = .next t ∧ t.hap.lastStatus = 0 ∧
      Sparse.get Od.dflt t.dict.journal (od 0xB002 (which.val + 1)) = .oct rec ∧ t.dict.vals = s.dict.vals :=
  ⟨_, next_congr ((congrArg (State.refusedEvent · 0xB007) (State.command_passes ha (if_pos h) _)).trans (State.refusedEvent_answer (by decide) ..)),
    rfl, Sparse.get_put_same _ _ _ _, rfl⟩

theorem execAuthorityKeyWrite_refused (h : (s.at w.t).keyRecordOk rec (keyRole which) = false) :
    ∃ t, exec (.authorityKeyWrite w which rec) s = .next t ∧ t.hap.lastStatus = 6 ∧ t.dict.journal = s.dict.journal :=
  ⟨_, next_congr ((congrArg (State.refusedEvent · 0xB007) (State.command_refused ha (if_neg (ne_true_of_eq_false h)) (by decide) _)).trans
    (State.refusedEvent_refused ..)), State.raise_lastStatus .., State.raise_journal ..⟩

end

/-! SA records (R541). -/

section
variable {p : Fin 4} {rec : Bytes}

/-- The associations of a port but for the one that a record names. -/
def State.otherSas (s : State) (tx : Bool) (p : Fin 4) (rec : Bytes) : List Sa :=
  s.sec.sas.filter (fun a => !(a.is (8 + p.val) tx && a.an == fieldLe rec 0 1 && a.sci == fieldBe rec 4 8))

/-- The association that a record installs, with its key. -/
def installedSa (tx : Bool) (p : Fin 4) (rec k : Bytes) : Sa :=
  { port := 8 + p.val, tx := tx, an := fieldLe rec 0 1, sci := fieldBe rec 4 8, ssci := fieldBe rec 12 4, salt := slice rec 16 12
    pn := fieldLe rec 28 8, key := k, transmit := tx && bitAt (fieldLe rec 1 1) 1 }

theorem saCheck_fields {tx : Bool} (h : saFieldsOk tx rec = false) (u : State) : saCheck tx p rec u = 6 := if_pos (by rw [h]; rfl)

theorem saCheck_deletes {tx : Bool} (h : saFieldsOk tx rec = true) (hi : saInstall rec = false) (u : State) : saCheck tx p rec u = 0 := by
  rw [saCheck, h, hi]
  rfl

/-- A key that unwraps leaves only the count of SCIs to check. -/
theorem saCheck_installs {tx : Bool} (h : saFieldsOk tx rec = true) (hi : saInstall rec = true) {u : State} {k : Bytes} (hk : u.sakOf rec = some k) :
    saCheck tx p rec u =
      if !tx ∧ !(u.scis (8 + p.val)).contains (fieldBe rec 4 8) ∧ 4 ≤ (u.scis (8 + p.val)).length then 5 else 0 := by
  rw [saCheck, h, hi, hk]
  rfl

theorem saEffect_deletes {tx : Bool} (hi : saInstall rec = false) (u : State) : (saEffect tx p rec u).sec.sas = u.otherSas tx p rec := by
  unfold saEffect
  extract_lets
  rw [hi]
  rfl

/-- An association installed comes first; the others of its kind stay, under TRANSMIT without it. -/
theorem saEffect_installs {tx : Bool} (hi : saInstall rec = true) {u : State} {k : Bytes} (hk : u.sakOf rec = some k) :
    (saEffect tx p rec u).sec.sas = installedSa tx p rec k ::
      if tx && bitAt (fieldLe rec 1 1) 1 then (u.otherSas tx p rec).map (fun a => if a.is (8 + p.val) true then { a with transmit := false } else a)
      else u.otherSas tx p rec := by
  obtain rfl : (u.sakOf rec).getD [] = k := by rw [hk, Option.getD_some]
  unfold saEffect
  extract_lets
  rw [hi]
  rfl

theorem execTxSa_passes (ha : (s.at w.t).accepts w (0xB100 + 16 * p.val) 1 (.oct rec)) (hc : saCheck true p rec (s.at w.t) = 0) :
    exec (.txSa w p rec) s = .next ((saEffect true p rec (s.at w.t)).answer 0) :=
  next_congr ((congrArg (State.refusedEvent · 0xB008) (State.command_passes ha hc _)).trans (State.refusedEvent_answer (by decide) ..))

theorem execRxSa_passes (ha : (s.at w.t).accepts w (0xB100 + 16 * p.val) 2 (.oct rec)) (hc : saCheck false p rec (s.at w.t) = 0) :
    exec (.rxSa w p rec) s = .next ((saEffect false p rec (s.at w.t)).answer 0) :=
  next_congr ((congrArg (State.refusedEvent · 0xB008) (State.command_passes ha hc _)).trans (State.refusedEvent_answer (by decide) ..))

theorem execTxSa_installs (ha : (s.at w.t).accepts w (0xB100 + 16 * p.val) 1 (.oct rec)) (hf : saFieldsOk true rec = true)
    (hi : saInstall rec = true) {k : Bytes} (hk : s.sakOf rec = some k) : ∃ t a, exec (.txSa w p rec) s = .next t ∧ t.hap.lastStatus = 0 ∧
      t.sec.sas.head? = some a ∧ a.port = 8 + p.val ∧ a.tx = true ∧ a.an = fieldLe rec 0 1 ∧ a.sci = fieldBe rec 4 8 ∧ a.key = k ∧
      a.pn = fieldLe rec 28 8 ∧ a.transmit = bitAt (fieldLe rec 1 1) 1 ∧ t.sec.sas.length = (s.otherSas true p rec).length + 1 := by
  have hk' : (s.at w.t).sakOf rec = some k := hk
  have hc : saCheck true p rec (s.at w.t) = 0 := (saCheck_installs hf hi hk').trans (if_neg fun h => absurd h.1 (by decide))
  have he := saEffect_installs (tx := true) (p := p) hi hk'
  refine ⟨_, installedSa true p rec k, execTxSa_passes ha hc, rfl, congrArg List.head? he, rfl, rfl, rfl, rfl, rfl, rfl, rfl,
    (congrArg List.length he).trans (congrArg (· + 1) ?_)⟩
  exact ite_keep (P := fun l : List Sa => l.length = (s.otherSas true p rec).length) (List.length_map _) rfl

theorem execRxSa_installs (ha : (s.at w.t).accepts w (0xB100 + 16 * p.val) 2 (.oct rec)) (hf : saFieldsOk false rec = true)
    (hi : saInstall rec = true) {k : Bytes} (hk : s.sakOf rec = some k) (hl : (s.scis (8 + p.val)).length < 4) :
    ∃ t a, exec (.rxSa w p rec) s = .next t ∧ t.hap.lastStatus = 0 ∧ t.sec.sas = a :: s.otherSas false p rec ∧ a.port = 8 + p.val ∧
      a.tx = false ∧ a.an = fieldLe rec 0 1 ∧ a.sci = fieldBe rec 4 8 ∧ a.key = k := by
  have hk' : (s.at w.t).sakOf rec = some k := hk
  have hc : saCheck false p rec (s.at w.t) = 0 :=
    (saCheck_installs hf hi hk').trans (if_neg fun h => absurd h.2.2 (Nat.not_le.2 hl))
  exact ⟨_, installedSa false p rec k, execRxSa_passes ha hc, rfl, saEffect_installs hi hk', rfl, rfl, rfl, rfl, rfl⟩

theorem execRxSa_full (ha : (s.at w.t).accepts w (0xB100 + 16 * p.val) 2 (.oct rec)) (hf : saFieldsOk false rec = true)
    (hi : saInstall rec = true) {k : Bytes} (hk : s.sakOf rec = some k) (hn : (s.scis (8 + p.val)).contains (fieldBe rec 4 8) = false)
    (hl : 4 ≤ (s.scis (8 + p.val)).length) : ∃ t, exec (.rxSa w p rec) s = .next t ∧ t.hap.lastStatus = 5 ∧ t.sec = s.sec := by
  have hn' : ((s.at w.t).scis (8 + p.val)).contains (fieldBe rec 4 8) = false := hn
  have hc : saCheck false p rec (s.at w.t) = 5 :=
    (saCheck_installs hf hi (u := s.at w.t) hk).trans (if_pos ⟨rfl, by rw [hn']; rfl, hl⟩)
  exact ⟨_, next_congr ((congrArg (State.refusedEvent · 0xB008) (State.command_refused ha hc (by decide) _)).trans
    (State.refusedEvent_answer (by decide) ..)), rfl, rfl⟩

theorem execTxSa_refused (ha : (s.at w.t).accepts w (0xB100 + 16 * p.val) 1 (.oct rec)) (hf : saFieldsOk true rec = false) :
    ∃ t, exec (.txSa w p rec) s = .next t ∧ t.hap.lastStatus = 6 ∧ t.sec = s.sec :=
  ⟨_, next_congr ((congrArg (State.refusedEvent · 0xB008) (State.command_refused ha (saCheck_fields hf _) (by decide) _)).trans
    (State.refusedEvent_refused ..)), State.raise_lastStatus .., State.raise_sec ..⟩

end

/-! RESTART (R557, R558). -/

/-- A staged record goes to the staging buffer in DRAM. -/
theorem Loads.flushLog {t : State} (h : Loads s t) : Loads s t.flushLog := by
  unfold State.flushLog
  extract_lets rs
  split
  rename_i u kept e
  have hu : Loads s u := by
    refine Eq.subst (motive := fun x : State × List EventRec => Loads s x.1) e ?_
    refine foldl_keep (P := fun x : State × List EventRec => Loads s x.1) (fun x y hx => ?_) h
    have hy : Loads s (x.1.stageRecord y.2 y.1).1 := by
      have hg := hx.dramPut (a := logStagingAt y.2) (d := y.1.bytes) |>.dramGet (a := logStagingAt y.2) (n := 32) (e := .clean)
      unfold State.stageRecord
      split <;> rename_i v _ ev <;> rw [ev] at hg <;> exact hg
    split <;> rename_i v ev <;> rw [ev] at hy <;> exact hy
  exact hu.same

theorem Loads.saveAll {t : State} (h : Loads s t) : Loads s t.saveAll := by
  have h1 : Loads s t.saveLife := h.same
  exact h1.flushLog

/-- Causes 3 and 4 save first (R557). -/
theorem State.restarted_saved (s : State) : s.restarted 3 = s.saveAll.startUp 3 s.saveAll.log.ring := by
  unfold State.restarted
  exact if_pos (.inl rfl)

/-- Of the state before a start-up only the life-cycle state counts. -/
theorem State.startsAgain_of_base {u t : State} {c : Nat} (hb : u.sec.base = s.sec.base) (h : u.startsAgain t c) : s.startsAgain t c := by
  obtain ⟨h1, h2, h3, h4, h5, h6, h7⟩ := h
  exact ⟨h1, h2, h3, h4, h5, h6, fun h => h7 (hb ▸ h)⟩

/-- A start-up is for the state as for the one saved before it. -/
theorem State.restarted_starts (s : State) : s.startsAgain (s.restarted 3) 3 := by
  have hs := s.saveAll.startUp_starts (cause := 3) (by decide) s.saveAll.log.ring
  have hb : s.saveAll.sec.base = s.sec.base := (congrArg Sec.base (Loads.refl s).saveAll.sec :)
  rw [s.restarted_saved]
  exact State.startsAgain_of_base hb hs

theorem restartEffect_starts (s : State) : s.startsAgain (restartEffect s) 3 := by
  have hx : (s.raise 0xE00B).sec.base = s.sec.base := congrArg Sec.base (s.raise_sec ..)
  rw [restartEffect]
  generalize s.raise 0xE00B = u at hx
  exact State.startsAgain_of_base hx u.restarted_starts

theorem State.startsAgain_answer {t : State} {c n : Nat} (h : s.startsAgain t c) : s.startsAgain (t.answer n) c := h

theorem execRestart_starts (ha : (s.at w.t).accepts w 0xE000 5 (.num v.toNat)) (hg : (s.at w.t).gateShut = false) :
    ∃ t, exec (.restart w v) s = .next t ∧ t.hap.lastStatus = 0 ∧ s.startsAgain t 3 := by
  have hc : restartCheck (s.at w.t) = 0 := if_neg (ne_true_of_eq_false hg)
  have hs : s.startsAgain (restartEffect (s.at w.t)) 3 := State.startsAgain_of_base (u := s.at w.t) rfl (restartEffect_starts _)
  exact ⟨_, next_congr (State.command_passes ha hc _), rfl, State.startsAgain_answer hs⟩

theorem execRestart_refused (ha : (s.at w.t).accepts w 0xE000 5 (.num v.toNat)) (hg : (s.at w.t).gateShut = true) :
    ∃ t, exec (.restart w v) s = .next t ∧ t.hap.lastStatus = 11 ∧ t.dict = s.dict ∧ t.sec = s.sec :=
  ⟨_, next_congr (State.command_refused ha (if_pos hg) (by decide) _), rfl, rfl, rfl⟩

/-- Settles O57: the gate, ACTIVATE in each of its outcomes, the effect at the boundary, DISCARD, key and SA records and RESTART, one lemma
per outcome. -/
theorem updatesKeysAndAssociationsFollowTheirRules : Obligations.UpdatesKeysAndAssociationsFollowTheirRules := by
  unfold Obligations.UpdatesKeysAndAssociationsFollowTheirRules
  refine fun s => ⟨fun w v ha => ⟨execUpdateGate_host ha, execUpdateGate_refused ha⟩,
    fun t' => ⟨execUpdateGateExpire_closes, execUpdateGateExpire_open, execComponentEffect_due, execComponentEffect_waits⟩,
    fun w v t3 ha => ⟨execActivate_bars ha, execActivate_closed ha, execActivate_writes ha, execActivate_finishes ha, execActivate_refused ha⟩,
    fun w v ha => ⟨execDiscard_empties ha, execDiscard_refused ha⟩,
    fun w which rec ha => ⟨execAuthorityKeyWrite_waits ha, execAuthorityKeyWrite_refused ha⟩, fun w p rec => ⟨?_, execTxSa_refused, ?_⟩,
    fun w v ha => ⟨execRestart_starts ha, execRestart_refused ha⟩⟩
  · exact fun ha hf => ⟨fun hi => ⟨_, execTxSa_passes ha (saCheck_deletes hf hi _), rfl, saEffect_deletes hi _⟩,
      fun _ hi hk => execTxSa_installs ha hf hi hk⟩
  · exact fun ha hf => ⟨fun hi => ⟨_, execRxSa_passes ha (saCheck_deletes hf hi _), rfl, saEffect_deletes hi _⟩,
      fun _ hi hk => execRxSa_installs ha hf hi hk, fun _ hi hk => execRxSa_full ha hf hi hk⟩

end Sys2Proof.Machine
end

