-- ==== Sys2Proof/Proofs/PrimroseBoot.lean ====
section
/-! SUPPORT. Primrose's boot and the start of the supervisor (R519, R521, R524, R525, R538, R539). -/

namespace Sys2Proof.Machine

variable {s t u : State}

/-! What verifies a component (R519). -/

/-- What the security block contributes to the check of a component. -/
def Sec.trust (x : Sec) : Bool × Bool × Bool × Bool × List (Nat × Nat) × List (Nat × Nat) :=
  (x.revoke0, x.debugOpen, x.tampered, x.dusOff, x.floors, x.thermometer)

/-- The objects that contribute to the check of a component. -/
def trustKeys : List Nat := [od 0 3, od 0 6, od 0x2000 1, od 0xB002 3]

theorem State.keyRecordOk_congr (hx : t.sec.revoke0 = s.sec.revoke0) (hn : t.frame.now = s.frame.now)
    (hk : t.num (od 0x2000 1) = s.num (od 0x2000 1)) (rec : Bytes) (role : Nat) : t.keyRecordOk rec role = s.keyRecordOk rec role := by
  unfold State.keyRecordOk State.datesOk State.day
  rw [hx, hn, hk]

/-- A component passes in a state as in one with the same roots, clock, floors and device. -/
theorem State.oneOk_congr (hx : t.sec.trust = s.sec.trust) (hn : t.frame.now = s.frame.now) (hk : ∀ k ∈ trustKeys, t.obj k = s.obj k)
    (c : Component) (tr : Bytes) : t.oneOk c tr = s.oneOk c tr := by
  obtain ⟨hr, hd, ht, ho, hf, hm⟩ : t.sec.revoke0 = s.sec.revoke0 ∧ t.sec.debugOpen = s.sec.debugOpen ∧ t.sec.tampered = s.sec.tampered ∧
      t.sec.dusOff = s.sec.dusOff ∧ t.sec.floors = s.sec.floors ∧ t.sec.thermometer = s.sec.thermometer := by
    simpa [Sec.trust, Prod.ext_iff] using hx
  have h1 := State.oct_of_obj (hk (od 0 3) (by decide))
  have h2 := State.num_of_obj (hk (od 0 6) (by decide))
  have h3 := State.num_of_obj (hk (od 0x2000 1) (by decide))
  have h4 := State.oct_of_obj (hk (od 0xB002 3) (by decide))
  have hs : t.signerOk c tr = s.signerOk c tr := by
    unfold State.signerOk State.signedBy
    rw [State.keyRecordOk_congr hr hn h3, State.keyRecordOk_congr hr hn h3, h4]
  unfold State.oneOk State.identityOk State.floor
  rw [h1, h2, hs, hd, ht, ho, hf, hm]

/-! What Marigold's boot leaves (R521, R538). -/

/-- The security block but for components and measurements. -/
def Sec.still (x : Sec) : Sec := { x with comps := [], m := Vector.replicate 8 [] }

/-- The supervisor firmware among the components of the directory. -/
def State.supervisorImage (s : State) : Option Component := s.sec.comps.find? (fun c => c.type == 1)

/-- What Marigold's boot leaves of `s` in `t`. -/
structure Boots (s t : State) : Prop where
  sec : t.sec.still = s.sec.still
  image : t.supervisorImage = s.supervisorImage
  power : t.power = s.power
  now : t.frame.now = s.frame.now
  obj : ∀ k, unitKey k = false → k ≠ od 0 8 → k ≠ od 0xA030 9 → t.obj k = s.obj k

theorem Ends.boots (h : Ends s t) : Boots s t :=
  ⟨by rw [h.sec], by rw [State.supervisorImage, h.sec]; rfl, h.power, h.now, fun k hk _ _ => h.obj k hk⟩

namespace Boots

theorem base (h : Boots s t) : t.sec.base = s.sec.base := (congrArg Sec.base h.sec :)
theorem effective (h : Boots s t) : t.sec.effective = s.sec.effective := (congrArg Sec.effective h.sec :)
theorem recovery (h : Boots s t) : t.sec.recovery = s.sec.recovery := (congrArg Sec.recovery h.sec :)
theorem dirUsed (h : Boots s t) : t.sec.dirUsed = s.sec.dirUsed := (congrArg Sec.dirUsed h.sec :)
theorem trust (h : Boots s t) : t.sec.trust = s.sec.trust := (congrArg Sec.trust h.sec :)

theorem refl (s : State) : Boots s s := (Ends.refl s).boots

theorem trans (h : Boots s t) (k : Boots t u) : Boots s u :=
  ⟨k.sec.trans h.sec, k.image.trans h.image, k.power.trans h.power, k.now.trans h.now,
    fun j h1 h2 h3 => (k.obj j h1 h2 h3).trans (h.obj j h1 h2 h3)⟩

theorem setMarigold {v : Nat} (h : Boots s t) : Boots s (t.setMarigold v) :=
  h.trans ⟨rfl, rfl, rfl, rfl, fun _ _ _ hk => State.obj_setNum_other t v hk⟩

theorem stopMarigold (h : Boots s t) : Boots s t.stopMarigold := by
  rcases Ends.stopMarigold_shows (t := t) with e | e
  · rwa [e]
  · exact h.setMarigold.trans e.boots

/-- Damage to another component than the supervisor's is not the supervisor's. -/
theorem damage {c : Component} (hc : c.type ≠ 1) (h : Boots s t) : Boots s (t.damage c) := by
  refine h.trans ⟨?_, ?_, State.raise_power .., congrArg FrameSt.now (State.raise_frame ..),
    fun _ hk _ _ => State.obj_raise _ _ _ _ _ (ne_of_unitKey hk (by decide))⟩
  · rw [State.damage, State.raise_sec]
    rfl
  · let f : Component → Component := fun d => if d.type = c.type ∧ d.inst = c.inst then { d with damaged := true } else d
    have hf : (fun d : Component => d.type == 1) ∘ f = fun d => d.type == 1 :=
      funext fun d => ite_keep (P := fun x : Component => (x.type == 1) = (d.type == 1)) rfl rfl
    have h1 : (t.damage c).supervisorImage = t.supervisorImage.map f := by
      rw [State.supervisorImage, State.damage, State.raise_sec]
      exact (List.find?_map ..).trans (by rw [hf]; rfl)
    rw [h1]
    rcases e : t.supervisorImage with _ | d
    · rfl
    · have hd : d.type = 1 := eq_of_beq (List.find?_some (p := fun d : Component => d.type == 1) e)
      exact congrArg some (if_neg fun hx => hc (hx.1.symm.trans hd))

theorem loadMarigold {c : Component} (h : Boots s t) : Boots s (t.loadMarigold c) :=
  h.trans ⟨rfl, rfl, rfl, rfl, fun _ _ hk _ => State.obj_setNum_other _ _ hk⟩

theorem measureComp {c : Component} (h : Boots s t) : Boots s (t.measureComp c) := h.trans ⟨rfl, rfl, rfl, rfl, fun _ _ _ _ => rfl⟩

end Boots

theorem State.firmware_type {n : Nat} {c : Component} (h : s.firmware n = some c) : c.type = n := by
  unfold State.firmware at h
  split at h
  · rename_i d e
    obtain rfl : d = c := Option.some.inj h
    have hd := List.find?_some e
    simp only [Bool.and_eq_true, beq_iff_eq] at hd
    exact hd.1.1
  · exact eq_of_beq (List.find?_some h :)

theorem State.bootMarigold_boots (s : State) : Boots s s.bootMarigold := by
  have hs := Boots.refl s
  unfold State.bootMarigold
  split
  · exact hs.stopMarigold
  · rename_i c e
    have hc : c.type ≠ 1 := by
      rw [State.firmware_type e]
      decide
    unfold State.checked
    split <;> rename_i u e <;> split at e <;> cases e
    · exact (hs.damage hc).stopMarigold
    · exact ite_keep (P := Boots s) hs.loadMarigold.measureComp.stopMarigold hs.loadMarigold.measureComp.setMarigold

/-! Life cycle and directory at boot (R358, R524). -/

/-- The base state that fuses and the life-cycle record give (R524). -/
def Sec.bootBase (x : Sec) : Nat :=
  if x.decommissionedFuse then 6 else if !x.provisionedFuse then 0 else if Config.lcRecordOk storageKey x.lcRecord then x.base else 2

theorem State.readLife_reads (s : State) : s.readLife.sec = { s.sec with base := s.sec.bootBase, effective := s.sec.bootBase } ∧
    s.readLife.power = s.power ∧ s.readLife.frame = s.frame ∧ ∀ k, unitKey k = false → k ≠ od 2 1 → s.readLife.obj k = s.obj k := by
  unfold State.readLife Sec.bootBase
  extract_lets x settle
  have hs : ∀ k b, k ≠ od 2 1 → (settle s b).obj k = s.obj k := fun k b hk => State.obj_setNum_other _ _ hk
  split
  · exact ⟨rfl, rfl, rfl, fun k _ => hs k 6⟩
  · split
    · exact ⟨rfl, rfl, rfl, fun k _ => hs k 0⟩
    · split
      · exact ⟨rfl, rfl, rfl, fun k _ => hs k _⟩
      · exact ⟨State.raise_sec .., State.raise_power .., State.raise_frame ..,
          fun k hk h2 => (State.obj_raise _ _ _ _ _ (ne_of_unitKey hk (by decide))).trans (hs k 2 h2)⟩

/-- The directory copy that Primrose takes (R358). -/
def State.chosenCopy (s : State) (dir0 dir1 : Bool) : Option (Fin 2) :=
  if dir0 ∧ (!dir1 ∨ (s.sec.dirs[1]).seq ≤ (s.sec.dirs[0]).seq) then some 0 else if dir1 then some 1 else none

/-- Components as the read of flash finds them. -/
def markBad (bad : List (Nat × Nat)) (l : List Component) : List Component := l.map (fun c => { c with damaged := bad.contains (c.type, c.inst) })

/-- A directory copy is in force. -/
def State.takeCopy (s : State) (bad : List (Nat × Nat)) (i : Fin 2) : State :=
  (s.modSec (fun x => { x with dirUsed := i, comps := markBad bad (s.sec.dirs[i]).parts })).store (od 0x7900 1) (.num (s.sec.dirs[i]).seq)

theorem State.selectDirectory_some {dir0 dir1 : Bool} {i : Fin 2} (h : s.chosenCopy dir0 dir1 = some i) (bad : List (Nat × Nat)) :
    s.selectDirectory dir0 dir1 bad = (s.takeCopy bad i, true) := by
  unfold State.chosenCopy at h
  unfold State.selectDirectory
  extract_lets d0 d1 mark take
  split at h
  · rename_i hc
    cases h
    exact if_pos hc
  · rename_i hc
    refine (if_neg hc).trans ?_
    split at h
    · rename_i h1
      cases h
      exact if_pos h1
    · cases h

theorem State.selectDirectory_none {dir0 dir1 : Bool} (h : s.chosenCopy dir0 dir1 = none) (bad : List (Nat × Nat)) :
    ∃ l, s.selectDirectory dir0 dir1 bad = (s.modSec (fun x => { x with comps := l }), false) := by
  unfold State.chosenCopy at h
  unfold State.selectDirectory
  extract_lets d0 d1 mark take
  split at h
  · cases h
  · rename_i hc
    split at h
    · cases h
    · rename_i h1
      exact ⟨_, (if_neg hc).trans (if_neg h1)⟩

/-- The supervisor firmware of a copy in force is the copy's, as the read finds it. -/
theorem State.takeCopy_image (s : State) (bad : List (Nat × Nat)) (i : Fin 2) : (s.takeCopy bad i).supervisorImage =
    ((s.sec.dirs[i]).parts.find? (fun c => c.type == 1)).map (fun c => { c with damaged := bad.contains (c.type, c.inst) }) :=
  List.find?_map ..

/-! Network recovery and the debug port (R532, R539). -/

theorem State.enterRecovery_enters (hb : s.sec.base ≠ 6) (ha : s.sec.recovery.active = false) (n : Nat) :
    (s.enterRecovery n).sec = { s.sec with recovery := { active := true, reason := n } } ∧
    (s.enterRecovery n).power = { s.power with supervisor := false, trained := false, mainReady := false } ∧
    (s.enterRecovery n).log.srv = true := by
  unfold State.enterRecovery
  rw [if_neg (by rw [ha]; exact fun h => h.elim hb Bool.false_ne_true)]
  exact ⟨State.raise_sec .., State.raise_power .., State.raise_srv _ _ _ _ (Bool.or_true _)⟩

theorem State.openDebug_opens (s : State) : s.openDebug.power = s.power ∧ s.openDebug.safety = s.safety ∧
    (s.log.srv = true → s.openDebug.log.srv = true) ∧ ∀ k, unitKey k = false → k ≠ od 0xB000 5 → s.openDebug.num k = s.num k := by
  unfold State.openDebug
  split
  · exact ⟨rfl, rfl, id, fun _ _ _ => rfl⟩
  · exact ⟨State.raise_power .., State.raise_safety .., fun h => State.raise_srv _ _ _ _ (by rw [Bool.or_eq_true]; exact .inl h),
      fun k hk h5 => (State.num_raise _ _ _ _ _ (ne_of_unitKey hk (by decide))).trans (State.num_setNum_other _ _ h5)⟩

/-! PRIMROSE_BOOT (R538). -/

/-- Primrose has read the life-cycle state and measured its own issue. -/
def State.bootLife (s : State) (t' : Nat) : State :=
  let u := ((s.at t').modPower (fun x => { x with booted := true, startedAt := (s.at t').frame.now })).readLife
  u.extend 0 (natLe 4 (u.num (od 0 7)))

/-- The issue of the supervisor firmware is shown. -/
def State.showIssue (s : State) : State :=
  match s.supervisorImage with
  | some c => s.setNum (od 0 6) c.issue
  | none => s

/-- What Primrose does with a directory that verifies, or without one. -/
def State.bootFrom (s : State) (found : Bool) : State :=
  (if s.sec.base = 6 then s.decommissioned.modPower (fun x => { x with supervisor := true })
    else if found then s.bootMarigold.bootSupervisor
    else s.bootMarigold.enterRecovery 1).openDebug

section
variable {dir0 dir1 : Bool} {bad : List (Nat × Nat)} {t' : Nat}

theorem execPrimroseBoot_again (hb : s.power.booted = true) : exec (.primroseBoot dir0 dir1 bad t') s = .next (s.at t') :=
  next_congr (if_pos (.inr (.inr hb)))

theorem execPrimroseBoot_boots (h2 : 2 ≤ s.powerState) (h6 : s.powerState ≠ 6) (hb : s.power.booted = false) :
    exec (.primroseBoot dir0 dir1 bad t') s =
      .next (((s.bootLife t').selectDirectory dir0 dir1 bad).1.showIssue.bootFrom ((s.bootLife t').selectDirectory dir0 dir1 bad).2) :=
  next_congr (if_neg fun h => h.elim (Nat.not_lt.2 h2) fun h => h.elim h6 fun h => absurd (hb.symm.trans h) Bool.false_ne_true)

theorem State.bootLife_sec (s : State) (t' : Nat) : ∃ m, (s.bootLife t').sec =
    { s.sec with base := s.sec.bootBase, effective := s.sec.bootBase, m := m } := by
  let a := (s.at t').modPower (fun x => { x with booted := true, startedAt := (s.at t').frame.now })
  refine ⟨(s.bootLife t').sec.m, ?_⟩
  show ({ a.readLife.sec with m := (s.bootLife t').sec.m } : Sec) = _
  rw [a.readLife_reads.1]
  rfl

theorem State.bootLife_power (s : State) (t' : Nat) :
    (s.bootLife t').power = { s.power with booted := true, startedAt := Nat.max s.frame.now t' } := (State.readLife_reads _).2.1

theorem State.bootLife_now (s : State) (t' : Nat) : (s.bootLife t').frame.now = Nat.max s.frame.now t' :=
  congrArg FrameSt.now (State.readLife_reads _).2.2.1

theorem State.bootLife_obj (s : State) (t' : Nat) {k : Nat} (hk : unitKey k = false) (h1 : k ≠ od 2 1) : (s.bootLife t').obj k = s.obj k :=
  (State.readLife_reads _).2.2.2 k hk h1

theorem State.showIssue_leaves (s : State) : s.showIssue.sec = s.sec ∧ s.showIssue.power = s.power ∧ s.showIssue.frame = s.frame ∧
    ∀ k, k ≠ od 0 6 → s.showIssue.obj k = s.obj k := by
  unfold State.showIssue
  split
  · exact ⟨rfl, rfl, rfl, fun k hk => State.obj_setNum_other _ _ hk⟩
  · exact ⟨rfl, rfl, rfl, fun _ _ => rfl⟩

end

/-- The module is in recovery as Primrose's boot from `s` leaves it, with a reason (R539). -/
structure State.InRecovery (s t : State) (n : Nat) : Prop where
  power : t.power = { s.power with supervisor := false, trained := false, mainReady := false }
  effective : t.sec.effective = s.sec.effective
  recovery : t.sec.recovery = { active := true, reason := n }
  dirUsed : t.sec.dirUsed = s.sec.dirUsed
  srv : t.log.srv = true

theorem State.enterRecovery_openDebug (hb : s.sec.base ≠ 6) (ha : s.sec.recovery.active = false) (n : Nat) :
    s.InRecovery (s.enterRecovery n).openDebug n := by
  obtain ⟨hx, hp, hl⟩ := State.enterRecovery_enters hb ha n
  have hd := (s.enterRecovery n).openDebug_leaves.1
  obtain ⟨hdp, -, hdl, -⟩ := (s.enterRecovery n).openDebug_opens
  rw [hx] at hd
  exact ⟨hdp.trans hp, (congrArg Sec.effective hd :), (congrArg Sec.recovery hd :), (congrArg Sec.dirUsed hd :), hdl hl⟩

/-- Without a supervisor firmware that verifies Primrose enters recovery (R539). -/
theorem State.bootSupervisor_fails (hb : s.sec.base ≠ 6) (ha : s.sec.recovery.active = false)
    (hi : ∀ c, s.supervisorImage = some c → c.damaged = true) : s.InRecovery s.bootSupervisor.openDebug 2 := by
  unfold State.bootSupervisor
  split
  · exact State.enterRecovery_openDebug hb ha 2
  · rename_i c e
    have hc : s.checked c = (s.damage c, false) := if_neg (by rw [hi c e]; exact fun h => absurd h.1 (by decide))
    rw [hc]
    have hx : (s.damage c).sec = { s.sec with comps := (s.damage c).sec.comps } := by
      rw [State.damage, State.raise_sec]
    have hp : (s.damage c).power = s.power := State.raise_power ..
    obtain ⟨h1, h2, h3, h4, h5⟩ := State.enterRecovery_openDebug (s := s.damage c) (by rw [hx]; exact hb) (by rw [hx]; exact ha) 2
    exact ⟨by rw [h1, hp], by rw [h2, hx], h3, by rw [h4, hx], h5⟩

/-- A supervisor firmware that verifies is measured and released. -/
theorem State.bootSupervisor_releases {c : Component} (hi : s.supervisorImage = some c) (hd : c.damaged = false)
    (ho : s.oneOk c c.trailer = true) : s.bootSupervisor = (s.measureComp c).modPower (fun x => { x with supervisor := true }) := by
  have hc : s.checked c = (s, true) := if_pos ⟨by rw [hd]; rfl, ho⟩
  unfold State.bootSupervisor
  split
  · rename_i e
    exact absurd (e.symm.trans hi) (Option.some_ne_none c).symm
  · rename_i d e
    obtain rfl : d = c := Option.some.inj (e.symm.trans hi)
    rw [hc]

theorem Boots.inRecovery {n : Nat} (h : Boots s t) (k : t.InRecovery u n) : s.InRecovery u n :=
  ⟨by rw [k.power, h.power], k.effective.trans h.effective, k.recovery, k.dirUsed.trans h.dirUsed, k.srv⟩

/-- Without a directory that verifies Primrose enters recovery (R539). -/
theorem State.bootFrom_noDirectory (hb : s.sec.base ≠ 6) (ha : s.sec.recovery.active = false) : s.InRecovery (s.bootFrom false) 1 := by
  have hm := s.bootMarigold_boots
  rw [State.bootFrom, if_neg hb]
  exact hm.inRecovery (State.enterRecovery_openDebug (by rwa [hm.base]) (by rwa [hm.recovery]) 1)

theorem State.bootFrom_noSupervisor (hb : s.sec.base ≠ 6) (ha : s.sec.recovery.active = false)
    (hi : ∀ c, s.supervisorImage = some c → c.damaged = true) : s.InRecovery (s.bootFrom true) 2 := by
  have hm := s.bootMarigold_boots
  rw [State.bootFrom, if_neg hb]
  exact hm.inRecovery (State.bootSupervisor_fails (by rwa [hm.base]) (by rwa [hm.recovery]) (by rwa [hm.image]))

/-- A directory with a supervisor firmware that verifies releases the supervisor. -/
theorem State.bootFrom_releases (hb : s.sec.base ≠ 6) {c : Component} (hi : s.supervisorImage = some c) (hd : c.damaged = false)
    (ho : s.oneOk c c.trailer = true) : (s.bootFrom true).power = { s.power with supervisor := true } ∧
    (s.bootFrom true).sec.recovery = s.sec.recovery ∧ (s.bootFrom true).sec.dirUsed = s.sec.dirUsed ∧
    ∀ k ∈ [od 0 6, od 0x7900 1], (s.bootFrom true).num k = s.num k := by
  have hm := s.bootMarigold_boots
  have hk : ∀ k ∈ trustKeys, s.bootMarigold.obj k = s.obj k := by
    intro k hk
    have h : ∀ k ∈ trustKeys, unitKey k = false ∧ k ≠ od 0 8 ∧ k ≠ od 0xA030 9 := by decide
    exact hm.obj k (h k hk).1 (h k hk).2.1 (h k hk).2.2
  have he := State.bootSupervisor_releases (s := s.bootMarigold) (hm.image.trans hi) hd ((State.oneOk_congr hm.trust hm.now hk c _).trans ho)
  let u := (s.bootMarigold.measureComp c).modPower (fun x => { x with supervisor := true })
  have hf : s.bootFrom true = u.openDebug := by
    rw [State.bootFrom, if_neg hb, if_pos rfl, he]
  obtain ⟨hp, -, -, hn⟩ := u.openDebug_opens
  have hx := u.openDebug_leaves.1
  rw [hf]
  refine ⟨hp.trans (congrArg (fun x : Power => { x with supervisor := true }) hm.power), (congrArg Sec.recovery hx :).trans hm.recovery,
    (congrArg Sec.dirUsed hx :).trans hm.dirUsed, fun k hk => ?_⟩
  have h : ∀ k ∈ [od 0 6, od 0x7900 1], unitKey k = false ∧ k ≠ od 0 8 ∧ k ≠ od 0xA030 9 ∧ k ≠ od 0xB000 5 := by decide
  obtain ⟨k1, k2, k3, k4⟩ := h k hk
  exact (hn k k1 k4).trans (State.num_of_obj (hm.obj k k1 k2 k3))

/-- A decommissioned module has its fault line held, Marigold stopped and what serves HAP's reads released (R525). -/
theorem State.bootFrom_decommissioned (hb : s.sec.base = 6) (found : Bool) : (s.bootFrom found).power = { s.power with supervisor := true } ∧
    (s.bootFrom found).sec.effective = s.sec.effective ∧ (s.bootFrom found).num (od 0xA030 9) = 3 ∧
    (s.bootFrom found).safety.lineSec = true := by
  let m := (s.modSafety (fun x => { x with lineSec := true })).setMarigold 3
  let u := (m.enterSafe 1).modPower (fun x => { x with supervisor := true })
  have he : s.bootFrom found = u.openDebug := by
    rw [State.bootFrom, if_pos hb, State.decommissioned, if_pos hb]
  have hm : Ends m (m.enterSafe 1) := (Ends.refl m).enterSafe
  have hg : Guarded (m.setMask (od 0xA000 0x0A) 1) (m.enterSafe 1) := Guarded.enterSafe_sets
  obtain ⟨hp, hs, -, hn⟩ := u.openDebug_opens
  have hx := u.openDebug_leaves.1
  rw [he]
  refine ⟨hp.trans (congrArg (fun x : Power => { x with supervisor := true }) hm.power),
    (congrArg Sec.effective hx :).trans (congrArg Sec.effective hm.sec :), ?_, ?_⟩
  · exact (hn _ (by decide) (by decide)).trans ((hm.num (k := od 0xA030 9) (by decide)).trans (State.num_setNum _ _ 3))
  · exact (congrArg Safety.lineSec hs).trans (congrArg Safety.lineSec hg.safety :)

section
variable {dir0 dir1 : Bool} {bad : List (Nat × Nat)} {t' : Nat}

theorem State.bootLife_copy (s : State) (t' : Nat) : (s.bootLife t').chosenCopy dir0 dir1 = s.chosenCopy dir0 dir1 := by
  obtain ⟨m, hm⟩ := s.bootLife_sec t'
  rw [State.chosenCopy, hm, State.chosenCopy]

variable (h2 : 2 ≤ s.powerState) (h6 : s.powerState ≠ 6) (hb : s.power.booted = false)
include h2 h6 hb

/-- Primrose goes on with the copy that it has chosen in force. -/
theorem execPrimroseBoot_copy (i : Fin 2) (hi : s.chosenCopy dir0 dir1 = some i) : exec (.primroseBoot dir0 dir1 bad t') s =
    .next (((s.bootLife t').takeCopy bad i).showIssue.bootFrom true) := by
  rw [execPrimroseBoot_boots h2 h6 hb, State.selectDirectory_some ((s.bootLife_copy t').trans hi)]

theorem execPrimroseBoot_noDirectory (ha : s.sec.recovery.active = false) (hbase : s.sec.bootBase ≠ 6) (hn : s.chosenCopy dir0 dir1 = none) :
    ∃ t, exec (.primroseBoot dir0 dir1 bad t') s = .next t ∧ t.power.booted = true ∧
      t.power.startedAt = Nat.max s.frame.now t' ∧ t.sec.effective = s.sec.bootBase ∧ t.sec.recovery = { active := true, reason := 1 } ∧
      t.power.supervisor = false ∧ t.log.srv = true := by
  obtain ⟨m, hm⟩ := s.bootLife_sec t'
  obtain ⟨l, hl⟩ := State.selectDirectory_none ((s.bootLife_copy t').trans hn) bad
  let a := (s.bootLife t').modSec (fun x => { x with comps := l })
  have hx : a.showIssue.sec = { (s.bootLife t').sec with comps := l } := a.showIssue_leaves.1
  have hp : a.showIssue.power = _ := a.showIssue_leaves.2.1.trans (s.bootLife_power t')
  rw [hm] at hx
  have hr : a.showIssue.InRecovery (a.showIssue.bootFrom false) 1 := State.bootFrom_noDirectory (by rwa [hx]) (by rwa [hx])
  have he : exec (.primroseBoot dir0 dir1 bad t') s = .next (a.showIssue.bootFrom false) := by rw [execPrimroseBoot_boots h2 h6 hb, hl]
  exact ⟨_, he, by rw [hr.power, hp], by rw [hr.power, hp], by rw [hr.effective, hx], hr.recovery, by rw [hr.power], hr.srv⟩

theorem execPrimroseBoot_noSupervisor (ha : s.sec.recovery.active = false) (hbase : s.sec.bootBase ≠ 6) (i : Fin 2)
    (hi : s.chosenCopy dir0 dir1 = some i) (hbad : ∀ c ∈ (s.sec.dirs[i]).parts, c.type = 1 → bad.contains (c.type, c.inst) = true) :
    ∃ t, exec (.primroseBoot dir0 dir1 bad t') s = .next t ∧ t.power.booted = true ∧
      t.power.startedAt = Nat.max s.frame.now t' ∧ t.sec.effective = s.sec.bootBase ∧ t.sec.recovery = { active := true, reason := 2 } ∧
      t.power.supervisor = false ∧ t.log.srv = true ∧ t.sec.dirUsed = i := by
  obtain ⟨m, hm⟩ := s.bootLife_sec t'
  let a := (s.bootLife t').takeCopy bad i
  have hx : a.showIssue.sec = { (s.bootLife t').sec with dirUsed := i, comps := a.sec.comps } := a.showIssue_leaves.1
  have hp : a.showIssue.power = _ := a.showIssue_leaves.2.1.trans (s.bootLife_power t')
  rw [hm] at hx
  have hc : ∀ c, a.showIssue.supervisorImage = some c → c.damaged = true := by
    intro c hc
    have h1 := (congrArg (fun x : Sec => x.comps.find? (fun c => c.type == 1)) a.showIssue_leaves.1 :).symm.trans hc
    have h2 := ((s.bootLife t').takeCopy_image bad i).symm.trans h1
    rw [hm] at h2
    obtain ⟨d, hd, rfl⟩ := Option.map_eq_some_iff.1 h2
    exact hbad d (List.mem_of_find?_eq_some hd) (eq_of_beq (List.find?_some hd :))
  have hr : a.showIssue.InRecovery (a.showIssue.bootFrom true) 2 := State.bootFrom_noSupervisor (by rwa [hx]) (by rwa [hx]) hc
  exact ⟨_, execPrimroseBoot_copy h2 h6 hb i hi, by rw [hr.power, hp], by rw [hr.power, hp], by rw [hr.effective, hx], hr.recovery,
    by rw [hr.power], hr.srv, by rw [hr.dirUsed, hx]⟩

theorem execPrimroseBoot_releases (hf : s.sec.provisionedFuse = true) (hd : s.sec.decommissionedFuse = false)
    (hl : Config.lcRecordOk storageKey s.sec.lcRecord = true) (hbase : s.sec.base ≠ 6) (i : Fin 2) (c : Component)
    (hi : s.chosenCopy dir0 dir1 = some i) (hc : (s.sec.dirs[i]).parts.find? (fun c => c.type == 1) = some c)
    (hbad : bad.contains (c.type, c.inst) = false) (ho : ((s.at t').setNum (od 0 6) c.issue).oneOk c c.trailer = true) :
    ∃ t, exec (.primroseBoot dir0 dir1 bad t') s = .next t ∧ t.power.booted = true ∧ t.power.supervisor = true ∧
      t.sec.recovery = s.sec.recovery ∧ t.num (od 0 6) = c.issue ∧ t.sec.dirUsed = i ∧ t.num (od 0x7900 1) = (s.sec.dirs[i]).seq := by
  obtain ⟨m, hm⟩ := s.bootLife_sec t'
  have hb0 : s.sec.bootBase = s.sec.base := by rw [Sec.bootBase, hd, hf, hl]; rfl
  let a := (s.bootLife t').takeCopy bad i
  let d : Component := { c with damaged := bad.contains (c.type, c.inst) }
  have him : a.supervisorImage = some d := by
    refine ((s.bootLife t').takeCopy_image bad i).trans ?_
    rw [hm]
    exact congrArg (Option.map _) hc
  have hsi : a.showIssue = a.setNum (od 0 6) c.issue := by
    unfold State.showIssue
    rw [him]
  let b := a.setNum (od 0 6) c.issue
  have hbx : b.sec.base = s.sec.base := (congrArg Sec.base hm :).trans hb0
  have hk : ∀ k ∈ trustKeys, b.obj k = ((s.at t').setNum (od 0 6) c.issue).obj k := by
    intro k hk
    have h : ∀ k ∈ trustKeys, unitKey k = false ∧ k ≠ od 2 1 ∧ k ≠ od 0x7900 1 := by decide
    obtain ⟨k1, k2, k3⟩ := h k hk
    by_cases e : k = od 0 6
    · subst e
      exact (State.obj_setNum ..).trans (State.obj_setNum ..).symm
    · exact (State.obj_setNum_other a _ e).trans ((State.obj_store_other _ _ k3).trans ((s.bootLife_obj t' k1 k2).trans
        (State.obj_setNum_other (s.at t') _ e).symm))
  have hok : b.oneOk d d.trailer = true := 
    (State.oneOk_congr (s := (s.at t').setNum (od 0 6) c.issue) (t := b) (congrArg Sec.trust hm :) (s.bootLife_now t') hk d _).trans ho
  obtain ⟨hp, hr, hu, hn⟩ := State.bootFrom_releases (s := b) (by rwa [hbx]) (c := d) him hbad hok
  have hpow : b.power = _ := s.bootLife_power t'
  refine ⟨b.bootFrom true, (execPrimroseBoot_copy h2 h6 hb i hi).trans (next_congr (congrArg (State.bootFrom · true) hsi)), by rw [hp, hpow],
    by rw [hp], hr.trans (congrArg Sec.recovery hm :), (hn _ (by decide)).trans (State.num_setNum ..), hu, (hn _ (by decide)).trans ?_⟩
  have hq : b.obj (od 0x7900 1) = .num ((s.bootLife t').sec.dirs[i]).seq := (State.obj_setNum_other a _ (by decide)).trans (State.obj_store ..)
  rw [State.num, State.int, hq, hm]
  rfl

theorem execPrimroseBoot_decommissioned (hd : s.sec.decommissionedFuse = true) : ∃ t, exec (.primroseBoot dir0 dir1 bad t') s = .next t ∧
    t.power.booted = true ∧ t.power.supervisor = true ∧ t.sec.effective = 6 ∧ t.num (od 0xA030 9) = 3 ∧ t.safety.lineSec = true := by
  obtain ⟨m, hm⟩ := s.bootLife_sec t'
  have hb0 : s.sec.bootBase = 6 := if_pos hd
  obtain ⟨found, a, he, hx, hpa⟩ : ∃ found, ∃ a : State, exec (.primroseBoot dir0 dir1 bad t') s = .next (a.showIssue.bootFrom found) ∧
      (∃ l i, a.sec = { (s.bootLife t').sec with comps := l, dirUsed := i }) ∧ a.power = (s.bootLife t').power := by
    rcases hi : s.chosenCopy dir0 dir1 with _ | i
    · obtain ⟨l, hl⟩ := State.selectDirectory_none ((s.bootLife_copy t').trans hi) bad
      exact ⟨false, (s.bootLife t').modSec (fun x => { x with comps := l }), by rw [execPrimroseBoot_boots h2 h6 hb, hl], ⟨_, _, rfl⟩, rfl⟩
    · exact ⟨true, _, execPrimroseBoot_copy h2 h6 hb i hi, ⟨_, _, rfl⟩, rfl⟩
  obtain ⟨l, i, hx⟩ := hx
  rw [hm, ← a.showIssue_leaves.1] at hx
  have hpow := a.showIssue_leaves.2.1.trans (hpa.trans (s.bootLife_power t'))
  obtain ⟨hp, hef, hn, hs⟩ := State.bootFrom_decommissioned (s := a.showIssue) (by rw [hx]; exact hb0) found
  exact ⟨_, he, by rw [hp, hpow], by rw [hp], hef.trans (by rw [hx]; exact hb0), hn, hs⟩

end

/-! SUPERVISOR_START_TIMEOUT (R539). -/

section
variable {t' : Nat}

theorem execSupervisorStartTimeout_due (hs : s.power.supervisor = true) (ht : s.power.trained = false)
    (hk : s.safety.lastKick ≤ s.power.startedAt) (hn : s.power.startedAt + 2000000000 ≤ Nat.max s.frame.now t') (hb : s.sec.base ≠ 6)
    (ha : s.sec.recovery.active = false) : ∃ t, exec (.supervisorStartTimeout t') s = .next t ∧
      t.sec.recovery = { active := true, reason := 3 } ∧ t.power.supervisor = false ∧ t.log.srv = true := by
  obtain ⟨hx, hp, hl⟩ := State.enterRecovery_enters (s := s.at t') hb ha 3
  refine ⟨(s.at t').enterRecovery 3, next_congr (if_neg ?_), by rw [hx], by rw [hp], hl⟩
  rintro (h | h | h | h)
  · rw [State.at_power, hs] at h
    exact absurd h (by decide)
  · exact absurd (ht.symm.trans h) Bool.false_ne_true
  · exact absurd hk (Nat.not_le.2 h)
  · exact absurd hn (Nat.not_le.2 h)

theorem execSupervisorStartTimeout_early (hn : Nat.max s.frame.now t' < s.power.startedAt + 2000000000) :
    exec (.supervisorStartTimeout t') s = .next (s.at t') := next_congr (if_pos (.inr (.inr (.inr hn))))

end

end Sys2Proof.Machine
end

