-- ==== Sys2Proof/Proofs/NetworkRecovery.lean ====
section
/-! SUPPORT. Network recovery (R539, R540): its messages leave by the HOST ports, and a transfer fills, replaces and restarts. -/

namespace Sys2Proof.Machine

variable {s t u : State}

/-! What a datagram on one HOST port leaves (R443-R450). -/

/-- The objects that make a HOST port ready, and the directory's sequence number. -/
def spareKeys : List Nat :=
  [od 0x1180 0x11, od 0x1180 0x12, od 0x1190 0x11, od 0x1190 0x12, od 0x1000 3, netOd 8 0x0D, netOd 9 0x0D, od 0x7900 1]

/-- What a datagram on port `g` leaves of `s` in `t`. -/
structure Spares (g : Fin 2) (s t : State) : Prop where
  port : t.net.port = s.net.port
  host : ∀ h, h ≠ g → t.net.host[h] = s.net.host[h]
  freeCtr : t.freeCtr = s.freeCtr
  obj : ∀ k ∈ spareKeys, t.obj k = s.obj k

namespace Spares

variable {g : Fin 2}

theorem refl (g : Fin 2) (s : State) : Spares g s s := ⟨rfl, fun _ _ => rfl, rfl, fun _ _ => rfl⟩

theorem trans (h : Spares g s t) (k : Spares g t u) : Spares g s u :=
  ⟨k.port.trans h.port, fun x hx => (k.host x hx).trans (h.host x hx), k.freeCtr.trans h.freeCtr, fun x hx => (k.obj x hx).trans (h.obj x hx)⟩

theorem ite {c : Prop} [Decidable c] (h : Spares g s t) (k : Spares g s u) : Spares g s (if c then t else u) := ite_keep (P := Spares g s) h k

theorem setNum {k : Nat} {v : Int} (h : Spares g s t) (hk : k ∉ spareKeys) : Spares g s (t.setNum k v) :=
  h.trans ⟨rfl, fun _ _ => rfl, rfl, fun _ hj => State.obj_setNum_other t v (ne_of_mem_of_not_mem hj hk)⟩

theorem bump {k n : Nat} (h : Spares g s t) (hk : k ∉ spareKeys) : Spares g s (t.bump k n) := h.setNum hk

theorem raise {c i v : Nat} {b : Bool} (h : Spares g s t) : Spares g s (t.raise c i v b) :=
  h.trans ⟨by rw [State.raise_net], fun _ _ => by rw [State.raise_net], State.raise_freeCtr ..,
    fun _ hk => State.obj_raise t _ _ _ _ (ne_of_mem_of_not_mem hk (by decide))⟩

theorem modSec {f : Sec → Sec} (h : Spares g s t) : Spares g s (t.modSec f) := h.trans ⟨rfl, fun _ _ => rfl, rfl, fun _ _ => rfl⟩

theorem modHost {f : HostOut → HostOut} (h : Spares g s t) : Spares g s (t.modHost g f) :=
  h.trans ⟨rfl, fun _ hx => State.modHost_other _ _ hx, rfl, fun _ _ => rfl⟩

theorem usePn {p an sci pn : Nat} {tx : Bool} (h : Spares g s t) : Spares g s (t.usePn p tx an sci pn) := by
  unfold State.usePn
  extract_lets mine
  split
  · exact h
  · extract_lets warn s1
    have h1 : Spares g s s1 := h.trans ⟨rfl, fun _ _ => rfl, rfl, fun _ _ => rfl⟩
    exact h1.raise.ite h1

/-- A port's count of frames sent is none of the objects. -/
theorem sentCount_notMem (i : Nat) : od i 9 ∉ spareKeys := by
  simp only [spareKeys, netOd, od, List.mem_cons, List.not_mem_nil, or_false, not_or]
  omega

theorem egress_notMem {j : Nat} (hj : j < 256) : od (0x183A + g.val) j ∉ spareKeys := by
  have := g.isLt
  simp only [spareKeys, netOd, od, List.mem_cons, List.not_mem_nil, or_false, not_or]
  omega

theorem transmit {f : TxFrame} (h : Spares g s t) : Spares g s (t.transmit f) := by
  unfold State.transmit
  extract_lets put
  have hp : ∀ u x, Spares g s u → Spares g s (put u x) := fun u x h =>
    (h.bump (sentCount_notMem _)).trans ⟨rfl, fun _ _ => rfl, rfl, fun _ _ => rfl⟩
  refine h.ite (ite ?_ (hp _ _ h))
  split
  · exact h
  · exact h.ite (hp _ _ h.usePn)

theorem accrue {n : Nat} (h : Spares g s t) : Spares g s (t.accrue g n) := by
  unfold State.accrue State.credits
  exact h.modHost

theorem letIn {n : Nat} (h : Spares g s t) : Spares g s (State.letIn n t g) := by
  induction n generalizing t with
  | zero => exact h
  | succ n ih =>
    rw [State.letIn]
    split
    · exact h
    · exact h.ite (ih h.modHost)

theorem hostAdmit (h : Spares g s t) : Spares g s (t.hostAdmit g) := h.letIn.setNum (egress_notMem (by decide))

theorem onLine {f : TxFrame} {n : Nat} (h : Spares g s t) : Spares g s (t.onLine g f n) := by
  unfold State.onLine State.credits
  exact h.modHost.modHost.transmit

theorem hostDrain {n m : Nat} (h : Spares g s t) : Spares g s (State.hostDrain n t g m) := by
  induction n generalizing t m with
  | zero => exact h
  | succ n ih =>
    rw [State.hostDrain]
    have h1 : Spares g s (t.accrue g m) := h.accrue
    split
    · exact ih (h1.modHost.onLine.hostAdmit.bump (egress_notMem (by decide)))
    · split
      · exact ih h1
      · exact h1

theorem hostSend {f : TxFrame} (h : Spares g s t) : Spares g s (t.hostSend g f) :=
  h.ite (h.onLine.ite h.accrue.modHost.hostAdmit.hostDrain)

theorem sendOn {c p a b i : Nat} {r : Option Nat} {d : Bytes} (h : Spares g s t) : Spares g s (t.sendOn g c r p a b i d) := by
  unfold State.sendOn
  split
  · exact h
  · exact h.modHost.hostSend

end Spares

/-- A datagram on one HOST port leaves the other ready. -/
theorem State.lineReady.other {g h : Fin 2} (a : s.lineReady h) (hk : Spares g s t) (hn : h ≠ g) (hf : t.frame = s.frame) : t.lineReady h := by
  have hh := hk.host h hn
  have hkeys : ∀ j ∈ [od (0x1180 + 16 * h.val) 0x11, od (0x1180 + 16 * h.val) 0x12, od 0x1000 3], t.obj j = s.obj j := fun j hj =>
    hk.obj j ((show ∀ h : Fin 2, ∀ j ∈ [od (0x1180 + 16 * h.val) 0x11, od (0x1180 + 16 * h.val) 0x12, od 0x1000 3], j ∈ spareKeys by decide) h j hj)
  obtain ⟨h1, h2, h3, h4⟩ := (State.lineReady.freeClass0 a).congr (t := t) hf (by rw [hh]) (by rw [hh]) hkeys
  obtain ⟨hl, -, -, -, -, hw, hheld, hs⟩ := a
  have hd : t.num (netOd (hostPort h) 0x0D) = s.num (netOd (hostPort h) 0x0D) :=
    State.num_of_obj (hk.obj _ ((show ∀ h : Fin 2, netOd (hostPort h) 0x0D ∈ spareKeys by decide) h))
  exact ⟨by rw [← hl, Net.link, Net.link, hk.port], h1, h2, h3, h4, by rw [hh]; exact hw, by rw [hh]; exact hheld,
    by rw [← hs, State.flag, State.flag, hd]⟩

/-- A UDP datagram's headers have 28 bytes. -/
theorem TxFrame.content_udp {f : TxFrame} (hp : f.proto = 17) : f.content.length = f.payload.length + 28 := by
  unfold TxFrame.content
  simp [hp, natBe_length]
  omega

/-- What a UDP datagram to a known address puts on a ready HOST port (R443). -/
theorem State.sendOn_udp {h : Fin 2} {ip sp dp : Nat} {d mac : Bytes} (a : s.lineReady h) (hm : s.macFor h ip = some mac)
    (hmac : mac.length ≤ 6) (hd : d.length ≤ 65536) : ∃ x : TxFrame, (s.sendOn h 0 none 17 sp dp ip d).net.sent = s.net.sent ++ [x] ∧
      (x.port, x.dstIp, x.sport, x.dport) = (hostPort h, ip, sp, dp) := by
  unfold State.sendOn
  rw [hm]
  extract_lets u
  obtain ⟨m, hu⟩ : ∃ m, u.net.host[h] = { s.net.host[h] with macs := m } := by
    rw [State.modHost_same]
    split
    · exact ⟨_, rfl⟩
    · exact ⟨_, rfl⟩
  obtain ⟨hr, -⟩ := State.lineReady_macs a (t := u) rfl rfl rfl hu
  refine ⟨_, State.hostSend_ready hr rfl rfl (State.frameWords_le _ hmac ?_), rfl⟩
  rw [TxFrame.content_udp rfl]
  dsimp only
  omega

/-- A broadcast leaves each ready HOST port. -/
theorem State.recSend_both {p : Nat} {d : Bytes} (a : ∀ h : Fin 2, s.lineReady h) (hd : d.length ≤ 65536) :
    ((s.recSend 0 0xFFFFFFFF p d).recSend 1 0xFFFFFFFF p d).net.sent.map (fun f => (f.port, f.dstIp, f.sport, f.dport)) =
      s.net.sent.map (fun f => (f.port, f.dstIp, f.sport, f.dport)) ++ [(8, 0xFFFFFFFF, 44103, p), (9, 0xFFFFFFFF, 44103, p)] ∧
    ((s.recSend 0 0xFFFFFFFF p d).recSend 1 0xFFFFFFFF p d).freeCtr = s.freeCtr := by
  have hb : ∀ (u : State) (h : Fin 2), u.macFor h 0xFFFFFFFF = some (List.replicate 6 0xFF) := fun u h => if_pos rfl
  have h0 : Spares 0 s (s.recSend 0 0xFFFFFFFF p d) := (Spares.refl 0 s).sendOn
  have h1 : Spares 1 (s.recSend 0 0xFFFFFFFF p d) ((s.recSend 0 0xFFFFFFFF p d).recSend 1 0xFFFFFFFF p d) := (Spares.refl 1 _).sendOn
  have hf : (s.recSend 0 0xFFFFFFFF p d).frame = s.frame := (Sends.refl s).sendOn.frame
  obtain ⟨x, hx, ex⟩ := State.sendOn_udp (sp := 44103) (dp := p) (a 0) (hb s 0) (by simp) hd
  obtain ⟨y, hy, ey⟩ := State.sendOn_udp (sp := 44103) (dp := p) ((a 1).other h0 (by decide) hf) (hb _ 1) (by simp) hd
  refine ⟨?_, h1.freeCtr.trans h0.freeCtr⟩
  have e : ((s.recSend 0 0xFFFFFFFF p d).recSend 1 0xFFFFFFFF p d).net.sent = s.net.sent ++ [x] ++ [y] := by
    rw [← hx]
    exact hy
  rw [e, List.map_append, List.map_append, List.append_assoc]
  exact congrArg (_ ++ ·) (congrArg₂ (fun a b => [a] ++ [b]) ex ey)

/-! RECOVERY_HELLO and RECOVERY_TRANSFER_TIMEOUT (R540). -/

theorem recMsg_length (op status seq offset : Nat) (d : Bytes) : (recMsg op status seq offset d).length = 16 + d.length := by
  simp only [recMsg, List.length_append, natLe_length, zeros, List.length_replicate]

section
variable {t' : Nat}

theorem execRecoveryHello_quiet (h : s.sec.recovery.active = false) : exec (.recoveryHello t') s = .next (s.at t').quiet :=
  next_congr (if_pos (by rw [State.quiet_sec, State.at_sec, h]; rfl))

theorem execRecoveryHello_broadcasts (h : s.sec.recovery.active = true) (hr : ∀ h : Fin 2, s.lineReady h) :
    ∃ t, exec (.recoveryHello t') s = .next t ∧ t.freeCtr = s.freeCtr + 1 ∧
      t.net.sent.map (fun f => (f.port, f.dstIp, f.sport, f.dport)) = [(8, 0xFFFFFFFF, 44103, 44103), (9, 0xFFFFFFFF, 44103, 44103)] := by
  let a := (s.at t').quiet
  let d := padTo 16 (a.oct (od 0 3)) ++ natLe 1 a.sec.effective ++ natLe 1 a.sec.recovery.reason ++ zeros 2 ++ natLe 4 (a.num (od 0 7))
  have hd : (recMsg 1 0 a.fresh 0 d).length ≤ 65536 := by
    rw [recMsg_length]
    simp only [d, List.length_append, padTo_length, natLe_length, zeros, List.length_replicate]
    decide
  obtain ⟨h1, h2⟩ := State.recSend_both (s := a.drawn) (p := 44103) hr hd
  refine ⟨(a.drawn.recSend 0 0xFFFFFFFF 44103 (recMsg 1 0 a.fresh 0 d)).recSend 1 0xFFFFFFFF 44103 (recMsg 1 0 a.fresh 0 d),
    next_congr (if_neg ?_), h2, h1⟩
  rw [State.quiet_sec, State.at_sec, h]
  decide

theorem execRecoveryTransferTimeout_ends (ho : s.sec.recovery.owner.isSome = true)
    (hn : s.sec.recovery.last + 10000000000 ≤ Nat.max s.frame.now t') : ∃ t, exec (.recoveryTransferTimeout t') s = .next t ∧
      t.sec.recovery = { s.sec.recovery with owner := none, total := 0, data := [] } :=
  ⟨_, next_congr (if_pos ⟨ho, hn⟩), rfl⟩

end

/-! Requests of a transfer (R540). -/

section
variable {r : RecReq}

/-- An answer changes the security block only in the packet numbers of its associations. -/
theorem State.recAnswer_sec (s : State) (r : RecReq) (n : Nat) : (s.recAnswer r n).sec.bare = s.sec.bare := (Guarded.refl s).sendOn.sec

theorem State.recAnswer_seq (s : State) (r : RecReq) (n : Nat) : (s.recAnswer r n).num (od 0x7900 1) = s.num (od 0x7900 1) :=
  State.num_of_obj (((Spares.refl r.host s).sendOn).obj _ (by decide))

variable (ha : s.sec.recovery.active = true) (hv : r.version = 1) {b : Bool} {f : State → State × Nat}
include ha hv

/-- Another source is BUSY. -/
theorem State.recRequest_busy {o : Nat} (ho : s.sec.recovery.owner = some o) (hn : o ≠ r.srcIp) :
    s.recRequest r b f = (s.at r.t).quiet.recAnswer r 7 := by
  unfold State.recRequest
  extract_lets u x
  have hx : x = s.sec.recovery := rfl
  rw [if_neg (by rw [hx, ha, hv]; decide), if_pos (by rw [hx, ho]; simpa using hn)]

/-- A request of the owner, or one that may open a transfer, is carried out and answered. -/
theorem State.recRequest_serves (ho : s.sec.recovery.owner = some r.srcIp ∨ s.sec.recovery.owner = none ∧ b = true) {v : State} {n : Nat}
    (hf : f ((s.at r.t).quiet.modRec (fun y => { y with last := Nat.max s.frame.now r.t })) = (v, n)) : s.recRequest r b f = v.recAnswer r n := by
  unfold State.recRequest
  extract_lets u x
  have hx : x = s.sec.recovery := rfl
  have h1 : ¬ x.owner.any (fun o => o != r.srcIp) = true := by
    rw [hx]
    rcases ho with ho | ⟨ho, -⟩ <;> rw [ho] <;> simp
  have h2 : ¬ ((!b) = true ∧ x.owner.isNone = true) := by
    rw [hx]
    rcases ho with ho | ⟨-, hb⟩
    · rw [ho]
      exact fun h => Bool.false_ne_true h.2
    · rw [hb]
      exact fun h => Bool.false_ne_true h.1
  rw [if_neg (by rw [hx, ha, hv]; decide), if_neg h1, if_neg h2]
  split
  rename_i v' n' e
  have e' := e.symm.trans hf
  cases e'
  rfl

theorem execRecoveryBegin_opens (ho : s.sec.recovery.owner = none ∨ s.sec.recovery.owner = some r.srcIp) (hl : r.data.length = 8)
    (hs : fieldLe r.data 0 4 ≤ s.num (od 0x7900 2)) : ∃ t, exec (.recoveryBegin r) s = .next t ∧ t.sec.recovery =
      { s.sec.recovery with
        owner := some r.srcIp, total := fieldLe r.data 0 4, crc := fieldLe r.data 4 4, data := [], last := Nat.max s.frame.now r.t } := by
  have h := State.recRequest_serves (b := true) ha hv (ho.elim (fun h => .inr ⟨h, rfl⟩) .inl) (f := fun s =>
    if r.data.length ≠ 8 then (s, 10)
    else if s.num (od 0x7900 2) < fieldLe r.data 0 4 then (s, 5)
    else (s.modRec (fun y => { y with owner := some r.srcIp, total := fieldLe r.data 0 4, crc := fieldLe r.data 4 4, data := [] }), 0))
    ((if_neg (not_not.2 hl)).trans (if_neg (Nat.not_lt.2 hs)))
  exact ⟨_, next_congr h, (congrArg Sec.recovery (State.recAnswer_sec ..) :)⟩

theorem execRecoverySegment_appends (ho : s.sec.recovery.owner = some r.srcIp) (hl : r.data.length ≤ 1392)
    (hoff : r.offset = s.sec.recovery.data.length) (ht : s.sec.recovery.data.length + r.data.length ≤ s.sec.recovery.total) :
    ∃ t, exec (.recoverySegment r) s = .next t ∧
      t.sec.recovery = { s.sec.recovery with data := s.sec.recovery.data ++ r.data, last := Nat.max s.frame.now r.t } := by
  have h := State.recRequest_serves (b := false) ha hv (.inl ho) (f := fun s =>
    let x := s.sec.recovery
    if 1392 < r.data.length then (s, 10)
    else if r.offset ≠ x.data.length ∨ x.total < x.data.length + r.data.length then (s, 12)
    else (s.modRec (fun y => { y with data := y.data ++ r.data }), 0))
    ((if_neg (Nat.not_lt.2 hl)).trans (if_neg fun h => h.elim (· hoff) (Nat.not_lt.2 ht)))
  exact ⟨_, next_congr h, (congrArg Sec.recovery (State.recAnswer_sec ..) :)⟩

end

/-! RECOVERY_END (R519, R540). -/

/-- What a complete transfer holds. -/
def State.recParts (s : State) (r : RecReq) : Option (List Component) :=
  if s.sec.recovery.data.length == s.sec.recovery.total && crc32c s.sec.recovery.data == s.sec.recovery.crc then
    ((s.at r.t).readComponent s.sec.recovery.data).filter recTypesOk
  else none

/-- The answer to RECOVERY_END: the transfer is over. -/
def State.recOver (s : State) (r : RecReq) : State :=
  s.recRequest r false (fun u => (u.modRec (fun y => { y with owner := none, total := 0, data := [] }),
    if !(s.sec.recovery.data.length == s.sec.recovery.total && crc32c s.sec.recovery.data == s.sec.recovery.crc) then 12
    else if (s.recParts r).isNone then 6 else 0))

/-- The components of a transfer are in the directory, and events say so (R540). -/
def State.recWrite (s : State) (reason : Nat) (cs : List Component) : State :=
  ((if reason = 1 then (s.writeDirectory cs).raise 0x7806 else s.writeDirectory cs).raise 0xC006)

/-- What RECOVERY_END makes of a transfer: an answer, and where it holds what recovery takes the new directory and a restart. -/
def State.recEnd (s : State) (r : RecReq) : Option (List Component) → State
  | none => s.recOver r
  | some cs =>
    if !s.sec.recovery.active ∨ r.version ≠ 1 ∨ s.sec.recovery.owner ≠ some r.srcIp then s.recOver r
    else ((s.recOver r).recWrite s.sec.recovery.reason cs).restarted 6

theorem execRecoveryEnd_ends (s : State) (r : RecReq) : exec (.recoveryEnd r) s = .next (s.recEnd r (s.recParts r)) := rfl

section
variable {r : RecReq}

/-- A transfer that holds nothing that recovery takes ends with its answer. -/
theorem execRecoveryEnd_answers (h : s.recParts r = none ∨ s.sec.recovery.owner ≠ some r.srcIp) :
    exec (.recoveryEnd r) s = .next (s.recOver r) := by
  rw [execRecoveryEnd_ends]
  rcases e : s.recParts r with _ | cs
  · rfl
  · exact next_congr (if_pos (.inr (.inr (h.resolve_left (by rw [e]; exact (Option.some_ne_none cs))))))

variable (ha : s.sec.recovery.active = true) (hv : r.version = 1)
include ha hv

/-- The end of a transfer leaves the installed components as they are. -/
theorem State.recOver_sec (ho : s.sec.recovery.owner = some r.srcIp) : (s.recOver r).sec.bare = Sec.bare { s.sec with
    recovery := { s.sec.recovery with owner := none, total := 0, data := [], last := Nat.max s.frame.now r.t } } := by
  rw [State.recOver, State.recRequest_serves (s := s) ha hv (.inl ho) rfl, State.recAnswer_sec]
  rfl

theorem State.recOver_seq (ho : s.sec.recovery.owner = some r.srcIp) : (s.recOver r).num (od 0x7900 1) = s.num (od 0x7900 1) := by
  rw [State.recOver, State.recRequest_serves (s := s) ha hv (.inl ho) rfl, State.recAnswer_seq]
  rfl

theorem execRecoveryEnd_refuses (ho : s.sec.recovery.owner = some r.srcIp) (hp : s.recParts r = none) :
    ∃ t, exec (.recoveryEnd r) s = .next t ∧
      t.sec.recovery = { s.sec.recovery with owner := none, total := 0, data := [], last := Nat.max s.frame.now r.t } ∧
      t.sec.comps = s.sec.comps :=
  ⟨_, execRecoveryEnd_answers (.inl hp), (congrArg Sec.recovery (State.recOver_sec ha hv ho) :), (congrArg Sec.comps (State.recOver_sec ha hv ho) :)⟩

/-- Another source than the owner changes nothing of a transfer (R540). -/
theorem execRecovery_busy {o : Nat} (ho : s.sec.recovery.owner = some o) (hn : o ≠ r.srcIp) :
    (∃ t, exec (.recoveryBegin r) s = .next t ∧ t.sec.recovery = s.sec.recovery) ∧
    (∃ t, exec (.recoverySegment r) s = .next t ∧ t.sec.recovery = s.sec.recovery) ∧
    (∃ t, exec (.recoveryEnd r) s = .next t ∧ t.sec.recovery = s.sec.recovery ∧ t.sec.comps = s.sec.comps) := by
  have hx := (s.at r.t).quiet.recAnswer_sec r 7
  have hne : s.sec.recovery.owner ≠ some r.srcIp := by
    rw [ho]
    exact fun h => hn (Option.some.inj h)
  exact ⟨⟨_, next_congr (State.recRequest_busy ha hv ho hn), (congrArg Sec.recovery hx :)⟩,
    ⟨_, next_congr (State.recRequest_busy ha hv ho hn), (congrArg Sec.recovery hx :)⟩,
    ⟨_, (execRecoveryEnd_answers (.inr hne)).trans (next_congr (State.recRequest_busy ha hv ho hn)), (congrArg Sec.recovery hx :),
      (congrArg Sec.comps hx :)⟩⟩

end

/-! The restart that follows (R360, R540, R557). -/

theorem State.decommissioned_sec (s : State) : s.decommissioned.sec = s.sec :=
  ite_keep (P := fun t : State => t.sec = s.sec) (Ends.refl _).enterSafe.sec rfl

theorem State.keepHeads_sec (n s : State) : (n.keepHeads s).sec = n.sec := by
  unfold State.keepHeads
  extract_lets m
  refine foldl_keep (P := fun t : State => t.sec = n.sec) (fun u p h => ?_) rfl
  exact h

theorem State.configure_sec (n : State) : n.configure.sec = n.sec := by
  unfold State.configure
  extract_lets n1 n2 n3 n4
  have h2 : n2.sec = n.sec := by
    refine foldl_keep (P := fun t : State => t.sec = n.sec) (fun u c h => ?_) rfl
    exact h
  have h3 : n3.sec = n.sec := (State.setNum_sec ..).trans h2
  have h4 : n4.sec = n.sec := (State.modTime_sec ..).trans h3
  exact (State.setNum_sec ..).trans ((State.setNum_sec ..).trans h4)

/-- A restart keeps the installed components (R360). -/
theorem State.startUp_comps (s : State) (cause : Nat) (log : List EventRec) : (s.startUp cause log).sec.comps = s.sec.comps := by
  have hx := s.applyArmed_sec
  unfold State.startUp
  generalize s.applyArmed = a at hx
  rw [State.decommissioned_sec]
  show (((a.kept log).keepHeads a).configure).sec.comps = _
  rw [State.configure_sec, State.keepHeads_sec]
  show a.sec.comps = _
  rw [hx]

theorem State.recWrite_sec (s : State) (n : Nat) (cs : List Component) : (s.recWrite n cs).sec = (s.writeDirectory cs).sec :=
  (State.raise_sec ..).trans (ite_keep (P := fun t : State => t.sec = (s.writeDirectory cs).sec) (State.raise_sec ..) rfl)

/-- Only causes 3 and 4 save first (R557). -/
theorem State.restarted_recovered (s : State) : s.restarted 6 = s.startUp 6 s.saveAll.log.ring := by
  unfold State.restarted
  exact if_neg (by decide)

theorem execRecoveryEnd_restarts {r : RecReq} (ha : s.sec.recovery.active = true) (hv : r.version = 1)
    (ho : s.sec.recovery.owner = some r.srcIp) {cs : List Component} (hp : s.recParts r = some cs) :
    ∃ t, exec (.recoveryEnd r) s = .next t ∧ s.startsAgain t 6 ∧ t.sec.comps =
      (cs.map (fun c => ({ c with seq := s.num (od 0x7900 1) + 1 } : Component))).foldl putComponent s.sec.comps := by
  have hc : ¬ ((!s.sec.recovery.active) = true ∨ r.version ≠ 1 ∨ s.sec.recovery.owner ≠ some r.srcIp) := by
    rw [ha, hv, ho]
    simp
  have he : s.recEnd r (some cs) = ((s.recOver r).recWrite s.sec.recovery.reason cs).restarted 6 := if_neg hc
  have hsec := State.recOver_sec ha hv ho
  have hseq := State.recOver_seq ha hv ho
  have hw := (s.recOver r).recWrite_sec s.sec.recovery.reason cs
  generalize s.recOver r = u at he hsec hseq hw
  generalize u.recWrite s.sec.recovery.reason cs = x at he hw
  have hb : x.sec.base = s.sec.base := by
    rw [hw]
    exact (congrArg Sec.base hsec :)
  have hcomps : x.sec.comps = (cs.map (fun c => ({ c with seq := s.num (od 0x7900 1) + 1 } : Component))).foldl putComponent s.sec.comps := by
    rw [hw, State.writeDirectory_comps, hseq]
    exact congrArg (List.foldl putComponent · _) (congrArg Sec.comps hsec :)
  refine ⟨x.startUp 6 x.saveAll.log.ring, ?_, State.startsAgain_of_base (u := x) hb (x.startUp_starts (by decide) _),
    (x.startUp_comps 6 _).trans hcomps⟩
  rw [execRecoveryEnd_ends, hp, he, State.restarted_recovered]

end Sys2Proof.Machine
end

