-- ==== Sys2Proof/Proofs/MainChannel.lean ====
section
/-! THEOREMS. The main channel's DRAM and its readiness (R345, R347, R354, R521, R559, R561), up to the statement on start-up and recovery. -/

namespace Sys2Proof.Machine

variable {s t u : State} {t' : Nat}

/-! CORE_RESET_RELEASE (R354, R559). -/

/-- A controller that is neither trained nor stored as failed fails. -/
def State.failUntrained (s : State) (trained : BitVec 8) (c : Nat) : State :=
  if bitAt trained.toNat c = true ∨ bitAt (s.num (od 0x7800 3)) c = true then s else s.failController c

/-- DRAM is trained: what is shown of its controllers, before its regions are checked. -/
def State.trainDram (s : State) (trained : BitVec 8) : State :=
  let s := (List.range 8).foldl (fun s c => s.failUntrained trained c) s
  let out := s.num (od 0x7800 3)
  let s := (List.range 8).foldl (fun s c => if bitAt out c then s.setNum (od (0x7880 + c) 4) 2 else s) s
  let s := s.setNum (od 0x7800 1) (255 - out % 256 : Nat)
  let s := (s.setNum (od 0x7800 2) s.capacity).modPower (fun x => { x with trained := true })
  let s := s.modExt (fun e => { e with failed := out % 256 })
  if s.controllers.length < 8 then s.raise 0x7804 else s

/-- The first `n` controllers have been judged: those that did not train are stored as failed, and the others are as before. -/
structure State.Judged (s : State) (trained : BitVec 8) (n : Nat) (u : State) : Prop where
  sound : ∀ c, n ≤ c → bitAt u.ext.failed c = false
  stored : ∀ c, bitAt (u.num (od 0x7800 3)) c = (bitAt (s.num (od 0x7800 3)) c || (decide (c < n) && !bitAt trained.toNat c))

theorem State.Judged.step {trained : BitVec 8} {n : Nat} (h : s.Judged trained n u) : s.Judged trained (n + 1) (u.failUntrained trained n) := by
  have hlt : ∀ c, c ≠ n → decide (c < n + 1) = decide (c < n) := fun c hc => decide_eq_decide.2 (by omega)
  unfold State.failUntrained
  split
  · rename_i hk
    refine ⟨fun c hc => h.sound c (by omega), fun c => ?_⟩
    rw [h.stored]
    by_cases e : c = n
    · subst e
      rcases hk with hk | hk
      · rw [hk, Bool.not_true, Bool.and_false, Bool.and_false]
      · rw [h.stored, decide_eq_false (lt_irrefl c), Bool.false_and, Bool.or_false] at hk
        rw [hk, Bool.true_or, Bool.true_or]
    · rw [hlt c e]
  · rename_i hk
    obtain ⟨hf, hs, -⟩ := State.failController_fails (h.sound n le_rfl)
    refine ⟨fun c hc => ?_, fun c => ?_⟩
    · rw [hf, bitAt_setBit_other _ (by omega)]
      exact h.sound c (by omega)
    · rw [hs]
      by_cases e : c = n
      · subst e
        rw [bitAt_setBit_self, decide_eq_true (Nat.lt_succ_self c), Bool.eq_false_iff.2 fun h => hk (.inl h), Bool.not_false, Bool.and_true,
          Bool.or_true]
      · rw [bitAt_setBit_other _ (Ne.symm e), h.stored, hlt c e]

theorem State.judged_range (h : s.ext.failed = 0) (trained : BitVec 8) (n : Nat) :
    s.Judged trained n ((List.range n).foldl (fun s c => s.failUntrained trained c) s) := by
  induction n with
  | zero => exact ⟨fun c _ => by rw [List.range_zero, List.foldl_nil, h, bitAt_eq_testBit, Nat.zero_testBit], fun c => by simp⟩
  | succ n ih =>
    rw [List.range_succ, List.foldl_append]
    exact ih.step

/-- What training shows (R354, R559). -/
structure State.Trained (s : State) (trained : BitVec 8) (t : State) : Prop where
  power : t.power.trained = true
  usable : t.num (od 0x7800 1) = 255 - t.num (od 0x7800 3) % 256
  capacity : t.num (od 0x7800 2) = t.capacity
  failed : t.ext.failed = t.num (od 0x7800 3) % 256
  stored : ∀ c, c < 8 → bitAt (t.num (od 0x7800 3)) c = (bitAt (s.num (od 0x7800 3)) c || !bitAt trained.toNat c)

/-- An end of tasks, an event or a cause of FALLBACK is none of this. -/
theorem State.Trained.ends {trained : BitVec 8} (h : s.Trained trained t) (k : Ends t u) : s.Trained trained u where
  power := by rw [k.power, h.power]
  usable := by rw [k.num (by decide), k.num (by decide), h.usable]
  capacity := by rw [State.capacity, State.controllers, k.num (by decide), k.num (by decide), h.capacity, State.capacity, State.controllers]
  failed := by rw [k.ext, k.num (by decide), h.failed]
  stored c hc := by rw [k.num (by decide), h.stored c hc]

theorem State.trainDram_trained (h : s.ext.failed = 0) (trained : BitVec 8) : s.Trained trained (s.trainDram trained) := by
  have hj := State.judged_range h trained 8
  unfold State.trainDram
  extract_lets s1 out s2 s3 s4 s5
  have h2 : s2.num (od 0x7800 3) = out := by
    refine foldl_keep (P := fun u : State => u.num (od 0x7800 3) = out) (fun u c h => ?_) rfl
    exact ite_keep (P := fun u : State => u.num (od 0x7800 3) = out) ((State.num_setNum_other _ _ (by unfold od; omega)).trans h) h
  clear_value s2
  have h3 : s3.num (od 0x7800 3) = out := (State.num_setNum_other _ _ (by decide)).trans h2
  have h1 : s3.num (od 0x7800 1) = 255 - out % 256 := State.num_setNum ..
  have hd : s5.dict = (s3.setNum (od 0x7800 2) s3.capacity).dict := rfl
  have hk : ∀ k, k ≠ od 0x7800 2 → s5.num k = s3.num k := fun k hk => (State.num_congr hd k).trans (State.num_setNum_other s3 _ hk)
  have h2 : s5.num (od 0x7800 2) = s3.capacity := (State.num_congr hd _).trans (State.num_setNum ..)
  have hf : s5.ext.failed = out % 256 := rfl
  have hp : s5.power.trained = true := rfl
  clear_value s5 s3
  have h5 := (hk (od 0x7800 3) (by decide)).trans h3
  have hu := hk (od 0x7800 1) (by decide)
  have hc : s5.capacity = s3.capacity := by rw [State.capacity, State.controllers, hu, ← State.controllers, ← State.capacity]
  have ht : s.Trained trained s5 :=
    ⟨hp, by rw [hu, h1, h5], by rw [hc, h2], by rw [hf, h5], fun c hc => by rw [h5, hj.stored, decide_eq_true hc, Bool.true_and]⟩
  exact ite_keep (P := s.Trained trained) (ht.ends (Ends.refl s5).raise) ht

/-- Training ends in FALLBACK where a region does not fit (R347). -/
theorem execCoreResetRelease_trains {trained : BitVec 8} (hs : s.power.supervisor = true) (ht : s.power.trained = false) (hb : s.band ≠ 3)
    (h0 : s.ext.failed = 0) : ∃ t, exec (.coreResetRelease trained t') s = .next t ∧ t.power.trained = true ∧
      t.num (od 0x7800 1) = 255 - t.num (od 0x7800 3) % 256 ∧ t.num (od 0x7800 2) = t.capacity ∧ t.ext.failed = t.num (od 0x7800 3) % 256 ∧
      (∀ c, c < 8 → bitAt (t.num (od 0x7800 3)) c = (bitAt (s.num (od 0x7800 3)) c || !bitAt trained.toNat c)) ∧
      (regionsOk t.num t.capacity = false → bitAt (t.num (od 0xA000 3)) 1 = true) := by
  have hd := State.trainDram_trained (s := s.at t') h0 trained
  have he : exec (.coreResetRelease trained t') s = .next (if !s.power.supervisor ∨ s.power.trained ∨ (s.at t').band = 3 then s.at t'
    else if regionsOk ((s.at t').trainDram trained).num ((s.at t').trainDram trained).capacity then (s.at t').trainDram trained
    else ((s.at t').trainDram trained).enterFallback 1) := rfl
  rw [he, if_neg (by rw [hs, ht]; exact fun h => h.elim (by decide) fun h => h.elim (by decide) hb)]
  generalize (s.at t').trainDram trained = u at hd
  have hstored : ∀ {v : State}, (s.at t').Trained trained v →
      ∀ c, c < 8 → bitAt (v.num (od 0x7800 3)) c = (bitAt (s.num (od 0x7800 3)) c || !bitAt trained.toNat c) := fun h => h.stored
  split
  · rename_i hr
    exact ⟨u, rfl, hd.power, hd.usable, hd.capacity, hd.failed, hstored hd, fun h => absurd (hr.symm.trans h) (by decide)⟩
  · have hf := hd.ends ((Ends.refl u).enterFallback (b := 1))
    exact ⟨_, rfl, hf.power, hf.usable, hf.capacity, hf.failed, hstored hf, fun _ => Calm.enterFallback_fault⟩

/-! MAIN_CHANNEL_READY (R311, R521, R559). -/

/-- A table is as its stored descriptor makes it. -/
def State.tableStarted (s t : State) (n : Fin 16) : Prop :=
  if allZero (s.oct (od (0x8100 + 16 * n.val) 1)) = true then (t.table n.val).state = 0
  else (t.table n.val).state = 1 ∨ (t.table n.val).state = 2

theorem State.startTable_started (h : u.dict = s.dict) (n : Fin 16) : s.tableStarted (u.startTable n.val) n := by
  have ho : u.oct (od (0x8100 + 16 * n.val) 1) = s.oct (od (0x8100 + 16 * n.val) 1) := State.oct_of_obj (State.obj_congr h _)
  unfold State.tableStarted State.startTable
  extract_lets d
  rw [State.table_modTable, ← ho]
  dsimp only
  split
  · rfl
  · split
    · exact .inl rfl
    · exact .inr rfl

/-- The start of one table leaves the others. -/
theorem State.table_startTable_other {n m : Fin 16} (h : m ≠ n) : (u.startTable n.val).table m.val = u.table m.val := by
  have hne : (Fin.ofNat 16 n.val).val ≠ (Fin.ofNat 16 m.val).val := fun e =>
    h (Fin.ext ((Nat.mod_eq_of_lt m.isLt).symm.trans (e.symm.trans (Nat.mod_eq_of_lt n.isLt))))
  unfold State.startTable
  extract_lets d
  show ((u.peony.tables.set (Fin.ofNat 16 n.val) _)[(Fin.ofNat 16 m.val).val]) = _
  rw [Vector.getElem_set_ne _ _ hne]
  rfl

/-- All tables start. -/
theorem State.startTables_started (s : State) (n : Fin 16) : s.tableStarted ((List.range 16).foldl (fun s i => s.startTable i) s) n := by
  have h : ∀ k ≤ 16, ((List.range k).foldl (fun s i => s.startTable i) s).dict = s.dict ∧
      (n.val < k → s.tableStarted ((List.range k).foldl (fun s i => s.startTable i) s) n) := by
    intro k
    induction k with
    | zero => exact fun _ => ⟨rfl, fun h => absurd h (Nat.not_lt_zero _)⟩
    | succ k ih =>
      intro hk
      obtain ⟨hd, ht⟩ := ih (by omega)
      rw [List.range_succ, List.foldl_append]
      refine ⟨hd, fun hn => ?_⟩
      by_cases e : n = ⟨k, hk⟩
      · subst e
        exact State.startTable_started hd ⟨k, hk⟩
      · have hlt : n.val < k := Nat.lt_of_le_of_ne (Nat.le_of_lt_succ hn) fun h => e (Fin.ext h)
        have h1 := State.table_startTable_other (u := (List.range k).foldl (fun s i => s.startTable i) s) e
        have h2 := ht hlt
        unfold State.tableStarted at h2 ⊢
        rw [← h1] at h2
        exact h2
  exact (h 16 le_rfl).2 n.isLt

namespace Loads

theorem checked {c : Component} (h : Loads s t) : Loads s (t.checked c).1 :=
  ite_keep (P := fun x : State × Bool => Loads s x.1) h h.damage

theorem loadComp {c : Component} (h : Loads s t) : Loads s (t.loadComp c) := by
  have hc := h.checked (c := c)
  unfold State.loadComp
  refine h.ite ?_
  split <;> rename_i v e <;> rw [e] at hc
  · exact hc
  · exact hc.measureComp.ite hc.measureComp.useLibrary

theorem raiseRefusal {n : Nat} (h : Loads s t) : Loads s (t.raiseRefusal n) := h.ends (Ends.refl t).raiseRefusal

theorem startSchedule (h : Loads s t) : Loads s t.startSchedule := by
  unfold State.startSchedule
  split
  · exact h
  · refine h.ite ?_
    split
    · exact h.raise
    · split
      · exact h.raiseRefusal
      · exact h.putSchedule

end Loads

/-- The main channel with its keys measured, before its tables start. -/
def State.keysMeasured (s : State) : State :=
  [od 0xB002 1, od 0xB002 2, od 0xB002 3].foldl (fun s k => if (s.oct k).length = 168 then s.measure 6 (s.oct k) else s) s

theorem State.keysMeasured_dict (s : State) : s.keysMeasured.dict = s.dict := by
  refine foldl_keep (P := fun t : State => t.dict = s.dict) (fun u k h => ?_) rfl
  exact ite_keep (P := fun t : State => t.dict = s.dict) h h

/-- The main channel is loaded: tables, components, schedule, and what the start-up tests found. -/
def State.loadMain (s : State) : State :=
  let s := (List.range 16).foldl (fun s i => s.startTable i) s.keysMeasured
  let s := s.fillLibrary
  (s.sec.comps.foldl (fun s x => s.loadComp x) s).startSchedule.retireDue.switchPlan

theorem State.loadMain_starts (s : State) (n : Fin 16) : s.tableStarted s.loadMain n := by
  unfold State.loadMain
  extract_lets a b
  have hb : Loads a b := (Loads.refl a).fillLibrary
  have hc : Loads a (b.sec.comps.foldl (fun s x => s.loadComp x) b) := hb.foldl fun _ _ h => h.loadComp
  have hl := hc.startSchedule.retireDue.switchPlan
  have h := s.keysMeasured.startTables_started n
  unfold State.tableStarted at h ⊢
  rw [State.oct_of_obj (State.obj_congr s.keysMeasured_dict _)] at h
  rwa [hl.states]

theorem execMainChannelReady_loads (hs : s.power.supervisor = true) (ht : s.power.trained = true) (hm : s.power.mainReady = false) :
    ∃ t, exec (.mainChannelReady t') s = .next t ∧ t.power.mainReady = true ∧ ∀ n, s.tableStarted t n := by
  have he : exec (.mainChannelReady t') s = .next (if !(s.at t').power.supervisor ∨ !(s.at t').power.trained ∨ (s.at t').power.mainReady then s.at t'
    else (s.at t').loadMain.modPower (fun x => { x with mainReady := true })) := by
    show execMainChannelReady t' s = _
    unfold execMainChannelReady State.loadMain State.keysMeasured
    rfl
  have hn : ∀ n, s.tableStarted (s.at t').loadMain n := (s.at t').loadMain_starts
  rw [if_neg (by rw [State.at_power, hs, ht, hm]; decide)] at he
  generalize (s.at t').loadMain = u at he hn
  exact ⟨_, he, rfl, hn⟩

/-! MAIN_NOT_READY (R561). -/

/-- A record takes another sequence number than the one before (R503). -/
theorem EvLog.next_ne (n : Nat) : (n + 1) % 2 ^ 32 ≠ n ∧ ((n + 1) % 2 ^ 32 + 1) % 2 ^ 32 ≠ n := by omega

/-- An event moves the sequence number of the log on. -/
theorem State.raise_seq_ne (s : State) (c i v : Nat) (b : Bool) : (s.raise c i v b).log.seq ≠ s.log.seq := by
  obtain ⟨h1, h2⟩ := EvLog.next_ne s.log.seq
  unfold State.raise
  dsimp only
  split
  · exact h1
  · split
    · exact h1
    · split
      · exact h1
      · exact h2

theorem execMainNotReady_due (hb : s.power.booted = true) (hm : s.power.mainReady = false) (hl : s.power.lateRaised = false)
    (hn : s.power.startedAt + 3000000000 ≤ Nat.max s.frame.now t') : ∃ t, exec (.mainNotReady t') s = .next t ∧
      t.power.lateRaised = true ∧ t.log.seq ≠ s.log.seq := by
  refine ⟨((s.at t').raise 0xE00C).modPower (fun x => { x with lateRaised := true }), next_congr (if_neg ?_), rfl,
    State.raise_seq_ne (s.at t') 0xE00C 0xFF 0 false⟩
  rw [State.at_power, hb, hm, hl]
  exact fun h => h.elim (by decide) fun h => h.elim (by decide) fun h => h.elim (by decide) (Nat.not_lt.2 hn)

theorem execMainNotReady_once (hl : s.power.lateRaised = true) : exec (.mainNotReady t') s = .next (s.at t') :=
  next_congr (if_pos (.inr (.inr (.inl hl))))

/-- Settles O58: Primrose's boot in each of its outcomes, the supervisor's time-out, the messages of a recovery, the training of DRAM and the
main channel's readiness, one lemma per outcome. -/
theorem theModuleStartsAndRecovers : Obligations.TheModuleStartsAndRecovers := by
  unfold Obligations.TheModuleStartsAndRecovers
  refine fun s => ⟨fun dir0 dir1 bad t' h2 h6 => ⟨execPrimroseBoot_again, fun hb hd ha hbase => ?_, fun hb hf hd hl hbase i c hi hc hbad ho => ?_,
    fun hb hd => execPrimroseBoot_decommissioned h2 h6 hb hd⟩,
    fun t' hs ht hk => ⟨execSupervisorStartTimeout_due hs ht hk, execSupervisorStartTimeout_early⟩,
    fun t' => ⟨execRecoveryHello_quiet, execRecoveryHello_broadcasts, execRecoveryTransferTimeout_ends⟩, fun r ha hv => ?_,
    fun trained t' => execCoreResetRelease_trains, fun t' hs ht hm => ?_, fun t' hb hm => ⟨execMainNotReady_due hb hm, execMainNotReady_once⟩⟩
  · have hlife : s.sec.bootBase =
        (if !s.sec.provisionedFuse then 0 else if Config.lcRecordOk storageKey s.sec.lcRecord then s.sec.base else 2) := by
      rw [Sec.bootBase, hd, if_neg Bool.false_ne_true]
    rw [← hlife] at hbase ⊢
    exact ⟨execPrimroseBoot_noDirectory h2 h6 hb ha hbase, fun i hi hbad => execPrimroseBoot_noSupervisor h2 h6 hb ha hbase i hi hbad⟩
  · exact execPrimroseBoot_releases h2 h6 hb hf hd hl hbase i c hi hc hbad ho
  · refine ⟨fun o ho hn => execRecovery_busy ha hv ho hn, execRecoveryBegin_opens ha hv, execRecoverySegment_appends ha hv,
      fun ho => ⟨?_, ?_, ?_⟩⟩
    · exact fun hw => execRecoveryEnd_refuses ha hv ho (if_neg (ne_true_of_eq_false hw))
    · exact fun hw hp => execRecoveryEnd_refuses ha hv ho ((if_pos hw).trans hp)
    · exact fun cs hw hp => execRecoveryEnd_restarts ha hv ho ((if_pos hw).trans hp)
  · obtain ⟨t, he, hr, hn⟩ := execMainChannelReady_loads hs ht hm
    exact ⟨t, he, hr, fun _ n => hn n⟩

end Sys2Proof.Machine
end
